-- ==== Sys2Proof/Word.lean ====
section
/-! DEFINITION. The word and byte types of the register space and of memory. Registers are 32 bits (R13); memory is
addressed by bytes. -/
namespace Sys2Proof

/-- A register of the register space (R33). -/
abbrev Word := BitVec 32

/-- The smallest addressable unit of every store. -/
abbrev Byte := BitVec 8

end Sys2Proof
end

