-- ==== Sys2Proof/Syntax.lean ====
section
/-!
DEFINITION. The commands the block takes (spec/opcode_table.json), and what their operands are: the header of a command
packet and the host commands of R510, the frames of the cameras and of the network, the requests of R399.
-/
namespace Sys2Proof

/-- Where a command packet comes from and when (R497): the tick at which it is taken, its TAG and its CLIENT. -/
structure Hdr where
  t : Nat
  tag : Nat
  client : Nat
  deriving DecidableEq, Repr, Inhabited

/-- An actuation request entry (R399); `bad` says that a field the layout marks 0 is not 0. -/
structure Req where
  kind : Nat
  carriage : Nat
  slot : Nat
  id : Nat
  sp : Int
  x : Int
  z : Int
  y : Int
  aux : Word
  need : Nat
  bad : Bool := false
  /-- Tick at which it was taken, the die pair whose ring held it (0xFF the host), and its number among the requests taken. -/
  taken : Nat := 0
  pair : Nat := 255
  wid : Nat := 0
  deriving DecidableEq, Repr, Inhabited

/-- The body of a packet a camera sends (R79 to R81). -/
inductive CxpBody where
  /-- Image header: source tag and height in lines. -/
  | header (tag lines : Nat)
  /-- The payload of one line, its pixels packed in the group's pixel format (R74). -/
  | line (bytes : List Byte)
  /-- Event packet of the camera. -/
  | event (bytes : List Byte)
  /-- Control acknowledgement of a register transaction. -/
  | ack (tag : Nat) (bytes : List Byte)
  /-- Unknown packet type or stream ID. -/
  | unknown
  deriving DecidableEq, Repr, Inhabited

/-- A packet of a camera, and whether its CRC is right. -/
structure CxpPkt where
  crcOk : Bool
  body : CxpBody
  deriving DecidableEq, Repr, Inhabited

/-- A PTP message as a port receives it (R467, R471): the version and length checks of its header, its domainNumber, the
source port identity, its sequence number, flags and timestamp, and for an Announce the dataset it announces. `rx` is the
time of its start-of-frame delimiter after the tick, in units of 0.125 ns (0 to 15). -/
structure PtpMsg where
  port : Nat
  version : Nat := 2
  lenOk : Bool := true
  domain : Nat := 0
  src : Nat := 0
  seq : Nat := 0
  twoStep : Bool := false
  sec : Nat := 0
  ns : Nat := 0
  corr : Int := 0
  dataset : Nat := 0
  gm : Nat := 0
  rx : Nat := 0
  deriving DecidableEq, Repr, Inhabited

/-- What the carrier board gives a start: the two firmware copies and the start-up configuration block of the flash (R532,
R536), and the levels of the straps PLUMB_SPLIT and STRAP1 to STRAP3 (R578). -/
structure Board where
  copy0 : List Byte := []
  copy1 : List Byte := []
  config : List Byte := []
  split : Bool := false
  straps : Nat := 0
  deriving DecidableEq, Repr, Inhabited

/-- The fuses of a part (R2, R518, R525): its kind, range and serial number, PLUMB_SPLIT, DEBUG_LOCK, REQUIRE_OWNER_SIG, and
the firmware and owner key slots with their revoke bits. -/
structure Fuses where
  vyu2140 : Bool := false
  ext : Bool := false
  serial : Nat := 0
  split : Bool := false
  debugLock : Bool := false
  ownerSig : Bool := false
  fw : List (Option (List Byte) × Bool) := []
  owner : List (Option (List Byte) × Bool) := []
  /-- MAC addresses of the ports (R490). -/
  macs : List Nat := []
  deriving DecidableEq, Repr, Inhabited

/-- What the self-tests and trainings of a start find (R529): die pairs whose Lintel or compute BIST fails, physical cores that
fail BIST (die, core), ring links that train, Quarry channels that train, those whose devices do not meet R291, those of
512 Mbit devices, their taps, ports with block lock, and the
milliseconds at which steps 2, 5, 6, 7, 8, 9 and 11 end. -/
structure Bist where
  badDies : Nat := 0
  badCores : List (Nat × Nat) := []
  /-- Lintel banks, as (die, bank), that no spare row repairs (R289). -/
  badBanks : List (Nat × Nat) := []
  /-- Spare rows that the repair maps use (R289, R592): a Lintel bank, as (die, bank), and their number. -/
  rows : List (Nat × Nat × Nat) := []
  /-- Spare rows of core stores that BIST uses: die, core, bank and their number. -/
  coreRows : List (Nat × Nat × Nat × Nat) := []
  links : Nat := 15
  qch : Nat := 65535
  ids : Nat := 0
  dense : Nat := 0
  taps : List Nat := []
  lock : Nat := 15
  ends : List Nat := []
  deriving DecidableEq, Repr, Inhabited

/-- A host command and its parameters (R510), as its parameter bytes give them. -/
inductive HostCmd where
  | echo (bytes : List Byte)
  | deviceInfo
  | deviceReset (confirm : Word)
  | cxpRegRead (group addr len : Nat)
  | cxpRegWrite (group addr : Nat) (bytes : List Byte)
  | logPull (log most : Nat)
  | imagePull (band : Int) (col mask cols : Nat)
  | regRead (addr : Word) (count : Nat)
  | regWrite (pairs : List (Word × Word))
  | regModify (addr mask value : Word)
  | planLoad (len : Nat) (digest : List Byte)
  | planAdmit
  | planStart
  | planStop
  | planUnload
  | graphSubmit (die : Nat) (addr : Nat)
  | graphWait (id : Nat)
  | modelLoad (id mask : Nat) (signed : Bool) (len : Nat) (digest : List Byte)
  | modelUnload (id : Nat)
  | flatLoad (group phase count : Nat)
  | projLoad (group count : Nat)
  | pageMap (first count pin : Nat)
  | pageUnmap (first count : Nat)
  | memWrite (space addr : Nat) (bytes : List Byte)
  | memWriteBulk (space addr len : Nat)
  | memRead (space addr len : Nat)
  | memReadBulk (space addr len : Nat)
  | ctxOpen (ctx stateAddr initAddr size : Nat) (markReset : Bool) (tag : Nat)
  | ctxClose (ctx : Nat)
  | seqOpen (seq heads dim : Nat) (q4 markReset : Bool) (sp0 : Int) (pitch list max : Nat)
  | seqFork (src dst n : Nat)
  | seqClose (seq : Nat)
  | courseProgLoad (prog : Nat) (text : List Nat)
  | servoProgLoad (axis : Nat) (text consts inits : List Word)
  | qpLoad (ctl len : Nat)
  | motionPost (reqs : List Req)
  | sdfLoad (box : List Nat) (len : Nat)
  | occLoad (t0 first last len : Nat)
  | mapPublish
  | timeRead
  | ruleLoad (digest image : List Byte)
  | safetyStatus
  | budgetSet (mw : Nat) (cold420 : Bool)
  | powerState (st : Nat)
  | accountRead (client die : Nat)
  | attest (nonce : List Byte)
  | keyInfo
  | ownerKeySet (slot : Nat) (key : List Byte) (confirm : Word)
  | ownerKeyRevoke (slot : Nat) (confirm : Word)
  | testMode (enter : Nat) (confirm : Word)
  deriving DecidableEq, Repr, Inhabited

/-- The commands of the block: one constructor for each row of the opcode table, with the row's operands. `t` is the
timing-clock tick (2 ns) at which an event happens, `h` the header of a command packet, `die` a compute die, `slot` one of
its 48 slots. -/
inductive Instr where
  /-- SNAPSHOT_READ (R599). -/
  | snapshotRead (h : Hdr) (addr : Word)
  /-- SNAPSHOT_CONSUME (R599). -/
  | snapshotConsume (h : Hdr) (addr : Word)
  /-- ENCODER_EDGE (R39). -/
  | encoderEdge (t n : Nat) (a b : Bool)
  /-- LOS (R40). -/
  | los (t n : Nat)
  /-- POSITION_LOST (R48). -/
  | positionLost (t : Nat)
  /-- CLEAR_FAULT_A (R46). -/
  | clearFaultA (h : Hdr)
  /-- CLEAR_FAULT_B (R46). -/
  | clearFaultB (h : Hdr)
  /-- RESYNC (R46). -/
  | resync (h : Hdr)
  /-- LOAD_SP (R50). -/
  | loadSp (h : Hdr)
  /-- RELOCATE (R49). -/
  | relocate (h : Hdr)
  /-- COIL_MARK (R51). -/
  | coilMark (h : Hdr)
  /-- SPEED_ESTIMATE (R52). -/
  | speedEstimate (t : Nat)
  /-- ZERO_SPEED (R52). -/
  | zeroSpeed (t : Nat)
  /-- LINE_TRIGGER (R57). -/
  | lineTrigger (t g ph : Nat) (n : Int)
  /-- LATE_TRIGGER (R59). -/
  | lateTrigger (t g : Nat)
  /-- STROBE_START (R61). -/
  | strobeStart (t out : Nat)
  /-- STROBE_END (R61). -/
  | strobeEnd (t out : Nat)
  /-- PULSE_END (R60). -/
  | pulseEnd (t out : Nat)
  /-- PROG_EN_WRITE (R68). -/
  | progEnWrite (h : Hdr) (half : Nat) (value : Word)
  /-- HALT (R67). -/
  | halt (t p : Nat)
  /-- ANCHOR (R67). -/
  | anchor (t p : Nat)
  /-- WAIT_SP_GE (R67). -/
  | waitSpGe (t p : Nat) (ofs : Int)
  /-- WAIT_SP_LE (R67). -/
  | waitSpLe (t p : Nat) (ofs : Int)
  /-- WAIT_DSP (R67). -/
  | waitDsp (t p um : Nat)
  /-- WAIT_T (R67). -/
  | waitT (t p ns : Nat)
  /-- WAIT_LINE (R67). -/
  | waitLine (t p g ph count : Nat)
  /-- WAIT_SIG (R67). -/
  | waitSig (t p sig : Nat)
  /-- SIGNAL (R67). -/
  | signal (t p sig : Nat)
  /-- OUT_SET (R67). -/
  | outSet (t p out : Nat)
  /-- OUT_CLR (R67). -/
  | outClr (t p out : Nat)
  /-- OUT_PULSE (R67). -/
  | outPulse (t p out ns : Nat)
  /-- LG_ON (R67). -/
  | lgOn (t p g : Nat)
  /-- LG_OFF (R67). -/
  | lgOff (t p g : Nat)
  /-- MARK (R67). -/
  | mark (t p code : Nat)
  /-- SETC (R67). -/
  | setc (t p c value : Nat)
  /-- DJNZ (R67). -/
  | djnz (t p c addr : Nat)
  /-- JUMP (R67). -/
  | jump (t p addr : Nat)
  /-- IF_SLOW (R67). -/
  | ifSlow (t p speed addr : Nat)
  /-- IF_REV (R67). -/
  | ifRev (t p addr : Nat)
  /-- PROG_FAULT (R67). -/
  | progFault (t p : Nat)
  /-- WAIT_COMPLETES (R64). -/
  | waitCompletes (t p : Nat)
  /-- PROG_RUNAWAY (R65). -/
  | progRunaway (t p : Nat)
  /-- ACQ_START (R104). -/
  | acqStart (h : Hdr)
  /-- ACQ_STOP (R104). -/
  | acqStop (h : Hdr)
  /-- GROUP_UP (R73). -/
  | groupUp (t g speed lanes : Nat)
  /-- GROUP_FAILED (R73). -/
  | groupFailed (t g : Nat)
  /-- PCX_FAULT (R77). -/
  | pcxFault (t g : Nat)
  /-- GROUP_DOWN (R78). -/
  | groupDown (t g : Nat)
  /-- REDISCOVERY (R78). -/
  | rediscovery (t g : Nat)
  /-- CXP_PACKET (R79). -/
  | cxpPacket (t g : Nat) (pkt : CxpPkt)
  /-- STAMP_TIMEOUT (R81). -/
  | stampTimeout (t g : Nat)
  /-- SENSOR_RECORD (R486). -/
  | sensorRecord (t port : Nat) (bytes : List Byte)
  /-- TASK_DISPATCH (R135). -/
  | taskDispatch (t die slot graph task : Nat)
  /-- TASK_COMPLETE (R320). -/
  | taskComplete (t die slot : Nat)
  /-- BLOCK_DRAIN (R114). -/
  | blockDrain (t die slot : Nat)
  /-- DROOP_EVENT (R557). -/
  | droopEvent (t die half : Nat)
  /-- CORE_HUNG (R128). -/
  | coreHung (t die slot : Nat)
  /-- SPARE_IN_DONE (R139). -/
  | spareInDone (t die slot : Nat)
  /-- READMIT_DONE (R347). -/
  | readmitDone (t : Nat)
  /-- RETIRE_CORE (R142). -/
  | retireCore (h : Hdr) (die core : Nat)
  /-- FABRIC_CLEAR_COUNTERS (R149). -/
  | fabricClearCounters (h : Hdr) (die : Nat)
  /-- FREQ_CHANGED (R131). -/
  | freqChanged (t : Nat)
  /-- CONV (R190). -/
  | conv (t die slot addr : Nat)
  /-- DWCONV (R193). -/
  | dwconv (t die slot addr : Nat)
  /-- POOL (R195). -/
  | pool (t die slot addr : Nat)
  /-- CROP_RESIZE (R208). -/
  | cropResize (t die slot addr : Nat)
  /-- BOX_DECODE (R203). -/
  | boxDecode (t die slot addr : Nat)
  /-- SUPPRESS (R206). -/
  | suppress (t die slot addr : Nat)
  /-- COPY (R310). -/
  | copy (t die slot addr : Nat)
  /-- BLOCKED_TO_PLANAR (R309). -/
  | blockedToPlanar (t die slot addr : Nat)
  /-- PHASE_SPLIT (R184). -/
  | phaseSplit (t die slot addr : Nat)
  /-- PLANAR_TO_BLOCKED (R309). -/
  | planarToBlocked (t die slot addr : Nat)
  /-- ROW_GATHER (R184). -/
  | rowGather (t die slot addr : Nat)
  /-- FILL (R308). -/
  | fill (t die slot addr : Nat)
  /-- CHAIN_DEADLINE (R311). -/
  | chainDeadline (t die slot chain : Nat)
  /-- SWAP_IN (R217). -/
  | swapIn (t die ctx : Nat)
  /-- SWAP_IN_DONE (R218). -/
  | swapInDone (t die ctx : Nat)
  /-- EVICTION_DONE (R218). -/
  | evictionDone (t die ctx : Nat)
  /-- LSCAN (R234). -/
  | lscan (t die slot addr : Nat)
  /-- GCELL (R235). -/
  | gcell (t die slot addr : Nat)
  /-- BISCAN (R236). -/
  | biscan (t die slot addr : Nat)
  /-- BIND (R238). -/
  | bind (t die slot addr : Nat)
  /-- RESET_CTX (R243). -/
  | resetCtx (h : Hdr) (die ctx : Nat)
  /-- PIN (R220). -/
  | pin (h : Hdr) (die ctx : Nat)
  /-- UNPIN (R243). -/
  | unpin (h : Hdr) (die ctx : Nat)
  /-- EVICT (R243). -/
  | evict (h : Hdr) (die ctx : Nat)
  /-- STREAM_CLEAR_COUNTERS (R243). -/
  | streamClearCounters (h : Hdr) (die : Nat)
  /-- STREAM_CTX_SEL (R240). -/
  | streamCtxSel (h : Hdr) (die ctx : Nat)
  /-- KV_APPEND (R253). -/
  | kvAppend (t die slot addr : Nat)
  /-- ATTN (R265). -/
  | attn (t die slot addr : Nat)
  /-- ATTN_MERGE (R268). -/
  | attnMerge (t die slot addr : Nat)
  /-- ATTN_BWD (R269). -/
  | attnBwd (t die slot addr : Nat)
  /-- ADAPT_ACCUM (R271). -/
  | adaptAccum (t die slot addr : Nat)
  /-- ADAPT_STEP (R273). -/
  | adaptStep (t die slot addr : Nat)
  /-- RESET_SEQ (R280). -/
  | resetSeq (h : Hdr) (die seq : Nat)
  /-- KV_CLOSE (R280). -/
  | kvClose (h : Hdr) (die seq : Nat)
  /-- COMMIT (R274). -/
  | commit (h : Hdr)
  /-- ROLLBACK (R275). -/
  | rollback (h : Hdr)
  /-- RESET_MASTERS (R275). -/
  | resetMasters (h : Hdr)
  /-- KV_CLEAR_COUNTERS (R280). -/
  | kvClearCounters (h : Hdr) (die : Nat)
  /-- KV_SEQ_SEL (R277). -/
  | kvSeqSel (h : Hdr) (die seq : Nat)
  /-- KV_PAGE_SEL (R277). -/
  | kvPageSel (h : Hdr) (die page : Nat)
  /-- ADAPT_COMMIT (R274). -/
  | adaptCommit (t : Nat)
  /-- TIER_BASE_WRITE (R283). -/
  | tierBaseWrite (h : Hdr) (die : Nat) (value : Word)
  /-- LINTEL_SCRUB (R288). -/
  | lintelScrub (t die : Nat)
  /-- QUARRY_SCRUB (R300). -/
  | quarryScrub (t : Nat)
  /-- QUARRY_BURST (R294). -/
  | quarryBurst (t ch : Nat)
  /-- BURST_TIMEOUT (R298). -/
  | burstTimeout (t ch : Nat)
  /-- LOST_MARKING_DONE (R299). -/
  | lostMarkingDone (t : Nat)
  /-- MIGRATION_PERIOD (R305). -/
  | migrationPeriod (t : Nat)
  /-- MIGRATION_MOVE_DONE (R306). -/
  | migrationMoveDone (t page : Nat)
  /-- EXCLUDE_QCH (R315). -/
  | excludeQch (h : Hdr) (ch : Nat)
  /-- MEM_CLEAR_COUNTERS (R315). -/
  | memClearCounters (h : Hdr)
  /-- MEM_PAGE_SEL (R313). -/
  | memPageSel (h : Hdr) (page : Nat)
  /-- FRAME_BOUNDARY (R327). -/
  | frameBoundary (t : Nat)
  /-- TASK_END (R318). -/
  | taskEnd (t die slot : Nat)
  /-- OPER (R318). -/
  | oper (t die slot addr : Nat)
  /-- CHAIN (R318). -/
  | chain (t die slot chain addr : Nat)
  /-- WAITC (R318). -/
  | waitc (t die slot chain : Nat)
  /-- BARRIER (R318). -/
  | barrier (t die slot : Nat)
  /-- SETL (R318). -/
  | setl (t die slot c value : Nat)
  /-- TASK_DJNZ (R318). -/
  | taskDjnz (t die slot c target : Nat)
  /-- TASK_JUMP (R318). -/
  | taskJump (t die slot target : Nat)
  /-- PROG_ERR (R318). -/
  | progErr (t die slot : Nat)
  /-- TASK_INSTR_LIMIT (R318). -/
  | taskInstrLimit (t die slot : Nat)
  /-- VEC_FADD (R319). -/
  | vecFadd (t die slot vd va vb : Nat)
  /-- VEC_FMUL (R319). -/
  | vecFmul (t die slot vd va vb : Nat)
  /-- VEC_FFMA (R319). -/
  | vecFfma (t die slot vd va vb vc : Nat)
  /-- VEC_FMAX (R319). -/
  | vecFmax (t die slot vd va vb : Nat)
  /-- VEC_FMIN (R319). -/
  | vecFmin (t die slot vd va vb : Nat)
  /-- FCMP (R319). -/
  | fcmp (t die slot vd va vb : Nat)
  /-- IADD (R319). -/
  | iadd (t die slot vd va vb : Nat)
  /-- IMUL (R319). -/
  | imul (t die slot vd va vb : Nat)
  /-- ISHL (R319). -/
  | ishl (t die slot vd va vb : Nat)
  /-- ISHR (R319). -/
  | ishr (t die slot vd va vb : Nat)
  /-- IAND (R319). -/
  | iand (t die slot vd va vb : Nat)
  /-- IOR (R319). -/
  | ior (t die slot vd va vb : Nat)
  /-- IXOR (R319). -/
  | ixor (t die slot vd va vb : Nat)
  /-- ICMP (R319). -/
  | icmp (t die slot vd va vb : Nat)
  /-- ICLAMP (R319). -/
  | iclamp (t die slot vd va vb vc : Nat)
  /-- RESCALE (R319). -/
  | rescale (t die slot vd va rec addr : Nat)
  /-- CVT (R319). -/
  | cvt (t die slot vd va rec : Nat)
  /-- EXP (R319). -/
  | exp (t die slot vd va : Nat)
  /-- VEC_RECIP (R319). -/
  | vecRecip (t die slot vd va : Nat)
  /-- VEC_RSQRT (R319). -/
  | vecRsqrt (t die slot vd va : Nat)
  /-- SIGM (R319). -/
  | sigm (t die slot vd va : Nat)
  /-- VEC_TANH (R319). -/
  | vecTanh (t die slot vd va : Nat)
  /-- VLD (R319). -/
  | vld (t die slot vd rec addr : Nat)
  /-- VST (R319). -/
  | vst (t die slot va rec addr : Nat)
  /-- VBCAST (R319). -/
  | vbcast (t die slot vd : Nat) (imm : Word)
  /-- VRMAX (R319). -/
  | vrmax (t die slot vd va : Nat)
  /-- VRSUM (R319). -/
  | vrsum (t die slot vd va : Nat)
  /-- ILANE (R319). -/
  | ilane (t die slot vd : Nat)
  /-- ACCOUNTING_PERIOD (R350). -/
  | accountingPeriod (t : Nat)
  /-- PLAN_STOP_DONE (R339). -/
  | planStopDone (t : Nat)
  /-- READMIT (R357). -/
  | readmit (h : Hdr)
  /-- BOND_CLEAR_COUNTERS (R357). -/
  | bondClearCounters (h : Hdr)
  /-- BOND_ACCT_SEL (R355). -/
  | bondAcctSel (h : Hdr) (value : Word)
  /-- BASE_TICK (R358). -/
  | baseTick (t : Nat) (gpio : BitVec 32) (adc : List Nat)
  /-- SERVO_EN_SET (R358). -/
  | servoEnSet (h : Hdr)
  /-- SERVO_EN_CLEAR (R358). -/
  | servoEnClear (h : Hdr)
  /-- AXIS_ENCODER_EDGE (R369). -/
  | axisEncoderEdge (t ax : Nat) (a b : Bool)
  /-- SSI_FRAME_DONE (R370). -/
  | ssiFrameDone (t ax : Nat) (ok : Bool) (reading : Nat)
  /-- CONTROL_LAW_RUN (R366). -/
  | controlLawRun (t ax : Nat)
  /-- SERVO_END (R367). -/
  | servoEnd (t ax : Nat)
  /-- SERVO_FADD (R367). -/
  | servoFadd (t ax d a b : Nat)
  /-- SERVO_FSUB (R367). -/
  | servoFsub (t ax d a b : Nat)
  /-- SERVO_FMUL (R367). -/
  | servoFmul (t ax d a b : Nat)
  /-- SERVO_FFMA (R367). -/
  | servoFfma (t ax d a b c : Nat)
  /-- SERVO_FMIN (R367). -/
  | servoFmin (t ax d a b : Nat)
  /-- SERVO_FMAX (R367). -/
  | servoFmax (t ax d a b : Nat)
  /-- SERVO_FABS (R367). -/
  | servoFabs (t ax d a : Nat)
  /-- FCLAMP (R367). -/
  | fclamp (t ax d a b c : Nat)
  /-- FSEL (R367). -/
  | fsel (t ax d a b c : Nat)
  /-- LDK (R367). -/
  | ldk (t ax d c : Nat)
  /-- SERVO_RECIP (R367). -/
  | servoRecip (t ax d a : Nat)
  /-- SERVO_RSQRT (R367). -/
  | servoRsqrt (t ax d a : Nat)
  /-- SERVO_TANH (R367). -/
  | servoTanh (t ax d a : Nat)
  /-- SERVO_ENABLE (R390). -/
  | servoEnable (h : Hdr) (ax : Nat)
  /-- SERVO_DISABLE (R390). -/
  | servoDisable (h : Hdr) (ax : Nat)
  /-- AXIS_CLEAR_FAULT (R390). -/
  | axisClearFault (h : Hdr) (ax : Nat)
  /-- HOME (R369). -/
  | home (h : Hdr) (ax : Nat)
  /-- RESET_STATE (R366). -/
  | resetState (h : Hdr) (ax : Nat)
  /-- SERVO_RESYNC (R364). -/
  | servoResync (h : Hdr) (ax : Nat)
  /-- CLEAR_GROUP (R390). -/
  | clearGroup (h : Hdr) (g : Nat)
  /-- SERVO_CLEAR_COUNTERS (R390). -/
  | servoClearCounters (h : Hdr)
  /-- QP_CYCLE_START (R385). -/
  | qpCycleStart (t c : Nat)
  /-- QP_SOLVE_DONE (R383). -/
  | qpSolveDone (t c : Nat)
  /-- QP_DEADLINE (R385). -/
  | qpDeadline (t c : Nat)
  /-- QP_ENABLE (R387). -/
  | qpEnable (h : Hdr) (c : Nat)
  /-- QP_DISABLE (R393). -/
  | qpDisable (h : Hdr) (c : Nat)
  /-- QP_RESTART (R393). -/
  | qpRestart (h : Hdr) (c : Nat)
  /-- QP_CLEAR_COUNTERS (R393). -/
  | qpClearCounters (h : Hdr) (c : Nat)
  /-- GOTO (R400). -/
  | goto (t : Nat) (r : Req)
  /-- MARK_REQ (R400). -/
  | markReq (t : Nat) (r : Req)
  /-- CUT (R400). -/
  | cut (t : Nat) (r : Req)
  /-- PARK (R400). -/
  | park (t : Nat) (r : Req)
  /-- POST (R400). -/
  | post (t : Nat) (r : Req)
  /-- CANCEL (R400). -/
  | cancel (t : Nat) (r : Req)
  /-- REQ_BAD (R400). -/
  | reqBad (t : Nat) (r : Req)
  /-- PLAN_BATCH (R422). -/
  | planBatch (t car : Nat)
  /-- BATCH_END (R414). -/
  | batchEnd (t : Nat)
  /-- RECHECK_DONE (R414). -/
  | recheckDone (t : Nat)
  /-- PLAN_TIMEOUT (R416). -/
  | planTimeout (t car : Nat)
  /-- BRAKE_DONE (R417). -/
  | brakeDone (t car : Nat)
  /-- SETTLE_END (R401). -/
  | settleEnd (t car : Nat)
  /-- PUBLISH (R405). -/
  | publish (h : Hdr)
  /-- SHADOW_COPY_DONE (R405). -/
  | shadowCopyDone (t : Nat)
  /-- FLUSH (R425). -/
  | flush (h : Hdr) (car : Nat)
  /-- MOTION_CLEAR_COUNTERS (R425). -/
  | motionClearCounters (h : Hdr)
  /-- PLUMB_ROUND (R430). -/
  | plumbRound (t : Nat)
  /-- PLUMB_END (R439). -/
  | ruleEnd (t : Nat)
  /-- IN (R439). -/
  | ruleIn (t gd sel : Nat)
  /-- KI (R439). -/
  | ruleKi (t gd : Nat) (imm : Word)
  /-- KF (R439). -/
  | ruleKf (t gd : Nat) (imm : Word)
  /-- ADD (R439). -/
  | ruleAdd (t gd ga gb : Nat)
  /-- SUB (R439). -/
  | ruleSub (t gd ga gb : Nat)
  /-- MUL (R439). -/
  | ruleMul (t gd ga gb : Nat)
  /-- PLUMB_FADD (R439). -/
  | ruleFadd (t gd ga gb : Nat)
  /-- PLUMB_FSUB (R439). -/
  | ruleFsub (t gd ga gb : Nat)
  /-- PLUMB_FMUL (R439). -/
  | ruleFmul (t gd ga gb : Nat)
  /-- ABS (R439). -/
  | ruleAbs (t gd ga : Nat)
  /-- PLUMB_FABS (R439). -/
  | ruleFabs (t gd ga : Nat)
  /-- LT (R439). -/
  | ruleLt (t gd ga gb : Nat)
  /-- LE (R439). -/
  | ruleLe (t gd ga gb : Nat)
  /-- EQ (R439). -/
  | ruleEq (t gd ga gb : Nat)
  /-- FLT (R439). -/
  | ruleFlt (t gd ga gb : Nat)
  /-- FLE (R439). -/
  | ruleFle (t gd ga gb : Nat)
  /-- AND (R439). -/
  | ruleAnd (t gd ga gb : Nat)
  /-- OR (R439). -/
  | ruleOr (t gd ga gb : Nat)
  /-- NOT (R439). -/
  | ruleNot (t gd ga : Nat)
  /-- SKIPZ (R439). -/
  | ruleSkipz (t ga n : Nat)
  /-- PERMIT (R441). -/
  | rulePermit (t tg : Nat)
  /-- DENY (R441). -/
  | ruleDeny (t tg code : Nat)
  /-- SUBST (R441). -/
  | ruleSubst (t ga tg : Nat)
  /-- SAFE (R439). -/
  | ruleSafe (t code : Nat)
  /-- NOTE (R439). -/
  | ruleNote (t code : Nat)
  /-- WATCH_CLOSE (R444). -/
  | watchClose (t stage : Nat)
  /-- DIE_PAIR_RESTART_DONE (R539). -/
  | diePairRestartDone (t die : Nat)
  /-- KEYSTONE_COMPARE (R447). -/
  | keystoneCompare (t die : Nat)
  /-- SELFTEST_SLICE (R449). -/
  | selftestSlice (t : Nat)
  /-- SELFTEST_DONE (R451). -/
  | selftestDone (t : Nat) (pass : Bool)
  /-- LATENT_FAULT (R452). -/
  | latentFault (t cls : Nat)
  /-- SAFE_REQ_PIN (R453). -/
  | safeReqPin (t : Nat) (low : Bool)
  /-- RESTART_DONE (R455). -/
  | restartDone (t : Nat)
  /-- RESTART_FAILED (R455). -/
  | restartFailed (t : Nat)
  /-- SAFE_STATE (R462). -/
  | safeState (h : Hdr)
  /-- SAFE_CLEAR (R456). -/
  | safeClear (h : Hdr)
  /-- RELEASE_TARGET (R443). -/
  | releaseTarget (h : Hdr) (tg : Nat)
  /-- RECOVER (R435). -/
  | recover (h : Hdr)
  /-- RECOVER_DONE (R435). -/
  | recoverDone (t : Nat) (pass : Bool)
  /-- PLUMB_CLEAR_COUNTERS (R462). -/
  | plumbClearCounters (h : Hdr)
  /-- SYNC (R468). -/
  | sync (t : Nat) (msg : PtpMsg)
  /-- FOLLOW_UP (R467). -/
  | followUp (t : Nat) (msg : PtpMsg)
  /-- ANNOUNCE (R467). -/
  | announce (t : Nat) (msg : PtpMsg)
  /-- DELAY_RESP (R467). -/
  | delayResp (t : Nat) (msg : PtpMsg)
  /-- PDELAY_REQ (R467). -/
  | pdelayReq (t : Nat) (msg : PtpMsg)
  /-- PDELAY_RESP (R467). -/
  | pdelayResp (t : Nat) (msg : PtpMsg)
  /-- PDELAY_RESP_FOLLOW_UP (R467). -/
  | pdelayRespFollowUp (t : Nat) (msg : PtpMsg)
  /-- DOMAIN_HOLDOVER (R468). -/
  | domainHoldover (t d : Nat)
  /-- SET_LOCAL_DOM0 (R465). -/
  | setLocalDom0 (h : Hdr)
  /-- SET_LOCAL_DOM1 (R465). -/
  | setLocalDom1 (h : Hdr)
  /-- TIME_CLEAR_COUNTERS (R488). -/
  | timeClearCounters (h : Hdr)
  /-- TPO_PULSE (R473). -/
  | tpoPulse (t n : Nat)
  /-- TPO_PULSE_END (R473). -/
  | tpoPulseEnd (t n : Nat)
  /-- TIME_CAPTURE (R475). -/
  | timeCapture (t c : Nat)
  /-- CAPTURE_POP (R475). -/
  | capturePop (h : Hdr) (c : Nat)
  /-- LINK_CHANGE (R476). -/
  | linkChange (t port : Nat) (up : Bool)
  /-- ARP_REQUEST (R478). -/
  | arpRequest (t port ip mac : Nat)
  /-- ARP_REPLY (R478). -/
  | arpReply (t port ip mac : Nat)
  /-- ICMP_ECHO (R478). -/
  | icmpEcho (t port ip : Nat) (bytes : List Byte)
  /-- PAUSE_FRAME (R477). -/
  | pauseFrame (t port quanta : Nat)
  /-- DROPPED_FRAME (R478). -/
  | droppedFrame (t port : Nat)
  /-- ARP_RETRY (R478). -/
  | arpRetry (t port ip : Nat)
  /-- ARP_AGE_OUT (R478). -/
  | arpAgeOut (t port ip : Nat)
  /-- RESULT_RING_POLL (R483). -/
  | resultRingPoll (t : Nat)
  /-- DATAGRAM_FLUSH (R480). -/
  | datagramFlush (t stream : Nat)
  /-- HEARTBEAT (R485). -/
  | heartbeat (t : Nat)
  /-- NET_CLEAR_COUNTERS (R490). -/
  | netClearCounters (h : Hdr)
  /-- CMD0 (R492). -/
  | cmd0 (t : Nat)
  /-- CMD3 (R492). -/
  | cmd3 (t : Nat)
  /-- CMD5 (R492). -/
  | cmd5 (t : Nat) (s18 : Bool)
  /-- CMD7 (R492). -/
  | cmd7 (t rca : Nat)
  /-- CMD11 (R492). -/
  | cmd11 (t : Nat)
  /-- CMD15 (R492). -/
  | cmd15 (t : Nat)
  /-- CMD19 (R492). -/
  | cmd19 (t : Nat)
  /-- CMD52 (R492). -/
  | cmd52 (t : Nat) (write raw : Bool) (fn addr : Nat) (data : Byte)
  /-- CMD53 (R493). -/
  | cmd53 (t : Nat) (write : Bool) (fn : Nat) (blocks incr : Bool) (addr count : Nat) (data : List Byte)
  /-- BULK_TIMEOUT (R515). -/
  | bulkTimeout (t : Nat)
  /-- IMAGE_CHECK_DONE (R517). -/
  | imageCheckDone (t : Nat)
  /-- RATE_LIMIT_END (R508). -/
  | rateLimitEnd (t client : Nat)
  /-- ECHO (R510). -/
  | echo (h : Hdr) (bytes : List Byte)
  /-- DEVICE_INFO (R510). -/
  | deviceInfo (h : Hdr)
  /-- DEVICE_RESET (R510). -/
  | deviceReset (h : Hdr) (confirm : Word)
  /-- DEVICE_RESET_EFFECT (R538). -/
  | deviceResetEffect (t : Nat) (plumbOk : Bool)
  /-- CXP_REG_READ (R513). -/
  | cxpRegRead (h : Hdr) (group addr len : Nat)
  /-- CXP_REG_WRITE (R513). -/
  | cxpRegWrite (h : Hdr) (group addr : Nat) (bytes : List Byte)
  /-- LOG_PULL (R510). -/
  | logPull (h : Hdr) (log most : Nat)
  /-- IMAGE_PULL (R513). -/
  | imagePull (h : Hdr) (band : Int) (col mask cols : Nat)
  /-- REG_READ (R509). -/
  | regRead (h : Hdr) (addr : Word) (count : Nat)
  /-- REG_WRITE (R509). -/
  | regWrite (h : Hdr) (pairs : List (Word × Word))
  /-- REG_MODIFY (R509). -/
  | regModify (h : Hdr) (addr mask value : Word)
  /-- PLAN_LOAD (R328). -/
  | planLoad (h : Hdr) (len : Nat) (digest : List Byte)
  /-- PLAN_ADMIT (R336). -/
  | planAdmit (h : Hdr)
  /-- PLAN_START (R339). -/
  | planStart (h : Hdr)
  /-- PLAN_STOP (R339). -/
  | planStop (h : Hdr)
  /-- PLAN_UNLOAD (R510). -/
  | planUnload (h : Hdr)
  /-- GRAPH_SUBMIT (R323). -/
  | graphSubmit (h : Hdr) (die addr : Nat)
  /-- GRAPH_WAIT (R510). -/
  | graphWait (h : Hdr) (id : Nat)
  /-- MODEL_LOAD (R510). -/
  | modelLoad (h : Hdr) (id mask : Nat) (signed : Bool) (len : Nat) (digest : List Byte)
  /-- MODEL_UNLOAD (R510). -/
  | modelUnload (h : Hdr) (id : Nat)
  /-- FLAT_LOAD (R86). -/
  | flatLoad (h : Hdr) (group phase count : Nat)
  /-- PROJ_LOAD (R86). -/
  | projLoad (h : Hdr) (group count : Nat)
  /-- PAGE_MAP (R303). -/
  | pageMap (h : Hdr) (first count pin : Nat)
  /-- PAGE_UNMAP (R303). -/
  | pageUnmap (h : Hdr) (first count : Nat)
  /-- MEM_WRITE (R510). -/
  | memWrite (h : Hdr) (space addr : Nat) (bytes : List Byte)
  /-- MEM_READ (R510). -/
  | memRead (h : Hdr) (space addr len : Nat) (bulk : Bool)
  /-- CTX_OPEN (R214). -/
  | ctxOpen (h : Hdr) (ctx stateAddr initAddr size : Nat) (markReset : Bool) (tag : Nat)
  /-- CTX_CLOSE (R214). -/
  | ctxClose (h : Hdr) (ctx : Nat)
  /-- SEQ_OPEN (R246). -/
  | seqOpen (h : Hdr) (seq heads dim : Nat) (q4 markReset : Bool) (sp0 : Int) (pitch list max : Nat)
  /-- SEQ_FORK (R260). -/
  | seqFork (h : Hdr) (src dst n : Nat)
  /-- SEQ_CLOSE (R510). -/
  | seqClose (h : Hdr) (seq : Nat)
  /-- COURSE_PROG_LOAD (R63). -/
  | courseProgLoad (h : Hdr) (prog : Nat) (text : List Nat)
  /-- SERVO_PROG_LOAD (R366). -/
  | servoProgLoad (h : Hdr) (axis : Nat) (text consts inits : List Word)
  /-- QP_LOAD (R379). -/
  | qpLoad (h : Hdr) (ctl len : Nat)
  /-- MOTION_POST (R398). -/
  | motionPost (h : Hdr) (reqs : List Req)
  /-- SDF_LOAD (R405). -/
  | sdfLoad (h : Hdr) (box : List Nat) (len : Nat)
  /-- OCC_LOAD (R405). -/
  | occLoad (h : Hdr) (t0 first last len : Nat)
  /-- MAP_PUBLISH (R405). -/
  | mapPublish (h : Hdr)
  /-- TIME_READ (R510). -/
  | timeRead (h : Hdr)
  /-- RULE_LOAD (R438). -/
  | ruleLoad (h : Hdr) (digest image : List Byte)
  /-- SAFETY_STATUS (R510). -/
  | safetyStatus (h : Hdr)
  /-- BUDGET_SET (R555). -/
  | budgetSet (h : Hdr) (mw : Nat) (cold420 : Bool)
  /-- POWER_STATE (R542). -/
  | powerState (h : Hdr) (st : Nat)
  /-- ACCOUNT_READ (R510). -/
  | accountRead (h : Hdr) (client die : Nat)
  /-- ATTEST (R520). -/
  | attest (h : Hdr) (nonce : List Byte)
  /-- KEY_INFO (R510). -/
  | keyInfo (h : Hdr)
  /-- OWNER_KEY_SET (R518). -/
  | ownerKeySet (h : Hdr) (slot : Nat) (key : List Byte) (confirm : Word)
  /-- OWNER_KEY_REVOKE (R518). -/
  | ownerKeyRevoke (h : Hdr) (slot : Nat) (confirm : Word)
  /-- TEST_MODE (R581). -/
  | testMode (h : Hdr) (enter : Nat) (confirm : Word)
  /-- MGMT_CLEAR_COUNTERS (R523). -/
  | mgmtClearCounters (h : Hdr)
  /-- CLEAR_LOGS (R523). -/
  | clearLogs (h : Hdr)
  /-- REQUIRE_OWNER_SIG (R526). -/
  | requireOwnerSig (h : Hdr)
  /-- POWER_ON (R528). -/
  | powerOn (t : Nat) (f : Fuses) (b : Board) (plumbOk : Bool)
  /-- RESET_N (R538). -/
  | resetN (t : Nat) (low : Bool) (b : Board) (plumbOk : Bool)
  /-- PWRGD_FALL (R568). -/
  | pwrgdFall (t : Nat)
  /-- REFCLK_LOSS (R570). -/
  | refclkLoss (t : Nat)
  /-- ETHCLK_LOSS (R570). -/
  | ethclkLoss (t : Nat)
  /-- CXPCLK_LOSS (R570). -/
  | cxpclkLoss (t : Nat)
  /-- DOMAIN_FAULT (R550). -/
  | domainFault (t pd : Nat)
  /-- TEMP_SAMPLE (R558). -/
  | tempSample (t : Nat) (temps : List Nat)
  /-- DERATE_STEP (R558). -/
  | derateStep (t : Nat)
  /-- ENERGY_METER (R552). -/
  | energyMeter (t : Nat) (uj : List Nat)
  /-- POWER_CLEAR_COUNTERS (R562). -/
  | powerClearCounters (h : Hdr)
  /-- RECALIBRATE (R562). -/
  | recalibrate (h : Hdr)
  /-- SNAPSHOT (R588). -/
  | snapshot (h : Hdr)
  /-- DISARM_ALL (R597). -/
  | disarmAll (h : Hdr)
  /-- TEST_CLEAR_COUNTERS (R597). -/
  | testClearCounters (h : Hdr)
  /-- INJ_CAP (R587). -/
  | injCap (h : Hdr) (value : Word)
  /-- INJ_MEM (R587). -/
  | injMem (h : Hdr) (value : Word)
  /-- INJ_PLUMB (R587). -/
  | injPlumb (h : Hdr) (value : Word)
  /-- INJ_WD (R587). -/
  | injWd (h : Hdr) (value : Word)
  /-- INJ_COURSE (R587). -/
  | injCourse (h : Hdr) (value : Word)
  /-- INJECTION_DELIVERED (R585). -/
  | injectionDelivered (t inj : Nat)
  /-- INJ_EXPIRED (R585). -/
  | injExpired (t inj : Nat)
  /-- QCH_WEAR (R591). -/
  | qchWear (t : Nat)
  /-- BYPASS (R580). -/
  | bypass (t : Nat)
  /-- IDCODE (R579). -/
  | idcode (t : Nat)
  /-- SAMPLE_PRELOAD (R580). -/
  | samplePreload (t : Nat)
  /-- EXTEST (R580). -/
  | extest (t : Nat)
  /-- EXTEST_PULSE (R580). -/
  | extestPulse (t : Nat)
  /-- EXTEST_TRAIN (R580). -/
  | extestTrain (t : Nat)
  /-- LOS_END (R40). -/
  | losEnd (t n : Nat)
  /-- AXIS_LOS (R369). -/
  | axisLos (t ax : Nat)
  /-- PCX_FAULT_RELEASE (R77). -/
  | pcxFaultRelease (t g : Nat)
  /-- SHARD_MISSING (R146). -/
  | shardMissing (t graph task : Nat)
  /-- DELAY_REQ (R467). -/
  | delayReq (t d : Nat)
  /-- ANNOUNCE_INTERVAL (R470). -/
  | announceInterval (t d : Nat)
  /-- PAUSE_EXPIRED (R477). -/
  | pauseExpired (t port : Nat)
  /-- HELD_LINE_RELEASE (R583). -/
  | heldLineRelease (t : Nat)
  /-- HELD_RECORD_RELEASE (R583). -/
  | heldRecordRelease (t : Nat)
  /-- NET_STALL_END (R583). -/
  | netStallEnd (t port : Nat)
  /-- LATE_CAMERA (R513). -/
  | lateCamera (t client tag : Nat)
  /-- BULK_OUT_TIMEOUT (R516). -/
  | bulkOutTimeout (t : Nat)
  /-- ADMISSION_DONE (R336). -/
  | admissionDone (t : Nat)
  /-- STARTUP_COMPLETE (R528). -/
  | startupComplete (t : Nat) (b : Bist)
  /-- POWER_STATE_REACHED (R542). -/
  | powerStateReached (t : Nat)
  deriving DecidableEq, Repr

end Sys2Proof
end

