-- ==== Sys2Proof/WellFormed.lean ====
section
/-!
DEFINITION. Well-formed commands: the operands fit the fields the spec gives them. A meaning does not need it (a field out
of its range is answered as the spec says); it bounds what a sender can spell.
-/
namespace Sys2Proof

/-- A signed number of `n` bits. -/
def inInt (n : Nat) (z : Int) : Bool := decide (-2 ^ (n - 1) ≤ z) && decide (z < 2 ^ (n - 1))

/-- The header fits its packet fields (R497). -/
def Hdr.ok (h : Hdr) : Bool := decide (h.tag < 65536) && decide (h.client < 16)

/-- The request fits its 64-byte entry (R399). -/
def Req.ok (r : Req) : Bool :=
  decide (r.kind < 256) && decide (r.carriage < 256) && decide (r.slot < 65536) && decide (r.id < 2 ^ 32) &&
  inInt 64 r.sp && inInt 32 r.x && inInt 32 r.z && inInt 32 r.y && decide (r.need < 2 ^ 32)

/-- The message fits the fields the unit reads (R463). -/
def PtpMsg.ok (m : PtpMsg) : Bool :=
  decide (m.port < 4) && decide (m.domain < 256) && decide (m.seq < 65536) && decide (m.sec < 2 ^ 48) && decide (m.ns < 2 ^ 32) &&
  inInt 64 m.corr

/-- The operands of a command fit their fields: a packet's as R510 gives them, an instruction's as R67, R318, R319, R367 and
R439 do, a table number below its table's length. -/
def Instr.ok : Instr → Bool
  | .snapshotRead h _ => h.ok
  | .snapshotConsume h _ => h.ok
  | .encoderEdge _ n _ _ => decide (n < 8)
  | .los _ n => decide (n < 8)
  | .positionLost _ => true
  | .clearFaultA h => h.ok
  | .clearFaultB h => h.ok
  | .resync h => h.ok
  | .loadSp h => h.ok
  | .relocate h => h.ok
  | .coilMark h => h.ok
  | .speedEstimate _ => true
  | .zeroSpeed _ => true
  | .lineTrigger _ g ph _ => decide (g < 4) && decide (ph < 4)
  | .lateTrigger _ g => decide (g < 4)
  | .strobeStart _ out => decide (out < 24)
  | .strobeEnd _ out => decide (out < 24)
  | .pulseEnd _ out => decide (out < 24)
  | .progEnWrite h half _ => h.ok && decide (half < 2)
  | .halt _ p => decide (p < 64)
  | .anchor _ p => decide (p < 64)
  | .waitSpGe _ p ofs => decide (p < 64) && inInt 48 ofs
  | .waitSpLe _ p ofs => decide (p < 64) && inInt 48 ofs
  | .waitDsp _ p um => decide (p < 64) && decide (um < 2 ^ 32)
  | .waitT _ p ns => decide (p < 64) && decide (ns < 2 ^ 40)
  | .waitLine _ p g ph count => decide (p < 64) && decide (g < 4) && decide (ph < 4) && decide (count < 2 ^ 32)
  | .waitSig _ p sig => decide (p < 64) && decide (sig < 16)
  | .signal _ p sig => decide (p < 64) && decide (sig < 16)
  | .outSet _ p out => decide (p < 64) && decide (out < 32)
  | .outClr _ p out => decide (p < 64) && decide (out < 32)
  | .outPulse _ p out ns => decide (p < 64) && decide (out < 32) && decide (ns < 2 ^ 32)
  | .lgOn _ p g => decide (p < 64) && decide (g < 4)
  | .lgOff _ p g => decide (p < 64) && decide (g < 4)
  | .mark _ p code => decide (p < 64) && decide (code < 65536)
  | .setc _ p c value => decide (p < 64) && decide (c < 4) && decide (value < 2 ^ 32)
  | .djnz _ p c addr => decide (p < 64) && decide (c < 4) && decide (addr < 256)
  | .jump _ p addr => decide (p < 64) && decide (addr < 256)
  | .ifSlow _ p speed addr => decide (p < 64) && decide (speed < 2 ^ 32) && decide (addr < 256)
  | .ifRev _ p addr => decide (p < 64) && decide (addr < 256)
  | .progFault _ p => decide (p < 64)
  | .waitCompletes _ p => decide (p < 64)
  | .progRunaway _ p => decide (p < 64)
  | .acqStart h => h.ok
  | .acqStop h => h.ok
  | .groupUp _ g _ _ => decide (g < 8)
  | .groupFailed _ g => decide (g < 8)
  | .pcxFault _ g => decide (g < 8)
  | .groupDown _ g => decide (g < 8)
  | .rediscovery _ g => decide (g < 8)
  | .cxpPacket _ g _ => decide (g < 8)
  | .stampTimeout _ g => decide (g < 8)
  | .sensorRecord _ port _ => decide (port < 4)
  | .taskDispatch _ die slot _ _ => decide (die < 4) && decide (slot < 48)
  | .taskComplete _ die slot => decide (die < 4) && decide (slot < 48)
  | .blockDrain _ die slot => decide (die < 4) && decide (slot < 48)
  | .droopEvent _ die half => decide (die < 4) && decide (half < 2)
  | .coreHung _ die slot => decide (die < 4) && decide (slot < 48)
  | .spareInDone _ die slot => decide (die < 4) && decide (slot < 48)
  | .readmitDone _ => true
  | .retireCore h die core => h.ok && decide (die < 4) && decide (core < 52)
  | .fabricClearCounters h die => h.ok && decide (die < 4)
  | .freqChanged _ => true
  | .conv _ die slot addr => decide (die < 4) && decide (slot < 48) && decide (addr < 2 ^ 32)
  | .dwconv _ die slot addr => decide (die < 4) && decide (slot < 48) && decide (addr < 2 ^ 32)
  | .pool _ die slot addr => decide (die < 4) && decide (slot < 48) && decide (addr < 2 ^ 32)
  | .cropResize _ die slot addr => decide (die < 4) && decide (slot < 48) && decide (addr < 2 ^ 32)
  | .boxDecode _ die slot addr => decide (die < 4) && decide (slot < 48) && decide (addr < 2 ^ 32)
  | .suppress _ die slot addr => decide (die < 4) && decide (slot < 48) && decide (addr < 2 ^ 32)
  | .copy _ die slot addr => decide (die < 4) && decide (slot < 48) && decide (addr < 2 ^ 32)
  | .blockedToPlanar _ die slot addr => decide (die < 4) && decide (slot < 48) && decide (addr < 2 ^ 32)
  | .phaseSplit _ die slot addr => decide (die < 4) && decide (slot < 48) && decide (addr < 2 ^ 32)
  | .planarToBlocked _ die slot addr => decide (die < 4) && decide (slot < 48) && decide (addr < 2 ^ 32)
  | .rowGather _ die slot addr => decide (die < 4) && decide (slot < 48) && decide (addr < 2 ^ 32)
  | .fill _ die slot addr => decide (die < 4) && decide (slot < 48) && decide (addr < 2 ^ 32)
  | .chainDeadline _ die slot k => decide (die < 4) && decide (slot < 48) && decide (k < 4)
  | .swapIn _ die ctx => decide (die < 4) && decide (ctx < 2 ^ 18)
  | .swapInDone _ die ctx => decide (die < 4) && decide (ctx < 2 ^ 18)
  | .evictionDone _ die ctx => decide (die < 4) && decide (ctx < 2 ^ 18)
  | .lscan _ die slot addr => decide (die < 4) && decide (slot < 48) && decide (addr < 2 ^ 32)
  | .gcell _ die slot addr => decide (die < 4) && decide (slot < 48) && decide (addr < 2 ^ 32)
  | .biscan _ die slot addr => decide (die < 4) && decide (slot < 48) && decide (addr < 2 ^ 32)
  | .bind _ die slot addr => decide (die < 4) && decide (slot < 48) && decide (addr < 2 ^ 32)
  | .resetCtx h die ctx => h.ok && decide (die < 4) && decide (ctx < 2 ^ 32)
  | .pin h die ctx => h.ok && decide (die < 4) && decide (ctx < 2 ^ 32)
  | .unpin h die ctx => h.ok && decide (die < 4) && decide (ctx < 2 ^ 32)
  | .evict h die ctx => h.ok && decide (die < 4) && decide (ctx < 2 ^ 32)
  | .streamClearCounters h die => h.ok && decide (die < 4)
  | .streamCtxSel h die ctx => h.ok && decide (die < 4) && decide (ctx < 2 ^ 32)
  | .kvAppend _ die slot addr => decide (die < 4) && decide (slot < 48) && decide (addr < 2 ^ 32)
  | .attn _ die slot addr => decide (die < 4) && decide (slot < 48) && decide (addr < 2 ^ 32)
  | .attnMerge _ die slot addr => decide (die < 4) && decide (slot < 48) && decide (addr < 2 ^ 32)
  | .attnBwd _ die slot addr => decide (die < 4) && decide (slot < 48) && decide (addr < 2 ^ 32)
  | .adaptAccum _ die slot addr => decide (die < 4) && decide (slot < 48) && decide (addr < 2 ^ 32)
  | .adaptStep _ die slot addr => decide (die < 4) && decide (slot < 48) && decide (addr < 2 ^ 32)
  | .resetSeq h die seq => h.ok && decide (die < 4) && decide (seq < 2 ^ 32)
  | .kvClose h die seq => h.ok && decide (die < 4) && decide (seq < 2 ^ 32)
  | .commit h => h.ok
  | .rollback h => h.ok
  | .resetMasters h => h.ok
  | .kvClearCounters h die => h.ok && decide (die < 4)
  | .kvSeqSel h die seq => h.ok && decide (die < 4) && decide (seq < 2 ^ 32)
  | .kvPageSel h die page => h.ok && decide (die < 4) && decide (page < 2 ^ 32)
  | .adaptCommit _ => true
  | .tierBaseWrite h die _ => h.ok && decide (die < 4)
  | .lintelScrub _ die => decide (die < 4)
  | .quarryScrub _ => true
  | .quarryBurst _ ch => decide (ch < 16)
  | .burstTimeout _ ch => decide (ch < 16)
  | .lostMarkingDone _ => true
  | .migrationPeriod _ => true
  | .migrationMoveDone _ page => decide (page < 65536)
  | .excludeQch h ch => h.ok && decide (ch < 16)
  | .memClearCounters h => h.ok
  | .memPageSel h page => h.ok && decide (page < 2 ^ 32)
  | .frameBoundary _ => true
  | .taskEnd _ die slot => decide (die < 4) && decide (slot < 48)
  | .oper _ die slot addr => decide (die < 4) && decide (slot < 48) && decide (addr < 2 ^ 32)
  | .chain _ die slot k addr => decide (die < 4) && decide (slot < 48) && decide (k < 4) && decide (addr < 2 ^ 32)
  | .waitc _ die slot k => decide (die < 4) && decide (slot < 48) && decide (k < 4)
  | .barrier _ die slot => decide (die < 4) && decide (slot < 48)
  | .setl _ die slot c value => decide (die < 4) && decide (slot < 48) && decide (c < 4) && decide (value < 2 ^ 32)
  | .taskDjnz _ die slot c target => decide (die < 4) && decide (slot < 48) && decide (c < 4) && decide (target < 1024)
  | .taskJump _ die slot target => decide (die < 4) && decide (slot < 48) && decide (target < 1024)
  | .progErr _ die slot => decide (die < 4) && decide (slot < 48)
  | .taskInstrLimit _ die slot => decide (die < 4) && decide (slot < 48)
  | .vecFadd _ die slot vd va vb => decide (die < 4) && decide (slot < 48) && decide (vd < 32) && decide (va < 32) && decide (vb < 32)
  | .vecFmul _ die slot vd va vb => decide (die < 4) && decide (slot < 48) && decide (vd < 32) && decide (va < 32) && decide (vb < 32)
  | .vecFfma _ die slot vd va vb vc =>
    decide (die < 4) && decide (slot < 48) && decide (vd < 32) && decide (va < 32) && decide (vb < 32) && decide (vc < 32)
  | .vecFmax _ die slot vd va vb => decide (die < 4) && decide (slot < 48) && decide (vd < 32) && decide (va < 32) && decide (vb < 32)
  | .vecFmin _ die slot vd va vb => decide (die < 4) && decide (slot < 48) && decide (vd < 32) && decide (va < 32) && decide (vb < 32)
  | .fcmp _ die slot vd va vb => decide (die < 4) && decide (slot < 48) && decide (vd < 32) && decide (va < 32) && decide (vb < 32)
  | .iadd _ die slot vd va vb => decide (die < 4) && decide (slot < 48) && decide (vd < 32) && decide (va < 32) && decide (vb < 32)
  | .imul _ die slot vd va vb => decide (die < 4) && decide (slot < 48) && decide (vd < 32) && decide (va < 32) && decide (vb < 32)
  | .ishl _ die slot vd va vb => decide (die < 4) && decide (slot < 48) && decide (vd < 32) && decide (va < 32) && decide (vb < 32)
  | .ishr _ die slot vd va vb => decide (die < 4) && decide (slot < 48) && decide (vd < 32) && decide (va < 32) && decide (vb < 32)
  | .iand _ die slot vd va vb => decide (die < 4) && decide (slot < 48) && decide (vd < 32) && decide (va < 32) && decide (vb < 32)
  | .ior _ die slot vd va vb => decide (die < 4) && decide (slot < 48) && decide (vd < 32) && decide (va < 32) && decide (vb < 32)
  | .ixor _ die slot vd va vb => decide (die < 4) && decide (slot < 48) && decide (vd < 32) && decide (va < 32) && decide (vb < 32)
  | .icmp _ die slot vd va vb => decide (die < 4) && decide (slot < 48) && decide (vd < 32) && decide (va < 32) && decide (vb < 32)
  | .iclamp _ die slot vd va vb vc =>
    decide (die < 4) && decide (slot < 48) && decide (vd < 32) && decide (va < 32) && decide (vb < 32) && decide (vc < 32)
  | .rescale _ die slot vd va rc addr =>
    decide (die < 4) && decide (slot < 48) && decide (vd < 32) && decide (va < 32) && decide (rc < 16) && decide (addr < 2 ^ 32)
  | .cvt _ die slot vd va rc => decide (die < 4) && decide (slot < 48) && decide (vd < 32) && decide (va < 32) && decide (rc < 16)
  | .exp _ die slot vd va => decide (die < 4) && decide (slot < 48) && decide (vd < 32) && decide (va < 32)
  | .vecRecip _ die slot vd va => decide (die < 4) && decide (slot < 48) && decide (vd < 32) && decide (va < 32)
  | .vecRsqrt _ die slot vd va => decide (die < 4) && decide (slot < 48) && decide (vd < 32) && decide (va < 32)
  | .sigm _ die slot vd va => decide (die < 4) && decide (slot < 48) && decide (vd < 32) && decide (va < 32)
  | .vecTanh _ die slot vd va => decide (die < 4) && decide (slot < 48) && decide (vd < 32) && decide (va < 32)
  | .vld _ die slot vd rc addr => decide (die < 4) && decide (slot < 48) && decide (vd < 32) && decide (rc < 16) && decide (addr < 2 ^ 32)
  | .vst _ die slot va rc addr => decide (die < 4) && decide (slot < 48) && decide (va < 32) && decide (rc < 16) && decide (addr < 2 ^ 32)
  | .vbcast _ die slot vd _ => decide (die < 4) && decide (slot < 48) && decide (vd < 32)
  | .vrmax _ die slot vd va => decide (die < 4) && decide (slot < 48) && decide (vd < 32) && decide (va < 32)
  | .vrsum _ die slot vd va => decide (die < 4) && decide (slot < 48) && decide (vd < 32) && decide (va < 32)
  | .ilane _ die slot vd => decide (die < 4) && decide (slot < 48) && decide (vd < 32)
  | .accountingPeriod _ => true
  | .planStopDone _ => true
  | .readmit h => h.ok
  | .bondClearCounters h => h.ok
  | .bondAcctSel h _ => h.ok
  | .baseTick _ _ adc => decide (adc.length = 8)
  | .servoEnSet h => h.ok
  | .servoEnClear h => h.ok
  | .axisEncoderEdge _ ax _ _ => decide (ax < 16)
  | .ssiFrameDone _ ax _ _ => decide (ax < 16)
  | .controlLawRun _ ax => decide (ax < 16)
  | .servoEnd _ ax => decide (ax < 16)
  | .servoFadd _ ax d a b => decide (ax < 16) && decide (d < 64) && decide (a < 64) && decide (b < 64)
  | .servoFsub _ ax d a b => decide (ax < 16) && decide (d < 64) && decide (a < 64) && decide (b < 64)
  | .servoFmul _ ax d a b => decide (ax < 16) && decide (d < 64) && decide (a < 64) && decide (b < 64)
  | .servoFfma _ ax d a b c => decide (ax < 16) && decide (d < 64) && decide (a < 64) && decide (b < 64) && decide (c < 64)
  | .servoFmin _ ax d a b => decide (ax < 16) && decide (d < 64) && decide (a < 64) && decide (b < 64)
  | .servoFmax _ ax d a b => decide (ax < 16) && decide (d < 64) && decide (a < 64) && decide (b < 64)
  | .servoFabs _ ax d a => decide (ax < 16) && decide (d < 64) && decide (a < 64)
  | .fclamp _ ax d a b c => decide (ax < 16) && decide (d < 64) && decide (a < 64) && decide (b < 64) && decide (c < 64)
  | .fsel _ ax d a b c => decide (ax < 16) && decide (d < 64) && decide (a < 64) && decide (b < 64) && decide (c < 64)
  | .ldk _ ax d c => decide (ax < 16) && decide (d < 64) && decide (c < 64)
  | .servoRecip _ ax d a => decide (ax < 16) && decide (d < 64) && decide (a < 64)
  | .servoRsqrt _ ax d a => decide (ax < 16) && decide (d < 64) && decide (a < 64)
  | .servoTanh _ ax d a => decide (ax < 16) && decide (d < 64) && decide (a < 64)
  | .servoEnable h ax => h.ok && decide (ax < 16)
  | .servoDisable h ax => h.ok && decide (ax < 16)
  | .axisClearFault h ax => h.ok && decide (ax < 16)
  | .home h ax => h.ok && decide (ax < 16)
  | .resetState h ax => h.ok && decide (ax < 16)
  | .servoResync h ax => h.ok && decide (ax < 16)
  | .clearGroup h g => h.ok && decide (g < 8)
  | .servoClearCounters h => h.ok
  | .qpCycleStart _ c => decide (c < 8)
  | .qpSolveDone _ c => decide (c < 8)
  | .qpDeadline _ c => decide (c < 8)
  | .qpEnable h c => h.ok && decide (c < 8)
  | .qpDisable h c => h.ok && decide (c < 8)
  | .qpRestart h c => h.ok && decide (c < 8)
  | .qpClearCounters h c => h.ok && decide (c < 8)
  | .goto _ r => r.ok
  | .markReq _ r => r.ok
  | .cut _ r => r.ok
  | .park _ r => r.ok
  | .post _ r => r.ok
  | .cancel _ r => r.ok
  | .reqBad _ r => r.ok
  | .planBatch _ car => decide (car < 8)
  | .batchEnd _ => true
  | .recheckDone _ => true
  | .planTimeout _ car => decide (car < 8)
  | .brakeDone _ car => decide (car < 8)
  | .settleEnd _ car => decide (car < 8)
  | .publish h => h.ok
  | .shadowCopyDone _ => true
  | .flush h car => h.ok && decide (car < 8)
  | .motionClearCounters h => h.ok
  | .plumbRound _ => true
  | .ruleEnd _ => true
  | .ruleIn _ gd sel => decide (gd < 16) && decide (sel < 65536)
  | .ruleKi _ gd _ => decide (gd < 16)
  | .ruleKf _ gd _ => decide (gd < 16)
  | .ruleAdd _ gd ga gb => decide (gd < 16) && decide (ga < 16) && decide (gb < 16)
  | .ruleSub _ gd ga gb => decide (gd < 16) && decide (ga < 16) && decide (gb < 16)
  | .ruleMul _ gd ga gb => decide (gd < 16) && decide (ga < 16) && decide (gb < 16)
  | .ruleFadd _ gd ga gb => decide (gd < 16) && decide (ga < 16) && decide (gb < 16)
  | .ruleFsub _ gd ga gb => decide (gd < 16) && decide (ga < 16) && decide (gb < 16)
  | .ruleFmul _ gd ga gb => decide (gd < 16) && decide (ga < 16) && decide (gb < 16)
  | .ruleAbs _ gd ga => decide (gd < 16) && decide (ga < 16)
  | .ruleFabs _ gd ga => decide (gd < 16) && decide (ga < 16)
  | .ruleLt _ gd ga gb => decide (gd < 16) && decide (ga < 16) && decide (gb < 16)
  | .ruleLe _ gd ga gb => decide (gd < 16) && decide (ga < 16) && decide (gb < 16)
  | .ruleEq _ gd ga gb => decide (gd < 16) && decide (ga < 16) && decide (gb < 16)
  | .ruleFlt _ gd ga gb => decide (gd < 16) && decide (ga < 16) && decide (gb < 16)
  | .ruleFle _ gd ga gb => decide (gd < 16) && decide (ga < 16) && decide (gb < 16)
  | .ruleAnd _ gd ga gb => decide (gd < 16) && decide (ga < 16) && decide (gb < 16)
  | .ruleOr _ gd ga gb => decide (gd < 16) && decide (ga < 16) && decide (gb < 16)
  | .ruleNot _ gd ga => decide (gd < 16) && decide (ga < 16)
  | .ruleSkipz _ ga n => decide (ga < 16) && decide (n < 256)
  | .rulePermit _ tg => decide (tg < 80)
  | .ruleDeny _ tg code => decide (tg < 80) && decide (code < 256)
  | .ruleSubst _ ga tg => decide (ga < 16) && decide (tg < 24)
  | .ruleSafe _ code => decide (code < 256)
  | .ruleNote _ code => decide (code < 256)
  | .watchClose _ stage => decide (stage < 8)
  | .diePairRestartDone _ die => decide (die < 4)
  | .keystoneCompare _ die => decide (die < 4)
  | .selftestSlice _ => true
  | .selftestDone _ _ => true
  | .latentFault _ cls => decide (cls < 9)
  | .safeReqPin _ _ => true
  | .restartDone _ => true
  | .restartFailed _ => true
  | .safeState h => h.ok
  | .safeClear h => h.ok
  | .releaseTarget h tg => h.ok && decide (tg < 80)
  | .recover h => h.ok
  | .recoverDone _ _ => true
  | .plumbClearCounters h => h.ok
  | .sync _ msg => msg.ok
  | .followUp _ msg => msg.ok
  | .announce _ msg => msg.ok
  | .delayResp _ msg => msg.ok
  | .pdelayReq _ msg => msg.ok
  | .pdelayResp _ msg => msg.ok
  | .pdelayRespFollowUp _ msg => msg.ok
  | .domainHoldover _ d => decide (d < 2)
  | .setLocalDom0 h => h.ok
  | .setLocalDom1 h => h.ok
  | .timeClearCounters h => h.ok
  | .tpoPulse _ n => decide (n < 8)
  | .tpoPulseEnd _ n => decide (n < 8)
  | .timeCapture _ c => decide (c < 4)
  | .capturePop h c => h.ok && decide (c < 4)
  | .linkChange _ port _ => decide (port < 4)
  | .arpRequest _ port ip mac => decide (port < 4) && decide (ip < 2 ^ 32) && decide (mac < 2 ^ 48)
  | .arpReply _ port ip mac => decide (port < 4) && decide (ip < 2 ^ 32) && decide (mac < 2 ^ 48)
  | .icmpEcho _ port ip _ => decide (port < 4) && decide (ip < 2 ^ 32)
  | .pauseFrame _ port quanta => decide (port < 4) && decide (quanta < 65536)
  | .droppedFrame _ port => decide (port < 4)
  | .arpRetry _ port ip => decide (port < 4) && decide (ip < 2 ^ 32)
  | .arpAgeOut _ port ip => decide (port < 4) && decide (ip < 2 ^ 32)
  | .resultRingPoll _ => true
  | .datagramFlush _ stream => decide (stream < 4)
  | .heartbeat _ => true
  | .netClearCounters h => h.ok
  | .cmd0 _ => true
  | .cmd3 _ => true
  | .cmd5 _ _ => true
  | .cmd7 _ rca => decide (rca < 65536)
  | .cmd11 _ => true
  | .cmd15 _ => true
  | .cmd19 _ => true
  | .cmd52 _ _ _ fn addr _ => decide (fn < 8) && decide (addr < 2 ^ 17)
  | .cmd53 _ _ fn _ _ addr count _ => decide (fn < 8) && decide (addr < 2 ^ 17) && decide (count < 512)
  | .bulkTimeout _ => true
  | .imageCheckDone _ => true
  | .rateLimitEnd _ client => decide (client < 16)
  | .echo h bytes => h.ok && decide (bytes.length ≤ 4096)
  | .deviceInfo h => h.ok
  | .deviceReset h _ => h.ok
  | .deviceResetEffect _ _ => true
  | .cxpRegRead h group addr len => h.ok && decide (group < 256) && decide (addr < 2 ^ 32) && decide (len < 2 ^ 32)
  | .cxpRegWrite h group addr bytes =>
    h.ok && decide (group < 256) && decide (addr < 2 ^ 32) && decide (4 ≤ bytes.length) && decide (bytes.length ≤ 256)
  | .logPull h log most => h.ok && decide (log < 256) && decide (most < 2 ^ 32)
  | .imagePull h band col mask cols => h.ok && inInt 64 band && decide (col < 65536) && decide (mask < 256) && decide (cols < 256)
  | .regRead h _ count => h.ok && decide (count ≤ 256)
  | .regWrite h pairs => h.ok && decide (1 ≤ pairs.length) && decide (pairs.length ≤ 64)
  | .regModify h _ _ _ => h.ok
  | .planLoad h len digest => h.ok && decide (len < 2 ^ 32) && decide (digest.length = 64)
  | .planAdmit h => h.ok
  | .planStart h => h.ok
  | .planStop h => h.ok
  | .planUnload h => h.ok
  | .graphSubmit h die addr => h.ok && decide (die < 256) && decide (addr < 2 ^ 32)
  | .graphWait h id => h.ok && decide (id < 2 ^ 32)
  | .modelLoad h id mask _ len digest =>
    h.ok && decide (id < 65536) && decide (mask < 256) && decide (len < 2 ^ 32) && decide (digest.length = 64)
  | .modelUnload h id => h.ok && decide (id < 65536)
  | .flatLoad h group phase count => h.ok && decide (group < 256) && decide (phase < 256) && decide (count < 2 ^ 32)
  | .projLoad h group count => h.ok && decide (group < 256) && decide (count < 2 ^ 32)
  | .pageMap h first count pn => h.ok && decide (first < 2 ^ 32) && decide (count < 2 ^ 32) && decide (pn < 256)
  | .pageUnmap h first count => h.ok && decide (first < 2 ^ 32) && decide (count < 2 ^ 32)
  | .memWrite h space addr bytes => h.ok && decide (space < 256) && decide (addr < 2 ^ 32) && decide (bytes.length ≤ 4096)
  | .memRead h space addr len _ => h.ok && decide (space < 256) && decide (addr < 2 ^ 32) && decide (len < 2 ^ 32)
  | .ctxOpen h ctx stateAddr initAddr size _ tag =>
    h.ok && decide (ctx < 2 ^ 32) && decide (stateAddr < 2 ^ 32) && decide (initAddr < 2 ^ 32) && decide (size < 65536) && decide (tag < 2 ^ 64)
  | .ctxClose h ctx => h.ok && decide (ctx < 2 ^ 32)
  | .seqOpen h seq heads dim _ _ sp0 pitch list max =>
    h.ok && decide (seq < 65536) && decide (heads < 256) && decide (dim < 4) && inInt 64 sp0 && decide (pitch < 2 ^ 32) &&
    decide (list < 2 ^ 32) && decide (max < 65536)
  | .seqFork h src dst n => h.ok && decide (src < 65536) && decide (dst < 65536) && decide (n < 2 ^ 32)
  | .seqClose h seq => h.ok && decide (seq < 65536)
  | .courseProgLoad h prog text => h.ok && decide (prog < 256) && decide (text.length ≤ 256) && text.all (fun w => decide (w < 2 ^ 64))
  | .servoProgLoad h axis text consts inits =>
    h.ok && decide (axis < 256) && decide (text.length ≤ 128) && decide (consts.length = 64) && decide (inits.length = 48)
  | .qpLoad h ctl len => h.ok && decide (ctl < 256) && decide (len < 2 ^ 32)
  | .motionPost h reqs => h.ok && decide (1 ≤ reqs.length) && decide (reqs.length ≤ 16) && reqs.all Req.ok
  | .sdfLoad h box len => h.ok && decide (box.length = 6) && box.all (fun x => decide (x < 65536)) && decide (len < 2 ^ 32)
  | .occLoad h t0 first last len => h.ok && decide (t0 < 2 ^ 64) && decide (first < 256) && decide (last < 256) && decide (len < 2 ^ 32)
  | .mapPublish h => h.ok
  | .timeRead h => h.ok
  | .ruleLoad h digest _ => h.ok && decide (digest.length = 64)
  | .safetyStatus h => h.ok
  | .budgetSet h mw _ => h.ok && decide (mw < 2 ^ 32)
  | .powerState h st => h.ok && decide (st < 256)
  | .accountRead h client die => h.ok && decide (client < 256) && decide (die < 256)
  | .attest h nonce => h.ok && decide (nonce.length = 32)
  | .keyInfo h => h.ok
  | .ownerKeySet h slot key _ => h.ok && decide (slot < 256) && decide (key.length = 32)
  | .ownerKeyRevoke h slot _ => h.ok && decide (slot < 256)
  | .testMode h enter _ => h.ok && decide (enter < 256)
  | .mgmtClearCounters h => h.ok
  | .clearLogs h => h.ok
  | .requireOwnerSig h => h.ok
  | .powerOn _ _ _ _ => true
  | .resetN _ _ _ _ => true
  | .pwrgdFall _ => true
  | .refclkLoss _ => true
  | .ethclkLoss _ => true
  | .cxpclkLoss _ => true
  | .domainFault _ pd => decide (pd < 20)
  | .tempSample _ temps => decide (temps.length = 21)
  | .derateStep _ => true
  | .energyMeter _ uj => decide (uj.length = 20)
  | .powerClearCounters h => h.ok
  | .recalibrate h => h.ok
  | .snapshot h => h.ok
  | .disarmAll h => h.ok
  | .testClearCounters h => h.ok
  | .injCap h _ => h.ok
  | .injMem h _ => h.ok
  | .injPlumb h _ => h.ok
  | .injWd h _ => h.ok
  | .injCourse h _ => h.ok
  | .injectionDelivered _ inj => decide (inj < 5)
  | .injExpired _ inj => decide (inj < 5)
  | .qchWear _ => true
  | .bypass _ => true
  | .idcode _ => true
  | .samplePreload _ => true
  | .extest _ => true
  | .extestPulse _ => true
  | .extestTrain _ => true
  | .losEnd _ n => decide (n < 8)
  | .axisLos _ ax => decide (ax < 16)
  | .pcxFaultRelease _ g => decide (g < 8)
  | .shardMissing _ graph task => decide (graph < 2 ^ 32) && decide (task < 4096)
  | .delayReq _ d => decide (d < 2)
  | .announceInterval _ d => decide (d < 2)
  | .pauseExpired _ port => decide (port < 4)
  | .heldLineRelease _ => true
  | .heldRecordRelease _ => true
  | .netStallEnd _ port => decide (port < 4)
  | .lateCamera _ client tag => decide (client < 16) && decide (tag < 65536)
  | .bulkOutTimeout _ => true
  | .admissionDone _ => true
  | .startupComplete _ _ => true
  | .powerStateReached _ => true

end Sys2Proof
end

