-- ==== Sys2Proof/Decode.lean ====
section
/-!
DEFINITION. The command a word spells. No row of spec/opcode_table.json gives bits, so no word spells a command: the block
takes commands, not words (the packets of R497 and the programs of R67, R318, R319, R367 and R439 are decoded where they
are taken, in Machine/).
-/
namespace Sys2Proof

/-- The command the table's bits spell: none, since no row has bits. -/
def decodeTableWord (_nbits _w : Nat) : Option Instr := none

end Sys2Proof
end

