-- ==== Sys2Proof/Config.lean ====
section
/-! DEFINITION. What the spec leaves to an implementation, as constants without a body: nothing can evaluate one or prove
a value of it, so a statement holds whatever it is. Each is named in the assumption log. -/
namespace Sys2Proof.Config
open Sys2Proof

/-- The code the hardware fixes for exp of an input, taken where it lies within the bound of R177. -/
opaque spExp : Word → Word
/-- The code the hardware fixes for the reciprocal of an input, taken where it lies within the bound of R177. -/
opaque spRecip : Word → Word
/-- The code the hardware fixes for 1/√x, taken where it lies within the bound of R177. -/
opaque spRsqrt : Word → Word
/-- The code the hardware fixes for the sigmoid, taken where it lies within the bound of R177. -/
opaque spSigm : Word → Word
/-- The code the hardware fixes for tanh, taken where it lies within the bound of R177. -/
opaque spTanh : Word → Word
/-- 1/√x of negative zero, for which R177 states no result. -/
opaque rsqrtNegZero : Word
/-- A value the spec leaves undefined or unstated, one for each use; the state counts the uses. -/
opaque freeWord : Nat → Word

/-- A vector shift by an amount outside 0 to 31: left or not, the lane, the amount. -/
opaque shiftWide : Bool → Word → Word → Word

/-- Base of the side lists of a core-store tensor, by the tensor's address. -/
opaque sideBase : Nat → Nat

/-- Core-store address of the PER_CHANNEL rescale table of an operator, by its descriptor's address: no descriptor of R189 or
R194 has a field for it. -/
opaque chanTable : Nat → Nat

/-- A halo cell lies outside the grid or the pair's tile columns (R185), by the descriptor's address and the cell's row and
column from the block's first pixel. It is asked only of cells beyond the side of a tile column where the pair's columns or the grid
end, and of graphs that serve no tile set: no field of R308 says where in its tile column the block lies. -/
opaque haloOut : Nat → Int → Int → Bool

/-- The rate of a PRIVILEGED tensor is 4:1 (R200), as the plan image chooses it, by the address of the tensor's directory: the spec
does not say where in the image the choice stands. -/
opaque planRate : List Byte → Nat → Bool

/-- Where the masters of the adaptation groups begin in the raw region of the home pair's Lintel store, by their number of elements: R271
gives no address. -/
opaque masterBase : Nat → Nat

/-- A core-store source of PHASE_SPLIT is blocked rather than planar (R184), by the descriptor's address: no field of R308 says. -/
opaque splitBlocked : Nat → Bool

/-- Worst-case cycles that core-store conflicts add to a task (R334), by its die and the Lintel offset of its header: the spec
gives no formula for the worst case of R123. -/
opaque coreConflicts : Nat → Nat → Nat

/-- Whether a phase of a profile (R407, R417) whose exact length lies between two ticks lasts the longer of them, by that length
as a quotient. -/
opaque tickUp : Int → Int → Bool

/-- The 32 bytes of the device identity key of R518, derived from fuse entropy that no one reads. -/
opaque deviceSeed : List Byte

end Sys2Proof.Config
end

