-- ==== Sys2Proof/Machine/Bits.lean ====
section
/-! DEFINITION. Bit fields, sign extension, byte order (R11: little-endian), clamping, and the tables the state is
built from: a table is a list of (key, value) pairs with strictly rising keys that lists no value equal to what an
unlisted key reads as, so that equal tables are equal data. -/
namespace Sys2Proof.Machine
open Sys2Proof

/-- The field [hi:lo] of a natural number's binary form. -/
def bitsOf (n hi lo : Nat) : Nat := (n >>> lo) % 2 ^ (hi + 1 - lo)

/-- One bit of a natural number's binary form. -/
def bitOf (n i : Nat) : Bool := n.testBit i

/-- The field [hi:lo] of a register, as a number. -/
def fld (w : Word) (hi lo : Nat) : Nat := bitsOf w.toNat hi lo

/-- Bit i of a register. -/
def wbit (w : Word) (i : Nat) : Bool := w.toNat.testBit i

/-- A number read as two's complement of the given width. -/
def signedOf (width n : Nat) : Int :=
  let m := n % 2 ^ width
  if m < 2 ^ (width - 1) then (m : Int) else (m : Int) - (2 ^ width : Nat)

/-- An integer kept as its two's complement code of the given width. -/
def codeOf (width : Nat) (z : Int) : Nat := (z % ((2 ^ width : Nat) : Int)).toNat

/-- The number a Bool stands for as one bit. -/
def b2n (b : Bool) : Nat := if b then 1 else 0

/-- A register from the number of its fields. -/
def wordOf (n : Nat) : Word := BitVec.ofNat 32 n

/-- An integer clamped to a range. -/
def clampInt (lo hi z : Int) : Int := if z < lo then lo else if hi < z then hi else z

/-- A count that stops at the largest number of its width. -/
def satAdd (width n k : Nat) : Nat := min (n + k) (2 ^ width - 1)

/-- The little-endian number a byte list spells. -/
def leNat : List Byte → Nat
  | [] => 0
  | b :: bs => b.toNat + 256 * leNat bs

/-- The little-endian bytes of a number. -/
def leBytes : Nat → Nat → List Byte
  | 0, _ => []
  | k + 1, n => BitVec.ofNat 8 (n % 256) :: leBytes k (n / 256)

/-- The bytes `[off, off + k)` of a byte list, read as a little-endian number; bytes past the end are 0. -/
def leAt (bs : List Byte) (off k : Nat) : Nat := leNat ((bs.drop off).take k)


/-- Reading a table: an unlisted key reads as its default. -/
def tget {α : Type} (d : Nat → α) : List (Nat × α) → Nat → α
  | [], k => d k
  | (j, v) :: m, k => if k = j then v else tget d m k

/-- Removing a key from a table. -/
def tdel {α : Type} : List (Nat × α) → Nat → List (Nat × α)
  | [], _ => []
  | (j, v) :: m, k => if k = j then tdel m k else (j, v) :: tdel m k

/-- Listing a key in a table at its place. -/
def tins {α : Type} : List (Nat × α) → Nat → α → List (Nat × α)
  | [], k, x => [(k, x)]
  | (j, v) :: m, k, x =>
    if k < j then (k, x) :: (j, v) :: m else if k = j then (k, x) :: m else (j, v) :: tins m k x

/-- Writing a table: a value equal to the default leaves the key unlisted. -/
def tset {α : Type} [DecidableEq α] (d : Nat → α) (m : List (Nat × α)) (k : Nat) (x : α) : List (Nat × α) :=
  if x = d k then tdel m k else tins m k x

/-- The keys of a table rise strictly. -/
def rising {α : Type} : List (Nat × α) → Bool
  | [] => true
  | [_] => true
  | (i, _) :: (j, w) :: m => decide (i < j) && rising ((j, w) :: m)

/-- The canonical form of a table. -/
def tableWf {α : Type} [DecidableEq α] (d : Nat → α) (m : List (Nat × α)) : Bool :=
  rising m && m.all (fun p => decide (p.2 ≠ d p.1))

/-- The element of a list at an index, or the given value past its end. -/
def lget {α : Type} (d : α) (l : List α) (i : Nat) : α := l.getD i d

/-- A list with one element changed by a function; an index past its end changes nothing. -/
def lmod {α : Type} (l : List α) (i : Nat) (f : α → α) : List α := l.modify i f

/-- Split a list into runs of a given length, at most `n` of them. -/
def chunks {α : Type} (w : Nat) : Nat → List α → List (List α)
  | 0, _ => []
  | n + 1, l => l.take w :: chunks w n (l.drop w)

end Sys2Proof.Machine
end

