-- ==== Sys2Proof/Machine/Crypto.lean ====
section
/-!
DEFINITION. CRC-32C (R82, R479, R497), SHA-512 (FIPS 180-4) and Ed25519 (RFC 8032), which R518 to R520 name. The standards
are outside spec/: PRESUMED, log entry 3.
-/
namespace Sys2Proof.Machine

/-- One byte into a CRC-32C, reflected polynomial 0x82F63B78. -/
def crcBits : Nat → Nat → Nat
  | 0, c => c
  | k + 1, c => crcBits k (if c % 2 = 1 then (c / 2) ^^^ 0x82F63B78 else c / 2)

/-- CRC-32C of bytes. -/
def crc32c (bs : List Byte) : Nat := bs.foldl (fun c b => crcBits 8 (c ^^^ b.toNat)) 0xFFFFFFFF ^^^ 0xFFFFFFFF

/-- The greatest x below 2ⁿ with xᵉ ≤ m, bit by bit. -/
def rootBits (e m : Nat) : Nat → Nat → Nat
  | 0, x => x
  | k + 1, x => rootBits e m k (if (x + 2 ^ k) ^ e ≤ m then x + 2 ^ k else x)

/-- The first 80 primes. -/
def shaPrimes : List Nat :=
  (List.range 410).filter (fun n => decide (2 ≤ n) && (List.range 19).all (fun k => n % (k + 2) != 0 || n == k + 2))

/-- The first 64 bits of the fraction of the e-th root of a prime, of which the constants of SHA-512 are made. -/
def rootFrac (e p : Nat) : Nat := rootBits e (p * 2 ^ (64 * e)) 70 0 % 2 ^ 64

/-- A word turned to the right by each of some numbers of bits, and one shifted, all added without carry. -/
def shaMix (turns : List Nat) (rest : Nat) (x : Nat) : Nat :=
  turns.foldl (fun y n => y ^^^ ((x * (2 ^ 64 + 1)) >>> n) % 2 ^ 64) rest

/-- One step on a block: the eight working variables, and the sixteen words of the schedule from the present one on. -/
def shaStep (s : List Nat × List Nat) (k : Nat) : List Nat × List Nat :=
  let v := lget 0 s.1
  let w := lget 0 s.2
  let up := v 7 + shaMix [14, 18, 41] 0 (v 4) + (v 6 ^^^ (v 4 &&& (v 5 ^^^ v 6))) + k + w 0
  let down := shaMix [28, 34, 39] 0 (v 0) + ((v 0 &&& (v 1 ||| v 2)) ||| (v 1 &&& v 2))
  let next := w 0 + shaMix [1, 8] (w 1 >>> 7) (w 1) + w 9 + shaMix [19, 61] (w 14 >>> 6) (w 14)
  ((up + down) % 2 ^ 64 :: s.1.take 3 ++ (v 3 + up) % 2 ^ 64 :: (s.1.drop 4).take 3, s.2.tail ++ [next % 2 ^ 64])

/-- A big-endian number. -/
def beNat (bs : List Byte) : Nat := bs.foldl (fun n b => 256 * n + b.toNat) 0

/-- One block of SHA-512 into a hash. -/
def shaBlock (consts : List Nat) (h : List Nat) (blk : List Byte) : List Nat :=
  List.zipWith (fun x y => (x + y) % 2 ^ 64) h (consts.foldl shaStep (h, (chunks 8 16 blk).map beNat)).1

/-- SHA-512. -/
def sha512 (bs : List Byte) : List Byte :=
  let n := bs.length
  let z := (112 + 128 - (n + 1) % 128) % 128
  let m := bs ++ [0x80#8] ++ List.replicate (z + 8) 0#8 ++ (leBytes 8 (8 * n)).reverse
  ((chunks 128 (m.length / 128) m).foldl (shaBlock (shaPrimes.map (rootFrac 3))) ((shaPrimes.take 8).map (rootFrac 2))).flatMap (fun x => (leBytes 8 x).reverse)

/-- The field of Ed25519. -/
def edP : Nat := 2 ^ 255 - 19
/-- The order of its base point. -/
def edL : Nat := 2 ^ 252 + 27742317777372353535851937790883648493

/-- Power modulo, over the bits of the exponent. -/
def powMod (m : Nat) : Nat → Nat → Nat → Nat → Nat
  | 0, _, _, r => r
  | k + 1, b, e, r => powMod m k (b * b % m) (e / 2) (if e % 2 = 1 then r * b % m else r)

/-- The curve's constant d. -/
def edD : Nat := (edP - 121665) * powMod edP 256 121666 (edP - 2) 1 % edP

/-- Sum of two points in extended coordinates (X, Y, Z, T). -/
def edAdd (p q : Nat × Nat × Nat × Nat) : Nat × Nat × Nat × Nat :=
  let (x1, y1, z1, t1) := p
  let (x2, y2, z2, t2) := q
  let a := (y1 + edP - x1) * (y2 + edP - x2) % edP
  let b := (y1 + x1) * (y2 + x2) % edP
  let c := 2 * t1 * t2 % edP * edD % edP
  let d := 2 * z1 * z2 % edP
  let e := b + edP - a
  let f := d + edP - c
  let g := d + c
  let h := b + a
  (e * f % edP, g * h % edP, f * g % edP, e * h % edP)

/-- Scalar multiple of a point. -/
def edMul : Nat → Nat → Nat × Nat × Nat × Nat → Nat × Nat × Nat × Nat → Nat × Nat × Nat × Nat
  | 0, _, _, r => r
  | k + 1, n, p, r => edMul k (n / 2) (edAdd p p) (if n % 2 = 1 then edAdd r p else r)

/-- The x coordinate of a point of the given y and sign. -/
def edX (y sign : Nat) : Option Nat :=
  let u := (y * y + edP - 1) % edP
  let v := (edD * y % edP * y + 1) % edP
  let x2 := u * powMod edP 256 v (edP - 2) 1 % edP
  let x := powMod edP 256 x2 ((edP + 3) / 8) 1
  let x := if x * x % edP = x2 then x else x * powMod edP 256 2 ((edP - 1) / 4) 1 % edP
  if x * x % edP ≠ x2 then none
  else if x = 0 ∧ sign = 1 then none
  else some (if x % 2 = sign then x else (edP - x) % edP)

/-- The point 32 bytes encode. -/
def edDecode (bs : List Byte) : Option (Nat × Nat × Nat × Nat) :=
  let n := leNat bs
  let y := n % 2 ^ 255
  if edP ≤ y then none
  else (edX y (n / 2 ^ 255)).map (fun x => (x, y, 1, x * y % edP))

/-- The 32 bytes of a point. -/
def edEncode (p : Nat × Nat × Nat × Nat) : List Byte :=
  let zi := powMod edP 256 p.2.2.1 (edP - 2) 1
  leBytes 32 (p.2.1 * zi % edP + 2 ^ 255 * (p.1 * zi % edP % 2))

/-- The base point. -/
def edB : Nat × Nat × Nat × Nat :=
  let y := 4 * powMod edP 256 5 (edP - 2) 1 % edP
  let x := (edX y 0).getD 0
  (x, y, 1, x * y % edP)

/-- A signature of a message under a public key verifies. -/
def edVerify (key msg sig : List Byte) : Bool :=
  let s := leNat (sig.drop 32)
  match edDecode key, edDecode (sig.take 32) with
  | some a, some r =>
    let k := leNat (sha512 (sig.take 32 ++ key ++ msg)) % edL
    decide (sig.length = 64) && decide (s < edL) &&
      edEncode (edMul 256 s edB (0, 1, 1, 0)) == edEncode (edAdd r (edMul 256 k a (0, 1, 1, 0)))
  | _, _ => false

/-- The secret scalar of a seed. -/
def edScalar (seed : List Byte) : Nat :=
  let n := leNat ((sha512 seed).take 32) % 2 ^ 254
  n - n % 8 + 2 ^ 254

/-- The public key of a seed. -/
def edPublic (seed : List Byte) : List Byte := edEncode (edMul 256 (edScalar seed) edB (0, 1, 1, 0))

/-- The signature of a message under a seed. -/
def edSign (seed msg : List Byte) : List Byte :=
  let a := edScalar seed
  let r := leNat (sha512 ((sha512 seed).drop 32 ++ msg)) % edL
  let rb := edEncode (edMul 256 r edB (0, 1, 1, 0))
  let k := leNat (sha512 (rb ++ edPublic seed ++ msg)) % edL
  rb ++ leBytes 32 ((r + k * a) % edL)

end Sys2Proof.Machine
end

