-- ==== Sys2Proof/Machine/Float.lean ====
section
/-! DEFINITION. FP32 and BF16 arithmetic (R151, R154, R167, R175, R176), formed exactly as a dyadic number and rounded
once, and the special functions of R177 within their bounds. A BF16 value is held as the FP32 word whose low half is 0. -/
namespace Sys2Proof.Machine
open Sys2Proof

/-- Rounding classes (R166): I is to nearest with ties away from zero, T to nearest with ties to even. -/
inductive RClass where
  | classI
  | classT
  deriving DecidableEq, Repr, Inhabited

/-- What an FP32 word stands for; a finite value is (−1)^neg × m × 2^e. -/
inductive FVal where
  | nan
  | inf (neg : Bool)
  | fin (neg : Bool) (m : Nat) (e : Int)
  deriving DecidableEq, Repr, Inhabited

/-- The value of a word; a subnormal is a zero of the same sign (R154). -/
def fval (w : Word) : FVal :=
  let neg := w.msb
  let x := fld w 30 23
  let f := fld w 22 0
  if x = 255 then (if f = 0 then .inf neg else .nan)
  else if x = 0 then .fin neg 0 0
  else .fin neg (2 ^ 23 + f) ((x : Int) - 150)

/-- A NaN word. -/
def isNan (w : Word) : Bool := fld w 30 23 = 255 && fld w 22 0 ≠ 0

/-- An infinity of either sign. -/
def isInf (w : Word) : Bool := fld w 30 0 = 0x7F800000

/-- The quiet NaN with the payload and sign of the operand (R154). -/
def quiet (w : Word) : Word := w ||| 0x00400000#32

/-- The NaN Vyuri generates (R154). -/
def genNan : Word := 0x7FC00000#32

/-- Zero, infinity and one with a sign. -/
def fzero (neg : Bool) : Word := if neg then 0x80000000#32 else 0#32
def finf (neg : Bool) : Word := if neg then 0xFF800000#32 else 0x7F800000#32

/-- m × 2^e rounded to a whole number of units of 2^u: to nearest, ties as the class says. -/
def roundUnits (c : RClass) (m : Nat) (e u : Int) : Nat :=
  if u ≤ e then m <<< (e - u).toNat
  else
    let k := (u - e).toNat
    let q := m >>> k
    let r := m % 2 ^ k
    let half := 2 ^ (k - 1)
    if r < half then q
    else if half < r then q + 1
    else match c with
      | .classI => q + 1
      | .classT => q + q % 2

/-- A finite value rounded to `prec` significant bits and packed as an FP32 word: too large becomes infinity, a result
IEEE 754 would deliver as a subnormal becomes a zero of the same sign (R154). -/
def packRound (prec : Nat) (c : RClass) (neg : Bool) (m : Nat) (e : Int) : Word :=
  if m = 0 then fzero neg
  else
    let top : Int := (Nat.log2 m : Int) + e
    let u : Int := max (top - (prec - 1 : Nat)) (-126 - (prec - 1 : Nat))
    let q := roundUnits c m e u
    let hid := 2 ^ (prec - 1)
    if q < hid then fzero neg
    else
      let carry := decide (q = 2 * hid)
      let q' := if carry then hid else q
      let u' := if carry then u + 1 else u
      let x : Int := u' + (prec - 1 : Nat) + 127
      if 255 ≤ x then finf neg
      else wordOf (b2n neg * 2 ^ 31 + x.toNat * 2 ^ 23 + (q' - hid) * 2 ^ (24 - prec))

/-- FP32 rounding of a finite value. -/
def fround (c : RClass) (neg : Bool) (m : Nat) (e : Int) : Word := packRound 24 c neg m e

/-- FP32 of an exact integer times a power of two; a zero is +0. -/
def froundInt (c : RClass) (z : Int) (e : Int) : Word := fround c (decide (z < 0)) z.natAbs e

/-- INT32 → FP32 (R176). -/
def ofInt (c : RClass) (z : Int) : Word := froundInt c z 0

/-- The first NaN operand, quieted; otherwise the given result (R154). -/
def nan1 (a : Word) (r : Word) : Word := if isNan a then quiet a else r
def nan2 (a b : Word) (r : Word) : Word := nan1 a (nan1 b r)
def nan3 (a b c : Word) (r : Word) : Word := nan1 a (nan2 b c r)

/-- Two finite dyadic numbers added exactly: the sign, magnitude and exponent of the sum. An exact zero sum of unlike
signs is +0, as IEEE 754 decides for rounding to nearest. -/
def dyAdd (n1 : Bool) (m1 : Nat) (e1 : Int) (n2 : Bool) (m2 : Nat) (e2 : Int) : Bool × Nat × Int :=
  let e := if m1 = 0 then e2 else if m2 = 0 then e1 else min e1 e2
  let a : Int := ((m1 <<< (e1 - e).toNat : Nat) : Int)
  let b : Int := ((m2 <<< (e2 - e).toNat : Nat) : Int)
  let z := (if n1 then -a else a) + (if n2 then -b else b)
  let neg := if z = 0 then n1 && n2 else decide (z < 0)
  (neg, z.natAbs, e)

/-- FP32 addition with one rounding. -/
def fadd (c : RClass) (a b : Word) : Word :=
  nan2 a b <|
    match fval a, fval b with
    | .nan, _ => genNan
    | _, .nan => genNan
    | .inf n, .inf k => if n = k then finf n else genNan
    | .inf n, _ => finf n
    | _, .inf n => finf n
    | .fin n1 m1 e1, .fin n2 m2 e2 =>
      let r := dyAdd n1 m1 e1 n2 m2 e2
      fround c r.1 r.2.1 r.2.2

/-- The word with its sign bit flipped. -/
def fneg (a : Word) : Word := a ^^^ 0x80000000#32

/-- FP32 subtraction a − b: a NaN operand keeps its own sign (R154). -/
def fsub (c : RClass) (a b : Word) : Word := nan2 a b (fadd c a (fneg b))

/-- FP32 multiplication with one rounding. -/
def fmul (c : RClass) (a b : Word) : Word :=
  nan2 a b <|
    match fval a, fval b with
    | .nan, _ => genNan
    | _, .nan => genNan
    | .inf n, .inf k => finf (n ^^ k)
    | .inf n, .fin k m _ => if m = 0 then genNan else finf (n ^^ k)
    | .fin n m _, .inf k => if m = 0 then genNan else finf (n ^^ k)
    | .fin n1 m1 e1, .fin n2 m2 e2 => fround c (n1 ^^ n2) (m1 * m2) (e1 + e2)

/-- FP32 a × b + d with one rounding. -/
def ffma (c : RClass) (a b d : Word) : Word :=
  nan3 a b d <|
    match fval a, fval b with
    | .nan, _ => genNan
    | _, .nan => genNan
    | .inf n, .inf k => fadd c (finf (n ^^ k)) d
    | .inf n, .fin k m _ => if m = 0 then genNan else fadd c (finf (n ^^ k)) d
    | .fin n m _, .inf k => if m = 0 then genNan else fadd c (finf (n ^^ k)) d
    | .fin n1 m1 e1, .fin n2 m2 e2 =>
      match fval d with
      | .nan => genNan
      | .inf n => finf n
      | .fin n3 m3 e3 =>
        let r := dyAdd (n1 ^^ n2) (m1 * m2) (e1 + e2) n3 m3 e3
        fround c r.1 r.2.1 r.2.2

/-- m1 × 2^e1 ÷ (m2 × 2^e2) to at least 60 significant bits, the last of them marking a remainder. -/
def dyDiv (m1 : Nat) (e1 : Int) (m2 : Nat) (e2 : Int) : Nat × Int :=
  let k := 60 + Nat.log2 m2
  let n := m1 <<< k
  let q := n / m2
  (2 * q + b2n (decide (n % m2 ≠ 0)), e1 - e2 - k - 1)

/-- FP32 division a ÷ b with one rounding. -/
def fdiv (c : RClass) (a b : Word) : Word :=
  nan2 a b <|
    match fval a, fval b with
    | .nan, _ => genNan
    | _, .nan => genNan
    | .inf _, .inf _ => genNan
    | .inf n, .fin k _ _ => finf (n ^^ k)
    | .fin n _ _, .inf k => fzero (n ^^ k)
    | .fin n1 m1 e1, .fin n2 m2 e2 =>
      if m2 = 0 then (if m1 = 0 then genNan else finf (n1 ^^ n2))
      else
        let r := dyDiv m1 e1 m2 e2
        fround c (n1 ^^ n2) r.1 r.2

/-- The exact comparison a < b of two numbers; false when either is NaN. -/
def flt (a b : Word) : Bool :=
  match fval a, fval b with
  | .nan, _ => false
  | _, .nan => false
  | .inf n, .inf k => n && !k
  | .inf n, .fin _ _ _ => n
  | .fin _ _ _, .inf k => !k
  | .fin n1 m1 e1, .fin n2 m2 e2 =>
    let e := min e1 e2
    let x : Int := ((m1 <<< (e1 - e).toNat : Nat) : Int)
    let y : Int := ((m2 <<< (e2 - e).toNat : Nat) : Int)
    decide ((if n1 then -x else x) < (if n2 then -y else y))

/-- The exact comparison a ≤ b of two numbers; false when either is NaN. -/
def fle (a b : Word) : Bool := !isNan a && !isNan b && !flt b a

/-- The exact comparison a = b of two numbers; false when either is NaN. -/
def feq (a b : Word) : Bool := fle a b && fle b a

/-- A subnormal read as a zero of the same sign (R154). -/
def ftz (a : Word) : Word := if fld a 30 23 = 0 then a &&& 0x80000000#32 else a

/-- |a|: a subnormal is read as zero, and a NaN is quieted and keeps its sign (R154). -/
def fabs (a : Word) : Word := nan1 a (ftz a &&& 0x7FFFFFFF#32)

/-- The larger operand; the first NaN operand, quieted, when there is one (R154). -/
def fmax (a b : Word) : Word := nan2 a b (if flt a b then ftz b else ftz a)

/-- The smaller operand; the first NaN operand, quieted, when there is one (R154). -/
def fmin (a b : Word) : Word := nan2 a b (if flt b a then ftz b else ftz a)

/-- a clamped to the range b to c; the first NaN operand, quieted, when there is one (R154). -/
def fclamp (a b c : Word) : Word := nan3 a b c (fmin (fmax a b) c)

/-- A finite dyadic number rounded to an integer in a class. -/
def dyRoundInt (c : RClass) (neg : Bool) (m : Nat) (e : Int) : Int :=
  let q : Int := (roundUnits c m e 0 : Nat)
  if neg then -q else q

/-- The integer at or below a finite dyadic number. -/
def dyFloor (neg : Bool) (m : Nat) (e : Int) : Int :=
  if 0 ≤ e then (let v : Int := ((m <<< e.toNat : Nat) : Int); if neg then -v else v)
  else
    let k := (-e).toNat
    if neg then -(((m + 2 ^ k - 1) >>> k : Nat) : Int) else ((m >>> k : Nat) : Int)

/-- The result of a conversion to an integer: the code, and whether SAT_CNT and NAN_CNT advance (R176). -/
structure IntConv where
  val : Int
  sat : Bool
  nan : Bool
  deriving DecidableEq, Repr, Inhabited

/-- FP32 → an integer format of range lo to hi (R176). -/
def toInt (c : RClass) (lo hi : Int) (w : Word) : IntConv :=
  match fval w with
  | .nan => ⟨0, false, true⟩
  | .inf n => ⟨if n then lo else hi, true, false⟩
  | .fin n m e =>
    let z := dyRoundInt c n m e
    ⟨clampInt lo hi z, decide (z < lo ∨ hi < z), false⟩

/-- FP32 → BF16, held as the FP32 word whose low half is 0 (R176). -/
def toBf16 (c : RClass) (w : Word) : Word :=
  match fval w with
  | .nan => 0x7FC00000#32
  | .inf n => finf n
  | .fin n m e => packRound 8 c n m e

/-- The FP32 word of a 16-bit BF16 code. -/
def bf16Word (h : Nat) : Word := wordOf (h % 2 ^ 16 * 2 ^ 16)

/-- The 16-bit code of a BF16 value held as an FP32 word. -/
def bf16Code (w : Word) : Nat := fld w 31 16

/-! Special functions (R177). Each is a code the hardware fixes within a bound; the bound is checked here against the
function's value formed in fixed point with 120 fraction bits, and a code outside it is replaced by the nearest one. -/

/-- One in fixed point. -/
def fxOne : Nat := 2 ^ 120

/-- ln 2 in fixed point: floor(ln 2 × 2^120). -/
def fxLn2 : Nat := 921350637599661305226344307672478454

/-- Taylor terms of exp of a fraction r below 1, in fixed point: `term` is r^n/n! scaled. -/
def fxExpTerms : Nat → Nat → Nat → Nat → Nat → Nat
  | 0, _, _, _, acc => acc
  | k + 1, n, r, term, acc => fxExpTerms k (n + 1) r (term * r / (fxOne * (n + 1))) (acc + term)

/-- exp of a fixed-point number: a mantissa in fixed point and a binary exponent. -/
def fxExp (z : Int) : Nat × Int :=
  let k := z / (fxLn2 : Int)
  let r := (z - k * fxLn2).toNat
  (fxExpTerms 36 0 r fxOne 0, k - 120)

/-- A finite dyadic number in fixed point, rounded down in magnitude. -/
def dyToFx (neg : Bool) (m : Nat) (e : Int) : Int :=
  let k := e + 120
  let v : Int := (if 0 ≤ k then m <<< k.toNat else m >>> (-k).toNat : Nat)
  if neg then -v else v

/-- The exponent of the last FP32 place of a positive number m × 2^e. -/
def ulpExp (m : Nat) (e : Int) : Int := max ((Nat.log2 m : Int) + e - 23) (-149)

/-- |a − b| ≤ 2^t for two dyadic numbers of sign and magnitude. -/
def dyNear (n1 : Bool) (m1 : Nat) (e1 : Int) (n2 : Bool) (m2 : Nat) (e2 : Int) (t : Int) : Bool :=
  let r := dyAdd n1 m1 e1 (!n2) m2 e2
  let e := min r.2.2 t
  decide (r.2.1 <<< (r.2.2 - e).toNat ≤ 1 <<< (t - e).toNat)

/-- A candidate code kept where it is finite and within 2^t of the value; otherwise the value's nearest code. -/
def within (cand : Word) (neg : Bool) (m : Nat) (e t : Int) : Word :=
  match fval cand with
  | .fin n' m' e' => if dyNear n' m' e' neg m e t then ftz cand else fround .classT neg m e
  | _ => fround .classT neg m e

/-- exp(x): within 2 ULP; above 88.7228 +∞, below −87.3365 +0, exp(±0) = 1. -/
def spExp (x : Word) : Word :=
  nan1 x <|
    match fval x with
    | .nan => genNan
    | .inf n => if n then fzero false else finf false
    | .fin n m e =>
      let z := dyToFx n m e
      if m = 0 then 0x3F800000#32
      else if 887228 * (fxOne : Int) < 10000 * z then finf false
      else if 10000 * z < -(873365 * (fxOne : Int)) then fzero false
      else
        let v := fxExp z
        within (Config.spExp x) false v.1 v.2 (ulpExp v.1 v.2 + 1)

/-- 1/x: within 1 ULP; ±0 gives ±∞, ±∞ gives ±0, |x| above 2^126 gives ±0. -/
def spRecip (x : Word) : Word :=
  nan1 x <|
    match fval x with
    | .nan => genNan
    | .inf n => fzero n
    | .fin n m e =>
      if m = 0 then finf n
      else if 0x7E800000 < fld x 30 0 then fzero n
      else
        let v := dyDiv 1 0 m e
        within (Config.spRecip x) n v.1 v.2 (ulpExp v.1 v.2)

/-- The whole square root of a number below 4^k, one binary digit at a time. -/
def sqrtBits : Nat → Nat → Nat → Nat
  | 0, _, acc => acc
  | k + 1, n, acc =>
    let t := acc + 2 ^ k
    sqrtBits k n (if t * t ≤ n then t else acc)

/-- 1/√(m × 2^e) to about 60 bits: a mantissa and an exponent. -/
def dyRsqrt (m : Nat) (e : Int) : Nat × Int :=
  let odd := decide (e % 2 ≠ 0)
  let m' := if odd then 2 * m else m
  let e' := if odd then e - 1 else e
  let n := 2 ^ 172 / m'
  (sqrtBits 90 n 0, -86 - e' / 2)

/-- 1/√x: within 2 ULP; +0 gives +∞, a negative number NaN, +∞ gives +0; −0 is left open. -/
def spRsqrt (x : Word) : Word :=
  nan1 x <|
    match fval x with
    | .nan => genNan
    | .inf n => if n then genNan else fzero false
    | .fin n m e =>
      if m = 0 then (if n then Config.rsqrtNegZero else finf false)
      else if n then genNan
      else
        let v := dyRsqrt m e
        within (Config.spRsqrt x) false v.1 v.2 (ulpExp v.1 v.2 + 1)

/-- √ of an FP32 number, to nearest in class T. -/
def fsqrt (w : Word) : Word :=
  match fval w with
  | .fin false m e =>
    if m = 0 then w
    else
      let odd := decide (e % 2 ≠ 0)
      let m2 := (if odd then 2 * m else m) * 2 ^ 60
      let e2 := (if odd then e - 1 else e) - 60
      let q := sqrtBits 50 m2 0
      fround .classT false (2 * q + b2n (decide (q * q ≠ m2))) (e2 / 2 - 1)
  | .inf false => w
  | .nan => quiet w
  | .inf true => genNan
  | .fin true m _ => if m = 0 then w else genNan

/-- exp of a fixed-point number, in fixed point. -/
def fxExpFx (z : Int) : Nat :=
  let v := fxExp z
  let k := v.2 + 120
  if 0 ≤ k then v.1 <<< k.toNat else v.1 >>> (-k).toNat

/-- sigmoid(x): within 2^-22; from 17 up 1.0, from −88 down +0, sigmoid(0) = 0.5. -/
def spSigm (x : Word) : Word :=
  nan1 x <|
    match fval x with
    | .nan => genNan
    | .inf n => if n then fzero false else 0x3F800000#32
    | .fin n m e =>
      let z := dyToFx n m e
      if m = 0 then 0x3F000000#32
      else if 17 * (fxOne : Int) ≤ z then 0x3F800000#32
      else if z ≤ -(88 * (fxOne : Int)) then fzero false
      else
        let d := fxOne + fxExpFx (-(if n then -z else z))
        let pos := fxOne * fxOne / d
        let v := if n then fxOne - pos else pos
        within (Config.spSigm x) false v (-120) (-22)

/-- tanh(x): within 2^-22, and within 2 ULP below 2^-4; from 9.1 up in magnitude ±1.0, tanh(±0) = ±0. Below 2^-30 in
magnitude x itself is the value to far less than 1 ULP. -/
def spTanh (x : Word) : Word :=
  nan1 x <|
    match fval x with
    | .nan => genNan
    | .inf n => if n then 0xBF800000#32 else 0x3F800000#32
    | .fin n m e =>
      let z := (dyToFx n m e).natAbs
      if m = 0 then fzero n
      else if 91 * fxOne ≤ 10 * z then (if n then 0xBF800000#32 else 0x3F800000#32)
      else if z < 2 ^ 90 then within (Config.spTanh x) n m e (ulpExp m e + 1)
      else
        let q := fxExpFx (-(2 * (z : Int)))
        let v := (fxOne - q) * fxOne / (fxOne + q)
        let t := if z < 2 ^ 116 then ulpExp v (-120) + 1 else -22
        within (Config.spTanh x) n v (-120) t

end Sys2Proof.Machine
end

