-- ==== Sys2Proof/Machine/Quant.lean ====
section
/-! DEFINITION. Quantised tensors: their records, the corrected sum, the rescale, escapes and side lists, conversions and
the arithmetic counts (R151 to R180). -/
namespace Sys2Proof.Machine
open Sys2Proof

/-- Element formats (R151, R157). -/
inductive Fmt where
  | int8
  | int4
  | uint8
  | int32
  | bf16
  | fp32
  deriving DecidableEq, Repr, Inhabited

/-- FMT codes; 6 to 15 are reserved, a descriptor error (R157). -/
def fmtOf : Nat → Option Fmt
  | 0 => some .int8
  | 1 => some .int4
  | 2 => some .uint8
  | 3 => some .int32
  | 4 => some .bf16
  | 5 => some .fp32
  | _ => none

/-- Smallest and largest code of an integer format (R151). -/
def Fmt.lo : Fmt → Int
  | .int8 => -128
  | .int4 => -8
  | .uint8 => 0
  | _ => -2147483648
def Fmt.hi : Fmt → Int
  | .int8 => 127
  | .int4 => 7
  | .uint8 => 255
  | _ => 2147483647

/-- Width of an element in bits (R151). -/
def Fmt.bits : Fmt → Nat
  | .int4 => 4
  | .int8 => 8
  | .uint8 => 8
  | .bf16 => 16
  | .int32 => 32
  | .fp32 => 32

/-- Formats whose elements are quantised through a scale and a zero point. -/
def Fmt.quantised : Fmt → Bool
  | .int8 => true
  | .int4 => true
  | .uint8 => true
  | _ => false

/-- A tensor quantisation record (R156). -/
structure TensorRec where
  scale : Word
  zp : Int
  fmt : Fmt
  esc : Bool
  sideFp32 : Bool
  privileged : Bool
  learned : Bool
  deriving DecidableEq, Repr, Inhabited

/-- The fields of a 64-bit tensor record; `none` for a reserved FMT or a reserved bit that is not 0. SCALE, ZP, ESC and
SIDE_FP32 of an INT32, BF16 or FP32 tensor are ignored (R158). -/
def tensorRec (n : Nat) : Option TensorRec :=
  if bitsOf n 11 8 ≠ 0 ∨ bitsOf n 3 0 ≠ 0 then none
  else
    (fmtOf (bitsOf n 15 12)).map fun f =>
      let q := f.quantised
      { scale := if q then wordOf (bitsOf n 63 32) else 0x3F800000#32
        zp := if q then signedOf 16 (bitsOf n 31 16) else 0
        fmt := f
        esc := q && bitOf n 7
        sideFp32 := q && bitOf n 6
        privileged := bitOf n 5
        learned := bitOf n 4 }

/-- A SCALE that is positive, normal and finite (R155). -/
def scaleOk (w : Word) : Bool :=
  match fval w with
  | .fin n m _ => !n && m ≠ 0
  | _ => false

/-- The record faults of R159: a bad SCALE, a ZP outside the code range, or ESC on a format that has none. -/
def recFault (n : Nat) : Bool :=
  match fmtOf (bitsOf n 15 12) with
  | none => false
  | some f =>
    let zp := signedOf 16 (bitsOf n 31 16)
    (f.quantised && (!scaleOk (wordOf (bitsOf n 63 32)) || decide (zp < f.lo ∨ f.hi < zp)))
      || (bitOf n 7 && decide (f ≠ .int8 ∧ f ≠ .int4))

/-- A record a task may use: FMT not reserved and none of the faults of R159. -/
def recOk (n : Nat) : Bool := (tensorRec n).isSome && !recFault n

/-- A rescale record (R163). -/
structure RescaleRec where
  m : Int
  s : Nat
  perChannel : Bool
  relu : Bool
  deriving DecidableEq, Repr, Inhabited

/-- The fields of a 64-bit rescale record. -/
def rescaleRec (n : Nat) : RescaleRec :=
  { m := signedOf 32 (bitsOf n 63 32), s := bitsOf n 31 26, perChannel := bitOf n 25, relu := bitOf n 24 }

/-- The arithmetic counts of a task (R180). -/
structure ArithCnt where
  sat : Nat := 0
  escOut : Nat := 0
  escOvf : Nat := 0
  escMiss : Nat := 0
  nan : Nat := 0
  deriving DecidableEq, Repr, Inhabited

def ArithCnt.addSat (c : ArithCnt) (k : Nat) : ArithCnt := { c with sat := satAdd 16 c.sat k }
def ArithCnt.addEsc (c : ArithCnt) (k : Nat) : ArithCnt := { c with escOut := satAdd 8 c.escOut k }
def ArithCnt.addOvf (c : ArithCnt) (k : Nat) : ArithCnt := { c with escOvf := satAdd 16 c.escOvf k }
def ArithCnt.addMiss (c : ArithCnt) (k : Nat) : ArithCnt := { c with escMiss := satAdd 8 c.escMiss k }
def ArithCnt.addNan (c : ArithCnt) (k : Nat) : ArithCnt := { c with nan := satAdd 16 c.nan k }

/-- Counts of one task added to those of another part of it, each saturating at its width. -/
def ArithCnt.join (a b : ArithCnt) : ArithCnt :=
  ((((a.addSat b.sat).addEsc b.escOut).addOvf b.escOvf).addMiss b.escMiss).addNan b.nan

/-- The corrected sum of a drain (R162). -/
def corrected (raw za zb sumA sumB : Int) (k : Nat) : Int := raw - zb * sumA - za * sumB + k * za * zb

/-- rnd of R164 for a product p and a shift s. -/
def rescaleRnd (c : RClass) (p : Int) (s : Nat) : Int :=
  if s = 0 then 0
  else match c with
    | .classI => if 0 ≤ p then 2 ^ (s - 1) else 2 ^ (s - 1) - 1
    | .classT => 2 ^ (s - 1) - 1 + (p / 2 ^ s) % 2

/-- Z_out + ((acc × M + rnd) >> s), before the clamp (R163). -/
def rescaleRaw (c : RClass) (acc : Int) (m : Int) (s : Nat) (zout : Int) : Int :=
  let p := acc * m
  zout + (p + rescaleRnd c p s) / 2 ^ s

/-- The code bounds of an output: narrowed when the output has ESC set (R171). -/
def outLo (r : TensorRec) : Int := if r.esc then r.fmt.lo + 1 else r.fmt.lo
def outHi (r : TensorRec) : Int := r.fmt.hi

/-- The escape code of a format: −128 or −8 (R170). -/
def escCode (f : Fmt) : Int := f.lo

/-- The value of an element that leaves the range of an output with ESC: rounded once to BF16 or FP32 (R171). -/
def sideValue (c : RClass) (r : TensorRec) (neg : Bool) (m : Nat) (e : Int) : Word :=
  packRound (if r.sideFp32 then 24 else 8) c neg m e

/-- One element written to an output: its code and, when it escapes, the value for the side list. -/
structure OutElem where
  code : Int
  esc : Option Word
  sat : Bool
  /-- An escape lies below the range. -/
  low : Bool := false
  deriving DecidableEq, Repr, Inhabited

/-- The clamp of R163 and R171: RELU raises the lower bound to Z_out without counting, ESC turns an element whose unclamped y lies
outside the range, RELU or not, into an escape with the given exact value. -/
def clampOut (r : TensorRec) (relu : Bool) (y : Int) (side : Word) : OutElem :=
  let lo := outLo r
  let hi := outHi r
  let lo' := if relu then max lo r.zp else lo
  if r.esc ∧ (hi < y ∨ y < lo) then ⟨escCode r.fmt, some side, false, decide (y < lo)⟩
  else ⟨clampInt lo' hi y, none, decide (hi < y ∨ (y < lo ∧ lo' = lo)), false⟩

/-- A rescale of a corrected sum into an output (R163, R171): the exact value S_out × acc × M × 2^−s is what an escape
keeps. -/
def rescaleOut (c : RClass) (r : TensorRec) (relu : Bool) (m : Int) (s : Nat) (acc : Int) : OutElem :=
  let side := match fval r.scale with
    | .fin _ sm se => let p := acc * m; sideValue c r (decide (p < 0)) (p.natAbs * sm) (se - s)
    | _ => genNan
  clampOut r relu (rescaleRaw c acc m s r.zp) side

/-- FP32 → quantised with a tensor record (R176): Round(v × RS) + Z in one rounding, then the clamp of R163 and R171. -/
def quantOut (c : RClass) (r : TensorRec) (v : Word) : OutElem × Bool :=
  match fval v with
  | .nan => (⟨r.zp, none, false, false⟩, true)
  | .inf n =>
    (if r.esc then ⟨escCode r.fmt, some (finf n), false, n⟩
     else ⟨if n then r.fmt.lo else r.fmt.hi, none, true, false⟩, false)
  | .fin n m e =>
    match fval (spRecip r.scale) with
    | .fin _ m2 e2 =>
      let y := dyRoundInt c n (m * m2) (e + e2) + r.zp
      (clampOut r false y (sideValue c r n m e), false)
    | _ => (⟨r.zp, none, false, false⟩, true)

/-- S × (q − Z) with one rounding (R176). -/
def dequant (c : RClass) (scale : Word) (zp q : Int) : Word :=
  match fval scale with
  | .fin _ m e => froundInt c ((q - zp) * m) e
  | _ => genNan

/-- The code a feeder presents for a stored code and zero point: UINT8 has bit 7 inverted (R153). -/
def feedCode (f : Fmt) (q : Int) : Int := if f = .uint8 then q - 128 else q

/-- The zero point a feeder uses. -/
def feedZp (r : TensorRec) : Int := feedCode r.fmt r.zp

/-- r × 2^s as an exact dyadic, rounded half to even to an integer. -/
def scaleRound (m : Nat) (e : Int) (s : Nat) : Nat := roundUnits .classT m (e + s) 0

/-- A positive dyadic kept to 53 significant bits, ties to even: an FP64 result within its range (R165). -/
def round53 (m : Nat) (e : Int) : Nat × Int :=
  let u := (Nat.log2 m : Int) + e - 52
  if u ≤ e then (m, e) else (roundUnits .classT m e u, u)

/-- The procedure of R165: M and s for a ratio r = S_a × S_b ÷ S_out; `none` is SCALE_RANGE. -/
def deriveScale (sa sb so : Word) : Option (Nat × Nat) :=
  match fval sa, fval sb, fval so with
  | .fin na ma ea, .fin nb mb eb, .fin no mo eo =>
    if mo = 0 ∨ ma * mb = 0 ∨ (na ^^ nb ^^ no) then none
    else
      let q := dyDiv (ma * mb) (ea + eb) mo eo
      let r := round53 q.1 q.2
      let s0 : Int := 30 - ((Nat.log2 r.1 : Int) + r.2)
      let s1 : Int := if 63 < s0 then 63 else s0
      if s1 < 0 then none
      else
        let m := scaleRound r.1 r.2 s1.toNat
        if m = 2 ^ 31 then (if s1 = 0 then none else some (2 ^ 30, s1.toNat - 1))
        else if m = 0 then none
        else some (m, s1.toNat)
  | _, _, _ => none

/-- An element of a tensor stored at an index, from the bytes of its store (R152: two INT4 to a byte, low half first). -/
def elemCode (f : Fmt) (byteAt : Nat → Byte) (i : Nat) : Nat :=
  match f with
  | .int4 => let b := (byteAt (i / 2)).toNat; if i % 2 = 0 then b % 16 else b / 16
  | .int8 => (byteAt i).toNat
  | .uint8 => (byteAt i).toNat
  | .bf16 => leNat [byteAt (2 * i), byteAt (2 * i + 1)]
  | _ => leNat [byteAt (4 * i), byteAt (4 * i + 1), byteAt (4 * i + 2), byteAt (4 * i + 3)]

/-- The integer a code of a format stands for. -/
def codeInt (f : Fmt) (n : Nat) : Int :=
  match f with
  | .uint8 => (n : Int)
  | .int4 => signedOf 4 n
  | .int8 => signedOf 8 n
  | _ => signedOf 32 n

/-- A side list: the value held for an element index, in a tile's list of (index, value) entries. -/
def sideFind (l : List (Nat × Word)) (i : Nat) : Option Word :=
  match l with
  | [] => none
  | (j, v) :: r => if i = j then some v else sideFind r i

/-- The entries of a 520-byte side list (R172). BF16 values already stand in the high half. -/
def sideParse (bs : List Byte) : List (Nat × Word) :=
  (List.range (min (leAt bs 0 2) 64)).map fun i =>
    (leAt bs (8 + 8 * i) 2, wordOf (leAt bs (12 + 8 * i) 4))

/-- The 520 bytes of a side list, entries in increasing order of index (R172). -/
def sideBytes (l : List (Nat × Word)) : List Byte :=
  let l' := (l.foldl (fun a p => tins a p.1 p.2) []).take 64
  leBytes 2 l'.length ++ List.replicate 6 0 ++
    (l'.map fun p => leBytes 4 p.1 ++ leBytes 4 p.2.toNat).flatten ++
    List.replicate (512 - 8 * l'.length) 0

/-- Taking an escape into a tile's side list: the 65th clamps the element instead and counts ESC_OVERFLOW and SAT_CNT
(R172). `used` is the number of entries the tile has. -/
def escapeTake (r : TensorRec) (used : Nat) (o : OutElem) (cnt : ArithCnt) : Int × Option Word × ArithCnt :=
  match o.esc with
  | none => (o.code, none, if o.sat then cnt.addSat 1 else cnt)
  | some v =>
    if used < 64 then (o.code, some v, cnt.addEsc 1)
    else
      (if o.low then outLo r else outHi r, none, (cnt.addOvf 1).addSat 1)

/-- The bound that an element already escaped is clamped to where its new tile takes no more entries: the one its y lies beyond
(R172). -/
def escBound (r : TensorRec) (v : Word) : Int :=
  let low := match fval v, fval (spRecip r.scale) with
    | .fin n m e, .fin _ m2 e2 => decide (dyRoundInt .classI n (m * m2) (e + e2) + r.zp < outLo r)
    | _, _ => v.msb
  if low then outLo r else outHi r

/-- An entry of NaN or infinity is taken as 0 and counts NAN_CNT (R174). -/
def sideTaken (v : Word) (cnt : ArithCnt) : Word × ArithCnt :=
  if isNan v || isInf v then (0#32, cnt.addNan 1) else (v, cnt)

end Sys2Proof.Machine
end

