-- ==== Sys2Proof/Machine/State.lean ====
section
/-!
DEFINITION. What the block holds (every register, queue, table and pin the spec names), why a step can stop, and the
state right after reset. Registers stand in `regs`, sparse over the register map's reset values; the stores of R281, R290
and R122 in `mem`, sparse over 0; what is not a register, as the structures below, one for each chapter of spec/.
-/
namespace Sys2Proof.Machine

/-! ### Course Unit (R37 to R71) -/

/-- An encoder input (R37 to R41): its filtered levels, and what the errors and the speed estimate need of its past. -/
structure Enc where
  /-- Filtered level of channel A. -/
  a : Bool := false
  /-- Filtered level of channel B. -/
  b : Bool := false
  /-- An edge has been seen (STATUS [0]). -/
  seen : Bool := false
  /-- The differential amplitude is below threshold (STATUS [1]). -/
  los : Bool := false
  /-- FAULTED (R41). -/
  faulted : Bool := false
  /-- Ticks of the errors of the last 1 ms. -/
  errs : List Nat := []
  /-- Tick of the last change of each channel that the glitch filter accepted (R38). -/
  aAt : Option Nat := none
  bAt : Option Nat := none
  /-- Tick of the last counted edge, and of the one before; what the last one added to the counter it feeds. -/
  last : Option Nat := none
  prev : Option Nat := none
  step : Int := 0
  /-- Counted edges, forward positive (R363). -/
  cnt : Int := 0
  deriving DecidableEq, Repr, Inhabited

/-- Dead reckoning in progress (R48): where and when it began, and the speed SP advances at. -/
structure DeadReck where
  /-- Tick of the second fault, from which DR_LIMIT runs; then the tick and the position from which SP is reckoned. -/
  since : Nat
  start : Nat
  sp0 : Int
  speed : Int
  deriving DecidableEq, Repr, Inhabited

/-- A position lost under R48: the tick it was lost and the last speed estimate. -/
structure LostPos where
  at_ : Nat
  frozen : Int
  speed : Int
  deriving DecidableEq, Repr, Inhabited

/-- One entry of the SP history (R52, R98), one each 62.5 µs: LOCAL time in units of 2⁻³² ns, fine SP, edges counted so
far. -/
structure SpSample where
  time : Nat
  sp : Int
  edges : Nat
  deriving DecidableEq, Repr, Inhabited

/-- A line generator (R56 to R59). -/
structure Lg where
  /-- Tick of the last trigger issued. -/
  lastIssue : Option Nat := none
  /-- Triggers held back by MIN_NS, oldest first: phase and n of the line position. -/
  late : List (Nat × Int) := []
  /-- Greatest line position issued or skipped since the last load of SP, 2⁻²⁴ µm. -/
  lastPos : Option Int := none
  /-- The phase cycle being skipped (R59). -/
  skip : Option Int := none
  /-- Lines emitted per phase, since power-on. -/
  count : List Nat := [0, 0, 0, 0]
  deriving DecidableEq, Repr, Inhabited

/-- A Course output (R60, R61): its active state, and the end of the pulse or strobe that holds it. -/
structure CrsOut where
  active : Bool := false
  until_ : Option Nat := none
  /-- Line positions (n of R56) whose strobe has started ahead of the crossing, not yet crossed; ticks at which strobes of
  negative LEAD are due, oldest first. -/
  early : List Int := []
  due : List Nat := []
  deriving DecidableEq, Repr, Inhabited

/-- What a waiting event program waits for (R67). -/
inductive ProgWait where
  | spGe (x : Int)
  | spLe (x : Int)
  | time (tick : Nat)
  | line (g k : Nat) (target : Nat)
  | sig (i : Nat)
  deriving DecidableEq, Repr, Inhabited

/-- An event program (R63 to R67). Its enable bit is in COURSE_PROG_EN. -/
structure Prog where
  /-- The instructions of the last load, 64 bits each. -/
  text : List Nat := []
  pc : Nat := 0
  anchor : Int := 0
  cnt : List Word := [0#32, 0#32, 0#32, 0#32]
  wait : Option ProgWait := none
  /-- Instructions executed since the last wait that did not complete at once (R65). -/
  icount : Nat := 0
  /-- First tick at which the next instruction may execute (R64). -/
  due : Nat := 0
  deriving DecidableEq, Repr, Inhabited

/-- The Course Unit. Positions are fine positions in 2⁻²⁴ µm. -/
structure Course where
  enc : List Enc := List.replicate 8 {}
  cntA : Int := 0
  cntB : Int := 0
  sp : Int := 0
  /-- offset of R43, fixed at the last LOAD_SP, RESYNC or successful clear. -/
  offset : Int := 0
  /-- SP_sync of R43. -/
  spSync : Int := 0
  /-- The latched source is B (R44). -/
  srcB : Bool := false
  xchk : Bool := false
  hwm : Int := 0
  /-- The high-water mark before the last change of SP (R54). -/
  hwmPrev : Int := 0
  /-- What the last counted edge of the source added to SP. -/
  lastDelta : Int := 0
  reversal : Bool := false
  dr : Option DeadReck := none
  lost : Option LostPos := none
  /-- The last lost interval was estimated (STATUS [7]). -/
  estimated : Bool := false
  speed : Int := 0
  /-- Speed is declared zero (R52). No edge has been counted after power-on, so it starts true (log entry 4). -/
  zero : Bool := true
  /-- Tick of the last counted edge of the source of SP. -/
  lastEdge : Nat := 0
  edges : Nat := 0
  /-- The latest 16,384 samples, newest first (R98). -/
  hist : List SpSample := []
  lg : List Lg := List.replicate 4 {}
  out : List CrsOut := List.replicate 24 {}
  prog : List Prog := List.replicate 64 {}
  /-- The 16 shared signals. -/
  sig : BitVec 16 := 0#16
  deriving DecidableEq, Repr, Inhabited

/-! ### Time and network (R463 to R491) -/

/-- A clock (R463): its value in units of 2⁻³² ns at a tick, and the increment of each tick since. -/
structure Clock where
  base : Nat := 0
  from_ : Nat := 0
  incr : Nat := 0x200000000
  deriving DecidableEq, Repr, Inhabited

/-- States of a tracked domain (R468). -/
inductive DomState where
  | off
  | acquiring
  | locked
  | holdover
  deriving DecidableEq, Repr, Inhabited

/-- A Sync or Pdelay_Resp waiting for its follow-up: its sequence number, port, source identity, and receive time in the
domain's clock. -/
structure PtpPend where
  seq : Nat
  port : Nat
  src : Nat
  rx : Nat
  at_ : Nat
  corr : Int
  deriving DecidableEq, Repr, Inhabited

/-- A tracked domain (R468 to R472). -/
structure Dom where
  clk : Clock := {}
  st : DomState := .off
  /-- Port identity and receiving port of the selected master. -/
  master : Option (Nat × Nat) := none
  /-- Sync intervals in a row within LOCK_NS, OUTLIER samples in a row, and Sync intervals without an accepted Sync. -/
  good : Nat := 0
  outlier : Nat := 0
  lastSync : Nat := 0
  /-- Mean path delay, 2⁻³² ns. -/
  delay : Int := 0
  offset : Int := 0
  pendSync : Option PtpPend := none
  pendPdelay : Option PtpPend := none
  /-- Master-to-slave difference of the last accepted Sync. -/
  ms : Int := 0
  /-- The delay request in flight: sequence number and transmit time. -/
  reqSeq : Nat := 0
  reqTx : Option Nat := none
  /-- Grandmaster announced by the master, forwarded as a boundary clock (R470). -/
  gm : Nat := 0
  deriving DecidableEq, Repr, Inhabited

/-- A pulse output (R473, R474). -/
structure Tpo where
  active : Bool := false
  endAt : Option Nat := none
  /-- Next start, and the last one emitted, in the selected clock's ns. -/
  next : Option Nat := none
  last : Option Nat := none
  deriving DecidableEq, Repr, Inhabited

/-- A time-capture input (R475): captured (seconds, nanoseconds), oldest first. -/
structure Tcap where
  fifo : List (Nat × Nat) := []
  deriving DecidableEq, Repr, Inhabited

/-- An entry of a port's ARP cache (R478). -/
structure ArpEntry where
  ip : Nat
  mac : Nat
  age : Nat
  deriving DecidableEq, Repr, Inhabited

/-- A destination being resolved: the address, the requests sent, and the tick of the last one. -/
structure ArpWait where
  ip : Nat
  tries : Nat
  at_ : Nat
  deriving DecidableEq, Repr, Inhabited

/-- A frame a port has sent. -/
inductive WireFrame where
  | datagram (stream : Nat) (bytes : List Byte)
  | arpRequest (ip : Nat)
  | arpReply (ip mac : Nat)
  | icmpReply (ip : Nat) (data : List Byte)
  | ptp (dom kind seq : Nat) (origin : Nat)
  deriving DecidableEq, Repr, Inhabited

/-- An Ethernet port (R476 to R478). -/
structure Port where
  link : Bool := false
  blockLock : Bool := false
  fecLock : Bool := false
  arp : List ArpEntry := []
  resolving : List ArpWait := []
  /-- Transmission is halted by a PAUSE frame (R477). -/
  paused : Bool := false
  /-- PTP frames that wait while transmission is halted, oldest first. -/
  ptpQ : List WireFrame := []
  /-- ICMP echoes answered in the present second, and that second's start. -/
  icmp : Nat := 0
  icmpFrom : Nat := 0
  deriving DecidableEq, Repr, Inhabited

/-- A result stream (R479, R480): the records waiting, the tick of the first of them, the counts of its next header. -/
structure DstStream where
  buf : List (List Byte) := []
  first : Nat := 0
  seq : Nat := 0
  lost : Nat := 0
  deriving DecidableEq, Repr, Inhabited

structure TimeNet where
  local_ : Clock := {}
  dom : List Dom := [{}, {}]
  slewing : Bool := false
  /-- The primary in force is DOM1. -/
  primary : Bool := false
  tpo : List Tpo := List.replicate 8 {}
  tcap : List Tcap := List.replicate 4 {}
  port : List Port := List.replicate 4 {}
  dst : List DstStream := List.replicate 4 {}
  /-- Per-type sequence numbers of the record types 1 to 7 (R481). -/
  tseq : List Nat := List.replicate 8 0
  /-- Frames sent, newest first, each with its port: the output of the Ethernet ports. -/
  wire : List (Nat × WireFrame) := []
  lastHb : Nat := 0
  deriving DecidableEq, Repr, Inhabited

/-! ### Acquisition (R72 to R104) -/

/-- States of a connection group (R103). -/
inductive GrpState where
  | off
  | discovering
  | up
  | down
  | failed
  deriving DecidableEq, Repr, Inhabited

/-- The stamp of a line (R57): fine position, LOCAL time in 2⁻³² ns, phase, flags of R44 (SP_DOUBT, FAILOVER, SINGLE,
DEAD_RECKONED, bit 0 to bit 3), and the tick it was issued. -/
structure Stamp where
  pos : Int
  time : Nat
  phase : Nat
  flags : Nat
  issued : Nat
  deriving DecidableEq, Repr, Inhabited

/-- A corrected line held for interpolation (R89): its stamp, its 8-bit pixels and which of them saturated. -/
structure CamLine where
  stamp : Stamp
  pix : List Nat
  sat : List Bool
  deriving DecidableEq, Repr, Inhabited

/-- What one camera pixel gives a grid row (R89): the pixel, its value in 2⁻¹⁶, X and W of its map entry at that time, and
whether it saturated. -/
structure PixVal where
  i : Nat
  v : Nat
  x : Int
  w : Nat
  sat : Bool
  deriving DecidableEq, Repr, Inhabited

/-- The line buffer of a group (R82): the payload of the line that is assembled, its CRC-32C, and the bits an injection has
flipped in it. -/
structure LineBuf where
  bytes : List Byte := []
  crc : Nat := 0
  flips : Nat := 0
  deriving DecidableEq, Repr, Inhabited

/-- One group's contribution to a row (R89, R90). -/
structure Contrib where
  ch : Nat
  row : Int
  grp : Nat
  cells : List PixVal
  stamp : Stamp
  deriving DecidableEq, Repr, Inhabited

/-- A connection group (R72 to R83). -/
structure Grp where
  st : GrpState := .off
  speed : Nat := 0
  lanes : Nat := 0
  /-- PCXg_EN as driven, PCXg_FLT_N asserted, the latched power fault (R77). -/
  pcxEn : Bool := false
  flt : Bool := false
  pwrFault : Bool := false
  /-- PWR_EN has been written 0 since the fault (R77). -/
  pwrRearm : Bool := false
  stamps : List Stamp := []
  /-- The expected source tag (R81), lines left in the present image, and whether its lines are CORRUPT. -/
  expTag : Option Nat := none
  left : Nat := 0
  badImg : Bool := false
  dropImg : Bool := false
  /-- The last line of each channel (R89), and how far each channel has been passed (the first row not yet passed). -/
  last : List (Nat × CamLine) := []
  passed : List (Nat × Int) := []
  /-- Tick at which discovery began, and at which the group went DOWN. -/
  since : Nat := 0
  /-- The discovery is one of R78, which comes again every 1 s. -/
  retry : Bool := false
  /-- Tag of the CXP register transaction waiting for its acknowledgement, and the tag of the next one. -/
  ctrl : Option Nat := none
  ctrlTag : Nat := 0
  buf : LineBuf := {}
  deriving DecidableEq, Repr, Inhabited

/-- A tile in formation (R92, R95). -/
structure TileAcc where
  ch : Nat
  col : Nat
  band : Int
  rows : Nat := 0
  rowMask : Nat := 0
  /-- Columns in which some cell held data. -/
  colData : Nat := 0
  sat : Nat := 0
  absent : Nat := 0
  flags : Nat := 0
  tFirst : Nat := 0
  tLast : Nat := 0
  done : Bool := false
  deriving DecidableEq, Repr, Inhabited

/-- The latest value of a source (R98, R99): measurement time in LOCAL (2⁻³² ns), material position in µm, values and the
cross-strip origin and pitch of a PROFILE. -/
structure SrcVal where
  time : Int
  y : Int
  vals : List Word
  x0 : Int
  pitch : Nat
  deriving DecidableEq, Repr, Inhabited

/-- A sensor source (R97 to R101). -/
structure Src where
  val : Option SrcVal := none
  stale : Bool := false
  lateSeen : Bool := false
  /-- NONE at the last fusion instant (R100). -/
  none_ : Bool := false
  seq : Option Nat := none
  deriving DecidableEq, Repr, Inhabited

/-- A trigger sent on a group's uplink (R57, R75): its phase number, whether it went on the high-speed uplink, and the delay
field of its packet, which the standard defines and the spec does not state (log entry 80). -/
structure TrigSent where
  grp : Nat
  ph : Nat
  high : Bool
  delay : Word
  deriving DecidableEq, Repr, Inhabited

structure Acq where
  running : Bool := false
  /-- Fusion did not start, or capture did not (R88, R101). -/
  fusionOff : Bool := false
  captureOff : Bool := false
  grp : List Grp := List.replicate 8 {}
  src : List Src := List.replicate 64 {}
  contribs : List Contrib := []
  tiles : List TileAcc := []
  /-- The next row to form of each channel, and the last band released of each column. -/
  nextRow : List (Nat × Int) := []
  /-- The row behind the last one formed of each channel, which tells what the rings hold (R94). -/
  formed : List (Nat × Int) := []
  /-- The first band of which a line has been asked for since capture started. -/
  bandLo : Option Int := none
  relBand : List (Nat × Int) := []
  lastBand : Int := 0
  /-- Lines held by TEST_LINE_DELAY, records held by TEST_SENSOR_DELAY (R583), oldest first. -/
  heldLines : List (Nat × Bool × List Byte × Nat) := []
  heldRecs : List (Nat × SrcVal × Bool × Nat) := []
  /-- Lines absent under R83, counted for each channel and band. -/
  absent : List (Nat × Int × Nat) := []
  /-- Bands from which a map swap took effect. -/
  swapBand : List Int := []
  /-- The last fusion instant: T_LAST of its band's latest channel (2⁻³² ns) and the sources that had LATE_SEEN. -/
  instTime : Nat := 0
  instLate : List Nat := []
  /-- Along-strip position of the last stamp issued, for each group and channel (key 4 × group + channel). -/
  issued : List (Nat × Int) := []
  /-- The latest 64 triggers sent on the uplinks, newest first. -/
  trigSent : List TrigSent := []
  deriving DecidableEq, Repr, Inhabited

/-! ### Streams (R211 to R243), KV pages and adaptation (R244 to R280). The entries of the stream table, the sequence table,
the page descriptors and the page table stand in the Lintel store, at the places of R281. -/

/-- The chunk a task carries (R221): its context, the SP of its first step, past its last step and of its last step, and its
steps. -/
structure ChunkInfo where
  ctx : Nat
  sp0 : Int
  sp1 : Int
  last : Int
  steps : Nat
  /-- Its descriptor sets RESET_IN, for a step it has. -/
  resetIn : Bool := false
  /-- Its descriptor sets MARK_RESET. -/
  markReset : Bool := false
  deriving DecidableEq, Repr, Inhabited

/-- A chunk queued for a context (R221, R222): the task that carries it. -/
structure Chunk where
  graph : Nat
  task : Nat
  info : ChunkInfo
  deriving DecidableEq, Repr, Inhabited

/-- A pending swap-in (R217): its context, and the compute cycle it was requested at. -/
structure SwapReq where
  ctx : Nat
  at_ : Nat
  prio1 : Bool
  /-- Its wait at priority 1 has been reported (R217). -/
  waited : Bool := false
  deriving DecidableEq, Repr, Inhabited

/-- A posted position mark (R227): its SP and a number that tells marks apart. -/
structure MarkPost where
  sp : Int
  id : Nat
  deriving DecidableEq, Repr, Inhabited

/-- The stream unit of one die pair. -/
structure Stream where
  /-- Queued chunks of each context with any, oldest first. -/
  queue : List (Nat × List Chunk) := []
  /-- Context held by each slot of the pool in use. -/
  slots : List (Nat × Nat) := []
  reserve : Nat := 0
  /-- Slot being restored as the reserve, by the eviction of this context. -/
  restoring : Option Nat := none
  /-- Contexts being evicted for a priority 2 request, with the context that takes the slot (R217). -/
  claims : List (Nat × Nat) := []
  /-- Swap-ins in service: context and slot. -/
  inflight : List (Nat × Nat) := []
  reqs : List SwapReq := []
  /-- The 48-bit chunk counter (R212). -/
  chunkCtr : Nat := 0
  marks : List MarkPost := []
  markId : Nat := 0
  /-- The posted marks applied: context and mark number (R227). -/
  applied : List (Nat × Nat) := []
  /-- Greatest SP of a lost step of each context (R224, R229). -/
  lostSp : List (Nat × Int) := []
  /-- RESET_IN points that fell in lost steps, of each context (R224). -/
  lostIn : List (Nat × Nat) := []
  deriving DecidableEq, Repr, Inhabited

/-- The KV page manager of one die pair: the head of the free list, and the posted marks applied: sequence and mark number. -/
structure Kv where
  freeHead : Nat := 0x7FFFF
  /-- PAGES of the pool that the free list was formed for. -/
  pool : Option Nat := none
  applied : List (Nat × Nat) := []
  deriving DecidableEq, Repr, Inhabited

/-- An adaptation group (R270, R271): its parameters and its sample count. Its masters, momentum and gradient buffer stand in the home
pair's Lintel store. -/
structure AdaptGroup where
  id : Nat
  /-- 0 WEIGHTS, 1 SCALES. -/
  scales : Bool
  lr : Word
  beta : Word
  wd : Word
  clip : Word
  /-- Values at model load, one word for each element. -/
  load : List Word
  n : Nat := 0
  /-- Code range of a SCALES group and its tensor records, and the record a WEIGHTS group is quantised by. -/
  qmin : Int := -128
  qmax : Int := 127
  recs : List Nat := []
  rec_ : Nat := 0
  deriving DecidableEq, Repr, Inhabited

/-- A scale a rescale is derived from: a constant, or the record at an index of a SCALES group. -/
inductive ScaleSrc where
  | fixed (w : Word)
  | learned (group idx : Nat)
  deriving DecidableEq, Repr, Inhabited

/-- A rescale that depends on learned records (R165): the scales of its operands and of its output. -/
structure RescaleDep where
  a : ScaleSrc
  b : ScaleSrc
  out : ScaleSrc
  deriving DecidableEq, Repr, Inhabited

/-- The values a model epoch gives the learned parameters: for each group S and Z of each record, or the codes of its weights;
the escapes of weights as (group, element, value); M and s of the rescales that depend on them. -/
structure EpochVals where
  groups : List (Nat × List Word) := []
  escs : List (Nat × Nat × Word) := []
  rescales : List (Nat × Nat) := []
  deriving DecidableEq, Repr, Inhabited

structure Adapt where
  groups : List AdaptGroup := []
  /-- Lintel offset of the masters in the home pair (R271): 12 bytes for each element, group after group. -/
  base : Nat := 0
  deps : List RescaleDep := []
  current : EpochVals := {}
  previous : EpochVals := {}
  staged : Option EpochVals := none
  /-- A commit in progress, and whether an ADAPT_STEP changed the masters since the last commit. -/
  committing : Bool := false
  changed : Bool := false
  /-- Where the staged epoch's values go (R145): die, Lintel offset and bytes. -/
  places : List (Nat × Nat × List Byte) := []
  /-- What the values of earlier epochs were, for the tasks that began with them (R145): the number of the epoch, and its bytes
  by the key of the first. -/
  olds : List (Nat × List (Nat × List Byte)) := []
  deriving DecidableEq, Repr, Inhabited

/-! ### Memory tiers (R281 to R315) -/

inductive QchState where
  | off
  | training
  | up
  | excluded
  | absent
  deriving DecidableEq, Repr, Inhabited

/-- Queues of a Quarry channel (R295). -/
inductive QQueue where
  | plan
  | client
  | background
  deriving DecidableEq, Repr, Inhabited

/-- A burst of a Quarry channel (R294): the data byte address of its first granule in the channel's store, its granules,
and the die and slot of the task that waits for it, if any. -/
structure Burst where
  at_ : Nat
  granules : Nat
  write : Bool
  who : Option (Nat × Nat) := none
  /-- The KV page of the task's die pair that it reads: an uncorrectable word faults the page, not the task (R267). -/
  kv : Option Nat := none
  deriving DecidableEq, Repr, Inhabited

/-- A Quarry channel. -/
structure Qch where
  st : QchState := .off
  cause : Nat := 0
  tap : Nat := 0
  dense : Bool := false
  plan : List Burst := []
  client : List Burst := []
  background : List Burst := []
  /-- PLAN bursts served while a CLIENT burst waited, and bursts served since BACKGROUND had its share. -/
  planRun : Nat := 0
  bgCredit : Nat := 0
  /-- Ticks of the uncorrectable reads of the last second. -/
  ues : List Nat := []
  deriving DecidableEq, Repr, Inhabited

/-- A page move in progress (R306): the page, the entry of its target frame, its kind (0 to another frame of its tier or
home, 1 a promotion, 2 a demotion), whether a write to the page has started, and whether its old frame is withdrawn after
it (R590). -/
structure Move where
  page : Nat
  target : Nat
  kind : Nat
  written : Bool := false
  withdraw : Bool := false
  /-- The page to be promoted onto the frame that a demotion frees (R305). -/
  next : Option Nat := none
  deriving DecidableEq, Repr, Inhabited

/-- A row's wear (R589, R590): the key of its first byte, and the ticks of its corrected errors of the last 24 h. -/
structure RowWear where
  row : Nat
  ticks : List Nat
  deriving DecidableEq, Repr, Inhabited

structure MemTier where
  qch : List Qch := List.replicate 16 {}
  /-- Per die: channel last used for a frame (R304). -/
  lastCh : List Nat := [3, 3, 3, 3]
  moves : List Move := []
  /-- Withdrawn Lintel frames, as die × 4,096 + frame (R289). -/
  withdrawn : List Nat := []
  /-- Marking of pages after an exclusion is outstanding (R299): the pages that became LOST. -/
  lostMark : List Nat := []
  remapWait : Bool := false
  /-- Scrub position of each Lintel die (R288) and of Quarry (R300). -/
  scrub : List Nat := [0, 0, 0, 0]
  qscrub : Nat := 0
  /-- Spare rows in use: per die and bank (key die × 64 + bank), and per core-store macro; rows remapped or WORN. -/
  spareUsed : List (Nat × Nat) := []
  wear : List RowWear := []
  worn : List Nat := []
  /-- Flipped bits of stored words, key of the 64-bit word (its first byte's memory key) to the flip mask of its 72 bits. -/
  flips : List (Nat × Nat) := []
  deriving DecidableEq, Repr, Inhabited

/-! ### Tasks, graphs and the Bond plan (R105 to R150, R316 to R357) -/

/-- Why a physical core is FAILED (R148). -/
inductive CoreCause where
  | none
  | bist
  | selfTest
  | ecc
  | hung
  | retire
  deriving DecidableEq, Repr, Inhabited

/-- What a physical core is (R148); IDLE and BUSY are told apart by the task its slot runs. -/
inductive CoreRole where
  | off
  | inSlot (slot : Nat)
  | spare
  | failed (cause : CoreCause)
  deriving DecidableEq, Repr, Inhabited

/-- A slot's binding (R106, R139). -/
structure Slot where
  core : Nat
  vacant : Bool := false
  /-- The spare being mapped in. -/
  spareIn : Option Nat := none
  deriving DecidableEq, Repr, Inhabited

/-- States of a die pair (R148). -/
inductive DieState where
  | off
  | bist
  | ready
  | running
  | restarting
  | failed
  deriving DecidableEq, Repr, Inhabited

/-- A completed accumulator block waiting in the drain queue (R112 to R115): the descriptor it belongs to, its place in the
output, the raw sums, the row and column sums, K, and the escapes of its K range as (row?, column?, d or factor pairs). -/
structure DrainBlk where
  desc : Nat
  /-- The array whose bank holds the block. -/
  array : Nat
  /-- Output elements as (element index, raw sum, ΣA, ΣB). -/
  elems : List (Nat × Int × Int × Int)
  /-- FP32 accumulators, for a BF16 pass: (element index, value). -/
  felems : List (Nat × Word)
  k : Nat
  /-- Escapes of an element, in increasing order: (element index, side value or its factor, other operand's code less its
  zero point, the escape lies in A). -/
  escs : List (Nat × Word × Int × Bool)
  deriving DecidableEq, Repr, Inhabited

/-- Outcomes of a task (R321). -/
inductive TaskOut where
  | ok
  | okEmpty
  | progErr
  | opDescErr
  | arithDescErr
  | coreFault
  | memFault
  | memUnmapped
  | memLost
  | streamOrder
  | streamQfull
  | streamOff
  | kvNospace
  | kvOrder
  | kvCapacity
  | kvStaleStats
  | kvOff
  | adaptOff
  | shed
  | lost
  deriving DecidableEq, Repr, Inhabited

/-- What an attention task sees of its sequence (R258, R261): the descriptor, the sequence, GEN and LEN at dispatch, and the key
and value pages of its key range, each with its index in the page list. -/
structure KvSnap where
  at_ : Nat
  seq : Nat
  gen : Nat
  len : Nat
  /-- OPEN, DIM and Q4 of the sequence. -/
  isOpen : Bool
  dim : Nat
  q4 : Bool
  keys : List (Nat × Nat)
  vals : List (Nat × Nat)
  deriving DecidableEq, Repr, Inhabited

/-- An ATTN that the graph engine has expanded into partial tasks (R268): its descriptor, the partials not yet dispatched and those
running, and those that have completed, in the order they did. -/
structure SplitAttn where
  at_ : Nat
  waiting : List Nat
  running : List Nat := []
  order : List Nat := []
  deriving DecidableEq, Repr, Inhabited

/-- A tile-mover chain a task has started (R308, R311): its next descriptor, the descriptors it may still hold, the compute
cycle it started at, and whether the next descriptor's lateness has been reported. -/
structure ChainRun where
  next : Nat
  left : Nat
  start : Nat
  late : Bool := false
  deriving DecidableEq, Repr, Inhabited

/-- The task a slot runs (R126, R316, R318): where it comes from, its program and its sequencer. -/
structure RunTask where
  graph : Nat
  task : Nat
  inst : Nat
  /-- FABRIC_CYCLE at dispatch, and the variant and epoch in force then. -/
  start : Nat
  variant : Nat
  epoch : Nat
  progAddr : Nat
  progLen : Nat
  recAddr : Nat
  nrec : Nat
  rclass : RClass
  wcet : Nat
  compAddr : Nat
  pc : Nat := 0
  loops : List Word := [0#32, 0#32, 0#32, 0#32]
  icount : Nat := 0
  cnt : ArithCnt := {}
  emptyRow : Nat := 0
  /-- SHARD_MISSING and TIER_SUBST of the completion record. -/
  shardMiss : Bool := false
  tierSubst : Bool := false
  /-- The outcome, once the task has one; it completes when its work has drained. -/
  out : Option TaskOut := none
  chains : List (Option ChainRun) := [none, none, none, none]
  /-- KV pages the task has pinned (R258), and its chunk (R221). -/
  pins : List Nat := []
  kvs : List KvSnap := []
  chunk : Option ChunkInfo := none
  /-- Descriptors of operators issued and not yet run, oldest first; the task has done work that is not empty. -/
  issued : List Nat := []
  work : Bool := false
  /-- The stream operator seen (R221), the state bytes to write back, where BIND put its copy, the
  chunk counter at the start, and the number of late marks and the marks the chunk takes. -/
  streamAt : Option Nat := none
  carry : Option (List Byte) := none
  bindAt : Option Nat := none
  stamp : Nat := 0
  resets : Option (Nat × List Nat) := none
  /-- ATTN operators expanded into partial tasks that have not been merged (R268). -/
  splits : List SplitAttn := []
  /-- The run is a partial task: the slot and the descriptor of its ATTN, and its number. -/
  part : Option (Nat × Nat × Nat) := none
  /-- Least occupancy: the dispatch overhead, with the copy of a long image (R127, R317). -/
  minCyc : Nat := 256
  /-- FABRIC_CYCLE of the last pass step, drain or store (R128). -/
  progress : Nat := 0
  /-- 32-byte words of the core store that its chains have written with no barrier since (R186): the chain, the address of the word,
  and what it held before. -/
  racing : List (Nat × Nat × List Byte) := []
  /-- RESET_PENDING of its context at dispatch (R226). -/
  resetAt : Bool := false
  deriving DecidableEq, Repr, Inhabited

/-- A CONV in progress: its descriptor, the arrays it runs on, its next output block (R191), the compute cycle it was issued at and
the cycles a block takes. -/
structure ConvPass where
  desc : Nat
  arrays : Nat
  next : Nat
  start : Nat
  cyc : Nat
  deriving DecidableEq, Repr, Inhabited

/-- A physical core: its role, its repair flag, its vector registers (32 of 64 lanes, key 64 × register + lane, unlisted
0), its drain queue, and the addresses of its uncorrectable errors of the last second. -/
structure CoreS where
  role : CoreRole := .off
  repaired : Bool := false
  vreg : List (Nat × Word) := []
  /-- Exact values of the escape codes that lanes of the vector registers hold (R171), by the key of `vreg`. -/
  vside : List (Nat × Word) := []
  drainQ : List DrainBlk := []
  /-- CONVs whose blocks have not all been accumulated, oldest first (R112). -/
  conv : List ConvPass := []
  /-- The matrix-vector unit's 4 KiB vector buffer (R120), unlisted 0. -/
  mvBuf : List (Nat × Byte) := []
  ue : List (Nat × Nat) := []
  /-- The resident regions must be reloaded before the next dispatch (R125). -/
  reload : Bool := false
  /-- RETIRE_CORE waits for the task on the core to complete (R21, R142). -/
  retire : Bool := false
  /-- The variant whose resident regions the core holds (R144). -/
  resVar : Nat := 0
  deriving DecidableEq, Repr, Inhabited

/-- A compute die with its graph engine. -/
structure Die where
  st : DieState := .off
  core : List CoreS := List.replicate 52 {}
  slot : List Slot := (List.range 24).map (fun i => { core := i }) ++ (List.range 24).map (fun i => { core := i + 26 })
  run : List (Option RunTask) := List.replicate 48 none
  /-- A die-pair restart was begun by R143: fewer than 24 slots. -/
  short : Bool := false
  deriving DecidableEq, Repr, Inhabited

/-- A task entry of a graph (R322). -/
structure TaskEntry where
  header : Nat
  slot : Nat
  repeatMax : Nat
  repeatBudget : Nat
  countAddr : Nat
  succ : List Nat
  /-- Tile sets that follow in its column and that it depends on (R237). -/
  look : Nat := 0
  /-- Predecessors in other die pairs (R136): die pair, template, task. -/
  cross : List (Nat × Nat × Nat) := []
  deriving DecidableEq, Repr, Inhabited

/-- Progress of a task of a released graph (R324). -/
inductive TaskSt where
  | waiting
  | ready
  | done
  deriving DecidableEq, Repr, Inhabited

structure TaskInst where
  entry : TaskEntry
  st : TaskSt := .waiting
  preds : Nat := 0
  /-- Instances to run, dispatched so far, and completed. -/
  total : Nat := 1
  issued : Nat := 0
  done : Nat := 0
  /-- Order in which it became ready. -/
  readyAt : Nat := 0
  /-- Bands of later tile sets not yet released (R237), and shards of other die pairs not yet delivered (R136). -/
  look : List Int := []
  cross : List (Nat × Nat × Nat) := []
  /-- A shard it depends on is not delivered (R146). -/
  shardMiss : Bool := false
  /-- Bond frame of the last release it depends on. -/
  since : Int := 0
  deriving DecidableEq, Repr, Inhabited

/-- Rank of a graph's work in the order of dispatch (R325). -/
inductive GraphKind where
  | keystone
  | path
  | background
  | client
  deriving DecidableEq, Repr, Inhabited

/-- A graph in flight. -/
structure GraphInst where
  id : Nat
  die : Nat
  client : Nat
  kind : GraphKind
  stage : Nat
  relSp : Int
  /-- Frame in which it was released, and the tile set it serves: column and band. -/
  frame : Int
  tile : Option (Nat × Int)
  roleSlot : List Nat
  /-- LOCAL tick of release, for the stage watch. -/
  released : Nat
  tasks : List TaskInst
  okCnt : Nat := 0
  otherCnt : Nat := 0
  /-- Index of its template, and the variant it was released in (R340). -/
  tpl : Nat := 0xFFFF
  variant : Nat := 0
  deriving DecidableEq, Repr, Inhabited

/-- States of the plan (R339). -/
inductive PlanState where
  | empty
  | loaded
  | admitted
  | running
  | stopping
  deriving DecidableEq, Repr, Inhabited

/-- A template (R330). -/
structure Template where
  tileset : Bool
  period : Nat
  phase : Nat
  stage : Nat
  path : Bool
  graph : List TaskEntry
  deriving DecidableEq, Repr, Inhabited

/-- A mapping entry (R331). -/
structure MapEntry where
  template : Nat
  roleSlot : List Nat
  deriving DecidableEq, Repr, Inhabited

/-- What a variant gives one die pair (R328, R332). -/
structure VarDie where
  slotUse : Nat
  clientMask : Nat
  succ : List Nat
  map : List MapEntry
  frames : List MapEntry
  deriving DecidableEq, Repr, Inhabited

/-- A resident core-store region (R125, R139). -/
structure Resident where
  die : Nat
  slot : Nat
  variant : Nat
  src : Nat
  dst : Nat
  len : Nat
  deriving DecidableEq, Repr, Inhabited

/-- A stream context, a KV sequence or a page run that the plan opens (R214, R246, R303). -/
structure PlanCtx where
  ctx : Nat
  stateAddr : Nat
  initAddr : Nat
  size : Nat
  markReset : Bool
  tag : Nat
  pinned : Bool
  deriving DecidableEq, Repr, Inhabited

structure PlanSeq where
  seq : Nat
  heads : Nat
  dim : Nat
  q4 : Bool
  markReset : Bool
  sp0 : Int
  pitch : Nat
  listAddr : Nat
  maxPages : Nat
  deriving DecidableEq, Repr, Inhabited

structure PlanPages where
  first : Nat
  count : Nat
  pin : Nat
  deriving DecidableEq, Repr, Inhabited

/-- An adaptation group of a model (R270, R271). -/
structure AdaptDef where
  id : Nat
  kind : Nat
  count : Nat
  init : List Word
  deriving DecidableEq, Repr, Inhabited

/-- A parsed plan image (R328). -/
structure Plan where
  freq : Nat
  frameBands : Nat
  minSpeed : Nat
  stageWin : List Nat
  planGraphs : List Nat
  planTasks : List Nat
  ctxs : List PlanCtx
  seqs : List PlanSeq
  pages : List PlanPages
  resident : List Resident
  models : List (List Byte)
  templates : List Template
  keystone : List TaskEntry
  /-- Lintel offset of the Keystone result in its pair, the expected boxes and the tolerance bands (R447). -/
  ksResult : Nat
  ksExpect : List (List Byte)
  ksBands : List Word
  variants : List (List VarDie)
  /-- The plan carries an owner signature trailer (R519). -/
  trailer : List Byte
  /-- Tensor and rescale records of the image, checked at load (R159). -/
  recs : List Nat
  deriving DecidableEq, Repr, Inhabited

/-- A coverage interval (R352). Positions in µm. -/
structure Cov where
  spStart : Int
  spEnd : Int
  x0 : Int
  x1 : Int
  chans : Nat
  cause : Nat
  flags : Nat
  deriving DecidableEq, Repr, Inhabited

/-- An account of one client and die (R351). -/
structure Account where
  cycles : Nat := 0
  lintel : Nat := 0
  quarry : Nat := 0
  bridge : Nat := 0
  uj : Nat := 0
  sat : Nat := 0
  nan : Nat := 0
  escOvf : Nat := 0
  emptyRow : Nat := 0
  /-- Core-cycles of the present 1 ms interval of the meters. -/
  msCycles : Nat := 0
  deriving DecidableEq, Repr, Inhabited

/-- Why a plan was refused, or a variant's limit (R356). -/
inductive AdmitReason where
  | none
  | format
  | wcetMismatch
  | resources
  | coreStore
  | latency
  | belowMin
  | budget
  | signature
  deriving DecidableEq, Repr, Inhabited

/-- The outcome of an admission (R336, R337): vp and binding code of each variant. -/
structure Admission where
  vp : List Nat := [0, 0, 0, 0]
  bind : List Nat := [0, 0, 0, 0]
  reason : AdmitReason := .none
  /-- The variants with their mappings as moved by re-admission. -/
  variants : List (List VarDie) := []
  deriving DecidableEq, Repr, Inhabited

structure Bond where
  st : PlanState := .empty
  plan : Option Plan := none
  image : List Byte := []
  digest : List Byte := []
  adm : Admission := {}
  /-- A PLAN_START waits for the next frame boundary (R339). -/
  startPending : Bool := false
  variant : Nat := 0
  hold : Nat := 0
  /-- A chain reported SIGNAL lateness in this frame (R341). -/
  signalLate : Bool := false
  overspeed : Bool := false
  /-- A re-admission in progress, and its figures once it is done, until the frame boundary (R347). -/
  readmitting : Bool := false
  /-- A further trigger arrived while it ran (R593). -/
  readmitAgain : Bool := false
  readmitted : Option Admission := none
  /-- The current Bond frame, and whether a boundary has begun it. -/
  frame : Int := -1
  framed : Bool := false
  nextGraph : Nat := 1
  graphs : List GraphInst := []
  /-- First band released after PLAN_START (R339), and the pairs resuming after a restart (R346). -/
  fromBand : Int := 0
  resume : List (Nat × Nat) := []
  /-- Pairs that have resumed: the first band of the frame they resumed at, and the cause of R353 before it. -/
  resumed : List (Nat × Int × Nat) := []
  covs : List Cov := []
  /-- Intervals still open: the VACANT and failed columns are written as they occur; a lost position is in Course. -/
  accounts : List (Nat × Account) := []
  used : List (Nat × Nat) := []
  debt : List (Nat × Nat) := []
  lastServed : Nat := 14
  periodStart : Nat := 0
  readyCnt : Nat := 0
  /-- The result of the last Keystone run of a frame waits for the comparison: die pair and graph. -/
  ksPending : Option (Nat × Nat) := none
  /-- Graphs that have completed: number, client, and the counts GRAPH_WAIT answers with. -/
  finished : List (Nat × Nat × Nat × Nat) := []
  /-- Model epochs: staged for the next boundary (R145). -/
  epoch : Nat := 0
  epochStaged : Bool := false
  deriving DecidableEq, Repr, Inhabited

/-! ### Servo axes, controllers and carriages (R358 to R426) -/

inductive AxState where
  | off
  | disabled
  | enabled
  | fault
  | notHomed
  deriving DecidableEq, Repr, Inhabited

/-- The instructions of a control-law program (R367), decoded at load: opcode 0 to 13 and the fields d, a, b, c. -/
structure LawInstr where
  op : Nat
  d : Nat
  a : Nat
  b : Nat
  c : Nat
  deriving DecidableEq, Repr, Inhabited

/-- A value offered to Plumb and waiting for its application instant (R362): the value, whether Plumb has passed it, and
whether the clamp of R367 took part. -/
structure AxCmd where
  val : Word
  passed : Bool
  clamped : Bool := false
  deriving DecidableEq, Repr, Inhabited

/-- How the set-point of an axis is re-anchored at its next sample (R364). -/
inductive Anchor where
  | none
  | enable
  | gear
  | resync
  deriving DecidableEq, Repr, Inhabited

/-- A servo axis (R358 to R374). -/
structure Axis where
  st : AxState := .off
  /-- 0 none, 1 FEEDBACK, 2 FE, 3 MODEL (R389). -/
  cause : Nat := 0
  /-- Position, and the positions of the present and of the last sample. -/
  pos : Int := 0
  posK : Int := 0
  posP : Int := 0
  homed : Bool := false
  resyncNeeded : Bool := false
  /-- Feedback decoder: filtered levels, LOS, tick of the last counted edge. -/
  a : Bool := false
  b : Bool := false
  los : Bool := false
  /-- Tick of the last change of each channel that the glitch filter accepted. -/
  aAt : Option Nat := none
  bAt : Option Nat := none
  last : Option Nat := none
  /-- SSI: last reading, consecutive frame faults, a frame in progress. -/
  ssi : Option Nat := none
  fbFaults : Nat := 0
  frame : Bool := false
  /-- A sample has been latched and its control law has not run; the set-point input latched with it. -/
  samp : Bool := false
  inK : Int := 0
  /-- Set-point state (R363, R364): ref of the last sample, in₀, OFFSET, V_REF, and V_MEAS of the last two samples. -/
  ref : Int := 0
  in0 : Int := 0
  offset : Int := 0
  anchor : Anchor := .none
  vref : Word := 0#32
  vmeas : Word := 0#32
  vmeasP : Word := 0#32
  /-- The next sample is the first after ENABLE or HOME: no position of a last sample. -/
  first : Bool := true
  /-- AUTO_RESUME takes effect at the next sample instant (R360). -/
  resume : Bool := false
  /-- The encoder of the source is FAULTED (R365). -/
  srcFault : Bool := false
  /-- Ramped set-point of an MPC source: from, to, base tick of the start and length in base ticks (0: none yet). -/
  mpcFrom : Word := 0#32
  mpcTo : Word := 0#32
  mpcAt : Nat := 0
  mpcLen : Nat := 0
  feCnt : Nat := 0
  prog : List LawInstr := []
  consts : List Word := []
  inits : List Word := []
  /-- f0 to f63. -/
  f : List Word := List.replicate 64 0#32
  /-- The instruction at which the run of the present sample stands. -/
  lawPc : Nat := 0
  cmd : Option AxCmd := none
  /-- Command in force, command applied over the last period (f5), whether the one in force was clamped (f7). -/
  out : Word := 0#32
  uPrev : Word := 0#32
  clamped : Bool := false
  /-- STEP mode: steps of the present period, and the fraction carried in units of 2⁻¹⁴⁹ ÷ 16,000 steps. -/
  steps : Int := 0
  stepFrac : Int := 0
  /-- Tick a fault ramp began at, with its start value. -/
  rampAt : Option Nat := none
  rampFrom : Word := 0#32
  deriving DecidableEq, Repr, Inhabited

/-- An axis group's plausibility check (R376). -/
structure AxGroup where
  j : Word := 0#32
  beyond : Nat := 0
  implausible : Bool := false
  deriving DecidableEq, Repr, Inhabited

/-- A compressed-row matrix: for each row its (column, value) pairs. -/
abbrev SparseRows := List (List (Nat × Word))

/-- A θ entry (R381). -/
structure ThetaEntry where
  kind : Nat
  fresh : Bool
  index : Nat
  scale : Word
  deriving DecidableEq, Repr, Inhabited

/-- An output entry (R382). -/
structure OutEntry where
  z : Nat
  target : Nat
  tindex : Nat
  scale : Word
  offset : Word
  min : Word
  max : Word
  fallback : Word
  deriving DecidableEq, Repr, Inhabited

/-- A QP problem image, parsed (R378, R379), with the factors formed at load. -/
structure QpProb where
  nv : Nat
  nc : Nat
  nu : Nat
  n : Nat
  h : SparseRows
  a : SparseRows
  fMat : SparseRows
  lMat : SparseRows
  uMat : SparseRows
  f0 : List Word
  l0 : List Word
  u0 : List Word
  theta : List ThetaEntry
  outs : List OutEntry
  lFac : List (List Word)
  dFac : List Word
  sig : Word
  deriving DecidableEq, Repr, Inhabited

inductive QpState where
  | off
  | waiting
  | solving
  | failed
  deriving DecidableEq, Repr, Inhabited

/-- A model-predictive controller (R378 to R387). -/
structure QpCtl where
  st : QpState := .off
  prob : Option QpProb := none
  staged : Option QpProb := none
  outcome : Nat := 6
  fallbacks : Nat := 0
  /-- Flags of the last cycle: NO_PREVIOUS bit 0, SHIFTED, REFINE_SHORT, WARM_REJECTED, PIVOT_REGULARISED bit 4. -/
  flags : Nat := 0
  w : List (Nat × Bool) := []
  warm : Option (Word × List (Nat × Bool)) := none
  /-- The last staged z with its SIG, and the outputs to apply at the next cycle start. -/
  z : Option (Word × List Word) := none
  outs : Option (List Word) := none
  applied : List Word := []
  theta : List Word := []
  /-- Tick of the last cycle start, and SP then. -/
  begun : Option Nat := none
  startSp : Int := 0
  deriving DecidableEq, Repr, Inhabited


/-- One phase of an axis profile (R407): duration in ticks of 2 ns and jerk in 2⁻¹⁶ µm/s³. -/
structure JerkPhase where
  ticks : Nat
  jerk : Int
  deriving DecidableEq, Repr, Inhabited

/-- A role's motion: start position, speed and acceleration in 2⁻¹⁶ µm, its profile and its target. -/
structure RoleMove where
  p0 : Int
  v0 : Int
  a0 : Int
  phases : List JerkPhase
  target : Int
  deriving DecidableEq, Repr, Inhabited

/-- A trajectory (R407, R408): the ticks it begins and arrives at, its primitives one after another, each with a start tick
and a move for each of the four roles, the target of each role, and the inflation of R410, positions in 2⁻¹⁶ µm. -/
structure Traj where
  start : Nat
  arrive : Nat
  prims : List (Nat × List RoleMove)
  target : List Int
  inflation : Int
  deriving DecidableEq, Repr, Inhabited

/-- A feasible candidate (R412 to R414): its trajectory, its cost J in units of 2⁻¹⁶⁵ ÷ 500 µs, and its swept box, the low and
high voxel of X, Y, Z. -/
structure Cand where
  traj : Traj
  cost : Int
  box : List (Int × Int)
  deriving DecidableEq, Repr, Inhabited

/-- A batch or recheck in progress (R406, R414): carriage, snapshot version, start, ticks it occupies the planner, t_s, and the
feasible candidates, least J first. A replan keeps its head (R420). -/
structure Batch where
  car : Nat
  version : Nat
  start : Nat
  ticks : Nat
  ts : Nat
  recheck : Bool
  cands : List Cand
  replan : Bool
  deriving DecidableEq, Repr, Inhabited

inductive CarState where
  | off
  | unavailable
  | idle
  | moving
  | braking
  deriving DecidableEq, Repr, Inhabited

/-- A carriage (R394 to R420). -/
structure Carriage where
  st : CarState := .off
  queue : List Req := []
  traj : Option Traj := none
  /-- The head has a committed trajectory. -/
  committed : Bool := false
  lastOutcome : Nat := 0
  /-- The head is to be planned again (R420). -/
  replan : Bool := false
  /-- The stage-8 watch of the last commit is open (R444). -/
  kick : Bool := false
  /-- Tick of the end of a tool pulse. -/
  toolUntil : Option Nat := none
  deriving DecidableEq, Repr, Inhabited

/-- A dirty box of a published version (R405, R406): none when nothing was loaded. -/
structure DirtyBox where
  version : Nat
  box : Option (List (Int × Int))
  deriving DecidableEq, Repr, Inhabited

structure Line where
  running : Bool := false
  /-- Tick at which base tick 0 fell, and the base ticks since. -/
  origin : Nat := 0
  base : Nat := 0
  axis : List Axis := List.replicate 16 {}
  grp : List AxGroup := List.replicate 8 {}
  /-- Last good value of each ADC channel and last code of each DAC channel. -/
  adc : List Word := List.replicate 8 0#32
  dac : List Nat := List.replicate 8 0
  /-- Values offered to the DAC channels and waiting for their application; the value last applied. -/
  dacCmd : List (Option AxCmd) := List.replicate 8 none
  dacVal : List Word := List.replicate 8 0#32
  /-- GPIO: levels at the pins, filtered levels, when a change was first seen, levels the outputs were last given, levels and
  outputs that controllers drive. -/
  gpioPin : BitVec 32 := 0#32
  gpioIn : BitVec 32 := 0#32
  gpioSeen : List (Nat × Nat) := []
  gpioOut : BitVec 32 := 0#32
  gpioQp : BitVec 32 := 0#32
  gpioQpOn : BitVec 32 := 0#32
  qp : List QpCtl := List.replicate 8 {}
  qpCfgErr : Bool := false
  car : List Carriage := List.replicate 8 {}
  batch : Option Batch := none
  version : Nat := 0
  dirty : List DirtyBox := []
  /-- Bounding box of the regions loaded since the last publish, the store that is the front, and the version whose batches
  hold the shadow. -/
  pendBox : Option (List (Int × Int)) := none
  mapFront : Nat := 0
  held : Option Nat := none
  /-- SP at the planner's last base tick (R419). -/
  spBase : Int := 0
  occT0 : Nat := 0
  occT0Shadow : Nat := 0
  /-- Host requests waiting for the next base tick (R398), REQ_IDs taken and not ended (R421). -/
  hostReqs : List Req := []
  taken : List Req := []
  /-- Requests taken since power-on. -/
  reqs : Nat := 0
  deriving DecidableEq, Repr, Inhabited

/-! ### Plumb and safety (R427 to R462) -/

inductive PlumbState where
  | starting
  | healthy
  | resync
  | safeRestart
  | lockout
  | failed
  | split
  deriving DecidableEq, Repr, Inhabited

/-- An instruction of a rule program (R439), decoded at load. -/
structure RuleInstr where
  op : Nat
  gd : Nat
  ga : Nat
  gb : Nat
  imm : Word
  deriving DecidableEq, Repr, Inhabited

/-- A rule image (R438): its programs, each with its enable flag, its constants, its version and its digest. -/
structure RuleImage where
  version : Nat
  programs : List (Bool × List RuleInstr)
  consts : List (BitVec 64)
  digest : List Byte
  deriving DecidableEq, Repr, Inhabited

/-- The verdict of a round on a target (R441). -/
structure Verdict where
  permit : Bool := false
  deny : Option Nat := none
  subst : Option Word := none
  deriving DecidableEq, Repr, Inhabited

/-- A line target (R429, R441 to R443, R454). -/
structure Target where
  /-- The value offered in the round, FP32, for a value target. -/
  offered : Option Word := none
  /-- The permit bit in force, and the one of the verdict being formed. -/
  permit : Bool := false
  inFallback : Bool := true
  /-- The fallback comes of DENY_LIMIT alone (R443). -/
  byDeny : Bool := false
  /-- Released by the host, held until its next PERMIT. -/
  releasing : Bool := false
  /-- The value last applied, and the level at the pin of a permission target. -/
  applied : Option Word := none
  level : Bool := false
  denials : Nat := 0
  lastCode : Nat := 0
  deriving DecidableEq, Repr, Inhabited

/-- An open stage watch (R444). -/
structure Watch where
  id : Nat
  opened : Nat
  closes : Nat
  /-- An injection ignores its kicks, or kicks it at once (R587). -/
  inj : Nat := 0
  deriving DecidableEq, Repr, Inhabited

/-- A watched stage (R444 to R446). -/
structure Stage where
  watches : List Watch := []
  consec : Nat := 0
  deriving DecidableEq, Repr, Inhabited

/-- A safety restart in progress (R455). -/
structure Restart where
  since : Nat
  cause : Nat
  /-- The line-side engine runs again (step 7); the targets leave fallback at the end whatever AUTO_RELEASE holds (R456). -/
  line : Bool := false
  release : Bool := false
  deriving DecidableEq, Repr, Inhabited

/-- A self-test slice in progress (R449). -/
structure SliceRun where
  cls : Nat
  target : Nat
  since : Nat
  deriving DecidableEq, Repr, Inhabited

structure Plumb where
  st : PlumbState := .starting
  /-- RULES_EN has been set on a READY device (R433). -/
  dual : Bool := false
  resyncLeft : Nat := 0
  /-- Rounds of the last divergences. -/
  diverge : List Nat := []
  image : Option RuleImage := none
  staged : Option RuleImage := none
  /-- The image a RECOVER loads again. -/
  stored : Option RuleImage := none
  targets : List Target := List.replicate 80 {}
  /-- The context of the rule program that runs: g0 to g15, instructions still skipped, ended. -/
  g : List (BitVec 64) := List.replicate 16 0
  skip : Nat := 0
  ended : Bool := false
  /-- Instructions that the round in progress has still to run, program by program. -/
  left : Option (List (List RuleInstr)) := none
  /-- The inputs latched for the round, by selector, and the value targets with a value offered at its start (R430, R431). -/
  snap : List (Nat × BitVec 64) := []
  judge : List Nat := []
  verdicts : List Verdict := List.replicate 80 {}
  safeReq : Option Nat := none
  /-- Assertions of each Course output in the previous round. -/
  asserts : List Nat := List.replicate 24 0
  assertsNow : List Nat := List.replicate 24 0
  /-- Levels of SAFE_OK_A and SAFE_OK_B. -/
  okA : Bool := false
  okB : Bool := false
  roundAt : Nat := 0
  stages : List Stage := List.replicate 8 {}
  watchId : Nat := 0
  /-- Keystone: mismatches in a row and last outcome of each pair; the first run after an epoch switch; the pairs whose
  result is awaited; whether a rollback is in progress. -/
  ksRow : List Nat := [0, 0, 0, 0]
  ksLast : List Nat := [0, 0, 0, 0]
  ksAfterEpoch : Bool := false
  /-- The Keystone graph of the first Keystone frame after an epoch switch (R448). -/
  ksFirst : Option Nat := none
  /-- Keystone graphs that have been judged MISSING. -/
  ksSeen : List Nat := []
  /-- Self-test rotation (R449). -/
  stPtr : Nat := 0
  stCore : Nat := 0
  slice : Option SliceRun := none
  stAt : Nat := 0
  /-- Tick at which each checker last passed: key 256 × class + checker. -/
  stPass : List (Nat × Nat) := []
  latent : Bool := false
  latentCls : List Nat := []
  /-- Ticks of the triggers of the present RESTART_WINDOW (R456). -/
  triggers : List Nat := []
  /-- Ticks of the triggers counted in PLUMB_SAFE_CNT [15:0]. -/
  safeTicks : List Nat := []
  restart : Option Restart := none
  /-- Why LOCKOUT was entered: 0 none, 1 failed restart, 2 self-test, 3 RESTART_MAX. -/
  lockWhy : Nat := 0
  recovering : Bool := false
  /-- A RECOVER has failed, and when. -/
  recFailed : Option Nat := none
  /-- The safe state is in force: targets are held in fallback until a release. -/
  safe : Bool := false
  /-- A trigger that started no restart (R540) holds the targets until SAFE_CLEAR. -/
  untilClear : Bool := false
  /-- A successful RECOVER (R435) holds the targets until SAFE_CLEAR. -/
  recovered : Bool := false
  /-- SAFE_REQ_N is low, and since when. -/
  reqLow : Option Nat := none
  /-- Compute and line-side engines stay in reset (R455). -/
  held : Bool := false
  restartPairs : List Nat := []
  deriving DecidableEq, Repr, Inhabited

/-! ### Power (R547 to R562) -/

/-- One millisecond of the meters: the package's energy and that of PD10 to PD17, µJ, and the high-water mark at its end. -/
structure PowMs where
  pkg : Nat
  half : Nat
  hwm : Int
  deriving DecidableEq, Repr, Inhabited

structure Power where
  on : BitVec 20 := 0
  fault : BitVec 20 := 0
  /-- Energy meters, µJ. -/
  meter : List Nat := List.replicate 20 0
  /-- The last 1,000 milliseconds, newest first. -/
  hist : List PowMs := []
  budget : Nat := 380000
  cap : Nat := 380000
  cold420 : Bool := false
  granted : Nat := 192
  pcore : Nat := 1450
  /-- VDDC_SEL, the level of VDD_C asked of the carrier (R566). -/
  vddc : Nat := 0
  derate : Nat := 0
  hotSince : Option Nat := none
  coolSince : Option Nat := none
  thermHot : Bool := false
  /-- THERM_COOL has been raised in the present cool spell. -/
  cool : Bool := false
  tripped : Bool := false
  overBudget : Bool := false
  /-- Sensor readings, sixteenths of a degree. -/
  temps : List Int := List.replicate 21 0
  epm : Nat := 0
  avg : Nat := 0
  pkg : Nat := 0
  deriving DecidableEq, Repr, Inhabited

/-! ### Test and repair (R581 to R597) -/

/-- One of the five injection registers: armed, when, and what is left to deliver (of an injected LOS, 1 while it lasts). -/
structure Inj where
  armed : Bool := false
  at_ : Nat := 0
  left : Nat := 0
  deriving DecidableEq, Repr, Inhabited

structure Test where
  mode : Bool := false
  inj : List Inj := List.replicate 5 {}
  snap : List Word := List.replicate 24 0
  /-- Flips that are repeated after every write (PERSIST): word key and mask. -/
  persist : List (Nat × Nat) := []
  /-- Corrected reads of each Quarry channel in the present hour. -/
  qchCe : List Nat := List.replicate 16 0
  /-- LOCAL ns at the last write of TEST_NET_STALL (R584). -/
  stallSince : Nat := 0
  deriving DecidableEq, Repr, Inhabited

/-! ### Start-up, resets and the card (R492 to R546) -/

inductive DevState where
  | boot
  | starting
  | ready
  | failed
  deriving DecidableEq, Repr, Inhabited

inductive PowState where
  | run
  | idle
  | hold
  | standby
  deriving DecidableEq, Repr, Inhabited

/-- A key slot of the fuses (R518). -/
structure KeySlot where
  hash : Option (List Byte) := none
  revoked : Bool := false
  deriving DecidableEq, Repr, Inhabited

/-- The start-up in progress or the last one (R528, R537): its CAUSE, the tick of its t = 0, whether the start-up configuration
was applied, whether copy 1 of the firmware verified, and the pairs refused so far. -/
structure Startup where
  kind : Nat := 0
  from_ : Nat := 0
  applied : Bool := false
  copy1 : Bool := false
  skipped : Nat := 0
  /-- Entries the event log held at t = 0; a failure of step 3. -/
  logAt : Nat := 0
  stFail : Bool := false
  deriving DecidableEq, Repr, Inhabited

structure Mgmt where
  st : DevState := .boot
  pow : PowState := .run
  /-- The state a POWER_STATE moves to, and the command that waits. -/
  powTo : Option PowState := none
  startup : Startup := {}
  /-- Pins: RESET_N high, PWRGD high, reference clocks present, straps sampled at power-good. -/
  resetN : Bool := true
  pwrgd : Bool := true
  refclk : Bool := true
  ethclk : Bool := true
  cxpclk : Bool := true
  splitStrap : Bool := false
  strap : Nat := 0
  /-- A DEVICE_RESET is scheduled: the tick it is due at. -/
  resetAt : Option Nat := none
  /-- Fuses. -/
  serial : Nat := 0
  ext : Bool := false
  splitFuse : Bool := false
  debugLock : Bool := false
  ownerSigFuse : Bool := false
  ownerSig : Bool := false
  fwKeys : List KeySlot := List.replicate 4 {}
  /-- MAC addresses of the ports, from the fuses (R490). -/
  macs : List Nat := []
  ownerKeys : List KeySlot := List.replicate 4 {}
  fwSlot : Nat := 0
  fwVersion : Word := 0#32
  fwDigest : List Byte := []
  /-- The fuses have been read at a power-on; what the flash held at the last start. -/
  fused : Bool := false
  flash : Board := {}
  /-- JTAG instruction register (R580): 0 BYPASS, 1 IDCODE, 2 SAMPLE/PRELOAD, 3 EXTEST, 4 EXTEST_PULSE, 5 EXTEST_TRAIN; whether
  it drives the pins. -/
  jtag : Nat := 1
  jtagDrives : Bool := false
  deriving DecidableEq, Repr, Inhabited

/-- What the event log and the violation log hold (R485, R507). -/
inductive LogEntry where
  | event (blk bit : Nat) (arg : Nat) (time : Nat)
  | mark (code : Nat) (origin prog : Nat) (sp : Int) (time : Nat)
  | reversal (sp : Int) (time : Nat)
  | startup (bytes : List Byte)
  | injection (reg : Nat) (value : Word) (time : Nat)
  | camera (group : Nat) (bytes : List Byte) (time : Nat)
  | configRefused (addr : Word) (status : Nat)
  | strap (levels : Nat)
  | configIgnored (cause : Nat)
  deriving DecidableEq, Repr, Inhabited

inductive CardState where
  | idle
  | ready
  | standby
  | command
  | inactive
  deriving DecidableEq, Repr, Inhabited

/-- A command packet as it waits in the command buffer (R495, R497): its header as received, the status of its checks
(0 when it is well formed) and its command. -/
structure Packet where
  tag : Nat
  client : Nat
  flags : Nat := 0
  opcode : Nat
  bad : Nat := 0
  cmd : HostCmd
  size : Nat
  deriving DecidableEq, Repr, Inhabited

/-- A reply (R498). -/
structure Reply where
  status : Nat
  tag : Nat
  client : Nat
  opcode : Nat
  bytes : List Byte := []
  deriving DecidableEq, Repr, Inhabited

/-- A deferred command (R500): its packet and the tick it was deferred at. -/
structure Deferred where
  pkt : Packet
  at_ : Nat
  deriving DecidableEq, Repr, Inhabited

/-- An inbound transfer (R515): its command, the bytes announced, and those received, last first. -/
structure Inbound where
  d : Deferred
  len : Nat
  got : List Byte := []
  n : Nat := 0
  beyond : Bool := false
  at_ : Nat := 0
  deriving DecidableEq, Repr, Inhabited

/-- An outbound transfer (R516). -/
structure Outbound where
  d : Deferred
  bytes : List Byte
  at_ : Nat := 0
  deriving DecidableEq, Repr, Inhabited

/-- A loaded model (R510, R144). -/
structure ModelImg where
  id : Nat
  client : Nat
  mask : Nat
  digest : List Byte
  bytes : List Byte
  /-- Where its values lie: die, Lintel offset, length. -/
  areas : List (Nat × Nat × Nat) := []
  deriving DecidableEq, Repr, Inhabited

structure Sdio where
  card : CardState := .idle
  rca : Nat := 0
  /-- CMD5 asked for 1.8 V signalling. -/
  s18 : Bool := false
  v18 : Bool := false
  bus4 : Bool := false
  mode : Nat := 0
  tuned : Bool := false
  driver : Nat := 0
  /-- I/O enable and interrupt enable of the functions, block sizes. -/
  ioe : Nat := 0
  ien : Nat := 0
  blk : List Nat := [0, 0, 0]
  f1Pend : Nat := 0
  f1En : Nat := 0
  f2Pend : Nat := 0
  f2En : Nat := 0
  cmdBuf : List Packet := []
  replies : List Reply := []
  /-- Bytes of the first reply already read. -/
  consumed : Nat := 0
  deferred : List Deferred := []
  /-- The command that later packets wait behind (R542, R555), and whether the action it waits for is its own. -/
  waiting : Option Packet := none
  waitBegun : Bool := false
  inQ : List Inbound := []
  inAct : Option Inbound := none
  checks : List Inbound := []
  outQ : List Outbound := []
  outAct : Option Outbound := none
  /-- CLIENT and TAG as F2_IN_TAG and F2_OUT_TAG last took them (R514). -/
  inTag : Nat := 0
  outTag : Nat := 0
  /-- Bytes the card gave to the last read of it. -/
  dat : List Byte := []
  /-- Ticks of the violations of the last second, for each client. -/
  viol : List (List Nat) := List.replicate 16 []
  /-- Tick of the last CLEAR_COUNTERS: MGMT_VIOLc_CNT [7:0] counts violations after it. -/
  violFrom : Nat := 0
  violLog : List (List Byte) := []
  evLog : List LogEntry := []
  models : List ModelImg := []
  deriving DecidableEq, Repr, Inhabited

/-! ### The state -/

/-- Parts of R2. -/
inductive Part where
  | vyu4140
  | vyu2140
  deriving DecidableEq, Repr, Inhabited

/-- The state of the block. -/
structure State where
  part : Part := .vyu4140
  /-- Timing-clock ticks of 2 ns since power-on. -/
  now : Nat := 0
  /-- Registers that do not hold their reset value: address and value, addresses rising. -/
  regs : List (Nat × Word) := []
  /-- Bytes that are not 0 of the Lintel stores, core stores, Quarry devices and line-side tables: key and byte, keys
  rising. -/
  mem : List (Nat × Byte) := []
  /-- Snapshots not yet consumed (R599): partner address and value. -/
  snaps : List (Nat × Word) := []
  /-- Compute-clock cycles: FABRIC_CYCLE at tick `cycAt`, the frequency code, and a change of clock in progress (R131). -/
  cyc : Nat := 0
  cycAt : Nat := 0
  freq : Nat := 0
  changing : Option Nat := none
  /-- The model's own: free values drawn so far. -/
  fresh : Nat := 0
  course : Course := {}
  tn : TimeNet := {}
  acq : Acq := {}
  die : List Die := List.replicate 4 {}
  stream : List Stream := List.replicate 4 {}
  kv : List Kv := List.replicate 4 {}
  adapt : Adapt := {}
  mt : MemTier := {}
  bond : Bond := {}
  line : Line := {}
  plumb : Plumb := {}
  power : Power := {}
  test : Test := {}
  mgmt : Mgmt := {}
  sdio : Sdio := {}
  /-- Commands waiting, first in, first out. -/
  pending : List Instr := []
  deriving DecidableEq, Repr, Inhabited

/-- Why the block stops. No command of the table stops it: the type has one constructor, raised by nothing (safe). -/
inductive Fault where
  /-- Raised by nothing. Safe: a stop where the block goes on proves nothing false. -/
  | none
  deriving DecidableEq, Repr, Inhabited

/-- Why a command is refused. -/
inductive Refusal where
  /-- Raised by Machine/Dispatch.lean alone, for a row that has no meaning yet. Safe. -/
  | notModelled (mnemonic : String)
  deriving DecidableEq, Repr, Inhabited

/-- The block right after reset: powered, in reset step 0 of the start-up, every register at its reset value, the stores
at 0, no command waiting. -/
def State.reset : State := {}

end Sys2Proof.Machine
end

