-- ==== Sys2Proof/Machine/RegTable.lean ====
section
/-!
DEFINITION. The register map: for each block of R33 its registers, with the bits a write sets (RW), sets while no plan runs
(RWL), clears (W1C), whether it is write-only, and its reset value (R13, and the register tables of each chapter). A
register of no mask is RO. Offsets that no row gives are unoccupied and read 0 (R35).
-/
namespace Sys2Proof.Machine

/-- One row of a register table: `n` registers from offset `off`, `stride` apart, with the masks of R13. -/
structure RegRow where
  off : Nat
  n : Nat := 1
  stride : Nat := 4
  rw : Nat := 0
  rwl : Nat := 0
  w1c : Nat := 0
  wo : Bool := false
  reset : Nat := 0
  deriving DecidableEq, Repr, Inhabited

/-- Read-only registers (RO), `n` of them. -/
def rowRo (off n stride : Nat) (reset : Nat := 0) : RegRow := { off, n, stride, reset }
/-- Registers with locked fields (RWL). -/
def rowRwl (off n stride mask : Nat) (reset : Nat := 0) : RegRow := { off, n, stride, rwl := mask, reset }
/-- Registers with free fields (RW). -/
def rowRw (off n stride mask : Nat) (reset : Nat := 0) : RegRow := { off, n, stride, rw := mask, reset }
/-- An event register of W1C bits. -/
def rowW1c (off n stride mask : Nat) : RegRow := { off, n, stride, w1c := mask }
/-- A command register (WO). -/
def rowWo (off : Nat) : RegRow := { off, wo := true }

/-- All 32 bits. -/
def m32 : Nat := 0xFFFFFFFF

/-- R521. -/
def mgmtRows : List RegRow :=
  [rowRo 0x0 4 4, rowRo 0x10 1 4, rowW1c 0x14 1 4 0x1F, rowRw 0x18 1 4 0x1F, rowWo 0x1C, rowRw 0x20 2 4 0x7FFF 0x8000,
   rowRo 0x28 1 4, rowRw 0x2C 1 4 0xFFFF 0x2710, rowRo 0x30 4 4, rowRo 0x40 16 4, rowRo 0x80 1 4]

/-- R68, R69. -/
def courseRows : List RegRow :=
  [rowRwl 0x0 1 4 0xFF, rowRo 0x4 1 4, rowW1c 0x8 1 4 0x1FFF, rowRw 0xC 1 4 0x1FFF, rowRo 0x10 11 4, rowRwl 0x40 2 4 m32,
   rowWo 0x48, rowRw 0x4C 2 4 m32, rowRwl 0x54 1 4 m32 0x3E8, rowRwl 0x58 1 4 m32 0x7D0, rowRwl 0x5C 1 4 m32 0x1F4,
   rowRwl 0x60 1 4 0xFF03 0x1402, rowRwl 0x64 1 4 m32 0x4E20, rowRwl 0x68 1 4 m32 0x64, rowRwl 0x100 8 0x10 0xFFFF0000,
   rowRwl 0x104 8 0x10 m32, rowRo 0x108 8 0x10, rowRo 0x10C 8 0x10, rowRwl 0x200 4 0x20 0x83FFC000, rowRwl 0x204 4 0x20 m32,
   rowRwl 0x208 4 0x20 m32, rowRwl 0x20C 4 0x20 m32, rowRwl 0x210 4 0x20 m32, rowRwl 0x214 4 0x20 m32, rowRo 0x218 4 0x20,
   rowRo 0x21C 4 0x20, rowRwl 0x400 24 8 0xFF3F0000, rowRwl 0x404 24 8 m32, rowRw 0x800 2 4 m32, rowRo 0x808 2 4,
   rowW1c 0x810 2 4 m32, rowRo 0x900 64 4, rowRwl 0xA00 64 4 1]

/-- R102, R103. -/
def acqRows : List RegRow :=
  [rowRwl 0x0 1 4 3, rowRo 0x4 1 4, rowW1c 0x8 1 4 0xFFFF, rowRw 0xC 1 4 0xFFFF, rowRwl 0x10 1 4 m32 0x7D0000,
   rowRwl 0x14 1 4 m32, rowRwl 0x18 1 4 0xFF, rowRwl 0x1C 1 4 m32 0xFA, rowRo 0x20 1 4 0x98, rowRo 0x24 3 4,
   rowRwl 0x100 8 0x40 0xFFFF0000, rowRwl 0x104 8 0x40 0x7FFF, rowRwl 0x108 8 0x40 0xBBBB, rowRwl 0x10C 8 0x40 m32,
   rowRwl 0x110 8 0x40 m32 0x64, rowRw 0x114 8 0x40 1, rowRo 0x118 8 0x40, rowRo 0x11C 8 0x40, rowRo 0x120 8 0x40,
   rowRo 0x124 8 0x40, rowRo 0x128 8 0x40, rowRo 0x12C 8 0x40, rowRo 0x130 8 0x40, rowRo 0x134 8 0x40, rowRo 0x138 8 0x40,
   rowRw 0x13C 8 0x40 m32, rowRwl 0x1000 64 0x20 0xFC000000, rowRwl 0x1004 64 0x20 m32, rowRwl 0x1008 64 0x20 m32,
   rowRwl 0x100C 64 0x20 m32, rowRwl 0x1010 64 0x20 0xFFFF00FF, rowRo 0x1014 64 0x20, rowRo 0x1018 64 0x20,
   rowRo 0x101C 64 0x20]

/-- R147, one window. -/
def fabricRows : List RegRow :=
  [rowRo 0x0 1 4, rowW1c 0x4 1 4 0x1FF, rowRw 0x8 1 4 0x1FF, rowRo 0xC 4 4, rowWo 0x1C, rowRo 0x20 5 4, rowRo 0x100 48 4,
   rowRo 0x200 52 4, rowRo 0x1000 52 0x20, rowRo 0x1004 52 0x20, rowRo 0x1008 52 0x20, rowRo 0x100C 52 0x20,
   rowRo 0x1010 52 0x20, rowRo 0x1014 52 0x20]

/-- R240, one window. -/
def streamRows : List RegRow :=
  [rowRwl 0x0 1 4 1, rowRo 0x4 1 4, rowW1c 0x8 1 4 0xFF, rowRw 0xC 1 4 0xFF, rowRwl 0x10 1 4 m32, rowRwl 0x14 1 4 0xFFFF000F,
   rowRo 0x18 3 4, rowRwl 0x24 1 4 0x8001FFFF, rowRo 0x28 2 4, rowWo 0x30, rowRw 0x34 1 4 0x3FFFF, rowRo 0x38 1 4,
   rowRo 0x40 16 4, rowRo 0x80 8 4]

/-- R277, one window. -/
def kvRows : List RegRow :=
  [rowRwl 0x0 1 4 1, rowRo 0x4 1 4, rowW1c 0x8 1 4 0x3FF, rowRw 0xC 1 4 0x3FF, rowRwl 0x10 2 4 m32, rowRwl 0x18 1 4 0xFFFFE00F,
   rowRo 0x1C 3 4, rowRwl 0x28 1 4 0x7FF 0x40, rowWo 0x2C, rowRw 0x30 1 4 0x3FF, rowRw 0x34 1 4 0x7FFFF, rowRo 0x40 8 4,
   rowRo 0x60 2 4, rowRo 0x68 5 4, rowRwl 0x100 1 4 0x3FFFF, rowRw 0x104 1 4 3, rowRo 0x108 2 4]

/-- R313, R314. -/
def memRows : List RegRow :=
  [rowRwl 0x0 1 4 0xF 0xD, rowRo 0x4 1 4, rowW1c 0x8 1 4 0xFFF, rowRw 0xC 1 4 0xFFF, rowRwl 0x10 1 4 m32 0x108403E8,
   rowRwl 0x14 1 4 m32 0x3C03E8, rowRwl 0x18 1 4 0xFFF000FF 0x77000008, rowWo 0x20, rowRw 0x24 1 4 0xFFFF, rowRo 0x28 5 4,
   rowRwl 0x40 4 0x10 0x1FFF 0x800, rowRo 0x44 4 0x10, rowRo 0x48 4 0x10, rowRo 0x4C 4 0x10, rowRo 0x100 16 0x10,
   rowRo 0x104 16 0x10, rowRo 0x108 16 0x10, rowRo 0x10C 16 0x10]

/-- R355, R356. -/
def bondRows : List RegRow :=
  [rowRo 0x0 1 4, rowW1c 0x4 1 4 0x1FFF, rowRw 0x8 1 4 0x1FFF, rowWo 0xC, rowRwl 0x10 1 4 m32 0x50D0040, rowRwl 0x14 1 4 0xFF 0x10,
   rowRo 0x20 16 4, rowRw 0x60 1 4 0x7F, rowRo 0x80 14 4, rowRw 0x100 15 8 0x83FFFFFF, rowRo 0x104 15 8]

/-- R388, R389. -/
def servoRows : List RegRow :=
  [rowRwl 0x0 1 4 1, rowRo 0x4 1 4, rowW1c 0x8 1 4 0x1FF, rowRw 0xC 1 4 0x1FF, rowWo 0x10, rowRwl 0x20 2 4 0xFF,
   rowRwl 0x30 1 4 m32, rowRw 0x34 1 4 m32, rowRo 0x38 1 4, rowRwl 0x3C 1 4 m32, rowRwl 0x40 1 4 0xFF,
   rowRwl 0x100 16 0x40 0xFFFE0000, rowRwl 0x104 16 0x40 0xFFDFFFFF, rowRwl 0x108 16 0x40 0xC707FFFF,
   rowRw 0x10C 16 0x40 0xE000FFFF, rowRw 0x110 16 0x40 m32 1, rowRw 0x114 16 0x40 m32 1, rowRwl 0x118 16 0x40 m32,
   rowRwl 0x11C 16 0x40 0xFFFFFF 1, rowRwl 0x120 16 0x40 m32, rowRwl 0x124 16 0x40 m32, rowRw 0x128 16 0x40 m32,
   rowRo 0x12C 16 0x40, rowRo 0x130 16 0x40, rowRo 0x134 16 0x40, rowRo 0x138 16 0x40, rowRo 0x13C 16 0x40,
   rowRwl 0x800 64 4 m32, rowRwl 0xA00 8 0x10 0x80FFFFFF, rowRwl 0xA04 8 0x10 m32, rowRwl 0xA08 8 0x10 m32, rowRo 0xA0C 8 0x10,
   rowRwl 0xC00 8 0x10 0xF01F0000, rowRwl 0xC04 8 0x10 m32, rowRwl 0xC08 8 0x10 m32, rowRwl 0xC0C 8 0x10 m32,
   rowRw 0x1000 256 4 m32]

/-- R391, R392. -/
def qpRows : List RegRow :=
  [rowRwl 0x0 1 4 1, rowRo 0x4 1 4, rowW1c 0x8 1 4 0x3FF, rowRw 0xC 1 4 0x3FF, rowWo 0x10, rowRwl 0x14 1 4 m32 0x35800000,
   rowRo 0x18 1 4, rowRwl 0x100 8 0x40 0xFFFFFFF8, rowRwl 0x104 8 0x40 0x3FFF, rowRo 0x108 8 0x40, rowRo 0x10C 8 0x40,
   rowRwl 0x110 8 0x40 m32 0x8404100, rowRwl 0x114 8 0x40 m32 0x3727C5AC, rowRo 0x118 8 0x40 0x60, rowRo 0x11C 8 0x40,
   rowRo 0x120 8 0x40, rowRo 0x124 8 0x40, rowRo 0x128 8 0x40, rowRo 0x12C 8 0x40, rowRo 0x130 8 0x40]

/-- R423, R424. -/
def motionRows : List RegRow :=
  [rowRwl 0x0 1 4 1, rowRo 0x4 1 4, rowW1c 0x8 1 4 0x3FFF, rowRw 0xC 1 4 0x3FFF, rowWo 0x10, rowRwl 0x14 1 4 0xFFFF 0x3E80,
   rowRwl 0x18 3 4 m32, rowRo 0x24 2 4, rowRo 0x2C 1 4 0x80000000, rowRwl 0x30 1 4 m32 0x2710, rowRwl 0x34 1 4 0x7777007F 0x77770020,
   rowRwl 0x38 1 4 m32 0x320032, rowRwl 0x3C 1 4 m32 0x1F4, rowRwl 0x40 1 4 m32 0x100003E8, rowRwl 0x44 1 4 m32 0x2710,
   rowRwl 0x48 2 4 m32, rowRwl 0x50 4 4 0x0FFFFFC1, rowRo 0x60 6 4, rowRwl 0x100 8 0x20 0x803F00FF, rowRwl 0x104 8 0x20 m32,
   rowRwl 0x108 8 0x20 m32, rowRo 0x10C 8 0x20, rowRo 0x110 8 0x20, rowRo 0x114 8 0x20, rowRwl 0x400 32 0x20 m32,
   rowRwl 0x404 32 0x20 m32, rowRwl 0x408 32 0x20 m32, rowRwl 0x40C 32 0x20 m32, rowRwl 0x410 32 0x20 m32,
   rowRwl 0x414 32 0x20 m32, rowRwl 0x418 32 0x20 m32, rowRwl 0x800 256 4 m32]

/-- R460, R461. -/
def plumbRows : List RegRow :=
  [rowRo 0x0 1 4, rowW1c 0x4 1 4 0xFFF, rowRw 0x8 1 4 0xFFF, rowWo 0xC, rowRwl 0x10 1 4 0xFFFFFF03 0x3003C00, rowRo 0x14 11 4,
   rowRwl 0x100 8 0x10 m32 0x1000000, rowRo 0x104 8 0x10, rowRo 0x108 8 0x10, rowRo 0x10C 8 0x10, rowRw 0x200 1 4 0xFFFF0001 0x3E80001,
   rowRo 0x204 3 4, rowRwl 0x240 8 8 m32 0xE10, rowRo 0x244 8 8, rowRwl 0x300 1 4 0xFF000001 0x42000000, rowRo 0x310 4 4,
   rowRwl 0x1000 80 8 0xC0FF0000, rowRwl 0x1004 80 8 m32, rowRo 0x1400 80 4]

/-- R488, R489. -/
def timeRows : List RegRow :=
  [rowRw 0x0 1 4 7, rowRo 0x4 1 4, rowW1c 0x8 1 4 0x3F, rowRw 0xC 1 4 0x3F, rowWo 0x10, rowRw 0x14 1 4 m32 0x186A0,
   rowRw 0x18 1 4 m32 0x3E8, rowRw 0x1C 1 4 m32 0x2710, rowRo 0x20 5 4, rowRo 0x34 1 4 2, rowRwl 0x40 2 0x40 0xFFFFFF00,
   rowRo 0x44 2 0x40, rowRo 0x48 2 0x40, rowRo 0x4C 2 0x40, rowRo 0x50 2 0x40, rowRo 0x54 2 0x40, rowRo 0x58 2 0x40 2,
   rowRo 0x5C 2 0x40, rowRo 0x60 2 0x40, rowRo 0x64 2 0x40, rowRw 0x68 2 0x40 m32, rowRw 0x6C 2 0x40 0xFFFF, rowRw 0x70 2 0x40 m32,
   rowRw 0x100 8 0x20 0xF8000000, rowRw 0x104 8 0x20 m32, rowRw 0x108 8 0x20 m32, rowRw 0x10C 8 0x20 m32, rowRw 0x110 8 0x20 m32,
   rowRo 0x114 8 0x20, rowRw 0x200 4 0x10 0xF80000FF, rowRo 0x204 4 0x10 m32, rowRo 0x208 4 0x10 m32, rowRo 0x20C 4 0x10]

/-- R490, R491. -/
def netRows : List RegRow :=
  [rowRwl 0x0 1 4 1, rowRo 0x4 1 4, rowW1c 0x8 1 4 0x1F, rowRw 0xC 1 4 0x1F, rowWo 0x10, rowRwl 0x14 1 4 0xFFFF 0x4E20,
   rowRo 0x18 1 4, rowRw 0x1C 1 4 0xFFFF 0x64, rowRw 0x20 1 4 0xFFFFFF, rowRo 0x24 1 4, rowRwl 0x30 4 4 0x0FFFFFC1,
   rowRwl 0x100 4 0x100 0xF0003FFF 0x5DC, rowRo 0x104 4 0x100, rowRwl 0x108 4 0x100 m32, rowRwl 0x10C 4 0x100 0xFFFF,
   rowRwl 0x110 4 0x100 m32, rowRwl 0x114 4 0x100 m32, rowRwl 0x118 4 0x100 m32, rowRwl 0x11C 4 0x100 0x80000FFF,
   rowRwl 0x120 4 0x100 m32, rowRwl 0x124 4 0x100 m32, rowRo 0x128 4 0x100, rowRo 0x12C 4 0x100, rowRo 0x130 4 0x100,
   rowRo 0x134 4 0x100, rowRo 0x138 4 0x100, rowRwl 0x800 4 0x20 0xB07FFFFF, rowRwl 0x804 4 0x20 m32, rowRwl 0x808 4 0x20 m32,
   rowRo 0x80C 4 0x20, rowRo 0x810 4 0x20]

/-- R560, R561. -/
def powerRows : List RegRow :=
  [rowRo 0x0 1 4 0xC0, rowW1c 0x4 1 4 0x7F, rowRw 0x8 1 4 0x7F, rowWo 0xC, rowRo 0x10 2 4 0x5CC60, rowRo 0x18 3 4, rowRo 0x24 1 4 0x5AA,
   rowRwl 0x28 1 4 0xFFFF0000 0x640000, rowRwl 0x2C 1 4 0xFFFF 0x505, rowRwl 0x30 1 4 0xFF0F 0x2808, rowRo 0x34 4 4, rowRo 0x48 2 4,
   rowRo 0x100 40 4, rowRo 0x200 21 4]

/-- R595, R596. -/
def testRows : List RegRow :=
  [rowRo 0x0 1 4, rowW1c 0x4 1 4 0x1F, rowRw 0x8 1 4 0x1F, rowWo 0xC, rowRw 0x10 1 4 1, rowRo 0x14 1 4, rowRw 0x20 1 4 0xC0FFFFFF,
   rowRw 0x24 1 4 m32, rowRw 0x28 1 4 0xFFFF, rowRw 0x2C 1 4 0xFFFFF, rowRw 0x30 1 4 m32, rowRw 0x34 1 4 0xFFFF000F,
   rowRw 0x38 1 4 0xFFFF00FF, rowRw 0x3C 1 4 0xFFFFFF, rowRw 0x40 2 4 m32, rowRw 0x50 1 4 0x870FFFFF, rowRw 0x54 1 4 0xF7FF000F,
   rowRw 0x58 1 4 m32, rowRw 0x5C 1 4 0x8F000000, rowRw 0x60 1 4 0xFF00FFFF, rowRw 0x64 1 4 0xFF00FFFF,
   rowRw 0x70 1 4 0xFF00FFFF 0x80003E8, rowRo 0x74 1 4, rowRo 0x80 4 4 0xD00, rowRo 0x100 24 4]

/-- R524. -/
def secRows : List RegRow :=
  [rowRo 0x0 1 4, rowWo 0x4, rowW1c 0x8 1 4 7, rowRw 0xC 1 4 7, rowRo 0x10 1 4, rowRo 0x40 8 4, rowRo 0x80 16 4, rowRo 0xC0 16 4,
   rowRo 0x100 16 4]

/-- The register table of block `b` (R33). -/
def blockRows (b : Nat) : List RegRow :=
  match b with
  | 0 => mgmtRows | 1 => courseRows | 2 => acqRows | 3 => fabricRows | 4 => streamRows | 5 => kvRows | 6 => memRows
  | 7 => bondRows | 8 => servoRows | 9 => qpRows | 10 => motionRows | 11 => plumbRows | 12 => timeRows | 13 => netRows
  | 14 => powerRows | 15 => testRows | 16 => secRows | _ => []

/-- The block has four windows of 16 KiB (R34). -/
def windowed (b : Nat) : Bool := b == 3 || b == 4 || b == 5

/-- Offset of an address within its block's register table. -/
def tableOff (a : Nat) : Nat := if windowed (a / 65536) then a % 16384 else a % 65536

/-- Window of an address of a windowed block. -/
def windowOf (a : Nat) : Nat := a % 65536 / 16384

/-- A register's row covers the offset. -/
def rowHas (r : RegRow) (o : Nat) : Bool :=
  decide (r.off ≤ o) && decide ((o - r.off) % r.stride = 0) && decide ((o - r.off) / r.stride < r.n)

/-- The row of an address, none where no register stands (R35). -/
def rowOf (a : Nat) : Option RegRow := (blockRows (a / 65536)).find? (fun r => rowHas r (tableOff a))

/-- The address passes R35. -/
def addrOk (a : Nat) : Bool := decide (a % 4 = 0) && decide (a ≤ 0x10FFFF)

/-- Registers shared by the windows of a block (R34): the address they stand at is that of window 0. -/
def canonAddr (a : Nat) : Nat :=
  let b := a / 65536
  let o := tableOff a
  if (b == 3 && decide (0xC ≤ o && o ≤ 0x14)) || (b == 5 && decide (0x100 ≤ o && o ≤ 0x10C)) then b * 65536 + o else a

/-- The address is that of a register shared by the windows of its block. -/
def globalReg (a : Nat) : Bool :=
  let o := tableOff a
  (a / 65536 == 3 && decide (0xC ≤ o && o ≤ 0x14)) || (a / 65536 == 5 && decide (0x100 ≤ o && o ≤ 0x10C))

/-- An index of a register array that starts at `off` with `stride`, of `n` elements and `size` bytes each. -/
def arrIdx (o off stride n : Nat) : Option Nat :=
  if off ≤ o ∧ (o - off) / stride < n then some ((o - off) / stride) else none

/-- The register belongs to a resource that the VYU-2140 does not have (R2, R34): the windows of die pairs 2 and 3, groups 4
to 7, Lintel dies 2 and 3, channels 8 to 15, ports 2 and 3, the meters of PD08, PD09 and PD14 to PD17, the sensors of
compute dies 2 and 3 and Lintel dies 2 and 3, the rings of dies 2 and 3. -/
def absentReg (p : Part) (a : Nat) : Bool :=
  match p with
  | .vyu4140 => false
  | .vyu2140 =>
    let b := a / 65536
    let o := tableOff a
    let from_ (off stride n lo : Nat) : Bool := match arrIdx o off stride n with
      | some i => decide (lo ≤ i)
      | none => false
    if windowed b then decide (2 ≤ windowOf a) && !globalReg a
    else match b with
      | 2 => from_ 0x100 0x40 8 4
      | 6 => from_ 0x40 0x10 4 2 || from_ 0x100 0x10 16 8
      | 9 => false
      | 10 => from_ 0x50 4 4 2
      | 11 => from_ 0x310 4 4 2
      | 13 => from_ 0x30 4 4 2 || from_ 0x100 0x100 4 2
      | 14 => (match arrIdx o 0x100 8 20 with
          | some i => i == 8 || i == 9 || (decide (14 ≤ i) && decide (i ≤ 17))
          | none => false) ||
          (match arrIdx o 0x200 4 21 with
          | some i => (decide (8 ≤ i) && decide (i ≤ 15)) || i == 18 || i == 19
          | none => false)
      | 15 => from_ 0x80 4 4 2
      | _ => false

/-- Reset value of a register (R12): that of its row, but for the registers whose value the part fixes. -/
def regReset (p : Part) (a : Nat) : Word :=
  match rowOf a with
  | none => 0#32
  | some r =>
    if absentReg p a then 0#32
    else if a == 0xE0000 then (if p == .vyu4140 then 192#32 else 96#32)
    else BitVec.ofNat 32 r.reset

/-- Registers that a read of `a` takes a snapshot of (R68, R147, R355, R388, R460, R475, R488, R560). -/
def snapPartners (a : Nat) : List Nat :=
  let b := a / 65536
  let o := tableOff a
  let hi (l : List Nat) : List Nat := if l.contains o then [a + 4] else []
  match b with
  | 1 => if o == 0x10 then [a + 4, a + 8] else hi [0x1C, 0x24, 0x2C, 0x40, 0x4C, 0x800, 0x808, 0x810]
  | 3 => if o == 0x10 then [canonAddr a + 4] else
    match arrIdx o 0x1000 0x20 52 with
    | some i => if o == 0x1000 + 0x20 * i then [a + 4] else []
    | none => []
  | 7 => hi [0x38, 0x54]
  | 8 => match arrIdx o 0x100 0x40 16 with
    | some i => if o == 0x130 + 0x40 * i then [a + 4] else []
    | none => []
  | 11 => hi [0x24]
  | 12 => if o == 0x20 || o == 0x44 || o == 0x84 then [a + 4, a + 8, a + 12]
    else match arrIdx o 0x200 0x10 4 with
      | some i => if o == 0x204 + 0x10 * i then [a + 4] else []
      | none => []
  | 14 => if o == 0x48 then [a + 4]
    else match arrIdx o 0x100 8 20 with
    | some i => if o == 0x100 + 8 * i then [a + 4] else []
    | none => []
  | _ => []

/-- The snapshot group a register belongs to: the register that takes the snapshot and its partners, or none. -/
def snapGroup (a : Nat) : List Nat :=
  let a := canonAddr a
  let cand := [a, a - 4, a - 8, a - 12]
  match cand.find? (fun x => x == a && !(snapPartners x).isEmpty || (snapPartners x).contains a) with
  | some x => x :: snapPartners x
  | none => []

end Sys2Proof.Machine
end

