-- ==== Sys2Proof/Machine/Ops.lean ====
section
/-!
DEFINITION. The named operations every meaning is written over: stored registers and counts, snapshots, the stores,
clocks and strip position, free values, the event bits and event log (R13, R485), and result records (R479 to R485).
-/
namespace Sys2Proof.Machine

/-! ### Registers -/

/-- The stored value of a register. -/
def State.regGet (s : State) (a : Nat) : Word := tget (regReset s.part) s.regs a

/-- Stores a register. -/
def State.regSet (s : State) (a : Nat) (w : Word) : State := { s with regs := tset (regReset s.part) s.regs a w }

/-- A field of a stored register. -/
def State.rfld (s : State) (a hi lo : Nat) : Nat := fld (s.regGet a) hi lo

/-- One bit of a stored register. -/
def State.rbit (s : State) (a i : Nat) : Bool := wbit (s.regGet a) i

/-- Replaces a field of a stored register. -/
def State.setFld (s : State) (a hi lo v : Nat) : State :=
  let n := (s.regGet a).toNat
  let m := 2 ^ (hi + 1 - lo)
  s.regSet a (wordOf (n - bitsOf n hi lo * 2 ^ lo + v % m * 2 ^ lo))

/-- A signed register. -/
def State.rint (s : State) (a : Nat) : Int := signedOf 32 (s.regGet a).toNat

/-- A signed 64-bit register pair. -/
def State.rint64 (s : State) (a : Nat) : Int := signedOf 64 ((s.regGet a).toNat + 2 ^ 32 * (s.regGet (a + 4)).toNat)

/-- Advances a wrapping count. -/
def State.bump (s : State) (a : Nat) (k : Nat := 1) : State := s.regSet a (s.regGet a + wordOf k)

/-- Advances a saturating count in [31:16]. -/
def State.bumpHi (s : State) (a : Nat) (k : Nat := 1) : State := s.setFld a 31 16 (satAdd 16 (s.rfld a 31 16) k)

/-- Advances a saturating count in [15:0]. -/
def State.bumpLo (s : State) (a : Nat) (k : Nat := 1) : State := s.setFld a 15 0 (satAdd 16 (s.rfld a 15 0) k)

/-- A plan is running: RWL fields are locked (R14), from PLAN_START until the plan is ADMITTED again (R339): log entry 10. -/
def State.planRuns (s : State) : Bool := s.bond.st == .running || s.bond.st == .stopping || s.bond.startPending

/-- Discards the snapshots of a register's group (R599). -/
def State.dropSnaps (s : State) (a : Nat) : State :=
  let g := snapGroup a
  if g.isEmpty then s else { s with snaps := s.snaps.filter (fun p => !g.contains p.1) }

/-! ### Updates of one part of the state -/
def State.updCourse (s : State) (f : Course → Course) : State := { s with course := f s.course }
def State.updTn (s : State) (f : TimeNet → TimeNet) : State := { s with tn := f s.tn }
def State.updAcq (s : State) (f : Acq → Acq) : State := { s with acq := f s.acq }
def State.updAdapt (s : State) (f : Adapt → Adapt) : State := { s with adapt := f s.adapt }
def State.updMt (s : State) (f : MemTier → MemTier) : State := { s with mt := f s.mt }
def State.updBond (s : State) (f : Bond → Bond) : State := { s with bond := f s.bond }
def State.updLine (s : State) (f : Line → Line) : State := { s with line := f s.line }
def State.updPlumb (s : State) (f : Plumb → Plumb) : State := { s with plumb := f s.plumb }
def State.updPower (s : State) (f : Power → Power) : State := { s with power := f s.power }
def State.updTest (s : State) (f : Test → Test) : State := { s with test := f s.test }
def State.updMgmt (s : State) (f : Mgmt → Mgmt) : State := { s with mgmt := f s.mgmt }
def State.updSdio (s : State) (f : Sdio → Sdio) : State := { s with sdio := f s.sdio }
def State.updDie (s : State) (i : Nat) (f : Die → Die) : State := { s with die := lmod s.die i f }
def State.updStream (s : State) (i : Nat) (f : Stream → Stream) : State := { s with stream := lmod s.stream i f }
def State.updKv (s : State) (i : Nat) (f : Kv → Kv) : State := { s with kv := lmod s.kv i f }
def State.updEnc (s : State) (i : Nat) (f : Enc → Enc) : State := s.updCourse (fun c => { c with enc := lmod c.enc i f })
def State.updLg (s : State) (i : Nat) (f : Lg → Lg) : State := s.updCourse (fun c => { c with lg := lmod c.lg i f })
def State.updCrs (s : State) (i : Nat) (f : CrsOut → CrsOut) : State := s.updCourse (fun c => { c with out := lmod c.out i f })
def State.updProg (s : State) (i : Nat) (f : Prog → Prog) : State := s.updCourse (fun c => { c with prog := lmod c.prog i f })
def State.updDom (s : State) (i : Nat) (f : Dom → Dom) : State := s.updTn (fun c => { c with dom := lmod c.dom i f })
def State.updTpo (s : State) (i : Nat) (f : Tpo → Tpo) : State := s.updTn (fun c => { c with tpo := lmod c.tpo i f })
def State.updTcap (s : State) (i : Nat) (f : Tcap → Tcap) : State := s.updTn (fun c => { c with tcap := lmod c.tcap i f })
def State.updPort (s : State) (i : Nat) (f : Port → Port) : State := s.updTn (fun c => { c with port := lmod c.port i f })
def State.updDst (s : State) (i : Nat) (f : DstStream → DstStream) : State := s.updTn (fun c => { c with dst := lmod c.dst i f })
def State.updGrp (s : State) (i : Nat) (f : Grp → Grp) : State := s.updAcq (fun c => { c with grp := lmod c.grp i f })
def State.updSrc (s : State) (i : Nat) (f : Src → Src) : State := s.updAcq (fun c => { c with src := lmod c.src i f })
def State.updQch (s : State) (i : Nat) (f : Qch → Qch) : State := s.updMt (fun c => { c with qch := lmod c.qch i f })
def State.updAx (s : State) (i : Nat) (f : Axis → Axis) : State := s.updLine (fun c => { c with axis := lmod c.axis i f })
def State.updAxGrp (s : State) (i : Nat) (f : AxGroup → AxGroup) : State := s.updLine (fun c => { c with grp := lmod c.grp i f })
def State.updQp (s : State) (i : Nat) (f : QpCtl → QpCtl) : State := s.updLine (fun c => { c with qp := lmod c.qp i f })
def State.updCar (s : State) (i : Nat) (f : Carriage → Carriage) : State := s.updLine (fun c => { c with car := lmod c.car i f })
def State.updTarget (s : State) (i : Nat) (f : Target → Target) : State := s.updPlumb (fun c => { c with targets := lmod c.targets i f })
def State.updStage (s : State) (i : Nat) (f : Stage → Stage) : State := s.updPlumb (fun c => { c with stages := lmod c.stages i f })
def State.updInj (s : State) (i : Nat) (f : Inj → Inj) : State := s.updTest (fun c => { c with inj := lmod c.inj i f })
def State.updCore (s : State) (d p : Nat) (f : CoreS → CoreS) : State :=
  s.updDie d (fun x => { x with core := lmod x.core p f })
def State.updSlot (s : State) (d i : Nat) (f : Slot → Slot) : State :=
  s.updDie d (fun x => { x with slot := lmod x.slot i f })

/-! ### One part of the state -/
def State.encAt (s : State) (i : Nat) : Enc := lget {} s.course.enc i
def State.lgAt (s : State) (i : Nat) : Lg := lget {} s.course.lg i
def State.crsAt (s : State) (i : Nat) : CrsOut := lget {} s.course.out i
def State.progAt (s : State) (i : Nat) : Prog := lget {} s.course.prog i
def State.domAt (s : State) (i : Nat) : Dom := lget {} s.tn.dom i
def State.tpoAt (s : State) (i : Nat) : Tpo := lget {} s.tn.tpo i
def State.tcapAt (s : State) (i : Nat) : Tcap := lget {} s.tn.tcap i
def State.portAt (s : State) (i : Nat) : Port := lget {} s.tn.port i
def State.dstAt (s : State) (i : Nat) : DstStream := lget {} s.tn.dst i
def State.grpAt (s : State) (i : Nat) : Grp := lget {} s.acq.grp i
def State.srcAt (s : State) (i : Nat) : Src := lget {} s.acq.src i
def State.qchAt (s : State) (i : Nat) : Qch := lget {} s.mt.qch i
def State.axAt (s : State) (i : Nat) : Axis := lget {} s.line.axis i
def State.axGrpAt (s : State) (i : Nat) : AxGroup := lget {} s.line.grp i
def State.qpAt (s : State) (i : Nat) : QpCtl := lget {} s.line.qp i
def State.carAt (s : State) (i : Nat) : Carriage := lget {} s.line.car i
def State.targetAt (s : State) (i : Nat) : Target := lget {} s.plumb.targets i
def State.stageAt (s : State) (i : Nat) : Stage := lget {} s.plumb.stages i
def State.injAt (s : State) (i : Nat) : Inj := lget {} s.test.inj i
def State.dieAt (s : State) (i : Nat) : Die := lget {} s.die i
def State.streamAt (s : State) (i : Nat) : Stream := lget {} s.stream i
def State.kvAt (s : State) (i : Nat) : Kv := lget {} s.kv i
def State.coreAt (s : State) (d p : Nat) : CoreS := lget {} (s.dieAt d).core p
def State.slotAt (s : State) (d i : Nat) : Slot := lget { core := 0 } (s.dieAt d).slot i
def State.runAt (s : State) (d i : Nat) : Option RunTask := lget none (s.dieAt d).run i
/-- Changes the task a slot runs. -/
def State.updRun (s : State) (d i : Nat) (f : RunTask → RunTask) : State :=
  s.updDie d (fun x => { x with run := lmod x.run i (fun o => o.map f) })

/-! ### Free values -/

/-- A value the spec leaves open: the next free value. -/
def State.free (s : State) : Word := Config.freeWord s.fresh

/-- The state after a free value has been drawn. -/
def State.drew (s : State) (k : Nat := 1) : State := { s with fresh := s.fresh + k }

/-! ### Stores -/

/-- Key of a byte of a store: `sp` numbers the store, `off` is the byte's address in it. -/
def memKey (sp off : Nat) : Nat := sp * 2 ^ 32 + off

/-- Lintel die d. -/
def spLintel (d : Nat) : Nat := d
/-- Quarry channel c; the device byte address holds DEV in bit 31. -/
def spQuarry (c : Nat) : Nat := 8 + c
/-- Core store of physical core p of compute die d. -/
def spCore (d p : Nat) : Nat := 64 + 52 * d + p
/-- Flat-field table of a group: front 0 or shadow 1; four bytes for each coefficient, 65,536 for each phase. -/
def spFlat (g k : Nat) : Nat := 512 + 2 * g + k
/-- Projection map of a group, eight bytes for each entry. -/
def spProj (g k : Nat) : Nat := 544 + 2 * g + k
/-- Distance field, front 0 or shadow 1. -/
def spSdf (k : Nat) : Nat := 576 + k
/-- Occupancy, front 0 or shadow 1. -/
def spOcc (k : Nat) : Nat := 578 + k
/-- Side data of tile sets (R101), by die. -/
def spSide (d : Nat) : Nat := 584 + d

/-- An unlisted byte reads 0 (R543). -/
def memDefault (_ : Nat) : Byte := 0#8

/-- Reads one byte. -/
def State.ldB (s : State) (k : Nat) : Byte := tget memDefault s.mem k

/-- Reads n bytes. -/
def State.ldBytes (s : State) (k : Nat) : Nat → List Byte
  | 0 => []
  | n + 1 => s.ldB k :: s.ldBytes (k + 1) n

/-- Reads a little-endian number of n bytes. -/
def State.ldN (s : State) (k n : Nat) : Nat := leNat (s.ldBytes k n)

/-- Writes one byte into a store. -/
def memPut (m : List (Nat × Byte)) (k : Nat) (b : Byte) : List (Nat × Byte) := tset memDefault m k b

/-- Writes bytes at rising addresses. -/
def memPuts (m : List (Nat × Byte)) (k : Nat) : List Byte → List (Nat × Byte)
  | [] => m
  | b :: bs => memPuts (memPut m k b) (k + 1) bs

/-- Writes bytes. A word written whole has new check bits, so the flips of R587 in it are gone, but for those that PERSIST
repeats. -/
def State.stBytes (s : State) (k : Nat) (bs : List Byte) : State :=
  { s with
    mem := memPuts s.mem k bs
    mt := { s.mt with flips := s.mt.flips.filter (fun f =>
      !(decide (k ≤ f.1) && decide (f.1 + 8 ≤ k + bs.length)) || s.test.persist.any (fun q => q.1 == f.1)) } }

/-- Writes a little-endian number of n bytes. -/
def State.stN (s : State) (k n v : Nat) : State := s.stBytes k (leBytes n v)

/-- Clears n bytes. -/
def State.zero (s : State) (k n : Nat) : State :=
  { s with
    mem := s.mem.filter (fun p => !(decide (k ≤ p.1) && decide (p.1 < k + n)))
    mt := { s.mt with flips := s.mt.flips.filter (fun f =>
      !(decide (k ≤ f.1) && decide (f.1 + 8 ≤ k + n)) || s.test.persist.any (fun q => q.1 == f.1)) } }

/-- One store takes the contents of another. -/
def State.copySpace (s : State) (from_ to_ : Nat) : State :=
  let lo (k : Nat) := memKey k 0
  let src := (s.mem.filter (fun p => decide (lo from_ ≤ p.1) && decide (p.1 < lo (from_ + 1)))).map
    (fun p => (p.1 - lo from_ + lo to_, p.2))
  { s with mem := s.mem.filter (fun p => decide (p.1 < lo to_)) ++ src ++ s.mem.filter (fun p => decide (lo (to_ + 1) ≤ p.1)) }

/-! ### Clocks -/

/-- One second in units of 2⁻³² ns. -/
def secUnits : Nat := 1000000000 * 2 ^ 32

/-- Value of a clock at a tick, in units of 2⁻³² ns: 48 bits of seconds (R9, R463). -/
def clkAt (c : Clock) (t : Nat) : Nat := (c.base + (t - c.from_) * c.incr) % (2 ^ 48 * secUnits)

/-- The clock restarted at a tick with another increment: its value does not step (R469). -/
def clkRate (c : Clock) (t incr : Nat) : Clock := { base := clkAt c t, from_ := t, incr := incr }

/-- The clock stepped to a value at a tick. -/
def clkStep (c : Clock) (t v : Nat) : Clock := { c with base := v, from_ := t }

/-- LOCAL now. -/
def State.local (s : State) : Nat := clkAt s.tn.local_ s.now

/-- A time carried in 64 bits (R466): seconds modulo 2³² above, nanoseconds below. -/
def time64 (v : Nat) : Nat := v / secUnits % 2 ^ 32 * 2 ^ 32 + v % secUnits / 2 ^ 32

/-- LOCAL as carried in 64 bits. -/
def State.time64 (s : State) : Nat := Sys2Proof.Machine.time64 s.local

/-- The clock of a selector: 0 LOCAL, 1 DOM0, 2 DOM1, 3 taken as LOCAL. -/
def State.clkSel (s : State) (k : Nat) : Nat :=
  match k with
  | 1 => clkAt (lget {} s.tn.dom 0).clk s.now
  | 2 => clkAt (lget {} s.tn.dom 1).clk s.now
  | _ => s.local

/-- Compute-clock cycles in a number of ticks at a frequency code (R130). -/
def cyclesIn (freq ticks : Nat) : Nat :=
  match freq with
  | 0 => 2 * ticks
  | 1 => 8 * ticks / 5
  | _ => 6 * ticks / 5

/-- A power domain is on. -/
def State.pdOn (s : State) (n : Nat) : Bool := s.power.on.getLsbD n

/-- FABRIC_CYCLE now: it stops while the clock changes or every compute domain is off (R131, R545). -/
def State.cycles (s : State) : Nat :=
  if s.changing.isSome || s.power.on.toNat / 2 ^ 10 % 256 = 0 then s.cyc
  else s.cyc + cyclesIn s.freq (s.now - s.cycAt)

/-- Settles the cycle count before its rate changes. -/
def State.settleCycles (s : State) : State := { s with cyc := s.cycles, cycAt := s.now }

/-! ### Strip position -/

/-- One micrometre of a fine position. -/
def umFine : Int := 2 ^ 24

/-- SP, the integer part of the fine position (R42). -/
def State.sp (s : State) : Int := Int.fdiv s.course.sp umFine

/-- A signed number as 8 bytes. -/
def le64 (z : Int) : List Byte := leBytes 8 (codeOf 64 z)

/-! ### Result records -/

def aNetCtrl : Nat := 0xD0000
def aNetEvent : Nat := 0xD0008
def aGrp (g : Nat) : Nat := 0x20100 + 0x40 * g
def aPort (p : Nat) : Nat := 0xD0100 + 0x100 * p
def aDst (n : Nat) : Nat := 0xD0800 + 0x20 * n

/-- The part has the port (R476). -/
def State.hasPort (s : State) (p : Nat) : Bool := decide (p < (if s.part == .vyu4140 then 4 else 2))

/-- The part has the die (R2). -/
def State.hasDie (s : State) (d : Nat) : Bool := decide (d < (if s.part == .vyu4140 then 4 else 2))

/-- MTU of a port: values outside 576 to 9,000 are taken as 1,500. -/
def State.mtu (s : State) (p : Nat) : Nat :=
  let m := s.rfld (aPort p) 13 0
  if 576 ≤ m ∧ m ≤ 9000 then m else 1500

/-- The next hop of a destination (R478): the destination itself inside MASK, else GATEWAY. -/
def State.nextHop (s : State) (p ip : Nat) : Nat :=
  let me := (s.regGet (aPort p + 0x10)).toNat
  let mask := (s.regGet (aPort p + 0x14)).toNat
  if ip &&& mask = me &&& mask then ip else (s.regGet (aPort p + 0x18)).toNat

/-- The ARP cache of a port resolves an address. -/
def State.resolved (s : State) (p ip : Nat) : Bool := (lget {} s.tn.port p).arp.any (fun e => e.ip == ip)

/-- Puts a frame on a port's wire. -/
def State.txFrame (s : State) (p : Nat) (f : WireFrame) : State :=
  (s.updTn (fun n => { n with wire := (p, f) :: n.wire })).bump (aPort p + 0x2C)

/-- TEST_NET_STALL holds a port: LOCAL lies in the first STALL_US µs of a 10 ms that began after the register was written
(R583, R584). -/
def State.stalled (s : State) (p : Nat) : Bool :=
  let w := s.regGet 0xF0034
  let ns := s.local / 2 ^ 32
  let from_ := ns - ns % 10000000
  wbit w p && decide (p < 4) && decide (s.test.stallSince ≤ from_) && decide (ns - from_ < 1000 * min (fld w 31 16) 10000)

/-- A port is up: NET_CTRL.EN and its own EN are set and its link is up. -/
def State.portUp (s : State) (p : Nat) : Bool :=
  s.rbit aNetCtrl 0 && s.hasPort p && s.rbit (aPort p) 31 && (lget {} s.tn.port p).link

/-- A port may send: it is up, and neither a PAUSE frame nor TEST_NET_STALL holds it. -/
def State.portSends (s : State) (p : Nat) : Bool :=
  s.portUp p && !(lget {} s.tn.port p).paused && !s.stalled p

/-- Bytes of the records of a list. -/
def recBytes (l : List (List Byte)) : Nat := (l.map List.length).sum

/-- The records at the front of a buffer that fit one datagram of `room` bytes, at most `n` of them. -/
def fitRecs (room : Nat) : Nat → List (List Byte) → List (List Byte)
  | 0, _ => []
  | _, [] => []
  | n + 1, r :: rs => if r.length ≤ room then r :: fitRecs (room - r.length) n rs else []

/-- Datagram bytes of a stream's next datagram (R479). -/
def datagramBytes (n seq lost serial time : Nat) (recs : List (List Byte)) : List Byte :=
  let body := recs.flatten
  let hd := [1#8, BitVec.ofNat 8 n] ++ leBytes 2 recs.length ++ leBytes 4 seq ++ leBytes 4 lost ++
    leBytes 4 serial ++ leBytes 8 time ++ leBytes 4 (32 + body.length)
  hd ++ leBytes 4 (crc32c (hd ++ leBytes 4 0 ++ body)) ++ body

/-- The DST port of a stream. -/
def State.dstPort (s : State) (n : Nat) : Nat := s.rfld (aDst n) 29 28

/-- Room for records in one datagram of a stream: MTU less the UDP and the datagram header. -/
def State.dstRoom (s : State) (n : Nat) : Nat := s.mtu (s.dstPort n) - 40

/-- Sends one datagram of a stream from the front of its buffer (R480), if its port may send. -/
def State.flushDst (s : State) (n : Nat) : State :=
  let d := lget {} s.tn.dst n
  let recs := fitRecs (s.dstRoom n) d.buf.length d.buf
  if recs.isEmpty || !s.portSends (s.dstPort n) then s
  else
    let bytes := datagramBytes n d.seq d.lost (s.mgmt.serial % 2 ^ 32) s.time64 recs
    let d' := { d with buf := d.buf.drop recs.length, first := s.now, seq := (d.seq + 1) % 2 ^ 32, lost := 0 }
    (s.updDst n (fun _ => d')).txFrame (s.dstPort n) (.datagram n bytes)

/-- Counts records lost by a stream (R480). -/
def State.loseRecs (s : State) (n k : Nat) : State :=
  (s.updDst n (fun d => { d with lost := satAdd 32 d.lost k })).bump (aDst n + 0x10) k

/-- Asks for the address of a destination that the cache does not hold (R478). -/
def State.askArp (s : State) (p ip : Nat) : State :=
  let q := lget {} s.tn.port p
  if q.resolving.any (fun w => w.ip == ip) || !s.portSends p then s
  else
    (s.updPort p (fun q => { q with resolving := q.resolving ++ [{ ip := ip, tries := 1, at_ := s.now }] })).txFrame p
      (.arpRequest ip)

/-- Enters a record into one stream (R480). The answer says whether it was dropped: 0 no, 1 yes, 3 yes and its destination is
unresolved (R478). -/
def State.enqueueRec (s : State) (n : Nat) (r : List Byte) : State × Nat :=
  let p := s.dstPort n
  let hop := s.nextHop p (s.regGet (aDst n + 4)).toNat
  if !s.rbit aNetCtrl 0 then (s.loseRecs n 1, 1)
  else if !s.resolved p hop then ((s.askArp p hop).loseRecs n 1, 3)
  else
    let s := if s.dstRoom n < recBytes (lget {} s.tn.dst n).buf + r.length then s.flushDst n else s
    let d := lget {} s.tn.dst n
    if 65536 < recBytes d.buf + r.length ∨ s.dstRoom n < r.length then (s.loseRecs n 1, 1)
    else
      let d' := { d with buf := d.buf ++ [r], first := if d.buf.isEmpty then s.now else d.first }
      (s.updDst n (fun _ => d'), 0)

/-- Streams that take a record type: enabled, of the type, on a port the part has (R480, R491). -/
def State.takers (s : State) (ty : Nat) : List Nat :=
  (List.range 4).filter (fun n => s.rbit (aDst n) 31 && s.rbit (aDst n) (15 + ty) && s.hasPort (s.dstPort n))

/-- Produces a record (R481): `ty` its type, `pair` its die pair of origin, `body` what follows the header. The answer
says what the streams dropped, as enqueueRec does for one. -/
def State.produce (s : State) (ty pair : Nat) (body : List Byte) : State × Nat :=
  let seq := lget 0 s.tn.tseq ty
  let r := [BitVec.ofNat 8 ty, BitVec.ofNat 8 pair] ++ leBytes 2 (8 + body.length) ++ leBytes 4 seq ++ body
  let s := s.updTn (fun n => { n with tseq := lmod n.tseq ty (fun k => (k + 1) % 2 ^ 32) })
  (s.takers ty).foldl (fun (acc : State × Nat) n =>
    let (s', l) := acc.1.enqueueRec n r
    (s', acc.2 ||| l)) (s, 0)

/-- Puts an entry into the event log, which keeps its latest 65,535 entries, newest last (log entry 11). -/
def State.log (s : State) (e : LogEntry) : State :=
  let l := s.sdio.evLog ++ [e]
  s.updSdio (fun x => { x with evLog := l.drop (l.length - 65535) })

/-- The body of an EVENT record (R485). -/
def State.eventBody (s : State) (blk bit : Nat) : List Byte :=
  leBytes 2 blk ++ [BitVec.ofNat 8 bit] ++ leBytes 5 0 ++ le64 s.sp ++ leBytes 8 s.time64

/-- Sets an event bit whose loss feeds no further loss event: RECORDS_LOST and ARP_FAIL (R480). -/
def State.raiseQuiet (s : State) (bit : Nat) (arg : Nat := 0) : State :=
  let was := s.rbit aNetEvent bit
  let s := s.regSet aNetEvent (s.regGet aNetEvent ||| wordOf (2 ^ bit))
  if s.rbit (aNetEvent + 4) bit then
    let s := s.log (.event 13 bit arg s.time64)
    if was then s else (s.produce 6 0xFF (s.eventBody 13 bit)).1
  else s

/-- Produces a record, raising RECORDS_LOST when a stream drops it (R480), and ARP_FAIL when a destination was unresolved
(R478). -/
def State.emit (s : State) (ty pair : Nat) (body : List Byte) : State :=
  let (s, l) := s.produce ty pair body
  let s := if l / 2 % 2 = 1 then s.raiseQuiet 3 else s
  if l % 2 = 1 then s.raiseQuiet 0 else s

/-- Raises an event: sets bit `bit` of the event register at `a` and, with the bit enabled in the register that follows
it, logs the event and produces its EVENT record (R485). `arg` goes to the log. -/
def State.raise (s : State) (a bit : Nat) (arg : Nat := 0) : State :=
  let s := s.regSet a (s.regGet a ||| wordOf (2 ^ bit))
  if s.rbit (a + 4) bit then
    let s := s.log (.event (a / 65536) bit arg s.time64)
    let s := if a / 65536 = 0 then s.updSdio (fun x => { x with f1Pend := x.f1Pend ||| 4 }) else s
    let pair := if windowed (a / 65536) then windowOf a else 0xFF
    s.emit 6 pair (s.eventBody (a / 65536) bit)
  else s

/-! Event registers. -/
def evMgmt : Nat := 0x14
def evCourse : Nat := 0x10008
def evAcq : Nat := 0x20008
def evFabric (d : Nat) : Nat := 0x30004 + 0x4000 * d
def evStream (d : Nat) : Nat := 0x40008 + 0x4000 * d
def evKv (d : Nat) : Nat := 0x50008 + 0x4000 * d
def evMem : Nat := 0x60008
def evBond : Nat := 0x70004
def evServo : Nat := 0x80008
def evQp : Nat := 0x90008
def evMotion : Nat := 0xA0008
def evPlumb : Nat := 0xB0004
def evTime : Nat := 0xC0008
def evPower : Nat := 0xE0004
def evTest : Nat := 0xF0004
def evSec : Nat := 0x100008

/-! ### Window bases -/
def bFabric (d : Nat) : Nat := 0x30000 + 0x4000 * d
def bStream (d : Nat) : Nat := 0x40000 + 0x4000 * d
def bKv (d : Nat) : Nat := 0x50000 + 0x4000 * d

/-! ### Part figures -/
/-- Dies of the part. -/
def State.nDie (s : State) : Nat := if s.part == .vyu4140 then 4 else 2
/-- Camera connection groups of the part. -/
def State.nGrp (s : State) : Nat := if s.part == .vyu4140 then 8 else 4
/-- Quarry channels of the part. -/
def State.nQch (s : State) : Nat := if s.part == .vyu4140 then 16 else 8

/-- Folds a state change over a list. -/
def State.each {α : Type} (s : State) (l : List α) (f : State → α → State) : State := l.foldl f s

/-- Reads a bit of the present die pairs. -/
def State.dies (s : State) : List Nat := List.range s.nDie

/-- A command answers its next state. -/
abbrev Out := Host.Outcome State Fault Refusal

/-- A command whose condition does not hold changes nothing but the time. -/
def guardNext (c : Bool) (s : State) (f : State → State) : Out := .next (if c then f s else s)

end Sys2Proof.Machine
end

