-- ==== Sys2Proof/Machine/CourseCore.lean ====
section
/-!
DEFINITION. Strip position: the passing of time, the counters and which of them is the source of SP (R42 to R49), the
high-water mark and reversal (R53), position marks (R51, R227), and the coverage list of R352.
-/
namespace Sys2Proof.Machine

/-! ### Coverage (R352 to R354) -/

/-- Width of the grid, µm, from ACQ_GRID_COLS and ACQ_GRID_PITCH: (X0, X0 + width). -/
def State.gridX (s : State) : Int × Int :=
  let x0 := s.rint 0x20014
  let cols := s.rfld 0x20018 7 0
  let p := (s.regGet 0x20010).toNat
  (x0, x0 + (256 * cols * p / 65536 : Nat))

/-- Two coverage intervals merge (R354). -/
def covJoins (a b : Cov) : Bool :=
  a.cause == b.cause && a.chans == b.chans && a.x0 == b.x0 && a.x1 == b.x1 && a.flags == b.flags &&
    decide (a.spStart ≤ b.spEnd) && decide (b.spStart ≤ a.spEnd)

/-- Adds an interval to a coverage list, merging it with every interval it touches. -/
def covInsert (l : List Cov) (c : Cov) : List Cov :=
  let (j, r) := l.partition (covJoins c)
  r ++ [j.foldl (fun a b => { a with spStart := min a.spStart b.spStart, spEnd := max a.spEnd b.spEnd }) c]

/-- Writes a strip interval left uninspected into the coverage list, while a plan is RUNNING (R352). -/
def State.cover (s : State) (c : Cov) : State :=
  if s.bond.st == .running then s.updBond (fun b => { b with covs := covInsert b.covs c }) else s

/-- An interval over the whole grid and every channel. -/
def State.coverAll (s : State) (a b : Int) (cause : Nat) (flags : Nat := 0) : State :=
  let (x0, x1) := s.gridX
  s.cover { spStart := a, spEnd := b, x0 := x0, x1 := x1, chans := 15, cause := cause, flags := flags }

/-! ### Strip position -/

def aCourseCtrl : Nat := 0x10000
def aEnc (n : Nat) : Nat := 0x10100 + 0x10 * n
def aLg (g : Nat) : Nat := 0x10200 + 0x20 * g
def aOut (o : Nat) : Nat := 0x10400 + 8 * o

/-- Encoder input that feeds counter A, and counter B. -/
def State.srcA (s : State) : Nat := s.rfld aCourseCtrl 4 2
def State.srcBEnc (s : State) : Nat := s.rfld aCourseCtrl 7 5
/-- Counter B is enabled. -/
def State.bEn (s : State) : Bool := s.rbit aCourseCtrl 1
/-- The Course Unit counts. -/
def State.courseEn (s : State) : Bool := s.rbit aCourseCtrl 0 && s.mgmt.pow != .standby
/-- Counter A, counter B FAULTED: the input that feeds it is. The input SRC_B names counts as counter B's while B_EN is clear too:
its fault blocks RESYNC and shows in STATUS (log entry 81). -/
def State.faultA (s : State) : Bool := (s.encAt s.srcA).faulted
def State.faultB (s : State) : Bool := (s.encAt s.srcBEnc).faulted

/-- REVERSAL begins where SP lies more than REV_HYST below the high-water mark (R53). Strobes that have started for crossings
still to come are forgotten: the return run predicts those crossings anew (log entry 83). -/
def State.reverseCheck (s : State) : State :=
  let c := s.course
  if !c.reversal && decide (((s.regGet 0x1005C).toNat : Int) * umFine < c.hwm - c.sp) then
    let s := s.updCourse (fun c => { c with reversal := true, out := c.out.map (fun o => { o with early := [] }) })
    (s.raise evCourse 6).log (.reversal s.sp s.time64)
  else s

/-- SP has a new value: the high-water mark follows it, and REVERSAL begins or ends (R53). -/
def State.spMoved (s : State) (sp : Int) : State :=
  let c := s.course
  let s := s.updCourse (fun c => { c with sp := sp, hwmPrev := c.hwm })
  if c.hwm < sp then
    let s := s.updCourse (fun c => { c with hwm := sp, reversal := false })
    if c.reversal then s.raise evCourse 5 else s
  else s.reverseCheck

/-- The tick at which DR_LIMIT runs out (R48). -/
def State.drEnd (s : State) (d : DeadReck) : Nat := d.since + 500 * (s.regGet 0x10064).toNat

/-- SP while dead reckoning (R48): the speed at the second fault over the time since. -/
def reckoned (d : DeadReck) (now : Nat) : Int :=
  d.sp0 + Int.fdiv (d.speed * ((now - d.start : Nat) : Int) * (2 * umFine)) 1000000000

/-- Time passes to tick `t`: every clock advances, and SP while it is dead-reckoned, for at most DR_LIMIT. A tick in the past
passes no time. -/
def State.to (s : State) (t : Nat) : State :=
  if t ≤ s.now then s
  else
    let s := { s with now := t }
    match s.course.dr with
    | some d => s.spMoved (reckoned d (min t (s.drEnd d)))
    | none => s

/-- The inequality of R43, with SP and SP_sync in whole µm; suspended while a counter is FAULTED or B is disabled. -/
def State.xchkHolds (s : State) : Bool :=
  let c := s.course
  let tol := ((s.regGet 0x10054).toNat : Int)
  let ppm := ((s.regGet 0x10058).toNat : Int)
  s.bEn && !s.faultA && !s.faultB &&
    decide ((tol * 1000000 + ppm * (s.sp - Int.fdiv c.spSync umFine).natAbs) * umFine <
      (c.cntA - c.cntB - c.offset).natAbs * 1000000)

/-- The cross-check of a tick (R43). -/
def State.xcheck (s : State) : State :=
  let x := s.xchkHolds
  let was := s.course.xchk
  let s := s.updCourse (fun c => { c with xchk := x })
  if x && !was then s.raise evCourse 12 else s

/-- A failover (R45): SP keeps its value and follows the other counter. -/
def State.failover (s : State) (toB : Bool) : State :=
  (s.updCourse (fun c => { c with srcB := toB, spSync := c.sp, lastDelta := 0 })).raise evCourse 9

/-- Dead reckoning begins (R48). -/
def State.drStart (s : State) : State :=
  if s.course.dr.isSome || s.course.lost.isSome then s
  else (s.updCourse (fun c => { c with dr := some { since := s.now, start := s.now, sp0 := c.sp, speed := c.speed }, lastDelta := 0 })).raise
    evCourse 8

/-- Counter A, counter B can be the source: it is healthy, and B enabled. -/
def State.okA (s : State) : Bool := !s.faultA
def State.okB (s : State) : Bool := s.bEn && !s.faultB

/-- The table of R44, after a change of a counter's health. Dead reckoning ends as soon as a counter is healthy again. The
table has no row for B disabled while it is the latched source and A is healthy: the source then fails over to A, as it does
where B is FAULTED (log entry 81). -/
def State.evalSource (s : State) : State :=
  if !s.courseEn || s.course.lost.isSome then s
  else if !s.okA && !s.okB then s.drStart
  else
    let s := if s.course.dr.isSome then s.updCourse (fun c => { c with dr := none, lastEdge := s.now }) else s
    if s.course.srcB then (if s.okB then s else s.failover false) else (if s.okA then s else s.failover true)

/-- An encoder input becomes FAULTED (R41). -/
def State.encFault (s : State) (n : Nat) : State :=
  if (s.encAt n).faulted then s
  else
    let s := s.updEnc n (fun e => { e with faulted := true })
    let s := if s.srcA == n then s.raise evCourse 11 else s
    let s := if s.bEn && s.srcBEnc == n then s.raise evCourse 10 else s
    s.evalSource.xcheck

/-- An encoder error: ERRCNT advances, and the input is FAULTED at ERR_LIMIT errors within 1 ms (R40, R41). -/
def State.encError (s : State) (n : Nat) : State :=
  let s := s.bump (aEnc n + 0xC)
  let errs := s.now :: (s.encAt n).errs.filter (fun x => decide (s.now < x + 500000))
  let s := s.updEnc n (fun e => { e with errs := errs })
  if max (s.rfld (aEnc n) 23 20) 1 ≤ errs.length then s.encFault n else s

/-- Flags of R44 in every line stamp: SP_DOUBT, FAILOVER, SINGLE, DEAD_RECKONED, bit 0 to bit 3. -/
def State.stampFlags (s : State) : Nat :=
  if s.course.dr.isSome || s.course.lost.isSome || (!s.okA && !s.okB) then 8
  else b2n s.course.xchk + (if s.course.srcB then 2 else if s.bEn && s.faultB then 4 else 0)

/-- Encoder that feeds the source of SP. -/
def State.srcEnc (s : State) : Nat := if s.course.srcB then s.srcBEnc else s.srcA

/-- The fine position at the present tick, interpolated from the last edge (R58). -/
def State.finePos (s : State) : Int :=
  let c := s.course
  let e := s.encAt s.srcEnc
  match e.last, e.prev with
  | some l, some p =>
    let iv := l - p
    if c.dr.isSome || c.lost.isSome || iv = 0 || decide (500 * (s.regGet 0x10068).toNat < iv) || c.lastDelta == 0 || c.lastEdge ≠ l
    then c.sp
    else
      let adv := Int.tdiv (c.lastDelta * ((min (s.now - l) iv : Nat) : Int)) iv
      if 0 < c.lastDelta then c.sp + min adv (c.lastDelta - 1) else c.sp + max adv (c.lastDelta + 1)
  | _, _ => c.sp

/-! ### Position marks -/

/-- Records SP and time as a position mark in the event log and the result records (R51, R485), and posts it where the codes
of R227 ask: `origin` 0 a COIL_MARK, 1 a MARK instruction of program `p`. -/
def State.positionMark (s : State) (origin p code : Nat) : State :=
  let s := s.log (.mark code origin p s.sp s.time64)
  let s := s.emit 5 0xFF (le64 s.sp ++ leBytes 8 s.time64 ++ leBytes 2 code ++ [BitVec.ofNat 8 origin, BitVec.ofNat 8 p] ++
    leBytes 4 0)
  s.each s.dies (fun s d =>
    let c := s.regGet (bStream d + 0x24)
    let hit := if origin = 0 then wbit c 31 else wbit c 16 && fld c 15 0 == code
    if hit then s.updStream d (fun x =>
      { x with marks := ({ sp := s.sp, id := x.markId + 1 } :: x.marks).take 4, markId := x.markId + 1 }) else s)

end Sys2Proof.Machine
end

