-- ==== Sys2Proof/Machine/TableCore.lean ====
section
/-!
DEFINITION. What the stores of the Lintel dies hold in their fixed region (R281): the entries of the stream table (R212),
of the KV sequence table (R245) and the page descriptors (R250), with the taking and freeing of KV pages (R251, R259).
Also replies (R498) and deferred commands (R500), and the coverage of a tile set.
-/
namespace Sys2Proof.Machine

/-! ### Replies -/

/-- Queues a reply to a packet; once a DEVICE_RESET has been answered, packets get none (R498). -/
def State.reply (s : State) (p : Packet) (status : Nat) (bytes : List Byte := []) : State :=
  if s.mgmt.resetAt.isSome then s
  else s.updSdio (fun x => { x with
    replies := x.replies ++ [{ status := status, tag := p.tag, client := p.client, opcode := p.opcode, bytes := bytes }],
    f1Pend := x.f1Pend ||| 1 })

/-- Answers the deferred commands for which `f` gives a status and a result, and ends them. -/
def State.answerDeferred (s : State) (f : Deferred → Option (Nat × List Byte)) : State :=
  let hit := s.sdio.deferred.filter (fun d => (f d).isSome)
  let s := s.updSdio (fun x => { x with deferred := x.deferred.filter (fun d => (f d).isNone) })
  s.each hit (fun s d => match f d with
    | some (st, bs) => s.reply d.pkt st bs
    | none => s)

/-- The inbound transfer at the head of the queue becomes ACTIVE (R515). -/
def State.bulkNext (s : State) : State :=
  match s.sdio.inAct, s.sdio.inQ with
  | none, x :: q => s.updSdio (fun y => { y with
      inQ := q, inAct := some { x with at_ := s.now }, inTag := x.d.pkt.client % 16 * 2 ^ 24 + x.d.pkt.tag % 65536,
      f2Pend := y.f2Pend ||| 1 })
  | _, _ => s

/-- Inbound commands for which `f` holds end with a status, and their bytes are discarded. -/
def State.bulkEnd (s : State) (f : HostCmd → Bool) (status : Nat) : State :=
  let x := s.sdio
  let hit := (x.checks ++ x.inAct.toList ++ x.inQ).filter (fun i => f i.d.pkt.cmd)
  let keep (i : Inbound) : Bool := !f i.d.pkt.cmd
  let s := s.updSdio (fun x => { x with checks := x.checks.filter keep, inAct := x.inAct.filter keep, inQ := x.inQ.filter keep })
  (s.each hit (fun s i => s.reply i.d.pkt status)).bulkNext

/-- A bulk load of the line-side engine (area 0x06xx). -/
def HostCmd.lineLoad : HostCmd → Bool
  | .qpLoad _ _ => true
  | .sdfLoad _ _ => true
  | .occLoad _ _ _ _ => true
  | _ => false

/-! ### Bytes of a Lintel store -/

/-- Reads n bytes of Lintel die d as a number. -/
def State.lin (s : State) (d off n : Nat) : Nat := s.ldN (memKey (spLintel d) off) n
/-- Writes n bytes of Lintel die d. -/
def State.linSt (s : State) (d off n v : Nat) : State := s.stN (memKey (spLintel d) off) n v

/-! ### Stream table (R211 to R214) -/

def ctxOff (c : Nat) : Nat := 0x06030000 + c % 65536 * 64
/-- Die pair of a context. -/
def ctxDie (c : Nat) : Nat := c / 65536 % 4
/-- A field of a context entry. -/
def State.ctx (s : State) (c off n : Nat) : Nat := s.lin (ctxDie c) (ctxOff c + off) n
def State.ctxSt (s : State) (c off n v : Nat) : State := s.linSt (ctxDie c) (ctxOff c + off) n v
/-- A bit of FLAGS: 7 VALID, 4 PINNED, 3 RESET_PENDING, 2 FAULT, 1 DIRTY, 0 MARK_RESET. -/
def State.ctxFlag (s : State) (c i : Nat) : Bool := (s.ctx c 12 1).testBit i
def State.ctxSetFlag (s : State) (c i : Nat) (v : Bool) : State :=
  let f := s.ctx c 12 1
  s.ctxSt c 12 1 (f - b2n (f.testBit i) * 2 ^ i + b2n v * 2 ^ i)
/-- RESIDENCY (R213): 0 SWAPPED, 1 SWAPPING_IN, 2 RESIDENT, 3 SWAPPING_OUT. -/
def State.ctxRes (s : State) (c : Nat) : Nat := bitsOf (s.ctx c 12 1) 6 5
def State.ctxSetRes (s : State) (c v : Nat) : State :=
  let f := s.ctx c 12 1
  s.ctxSt c 12 1 (f - bitsOf f 6 5 * 32 + v % 4 * 32)
/-- STATE_SIZE in bytes. -/
def State.ctxBytes (s : State) (c : Nat) : Nat := s.ctx c 8 2 * 64
def State.ctxLastSp (s : State) (c : Nat) : Int := signedOf 64 (s.ctx c 16 8)
/-- The context exists on the part (R211). -/
def State.ctxOk (s : State) (c : Nat) : Bool := decide (c < 0x40000) && s.hasDie (ctxDie c)
/-- OWNER. -/
def State.ctxOwner (s : State) (c : Nat) : Nat := s.ctx c 13 1 / 16

/-- The queue of a context. -/
def State.ctxQueue (s : State) (c : Nat) : List Chunk :=
  match (s.streamAt (ctxDie c)).queue.find? (fun p => p.1 == c) with
  | some p => p.2
  | none => []

/-- Sets the queue of a context, and QUEUED with it. -/
def State.ctxSetQueue (s : State) (c : Nat) (q : List Chunk) : State :=
  let d := ctxDie c
  let s := s.updStream d (fun x =>
    let r := x.queue.filter (fun p => p.1 != c)
    { x with queue := if q.isEmpty then r else r ++ [(c, q)] })
  s.ctxSt c 13 1 (s.ctxOwner c * 16 + min q.length 15)

/-- Adds to an entry of a per-client count. -/
def countAdd (l : List (Nat × Nat)) (k n : Nat) : List (Nat × Nat) :=
  let old := match l.find? (fun p => p.1 == k) with
    | some p => p.2
    | none => 0
  (k, old + n) :: l.filter (fun p => p.1 != k)

/-- The count of a key. -/
def countOf (l : List (Nat × Nat)) (k : Nat) : Nat :=
  match l.find? (fun p => p.1 == k) with
  | some p => p.2
  | none => 0

/-- A chunk is lost (R224): LOST and the window's count advance, CHUNK_LOST is raised, and its steps are uninspected for the
stream. Reset points that fell in them are kept for the next chunk. -/
def State.chunkLost (s : State) (k : ChunkInfo) : State :=
  let c := k.ctx
  let s := if k.steps = 0 then s else s.updStream (ctxDie c) (fun x => { x with
    lostSp := (c, k.last) :: x.lostSp.filter (fun p => p.1 != c)
    lostIn := if k.resetIn then countAdd x.lostIn c 1 else x.lostIn })
  let s := s.ctxSt c 14 2 (satAdd 16 (s.ctx c 14 2) 1)
  let s := (s.bump (bStream (ctxDie c) + 0x2C)).raise (evStream (ctxDie c)) 3
  let (x0, x1) := s.gridX
  if k.sp0 < k.sp1 then s.cover { spStart := k.sp0, spEnd := k.sp1, x0 := x0, x1 := x1, chans := 0, cause := 10, flags := 0 } else s

/-! ### KV sequences and pages -/

def seqOff (q : Nat) : Nat := 0x06430000 + q % 1024 * 32
def seqDie (q : Nat) : Nat := q / 1024 % 4
def State.seqf (s : State) (q off n : Nat) : Nat := s.lin (seqDie q) (seqOff q + off) n
def State.seqSt (s : State) (q off n v : Nat) : State := s.linSt (seqDie q) (seqOff q + off) n v
def State.seqOpen (s : State) (q : Nat) : Bool := (s.seqf q 28 1).testBit 7
def State.seqOwner (s : State) (q : Nat) : Nat := s.seqf q 27 1 % 16
def State.seqOk (s : State) (q : Nat) : Bool := decide (q < 4096) && s.hasDie (seqDie q)
/-- Head dimension of a DIM code. -/
def dimOf (c : Nat) : Nat := 32 * 2 ^ c

/-- A page descriptor, as its fields. -/
structure PageDesc where
  ref : Nat
  pin : Nat
  fill : Nat
  kind : Nat
  dim : Nat
  q4 : Bool
  fault : Bool
  live : Bool
  next : Nat
  deriving DecidableEq, Repr, Inhabited

def pageOff (n : Nat) : Nat := 0x06440000 + 8 * n

def pageDecode (w : Nat) : PageDesc :=
  { ref := bitsOf w 63 48, pin := bitsOf w 47 40, fill := bitsOf w 39 33, kind := bitsOf w 32 32, dim := bitsOf w 31 30,
    q4 := w.testBit 29, fault := w.testBit 28, live := w.testBit 27, next := bitsOf w 18 0 }

def pageCode (p : PageDesc) : Nat :=
  p.ref % 2 ^ 16 * 2 ^ 48 + p.pin % 2 ^ 8 * 2 ^ 40 + p.fill % 2 ^ 7 * 2 ^ 33 + p.kind % 2 * 2 ^ 32 + p.dim % 4 * 2 ^ 30 +
    b2n p.q4 * 2 ^ 29 + b2n p.fault * 2 ^ 28 + b2n p.live * 2 ^ 27 + p.next % 2 ^ 19

def State.pageD (s : State) (d n : Nat) : PageDesc := pageDecode (s.lin d (pageOff n) 8)
def State.pageSt (s : State) (d n : Nat) (p : PageDesc) : State := s.linSt d (pageOff n) 8 (pageCode p)

/-- The end of the free list. -/
def noPage : Nat := 0x7FFFF

/-- Stores a descriptor, and returns the page to the free list when nothing names or pins it (R259). -/
def State.pageSettle (s : State) (d n : Nat) (p : PageDesc) : State :=
  if p.live && p.ref == 0 && p.pin == 0 then
    let head := (s.kvAt d).freeHead
    (s.pageSt d n { p with live := false, next := head }).updKv d (fun k => { k with freeHead := n })
  else s.pageSt d n p

/-- Removes one reference to a page. -/
def State.pageUnref (s : State) (d n : Nat) : State :=
  let p := s.pageD d n
  s.pageSettle d n { p with ref := p.ref - 1 }

/-- Adds or removes one pin of a page. -/
def State.pagePin (s : State) (d n : Nat) : State :=
  let p := s.pageD d n
  s.pageSt d n { p with pin := p.pin + 1 }
def State.pageUnpin (s : State) (d n : Nat) : State :=
  let p := s.pageD d n
  s.pageSettle d n { p with pin := p.pin - 1 }

/-- Takes a page from the free list (R251). -/
def State.pageTake (s : State) (d : Nat) (kind dim : Nat) (q4 : Bool) : State × Option Nat :=
  let n := (s.kvAt d).freeHead
  if n == noPage then (s, none)
  else
    let p := s.pageD d n
    let s := s.updKv d (fun k => { k with freeHead := p.next })
    (s.pageSt d n { ref := 1, pin := 0, fill := 0, kind := kind, dim := dim, q4 := q4, fault := false, live := true, next := 0 },
      some n)

/-! ### Injections (R585) -/

/-- The injection registers, in the order of TEST_STATUS [4:0]. -/
def injReg (i : Nat) : Nat := lget 0xF0050 [0xF0050, 0xF0054, 0xF005C, 0xF0060, 0xF0064] i

/-- An injection has been delivered: ARM clears, but for PERSIST, and it is counted, raised and logged. -/
def State.delivered (s : State) (i : Nat) : State :=
  let a := injReg i
  let w := s.regGet a
  let s := s.log (.injection a w s.time64)
  let s := (s.setFld 0xF0014 31 16 (s.rfld 0xF0014 31 16 + 1)).raise evTest 4
  if i = 1 ∧ wbit w 30 then s
  else (s.regSet a (w &&& 0x7FFFFFFF#32)).updInj i (fun x => { x with armed := false, left := 0 })

/-- One unit of an armed injection is delivered; the last one ends it. -/
def State.injStep (s : State) (i : Nat) : State :=
  let n := (s.injAt i).left
  if n ≤ 1 then s.delivered i else s.updInj i (fun x => { x with left := n - 1 })

/-! ### Coverage of tile sets -/

/-- P, 2⁻²⁴ µm (R87): grid rows lie at r × P. -/
def State.pitchFine (s : State) : Int := ((s.regGet 0x20010).toNat : Int) * 256

/-- SP of the first row of a band, 256 × band × P, in whole µm (R95). -/
def State.bandSp (s : State) (band : Int) : Int := Int.fdiv (256 * band * s.pitchFine) umFine

/-- A tile set (column of the grid, band) is left uninspected (R353), on the channels of the mask. -/
def State.coverTile (s : State) (col : Nat) (band : Int) (cause : Nat) (chans : Nat := 15) : State :=
  let x := (s.gridX).1
  s.cover { spStart := s.bandSp band, spEnd := s.bandSp (band + 1), x0 := x + s.bandSp col, x1 := x + s.bandSp (col + 1), chans := chans, cause := cause, flags := 0 }

end Sys2Proof.Machine
end

