-- ==== Sys2Proof/Machine/SafetyCore.lean ====
section
/-!
DEFINITION. What every chapter may set off: fallback of the line targets (R454), the safe state and its restart (R453 to
R458), die-pair restarts (R539, R540), the failure of cores and die pairs (R138 to R143, R150), and the window watchdogs
(R444 to R446). Also the end of a task (R320), which a restart brings to every task in flight.
-/
namespace Sys2Proof.Machine

/-! ### Line targets -/

/-- Target t is a line target (R428). -/
def State.isTarget (s : State) (t : Nat) : Bool :=
  if t < 16 then true
  else if t < 24 then s.rbit (0x80C00 + 0x10 * (t - 16)) 30
  else if t < 56 then wbit (s.regGet 0x8003C) (t - 24)
  else decide (t < 80) && s.rbit (aOut (t - 56)) 24

/-- Target t is judged as a value (R428). -/
def valueTarget (t : Nat) : Bool := decide (t < 24)

/-- KIND of a target's fallback entry; 3 is taken as OFF (R454). -/
def State.fbKind (s : State) (t : Nat) : Nat :=
  let k := s.rfld (0xB1000 + 8 * t) 31 30
  if k = 3 then 0 else k

/-- The fallback hardware takes a target over (R454). -/
def State.fallback (s : State) (t : Nat) : State :=
  let k := s.fbKind t
  let v := s.regGet (0xB1004 + 8 * t)
  s.updTarget t (fun x =>
    let x := { x with inFallback := true, releasing := false, permit := false }
    if t < 16 then { x with applied := some 0#32 }
    else if t < 24 then (if k = 2 then x else { x with applied := some v })
    else (if k = 2 then x else { x with level := k == 1 }))

/-- Every line target goes to fallback. -/
def State.fallbackAll (s : State) : State :=
  s.each ((List.range 80).filter s.isTarget) State.fallback

/-- The permit bit that governs a permit target (R431): the one in force, or the one formed in the round that has ended. -/
def State.permitNow (s : State) (t : Nat) : Bool :=
  if s.plumb.st == .split then true
  else if s.now < s.plumb.roundAt + 6250 then (s.targetAt t).permit
  else
    let v : Verdict := lget {} s.plumb.verdicts t
    v.permit && v.deny.isNone

/-- A change of a permit target to level v is blocked: its permit bit is clear, and the change is not to its fallback level. -/
def State.blocked (s : State) (t : Nat) (v : Bool) : Bool :=
  s.isTarget t && !(s.targetAt t).inFallback && (s.targetAt t).level != v && !s.permitNow t &&
    !(s.fbKind t == 0 && !v) && !(s.fbKind t == 1 && v)

/-- A change of a permit target's requested level (R442): applied while its permit bit is set, or where it moves the target
to its fallback level; else not applied and counted. In fallback the target does not follow. -/
def State.drive (s : State) (t : Nat) (v : Bool) : State :=
  if !s.isTarget t || (s.targetAt t).inFallback then s
  else if s.blocked t v then s.bump 0xB0038
  else s.updTarget t (fun x => { x with level := v })

/-- A target leaves fallback on its own terms (R456): it is held until its next passed value or permit. -/
def State.releaseTargets (s : State) : State :=
  (s.updPlumb (fun p => { p with safe := false, untilClear := false, recovered := false })).each (List.range 80) (fun s t =>
    s.updTarget t (fun x => if x.inFallback && !x.byDeny then { x with releasing := true } else x))

/-- Vyuri is READY, in RUN, with no transition in progress. -/
def State.inRun (s : State) : Bool := s.mgmt.st == .ready && s.mgmt.pow == .run && s.mgmt.powTo.isNone

/-- A safety restart runs. -/
def State.restarting (s : State) : Bool := s.plumb.restart.isSome

/-- RULES_EN has been set on a READY device. -/
def State.rulesOnce (s : State) : Bool := s.plumb.dual || (s.mgmt.st == .ready && s.rbit 0xB0010 0)

/-- Plumb samples in DUAL mode (R433). -/
def State.plumbDual (s : State) : Bool :=
  let p := s.plumb
  s.rulesOnce && p.resyncLeft == 0 && !s.restarting && !p.recovering && p.st != .starting && p.st != .split &&
    !(p.slice.any (fun x => [2, 3, 4, 7].contains x.cls))

/-- PLUMB_STATUS (R461). -/
def State.plumbStatus (s : State) : Nat :=
  let p := s.plumb
  let st := match p.st with
    | .starting => 0 | .healthy => 1 | .resync => 2 | .safeRestart => 3 | .lockout => 4 | .failed => 5 | .split => 6
  128 * b2n p.latent + 64 * b2n ((List.range 80).any (fun t => s.isTarget t && (s.targetAt t).inFallback)) +
    32 * b2n p.restart.isSome + 16 * b2n s.plumbDual + st

/-- STATE of BOND_STATUS (R356). -/
def PlanState.code : PlanState → Nat
  | .empty => 0 | .loaded => 1 | .admitted => 2 | .running => 3 | .stopping => 4

/-- BOND_VLIMIT: the greatest proven speed of any variant (R336); a completed re-admission's from its completion (R348). -/
def State.vlimit (s : State) : Nat := (s.bond.readmitted.getD s.bond.adm).vp.foldl max 0

/-! ### The end of a task -/

/-- OUTCOME (R321). -/
def TaskOut.code : TaskOut → Nat
  | .ok => 0 | .okEmpty => 1 | .progErr => 2 | .opDescErr => 3 | .arithDescErr => 4 | .coreFault => 5 | .memFault => 6
  | .memUnmapped => 7 | .memLost => 8 | .streamOrder => 9 | .streamQfull => 10 | .streamOff => 11 | .kvNospace => 12
  | .kvOrder => 13 | .kvCapacity => 14 | .kvStaleStats => 15 | .kvOff => 16 | .adaptOff => 17 | .shed => 18 | .lost => 19

/-- OK and OK_EMPTY. -/
def TaskOut.good : TaskOut → Bool
  | .ok => true | .okEmpty => true | _ => false

/-- The graph in flight of an identifier. -/
def State.graphOf (s : State) (g : Nat) : Option GraphInst := s.bond.graphs.find? (fun x => x.id == g)

/-- Changes one graph in flight. -/
def State.updGraph (s : State) (g : Nat) (f : GraphInst → GraphInst) : State :=
  s.updBond (fun b => { b with graphs := b.graphs.map (fun x => if x.id == g then f x else x) })

/-- The account of a client on a die pair. -/
def State.account (s : State) (client die : Nat) : Account :=
  match s.bond.accounts.find? (fun p => p.1 == 4 * client + die) with
  | some p => p.2
  | none => {}

/-- Changes an account. -/
def State.updAccount (s : State) (client die : Nat) (f : Account → Account) : State :=
  let a := f (s.account client die)
  s.updBond (fun b => { b with accounts := (4 * client + die, a) :: b.accounts.filter (fun p => p.1 != 4 * client + die) })

/-- Writes a task's completion record (R320) and adds its counts to the account (R351). -/
def State.completion (s : State) (d : Nat) (r : RunTask) (out : TaskOut) (cycles : Nat) : State :=
  let g := s.graphOf r.graph
  let client := match g with | some g => g.client | none => 15
  let rel := match g with | some g => if g.client = 15 then g.relSp else 0 | none => 0
  let beyond := decide (r.wcet < cycles)
  let c := r.cnt
  let rec_ := [BitVec.ofNat 8 out.code, BitVec.ofNat 8 (b2n r.shardMiss + 2 * b2n r.tierSubst + 4 * b2n beyond)] ++
    leBytes 2 c.sat ++ leBytes 1 c.escOut ++ leBytes 1 c.escMiss ++ leBytes 2 c.escOvf ++ leBytes 2 c.nan ++
    leBytes 2 r.emptyRow ++ leBytes 4 cycles ++ leBytes 2 r.task ++ leBytes 2 r.inst ++ leBytes 4 r.graph ++ le64 rel
  let s := if r.compAddr = 0 then s else s.stBytes (memKey (spLintel d) r.compAddr) rec_
  s.updAccount client d (fun a => { a with
    cycles := a.cycles + cycles, msCycles := a.msCycles + cycles, sat := satAdd 32 a.sat c.sat, nan := satAdd 32 a.nan c.nan,
    escOvf := satAdd 32 a.escOvf c.escOvf, emptyRow := satAdd 32 a.emptyRow r.emptyRow })

/-- Occupancy of a task that ends (R127): exactly the dispatch overhead where it was empty, and never less where it ended of
itself. -/
def State.occupancy (s : State) (r : RunTask) (out : TaskOut) : Nat :=
  match out with
  | .okEmpty => r.minCyc
  | .lost => s.cycles - r.start
  | _ => max r.minCyc (s.cycles - r.start)

/-- The task of a slot ends: its record, its KV pins, its core's busy count and free slot; bursts still queued for it have no
one waiting. What its graph and its stream
context make of it is the caller's. -/
def State.endRun (s : State) (d i : Nat) (r : RunTask) (out : TaskOut) : State :=
  let cycles := s.occupancy r out
  let p := (s.slotAt d i).core
  let s := s.completion d r out cycles
  let s := s.each r.pins (fun s n => s.pageUnpin d n)
  let a := bFabric d + 0x1000 + 0x20 * p
  let busy := (s.regGet a).toNat + 2 ^ 32 * (s.regGet (a + 4)).toNat + cycles
  let s := ((s.regSet a (wordOf busy)).regSet (a + 4) (wordOf (busy / 2 ^ 32))).bump (a + 8)
  let free (b : Burst) : Burst := if b.who == some (d, i) then { b with who := none } else b
  let s := s.updMt (fun m => { m with
    qch := m.qch.map (fun q => { q with plan := q.plan.map free, client := q.client.map free }) })
  s.updDie d (fun x => { x with run := lmod x.run i (fun _ => none) })

/-! ### Engines reset (R137, R225, R259) -/

/-- Every task in flight on a die pair ends LOST, its running chunks are lost, and the queued chunks of the pair's contexts
are removed. -/
def State.loseTasks (s : State) (d : Nat) : State :=
  let s := s.each (List.range 48) (fun s i => match s.runAt d i with
    | some r => match r.chunk with
      | some k => (s.endRun d i r .lost).chunkLost k
      | none => s.endRun d i r .lost
    | none => s)
  let s := s.each ((s.streamAt d).queue.map (·.1)) (fun s c => s.ctxSetQueue c [])
  let s := s.updStream d (fun x => { x with reqs := [], claims := [] })
  s.updDie d (fun x => { x with core := x.core.map (fun c => { c with vreg := [], vside := [], drainQ := [], conv := [], mvBuf := [], reload := true }) })

/-- Tasks of the same frame in other die pairs that wait for a task of a graph that will not deliver it go on without that
shard (R146). -/
def State.shardGone (s : State) (g : GraphInst) (gone : Nat → Bool) : State :=
  let hit (c : Nat × Nat × Nat) : Bool := c.1 == g.die && c.2.1 == g.tpl && gone c.2.2
  s.updBond (fun b => { b with graphs := b.graphs.map (fun x =>
    if x.frame == g.frame && g.tile.isNone then
      { x with tasks := x.tasks.map (fun k => if k.cross.any hit then
        { k with cross := k.cross.filter (fun c => !hit c), shardMiss := true } else k) }
    else x) })

/-- The graphs of a die pair are lost: their tile sets are uninspected with the cause, and GRAPH_WAIT is answered (R503 in
a safety restart; else with the outcomes counted). -/
def State.loseGraphs (s : State) (d cause : Nat) (safety : Bool) : State :=
  let gs := s.bond.graphs.filter (fun g => g.die == d)
  let s := s.each gs (fun s g =>
    let s := match g.tile with
      | some (col, band) => s.coverTile col band cause
      | none => s
    let left := (g.tasks.map (fun t => t.total - t.done)).sum
    s.answerDeferred (fun x => match x.pkt.cmd with
      | .graphWait id => if id == g.id then
          some (if safety then (0x0603, []) else (0, leBytes 4 g.okCnt ++ leBytes 4 (g.otherCnt + left))) else none
      | _ => none))
  let s := s.updBond (fun b => { b with graphs := b.graphs.filter (fun g => g.die != d) })
  s.each gs (fun s g => s.shardGone g (fun _ => true))

/-! ### Window watchdogs (R444 to R446) -/

def aWd (st : Nat) : Nat := 0xB0100 + 0x10 * (st - 1)

/-- STAGE_WIN of the running plan for the close of a stage, µs. -/
def State.stageClose (s : State) (st : Nat) : Nat :=
  match s.bond.plan with
  | none => 0
  | some p => if 3 ≤ st ∧ st ≤ 6 then ((p.stageWin.drop 2).take (st - 2)).sum else lget 0 p.stageWin (st - 1)

/-- A reference event opens a watch of a stage. Watches open only while a plan is RUNNING: stages 3 to 8 by R446, stages 1
and 2 because their windows are those of the running plan (R444). -/
def State.watchOpen (s : State) (st id : Nat) : State :=
  if s.bond.st != .running then s
  else
    let g := s.stageAt (st - 1)
    if 4096 ≤ g.watches.length then s.bump (aWd st + 0xC)
    else
      let r := s.regGet 0xF0060
      let inj := if (s.injAt 3).armed && fld r 30 28 == st - 1 then fld r 27 24 else 0
      let s := if inj = 0 then s else s.injStep 3
      let w : Watch := { id := id, opened := s.now, closes := s.now + 500 * s.stageClose st, inj := inj }
      s.updStage (st - 1) (fun g => { g with watches := g.watches ++ [w] })

/-- Sets [31:24] CONSEC and [23:0] the last elapsed time of a stage. -/
def State.wdStatus (s : State) (st consec ticks : Nat) : State :=
  s.regSet (aWd st + 4) (wordOf (min consec 255 * 2 ^ 24 + min (ticks / 500) 0xFFFFFF))

/-! ### Restarts -/

/-- Firmware re-admits the running plan (R347); while a re-admission runs, another follows it (R593). -/
def State.readmit (s : State) : State :=
  if s.bond.st == .running then s.updBond (fun b => { b with readmitAgain := b.readmitting, readmitting := true }) else s

/-- The resumption of a die pair's plan is awaited, for the cause of R353. -/
def State.awaitResume (s : State) (d cause : Nat) : State :=
  if s.bond.st == .running then
    s.updBond (fun b => { b with resume := (d, cause) :: b.resume.filter (fun p => p.1 != d) })
  else s

/-- A PERSIST injection into a core store of a die pair that a restart resets is cancelled (R585). -/
def State.injLost (s : State) (d : Nat) : State :=
  let w := s.regGet 0xF0054
  if wbit w 31 && wbit w 30 && fld w 26 24 == 1 && fld w 23 22 == d then
    let s := (s.regSet 0xF0054 (w &&& 0x7FFFFFFF#32)).updTest (fun x => { x with
      persist := [], inj := lmod x.inj 1 (fun y => { y with armed := false, left := 0 }) })
    (s.setFld 0xF0014 15 0 (s.rfld 0xF0014 15 0 + 1)).raise evTest 3
  else s

/-- A die pair starts a die-pair restart (R539); a request during a safety restart or a restart of the pair is absorbed
(R457, R540), and a pair that is OFF, in BIST or FAILED takes none. -/
def State.pairRestart (s : State) (d : Nat) : State :=
  let st := (s.dieAt d).st
  if s.restarting || !(st == .ready || st == .running) then s
  else
    let ids := (s.bond.graphs.filter (fun g => g.die == d)).map (·.id)
    let s := s.each [2, 3, 4, 5] (fun s i =>
      s.updStage i (fun g => { g with watches := g.watches.filter (fun w => !ids.contains w.id) }))
    let s := (((s.loseTasks d).loseGraphs d 6 false).awaitResume d 6).injLost d
    s.updDie d (fun x => { x with st := .restarting })

/-- The line-side engine is reset (R360, R385, R421): sets in force, queues and trajectories are lost; axis positions and
the list of taken REQ_IDs stay. -/
def State.lineReset (s : State) : State :=
  s.updLine (fun l => { l with
    axis := l.axis.map (fun a => { a with
      st := .off, cause := 0, resyncNeeded := false, resume := false,
      cmd := none, first := true, f := List.replicate 64 0#32, feCnt := 0, rampAt := none, samp := false, frame := false,
      clamped := false, out := 0#32, uPrev := 0#32, stepFrac := 0, steps := 0, anchor := .none, vref := 0#32 }),
    dacCmd := List.replicate 8 none,
    qp := l.qp.map (fun q => { q with
      st := .off, warm := none, z := none, w := [], outs := none, applied := [], outcome := 6,
      fallbacks := 0 }),
    car := l.car.map (fun c => { c with queue := [], traj := none, committed := false, st := .off, toolUntil := none }),
    batch := none, hostReqs := [] })

/-- A safety trigger (R453): counted, with the targets in fallback; while Vyuri is READY and in RUN, and no restart runs, it
starts a safety restart (R455), else none (R457, R540). -/
def State.safeTrigger (s : State) (cause code : Nat) : State :=
  let s := s.bumpHi 0xB001C
  let same := s.plumb.triggers.head?.any (fun t => decide (s.plumb.roundAt ≤ t)) &&
    decide (s.rfld 0xB0020 31 24 ≤ cause)
  let s := s.updPlumb (fun p => { p with safeTicks := s.now :: p.safeTicks })
  let latch (s : State) : State :=
    if same then s
    else ((s.regSet 0xB0020 (wordOf (cause * 2 ^ 24 + code % 256 * 2 ^ 16))).regSet 0xB0024
      (wordOf (codeOf 64 s.sp))).regSet 0xB0028 (wordOf (codeOf 64 s.sp / 2 ^ 32))
  if s.restarting then
    (if s.plumb.triggers.head?.any (fun t => decide (s.plumb.roundAt ≤ t)) then latch s else s)
  else
    let s := (((latch s).fallbackAll).raise evPlumb 9).updPlumb (fun p => { p with safe := true })
    if !s.inRun then s.updPlumb (fun p => { p with untilClear := true })
    else
      let win := 500000000 * max 1 (s.rfld 0xB0010 23 8)
      let trig := s.now :: s.plumb.triggers.filter (fun t => decide (s.now < t + win))
      let beyond := decide (s.rfld 0xB0010 31 24 < trig.length)
      let s := s.updPlumb (fun p => { p with
        triggers := trig, restart := some { since := s.now, cause := cause }, held := true,
        st := if p.st == .failed || p.st == .split then p.st else .safeRestart,
        resyncLeft := 0, slice := none, stages := p.stages.map (fun g => { g with watches := [] }) })
      let s := if beyond && s.plumb.lockWhy == 0 then
          (s.updPlumb (fun p => { p with lockWhy := 3 })).raise evPlumb 6 else s
      let s := s.each s.dies (fun s d =>
        let st := (s.dieAt d).st
        if st == .failed || st == .off then s
        else ((((s.loseTasks d).loseGraphs d 5 true).awaitResume d 5).injLost d).updDie d (fun x => { x with st := .restarting }))
      s.lineReset.bulkEnd HostCmd.lineLoad 0x0603

/-- A lock-step fault (R435). -/
def State.lockstepFault (s : State) : State :=
  if s.plumb.st == .split then s
  else
    let s := (s.updPlumb (fun p => { p with st := .failed, okA := false, okB := false, resyncLeft := 0 })).raise evPlumb 11
    s.fallbackAll.safeTrigger 1 0

/-- The action of a violation (R445, R448): 0 LOG, 2 PAIR_RESTART where a pair is named, otherwise the safe state. -/
def State.stageAction (s : State) (action : Nat) (die : Option Nat) (cause code : Nat) : State :=
  match action, die with
  | 0, _ => s
  | 2, some d => s.pairRestart d
  | _, _ => s.safeTrigger cause code

/-- A watch of a stage is violated (R445): LATE or EARLY, after an elapsed time. -/
def State.violation (s : State) (st : Nat) (late : Bool) (ticks : Nat) (die : Option Nat) : State :=
  let s := if late then s.bumpHi (aWd st + 8) else s.bumpLo (aWd st + 8)
  let n := (s.stageAt (st - 1)).consec + 1
  let s := (s.updStage (st - 1) (fun g => { g with consec := n })).wdStatus st n ticks
  if n < max 1 (s.rfld (aWd st) 29 24) then s
  else
    let s := s.raise evPlumb 5
    s.stageAction (s.rfld (aWd st) 31 30) (if 3 ≤ st ∧ st ≤ 6 then die else none) 5 st

/-- The die pair of a watch of stages 3 to 6: that of its graph. -/
def State.watchDie (s : State) (st id : Nat) : Option Nat :=
  if 3 ≤ st ∧ st ≤ 6 then (s.graphOf id).map (·.die) else none

/-- A kick closes a watch: EARLY before MIN_US, else within the window, or LATE past its close. An injected LATE watch
ignores its kicks (R587). -/
def State.watchKick (s : State) (st id : Nat) : State :=
  match (s.stageAt (st - 1)).watches.find? (fun w => w.id == id && w.inj != 1) with
  | none => s
  | some w =>
    let el := s.now - w.opened
    let die := s.watchDie st id
    let s := s.updStage (st - 1) (fun g => { g with watches := g.watches.erase w })
    if w.closes < s.now then s.violation st true el die
    else if el < 500 * s.rfld (aWd st) 23 0 then s.violation st false el die
    else (s.updStage (st - 1) (fun g => { g with consec := 0 })).wdStatus st 0 el

/-- Opens a watch, kicked at once when an injection asks for it (R587). -/
def State.watchRef (s : State) (st id : Nat) : State :=
  let s := s.watchOpen st id
  if (s.stageAt (st - 1)).watches.any (fun w => w.id == id && w.inj == 2) then s.watchKick st id else s

/-! ### The end of a graph -/

/-- Slot a task of a graph names: the role's slot for a plan graph, the slot itself for a client graph. -/
def slotOf (g : GraphInst) (e : TaskEntry) : Nat := if g.client = 15 then lget 0 g.roleSlot e.slot else e.slot

/-- A graph whose tasks are all done completes: GRAPH_WAIT is answered, its stage watch is kicked when its work is PATH
work, and a Keystone result waits for its comparison. -/
def State.graphCheck (s : State) (g : Nat) : State :=
  match s.graphOf g with
  | none => s
  | some x =>
    if x.tasks.any (fun t => t.st != .done) then s
    else
      let s := if x.kind == .path then s.watchKick x.stage x.id else s
      let s := s.updBond (fun b => { b with
        graphs := b.graphs.filter (fun y => y.id != g),
        finished := ((g, x.client, x.okCnt, x.otherCnt) :: b.finished).take 512,
        ksPending := if x.kind == .keystone then some (x.die, g) else b.ksPending })
      s.answerDeferred (fun d => match d.pkt.cmd with
        | .graphWait id => if id == g then some (0, leBytes 4 x.okCnt ++ leBytes 4 x.otherCnt) else none
        | _ => none)

/-- The work of a graph that has not been dispatched is given up (R141): its tile set is uninspected with the cause, its queued
chunks are lost, and it completes once the tasks it runs have. -/
def State.graphCancel (s : State) (g : GraphInst) (cause : Nat) : State :=
  let s := match g.tile with
    | some (col, band) => s.coverTile col band cause
    | none => s
  let left := (g.tasks.map (fun k => if k.st == .done then 0 else k.total - k.issued)).sum
  let off (k : TaskInst) : TaskInst :=
    if k.st == .done then k
    else if k.issued = k.done then { k with st := .done, total := k.issued, look := [], cross := [] }
    else { k with total := k.issued }
  let s := s.updGraph g.id (fun x => { x with tasks := x.tasks.map off, otherCnt := x.otherCnt + left })
  let s := s.shardGone g (fun t => match g.tasks[t]? with | some k => k.st != .done && k.issued == k.done | none => true)
  let s := s.each (s.streamAt g.die).queue (fun s p =>
    let mine := p.2.filter (fun k => k.graph == g.id)
    if mine.isEmpty then s
    else s.each mine (fun s k => s.chunkLost k.info) |>.ctxSetQueue p.1 (p.2.filter (fun k => k.graph != g.id)))
  if g.kind == .keystone then s.updBond (fun b => { b with graphs := b.graphs.filter (fun y => y.id != g.id) })
  else s.graphCheck g.id

/-- The graphs in flight with tasks not yet dispatched to a slot that has become VACANT (R141). -/
def State.graphsVacant (s : State) (d i : Nat) : State :=
  s.each (s.bond.graphs.filter (fun g => g.die == d &&
    g.tasks.any (fun k => k.st != .done && decide (k.issued < k.total) && slotOf g k.entry == i))) (fun s g => s.graphCancel g 9)

/-! ### Failures -/

/-- Slots of a die bound to a core. -/
def State.inService (s : State) (d : Nat) : Nat := ((s.dieAt d).slot.filter (fun x => !x.vacant)).length

/-- Cores in service over the die pairs in service. -/
def State.coresServing (s : State) : Nat :=
  ((s.dies.filter (fun d => (s.dieAt d).st != .failed)).map s.inService).sum

/-- The grant never exceeds the cores in service (R554). -/
def State.capGrant (s : State) : State := s.updPower (fun p => { p with granted := min p.granted s.coresServing })

/-- A die pair fails (R150): it takes no work, and the plan is re-admitted without it. -/
def State.dieFail (s : State) (d : Nat) : State :=
  if (s.dieAt d).st == .failed then s
  else
    let s := (s.loseTasks d).loseGraphs d 7 false
    ((s.updDie d (fun x => { x with st := .failed })).raise (evFabric d) 0).capGrant.readmit

/-- Spare cores of a die. -/
def State.spares (s : State) (d : Nat) : List Nat :=
  (List.range 52).filter (fun p => (s.coreAt d p).role == .spare)

/-- A slot takes the lowest spare of its die, or becomes VACANT (R139, R141, R143). -/
def State.respare (s : State) (d i : Nat) : State :=
  match s.spares d with
  | q :: _ =>
    let s := s.updSlot d i (fun x => { x with spareIn := some q })
    (s.updCore d q (fun c => { c with role := .inSlot i })).raise (evFabric d) 7
  | [] =>
    let s := (s.updSlot d i (fun x => { x with vacant := true, spareIn := none })).graphsVacant d i
    let s := ((s.raise (evFabric d) 6).raise (evFabric d) 5).capGrant.readmit
    if s.inService d < 24 then (s.updDie d (fun x => { x with short := true })).pairRestart d else s

/-- A physical core becomes FAILED (R138): a task on it ends CORE_FAULT, and its slot takes a spare or becomes VACANT. -/
def State.coreFail (s : State) (d p : Nat) (cause : CoreCause) : State :=
  match (s.coreAt d p).role with
  | .failed _ => s
  | role =>
    let s := (s.updCore d p (fun c => { c with role := .failed cause, vreg := [], vside := [], drainQ := [], conv := [], mvBuf := [], retire := false })).raise (evFabric d) 8
    match role with
    | .inSlot i =>
      let s := s.updRun d i (fun r => { r with out := some .coreFault })
      s.respare d i
    | _ => s

end Sys2Proof.Machine
end

