-- ==== Sys2Proof/Machine/MemCore.lean ====
section
/-!
DEFINITION. Memory tiers: the page table and its frames (R301 to R304), accesses to the Lintel stores and the tiered range
with their ECC (R287, R300, R312), the bursts of Quarry (R294, R295), exclusion of channels (R298, R299), wear (R589, R590),
migration (R305, R306) and the MEM registers (R313 to R315).
-/
namespace Sys2Proof.Machine

/-! ### Page table -/

/-- A page-table entry (R302). -/
structure Pte where
  mapped : Bool := false
  lost : Bool := false
  migrating : Bool := false
  pin : Nat := 0
  tier : Nat := 0
  die : Nat := 0
  ch : Nat := 0
  dev : Nat := 0
  heat : Nat := 0
  owner : Nat := 0
  frame : Nat := 0
  deriving DecidableEq, Repr, Inhabited

def pteDecode (w : Nat) : Pte :=
  { mapped := w.testBit 63, lost := w.testBit 62, migrating := w.testBit 61, pin := bitsOf w 60 59, tier := bitsOf w 58 58,
    die := bitsOf w 57 56, ch := bitsOf w 51 50, dev := bitsOf w 49 49, heat := bitsOf w 47 40, owner := bitsOf w 39 36,
    frame := bitsOf w 15 0 }

def pteCode (e : Pte) : Nat :=
  b2n e.mapped * 2 ^ 63 + b2n e.lost * 2 ^ 62 + b2n e.migrating * 2 ^ 61 + e.pin % 4 * 2 ^ 59 + e.tier % 2 * 2 ^ 58 +
    e.die % 4 * 2 ^ 56 + e.ch % 4 * 2 ^ 50 + e.dev % 2 * 2 ^ 49 + e.heat % 256 * 2 ^ 40 + e.owner % 16 * 2 ^ 36 +
    e.frame % 65536

/-- Lintel offset of a page's entry in the die of its quarter. -/
def pteOff (page : Nat) : Nat := 0x06640000 + 8 * (page % 16384)
def State.pte (s : State) (page : Nat) : Pte := pteDecode (s.lin (page / 16384) (pteOff page) 8)
def State.pteSet (s : State) (page : Nat) (e : Pte) : State := s.linSt (page / 16384) (pteOff page) 8 (pteCode e)

/-- Indices of the entries of a table in a store whose byte `boff` has bit `bit` set. -/
def State.listed (s : State) (sp base stride count boff bit : Nat) : List Nat :=
  let lo := memKey sp base
  s.mem.filterMap (fun p =>
    if lo ≤ p.1 ∧ p.1 < lo + stride * count ∧ (p.1 - lo) % stride = boff ∧ p.2.toNat.testBit bit then
      some ((p.1 - lo) / stride) else none)

/-- Pages that have a frame, in increasing number. -/
def State.mappedPages (s : State) : List Nat :=
  (List.range 4).flatMap (fun d => (s.listed (spLintel d) 0x06640000 8 16384 7 7).map (fun i => 16384 * d + i))

/-- Key of the first data byte of an entry's frame. -/
def frameKey (e : Pte) : Nat :=
  if e.tier = 0 then memKey (spLintel e.die) (e.frame * 65536)
  else memKey (spQuarry (4 * e.die + e.ch)) (e.dev * 2 ^ 31 + e.frame * 65536)

/-- Two entries name the same frame. -/
def sameFrame (a b : Pte) : Bool := frameKey a == frameKey b

/-! ### Frames -/

def aLin (d : Nat) : Nat := 0x60040 + 0x10 * d
def aQch (c : Nat) : Nat := 0x60100 + 0x10 * c

/-- TIER_BASE of a die, where it is in range (R283). -/
def State.tierBase (s : State) (d : Nat) : Option Nat :=
  let b := s.rfld (aLin d) 12 0
  if 1638 ≤ b ∧ b ≤ 4096 then some b else none

/-- Tier frames of a die: those from TIER_BASE that are not withdrawn. -/
def State.tierFrames (s : State) (d : Nat) : List Nat :=
  match s.tierBase d with
  | none => []
  | some b => ((List.range (4096 - b)).map (· + b)).filter (fun f => !s.mt.withdrawn.contains (4096 * d + f))

/-- Frames in use: those of mapped pages and the targets of moves. -/
def State.framesUsed (s : State) : List Pte :=
  s.mappedPages.map s.pte ++ s.mt.moves.map (fun m => pteDecode m.target)

/-- Free tier frames of a die. -/
def State.freeTier (s : State) (d : Nat) : List Nat :=
  let used := (s.framesUsed.filter (fun e => e.tier == 0 && e.die == d)).map (·.frame)
  (s.tierFrames d).filter (fun f => !used.contains f)

/-- Slots of one device of a channel (R292). -/
def State.qslots (s : State) (c : Nat) : Nat := if (s.qchAt c).dense then 910 else 455

/-- Free slots of a channel, device 0 first; a slot with accesses in flight is not yet free (R303, R306). -/
def State.freeSlotsQ (s : State) (c : Nat) : List (Nat × Nat) :=
  let used := (s.framesUsed.filter (fun e => e.tier == 1 && 4 * e.die + e.ch == c)).map (fun e => (e.dev, e.frame))
  let x := s.qchAt c
  let busy (p : Nat × Nat) : Bool := (x.plan ++ x.client ++ x.background).any (fun b =>
    b.at_ / 2 ^ 31 == p.1 && b.at_ % 2 ^ 31 / 65536 == p.2)
  if x.st != .up then []
  else ([0, 1].flatMap (fun dev => (List.range (s.qslots c)).map (fun f => (dev, f)))).filter (fun p => !used.contains p && !busy p)

/-- A Quarry slot of a die, in rotation from the channel after the one last used (R304). -/
def State.quarryFrame (s : State) (d : Nat) : Option Pte :=
  ([1, 2, 3, 4].map (fun k => (lget 3 s.mt.lastCh d + k) % 4)).findSome? (fun ch =>
    (s.freeSlotsQ (4 * d + ch)).head?.map (fun p => { tier := 1, die := d, ch := ch, dev := p.1, frame := p.2 }))

/-- A Lintel frame of a die. -/
def State.lintelFrame (s : State) (d : Nat) : Option Pte :=
  (s.freeTier d).head?.map (fun f => { tier := 0, die := d, frame := f })

/-- The Lintel die serves frames: the part has it and its pair has not failed. -/
def State.dieServes (s : State) (d : Nat) : Bool := s.hasDie d && (s.dieAt d).st != .failed

/-- A frame of a die that PIN allows (R304). -/
def State.frameOf (s : State) (d pin : Nat) : Option Pte :=
  if !s.dieServes d then none
  else match pin with
    | 1 => s.lintelFrame d
    | 2 => s.quarryFrame d
    | _ => match s.lintelFrame d with
      | some e => some e
      | none => s.quarryFrame d

/-- A frame for a page of a quarter: of its home, else, with SPILL, of the next die pair in ring order that has one. -/
def State.takeFrame (s : State) (home pin : Nat) : Option Pte :=
  match s.frameOf home pin with
  | some e => some e
  | none =>
    if s.rbit 0x60000 1 then ([1, 2, 3].map (fun k => (home + k) % s.nDie)).findSome? (fun d => if d = home then none else s.frameOf d pin)
    else none

/-! ### Bursts (R294, R295) -/

/-- Puts a burst into a queue of a channel. -/
def State.queueBurst (s : State) (c : Nat) (q : QQueue) (b : Burst) : State :=
  s.updQch c (fun x => match q with
    | .plan => { x with plan := x.plan ++ [b] }
    | .client => { x with client := x.client ++ [b] }
    | .background => { x with background := x.background ++ [b] })

/-- Queues the bursts of an access to bytes `off` to `off + n` of a frame: none crosses a 2 KiB boundary. -/
def State.queueBursts (s : State) (e : Pte) (off n : Nat) (write : Bool) (q : QQueue) (who : Option (Nat × Nat))
    (kv : Option Nat := none) : State :=
  if e.tier = 0 ∨ n = 0 then s
  else s.each (List.range ((off + n - 1) / 2048 - off / 2048 + 1)) (fun s k =>
    let lo := max off (2048 * (off / 2048 + k))
    let hi := min (off + n) (2048 * (off / 2048 + k + 1))
    s.queueBurst (4 * e.die + e.ch) q
      { at_ := e.dev * 2 ^ 31 + e.frame * 65536 + lo / 64 * 64, granules := (hi - 1) / 64 - lo / 64 + 1, write := write, who := who, kv := kv })

/-- A task waits for bursts. -/
def State.burstsWait (s : State) (d i : Nat) : Bool :=
  s.mt.qch.any (fun x => (x.plan ++ x.client).any (fun b => b.who == some (d, i)))

/-! ### ECC and wear (R287, R300, R589, R590) -/

/-- Bits set in a flip mask. -/
def flipCount (m : Nat) : Nat := ((List.range 72).filter m.testBit).length

/-- Flipped words that an access to n bytes from a key touches. -/
def State.flipsIn (s : State) (k n : Nat) : List (Nat × Nat) :=
  s.mt.flips.filter (fun f => decide (k < f.1 + 8) && decide (f.1 < k + n))

/-- A word is written back corrected; PERSIST repeats its flip. -/
def State.unflip (s : State) (k : Nat) : State :=
  s.updMt (fun m => { m with flips := m.flips.filter (fun f => f.1 != k || s.test.persist.any (fun p => p.1 == f.1)) })

/-- Key of the row that holds a byte: 2 KiB rows in Lintel; in a core store the 1 KiB rows of its interleaved banks. -/
def rowKey (k : Nat) : Nat :=
  if k < memKey 64 0 then k / 2048 * 2048
  else
    let a := k % 2 ^ 32
    k - a + a / 32768 * 32768 + a / 32 % 32 * 32

/-- Bank of a row, as a key of `spareUsed`, and its spare rows (R289, R589). -/
def rowBank (k : Nat) : Nat × Nat :=
  if k < memKey 64 0 then (k / 2 ^ 32 * 64 + k % 2 ^ 32 / 2 ^ 22, 32) else (1024 + k / 2 ^ 32 * 32 + k % 2 ^ 32 / 32 % 32, 2)

/-- A row is repaired onto a spare of its bank, or becomes WORN; then a Lintel row of the tier region has its page moved
and its frame withdrawn, by a move that is under way or by one of its own. -/
def State.repairRow (s : State) (row : Nat) : State :=
  let s := s.updMt (fun m => { m with wear := m.wear.filter (fun w => w.row != row) })
  let (bank, n) := rowBank row
  if countOf s.mt.spareUsed bank < n then
    let s := s.updMt (fun m => { m with spareUsed := countAdd m.spareUsed bank 1 })
    let s := if row < memKey 64 0 then s else
      let c := row / 2 ^ 32 - 64
      s.updCore (c / 52) (c % 52) (fun x => { x with repaired := true })
    (s.bumpHi 0xF0074).raise evTest 2
  else
    let s := ((s.updMt (fun m => { m with worn := row :: m.worn })).bumpLo 0xF0074).raise evTest 1
    let d := row / 2 ^ 32
    let f := row % 2 ^ 32 / 65536
    if memKey 64 0 ≤ row ∨ !(s.tierFrames d).contains f then s
    else match s.mappedPages.find? (fun p => let e := s.pte p; e.tier == 0 && e.die == d && e.frame == f) with
      | none => s.updMt (fun m => { m with withdrawn := (4096 * d + f) :: m.withdrawn })
      | some p =>
        if (s.pte p).migrating then
          s.updMt (fun m => { m with moves := m.moves.map (fun v => if v.page == p then { v with withdraw := true } else v) })
        else match s.lintelFrame d with
        | none => s
        | some t => (s.pteSet p { s.pte p with migrating := true }).updMt (fun m => { m with
            moves := m.moves ++ [{ page := p, target := pteCode t, kind := 0, withdraw := true }] })

/-- ROW_CE_LIMIT; 0 is taken as 1. -/
def State.rowLimit (s : State) : Nat := max 1 (s.rfld 0xF0070 31 24)

/-- 24 h in ticks. -/
def dayTicks : Nat := 86400 * 500000000

/-- Counts a corrected error of a row. A Lintel row that reaches the limit is repaired at once, a core-store row before the
next dispatch to its slot. -/
def State.wearRow (s : State) (k : Nat) : State :=
  let row := rowKey k
  if s.mt.worn.contains row then s
  else
    let old := match s.mt.wear.find? (fun w => w.row == row) with
      | some w => w.ticks.filter (fun t => decide (s.now < t + dayTicks))
      | none => []
    let s := s.updMt (fun m => { m with
      wear := { row := row, ticks := s.now :: old } :: m.wear.filter (fun w => w.row != row) })
    if row < memKey 64 0 ∧ s.rowLimit ≤ old.length + 1 then s.repairRow row else s

/-- Repairs, while its slot is idle, the rows of a core store that have reached the limit. -/
def State.repairCore (s : State) (d p : Nat) : State :=
  let sp := spCore d p
  s.each (s.mt.wear.filter (fun w => w.row / 2 ^ 32 == sp && decide (s.rowLimit ≤ w.ticks.length))) (fun s w => s.repairRow w.row)

/-- An uncorrectable core-store error (R125): the task fails CORE_FAULT, the resident regions are to be loaded again, and a
second one at the same word within 1 s fails the core. -/
def State.coreUncorr (s : State) (d p k : Nat) : State :=
  let again := (s.coreAt d p).ue.any (fun u => u.1 == k && decide (s.now < u.2 + 500000000))
  let s := s.updCore d p (fun c => { c with
    reload := true, ue := (k, s.now) :: c.ue.filter (fun u => decide (s.now < u.2 + 500000000)) })
  let s := match (s.coreAt d p).role with
    | .inSlot i => s.updRun d i (fun r => { r with out := if r.out.isNone then some .coreFault else r.out })
    | _ => s
  if again then s.coreFail d p .ecc else s

/-- Reads n bytes of a Lintel store, of a core store, or of a flat-field or projection-map store (R82) through ECC: the Bool says that a word could not be corrected. -/
def State.eccRead (s : State) (k n : Nat) : State × Bool :=
  (s.flipsIn k n).foldl (fun (acc : State × Bool) f =>
    let s := acc.1
    let sp := f.1 / 2 ^ 32
    let one := decide (flipCount f.2 ≤ 1)
    if sp < 4 then
      if one then
        ((((s.bumpHi (aLin sp + 8)).raise evMem 7).unflip f.1).wearRow f.1, acc.2)
      else ((s.bumpLo (aLin sp + 8)).raise evMem 6, true)
    else if 64 ≤ sp ∧ sp < 272 then
      let d := (sp - 64) / 52
      let p := (sp - 64) % 52
      let a := bFabric d + 0x1014 + 0x20 * p
      if one then
        (((((s.bumpHi a).bumpHi (bFabric d + 0x30)).raise (evFabric d) 4).unflip f.1).wearRow f.1, acc.2)
      else ((((s.bumpLo a).bumpLo (bFabric d + 0x30)).raise (evFabric d) 3).coreUncorr d p f.1, true)
    else match (List.range 8).find? (fun g => sp == spFlat g 0 || sp == spProj g 0) with
      | some g =>
        if one then ((s.bumpHi (aGrp g + 0x34)).unflip f.1, acc.2) else ((s.bumpLo (aGrp g + 0x34)).raise evAcq 7, true)
      | none => (acc.1, acc.2 || !one)) (s, false)

/-! ### Accesses to the tiered range (R305, R306, R312) -/

/-- Who makes an access: the queue of its bursts, and the die and slot of a task. -/
structure Who where
  q : QQueue
  who : Option (Nat × Nat) := none
  /-- The KV page that is read. -/
  kv : Option Nat := none
  deriving DecidableEq, Repr, Inhabited

/-- Firmware and the card. -/
def whoHost : Who := { q := .background }

/-- Opens an access to bytes of one page: the key of the first of them, or why it fails. It resolves the page, adds a task's
access to its HEAT, queues the bursts, and for a read passes ECC. -/
def State.pageAccess (s : State) (w : Who) (write : Bool) (page off n : Nat) : State × Except TaskOut Nat :=
  let e := s.pte page
  if 65536 ≤ page ∨ !e.mapped then (s, .error .memUnmapped)
  else if e.lost then (s, .error .memLost)
  else
    let s := s.pteSet page { e with heat := min 255 (e.heat + b2n w.who.isSome) }
    let s := s.queueBursts e off n write w.q w.who w.kv
    let s := if write then s.updMt (fun m => { m with
        moves := m.moves.map (fun v => if v.page == page then { v with written := true } else v) }) else s
    let k := frameKey e + off
    if write then (s, .ok k)
    else
      let (s, bad) := s.eccRead k n
      (s, if bad then .error .memFault else .ok k)

/-- The pieces of n bytes from a tiered address that lie in one page: page, offset and length. -/
def tierPieces (a n : Nat) : List (Nat × Nat × Nat) :=
  if n = 0 then []
  else (List.range ((a + n - 1) / 65536 - a / 65536 + 1)).map (fun k =>
    let p := a / 65536 + k
    let lo := max a (65536 * p)
    let hi := min (a + n) (65536 * (p + 1))
    (p, lo % 65536, hi - lo))

/-- Reads n bytes of the tiered range. -/
def State.tierRead (s : State) (w : Who) (a n : Nat) : State × Except TaskOut (List Byte) :=
  (tierPieces a n).foldl (fun (acc : State × Except TaskOut (List Byte)) p =>
    match acc.2 with
    | .error _ => acc
    | .ok bs =>
      match acc.1.pageAccess w false p.1 p.2.1 p.2.2 with
      | (s, .error o) => (s, .error o)
      | (s, .ok k) => (s, .ok (bs ++ s.ldBytes k p.2.2))) (s, .ok [])

/-- Writes bytes into the tiered range. -/
def State.tierWrite (s : State) (w : Who) (a : Nat) (bs : List Byte) : State × Option TaskOut :=
  let r := (tierPieces a bs.length).foldl (fun (acc : State × Option TaskOut × List Byte) p =>
    match acc.2.1 with
    | some _ => acc
    | none =>
      match acc.1.pageAccess w true p.1 p.2.1 p.2.2 with
      | (s, .error o) => (s, some o, acc.2.2)
      | (s, .ok k) => (s.stBytes k (acc.2.2.take p.2.2), none, acc.2.2.drop p.2.2)) (s, none, bs)
  (r.1, r.2.1)

/-! ### Mapping (R303) -/

/-- A move ends as in step 3 of R306. -/
def State.abortMove (s : State) (page : Nat) : State :=
  if s.mt.moves.any (fun m => m.page == page) then
    let s := s.updMt (fun m => { m with moves := m.moves.filter (fun v => v.page != page) })
    ((s.pteSet page { s.pte page with migrating := false }).bump 0x60034).raise evMem 3
  else s

/-- Puts a page onto a new zero-filled frame; none where no frame is free. -/
def State.placePage (s : State) (page pin owner : Nat) : Option State :=
  let home := page / 16384
  match s.takeFrame home pin with
  | none => none
  | some e =>
    let e := { e with mapped := true, pin := pin, owner := owner }
    let s := if e.tier = 1 then s.updMt (fun m => { m with lastCh := lmod m.lastCh e.die (fun _ => e.ch) }) else s
    let s := (s.zero (frameKey e) 65536).queueBursts e 0 65536 true .background none
    let s := s.pteSet page e
    some (if e.die = home then s else s.raise evMem 0)

/-- Maps a page; a mapped one is unchanged. -/
def State.mapPage (s : State) (page pin owner : Nat) : Option State :=
  if (s.pte page).mapped then some s else s.placePage page pin owner

/-- Unmaps a page. -/
def State.unmapPage (s : State) (page : Nat) : State := (s.abortMove page).pteSet page {}

/-! ### Exclusion (R298, R299, R307) -/

/-- A burst ends with an error: the KV page it reads gets FAULT (R267), any other one fails the task that waits for it (R287). -/
def State.burstErr (s : State) (b : Burst) : State :=
  match b.who, b.kv with
  | some (d, _), some n => (s.pageSt d n { s.pageD d n with fault := true }).raise (evKv d) 5
  | some (d, i), none => s.updRun d i (fun r => { r with out := if r.out.isNone then some .memFault else r.out })
  | none, _ => s

/-- A channel is excluded: its bursts end with an error, its pages are LOST, and the plan is re-admitted. -/
def State.qchExclude (s : State) (c cause : Nat) : State :=
  let x := s.qchAt c
  if x.st == .absent || x.st == .excluded || (x.st == .off && cause != 5) then s
  else
    let s := s.each (x.plan ++ x.client) State.burstErr
    let s := s.updQch c (fun x => { x with st := .excluded, cause := cause, plan := [], client := [], background := [] })
    let on (e : Pte) : Bool := e.tier == 1 && 4 * e.die + e.ch == c
    let pages := s.mappedPages.filter (fun p => on (s.pte p))
    let hit := s.mt.moves.filter (fun m => on (s.pte m.page) || on (pteDecode m.target))
    let s := s.each hit (fun s m => s.abortMove m.page)
    let s := s.each pages (fun s p => s.pteSet p { s.pte p with lost := true })
    let s := s.updMt (fun m => { m with lostMark := m.lostMark ++ pages, remapWait := true })
    ((s.raise evMem 9).raise evMem 8).readmit

/-- A range of bytes of the tiered range touches one of the pages. -/
def touches (pages : List Nat) (a n : Nat) : Bool := (tierPieces a (max n 1)).any (fun p => pages.contains p.1)

/-- KV frames of a window: data frame and scale frame sizes in bytes. -/
def State.kvFrame (s : State) (d : Nat) : Nat := 1024 * 2 ^ s.rfld (bKv d + 0x18) 3 2
def State.kvScale (s : State) (d : Nat) : Nat := 256 * 2 ^ s.rfld (bKv d + 0x18) 1 0
/-- Tiered addresses of a KV page's data and scale frames (R247). -/
def State.kvDataAt (s : State) (d n : Nat) : Nat := (s.regGet (bKv d + 0x10)).toNat + n * s.kvFrame d
def State.kvScaleAt (s : State) (d n : Nat) : Nat := (s.regGet (bKv d + 0x14)).toNat + n * s.kvScale d

/-- FAULT on the live KV pages, and FAULT with RESET_PENDING on the valid contexts, that lie in LOST pages (R299). -/
def State.markLost (s : State) (pages : List Nat) : State :=
  let s := s.each s.dies (fun s d =>
    s.each (s.listed (spLintel d) 0x06440000 8 262144 3 3) (fun s n =>
      if touches pages (s.kvDataAt d n) (s.kvFrame d) || touches pages (s.kvScaleAt d n) (s.kvScale d) then
        s.pageSt d n { s.pageD d n with fault := true }
      else s))
  s.each s.dies (fun s d =>
    s.each ((s.listed (spLintel d) 0x06030000 64 65536 12 7).map (fun i => 65536 * d + i)) (fun s c =>
      if touches pages (s.ctx c 0 4) (s.ctxBytes c) then (s.ctxSetFlag c 2 true).ctxSetFlag c 3 true else s))

/-- Each LOST page is mapped onto a new zero-filled frame, as frames allow. -/
def State.remapLost (s : State) : State :=
  s.each (s.mappedPages.filter (fun p => (s.pte p).lost)) (fun s p =>
    let e := s.pte p
    match s.placePage p e.pin e.owner with
    | some s' => s'
    | none => s)

/-- With REMAP_LOST, once the marking is done, LOST pages get frames that have become free (R307). -/
def State.remapMore (s : State) : State := if s.rbit 0x60000 3 && !s.mt.remapWait then s.remapLost else s

/-! ### TIER_BASE (R283) -/

/-- A write of TIER_BASE; none where it would move a mapped frame out of the tier region. Frames that leave the tier region
are zero-filled. -/
def State.tierBaseSet (s : State) (d v : Nat) : Option State :=
  let v := v % 8192
  let was := s.tierFrames d
  let s' := s.regSet (aLin d) (wordOf v)
  let now := s'.tierFrames d
  let leave := was.filter (fun f => !now.contains f)
  if s.framesUsed.any (fun e => e.tier == 0 && e.die == d && leave.contains e.frame) then none
  else some (s'.each leave (fun s f => s.zero (memKey (spLintel d) (f * 65536)) 65536))

/-- LAT or RWR is out of range, or TIER_BASE of a present die is (R283, R293). -/
def State.memCfgErr (s : State) : Bool :=
  let lat := s.rfld 0x60018 31 28
  let rwr := s.rfld 0x60018 27 24
  decide (lat < 3) || decide (7 < lat) || decide (rwr < 2) || s.dies.any (fun d => (s.tierBase d).isNone)

/-! ### Migration (R305, R306) -/

/-- Starts a move of a page to a target frame. -/
def State.startMove (s : State) (page : Nat) (t : Pte) (kind : Nat) (next : Option Nat := none) : State :=
  let s := if t.tier = 1 then s.updMt (fun m => { m with lastCh := lmod m.lastCh t.die (fun _ => t.ch) }) else s
  let s := (s.queueBursts (s.pte page) 0 65536 false .background none).queueBursts t 0 65536 true .background none
  (s.pteSet page { s.pte page with migrating := true }).updMt (fun m => { m with
    moves := m.moves ++ [{ page := page, target := pteCode t, kind := kind, next := next }] })

/-- Pages of a quarter that the engine may move: PIN 0, not LOST, not moving. -/
def State.movable (s : State) (q : Nat) : List Nat :=
  s.mappedPages.filter (fun p => p / 16384 == q && (let e := s.pte p; e.pin == 0 && !e.lost && !e.migrating))

/-- Moves still allowed to a quarter in this period; a demotion counts with the promotion that follows it. -/
def State.movesLeft (s : State) (q : Nat) : Nat :=
  max 1 (s.rfld 0x60010 23 20) - ((s.mt.moves.filter (fun m => m.page / 16384 == q)).map (fun m => 1 + b2n m.next.isSome)).sum

/-- Hotter pages first, then lower page numbers. -/
def hotter (s : State) (a b : Nat) : Bool :=
  decide ((s.pte b).heat < (s.pte a).heat) || ((s.pte a).heat == (s.pte b).heat && decide (a ≤ b))

/-- Colder pages first, then lower page numbers. -/
def colder (s : State) (a b : Nat) : Bool :=
  decide ((s.pte a).heat < (s.pte b).heat) || ((s.pte a).heat == (s.pte b).heat && decide (a ≤ b))

/-- One period of one die's migration engine. -/
def State.migrate (s : State) (q : Nat) : State :=
  let s := s.each (s.mappedPages.filter (fun p => p / 16384 == q)) (fun s p =>
    let e := s.pte p
    s.pteSet p { e with heat := e.heat / 2 })
  let prom := s.rfld 0x60010 31 24
  let s := s.each ((s.movable q).filter (fun p => (s.pte p).die != q)) (fun s p =>
    if s.movesLeft q = 0 then s else match s.frameOf q 0 with
      | some t => s.startMove p t 0
      | none => s)
  let hot := (s.movable q).filter (fun p => let e := s.pte p; e.tier == 1 && decide (prom ≤ e.heat))
  s.each (hot.mergeSort (hotter s)) (fun s p =>
    if s.movesLeft q = 0 || (s.pte p).migrating then s
    else match s.lintelFrame q with
      | some t => s.startMove p t 1
      | none =>
        let cold := (s.movable q).filter (fun p => let e := s.pte p; e.tier == 0 && e.die == q && decide (2 * e.heat < prom))
        match (cold.mergeSort (colder s)).head? with
        | none => s
        | some c => match s.quarryFrame q with
          | some t => s.startMove c t 2 (if 1 < s.movesLeft q then some p else none)
          | none => s)

/-- Copies n bytes from one key to another, all at once. -/
def State.copyKeys (s : State) (src dst n : Nat) : State :=
  let bs := s.mem.filter (fun p => decide (src ≤ p.1) && decide (p.1 < src + n))
  let s := s.zero dst n
  { s with mem := bs.foldl (fun m p => memPut m (dst + (p.1 - src)) p.2) s.mem }

/-- The promotion that a demotion was made for (R305): the page is still in Quarry and may move. -/
def State.promoteNext (s : State) (next : Option Nat) : State :=
  match next with
  | none => s
  | some p =>
    if (s.pte p).tier = 1 ∧ (s.movable (p / 16384)).contains p then match s.lintelFrame (p / 16384) with
      | some t => s.startMove p t 1
      | none => s
    else s

/-- A move has copied its page: it remaps it, or ends as an intervening write demands. One whose source has a word that cannot be
corrected ends too, and the page stays where it is (R287). -/
def State.moveDone (s : State) (page : Nat) : State :=
  match s.mt.moves.find? (fun m => m.page == page) with
  | none => s
  | some m =>
    let e := s.pte page
    let (s, bad) := if e.tier = 0 && !m.written then s.eccRead (frameKey e) 65536 else (s, false)
    if m.written || bad then s.abortMove page
    else
      let t := pteDecode m.target
      let s := s.copyKeys (frameKey e) (frameKey t) 65536
      let s := s.pteSet page { e with migrating := false, tier := t.tier, die := t.die, ch := t.ch, dev := t.dev, frame := t.frame }
      let s := s.updMt (fun x => { x with
        moves := x.moves.filter (fun v => v.page != page)
        withdrawn := if m.withdraw then (4096 * e.die + e.frame) :: x.withdrawn else x.withdrawn })
      match m.kind with
      | 1 => s.setFld 0x60030 31 16 (s.rfld 0x60030 31 16 + 1)
      | 2 => (s.setFld 0x60030 15 0 (s.rfld 0x60030 15 0 + 1)).promoteNext m.next
      | _ => s

/-! ### Registers -/

/-- A write of MEM_CMD (R315). -/
def State.memCmd (s : State) (v : Nat) : State :=
  match v / 2 ^ 24 with
  | 1 => if v % 16 < s.nQch then s.qchExclude (v % 16) 5 else s
  | 2 =>
    let s := s.each [0x60030, 0x60034, 0x60038] (fun s a => s.regSet a 0#32)
    let s := s.each (List.range 4) (fun s d => s.regSet (aLin d + 8) 0#32)
    s.each (List.range 16) (fun s c => (s.regSet (aQch c + 8) 0#32).regSet (aQch c + 12) 0#32)
  | _ => s

/-- STATE of MEM_QCHc_STATUS. -/
def QchState.code : QchState → Nat
  | .off => 0 | .training => 1 | .up => 2 | .excluded => 3 | .absent => 4

/-- A mask of the indices below n that satisfy a test. -/
def maskOf (n : Nat) (f : Nat → Bool) : Nat := ((List.range n).map (fun i => b2n (f i) * 2 ^ i)).sum

/-- Registers of MEM that are formed when read. -/
def State.memView (s : State) (o : Nat) : Option Nat :=
  let up (d : Nat) : Bool := s.hasDie d && (s.dieAt d).st != .failed && (s.dieAt d).st != .off
  if o = 0x4 then
    some (maskOf 16 (fun c => (s.qchAt c).st == .up) * 65536 + b2n s.memCfgErr * 256 +
      maskOf 4 (fun d => s.hasDie d && (s.dieAt d).st == .failed) * 16 + maskOf 4 up)
  else match arrIdx o 0x40 0x10 4 with
    | some d =>
      if o % 16 = 4 then some ((s.freeTier d).length * 65536 + (s.tierFrames d).length)
      else if o % 16 = 12 then
        some ((if up d then 2048 * 65536 else 0) + ((List.range 64).map (fun b => countOf s.mt.spareUsed (64 * d + b))).sum)
      else none
    | none => match arrIdx o 0x100 0x10 16 with
      | some c =>
        let x := s.qchAt c
        if o % 16 = 0 then
          some (x.cause * 65536 + x.tap * 256 + b2n x.dense * 8 + (if c < s.nQch then x.st.code else 4))
        else if o % 16 = 4 then some ((s.freeSlotsQ c).length * 65536 + (if x.st == .up then 2 * s.qslots c else 0))
        else none
      | none => none

/-- A write of MEM_PAGE_SEL takes a snapshot of the selected entry (R313). -/
def State.pageSel (s : State) (v : Nat) : State :=
  let w := pteCode (s.pte (v % 65536))
  ((s.regSet 0x60024 (wordOf (v % 65536))).regSet 0x60028 (wordOf w)).regSet 0x6002C (wordOf (w / 2 ^ 32))

end Sys2Proof.Machine
end

