-- ==== Sys2Proof/Machine/GraphCore.lean ====
section
/-!
DEFINITION. Task headers and their images (R316), stream chunks (R221, R222), graphs in flight and how their tasks become
ready and complete (R322 to R326), and the release of a tile set's graph (R340, R342).
-/
namespace Sys2Proof.Machine

/-! ### Task headers -/

/-- A task header (R316). -/
structure TaskHdr where
  src : Nat
  dst : Nat
  len : Nat
  prog : Nat
  rclass : Nat
  shed : Nat
  nrec : Nat
  progAddr : Nat
  recAddr : Nat
  wcet : Nat
  comp : Nat
  /-- Every field is in its range, and the reserved ones are 0. -/
  ok : Bool
  deriving DecidableEq, Repr, Inhabited

/-- A completion record may lie at a Lintel offset: in the store, and out of its fixed region (R284). -/
def compOk (a : Nat) : Bool := a == 0 || (decide (0x06660000 ≤ a) && decide (a + 32 ≤ 0x10000000))

/-- Reads the task header at a Lintel offset of a die; no record is written at a COMP_ADDR out of range. -/
def State.taskHdr (s : State) (d off : Nat) : TaskHdr :=
  let f (o n : Nat) : Nat := s.lin d (off + o) n
  let b12 := f 12 1
  let len := f 8 2
  let prog := f 10 2
  { src := f 0 4, dst := f 4 4, len := len, prog := prog, rclass := b12 / 128, shed := b12 / 32 % 4, nrec := f 13 1,
    progAddr := f 16 4, recAddr := f 20 4, wcet := f 24 4, comp := if compOk (f 28 4) then f 28 4 else 0,
    ok := decide (len ≤ 1024) && decide (prog ≤ 1024) && decide (b12 % 32 = 0) && decide (f 13 1 ≤ 16) && decide (f 14 2 = 0) &&
      decide (f 0 4 % 64 = 0) && decide (f 4 4 % 64 = 0) && decide (f 16 4 % 8 = 0) && decide (f 4 4 + 64 * len ≤ 0x200000) &&
      decide (f 0 4 + 64 * len ≤ 0x10000000) && decide (f 16 4 + 8 * prog ≤ 0x200000) &&
      decide (f 20 4 + 8 * f 13 1 ≤ 0x200000) && compOk (f 28 4) }

/-- n bytes of what a task's core store holds at an address once its image is copied in: the image in the Lintel store where
it lies there, else the store of the slot's core. -/
def State.imgN (s : State) (d slot : Nat) (h : TaskHdr) (a n : Nat) : Nat :=
  if h.src ≠ 0 ∧ h.dst ≤ a ∧ a + n ≤ h.dst + 64 * h.len then s.lin d (h.src + (a - h.dst)) n
  else s.ldN (memKey (spCore d (s.slotAt d slot).core) a) n

/-- Descriptor addresses of the stream operators among the first n instructions of a task's program. -/
def State.streamOps (s : State) (d slot : Nat) (h : TaskHdr) : List Nat :=
  (List.range h.prog).filterMap (fun i =>
    let w := s.imgN d slot h (h.progAddr + 8 * i) 8
    let a := w % 2 ^ 32
    if w / 2 ^ 56 = 1 then
      let op := s.imgN d slot h a 1
      if 0x10 ≤ op ∧ op ≤ 0x13 then some a else none
    else none)

/-- The chunk of a task whose header lies at `off`; none where its program holds no stream operator. -/
def State.chunkOf (s : State) (d slot off : Nat) : Option ChunkInfo :=
  let h := s.taskHdr d off
  if !h.ok then none
  else match s.streamOps d slot h with
    | [] => none
    | a :: _ =>
      let sp0 := signedOf 64 (s.imgN d slot h (a + 8) 8)
      let steps := s.imgN d slot h (a + 2) 2
      let c := s.imgN d slot h (a + 4) 4
      let pitch := s.imgN d slot h (a + 16) 4
      let b1 := s.imgN d slot h (a + 1) 1
      if !s.ctxOk c || ctxDie c != d || !s.ctxFlag c 7 then none
      else some {
        ctx := c, sp0 := sp0, sp1 := sp0 + (steps * pitch : Nat), last := sp0 + ((steps - 1) * pitch : Nat), steps := steps,
        resetIn := b1.testBit 7 && steps != 0, markReset := b1.testBit 6 }

/-! ### Stream windows -/

/-- The window's pool is invalid (R242). -/
def State.streamCfgErr (s : State) (d : Nat) : Bool :=
  let c := s.regGet (bStream d + 0x14)
  let slots := fld c 31 16
  let size := fld c 3 0
  decide (slots < 2) || decide (16384 < slots) || decide (8 < size) || decide (0x4000000 < slots * 2 ^ (size + 6))

/-- The stream table of the window is in service. -/
def State.streamOn (s : State) (d : Nat) : Bool := s.rbit (bStream d) 0 && !s.streamCfgErr d

/-- A context runs: a task in flight holds its chunk (R216). -/
def State.ctxRunning (s : State) (c : Nat) : Bool :=
  (s.dieAt (ctxDie c)).run.any (fun r => match r with | some r => r.chunk.any (fun k => k.ctx == c) | none => false)

/-- A task of a graph in flight. -/
def State.taskOf (s : State) (g t : Nat) : Option TaskInst :=
  match s.graphOf g with
  | some x => x.tasks[t]?
  | none => none

/-- The oldest queued chunk of a context has every predecessor complete. -/
def State.ctxHeadReady (s : State) (c : Nat) : Bool :=
  match s.ctxQueue c with
  | [] => false
  | k :: _ => match s.taskOf k.graph k.task with
    | some t => t.st != .waiting
    | none => true

/-- Free slots of the pool, in increasing number, the reserve left out. -/
def State.freeSlots (s : State) (d : Nat) : List Nat :=
  let x := s.streamAt d
  (List.range (s.rfld (bStream d + 0x14) 31 16)).filter (fun k =>
    k != x.reserve && !x.slots.any (fun p => p.2 == k) && !x.inflight.any (fun p => p.2 == k))

/-- Resident contexts that may be evicted, with their RUN_STAMP: resident, not running, not pinned, and BLOCKED, or with
nothing queued when `idle` is asked for. -/
def State.victims (s : State) (d : Nat) (idle : Bool) : List (Nat × Nat) :=
  ((s.streamAt d).slots.filter (fun p =>
    let c := p.1
    s.ctxRes c == 2 && !s.ctxRunning c && !s.ctxFlag c 4 &&
      (if idle then (s.ctxQueue c).isEmpty else !s.ctxHeadReady c))).map (fun p => (p.1, s.ctx p.1 24 6))

/-- The entry of least second component, the first of equals. -/
def oldest : List (Nat × Nat) → Option (Nat × Nat)
  | [] => none
  | p :: l => match oldest l with
    | none => some p
    | some q => if q.2 < p.2 then some q else some p

/-- A request of priority 1 can be served: a slot is free, or the reserve is, with a context to evict (R217). -/
def State.prio1Served (s : State) (d : Nat) : Bool :=
  !(s.freeSlots d).isEmpty || ((s.streamAt d).restoring.isNone && !(s.victims d false).isEmpty)

/-- Each request of priority 1 that must wait raises SWAP_WAIT, once. -/
def State.swapWaits (s : State) (d : Nat) : State :=
  s.each (s.streamAt d).reqs (fun s r =>
    if !r.prio1 || r.waited || s.prio1Served d then s
    else (s.updStream d (fun x => { x with
      reqs := x.reqs.map (fun q => if q.ctx == r.ctx then { q with waited := true } else q) })).raise (evStream d) 6)

/-- Requests whose context has become RUNNABLE become priority 1; one that must wait raises SWAP_WAIT (R217). -/
def State.streamSettle (s : State) (d : Nat) : State :=
  (s.each (s.streamAt d).reqs (fun s r =>
    if r.prio1 || !s.ctxHeadReady r.ctx then s
    else s.updStream d (fun x => { x with
      reqs := x.reqs.map (fun q => if q.ctx == r.ctx then { q with prio1 := true, at_ := s.cycles } else q) }))).swapWaits d

/-- Requests a swap-in of a context, once (R217). -/
def State.swapRequest (s : State) (c : Nat) : State :=
  let d := ctxDie c
  if s.ctxRes c == 0 && s.ctx c 8 2 != 0 && s.streamOn d && !(s.streamAt d).reqs.any (fun r => r.ctx == c) then
    (s.updStream d (fun x => { x with reqs := x.reqs ++ [{ ctx := c, at_ := s.cycles, prio1 := false }] })).streamSettle d
  else s

/-! ### Graphs in flight -/

/-- Changes a task of a graph in flight. -/
def State.updTask (s : State) (g t : Nat) (f : TaskInst → TaskInst) : State :=
  s.updGraph g (fun x => { x with tasks := lmod x.tasks t f })

/-- Counts an outcome of a task in its graph, with the coverage of a failed task of a tile set (R353). -/
def State.tally (s : State) (g : Nat) (out : TaskOut) : State :=
  match s.graphOf g with
  | none => s
  | some x =>
    let s := s.updGraph g (fun x => if out.good then { x with okCnt := x.okCnt + 1 } else { x with otherCnt := x.otherCnt + 1 })
    match x.tile with
    | some (col, band) => if out.good || out == .shed then s else s.coverTile col band 8
    | none => s

/-- The completion record of a task that ends without running (R320). -/
def State.unrun (s : State) (g : GraphInst) (t : Nat) (e : TaskEntry) (inst : Nat) (out : TaskOut) (cycles : Nat) : State :=
  let h := s.taskHdr g.die e.header
  let r : RunTask := {
    graph := g.id, task := t, inst := inst, start := s.cycles, variant := g.variant, epoch := s.bond.epoch,
    progAddr := h.progAddr, progLen := h.prog, recAddr := h.recAddr, nrec := h.nrec, rclass := .classI,
    wcet := h.wcet, compAddr := h.comp }
  s.completion g.die r out cycles

/-- A task that ends without running leaves no chunk behind (R222). -/
def State.chunkDrop (s : State) (d g t : Nat) : State :=
  s.each (s.streamAt d).queue (fun s p =>
    if p.2.any (fun k => k.graph == g && k.task == t) then
      s.ctxSetQueue p.1 (p.2.filter (fun k => !(k.graph == g && k.task == t)))
    else s)

/-- A task of a graph is done: the tasks that depend on it, in its graph and in the graphs of the same frame in other die pairs
(R136), lose a predecessor. Also those tasks. -/
def State.releaseSuccs (s : State) (g t : Nat) : State × List (Nat × Nat) :=
  match s.graphOf g with
  | none => (s, [])
  | some x => match x.tasks[t]? with
    | none => (s, [])
    | some k =>
      let key := (x.die, x.tpl, t)
      let deps : List (Nat × Nat) := if x.tile.isSome then [] else
        (s.bond.graphs.filter (fun y => y.frame == x.frame)).flatMap (fun y =>
          ((List.range y.tasks.length).zip y.tasks).filterMap (fun (u, q) => if q.cross.contains key then some (y.id, u) else none))
      let s := s.each k.entry.succ (fun s u => s.updTask g u (fun k => { k with preds := k.preds - 1 }))
      (s.each deps (fun s p => s.updTask p.1 p.2 (fun k => { k with cross := k.cross.filter (fun c => c != key) })),
        k.entry.succ.map (fun u => (g, u)) ++ deps)

/-- A task depends on nothing more: its predecessors have completed (R324), its shards are delivered or given up (R136, R146), and
the tile sets it looks ahead to exist (R237). -/
def TaskInst.free (k : TaskInst) : Bool := k.st == .waiting && k.preds == 0 && k.look.isEmpty && k.cross.isEmpty

/-- Tasks that may have lost their last dependence become ready: their instance count is read (R324), and a count of 0
completes the task OK_EMPTY for the dispatch overhead, which releases its successors in turn; a count that cannot be read
completes it MEM_FAULT (R287). -/
def State.readyLoop : Nat → List (Nat × Nat) → State → State
  | 0, _, s => s
  | _, [], s => s
  | n + 1, (g, t) :: l, s =>
    match s.graphOf g with
    | none => readyLoop n l s
    | some x => match x.tasks[t]? with
      | none => readyLoop n l s
      | some k =>
        if !k.free then readyLoop n l s
        else
          let e := k.entry
          let (s, bad) := if e.repeatMax = 0 then (s, false) else s.eccRead (memKey (spLintel x.die) e.countAddr) 4
          let cnt := if e.repeatMax = 0 then 1 else if bad then 0 else min (s.lin x.die e.countAddr 4) e.repeatMax
          if cnt = 0 then
            let out : TaskOut := if bad then .memFault else .okEmpty
            let s := (s.updTask g t (fun k => { k with st := .done, total := 0 })).tally g out
            let s := (s.unrun x t e 0 out 256).chunkDrop x.die g t
            let s := if x.client = 15 then s else s.updBond (fun b => { b with used := countAdd b.used x.client 256 })
            let (s, m) := s.releaseSuccs g t
            readyLoop n (l ++ m) (s.graphCheck g)
          else
            let s := s.updTask g t (fun k => { k with st := .ready, total := cnt, readyAt := s.bond.readyCnt })
            readyLoop n l (s.updBond (fun b => { b with readyCnt := b.readyCnt + 1 }))

/-- Runs `readyLoop` over tasks, with as many steps as suffice: one for each of them and for each dependence in flight. -/
def State.readyRun (s : State) (l : List (Nat × Nat)) : State :=
  State.readyLoop (l.length + (s.bond.graphs.map (fun x => (x.tasks.map (fun k => k.entry.succ.length + k.cross.length)).sum)).sum + 1) l s

/-- Every task in flight that depends on nothing more becomes ready. -/
def State.readyAll (s : State) : State :=
  s.readyRun (s.bond.graphs.flatMap (fun x =>
    ((List.range x.tasks.length).zip x.tasks).filterMap (fun (t, k) => if k.free then some (x.id, t) else none)))

/-- One instance of a task ends with an outcome: when every instance has, its successors lose a predecessor. -/
def State.instanceDone (s : State) (g t : Nat) (out : TaskOut) : State :=
  let s := (s.tally g out).updTask g t (fun k =>
    let n := k.done + 1
    { k with done := n, st := if n = k.total then .done else k.st })
  match s.graphOf g with
  | none => s
  | some x => match x.tasks[t]? with
    | none => s
    | some k =>
      if k.st != .done then s
      else
        let (s, m) := s.releaseSuccs g t
        ((s.readyRun m).graphCheck g).streamSettle x.die

/-! ### Dependences on later tile sets (R237) -/

/-- A dependence on the tile set of a band is satisfied at a posted mark: the task's chunk takes marks, and one beyond its last step
lies at or below the band's first row. -/
def State.lookMarked (s : State) (x : GraphInst) (k : TaskInst) (band : Int) : Bool :=
  match s.chunkOf x.die (slotOf x k.entry) k.entry.header with
  | none => false
  | some ch => ch.markReset && s.ctxFlag ch.ctx 0 &&
      (s.streamAt x.die).marks.any (fun m => decide (ch.last < m.sp) && decide (m.sp ≤ s.bandSp band))

/-- A task of the graph depends on a later tile set. -/
def GraphInst.looks (x : GraphInst) : Bool := x.tasks.any (fun k => !k.look.isEmpty)

/-- The watch of a graph's stage opens for PATH work, once no task of it depends on a later tile set (R444). -/
def State.graphWatch (s : State) (x : GraphInst) : State :=
  if x.kind == .path && !x.looks then s.watchRef x.stage x.id else s

/-- Drops the dependences on later tile sets that `f` says are satisfied; the tasks that were waiting for them count from this
frame, and the watch of a graph from the last of them (R444). -/
def State.lookDrop (s : State) (f : GraphInst → TaskInst → Int → Bool) : State :=
  let waiting := (s.bond.graphs.filter (·.looks)).map (·.id)
  let s := s.updBond (fun b => { b with graphs := b.graphs.map (fun x => { x with tasks := x.tasks.map (fun k =>
    if k.look.any (f x k) then { k with look := k.look.filter (fun n => !f x k n), since := s.bond.frame } else k) }) })
  (s.each (s.bond.graphs.filter (fun x => waiting.contains x.id)) State.graphWatch).readyAll

/-- A position mark has been posted: the dependences it satisfies. -/
def State.lookSettle (s : State) : State := s.lookDrop s.lookMarked

/-- The tile set of a column and band exists. -/
def State.lookRelease (s : State) (col : Nat) (band : Int) : State :=
  s.lookDrop (fun x _ n => n == band && (match x.tile with | some (c, _) => c == col | none => false))

/-! ### Graphs entered -/

/-- Enqueues the chunks of a graph's tasks (R222): a 16th behind 15 is not queued, and its task completes STREAM_QFULL. -/
def State.enqueueChunks (s : State) (g : GraphInst) : State :=
  s.each ((List.range g.tasks.length).zip g.tasks) (fun s (t, k) =>
    match s.chunkOf g.die (slotOf g k.entry) k.entry.header with
    | none => s
    | some ch =>
      let q := s.ctxQueue ch.ctx
      if 15 ≤ q.length then
        let s := (s.raise (evStream g.die) 2).chunkLost ch
        ((s.unrun g t k.entry 0 .streamQfull 0).updTask g.id t (fun k => { k with st := .ready })).instanceDone g.id t .streamQfull
      else (s.ctxSetQueue ch.ctx (q ++ [{ graph := g.id, task := t, info := ch }])).swapRequest ch.ctx)

/-- Adds a graph to those in flight, under the next identifier: its tasks with their predecessors counted, and the tile sets they
look ahead to. -/
def State.addGraph (s : State) (die client : Nat) (kind : GraphKind) (stage : Nat) (relSp : Int) (tile : Option (Nat × Int))
    (roleSlot : List Nat) (tpl : Nat) (entries : List TaskEntry) : State :=
  let preds (t : Nat) : Nat := (entries.map (fun e => e.succ.count t)).sum
  let look (e : TaskEntry) : List Int := match tile with
    | some (_, band) => (List.range e.look).map (fun (i : Nat) => band + 1 + (i : Int))
    | none => []
  let tasks : List TaskInst := ((List.range entries.length).zip entries).map (fun (t, e) =>
    { entry := e, preds := preds t, look := look e, cross := e.cross, since := s.bond.frame })
  let g : GraphInst := {
    id := s.bond.nextGraph, die := die, client := client, kind := kind, stage := stage, relSp := relSp, tpl := tpl,
    variant := s.bond.variant, frame := s.bond.frame, tile := tile, roleSlot := roleSlot, released := s.now, tasks := tasks }
  s.updBond (fun b => { b with nextGraph := (b.nextGraph + 1) % 2 ^ 32, graphs := b.graphs ++ [g] })

/-- A graph that has been added starts: its chunks are queued, the watch of its stage opens (R444), and the tasks that
depend on nothing are ready at once. A graph of no tasks completes at once for the dispatch overhead (R326). -/
def State.startGraph (s : State) (id : Nat) : State :=
  match s.graphOf id with
  | none => s
  | some g =>
    let s := s.graphWatch g
    let s := if g.tasks.isEmpty then
        s.updAccount g.client g.die (fun a => { a with cycles := a.cycles + 256, msCycles := a.msCycles + 256 }) else s
    let s := (s.enqueueChunks g).lookSettle
    let s := s.readyRun ((List.range g.tasks.length).map (fun t => (id, t)))
    (s.streamSettle g.die).graphCheck id

/-- Enters a graph. -/
def State.enterGraph (s : State) (die client : Nat) (kind : GraphKind) (stage : Nat) (relSp : Int) (tile : Option (Nat × Int))
    (roleSlot : List Nat) (tpl : Nat) (entries : List TaskEntry) : State :=
  (s.addGraph die client kind stage relSp tile roleSlot tpl entries).startGraph s.bond.nextGraph

/-! ### Release of tile sets -/

/-- The variants in force: those of the admission, as re-admission moved them. -/
def State.varDie (s : State) (v d : Nat) : Option VarDie :=
  match s.bond.adm.variants[v]? with
  | some l => l[d]?
  | none => none

/-- A physical core is switched on (R551); one that runs a task is not switched off. -/
def State.coreOn (s : State) (d p : Nat) : Bool :=
  match (s.coreAt d p).role with
  | .inSlot i =>
    let mask := match s.varDie s.bond.variant d with
      | some v => v.slotUse ||| v.clientMask
      | none => 0
    s.mgmt.pow == .run && (s.dieAt d).st != .failed && (s.bond.st != .running || (s.slotAt d i).spareIn.isSome || (s.runAt d i).isSome || mask.testBit i)
  | _ => false

/-- The cause for which a tile set of a die pair and band is not released, if any: the pair is FAILED, or its plan has not
resumed, or resumed after the band (R458, R346). -/
def State.notResumed (s : State) (d : Nat) (band : Int) : Option Nat :=
  if (s.dieAt d).st == .failed then some 7
  else match s.bond.resume.find? (fun p => p.1 == d) with
    | some p => some p.2
    | none => match s.bond.resumed.find? (fun p => p.1 == d) with
      | some p => if band < p.2.1 then some p.2.2 else none
      | none => none

/-- Releases the template of a tile set's mapping entry (R340), or records why it is not released. -/
def State.releaseGraph (s : State) (col : Nat) (band : Int) : State :=
  let d := col / 32
  let s := s.lookRelease col band
  if s.bond.st != .running || decide (band < s.bond.fromBand) then s
  else match s.notResumed d band with
    | some cause => s.coverTile col band cause
    | none => match s.bond.plan, s.varDie s.bond.variant d with
      | some p, some v =>
        let fb := max 1 p.frameBands
        match v.map[col % 32 * fb + (band % fb).toNat]? with
        | none => s.coverTile col band 9
        | some m => match p.templates[m.template]? with
          | none => s.coverTile col band 9
          | some t =>
            let slots := t.graph.map (fun e => lget 0 m.roleSlot e.slot)
            if slots.any (fun i => (s.slotAt d i).vacant) then s.coverTile col band 9
            else
              let held := s.bond.graphs.any (fun g => g.die == d && g.kind == .path && g.tasks.any (fun k =>
                k.st != .done && decide (k.issued < k.total) && k.look.isEmpty && decide (k.since < s.bond.frame) &&
                  slots.contains (slotOf g k.entry)))
              if held then
                let s := ((s.bump 0x70044).raise evBond 5).coverTile col band 11
                s.each t.graph (fun s e => match s.chunkOf d (lget 0 m.roleSlot e.slot) e.header with
                  | some ch => s.chunkLost ch
                  | none => s)
              else s.enterGraph d 15 (if t.path then .path else .background) t.stage (s.bandSp band) (some (col, band)) m.roleSlot
                m.template t.graph
      | _, _ => s

end Sys2Proof.Machine
end

