-- ==== Sys2Proof/Machine/Acq.lean ====
section
/-!
DEFINITION. Acquisition: connection groups, lines and their stamps (R72 to R83), flat-field correction (R84 to R86), the
projection into the strip frame (R87 to R91), tiles, headers and release (R92 to R96), sensor records and fusion (R97 to
R101).
-/
namespace Sys2Proof.Machine

def aSrc (n : Nat) : Nat := 0x21000 + 0x20 * n

/-! ### Groups -/

/-- Groups of the part that are enabled. -/
def State.grpOn (s : State) (g : Nat) : Bool := decide (g < s.nGrp) && s.rbit (aGrp g) 31

/-- LINE_PIXELS. -/
def State.linePixels (s : State) (g : Nat) : Nat := s.rfld (aGrp g + 4) 14 0

/-- The group does not start: it is in the masks of two generators, or its PIXFMT or LINE_PIXELS is not a legal value
(R76, R102, R103). -/
def State.grpCfgErr (s : State) (g : Nat) : Bool :=
  let masks := (List.range 4).filter (fun l => wbit (s.regGet (aLg l)) (16 + g))
  let n := s.linePixels g
  decide (2 ≤ masks.length) || (s.grpOn g && (s.rfld (aGrp g) 25 24 == 3 || n == 0 || decide (16384 < n)))

/-- A group is UP, and in no configuration error, which keeps it from starting. -/
def State.grpUp (s : State) (g : Nat) : Bool := (s.grpAt g).st == .up && !s.grpCfgErr g

/-- Pixel depth of a group, bits. -/
def State.pixDepth (s : State) (g : Nat) : Nat := 8 + 2 * min (s.rfld (aGrp g) 25 24) 2

/-- The nibble of PHMAP of a phase: VALID and channel. -/
def State.phChan (s : State) (g ph : Nat) : Option Nat :=
  let n := s.rfld (aGrp g + 8) (4 * ph + 3) (4 * ph)
  if n.testBit 3 then some (n % 4) else none

/-- Channels a group's PHMAP names. -/
def State.grpChans (s : State) (g : Nat) : List Nat := (List.range 4).filterMap (fun ph => s.phChan g ph)

/-- ALONG_OFS of a group, µm. -/
def State.alongOfs (s : State) (g : Nat) : Int := s.rint (aGrp g + 0xC)

/-- The ALONG_OFS values of the groups of a channel lie too far apart (R88). -/
def State.alongErr (s : State) : Bool :=
  (List.range 4).any (fun c =>
    let l := ((List.range 8).filter (fun g => s.grpOn g && (s.grpChans g).contains c)).map s.alongOfs
    l.any (fun a => l.any (fun b => decide (128000 < a - b))))

/-- Bytes of a line's payload: a line ends on a whole byte (R74). -/
def State.lineBytes (s : State) (g : Nat) : Nat := (s.linePixels g * s.pixDepth g + 7) / 8

/-- The n pixels of depth d of a payload: consecutive pixels occupy consecutive bits, the first the least significant (log
entry 85). -/
def unpackPix (d n : Nat) (bytes : List Byte) : List Nat :=
  (List.range n).map (fun k => leAt bytes (k * d / 8) 3 / 2 ^ (k * d % 8) % 2 ^ d)

/-- An enabled source of a legal kind: one of a reserved KIND is treated as disabled (R103). -/
def State.srcOn (s : State) (n : Nat) : Bool := decide (n < 64) && s.rbit (aSrc n) 31 && !s.rbit (aSrc n) 27

/-- More than 8 sources have PIXEL set (R101). -/
def State.fusionErr (s : State) : Bool :=
  decide (8 < ((List.range 64).filter (fun n => s.srcOn n && s.rbit (aSrc n) 30)).length)

/-- An enabled source has a reserved KIND (R103). -/
def State.srcKindErr (s : State) : Bool :=
  (List.range 64).any (fun n => s.rbit (aSrc n) 31 && s.rbit (aSrc n) 27)

/-- Discovery of a group starts (R73); a group in configuration error does not start. -/
def State.discover (s : State) (g : Nat) : State :=
  if s.grpCfgErr g then (s.updGrp g (fun x => { x with st := .off })).raise evAcq 15
  else s.updGrp g (fun x => { x with st := .discovering, since := s.now, retry := false, expTag := none, left := 0, badImg := false, dropImg := false })

/-! ### Stamps -/

/-- Identifier of the watch of a stamp. -/
def stampId (g : Nat) (st : Stamp) : Nat := st.issued * 8 + g

/-- The least whole number at or above a quotient. -/
def ceilDiv (a b : Int) : Int := -Int.fdiv (-a) b

/-- Counts a line as absent in its channel and band (R95). -/
def State.absentLine (s : State) (g : Nat) (st : Stamp) : State :=
  let p := s.pitchFine
  match s.phChan g st.phase with
  | none => s
  | some c =>
    if p ≤ 0 then s
    else
      let band := Int.fdiv (Int.fdiv (st.pos + s.alongOfs g * umFine) p) 256
      s.updAcq (fun a =>
        let n := match a.absent.find? (fun e => e.1 == c && e.2.1 == band) with
          | some e => e.2.2
          | none => 0
        { a with absent := (c, band, n + 1) :: a.absent.filter (fun e => !(e.1 == c && e.2.1 == band)) })

/-- A stamp is retired as MISSING (R80, R81). -/
def State.missing (s : State) (g : Nat) (st : Stamp) : State :=
  ((s.bumpHi (aGrp g + 0x28)).raise evAcq 10).absentLine g st |>.watchKick 1 (stampId g st)

/-- Retires the oldest n stamps of a group as MISSING. -/
def State.retire (s : State) (g n : Nat) : State :=
  let l := (s.grpAt g).stamps
  (s.updGrp g (fun x => { x with stamps := l.drop n })).each (l.take n) (fun s st => s.missing g st)

/-- Along-strip position of the last stamp that every covering group and channel has been issued; none while one has had
none. -/
def State.issuedMin (s : State) : Option Int :=
  let keys := ((List.range s.nGrp).filter s.grpOn).flatMap (fun g => (s.grpChans g).map (fun c => 4 * g + c))
  let ys := keys.map (fun k => (s.acq.issued.find? (fun p => p.1 == k)).map (·.2))
  if ys.any Option.isNone then none
  else match ys.filterMap id with
    | [] => none
    | y :: l => some (l.foldl min y)

/-- The trigger of the last line that contributes to a tile set opens its stage 2 watch (R444): a stamp that takes every
covering group past the last row of a band opens one for each column. -/
def State.tilingWatch (s : State) (g : Nat) (st : Stamp) : State :=
  match s.phChan g st.phase with
  | none => s
  | some c =>
    let y := st.pos + s.alongOfs g * umFine
    let old := s.issuedMin
    let p := s.pitchFine
    let band (z : Int) : Int := if p ≤ 0 then 0 else Int.fdiv (ceilDiv z p) 256
    let jump := match s.acq.issued.find? (fun q => q.1 == 4 * g + c) with
      | some q => decide (1 < (band y - band q.2).natAbs)
      | none => s.acq.bandLo.isNone
    let s := s.updAcq (fun a => { a with
      issued := (4 * g + c, y) :: a.issued.filter (fun p => p.1 != 4 * g + c), bandLo := if jump then some (band y) else a.bandLo })
    match old, s.issuedMin with
    | some y0, some y1 =>
      if p ≤ 0 then s
      else
        let b0 := Int.fdiv (ceilDiv y0 p) 256
        let b1 := Int.fdiv (ceilDiv y1 p) 256
        s.each (List.range (b1 - b0).toNat) (fun s k => s.each (List.range (s.rfld 0x20018 7 0)) (fun s col =>
          s.watchRef 2 (codeOf 40 (b0 + (k : Int)) * 256 + col)))
    | _, _ => s

/-! ### Flat field (R85) and map (R88) -/

/-- A pixel corrected by its coefficient: the 8-bit value, and whether it saturated. -/
def flatPixel (coef x depth : Nat) : Nat × Bool :=
  let gain : Int := coef / 65536
  let ofs := signedOf 16 coef
  let d := depth - 8
  let v := max (((x : Int) * 16 - ofs) * gain) 0
  let y := (v.toNat + 2 ^ (15 + d)) / 2 ^ (16 + d)
  if 255 < y then (255, true) else (y, false)

/-- The corrected pixels of a line (R85). -/
def State.flatLine (s : State) (g ph : Nat) (pix : List Nat) : List (Nat × Bool) :=
  ((List.range pix.length).zip pix).map (fun (i, x) =>
    flatPixel (s.ldN (memKey (spFlat g 0) (65536 * ph + 4 * i)) 4) x (s.pixDepth g))

/-- Map entry of a pixel: X in 2⁻⁸ µm, DY in 2⁻⁴ µm, W. -/
def State.mapX (s : State) (g i : Nat) : Int := signedOf 32 (s.ldN (memKey (spProj g 0) (8 * i + 4)) 4)
def State.mapDy (s : State) (g i : Nat) : Int := signedOf 16 (s.ldN (memKey (spProj g 0) (8 * i + 2)) 2)
def State.mapW (s : State) (g i : Nat) : Nat := s.ldN (memKey (spProj g 0) (8 * i)) 2

/-- Along-strip position of pixel i of a line, 2⁻²⁴ µm. -/
def State.pixY (s : State) (g : Nat) (st : Stamp) (i : Nat) : Int :=
  st.pos + s.alongOfs g * umFine + s.mapDy g i * 2 ^ 20

/-! ### Tiles -/

/-- Ring offset of grid row r, channel c, grid column x (R93). -/
def ringOff (r : Int) (c x d : Nat) : Nat :=
  (((Int.fdiv r 64 % 48).toNat * 4 + c) * 128 + (x / 64 - 128 * d)) * 4096 + (r % 64).toNat * 64 + x % 64

/-- Lintel offset of a tile header (R282). -/
def headerOff (band : Int) (c k : Nat) : Nat := 0x06000000 + (((band % 12).toNat * 4 + c) * 32 + k % 32) * 128

/-- The 65,536 pixels of a tile in block order. -/
def State.tileBytes (s : State) (band : Int) (c k : Nat) : List Byte :=
  ((List.range 16).map (fun b =>
    s.ldBytes (memKey (spLintel (k / 32)) (ringOff (256 * band + 64 * (b / 4 : Nat)) c (256 * k + 64 * (b % 4)) (k / 32))) 4096)).flatten

/-- Writes a tile's header (R95). -/
def State.tileHeader (s : State) (t : TileAcc) : State :=
  let absent := match s.acq.absent.find? (fun e => e.1 == t.ch && e.2.1 == t.band) with
    | some e => e.2.2
    | none => 0
  let swap := s.acq.swapBand.contains t.band
  let nd := ((List.range 256).filter (fun i => t.rowMask.testBit i)).length
  let colMask := (2 ^ 256 - 1) - t.colData % 2 ^ 256
  let flags := t.flags % 16 + 16 * b2n (decide (0 < nd)) + 32 * b2n (decide (0 < absent)) + 64 * b2n (t.flags.testBit 6) + 128 * b2n swap
  let h := le64 (s.bandSp t.band) ++ leBytes 8 (Sys2Proof.Machine.time64 t.tFirst) ++ leBytes 8 (Sys2Proof.Machine.time64 t.tLast) ++ leBytes 4 (codeOf 32 t.band) ++
    leBytes 2 t.col ++ [BitVec.ofNat 8 t.ch, 0#8] ++ leBytes 2 flags ++ leBytes 2 nd ++ leBytes 2 (min t.sat 65535) ++
    leBytes 2 (min absent 65535) ++ leBytes 4 (crc32c (s.tileBytes t.band t.ch t.col)) ++ leBytes 4 0 ++
    leBytes 32 t.rowMask ++ leBytes 32 colMask ++ leBytes 16 0
  s.stBytes (memKey (spLintel (t.col / 32)) (headerOff t.band t.ch t.col)) h

/-! ### Fusion (R100, R101) -/

/-- A PROFILE source at a cross-strip position in 2⁻¹⁶ µm, formed exactly: sign, mantissa and exponent of a numerator over a
whole number. None outside its values, where the spec states no value. -/
def profileExact (v : SrcVal) (x : Int) : Option (Bool × Nat × Int × Nat) :=
  let off := x - v.x0 * 65536
  let p : Int := (v.pitch : Int) * 65536
  if p = 0 ∨ off < 0 ∨ ((v.vals.length : Int) - 1) * p < off then none
  else
    let f := (off % p).toNat
    match fval (lget 0#32 v.vals (off / p).toNat), fval (lget 0#32 v.vals ((off / p).toNat + 1)) with
    | .fin n1 m1 e1, .fin n2 m2 e2 =>
      let r := dyAdd n1 (m1 * (p.toNat - f)) e1 n2 (m2 * f) e2
      some (r.1, r.2.1, r.2.2, p.toNat)
    | _, _ => none

/-- The value of a PROFILE source at a position, rounded once to FP32. -/
def State.profileAt (s : State) (v : SrcVal) (x : Int) : Word :=
  match profileExact v x with
  | none => s.free
  | some (n, m, e, p) => let q := dyDiv m e p 0; fround .classI n q.1 q.2

/-- A cell of a plane row: clamp(round(v ÷ SCALE) + ZP, 0, 255), rounded once (R101); a SCALE that is zero or a NaN gives a
value the spec does not state. -/
def State.profilePix (s : State) (v : SrcVal) (q : Word) (x : Int) : Byte :=
  let put (z : Int) : Byte := BitVec.ofNat 8 (clampInt 0 255 (z + (fld q 7 0 : Nat))).toNat
  match profileExact v x, fval (bf16Word (fld q 31 16)) with
  | some (n, m, e, p), .fin ns ms es =>
    if ms = 0 then BitVec.ofNat 8 s.free.toNat
    else let r := dyDiv m e (p * ms) es; put (dyRoundInt .classI (n ^^ ns) r.1 r.2)
  | some _, .inf _ => put 0
  | _, _ => BitVec.ofNat 8 s.free.toNat

/-- A cross-strip position of the grid in 2⁻¹⁶ µm (R87). -/
def State.colX (s : State) (c : Nat) : Int := s.rint 0x20014 * 65536 + (c : Int) * ((s.regGet 0x20010).toNat : Int)

/-- AGE_US and AGE_UM of a source at the instant of a band: in whole µs, truncated toward zero, and in whole µm, rounded down
(log entry 86). -/
def State.ages (s : State) (v : SrcVal) (band : Int) : Int × Int :=
  let us := Int.tdiv ((s.acq.instTime : Int) - v.time) (1000 * 2 ^ 32)
  let um := Int.fdiv ((256 * band + 128) * s.pitchFine) umFine - v.y
  (clampInt (-2147483648) 2147483647 us, clampInt (-2147483648) 2147483647 um)

/-- A source is STALE at the instant of a band. -/
def State.srcStale (s : State) (n : Nat) (v : SrcVal) (band : Int) : Bool :=
  let (us, um) := s.ages v band
  let lu := (s.regGet (aSrc n + 8)).toNat
  let lm := (s.regGet (aSrc n + 0xC)).toNat
  (lu ≠ 0 && decide ((lu : Int) < us)) || (lm ≠ 0 && decide (lm < um.natAbs))

/-- The fusion instant of a band (R100): staleness and NONE are judged, and LATE_SEEN is taken and cleared. -/
def State.fusionInstant (s : State) (band : Int) (tLast : Nat) : State :=
  let late := (List.range 64).filter (fun n => (s.srcAt n).lateSeen)
  let s := s.updAcq (fun a => { a with instTime := tLast, instLate := late, lastBand := band })
  s.each ((List.range 64).filter s.srcOn) (fun s n =>
    let x := s.srcAt n
    match x.val with
    | none => s.updSrc n (fun x => { x with none_ := true, lateSeen := false })
    | some v =>
      let st := s.srcStale n v band
      let s := s.updSrc n (fun x => { x with stale := st, none_ := false, lateSeen := false })
      if st && !x.stale then s.raise evAcq 1 else if !st && x.stale then s.raise evAcq 0 else s)

/-- The decision level of a tile set: the fields of a FUSED record (R484). -/
def State.fusedBody (s : State) (col : Nat) (band : Int) : List Byte :=
  let srcs := (List.range 64).filter s.srcOn
  let one (n : Nat) : List Byte :=
    let x := s.srcAt n
    let prof := s.rbit (aSrc n) 26
    let vals := match x.val with
      | none => []
      | some v => if prof then [s.profileAt v (s.colX (256 * col + 128))] else v.vals
    let (us, um) := match x.val with
      | some v => s.ages v band
      | none => (0, 0)
    let fl := b2n (s.acq.instLate.contains n) + 2 * b2n x.stale + 4 * b2n x.val.isNone + 8 * b2n prof
    let e := [BitVec.ofNat 8 n, BitVec.ofNat 8 fl, BitVec.ofNat 8 vals.length, 0#8] ++ leBytes 4 (codeOf 32 us) ++
      leBytes 4 (codeOf 32 um) ++ (vals.map (fun w => leBytes 4 w.toNat)).flatten
    e ++ List.replicate ((8 - e.length % 8) % 8) 0#8
  le64 (s.bandSp band) ++ leBytes 8 (Sys2Proof.Machine.time64 s.acq.instTime) ++ leBytes 4 (codeOf 32 band) ++ leBytes 2 col ++
    [BitVec.ofNat 8 srcs.length, 0#8] ++ (srcs.map one).flatten

/-- Where the fusion data of a tile set stand in the die's side store: pixel level, feature level 2 KiB and decision level
8 KiB further. -/
def sideOff (band : Int) (col : Nat) : Nat := ((band % 12).toNat * 32 + col % 32) * 16384

/-- The three fusion levels of a tile set, written beside it (R101). -/
def State.sideData (s : State) (col : Nat) (band : Int) : State :=
  let live (n : Nat) : Bool := s.srcOn n && !(s.srcAt n).stale && (s.srcAt n).val.isSome
  let pix := (List.range 64).filter (fun n => live n && s.rbit (aSrc n) 30 && s.rbit (aSrc n) 26)
  let row (n : Nat) : List Byte := match (s.srcAt n).val with
    | none => []
    | some v => (List.range 256).map (fun c => s.profilePix v (s.regGet (aSrc n + 0x10)) (s.colX (256 * col + c)))
  let feat (n : Nat) : List Byte := match (s.srcAt n).val with
    | none => []
    | some v => if s.rbit (aSrc n) 26 then leBytes 4 (s.profileAt v (s.colX (256 * col + 128))).toNat
      else (v.vals.map (fun w => leBytes 4 w.toNat)).flatten
  let fs := ((List.range 64).filter (fun n => live n && s.rbit (aSrc n) 29)).map feat
  let body := s.fusedBody col band
  let at_ (k : Nat) : Nat := memKey (spSide (col / 32)) (sideOff band col + k)
  (((s.stBytes (at_ 0) ((pix.map row).flatten)).stBytes (at_ 2048) fs.flatten).stBytes (at_ 8192) body).drew

/-! ### Release of tile sets (R96) -/

/-- Channels that some PHMAP names. -/
def State.usedChans (s : State) : List Nat :=
  (List.range 4).filter (fun c => (List.range s.nGrp).any (fun g => (s.grpChans g).contains c))

/-- Some group of a channel is UP. -/
def State.chanUp (s : State) (c : Nat) : Bool :=
  (List.range s.nGrp).any (fun g => s.grpOn g && s.grpUp g && (s.grpChans g).contains c)

/-- The last band of a column that was released. -/
def State.relOf (s : State) (col : Nat) : Option Int := (s.acq.relBand.find? (fun p => p.1 == col)).map (·.2)

/-- A NO_DATA interval of a channel over grid columns [x0, x1) of rows [r0, r1). -/
def State.coverNoData (s : State) (c : Nat) (r0 r1 : Int) (x0 x1 : Nat) : State :=
  let p := s.pitchFine
  let o := s.rint 0x20014
  s.cover { spStart := Int.fdiv (r0 * p) umFine, spEnd := Int.fdiv (r1 * p) umFine, x0 := o + Int.fdiv ((x0 : Int) * p) umFine,
            x1 := o + Int.fdiv ((x1 : Int) * p) umFine, chans := 2 ^ c, cause := 1, flags := 0 }

/-- A tile of a channel with no group UP, written with every cell NO_DATA. -/
def State.emptyTile (s : State) (c col : Nat) (band : Int) : State :=
  let d := col / 32
  let s := s.each (List.range 16) (fun s b =>
    s.zero (memKey (spLintel d) (ringOff (256 * band + 64 * (b / 4 : Nat)) c (256 * col + 64 * (b % 4)) d)) 4096)
  let s := (s.coverNoData c (256 * band) (256 * band + 256) (256 * col) (256 * col + 256)).raise evAcq 6
  s.tileHeader { ch := c, col := col, band := band, rows := 256, rowMask := 2 ^ 256 - 1, done := true }

/-- The rows of a channel below r are done with: they stand in the rings, and no line forms them again (R91). -/
def State.rowsPast (s : State) (c : Nat) (r : Int) : State :=
  let past (l : List (Nat × Int)) : List (Nat × Int) :=
    let q := match l.find? (fun p => p.1 == c) with
      | some p => max p.2 r
      | none => r
    (c, q) :: l.filter (fun p => p.1 != c)
  s.updAcq (fun a => { a with
    nextRow := past a.nextRow, formed := past a.formed, contribs := a.contribs.filter (fun k => !(k.ch == c && decide (k.row < r))) })

/-- Releases a tile set: fusion data first, then its graph. -/
def State.releaseTileSet (s : State) (col : Nat) (band : Int) : State :=
  let mine := s.acq.tiles.filter (fun t => t.col == col && t.band == band)
  let have_ := (mine.filter (·.done)).map (·.ch)
  let s := s.each (s.usedChans.filter (fun c => !have_.contains c)) (fun s c => (s.emptyTile c col band).rowsPast c (256 * band + 256))
  let tLast := (mine.map (·.tLast)).foldl max 0
  let fresh := s.acq.relBand.all (fun p => decide (p.2 < band))
  let s := s.updAcq (fun a => { a with
    tiles := a.tiles.filter (fun t => !(t.col == col && decide (t.band ≤ band))),
    relBand := (col, band) :: a.relBand.filter (fun p => p.1 != col) })
  let s := (s.regSet 0x20024 (wordOf (codeOf 64 band))).regSet 0x20028 (wordOf (codeOf 64 band / 2 ^ 32))
  let s := if s.acq.fusionOff then s else (if fresh then s.fusionInstant band tLast else s).sideData col band
  let s := s.watchKick 2 (codeOf 40 band * 256 + col)
  let decim := s.rfld 0xD0020 15 0
  let s := if !s.acq.fusionOff && decim ≠ 0 && s.rfld 0xD0020 23 16 == col && band % (decim : Int) == 0 then
      s.emit 2 (col / 32) (s.fusedBody col band) else s
  s.releaseGraph col band

/-- Row band the next line of every covering group and channel begins in: the lines of the bands below have all been asked
for. -/
def State.bandAsked (s : State) : Option Int :=
  match s.issuedMin with
  | some y => if s.pitchFine ≤ 0 then none else some (Int.fdiv (ceilDiv y s.pitchFine) 256)
  | none => none

/-- The next band of a column to be released, where no tile of it need have been written: all its lines have been asked for
(log entry 27). -/
def State.nextBand (s : State) (col : Nat) : Option Int :=
  match s.bandAsked, s.acq.bandLo with
  | some a, some lo =>
    let b := match s.relOf col with
      | some r => max lo (r + 1)
      | none => lo
    if b < a then some b else none
  | _, _ => none

/-- A tile set may be released now (R96): each of its tiles is written, or of a channel none of whose groups is UP. -/
def State.tileSetReady (s : State) (col : Nat) (band : Int) : Bool :=
  let done := (s.acq.tiles.filter (fun t => t.col == col && t.band == band && t.done)).map (·.ch)
  (!done.isEmpty || !s.usedChans.isEmpty) && s.usedChans.all (fun c => done.contains c || !s.chanUp c)

/-- The least band of a column not yet released of which a tile is written, or all lines have been asked for. -/
def State.oldestBand (s : State) (col : Nat) : Option Int :=
  let old (b : Int) : Bool := match s.relOf col with
    | some r => decide (b ≤ r)
    | none => false
  match ((s.acq.tiles.filter (fun t => t.col == col && t.done && !old t.band)).map (·.band)) ++ (s.nextBand col).toList with
  | [] => none
  | b :: l => some (l.foldl min b)

/-- Releases what may be released of a column, band after band. -/
def State.releaseLoop (col : Nat) : Nat → State → State
  | 0, s => s
  | n + 1, s => match s.oldestBand col with
    | none => s
    | some b => if s.tileSetReady col b then releaseLoop col n (s.releaseTileSet col b) else s

/-- Releases every tile set that may be released, column by column. -/
def State.releaseCheck (s : State) : State :=
  s.each (List.range (s.rfld 0x20018 7 0)) (fun s col =>
    let more := match s.bandAsked, s.nextBand col with
      | some a, some b => (a - b).toNat
      | _, _ => 0
    State.releaseLoop col (s.acq.tiles.length + more + 1) s)

/-- A stamp is issued for a group (R57, R80). A tile set none of whose channels has a group UP may be released by it (R96). -/
def State.stampIssue (s : State) (g : Nat) (st : Stamp) : State :=
  if !s.acq.running || !s.grpOn g then s
  else
    let s := (s.watchRef 1 (stampId g st)).tilingWatch g st
    if !s.grpUp g then (s.missing g st).releaseCheck
    else
      let s := if 64 ≤ (s.grpAt g).stamps.length then s.retire g 1 else s
      s.updGrp g (fun x => { x with stamps := x.stamps ++ [st] })

/-! ### Rows (R89 to R91) -/

/-- Interpolation along the strip of one pixel between two lines (R89): the rows it contributes to and what it gives them;
`at_` holds the pixel with its map entry. -/
def pixelRows (p maxGap : Int) (at_ : PixVal) (ya yb : Int) (va vb : Nat) : List (Int × PixVal) :=
  if yb ≤ ya ∨ maxGap < yb - ya then []
  else
    let r0 := ceilDiv ya p
    (List.range (ceilDiv yb p - r0).toNat).map (fun (k : Nat) =>
      let r := r0 + (k : Int)
      let t := (r * p - ya) * 65536 / (yb - ya)
      (r, { at_ with v := ((va : Int) * 65536 + t * ((vb : Int) - va)).toNat }))

/-- Adds a line's pixel values to the rows they belong to. -/
def addContrib (l : List Contrib) (ch g : Nat) (st : Stamp) (v : Int × PixVal) : List Contrib :=
  let (r, x) := v
  match l.find? (fun c => c.ch == ch && c.row == r && c.grp == g) with
  | some c => l.map (fun k => if k == c then
      { c with cells := c.cells ++ [x],
               stamp := { c.stamp with time := max c.stamp.time st.time, flags := c.stamp.flags ||| st.flags } } else k)
  | none => l ++ [{ ch := ch, row := r, grp := g, cells := [x], stamp := st }]

/-- The contribution of one group to a grid cell at x in 2⁻¹⁶ µm: weight in 2⁻³¹, value in 2⁻³², saturation; none where it
gives none. The two pixels are those with X(i) ≤ x < X(i + 1) in the maps they were projected with. -/
def Contrib.cellAt (k : Contrib) (x : Int) : Option (Nat × Nat × Bool) :=
  match k.cells.findSome? (fun a => if x < a.x * 256 then none
      else (k.cells.find? (fun b => b.i == a.i + 1 && decide (x < b.x * 256))).map (fun b => (a, b))) with
  | none => none
  | some (a, b) =>
    let u := (x - a.x * 256) * 65536 / ((b.x - a.x) * 256)
    let mix (p q : Nat) : Nat := ((p : Int) * 65536 + u * ((q : Int) - p)).toNat
    some (mix a.w b.w, mix a.v b.v, a.sat || b.sat)

/-- The two contributions of the largest weights, lower groups first among equals (R90): the list comes in increasing group
number. -/
def topTwo (l : List (Nat × Nat × Bool)) : List (Nat × Nat × Bool) :=
  let pick (l : List (Nat × Nat × Bool)) : Option (Nat × Nat × Bool) :=
    l.foldl (fun b x => match b with
      | none => some x
      | some y => if y.1 < x.1 then some x else some y) none
  match pick l with
  | none => []
  | some a => match pick (l.erase a) with
    | none => [a]
    | some b => [a, b]

/-- The value of a cell (R90): the rounded mean, none where it is NO_DATA, and whether a contributor saturated. -/
def cellValue (l : List (Nat × Nat × Bool)) : Option (Nat × Bool) :=
  let w := (l.map (·.1)).sum
  if w = 0 then none
  else
    let num := (l.map (fun c => c.1 * c.2.1)).sum
    let den := w * 2 ^ 32
    some ((2 * num + den) / (2 * den), l.any (·.2.2))

/-- The map of a group covers a cross-strip position, 2⁻¹⁶ µm. -/
def State.mapCovers (s : State) (g : Nat) (x : Int) : Bool :=
  decide (s.mapX g 0 * 256 ≤ x) && decide (x < s.mapX g (s.linePixels g - 1) * 256)

/-- Runs of NO_DATA cells of a row, as half-open column intervals. -/
def emptyRuns : Nat → List (Option (Nat × Bool)) → List (Nat × Nat)
  | _, [] => []
  | i, some _ :: l => emptyRuns (i + 1) l
  | i, none :: l => match emptyRuns (i + 1) l with
    | (a, b) :: r => if a = i + 1 then (i, b) :: r else (i, i + 1) :: (a, b) :: r
    | [] => [(i, i + 1)]

/-- Changes a tile in formation, which it starts where there is none. -/
def State.updTile (s : State) (c col : Nat) (band : Int) (f : TileAcc → TileAcc) : State :=
  s.updAcq (fun a =>
    if a.tiles.any (fun t => t.ch == c && t.col == col && t.band == band) then
      { a with tiles := a.tiles.map (fun t => if t.ch == c && t.col == col && t.band == band then f t else t) }
    else { a with tiles := a.tiles ++ [f { ch := c, col := col, band := band }] })

/-- Forms a row of a channel: its cells are written to the rings, its NO_DATA runs covered, its tiles advanced, and with the
last row of a band their headers are written. -/
def State.formRow (s : State) (c : Nat) (r : Int) : State :=
  let cols := s.rfld 0x20018 7 0
  let ks := (s.acq.contribs.filter (fun k => k.ch == c && k.row == r))
  let ks := (List.range 8).filterMap (fun g => ks.find? (fun k => k.grp == g))
  let gs := (List.range s.nGrp).filter (fun g => s.grpOn g && (s.grpChans g).contains c)
  let raw := (List.range (256 * cols)).map (fun i => ks.filterMap (fun k => k.cellAt (s.colX i)))
  let cells := raw.map (fun l => cellValue (topTwo l))
  let flags := (ks.map (·.stamp.flags)).foldl (· ||| ·) 0
  let time := (ks.map (·.stamp.time)).foldl max 0
  let band := Int.fdiv r 256
  let ri := (r % 256).toNat
  let s := s.each (emptyRuns 0 cells) (fun s (a, b) => s.coverNoData c r (r + 1) a b)
  let s := if cells.any Option.isNone then s.raise evAcq 6 else s
  let s := s.each (List.range cols) (fun s k =>
    let my := (cells.drop (256 * k)).take 256
    let myRaw := (raw.drop (256 * k)).take 256
    let d := k / 32
    let s := s.each (List.range 4) (fun s b =>
      s.stBytes (memKey (spLintel d) (ringOff r c (256 * k + 64 * b) d))
        (((my.drop (64 * b)).take 64).map (fun v => BitVec.ofNat 8 (match v with | some (x, _) => x | none => 0))))
    let one := ((List.range 256).zip myRaw).any (fun (i, l) =>
      l.length == 1 && decide (2 ≤ (gs.filter (fun g => s.mapCovers g (s.colX (256 * k + i)))).length))
    let data := (((List.range 256).zip my).filter (fun (_, v) => v.isSome)).map (·.1)
    if (s.relOf k).any (fun b => decide (band ≤ b)) then s
    else s.updTile c k band (fun t => { t with
      rows := t.rows + 1, rowMask := if data.length < 256 then t.rowMask ||| 2 ^ ri else t.rowMask,
      colData := data.foldl (fun m i => m ||| 2 ^ i) t.colData,
      sat := t.sat + (my.filter (fun v => match v with | some (_, b) => b | none => false)).length,
      flags := t.flags ||| flags ||| (if one then 64 else 0), tFirst := if ri = 0 then time else t.tFirst, tLast := time,
      done := t.done || ri == 255 }))
  let s := s.rowsPast c (r + 1)
  if ri = 255 then
    let s := s.each (s.acq.tiles.filter (fun t => t.ch == c && t.band == band)) (fun s t =>
      let t := { t with rowMask := t.rowMask ||| (2 ^ (256 - t.rows) - 1) }
      s.tileHeader t)
    s.releaseCheck
  else s

/-- Forms the n rows of a channel from row r. -/
def State.formRows (c : Nat) : Nat → Int → State → State
  | 0, _, s => s
  | n + 1, r, s => formRows c n (r + 1) (s.formRow c r)

/-- How far a group has passed a channel's rows. -/
def State.passedOf (s : State) (g c : Nat) : Option Int := ((s.grpAt g).passed.find? (fun p => p.1 == c)).map (·.2)

/-- Forms the rows that every covering group has passed (R91); a group that is not UP is absent. The rows of the first band
before the first line have no contribution: they are NO_DATA (R90). -/
def State.rowCheck (s : State) (c : Nat) : State :=
  let gs := (List.range s.nGrp).filter (fun g => s.grpOn g && s.grpUp g && (s.grpChans g).contains c)
  let ps := gs.map (fun g => s.passedOf g c)
  if s.rfld 0x20018 7 0 = 0 ∨ ps.isEmpty ∨ ps.any Option.isNone then s
  else
    let lim := match ps.filterMap id with
      | [] => 0
      | a :: l => l.foldl min a
    let start := match s.acq.nextRow.find? (fun p => p.1 == c) with
      | some p => p.2
      | none => 256 * Int.fdiv (((s.acq.contribs.filter (fun k => k.ch == c)).map (·.row)).foldl min lim) 256
    let s := s.updAcq (fun a => { a with formed := a.formed.filter (fun p => !(p.1 == c && decide (lim < p.2))) })
    (State.formRows c (lim - start).toNat start s).rowsPast c (max start lim)

/-- A line is projected (R89): with the line before it of its group and channel it gives values to the rows between them. -/
def State.project (s : State) (g c : Nat) (b : CamLine) : State :=
  let p := s.pitchFine
  if p ≤ 0 then s
  else
    let n := b.pix.length
    let yb := (List.range n).map (fun i => s.pixY g b.stamp i)
    let last := (s.grpAt g).last.find? (fun q => q.1 == c)
    let gap := ((s.regGet 0x2001C).toNat : Int) * umFine
    let vals := match last with
      | none => []
      | some (_, a) => ((List.range n).map (fun i =>
          pixelRows p gap { i := i, v := 0, x := s.mapX g i, w := s.mapW g i, sat := lget false a.sat i || lget false b.sat i }
            (s.pixY g a.stamp i) (s.pixY g b.stamp i) (lget 0 a.pix i) (lget 0 b.pix i))).flatten
    let st := match last with
      | none => b.stamp
      | some (_, a) => { b.stamp with flags := a.stamp.flags ||| b.stamp.flags }
    let pass := match yb.map (fun y => ceilDiv y p) with
      | [] => 0
      | r :: l => l.foldl min r
    let s := s.updAcq (fun a => { a with contribs := vals.foldl (fun l v => addContrib l c g st v) a.contribs })
    let s := s.updGrp g (fun x => { x with
      last := (c, b) :: x.last.filter (fun q => q.1 != c), passed := (c, pass) :: x.passed.filter (fun q => q.1 != c) })
    s.rowCheck c

/-- The last row a line contributes to, in the map in force (R89): none where no pixel of it contributes. -/
def State.lastRow (s : State) (g c : Nat) (st : Stamp) : Option Int :=
  let p := s.pitchFine
  let gap := ((s.regGet 0x2001C).toNat : Int) * umFine
  match (s.grpAt g).last.find? (fun q => q.1 == c) with
  | none => none
  | some (_, a) =>
    let rows := (List.range (s.linePixels g)).filterMap (fun i =>
      let ya := s.pixY g a.stamp i
      let yb := s.pixY g st i
      if yb ≤ ya ∨ gap < yb - ya ∨ ceilDiv yb p ≤ ceilDiv ya p then none else some (ceilDiv yb p - 1))
    match rows with
    | [] => none
    | r :: l => some (l.foldl max r)

/-- An armed shadow takes effect from the first line that contributes to a row in band BAND or later (R86). What lines before it
have given to rows keeps the map they were projected with. -/
def State.swapMaps (s : State) (g c : Nat) (st : Stamp) : State :=
  let w := s.regGet (aGrp g + 0x3C)
  let p := s.pitchFine
  if !wbit w 31 || p ≤ 0 then s
  else
    match (s.lastRow g c st).map (Int.fdiv · 256) with
    | none => s
    | some band => if band % 2 ^ 31 < (fld w 30 0 : Int) then s else
      let s := (s.copySpace (spFlat g 1) (spFlat g 0)).copySpace (spProj g 1) (spProj g 0)
      let s := (s.regSet (aGrp g + 0x3C) (w &&& 0x7FFFFFFF#32)).raise evAcq 4
      s.updAcq (fun a => { a with swapBand := (band :: a.swapBand).take 16 })

/-! ### Lines (R79 to R83) -/

/-- A line is assembled in the line buffer, with the CRC-32C over its pixel bytes (R82); an injection of TEST_INJ_CAP spoils the
CRC (1) or flips one or two bits (2, 3). -/
def lineBuffer (payload : List Byte) (inj : Nat) : LineBuf :=
  { bytes := payload, crc := crc32c payload ^^^ (if inj = 1 then 1 else 0), flips := if inj = 2 then 1 else if inj = 3 then 2 else 0 }

/-- A line leaves the line buffer: whether its CRC does not match, and whether a word could not be corrected (R82). -/
def State.bufRead (s : State) (g : Nat) : State × Bool × Bool :=
  let b := (s.grpAt g).buf
  let bad := decide (crc32c b.bytes ≠ b.crc)
  if b.flips = 0 then (s, bad, false)
  else if b.flips = 1 then (s.bumpHi (aGrp g + 0x34), bad, false)
  else ((s.bumpLo (aGrp g + 0x34)).raise evAcq 7, bad, true)

/-- The coefficients and map entries of a line are read through ECC (R82): the Bool says that a word could not be corrected. -/
def State.mapsRead (s : State) (g ph : Nat) : State × Bool :=
  let n := s.linePixels g
  let (s, a) := s.eccRead (memKey (spFlat g 0) (65536 * ph)) (4 * n)
  let (s, b) := s.eccRead (memKey (spProj g 0) 0) (8 * n)
  (s, a || b)

/-- A complete line of a group takes its oldest stamp (R80). One marked CORRUPT advances ACQ_GRPg_CORRUPT, unless a double-bit
error marks it, which the ECC count tells (R82). -/
def State.lineIn (s : State) (g : Nat) (payload : List Byte) (bad : Bool) (inj : Nat := 0) : State :=
  match (s.grpAt g).stamps with
  | [] => (s.bumpLo (aGrp g + 0x28)).raise evAcq 9
  | st :: l =>
    let s := s.updGrp g (fun x => { x with stamps := l, buf := lineBuffer payload inj })
    let s := (s.bump (aGrp g + 0x24)).watchKick 1 (stampId g st)
    let (s, crc, ecc) := s.bufRead g
    let corrupt := bad || crc
    let (s, ecc) := match s.phChan g st.phase with
      | some c => if corrupt || ecc then (s, ecc) else (s.swapMaps g c st).mapsRead g st.phase
      | none => (s, ecc)
    let s := if corrupt && !ecc then (s.bump (aGrp g + 0x2C)).raise evAcq 8 else s
    if corrupt || ecc then s.absentLine g st
    else match s.phChan g st.phase with
      | none => s
      | some c =>
        let fl := s.flatLine g st.phase (unpackPix (s.pixDepth g) (s.linePixels g) payload)
        let s := s.bump (aGrp g + 0x30) (fl.filter (·.2)).length
        s.project g c { stamp := st, pix := fl.map (·.1), sat := fl.map (·.2) }

/-- A violation on the stream channel (R79). -/
def State.pktErr (s : State) (g : Nat) : State := (s.bump (aGrp g + 0x20)).raise evAcq 11

/-- A line's payload is paired, as an armed TEST_INJ_CAP changes it (R587). -/
def State.cxpPair (s : State) (g : Nat) (bad : Bool) (payload : List Byte) : State :=
  let x := s.grpAt g
  let w := s.regGet 0xF0050
  let kind := if (s.injAt 0).armed && fld w 26 24 == g then fld w 19 16 else 0
  if kind = 0 ∨ x.stamps.isEmpty then s.lineIn g payload (bad || x.badImg)
  else
    let s := s.injStep 0
    match kind with
    | 4 => s
    | 5 => ((s.lineIn g payload (bad || x.badImg)).bumpLo (aGrp g + 0x28)).raise evAcq 9
    | 6 => (s.pktErr g).lineIn g payload true
    | k => s.lineIn g payload (bad || x.badImg) k

/-- The packet of a line is a violation of R79: its CRC is wrong, or its payload has another length. -/
def State.lineBad (s : State) (g : Nat) (crcOk : Bool) (payload : List Byte) : Bool := !crcOk || payload.length != s.lineBytes g

/-- A line's payload arrives: a line of an image that is behind is EXTRA, any other is paired. -/
def State.cxpLine (s : State) (g : Nat) (crcOk : Bool) (payload : List Byte) : State :=
  let x := s.grpAt g
  let bad := s.lineBad g crcOk payload
  let s := s.updGrp g (fun x => { x with left := x.left - 1 })
  let s := if x.dropImg then (s.bumpLo (aGrp g + 0x28)).raise evAcq 9 else s.cxpPair g bad payload
  if bad then s.pktErr g else s

/-- An image header out of place or with another height is dropped, and the lines of its image are CORRUPT (R79); the image
itself still counts as received for the expected tag of R81 (log entry 25). -/
def State.dropHeader (s : State) (g lines : Nat) : State :=
  (s.pktErr g).updGrp g (fun x =>
    { x with expTag := x.expTag.map (fun e => (e + 1) % 65536), left := lines, badImg := true, dropImg := false })

/-- An image header arrives: one out of place or with another height is dropped (R79); the source tag of any other is
checked (R81). -/
def State.cxpHeader (s : State) (g tag lines : Nat) : State :=
  let x := s.grpAt g
  let lpi := s.rfld (aGrp g) 23 16 + 1
  if x.left ≠ 0 || lines ≠ lpi then s.dropHeader g lines
  else
  let s := s.regSet (aGrp g + 0x38) (wordOf (tag % 65536))
  let e := match x.expTag with
    | some e => e
    | none => tag
  let ahead := (tag + 65536 - e) % 65536
  let behind := decide (32768 ≤ ahead)
  let s := if ahead ≠ 0 then s.pktErr g else s
  let s := if ahead ≠ 0 && !behind then s.retire g (min (ahead * lpi) (s.grpAt g).stamps.length) else s
  s.updGrp g (fun x => { x with expTag := some ((tag + 1) % 65536), left := lpi, badImg := false, dropImg := behind })

/-- CXP_PACKET (R79): a packet of a camera is received and checked. A group that is not UP receives none (R78); with ACQ_CTRL.EN
clear its lines and images are not taken (R104), but their violations count. An image header with a wrong CRC is dropped and
no more: the lines after it are paired as they are, and the expected tag stays (log entry 25). -/
def execCxpPacket (t g : Nat) (pkt : Sys2Proof.CxpPkt) (s : State) : Out :=
  let s := s.to t
  if !s.grpOn g || !s.grpUp g then .next s
  else match pkt.body with
    | .line payload =>
      if !s.acq.running then .next (if s.lineBad g pkt.crcOk payload then s.pktErr g else s)
      else if wbit (s.regGet 0xF0038) g && s.rfld 0xF0038 31 16 ≠ 0 then
        .next (s.updAcq (fun a => { a with heldLines := a.heldLines ++ [(g, pkt.crcOk, payload, s.now)] }))
      else .next (s.cxpLine g pkt.crcOk payload)
    | .header tag lines =>
      .next (if !pkt.crcOk then s.pktErr g else if !s.acq.running then s else s.cxpHeader g tag lines)
    | .event bytes => .next (if pkt.crcOk then s.log (.camera g bytes s.time64) else s.pktErr g)
    | .ack tag bytes =>
      if !pkt.crcOk || (s.grpAt g).ctrl != some tag then .next (s.pktErr g)
      else
        let s := s.updGrp g (fun x => { x with ctrl := none })
        .next (s.answerDeferred (fun d => match d.pkt.cmd with
          | .cxpRegRead k _ n => if k == g then some (0, bytes.take n) else none
          | .cxpRegWrite k _ _ => if k == g then some (0, []) else none
          | _ => none))
    | .unknown => .next (s.pktErr g)

/-- STAMP_TIMEOUT (R81): the oldest stamp of a group has waited LINE_TMO µs. -/
def execStampTimeout (t g : Nat) (s : State) : Out :=
  let s := s.to t
  match (s.grpAt g).stamps with
  | st :: _ => .next (if st.issued + 500 * (s.regGet (aGrp g + 0x10)).toNat ≤ s.now then s.retire g 1 else s)
  | [] => .next s

/-! ### Links (R73, R77, R78) -/

/-- GROUP_UP (R73): discovery of a group ends UP, with the speed and lanes negotiated. -/
def execGroupUp (t g speed lanes : Nat) (s : State) : Out :=
  let s := s.to t
  guardNext ((s.grpAt g).st == .discovering) s (fun s =>
    let ms := min (s.rfld (aGrp g) 30 28) 6
    let s := s.updGrp g (fun x => { x with
      st := .up, speed := min speed ms, lanes := min (max lanes 1) (s.rfld (aGrp g) 27 26 + 1), expTag := none, left := 0,
      badImg := false, dropImg := false, last := [], passed := [] })
    (s.raise evAcq 14).releaseCheck)

/-- GROUP_FAILED (R73): the camera does not answer within the 500 ms. -/
def execGroupFailed (t g : Nat) (s : State) : Out :=
  let s := s.to t
  guardNext ((s.grpAt g).st == .discovering) s (fun s =>
    (s.updGrp g (fun x => { x with st := .failed, since := if x.retry then x.since else s.now })).releaseCheck)

/-- The queued stamps of a group that receives no line retire as MISSING (R78, R81), and tile sets that waited for it alone are
released (R96). No row is formed: no line arrives (R91). -/
def State.groupRetire (s : State) (g : Nat) : State :=
  (s.retire g 64).releaseCheck

/-- A group that is in one of the states goes DOWN (R77, R78). -/
def State.groupDown (s : State) (g : Nat) (from_ : List GrpState := [.up]) : State :=
  if !from_.contains (s.grpAt g).st then s
  else
    let s := s.updGrp g (fun x => { x with st := .down, since := s.now, retry := false, ctrl := none })
    (s.raise evAcq 13).groupRetire g

/-- A group's EN is cleared: it is OFF (R103), and its queued stamps retire without the event of a lost link. -/
def State.groupOff (s : State) (g : Nat) : State :=
  let was := (s.grpAt g).st
  let s := s.updGrp g (fun x => { x with st := .off, retry := false, ctrl := none })
  if was == .up then s.groupRetire g else s

/-- GROUP_DOWN (R78): the master lane loses lock, or more than half of the lanes are lost. -/
def execGroupDown (t g : Nat) (s : State) : Out := .next ((s.to t).groupDown g)

/-- REDISCOVERY (R78): with AUTO_REDISC a DOWN or FAILED group is tried again, 1 ms after it went DOWN and then every 1 s. -/
def execRediscovery (t g : Nat) (s : State) : Out :=
  let s := s.to t
  let x := s.grpAt g
  guardNext (s.rbit 0x20000 1 && s.grpOn g && (x.st == .down || x.st == .failed) &&
    decide (x.since + (if x.retry then 500000000 else 500000) ≤ s.now)) s (fun s =>
      (s.discover g).updGrp g (fun x => { x with retry := true }))

/-- PCX_FAULT (R77): PCXg_FLT_N is asserted; the group goes DOWN, whether it is UP, DISCOVERING or FAILED. -/
def execPcxFault (t g : Nat) (s : State) : Out :=
  let s := s.to t
  if s.nGrp ≤ g || (s.grpAt g).flt then .next s
  else
    let s := s.updGrp g (fun x => { x with flt := true, pwrFault := true, pcxEn := false, pwrRearm := false })
    .next ((s.raise evAcq 12).groupDown g [.up, .discovering, .failed])

/-- PCX_FAULT_RELEASE (R77): the fault input is released; the latched fault stays until PWR_EN is written 0 and then 1. -/
def execPcxFaultRelease (t g : Nat) (s : State) : Out :=
  .next ((s.to t).updGrp g (fun x => { x with flt := false }))

/-- A write of PWR_EN (R77). -/
def State.pwrEnWrite (s : State) (g : Nat) (v : Bool) : State :=
  s.updGrp g (fun x =>
    if !v then { x with pcxEn := false, pwrRearm := x.pwrFault }
    else if x.pwrFault then
      (if x.pwrRearm && !x.flt then { x with pwrFault := false, pwrRearm := false, pcxEn := true } else { x with pwrRearm := false })
    else { x with pcxEn := true })

/-- ACQ_CTRL.EN is set (R88, R101, R104): capture starts, unless the ALONG_OFS of a channel lie too far apart, and discovery of
every enabled group; one in configuration error does not start (R76, R103). Bands are released anew (log entry 27). -/
def State.acqStart (s : State) : State :=
  let cap := s.alongErr
  let fus := s.fusionErr
  let s := s.updAcq (fun a => { a with running := !cap, captureOff := cap, fusionOff := fus, relBand := [], bandLo := none })
  let s := if cap || fus || s.srcKindErr then s.raise evAcq 15 else s
  s.each ((List.range s.nGrp).filter s.grpOn) (fun s g =>
    let st := (s.grpAt g).st
    if (st == .up || st == .discovering) && !s.grpCfgErr g then s else s.discover g)

/-- ACQ_CTRL.EN is cleared (R104): queued stamps are retired without MISSING counts, tiles in formation abandoned without
headers. -/
def State.acqStop (s : State) : State :=
  let s := s.each (List.range 8) (fun s g =>
    let l := (s.grpAt g).stamps
    (s.updGrp g (fun x => { x with stamps := [], left := 0, last := [], passed := [] })).each l (fun s st =>
      s.watchKick 1 (stampId g st)))
  let s := s.updStage 1 (fun g => { g with watches := [] })
  s.updAcq (fun a => { a with
    running := false, contribs := [], tiles := [], nextRow := [], absent := [], issued := [] })

/-! ### Sensor records (R97 to R99, R486, R487) -/

/-- SP at a LOCAL time (2⁻³² ns), from the history and the present (R98); none where the history does not reach. A time ahead of
LOCAL, of which R98 admits up to 1 ms, takes the present SP (log entry 86). -/
def spAtTime (t : Int) : List (Int × Int) → Option Int
  | (t1, p1) :: (t0, p0) :: l =>
    if t1 ≤ t then some p1
    else if t0 ≤ t then some (if t1 = t0 then p0 else p0 + Int.fdiv ((p1 - p0) * (t - t0)) (t1 - t0))
    else spAtTime t ((t0, p0) :: l)
  | [(t1, p1)] => if t1 ≤ t then some p1 else none
  | [] => none

/-- A source's record is BAD. -/
def State.srcBad (s : State) (n : Nat) : State := (s.bump (aSrc n + 0x1C)).raise evAcq 2

/-- A source's record is LATE. -/
def State.srcLate (s : State) (n : Nat) : State := (s.bump (aSrc n + 0x18)).raise evAcq 3

/-- A checked record competes as the latest value of its source (R99). -/
def State.sensorTake (s : State) (n : Nat) (v : SrcVal) (placed : Bool) : State :=
  let x := s.srcAt n
  let older := match x.val with
    | some o => decide (v.time < o.time)
    | none => false
  let gone := placed && !s.acq.relBand.isEmpty && decide (Int.fdiv (v.y * umFine) (256 * max 1 s.pitchFine) ≤ s.acq.lastBand)
  let s := if older || gone || !placed then s.srcLate n else s
  let s := if gone then s.updSrc n (fun x => { x with lateSeen := true }) else s
  if older then s else s.updSrc n (fun x => { x with val := some v })

/-- SENSOR_RECORD (R97, R98, R486, R487): a UDP datagram to NET_SENSOR_PORT. -/
def execSensorRecord (t port : Nat) (bytes : List Byte) (s : State) : Out :=
  let s := s.to t
  if !s.portUp port then .next s
  else
    let s := s.bump (aPort port + 0x28)
    let f (o k : Nat) : Nat := leAt bytes o k
    let n := f 1 1
    if s.mgmt.pow == .hold then .next s
    else if !s.srcOn n then .next (s.bump 0x2002C)
    else
      let nv := f 2 2
      let prof := s.rbit (aSrc n) 26
      let len := bytes.length
      let crcOk := decide (crc32c (bytes.take (len - 4)) = f (len - 4) 4)
      let bad := f 0 1 ≠ 1 || len ≠ 32 + 4 * nv || decide ((if prof then 256 else 16) < nv) || !crcOk ||
        decide (1000000000 ≤ f 16 4) || (prof && f 24 4 == 0)
      if bad then .next (s.srcBad n)
      else
        let seq := f 4 2
        let gap := match (s.srcAt n).seq with
          | some o => (seq + 65536 - o) % 65536
          | none => 0
        let s := s.updSrc n (fun x => { x with seq := some seq })
        let s := if 1 < gap ∧ gap ≤ 32768 then (s.bump 0xD0018 (gap - 1)).raise aNetEvent 2 else s
        if nv = 0 then .next s
        else
          let vals := (List.range nv).map (fun i => wordOf (f (28 + 4 * i) 4))
          let dom := s.clkSel (1 + s.rfld (aSrc n) 28 28)
          let meas : Int := (((f 8 8 % 2 ^ 48) * 1000000000 + f 16 4) * 2 ^ 32 : Nat)
          let tl := (s.local : Int) - ((dom : Int) - meas)
          if decide ((s.local : Int) + 1000000 * 2 ^ 32 < tl) || vals.any (fun w => fld w 30 23 == 255) then .next (s.srcBad n)
          else
            let hist := ((s.local : Int), s.course.sp) :: s.course.hist.map (fun h => ((h.time : Int), h.sp))
            let sp := spAtTime tl hist
            let y := match sp with
              | some p => Int.fdiv p umFine + s.rint (aSrc n + 4)
              | none => s.free.toInt
            let v : SrcVal := { time := tl, y := y, vals := vals, x0 := signedOf 32 (f 20 4), pitch := f 24 4 }
            if wbit (s.regGet (0xF0040 + 4 * (n / 32))) (n % 32) && s.rfld 0xF003C 23 0 ≠ 0 then
              .next ((s.updAcq (fun a => { a with heldRecs := a.heldRecs ++ [(n, v, sp.isSome, s.now)] })).drew)
            else .next ((s.sensorTake n v sp.isSome).drew)

/-- HELD_LINE_RELEASE (R583, R584): the oldest held line has waited DELAY µs, or its perturbation has been cleared. -/
def execHeldLineRelease (t : Nat) (s : State) : Out :=
  let s := s.to t
  match s.acq.heldLines with
  | [] => .next s
  | (g, ok, payload, at_) :: l =>
    let w := s.regGet 0xF0038
    let d := if wbit w g then 500 * fld w 31 16 else 0
    .next (if at_ + d ≤ s.now then (s.updAcq (fun a => { a with heldLines := l })).cxpLine g ok payload else s)

/-- HELD_RECORD_RELEASE (R583, R584). -/
def execHeldRecordRelease (t : Nat) (s : State) : Out :=
  let s := s.to t
  match s.acq.heldRecs with
  | [] => .next s
  | (n, v, placed, at_) :: l =>
    let d := if wbit (s.regGet (0xF0040 + 4 * (n / 32))) (n % 32) then 500 * s.rfld 0xF003C 23 0 else 0
    .next (if at_ + d ≤ s.now then (s.updAcq (fun a => { a with heldRecs := l })).sensorTake n v placed else s)

/-! ### Live registers (R102) -/

/-- Bit rate of a CXP speed code, Mbit/s. -/
def cxpMbps (c : Nat) : Nat := lget 0 [1250, 2500, 3125, 5000, 6250, 10000, 12500] c

/-- Smallest phase spacing of a generator, 2⁻¹⁶ µm. -/
def State.phaseSpacing (s : State) (l : Nat) : Nat :=
  let pitch := (s.regGet (aLg l + 4)).toNat
  let k := s.rfld (aLg l) 25 24
  let offs := 0 :: (List.range k).map (fun i => (s.regGet (aLg l + 8 + 4 * i)).toNat)
  ((offs.drop 1 ++ [pitch]).zip offs).foldl (fun m (b, a) => min m (b - a)) pitch

/-- ACQ_GRPg_VMAX (R74). -/
def State.grpVmax (s : State) (g : Nat) : Nat :=
  if !s.grpUp g then 0
  else
    let x := s.grpAt g
    let bpl := s.lineBytes g
    match (List.range 4).find? (fun l => wbit (s.regGet (aLg l)) (16 + g)) with
    | none => 0
    | some l => if bpl = 0 then 0 else
        min 0xFFFFFFFF (cxpMbps x.speed * 1000000 * x.lanes * 19 * s.phaseSpacing l / (200 * bpl * 65536))

/-- The read-only registers of ACQ that show the present state. -/
def acqView (s : State) (o : Nat) : Option Word :=
  let bits (f : Nat → Bool) : Nat := ((List.range 8).map (fun g => b2n (f g) * 2 ^ g)).sum
  if o = 4 then some (wordOf (bits (fun g => s.grpUp g) * 65536 + bits (fun g => decide (g < s.nGrp) && s.grpCfgErr g) * 256 +
      2 * b2n (s.alongErr || s.fusionErr || s.srcKindErr) + b2n s.acq.running))
  else match arrIdx o 0x100 0x40 8, arrIdx o 0x1000 0x20 64 with
    | some g, _ =>
      let x := s.grpAt g
      if s.nGrp ≤ g then none
      else if o % 0x40 = 0x18 then
        let st := match x.st with | .off => 0 | .discovering => 1 | .up => 2 | .down => 3 | .failed => 4
        some (wordOf ((x.lanes - 1) * 1024 + x.speed * 128 + b2n x.pcxEn * 64 + b2n x.pwrFault * 32 + st))
      else if o % 0x40 = 0x1C then some (wordOf (s.grpVmax g))
      else none
    | none, some n =>
      let x := s.srcAt n
      if o % 0x20 = 0x14 then some (wordOf (4 * b2n (x.none_ && x.val.isNone) + 2 * b2n x.stale + b2n x.lateSeen)) else none
    | none, none => none

end Sys2Proof.Machine
end

