-- ==== Sys2Proof/Machine/Course.lean ====
section
/-!
DEFINITION. The Course Unit: encoder edges and errors, the commands of COURSE_CMD, speed, Course outputs and event programs
(R37 to R71). Line generators are in LineGen.lean.
-/
namespace Sys2Proof.Machine

/-! ### Encoder inputs -/

/-- Place of a pair of filtered levels in the quadrature cycle that forward motion runs through (A leads B: log entry 20). -/
def quadPos (a b : Bool) : Nat := match a, b with
  | false, false => 0
  | true, false => 1
  | true, true => 2
  | false, true => 3

/-- Counted edge of a change of filtered levels (R37): +1 forward, −1 reverse, none where nothing is counted. -/
def countedEdge (mode : Nat) (a0 b0 a b : Bool) : Option Int :=
  match mode with
  | 1 => if (quadPos a0 b0 + 1) % 4 = quadPos a b then some 1 else if (quadPos a b + 1) % 4 = quadPos a0 b0 then some (-1) else none
  | 2 => if !a0 && a then some (if b then -1 else 1) else none
  | 3 => if !a0 && a then some (if b then 1 else -1) else none
  | _ => none

/-- The level of a channel after a sample, as its glitch filter passes it (R38): a change accepted less than FILTER ticks
after the one before cannot have been stable for FILTER ticks, so it is not accepted. -/
def filterPass (filter now : Nat) (last : Option Nat) (old new : Bool) : Bool :=
  match last with
  | some l => if new != old && decide (now < l + filter) then old else new
  | none => new

/-- The direction level of a pulse/direction input has been stable for FILTER + 2 ticks (R38). -/
def dirSettled (filter now : Nat) (bAt : Option Nat) : Bool :=
  match bAt with
  | some l => decide (l + filter + 2 ≤ now)
  | none => true

/-- The counters an input feeds take the scale of a counted edge, and SP with them where its source is one of them
(R39, R42, R45). -/
def State.countEdge (s : State) (n : Nat) (dir : Int) : State :=
  let delta := dir * ((s.regGet (aEnc n + 4)).toNat : Int)
  let prev := (s.encAt n).last
  let beyond := match prev with
    | some p => decide (s.now - p < 25)
    | none => false
  let feedA := s.srcA == n
  let feedB := s.bEn && s.srcBEnc == n
  let moves := (if s.course.srcB then feedB else feedA) && s.course.dr.isNone && s.course.lost.isNone
  let s := s.updEnc n (fun e => { e with prev := e.last, last := some s.now, step := delta, cnt := e.cnt + dir })
  let s := s.updCourse (fun c =>
    { c with cntA := if feedA then c.cntA + delta else c.cntA, cntB := if feedB then c.cntB + delta else c.cntB })
  let s := if moves then
      let wasZero := s.course.zero
      let s := s.updCourse (fun c => { c with lastDelta := delta, lastEdge := s.now, edges := c.edges + 1, zero := false })
      let s := s.spMoved (s.course.sp + delta)
      if wasZero then s.raise evCourse 3 else s
    else s
  let s := if beyond then s.encError n else s
  s.xcheck

/-- A sample of input `n` leaves the synchroniser and the glitch filter (R38): the levels it accepts become `a`, `b`. -/
def State.encLevels (s : State) (n : Nat) (a b : Bool) : State :=
  s.updEnc n (fun e => { e with
    a := a, b := b, seen := e.seen || e.a != a || e.b != b,
    aAt := if e.a != a then some s.now else e.aAt, bAt := if e.b != b then some s.now else e.bAt })

/-- ENCODER_EDGE (R37 to R41): the levels of input `n` have become `a`, `b` at its pins 3 + FILTER ticks before `t`, and at `t`
the filter passes on what it accepts (log entry 80). The direction of a pulse whose direction level was not settled (R38) is
free. -/
def execEncoderEdge (t n : Nat) (a b : Bool) (s : State) : Out :=
  let s := s.to t
  let e := s.encAt n
  let mode := s.rfld (aEnc n) 17 16
  let flt := s.rfld (aEnc n) 31 24
  let a := filterPass flt s.now e.aAt e.a a
  let b := filterPass flt s.now e.bAt e.b b
  let s := s.encLevels n a b
  .next <|
    if mode = 0 || !s.courseEn then s
    else if mode ≠ 3 && e.a != a && e.b != b then s.encError n
    else if e.faulted || (e.los && s.rbit (aEnc n) 18) then s
    else match countedEdge mode e.a e.b a b with
      | none => s
      | some d =>
        if mode = 3 && !dirSettled flt s.now (s.encAt n).bAt then s.drew.countEdge n (if s.free.getLsbD 0 then -d else d)
        else s.countEdge n (if s.rbit (aEnc n) 19 then -d else d)

/-- LOS (R40, R41): the amplitude of input `n` has stayed below threshold for more than 1 µs; with LOS_EN set it is an error
and the input is FAULTED. -/
def execLos (t n : Nat) (s : State) : Out :=
  let s := (s.to t).updEnc n (fun e => { e with los := true })
  .next <| if s.rbit (aEnc n) 18 then (s.bump (aEnc n + 0xC)).encFault n else s

/-- LOS_END (R40): the amplitude of input `n` is above the threshold again. -/
def execLosEnd (t n : Nat) (s : State) : Out :=
  .next ((s.to t).updEnc n (fun e => { e with los := false }))

/-! ### Position lost, speed -/

/-- POSITION_LOST (R48): DR_LIMIT has run out. -/
def execPositionLost (t : Nat) (s : State) : Out :=
  let s := s.to t
  match s.course.dr with
  | some d =>
    .next <| if s.drEnd d ≤ s.now then
      let s := s.updCourse (fun c =>
        { c with dr := none, lost := some { at_ := s.drEnd d, frozen := c.sp, speed := d.speed }, speed := 0, zero := true,
                 estimated := false })
      (s.raise evCourse 7).raise evCourse 4
    else s
  | none => .next s

/-- Samples in the window of WIN: 0.25 ms is four of 62.5 µs (R52). -/
def State.winSamples (s : State) : Nat := 4 * 2 ^ s.rfld 0x10060 1 0

/-- Scale over the interval between the last two edges of the source (R52). -/
def State.edgeSpeed (s : State) : Int :=
  let e := s.encAt s.srcEnc
  match e.last, e.prev with
  | some l, some p => if p < l then Int.tdiv (e.step * 500000000) (umFine * ((l - p : Nat) : Int)) else 0
  | _, _ => 0

/-- The speed estimate of R52, µm/s, from the newest history sample back. -/
def State.speedNow (s : State) : Int :=
  let c := s.course
  let n := s.winSamples
  match c.dr with
  | some d => d.speed
  | none =>
    if c.lost.isSome || c.zero then 0
    else match c.hist[n]? with
      | some old =>
        if 8 ≤ c.edges - old.edges then Int.tdiv ((c.sp - old.sp) * 1000000) (umFine * ((n : Int) * 62500) / 1000)
        else s.edgeSpeed
      | none => s.edgeSpeed

/-- SPEED_ESTIMATE (R52, R98): the estimate is computed and a sample of SP enters the history. -/
def execSpeedEstimate (t : Nat) (s : State) : Out :=
  let s := s.to t
  if !s.courseEn then .next s
  else
    let s := s.updCourse (fun c =>
      { c with hist := ({ time := s.local, sp := c.sp, edges := c.edges } :: c.hist).take 16384 })
    .next (s.updCourse (fun c => { c with speed := s.speedNow }))

/-- ZERO_SPEED (R52): no edge for ZERO_MS milliseconds. -/
def execZeroSpeed (t : Nat) (s : State) : Out :=
  let s := s.to t
  let c := s.course
  guardNext (s.courseEn && !c.zero && c.dr.isNone && decide (500000 * max (s.rfld 0x10060 15 8) 1 ≤ s.now - c.lastEdge)) s
    (fun s => (s.updCourse (fun c => { c with zero := true, speed := 0 })).raise evCourse 4)

/-! ### COURSE_CMD (R70). Each answers the state and the status of its REG_WRITE. -/

/-- CLEAR_FAULT of counter A or B (R41, R46, R49). Where the input is not FAULTED nothing changes: no load, no new offset (log
entry 81). -/
def State.clearFault (s : State) (toB : Bool) : State :=
  let n := if toB then s.srcBEnc else s.srcA
  let e := s.encAt n
  if !e.faulted || (e.los && s.rbit (aEnc n) 18) then s
  else
    let s := s.updEnc n (fun e => { e with faulted := false, errs := [] })
    if toB && !s.bEn then s
    else
      let s := match s.course.lost with
        | some l =>
          let a := Int.fdiv l.frozen umFine
          let len := Int.fdiv (l.speed.natAbs * ((s.now - l.at_ : Nat) : Int)) 500000000
          (s.coverAll a (a + len) 3 1).updCourse (fun c => { c with lost := none, estimated := true })
        | none => s
      let s := s.updCourse (fun c =>
        { c with dr := none, cntA := if toB then c.cntA else c.sp, cntB := if toB then c.sp else c.cntB, lastEdge := s.now })
      let s := s.updCourse (fun c => { c with offset := c.cntA - c.cntB, spSync := c.sp })
      s.evalSource.xcheck

/-- RESYNC (R46): nothing while either counter is FAULTED. -/
def State.resync (s : State) : State :=
  if s.faultA || s.faultB then s
  else (s.updCourse (fun c =>
    { c with cntA := c.sp, cntB := c.sp, offset := 0, spSync := c.sp, srcB := false, lastDelta := 0 })).xcheck

/-- LOAD_SP (R50). Triggers held back, a cycle still to be skipped and strobes still to come belong to positions left behind and
are dropped; an open lost interval begins at the loaded value (log entry 81). -/
def State.loadSp (s : State) : State :=
  let v := s.rint64 0x10040 * umFine
  let rev := s.course.reversal
  let s := s.updCourse (fun c =>
    { c with sp := v, cntA := v, cntB := v, hwm := v, hwmPrev := v, offset := 0, spSync := v, srcB := false, reversal := false,
             lastDelta := 0, dr := c.dr.map (fun d => { d with start := s.now, sp0 := v }),
             lost := c.lost.map (fun l => { l with frozen := v }),
             lg := c.lg.map (fun g => { g with lastPos := none, late := [], skip := none }),
             out := c.out.map (fun o => { o with early := [] }) })
  let s := if rev then s.raise evCourse 5 else s
  s.evalSource.xcheck

/-- RELOCATE (R49): only while POSITION_LOST is set. With both counters still FAULTED the table of R44 dead-reckons again from
the relocated value, at the speed it had before (log entry 21). -/
def State.relocate (s : State) : State :=
  match s.course.lost with
  | none => s
  | some l =>
    let v := s.rint64 0x1004C
    let a := Int.fdiv l.frozen umFine
    let f := v * umFine
    let both := !s.okA && !s.okB
    let s := s.coverAll a (max a v) 3
    let s := s.updCourse (fun c =>
      { c with sp := f, cntA := if s.okA then f else c.cntA, cntB := if s.okB then f else c.cntB, lost := none,
               estimated := false, speed := if both then l.speed else c.speed,
               hwm := if a < v then f else c.hwm, hwmPrev := if a < v then f else c.hwm })
    s.reverseCheck.evalSource.xcheck

/-- A value written to COURSE_CMD (R70): the state and the status of the write. The position mark of a COIL_MARK carries the code
0: only MARK gives one (log entry 81). -/
def State.courseCmd (s : State) (v : Nat) : State × Nat :=
  match v with
  | 1 => if s.planRuns then (s, 0x0201) else (s.loadSp, 0)
  | 2 => (s.resync, 0)
  | 3 => (s.clearFault false, 0)
  | 4 => (s.clearFault true, 0)
  | 5 => (s.relocate, 0)
  | 6 => ((s.positionMark 0 0xFF 0).lookSettle, 0)
  | _ => (s, 0)

/-! ### Course outputs (R60, R61) -/

/-- Drives an output active or inactive: an assertion is counted for Plumb's snapshot (R440), and a line target changes as
its permit allows: a blocked change leaves the output as it is (R442). -/
def State.setCrs (s : State) (o : Nat) (v : Bool) (until_ : Option Nat) : State :=
  let was := (s.crsAt o).active
  if v != was && s.blocked (56 + o) v then (s.bump 0xB0038).updCrs o (fun c => if v then c else { c with until_ := none })
  else
  let s := s.updCrs o (fun c => { c with active := v, until_ := until_ })
  let s := if v && !was then s.updPlumb (fun p => { p with assertsNow := lmod p.assertsNow o (· + 1) }) else s
  if v == was then s else s.drive (56 + o) v

/-- The level at the pin of a Course output: active high, or low with INVERT set (R71); a line output in fallback shows the level
its fallback gives it. -/
def State.crsPin (s : State) (o : Nat) : Bool :=
  let x := s.targetAt (56 + o)
  (if s.isTarget (56 + o) && x.inFallback then x.level else (s.crsAt o).active) != s.rbit (aOut o) 25

/-- A strobe of output `o` starts: it holds WIDTH ns, and extends an assertion that still lasts. An odd number of ns rounds up
to the next 2 ns tick, and a WIDTH of 0 asserts nothing (log entry 82). -/
def State.strobe (s : State) (o : Nat) : State :=
  let w := (s.rfld (aOut o + 4) 31 16 + 1) / 2
  let e := s.now + w
  let c := s.crsAt o
  let e := match c.active, c.until_ with
    | true, some u => max u e
    | _, _ => e
  if w = 0 then s else s.setCrs o true (some e)

/-- LEAD of an output, ns. -/
def State.lead (s : State) (o : Nat) : Int := signedOf 16 (s.rfld (aOut o + 4) 15 0)

/-- CFG_ERR of a generator (R56). -/
def lgCfgErr (s : State) (g : Nat) : Bool :=
  let p := (s.regGet (aLg g + 4)).toNat
  let k := s.rfld (aLg g) 25 24
  let o := fun i => (s.regGet (aLg g + 4 + 4 * i)).toNat
  p ≠ 0 && !((List.range k).all (fun i => (if i = 0 then 0 else o i) < o (i + 1) && o (i + 1) < p))

/-- The generator may emit lines now: enabled, no CFG_ERR, a PITCH, position not lost. -/
def State.lgEmits (s : State) (g : Nat) : Bool :=
  s.courseEn && s.rbit (aLg g) 31 && !lgCfgErr s g && (s.regGet (aLg g + 4)).toNat ≠ 0 && s.course.lost.isNone

/-- PITCH and the offset of a phase, 2⁻¹⁶ µm. -/
def State.lgPitch (s : State) (g : Nat) : Int := ((s.regGet (aLg g + 4)).toNat : Int)
def State.lgOfs (s : State) (g ph : Nat) : Int := if ph = 0 then 0 else ((s.regGet (aLg g + 4 + 4 * ph)).toNat : Int)

/-- The position below which a generator's lines have been emitted (R54): no line at or below it fires. -/
def State.lgFloor (s : State) (g : Nat) (mark : Int) : Int :=
  match (s.lgAt g).lastPos with
  | some l => max mark l
  | none => mark

/-- The next line position of a phase, by its n, for which no strobe of the list has started. -/
def State.nextLine (s : State) (g ph : Nat) (started : List Int) : Int :=
  let o := s.lgOfs g ph * 256
  let n0 := Int.fdiv (s.lgFloor g s.course.hwm - o) (s.lgPitch g * 256) + 1
  (((List.range (started.length + 1)).map (fun (k : Nat) => n0 + (k : Int))).find? (fun n => !started.contains n)).getD n0

/-- Positions a generator has in hand are dropped: its grid or its enable has changed (log entry 83). -/
def State.lgReset (s : State) (g : Nat) : State :=
  (s.updLg g (fun x => { x with late := [], skip := none })).each
    ((List.range 24).filter (fun o => s.rfld (aOut o) 29 28 == g)) (fun s o => s.updCrs o (fun c => { c with early := [] }))

/-- The strip is at its high-water mark, neither in reverse nor on the return run (R54). -/
def State.atMark (s : State) : Bool := !s.course.reversal && s.course.sp == s.course.hwm

/-- STROBE_START (R61): a strobe bound to a generator starts LEAD ns before the predicted crossing of the next line position of
its phase, unless that cycle is skipped (R59); or |LEAD| ns after the crossing for a negative LEAD. -/
def execStrobeStart (t out : Nat) (s : State) : Out :=
  let s := s.to t
  let g := s.rfld (aOut out) 29 28
  let c := s.crsAt out
  if s.rfld (aOut out) 31 30 ≠ 1 then .next s
  else if s.lead out < 0 then
    match c.due with
    | d :: l => .next (if d ≤ s.now then (s.strobe out).updCrs out (fun c => { c with due := l }) else s)
    | [] => .next s
  else
    let n := s.nextLine g (s.rfld (aOut out) 27 26) c.early
    .next (if s.lgEmits g && s.atMark && (s.lgAt g).skip != some n then
      (s.strobe out).updCrs out (fun c => { c with early := c.early ++ [n] }) else s)

/-- The width of a pulse or strobe has passed: the output goes inactive. -/
def State.crsEnd (s : State) (o : Nat) : State :=
  match (s.crsAt o).until_ with
  | some u => if u ≤ s.now then s.setCrs o false none else s
  | none => s

/-- STROBE_END (R61). -/
def execStrobeEnd (t out : Nat) (s : State) : Out := .next ((s.to t).crsEnd out)

/-- PULSE_END (R60). -/
def execPulseEnd (t out : Nat) (s : State) : Out := .next ((s.to t).crsEnd out)

/-! ### Event programs (R63 to R67) -/

/-- The instructions of R67. -/
inductive ProgOp where
  | halt
  | anchor
  | waitSpGe (ofs : Int)
  | waitSpLe (ofs : Int)
  | waitDsp (um : Nat)
  | waitT (ns : Nat)
  | waitLine (g ph count : Nat)
  | waitSig (sig : Nat)
  | signal (sig : Nat)
  | outSet (o : Nat)
  | outClr (o : Nat)
  | outPulse (o ns : Nat)
  | lgOn (g : Nat)
  | lgOff (g : Nat)
  | mark (code : Nat)
  | setc (c v : Nat)
  | djnz (c a : Nat)
  | jump (a : Nat)
  | ifSlow (v a : Nat)
  | ifRev (a : Nat)
  | bad
  deriving DecidableEq, Repr, Inhabited

/-- Decodes an instruction word (R67); reserved opcodes and operands out of range are `bad`. Unused bits are not looked at: a word
in which they are not 0 is executed as if they were (log entry 84). -/
def progDecode (w : Nat) : ProgOp :=
  let f := bitsOf w
  match f 63 58 with
  | 0x00 => .halt
  | 0x01 => .anchor
  | 0x02 => .waitSpGe (signedOf 48 (f 47 0))
  | 0x03 => .waitSpLe (signedOf 48 (f 47 0))
  | 0x04 => .waitDsp (f 31 0)
  | 0x05 => .waitT (f 39 0)
  | 0x06 => .waitLine (f 57 56) (f 55 54) (f 31 0)
  | 0x07 => .waitSig (f 3 0)
  | 0x08 => .signal (f 3 0)
  | 0x09 => .outSet (f 4 0)
  | 0x0A => .outClr (f 4 0)
  | 0x0B => .outPulse (f 36 32) (f 31 0)
  | 0x0C => .lgOn (f 1 0)
  | 0x0D => .lgOff (f 1 0)
  | 0x0E => .mark (f 15 0)
  | 0x0F => .setc (f 33 32) (f 31 0)
  | 0x10 => .djnz (f 33 32) (f 7 0)
  | 0x11 => .jump (f 7 0)
  | 0x12 => .ifSlow (f 39 8) (f 7 0)
  | 0x13 => .ifRev (f 7 0)
  | _ => .bad

def aProgEn (p : Nat) : Nat := 0x10800 + 4 * (p / 32)

/-- Program `p` is enabled. -/
def State.progOn (s : State) (p : Nat) : Bool := s.rbit (aProgEn p) (p % 32)

/-- Program `p` is suspended: HWM_GATED while REVERSAL lasts (R66). -/
def State.progHeld (s : State) (p : Nat) : Bool := s.course.reversal && s.rbit (0x10A00 + 4 * p) 0

/-- Disables program `p`. -/
def State.progStop (s : State) (p : Nat) : State :=
  (s.setFld (aProgEn p) (p % 32) (p % 32) 0).updProg p (fun q => { q with wait := none, icount := 0 })

/-- Enables program `p` at address 0 (R64, R68). -/
def State.progStart (s : State) (p : Nat) : State :=
  (s.setFld (aProgEn p) (p % 32) (p % 32) 1).updProg p (fun q =>
    { q with pc := 0, anchor := s.sp, cnt := [0#32, 0#32, 0#32, 0#32], wait := none, icount := 0, due := s.now })

/-- Halts program `p` and sets its PROG_FAULT bit (R65, R67). -/
def State.progFault (s : State) (p : Nat) : State :=
  ((s.progStop p).setFld (0x10810 + 4 * (p / 32)) (p % 32) (p % 32) 1).raise evCourse 0 p

/-- The instruction is done: the program counter moves on, and wraps past the text's end. -/
def State.progNext (s : State) (p : Nat) : State :=
  s.updProg p (fun q =>
    { q with pc := if q.text.length ≤ q.pc + 1 then 0 else q.pc + 1, icount := q.icount + 1, due := s.now + 1 })

/-- A jump of program `p`: a target at or beyond the end of the text is treated like a reserved opcode. -/
def State.progJump (s : State) (p a : Nat) : State :=
  if a < (s.progAt p).text.length then s.updProg p (fun q => { q with pc := a, icount := q.icount + 1, due := s.now + 1 }) else s.progFault p

/-- The condition of a wait holds (R67); the lowest-numbered of the programs waiting for a signal takes it. -/
def State.waitHolds (s : State) (p : Nat) (w : ProgWait) : Bool :=
  match w with
  | .spGe x => decide (x ≤ s.sp)
  | .spLe x => decide (s.sp ≤ x)
  | .time k => decide (k ≤ s.now)
  | .line g ph target => decide (target ≤ lget 0 (s.lgAt g).count ph)
  | .sig i => s.course.sig.getLsbD i &&
      (List.range p).all (fun q => !((s.progAt q).wait == some (.sig i) && s.progOn q && !s.progHeld q))

/-- A wait is over, `count` instructions since the last real wait: WAIT_SIG clears its signal. -/
def State.progDone (s : State) (p : Nat) (w : ProgWait) (count : Nat) : State :=
  let s := match w with
    | .sig i => s.updCourse (fun c => { c with sig := c.sig &&& ~~~(BitVec.ofNat 16 (2 ^ i)) })
    | _ => s
  ((s.updProg p (fun q => { q with wait := none })).progNext p).updProg p (fun q => { q with icount := count })

/-- A wait that did not complete on its own tick completes: the count of R65 starts after it. -/
def State.waitDone (s : State) (p : Nat) (w : ProgWait) : State := s.progDone p w 0

/-- A wait instruction executes: it completes at once and counts as an instruction, or the program waits and its count of R65
starts again. -/
def State.progWait (s : State) (p : Nat) (w : ProgWait) : State :=
  if s.waitHolds p w then s.progDone p w ((s.progAt p).icount + 1)
  else s.updProg p (fun q => { q with wait := some w, icount := 0 })

/-- An output instruction (R60): the owner's, on an output whose mode takes it; any other changes nothing and raises
OWNER_VIOLATION. -/
def State.progOut (s : State) (p o : Nat) (pulse : Bool) (f : State → State) : State :=
  if 24 ≤ o then s.progFault p
  else
    let mode := s.rfld (aOut o) 31 30
    let ok := s.rfld (aOut o) 21 16 == p && mode ≠ 1 && (pulse || mode ≠ 2)
    ((if ok then f s else s.raise evCourse 0 p)).progNext p

/-! What each instruction does (R67). -/

def State.doAnchor (s : State) (p : Nat) : State := (s.updProg p (fun q => { q with anchor := s.sp })).progNext p
def State.doWaitSpGe (s : State) (p : Nat) (ofs : Int) : State := s.progWait p (.spGe ((s.progAt p).anchor + ofs))
def State.doWaitSpLe (s : State) (p : Nat) (ofs : Int) : State := s.progWait p (.spLe ((s.progAt p).anchor + ofs))
def State.doWaitDsp (s : State) (p um : Nat) : State :=
  (s.updProg p (fun q => { q with anchor := q.anchor + um })).progWait p (.spGe ((s.progAt p).anchor + um))
def State.doWaitT (s : State) (p ns : Nat) : State := s.progWait p (.time (s.now + (ns + 1) / 2))
def State.doWaitLine (s : State) (p g ph count : Nat) : State := s.progWait p (.line g ph (lget 0 (s.lgAt g).count ph + count))
def State.doWaitSig (s : State) (p i : Nat) : State := s.progWait p (.sig i)
def State.doSignal (s : State) (p i : Nat) : State :=
  (s.updCourse (fun c => { c with sig := c.sig ||| BitVec.ofNat 16 (2 ^ i) })).progNext p
def State.doOutSet (s : State) (p o : Nat) : State := s.progOut p o false (fun s => s.setCrs o true none)
def State.doOutClr (s : State) (p o : Nat) : State := s.progOut p o false (fun s => s.setCrs o false none)
def State.doOutPulse (s : State) (p o ns : Nat) : State := s.progOut p o true (fun s => s.setCrs o true (some (s.now + (ns + 1) / 2)))
def State.doLgOn (s : State) (p g : Nat) : State := if 4 ≤ g then s.progFault p else (s.setFld (aLg g) 31 31 1).progNext p
def State.doLgOff (s : State) (p g : Nat) : State :=
  if 4 ≤ g then s.progFault p else ((s.setFld (aLg g) 31 31 0).lgReset g).progNext p
def State.doMark (s : State) (p code : Nat) : State := (s.positionMark 1 p code).lookSettle.progNext p
def State.doSetc (s : State) (p c v : Nat) : State :=
  (s.updProg p (fun q => { q with cnt := lmod q.cnt c (fun _ => wordOf v) })).progNext p
def State.doDjnz (s : State) (p c a : Nat) : State :=
  let n := lget 0#32 (s.progAt p).cnt c - 1#32
  let s := s.updProg p (fun q => { q with cnt := lmod q.cnt c (fun _ => n) })
  if n = 0#32 then s.progNext p else s.progJump p a
def State.doIfSlow (s : State) (p v a : Nat) : State :=
  if s.course.speed.natAbs < v then s.progJump p a else s.progNext p
def State.doIfRev (s : State) (p a : Nat) : State := if s.course.reversal then s.progJump p a else s.progNext p

/-- Executes one instruction of program `p`. -/
def State.progExec (s : State) (p : Nat) : ProgOp → State
  | .halt => s.progStop p
  | .anchor => s.doAnchor p
  | .waitSpGe ofs => s.doWaitSpGe p ofs
  | .waitSpLe ofs => s.doWaitSpLe p ofs
  | .waitDsp um => s.doWaitDsp p um
  | .waitT ns => s.doWaitT p ns
  | .waitLine g ph count => s.doWaitLine p g ph count
  | .waitSig i => s.doWaitSig p i
  | .signal i => s.doSignal p i
  | .outSet o => s.doOutSet p o
  | .outClr o => s.doOutClr p o
  | .outPulse o ns => s.doOutPulse p o ns
  | .lgOn g => s.doLgOn p g
  | .lgOff g => s.doLgOff p g
  | .mark code => s.doMark p code
  | .setc c v => s.doSetc p c v
  | .djnz c a => s.doDjnz p c a
  | .jump a => s.progJump p a
  | .ifSlow v a => s.doIfSlow p v a
  | .ifRev a => s.doIfRev p a
  | .bad => s.progFault p

/-- Program `p` executes an instruction on this tick: it is enabled, neither suspended nor waiting, one tick past its last
instruction, and has not run away. -/
def State.progReady (s : State) (p : Nat) : Bool :=
  s.progOn p && !s.progHeld p && (s.progAt p).wait.isNone && decide ((s.progAt p).icount < 4096) &&
    decide ((s.progAt p).due ≤ s.now)

/-- The instruction at which program `p` stands; an empty text is a HALT (R65). -/
def State.progInstr (s : State) (p : Nat) : ProgOp :=
  match (s.progAt p).text with
  | [] => .halt
  | l => progDecode (lget 0 l (s.progAt p).pc)

/-- An instruction row: program `p`, which stands at `i`, executes it at tick `t`. -/
def progRow (t p : Nat) (i : ProgOp) (s : State) (f : State → State) : Out :=
  let s := s.to t
  guardNext (s.progReady p && s.progInstr p == i) s f

/-- An instruction that R67 treats like a reserved opcode: a reserved one, or an output number above 23. -/
def ProgOp.isBad : ProgOp → Bool
  | .bad => true
  | .outSet o => decide (23 < o)
  | .outClr o => decide (23 < o)
  | .outPulse o _ => decide (23 < o)
  | _ => false

def execHalt (t p : Nat) (s : State) : Out := progRow t p .halt s (fun s => s.progStop p)
def execAnchor (t p : Nat) (s : State) : Out := progRow t p .anchor s (fun s => s.doAnchor p)
def execWaitSpGe (t p : Nat) (ofs : Int) (s : State) : Out := progRow t p (.waitSpGe ofs) s (fun s => s.doWaitSpGe p ofs)
def execWaitSpLe (t p : Nat) (ofs : Int) (s : State) : Out := progRow t p (.waitSpLe ofs) s (fun s => s.doWaitSpLe p ofs)
def execWaitDsp (t p um : Nat) (s : State) : Out := progRow t p (.waitDsp um) s (fun s => s.doWaitDsp p um)
def execWaitT (t p ns : Nat) (s : State) : Out := progRow t p (.waitT ns) s (fun s => s.doWaitT p ns)
def execWaitLine (t p g ph count : Nat) (s : State) : Out :=
  progRow t p (.waitLine g ph count) s (fun s => s.doWaitLine p g ph count)
def execWaitSig (t p sig : Nat) (s : State) : Out := progRow t p (.waitSig sig) s (fun s => s.doWaitSig p sig)
def execSignal (t p sig : Nat) (s : State) : Out := progRow t p (.signal sig) s (fun s => s.doSignal p sig)
def execOutSet (t p out : Nat) (s : State) : Out := progRow t p (.outSet out) s (fun s => s.doOutSet p out)
def execOutClr (t p out : Nat) (s : State) : Out := progRow t p (.outClr out) s (fun s => s.doOutClr p out)
def execOutPulse (t p out ns : Nat) (s : State) : Out := progRow t p (.outPulse out ns) s (fun s => s.doOutPulse p out ns)
def execLgOn (t p g : Nat) (s : State) : Out := progRow t p (.lgOn g) s (fun s => s.doLgOn p g)
def execLgOff (t p g : Nat) (s : State) : Out := progRow t p (.lgOff g) s (fun s => s.doLgOff p g)
def execMark (t p code : Nat) (s : State) : Out := progRow t p (.mark code) s (fun s => s.doMark p code)
def execSetc (t p c value : Nat) (s : State) : Out := progRow t p (.setc c value) s (fun s => s.doSetc p c value)
def execDjnz (t p c addr : Nat) (s : State) : Out := progRow t p (.djnz c addr) s (fun s => s.doDjnz p c addr)
def execJump (t p addr : Nat) (s : State) : Out := progRow t p (.jump addr) s (fun s => s.progJump p addr)
def execIfSlow (t p speed addr : Nat) (s : State) : Out := progRow t p (.ifSlow speed addr) s (fun s => s.doIfSlow p speed addr)
def execIfRev (t p addr : Nat) (s : State) : Out := progRow t p (.ifRev addr) s (fun s => s.doIfRev p addr)
/-- PROG_FAULT (R67): a reserved opcode or bad operand halts the program. -/
def execProgFault (t p : Nat) (s : State) : Out :=
  let s := s.to t
  guardNext (s.progReady p && (s.progInstr p).isBad) s (fun s => s.progFault p)

/-- WAIT_COMPLETES (R64): the condition of a waiting program first holds. -/
def execWaitCompletes (t p : Nat) (s : State) : Out :=
  let s := s.to t
  match (s.progAt p).wait with
  | some w => guardNext (s.progOn p && !s.progHeld p && s.waitHolds p w) s (fun s => s.waitDone p w)
  | none => .next s

/-- PROG_RUNAWAY (R65): 4,096 instructions in a row without waiting. -/
def execProgRunaway (t p : Nat) (s : State) : Out :=
  let s := s.to t
  guardNext (s.progOn p && decide (4096 ≤ (s.progAt p).icount)) s (fun s => s.progFault p)

/-- Loads the text of program `p` (R63): Busy while it is enabled. -/
def State.progLoad (s : State) (p : Nat) (text : List Nat) : State × Nat :=
  if s.progOn p then (s, 0x0401)
  else (s.updProg p (fun q => { q with text := text, pc := 0, wait := none, icount := 0 }), 0)

/-- A write of COURSE_PROG_EN_LO or _HI (R68): a bit that goes from 0 to 1 starts its program at address 0, a bit written 0
disables it. -/
def State.progEnWrite (s : State) (half : Nat) (v : Word) : State :=
  s.each (List.range 32) (fun s i =>
    let p := 32 * half + i
    match s.progOn p, wbit v i with
    | false, true => s.progStart p
    | true, false => s.progStop p
    | _, _ => s)

/-- One tick of program `p`: a wait whose condition holds completes, a runaway halts, an instruction of its text executes;
an empty text halts (R64, R65). -/
def State.progTick (s : State) (p : Nat) : State :=
  let q := s.progAt p
  if !s.progOn p || s.progHeld p then s
  else match q.wait with
    | some w => if s.waitHolds p w then s.waitDone p w else s
    | none =>
      if 4096 ≤ q.icount then s.progFault p
      else match q.text[q.pc]? with
        | some w => s.progExec p (progDecode w)
        | none => s.progStop p

/-- COURSE_STATUS (R69). -/
def State.courseStatus (s : State) : Word :=
  let c := s.course
  wordOf (b2n c.srcB + 2 * b2n s.faultA + 4 * b2n s.faultB + 8 * b2n c.xchk + 16 * b2n c.reversal + 32 * b2n c.dr.isSome +
    64 * b2n c.lost.isSome + 128 * b2n c.estimated)

/-- COURSE_LGg_VMAX (R59). -/
def State.lgVmax (s : State) (g : Nat) : Nat :=
  let p := (s.regGet (aLg g + 4)).toNat
  let k := s.rfld (aLg g) 25 24
  let ofs := (List.range (k + 1)).map (fun i => if i = 0 then 0 else (s.regGet (aLg g + 4 + 4 * i)).toNat)
  let gaps := (ofs.zip (ofs.drop 1 ++ [p])).map (fun x => x.2 - x.1)
  let mn := (s.regGet (aLg g + 0x14)).toNat
  if mn = 0 then m32 else min m32 ((gaps.foldl min p) * 1000000000 / (65536 * mn))

/-- Saturation of a signed number to 32 bits. -/
def sat32 (z : Int) : Word := wordOf (codeOf 32 (clampInt (-2147483648) 2147483647 z))

/-- The registers of the COURSE block that show the state (R68). -/
def courseView (s : State) (o : Nat) : Option Word :=
  let c := s.course
  let lo (z : Int) : Option Word := some (wordOf (codeOf 32 z))
  let hi (z : Int) : Option Word := some (wordOf (codeOf 64 z / 2 ^ 32))
  let um (z : Int) : Int := Int.fdiv z umFine
  match o with
  | 0x04 => some s.courseStatus
  | 0x10 => lo s.sp
  | 0x14 => hi s.sp
  | 0x18 => some (wordOf (c.sp - s.sp * umFine).toNat)
  | 0x1C => lo (um c.hwm)
  | 0x20 => hi (um c.hwm)
  | 0x24 => lo (um c.cntA)
  | 0x28 => hi (um c.cntA)
  | 0x2C => lo (um c.cntB)
  | 0x30 => hi (um c.cntB)
  | 0x34 => some (sat32 c.speed)
  | 0x38 => some (sat32 (um (c.cntA - c.cntB - c.offset)))
  | 0x808 => some (wordOf (((List.range 32).filter s.progOn).map (2 ^ ·)).sum)
  | 0x80C => some (wordOf (((List.range 32).filter (fun p => s.progOn (32 + p))).map (2 ^ ·)).sum)
  | _ =>
    match arrIdx o 0x108 0x10 8, arrIdx o 0x21C 0x20 4, arrIdx o 0x900 4 64 with
    | some n, _, _ =>
      if o = 0x108 + 0x10 * n then
        let e := s.encAt n
        some (wordOf (b2n e.seen + 2 * b2n e.los + 4 * b2n e.faulted))
      else none
    | _, some g, _ => if o = 0x21C + 0x20 * g then some (wordOf (s.lgVmax g)) else none
    | _, _, some p => some (wordOf ((s.progAt p).pc % 256))
    | _, _, _ => none

/-- The CFG_ERR bit that COURSE_LGg_CFG shows (R56). -/
def courseOr (s : State) (o : Nat) : Word :=
  match arrIdx o 0x200 0x20 4 with
  | some g => if o = 0x200 + 0x20 * g && lgCfgErr s g then 0x2000#32 else 0#32
  | none => 0#32

end Sys2Proof.Machine
end

