-- ==== Sys2Proof/Machine/Open.lean ====
section
/-!
DEFINITION. More of what the spec leaves open, as constants of Config without a body that speak of parts of the state: the
layouts of the images that Iluku builds, and what they place where.
-/
namespace Sys2Proof.Config
open Sys2Proof.Machine

/-- The bytes of a model epoch's values and where they lie in the Lintel stores (die, offset): the spec does not say. -/
opaque epochImage : EpochVals → List (Nat × Nat × List Byte)

/-- A plan image as its parts; none for a malformed image. The spec does not give the layout. -/
opaque parsePlan : List Byte → Option Plan

/-- The adaptation table of a model image, and the rescales that depend on its learned records. The spec does not give the
layout. -/
opaque parseModel : List Byte → List AdaptGroup × List RescaleDep

/-- The tensor records of a model or plan image, checked at load (R159, R200), each with whether its rate is 4:1. The spec does not
give the layout. -/
opaque imageRecs : List Byte → List (Nat × Bool)

/-- The bytes of a model image that replicas are loaded from, and where they lie (die, offset); none when the pair has no room. -/
opaque modelPlaces : Nat → List Byte → Option (List (Nat × Nat × List Byte))

/-- The bytes of a plan image that the plan's work reads, and where they lie (die, offset): task headers, images, descriptors. -/
opaque planPlaces : List Byte → List (Nat × Nat × List Byte)

/-- The bytes of an event-log entry: the spec gives those of the start-up entry alone (R537). -/
opaque logBytes : LogEntry → List Byte

/-- A rule image as its version, its 16 programs, each with its enable flag and 64-bit instructions, and its constants; none for
an image that does not parse. The spec does not give the layout. -/
opaque parseRules : List Byte → Option (Nat × List (Bool × List Nat) × List Nat)

end Sys2Proof.Config
end

