-- ==== Sys2Proof/Machine/Streams.lean ====
section
/-!
DEFINITION. The stream table: opening and closing contexts (R214), residency and swaps (R215 to R220), and the STREAM
registers and commands (R240 to R243).
-/
namespace Sys2Proof.Machine

/-! ### Slots and swaps -/

/-- Bytes of a slot of a window's pool. -/
def State.slotBytes (s : State) (d : Nat) : Nat := 2 ^ (s.rfld (bStream d + 0x14) 3 0 + 6)

/-- Key of the first byte of a slot. -/
def State.slotKey (s : State) (d slot : Nat) : Nat :=
  memKey (spLintel d) ((s.regGet (bStream d + 0x10)).toNat / 65536 * 65536 + slot * s.slotBytes d)

/-- Whose queue the swaps of a context use: PLAN for a plan context, else CLIENT. -/
def State.ctxWho (s : State) (c : Nat) : Who := { q := if s.ctxOwner c = 15 then .plan else .client }

/-- The state cannot be read or written: the next chunk begins from the reset state (R219). -/
def State.ctxFault (s : State) (c : Nat) : State := (s.ctxSetFlag c 2 true).ctxSetFlag c 3 true

/-- A swap-in of a context takes a slot. -/
def State.swapStart (s : State) (c slot : Nat) : State :=
  let d := ctxDie c
  let wait := match (s.streamAt d).reqs.find? (fun r => r.ctx == c && r.prio1) with
    | some r => s.cycles - r.at_
    | none => 0
  let a := bStream d + 0x38
  let s := s.regSet a (wordOf (max (s.regGet a).toNat (min wait 0xFFFFFFFF)))
  (s.ctxSetRes c 1).updStream d (fun x => { x with
    reqs := x.reqs.filter (fun r => r.ctx != c), inflight := x.inflight ++ [(c, slot)] })

/-- An eviction completes (R218): a DIRTY slot has been written back, the slot is free, or becomes the reserve it restores, or is
taken by the request it was evicted for. -/
def State.evictDone (s : State) (c : Nat) : State :=
  let d := ctxDie c
  match (s.streamAt d).slots.find? (fun p => p.1 == c) with
  | none => s
  | some (_, slot) =>
    let s := if s.ctxFlag c 1 then
        let (s, bad) := s.eccRead (s.slotKey d slot) (s.ctxBytes c)
        let s := if bad then s.ctxFault c else
          let (s, e) := s.tierWrite (s.ctxWho c) (s.ctx c 0 4) (s.ldBytes (s.slotKey d slot) (s.ctxBytes c))
          if e.isSome then s.ctxFault c else s
        s.bump (bStream d + 0x1C)
      else s
    let claim := (s.streamAt d).claims.find? (fun p => p.1 == c)
    let s := (((s.ctxSetFlag c 1 false).ctxSetRes c 0).ctxSt c 10 2 0xFFFF).updStream d (fun x => { x with
      slots := x.slots.filter (fun p => p.1 != c)
      claims := x.claims.filter (fun p => p.1 != c)
      reserve := if x.restoring == some c then slot else x.reserve
      restoring := if x.restoring == some c then none else x.restoring })
    let s := match claim with
      | some (_, q) => if (s.streamAt d).reqs.any (fun r => r.ctx == q) then s.swapStart q slot else s
      | none => s
    if (s.ctxQueue c).isEmpty then s else s.swapRequest c

/-- An eviction starts; without DIRTY it completes on the same cycle. -/
def State.evictStart (s : State) (c : Nat) : State :=
  let d := ctxDie c
  let s := ((s.ctxSetRes c 3).bump (bStream d + 0x20)).raise (evStream d) 5
  if s.ctxFlag c 1 then s else s.evictDone c

/-- A request has been given the slot of a context that is being evicted. -/
def State.claimed (s : State) (d c : Nat) : Bool := (s.streamAt d).claims.any (fun p => p.2 == c)

/-- A request can be served now (R217). -/
def State.swapServable (s : State) (d : Nat) (r : SwapReq) : Bool :=
  !s.claimed d r.ctx && (if r.prio1 then s.prio1Served d else !(s.freeSlots d).isEmpty || !(s.victims d true).isEmpty)

/-- Serves a request: a free slot; for priority 1 the reserve, with the eviction of the oldest BLOCKED context; for priority
2 the slot of the oldest context with nothing queued, once its eviction is complete. -/
def State.swapServe (s : State) (d : Nat) (r : SwapReq) : State :=
  (match s.freeSlots d with
  | k :: _ => s.swapStart r.ctx k
  | [] =>
    if r.prio1 then
      match oldest (s.victims d false) with
      | none => s
      | some v =>
        let s := s.swapStart r.ctx (s.streamAt d).reserve
        (s.updStream d (fun x => { x with restoring := some v.1 })).evictStart v.1
    else match oldest (s.victims d true) with
      | none => s
      | some v => (s.updStream d (fun x => { x with claims := x.claims ++ [(v.1, r.ctx)] })).evictStart v.1).swapWaits d

/-- The requests in the order of service. -/
def Stream.order (x : Stream) : List SwapReq := x.reqs.filter (·.prio1) ++ x.reqs.filter (fun r => !r.prio1)

/-- SWAP_IN (R217): the first request that can be served is served. -/
def execSwapIn (t die ctx : Nat) (s : State) : Out :=
  let s := (s.to t).streamSettle die
  match (s.streamAt die).order.find? (s.swapServable die) with
  | some r => guardNext (r.ctx == ctx) s (fun s => s.swapServe die r)
  | none => .next s

/-- SWAP_IN_DONE (R218): the context's state is in its slot; a pending reset takes the initial state instead. -/
def execSwapInDone (t die ctx : Nat) (s : State) : Out :=
  let s := s.to t
  match (s.streamAt die).inflight.find? (fun p => p.1 == ctx) with
  | none => .next s
  | some (_, slot) =>
    let n := s.ctxBytes ctx
    let src := if s.ctxFlag ctx 3 then s.ctx ctx 4 4 else s.ctx ctx 0 4
    let (s, bytes) :=
      if s.ctxFlag ctx 3 && src == 0 then (s, List.replicate n 0#8)
      else match s.tierRead (s.ctxWho ctx) src n with
        | (s, .ok bs) => (s, bs)
        | (s, .error _) => (s.ctxFault ctx, List.replicate n 0#8)
    let s := (s.stBytes (s.slotKey die slot) bytes).updStream die (fun x => { x with
      inflight := x.inflight.filter (fun p => p.1 != ctx), slots := x.slots ++ [(ctx, slot)] })
    .next ((((s.ctxSetRes ctx 2).ctxSt ctx 10 2 slot).bump (bStream die + 0x18)).streamSettle die)

/-- EVICTION_DONE (R218). -/
def execEvictionDone (t die ctx : Nat) (s : State) : Out :=
  let s := s.to t
  guardNext (ctxDie ctx == die && s.ctxRes ctx == 3) s (fun s => (s.evictDone ctx).streamSettle die)

/-! ### Contexts -/

/-- Opens a context (R214): its entry, with RESET_PENDING and LAST_SP −2⁶³. -/
def State.ctxOpenSet (s : State) (c stateAddr initAddr size : Nat) (markReset : Bool) (tag owner : Nat) (pinned : Bool) : State :=
  let s := (s.zero (memKey (spLintel (ctxDie c)) (ctxOff c)) 64).ctxSt c 0 4 stateAddr
  let s := ((s.ctxSt c 4 4 initAddr).ctxSt c 8 2 size).ctxSt c 10 2 0xFFFF
  let s := (s.ctxSt c 12 1 (128 + 16 * b2n pinned + 8 + b2n markReset)).ctxSt c 13 1 (16 * (owner % 16))
  ((s.ctxSt c 16 8 (2 ^ 63)).ctxSt c 32 8 tag).updStream (ctxDie c) (fun x => { x with
    applied := x.applied.filter (fun p => p.1 != c), lostSp := x.lostSp.filter (fun p => p.1 != c)
    lostIn := x.lostIn.filter (fun p => p.1 != c) })

/-- Why a context is not opened: it is absent, open with chunks queued or running, misaligned, or too large for a slot (R211,
R212, R214, R215). -/
def State.ctxOpenErr (s : State) (c stateAddr initAddr size : Nat) : Nat :=
  if !s.ctxOk c then 0x0204
  else if s.ctxFlag c 7 && (!(s.ctxQueue c).isEmpty || s.ctxRunning c) then 0x0401
  else if stateAddr % 64 ≠ 0 ∨ initAddr % 64 ≠ 0 ∨ 256 < size then 0x0105
  else if s.slotBytes (ctxDie c) < 64 * size then 0x020A
  else 0

/-- Closes a context; BUSY while it has chunks queued or running (R214). -/
def State.ctxCloseSet (s : State) (c : Nat) : State :=
  let d := ctxDie c
  ((s.ctxSetFlag c 7 false).ctxSetRes c 0).updStream d (fun x => { x with
    slots := x.slots.filter (fun p => p.1 != c), inflight := x.inflight.filter (fun p => p.1 != c)
    reqs := x.reqs.filter (fun r => r.ctx != c)
    claims := x.claims.filter (fun p => p.1 != c && p.2 != c)
    reserve := match x.slots.find? (fun p => p.1 == c) with
      | some p => if x.restoring == some c then p.2 else x.reserve
      | none => x.reserve
    restoring := if x.restoring == some c then none else x.restoring })

/-! ### Commands and registers -/

/-- Pinned contexts of a die pair. -/
def State.pinnedCount (s : State) (d : Nat) : Nat :=
  ((s.listed (spLintel d) 0x06030000 64 65536 12 4).filter (fun i => s.ctxFlag (65536 * d + i) 7)).length

/-- PIN (R220); of a context pinned already it only asks for the swap-in. -/
def State.ctxPin (s : State) (d c : Nat) : State :=
  if s.ctxFlag c 4 then s.swapRequest c
  else if s.rfld (bStream d + 0x14) 31 16 < s.pinnedCount d + 3 then s.raise (evStream d) 0
  else (s.ctxSetFlag c 4 true).swapRequest c

/-- EVICT (R243): of a RESIDENT, BLOCKED and unpinned context. -/
def State.ctxEvict (s : State) (d c : Nat) : State :=
  if (s.victims d false).any (fun p => p.1 == c) then (s.evictStart c).streamSettle d else s

/-- Clears the counters of a window. -/
def State.streamClear (s : State) (d : Nat) : State :=
  s.each [0x18, 0x1C, 0x20, 0x28, 0x2C, 0x38] (fun s o => s.regSet (bStream d + o) 0#32)

/-- A write of STREAM_CMD (R243). -/
def State.streamCmd (s : State) (d v : Nat) : State :=
  let c := v % 2 ^ 18
  let k := v / 2 ^ 24
  if k = 5 then s.streamClear d
  else if !s.ctxOk c || ctxDie c != d || !s.ctxFlag c 7 then s
  else match k with
    | 1 => s.ctxSetFlag c 3 true
    | 2 => s.ctxPin d c
    | 3 => s.ctxSetFlag c 4 false
    | 4 => s.ctxEvict d c
    | _ => s

/-- A write of STREAM_CTX_SEL takes a snapshot of the selected entry (R240). -/
def State.ctxSel (s : State) (d v : Nat) : State :=
  let c := v % 2 ^ 18
  let s := s.regSet (bStream d + 0x34) (wordOf c)
  s.each (List.range 16) (fun s n =>
    s.regSet (bStream d + 0x40 + 4 * n) (wordOf (if s.ctxOk c then s.ctx c (4 * n) 4 else 0)))

/-- Registers of STREAM that are formed when read. -/
def State.streamView (s : State) (d o : Nat) : Option Nat :=
  if o = 4 then
    some (((s.streamAt d).slots.filter (fun p => s.ctxRes p.1 == 2)).length * 65536 +
      (if s.streamOn d then (s.freeSlots d).length % 32768 else 0) * 2 + b2n (s.rbit (bStream d) 0 && s.streamCfgErr d))
  else match arrIdx o 0x80 8 4 with
    | some m =>
      let sp := match (s.streamAt d).marks[m]? with
        | some k => codeOf 64 k.sp
        | none => 0
      some (if o % 8 = 0 then sp % 2 ^ 32 else sp / 2 ^ 32)
    | none => none

end Sys2Proof.Machine
end

