-- ==== Sys2Proof/Machine/TaskCore.lean ====
section
/-!
DEFINITION. A task on its core: its core store and records (R122, R187), its counts and outcome (R180, R321), and how an
operator's descriptor is taken (R187, R318).
-/
namespace Sys2Proof.Machine

/-! ### The task and its core -/

/-- The task of a slot that has no outcome yet. -/
def State.live (s : State) (d i : Nat) : Option RunTask :=
  match s.runAt d i with
  | some r => if r.out.isNone then some r else none
  | none => none

/-- What a command does to a live task; where the slot has none, and while the clock changes and every core holds (R131), only
the time passes. -/
def onTask (t d i : Nat) (s : State) (f : State → RunTask → State) : Out :=
  let s := s.to t
  match s.live d i with
  | some r => if s.changing.isSome then .next s else .next (f s r)
  | none => .next s

/-- The task gets its outcome; the first one stands. -/
def State.finish (s : State) (d i : Nat) (o : TaskOut) : State :=
  s.updRun d i (fun r => { r with out := if r.out.isNone then some o else r.out })

/-- The sequencer has executed one instruction and goes on at `pc`. -/
def State.goPc (s : State) (d i pc : Nat) : State :=
  s.updRun d i (fun r => { r with pc := pc, icount := r.icount + 1 })

/-- A pass step, a drain or a store of the task (R128). -/
def State.moves (s : State) (d i : Nat) : State := s.updRun d i (fun r => { r with progress := s.cycles })

/-- The task has done work that is not empty. -/
def State.worked (s : State) (d i : Nat) : State := s.updRun d i (fun r => { r with work := true, progress := s.cycles })

/-- Adds to the counts of the task. -/
def State.count (s : State) (d i : Nat) (f : ArithCnt → ArithCnt) : State :=
  s.updRun d i (fun r => { r with cnt := f r.cnt })

/-- The physical core of a slot. -/
def State.coreOf (s : State) (d i : Nat) : Nat := (s.slotAt d i).core

/-- Key of a core-store byte of a slot's core. -/
def State.csKey (s : State) (d i a : Nat) : Nat := memKey (spCore d (s.coreOf d i)) (a % 0x200000)

/-- Reads n bytes of the core store as a number, as stored. -/
def State.cs (s : State) (d i a n : Nat) : Nat := s.ldN (s.csKey d i a) n

/-- Writes bytes of the core store. -/
def State.csSt (s : State) (d i a : Nat) (bs : List Byte) : State := s.stBytes (s.csKey d i a) bs

/-- Everything the task has issued is done: operators, drains, chains and their bursts. -/
def State.taskIdle (s : State) (d i : Nat) (r : RunTask) : Bool :=
  r.issued.isEmpty && r.splits.isEmpty && (s.coreAt d (s.coreOf d i)).drainQ.isEmpty &&
    (s.coreAt d (s.coreOf d i)).conv.isEmpty && r.chains.all (·.isNone) &&
    !s.burstsWait d i

/-- The rounding class as the task's. -/
def RunTask.cls (r : RunTask) : RClass := r.rclass

/-! ### Records -/

/-- A record of the task's table; an index beyond NREC is out of range (R187). -/
def State.recAt (s : State) (d i : Nat) (r : RunTask) (k : Nat) : Except TaskOut Nat :=
  if k < r.nrec then .ok (s.cs d i (r.recAddr + 8 * k) 8) else .error .opDescErr

/-- A tensor record of the task's table (R156, R157, R159). -/
def State.tensorAt (s : State) (d i : Nat) (r : RunTask) (k : Nat) : Except TaskOut TensorRec := do
  let n ← s.recAt d i r k
  match tensorRec n with
  | some t => if recFault n then throw .arithDescErr else pure t
  | none => throw .arithDescErr

/-- A rescale record of the task's table (R163). -/
def State.rescaleAt (s : State) (d i : Nat) (r : RunTask) (k : Nat) : Except TaskOut RescaleRec := do
  let n ← s.recAt d i r k
  if n % 2 ^ 24 ≠ 0 then throw .arithDescErr else pure (rescaleRec n)

/-- A field lies in its range. -/
def need (c : Bool) (o : TaskOut := .opDescErr) : Except TaskOut Unit := if c then .ok () else .error o

/-! ### Operators -/

/-- What an operator does once its descriptor is taken: the core-store ranges it reads, whether it is empty, and its effect. -/
structure OpDo where
  reads : List (Nat × Nat) := []
  empty : Bool := false
  run : State → State := fun s => s
  deriving Inhabited

/-- Reads ranges of the core store through ECC, each word once; an uncorrectable word fails the task (R125). -/
def State.csReads (s : State) (d i : Nat) (l : List (Nat × Nat)) : State :=
  s.each (s.mt.flips.filter (fun f => l.any (fun p =>
    let k := s.csKey d i p.1
    decide (k < f.1 + 8) && decide (f.1 < k + p.2)))) (fun s f => (s.eccRead f.1 8).1)

/-- A read of ranges of the core store with no barrier since a chain wrote there sees, for each 32-byte word, the old or the new
content (R186): the state as it is seen, and the words seen old, each with its address, its old and its new content. -/
def State.mixView (s : State) (d i : Nat) (reads : List (Nat × Nat)) : State × List (Nat × List Byte × List Byte) :=
  match s.live d i with
  | none => (s, [])
  | some r => (r.racing.filter (fun w => reads.any (fun p => decide (p.1 < w.2.1 + 32) && decide (w.2.1 < p.1 + p.2)))).foldl
      (fun acc w =>
        let s := acc.1.drew
        if acc.1.free.toNat % 2 = 0 then (s, acc.2)
        else (s.csSt d i w.2.1 w.2.2, (w.2.1, w.2.2, s.ldBytes (s.csKey d i w.2.1) 32) :: acc.2)) (s, [])

/-- The words seen old hold their new content again, but for the bytes that have been written meanwhile. -/
def State.mixBack (s : State) (d i : Nat) (l : List (Nat × List Byte × List Byte)) : State :=
  s.each l (fun s w => s.csSt d i w.1 ((List.range 32).map (fun k =>
    let b := s.ldB (s.csKey d i w.1 + k)
    if b = lget 0 w.2.1 k then lget 0 w.2.2 k else b)))

/-- Carries out an operator that the task has issued: the oldest one, when the descriptor at its address has the code. -/
def State.operate (s : State) (d i addr code : Nat) (r : RunTask) (f : State → RunTask → Except TaskOut OpDo) : State :=
  if r.issued.head? ≠ some addr ∨ s.cs d i addr 1 ≠ code then s
  else
    let s := (s.updRun d i (fun r => { r with issued := r.issued.drop 1 })).csReads d i [(addr, 64)]
    match s.live d i with
    | none => s
    | some r => match f s r with
      | .error o => s.finish d i o
      | .ok op =>
        let s := s.csReads d i op.reads
        if (s.live d i).isNone then s
        else if op.empty then op.run s
        else
          let (s, old) := s.mixView d i op.reads
          ((op.run s).mixBack d i old).worked d i

/-- Core-store addresses are byte addresses whose bits above [20] are 0 (R187). -/
def csOk (a : Nat) : Bool := decide (a < 0x200000)

/-! ### Elements and side lists -/

/-- Code of element k of a packed row at a core-store address. -/
def State.elem (s : State) (d i : Nat) (f : Fmt) (a k : Nat) : Nat :=
  elemCode f (fun o => s.ldB (s.csKey d i (a + o))) k

/-- Writes the code of element k of a packed row at an address. -/
def State.putElem (s : State) (d i : Nat) (f : Fmt) (a k : Nat) (code : Nat) : State :=
  match f with
  | .int4 =>
    let b := s.cs d i (a + k / 2) 1
    let n := if k % 2 = 0 then b / 16 * 16 + code % 16 else b % 16 + 16 * (code % 16)
    s.csSt d i (a + k / 2) (leBytes 1 n)
  | _ => s.csSt d i (a + k * (f.bits / 8)) (leBytes (f.bits / 8) code)

/-- The code a value takes in a format. -/
def Fmt.code (f : Fmt) (z : Int) : Nat := codeOf f.bits z

/-- Bytes that n elements of a format occupy. -/
def Fmt.bytes (f : Fmt) (n : Nat) : Nat := (n * f.bits + 7) / 8

/-- Elements of a format in 16 bytes: a channel block (R181). -/
def Fmt.block (f : Fmt) : Nat := 128 / f.bits

/-- Byte of element k of a format, relative to its row. -/
def Fmt.byteOf (f : Fmt) (k : Nat) : Nat := k * f.bits / 8

/-- Where the side list of a tile of a core-store tensor lies (R309): the spec gives no address for a tensor of an
operator, so its base is left open (Config.sideBase). -/
def sideAt (base tile : Nat) : Nat := Config.sideBase base + 576 * tile

/-- The side-list value of the element at a byte offset of a tensor, if the list holds one (R170, R172). -/
def State.sideOf (s : State) (d i : Nat) (f : Fmt) (base byteOff odd : Nat) : Option Word :=
  let idx := byteOff % 4096 * 8 / f.bits + odd
  sideFind (sideParse (s.ldBytes (s.csKey d i (sideAt base (byteOff / 4096))) 520)) idx

/-- Enters escapes (byte offset, nibble, value) of a tensor into its side lists, in the order given; the 65th of a tile is
clamped by the caller (R172). -/
def State.sideAdd (s : State) (d i : Nat) (f : Fmt) (base byteOff odd : Nat) (v : Word) : State :=
  let a := sideAt base (byteOff / 4096)
  let l := sideParse (s.ldBytes (s.csKey d i a) 520)
  let idx := byteOff % 4096 * 8 / f.bits + odd
  s.csSt d i a (sideBytes ((idx, v) :: l.filter (fun p => p.1 != idx)))

/-- Empties the side lists of an output tensor of n bytes before it is written anew. -/
def State.sideClear (s : State) (d i : Nat) (t : TensorRec) (base n : Nat) : State :=
  if t.esc then s.each (List.range ((n + 4095) / 4096)) (fun s k => s.csSt d i (sideAt base k) (List.replicate 520 0)) else s

/-- Entries a tile's side list holds, the element's own left out. -/
def State.sideUsed (s : State) (d i : Nat) (f : Fmt) (base byteOff odd : Nat) : Nat :=
  let idx := byteOff % 4096 * 8 / f.bits + odd
  ((sideParse (s.ldBytes (s.csKey d i (sideAt base (byteOff / 4096))) 520)).filter (fun p => p.1 != idx)).length

/-- Writes one output element, at element k of the row at `row` of the tensor at `base`, with its escape and its counts. -/
def State.putOut (s : State) (d i : Nat) (t : TensorRec) (base row k : Nat) (o : OutElem) : State :=
  let off := row + t.fmt.byteOf k - base
  let odd := if t.fmt = .int4 then k % 2 else 0
  let cnt := match s.runAt d i with | some r => r.cnt | none => {}
  let (code, side, cnt) := escapeTake t (if o.esc.isSome then s.sideUsed d i t.fmt base off odd else 0) o cnt
  let s := (s.count d i (fun _ => cnt)).putElem d i t.fmt row k (t.fmt.code code)
  match side with
  | some v => s.sideAdd d i t.fmt base off odd v
  | none => s

/-- An operand element: the code as presented, less nothing, and the side value of an escape (R173, R174). `missing` says
that an escape code has no entry; `nan` that its entry is not finite. -/
structure Operand where
  code : Int
  esc : Option Word := none
  missing : Bool := false
  nan : Bool := false
  /-- Its element index in its tensor. -/
  idx : Nat := 0
  deriving DecidableEq, Repr, Inhabited

/-- Reads an operand element. -/
def State.operand (s : State) (d i : Nat) (t : TensorRec) (base row k : Nat) : Operand :=
  let q := codeInt t.fmt (s.elem d i t.fmt row k)
  if t.esc ∧ q = escCode t.fmt then
    let off := row + t.fmt.byteOf k - base
    let odd := if t.fmt = .int4 then k % 2 else 0
    let idx := off * 8 / t.fmt.bits + odd
    match s.sideOf d i t.fmt base off odd with
    | none => { code := t.zp, missing := true }
    | some v => if isNan v || isInf v then { code := t.zp, esc := some 0#32, nan := true, idx := idx }
        else { code := t.zp, esc := some v, idx := idx }
  else { code := q }

/-- The real value of an operand element (R176). -/
def Operand.real (o : Operand) (c : RClass) (t : TensorRec) : Word :=
  match o.esc with
  | some v => v
  | none => dequant c t.scale t.zp o.code

/-- The real value of an element of any format: FP32 and BF16 at face value, INT32 rounded (R158, R176). -/
def State.realAt (s : State) (d i : Nat) (c : RClass) (t : TensorRec) (base row k : Nat) : Word :=
  match t.fmt with
  | .fp32 => wordOf (s.elem d i t.fmt row k)
  | .bf16 => bf16Word (s.elem d i t.fmt row k)
  | .int32 => ofInt c (codeInt t.fmt (s.elem d i t.fmt row k))
  | _ => (s.operand d i t base row k).real c t

/-- Counts of the escapes of operand elements. -/
def escCounts (l : List Operand) (c : ArithCnt) : ArithCnt :=
  (c.addMiss (l.filter (·.missing)).length).addNan (l.filter (·.nan)).length

end Sys2Proof.Machine
end

