-- ==== Sys2Proof/Machine/KvCore.lean ====
section
/-!
DEFINITION. KV sequences, their page lists and the page pool (R244 to R261): opening, resetting, closing and forking, and what an
attention task sees and pins at its dispatch.
-/
namespace Sys2Proof.Machine

/-! ### The pool (R251, R278, R279) -/

/-- PAGES of a window's pool. -/
def State.kvPages (s : State) (d : Nat) : Nat := s.rfld (bKv d + 0x18) 31 13

/-- The pool is invalid (R279), or HOME names an absent pair (R278). -/
def State.kvCfgErr (s : State) (d : Nat) : Bool :=
  let pool := decide (262144 < s.kvPages d) || s.rfld (bKv d + 0x18) 1 0 == 3 ||
    decide (2 ^ 32 < s.kvDataAt d (s.kvPages d)) || decide (2 ^ 32 < s.kvScaleAt d (s.kvPages d))
  (s.rbit (bKv d) 0 && pool) || !s.hasDie (s.rfld 0x50100 17 16)

/-- Attention operators of a window run. -/
def State.kvOn (s : State) (d : Nat) : Bool := s.rbit (bKv d) 0 && !s.kvCfgErr d

/-- Forms the free list of a valid pool that is enabled and has none, or one for another number of pages: the pages that are not LIVE,
in increasing order. -/
def State.kvInit (s : State) (d : Nat) : State :=
  if (s.kvAt d).pool == some (s.kvPages d) || !s.kvOn d then s
  else
    let free := (List.range (s.kvPages d)).filter (fun n => !(s.pageD d n).live)
    let s := s.each ((free.zip (free.drop 1 ++ [noPage]))) (fun s (n, k) => s.pageSt d n { s.pageD d n with next := k })
    s.updKv d (fun k => { k with pool := some (s.kvPages d), freeHead := lget noPage free 0 })

/-- Pages of a pool that are LIVE. -/
def State.kvLive (s : State) (d : Nat) : List Nat :=
  (s.listed (spLintel d) 0x06440000 8 262144 3 3).filter (fun n => decide (n < s.kvPages d))

/-- Free pages of a pool. -/
def State.kvFree (s : State) (d : Nat) : Nat := if (s.kvAt d).pool == some (s.kvPages d) then s.kvPages d - (s.kvLive d).length else 0

/-! ### Sequences (R245, R246) -/

def State.seqLen (s : State) (q : Nat) : Nat := s.seqf q 0 4
def State.seqGen (s : State) (q : Nat) : Nat := s.seqf q 4 4
def State.seqSp0 (s : State) (q : Nat) : Int := signedOf 64 (s.seqf q 8 8)
def State.seqPitch (s : State) (q : Nat) : Nat := s.seqf q 16 4
def State.seqMax (s : State) (q : Nat) : Nat := s.seqf q 24 2
def State.seqHeads (s : State) (q : Nat) : Nat := s.seqf q 26 1
/-- DIM, Q4 and MARK_RESET. -/
def State.seqDim (s : State) (q : Nat) : Nat := s.seqf q 27 1 / 64
def State.seqQ4 (s : State) (q : Nat) : Bool := (s.seqf q 27 1).testBit 5
def State.seqMark (s : State) (q : Nat) : Bool := (s.seqf q 27 1).testBit 4

/-- Lintel offset of the page-list entry of a head, a kind and a page index. -/
def State.listAt (s : State) (q h kind k : Nat) : Nat := s.seqf q 20 4 + 4 * ((h * 2 + kind) * s.seqMax q + k)

/-- The page an entry of the list names. -/
def State.listPage (s : State) (q h kind k : Nat) : Option Nat :=
  let e := s.lin (seqDie q) (s.listAt q h kind k) 4
  if e.testBit 31 then some (e % 2 ^ 19) else none

/-- Writes an entry of the list. -/
def State.listSet (s : State) (q h kind k : Nat) (p : Option Nat) : State :=
  s.linSt (seqDie q) (s.listAt q h kind k) 4 (match p with | some n => 2 ^ 31 + n | none => 0)

/-- Entries of a sequence's list: head, kind and index. -/
def State.listKeys (s : State) (q : Nat) : List (Nat × Nat × Nat) :=
  (List.range (s.seqHeads q)).flatMap (fun h => [0, 1].flatMap (fun kind => (List.range (s.seqMax q)).map (fun k => (h, kind, k))))

/-- RESET_SEQ (R280): every listed page loses a reference, the list is cleared, LEN is 0 and GEN advances. -/
def State.seqReset (s : State) (q : Nat) : State :=
  let s := s.each (s.listKeys q) (fun s (h, kind, k) => match s.listPage q h kind k with
    | none => s
    | some n => (s.pageUnref (seqDie q) n).listSet q h kind k none)
  (s.seqSt q 0 4 0).seqSt q 4 4 (s.seqGen q + 1)

/-- CLOSE. -/
def State.seqClose (s : State) (q : Nat) : State := (s.seqReset q).seqSt q 28 1 0

/-- Why an open is refused (R244 to R246): 0 for none. The page list lies in the Lintel store, out of its fixed region (R281). -/
def State.seqOpenErr (s : State) (q heads dim max : Nat) (q4 : Bool) (pitch list : Nat) : Nat :=
  let d := seqDie q
  if !s.seqOk q then 0x0204
  else if heads = 0 ∨ 16 < heads ∨ max = 0 ∨ 1024 < max ∨ dim = 3 then 0x020A
  else if pitch = 0 ∨ 2 ^ 31 ≤ pitch ∨ list % 64 ≠ 0 ∨ list < 0x06660000 ∨ 0x10000000 < list + 8 * heads * max then 0x020A
  else if s.kvFrame d < (if q4 then 32 else 64) * dimOf dim ∨ s.kvScale d < 8 * dimOf dim then 0x020A
  else 0

/-- Opens a sequence: OPEN is set, LEN is 0, GEN advances, and its list names no page. -/
def State.seqOpenSet (s : State) (q heads dim : Nat) (q4 mark : Bool) (owner : Nat) (sp0 : Int) (pitch list max : Nat) : State :=
  let s := s.linSt (seqDie q) (seqOff q) 4 0
  let s := s.seqSt q 4 4 (s.seqGen q + 1)
  let s := s.stBytes (memKey (spLintel (seqDie q)) (seqOff q + 8)) (le64 sp0 ++ leBytes 4 pitch ++ leBytes 4 list ++ leBytes 2 max ++
    leBytes 1 heads ++ leBytes 1 (dim * 64 + b2n q4 * 32 + b2n mark * 16 + owner) ++ leBytes 1 128 ++ leBytes 3 0)
  let s := s.updKv (seqDie q) (fun k => { k with
    applied := (s.streamAt (seqDie q)).marks.map (fun m => (q, m.id)) ++ k.applied.filter (fun p => p.1 != q) })
  s.zero (memKey (spLintel (seqDie q)) list) (8 * heads * max)

/-- FORK (R260): a status, 0 when the fork is made. -/
def State.seqFork (s : State) (src dst n : Nat) : State × Nat :=
  let d := seqDie src
  let np := (n + 63) / 64
  if seqDie dst ≠ d ∨ src = dst ∨ s.seqLen src < n ∨ s.seqHeads src ≠ s.seqHeads dst ∨ s.seqDim src ≠ s.seqDim dst ∨
      s.seqQ4 src ≠ s.seqQ4 dst ∨ s.seqMax dst < np then (s, 0x020A)
  else
    let keys := (List.range (s.seqHeads src)).flatMap (fun h => [0, 1].flatMap (fun kind => (List.range np).map (fun k => (h, kind, k))))
    let shared := keys.filterMap (fun (h, kind, k) => (s.listPage src h kind k).map (fun p => ((h, kind, k), p)))
    if shared.any (fun x => decide (65535 ≤ (s.pageD d x.2).ref)) then (s.raise (evKv d) 4, 0x0303)
    else
      let s := s.each shared (fun s x => s.pageSt d x.2 { s.pageD d x.2 with ref := (s.pageD d x.2).ref + 1 })
      let s := s.seqReset dst
      let s := s.each shared (fun s ((h, kind, k), p) => s.listSet dst h kind k (some p))
      (s.seqSt dst 0 4 n, 0)

/-! ### What an attention task sees (R258, R261, R263) -/

/-- Key positions a query may attend to, before VALID and FAULT: lo and hi, none where the range is empty. -/
def keyRange (causal : Bool) (qpos lag window len i : Nat) : Option (Nat × Nat) :=
  let t : Int := (qpos + i : Nat)
  let hi : Int := min (if causal then t - lag else (len : Int) - 1) ((len : Int) - 1)
  let lo : Int := if window = 0 then 0 else max 0 (t - window + 1)
  if lo ≤ hi then some (lo.toNat, hi.toNat) else none

/-- What the operator at a descriptor sees of its sequence now; ATTN_BWD looks at one that has been closed too, to find its
statistics stale (R269). `f` reads the descriptor. -/
def State.kvSnap (s : State) (d addr : Nat) (f : Nat → Nat → Nat) : Option KvSnap :=
  let q := f 4 2
  if 4096 ≤ q ∨ !s.seqOk q ∨ seqDie q ≠ d ∨ (!s.seqOpen q ∧ f 0 1 ≠ 0x1B) ∨ s.seqHeads q ≤ f 6 1 then none
  else
    let len := s.seqLen q
    let rs := (List.range (min 256 (f 2 2))).filterMap (fun i => keyRange (bitOf (f 1 1) 7) (f 8 4) (f 12 2) (f 14 2) len i)
    let pages (kind : Nat) : List (Nat × Nat) :=
      if rs.isEmpty then []
      else
        let lo := (rs.map (·.1)).foldl min len / 64
        let hi := (rs.map (·.2)).foldl max 0 / 64
        (List.range (hi + 1 - lo)).filterMap (fun k => (s.listPage q (f 6 1) kind (lo + k)).map (fun n => (lo + k, n)))
    some { at_ := addr, seq := q, gen := s.seqGen q, len := len, isOpen := s.seqOpen q, dim := dimOf (s.seqDim q), q4 := s.seqQ4 q, keys := pages 0, vals := pages 1 }

/-- Positions of one partial task: 64 × SPAN; 0 is taken as 1. -/
def State.splitSpan (s : State) (d : Nat) : Nat := 64 * max 1 (s.rfld (bKv d + 0x28) 10 0)

/-- Whether an ATTN is expanded into partial tasks (R268), and how many. -/
def State.splitOf (s : State) (d len : Nat) : Nat :=
  let w := s.splitSpan d
  if s.part == .vyu2140 && decide (w < len) then (len + w - 1) / w else 1

/-- Pages of partial task k of an ATTN with this view of its sequence. -/
def State.partPages (s : State) (d k : Nat) (v : KvSnap) : List Nat :=
  let n := s.splitSpan d / 64
  (((v.keys ++ v.vals).filter (fun p => decide (k * n ≤ p.1) && decide (p.1 < k * n + n))).map (·.2)).eraseDups

/-- At dispatch, the attention operators of a task's program take their view of their sequences; the task pins each page of their key
ranges once (R259). -/
def State.kvDispatch (s : State) (d i : Nat) (h : TaskHdr) : State :=
  if !s.kvOn d then s
  else
    let ops := (List.range h.prog).filterMap (fun k =>
      let w := s.imgN d i h (h.progAddr + 8 * k) 8
      let a := w % 2 ^ 32
      let op := s.imgN d i h a 1
      if w / 2 ^ 56 = 1 ∧ (op = 0x19 ∨ op = 0x1B) then some a else none)
    let snaps := ops.eraseDups.filterMap (fun a => s.kvSnap d a (fun o n => s.imgN d i h (a + o) n))
    let pins := (snaps.flatMap (fun k => (k.keys ++ k.vals).map (·.2))).eraseDups
    (s.each pins (fun s n => s.pagePin d n)).updRun d i (fun r => { r with pins := pins, kvs := snaps })

end Sys2Proof.Machine
end

