-- ==== Sys2Proof/Machine/Task.lean ====
section
/-!
DEFINITION. Dispatch and completion of tasks (R135, R136, R320 to R326, R343, R344), the task sequencer's instructions (R318)
and the events of the fabric (R113, R128, R131, R139 to R146).
-/
namespace Sys2Proof.Machine

/-! ### Dispatch -/

/-- The client slots of a die pair in the variant in force (R332). -/
def State.clientMask (s : State) (d : Nat) : Nat :=
  match s.varDie s.bond.variant d with
  | some v => v.clientMask
  | none => if s.bond.st == .running || s.bond.st == .stopping then 0 else 2 ^ 48 - 1

/-- A client may have a task dispatched (R350): EN is set and its use is below its quota less its debt. -/
def State.quotaOk (s : State) (c : Nat) : Bool :=
  let w := s.regGet (0x70100 + 8 * c)
  wbit w 31 && decide (countOf s.bond.used c + countOf s.bond.debt c < 256 * fld w 23 0)

/-- The chunk of a task, if any, may run: its window is on, its context holds no state or is RESIDENT, and the chunk is the
oldest queued for it, with none of its context running (R221, R222). A window that is off lets the task start, to end STREAM_OFF (R242). -/
def State.chunkReady (s : State) (g : GraphInst) (t : Nat) (k : TaskInst) : Bool :=
  match s.chunkOf g.die (slotOf g k.entry) k.entry.header with
  | none => true
  | some ch =>
    (match s.ctxQueue ch.ctx with
      | [] => false
      | q :: _ => q.graph == g.id && q.task == t) && !s.ctxRunning ch.ctx &&
      (s.ctx ch.ctx 8 2 == 0 || !s.streamOn g.die || s.ctxRes ch.ctx == 2)

/-- A slot can take a task: it is bound, no spare is being mapped in, no CORE slice tests it (R449), and it runs none. -/
def State.slotFree (s : State) (d i : Nat) : Bool :=
  let x := s.slotAt d i
  decide (i < 48) && s.mgmt.pow == .run && !x.vacant && x.spareIn.isNone && (s.runAt d i).isNone && !(s.coreAt d x.core).retire &&
    !s.plumb.slice.any (fun y => y.cls == 0 && y.target == 48 * d + i)

/-- The slot a ready task of a graph goes to: the one it names, or for 0x3F the first idle client slot. -/
def State.taskSlot (s : State) (g : GraphInst) (k : TaskInst) : Option Nat :=
  let n := slotOf g k.entry
  if g.client ≠ 15 ∧ n = 0x3F then
    (List.range 48).find? (fun i => (s.clientMask g.die).testBit i && s.slotFree g.die i)
  else some n

/-- Rank of a ready task in the order of R325: class, then keys that rise. -/
def State.taskRank (s : State) (g : GraphInst) (t : Nat) (k : TaskInst) : List Int :=
  match g.kind with
  | .keystone => [0, g.relSp, g.id, t]
  | .path => [1, g.relSp, g.id, t]
  | .background => [2, g.relSp, g.id, t]
  | .client => [3, s.rfld (0x70100 + 8 * g.client) 25 24, ((g.client + 15 - s.bond.lastServed - 1) % 15 : Nat), k.readyAt]

/-- The first list comes before the second. -/
def rankLt : List Int → List Int → Bool
  | [], [] => false
  | [], _ => true
  | _, [] => false
  | a :: as, b :: bs => decide (a < b) || (a == b && rankLt as bs)

/-- Ready tasks of a die pair that may go to a slot now, in graph order. -/
def State.readyFor (s : State) (d i : Nat) : List (GraphInst × Nat × TaskInst) :=
  (s.bond.graphs.filter (fun g => g.die == d)).flatMap (fun g =>
    ((List.range g.tasks.length).zip g.tasks).filterMap (fun (t, k) =>
      if k.st == .ready && decide (k.issued < k.total) && s.taskSlot g k == some i && s.chunkReady g t k &&
          (g.client == 15 || s.quotaOk g.client) then some (g, t, k) else none))

/-- The task that heads the order of a slot (R325). -/
def State.headFor (s : State) (d i : Nat) : Option (GraphInst × Nat × TaskInst) :=
  (s.readyFor d i).foldl (fun acc x => match acc with
    | none => some x
    | some y => if rankLt (s.taskRank x.1 x.2.1 x.2.2) (s.taskRank y.1 y.2.1 y.2.2) then some x else some y) none

/-- The fabric takes work: the pair is READY or RUNNING, no clock change runs, and no safety restart. -/
def State.pairWorks (s : State) (d : Nat) : Bool :=
  let x := (s.dieAt d).st
  (x == .ready || x == .running) && s.changing.isNone && !s.restarting && s.hasDie d

/-- A mapping entry places a task of its template on a slot. -/
def mapsTo (p : Plan) (m : MapEntry) (i : Nat) : Bool :=
  match p.templates[m.template]? with
  | some t => t.graph.any (fun e => lget 0 m.roleSlot e.slot == i)
  | none => false

/-- Strip positions of the next plan releases on a slot in the variant in force: the end of the band for tile sets, the next frame in which
they are due for FRAME templates, the next frame for the Keystone. -/
def State.releasesOn (s : State) (p : Plan) (d i : Nat) : List Int :=
  let at_ (n : Int) : Int := s.bandSp (n * ((max 1 p.frameBands : Nat) : Int))
  let next := s.bond.frame + 1
  let (tiles, frames) := match s.varDie s.bond.variant d with
    | some v => (v.map.any (mapsTo p · i), v.frames.filter (mapsTo p · i))
    | none => (false, [])
  (if tiles then [s.bandSp (Int.fdiv s.course.sp (max 1 (256 * s.pitchFine)) + 1)] else []) ++
    frames.filterMap (fun m => p.templates[m.template]?.map (fun t =>
      at_ (next + ((t.phase : Int) - next) % (max 1 t.period : Nat)))) ++
    (if p.keystone.any (fun e => e.slot == i) then [at_ next] else [])

/-- Time to the next plan release on the slots of a list at the present speed, in compute cycles (R343, R449); none where there is no
end to it. -/
def State.toRelease (s : State) (d : Nat) (slots : List Nat) : Option Nat :=
  match s.bond.plan with
  | none => none
  | some p =>
    if s.course.speed ≤ 0 then none
    else match slots.flatMap (s.releasesOn p d) with
      | [] => none
      | x :: l => some (cyclesIn s.freq ((l.foldl min x - s.sp) * 500000000 / s.course.speed).toNat)

/-- The next instance of a task lies beyond its REPEAT_BUDGET (R343). -/
def beyondBudget (g : GraphInst) (k : TaskInst) : Bool :=
  g.client == 15 && k.entry.repeatMax != 0 && decide (k.entry.repeatBudget ≤ k.issued)

/-- An instance beyond REPEAT_BUDGET is not run (R343): another plan task is ready for the slot, but for instances that are to be shed
before this one, or it does not fit before the slot's next release. SHED level 0 is never shed (R316). -/
def State.shedNow (s : State) (d i : Nat) (g : GraphInst) (t : Nat) (k : TaskInst) (h : TaskHdr) : Bool :=
  beyondBudget g k && h.shed != 0 &&
    ((s.readyFor d i).any (fun x => x.1.client == 15 && !(x.1.id == g.id && x.2.1 == t) &&
        !(beyondBudget x.1 x.2.2 && decide (h.shed < (s.taskHdr d x.2.2.entry.header).shed))) ||
      (match s.toRelease d [i] with
        | some c => decide (c < h.wcet)
        | none => false))

/-- The next chunk of a context leaves its queue, with the last instance of its task. -/
def State.chunkPop (s : State) (c : Nat) (k : TaskInst) : State :=
  if k.issued + 1 < k.total then s else s.ctxSetQueue c ((s.ctxQueue c).drop 1)

/-- The resident regions that the plan names for a slot in a variant. -/
def State.residentOf (s : State) (d i v : Nat) : List Resident :=
  match s.bond.plan with
  | none => []
  | some p => p.resident.filter (fun (r : Resident) => r.die == d && r.slot == i && r.variant == v)

/-- The resident regions of a slot in a variant are copied into its core store from the Lintel store (R24, R144); where a word cannot be
read, they are still to be loaded. The Bool says so. -/
def State.loadResident (s : State) (d i v : Nat) : State × Bool :=
  let r := (s.residentOf d i v).foldl (fun (acc : State × Bool) r =>
    let (s, bad) := acc.1.eccRead (memKey (spLintel d) r.src) r.len
    (s.csSt d i r.dst (s.ldBytes (memKey (spLintel d) r.src) r.len), acc.2 || bad)) (s, false)
  (r.1.updCore d (s.coreOf d i) (fun c => { c with reload := r.2, resVar := v }), r.2)

/-- A slot's core holds the resident regions of the variant that a task of it was released in (R340). -/
def State.residentFor (s : State) (d i v : Nat) : State × Bool :=
  let c := s.coreAt d (s.coreOf d i)
  if c.reload || (c.resVar != v && s.residentOf d i v != s.residentOf d i c.resVar) then s.loadResident d i v else (s, false)

/-- The resident regions have changed (R24, R144, R145): they are loaded into every slot, and before the next dispatch where the slot
runs a task. -/
def State.refresh (s : State) : State :=
  s.each s.dies (fun s d => s.each ((List.range 48).filter (fun i => !(s.slotAt d i).vacant && (s.slotAt d i).spareIn.isNone)) (fun s i =>
    if (s.residentOf d i s.bond.variant).isEmpty then s
    else if (s.runAt d i).isSome then s.updCore d (s.coreOf d i) (fun c => { c with reload := true })
    else (s.loadResident d i s.bond.variant).1))

/-- Reset points of a chunk (R226 to R229), from the marks posted to its die pair and the points that fell in lost steps: the
steps, the number of late points, and the marks taken. `pend` is RESET_PENDING at dispatch, `ofs` is RESET_OFS where RESET_IN
is set. -/
def State.resetPoints (s : State) (ch : ChunkInfo) (pitch : Nat) (markReset pend : Bool) (ofs : Option Nat) : List Nat × Nat × List Nat :=
  let d := ctxDie ch.ctx
  let seen := match (s.streamAt d).lostSp.find? (fun p => p.1 == ch.ctx) with
    | some p => max (s.ctxLastSp ch.ctx) p.2
    | none => s.ctxLastSp ch.ctx
  let ms := if markReset && s.ctxFlag ch.ctx 0 then (s.streamAt d).marks.filter (fun m => !(s.streamAt d).applied.contains (ch.ctx, m.id)) else []
  let step (m : MarkPost) : Nat := if m.sp ≤ ch.sp0 then 0 else ((m.sp - ch.sp0 + pitch - 1) / (max 1 pitch : Nat)).toNat
  let hit := ms.filter (fun m => decide (step m < ch.steps))
  let late := (hit.filter (fun m => decide (m.sp ≤ seen))).length
  let lostIn := countOf (s.streamAt d).lostIn ch.ctx
  let base := (if pend || lostIn != 0 then [0] else []) ++ (match ofs with | some q => [q] | none => []) ++ hit.map step
  (base.eraseDups, late + lostIn, hit.map (·.id))

/-- The slot starts the instance. -/
def State.startRun (s : State) (d i : Nat) (g : GraphInst) (t : Nat) (k : TaskInst) (h : TaskHdr) (ch : Option ChunkInfo) : State :=
  let p := s.coreOf d i
  let s := s.repairCore d p
  let (s, lost) := s.residentFor d i (if g.client = 15 then g.variant else (s.coreAt d p).resVar)
  let (s, bad) := s.eccRead (memKey (spLintel d) k.entry.header) 32
  let stamp := (s.streamAt d).chunkCtr
  let s := match ch with
    | some c => (s.chunkPop c.ctx k).updStream d (fun x => { x with chunkCtr := (x.chunkCtr + 1) % 2 ^ 48 })
    | none => s
  let run : RunTask := {
    graph := g.id, task := t, inst := k.issued, start := s.cycles, variant := g.variant, epoch := s.bond.epoch,
    progAddr := h.progAddr, progLen := h.prog, recAddr := h.recAddr, nrec := h.nrec,
    rclass := if h.rclass = 0 then .classI else .classT, wcet := h.wcet, compAddr := h.comp,
    loops := [0#32, 0#32, 0#32, wordOf k.issued], chunk := ch, stamp := stamp,
    shardMiss := k.shardMiss, minCyc := 256 + (if h.src = 0 then 0 else (64 * h.len - 8192 + 127) / 128), progress := s.cycles,
    resetAt := match ch with | some c => s.ctxFlag c.ctx 3 | none => false
    out := if !h.ok then some .opDescErr else if lost || bad then some .memFault else none }
  let s := s.updDie d (fun x => { x with run := lmod x.run i (fun _ => some run) })
  let s := if h.ok then s.kvDispatch d i h else s
  if h.ok && h.src != 0 then
    let (s, bad) := s.eccRead (memKey (spLintel d) h.src) (64 * h.len)
    if bad then s.finish d i .memFault
    else s.csSt d i h.dst (s.ldBytes (memKey (spLintel d) h.src) (64 * h.len))
  else s

/-- Dispatches the next instance of a ready task to a slot: the image is copied into the core store, the sequencer starts,
and loop counter 3 holds the instance. A header out of range ends the task OP_DESC_ERR. -/
def State.dispatch (s : State) (d i : Nat) (g : GraphInst) (t : Nat) (k : TaskInst) : State :=
  let h := s.taskHdr d k.entry.header
  let s := s.updTask g.id t (fun x => { x with issued := x.issued + 1 })
  let s := if g.client = 15 then s else s.updBond (fun b => { b with lastServed := g.client })
  if s.shedNow d i g t k h then
    let s := match s.chunkOf d i k.entry.header with
      | some c => (s.chunkPop c.ctx k).chunkLost c
      | none => s
    (((s.bump 0x70048).raise evBond 4).unrun g t k.entry k.issued .shed 0).instanceDone g.id t .shed
  else
    let s := s.bump (bFabric d + 0x24)
    let ch := s.chunkOf d i k.entry.header
    match ch with
    | some c =>
      if c.sp0 ≤ s.ctxLastSp c.ctx ∧ c.steps ≠ 0 ∧ s.ctxFlag c.ctx 7 ∧ s.ctx c.ctx 8 2 ≠ 0 ∧ s.streamOn d then
        ((((s.chunkPop c.ctx k).raise (evStream d) 1).chunkLost c).unrun g t k.entry k.issued .streamOrder 0).instanceDone g.id t .streamOrder
      else s.startRun d i g t k h ch
    | none => s.startRun d i g t k h ch

/-- The slots of a die pair whose tasks have partial tasks to dispatch, for a task of a graph: the slot, the run, the ATTN and the first
such partial (R268). -/
def State.partFor (s : State) (d graph task : Nat) : Option (Nat × RunTask × Nat × Nat) :=
  (List.range 48).findSome? (fun i => match s.runAt d i with
    | none => none
    | some r =>
      if r.graph ≠ graph ∨ r.task ≠ task ∨ r.out.isSome then none
      else r.splits.findSome? (fun x => x.waiting.head?.map (fun k => (i, r, x.at_, k))))

/-- Changes the expansion of the ATTN at a descriptor. -/
def State.updSplit (s : State) (d i addr : Nat) (f : SplitAttn → SplitAttn) : State :=
  s.updRun d i (fun r => { r with splits := r.splits.map (fun x => if x.at_ == addr then f x else x) })

/-- An idle slot takes a partial task of the ATTN at a descriptor of slot p: it pins the pages of its span (R259), and reads the records
of the ATTN's task. -/
def State.startPart (s : State) (d i p : Nat) (q : RunTask) (addr k : Nat) : State :=
  let s := s.repairCore d (s.coreOf d i)
  let (s, lost) := s.residentFor d i q.variant
  let pins := match q.kvs.find? (fun v => v.at_ == addr) with
    | some v => s.partPages d k v
    | none => []
  let run : RunTask := {
    graph := q.graph, task := q.task, inst := q.inst, start := s.cycles, variant := q.variant, epoch := q.epoch,
    progAddr := 0, progLen := 0, recAddr := q.recAddr, nrec := q.nrec, rclass := q.rclass, wcet := q.wcet, compAddr := 0,
    issued := [addr], kvs := q.kvs, pins := pins, part := some (p, addr, k), progress := s.cycles,
    out := if lost then some .memFault else none }
  let s := (s.each pins (fun s n => s.pagePin d n)).updDie d (fun x => { x with run := lmod x.run i (fun _ => some run) })
  (s.bump (bFabric d + 0x24)).updSplit d p addr (fun x => { x with waiting := x.waiting.erase k, running := k :: x.running })

/-- A partial task has ended: its ATTN counts it as completed, with its counts, or ends as it did. -/
def State.partDone (s : State) (d : Nat) (r : RunTask) (p addr k : Nat) (out : TaskOut) : State :=
  match s.live d p with
  | none => s
  | some q =>
    if q.graph ≠ r.graph ∨ q.task ≠ r.task ∨ q.inst ≠ r.inst then s
    else if !out.good then s.finish d p out
    else ((s.count d p (fun c => c.join r.cnt)).moves d p).updSplit d p addr (fun x => { x with
      running := x.running.erase k, order := x.order ++ [k] })

/-- TASK_DISPATCH (R135): the ready task that heads the order of an idle slot starts on it. A client task that waits on its
quota raises QUOTA_EXHAUSTED (R350). A slot for which nothing is ready takes a partial task of an ATTN of the task named (R268), if
its core is switched on. -/
def execTaskDispatch (t die slot graph task : Nat) (s : State) : Out :=
  let s := (s.to t).readyAll
  if !s.pairWorks die || !s.slotFree die slot then .next s
  else match s.headFor die slot with
    | some (g, k, x) => guardNext (g.id == graph && k == task) s (fun s => s.dispatch die slot g k x)
    | none =>
      match s.graphOf graph, (if s.coreOn die (s.coreOf die slot) then s.partFor die graph task else none) with
      | _, some (p, q, addr, k) => .next (s.startPart die slot p q addr k)
      | some g, none => guardNext (g.client != 15 && s.rbit (0x70100 + 8 * g.client) 31 && !s.quotaOk g.client &&
          (match g.tasks[task]? with | some x => x.st == .ready && decide (x.issued < x.total) | none => false)) s
          (fun s => s.raise evBond 2)
      | none, none => .next s

/-! ### Completion -/

/-- What the task's stream context takes from it (R223, R224): a chunk that ends OK writes its state back; any other ending
but OK_EMPTY loses it. -/
def State.chunkEnd (s : State) (d : Nat) (r : RunTask) (out : TaskOut) : State :=
  match r.chunk with
  | none => s
  | some ch =>
    let c := ch.ctx
    if out == .okEmpty ∨ (out == .ok ∧ (ch.steps = 0 ∨ s.ctx c 8 2 = 0)) then s
    else if out == .ok then
      let slot := s.ctx c 10 2
      let bytes := match r.carry with
        | some bs => bs
        | none => []
      let s := if bytes.isEmpty then s else (s.stBytes (s.slotKey d slot) bytes).ctxSetFlag c 1 true
      let s := (s.ctxSt c 16 8 (codeOf 64 ch.last)).ctxSt c 24 6 r.stamp
      match r.resets with
      | none => s
      | some (late, ids) =>
        let s := if late = 0 then s else
          ((s.ctxSt c 30 2 (satAdd 16 (s.ctx c 30 2) late)).bump (bStream d + 0x28) late).raise (evStream d) 4
        let s := if r.resetAt then (s.ctxSetFlag c 3 false).ctxSetFlag c 2 false else s
        s.updStream d (fun x => { x with
          lostIn := x.lostIn.filter (fun p => p.1 != c)
          applied := ids.map (fun n => (c, n)) ++ x.applied.filter (fun p => x.marks.any (fun m => m.id == p.2)) })
    else s.chunkLost ch

/-- Cores of a die pair whose retirement waited for their task fail once they are idle (R21, R142). -/
def State.retireIdle (s : State) (d : Nat) : State :=
  s.each ((List.range 52).filter (fun p => (s.coreAt d p).retire)) (fun s p => match (s.coreAt d p).role with
    | .inSlot i => if (s.runAt d i).isSome then s else s.coreFail d p .retire
    | _ => s)

/-- The bound context's state leaves the core store with the task (R221). -/
def State.carrying (s : State) (d i : Nat) (r : RunTask) : RunTask :=
  match r.bindAt, r.chunk with
  | some a, some ch => { r with carry := some (s.ldBytes (s.csKey d i a) (s.ctxBytes ch.ctx)) }
  | _, _ => r

/-- The account of a completed task's client: a plan task beyond its WCET counts as an OVERRUN (R344), any other adds to what
its client has used (R350). -/
def State.chargeRun (s : State) (r : RunTask) (cycles : Nat) : State :=
  let client := match s.graphOf r.graph with | some g => g.client | none => 15
  if client ≠ 15 then s.updBond (fun b => { b with used := countAdd b.used client cycles })
  else if r.part.isNone ∧ r.wcet < cycles then (s.bump 0x7004C).raise evBond 3
  else s

/-- The outcome of a task reaches its record, its client's account, its stream context and its core (R320). -/
def State.taskEnds (s : State) (d i : Nat) (r : RunTask) (out : TaskOut) : State :=
  let cycles := s.occupancy r out
  let s := (s.endRun d i (if r.part.isSome then { r with cnt := {} } else r) out).chargeRun r cycles
  let s := if r.shardMiss then s.raise evBond 1 else s
  let s := s.chunkEnd d r out
  s.updCore d (s.coreOf d i) (fun c => { c with drainQ := [], conv := [] })

/-- TASK_COMPLETE (R320): the task of a slot that has its outcome completes; none does while the frequency changes (R131). -/
def execTaskComplete (t die slot : Nat) (s : State) : Out :=
  let s := s.to t
  if s.changing.isSome then .next s
  else match s.runAt die slot with
  | none => .next s
  | some r => match r.out with
    | none => .next s
    | some out =>
      let r := s.carrying die slot r
      let s := s.taskEnds die slot r out
      match r.part with
      | some (p, addr, k) => .next ((s.partDone die r p addr k out).retireIdle die)
      | none => .next (((s.instanceDone r.graph r.task out).streamSettle die).retireIdle die)

/-! ### The sequencer's instructions (R318) -/

/-- The instruction word a program stands at; past its last instruction, END (R318). -/
def State.instrWord (s : State) (d i : Nat) (r : RunTask) : Nat :=
  if r.pc < r.progLen then s.cs d i (r.progAddr + 8 * r.pc) 8 else 0

/-- A field of an instruction word: its bits and its value. -/
abbrev InstrField := Nat × Nat × Nat

/-- The word is the instruction of an opcode with these fields; its other bits are not looked at. -/
def isInstr (w op : Nat) (fs : List InstrField) : Bool :=
  w / 2 ^ 56 == op && fs.all (fun f => bitsOf w f.1 f.2.1 == f.2.2)

/-- The sequencer executes an instruction: it is the one the program stands at, and the program has executed fewer than 2²⁴ of
them. -/
def onInstr (t d i op : Nat) (fs : List InstrField) (s : State) (f : State → RunTask → State) : Out :=
  onTask t d i s (fun s r => if r.icount < 2 ^ 24 && isInstr (s.instrWord d i r) op fs then f s r else s)

/-- TASK_END: with everything issued done, the task has its outcome. -/
def execTaskEnd (t die slot : Nat) (s : State) : Out :=
  onInstr t die slot 0x00 [] s (fun s r =>
    if s.taskIdle die slot r then (s.goPc die slot (r.pc + 1)).finish die slot (if r.work then .ok else .okEmpty) else s)

/-- Codes of the operators a task program may carry. -/
def opCodeOk (c : Nat) : Bool :=
  decide (1 ≤ c ∧ c ≤ 6) || decide (0x10 ≤ c ∧ c ≤ 0x13) || [0x18, 0x19, 0x1B, 0x1C, 0x1D].contains c

/-- OPER: the operator is issued; a reserved code, and a second stream operator (R221), end the task OP_DESC_ERR. -/
def execOper (t die slot addr : Nat) (s : State) : Out :=
  onInstr t die slot 0x01 [(31, 0, addr)] s (fun s r =>
    let c := s.cs die slot addr 1
    let stream := decide (0x10 ≤ c ∧ c ≤ 0x13)
    if !csOk addr || !opCodeOk c || (stream && r.streamAt.isSome) then s.finish die slot .opDescErr
    else (s.goPc die slot (r.pc + 1)).updRun die slot (fun r => { r with
      issued := r.issued ++ [addr], streamAt := if stream then some addr else r.streamAt }))

/-- CHAIN: starts a tile-mover chain, once its number is free. -/
def execChain (t die slot chain addr : Nat) (s : State) : Out :=
  onInstr t die slot 0x02 [(41, 40, chain), (31, 0, addr)] s (fun s r =>
    if (lget none r.chains chain).isSome then s
    else if addr % 64 ≠ 0 ∨ !csOk addr then s.finish die slot .opDescErr
    else ((s.goPc die slot (r.pc + 1)).worked die slot).updRun die slot (fun r => { r with
      chains := lmod r.chains chain (fun _ => some { next := addr, left := 256, start := s.cycles }) }))

/-- WAITC: goes on when the chain is done. -/
def execWaitc (t die slot chain : Nat) (s : State) : Out :=
  onInstr t die slot 0x03 [(41, 40, chain)] s (fun s r =>
    if (lget none r.chains chain).isNone && !s.burstsWait die slot then
      (s.goPc die slot (r.pc + 1)).updRun die slot (fun r => { r with racing := r.racing.filter (fun w => w.1 != chain) })
    else s)

/-- BARRIER: goes on when everything issued is done. -/
def execBarrier (t die slot : Nat) (s : State) : Out :=
  onInstr t die slot 0x04 [] s (fun s r =>
    if s.taskIdle die slot r then (s.goPc die slot (r.pc + 1)).updRun die slot (fun r => { r with racing := [] }) else s)

/-- SETL. -/
def execSetl (t die slot c value : Nat) (s : State) : Out :=
  onInstr t die slot 0x05 [(41, 40, c), (31, 0, value)] s (fun s r =>
    (s.goPc die slot (r.pc + 1)).updRun die slot (fun r => { r with loops := lmod r.loops c (fun _ => wordOf value) }))

/-- DJNZ. -/
def execTaskDjnz (t die slot c target : Nat) (s : State) : Out :=
  onInstr t die slot 0x06 [(41, 40, c), (9, 0, target)] s (fun s r =>
    let v := lget 0#32 r.loops c - 1#32
    (s.goPc die slot (if v = 0#32 then r.pc + 1 else target)).updRun die slot (fun r => { r with
      loops := lmod r.loops c (fun _ => v) }))

/-- JUMP: forward only. -/
def execTaskJump (t die slot target : Nat) (s : State) : Out :=
  onInstr t die slot 0x07 [(9, 0, target)] s (fun s r =>
    if target ≤ r.pc then s.finish die slot .progErr else s.goPc die slot target)

/-- Opcodes that R318 reserves. -/
def opReserved (op : Nat) : Bool := decide (0x08 ≤ op ∧ op ≤ 0x1F) || decide (0x3C ≤ op)

/-- PROG_ERR: the program stands at a reserved opcode, or at a JUMP that does not go forward. -/
def execProgErr (t die slot : Nat) (s : State) : Out :=
  onTask t die slot s (fun s r =>
    let w := s.instrWord die slot r
    if opReserved (w / 2 ^ 56) || (w / 2 ^ 56 == 7 && decide (bitsOf w 9 0 ≤ r.pc)) then s.finish die slot .progErr else s)

/-- TASK_INSTR_LIMIT: more than 2²⁴ instructions. -/
def execTaskInstrLimit (t die slot : Nat) (s : State) : Out :=
  onTask t die slot s (fun s r => if 2 ^ 24 ≤ r.icount then s.finish die slot .progErr else s)

/-! ### Events of the fabric -/

/-- DROOP_EVENT (R113, R557) of a half-die that is on: FABRIC_DROOP_CNT of the pair and POWER_DROOP_CNT advance; nothing else
changes. -/
def execDroopEvent (t die half : Nat) (s : State) : Out :=
  let s := s.to t
  guardNext (s.hasDie die && decide (half < 2) && s.pdOn (10 + 2 * die + half)) s (fun s => (s.bump (bFabric die + 0x28)).bump 0xE0034)

/-- CORE_HUNG (R128): for 65,536 cycles the core has issued no pass step, drain or store; the task fails CORE_FAULT and its core
fails. -/
def execCoreHung (t die slot : Nat) (s : State) : Out :=
  onTask t die slot s (fun s r => if r.progress + 65536 ≤ s.cycles then s.coreFail die (s.coreOf die slot) .hung else s)

/-- SPARE_IN_DONE (R139): the slot's resident regions are loaded into the spare, and the slot is bound to it. -/
def execSpareInDone (t die slot : Nat) (s : State) : Out :=
  let s := s.to t
  match (s.slotAt die slot).spareIn with
  | none => .next s
  | some p =>
    let s := s.updSlot die slot (fun x => { x with core := p, spareIn := none })
    .next (s.loadResident die slot s.bond.variant).1

/-- RETIRE_CORE (R142); a core that runs a task fails when the task has completed (R21). -/
def State.retireCore (s : State) (d p : Nat) : State :=
  if p < 52 then
    match (s.coreAt d p).role with
    | .inSlot i => if (s.runAt d i).isSome then s.updCore d p (fun c => { c with retire := true }) else s.coreFail d p .retire
    | _ => s.coreFail d p .retire
  else s

/-- A write of FABRIC_CMD (R149). -/
def State.fabricCmd (s : State) (d v : Nat) : State :=
  match v / 2 ^ 24 with
  | 1 => s.retireCore d (v % 256)
  | 2 =>
    let s := s.each [0x24, 0x28, 0x30] (fun s o => s.regSet (bFabric d + o) 0#32)
    s.each (List.range 52) (fun s p => s.each [0, 4, 8, 12, 16, 20] (fun s o => s.regSet (bFabric d + 0x1000 + 0x20 * p + o) 0#32))
  | _ => s

/-- FREQ_CHANGED (R131): every die has the new clock. -/
def execFreqChanged (t : Nat) (s : State) : Out :=
  let s := s.to t
  match s.changing with
  | none => .next s
  | some f =>
    let s := { s with
      freq := f, changing := none, cycAt := s.now, power := { s.power with vddc := f, pcore := if f = 0 then 1450 else if f = 1 then 1000 else 620 } }
    .next (s.each s.dies (fun s d => s.raise (evFabric d) 2))

/-- SHARD_MISSING (R146, R345): the stage window of a task that waits for shards has run out; it forms its result from the shards
delivered. -/
def execShardMissing (t graph task : Nat) (s : State) : Out :=
  let s := s.to t
  match s.graphOf graph, s.taskOf graph task with
  | some g, some k => guardNext (!k.cross.isEmpty && decide (g.released + 500 * s.stageClose g.stage ≤ s.now)) s (fun s =>
      (s.updTask graph task (fun k => { k with cross := [], shardMiss := true })).readyRun [(graph, task)])
  | _, _ => .next s

/-! ### Registers -/

/-- STATE of FABRIC_STATUS. -/
def DieState.code : DieState → Nat
  | .off => 0 | .bist => 1 | .ready => 2 | .running => 3 | .restarting => 4 | .failed => 5

/-- CAUSE of FABRIC_COREp_STATE. -/
def CoreCause.code : CoreCause → Nat
  | .none => 0 | .bist => 1 | .selfTest => 2 | .ecc => 3 | .hung => 4 | .retire => 5

/-- FABRIC_COREp_STATE (R148): a core whose header switch is off is OFF. -/
def State.coreStateWord (s : State) (d p : Nat) : Nat :=
  let c := s.coreAt d p
  let on := (s.dieAt d).st != .off
  let (cause, slot, st) : Nat × Nat × Nat := match c.role with
    | .off => (0, 0, if (s.dieAt d).st == .bist then 5 else 0)
    | .spare => (0, 0, 3)
    | .failed x => (x.code, 0, 4)
    | .inSlot i => if !s.coreOn d p then (0, 0, 0) else (0, i, if (s.runAt d i).isSome then 2 else 1)
  if on then cause * 2 ^ 20 + b2n c.repaired * 2 ^ 16 + slot * 256 + st else 0

/-- Registers of FABRIC that are formed when read. -/
def State.fabricView (s : State) (d o : Nat) : Option Nat :=
  let x := s.dieAt d
  if o = 0 then some x.st.code
  else if o = 0xC then some (b2n s.changing.isSome * 2 ^ 31 + s.freq)
  else if o = 0x10 then some (s.cycles % 2 ^ 32)
  else if o = 0x14 then some (s.cycles / 2 ^ 32 % 2 ^ 32)
  else if o = 0x18 then
    some (if x.st == .off then 0 else (x.slot.filter (·.vacant)).length * 2 ^ 16 + (s.spares d).length * 256 + s.inService d)
  else if o = 0x20 then
    let gs := s.bond.graphs.filter (fun g => g.die == d)
    some (gs.length * 2 ^ 16 + ((gs.map (fun g => (g.tasks.filter (fun k => k.st != .done)).length)).sum) % 2 ^ 16)
  else match arrIdx o 0x100 4 48 with
    | some i =>
      let y := s.slotAt d i
      some (b2n y.vacant * 2 ^ 31 + b2n y.spareIn.isSome * 2 ^ 30 + y.core)
    | none => (arrIdx o 0x200 4 52).map (s.coreStateWord d)

end Sys2Proof.Machine
end

