-- ==== Sys2Proof/Machine/Vector.lean ====
section
/-!
DEFINITION. The vector instructions of a task program (R117, R119, R319): 64 lanes of 32 bits over the core's 32 registers.
-/
namespace Sys2Proof.Machine

/-- A lane of a vector register. -/
def CoreS.lane (c : CoreS) (v k : Nat) : Word := tget (fun _ => 0#32) c.vreg (64 * v + k)

/-- Writes lanes 0, 1, … of a vector register. -/
def CoreS.setVec (c : CoreS) (v : Nat) (l : List Word) : CoreS :=
  { c with
    vside := c.vside.filter (fun p => p.1 / 64 != v)
    vreg := (List.range l.length).foldl (fun m k => tset (fun _ => 0#32) m (64 * v + k) (lget 0#32 l k)) c.vreg }

/-- The 64 lanes of a register of a slot's core. -/
def State.vec (s : State) (d i v : Nat) : List Word :=
  let c := s.coreAt d (s.coreOf d i)
  (List.range 64).map (c.lane v)

/-- Writes a register of a slot's core. -/
def State.vecSet (s : State) (d i v : Nat) (l : List Word) : State :=
  s.updCore d (s.coreOf d i) (fun c => c.setVec v l)

/-- Keeps the exact values of the escape codes just written to a register of a slot's core (R171). -/
def State.vecEsc (s : State) (d i v : Nat) (l : List (Option Word)) : State :=
  s.updCore d (s.coreOf d i) (fun c => { c with
    vside := ((List.range l.length).zip l).filterMap (fun (k, e) => e.map (fun w => (64 * v + k, w))) ++ c.vside })

/-- A vector instruction waits for pending drains (R115), then runs; the task has done work. -/
def onVec (t d i op : Nat) (fs : List InstrField) (s : State) (f : State → RunTask → State) : Out :=
  onInstr t d i op fs s (fun s r =>
    if (s.coreAt d (s.coreOf d i)).drainQ.isEmpty then (f (s.goPc d i (r.pc + 1)) r).worked d i else s)

/-- An instruction of two registers, lane by lane. -/
def vec2 (t d i op vd va vb : Nat) (s : State) (f : RClass → Word → Word → Word) : Out :=
  onVec t d i op [(55, 51, vd), (50, 46, va), (45, 41, vb)] s (fun s r => s.vecSet d i vd (List.zipWith (f r.cls) (s.vec d i va) (s.vec d i vb)))

/-- An instruction of one register, lane by lane. -/
def vec1 (t d i op vd va : Nat) (s : State) (f : Word → Word) : Out :=
  onVec t d i op [(55, 51, vd), (50, 46, va)] s (fun s _ => s.vecSet d i vd ((s.vec d i va).map f))

/-- A truth value as a mask. -/
def maskWord (b : Bool) : Word := if b then 0xFFFFFFFF#32 else 0#32

/-- INT32 value of a lane. -/
def laneInt (w : Word) : Int := signedOf 32 w.toNat

/-- A shift of a lane, left or arithmetic right; an amount outside 0 to 31 is left open. -/
def shiftLane (left : Bool) (a b : Word) : Word :=
  if b.toNat < 32 then (if left then a <<< b.toNat else a.sshiftRight b.toNat) else Config.shiftWide left a b

/-- FADD. -/
def execVecFadd (t die slot vd va vb : Nat) (s : State) : Out := vec2 t die slot 0x20 vd va vb s fadd
/-- FMUL. -/
def execVecFmul (t die slot vd va vb : Nat) (s : State) : Out := vec2 t die slot 0x21 vd va vb s fmul
/-- FFMA: va × vb + vc. -/
def execVecFfma (t die slot vd va vb vc : Nat) (s : State) : Out :=
  onVec t die slot 0x22 [(55, 51, vd), (50, 46, va), (45, 41, vb), (40, 36, vc)] s (fun s r =>
    s.vecSet die slot vd (List.zipWith (fun f c => f c)
      (List.zipWith (fun a b c => ffma r.cls a b c) (s.vec die slot va) (s.vec die slot vb)) (s.vec die slot vc)))
/-- FMAX. -/
def execVecFmax (t die slot vd va vb : Nat) (s : State) : Out := vec2 t die slot 0x23 vd va vb s (fun _ => fmax)
/-- FMIN. -/
def execVecFmin (t die slot vd va vb : Nat) (s : State) : Out := vec2 t die slot 0x24 vd va vb s (fun _ => fmin)
/-- FCMP: all ones where va < vb. -/
def execFcmp (t die slot vd va vb : Nat) (s : State) : Out := vec2 t die slot 0x25 vd va vb s (fun _ a b => maskWord (flt a b))
/-- IADD, modulo 2³². -/
def execIadd (t die slot vd va vb : Nat) (s : State) : Out := vec2 t die slot 0x26 vd va vb s (fun _ a b => a + b)
/-- IMUL, low 32 bits. -/
def execImul (t die slot vd va vb : Nat) (s : State) : Out := vec2 t die slot 0x27 vd va vb s (fun _ a b => a * b)
/-- ISHL. -/
def execIshl (t die slot vd va vb : Nat) (s : State) : Out := vec2 t die slot 0x28 vd va vb s (fun _ a b => shiftLane true a b)
/-- ISHR, arithmetic. -/
def execIshr (t die slot vd va vb : Nat) (s : State) : Out := vec2 t die slot 0x29 vd va vb s (fun _ a b => shiftLane false a b)
/-- IAND. -/
def execIand (t die slot vd va vb : Nat) (s : State) : Out := vec2 t die slot 0x2A vd va vb s (fun _ a b => a &&& b)
/-- IOR. -/
def execIor (t die slot vd va vb : Nat) (s : State) : Out := vec2 t die slot 0x2B vd va vb s (fun _ a b => a ||| b)
/-- IXOR. -/
def execIxor (t die slot vd va vb : Nat) (s : State) : Out := vec2 t die slot 0x2C vd va vb s (fun _ a b => a ^^^ b)
/-- ICMP: all ones where va < vb, signed. -/
def execIcmp (t die slot vd va vb : Nat) (s : State) : Out :=
  vec2 t die slot 0x2D vd va vb s (fun _ a b => maskWord (decide (laneInt a < laneInt b)))
/-- ICLAMP: va clamped to vb to vc. -/
def execIclamp (t die slot vd va vb vc : Nat) (s : State) : Out :=
  onVec t die slot 0x2E [(55, 51, vd), (50, 46, va), (45, 41, vb), (40, 36, vc)] s (fun s _ =>
    s.vecSet die slot vd (List.zipWith (fun f c => f c)
      (List.zipWith (fun a b c => wordOf (codeOf 32 (clampInt (laneInt b) (laneInt c) (laneInt a))))
        (s.vec die slot va) (s.vec die slot vb)) (s.vec die slot vc)))

/-- The M and s a rescale of channel k uses: its record's, or with PER_CHANNEL those of the table at an address (R163). -/
def State.rescaleOf (s : State) (d i : Nat) (rs : RescaleRec) (table k : Nat) : Int × Nat :=
  if rs.perChannel then
    let x := rescaleRec (s.cs d i (table + 8 * k) 8)
    (x.m, x.s)
  else (rs.m, rs.s)

/-- RESCALE: va by the rescale record `rec`, with a PER_CHANNEL table at `addr`, into codes of the output record `rec + 1`. The
exact value of an escape stays with its lane, and enters a side list when the lane is stored (R171). -/
def execRescale (t die slot vd va rec addr : Nat) (s : State) : Out :=
  onVec t die slot 0x2F [(55, 51, vd), (50, 46, va), (35, 32, rec), (31, 0, addr)] s (fun s r =>
    match s.rescaleAt die slot r rec, s.tensorAt die slot r (rec + 1) with
    | .ok rs, .ok o =>
      let outs := (List.range 64).map (fun k =>
        let (m, sh) := s.rescaleOf die slot rs addr k
        rescaleOut r.cls o rs.relu m sh (laneInt (lget 0#32 (s.vec die slot va) k)))
      let s := s.count die slot (fun c => outs.foldl (fun c e =>
        if e.sat then c.addSat 1 else if e.esc.isSome then c.addEsc 1 else c) c)
      (s.vecSet die slot vd (outs.map (fun e => wordOf (codeOf 32 e.code)))).vecEsc die slot vd (outs.map (·.esc))
    | .error e, _ => s.finish die slot e
    | _, .error e => s.finish die slot e)

/-- One lane of a conversion to the format of a record (R176): FP32 to BF16, INT32 or codes; INT32 to FP32. -/
def cvtLane (c : RClass) (o : TensorRec) (w : Word) : Word × ArithCnt × Option Word :=
  match o.fmt with
  | .fp32 => (ofInt c (laneInt w), {}, none)
  | .bf16 => (toBf16 c w, {}, none)
  | .int32 =>
    let x := toInt c o.fmt.lo o.fmt.hi w
    (wordOf (codeOf 32 x.val), ({ sat := b2n x.sat, nan := b2n x.nan } : ArithCnt), none)
  | _ =>
    let (e, nan) := quantOut c o w
    (wordOf (codeOf 32 e.code), ({ sat := b2n e.sat, nan := b2n nan, escOut := b2n e.esc.isSome } : ArithCnt), e.esc)

/-- CVT: va to the format of the indexed tensor record. -/
def execCvt (t die slot vd va rec : Nat) (s : State) : Out :=
  onVec t die slot 0x30 [(55, 51, vd), (50, 46, va), (35, 32, rec)] s (fun s r =>
    match s.tensorAt die slot r rec with
    | .ok o =>
      let l := (s.vec die slot va).map (cvtLane r.cls o)
      ((s.count die slot (fun c => l.foldl (fun c p => c.join p.2.1) c)).vecSet die slot vd (l.map (·.1))).vecEsc die slot vd
        (l.map (·.2.2))
    | .error e => s.finish die slot e)

/-- EXP. -/
def execExp (t die slot vd va : Nat) (s : State) : Out := vec1 t die slot 0x31 vd va s spExp
/-- RECIP. -/
def execVecRecip (t die slot vd va : Nat) (s : State) : Out := vec1 t die slot 0x32 vd va s spRecip
/-- RSQRT. -/
def execVecRsqrt (t die slot vd va : Nat) (s : State) : Out := vec1 t die slot 0x33 vd va s spRsqrt
/-- SIGM. -/
def execSigm (t die slot vd va : Nat) (s : State) : Out := vec1 t die slot 0x34 vd va s spSigm
/-- TANH. -/
def execVecTanh (t die slot vd va : Nat) (s : State) : Out := vec1 t die slot 0x35 vd va s spTanh

/-- A lane loaded from an element: a code sign- or zero-extended, BF16 as the FP32 word of its value. -/
def loadLane (f : Fmt) (n : Nat) : Word :=
  match f with
  | .bf16 => bf16Word n
  | .fp32 => wordOf n
  | _ => wordOf (codeOf 32 (codeInt f n))

/-- VLD: 64 elements at an address in the format of a record; an uncorrectable word fails the task (R125). -/
def execVld (t die slot vd rec addr : Nat) (s : State) : Out :=
  onVec t die slot 0x36 [(55, 51, vd), (35, 32, rec), (31, 0, addr)] s (fun s r =>
    match s.tensorAt die slot r rec with
    | .error e => s.finish die slot e
    | .ok o =>
      if !csOk addr then s.finish die slot .opDescErr
      else
        let s := s.csReads die slot [(addr, o.fmt.bytes 64)]
        if (s.live die slot).isNone then s
        else
          let (v, old) := s.mixView die slot [(addr, o.fmt.bytes 64)]
          (v.mixBack die slot old).vecSet die slot vd ((List.range 64).map (fun k => loadLane o.fmt (v.elem die slot o.fmt addr k))))

/-- What a lane stores as: an integer is clamped to the format's codes, FP32 rounded to BF16 (R176). The Bool says that it was
clamped. -/
def storeLane (c : RClass) (f : Fmt) (w : Word) : Nat × Bool :=
  match f with
  | .bf16 => (bf16Code (toBf16 c w), false)
  | .fp32 => (w.toNat, false)
  | .int32 => (w.toNat, false)
  | _ => (f.code (clampInt f.lo f.hi (laneInt w)), decide (laneInt w < f.lo ∨ f.hi < laneInt w))

/-- A lane's escape as it is stored: the code, and its value where the record takes escapes and the lane still holds one. -/
def State.laneEsc (s : State) (d i va k : Nat) (o : TensorRec) (code : Int) : Option Word :=
  if o.esc ∧ code = escCode o.fmt then
    ((s.coreAt d (s.coreOf d i)).vside.find? (fun p => p.1 == 64 * va + k)).map (·.2)
  else none

/-- VST: 64 elements to an address in the format of a record; escapes enter the side lists of the tensor there (R171, R172). -/
def execVst (t die slot va rec addr : Nat) (s : State) : Out :=
  onVec t die slot 0x37 [(50, 46, va), (35, 32, rec), (31, 0, addr)] s (fun s r =>
    match s.tensorAt die slot r rec with
    | .error e => s.finish die slot e
    | .ok o =>
      if !csOk addr then s.finish die slot .opDescErr
      else
        let l := (s.vec die slot va).map (storeLane r.cls o.fmt)
        let s := s.count die slot (fun c => c.addSat (l.filter (·.2)).length)
        s.each (List.range 64) (fun s k =>
          let code := (lget (0, false) l k).1
          match s.laneEsc die slot va k o (codeInt o.fmt code) with
          | none => s.putElem die slot o.fmt addr k code
          | some v =>
            let off := o.fmt.byteOf k
            let odd := if o.fmt = .int4 then k % 2 else 0
            if s.sideUsed die slot o.fmt addr off odd < 64 then
              (s.putElem die slot o.fmt addr k code).sideAdd die slot o.fmt addr off odd v
            else (s.count die slot (fun c => (c.addOvf 1).addSat 1)).putElem die slot o.fmt addr k (o.fmt.code (escBound o v))))

/-- VBCAST. -/
def execVbcast (t die slot vd : Nat) (imm : Word) (s : State) : Out :=
  onVec t die slot 0x38 [(55, 51, vd), (31, 0, imm.toNat)] s (fun s _ => s.vecSet die slot vd (List.replicate 64 imm))

/-- A reduction of the lanes in increasing order, into lane 0; the other lanes are 0. -/
def reduceLanes (f : Word → Word → Word) : List Word → List Word
  | [] => []
  | w :: l => l.foldl f w :: List.replicate l.length 0#32

/-- VRMAX. -/
def execVrmax (t die slot vd va : Nat) (s : State) : Out :=
  onVec t die slot 0x39 [(55, 51, vd), (50, 46, va)] s (fun s _ => s.vecSet die slot vd (reduceLanes fmax (s.vec die slot va)))
/-- VRSUM. -/
def execVrsum (t die slot vd va : Nat) (s : State) : Out :=
  onVec t die slot 0x3A [(55, 51, vd), (50, 46, va)] s (fun s r => s.vecSet die slot vd (reduceLanes (fadd r.cls) (s.vec die slot va)))
/-- ILANE. -/
def execIlane (t die slot vd : Nat) (s : State) : Out :=
  onVec t die slot 0x3B [(55, 51, vd)] s (fun s _ => s.vecSet die slot vd ((List.range 64).map wordOf))

end Sys2Proof.Machine
end

