-- ==== Sys2Proof/Machine/ImageOps.lean ====
section
/-!
DEFINITION. The image operators (R187 to R195, R201 to R209): CONV and its drains, DWCONV, POOL, BOX_DECODE, SUPPRESS and
CROP_RESIZE. An operator takes effect when its command comes; its cycles are not modelled.
-/
namespace Sys2Proof.Machine

/-! ### Convolution descriptors (R189) -/

/-- A CONV or DWCONV descriptor. -/
structure ConvDesc where
  at_ : Nat
  arrays : Nat
  bias : Bool
  kh : Nat
  kw : Nat
  stride : Nat
  dil : Nat
  cin : Nat
  cout : Nat
  outH : Nat
  outW : Nat
  groups : Nat
  inR : TensorRec
  wR : TensorRec
  outR : TensorRec
  rs : RescaleRec
  inAddr : Nat
  plane : Nat
  row : Nat
  w : Nat
  biasAt : Nat
  out : Nat
  pix : Nat
  outRow : Nat
  deriving DecidableEq, Repr, Inhabited

/-- Bytes of one pixel in blocked form (R181). -/
def pixBytes (f : Fmt) (c : Nat) : Nat := 16 * ((c + f.block - 1) / f.block)

/-- Format pairs an operator multiplies (R109); UINT8 is presented as INT8 (R153). DWCONV multiplies integers. -/
def macOk (dw : Bool) (a b : Fmt) : Bool :=
  let i8 (f : Fmt) : Bool := f == .int8 || f == .uint8
  (i8 a && (i8 b || b == .int4)) || (a == .int4 && b == .int4) || (!dw && a == .bf16 && b == .bf16)

/-- What a drain can write: integer sums to a quantised format or INT32, FP32 sums to BF16 or FP32 (R114). -/
def drainOk (a o : Fmt) : Bool := if a == .bf16 then o == .bf16 || o == .fp32 else o.quantised || o == .int32

/-- Reads and checks a convolution descriptor. -/
def State.convDesc (s : State) (d i addr : Nat) (r : RunTask) (dw : Bool) : Except TaskOut ConvDesc := do
  let f (o n : Nat) : Nat := s.cs d i (addr + o) n
  let kh := f 2 1 / 16
  let kw := f 2 1 % 16
  let cin := f 4 2
  let cout := f 6 2
  let groups := if dw then 1 else f 12 2
  let addrs := [f 16 4, f 28 4, f 32 4, f 36 4]
  need (f 1 1 / 4 % 4 = 0 && f 1 1 % 2 = 0 && f 3 1 % 8 = 0 && f 26 2 = 0 && f 42 2 = 0 && f 48 8 = 0 && f 56 8 = 0)
  need (dw || f 1 1 / 16 != 0)
  need (kh ≤ 7 && kw ≤ 7 && cin ≤ 4096 && cout ≤ 4096 && f 8 2 ≤ 128 && f 10 2 ≤ 128)
  need (!dw || cin = cout)
  need (groups = 0 || cin = 0 || cout = 0 || (groups ≤ cin && cin % groups = 0 && cout % groups = 0))
  need (addrs.all csOk && f 28 4 % 32 = 0 && f 36 4 % 16 = 0)
  need (dw || groups = 0 || kh * kw * (cin / groups) ≤ 65536)
  let inR ← s.tensorAt d i r (f 14 1 / 16)
  let wR ← s.tensorAt d i r (f 14 1 % 16)
  let outR ← s.tensorAt d i r (f 15 1 / 16)
  let rs ← if outR.fmt.quantised then s.rescaleAt d i r (f 15 1 % 16) else pure { m := 0, s := 0, perChannel := false, relu := false }
  need (macOk dw inR.fmt wR.fmt && drainOk inR.fmt outR.fmt) .arithDescErr
  need (pixBytes outR.fmt cout ≤ f 40 2)
  pure {
    at_ := addr, arrays := f 1 1 / 16, bias := bitOf (f 1 1) 1, kh := kh, kw := kw, stride := f 3 1 / 64 + 1, dil := f 3 1 / 8 % 8 + 1,
    cin := cin, cout := cout, outH := f 8 2, outW := f 10 2, groups := groups, inR := inR, wR := wR, outR := outR, rs := rs,
    inAddr := f 16 4, plane := f 20 4, row := f 24 2, w := f 28 4, biasAt := f 32 4, out := f 36 4, pix := f 40 2, outRow := f 44 4 }

/-- A size is 0. -/
def ConvDesc.empty (v : ConvDesc) : Bool :=
  v.kh == 0 || v.kw == 0 || v.cin == 0 || v.cout == 0 || v.outH == 0 || v.outW == 0 || v.groups == 0

/-- Row address and element of input channel c as output pixel (oy, ox) sees it through a tap: planar, phase planes for a
strided input (R190). -/
def ConvDesc.aAt (v : ConvDesc) (oy ox ky kx c : Nat) : Nat × Nat :=
  let y := ky * v.dil
  let x := kx * v.dil
  let p := (y % v.stride * v.stride + x % v.stride) * v.cin + c
  (v.inAddr + p * v.plane + (oy + y / v.stride) * v.row, ox + x / v.stride)

/-- The same for the blocked input of DWCONV (R193). -/
def ConvDesc.dwAt (v : ConvDesc) (oy ox ky kx c : Nat) : Nat × Nat :=
  (v.inAddr + (oy * v.stride + ky * v.dil) * v.row + (ox * v.stride + kx * v.dil) * pixBytes v.inR.fmt v.cin, c)

/-- Address of an output pixel. -/
def ConvDesc.pixAt (v : ConvDesc) (oy ox : Nat) : Nat := v.out + oy * v.outRow + ox * v.pix

/-- K steps of a group, in order: tap row, tap column, input channel (R190). -/
def ConvDesc.steps (v : ConvDesc) (g : Nat) : List (Nat × Nat × Nat) :=
  let n := v.cin / max 1 v.groups
  (List.range v.kh).flatMap (fun ky => (List.range v.kw).flatMap (fun kx => (List.range n).map (fun c => (ky, kx, g * n + c))))

/-- An output block: its group, its first output channel and N, its row, its first pixel and M (R190, R191). -/
structure ConvBlk where
  g : Nat
  oc : Nat
  n : Nat
  oy : Nat
  ox : Nat
  m : Nat
  deriving DecidableEq, Repr, Inhabited

/-- Output blocks in the order of R191. -/
def ConvDesc.blocks (v : ConvDesc) : List ConvBlk :=
  let cg := v.cout / max 1 v.groups
  (List.range v.groups).flatMap (fun g => (List.range ((cg + 63) / 64)).flatMap (fun q =>
    (List.range v.outH).flatMap (fun oy => (List.range ((v.outW + 15) / 16)).map (fun x => {
      g := g, oc := g * cg + 64 * q, n := min 64 (cg - 64 * q), oy := oy, ox := 16 * x, m := min 16 (v.outW - 16 * x) }))))

/-- An operand as a feeder presents it. -/
def State.fed (s : State) (d i : Nat) (t : TensorRec) (base row k : Nat) : Operand :=
  let o := s.operand d i t base row k
  { o with code := feedCode t.fmt o.code }

/-- An escape that a sum takes to the drain (R173): the side value, the other operand less its zero point, and whether the escape
lies in A. -/
abbrev EscTerm := Word × Int × Bool

/-- Puts an escape behind those of no greater element index. -/
def escInsert (x : Nat × EscTerm) : List (Nat × EscTerm) → List (Nat × EscTerm)
  | [] => [x]
  | y :: l => if x.1 < y.1 then x :: y :: l else y :: escInsert x l

/-- Escapes of a chain of operand pairs, in the order of increasing element index; of equal ones the earlier K step and A come
first. -/
def chainEscs (za zb : Int) (l : List (Operand × Operand)) : List EscTerm :=
  ((l.flatMap (fun (a, b) =>
    (match a.esc with | some v => [(a.idx, v, b.code - zb, true)] | none => []) ++
      (match b.esc with | some v => [(b.idx, v, a.code - za, false)] | none => []))).foldl (fun acc x => escInsert x acc) []).map (·.2)

/-- Index of an output element. -/
def ConvDesc.idx (v : ConvDesc) (oy ox oc : Nat) : Nat := (oy * v.outW + ox) * v.cout + oc

/-- The accumulator bank of a completed block (R160, R175). -/
def State.convBlock (s : State) (d i : Nat) (c : RClass) (v : ConvDesc) (array : Nat) (b : ConvBlk) : DrainBlk :=
  let ks := v.steps b.g
  let a := (List.range b.m).map (fun m => ks.map (fun (ky, kx, ch) =>
    let p := v.aAt b.oy (b.ox + m) ky kx ch
    if v.inR.fmt == .bf16 then (({ code := s.elem d i .bf16 p.1 p.2 } : Operand)) else s.fed d i v.inR v.inAddr p.1 p.2))
  let w := (List.range b.n).map (fun n => (List.range ks.length).map (fun k =>
    let e := ks.length * b.oc + k * b.n + n
    if v.inR.fmt == .bf16 then (({ code := s.elem d i .bf16 v.w e } : Operand)) else s.fed d i v.wR v.w v.w e))
  let mn := (List.range b.m).flatMap (fun m => (List.range b.n).map (fun n => (m, n)))
  if v.inR.fmt == .bf16 then {
    desc := v.at_, array := array, elems := [], k := ks.length, escs := []
    felems := mn.map (fun (m, n) => (v.idx b.oy (b.ox + m) (b.oc + n),
      ((lget [] a m).zip (lget [] w n)).foldl (fun acc (x, y) => fadd c acc (fmul c (bf16Word x.code.toNat) (bf16Word y.code.toNat))) 0#32)) }
  else {
    desc := v.at_, array := array, felems := [], k := ks.length
    elems := mn.map (fun (m, n) =>
      let x := (lget [] a m).map (·.code)
      let y := (lget [] w n).map (·.code)
      (v.idx b.oy (b.ox + m) (b.oc + n), (List.zipWith (· * ·) x y).sum, x.sum, y.sum))
    escs := mn.flatMap (fun (m, n) =>
      (chainEscs (feedZp v.inR) (feedZp v.wR) ((lget [] a m).zip (lget [] w n))).map (fun e => (v.idx b.oy (b.ox + m) (b.oc + n), e))) }

/-! ### What a drain writes (R162, R163, R173, R176, R192) -/

/-- clamp(Z_out + round(v × M × 2^−s)) of an FP32 sum (R173), each product rounded; the Bool says that the sum was NaN. -/
def rescaleFloat (c : RClass) (o : TensorRec) (relu : Bool) (m : Int) (sh : Nat) (v : Word) : OutElem × Bool :=
  match fval v with
  | .nan => (⟨o.zp, none, false, false⟩, true)
  | .inf n =>
    let neg := n ^^ decide (m < 0)
    (if o.esc then ⟨escCode o.fmt, some (finf neg), false, neg⟩
      else if neg && relu then ⟨max (outLo o) o.zp, none, decide (o.zp ≤ outLo o), false⟩
      else ⟨if neg then outLo o else outHi o, none, true, false⟩, false)
  | .fin n a e =>
    let neg := n ^^ decide (m < 0)
    let side := match fval o.scale with
      | .fin _ b e2 => sideValue c o neg (a * m.natAbs * b) (e - sh + e2)
      | _ => genNan
    match fval (fround c neg (a * m.natAbs) e) with
    | .fin n a e => match fval (fround c n a (e - sh)) with
      | .fin n a e => (clampOut o relu (dyRoundInt c n a e + o.zp) side, false)
      | _ => (⟨o.zp, none, false, false⟩, true)
    | _ => (if o.esc then ⟨escCode o.fmt, some side, false, neg⟩
        else if neg && relu then ⟨max (outLo o) o.zp, none, decide (o.zp ≤ outLo o), false⟩
        else ⟨if neg then outLo o else outHi o, none, true, false⟩, false)

/-- Adds the escapes of one element to its sum in FP32 (R173). -/
def escSum (c : RClass) (v : ConvDesc) (acc : Int) (es : List EscTerm) : Word :=
  es.foldl (fun x (e, o, inA) =>
    let dv := fmul c e (spRecip (if inA then v.inR.scale else v.wR.scale))
    fadd c x (fmul c dv (ofInt c o))) (ofInt c acc)

/-- INT32 written with no conversion saturates (R162). -/
def int32Out (acc : Int) : OutElem :=
  ⟨clampInt (-2147483648) 2147483647 acc, none, decide (acc < -2147483648 ∨ 2147483647 < acc), false⟩

/-- What an integer sum writes for an output channel; `esc` says that its block holds an escape. -/
def State.convOut (s : State) (d i : Nat) (c : RClass) (v : ConvDesc) (oc : Nat) (acc : Int) (esc : Bool)
    (es : List EscTerm) : OutElem × Bool :=
  let acc := if v.bias then acc + signedOf 32 (s.cs d i (v.biasAt + 4 * oc) 4) else acc
  let (m, sh) := s.rescaleOf d i v.rs (Config.chanTable v.at_) oc
  if v.outR.fmt = .int32 then
    (if esc then
      let x := toInt c (-2147483648) 2147483647 (escSum c v acc es)
      (⟨x.val, none, x.sat, false⟩, x.nan)
    else (int32Out acc, false))
  else if esc then rescaleFloat c v.outR v.rs.relu m sh (escSum c v acc es)
  else (rescaleOut c v.outR v.rs.relu m sh acc, false)

/-- What an FP32 sum writes: FP32, or rounded to BF16 (R114). -/
def floatOut (c : RClass) (o : TensorRec) (w : Word) : OutElem :=
  ⟨if o.fmt = .bf16 then (bf16Code (toBf16 c w) : Int) else (w.toNat : Int), none, false, false⟩

/-- Writes an element of an operator's output, counting a NaN. -/
def State.putElemOut (s : State) (d i : Nat) (t : TensorRec) (base row k : Nat) (o : OutElem × Bool) : State :=
  (if o.2 then s.count d i (fun c => c.addNan 1) else s).putOut d i t base row k o.1

/-- Fills the padding of a pixel's last channel block with the zero point (R181). -/
def State.padPix (s : State) (d i : Nat) (t : TensorRec) (row c : Nat) : State :=
  s.each (List.range (pixBytes t.fmt c / 16 * t.fmt.block - c)) (fun s k => s.putElem d i t.fmt row (c + k) (t.fmt.code t.zp))

/-! ### CONV -/

/-- Bytes of the core store an element occupies. -/
def elemBytes (f : Fmt) (row k : Nat) : Nat × Nat := (row + f.byteOf k, max 1 (f.bits / 8))

/-- Clock cycles a block takes (R109, R210). -/
def ConvDesc.blockCycles (v : ConvDesc) (k : Nat) : Nat :=
  if v.inR.fmt = .bf16 then 4 * k else if v.wR.fmt = .int4 then (k + 1) / 2 else k

/-- The arrays of a mask, in increasing number. -/
def arrayList (m : Nat) : List Nat := (List.range 4).filter (fun a => m.testBit a)

/-- The array that takes output block b (R191): the (b mod n)-th of the n in the mask. -/
def arrayOf (m b : Nat) : Nat := lget 0 (arrayList m) (b % (arrayList m).length)

/-- Cycles that arrays wait under R112 (R116): in each round of a block to each array, each waits for what the drains of the
round exceed the cycles of a block by. -/
def accWait (na cyc : Nat) : Nat → List Nat → Nat
  | 0, _ => 0
  | n + 1, l => (l.take na).length * ((l.take na).sum - cyc) + accWait na cyc n (l.drop na)

/-- An array has both of its banks full (R112). -/
def CoreS.banksFull (c : CoreS) (a : Nat) : Bool := decide (2 ≤ (c.drainQ.filter (fun b => b.array == a)).length)

/-- The array of a CONV's next block, and when it completes where no array waits, with the array number to order equals (R115). -/
def ConvPass.array (x : ConvPass) : Nat := arrayOf x.arrays x.next
def ConvPass.due (x : ConvPass) : Nat := 4 * (x.start + (x.next / max 1 (arrayList x.arrays).length + 1) * x.cyc) + x.array

/-- The CONV whose next block completes first: one that an earlier CONV keeps no array from, with a bank that is drained. -/
def CoreS.convNext (c : CoreS) : Option (Nat × Nat) :=
  oldest (((List.range c.conv.length).zip c.conv).filterMap (fun (k, x) =>
    if (c.conv.take k).any (fun y => y.arrays &&& x.arrays != 0) || c.banksFull x.array then none else some (k, x.due)))

/-- The arrays of a core go on (R112, R115, R191): the next blocks of its CONVs are accumulated, in the order in which they complete,
as long as the array of each has a bank that is drained. -/
def State.convFill (s : State) (d i : Nat) (c : RClass) : Nat → State
  | 0 => s
  | n + 1 =>
    let p := s.coreOf d i
    match (s.coreAt d p).convNext with
    | none => s
    | some (j, _) => match (s.coreAt d p).conv[j]?, s.live d i with
      | some x, some r => match s.convDesc d i x.desc r false with
        | .error e => s.finish d i e
        | .ok v => match v.blocks[x.next]? with
          | none => (s.updCore d p (fun q => { q with conv := q.conv.eraseIdx j })).convFill d i c n
          | some b => ((s.updCore d p (fun q => { q with
              drainQ := q.drainQ ++ [s.convBlock d i c v x.array b],
              conv := q.conv.set j { x with next := x.next + 1 } })).moves d i).convFill d i c n
      | _, _ => s

/-- Steps that `convFill` can take: a block into each bank, and the end of each CONV. -/
def State.fillSteps (s : State) (d i : Nat) : Nat := 8 + (s.coreAt d (s.coreOf d i)).conv.length

/-- CONV: its blocks begin to be accumulated; its waits under R112 are counted as R116 does. -/
def State.convRun (s : State) (d i : Nat) (c : RClass) (v : ConvDesc) : State :=
  let bs := v.blocks
  let k := v.kh * v.kw * (v.cin / max 1 v.groups)
  let wait := accWait (arrayList v.arrays).length (v.blockCycles k) bs.length (bs.map (fun b => (b.m * b.n + 63) / 64))
  let out := v.outH * v.outRow
  let aCells := (bs.flatMap (fun b => (v.steps b.g).flatMap (fun (ky, kx, ch) =>
    (List.range b.m).map (fun m => v.aAt b.oy (b.ox + m) ky kx ch)))).eraseDups
  let aOps := if v.inR.esc then aCells.map (fun p => s.operand d i v.inR v.inAddr p.1 p.2) else []
  let wOps := if v.wR.esc then (List.range (k * v.cout)).map (fun e => s.operand d i v.wR v.w v.w e) else []
  let s := s.count d i (escCounts (aOps ++ wOps))
  let s := s.sideClear d i v.outR v.out out
  let p := s.coreOf d i
  let s := (s.updCore d p (fun x => { x with conv := x.conv ++ [{
    desc := v.at_, arrays := v.arrays, next := 0, start := s.cycles, cyc := v.blockCycles k }] })).bump
    (bFabric d + 0x100C + 0x20 * p) wait
  s.convFill d i c (s.fillSteps d i)

/-- What CONV does, once its descriptor is read and lies in its ranges. -/
def State.convOp (s : State) (die slot addr : Nat) (r : RunTask) : Except TaskOut OpDo := do
  let v ← s.convDesc die slot addr r false
  let k := v.kh * v.kw * (v.cin / max 1 v.groups)
  pure {
    empty := v.empty
    reads := (v.blocks.flatMap (fun b => (v.steps b.g).flatMap (fun (ky, kx, ch) =>
      (List.range b.m).map (fun m => let p := v.aAt b.oy (b.ox + m) ky kx ch; elemBytes v.inR.fmt p.1 p.2)))) ++
      [(v.w, v.wR.fmt.bytes (k * v.cout))]
    run := fun s => if v.empty then s else s.convRun die slot r.cls v }

/-- CONV (R189 to R192). -/
def execConv (t die slot addr : Nat) (s : State) : Out :=
  onTask t die slot s (fun s r => s.operate die slot addr 0x01 r (fun s r => s.convOp die slot addr r))

/-- The drain of a block (R112 to R115): its sums are corrected, biased and converted, and written to the core store in blocked
form. -/
def State.drainBlock (s : State) (d i : Nat) (r : RunTask) (b : DrainBlk) : State :=
  match s.convDesc d i b.desc r false with
  | .error e => s.finish d i e
  | .ok v =>
    let za := feedZp v.inR
    let zb := feedZp v.wR
    let place (x : Nat) : Nat × Nat := (v.pixAt (x / v.cout / v.outW) (x / v.cout % v.outW), x % v.cout)
    let s := s.csReads d i (if v.bias then [(v.biasAt, 4 * v.cout)] else [])
    let s := s.each b.elems (fun s (x, raw, sa, sb) =>
      let (row, oc) := place x
      let acc := corrected raw za zb sa sb b.k
      let es := (b.escs.filter (fun e => e.1 == x)).map (·.2)
      let o := s.convOut d i r.cls v oc acc (!b.escs.isEmpty) es
      let s := s.putElemOut d i v.outR v.out row oc o
      if oc + 1 = v.cout then s.padPix d i v.outR row v.cout else s)
    s.each b.felems (fun s (x, w) =>
      let (row, oc) := place x
      let (s, w) := if v.bias then (s.drew, s.free) else (s, w)
      let s := s.putElemOut d i v.outR v.out row oc (floatOut r.cls v.outR w, false)
      if oc + 1 = v.cout then s.padPix d i v.outR row v.cout else s)

/-- BLOCK_DRAIN: the oldest block leaves the queue, and the array whose bank it held goes on. -/
def execBlockDrain (t die slot : Nat) (s : State) : Out :=
  onTask t die slot s (fun s r =>
    match (s.coreAt die (s.coreOf die slot)).drainQ with
    | [] => s
    | b :: q =>
      let s := ((s.updCore die (s.coreOf die slot) (fun x => { x with drainQ := q })).drainBlock die slot r b).moves die slot
      s.convFill die slot r.cls (s.fillSteps die slot))

/-! ### DWCONV (R193) -/

/-- Operand pairs of one output element. -/
def State.dwPairs (s : State) (d i : Nat) (v : ConvDesc) (oy ox c : Nat) : List (Operand × Operand) :=
  let oc := c / 64 * 64
  let n := min 64 (v.cin - oc)
  let k := v.kh * v.kw
  (List.range v.kh).flatMap (fun ky => (List.range v.kw).map (fun kx =>
    let p := v.dwAt oy ox ky kx c
    (s.fed d i v.inR v.inAddr p.1 p.2, s.fed d i v.wR v.w v.w (k * oc + (ky * v.kw + kx) * n + (c - oc)))))

/-- One output element of DWCONV. -/
def State.dwElem (s : State) (d i : Nat) (c : RClass) (v : ConvDesc) (oy ox ch : Nat) : OutElem × Bool :=
  let l := s.dwPairs d i v oy ox ch
  let za := feedZp v.inR
  let zb := feedZp v.wR
  let acc := (l.map (fun (a, b) => (a.code - za) * (b.code - zb))).sum
  let es := chainEscs za zb l
  s.convOut d i c v ch acc (!es.isEmpty) es

/-- Every output element of DWCONV, formed from what the core store held, then written. -/
def State.dwRun (s : State) (d i : Nat) (c : RClass) (v : ConvDesc) : State :=
  let cells := (List.range v.outH).flatMap (fun oy => (List.range v.outW).map (fun ox => (oy, ox)))
  let inCells := (cells.flatMap (fun (oy, ox) => (List.range v.kh).flatMap (fun ky => (List.range v.kw).flatMap (fun kx =>
    (List.range v.cin).map (fun ch => v.dwAt oy ox ky kx ch))))).eraseDups
  let aOps := if v.inR.esc then inCells.map (fun p => s.operand d i v.inR v.inAddr p.1 p.2) else []
  let wOps := if v.wR.esc then (List.range (v.kh * v.kw * v.cin)).map (fun e => s.operand d i v.wR v.w v.w e) else []
  let outs := cells.map (fun (oy, ox) => (v.pixAt oy ox, (List.range v.cin).map (fun ch => s.dwElem d i c v oy ox ch)))
  let s := (s.count d i (escCounts (aOps ++ wOps))).sideClear d i v.outR v.out (v.outH * v.outRow)
  s.each outs (fun s (row, l) =>
    (s.each ((List.range l.length).zip l) (fun s (k, o) => s.putElemOut d i v.outR v.out row k o)).padPix d i v.outR row v.cout)

/-- What DWCONV does, once its descriptor is read and lies in its ranges. -/
def State.dwOp (s : State) (die slot addr : Nat) (r : RunTask) : Except TaskOut OpDo := do
  let v ← s.convDesc die slot addr r true
  pure {
    empty := v.empty
    reads := (List.range v.outH).flatMap (fun oy => (List.range v.outW).flatMap (fun ox => (List.range v.kh).flatMap (fun ky =>
      (List.range v.kw).map (fun kx => ((v.dwAt oy ox ky kx 0).1, v.inR.fmt.bytes v.cin))))) ++
      [(v.w, v.wR.fmt.bytes (v.kh * v.kw * v.cin))] ++ (if v.bias then [(v.biasAt, 4 * v.cout)] else [])
    run := fun s => if v.empty then s else s.dwRun die slot r.cls v }

/-- DWCONV. -/
def execDwconv (t die slot addr : Nat) (s : State) : Out :=
  onTask t die slot s (fun s r => s.operate die slot addr 0x02 r (fun s r => s.dwOp die slot addr r))

/-! ### POOL (R194, R195) -/

/-- A POOL descriptor. -/
structure PoolDesc where
  at_ : Nat
  average : Bool
  kh : Nat
  kw : Nat
  sh : Nat
  sw : Nat
  pad : Nat
  c : Nat
  outH : Nat
  outW : Nat
  inR : TensorRec
  outR : TensorRec
  rs : RescaleRec
  inAddr : Nat
  out : Nat
  inRow : Nat
  outRow : Nat
  inH : Nat
  inW : Nat
  deriving DecidableEq, Repr, Inhabited

/-- Reads and checks a POOL descriptor; GLOBAL is one window over the whole input. An average is formed of integers and
rescaled to a quantised output. -/
def State.poolDesc (s : State) (d i addr : Nat) (r : RunTask) : Except TaskOut PoolDesc := do
  let f (o n : Nat) : Nat := s.cs d i (addr + o) n
  let all := bitOf (f 1 1) 7
  let avg := bitOf (f 1 1) 6
  let kh := f 2 1 / 16
  let kw := f 2 1 % 16
  let sh := f 3 1 / 16
  let sw := f 3 1 % 16
  need (f 1 1 % 64 = 0 && f 10 2 = 0)
  need (all || (kh ≤ 8 && kw ≤ 8))
  need (1 ≤ sh && sh ≤ 8 && 1 ≤ sw && sw ≤ 8)
  need (f 4 2 ≤ 4096 && (all || (f 6 1 ≤ 128 && f 7 1 ≤ 128)) && f 28 2 ≤ 1024 && f 30 2 ≤ 1024)
  need (f 9 1 % 16 ≤ 7 && csOk (f 12 4) && csOk (f 16 4))
  let inR ← s.tensorAt d i r (f 8 1 / 16)
  let outR ← if avg then s.tensorAt d i r (f 8 1 % 16) else pure inR
  let rs ← if avg then s.rescaleAt d i r (f 9 1 / 16) else pure { m := 0, s := 0, perChannel := false, relu := false }
  need (!avg || (inR.fmt != .bf16 && inR.fmt != .fp32 && outR.fmt.quantised)) .arithDescErr
  pure {
    at_ := addr, average := avg, kh := if all then f 28 2 else kh, kw := if all then f 30 2 else kw, sh := sh, sw := sw,
    pad := if all then 0 else f 9 1 % 16, c := f 4 2, outH := if all then 1 else f 6 1, outW := if all then 1 else f 7 1,
    inR := inR, outR := outR, rs := rs, inAddr := f 12 4, out := f 16 4, inRow := f 20 4, outRow := f 24 4, inH := f 28 2,
    inW := f 30 2 }

def PoolDesc.empty (v : PoolDesc) : Bool :=
  v.kh == 0 || v.kw == 0 || v.c == 0 || v.outH == 0 || v.outW == 0 || v.inH == 0 || v.inW == 0

/-- Row addresses of the input pixels of a window. -/
def PoolDesc.cells (v : PoolDesc) (oy ox : Nat) : List Nat :=
  (List.range v.kh).flatMap (fun a => (List.range v.kw).filterMap (fun b =>
    let y : Int := (oy * v.sh + a : Nat) - (v.pad : Int)
    let x : Int := (ox * v.sw + b : Nat) - (v.pad : Int)
    if 0 ≤ y ∧ y < v.inH ∧ 0 ≤ x ∧ x < v.inW then
      some (v.inAddr + y.toNat * v.inRow + x.toNat * pixBytes v.inR.fmt v.c)
    else none))

/-- The largest code of a list, at face value for floating-point formats. -/
def maxCode (f : Fmt) : List Int → Int
  | [] => 0
  | x :: l => l.foldl (fun a b => match f with
    | .bf16 => ((bf16Code (fmax (bf16Word a.toNat) (bf16Word b.toNat))) : Int)
    | .fp32 => ((fmax (wordOf a.toNat) (wordOf b.toNat)).toNat : Int)
    | _ => max a b) x

/-- The code of an element at face value: signed for an integer, the bits for a floating-point format. -/
def State.faceCode (s : State) (d i : Nat) (f : Fmt) (row k : Nat) : Int :=
  let n := s.elem d i f row k
  if f == .bf16 || f == .fp32 then (n : Int) else codeInt f n

/-- One output element of POOL. -/
def State.poolElem (s : State) (d i : Nat) (c : RClass) (v : PoolDesc) (oy ox ch : Nat) : OutElem × Bool :=
  let cells := v.cells oy ox
  let ops := if v.inR.esc then cells.map (fun a => s.operand d i v.inR v.inAddr a ch) else []
  if ops.any (fun o => o.esc.isSome) then
    let l := ops.map (fun o => o.real c v.inR)
    if v.average then
      quantOut c v.outR (fdiv c (l.foldl (fadd c) 0#32) (ofInt c (v.kh * v.kw : Nat)))
    else quantOut c v.outR (match l with | [] => 0#32 | w :: l => l.foldl fmax w)
  else
    let l := if v.inR.esc then ops.map (·.code) else cells.map (fun a => s.faceCode d i v.inR.fmt a ch)
    if v.average then
      let acc := (l.map (fun q => q - v.inR.zp)).sum
      let (m, sh) := s.rescaleOf d i v.rs (Config.chanTable v.at_) ch
      (rescaleOut c v.outR v.rs.relu m sh acc, false)
    else (⟨if l.isEmpty then v.inR.zp else maxCode v.inR.fmt l, none, false, false⟩, false)

/-- Every output element of POOL, formed from what the core store held, then written. -/
def State.poolRun (s : State) (d i : Nat) (c : RClass) (v : PoolDesc) : State :=
  let px := (List.range v.outH).flatMap (fun oy => (List.range v.outW).map (fun ox => (oy, ox)))
  let rows := (px.flatMap (fun (oy, ox) => v.cells oy ox)).eraseDups
  let ops := if v.inR.esc then rows.flatMap (fun a => (List.range v.c).map (fun k => s.operand d i v.inR v.inAddr a k)) else []
  let outs := px.map (fun (oy, ox) => (v.out + oy * v.outRow + ox * pixBytes v.outR.fmt v.c,
    (List.range v.c).map (fun ch => s.poolElem d i c v oy ox ch)))
  let s := (s.count d i (escCounts ops)).sideClear d i v.outR v.out (v.outH * v.outRow)
  s.each outs (fun s (row, l) =>
    (s.each ((List.range l.length).zip l) (fun s (k, o) => s.putElemOut d i v.outR v.out row k o)).padPix d i v.outR row v.c)

/-- What POOL does, once its descriptor is read and lies in its ranges. -/
def State.poolOp (s : State) (die slot addr : Nat) (r : RunTask) : Except TaskOut OpDo := do
  let v ← s.poolDesc die slot addr r
  pure {
    empty := v.empty
    reads := (List.range v.outH).flatMap (fun oy => (List.range v.outW).flatMap (fun ox =>
      (v.cells oy ox).map (fun a => (a, v.inR.fmt.bytes v.c))))
    run := fun s => if v.empty then s else s.poolRun die slot r.cls v }

/-- POOL. -/
def execPool (t die slot addr : Nat) (s : State) : Out :=
  onTask t die slot s (fun s r => s.operate die slot addr 0x03 r (fun s r => s.poolOp die slot addr r))

/-! ### Box lists (R201) -/

/-- A box record. -/
structure Box where
  y : Int
  x : Int
  h : Nat
  w : Nat
  cls : Nat
  score : Nat
  order : Nat
  flags : Nat
  deriving DecidableEq, Repr, Inhabited

/-- Reads box k of a list. -/
def State.boxAt (s : State) (d i list k : Nat) : Box :=
  let f (o n : Nat) : Nat := s.cs d i (list + 32 + 32 * k + o) n
  { y := signedOf 64 (f 0 8), x := signedOf 32 (f 8 4), h := f 12 4, w := f 16 4, cls := f 20 2, score := f 22 2,
    order := f 24 4, flags := f 28 2 }

/-- The 32 bytes of a box. -/
def Box.bytes (b : Box) : List Byte :=
  le64 b.y ++ leBytes 4 (codeOf 32 b.x) ++ leBytes 4 b.h ++ leBytes 4 b.w ++ leBytes 2 b.cls ++ leBytes 2 b.score ++
    leBytes 4 b.order ++ leBytes 2 b.flags ++ leBytes 2 0

/-- The 32 bytes of a box list's header. -/
def boxHeader (count cap dropped : Nat) (ref : Int) : List Byte :=
  leBytes 4 count ++ leBytes 4 cap ++ leBytes 4 dropped ++ leBytes 4 0 ++ le64 ref ++ leBytes 8 0

/-- A box ranks before another (R201); equal ranks keep their order. -/
def Box.before (a b : Box) : Bool := decide (b.score < a.score) || (a.score == b.score && decide (a.order < b.order))

/-- Enters a box behind those that rank before it or equal. -/
def boxInsert (lt : Box → Box → Bool) (b : Box) : List Box → List Box
  | [] => [b]
  | a :: l => if lt b a then b :: a :: l else a :: boxInsert lt b l

/-- Boxes in the order of a comparison, equals in their order. -/
def boxSort (lt : Box → Box → Bool) (l : List Box) : List Box := l.foldl (fun acc b => boxInsert lt b acc) []

/-! ### BOX_DECODE (R202 to R204) -/

/-- A positive finite FP32 number. -/
def posFinite (w : Word) : Bool :=
  match fval w with
  | .fin n m _ => !n && m != 0
  | _ => false

/-- The index of the greatest of a list, the lowest on ties. -/
def argMax (l : List Word) : Nat × Word :=
  ((List.range l.length).zip l).foldl (fun acc p => if flt acc.2 p.2 then p else acc) (0, lget 0#32 l 0)

/-- The box of cell (j, i) and anchor a, from its channels, and what its conversions to integers count (R176). -/
def decodeBox (c : RClass) (blockX blockY cell pitch : Nat) (x0 rowSp : Int) (column cellsW anchors list : Nat) (j i a : Nat)
    (aw ah : Word) (ch : List Word) : Box × ArithCnt :=
  let p := froundInt c pitch (-16)
  let mid (b k : Nat) : Word := froundInt c ((2 * b + (2 * k + 1) * cell : Nat) : Int) (-1)
  let lim (w : Word) : Word := fclamp w 0xC0800000#32 0x40800000#32
  let best := argMax (ch.drop 5)
  let sc := toInt c 0 65535 (fmul c (fmul c (ofInt c 65535) (spSigm (lget 0#32 ch 0))) (spSigm best.2))
  let relX := fadd c (fmul c (mid blockX i) p) (fmul c (lget 0#32 ch 1) aw)
  let relY := fadd c (fmul c (mid blockY j) p) (fmul c (lget 0#32 ch 2) ah)
  let whole (w : Word) := toInt c (-2147483648) 2147483647 w
  let side (anchor dl : Word) := whole (fmul c anchor (spExp (lim dl)))
  let y := whole relY
  let x := whole relX
  let h := side ah (lget 0#32 ch 4)
  let w := side aw (lget 0#32 ch 3)
  ({ y := rowSp + y.val
     x := x0 + dyRoundInt c false (256 * column * pitch) (-16) + x.val
     h := (max 1 h.val).toNat, w := (max 1 w.val).toNat, cls := best.1, score := sc.val.toNat
     order := list * 2 ^ 24 + ((j * cellsW + i) * anchors + a) % 2 ^ 24, flags := 0 },
    { sat := b2n sc.sat + b2n y.sat + b2n x.sat + b2n h.sat + b2n w.sat,
      nan := b2n sc.nan + b2n y.nan + b2n x.nan + b2n h.nan + b2n w.nan })

/-- What BOX_DECODE does, once its descriptor is read and lies in its ranges. -/
def State.boxOp (s : State) (die slot addr : Nat) (r : RunTask) : Except TaskOut OpDo := do
  let f (o n : Nat) : Nat := s.cs die slot (addr + o) n
  let na := f 1 1
  let nc := f 2 1
  need (na ≤ 16 && nc ≤ 64 && 1 ≤ f 3 1 && f 3 1 ≤ 64 && f 4 1 ≤ 64 && f 5 1 ≤ 64 && f 7 1 % 16 = 0 && f 10 2 ≤ 1024)
  need ([f 16 4, f 24 4, f 28 4, f 40 4].all csOk && f 44 8 = 0 && f 52 8 = 0 && f 60 4 = 0)
  need (0x200000 ≤ f 36 4 && f 36 4 ≤ 0x3E80000)
  let anc := (List.range na).map (fun a => (wordOf (f 24 4 |> fun p => s.cs die slot (p + 8 * a) 4),
    wordOf (f 24 4 |> fun p => s.cs die slot (p + 8 * a + 4) 4)))
  need (anc.all (fun p => posFinite p.1 && posFinite p.2))
  let rec_ ← s.tensorAt die slot r (f 7 1 / 16)
  let empty := na = 0 || nc = 0 || f 4 1 = 0 || f 5 1 = 0 || f 10 2 = 0
  let rowSp := signedOf 64 (s.cs die slot (f 28 4) 8)
  let column := s.cs die slot (f 28 4 + 28) 2
  let px := pixBytes rec_.fmt (na * (5 + nc))
  let cells := (List.range (f 4 1)).flatMap (fun j => (List.range (f 5 1)).map (fun i => (j, i)))
  let row (j i : Nat) : Nat := f 16 4 + j * f 20 4 + i * px
  pure {
    empty := empty
    reads := [(f 28 4, 128), (f 24 4, 8 * na)] ++ cells.map (fun (j, i) => (row j i, rec_.fmt.bytes (na * (5 + nc))))
    run := fun s =>
      if empty then s.csSt die slot (f 40 4) (boxHeader 0 (f 10 2) 0 rowSp)
      else
        let all := cells.flatMap (fun (j, i) => ((List.range na).zip anc).map (fun (a, aw, ah) =>
          decodeBox r.cls (f 12 2) (f 14 2) (f 3 1) (f 36 4) (signedOf 32 (f 32 4)) rowSp column (f 5 1) na (f 6 1) j i a aw ah
            ((List.range (5 + nc)).map (fun k => s.realAt die slot r.cls rec_ (f 16 4) (row j i) (a * (5 + nc) + k)))))
        let esc := if rec_.esc then cells.flatMap (fun (j, i) => (List.range (na * (5 + nc))).map (fun k =>
          s.operand die slot rec_ (f 16 4) (row j i) k)) else []
        let s := s.count die slot (fun c => all.foldl (fun c b => c.join b.2) (escCounts esc c))
        let pass := (all.map (·.1)).filter (fun b => decide (f 8 2 ≤ b.score))
        let kept := (boxSort Box.before pass).take (f 10 2)
        let list := boxSort (fun a b => decide (a.order < b.order)) kept
        s.csSt die slot (f 40 4) (boxHeader list.length (f 10 2) (pass.length - list.length) rowSp ++ (list.map Box.bytes).flatten) }

/-- BOX_DECODE. -/
def execBoxDecode (t die slot addr : Nat) (s : State) : Out :=
  onTask t die slot s (fun s r => s.operate die slot addr 0x05 r (fun s r => s.boxOp die slot addr r))

/-! ### SUPPRESS (R205, R206) -/

/-- Edges of a box in FP32: along the strip relative to REF_Y, and across it. -/
def Box.edges (c : RClass) (ref : Int) (b : Box) : (Word × Word) × (Word × Word) :=
  let half (n : Nat) : Word := froundInt c (n : Int) (-1)
  let y := ofInt c (b.y - ref)
  let x := ofInt c b.x
  ((fsub c y (half b.h), fadd c y (half b.h)), (fsub c x (half b.w), fadd c x (half b.w)))

/-- Box b suppresses box a. -/
def suppresses (c : RClass) (ref : Int) (iou : Word) (b a : Box) : Bool :=
  let (yb, xb) := b.edges c ref
  let (ya, xa) := a.edges c ref
  let dy := fsub c (fmin yb.2 ya.2) (fmax yb.1 ya.1)
  let dx := fsub c (fmin xb.2 xa.2) (fmax xb.1 xa.1)
  let inter := if flt 0#32 dy && flt 0#32 dx then fmul c dy dx else 0#32
  let area (z : Box) : Word := fmul c (ofInt c z.h) (ofInt c z.w)
  flt (fmul c iou (fsub c (fadd c (area b) (area a)) inter)) inter

/-- Takes boxes in rank order: those kept, last first, and how many unsuppressed ones remain. -/
def suppressLoop (sup : Box → Box → Bool) (most : Nat) : List Box → List Box → Nat → List Box × Nat
  | [], kept, left => (kept, left)
  | b :: l, kept, left =>
    if kept.any (fun k => sup k b) then suppressLoop sup most l kept left
    else if kept.length < most then suppressLoop sup most l (b :: kept) left
    else suppressLoop sup most l kept (left + 1)

/-- What SUPPRESS does, once its descriptor is read and lies in its ranges. -/
def State.suppressOp (s : State) (die slot addr : Nat) (r : RunTask) : Except TaskOut OpDo := do
  let f (o n : Nat) : Nat := s.cs die slot (addr + o) n
  let list := f 8 4
  let n := s.cs die slot list 4
  let iou := wordOf (f 4 4)
  need (f 1 1 / 2 = 0 && f 2 2 ≤ 256 && posFinite iou && fle iou 0x3F800000#32)
  need (csOk list && csOk (f 12 4) && f 16 8 = 0 && f 24 8 = 0 && n ≤ 1024)
  let ref := signedOf 64 (s.cs die slot (list + 16) 8)
  let empty := f 2 2 = 0 || n = 0
  pure {
    empty := empty
    reads := [(list, 32 + 32 * n)]
    run := fun s =>
      if empty then s.csSt die slot (f 12 4) (boxHeader 0 (f 2 2) 0 ref)
      else
        let boxes := (List.range n).map (fun k =>
          let b := s.boxAt die slot list k
          if b.h = 0 ∨ b.w = 0 then { b with h := max 1 b.h, w := max 1 b.w, flags := b.flags ||| 16 } else b)
        let aware := bitOf (f 1 1) 0
        let res := suppressLoop (fun b a => (!aware || b.cls == a.cls) && suppresses r.cls ref iou b a) (f 2 2)
          (boxSort Box.before boxes) [] 0
        let kept := res.1.reverse
        s.csSt die slot (f 12 4) (boxHeader kept.length (f 2 2) res.2 ref ++ (kept.map Box.bytes).flatten) }

/-- SUPPRESS. -/
def execSuppress (t die slot addr : Nat) (s : State) : Out :=
  onTask t die slot s (fun s r => s.operate die slot addr 0x06 r (fun s r => s.suppressOp die slot addr r))

/-! ### CROP_RESIZE (R207 to R209) -/

/-- A read of a capture ring reached rows that are no longer readable (R94): the tile of the task's graph counts as
uninspected. -/
def State.ringExpired (s : State) (g chans : Nat) : State :=
  let s := s.raise evAcq 5
  match (s.graphOf g).bind (·.tile) with
  | some (col, band) => s.coverTile col band 4 chans
  | none => s

/-- What a grid cell of a capture ring gives a reader (R93, R94, R209). -/
inductive RingCell where
  | key (k : Nat)
  | clipped
  | notFormed
  | expired
  deriving DecidableEq, Repr, Inhabited

/-- The cell of grid row r, column x of a channel in the ring of a die pair. -/
def State.ringCell (s : State) (d c : Nat) (r x : Int) : RingCell :=
  let cols : Int := (256 * s.rfld 0x20018 7 0 : Nat)
  if x < (8192 * d : Nat) ∨ (8192 * (d + 1) : Nat) ≤ x ∨ cols ≤ x then .clipped
  else match s.acq.formed.find? (fun p => p.1 == c) with
    | none => .notFormed
    | some p =>
      if p.2 ≤ r then .notFormed
      else if r < p.2 - 2920 then .expired
      else .key (memKey (spLintel d) (ringOff r c x.toNat d))

/-- A sampled position in 2⁻¹⁶ grid cells: output cell u of n over a side of hc/p cells about ctr/p. -/
def cropPos (ctr hc : Int) (p n u : Nat) : Int :=
  Int.fdiv ((2 * n * ctr - n * hc + (2 * u + 1) * hc - n * p) * 65536) (2 * n * p)

/-- A side in 1/p grid cells with its margin, and whether it was cut. -/
def cropSide (um margin p most : Nat) : Nat × Bool :=
  let h := um * (256 + 2 * margin) * 256
  if most * p < h then (most * p, true) else (h, false)

/-- The cells of weight above 0 that a sample reads, each with its weight in 2⁻³². -/
def cropTaps (y x : Int) : List (Int × Int × Nat) :=
  let fy := (y % 65536).toNat
  let fx := (x % 65536).toNat
  let r := y / 65536
  let c := x / 65536
  [(r, c, (65536 - fy) * (65536 - fx)), (r, c + 1, (65536 - fy) * fx), (r + 1, c, fy * (65536 - fx)), (r + 1, c + 1, fy * fx)].filter
    (fun q => q.2.2 != 0)

/-- The crop of one box and channel: the samples, row-major, each with its cells. -/
def State.cropCells (s : State) (d c : Nat) (b : Box) (outH outW x0 p margin most : Nat) : List (List (RingCell × Nat)) :=
  let ctrY := b.y * 65536
  let ctrX := (b.x - signedOf 32 x0) * 65536
  let hc := (cropSide b.h margin p most).1
  let wc := (cropSide b.w margin p most).1
  (List.range outH).flatMap (fun u => (List.range outW).map (fun v =>
    (cropTaps (cropPos ctrY hc p outH u) (cropPos ctrX wc p outW v)).map (fun q => (s.ringCell d c q.1 q.2.1, q.2.2))))

/-- What CROP_RESIZE does, once its descriptor is read and lies in its ranges. -/
def State.cropOp (s : State) (die slot addr : Nat) (r : RunTask) : Except TaskOut OpDo := do
  let f (o n : Nat) : Nat := s.cs die slot (addr + o) n
  let list := f 8 4
  let p := f 20 4
  let chans := (List.range 4).filter (fun c => (f 1 1 / 16).testBit c)
  need (f 1 1 % 16 = 0 && f 2 1 ≤ 128 && f 3 1 ≤ 128 && csOk list && csOk (f 12 4) && f 28 4 = 0)
  need (0x200000 ≤ p && p ≤ 0x3E80000 && f 24 2 ≤ 1024 && 1 ≤ f 26 2 && f 26 2 ≤ 2048)
  need (f 4 2 + f 6 2 ≤ s.cs die slot list 4)
  let empty := chans.isEmpty || f 2 1 = 0 || f 3 1 = 0 || f 6 2 = 0
  pure {
    empty := empty
    reads := [(list, 32), (list + 32 + 32 * f 4 2, 32 * f 6 2)]
    run := fun s => if empty then s else
      s.each (List.range (f 6 2)) (fun s n =>
        let b := s.boxAt die slot list (f 4 2 + n)
        let crops := chans.map (fun c => s.cropCells die c b (f 2 1) (f 3 1) (f 16 4) p (f 24 2) (f 26 2))
        let cells := (crops.flatten.flatten.map (·.1)).eraseDups
        let keys := cells.filterMap (fun c => match c with | .key k => some k | _ => none)
        let hit := s.mt.flips.filter (fun w => keys.any (fun k => decide (w.1 ≤ k) && decide (k < w.1 + 8)))
        let (s, bad) := hit.foldl (fun (acc : State × Bool) w =>
          let (s, x) := acc.1.eccRead w.1 8
          (s, acc.2 || x)) (s, false)
        if bad then s.finish die slot .memFault
        else
          let lost := cells.contains .expired
          let cut := (cropSide b.h (f 24 2) p (f 26 2)).2 || (cropSide b.w (f 24 2) p (f 26 2)).2
          let flags := b.flags ||| (b2n (cells.contains .clipped) + 2 * b2n cut + 4 * b2n lost + 8 * b2n (cells.contains .notFormed))
          let s := s.csSt die slot (list + 32 + 32 * (f 4 2 + n) + 28) (leBytes 2 flags)
          let s := if lost then s.ringExpired r.graph (f 1 1 / 16) else s
          s.each ((List.range crops.length).zip crops) (fun s (c, samples) =>
            s.csSt die slot (f 12 4 + (n * chans.length + c) * (f 2 1 * f 3 1)) (samples.map (fun l =>
              let z := (l.map (fun (q, w) => match q with | .key k => (s.ldB k).toNat * w | _ => 0)).sum
              BitVec.ofNat 8 (if lost then 0 else (z + 2 ^ 31) / 2 ^ 32))))) }

/-- CROP_RESIZE. -/
def execCropResize (t die slot addr : Nat) (s : State) : Out :=
  onTask t die slot s (fun s r => s.operate die slot addr 0x04 r (fun s r => s.cropOp die slot addr r))

end Sys2Proof.Machine
end

