-- ==== Sys2Proof/Machine/TileMover.lean ====
section
/-!
DEFINITION. The tile movers (R184, R185, R196 to R200, R308 to R312): chains of descriptors between the core store, the Lintel
store and the tiered range. A descriptor moves its data when its command comes; the Quarry bursts it queues are served by
QUARRY_BURST, and its task waits for them.
-/
namespace Sys2Proof.Machine

/-! ### Compression (R197, R199, R200) -/

/-- Integer codes of packed bytes. -/
def codesOf (f : Fmt) (bs : List Byte) : List Int :=
  match f with
  | .int4 => bs.flatMap (fun b => [signedOf 4 (b.toNat % 16), signedOf 4 (b.toNat / 16)])
  | .uint8 => bs.map (fun b => (b.toNat : Int))
  | _ => bs.map (fun b => signedOf 8 b.toNat)

/-- Values of w bits packed from the least significant bits of each byte upwards. -/
def packBits (w : Nat) (l : List Nat) : List Byte :=
  (chunks (8 / w) (l.length * w / 8) l).map (fun c => BitVec.ofNat 8 (c.foldr (fun q n => q % 2 ^ w + 2 ^ w * n) 0))

/-- The values of w bits of packed bytes. -/
def unpackBits (w : Nat) (bs : List Byte) : List Nat :=
  bs.flatMap (fun b => (List.range (8 / w)).map (fun k => b.toNat / 2 ^ (w * k) % 2 ^ w))

/-- A 16-byte block whose codes all equal the zero point. -/
def zeroBlock (t : TensorRec) (b : List Byte) : Bool := (codesOf t.fmt b).all (fun q => q == t.zp)

/-- Zero-run encoding of a tile: the mask and its non-zero blocks; none where the tile is stored raw. -/
def zeroRun (t : TensorRec) (bs : List Byte) : Option (List Byte) :=
  let blocks := chunks 16 256 bs
  let keep := blocks.filter (fun b => !zeroBlock t b)
  if 254 ≤ keep.length then none
  else some (leBytes 32 (maskOf 256 (fun i => !zeroBlock t (lget [] blocks i))) ++ keep.flatten)

/-- The tile of a zero-run encoding. -/
def zeroRunDecode (t : TensorRec) (bs : List Byte) : List Byte :=
  let mask := leAt bs 0 32
  let zero := packBits t.fmt.bits (List.replicate (128 / t.fmt.bits) (t.fmt.code t.zp))
  ((List.range 256).foldl (fun (acc : List Byte × List Byte) i =>
    if mask.testBit i then (acc.1 ++ acc.2.take 16, acc.2.drop 16) else (acc.1 ++ zero, acc.2)) ([], bs.drop 32)).1

/-- Width of a code of fixed-rate compression. -/
def fixedWidth (f : Fmt) (quarter : Bool) : Nat := if f == .int4 then 2 else if quarter then 2 else 4

/-- Rounding term of a shift. -/
def fixedHalf (sh : Nat) : Int := if sh = 0 then 0 else 2 ^ (sh - 1)

/-- Least code and shift of one channel (R199). -/
def fixedChan (w : Nat) (l : List Int) : Int × Nat :=
  let lo := l.foldl min (lget 0 l 0)
  let hi := l.foldl max (lget 0 l 0)
  let sh := match (List.range 8).find? (fun k => decide ((hi - lo + fixedHalf k) / 2 ^ k ≤ 2 ^ w - 1)) with
    | some k => k
    | none => 7
  (lo, sh)

/-- Every n-th element of a list, from the k-th. -/
def strideOf (n k : Nat) (l : List Int) : List Int := (List.range (l.length / max 1 n)).map (fun j => lget 0 l (n * j + k))

/-- Fixed-rate encoding of a tile. -/
def fixedRate (f : Fmt) (quarter : Bool) (bs : List Byte) : List Byte :=
  let w := fixedWidth f quarter
  let q := codesOf f bs
  let n := f.block
  let ch := (List.range n).map (fun c => fixedChan w (strideOf n c q))
  ch.flatMap (fun (lo, sh) => leBytes 1 (codeOf 8 lo) ++ leBytes 1 sh) ++
    packBits w (((List.range q.length).zip q).map (fun (k, v) =>
      let (lo, sh) := lget (0, 0) ch (k % n)
      ((v - lo + fixedHalf sh) / 2 ^ sh).toNat))

/-- The tile of a fixed-rate encoding. -/
def fixedDecode (f : Fmt) (quarter : Bool) (bs : List Byte) : List Byte :=
  let w := fixedWidth f quarter
  let n := f.block
  let qs := unpackBits w (bs.drop (2 * n))
  packBits f.bits (((List.range (n * 256)).zip qs).map (fun (k, q) =>
    let c := k % n
    let b := leAt bs (2 * c) 1
    let lo := if f == .uint8 then (b : Int) else signedOf 8 b
    f.code (clampInt f.lo f.hi (lo + (q * 2 ^ leAt bs (2 * c + 1) 1 : Nat)))))

/-- A feature-map tile as it is stored: its form and its bytes (R196, R310). -/
def encodeTile (t : TensorRec) (quarter : Bool) (bs : List Byte) : Nat × List Byte :=
  if t.privileged then
    let q := t.fmt != .int4 && quarter
    (if q then 3 else 2, fixedRate t.fmt q bs)
  else match zeroRun t bs with
    | some e => (1, e)
    | none => (0, bs)

/-- The tile of stored bytes. -/
def decodeTile (t : TensorRec) (form : Nat) (bs : List Byte) : List Byte :=
  match form with
  | 1 => zeroRunDecode t bs
  | 2 => fixedDecode t.fmt false bs
  | 3 => fixedDecode t.fmt true bs
  | _ => bs

/-! ### Descriptors (R308) -/

/-- A tile-mover descriptor. -/
structure MoveDesc where
  at_ : Nat
  op : Nat
  last : Bool
  fence : Bool
  side : Bool
  dir : Bool
  srcSp : Nat
  dstSp : Nat
  count : Nat
  src : Nat
  dst : Nat
  ss : Nat
  ds : Nat
  aux : Nat
  w : Nat
  h : Nat
  c : Nat
  phase : Nat
  halo : Nat
  late : Nat
  deadline : Nat
  rec_ : TensorRec
  /-- The plan's rate for the tensor is 4:1 (R200). -/
  quarter : Bool
  /-- The graph serves a tile set; the pair's tile columns or the grid end on the left, and on the right, of its tile column (R185). -/
  tiled : Bool
  edgeL : Bool
  edgeR : Bool
  deriving DecidableEq, Repr, Inhabited

/-- A descriptor that uses no record; only FILL and a plain COPY may name one that is absent. -/
def rawRec : TensorRec :=
  { scale := 0x3F800000#32, zp := 0, fmt := .uint8, esc := false, sideFp32 := false, privileged := false, learned := false }

/-- Reads and checks a descriptor. -/
def State.moveDesc (s : State) (d i addr : Nat) (r : RunTask) : Except TaskOut MoveDesc := do
  let f (o n : Nat) : Nat := s.cs d i (addr + o) n
  let op := f 0 1
  let b1 := f 1 1
  let unit := f 24 2
  let conv := decide (2 ≤ op ∧ op ≤ 5)
  let src := b1 / 4 % 4
  let dst := b1 % 4
  let late := f 31 1 / 4 % 4
  need (1 ≤ op && op ≤ 6 && src ≤ 2 && dst ≤ 2 && late ≤ 2 && f 31 1 % 4 = 0 && f 30 1 < 128 && f 30 1 % 16 ≤ 8)
  need (f 34 6 = 0 && f 40 8 = 0 && f 48 8 = 0 && f 56 8 = 0)
  need (late ≠ 2 || (src = 2 && dst = 0))
  need (if conv then f 2 2 ≤ 1 else (64 ≤ unit && unit ≤ 4096 && unit % 64 = 0))
  need (match op with
    | 2 => src != 0 && dst == 0
    | 3 => dst == 0 && decide (2 ≤ f 30 1 / 16 ∧ f 30 1 / 16 ≤ 4)
    | 4 => src == 0 && dst ≠ 2
    | 5 => src == 1 && dst == 0
    | _ => true)
  let usesRec := (conv && (op ≠ 5 || f 30 1 % 16 ≠ 0)) || bitOf b1 4 || bitOf b1 5 || late = 2
  let rc ← if usesRec then s.tensorAt d i r (f 31 1 / 16) else pure rawRec
  let tile := (s.graphOf r.graph).bind (·.tile)
  pure {
    at_ := addr, op := op, last := bitOf b1 7, fence := bitOf b1 6, side := bitOf b1 5, dir := bitOf b1 4, srcSp := src, dstSp := dst,
    count := f 2 2, src := f 4 4, dst := f 8 4, ss := f 12 4, ds := f 16 4, aux := f 20 4, w := unit, h := f 26 2, c := f 28 2,
    phase := f 30 1 / 16, halo := f 30 1 % 16, late := late, deadline := f 32 2, rec_ := rc,
    quarter := Config.planRate s.bond.image (f 20 4), tiled := tile.isSome, edgeL := tile.any (fun q => q.1 % 32 == 0),
    edgeR := tile.any (fun q => q.1 % 32 == 31 || q.1 + 1 == s.rfld 0x20018 7 0) }

/-- A count or a size is 0. -/
def MoveDesc.empty (m : MoveDesc) : Bool :=
  m.count == 0 || (decide (2 ≤ m.op ∧ m.op ≤ 5) && (m.w == 0 || m.h == 0 || m.c == 0))

/-! ### Accesses -/

/-- An access of n bytes lies in its space; a write stays out of the fixed region, and a unit of the tiered range lies in one
tile (R187, R284, R308). -/
def spOk (sp : Nat) (write : Bool) (a n : Nat) : Bool :=
  match sp with
  | 0 => decide (a + n ≤ 0x200000)
  | 1 => decide (a + n ≤ 0x10000000) && (!write || decide (0x06660000 ≤ a))
  | _ => decide (a + n ≤ 2 ^ 32) && (n == 0 || a / 4096 == (a + n - 1) / 4096)

/-- The client a task's graph belongs to. -/
def State.clientOf (s : State) (r : RunTask) : Nat := match s.graphOf r.graph with | some g => g.client | none => 15

/-- Who a chain's accesses are made for. -/
def State.whoOf (s : State) (d i : Nat) (r : RunTask) : Who := { q := if s.clientOf r = 15 then .plan else .client, who := some (d, i) }

/-- Counts the bytes of an access in the account of the task's client and die (R351). -/
def State.moved (s : State) (d sp a n : Nat) (r : RunTask) : State :=
  let c := s.clientOf r
  match sp with
  | 0 => s
  | 1 => s.updAccount c d (fun x => { x with lintel := x.lintel + n })
  | _ => s.each (tierPieces a n) (fun s p =>
      let e := s.pte p.1
      let s := s.updAccount c d (fun x => if e.tier = 0 then { x with lintel := x.lintel + p.2.2 } else { x with quarry := x.quarry + p.2.2 })
      if e.die = d then s else s.updAccount c d (fun x => { x with bridge := x.bridge + p.2.2 }))

/-- A tiered access that met a LOST page before the marking of R299 ends as an error, and its pages and contexts are marked. -/
def State.lostSeen (s : State) (a n : Nat) (o : TaskOut) : State × TaskOut :=
  let ps := ((tierPieces a n).map (·.1)).filter (fun p => s.mt.lostMark.contains p)
  if o == .memLost && !ps.isEmpty then (s.markLost ps, .memFault) else (s, o)

/-- The bytes from a key on as a task of an epoch sees them: what a later epoch has overwritten reads as it was (R145). -/
def State.epochBytes (s : State) (e key n : Nat) : List Byte :=
  (s.adapt.olds.filter (fun p => e ≤ p.1)).foldl (fun bs p => p.2.foldl (fun bs (q : Nat × List Byte) =>
    (List.range n).map (fun k => if q.1 ≤ key + k ∧ key + k < q.1 + q.2.length then lget 0 q.2 (key + k - q.1) else lget 0 bs k)) bs)
    (s.ldBytes key n)

/-- Reads n bytes of a space for a chain. -/
def State.spRead (s : State) (d i : Nat) (r : RunTask) (sp a n : Nat) : State × Except TaskOut (List Byte) :=
  if !spOk sp false a n then (s, .error .opDescErr)
  else
    let s := s.moved d sp a n r
    match sp with
    | 0 =>
      let s := s.csReads d i [(a, n)]
      (s, if (s.live d i).isNone then .error .coreFault else .ok (s.ldBytes (s.csKey d i a) n))
    | 1 =>
      let (s, bad) := s.eccRead (memKey (spLintel d) a) n
      (s, if bad then .error .memFault else .ok (s.epochBytes r.epoch (memKey (spLintel d) a) n))
    | _ => match s.tierRead (s.whoOf d i r) a n with
      | (s, .ok bs) => (s, .ok bs)
      | (s, .error o) => let (s, o) := s.lostSeen a n o; (s, .error o)

/-- Writes bytes of a space for a chain. -/
def State.spWrite (s : State) (d i : Nat) (r : RunTask) (sp a : Nat) (bs : List Byte) : State × Option TaskOut :=
  if !spOk sp true a bs.length then (s, some .opDescErr)
  else
    let s := s.moved d sp a bs.length r
    match sp with
    | 0 => (s.csSt d i a bs, none)
    | 1 => (s.stBytes (memKey (spLintel d) a) bs, none)
    | _ => s.tierWrite (s.whoOf d i r) a bs

/-- What n bytes of a space hold, with no access made. -/
def State.spPeek (s : State) (d i sp a n : Nat) : List Byte :=
  match sp with
  | 0 => s.ldBytes (s.csKey d i a) n
  | 1 => s.ldBytes (memKey (spLintel d) a) n
  | _ => s.ldBytes (frameKey (s.pte (a / 65536)) + a % 65536) n

/-- Steps of a descriptor one after another, until one fails. -/
def mvEach {α : Type} (s : State) (l : List α) (f : State → α → State × Option TaskOut) : State × Option TaskOut :=
  l.foldl (fun acc x => match acc.2 with | some _ => acc | none => f acc.1 x) (s, none)

/-- A read, then what is done with its bytes. -/
def mvThen (r : State × Except TaskOut (List Byte)) (f : State → List Byte → State × Option TaskOut) : State × Option TaskOut :=
  match r with
  | (s, .ok bs) => f s bs
  | (s, .error o) => (s, some o)

/-! ### Capture rings (R93, R94) -/

/-- The row of a channel's ring whose number is q, modulo the ring's 3,072 rows, is one of the 152 oldest, which are never
readable. -/
def State.ringOld (s : State) (c : Nat) (q : Int) : Bool :=
  match s.acq.formed.find? (fun p => p.1 == c) with
  | none => false
  | some p => decide (2920 ≤ (p.2 - 1 - q) % 3072)

/-- Channels and row numbers of the rings that a range of the Lintel store covers. -/
def ringRows (a n : Nat) : List (Nat × Int) :=
  ((List.range ((a % 64 + n + 63) / 64)).map (fun k => a / 64 + k)).filterMap (fun l =>
    if l < 0x06000000 / 64 then some (l / 8192 % 4, ((l / 32768 * 64 + l % 64 : Nat) : Int)) else none)

/-- A read of rows of the rings is discarded where one of them is no longer readable (R94). -/
def State.unlessOld (s : State) (r : RunTask) (rows : List (Nat × Int)) (f : State → State × Option TaskOut) : State × Option TaskOut :=
  if rows.any (fun p => s.ringOld p.1 p.2) then
    (s.ringExpired r.graph (maskOf 4 (fun c => rows.any (fun p => p.1 == c))), none)
  else f s

/-! ### COPY and FILL -/

/-- Units of a COPY or FILL: the source and destination addresses. -/
def MoveDesc.units (m : MoveDesc) : List (Nat × Nat) :=
  (List.range m.count).map (fun k => (m.src + k * m.ss, m.dst + k * m.ds))

/-- The space a tensor's directory and side lists lie in: its end outside the core store, else the destination's. -/
def MoveDesc.tensorSp (m : MoveDesc) : Nat := if m.dstSp ≠ 0 then m.dstSp else m.srcSp

/-- The tensor outside the core store is compressed, with a directory at AUX (R196, R310). -/
def MoveDesc.packed (m : MoveDesc) : Bool := m.dir && (m.srcSp == 0) != (m.dstSp == 0) && m.rec_.fmt.quantised

/-- Writes tile k of the destination tensor at an address; of a compressed tensor in its encoding, with its directory entry. -/
def State.putTile (s : State) (d i : Nat) (r : RunTask) (m : MoveDesc) (a k : Nat) (bs : List Byte) : State × Option TaskOut :=
  if m.packed then
    let (form, e) := encodeTile m.rec_ m.quarter bs
    match s.spWrite d i r m.dstSp a e with
    | (s, some o) => (s, some o)
    | (s, none) => s.spWrite d i r m.dstSp (m.aux + 2 * k) (leBytes 2 (form * 2 ^ 14 + e.length / 16))
  else s.spWrite d i r m.dstSp a bs

/-- Reads tile k of the source tensor at an address; of a compressed tensor the bytes its directory entry names. -/
def State.getTile (s : State) (d i : Nat) (r : RunTask) (m : MoveDesc) (a k : Nat) : State × Except TaskOut (List Byte) :=
  if m.packed then
    match s.spRead d i r m.srcSp (m.aux + 2 * k) 2 with
    | (s, .error o) => (s, .error o)
    | (s, .ok e) =>
      let n := leNat e
      match s.spRead d i r m.srcSp a (min 4096 (16 * (n % 512))) with
      | (s, .error o) => (s, .error o)
      | (s, .ok bs) => (s, .ok (decodeTile m.rec_ (n / 2 ^ 14) bs))
  else s.spRead d i r m.srcSp a 4096

/-- What tile k of the destination tensor holds before it is written. -/
def State.oldTile (s : State) (d i : Nat) (m : MoveDesc) (a k : Nat) : List Byte :=
  if m.packed then
    let n := leNat (s.spPeek d i m.dstSp (m.aux + 2 * k) 2)
    decodeTile m.rec_ (n / 2 ^ 14) (s.spPeek d i m.dstSp a (min 4096 (16 * (n % 512))))
  else s.spPeek d i m.dstSp a 4096

/-- One tile of a COPY of a compressed tensor. -/
def State.copyTile (s : State) (d i : Nat) (r : RunTask) (m : MoveDesc) (k : Nat) (u : Nat × Nat) : State × Option TaskOut :=
  if m.dstSp ≠ 0 then mvThen (s.spRead d i r m.srcSp u.1 m.w) (fun s bs => s.putTile d i r m u.2 k bs)
  else mvThen (s.getTile d i r m u.1 k) (fun s bs => s.spWrite d i r m.dstSp u.2 bs)

/-- Carries one side list of a COPY along: at AUX + 576 × i at the tensor's end, by Config.sideBase in the core store. -/
def State.copySide (s : State) (d i : Nat) (r : RunTask) (m : MoveDesc) (k : Nat) : State × Option TaskOut :=
  let a := m.aux + 576 * k
  if m.dstSp ≠ 0 ∨ m.srcSp = 0 then
    mvThen (s.spRead d i r m.srcSp (if m.srcSp = 0 then sideAt m.src k else a) 520) (fun s bs => s.spWrite d i r m.dstSp a (bs ++ List.replicate 56 0))
  else
    mvThen (s.spRead d i r m.srcSp a 520) (fun s bs => s.spWrite d i r m.dstSp (sideAt m.dst k) (bs ++ List.replicate 56 0))

/-- COPY between spaces. With DIR the tiles of a feature map are encoded on their way out of the core store and decoded on
their way in. -/
def State.mvCopy (s : State) (d i : Nat) (r : RunTask) (m : MoveDesc) : State × Option TaskOut :=
  if (m.dir && m.w != 4096) || !m.units.all (fun u => spOk m.srcSp false u.1 m.w && spOk m.dstSp true u.2 m.w) then (s, some .opDescErr)
  else s.unlessOld r (if m.srcSp = 1 then m.units.flatMap (fun u => ringRows u.1 m.w) else []) (fun s =>
    let res := mvEach s ((List.range m.count).zip m.units) (fun s (k, u) =>
      if m.packed then s.copyTile d i r m k u
      else mvThen (s.spRead d i r m.srcSp u.1 m.w) (fun s bs => s.spWrite d i r m.dstSp u.2 bs))
    match res with
    | (s, some o) => (s, some o)
    | (s, none) =>
      if m.side then mvEach s (List.range ((m.count * m.w + 4095) / 4096)) (fun s k => s.copySide d i r m k) else (s, none))

/-- FILL: what the units are filled with is not stated, so each byte is a free value. -/
def State.mvFill (s : State) (d i : Nat) (r : RunTask) (m : MoveDesc) : State × Option TaskOut :=
  if !m.units.all (fun u => spOk m.dstSp true u.2 m.w) then (s, some .opDescErr)
  else mvEach s m.units (fun s u =>
    (s.drew m.w).spWrite d i r m.dstSp u.2 ((List.range m.w).map (fun k => BitVec.ofNat 8 (Config.freeWord (s.fresh + k)).toNat)))

/-! ### Conversions (R184, R185) -/

/-- Channel blocks of a tensor. -/
def MoveDesc.nb (m : MoveDesc) : Nat := (m.c + m.rec_.fmt.block - 1) / m.rec_.fmt.block

/-- Address of the tile of a 16 × 16 square and a channel block, rows of squares a stride apart; below 0 there is none. -/
def MoveDesc.tileAt (m : MoveDesc) (base stride : Nat) (sy sx : Int) (b : Nat) : Option Nat :=
  let a : Int := base + sy * stride + (sx * m.nb + b) * 4096
  if 0 ≤ a then some a.toNat else none

/-- Number of a tile in its tensor, for its side list (R309). -/
def MoveDesc.tileNo (m : MoveDesc) (sy sx : Int) (b : Nat) : Nat :=
  (((sy * ((m.w + 15) / 16 : Nat) + sx) * m.nb + b)).toNat

/-- Cells of the padded image that the pair's tensor gives: those of the block, and halo cells inside the pair's tile columns and the
grid, which has no end along the strip (R87). -/
def MoveDesc.cellIn (m : MoveDesc) (y x : Int) : Bool :=
  if (0 ≤ y ∧ y < m.h ∧ 0 ≤ x ∧ x < m.w) ∨
      (m.tiled ∧ ¬ (x < 0 ∧ m.edgeL) ∧ ¬ ((m.w : Int) ≤ x ∧ m.edgeR)) then true
  else !Config.haloOut m.at_ y x

/-- Cells of the padded image, by row and column from the block's first pixel. -/
def MoveDesc.cells (m : MoveDesc) : List (Int × Int) :=
  (List.range (m.h + 2 * m.halo)).flatMap (fun (y : Nat) => (List.range (m.w + 2 * m.halo)).map (fun (x : Nat) =>
    ((y : Int) - m.halo, (x : Int) - m.halo)))

/-- Tiles of the source that a conversion reads: square and channel block. -/
def MoveDesc.srcTiles (m : MoveDesc) : List (Int × Int × Nat) :=
  (((m.cells.filter (fun p => m.cellIn p.1 p.2)).map (fun p => (p.1 / 16, p.2 / 16))).eraseDups).flatMap (fun q =>
    (List.range m.nb).filterMap (fun b => (m.tileAt m.src m.ss q.1 q.2 b).map (fun _ => (q.1, q.2, b))))

/-- Reads the source tiles of a conversion. -/
def State.readTiles (s : State) (d i : Nat) (r : RunTask) (m : MoveDesc) :
    State × Except TaskOut (List ((Int × Int × Nat) × List Byte)) :=
  m.srcTiles.foldl (fun acc q => match acc with
    | (s, .error o) => (s, .error o)
    | (s, .ok l) =>
      match s.getTile d i r m ((m.tileAt m.src m.ss q.1 q.2.1 q.2.2).getD 0) (m.tileNo q.1 q.2.1 q.2.2) with
      | (s, .ok bs) => (s, .ok ((q, bs) :: l))
      | (s, .error o) => (s, .error o)) (s, .ok [])

/-- An element on its way: its code and its side value. -/
abbrev MvElem := Nat × Option Word

/-- The side value of an escape code in a list of entries. -/
def MoveDesc.sideVal (m : MoveDesc) (code : Nat) (l : List (Nat × Word)) (idx : Nat) : Option Word :=
  if m.side && m.rec_.esc && codeInt m.rec_.fmt code == escCode m.rec_.fmt then sideFind l idx else none

/-- An element of blocked tiles: channel c of pixel (y, x); cells outside are the zero point. -/
def State.blockedElem (s : State) (d i : Nat) (m : MoveDesc) (tiles : List ((Int × Int × Nat) × List Byte)) (c : Nat) (y x : Int) : MvElem :=
  let f := m.rec_.fmt
  let b := c / f.block
  let idx := ((y % 16).toNat * 16 + (x % 16).toNat) * f.block + c % f.block
  if !m.cellIn y x then (f.code m.rec_.zp, none)
  else match tiles.find? (fun p => p.1 == (y / 16, x / 16, b)) with
    | none => (f.code m.rec_.zp, none)
    | some (_, bs) =>
      let code := elemCode f (lget 0#8 bs) idx
      (code, m.sideVal code (sideParse (s.spPeek d i m.srcSp (m.aux + 576 * m.tileNo (y / 16) (x / 16) b) 520)) idx)

/-- An element of planar planes at SRC in the core store; cells outside are the zero point. -/
def State.planarElem (s : State) (d i : Nat) (m : MoveDesc) (c : Nat) (y x : Int) : MvElem :=
  let f := m.rec_.fmt
  if y < 0 ∨ m.h ≤ y ∨ x < 0 ∨ m.w ≤ x then (f.code m.rec_.zp, none)
  else
    let row := m.src + (c * m.h + y.toNat) * m.ss
    let code := s.elem d i f row x.toNat
    let off := row + f.byteOf x.toNat - m.src
    (code, m.sideVal code (sideParse (s.ldBytes (s.csKey d i (sideAt m.src (off / 4096))) 520))
      (off % 4096 * 8 / f.bits + (if f == .int4 then x.toNat % 2 else 0)))

/-- An element of pixels with their channel blocks at SRC in the core store, as PLANAR_TO_BLOCKED leaves them there; cells outside are
the zero point. -/
def State.pixelElem (s : State) (d i : Nat) (m : MoveDesc) (c : Nat) (y x : Int) : MvElem :=
  let f := m.rec_.fmt
  if y < 0 ∨ m.h ≤ y ∨ x < 0 ∨ m.w ≤ x then (f.code m.rec_.zp, none)
  else
    let row := m.src + y.toNat * m.ss + x.toNat * pixBytes f m.c
    let code := s.elem d i f row c
    let off := row + f.byteOf c - m.src
    (code, m.sideVal code (sideParse (s.ldBytes (s.csKey d i (sideAt m.src (off / 4096))) 520))
      (off % 4096 * 8 / f.bits + (if f == .int4 then c % 2 else 0)))

/-- Where element (c, y, x) of the padded image lies in planar form: the row address and the element, for s² phase planes with
`ph` above 1 (R190). -/
def MoveDesc.planarAt (m : MoveDesc) (ph c : Nat) (y x : Int) : Nat × Nat :=
  let y := (y + m.halo).toNat
  let x := (x + m.halo).toNat
  let rows := (m.h + 2 * m.halo + ph - 1) / ph
  let plane := (y % ph * ph + x % ph) * m.c + c
  (m.dst + (plane * rows + y / ph) * m.ds, x / ph)

/-- Writes an element into a tensor of the core store at DST; the 65th entry of a tile's side list is clamped (R172). -/
def State.mvPut (s : State) (d i : Nat) (m : MoveDesc) (row k : Nat) (e : MvElem) : State :=
  let f := m.rec_.fmt
  match e.2 with
  | none => s.putElem d i f row k e.1
  | some v =>
    let off := row + f.byteOf k - m.dst
    let odd := if f == .int4 then k % 2 else 0
    if s.sideUsed d i f m.dst off odd < 64 then (s.putElem d i f row k e.1).sideAdd d i f m.dst off odd v
    else (s.count d i (fun c => (c.addOvf 1).addSat 1)).putElem d i f row k (f.code (escBound { m.rec_ with esc := true } v))

/-- BLOCKED_TO_PLANAR and PHASE_SPLIT: every element of the padded image goes to its planar place. -/
def State.mvToPlanar (s : State) (d i : Nat) (r : RunTask) (m : MoveDesc) (ph : Nat) : State × Option TaskOut :=
  let core := m.srcSp == 0
  let pixels := core && ph != 1 && Config.splitBlocked m.at_
  let places := (List.range m.c).flatMap (fun c => m.cells.map (fun p => (c, p.1, p.2)))
  let ends := places.map (fun q => let a := m.planarAt ph q.1 q.2.1 q.2.2; a.1 + m.rec_.fmt.byteOf a.2 + max 1 (m.rec_.fmt.bits / 8))
  let tiles := m.srcTiles.map (fun q => (m.tileAt m.src m.ss q.1 q.2.1 q.2.2).getD 0)
  if !csOk m.dst || ends.any (fun e => decide (0x200000 < e)) then (s, some .opDescErr)
  else s.unlessOld r (if m.srcSp = 1 then tiles.flatMap (fun a => ringRows a 4096) else []) (fun s =>
    let got := if core then
        let s := s.csReads d i (if pixels then (List.range m.h).map (fun k => (m.src + k * m.ss, m.w * pixBytes m.rec_.fmt m.c))
          else (List.range (m.c * m.h)).map (fun k => (m.src + k * m.ss, m.rec_.fmt.bytes m.w)))
        if (s.live d i).isNone then (s, .error .coreFault) else (s, .ok [])
      else s.readTiles d i r m
    match got with
    | (s, .error o) => (s, some o)
    | (s, .ok tiles) =>
      let es := places.map (fun (c, y, x) => if pixels then s.pixelElem d i m c y x
        else if core then s.planarElem d i m c y x else s.blockedElem d i m tiles c y x)
      let s := if m.side then s.sideClear d i m.rec_ m.dst (ends.foldl max 0 - m.dst) else s
      (s.each (places.zip es) (fun s ((c, y, x), e) =>
        let a := m.planarAt ph c y x
        s.mvPut d i m a.1 a.2 e), none))

/-- PLANAR_TO_BLOCKED into the core store: pixels row by row, each with its channel blocks. -/
def State.mvToPixels (s : State) (d i : Nat) (m : MoveDesc) (es : List ((Nat × Nat × Nat) × MvElem)) : State × Option TaskOut :=
  let px := pixBytes m.rec_.fmt m.c
  let row (y x : Nat) : Nat := m.dst + y * m.ds + x * px
  if !csOk m.dst || decide (0x200000 < row (m.h - 1) m.w) then (s, some .opDescErr)
  else
    let s := if m.side then s.sideClear d i m.rec_ m.dst (m.h * m.ds) else s
    let s := s.each es (fun s ((c, y, x), e) => s.mvPut d i m (row y x) c e)
    (s.each (List.range m.h) (fun s y => s.each (List.range m.w) (fun s x => s.padPix d i m.rec_ (row y x) m.c)), none)

/-- PLANAR_TO_BLOCKED into the Lintel store: one tile for each square and channel block. Pixels of a square
beyond the block keep what they hold. -/
def State.mvToTile (s : State) (d i : Nat) (r : RunTask) (m : MoveDesc) (es : List ((Nat × Nat × Nat) × MvElem)) (q : Nat × Nat × Nat) :
    State × Option TaskOut :=
  let (sy, sx, b) := q
  let f := m.rec_.fmt
  let a := (m.tileAt m.dst m.ds sy sx b).getD 0
  if !spOk m.dstSp true a 4096 then (s, some .opDescErr)
  else
    let old := s.oldTile d i m a (m.tileNo sy sx b)
    let cell (k : Nat) : Option MvElem :=
      let y := 16 * sy + k / f.block / 16
      let x := 16 * sx + k / f.block % 16
      let c := b * f.block + k % f.block
      if m.h ≤ y ∨ m.w ≤ x then none
      else if m.c ≤ c then some (f.code m.rec_.zp, none)
      else (es.find? (fun p => p.1 == (c, y, x))).map (·.2)
    let l := (List.range (256 * f.block)).map cell
    let sides := ((List.range l.length).zip l).filterMap (fun (k, e) => (e.bind (·.2)).map (fun v => (k, v)))
    let beyond := (sides.drop 64).map (·.1)
    let codes := ((List.range l.length).zip l).map (fun (k, e) => match e with
      | some (c, some v) => if beyond.contains k then f.code (escBound { m.rec_ with esc := true } v) else c
      | some (c, none) => c
      | none => elemCode f (lget 0#8 old) k)
    let s := s.count d i (fun c => (c.addOvf beyond.length).addSat beyond.length)
    match s.putTile d i r m a (m.tileNo sy sx b) (codes.flatMap (fun c => if f.bits < 8 then [] else leBytes (f.bits / 8) c) ++
        (if f.bits < 8 then packBits 4 codes else [])) with
    | (s, some o) => (s, some o)
    | (s, none) =>
      if m.side then s.spWrite d i r m.dstSp (m.aux + 576 * m.tileNo sy sx b) (sideBytes (sides.take 64) ++ List.replicate 56 0)
      else (s, none)

/-- PLANAR_TO_BLOCKED. -/
def State.mvToBlocked (s : State) (d i : Nat) (r : RunTask) (m : MoveDesc) : State × Option TaskOut :=
  if decide (0x200000 < m.src + m.c * m.h * m.ss) then (s, some .opDescErr)
  else
    let s := s.csReads d i ((List.range (m.c * m.h)).map (fun k => (m.src + k * m.ss, m.rec_.fmt.bytes m.w)))
    if (s.live d i).isNone then (s, some .coreFault)
    else
      let es := (List.range m.c).flatMap (fun c => (List.range m.h).flatMap (fun (y : Nat) => (List.range m.w).map (fun (x : Nat) =>
        ((c, y, x), s.planarElem d i m c y x))))
      if m.dstSp = 0 then s.mvToPixels d i m es
      else mvEach s ((List.range ((m.h + 15) / 16)).flatMap (fun sy => (List.range ((m.w + 15) / 16)).flatMap (fun sx =>
        (List.range m.nb).map (fun b => (sy, sx, b))))) (fun s q => s.mvToTile d i r m es q)

/-- n bytes of a tensor's zero point; 0 for INT32, BF16 and FP32. -/
def zeroPointBytes (t : TensorRec) (n : Nat) : List Byte :=
  let z := t.fmt.code t.zp
  List.replicate n (BitVec.ofNat 8 (if t.fmt == .int4 then 17 * z else if t.fmt.quantised then z else 0))

/-- ROW_GATHER: W pixels of H rows and C channels of a capture ring, from the pixel at the Lintel offset SRC on, in the ring's
layout (R93), with a halo of HALO cells on each side from the same ring; a cell outside the pair's tile columns or the grid is the zero
point (R185). Rows that are no longer readable discard the read (R94). -/
def State.mvGather (s : State) (d i : Nat) (r : RunTask) (m : MoveDesc) : State × Option TaskOut :=
  let blk := m.src / 4096
  let c0 := blk / 128 % 4
  let q0 : Int := ((blk / 512 * 64 + m.src % 4096 / 64 : Nat) : Int) - m.halo
  let x0 : Int := ((blk % 128 * 64 + m.src % 64 : Nat) : Int) - m.halo
  let h := m.h + 2 * m.halo
  let w := m.w + 2 * m.halo
  let cols : Int := min 8192 (256 * s.rfld 0x20018 7 0 - 8192 * d : Nat)
  let rows := (List.range m.c).flatMap (fun c => (List.range h).map (fun y => (c, y)))
  let off (c y : Nat) (x : Int) : Nat := ringOff (q0 + y) (c0 + c) (8192 * d + x.toNat) d
  if 0x06000000 ≤ m.src ∨ 4 < c0 + m.c ∨ 8192 < x0 + m.halo + m.w ∨ 0x200000 < m.dst + (m.c * h - 1) * m.ds + w then (s, some .opDescErr)
  else s.unlessOld r (rows.map (fun p => (c0 + p.1, q0 + (p.2 : Int)))) (fun s =>
    let s := s.moved d 1 m.src (m.c * h * w) r
    let (s, bad) := rows.foldl (fun (acc : State × Bool) p =>
      (List.range ((w + 126) / 64)).foldl (fun (acc : State × Bool) (k : Nat) =>
        let lo := max (max x0 0) ((x0 / 64 + k) * 64)
        let hi := min (min (x0 + w) (max cols (x0 + m.halo + m.w))) ((x0 / 64 + k + 1) * 64)
        let (s, b) := if lo < hi then acc.1.eccRead (memKey (spLintel d) (off p.1 p.2 lo)) (hi - lo).toNat else (acc.1, false)
        (s, acc.2 || b)) acc) (s, false)
    if bad then (s, some .memFault)
    else (s.each rows (fun s (c, y) => s.csSt d i (m.dst + (c * h + y) * m.ds)
      ((List.range w).map (fun (k : Nat) =>
        let x := x0 + k
        if (k < m.halo ∨ m.halo + m.w ≤ k) ∧ (x < 0 ∨ cols ≤ x) then lget 0 (zeroPointBytes m.rec_ 1) 0 else s.ldB (memKey (spLintel d) (off c y x))))), none))

/-! ### Chains -/

/-- Destination rows of a descriptor in the core store: the address and the bytes of each. -/
def MoveDesc.dstRows (m : MoveDesc) : List (Nat × Nat) :=
  let f := m.rec_.fmt
  let planes (ph : Nat) : List (Nat × Nat) :=
    let rows := (m.h + 2 * m.halo + ph - 1) / ph
    (List.range (ph * ph * m.c * rows)).map (fun k => (m.dst + k * m.ds, f.bytes ((m.w + 2 * m.halo + ph - 1) / ph)))
  match m.op with
  | 2 => planes 1
  | 3 => planes m.phase
  | 4 => (List.range m.h).map (fun y => (m.dst + y * m.ds, m.w * pixBytes f m.c))
  | 5 => (List.range (m.c * (m.h + 2 * m.halo))).map (fun k => (m.dst + k * m.ds, m.w + 2 * m.halo))
  | _ => m.units.map (fun u => (u.2, m.w))

/-- The 32-byte words of the core store that a descriptor writes. -/
def MoveDesc.words (m : MoveDesc) : List Nat :=
  if m.dstSp ≠ 0 then []
  else ((m.dstRows.flatMap (fun p => (List.range ((p.1 % 32 + p.2 + 31) / 32)).map (fun k => p.1 / 32 * 32 + 32 * k))).filter
    (fun a => decide (a < 0x200000))).eraseDups

/-- Words of the core store that chain k has changed, with no barrier since (R186): what they held in `s0` is kept. -/
def State.races (s s0 : State) (d i k : Nat) (words : List Nat) : State :=
  s.updRun d i (fun r =>
    let new := (words.filter (fun a => !r.racing.any (fun w => w.2.1 == a))).map (fun a => (k, a, s0.ldBytes (s0.csKey d i a) 32))
    { r with racing := new.filter (fun w => s.ldBytes (s.csKey d i w.2.1) 32 != w.2.2) ++ r.racing })

/-- The running chain whose next descriptor lies at an address. -/
def RunTask.chainAt (r : RunTask) (addr : Nat) : Option (Nat × ChainRun) :=
  (List.range 4).findSome? (fun k => match lget none r.chains k with
    | some c => if c.next = addr then some (k, c) else none
    | none => none)

/-- A chain goes on behind a descriptor, or ends with it; the 256th descriptor must be the last. -/
def State.chainNext (s : State) (d i k : Nat) (c : ChainRun) (last : Bool) : State :=
  if !last && decide (c.left ≤ 1) then s.finish d i .opDescErr
  else s.updRun d i (fun r => { r with chains := lmod r.chains k (fun _ =>
    if last then none else some { next := c.next + 64, left := c.left - 1, start := c.start }) })

/-- Carries out the descriptor of an operation at an address, when it is the next of a running chain. With FENCE set it waits for
the bursts of the descriptors before it. -/
def State.moverRun (s : State) (d i addr op : Nat) (r : RunTask)
    (f : State → RunTask → MoveDesc → State × Option TaskOut) : State :=
  match r.chainAt addr with
  | none => s
  | some (k, c) =>
    if s.cs d i addr 1 % 16 ≠ op ∧ s.cs d i addr 1 % 16 ≤ 6 ∧ s.cs d i addr 1 % 16 ≠ 0 then s
    else
      let s := s.csReads d i [(addr, 64)]
      match s.live d i with
      | none => s
      | some r => match s.moveDesc d i addr r with
        | .error o => s.finish d i o
        | .ok m =>
          if m.fence && s.burstsWait d i then s
          else
            let res := if m.empty then (s, none) else f s r m
            match res.2 with
            | some o => res.1.finish d i o
            | none =>
              if (res.1.live d i).isNone then res.1
              else if m.empty then res.1.chainNext d i k c m.last
              else ((res.1.races s d i k m.words).moves d i).chainNext d i k c m.last

/-- A tile-mover command. -/
def onMove (t d i addr op : Nat) (s : State) (f : State → RunTask → MoveDesc → State × Option TaskOut) : Out :=
  onTask t d i s (fun s r => s.moverRun d i addr op r f)

/-- COPY (R310). -/
def execCopy (t die slot addr : Nat) (s : State) : Out := onMove t die slot addr 1 s (fun s r m => s.mvCopy die slot r m)
/-- BLOCKED_TO_PLANAR. -/
def execBlockedToPlanar (t die slot addr : Nat) (s : State) : Out := onMove t die slot addr 2 s (fun s r m => s.mvToPlanar die slot r m 1)
/-- PHASE_SPLIT. -/
def execPhaseSplit (t die slot addr : Nat) (s : State) : Out :=
  onMove t die slot addr 3 s (fun s r m => s.mvToPlanar die slot r m m.phase)
/-- PLANAR_TO_BLOCKED. -/
def execPlanarToBlocked (t die slot addr : Nat) (s : State) : Out := onMove t die slot addr 4 s (fun s r m => s.mvToBlocked die slot r m)
/-- ROW_GATHER. -/
def execRowGather (t die slot addr : Nat) (s : State) : Out := onMove t die slot addr 5 s (fun s r m => s.mvGather die slot r m)
/-- FILL. -/
def execFill (t die slot addr : Nat) (s : State) : Out := onMove t die slot addr 6 s (fun s r m => s.mvFill die slot r m)

/-! ### Deadlines (R311) -/

/-- CHAIN_DEADLINE: a descriptor that has not completed by its DEADLINE. -/
def execChainDeadline (t die slot chain : Nat) (s : State) : Out :=
  onTask t die slot s (fun s r =>
    match lget none r.chains chain with
    | none => s
    | some c =>
      let dl := s.cs die slot (c.next + 32) 2
      if dl = 0 ∨ c.late ∨ s.cycles < c.start + 256 * dl then s
      else match s.moveDesc die slot c.next r with
        | .error o => s.finish die slot o
        | .ok m =>
          let s := (s.bump 0x60038).raise evMem 2
          let s := s.updRun die slot (fun r => { r with chains := lmod r.chains chain (fun o => o.map (fun x => { x with late := true })) })
          if m.late = 1 then s.updBond (fun b => { b with signalLate := true })
          else if m.late = 2 then
            let s := s.each m.dstRows (fun s p => s.csSt die slot p.1 (zeroPointBytes m.rec_ p.2))
            (s.updRun die slot (fun r => { r with tierSubst := true })).chainNext die slot chain c m.last
          else s)

end Sys2Proof.Machine
end

