-- ==== Sys2Proof/Machine/StreamOps.lean ====
section
/-!
DEFINITION. The stream operators (R226 to R238): LSCAN, GCELL, BISCAN and BIND, with their reset points.
-/
namespace Sys2Proof.Machine

/-! ### Descriptors (R233) -/

/-- A stream operator's descriptor. -/
structure StreamDesc where
  resetIn : Bool
  markReset : Bool
  tanhU : Bool
  steps : Nat
  ctx : Nat
  pitch : Nat
  d : Nat
  look : Nat
  wRec : Nat
  hRec : Nat
  ofs : Nat
  inAt : Nat
  out : Nat
  w : Nat
  stateCs : Nat
  deriving DecidableEq, Repr, Inhabited

/-- Reads and checks a descriptor. The chunk it carries is the one the task was dispatched with (R221). -/
def State.streamDesc (s : State) (d i addr : Nat) (r : RunTask) (op : Nat) : Except TaskOut (StreamDesc × ChunkInfo) := do
  let f (o n : Nat) : Nat := s.cs d i (addr + o) n
  let b1 := f 1 1
  let ctx := f 4 4
  let bind := op == 0x13
  need (b1 % 16 = 0 && b1 / 16 % 4 ≤ 1 && f 2 2 ≤ 1024 && ctx < 0x40000 && 1 ≤ f 16 4 && f 16 4 < 2 ^ 31)
  need (bind || f 20 2 ≤ 4096)
  need (op != 0x12 || (1 ≤ f 22 1 && f 22 1 ≤ 16))
  need (b1 < 128 || f 2 2 = 0 || f 24 2 < f 2 2)
  need (f 26 2 = 0 && f 44 4 = 0 && f 48 8 = 0 && f 56 8 = 0 && [f 28 4, f 32 4, f 36 4, f 40 4].all csOk)
  need (s.ctxOk ctx && ctxDie ctx = d && s.ctxFlag ctx 7)
  need (s.ctx ctx 8 2 = 0 || bind || 4 * f 20 2 ≤ s.ctxBytes ctx)
  match r.chunk with
  | none => throw .opDescErr
  | some ch =>
    need (ch.ctx = ctx)
    need (s.ctx ctx 8 2 = 0 || s.streamOn d) .streamOff
    pure ({
      resetIn := bitOf b1 7, markReset := bitOf b1 6, tanhU := b1 / 16 % 4 == 1, steps := f 2 2, ctx := ctx, pitch := f 16 4,
      d := f 20 2, look := f 22 1, wRec := f 23 1 / 16, hRec := f 23 1 % 16, ofs := f 24 2, inAt := f 28 4, out := f 32 4,
      w := f 36 4, stateCs := f 40 4 }, ch)

/-- The chunk has no step, no state, or no element. -/
def State.streamEmpty (s : State) (v : StreamDesc) (bind : Bool) : Bool :=
  v.steps == 0 || s.ctx v.ctx 8 2 == 0 || (!bind && v.d == 0)

/-! ### State of a context -/

/-- FP32 words of bytes. -/
def wordsOf (bs : List Byte) : List Word := (chunks 4 (bs.length / 4) bs).map (fun c => wordOf (leNat c))

/-- The bytes of FP32 words. -/
def bytesOf (l : List Word) : List Byte := l.flatMap (fun w => leBytes 4 w.toNat)

/-- The reset state of a context: INIT_ADDR's, or zeros (R230). -/
def State.resetState (s : State) (c : Nat) : State × Except TaskOut (List Byte) :=
  let a := s.ctx c 4 4
  if a = 0 then (s, .ok (List.replicate (s.ctxBytes c) 0)) else s.tierRead (s.ctxWho c) a (s.ctxBytes c)

/-- The state in the context's slot; where it cannot be read, FAULT and RESET_PENDING are set (R219). -/
def State.slotState (s : State) (c : Nat) : State × Except TaskOut (List Byte) :=
  let k := s.slotKey (ctxDie c) (s.ctx c 10 2)
  let (s, bad) := s.eccRead k (s.ctxBytes c)
  if bad then (s.ctxFault c, .error .memFault) else (s, .ok (s.ldBytes k (s.ctxBytes c)))

/-- Steps of the look-ahead of a chunk that posted marks split (R236, R237). -/
def State.lookMarks (s : State) (v : StreamDesc) (ch : ChunkInfo) : List Nat :=
  let done := (s.streamAt (ctxDie v.ctx)).applied
  if v.markReset && s.ctxFlag v.ctx 0 then
    (((s.streamAt (ctxDie v.ctx)).marks.filter (fun m => !done.contains (v.ctx, m.id) && decide (ch.sp0 < m.sp))).map (fun m =>
      ((m.sp - ch.sp0 + v.pitch - 1) / (v.pitch : Int)).toNat)).filter (fun q => decide (v.steps ≤ q ∧ q < v.steps + v.look))
  else []

/-- Runs a stream operator on its carried state, its reset state and its reset points: `f` gives the outputs' change of the
state and the bytes carried on. The marks it takes are applied when the chunk completes OK. -/
def State.streamRun (s : State) (d i : Nat) (v : StreamDesc) (ch : ChunkInfo)
    (f : State → List Byte → List Byte → List Nat → State × List Byte) : State :=
  let pend := (s.runAt d i).any (fun r => r.resetAt)
  let (pts, late, ids) := s.resetPoints ch v.pitch v.markReset pend (if v.resetIn then some v.ofs else none)
  let (s, init) := if pts.isEmpty then (s, Except.ok []) else s.resetState v.ctx
  match init with
  | .error o => s.finish d i o
  | .ok init =>
    let (s, st) := if pts.contains 0 then (s, Except.ok init) else s.slotState v.ctx
    match st with
    | .error o => s.finish d i o
    | .ok st =>
      let (s, carry) := f s st init pts
      s.updRun d i (fun r => { r with carry := if carry.isEmpty then r.carry else some carry, resets := some (late, ids) })

/-! ### LSCAN (R234) -/

/-- One step of one element: h from h_prev, pa and pu. -/
def scanStep (c : RClass) (tanhU : Bool) (h pa pu : Word) : Word :=
  let a := spSigm pa
  let u := if tanhU then spTanh pu else pu
  ffma c a h (fmul c (fsub c 0x3F800000#32 a) u)

/-- The steps of one element one after another from step t: reset points start from the reset state. -/
def scanSeq (c : RClass) (tanhU : Bool) (init : Word) (pts : List Nat) : Nat → Word → List (Word × Word) → List Word
  | _, _, [] => []
  | t, h, (pa, pu) :: l =>
    let h := scanStep c tanhU (if pts.contains t then init else h) pa pu
    h :: scanSeq c tanhU init pts (t + 1) h l

/-- A and B of a group of steps from step t (R234): a reset point restarts them with A = 0. -/
def scanGroup (c : RClass) (tanhU : Bool) (init : Word) (pts : List Nat) : Nat → Word → Word → List (Word × Word) → Word × Word
  | _, a, b, [] => (a, b)
  | t, a, b, (pa, pu) :: l =>
    let r := pts.contains t
    let b := scanStep c tanhU (if r then init else b) pa pu
    let a := if r then 0#32 else fmul c a (spSigm pa)
    scanGroup c tanhU init pts (t + 1) a b l

/-- The groups' inputs chained in increasing order, and the steps of each from its own input. -/
def scanGroups (c : RClass) (tanhU : Bool) (init : Word) (pts : List Nat) (len : Nat) : Nat → Nat → Word → List (Word × Word) → List Word
  | 0, _, _, _ => []
  | n + 1, t, h, l =>
    let g := l.take len
    let (a, b) := scanGroup c tanhU init pts t 0x3F800000#32 0#32 g
    scanSeq c tanhU init pts t h g ++ scanGroups c tanhU init pts len n (t + len) (ffma c a h b) (l.drop len)

/-- The scan of one element of D over its (pa, pu): sequential for D of 64 and above, in groups below. -/
def scanElem (c : RClass) (tanhU : Bool) (dim : Nat) (init h : Word) (pts : List Nat) (l : List (Word × Word)) : List Word :=
  if 64 ≤ dim then scanSeq c tanhU init pts 0 h l
  else
    let g := 2 ^ Nat.log2 (64 / max 1 dim)
    let len := (l.length + g - 1) / g
    scanGroups c tanhU init pts (max 1 len) g 0 h l

/-- FP32 word at an address of the core store. -/
def State.csW (s : State) (d i a : Nat) : Word := wordOf (s.cs d i a 4)

/-- Inputs of element e, from word `ofs` of each step of `per` words. -/
def State.scanIn (s : State) (d i : Nat) (v : StreamDesc) (n per ofs e : Nat) : List (Word × Word) :=
  (List.range n).map (fun t => (s.csW d i (v.inAt + 4 * (t * per + ofs + e)), s.csW d i (v.inAt + 4 * (t * per + ofs + v.d + e))))

/-- The state's bytes with its first words replaced. -/
def carryBytes (st : List Byte) (h : List Word) : List Byte := bytesOf h ++ st.drop (4 * h.length)

/-- What LSCAN does, once its descriptor is read and lies in its ranges. -/
def State.lscanOp (s : State) (die slot addr : Nat) (r : RunTask) : Except TaskOut OpDo := do
  let (v, ch) ← s.streamDesc die slot addr r 0x10
  pure {
    empty := s.streamEmpty v false
    reads := [(v.inAt, 8 * v.steps * v.d)]
    run := fun s => if s.streamEmpty v false then s else s.streamRun die slot v ch (fun s st init pts =>
      let outs := (List.range v.d).map (fun e => scanElem r.cls v.tanhU v.d (lget 0#32 (wordsOf init) e)
        (lget 0#32 (wordsOf st) e) pts (s.scanIn die slot v v.steps (2 * v.d) 0 e))
      (s.each (List.range v.steps) (fun s t => s.csSt die slot (v.out + 4 * t * v.d) (bytesOf (outs.map (fun l => lget 0#32 l t)))),
        carryBytes st (outs.map (fun l => lget 0#32 l (v.steps - 1))))) }

/-- LSCAN. -/
def execLscan (t die slot addr : Nat) (s : State) : Out :=
  onTask t die slot s (fun s r => s.operate die slot addr 0x10 r (fun s r => s.lscanOp die slot addr r))

/-! ### GCELL (R235) -/

/-- One row of W times the quantised h, corrected and dequantised with one rounding; in a block of 64 outputs with an escape the sums
are formed in FP32 (R120, R173). -/
def gcellRow (c : RClass) (hr wr : TensorRec) (esc : Bool) (x w : List Operand) : Word :=
  let zx := feedZp hr
  let zw := feedZp wr
  let acc := (List.zipWith (fun a b => (a.code - zx) * (b.code - zw)) x w).sum
  let es := chainEscs zx zw (x.zip w)
  match fval hr.scale, fval wr.scale with
  | .fin _ m1 e1, .fin _ m2 e2 =>
    if !esc then fround c (decide (acc < 0)) (acc.natAbs * m1 * m2) (e1 + e2)
    else
      let f := es.foldl (fun z (e, o, inA) => fadd c z (fmul c (fmul c e (spRecip (if inA then hr.scale else wr.scale))) (ofInt c o))) (ofInt c acc)
      match fval f with
      | .fin n m e => fround c n (m * m1 * m2) (e + e1 + e2)
      | _ => f
  | _, _ => genNan

/-- The vector buffer's content for h (R120, R176): each element quantised by the record, with the escapes its tile takes (R172), as it
is fed; its code; the counts. -/
def gcellQuant (c : RClass) (hr : TensorRec) : Nat → Nat → ArithCnt → List Word → List (Operand × Int) × ArithCnt
  | _, _, cnt, [] => ([], cnt)
  | k, used, cnt, v :: l =>
    let o := quantOut c hr v
    let (code, side, cnt) := escapeTake hr used o.1 (cnt.addNan (b2n o.2))
    let x : Operand := match side with
      | some e => { code := feedCode hr.fmt hr.zp, esc := some e, idx := k }
      | none => { code := feedCode hr.fmt code, idx := k }
    let (rest, cnt) := gcellQuant c hr (k + 1) (used + b2n side.isSome) cnt l
    ((x, code) :: rest, cnt)

/-- What the steps of GCELL leave: the outputs, last first, the counts, and the codes in the vector buffer. -/
structure GcellRes where
  outs : List (List Word) := []
  cnt : ArithCnt := {}
  buf : List Int := []

/-- The steps of GCELL, from step t; `wEsc` tells the blocks of 64 rows of W that hold an escape. -/
def gcellSteps (c : RClass) (dim : Nat) (hr wr : TensorRec) (w : List (List Operand)) (wEsc : List Bool) (init : List Word)
    (pts : List Nat) : Nat → List Word → List (List Word) → GcellRes → GcellRes
  | _, _, [], acc => acc
  | t, h, p :: l, acc =>
    let h := if pts.contains t then init else h
    let (q, cnt) := gcellQuant c hr 0 0 acc.cnt ((List.range dim).map (fun e => lget 0#32 h e))
    let x := q.map (·.1)
    let hEsc := x.any (fun o => o.esc.isSome)
    let row (k : Nat) : Word := gcellRow c hr wr (hEsc || lget false wEsc (k / 64)) x (lget [] w k)
    let h := (List.range dim).map (fun e =>
      let z := spSigm (fadd c (lget 0#32 p e) (row e))
      let r := spSigm (fadd c (lget 0#32 p (dim + e)) (row (dim + e)))
      let n := spTanh (fadd c (lget 0#32 p (2 * dim + e)) (fmul c r (row (2 * dim + e))))
      ffma c z (fsub c (lget 0#32 h e) n) n)
    gcellSteps c dim hr wr w wEsc init pts (t + 1) h l { outs := h :: acc.outs, cnt := cnt, buf := q.map (·.2) }

/-- What GCELL does, once its descriptor is read and lies in its ranges. -/
def State.gcellOp (s : State) (die slot addr : Nat) (r : RunTask) : Except TaskOut OpDo := do
  let (v, ch) ← s.streamDesc die slot addr r 0x11
  let wr ← s.tensorAt die slot r v.wRec
  let hr ← s.tensorAt die slot r v.hRec
  need ((hr.fmt == .int8 || hr.fmt == .uint8) && wr.fmt.quantised) .arithDescErr
  pure {
    empty := s.streamEmpty v false
    reads := [(v.inAt, 12 * v.steps * v.d), (v.w, wr.fmt.bytes (3 * v.d * v.d))]
    run := fun s => if s.streamEmpty v false then s else s.streamRun die slot v ch (fun s st init pts =>
      let w := (List.range (3 * v.d)).map (fun k => (List.range v.d).map (fun e => s.fed die slot wr v.w v.w (k * v.d + e)))
      let p := (List.range v.steps).map (fun t => (List.range (3 * v.d)).map (fun e => s.csW die slot (v.inAt + 4 * (3 * t * v.d + e))))
      let wEsc := (List.range ((3 * v.d + 63) / 64)).map (fun b =>
        (List.range 64).any (fun k => (lget [] w (64 * b + k)).any (fun o => o.esc.isSome)))
      let res := gcellSteps r.cls v.d hr wr w wEsc (wordsOf init) pts 0 (wordsOf st) p { cnt := escCounts w.flatten {} }
      let s := (s.count die slot (fun k => k.join res.cnt)).updCore die (s.coreOf die slot) (fun k =>
        { k with mvBuf := (List.range res.buf.length).map (fun e => (e, BitVec.ofInt 8 (lget 0 res.buf e))) })
      let outs := res.outs.reverse
      (s.each ((List.range outs.length).zip outs) (fun s (t, l) => s.csSt die slot (v.out + 4 * t * v.d) (bytesOf l)),
        carryBytes st (lget [] res.outs 0))) }

/-- GCELL. The matrix-vector unit's blocks of 64 drain behind those that the drain queue holds (R115, R120), so it waits for them, and
drains within the command. -/
def execGcell (t die slot addr : Nat) (s : State) : Out :=
  onTask t die slot s (fun s r =>
    if (s.coreAt die (s.coreOf die slot)).drainQ.isEmpty then
      s.operate die slot addr 0x11 r (fun s r => s.gcellOp die slot addr r)
    else s)

/-! ### BISCAN (R236) -/

/-- What BISCAN does, once its descriptor is read and lies in its ranges. -/
def State.biscanOp (s : State) (die slot addr : Nat) (r : RunTask) : Except TaskOut OpDo := do
  let (v, ch) ← s.streamDesc die slot addr r 0x12
  let n := v.steps + v.look
  pure {
    empty := s.streamEmpty v false
    reads := [(v.inAt, 16 * n * v.d)]
    run := fun s => if s.streamEmpty v false then s else
      let look := s.lookMarks v ch
      s.streamRun die slot v ch (fun s st init pts =>
        let pts := pts ++ look
        let init := if init.isEmpty then [] else wordsOf init
        let fwd := (List.range v.d).map (fun e => scanElem r.cls v.tanhU v.d (lget 0#32 init e)
          (lget 0#32 (wordsOf st) e) pts (s.scanIn die slot v n (4 * v.d) 0 e))
        let bpts := (pts.filter (fun q => decide (1 ≤ q))).map (fun q => n - q)
        let bwd := (List.range v.d).map (fun e => (scanElem r.cls v.tanhU v.d 0#32 0#32 bpts
          (s.scanIn die slot v n (4 * v.d) (2 * v.d) e).reverse).reverse)
        (s.each (List.range v.steps) (fun s t => s.csSt die slot (v.out + 8 * t * v.d)
            (bytesOf (fwd.map (fun l => lget 0#32 l t)) ++ bytesOf (bwd.map (fun l => lget 0#32 l t)))),
          carryBytes st (fwd.map (fun l => lget 0#32 l (v.steps - 1))))) }

/-- BISCAN. -/
def execBiscan (t die slot addr : Nat) (s : State) : Out :=
  onTask t die slot s (fun s r => s.operate die slot addr 0x12 r (fun s r => s.biscanOp die slot addr r))

/-! ### BIND (R238) -/

/-- What BIND does, once its descriptor is read and lies in its ranges. -/
def State.bindOp (s : State) (die slot addr : Nat) (r : RunTask) : Except TaskOut OpDo := do
  let (v, ch) ← s.streamDesc die slot addr r 0x13
  pure {
    empty := s.streamEmpty v true
    run := fun s => if s.streamEmpty v true then s else
      (s.streamRun die slot v ch (fun s st _ _ => (s.csSt die slot v.stateCs st, []))).updRun die slot
        (fun r => { r with bindAt := some v.stateCs }) }

/-- BIND: the state goes into the core store, and comes back when the task completes OK. -/
def execBind (t die slot addr : Nat) (s : State) : Out :=
  onTask t die slot s (fun s r => s.operate die slot addr 0x13 r (fun s r => s.bindOp die slot addr r))

end Sys2Proof.Machine
end

