-- ==== Sys2Proof/Machine/Kv.lean ====
section
/-!
DEFINITION. The attention and adaptation operators (R252 to R275): KV_APPEND, ATTN with its partial tasks and their merge,
ATTN_BWD, ADAPT_ACCUM, ADAPT_STEP, the commit of an epoch, and the KV registers and commands (R277 to R280).
-/
namespace Sys2Proof.Machine

/-! ### Accesses of an operator -/

/-- Reads n bytes of the pair's Lintel store for an operator. -/
def State.linGet (s : State) (d i : Nat) (r : RunTask) (a n : Nat) : State × Except TaskOut (List Byte) :=
  if n = 0 then (s, .ok []) else s.spRead d i r 1 a n

/-- A page's data and scale bytes; a page that cannot be read gets FAULT and PAGE_FAULT is raised (R267), and gives none. -/
def State.kvPageGet (s : State) (d i : Nat) (r : RunTask) (n data scale : Nat) : State × Except TaskOut (Option (List Byte × List Byte)) :=
  let get (s : State) (a m : Nat) : State × Except TaskOut (List Byte) :=
    (s.moved d 2 a m r).tierRead { s.whoOf d i r with kv := some n } a m
  let bad (s : State) (o : TaskOut) : State × Except TaskOut (Option (List Byte × List Byte)) :=
    if o = .memUnmapped then (s, .error o)
    else ((s.pageSt d n { s.pageD d n with fault := true }).raise (evKv d) 5, .ok none)
  if (s.pageD d n).fault then (s, .ok none)
  else match get s (s.kvDataAt d n) data with
    | (s, .error o) => bad s o
    | (s, .ok x) => match get s (s.kvScaleAt d n) scale with
      | (s, .error o) => bad s o
      | (s, .ok y) => (s, .ok (some (x, y)))

/-- Bytes of a page's data and of its scales. -/
def pageData (dim : Nat) (q4 : Bool) : Nat := (if q4 then 32 else 64) * dim
def pageScale (dim : Nat) : Nat := 8 * dim

/-- An FP32 number that is not finite. -/
def notFinite (w : Word) : Bool := isNan w || isInf w

/-- Format of KV codes. -/
def kvFmt (q4 : Bool) : Fmt := if q4 then .int4 else .int8

/-- Element index of position j, element k in a page: keys dim-major, values position-major (R248). -/
def kvIdx (kind dim j k : Nat) : Nat := if kind = 0 then k * 64 + j else j * dim + k

/-- A block's record: S as FP32, Z and VALID (R249). -/
def blockRec (scale : List Byte) (dim j b : Nat) : Word × Int × Bool :=
  let w := leAt scale (4 * (j * (dim / 32) + b)) 4
  (bf16Word (w / 2 ^ 16), signedOf 8 (w / 2 ^ 8), w % 2 == 1)

/-! ### KV_APPEND (R252 to R257) -/

/-- S, Z and the codes of a block of 32 values (R253). -/
def quantBlock (c : RClass) (q4 : Bool) (x : List Word) : Word × Int × List Int :=
  let lo := x.foldl fmin 0#32
  let hi := x.foldl fmax 0#32
  let qmin := (kvFmt q4).lo
  let qmax := (kvFmt q4).hi
  let s := if feq hi lo then 0x3F800000#32 else toBf16 c (fdiv c (fsub c hi lo) (ofInt c (qmax - qmin)))
  let rs := spRecip s
  let rnd (w : Word) : Int := (toInt c (-2147483648) 2147483647 w).val
  let z := clampInt qmin qmax (qmin - rnd (fmul c lo rs))
  (s, z, x.map (fun w => clampInt qmin qmax (rnd (fmul c w rs) + z)))

/-- Writes one vector of a position into a page: its blocks' records and its codes. -/
def State.kvPutVec (s : State) (d i : Nat) (r : RunTask) (n kind dim j : Nat) (q4 : Bool) (valid : Bool)
    (blocks : List (Word × Int × List Int)) : State × Option TaskOut :=
  let f := kvFmt q4
  let w := s.whoOf d i r
  let codes := (blocks.map (fun b => b.2.2)).flatten
  let recs := blocks.flatMap (fun b => leBytes 4 (bf16Code b.1 * 2 ^ 16 + codeOf 8 b.2.1 * 2 ^ 8 + b2n valid))
  let scaleAt := s.kvScaleAt d n + 4 * j * (dim / 32)
  match (s.moved d 2 scaleAt recs.length r).tierWrite w scaleAt recs with
  | (s, some o) => (s, some o)
  | (s, none) =>
    let base := s.kvDataAt d n
    let s := s.moved d 2 base (f.bytes dim) r
    mvEach s ((List.range codes.length).zip codes) (fun s (k, c) =>
      let idx := kvIdx kind dim j k
      if q4 then
        let a := base + idx / 2
        let old := (s.spPeek d i 2 a 1).foldl (fun _ b => b.toNat) 0
        let v := f.code c
        s.tierWrite w a (leBytes 1 (if idx % 2 = 0 then old / 16 * 16 + v else old % 16 + 16 * v))
      else s.tierWrite w (base + idx) (leBytes 1 (f.code c)))

/-- What a new page's data frame holds once the first `fill` positions of another are copied into it (R254). -/
def firstPositions (kind dim fill : Nat) (q4 : Bool) (src dst : List Byte) : List Byte :=
  let pos (e : Nat) : Nat := if kind = 0 then e % 64 else e / dim
  (List.range src.length).map (fun b =>
    let x := lget 0#8 src b
    let y := lget 0#8 dst b
    if q4 then
      let lo := if pos (2 * b) < fill then x else y
      let hi := if pos (2 * b + 1) < fill then x else y
      (lo &&& 0x0F#8) ||| (hi &&& 0xF0#8)
    else if pos b < fill then x else y)

/-- The page that slot `fill` of a list entry is written in: the page itself, or its copy (R254). A copy of a page that cannot be
read has VALID 0. -/
def State.kvWritable (s : State) (d i : Nat) (r : RunTask) (q h kind k fill : Nat) : State × Except TaskOut Nat :=
  let dim := dimOf (s.seqDim q)
  let q4 := s.seqQ4 q
  let fresh (s : State) : State × Option Nat := s.pageTake d kind (s.seqDim q) q4
  if fill = 0 then
    match fresh s with
    | (s, none) => (s, .error .kvNospace)
    | (s, some n) => (s.listSet q h kind k (some n), .ok n)
  else match s.listPage q h kind k with
    | none => (s, .error .kvNospace)
    | some old =>
      let p := s.pageD d old
      if p.ref = 1 ∧ p.fill = fill ∧ !p.fault then (s, .ok old)
      else match fresh s with
        | (s, none) => (s, .error .kvNospace)
        | (s, some n) =>
          let (s, got) := s.kvPageGet d i r old (pageData dim q4) (pageScale dim)
          match got with
          | .error o => (s, .error o)
          | .ok got =>
            let (data, scale) : List Byte × List Byte := match got with
              | some (x, y) => (x, y)
              | none => (s.spPeek d i 2 (s.kvDataAt d old) (pageData dim q4),
                  (chunks 4 (16 * dim) (s.spPeek d i 2 (s.kvScaleAt d old) (pageScale dim))).flatMap (fun w => leBytes 4 (leNat w / 2 * 2)))
            let w := s.whoOf d i r
            let data := firstPositions kind dim fill q4 data (s.spPeek d i 2 (s.kvDataAt d n) data.length)
            match s.tierWrite w (s.kvDataAt d n) data with
            | (s, some o) => (s, .error o)
            | (s, none) => match s.tierWrite w (s.kvScaleAt d n) (scale.take (4 * fill * (dim / 32))) with
              | (s, some o) => (s, .error o)
              | (s, none) =>
                let s := (s.pageSt d n { s.pageD d n with fill := fill }).listSet q h kind k (some n)
                ((s.pageUnref d old).bump (bKv d + 0x6C), .ok n)

/-- A block of an invalid position (R253): every code equals its zero point. For values that are all finite S and Z are those of the
rule; else they are not stated: a positive normal S and a Z within the code range, by a free word. -/
def blankBlock (c : RClass) (q4 : Bool) (free : Word) (x : List Word) : Word × Int × List Int :=
  let n := free.toNat
  let (s, z, _) := if x.any notFinite then
      (bf16Word ((n / 2 ^ 16 % 254 + 1) * 2 ^ 7 + n / 2 ^ 8 % 2 ^ 7), signedOf (if q4 then 4 else 8) n, [])
    else quantBlock c q4 x
  (s, z, List.replicate 32 z)

/-- Appends one vector: position p of a head and a kind. -/
def State.kvPut (s : State) (d i : Nat) (r : RunTask) (q p h kind : Nat) (x : List Word) (valid : Bool) : State × Option TaskOut :=
  let dim := dimOf (s.seqDim q)
  let q4 := s.seqQ4 q
  match s.kvWritable d i r q h kind (p / 64) (p % 64) with
  | (s, .error o) => (s, some o)
  | (s, .ok n) =>
    let xs := chunks 32 (dim / 32) x
    let blocks := if valid then xs.map (quantBlock r.cls q4)
      else ((List.range xs.length).zip xs).map (fun (k, b) => blankBlock r.cls q4 (Config.freeWord (s.fresh + k)) b)
    let s := if valid then s else s.drew xs.length
    match s.kvPutVec d i r n kind dim (p % 64) q4 valid blocks with
    | (s, some o) => (s, some o)
    | (s, none) => (s.pageSt d n { s.pageD d n with fill := p % 64 + 1 }, none)

/-- Appends the positions of an input, in order of position, head, key then value. -/
def State.kvAppendAll (s : State) (d i : Nat) (r : RunTask) (q len count : Nat) (x : List Word) : State × Option TaskOut :=
  let dim := dimOf (s.seqDim q)
  let heads := s.seqHeads q
  mvEach s ((List.range count).flatMap (fun p => (List.range heads).map (fun h => (p, h)))) (fun s (p, h) =>
    let at_ := (p * heads + h) * 2 * dim
    let key := (x.drop at_).take dim
    let val := (x.drop (at_ + dim)).take dim
    let valid := !(key ++ val).any notFinite
    let s := if valid then s else s.count d i (fun c => c.addNan 1)
    match s.kvPut d i r q (len + p) h 0 key valid with
    | (s, some o) => (s, some o)
    | (s, none) => s.kvPut d i r q (len + p) h 1 val valid)

/-- Pages an append takes or copies. -/
def State.kvNeed (s : State) (d q len count : Nat) : Nat :=
  let new := (List.range count).filter (fun p => (len + p) % 64 == 0)
  let copies := if len % 64 = 0 ∨ count = 0 then 0 else
    ((List.range (s.seqHeads q)).flatMap (fun h => [0, 1].filter (fun kind => match s.listPage q h kind (len / 64) with
      | none => false
      | some n => let p := s.pageD d n; !(p.ref == 1 && p.fill == len % 64 && !p.fault)))).length
  new.length * 2 * s.seqHeads q + copies

/-- The position marks the sequence takes at position `first` (R257). -/
def State.kvMark (s : State) (q first : Nat) : Option (List Nat) :=
  let d := seqDie q
  let sp := s.seqSp0 q + (first * s.seqPitch q : Nat)
  let done := (s.kvAt d).applied
  let hit := (s.streamAt d).marks.filter (fun m => !done.contains (q, m.id) && decide (m.sp ≤ sp))
  if s.seqMark q && !hit.isEmpty then some (hit.map (·.id)) else none

/-- A sequence that takes a position mark begins again at position 0, at the SP that `first` had (R257). -/
def State.kvTakeMark (s : State) (d q first : Nat) : State :=
  match s.kvMark q first with
  | none => s
  | some ids =>
    let sp := s.seqSp0 q + (first * s.seqPitch q : Nat)
    ((s.seqReset q).seqSt q 8 8 (codeOf 64 sp)).updKv d (fun k => { k with
      applied := ids.map (fun n => (q, n)) ++ k.applied.filter (fun p => (s.streamAt d).marks.any (fun m => m.id == p.2)) })

/-- Reads the input and appends it behind `len`. -/
def State.kvAppendIn (s : State) (d i : Nat) (r : RunTask) (q len count addr : Nat) : State × Option TaskOut :=
  mvThen (s.linGet d i r addr (count * s.seqHeads q * 2 * dimOf (s.seqDim q) * 4))
    (fun s bs => s.kvAppendAll d i r q len count (wordsOf bs))

/-- The append itself: nothing changes where it fails (R255, R256). -/
def State.kvAppend (s0 : State) (d i : Nat) (r : RunTask) (q first count addr : Nat) : State :=
  if first ≠ s0.seqLen q then (s0.raise (evKv d) 7).finish d i .kvOrder
  else
    let s := s0.kvTakeMark d q first
    let len := s.seqLen q
    if s.seqMax q * 64 < len + count then s0.finish d i .kvCapacity
    else if s.kvFree d < s.kvNeed d q len count then
      ((s0.raise (evKv d) 8).bump (bKv d + 0x74)).finish d i .kvNospace
    else match s.kvAppendIn d i r q len count addr with
      | (_, some o) => s0.finish d i o
      | (s, none) => (s.seqSt q 0 4 (len + count)).bump (bKv d + 0x68) count

/-- What KV_APPEND does, once its descriptor is read and lies in its ranges. -/
def State.kvAppendOp (s : State) (die slot addr : Nat) (r : RunTask) : Except TaskOut OpDo := do
  let f (o n : Nat) : Nat := s.cs die slot (addr + o) n
  let q := f 4 2
  need (f 2 2 = 0 || s.kvOn die) .kvOff
  need (f 1 1 = 0 && f 2 2 ≤ 256 && q < 4096 && f 6 2 = 0 && f 16 8 = 0 && f 24 8 = 0)
  need (f 2 2 = 0 || (s.seqOk q && seqDie q = die && s.seqOpen q))
  pure { empty := f 2 2 = 0, run := fun s => if f 2 2 = 0 then s else s.kvAppend die slot r q (f 8 4) (f 2 2) (f 12 4) }

/-- KV_APPEND. -/
def execKvAppend (t die slot addr : Nat) (s : State) : Out :=
  onTask t die slot s (fun s r => s.operate die slot addr 0x18 r (fun s r => s.kvAppendOp die slot addr r))

/-! ### ATTN (R262 to R268) -/

/-- An ATTN or ATTN_BWD descriptor with what the task sees of its sequence. -/
structure AttnDesc where
  causal : Bool
  save : Bool
  nq : Nat
  qPos : Nat
  lag : Nat
  window : Nat
  tau : Word
  qRec : TensorRec
  q : Nat
  out : Nat
  stats : Nat
  part : Nat
  dout : Nat
  dq : Nat
  dk : Nat
  dv : Nat
  dim : Nat
  q4 : Bool
  snap : KvSnap
  deriving DecidableEq, Repr, Inhabited

/-- Reads and checks an attention descriptor. What the operator sees of its sequence was taken at dispatch (R261), or is taken now
where it saw none. -/
def State.attnDesc (s : State) (d i addr : Nat) (r : RunTask) (bwd : Bool) : Except TaskOut AttnDesc := do
  let f (o n : Nat) : Nat := s.cs d i (addr + o) n
  let q := f 4 2
  need (f 2 2 = 0 || s.kvOn d) .kvOff
  need (f 1 1 % 64 = 0 && f 2 2 ≤ 256 && q < 4096 && f 7 1 % 16 = 0 && f 52 4 = 0 && f 56 8 = 0)
  need (posFinite (wordOf (f 16 4)))
  need (([f 20 4, f 24 4, f 28 4] ++ (if s.part == .vyu2140 then [f 32 4] else [])).all (fun a => a % 64 = 0 && a < 0x10000000))
  need (!bwd || [f 36 4, f 40 4, f 44 4, f 48 4].all (fun a => a % 64 = 0 && a < 0x10000000))
  need (!bwd || r.rclass = .classT)
  let qr ← s.tensorAt d i r (f 7 1 / 16)
  need (qr.fmt = .int8)
  match r.kvs.find? (fun k => k.at_ == addr && k.seq == q), s.kvSnap d addr f with
  | none, none => throw .opDescErr
  | some k, _ => pure (mk f qr k)
  | none, some k => pure (mk f qr k)
where
  /-- The fields of a checked descriptor. -/
  mk (f : Nat → Nat → Nat) (qr : TensorRec) (k : KvSnap) : AttnDesc :=
    { causal := bitOf (f 1 1) 7, save := bitOf (f 1 1) 6, nq := f 2 2, qPos := f 8 4, lag := f 12 2, window := f 14 2,
      tau := wordOf (f 16 4), qRec := qr, q := f 20 4, out := f 24 4, stats := f 28 4, part := f 32 4, dout := f 36 4, dq := f 40 4,
      dk := f 44 4, dv := f 48 4, dim := k.dim, q4 := k.q4, snap := k }

/-- The queries, as the arrays read them; the side lists of an escaped query tensor lie in the Lintel store at the place of
Config.sideBase. -/
def State.queries (s : State) (d : Nat) (v : AttnDesc) (bs : List Byte) : List (List Operand) :=
  (chunks v.dim v.nq (codesOf .int8 bs)).zip (List.range v.nq) |>.map (fun (row, i) =>
    (row.zip (List.range v.dim)).map (fun (c, k) =>
      if v.qRec.esc && c == escCode .int8 then
        let o := i * v.dim + k
        match sideFind (sideParse (s.ldBytes (memKey (spLintel d) (sideAt v.q (o / 4096))) 520)) (o % 4096) with
        | none => { code := v.qRec.zp, missing := true }
        | some w => if notFinite w then { code := v.qRec.zp, esc := some 0#32, nan := true } else { code := v.qRec.zp, esc := some w }
      else { code := c }))

/-- One page of a head: its index, and data and scales of keys and values; a page that is FAULT is left out. -/
structure HeadPage where
  idx : Nat
  key : List Byte × List Byte
  val : List Byte × List Byte
  deriving DecidableEq, Repr, Inhabited

/-- Reads the pages of a key range, in increasing order; a page of either kind that is FAULT excludes its positions. -/
def State.headPages (s : State) (d i : Nat) (r : RunTask) (v : AttnDesc) (lo hi : Nat) : State × Except TaskOut (List HeadPage) :=
  let dn := pageData v.dim v.q4
  let sn := pageScale v.dim
  (v.snap.keys.filter (fun p => decide (lo ≤ p.1 ∧ p.1 ≤ hi))).foldl (fun acc p => match acc with
    | (s, .error o) => (s, .error o)
    | (s, .ok l) => match v.snap.vals.find? (fun w => w.1 == p.1) with
      | none => (s, .ok l)
      | some w => match s.kvPageGet d i r p.2 dn sn with
        | (s, .error o) => (s, .error o)
        | (s, .ok none) => (s, .ok l)
        | (s, .ok (some key)) => match s.kvPageGet d i r w.2 dn sn with
          | (s, .error o) => (s, .error o)
          | (s, .ok none) => (s, .ok l)
          | (s, .ok (some val)) => (s, .ok (l ++ [{ idx := p.1, key := key, val := val }]))) (s, .ok [])

/-- Code of an element of a page. -/
def pageCodeAt (q4 : Bool) (data : List Byte) (idx : Nat) : Int :=
  codeInt (kvFmt q4) (elemCode (kvFmt q4) (lget 0#8 data) idx)

/-- The real value of element k of position j of a page. -/
def pageReal (c : RClass) (kind dim : Nat) (q4 : Bool) (p : List Byte × List Byte) (j k : Nat) : Word :=
  let (sc, z, _) := blockRec p.2 dim j (k / 32)
  dequant c sc z (pageCodeAt q4 p.1 (kvIdx kind dim j k))

/-- The score of a query against position j of a page (R264). -/
def attnScore (c : RClass) (v : AttnDesc) (q : List Operand) (p : HeadPage) (j : Nat) : Word :=
  let zq := v.qRec.zp
  let sum := (List.range (v.dim / 32)).foldl (fun acc b =>
    let (sc, z, _) := blockRec p.key.2 v.dim j b
    let pairs := (List.range 32).map (fun e =>
      (lget ({ code := 0 } : Operand) q (32 * b + e), pageCodeAt v.q4 p.key.1 (kvIdx 0 v.dim j (32 * b + e)) - z))
    let acc_ := (pairs.map (fun (a, k) => (a.code - zq) * k)).sum
    let f := pairs.foldl (fun x (a, k) => match a.esc with
      | some w => fadd c x (fmul c (fmul c w (spRecip v.qRec.scale)) (ofInt c k))
      | none => x) (ofInt c acc_)
    let term := fmul c (fmul c v.qRec.scale sc) f
    if b = 0 then term else fadd c acc term) 0#32
  fmul c v.tau sum

/-- Allowed positions of a page for query i, in increasing order, each with its score; and the scores that are not finite. -/
def attnAllowed (c : RClass) (v : AttnDesc) (len i : Nat) (q : List Operand) (p : HeadPage) : List (Nat × Word) × Nat :=
  match keyRange v.causal v.qPos v.lag v.window len i with
  | none => ([], 0)
  | some (lo, hi) =>
    let js := (List.range 64).filter (fun j =>
      let x := 64 * p.idx + j
      decide (lo ≤ x ∧ x ≤ hi) && (blockRec p.key.2 v.dim j 0).2.2)
    let l := js.map (fun j => (j, attnScore c v q p j))
    (l.filter (fun x => !notFinite x.2), (l.filter (fun x => notFinite x.2)).length)

/-- M_NONE. -/
def mNone : Word := 0xFF800000#32

/-- The running maximum, the sum, the unnormalised output and the excluded scores of a query over pages (R265). -/
def attnRow (c : RClass) (v : AttnDesc) (len i : Nat) (q : List Operand) (pages : List HeadPage) : Word × Word × List Word × Nat :=
  pages.foldl (fun (m, l, o, bad) p =>
    let (al, n) := attnAllowed c v len i q p
    match al with
    | [] => (m, l, o, bad + n)
    | x :: xs =>
      let mp := xs.foldl (fun a y => fmax a y.2) x.2
      let mn := if m = mNone then mp else fmax m mp
      let a := if m = mNone then 0#32 else spExp (fsub c m mn)
      let l := fmul c a l
      let o := o.map (fmul c a)
      let (l, o) := al.foldl (fun (l, o) (j, s) =>
        let pr := spExp (fsub c s mn)
        (fadd c l pr, (o.zip (List.range v.dim)).map (fun (w, k) => ffma c pr (pageReal c 1 v.dim v.q4 p.val j k) w))) (l, o)
      (mn, l, o, bad + n)) (mNone, 0#32, List.replicate v.dim 0#32, 0)

/-- The output of a query. -/
def attnOut (c : RClass) (l : Word) (o : List Word) : List Word :=
  if feq l 0#32 then List.replicate o.length 0#32 else o.map (fun w => fmul c w (spRecip l))

/-- EMPTY_ROW and KV_EMPTY_ROWS advance. -/
def State.emptyRows (s : State) (d i n : Nat) : State :=
  (s.updRun d i (fun r => { r with emptyRow := satAdd 16 r.emptyRow n })).bump (bKv d + 0x70) n

/-- Writes outputs and row statistics (R265, R266). -/
def State.attnWrite (s : State) (d i : Nat) (r : RunTask) (v : AttnDesc) (rows : List (Word × Word × List Word)) : State :=
  let s := s.emptyRows d i (rows.filter (fun x => x.1 == mNone)).length
  let outs := rows.flatMap (fun (_, l, o) => bytesOf (attnOut r.cls l o))
  let stats := leBytes 4 v.snap.gen ++ leBytes 4 v.snap.len ++ leBytes 4 v.qPos ++ leBytes 4 v.nq ++ rows.flatMap (fun (m, l, _) => bytesOf [m, l])
  match s.spWrite d i r 1 v.out outs with
  | (s, some o) => s.finish d i o
  | (s, none) =>
    if v.save then
      (match s.spWrite d i r 1 v.stats stats with
        | (s, some o) => s.finish d i o
        | (s, none) => s)
    else s

/-- The rows of an ATTN over pages lo to hi. -/
def State.attnRows (s : State) (d i : Nat) (r : RunTask) (v : AttnDesc) (qs : List (List Operand)) (lo hi : Nat) :
    State × Except TaskOut (List (Word × Word × List Word)) :=
  match s.headPages d i r v lo hi with
  | (s, .error o) => (s, .error o)
  | (s, .ok pages) =>
    let rows := (qs.zip (List.range qs.length)).map (fun (q, k) => attnRow r.cls v v.snap.len k q pages)
    (s.count d i (fun c => c.addNan (rows.map (fun x => x.2.2.2)).sum), .ok (rows.map (fun (m, l, o, _) => (m, l, o))))

/-- Reads the queries, forms the rows over pages lo to hi and hands them on. -/
def State.attnOver (s : State) (d i : Nat) (r : RunTask) (v : AttnDesc) (lo hi : Nat)
    (f : State → List (Word × Word × List Word) → State) : State :=
  match s.linGet d i r v.q (v.nq * v.dim) with
  | (s, .error o) => s.finish d i o
  | (s, .ok bs) =>
    let qs := s.queries d v bs
    match (s.count d i (escCounts qs.flatten)).attnRows d i r v qs lo hi with
    | (s, .error o) => s.finish d i o
    | (s, .ok rows) => f s rows

/-- ATTN: on its queries at once, or expanded into partial tasks, which the graph engine dispatches (R268). -/
def State.attnRun (s : State) (d i : Nat) (r : RunTask) (v : AttnDesc) (addr : Nat) : State :=
  let n := s.splitOf d v.snap.len
  if n = 1 then s.attnOver d i r v 0 1024 (fun s rows => s.attnWrite d i r v rows)
  else s.updRun d i (fun r => { r with splits := r.splits ++ [{ at_ := addr, waiting := List.range n }] })

/-- A partial task of an ATTN (R268): it writes its unnormalised rows at PART_ADDR and is done. The ATTN's descriptor and records are
those of its slot `p`; where its task has ended, the partial has nothing to do. -/
def State.attnPart (s : State) (d i p addr k : Nat) (r : RunTask) : State :=
  match s.live d p with
  | none => s.finish d i .lost
  | some q =>
    if q.graph ≠ r.graph ∨ q.task ≠ r.task ∨ q.inst ≠ r.inst then s.finish d i .lost
    else match s.attnDesc d p addr q false with
      | .error o => s.finish d i o
      | .ok v =>
        let n := s.splitSpan d / 64
        s.attnOver d i r v (k * n) (k * n + n - 1) (fun s rows =>
          match s.spWrite d i r 1 (v.part + k * v.nq * (4 * v.dim + 8)) (rows.flatMap (fun (m, l, o) => bytesOf (o ++ [m, l]))) with
          | (s, some o) => s.finish d i o
          | (s, none) => (s.worked d i).finish d i .ok)

/-- What ATTN does, once its descriptor is read and lies in its ranges. -/
def State.attnOp (s : State) (die slot addr : Nat) (r : RunTask) : Except TaskOut OpDo := do
  let v ← s.attnDesc die slot addr r false
  need (v.nq = 0 || (spOk 1 true v.out (4 * v.nq * v.dim) && (!v.save || spOk 1 true v.stats (16 + 8 * v.nq))))
  pure { empty := v.nq = 0, run := fun s => if v.nq = 0 then s else s.attnRun die slot r v addr }

/-- ATTN: the operator of a task's program, or the one of a partial task. -/
def execAttn (t die slot addr : Nat) (s : State) : Out :=
  onTask t die slot s (fun s r => match r.part with
    | some (p, a, k) => if a = addr then s.attnPart die slot p a k r else s
    | none => s.operate die slot addr 0x19 r (fun s r => s.attnOp die slot addr r))

/-- The running maximum, sum and output of each query, merged from partial results in an order (R268). -/
def mergeRows (c : RClass) (v : AttnDesc) (bs : List Byte) (order : List Nat) : List (Word × Word × List Word) :=
  let row := 4 * v.dim + 8
  (List.range v.nq).map (fun i =>
    let parts := order.map (fun k =>
      let w := wordsOf ((bs.drop ((k * v.nq + i) * row)).take row)
      (lget 0#32 w v.dim, lget 0#32 w (v.dim + 1), w.take v.dim))
    let live := parts.filter (fun x => x.1 != mNone)
    match live with
    | [] => (mNone, 0#32, List.replicate v.dim 0#32)
    | x :: xs =>
      let m := xs.foldl (fun a y => fmax a y.1) x.1
      let (l, o) := live.foldl (fun (l, o) (mr, lr, orr) =>
        let e := spExp (fsub c mr m)
        (fadd c l (fmul c e lr), List.zipWith (fun a b => fadd c a (fmul c e b)) o orr)) (0#32, List.replicate v.dim 0#32)
      (m, l, o))

/-- ATTN_MERGE (R268): once every partial task of the task's oldest expanded ATTN has completed, their results are merged in the order
they completed. -/
def execAttnMerge (t die slot addr : Nat) (s : State) : Out :=
  onTask t die slot s (fun s r => match r.splits with
    | [] => s
    | x :: rest =>
      if x.at_ ≠ addr ∨ !x.waiting.isEmpty ∨ !x.running.isEmpty then s
      else
        let s := s.updRun die slot (fun r => { r with splits := rest })
        match s.attnDesc die slot addr r false with
        | .error o => s.finish die slot o
        | .ok v => match s.linGet die slot r v.part (x.order.length * v.nq * (4 * v.dim + 8)) with
          | (s, .error o) => s.finish die slot o
          | (s, .ok bs) => (s.attnWrite die slot r v (mergeRows r.cls v bs x.order)).moves die slot)

/-! ### ATTN_BWD (R269) -/

/-- Sum of products in increasing element. -/
def dotSeq (c : RClass) (a b : List Word) : Word := (List.zipWith (fmul c) a b).foldl (fadd c) 0#32

/-- A gradient buffer with a vector added onto the row of position j. -/
def addRow (c : RClass) (dim j : Nat) (x : List Word) (buf : List Word) : List Word :=
  (buf.zip (List.range buf.length)).map (fun (w, k) => if k / dim = j then fadd c w (lget 0#32 x (k % dim)) else w)

/-- The gradients of one query: dq, and what it adds to dk and dv. -/
def bwdRow (c : RClass) (v : AttnDesc) (len i : Nat) (q : List Operand) (pages : List HeadPage) (m l : Word) (dout out : List Word)
    (dk dv : List Word) : List Word × List Word × List Word × Nat :=
  let dd := dotSeq c dout out
  let real := q.map (fun o => o.real c v.qRec)
  pages.foldl (fun (dq, dk, dv, bad) p =>
    let (al, n) := attnAllowed c v len i q p
    let (dq, dk, dv) := al.foldl (fun (dq, dk, dv) (j, s) =>
      let pr := fmul c (spExp (fsub c s m)) (spRecip l)
      let val := (List.range v.dim).map (pageReal c 1 v.dim v.q4 p.val j)
      let key := (List.range v.dim).map (pageReal c 0 v.dim v.q4 p.key j)
      let ds := fmul c pr (fsub c (dotSeq c dout val) dd)
      let st := fmul c ds v.tau
      (List.zipWith (fun a k => fadd c a (fmul c st k)) dq key, addRow c v.dim (64 * p.idx + j) (real.map (fmul c st)) dk,
        addRow c v.dim (64 * p.idx + j) (dout.map (fmul c pr)) dv)) (dq, dk, dv)
    (dq, dk, dv, bad + n)) (List.replicate v.dim 0#32, dk, dv, 0)

/-- Reads several ranges of the Lintel store for an operator. -/
def State.linGets (s : State) (d i : Nat) (r : RunTask) (l : List (Nat × Nat)) : State × Except TaskOut (List (List Byte)) :=
  l.foldl (fun acc p => match acc with
    | (s, .error o) => (s, .error o)
    | (s, .ok xs) => match s.linGet d i r p.1 p.2 with
      | (s, .error o) => (s, .error o)
      | (s, .ok bs) => (s, .ok (xs ++ [bs]))) (s, .ok [])

/-- The gradients an ATTN_BWD forms: dq, dk, dv, the scores that were not finite, and the rows that attend to nothing. -/
structure BwdAcc where
  dq : List Word
  dk : List Word
  dv : List Word
  bad : Nat
  empty : Nat
  deriving DecidableEq, Repr, Inhabited

/-- The gradients of all queries, in order. -/
def bwdAll (c : RClass) (v : AttnDesc) (len : Nat) (pages : List HeadPage) (stats douts outs : List Word) (qs : List (List Operand))
    (acc : BwdAcc) : BwdAcc :=
  (qs.zip (List.range qs.length)).foldl (fun a (q, k) =>
    let m := lget 0#32 stats (2 * k)
    let l := lget 0#32 stats (2 * k + 1)
    if m = mNone ∧ feq l 0#32 then { a with dq := a.dq ++ List.replicate v.dim 0#32, empty := a.empty + 1 }
    else
      let g := bwdRow c v len k q pages m l ((douts.drop (k * v.dim)).take v.dim) ((outs.drop (k * v.dim)).take v.dim) a.dk a.dv
      { a with dq := a.dq ++ g.1, dk := g.2.1, dv := g.2.2.1, bad := a.bad + g.2.2.2 }) acc

/-- Counts and writes the gradients. -/
def State.bwdWrite (s : State) (d i : Nat) (r : RunTask) (v : AttnDesc) (a : BwdAcc) : State :=
  let s := (s.count d i (fun x => x.addNan a.bad)).emptyRows d i a.empty
  match mvEach s [(v.dq, a.dq, true), (v.dk, a.dk, v.dk != 0), (v.dv, a.dv, v.dv != 0)] (fun s x =>
    if x.2.2 && !x.2.1.isEmpty then s.spWrite d i r 1 x.1 (bytesOf x.2.1) else (s, none)) with
  | (s, some o) => s.finish d i o
  | (s, none) => s

/-- ATTN_BWD with a fresh header: L is the header's. -/
def State.bwdRun (s : State) (d i : Nat) (r : RunTask) (v : AttnDesc) (len : Nat) (stats : List Word) : State :=
  let n := v.nq * v.dim * 4
  let kv (a : Nat) : Nat := if a = 0 then 0 else len * v.dim * 4
  match s.linGets d i r [(v.q, v.nq * v.dim), (v.out, n), (v.dout, n), (v.dk, kv v.dk), (v.dv, kv v.dv)] with
  | (s, .error o) => s.finish d i o
  | (s, .ok bs) => match s.headPages d i r v 0 1024 with
    | (s, .error o) => s.finish d i o
    | (s, .ok pages) =>
      let w (k : Nat) : List Word := wordsOf (lget [] bs k)
      let qs := s.queries d v (lget [] bs 0)
      (s.count d i (escCounts qs.flatten)).bwdWrite d i r v
        (bwdAll r.cls v len pages stats (w 2) (w 1) qs { dq := [], dk := w 3, dv := w 4, bad := 0, empty := 0 })

/-- What ATTN_BWD does, once its descriptor is read and lies in its ranges. -/
def State.attnBwdOp (s : State) (die slot addr : Nat) (r : RunTask) : Except TaskOut OpDo := do
  let v ← s.attnDesc die slot addr r true
  need (v.nq = 0 || spOk 1 true v.dq (4 * v.nq * v.dim))
  need ((v.dk = 0 || spOk 1 true v.dk 0) && (v.dv = 0 || spOk 1 true v.dv 0))
  pure {
    empty := v.nq = 0
    run := fun s => if v.nq = 0 then s else match s.linGet die slot r v.stats (16 + 8 * v.nq) with
      | (s, .error o) => s.finish die slot o
      | (s, .ok bs) =>
        if leAt bs 0 4 ≠ v.snap.gen then ((s.raise (evKv die) 6).bump (bKv die + 0x78)).finish die slot .kvStaleStats
        else if !v.snap.isOpen then s.finish die slot .opDescErr
        else s.bwdRun die slot r v (leAt bs 4 4) (wordsOf (bs.drop 16)) }

/-- ATTN_BWD: a header of another generation of the sequence ends the task KV_STALE_STATS. -/
def execAttnBwd (t die slot addr : Nat) (s : State) : Out :=
  onTask t die slot s (fun s r => s.operate die slot addr 0x1B r (fun s r => s.attnBwdOp die slot addr r))

/-! ### Adaptation (R270 to R275) -/

/-- The home window of the adaptation registers. -/
def State.adaptHome (s : State) : Nat := s.rfld 0x50100 17 16

/-- Adaptation operators run: EN is set and the home pair is present. -/
def State.adaptOn (s : State) : Bool := s.rbit 0x50104 0 && s.hasDie s.adaptHome

/-- The group of a number. -/
def State.adaptGroup (s : State) (g : Nat) : Option AdaptGroup := s.adapt.groups.find? (fun x => x.id == g)

/-- Changes a group. -/
def State.updGroup (s : State) (g : Nat) (f : AdaptGroup → AdaptGroup) : State :=
  s.updAdapt (fun a => { a with groups := a.groups.map (fun x => if x.id = g then f x else x) })

/-- Elements of the groups before a group in the table. -/
def Adapt.before (a : Adapt) (g : Nat) : Nat := ((a.groups.takeWhile (fun x => x.id != g)).map (fun x => x.load.length)).sum

/-- Masters, momentum and gradients of elements of a group. -/
structure Masters where
  w : List Word
  mom : List Word
  grad : List Word
  deriving DecidableEq, Repr, Inhabited

/-- Key of element k of a group in the home pair's Lintel store (R271): its master, its momentum and its gradient, in 12 bytes. -/
def State.masterKey (s : State) (g k : Nat) : Nat := memKey (spLintel s.adaptHome) (s.adapt.base + 12 * (s.adapt.before g + k))

/-- Reads elements k to k + n − 1 of a group; none where a word cannot be read. -/
def State.mastersGet (s : State) (g k n : Nat) : State × Option Masters :=
  let key := s.masterKey g k
  let (s, bad) := s.eccRead key (12 * n)
  let col (c : Nat) : List Word := (List.range n).map (fun i => wordOf (s.ldN (key + 12 * i + 4 * c) 4))
  (s, if bad then none else some { w := col 0, mom := col 1, grad := col 2 })

/-- Writes elements from k on of a group. -/
def State.mastersPut (s : State) (g k : Nat) (m : Masters) : State :=
  s.stBytes (s.masterKey g k) ((m.w.zip (m.mom.zip m.grad)).flatMap (fun (w, x, y) => bytesOf [w, x, y]))

/-- The masters of a group at model load and at RESET_MASTERS: the loaded values, no momentum and no gradient. -/
def AdaptGroup.fresh (g : AdaptGroup) : Masters :=
  let z := List.replicate g.load.length 0#32
  { w := g.load, mom := z, grad := z }

/-- What ADAPT_ACCUM does, once its descriptor is read and lies in its ranges. -/
def State.adaptAccumOp (s : State) (die slot addr : Nat) (r : RunTask) : Except TaskOut OpDo := do
  let f (o n : Nat) : Nat := s.cs die slot (addr + o) n
  need (f 4 4 = 0 || !s.kvCfgErr die) .kvOff
  need (f 1 1 = 0 && f 2 2 ≤ 255 && f 20 4 = 0 && f 24 8 = 0 && r.rclass = .classT)
  match s.adaptGroup (f 2 2) with
  | none => throw .opDescErr
  | some g =>
    need (f 8 4 + f 4 4 ≤ g.load.length && spOk 1 false (f 12 4) (4 * f 4 4))
    need s.adaptOn .adaptOff
    pure {
      empty := f 4 4 = 0
      run := fun s => if f 4 4 = 0 then s else match s.linGet die slot r (f 12 4) (4 * f 4 4) with
        | (s, .error o) => s.finish die slot o
        | (s, .ok bs) => match s.mastersGet g.id (f 8 4) (f 4 4) with
          | (s, none) => s.finish die slot .memFault
          | (s, some m) =>
            let s := s.mastersPut g.id (f 8 4) { m with grad := List.zipWith (fadd .classT) m.grad (wordsOf bs) }
            let s := if s.adaptHome = die then s else s.updAccount (s.clientOf r) die (fun x => { x with bridge := x.bridge + 4 * f 4 4 })
            s.updGroup g.id (fun g => { g with n := g.n + f 16 4 }) }

/-- ADAPT_ACCUM: a gradient is added into the home buffer. -/
def execAdaptAccum (t die slot addr : Nat) (s : State) : Out :=
  onTask t die slot s (fun s r => s.operate die slot addr 0x1C r (fun s r => s.adaptAccumOp die slot addr r))

/-- The update of R273: the masters and the momentum, with the gradients cleared. -/
def adaptStep (g : AdaptGroup) (m : Masters) : Masters :=
  let c : RClass := .classT
  let rn := spRecip (ofInt c g.n)
  let x := m.grad.map (fun w => fmul c w rn)
  let gn := fsqrt (dotSeq c x x)
  let x := if flt g.clip gn then x.map (fun w => fmul c w (fmul c g.clip (spRecip gn))) else x
  let mom := List.zipWith (fun m w => ffma c g.beta m w) m.mom x
  let wd := if g.scales then 0#32 else g.wd
  let w := List.zipWith (fun m w => fsub c w (fmul c g.lr (fadd c m (fmul c wd w)))) mom m.w
  let w := if g.scales then (w.zip (List.range w.length)).map (fun (v, k) =>
      if k % 2 = 0 then fclamp v (fsub c (lget 0#32 g.load k) 0x40000000#32) (fadd c (lget 0#32 g.load k) 0x40000000#32)
      else fclamp v (ofInt c g.qmin) (ofInt c g.qmax)) else w
  { w := w, mom := mom, grad := m.grad.map (fun _ => 0#32) }

/-- What ADAPT_STEP does, once its descriptor is read and lies in its ranges. -/
def State.adaptStepOp (s : State) (die slot addr : Nat) (r : RunTask) : Except TaskOut OpDo := do
  let f (o n : Nat) : Nat := s.cs die slot (addr + o) n
  need (!s.kvCfgErr die) .kvOff
  need (f 1 1 = 0 && f 2 2 ≤ 255 && f 20 4 = 0 && f 24 8 = 0 && r.rclass = .classT)
  match s.adaptGroup (f 2 2) with
  | none => throw .opDescErr
  | some g =>
    need s.adaptOn .adaptOff
    pure {
      empty := g.n = 0
      run := fun s =>
        if g.n = 0 then s
        else match s.mastersGet g.id 0 g.load.length with
          | (s, none) => s.finish die slot .memFault
          | (s, some m) =>
            let s := s.updGroup g.id (fun g => { g with n := 0 })
            if m.grad.any notFinite then
              ((s.mastersPut g.id 0 { m with grad := m.grad.map (fun _ => 0#32) }).bumpHi 0x5010C).raise (evKv s.adaptHome) 2
            else (s.mastersPut g.id 0 (adaptStep g m)).updAdapt (fun a => { a with changed := true }) }

/-- ADAPT_STEP. -/
def execAdaptStep (t die slot addr : Nat) (s : State) : Out :=
  onTask t die slot s (fun s r => s.operate die slot addr 0x1D r (fun s r => s.adaptStepOp die slot addr r))

/-! ### Epochs (R274, R275) -/

/-- 2^u of an FP32 number, rounded to FP32. -/
def exp2 (u : Word) : Word :=
  match fval u with
  | .fin n m e => let v := fxExp (dyToFx n m e * (fxLn2 : Int) / (fxOne : Int)); fround .classT false v.1 v.2
  | .inf n => if n then 0#32 else u
  | .nan => quiet u

/-- The codes and escapes of the weights of a tensor, in increasing element, with the escapes each tile's side list takes (R172). -/
def weightCodes (t : TensorRec) : Nat → Nat → List Word → List (Int × Option Word)
  | _, _, [] => []
  | k, used, w :: l =>
    let used := if k % (32768 / t.fmt.bits) = 0 then 0 else used
    let (code, side, _) := escapeTake t used (quantOut .classT t w).1 {}
    (code, side) :: weightCodes t (k + 1) (used + b2n side.isSome) l

/-- What an epoch gives a group of masters w: S and Z of each record, or the codes of its weights with their escapes. -/
def epochGroup (g : AdaptGroup) (w : List Word) : List Word × List (Nat × Word) :=
  if g.scales then
    ((w.zip (List.range w.length)).map (fun (v, k) =>
      if k % 2 = 0 then exp2 v else wordOf (codeOf 32 (toInt .classT (-2147483648) 2147483647 v).val)), [])
  else match tensorRec g.rec_ with
    | none => (w, [])
    | some t =>
      let l := weightCodes t 0 0 w
      (l.map (fun o => wordOf (codeOf 32 o.1)), ((List.range l.length).zip l).filterMap (fun (k, o) => o.2.map (fun v => (k, v))))

/-- The scale a rescale is derived from, in an epoch. -/
def scaleOf (gs : List (Nat × List Word)) : ScaleSrc → Word
  | .fixed w => w
  | .learned g k => match gs.find? (fun p => p.1 == g) with
    | some p => lget 0#32 p.2 (2 * k)
    | none => 0#32

/-- The values of the epoch that masters make, one list for each group; none for SCALE_RANGE. -/
def formEpoch (a : Adapt) (ws : List (List Word)) : Option EpochVals :=
  let ps := (a.groups.zip ws).map (fun (g, w) => (g, epochGroup g w))
  let gs := ps.map (fun p => (p.1.id, p.2.1))
  let es := ps.flatMap (fun p => p.2.2.map (fun q => (p.1.id, q.1, q.2)))
  let ms := a.deps.map (fun d => deriveScale (scaleOf gs d.a) (scaleOf gs d.b) (scaleOf gs d.out))
  let badS := ps.any (fun p => p.1.scales && (List.range (p.2.1.length / 2)).any (fun k => !scaleOk (lget 0#32 p.2.1 (2 * k))))
  if badS || ms.any Option.isNone then none else some { groups := gs, escs := es, rescales := ms.filterMap id }

/-- Ranges of a die's Lintel store that have a byte in common. -/
def meets (a b : Nat × Nat × Nat) : Bool := a.1 == b.1 && decide (a.2.1 < b.2.1 + b.2.2) && decide (b.2.1 < a.2.1 + a.2.2)

/-- Stages an epoch for the next frame boundary (R145): what it places lies in the areas of the models loaded (R270), and in nothing
that the plan has placed, so no program changes (R22). -/
def State.stageEpoch (s : State) (e : EpochVals) : State :=
  let areas := s.sdio.models.flatMap (fun m => m.areas)
  let plan := (Config.planPlaces s.bond.image).map (fun x => (x.1 % 4, x.2.1 % 2 ^ 28, x.2.2.length))
  let ps := (Config.epochImage e).filter (fun x =>
    areas.any (fun a => x.1 == a.1 && decide (a.2.1 ≤ x.2.1) && decide (x.2.1 + x.2.2.length ≤ a.2.1 + a.2.2)) &&
      !plan.any (fun a => meets (x.1, x.2.1, x.2.2.length) a))
  (s.updAdapt (fun a => { a with staged := some e, places := ps })).updBond (fun b => { b with epochStaged := true })

/-- A commit begins, when an ADAPT_STEP has changed the masters and FREEZE is clear. -/
def State.commitBegin (s : State) : State :=
  if s.adapt.changed && !s.rbit 0x50104 1 then s.updAdapt (fun a => { a with committing := true }) else s

/-- The masters of every group; none where a word cannot be read. -/
def State.mastersAll (s : State) : State × Option (List (List Word)) :=
  s.adapt.groups.foldl (fun acc g =>
    let (s, m) := acc.1.mastersGet g.id 0 g.load.length
    (s, match acc.2, m with
      | some l, some m => some (l ++ [m.w])
      | _, _ => none)) (s, some [])

/-- ADAPT_COMMIT: a commit in progress is formed; SCALE_RANGE, or masters that cannot be read, abandon it. -/
def execAdaptCommit (t : Nat) (s : State) : Out :=
  let s := s.to t
  guardNext s.adapt.committing s (fun s =>
    match (s.updAdapt (fun a => { a with committing := false })).mastersAll with
    | (s, none) => s.bumpLo 0x5010C
    | (s, some ws) => match formEpoch s.adapt ws with
      | none => (s.bumpLo 0x5010C).raise (evKv s.adaptHome) 1
      | some e => (((s.stageEpoch e).updAdapt (fun a => { a with changed := false })).bump 0x50108).raise (evKv s.adaptHome) 3)

/-- ROLLBACK. -/
def State.epochRollback (s : State) : State :=
  ((s.stageEpoch s.adapt.previous).regSet 0x50104 (s.regGet 0x50104 ||| 2#32)).raise (evKv s.adaptHome) 0

/-- RESET_MASTERS. -/
def State.resetMasters (s : State) : State := s.each s.adapt.groups (fun s g => s.mastersPut g.id 0 g.fresh)

/-! ### Registers and commands (R277, R280) -/

/-- CLEAR_COUNTERS of a window. -/
def State.kvClear (s : State) (d : Nat) : State :=
  let s := s.each [0x68, 0x6C, 0x70, 0x74, 0x78] (fun s o => s.regSet (bKv d + o) 0#32)
  s.each [0x50108, 0x5010C] (fun s a => s.regSet a 0#32)

/-- A write of KV_CMD. -/
def State.kvCmd (s : State) (d v : Nat) : State :=
  let q := 1024 * d + v % 1024
  match v / 2 ^ 24 with
  | 1 => if s.seqOpen q then s.seqReset q else s
  | 2 => if s.seqOpen q then s.seqClose q else s
  | 3 => s.commitBegin
  | 4 => s.epochRollback
  | 5 => s.resetMasters
  | 6 => s.kvClear d
  | _ => s

/-- A write of KV_SEQ_SEL: the snapshot of an entry. -/
def State.seqSel (s : State) (d v : Nat) : State :=
  let s := s.regSet (bKv d + 0x30) (wordOf (v % 1024))
  s.each (List.range 8) (fun s k => s.regSet (bKv d + 0x40 + 4 * k) (wordOf (s.seqf (1024 * d + v % 1024) (4 * k) 4)))

/-- A write of KV_PAGE_SEL: the snapshot of a descriptor; a page beyond the last reads 0. -/
def State.kvPageSel (s : State) (d v : Nat) : State :=
  let n := v % 2 ^ 19
  let w := if n < 262144 then s.lin d (pageOff n) 8 else 0
  ((s.regSet (bKv d + 0x34) (wordOf n)).regSet (bKv d + 0x60) (wordOf w)).regSet (bKv d + 0x64) (wordOf (w / 2 ^ 32))

/-- Registers of KV that are formed when read. -/
def State.kvView (s : State) (d o : Nat) : Option Nat :=
  if o = 4 then some (2 * b2n (s.part == .vyu2140) + b2n (s.kvCfgErr d))
  else if o = 0x1C then some (s.kvFree d)
  else if o = 0x20 then some ((s.kvLive d).filter (fun n => (s.pageD d n).ref == 0)).length
  else if o = 0x24 then some ((s.kvLive d).filter (fun n => decide (1 < (s.pageD d n).ref))).length
  else none

end Sys2Proof.Machine
end

