-- ==== Sys2Proof/Machine/Wcet.lean ====
section
/-!
DEFINITION. The worst-case execution time that firmware recomputes for a plan task (R334), from its program, its descriptors
and its chains, with the cycle counts of R210, R239 and R276; and what the task takes of Quarry and of the bridge ring.
-/
namespace Sys2Proof.Machine

/-- Division rounded up; 0 for a divisor of 0. -/
def divUp (a b : Nat) : Nat := if b = 0 then 0 else (a + b - 1) / b

/-- What a task costs: compute cycles; CK of its own Quarry bursts, of the bursts in flight before them, and of the KV fetches
that its compute hides (R276); bytes over the bridge ring. -/
structure Cost where
  cycles : Nat := 0
  ck : Nat := 0
  flight : Nat := 0
  kv : Nat := 0
  bridge : Nat := 0
  /-- It reads a capture ring (R336). -/
  ring : Bool := false
  deriving DecidableEq, Repr, Inhabited

def Cost.add (a b : Cost) : Cost :=
  { cycles := a.cycles + b.cycles, ck := a.ck + b.ck, flight := a.flight + b.flight, kv := a.kv + b.kv, bridge := a.bridge + b.bridge,
    ring := a.ring || b.ring }
def Cost.times (k : Nat) (a : Cost) : Cost :=
  { cycles := k * a.cycles, ck := k * a.ck, flight := k * a.flight, kv := k * a.kv, bridge := k * a.bridge, ring := a.ring }

/-- CK of a Quarry burst of n bytes (R294). -/
def State.burstCk (s : State) (n : Nat) : Nat :=
  5 + 2 * s.rfld 0x60018 31 28 + s.rfld 0x60018 27 24 + 18 * divUp n 64

/-- CK of n bytes in bursts of 2 KiB. -/
def State.quarryCk (s : State) (n : Nat) : Nat :=
  n / 2048 * s.burstCk 2048 + (if n % 2048 = 0 then 0 else s.burstCk (n % 2048))

/-- Compute frequency of a code, in units of 200 MHz (R131). -/
def freqUnits (f : Nat) : Nat :=
  match f with
  | 0 => 5
  | 1 => 4
  | _ => 3

/-- Cycles of Quarry CK as R334 charges them: 5 ns each × 17 ÷ (16 − MIG_SHARE), at the plan's frequency. -/
def State.ckCycles (s : State) (freq ck : Nat) : Nat :=
  divUp (ck * 17 * freqUnits freq) (16 - max 1 (s.rfld 0x60010 19 16))

/-- The tensor record a task names by an index (R187). -/
def State.imgRec (s : State) (d slot : Nat) (h : TaskHdr) (i : Nat) : Option TensorRec :=
  tensorRec (s.imgN d slot h (h.recAddr + 8 * i) 8)

/-- Pages a key range may have: those of WINDOW positions, or all the plan's sequence may hold. -/
def State.keyPages (s : State) (q window nq : Nat) : Nat :=
  let most := s.seqf q 24 2
  if window = 0 then most else min most (divUp (window + nq) 64 + 1)

/-- The convolution descriptor at an address of a task's image. -/
def State.imgConv (s : State) (d slot : Nat) (h : TaskHdr) (a : Nat) (dw : Bool) : ConvDesc :=
  let f (o n : Nat) : Nat := s.imgN d slot h (a + o) n
  let rec_ (i : Nat) : TensorRec := (s.imgRec d slot h i).getD rawRec
  {
    at_ := a, arrays := f 1 1 / 16, bias := bitOf (f 1 1) 1, kh := f 2 1 / 16, kw := f 2 1 % 16, stride := f 3 1 / 64 + 1,
    dil := f 3 1 / 8 % 8 + 1, cin := f 4 2, cout := f 6 2, outH := f 8 2, outW := f 10 2, groups := if dw then 1 else f 12 2,
    inR := rec_ (f 14 1 / 16), wR := rec_ (f 14 1 % 16), outR := rec_ (f 15 1 / 16),
    rs := { m := 0, s := 0, perChannel := false, relu := false }, inAddr := f 16 4, plane := f 20 4, row := f 24 2, w := f 28 4,
    biasAt := f 32 4, out := f 36 4, pix := f 40 2, outRow := f 44 4 }

/-- Cycles that 64 escapes in each tile an output block reads of an ESC operand add to its drain (R173, R210): two each. -/
def escCycles (esc : Bool) (offs : List Nat) : Nat := if esc then 128 * ((offs.map (fun o => o / 4096)).eraseDups).length else 0

/-- The escape allowance E of CONV: over its output blocks, the tiles of their K ranges. -/
def ConvDesc.escAllow (v : ConvDesc) : Nat :=
  if !v.inR.esc && !v.wR.esc then 0
  else (v.blocks.map (fun b =>
    let ks := v.steps b.g
    escCycles v.inR.esc (ks.flatMap (fun q => (List.range b.m).map (fun m =>
      let p := v.aAt b.oy (b.ox + m) q.1 q.2.1 q.2.2
      p.1 + v.inR.fmt.byteOf p.2 - v.inAddr))) +
    escCycles v.wR.esc ((List.range (ks.length * b.n)).map (fun k => v.wR.fmt.byteOf (ks.length * b.oc + k))))).sum

/-- The escape allowance of DWCONV: its 64 lanes cover 4 pixels × 16 channels (R193). -/
def ConvDesc.dwEscAllow (v : ConvDesc) : Nat :=
  if !v.inR.esc && !v.wR.esc then 0
  else
    let taps := (List.range v.kh).flatMap (fun ky => (List.range v.kw).map (fun kx => (ky, kx)))
    ((List.range v.outH).flatMap (fun oy => (List.range ((v.outW + 3) / 4)).flatMap (fun x => (List.range ((v.cin + 15) / 16)).map (fun q =>
      let chans := (List.range (min 16 (v.cin - 16 * q))).map (fun c => 16 * q + c)
      escCycles v.inR.esc (taps.flatMap (fun t => (List.range (min 4 (v.outW - 4 * x))).flatMap (fun m => chans.map (fun c =>
        let p := v.dwAt oy (4 * x + m) t.1 t.2 c
        p.1 + v.inR.fmt.byteOf p.2 - v.inAddr)))) +
      escCycles v.wR.esc (taps.flatMap (fun t => chans.map (fun c =>
        v.wR.fmt.byteOf (v.kh * v.kw * (c / 64 * 64) + (t.1 * v.kw + t.2) * min 64 (v.cin - c / 64 * 64) + c % 64)))))))).sum

/-- Cycles of an operator, the dispatch overhead left out (R210, R239, R276). -/
def State.operCycles (s : State) (d slot : Nat) (h : TaskHdr) (a : Nat) : Nat :=
  let f (o n : Nat) : Nat := s.imgN d slot h (a + o) n
  let fmt (i : Nat) : Option Fmt := (s.imgRec d slot h i).map (fun r => r.fmt)
  let win := f 2 1 / 16 * (f 2 1 % 16)
  match f 0 1 with
  | 0x01 =>
    let na := max 1 ((List.range 4).filter (fun i => (f 1 1).testBit (4 + i))).length
    let grp := max 1 (f 12 2)
    let cout := f 6 2 / grp
    let k := win * (f 4 2 / grp)
    let b := grp * divUp cout 64 * f 8 2 * divUp (f 10 2) 16
    let dr := na * divUp (min 16 (f 10 2) * min 64 cout) 64
    let inR := f 14 1 / 16
    let wR := f 14 1 % 16
    let steps := if fmt inR == some .bf16 then 4 * k
      else if fmt inR == some .int4 || fmt wR == some .int4 then divUp k 2 else k
    80 + divUp b na * max steps dr + dr + (s.imgConv d slot h a false).escAllow
  | 0x02 =>
    divUp (f 8 2 * f 10 2 * f 6 2) 64 * (win + 6) + (s.imgConv d slot h a true).dwEscAllow
  | 0x03 =>
    if (f 1 1).testBit 7 then divUp (f 28 2 * f 30 2 * f 4 2) 64 * 5
    else divUp (f 6 1 * f 7 1 * f 4 2) 64 * (win + 4)
  | 0x04 =>
    let ch := ((List.range 4).filter (fun i => (f 1 1).testBit (4 + i))).length
    let ms := f 26 2
    f 6 2 * (160 + ch * divUp (f 2 1 * f 3 1) 64 * 6 + divUp (ch * min (2 * f 2 1) (ms + 2) * (ms + 2)) 128)
  | 0x05 => divUp (f 4 1 * f 5 1 * f 1 1) 64 * (2 * f 2 1 + 60)
  | 0x06 => 20 * 1024 + 12 * min 1024 (f 2 2) * 16
  | 0x10 => divUp (f 2 2 * f 20 2) 64 * (4 * (f 1 1 / 16 % 4 + 1) + 10) + st (f 4 4)
  | 0x11 =>
    let dd := f 20 2
    f 2 2 * (divUp (3 * dd * dd) 256 + 3 * divUp dd 16 + 40) + st (f 4 4)
  | 0x12 =>
    let dd := f 20 2
    divUp ((f 2 2 + f 22 1) * dd) 64 * (8 * (f 1 1 / 16 % 4 + 1) + 20) + 2 * divUp (f 2 2 * dd) 64 + st (f 4 4)
  | 0x13 => st (f 4 4)
  | 0x18 =>
    let q := f 4 2
    let dim := dimOf (bitsOf (s.seqf q 27 1) 7 6)
    let heads := s.seqf q 26 1
    f 2 2 * heads * (dim / 4 + 48) + 600 * (2 * heads * (divUp (f 2 2) 64 + 1))
  | 0x19 =>
    let q := f 4 2
    let x := divUp (f 2 2 * dimOf (bitsOf (s.seqf q 27 1) 7 6)) 64
    let r := if s.part == .vyu2140 then divUp (s.seqf q 24 2) (max 1 (s.rfld (bKv d + 0x28) 10 0)) else 0
    attn (f 2 2) q (f 14 2) 2 1 7 + (if r ≤ 1 then 0 else 256 + (r + 1) * x + 8 * r)
  | 0x1B => attn (f 2 2) (f 4 2) (f 14 2) 4 3 12
  | 0x1C => 4 * divUp (f 4 4) 64
  | 0x1D =>
    let n := match s.adapt.groups.find? (fun g => g.id == f 2 2) with
      | some g => g.load.length
      | none => 0
    12 * divUp n 64
  | _ => 0
where
  /-- T of R239: the load and write-back of a context's state. -/
  st (c : Nat) : Nat := 2 * divUp (s.ctxBytes c) 128
  /-- Cycles of an attention operator, by its factors in X, d and the constant of each query and page. -/
  attn (nq q window x dk c : Nat) : Nat :=
    let dim := dimOf (bitsOf (s.seqf q 27 1) 7 6)
    x * divUp (nq * dim) 64 + s.keyPages q window nq * (nq * (dk * dim + dim / 32 + c) + (if x = 2 then 2 else 4) * dim + 24)

/-- CK of the key and value pages an attention operator fetches from Quarry: data and scale frames whose tiered pages are not
pinned to Lintel (R276, R312). -/
def State.kvCk (s : State) (d slot : Nat) (h : TaskHdr) (a : Nat) : Nat :=
  let f (o n : Nat) : Nat := s.imgN d slot h (a + o) n
  let q := f 4 2
  let b := s.seqf q 27 1
  let data := (if b.testBit 5 then 32 else 64) * dimOf (bitsOf b 7 6)
  let part (at_ n : Nat) : Nat := if (s.pte (at_ / 65536)).pin = 1 then 0 else s.quarryCk n
  if f 0 1 = 0x19 ∨ f 0 1 = 0x1B then
    2 * s.keyPages q (f 14 2) (f 2 2) * (part (s.kvDataAt d 0) data + part (s.kvScaleAt d 0) (8 * dimOf (bitsOf b 7 6)))
  else 0

/-- Bytes of a stored tile as admission charges it: the fixed size of a PRIVILEGED tensor in a directory (R200), the raw size of any
other (R198). -/
def storedTile (r : TensorRec) (dir quarter : Bool) : Nat :=
  if !(dir && r.privileged) then 4096
  else if r.fmt == .int4 then 2112
  else if quarter then 1056
  else 2080

/-- Squares of 16 pixels that n pixels with a halo on each side touch. -/
def squaresOf (n halo : Nat) : Nat := divUp halo 16 + divUp (n + halo) 16

/-- Bytes a chain descriptor moves. A conversion moves whole tiles at its blocked end: one for each square of pixels and channel
block. -/
def State.chainBytes (s : State) (d slot : Nat) (h : TaskHdr) (a : Nat) : Nat :=
  let f (o n : Nat) : Nat := s.imgN d slot h (a + o) n
  let op := f 0 1 % 16
  let r := (s.imgRec d slot h (f 31 1 / 16)).getD rawRec
  let tile := storedTile r (bitOf (f 1 1) 4) (Config.planRate s.bond.image (f 20 4))
  let halo := f 30 1 % 16
  let w := f 24 2
  let height := f 26 2
  let c := f 28 2
  if f 2 2 = 0 then 0
  else if op = 1 then f 2 2 * (if w = 4096 then tile else w)
  else if op = 6 then f 2 2 * w
  else if w = 0 ∨ height = 0 ∨ c = 0 then 0
  else if op = 5 then c * (height + 2 * halo) * (w + 2 * halo)
  else if op = 4 ∧ f 1 1 % 4 ≠ 0 then squaresOf w 0 * squaresOf height 0 * divUp c r.fmt.block * tile
  else if op ≠ 4 ∧ f 1 1 / 4 % 4 ≠ 0 then squaresOf w halo * squaresOf height halo * divUp c r.fmt.block * tile
  else c * height * r.fmt.bytes w

/-- Cost of a chain descriptor: its bytes at the core's rate, and what of them lies in Quarry or in another die pair. -/
def State.chainDescCost (s : State) (d slot : Nat) (h : TaskHdr) (a : Nat) : Cost :=
  let f (o n : Nat) : Nat := s.imgN d slot h (a + o) n
  let n := s.chainBytes d slot h a
  let tier (sp at_ : Nat) : Cost :=
    if sp = 2 then
      let p := s.pte (at_ / 65536)
      { ck := if p.pin = 1 then 0 else s.quarryCk n, flight := if p.pin = 1 then 0 else s.burstCk 2048,
        bridge := if p.mapped && p.die != d then n else 0 }
    else {}
  ({ cycles := divUp n 128, ring := n != 0 && f 1 1 / 4 % 4 == 1 && decide (f 4 4 < 0x06000000) } : Cost).add ((tier (f 1 1 / 4 % 4) (f 4 4)).add (tier (f 1 1 % 4) (f 8 4)))

/-- Cost of a chain: its descriptors up to LAST, and 32 cycles. -/
def State.chainCost (s : State) (d slot : Nat) (h : TaskHdr) : Nat → Nat → Cost
  | 0, _ => { cycles := 32 }
  | n + 1, a =>
    let c := s.chainDescCost d slot h a
    if bitOf (s.imgN d slot h (a + 1) 1) 7 then c.add { cycles := 32 } else c.add (s.chainCost d slot h n (a + 64))

/-- Cost of one instruction of a task program. -/
def State.instrCost (s : State) (d slot : Nat) (h : TaskHdr) (w : Nat) : Cost :=
  let op := w / 2 ^ 56
  if op = 1 then { cycles := s.operCycles d slot h (w % 2 ^ 32), kv := s.kvCk d slot h (w % 2 ^ 32),
                   ring := s.imgN d slot h (w % 2 ^ 32) 1 == 0x04 }
  else if op = 2 then s.chainCost d slot h 256 (w % 2 ^ 32)
  else if 0x20 ≤ op ∧ op ≤ 0x25 then { cycles := 5 }
  else if 0x26 ≤ op ∧ op ≤ 0x2E then { cycles := 4 }
  else if op = 0x2F then { cycles := 6 }
  else if op = 0x30 then { cycles := 5 }
  else if 0x31 ≤ op ∧ op ≤ 0x35 then { cycles := 16 }
  else if op = 0x36 ∨ op = 0x37 then { cycles := 7 }
  else if op = 0x39 ∨ op = 0x3A then { cycles := 5 }
  else if op = 0x38 ∨ op = 0x3B then { cycles := 4 }
  else {}

/-- How often instruction i runs: the product of the SETL immediates of the DJNZ loops it lies in. -/
def loopTimes (text : List Nat) (i : Nat) : Nat :=
  let at_ (j : Nat) : Nat := lget 0 text j
  ((List.range text.length).filter (fun j => at_ j / 2 ^ 56 == 6 && decide (i ≤ j) && decide (at_ j % 1024 ≤ i))).foldl
    (fun acc j =>
      let c := bitsOf (at_ j) 41 40
      match ((List.range (at_ j % 1024)).filter (fun k => at_ k / 2 ^ 56 == 5 && bitsOf (at_ k) 41 40 == c)).getLast? with
      | some k => acc * max 1 (at_ k % 2 ^ 32)
      | none => acc) 1

/-- The cost of a task as R334 sums it: dispatch and image, program, stream swaps, dependences on other die pairs (`cross` of them),
core-store conflicts, then droop. -/
def State.taskCost (s : State) (freq d slot off cross : Nat) : Cost :=
  let h := s.taskHdr d off
  let text := (List.range h.prog).map (fun i => s.imgN d slot h (h.progAddr + 8 * i) 8)
  let body := ((List.range h.prog).zip text).foldl
    (fun (acc : Cost) (p : Nat × Nat) => acc.add (Cost.times (loopTimes text p.1) (s.instrCost d slot h p.2))) {}
  let image := if h.src = 0 ∨ 64 * h.len ≤ 8192 then 0 else divUp (64 * h.len - 8192) 128
  let swap := match s.chunkOf d slot off with
    | some k => if s.ctxFlag k.ctx 4 then 0 else 2 * divUp (s.ctxBytes k.ctx) 128
    | none => 0
  let sum := 256 + image + body.cycles + swap + s.ckCycles freq (body.ck + body.flight) + divUp body.bridge 1024 +
    96 * cross + Config.coreConflicts d off
  { cycles := divUp (sum * 65) 64, ck := body.ck, kv := body.kv, bridge := body.bridge, ring := body.ring }

end Sys2Proof.Machine
end

