-- ==== Sys2Proof/Machine/Bond.lean ====
section
/-!
DEFINITION. The Bond plan (R327 to R357): admission and re-admission, frame boundaries with the choice of a variant, coverage
records, quotas and accounts, and the BOND registers.
-/
namespace Sys2Proof.Machine

/-! ### Signatures (R519) -/

/-- The signature trailer at the end of an image is valid: `kind` is 1 for a plan, 2 for a model. -/
def State.trailerOk (s : State) (kind : Nat) (img : List Byte) : Bool :=
  let t := img.drop (img.length - 128)
  let slot := leAt t 1 1
  let key := (t.drop 32).take 32
  let k : KeySlot := lget {} s.mgmt.ownerKeys slot
  decide (128 ≤ img.length) && leAt t 0 1 == kind && decide (slot < 4) && leAt t 2 30 == 0 && !k.revoked &&
    k.hash == some ((sha512 key).take 32) && edVerify key (sha512 (img.take (img.length - 128))) (t.drop 64)

/-- A signature check fails: SEC_SIG_FAIL advances and SIG_FAIL is raised. -/
def State.sigFail (s : State) : State := (s.bump 0x100010).raise evSec 2

/-! ### Resources -/

/-- Die pairs in service: present, not FAILED, not counted absent under R143. -/
def State.pairsInService (s : State) : List Nat :=
  s.dies.filter (fun d => (s.dieAt d).st != .failed && !(s.dieAt d).short)

/-- COURSE_LGg_VMAX over the enabled line generators. -/
def State.courseVmax (s : State) : Nat :=
  (((List.range 4).filter (fun g => s.rbit (aLg g) 31)).map s.lgVmax).foldl min m32

/-- ACQ_GRPg_VMAX over the enabled groups. -/
def State.acqVmax (s : State) : Nat :=
  (((List.range s.nGrp).filter (fun g => s.rbit (0x20100 + 0x40 * g) 31)).map s.grpVmax).foldl min m32

/-- Bits of a mask of 48 slots. -/
def slotList (m : Nat) : List Nat := (List.range 48).filter (fun i => m.testBit i)

/-- Instances a task is charged for (R334). -/
def charged (e : TaskEntry) : Nat := if e.repeatMax = 0 then 1 else e.repeatBudget

/-! ### Admission (R334 to R337) -/

/-- A placement: a template of a plan bound to slots of a die pair, with the times it runs in K frames of one. -/
structure Placed where
  die : Nat
  /-- Number of the template. -/
  idx : Nat
  tpl : Template
  roleSlot : List Nat
  deriving DecidableEq, Repr, Inhabited

/-- The placements of a variant on a die pair: its tile-set entries and its FRAME entries; 0xFFFF places nothing. -/
def placements (p : Plan) (d : Nat) (v : VarDie) : List Placed :=
  (v.map ++ v.frames).filterMap (fun m => match p.templates[m.template]? with
    | some t => some { die := d, idx := m.template, tpl := t, roleSlot := m.roleSlot }
    | none => none)

/-- The tasks of a placement: slot and entry. -/
def Placed.tasks (x : Placed) : List (Nat × TaskEntry) := x.tpl.graph.map (fun e => (lget 0 x.roleSlot e.slot, e))

/-- Declared WCET of a task, charged REPEAT_BUDGET times. -/
def State.wcetOf (s : State) (d : Nat) (e : TaskEntry) : Nat := charged e * (s.taskHdr d e.header).wcet

/-- K(s): the longest PERIOD of the templates on a slot. -/
def slotPeriod (l : List Placed) (i : Nat) : Nat :=
  (l.filter (fun x => x.tasks.any (fun k => k.1 == i))).foldl (fun k x => max k (if x.tpl.tileset then 1 else max 1 x.tpl.period)) 1

/-- demand(s) of R336. -/
def State.demand (s : State) (p : Plan) (l : List Placed) (d i : Nat) : Nat :=
  let k := slotPeriod l i
  let reload := (p.resident.filter (fun r => r.die == d && r.slot == i)).foldl (fun n r => max n (divUp r.len 128)) 0
  let ks := ((p.keystone.filter (fun e => e.slot == i)).map (s.wcetOf d)).sum
  let work := (l.map (fun x =>
    let n := k / (if x.tpl.tileset then 1 else max 1 x.tpl.period)
    n * ((x.tasks.filter (fun q => q.1 == i)).map (fun q => s.wcetOf d q.2)).sum)).sum
  reload + k * ks + work

/-- block(s) of R336: the largest WCET of a task on a slot. -/
def State.blockOf (s : State) (p : Plan) (l : List Placed) (d i : Nat) : Nat :=
  ((l.flatMap (fun x => (x.tasks.filter (fun q => q.1 == i)).map (fun q => (s.taskHdr d q.2.header).wcet))) ++
    ((p.keystone.filter (fun e => e.slot == i)).map (fun e => (s.taskHdr d e.header).wcet))).foldl max 0

/-- One round of response bounds over the placements of a variant: each task's from its predecessors' in its graph, at 32 cycles, and
in other die pairs, at 96 more (R136, R336). `cost` gives demand and block of the tasks' slots. -/
def respRound (l : List Placed) (cost r : List (List Nat)) : List (List Nat) :=
  ((List.range l.length).zip l).map (fun (i, x) => ((List.range x.tpl.graph.length).zip x.tpl.graph).map (fun (t, e) =>
    let own := ((List.range x.tpl.graph.length).zip x.tpl.graph).filterMap (fun (u, q) =>
      if q.succ.contains t then some (lget 0 (lget [] r i) u + 32) else none)
    let far := e.cross.flatMap (fun c => ((List.range l.length).zip l).filterMap (fun (j, y) =>
      if y.die == c.1 && y.idx == c.2.1 then some (lget 0 (lget [] r j) c.2.2 + 32 + 96) else none))
    (own ++ far).foldl max 0 + lget 0 (lget [] cost i) t))

/-- resp(t) of every task of a variant's placements: as many rounds as there are tasks. -/
def respAll (l : List Placed) (cost : List (List Nat)) : Nat → List (List Nat) → List (List Nat)
  | 0, r => r
  | n + 1, r => respAll l cost n (respRound l cost r)

/-- The placements of a variant on the die pairs in service, each with the response bounds of its tasks. -/
def State.responses (s : State) (p : Plan) (v : List VarDie) : List (Placed × List Nat) :=
  let l := s.pairsInService.flatMap (fun d => match v[d]? with
    | some x => placements p d x
    | none => [])
  let cost := l.map (fun x =>
    let mine := l.filter (fun y => y.die == x.die)
    x.tasks.map (fun q => s.demand p mine x.die q.1 + s.blockOf p mine x.die q.1))
  l.zip (respAll l cost (cost.map (·.length)).sum (cost.map (fun c => c.map (fun _ => 0))))

/-- Frequency of a code in Hz. -/
def freqHz (f : Nat) : Nat := freqUnits f * 200000000

/-- A limit on a variant's speed, with the code of BOND_BIND. -/
structure Limit where
  vp : Nat
  code : Nat
  deriving DecidableEq, Repr, Inhabited

/-- The lesser of two limits, the first of equals. -/
def Limit.meet (a b : Limit) : Limit := if b.vp < a.vp then b else a

/-- Speed of n µm of strip per `cyc` cycles; no limit for none. -/
def speedOf (um hz cyc : Nat) : Nat := if cyc = 0 then m32 else min m32 (um * hz / cyc)

/-- The limits one die pair sets on a variant; a PATH task beyond its stage windows gives speed 0. `resp` holds the response bounds of
its placements. -/
def State.dieLimits (s : State) (p : Plan) (d : Nat) (v : VarDie) (resp : List (Placed × List Nat)) : Limit :=
  let hz := freqHz p.freq
  let lf := p.frameBands * 256 * (s.regGet 0x20010).toNat
  let h := min 128 (s.rfld 0x70014 7 0)
  let l := placements p d v
  let net (k cyc : Nat) : Nat := speedOf (k * lf * (256 - h)) hz (65536 * 256 * cyc)
  let dm := (List.range 48).map (s.demand p l d)
  let slots := (slotList v.slotUse).foldl (fun (a : Limit) i =>
    a.meet { vp := net (slotPeriod l i) (lget 0 dm i), code := 1 }) { vp := m32, code := 0 }
  let late := resp.any (fun (x, r) => x.tpl.path &&
    r.any (fun c => decide (hz * ((p.stageWin.drop 2).take (x.tpl.stage - 2)).sum < c * 1000000)))
  let ring := resp.foldl (fun (a : Limit) (x, r) => (x.tasks.zip r).foldl (fun (a : Limit) (q, c) =>
    if (s.taskCost p.freq d q.1 q.2.header 0).ring then
      a.meet { vp := speedOf (2665 * (s.regGet 0x20010).toNat) hz (65536 * c), code := 4 } else a) a) slots
  let bg := resp.foldl (fun (a : Limit) (x, r) =>
    if x.tpl.path then a else a.meet {
      vp := speedOf ((if x.tpl.tileset then 1 else max 1 x.tpl.period) * lf) hz (65536 * r.foldl max 0), code := 8 }) ring
  let kq := l.foldl (fun k x => max k (if x.tpl.tileset then 1 else max 1 x.tpl.period)) 1
  let cost := l.foldl (fun (a : Cost) x =>
    let n := kq / (if x.tpl.tileset then 1 else max 1 x.tpl.period)
    a.add (Cost.times n (x.tasks.foldl (fun (b : Cost) q => b.add (Cost.times (charged q.2) (s.taskCost p.freq d q.1 q.2.header q.2.cross.length))) {})))
    {}
  let chans := ((List.range 4).filter (fun c => (s.qchAt (4 * d + c)).st != .excluded && (s.qchAt (4 * d + c)).st != .absent)).length
  let tasks := (l.map (fun x => kq / (if x.tpl.tileset then 1 else max 1 x.tpl.period) * (x.tasks.map (fun q => charged q.2)).sum)).sum
  let q := bg.meet { vp := net kq (s.ckCycles p.freq (divUp (cost.ck + cost.kv) (max 1 chans))), code := 5 }
  let b := q.meet { vp := net kq (divUp cost.bridge 1024), code := 6 }
  let all := b.meet { vp := net kq (4 * tasks), code := 7 }
  if late then { vp := 0, code := 0 } else all

/-- vp and binding limit of one variant. -/
def State.variantLimit (s : State) (p : Plan) (v : List VarDie) : Limit :=
  let pairs := s.pairsInService
  let used := (pairs.map (fun d => match v[d]? with
    | some x => (slotList (x.slotUse ||| x.clientMask)).length
    | none => 0)).sum
  if s.power.granted < used then { vp := 0, code := 0 }
  else
    let l : Limit := Limit.meet { vp := s.courseVmax, code := 2 } { vp := s.acqVmax, code := 3 }
    let resp := s.responses p v
    let l := pairs.foldl (fun (a : Limit) d => match v[d]? with
      | some x => let y := s.dieLimits p d x (resp.filter (fun r => r.1.die == d))
        if y.vp < a.vp then y else a
      | none => a) l
    if l.vp = 0 then { vp := 0, code := 0 } else l

/-- Runs R336 for the variants given: the figures of the four variants. -/
def State.figures (s : State) (p : Plan) (vs : List (List VarDie)) : Admission :=
  let ls := vs.map (s.variantLimit p)
  let pad (l : List Nat) : List Nat := (l ++ [0, 0, 0, 0]).take 4
  { vp := pad (ls.map (·.vp)), bind := pad (ls.map (·.code)), reason := .none, variants := vs }

/-- A graph of a template is well formed (R322, R323, R330): successors in range, no cycle, roles 0 to 7. -/
def graphOk (g : List TaskEntry) : Bool :=
  let n := g.length
  let drop (l : List Nat) : List Nat := l.filter (fun t => l.any (fun u => match g[u]? with
    | some e => e.succ.contains t
    | none => false))
  let left := (List.range n).foldl (fun l _ => drop l) (List.range n)
  decide (n ≤ 4096) && g.all (fun e => decide (e.succ.length ≤ 16) && e.succ.all (fun t => decide (t < n)) &&
    decide (e.repeatMax ≤ 4096) && decide (e.repeatBudget ≤ e.repeatMax)) && left.isEmpty

/-- The dependences on other die pairs are well formed (R25, R136): only tasks of FRAME templates have them, each names a task of a FRAME
template and a die pair of the part, and none runs in a circle, whatever the die pairs. -/
def State.crossOk (s : State) (p : Plan) : Bool :=
  let node (k t : Nat) : Option TaskEntry := match p.templates[k]? with
    | some x => x.graph[t]?
    | none => none
  let nodes := (List.range p.templates.length).flatMap (fun k => match p.templates[k]? with
    | some x => if x.tileset then [] else (List.range x.graph.length).map (fun t => (k, t))
    | none => [])
  let preds (n : Nat × Nat) : List (Nat × Nat) := match node n.1 n.2 with
    | none => []
    | some e => e.cross.map (·.2) ++ (nodes.filter (fun m => m.1 == n.1 && (node m.1 m.2).any (fun q => q.succ.contains n.2)))
  let drop (l : List (Nat × Nat)) : List (Nat × Nat) := l.filter (fun n => (preds n).any (fun m => l.contains m))
  p.keystone.all (fun e => e.cross.isEmpty) && p.templates.all (fun x => !x.tileset || x.graph.all (fun e => e.cross.isEmpty)) &&
    nodes.all (fun n => (node n.1 n.2).all (fun e => e.cross.all (fun c => s.hasDie c.1 && nodes.contains c.2))) &&
    (nodes.foldl (fun l _ => drop l) nodes).isEmpty

/-- A section of the plan is malformed, or a PERIOD on a slot does not divide the slot's K (R328, R330, R331, R336). -/
def State.planFormat (s : State) (p : Plan) : Bool :=
  let tplBad := p.templates.any (fun t => !graphOk t.graph || t.graph.any (fun e => decide (8 ≤ e.slot)) ||
    decide (t.stage < 3) || decide (6 < t.stage) || decide (256 < t.period) ||
    (if t.tileset then t.period != 1 else decide (t.period ≤ t.phase)))
  let varBad := p.variants.any (fun v => s.dies.any (fun d => match v[d]? with
    | none => true
    | some x =>
      let l := placements p d x
      x.map.length != 32 * p.frameBands || (x.slotUse &&& x.clientMask) != 0 ||
        x.map.any (fun m => match p.templates[m.template]? with | some t => !t.tileset | none => m.template != 0xFFFF) ||
        x.frames.any (fun m => match p.templates[m.template]? with | some t => t.tileset | none => true) ||
        l.any (fun y => y.tasks.any (fun q => decide (48 ≤ q.1) || !x.slotUse.testBit q.1 || !(s.taskHdr d q.2.header).ok)) ||
        l.any (fun y => !y.tpl.tileset && y.tasks.any (fun q => slotPeriod l q.1 % (max 1 y.tpl.period) != 0))))
  decide (3 ≤ p.freq) || decide (p.frameBands = 0) || decide (4 < p.frameBands) || p.variants.isEmpty ||
    decide (4 < p.variants.length) || p.stageWin.length != 8 || decide (1024 < p.templates.length) || tplBad || varBad ||
    !graphOk p.keystone || !s.crossOk p || p.models.any (fun m => !s.sdio.models.any (fun x => x.digest == m))

/-- A task's declared WCET is below the recomputed one (R335). -/
def State.planWcet (s : State) (p : Plan) : Bool :=
  p.variants.any (fun v => s.dies.any (fun d => match v[d]? with
    | none => false
    | some x => (placements p d x).any (fun y => y.tasks.any (fun q =>
        decide ((s.taskHdr d q.2.header).wcet < (s.taskCost p.freq d q.1 q.2.header q.2.cross.length).cycles))))) ||
    s.dies.any (fun d => p.keystone.any (fun e =>
      decide ((s.taskHdr d e.header).wcet < (s.taskCost p.freq d e.slot e.header 0).cycles)))

/-- A reservation exceeds its limit. -/
def State.planResources (s : State) (p : Plan) : Bool :=
  p.planGraphs.any (fun n => decide (512 < n)) || p.planTasks.any (fun n => decide (32768 < n)) ||
    p.ctxs.any (fun c => !s.ctxOk c.ctx || decide (s.slotBytes (ctxDie c.ctx) < 64 * c.size)) ||
    p.seqs.any (fun q => !s.seqOk q.seq || s.seqOpenErr q.seq q.heads q.dim q.maxPages q.q4 q.pitch q.listAddr != 0) ||
    p.pages.any (fun g => g.count != 0 && (decide (65536 < g.first + g.count) || !s.hasDie ((g.first + g.count - 1) / 16384))) ||
    s.dies.any (fun d => decide (s.rfld (bStream d + 0x14) 31 16 <
      2 + (p.ctxs.filter (fun c => c.pinned && ctxDie c.ctx == d)).length) && p.ctxs.any (fun c => c.pinned && ctxDie c.ctx == d))

/-- The resident regions of a slot and variant exceed the core store. -/
def planCoreStore (p : Plan) : Bool :=
  p.resident.any (fun r => decide (0x200000 < ((p.resident.filter (fun q =>
    q.die == r.die && q.slot == r.slot && q.variant == r.variant)).map (·.len)).sum))

/-- The outcome of an admission: its figures and, where the plan is refused, the first reason of R337's list. -/
def State.admission (s : State) (p : Plan) : Admission :=
  let none_ (r : AdmitReason) : Admission := { reason := r, variants := p.variants }
  if s.planFormat p then none_ .format
  else if s.planWcet p then none_ .wcetMismatch
  else if s.planResources p then none_ .resources
  else if planCoreStore p then none_ .coreStore
  else if 14000 < p.stageWin.sum then none_ .latency
  else
    let a := s.figures p p.variants
    if a.vp.foldl max 0 < p.minSpeed then { a with reason := .belowMin }
    else if (s.mgmt.ownerSig || s.mgmt.ownerSigFuse) && !s.trailerOk 1 s.bond.image then { a with reason := .signature }
    else a

/-- ADMIT_REASON (R356). -/
def AdmitReason.code : AdmitReason → Nat
  | .none => 0 | .format => 1 | .wcetMismatch => 2 | .resources => 3 | .coreStore => 4 | .latency => 5 | .belowMin => 6
  | .budget => 7 | .signature => 8

/-- BOND_STATUS. -/
def State.bondStatus (s : State) : Nat :=
  let b := s.bond
  let adm := (List.range 4).foldl (fun n i => n + (if lget 0 b.adm.vp i = 0 then 0 else 2 ^ i)) 0
  b.adm.reason.code * 2 ^ 24 + adm * 2 ^ 20 + b2n b.overspeed * 2 ^ 15 + b2n b.readmitting * 2 ^ 14 + b.variant % 4 * 2 ^ 12 +
    b.st.code

/-- BOND_BIND. -/
def State.bondBind (s : State) : Nat := (List.range 4).foldl (fun n i => n + lget 0 s.bond.adm.bind i * 16 ^ i) 0

/-- The result of PLAN_ADMIT (R510). -/
def State.admitBytes (s : State) : List Byte :=
  leBytes 4 s.bondStatus ++ (List.range 4).flatMap (fun i => leBytes 4 (lget 0 s.bond.adm.vp i)) ++ leBytes 4 s.vlimit ++
    leBytes 4 s.bondBind ++ leBytes 4 0

/-- Firmware runs the admission of the loaded plan (R336, R337): its figures, its state and its events. A plan image that does not
parse is refused FORMAT. -/
def State.admitNow (s : State) : State :=
  let a : Admission := match s.bond.plan with
    | some p => s.admission p
    | none => { reason := .format }
  let good := a.reason == .none
  let s := if a.reason == .signature then s.sigFail else s
  let s := s.updBond (fun b => { b with
    adm := a, st := if good then .admitted else .loaded, variant := 0, hold := 0, overspeed := false })
  s.raise evBond (if good then 12 else 11)

/-- ADMISSION_DONE: the admission of a deferred PLAN_ADMIT completes. -/
def execAdmissionDone (t : Nat) (s : State) : Out :=
  let s := s.to t
  guardNext (s.sdio.deferred.any (fun d => d.pkt.cmd == .planAdmit)) s (fun s =>
    if (s.bond.st == .loaded || s.bond.st == .admitted) && !s.bond.startPending then
      let s := s.admitNow
      let bs := s.admitBytes
      s.answerDeferred (fun d => if d.pkt.cmd == .planAdmit then some (if s.bond.st == .admitted then 0 else 0x020B, bs) else none)
    else s.answerDeferred (fun d => if d.pkt.cmd == .planAdmit then some (0x0203, []) else none))

/-! ### Re-admission (R347, R348) -/

/-- The slot a VACANT slot's work moves to: the first along its SUCC chain that is not VACANT. -/
def State.succSlot (s : State) (d : Nat) (succ : List Nat) : Nat → Nat → Option Nat
  | 0, _ => none
  | n + 1, i => if 48 ≤ i then none else if !(s.slotAt d i).vacant then some i else s.succSlot d succ n (lget 0xFF succ i)

/-- What a re-admission makes of a variant on a die pair: entries and roles moved off VACANT slots, or left without a graph;
the slots work moved to leave the client-slot mask. -/
def State.moveVar (s : State) (p : Plan) (d : Nat) (v : VarDie) : VarDie :=
  let used (m : MapEntry) : List Nat := match p.templates[m.template]? with
    | some t => t.graph.map (fun e => e.slot)
    | none => []
  let move (m : MapEntry) : MapEntry :=
    let to_ := m.roleSlot.map (fun i => s.succSlot d v.succ 49 i)
    if (used m).any (fun r => (lget none to_ r).isNone) then { m with template := 0xFFFF }
    else { m with roleSlot := (m.roleSlot.zip to_).map (fun x => x.2.getD x.1) }
  let map := v.map.map move
  let frames := v.frames.map move
  let now := ((map ++ frames).flatMap (fun m => (used m).map (fun r => lget 0 m.roleSlot r))).foldl (fun n i => n ||| 2 ^ i) 0
  { v with map := map, frames := frames, slotUse := v.slotUse ||| now, clientMask := v.clientMask &&& (2 ^ 48 - 1 - now) }

/-- A re-admission completes; its figures and mappings wait for the next frame boundary. -/
def State.readmitDone (s : State) (p : Plan) : State :=
  let old := s.vlimit
  let was := s.bond.adm.variants
  let vs := was.map (fun v => ((List.range v.length).zip v).map (fun (d, x) => s.moveVar p d x))
  let lost := (was.zip vs).any (fun (a, b) => (a.zip b).any (fun (x, y) => x.clientMask != y.clientMask))
  let a := s.figures p vs
  let s := s.updBond (fun b => { b with readmitting := b.readmitAgain, readmitAgain := false, readmitted := some a })
  let s := if lost then s.raise evBond 6 else s
  if a.vp.foldl max 0 < old then s.raise evBond 8 else s

/-! ### Coverage records (R352 to R354) -/

/-- Writes one coverage record. -/
def State.emitCov (s : State) (c : Cov) : State :=
  let s := s.bump 0x70050
  let seq := (s.regGet 0x70050).toNat
  let area := if c.cause = 10 then 0 else
    ((c.spEnd - c.spStart) * (c.x1 - c.x0)).toNat * ((List.range 4).filter (fun i => c.chans.testBit i)).length / 1000000
  let tot := (s.regGet 0x70054).toNat + 2 ^ 32 * (s.regGet 0x70058).toNat + area
  let s := (s.regSet 0x70054 (wordOf tot)).regSet 0x70058 (wordOf (tot / 2 ^ 32))
  let s := s.emit 3 0xFF (le64 c.spStart ++ le64 c.spEnd ++ leBytes 4 (codeOf 32 c.x0) ++ leBytes 4 (codeOf 32 c.x1) ++
    leBytes 1 c.chans ++ leBytes 1 c.cause ++ leBytes 2 c.flags ++ leBytes 4 seq)
  s.raise evBond 0

/-- Emits the coverage records of the frame that ends; those beyond 1,024 leave as one. -/
def State.emitCovs (s : State) : State :=
  let l := s.bond.covs
  let s := s.updBond (fun b => { b with covs := [] })
  let (x0, x1) := s.gridX
  let rest := l.drop 1024
  let extra : List Cov := match rest with
    | [] => []
    | c :: r => [{
      spStart := r.foldl (fun a x => min a x.spStart) c.spStart, spEnd := r.foldl (fun a x => max a x.spEnd) c.spEnd,
      x0 := x0, x1 := x1, chans := rest.foldl (fun n x => n ||| x.chans) 0, cause := c.cause, flags := 2 }]
  s.each (l.take 1024 ++ extra) State.emitCov

/-! ### Frame boundaries (R327) -/

/-- A completed re-admission takes effect. -/
def State.takeReadmitted (s : State) : State :=
  match s.bond.readmitted with
  | none => s
  | some a => (s.updBond (fun b => { b with adm := a, readmitted := none })).raise evBond 7

/-- The variant after one that is cheaper: the next admissible one of a higher number. -/
def State.cheaper (s : State) (v : Nat) : Option Nat :=
  (List.range 4).find? (fun i => decide (v < i) && lget 0 s.bond.adm.vp i != 0)

/-- The target of R341, and whether no variant is proven for the speed. -/
def State.vtarget (s : State) (speed : Nat) : Nat × Bool :=
  let vp := s.bond.adm.vp
  let up := s.rfld 0x70010 31 24
  match (List.range 4).find? (fun i => lget 0 vp i != 0 && decide (speed * (256 + up) ≤ 256 * lget 0 vp i)) with
  | some i => (i, false)
  | none =>
    let best := vp.foldl max 0
    if best = 0 then (s.bond.variant, true) else (vp.findIdx (fun x => x == best), true)

/-- Selects the variant at a frame boundary (R341). -/
def State.selectVariant (s : State) : State :=
  let speed := s.course.speed.natAbs
  let cur := s.bond.variant
  let (tg, beyond) := s.vtarget speed
  let s := s.updBond (fun b => { b with overspeed := beyond })
  let s := if beyond then s.raise evBond 9 else s
  let hold := max 1 (s.rfld 0x70010 15 0)
  let ok := decide (speed * 256 ≤ lget 0 s.bond.adm.vp tg * (256 - s.rfld 0x70010 23 16))
  let cnt := if tg < cur && ok then s.bond.hold + 1 else 0
  let pick := if cur < tg then tg else if tg < cur && decide (hold ≤ cnt) then tg else cur
  let sig := s.bond.signalLate
  let pick := if sig then max pick ((s.cheaper cur).getD cur) else pick
  let s := s.updBond (fun b => { b with
    hold := if sig || pick != cur then 0 else cnt, signalLate := false, variant := pick })
  if pick = cur then s else (s.bump 0x70040).raise evBond 10

/-- The model epoch switches when one is staged (R145): its values take the places of the current ones in every die pair at once. What
they were is kept for the tasks in flight that began with them. -/
def State.switchEpoch (s : State) : State :=
  if !s.bond.epochStaged then s
  else
    let key (p : Nat × Nat × List Byte) : Nat := memKey (spLintel p.1) p.2.1
    let was := s.adapt.places.map (fun p => (key p, s.ldBytes (key p) p.2.2.length))
    let busy := s.dies.flatMap (fun d => (s.dieAt d).run.filterMap (fun r => r.map (·.epoch)))
    let olds := ((s.bond.epoch, was) :: s.adapt.olds).filter (fun o => busy.any (fun e => decide (e ≤ o.1)))
    let s := s.each s.adapt.places (fun s p => s.stBytes (key p) p.2.2)
    let s := s.updBond (fun b => { b with epoch := b.epoch + 1, epochStaged := false })
    let s := s.updAdapt (fun a =>
      let a := { a with places := [], olds := olds }
      match a.staged with
      | some e => { a with previous := a.current, current := e, staged := none }
      | none => a)
    let s := s.updPlumb (fun p => { p with ksAfterEpoch := true })
    s.each s.dies (fun s d => (s.regSet (bFabric d + 0x2C) (wordOf s.bond.epoch)).raise (evFabric d) 1)

/-- A waiting PLAN_START takes effect (R339): the compute dies run the plan. -/
def State.planBegins (s : State) (n : Int) (p : Plan) : State :=
  if !(s.bond.startPending && s.bond.st == .admitted) then s
  else
    let s := s.updBond (fun b => { b with
      st := .running, startPending := false, fromBand := n * (p.frameBands : Int), resume := [], resumed := [],
      covs := [], hold := 0, signalLate := false })
    s.each s.dies (fun s d => s.updDie d (fun x => { x with st := if x.st == .ready then .running else x.st }))

/-- Restarted die pairs resume the plan (R346). -/
def State.resumePairs (s : State) (n : Int) (p : Plan) : State :=
  if s.restarting || s.plumb.held then s
  else
    let ready (d : Nat) : Bool := (s.dieAt d).st == .ready || (s.dieAt d).st == .running
    let l := s.bond.resume.filter (fun x => ready x.1)
    let s := s.updBond (fun b => { b with
      resume := b.resume.filter (fun x => !ready x.1),
      resumed := l.map (fun x => (x.1, n * (p.frameBands : Int), x.2)) ++ b.resumed.filter (fun y => !l.any (fun x => x.1 == y.1)) })
    s.each l (fun s x => s.updDie x.1 (fun y => { y with st := .running }))

/-- Releases the Keystone graph of a frame (R333). -/
def State.releaseKeystone (s : State) (n : Int) (p : Plan) : State :=
  let l := s.pairsInService
  match l[(n % (max 1 l.length : Nat)).toNat]? with
  | none => s
  | some d =>
    if p.keystone.isEmpty || (s.notResumed d (n * (p.frameBands : Int))).isSome then s
    else
      let g := s.bond.nextGraph
      let s := s.updPlumb (fun q => if q.ksAfterEpoch then { q with ksAfterEpoch := false, ksFirst := some g } else q)
      s.enterGraph d 15 .keystone 0 (s.bandSp (n * (p.frameBands : Int))) none (List.range 48) 0xFFFF p.keystone

/-- The FRAME templates due in a frame (R330), each with its die pair: those whose pair has resumed and whose slots are bound. -/
def State.framesDue (s : State) (n : Int) (p : Plan) : List (Nat × MapEntry × Template) :=
  s.pairsInService.flatMap (fun d =>
    if (s.notResumed d (n * (p.frameBands : Int))).isSome then []
    else match s.varDie s.bond.variant d with
      | none => []
      | some v => v.frames.filterMap (fun m => match p.templates[m.template]? with
        | none => none
        | some t =>
          if t.tileset || n % (max 1 t.period : Nat) != (t.phase : Int) ||
              t.graph.any (fun e => (s.slotAt d (lget 0 m.roleSlot e.slot)).vacant) then none
          else some (d, m, t)))

/-- A shard that no graph of the frame will deliver is given up (R146): its pair has not resumed, or its graph is not released. -/
def State.crossSettle (s : State) : State :=
  let comes (c : Nat × Nat × Nat) : Bool := s.bond.graphs.any (fun g =>
    g.frame == s.bond.frame && g.tile.isNone && g.die == c.1 && g.tpl == c.2.1)
  s.updBond (fun b => { b with graphs := b.graphs.map (fun g =>
    if g.frame != b.frame || g.tile.isSome then g
    else { g with tasks := g.tasks.map (fun k =>
      if k.cross.all comes then k else { k with cross := k.cross.filter comes, shardMiss := true }) }) })

/-- Releases the FRAME templates due in a frame (R330), over all die pairs together, so that their shards meet (R136, R146). -/
def State.releaseFrames (s : State) (n : Int) (p : Plan) : State :=
  let due := s.framesDue n p
  let first := s.bond.nextGraph
  let s := s.each due (fun s x =>
    s.addGraph x.1 15 (if x.2.2.path then .path else .background) x.2.2.stage (s.bandSp (n * (p.frameBands : Int))) none
      x.2.1.roleSlot x.2.1.template x.2.2.graph)
  s.crossSettle.each ((List.range due.length).map (fun k => (first + k) % 2 ^ 32)) State.startGraph

/-- The Bond frame the high-water mark lies in: the greatest n whose start it exceeds. -/
def State.bondFrame (s : State) (p : Plan) : Int :=
  let lf := 256 * ((max 1 p.frameBands : Nat) : Int) * s.pitchFine
  if lf = 0 then s.bond.frame else Int.fdiv (s.course.hwm - 1) lf

/-- A core that is switched on starts from an empty core store, and its resident regions are reloaded (R547, R551). -/
def State.coreClear (s : State) (d p : Nat) : State :=
  (s.zero (memKey (spCore d p) 0) 0x200000).updCore d p (fun c => { c with vreg := [], vside := [], mvBuf := [], drainQ := [], conv := [], reload := true })

/-- The cores that are on now and were not before, but for those whose slot still runs a task. -/
def State.switchCores (s old : State) : State :=
  s.each s.dies (fun s d => s.each ((List.range 52).filter (fun p => s.coreOn d p && !old.coreOn d p)) (fun s p =>
    match (s.coreAt d p).role with
    | .inSlot i => if (s.runAt d i).isSome then s else s.coreClear d p
    | _ => s))

/-- A Bond frame begins (R327). -/
def State.frameStep (s : State) (n : Int) (p : Plan) : State :=
  let s := s.emitCovs.updBond (fun b => { b with frame := n, framed := true })
  let old := s
  let s := (s.planBegins n p).takeReadmitted
  let s := if s.bond.st == .running then s.selectVariant else s
  let s := (s.switchCores old).switchEpoch.resumePairs n p
  let s := if s.bond.st == old.bond.st && s.bond.variant == old.bond.variant && s.bond.epoch == old.bond.epoch then s else s.refresh
  let cf := s.rfld 0x50100 15 0
  let s := if cf != 0 && n % (cf : Int) == 0 then s.commitBegin else s
  if s.bond.st == .running then (s.releaseKeystone n p).releaseFrames n p else s

/-- FRAME_BOUNDARY: the high-water mark has entered another frame. -/
def execFrameBoundary (t : Nat) (s : State) : Out :=
  let s := s.to t
  match s.bond.plan with
  | none => .next s
  | some p =>
    let n := s.bondFrame p
    guardNext (n != s.bond.frame) s (fun s => s.frameStep n p)

/-- PLAN_STOP_DONE: the graphs released before PLAN_STOP have completed (R339). -/
def execPlanStopDone (t : Nat) (s : State) : Out :=
  let s := s.to t
  guardNext (s.bond.st == .stopping && !s.bond.graphs.any (fun g => g.client == 15)) s (fun s =>
    let old := s
    let s := s.updBond (fun b => { b with st := .admitted, resume := [], resumed := [] })
    (s.each s.dies (fun s d => s.updDie d (fun x => { x with st := if x.st == .running then .ready else x.st }))).switchCores old)

/-! ### Quotas and accounts (R350, R351) -/

/-- LOCAL's accounting period: 10 ms each. -/
def State.periodNow (s : State) : Nat := s.local / 2 ^ 32 / 10000000

/-- ACCOUNTING_PERIOD: a period has ended. -/
def execAccountingPeriod (t : Nat) (s : State) : Out :=
  let s := s.to t
  guardNext (s.periodNow != s.bond.periodStart) s (fun s =>
    let debts := (List.range 15).map (fun c =>
      (c, countOf s.bond.debt c + countOf s.bond.used c - 256 * s.rfld (0x70100 + 8 * c) 23 0))
    (s.updBond (fun b => { b with debt := debts, used := [], periodStart := s.periodNow })).bump 0x7005C)

/-- The sum of two accounts. -/
def Account.add (a b : Account) : Account :=
  { cycles := a.cycles + b.cycles, lintel := a.lintel + b.lintel, quarry := a.quarry + b.quarry, bridge := a.bridge + b.bridge,
    uj := a.uj + b.uj, sat := satAdd 32 a.sat b.sat, nan := satAdd 32 a.nan b.nan, escOvf := satAdd 32 a.escOvf b.escOvf,
    emptyRow := satAdd 32 a.emptyRow b.emptyRow, msCycles := a.msCycles + b.msCycles }

/-- The account of a client on a die, 4 and above for all dies. -/
def State.acctOf (s : State) (client die : Nat) : Account :=
  if die < 4 then s.account client die else ((List.range 4).map (s.account client)).foldl Account.add {}

/-- The fourteen words of an account (R355). -/
def Account.words (a : Account) : List Word :=
  [a.cycles, a.lintel, a.quarry, a.bridge, a.uj].flatMap (fun n => [wordOf n, wordOf (n / 2 ^ 32)]) ++
    [a.sat, a.nan, a.escOvf, a.emptyRow].map wordOf

/-- A write of BOND_ACCT_SEL. -/
def State.acctSel (s : State) (v : Word) : State :=
  let s := s.regSet 0x70060 (v &&& 0x7F#32)
  let w := (s.acctOf (fld v 3 0) (fld v 6 4)).words
  s.each ((List.range 14).zip w) (fun s (i, x) => s.regSet (0x70080 + 4 * i) x)

/-- A write of BOND_CMD (R357). -/
def State.bondCmd (s : State) (v : Word) : State :=
  match v.toNat with
  | 1 => s.readmit
  | 2 =>
    let s := s.each [0x70040, 0x70044, 0x70048, 0x7004C, 0x70054, 0x70058] (fun s a => s.regSet a 0#32)
    s.updBond (fun b => { b with accounts := [] })
  | _ => s

/-- The BOND registers that are not stored. -/
def State.bondView (s : State) (o : Nat) : Option Nat :=
  if o = 0 then some s.bondStatus
  else if 0x20 ≤ o ∧ o < 0x30 then some (lget 0 s.bond.adm.vp ((o - 0x20) / 4))
  else if o = 0x30 then some s.vlimit
  else if o = 0x34 then some s.bondBind
  else if o = 0x38 then some (if s.bond.framed then codeOf 64 s.bond.frame % 2 ^ 32 else 0)
  else if o = 0x3C then some (if s.bond.framed then codeOf 64 s.bond.frame / 2 ^ 32 else 0)
  else if 0x100 ≤ o ∧ o < 0x178 ∧ o % 8 = 4 then some (min m32 (countOf s.bond.debt ((o - 0x104) / 8)))
  else none

end Sys2Proof.Machine
end

