-- ==== Sys2Proof/Machine/LineGen.lean ====
section
/-!
DEFINITION. Line generators (R54 to R59): line positions crossed, late triggers, skipped phase cycles, strobes (R61), and
the stamps handed to the groups.
-/
namespace Sys2Proof.Machine

/-- MIN_NS has passed since the last trigger of a generator. -/
def State.lgMinDone (s : State) (g : Nat) : Bool :=
  match (s.lgAt g).lastIssue with
  | none => true
  | some l => decide ((s.regGet (aLg g + 0x14)).toNat ≤ 2 * (s.now - l))

/-- Strobes bound to a phase of a generator. -/
def State.boundOuts (s : State) (g ph : Nat) : List Nat :=
  (List.range 24).filter (fun o => s.rfld (aOut o) 31 30 == 1 && s.rfld (aOut o) 29 28 == g && s.rfld (aOut o) 27 26 == ph)

/-- A generator issues the trigger of a phase's line position n on this tick (R57): a stamp to each group of GROUP_MASK, the
trigger on the uplink that UPLINK selects, and the strobes of the phase as R61 times them from the crossing: one whose
strobe has started ahead of it fires no second one, and a negative LEAD rounds down to a 2 ns tick (log entry 82). -/
def State.lgIssue (s : State) (g ph : Nat) (n : Int) : State :=
  let st : Stamp := { pos := s.finePos, time := s.local, phase := ph, flags := s.stampFlags, issued := s.now }
  let s := s.updLg g (fun x => { x with lastIssue := some s.now, count := lmod x.count ph (· + 1) })
  let mask := s.rfld (aLg g) 23 16
  let high := s.rfld (aLg g) 15 14 == 1
  let s := s.each ((List.range s.nGrp).filter (fun k => mask.testBit k)) (fun s k =>
    ((s.updAcq (fun a => { a with
      trigSent := ({ grp := k, ph := ph, high := high, delay := s.free } :: a.trigSent).take 64 })).drew).stampIssue k st)
  s.each (s.boundOuts g ph) (fun s o =>
    if s.lead o < 0 then s.updCrs o (fun c => { c with due := c.due ++ [s.now + (s.lead o).natAbs / 2] })
    else if (s.crsAt o).early.contains n then s.updCrs o (fun c => { c with early := c.early.filter (· != n) })
    else s.strobe o)

/-- A line position that is skipped takes no strobe of its own: one that has started ahead of it runs out (R59). -/
def State.lgPass (s : State) (g ph : Nat) (n : Int) : State :=
  s.each (s.boundOuts g ph) (fun s o => s.updCrs o (fun c => { c with early := c.early.filter (· != n) }))

/-- A phase cycle of a generator is skipped (R59). -/
def State.lgSkip (s : State) (g : Nat) (m : Int) : State :=
  let s := (s.updLg g (fun x => { x with skip := some m })).bumpLo (aLg g + 0x18)
  let p := s.lgPitch g
  (s.raise evCourse 1).coverAll (Int.fdiv (m * p) 65536) (Int.fdiv ((m + 1) * p) 65536) 2

/-- LINE_TRIGGER (R57): the fine position crosses the line position n × PITCH + OFS of a phase, which lies above the
high-water mark that held before and above every position already emitted (R54). -/
def execLineTrigger (t g ph : Nat) (n : Int) (s : State) : Out :=
  let s := s.to t
  let x := s.lgAt g
  let pos := (n * s.lgPitch g + s.lgOfs g ph) * 256
  guardNext (decide (g < 4) && s.lgEmits g && decide (ph ≤ s.rfld (aLg g) 25 24) &&
      decide (s.lgFloor g s.course.hwmPrev < pos) &&
      decide (pos ≤ s.finePos)) s (fun s =>
    let s := s.updLg g (fun x => { x with lastPos := some pos })
    let hold (s : State) : State := s.updLg g (fun x => { x with late := x.late ++ [(ph, n)] })
    if x.skip == some n then s.lgPass g ph n
    else if x.late.isEmpty then (if s.lgMinDone g then s.lgIssue g ph n else hold s)
    else
      let m := if ph = 0 then n else n + 1
      let s := if x.skip == some m then s else s.lgSkip g m
      if ph = 0 then s.lgPass g ph n else hold s)

/-- LATE_TRIGGER (R59): the oldest trigger held back is issued once MIN_NS has passed, unless the generator may not emit now or
the strip is below the mark (R54): it then stays held (log entry 83). -/
def execLateTrigger (t g : Nat) (s : State) : Out :=
  let s := s.to t
  match (s.lgAt g).late with
  | [] => .next s
  | (ph, n) :: l => guardNext (decide (g < 4) && s.lgMinDone g && s.lgEmits g && s.atMark) s (fun s =>
      (((s.updLg g (fun x => { x with late := l })).bumpHi (aLg g + 0x18)).raise evCourse 2).lgIssue g ph n)

end Sys2Proof.Machine
end

