-- ==== Sys2Proof/Machine/Mem.lean ====
section
/-!
DEFINITION. Events of the memory tiers: scrub, the bursts of the Quarry channels, migration and wear (R286 to R307, R591).
-/
namespace Sys2Proof.Machine

/-- LINTEL_SCRUB (R288): with SCRUB_EN, every word of the die's store is read and corrected. -/
def execLintelScrub (t die : Nat) (s : State) : Out :=
  let s := s.to t
  guardNext (s.rbit 0x60000 2 && s.hasDie die) s (fun s => (s.eccRead (memKey (spLintel die) 0) 0x10000000).1)

/-- The mapped Quarry pages of the part. -/
def State.quarryPages (s : State) : List Nat := s.mappedPages.filter (fun p => let e := s.pte p; e.tier == 1 && !e.lost)

/-- QUARRY_SCRUB (R300): with SCRUB_EN, the next mapped Quarry frame is read at BACKGROUND priority. -/
def execQuarryScrub (t : Nat) (s : State) : Out :=
  let s := s.to t
  guardNext (s.rbit 0x60000 2) s (fun s =>
    let l := s.quarryPages
    match (l.filter (fun p => decide (s.mt.qscrub ≤ p)) ++ l).head? with
    | none => s
    | some p => (s.queueBursts (s.pte p) 0 65536 false .background none).updMt (fun m => { m with qscrub := p + 1 }))

/-- The queue a channel serves next (R295): BACKGROUND when its share has come due, a CLIENT burst that has waited behind 16
PLAN bursts, then PLAN, CLIENT and BACKGROUND. -/
def Qch.serves (x : Qch) : Option QQueue :=
  if !x.background.isEmpty && decide (16 ≤ x.bgCredit) then some .background
  else if !x.client.isEmpty && decide (16 ≤ x.planRun) then some .client
  else if !x.plan.isEmpty then some .plan
  else if !x.client.isEmpty then some .client
  else if !x.background.isEmpty then some .background
  else none

/-- The channel with its next burst taken from a queue. -/
def Qch.take (x : Qch) (share : Nat) (q : QQueue) : Qch :=
  let credit := if x.background.isEmpty then 0 else x.bgCredit + share
  match q with
  | .plan => { x with plan := x.plan.drop 1, planRun := if x.client.isEmpty then 0 else x.planRun + 1, bgCredit := credit }
  | .client => { x with client := x.client.drop 1, planRun := 0, bgCredit := credit }
  | .background => { x with background := x.background.drop 1, bgCredit := x.bgCredit + share - 16 }

/-- The first burst of a queue. -/
def Qch.front (x : Qch) (q : QQueue) : Option Burst :=
  match q with
  | .plan => x.plan.head?
  | .client => x.client.head?
  | .background => x.background.head?

/-- A read burst through ECC (R300): corrected words are counted and written back by a BACKGROUND burst; an uncorrectable
read is counted, fails the task that waits for it (R287) or faults the KV page it reads (R267), and UE_LIMIT of them within 1 s exclude the channel (R298). -/
def State.burstRead (s : State) (c : Nat) (b : Burst) : State :=
  s.each (s.flipsIn (memKey (spQuarry c) b.at_) (64 * b.granules)) (fun s f =>
    if flipCount f.2 ≤ 1 then
      let s := ((s.bumpHi (aQch c + 8)).raise evMem 5).updTest (fun x => { x with qchCe := lmod x.qchCe c (· + 1) })
      if (s.qchAt c).st == .up then s.queueBurst c .background { at_ := f.1 % 2 ^ 32 / 64 * 64, granules := 1, write := true } else s
    else
      let s := (s.bumpLo (aQch c + 8)).raise evMem 4
      let s := s.burstErr b
      let ues := s.now :: (s.qchAt c).ues.filter (fun t => decide (s.now < t + 500000000))
      let s := s.updQch c (fun x => { x with ues := ues })
      if max 1 (s.rfld 0x60018 7 0) ≤ ues.length then s.qchExclude c 4 else s)

/-- A write burst: the words it writes back have their check bits right again. -/
def State.burstWrite (s : State) (c : Nat) (b : Burst) : State :=
  s.each (s.flipsIn (memKey (spQuarry c) b.at_) (64 * b.granules)) (fun s f =>
    if flipCount f.2 ≤ 1 then s.unflip f.1 else s)

/-- QUARRY_BURST (R294): the channel serves its next burst. -/
def execQuarryBurst (t ch : Nat) (s : State) : Out :=
  let s := s.to t
  let x := s.qchAt ch
  guardNext (x.st == .up && x.serves.isSome) s (fun s =>
    match x.serves with
    | none => s
    | some q => match x.front q with
      | none => s
      | some b =>
        let s := (s.updQch ch (fun x => x.take (max 1 (s.rfld 0x60010 19 16)) q)).bump (aQch ch + 12)
        if b.write then s.burstWrite ch b else s.burstRead ch b)

/-- BURST_TIMEOUT (R298): a burst and its retry time out, and the channel is excluded. -/
def execBurstTimeout (t ch : Nat) (s : State) : Out :=
  let s := s.to t
  let x := s.qchAt ch
  guardNext (x.st == .up && x.serves.isSome) s (fun s => (s.bump (aQch ch + 12) 2).qchExclude ch 3)

/-- LOST_MARKING_DONE (R299): the marking completes, and with REMAP_LOST the LOST pages get new frames (R307). -/
def execLostMarkingDone (t : Nat) (s : State) : Out :=
  let s := s.to t
  guardNext s.mt.remapWait s (fun s =>
    let s := (s.markLost s.mt.lostMark).updMt (fun m => { m with lostMark := [], remapWait := false })
    if s.rbit 0x60000 3 then s.remapLost else s)

/-- MIGRATION_PERIOD (R305). -/
def execMigrationPeriod (t : Nat) (s : State) : Out :=
  let s := s.to t
  guardNext (s.rbit 0x60000 0) s (fun s => s.each (s.dies.filter s.dieServes) State.migrate)

/-- MIGRATION_MOVE_DONE (R306). -/
def execMigrationMoveDone (t page : Nat) (s : State) : Out :=
  .next ((s.to t).moveDone page)

/-- QCH_WEAR (R591): the hour ends. -/
def execQchWear (t : Nat) (s : State) : Out :=
  let s := s.to t
  let beyond := (List.range s.nQch).any (fun c => decide (s.rfld 0xF0070 15 0 < lget 0 s.test.qchCe c))
  let s := if beyond then s.raise evTest 0 else s
  .next (s.updTest (fun x => { x with qchCe := List.replicate 16 0 }))

end Sys2Proof.Machine
end

