-- ==== Sys2Proof/Machine/LineCore.lean ====
section
/-!
DEFINITION. The servo axes of the line-side engine (R358 to R377): their registers and configuration faults, feedback,
outputs, faults and their actions, groups, and SPI channels.
-/
namespace Sys2Proof.Machine

def aAx (a : Nat) : Nat := 0x80100 + 0x40 * a
def aMdl (a : Nat) : Nat := 0x80800 + 0x10 * a
def aGrpCfg (g : Nat) : Nat := 0x80A00 + 0x10 * g
def aSpi (n : Nat) : Nat := 0x80C00 + 0x10 * n

/-! ### Exact values -/

/-- A finite FP32 value in units of 2⁻¹⁴⁹; 0 for what is not finite. -/
def fix149 (w : Word) : Int :=
  let e := fld w 30 23
  let m := fld w 22 0
  let v : Int := if e = 0 then 0 else if e = 255 then 0 else ((2 ^ 23 + m) * 2 ^ (e - 1) : Nat)
  if wbit w 31 then -v else v

/-- Division rounded to nearest, ties to even. -/
def divEven (a b : Int) : Int :=
  if b = 0 then 0
  else
    let a := if b < 0 then -a else a
    let b := if b < 0 then -b else b
    let q := Int.fdiv a b
    let r := 2 * (a - q * b)
    if r < b then q else if b < r then q + 1 else if q % 2 = 0 then q else q + 1

/-- FP32 of an exact quotient, rounded once (class T). -/
def fratio (a b : Int) : Word :=
  if b = 0 then 0#32
  else
    let neg := decide (a < 0) != decide (b < 0)
    if a = 0 then 0#32
    else
      let (m, e) := dyDiv a.natAbs 0 b.natAbs 0
      fround .classT neg m e

/-- Class T operations of line control (R363, R367). -/
def tAdd (a b : Word) : Word := fadd .classT a b
def tSub (a b : Word) : Word := fsub .classT a b
def tMul (a b : Word) : Word := fmul .classT a b
def tDiv (a b : Word) : Word := fdiv .classT a b
def tFma (a b c : Word) : Word := ffma .classT a b c
def tInt (z : Int) : Word := ofInt .classT z
def fOne : Word := 0x3F800000#32

/-! ### Configuration -/

/-- n of R361. -/
def State.perExp (s : State) (a : Nat) : Nat := s.rfld (aAx a) 31 29
/-- Base ticks of an axis's period. -/
def State.perBase (s : State) (a : Nat) : Nat := 2 ^ s.perExp a
/-- Feedback: 0 none, 1 QUAD, 2 SSI. -/
def State.axFb (s : State) (a : Nat) : Nat := s.rfld (aAx a) 22 21
/-- SRC.KIND and SRC.INDEX. -/
def State.srcKind (s : State) (a : Nat) : Nat := s.rfld (aAx a + 0xC) 31 29
def State.srcIndex (s : State) (a : Nat) : Nat := s.rfld (aAx a + 0xC) 15 0
/-- Output mode: 0 STEP, 1 PWM, 2 DAC. -/
def State.axMode (s : State) (a : Nat) : Nat := s.rfld (aAx a + 8) 31 30

/-- The set-point source gives a CFG_ERR (R363). -/
def State.srcErr (s : State) (a : Nat) : Bool :=
  let k := s.srcKind a
  decide (6 ≤ k) || ((k == 2 || k == 3) && decide (7 < s.srcIndex a))

/-- CFG_ERR of an axis (R361, R363, R368, R370, R389). -/
def State.axCfgErr (s : State) (a : Nat) : Bool :=
  let n := s.perExp a
  let car := s.rfld (aAx a + 8) 15 0
  let bits := s.rfld (aAx a + 4) 20 16 + 1
  decide (n = 7) || decide (2 ^ n ≤ s.rfld (aAx a) 28 23) || decide (s.axFb a = 3) || decide (s.axMode a = 3) ||
    (s.axMode a == 1 && (decide (car < 624) || decide (62499 < car))) || s.srcErr a ||
    (s.axFb a == 2 && (decide (bits < 8) || decide (15000 < (bits + 2) * 2 * (s.rfld (aAx a + 4) 15 8 + 1))))

/-- Axes of a group's mask. -/
def State.grpAxes (s : State) (g : Nat) : List Nat := (List.range 16).filter (fun a => s.rbit (aGrpCfg g) a)
/-- A group is enabled. -/
def State.axGrpOn (s : State) (g : Nat) : Bool := s.rbit (aGrpCfg g) 31

/-- CFG_ERR of a group (R375, R388): more than 4 axes, an axis of a group of lower number, unlike periods or phases, a LAMBDA
outside 0 to below 1. -/
def State.axGrpCfgErr (s : State) (g : Nat) : Bool :=
  let m := s.grpAxes g
  let lam := s.regGet (aGrpCfg g + 8)
  decide (4 < m.length) || !(fle 0#32 lam && flt lam fOne) ||
    m.any (fun a => s.rfld (aAx a) 31 23 != s.rfld (aAx (lget 0 m 0)) 31 23) ||
    (List.range g).any (fun h => s.axGrpOn h && (s.grpAxes h).any (fun a => m.contains a))

/-- The group an axis belongs to. -/
def State.grpOf (s : State) (a : Nat) : Option Nat := (List.range 8).find? (fun g => s.axGrpOn g && s.rbit (aGrpCfg g) a)

/-- SPI channel n is enabled; it is a DAC. -/
def State.spiOn (s : State) (n : Nat) : Bool := s.rbit (aSpi n) 31
def State.spiDac (s : State) (n : Nat) : Bool := s.rbit (aSpi n) 30
/-- DIV of a master; one outside 4 to 249 is a configuration fault. -/
def State.spiDiv (s : State) (m : Nat) : Nat := s.rfld (0x80020 + 4 * m) 7 0
/-- Channels of a master that are enabled. -/
def State.spiUsed (s : State) (m : Nat) : List Nat := ((List.range 4).map (fun i => 4 * m + i)).filter s.spiOn

/-- A master does not start (R372): its DIV is out of range, or its ADC frames need more than 20 µs. -/
def State.spiBad (s : State) (m : Nat) : Bool :=
  let d := s.spiDiv m
  let adc := (s.spiUsed m).filter (fun n => !s.spiDac n)
  !(s.spiUsed m).isEmpty && (decide (d < 4) || decide (249 < d) ||
    decide (10000 < (adc.map (fun n => (s.rfld (aSpi n) 20 16 + 1) * 2 * (d + 1))).sum))

/-- SERVO_STATUS.CFG_ERR. -/
def State.servoCfgErr (s : State) : Bool :=
  s.spiBad 0 || s.spiBad 1 || (List.range 8).any (fun g => s.axGrpOn g && s.axGrpCfgErr g)

/-- The engine runs (R358, R455): EN is set, PD04 is not held in reset. -/
def State.lineRuns (s : State) : Bool := s.line.running && !s.plumb.held

/-- The present base tick: those counted so far, less one. -/
def State.baseNow (s : State) : Nat := s.line.base - 1

/-! ### Outputs -/

/-- The value an axis drives: 0 in fallback and while OFF (R454, R358). -/
def State.axOut (s : State) (a : Nat) : Word :=
  if (s.axAt a).st == .off || (s.targetAt a).inFallback then 0#32 else (s.axAt a).out

/-- The code a DAC channel sends for a value (R372). -/
def State.dacCode (s : State) (n : Nat) (v : Word) : Nat :=
  let q := tDiv v (s.regGet (aSpi n + 8))
  let z := (toInt .classT (-(2 ^ 31)) (2 ^ 31 - 1) q).val + s.rint (aSpi n + 0xC)
  (clampInt 0 (2 ^ (s.rfld (aSpi n) 20 16 + 1) - 1) z).toNat

/-- A DAC channel takes a value, unless its master has not started (R372). -/
def State.dacApply (s : State) (n : Nat) (v : Word) : State :=
  if s.spiBad (n / 4) then s else
  let s := s.updTarget (16 + n) (fun x => { x with applied := some v })
  s.updLine (fun l => { l with
    dac := lmod l.dac n (fun _ => s.dacCode n v), dacVal := lmod l.dacVal n (fun _ => v) })

/-- The DAC channel of an axis in DAC mode. -/
def State.axDac (s : State) (a : Nat) : Option Nat :=
  let n := s.rfld (aAx a + 8) 26 24
  if s.axMode a = 2 ∧ s.spiOn n ∧ s.spiDac n then some n else none

/-- An axis drives a value: its output, its DAC channel in DAC mode, SERVO_AXa_LAST. -/
def State.axDrive (s : State) (a : Nat) (v : Word) : State :=
  let s := (s.updAx a (fun x => { x with out := v })).regSet (aAx a + 0x38) v
  let s := s.updTarget a (fun x => if x.inFallback then x else { x with applied := some v })
  match s.axDac a with
  | some n => if (s.targetAt (16 + n)).inFallback then s else s.dacApply n v
  | none => s

/-- The steps of a period in STEP mode: rate times period with the fraction carried (R368). -/
def State.stepPeriod (s : State) (a : Nat) : State :=
  if s.axMode a != 0 then s
  else
    let tot := fix149 (s.axOut a) * (s.perBase a : Nat) + (s.axAt a).stepFrac
    let unit : Int := 16000 * 2 ^ 149
    s.updAx a (fun x => { x with steps := Int.tdiv tot unit, stepFrac := tot - Int.tdiv tot unit * unit })

/-! ### Faults (R374) -/

/-- OUT_MIN, OUT_MAX clamp of a command; a NaN is taken as 0 (R367). -/
def State.outClamp (s : State) (a : Nat) (v : Word) : Word :=
  let v := if isNan v then 0#32 else v
  fmin (fmax v (s.regGet (aAx a + 0x20))) (s.regGet (aAx a + 0x24))

/-- The unit's own limits of an output mode (R368). -/
def State.modeClamp (s : State) (a : Nat) (v : Word) : Word :=
  match s.axMode a with
  | 0 => fmin (fmax v (fneg (tInt 5000000))) (tInt 5000000)
  | 1 => fmin (fmax v (fneg fOne)) fOne
  | _ => v

/-- An ENABLED axis enters FAULT with its causes, and drives by FAULT_ACTION. -/
def State.axFault (s : State) (a : Nat) (causes : List Nat) : State :=
  if (s.axAt a).st != .enabled || causes.isEmpty then s
  else
    let c := causes.foldl min 3
    let s := s.updAx a (fun x => { x with st := .fault, cause := c, cmd := none, samp := false })
    let s := if causes.contains 2 then s.raise evServo 6 else s
    let s := s.raise evServo 7
    match s.rfld (aAx a) 20 19 with
    | 1 => if s.rfld (aAx a + 0x1C) 23 8 = 0 then s.axDrive a 0#32
      else s.updAx a (fun x => { x with rampAt := some s.now, rampFrom := x.out })
    | 2 => s.axDrive a (s.modeClamp a (s.outClamp a (s.regGet (aMdl a + 0xC))))
    | _ => s.axDrive a 0#32

/-- The fault ramp of an axis at a base tick. -/
def State.rampTick (s : State) (a : Nat) : State :=
  match (s.axAt a).rampAt with
  | none => s
  | some t0 =>
    let dur := 500000 * s.rfld (aAx a + 0x1C) 23 8
    let el := s.now - t0
    if dur ≤ el then (s.updAx a (fun x => { x with rampAt := none })).axDrive a 0#32
    else s.axDrive a (fratio (fix149 (s.axAt a).rampFrom * ((dur - el : Nat) : Int)) ((dur : Int) * 2 ^ 149))

/-- A FEEDBACK fault (R369, R370): raised, and an ENABLED axis enters FAULT. -/
def State.fbFault (s : State) (a : Nat) : State := (s.raise evServo 5).axFault a [1]

/-! ### Enabling (R364, R376) -/

/-- J of a group to 0. -/
def State.grpZero (s : State) (g : Nat) (plausible : Bool) : State :=
  (s.updAxGrp g (fun x => { j := 0#32, beyond := 0, implausible := x.implausible && !plausible })).regSet (aGrpCfg g + 0xC) 0#32

/-- f16 to f63 from the program's initial values. -/
def lawInit (x : Axis) : Axis :=
  { x with f := (List.range 64).map (fun i => if i < 16 then lget 0#32 x.f i else lget 0#32 x.inits (i - 16)) }

/-- A DISABLED axis becomes ENABLED, re-anchored. -/
def State.axEnable (s : State) (a : Nat) : State :=
  let s := s.updAx a (fun x => { lawInit x with
    st := .enabled, cause := 0, feCnt := 0, cmd := none, anchor := .enable, first := true, vref := 0#32, clamped := false,
    stepFrac := 0 })
  let s := match s.grpOf a with
    | some g => s.grpZero g false
    | none => s
  s.axDrive a 0#32

/-- ENABLE (R390): no effect but in DISABLED, nor on an axis with a CFG_ERR. -/
def State.cmdEnable (s : State) (a : Nat) : State :=
  if (s.axAt a).st != .disabled then s else if s.axCfgErr a then s.raise evServo 8 else s.axEnable a

/-- DISABLE (R390): output 0; FAULT is kept. -/
def State.cmdDisable (s : State) (a : Nat) : State :=
  let s := s.updAx a (fun x => { x with
    st := if x.st == .enabled then .disabled else x.st, resume := false, cmd := none, rampAt := none, samp := false })
  s.axDrive a 0#32

/-- CLEAR_FAULT (R374, R390). -/
def State.cmdClearFault (s : State) (a : Nat) : State :=
  if (s.axAt a).st != .fault then s
  else (s.updAx a (fun x => { x with st := .disabled, cause := 0, feCnt := 0, rampAt := none })).axDrive a 0#32

/-- HOME (R358, R369, R390). -/
def State.cmdHome (s : State) (a : Nat) : State :=
  let st := (s.axAt a).st
  if st == .notHomed || st == .disabled then
    s.updAx a (fun x => { x with
      st := .disabled, pos := s.rint (aAx a + 0x28), posK := s.rint (aAx a + 0x28), homed := true, first := true })
  else s

/-- RESET_STATE (R366). -/
def State.cmdResetState (s : State) (a : Nat) : State := s.updAx a lawInit

/-- RESYNC (R364): at the next sample of an ENABLED axis; it clears RESYNC_NEEDED. -/
def State.cmdResync (s : State) (a : Nat) : State :=
  s.updAx a (fun x => { x with resyncNeeded := false, anchor := if x.st == .enabled then .resync else x.anchor })

/-- SRC, NUM or DEN of an axis has been written (R363, R364). -/
def State.regear (s : State) (a : Nat) (src : Bool) : State :=
  if (s.axAt a).st != .enabled then s
  else
    let s := if src && s.srcErr a then s.raise evServo 3 else s
    s.updAx a (fun x => { x with anchor := if x.anchor == .none then .gear else x.anchor })

/-- SERVO_CTRL.EN is set (R358): base tick 0, and the axes leave OFF. -/
def State.lineOn (s : State) : State :=
  s.updLine (fun l => { l with
    running := true, origin := s.now, base := 0,
    axis := l.axis.map (fun x => { x with
      st := if x.st == .off then (if x.homed then .disabled else .notHomed) else x.st, posK := x.pos, first := true }) })

/-- SERVO_CTRL.EN is cleared (R358): every axis to OFF, its output 0. -/
def State.lineOff (s : State) : State :=
  let s := s.updLine (fun l => { l with
    running := false,
    axis := l.axis.map (fun x => { x with
      st := .off, cmd := none, samp := false, frame := false, rampAt := none, resume := false, out := 0#32, feCnt := 0,
      resyncNeeded := false, anchor := .none, stepFrac := 0, steps := 0 }) })
  s.each (List.range 16) (fun s a => s.axDrive a 0#32)

end Sys2Proof.Machine
end

