-- ==== Sys2Proof/Machine/MotionCore.lean ====
section
/-!
DEFINITION. Carriages, their requests and the world of the motion planner (R394 to R406, R418): registers, positions, the
request queues and their ends, and AVAILABLE. Positions are in 2⁻¹⁶ µm, roles in the order X, Y, Z, AUX.
-/
namespace Sys2Proof.Machine

def aCar (c : Nat) : Nat := 0xA0100 + 0x20 * c
def aRole (c r : Nat) : Nat := 0xA0400 + 0x80 * c + 0x20 * r
def aSph (c b : Nat) : Nat := 0xA0800 + 0x80 * c + 0x10 * b

/-- One micrometre. -/
def um16 : Int := 65536
/-- Ticks of a second. -/
def tickHz : Int := 500000000

/-- Integer square root of a number below 4¹⁶⁰. -/
def isqrt (n : Nat) : Nat := sqrtBits 160 n 0

/-- Half the square root of a number, to the nearest number, ties to even (class T, R168). -/
def sqrtQuarter (num : Nat) : Nat :=
  let k := isqrt (num / 4)
  if (2 * k + 1) ^ 2 < num ∨ ((2 * k + 1) ^ 2 = num ∧ k % 2 = 1) then k + 1 else k

/-- The square root to the nearest number, class T. -/
def sqrtEven (n : Nat) : Nat := sqrtQuarter (4 * n)

/-! ### Configuration -/

def State.motionEn (s : State) : Bool := s.rbit 0xA0000 0
/-- The planner runs: its EN and that of the servo engine, whose base ticks it works at, are set. -/
def State.motionRuns (s : State) : Bool := s.motionEn && s.lineRuns
def State.mapPitch (s : State) : Int := (s.rfld 0xA0014 15 0 : Nat)
def State.samplesN (s : State) : Nat := s.rfld 0xA0034 6 0
/-- A count of the generator, 1 to 8: NS, NZ, NY, ND at bits 28, 24, 20, 16. -/
def State.genN (s : State) (lo : Nat) : Nat := s.rfld 0xA0034 (lo + 2) lo + 1
def State.clearance (s : State) : Int := ((s.regGet 0xA0044).toNat : Int) * um16
def State.settleTicks (s : State) : Nat := 500 * s.rfld 0xA0040 23 0

/-- Roles of the member axes, in increasing axis number (R394). -/
def State.carRoles (s : State) (c : Nat) : List (Nat × Nat) :=
  (s.grpAxes c).zipIdx.map (fun x => (x.1, s.rfld (aCar c) (2 * x.2 + 1) (2 * x.2)))

/-- The axis of a role. -/
def State.roleAxis (s : State) (c r : Nat) : Option Nat := ((s.carRoles c).find? (fun x => x.2 == r)).map (·.1)

/-- Spheres of a carriage: offsets and radius, 2⁻¹⁶ µm (R396). -/
def State.spheres (s : State) (c : Nat) : List (List Int × Int) :=
  ((List.range 8).filter (fun b => (s.regGet (aSph c b + 12)).toNat ≠ 0)).map (fun b =>
    ([s.rint (aSph c b) * um16, s.rint (aSph c b + 4) * um16, s.rint (aSph c b + 8) * um16],
      ((s.regGet (aSph c b + 12)).toNat : Int) * um16))

/-- CFG_ERR of a carriage (R394): a role given twice, no sphere, or a group that is in error itself (R375). -/
def State.carCfgErr (s : State) (c : Nat) : Bool :=
  let rs := (s.carRoles c).map (·.2)
  decide (rs.eraseDups.length < rs.length) || (s.spheres c).isEmpty || s.axGrpCfgErr c

def State.carEn (s : State) (c : Nat) : Bool := s.rbit (aCar c) 31

/-- MOTION_STATUS.CFG_ERR (R394, R423, R424). -/
def State.motionCfgErr (s : State) : Bool :=
  decide (s.mapPitch < 4000) || decide (64000 < s.mapPitch) || decide (s.samplesN < 8) || decide (64 < s.samplesN) ||
    (List.range 8).any (fun c => s.carEn c && s.carCfgErr c)

/-- AVAILABLE (R397). -/
def State.carAvail (s : State) (c : Nat) : Bool :=
  s.carEn c && !s.carCfgErr c && s.motionRuns && s.axGrpOn c && !(s.axGrpAt c).implausible &&
    (s.grpAxes c).all (fun a => (s.axAt a).st == .enabled && s.srcKind a == 4)

/-! ### Positions (R395) -/

def State.roleOrigin (s : State) (c r : Nat) : Int := s.rint (aRole c r + 4) * um16

/-- Coordinate of a role whose axis stands at a position: ORIGIN + position ÷ CPU. -/
def State.coordOf (s : State) (c r : Nat) (pos : Int) : Int :=
  s.roleOrigin c r + divEven (pos * um16 * 2 ^ 149) (fix149 (s.regGet (aRole c r)))

/-- Set-point of a coordinate: round((coordinate − ORIGIN) × CPU). -/
def State.countsOf (s : State) (c r : Nat) (x : Int) : Int :=
  divEven ((x - s.roleOrigin c r) * fix149 (s.regGet (aRole c r))) (um16 * 2 ^ 149)

/-- The measured coordinate of a role; a role with no axis is fixed at its ORIGIN. -/
def State.roleNow (s : State) (c r : Nat) : Int :=
  match s.roleAxis c r with
  | some a => s.coordOf c r (s.axAt a).pos
  | none => s.roleOrigin c r

/-- The measured pose of a carriage. -/
def State.poseNow (s : State) (c : Nat) : List Int := (List.range 4).map (s.roleNow c)

/-- Every axis lies within POS_TOL of a target. -/
def State.inTol (s : State) (c : Nat) (target : List Int) : Bool :=
  (List.range 4).all (fun r => match s.roleAxis c r with
    | some _ => decide ((s.roleNow c r - lget 0 target r).natAbs ≤ (s.regGet (aCar c + 8)).toNat * 65536)
    | none => true)

/-! ### Trajectories (R407, R408) -/

/-- Position, speed (2⁻¹⁶ µm/s) and acceleration after τ ticks of a move: the jerk of its phases integrated exactly, in units
of 2⁻¹⁶ µm ÷ 6F³, and at rest at the target past its end. -/
def RoleMove.at_ (m : RoleMove) (τ : Nat) : Int × Int × Int :=
  let f := tickHz
  let go := m.phases.foldl (fun (acc : Nat × Int × Int × Int) ph =>
    let (left, x, v, a) := acc
    let k : Int := (min left ph.ticks : Nat)
    (left - ph.ticks, x + v * k + a * k * k / 2 + ph.jerk * k * k * k, v + a * k + 3 * ph.jerk * k * k, a + 6 * ph.jerk * k))
    (τ, 6 * f * f * f * m.p0, 6 * f * f * m.v0, 6 * f * m.a0)
  let (_, x, v, a) := go
  if (m.phases.map (·.ticks)).sum ≤ τ then (m.target, 0, 0)
  else (divEven x (6 * f * f * f), divEven v (6 * f * f), divEven a (6 * f))

/-- Ticks of a move. -/
def RoleMove.ticks (m : RoleMove) : Nat := (m.phases.map (·.ticks)).sum

/-- State of a role of a trajectory at a tick: its start pose before the first primitive. -/
def Traj.at_ (j : Traj) (t r : Nat) : Int × Int × Int :=
  let past := j.prims.filter (fun p => decide (p.1 ≤ t))
  match past.getLast?, j.prims.head? with
  | some p, _ => (lget default p.2 r).at_ (t - p.1)
  | none, some p => ((lget default p.2 r).p0, 0, 0)
  | none, none => (lget 0 j.target r, 0, 0)

/-- Coordinates of a trajectory at a tick. -/
def Traj.pose (j : Traj) (t : Nat) : List Int := (List.range 4).map (fun r => (j.at_ t r).1)

/-- Start of the next sample instant of a carriage at or after a tick (R409). -/
def State.sampleAfter (s : State) (c t : Nat) : Nat :=
  match (s.grpAxes c).head? with
  | none => t
  | some a =>
    let n := s.perBase a
    let b0 := (t - s.line.origin + 31249) / 31250
    let ph := s.rfld (aAx a) 28 23 % n
    s.line.origin + 31250 * (b0 + (ph + n - b0 % n) % n)

/-! ### Ends of requests (R402, R418) -/

def markKind (r : Req) : Bool := r.kind == 2 || r.kind == 3

/-- A request ends: its outcome record, the counts and events of its outcome, and its stage-7 watch. -/
def State.endReq (s : State) (r : Req) (out : Nat) (sp : Int) : State :=
  let un := markKind r && out != 0
  let s := s.updLine (fun l => { l with taken := l.taken.filter (fun x => x.wid != r.wid) })
  let s := if r.bad || decide (7 < r.carriage) then s else s.updCar r.carriage (fun k => { k with lastOutcome := out })
  let s := s.emit 4 r.pair (leBytes 4 r.id ++ [BitVec.ofNat 8 r.carriage, BitVec.ofNat 8 r.kind, BitVec.ofNat 8 out,
    BitVec.ofNat 8 (b2n un)] ++ le64 sp ++ leBytes 8 s.time64)
  let s := if un then (s.bump 0xA0064).raise evMotion 4 else s
  let s := if out = 5 then s.raise evMotion 3 else s
  s.watchKick 7 r.wid

/-- A batch of a carriage is abandoned. -/
def State.dropBatch (s : State) (c : Nat) : State :=
  s.updLine (fun l => { l with batch := l.batch.filter (fun b => b.car != c) })

/-- The head of a carriage ends (R401): the next request becomes head. -/
def State.endHead (s : State) (c out : Nat) (sp : Int) : State :=
  match (s.carAt c).queue with
  | [] => s
  | r :: q =>
    ((s.dropBatch c).updCar c (fun k => { k with queue := q, committed := false, replan := false })).endReq r out sp

/-- Requests of a carriage other than those kept end with an outcome, at the present SP. -/
def State.endQueued (s : State) (c out : Nat) (keep : Nat) : State :=
  let q := (s.carAt c).queue
  let s := s.updCar c (fun k => { k with queue := q.take keep })
  s.each (q.drop keep) (fun s r => s.endReq r out s.sp)

/-- A carriage is no longer AVAILABLE (R397): its trajectory is dropped and its requests end UNAVAILABLE. -/
def State.carLost (s : State) (c : Nat) (st : CarState) : State :=
  let s := (s.dropBatch c).updCar c (fun k => { k with st := st, traj := none, committed := false, replan := false, kick := false })
  (s.endQueued c 3 0).raise evMotion 1

/-- What a carriage is, after anything that bears on R394 and R397. -/
def State.carCheck1 (s : State) (c : Nat) : State :=
  let st := (s.carAt c).st
  let live := st == .idle || st == .moving || st == .braking
  let next : CarState :=
    if !s.carEn c || s.carCfgErr c || !s.motionRuns then .off else if s.carAvail c then .idle else .unavailable
  if next == .idle then (if live then s else s.updCar c (fun k => { k with st := .idle }))
  else if live then s.carLost c next
  else s.updCar c (fun k => { k with st := next })

/-- Every carriage is looked at again. -/
def State.carCheck (s : State) : State := s.each (List.range 8) State.carCheck1

/-! ### Taking a request (R398 to R401) -/

/-- Y of a request's target: that of a GOTO, otherwise the present one of the trajectory in force. -/
def State.reqY (s : State) (r : Req) : Int :=
  let k := s.carAt r.carriage
  match s.roleAxis r.carriage 1, r.kind, k.traj with
  | none, _, _ => s.roleOrigin r.carriage 1
  | some _, 1, _ => r.y * um16
  | some _, _, some j => lget 0 j.target 1
  | some _, _, none => s.roleNow r.carriage 1

/-- SP_x of a request (R419), µm. -/
def State.spx (s : State) (r : Req) : Int :=
  r.sp + Int.fdiv (s.reqY r) um16 + signedOf 16 (s.rfld (aCar r.carriage + 4) 15 0)

/-- The crossing time of a request, as a tick; none is infinite (R419). -/
def State.txOf (s : State) (r : Req) : Option Int :=
  if s.course.speed ≤ 0 || s.course.reversal then none
  else some ((s.now : Int) + Int.fdiv ((s.spx r - s.sp) * tickHz) s.course.speed)

/-- A request is BAD (R400). -/
def reqIsBad (r : Req) : Bool :=
  r.bad || r.kind == 0 || decide (6 < r.kind) || decide (7 < r.carriage) || (r.kind == 5 && decide (255 < r.slot)) ||
    (r.kind != 5 && r.slot != 0) || (r.kind != 1 && r.y != 0)

/-- A request enters the queue of its carriage, or ends at once. -/
def State.queueReq (s : State) (r : Req) : State :=
  let c := r.carriage
  let k := s.carAt c
  let s := (s.updLine (fun l => { l with taken := l.taken ++ [r] })).watchRef 7 r.wid
  if k.st == .off || k.st == .unavailable then s.endReq r 3 s.sp
  else if markKind r && decide (s.spx r ≤ s.sp) then s.endReq r 4 s.sp
  else if 32 ≤ k.queue.length then (s.raise evMotion 10).endReq r 7 s.sp
  else s.updCar c (fun k => { k with queue := k.queue ++ [r] })

/-- The planner takes a request, `pair` the die pair of its ring. -/
def State.takeReq (s : State) (r : Req) (pair : Nat) : State :=
  let s := (s.bump 0xA0060).updLine (fun l => { l with reqs := l.reqs + 1 })
  let r := { r with taken := s.now, pair := pair, wid := s.line.reqs, bad := reqIsBad r }
  if r.bad then ((s.bumpHi 0xA0074).raise evMotion 12).endReq r 10 s.sp
  else match r.kind with
    | 5 => s.regSet (0x81000 + 4 * r.slot) r.aux
    | 6 =>
      match (s.carAt r.carriage).queue with
      | [] => s
      | h :: q =>
        match q.find? (fun x => x.id == r.id) with
        | some x => (s.updCar r.carriage (fun k => { k with queue := h :: q.erase x })).endReq x 8 s.sp
        | none => s
    | _ => s.queueReq r

/-- A request entry of 64 bytes (R399). -/
def reqOf (bs : List Byte) : Req :=
  let n (o k : Nat) := leAt bs o k
  { kind := n 0 1, carriage := n 1 1, slot := n 2 2, id := n 4 4, sp := signedOf 64 (n 8 8), x := signedOf 32 (n 16 4),
    z := signedOf 32 (n 20 4), y := signedOf 32 (n 24 4), aux := wordOf (n 28 4), need := n 32 4, bad := n 36 28 ≠ 0 }

/-- Takes up to `k` entries of a ring from entry number `cons`. -/
def State.takeRing (s : State) (d base n cons : Nat) : State :=
  s.each (List.range n) (fun s j =>
    s.takeReq (reqOf (s.ldBytes (memKey (spLintel d) (base + 64 + 64 * ((cons + j) % 256))) 64)) d)

/-- The planner reads request ring d (R398). -/
def State.readRing (s : State) (d : Nat) : State :=
  let w := s.regGet (0xA0050 + 4 * d)
  if !wbit w 0 || !s.hasDie d then s
  else
    let base := fld w 27 6 * 64
    let prod := s.lin d base 4
    let cons := s.lin d (base + 4) 4
    let n := (prod + 2 ^ 32 - cons) % 2 ^ 32
    if n = 0 then s
    else if 256 < n then ((s.linSt d (base + 4) 4 prod).bumpLo 0xA0074).raise evMotion 11
    else (s.takeRing d base n cons).linSt d (base + 4) 4 prod

end Sys2Proof.Machine
end

