-- ==== Sys2Proof/Machine/Planner.lean ====
section
/-!
DEFINITION. Trajectories of the motion planner (R407 to R417): time-optimal profiles of limited jerk, candidates, the checks of
R411, batches, commits and braking. The exact length of a phase is rounded to a tick by Config.tickUp; lengths and speeds round to
2⁻¹⁶ µm to nearest, ties to even (class T, R168).
-/
namespace Sys2Proof.Machine

/-! ### Profiles (R407, R417) -/

/-- A length of num ÷ den ticks as whole ticks. -/
def tickLen (num den : Int) : Nat :=
  if den ≤ 0 ∨ num ≤ 0 then 0
  else
    let k := num / den
    (if k * den = num then k else if Config.tickUp num den then k + 1 else k).toNat

/-- Phases that bring speed v0 and acceleration a0 to speed v1 and acceleration 0 in the least time, with jerk ±j and
|a| ≤ am; all in 2⁻¹⁶ µm and seconds. -/
def toSpeed (v0 a0 v1 am j : Int) : List JerkPhase :=
  if j ≤ 0 ∨ am ≤ 0 then []
  else
    let up := decide (2 * j * v0 + a0 * (a0.natAbs : Int) ≤ 2 * j * v1)
    let sg : Int := if up then 1 else -1
    let a := sg * a0
    let dv := sg * (v1 - v0)
    let pk : Int := min am (sqrtQuarter (4 * j * dv + 2 * a * a).toNat : Nat)
    let hold := if pk < am then 0 else tickLen ((2 * j * dv + a * a - 2 * pk * pk) * tickHz) (2 * j * pk)
    let first : JerkPhase := { ticks := tickLen ((pk - a).natAbs * tickHz) j, jerk := if a ≤ pk then sg * j else -(sg * j) }
    [first, { ticks := hold, jerk := 0 }, { ticks := tickLen (pk * tickHz) j, jerk := -(sg * j) }]

/-- State after all phases of a move, in 2⁻¹⁶ µm: position, speed, acceleration. -/
def RoleMove.last (m : RoleMove) : Int × Int × Int :=
  let f := tickHz
  let (x, v, a) := m.phases.foldl (fun (acc : Int × Int × Int) ph =>
    let (x, v, a) := acc
    let k : Int := (ph.ticks : Nat)
    (x + v * k + a * k * k / 2 + ph.jerk * k * k * k, v + a * k + 3 * ph.jerk * k * k, a + 6 * ph.jerk * k))
    (6 * f * f * f * m.p0, 6 * f * f * m.v0, 6 * f * m.a0)
  (divEven x (6 * f * f * f), divEven v (6 * f * f), divEven a (6 * f))

/-- Start state of an axis and its limits at a scale σ, in 2⁻¹⁶ µm. -/
structure MoveLim where
  p0 : Int
  v0 : Int
  a0 : Int
  vm : Int
  am : Int
  j : Int
  deriving DecidableEq, Repr, Inhabited

/-- The move that accelerates to speed v, cruises, and stops. -/
def MoveLim.via (l : MoveLim) (v : Int) (cruise : Nat) : RoleMove :=
  { p0 := l.p0, v0 := l.v0, a0 := l.a0, target := l.p0,
    phases := toSpeed l.v0 l.a0 v l.am l.j ++ [{ ticks := cruise, jerk := 0 }] ++ toSpeed v 0 0 l.am l.j }

/-- Where a move through speed v ends. -/
def MoveLim.ends (l : MoveLim) (v : Int) : Int := (l.via v 0).last.1

/-- The speed through which a move without cruise ends at a target, by halving [lo, hi]. -/
def MoveLim.halve (l : MoveLim) (target : Int) : Nat → Int → Int → Int
  | 0, lo, _ => lo
  | k + 1, lo, hi =>
    let m := Int.fdiv (lo + hi) 2
    if l.ends m ≤ target then l.halve target k m hi else l.halve target k lo m

/-- The time-optimal move to rest at a target: cruise at a limit where the target lies beyond, else no cruise. -/
def MoveLim.best (l : MoveLim) (target : Int) : RoleMove :=
  if target = l.p0 ∧ l.v0 = 0 ∧ l.a0 = 0 then { p0 := l.p0, v0 := 0, a0 := 0, phases := [], target := target }
  else
    let hi := l.ends l.vm
    let lo := l.ends (-l.vm)
    let m :=
      if hi ≤ target then l.via l.vm (tickLen ((target - hi) * tickHz) l.vm)
      else if target ≤ lo then l.via (-l.vm) (tickLen ((lo - target) * tickHz) l.vm)
      else l.via (l.halve target 64 (-l.vm) l.vm) 0
    { m with target := target }

/-- Limits of a role at σ = k ÷ 2¹⁶, from a start state. A limit between two units is taken as the lower one, so that no sample exceeds
it (R407). -/
def State.roleLim (s : State) (c r : Nat) (st : Int × Int × Int) (k : Nat) : MoveLim :=
  let lim (o : Nat) : Int := fix149 (s.regGet (aRole c r + o)) * k / 2 ^ 149
  { p0 := st.1, v0 := st.2.1, a0 := st.2.2, vm := lim 8, am := lim 12, j := lim 16 }

/-- The limits allow the start state, and motion where the target differs from it. -/
def MoveLim.ok (l : MoveLim) (target : Int) : Bool :=
  decide ((l.v0.natAbs : Int) ≤ l.vm) && decide ((l.a0.natAbs : Int) ≤ l.am) &&
    ((decide (target = l.p0) && decide (l.v0 = 0) && decide (l.a0 = 0)) ||
      (decide (0 < l.vm) && decide (0 < l.am) && decide (0 < l.j)))

/-- The least σ, in 2⁻¹⁶ and at most k, at which a role's move lasts no longer than `dur` ticks (R407). -/
def State.retime (s : State) (c r : Nat) (st : Int × Int × Int) (target : Int) (dur : Nat) : Nat → Nat → Nat → Nat
  | 0, _, hi => hi
  | n + 1, lo, hi =>
    let m := (lo + hi) / 2
    let l := s.roleLim c r st m
    if l.ok target && decide ((l.best target).ticks ≤ dur) then s.retime c r st target dur n lo m
    else s.retime c r st target dur n m hi

/-- A primitive (R407): every role from its start state to rest at its target, the faster roles re-timed to the slowest; none
when a limit forbids it. A role with no axis stays at its ORIGIN. -/
def State.primitive (s : State) (c : Nat) (st : List (Int × Int × Int)) (target : List Int) (σ : Nat) :
    Option (List RoleMove) :=
  let mv (r : Nat) (k : Nat) : Option RoleMove :=
    let x := lget (0, 0, 0) st r
    match s.roleAxis c r with
    | none => some { p0 := x.1, v0 := 0, a0 := 0, phases := [], target := x.1 }
    | some _ =>
      let l := s.roleLim c r x k
      let g := lget 0 target r
      if l.ok g then some (l.best g) else none
  match (List.range 4).mapM (fun r => mv r σ) with
  | none => none
  | some ms =>
    let dur := (ms.map RoleMove.ticks).foldl max 0
    (List.range 4).mapM (fun r =>
      let m := lget default ms r
      if m.ticks = dur ∨ m.phases.isEmpty then some m
      else mv r (s.retime c r (lget (0, 0, 0) st r) (lget 0 target r) dur 16 0 σ))

/-- The braking primitive (R417): every axis to rest on its own. -/
def State.brakeMoves (s : State) (c : Nat) (st : List (Int × Int × Int)) : List RoleMove :=
  (List.range 4).map (fun r =>
    let x := lget (0, 0, 0) st r
    let l := s.roleLim c r x 65536
    let ph := if s.roleAxis c r = none ∨ (x.2.1 = 0 ∧ x.2.2 = 0) then [] else toSpeed x.2.1 x.2.2 0 l.am l.j
    let m : RoleMove := { p0 := x.1, v0 := x.2.1, a0 := x.2.2, phases := ph, target := x.1 }
    { m with target := m.last.1 })

/-! ### The checks of R411 -/

/-- INT8 value of a voxel of the front (R403): −128 is read as −127. -/
def State.sdfAt (s : State) (ix iy iz : Int) : Int :=
  let v := signedOf 8 (s.ldB (memKey (spSdf s.line.mapFront) (ix + 256 * (iy + 128 * iz)).toNat)).toNat
  max v (-127)

/-- A cell of a slice of the front's occupancy is occupied. -/
def State.occAt (s : State) (sl : Nat) (cx cy cz : Nat) : Bool :=
  let k := 32768 * sl + cx + 64 * (cy + 32 * cz)
  (s.ldB (memKey (spOcc s.line.mapFront) (k / 8))).toNat.testBit (k % 8)

/-- The slice of a tick (R404). -/
def State.sliceAt (s : State) (t : Nat) : Nat :=
  let ns : Int := ((clkAt s.tn.local_ t / 2 ^ 32 : Nat) : Int) - s.line.occT0
  min 15 (Int.fdiv ns (1000 * max 1 (s.regGet 0xA0030).toNat)).toNat

/-- Voxels of the grid along X, Y, Z. -/
def gridDim (k : Nat) : Int := lget 0 [256, 128, 64] k
def State.mapOrigin (s : State) (k : Nat) : Int := s.rint (0xA0018 + 4 * k) * um16

/-- Indexes from a to b that lie in 0 to n − 1. -/
def spanOf (a b : Int) (n : Nat) : List Nat := (List.range n).filter (fun i => decide (a ≤ (i : Int)) && decide ((i : Int) ≤ b))

/-- The cube of half-side h about q is free in the slices from a to b. -/
def State.cubeFree (s : State) (q : List Int) (h : Int) (a b : Nat) : Bool :=
  let p := 4 * s.mapPitch * um16
  let ix (k n : Nat) : List Nat :=
    let d := lget 0 q k - s.mapOrigin k
    spanOf (Int.fdiv (d - h) p) (Int.fdiv (d + h) p) n
  (spanOf a b 16).all (fun sl => (ix 0 64).all (fun x => (ix 1 32).all (fun y => (ix 2 16).all (fun z =>
    !s.occAt sl x y z))))

/-- Spheres of every other carriage at a tick, each with its radius plus inflation (R411): on the trajectory in force, or at
the measured pose. -/
def State.othersAt (s : State) (c t : Nat) : List (List Int × Int) :=
  ((List.range 8).filter (fun k => k != c)).flatMap (fun k =>
    let (pose, e) := match (s.carAt k).st, (s.carAt k).traj with
      | .unavailable, _ => (s.poseNow k, 0)
      | _, some j => (j.pose t, j.inflation)
      | _, none => (s.poseNow k, 0)
    (s.spheres k).map (fun sp => ((List.range 3).map (fun i => lget 0 pose i + lget 0 sp.1 i), sp.2 + e)))

/-- One sphere at one sample (R411): none when it fails, else its least margin. `dt` is the sample spacing; a hold sample
meets every slice from t onwards. -/
def State.sphereOk (s : State) (q : List Int) (r e : Int) (others : List (List Int × Int)) (t half : Nat) (hold : Bool) :
    Option Int :=
  let p := s.mapPitch
  let cl := s.clearance
  let inside := (List.range 3).all (fun k =>
    let d := lget 0 q k - s.mapOrigin k
    decide (r ≤ d) && decide (d + r ≤ gridDim k * p * um16))
  if !inside then none
  else
    let v (k : Nat) : Int := min (gridDim k - 1) (Int.fdiv (lget 0 q k - s.mapOrigin k) (p * um16))
    let m := s.sdfAt (v 0) (v 1) (v 2) * p * 8192 * 1000 - 866 * p * um16 - (r + cl + e) * 1000
    if m < 0 then none
    else if !s.cubeFree q (r + cl + e) (s.sliceAt (t - half)) (if hold then 15 else s.sliceAt (t + half)) then none
    else
      others.foldl (fun (acc : Option Int) o =>
        acc.bind (fun best =>
          let d2 := ((List.range 3).map (fun k => (lget 0 q k - lget 0 o.1 k) ^ 2)).foldl (· + ·) 0
          let need := r + o.2 + cl + e
          if d2 < need * need then none else some (min best ((sqrtEven d2.toNat : Nat) - need)))) (some (divEven m 1000))

/-- Axes within POS_MIN to POS_MAX (R411). -/
def State.limitsOk (s : State) (c : Nat) (pose : List Int) : Bool :=
  (List.range 4).all (fun r => (s.roleAxis c r).isNone ||
    (decide (s.rint (aRole c r + 0x14) * um16 ≤ lget 0 pose r) && decide (lget 0 pose r ≤ s.rint (aRole c r + 0x18) * um16)))

/-- One sample: every sphere passes; the least margin. -/
def State.sampleOk (s : State) (c : Nat) (pose : List Int) (e : Int) (t half : Nat) (hold : Bool) : Option Int :=
  if !s.limitsOk c pose then none
  else
    let others := s.othersAt c t
    (s.spheres c).foldl (fun (acc : Option Int) sp =>
      acc.bind (fun best =>
        (s.sphereOk ((List.range 3).map (fun k => lget 0 pose k + lget 0 sp.1 k)) sp.2 e others t half hold).map (min best)))
      (some (2 ^ 80))

/-- The greatest speed of a trajectory from a tick on: the speeds of X, Y and Z at the ends of its phases, taken together. -/
def Traj.peak (j : Traj) (t : Nat) : Int :=
  let ends (p : Nat × List RoleMove) : List Nat := p.2.flatMap (fun m =>
    (m.phases.foldl (fun (acc : List Nat × Nat) ph => (acc.1 ++ [acc.2 + ph.ticks], acc.2 + ph.ticks)) ([p.1], p.1)).1)
  let speed (x : Nat) : Int :=
    (sqrtEven ((((List.range 3).map (fun r => ((j.at_ x r).2.1) ^ 2)).foldl (· + ·) 0).toNat) : Nat)
  ((j.prims.flatMap ends).map (fun x => speed (max x t))).foldl max (speed t)

/-- Ticks sampled (R410). -/
def sampleTicks (n start dur : Nat) : List Nat := (List.range n).map (fun i => start + dur * (i + 1) / n)

/-- The inflation of R410 for the part of a trajectory from a tick on. -/
def State.inflate (s : State) (j : Traj) (start : Nat) : Int :=
  divEven (j.peak start * ((j.arrive - start : Nat) : Int)) (2 * max 1 (s.samplesN : Int) * tickHz)

/-- The check of a trajectory from a tick on (R410, R411): none when a sphere fails, else the least margin. -/
def State.trajOk (s : State) (c : Nat) (j : Traj) (start : Nat) : Option Int :=
  let n := max 1 s.samplesN
  let dur := j.arrive - start
  let e := s.inflate j start
  let half := dur / n / 2
  let go := (sampleTicks n start dur).foldl (fun (acc : Option Int) t =>
    acc.bind (fun best => (s.sampleOk c (j.pose t) e t half false).map (min best))) (some (2 ^ 80))
  go.bind (fun best => (s.sampleOk c j.target e j.arrive half true).map (min best))

/-- The swept box of a trajectory (R414), voxels of X, Y, Z. -/
def State.sweptBox (s : State) (c : Nat) (j : Traj) (start : Nat) : List (Int × Int) :=
  let n := max 1 s.samplesN
  let e := s.inflate j start + s.clearance
  let poses := j.target :: (sampleTicks n start (j.arrive - start)).map j.pose
  (List.range 3).map (fun k =>
    let vox (x : Int) : Int := Int.fdiv (x - s.mapOrigin k) (max 1 s.mapPitch * um16)
    let lo := poses.flatMap (fun p => (s.spheres c).map (fun sp => lget 0 p k + lget 0 sp.1 k - sp.2 - e))
    let hi := poses.flatMap (fun p => (s.spheres c).map (fun sp => lget 0 p k + lget 0 sp.1 k + sp.2 + e))
    (vox (lo.foldl min (lget 0 lo 0)), vox (hi.foldl max (lget 0 hi 0))))

/-- Two boxes meet. -/
def boxesMeet (a b : List (Int × Int)) : Bool :=
  (a.zip b).all (fun x => decide (x.1.1 ≤ x.2.2) && decide (x.2.1 ≤ x.1.2))

/-- A change after a snapshot meets a box (R406, R414): the last 16 dirty boxes are kept, an older snapshot takes the whole
grid as changed. -/
def State.changedIn (s : State) (version : Nat) (box : List (Int × Int)) : Bool :=
  let later := s.line.dirty.filter (fun d => decide (version < d.version))
  decide (version + 16 < s.line.version) || later.any (fun d => match d.box with
    | some b => boxesMeet b box
    | none => false)

/-! ### Candidates (R408) -/

/-- Offset of i_y. -/
def yStep (i : Nat) : Int := lget 0 [0, 1, -1, 2, -2, 3, -3, 4] i

/-- Target of a request, by role (R399, R400): a role with no axis stays at its ORIGIN. -/
def State.reqTarget (s : State) (r : Req) (now : List Int) : List Int :=
  let c := r.carriage
  let want : List Int := match r.kind with
    | 1 => [r.x * um16, r.y * um16, r.z * um16, signedOf 32 r.aux.toNat * um16]
    | 4 => [lget 0 now 0, lget 0 now 1, s.rint (aRole c 2 + 0x18) * um16, lget 0 now 3]
    | _ => [r.x * um16, lget 0 now 1, r.z * um16, signedOf 32 r.aux.toNat * um16]
  (List.range 4).map (fun k => if (s.roleAxis c k).isSome then lget 0 want k else s.roleOrigin c k)

/-- State of every role at a tick: of the trajectory in force, or the measured rest pose (R409). -/
def State.startAt (s : State) (c t : Nat) : List (Int × Int × Int) :=
  match (s.carAt c).traj with
  | some j => (List.range 4).map (j.at_ t)
  | none => (s.poseNow c).map (fun x => (x, 0, 0))

/-- Primitives in a row from a tick and a start state, each to rest at its target. -/
def State.primChain (s : State) (c σ : Nat) : List (List Int) → Nat → List (Int × Int × Int) →
    Option (List (Nat × List RoleMove) × Nat)
  | [], t, _ => some ([], t)
  | g :: gs, t, st =>
    match s.primitive c st g σ with
    | none => none
    | some ms =>
      let t' := t + (ms.map RoleMove.ticks).foldl max 0
      (s.primChain c σ gs t' (ms.map (fun m => (m.target, 0, 0)))).map (fun x => ((t, ms) :: x.1, x.2))

/-- Primitives of the plan in force that still matter from a tick on. -/
def keptPrims (j : Option Traj) (t : Nat) : List (Nat × List RoleMove) :=
  match j with
  | none => []
  | some j =>
    let past := j.prims.filter (fun p => decide (p.1 ≤ t))
    past.drop (past.length - 1) ++ j.prims.filter (fun p => decide (t < p.1))

/-- Candidate c of R408 for a head request, from t_s. -/
def State.candTraj (s : State) (r : Req) (ts k : Nat) : Option Traj :=
  let c := r.carriage
  let nd := s.genN 16
  let ny := s.genN 20
  let nz := s.genN 24
  let (id, iy, iz, is) := (k % nd, k / nd % ny, k / nd / ny % nz, k / nd / ny / nz)
  if (iz ≠ 0 ∧ (s.roleAxis c 2).isNone) ∨ (iy ≠ 0 ∧ (s.roleAxis c 1).isNone) then none
  else
    let go := ts + id * 500 * (s.regGet 0xA003C).toNat
    let st := s.startAt c go
    let now := st.map (·.1)
    let tgt := s.reqTarget r (match (s.carAt c).traj with
      | some j => j.target
      | none => now)
    let dz := (iz : Int) * ((s.rfld 0xA0038 31 16 : Nat) : Int) * 1000 * um16
    let dy := yStep iy * ((s.rfld 0xA0038 15 0 : Nat) : Int) * 1000 * um16
    let zv := max (lget 0 now 2) (lget 0 tgt 2) + dz
    let legs := if iz = 0 ∧ iy = 0 then [tgt]
      else [[lget 0 now 0, lget 0 now 1 + dy, zv, lget 0 now 3], [lget 0 tgt 0, lget 0 tgt 1 + dy, zv, lget 0 tgt 3], tgt]
    (s.primChain c (65536 - 8192 * is) legs go st).map (fun x =>
      let prims := (keptPrims (s.carAt c).traj ts).filter (fun p => decide (p.1 < go)) ++ x.1
      let j : Traj := { start := ts, arrive := x.2, prims := prims, target := tgt, inflation := 0 }
      { j with inflation := s.inflate j ts })

/-- Deadline of a request's kind, as the latest arrival; none is infinite (R412). -/
def State.lastArrival (s : State) (r : Req) : Option Int :=
  if markKind r then (s.txOf r).map (fun t => t - s.settleTicks)
  else if r.need = 0 then none else some ((r.taken + 500 * r.need : Nat) : Int)

/-- A candidate checked against the front and its deadline (R410 to R413). -/
def State.candidate (s : State) (r : Req) (ts k : Nat) : Option Cand :=
  (s.candTraj r ts k).bind (fun j =>
    let late := match s.lastArrival r with
      | some t => decide (t < (j.arrive : Int))
      | none => false
    if late then none
    else (s.trajOk r.carriage j ts).map (fun m =>
      let short := max 0 (((s.regGet 0xA004C).toNat : Int) * um16 - m)
      { traj := j, box := s.sweptBox r.carriage j ts,
        cost := ((j.arrive - ts : Nat) : Int) * 2 ^ 165 + 500 * fix149 (s.regGet 0xA0048) * short }))

/-- Puts a candidate behind those of no greater cost (R413: ties go to the lower index). -/
def candInsert (x : Cand) : List Cand → List Cand
  | [] => [x]
  | y :: ys => if x.cost < y.cost then x :: y :: ys else y :: candInsert x ys

/-- Feasible candidates, best first. -/
def State.candidates (s : State) (r : Req) (ts : Nat) : List Cand :=
  ((List.range (s.genN 28 * s.genN 24 * s.genN 20 * s.genN 16)).filterMap (s.candidate r ts)).foldl
    (fun l x => candInsert x l) []

/-! ### Batches (R414, R415, R422) -/

/-- Ticks that the samples of one group of candidates take (R422). -/
def State.groupTicks (s : State) (c : Nat) : Nat :=
  let b := (s.spheres c).length
  let bo := (((List.range 8).filter (fun k => k != c && (s.carAt k).st != .off)).map (fun k => (s.spheres k).length)).sum
  (s.samplesN + 1) * (12 + 2 * b + (b * bo + 15) / 16)

/-- Ticks of a batch, and of a recheck. -/
def State.batchTicks (s : State) (c : Nat) : Nat :=
  1024 + (s.genN 28 * s.genN 24 * s.genN 20 * s.genN 16 + 63) / 64 * (40 + s.groupTicks c)
def State.recheckTicks (s : State) (c : Nat) : Nat := 256 + s.groupTicks c

/-- A carriage's head is ready to be planned (R420, R422). -/
def State.headReady (s : State) (c : Nat) : Bool :=
  let k := s.carAt c
  (k.st == .idle || k.st == .moving) && !k.queue.isEmpty && (!k.committed || k.replan)

/-- Whether carriage c is served before carriage d: the earlier deadline, then the lower number. -/
def State.servedBefore (s : State) (c d : Nat) : Bool :=
  let dl (x : Nat) : Option Int := match (s.carAt x).queue with
    | r :: _ => s.lastArrival r
    | [] => none
  match dl c, dl d with
  | some a, some b => decide (a < b) || (decide (a = b) && decide (c ≤ d))
  | some _, none => true
  | none, some _ => false
  | none, none => decide (c ≤ d)

/-- A batch may start for a carriage: none runs, and it is the one to be served. -/
def State.batchMayStart (s : State) (c : Nat) : Bool :=
  s.motionRuns && s.line.batch.isNone && s.headReady c &&
    (List.range 8).all (fun d => !s.headReady d || s.servedBefore c d)

/-- t_s of a batch that starts now (R409). -/
def State.tsNow (s : State) (c : Nat) : Nat := s.sampleAfter c (s.now + 31250 * max 1 (s.rfld 0xA0040 31 24))

/-- A batch starts. -/
def State.batchStart (s : State) (c : Nat) : State :=
  match (s.carAt c).queue with
  | [] => s
  | r :: _ =>
    let ts := s.tsNow c
    let b : Batch := {
      car := c, version := s.line.version, start := s.now, ticks := s.batchTicks c, ts := ts, recheck := false,
      cands := s.candidates r ts, replan := (s.carAt c).committed }
    (s.updLine (fun l => { l with batch := some b })).updCar c (fun k => { k with replan := false })

/-- A trajectory is committed (R415). -/
def State.commit (s : State) (c : Nat) (j : Traj) (after : Bool) : State :=
  let s := s.updLine (fun l => { l with batch := none })
  let s := s.updCar c (fun k => { k with traj := some j, committed := true, st := .moving, kick := true })
  let s := if after then s.bumpLo 0xA006C else s
  match (s.carAt c).queue with
  | [] => s
  | r :: _ =>
    let us := match (if markKind r then s.txOf r else none) with
      | some t => Int.fdiv (t - (j.arrive + s.settleTicks : Nat)) 500
      | none => 2 ^ 31
    ((s.regSet (aCar c + 0x14) (sat32 us)).watchKick 7 r.wid).watchRef 8 c

/-- The braking primitive is commanded from a tick (R417). -/
def State.brakeFrom (s : State) (c t : Nat) : State :=
  let st := s.startAt c t
  let ms := s.brakeMoves c st
  let j : Traj := {
    start := t, arrive := t + (ms.map RoleMove.ticks).foldl max 0,
    prims := (keptPrims (s.carAt c).traj t).filter (fun p => decide (p.1 < t)) ++ [(t, ms)],
    target := ms.map (·.target), inflation := 0 }
  let j := { j with inflation := s.inflate j t }
  let s := (s.updCar c (fun k => { k with traj := some j, st := .braking })).bump 0xA0068
  s.raise evMotion 5

/-- No candidate commits (R416): what is left of the trajectory in force is kept if it passes, else the carriage brakes; the
head ends, but for a replan (R420). -/
def State.planFails (s : State) (b : Batch) (out : Nat) : State :=
  let s := s.updLine (fun l => { l with batch := none })
  if b.replan then s
  else
    let s := match (s.carAt b.car).traj with
      | some j => if b.ts < j.arrive ∧ (s.trajOk b.car j b.ts).isNone then s.brakeFrom b.car b.ts else s
      | none => s
    let s := s.raise evMotion (if out = 1 then 9 else 8)
    s.endHead b.car out s.sp

/-- The time of a batch or recheck is entered in MOTION_BATCH_US. -/
def State.batchUs (s : State) (b : Batch) : State :=
  if b.recheck then s
  else
    let us := min 0xFFFF ((s.now - b.start) / 500)
    (s.setFld 0xA0070 31 16 (max us (s.rfld 0xA0070 31 16))).setFld 0xA0070 15 0 us

/-- A batch has checked its candidates (R414). -/
def State.batchEnd (s : State) (b : Batch) : State :=
  let s := s.batchUs b
  match b.cands with
  | [] => s.planFails b 1
  | x :: _ =>
    if !s.changedIn b.version x.box then s.commit b.car x.traj false
    else
      let s := (s.bumpHi 0xA006C).raise evMotion 7
      let again := (b.cands.take 8).filter (fun y => (s.trajOk b.car y.traj b.ts).isSome)
      s.updLine (fun l => { l with batch := some { b with
        recheck := true, version := l.version, start := s.now, ticks := s.recheckTicks b.car, cands := again } })

/-- A recheck has ended: the first candidate that passed commits unless a later change meets it (R414). -/
def State.recheckEnd (s : State) (b : Batch) : State :=
  match b.cands with
  | x :: _ => if s.changedIn b.version x.box then s.planFails b 2 else s.commit b.car x.traj true
  | [] => s.planFails b 2

/-- PLAN_BATCH (R422). -/
def execPlanBatch (t car : Nat) (s : State) : Out :=
  let s := s.to t
  guardNext (s.batchMayStart car) s (fun s => s.batchStart car)

/-- BATCH_END (R414): after the ticks of R422, and before t_s. -/
def execBatchEnd (t : Nat) (s : State) : Out :=
  let s := s.to t
  match s.line.batch with
  | some b => guardNext (!b.recheck && decide (b.start + b.ticks ≤ s.now) && decide (s.now < b.ts)) s (fun s => s.batchEnd b)
  | none => .next s

/-- RECHECK_DONE (R414). -/
def execRecheckDone (t : Nat) (s : State) : Out :=
  let s := s.to t
  match s.line.batch with
  | some b => guardNext (b.recheck && decide (b.start + b.ticks ≤ s.now) && decide (s.now < b.ts)) s (fun s => s.recheckEnd b)
  | none => .next s

/-- PLAN_TIMEOUT (R415, R416): a batch or recheck still running at t_s is abandoned. -/
def execPlanTimeout (t car : Nat) (s : State) : Out :=
  let s := s.to t
  match s.line.batch with
  | some b => guardNext (b.car == car && decide (b.ts ≤ s.now)) s (fun s => s.planFails b 2)
  | none => .next s

/-- BRAKE_DONE (R417): at rest the carriage is IDLE. -/
def execBrakeDone (t car : Nat) (s : State) : Out :=
  let s := s.to t
  match (s.carAt car).traj with
  | some j => guardNext ((s.carAt car).st == .braking && decide (j.arrive ≤ s.now)) s (fun s =>
      s.updCar car (fun k => { k with st := .idle, traj := none, committed := false }))
  | none => .next s

/-- SETTLE_END (R401): a GOTO or PARK ends at arrival + SETTLE. -/
def execSettleEnd (t car : Nat) (s : State) : Out :=
  let s := s.to t
  match (s.carAt car).traj, (s.carAt car).queue with
  | some j, r :: _ =>
    guardNext ((s.carAt car).committed && !markKind r && (s.carAt car).st == .moving &&
      decide (j.arrive + s.settleTicks ≤ s.now)) s (fun s =>
      (s.endHead car (if s.inTol car j.target then 0 else 5) s.sp).updCar car (fun k => { k with traj := none, st := .idle }))
  | _, _ => .next s

end Sys2Proof.Machine
end

