-- ==== Sys2Proof/Machine/Motion.lean ====
section
/-!
DEFINITION. The motion planner at a base tick (R398, R419 to R421), its requests, the map store (R405), and the MOTION
registers (R423 to R425).
-/
namespace Sys2Proof.Machine

/-! ### General outputs (R371, R419) -/

/-- A tool pulse is active on a GPIO. -/
def State.toolOn (s : State) (i : Nat) : Bool :=
  (List.range 8).any (fun c => (s.carAt c).toolUntil.isSome && s.rfld (aCar c) 20 16 == i)

/-- The level a GPIO output is given: by a tool pulse, a controller, or SERVO_GPIO_OUT. -/
def State.gpioWant (s : State) (i : Nat) : Bool :=
  s.toolOn i || (if s.line.gpioQpOn.getLsbD i then s.line.gpioQp.getLsbD i else s.rbit 0x80034 i)

/-- One bit of a GPIO word set to a level. -/
def setBit (w : BitVec 32) (i : Nat) (v : Bool) : BitVec 32 :=
  if v then w ||| BitVec.ofNat 32 (2 ^ i) else w &&& ~~~(BitVec.ofNat 32 (2 ^ i))

/-- GPIO outputs change at a base tick (R371); a LINE output passes Plumb (R359), and a change that it blocks is asked for again
at the next base tick. -/
def State.gpioStep (s : State) : State :=
  s.each (List.range 32) (fun s i =>
    let v := s.gpioWant i
    if !s.rbit 0x80030 i || s.line.gpioOut.getLsbD i == v then s
    else if s.rbit 0x8003C i && s.blocked (24 + i) v then s.bump 0xB0038
    else
      let s := s.updLine (fun l => { l with gpioOut := setBit l.gpioOut i v })
      if s.rbit 0x8003C i then s.drive (24 + i) v else s)

/-! ### A base tick -/

/-- The tool of a carriage fires (R419): its pulse is issued when TOOL_EN and the LINE bit are set and Plumb permits it. -/
def State.toolFires (s : State) (c : Nat) : Bool :=
  let g := s.rfld (aCar c) 20 16
  s.rbit (aCar c) 21 && s.rbit 0x8003C g && !(s.targetAt (24 + g)).inFallback && s.permitNow (24 + g)

/-- Where the target of a carriage's head lies: that of its committed trajectory, else as R399 and R400 give it. -/
def State.headTarget (s : State) (c : Nat) (r : Req) : List Int :=
  match (s.carAt c).committed, (s.carAt c).traj with
  | true, some j => j.target
  | _, some j => s.reqTarget r j.target
  | _, none => s.reqTarget r (s.poseNow c)

/-- The crossing of a MARK or CUT that is head (R419): the tool fires at the first base tick at or past SP_x, on that crossing
only. The replan of a committed one (R420). -/
def State.markTick (s : State) (c : Nat) : State :=
  let k := s.carAt c
  match k.queue with
  | r :: _ =>
    if !markKind r then s
    else if s.spx r ≤ s.sp then
      let hit := decide (s.line.spBase < s.spx r) && s.inTol c (s.headTarget c r) && s.toolFires c
      let s := s.endHead c (if hit then 0 else 5) s.sp
      if hit then s.updCar c (fun k => { k with toolUntil := some (s.now + 500 * s.rfld (aCar c + 4) 31 16) }) else s
    else match k.committed, k.traj, s.txOf r with
      | true, some j, some t =>
        if t < (j.arrive + s.settleTicks : Nat) then (s.updCar c (fun k => { k with replan := true })).raise evMotion 2 else s
      | _, _, _ => s
  | [] => s

/-- A trajectory that has arrived and serves no request any more is dropped; a tool pulse ends at its width. -/
def State.carTick (s : State) (c : Nat) : State :=
  let s := s.updCar c (fun k => { k with toolUntil := k.toolUntil.filter (fun t => decide (s.now < t)) })
  match (s.carAt c).traj with
  | some j =>
    if (s.carAt c).st == .moving && !(s.carAt c).committed && decide (j.arrive ≤ s.now) then
      s.updCar c (fun k => { k with traj := none, st := .idle })
    else s
  | none => s

/-- The planner at a base tick: rings 0 to 3, the host's requests, then each carriage. -/
def State.motionTick (s : State) : State :=
  if !s.motionRuns then s
  else
    let s := s.carCheck
    let s := s.each (List.range 4) State.readRing
    let rs := s.line.hostReqs
    let s := (s.updLine (fun l => { l with hostReqs := [] })).each rs (fun s r => s.takeReq r 255)
    let s := s.each (List.range 8) State.carTick
    (s.each (List.range 8) State.markTick).updLine (fun l => { l with spBase := s.sp })

/-- Requests taken before a restart of the engine end RESTART (R421). -/
def State.restartReqs (s : State) : State :=
  let rs := s.line.taken
  s.each rs (fun s r => s.endReq r 9 s.sp)

/-! ### The map store (R403 to R405) -/

/-- The least box that holds two. -/
def boxJoin (a : Option (List (Int × Int))) (b : List (Int × Int)) : Option (List (Int × Int)) :=
  match a with
  | none => some b
  | some a => some ((a.zip b).map (fun x => (min x.1.1 x.2.1, max x.1.2 x.2.2)))

/-- The store of the shadow. -/
def State.mapShadow (s : State) : Nat := 1 - s.line.mapFront

/-- Writes a region of the SDF shadow: X runs fastest, then Y, then Z. -/
def State.sdfPlace (s : State) (box : List Nat) (bytes : List Byte) : State :=
  let b (i : Nat) := lget 0 box i
  let (x0, nx, y0, ny, z0, nz) := (b 0, b 1 + 1 - b 0, b 2, b 3 + 1 - b 2, b 4, b 5 + 1 - b 4)
  let s := s.each (List.range (ny * nz)) (fun s i =>
    s.stBytes (memKey (spSdf s.mapShadow) (x0 + 256 * (y0 + i % ny + 128 * (z0 + i / ny)))) ((bytes.drop (nx * i)).take nx))
  s.updLine (fun l => { l with
    pendBox := boxJoin l.pendBox [(x0, (b 1 : Nat)), (y0, (b 3 : Nat)), (z0, (b 5 : Nat))] })

/-- Writes slices of the occupancy shadow, 4,096 bytes each, with OCC_T0. -/
def State.occPlace (s : State) (t0 first : Nat) (bytes : List Byte) : State :=
  let s := s.stBytes (memKey (spOcc s.mapShadow) (4096 * first)) bytes
  s.updLine (fun l => { l with occT0Shadow := t0, pendBox := boxJoin l.pendBox [(0, 255), (0, 127), (0, 63)] })

/-- A trajectory that a publish invalidates is replaced by the braking primitive (R420). -/
def State.revalidate (s : State) (c : Nat) : State :=
  match (s.carAt c).traj with
  | some j =>
    if (s.carAt c).st != .moving || (s.trajOk c j s.now).isSome then s
    else
      let s := (s.raise evMotion 6).brakeFrom c (s.sampleAfter c (s.now + 1))
      s.endHead c 6 s.sp
  | none => s

/-- PUBLISH (R405). -/
def State.mapPublish (s : State) : State :=
  let box := s.line.pendBox
  let old := s.line.version
  let s := s.updLine (fun l => { l with
    version := old + 1, mapFront := 1 - l.mapFront, held := some old, pendBox := none, occT0 := l.occT0Shadow,
    occT0Shadow := l.occT0, dirty := ({ version := old + 1, box := box } :: l.dirty).take 16 })
  let n (k : Nat) (hi : Bool) : Nat := match box with
    | some b => (let p := lget (0, 0) b k; (if hi then p.2 else p.1)).toNat
    | none => 0
  let s := ((s.regSet 0xA0024 (wordOf (old + 1))).regSet 0xA0028
    (wordOf (n 0 true * 2 ^ 24 + n 0 false * 2 ^ 16 + n 1 true * 2 ^ 7 + n 1 false))).regSet 0xA002C
    (wordOf (b2n box.isNone * 2 ^ 31 + n 2 true * 2 ^ 6 + n 2 false))
  s.each (List.range 8) State.revalidate

/-- The held old front is copied from the new front (R405). -/
def State.shadowCopy (s : State) : State :=
  let (f, b) := (s.line.mapFront, s.mapShadow)
  ((s.copySpace (spSdf f) (spSdf b)).copySpace (spOcc f) (spOcc b)).updLine (fun l => { l with
    held := none, occT0Shadow := l.occT0 })

/-! ### Commands -/

def reqRow (t kind : Nat) (r : Req) (s : State) : Out :=
  let s := s.to t
  guardNext (s.motionRuns && r.kind == kind && !reqIsBad r) s (fun s => s.takeReq r 255)

def execGoto (t : Nat) (r : Req) (s : State) : Out := reqRow t 1 r s
def execMarkReq (t : Nat) (r : Req) (s : State) : Out := reqRow t 2 r s
def execCut (t : Nat) (r : Req) (s : State) : Out := reqRow t 3 r s
def execPark (t : Nat) (r : Req) (s : State) : Out := reqRow t 4 r s
def execPost (t : Nat) (r : Req) (s : State) : Out := reqRow t 5 r s
def execCancel (t : Nat) (r : Req) (s : State) : Out := reqRow t 6 r s

/-- REQ_BAD (R400). -/
def execReqBad (t : Nat) (r : Req) (s : State) : Out :=
  let s := s.to t
  guardNext (s.motionRuns && reqIsBad r) s (fun s => s.takeReq r 255)

/-- SHADOW_COPY_DONE (R405): once no batch or recheck reads the held version. -/
def execShadowCopyDone (t : Nat) (s : State) : Out :=
  let s := s.to t
  match s.line.held with
  | some v => guardNext (s.line.batch.all (fun b => b.version != v)) s State.shadowCopy
  | none => .next s

/-- A command of MOTION_CMD (R425). -/
def State.motionCmd (s : State) (v : Word) : State :=
  match fld v 31 24 with
  | 1 => s.mapPublish
  | 2 => s.endQueued (fld v 2 0) 8 1
  | 3 => s.each [0xA0060, 0xA0064, 0xA0068, 0xA006C, 0xA0074] (fun s a => s.regSet a 0#32)
  | _ => s

/-- STATE of a carriage (R424). -/
def State.carCode (s : State) (c : Nat) : Nat :=
  match (s.carAt c).st, (s.carAt c).traj with
  | .off, _ => 0
  | .unavailable, _ => 1
  | .idle, _ => 2
  | .moving, some j => if j.arrive ≤ s.now then 2 else 3
  | .moving, none => 2
  | .braking, _ => 4

/-- The registers of the MOTION block that show the state (R423). -/
def motionView (s : State) (o : Nat) : Option Word :=
  if o = 4 then
    some (wordOf (((List.range 8).filter s.carAvail).map (fun c => 2 ^ (8 + c))).sum +
      wordOf (4 * b2n s.line.held.isSome + 2 * b2n s.motionCfgErr + b2n s.motionRuns))
  else
    match arrIdx o 0x100 0x20 8 with
    | some c =>
      let k := s.carAt c
      if o = 0x10C + 0x20 * c then
        some (wordOf (min 255 k.queue.length * 2 ^ 24 + k.lastOutcome * 2 ^ 20 + 8 * b2n (s.carEn c && s.carCfgErr c) +
          s.carCode c))
      else if o = 0x110 + 0x20 * c then
        some (match k.queue with
          | r :: _ => wordOf r.id
          | [] => 0#32)
      else none
    | none => none

end Sys2Proof.Machine
end

