-- ==== Sys2Proof/Machine/QpSolve.lean ====
section
/-!
DEFINITION. The QP solver (R378 to R384): the problem image with its factors, and the dual active-set method in FP32 class T.
R383 gives the steps; the order of the operations inside a step is the model's.
-/
namespace Sys2Proof.Machine

/-! ### The image (R379) -/

/-- A number m × 2^e held to 53 bits, as FP64 holds it. -/
abbrev D64 := Int × Int

/-- To nearest, ties to even, at 53 bits. -/
def d64Round (x : D64) : D64 :=
  let n := x.1.natAbs
  if n < 2 ^ 53 then x
  else
    let k := Nat.log2 n - 52
    let q := roundUnits .classT n 0 k
    (if x.1 < 0 then -(q : Int) else q, x.2 + k)

def d64Add (a b : D64) : D64 :=
  let e := min a.2 b.2
  d64Round (a.1 * 2 ^ (a.2 - e).toNat + b.1 * 2 ^ (b.2 - e).toNat, e)
def d64Neg (a : D64) : D64 := (-a.1, a.2)
def d64Mul (a b : D64) : D64 := d64Round (a.1 * b.1, a.2 + b.2)
def d64Div (a b : D64) : D64 :=
  if b.1 = 0 then (0, 0)
  else
    let n := a.1 * 2 ^ 120
    let q := Int.tdiv n b.1
    let s : Int := if decide (n < 0) != decide (b.1 < 0) then -1 else 1
    d64Round (2 * q + (if q * b.1 = n then 0 else s), a.2 - 121 - b.2)

def d64Of (w : Word) : D64 :=
  match fval w with
  | .fin neg m e => (if neg then -(m : Int) else m, e)
  | _ => (0, 0)
def d64To (x : D64) : Word := froundInt .classT x.1 x.2
/-- Whether a < b. -/
def d64Lt (a b : D64) : Bool := decide ((d64Add a (d64Neg b)).1 < 0)

/-- One row of the factor: v_j = h_ij − Σ v_k L_jk and L_ij = v_j ÷ d_j in turn, then the pivot. -/
def ldlRow (rows : List (List D64)) (ds hrow : List D64) (diag : D64) : List D64 × D64 :=
  let vs := (rows.zip hrow).foldl (fun (vs : List D64) p =>
    vs ++ [(vs.zip p.1).foldl (fun acc q => d64Add acc (d64Neg (d64Mul q.1 q.2))) p.2]) []
  let ls := (vs.zip ds).map (fun p => d64Div p.1 p.2)
  (ls, (vs.zip ls).foldl (fun acc p => d64Add acc (d64Neg (d64Mul p.1 p.2))) diag)

/-- H = LDLᵀ in FP64, from the full symmetric rows. -/
def ldl (h : Nat → Nat → Word) (n : Nat) : List (List D64) × List D64 :=
  (List.range n).foldl (fun (acc : List (List D64) × List D64) i =>
    let (ls, d) := ldlRow acc.1 acc.2 ((List.range i).map (fun j => d64Of (h i j))) (d64Of (h i i))
    (acc.1 ++ [ls], acc.2 ++ [d])) ([], [])

/-- Entry (i, j) of a sparse matrix. -/
def spGet (m : SparseRows) (i j : Nat) : Word :=
  match (lget [] m i).find? (fun p => p.1 == j) with
  | some p => p.2
  | none => 0#32

/-- Entry (i, j) of a symmetric matrix kept as its upper triangle. -/
def symGet (h : SparseRows) (i j : Nat) : Word := if i ≤ j then spGet h i j else spGet h j i

/-- Number of entries. -/
def nnz (m : SparseRows) : Nat := (m.map List.length).sum

/-- A value is finite. -/
def isFin (w : Word) : Bool := fld w 30 23 != 255

/-- Words of an image. -/
def imgWords (bs : List Byte) : List Word := (chunks 4 ((bs.length + 3) / 4) bs).map (fun b => wordOf (leNat b))

/-- Splits a list into rows by rising row pointers. -/
def rowsOf (ps : List Nat) (xs : List (Nat × Word)) : SparseRows :=
  (ps.zip (ps.drop 1)).map (fun p => (xs.drop p.1).take (p.2 - p.1))

/-- Reads a matrix in compressed rows from the words of an image: row pointers, column indices, values. None where a pointer
falls or an index is out of range. -/
def takeRows (rows cols : Nat) (upper : Bool) (ws : List Word) : Option (SparseRows × List Word × List Word) :=
  let ps := (ws.take (rows + 1)).map BitVec.toNat
  let k := ps.getLastD 0
  let rest := ws.drop (rows + 1)
  let cs := (rest.take k).map BitVec.toNat
  let vs := (rest.drop k).take k
  let m := rowsOf ps (cs.zip vs)
  let rising := (ps.zip (ps.drop 1)).all (fun p => decide (p.1 ≤ p.2)) && ps.head? == some 0
  let inRange := cs.all (fun c => decide (c < cols)) &&
    (!upper || m.zipIdx.all (fun r => r.1.all (fun p => decide (r.2 ≤ p.1))))
  if ps.length = rows + 1 ∧ vs.length = k ∧ rising ∧ inRange then
    some (m, ws.take (rows + 1 + k), rest.drop (2 * k))
  else none

/-- Whether every entry of a matrix is finite. -/
def finRows (m : SparseRows) : Bool := m.all (fun r => r.all (fun p => isFin p.2))

/-- A θ entry of 8 bytes (R381); none for a reserved kind or an index out of range. -/
def thetaOf (lo hi : Word) (nout : Nat) : Option ThetaEntry :=
  let k := fld hi 31 24
  let i := fld hi 15 0
  let ok := match k with
    | 0 => true | 1 => true | 2 => true
    | 3 => decide (i < 16) | 4 => decide (i < 16)
    | 5 => decide (i < 1024) | 6 => decide (i < 256) | 7 => decide (i < 32) | 8 => decide (i < nout)
    | _ => false
  if ok && fld hi 23 17 == 0 then some { kind := k, fresh := wbit hi 16, index := i, scale := lo } else none

/-- An output entry of 24 bytes (R382). -/
def outOf (ws : List Word) (nu : Nat) : Option OutEntry :=
  let w (i : Nat) : Word := lget 0#32 ws i
  let t := fld (w 0) 23 16
  let i := fld (w 0) 31 24
  let ok := match t with
    | 0 => decide (i < 16) | 1 => decide (i < 8) | 2 => decide (i < 32) | _ => false
  if ok && decide (fld (w 0) 15 0 < nu) then
    some { z := fld (w 0) 15 0, target := t, tindex := i, scale := w 1, offset := w 2, min := w 3, max := w 4, fallback := w 5 }
  else none

/-- The parts of an image once its matrices have been read. -/
def qpTables (nv nc nu n nth nout : Nat) (h a fM lM uM : SparseRows) (sig : Word) (ws : List Word) : Except Nat QpProb :=
  let f0 := ws.take nv
  let l0 := (ws.drop nv).take nc
  let u0 := (ws.drop (nv + nc)).take nc
  let rest := ws.drop (nv + 2 * nc)
  let th := (List.range nth).mapM (fun i => thetaOf (lget 0#32 rest (2 * i)) (lget 0#32 rest (2 * i + 1)) nout)
  let os := (List.range nout).mapM (fun i => outOf ((rest.drop (2 * nth + 6 * i)).take 6) nu)
  if rest.length ≠ 2 * nth + 6 * nout then .error 0x0106
  else match th, os with
    | some th, some os =>
      let (ls, ds) := ldl (symGet h) nv
      let big := ((List.range nv).map (fun i => d64Of (spGet h i i))).foldl (fun x y => if d64Lt x y then y else x) (0, 0)
      let lim : D64 := (big.1, big.2 - 100)
      if !(finRows h && finRows a && finRows fM && finRows lM && finRows uM) || (l0.zip u0).any (fun p => flt p.2 p.1) ||
          ds.any (fun d => d64Lt d lim || decide (d.1 ≤ 0)) then .error 0x0502
      else .ok { nv := nv, nc := nc, nu := nu, n := n, h := h, a := a, fMat := fM, lMat := lM, uMat := uM, f0 := f0, l0 := l0,
                 u0 := u0, theta := th, outs := os, lFac := ls.map (fun r => r.map d64To), dFac := ds.map d64To, sig := sig }
    | _, _ => .error 0x0106

/-- Parses a problem image (R379); an error is the status of the load. -/
def parseQp (bs : List Byte) : Except Nat QpProb :=
  let c (i : Nat) : Nat := leAt bs (2 * i) 2
  let (nv, nc, nu, n, nth, nout) := (c 0, c 1, c 2, c 3, c 4, c 5)
  if bs.length < 16 ∨ bs.length % 4 ≠ 0 then .error 0x0106
  else if nv = 0 then .error 0x020A
  else if 192 < nv ∨ 512 < nc ∨ nv < n * nu ∨ 256 < nth ∨ nout = 0 ∨ 16 < nout ∨ leAt bs 12 4 ≠ 0 then .error 0x0106
  else match takeRows nv nv true (imgWords (bs.drop 16)) with
    | none => .error 0x0106
    | some (h, hx, ws) =>
      match takeRows nc nv false ws with
      | none => .error 0x0106
      | some (a, ax, ws) =>
        match takeRows nv nth false ws with
        | none => .error 0x0106
        | some (fM, _, ws) =>
          match takeRows nc nth false ws with
          | none => .error 0x0106
          | some (lM, _, ws) =>
            match takeRows nc nth false ws with
            | none => .error 0x0106
            | some (uM, _, ws) =>
              let sig := crc32c (bs.take 8 ++ (hx ++ ax).flatMap (fun w => leBytes 4 w.toNat))
              qpTables nv nc nu n nth nout h a fM lM uM (wordOf sig) ws

/-! ### Vectors -/

def qAdd (a b : Word) : Word := fadd .classT a b
def qSub (a b : Word) : Word := fsub .classT a b
def qMul (a b : Word) : Word := fmul .classT a b
def qDiv (a b : Word) : Word := fdiv .classT a b

/-- Σ a_i b_i in increasing index. -/
def qDot (a b : List Word) : Word := (a.zip b).foldl (fun acc p => ffma .classT p.1 p.2 acc) 0#32
/-- A sparse row times a vector. -/
def qRow (r : List (Nat × Word)) (v : List Word) : Word :=
  r.foldl (fun acc p => ffma .classT p.2 (lget 0#32 v p.1) acc) 0#32
/-- x + k y. -/
def qAxpy (x : List Word) (k : Word) (y : List Word) : List Word :=
  (x.zip y).map (fun p => ffma .classT k p.2 p.1)
/-- A sparse row as a dense vector of n, times a sign. -/
def qDense (n : Nat) (r : List (Nat × Word)) (neg : Bool) : List Word :=
  (List.range n).map (fun j => match r.find? (fun p => p.1 == j) with
    | some p => if neg then fneg p.2 else p.2
    | none => 0#32)

/-- Solves L D Lᵀ x = b. -/
def ldlSolve (l : List (List Word)) (d b : List Word) : List Word :=
  let y := (l.zip b).foldl (fun (y : List Word) p =>
    y ++ [(p.1.zip y).foldl (fun acc q => qSub acc (qMul q.1 q.2)) p.2]) []
  let z := (y.zip d).map (fun p => qDiv p.1 p.2)
  let n := b.length
  (List.range n).foldl (fun (x : List Word) k =>
    let i := n - 1 - k
    let v := (List.range (n - 1 - i)).foldl (fun acc j =>
      qSub acc (qMul (lget 0#32 (lget [] l (i + 1 + j)) i) (lget 0#32 x j))) (lget 0#32 z i)
    v :: x) []

/-- Solves L D y = b for the row of a factor that b becomes (R383 step 4). -/
def ldlEnter (l : List (List Word)) (d b : List Word) : List Word :=
  let y := (l.zip b).foldl (fun (y : List Word) p =>
    y ++ [(p.1.zip y).foldl (fun acc q => qSub acc (qMul q.1 q.2)) p.2]) []
  (y.zip d).map (fun p => qDiv p.1 p.2)

/-! ### The method (R383) -/

/-- What a solve works on: the problem with f, l and u formed, and the settings. -/
structure QpIn where
  p : QpProb
  f : List Word
  l : List Word
  u : List Word
  eps : Word
  tol : Word
  iterMax : Nat
  refineMax : Nat
  deriving DecidableEq, Repr, Inhabited

/-- A solve in progress: z, the working set with the bound each member is at (true: upper), λ, the members' H⁻¹g, the factor of
S, iterations, and whether a pivot was regularised. -/
structure QpRun where
  z : List Word
  w : List (Nat × Bool) := []
  lam : List Word := []
  hg : List (List Word) := []
  sl : List (List Word) := []
  sd : List Word := []
  iters : Nat := 0
  reg : Bool := false
  deriving DecidableEq, Repr, Inhabited

/-- How a solve ends: the outcome of R385 (0 accepted so far). -/
abbrev QpEnd := Nat × QpRun

def QpIn.hinv (q : QpIn) (b : List Word) : List Word := ldlSolve q.p.lFac q.p.dFac b
/-- g of a constraint at a bound: a for the upper, −a for the lower. -/
def QpIn.g (q : QpIn) (c : Nat × Bool) : List Word := qDense q.p.nv (lget [] q.p.a c.1) (!c.2)
/-- The bound of g: u, or −l. -/
def QpIn.b (q : QpIn) (c : Nat × Bool) : Word := if c.2 then lget 0#32 q.u c.1 else fneg (lget 0#32 q.l c.1)
/-- tol(i) at a bound. -/
def QpIn.tolOf (q : QpIn) (b : Word) : Word := qMul q.tol (qAdd 0x3F800000#32 (fabs b))
/-- gᵀz − b. -/
def QpIn.viol (q : QpIn) (c : Nat × Bool) (z : List Word) : Word :=
  let az := qRow (lget [] q.p.a c.1) z
  qSub (if c.2 then az else fneg az) (q.b c)
def QpIn.n (q : QpIn) (c : Nat × Bool) : Word := qDot (q.g c) (q.hinv (q.g c))

/-- A constraint enters the factor of S: its new row, and the pivot, regularised under QP_EPS × n (step 4). -/
def QpIn.enter (q : QpIn) (r : QpRun) (c : Nat × Bool) (lam : Word) : QpRun :=
  let hg := q.hinv (q.g c)
  let np := qDot (q.g c) hg
  let col := r.w.map (fun m => qDot (q.g m) hg)
  let row := ldlEnter r.sl r.sd col
  let d := (row.zip r.sd).foldl (fun acc p => qSub acc (qMul (qMul p.1 p.2) p.1)) np
  let e := qMul q.eps np
  let small := flt (fabs d) e
  let d := if small then (if fle 0#32 d then e else fneg e) else d
  { r with
    w := r.w ++ [c], lam := r.lam ++ [lam], hg := r.hg ++ [hg], sl := r.sl ++ [row], sd := r.sd ++ [d], reg := r.reg || small }

/-- The factor formed again over a working set, with λ kept (a member has left). -/
def QpIn.refactor (q : QpIn) (r : QpRun) (w : List (Nat × Bool)) (lam : List Word) : QpRun :=
  (w.zip lam).foldl (fun r p => q.enter r p.1 p.2)
    { r with
      w := [], lam := [], hg := [], sl := [], sd := [] }

/-- Member i leaves W. -/
def QpIn.leave (q : QpIn) (r : QpRun) (i : Nat) : QpRun := q.refactor r (r.w.eraseIdx i) (r.lam.eraseIdx i)

/-- z and λ of the equality problem over W (step 1). -/
def QpIn.equality (q : QpIn) (r : QpRun) : QpRun :=
  let hf := q.hinv q.f
  let lam := ldlSolve r.sl r.sd (r.w.map (fun c => fneg (qAdd (q.b c) (qDot (q.g c) hf))))
  let z := (lam.zip r.hg).foldl (fun z p => qAxpy z (fneg p.1) p.2) (hf.map fneg)
  { r with
    z := z, lam := lam }

/-- Index of the least value of a list; ties to the lower key. -/
def leastBy (l : List (Word × Nat × Nat)) : Option (Word × Nat × Nat) :=
  l.foldl (fun (acc : Option (Word × Nat × Nat)) x => match acc with
    | none => some x
    | some y => if flt x.1 y.1 || (feq x.1 y.1 && decide (x.2.1 < y.2.1)) then some x else some y) none

/-- Members with their position: (value, constraint index, position). -/
def QpRun.keyed (r : QpRun) (vals : List Word) : List (Word × Nat × Nat) :=
  (vals.zip r.w).zipIdx.map (fun p => (p.1.1, p.1.2.1, p.2))

/-- Drops the most negative λ until every λ ≥ 0 (step 1). -/
def QpIn.warmDrop (q : QpIn) : Nat → QpRun → QpRun
  | 0, r => r
  | k + 1, r =>
    let r := q.equality r
    match leastBy (r.keyed r.lam) with
    | some x => if flt x.1 0#32 then q.warmDrop k (q.leave r x.2.2) else r
    | none => r

/-- The start (step 1). -/
def QpIn.start (q : QpIn) (warm : List (Nat × Bool)) : QpRun :=
  let r : QpRun := { z := (q.hinv q.f).map fneg }
  let ws := (List.range q.p.nc).filterMap (fun i => warm.find? (fun c => c.1 == i))
  if ws.isEmpty then r
  else q.warmDrop (ws.length + 1) (q.refactor r ws (ws.map (fun _ => 0#32)))

/-- The most violated constraint, scaled (step 2); ties to the lower index. -/
def QpIn.select (q : QpIn) (r : QpRun) : Option (Nat × Bool) :=
  let cs := (List.range q.p.nc).flatMap (fun i => [(i, false), (i, true)])
  let go := cs.foldl (fun (acc : Option ((Nat × Bool) × Word)) c =>
    if (lget [] q.p.a c.1).isEmpty || !isFin (q.b c) || r.w.any (fun m => m.1 == c.1) then acc
    else
      let v := q.viol c r.z
      if !flt (q.tolOf (q.b c)) v then acc
      else
        let sc := qDiv v (fsqrt (q.n c))
        match acc with
        | some a => if flt a.2 sc then some (c, sc) else acc
        | none => some (c, sc)) none
  go.map (·.1)

/-- Steps for one entering constraint (step 3): 0 it has entered, else the outcome. -/
def QpIn.step (q : QpIn) (c : Nat × Bool) : Nat → QpRun → Word → Nat × QpRun
  | 0, r, _ => (4, r)
  | k + 1, r, lp =>
    if q.iterMax ≤ r.iters then (4, r)
    else
      let hg := q.hinv (q.g c)
      let np := qDot (q.g c) hg
      let dir := ldlSolve r.sl r.sd (r.w.map (fun m => qDot (q.g m) hg))
      let s := (dir.zip r.hg).foldl (fun s p => qAxpy s (fneg p.1) p.2) hg
      let gs := qDot (q.g c) s
      let inf1 := fle gs (qMul q.eps np)
      let t1 := qDiv (q.viol c r.z) gs
      let cand := (r.keyed ((r.lam.zip dir).map (fun p => qDiv p.1 p.2))).filter (fun x => flt 0#32 (lget 0#32 dir x.2.2))
      let move (t : Word) : QpRun × Word :=
        ({ r with
           z := if inf1 then r.z else qAxpy r.z (fneg t) s
           lam := (r.lam.zip dir).map (fun p => qSub p.1 (qMul t p.2))
           iters := r.iters + 1 }, qAdd lp t)
      match leastBy cand with
      | none => if inf1 then (3, r) else let (r', l') := move t1; (0, q.enter r' c l')
      | some x =>
        if inf1 || flt x.1 t1 then
          let (r', l') := move x.1
          q.step c k (q.leave r' x.2.2) l'
        else let (r', l') := move t1; (0, q.enter r' c l')

/-- Selection and steps until nothing is violated (steps 2 and 3). -/
def QpIn.loop (q : QpIn) : Nat → QpRun → QpEnd
  | 0, r => (4, r)
  | k + 1, r =>
    match q.select r with
    | none => (0, r)
    | some c =>
      match q.step c (q.iterMax + 1) r 0#32 with
      | (0, r') => if q.iterMax ≤ r'.iters then (4, r') else q.loop k r'
      | e => e

/-- An exact sum of products, in units of 2⁻²⁹⁸. -/
def exactDot (l : List (Word × Word)) : Int := (l.map (fun p => fixOf p.1 * fixOf p.2)).foldl (· + ·) 0
where
  /-- A finite value in units of 2⁻¹⁴⁹. -/
  fixOf (w : Word) : Int :=
    let v : Int := if fld w 30 23 = 0 ∨ fld w 30 23 = 255 then 0 else ((2 ^ 23 + fld w 22 0) * 2 ^ (fld w 30 23 - 1) : Nat)
    if wbit w 31 then -v else v

/-- Residuals of the KKT system over W, each formed exactly and rounded once (step 5): −(Hz + f + Gᵀλ), and b − Gz. -/
def QpIn.residuals (q : QpIn) (r : QpRun) : List Word × List Word :=
  let one : Word := 0x3F800000#32
  let rnd (z : Int) : Word := froundInt .classT z (-298)
  let gs := r.w.map q.g
  let r1 := (List.range q.p.nv).map (fun i =>
    rnd (-(exactDot ((List.range q.p.nv).map (fun j => (symGet q.p.h i j, lget 0#32 r.z j)) ++
      [(lget 0#32 q.f i, one)] ++ (gs.zip r.lam).map (fun p => (lget 0#32 p.1 i, p.2))))))
  let r2 := (r.w.zip gs).map (fun p => rnd (exactDot [(q.b p.1, one)] - exactDot (p.2.zip r.z)))
  (r1, r2)

/-- Refinement (step 5); the Bool says it stopped for want of steps. -/
def QpIn.refine (q : QpIn) : Nat → QpRun → QpRun × Bool
  | k, r =>
    let (r1, r2) := q.residuals r
    let big := (r1 ++ r2).foldl (fun m x => fmax m (fabs x)) 0#32
    let lim := qMul q.tol (qAdd 0x3F800000#32 (q.f.foldl (fun m x => fmax m (fabs x)) 0#32))
    if fle big lim then (r, false)
    else match k with
      | 0 => (r, true)
      | k + 1 =>
        let h1 := q.hinv r1
        let dl := ldlSolve r.sl r.sd ((r.w.zip r2).map (fun p => qSub (qDot (q.g p.1) h1) p.2))
        let dz := (dl.zip r.hg).foldl (fun z p => qAxpy z (fneg p.1) p.2) h1
        q.refine k { r with
          z := (r.z.zip dz).map (fun p => qAdd p.1 p.2)
          lam := (r.lam.zip dl).map (fun p => qAdd p.1 p.2) }

/-- Every element of z, λ and the factor is finite. -/
def QpRun.finite (r : QpRun) : Bool := (r.z ++ r.lam ++ r.sd ++ r.sl.flatten).all isFin

/-- Whether the solution is accepted (step 6). -/
def QpIn.accepts (q : QpIn) (r : QpRun) : Bool :=
  r.finite &&
    (List.range q.p.nc).all (fun i => [(i, false), (i, true)].all (fun c =>
      !isFin (q.b c) || fle (q.viol c r.z) (qMul 0x40800000#32 (q.tolOf (q.b c)))))

/-- A row with no entries whose bounds exclude 0 (step 2). -/
def QpIn.emptyRowBad (q : QpIn) : Bool :=
  (List.range q.p.nc).any (fun i => (lget [] q.p.a i).isEmpty &&
    !(fle (lget 0#32 q.l i) 0#32 && fle 0#32 (lget 0#32 q.u i)))

/-- A value of the problem is not a number, or its f is not finite. -/
def QpIn.notNum (q : QpIn) : Bool := !q.f.all isFin || (q.l ++ q.u).any isNan

/-- The objective ½zᵀHz + fᵀz. -/
def QpIn.objective (q : QpIn) (z : List Word) : Word :=
  let hz := (List.range q.p.nv).map (fun i => qDot ((List.range q.p.nv).map (fun j => symGet q.p.h i j)) z)
  qAdd (qMul 0x3F000000#32 (qDot z hz)) (qDot q.f z)

/-- A solve (R383): its outcome, the run, and whether refinement was short. -/
def QpIn.solve (q : QpIn) (warm : List (Nat × Bool)) : Nat × QpRun × Bool :=
  let r0 : QpRun := { z := [] }
  if q.notNum then (2, r0, false)
  else if q.emptyRowBad then (3, r0, false)
  else
    match q.loop (q.iterMax + 1) (q.start warm) with
    | (0, r) =>
      let (r, short) := q.refine q.refineMax r
      (if q.accepts r then 0 else 2, r, short)
    | (o, r) => (if r.finite then o else 2, r, false)

end Sys2Proof.Machine
end

