-- ==== Sys2Proof/Machine/Servo.lean ====
section
/-!
DEFINITION. The servo axes in motion: feedback (R369, R370), base ticks (R358, R361, R362, R371, R372), set-points (R363 to
R365), control-law programs (R366, R367), following error and plausibility (R373, R376), and the SERVO registers.
-/
namespace Sys2Proof.Machine

/-! ### Feedback -/

/-- A counted move of an axis's feedback. -/
def State.axMove (s : State) (a : Nat) (d : Int) : State :=
  s.updAx a (fun x => { x with pos := x.pos + (if s.rbit (aAx a) 17 then -d else d) })

/-- AXIS_ENCODER_EDGE (R369): the levels of AXEnn as its glitch filter passes them (R38, log entry 80); every edge is counted,
both at once is an ILLEGAL sample. -/
def execAxisEncoderEdge (t ax : Nat) (a b : Bool) (s : State) : Out :=
  let s := s.to t
  let x := s.axAt ax
  let flt := s.rfld (aAx ax + 4) 31 24
  let a := filterPass flt s.now x.aAt x.a a
  let b := filterPass flt s.now x.bAt x.b b
  let s := s.updAx ax (fun x => { x with
    a := a, b := b, last := some s.now, aAt := if x.a != a then some s.now else x.aAt,
    bAt := if x.b != b then some s.now else x.bAt })
  .next <|
    if s.axFb ax ≠ 1 then s
    else if x.a != a && x.b != b then (s.fbFault ax).carCheck
    else match countedEdge 1 x.a x.b a b with
      | some d => s.axMove ax d
      | none => s

/-- AXIS_LOS (R369): with LOS_EN set, a FEEDBACK fault. -/
def execAxisLos (t ax : Nat) (s : State) : Out :=
  let s := (s.to t).updAx ax (fun x => { x with los := true })
  .next (if s.axFb ax = 1 ∧ s.rbit (aAx ax + 4) 23 then (s.fbFault ax).carCheck else s)

/-- The binary number of a Gray code of n bits. -/
def grayNum : Nat → Nat → Nat
  | 0, _ => 0
  | n + 1, g => let hi := grayNum n (g / 2); 2 * hi + (g + hi) % 2

/-- A good SSI frame: the position advances by the reading's difference (R370). -/
def State.ssiGood (s : State) (a reading : Nat) : State :=
  let bits := s.rfld (aAx a + 4) 20 16 + 1
  let raw := reading % 2 ^ bits
  let v := if s.rbit (aAx a + 4) 22 then grayNum bits raw else raw
  let s := match (s.axAt a).ssi with
    | some p => s.axMove a (signedOf bits ((v + 2 ^ bits - p) % 2 ^ bits))
    | none => s
  s.updAx a (fun x => { x with ssi := some v, fbFaults := 0 })

/-- A bad SSI frame: the last position is kept, and the fault is counted (R370). -/
def State.ssiBad (s : State) (a : Nat) : State :=
  (s.updAx a (fun x => { x with fbFaults := x.fbFaults + 1 })).raise evServo 5

/-- FB_TOL faults in a row are a FEEDBACK fault of the axis (R370). -/
def State.ssiFails (s : State) (a : Nat) : Bool := decide (max 1 (s.rfld (aAx a + 4) 7 0) ≤ (s.axAt a).fbFaults)

/-! ### Inputs of a base tick -/

/-- The filter of a GPIO input (R371), FILTER in µs. -/
def State.gpioFilter (s : State) (raw : BitVec 32) : State :=
  let s := s.updLine (fun l => { l with gpioPin := raw })
  s.each (List.range 32) (fun s i =>
    let v := raw.getLsbD i
    let rest := s.line.gpioSeen.filter (fun p => p.1 != i)
    if s.line.gpioIn.getLsbD i == v then s.updLine (fun l => { l with gpioSeen := rest })
    else
      let since := match s.line.gpioSeen.find? (fun p => p.1 == i) with
        | some p => p.2
        | none => s.now
      if since + 500 * s.rfld 0x80040 7 0 ≤ s.now then
        s.updLine (fun l => { l with gpioIn := setBit l.gpioIn i v, gpioSeen := rest })
      else s.updLine (fun l => { l with gpioSeen := (i, since) :: rest }))

/-- The ADC channels' samples (R372): SCALE × (code − ZERO); a frame that fails keeps the last good value (R365). -/
def State.adcSample (s : State) (codes : List Nat) : State :=
  s.each (List.range 8) (fun s n =>
    if !s.spiOn n || s.spiDac n || s.spiBad (n / 4) then s
    else match codes[n]? with
      | some k =>
        let v := tMul (s.regGet (aSpi n + 8)) (tInt (((k % 2 ^ (s.rfld (aSpi n) 20 16 + 1) : Nat) : Int) - s.rint (aSpi n + 0xC)))
        s.updLine (fun l => { l with adc := lmod l.adc n (fun _ => v) })
      | none => s.raise evServo 0)

/-- in(k) of an axis's source (R363). -/
def State.axInput (s : State) (a : Nat) : Int :=
  match s.srcKind a with
  | 0 => s.rint (aAx a + 0x28)
  | 1 => s.sp
  | 2 => (s.encAt (s.srcIndex a)).cnt
  | 3 => Int.tdiv (fix149 (lget 0#32 s.line.adc (s.srcIndex a)) * 65536) (2 ^ 149)
  | _ => 0

/-- A FAULTED encoder of an ENCODER source raises SRC_FAULT (R365). -/
def State.srcWatch (s : State) (a : Nat) : State :=
  let bad := s.srcKind a == 2 && (s.encAt (s.srcIndex a)).faulted
  let was := (s.axAt a).srcFault
  let s := s.updAx a (fun x => { x with srcFault := bad })
  if bad && !was then s.raise evServo 3 else s

/-- A value target leaves fallback at the application of its first passed value (R437, R456). -/
def State.leaveFallback (s : State) (t : Nat) : State :=
  s.updTarget t (fun x => if x.inFallback && x.releasing then { x with inFallback := false, releasing := false } else x)

/-- The DAC channel of an axis takes the axis's value where Plumb has passed it for that channel too. -/
def State.dacOfAxis (s : State) (a : Nat) : State :=
  match s.axDac a with
  | none => s
  | some n =>
    match lget none s.line.dacCmd n with
    | some c =>
      let s := s.updLine (fun l => { l with dacCmd := lmod l.dacCmd n (fun _ => none) })
      if !c.passed then s
      else
        let s := s.leaveFallback (16 + n)
        if (s.targetAt (16 + n)).inFallback then s else s.dacApply n c.val
    | none => s

/-- The command that waits is applied at its instant if Plumb has passed it; else it is counted (R362, R442). -/
def State.axApply (s : State) (a : Nat) : State :=
  let s := s.updAx a (fun x => { x with uPrev := s.axOut a })
  match (s.axAt a).cmd with
  | none => s
  | some c =>
    let s := s.updAx a (fun x => { x with cmd := none })
    if !c.passed then (s.bumpHi (aAx a + 0x3C)).raise evServo 1
    else
      let s := s.leaveFallback a
      let s := (s.updAx a (fun x => { x with out := c.val, clamped := c.clamped })).regSet (aAx a + 0x38) c.val
      let s := s.updTarget a (fun x => if x.inFallback then x else { x with applied := some c.val })
      s.dacOfAxis a

/-! ### Set-points (R363, R364) -/

/-- ref(k) of a geared axis: OFFSET + round(NUM × (in − in₀) ÷ DEN). -/
def State.gearRef (s : State) (a : Nat) : Int :=
  let x := s.axAt a
  let den : Int := (max 1 (s.regGet (aAx a + 0x14)).toNat : Nat)
  x.offset + divEven (s.rint (aAx a + 0x10) * (x.inK - x.in0)) den

/-- The sample instant an axis latched last. -/
def State.axInstant (s : State) (a : Nat) : Nat :=
  let n := s.perBase a
  let b := s.baseNow
  let ph := s.rfld (aAx a) 28 23
  s.line.origin + 31250 * (b - (b + n - ph % n) % n)

/-- ref(k) of a TRAJECTORY source: the trajectory in force, else ref(k − 1) (R395, R415). -/
def State.trajRef (s : State) (a : Nat) : Int :=
  match s.grpOf a with
  | none => (s.axAt a).ref
  | some c =>
    match (s.carAt c).traj, (s.carRoles c).find? (fun p => p.1 == a) with
    | some j, some (_, r) =>
      if (j.prims.head?.map (·.1)).any (fun t0 => decide (s.axInstant a < t0)) then (s.axAt a).ref
      else s.countsOf c r (j.at_ (s.axInstant a) r).1
    | _, _ => (s.axAt a).ref

/-- ref(k) of an MPC source: the linear ramp over the controller's period, rounded to counts; ref(k − 1) before the first
output (R363). -/
def State.mpcRef (s : State) (a : Nat) : Int :=
  let x := s.axAt a
  if x.mpcLen = 0 then x.ref
  else
    let k : Int := (min (s.baseNow - x.mpcAt) x.mpcLen : Nat)
    let n : Int := (x.mpcLen : Nat)
    divEven (fix149 x.mpcFrom * (n - k) + fix149 x.mpcTo * k) (n * 2 ^ 149)

/-- Re-anchors an axis whose ENABLE, SRC, ratio or RESYNC asks for it (R364). -/
def State.reanchor (s : State) (a : Nat) : State :=
  s.updAx a (fun x => match x.anchor with
    | .none => x
    | .enable => { x with in0 := x.inK, offset := x.posK, ref := x.posK, anchor := .none }
    | .gear => { x with in0 := x.inK, offset := x.ref, anchor := .none }
    | .resync => { x with in0 := x.inK, offset := s.rint (aAx a + 0x28), first := true, anchor := .none })

/-- ref(k). -/
def State.refNow (s : State) (a : Nat) : Int :=
  if s.srcErr a then (s.axAt a).ref
  else match s.srcKind a with
    | 4 => s.trajRef a
    | 5 => s.mpcRef a
    | _ => s.gearRef a

/-- A difference of counts over a period, per second, rounded once. -/
def State.perSec (s : State) (a : Nat) (d : Int) : Word := fratio (d * 16000) (s.perBase a : Nat)

/-! ### Control law -/

/-- f0 to f15 before a run (R366), from ref(k), ref(k − 1), V_REF(k − 1) and whether the sample is the first after ENABLE. -/
def State.lawInputs (s : State) (a : Nat) (ref refP : Int) (vrefP : Word) (v : Word) : List Word :=
  let x := s.axAt a
  let vref := s.perSec a (ref - refP)
  let ain := s.rfld (aAx a + 8) 18 16
  [tInt (signedOf 64 (codeOf 64 (ref - x.posK))), vref,
    fratio ((fix149 vref - fix149 vrefP) * 16000) ((s.perBase a : Nat) * 2 ^ 149), v,
    if s.spiOn ain && !s.spiDac ain then lget 0#32 s.line.adc ain else 0#32, x.uPrev, fratio (s.perBase a : Nat) 16000,
    if x.clamped then fOne else 0#32] ++ List.replicate 8 0#32

/-- Forms the set-point and the registers f0 to f15 of a sample. -/
def State.lawPrep (s : State) (a : Nat) : State :=
  let s := s.reanchor a
  let x := s.axAt a
  let ref := s.refNow a
  let (refP, vrefP) := if x.first then (ref, 0#32) else (x.ref, x.vref)
  let ins := s.lawInputs a ref refP vrefP x.vmeas
  s.updAx a (fun x => { x with ref := ref, vref := lget 0#32 ins 1, first := false, f := ins ++ x.f.drop 16 })

/-- V_MEAS of a sample (R366): 0 at the first after ENABLE. -/
def State.measure (s : State) (a : Nat) : State :=
  let x := s.axAt a
  let v := if x.first then 0#32 else s.perSec a (x.posK - x.posP)
  s.updAx a (fun x => { x with vmeasP := x.vmeas, vmeas := v, first := x.first && x.st == .enabled })

/-- Executes one control-law instruction (R367): opcode, d, a, b, c. -/
def State.lawExec (s : State) (ax : Nat) (i : LawInstr) : State :=
  s.updAx ax (fun x =>
    let f (n : Nat) : Word := lget 0#32 x.f n
    let put (w : Word) : Axis := { x with f := lmod x.f i.d (fun _ => w) }
    match i.op with
    | 1 => put (tAdd (f i.a) (f i.b))
    | 2 => put (tSub (f i.a) (f i.b))
    | 3 => put (tMul (f i.a) (f i.b))
    | 4 => put (tFma (f i.a) (f i.b) (f i.c))
    | 5 => put (fmin (f i.a) (f i.b))
    | 6 => put (fmax (f i.a) (f i.b))
    | 7 => put (fabs (f i.a))
    | 8 => put (fclamp (f i.a) (f i.b) (f i.c))
    | 9 => put (if fle 0#32 (f i.a) then f i.b else f i.c)
    | 10 => put (lget 0#32 x.consts i.c)
    | 11 => put (spRecip (f i.a))
    | 12 => put (spRsqrt (f i.a))
    | 13 => put (spTanh (f i.a))
    | _ => x)

/-- The program's instructions up to its END. -/
def lawText (p : List LawInstr) : List LawInstr := p.takeWhile (fun i => i.op != 0)

/-- Plumb passes a command, with the value it passes (R441); the first one of a trajectory closes its stage-8 watch (R444). -/
def State.axPass (s : State) (a : Nat) (v : Word) : State :=
  let s := s.updAx a (fun x => { x with cmd := x.cmd.map (fun c => { c with val := v, passed := true }) })
  match (List.range 8).find? (fun c => (s.carAt c).kick && (s.grpAxes c).contains a) with
  | some c =>
    match (s.carAt c).traj with
    | some j =>
      if j.start ≤ s.axInstant a then (s.updCar c (fun k => { k with kick := false })).watchKick 8 c else s
    | none => s
  | none => s

/-- Plumb passes a value for a DAC channel. -/
def State.dacPass (s : State) (n : Nat) (v : Word) : State :=
  s.updLine (fun l => { l with dacCmd := lmod l.dacCmd n (fun o => o.map (fun c => { c with val := v, passed := true })) })

/-- After the program: f8 is clamped and offered to Plumb (R362, R367). -/
def State.lawOffer (s : State) (a : Nat) : State :=
  let f8 := lget 0#32 (s.axAt a).f 8
  let f8 := if isNan f8 then 0#32 else f8
  let v := s.outClamp a f8
  let clamped := flt f8 (s.regGet (aAx a + 0x20)) || flt (s.regGet (aAx a + 0x24)) f8
  let s := if clamped then (s.bumpLo (aAx a + 0x3C)).raise evServo 2 else s
  let v := s.modeClamp a v
  let c : AxCmd := { val := v, passed := false, clamped := clamped }
  let s := (s.updAx a (fun x => { x with cmd := some c, samp := false })).updTarget a (fun x => { x with offered := some v })
  let s := match s.axDac a with
    | some n => (s.updLine (fun l => { l with dacCmd := lmod l.dacCmd n (fun _ => some c) })).updTarget (16 + n) (fun x =>
        { x with offered := some v })
    | none => s
  if s.plumb.st != .split then s
  else match s.axDac a with
    | some n => (s.axPass a v).dacPass n v
    | none => s.axPass a v

/-! ### Checks of a sample -/

/-- The following-error check (R373); a FEEDBACK fault of the same sample is taken with it (R374). -/
def State.feCheck (s : State) (a : Nat) (fb : Bool) : State :=
  let x := s.axAt a
  let lim := (s.regGet (aAx a + 0x18)).toNat
  let beyond := lim ≠ 0 && decide (lim < (x.ref - x.posK).natAbs)
  let n := if beyond then x.feCnt + 1 else 0
  let s := s.updAx a (fun x => { x with feCnt := n })
  let fe := beyond && decide (max 1 (s.rfld (aAx a + 0x1C) 7 0) ≤ n)
  s.axFault a ((if fb then [1] else []) ++ (if fe then [2] else []))

/-- A sample's measured values are in, or its feedback has failed: V_MEAS, and for an ENABLED axis its set-point, f0 to f15
and following error. -/
def State.axForm (s : State) (a : Nat) (fb : Bool) : State :=
  let s := s.measure a
  if (s.axAt a).st == .enabled then (s.lawPrep a).feCheck a fb else s

/-- r of an axis at a sample of its group (R376). -/
def State.modelRes (s : State) (a : Nat) : Word :=
  let x := s.axAt a
  let v := tAdd (tMul (s.regGet (aMdl a)) x.vmeasP) (tMul (s.regGet (aMdl a + 4)) x.uPrev)
  let dx := tDiv (tMul (fratio (s.perBase a : Nat) 16000) (tAdd x.vmeasP v)) (tInt 2)
  tDiv (tSub (tInt (x.posK - x.posP)) dx) (s.regGet (aMdl a + 8))

/-- The group check (R376). -/
def State.groupCheck (s : State) (g : Nat) : State :=
  let ms := s.grpAxes g
  if !s.axGrpOn g || s.axGrpCfgErr g || ms.isEmpty || ms.any (fun a => (s.axAt a).frame) then s
  else
    let sum := ms.foldl (fun acc a => let r := s.modelRes a; tAdd acc (tMul r r)) 0#32
    let j := tAdd (tMul (s.regGet (aGrpCfg g + 8)) (s.axGrpAt g).j) sum
    let n := if flt (s.regGet (aGrpCfg g + 4)) j then (s.axGrpAt g).beyond + 1 else 0
    let bad := n ≠ 0 && decide (max 1 (s.rfld (aGrpCfg g) 23 16) ≤ n)
    let was := (s.axGrpAt g).implausible
    let s := (s.updAxGrp g (fun x => { j := j, beyond := n, implausible := x.implausible || bad })).regSet (aGrpCfg g + 0xC) j
    if bad && !was then (s.raise evServo 4).each ms (fun s a => s.axFault a [3]) else s

/-! ### Base ticks -/

/-- A sample instant of an axis (R362): an AUTO_RESUME takes effect, the command due is applied, the inputs are latched. -/
def State.axSample (s : State) (a : Nat) : State :=
  let s := if (s.axAt a).resume then
      let s := s.updAx a (fun x => { x with resume := false })
      if (s.axAt a).st == .disabled && !s.axCfgErr a then
        (s.axEnable a).updAx a (fun x => { x with resyncNeeded := true })
      else s
    else s
  let s := ((s.axApply a).stepPeriod a).srcWatch a
  s.updAx a (fun x => { x with
    posP := x.posK, posK := x.pos, inK := s.axInput a, samp := x.st == .enabled, lawPc := 0, frame := s.axFb a == 2 })

/-- The axis samples at base tick b (R361). -/
def State.axDue (s : State) (a b : Nat) : Bool :=
  (s.axAt a).st != .off && b % s.perBase a == s.rfld (aAx a) 28 23

/-- Everything of a base tick (R358, R371, R372, R398). -/
def State.baseTick (s : State) (gpio : BitVec 32) (adc : List Nat) : State :=
  let b := (s.now - s.line.origin) / 31250
  let due := (List.range 16).filter (fun a => s.axDue a b)
  let s := s.updLine (fun l => { l with base := b + 1 })
  let s := ((s.gpioFilter gpio).adcSample adc).each (List.range 16) State.rampTick
  let s := s.each due State.axSample
  let s := s.each (due.filter (fun a => !(s.axAt a).frame)) (fun s a => s.axForm a false)
  let s := s.each ((List.range 8).filter (fun g => (s.grpAxes g).any (fun a => due.contains a))) State.groupCheck
  (s.motionTick).gpioStep

/-- SSI_FRAME_DONE (R370): the frame started at the sample instant is complete. -/
def execSsiFrameDone (t ax : Nat) (ok : Bool) (reading : Nat) (s : State) : Out :=
  let s := s.to t
  guardNext (s.axFb ax == 2 && (s.axAt ax).frame) s (fun s =>
    let s := s.updAx ax (fun x => { x with frame := false })
    let s := if ok then s.ssiGood ax reading else s.ssiBad ax
    let s := (s.updAx ax (fun x => { x with posK := x.pos })).axForm ax (!ok && s.ssiFails ax)
    let s := match s.grpOf ax with
      | some g => s.groupCheck g
      | none => s
    s.carCheck)

/-! ### Programs -/

/-- The program of an axis may run: it is ENABLED, and its sample is in. -/
def State.lawReady (s : State) (a : Nat) : Bool :=
  s.lineRuns && (s.axAt a).st == .enabled && (s.axAt a).samp && !(s.axAt a).frame

/-- CONTROL_LAW_RUN (R366): the loaded program runs on to its END, and its command is offered. -/
def execControlLawRun (t ax : Nat) (s : State) : Out :=
  let s := s.to t
  guardNext (s.lawReady ax) s (fun s =>
    (s.each (lawText ((s.axAt ax).prog.drop (s.axAt ax).lawPc)) (fun s i => s.lawExec ax i)).lawOffer ax)

/-- An instruction with the operands that its operation has (R367); the others 0. -/
def LawInstr.used (i : LawInstr) : LawInstr :=
  match i.op with
  | 0 => { op := 0, d := 0, a := 0, b := 0, c := 0 }
  | 4 => i
  | 8 => i
  | 9 => i
  | 7 => { i with b := 0, c := 0 }
  | 10 => { i with a := 0, b := 0 }
  | 11 => { i with b := 0, c := 0 }
  | 12 => { i with b := 0, c := 0 }
  | 13 => { i with b := 0, c := 0 }
  | _ => { i with c := 0 }

/-- One control-law instruction: that at which the run of an axis's program stands (R366). -/
def lawRow (t ax op d a b c : Nat) (s : State) : Out :=
  let s := s.to t
  let i : LawInstr := { op := op, d := d, a := a, b := b, c := c }
  guardNext (s.lawReady ax && ((s.axAt ax).prog[(s.axAt ax).lawPc]?).any (fun j => j.used == i)) s (fun s =>
    (s.lawExec ax i).updAx ax (fun x => { x with lawPc := x.lawPc + 1 }))

/-- END (R367), or the end of the program's text: the program ends, and f8 is clamped and offered. -/
def execServoEnd (t ax : Nat) (s : State) : Out :=
  let s := s.to t
  guardNext (s.lawReady ax && ((s.axAt ax).prog[(s.axAt ax).lawPc]?).all (fun j => j.op == 0)) s (fun s => s.lawOffer ax)

def execServoFadd (t ax d a b : Nat) (s : State) : Out := lawRow t ax 1 d a b 0 s
def execServoFsub (t ax d a b : Nat) (s : State) : Out := lawRow t ax 2 d a b 0 s
def execServoFmul (t ax d a b : Nat) (s : State) : Out := lawRow t ax 3 d a b 0 s
def execServoFfma (t ax d a b c : Nat) (s : State) : Out := lawRow t ax 4 d a b c s
def execServoFmin (t ax d a b : Nat) (s : State) : Out := lawRow t ax 5 d a b 0 s
def execServoFmax (t ax d a b : Nat) (s : State) : Out := lawRow t ax 6 d a b 0 s
def execServoFabs (t ax d a : Nat) (s : State) : Out := lawRow t ax 7 d a 0 0 s
def execFclamp (t ax d a b c : Nat) (s : State) : Out := lawRow t ax 8 d a b c s
def execFsel (t ax d a b c : Nat) (s : State) : Out := lawRow t ax 9 d a b c s
def execLdk (t ax d c : Nat) (s : State) : Out := lawRow t ax 10 d 0 0 c s
def execServoRecip (t ax d a : Nat) (s : State) : Out := lawRow t ax 11 d a 0 0 s
def execServoRsqrt (t ax d a : Nat) (s : State) : Out := lawRow t ax 12 d a 0 0 s
def execServoTanh (t ax d a : Nat) (s : State) : Out := lawRow t ax 13 d a 0 0 s

/-- Decodes a control-law instruction word (R367): none for a reserved opcode or non-zero bits [1:0]. -/
def lawDecode (w : Word) : Option LawInstr :=
  if fld w 1 0 ≠ 0 ∨ 13 < fld w 31 26 then none
  else some { op := fld w 31 26, d := fld w 25 20, a := fld w 19 14, b := fld w 13 8, c := fld w 7 2 }

/-! ### Registers -/

/-- A command of SERVO_CMD (R390). -/
def State.servoCmd (s : State) (v : Word) : State :=
  let a := fld v 3 0
  match fld v 31 24 with
  | 1 => s.cmdEnable a
  | 2 => s.cmdDisable a
  | 3 => s.cmdClearFault a
  | 4 => s.cmdHome a
  | 5 => s.cmdResetState a
  | 6 => s.cmdResync a
  | 7 => s.grpZero (fld v 2 0) true
  | 8 => s.each (List.range 16) (fun s a => s.regSet (aAx a + 0x3C) 0#32)
  | _ => s

/-- STATE of an axis (R389). -/
def AxState.code : AxState → Nat
  | .off => 0 | .disabled => 1 | .enabled => 2 | .fault => 3 | .notHomed => 4

/-- SERVO_AXa_STATUS. -/
def State.axStatus (s : State) (a : Nat) : Word :=
  let x := s.axAt a
  wordOf (min 255 x.feCnt * 2 ^ 24 + x.cause * 2 ^ 20 + 16 * b2n x.resyncNeeded + 8 * b2n (s.axCfgErr a) + x.st.code)

/-- The registers of the SERVO block that show the state (R388). -/
def servoView (s : State) (o : Nat) : Option Word :=
  let set (l : List Nat) (k : Nat) : Nat := (l.map (fun i => 2 ^ (k + i))).sum
  if o = 4 then
    some (wordOf (set ((List.range 16).filter (fun a => (s.axAt a).st == .enabled)) 16 +
      set ((List.range 8).filter (fun g => (s.axGrpAt g).implausible)) 8 + 2 * b2n s.servoCfgErr + b2n s.lineRuns))
  else if o = 0x38 then some s.line.gpioIn
  else
    match arrIdx o 0x100 0x40 16 with
    | some a =>
      if o = 0x12C + 0x40 * a then some (s.axStatus a)
      else if o = 0x130 + 0x40 * a then some (wordOf (codeOf 64 (s.axAt a).pos))
      else if o = 0x134 + 0x40 * a then some (wordOf (codeOf 64 (s.axAt a).pos / 2 ^ 32))
      else none
    | none => none

end Sys2Proof.Machine
end

