-- ==== Sys2Proof/Machine/Qp.lean ====
section
/-!
DEFINITION. The model-predictive controllers (R378 to R387, R391 to R393): cycles, θ, outputs, fallback, admission by density,
and the QP registers.
-/
namespace Sys2Proof.Machine

def aQp (c : Nat) : Nat := 0x90100 + 0x40 * c

def State.qpPeriod (s : State) (c : Nat) : Nat := s.rfld (aQp c) 31 18
def State.qpDeadline (s : State) (c : Nat) : Nat := s.rfld (aQp c) 17 4
def State.qpPhase (s : State) (c : Nat) : Nat := s.rfld (aQp c + 4) 13 0
def State.qpEn (s : State) : Bool := s.rbit 0x90000 0

/-- PERIOD, DEADLINE and PHASE lie in the ranges of R385. -/
def State.qpRanges (s : State) (c : Nat) : Bool :=
  let p := s.qpPeriod c
  decide (4 ≤ p) && decide (p ≤ 16000) && decide (1 ≤ s.qpDeadline c) && decide (s.qpDeadline c ≤ p) && decide (s.qpPhase c < p)

/-- A controller is enabled. -/
def State.qpOn (s : State) (c : Nat) : Bool := (s.qpAt c).st != .off

/-! ### Density (R387) -/

/-- Ticks of set-up, of an iteration and of a refinement step. -/
def qpCosts (p : QpProb) : Nat × Nat × Nat :=
  let w := min p.nv p.nc
  (200 + (nnz p.fMat + nnz p.lMat + nnz p.uMat + p.nv + p.nc + 63) / 64, 150 + (2 * p.nv * p.nv + 2 * p.nv * w + 63) / 64,
    150 + (nnz p.h + 2 * nnz p.a + w * w + 31) / 32)

/-- C of a controller. -/
def State.qpLoad (s : State) (c : Nat) (p : QpProb) : Nat :=
  let (setup, iter, ref) := qpCosts p
  setup + s.rfld (aQp c + 0x10) 19 10 * iter + s.rfld (aQp c + 0x10) 23 20 * ref

/-- Σ (C + B) ÷ (DEADLINE × 31,250) over a set of controllers, as a fraction. -/
def State.qpDensity (s : State) (cs : List Nat) : Nat × Nat :=
  let ps := cs.filterMap (fun c => (s.qpAt c).prob.map (fun p => (c, p)))
  let b := (ps.map (fun x => (qpCosts x.2).2.1)).foldl max 0
  ps.foldl (fun acc x =>
    let d := max 1 (s.qpDeadline x.1) * 31250
    (acc.1 * d + (s.qpLoad x.1 x.2 + b) * acc.2, acc.2 * d)) (0, 1)

/-! ### Outputs (R382) -/

/-- The value of an output for z, and whether it was clamped. -/
def outValue (o : OutEntry) (z : List Word) : Word × Bool :=
  let v := ffma .classT o.scale (lget 0#32 z o.z) o.offset
  (fmin (fmax v o.min) o.max, flt v o.min || flt o.max v)

/-- Values are staged for the next cycle start and offered to Plumb (R385). -/
def State.qpStage (s : State) (c : Nat) (vals : List Word) : State :=
  let s := s.updQp c (fun q => { q with outs := some vals })
  match (s.qpAt c).prob with
  | none => s
  | some p =>
    s.each (p.outs.zip vals) (fun s x =>
      if x.1.target ≠ 1 then s
      else
        let n := x.1.tindex
        let s := s.updLine (fun l => { l with
          dacCmd := lmod l.dacCmd n (fun _ => some { val := x.2, passed := s.plumb.st == .split }) })
        s.updTarget (16 + n) (fun y => { y with offered := some x.2 }))

/-- The values of z are staged; a clamp advances OUT_SAT. -/
def State.qpStageZ (s : State) (c : Nat) (p : QpProb) (z : List Word) : State :=
  let vs := p.outs.map (fun o => outValue o z)
  let s := s.each (p.outs.zip vs) (fun s x =>
    if !x.2.2 then s
    else (if x.1.target = 0 then s.bumpLo (aAx x.1.tindex + 0x3C) else s).raise evServo 2)
  (s.updQp c (fun q => { q with z := some (p.sig, z) })).qpStage c (vs.map (·.1))

/-- One output is applied; the Bool says it was. -/
def State.qpApply1 (s : State) (o : OutEntry) (v : Word) (len : Nat) : State × Bool :=
  match o.target with
  | 0 =>
    if s.srcKind o.tindex ≠ 5 then (s.raise evServo 8, false)
    else
      (s.updAx o.tindex (fun x => { x with
        mpcFrom := if x.mpcLen = 0 then tInt x.ref else x.mpcTo, mpcTo := v, mpcAt := s.baseNow, mpcLen := max 1 len }), true)
  | 1 =>
    match lget none s.line.dacCmd o.tindex with
    | some c =>
      let s := s.updLine (fun l => { l with dacCmd := lmod l.dacCmd o.tindex (fun _ => none) })
      if !c.passed then (s, false)
      else
        let s := s.leaveFallback (16 + o.tindex)
        if (s.targetAt (16 + o.tindex)).inFallback then (s, false) else (s.dacApply o.tindex c.val, true)
    | none => (s, false)
  | _ =>
    let up := fle 0x3F000000#32 v
    (s.updLine (fun l => { l with
      gpioQp := setBit l.gpioQp o.tindex up, gpioQpOn := setBit l.gpioQpOn o.tindex true }), true)

/-- The staged values are applied (R385). -/
def State.qpApply (s : State) (c : Nat) : State :=
  match (s.qpAt c).prob, (s.qpAt c).outs with
  | some p, some vals =>
    let old := (s.qpAt c).applied
    let (s, done) := (p.outs.zip vals).zipIdx.foldl (fun (acc : State × List Word) x =>
      let (s, ok) := acc.1.qpApply1 x.1.1 x.1.2 (s.qpPeriod c)
      (s, acc.2 ++ [if ok then x.1.2 else lget 0#32 old x.2])) (s, [])
    (s.updQp c (fun q => { q with outs := none, applied := done })).gpioStep
  | _, _ => s

/-- FALLBACK values of every output. -/
def State.qpFallback (s : State) (c : Nat) : State :=
  match (s.qpAt c).prob with
  | some p => s.qpStage c (p.outs.map (·.fallback))
  | none => s

/-! ### θ (R381) -/

/-- The raw value of a θ entry, and whether it makes the input stale. -/
def State.thetaRaw (s : State) (c : Nat) (e : ThetaEntry) : State × Word × Bool :=
  let q := s.qpAt c
  let i := e.index
  match e.kind with
  | 0 => (s, fOne, false)
  | 1 => if q.begun.isSome then (s, tInt (s.sp - q.startSp), false) else (s.drew, s.free, false)
  | 2 => (s, tInt s.course.speed, false)
  | 3 => (s, tInt (s.axAt i).pos, false)
  | 4 => (s, (s.axAt i).vmeas, false)
  | 5 =>
    let src := s.srcAt (i / 16)
    match src.val.bind (fun v => v.vals[i % 16]?) with
    | some w => (s, w, e.fresh && src.stale)
    | none => (s.drew, s.free, e.fresh)
  | 6 => (s, s.regGet (0x81000 + 4 * i), false)
  | 7 => (s, if s.line.gpioIn.getLsbD i then fOne else 0#32, false)
  | _ => (s, lget 0#32 q.applied i, false)

/-- θ of a cycle start. -/
def State.thetaSample (s : State) (c : Nat) (es : List ThetaEntry) : State × List Word × Bool :=
  es.foldl (fun (acc : State × List Word × Bool) e =>
    let (s, w, st) := acc.1.thetaRaw c e
    (s, acc.2.1 ++ [tMul e.scale w], acc.2.2 || st)) (s, [], false)

/-! ### Ends of a cycle (R385, R386) -/

/-- z shifted by one horizon step; the last block is repeated, the extra variables are kept. -/
def shiftZ (p : QpProb) (z : List Word) : List Word :=
  (List.range p.nv).map (fun i =>
    if i < p.nu * (p.n - 1) then lget 0#32 z (i + p.nu) else lget 0#32 z i)

/-- Event of an outcome other than OK. -/
def qpEventOf (o : Nat) : Nat :=
  match o with
  | 1 => 6 | 2 => 5 | 3 => 4 | 4 => 3 | _ => 2

/-- A cycle ends with an outcome other than OK: FALLBACKS advances, and the shifted solution, or FALLBACK values, are staged
(R385, R386). -/
def State.qpFails (s : State) (c o : Nat) (flags : Nat) : State :=
  let s := (if o = 1 then s.bumpHi (aQp c + 0x28) else s.bumpLo (aQp c + 0x28)).raise evQp (qpEventOf o)
  let n := (s.qpAt c).fallbacks + 1
  let s := s.updQp c (fun q => { q with st := .waiting, outcome := o, fallbacks := n, flags := flags })
  if s.rfld (aQp c + 0x10) 31 24 < n then
    ((s.updQp c (fun q => { q with st := .failed })).raise evQp 1).qpFallback c
  else match (s.qpAt c).prob, (s.qpAt c).z with
    | some p, some (sig, z) =>
      if sig = p.sig then
        (s.updQp c (fun q => { q with flags := flags + 2 })).qpStageZ c p (shiftZ p z)
      else (s.updQp c (fun q => { q with flags := flags + 1, z := none })).qpFallback c
    | _, _ => (s.updQp c (fun q => { q with flags := flags + 1 })).qpFallback c

/-- SOLVE_US of a solve that ends now. -/
def State.qpTime (s : State) (c : Nat) : State :=
  let us := min 0xFFFF ((s.now - (s.qpAt c).begun.getD s.now) / 500)
  (s.setFld (aQp c + 0x2C) 31 16 (max us (s.rfld (aQp c + 0x2C) 31 16))).setFld (aQp c + 0x2C) 15 0 us

/-- The problem of a cycle with f, l and u formed from θ (R378). -/
def State.qpIn (s : State) (c : Nat) (p : QpProb) : QpIn :=
  let th := (s.qpAt c).theta
  let form (base : List Word) (m : SparseRows) : List Word := (base.zip m).map (fun x => tAdd x.1 (qRow x.2 th))
  { p := p, f := form p.f0 p.fMat, l := form p.l0 p.lMat, u := form p.u0 p.uMat, eps := s.regGet 0x90014,
    tol := s.regGet (aQp c + 0x14), iterMax := 4 * s.rfld (aQp c + 0x10) 9 0, refineMax := s.rfld (aQp c + 0x10) 23 20 }

/-- A solve ends (R383): accepted, or with the outcome of its failure. -/
def State.qpSolve (s : State) (c : Nat) (p : QpProb) : State :=
  let q := s.qpAt c
  let rejected := q.warm.any (fun w => w.1 != p.sig)
  let warm := match q.warm with
    | some (sig, w) => if sig = p.sig then w else []
    | none => []
  let inp := s.qpIn c p
  let (o, r, short) := if q.theta.all isFin then inp.solve warm else (2, { z := [] }, false)
  let s := s.qpTime c
  let s := if rejected then (s.bumpLo (aQp c + 0x24)).raise evQp 7 else s
  let s := if r.reg then (s.bumpHi (aQp c + 0x24)).raise evQp 8 else s
  let flags := 4 * b2n short + 8 * b2n rejected + 16 * b2n r.reg
  let s := s.updQp c (fun q => { q with w := r.w })
  if o ≠ 0 then s.qpFails c o flags
  else
    let s := s.updQp c (fun q => { q with
      st := .waiting, outcome := 0, fallbacks := 0, flags := flags, warm := some (p.sig, r.w) })
    (s.regSet (aQp c + 0x20) (inp.objective r.z)).qpStageZ c p r.z

/-! ### Enable and disable (R387, R393) -/

/-- ENABLE: no effect without a problem; out of range, or too dense, it is refused. A controller that is FAILED stays so. -/
def State.qpEnable (s : State) (c : Nat) : State :=
  if s.qpOn c || (s.qpAt c).prob.isNone then s
  else
    let (n, d) := s.qpDensity (((List.range 8).filter s.qpOn) ++ [c])
    if !s.qpRanges c then (s.updLine (fun l => { l with qpCfgErr := true })).raise evQp 9
    else if d < n then s.raise evQp 9
    else s.updQp c (fun q => { q with
      st := .waiting, fallbacks := 0, flags := 0, warm := none, z := none, w := [], outs := none, begun := none })

/-- DISABLE: the outputs take FALLBACK; OUTCOME is NOT_RUN. -/
def State.qpDisable (s : State) (c : Nat) : State :=
  if !s.qpOn c then s
  else (s.updQp c (fun q => { q with st := .off, outcome := 6, warm := none, z := none, w := [] })).qpFallback c

/-- RESTART: FAILED to WAITING, cold. -/
def State.qpRestart (s : State) (c : Nat) : State :=
  if (s.qpAt c).st != .failed then s
  else s.updQp c (fun q => { q with st := .waiting, fallbacks := 0, warm := none, z := none, w := [] })

/-- CLEAR_COUNTERS of a controller. -/
def State.qpClear (s : State) (c : Nat) : State :=
  s.each [0x1C, 0x24, 0x28] (fun s o => s.regSet (aQp c + o) 0#32)

/-- A command of QP_CMD (R393). -/
def State.qpCmd (s : State) (v : Word) : State :=
  let c := fld v 2 0
  match fld v 31 24 with
  | 1 => s.qpEnable c
  | 2 => s.qpDisable c
  | 3 => s.qpRestart c
  | 4 => s.qpClear c
  | _ => s

/-- CFG_ERR clears once the fields of every controller lie in the ranges (R385). -/
def State.qpRecheck (s : State) : State :=
  if (List.range 8).all s.qpRanges then s.updLine (fun l => { l with qpCfgErr := false }) else s

/-! ### Cycles -/

/-- Tick of the present base tick. -/
def State.baseTickAt (s : State) : Nat := s.line.origin + 31250 * s.baseNow

/-- A controller's cycle starts at the present base tick (R385). -/
def State.qpDue (s : State) (c : Nat) : Bool :=
  s.lineRuns && s.qpEn && decide (1 ≤ s.line.base) && s.qpOn c && (s.qpAt c).begun != some s.baseTickAt &&
    (!s.qpRanges c || s.baseNow % s.qpPeriod c == s.qpPhase c)

/-- A cycle start: staged values apply, a staged problem takes effect, θ is sampled, and the solve begins (R380, R381, R385). -/
def State.qpCycle (s : State) (c : Nat) : State :=
  if !s.qpRanges c then
    ((s.qpDisable c).updLine (fun l => { l with qpCfgErr := true })).raise evQp 9
  else
    let s := if (s.qpAt c).st == .solving then (s.qpTime c).qpFails c 1 0 else s
    let s := s.qpApply c
    let s := s.bump (aQp c + 0x1C)
    if (s.qpAt c).st == .failed then (s.updQp c (fun q => { q with begun := some s.baseTickAt, startSp := s.sp })).qpFallback c
    else
      let s := match (s.qpAt c).staged with
        | some p => (s.updQp c (fun q => { q with prob := some p, staged := none })).raise evQp 0
        | none => s
      match (s.qpAt c).prob with
      | none => s
      | some p =>
        let (s, th, stale) := s.thetaSample c p.theta
        let s := s.updQp c (fun q => { q with theta := th, begun := some s.baseTickAt, startSp := s.sp, st := .solving })
        if stale then s.qpFails c 5 0 else s

/-- QP_CYCLE_START (R385). -/
def execQpCycleStart (t c : Nat) (s : State) : Out :=
  let s := s.to t
  guardNext (s.qpDue c) s (fun s => s.qpCycle c)

/-- A solve of a controller runs, before or past its deadline. -/
def State.qpSolving (s : State) (c : Nat) (late : Bool) : Bool :=
  s.lineRuns && (s.qpAt c).st == .solving && match (s.qpAt c).begun with
    | some b => decide (b + 31250 * s.qpDeadline c ≤ s.now) == late
    | none => false

/-- QP_SOLVE_DONE (R383). -/
def execQpSolveDone (t c : Nat) (s : State) : Out :=
  let s := s.to t
  match (s.qpAt c).prob with
  | some p => guardNext (s.qpSolving c false) s (fun s => s.qpSolve c p)
  | none => .next s

/-- QP_DEADLINE (R385): the solve is abandoned. -/
def execQpDeadline (t c : Nat) (s : State) : Out :=
  let s := s.to t
  guardNext (s.qpSolving c true) s (fun s => (s.qpTime c).qpFails c 1 0)

/-- A disabled controller's FALLBACK values are applied at a base tick, once Plumb has judged those it judges (R393). -/
def State.qpDrain (s : State) : State :=
  s.each (List.range 8) (fun s c =>
    let q := s.qpAt c
    let open_ := match q.prob with
      | some p => p.outs.any (fun o => o.target == 1 && (s.targetAt (16 + o.tindex)).offered.isSome)
      | none => false
    if q.st == .off && q.outs.isSome && !open_ then s.qpApply c else s)

/-- A problem takes its place (R379, R380): staged while its controller runs. -/
def State.qpPlace (s : State) (c : Nat) (p : QpProb) : State :=
  s.updQp c (fun q => if q.st != .off then { q with staged := some p } else { q with prob := some p, staged := none })

/-- The next base tick is due (R358). -/
def State.baseDue (s : State) : Bool := s.lineRuns && decide (s.line.origin + 31250 * s.line.base ≤ s.now)

/-! ### Registers -/

/-- STATE of a controller (R392). -/
def QpState.code : QpState → Nat
  | .off => 0 | .waiting => 1 | .solving => 2 | .failed => 3

/-- The registers of the QP block that show the state (R391). -/
def qpView (s : State) (o : Nat) : Option Word :=
  let set (f : Nat → Bool) (k : Nat) : Nat := (((List.range 8).filter f).map (fun i => 2 ^ (k + i))).sum
  if o = 4 then
    some (wordOf (set s.qpOn 24 + set (fun c => (s.qpAt c).st == .failed) 16 + b2n s.line.qpCfgErr))
  else if o = 0x18 then
    let (n, d) := s.qpDensity ((List.range 8).filter s.qpOn)
    some (wordOf (min 0xFFFF (256 * n / d)))
  else
    match arrIdx o 0x100 0x40 8 with
    | none => none
    | some c =>
      let q := s.qpAt c
      match o - 0x40 * c, q.prob with
      | 0x108, some p => some (wordOf ((p.nv - 1) * 2 ^ 24 + p.nc * 2 ^ 14 + p.theta.length * 2 ^ 5 + p.outs.length))
      | 0x10C, some p => some p.sig
      | 0x130, some p => some (wordOf (p.n % 256 * 256 + p.nu % 256))
      | 0x118, _ => some (wordOf (min 255 q.w.length * 2 ^ 24 + min 255 q.fallbacks * 2 ^ 16 + q.flags * 2 ^ 8 + q.outcome * 16 +
          q.st.code))
      | _, _ => none

end Sys2Proof.Machine
end

