-- ==== Sys2Proof/Machine/Rules.lean ====
section
/-!
DEFINITION. Plumb's rule programs (R438 to R443): images, inputs, instructions, verdicts, and the rounds that judge every
line target (R430 to R437).
-/
namespace Sys2Proof.Machine

/-! ### Rule images (R438) -/

/-- A selector that R440 lists. -/
def selOk (sel : Nat) : Bool :=
  let i := sel % 4096
  match sel / 4096 with
  | 0 => decide (i < 6) | 1 => decide (i < 3)
  | 2 => decide (i < 16) | 3 => decide (i < 16) | 4 => decide (i < 16) | 5 => decide (i < 16)
  | 6 => decide (i < 8) | 7 => decide (i < 8) | 8 => decide (i < 64)
  | 9 => decide (i < 24) || (decide (32 ≤ i) && decide (i < 56))
  | 10 => decide (i < 32) | 11 => decide (i < 16) | 12 => decide (i < 10) | 13 => decide (i < 256) | 14 => decide (i < 3)
  | _ => false

/-- Decodes a rule instruction (R439); none for what R438 refuses. -/
def ruleDecode (w : Nat) : Option RuleInstr :=
  let op := bitsOf w 63 56
  let imm := bitsOf w 31 0
  let tg := imm % 128
  let ok := decide (op ≤ 0x19) && bitsOf w 43 32 == 0 && match op with
    | 0x01 => selOk (imm % 65536)
    | 0x14 => imm % 256 != 0
    | 0x15 => decide (tg < 80)
    | 0x16 => decide (tg < 80)
    | 0x17 => decide (tg < 24)
    | _ => true
  if ok then some { op := op, gd := bitsOf w 55 52, ga := bitsOf w 51 48, gb := bitsOf w 47 44, imm := wordOf imm } else none

/-- Instructions of the enabled programs. -/
def RuleImage.enabled (r : RuleImage) : Nat := ((r.programs.filter (·.1)).map (fun p => p.2.length)).sum

/-- A rule image as checked at load; an error is the status (R438, R506). -/
def ruleParse (bytes digest : List Byte) : Except Nat RuleImage :=
  match Config.parseRules bytes with
  | none => .error 0x0106
  | some (ver, progs, consts) =>
    if 16 < progs.length ∨ progs.any (fun p => decide (256 < p.2.length)) ∨ 256 < consts.length then .error 0x0106
    else match progs.mapM (fun p => (p.2.mapM ruleDecode).map (fun l => (p.1, l))) with
      | none => .error 0x0106
      | some ps =>
        let r : RuleImage := { version := ver, programs := ps, consts := consts.map (BitVec.ofNat 64), digest := digest }
        if 700 < r.enabled then .error 0x020A else .ok r

/-- An image comes into service. -/
def State.ruleSwitch (s : State) (r : RuleImage) : State :=
  (s.updPlumb (fun p => { p with image := some r, stored := some r, staged := none })).regSet 0xB0030
    (wordOf (min 0xFFFF r.enabled * 65536 + r.version % 65536))

/-- Loads an image (R438): staged while a plan runs; in FAILED it replaces the stored one. -/
def State.rulePlace (s : State) (r : RuleImage) : State :=
  if s.plumb.st == .failed then s.updPlumb (fun p => { p with stored := some r })
  else if s.planRuns then s.updPlumb (fun p => { p with staged := some r })
  else s.ruleSwitch r

/-! ### Inputs (R440) -/

/-- An integer in a rule register. -/
def gInt (z : Int) : BitVec 64 := BitVec.ofInt 64 z
/-- A word in a rule register. -/
def gWord (w : Word) : BitVec 64 := BitVec.ofNat 64 w.toNat
def gBool (b : Bool) : BitVec 64 := if b then 1#64 else 0#64

/-- An offered value, NaN when there is none. -/
def gOffer (o : Option Word) : BitVec 64 := gWord (o.getD genNan)

/-- Field f of carriage c. -/
def State.ruleCar (s : State) (c f : Nat) : BitVec 64 :=
  match f, (s.carAt c).queue with
  | 0, _ => gInt (s.carCode c)
  | 3, q => gInt q.length
  | 1, r :: _ => gInt r.kind
  | 2, r :: _ => gInt (s.spx r)
  | _, _ => 0#64

/-- The input of a selector. -/
def State.ruleIn (s : State) (sel : Nat) : BitVec 64 :=
  let i := sel % 4096
  let c := s.course
  let um (z : Int) : Int := Int.fdiv z umFine
  match sel / 4096 with
  | 0 => match i with
    | 0 => gInt s.sp
    | 1 => gInt (um c.cntA)
    | 2 => gInt (um c.cntB)
    | 3 => gInt (sat32 (um (c.cntA - c.cntB - c.offset))).toInt
    | 4 => gInt (um c.hwm)
    | _ => gInt c.speed
  | 1 => match i with
    | 0 => gBool c.srcB
    | 1 => gInt s.stampFlags
    | _ => gWord s.courseStatus
  | 2 => gOffer (s.targetAt i).offered
  | 3 => gWord (s.regGet (aAx i + 0x38))
  | 4 => gInt (s.axAt i).pos
  | 5 => gWord (s.axStatus i)
  | 6 => gOffer (s.targetAt (16 + i)).offered
  | 7 => gWord (lget 0#32 s.line.dacVal i)
  | 8 => if i < 32 then gBool (s.gpioWant i) else gBool (s.line.gpioIn.getLsbD (i - 32))
  | 9 => if i < 32 then gBool (s.crsAt i).active else gInt ((lget 0 s.plumb.asserts (i - 32) : Nat) : Int)
  | 10 => s.ruleCar (i / 4) (i % 4)
  | 11 => if i < 8 then gInt (s.stageAt i).consec else gInt (s.stageAt (i - 8)).watches.length
  | 12 => match i with
    | 8 => gInt s.bond.st.code
    | 9 => gInt s.bond.variant
    | _ => if i < 4 then gInt ((lget 0 s.plumb.ksLast i : Nat) : Int) else gInt ((lget 0 s.plumb.ksRow (i - 4) : Nat) : Int)
  | 13 => match s.plumb.image with
    | some r => lget 0#64 r.consts i
    | none => 0#64
  | _ => match i with
    | 0 => gWord (s.regGet 0xB0014)
    | 1 => gBool s.plumb.safe
    | _ => gBool s.plumb.reqLow.isNone

/-! ### Instructions (R439, R441) -/

/-- Saturation at 64 bits. -/
def gSat (z : Int) : BitVec 64 := gInt (clampInt (-(2 ^ 63)) (2 ^ 63 - 1) z)

/-- The low word of a register, as FP32. -/
def gF (x : BitVec 64) : Word := x.truncate 32

/-- An instruction on a target has effect: a line target, and a value target only with a value offered in the round. -/
def State.judged (s : State) (t : Nat) : Bool :=
  s.isTarget t && (!valueTarget t || s.plumb.judge.contains t)

/-- The latched value of a selector (R430). -/
def Plumb.input (p : Plumb) (sel : Nat) : BitVec 64 :=
  match p.snap.find? (fun x => x.1 == sel) with
  | some x => x.2
  | none => 0#64

/-- Changes the verdict being formed of a target. -/
def State.updVerdict (s : State) (t : Nat) (f : Verdict → Verdict) : State :=
  if s.judged t then s.updPlumb (fun p => { p with verdicts := lmod p.verdicts t f }) else s

/-- NOTE (R439): raises RULE_NOTE and logs the code, the event enabled or not. -/
def State.noteCode (s : State) (code : Nat) : State :=
  let on := s.rbit (evPlumb + 4) 0
  let s := s.raise evPlumb 0 code
  if on then s else s.log (.event 11 0 code s.time64)

/-- Executes one rule instruction: skipped, or ended, it changes only the count of those still skipped. -/
def State.ruleExec (s : State) (i : RuleInstr) : State :=
  let p := s.plumb
  if p.ended then s
  else if 0 < p.skip then s.updPlumb (fun p => { p with skip := p.skip - 1 })
  else
    let a : BitVec 64 := lget 0#64 p.g i.ga
    let b : BitVec 64 := lget 0#64 p.g i.gb
    let put (w : BitVec 64) : State := s.updPlumb (fun p => { p with g := lmod p.g i.gd (fun _ => w) })
    let tg := i.imm.toNat % 128
    match i.op with
    | 0x00 => s.updPlumb (fun p => { p with ended := true })
    | 0x01 => put (p.input (i.imm.toNat % 65536))
    | 0x02 => put (gInt i.imm.toInt)
    | 0x03 => put (gWord i.imm)
    | 0x04 => put (gSat (a.toInt + b.toInt))
    | 0x05 => put (gSat (a.toInt - b.toInt))
    | 0x06 => put (gSat (a.toInt * b.toInt))
    | 0x07 => put (gWord (tAdd (gF a) (gF b)))
    | 0x08 => put (gWord (tSub (gF a) (gF b)))
    | 0x09 => put (gWord (tMul (gF a) (gF b)))
    | 0x0A => put (gSat a.toInt.natAbs)
    | 0x0B => put (gWord (fabs (gF a)))
    | 0x0C => put (gBool (decide (a.toInt < b.toInt)))
    | 0x0D => put (gBool (decide (a.toInt ≤ b.toInt)))
    | 0x0E => put (gBool (a == b))
    | 0x0F => put (gBool (flt (gF a) (gF b)))
    | 0x10 => put (gBool (fle (gF a) (gF b)))
    | 0x11 => put (gBool (a != 0#64 && b != 0#64))
    | 0x12 => put (gBool (a != 0#64 || b != 0#64))
    | 0x13 => put (gBool (a == 0#64))
    | 0x14 => if a = 0#64 then s.updPlumb (fun p => { p with skip := i.imm.toNat % 256 }) else s
    | 0x15 => s.updVerdict tg (fun v => { v with permit := true })
    | 0x16 => s.updVerdict tg (fun v => { v with deny := some (v.deny.getD (i.imm.toNat / 256 % 256)) })
    | 0x17 => if tg < 24 then s.updVerdict tg (fun v => { v with subst := some (v.subst.getD (gF a)) }) else s
    | 0x18 => s.updPlumb (fun p => { p with safeReq := some (p.safeReq.getD (i.imm.toNat % 256)) })
    | 0x19 => s.noteCode (i.imm.toNat % 256)
    | _ => s

/-- A program starts: its registers at 0. -/
def State.ruleStart (s : State) : State :=
  s.updPlumb (fun p => { p with g := List.replicate 16 0, skip := 0, ended := false })

/-! ### Verdicts (R441 to R443) -/

/-- A value target is denied. -/
def State.denied (s : State) (t code : Nat) : State :=
  let s := s.bump 0xB0034
  let n := (s.targetAt t).denials + 1
  let s := s.updTarget t (fun x => { x with denials := n, lastCode := code })
  let lim := s.rfld (0xB1000 + 8 * t) 23 16
  if lim = 0 ∨ n < lim then s
  else ((s.fallback t).updTarget t (fun x => { x with byDeny := true })).raise evPlumb 3

/-- A value target takes a value. -/
def State.valuePass (s : State) (t : Nat) (v : Word) : State :=
  let s := s.updTarget t (fun x => { x with denials := 0 })
  if t < 16 then s.axPass t v else s.dacPass (t - 16) v

/-- The verdict of a value target that had a value offered when the round began. -/
def State.valueVerdict (s : State) (t : Nat) : State :=
  match (if s.plumb.judge.contains t then (s.targetAt t).offered else none) with
  | none => s
  | some v =>
    let x : Verdict := lget {} s.plumb.verdicts t
    let s := s.updTarget t (fun y => { y with offered := none })
    if (s.targetAt t).inFallback && !(s.targetAt t).releasing then s
    else match x.deny, x.subst with
      | some c, _ => s.denied t c
      | none, some w => if isNan w then s.denied t 0 else s.valuePass t w
      | none, none => if x.permit then s.valuePass t v else s.denied t 0

/-! ### Rounds (R430 to R437) -/

/-- A rule image is in service and RULES_EN is set; split operation from READY stands in for it (R437, R454). -/
def State.judging (s : State) : Bool :=
  if s.plumb.st == .split then s.mgmt.st == .ready else s.plumb.image.isSome && s.rbit 0xB0010 0

/-- Rule programs run in this state of Plumb. -/
def State.rulesRun (s : State) : Bool :=
  s.judging && s.plumb.st != .split && s.plumb.st != .failed

/-- The level that is asked of a permit target. -/
def State.wanted (s : State) (t : Nat) : Bool :=
  if t < 56 then s.line.gpioOut.getLsbD (t - 24) else (s.crsAt (t - 56)).active

/-- The permit bits formed in the round that ends take effect; a target that is released leaves fallback once its bit is set
(R431, R456). -/
def State.permitStep (s : State) : State :=
  let split := s.plumb.st == .split
  s.each ((List.range 56).map (24 + ·)) (fun s t =>
    let v : Verdict := lget {} s.plumb.verdicts t
    let ok := split || (v.permit && v.deny.isNone)
    let w := s.wanted t
    s.updTarget t (fun x =>
      let x := { x with permit := ok }
      if ok && x.inFallback && x.releasing then { x with inFallback := false, releasing := false, level := w } else x))

/-- Every line target is in fallback without rules in service; once they are, and no safe state holds, targets leave it on their
own terms (R454, R456). -/
def State.gateStep (s : State) : State :=
  if !s.judging then s.each ((List.range 80).filter (fun t => s.isTarget t && !(s.targetAt t).inFallback)) State.fallback
  else if s.plumb.safe then s
  else s.each (List.range 80) (fun s t =>
    s.updTarget t (fun x => if x.inFallback && !x.byDeny then { x with releasing := true } else x))

/-- SAFE_OK_A and SAFE_OK_B at a round boundary (R436). -/
def State.safeOkStep (s : State) : State :=
  s.updPlumb (fun p =>
    if p.st == .healthy || p.st == .resync || p.st == .safeRestart || p.st == .lockout then
      { p with okA := !p.okA, okB := p.okA }
    else { p with okA := false, okB := false })

/-- The boundary itself: round count, permits, a staged image, the end of a resynchronisation, counts of assertions. -/
def State.boundary (s : State) : State :=
  let s := (s.bump 0xB0014).permitStep
  let s := match s.plumb.staged with
    | some r => s.ruleSwitch r
    | none => s
  let s := s.updPlumb (fun p => { p with
    dual := s.rulesOnce, asserts := p.assertsNow, assertsNow := List.replicate 24 0, verdicts := List.replicate 80 {},
    safeReq := none, resyncLeft := p.resyncLeft - 1,
    st := if p.st == .resync && decide (p.resyncLeft ≤ 1) then .healthy else p.st })
  s.safeOkStep.gateStep

/-- The enabled programs of the image in service. -/
def State.ruleTexts (s : State) : List (List RuleInstr) :=
  match s.plumb.image with
  | none => []
  | some r => ((r.programs.filter (·.1)).map (·.2)).filter (fun l => !l.isEmpty)

/-- The inputs of the round are latched (R430): those that the enabled programs read, and which value targets have a value
offered. -/
def State.latchRound (s : State) : State :=
  let sels := (s.ruleTexts.flatMap (fun l => l.filterMap (fun i => if i.op = 1 then some (i.imm.toNat % 65536) else none))).eraseDups
  s.updPlumb (fun p => { p with
    snap := sels.map (fun k => (k, s.ruleIn k)), judge := (List.range 24).filter (fun t => (s.targetAt t).offered.isSome) })

/-- Runs what is left of the program in progress, and the programs after it in increasing number (R439). -/
def State.runRules (s : State) (l : List (List RuleInstr)) : State :=
  if !s.rulesRun then s
  else match l with
    | [] => s
    | p :: ps => (s.each p State.ruleExec).each ps (fun s q => s.ruleStart.each q State.ruleExec)

/-- The verdicts of a round, and the safe state a SAFE asks for (R441, R453). -/
def State.formVerdicts (s : State) : State :=
  let s := if s.rulesRun then s.each (List.range 24) State.valueVerdict
    else s.each (List.range 24) (fun s t => s.updTarget t (fun x => { x with offered := none }))
  match s.plumb.safeReq with
  | some c => s.safeTrigger 4 c
  | none => s

/-- A divergence of the two snapshots (R434): the cores resynchronise; the 64th within 10 ms is a lock-step fault (R435). -/
def State.diverge (s : State) : State :=
  let s := (s.bump 0xB0018).raise evPlumb 10
  let l := s.now :: s.plumb.diverge.filter (fun t => decide (s.now < t + 5000000))
  let s := s.updPlumb (fun p => { p with
    diverge := l.take 64, resyncLeft := 3, st := if p.st == .healthy then .resync else p.st })
  if 64 ≤ l.length then s.lockstepFault else s

/-- A Plumb injection that waits for this boundary is delivered (R587). -/
def State.plumbInject (s : State) (dual : Bool) : State :=
  let k := s.rfld 0xF005C 27 24
  if !(s.injAt 2).armed || s.plumb.slice.any (fun x => x.cls == 2) || (k == 2 && !dual) then s
  else
    let s := s.delivered 2
    match k with
    | 1 => s.lockstepFault
    | 2 => s.diverge
    | 3 => s.bumpHi 0xB003C
    | _ => (s.bumpLo 0xB003C).lockstepFault

/-- The rest of the round in progress runs, and its verdicts are formed. -/
def State.ruleFinish (s : State) : State :=
  match s.plumb.left with
  | none => s
  | some l => ((s.updPlumb (fun p => { p with left := none })).runRules l).formVerdicts

/-- A round begins at a tick: the boundary, then the inputs are latched and the first program starts. -/
def State.roundBegin (s : State) (at_ : Nat) : State :=
  let s := (s.ruleFinish.updPlumb (fun p => { p with roundAt := at_ })).boundary
  let s := (s.plumbInject s.plumbDual).latchRound
  (s.updPlumb (fun p => { p with left := some (if s.rulesRun then s.ruleTexts else []) })).ruleStart

/-- A round that begins at a tick runs to its end. -/
def State.roundAt (s : State) (at_ : Nat) : State := (s.roundBegin at_).ruleFinish

/-- The next round is due: 12.5 µs after the last. -/
def State.roundDue (s : State) : Bool := s.mgmt.refclk && decide (s.plumb.roundAt + 6250 ≤ s.now)

/-- The boundary at which the round that is due began. -/
def State.roundStart (s : State) : Nat := s.now - (s.now - s.plumb.roundAt) % 6250

/-- PLUMB_ROUND (R430): the round that is due runs, or one that single instructions have begun is completed. -/
def execPlumbRound (t : Nat) (s : State) : Out :=
  let s := s.to t
  .next (if s.roundDue then s.roundAt s.roundStart else s.ruleFinish)

/-- SERVO_CTRL.EN is set: the round in progress ends at once (R430). -/
def State.realign (s : State) : State := s.roundAt s.now

/-- An instruction with the operands that its operation has (R439); the others 0. -/
def RuleInstr.used (i : RuleInstr) : RuleInstr :=
  let im (n : Nat) : Word := wordOf (i.imm.toNat % n)
  match i.op with
  | 0x00 => { op := 0, gd := 0, ga := 0, gb := 0, imm := 0#32 }
  | 0x01 => { op := 1, gd := i.gd, ga := 0, gb := 0, imm := im 65536 }
  | 0x02 => { i with ga := 0, gb := 0 }
  | 0x03 => { i with ga := 0, gb := 0 }
  | 0x0A => { i with gb := 0, imm := 0#32 }
  | 0x0B => { i with gb := 0, imm := 0#32 }
  | 0x13 => { i with gb := 0, imm := 0#32 }
  | 0x14 => { i with gd := 0, gb := 0, imm := im 256 }
  | 0x15 => { i with gd := 0, ga := 0, gb := 0, imm := im 128 }
  | 0x16 => { i with gd := 0, ga := 0, gb := 0, imm := wordOf (i.imm.toNat / 256 % 256 * 256 + i.imm.toNat % 128) }
  | 0x17 => { i with gd := 0, gb := 0, imm := im 128 }
  | 0x18 => { i with gd := 0, ga := 0, gb := 0, imm := im 256 }
  | 0x19 => { i with gd := 0, ga := 0, gb := 0, imm := im 256 }
  | _ => { i with imm := 0#32 }

/-- After a single instruction: the program goes on past what it skips, the next one starts where it has ended, and the round
is complete where none is left. -/
def State.ruleNext (s : State) (is : List RuleInstr) (ps : List (List RuleInstr)) : State :=
  let rest := if s.plumb.ended then [] else is.drop s.plumb.skip
  let s := s.updPlumb (fun p => { p with skip := 0, left := some (rest :: ps) })
  match rest, ps with
  | _ :: _, _ => s
  | [], [] => s.ruleFinish
  | [], _ => s.ruleStart.updPlumb (fun p => { p with left := some ps })

/-- A single rule instruction: that at which the round in progress, or the one now due, stands. -/
def ruleRow (t op gd ga gb : Nat) (imm : Word) (s : State) : Out :=
  let s := s.to t
  let b := if s.roundDue then s.roundBegin s.roundStart else s
  let i : RuleInstr := RuleInstr.used { op := op, gd := gd, ga := ga, gb := gb, imm := imm }
  match b.plumb.left with
  | some ((j :: is) :: ps) => .next (if b.rulesRun && j.used == i then (b.ruleExec i).ruleNext is ps else s)
  | _ => .next s

def execRuleEnd (t : Nat) (s : State) : Out := ruleRow t 0x00 0 0 0 0#32 s
def execRuleIn (t gd sel : Nat) (s : State) : Out := ruleRow t 0x01 gd 0 0 (wordOf sel) s
def execRuleKi (t gd : Nat) (imm : Word) (s : State) : Out := ruleRow t 0x02 gd 0 0 imm s
def execRuleKf (t gd : Nat) (imm : Word) (s : State) : Out := ruleRow t 0x03 gd 0 0 imm s
def execRuleAdd (t gd ga gb : Nat) (s : State) : Out := ruleRow t 0x04 gd ga gb 0#32 s
def execRuleSub (t gd ga gb : Nat) (s : State) : Out := ruleRow t 0x05 gd ga gb 0#32 s
def execRuleMul (t gd ga gb : Nat) (s : State) : Out := ruleRow t 0x06 gd ga gb 0#32 s
def execRuleFadd (t gd ga gb : Nat) (s : State) : Out := ruleRow t 0x07 gd ga gb 0#32 s
def execRuleFsub (t gd ga gb : Nat) (s : State) : Out := ruleRow t 0x08 gd ga gb 0#32 s
def execRuleFmul (t gd ga gb : Nat) (s : State) : Out := ruleRow t 0x09 gd ga gb 0#32 s
def execRuleAbs (t gd ga : Nat) (s : State) : Out := ruleRow t 0x0A gd ga 0 0#32 s
def execRuleFabs (t gd ga : Nat) (s : State) : Out := ruleRow t 0x0B gd ga 0 0#32 s
def execRuleLt (t gd ga gb : Nat) (s : State) : Out := ruleRow t 0x0C gd ga gb 0#32 s
def execRuleLe (t gd ga gb : Nat) (s : State) : Out := ruleRow t 0x0D gd ga gb 0#32 s
def execRuleEq (t gd ga gb : Nat) (s : State) : Out := ruleRow t 0x0E gd ga gb 0#32 s
def execRuleFlt (t gd ga gb : Nat) (s : State) : Out := ruleRow t 0x0F gd ga gb 0#32 s
def execRuleFle (t gd ga gb : Nat) (s : State) : Out := ruleRow t 0x10 gd ga gb 0#32 s
def execRuleAnd (t gd ga gb : Nat) (s : State) : Out := ruleRow t 0x11 gd ga gb 0#32 s
def execRuleOr (t gd ga gb : Nat) (s : State) : Out := ruleRow t 0x12 gd ga gb 0#32 s
def execRuleNot (t gd ga : Nat) (s : State) : Out := ruleRow t 0x13 gd ga 0 0#32 s
def execRuleSkipz (t ga n : Nat) (s : State) : Out := ruleRow t 0x14 0 ga 0 (wordOf n) s
def execRulePermit (t tg : Nat) (s : State) : Out := ruleRow t 0x15 0 0 0 (wordOf tg) s
def execRuleDeny (t tg code : Nat) (s : State) : Out := ruleRow t 0x16 0 0 0 (wordOf (code * 256 + tg)) s
def execRuleSubst (t ga tg : Nat) (s : State) : Out := ruleRow t 0x17 0 ga 0 (wordOf tg) s
def execRuleNote (t code : Nat) (s : State) : Out := ruleRow t 0x19 0 0 0 (wordOf code) s

def execRuleSafe (t code : Nat) (s : State) : Out := ruleRow t 0x18 0 0 0 (wordOf code) s

end Sys2Proof.Machine
end

