-- ==== Sys2Proof/Machine/Plumb.lean ====
section
/-!
DEFINITION. The safety functions of R443 to R462 beside the rule programs: watch closes, the Keystone comparison, the rotating
self-test, the safe state, safety and die-pair restarts, RECOVER, and the registers of the PLUMB block.
-/
namespace Sys2Proof.Machine

/-! ### Window watchdogs -/

/-- WATCH_CLOSE (R444): the first watch of a stage whose close has come is LATE. -/
def execWatchClose (t stage : Nat) (s : State) : Out :=
  let s := s.to t
  match (s.stageAt (stage - 1)).watches.find? (fun w => decide (w.closes ≤ s.now)) with
  | none => .next s
  | some w =>
    guardNext (decide (1 ≤ stage ∧ stage ≤ 8)) s (fun s =>
      let die := s.watchDie stage w.id
      (s.updStage (stage - 1) (fun g => { g with watches := g.watches.erase w })).violation stage true (s.now - w.opened) die)

/-! ### Keystone comparison (R447, R448) -/

/-- What the comparison reads of a box record (R201): centre, sides, class and score. -/
structure KsBox where
  y : Int
  x : Int
  h : Nat
  w : Nat
  cls : Nat
  score : Nat
  order : Nat
  deriving DecidableEq, Repr, Inhabited

/-- A box record. -/
def ksBox (b : List Byte) : KsBox :=
  let f (o n : Nat) : Nat := leNat ((b.drop o).take n)
  { y := signedOf 64 (f 0 8), x := signedOf 32 (f 8 4), h := f 12 4, w := f 16 4, cls := f 20 2, score := f 22 2, order := f 24 4 }

/-- A box ranks before another (R201). -/
def ksBefore (a b : KsBox) : Bool := decide (b.score < a.score) || (a.score == b.score && decide (a.order ≤ b.order))

/-- Inserts a box in rank order, after its equals. -/
def ksInsert (b : KsBox) : List KsBox → List KsBox
  | [] => [b]
  | c :: l => if ksBefore c b then c :: ksInsert b l else b :: c :: l

/-- A result box may match an expected one. -/
def ksNear (pos size : Nat) (e r : KsBox) : Bool :=
  e.cls == r.cls && decide ((e.y - r.y).natAbs ≤ pos) && decide ((e.x - r.x).natAbs ≤ pos) &&
    decide (((e.h : Int) - r.h).natAbs ≤ size) && decide (((e.w : Int) - r.w).natAbs ≤ size)

/-- Square of the distance of two centres. -/
def ksDist (e r : KsBox) : Nat := (e.y - r.y).natAbs ^ 2 + (e.x - r.x).natAbs ^ 2

/-- The match of an expected box: the least distance, ties to the lower position. -/
def ksMatch (pos size : Nat) (e : KsBox) (l : List (Nat × KsBox)) : Option (Nat × KsBox) :=
  (l.filter (fun r => ksNear pos size e r.2)).foldl (fun acc r => match acc with
    | none => some r
    | some a => if ksDist e r.2 < ksDist e a.2 then some r else some a) none

/-- Matches the expected boxes in turn: whether every match lies within SCORE_TOL, the expected boxes without a match, and
the result boxes left. -/
def ksPairs (pos size score : Nat) : List KsBox → List (Nat × KsBox) → Bool × Nat × Nat
  | [], l => (true, 0, l.length)
  | e :: es, l =>
    match ksMatch pos size e l with
    | none =>
      let (ok, miss, left) := ksPairs pos size score es l
      (ok, miss + 1, left)
    | some r =>
      let (ok, miss, left) := ksPairs pos size score es (l.filter (fun x => x.1 != r.1))
      (ok && decide (((e.score : Int) - r.2.score).natAbs ≤ score), miss, left)

/-- The outcome of a comparison: PASS. -/
def ksPass (bands : List Word) (expect result : List KsBox) : Bool :=
  let f (i : Nat) : Nat := (lget 0#32 bands i).toNat
  let es := expect.foldl (fun l b => ksInsert b l) []
  let (ok, miss, left) := ksPairs (f 0) (f 1) (f 2) es ((List.range result.length).zip result)
  decide (result.length ≤ 64) && ok && decide (miss + left ≤ f 3)

/-- The boxes of the Keystone result of a die pair; more than 64 read as 65. -/
def State.ksResult (s : State) (d off : Nat) : List KsBox :=
  (List.range (min 65 (s.lin d off 4))).map (fun i => ksBox (s.ldBytes (memKey (spLintel d) (off + 32 + 32 * i)) 32))

/-- A mismatch of a die pair (R448), with the outcome reported. -/
def State.ksMismatch (s : State) (d g outcome : Nat) : State :=
  let first := s.plumb.ksFirst == some g
  let s := s.updPlumb (fun p => { p with ksFirst := if first then none else p.ksFirst })
  if first && s.rbit 0xB0300 0 then
    (s.updPlumb (fun p => { p with ksLast := lmod p.ksLast d (fun _ => 4) })).epochRollback
  else
    let n := lget 0 s.plumb.ksRow d + 1
    let s := (s.updPlumb (fun p => { p with
      ksLast := lmod p.ksLast d (fun _ => outcome), ksRow := lmod p.ksRow d (fun _ => n) })).raise evPlumb 4
    if n < max 1 (s.rfld 0xB0300 29 24) then s else s.stageAction (s.rfld 0xB0300 31 30) (some d) 6 0

/-- A PASS of a die pair, of a Keystone graph or of the run of a restart. -/
def State.ksPassed (s : State) (d : Nat) (g : Option Nat) : State :=
  s.updPlumb (fun p => { p with
    ksFirst := if g.isSome && p.ksFirst == g then none else p.ksFirst, ksLast := lmod p.ksLast d (fun _ => 1), ksRow := lmod p.ksRow d (fun _ => 0) })

/-- KEYSTONE_COMPARE (R447): the result that waits is compared; or a Keystone graph past its window is MISSING. -/
def execKeystoneCompare (t die : Nat) (s : State) : Out :=
  let s := s.to t
  match s.bond.plan with
  | none => .next s
  | some p =>
    match s.bond.ksPending.filter (fun x => x.1 == die) with
    | some x =>
      let seen := s.plumb.ksSeen.contains x.2
      let s := s.updBond (fun b => { b with ksPending := none })
      if seen then .next s
      else if ksPass p.ksBands (p.ksExpect.map ksBox) (s.ksResult die p.ksResult) then .next (s.ksPassed die (some x.2))
      else .next (s.ksMismatch die x.2 2)
    | none =>
      match s.bond.graphs.find? (fun g => g.kind == .keystone && g.die == die && !s.plumb.ksSeen.contains g.id &&
          decide (g.released + 500 * s.stageClose 6 < s.now)) with
      | none => .next s
      | some g => .next ((s.updPlumb (fun q => { q with ksSeen := g.id :: q.ksSeen.take 63 })).ksMismatch die g.id 3)

/-! ### Rotating self-test (R449 to R452) -/

/-- Class and target of the slice at a pointer. -/
def sliceOf (ptr core : Nat) : Nat × Nat :=
  if ptr = 0 then (2, 0) else if ptr = 1 then (7, 0) else if ptr = 2 then (4, 0)
  else if ptr < 11 then (3, ptr - 3) else if ptr < 13 then (6, ptr - 11) else if ptr = 13 then (5, 0)
  else if ptr < 18 then (1, ptr - 14) else (0, core)

/-- A slot, by its number 48 × die + slot, holds a core in service. -/
def State.slotServes (s : State) (n : Nat) : Bool :=
  let x := s.dieAt (n / 48)
  s.hasDie (n / 48) && (x.st == .ready || x.st == .running) && !(s.slotAt (n / 48) (n % 48)).vacant

/-- The next core in service from a number on. -/
def State.nextCore (s : State) (from_ : Nat) : Option Nat :=
  ((List.range 192).map (fun i => (from_ + i) % 192)).find? s.slotServes

/-- The slice the scheduler tries: the one at the pointer, past those whose die pair or cores are not in service. -/
def State.nextSlice (s : State) : Nat → Nat → Option (Nat × Nat × Nat)
  | 0, _ => none
  | n + 1, ptr =>
    match sliceOf ptr 0 with
    | (1, g) =>
      let st := (s.dieAt g).st
      if s.hasDie g && (st == .ready || st == .running) then some (ptr, 1, g) else s.nextSlice n ((ptr + 1) % 19)
    | (0, _) => match s.nextCore s.plumb.stCore with
      | some c => some (ptr, 0, c)
      | none => s.nextSlice n ((ptr + 1) % 19)
    | (c, g) => some (ptr, c, g)

/-- Compute cycles at 1.0 GHz as ticks at the present frequency. -/
def State.computeTicks (s : State) (us : Nat) : Nat :=
  match s.freq with
  | 0 => 500 * us
  | 1 => 625 * us
  | _ => (2500 * us + 2) / 3

/-- WCET of a slice, in ticks. -/
def State.sliceWcet (s : State) (cls : Nat) : Nat :=
  match cls with
  | 2 => 500 | 7 => 1000 | 4 => 500 | 3 => 1000 | 6 => 4000 | 5 => 2000 | 1 => s.computeTicks 50 | _ => s.computeTicks 48

/-- The window up to the next plan release on slots of a die fits a slice on the compute clock; none is unlimited. -/
def State.releaseFits (s : State) (d : Nat) (slots : List Nat) (us : Nat) : Bool :=
  if s.bond.st != .running then true
  else match s.toRelease d slots with
    | none => true
    | some c => decide (1000 * us ≤ c)

/-- A plan graph in flight maps a task to the slot. -/
def State.planMaps (s : State) (d i : Nat) : Bool :=
  s.bond.graphs.any (fun g => g.client == 15 && g.die == d && g.tasks.any (fun k => k.st != .done && slotOf g k.entry == i))

/-- Ticks to the next sample instant of any axis (R361). -/
def State.toSample (s : State) : Option Nat :=
  if !s.lineRuns then none
  else
    let due (b : Nat) : Bool := (List.range 16).any (fun a => s.axDue a b)
    match ((List.range 65).map (fun i => s.line.base + i)).find? due with
    | none => none
    | some b => some (s.line.origin + 31250 * b - s.now)

/-- The window of a slice is at least its WCET (R449, R450). -/
def State.sliceFits (s : State) (cls g : Nat) : Bool :=
  match cls with
  | 2 => decide (s.now + 500 ≤ s.plumb.roundAt + 6250)
  | 6 => match s.toSample with
    | none => true
    | some n => decide (4000 ≤ n)
  | 1 => s.releaseFits g (List.range 48) 50
  | 0 => (s.runAt (g / 48) (g % 48)).isNone && !s.planMaps (g / 48) (g % 48) && s.releaseFits (g / 48) [g % 48] 48
  | _ => true

/-- The scheduler of the self-test runs. -/
def State.selftests (s : State) : Bool :=
  s.rbit 0xB0200 0 && !s.restarting && s.plumb.st != .failed && s.plumb.st != .starting && s.plumb.slice.isNone

/-- SELFTEST_SLICE (R449, R450). -/
def execSelftestSlice (t : Nat) (s : State) : Out :=
  let s := s.to t
  guardNext (s.selftests && decide (s.plumb.stAt + 500 * max 1 (s.rfld 0xB0200 31 16) ≤ s.now)) s (fun s =>
    let s := s.updPlumb (fun p => { p with stAt := s.now })
    match s.nextSlice 19 s.plumb.stPtr with
    | none => s
    | some (ptr, cls, g) =>
      let s := s.updPlumb (fun p => { p with stPtr := ptr, stCore := if cls = 0 then g else p.stCore })
      if s.sliceFits cls g then s.updPlumb (fun p => { p with slice := some { cls := cls, target := g, since := s.now } })
      else s.bump 0xB0208)

/-- A failed slice of a checker of Plumb puts Plumb in LOCKOUT (R451, R456). -/
def State.lockoutFor (s : State) (why : Nat) : State :=
  let s := if s.plumb.lockWhy = 0 then s.raise evPlumb 6 else s
  s.updPlumb (fun p => { p with
    lockWhy := if p.lockWhy = 0 then why else p.lockWhy,
    st := if p.st == .failed || p.st == .split || p.restart.isSome then p.st else .lockout })

/-- What a failed slice does (R451). -/
def State.sliceFailed (s : State) (cls g : Nat) : State :=
  let s := (s.setFld 0xB020C 15 8 cls).setFld 0xB020C 7 0 (satAdd 8 (s.rfld 0xB020C 7 0) 1)
  if cls = 0 then s.coreFail (g / 48) (s.slotAt (g / 48) (g % 48)).core .selfTest
  else if cls = 1 then s.dieFail g
  else if cls = 5 ∨ cls = 6 then (s.raise evPlumb 2).safeTrigger 7 0
  else (s.safeTrigger 7 0).lockoutFor 2

/-- SELFTEST_DONE: the slice in progress ends and the pointer moves on. -/
def execSelftestDone (t : Nat) (pass : Bool) (s : State) : Out :=
  let s := s.to t
  match s.plumb.slice with
  | none => .next s
  | some x =>
    let key := 256 * x.cls + x.target
    let s := s.updPlumb (fun p => { p with
      slice := none, stPtr := (p.stPtr + 1) % 19, stCore := if x.cls = 0 then (x.target + 1) % 192 else p.stCore })
    let s := if x.cls = 0 then s.updCore (x.target / 48) (s.slotAt (x.target / 48) (x.target % 48)).core
        (fun c => { c with reload := true }) else s
    if pass then .next (s.updPlumb (fun p => { p with stPass := (key, s.now) :: p.stPass.filter (fun y => y.1 != key) }))
    else .next (s.sliceFailed x.cls x.target)

/-- Members of a class that are present. -/
def State.clsMembers (s : State) (c : Nat) : List Nat :=
  match c with
  | 0 => (List.range 192).filter s.slotServes
  | 1 => s.dies.filter (fun d => (s.dieAt d).st != .failed)
  | 3 => List.range 8
  | 6 => [0, 1]
  | _ => [0]

/-- Seconds since every checker of a class last passed (R452). -/
def State.diAge (s : State) (c : Nat) : Nat :=
  let at_ (g : Nat) : Nat := countOf s.plumb.stPass (256 * c + g)
  let oldest := (s.clsMembers c).foldl (fun m g => min m (at_ g)) s.now
  min (m32) ((s.now - oldest) / 500000000)

/-- The age of a class exceeds its limit. -/
def State.diOver (s : State) (c : Nat) : Bool :=
  let lim := (s.regGet (0xB0240 + 8 * c)).toNat
  decide (lim ≠ 0) && decide (lim < s.diAge c)

/-- LATENT_FAULT (R452): raised once for each time a class exceeds its limit. -/
def execLatentFault (t cls : Nat) (s : State) : Out :=
  let s := s.to t
  let s := s.updPlumb (fun p => { p with latentCls := p.latentCls.filter s.diOver })
  guardNext (decide (cls < 8) && s.diOver cls && !s.plumb.latentCls.contains cls) s (fun s =>
    (s.updPlumb (fun p => { p with latent := true, latentCls := cls :: p.latentCls })).raise evPlumb 1)

/-! ### The safe state and its restart (R453 to R458) -/

/-- SAFE_REQ_PIN: SAFE_REQ_N has been low for 1 µs, or is high again. -/
def execSafeReqPin (t : Nat) (low : Bool) (s : State) : Out :=
  let s := s.to t
  if low then guardNext s.plumb.reqLow.isNone s (fun s => (s.updPlumb (fun p => { p with reqLow := some s.now })).safeTrigger 2 0)
  else .next (s.updPlumb (fun p => { p with reqLow := none }))

/-- Step 7 of a restart: the line-side engine runs again (R360, R385, R421). -/
def State.lineResume (s : State) : State :=
  let en := s.rbit 0x80000 0
  let s := s.updPlumb (fun p => { p with held := false, restart := p.restart.map (fun r => { r with line := true }) })
  let s := s.each (List.range 16) (fun s a => s.updAx a (fun x =>
    if !en then x
    else
      { x with
        st := if x.homed then .disabled else .notHomed, resume := x.homed && s.rbit (aAx a) 18, posK := x.pos, first := true }))
  let s := s.restartReqs
  let s := s.each ((List.range 8).filter (fun c => s.rbit (aQp c) 3)) State.qpEnable
  s.carCheck

/-- BASE_TICK (R358): the next base tick of the engine; the first one of a restart, from 20 ms on, is step 7. -/
def execBaseTick (t : Nat) (gpio : BitVec 32) (adc : List Nat) (s : State) : Out :=
  let s := s.to t
  let s := match s.plumb.restart with
    | some r => if !r.line && s.line.running && decide (r.since + 10000000 ≤ s.now) then s.lineResume else s
    | none => s
  guardNext s.baseDue s (fun s => (s.ruleFinish.baseTick gpio adc).qpDrain)

/-- A restart ends as FAILED (R455): the engines stay reset, and Plumb enters LOCKOUT. -/
def State.restartFail (s : State) : State :=
  let s := (s.updPlumb (fun p => { p with held := true, restart := none })).lineReset
  (s.raise evPlumb 7).lockoutFor 1

/-- A restart ends with RESTART_DONE (R455, R456). -/
def State.restartEnd (s : State) (r : Restart) : State :=
  let s := if r.line then s else s.lineResume
  let s := s.each (s.dies.filter (fun d => (s.dieAt d).st == .restarting)) (fun s d =>
    if (s.dieAt d).short then s.dieFail d else (s.updDie d (fun x => { x with st := .ready })).retireIdle d)
  let ks := match s.bond.plan with
    | some p => !p.keystone.isEmpty
    | none => false
  let s := if ks then s.each s.pairsInService (fun s d => s.ksPassed d none) else s
  let s := (s.regSet 0xB002C (wordOf ((s.now - r.since) / 500))).raise evPlumb 8
  let s := s.updPlumb (fun p => { p with
    restart := none, held := false,
    st := if p.st == .safeRestart then (if p.lockWhy = 0 then .healthy else .lockout) else p.st })
  if (s.rbit 0xB0010 1 || r.release) && !s.plumb.untilClear && !s.plumb.recovered && s.plumb.st != .lockout && s.plumb.st != .failed then s.releaseTargets
  else s

/-- RESTART_DONE: within 150 ms; a later end is a step beyond its bound. -/
def execRestartDone (t : Nat) (s : State) : Out :=
  let s := s.to t
  match s.plumb.restart with
  | none => .next s
  | some r => if s.now ≤ r.since + 75000000 then .next (s.restartEnd r) else .next s.restartFail

/-- RESTART_FAILED. -/
def execRestartFailed (t : Nat) (s : State) : Out :=
  let s := s.to t
  guardNext s.restarting s State.restartFail

/-- DIE_PAIR_RESTART_DONE (R539): the pair is in service again, or fails for want of slots (R143). -/
def execDiePairRestartDone (t die : Nat) (s : State) : Out :=
  let s := s.to t
  guardNext ((s.dieAt die).st == .restarting && !s.restarting && !s.plumb.held) s (fun s =>
    if (s.dieAt die).short then s.dieFail die else (s.updDie die (fun x => { x with st := .ready })).retireIdle die)

/-- SAFE_CLEAR (R456): after a successful RECOVER it acts at once. -/
def State.safeClear (s : State) : State :=
  let p := s.plumb
  let settled := s.mgmt.st == .ready && (s.mgmt.pow == .run || s.mgmt.pow == .idle) && s.mgmt.powTo.isNone
  if p.st == .failed || p.st == .split || s.restarting then s
  else if p.st == .lockout then
    if p.held then
      let s := (s.updPlumb (fun p => { p with lockWhy := 0 })).safeTrigger 3 0
      s.updPlumb (fun p => { p with restart := p.restart.map (fun r => { r with release := true }) })
    else (s.updPlumb (fun p => { p with st := .healthy, lockWhy := 0 })).releaseTargets
  else if settled || (p.recovered && (s.mgmt.pow == .run || s.mgmt.pow == .idle)) then s.releaseTargets else s

/-- RELEASE_TARGET (R443): a target leaves the fallback that DENY_LIMIT put it in. -/
def State.releaseTarget (s : State) (t : Nat) : State :=
  if s.restarting || s.plumb.st == .lockout || !(s.targetAt t).byDeny then s
  else s.updTarget t (fun x => { x with byDeny := false, denials := 0, releasing := x.inFallback && !s.plumb.safe })

/-- RECOVER (R435). -/
def State.recover (s : State) : State :=
  let waited := match s.plumb.recFailed with
    | none => true
    | some t => decide (t + 500000000 ≤ s.now)
  if s.plumb.st == .failed && !s.restarting && !s.plumb.recovering && waited then
    s.updPlumb (fun p => { p with recovering := true }) else s

/-- RECOVER_DONE: with every slice passed Plumb is HEALTHY on the stored rule image, unless an earlier RECOVER has failed. -/
def execRecoverDone (t : Nat) (pass : Bool) (s : State) : Out :=
  let s := s.to t
  guardNext s.plumb.recovering s (fun s => s.updPlumb (fun p =>
    if pass && p.recFailed.isNone then { p with recovering := false, recovered := true, st := .healthy, lockWhy := 0, image := p.stored, staged := none }
    else { p with recovering := false, recFailed := some s.now }))

/-- CLEAR_COUNTERS (R462). -/
def State.plumbClear (s : State) : State :=
  let s := s.each [0xB0014, 0xB0018, 0xB0034, 0xB0038, 0xB003C, 0xB0208] (fun s a => s.regSet a 0#32)
  let s := s.setFld 0xB020C 7 0 0
  let s := s.each (List.range 8) (fun s i => (s.regSet (0xB0108 + 0x10 * i) 0#32).regSet (0xB010C + 0x10 * i) 0#32)
  s.updPlumb (fun p => { p with safeTicks := [] })

/-- A write of PLUMB_CMD (R462). -/
def State.plumbCmd (s : State) (v : Word) : State :=
  match fld v 31 24 with
  | 1 => s.safeTrigger 3 0
  | 2 => s.safeClear
  | 3 => s.releaseTarget (fld v 6 0)
  | 4 => s.recover
  | 5 => s.plumbClear
  | _ => s

/-! ### Registers (R460, R461) -/

/-- The registers of the PLUMB block that show the state. -/
def State.plumbView (s : State) (o : Nat) : Option Nat :=
  let p := s.plumb
  if o = 0 then some s.plumbStatus
  else if o = 0x1C then
    let win := 500000000 * max 1 (s.rfld 0xB0010 23 8)
    some (s.rfld 0xB001C 31 16 * 65536 + min 65535 (p.safeTicks.filter (fun t => decide (s.now < t + win))).length)
  else if o = 0x30 then
    some (match p.image with
      | none => 0
      | some r => ((r.programs.filter (·.1)).map (fun q => q.2.length)).sum * 65536 + r.version % 65536)
  else if o = 0x204 then some (p.stPtr * 256 + p.stCore)
  else
    match (if o % 8 = 4 then arrIdx o 0x244 8 8 else none), arrIdx o 0x310 4 4, arrIdx o 0x1400 4 80 with
    | some c, _, _ => some (s.diAge c)
    | _, some i, _ => some (if s.hasDie i then min 255 (lget 0 p.ksRow i) * 2 ^ 24 + lget 0 p.ksLast i else 0)
    | _, _, some t =>
      let x := s.targetAt t
      some (x.lastCode % 256 * 2 ^ 24 + min 255 x.denials * 65536 + 2 * b2n x.permit + b2n (x.inFallback && s.isTarget t))
    | _, _, _ => none

end Sys2Proof.Machine
end

