-- ==== Sys2Proof/Machine/Power.lean ====
section
/-!
DEFINITION. Power domains, core switches, energy meters, the rack budget, and temperature (R547 to R562).
-/
namespace Sys2Proof.Machine

/-! ### Domains (R548) -/

/-- The part has the domain. -/
def State.hasPd (s : State) (n : Nat) : Bool :=
  decide (n < 20) && (s.part == .vyu4140 || !(n == 8 || n == 9 || (decide (14 ≤ n) && decide (n ≤ 17))))

/-- Die pair of a domain of Lintel or compute; 4 for the others. -/
def pdDie (n : Nat) : Nat := if 6 ≤ n ∧ n ≤ 9 then n - 6 else if 10 ≤ n ∧ n ≤ 17 then (n - 10) / 2 else 4

/-- A core of the second half of a die is on. -/
def State.upperOn (s : State) (d : Nat) : Bool := (List.range 26).any (fun i => s.coreOn d (26 + i))

/-- A domain is on: switched on, and needed by R548 in RUN. -/
def State.pdomOn (s : State) (n : Nat) : Bool :=
  s.pdOn n && s.hasPd n && !s.power.fault.getLsbD n &&
    (pdDie n == 4 || (s.dieAt (pdDie n)).st != .failed) &&
    (n != 5 || (List.range s.nQch).any (fun c => (s.qchAt c).st != .excluded)) &&
    (s.mgmt.pow != .run || n < 10 || 17 < n || n % 2 == 0 || s.upperOn (pdDie n))

/-- A domain that stays off until the next power-on: absent, of a FAILED pair, or in DOMAIN_FAULT. -/
def State.pdomPerm (s : State) (n : Nat) : Bool :=
  !s.hasPd n || s.power.fault.getLsbD n || (pdDie n != 4 && (s.dieAt (pdDie n)).st == .failed)

/-- Planning figure of a half-die domain at a frequency code, mW. -/
def halfFig (f : Nat) : Nat := if f = 0 then 2000 else if f = 1 then 1600 else 1200

/-- Planning figure of a core, mW. -/
def coreFig (f : Nat) : Nat := if f = 0 then 1450 else if f = 1 then 1000 else 620

/-- Planning figure of a domain, mW. -/
def State.pdFig (s : State) (n : Nat) : Nat :=
  let big := s.part == .vyu4140
  let two (x : Nat) : Nat := if big then x else x / 2
  match n with
  | 0 => 3000 | 1 => 2000 | 2 => two 18000 | 3 => two 4000 | 4 => 6000 | 5 => two 10000 | 18 => two 8000 | 19 => two 2600
  | _ => if n < 10 then 8000 else halfFig s.freq

/-- base(f): the figures of the domains that are on, mW. -/
def State.baseMw (s : State) : Nat := (((List.range 20).filter s.pdomOn).map s.pdFig).sum

/-- b_eff (R554), mW. -/
def State.effBudget (s : State) : Nat := min s.power.budget s.power.cap * (100 - s.power.derate) / 100

/-- The grant (R554). -/
def State.grantOf (s : State) : Nat := min ((s.effBudget - s.baseMw) / max 1 s.power.pcore) s.coresServing

/-- The grant is computed again; one that falls is a new rack budget to a running plan (R347). -/
def State.regrant (s : State) : State :=
  let g := s.grantOf
  let less := decide (g < s.power.granted)
  let s := s.updPower (fun p => { p with granted := g })
  if less then s.readmit else s

/-- p_core(f) recalibrated (R556). -/
def State.recalibrate (s : State) : State :=
  let w := let n := s.rfld 0xE0028 31 16
    if 10 ≤ n ∧ n ≤ 1000 then n else 100
  let h := s.power.hist.take w
  let on := (s.dies.map (fun d => ((List.range 52).filter (s.coreOn d)).length)).sum
  if on = 0 || h.isEmpty then s
  else
    let avg := (h.map (·.half)).sum / h.length
    let half := (((List.range 8).map (10 + ·)).filter s.pdomOn).length * halfFig s.freq
    let fig := coreFig s.freq
    (s.updPower (fun p => { p with pcore := max fig (min (2 * fig) ((avg - half) / on)) })).regrant

/-- DOMAIN_FAULT (R550). -/
def execDomainFault (t pd : Nat) (s : State) : Out :=
  let s := s.to t
  guardNext (s.hasPd pd && !s.power.fault.getLsbD pd) s (fun s =>
    let s := s.settleCycles
    let s := (s.updPower (fun p => { p with
      fault := p.fault ||| BitVec.ofNat 20 (2 ^ pd), on := p.on &&& ~~~BitVec.ofNat 20 (2 ^ pd) })).raise evPower 0
    if pdDie pd < 4 then s.dieFail (pdDie pd)
    else ((s.updMgmt (fun m => { m with st := .failed })).updPlumb (fun p => { p with safe := true })).fallbackAll)

/-! ### Energy meters (R552, R553) -/

/-- Energy of a die pair's compute and Lintel domains divided among its accounts by their core-cycles of the interval; what
is left goes to the plan's account (R351). -/
def State.chargeDie (s : State) (e : Nat) (d : Nat) : State :=
  let cyc (c : Nat) : Nat := (s.account c d).msCycles
  let tot := ((List.range 16).map cyc).sum
  let share (c : Nat) : Nat := if tot = 0 then 0 else e * cyc c / tot
  let left := e - ((List.range 16).map share).sum
  s.each ((List.range 16).filter (fun c => cyc c != 0 || c == 15)) (fun s c =>
    s.updAccount c d (fun a => { a with uj := a.uj + share c + (if c = 15 then left else 0), msCycles := 0 }))

/-- ENERGY_METER: a millisecond's energy of each domain, µJ; a domain that is off uses none. -/
def execEnergyMeter (t : Nat) (uj : List Nat) (s : State) : Out :=
  let s := s.to t
  let e (n : Nat) : Nat := if s.pdomOn n then lget 0 uj n else 0
  let tot := ((List.range 20).map e).sum
  let half := ((List.range 8).map (fun i => e (10 + i))).sum
  let s := s.each s.dies (fun s d => s.chargeDie (e (6 + d) + e (10 + 2 * d) + e (11 + 2 * d)) d)
  let rest := (((List.range 20).filter (fun n => pdDie n == 4)).map e).sum
  let s := s.updAccount 15 0 (fun a => { a with uj := a.uj + rest })
  let h := { pkg := tot, half := half, hwm := s.course.hwm : PowMs } :: s.power.hist.take 1000
  let w := let n := s.rfld 0xE0028 31 16
    if 10 ≤ n ∧ n ≤ 1000 then n else 100
  let win := h.take w
  let far := (lget { pkg := 0, half := 0, hwm := s.course.hwm } h (h.length - 1)).hwm
  let adv := Int.fdiv s.course.hwm umFine - Int.fdiv far umFine
  let sum := ((h.take 1000).map (·.pkg)).sum
  let s := s.updPower (fun p => { p with
    meter := (List.range 20).map (fun n => (lget 0 p.meter n + e n) % 2 ^ 64), hist := h, pkg := tot,
    avg := (win.map (·.pkg)).sum / max 1 win.length,
    epm := if adv < 1000000 then 0 else sum * 1000 / adv.toNat })
  let beyond := decide (s.effBudget < s.power.avg)
  let was := s.power.overBudget
  let s := s.updPower (fun p => { p with overBudget := beyond })
  .next (if beyond && !was then (s.raise evPower 5).recalibrate else s)

/-! ### Temperature (R558, R559) -/

/-- TJ_MAX and HOT_MARGIN, in °C. -/
def State.tjMax (s : State) : Int := if s.mgmt.ext then 105 else 100
def State.hotMargin (s : State) : Int :=
  let n := s.rfld 0xE002C 15 8
  if 1 ≤ n ∧ n ≤ 20 then n else 5

/-- Domain a sensor lies in. -/
def sensorPd (i : Nat) : Nat := if i < 16 then 10 + 2 * (i / 4) else if i < 20 then i - 10 else 0

/-- Readings of the sensors in domains that are on, sixteenths of a degree. -/
def State.liveTemps (s : State) : List Int :=
  ((List.range 21).filter (fun i => s.pdomOn (sensorPd i))).map (fun i => lget 0 s.power.temps i)

/-- Every sensor reads TJ_MAX less HOT_MARGIN or less. -/
def State.coolEnough (s : State) : Bool := s.liveTemps.all (fun x => decide (x ≤ 16 * (s.tjMax - s.hotMargin)))

/-- The thermal trip (R559): fallback, the plan stops, tasks end LOST, and HOLD is entered; a restart or transition in
progress is abandoned, a return from HOLD or STANDBY among them. -/
def State.trip (s : State) : State :=
  let s := (s.updPower (fun p => { p with tripped := true })).raise evPower 1
  let s := (s.updPlumb (fun p => { p with
    safe := true, restart := none, held := false, st := if p.st == .safeRestart then .healthy else p.st })).fallbackAll
  let s := s.each s.dies (fun s d =>
    let s := (s.loseTasks d).loseGraphs d 7 false
    s.updDie d (fun x => { x with st := if x.st == .running || x.st == .restarting then .ready else x.st }))
  let s := s.updBond (fun b => { b with
    st := if b.st == .running || b.st == .stopping then .admitted else b.st, startPending := false, readmitting := false,
    readmitAgain := false, resume := [], resumed := [] })
  let s := match s.sdio.waiting with
    | some p => (s.updSdio (fun x => { x with waiting := none, waitBegun := false })).reply p 0x0203
    | none => s
  s.updMgmt (fun m => { m with
    powTo := if m.pow == .hold then none else some .hold
    st := if m.st == .starting && decide (3 ≤ m.startup.kind) then .ready else m.st })

/-- TEMP_SAMPLE: the sensors are read. -/
def execTempSample (t : Nat) (temps : List Nat) (s : State) : Out :=
  let s := s.to t
  let s := s.updPower (fun p => { p with temps := (List.range 21).map (fun i => signedOf 16 (lget 0 temps i % 65536)) })
  let l := s.liveTemps
  let hotAt := 16 * (s.tjMax - s.hotMargin)
  let hot := l.any (fun x => decide (hotAt ≤ x))
  let cold := l.all (fun x => decide (x ≤ hotAt - 80))
  let was := s.power.thermHot
  let s := s.updPower (fun p => { p with
    thermHot := hot, hotSince := if hot then (if was then p.hotSince else some s.now) else none,
    coolSince := if cold then some (p.coolSince.getD s.now) else none, cool := p.cool && cold })
  let s := if hot && !was then s.raise evPower 3 else s
  let due := s.power.coolSince.any (fun c => decide (c + 500000000 ≤ s.now))
  let s := if cold && due && !s.power.cool then
      (s.updPower (fun p => { p with cool := true, coolSince := some s.now })).raise evPower 2 else s
  if l.any (fun x => decide (16 * (s.tjMax + 5) ≤ x)) && !s.power.tripped && (s.mgmt.pow != .standby || s.mgmt.refclk) then .next s.trip
  else .next s

/-- DERATE changes (R558). -/
def State.setDerate (s : State) (d : Nat) : State :=
  if d = s.power.derate then s else ((s.updPower (fun p => { p with derate := d })).raise evPower 4).regrant

/-- DERATE_STEP: 100 ms more of THERM_HOT, or 1 s more of THERM_COOL. -/
def execDerateStep (t : Nat) (s : State) : Out :=
  let s := s.to t
  let n := s.rfld 0xE002C 7 0
  let step := if 1 ≤ n ∧ n ≤ 25 then n else 5
  match s.power.hotSince, s.power.coolSince with
  | some h, _ => guardNext (decide (h + 50000000 ≤ s.now)) s (fun s =>
      (s.updPower (fun p => { p with hotSince := some (h + 50000000) })).setDerate (min 50 (s.power.derate + step)))
  | none, some c => guardNext (s.power.cool && decide (c + 500000000 ≤ s.now)) s (fun s =>
      (s.updPower (fun p => { p with coolSince := some (c + 500000000) })).setDerate (s.power.derate - step))
  | none, none => .next s

/-! ### Registers (R560 to R562) -/

/-- A write of POWER_CMD. -/
def State.powerCmd (s : State) (v : Word) : State :=
  match v.toNat with
  | 1 => s.regSet 0xE0034 0#32
  | 2 => s.recalibrate
  | _ => s

/-- The sensor of the highest reading, the lowest number of several. -/
def State.hottest (s : State) : Nat × Int :=
  ((List.range 21).filter (fun i => s.pdomOn (sensorPd i))).foldl (fun (a : Nat × Int) i =>
    let x := lget 0 s.power.temps i
    if a.1 = 31 ∨ a.2 < x then (i, x) else a) (31, 0)

/-- The registers of the POWER block that show the state. -/
def State.powerView (s : State) (o : Nat) : Option Nat :=
  let p := s.power
  let set (f : Nat → Bool) : Nat := (((List.range 20).filter f).map (2 ^ ·)).sum
  match o with
  | 0x0 => some (p.derate * 65536 + 32768 * b2n p.thermHot + 16384 * b2n p.tripped + 8192 * b2n p.overBudget +
      4096 * b2n p.cold420 + p.granted % 512)
  | 0x10 => some p.budget
  | 0x14 => some p.cap
  | 0x18 => some p.pkg
  | 0x1C => some p.avg
  | 0x20 => some p.epm
  | 0x24 => some p.pcore
  | 0x38 =>
    let h := s.hottest
    some (if h.1 = 31 then 0 else h.1 * 65536 + codeOf 16 h.2)
  | 0x3C => some (set s.pdomOn)
  | 0x40 => some (set s.pdomPerm)
  | 0x48 => some ((p.meter.foldl (· + ·) 0) % 2 ^ 32)
  | 0x4C => some ((p.meter.foldl (· + ·) 0) / 2 ^ 32)
  | _ =>
    match arrIdx o 0x100 4 40, arrIdx o 0x200 4 21 with
    | some n, _ => some (lget 0 p.meter (n / 2) / 2 ^ (32 * (n % 2)) % 2 ^ 32)
    | _, some i => some (if s.hasPd (sensorPd i) then codeOf 16 (lget 0 p.temps i) else 0)
    | _, _ => none

end Sys2Proof.Machine
end

