-- ==== Sys2Proof/Machine/TimeNet.lean ====
section
/-!
DEFINITION. Time and network: the PTP servo of the tracked domains (R463 to R472), pulse outputs and time captures (R473 to
R475), the Ethernet ports (R476 to R478), and the sending of result records (R479 to R485).
-/
namespace Sys2Proof.Machine

def aDom (d : Nat) : Nat := 0xC0040 + 0x40 * d
def aTpo (n : Nat) : Nat := 0xC0100 + 0x20 * n
def aCap (c : Nat) : Nat := 0xC0200 + 0x10 * c

/-! ### Pulse outputs (R473, R474) -/

/-- Nanoseconds of a selector's clock. -/
def State.selNs (s : State) (k : Nat) : Nat := s.clkSel k / 2 ^ 32

/-- START of a pulse output in ns of its clock: its seconds are those of the present 2³² seconds. -/
def State.tpoStart (s : State) (n : Nat) : Nat :=
  let now := s.selNs (s.rfld (aTpo n) 29 28) / 1000000000
  (now / 2 ^ 32 * 2 ^ 32 + (s.regGet (aTpo n + 4)).toNat) * 1000000000 + (s.regGet (aTpo n + 8)).toNat

/-- CFG_ERR of a pulse output (R473). -/
def State.tpoCfgErr (s : State) (n : Nat) : Bool :=
  let p := (s.regGet (aTpo n + 0xC)).toNat
  let w := (s.regGet (aTpo n + 0x10)).toNat
  s.rbit (aTpo n) 30 && (p == 0 || decide (p ≤ w))

/-- The least boundary start + k × period at or after a time. -/
def nextBoundary (start period t : Nat) : Nat :=
  if t ≤ start ∨ period = 0 then start else start + (t - start + period - 1) / period * period

/-- EN of a pulse output is set (R474). -/
def State.tpoArm (s : State) (n : Nat) : State :=
  let now := s.selNs (s.rfld (aTpo n) 29 28)
  let start := s.tpoStart n
  if s.rbit (aTpo n) 30 then
    s.updTpo n (fun x => { x with next := some (nextBoundary start (s.regGet (aTpo n + 0xC)).toNat now), last := none })
  else if now ≤ start then s.updTpo n (fun x => { x with next := some start })
  else (s.updTpo n (fun x => { x with next := none })).raise evTime 1

/-- A clock has been stepped from `old` ns: starts it passed over are skipped, and the next pulse falls at the next period
boundary after the stepped time (R474). -/
def State.tpoStepped (s : State) (sel old : Nat) : State :=
  let now := s.selNs sel
  s.each (List.range 8) (fun s n =>
    let k := s.rfld (aTpo n) 29 28
    let k := if k = 3 then 0 else k
    match (s.tpoAt n).next with
    | none => s
    | some x =>
      if k ≠ sel ∨ !s.rbit (aTpo n) 31 then s
      else
        let per := (s.regGet (aTpo n + 0xC)).toNat
        if s.rbit (aTpo n) 30 then
          let skips := if old ≤ now ∧ x < now ∧ per ≠ 0 then (now - x + per - 1) / per else 0
          let s := s.updTpo n (fun t => { t with
            next := some (nextBoundary (s.tpoStart n) per (max now (match t.last with | some l => l + 1 | none => 0))) })
          if skips = 0 then s else (s.bumpLo (aTpo n + 0x14) skips).raise evTime 1
        else if x < now then ((s.updTpo n (fun t => { t with next := none })).bumpLo (aTpo n + 0x14)).raise evTime 1
        else s)

/-- TPO_PULSE (R473): the selected clock has reached a pulse start. -/
def execTpoPulse (t n : Nat) (s : State) : Out :=
  let s := s.to t
  let w := (s.regGet (aTpo n + 0x10)).toNat
  match (s.tpoAt n).next with
  | none => .next s
  | some x => guardNext (decide (n < 8) && s.rbit (aTpo n) 31 && !s.tpoCfgErr n && w ≠ 0 &&
      decide (x ≤ s.selNs (s.rfld (aTpo n) 29 28))) s (fun s =>
    let nx := if s.rbit (aTpo n) 30 then some (x + (s.regGet (aTpo n + 0xC)).toNat) else none
    let s := s.updTpo n (fun _ => { active := true, endAt := some (s.now + (w + 1) / 2), next := nx, last := some x })
    s.setFld (aTpo n + 0x14) 31 16 (s.rfld (aTpo n + 0x14) 31 16 + 1))

/-- The level at the pin of a pulse output: active high, or low with INVERT set (R489). -/
def State.tpoPin (s : State) (n : Nat) : Bool := (s.tpoAt n).active != s.rbit (aTpo n) 27

/-- TPO_PULSE_END (R473). -/
def execTpoPulseEnd (t n : Nat) (s : State) : Out :=
  let s := s.to t
  guardNext (match (s.tpoAt n).endAt with | some e => decide (e ≤ s.now) | none => false) s (fun s =>
    s.updTpo n (fun x => { x with active := false, endAt := none }))

/-- TIME_CAPTURE (R475): the selected edge of an input at tick t; the input's latency is removed, so the value is that of the
clock at the edge. -/
def execTimeCapture (t c : Nat) (s : State) : Out :=
  let s := s.to t
  guardNext (decide (c < 4) && s.rbit (aCap c) 31 && s.mgmt.pow != .standby) s (fun s =>
    let v := s.clkSel (s.rfld (aCap c) 30 29)
    if 16 ≤ (s.tcapAt c).fifo.length then (s.bumpHi (aCap c + 0xC)).raise evTime 0
    else s.updTcap c (fun x => { fifo := x.fifo ++ [(v / secUnits % 2 ^ 32, v % secUnits / 2 ^ 32)] }))

/-! ### Clocks and the servo (R464, R468, R469) -/

/-- The nominal increment, 2 ns, and the bound SLEW_MAX sets on its change. -/
def nominalIncr : Int := 0x200000000
def State.slewBound (s : State) : Int := nominalIncr * ((s.regGet 0xC0014).toNat : Int) / 1000000000

/-- An increment within the clamp of R464, and whether it was clamped. -/
def State.clampIncr (s : State) (x : Int) : Nat × Bool :=
  let b := s.slewBound
  let y := clampInt (nominalIncr - b) (nominalIncr + b) x
  (y.toNat, y != x)

/-- The increment firmware's servo writes is not stated beyond its clamp: a free value. -/
def State.servoIncr (s : State) (d : Nat) : State :=
  let (i, c) := s.clampIncr (nominalIncr + s.free.toInt)
  let s := (s.drew).updDom d (fun x => { x with clk := clkRate x.clk s.now i })
  if c then s.raise evTime 2 else s

/-- The clock of the primary domain. -/
def State.primaryDom (s : State) : Dom := s.domAt (b2n s.tn.primary)

/-- LOCAL follows the primary (R469): towards it within SLEW_MAX, by a free value, until it lies within LOCK_NS. -/
def State.followPrimary (s : State) : State :=
  let p := s.primaryDom
  let diff : Int := (clkAt p.clk s.now : Int) - s.local
  let b := s.slewBound
  let lock : Int := ((s.regGet 0xC0018).toNat : Int) * 2 ^ 32
  let (lo, hi) := if 0 ≤ diff then (min (p.clk.incr : Int) (nominalIncr + b), nominalIncr + b)
    else (nominalIncr - b, max (p.clk.incr : Int) (nominalIncr - b))
  let i := if diff = 0 then (p.clk.incr : Int) else clampInt lo hi (p.clk.incr + s.free.toInt)
  let s := s.drew.updTn (fun x => { x with local_ := clkRate x.local_ s.now i.toNat })
  if diff.natAbs ≤ lock.natAbs then s.updTn (fun x => { x with slewing := false }) else s

/-- SLEWING (R469): until LOCAL lies within LOCK_NS of the new primary. -/
def State.slews (s : State) : Bool :=
  s.tn.slewing && decide ((s.regGet 0xC0018).toNat * 2 ^ 32 < ((clkAt s.primaryDom.clk s.now : Int) - s.local).natAbs)

/-- The primary in force changes (R469). -/
def State.setPrimary (s : State) (d : Bool) : State :=
  if s.tn.primary == d then s
  else (s.updTn (fun x => { x with primary := d, slewing := true })).followPrimary

/-- LOCK_NS, OUTLIER_NS in units of 2⁻³² ns. -/
def State.lockUnits (s : State) : Nat := (s.regGet 0xC0018).toNat * 2 ^ 32
def State.outlierUnits (s : State) : Nat := (s.regGet 0xC001C).toNat * 2 ^ 32

/-- A sample of a domain's offset from its master (R468). -/
def State.sample (s : State) (d : Nat) (ofs : Int) : State :=
  let x := s.domAt d
  let s := s.regSet (aDom d + 0x1C) (wordOf (codeOf 32 (clampInt (-2147483648) 2147483647 (Int.tdiv ofs (2 ^ 32)))))
  if x.st == .locked && decide (s.outlierUnits < ofs.natAbs) then
    let s := s.bumpLo (aDom d + 0x24)
    let n := x.outlier + 1
    s.updDom d (fun x => if 16 ≤ n then { x with st := .acquiring, outlier := 0, good := 0 } else { x with outlier := n })
  else
    let within := decide (ofs.natAbs ≤ s.lockUnits)
    let s := s.updDom d (fun x => { x with
      outlier := 0, lastSync := s.now, offset := ofs, good := if within then min (x.good + 1) 16 else 0 })
    let s := if x.st == .acquiring && !within then
        let old := s.selNs (d + 1)
        (s.updDom d (fun x => { x with clk := clkStep x.clk s.now ((clkAt x.clk s.now : Int) - ofs).toNat })).tpoStepped (d + 1) old
      else s.servoIncr d
    let s := if (x.st == .acquiring || x.st == .holdover) && (s.domAt d).good == 16 then
        (s.updDom d (fun x => { x with st := .locked })).raise evTime 5 else s
    if s.tn.primary == (d == 1) then s.followPrimary else s

/-! ### PTP messages (R467, R470 to R472) -/

/-- Domain d is tracked on a port. -/
def State.domOn (s : State) (d port : Nat) : Bool := s.rbit 0xC0000 0 && s.rbit (aDom d) 31 && wbit (s.regGet (aDom d)) (24 + port)

/-- Latency of a port towards the medium, 2⁻³² ns (R472). -/
def State.portLat (s : State) (port a : Nat) : Nat :=
  let w := s.regGet (aPort port + a)
  let fec := s.rbit (aPort port) 29 && !s.rbit (aPort port) 30
  (if fec then fld w 31 16 else fld w 15 0) * 2 ^ 29

/-- A message is discarded and counted (R471). -/
def State.ptpBad (s : State) (d : Nat) : State := s.bumpHi (aDom d + 0x24)

/-- A message arrives at a port: it is counted, and checked for its domain, version, length and timestamp field. -/
def State.ptpIn (s : State) (m : Sys2Proof.PtpMsg) : State × Option Nat :=
  if !s.portUp m.port then (s, none)
  else
    let s := s.bump (aPort m.port + 0x28)
    match [0, 1].find? (fun d => s.domOn d m.port && s.rfld (aDom d) 23 16 == m.domain) with
    | none => (s.bump (aPort m.port + 0x30), none)
    | some d =>
      if m.version ≠ 2 || !m.lenOk || decide (1000000000 ≤ m.ns) then (s.ptpBad d, none) else (s, some d)

/-- Receive time of a message in its domain's clock, 2⁻³² ns. -/
def State.ptpRx (s : State) (d : Nat) (m : Sys2Proof.PtpMsg) : Nat :=
  clkAt (s.domAt d).clk s.now + m.rx * 2 ^ 29 - s.portLat m.port 0x24

/-- The timestamp a message carries, 2⁻³² ns; its correctionField is in units of 2⁻¹⁶ ns. -/
def ptpTime (m : Sys2Proof.PtpMsg) : Nat := (m.sec * 1000000000 + m.ns) * 2 ^ 32
def ptpCorr (m : Sys2Proof.PtpMsg) : Int := m.corr * 2 ^ 16

/-- Sends a PTP frame on a port, or keeps it while transmission is halted. -/
def State.ptpSend (s : State) (port : Nat) (f : WireFrame) : State :=
  if s.portSends port then s.txFrame port f
  else if s.portUp port then s.updPort port (fun q => { q with ptpQ := q.ptpQ ++ [f] })
  else s

/-- Transmission of a port resumes: the PTP frames that waited leave. -/
def State.portResume (s : State) (port : Nat) : State :=
  if !s.portSends port then s
  else
    let l := (s.portAt port).ptpQ
    (s.updPort port (fun q => { q with ptpQ := [] })).each l (fun s f => s.txFrame port f)

/-- The message comes from the selected master. -/
def State.fromMaster (s : State) (d : Nat) (m : Sys2Proof.PtpMsg) : Bool := (s.domAt d).master == some (m.src, m.port)

/-- A completed Sync: its master-to-slave difference, and the sample it gives. -/
def State.syncDone (s : State) (d : Nat) (rx : Nat) (origin : Int) : State :=
  let ms := (rx : Int) - origin
  (s.updDom d (fun x => { x with ms := ms })).sample d (ms - (s.domAt d).delay)

/-- SYNC (R468). -/
def execSync (t : Nat) (msg : Sys2Proof.PtpMsg) (s : State) : Out :=
  let (s, o) := (s.to t).ptpIn msg
  match o with
  | none => .next s
  | some d =>
    if !s.fromMaster d msg then .next (s.ptpBad d)
    else
      let rx := s.ptpRx d msg
      .next (if msg.twoStep then s.updDom d (fun x => { x with
          pendSync := some { seq := msg.seq, port := msg.port, src := msg.src, rx := rx, at_ := s.now, corr := ptpCorr msg } })
        else s.syncDone d rx ((ptpTime msg : Int) + ptpCorr msg))

/-- The pending event message that a follow-up matches, within 1 s. -/
def ptpMatch (p : Option PtpPend) (m : Sys2Proof.PtpMsg) (now : Nat) : Option PtpPend :=
  match p with
  | some x => if x.seq = m.seq ∧ x.port = m.port ∧ x.src = m.src ∧ now ≤ x.at_ + 500000000 then some x else none
  | none => none

/-- FOLLOW_UP (R467); without its Sync it is an ORPHAN (R471). -/
def execFollowUp (t : Nat) (msg : Sys2Proof.PtpMsg) (s : State) : Out :=
  let (s, o) := (s.to t).ptpIn msg
  match o with
  | none => .next s
  | some d => match ptpMatch (s.domAt d).pendSync msg s.now with
    | none => .next (s.ptpBad d)
    | some p =>
      let s := s.updDom d (fun x => { x with pendSync := none })
      .next (s.syncDone d p.rx ((ptpTime msg : Int) + ptpCorr msg + p.corr))

/-- ANNOUNCE (R467, R471): the first one selects the domain's master; one from another port identity is FOREIGN. -/
def execAnnounce (t : Nat) (msg : Sys2Proof.PtpMsg) (s : State) : Out :=
  let (s, o) := (s.to t).ptpIn msg
  match o with
  | none => .next s
  | some d => match (s.domAt d).master with
    | none => .next (s.updDom d (fun x => { x with master := some (msg.src, msg.port), gm := msg.gm }))
    | some _ => .next (if s.fromMaster d msg then s.updDom d (fun x => { x with gm := msg.gm }) else s.ptpBad d)

/-- DELAY_RESP (R467): the answer to the Delay_Req in flight gives the mean path delay. -/
def execDelayResp (t : Nat) (msg : Sys2Proof.PtpMsg) (s : State) : Out :=
  let (s, o) := (s.to t).ptpIn msg
  match o with
  | none => .next s
  | some d =>
    let x := s.domAt d
    match x.reqTx with
    | some tx => .next (if x.reqSeq = msg.seq ∧ !s.rbit (aDom d) 29 then
        s.updDom d (fun x => { x with
          delay := Int.fdiv (x.ms + ((ptpTime msg : Int) - ptpCorr msg - tx)) 2, reqTx := none })
      else s)
    | none => .next s

/-- PDELAY_REQ (R467, R472): answered one-step, or two-step with a Pdelay_Resp_Follow_Up. -/
def execPdelayReq (t : Nat) (msg : Sys2Proof.PtpMsg) (s : State) : Out :=
  let (s, o) := (s.to t).ptpIn msg
  match o with
  | none => .next s
  | some d =>
    let rx := s.ptpRx d msg
    let s := s.ptpSend msg.port (.ptp d 3 msg.seq rx)
    .next (if s.rbit (aDom d) 28 then s
      else s.ptpSend msg.port (.ptp d 10 msg.seq (clkAt (s.domAt d).clk s.now + s.portLat msg.port 0x20)))

/-- PDELAY_RESP (R467): one-step it gives the path delay; two-step it waits for its follow-up. -/
def execPdelayResp (t : Nat) (msg : Sys2Proof.PtpMsg) (s : State) : Out :=
  let (s, o) := (s.to t).ptpIn msg
  match o with
  | none => .next s
  | some d =>
    let x := s.domAt d
    let rx := s.ptpRx d msg
    match x.reqTx with
    | some tx =>
      .next (if x.reqSeq ≠ msg.seq ∨ !s.rbit (aDom d) 29 then s
        else if msg.twoStep then s.updDom d (fun x => { x with
          pendPdelay := some { seq := msg.seq, port := msg.port, src := msg.src, rx := rx, at_ := s.now,
                               corr := ptpCorr msg - (ptpTime msg : Int) } })
        else s.updDom d (fun x => { x with delay := Int.fdiv ((rx : Int) - tx - ptpCorr msg) 2, reqTx := none }))
    | none => .next s

/-- PDELAY_RESP_FOLLOW_UP (R467, R471). -/
def execPdelayRespFollowUp (t : Nat) (msg : Sys2Proof.PtpMsg) (s : State) : Out :=
  let (s, o) := (s.to t).ptpIn msg
  match o with
  | none => .next s
  | some d => match ptpMatch (s.domAt d).pendPdelay msg s.now, (s.domAt d).reqTx with
    | some p, some tx => .next (s.updDom d (fun x => { x with
        delay := Int.fdiv ((p.rx : Int) - tx - ((ptpTime msg : Int) + ptpCorr msg + p.corr)) 2, reqTx := none, pendPdelay := none }))
    | _, _ => .next (s.ptpBad d)

/-- Sync interval of a domain, ticks. -/
def State.syncTicks (s : State) (d : Nat) : Nat :=
  let l := signedOf 8 (s.rfld (aDom d) 15 8)
  let l := if -7 ≤ l ∧ l ≤ 1 then l else 0
  if 0 ≤ l then 500000000 * 2 ^ l.toNat else 500000000 / 2 ^ (-l).toNat

/-- DOMAIN_HOLDOVER (R468, R469): no accepted Sync for 16 intervals. The master is given up, and with AUTO_SWITCH the other
domain, when LOCKED, becomes primary. -/
def execDomainHoldover (t d : Nat) (s : State) : Out :=
  let s := s.to t
  let x := s.domAt d
  guardNext (decide (d < 2) && (x.st == .acquiring || x.st == .locked) && decide (x.lastSync + 16 * s.syncTicks d ≤ s.now)) s (fun s =>
    let s := (s.updDom d (fun x => { x with st := .holdover, good := 0, outlier := 0, master := none })).raise evTime 4
    if s.rbit 0xC0000 2 && s.tn.primary == (d == 1) && (s.domAt (1 - d)).st == .locked then
      (s.setPrimary (d == 0)).raise evTime 3
    else s)

/-- DELAY_REQ (R467): Vyuri sends its own delay request towards the master and timestamps it. -/
def execDelayReq (t d : Nat) (s : State) : Out :=
  let s := s.to t
  match (s.domAt d).master with
  | none => .next s
  | some (_, port) => guardNext (decide (d < 2) && s.domOn d port && s.portSends port) s (fun s =>
      let seq := ((s.domAt d).reqSeq + 1) % 65536
      let tx := clkAt (s.domAt d).clk s.now + s.portLat port 0x20
      (s.updDom d (fun x => { x with reqSeq := seq, reqTx := some tx, pendPdelay := none })).txFrame port
        (.ptp d (if s.rbit (aDom d) 29 then 2 else 1) seq tx))

/-- ANNOUNCE_INTERVAL (R470): a LOCKED domain is announced, with the grandmaster it receives, and its Sync sent, on its
enabled ports where it has no master; a domain that lost its master sends nothing. -/
def execAnnounceInterval (t d : Nat) (s : State) : Out :=
  let s := s.to t
  match (s.domAt d).st, (s.domAt d).master with
  | .locked, some (_, mp) =>
    .next (s.each ((List.range 4).filter (fun p => p != mp && s.domOn d p && s.portUp p)) (fun s p =>
      let seq := (s.domAt d).reqSeq
      (s.ptpSend p (.ptp d 11 seq (s.domAt d).gm)).ptpSend p (.ptp d 0 seq (clkAt (s.domAt d).clk s.now))))
  | _, _ => .next s

/-! ### Ports -/

/-- A port's link goes up or down (R476). -/
def State.linkSet (s : State) (port : Nat) (up : Bool) : State :=
  if !s.hasPort port || (s.portAt port).link == up then s
  else
    (s.updPort port (fun q => { q with link := up, blockLock := up, fecLock := up, paused := q.paused && up })).raise aNetEvent 4

/-- LINK_CHANGE (R476): no link comes up without ETHCLK (R570). -/
def execLinkChange (t port : Nat) (up : Bool) (s : State) : Out :=
  let s := s.to t
  guardNext (!up || (s.mgmt.ethclk && s.mgmt.st != .boot && s.mgmt.pow != .standby)) s (fun s => s.linkSet port up)

/-- ARP_REQUEST (R478): a request for the port's address, from the given address. -/
def execArpRequest (t port ip mac : Nat) (s : State) : Out :=
  let s := s.to t
  guardNext (s.portUp port) s (fun s =>
    let s := s.bump (aPort port + 0x28)
    if s.portSends port then s.txFrame port (.arpReply ip mac) else s)

/-- ARP_REPLY (R478): the cache of 64 takes the entry, in place of the oldest when it is full. -/
def execArpReply (t port ip mac : Nat) (s : State) : Out :=
  let s := s.to t
  guardNext (s.portUp port) s (fun s =>
    (s.bump (aPort port + 0x28)).updPort port (fun q =>
      let l := q.arp.filter (fun e => e.ip != ip) ++ [{ ip := ip, mac := mac, age := s.now }]
      { q with arp := l.drop (l.length - 64), resolving := q.resolving.filter (fun w => w.ip != ip) }))

/-- ICMP_ECHO (R478). -/
def execIcmpEcho (t port ip : Nat) (bytes : List Byte) (s : State) : Out :=
  let s := s.to t
  guardNext (s.portUp port) s (fun s =>
    let s := s.bump (aPort port + 0x28)
    if 1472 < bytes.length then s.bump (aPort port + 0x30)
    else
      let q := s.portAt port
      let (n, f) := if q.icmpFrom + 500000000 ≤ s.now ∨ q.icmp = 0 then (0, s.now) else (q.icmp, q.icmpFrom)
      if 100 ≤ n ∨ !s.portSends port then s
      else (s.updPort port (fun q => { q with icmp := n + 1, icmpFrom := f })).txFrame port (.icmpReply ip bytes))

/-- PAUSE_FRAME (R477). -/
def execPauseFrame (t port quanta : Nat) (s : State) : Out :=
  let s := s.to t
  guardNext (s.portUp port) s (fun s =>
    let s := (s.bump (aPort port + 0x28)).bump (aPort port + 0x34)
    if !s.rbit (aPort port) 28 then s
    else if quanta ≠ 0 then s.updPort port (fun q => { q with paused := true })
    else (s.updPort port (fun q => { q with paused := false })).portResume port)

/-- PAUSE_EXPIRED (R477). -/
def execPauseExpired (t port : Nat) (s : State) : Out :=
  .next (((s.to t).updPort port (fun q => { q with paused := false })).portResume port)

/-- DROPPED_FRAME (R478). -/
def execDroppedFrame (t port : Nat) (s : State) : Out :=
  let s := s.to t
  guardNext (s.portUp port) s (fun s => (s.bump (aPort port + 0x28)).bump (aPort port + 0x30))

/-- NET_STALL_END (R583): the stall of a port's 10 ms is over. -/
def execNetStallEnd (t port : Nat) (s : State) : Out := .next ((s.to t).portResume port)

/-- ARP_RETRY (R478): 1 s after a request without answer it is repeated, three times in all; then it is given up, and
the next record bound for the address asks anew. -/
def execArpRetry (t port ip : Nat) (s : State) : Out :=
  let s := s.to t
  match (s.portAt port).resolving.find? (fun w => w.ip == ip) with
  | none => .next s
  | some w => guardNext (decide (w.at_ + 500000000 ≤ s.now)) s (fun s =>
      if 4 ≤ w.tries then
        s.updPort port (fun q => { q with resolving := q.resolving.filter (fun w => w.ip != ip) })
      else
        let s := s.updPort port (fun q => { q with
          resolving := q.resolving.map (fun w => if w.ip == ip then { w with tries := w.tries + 1, at_ := s.now } else w) })
        if s.portSends port then s.txFrame port (.arpRequest ip) else s)

/-- ARP_AGE_OUT (R478): an entry is 300 s old. -/
def execArpAgeOut (t port ip : Nat) (s : State) : Out :=
  .next ((s.to t).updPort port (fun q => { q with
    arp := q.arp.filter (fun e => !(e.ip == ip && decide (e.age + 150000000000 ≤ (s.to t).now))) }))

/-! ### Result records -/

/-- Takes the entries of one result ring (R483). -/
def State.pollRing (s : State) (d : Nat) : State :=
  let w := s.regGet (0xD0030 + 4 * d)
  let base := fld w 27 6 * 64
  if !wbit w 0 then s
  else
    let prod := s.lin d base 4
    let cons := s.lin d (base + 4) 4
    let n := (prod + 2 ^ 32 - cons) % 2 ^ 32
    let s := s.linSt d (base + 4) 4 prod
    if 1024 < n then (s.bump 0xD0024).raise aNetEvent 1
    else s.each (List.range n) (fun s k =>
      let a := base + 64 + (cons + k) % 1024 * 64
      if s.lin d a 1 = 1 then s.emit 1 d (s.ldBytes (memKey (spLintel d) (a + 8)) 56)
      else (s.bump 0xD0024).raise aNetEvent 1)

/-- RESULT_RING_POLL (R483). -/
def execResultRingPoll (t : Nat) (s : State) : Out := .next ((s.to t).each s.dies State.pollRing)

/-- The records waiting in a stream's buffer are discarded and counted. -/
def State.dropBuffer (s : State) (n : Nat) : State :=
  let k := (s.dstAt n).buf.length
  if k = 0 then s else ((s.updDst n (fun d => { d with buf := [] })).loseRecs n k)

/-- DATAGRAM_FLUSH (R480): FLUSH_US after the first record of a stream's buffer. No record is held back for a port that is
down. -/
def execDatagramFlush (t stream : Nat) (s : State) : Out :=
  let s := s.to t
  let d := s.dstAt stream
  let us := s.rfld (aDst stream) 15 0
  let us := if us = 0 then 100 else us
  guardNext (decide (stream < 4) && !d.buf.isEmpty && decide (d.first + 500 * us ≤ s.now)) s (fun s =>
    if s.portUp (s.dstPort stream) then s.flushDst stream else (s.dropBuffer stream).raiseQuiet 0)

/-- A domain state's code (R488). -/
def DomState.code : DomState → Nat
  | .off => 0 | .acquiring => 1 | .locked => 2 | .holdover => 3

/-- HEARTBEAT (R485). -/
def execHeartbeat (t : Nat) (s : State) : Out :=
  let s := s.to t
  let ms := s.rfld 0xD001C 15 0
  guardNext (ms ≠ 0 && s.mgmt.pow != .standby && decide (s.tn.lastHb + 500000 * ms ≤ s.now)) s (fun s =>
    let body := le64 s.sp ++ leBytes 8 s.time64 ++ leBytes 4 (codeOf 32 (clampInt (-2147483648) 2147483647 s.course.speed)) ++
      leBytes 4 s.vlimit ++ leBytes 1 s.bond.st.code ++ leBytes 1 s.bond.variant ++ leBytes 1 (s.domAt 0).st.code ++
      leBytes 1 (s.domAt 1).st.code ++ leBytes 1 (s.plumbStatus % 256) ++ leBytes 3 0 ++ leBytes 4 (s.regGet 0x70054).toNat ++
      leBytes 4 (s.regGet 0x70058).toNat
    (s.updTn (fun x => { x with lastHb := s.now })).emit 7 0xFF body)

/-! ### What register writes do -/

/-- SET_LOCAL (R465): LOCAL takes the set value of a domain, on the next tick. -/
def State.setLocal (s : State) (d : Nat) : State × Nat :=
  let ns := (s.regGet (aDom d + 0x30)).toNat
  if s.planRuns then (s, 0x0201)
  else if 1000000000 ≤ ns then (s, 0x020A)
  else
    let old := s.selNs 0
    let s := s.to (s.now + 1)
    let sec := (s.regGet (aDom d + 0x28)).toNat + 2 ^ 32 * s.rfld (aDom d + 0x2C) 15 0
    let v := (sec * 1000000000 + ns) * 2 ^ 32
    ((s.updTn (fun x => { x with local_ := clkStep x.local_ s.now v })).tpoStepped 0 old, 0)

/-- TIME_CMD (R488). -/
def State.timeCmd (s : State) (v : Nat) : State × Nat :=
  match v with
  | 1 => s.setLocal 0
  | 2 => s.setLocal 1
  | 3 =>
    let s := s.each [0, 1] (fun s d => s.regSet (aDom d + 0x24) 0#32)
    let s := s.each (List.range 8) (fun s n => s.regSet (aTpo n + 0x14) 0#32)
    (s.each (List.range 4) (fun s c => s.setFld (aCap c + 0xC) 31 16 0), 0)
  | _ => (s, 0)

/-- NET_CMD (R490). -/
def State.netCmd (s : State) (v : Nat) : State :=
  if v ≠ 1 then s
  else
    let s := (s.regSet 0xD0018 0#32).regSet 0xD0024 0#32
    let s := s.each (List.range 4) (fun s p => s.each [0x28, 0x2C, 0x30, 0x34, 0x38] (fun s o => s.regSet (aPort p + o) 0#32))
    s.each (List.range 4) (fun s n => s.regSet (aDst n + 0x10) 0#32)

/-- A domain's EN is set or cleared (R468). -/
def State.domEn (s : State) (d : Nat) (on : Bool) : State :=
  s.updDom d (fun x =>
    if on then { x with st := .acquiring, lastSync := s.now, good := 0, outlier := 0, master := none, pendSync := none, reqTx := none }
    else { x with st := .off, master := none, clk := clkRate x.clk s.now 0x200000000 })

/-- EN of a stream changes (R480). -/
def State.dstEn (s : State) (n : Nat) (on : Bool) : State :=
  if on then s.updDst n (fun d => { d with seq := 0, lost := 0 }) else s.dropBuffer n

/-- A read of TIME_CAPc_SEC pops the oldest capture (R475): its value, and its nanoseconds as the snapshot. -/
def State.capPop (s : State) (c : Nat) : Word × State :=
  let a := aCap c + 8
  let snap (s : State) (w : Word) : State := { s with snaps := (a, w) :: s.snaps.filter (fun p => p.1 != a) }
  match (s.tcapAt c).fifo with
  | [] => (0xFFFFFFFF#32, snap s 0xFFFFFFFF#32)
  | (sec, ns) :: l => (wordOf sec, snap (s.updTcap c (fun _ => { fifo := l })) (wordOf ns))

/-- Seconds low and high, nanoseconds and fraction of a clock. -/
def clkWord (v : Nat) (k : Nat) : Word :=
  match k with
  | 0 => wordOf (v / secUnits)
  | 1 => wordOf (v / secUnits / 2 ^ 32 % 65536)
  | 2 => wordOf (v % secUnits / 2 ^ 32)
  | _ => wordOf (v % 2 ^ 32)

/-- The read-only registers of TIME that show the present state. -/
def timeView (s : State) (o : Nat) : Option Word :=
  let x := s.tn
  if o = 4 then some (wordOf (4 * b2n (s.primaryDom.st == .locked && !s.slews) + 2 * b2n x.primary + b2n s.slews))
  else if 0x20 ≤ o ∧ o ≤ 0x2C then some (clkWord s.local ((o - 0x20) / 4))
  else if o = 0x30 then some (wordOf x.local_.incr)
  else if o = 0x34 then some (wordOf (x.local_.incr / 2 ^ 32))
  else if 0x40 ≤ o ∧ o < 0xC0 then
    let d := (o - 0x40) / 0x40
    let y := s.domAt d
    let k := (o - 0x40) % 0x40
    if 4 ≤ k ∧ k ≤ 0x10 then some (clkWord (clkAt y.clk s.now) ((k - 4) / 4))
    else if k = 0x14 then some (wordOf y.clk.incr)
    else if k = 0x18 then some (wordOf (y.clk.incr / 2 ^ 32))
    else if k = 0x20 then some (wordOf ((match y.master with | some (_, p) => p * 65536 | none => 0) + y.st.code))
    else none
  else match arrIdx o 0x200 0x10 4 with
    | some c =>
      let r := (s.tcapAt c).fifo
      if o % 16 = 4 then some (match r with | (sec, _) :: _ => wordOf sec | [] => 0xFFFFFFFF#32)
      else if o % 16 = 8 then some (match r with | (_, ns) :: _ => wordOf ns | [] => 0xFFFFFFFF#32)
      else if o % 16 = 0xC then some (wordOf (s.rfld (aCap c + 0xC) 31 16 * 65536 + r.length))
      else none
    | none => none

/-- Bits that TIME ORs into its registers: CFG_ERR of the pulse outputs. -/
def timeOr (s : State) (o : Nat) : Word :=
  match arrIdx o 0x100 0x20 8 with
  | some n => if o % 0x20 = 0 && s.tpoCfgErr n then 0x04000000#32 else 0#32
  | none => 0#32

/-- The read-only registers of NET that show the present state. -/
def netView (s : State) (o : Nat) : Option Word :=
  if o = 4 then some (wordOf ((List.range 4).map (fun p => b2n (s.hasPort p && s.rbit (aPort p) 31 && (s.portAt p).link) * 2 ^ p)).sum)
  else match arrIdx o 0x100 0x100 4, arrIdx o 0x800 0x20 4 with
    | some p, _ =>
      let q := s.portAt p
      let up := s.hasPort p && s.rbit (aPort p) 31
      if o % 0x100 = 4 then some (wordOf (4 * b2n (up && q.fecLock && s.rbit (aPort p) 29 && !s.rbit (aPort p) 30) + 2 * b2n (up && q.blockLock) + b2n (up && q.link))) else none
    | none, some n => if o % 0x20 = 0xC then some (wordOf (s.dstAt n).seq) else none
    | none, none => none

end Sys2Proof.Machine
end

