-- ==== Sys2Proof/Machine/Views.lean ====
section
/-!
DEFINITION. Reading a register: those that show the present state are formed when read, the others are stored (R13, R15,
R35, and the register tables of each chapter); snapshots (R599).
-/
namespace Sys2Proof.Machine

/-- MGMT_STATE [2:0]. -/
def DevState.code : DevState → Nat
  | .boot => 0 | .starting => 1 | .ready => 2 | .failed => 3

/-- MGMT_STATE [5:4]. -/
def PowState.code : PowState → Nat
  | .run => 0 | .idle => 1 | .hold => 2 | .standby => 3

/-- Commands deferred: those that wait and those whose transfer has not replied (R500). -/
def State.deferredCnt (s : State) : Nat :=
  let x := s.sdio
  x.deferred.length + x.inQ.length + (if x.inAct.isSome then 1 else 0) + x.checks.length + x.outQ.length

/-- Violations of a client in the last second. -/
def State.violNow (s : State) (c : Nat) : List Nat := (lget [] s.sdio.viol c).filter (fun t => decide (s.now < t + 500000000))

/-- Four flags as a nibble, slot 0 in bit 0. -/
def nibble (l : List Bool) : Nat := ((l.zip [1, 2, 4, 8]).map (fun p => b2n p.1 * p.2)).sum

/-- MGMT registers that are not stored (R521, R522). -/
def State.mgmtView (s : State) (o : Nat) : Option Nat :=
  let m := s.mgmt
  let x := s.sdio
  match o with
  | 0x0 => some ((if s.part == .vyu4140 then 0x4140 else 0x2140) * 65536 + b2n m.ext * 32768 + 0xB1)
  | 0x4 => some (m.serial % 2 ^ 32)
  | 0x8 => some (m.serial / 2 ^ 32 % 2 ^ 32)
  | 0xC => some m.fwVersion.toNat
  | 0x10 => some (b2n s.test.mode * 256 + m.pow.code * 16 + m.st.code)
  | 0x30 => some (b2n x.tuned * 1024 + b2n x.bus4 * 512 + b2n x.v18 * 256 + x.mode)
  | 0x38 => some ((x.inQ.length + b2n x.inAct.isSome) % 16 * 256 + s.deferredCnt % 16)
  | 0x80 => some (x.violLog.length * 65536 + x.evLog.length)
  | _ => (arrIdx o 0x40 4 16).map (fun c => s.rfld (0x40 + 4 * c) 31 16 * 65536 + min 255 ((s.violNow c).filter (fun t => decide (x.violFrom < t))).length)

/-- SEC_STATUS (R525). -/
def State.secStatus (s : State) : Nat :=
  let m := s.mgmt
  nibble (m.fwKeys.map (·.hash.isSome)) * 2 ^ 28 + nibble (m.fwKeys.map (·.revoked)) * 2 ^ 24 +
    nibble (m.ownerKeys.map (·.hash.isSome)) * 2 ^ 20 + nibble (m.ownerKeys.map (·.revoked)) * 2 ^ 16 + m.fwSlot % 4 * 256 +
    b2n (m.ownerSig || m.ownerSigFuse) * 16 + b2n m.debugLock * 8 + b2n m.splitFuse * 4 + b2n m.splitStrap * 2

/-- The public half of the device identity key, once firmware has derived it (R518). -/
def State.deviceKey (s : State) : List Byte := if s.mgmt.fwDigest.isEmpty then [] else edPublic Config.deviceSeed

/-- SEC registers that are not stored (R524). -/
def State.secView (s : State) (o : Nat) : Option Nat :=
  let dig (l : List Byte) (base : Nat) : Option Nat := some (leAt l (o - base) 4)
  if o = 0 then some s.secStatus
  else if 0x40 ≤ o ∧ o < 0x60 then dig s.deviceKey 0x40
  else if 0x80 ≤ o ∧ o < 0xC0 then dig s.mgmt.fwDigest 0x80
  else if 0xC0 ≤ o ∧ o < 0x100 then dig s.bond.digest 0xC0
  else if 0x100 ≤ o ∧ o < 0x140 then dig (match s.plumb.image with
    | some r => r.digest
    | none => []) 0x100
  else none

/-- TEST registers that are not stored (R595). -/
def State.testView (s : State) (o : Nat) : Option Nat :=
  if o = 0 then some (b2n s.test.mode * 256 + ((List.range 5).map (fun i => b2n (s.rbit (injReg i) 31) * 2 ^ i)).sum)
  else match arrIdx o 0x80 4 4, arrIdx o 0x100 4 24 with
    | some d, _ =>
      let used := (s.mt.spareUsed.filter (fun p => decide (1024 + spCore d 0 * 32 ≤ p.1) && decide (p.1 < 1024 + spCore (d + 1) 0 * 32))).map (·.2)
      some (used.sum * 65536 + 3328)
    | _, some n => some (lget 0#32 s.test.snap n).toNat
    | _, _ => none

/-- The value of a register that shows the present state. -/
def State.liveView (s : State) (a : Nat) : Option Word :=
  let o := tableOff a
  let w (x : Option Nat) : Option Word := x.map wordOf
  match a / 65536 with
  | 0 => w (s.mgmtView o)
  | 1 => courseView s o
  | 2 => acqView s o
  | 3 => w (s.fabricView (windowOf a) o)
  | 4 => w (s.streamView (windowOf a) o)
  | 5 => w (s.kvView (windowOf a) o)
  | 6 => w (s.memView o)
  | 7 => w (s.bondView o)
  | 8 => servoView s o
  | 9 => qpView s o
  | 10 => motionView s o
  | 11 => w (s.plumbView o)
  | 12 => timeView s o
  | 13 => netView s o
  | 14 => w (s.powerView o)
  | 15 => w (s.testView o)
  | 16 => w (s.secView o)
  | _ => none

/-- Bits that a stored register shows beside its fields. -/
def State.orView (s : State) (a : Nat) : Word :=
  match a / 65536 with
  | 1 => courseOr s (tableOff a)
  | 12 => timeOr s (tableOff a)
  | _ => 0#32

/-- What a register of an absent resource reads as (R2): STATE ABSENT for MEM_QCHc_STATUS (R313), else 0. -/
def absentVal (a : Nat) : Word := if 0x60180 ≤ a ∧ a < 0x60200 ∧ a % 16 = 0 then 4#32 else 0#32

/-- The live value of a register (R13): 0 where no register stands, where the part has no such resource, and where it is write-only. -/
def State.liveReg (s : State) (a : Nat) : Word :=
  if absentReg s.part a then absentVal a
  else match rowOf a with
    | none => 0#32
    | some r =>
      if r.wo then 0#32
      else
        let a := canonAddr a
        match s.liveView a with
        | some w => w
        | none => s.regGet a ||| s.orView a

/-- A read of a register: it consumes a snapshot the register has, and takes those of its partners (R599). -/
def State.readReg (s : State) (a : Nat) : Word × State :=
  let c := canonAddr a
  match s.snaps.find? (fun p => p.1 == c) with
  | some p => (p.2, { s with snaps := s.snaps.filter (fun q => q.1 != c) })
  | none =>
    if absentReg s.part a then (absentVal a, s)
    else match arrIdx c 0xC0204 0x10 4 with
      | some i => if c = 0xC0204 + 0x10 * i then s.capPop i else (s.liveReg a, s)
      | none =>
        let ps := snapPartners c
        (s.liveReg a, if ps.isEmpty then s else
          { s with snaps := ps.map (fun p => (p, s.liveReg p)) ++ s.snaps.filter (fun q => !ps.contains q.1) })

/-- A read of n registers from an address, in increasing address. -/
def State.readRegs (s : State) (a : Nat) : Nat → List Word × State
  | 0 => ([], s)
  | n + 1 =>
    let (w, s) := s.readReg a
    let (ws, s) := s.readRegs (a + 4) n
    (w :: ws, s)

end Sys2Proof.Machine
end

