-- ==== Sys2Proof/Machine/Test.lean ====
section
/-!
DEFINITION. The TEST block: test mode, arming, delivering, cancelling and expiring injections, the totals of the error
counters (R581 to R588, R595 to R597).
-/
namespace Sys2Proof.Machine

/-! ### Arming (R585 to R587, R596) -/

/-- The injection is being delivered: a PERSIST in force, a LOS that has begun. -/
def State.injBegun (s : State) (i : Nat) : Bool :=
  (i == 1 && (s.injAt 1).left == 0) || (i == 4 && s.rfld 0xF0064 27 24 == 2 && (s.injAt 4).left == 1)

/-- The injected LOS ends at its input. -/
def State.losEnd (s : State) : State := s.updEnc (s.rfld 0xF0064 30 28) (fun e => { e with los := false })

/-- An injection is cancelled: ARM clears; a PERSIST flip is repeated no longer, and an injected LOS that has begun ends. -/
def State.injCancel (s : State) (i : Nat) : State :=
  let s := if i = 4 ∧ s.injBegun 4 = true then s.losEnd else s
  (s.regSet (injReg i) (s.regGet (injReg i) &&& 0x7FFFFFFF#32)).updTest (fun x => { x with
    inj := lmod x.inj i (fun _ => {}), persist := if i = 1 then [] else x.persist })

/-- INJ_EXPIRED is counted and raised. -/
def State.injExpire (s : State) (i : Nat) : State :=
  let s := s.injCancel i
  (s.setFld 0xF0014 15 0 (s.rfld 0xF0014 15 0 + 1)).raise evTest 3

/-- The value gives an injection: no reserved KIND, TARGET or BITS. -/
def injKindOk (i : Nat) (w : Word) : Bool :=
  let among (k n : Nat) : Bool := decide (1 ≤ k) && decide (k ≤ n)
  match i with
  | 0 => among (fld w 19 16) 6
  | 1 => among (fld w 29 28) 2 && decide (fld w 26 24 ≤ 2)
  | 2 => among (fld w 27 24) 4
  | 3 => among (fld w 27 24) 2
  | _ => among (fld w 27 24) 3

/-- The injection can leave a unit FAILED or EXCLUDED (R586). -/
def injPermanent (i : Nat) (w : Word) : Bool :=
  match i with
  | 1 => wbit w 30 || (fld w 29 28 == 2 && (fld w 26 24 == 1 || fld w 26 24 == 2))
  | 2 => fld w 27 24 == 1 || fld w 27 24 == 4
  | _ => false

/-- Why arming is refused with REFUSED_STATE: R586, and R587 for Plumb. -/
def State.injRefused (s : State) (i : Nat) (w : Word) : Bool :=
  (injPermanent i w && !s.rbit 0xF0010 0) ||
    (i == 2 && (s.restarting || s.plumb.st == .failed || s.plumb.st == .lockout || s.plumb.st == .split))

/-- What is to be delivered: lines, watches, 1, or 2 for a LOS that has not begun. -/
def injCount (i : Nat) (w : Word) : Nat :=
  match i with
  | 0 => max 1 (fld w 15 0)
  | 3 => max 1 (fld w 15 0)
  | 4 => if fld w 27 24 = 2 then 2 else 1
  | _ => 1

/-- The stored 64-bit word that TEST_INJ_MEM selects, where the part has it: of Lintel the word of an offset, of a core store
that of an address, of Quarry the data word whose data or check bytes (R292) hold the device byte address. -/
def State.injWord (s : State) (w : Word) : Option Nat :=
  let a := (s.regGet 0xF0058).toNat
  let d := fld w 23 22
  match fld w 26 24 with
  | 0 => if s.hasDie d && decide (a < 2 ^ 28) then some (memKey (spLintel d) (a / 8 * 8)) else none
  | 1 => if s.hasDie d && decide (fld w 21 16 < 52) && decide (a < 2 ^ 21) then
      some (memKey (spCore d (fld w 21 16)) (a / 8 * 8)) else none
  | _ =>
    let c := fld w 3 0
    let b := a % 2 ^ 29
    let g := b / 72
    let i := if b % 72 < 64 then b % 72 / 8 else b % 72 - 64
    if c < s.nQch ∧ b < s.qslots c * 73728 then some (memKey (spQuarry c) (a / 2 ^ 31 * 2 ^ 31 + g * 64 + i * 8)) else none

/-- BITS data bits of a word, whichever they are: the spec names none. -/
def flipMask (bits : Nat) (free : Word) : Nat :=
  let a := free.toNat % 64
  2 ^ a + (if bits = 2 then 2 ^ ((a + 1 + free.toNat / 64 % 63) % 64) else 0)

/-- Flips a word's bits. -/
def State.flip (s : State) (k m : Nat) : State :=
  let old := match s.mt.flips.find? (fun f => f.1 == k) with
    | some f => f.2
    | none => 0
  let new := old ^^^ m
  s.updMt (fun x => { x with flips := (if new = 0 then [] else [(k, new)]) ++ x.flips.filter (fun f => f.1 != k) })

/-- TEST_INJ_MEM is delivered at once; with PERSIST it stays armed. An address of no word of the part is no target, and the
injection expires. -/
def State.injMemory (s : State) (w : Word) : State :=
  match s.injWord w with
  | none => s
  | some k =>
    let m := flipMask (fld w 29 28) s.free
    let s := (s.drew.flip k m).updTest (fun x => { x with
      persist := if wbit w 30 then [(k, m)] else x.persist, inj := lmod x.inj 1 (fun y => { y with left := 0 }) })
    s.delivered 1

/-- A write of an injection register (R585): the new state, and the status. -/
def State.injWrite (s : State) (i : Nat) (w : Word) : State × Nat :=
  let a := injReg i
  if !s.test.mode then (s, 0x0203)
  else if !wbit w 31 then
    ((if s.rbit a 31 then s.injCancel i else s).regSet a w, 0)
  else if s.rbit a 31 then (s, 0x0401)
  else if !injKindOk i w then ((s.regSet a w).injExpire i, 0)
  else if s.injRefused i w then (s, 0x0203)
  else
    let s := (s.regSet a w).updInj i (fun _ => { armed := true, at_ := s.now, left := injCount i w })
    (if i = 1 then s.injMemory w else s, 0)

/-! ### Delivery and expiry -/

/-- TEST_INJ_COURSE: DUR samples of an error on an input, or the start or the end of an injected LOS. -/
def State.injCourse (s : State) : State :=
  let w := s.regGet 0xF0064
  let n := fld w 30 28
  let dur := max 1 (fld w 15 0)
  let x := s.injAt 4
  if fld w 27 24 ≠ 2 then ((List.range dur).foldl (fun s _ => s.encError n) s).delivered 4
  else if x.left = 2 then
    let s := (s.updEnc n (fun e => { e with los := true })).updInj 4 (fun y => { y with left := 1, at_ := s.now })
    if s.rbit (aEnc n) 18 then (s.bump (aEnc n + 0xC)).encFault n else s
  else if x.at_ + 500 * dur ≤ s.now then s.losEnd.delivered 4
  else s

/-- INJECTION_DELIVERED (R585, R587): the injection into an encoder input, from the tick after arming. The others are
delivered where their target is: a line (CXP_PACKET), the write that arms it (INJ_MEM), a round boundary (PLUMB_ROUND), a
watch that opens; of those the command only says that time has passed. -/
def execInjectionDelivered (t inj : Nat) (s : State) : Out :=
  let s := s.to t
  guardNext (inj == 4 && (s.injAt 4).armed && decide ((s.injAt 4).at_ < s.now)) s State.injCourse

/-- INJ_EXPIRED (R585): not delivered within 1 s of arming. -/
def execInjExpired (t inj : Nat) (s : State) : Out :=
  let s := s.to t
  let x := s.injAt inj
  guardNext (decide (inj < 5) && x.armed && !s.injBegun inj && decide (x.at_ + 500000000 ≤ s.now)) s (fun s => s.injExpire inj)

/-! ### Test mode and TEST_CMD (R581, R582, R588, R597) -/

/-- Every armed injection is cancelled and every PERSIST ends. -/
def State.disarm (s : State) : State :=
  s.each (List.range 5) (fun s i => if s.rbit (injReg i) 31 then s.injCancel i else s)

/-- The perturbation and injection registers. -/
def testRegs : List Nat :=
  [0xF0020, 0xF0024, 0xF0028, 0xF002C, 0xF0030, 0xF0034, 0xF0038, 0xF003C, 0xF0040, 0xF0044, 0xF0050, 0xF0054, 0xF0058,
   0xF005C, 0xF0060, 0xF0064]

/-- Enters or leaves test mode. -/
def State.testMode (s : State) (on : Bool) : State :=
  let s := if on || !s.test.mode then s else s.disarm.each testRegs (fun s a => s.regSet a 0#32)
  s.updTest (fun x => { x with mode := on })

/-- The counters a total of R588 sums: addresses, and the fields as (high, low). -/
def State.snapOf (s : State) (n : Nat) : List Nat × List (Nat × Nat) :=
  let arr (base stride k : Nat) : List Nat := (List.range k).map (fun i => base + stride * i)
  let all := [(31, 0)]
  let hi := [(31, 16)]
  let lo := [(15, 0)]
  match n with
  | 0 => (arr 0x1010C 0x10 8, all)
  | 1 => (arr 0x20120 0x40 s.nGrp, all)
  | 2 => (arr 0x2012C 0x40 s.nGrp, all)
  | 3 => (arr 0x20128 0x40 s.nGrp, hi)
  | 4 => (arr 0x20134 0x40 s.nGrp, lo)
  | 5 => (arr 0x60048 0x10 s.nDie, hi)
  | 6 => (arr 0x60048 0x10 s.nDie, lo)
  | 7 => (arr (bFabric 0 + 0x30) 0x4000 s.nDie, hi)
  | 8 => (arr (bFabric 0 + 0x30) 0x4000 s.nDie, lo)
  | 9 => (arr 0x60108 0x10 s.nQch, hi)
  | 10 => (arr 0x60108 0x10 s.nQch, lo)
  | 11 => ([0xB0018], all)
  | 12 => ([0xB003C], lo)
  | 13 => (arr 0xB0108 0x10 8, hi)
  | 14 => ([0x7004C], all)
  | 15 => ([0x70044], all)
  | 16 => ([0x70048], all)
  | 17 => (arr 0xD0130 0x100 (if s.part == .vyu4140 then 4 else 2), all)
  | 18 => (arr 0xD0810 0x20 4, all)
  | 19 => (arr 0xC0064 0x40 2, hi ++ lo)
  | 20 => (arr 0x40 4 16, hi)
  | 21 => ([0x60038], all)
  | 22 => (arr (bStream 0 + 0x2C) 0x4000 s.nDie, all)
  | _ => (arr (bKv 0 + 0x74) 0x4000 s.nDie, all)

/-- A total of R588, saturated. -/
def State.snapSum (s : State) (n : Nat) : Word :=
  let (addrs, flds) := s.snapOf n
  wordOf (min m32 ((addrs.map (fun a => (flds.map (fun f => fld (s.liveReg a) f.1 f.2)).sum)).sum))

/-- A write of TEST_CMD. -/
def State.testCmd (s : State) (v : Word) : State :=
  match v.toNat with
  | 1 => s.updTest (fun x => { x with snap := (List.range 24).map s.snapSum })
  | 2 => s.disarm
  | 3 => (s.regSet 0xF0014 0#32).updTest (fun x => { x with snap := List.replicate 24 0#32 })
  | _ => s

end Sys2Proof.Machine
end

