-- ==== Sys2Proof/Machine/Regs.lean ====
section
/-!
DEFINITION. Writing a register (R13 to R15, R34, R35, R506, R544, R581), what a write starts (the command registers and the
enables of each chapter), and REG_MODIFY (R509).
-/
namespace Sys2Proof.Machine

/-! ### Command registers -/

/-- A write of SEC_CMD (R526). -/
def State.secCmd (s : State) (v : Word) : State × Nat :=
  if v = 1#32 then
    if s.planRuns then (s, 0x0201) else (s.updMgmt (fun m => { m with ownerSig := true }), 0)
  else (s, 0)

/-- A write of MGMT_CMD (R523). -/
def State.mgmtCmd (s : State) (v : Word) : State :=
  match v.toNat with
  | 1 =>
    let s := (s.regSet 0x34 0#32).regSet 0x3C 0#32
    (s.each (List.range 16) (fun s c => s.regSet (0x40 + 4 * c) 0#32)).updSdio (fun x => { x with violFrom := s.now })
  | 2 => s.updSdio (fun x => { x with violLog := [], evLog := [] })
  | _ => s

/-- A write of a command register. -/
def State.cmdWrite (s : State) (a : Nat) (v : Word) : State × Nat :=
  match a / 65536 with
  | 0 => (s.mgmtCmd v, 0)
  | 1 => s.courseCmd v.toNat
  | 3 => (s.fabricCmd (windowOf a) v.toNat, 0)
  | 4 => (s.streamCmd (windowOf a) v.toNat, 0)
  | 5 => (s.kvCmd (windowOf a) v.toNat, 0)
  | 6 => (s.memCmd v.toNat, 0)
  | 7 => (s.bondCmd v, 0)
  | 8 => (s.servoCmd v, 0)
  | 9 => (s.qpCmd v, 0)
  | 10 => (s.motionCmd v, 0)
  | 11 => (s.plumbCmd v, 0)
  | 12 => s.timeCmd v.toNat
  | 13 => (s.netCmd v.toNat, 0)
  | 14 => (s.powerCmd v, 0)
  | 15 => (s.testCmd v, 0)
  | 16 => s.secCmd v
  | _ => (s, 0)

/-! ### Fields -/

/-- The value a write leaves in a register: RW and RWL bits as written, W1C bits cleared where 1 is written, the others as they
are. -/
def writeVal (r : RegRow) (old v : Word) : Word :=
  let m := BitVec.ofNat 32 (r.rw ||| r.rwl)
  let c := BitVec.ofNat 32 r.w1c
  (old &&& ~~~m &&& ~~~(c &&& v)) ||| (v &&& m)

/-- The write would change an RWL field (R14). -/
def writeLocks (r : RegRow) (old v : Word) : Bool :=
  let m := BitVec.ofNat 32 r.rwl
  (old &&& m) != (v &&& m)

/-- What LOCKOUT and FAILED lock (R506): RULES_EN, PLUMB_FBt_CFG and PLUMB_FBt_VAL. -/
def safetyMask (a : Nat) : Word :=
  if a = 0xB0010 then 1#32 else if 0xB1000 ≤ a ∧ a < 0xB1280 then 0xFFFFFFFF#32 else 0#32

/-- The write is refused SAFETY_LOCKOUT. -/
def State.safetyLocks (s : State) (a : Nat) (old new : Word) : Bool :=
  (s.plumb.st == .lockout || s.plumb.st == .failed) && (old &&& safetyMask a) != (new &&& safetyMask a)

/-! ### What a write starts -/

/-- Configuration errors that raise the CFG_ERR of their block: its event register, bit, and whether the error is present. -/
def State.cfgErrs (s : State) (b : Nat) : List (Nat × Nat × Bool) :=
  match b with
  | 2 => [(evAcq, 15, s.alongErr || s.fusionErr || s.srcKindErr || (List.range s.nGrp).any s.grpCfgErr)]
  | 4 => s.dies.map (fun d => (evStream d, 7, s.rbit (bStream d) 0 && s.streamCfgErr d))
  | 5 => s.dies.map (fun d => (evKv d, 9, s.kvCfgErr d))
  | 6 => [(evMem, 11, s.memCfgErr)]
  | 8 => [(evServo, 8, s.servoCfgErr || (List.range 16).any s.axCfgErr)]
  | 10 => [(evMotion, 13, s.motionCfgErr)]
  | _ => []

/-- CFG_ERR is raised where a write brings an error about. -/
def State.raiseCfg (s old : State) (b : Nat) : State :=
  ((s.cfgErrs b).zip (old.cfgErrs b)).foldl (fun s p => if p.1.2.2 && !p.2.2.2 then s.raise p.1.1 p.1.2.1 else s) s

/-- A write of an ACQ register: EN starts and stops the pipeline (R104), PWR_EN the camera power (R77), a group whose EN is
cleared is OFF. -/
def State.acqWritten (s : State) (o : Nat) (old new : Word) : State :=
  if o = 0 then
    if wbit new 0 && !wbit old 0 then s.acqStart else if !wbit new 0 && wbit old 0 then s.acqStop else s
  else match arrIdx o 0x100 0x40 8 with
    | some g =>
      if o = 0x114 + 0x40 * g then s.pwrEnWrite g (wbit new 0)
      else if o = 0x100 + 0x40 * g ∧ wbit old 31 ∧ !wbit new 31 then
        s.groupOff g
      else s
    | none => s

/-- A write of a SERVO register: EN (R358), and the fields that re-anchor a set-point (R364, R365). -/
def State.servoWritten (s : State) (o : Nat) (old new : Word) : State :=
  if o = 0 then
    if wbit new 0 && !wbit old 0 then s.lineOn.realign else if !wbit new 0 && wbit old 0 then s.lineOff else s
  else match arrIdx o 0x100 0x40 16 with
    | some a =>
      let k := o - 0x40 * a
      if (k == 0x10C || k == 0x110 || k == 0x114) && old != new then s.regear a (k == 0x10C) else s
    | none => s

/-- A write of a TIME register: the primary domain (R469), a domain's EN (R468), a pulse output's EN (R473). -/
def State.timeWritten (s : State) (o : Nat) (old new : Word) : State :=
  if o = 0 then s.setPrimary (wbit new 1)
  else match arrIdx o 0x40 0x40 2, arrIdx o 0x100 0x20 8 with
    | some d, _ => if o = 0x40 + 0x40 * d ∧ wbit old 31 ≠ wbit new 31 then s.domEn d (wbit new 31) else s
    | none, some n => if o = 0x100 + 0x20 * n ∧ wbit new 31 ∧ !wbit old 31 then s.tpoArm n else s
    | none, none => s

/-- A write of a NET register: NET_CTRL.EN and the EN of a stream (R480). -/
def State.netWritten (s : State) (o : Nat) (old new : Word) : State :=
  if o = 0 then (if wbit old 0 && !wbit new 0 then s.each (List.range 4) State.dropBuffer else s)
  else match arrIdx o 0x800 0x20 4 with
    | some n => if o = 0x800 + 0x20 * n ∧ wbit old 31 ≠ wbit new 31 then s.dstEn n (wbit new 31) else s
    | none => s

/-- A write of a COURSE register: LOS_EN set while LOS lasts is a detected LOS (R40, R41), and the source of SP is judged again. -/
def State.courseWritten (s : State) (o : Nat) (old new : Word) : State :=
  let s := match arrIdx o 0x100 0x10 8 with
    | some n => if o = 0x100 + 0x10 * n ∧ wbit new 18 ∧ !wbit old 18 ∧ (s.encAt n).los then (s.bump (aEnc n + 0xC)).encFault n else s
    | none => s
  let s := match arrIdx o 0x200 0x20 4 with
    | some g => if o < 0x214 + 0x20 * g ∧ old ≠ new then s.lgReset g else s
    | none => s
  s.evalSource.xcheck

/-- What follows a write of a stored register, from its old to its new value. -/
def State.written (s : State) (a : Nat) (old new : Word) : State :=
  let o := tableOff a
  let d := windowOf a
  match a / 65536 with
  | 1 => s.courseWritten o old new
  | 2 => s.acqWritten o old new
  | 4 => if o = 0x34 then s.ctxSel d new.toNat else s
  | 5 =>
    if o = 0x30 then s.seqSel d new.toNat
    else if o = 0x34 then s.kvPageSel d new.toNat
    else if o = 0 ∨ o = 0x10 ∨ o = 0x14 ∨ o = 0x18 then s.kvInit d
    else s
  | 6 => if o = 0x24 then s.pageSel new.toNat else if o = 0 then s.remapMore else s
  | 7 => if o = 0x60 then s.acctSel new else s
  | 8 => ((s.servoWritten o old new).carCheck).qpRecheck
  | 9 => s.carCheck.qpRecheck
  | 10 => s.carCheck.qpRecheck
  | 12 => s.timeWritten o old new
  | 13 => s.netWritten o old new
  | 15 => if o = 0x34 then s.updTest (fun x => { x with stallSince := s.local / 2 ^ 32 }) else s
  | _ => s

/-- The TEST registers that may be written outside test mode (R581). -/
def testFree (a : Nat) : Bool := a == 0xF0004 || a == 0xF0008 || a == 0xF000C || a == 0xF0070

/-- Which injection register an address is. -/
def injIdx (a : Nat) : Option Nat := [0xF0050, 0xF0054, 0xF005C, 0xF0060, 0xF0064].findIdx? (fun x => x == a)

/-- A write of a stored register that nothing refuses. -/
def State.store (s : State) (a : Nat) (old new : Word) : State :=
  let t := ((s.dropSnaps a).regSet a new).written a old new
  t.raiseCfg s (a / 65536)

/-- A write of a register of the part: the new state, and the status of R506. -/
def State.writeRow (s : State) (a : Nat) (r : RegRow) (v : Word) : State × Nat :=
  if r.wo then (s.cmdWrite a v)
  else
    let old := s.regGet a
    let new := writeVal r old v
    if s.planRuns && writeLocks r old v then (s, 0x0201)
    else if s.safetyLocks a old new then (s, 0x0601)
    else match injIdx a with
      | some i => s.injWrite i new
      | none =>
        if a = 0x10800 ∨ a = 0x10804 then ((s.dropSnaps a).progEnWrite ((a - 0x10800) / 4) v, 0)
        else match arrIdx a 0x60040 0x10 4 with
          | some d =>
            if a = 0x60040 + 0x10 * d ∧ old ≠ new then
              match s.tierBaseSet d new.toNat with
              | some t => (t.remapMore.raiseCfg s 6, 0)
              | none => (s, 0x020A)
            else (s.store a old new, 0)
          | none => (s.store a old new, 0)

/-- The value as the part takes it: GROUP_MASK bits of the connection groups a VYU-2140 lacks are ignored (R71). -/
def partVal (p : Part) (a : Nat) (v : Word) : Word :=
  if p == .vyu2140 && (a == 0x10200 || a == 0x10220 || a == 0x10240 || a == 0x10260) then v &&& 0xFF0FFFFF#32 else v

/-- A register write (R35, R34, R581): the new state, and the status. -/
def State.regWrite (s : State) (a : Nat) (v : Word) : State × Nat :=
  if !addrOk a then (s, 0x0202)
  else match rowOf a with
    | none => (s, 0)
    | some r =>
      if a / 65536 = 15 ∧ !s.test.mode ∧ !testFree a then (s, 0x0203)
      else if absentReg s.part a then (s, 0)
      else s.writeRow (canonAddr a) r (partVal s.part a v)

/-- Registers that R503 closes during a safety restart: FABRIC, SERVO, QP and MOTION. -/
def restartBlock (a : Nat) : Bool := addrOk a && [3, 8, 9, 10].contains (a / 65536)

/-- Register pairs applied in order; the first refused stops them (R509, R503): the pairs applied and the status. -/
def State.regWrites (s : State) : List (Word × Word) → State × Nat × Nat
  | [] => (s, 0, 0)
  | (a, v) :: l =>
    let (t, st) := if s.restarting && restartBlock a.toNat then (s, 0x0603) else s.regWrite a.toNat v
    if st ≠ 0 then (t, 0, st)
    else
      let (u, n, st) := t.regWrites l
      (u, n + 1, st)

/-- REG_MODIFY (R509): the status and the value the register reads after the write. -/
def State.regModify (s : State) (a mask v : Word) : State × Nat × Option Word :=
  if !addrOk a.toNat then (s, 0x0202, none)
  else if mask = 0#32 then (s, 1, none)
  else
    let old := match rowOf a.toNat with
      | some r => if r.wo then 0#32 else s.liveReg a.toNat &&& ~~~(BitVec.ofNat 32 r.w1c)
      | none => 0#32
    let (t, st) := s.regWrite a.toNat ((old &&& ~~~mask) ||| (v &&& mask))
    if st ≠ 0 then (t, st, none) else (t, 0, some (t.liveReg a.toNat))

end Sys2Proof.Machine
end

