-- ==== Sys2Proof/Machine/Startup.lean ====
section
/-!
DEFINITION. Start-up, resets, low-power states and what each of them keeps (R527 to R546, R568, R570, R578).
-/
namespace Sys2Proof.Machine

/-! ### What a reset keeps (R543, R545) -/

/-- Clocks that start again from 0 at a tick. -/
def tnReset (n : TimeNet) (now : Nat) : TimeNet :=
  let k : Clock := { from_ := now }
  { wire := n.wire, local_ := k, dom := [{ clk := k }, { clk := k }] }

/-- The levels at the encoder pins stay. -/
def Enc.pins (e : Enc) : Enc := { a := e.a, b := e.b, los := e.los }
def Axis.pins (x : Axis) : Axis := { a := x.a, b := x.b, los := x.los }

/-- A line-side engine in its default, with its pins. -/
def Line.cleared (l : Line) : Line := { axis := l.axis.map Axis.pins, gpioPin := l.gpioPin, reqs := l.reqs }

/-- A compute die with no more than its records: FAILED, failed cores, repairs, the slot map with a spare that was being mapped
in (R545). -/
def Die.kept (x : Die) : Die :=
  { st := if x.st == .failed then .failed else .off, short := x.short,
    core := x.core.map (fun c => { repaired := c.repaired, role := match c.role with
      | .failed k => .failed k
      | _ => .off }),
    slot := x.slot.map (fun k => match k.spareIn with
      | some q => { core := q }
      | none => { core := k.core, vacant := k.vacant }) }

/-- The memory tiers with no more than EXCLUDED channels, withdrawn frames and repaired rows. -/
def MemTier.kept (m : MemTier) : MemTier :=
  { qch := m.qch.map (fun q => if q.st == .excluded then { st := .excluded, cause := q.cause } else {}),
    withdrawn := m.withdrawn, spareUsed := m.spareUsed, worn := m.worn, wear := m.wear }

/-- The pins and fuses of the management block. -/
def Mgmt.pins (m : Mgmt) : Mgmt :=
  { m with st := .boot, pow := .run, powTo := none, startup := {}, resetAt := none, ownerSig := false,
           fwSlot := 0, fwVersion := 0#32, fwDigest := [] }

/-- NET_PORTp_MAC at its reset value, the port's fuse (R490, R543). -/
def State.fuseMacs (s : State) : State :=
  s.each ((List.range 4).filter s.hasPort) (fun s p =>
    let m := lget 0 s.mgmt.macs p
    (s.regSet (aPort p + 8) (wordOf m)).regSet (aPort p + 0xC) (wordOf (m / 2 ^ 32 % 65536)))

/-- Every register and structure at its default, but for the pins and what the management block reads of its fuses (R543). -/
def State.cleared (s : State) : State :=
  { part := s.part, now := s.now, fresh := s.fresh, pending := s.pending, cycAt := s.now
    tn := tnReset s.tn s.now
    course := { enc := s.course.enc.map Enc.pins }
    acq := { grp := s.acq.grp.map (fun g => { flt := g.flt }), trigSent := s.acq.trigSent }
    line := s.line.cleared
    plumb := { reqLow := s.plumb.reqLow, roundAt := s.now }
    power := { on := 1, granted := if s.part == .vyu4140 then 192 else 96 }
    mgmt := s.mgmt.pins }

/-- What R545 keeps through RESET_N and DEVICE_RESET, beside the defaults. -/
def State.resetKept (s : State) : State :=
  let t := s.cleared
  let t := { t with
    cyc := s.cycles, die := s.die.map Die.kept, mt := s.mt.kept,
    sdio := { evLog := s.sdio.evLog, violLog := s.sdio.violLog },
    plumb := if s.plumb.recFailed.isSome && s.plumb.st == PlumbState.failed then
        { t.plumb with st := .failed, recFailed := s.plumb.recFailed } else t.plumb,
    power := { t.power with fault := s.power.fault },
    mgmt := { t.mgmt with ownerSig := s.mgmt.ownerSig } }
  (t.regSet 0xB001C (s.regGet 0xB001C &&& 0xFFFF0000#32)).regSet 0x7005C (s.regGet 0x7005C)

/-- What power-on, RESET_N and DEVICE_RESET leave: the defaults, and but for power-on what R545 keeps; NET_PORTp_MAC is read
from the fuses. -/
def State.wiped (s : State) (powerOn : Bool) : State := (if powerOn then s.cleared else s.resetKept).fuseMacs

/-- Every line target is in fallback by the fallback hardware, and every other output takes its reset level: the state held in
reset (R538). -/
def State.inReset (s : State) (powerOn : Bool) : State := (s.wiped powerOn).fallbackAll

/-! ### Secure boot (R532 to R535) -/

/-- A firmware image copy verifies (R534): its slot, version and digest. -/
def fwCheck (keys : List KeySlot) (c : List Byte) : Option (Nat × Word × List Byte) :=
  let len := leAt c 4 4
  let slot := leAt c 12 1
  let key := (c.drop 32).take 32
  let body := (c.drop 128).take len
  let k : KeySlot := lget {} keys slot
  if leAt c 0 4 = 0x57465956 ∧ 1 ≤ len ∧ len ≤ 1048448 ∧ body.length = len ∧ leAt c 13 19 = 0 ∧ slot < 4 ∧ k.revoked = false ∧
      k.hash = some ((sha512 key).take 32) ∧ edVerify key (sha512 body) ((c.drop 64).take 64) = true then
    some (slot, wordOf (leAt c 8 4), sha512 body)
  else none

/-! ### The start-up configuration (R536) -/

/-- The pairs of the block in the flash; an error says why it is ignored: 1 MAGIC, 2 COUNT, 3 CRC. An empty flash has none. -/
def configPairs (b : List Byte) : Except Nat (List (Word × Word)) :=
  let n := leAt b 4 4
  let body := (b.drop 16).take (8 * n)
  if b.isEmpty then .ok []
  else if leAt b 0 4 ≠ 0x47464356 then .error 1
  else if 512 < n ∨ body.length < 8 * n then .error 2
  else if crc32c body ≠ leAt b 8 4 then .error 3
  else .ok ((List.range n).map (fun i => (wordOf (leAt body (8 * i) 4), wordOf (leAt body (8 * i + 4) 4))))

/-- When a pair is applied: 0 at step 4, 1 at the start of step 5, 2 at the end of step 7. -/
def configStep (a : Word) : Nat :=
  match a.toNat / 65536 with
  | 6 => 1 | 3 => 2 | 4 => 2 | 5 => 2 | 7 => 2 | _ => 0

/-- Applies the pairs of a step; a refused pair is skipped and logged. -/
def State.applyConfig (s : State) (step : Nat) : State :=
  match configPairs s.mgmt.flash.config with
  | .error _ => s
  | .ok l => s.each (l.filter (fun p => configStep p.1 == step)) (fun s p =>
      let (t, st) := s.regWrite p.1.toNat p.2
      if st = 0 then t
      else (s.log (.configRefused p.1 st)).updMgmt (fun m => { m with
        startup := { m.startup with skipped := m.startup.skipped + 1 } }))

/-! ### Steps 1 to 4 (R528) -/

/-- Discovery of the enabled groups that it has not begun for (step 9). -/
def State.discoverAll (s : State) : State :=
  s.each ((List.range s.nGrp).filter s.grpOn) (fun s g => if (s.grpAt g).st == .off then s.discover g else s)

/-- The present domains are on, but for those in DOMAIN_FAULT. -/
def State.allOn (s : State) : BitVec 20 :=
  BitVec.ofNat 20 (((List.range 20).filter (fun n => s.hasPd n && !s.power.fault.getLsbD n)).map (2 ^ ·)).sum

/-- Steps 5 to 10 are under way: the dies are in BIST, the channels in training. -/
def State.stepsBegin (s : State) : State :=
  let s := s.settleCycles
  let s := s.updPower (fun p => { p with on := s.allOn })
  let s := s.each s.dies (fun s d => s.updDie d (fun x => { x with st := if x.st == .failed then .failed else .bist }))
  (s.each (List.range s.nQch) (fun s c => s.updQch c (fun q => { q with st := if q.st == .excluded then .excluded else .training })))

/-- Step 1: fuses and straps are read; a high reserved strap is logged (R437, R578). -/
def State.readStraps (s : State) (b : Board) : State :=
  let s := s.updMgmt (fun m => { m with splitStrap := b.split, strap := b.straps % 8, flash := b })
  let s := if b.straps % 8 = 0 then s else s.log (.strap (b.straps % 8))
  if (b.split || s.mgmt.splitFuse) && s.plumb.st != .failed then s.updPlumb (fun p => { p with st := .split }) else s

/-- Step 2: the copy that verifies, copy 0 first, and whether it is copy 1. -/
def State.firmware (s : State) (b : Board) : Option (Nat × Word × List Byte × Bool) :=
  match fwCheck s.mgmt.fwKeys b.copy0, fwCheck s.mgmt.fwKeys b.copy1 with
  | some (k, v, d), _ => some (k, v, d, false)
  | none, some (k, v, d) => some (k, v, d, true)
  | none, none => none

/-- Step 4: the start-up configuration of the first set of blocks and of MEM; one that is ignored is logged. -/
def State.stepConfig (s : State) : State :=
  match configPairs s.mgmt.flash.config with
  | .error e => s.log (.configIgnored e)
  | .ok _ =>
    let s := s.updMgmt (fun m => { m with startup := { m.startup with applied := !m.flash.config.isEmpty } })
    (s.applyConfig 0).applyConfig 1

/-- The start-up entry (R537): the ends of the seven steps in ms, and the ring links left out. -/
def State.startupEntry (s : State) (ends : List Nat) (links : Nat) : List Byte :=
  let u := s.mgmt.startup
  let m := s.mgmt
  let failed := maskOf 4 (fun d => (s.dieAt d).st == .failed)
  let qch := maskOf 16 (fun c => (s.qchAt c).st == .excluded)
  let grps := maskOf 8 (fun g => let x := s.grpAt g
    x.st == .failed || (x.st == .discovering && x.retry))
  [0xF0#8, BitVec.ofNat 8 u.kind, BitVec.ofNat 8 (m.fwSlot % 4 + 4 * b2n u.copy1 + 8 * b2n u.applied), BitVec.ofNat 8 m.st.code] ++
    (List.range 7).flatMap (fun i => leBytes 2 (lget 0xFFFF ends i)) ++ leBytes 1 failed ++ leBytes 1 links ++ leBytes 2 qch ++
    leBytes 1 grps ++ leBytes 1 (min 255 u.skipped) ++ leBytes 8 0

/-- Writes the start-up entry: the first entry of the log after the start. -/
def State.logStartup (s : State) (ends : List Nat) (links : Nat) : State :=
  let e := LogEntry.startup (s.startupEntry ends links)
  s.updSdio (fun x =>
    let n := s.mgmt.startup.logAt
    let l := x.evLog.take n ++ e :: x.evLog.drop n
    { x with evLog := l.drop (l.length - 65535) })

/-- Steps 1 to 4 from t = 0 (R528), on a state in reset. -/
def State.boot (s : State) (cause : Nat) (b : Board) (plumbOk : Bool) : State :=
  let s := s.updMgmt (fun m => { m with
    refclk := true, ethclk := true, cxpclk := true,
    startup := { kind := cause, from_ := s.now, logAt := s.sdio.evLog.length } })
  let s := s.readStraps b
  match s.firmware b with
  | none =>
    let s := s.updMgmt (fun m => { m with st := .failed })
    (s.drew.logStartup [s.free.toNat % 53] 0)
  | some (slot, ver, dig, one) =>
    let s := s.updMgmt (fun m => { m with
      st := .starting, fwSlot := slot, fwVersion := ver, fwDigest := dig,
      startup := { m.startup with copy1 := one, stFail := !plumbOk } })
    let s := s.updPlumb (fun p => { p with
      st := if !plumbOk then .failed else if p.st == .starting then .healthy else p.st })
    s.stepsBegin.stepConfig.discoverAll

/-! ### Steps 5 to 11 (R528, R529) -/

/-- The cores take their roles from the slot map. -/
def State.bindCores (s : State) (d : Nat) : State :=
  s.each (List.range 52) (fun s p => s.updCore d p (fun c =>
    match c.role with
    | .failed _ => c
    | _ => { c with role := match (s.dieAt d).slot.findIdx? (fun k => !k.vacant && k.core == p) with
        | some i => .inSlot i
        | none => .spare }))

/-- The spares that BIST maps in are in their slots at once (R139). -/
def State.spareNow (s : State) (d : Nat) : State :=
  s.updDie d (fun x => { x with slot := x.slot.map (fun k => match k.spareIn with
    | some q => { core := q }
    | none => k) })

/-- A bank uses at least n of its spare rows (R289, R592). -/
def State.rowsAtLeast (s : State) (bank n : Nat) : State :=
  s.updMt (fun m => { m with spareUsed := countAdd m.spareUsed bank (n - countOf m.spareUsed bank) })

/-- The repair maps of a die's Lintel banks and the rows that BIST repairs in its core stores; the frames of an unrepairable bank
outside the fixed region are withdrawn (R289). -/
def State.repairMaps (s : State) (b : Sys2Proof.Bist) (d : Nat) : State :=
  let s := s.each (b.rows.filter (fun x => x.1 == d)) (fun s x => s.rowsAtLeast (64 * d + x.2.1 % 64) (min 32 x.2.2))
  let s := s.each (b.coreRows.filter (fun x => x.1 == d && decide (x.2.1 < 52))) (fun s x =>
    (s.rowsAtLeast (1024 + (64 + 52 * d + x.2.1) * 32 + x.2.2.1 % 32) (min 2 x.2.2.2)).updCore d x.2.1 (fun c => { c with
      repaired := c.repaired || decide (0 < x.2.2.2) }))
  s.each (b.badBanks.filter (fun x => x.1 == d)) (fun s x =>
    s.updMt (fun m => { m with
      withdrawn := ((List.range 64).map (fun k => 4096 * d + 64 * (x.2 % 64) + k)).filter (fun f => !m.withdrawn.contains f) ++ m.withdrawn }))

/-- An unrepairable bank of a die lies in the fixed region (R289). -/
def fixedBad (b : Sys2Proof.Bist) (d : Nat) : Bool := b.badBanks.any (fun x => x.1 == d && decide (x.2 % 64 * 2 ^ 22 < 0x06660000))

/-- Steps 5 and 6 of a die pair. -/
def State.dieStart (s : State) (b : Sys2Proof.Bist) (d : Nat) : State :=
  if (s.dieAt d).st == .failed then s
  else
    let s := (s.bindCores d).repairMaps b d
    let s := (s.each (b.badCores.filter (fun x => x.1 == d)) (fun s x => s.coreFail d (x.2 % 52) .bist)).spareNow d
    let s := s.updDie d (fun x => { x with short := false })
    let s := if b.badDies.testBit d || fixedBad b d || decide (s.inService d < 24) then s.dieFail d else s
    s.updDie d (fun x => { x with
      st := if x.st == .failed then .failed else .ready, core := x.core.map (fun c => { c with reload := true }) })

/-- Step 7 of a pair: it has a ring link that trained. Link i joins pairs i and i + 1; the VYU-2140 has link 0 alone, whose
failure leaves pair 0 in service. -/
def State.linked (s : State) (links d : Nat) : Bool :=
  match s.part with
  | .vyu4140 => links.testBit d || links.testBit ((d + 3) % 4)
  | .vyu2140 => d == 0 || links.testBit 0

/-- Step 8 of a channel (R297, R298). -/
def State.qchStart (s : State) (b : Sys2Proof.Bist) (c : Nat) : State :=
  let off (s : State) : State := s.updQch c (fun q => { q with st := .off })
  let lat := s.rfld 0x60018 31 28
  let rwr := s.rfld 0x60018 27 24
  if (s.qchAt c).st == .excluded then s
  else if (s.dieAt (c / 4)).st == .failed || decide (lat < 3 ∨ 7 < lat ∨ rwr < 2) then off s
  else if b.ids.testBit c || !b.qch.testBit c then
    (s.updQch c (fun _ => { st := .excluded, cause := if b.ids.testBit c then 2 else 1 })).raise evMem 9
  else (s.updQch c (fun _ => { st := .up, tap := lget 0 b.taps c, dense := b.dense.testBit c })).raise evMem 10

/-- Steps 5 to 10. -/
def State.stepsRun (s : State) (b : Sys2Proof.Bist) : State :=
  let s := s.each s.dies (fun s d => s.dieStart b d)
  let s := s.each s.dies (fun s d => if s.linked b.links d then s else s.dieFail d)
  let s := if s.mgmt.startup.kind < 3 then s.applyConfig 2 else s
  let s := s.each (List.range s.nQch) (fun s c => s.qchStart b c)
  let s := s.each s.dies State.kvInit
  s.each ((List.range 4).filter (fun p => s.rbit (aPort p) 31 && b.lock.testBit p && s.mgmt.ethclk)) (fun s p => s.linkSet p true)

/-- Ring links left out, as a mask. -/
def State.linksOut (s : State) (b : Sys2Proof.Bist) : Nat :=
  maskOf (if s.part == .vyu4140 then 4 else 1) (fun i => !b.links.testBit i)

/-- After a return from HOLD or STANDBY (R542, R544): SERVO_CTRL.EN is written again, TRIPPED clears, and the targets leave
fallback on their own terms. -/
def State.returned (s : State) : State :=
  let s := if s.rbit 0x80000 0 then s.lineOn.realign.carCheck else s
  let s := s.updPower (fun p => { p with tripped := false })
  if s.plumb.untilClear || s.plumb.recovered || s.plumb.st == .lockout || s.plumb.st == .failed then s else s.releaseTargets

/-- Step 11: READY or FAILED, and the start-up entry. -/
def State.stepsEnd (s : State) (b : Sys2Proof.Bist) : State :=
  let bad := s.mgmt.startup.stFail || s.dies.all (fun d => (s.dieAt d).st == .failed)
  let back := decide (3 ≤ s.mgmt.startup.kind)
  let ends := (List.range 7).map (fun i => if i = 0 ∧ back then 0xFFFF else lget 0xFFFF b.ends i)
  let s := s.updMgmt (fun m => { m with st := if bad then .failed else .ready })
  let s := (s.logStartup ends (s.linksOut b)).regrant
  let s := if bad then s else s.raise evMgmt 0
  if back && !bad then s.returned else s

/-! ### HOLD and STANDBY (R541, R542, R544, R545) -/

/-- The Bond plan's part that a low-power state keeps: accounts, debts and the coverage list. -/
def Bond.kept (b : Bond) : Bond :=
  { accounts := b.accounts, used := b.used, debt := b.debt, lastServed := b.lastServed, periodStart := b.periodStart, covs := b.covs,
    nextGraph := b.nextGraph }

/-- The Course Unit after STANDBY: its pins, and the counts of lines and edges. -/
def Course.standby (c : Course) : Course :=
  { enc := c.enc.map (fun e => { e.pins with cnt := e.cnt }), lg := c.lg.map (fun g => { count := g.count }) }

/-- Time and network after STANDBY: the sequence numbers of the record types stay. -/
def TimeNet.standby (n : TimeNet) (now : Nat) : TimeNet := { tnReset n now with tseq := n.tseq }

/-- Domains that are on in HOLD and in STANDBY. -/
def lowOn (p : PowState) : BitVec 20 := if p == .hold then 0x8000B#20 else 1#20

/-- The tables and stores of the domains that HOLD or STANDBY switches off (R545). -/
def State.slept (s : State) (to_ : PowState) : State :=
  { s with
    mem := [], snaps := [], changing := none
    stream := List.replicate 4 {}, kv := List.replicate 4 {}, adapt := {}
    mt := { s.mt.kept with flips := s.mt.flips.filter (fun f => s.test.persist.any (fun q => q.1 == f.1)) }
    die := s.die.map Die.kept, bond := s.bond.kept, line := s.line.cleared
    acq := { grp := s.acq.grp.map (fun g => { flt := g.flt }), trigSent := s.acq.trigSent }
    power := { s.power with on := lowOn to_ &&& ~~~s.power.fault, vddc := s.freq }
    mgmt := { s.mgmt with pow := to_ }
    sdio := { s.sdio with models := [] }
    plumb := { s.plumb with stages := s.plumb.stages.map (fun g => { g with watches := [] }), slice := none } }

/-- The domains of HOLD or STANDBY lose what R545 says. -/
def State.sleep (s : State) (to_ : PowState) : State :=
  let s := s.restartReqs
  let s := s.each (s.dies.filter (fun d => (s.dieAt d).st != .failed)) (fun s d => ((s.loseTasks d).loseGraphs d 7 false).retireIdle d)
  let s := s.settleCycles
  let s := ([0xA0024, 0xA0028, 0xA002C].foldl (fun s a => s.regSet a 0#32) s).slept to_
  if to_ == .standby then (s.updCourse Course.standby).updTn (·.standby s.now) else s

/-- COURSE, TIME and NET come up again from STANDBY: their enables are written again (R544). -/
def State.timeUp (s : State) : State :=
  let en := [s.regGet 0x10800, s.regGet 0x10804]
  let s := (s.regSet 0x10800 0#32).regSet 0x10804 0#32
  let s := ((s.progEnWrite 0 (lget 0#32 en 0)).progEnWrite 1 (lget 0#32 en 1)).setPrimary (s.rbit 0xC0000 1)
  let s := s.each ((List.range 2).filter (fun d => s.rbit (0xC0040 + 0x40 * d) 31)) (fun s d => s.domEn d true)
  s.each ((List.range 8).filter (fun n => s.rbit (0xC0100 + 0x20 * n) 31)) State.tpoArm

/-- The compute clock comes back at the power-on value, VDDC_SEL first (R131, R566). -/
def State.freqHome (s : State) : State :=
  { s.settleCycles with freq := 0, power := { s.power with vddc := 0, pcore := 1450 } }

/-- The return to RUN begins (R542): steps 5 to 11. -/
def State.wake (s : State) : State :=
  let was := s.mgmt.pow
  let s := s.updMgmt (fun m => { m with
    pow := .run, st := .starting,
    startup := { m.startup with
      kind := if was == .hold then 3 else 4, from_ := s.now, logAt := s.sdio.evLog.length, applied := false, skipped := 0, stFail := false } })
  let s := if was == .standby then s.timeUp else s
  let s := s.freqHome.stepsBegin
  let s := s.each ((List.range s.nGrp).filter (fun g => s.rbit (aGrp g + 0x14) 0)) (fun s g => s.pwrEnWrite g true)
  if s.rbit 0x20000 0 then s.acqStart else s.discoverAll

/-- IDLE is reached: every core is off and its store empty. -/
def State.enterIdle (s : State) : State :=
  let s := s.updMgmt (fun m => { m with pow := .idle, powTo := none })
  s.each s.dies (fun s d => s.each (List.range 52) (fun s p => s.coreClear d p))

/-- RUN is reached from IDLE: the cores are on again. -/
def State.leaveIdle (s : State) : State :=
  (s.updMgmt (fun m => { m with pow := .run, powTo := none })).switchCores s

/-- HOLD or STANDBY is reached; COURSE, TIME and NET come up where it is HOLD after STANDBY. -/
def State.enterLow (s : State) (to_ : PowState) : State :=
  let up := s.mgmt.pow == .standby && to_ == .hold
  let s := (s.sleep to_).updMgmt (fun m => { m with powTo := none })
  if up then s.timeUp else s

/-- What a POWER_STATE that waits has come to: the state it moves to is reached. -/
def State.powerReached (s : State) : State :=
  match s.mgmt.powTo with
  | some .run => s.leaveIdle
  | some .idle => s.enterIdle
  | some .hold => s.enterLow .hold
  | some .standby => s.enterLow .standby
  | none => s

/-- Firmware accepts a POWER_STATE: towards HOLD and STANDBY every line target goes to fallback; a return from them begins. -/
def State.powerAccept (s : State) (to_ : PowState) : State :=
  let s := s.updMgmt (fun m => { m with powTo := some to_ })
  match to_ with
  | .hold => (s.updPlumb (fun p => { p with safe := true })).fallbackAll
  | .standby => (s.updPlumb (fun p => { p with safe := true })).fallbackAll
  | _ => if s.mgmt.pow == .hold || s.mgmt.pow == .standby then s.wake else s

/-! ### Pins (R568, R570, R579, R580) -/

/-- A fuse slot of a key. -/
def keySlot (k : Option (List Byte) × Bool) : KeySlot := { hash := k.1, revoked := k.2 }

/-- The fuses of the part. -/
def State.fuses (s : State) (f : Fuses) : State :=
  if s.mgmt.fused then s
  else
    let slots (l : List (Option (List Byte) × Bool)) : List KeySlot := (List.range 4).map (fun i => keySlot (lget (none, false) l i))
    { s with part := if f.vyu2140 then .vyu2140 else .vyu4140 }.updMgmt (fun m => { m with
      fused := true, ext := f.ext, serial := f.serial, splitFuse := f.split, debugLock := f.debugLock, ownerSigFuse := f.ownerSig,
      fwKeys := slots f.fw, ownerKeys := slots f.owner, macs := f.macs })

/-- POWER_ON: PWRGD rises; with RESET_N high the start-up begins. -/
def execPowerOn (t : Nat) (f : Fuses) (b : Board) (plumbOk : Bool) (s : State) : Out :=
  let s := ((s.to t).fuses f).inReset true
  let s := s.updMgmt (fun m => { m with pwrgd := true })
  .next (if s.mgmt.resetN then s.boot 0 b plumbOk else s)

/-- RESET_N falls, or rises and the start-up begins (R538). -/
def execResetN (t : Nat) (low : Bool) (b : Board) (plumbOk : Bool) (s : State) : Out :=
  let s := s.to t
  if low then
    let kind := if s.mgmt.st == .boot then s.mgmt.startup.kind else 1
    .next ((s.inReset false).updMgmt (fun m => { m with
      resetN := false, startup := { kind := kind }, jtagDrives := decide (3 ≤ m.jtag) }))
  else if s.mgmt.resetN then .next s
  else
    let s := s.updMgmt (fun m => { m with resetN := true, jtagDrives := false })
    .next (if s.mgmt.pwrgd then s.boot s.mgmt.startup.kind b plumbOk else s)

/-- PWRGD_FALL (R568): the state held in reset until PWRGD rises. -/
def execPwrgdFall (t : Nat) (s : State) : Out :=
  .next (((s.to t).inReset true).updMgmt (fun m => { m with pwrgd := false }))

/-- REFCLK_LOSS (R570): every target in fallback, SAFE_OK low, every domain but PD00 in reset. -/
def execRefclkLoss (t : Nat) (s : State) : Out :=
  let s := s.to t
  guardNext s.mgmt.refclk s (fun s =>
    let s := (s.updPlumb (fun p => { p with safe := true, okA := false, okB := false })).fallbackAll
    let s := s.sleep .standby
    s.updMgmt (fun m => { m with refclk := false, powTo := none }))

/-- ETHCLK_LOSS: every port reports link down. -/
def execEthclkLoss (t : Nat) (s : State) : Out :=
  let s := (s.to t).updMgmt (fun m => { m with ethclk := false })
  .next (s.each (List.range 4) (fun s p => s.linkSet p false))

/-- CXPCLK_LOSS: every group goes DOWN. -/
def execCxpclkLoss (t : Nat) (s : State) : Out :=
  let s := (s.to t).updMgmt (fun m => { m with cxpclk := false })
  .next (s.each (List.range s.nGrp) (fun s g => s.groupDown g))

/-- A JTAG instruction; those that drive pins do so only while RESET_N is low, else they are SAMPLE/PRELOAD. -/
def State.jtag (s : State) (i : Nat) : State :=
  s.updMgmt (fun m => { m with jtag := i, jtagDrives := decide (3 ≤ i) && !m.resetN })

/-- IDCODE register (R579). -/
def State.idcode (s : State) : Word := if s.part == .vyu4140 then 0x141405AB#32 else 0x121405AB#32

def execBypass (t : Nat) (s : State) : Out := .next ((s.to t).jtag 0)
def execIdcode (t : Nat) (s : State) : Out := .next ((s.to t).jtag 1)
def execSamplePreload (t : Nat) (s : State) : Out := .next ((s.to t).jtag 2)
def execExtest (t : Nat) (s : State) : Out := .next ((s.to t).jtag 3)
def execExtestPulse (t : Nat) (s : State) : Out := .next ((s.to t).jtag 4)
def execExtestTrain (t : Nat) (s : State) : Out := .next ((s.to t).jtag 5)

end Sys2Proof.Machine
end

