-- ==== Sys2Proof/Machine/SdioCore.lean ====
section
/-!
DEFINITION. Command packets: the opcodes with their parameters (R497, R510), what a packet is refused for before it is carried
out (R499 to R508, R530, R535), violations and rate limits (R507, R508), and the objects a deferred command holds (R501).
-/
namespace Sys2Proof.Machine

/-! ### Opcodes (R510) -/

/-- The confirm value of R510. -/
def confirmWord : Word := 0xA5A55A5A#32

/-- OPCODE of a host command. -/
def hostOp : HostCmd → Nat
  | .echo _ => 0x0100 | .deviceInfo => 0x0101 | .deviceReset _ => 0x0102 | .cxpRegRead _ _ _ => 0x0110 | .cxpRegWrite _ _ _ => 0x0111
  | .logPull _ _ => 0x0120 | .imagePull _ _ _ _ => 0x0121 | .regRead _ _ => 0x0200 | .regWrite _ => 0x0201 | .regModify _ _ _ => 0x0202
  | .planLoad _ _ => 0x0300 | .planAdmit => 0x0301 | .planStart => 0x0302 | .planStop => 0x0303 | .planUnload => 0x0304
  | .graphSubmit _ _ => 0x0310 | .graphWait _ => 0x0311 | .modelLoad _ _ _ _ _ => 0x0400 | .modelUnload _ => 0x0401
  | .flatLoad _ _ _ => 0x0410 | .projLoad _ _ => 0x0411 | .pageMap _ _ _ => 0x0420 | .pageUnmap _ _ => 0x0421
  | .memWrite _ _ _ => 0x0430 | .memWriteBulk _ _ _ => 0x0430 | .memRead _ _ _ => 0x0431 | .memReadBulk _ _ _ => 0x0431
  | .ctxOpen _ _ _ _ _ _ => 0x0500 | .ctxClose _ => 0x0501 | .seqOpen _ _ _ _ _ _ _ _ _ => 0x0510 | .seqFork _ _ _ => 0x0511
  | .seqClose _ => 0x0512 | .courseProgLoad _ _ => 0x0600 | .servoProgLoad _ _ _ _ => 0x0610 | .qpLoad _ _ => 0x0620
  | .motionPost _ => 0x0630 | .sdfLoad _ _ => 0x0631 | .occLoad _ _ _ _ => 0x0632 | .mapPublish => 0x0633 | .timeRead => 0x0700
  | .ruleLoad _ _ => 0x0800 | .safetyStatus => 0x0801 | .budgetSet _ _ => 0x0900 | .powerState _ => 0x0901
  | .accountRead _ _ => 0x0910 | .attest _ => 0x0A00 | .keyInfo => 0x0A01 | .ownerKeySet _ _ _ => 0x0A02
  | .ownerKeyRevoke _ _ => 0x0A03 | .testMode _ _ => 0x0F00

/-- PLEN of a host command. -/
def hostPlen : HostCmd → Nat
  | .echo bs => bs.length
  | .cxpRegWrite _ _ bs => 8 + bs.length
  | .regWrite l => 8 * l.length
  | .planLoad _ dg => 4 + dg.length
  | .modelLoad _ _ _ _ dg => 8 + dg.length
  | .memWrite _ _ bs => 8 + bs.length
  | .courseProgLoad _ l => 4 + 8 * l.length
  | .servoProgLoad _ l ks is => 4 + 4 * (l.length + ks.length + is.length)
  | .motionPost l => 64 * l.length
  | .ruleLoad dg img => 4 + dg.length + img.length
  | .attest n => n.length
  | .ownerKeySet _ k _ => 8 + k.length
  | .deviceReset _ => 4 | .cxpRegRead _ _ _ => 12 | .logPull _ _ => 8 | .imagePull _ _ _ _ => 12 | .regRead _ _ => 8
  | .regModify _ _ _ => 12 | .graphSubmit _ _ => 8 | .graphWait _ => 4 | .modelUnload _ => 2 | .flatLoad _ _ _ => 8
  | .projLoad _ _ => 8 | .pageMap _ _ _ => 12 | .pageUnmap _ _ => 8 | .memWriteBulk _ _ _ => 12 | .memRead _ _ _ => 12
  | .memReadBulk _ _ _ => 12 | .ctxOpen _ _ _ _ _ _ => 24 | .ctxClose _ => 4 | .seqOpen _ _ _ _ _ _ _ _ _ => 24
  | .seqFork _ _ _ => 8 | .seqClose _ => 2 | .qpLoad _ _ => 8 | .sdfLoad _ _ => 16 | .occLoad _ _ _ _ => 16 | .budgetSet _ _ => 8
  | .powerState _ => 4 | .accountRead _ _ => 4 | .ownerKeyRevoke _ _ => 8 | .testMode _ _ => 8
  | .deviceInfo => 0 | .planAdmit => 0 | .planStart => 0 | .planStop => 0 | .planUnload => 0 | .mapPublish => 0 | .timeRead => 0
  | .safetyStatus => 0 | .keyInfo => 0

/-- The data of the command moves on function 2 (R497). -/
def hostBulk : HostCmd → Bool
  | .planLoad _ _ => true
  | .modelLoad _ _ _ _ _ => true
  | .flatLoad _ _ _ => true
  | .projLoad _ _ => true
  | .memWriteBulk _ _ _ => true
  | .memReadBulk _ _ _ => true
  | .qpLoad _ _ => true
  | .sdfLoad _ _ => true
  | .occLoad _ _ _ _ => true
  | _ => false

/-- Who may send a command (R499): any enabled client, client 15, clients 0 to 14, or those MGMT_CLIENT_REGW names. -/
inductive Column where
  | any
  | plan
  | client
  | regw
  deriving DecidableEq, Repr

/-- The power domain a command needs (R504): PD00, PD01, PD03, acquisition, the line-side engine, the compute side; register
access is judged by its addresses. -/
inductive Needs where
  | always
  | course
  | net
  | acq
  | line
  | compute
  deriving DecidableEq, Repr

/-- A row of the opcode table: least and greatest PLEN and its step, BULK (0 never, 1 may be set, 2 required). -/
structure OpRow where
  code : Nat
  lo : Nat
  hi : Nat
  step : Nat
  col : Column
  needs : Needs
  bulk : Nat := 0
  deriving DecidableEq, Repr

/-- The opcodes of areas 0x01 to 0x03. -/
def opRowsA : List OpRow :=
  [⟨0x0100, 0, 4096, 1, .any, .always, 0⟩, ⟨0x0101, 0, 0, 1, .any, .always, 0⟩, ⟨0x0102, 4, 4, 1, .plan, .always, 0⟩,
   ⟨0x0110, 12, 12, 1, .any, .acq, 0⟩, ⟨0x0111, 12, 264, 4, .plan, .acq, 0⟩, ⟨0x0120, 8, 8, 1, .any, .always, 0⟩,
   ⟨0x0121, 12, 12, 1, .any, .acq, 0⟩, ⟨0x0200, 8, 8, 1, .any, .always, 0⟩, ⟨0x0201, 8, 512, 8, .regw, .always, 0⟩,
   ⟨0x0202, 12, 12, 1, .regw, .always, 0⟩, ⟨0x0300, 68, 68, 1, .plan, .compute, 2⟩, ⟨0x0301, 0, 0, 1, .plan, .compute, 0⟩,
   ⟨0x0302, 0, 0, 1, .plan, .compute, 0⟩, ⟨0x0303, 0, 0, 1, .plan, .compute, 0⟩, ⟨0x0304, 0, 0, 1, .plan, .compute, 0⟩,
   ⟨0x0310, 8, 8, 1, .client, .compute, 0⟩, ⟨0x0311, 4, 4, 1, .any, .compute, 0⟩]

/-- The opcodes of areas 0x04 and 0x05. -/
def opRowsB : List OpRow :=
  [⟨0x0400, 72, 72, 1, .any, .compute, 2⟩, ⟨0x0401, 2, 2, 1, .any, .compute, 0⟩, ⟨0x0410, 8, 8, 1, .plan, .acq, 2⟩,
   ⟨0x0411, 8, 8, 1, .plan, .acq, 2⟩, ⟨0x0420, 12, 12, 1, .any, .compute, 0⟩, ⟨0x0421, 8, 8, 1, .any, .compute, 0⟩,
   ⟨0x0430, 8, 4104, 1, .any, .compute, 1⟩, ⟨0x0431, 12, 12, 1, .any, .compute, 1⟩, ⟨0x0500, 24, 24, 1, .any, .compute, 0⟩,
   ⟨0x0501, 4, 4, 1, .any, .compute, 0⟩, ⟨0x0510, 24, 24, 1, .any, .compute, 0⟩, ⟨0x0511, 8, 8, 1, .any, .compute, 0⟩,
   ⟨0x0512, 2, 2, 1, .any, .compute, 0⟩]

/-- The opcodes of areas 0x06 to 0x0F. -/
def opRowsC : List OpRow :=
  [⟨0x0600, 4, 2052, 8, .plan, .course, 0⟩, ⟨0x0610, 452, 964, 4, .plan, .line, 0⟩, ⟨0x0620, 8, 8, 1, .plan, .line, 2⟩,
   ⟨0x0630, 64, 1024, 64, .plan, .line, 0⟩, ⟨0x0631, 16, 16, 1, .plan, .line, 2⟩, ⟨0x0632, 16, 16, 1, .plan, .line, 2⟩,
   ⟨0x0633, 0, 0, 1, .plan, .line, 0⟩, ⟨0x0700, 0, 0, 1, .any, .course, 0⟩, ⟨0x0800, 68, 65520, 1, .plan, .always, 0⟩,
   ⟨0x0801, 0, 0, 1, .any, .always, 0⟩, ⟨0x0900, 8, 8, 1, .plan, .always, 0⟩, ⟨0x0901, 4, 4, 1, .plan, .always, 0⟩,
   ⟨0x0910, 4, 4, 1, .any, .always, 0⟩, ⟨0x0A00, 32, 32, 1, .any, .always, 0⟩, ⟨0x0A01, 0, 0, 1, .any, .always, 0⟩,
   ⟨0x0A02, 40, 40, 1, .plan, .always, 0⟩, ⟨0x0A03, 8, 8, 1, .plan, .always, 0⟩, ⟨0x0F00, 8, 8, 1, .plan, .always, 0⟩]

/-- The row of an opcode. -/
def opRow (code : Nat) : Option OpRow := (opRowsA ++ opRowsB ++ opRowsC).find? (fun r => r.code == code)

/-- PLEN fits an opcode (R506). -/
def OpRow.fits (r : OpRow) (n : Nat) : Bool := decide (r.lo ≤ n) && decide (n ≤ r.hi) && decide ((n - r.lo) % r.step = 0)

/-! ### Parameters (R510) -/

/-- A parameter field is out of its range, whatever the state (R506 MALFORMED_FIELD, R511). -/
def hostFieldBad : HostCmd → Bool
  | .deviceReset w => w != confirmWord
  | .cxpRegRead _ _ n => decide (256 < n) || n % 4 != 0
  | .logPull l _ => decide (1 < l)
  | .imagePull _ col mask cols => decide (15 < mask) || decide (16 < cols) || decide (128 < col + cols)
  | .regRead _ n => decide (256 < n)
  | .modelLoad _ mask _ _ _ => decide (15 < mask)
  | .flatLoad _ ph _ => decide (3 < ph)
  | .pageMap first n pin => decide (3 < pin) || decide (65536 < first + n)
  | .pageUnmap first n => decide (65536 < first + n)
  | .memWrite sp _ _ => decide (4 < sp)
  | .memWriteBulk sp _ _ => decide (4 < sp)
  | .memRead sp _ n => decide (4 < sp) || decide (4096 < n)
  | .memReadBulk sp _ _ => decide (4 < sp)
  | .courseProgLoad p l => decide (63 < p) || decide (256 < l.length)
  | .servoProgLoad a l _ _ => decide (15 < a) || decide (128 < l.length)
  | .qpLoad c _ => decide (7 < c)
  | .sdfLoad b n =>
    let d (i : Nat) : Nat := lget 0 b (i + 1) + 1 - lget 0 b i
    decide (255 < lget 0 b 1) || decide (127 < lget 0 b 3) || decide (63 < lget 0 b 5) || d 0 == 0 || d 2 == 0 || d 4 == 0 ||
      (n != 0 && n != d 0 * d 2 * d 4)
  | .occLoad _ a b n => decide (15 < b) || decide (b < a) || (n != 0 && n != 4096 * (b + 1 - a))
  | .powerState n => decide (3 < n)
  | .accountRead c d => decide (15 < c) || decide (7 < d)
  | .ownerKeySet k _ w => decide (3 < k) || w != confirmWord
  | .ownerKeyRevoke k w => decide (3 < k) || w != confirmWord
  | .testMode e w => decide (1 < e) || w != confirmWord
  | _ => false

/-- Little-endian words of a list of bytes. -/
def leWords (bs : List Byte) (n : Nat) : List Word := (List.range n).map (fun i => wordOf (leAt bs (4 * i) 4))

/-- The command that parameters spell, and whether a reserved field of them is not 0. The parameters have a length that fits. -/
def hostParse (code : Nat) (bulk : Bool) (bs : List Byte) : HostCmd × Bool :=
  let n (o k : Nat) : Nat := leAt bs o k
  let w (o : Nat) : Word := wordOf (n o 4)
  match code with
  | 0x0100 => (.echo bs, false)
  | 0x0101 => (.deviceInfo, false)
  | 0x0102 => (.deviceReset (w 0), false)
  | 0x0110 => (.cxpRegRead (n 0 1) (n 4 4) (n 8 4), n 1 3 != 0)
  | 0x0111 => (.cxpRegWrite (n 0 1) (n 4 4) (bs.drop 8), n 1 3 != 0)
  | 0x0120 => (.logPull (n 0 1) (n 4 4), n 1 3 != 0)
  | 0x0121 => (.imagePull (signedOf 64 (n 0 8)) (n 8 2) (n 10 1) (n 11 1), false)
  | 0x0200 => (.regRead (w 0) (n 4 4), false)
  | 0x0201 => (.regWrite ((List.range (bs.length / 8)).map (fun i => (w (8 * i), w (8 * i + 4)))), false)
  | 0x0202 => (.regModify (w 0) (w 4) (w 8), false)
  | 0x0300 => (.planLoad (n 0 4) (bs.drop 4), false)
  | 0x0301 => (.planAdmit, false)
  | 0x0302 => (.planStart, false)
  | 0x0303 => (.planStop, false)
  | 0x0304 => (.planUnload, false)
  | 0x0310 => (.graphSubmit (n 0 1) (n 4 4), n 1 3 != 0)
  | 0x0311 => (.graphWait (n 0 4), false)
  | 0x0400 => (.modelLoad (n 0 2) (n 2 1) (n 3 1 % 2 == 1) (n 4 4) (bs.drop 8), decide (1 < n 3 1))
  | 0x0401 => (.modelUnload (n 0 2), false)
  | 0x0410 => (.flatLoad (n 0 1) (n 1 1) (n 4 4), n 2 2 != 0)
  | 0x0411 => (.projLoad (n 0 1) (n 4 4), n 1 3 != 0)
  | 0x0420 => (.pageMap (n 0 4) (n 4 4) (n 8 1), n 9 3 != 0)
  | 0x0421 => (.pageUnmap (n 0 4) (n 4 4), false)
  | 0x0430 =>
    if bulk then (.memWriteBulk (n 0 1) (n 4 4) (n 8 4), n 1 3 != 0 || bs.length != 12)
    else (.memWrite (n 0 1) (n 4 4) (bs.drop 8), n 1 3 != 0)
  | 0x0431 => (if bulk then .memReadBulk (n 0 1) (n 4 4) (n 8 4) else .memRead (n 0 1) (n 4 4) (n 8 4), n 1 3 != 0)
  | 0x0500 => (.ctxOpen (n 0 4) (n 4 4) (n 8 4) (n 12 2) (n 14 1 % 2 == 1) (n 16 8), decide (1 < n 14 1) || n 15 1 != 0)
  | 0x0501 => (.ctxClose (n 0 4), false)
  | 0x0510 =>
    let b := n 3 1
    (.seqOpen (n 0 2) (n 2 1) (b / 64) (b.testBit 5) (b.testBit 4) (signedOf 64 (n 4 8)) (n 12 4) (n 16 4) (n 20 2),
      b % 16 != 0 || n 22 2 != 0)
  | 0x0511 => (.seqFork (n 0 2) (n 2 2) (n 4 4), false)
  | 0x0512 => (.seqClose (n 0 2), false)
  | 0x0600 => (.courseProgLoad (n 0 1) ((List.range (n 2 2)).map (fun i => n (4 + 8 * i) 8)), n 1 1 != 0)
  | 0x0610 =>
    let k := n 2 2
    (.servoProgLoad (n 0 1) (leWords (bs.drop 4) k) (leWords (bs.drop (4 + 4 * k)) 64) (leWords (bs.drop (260 + 4 * k)) 48), n 1 1 != 0)
  | 0x0620 => (.qpLoad (n 0 1) (n 4 4), n 1 3 != 0)
  | 0x0630 => (.motionPost ((List.range (bs.length / 64)).map (fun i => reqOf ((bs.drop (64 * i)).take 64))), false)
  | 0x0631 => (.sdfLoad ((List.range 6).map (fun i => n (2 * i) 2)) (n 12 4), false)
  | 0x0632 => (.occLoad (n 0 8) (n 8 1) (n 9 1) (n 12 4), n 10 2 != 0)
  | 0x0633 => (.mapPublish, false)
  | 0x0700 => (.timeRead, false)
  | 0x0800 => (.ruleLoad ((bs.drop 4).take 64) (bs.drop 68), false)
  | 0x0801 => (.safetyStatus, false)
  | 0x0900 => (.budgetSet (n 0 4) (n 4 1 % 2 == 1), decide (1 < n 4 1) || n 5 3 != 0)
  | 0x0901 => (.powerState (n 0 1), n 1 3 != 0)
  | 0x0910 => (.accountRead (n 0 1) (n 1 1), n 2 2 != 0)
  | 0x0A00 => (.attest bs, false)
  | 0x0A01 => (.keyInfo, false)
  | 0x0A02 => (.ownerKeySet (n 0 1) ((bs.drop 4).take 32) (w 36), n 1 3 != 0)
  | 0x0A03 => (.ownerKeyRevoke (n 0 1) (w 4), n 1 3 != 0)
  | _ => (.testMode (n 0 1) (w 4), n 1 3 != 0)

/-- Counts inside the parameters agree with PLEN (R506): COURSE_PROG_LOAD, SERVO_PROG_LOAD and RULE_LOAD say how long they are. -/
def countFits (code : Nat) (bs : List Byte) : Bool :=
  match code with
  | 0x0600 => decide (256 < leAt bs 2 2) || bs.length == 4 + 8 * leAt bs 2 2
  | 0x0610 => decide (128 < leAt bs 2 2) || bs.length == 452 + 4 * leAt bs 2 2
  | 0x0800 => leAt bs 0 4 == 0 || bs.length == 68 + leAt bs 0 4
  | _ => true

/-! ### Packets -/

/-- The packet of a command as its header gives it (R497), with what it is malformed for: 0 for nothing. -/
def packetOf (tag client : Nat) (c : HostCmd) : Packet :=
  let plen := hostPlen c
  let bad :=
    if 15 < client then 0x0104
    else match opRow (hostOp c) with
      | none => 0x0103
      | some r => if !r.fits plen then 0x0102 else if hostFieldBad c then 0x0105 else 0
  { tag := tag, client := client, flags := b2n (hostBulk c), opcode := hostOp c, bad := bad, cmd := c, size := 16 + plen }

/-- The packet that the bytes of one write hold (R495, R497), and what it is malformed for. -/
def framePacket (bs : List Byte) : Packet :=
  let n (o k : Nat) : Nat := leAt bs o k
  let code := n 0 2
  let plen := n 4 4
  let flags := n 9 1
  let params := (bs.drop 16).take plen
  let p : Packet := { tag := n 2 2, client := n 8 1, flags := flags, opcode := code, cmd := .deviceInfo, size := bs.length }
  if bs.length < 16 + plen ∨ 16 + plen + 511 < bs.length then { p with bad := 0x0102 }
  else if crc32c (bs.take 12 ++ params) ≠ n 12 4 then { p with bad := 0x0101 }
  else if 1 < flags ∨ n 10 2 ≠ 0 ∨ 15 < n 8 1 then { p with bad := 0x0104 }
  else match opRow code with
    | none => { p with bad := 0x0103 }
    | some r =>
      if !r.fits plen || !countFits code params then { p with bad := 0x0102 }
      else
        let (c, res) := hostParse code (flags == 1) params
        let bad := (flags == 1 && r.bulk == 0) || (flags == 0 && r.bulk == 2) || res || hostFieldBad c
        { p with cmd := c, bad := if bad then 0x0105 else 0 }

/-! ### Violations (R507, R508) -/

/-- The client that a violation counts against. -/
def violClient (p : Packet) : Nat := min p.client 15

/-- A client is rate-limited. -/
def State.limited (s : State) (c : Nat) : Bool := s.rbit 0x28 c

/-- The entry of the violation log. -/
def State.violEntry (s : State) (p : Packet) (status : Nat) : List Byte :=
  leBytes 4 (s.time64 / 2 ^ 32) ++ leBytes 4 (s.time64 % 2 ^ 32) ++ leBytes 1 p.client ++ leBytes 1 p.flags ++ leBytes 2 p.opcode ++
    leBytes 2 p.tag ++ leBytes 2 status

/-- A violation is counted; the 64th within 1 s limits its client. -/
def State.violCount (s : State) (p : Packet) : State :=
  let c := violClient p
  let l := s.now :: s.violNow c
  let s := (s.bumpHi (0x40 + 4 * c)).updSdio (fun x => { x with viol := lmod x.viol c (fun _ => l) })
  if 64 ≤ l.length ∧ !s.limited c then (s.setFld 0x28 c c 1).raise evMgmt 3 else s

/-- A violation: logged, counted and raised. -/
def State.violate (s : State) (p : Packet) (status : Nat) : State :=
  let e := s.violEntry p status
  let s := s.updSdio (fun x =>
    let l := x.violLog ++ [e]
    { x with violLog := l.drop (l.length - 256) })
  (s.raise evMgmt 4).violCount p

/-- Answers a packet; a status of the Malformed class is a violation. -/
def State.answer (s : State) (p : Packet) (status : Nat) (bytes : List Byte := []) : State :=
  let s := s.reply p status bytes
  if status / 256 = 1 then s.violate p status else s

/-- Commands a limited client may still send. -/
def limitFree (code : Nat) : Bool := code == 0x0101 || code == 0x0303 || code / 256 == 8

/-- RATE_LIMIT_END: 1 s has passed without a violation from the client. -/
def execRateLimitEnd (t client : Nat) (s : State) : Out :=
  let s := s.to t
  guardNext (decide (client < 16) && (s.violNow client).isEmpty) s (fun s => s.setFld 0x28 client client 0)

/-! ### What a packet may be refused for -/

/-- Commands carried out before READY (R530). -/
def earlyOps : List Nat := [0x0100, 0x0101, 0x0200, 0x0120, 0x0700, 0x0801, 0x0A01, 0x0A00]

/-- The device state refuses an opcode (R530, R535). -/
def State.stateRefuses (s : State) (code : Nat) : Bool :=
  match s.mgmt.st with
  | .ready => false
  | .failed => if s.mgmt.fwDigest.isEmpty then !(code == 0x0101 || code == 0x0102) else !(earlyOps.contains code || code == 0x0102)
  | _ => !earlyOps.contains code

/-- The client column refuses a client (R499, R323). -/
def State.columnRefuses (s : State) (col : Column) (c : Nat) : Bool :=
  match col with
  | .any => false
  | .plan => c != 15
  | .client => c == 15
  | .regw => !(s.rbit 0x24 c || c == 15)

/-- The present low-power state lacks a domain (R504, R541). -/
def State.lacks (s : State) (d : Needs) : Bool :=
  match s.mgmt.pow with
  | .hold => !(d == .always || d == .course || d == .net)
  | .standby => d != .always
  | _ => false

/-- The domain of a register block (R17). -/
def blockNeeds (a : Nat) : Needs :=
  match a / 65536 with
  | 0 => .always | 0xB => .always | 0xE => .always | 0xF => .always | 0x10 => .always
  | 1 => .course | 0xC => .course
  | 0xD => .net
  | 2 => .acq
  | 8 => .line | 9 => .line | 0xA => .line
  | _ => .compute

/-- An address of register access needs a domain that is off. -/
def State.addrLacks (s : State) (a : Nat) : Bool := addrOk a && s.lacks (blockNeeds a)

/-- The registers a command of register access names. -/
def hostAddrs : HostCmd → List Nat
  | .regRead a n => (List.range n).map (fun i => a.toNat + 4 * i)
  | .regWrite l => l.map (fun p => p.1.toNat)
  | .regModify a _ _ => [a.toNat]
  | _ => []

/-! ### Objects and deferral (R500, R501) -/

/-- An object that one deferred command may be changing. -/
inductive Obj where
  | plan
  | model (id : Nat)
  | flat (g : Nat)
  | proj (g : Nat)
  | problem (c : Nat)
  | shadow
  | rules
  | key (slot : Nat)
  deriving DecidableEq, Repr

/-- The object a command names. -/
def hostObj : HostCmd → Option Obj
  | .planLoad _ _ => some .plan
  | .planAdmit => some .plan
  | .planStart => some .plan
  | .planStop => some .plan
  | .planUnload => some .plan
  | .modelLoad id _ _ _ _ => some (.model id)
  | .modelUnload id => some (.model id)
  | .flatLoad g _ _ => some (.flat g)
  | .projLoad g _ => some (.proj g)
  | .qpLoad c _ => some (.problem c)
  | .sdfLoad _ _ => some .shadow
  | .occLoad _ _ _ _ => some .shadow
  | .mapPublish => some .shadow
  | .ruleLoad _ _ => some .rules
  | .ownerKeySet k _ _ => some (.key k)
  | .ownerKeyRevoke k _ => some (.key k)
  | _ => none

/-- The commands that are deferred. -/
def State.deferredPkts (s : State) : List Packet :=
  let x := s.sdio
  x.deferred.map (·.pkt) ++ (x.inQ ++ x.inAct.toList ++ x.checks).map (·.d.pkt) ++ x.outQ.map (·.d.pkt)

/-- A deferred command is changing the object that a command names. -/
def State.objBusy (s : State) (c : HostCmd) : Bool :=
  match hostObj c with
  | none => false
  | some o => s.deferredPkts.any (fun p => hostObj p.cmd == some o)

/-- A deferred command of the same client has the packet's TAG. -/
def State.tagBusy (s : State) (p : Packet) : Bool := s.deferredPkts.any (fun q => q.client == p.client && q.tag == p.tag)

/-- A command becomes deferred, or BUSY when eight are. -/
def State.defer (s : State) (p : Packet) (f : State → State) : State := if 8 ≤ s.deferredCnt then s.answer p 0x0401 else f s

/-- Puts a command with the ones that wait for an event. -/
def State.deferOn (s : State) (p : Packet) : State :=
  s.updSdio (fun x => { x with deferred := x.deferred ++ [{ pkt := p, at_ := s.now }] })

/-- A bulk command queues its inbound transfer (R515); one of no bytes answers OK_EMPTY. -/
def State.bulkIn (s : State) (p : Packet) (len : Nat) : State :=
  if len = 0 then s.answer p 1
  else s.defer p (fun s => (s.updSdio (fun x => { x with inQ := x.inQ ++ [{ d := { pkt := p, at_ := s.now }, len := len }] })).bulkNext)

/-- The outbound transfer at the head of the queue begins: its reply is queued, with the data in OUT_WINDOW (R516). -/
def State.outNext (s : State) : State :=
  match s.sdio.outAct, s.sdio.outQ with
  | none, x :: q =>
    (s.updSdio (fun y => { y with
      outQ := q, outAct := some { x with at_ := s.now }, outTag := x.d.pkt.client % 16 * 2 ^ 24 + x.d.pkt.tag % 65536,
      f2Pend := y.f2Pend ||| 2 })).reply x.d.pkt 0 (leBytes 8 x.bytes.length)
  | _, _ => s

/-- A command sends bytes on function 2. -/
def State.bulkOut (s : State) (p : Packet) (bytes : List Byte) : State :=
  s.defer p (fun s => (s.updSdio (fun x => { x with outQ := x.outQ ++ [{ d := { pkt := p, at_ := s.now }, bytes := bytes }] })).outNext)

end Sys2Proof.Machine
end

