-- ==== Sys2Proof/Machine/HostCmds.lean ====
section
/-!
DEFINITION. What each host command does once its packet has passed the checks of SdioCore (R509 to R520), and what becomes of an
inbound image once its last byte has arrived (R517).
-/
namespace Sys2Proof.Machine

/-! ### Area 0x01xx -/

/-- Bits of a mask of the part's resources. -/
def lowMask (n : Nat) : Nat := 2 ^ n - 1

/-- Words of registers as they read now. -/
def State.liveBytes (s : State) (l : List Nat) : List Byte := l.flatMap (fun a => leBytes 4 (s.liveReg a).toNat)

/-- DEVICE_INFO's result; the presence masks in one word, dies [3:0], groups [11:4], channels [27:12], ports [31:28]. -/
def State.deviceInfo (s : State) : List Byte :=
  let ports := if s.part == .vyu4140 then 4 else 2
  s.liveBytes [0, 4, 8, 0xC, 0x10] ++
    leBytes 4 (lowMask s.nDie + lowMask s.nGrp * 2 ^ 4 + lowMask s.nQch * 2 ^ 12 + lowMask ports * 2 ^ 28) ++ leBytes 8 0

/-- Ticks of 10 ms. -/
def tenMs : Nat := 5000000

def State.hostEcho (s : State) (p : Packet) (bs : List Byte) : State := s.answer p (if bs.isEmpty then 1 else 0) bs

/-- DEVICE_RESET: due 10 ms after its reply is queued. -/
def State.hostReset (s : State) (p : Packet) : State :=
  (s.answer p 0).updMgmt (fun m => { m with resetAt := some (s.now + tenMs) })

/-- CXP_REG_READ and CXP_REG_WRITE (R513): the transaction waits for the camera under a tag of its own, the group's next of 256
(log entry 28). -/
def State.hostCxp (s : State) (p : Packet) (g n : Nat) : State :=
  if s.nGrp ≤ g then s.answer p 0x0204
  else if n = 0 then s.answer p 1
  else if !s.grpUp g then s.answer p 0x0203
  else if (s.grpAt g).ctrl.isSome then s.answer p 0x0401
  else s.defer p (fun s => (s.deferOn p).updGrp g (fun x => { x with ctrl := some x.ctrlTag, ctrlTag := (x.ctrlTag + 1) % 256 }))

/-- Bytes of an event-log entry. -/
def logBytes : LogEntry → List Byte
  | .startup bs => bs
  | e => Config.logBytes e

/-- The last n of a list, all of them for 0. -/
def latest {α : Type} (n : Nat) (l : List α) : List α := if n = 0 then l else l.drop (l.length - n)

/-- LOG_PULL: the latest entries, oldest first. -/
def State.hostLog (s : State) (p : Packet) (log most : Nat) : State :=
  if log = 0 then
    let l := latest most s.sdio.evLog
    if l.isEmpty then s.answer p 1 else s.bulkOut p (l.flatMap logBytes)
  else
    let l := latest most s.sdio.violLog
    if l.isEmpty then s.answer p 1 else s.bulkOut p l.flatten

/-- A tile that is not complete, and one that has been overwritten (R94). -/
def State.tileErr (s : State) (band : Int) (c k : Nat) : Nat :=
  let hd (o n : Nat) : Nat := s.lin (k / 32) (headerOff band c k + o) n
  match s.acq.formed.find? (fun q => q.1 == c) with
  | none => 0x0203
  | some (_, n) =>
    if 256 * band + 2920 < n then 0x0404
    else if n < 256 * band + 256 ∨ hd 24 4 ≠ codeOf 32 band ∨ hd 28 2 ≠ k ∨ hd 30 1 ≠ c then 0x0203
    else 0

/-- Reads a tile and its header through ECC (R287): the Bool says that a word could not be corrected. -/
def State.tileRead (s : State) (band : Int) (c k : Nat) : State × Bool :=
  let at_ (off : Nat) : Nat := memKey (spLintel (k / 32)) off
  ((at_ (headerOff band c k), 128) :: (List.range 16).map (fun b =>
    (at_ (ringOff (256 * band + 64 * (b / 4 : Nat)) c (256 * k + 64 * (b % 4)) (k / 32)), 4096))).foldl (fun (acc : State × Bool) q =>
      let (s, b) := acc.1.eccRead q.1 q.2
      (s, acc.2 || b)) (s, false)

/-- IMAGE_PULL (R513); a word of a tile that cannot be read refuses it. -/
def State.hostImage (s : State) (p : Packet) (band : Int) (col mask cols : Nat) : State :=
  let l := ((List.range 4).filter (fun c => mask.testBit c)).flatMap (fun c => (List.range cols).map (fun i => (c, col + i)))
  if l.isEmpty then s.answer p 1
  else if l.any (fun q => !s.hasDie (q.2 / 32)) then s.answer p 0x0204
  else match (l.map (fun q => s.tileErr band q.1 q.2)).find? (fun e => e != 0) with
    | some e => s.answer p (if l.any (fun q => s.tileErr band q.1 q.2 == 0x0404) then 0x0404 else e)
    | none =>
      let (s, bad) := l.foldl (fun (acc : State × Bool) q =>
        let (s, b) := acc.1.tileRead band q.1 q.2
        (s, acc.2 || b)) (s, false)
      if bad then s.answer p 0x0203
      else s.bulkOut p (l.flatMap (fun q =>
        s.ldBytes (memKey (spLintel (q.2 / 32)) (headerOff band q.1 q.2)) 128 ++ s.tileBytes band q.1 q.2))

/-! ### Area 0x02xx: register access (R509) -/

def State.hostRegRead (s : State) (p : Packet) (a : Word) (n : Nat) : State :=
  if n = 0 then s.answer p 1
  else if (hostAddrs p.cmd).any (fun a => !addrOk a) then s.answer p 0x0202
  else if (hostAddrs p.cmd).any s.addrLacks then s.answer p 0x0203
  else
    let (ws, s) := s.readRegs a.toNat n
    s.answer p 0 (ws.flatMap (fun w => leBytes 4 w.toNat))

def State.hostRegWrite (s : State) (p : Packet) (l : List (Word × Word)) : State :=
  if (hostAddrs p.cmd).any s.addrLacks then s.answer p 0x0203
  else
    let (s, n, st) := s.regWrites l
    s.answer p st (leBytes 4 n)

def State.hostRegModify (s : State) (p : Packet) (a m v : Word) : State :=
  if s.addrLacks a.toNat then s.answer p 0x0203
  else if s.restarting && restartBlock a.toNat then s.answer p 0x0603
  else
    let (s, st, r) := s.regModify a m v
    s.answer p st (match r with
      | some w => leBytes 4 w.toNat
      | none => [])

/-! ### Area 0x03xx: plans and graphs -/

/-- The contexts, sequences and pages of a plan are closed and unmapped (they are the plan's own: R349). -/
def State.planClose (s : State) (p : Plan) : State :=
  let s := s.each p.ctxs (fun s c => if s.ctxOk c.ctx && s.ctxFlag c.ctx 7 && s.ctxOwner c.ctx == 15 then s.ctxCloseSet c.ctx else s)
  let s := s.each p.seqs (fun s q => if s.seqOk q.seq && s.seqOpen q.seq && s.seqOwner q.seq == 15 then s.seqClose q.seq else s)
  s.each p.pages (fun s g => s.each (List.range g.count) (fun s i =>
    let n := g.first + i
    if n < 65536 ∧ (s.pte n).mapped ∧ (s.pte n).owner = 15 then s.unmapPage n else s))

/-- Opening a sequence that is open returns its pages first. -/
def State.seqReopen (s : State) (q heads dim : Nat) (q4 mark : Bool) (owner : Nat) (sp0 : Int) (pitch list max : Nat) : State :=
  (if s.seqOpen q then s.seqReset q else s).seqOpenSet q heads dim q4 mark owner sp0 pitch list max

/-- Opening a context that is open closes it first. -/
def State.ctxReopen (s : State) (c stateAddr initAddr size : Nat) (mark : Bool) (tag owner : Nat) (pinned : Bool) : State :=
  (if s.ctxFlag c 7 then s.ctxCloseSet c else s).ctxOpenSet c stateAddr initAddr size mark tag owner pinned

/-- The plan opens its contexts and sequences at load (R214, R246); what cannot be is left to its admission (R337). -/
def State.planOpen (s : State) (p : Plan) : State :=
  let s := s.each p.ctxs (fun s c =>
    if s.ctxOpenErr c.ctx c.stateAddr c.initAddr c.size = 0 then
      s.ctxReopen c.ctx c.stateAddr c.initAddr c.size c.markReset c.tag 15 c.pinned else s)
  s.each p.seqs (fun s q =>
    if s.seqOpenErr q.seq q.heads q.dim q.maxPages q.q4 q.pitch q.listAddr = 0 then
      s.seqReopen q.seq q.heads q.dim q.q4 q.markReset 15 q.sp0 q.pitch q.listAddr q.maxPages else s)

/-- The plan maps the pages it declares, in its order; none where one finds no frame (R303). -/
def State.planMap (s : State) (p : Plan) : Option State :=
  (p.pages.flatMap (fun g => (List.range g.count).map (fun i => (g.first + i, g.pin)))).foldl (fun acc q => acc.bind (fun s =>
    if q.1 < 65536 ∧ s.hasDie (q.1 / 16384) then s.mapPage q.1 q.2 15 else some s)) (some s)

/-- No plan is loaded. -/
def State.planDrop (s : State) : State :=
  let s := match s.bond.plan with
    | some p => s.planClose p
    | none => s
  s.updBond (fun b => { b with
    st := .empty, plan := none, image := [], digest := [], adm := {}, startPending := false, variant := 0, hold := 0,
    signalLate := false, overspeed := false, readmitting := false, readmitAgain := false, readmitted := none, frame := -1,
    framed := false, resume := [], resumed := [] })

/-- A piece of an image lies in the raw region of a present die's Lintel store (R284): a load never writes the fixed region. -/
def State.rawOk (s : State) (x : Nat × Nat × List Byte) : Bool :=
  s.hasDie x.1 && decide (0x06660000 ≤ x.2.1) && decide (x.2.1 + x.2.2.length ≤ (s.tierBase x.1).getD 4096 * 65536)

/-- A piece of an image lies on a frame that is withdrawn (R289). -/
def State.onWithdrawn (s : State) (x : Nat × Nat × List Byte) : Bool :=
  s.mt.withdrawn.any (fun f => f / 4096 == x.1 && decide (f % 4096 * 65536 < x.2.1 + x.2.2.length) &&
    decide (x.2.1 < (f % 4096 + 1) * 65536))

/-- Stores the pieces of an image. -/
def State.placePieces (s : State) (l : List (Nat × Nat × List Byte)) : State :=
  s.each l (fun s x => s.stBytes (memKey (spLintel x.1) x.2.1) x.2.2)

/-- The compute clock is to run at a frequency (R131): at the present one a change that is under way is given up. VDDC_SEL asks at
once for the level of the higher frequency, and for that of the lower one when the clock has it (R566). -/
def State.freqAsk (s : State) (f : Nat) : State :=
  let s := s.settleCycles
  { s with changing := if f = s.freq then none else some f, power := { s.power with vddc := min f s.freq } }

/-- A plan image is LOADED, and its frequency takes effect (R131, R329); a status other than 0 leaves the state. A plan whose pieces
lie outside the raw region is no plan, as its admission says (R337). -/
def State.planPlace (s : State) (img digest : List Byte) : State × Nat :=
  let l := Config.planPlaces img
  let plan := if l.all s.rawOk then Config.parsePlan img else none
  let t := s.planDrop.updBond (fun b => { b with st := .loaded, plan := plan, image := img, digest := digest })
  match plan with
  | none => (t, 0)
  | some p =>
    if l.any s.onWithdrawn then (s, 0x0301)
    else if p.pages.any (fun g => g.count != 0 && g.pin == 3) then (s, 0x020A)
    else match ((t.placePieces l).planOpen p).planMap p with
      | none => (s.raise evMem 1, 0x0301)
      | some t => (if p.freq < 3 then t.freqAsk p.freq else t, 0)

def State.hostPlanLoad (s : State) (p : Packet) (len : Nat) : State := if s.planRuns then s.answer p 0x0203 else s.bulkIn p len

def State.hostPlanAdmit (s : State) (p : Packet) : State :=
  if s.planRuns || !(s.bond.st == .loaded || s.bond.st == .admitted) then s.answer p 0x0203 else s.defer p (fun s => s.deferOn p)

def State.hostPlanStart (s : State) (p : Packet) : State :=
  if s.bond.st == .admitted && !s.bond.startPending then (s.updBond (fun b => { b with startPending := true })).answer p 0
  else s.answer p 0x0203

/-- PLAN_STOP stops all releases at once (R339); a PLAN_START that still waits for its boundary is taken back. -/
def State.hostPlanStop (s : State) (p : Packet) : State :=
  if s.bond.startPending then (s.updBond (fun b => { b with startPending := false })).answer p 0
  else if s.bond.st == .running then (s.updBond (fun b => { b with st := .stopping })).answer p 0
  else s.answer p 0x0203

def State.hostPlanUnload (s : State) (p : Packet) : State := if s.planRuns then s.answer p 0x0203 else s.planDrop.answer p 0

/-- The task entries of a graph in a Lintel store (R322), or none where it does not parse (R323). -/
def State.graphParse (s : State) (d a : Nat) : Option (List TaskEntry) :=
  let n := s.lin d a 2
  let f (i o k : Nat) : Nat := s.lin d (a + 16 + 48 * i + o) k
  if 0x10000000 < a + 16 ∨ 4096 < n ∨ 0x10000000 < a + 16 + 48 * n ∨ s.lin d (a + 2) 14 ≠ 0 then none
  else
    let bad (i : Nat) : Bool := decide (16 < f i 5 1) || f i 10 2 != 0 ||
      (List.range 16).any (fun k => decide (f i 5 1 ≤ k) && f i (16 + 2 * k) 2 != 0)
    let es := (List.range n).map (fun i => ({
      header := f i 0 4, slot := f i 4 1, repeatMax := f i 6 2, repeatBudget := f i 8 2, countAddr := f i 12 4,
      succ := (List.range (f i 5 1)).map (fun k => f i (16 + 2 * k) 2) } : TaskEntry))
    if (List.range n).any bad || !graphOk es then none else some es

/-- Graphs and tasks of a die beside which a graph of `n` tasks does not fit the client share (R134). -/
def State.shareFull (s : State) (d n : Nat) : Bool :=
  let gs := s.bond.graphs.filter (fun g => g.die == d && g.client != 15)
  let (pg, pt) := match s.bond.plan with
    | some p => (lget 0 p.planGraphs d, lget 0 p.planTasks d)
    | none => (0, 0)
  decide (512 < gs.length + 1 + pg) || decide (32768 < (gs.map (fun g => g.tasks.length)).sum + n + pt)

/-- Bytes of a graph that reading it takes, as far as its header says. -/
def State.graphBytes (s : State) (d a : Nat) : Nat := min (16 + 48 * min 4096 (s.lin d a 2)) (0x10000000 - a)

/-- GRAPH_SUBMIT (R323, R349); a graph that cannot be read is refused (R287). -/
def State.hostSubmit (s : State) (p : Packet) (d a : Nat) : State :=
  if !s.hasDie d then s.answer p 0x0204
  else if (s.dieAt d).st == .failed then s.answer p 0x0203
  else
    let (s, bad) := s.eccRead (memKey (spLintel d) a) (s.graphBytes d a)
    if bad then s.answer p 0x0203
    else match s.graphParse d a with
    | none => s.answer p 0x0106
    | some es =>
      if es.any (fun e => e.slot != 0x3F && !(s.clientMask d).testBit e.slot) then s.answer p 0x020A
      else if s.shareFull d es.length then s.answer p 0x0302
      else
        let id := s.bond.nextGraph
        (s.enterGraph d p.client .client 0 0 none [] 0xFFFF es).answer p 0 (leBytes 4 id)

/-- GRAPH_WAIT: answered once the graph has completed. -/
def State.hostWait (s : State) (p : Packet) (id : Nat) : State :=
  match s.bond.graphs.find? (fun g => g.id == id), s.bond.finished.find? (fun f => f.1 == id) with
  | some g, _ => if p.client != 15 && p.client != g.client then s.answer p 0x0205 else s.defer p (fun s => s.deferOn p)
  | none, some (_, c, ok, other) =>
    if p.client != 15 && p.client != c then s.answer p 0x0205 else s.answer p 0 (leBytes 4 ok ++ leBytes 4 other)
  | none, none => s.answer p 0x0203

/-! ### Area 0x04xx: models, maps and memory -/

/-- A running plan names a model by its digest. -/
def State.planNames (s : State) (digest : List Byte) : Bool :=
  s.planRuns && (match s.bond.plan with
    | some p => p.models.contains digest
    | none => false)

/-- The values of an epoch under new adaptation tables: those of groups that stay are kept, a new group's are those it was loaded
with. -/
def epochKeep (gs : List AdaptGroup) (deps : List RescaleDep) (e : EpochVals) : EpochVals :=
  let l := gs.map (fun g => (g.id, match e.groups.find? (fun q => q.1 == g.id) with
    | some q => q.2
    | none => (epochGroup g g.load).1))
  let es := gs.flatMap (fun g => if e.groups.any (fun q => q.1 == g.id) then e.escs.filter (fun x => x.1 == g.id)
    else (epochGroup g g.load).2.map (fun q => (g.id, q.1, q.2)))
  { groups := l, escs := es, rescales := deps.filterMap (fun d => deriveScale (scaleOf l d.a) (scaleOf l d.b) (scaleOf l d.out)) }

/-- The groups and dependent rescales of models. -/
def modelGroups (ms : List ModelImg) : List AdaptGroup × List RescaleDep :=
  let ps := ms.map (fun m => Config.parseModel m.bytes)
  (ps.flatMap (·.1), ps.flatMap (·.2))

/-- Elements of groups. -/
def groupElems (gs : List AdaptGroup) : Nat := (gs.map (fun g => g.load.length)).sum

/-- Bytes of the raw region of the home pair's Lintel store. -/
def State.homeRoom (s : State) : Nat := (s.tierBase s.adaptHome).getD 4096 * 65536 - 0x06660000

/-- The adaptation tables of the models loaded: groups that stay keep their masters and their values in each epoch (R270, R275), and
the masters of all of them lie in the home pair's Lintel store (R271). -/
def State.adaptModels (s : State) (ms : List ModelImg) : State :=
  let (l, deps) := modelGroups ms
  let old := s.adapt.groups
  let gs := l.map (fun g => (old.find? (fun h => h.id == g.id)).getD g)
  let (s, was) := gs.foldl (fun (acc : State × List Masters) g =>
    if old.any (fun h => h.id == g.id) then
      let (s, m) := acc.1.mastersGet g.id 0 g.load.length
      (s, acc.2 ++ [m.getD g.fresh])
    else (acc.1, acc.2 ++ [g.fresh])) (s, [])
  let n := groupElems gs
  let base := 0x06660000 + Config.masterBase n % (s.homeRoom - 12 * n + 1)
  let s := s.updAdapt (fun a => { a with
    groups := gs, base := base, deps := deps, current := epochKeep gs deps a.current, previous := epochKeep gs deps a.previous })
  s.each (gs.zip was) (fun s p => s.mastersPut p.1.id 0 p.2)

/-- Why the adaptation tables of models are refused at load (R165, R270, R271): 0 for none. -/
def State.adaptErr (s : State) (ms : List ModelImg) : Nat :=
  let (gs, deps) := modelGroups ms
  let learned (n : Nat) : Bool := match tensorRec n with
    | some t => t.learned
    | none => false
  let bad (g : AdaptGroup) : Bool := decide (255 < g.id) || (g.scales && (g.load.length != 2 * g.recs.length || g.recs.any (fun n => !learned n)))
  let l := gs.map (fun g => (g.id, (epochGroup g g.load).1))
  let n := groupElems gs
  if gs.any bad || (gs.map (·.id)).eraseDups.length != gs.length || decide (1048576 < n) then 0x0106
  else if deps.any (fun d => (deriveScale (scaleOf l d.a) (scaleOf l d.b) (scaleOf l d.out)).isNone) then 0x0501
  else if s.homeRoom < 12 * n then 0x0301
  else 0

/-- A model is unloaded. -/
def State.modelDrop (s : State) (id : Nat) : State :=
  let ms := s.sdio.models.filter (fun m => m.id != id)
  (s.updSdio (fun x => { x with models := ms })).adaptModels ms

/-- A model image takes its place in the pairs of its mask, and in place of the one of the same ID; the resident regions are copied
again (R144). -/
def State.modelPlace (s : State) (m : ModelImg) (places : List (Nat × Nat × List Byte)) : State :=
  let s := (s.modelDrop m.id).placePieces places
  let ms := s.sdio.models ++ [m]
  ((s.updSdio (fun x => { x with models := ms })).adaptModels ms).refresh

def State.hostModelLoad (s : State) (p : Packet) (id mask len : Nat) (digest : List Byte) : State :=
  if (List.range 4).any (fun d => mask.testBit d && !s.hasDie d) then s.answer p 0x0204
  else if s.planNames digest || s.sdio.models.any (fun m => m.id == id && s.planNames m.digest) then s.answer p 0x0203
  else s.bulkIn p len

def State.hostModelUnload (s : State) (p : Packet) (id : Nat) : State :=
  match s.sdio.models.find? (fun m => m.id == id) with
  | none => s.answer p 0x0203
  | some m =>
    if p.client != 15 && p.client != m.client then s.answer p 0x0205
    else if s.planNames m.digest then s.answer p 0x0203
    else (s.modelDrop id).answer p 0

/-- FLAT_LOAD and PROJ_LOAD (R86): a table of n entries of k bytes for group g. -/
def State.hostMapLoad (s : State) (p : Packet) (g n k : Nat) : State :=
  if s.nGrp ≤ g then s.answer p 0x0204
  else if s.linePixels g < n then s.answer p 0x020A
  else s.bulkIn p (n * k)

/-- Pages first to first + n − 1 that another client has mapped. -/
def State.pageForeign (s : State) (c first n : Nat) : Bool :=
  c != 15 && (List.range n).any (fun i => (s.pte (first + i)).mapped && (s.pte (first + i)).owner != c)

/-- Maps pages in increasing number; none where one finds no frame. -/
def State.mapPages (s : State) (first pin owner : Nat) : Nat → Option State
  | 0 => some s
  | n + 1 => match s.mapPage first pin owner with
    | none => none
    | some t => t.mapPages (first + 1) pin owner n

/-- PAGE_MAP (R303): all of its pages or, where no frame is free, none. -/
def State.hostPageMap (s : State) (p : Packet) (first n pin : Nat) : State :=
  if n = 0 then s.answer p 1
  else if !s.hasDie ((first + n - 1) / 16384) then s.answer p 0x0204
  else if pin = 3 then s.answer p 0x020A
  else if s.pageForeign p.client first n then s.answer p 0x0205
  else match s.mapPages first pin p.client n with
    | some t => t.answer p 0
    | none => (s.raise evMem 1).answer p 0x0301

def State.hostPageUnmap (s : State) (p : Packet) (first n : Nat) : State :=
  if n = 0 then s.answer p 1
  else if !s.hasDie ((first + n - 1) / 16384) then s.answer p 0x0204
  else if s.pageForeign p.client first n then s.answer p 0x0205
  else (s.each (List.range n) (fun s i =>
    if (s.pte (first + i)).mapped then s.unmapPage (first + i) else s)).remapMore.answer p 0

/-- Why MEM_READ or MEM_WRITE of n bytes is refused: 0 for nothing. The raw region of a die ends at its TIER_BASE. -/
def State.memErr (s : State) (client sp a n : Nat) : Nat :=
  if sp = 4 then
    let first := a / 65536
    let cnt := (a + n - 1) / 65536 + 1 - first
    if 2 ^ 32 < a + n then 0x0105
    else if !s.hasDie ((a + n - 1) / 65536 / 16384) then 0x0204
    else if s.pageForeign client first cnt then 0x0205
    else if (List.range cnt).any (fun i => !(s.pte (first + i)).mapped || (s.pte (first + i)).lost) then 0x0203
    else 0
  else if !s.hasDie sp then 0x0204
  else if a < 0x06660000 ∨ (s.tierBase sp).getD 4096 * 65536 < a + n then 0x0105
  else if (s.dieAt sp).st == .failed then 0x0203
  else 0

/-- Stores bytes of MEM_WRITE. -/
def State.memStore (s : State) (sp a : Nat) (bs : List Byte) : State :=
  if sp = 4 then (s.tierWrite whoHost a bs).1 else s.stBytes (memKey (spLintel sp) a) bs

/-- Reads bytes of MEM_READ; an uncorrectable word is an error. -/
def State.memFetch (s : State) (sp a n : Nat) : State × Option (List Byte) :=
  if sp = 4 then
    match s.tierRead whoHost a n with
    | (s, .ok bs) => (s, some bs)
    | (s, .error _) => (s, none)
  else
    let (s, bad) := s.eccRead (memKey (spLintel sp) a) n
    (s, if bad then none else some (s.ldBytes (memKey (spLintel sp) a) n))

def State.hostMemWrite (s : State) (p : Packet) (sp a : Nat) (bs : List Byte) : State :=
  if bs.isEmpty then s.answer p 1
  else
    let e := s.memErr p.client sp a bs.length
    if e ≠ 0 then s.answer p e else (s.memStore sp a bs).answer p 0

def State.hostMemWriteBulk (s : State) (p : Packet) (sp a len : Nat) : State :=
  if len = 0 then s.answer p 1
  else
    let e := s.memErr p.client sp a len
    if e ≠ 0 then s.answer p e else s.bulkIn p len

def State.hostMemRead (s : State) (p : Packet) (sp a n : Nat) (bulk : Bool) : State :=
  if n = 0 then s.answer p 1
  else
    let e := s.memErr p.client sp a n
    if e ≠ 0 then s.answer p e
    else match s.memFetch sp a n with
      | (s, none) => s.answer p 0x0203
      | (s, some bs) => if bulk then s.bulkOut p bs else s.answer p 0 bs

/-! ### Area 0x05xx: contexts and sequences -/

def State.hostCtxOpen (s : State) (p : Packet) (c stateAddr initAddr size : Nat) (mark : Bool) (tag : Nat) : State :=
  if s.ctxOk c && s.ctxFlag c 7 && p.client != 15 && s.ctxOwner c != p.client then s.answer p 0x0205
  else
    let e := s.ctxOpenErr c stateAddr initAddr size
    if e ≠ 0 then s.answer p e else (s.ctxReopen c stateAddr initAddr size mark tag p.client false).answer p 0

def State.hostCtxClose (s : State) (p : Packet) (c : Nat) : State :=
  if !s.ctxOk c then s.answer p 0x0204
  else if !s.ctxFlag c 7 then s.answer p 0x0203
  else if p.client != 15 && s.ctxOwner c != p.client then s.answer p 0x0205
  else if !(s.ctxQueue c).isEmpty || s.ctxRunning c then s.answer p 0x0401
  else (s.ctxCloseSet c).answer p 0

/-- A sequence that another client has opened. -/
def State.seqForeign (s : State) (c q : Nat) : Bool := s.seqOpen q && c != 15 && s.seqOwner q != c

def State.hostSeqOpen (s : State) (p : Packet) (q heads dim : Nat) (q4 mark : Bool) (sp0 : Int) (pitch list max : Nat) : State :=
  if s.seqOk q && s.seqForeign p.client q then s.answer p 0x0205
  else
    let e := s.seqOpenErr q heads dim max q4 pitch list
    if e ≠ 0 then s.answer p e else (s.seqReopen q heads dim q4 mark p.client sp0 pitch list max).answer p 0

def State.hostSeqFork (s : State) (p : Packet) (src dst n : Nat) : State :=
  if !s.seqOk src || !s.seqOk dst then s.answer p 0x0204
  else if !s.seqOpen src || !s.seqOpen dst then s.answer p 0x0203
  else if s.seqForeign p.client src || s.seqForeign p.client dst then s.answer p 0x0205
  else if n = 0 then s.answer p 1
  else
    let (s, st) := s.seqFork src dst n
    s.answer p st

def State.hostSeqClose (s : State) (p : Packet) (q : Nat) : State :=
  if !s.seqOk q then s.answer p 0x0204
  else if !s.seqOpen q then s.answer p 0x0203
  else if s.seqForeign p.client q then s.answer p 0x0205
  else (s.seqClose q).answer p 0

/-! ### Area 0x06xx: the line -/

def State.hostCourseProg (s : State) (p : Packet) (g : Nat) (text : List Nat) : State :=
  let (s, st) := s.progLoad g text
  s.answer p st

/-- SERVO_PROG_LOAD (R366, R367): not while the axis is ENABLED; f16 to f63 take their initial values. -/
def State.hostServoProg (s : State) (p : Packet) (a : Nat) (text consts inits : List Word) : State :=
  if (s.axAt a).st == .enabled then s.answer p 0x0203
  else match text.mapM lawDecode with
    | none => s.answer p 0x0106
    | some l => (s.updAx a (fun x => { x with
        prog := l, consts := consts, inits := inits, f := x.f.take 16 ++ inits })).answer p 0

/-- MOTION_POST: the requests wait for the next base tick (R398). -/
def State.hostMotionPost (s : State) (p : Packet) (l : List Req) : State :=
  (s.updLine (fun x => { x with hostReqs := x.hostReqs ++ l })).answer p 0 (leBytes 4 l.length)

/-- SDF_LOAD and OCC_LOAD: BUSY while the shadow is HELD or copied (R405). -/
def State.hostShadowLoad (s : State) (p : Packet) (len : Nat) : State :=
  if s.line.held.isSome then (s.raise evMotion 0).answer p 0x0401 else s.bulkIn p len

def State.hostPublish (s : State) (p : Packet) : State :=
  let s := s.mapPublish
  s.answer p 0 (leBytes 4 s.line.version)

/-! ### Areas 0x07xx to 0x0Fxx -/

/-- 16 bytes of a clock: seconds, nanoseconds and the fraction. -/
def clockBytes (v : Nat) : List Byte := leBytes 8 (v / secUnits) ++ leBytes 4 (v % secUnits / 2 ^ 32) ++ leBytes 4 (v % 2 ^ 32)

def State.hostTimeRead (s : State) (p : Packet) : State :=
  s.answer p 0 (clockBytes (s.clkSel 0) ++ clockBytes (s.clkSel 1) ++ clockBytes (s.clkSel 2) ++ le64 s.sp)

/-- RULE_LOAD (R437, R438, R517). -/
def State.hostRuleLoad (s : State) (p : Packet) (digest img : List Byte) : State :=
  if img.isEmpty then s.answer p 1
  else if s.plumb.st == .split then s.answer p 0x0602
  else if sha512 img ≠ digest then s.answer p 0x0208
  else match ruleParse img digest with
    | .error e => s.answer p e
    | .ok r => (s.rulePlace r).answer p 0

def State.hostSafety (s : State) (p : Packet) : State :=
  s.answer p 0 (s.liveBytes [0xB0000, 0xB0020, 0xB0024, 0xB0028, 0xB001C, 0xB002C, 0xB0034, 0xB0038])

/-- Cores the variant of the greatest vp uses or offers. -/
def State.bestCores (s : State) : Nat :=
  let a := s.bond.readmitted.getD s.bond.adm
  let best := a.vp.foldl max 0
  match a.variants[a.vp.findIdx (fun x => x == best)]? with
  | none => 0
  | some v => (s.pairsInService.map (fun d => match v[d]? with
      | some x => (slotList (x.slotUse ||| x.clientMask)).length
      | none => 0)).sum

/-- The reply of BUDGET_SET (R555). -/
def State.budgetReply (s : State) (p : Packet) : State :=
  let v := s.vlimit
  let mw := (s.baseMw + s.bestCores * s.power.pcore) * 1000000
  s.answer p 0 (leBytes 4 s.power.granted ++ leBytes 4 v ++ leBytes 4 (if v = 0 then 0 else min m32 ((2 * mw + v) / (2 * v))) ++
    leBytes 4 0)

/-- BUDGET_SET acts (R554 to R556): the grant, then what the plan state asks for. -/
def State.budgetStart (s : State) (p : Packet) (mw : Nat) (cold : Bool) : State :=
  let s := s.updPower (fun x => { x with
    budget := mw, cap := if cold then 420000 else 380000, cold420 := cold, pcore := coreFig s.freq })
  let s := (s.updPower (fun x => { x with granted := s.grantOf })).raise evPower 6
  match s.bond.st with
  | .running => s.readmit.updSdio (fun x => { x with waiting := some p, waitBegun := true })
  | .admitted => s.admitNow.budgetReply p
  | _ => s.budgetReply p

def State.hostBudget (s : State) (p : Packet) (mw : Nat) (cold : Bool) : State :=
  if s.restarting then s.answer p 0x0401
  else if s.bond.readmitting then s.updSdio (fun x => { x with waiting := some p, waitBegun := false })
  else s.budgetStart p mw cold

/-- A task or graph is in flight. -/
def State.anyTask (s : State) : Bool := !s.bond.graphs.isEmpty || s.die.any (fun d => d.run.any Option.isSome)

/-- POWER_STATE (R540, R542, R559): refused, done at once, or waiting for the state. -/
def State.hostPower (s : State) (p : Packet) (n : Nat) : State :=
  let to_ : PowState := lget .run [.run, .idle, .hold, .standby] n
  if s.restarting then s.answer p 0x0603
  else if s.dies.any (fun d => (s.dieAt d).st == .restarting) then s.answer p 0x0401
  else if s.mgmt.powTo.isSome then s.answer p 0x0401
  else if s.mgmt.pow == to_ then s.answer p 0
  else if (to_ == .run || (to_ == .idle && s.mgmt.pow != .run)) && s.power.tripped && !s.coolEnough then s.answer p 0x0203
  else if to_ != .run && s.planRuns then s.answer p 0x0203
  else if to_ == .idle && s.mgmt.pow == .run && s.anyTask then s.answer p 0x0401
  else (s.updSdio (fun x => { x with waiting := some p, waitBegun := true })).powerAccept to_

def State.hostAccount (s : State) (p : Packet) (c d : Nat) : State :=
  if p.client != 15 && p.client != c then s.answer p 0x0205
  else if d < 4 ∧ !s.hasDie d then s.answer p 0x0204
  else s.answer p 0 ((s.acctOf c d).words.flatMap (fun w => leBytes 4 w.toNat))

/-- Models loaded, in increasing ID. -/
def State.modelsById (s : State) : List ModelImg :=
  s.sdio.models.foldl (fun l m => l.takeWhile (fun x => decide (x.id < m.id)) ++ m :: l.dropWhile (fun x => decide (x.id < m.id))) []

/-- Bytes padded with zeros or cut to n. -/
def padTo (n : Nat) (l : List Byte) : List Byte := (l ++ List.replicate n 0#8).take n

/-- The attestation report but for its signature (R520). -/
def State.reportBody (s : State) (nonce : List Byte) : List Byte :=
  let b := s.bond
  let rules := match s.plumb.image with
    | some r => r.digest
    | none => []
  let flags := b2n (b.st != .empty) + 2 * b2n (b.st == .running) + 4 * b2n s.plumb.image.isSome + 8 * b2n (s.plumb.st == .split) +
    16 * b2n (s.mgmt.ownerSig || s.mgmt.ownerSigFuse) + 32 * b2n s.test.mode
  leBytes 1 1 ++ leBytes 1 s.sdio.models.length ++ leBytes 2 flags ++ s.liveBytes [0, 4, 8] ++ padTo 32 nonce ++
    padTo 64 s.mgmt.fwDigest ++ padTo 64 b.digest ++ padTo 64 rules ++ leBytes 8 s.time64 ++ le64 s.sp ++ leBytes 4 s.secStatus ++
    leBytes 4 0 ++ s.modelsById.flatMap (fun m => padTo 64 m.digest)

/-- ATTEST: the report and its signature by the device identity key. -/
def State.hostAttest (s : State) (p : Packet) (nonce : List Byte) : State :=
  s.defer p (fun s =>
    let r := s.reportBody nonce
    s.answer p 0 (r ++ edSign Config.deviceSeed (sha512 r)))

def State.hostKeyInfo (s : State) (p : Packet) : State :=
  s.answer p 0 (leBytes 4 s.secStatus ++ leBytes 4 0 ++ padTo 32 s.deviceKey ++ leBytes 8 0)

/-- OWNER_KEY_SET (R518). -/
def State.hostKeySet (s : State) (p : Packet) (k : Nat) (key : List Byte) : State :=
  let slot : KeySlot := lget {} s.mgmt.ownerKeys k
  if s.planRuns then s.answer p 0x0203
  else if slot.revoked then s.answer p 0x020A
  else if slot.hash.isSome then s.answer p 0x0203
  else
    let s := s.updMgmt (fun m => { m with ownerKeys := lmod m.ownerKeys k (fun x => { x with hash := some ((sha512 key).take 32) }) })
    (s.raise evSec 1).answer p 0

/-- OWNER_KEY_REVOKE (R518). -/
def State.hostKeyRevoke (s : State) (p : Packet) (k : Nat) : State :=
  let slot : KeySlot := lget {} s.mgmt.ownerKeys k
  if s.planRuns || slot.hash.isNone then s.answer p 0x0203
  else
    let s := s.updMgmt (fun m => { m with ownerKeys := lmod m.ownerKeys k (fun x => { x with revoked := true }) })
    (s.raise evSec 0).answer p 0

def State.hostTestMode (s : State) (p : Packet) (e : Nat) : State :=
  if e = 1 ∧ s.planRuns then s.answer p 0x0203 else (s.testMode (e == 1)).answer p 0

/-! ### Carrying a command out -/

/-- The commands of areas 0x01xx to 0x04xx. -/
def State.hostRunA (s : State) (p : Packet) : State :=
  match p.cmd with
  | .echo bs => s.hostEcho p bs
  | .deviceInfo => s.answer p 0 s.deviceInfo
  | .deviceReset _ => s.hostReset p
  | .cxpRegRead g _ n => s.hostCxp p g n
  | .cxpRegWrite g _ bs => s.hostCxp p g bs.length
  | .logPull l n => s.hostLog p l n
  | .imagePull b c m n => s.hostImage p b c m n
  | .regRead a n => s.hostRegRead p a n
  | .regWrite l => s.hostRegWrite p l
  | .regModify a m v => s.hostRegModify p a m v
  | .planLoad n _ => s.hostPlanLoad p n
  | .planAdmit => s.hostPlanAdmit p
  | .planStart => s.hostPlanStart p
  | .planStop => s.hostPlanStop p
  | .planUnload => s.hostPlanUnload p
  | .graphSubmit d a => s.hostSubmit p d a
  | .graphWait id => s.hostWait p id
  | .modelLoad id m _ n dg => s.hostModelLoad p id m n dg
  | .modelUnload id => s.hostModelUnload p id
  | .flatLoad g _ n => s.hostMapLoad p g n 4
  | .projLoad g n => s.hostMapLoad p g n 8
  | .pageMap f n pin => s.hostPageMap p f n pin
  | .pageUnmap f n => s.hostPageUnmap p f n
  | .memWrite sp a bs => s.hostMemWrite p sp a bs
  | .memWriteBulk sp a n => s.hostMemWriteBulk p sp a n
  | .memRead sp a n => s.hostMemRead p sp a n false
  | .memReadBulk sp a n => s.hostMemRead p sp a n true
  | _ => s

/-- Carries a command out (R502). -/
def State.hostRun (s : State) (p : Packet) : State :=
  match p.cmd with
  | .ctxOpen c a i n m tag => s.hostCtxOpen p c a i n m tag
  | .ctxClose c => s.hostCtxClose p c
  | .seqOpen q h d q4 m sp0 pitch l n => s.hostSeqOpen p q h d q4 m sp0 pitch l n
  | .seqFork a b n => s.hostSeqFork p a b n
  | .seqClose q => s.hostSeqClose p q
  | .courseProgLoad g l => s.hostCourseProg p g l
  | .servoProgLoad a l k i => s.hostServoProg p a l k i
  | .qpLoad _ n => s.bulkIn p n
  | .motionPost l => s.hostMotionPost p l
  | .sdfLoad _ n => s.hostShadowLoad p n
  | .occLoad _ _ _ n => s.hostShadowLoad p n
  | .mapPublish => s.hostPublish p
  | .timeRead => s.hostTimeRead p
  | .ruleLoad dg img => s.hostRuleLoad p dg img
  | .safetyStatus => s.hostSafety p
  | .budgetSet mw c => s.hostBudget p mw c
  | .powerState n => s.hostPower p n
  | .accountRead c d => s.hostAccount p c d
  | .attest n => s.hostAttest p n
  | .keyInfo => s.hostKeyInfo p
  | .ownerKeySet k key _ => s.hostKeySet p k key
  | .ownerKeyRevoke k _ => s.hostKeyRevoke p k
  | .testMode e _ => s.hostTestMode p e
  | _ => s.hostRunA p

/-! ### Inbound images (R517) -/

/-- Check of the digest of a command that carries one. -/
def digestBad : HostCmd → List Byte → Bool
  | .planLoad _ dg, bs => sha512 bs != dg
  | .modelLoad _ _ _ _ dg, bs => sha512 bs != dg
  | _, _ => false

/-- A projection map that R86 refuses: x not strictly rising, or a weight above 0x8000. -/
def projBad (n : Nat) (bs : List Byte) : Bool :=
  let x (i : Nat) : Int := signedOf 32 (leAt bs (8 * i + 4) 4)
  (List.range n).any (fun i => decide (0x8000 < leAt bs (8 * i) 2) || (decide (i + 1 < n) && decide (x (i + 1) ≤ x i)))

/-- A PRIVILEGED tensor with ESC set, or an INT4 one at 4:1 (R200). -/
def privBad (n : Nat) (quarter : Bool) : Bool :=
  match tensorRec n with
  | some t => t.privileged && (t.esc || (t.fmt == .int4 && quarter))
  | none => false

/-- A record of an image is faulty (R159), or asks for a format that R200 refuses: the status. -/
def imageErr (bs : List Byte) : Nat :=
  let recs := Config.imageRecs bs
  if recs.any (fun r => recFault r.1) then 0x0501 else if recs.any (fun r => privBad r.1 r.2) then 0x0206 else 0

/-- A model needs a signature it has not got (R519). -/
def State.modelSigBad (s : State) (signed : Bool) (bs : List Byte) : Bool :=
  if signed then !s.trailerOk 2 bs else s.mgmt.ownerSig || s.mgmt.ownerSigFuse

/-- A model image, once digest and signature are right. -/
def State.modelDone (s : State) (client id mask : Nat) (digest bs : List Byte) : State × Nat :=
  let e := imageErr bs
  if e ≠ 0 then (s, e)
  else if 32 ≤ (s.sdio.models.filter (fun m => m.id != id)).length then (s, 0x0301)
  else match Config.modelPlaces mask bs with
    | none => (s, 0x0301)
    | some l =>
      let m : ModelImg := { id := id, client := client, mask := mask, digest := digest, bytes := bs,
                            areas := l.map (fun x => (x.1, x.2.1, x.2.2.length)) }
      let e := s.adaptErr (s.sdio.models.filter (fun m => m.id != id) ++ [m])
      if l.any (fun x => !mask.testBit x.1 || !s.rawOk x || s.onWithdrawn x) then (s, 0x0301)
      else if e ≠ 0 then (s, e)
      else (s.modelPlace m l, 0)

/-- Checks the image of an inbound command and places it; a status other than OK leaves the state. -/
def State.bulkDone (s : State) (p : Packet) (bs : List Byte) : State × Nat :=
  if digestBad p.cmd bs then (s, 0x0208)
  else match p.cmd with
    | .planLoad _ dg =>
      let e := imageErr bs
      if s.planRuns then (s, 0x0203) else if e ≠ 0 then (s, e) else s.planPlace bs dg
    | .modelLoad id mask sg _ dg => if s.modelSigBad sg bs then (s.sigFail, 0x0207) else s.modelDone p.client id mask dg bs
    | .flatLoad g ph _ => (s.stBytes (memKey (spFlat g 1) (65536 * ph)) bs, 0)
    | .projLoad g n => if projBad n bs then (s, 0x020A) else (s.stBytes (memKey (spProj g 1) 0) bs, 0)
    | .memWriteBulk sp a n =>
      let e := s.memErr p.client sp a n
      if e ≠ 0 then (s, e) else (s.memStore sp a bs, 0)
    | .qpLoad c n =>
      if 0x100000 < n then (s, 0x0304)
      else match parseQp bs with
        | .error e => (s, e)
        | .ok q => (s.qpPlace c q, 0)
    | .sdfLoad box _ => if s.line.held.isSome then (s.raise evMotion 0, 0x0401) else (s.sdfPlace box bs, 0)
    | .occLoad t0 a _ _ => if s.line.held.isSome then (s.raise evMotion 0, 0x0401) else (s.occPlace t0 a bs, 0)
    | _ => (s, 0)

/-- Answers an inbound command on its bytes: a domain that is off refuses it (R504), and more bytes than were announced leave
nothing of an image that is otherwise accepted (R515). -/
def State.bulkFinish (s : State) (i : Inbound) : State :=
  let p := i.d.pkt
  let lacks := match opRow p.opcode with
    | some r => s.lacks r.needs
    | none => false
  if lacks then s.answer p 0x0203
  else
    let (t, st) := s.bulkDone p i.got.reverse
    if st ≠ 0 then t.answer p st
    else if i.beyond then s.answer p 0x0108
    else t.answer p 0

end Sys2Proof.Machine
end

