-- ==== Sys2Proof/Machine/Sdio.lean ====
section
/-!
DEFINITION. The SDIO card (R492 to R496, R500, R514 to R517): its buffers, the order packets are taken in, the bus commands, bulk
transfers, the rows of the opcode table that are host commands or register commands, and the events that end what a packet waits
for.
-/
namespace Sys2Proof.Machine

/-! ### The packet buffers (R494 to R496, R500) -/

/-- Bytes of a reply on the bus: the frame of R498 and the result. -/
def replyBytes (r : Reply) : List Byte :=
  let h := leBytes 2 r.status ++ leBytes 2 r.tag ++ leBytes 4 r.bytes.length ++ leBytes 1 r.client ++ leBytes 1 0 ++ leBytes 2 r.opcode
  h ++ leBytes 4 (crc32c (h ++ r.bytes)) ++ r.bytes

/-- Bytes of replies not yet read. -/
def State.replyUsed (s : State) : Nat := (s.sdio.replies.map (fun r => 16 + r.bytes.length)).sum - s.sdio.consumed

/-- Bytes of the command buffer in use. -/
def State.cmdUsed (s : State) : Nat := (s.sdio.cmdBuf.map (·.size)).sum

/-- The next packet may be taken: nothing waits, the reply buffer has room for the largest reply, no reset is due, and the
management core has its clock. -/
def State.mayTake (s : State) : Bool :=
  s.sdio.waiting.isNone && s.mgmt.resetAt.isNone && s.mgmt.refclk && decide (s.replyUsed + 4112 ≤ 65536)

/-- A packet that could not be taken; one of a limited client is counted, but answered REFUSED_RATE (R508). -/
def State.malformed (s : State) (p : Packet) (status : Nat) : State :=
  if s.limited (violClient p) then (s.violCount p).reply p 0x0209 else s.answer p status

/-- A client is enabled, or asks for DEVICE_INFO (R499). -/
def State.clientOn (s : State) (p : Packet) : Bool := p.client == 15 || s.rbit 0x20 p.client || p.opcode == 0x0101

/-- The status a well-formed packet is refused with before it is carried out, 0 for none, in the order the checks are made. -/
def State.refusal (s : State) (p : Packet) : Nat :=
  if !s.clientOn p then 0x0205
  else if s.tagBusy p then 0x0402
  else if s.stateRefuses p.opcode then 0x0203
  else match opRow p.opcode with
    | none => 0x0103
    | some r =>
      if s.columnRefuses r.col p.client then 0x0205
      else if s.restarting && p.opcode / 256 == 6 && p.opcode != 0x0600 then 0x0603
      else if s.lacks r.needs then 0x0203
      else if p.bad ≠ 0 then p.bad
      else if s.objBusy p.cmd then 0x0401
      else 0

/-- A packet is taken from the command buffer. -/
def State.takePkt (s : State) (p : Packet) : State :=
  let s := (s.bump 0x34).updSdio (fun x => { x with f1Pend := x.f1Pend ||| 2 })
  if p.bad ≠ 0 ∧ (p.bad ≠ 0x0105 ∨ s.limited (violClient p)) then s.malformed p p.bad
  else if s.limited (violClient p) && !limitFree p.opcode then s.reply p 0x0209
  else
    let st := s.refusal p
    if st ≠ 0 then s.answer p st else s.hostRun p

/-- Takes up to n packets. -/
def State.pumpN : Nat → State → State
  | 0, s => s
  | n + 1, s =>
    match s.sdio.cmdBuf with
    | [] => s
    | p :: q => if s.mayTake then State.pumpN n ((s.updSdio (fun x => { x with cmdBuf := q })).takePkt p) else s

/-- Takes the packets that may be taken now. -/
def State.pump (s : State) : State := s.pumpN s.sdio.cmdBuf.length

/-- A packet reaches CMD_WINDOW; before firmware or the boot ROM serves function 1 the write is lost. -/
def State.submit (s : State) (p : Packet) : State :=
  if s.mgmt.st == .boot then s
  else if 65536 < s.cmdUsed + p.size then s.malformed p 0x0107
  else (s.updSdio (fun x => { x with cmdBuf := x.cmdBuf ++ [p] })).pump

/-- Replies left once n bytes of them have been read, and the bytes read of the first. -/
def dropReplies : Nat → List Reply → List Reply × Nat
  | n, [] => ([], n * 0)
  | n, r :: l => if 16 + r.bytes.length ≤ n then dropReplies (n - (16 + r.bytes.length)) l else (r :: l, n)

/-- A read of n bytes of REPLY_WINDOW: zeros beyond the replies, which it consumes. A DEVICE_RESET whose reply has been read is due
(R510). -/
def State.readReply (s : State) (n : Nat) : State :=
  let all := (s.sdio.replies.flatMap replyBytes).drop s.sdio.consumed
  let (rs, c) := dropReplies (s.sdio.consumed + min n all.length) s.sdio.replies
  let s := s.updSdio (fun x => { x with dat := padTo n all, replies := rs, consumed := c })
  let s := if s.mgmt.resetAt.isSome && !rs.any (fun r => r.opcode == 0x0102 && r.status == 0) then
      s.updMgmt (fun m => { m with resetAt := some s.now }) else s
  s.pump

/-- The command that later packets wait behind is answered. -/
def State.waitEnd (s : State) (f : State → Packet → State) : State :=
  match s.sdio.waiting with
  | none => s
  | some p => f (s.updSdio (fun x => { x with waiting := none, waitBegun := false })) p

/-! ### Bulk transfers (R515, R516) -/

/-- MGMT_BULK_TMO in ticks; 0 is taken as 10,000 ms. -/
def State.bulkTmo (s : State) : Nat :=
  let n := s.rfld 0x2C 15 0
  500000 * (if n = 0 then 10000 else n)

/-- Bytes written to IN_WINDOW. -/
def State.bulkWrite (s : State) (bs : List Byte) : State :=
  match s.sdio.inAct with
  | none => (s.bump 0x3C bs.length).raise evMgmt 1
  | some x =>
    let left := x.len - x.n
    let y : Inbound := { x with got := (bs.take left).reverse ++ x.got, n := x.n + min left bs.length, beyond := decide (left < bs.length) }
    if y.n < y.len then s.updSdio (fun z => { z with inAct := some y })
    else (s.updSdio (fun z => { z with inAct := none, checks := z.checks ++ [y] })).bulkNext

/-- A read of n bytes of OUT_WINDOW. -/
def State.bulkRead (s : State) (n : Nat) : State :=
  match s.sdio.outAct with
  | none => s.updSdio (fun x => { x with dat := padTo n [] })
  | some y =>
    let rest := y.bytes.drop n
    let s := s.updSdio (fun x => { x with
      dat := padTo n y.bytes, outAct := if rest.isEmpty then none else some { y with bytes := rest } })
    s.outNext

/-- IMAGE_CHECK_DONE (R517): the oldest image that has arrived is checked, placed and answered. -/
def execImageCheckDone (t : Nat) (s : State) : Out :=
  let s := s.to t
  match s.sdio.checks with
  | [] => .next s
  | i :: l => .next (((s.updSdio (fun x => { x with checks := l })).bulkFinish i).pump)

/-- BULK_TIMEOUT (R515): the ACTIVE inbound transfer is LATE_BULK. -/
def execBulkTimeout (t : Nat) (s : State) : Out :=
  let s := s.to t
  match s.sdio.inAct with
  | none => .next s
  | some x => guardNext (decide (x.at_ + s.bulkTmo ≤ s.now)) s (fun s =>
      ((((s.updSdio (fun y => { y with inAct := none })).raise evMgmt 2).answer x.d.pkt 0x0403).bulkNext).pump)

/-- BULK_OUT_TIMEOUT (R516): the next outbound transfer begins. -/
def execBulkOutTimeout (t : Nat) (s : State) : Out :=
  let s := s.to t
  match s.sdio.outAct with
  | none => .next s
  | some x => guardNext (decide (x.at_ + s.bulkTmo ≤ s.now)) s (fun s => (s.updSdio (fun y => { y with outAct := none })).outNext)

/-! ### The card (R492, R494, R514) -/

/-- A 32-bit register of function 1. -/
def State.f1Reg (s : State) (a : Nat) : Nat :=
  match a with
  | 0x20000 => 65536 - s.cmdUsed
  | 0x20004 => s.replyUsed
  | 0x20008 => s.sdio.f1Pend
  | 0x2000C => s.sdio.f1En
  | _ => 0

/-- A 32-bit register of function 2. -/
def State.f2Reg (s : State) (a : Nat) : Nat :=
  let x := s.sdio
  match a with
  | 0x20000 => b2n x.inAct.isSome * 2 ^ 31 + x.inTag
  | 0x20004 => match x.inAct with
    | some i => i.len - i.n
    | none => 0
  | 0x20008 => b2n x.outAct.isSome * 2 ^ 31 + x.outTag
  | 0x2000C => match x.outAct with
    | some o => o.bytes.length
    | none => 0
  | 0x20010 => x.f2Pend
  | 0x20014 => x.f2En
  | _ => 0

/-- The card drives its interrupt for a function: a pending bit that is enabled (R494, R514). -/
def State.cardInt (s : State) (fn : Nat) : Bool :=
  let x := s.sdio
  x.ien.testBit 0 && x.ien.testBit fn &&
    (if fn = 1 then (x.f1Pend &&& x.f1En) != 0 else if fn = 2 then (x.f2Pend &&& x.f2En) != 0 else false)

/-- Bytes of the card's own register space (function 0) that its state decides, at the places the SDIO 3.0 standard gives them
(PRESUMED); none elsewhere. -/
def State.fn0Byte (s : State) (a : Nat) : Option Nat :=
  let x := s.sdio
  match a with
  | 0x00 => some 0x43
  | 0x01 => some 0x03
  | 0x02 => some x.ioe
  | 0x03 => some (if s.mgmt.st == .boot then 0 else x.ioe)
  | 0x04 => some x.ien
  | 0x05 => some (2 * b2n (s.cardInt 1) + 4 * b2n (s.cardInt 2))
  | 0x07 => some (2 * b2n x.bus4)
  | 0x10 => some (lget 0 x.blk 0 % 256)
  | 0x11 => some (lget 0 x.blk 0 / 256)
  | 0x13 => some (2 * (x.mode - 1))
  | 0x14 => some 3
  | 0x15 => some (16 * x.driver + 3)
  | 0x100 => some 0
  | 0x110 => some (lget 0 x.blk 1 % 256)
  | 0x111 => some (lget 0 x.blk 1 / 256)
  | 0x200 => some 0
  | 0x210 => some (lget 0 x.blk 2 % 256)
  | 0x211 => some (lget 0 x.blk 2 / 256)
  | _ => none

/-- A block size with one byte replaced. -/
def blkByte (hi : Bool) (old b : Nat) : Nat := if hi then old % 256 + 256 * (b % 4) else old / 256 * 256 + b

/-- A write of a byte of function 0. -/
def State.fn0Write (s : State) (a b : Nat) : State :=
  s.updSdio (fun x =>
    let blk (f : Nat) (hi : Bool) : Sdio := { x with blk := lmod x.blk f (fun o => blkByte hi o b) }
    match a with
    | 0x02 => { x with ioe := b &&& 6 }
    | 0x04 => { x with ien := b &&& 7 }
    | 0x06 => if b.testBit 3 then { x with card := .idle, ioe := 0, ien := 0, blk := [0, 0, 0], bus4 := false } else x
    | 0x07 => { x with bus4 := b % 4 == 2 }
    | 0x10 => blk 0 false
    | 0x11 => blk 0 true
    | 0x13 => if x.v18 ∧ b / 2 % 8 < 4 then { x with mode := 1 + b / 2 % 8, tuned := false } else x
    | 0x15 => if b / 16 % 4 < 3 then { x with driver := b / 16 % 4 } else x
    | 0x110 => blk 1 false
    | 0x111 => blk 1 true
    | 0x210 => blk 2 false
    | 0x211 => blk 2 true
    | _ => x)

/-- A write of a byte to the registers of function 1 or 2: writing 1 clears a pending bit. -/
def State.fnWrite (s : State) (fn a b : Nat) : State :=
  s.updSdio (fun x =>
    match fn, a with
    | 1, 0x20008 => { x with f1Pend := x.f1Pend - (x.f1Pend &&& b) }
    | 1, 0x2000C => { x with f1En := b % 8 }
    | 2, 0x20010 => { x with f2Pend := x.f2Pend - (x.f2Pend &&& b) }
    | 2, 0x20014 => { x with f2En := b % 4 }
    | _, _ => x)

/-- A byte of a function's registers. -/
def State.fnByte (s : State) (fn a : Nat) : Nat :=
  (if fn = 1 then s.f1Reg (a / 4 * 4) else s.f2Reg (a / 4 * 4)) / 256 ^ (a % 4) % 256

/-- Bytes of function 0 from an address; those the spec does not give are free values. -/
def State.fn0Read (s : State) (a : Nat) (incr : Bool) : Nat → List Byte × State
  | 0 => ([], s)
  | n + 1 =>
    let (b, s) := match s.fn0Byte a with
      | some b => (b, s)
      | none => (s.free.toNat, s.drew)
    let (l, s) := s.fn0Read (if incr then a + 1 else a) incr n
    (BitVec.ofNat 8 b :: l, s)

/-- A read of n bytes of a function. -/
def State.fnRead (s : State) (fn a n : Nat) (incr : Bool) : State :=
  if fn = 0 then
    let (l, s) := s.fn0Read a incr n
    s.updSdio (fun x => { x with dat := l })
  else if fn = 1 ∧ 0x10000 ≤ a ∧ a < 0x20000 then s.readReply n
  else if fn = 2 ∧ 0x10000 ≤ a ∧ a < 0x20000 then s.bulkRead n
  else s.updSdio (fun x => { x with
    dat := (List.range n).map (fun i => BitVec.ofNat 8 (s.fnByte fn (if incr then a + i else a))) })

/-- A write of bytes to a function, as one CMD53. -/
def State.fnWrites (s : State) (fn a : Nat) (incr : Bool) (bs : List Byte) : State :=
  if fn = 1 ∧ a < 0x10000 then s.submit (framePacket bs)
  else if fn = 2 ∧ a < 0x10000 then s.bulkWrite bs
  else s.each ((List.range bs.length).zip bs) (fun s (i, b) =>
    let a := if incr then a + i else a
    if fn = 0 then s.fn0Write a b.toNat else s.fnWrite fn a b.toNat)

/-- A function answers: function 0 always, the others once they are enabled and served. -/
def State.fnOn (s : State) (fn : Nat) : Bool :=
  s.sdio.card == .command && (fn == 0 || ((fn == 1 || fn == 2) && s.sdio.ioe.testBit fn && s.mgmt.st != .boot))

/-- CMD0: the card returns to its idle state. -/
def execCmd0 (t : Nat) (s : State) : Out :=
  let s := s.to t
  guardNext (s.sdio.card != .inactive) s (fun s => s.updSdio (fun x => { x with card := .idle }))

/-- CMD5: operation conditions; with S18 the host asks for 1.8 V signalling. -/
def execCmd5 (t : Nat) (s18 : Bool) (s : State) : Out :=
  let s := s.to t
  guardNext (s.sdio.card == .idle) s (fun s => s.updSdio (fun x => { x with card := .ready, s18 := s18 }))

/-- CMD3: the card publishes a relative address; the spec does not say which. -/
def execCmd3 (t : Nat) (s : State) : Out :=
  let s := s.to t
  guardNext (s.sdio.card == .ready || s.sdio.card == .standby) s (fun s =>
    (s.drew.updSdio (fun x => { x with card := .standby, rca := s.free.toNat % 65536 })))

/-- CMD7: the card of the address is selected, another is deselected. -/
def execCmd7 (t rca : Nat) (s : State) : Out :=
  let s := s.to t
  guardNext (s.sdio.card == .standby || s.sdio.card == .command) s (fun s =>
    s.updSdio (fun x => { x with card := if rca = x.rca then .command else .standby }))

/-- CMD11: the switch to 1.8 V signalling, which begins in SDR12. -/
def execCmd11 (t : Nat) (s : State) : Out :=
  let s := s.to t
  guardNext (s.sdio.card == .ready && s.sdio.s18) s (fun s => s.updSdio (fun x => { x with v18 := true, mode := 1, tuned := false }))

/-- CMD15: the card is inactive until the next reset. -/
def execCmd15 (t : Nat) (s : State) : Out := .next ((s.to t).updSdio (fun x => { x with card := .inactive }))

/-- CMD19: tuning, in SDR50 and SDR104. -/
def execCmd19 (t : Nat) (s : State) : Out :=
  let s := s.to t
  guardNext (s.sdio.card == .command && decide (3 ≤ s.sdio.mode)) s (fun s => s.updSdio (fun x => { x with tuned := true }))

/-- CMD52: one byte of a function. A command packet and bulk data move by CMD53 alone (R495, R515). -/
def execCmd52 (t : Nat) (write raw : Bool) (fn addr : Nat) (data : Byte) (s : State) : Out :=
  let s := s.to t
  guardNext (s.fnOn fn) s (fun s =>
    let s := if !write || (fn != 0 && decide (addr < 0x20000)) then s
      else if fn = 0 then s.fn0Write addr data.toNat else s.fnWrite fn addr data.toNat
    if write && !raw then s.updSdio (fun x => { x with dat := [data] }) else s.fnRead fn addr 1 false)

/-- CMD53: bytes or blocks of a function (R493); a count of 0 bytes is 512. -/
def execCmd53 (t : Nat) (write : Bool) (fn : Nat) (blocks incr : Bool) (addr count : Nat) (data : List Byte) (s : State) : Out :=
  let s := s.to t
  guardNext (s.fnOn fn) s (fun s =>
    if write then s.fnWrites fn addr incr data
    else s.fnRead fn addr (if blocks then count * lget 0 s.sdio.blk fn else if count = 0 then 512 else count) incr)

/-! ### What a packet waits for -/

/-- LATE_CAMERA (R513): the camera has not answered a register transaction within 100 ms. -/
def execLateCamera (t client tag : Nat) (s : State) : Out :=
  let s := s.to t
  let late (d : Deferred) : Bool := d.pkt.client == client && d.pkt.tag == tag && decide (d.at_ + 50000000 ≤ s.now)
  let hit (g : Nat) : Bool := s.sdio.deferred.any (fun d => late d && (match d.pkt.cmd with
    | .cxpRegRead k _ _ => k == g
    | .cxpRegWrite k _ _ => k == g
    | _ => false))
  let s' := s.each ((List.range s.nGrp).filter hit) (fun s g => s.updGrp g (fun x => { x with ctrl := none }))
  .next (s'.answerDeferred (fun d => match d.pkt.cmd with
    | .cxpRegRead _ _ _ => if late d then some (0x0405, []) else none
    | .cxpRegWrite _ _ _ => if late d then some (0x0405, []) else none
    | _ => none))

/-- READMIT_DONE (R347): a re-admission completes, and with it the BUDGET_SET that waits for it (R555). -/
def execReadmitDone (t : Nat) (s : State) : Out :=
  let s := s.to t
  match s.bond.plan with
  | none => .next s
  | some p => guardNext s.bond.readmitting s (fun s =>
      let s := s.readmitDone p
      if s.bond.readmitting then s
      else
        let begun := s.sdio.waitBegun
        (match s.sdio.waiting with
          | some q => match q.cmd with
            | .budgetSet mw c => s.waitEnd (fun s q => if begun then s.budgetReply q else s.budgetStart q mw c)
            | _ => s
          | none => s).pump)

/-- STARTUP_COMPLETE (R528): steps 5 to 11, once no group is in its first discovery. -/
def execStartupComplete (t : Nat) (b : Sys2Proof.Bist) (s : State) : Out :=
  let s := s.to t
  guardNext (s.mgmt.st == .starting && !(List.range s.nGrp).any (fun g => (s.grpAt g).st == .discovering && !(s.grpAt g).retry)) s
    (fun s =>
      let s := (s.stepsRun b).stepsEnd b
      let s := if s.mgmt.powTo == some .run then (s.updMgmt (fun m => { m with powTo := none })).waitEnd (fun s q => s.answer q 0) else s
      s.pump)

/-- POWER_STATE_REACHED (R542): the state a POWER_STATE or a trip moves to is reached. -/
def execPowerStateReached (t : Nat) (s : State) : Out :=
  let s := s.to t
  guardNext (s.mgmt.powTo.isSome && s.mgmt.st != .starting) s (fun s => (s.powerReached.waitEnd (fun s q => s.answer q 0)).pump)

/-- DEVICE_RESET_EFFECT (R538): everything restarts from step 1. -/
def execDeviceResetEffect (t : Nat) (plumbOk : Bool) (s : State) : Out :=
  let s := s.to t
  guardNext (s.mgmt.resetAt.any (fun a => decide (a ≤ s.now))) s (fun s => (s.inReset false).boot 2 s.mgmt.flash plumbOk)

/-! ### Host commands: the rows of the opcode table that are packets (R510) -/

/-- A packet whose CRC and frame are right reaches CMD_WINDOW. -/
def State.host (s : State) (h : Sys2Proof.Hdr) (c : HostCmd) : Out := .next ((s.to h.t).submit (packetOf h.tag h.client c))

/-- ECHO -/
def execEcho (h : Sys2Proof.Hdr) (bytes : List Byte) (s : State) : Out := s.host h (.echo bytes)

/-- DEVICE_INFO -/
def execDeviceInfo (h : Sys2Proof.Hdr) (s : State) : Out := s.host h .deviceInfo

/-- DEVICE_RESET -/
def execDeviceReset (h : Sys2Proof.Hdr) (confirm : Word) (s : State) : Out := s.host h (.deviceReset confirm)

/-- CXP_REG_READ -/
def execCxpRegRead (h : Sys2Proof.Hdr) (group addr len : Nat) (s : State) : Out := s.host h (.cxpRegRead group addr len)

/-- CXP_REG_WRITE -/
def execCxpRegWrite (h : Sys2Proof.Hdr) (group addr : Nat) (bytes : List Byte) (s : State) : Out := s.host h (.cxpRegWrite group addr bytes)

/-- LOG_PULL -/
def execLogPull (h : Sys2Proof.Hdr) (log most : Nat) (s : State) : Out := s.host h (.logPull log most)

/-- IMAGE_PULL -/
def execImagePull (h : Sys2Proof.Hdr) (band : Int) (col mask cols : Nat) (s : State) : Out := s.host h (.imagePull band col mask cols)

/-- REG_READ -/
def execRegRead (h : Sys2Proof.Hdr) (addr : Word) (count : Nat) (s : State) : Out := s.host h (.regRead addr count)

/-- REG_WRITE -/
def execRegWrite (h : Sys2Proof.Hdr) (pairs : List (Word × Word)) (s : State) : Out := s.host h (.regWrite pairs)

/-- REG_MODIFY -/
def execRegModify (h : Sys2Proof.Hdr) (addr mask value : Word) (s : State) : Out := s.host h (.regModify addr mask value)

/-- PLAN_LOAD -/
def execPlanLoad (h : Sys2Proof.Hdr) (len : Nat) (digest : List Byte) (s : State) : Out := s.host h (.planLoad len digest)

/-- PLAN_ADMIT -/
def execPlanAdmit (h : Sys2Proof.Hdr) (s : State) : Out := s.host h .planAdmit

/-- PLAN_START -/
def execPlanStart (h : Sys2Proof.Hdr) (s : State) : Out := s.host h .planStart

/-- PLAN_STOP -/
def execPlanStop (h : Sys2Proof.Hdr) (s : State) : Out := s.host h .planStop

/-- PLAN_UNLOAD -/
def execPlanUnload (h : Sys2Proof.Hdr) (s : State) : Out := s.host h .planUnload

/-- GRAPH_SUBMIT -/
def execGraphSubmit (h : Sys2Proof.Hdr) (die addr : Nat) (s : State) : Out := s.host h (.graphSubmit die addr)

/-- GRAPH_WAIT -/
def execGraphWait (h : Sys2Proof.Hdr) (id : Nat) (s : State) : Out := s.host h (.graphWait id)

/-- MODEL_LOAD -/
def execModelLoad (h : Sys2Proof.Hdr) (id mask : Nat) (signed : Bool) (len : Nat) (digest : List Byte) (s : State) : Out := s.host h (.modelLoad id mask signed len digest)

/-- MODEL_UNLOAD -/
def execModelUnload (h : Sys2Proof.Hdr) (id : Nat) (s : State) : Out := s.host h (.modelUnload id)

/-- FLAT_LOAD -/
def execFlatLoad (h : Sys2Proof.Hdr) (group phase count : Nat) (s : State) : Out := s.host h (.flatLoad group phase count)

/-- PROJ_LOAD -/
def execProjLoad (h : Sys2Proof.Hdr) (group count : Nat) (s : State) : Out := s.host h (.projLoad group count)

/-- PAGE_MAP -/
def execPageMap (h : Sys2Proof.Hdr) (first count pin : Nat) (s : State) : Out := s.host h (.pageMap first count pin)

/-- PAGE_UNMAP -/
def execPageUnmap (h : Sys2Proof.Hdr) (first count : Nat) (s : State) : Out := s.host h (.pageUnmap first count)

/-- MEM_WRITE -/
def execMemWrite (h : Sys2Proof.Hdr) (space addr : Nat) (bytes : List Byte) (s : State) : Out := s.host h (.memWrite space addr bytes)

/-- MEM_READ -/
def execMemRead (h : Sys2Proof.Hdr) (space addr len : Nat) (bulk : Bool) (s : State) : Out := s.host h (if bulk then .memReadBulk space addr len else .memRead space addr len)

/-- CTX_OPEN -/
def execCtxOpen (h : Sys2Proof.Hdr) (ctx stateAddr initAddr size : Nat) (markReset : Bool) (tag : Nat) (s : State) : Out := s.host h (.ctxOpen ctx stateAddr initAddr size markReset tag)

/-- CTX_CLOSE -/
def execCtxClose (h : Sys2Proof.Hdr) (ctx : Nat) (s : State) : Out := s.host h (.ctxClose ctx)

/-- SEQ_OPEN -/
def execSeqOpen (h : Sys2Proof.Hdr) (seq heads dim : Nat) (q4 markReset : Bool) (sp0 : Int) (pitch list max : Nat) (s : State) : Out := s.host h (.seqOpen seq heads dim q4 markReset sp0 pitch list max)

/-- SEQ_FORK -/
def execSeqFork (h : Sys2Proof.Hdr) (src dst n : Nat) (s : State) : Out := s.host h (.seqFork src dst n)

/-- SEQ_CLOSE -/
def execSeqClose (h : Sys2Proof.Hdr) (seq : Nat) (s : State) : Out := s.host h (.seqClose seq)

/-- COURSE_PROG_LOAD -/
def execCourseProgLoad (h : Sys2Proof.Hdr) (prog : Nat) (text : List Nat) (s : State) : Out := s.host h (.courseProgLoad prog text)

/-- SERVO_PROG_LOAD -/
def execServoProgLoad (h : Sys2Proof.Hdr) (axis : Nat) (text consts inits : List Word) (s : State) : Out := s.host h (.servoProgLoad axis text consts inits)

/-- QP_LOAD -/
def execQpLoad (h : Sys2Proof.Hdr) (ctl len : Nat) (s : State) : Out := s.host h (.qpLoad ctl len)

/-- MOTION_POST -/
def execMotionPost (h : Sys2Proof.Hdr) (reqs : List Sys2Proof.Req) (s : State) : Out := s.host h (.motionPost reqs)

/-- SDF_LOAD -/
def execSdfLoad (h : Sys2Proof.Hdr) (box : List Nat) (len : Nat) (s : State) : Out := s.host h (.sdfLoad box len)

/-- OCC_LOAD -/
def execOccLoad (h : Sys2Proof.Hdr) (t0 first last len : Nat) (s : State) : Out := s.host h (.occLoad t0 first last len)

/-- MAP_PUBLISH -/
def execMapPublish (h : Sys2Proof.Hdr) (s : State) : Out := s.host h .mapPublish

/-- TIME_READ -/
def execTimeRead (h : Sys2Proof.Hdr) (s : State) : Out := s.host h .timeRead

/-- RULE_LOAD -/
def execRuleLoad (h : Sys2Proof.Hdr) (digest image : List Byte) (s : State) : Out := s.host h (.ruleLoad digest image)

/-- SAFETY_STATUS -/
def execSafetyStatus (h : Sys2Proof.Hdr) (s : State) : Out := s.host h .safetyStatus

/-- BUDGET_SET -/
def execBudgetSet (h : Sys2Proof.Hdr) (mw : Nat) (cold420 : Bool) (s : State) : Out := s.host h (.budgetSet mw cold420)

/-- POWER_STATE -/
def execPowerState (h : Sys2Proof.Hdr) (st : Nat) (s : State) : Out := s.host h (.powerState st)

/-- ACCOUNT_READ -/
def execAccountRead (h : Sys2Proof.Hdr) (client die : Nat) (s : State) : Out := s.host h (.accountRead client die)

/-- ATTEST -/
def execAttest (h : Sys2Proof.Hdr) (nonce : List Byte) (s : State) : Out := s.host h (.attest nonce)

/-- KEY_INFO -/
def execKeyInfo (h : Sys2Proof.Hdr) (s : State) : Out := s.host h .keyInfo

/-- OWNER_KEY_SET -/
def execOwnerKeySet (h : Sys2Proof.Hdr) (slot : Nat) (key : List Byte) (confirm : Word) (s : State) : Out := s.host h (.ownerKeySet slot key confirm)

/-- OWNER_KEY_REVOKE -/
def execOwnerKeyRevoke (h : Sys2Proof.Hdr) (slot : Nat) (confirm : Word) (s : State) : Out := s.host h (.ownerKeyRevoke slot confirm)

/-- TEST_MODE -/
def execTestMode (h : Sys2Proof.Hdr) (enter : Nat) (confirm : Word) (s : State) : Out := s.host h (.testMode enter confirm)

/-! ### Register commands: packets of REG_WRITE, REG_MODIFY and REG_READ -/

/-- A REG_WRITE of one pair. -/
def State.regCmd (s : State) (h : Sys2Proof.Hdr) (addr value : Nat) : Out := s.host h (.regWrite [(wordOf addr, wordOf value)])

/-- SNAPSHOT_READ: a read of a register whose partners are held (R599). -/
def execSnapshotRead (h : Sys2Proof.Hdr) (addr : Word) (s : State) : Out := s.host h (.regRead addr 1)

/-- SNAPSHOT_CONSUME: a read of a partner (R599). -/
def execSnapshotConsume (h : Sys2Proof.Hdr) (addr : Word) (s : State) : Out := s.host h (.regRead addr 1)

/-- CAPTURE_POP: a read of TIME_CAPc_SEC (R475). -/
def execCapturePop (h : Sys2Proof.Hdr) (c : Nat) (s : State) : Out := s.host h (.regRead (wordOf (0xC0204 + 0x10 * c)) 1)

/-- ACQ_START: ACQ_CTRL.EN is set (R104). -/
def execAcqStart (h : Sys2Proof.Hdr) (s : State) : Out := s.host h (.regModify 0x20000#32 1#32 1#32)

/-- ACQ_STOP: ACQ_CTRL.EN is cleared (R104). -/
def execAcqStop (h : Sys2Proof.Hdr) (s : State) : Out := s.host h (.regModify 0x20000#32 1#32 0#32)

/-- SERVO_EN_SET: SERVO_CTRL.EN is set (R358). -/
def execServoEnSet (h : Sys2Proof.Hdr) (s : State) : Out := s.host h (.regModify 0x80000#32 1#32 1#32)

/-- SERVO_EN_CLEAR: SERVO_CTRL.EN is cleared (R358). -/
def execServoEnClear (h : Sys2Proof.Hdr) (s : State) : Out := s.host h (.regModify 0x80000#32 1#32 0#32)

/-- CLEAR_FAULT_A: COURSE_CMD (R70) -/
def execClearFaultA (h : Sys2Proof.Hdr) (s : State) : Out := s.regCmd h 0x10048 3

/-- CLEAR_FAULT_B: COURSE_CMD (R70) -/
def execClearFaultB (h : Sys2Proof.Hdr) (s : State) : Out := s.regCmd h 0x10048 4

/-- RESYNC: COURSE_CMD (R70) -/
def execResync (h : Sys2Proof.Hdr) (s : State) : Out := s.regCmd h 0x10048 2

/-- LOAD_SP: COURSE_CMD (R70) -/
def execLoadSp (h : Sys2Proof.Hdr) (s : State) : Out := s.regCmd h 0x10048 1

/-- RELOCATE: COURSE_CMD (R70) -/
def execRelocate (h : Sys2Proof.Hdr) (s : State) : Out := s.regCmd h 0x10048 5

/-- COIL_MARK: COURSE_CMD (R70) -/
def execCoilMark (h : Sys2Proof.Hdr) (s : State) : Out := s.regCmd h 0x10048 6

/-- RETIRE_CORE: FABRIC_CMD (R149) -/
def execRetireCore (h : Sys2Proof.Hdr) (die core : Nat) (s : State) : Out := s.regCmd h (bFabric die + 0x1C) (0x1000000 + core % 256)

/-- CLEAR_COUNTERS: FABRIC_CMD (R149) -/
def execFabricClearCounters (h : Sys2Proof.Hdr) (die : Nat) (s : State) : Out := s.regCmd h (bFabric die + 0x1C) 0x2000000

/-- RESET_CTX: STREAM_CMD (R243) -/
def execResetCtx (h : Sys2Proof.Hdr) (die ctx : Nat) (s : State) : Out := s.regCmd h (bStream die + 0x30) (0x1000000 + ctx % 2 ^ 18)

/-- PIN: STREAM_CMD (R243) -/
def execPin (h : Sys2Proof.Hdr) (die ctx : Nat) (s : State) : Out := s.regCmd h (bStream die + 0x30) (0x2000000 + ctx % 2 ^ 18)

/-- UNPIN: STREAM_CMD (R243) -/
def execUnpin (h : Sys2Proof.Hdr) (die ctx : Nat) (s : State) : Out := s.regCmd h (bStream die + 0x30) (0x3000000 + ctx % 2 ^ 18)

/-- EVICT: STREAM_CMD (R243) -/
def execEvict (h : Sys2Proof.Hdr) (die ctx : Nat) (s : State) : Out := s.regCmd h (bStream die + 0x30) (0x4000000 + ctx % 2 ^ 18)

/-- CLEAR_COUNTERS: STREAM_CMD (R243) -/
def execStreamClearCounters (h : Sys2Proof.Hdr) (die : Nat) (s : State) : Out := s.regCmd h (bStream die + 0x30) 0x5000000

/-- STREAM_CTX_SEL (R240) -/
def execStreamCtxSel (h : Sys2Proof.Hdr) (die ctx : Nat) (s : State) : Out := s.regCmd h (bStream die + 0x34) (ctx % 2 ^ 18)

/-- RESET_SEQ: KV_CMD (R280) -/
def execResetSeq (h : Sys2Proof.Hdr) (die seq : Nat) (s : State) : Out := s.regCmd h (bKv die + 0x2C) (0x1000000 + seq % 1024)

/-- CLOSE: KV_CMD (R280) -/
def execKvClose (h : Sys2Proof.Hdr) (die seq : Nat) (s : State) : Out := s.regCmd h (bKv die + 0x2C) (0x2000000 + seq % 1024)

/-- COMMIT: KV_CMD (R280) -/
def execCommit (h : Sys2Proof.Hdr) (s : State) : Out := s.regCmd h 0x5002C 0x3000000

/-- ROLLBACK: KV_CMD (R280) -/
def execRollback (h : Sys2Proof.Hdr) (s : State) : Out := s.regCmd h 0x5002C 0x4000000

/-- RESET_MASTERS: KV_CMD (R280) -/
def execResetMasters (h : Sys2Proof.Hdr) (s : State) : Out := s.regCmd h 0x5002C 0x5000000

/-- CLEAR_COUNTERS: KV_CMD (R280) -/
def execKvClearCounters (h : Sys2Proof.Hdr) (die : Nat) (s : State) : Out := s.regCmd h (bKv die + 0x2C) 0x6000000

/-- KV_SEQ_SEL (R277) -/
def execKvSeqSel (h : Sys2Proof.Hdr) (die seq : Nat) (s : State) : Out := s.regCmd h (bKv die + 0x30) (seq % 1024)

/-- KV_PAGE_SEL (R277) -/
def execKvPageSel (h : Sys2Proof.Hdr) (die page : Nat) (s : State) : Out := s.regCmd h (bKv die + 0x34) (page % 2 ^ 19)

/-- EXCLUDE_QCH: MEM_CMD (R315) -/
def execExcludeQch (h : Sys2Proof.Hdr) (ch : Nat) (s : State) : Out := s.regCmd h 0x60020 (0x1000000 + ch % 16)

/-- CLEAR_COUNTERS: MEM_CMD (R315) -/
def execMemClearCounters (h : Sys2Proof.Hdr) (s : State) : Out := s.regCmd h 0x60020 0x2000000

/-- MEM_PAGE_SEL (R313) -/
def execMemPageSel (h : Sys2Proof.Hdr) (page : Nat) (s : State) : Out := s.regCmd h 0x60024 (page % 65536)

/-- READMIT: BOND_CMD (R357) -/
def execReadmit (h : Sys2Proof.Hdr) (s : State) : Out := s.regCmd h 0x7000C 1

/-- CLEAR_COUNTERS: BOND_CMD (R357) -/
def execBondClearCounters (h : Sys2Proof.Hdr) (s : State) : Out := s.regCmd h 0x7000C 2

/-- BOND_ACCT_SEL (R355) -/
def execBondAcctSel (h : Sys2Proof.Hdr) (value : Word) (s : State) : Out := s.regCmd h 0x70060 value.toNat

/-- TIER_BASE_WRITE: a write of MEM_LINd_CFG (R283) -/
def execTierBaseWrite (h : Sys2Proof.Hdr) (die : Nat) (value : Word) (s : State) : Out := s.regCmd h (aLin die) value.toNat

/-- ENABLE: SERVO_CMD (R390) -/
def execServoEnable (h : Sys2Proof.Hdr) (ax : Nat) (s : State) : Out := s.regCmd h 0x80010 (0x1000000 + ax % 16)

/-- DISABLE: SERVO_CMD (R390) -/
def execServoDisable (h : Sys2Proof.Hdr) (ax : Nat) (s : State) : Out := s.regCmd h 0x80010 (0x2000000 + ax % 16)

/-- CLEAR_FAULT: SERVO_CMD (R390) -/
def execAxisClearFault (h : Sys2Proof.Hdr) (ax : Nat) (s : State) : Out := s.regCmd h 0x80010 (0x3000000 + ax % 16)

/-- HOME: SERVO_CMD (R390) -/
def execHome (h : Sys2Proof.Hdr) (ax : Nat) (s : State) : Out := s.regCmd h 0x80010 (0x4000000 + ax % 16)

/-- RESET_STATE: SERVO_CMD (R390) -/
def execResetState (h : Sys2Proof.Hdr) (ax : Nat) (s : State) : Out := s.regCmd h 0x80010 (0x5000000 + ax % 16)

/-- RESYNC: SERVO_CMD (R390) -/
def execServoResync (h : Sys2Proof.Hdr) (ax : Nat) (s : State) : Out := s.regCmd h 0x80010 (0x6000000 + ax % 16)

/-- CLEAR_GROUP: SERVO_CMD (R390) -/
def execClearGroup (h : Sys2Proof.Hdr) (g : Nat) (s : State) : Out := s.regCmd h 0x80010 (0x7000000 + g % 8)

/-- CLEAR_COUNTERS: SERVO_CMD (R390) -/
def execServoClearCounters (h : Sys2Proof.Hdr) (s : State) : Out := s.regCmd h 0x80010 0x8000000

/-- ENABLE: QP_CMD (R393) -/
def execQpEnable (h : Sys2Proof.Hdr) (c : Nat) (s : State) : Out := s.regCmd h 0x90010 (0x1000000 + c % 8)

/-- DISABLE: QP_CMD (R393) -/
def execQpDisable (h : Sys2Proof.Hdr) (c : Nat) (s : State) : Out := s.regCmd h 0x90010 (0x2000000 + c % 8)

/-- RESTART: QP_CMD (R393) -/
def execQpRestart (h : Sys2Proof.Hdr) (c : Nat) (s : State) : Out := s.regCmd h 0x90010 (0x3000000 + c % 8)

/-- CLEAR_COUNTERS: QP_CMD (R393) -/
def execQpClearCounters (h : Sys2Proof.Hdr) (c : Nat) (s : State) : Out := s.regCmd h 0x90010 (0x4000000 + c % 8)

/-- PUBLISH: MOTION_CMD (R425) -/
def execPublish (h : Sys2Proof.Hdr) (s : State) : Out := s.regCmd h 0xA0010 0x1000000

/-- FLUSH: MOTION_CMD (R425) -/
def execFlush (h : Sys2Proof.Hdr) (car : Nat) (s : State) : Out := s.regCmd h 0xA0010 (0x2000000 + car % 8)

/-- CLEAR_COUNTERS: MOTION_CMD (R425) -/
def execMotionClearCounters (h : Sys2Proof.Hdr) (s : State) : Out := s.regCmd h 0xA0010 0x3000000

/-- SAFE_STATE: PLUMB_CMD (R462) -/
def execSafeState (h : Sys2Proof.Hdr) (s : State) : Out := s.regCmd h 0xB000C 0x1000000

/-- SAFE_CLEAR: PLUMB_CMD (R462) -/
def execSafeClear (h : Sys2Proof.Hdr) (s : State) : Out := s.regCmd h 0xB000C 0x2000000

/-- RELEASE_TARGET: PLUMB_CMD (R462) -/
def execReleaseTarget (h : Sys2Proof.Hdr) (tg : Nat) (s : State) : Out := s.regCmd h 0xB000C (0x3000000 + tg % 128)

/-- RECOVER: PLUMB_CMD (R462) -/
def execRecover (h : Sys2Proof.Hdr) (s : State) : Out := s.regCmd h 0xB000C 0x4000000

/-- CLEAR_COUNTERS: PLUMB_CMD (R462) -/
def execPlumbClearCounters (h : Sys2Proof.Hdr) (s : State) : Out := s.regCmd h 0xB000C 0x5000000

/-- SET_LOCAL from DOM0_SET: TIME_CMD (R488) -/
def execSetLocalDom0 (h : Sys2Proof.Hdr) (s : State) : Out := s.regCmd h 0xC0010 1

/-- SET_LOCAL from DOM1_SET: TIME_CMD (R488) -/
def execSetLocalDom1 (h : Sys2Proof.Hdr) (s : State) : Out := s.regCmd h 0xC0010 2

/-- CLEAR_COUNTERS: TIME_CMD (R488) -/
def execTimeClearCounters (h : Sys2Proof.Hdr) (s : State) : Out := s.regCmd h 0xC0010 3

/-- CLEAR_COUNTERS: NET_CMD (R490) -/
def execNetClearCounters (h : Sys2Proof.Hdr) (s : State) : Out := s.regCmd h 0xD0010 1

/-- CLEAR_COUNTERS: POWER_CMD (R562) -/
def execPowerClearCounters (h : Sys2Proof.Hdr) (s : State) : Out := s.regCmd h 0xE000C 1

/-- RECALIBRATE: POWER_CMD (R562) -/
def execRecalibrate (h : Sys2Proof.Hdr) (s : State) : Out := s.regCmd h 0xE000C 2

/-- SNAPSHOT: TEST_CMD (R597) -/
def execSnapshot (h : Sys2Proof.Hdr) (s : State) : Out := s.regCmd h 0xF000C 1

/-- DISARM_ALL: TEST_CMD (R597) -/
def execDisarmAll (h : Sys2Proof.Hdr) (s : State) : Out := s.regCmd h 0xF000C 2

/-- CLEAR_COUNTERS: TEST_CMD (R597) -/
def execTestClearCounters (h : Sys2Proof.Hdr) (s : State) : Out := s.regCmd h 0xF000C 3

/-- INJ_CAP: a write of TEST_INJ_CAP (R587) -/
def execInjCap (h : Sys2Proof.Hdr) (value : Word) (s : State) : Out := s.regCmd h (injReg 0) value.toNat

/-- INJ_MEM: a write of TEST_INJ_MEM (R587) -/
def execInjMem (h : Sys2Proof.Hdr) (value : Word) (s : State) : Out := s.regCmd h (injReg 1) value.toNat

/-- INJ_PLUMB: a write of TEST_INJ_PLUMB (R587) -/
def execInjPlumb (h : Sys2Proof.Hdr) (value : Word) (s : State) : Out := s.regCmd h (injReg 2) value.toNat

/-- INJ_WD: a write of TEST_INJ_WD (R587) -/
def execInjWd (h : Sys2Proof.Hdr) (value : Word) (s : State) : Out := s.regCmd h (injReg 3) value.toNat

/-- INJ_COURSE: a write of TEST_INJ_COURSE (R587) -/
def execInjCourse (h : Sys2Proof.Hdr) (value : Word) (s : State) : Out := s.regCmd h (injReg 4) value.toNat

/-- CLEAR_COUNTERS: MGMT_CMD (R523) -/
def execMgmtClearCounters (h : Sys2Proof.Hdr) (s : State) : Out := s.regCmd h 0x1C 1

/-- CLEAR_LOGS: MGMT_CMD (R523) -/
def execClearLogs (h : Sys2Proof.Hdr) (s : State) : Out := s.regCmd h 0x1C 2

/-- REQUIRE_OWNER_SIG: SEC_CMD (R526) -/
def execRequireOwnerSig (h : Sys2Proof.Hdr) (s : State) : Out := s.regCmd h 0x100004 1

/-- PROG_EN_WRITE: a write of COURSE_PROG_EN_LO or _HI (R68) -/
def execProgEnWrite (h : Sys2Proof.Hdr) (half : Nat) (value : Word) (s : State) : Out := s.regCmd h (0x10800 + 4 * (half % 2)) value.toNat

end Sys2Proof.Machine
end

