-- ==== Sys2Proof/Machine/Dispatch.lean ====
section
/-!
DEFINITION. One arm for each command: the direct call of its meaning.
-/
namespace Sys2Proof.Machine

def exec (i : Instr) (s : State) : Host.Outcome State Fault Refusal :=
  match i with
  | .snapshotRead h addr => Sys2Proof.Machine.execSnapshotRead h addr s
  | .snapshotConsume h addr => Sys2Proof.Machine.execSnapshotConsume h addr s
  | .encoderEdge t n a b => Sys2Proof.Machine.execEncoderEdge t n a b s
  | .los t n => Sys2Proof.Machine.execLos t n s
  | .positionLost t => Sys2Proof.Machine.execPositionLost t s
  | .clearFaultA h => Sys2Proof.Machine.execClearFaultA h s
  | .clearFaultB h => Sys2Proof.Machine.execClearFaultB h s
  | .resync h => Sys2Proof.Machine.execResync h s
  | .loadSp h => Sys2Proof.Machine.execLoadSp h s
  | .relocate h => Sys2Proof.Machine.execRelocate h s
  | .coilMark h => Sys2Proof.Machine.execCoilMark h s
  | .speedEstimate t => Sys2Proof.Machine.execSpeedEstimate t s
  | .zeroSpeed t => Sys2Proof.Machine.execZeroSpeed t s
  | .lineTrigger t g ph n => Sys2Proof.Machine.execLineTrigger t g ph n s
  | .lateTrigger t g => Sys2Proof.Machine.execLateTrigger t g s
  | .strobeStart t out => Sys2Proof.Machine.execStrobeStart t out s
  | .strobeEnd t out => Sys2Proof.Machine.execStrobeEnd t out s
  | .pulseEnd t out => Sys2Proof.Machine.execPulseEnd t out s
  | .progEnWrite h half value => Sys2Proof.Machine.execProgEnWrite h half value s
  | .halt t p => Sys2Proof.Machine.execHalt t p s
  | .anchor t p => Sys2Proof.Machine.execAnchor t p s
  | .waitSpGe t p ofs => Sys2Proof.Machine.execWaitSpGe t p ofs s
  | .waitSpLe t p ofs => Sys2Proof.Machine.execWaitSpLe t p ofs s
  | .waitDsp t p um => Sys2Proof.Machine.execWaitDsp t p um s
  | .waitT t p ns => Sys2Proof.Machine.execWaitT t p ns s
  | .waitLine t p g ph count => Sys2Proof.Machine.execWaitLine t p g ph count s
  | .waitSig t p sig => Sys2Proof.Machine.execWaitSig t p sig s
  | .signal t p sig => Sys2Proof.Machine.execSignal t p sig s
  | .outSet t p out => Sys2Proof.Machine.execOutSet t p out s
  | .outClr t p out => Sys2Proof.Machine.execOutClr t p out s
  | .outPulse t p out ns => Sys2Proof.Machine.execOutPulse t p out ns s
  | .lgOn t p g => Sys2Proof.Machine.execLgOn t p g s
  | .lgOff t p g => Sys2Proof.Machine.execLgOff t p g s
  | .mark t p code => Sys2Proof.Machine.execMark t p code s
  | .setc t p c value => Sys2Proof.Machine.execSetc t p c value s
  | .djnz t p c addr => Sys2Proof.Machine.execDjnz t p c addr s
  | .jump t p addr => Sys2Proof.Machine.execJump t p addr s
  | .ifSlow t p speed addr => Sys2Proof.Machine.execIfSlow t p speed addr s
  | .ifRev t p addr => Sys2Proof.Machine.execIfRev t p addr s
  | .progFault t p => Sys2Proof.Machine.execProgFault t p s
  | .waitCompletes t p => Sys2Proof.Machine.execWaitCompletes t p s
  | .progRunaway t p => Sys2Proof.Machine.execProgRunaway t p s
  | .acqStart h => Sys2Proof.Machine.execAcqStart h s
  | .acqStop h => Sys2Proof.Machine.execAcqStop h s
  | .groupUp t g speed lanes => Sys2Proof.Machine.execGroupUp t g speed lanes s
  | .groupFailed t g => Sys2Proof.Machine.execGroupFailed t g s
  | .pcxFault t g => Sys2Proof.Machine.execPcxFault t g s
  | .groupDown t g => Sys2Proof.Machine.execGroupDown t g s
  | .rediscovery t g => Sys2Proof.Machine.execRediscovery t g s
  | .cxpPacket t g pkt => Sys2Proof.Machine.execCxpPacket t g pkt s
  | .stampTimeout t g => Sys2Proof.Machine.execStampTimeout t g s
  | .sensorRecord t port bytes => Sys2Proof.Machine.execSensorRecord t port bytes s
  | .taskDispatch t die slot graph task => Sys2Proof.Machine.execTaskDispatch t die slot graph task s
  | .taskComplete t die slot => Sys2Proof.Machine.execTaskComplete t die slot s
  | .blockDrain t die slot => Sys2Proof.Machine.execBlockDrain t die slot s
  | .droopEvent t die half => Sys2Proof.Machine.execDroopEvent t die half s
  | .coreHung t die slot => Sys2Proof.Machine.execCoreHung t die slot s
  | .spareInDone t die slot => Sys2Proof.Machine.execSpareInDone t die slot s
  | .readmitDone t => Sys2Proof.Machine.execReadmitDone t s
  | .retireCore h die core => Sys2Proof.Machine.execRetireCore h die core s
  | .fabricClearCounters h die => Sys2Proof.Machine.execFabricClearCounters h die s
  | .freqChanged t => Sys2Proof.Machine.execFreqChanged t s
  | .conv t die slot addr => Sys2Proof.Machine.execConv t die slot addr s
  | .dwconv t die slot addr => Sys2Proof.Machine.execDwconv t die slot addr s
  | .pool t die slot addr => Sys2Proof.Machine.execPool t die slot addr s
  | .cropResize t die slot addr => Sys2Proof.Machine.execCropResize t die slot addr s
  | .boxDecode t die slot addr => Sys2Proof.Machine.execBoxDecode t die slot addr s
  | .suppress t die slot addr => Sys2Proof.Machine.execSuppress t die slot addr s
  | .copy t die slot addr => Sys2Proof.Machine.execCopy t die slot addr s
  | .blockedToPlanar t die slot addr => Sys2Proof.Machine.execBlockedToPlanar t die slot addr s
  | .phaseSplit t die slot addr => Sys2Proof.Machine.execPhaseSplit t die slot addr s
  | .planarToBlocked t die slot addr => Sys2Proof.Machine.execPlanarToBlocked t die slot addr s
  | .rowGather t die slot addr => Sys2Proof.Machine.execRowGather t die slot addr s
  | .fill t die slot addr => Sys2Proof.Machine.execFill t die slot addr s
  | .chainDeadline t die slot chain => Sys2Proof.Machine.execChainDeadline t die slot chain s
  | .swapIn t die ctx => Sys2Proof.Machine.execSwapIn t die ctx s
  | .swapInDone t die ctx => Sys2Proof.Machine.execSwapInDone t die ctx s
  | .evictionDone t die ctx => Sys2Proof.Machine.execEvictionDone t die ctx s
  | .lscan t die slot addr => Sys2Proof.Machine.execLscan t die slot addr s
  | .gcell t die slot addr => Sys2Proof.Machine.execGcell t die slot addr s
  | .biscan t die slot addr => Sys2Proof.Machine.execBiscan t die slot addr s
  | .bind t die slot addr => Sys2Proof.Machine.execBind t die slot addr s
  | .resetCtx h die ctx => Sys2Proof.Machine.execResetCtx h die ctx s
  | .pin h die ctx => Sys2Proof.Machine.execPin h die ctx s
  | .unpin h die ctx => Sys2Proof.Machine.execUnpin h die ctx s
  | .evict h die ctx => Sys2Proof.Machine.execEvict h die ctx s
  | .streamClearCounters h die => Sys2Proof.Machine.execStreamClearCounters h die s
  | .streamCtxSel h die ctx => Sys2Proof.Machine.execStreamCtxSel h die ctx s
  | .kvAppend t die slot addr => Sys2Proof.Machine.execKvAppend t die slot addr s
  | .attn t die slot addr => Sys2Proof.Machine.execAttn t die slot addr s
  | .attnMerge t die slot addr => Sys2Proof.Machine.execAttnMerge t die slot addr s
  | .attnBwd t die slot addr => Sys2Proof.Machine.execAttnBwd t die slot addr s
  | .adaptAccum t die slot addr => Sys2Proof.Machine.execAdaptAccum t die slot addr s
  | .adaptStep t die slot addr => Sys2Proof.Machine.execAdaptStep t die slot addr s
  | .resetSeq h die seq => Sys2Proof.Machine.execResetSeq h die seq s
  | .kvClose h die seq => Sys2Proof.Machine.execKvClose h die seq s
  | .commit h => Sys2Proof.Machine.execCommit h s
  | .rollback h => Sys2Proof.Machine.execRollback h s
  | .resetMasters h => Sys2Proof.Machine.execResetMasters h s
  | .kvClearCounters h die => Sys2Proof.Machine.execKvClearCounters h die s
  | .kvSeqSel h die seq => Sys2Proof.Machine.execKvSeqSel h die seq s
  | .kvPageSel h die page => Sys2Proof.Machine.execKvPageSel h die page s
  | .adaptCommit t => Sys2Proof.Machine.execAdaptCommit t s
  | .tierBaseWrite h die value => Sys2Proof.Machine.execTierBaseWrite h die value s
  | .lintelScrub t die => Sys2Proof.Machine.execLintelScrub t die s
  | .quarryScrub t => Sys2Proof.Machine.execQuarryScrub t s
  | .quarryBurst t ch => Sys2Proof.Machine.execQuarryBurst t ch s
  | .burstTimeout t ch => Sys2Proof.Machine.execBurstTimeout t ch s
  | .lostMarkingDone t => Sys2Proof.Machine.execLostMarkingDone t s
  | .migrationPeriod t => Sys2Proof.Machine.execMigrationPeriod t s
  | .migrationMoveDone t page => Sys2Proof.Machine.execMigrationMoveDone t page s
  | .excludeQch h ch => Sys2Proof.Machine.execExcludeQch h ch s
  | .memClearCounters h => Sys2Proof.Machine.execMemClearCounters h s
  | .memPageSel h page => Sys2Proof.Machine.execMemPageSel h page s
  | .frameBoundary t => Sys2Proof.Machine.execFrameBoundary t s
  | .taskEnd t die slot => Sys2Proof.Machine.execTaskEnd t die slot s
  | .oper t die slot addr => Sys2Proof.Machine.execOper t die slot addr s
  | .chain t die slot chain addr => Sys2Proof.Machine.execChain t die slot chain addr s
  | .waitc t die slot chain => Sys2Proof.Machine.execWaitc t die slot chain s
  | .barrier t die slot => Sys2Proof.Machine.execBarrier t die slot s
  | .setl t die slot c value => Sys2Proof.Machine.execSetl t die slot c value s
  | .taskDjnz t die slot c target => Sys2Proof.Machine.execTaskDjnz t die slot c target s
  | .taskJump t die slot target => Sys2Proof.Machine.execTaskJump t die slot target s
  | .progErr t die slot => Sys2Proof.Machine.execProgErr t die slot s
  | .taskInstrLimit t die slot => Sys2Proof.Machine.execTaskInstrLimit t die slot s
  | .vecFadd t die slot vd va vb => Sys2Proof.Machine.execVecFadd t die slot vd va vb s
  | .vecFmul t die slot vd va vb => Sys2Proof.Machine.execVecFmul t die slot vd va vb s
  | .vecFfma t die slot vd va vb vc => Sys2Proof.Machine.execVecFfma t die slot vd va vb vc s
  | .vecFmax t die slot vd va vb => Sys2Proof.Machine.execVecFmax t die slot vd va vb s
  | .vecFmin t die slot vd va vb => Sys2Proof.Machine.execVecFmin t die slot vd va vb s
  | .fcmp t die slot vd va vb => Sys2Proof.Machine.execFcmp t die slot vd va vb s
  | .iadd t die slot vd va vb => Sys2Proof.Machine.execIadd t die slot vd va vb s
  | .imul t die slot vd va vb => Sys2Proof.Machine.execImul t die slot vd va vb s
  | .ishl t die slot vd va vb => Sys2Proof.Machine.execIshl t die slot vd va vb s
  | .ishr t die slot vd va vb => Sys2Proof.Machine.execIshr t die slot vd va vb s
  | .iand t die slot vd va vb => Sys2Proof.Machine.execIand t die slot vd va vb s
  | .ior t die slot vd va vb => Sys2Proof.Machine.execIor t die slot vd va vb s
  | .ixor t die slot vd va vb => Sys2Proof.Machine.execIxor t die slot vd va vb s
  | .icmp t die slot vd va vb => Sys2Proof.Machine.execIcmp t die slot vd va vb s
  | .iclamp t die slot vd va vb vc => Sys2Proof.Machine.execIclamp t die slot vd va vb vc s
  | .rescale t die slot vd va rec addr => Sys2Proof.Machine.execRescale t die slot vd va rec addr s
  | .cvt t die slot vd va rec => Sys2Proof.Machine.execCvt t die slot vd va rec s
  | .exp t die slot vd va => Sys2Proof.Machine.execExp t die slot vd va s
  | .vecRecip t die slot vd va => Sys2Proof.Machine.execVecRecip t die slot vd va s
  | .vecRsqrt t die slot vd va => Sys2Proof.Machine.execVecRsqrt t die slot vd va s
  | .sigm t die slot vd va => Sys2Proof.Machine.execSigm t die slot vd va s
  | .vecTanh t die slot vd va => Sys2Proof.Machine.execVecTanh t die slot vd va s
  | .vld t die slot vd rec addr => Sys2Proof.Machine.execVld t die slot vd rec addr s
  | .vst t die slot va rec addr => Sys2Proof.Machine.execVst t die slot va rec addr s
  | .vbcast t die slot vd imm => Sys2Proof.Machine.execVbcast t die slot vd imm s
  | .vrmax t die slot vd va => Sys2Proof.Machine.execVrmax t die slot vd va s
  | .vrsum t die slot vd va => Sys2Proof.Machine.execVrsum t die slot vd va s
  | .ilane t die slot vd => Sys2Proof.Machine.execIlane t die slot vd s
  | .accountingPeriod t => Sys2Proof.Machine.execAccountingPeriod t s
  | .planStopDone t => Sys2Proof.Machine.execPlanStopDone t s
  | .readmit h => Sys2Proof.Machine.execReadmit h s
  | .bondClearCounters h => Sys2Proof.Machine.execBondClearCounters h s
  | .bondAcctSel h value => Sys2Proof.Machine.execBondAcctSel h value s
  | .baseTick t gpio adc => Sys2Proof.Machine.execBaseTick t gpio adc s
  | .servoEnSet h => Sys2Proof.Machine.execServoEnSet h s
  | .servoEnClear h => Sys2Proof.Machine.execServoEnClear h s
  | .axisEncoderEdge t ax a b => Sys2Proof.Machine.execAxisEncoderEdge t ax a b s
  | .ssiFrameDone t ax ok reading => Sys2Proof.Machine.execSsiFrameDone t ax ok reading s
  | .controlLawRun t ax => Sys2Proof.Machine.execControlLawRun t ax s
  | .servoEnd t ax => Sys2Proof.Machine.execServoEnd t ax s
  | .servoFadd t ax d a b => Sys2Proof.Machine.execServoFadd t ax d a b s
  | .servoFsub t ax d a b => Sys2Proof.Machine.execServoFsub t ax d a b s
  | .servoFmul t ax d a b => Sys2Proof.Machine.execServoFmul t ax d a b s
  | .servoFfma t ax d a b c => Sys2Proof.Machine.execServoFfma t ax d a b c s
  | .servoFmin t ax d a b => Sys2Proof.Machine.execServoFmin t ax d a b s
  | .servoFmax t ax d a b => Sys2Proof.Machine.execServoFmax t ax d a b s
  | .servoFabs t ax d a => Sys2Proof.Machine.execServoFabs t ax d a s
  | .fclamp t ax d a b c => Sys2Proof.Machine.execFclamp t ax d a b c s
  | .fsel t ax d a b c => Sys2Proof.Machine.execFsel t ax d a b c s
  | .ldk t ax d c => Sys2Proof.Machine.execLdk t ax d c s
  | .servoRecip t ax d a => Sys2Proof.Machine.execServoRecip t ax d a s
  | .servoRsqrt t ax d a => Sys2Proof.Machine.execServoRsqrt t ax d a s
  | .servoTanh t ax d a => Sys2Proof.Machine.execServoTanh t ax d a s
  | .servoEnable h ax => Sys2Proof.Machine.execServoEnable h ax s
  | .servoDisable h ax => Sys2Proof.Machine.execServoDisable h ax s
  | .axisClearFault h ax => Sys2Proof.Machine.execAxisClearFault h ax s
  | .home h ax => Sys2Proof.Machine.execHome h ax s
  | .resetState h ax => Sys2Proof.Machine.execResetState h ax s
  | .servoResync h ax => Sys2Proof.Machine.execServoResync h ax s
  | .clearGroup h g => Sys2Proof.Machine.execClearGroup h g s
  | .servoClearCounters h => Sys2Proof.Machine.execServoClearCounters h s
  | .qpCycleStart t c => Sys2Proof.Machine.execQpCycleStart t c s
  | .qpSolveDone t c => Sys2Proof.Machine.execQpSolveDone t c s
  | .qpDeadline t c => Sys2Proof.Machine.execQpDeadline t c s
  | .qpEnable h c => Sys2Proof.Machine.execQpEnable h c s
  | .qpDisable h c => Sys2Proof.Machine.execQpDisable h c s
  | .qpRestart h c => Sys2Proof.Machine.execQpRestart h c s
  | .qpClearCounters h c => Sys2Proof.Machine.execQpClearCounters h c s
  | .goto t r => Sys2Proof.Machine.execGoto t r s
  | .markReq t r => Sys2Proof.Machine.execMarkReq t r s
  | .cut t r => Sys2Proof.Machine.execCut t r s
  | .park t r => Sys2Proof.Machine.execPark t r s
  | .post t r => Sys2Proof.Machine.execPost t r s
  | .cancel t r => Sys2Proof.Machine.execCancel t r s
  | .reqBad t r => Sys2Proof.Machine.execReqBad t r s
  | .planBatch t car => Sys2Proof.Machine.execPlanBatch t car s
  | .batchEnd t => Sys2Proof.Machine.execBatchEnd t s
  | .recheckDone t => Sys2Proof.Machine.execRecheckDone t s
  | .planTimeout t car => Sys2Proof.Machine.execPlanTimeout t car s
  | .brakeDone t car => Sys2Proof.Machine.execBrakeDone t car s
  | .settleEnd t car => Sys2Proof.Machine.execSettleEnd t car s
  | .publish h => Sys2Proof.Machine.execPublish h s
  | .shadowCopyDone t => Sys2Proof.Machine.execShadowCopyDone t s
  | .flush h car => Sys2Proof.Machine.execFlush h car s
  | .motionClearCounters h => Sys2Proof.Machine.execMotionClearCounters h s
  | .plumbRound t => Sys2Proof.Machine.execPlumbRound t s
  | .ruleEnd t => Sys2Proof.Machine.execRuleEnd t s
  | .ruleIn t gd sel => Sys2Proof.Machine.execRuleIn t gd sel s
  | .ruleKi t gd imm => Sys2Proof.Machine.execRuleKi t gd imm s
  | .ruleKf t gd imm => Sys2Proof.Machine.execRuleKf t gd imm s
  | .ruleAdd t gd ga gb => Sys2Proof.Machine.execRuleAdd t gd ga gb s
  | .ruleSub t gd ga gb => Sys2Proof.Machine.execRuleSub t gd ga gb s
  | .ruleMul t gd ga gb => Sys2Proof.Machine.execRuleMul t gd ga gb s
  | .ruleFadd t gd ga gb => Sys2Proof.Machine.execRuleFadd t gd ga gb s
  | .ruleFsub t gd ga gb => Sys2Proof.Machine.execRuleFsub t gd ga gb s
  | .ruleFmul t gd ga gb => Sys2Proof.Machine.execRuleFmul t gd ga gb s
  | .ruleAbs t gd ga => Sys2Proof.Machine.execRuleAbs t gd ga s
  | .ruleFabs t gd ga => Sys2Proof.Machine.execRuleFabs t gd ga s
  | .ruleLt t gd ga gb => Sys2Proof.Machine.execRuleLt t gd ga gb s
  | .ruleLe t gd ga gb => Sys2Proof.Machine.execRuleLe t gd ga gb s
  | .ruleEq t gd ga gb => Sys2Proof.Machine.execRuleEq t gd ga gb s
  | .ruleFlt t gd ga gb => Sys2Proof.Machine.execRuleFlt t gd ga gb s
  | .ruleFle t gd ga gb => Sys2Proof.Machine.execRuleFle t gd ga gb s
  | .ruleAnd t gd ga gb => Sys2Proof.Machine.execRuleAnd t gd ga gb s
  | .ruleOr t gd ga gb => Sys2Proof.Machine.execRuleOr t gd ga gb s
  | .ruleNot t gd ga => Sys2Proof.Machine.execRuleNot t gd ga s
  | .ruleSkipz t ga n => Sys2Proof.Machine.execRuleSkipz t ga n s
  | .rulePermit t tg => Sys2Proof.Machine.execRulePermit t tg s
  | .ruleDeny t tg code => Sys2Proof.Machine.execRuleDeny t tg code s
  | .ruleSubst t ga tg => Sys2Proof.Machine.execRuleSubst t ga tg s
  | .ruleSafe t code => Sys2Proof.Machine.execRuleSafe t code s
  | .ruleNote t code => Sys2Proof.Machine.execRuleNote t code s
  | .watchClose t stage => Sys2Proof.Machine.execWatchClose t stage s
  | .diePairRestartDone t die => Sys2Proof.Machine.execDiePairRestartDone t die s
  | .keystoneCompare t die => Sys2Proof.Machine.execKeystoneCompare t die s
  | .selftestSlice t => Sys2Proof.Machine.execSelftestSlice t s
  | .selftestDone t pass => Sys2Proof.Machine.execSelftestDone t pass s
  | .latentFault t cls => Sys2Proof.Machine.execLatentFault t cls s
  | .safeReqPin t low => Sys2Proof.Machine.execSafeReqPin t low s
  | .restartDone t => Sys2Proof.Machine.execRestartDone t s
  | .restartFailed t => Sys2Proof.Machine.execRestartFailed t s
  | .safeState h => Sys2Proof.Machine.execSafeState h s
  | .safeClear h => Sys2Proof.Machine.execSafeClear h s
  | .releaseTarget h tg => Sys2Proof.Machine.execReleaseTarget h tg s
  | .recover h => Sys2Proof.Machine.execRecover h s
  | .recoverDone t pass => Sys2Proof.Machine.execRecoverDone t pass s
  | .plumbClearCounters h => Sys2Proof.Machine.execPlumbClearCounters h s
  | .sync t msg => Sys2Proof.Machine.execSync t msg s
  | .followUp t msg => Sys2Proof.Machine.execFollowUp t msg s
  | .announce t msg => Sys2Proof.Machine.execAnnounce t msg s
  | .delayResp t msg => Sys2Proof.Machine.execDelayResp t msg s
  | .pdelayReq t msg => Sys2Proof.Machine.execPdelayReq t msg s
  | .pdelayResp t msg => Sys2Proof.Machine.execPdelayResp t msg s
  | .pdelayRespFollowUp t msg => Sys2Proof.Machine.execPdelayRespFollowUp t msg s
  | .domainHoldover t d => Sys2Proof.Machine.execDomainHoldover t d s
  | .setLocalDom0 h => Sys2Proof.Machine.execSetLocalDom0 h s
  | .setLocalDom1 h => Sys2Proof.Machine.execSetLocalDom1 h s
  | .timeClearCounters h => Sys2Proof.Machine.execTimeClearCounters h s
  | .tpoPulse t n => Sys2Proof.Machine.execTpoPulse t n s
  | .tpoPulseEnd t n => Sys2Proof.Machine.execTpoPulseEnd t n s
  | .timeCapture t c => Sys2Proof.Machine.execTimeCapture t c s
  | .capturePop h c => Sys2Proof.Machine.execCapturePop h c s
  | .linkChange t port up => Sys2Proof.Machine.execLinkChange t port up s
  | .arpRequest t port ip mac => Sys2Proof.Machine.execArpRequest t port ip mac s
  | .arpReply t port ip mac => Sys2Proof.Machine.execArpReply t port ip mac s
  | .icmpEcho t port ip bytes => Sys2Proof.Machine.execIcmpEcho t port ip bytes s
  | .pauseFrame t port quanta => Sys2Proof.Machine.execPauseFrame t port quanta s
  | .droppedFrame t port => Sys2Proof.Machine.execDroppedFrame t port s
  | .arpRetry t port ip => Sys2Proof.Machine.execArpRetry t port ip s
  | .arpAgeOut t port ip => Sys2Proof.Machine.execArpAgeOut t port ip s
  | .resultRingPoll t => Sys2Proof.Machine.execResultRingPoll t s
  | .datagramFlush t stream => Sys2Proof.Machine.execDatagramFlush t stream s
  | .heartbeat t => Sys2Proof.Machine.execHeartbeat t s
  | .netClearCounters h => Sys2Proof.Machine.execNetClearCounters h s
  | .cmd0 t => Sys2Proof.Machine.execCmd0 t s
  | .cmd3 t => Sys2Proof.Machine.execCmd3 t s
  | .cmd5 t s18 => Sys2Proof.Machine.execCmd5 t s18 s
  | .cmd7 t rca => Sys2Proof.Machine.execCmd7 t rca s
  | .cmd11 t => Sys2Proof.Machine.execCmd11 t s
  | .cmd15 t => Sys2Proof.Machine.execCmd15 t s
  | .cmd19 t => Sys2Proof.Machine.execCmd19 t s
  | .cmd52 t write raw fn addr data => Sys2Proof.Machine.execCmd52 t write raw fn addr data s
  | .cmd53 t write fn blocks incr addr count data => Sys2Proof.Machine.execCmd53 t write fn blocks incr addr count data s
  | .bulkTimeout t => Sys2Proof.Machine.execBulkTimeout t s
  | .imageCheckDone t => Sys2Proof.Machine.execImageCheckDone t s
  | .rateLimitEnd t client => Sys2Proof.Machine.execRateLimitEnd t client s
  | .echo h bytes => Sys2Proof.Machine.execEcho h bytes s
  | .deviceInfo h => Sys2Proof.Machine.execDeviceInfo h s
  | .deviceReset h confirm => Sys2Proof.Machine.execDeviceReset h confirm s
  | .deviceResetEffect t plumbOk => Sys2Proof.Machine.execDeviceResetEffect t plumbOk s
  | .cxpRegRead h group addr len => Sys2Proof.Machine.execCxpRegRead h group addr len s
  | .cxpRegWrite h group addr bytes => Sys2Proof.Machine.execCxpRegWrite h group addr bytes s
  | .logPull h log most => Sys2Proof.Machine.execLogPull h log most s
  | .imagePull h band col mask cols => Sys2Proof.Machine.execImagePull h band col mask cols s
  | .regRead h addr count => Sys2Proof.Machine.execRegRead h addr count s
  | .regWrite h pairs => Sys2Proof.Machine.execRegWrite h pairs s
  | .regModify h addr mask value => Sys2Proof.Machine.execRegModify h addr mask value s
  | .planLoad h len digest => Sys2Proof.Machine.execPlanLoad h len digest s
  | .planAdmit h => Sys2Proof.Machine.execPlanAdmit h s
  | .planStart h => Sys2Proof.Machine.execPlanStart h s
  | .planStop h => Sys2Proof.Machine.execPlanStop h s
  | .planUnload h => Sys2Proof.Machine.execPlanUnload h s
  | .graphSubmit h die addr => Sys2Proof.Machine.execGraphSubmit h die addr s
  | .graphWait h id => Sys2Proof.Machine.execGraphWait h id s
  | .modelLoad h id mask signed len digest => Sys2Proof.Machine.execModelLoad h id mask signed len digest s
  | .modelUnload h id => Sys2Proof.Machine.execModelUnload h id s
  | .flatLoad h group phase count => Sys2Proof.Machine.execFlatLoad h group phase count s
  | .projLoad h group count => Sys2Proof.Machine.execProjLoad h group count s
  | .pageMap h first count pin => Sys2Proof.Machine.execPageMap h first count pin s
  | .pageUnmap h first count => Sys2Proof.Machine.execPageUnmap h first count s
  | .memWrite h space addr bytes => Sys2Proof.Machine.execMemWrite h space addr bytes s
  | .memRead h space addr len bulk => Sys2Proof.Machine.execMemRead h space addr len bulk s
  | .ctxOpen h ctx stateAddr initAddr size markReset tag => Sys2Proof.Machine.execCtxOpen h ctx stateAddr initAddr size markReset tag s
  | .ctxClose h ctx => Sys2Proof.Machine.execCtxClose h ctx s
  | .seqOpen h seq heads dim q4 markReset sp0 pitch list max => Sys2Proof.Machine.execSeqOpen h seq heads dim q4 markReset sp0 pitch list max s
  | .seqFork h src dst n => Sys2Proof.Machine.execSeqFork h src dst n s
  | .seqClose h seq => Sys2Proof.Machine.execSeqClose h seq s
  | .courseProgLoad h prog text => Sys2Proof.Machine.execCourseProgLoad h prog text s
  | .servoProgLoad h axis text consts inits => Sys2Proof.Machine.execServoProgLoad h axis text consts inits s
  | .qpLoad h ctl len => Sys2Proof.Machine.execQpLoad h ctl len s
  | .motionPost h reqs => Sys2Proof.Machine.execMotionPost h reqs s
  | .sdfLoad h box len => Sys2Proof.Machine.execSdfLoad h box len s
  | .occLoad h t0 first last len => Sys2Proof.Machine.execOccLoad h t0 first last len s
  | .mapPublish h => Sys2Proof.Machine.execMapPublish h s
  | .timeRead h => Sys2Proof.Machine.execTimeRead h s
  | .ruleLoad h digest image => Sys2Proof.Machine.execRuleLoad h digest image s
  | .safetyStatus h => Sys2Proof.Machine.execSafetyStatus h s
  | .budgetSet h mw cold420 => Sys2Proof.Machine.execBudgetSet h mw cold420 s
  | .powerState h st => Sys2Proof.Machine.execPowerState h st s
  | .accountRead h client die => Sys2Proof.Machine.execAccountRead h client die s
  | .attest h nonce => Sys2Proof.Machine.execAttest h nonce s
  | .keyInfo h => Sys2Proof.Machine.execKeyInfo h s
  | .ownerKeySet h slot key confirm => Sys2Proof.Machine.execOwnerKeySet h slot key confirm s
  | .ownerKeyRevoke h slot confirm => Sys2Proof.Machine.execOwnerKeyRevoke h slot confirm s
  | .testMode h enter confirm => Sys2Proof.Machine.execTestMode h enter confirm s
  | .mgmtClearCounters h => Sys2Proof.Machine.execMgmtClearCounters h s
  | .clearLogs h => Sys2Proof.Machine.execClearLogs h s
  | .requireOwnerSig h => Sys2Proof.Machine.execRequireOwnerSig h s
  | .powerOn t f b plumbOk => Sys2Proof.Machine.execPowerOn t f b plumbOk s
  | .resetN t low b plumbOk => Sys2Proof.Machine.execResetN t low b plumbOk s
  | .pwrgdFall t => Sys2Proof.Machine.execPwrgdFall t s
  | .refclkLoss t => Sys2Proof.Machine.execRefclkLoss t s
  | .ethclkLoss t => Sys2Proof.Machine.execEthclkLoss t s
  | .cxpclkLoss t => Sys2Proof.Machine.execCxpclkLoss t s
  | .domainFault t pd => Sys2Proof.Machine.execDomainFault t pd s
  | .tempSample t temps => Sys2Proof.Machine.execTempSample t temps s
  | .derateStep t => Sys2Proof.Machine.execDerateStep t s
  | .energyMeter t uj => Sys2Proof.Machine.execEnergyMeter t uj s
  | .powerClearCounters h => Sys2Proof.Machine.execPowerClearCounters h s
  | .recalibrate h => Sys2Proof.Machine.execRecalibrate h s
  | .snapshot h => Sys2Proof.Machine.execSnapshot h s
  | .disarmAll h => Sys2Proof.Machine.execDisarmAll h s
  | .testClearCounters h => Sys2Proof.Machine.execTestClearCounters h s
  | .injCap h value => Sys2Proof.Machine.execInjCap h value s
  | .injMem h value => Sys2Proof.Machine.execInjMem h value s
  | .injPlumb h value => Sys2Proof.Machine.execInjPlumb h value s
  | .injWd h value => Sys2Proof.Machine.execInjWd h value s
  | .injCourse h value => Sys2Proof.Machine.execInjCourse h value s
  | .injectionDelivered t inj => Sys2Proof.Machine.execInjectionDelivered t inj s
  | .injExpired t inj => Sys2Proof.Machine.execInjExpired t inj s
  | .qchWear t => Sys2Proof.Machine.execQchWear t s
  | .bypass t => Sys2Proof.Machine.execBypass t s
  | .idcode t => Sys2Proof.Machine.execIdcode t s
  | .samplePreload t => Sys2Proof.Machine.execSamplePreload t s
  | .extest t => Sys2Proof.Machine.execExtest t s
  | .extestPulse t => Sys2Proof.Machine.execExtestPulse t s
  | .extestTrain t => Sys2Proof.Machine.execExtestTrain t s
  | .losEnd t n => Sys2Proof.Machine.execLosEnd t n s
  | .axisLos t ax => Sys2Proof.Machine.execAxisLos t ax s
  | .pcxFaultRelease t g => Sys2Proof.Machine.execPcxFaultRelease t g s
  | .shardMissing t graph task => Sys2Proof.Machine.execShardMissing t graph task s
  | .delayReq t d => Sys2Proof.Machine.execDelayReq t d s
  | .announceInterval t d => Sys2Proof.Machine.execAnnounceInterval t d s
  | .pauseExpired t port => Sys2Proof.Machine.execPauseExpired t port s
  | .heldLineRelease t => Sys2Proof.Machine.execHeldLineRelease t s
  | .heldRecordRelease t => Sys2Proof.Machine.execHeldRecordRelease t s
  | .netStallEnd t port => Sys2Proof.Machine.execNetStallEnd t port s
  | .lateCamera t client tag => Sys2Proof.Machine.execLateCamera t client tag s
  | .bulkOutTimeout t => Sys2Proof.Machine.execBulkOutTimeout t s
  | .admissionDone t => Sys2Proof.Machine.execAdmissionDone t s
  | .startupComplete t b => Sys2Proof.Machine.execStartupComplete t b s
  | .powerStateReached t => Sys2Proof.Machine.execPowerStateReached t s

end Sys2Proof.Machine
end

