-- ==== Sys2Proof/Machine/Idle.lean ====
section
/-!
DEFINITION. What a step does on an empty queue: one tick of the timing clock passes.
-/
namespace Sys2Proof.Machine

/-- One tick of 2 ns: the position moves where it is dead-reckoned, each enabled event program does one step in order of its number
(R64, R65), and packets that can be taken are taken. -/
def idleTick (s : State) : State := ((s.to (s.now + 1)).each (List.range 64) State.progTick).pump

end Sys2Proof.Machine
end

