-- ==== Sys2Proof/Safety.lean ====
section
/-!
DEFINITION. What a safe run is, in the terms statements use: the canonical forms of the registers and of the stores, the sizes
of the tables that stand for the part's numbered units, a command that completes, and a packet that nothing refuses.
-/
namespace Sys2Proof.Machine

/-- The stores are in their canonical form: keys strictly rising, and no byte listed that an unlisted one reads as. -/
abbrev Memory.wf (m : List (Nat × Byte)) : Prop := tableWf memDefault m = true

/-- The registers are in their canonical form: addresses strictly rising, and no register listed at its reset value. -/
abbrev Registers.wf (p : Part) (m : List (Nat × Word)) : Prop := tableWf (regReset p) m = true

/-- The numbered units of the Course Unit: 8 encoder inputs, 4 line generators, 24 outputs, 64 event programs (R37 to R64). -/
abbrev Course.Sized (c : Course) : Prop := c.enc.length = 8 ∧ c.lg.length = 4 ∧ c.out.length = 24 ∧ c.prog.length = 64

/-- 2 domains, 8 pulse outputs, 4 captures, 4 ports, 4 streams, 8 record types (R463 to R481). -/
abbrev TimeNet.Sized (n : TimeNet) : Prop :=
  n.dom.length = 2 ∧ n.tpo.length = 8 ∧ n.tcap.length = 4 ∧ n.port.length = 4 ∧ n.dst.length = 4 ∧ n.tseq.length = 8

/-- 8 connection groups and 64 sensor sources (R71, R97). -/
abbrev Acq.Sized (a : Acq) : Prop := a.grp.length = 8 ∧ a.src.length = 64

/-- 52 cores and 48 slots of a compute die (R106, R136). -/
abbrev Die.Sized (d : Die) : Prop := d.core.length = 52 ∧ d.slot.length = 48 ∧ d.run.length = 48

/-- 16 Quarry channels (R290). -/
abbrev MemTier.Sized (m : MemTier) : Prop := m.qch.length = 16

/-- 16 axes, 8 axis groups, 8 ADC and 8 DAC channels, 8 controllers, 8 carriages (R358, R371, R375, R377, R395). -/
abbrev Line.Sized (l : Line) : Prop :=
  l.axis.length = 16 ∧ l.grp.length = 8 ∧ l.adc.length = 8 ∧ l.dac.length = 8 ∧ l.dacCmd.length = 8 ∧ l.dacVal.length = 8 ∧
    l.qp.length = 8 ∧ l.car.length = 8

/-- 80 line targets, 16 rule registers, 8 stages (R436, R438, R444). -/
abbrev Plumb.Sized (p : Plumb) : Prop :=
  p.targets.length = 80 ∧ p.verdicts.length = 80 ∧ p.g.length = 16 ∧ p.stages.length = 8

/-- 5 injections (R585). -/
abbrev Test.Sized (x : Test) : Prop := x.inj.length = 5

/-- Every table that stands for numbered units has its size. -/
structure State.Sized (s : State) : Prop where
  course : s.course.Sized
  tn : s.tn.Sized
  acq : s.acq.Sized
  die : s.die.length = 4 ∧ ∀ d ∈ s.die, d.Sized
  stream : s.stream.length = 4
  kv : s.kv.length = 4
  mt : s.mt.Sized
  line : s.line.Sized
  plumb : s.plumb.Sized
  test : s.test.Sized

/-- The parts of the state. -/
inductive Block where
  | part
  | now
  | regs
  | mem
  | snaps
  | cyc
  | cycAt
  | freq
  | changing
  | fresh
  | course
  | tn
  | acq
  | die
  | stream
  | kv
  | adapt
  | mt
  | bond
  | line
  | plumb
  | power
  | test
  | mgmt
  | sdio
  | pending
  deriving DecidableEq, Repr

/-- A part of the state is the same in both. -/
def Block.same (s t : State) : Block → Prop
  | .part => t.part = s.part
  | .now => t.now = s.now
  | .regs => t.regs = s.regs
  | .mem => t.mem = s.mem
  | .snaps => t.snaps = s.snaps
  | .cyc => t.cyc = s.cyc
  | .cycAt => t.cycAt = s.cycAt
  | .freq => t.freq = s.freq
  | .changing => t.changing = s.changing
  | .fresh => t.fresh = s.fresh
  | .course => t.course = s.course
  | .tn => t.tn = s.tn
  | .acq => t.acq = s.acq
  | .die => t.die = s.die
  | .stream => t.stream = s.stream
  | .kv => t.kv = s.kv
  | .adapt => t.adapt = s.adapt
  | .mt => t.mt = s.mt
  | .bond => t.bond = s.bond
  | .line => t.line = s.line
  | .plumb => t.plumb = s.plumb
  | .power => t.power = s.power
  | .test => t.test = s.test
  | .mgmt => t.mgmt = s.mgmt
  | .sdio => t.sdio = s.sdio
  | .pending => t.pending = s.pending

/-- Nothing outside the listed parts has changed. -/
def OnlyIn (m : List Block) (s t : State) : Prop := ∀ b, b ∉ m → b.same s t

/-! ### Commands from the host (R498 to R511) -/

/-- The state a packet is carried out in: the packet has been counted, and its bit of F1_INT_PEND set. -/
def State.received (s : State) : State := (s.bump 0x34).updSdio (fun x => { x with f1Pend := x.f1Pend ||| 2 })

/-- Nothing stands before the packet and nothing refuses it: function 1 is served, no packet waits before it, the reply buffer
has room, it is well formed, its client is not held back, and no check of R499 to R506 refuses it. -/
structure State.Accepts (s : State) (p : Packet) : Prop where
  served : s.mgmt.st ≠ .boot
  first : s.sdio.cmdBuf = []
  fits : p.size ≤ 65536
  free : s.mayTake = true
  good : p.bad = 0
  rate : (s.received.limited (violClient p) && !limitFree p.opcode) = false
  unrefused : s.received.refusal p = 0

/-- The state a host command with this header is carried out in. -/
def State.atHost (s : State) (h : Hdr) : State := (s.to h.t).received

/-- A host command that nothing refuses before it is carried out. -/
def Carried (s : State) (h : Hdr) (c : HostCmd) : Prop := (s.to h.t).Accepts (packetOf h.tag h.client c)

/-- The header and the command of a row that the host sends through the SDIO command interface; a row that writes or reads one
register is the REG_WRITE, REG_READ or REG_MODIFY that does so. -/
def hostOf : Instr → Option (Hdr × HostCmd)
  | .echo h bytes => some (h, .echo bytes)
  | .deviceInfo h => some (h, .deviceInfo)
  | .deviceReset h confirm => some (h, .deviceReset confirm)
  | .cxpRegRead h group addr len => some (h, .cxpRegRead group addr len)
  | .cxpRegWrite h group addr bytes => some (h, .cxpRegWrite group addr bytes)
  | .logPull h log most => some (h, .logPull log most)
  | .imagePull h band col mask cols => some (h, .imagePull band col mask cols)
  | .regRead h addr count => some (h, .regRead addr count)
  | .regWrite h pairs => some (h, .regWrite pairs)
  | .regModify h addr mask value => some (h, .regModify addr mask value)
  | .planLoad h len digest => some (h, .planLoad len digest)
  | .planAdmit h => some (h, .planAdmit)
  | .planStart h => some (h, .planStart)
  | .planStop h => some (h, .planStop)
  | .planUnload h => some (h, .planUnload)
  | .graphSubmit h die addr => some (h, .graphSubmit die addr)
  | .graphWait h id => some (h, .graphWait id)
  | .modelLoad h id mask signed len digest => some (h, .modelLoad id mask signed len digest)
  | .modelUnload h id => some (h, .modelUnload id)
  | .flatLoad h group phase count => some (h, .flatLoad group phase count)
  | .projLoad h group count => some (h, .projLoad group count)
  | .pageMap h first count pin => some (h, .pageMap first count pin)
  | .pageUnmap h first count => some (h, .pageUnmap first count)
  | .memWrite h space addr bytes => some (h, .memWrite space addr bytes)
  | .memRead h space addr len bulk => some (h, (if bulk then .memReadBulk space addr len else .memRead space addr len))
  | .ctxOpen h ctx stateAddr initAddr size markReset tag => some (h, .ctxOpen ctx stateAddr initAddr size markReset tag)
  | .ctxClose h ctx => some (h, .ctxClose ctx)
  | .seqOpen h seq heads dim q4 markReset sp0 pitch list max => some (h, .seqOpen seq heads dim q4 markReset sp0 pitch list max)
  | .seqFork h src dst n => some (h, .seqFork src dst n)
  | .seqClose h seq => some (h, .seqClose seq)
  | .courseProgLoad h prog text => some (h, .courseProgLoad prog text)
  | .servoProgLoad h axis text consts inits => some (h, .servoProgLoad axis text consts inits)
  | .qpLoad h ctl len => some (h, .qpLoad ctl len)
  | .motionPost h reqs => some (h, .motionPost reqs)
  | .sdfLoad h box len => some (h, .sdfLoad box len)
  | .occLoad h t0 first last len => some (h, .occLoad t0 first last len)
  | .mapPublish h => some (h, .mapPublish)
  | .timeRead h => some (h, .timeRead)
  | .ruleLoad h digest image => some (h, .ruleLoad digest image)
  | .safetyStatus h => some (h, .safetyStatus)
  | .budgetSet h mw cold420 => some (h, .budgetSet mw cold420)
  | .powerState h st => some (h, .powerState st)
  | .accountRead h client die => some (h, .accountRead client die)
  | .attest h nonce => some (h, .attest nonce)
  | .keyInfo h => some (h, .keyInfo)
  | .ownerKeySet h slot key confirm => some (h, .ownerKeySet slot key confirm)
  | .ownerKeyRevoke h slot confirm => some (h, .ownerKeyRevoke slot confirm)
  | .testMode h enter confirm => some (h, .testMode enter confirm)
  | .snapshotRead h addr => some (h, .regRead addr 1)
  | .snapshotConsume h addr => some (h, .regRead addr 1)
  | .capturePop h c => some (h, (.regRead (wordOf (0xC0204 + 0x10 * c)) 1))
  | .acqStart h => some (h, .regModify 0x20000#32 1#32 1#32)
  | .acqStop h => some (h, .regModify 0x20000#32 1#32 0#32)
  | .servoEnSet h => some (h, .regModify 0x80000#32 1#32 1#32)
  | .servoEnClear h => some (h, .regModify 0x80000#32 1#32 0#32)
  | .clearFaultA h => some (h, (.regWrite [(wordOf 0x10048, wordOf 3)]))
  | .clearFaultB h => some (h, (.regWrite [(wordOf 0x10048, wordOf 4)]))
  | .resync h => some (h, (.regWrite [(wordOf 0x10048, wordOf 2)]))
  | .loadSp h => some (h, (.regWrite [(wordOf 0x10048, wordOf 1)]))
  | .relocate h => some (h, (.regWrite [(wordOf 0x10048, wordOf 5)]))
  | .coilMark h => some (h, (.regWrite [(wordOf 0x10048, wordOf 6)]))
  | .retireCore h die core => some (h, (.regWrite [(wordOf (bFabric die + 0x1C), wordOf (0x1000000 + core % 256))]))
  | .fabricClearCounters h die => some (h, (.regWrite [(wordOf (bFabric die + 0x1C), wordOf 0x2000000)]))
  | .resetCtx h die ctx => some (h, (.regWrite [(wordOf (bStream die + 0x30), wordOf (0x1000000 + ctx % 2 ^ 18))]))
  | .pin h die ctx => some (h, (.regWrite [(wordOf (bStream die + 0x30), wordOf (0x2000000 + ctx % 2 ^ 18))]))
  | .unpin h die ctx => some (h, (.regWrite [(wordOf (bStream die + 0x30), wordOf (0x3000000 + ctx % 2 ^ 18))]))
  | .evict h die ctx => some (h, (.regWrite [(wordOf (bStream die + 0x30), wordOf (0x4000000 + ctx % 2 ^ 18))]))
  | .streamClearCounters h die => some (h, (.regWrite [(wordOf (bStream die + 0x30), wordOf 0x5000000)]))
  | .streamCtxSel h die ctx => some (h, (.regWrite [(wordOf (bStream die + 0x34), wordOf (ctx % 2 ^ 18))]))
  | .resetSeq h die seq => some (h, (.regWrite [(wordOf (bKv die + 0x2C), wordOf (0x1000000 + seq % 1024))]))
  | .kvClose h die seq => some (h, (.regWrite [(wordOf (bKv die + 0x2C), wordOf (0x2000000 + seq % 1024))]))
  | .commit h => some (h, (.regWrite [(wordOf 0x5002C, wordOf 0x3000000)]))
  | .rollback h => some (h, (.regWrite [(wordOf 0x5002C, wordOf 0x4000000)]))
  | .resetMasters h => some (h, (.regWrite [(wordOf 0x5002C, wordOf 0x5000000)]))
  | .kvClearCounters h die => some (h, (.regWrite [(wordOf (bKv die + 0x2C), wordOf 0x6000000)]))
  | .kvSeqSel h die seq => some (h, (.regWrite [(wordOf (bKv die + 0x30), wordOf (seq % 1024))]))
  | .kvPageSel h die page => some (h, (.regWrite [(wordOf (bKv die + 0x34), wordOf (page % 2 ^ 19))]))
  | .excludeQch h ch => some (h, (.regWrite [(wordOf 0x60020, wordOf (0x1000000 + ch % 16))]))
  | .memClearCounters h => some (h, (.regWrite [(wordOf 0x60020, wordOf 0x2000000)]))
  | .memPageSel h page => some (h, (.regWrite [(wordOf 0x60024, wordOf (page % 65536))]))
  | .readmit h => some (h, (.regWrite [(wordOf 0x7000C, wordOf 1)]))
  | .bondClearCounters h => some (h, (.regWrite [(wordOf 0x7000C, wordOf 2)]))
  | .bondAcctSel h value => some (h, (.regWrite [(wordOf 0x70060, wordOf value.toNat)]))
  | .tierBaseWrite h die value => some (h, (.regWrite [(wordOf (aLin die), wordOf value.toNat)]))
  | .servoEnable h ax => some (h, (.regWrite [(wordOf 0x80010, wordOf (0x1000000 + ax % 16))]))
  | .servoDisable h ax => some (h, (.regWrite [(wordOf 0x80010, wordOf (0x2000000 + ax % 16))]))
  | .axisClearFault h ax => some (h, (.regWrite [(wordOf 0x80010, wordOf (0x3000000 + ax % 16))]))
  | .home h ax => some (h, (.regWrite [(wordOf 0x80010, wordOf (0x4000000 + ax % 16))]))
  | .resetState h ax => some (h, (.regWrite [(wordOf 0x80010, wordOf (0x5000000 + ax % 16))]))
  | .servoResync h ax => some (h, (.regWrite [(wordOf 0x80010, wordOf (0x6000000 + ax % 16))]))
  | .clearGroup h g => some (h, (.regWrite [(wordOf 0x80010, wordOf (0x7000000 + g % 8))]))
  | .servoClearCounters h => some (h, (.regWrite [(wordOf 0x80010, wordOf 0x8000000)]))
  | .qpEnable h c => some (h, (.regWrite [(wordOf 0x90010, wordOf (0x1000000 + c % 8))]))
  | .qpDisable h c => some (h, (.regWrite [(wordOf 0x90010, wordOf (0x2000000 + c % 8))]))
  | .qpRestart h c => some (h, (.regWrite [(wordOf 0x90010, wordOf (0x3000000 + c % 8))]))
  | .qpClearCounters h c => some (h, (.regWrite [(wordOf 0x90010, wordOf (0x4000000 + c % 8))]))
  | .publish h => some (h, (.regWrite [(wordOf 0xA0010, wordOf 0x1000000)]))
  | .flush h car => some (h, (.regWrite [(wordOf 0xA0010, wordOf (0x2000000 + car % 8))]))
  | .motionClearCounters h => some (h, (.regWrite [(wordOf 0xA0010, wordOf 0x3000000)]))
  | .safeState h => some (h, (.regWrite [(wordOf 0xB000C, wordOf 0x1000000)]))
  | .safeClear h => some (h, (.regWrite [(wordOf 0xB000C, wordOf 0x2000000)]))
  | .releaseTarget h tg => some (h, (.regWrite [(wordOf 0xB000C, wordOf (0x3000000 + tg % 128))]))
  | .recover h => some (h, (.regWrite [(wordOf 0xB000C, wordOf 0x4000000)]))
  | .plumbClearCounters h => some (h, (.regWrite [(wordOf 0xB000C, wordOf 0x5000000)]))
  | .setLocalDom0 h => some (h, (.regWrite [(wordOf 0xC0010, wordOf 1)]))
  | .setLocalDom1 h => some (h, (.regWrite [(wordOf 0xC0010, wordOf 2)]))
  | .timeClearCounters h => some (h, (.regWrite [(wordOf 0xC0010, wordOf 3)]))
  | .netClearCounters h => some (h, (.regWrite [(wordOf 0xD0010, wordOf 1)]))
  | .powerClearCounters h => some (h, (.regWrite [(wordOf 0xE000C, wordOf 1)]))
  | .recalibrate h => some (h, (.regWrite [(wordOf 0xE000C, wordOf 2)]))
  | .snapshot h => some (h, (.regWrite [(wordOf 0xF000C, wordOf 1)]))
  | .disarmAll h => some (h, (.regWrite [(wordOf 0xF000C, wordOf 2)]))
  | .testClearCounters h => some (h, (.regWrite [(wordOf 0xF000C, wordOf 3)]))
  | .injCap h value => some (h, (.regWrite [(wordOf (injReg 0), wordOf value.toNat)]))
  | .injMem h value => some (h, (.regWrite [(wordOf (injReg 1), wordOf value.toNat)]))
  | .injPlumb h value => some (h, (.regWrite [(wordOf (injReg 2), wordOf value.toNat)]))
  | .injWd h value => some (h, (.regWrite [(wordOf (injReg 3), wordOf value.toNat)]))
  | .injCourse h value => some (h, (.regWrite [(wordOf (injReg 4), wordOf value.toNat)]))
  | .mgmtClearCounters h => some (h, (.regWrite [(wordOf 0x1C, wordOf 1)]))
  | .clearLogs h => some (h, (.regWrite [(wordOf 0x1C, wordOf 2)]))
  | .requireOwnerSig h => some (h, (.regWrite [(wordOf 0x100004, wordOf 1)]))
  | .progEnWrite h half value => some (h, (.regWrite [(wordOf (0x10800 + 4 * (half % 2)), wordOf value.toNat)]))
  | _ => none

/-- The next reply after those of `s` answers the command with a status and result bytes. -/
def Replied (s v : State) (h : Hdr) (c : HostCmd) (status : Nat) (bytes : List Byte) : Prop :=
  v.sdio.replies = s.sdio.replies ++
    [{ status := status, tag := h.tag, client := h.client, opcode := hostOp c, bytes := bytes }]

/-- The state after the OK reply to a write of one register, which has been applied (R509). -/
def State.answered (s : State) (h : Hdr) (a v : Nat) : State :=
  s.reply (packetOf h.tag h.client (.regWrite [(wordOf a, wordOf v)])) 0 (leBytes 4 1)

/-- A REG_WRITE of one register that nothing refuses before the register takes the value: its domain is on, its block is not
closed by a safety restart, a register of TEST is open, and the part has it (R503, R545, R581, R34). -/
structure Written (s : State) (h : Hdr) (a v : Nat) : Prop where
  carried : Carried s h (.regWrite [(wordOf a, wordOf v)])
  on : (s.atHost h).addrLacks a = false
  opened : ((s.atHost h).restarting && restartBlock a) = false
  test : a / 65536 = 15 → (s.atHost h).test.mode = true ∨ testFree a = true
  there : absentReg s.part a = false

end Sys2Proof.Machine

namespace Sys2Proof

/-- The step answered a next state. -/
def Goes (s : Machine.State) : Prop := ∃ t, Machine.step s = .next t

/-- Once it is `t`, the command changes nothing but the parts of the state in the list. -/
def ChangesOnly (l : List Machine.Block) (t : Nat) (i : Instr) : Prop :=
  ∀ s v, Machine.exec i s = .next v → Machine.OnlyIn l (s.to t) v

/-- The command, at the front of the queue or not, answers a next state. -/
def Completes (c : Instr) (s : Machine.State) : Prop := ∃ t, Machine.exec c s = .next t

end Sys2Proof
end

