-- ==== Sys2Proof/Certificates/Slice0/Obligations.lean ====
section
/-!
DEFINITION. The statements for the provers, of the numbered rules of spec/ and of the model as a whole. In a statement about a command `s.to t` is the state at the
command's tick, `s.atHost h` the state once its packet has been taken; a clause that ends in an operation of the model says that the command does exactly that operation.
-/
open Sys2Proof Sys2Proof.Machine

/-- MODEL. A step takes the command at the front of the queue and runs it on the state with the queue's rest. MODEL. An empty queue idles: the step
answers a next state, time advances, and the queue stays empty (log entry 12). -/
def Obligations.StepRunsTheFrontCommandOrIdles : Prop :=
  (∀ (c : Instr) (rest : List Instr) (s : State), s.pending = c :: rest → step s = exec c { s with pending := rest }) ∧
  (∀ s : State, s.pending = [] → ∃ v, step s = .next v ∧ v.pending = [] ∧ s.now < v.now)

/-- Commands are taken first in, first out, and running one neither adds nor takes another. Every command at the front of the queue gives a next state, in
every state: none faults and none is refused by the model. Time never runs back. -/
def Obligations.EveryStepTakesItsCommandAndGoesOn : Prop :=
  (∀ s v : State, step s = .next v → v.pending = s.pending.tail) ∧
  (∀ s : State, Goes s) ∧
  (∀ s v : State, step s = .next v → s.now ≤ v.now)

/-- The invariant of the model: the registers and the stores are in canonical form, and every table that stands for numbered units has one entry for each
unit. -/
def Obligations.StepKeepsTheInvariant : Prop :=
  ∀ s v : State, Registers.wf s.part s.regs → Memory.wf s.mem → s.Sized → step s = .next v →
    Registers.wf v.part v.regs ∧ Memory.wf v.mem ∧ v.Sized

/-- The invariant holds at reset. R12, R543: right after reset the registers whose Reset column is not 0 read as it says on a VYU-4140 (`regs` single
ones, `arrays` those of numbered units: first address, stride, number, value), every event register and its enables read 0, every memory byte is 0,
nothing is pending, and Vyuri has not started. -/
def Obligations.ResetStateHoldsTheResetValues : Prop :=
  (Registers.wf State.reset.part State.reset.regs ∧ Memory.wf State.reset.mem ∧ State.reset.Sized) ∧
  (let regs : List (Nat × Word) := [(0x20, 0x8000#32), (0x24, 0x8000#32), (0x2C, 0x2710#32), (0x10054, 0x3E8#32), (0x10058, 0x7D0#32),
    (0x1005C, 0x1F4#32), (0x10060, 0x1402#32), (0x10064, 0x4E20#32), (0x10068, 0x64#32), (0x20010, 0x7D0000#32), (0x2001C, 0xFA#32),
    (0x20020, 0x98#32), (0x50028, 0x40#32), (0x60000, 0xD#32), (0x60010, 0x108403E8#32), (0x60014, 0x3C03E8#32), (0x60018, 0x77000008#32),
    (0x70010, 0x50D0040#32), (0x70014, 0x10#32), (0x90014, 0x35800000#32), (0xA0014, 0x3E80#32), (0xA002C, 0x80000000#32),
    (0xA0030, 0x2710#32), (0xA0034, 0x77770020#32), (0xA0038, 0x320032#32), (0xA003C, 0x1F4#32), (0xA0040, 0x100003E8#32),
    (0xA0044, 0x2710#32), (0xB0010, 0x3003C00#32), (0xB0200, 0x3E80001#32), (0xB0300, 0x42000000#32), (0xC0014, 0x186A0#32),
    (0xC0018, 0x3E8#32), (0xC001C, 0x2710#32), (0xD0014, 0x4E20#32), (0xD001C, 0x64#32), (0xE0000, 0xC0#32), (0xE0010, 0x5CC60#32),
    (0xE0014, 0x5CC60#32), (0xE0024, 0x5AA#32), (0xE0028, 0x640000#32), (0xE002C, 0x505#32), (0xE0030, 0x2808#32), (0xF0070, 0x80003E8#32),
    (0xC0034, 2#32)]
  let arrays : List (Nat × Nat × Nat × Word) := [(0x20110, 0x40, 8, 100#32), (0x50028, 0x4000, 4, 0x40#32), (0x60040, 0x10, 4, 0x800#32),
    (0x80110, 0x40, 16, 1#32), (0x80114, 0x40, 16, 1#32), (0x8011C, 0x40, 16, 1#32), (0x90110, 0x40, 8, 0x8404100#32),
    (0x90114, 0x40, 8, 0x3727C5AC#32), (0x90118, 0x40, 8, 0x60#32), (0xB0100, 0x10, 8, 0x1000000#32), (0xB0240, 8, 8, 0xE10#32),
    (0xC0058, 0x40, 2, 2#32), (0xC0204, 0x10, 4, 0xFFFFFFFF#32), (0xC0208, 0x10, 4, 0xFFFFFFFF#32), (0xD0100, 0x100, 4, 0x5DC#32),
    (0xF0080, 4, 4, 0xD00#32)]
  let s := State.reset
  (∀ p ∈ regs, s.liveReg p.1 = p.2) ∧
  (∀ p ∈ arrays, ∀ i, i < p.2.2.1 → s.liveReg (p.1 + p.2.1 * i) = p.2.2.2) ∧
  (∀ a ∈ [evMgmt, evCourse, evAcq, evFabric 0, evStream 0, evKv 0, evMem, evBond, evServo, evQp, evMotion, evPlumb, evTime, evPower, evTest, evSec],
    s.liveReg a = 0#32 ∧ s.liveReg (a + 4) = 0#32) ∧
  (∀ k, s.ldB k = 0#8) ∧ s.course.sp = 0 ∧ s.mgmt.st = .boot ∧ s.mgmt.pow = .run ∧ s.bond.st = .empty ∧ s.pending = [] ∧ s.sdio.cmdBuf = [] ∧
  s.sdio.replies = [] ∧ s.now = 0)

/-- The frames of the commands of the line, the sensors, the network, the fabric, the tiers, the board and the test block: beside the time each of these
183 commands changes no part of the state but those its line names, whichever its operands and the state are: registers, stores, the units of the
chapters (course, acquisition, dies, streams, attention, tiers, plans, line-side engine, Plumb, power, test, management, command interface). -/
def Obligations.CommandsChangeOnlyTheirUnits : Prop :=
  (∀ (t n : Nat) (a b : Bool), ChangesOnly [.regs, .fresh, .course, .tn, .sdio] t (.encoderEdge t n a b)) ∧
  (∀ (t n : Nat), ChangesOnly [.regs, .course, .tn, .sdio] t (.los t n)) ∧
  (∀ (t : Nat), ChangesOnly [.regs, .course, .tn, .sdio] t (.positionLost t)) ∧
  (∀ (t : Nat), ChangesOnly [.regs, .course, .tn, .sdio] t (.zeroSpeed t)) ∧
  (∀ (t p : Nat), ChangesOnly [.regs, .course, .tn, .sdio] t (.progRunaway t p)) ∧
  (∀ (t : Nat), ChangesOnly [.course] t (.speedEstimate t)) ∧
  (∀ (t p : Nat), ChangesOnly [.course] t (.waitCompletes t p)) ∧
  (∀ (t n : Nat), ChangesOnly [.course] t (.losEnd t n)) ∧
  (∀ (t out : Nat), ChangesOnly [.regs, .course, .plumb] t (.strobeStart t out)) ∧
  (∀ (t out : Nat), ChangesOnly [.regs, .course, .plumb] t (.strobeEnd t out)) ∧
  (∀ (t out : Nat), ChangesOnly [.regs, .course, .plumb] t (.pulseEnd t out)) ∧
  (∀ (t p : Nat), ChangesOnly [.regs, .course] t (.halt t p)) ∧
  (∀ (t p : Nat), ChangesOnly [.course] t (.anchor t p)) ∧
  (∀ (t p : Nat) (ofs : Int), ChangesOnly [.course] t (.waitSpGe t p ofs)) ∧
  (∀ (t p : Nat) (ofs : Int), ChangesOnly [.course] t (.waitSpLe t p ofs)) ∧
  (∀ (t p um : Nat), ChangesOnly [.course] t (.waitDsp t p um)) ∧
  (∀ (t p ns : Nat), ChangesOnly [.course] t (.waitT t p ns)) ∧
  (∀ (t p g ph count : Nat), ChangesOnly [.course] t (.waitLine t p g ph count)) ∧
  (∀ (t p sig : Nat), ChangesOnly [.course] t (.waitSig t p sig)) ∧
  (∀ (t p sig : Nat), ChangesOnly [.course] t (.signal t p sig)) ∧
  (∀ (t p out : Nat), ChangesOnly [.regs, .course, .tn, .plumb, .sdio] t (.outSet t p out)) ∧
  (∀ (t p out : Nat), ChangesOnly [.regs, .course, .tn, .plumb, .sdio] t (.outClr t p out)) ∧
  (∀ (t p out ns : Nat), ChangesOnly [.regs, .course, .tn, .plumb, .sdio] t (.outPulse t p out ns)) ∧
  (∀ (t p g : Nat), ChangesOnly [.regs, .course, .tn, .sdio] t (.lgOn t p g)) ∧
  (∀ (t p g : Nat), ChangesOnly [.regs, .course, .tn, .sdio] t (.lgOff t p g)) ∧
  (∀ (t p code : Nat), ChangesOnly [.regs, .mem, .course, .tn, .die, .stream, .kv, .mt, .bond, .line, .plumb, .power, .test, .sdio] t (.mark t p code)) ∧
  (∀ (t p c value : Nat), ChangesOnly [.course] t (.setc t p c value)) ∧
  (∀ (t p c addr : Nat), ChangesOnly [.regs, .course, .tn, .sdio] t (.djnz t p c addr)) ∧
  (∀ (t p addr : Nat), ChangesOnly [.regs, .course, .tn, .sdio] t (.jump t p addr)) ∧
  (∀ (t p speed addr : Nat), ChangesOnly [.regs, .course, .tn, .sdio] t (.ifSlow t p speed addr)) ∧
  (∀ (t p addr : Nat), ChangesOnly [.regs, .course, .tn, .sdio] t (.ifRev t p addr)) ∧
  (∀ (t p : Nat), ChangesOnly [.regs, .course, .tn, .sdio] t (.progFault t p)) ∧
  (∀ (t g : Nat), ChangesOnly [.regs, .tn, .acq, .sdio] t (.rediscovery t g)) ∧
  (∀ (t : Nat), ChangesOnly [.regs, .tn, .acq, .sdio] t (.heldRecordRelease t)) ∧
  (∀ (t port : Nat) (bytes : List Byte), ChangesOnly [.regs, .fresh, .tn, .acq, .sdio] t (.sensorRecord t port bytes)) ∧
  (∀ (t die half : Nat), ChangesOnly [.regs] t (.droopEvent t die half)) ∧
  (∀ (t port : Nat), ChangesOnly [.regs] t (.droppedFrame t port)) ∧
  (∀ (t client : Nat), ChangesOnly [.regs] t (.rateLimitEnd t client)) ∧
  (∀ (t die slot : Nat), ChangesOnly [.regs, .mem, .tn, .die, .stream, .kv, .mt, .bond, .line, .plumb, .power, .test, .sdio] t (.spareInDone t die slot)) ∧
  (∀ (t die slot : Nat), ChangesOnly [.die] t (.taskEnd t die slot)) ∧
  (∀ (t die slot addr : Nat), ChangesOnly [.die] t (.oper t die slot addr)) ∧
  (∀ (t die slot chain addr : Nat), ChangesOnly [.die] t (.chain t die slot chain addr)) ∧
  (∀ (t die slot chain : Nat), ChangesOnly [.die] t (.waitc t die slot chain)) ∧
  (∀ (t die slot : Nat), ChangesOnly [.die] t (.barrier t die slot)) ∧
  (∀ (t die slot c value : Nat), ChangesOnly [.die] t (.setl t die slot c value)) ∧
  (∀ (t die slot c target : Nat), ChangesOnly [.die] t (.taskDjnz t die slot c target)) ∧
  (∀ (t die slot target : Nat), ChangesOnly [.die] t (.taskJump t die slot target)) ∧
  (∀ (t die slot : Nat), ChangesOnly [.die] t (.progErr t die slot)) ∧
  (∀ (t die slot : Nat), ChangesOnly [.die] t (.taskInstrLimit t die slot)) ∧
  (∀ (t die slot vd va vb : Nat), ChangesOnly [.die] t (.vecFadd t die slot vd va vb)) ∧
  (∀ (t die slot vd va vb : Nat), ChangesOnly [.die] t (.vecFmul t die slot vd va vb)) ∧
  (∀ (t die slot vd va vb vc : Nat), ChangesOnly [.die] t (.vecFfma t die slot vd va vb vc)) ∧
  (∀ (t die slot vd va vb : Nat), ChangesOnly [.die] t (.vecFmax t die slot vd va vb)) ∧
  (∀ (t die slot vd va vb : Nat), ChangesOnly [.die] t (.vecFmin t die slot vd va vb)) ∧
  (∀ (t die slot vd va vb : Nat), ChangesOnly [.die] t (.fcmp t die slot vd va vb)) ∧
  (∀ (t die slot vd va vb : Nat), ChangesOnly [.die] t (.iadd t die slot vd va vb)) ∧
  (∀ (t die slot vd va vb : Nat), ChangesOnly [.die] t (.imul t die slot vd va vb)) ∧
  (∀ (t die slot vd va vb : Nat), ChangesOnly [.die] t (.ishl t die slot vd va vb)) ∧
  (∀ (t die slot vd va vb : Nat), ChangesOnly [.die] t (.ishr t die slot vd va vb)) ∧
  (∀ (t die slot vd va vb : Nat), ChangesOnly [.die] t (.iand t die slot vd va vb)) ∧
  (∀ (t die slot vd va vb : Nat), ChangesOnly [.die] t (.ior t die slot vd va vb)) ∧
  (∀ (t die slot vd va vb : Nat), ChangesOnly [.die] t (.ixor t die slot vd va vb)) ∧
  (∀ (t die slot vd va vb : Nat), ChangesOnly [.die] t (.icmp t die slot vd va vb)) ∧
  (∀ (t die slot vd va vb vc : Nat), ChangesOnly [.die] t (.iclamp t die slot vd va vb vc)) ∧
  (∀ (t die slot vd va rec addr : Nat), ChangesOnly [.die] t (.rescale t die slot vd va rec addr)) ∧
  (∀ (t die slot vd va rec : Nat), ChangesOnly [.die] t (.cvt t die slot vd va rec)) ∧
  (∀ (t die slot vd va : Nat), ChangesOnly [.die] t (.exp t die slot vd va)) ∧
  (∀ (t die slot vd va : Nat), ChangesOnly [.die] t (.vecRecip t die slot vd va)) ∧
  (∀ (t die slot vd va : Nat), ChangesOnly [.die] t (.vecRsqrt t die slot vd va)) ∧
  (∀ (t die slot vd va : Nat), ChangesOnly [.die] t (.sigm t die slot vd va)) ∧
  (∀ (t die slot vd va : Nat), ChangesOnly [.die] t (.vecTanh t die slot vd va)) ∧
  (∀ (t die slot vd : Nat) (imm : Word), ChangesOnly [.die] t (.vbcast t die slot vd imm)) ∧
  (∀ (t die slot vd va : Nat), ChangesOnly [.die] t (.vrmax t die slot vd va)) ∧
  (∀ (t die slot vd va : Nat), ChangesOnly [.die] t (.vrsum t die slot vd va)) ∧
  (∀ (t die slot vd : Nat), ChangesOnly [.die] t (.ilane t die slot vd)) ∧
  (∀ (t die slot : Nat), ChangesOnly [.regs, .mem, .tn, .die, .stream, .kv, .mt, .bond, .line, .plumb, .power, .test, .sdio] t (.shardMissing t die slot)) ∧
  (∀ (t : Nat), ChangesOnly [.regs, .cycAt, .freq, .changing, .tn, .power, .sdio] t (.freqChanged t)) ∧
  (∀ (t die slot chain : Nat), ChangesOnly [.regs, .mem, .tn, .die, .mt, .bond, .sdio] t (.chainDeadline t die slot chain)) ∧
  (∀ (t ch : Nat), ChangesOnly [.regs, .mem, .tn, .die, .mt, .bond, .sdio] t (.burstTimeout t ch)) ∧
  (∀ (t : Nat), ChangesOnly [.regs, .mem, .tn, .die, .stream, .kv, .adapt, .mt, .bond, .line, .plumb, .power, .test, .sdio] t (.adaptCommit t)) ∧
  (∀ (t : Nat), ChangesOnly [.mt] t (.quarryScrub t)) ∧
  (∀ (t : Nat), ChangesOnly [.regs, .mem, .tn, .mt, .sdio] t (.lostMarkingDone t)) ∧
  (∀ (t page : Nat), ChangesOnly [.regs, .mem, .tn, .die, .stream, .kv, .mt, .bond, .line, .plumb, .power, .test, .sdio] t (.migrationMoveDone t page)) ∧
  (∀ (t : Nat), ChangesOnly [.regs, .mem, .tn, .mt, .sdio] t (.resultRingPoll t)) ∧
  (∀ (t : Nat), ChangesOnly [.mem, .mt] t (.migrationPeriod t)) ∧
  (∀ (t die slot va rec addr : Nat), ChangesOnly [.mem, .die, .mt] t (.vst t die slot va rec addr)) ∧
  (∀ (t : Nat), ChangesOnly [.regs, .bond] t (.accountingPeriod t)) ∧
  (∀ (t : Nat), ChangesOnly [.mem, .die, .mt, .bond] t (.planStopDone t)) ∧
  (∀ (t ax d a b : Nat), ChangesOnly [.line] t (.servoFadd t ax d a b)) ∧
  (∀ (t ax d a b : Nat), ChangesOnly [.line] t (.servoFsub t ax d a b)) ∧
  (∀ (t ax d a b : Nat), ChangesOnly [.line] t (.servoFmul t ax d a b)) ∧
  (∀ (t ax d a b c : Nat), ChangesOnly [.line] t (.servoFfma t ax d a b c)) ∧
  (∀ (t ax d a b : Nat), ChangesOnly [.line] t (.servoFmin t ax d a b)) ∧
  (∀ (t ax d a b : Nat), ChangesOnly [.line] t (.servoFmax t ax d a b)) ∧
  (∀ (t ax d a : Nat), ChangesOnly [.line] t (.servoFabs t ax d a)) ∧
  (∀ (t ax d a b c : Nat), ChangesOnly [.line] t (.fclamp t ax d a b c)) ∧
  (∀ (t ax d a b c : Nat), ChangesOnly [.line] t (.fsel t ax d a b c)) ∧
  (∀ (t ax d c : Nat), ChangesOnly [.line] t (.ldk t ax d c)) ∧
  (∀ (t ax d a : Nat), ChangesOnly [.line] t (.servoRecip t ax d a)) ∧
  (∀ (t ax d a : Nat), ChangesOnly [.line] t (.servoRsqrt t ax d a)) ∧
  (∀ (t ax d a : Nat), ChangesOnly [.line] t (.servoTanh t ax d a)) ∧
  (∀ (t car : Nat), ChangesOnly [.line] t (.planBatch t car)) ∧
  (∀ (t car : Nat), ChangesOnly [.line] t (.brakeDone t car)) ∧
  (∀ (t c : Nat), ChangesOnly [.regs, .fresh, .tn, .line, .plumb, .sdio] t (.qpCycleStart t c)) ∧
  (∀ (t c : Nat), ChangesOnly [.regs, .tn, .line, .plumb, .sdio] t (.qpSolveDone t c)) ∧
  (∀ (t c : Nat), ChangesOnly [.regs, .tn, .line, .plumb, .sdio] t (.qpDeadline t c)) ∧
  (∀ (t : Nat), ChangesOnly [.regs, .tn, .line, .plumb, .sdio] t (.restartFailed t)) ∧
  (∀ (t : Nat), ChangesOnly [.mem, .line] t (.shadowCopyDone t)) ∧
  (∀ (t : Nat), ChangesOnly [.regs, .mem, .tn, .die, .stream, .kv, .mt, .bond, .line, .plumb, .test, .sdio] t (.ruleEnd t)) ∧
  (∀ (t gd sel : Nat), ChangesOnly [.regs, .mem, .tn, .die, .stream, .kv, .mt, .bond, .line, .plumb, .test, .sdio] t (.ruleIn t gd sel)) ∧
  (∀ (t gd : Nat) (imm : Word), ChangesOnly [.regs, .mem, .tn, .die, .stream, .kv, .mt, .bond, .line, .plumb, .test, .sdio] t (.ruleKi t gd imm)) ∧
  (∀ (t gd : Nat) (imm : Word), ChangesOnly [.regs, .mem, .tn, .die, .stream, .kv, .mt, .bond, .line, .plumb, .test, .sdio] t (.ruleKf t gd imm)) ∧
  (∀ (t gd ga gb : Nat), ChangesOnly [.regs, .mem, .tn, .die, .stream, .kv, .mt, .bond, .line, .plumb, .test, .sdio] t (.ruleAdd t gd ga gb)) ∧
  (∀ (t gd ga gb : Nat), ChangesOnly [.regs, .mem, .tn, .die, .stream, .kv, .mt, .bond, .line, .plumb, .test, .sdio] t (.ruleSub t gd ga gb)) ∧
  (∀ (t gd ga gb : Nat), ChangesOnly [.regs, .mem, .tn, .die, .stream, .kv, .mt, .bond, .line, .plumb, .test, .sdio] t (.ruleMul t gd ga gb)) ∧
  (∀ (t gd ga gb : Nat), ChangesOnly [.regs, .mem, .tn, .die, .stream, .kv, .mt, .bond, .line, .plumb, .test, .sdio] t (.ruleFadd t gd ga gb)) ∧
  (∀ (t gd ga gb : Nat), ChangesOnly [.regs, .mem, .tn, .die, .stream, .kv, .mt, .bond, .line, .plumb, .test, .sdio] t (.ruleFsub t gd ga gb)) ∧
  (∀ (t gd ga gb : Nat), ChangesOnly [.regs, .mem, .tn, .die, .stream, .kv, .mt, .bond, .line, .plumb, .test, .sdio] t (.ruleFmul t gd ga gb)) ∧
  (∀ (t gd ga : Nat), ChangesOnly [.regs, .mem, .tn, .die, .stream, .kv, .mt, .bond, .line, .plumb, .test, .sdio] t (.ruleAbs t gd ga)) ∧
  (∀ (t gd ga : Nat), ChangesOnly [.regs, .mem, .tn, .die, .stream, .kv, .mt, .bond, .line, .plumb, .test, .sdio] t (.ruleFabs t gd ga)) ∧
  (∀ (t gd ga gb : Nat), ChangesOnly [.regs, .mem, .tn, .die, .stream, .kv, .mt, .bond, .line, .plumb, .test, .sdio] t (.ruleLt t gd ga gb)) ∧
  (∀ (t gd ga gb : Nat), ChangesOnly [.regs, .mem, .tn, .die, .stream, .kv, .mt, .bond, .line, .plumb, .test, .sdio] t (.ruleLe t gd ga gb)) ∧
  (∀ (t gd ga gb : Nat), ChangesOnly [.regs, .mem, .tn, .die, .stream, .kv, .mt, .bond, .line, .plumb, .test, .sdio] t (.ruleEq t gd ga gb)) ∧
  (∀ (t gd ga gb : Nat), ChangesOnly [.regs, .mem, .tn, .die, .stream, .kv, .mt, .bond, .line, .plumb, .test, .sdio] t (.ruleFlt t gd ga gb)) ∧
  (∀ (t gd ga gb : Nat), ChangesOnly [.regs, .mem, .tn, .die, .stream, .kv, .mt, .bond, .line, .plumb, .test, .sdio] t (.ruleFle t gd ga gb)) ∧
  (∀ (t gd ga gb : Nat), ChangesOnly [.regs, .mem, .tn, .die, .stream, .kv, .mt, .bond, .line, .plumb, .test, .sdio] t (.ruleAnd t gd ga gb)) ∧
  (∀ (t gd ga gb : Nat), ChangesOnly [.regs, .mem, .tn, .die, .stream, .kv, .mt, .bond, .line, .plumb, .test, .sdio] t (.ruleOr t gd ga gb)) ∧
  (∀ (t gd ga : Nat), ChangesOnly [.regs, .mem, .tn, .die, .stream, .kv, .mt, .bond, .line, .plumb, .test, .sdio] t (.ruleNot t gd ga)) ∧
  (∀ (t ga n : Nat), ChangesOnly [.regs, .mem, .tn, .die, .stream, .kv, .mt, .bond, .line, .plumb, .test, .sdio] t (.ruleSkipz t ga n)) ∧
  (∀ (t tg : Nat), ChangesOnly [.regs, .mem, .tn, .die, .stream, .kv, .mt, .bond, .line, .plumb, .test, .sdio] t (.rulePermit t tg)) ∧
  (∀ (t tg code : Nat), ChangesOnly [.regs, .mem, .tn, .die, .stream, .kv, .mt, .bond, .line, .plumb, .test, .sdio] t (.ruleDeny t tg code)) ∧
  (∀ (t ga tg : Nat), ChangesOnly [.regs, .mem, .tn, .die, .stream, .kv, .mt, .bond, .line, .plumb, .test, .sdio] t (.ruleSubst t ga tg)) ∧
  (∀ (t code : Nat), ChangesOnly [.regs, .mem, .tn, .die, .stream, .kv, .mt, .bond, .line, .plumb, .test, .sdio] t (.ruleNote t code)) ∧
  (∀ (t cls : Nat), ChangesOnly [.regs, .tn, .plumb, .sdio] t (.latentFault t cls)) ∧
  (∀ (t : Nat), ChangesOnly [.regs, .plumb] t (.selftestSlice t)) ∧
  (∀ (t : Nat) (pass : Bool), ChangesOnly [.plumb] t (.recoverDone t pass)) ∧
  (∀ (t : Nat) (msg : PtpMsg), ChangesOnly [.regs, .fresh, .tn, .sdio] t (.sync t msg)) ∧
  (∀ (t : Nat) (msg : PtpMsg), ChangesOnly [.regs, .fresh, .tn, .sdio] t (.followUp t msg)) ∧
  (∀ (t d : Nat), ChangesOnly [.regs, .fresh, .tn, .sdio] t (.domainHoldover t d)) ∧
  (∀ (t : Nat) (msg : PtpMsg), ChangesOnly [.regs, .tn] t (.announce t msg)) ∧
  (∀ (t : Nat) (msg : PtpMsg), ChangesOnly [.regs, .tn] t (.delayResp t msg)) ∧
  (∀ (t : Nat) (msg : PtpMsg), ChangesOnly [.regs, .tn] t (.pdelayReq t msg)) ∧
  (∀ (t : Nat) (msg : PtpMsg), ChangesOnly [.regs, .tn] t (.pdelayResp t msg)) ∧
  (∀ (t : Nat) (msg : PtpMsg), ChangesOnly [.regs, .tn] t (.pdelayRespFollowUp t msg)) ∧
  (∀ (t n : Nat), ChangesOnly [.regs, .tn] t (.tpoPulse t n)) ∧
  (∀ (t port ip mac : Nat), ChangesOnly [.regs, .tn] t (.arpRequest t port ip mac)) ∧
  (∀ (t port ip mac : Nat), ChangesOnly [.regs, .tn] t (.arpReply t port ip mac)) ∧
  (∀ (t port ip : Nat) (bytes : List Byte), ChangesOnly [.regs, .tn] t (.icmpEcho t port ip bytes)) ∧
  (∀ (t port quanta : Nat), ChangesOnly [.regs, .tn] t (.pauseFrame t port quanta)) ∧
  (∀ (t port ip : Nat), ChangesOnly [.regs, .tn] t (.arpRetry t port ip)) ∧
  (∀ (t d : Nat), ChangesOnly [.regs, .tn] t (.delayReq t d)) ∧
  (∀ (t d : Nat), ChangesOnly [.regs, .tn] t (.announceInterval t d)) ∧
  (∀ (t port : Nat), ChangesOnly [.regs, .tn] t (.pauseExpired t port)) ∧
  (∀ (t port : Nat), ChangesOnly [.regs, .tn] t (.netStallEnd t port)) ∧
  (∀ (t n : Nat), ChangesOnly [.tn] t (.tpoPulseEnd t n)) ∧
  (∀ (t port ip : Nat), ChangesOnly [.tn] t (.arpAgeOut t port ip)) ∧
  (∀ (t c : Nat), ChangesOnly [.regs, .tn, .sdio] t (.timeCapture t c)) ∧
  (∀ (t port : Nat) (up : Bool), ChangesOnly [.regs, .tn, .sdio] t (.linkChange t port up)) ∧
  (∀ (t stream : Nat), ChangesOnly [.regs, .tn, .sdio] t (.datagramFlush t stream)) ∧
  (∀ (t : Nat), ChangesOnly [.regs, .tn, .sdio] t (.heartbeat t)) ∧
  (∀ (t : Nat), ChangesOnly [.sdio] t (.cmd0 t)) ∧
  (∀ (t : Nat) (s18 : Bool), ChangesOnly [.sdio] t (.cmd5 t s18)) ∧
  (∀ (t rca : Nat), ChangesOnly [.sdio] t (.cmd7 t rca)) ∧
  (∀ (t : Nat), ChangesOnly [.sdio] t (.cmd11 t)) ∧
  (∀ (t : Nat), ChangesOnly [.sdio] t (.cmd15 t)) ∧
  (∀ (t : Nat), ChangesOnly [.sdio] t (.cmd19 t)) ∧
  (∀ (t : Nat), ChangesOnly [.sdio] t (.bulkOutTimeout t)) ∧
  (∀ (t : Nat), ChangesOnly [.fresh, .sdio] t (.cmd3 t)) ∧
  (∀ (t : Nat), ChangesOnly [.regs, .tn, .mgmt, .sdio] t (.ethclkLoss t)) ∧
  (∀ (t : Nat), ChangesOnly [.regs, .tn, .bond, .power, .sdio] t (.derateStep t)) ∧
  (∀ (t : Nat) (uj : List Nat), ChangesOnly [.regs, .tn, .bond, .power, .sdio] t (.energyMeter t uj)) ∧
  (∀ (t inj : Nat), ChangesOnly [.regs, .course, .tn, .test, .sdio] t (.injectionDelivered t inj)) ∧
  (∀ (t inj : Nat), ChangesOnly [.regs, .course, .tn, .test, .sdio] t (.injExpired t inj)) ∧
  (∀ (t : Nat), ChangesOnly [.regs, .tn, .test, .sdio] t (.qchWear t)) ∧
  (∀ (t : Nat), ChangesOnly [.mgmt] t (.bypass t)) ∧
  (∀ (t : Nat), ChangesOnly [.mgmt] t (.idcode t)) ∧
  (∀ (t : Nat), ChangesOnly [.mgmt] t (.samplePreload t)) ∧
  (∀ (t : Nat), ChangesOnly [.mgmt] t (.extest t)) ∧
  (∀ (t : Nat), ChangesOnly [.mgmt] t (.extestPulse t)) ∧
  (∀ (t : Nat), ChangesOnly [.mgmt] t (.extestTrain t)) ∧
  (∀ (t g : Nat), ChangesOnly [.acq] t (.pcxFaultRelease t g)) ∧
  (∀ (t client tag : Nat), ChangesOnly [.acq, .sdio] t (.lateCamera t client tag)) ∧
  (∀ (t : Nat), ChangesOnly [.regs, .tn, .bond, .sdio] t (.admissionDone t))

/-- R39, R40, R42, R45: a counted edge adds its direction to the edge count of its input, and the scale of the input to each counter the input feeds and
to SP where it feeds the source of SP, whatever the interval since the edge before. R40, R41: an input both of whose channels change at once counts
nothing and its error count advances; a FAULTED input counts nothing and its error count stays. R40, R41: loss of signal on an input with LOS_EN set
is an error and makes the input FAULTED; without it, or when the signal is back, only the state of the signal changes. -/
def Obligations.EncoderInputsCountAndFault : Prop :=
  (∀ (t n : Nat) (a b : Bool) (s : State) (d : Int), let u := s.to t
    n < u.course.enc.length → u.courseEn = true → u.rfld (aEnc n) 17 16 ≠ 0 →
    filterPass (u.rfld (aEnc n) 31 24) u.now (u.encAt n).aAt (u.encAt n).a a = a →
    filterPass (u.rfld (aEnc n) 31 24) u.now (u.encAt n).bAt (u.encAt n).b b = b →
    ¬(u.rfld (aEnc n) 17 16 ≠ 3 ∧ (u.encAt n).a ≠ a ∧ (u.encAt n).b ≠ b) → (u.encAt n).faulted = false →
    (u.rfld (aEnc n) 17 16 = 3 → b = (u.encAt n).b ∧ dirSettled (u.rfld (aEnc n) 31 24) u.now (u.encAt n).bAt = true) →
    ((u.encAt n).los && u.rbit (aEnc n) 18) = false →
    countedEdge (u.rfld (aEnc n) 17 16) (u.encAt n).a (u.encAt n).b a b = some d →
    let k := if u.rbit (aEnc n) 19 then -d else d
    let delta := k * ((u.regGet (aEnc n + 4)).toNat : Int)
    ∃ v, exec (.encoderEdge t n a b) s = .next v ∧ (v.encAt n).cnt = (u.encAt n).cnt + k ∧
      v.course.cntA = u.course.cntA + (if u.srcA = n then delta else 0) ∧
      v.course.cntB = u.course.cntB + (if u.bEn = true ∧ u.srcBEnc = n then delta else 0) ∧
      v.course.sp = u.course.sp + (if (if u.course.srcB then u.bEn = true ∧ u.srcBEnc = n else u.srcA = n) ∧
        u.course.dr = none ∧ u.course.lost = none then delta else 0)) ∧
  (∀ (t n : Nat) (a b : Bool) (s : State), let u := s.to t
    let a' := filterPass (u.rfld (aEnc n) 31 24) u.now (u.encAt n).aAt (u.encAt n).a a
    let b' := filterPass (u.rfld (aEnc n) 31 24) u.now (u.encAt n).bAt (u.encAt n).b b
    exec (.encoderEdge t n a b) s = exec (.encoderEdge t n a' b') s ∧
    (∀ k, (u.encAt n).aAt = some k → u.now < k + u.rfld (aEnc n) 31 24 → a' = (u.encAt n).a)) ∧
  (∀ (t n : Nat) (a b : Bool) (s : State), let u := s.to t
    n < 8 → n < u.course.enc.length → u.courseEn = true → u.rfld (aEnc n) 17 16 ≠ 0 →
    filterPass (u.rfld (aEnc n) 31 24) u.now (u.encAt n).aAt (u.encAt n).a a = a →
    filterPass (u.rfld (aEnc n) 31 24) u.now (u.encAt n).bAt (u.encAt n).b b = b →
    ((u.rfld (aEnc n) 17 16 ≠ 3 ∧ (u.encAt n).a ≠ a ∧ (u.encAt n).b ≠ b →
      ∃ v, exec (.encoderEdge t n a b) s = .next v ∧ v.regGet (aEnc n + 12) = u.regGet (aEnc n + 12) + 1#32 ∧
        (v.encAt n).cnt = (u.encAt n).cnt ∧ v.course.cntA = u.course.cntA ∧ v.course.cntB = u.course.cntB ∧
        v.course.sp = u.course.sp) ∧
     (¬(u.rfld (aEnc n) 17 16 ≠ 3 ∧ (u.encAt n).a ≠ a ∧ (u.encAt n).b ≠ b) → (u.encAt n).faulted = true →
      ∃ v, exec (.encoderEdge t n a b) s = .next v ∧ v.regs = u.regs ∧ (v.encAt n).cnt = (u.encAt n).cnt ∧
        v.course.cntA = u.course.cntA ∧ v.course.cntB = u.course.cntB ∧ v.course.sp = u.course.sp))) ∧
  (∀ (t n : Nat) (s : State), let u := s.to t
    n < 8 → n < u.course.enc.length →
    (u.rbit (aEnc n) 18 = true → (u.encAt n).faulted = false →
      ∃ v, exec (.los t n) s = .next v ∧ (v.encAt n).los = true ∧ (v.encAt n).faulted = true ∧
        v.regGet (aEnc n + 12) = u.regGet (aEnc n + 12) + 1#32 ∧ v.course.sp = u.course.sp ∧ v.course.cntA = u.course.cntA ∧
        v.course.cntB = u.course.cntB) ∧
    (u.rbit (aEnc n) 18 = false →
      ∃ v, exec (.los t n) s = .next v ∧ v = u.updEnc n (fun e => { e with los := true })) ∧
    ∃ v, exec (.losEnd t n) s = .next v ∧ v = u.updEnc n (fun e => { e with los := false }))

/-- R48, R52: when DR_LIMIT has run out, SP freezes, dead reckoning ends, the speed reads 0 and POSITION_LOST and ZERO_SPEED are raised; ZERO_MS without a
counted edge makes the speed zero and raises ZERO_SPEED; an estimate enters the history with the present SP. -/
def Obligations.PositionAndSpeedAreLostAndEstimated : Prop :=
  ∀ (t : Nat) (s : State), let u := s.to t
    (∀ d, u.course.dr = some d → d.since + 500 * (u.regGet 0x10064).toNat ≤ u.now →
      ∃ v, exec (.positionLost t) s = .next v ∧ v.course.sp = u.course.sp ∧ v.course.dr = none ∧
        v.course.lost = some { at_ := d.since + 500 * (u.regGet 0x10064).toNat, frozen := u.course.sp, speed := d.speed } ∧ v.course.speed = 0 ∧
        v.rbit evCourse 7 = true ∧ v.rbit evCourse 4 = true) ∧
    (u.courseEn = true → u.course.zero = false → u.course.dr = none →
      500000 * max (u.rfld 0x10060 15 8) 1 ≤ u.now - u.course.lastEdge →
      ∃ v, exec (.zeroSpeed t) s = .next v ∧ v.course.zero = true ∧ v.course.speed = 0 ∧ v.rbit evCourse 4 = true ∧
        v.course.sp = u.course.sp) ∧
    (u.courseEn = true →
      ∃ v, exec (.speedEstimate t) s = .next v ∧ v.course.sp = u.course.sp ∧ v.regs = u.regs ∧
        v.course.hist.head? = some { time := u.local, sp := u.course.sp, edges := u.course.edges } ∧
        v.course.speed = (u.updCourse (fun c =>
          { c with hist := ({ time := u.local, sp := c.sp, edges := c.edges } :: c.hist).take 16384 })).speedNow)

/-- R54, R57: a line position of a generator that may emit, above the high-water mark and every position emitted before, issues its trigger when the fine
position has crossed it and MIN_NS has passed: the phase has emitted one line more, and the position is remembered. R59: a trigger that falls due
before MIN_NS is held back, and issued when MIN_NS has passed: LATE_CNT advances, LG_LATE is raised, and the trigger is issued as any other
(`lgIssue`), so that the line count of its phase advances by one. R60, R61: a strobe of a LEAD of 0 or more, bound to a generator that may emit,
asserts its output and ends WIDTH ns later; a strobe of negative LEAD that is due does the same; a strobe or pulse whose width has passed goes
inactive. The output's permit does not stand in the way. -/
def Obligations.LineTriggersAndOutputsAreTimed : Prop :=
  (∀ (t g ph : Nat) (n : Int) (s : State), let u := s.to t
    let pos := (n * u.lgPitch g + u.lgOfs g ph) * 256
    g < 4 → g < u.course.lg.length → ph < (u.lgAt g).count.length → u.lgEmits g = true → ph ≤ u.rfld (aLg g) 25 24 →
    u.course.hwmPrev < pos → (∀ l, (u.lgAt g).lastPos = some l → l < pos) → pos ≤ u.finePos → (u.lgAt g).skip ≠ some n →
    (u.lgAt g).late = [] → u.lgMinDone g = true →
    ∃ v, exec (.lineTrigger t g ph n) s = .next v ∧ (v.lgAt g).lastPos = some pos ∧
      lget 0 (v.lgAt g).count ph = lget 0 (u.lgAt g).count ph + 1 ∧ (v.lgAt g).lastIssue = some u.now ∧
      v.course.sp = u.course.sp) ∧
  (∀ (t g ph : Nat) (n : Int) (s : State), let u := s.to t
    g < 4 → g < u.course.lg.length → ph < (u.lgAt g).count.length →
    (let pos := (n * u.lgPitch g + u.lgOfs g ph) * 256
     u.lgEmits g = true → ph ≤ u.rfld (aLg g) 25 24 → u.course.hwmPrev < pos →
     (∀ l, (u.lgAt g).lastPos = some l → l < pos) → pos ≤ u.finePos → (u.lgAt g).skip ≠ some n → (u.lgAt g).late = [] →
     u.lgMinDone g = false →
     ∃ v, exec (.lineTrigger t g ph n) s = .next v ∧ (v.lgAt g).late = [(ph, n)] ∧ (v.lgAt g).count = (u.lgAt g).count ∧
       (v.lgAt g).lastIssue = (u.lgAt g).lastIssue) ∧
    (∀ l, (u.lgAt g).late = (ph, n) :: l → u.lgMinDone g = true → u.lgEmits g = true → u.course.reversal = false →
      u.course.sp = u.course.hwm →
     ∃ w v : State, exec (.lateTrigger t g) s = .next v ∧ v = w.lgIssue g ph n ∧ (v.lgAt g).late = l ∧
       lget 0 (v.lgAt g).count ph = lget 0 (u.lgAt g).count ph + 1 ∧ (v.lgAt g).lastIssue = some u.now ∧
       w.rfld (aLg g + 24) 31 16 = satAdd 16 (u.rfld (aLg g + 24) 31 16) 1 ∧ w.rbit evCourse 2 = true)) ∧
  (∀ (t out : Nat) (s : State), let u := s.to t
    let w := (u.rfld (aOut out + 4) 31 16 + 1) / 2
    let g := u.rfld (aOut out) 29 28
    let n := u.nextLine g (u.rfld (aOut out) 27 26) (u.crsAt out).early
    out < u.course.out.length → (∀ x, u.blocked (56 + out) x = false) →
    (u.rfld (aOut out) 31 30 = 1 → 0 ≤ u.lead out → u.lgEmits g = true → u.course.reversal = false → u.course.sp = u.course.hwm →
      (u.lgAt g).skip ≠ some n → w ≠ 0 → (u.crsAt out).active = false →
      ∃ v, exec (.strobeStart t out) s = .next v ∧ (v.crsAt out).active = true ∧ (v.crsAt out).until_ = some (u.now + w) ∧
        (v.crsAt out).early = (u.crsAt out).early ++ [n]) ∧
    (∀ d l, u.rfld (aOut out) 31 30 = 1 → u.lead out < 0 → (u.crsAt out).due = d :: l → d ≤ u.now → w ≠ 0 →
      (u.crsAt out).active = false →
      ∃ v, exec (.strobeStart t out) s = .next v ∧ (v.crsAt out).active = true ∧ (v.crsAt out).until_ = some (u.now + w) ∧
        (v.crsAt out).due = l) ∧
    (∀ e, (u.crsAt out).until_ = some e → e ≤ u.now →
      (∃ v, exec (.strobeEnd t out) s = .next v ∧ (v.crsAt out).active = false ∧ (v.crsAt out).until_ = none) ∧
      ∃ v, exec (.pulseEnd t out) s = .next v ∧ (v.crsAt out).active = false ∧ (v.crsAt out).until_ = none))

/-- R64, R65, R67: what the instructions without a wait do to the program that stands at them; the next one executes a tick later. R64, R65, R67: a wait whose condition holds takes its tick
and the program goes on; one whose condition does not hold leaves the program waiting at its instruction, with its count of R65 back at 0. R64, R65: a
waiting program that is enabled and not suspended goes on when its condition holds; a program that has executed 4,096 instructions in a row is halted
with its PROG_FAULT bit set. -/
def Obligations.EventProgramsRunAndWait : Prop :=
  (∀ (t p : Nat) (s : State), let u := s.to t
    let q := u.progAt p
    let next := if q.text.length ≤ q.pc + 1 then 0 else q.pc + 1
    p < 64 → p < u.course.prog.length → u.progReady p = true →
    (u.progInstr p = .halt → ∃ v, exec (.halt t p) s = .next v ∧ v.progOn p = false) ∧
    (u.progInstr p = .anchor → ∃ v, exec (.anchor t p) s = .next v ∧ v.progAt p = { q with anchor := u.sp, pc := next, icount := q.icount + 1, due := u.now + 1 }) ∧
    (∀ sig, u.progInstr p = .signal sig → ∃ v, exec (.signal t p sig) s = .next v ∧ v.course.sig = u.course.sig ||| BitVec.ofNat 16 (2 ^ sig) ∧
      v.progAt p = { q with pc := next, icount := q.icount + 1, due := u.now + 1 }) ∧
    (∀ c x, u.progInstr p = .setc c x → ∃ v, exec (.setc t p c x) s = .next v ∧
      v.progAt p = { q with cnt := lmod q.cnt c (fun _ => wordOf x), pc := next, icount := q.icount + 1, due := u.now + 1 }) ∧
    (∀ c a, u.progInstr p = .djnz c a → lget 0#32 q.cnt c = 1#32 → ∃ v, exec (.djnz t p c a) s = .next v ∧
      v.progAt p = { q with cnt := lmod q.cnt c (fun _ => 0#32), pc := next, icount := q.icount + 1, due := u.now + 1 }) ∧
    (∀ c a, u.progInstr p = .djnz c a → lget 0#32 q.cnt c ≠ 1#32 → a < q.text.length → ∃ v, exec (.djnz t p c a) s = .next v ∧
      v.progAt p = { q with cnt := lmod q.cnt c (fun _ => lget 0#32 q.cnt c - 1#32), pc := a, icount := q.icount + 1, due := u.now + 1 }) ∧
    (∀ a, u.progInstr p = .jump a → a < q.text.length → ∃ v, exec (.jump t p a) s = .next v ∧ v.progAt p = { q with pc := a, icount := q.icount + 1, due := u.now + 1 }) ∧
    (∀ x a, u.progInstr p = .ifSlow x a → a < q.text.length → ∃ v, exec (.ifSlow t p x a) s = .next v ∧
      v.progAt p = { q with pc := if u.course.speed.natAbs < x then a else next, icount := q.icount + 1, due := u.now + 1 }) ∧
    (∀ a, u.progInstr p = .ifRev a → a < q.text.length → ∃ v, exec (.ifRev t p a) s = .next v ∧
      v.progAt p = { q with pc := if u.course.reversal then a else next, icount := q.icount + 1, due := u.now + 1 }) ∧
    ((u.progInstr p).isBad = true → ∃ v, exec (.progFault t p) s = .next v ∧ v.progOn p = false ∧ v.rbit (0x10810 + 4 * (p / 32)) (p % 32) = true) ∧
    (∀ a, u.progInstr p = .jump a → q.text.length ≤ a → ∃ v, exec (.jump t p a) s = .next v ∧ v.progOn p = false ∧
      v.rbit (0x10810 + 4 * (p / 32)) (p % 32) = true)) ∧
  (∀ (t p : Nat) (s : State), let u := s.to t
    let q := u.progAt p
    let next := if q.text.length ≤ q.pc + 1 then 0 else q.pc + 1
    p < 64 → p < u.course.prog.length → u.progReady p = true →
    (∀ (ofs : Int), u.progInstr p = .waitSpGe ofs → ∃ v, exec (.waitSpGe t p ofs) s = .next v ∧ v.progAt p =
      if q.anchor + ofs ≤ u.sp then { q with pc := next, icount := q.icount + 1, due := u.now + 1 }
      else { q with wait := some (.spGe (q.anchor + ofs)), icount := 0 }) ∧
    (∀ (ofs : Int), u.progInstr p = .waitSpLe ofs → ∃ v, exec (.waitSpLe t p ofs) s = .next v ∧ v.progAt p =
      if u.sp ≤ q.anchor + ofs then { q with pc := next, icount := q.icount + 1, due := u.now + 1 }
      else { q with wait := some (.spLe (q.anchor + ofs)), icount := 0 }) ∧
    (∀ (um : Nat), u.progInstr p = .waitDsp um → ∃ v, exec (.waitDsp t p um) s = .next v ∧ v.progAt p =
      if q.anchor + um ≤ u.sp then { q with anchor := q.anchor + um, pc := next, icount := q.icount + 1, due := u.now + 1 }
      else { q with anchor := q.anchor + um, wait := some (.spGe (q.anchor + um)), icount := 0 }) ∧
    (∀ (ns : Nat), u.progInstr p = .waitT ns → ∃ v, exec (.waitT t p ns) s = .next v ∧ v.progAt p =
      if ns = 0 then { q with pc := next, icount := q.icount + 1, due := u.now + 1 }
      else { q with wait := some (.time (u.now + (ns + 1) / 2)), icount := 0 }) ∧
    (∀ (g ph count : Nat), u.progInstr p = .waitLine g ph count → ∃ v, exec (.waitLine t p g ph count) s = .next v ∧ v.progAt p =
      if count = 0 then { q with pc := next, icount := q.icount + 1, due := u.now + 1 }
      else { q with wait := some (.line g ph (lget 0 (u.lgAt g).count ph + count)), icount := 0 }) ∧
    (∀ (sig : Nat), u.progInstr p = .waitSig sig → u.course.sig.getLsbD sig = false → ∃ v, exec (.waitSig t p sig) s = .next v ∧
      v.course.sig = u.course.sig ∧ v.progAt p = { q with wait := some (.sig sig), icount := 0 }) ∧
    (∀ (sig : Nat), u.progInstr p = .waitSig sig → u.course.sig.getLsbD sig = true →
      (∀ r, r < p → (u.progAt r).wait = some (.sig sig) → u.progOn r = true → u.progHeld r = true) →
      ∃ v, exec (.waitSig t p sig) s = .next v ∧ v.course.sig = u.course.sig &&& ~~~(BitVec.ofNat 16 (2 ^ sig)) ∧
        v.progAt p = { q with pc := next, icount := q.icount + 1, due := u.now + 1 })) ∧
  (∀ (t p : Nat) (s : State), let u := s.to t
    let q := u.progAt p
    let next := if q.text.length ≤ q.pc + 1 then 0 else q.pc + 1
    p < 64 → p < u.course.prog.length → u.progOn p = true →
    (∀ w, q.wait = some w → u.progHeld p = false → u.waitHolds p w = true →
      ∃ v, exec (.waitCompletes t p) s = .next v ∧ v.progAt p = { q with wait := none, pc := next, icount := 0, due := u.now + 1 }) ∧
    (4096 ≤ q.icount →
      ∃ v, exec (.progRunaway t p) s = .next v ∧ v.progOn p = false ∧ v.rbit (0x10810 + 4 * (p / 32)) (p % 32) = true))

/-- R60, R61, R67: the output instructions of the owner act as the output's mode says; those of any other program, and those the mode does not take,
change no output and raise OWNER_VIOLATION. R51, R67: LG_ON and LG_OFF write the enable of a generator; MARK enters a position mark with SP, the time
and its code into the event log. -/
def Obligations.EventProgramsDriveOutputsAndGenerators : Prop :=
  (∀ (t p out ns : Nat) (s : State), let u := s.to t
    p < 64 → p < u.course.prog.length → u.progReady p = true → out < 24 → out < u.course.out.length →
    (∀ x, u.blocked (56 + out) x = false) →
    let owner := u.rfld (aOut out) 21 16
    let mode := u.rfld (aOut out) 31 30
    (owner = p → mode = 0 →
      (u.progInstr p = .outSet out → ∃ v, exec (.outSet t p out) s = .next v ∧ (v.crsAt out).active = true ∧ (v.crsAt out).until_ = none) ∧
      (u.progInstr p = .outClr out → ∃ v, exec (.outClr t p out) s = .next v ∧ (v.crsAt out).active = false ∧
        (v.crsAt out).until_ = none)) ∧
    (owner = p → mode = 0 ∨ mode = 2 → u.progInstr p = .outPulse out ns →
      ∃ v, exec (.outPulse t p out ns) s = .next v ∧ (v.crsAt out).active = true ∧
        (v.crsAt out).until_ = some (u.now + (ns + 1) / 2)) ∧
    (owner ≠ p ∨ mode = 1 ∨ mode = 2 →
      (u.progInstr p = .outSet out → ∃ v, exec (.outSet t p out) s = .next v ∧ v.course.out = u.course.out ∧ v.rbit evCourse 0 = true) ∧
      (u.progInstr p = .outClr out → ∃ v, exec (.outClr t p out) s = .next v ∧ v.course.out = u.course.out ∧
        v.rbit evCourse 0 = true)) ∧
    (owner ≠ p ∨ mode = 1 → u.progInstr p = .outPulse out ns →
      ∃ v, exec (.outPulse t p out ns) s = .next v ∧ v.course.out = u.course.out ∧ v.rbit evCourse 0 = true)) ∧
  (∀ (t p : Nat) (s : State), let u := s.to t
    p < 64 → p < u.course.prog.length → u.progReady p = true →
    (∀ g, g < 4 → (u.progInstr p = .lgOn g → ∃ v, exec (.lgOn t p g) s = .next v ∧ v.rbit (aLg g) 31 = true ∧ v.course.sp = u.course.sp) ∧
      (u.progInstr p = .lgOff g → ∃ v, exec (.lgOff t p g) s = .next v ∧ v.rbit (aLg g) 31 = false ∧ v.course.sp = u.course.sp)) ∧
    (∀ code, u.progInstr p = .mark code → ∃ w v : State, exec (.mark t p code) s = .next v ∧
      w = u.positionMark 1 p code ∧ .mark code 1 p u.sp u.time64 ∈ w.sdio.evLog ∧ w.course = u.course ∧ v = w.lookSettle.progNext p))

/-- MODEL. Before anything serves function 1 a packet of the host is lost: only time passes (log entry 12). R498, R500: while a command that later packets
wait behind is in progress, while the reply buffer has no room for the largest reply, while a reset is due or the management core has no clock, a
packet waits behind those that came before it, and changes nothing else. R498, R499, R501, R506, R508: a packet that is malformed, or that a check
refuses, is answered the status of that check with no result; beside the command interface itself, only the event and network registers and the result
records may change. -/
def Obligations.PacketsAreLostWaitOrAreRefused : Prop :=
  (∀ (i : Instr) (h : Hdr) (c : HostCmd) (s : State), hostOf i = some (h, c) → (s.to h.t).mgmt.st = .boot →
    exec i s = .next (s.to h.t)) ∧
  (∀ (i : Instr) (h : Hdr) (c : HostCmd) (s : State), hostOf i = some (h, c) → let u := s.to h.t
    u.mgmt.st ≠ .boot → u.cmdUsed + (packetOf h.tag h.client c).size ≤ 65536 → u.mayTake = false →
    exec i s = .next (u.updSdio (fun x => { x with cmdBuf := x.cmdBuf ++ [packetOf h.tag h.client c] }))) ∧
  (∀ (i : Instr) (h : Hdr) (c : HostCmd) (s : State), hostOf i = some (h, c) → let u := s.to h.t
    let p := packetOf h.tag h.client c
    u.mgmt.st ≠ .boot → u.sdio.cmdBuf = [] → p.size ≤ 65536 → u.mayTake = true →
    (p.bad ≠ 0 → u.received.limited (violClient p) = false →
      ∃ v, exec i s = .next v ∧ Replied u v h c p.bad [] ∧ OnlyIn [.regs, .tn, .sdio] u v) ∧
    (p.bad = 0 → (u.received.limited (violClient p) && !limitFree p.opcode) = true →
      ∃ v, exec i s = .next v ∧ Replied u v h c 0x0209 [] ∧ OnlyIn [.regs, .sdio] u v) ∧
    (p.bad = 0 → (u.received.limited (violClient p) && !limitFree p.opcode) = false → u.received.refusal p ≠ 0 →
      ∃ v, exec i s = .next v ∧ Replied u v h c (u.received.refusal p) [] ∧ OnlyIn [.regs, .tn, .sdio] u v))

/-- R68, R599: a read of a register with snapshot partners answers its value and captures each partner's; a read of a captured register answers the
captured value and consumes it. -/
def Obligations.SnapshotsAreTakenAndConsumed : Prop :=
  ∀ (h : Hdr) (addr : Word) (s : State), let u := s.atHost h
    let a := canonAddr addr.toNat
    Carried s h (.regRead addr 1) → addrOk addr.toNat = true → u.addrLacks addr.toNat = false →
    (u.snaps.find? (fun p => p.1 == a) = none → absentReg u.part addr.toNat = false → arrIdx a 0xC0204 0x10 4 = none →
      ∃ v, exec (.snapshotRead h addr) s = .next v ∧ Replied s v h (.regRead addr 1) 0 (leBytes 4 (u.liveReg addr.toNat).toNat) ∧
        ∀ q ∈ snapPartners a, (v.snaps.find? (fun p => p.1 == q)).map (·.2) = some (u.liveReg q)) ∧
    (∀ q w, u.snaps.find? (fun p => p.1 == a) = some (q, w) →
      ∃ v, exec (.snapshotConsume h addr) s = .next v ∧ Replied s v h (.regRead addr 1) 0 (leBytes 4 w.toNat) ∧
        v.snaps.find? (fun p => p.1 == a) = none)

/-- R41, R46, R49: CLEAR_FAULT of a counter whose input is FAULTED and free of LOS clears the input; a counter that is in use takes the present SP, from
which the offset and the reference of the cross-check are set, and position is found again. SP itself keeps its value. R46: RESYNC returns the source
to A and loads both counters with the present SP; while either counter is FAULTED it changes nothing of the Course Unit and is answered OK. R50:
LOAD_SP gives SP, both counters and the high-water mark the value of COURSE_SP_LOAD, sets the offset to 0 and the reference of the cross-check to the
new SP, and ends REVERSAL, raising HWM_REGAINED; while a plan runs it is refused and changes nothing. R49: RELOCATE, while the position is lost, gives
SP and every healthy counter the value of COURSE_RELOC, ends the loss, and moves the high-water mark to it where it lies above the frozen SP;
otherwise it changes nothing of the Course Unit. -/
def Obligations.CourseCommandsSetThePosition : Prop :=
  (∀ (h : Hdr) (s : State), let u := s.atHost h
    8 ≤ u.course.enc.length →
    (Written s h 0x10048 3 → (u.encAt u.srcA).faulted = true → (u.encAt u.srcA).los = false →
      ∃ v, exec (.clearFaultA h) s = .next v ∧ (v.encAt u.srcA).faulted = false ∧ v.course.cntA = u.course.sp ∧
        v.course.cntB = u.course.cntB ∧ v.course.offset = u.course.sp - u.course.cntB ∧ v.course.spSync = u.course.sp ∧
        v.course.dr = none ∧ v.course.lost = none ∧ v.course.sp = u.course.sp) ∧
    (Written s h 0x10048 4 → (u.encAt u.srcBEnc).faulted = true → (u.encAt u.srcBEnc).los = false → u.bEn = true →
      ∃ v, exec (.clearFaultB h) s = .next v ∧ (v.encAt u.srcBEnc).faulted = false ∧ v.course.cntB = u.course.sp ∧
        v.course.cntA = u.course.cntA ∧ v.course.offset = u.course.cntA - u.course.sp ∧ v.course.spSync = u.course.sp ∧
        v.course.dr = none ∧ v.course.lost = none ∧ v.course.sp = u.course.sp) ∧
    (Written s h 0x10048 4 → (u.encAt u.srcBEnc).faulted = true → (u.encAt u.srcBEnc).los = false → u.bEn = false →
      ∃ v, exec (.clearFaultB h) s = .next v ∧ (v.encAt u.srcBEnc).faulted = false ∧ v.course.cntA = u.course.cntA ∧
        v.course.cntB = u.course.cntB ∧ v.course.offset = u.course.offset ∧ v.course.spSync = u.course.spSync ∧
        v.course.sp = u.course.sp)) ∧
  (∀ (h : Hdr) (s : State), let u := s.atHost h
    Written s h 0x10048 2 →
    (u.faultA = false → u.faultB = false →
      ∃ v, exec (.resync h) s = .next v ∧ v.course.cntA = u.course.sp ∧ v.course.cntB = u.course.sp ∧ v.course.offset = 0 ∧
        v.course.spSync = u.course.sp ∧ v.course.srcB = false ∧ v.course.sp = u.course.sp ∧
        Replied s v h (.regWrite [(wordOf 0x10048, wordOf 2)]) 0 (leBytes 4 1)) ∧
    (u.faultA = true ∨ u.faultB = true →
      ∃ v, exec (.resync h) s = .next v ∧ v.course = u.course ∧
        Replied s v h (.regWrite [(wordOf 0x10048, wordOf 2)]) 0 (leBytes 4 1))) ∧
  (∀ (h : Hdr) (s : State), let u := s.atHost h
    let x := u.rint64 0x10040 * umFine
    Written s h 0x10048 1 →
    (u.planRuns = false →
      ∃ v, exec (.loadSp h) s = .next v ∧ v.course.sp = x ∧ v.course.cntA = x ∧ v.course.cntB = x ∧ v.course.hwm = x ∧
        v.course.offset = 0 ∧ v.course.spSync = x ∧ v.course.reversal = false ∧
        (u.course.reversal = true → v.rbit evCourse 5 = true)) ∧
    (u.planRuns = true →
      ∃ v, exec (.loadSp h) s = .next v ∧ v.course = u.course ∧
        Replied s v h (.regWrite [(wordOf 0x10048, wordOf 1)]) 0x0201 (leBytes 4 0))) ∧
  (∀ (h : Hdr) (s : State), let u := s.atHost h
    let x := u.rint64 0x1004C
    Written s h 0x10048 5 →
    (∀ l, u.course.lost = some l →
      ∃ v, exec (.relocate h) s = .next v ∧ v.course.sp = x * umFine ∧ v.course.lost = none ∧
        v.course.cntA = (if u.faultA then u.course.cntA else x * umFine) ∧
        v.course.cntB = (if u.bEn = true ∧ u.faultB = false then x * umFine else u.course.cntB) ∧
        v.course.hwm = (if Int.fdiv l.frozen umFine < x then x * umFine else u.course.hwm)) ∧
    (u.course.lost = none → ∃ v, exec (.relocate h) s = .next v ∧ v.course = u.course))

/-- R51, R63, R68: COIL_MARK enters a position mark with SP and the time into the event log and leaves SP as it is; a write of COURSE_PROG_EN starts the
programs whose bit goes from 0 to 1 in the state of R64, disables those whose bit is 0, and leaves those that run on; a load of a program that is not
enabled gives it its text, one of an enabled program is refused and keeps the old. -/
def Obligations.CoilMarksAndProgramEnables : Prop :=
  ∀ (h : Hdr) (s : State), let u := s.atHost h
    (Written s h 0x10048 6 → ∃ v, exec (.coilMark h) s = .next v ∧ v.course = u.course ∧
      (u.bond.graphs = [] → .mark 0 0 255 u.sp u.time64 ∈ v.sdio.evLog)) ∧
    (∀ (half : Nat) (value : Word), half < 2 → 64 ≤ u.course.prog.length → Written s h (0x10800 + 4 * half) value.toNat →
      ∃ v, exec (.progEnWrite h half value) s = .next v ∧ ∀ i, i < 32 →
        v.progOn (32 * half + i) = wbit value i ∧
        v.progAt (32 * half + i) =
          (if wbit value i = true ∧ u.progOn (32 * half + i) = false then
            { text := (u.progAt (32 * half + i)).text, pc := 0, anchor := u.sp, cnt := [0#32, 0#32, 0#32, 0#32], wait := none, icount := 0,
              due := u.now }
          else if wbit value i = false ∧ u.progOn (32 * half + i) = true then
            { u.progAt (32 * half + i) with wait := none, icount := 0 }
          else u.progAt (32 * half + i))) ∧
    (∀ (prog : Nat) (text : List Nat), prog < u.course.prog.length → Carried s h (.courseProgLoad prog text) →
      (u.progOn prog = false → ∃ v, exec (.courseProgLoad h prog text) s = .next v ∧
        v.progAt prog = { u.progAt prog with text := text, pc := 0, wait := none, icount := 0 } ∧
        Replied s v h (.courseProgLoad prog text) 0 []) ∧
      (u.progOn prog = true → ∃ v, exec (.courseProgLoad h prog text) s = .next v ∧ v.progAt prog = u.progAt prog ∧
        Replied s v h (.courseProgLoad prog text) 0x0401 []))

/-- R73, R76: a group in discovery comes UP with at most the speed and the lanes it is allowed, and GROUP_UP is raised, or it ends FAILED; tile sets that
waited for it alone are then released (`releaseCheck`). A group DOWN or FAILED that AUTO_REDISC tries again is in discovery. R77, R78: a group that
was UP goes DOWN, GROUP_DOWN is raised, and its stamps are retired (`groupRetire`); an assertion of a group's fault input drops its power enable, sets
PWR_FAULT, raises the event and takes the group down (`groupDown`), one that lasts raises nothing more; the fault input's release leaves PWR_FAULT
set. R72, R88, R104: ACQ_START with EN clear sets EN and the pipeline runs, unless the ALONG_OFS of a channel lie too far apart; ACQ_STOP with EN set clears it: the pipeline stops, and no contribution, tile
in formation or stamp is left. -/
def Obligations.GroupsComeUpAndGoDown : Prop :=
  (∀ (t g speed lanes : Nat) (s : State), let u := s.to t
    g < 8 → g < u.acq.grp.length →
    ((u.grpAt g).st = .discovering →
      (∃ w : State, exec (.groupUp t g speed lanes) s = .next w.releaseCheck ∧ (w.grpAt g).st = .up ∧
        (w.grpAt g).speed = min speed (min (u.rfld (aGrp g) 30 28) 6) ∧
        (w.grpAt g).lanes = min (max lanes 1) (u.rfld (aGrp g) 27 26 + 1) ∧ (w.grpAt g).stamps = (u.grpAt g).stamps ∧
        w.rbit evAcq 14 = true ∧ OnlyIn [.acq, .regs, .tn, .sdio] u w) ∧
      ∃ w : State, exec (.groupFailed t g) s = .next w.releaseCheck ∧ (w.grpAt g).st = .failed ∧ OnlyIn [.acq] u w) ∧
    (u.rbit 0x20000 1 = true → u.grpOn g = true → (u.grpAt g).st = .down ∨ (u.grpAt g).st = .failed →
      (u.grpAt g).since + (if (u.grpAt g).retry then 500000000 else 500000) ≤ u.now → u.grpCfgErr g = false →
      ∃ v, exec (.rediscovery t g) s = .next v ∧ (v.grpAt g).st = .discovering ∧ (v.grpAt g).since = u.now ∧
        (v.grpAt g).retry = true ∧ (v.grpAt g).stamps = (u.grpAt g).stamps ∧ OnlyIn [.acq] u v)) ∧
  (∀ (t g : Nat) (s : State), let u := s.to t
    g < 8 → g < u.acq.grp.length →
    ((u.grpAt g).st = .up →
      ∃ w : State, exec (.groupDown t g) s = .next (w.groupRetire g) ∧ (w.grpAt g).st = .down ∧ (w.grpAt g).since = u.now ∧
        (w.grpAt g).stamps = (u.grpAt g).stamps ∧ w.rbit evAcq 13 = true) ∧
    ((u.grpAt g).st ≠ .up → exec (.groupDown t g) s = .next u) ∧
    (g < u.nGrp → (u.grpAt g).flt = false →
      ∃ w : State, exec (.pcxFault t g) s = .next (w.groupDown g [.up, .discovering, .failed]) ∧ (w.grpAt g).flt = true ∧ (w.grpAt g).pwrFault = true ∧
        (w.grpAt g).pcxEn = false ∧ (w.grpAt g).st = (u.grpAt g).st ∧ w.rbit evAcq 12 = true) ∧
    ((u.grpAt g).flt = true → exec (.pcxFault t g) s = .next u) ∧
    ∃ v, exec (.pcxFaultRelease t g) s = .next v ∧ v = u.updGrp g (fun x => { x with flt := false })) ∧
  (∀ (h : Hdr) (s : State), let u := s.atHost h
    u.addrLacks 0x20000 = false → u.restarting = false → u.planRuns = false →
    (Carried s h (.regModify 0x20000#32 1#32 1#32) → u.rbit 0x20000 0 = false →
      ∃ v, exec (.acqStart h) s = .next v ∧ v.acq.running = !u.alongErr ∧ v.rbit 0x20000 0 = true) ∧
    (Carried s h (.regModify 0x20000#32 1#32 0#32) → u.rbit 0x20000 0 = true →
      ∃ v, exec (.acqStop h) s = .next v ∧ v.acq.running = false ∧ v.acq.contribs = [] ∧ v.acq.tiles = [] ∧
        v.rbit 0x20000 0 = false))

/-- R78, R79: the packets of a group that is UP. While the pipeline runs a line goes to pairing (`cxpLine`), unless TEST_LINE_DELAY holds it; while it
does not, a line only counts where it is a violation. An image header in its place and of LPI lines sets the source tag that is expected next and the
lines still to come, whatever tag it bears but for one behind the expected one, whose lines are to be dropped; any other header is dropped, and the
lines of its image are marked CORRUPT (which image that is, and how many lines it has, is log entry 25's reading). An event is logged. The
acknowledgement of the transaction in progress ends it and answers the command that waits. Anything else, and a header, event or acknowledgement whose
CRC is wrong, only advances PKT_ERR and raises its event. A group that is not UP receives nothing. R500, R513: a register transaction with a camera of
a group that is UP and free takes the group's control channel and waits for the camera under a tag of its own; one whose camera has not answered within
100 ms ends LATE_CAMERA and frees the channel. R86, R515: a load of coefficients or of a map that is not longer than the group's line becomes the
inbound transfer, of 4 or of 8 bytes for each entry. -/
def Obligations.CameraPacketsAndTransactionsAreChecked : Prop :=
  (∀ (t g : Nat) (pkt : CxpPkt) (s : State), let u := s.to t
    u.grpOn g = false ∨ u.grpUp g = false → exec (.cxpPacket t g pkt) s = .next u) ∧
  (∀ (t g : Nat) (pkt : CxpPkt) (s : State), let u := s.to t
    let held : Prop := wbit (u.regGet 0xF0038) g = true ∧ u.rfld 0xF0038 31 16 ≠ 0
    let lpi := u.rfld (aGrp g) 23 16 + 1
    g < 8 → g < u.acq.grp.length → u.grpOn g = true → u.grpUp g = true →
    (∀ bytes, pkt.body = .line bytes →
      (u.acq.running = true → ¬held → exec (.cxpPacket t g pkt) s = .next (u.cxpLine g pkt.crcOk bytes)) ∧
      (u.acq.running = true → held →
        ∃ v, exec (.cxpPacket t g pkt) s = .next v ∧ v.acq.heldLines = u.acq.heldLines ++ [(g, pkt.crcOk, bytes, u.now)] ∧ OnlyIn [.acq] u v) ∧
      (u.acq.running = false → pkt.crcOk = true → bytes.length = u.lineBytes g → exec (.cxpPacket t g pkt) s = .next u) ∧
      (u.acq.running = false → pkt.crcOk = false ∨ bytes.length ≠ u.lineBytes g → exec (.cxpPacket t g pkt) s = .next (u.pktErr g))) ∧
    (∀ tag lines, pkt.body = .header tag lines → pkt.crcOk = true →
      (u.acq.running = false → exec (.cxpPacket t g pkt) s = .next u) ∧
      (u.acq.running = true → (u.grpAt g).left = 0 → lines = lpi → (∀ e, (u.grpAt g).expTag = some e → e = tag % 65536) → tag < 65536 →
        ∃ v, exec (.cxpPacket t g pkt) s = .next v ∧ (v.grpAt g).expTag = some ((tag + 1) % 65536) ∧ (v.grpAt g).left = lpi ∧
          (v.grpAt g).badImg = false ∧ (v.grpAt g).dropImg = false ∧ (v.grpAt g).stamps = (u.grpAt g).stamps ∧
          v.regGet (aGrp g + 56) = wordOf tag ∧ OnlyIn [.regs, .acq] u v) ∧
      (∀ e, u.acq.running = true → (u.grpAt g).left = 0 → lines = lpi → (u.grpAt g).expTag = some e → tag < 65536 → e < 65536 →
        32768 ≤ (tag + 65536 - e) % 65536 →
        ∃ v, exec (.cxpPacket t g pkt) s = .next v ∧ (v.grpAt g).left = lpi ∧ (v.grpAt g).dropImg = true ∧
          (v.grpAt g).stamps = (u.grpAt g).stamps ∧ v.regGet (aGrp g + 32) = u.regGet (aGrp g + 32) + 1#32) ∧
      (u.acq.running = true → (u.grpAt g).left ≠ 0 ∨ lines ≠ lpi →
        ∃ v, exec (.cxpPacket t g pkt) s = .next v ∧ v.regGet (aGrp g + 32) = u.regGet (aGrp g + 32) + 1#32 ∧ v.rbit evAcq 11 = true ∧
          (v.grpAt g).badImg = true ∧ (v.grpAt g).dropImg = false ∧ (v.grpAt g).stamps = (u.grpAt g).stamps ∧ (v.grpAt g).left = lines ∧
          OnlyIn [.regs, .tn, .acq, .sdio] u v)) ∧
    (∀ bytes, pkt.body = .event bytes → pkt.crcOk = true →
      ∃ v, exec (.cxpPacket t g pkt) s = .next v ∧ .camera g bytes u.time64 ∈ v.sdio.evLog ∧ OnlyIn [.sdio] u v) ∧
    (∀ tag bytes, pkt.body = .ack tag bytes → pkt.crcOk = true → (u.grpAt g).ctrl = some tag →
      ∃ v, exec (.cxpPacket t g pkt) s = .next v ∧ (v.grpAt g).ctrl = none ∧ v.regs = u.regs ∧ OnlyIn [.acq, .sdio] u v ∧
        (∀ d addr len, u.sdio.deferred = [d] → d.pkt.cmd = .cxpRegRead g addr len → u.mgmt.resetAt = none →
          v.sdio.deferred = [] ∧ v.sdio.replies = u.sdio.replies ++
            [{ status := 0, tag := d.pkt.tag, client := d.pkt.client, opcode := d.pkt.opcode, bytes := bytes.take len }])) ∧
    ((pkt.crcOk = false ∧ (∀ bytes, pkt.body ≠ .line bytes)) ∨ pkt.body = .unknown ∨
        (∃ tag bytes, pkt.body = .ack tag bytes ∧ (u.grpAt g).ctrl ≠ some tag) →
      ∃ v, exec (.cxpPacket t g pkt) s = .next v ∧ v.regGet (aGrp g + 32) = u.regGet (aGrp g + 32) + 1#32 ∧
        v.rbit evAcq 11 = true ∧ OnlyIn [.regs, .tn, .sdio] u v)) ∧
  (∀ (h : Hdr) (g addr : Nat) (s : State), let u := s.atHost h
    g < u.nGrp → g < u.acq.grp.length → u.deferredCnt < 8 → u.grpUp g = true → (u.grpAt g).ctrl = none →
    (∀ len, 0 < len → Carried s h (.cxpRegRead g addr len) →
      ∃ v, exec (.cxpRegRead h g addr len) s = .next v ∧ (v.grpAt g).ctrl = some (u.grpAt g).ctrlTag ∧ v.sdio.replies = u.sdio.replies ∧
        v.sdio.deferred = u.sdio.deferred ++ [{ pkt := packetOf h.tag h.client (.cxpRegRead g addr len), at_ := u.now }]) ∧
    (∀ bytes, 0 < bytes.length → Carried s h (.cxpRegWrite g addr bytes) →
      ∃ v, exec (.cxpRegWrite h g addr bytes) s = .next v ∧ (v.grpAt g).ctrl = some (u.grpAt g).ctrlTag ∧ v.sdio.replies = u.sdio.replies ∧
        v.sdio.deferred = u.sdio.deferred ++ [{ pkt := packetOf h.tag h.client (.cxpRegWrite g addr bytes), at_ := u.now }])) ∧
  (∀ (t client tag g : Nat) (d : Deferred) (s : State), let u := s.to t
    g < u.nGrp → g < u.acq.grp.length → u.sdio.deferred = [d] → d.pkt.client = client → d.pkt.tag = tag → d.at_ + 50000000 ≤ u.now →
    u.mgmt.resetAt = none → (∃ addr len, d.pkt.cmd = .cxpRegRead g addr len) ∨ (∃ addr bytes, d.pkt.cmd = .cxpRegWrite g addr bytes) →
    ∃ v, exec (.lateCamera t client tag) s = .next v ∧ v.sdio.deferred = [] ∧ (v.grpAt g).ctrl = none ∧ OnlyIn [.acq, .sdio] u v ∧
      v.sdio.replies = u.sdio.replies ++ [{ status := 0x0405, tag := tag, client := client, opcode := d.pkt.opcode, bytes := [] }]) ∧
  (∀ (h : Hdr) (g n : Nat) (s : State), let u := s.atHost h
    g < u.nGrp → 0 < n → n ≤ u.linePixels g → u.deferredCnt < 8 → u.sdio.inAct = none → u.sdio.inQ = [] →
    (∀ phase, Carried s h (.flatLoad g phase n) →
      ∃ v, exec (.flatLoad h g phase n) s = .next v ∧ v.sdio.replies = u.sdio.replies ∧ v.sdio.inQ = [] ∧ OnlyIn [.regs, .sdio] (s.to h.t) v ∧
        v.sdio.inAct = some { d := { pkt := packetOf h.tag h.client (.flatLoad g phase n), at_ := u.now }, len := n * 4, at_ := u.now }) ∧
    (Carried s h (.projLoad g n) →
      ∃ v, exec (.projLoad h g n) s = .next v ∧ v.sdio.replies = u.sdio.replies ∧ v.sdio.inQ = [] ∧ OnlyIn [.regs, .sdio] (s.to h.t) v ∧
        v.sdio.inAct = some { d := { pkt := packetOf h.tag h.client (.projLoad g n), at_ := u.now }, len := n * 8, at_ := u.now }))

/-- R80: a line that finds no stamp is EXTRA: it is dropped, the EXTRA count advances and its event is raised; one that finds stamps takes the oldest.
R81, R80: a stamp that has waited LINE_TMO is retired as MISSING (`retire`), one that has not stays. Lines and records that a test register held back
go on when their time is up, in their order (R583). -/
def Obligations.LinesArePairedWithStamps : Prop :=
  (∀ (g : Nat) (pix : List Byte) (corrupt : Bool) (s : State), g < 8 → g < s.acq.grp.length →
    ((s.grpAt g).stamps = [] →
      (s.lineIn g pix corrupt).rfld (aGrp g + 40) 15 0 = satAdd 16 (s.rfld (aGrp g + 40) 15 0) 1 ∧
        (s.lineIn g pix corrupt).rbit evAcq 9 = true ∧ OnlyIn [.regs, .tn, .sdio] s (s.lineIn g pix corrupt)) ∧
    (∀ st l, (s.grpAt g).stamps = st :: l → s.phChan g st.phase = none →
      ((s.lineIn g pix corrupt).grpAt g).stamps = l)) ∧
  (∀ (t g : Nat) (s : State), let u := s.to t
    (∀ st l, (u.grpAt g).stamps = st :: l →
      (st.issued + 500 * (u.regGet (aGrp g + 16)).toNat ≤ u.now → exec (.stampTimeout t g) s = .next (u.retire g 1)) ∧
      (u.now < st.issued + 500 * (u.regGet (aGrp g + 16)).toNat → exec (.stampTimeout t g) s = .next u)) ∧
    (∀ k ok pix at_ l, u.acq.heldLines = (k, ok, pix, at_) :: l →
      at_ + (if wbit (u.regGet 0xF0038) k then 500 * fld (u.regGet 0xF0038) 31 16 else 0) ≤ u.now →
      ∃ w : State, exec (.heldLineRelease t) s = .next (w.cxpLine k ok pix) ∧ w.acq.heldLines = l ∧ OnlyIn [.acq] u w) ∧
    (∀ n x placed at_ l, u.acq.heldRecs = (n, x, placed, at_) :: l →
      at_ + (if wbit (u.regGet (0xF0040 + 4 * (n / 32))) (n % 32) then 500 * u.rfld 0xF003C 23 0 else 0) ≤ u.now →
      ∃ w : State, exec (.heldRecordRelease t) s = .next (w.sensorTake n x placed) ∧ w.acq.heldRecs = l ∧ OnlyIn [.acq] u w))

/-- R97, R487: a sensor datagram on a port that is up is counted; one that names no source in use only advances the count of unknown records, and one of
another length, version or CRC advances its source's BAD count. R97 to R99: a record that is as it should be becomes the latest value of its source,
with its values, its measurement time brought to LOCAL and its place on the strip, unless the source has a later one, which then stays; one of no
values only sets the sequence number of its source; one that TEST_SENSOR_DELAY holds back waits (R583). -/
def Obligations.SensorRecordsAreChecked : Prop :=
  (∀ (t port : Nat) (bytes : List Byte) (s : State), let u := s.to t
    let n := leAt bytes 1 1
    port < 4 → u.portUp port = true → u.mgmt.pow ≠ .hold →
    (u.srcOn n = false →
      ∃ v, exec (.sensorRecord t port bytes) s = .next v ∧ v.regGet (aPort port + 40) = u.regGet (aPort port + 40) + 1#32 ∧
        v.regGet 0x2002C = u.regGet 0x2002C + 1#32 ∧ OnlyIn [.regs] u v) ∧
    (u.srcOn n = true → leAt bytes 0 1 ≠ 1 ∨ bytes.length ≠ 32 + 4 * leAt bytes 2 2 ∨
        crc32c (bytes.take (bytes.length - 4)) ≠ leAt bytes (bytes.length - 4) 4 →
      ∃ v, exec (.sensorRecord t port bytes) s = .next v ∧ v.regGet (aSrc n + 28) = u.regGet (aSrc n + 28) + 1#32 ∧
        v.rbit evAcq 2 = true ∧ v.acq = u.acq)) ∧
  (∀ (t port : Nat) (bytes : List Byte) (s : State), let u := s.to t
    let n := leAt bytes 1 1
    let nv := leAt bytes 2 2
    let vals := (List.range nv).map (fun i => wordOf (leAt bytes (28 + 4 * i) 4))
    let time : Int := (u.local : Int) - ((u.clkSel (1 + u.rfld (aSrc n) 28 28) : Int) -
      (((leAt bytes 8 8 % 2 ^ 48) * 1000000000 + leAt bytes 16 4) * 2 ^ 32 : Nat))
    let held : Prop := wbit (u.regGet (0xF0040 + 4 * (n / 32))) (n % 32) = true ∧ u.rfld 0xF003C 23 0 ≠ 0
    let sp := spAtTime time (((u.local : Int), u.course.sp) :: u.course.hist.map (fun k => ((k.time : Int), k.sp)))
    port < 4 → u.portUp port = true → u.mgmt.pow ≠ .hold → n < u.acq.src.length → u.srcOn n = true →
    leAt bytes 0 1 = 1 → bytes.length = 32 + 4 * nv → crc32c (bytes.take (bytes.length - 4)) = leAt bytes (bytes.length - 4) 4 →
    leAt bytes 16 4 < 1000000000 → (if u.rbit (aSrc n) 26 then nv ≤ 256 ∧ leAt bytes 24 4 ≠ 0 else nv ≤ 16) →
    (nv = 0 →
      ∃ v, exec (.sensorRecord t port bytes) s = .next v ∧ (v.srcAt n).seq = some (leAt bytes 4 2) ∧ (v.srcAt n).val = (u.srcAt n).val) ∧
    (0 < nv → time ≤ (u.local : Int) + 1000000 * 2 ^ 32 → (∀ w ∈ vals, fld w 30 23 ≠ 255) →
      (¬held → ∃ (v : State) (x : SrcVal), exec (.sensorRecord t port bytes) s = .next v ∧ (v.srcAt n).seq = some (leAt bytes 4 2) ∧
        x.time = time ∧ x.vals = vals ∧ (∀ p, sp = some p → x.y = Int.fdiv p umFine + u.rint (aSrc n + 4)) ∧
        (v.srcAt n).val = (match (u.srcAt n).val with
          | some o => if time < o.time then some o else some x
          | none => some x)) ∧
      (held → ∃ (v : State) (x : SrcVal), exec (.sensorRecord t port bytes) s = .next v ∧ x.time = time ∧ x.vals = vals ∧
        (v.srcAt n).val = (u.srcAt n).val ∧ v.acq.heldRecs = u.acq.heldRecs ++ [(n, x, sp.isSome, u.now)])))

/-- R467, R471: a PTP message on a port that is up is counted; one of no tracked domain is dropped and counted, one of another version, length or
timestamp is discarded and counted for its domain; any other reaches its domain. R466 to R468, R470: the messages that reach a domain. The first
Announce selects the master; a Sync of the master is completed by itself, or kept for its Follow_Up, which completes it; a Sync of another port is
counted and discarded. R466, R472: the answers to a domain's own delay request give the mean path delay, end to end or peer to peer as DELAY_MECH
says; a peer's request is answered with its receive time, in one message or two. R468 to R470: sixteen Sync intervals without a Sync bring a domain to
HOLDOVER, and where AUTO_SWITCH is set the other domain, if it is LOCKED, becomes the primary; a domain sends delay requests to its master, and while
LOCKED forwards Announce and Sync on its other ports. -/
def Obligations.ClockDomainsFollowTheirMasters : Prop :=
  (∀ (m : PtpMsg) (s : State), m.port < 4 →
    (s.portUp m.port = false → s.ptpIn m = (s, none)) ∧
    (s.portUp m.port = true →
      ((∀ d, d < 2 → s.domOn d m.port = true → s.rfld (aDom d) 23 16 ≠ m.domain) →
        ∃ w : State, s.ptpIn m = (w, none) ∧ w.regGet (aPort m.port + 40) = s.regGet (aPort m.port + 40) + 1#32 ∧
          w.regGet (aPort m.port + 48) = s.regGet (aPort m.port + 48) + 1#32 ∧ OnlyIn [.regs] s w) ∧
      (∀ d, d < 2 → s.domOn d m.port = true → s.rfld (aDom d) 23 16 = m.domain →
        (∀ e, e < d → s.domOn e m.port = true → s.rfld (aDom e) 23 16 ≠ m.domain) →
        (m.version ≠ 2 ∨ m.lenOk = false ∨ 1000000000 ≤ m.ns →
          ∃ w : State, s.ptpIn m = (w, none) ∧ w.rfld (aDom d + 36) 31 16 = satAdd 16 (s.rfld (aDom d + 36) 31 16) 1 ∧
            OnlyIn [.regs] s w) ∧
        (m.version = 2 → m.lenOk = true → m.ns < 1000000000 →
          ∃ w : State, s.ptpIn m = (w, some d) ∧ w = s.bump (aPort m.port + 40))))) ∧
  (∀ (t d : Nat) (m : PtpMsg) (s w : State), (s.to t).ptpIn m = (w, some d) → d < w.tn.dom.length → d < 2 →
    ((w.domAt d).master = none →
      ∃ v, exec (.announce t m) s = .next v ∧ (v.domAt d).master = some (m.src, m.port) ∧ (v.domAt d).gm = m.gm ∧
        OnlyIn [.tn] w v) ∧
    (w.fromMaster d m = true →
      (∃ v, exec (.announce t m) s = .next v ∧ (v.domAt d).gm = m.gm ∧ (v.domAt d).master = (w.domAt d).master ∧ OnlyIn [.tn] w v) ∧
      (m.twoStep = true → ∃ v, exec (.sync t m) s = .next v ∧ (v.domAt d).pendSync =
        some { seq := m.seq, port := m.port, src := m.src, rx := w.ptpRx d m, at_ := w.now, corr := ptpCorr m } ∧ OnlyIn [.tn] w v) ∧
      (m.twoStep = false → ∃ v, exec (.sync t m) s = .next v ∧
        (v.domAt d).ms = (w.ptpRx d m : Int) - ((ptpTime m : Int) + ptpCorr m))) ∧
    (w.fromMaster d m = false → ∃ v, exec (.sync t m) s = .next v ∧
      v.rfld (aDom d + 36) 31 16 = satAdd 16 (w.rfld (aDom d + 36) 31 16) 1 ∧ OnlyIn [.regs] w v) ∧
    (∀ p, ptpMatch (w.domAt d).pendSync m w.now = some p →
      ∃ v, exec (.followUp t m) s = .next v ∧ (v.domAt d).pendSync = none ∧
        (v.domAt d).ms = (p.rx : Int) - ((ptpTime m : Int) + ptpCorr m + p.corr))) ∧
  (∀ (t d : Nat) (m : PtpMsg) (s w : State), (s.to t).ptpIn m = (w, some d) → d < w.tn.dom.length → d < 2 →
    (∀ tx, (w.domAt d).reqTx = some tx → (w.domAt d).reqSeq = m.seq →
      (w.rbit (aDom d) 29 = false → ∃ v, exec (.delayResp t m) s = .next v ∧ (v.domAt d).reqTx = none ∧
        (v.domAt d).delay = Int.fdiv ((w.domAt d).ms + ((ptpTime m : Int) - ptpCorr m - tx)) 2 ∧ OnlyIn [.tn] w v) ∧
      (w.rbit (aDom d) 29 = true → m.twoStep = false → ∃ v, exec (.pdelayResp t m) s = .next v ∧ (v.domAt d).reqTx = none ∧
        (v.domAt d).delay = Int.fdiv ((w.ptpRx d m : Int) - tx - ptpCorr m) 2 ∧ OnlyIn [.tn] w v) ∧
      (w.rbit (aDom d) 29 = true → m.twoStep = true → ∃ v, exec (.pdelayResp t m) s = .next v ∧ (v.domAt d).pendPdelay =
        some { seq := m.seq, port := m.port, src := m.src, rx := w.ptpRx d m, at_ := w.now, corr := ptpCorr m - (ptpTime m : Int) } ∧
        OnlyIn [.tn] w v)) ∧
    (∀ p tx, ptpMatch (w.domAt d).pendPdelay m w.now = some p → (w.domAt d).reqTx = some tx →
      ∃ v, exec (.pdelayRespFollowUp t m) s = .next v ∧ (v.domAt d).reqTx = none ∧ (v.domAt d).pendPdelay = none ∧
        (v.domAt d).delay = Int.fdiv ((p.rx : Int) - tx - ((ptpTime m : Int) + ptpCorr m + p.corr)) 2 ∧ OnlyIn [.tn] w v) ∧
    (w.portSends m.port = true → ∃ v, exec (.pdelayReq t m) s = .next v ∧
      (m.port, .ptp d 3 m.seq (w.ptpRx d m)) ∈ v.tn.wire ∧
      (w.rbit (aDom d) 28 = false →
        v.tn.wire.head? = some (m.port, .ptp d 10 m.seq (clkAt (w.domAt d).clk w.now + w.portLat m.port 0x20))))) ∧
  (∀ (t d : Nat) (s : State), let u := s.to t
    d < 2 → 2 ≤ u.tn.dom.length →
    ((u.domAt d).st = .acquiring ∨ (u.domAt d).st = .locked → (u.domAt d).lastSync + 16 * u.syncTicks d ≤ u.now →
      ∃ v, exec (.domainHoldover t d) s = .next v ∧ (v.domAt d).st = .holdover ∧ (v.domAt d).master = none ∧
        v.rbit evTime 4 = true ∧
        (u.rbit 0xC0000 2 = true → u.tn.primary = decide (d = 1) → (u.domAt (1 - d)).st = .locked →
          v.tn.primary = decide (d = 0) ∧ v.rbit evTime 3 = true)) ∧
    (∀ src port, (u.domAt d).master = some (src, port) → u.domOn d port = true → u.portSends port = true →
      ∃ v, exec (.delayReq t d) s = .next v ∧ (v.domAt d).reqSeq = ((u.domAt d).reqSeq + 1) % 65536 ∧
        (v.domAt d).reqTx = some (clkAt (u.domAt d).clk u.now + u.portLat port 0x20) ∧
        v.tn.wire.head? = some (port, .ptp d (if u.rbit (aDom d) 29 then 2 else 1) (((u.domAt d).reqSeq + 1) % 65536)
          (clkAt (u.domAt d).clk u.now + u.portLat port 0x20))) ∧
    (∀ src mp p, (u.domAt d).st = .locked → (u.domAt d).master = some (src, mp) → p < 4 → p ≠ mp → u.domOn d p = true →
      u.portSends p = true →
      ∃ v, exec (.announceInterval t d) s = .next v ∧ (p, .ptp d 11 (u.domAt d).reqSeq (u.domAt d).gm) ∈ v.tn.wire))

/-- R473 to R475: a pulse output that is due starts a pulse of its width, counts it and is due again a period later where it is periodic; the pulse ends
when its width has passed. A capture enters the time of its clock into its FIFO, or is lost, counted and raised when the FIFO is full; a read of it
takes the oldest, or all ones where there is none. R469, R502, R506: SET_LOCAL gives LOCAL the value of SETTIME of its domain one tick later; it is
refused while a plan runs or when the nanoseconds reach a second, and LOCAL runs on. TIME_READ answers LOCAL, both domains and SP. -/
def Obligations.LocalTimePulsesAndCaptures : Prop :=
  (∀ (t n : Nat) (h : Hdr) (s : State), let u := s.to t
    (∀ x, n < 8 → n < u.tn.tpo.length → (u.tpoAt n).next = some x → u.rbit (aTpo n) 31 = true → u.tpoCfgErr n = false →
      (u.regGet (aTpo n + 16)).toNat ≠ 0 → x ≤ u.selNs (u.rfld (aTpo n) 29 28) →
      ∃ v, exec (.tpoPulse t n) s = .next v ∧ (v.tpoAt n).active = true ∧
        (v.tpoAt n).endAt = some (u.now + ((u.regGet (aTpo n + 16)).toNat + 1) / 2) ∧
        (v.tpoAt n).next = (if u.rbit (aTpo n) 30 then some (x + (u.regGet (aTpo n + 12)).toNat) else none) ∧
        v.rfld (aTpo n + 20) 31 16 = (u.rfld (aTpo n + 20) 31 16 + 1) % 65536) ∧
    (∀ e, n < u.tn.tpo.length → (u.tpoAt n).endAt = some e → e ≤ u.now →
      ∃ v, exec (.tpoPulseEnd t n) s = .next v ∧ (v.tpoAt n).active = false ∧ (v.tpoAt n).endAt = none ∧
        (v.tpoAt n).next = (u.tpoAt n).next ∧ v.regs = u.regs) ∧
    (n < 4 → n < u.tn.tcap.length → u.rbit (aCap n) 31 = true → u.mgmt.pow ≠ .standby →
      ((u.tcapAt n).fifo.length < 16 → ∃ v, exec (.timeCapture t n) s = .next v ∧ v.regs = u.regs ∧ (v.tcapAt n).fifo =
        (u.tcapAt n).fifo ++ [(u.clkSel (u.rfld (aCap n) 30 29) / secUnits % 2 ^ 32, u.clkSel (u.rfld (aCap n) 30 29) % secUnits / 2 ^ 32)]) ∧
      (16 ≤ (u.tcapAt n).fifo.length → ∃ v, exec (.timeCapture t n) s = .next v ∧ (v.tcapAt n).fifo = (u.tcapAt n).fifo ∧
        v.rfld (aCap n + 12) 31 16 = satAdd 16 (u.rfld (aCap n + 12) 31 16) 1 ∧ v.rbit evTime 0 = true)) ∧
    (let x := s.atHost h
     let a := 0xC0204 + 0x10 * n
     n < 4 → n < x.tn.tcap.length → Carried s h (.regRead (wordOf a) 1) → x.addrLacks a = false →
       x.snaps.find? (fun p => p.1 == a) = none →
       (∀ sec ns l, (x.tcapAt n).fifo = (sec, ns) :: l →
         ∃ v, exec (.capturePop h n) s = .next v ∧ Replied s v h (.regRead (wordOf a) 1) 0 (leBytes 4 (wordOf sec).toNat) ∧
           (v.tcapAt n).fifo = l ∧ v.snaps.find? (fun p => p.1 == a + 4) = some (a + 4, wordOf ns)) ∧
       ((x.tcapAt n).fifo = [] →
         ∃ v, exec (.capturePop h n) s = .next v ∧ Replied s v h (.regRead (wordOf a) 1) 0 (leBytes 4 0xFFFFFFFF) ∧
           (v.tcapAt n).fifo = []))) ∧
  (∀ (h : Hdr) (s : State), let u := s.atHost h
    (∀ d, d < 2 → Written s h 0xC0010 (d + 1) →
      let ns := (u.regGet (aDom d + 48)).toNat
      let sec := (u.regGet (aDom d + 40)).toNat + 2 ^ 32 * u.rfld (aDom d + 44) 15 0
      let c : Instr := if d = 0 then .setLocalDom0 h else .setLocalDom1 h
      (u.planRuns = false → ns < 1000000000 →
        ∃ v, exec c s = .next v ∧ v.now = u.now + 1 ∧ v.local = (sec * 1000000000 + ns) * 2 ^ 32) ∧
      (u.planRuns = true → ∃ v, exec c s = .next v ∧ v.tn.local_ = u.tn.local_ ∧
        Replied s v h (.regWrite [(wordOf 0xC0010, wordOf (d + 1))]) 0x0201 (leBytes 4 0)) ∧
      (u.planRuns = false → 1000000000 ≤ ns → ∃ v, exec c s = .next v ∧ v.tn.local_ = u.tn.local_ ∧
        Replied s v h (.regWrite [(wordOf 0xC0010, wordOf (d + 1))]) 0x020A (leBytes 4 0))) ∧
    (Carried s h .timeRead → ∃ v, exec (.timeRead h) s = .next v ∧ v.tn = u.tn ∧ v.course = u.course ∧
      Replied s v h .timeRead 0
        (clockBytes (u.clkSel 0) ++ clockBytes (u.clkSel 1) ++ clockBytes (u.clkSel 2) ++ le64 u.sp)) ∧
    (Written s h 0xC0010 3 → ∃ v, exec (.timeClearCounters h) s = .next v ∧ (∀ d, d < 2 → v.regGet (aDom d + 36) = 0#32) ∧
      (∀ n, n < 8 → v.regGet (aTpo n + 20) = 0#32) ∧ (∀ c, c < 4 → v.rfld (aCap c + 12) 31 16 = 0) ∧ v.tn = u.tn) ∧
    (Written s h 0xD0010 1 → ∃ v, exec (.netClearCounters h) s = .next v ∧ v.regGet 0xD0018 = 0#32 ∧ v.regGet 0xD0024 = 0#32 ∧
      (∀ p, p < 4 → v.regGet (aPort p + 40) = 0#32 ∧ v.regGet (aPort p + 44) = 0#32 ∧ v.regGet (aPort p + 48) = 0#32) ∧
      (∀ n, n < 4 → v.regGet (aDst n + 16) = 0#32) ∧ v.tn = u.tn))

/-- R476, R477: a link that changes is up or down with both its locks, and LINK_CHANGE is raised; none comes up without ETHCLK, in STANDBY or before
service. Frames of a port that is up are counted; a PAUSE frame halts or resumes a port that heeds it; when transmission resumes, the PTP frames that
waited leave. R478, R479: ARP and ICMP. A request for the port's address is answered; a reply enters the cache with the time and ends the resolution;
a resolution is tried again each second, at most three times, and then given up; an entry older than 300 s leaves the cache. An echo of up to 1,472
bytes is answered, a longer one dropped and counted. R480, R483, R488: a datagram stream whose records have waited their time sends a datagram, which
takes at least the oldest record and has the next sequence number; with its port down it drops and counts them. A heartbeat is a record of type 7, and
its interval starts anew. A poll takes each die's result ring (`pollRing`): after it the ring's consumer index stands at its producer index. -/
def Obligations.PortsCarryArpIcmpAndRecords : Prop :=
  (∀ (t port : Nat) (up : Bool) (quanta : Nat) (s : State), let u := s.to t
    port < 4 → port < u.tn.port.length →
    (u.hasPort port = true → (u.portAt port).link ≠ up →
      (up = false ∨ (u.mgmt.ethclk = true ∧ u.mgmt.st ≠ .boot ∧ u.mgmt.pow ≠ .standby) →
        ∃ v, exec (.linkChange t port up) s = .next v ∧ (v.portAt port).link = up ∧ (v.portAt port).blockLock = up ∧
          v.rbit aNetEvent 4 = true) ∧
      (up = true → u.mgmt.ethclk = false ∨ u.mgmt.st = .boot ∨ u.mgmt.pow = .standby → exec (.linkChange t port up) s = .next u)) ∧
    (u.portUp port = true →
      (∃ v, exec (.droppedFrame t port) s = .next v ∧ v.regGet (aPort port + 40) = u.regGet (aPort port + 40) + 1#32 ∧
        v.regGet (aPort port + 48) = u.regGet (aPort port + 48) + 1#32 ∧ OnlyIn [.regs] u v) ∧
      ∃ v, exec (.pauseFrame t port quanta) s = .next v ∧ v.regGet (aPort port + 52) = u.regGet (aPort port + 52) + 1#32 ∧
        (v.portAt port).paused = (if u.rbit (aPort port) 28 then decide (quanta ≠ 0) else (u.portAt port).paused)) ∧
    (∃ v, exec (.pauseExpired t port) s = .next v ∧ (v.portAt port).paused = false ∧ (v.portAt port).link = (u.portAt port).link) ∧
    (u.portSends port = true →
      ∃ v, exec (.netStallEnd t port) s = .next v ∧ (v.portAt port).ptpQ = [] ∧
        v.tn.wire = ((u.portAt port).ptpQ.map (fun f => (port, f))).reverse ++ u.tn.wire)) ∧
  (∀ (t port ip mac : Nat) (bytes : List Byte) (s : State), let u := s.to t
    port < 4 → port < u.tn.port.length →
    (u.portSends port = true →
      (∃ v, exec (.arpRequest t port ip mac) s = .next v ∧ v.tn.wire = (port, .arpReply ip mac) :: u.tn.wire) ∧
      ((u.portAt port).icmp = 0 → bytes.length ≤ 1472 →
        ∃ v, exec (.icmpEcho t port ip bytes) s = .next v ∧ v.tn.wire = (port, .icmpReply ip bytes) :: u.tn.wire ∧
          (v.portAt port).icmp = 1)) ∧
    (u.portUp port = true →
      (∃ v, exec (.arpReply t port ip mac) s = .next v ∧ { ip := ip, mac := mac, age := u.now } ∈ (v.portAt port).arp ∧
        (∀ w ∈ (v.portAt port).resolving, w.ip ≠ ip) ∧ v.tn.wire = u.tn.wire) ∧
      (1472 < bytes.length → ∃ v, exec (.icmpEcho t port ip bytes) s = .next v ∧ v.tn = u.tn ∧
        v.regGet (aPort port + 48) = u.regGet (aPort port + 48) + 1#32)) ∧
    (∀ w, (u.portAt port).resolving = [w] → w.ip = ip → w.at_ + 500000000 ≤ u.now →
      (4 ≤ w.tries → ∃ v, exec (.arpRetry t port ip) s = .next v ∧ (v.portAt port).resolving = [] ∧ v.tn.wire = u.tn.wire) ∧
      (w.tries < 4 → u.portSends port = true → ∃ v, exec (.arpRetry t port ip) s = .next v ∧
        (v.portAt port).resolving = [{ w with tries := w.tries + 1, at_ := u.now }] ∧
        v.tn.wire = (port, .arpRequest ip) :: u.tn.wire)) ∧
    (∃ v, exec (.arpAgeOut t port ip) s = .next v ∧ (v.portAt port).arp =
      (u.portAt port).arp.filter (fun e => !(e.ip == ip && decide (e.age + 150000000000 ≤ u.now))) ∧ OnlyIn [.tn] u v)) ∧
  (∀ (t stream : Nat) (s : State), let u := s.to t
    let d := u.dstAt stream
    let us := if u.rfld (aDst stream) 15 0 = 0 then 100 else u.rfld (aDst stream) 15 0
    (stream < 4 → stream < u.tn.dst.length → d.buf ≠ [] → d.first + 500 * us ≤ u.now →
      (u.portSends (u.dstPort stream) = true → fitRecs (u.dstRoom stream) d.buf.length d.buf ≠ [] →
        ∃ v, exec (.datagramFlush t stream) s = .next v ∧ (v.dstAt stream).seq = (d.seq + 1) % 2 ^ 32 ∧
          (v.dstAt stream).buf = d.buf.drop (fitRecs (u.dstRoom stream) d.buf.length d.buf).length ∧
          ∃ bytes, v.tn.wire = (u.dstPort stream, .datagram stream bytes) :: u.tn.wire) ∧
      (u.portUp (u.dstPort stream) = false →
        ∃ w : State, exec (.datagramFlush t stream) s = .next (w.raiseQuiet 0) ∧ (w.dstAt stream).buf = [] ∧
          (w.dstAt stream).lost = satAdd 32 d.lost d.buf.length ∧ OnlyIn [.tn, .regs] u w)) ∧
    (u.rfld 0xD001C 15 0 ≠ 0 → u.mgmt.pow ≠ .standby → u.tn.lastHb + 500000 * u.rfld 0xD001C 15 0 ≤ u.now → 7 < u.tn.tseq.length →
      ∃ v, exec (.heartbeat t) s = .next v ∧ v.tn.lastHb = u.now ∧ lget 0 v.tn.tseq 7 = (lget 0 u.tn.tseq 7 + 1) % 2 ^ 32) ∧
    exec (.resultRingPoll t) s = .next (u.each u.dies State.pollRing) ∧
    (∀ die, die < 4 → wbit (u.regGet (0xD0030 + 4 * die)) 0 = true →
      let base := fld (u.regGet (0xD0030 + 4 * die)) 27 6 * 64
      (u.pollRing die).lin die (base + 4) 4 = u.lin die base 4))

/-- R126, R318, R127: the instructions of a task program, each carried out where the program stands at it: where its word in the core store is that
instruction, and the program has executed fewer than 2²⁴; it then moves on past the instruction, to a jump's target, or waits. Where the program
stands at another instruction nothing changes. A reserved opcode, a jump that goes back, and the 2²⁴ end the task PROG_ERR, a descriptor that is no
descriptor OP_DESC_ERR. Nothing but the task of the slot changes. R131: while the clock changes no task goes on. -/
def Obligations.TaskProgramsRun : Prop :=
  (∀ (t d i : Nat) (s : State) (r : RunTask), let u := s.to t
    let goes (x : RunTask) : Host.Outcome State Fault Refusal := .next (u.updRun d i (fun _ => x))
    let stands (op : Nat) (fs : List InstrField) : Prop := isInstr (u.instrWord d i r) op fs = true
    u.live d i = some r → u.changing = none →
    (opReserved (u.instrWord d i r / 2 ^ 56) = true → exec (.progErr t d i) s = goes { r with out := some .progErr }) ∧
    (2 ^ 24 ≤ r.icount → exec (.taskInstrLimit t d i) s = goes { r with out := some .progErr }) ∧
    (∀ c value, isInstr (u.instrWord d i r) 5 [(41, 40, c), (31, 0, value)] = false → exec (.setl t d i c value) s = .next u) ∧
    (r.icount < 2 ^ 24 →
      (∀ c value, stands 5 [(41, 40, c), (31, 0, value)] → exec (.setl t d i c value) s =
        goes { r with pc := r.pc + 1, icount := r.icount + 1, loops := lmod r.loops c (fun _ => wordOf value) }) ∧
      (∀ c target, stands 6 [(41, 40, c), (9, 0, target)] → exec (.taskDjnz t d i c target) s =
        goes { r with
          pc := if lget 0#32 r.loops c = 1#32 then r.pc + 1 else target, icount := r.icount + 1,
          loops := lmod r.loops c (fun _ => lget 0#32 r.loops c - 1#32) }) ∧
      (∀ target, stands 7 [(9, 0, target)] → r.pc < target →
        exec (.taskJump t d i target) s = goes { r with pc := target, icount := r.icount + 1 }) ∧
      (∀ target, stands 7 [(9, 0, target)] → target ≤ r.pc →
        exec (.taskJump t d i target) s = goes { r with out := some .progErr } ∧
        exec (.progErr t d i) s = goes { r with out := some .progErr }) ∧
      (u.taskIdle d i r = true →
        (stands 4 [] → exec (.barrier t d i) s = goes { r with pc := r.pc + 1, icount := r.icount + 1, racing := [] }) ∧
        (stands 0 [] → exec (.taskEnd t d i) s =
          goes { r with pc := r.pc + 1, icount := r.icount + 1, out := some (if r.work then .ok else .okEmpty) })) ∧
      (u.taskIdle d i r = false → exec (.barrier t d i) s = .next u ∧ exec (.taskEnd t d i) s = .next u) ∧
      (∀ c, stands 3 [(41, 40, c)] →
        (lget none r.chains c = none → u.burstsWait d i = false →
          exec (.waitc t d i c) s =
            goes { r with pc := r.pc + 1, icount := r.icount + 1, racing := r.racing.filter (fun w => w.1 != c) }) ∧
        (lget none r.chains c ≠ none → exec (.waitc t d i c) s = .next u)) ∧
      (∀ c addr, stands 2 [(41, 40, c), (31, 0, addr)] →
        (lget none r.chains c = none → addr % 64 = 0 → addr < 2 ^ 21 →
          exec (.chain t d i c addr) s =
            goes { r with
              pc := r.pc + 1, icount := r.icount + 1, work := true, progress := u.cycles,
              chains := lmod r.chains c (fun _ => some { next := addr, left := 256, start := u.cycles }) }) ∧
        (lget none r.chains c = none → addr % 64 ≠ 0 → exec (.chain t d i c addr) s = goes { r with out := some .opDescErr }) ∧
        (lget none r.chains c ≠ none → exec (.chain t d i c addr) s = .next u)) ∧
      (∀ addr, stands 1 [(31, 0, addr)] → addr < 2 ^ 21 →
        let op := u.cs d i addr 1
        let stream := decide (0x10 ≤ op ∧ op ≤ 0x13)
        (opCodeOk op = true → (stream = true → r.streamAt = none) →
          exec (.oper t d i addr) s =
            goes { r with
              pc := r.pc + 1, icount := r.icount + 1, issued := r.issued ++ [addr],
              streamAt := if stream then some addr else r.streamAt }) ∧
        (opCodeOk op = false ∨ (stream = true ∧ r.streamAt ≠ none) →
          exec (.oper t d i addr) s = goes { r with out := some .opDescErr })))) ∧
  (∀ (t d i addr : Nat) (s : State), (s.to t).changing ≠ none →
    exec (.oper t d i addr) s = .next (s.to t) ∧ exec (.taskEnd t d i) s = .next (s.to t) ∧ exec (.taskComplete t d i) s = .next (s.to t))

/-- R135, R320, R343, R350: an idle slot takes the ready task that heads the order, which starts at the first instruction of its program with its instance
in loop counter 3, or is shed; a client task that waits on its quota raises QUOTA_EXHAUSTED. A task that has its outcome leaves the slot with its end
accounted for, and its instance counts in its graph. R113, R128, R131, R139, R142, R146, R149: the events of the fabric, and its two commands; R21: a
core that runs a task is retired once the task has completed. -/
def Obligations.TasksStartCompleteAndCoresFail : Prop :=
  (∀ (t d i : Nat) (s : State), let u := (s.to t).readyAll
    d < u.die.length →
    (∀ g k x, u.pairWorks d = true → u.slotFree d i = true → u.headFor d i = some (g, k, x) → i < (u.dieAt d).run.length →
      let h := u.taskHdr d x.entry.header
      let y := u.updTask g.id k (fun x => { x with issued := x.issued + 1 })
      let w := if g.client = 15 then y else y.updBond (fun b => { b with lastServed := g.client })
      (w.shedNow d i g k x h = true → exec (.taskDispatch t d i g.id k) s =
        let v := match w.chunkOf d i x.entry.header with
          | some c => (w.chunkPop c.ctx x).chunkLost c
          | none => w
        .next ((((v.bump 0x70048).raise evBond 4).unrun g k x.entry x.issued .shed 0).instanceDone g.id k .shed)) ∧
      (w.shedNow d i g k x h = false → w.chunkOf d i x.entry.header = none →
        ∃ v r, exec (.taskDispatch t d i g.id k) s = .next v ∧ v.runAt d i = some r ∧ r.graph = g.id ∧ r.task = k ∧
          r.inst = x.issued ∧ r.pc = 0 ∧ r.progLen = h.prog ∧ r.loops = [0#32, 0#32, 0#32, wordOf x.issued])) ∧
    (∀ id k g x, u.pairWorks d = true → u.slotFree d i = true → u.headFor d i = none → u.graphOf id = some g → g.client ≠ 15 →
      u.partFor d id k = none → u.rbit (0x70100 + 8 * g.client) 31 = true → u.quotaOk g.client = false → g.tasks[k]? = some x → x.st = .ready → x.issued < x.total →
      exec (.taskDispatch t d i id k) s = .next (u.raise evBond 2))) ∧
  (∀ (t d i : Nat) (s : State) (r : RunTask) (out : TaskOut), let u := s.to t
    u.runAt d i = some r → r.out = some out → u.changing = none →
    let w := u.taskEnds d i (u.carrying d i r) out
    w.runAt d i = none ∧
    (r.part = none → exec (.taskComplete t d i) s = .next (((w.instanceDone r.graph r.task out).streamSettle d).retireIdle d)) ∧
    (∀ p addr k, r.part = some (p, addr, k) →
      exec (.taskComplete t d i) s = .next ((w.partDone d (u.carrying d i r) p addr k out).retireIdle d))) ∧
  (∀ (t d i : Nat) (s : State), let u := s.to t
    (∀ half, u.hasDie d = true → half < 2 → u.pdOn (10 + 2 * d + half) = true →
      ∃ v, exec (.droopEvent t d half) s = .next v ∧ v.regGet (bFabric d + 0x28) = u.regGet (bFabric d + 0x28) + 1#32 ∧
        v.regGet 0xE0034 = u.regGet 0xE0034 + 1#32 ∧ OnlyIn [.regs] u v) ∧
    (∀ r, u.live d i = some r → u.changing = none → exec (.coreHung t d i) s =
      .next (if r.progress + 65536 ≤ u.cycles then u.coreFail d (u.coreOf d i) .hung else u)) ∧
    (∀ p, (u.slotAt d i).spareIn = some p → d < u.die.length → i < (u.dieAt d).slot.length → p < (u.dieAt d).core.length →
      ∃ v, exec (.spareInDone t d i) s = .next v ∧ (v.slotAt d i).core = p ∧ (v.slotAt d i).spareIn = none ∧
        (v.coreAt d p).resVar = u.bond.variant ∧ (u.mt.flips = [] → (v.coreAt d p).reload = false)) ∧
    (∀ graph task g k, u.graphOf graph = some g → u.taskOf graph task = some k → k.cross ≠ [] →
      (u.now < g.released + 500 * u.stageClose g.stage → exec (.shardMissing t graph task) s = .next u) ∧
      (g.released + 500 * u.stageClose g.stage ≤ u.now → exec (.shardMissing t graph task) s =
        .next ((u.updTask graph task (fun k => { k with cross := [], shardMiss := true })).readyRun [(graph, task)]))) ∧
    (∀ f, u.changing = some f →
      ∃ v, exec (.freqChanged t) s = .next v ∧ v.freq = f ∧ v.changing = none ∧ v.power.vddc = f ∧
        ∀ e ∈ u.dies, v.rbit (evFabric e) 2 = true) ∧
    (∀ (h : Hdr) (core : Nat), let x := s.atHost h
      (d < 4 → core < 256 → Written s h (bFabric d + 0x1C) (0x1000000 + core) →
        exec (.retireCore h d core) s =
          .next ((x.retireCore d core).answered h (bFabric d + 0x1C) (0x1000000 + core))) ∧
      (d < 4 → Written s h (bFabric d + 0x1C) 0x2000000 →
        ∃ v, exec (.fabricClearCounters h d) s = .next v ∧ v.regGet (bFabric d + 0x24) = 0#32 ∧ v.regGet (bFabric d + 0x28) = 0#32 ∧
          v.regGet (bFabric d + 0x30) = 0#32 ∧
          (∀ p o, p < 52 → o ∈ [0, 4, 8, 12, 16, 20] → v.regGet (bFabric d + 0x1000 + 0x20 * p + o) = 0#32) ∧ v.die = x.die)) ∧
    (∀ p, p < 52 → (∀ k, (u.coreAt d p).role = .inSlot k → u.runAt d k = none) → u.retireCore d p = u.coreFail d p .retire) ∧
    (∀ p k, p < 52 → (u.coreAt d p).role = .inSlot k → u.runAt d k ≠ none →
      u.retireCore d p = u.updCore d p (fun c => { c with retire := true })) ∧
    (∀ p c, d < u.die.length → p < (u.dieAt d).core.length → (u.dieAt d).core[p]? = some c → (∀ x, c.role ≠ .failed x) →
      ∀ cause, ((u.coreFail d p cause).coreAt d p).role = .failed cause) ∧
    (∀ p cause x, (u.coreAt d p).role = .failed x → u.coreFail d p cause = u))

/-- R319, R117, R177: the vector instructions of registers alone, each where the program stands at it. With nothing draining, each writes its lanes
into vd and nothing into any other register, and the program goes on with work done; while a drain is pending it waits (R115). R319, R163, R171, R176:
RESCALE, CVT, VLD and VST, whose formats are records of the task. A record that is none ends the task with the error of the record. VST changes the 64
elements at its address and no other byte; where its lanes hold escapes, also the side list of the tile there. VLD: with no word that a chain races to
write (R186) and none flipped. -/
def Obligations.VectorInstructionsWriteTheirResult : Prop :=
  (∀ (t d i vd : Nat) (s : State) (r : RunTask), let u := s.to t
    let drained : Prop := (u.coreAt d (u.coreOf d i)).drainQ = []
    let writes (c : Instr) (op : Nat) (fs : List InstrField) (l : List Word) : Prop :=
      isInstr (u.instrWord d i r) op fs = true →
      (¬ drained → exec c s = .next u) ∧
      (drained → ∃ v, exec c s = .next v ∧ v.vec d i vd = l ∧ (∀ w, w ≠ vd → v.vec d i w = u.vec d i w) ∧
        v.runAt d i = some { r with pc := r.pc + 1, icount := r.icount + 1, work := true, progress := u.cycles } ∧ OnlyIn [.die] u v)
    u.live d i = some r → u.changing = none → r.icount < 2 ^ 24 → u.coreOf d i < (u.dieAt d).core.length →
    (∀ va vb, let a := u.vec d i va
      let two := [(55, 51, vd), (50, 46, va), (45, 41, vb)]
      let three (vc : Nat) := [(55, 51, vd), (50, 46, va), (45, 41, vb), (40, 36, vc)]
      let b := u.vec d i vb
      writes (.vecFadd t d i vd va vb) 0x20 two (List.zipWith (fadd r.rclass) a b) ∧
      writes (.vecFmul t d i vd va vb) 0x21 two (List.zipWith (fmul r.rclass) a b) ∧
      writes (.vecFmax t d i vd va vb) 0x23 two (List.zipWith fmax a b) ∧
      writes (.vecFmin t d i vd va vb) 0x24 two (List.zipWith fmin a b) ∧
      writes (.fcmp t d i vd va vb) 0x25 two (List.zipWith (fun x y => if flt x y then 0xFFFFFFFF#32 else 0#32) a b) ∧
      writes (.iadd t d i vd va vb) 0x26 two (List.zipWith (fun x y => x + y) a b) ∧
      writes (.imul t d i vd va vb) 0x27 two (List.zipWith (fun x y => x * y) a b) ∧
      writes (.ishl t d i vd va vb) 0x28 two
        (List.zipWith (fun x y => if y.toNat < 32 then x <<< y.toNat else Config.shiftWide true x y) a b) ∧
      writes (.ishr t d i vd va vb) 0x29 two
        (List.zipWith (fun x y => if y.toNat < 32 then x.sshiftRight y.toNat else Config.shiftWide false x y) a b) ∧
      writes (.iand t d i vd va vb) 0x2A two (List.zipWith (fun x y => x &&& y) a b) ∧
      writes (.ior t d i vd va vb) 0x2B two (List.zipWith (fun x y => x ||| y) a b) ∧
      writes (.ixor t d i vd va vb) 0x2C two (List.zipWith (fun x y => x ^^^ y) a b) ∧
      writes (.icmp t d i vd va vb) 0x2D two (List.zipWith (fun x y => if x.toInt < y.toInt then 0xFFFFFFFF#32 else 0#32) a b) ∧
      (∀ vc, writes (.vecFfma t d i vd va vb vc) 0x22 (three vc) ((List.range 64).map (fun k =>
          ffma r.rclass (lget 0#32 a k) (lget 0#32 b k) (lget 0#32 (u.vec d i vc) k))) ∧
        writes (.iclamp t d i vd va vb vc) 0x2E (three vc) ((List.range 64).map (fun k =>
          wordOf (codeOf 32 (clampInt (laneInt (lget 0#32 b k)) (laneInt (lget 0#32 (u.vec d i vc) k)) (laneInt (lget 0#32 a k)))))))) ∧
    (∀ va, let a := u.vec d i va
      let one := [(55, 51, vd), (50, 46, va)]
      writes (.exp t d i vd va) 0x31 one (a.map spExp) ∧ writes (.vecRecip t d i vd va) 0x32 one (a.map spRecip) ∧
      writes (.vecRsqrt t d i vd va) 0x33 one (a.map spRsqrt) ∧ writes (.sigm t d i vd va) 0x34 one (a.map spSigm) ∧
      writes (.vecTanh t d i vd va) 0x35 one (a.map spTanh) ∧
      writes (.vrmax t d i vd va) 0x39 one ((a.drop 1).foldl fmax (lget 0#32 a 0) :: List.replicate 63 0#32) ∧
      writes (.vrsum t d i vd va) 0x3A one ((a.drop 1).foldl (fadd r.rclass) (lget 0#32 a 0) :: List.replicate 63 0#32)) ∧
    (∀ imm, writes (.vbcast t d i vd imm) 0x38 [(55, 51, vd), (31, 0, imm.toNat)] (List.replicate 64 imm)) ∧
    writes (.ilane t d i vd) 0x3B [(55, 51, vd)] ((List.range 64).map wordOf)) ∧
  (∀ (t d i : Nat) (s : State) (r : RunTask), let u := s.to t
    let moves (v : State) (f : ArithCnt → ArithCnt) : Prop :=
      v.runAt d i = some { r with pc := r.pc + 1, icount := r.icount + 1, work := true, progress := u.cycles, cnt := f r.cnt }
    let stands (op : Nat) (fs : List InstrField) : Prop := isInstr (u.instrWord d i r) op fs = true
    u.live d i = some r → u.changing = none → r.icount < 2 ^ 24 → (u.coreAt d (u.coreOf d i)).drainQ = [] →
    u.coreOf d i < (u.dieAt d).core.length →
    (∀ vd va rec addr rs o, stands 0x2F [(55, 51, vd), (50, 46, va), (35, 32, rec), (31, 0, addr)] →
      u.rescaleAt d i r rec = .ok rs → u.tensorAt d i r (rec + 1) = .ok o →
      ∃ v, exec (.rescale t d i vd va rec addr) s = .next v ∧
        v.vec d i vd = (List.range 64).map (fun k => wordOf (codeOf 32 (rescaleOut r.rclass o rs.relu
          (u.rescaleOf d i rs addr k).1 (u.rescaleOf d i rs addr k).2 (laneInt (lget 0#32 (u.vec d i va) k))).code)) ∧
        (∀ w, w ≠ vd → v.vec d i w = u.vec d i w) ∧ OnlyIn [.die] u v) ∧
    (∀ vd va rec o, stands 0x30 [(55, 51, vd), (50, 46, va), (35, 32, rec)] → u.tensorAt d i r rec = .ok o →
      ∃ v, exec (.cvt t d i vd va rec) s = .next v ∧
        v.vec d i vd = (u.vec d i va).map (fun w => (cvtLane r.rclass o w).1) ∧
        (∀ w, w ≠ vd → v.vec d i w = u.vec d i w) ∧ OnlyIn [.die] u v) ∧
    (∀ vd rec addr o, stands 0x36 [(55, 51, vd), (35, 32, rec), (31, 0, addr)] → u.tensorAt d i r rec = .ok o → addr < 2 ^ 21 →
      u.mt.flips = [] → r.racing = [] →
      ∃ v, exec (.vld t d i vd rec addr) s = .next v ∧ moves v id ∧
        v.vec d i vd = (List.range 64).map (fun k => loadLane o.fmt (u.elem d i o.fmt addr k)) ∧
        (∀ w, w ≠ vd → v.vec d i w = u.vec d i w) ∧ OnlyIn [.die] u v) ∧
    (∀ va rec addr o, stands 0x37 [(50, 46, va), (35, 32, rec), (31, 0, addr)] → u.tensorAt d i r rec = .ok o →
      addr + o.fmt.bytes 64 ≤ 2 ^ 21 →
      let outside (key : Nat) : Prop := ∀ j, j < o.fmt.bytes 64 → key ≠ u.csKey d i (addr + j)
      let holds := o.esc && (u.coreAt d (u.coreOf d i)).vside.any (fun p => p.1 / 64 == va)
      ∃ v, exec (.vst t d i va rec addr) s = .next v ∧
        (holds = false → (∀ k, k < 64 → v.elem d i o.fmt addr k = (storeLane r.rclass o.fmt (lget 0#32 (u.vec d i va) k)).1) ∧
          ∀ key, outside key → v.ldB key = u.ldB key) ∧
        (∀ key, outside key → (∀ j, j < 520 → key ≠ u.csKey d i (sideAt addr 0 + j)) → v.ldB key = u.ldB key) ∧
        (∀ w, v.vec d i w = u.vec d i w) ∧ OnlyIn [.mem, .mt, .die] u v) ∧
    (∀ vd va rec addr e, u.tensorAt d i r rec = .error e →
      let fails (c : Instr) : Prop := ∃ v, exec c s = .next v ∧
        v.runAt d i = some { r with pc := r.pc + 1, icount := r.icount + 1, work := true, progress := u.cycles, out := some e } ∧
        OnlyIn [.die] u v
      (stands 0x30 [(55, 51, vd), (50, 46, va), (35, 32, rec)] → fails (.cvt t d i vd va rec)) ∧
      (stands 0x36 [(55, 51, vd), (35, 32, rec), (31, 0, addr)] → fails (.vld t d i vd rec addr)) ∧
      (stands 0x37 [(50, 46, va), (35, 32, rec), (31, 0, addr)] → fails (.vst t d i va rec addr))) ∧
    (∀ vd va rec addr e, stands 0x2F [(55, 51, vd), (50, 46, va), (35, 32, rec), (31, 0, addr)] →
      (u.rescaleAt d i r rec = .error e ∨ (∃ rs, u.rescaleAt d i r rec = .ok rs) ∧ u.tensorAt d i r (rec + 1) = .error e) →
      ∃ v, exec (.rescale t d i vd va rec addr) s = .next v ∧
        v.runAt d i = some { r with pc := r.pc + 1, icount := r.icount + 1, work := true, progress := u.cycles, out := some e } ∧
        OnlyIn [.die] u v))

/-- R187, R188, R221, R232: the operators of a task run in the order it issued them. The oldest runs when its row names its descriptor and its code: it
leaves the list of operators issued, and its descriptor is read; a descriptor outside its ranges ends the task with the error of the descriptor; any
other operator reads its inputs through ECC (R125), has its effect, over what a chain races to write (R186) as the reads see it, and counts as work
unless it is empty. GCELL waits for the drains before it (R115). A partial task has one operator, an ATTN over its span (R268). -/
def Obligations.OperatorsRunInIssueOrder : Prop :=
  ∀ (t d i addr : Nat) (s : State) (r : RunTask), let u := s.to t
    let w := (u.updRun d i (fun r => { r with issued := r.issued.drop 1 })).csReads d i [(addr, 64)]
    let rows : List (Instr × Nat × (State → Nat → Nat → Nat → RunTask → Except TaskOut OpDo)) := [
      (.conv t d i addr, 0x01, State.convOp), (.dwconv t d i addr, 0x02, State.dwOp), (.pool t d i addr, 0x03, State.poolOp),
      (.cropResize t d i addr, 0x04, State.cropOp), (.boxDecode t d i addr, 0x05, State.boxOp),
      (.suppress t d i addr, 0x06, State.suppressOp), (.lscan t d i addr, 0x10, State.lscanOp),
      (.gcell t d i addr, 0x11, State.gcellOp), (.biscan t d i addr, 0x12, State.biscanOp), (.bind t d i addr, 0x13, State.bindOp),
      (.kvAppend t d i addr, 0x18, State.kvAppendOp), (.attn t d i addr, 0x19, State.attnOp),
      (.attnBwd t d i addr, 0x1B, State.attnBwdOp), (.adaptAccum t d i addr, 0x1C, State.adaptAccumOp),
      (.adaptStep t d i addr, 0x1D, State.adaptStepOp)]
    u.live d i = some r → u.changing = none →
    (∀ p a k, r.part = some (p, a, k) → exec (.attn t d i addr) s = .next (if a = addr then u.attnPart d i p a k r else u)) ∧
    ∀ x ∈ rows, (x.2.1 = 0x11 → (u.coreAt d (u.coreOf d i)).drainQ = []) → (x.2.1 = 0x19 → r.part = none) →
      (r.issued.head? ≠ some addr ∨ u.cs d i addr 1 ≠ x.2.1 → exec x.1 s = .next u) ∧
      (r.issued.head? = some addr → u.cs d i addr 1 = x.2.1 →
        (w.live d i = none → exec x.1 s = .next w) ∧
        (∀ q, w.live d i = some q →
          (∀ o, x.2.2 w d i addr q = .error o → exec x.1 s = .next (w.finish d i o)) ∧
          (∀ y, x.2.2 w d i addr q = .ok y →
            let z := w.csReads d i y.reads
            let m := z.mixView d i y.reads
            (z.live d i = none → exec x.1 s = .next z) ∧
            (z.live d i ≠ none → exec x.1 s = .next (if y.empty then y.run z else ((y.run m.1).mixBack d i m.2).worked d i)))))

/-- R308, R309: the descriptors of a chain run in order, each when its row names its address and operation. A descriptor outside its ranges, and one whose
access fails, ends the task; an empty one moves nothing; the chain goes on behind it, or ends with the last, and the words it has changed race with the
task's reads until a barrier (R186). A plain COPY of one unit from the Lintel store gives the core store its bytes and changes no other byte. -/
def Obligations.ChainDescriptorsRunInOrder : Prop :=
  ∀ (t d i addr : Nat) (s : State) (r : RunTask) (k : Nat) (c : ChainRun), let u := s.to t
    let rows : List (Instr × Nat × (State → RunTask → MoveDesc → State × Option TaskOut)) := [
      (.copy t d i addr, 1, fun s r m => s.mvCopy d i r m), (.blockedToPlanar t d i addr, 2, fun s r m => s.mvToPlanar d i r m 1),
      (.phaseSplit t d i addr, 3, fun s r m => s.mvToPlanar d i r m m.phase),
      (.planarToBlocked t d i addr, 4, fun s r m => s.mvToBlocked d i r m),
      (.rowGather t d i addr, 5, fun s r m => s.mvGather d i r m), (.fill t d i addr, 6, fun s r m => s.mvFill d i r m)]
    let y := u.csReads d i [(addr, 64)]
    u.live d i = some r → u.changing = none → r.chainAt addr = some (k, c) →
    (∀ x ∈ rows, u.cs d i addr 1 % 16 = x.2.1 →
      (y.live d i = none → exec x.1 s = .next y) ∧
      (∀ q, y.live d i = some q →
        (∀ o, y.moveDesc d i addr q = .error o → exec x.1 s = .next (y.finish d i o)) ∧
        (∀ m, y.moveDesc d i addr q = .ok m →
          (m.fence = true → y.burstsWait d i = true → exec x.1 s = .next y) ∧
          ((m.fence && y.burstsWait d i) = false →
            (m.empty = true → exec x.1 s = .next (y.chainNext d i k c m.last)) ∧
            (m.empty = false →
              (∀ w o, x.2.2 y q m = (w, some o) → exec x.1 s = .next (w.finish d i o)) ∧
              (∀ w, x.2.2 y q m = (w, none) → exec x.1 s = .next
                (if w.live d i = none then w else ((w.races y d i k m.words).moves d i).chainNext d i k c m.last))))))) ∧
    (∀ m, u.moveDesc d i addr r = .ok m → m.op = 1 → m.srcSp = 1 → m.dstSp = 0 → m.count = 1 → m.dir = false → m.side = false →
      m.fence = false → m.src + m.w ≤ 0x10000000 → m.dst + m.w ≤ 0x200000 → u.mt.flips = [] →
      (ringRows m.src m.w).any (fun p => u.ringOld p.1 p.2) = false →
      ∃ v, exec (.copy t d i addr) s = .next v ∧
        v.ldBytes (u.csKey d i m.dst) m.w = u.epochBytes r.epoch (memKey (spLintel d) m.src) m.w ∧
        (∀ key, (∀ j, j < m.w → key ≠ u.csKey d i (m.dst + j)) → v.ldB key = u.ldB key))

/-- R112 to R115, R311: a block that drains leaves the front of the drain queue of its core, and the array whose bank it held goes on; a descriptor late
past its deadline is counted and raised, once, and its task goes on as LATE says. -/
def Obligations.BlocksDrainAndChainsAreLate : Prop :=
  ∀ (t d i : Nat) (s : State) (r : RunTask), let u := s.to t
    u.live d i = some r → u.changing = none →
    (∀ b q, (u.coreAt d (u.coreOf d i)).drainQ = b :: q →
      let w := ((u.updCore d (u.coreOf d i) (fun x => { x with drainQ := q })).drainBlock d i r b).moves d i
      exec (.blockDrain t d i) s = .next (w.convFill d i r.rclass (w.fillSteps d i))) ∧
    ((u.coreAt d (u.coreOf d i)).drainQ = [] → exec (.blockDrain t d i) s = .next u) ∧
    (∀ k c m, lget none r.chains k = some c → c.late = false → u.moveDesc d i c.next r = .ok m → u.cs d i (c.next + 32) 2 ≠ 0 →
      c.start + 256 * u.cs d i (c.next + 32) 2 ≤ u.cycles →
      ∃ v r', exec (.chainDeadline t d i k) s = .next v ∧ v.regGet 0x60038 = u.regGet 0x60038 + 1#32 ∧ v.rbit evMem 2 = true ∧
        (m.late = 1 → v.bond.signalLate = true) ∧ v.runAt d i = some r' ∧
        (m.late ≠ 2 → ∃ c', lget none r'.chains k = some c' ∧ c'.late = true ∧ c'.next = c.next) ∧
        (m.late = 2 → r'.tierSubst = true) ∧
        (m.late ≠ 2 → ∀ key, v.ldB key = u.ldB key)) ∧
    (∀ k c o, lget none r.chains k = some c → c.late = false → u.moveDesc d i c.next r = .error o → u.cs d i (c.next + 32) 2 ≠ 0 →
      c.start + 256 * u.cs d i (c.next + 32) 2 ≤ u.cycles → exec (.chainDeadline t d i k) s = .next (u.finish d i o)) ∧
    (∀ k c, lget none r.chains k = some c →
      c.late = true ∨ u.cs d i (c.next + 32) 2 = 0 ∨ u.cycles < c.start + 256 * u.cs d i (c.next + 32) 2 →
      exec (.chainDeadline t d i k) s = .next u)

/-- R215 to R219: the first swap request that can be served takes a free slot, and its context swaps in; once the state is there the context is RESIDENT
in that slot; an eviction that is done leaves its context SWAPPED, and its slot to the request that it was evicted for. R214, R220, R240, R243: CTX_OPEN gives a context its entry, with RESET_PENDING and
no step taken; CTX_CLOSE closes it. The commands of the window reset, pin, unpin and evict a context that is open; PIN leaves two slots free for
contexts that are not pinned; a write of STREAM_CTX_SEL shows the entry it selects. -/
def Obligations.StreamContextsSwapAndObeyCommands : Prop :=
  (∀ (t d c : Nat) (s : State), let u := s.to t
    d < 4 → d < u.stream.length → c < 2 ^ 18 → ctxDie c = d →
    (∀ r, let w := u.streamSettle d
      (w.streamAt d).order.find? (w.swapServable d) = some r →
        exec (.swapIn t d r.ctx) s = .next (w.swapServe d r) ∧
        (∀ k l, w.freeSlots d = k :: l → ctxDie r.ctx = d →
          (w.swapServe d r).ctxRes r.ctx = 1 ∧ (r.ctx, k) ∈ ((w.swapServe d r).streamAt d).inflight ∧
            ∀ q ∈ ((w.swapServe d r).streamAt d).reqs, q.ctx ≠ r.ctx)) ∧
    (∀ k slot, (u.streamAt d).inflight.find? (fun p => p.1 == c) = some (k, slot) → slot < 65536 →
      let fits (v : State) (bs : List Byte) : Prop :=
        ((u.slotKey d slot + bs.length ≤ memKey (spLintel d) (ctxOff c) ∨ memKey (spLintel d) (ctxOff c) + 64 ≤ u.slotKey d slot) →
          v.ldBytes (u.slotKey d slot) bs.length = bs)
      (u.ctxFlag c 3 = true → u.ctx c 4 4 = 0 →
        ∃ v, exec (.swapInDone t d c) s = .next v ∧ v.ctxRes c = 2 ∧ v.ctx c 10 2 = slot ∧ fits v (List.replicate (u.ctxBytes c) 0#8)) ∧
      (∀ w bs, u.ctxFlag c 3 = false → u.tierRead (u.ctxWho c) (u.ctx c 0 4) (u.ctxBytes c) = (w, .ok bs) →
        ∃ v, exec (.swapInDone t d c) s = .next v ∧ v.ctxRes c = 2 ∧ v.ctx c 10 2 = slot)) ∧
    (∀ k slot, u.ctxRes c = 3 → (u.streamAt d).slots.find? (fun p => p.1 == c) = some (k, slot) →
      exec (.evictionDone t d c) s = .next ((u.evictDone c).streamSettle d) ∧
        (u.ctxFlag c 1 = false → (u.streamAt d).claims.find? (fun p => p.1 == c) = none →
          ∃ v, exec (.evictionDone t d c) s = .next v ∧ v.ctxRes c = 0 ∧ v.ctx c 10 2 = 0xFFFF) ∧
        (∀ q, u.ctxFlag c 1 = false → (u.streamAt d).claims.find? (fun p => p.1 == c) = some (c, q) → q ≠ c → ctxDie q = d →
          (u.streamAt d).reqs.any (fun r => r.ctx == q) = true →
          ∃ v, exec (.evictionDone t d c) s = .next v ∧ v.ctxRes c = 0 ∧ v.ctxRes q = 1 ∧ (q, slot) ∈ (v.streamAt d).inflight))) ∧
  (∀ (h : Hdr) (c : Nat) (s : State), let u := s.atHost h
    let d := ctxDie c
    u.ctxOk c = true → d < u.stream.length →
    (∀ stateAddr initAddr size mark tag, Carried s h (.ctxOpen c stateAddr initAddr size mark tag) →
      (u.ctxFlag c 7 = false ∨ h.client = 15 ∨ u.ctxOwner c = h.client) → u.ctxOpenErr c stateAddr initAddr size = 0 →
      ∃ v, exec (.ctxOpen h c stateAddr initAddr size mark tag) s = .next v ∧ v.ctxFlag c 7 = true ∧ v.ctxFlag c 3 = true ∧
        v.ctxFlag c 0 = mark ∧ v.ctxRes c = 0 ∧ v.ctxLastSp c = -2 ^ 63 ∧ v.ctx c 0 4 = stateAddr % 2 ^ 32 ∧
        v.ctx c 4 4 = initAddr % 2 ^ 32 ∧ v.ctx c 8 2 = size ∧ v.ctxOwner c = h.client % 16 ∧
        Replied s v h (.ctxOpen c stateAddr initAddr size mark tag) 0 []) ∧
    (Carried s h (.ctxClose c) → u.ctxFlag c 7 = true → (h.client = 15 ∨ u.ctxOwner c = h.client) → u.ctxQueue c = [] →
      u.ctxRunning c = false →
      ∃ v, exec (.ctxClose h c) s = .next v ∧ v.ctxFlag c 7 = false ∧ v.ctxRes c = 0 ∧ Replied s v h (.ctxClose c) 0 []) ∧
    (u.ctxFlag c 7 = true →
      (Written s h (bStream d + 0x30) (0x1000000 + c) →
        ∃ v, exec (.resetCtx h d c) s = .next v ∧ v.ctxFlag c 3 = true ∧ v.ctxRes c = u.ctxRes c) ∧
      (Written s h (bStream d + 0x30) (0x2000000 + c) → u.ctxFlag c 4 = false →
        (u.pinnedCount d + 3 ≤ u.rfld (bStream d + 0x14) 31 16 → ∃ v, exec (.pin h d c) s = .next v ∧ v.ctxFlag c 4 = true) ∧
        (u.rfld (bStream d + 0x14) 31 16 < u.pinnedCount d + 3 →
          ∃ v, exec (.pin h d c) s = .next v ∧ v.ctxFlag c 4 = false ∧ v.rbit (evStream d) 0 = true)) ∧
      (Written s h (bStream d + 0x30) (0x2000000 + c) → u.ctxFlag c 4 = true →
        exec (.pin h d c) s = .next ((u.swapRequest c).answered h (bStream d + 0x30) (0x2000000 + c))) ∧
      (Written s h (bStream d + 0x30) (0x3000000 + c) →
        ∃ v, exec (.unpin h d c) s = .next v ∧ v.ctxFlag c 4 = false ∧ v.ctxRes c = u.ctxRes c) ∧
      (Written s h (bStream d + 0x30) (0x4000000 + c) →
        ((u.victims d false).any (fun p => p.1 == c) = true →
          exec (.evict h d c) s = .next (((u.evictStart c).streamSettle d).answered h (bStream d + 0x30) (0x4000000 + c))) ∧
        ((u.victims d false).any (fun p => p.1 == c) = false →
          exec (.evict h d c) s = .next (u.answered h (bStream d + 0x30) (0x4000000 + c))))) ∧
    (Written s h (bStream d + 0x30) 0x5000000 →
      ∃ v, exec (.streamClearCounters h d) s = .next v ∧ (∀ o ∈ [0x18, 0x1C, 0x20, 0x28, 0x2C, 0x38], v.regGet (bStream d + o) = 0#32) ∧
        v.stream = u.stream ∧ v.mem = u.mem) ∧
    (Written s h (bStream d + 0x34) c →
      ∃ v, exec (.streamCtxSel h d c) s = .next v ∧ ∀ n, n < 16 → v.regGet (bStream d + 0x40 + 4 * n) = wordOf (u.ctx c (4 * n) 4)))

/-- R246, R259, R260, R277, R280: SEQ_OPEN gives a sequence its entry and no position; CLOSE and RESET leave it none, CLOSE also not open; FORK gives the
second sequence the first positions of the first, and a fork that cannot be made is refused; the select registers show the entry and the page they
name; CLEAR_COUNTERS zeroes the counters of the window. -/
def Obligations.SequencesAreOpenedForkedAndClosed : Prop :=
  ∀ (h : Hdr) (q : Nat) (s : State), let u := s.atHost h
    let d := seqDie q
    u.seqOk q = true → d < u.kv.length →
    (∀ heads dim q4 mark sp0 pitch list max, Carried s h (.seqOpen q heads dim q4 mark sp0 pitch list max) →
      u.seqForeign h.client q = false → u.seqOpenErr q heads dim max q4 pitch list = 0 → h.client < 16 →
      ∃ v, exec (.seqOpen h q heads dim q4 mark sp0 pitch list max) s = .next v ∧ v.seqOpen q = true ∧ v.seqLen q = 0 ∧
        v.seqHeads q = heads ∧ v.seqMax q = max ∧ v.seqQ4 q = q4 ∧ v.seqOwner q = h.client ∧ v.seqPitch q = pitch ∧
        Replied s v h (.seqOpen q heads dim q4 mark sp0 pitch list max) 0 []) ∧
    (Carried s h (.seqClose q) → u.seqOpen q = true → u.seqForeign h.client q = false →
      ∃ v, exec (.seqClose h q) s = .next v ∧ v.seqOpen q = false ∧ v.seqLen q = 0 ∧ Replied s v h (.seqClose q) 0 []) ∧
    (∀ src n, Carried s h (.seqFork src q n) → u.seqOk src = true → u.seqOpen src = true → u.seqOpen q = true →
      u.seqForeign h.client src = false → u.seqForeign h.client q = false → n ≠ 0 →
      (∀ w, u.seqFork src q n = (w, 0) → ∃ v, exec (.seqFork h src q n) s = .next v ∧ v.seqLen q = n ∧
        Replied s v h (.seqFork src q n) 0 []) ∧
      (seqDie src ≠ d ∨ src = q ∨ u.seqLen src < n ∨ u.seqHeads src ≠ u.seqHeads q ∨ u.seqDim src ≠ u.seqDim q ∨
          u.seqQ4 src ≠ u.seqQ4 q ∨ u.seqMax q < (n + 63) / 64 →
        ∃ v, exec (.seqFork h src q n) s = .next v ∧ v.mem = u.mem ∧ v.kv = u.kv ∧ Replied s v h (.seqFork src q n) 0x020A [])) ∧
    (u.seqOpen q = true →
      (Written s h (bKv d + 0x2C) (0x1000000 + q % 1024) →
        ∃ v, exec (.resetSeq h d q) s = .next v ∧ v.seqLen q = 0) ∧
      (Written s h (bKv d + 0x2C) (0x2000000 + q % 1024) →
        ∃ v, exec (.kvClose h d q) s = .next v ∧ v.seqOpen q = false ∧ v.seqLen q = 0)) ∧
    (Written s h (bKv d + 0x2C) 0x6000000 →
      ∃ v, exec (.kvClearCounters h d) s = .next v ∧ (∀ o ∈ [0x68, 0x6C, 0x70, 0x74, 0x78], v.regGet (bKv d + o) = 0#32) ∧
        v.regGet 0x50108 = 0#32 ∧ v.regGet 0x5010C = 0#32 ∧ v.mem = u.mem ∧ v.kv = u.kv ∧ v.adapt = u.adapt) ∧
    (Written s h (bKv d + 0x30) (q % 1024) →
      ∃ v, exec (.kvSeqSel h d q) s = .next v ∧ ∀ k, k < 8 → v.regGet (bKv d + 0x40 + 4 * k) = wordOf (u.seqf q (4 * k) 4)) ∧
    (∀ n, n < 262144 → Written s h (bKv d + 0x34) n →
      ∃ v, exec (.kvPageSel h d n) s = .next v ∧ v.regGet (bKv d + 0x60) = wordOf (u.lin d (pageOff n) 8) ∧
        v.regGet (bKv d + 0x64) = wordOf (u.lin d (pageOff n) 8 / 2 ^ 32))

/-- R268, R274, R275: once every partial task of an expanded ATTN has completed, their results are merged in the order they completed. COMMIT forms an
epoch of changed masters unless FREEZE is set; the epoch formed waits for the next frame boundary, with what it places in the models' areas (R270), or
SCALE_RANGE abandons it; ROLLBACK stages the previous one and sets FREEZE; RESET_MASTERS takes the masters back to their load values. That masters which
cannot be read abandon a commit is the model's choice (log entry 96). -/
def Obligations.PartialsMergeAndEpochsCommit : Prop :=
  ∀ (t d i addr : Nat) (h : Hdr) (s : State), let u := s.to t
    (∀ r, u.live d i = some r → u.changing = none → r.splits = [] → exec (.attnMerge t d i addr) s = .next u) ∧
    (∀ r x rest, u.live d i = some r → u.changing = none → r.splits = x :: rest →
      let w := u.updRun d i (fun r => { r with splits := rest })
      (x.at_ ≠ addr ∨ x.waiting ≠ [] ∨ x.running ≠ [] → exec (.attnMerge t d i addr) s = .next u) ∧
      (x.at_ = addr → x.waiting = [] → x.running = [] →
        (∀ o, w.attnDesc d i addr r false = .error o → exec (.attnMerge t d i addr) s = .next (w.finish d i o)) ∧
        (∀ v y o, w.attnDesc d i addr r false = .ok v →
          w.linGet d i r v.part (x.order.length * v.nq * (4 * v.dim + 8)) = (y, .error o) →
          exec (.attnMerge t d i addr) s = .next (y.finish d i o)) ∧
        (∀ v y bs, w.attnDesc d i addr r false = .ok v →
          w.linGet d i r v.part (x.order.length * v.nq * (4 * v.dim + 8)) = (y, .ok bs) →
          exec (.attnMerge t d i addr) s = .next ((y.attnWrite d i r v (mergeRows r.rclass v bs x.order)).moves d i)))) ∧
    (u.adapt.committing = true →
      let w := u.updAdapt (fun a => { a with committing := false })
      (∀ x, w.mastersAll = (x, none) → exec (.adaptCommit t) s = .next (x.bumpLo 0x5010C)) ∧
      (∀ x ws e, w.mastersAll = (x, some ws) → formEpoch x.adapt ws = some e →
        ∃ v, exec (.adaptCommit t) s = .next v ∧
          v.adapt = { u.adapt with committing := false, staged := some e, places := v.adapt.places, changed := false } ∧
          (∀ q ∈ v.adapt.places, ∃ m ∈ u.sdio.models, ∃ a ∈ m.areas,
            q.1 = a.1 ∧ a.2.1 ≤ q.2.1 ∧ q.2.1 + q.2.2.length ≤ a.2.1 + a.2.2) ∧
          v.bond.epochStaged = true ∧ v.regGet 0x50108 = x.regGet 0x50108 + 1#32 ∧ v.rbit (evKv u.adaptHome) 3 = true ∧ v.mem = x.mem) ∧
      (∀ x ws, w.mastersAll = (x, some ws) → formEpoch x.adapt ws = none →
        ∃ v, exec (.adaptCommit t) s = .next v ∧ v.adapt = { u.adapt with committing := false } ∧ v.mem = x.mem ∧
          v.rfld 0x5010C 15 0 = satAdd 16 (x.rfld 0x5010C 15 0) 1 ∧ v.rbit (evKv u.adaptHome) 1 = true)) ∧
    (let x := s.atHost h;
      (Written s h 0x5002C 0x3000000 → ∃ v, exec (.commit h) s = .next v ∧
        v.adapt = { x.adapt with committing := x.adapt.committing || (x.adapt.changed && !x.rbit 0x50104 1) }) ∧
      (Written s h 0x5002C 0x4000000 → ∃ v, exec (.rollback h) s = .next v ∧
        v.adapt = { x.adapt with staged := some x.adapt.previous, places := v.adapt.places } ∧
        v.bond.epochStaged = true ∧ v.rbit 0x50104 1 = true ∧ v.rbit (evKv x.adaptHome) 0 = true) ∧
      (Written s h 0x5002C 0x5000000 → ∃ v, exec (.resetMasters h) s = .next v ∧ v.adapt = x.adapt ∧
        (x.adapt.groups.Pairwise (fun a b => a.id ≠ b.id) → ∀ g ∈ x.adapt.groups, ∀ k, k < g.load.length →
          v.ldN (x.masterKey g.id k) 4 = (lget 0#32 g.load k).toNat ∧ v.ldN (x.masterKey g.id k + 4) 4 = 0 ∧
            v.ldN (x.masterKey g.id k + 8) 4 = 0)))

/-- R286 to R288, R294 to R300, R305 to R307, R591: scrubs, bursts, exclusions, lost pages and migration. -/
def Obligations.TiersScrubBurstAndMigrate : Prop :=
  ∀ (t n : Nat) (s : State), let u := s.to t
    (u.rbit 0x60000 2 = true → u.hasDie n = true →
      exec (.lintelScrub t n) s = .next (u.eccRead (memKey (spLintel n) 0) 0x10000000).1 ∧
      (∀ k m, u.mt.flips = [(k, m)] → u.test.persist = [] → flipCount m ≤ 1 → n < 4 → memKey (spLintel n) 0 ≤ k →
        k < memKey (spLintel n) 0x10000000 →
        ∃ v, exec (.lintelScrub t n) s = .next v ∧ v.mt.flips = [] ∧
          v.rfld (aLin n + 8) 31 16 = satAdd 16 (u.rfld (aLin n + 8) 31 16) 1 ∧ v.rbit evMem 7 = true)) ∧
    (u.rbit 0x60000 2 = true → ∀ p, (u.quarryPages.filter (fun p => decide (u.mt.qscrub ≤ p)) ++ u.quarryPages).head? = some p →
      exec (.quarryScrub t) s = .next ((u.queueBursts (u.pte p) 0 65536 false .background none).updMt
        (fun m => { m with qscrub := p + 1 }))) ∧
    (∀ q b, (u.qchAt n).st = .up → (u.qchAt n).serves = some q → (u.qchAt n).front q = some b → n < u.mt.qch.length → n < 16 →
      u.mt.flips = [] →
      ∃ v, exec (.quarryBurst t n) s = .next v ∧ v.qchAt n = (u.qchAt n).take (max 1 (u.rfld 0x60010 19 16)) q ∧
        v.regGet (aQch n + 12) = u.regGet (aQch n + 12) + 1#32 ∧ v.mem = u.mem) ∧
    (∀ q, (u.qchAt n).st = .up → (u.qchAt n).serves = some q → n < u.mt.qch.length → n < 16 →
      ∃ v, exec (.burstTimeout t n) s = .next v ∧ (v.qchAt n).st = .excluded ∧ (v.qchAt n).cause = 3 ∧
        (v.qchAt n).plan = [] ∧ (v.qchAt n).client = [] ∧ v.regGet (aQch n + 12) = u.regGet (aQch n + 12) + 2#32 ∧
        v.rbit evMem 9 = true ∧ v.rbit evMem 8 = true) ∧
    (u.mt.remapWait = true → ∃ v, exec (.lostMarkingDone t) s = .next v ∧ v.mt.remapWait = false ∧ v.mt.lostMark = []) ∧
    (u.rbit 0x60000 0 = true → Memory.wf u.mem →
      ∃ v, exec (.migrationPeriod t) s = .next v ∧
        ∀ p ∈ u.mappedPages, p / 16384 ∈ u.dies → u.dieServes (p / 16384) = true →
          (v.pte p).heat = (u.pte p).heat / 2 ∧ (v.pte p).mapped = true ∧ (v.pte p).tier = (u.pte p).tier) ∧
    (∀ m, n < 65536 → u.mt.moves.find? (fun m => m.page == n) = some m → let x := pteDecode m.target
      (m.written = false → m.next ≠ some n → ((u.pte n).tier = 0 → (u.eccRead (frameKey (u.pte n)) 65536).2 = false) →
        ∃ v, exec (.migrationMoveDone t n) s = .next v ∧ (∀ y ∈ v.mt.moves, y.page ≠ n) ∧
          v.pte n = { u.pte n with migrating := false, tier := x.tier, die := x.die, ch := x.ch, dev := x.dev, frame := x.frame }) ∧
      (m.written = false → (u.pte n).tier = 0 → (u.eccRead (frameKey (u.pte n)) 65536).2 = true →
        exec (.migrationMoveDone t n) s = .next ((u.eccRead (frameKey (u.pte n)) 65536).1.abortMove n)) ∧
      (m.written = true →
        ∃ v, exec (.migrationMoveDone t n) s = .next v ∧ (∀ y ∈ v.mt.moves, y.page ≠ n) ∧
          v.pte n = { u.pte n with migrating := false } ∧ v.regGet 0x60034 = u.regGet 0x60034 + 1#32 ∧ v.rbit evMem 3 = true)) ∧
    (∃ v, exec (.qchWear t) s = .next v ∧ v.test.qchCe = List.replicate 16 0 ∧
      ((∃ c, c < u.nQch ∧ u.rfld 0xF0070 15 0 < lget 0 u.test.qchCe c) → v.rbit evTest 0 = true) ∧
      ((∀ c, c < u.nQch → lget 0 u.test.qchCe c ≤ u.rfld 0xF0070 15 0) → v.regs = u.regs))

/-- R283, R298, R303, R313, R315: the host's use of the tiers. MEM_WRITE stores its bytes, MEM_READ answers them; PAGE_MAP gives a page a frame and its
owner, PAGE_UNMAP takes it away; TIER_BASE moves unless that would take a frame in use; EXCLUDE_QCH excludes a channel; the page select shows an
entry; CLEAR_COUNTERS zeroes the counters. -/
def Obligations.HostUsesTheMemoryTiers : Prop :=
  ∀ (h : Hdr) (s : State), let u := s.atHost h
    (∀ sp a bs, Carried s h (.memWrite sp a bs) → sp < 4 → bs ≠ [] → u.memErr h.client sp a bs.length = 0 →
      ∃ v, exec (.memWrite h sp a bs) s = .next v ∧ v.ldBytes (memKey (spLintel sp) a) bs.length = bs ∧
        (∀ k, (k < memKey (spLintel sp) a ∨ memKey (spLintel sp) a + bs.length ≤ k) → v.ldB k = u.ldB k) ∧
        v.regs = u.regs ∧ Replied s v h (.memWrite sp a bs) 0 []) ∧
    (∀ sp a n, Carried s h (.memRead sp a n) → sp < 4 → n ≠ 0 → u.memErr h.client sp a n = 0 → u.mt.flips = [] →
      ∃ v, exec (.memRead h sp a n false) s = .next v ∧ v.mem = u.mem ∧ v.regs = u.regs ∧
        Replied s v h (.memRead sp a n) 0 (u.ldBytes (memKey (spLintel sp) a) n)) ∧
    (∀ p pin e, Carried s h (.pageMap p 1 pin) → u.hasDie (p / 16384) = true → pin < 3 → (u.pte p).mapped = false →
      u.takeFrame (p / 16384) pin = some e →
      ∃ v, exec (.pageMap h p 1 pin) s = .next v ∧ (v.pte p).mapped = true ∧ (v.pte p).pin = pin ∧ (v.pte p).owner = h.client % 16 ∧
        (v.pte p).lost = false ∧ (v.pte p).frame = e.frame % 65536 ∧ Replied s v h (.pageMap p 1 pin) 0 []) ∧
    (∀ p pin, Carried s h (.pageMap p 1 pin) → u.hasDie (p / 16384) = true → pin < 3 → (u.pte p).mapped = false →
      u.takeFrame (p / 16384) pin = none →
      ∃ v, exec (.pageMap h p 1 pin) s = .next v ∧ v.mem = u.mem ∧ v.rbit evMem 1 = true) ∧
    (∀ p, Carried s h (.pageUnmap p 1) → u.hasDie (p / 16384) = true → (u.pte p).mapped = true →
      (h.client = 15 ∨ (u.pte p).owner = h.client) →
      ∃ v, exec (.pageUnmap h p 1) s = .next v ∧ v.pte p = {}) ∧
    (∀ (d : Nat) (value : Word), d < 4 → Written s h (aLin d) value.toNat → value.toNat < 8192 → u.planRuns = false →
      u.rfld (aLin d) 12 0 ≠ value.toNat →
      (∀ w, u.tierBaseSet d value.toNat = some w →
        ∃ v, exec (.tierBaseWrite h d value) s = .next v ∧ v.rfld (aLin d) 12 0 = value.toNat) ∧
      (u.tierBaseSet d value.toNat = none →
        ∃ v, exec (.tierBaseWrite h d value) s = .next v ∧ v.mem = u.mem ∧ v.regs = u.regs ∧
          Replied s v h (.regWrite [(wordOf (aLin d), value)]) 0x020A (leBytes 4 0))) ∧
    (∀ c, c < u.nQch → c < 16 → c < u.mt.qch.length → (u.qchAt c).st = .up → Written s h 0x60020 (0x1000000 + c) →
      ∃ v, exec (.excludeQch h c) s = .next v ∧ (v.qchAt c).st = .excluded ∧ (v.qchAt c).cause = 5 ∧ v.rbit evMem 9 = true) ∧
    (Written s h 0x60020 0x2000000 → ∃ v, exec (.memClearCounters h) s = .next v ∧
      (∀ a ∈ [0x60030, 0x60034, 0x60038], v.regGet a = 0#32) ∧ (∀ d, d < 4 → v.regGet (aLin d + 8) = 0#32) ∧
      (∀ c, c < 16 → v.regGet (aQch c + 8) = 0#32 ∧ v.regGet (aQch c + 12) = 0#32) ∧ v.mem = u.mem ∧ v.mt = u.mt) ∧
    (∀ p, p < 65536 → Written s h 0x60024 p → ∃ v, exec (.memPageSel h p) s = .next v ∧
      v.regGet 0x60028 = wordOf (pteCode (u.pte p)) ∧ v.regGet 0x6002C = wordOf (pteCode (u.pte p) / 2 ^ 32))

/-- R329, R336 to R339, R347, R357: a plan is loaded by a bulk transfer while none runs; PLAN_ADMIT waits for the admission, which admits the plan with
its figures or leaves it LOADED with a reason; PLAN_START waits for the next frame boundary; PLAN_STOP takes it back, or stops the releases, and once
the plan's graphs have completed the plan is ADMITTED again; PLAN_UNLOAD leaves none. A re-admission of a running plan gives new figures at its end,
and begins again where another was asked for meanwhile. R131, R289, R302, R566: the pieces of an image that lie on withdrawn frames, and a page of PIN 3,
refuse it; one with a piece outside the raw region is no plan (the model's choice, log entry 100); the clock changes to the plan's frequency, and
VDDC_SEL asks at once for the level of the higher of the two. -/
def Obligations.PlansAreLoadedAdmittedAndRun : Prop :=
  ∀ (t : Nat) (h : Hdr) (s : State), let u := s.atHost h
    let y := s.to t
    (∀ len digest, Carried s h (.planLoad len digest) → u.planRuns = false → len ≠ 0 → u.deferredCnt < 8 →
      ∃ v, exec (.planLoad h len digest) s = .next v ∧ v.deferredCnt = u.deferredCnt + 1 ∧ v.bond = u.bond ∧
        v.sdio.replies = u.sdio.replies) ∧
    (∀ img dg p, Config.parsePlan img = some p → let l := Config.planPlaces img
      (l.all u.rawOk = false → (u.planPlace img dg).2 = 0 ∧ (u.planPlace img dg).1.bond.plan = none ∧ (u.planPlace img dg).1.bond.st = .loaded) ∧
      (l.all u.rawOk = true → l.any u.onWithdrawn = true → u.planPlace img dg = (u, 0x0301)) ∧
      (l.all u.rawOk = true → l.any u.onWithdrawn = false → (∃ g ∈ p.pages, g.count ≠ 0 ∧ g.pin = 3) → u.planPlace img dg = (u, 0x020A))) ∧
    (∀ f, (u.freqAsk f).changing = (if f = u.freq then none else some f) ∧ (u.freqAsk f).freq = u.freq ∧ (u.freqAsk f).power.vddc = min f u.freq) ∧
    (Carried s h .planAdmit → u.planRuns = false → u.bond.st = .loaded ∨ u.bond.st = .admitted → u.deferredCnt < 8 →
      ∃ v, exec (.planAdmit h) s = .next v ∧ v.bond = u.bond ∧
        v.sdio.deferred = u.sdio.deferred ++ [{ pkt := packetOf h.tag h.client .planAdmit, at_ := u.now }]) ∧
    (∀ d p, y.sdio.deferred = [d] → d.pkt.cmd = .planAdmit → y.bond.st = .loaded → y.bond.startPending = false → y.mgmt.resetAt = none →
      y.bond.plan = some p →
      ∃ v, exec (.admissionDone t) s = .next v ∧ v.sdio.deferred = [] ∧ v.bond.adm = y.admission p ∧
        ((y.admission p).reason = .none → v.bond.st = .admitted ∧ v.rbit evBond 12 = true ∧ v.sdio.replies = y.sdio.replies ++
          [{ status := 0, tag := d.pkt.tag, client := d.pkt.client, opcode := d.pkt.opcode, bytes := v.admitBytes }]) ∧
        ((y.admission p).reason ≠ .none → v.bond.st = .loaded ∧ v.rbit evBond 11 = true ∧ v.sdio.replies = y.sdio.replies ++
          [{ status := 0x020B, tag := d.pkt.tag, client := d.pkt.client, opcode := d.pkt.opcode, bytes := v.admitBytes }])) ∧
    (Carried s h .planStart → u.bond.st = .admitted → u.bond.startPending = false →
      ∃ v, exec (.planStart h) s = .next v ∧ v.bond = { u.bond with startPending := true } ∧ Replied s v h .planStart 0 []) ∧
    (Carried s h .planStop →
      (u.bond.startPending = true →
        ∃ v, exec (.planStop h) s = .next v ∧ v.bond = { u.bond with startPending := false } ∧ Replied s v h .planStop 0 []) ∧
      (u.bond.startPending = false → u.bond.st = .running →
        ∃ v, exec (.planStop h) s = .next v ∧ v.bond = { u.bond with st := .stopping } ∧ Replied s v h .planStop 0 [])) ∧
    (y.bond.st = .stopping → (∀ g ∈ y.bond.graphs, g.client ≠ 15) →
      ∃ v, exec (.planStopDone t) s = .next v ∧ v.bond.st = .admitted ∧ v.bond.graphs = y.bond.graphs ∧
        ∀ d ∈ y.dies, d < y.die.length → (y.dieAt d).st = .running → (v.dieAt d).st = .ready) ∧
    (Carried s h .planUnload → u.planRuns = false →
      ∃ v, exec (.planUnload h) s = .next v ∧ v.bond.st = .empty ∧ v.bond.plan = none ∧ Replied s v h .planUnload 0 []) ∧
    (Written s h 0x7000C 1 →
      (u.bond.st = .running →
        ∃ v, exec (.readmit h) s = .next v ∧ v.bond = { u.bond with readmitAgain := u.bond.readmitting, readmitting := true }) ∧
      (u.bond.st ≠ .running → ∃ v, exec (.readmit h) s = .next v ∧ v.bond = u.bond)) ∧
    (∀ p, y.bond.plan = some p → y.bond.readmitting = true →
      (y.bond.readmitAgain = true →
        ∃ v, exec (.readmitDone t) s = .next v ∧ v.bond.readmitting = true ∧ v.bond.readmitAgain = false ∧ v.bond.readmitted ≠ none) ∧
      (y.bond.readmitAgain = false → y.sdio.waiting = none → y.sdio.cmdBuf = [] →
        ∃ v, exec (.readmitDone t) s = .next v ∧ v.bond.readmitting = false ∧ v.bond.readmitted ≠ none))

/-- R327, R341: a frame boundary takes the programme to the frame the high-water mark has entered. At each boundary the variant moves: to a cheaper target
at once, to a richer one after HOLD boundaries below the speed of R341, and one cheaper after SIGNAL lateness. R323, R349 to R351, R355, R357, R502: a
graph the host submits is entered under the next identifier; GRAPH_WAIT answers what a graph that has completed came to, or waits; models are loaded
by a bulk transfer and unloaded; a period turns use beyond the quotas into debts; the accounts are read and cleared. -/
def Obligations.VariantsGraphsModelsAndAccounts : Prop :=
  (∀ (t : Nat) (s : State), let u := s.to t
    (∀ p, u.bond.plan = some p → u.bondFrame p ≠ u.bond.frame →
      exec (.frameBoundary t) s = .next (u.frameStep (u.bondFrame p) p)) ∧
    (∀ p, u.bond.plan = some p → u.bondFrame p = u.bond.frame → exec (.frameBoundary t) s = .next u) ∧
    (let tg := (u.vtarget u.course.speed.natAbs).1
     let cur := u.bond.variant
     let w := u.selectVariant
     let below := u.course.speed.natAbs * 256 ≤ lget 0 u.bond.adm.vp tg * (256 - u.rfld 0x70010 23 16)
     let hold := max 1 (u.rfld 0x70010 15 0)
     u.bond.signalLate = false →
      (cur < tg → w.bond.variant = tg ∧ w.rbit evBond 10 = true ∧ w.regGet 0x70040 = u.regGet 0x70040 + 1#32) ∧
      (tg < cur → below → hold ≤ u.bond.hold + 1 → w.bond.variant = tg ∧ w.rbit evBond 10 = true ∧ w.bond.hold = 0) ∧
      (tg < cur → below → u.bond.hold + 1 < hold → w.bond.variant = cur ∧ w.bond.hold = u.bond.hold + 1) ∧
      (tg < cur → ¬ below → w.bond.variant = cur ∧ w.bond.hold = 0) ∧
      (tg = cur → w.bond.variant = cur)) ∧
    (u.bond.signalLate = true → ∀ n, u.cheaper u.bond.variant = some n →
      n ≤ (u.selectVariant).bond.variant ∧ (u.selectVariant).bond.hold = 0) ∧
    ((u.vtarget u.course.speed.natAbs).2 = true → (u.selectVariant).bond.overspeed = true ∧ (u.selectVariant).rbit evBond 9 = true)) ∧
  (∀ (t : Nat) (h : Hdr) (s : State), let u := s.atHost h
    let y := s.to t
    (∀ d a, Carried s h (.graphSubmit d a) → u.hasDie d = true → (u.dieAt d).st ≠ .failed →
      let w := (u.eccRead (memKey (spLintel d) a) (u.graphBytes d a)).1
      let answers (v : State) (st : Nat) (bs : List Byte) : Prop :=
        exec (.graphSubmit h d a) s = .next (v.reply (packetOf h.tag h.client (.graphSubmit d a)) st bs)
      ((u.eccRead (memKey (spLintel d) a) (u.graphBytes d a)).2 = true → answers w 0x0203 []) ∧
      ((u.eccRead (memKey (spLintel d) a) (u.graphBytes d a)).2 = false →
        (w.graphParse d a = none → answers w 0x0106 []) ∧
        (∀ es, w.graphParse d a = some es →
          (∀ e ∈ es, e.slot = 0x3F ∨ (w.clientMask d).testBit e.slot = true) → w.shareFull d es.length = false →
          answers (w.enterGraph d h.client .client 0 0 none [] 0xFFFF es) 0 (leBytes 4 w.bond.nextGraph)))) ∧
    (∀ id g, Carried s h (.graphWait id) → u.bond.graphs.find? (fun g => g.id == id) = some g → (h.client = 15 ∨ h.client = g.client) →
      u.deferredCnt < 8 →
      ∃ v, exec (.graphWait h id) s = .next v ∧ v.bond = u.bond ∧
        v.sdio.deferred = u.sdio.deferred ++ [{ pkt := packetOf h.tag h.client (.graphWait id), at_ := u.now }]) ∧
    (∀ id k c ok other, Carried s h (.graphWait id) → u.bond.graphs.find? (fun g => g.id == id) = none →
      u.bond.finished.find? (fun f => f.1 == id) = some (k, c, ok, other) → (h.client = 15 ∨ h.client = c) →
      ∃ v, exec (.graphWait h id) s = .next v ∧ v.bond = u.bond ∧ Replied s v h (.graphWait id) 0 (leBytes 4 ok ++ leBytes 4 other)) ∧
    (∀ id mask signed len digest, Carried s h (.modelLoad id mask signed len digest) → (∀ d, d < 4 → mask.testBit d = true → u.hasDie d = true) →
      u.planRuns = false → len ≠ 0 → u.deferredCnt < 8 →
      ∃ v, exec (.modelLoad h id mask signed len digest) s = .next v ∧ v.deferredCnt = u.deferredCnt + 1 ∧
        v.sdio.models = u.sdio.models ∧ v.sdio.replies = u.sdio.replies) ∧
    (∀ id m, Carried s h (.modelUnload id) → u.sdio.models.find? (fun m => m.id == id) = some m → (h.client = 15 ∨ h.client = m.client) →
      u.planNames m.digest = false →
      ∃ v, exec (.modelUnload h id) s = .next v ∧ v.sdio.models = u.sdio.models.filter (fun m => m.id != id) ∧
        Replied s v h (.modelUnload id) 0 []) ∧
    (y.periodNow ≠ y.bond.periodStart → ∃ v, exec (.accountingPeriod t) s = .next v ∧ v.bond.used = [] ∧
      v.bond.periodStart = y.periodNow ∧ v.regGet 0x7005C = y.regGet 0x7005C + 1#32 ∧
      (∀ c, c < 15 → countOf v.bond.debt c = countOf y.bond.debt c + countOf y.bond.used c - 256 * y.rfld (0x70100 + 8 * c) 23 0) ∧
      v.bond.accounts = y.bond.accounts ∧ v.bond.graphs = y.bond.graphs) ∧
    (∀ c d, Carried s h (.accountRead c d) → (h.client = 15 ∨ h.client = c) → (4 ≤ d ∨ u.hasDie d = true) →
      ∃ v, exec (.accountRead h c d) s = .next v ∧ v.bond = u.bond ∧
        Replied s v h (.accountRead c d) 0 ((u.acctOf c d).words.flatMap (fun w => leBytes 4 w.toNat))) ∧
    (Written s h 0x7000C 2 → ∃ v, exec (.bondClearCounters h) s = .next v ∧ v.bond = { u.bond with accounts := [] } ∧
      ∀ a ∈ [0x70040, 0x70044, 0x70048, 0x7004C, 0x70054, 0x70058], v.regGet a = 0#32) ∧
    (∀ value : Word, value.toNat < 128 → Written s h 0x70060 value.toNat →
      ∃ v, exec (.bondAcctSel h value) s = .next v ∧
        ∀ i, i < 14 → v.regGet (0x70080 + 4 * i) = lget 0#32 (u.acctOf (fld value 3 0) (fld value 6 4)).words i))

/-- R38, R358, R361, R362, R369, R370: every counted edge of QUAD feedback, as the glitch filter passes the levels, moves the position by one count, an
illegal sample and a LOS are FEEDBACK faults; an SSI frame moves it by the difference of the readings, a bad frame keeps it; a base tick that is due ends
the rule round and runs, and at a sample an axis drives the command Plumb has passed, and counts one that it has not. -/
def Obligations.AxesFollowTheirFeedback : Prop :=
  ∀ (t ax : Nat) (s : State), let u := s.to t
    let x := u.axAt ax
    let sign (d : Int) : Int := if u.rbit (aAx ax) 17 then -d else d
    ax < 16 → ax < u.line.axis.length →
    (∀ la lb, u.axFb ax = 1 → let a := filterPass (u.rfld (aAx ax + 4) 31 24) u.now x.aAt x.a la
      let b := filterPass (u.rfld (aAx ax + 4) 31 24) u.now x.bAt x.b lb
      ((x.a = a ∨ x.b = b) → ∃ v, exec (.axisEncoderEdge t ax la lb) s = .next v ∧
        (v.axAt ax).pos = (match countedEdge 1 x.a x.b a b with | some d => x.pos + sign d | none => x.pos) ∧
        (v.axAt ax).a = a ∧ (v.axAt ax).b = b ∧ (v.axAt ax).st = x.st ∧ OnlyIn [.line] u v) ∧
      (x.a ≠ a → x.b ≠ b → x.st = .enabled →
        ∃ w : State, exec (.axisEncoderEdge t ax la lb) s = .next w.carCheck ∧ (w.axAt ax).st = .fault ∧ (w.axAt ax).cause = 1 ∧
          (w.axAt ax).pos = x.pos ∧ w.rbit evServo 5 = true ∧ w.rbit evServo 7 = true)) ∧
    (u.axFb ax = 1 → u.rbit (aAx ax + 4) 23 = true → x.st = .enabled →
      ∃ w : State, exec (.axisLos t ax) s = .next w.carCheck ∧ (w.axAt ax).st = .fault ∧ (w.axAt ax).cause = 1 ∧ w.rbit evServo 5 = true) ∧
    (u.axFb ax ≠ 1 ∨ u.rbit (aAx ax + 4) 23 = false →
      ∃ v, exec (.axisLos t ax) s = .next v ∧ (v.axAt ax).st = x.st ∧ (v.axAt ax).los = true ∧ OnlyIn [.line] u v) ∧
    (u.axFb ax = 2 → x.frame = true → ∀ reading, let bits := u.rfld (aAx ax + 4) 20 16 + 1
      let r := if u.rbit (aAx ax + 4) 22 then grayNum bits (reading % 2 ^ bits) else reading % 2 ^ bits
      (∀ p, x.ssi = some p → ∃ w : State, exec (.ssiFrameDone t ax true reading) s = .next w.carCheck ∧ (w.axAt ax).frame = false ∧
        (w.axAt ax).ssi = some r ∧ (w.axAt ax).fbFaults = 0 ∧ (w.axAt ax).pos = x.pos + sign (signedOf bits ((r + 2 ^ bits - p) % 2 ^ bits))) ∧
      (∃ w : State, exec (.ssiFrameDone t ax false reading) s = .next w.carCheck ∧ (w.axAt ax).frame = false ∧ (w.axAt ax).pos = x.pos ∧
        (w.axAt ax).fbFaults = x.fbFaults + 1 ∧ w.rbit evServo 5 = true)) ∧
    (∀ gpio adc, u.plumb.restart = none →
      (u.baseDue = true → exec (.baseTick t gpio adc) s = .next (u.ruleFinish.baseTick gpio adc).qpDrain) ∧
      (u.baseDue = false → exec (.baseTick t gpio adc) s = .next u)) ∧
    (∀ c, x.cmd = some c →
      (c.passed = true → ((u.axApply ax).axAt ax).out = c.val ∧ ((u.axApply ax).axAt ax).cmd = none) ∧
      (c.passed = false → ((u.axApply ax).axAt ax).out = x.out ∧ ((u.axApply ax).axAt ax).cmd = none ∧
        (u.axApply ax).rbit evServo 1 = true))

/-- R362, R366, R367: the instructions of a control law, each where the run stands at it, which writes its register and nothing else, and goes on to the
next; at the program's end f8, with a NaN taken as 0, is clamped to OUT_MIN and OUT_MAX and to the mode's limits and offered to Plumb. That a row where
the run does not stand changes nothing is the model's choice (log entry 91). -/
def Obligations.ControlLawsRun : Prop :=
  ∀ (t ax d a b c : Nat) (s : State), let u := s.to t
    let x := u.axAt ax
    let f (n : Nat) : Word := lget 0#32 x.f n
    let cut (w : Word) : Bool := flt w (u.regGet (aAx ax + 0x20)) || flt (u.regGet (aAx ax + 0x24)) w
    let stands (p : LawInstr → Bool) : Option LawInstr → Bool := fun o => o.any p
    let puts (i : Instr) (op a b c : Nat) (w : Word) : Prop :=
      let here := stands (fun j => j.used == { op := op, d := d, a := a, b := b, c := c }) (x.prog[x.lawPc]?)
      (here = true → exec i s = .next (u.updAx ax (fun _ => { x with f := lmod x.f d (fun _ => w), lawPc := x.lawPc + 1 }))) ∧
      (here = false → exec i s = .next u)
    (u.lawReady ax = true →
      puts (.servoFadd t ax d a b) 1 a b 0 (fadd .classT (f a) (f b)) ∧ puts (.servoFsub t ax d a b) 2 a b 0 (fsub .classT (f a) (f b)) ∧
      puts (.servoFmul t ax d a b) 3 a b 0 (fmul .classT (f a) (f b)) ∧
      puts (.servoFfma t ax d a b c) 4 a b c (ffma .classT (f a) (f b) (f c)) ∧
      puts (.servoFmin t ax d a b) 5 a b 0 (fmin (f a) (f b)) ∧ puts (.servoFmax t ax d a b) 6 a b 0 (fmax (f a) (f b)) ∧
      puts (.servoFabs t ax d a) 7 a 0 0 (fabs (f a)) ∧ puts (.fclamp t ax d a b c) 8 a b c (fclamp (f a) (f b) (f c)) ∧
      puts (.fsel t ax d a b c) 9 a b c (if fle 0#32 (f a) then f b else f c) ∧ puts (.ldk t ax d c) 10 0 0 c (lget 0#32 x.consts c) ∧
      puts (.servoRecip t ax d a) 11 a 0 0 (spRecip (f a)) ∧ puts (.servoRsqrt t ax d a) 12 a 0 0 (spRsqrt (f a)) ∧
      puts (.servoTanh t ax d a) 13 a 0 0 (spTanh (f a)) ∧
      exec (.controlLawRun t ax) s = .next ((u.each (lawText (x.prog.drop x.lawPc)) (fun s i => s.lawExec ax i)).lawOffer ax) ∧
      (stands (fun j => j.op != 0) (x.prog[x.lawPc]?) = true → exec (.servoEnd t ax) s = .next u) ∧
      (stands (fun j => j.op != 0) (x.prog[x.lawPc]?) = false →
        u.plumb.st ≠ .split → ax < 16 → ax < u.line.axis.length → ax < u.plumb.targets.length →
        let f8 := if isNan (f 8) then 0#32 else f 8
        let w := u.modeClamp ax (u.outClamp ax f8)
        ∃ v, exec (.servoEnd t ax) s = .next v ∧ (v.axAt ax).samp = false ∧ (v.axAt ax).f = x.f ∧ (v.targetAt ax).offered = some w ∧
          (v.axAt ax).cmd = some { val := w, passed := false, clamped := cut f8 })) ∧
    (u.lawReady ax = false → ∀ i ∈ [Instr.servoEnd t ax, .controlLawRun t ax, .servoFadd t ax d a b, .fsel t ax d a b c], exec i s = .next u)

/-- R358, R364, R366, R374, R390: the commands of the servo axes, the engine's EN, and the load of a control law. -/
def Obligations.AxisCommandsActOnTheirAxis : Prop :=
  ∀ (h : Hdr) (ax : Nat) (s : State), let u := s.atHost h
    let x := u.axAt ax
    ax < 16 → ax < u.line.axis.length →
    (Written s h 0x80010 (0x1000000 + ax) →
      (x.st = .disabled → u.axCfgErr ax = false → ∃ v, exec (.servoEnable h ax) s = .next v ∧ (v.axAt ax).st = .enabled ∧
        (v.axAt ax).out = 0#32 ∧ (v.axAt ax).anchor = .enable ∧ (v.axAt ax).pos = x.pos) ∧
      (x.st = .disabled → u.axCfgErr ax = true → ∃ v, exec (.servoEnable h ax) s = .next v ∧ v.line = u.line ∧ v.rbit evServo 8 = true) ∧
      (x.st ≠ .disabled → exec (.servoEnable h ax) s = .next (u.answered h 0x80010 (0x1000000 + ax)))) ∧
    (Written s h 0x80010 (0x2000000 + ax) → ∃ v, exec (.servoDisable h ax) s = .next v ∧ (v.axAt ax).out = 0#32 ∧
      (v.axAt ax).st = (if x.st = .enabled then .disabled else x.st) ∧ (v.axAt ax).cmd = none) ∧
    (Written s h 0x80010 (0x3000000 + ax) →
      (x.st = .fault → ∃ v, exec (.axisClearFault h ax) s = .next v ∧ (v.axAt ax).st = .disabled ∧ (v.axAt ax).cause = 0 ∧
        (v.axAt ax).out = 0#32) ∧
      (x.st ≠ .fault → exec (.axisClearFault h ax) s = .next (u.answered h 0x80010 (0x3000000 + ax)))) ∧
    (Written s h 0x80010 (0x4000000 + ax) →
      (x.st = .notHomed ∨ x.st = .disabled → ∃ v, exec (.home h ax) s = .next v ∧ (v.axAt ax).st = .disabled ∧
        (v.axAt ax).pos = u.rint (aAx ax + 0x28) ∧ (v.axAt ax).homed = true) ∧
      (x.st = .enabled ∨ x.st = .fault ∨ x.st = .off → exec (.home h ax) s = .next (u.answered h 0x80010 (0x4000000 + ax)))) ∧
    (Written s h 0x80010 (0x5000000 + ax) → ∃ v, exec (.resetState h ax) s = .next v ∧
      (∀ k, k < 48 → lget 0#32 (v.axAt ax).f (16 + k) = lget 0#32 x.inits k) ∧
      (∀ k, k < 16 → lget 0#32 (v.axAt ax).f k = lget 0#32 x.f k)) ∧
    (Written s h 0x80010 (0x6000000 + ax) → ∃ v, exec (.servoResync h ax) s = .next v ∧ (v.axAt ax).resyncNeeded = false ∧
      (v.axAt ax).anchor = (if x.st = .enabled then .resync else x.anchor)) ∧
    (∀ g, g < 8 → g < u.line.grp.length → Written s h 0x80010 (0x7000000 + g) → ∃ v, exec (.clearGroup h g) s = .next v ∧
      (v.axGrpAt g).j = 0#32 ∧ (v.axGrpAt g).implausible = false ∧ v.regGet (aGrpCfg g + 0xC) = 0#32) ∧
    (Written s h 0x80010 0x8000000 → ∃ v, exec (.servoClearCounters h) s = .next v ∧
      (∀ a, a < 16 → v.regGet (aAx a + 0x3C) = 0#32) ∧ v.line = u.line) ∧
    (u.addrLacks 0x80000 = false → u.restarting = false → u.planRuns = false →
      (Carried s h (.regModify 0x80000#32 1#32 1#32) → u.rbit 0x80000 0 = false →
        ∃ (w : State) (bytes : List Byte), w.line.running = true ∧ w.line.origin = u.now ∧ w.rbit 0x80000 0 = true ∧
          exec (.servoEnSet h) s = .next ((w.realign.carCheck.qpRecheck.raiseCfg u 8).reply
            (packetOf h.tag h.client (.regModify 0x80000#32 1#32 1#32)) 0 bytes)) ∧
      (Carried s h (.regModify 0x80000#32 1#32 0#32) → u.rbit 0x80000 0 = true →
        ∃ (w : State) (bytes : List Byte), w.line.running = false ∧ (w.axAt ax).st = .off ∧ (w.axAt ax).out = 0#32 ∧
          w.rbit 0x80000 0 = false ∧ exec (.servoEnClear h) s = .next ((w.carCheck.qpRecheck.raiseCfg u 8).reply
            (packetOf h.tag h.client (.regModify 0x80000#32 1#32 0#32)) 0 bytes))) ∧
    (∀ text consts inits, Carried s h (.servoProgLoad ax text consts inits) →
      (∀ l, x.st ≠ .enabled → text.mapM lawDecode = some l → ∃ v, exec (.servoProgLoad h ax text consts inits) s = .next v ∧
        (v.axAt ax).prog = l ∧ (v.axAt ax).consts = consts ∧ (v.axAt ax).inits = inits ∧ (v.axAt ax).st = x.st ∧
        Replied s v h (.servoProgLoad ax text consts inits) 0 []) ∧
      (x.st = .enabled → ∃ v, exec (.servoProgLoad h ax text consts inits) s = .next v ∧ v.line = u.line ∧
        Replied s v h (.servoProgLoad ax text consts inits) 0x0203 []))

/-- R379, R380, R383, R385 to R387, R393: a cycle that is due starts a solve with θ sampled; a solve that is done in time is accepted or falls back, one
past its deadline falls back; ENABLE admits a controller within the density; DISABLE, RESTART and CLEAR_COUNTERS; a problem is loaded by a bulk
transfer. -/
def Obligations.ControllersSolveAndFallBack : Prop :=
  ∀ (t c : Nat) (h : Hdr) (s : State), let u := s.to t
    let y := s.atHost h
    c < 8 → c < u.line.qp.length → c < y.line.qp.length →
    (u.qpDue c = true → exec (.qpCycleStart t c) s = .next (u.qpCycle c)) ∧
    (u.qpDue c = false → exec (.qpCycleStart t c) s = .next u) ∧
    (∀ p w th, u.qpDue c = true → u.qpRanges c = true → (u.qpAt c).st = .waiting → (u.qpAt c).prob = some p → (u.qpAt c).staged = none →
      (u.qpAt c).outs = none → (u.bump (aQp c + 0x1C)).thetaSample c p.theta = (w, th, false) →
      ∃ v, exec (.qpCycleStart t c) s = .next v ∧ (v.qpAt c).st = .solving ∧ (v.qpAt c).theta = th ∧
        (v.qpAt c).begun = some u.baseTickAt ∧ (v.qpAt c).startSp = u.sp ∧ v.regGet (aQp c + 0x1C) = u.regGet (aQp c + 0x1C) + 1#32) ∧
    (∀ p, (u.qpAt c).prob = some p →
      (u.qpSolving c false = true → exec (.qpSolveDone t c) s = .next (u.qpSolve c p)) ∧
      (u.qpSolving c false = false → exec (.qpSolveDone t c) s = .next u)) ∧
    (u.qpSolving c true = true → exec (.qpDeadline t c) s = .next ((u.qpTime c).qpFails c 1 0)) ∧
    (∀ o flags, ((u.qpFails c o flags).qpAt c).outcome = o ∧ ((u.qpFails c o flags).qpAt c).fallbacks = (u.qpAt c).fallbacks + 1 ∧
      ((u.qpFails c o flags).qpAt c).st = (if u.rfld (aQp c + 0x10) 31 24 < (u.qpAt c).fallbacks + 1 then .failed else .waiting) ∧
      (u.qpFails c o flags).rbit evQp (qpEventOf o) = true) ∧
    (Written s h 0x90010 (0x1000000 + c) → (y.qpAt c).st = .off → ∀ p, (y.qpAt c).prob = some p →
      let q := y.qpDensity (((List.range 8).filter y.qpOn) ++ [c])
      (y.qpRanges c = true → q.1 ≤ q.2 → ∃ v, exec (.qpEnable h c) s = .next v ∧ (v.qpAt c).st = .waiting ∧ (v.qpAt c).fallbacks = 0 ∧
        (v.qpAt c).warm = none ∧ (v.qpAt c).prob = some p) ∧
      (y.qpRanges c = true → q.2 < q.1 → ∃ v, exec (.qpEnable h c) s = .next v ∧ v.line = y.line ∧ v.rbit evQp 9 = true) ∧
      (y.qpRanges c = false → ∃ v, exec (.qpEnable h c) s = .next v ∧ (v.qpAt c).st = .off ∧ v.line.qpCfgErr = true ∧
        v.rbit evQp 9 = true)) ∧
    (Written s h 0x90010 (0x2000000 + c) →
      ((y.qpAt c).st ≠ .off → ∃ v, exec (.qpDisable h c) s = .next v ∧ (v.qpAt c).st = .off ∧ (v.qpAt c).outcome = 6 ∧
        ∀ p, (y.qpAt c).prob = some p → (v.qpAt c).outs = some (p.outs.map (·.fallback))) ∧
      ((y.qpAt c).st = .off → exec (.qpDisable h c) s = .next (y.answered h 0x90010 (0x2000000 + c)))) ∧
    (Written s h 0x90010 (0x3000000 + c) →
      ((y.qpAt c).st = .failed → ∃ v, exec (.qpRestart h c) s = .next v ∧ (v.qpAt c).st = .waiting ∧ (v.qpAt c).fallbacks = 0 ∧
        (v.qpAt c).warm = none) ∧
      ((y.qpAt c).st ≠ .failed → exec (.qpRestart h c) s = .next (y.answered h 0x90010 (0x3000000 + c)))) ∧
    (Written s h 0x90010 (0x4000000 + c) → ∃ v, exec (.qpClearCounters h c) s = .next v ∧
      (∀ o ∈ [0x1C, 0x24, 0x28], v.regGet (aQp c + o) = 0#32) ∧ v.line = y.line) ∧
    (∀ len, Carried s h (.qpLoad c len) → len ≠ 0 → y.deferredCnt < 8 → ∃ v, exec (.qpLoad h c len) s = .next v ∧
      v.deferredCnt = y.deferredCnt + 1 ∧ v.line = y.line ∧ v.sdio.replies = y.sdio.replies)

/-- R398 to R401, R418, R425: a request the planner takes waits in the queue of its carriage, or ends at once: UNAVAILABLE, LATE, or QUEUE_FULL; POST
gives its slot the value; CANCEL ends a request that waits behind the head; a BAD request is counted, raised and ends. The host's requests wait for a
base tick; FLUSH ends the requests behind the head. -/
def Obligations.MotionRequestsAreTaken : Prop :=
  ∀ (t : Nat) (r : Req) (h : Hdr) (s : State), let u := s.to t
    let y := s.atHost h
    let c := r.carriage
    let k := u.carAt c
    let p : Req := { r with taken := u.now, pair := 255, wid := u.line.reqs + 1, bad := false }
    let pb : Req := { r with taken := u.now, pair := 255, wid := u.line.reqs + 1, bad := true }
    let rows : List (Instr × Nat) := [(.goto t r, 1), (.markReq t r, 2), (.cut t r, 3), (.park t r, 4)]
    let live := k.st ≠ .off ∧ k.st ≠ .unavailable
    let late := markKind r = true ∧ u.spx p ≤ u.sp
    let posted : List Req → Line := fun rs => { y.line with hostReqs := y.line.hostReqs ++ rs }
    u.motionRuns = true → c < u.line.car.length →
    (reqIsBad r = false →
      (∀ x ∈ rows, r.kind = x.2 →
        (live → ¬ late → k.queue.length < 32 → ∃ v, exec x.1 s = .next v ∧ (v.carAt c).queue = k.queue ++ [p] ∧
          (v.carAt c).st = k.st ∧ v.regGet 0xA0060 = u.regGet 0xA0060 + 1#32) ∧
        (¬ live → ∃ w : State, exec x.1 s = .next (w.endReq p 3 u.sp) ∧ (w.carAt c).queue = k.queue) ∧
        (live → late → ∃ w : State, exec x.1 s = .next (w.endReq p 4 u.sp) ∧ (w.carAt c).queue = k.queue) ∧
        (live → ¬ late → 32 ≤ k.queue.length → ∃ w : State, exec x.1 s = .next (w.endReq p 7 u.sp) ∧
          (w.carAt c).queue = k.queue ∧ w.rbit evMotion 10 = true)) ∧
      (r.kind = 5 → ∃ v, exec (.post t r) s = .next v ∧ v.regGet (0x81000 + 4 * r.slot) = r.aux ∧ v.line.car = u.line.car) ∧
      (r.kind = 6 →
        (∀ hd q x, k.queue = hd :: q → q.find? (fun y => y.id == r.id) = some x →
          ∃ w : State, exec (.cancel t r) s = .next (w.endReq x 8 u.sp) ∧ (w.carAt c).queue = hd :: q.erase x) ∧
        (k.queue = [] ∨ (∀ y ∈ k.queue.drop 1, y.id ≠ r.id) → ∃ v, exec (.cancel t r) s = .next v ∧ v.line.car = u.line.car))) ∧
    (reqIsBad r = true → ∃ w : State, exec (.reqBad t r) s = .next (w.endReq pb 10 u.sp) ∧
      w.rbit evMotion 12 = true ∧ w.rfld 0xA0074 31 16 = satAdd 16 (u.rfld 0xA0074 31 16) 1 ∧ w.line.car = u.line.car) ∧
    ((∀ reqs, Carried s h (.motionPost reqs) → ∃ v, exec (.motionPost h reqs) s = .next v ∧
        v.line = posted reqs ∧ Replied s v h (.motionPost reqs) 0 (leBytes 4 reqs.length)) ∧
      (∀ car, car < 8 → Written s h 0xA0010 (0x2000000 + car) →
        exec (.flush h car) s = .next ((y.endQueued car 8 1).answered h 0xA0010 (0x2000000 + car))))

/-- R401, R405, R409, R414 to R417, R422, R425: a batch starts for the carriage to be served; at its end the best candidate is committed, or rechecked
where the map has changed, or the plan fails; a batch past its time is abandoned; a braked carriage is idle, and a GOTO or PARK ends after its settle
time. A publish turns the two maps round and looks at every trajectory again; the held map is copied; map loads wait for their bulk transfers and are
BUSY while the shadow is held. -/
def Obligations.BatchesCommitAndMapsArePublished : Prop :=
  ∀ (t c : Nat) (h : Hdr) (s : State), let u := s.to t
    let y := s.atHost h
    c < 8 → c < u.line.car.length →
    (u.batchMayStart c = true → ∀ r q, (u.carAt c).queue = r :: q →
      ∃ v b, exec (.planBatch t c) s = .next v ∧ v.line.batch = some b ∧ b.car = c ∧ b.start = u.now ∧ b.ts = u.tsNow c ∧
        b.ticks = u.batchTicks c ∧ b.recheck = false ∧ b.cands = u.candidates r (u.tsNow c) ∧ b.replan = (u.carAt c).committed) ∧
    (u.batchMayStart c = false → exec (.planBatch t c) s = .next u) ∧
    (∀ b, u.line.batch = some b → b.car = c →
      (b.recheck = false → b.start + b.ticks ≤ u.now → u.now < b.ts →
        (b.cands = [] → exec (.batchEnd t) s = .next ((u.batchUs b).planFails b 1)) ∧
        (∀ x l r q, b.cands = x :: l → u.changedIn b.version x.box = false → (u.carAt c).queue = r :: q →
          ∃ w : State, exec (.batchEnd t) s = .next ((w.watchKick 7 r.wid).watchRef 8 c) ∧ (w.carAt c).traj = some x.traj ∧
            (w.carAt c).committed = true ∧ (w.carAt c).st = .moving ∧ w.line.batch = none) ∧
        (∀ x l, b.cands = x :: l → u.changedIn b.version x.box = true →
          ∃ v b', exec (.batchEnd t) s = .next v ∧ v.line.batch = some b' ∧ b'.recheck = true ∧ b'.version = u.line.version ∧
            b'.start = u.now ∧ v.line.car = u.line.car ∧ v.rbit evMotion 7 = true)) ∧
      (b.recheck = true → b.start + b.ticks ≤ u.now → u.now < b.ts →
        (∀ x l r q, b.cands = x :: l → u.changedIn b.version x.box = false → (u.carAt c).queue = r :: q →
          ∃ w : State, exec (.recheckDone t) s = .next ((w.watchKick 7 r.wid).watchRef 8 c) ∧ (w.carAt c).traj = some x.traj ∧
            (w.carAt c).committed = true ∧ (w.carAt c).st = .moving ∧ w.line.batch = none) ∧
        (b.cands = [] → exec (.recheckDone t) s = .next (u.planFails b 2))) ∧
      (b.ts ≤ u.now → exec (.planTimeout t c) s = .next (u.planFails b 2)) ∧
      (b.replan = true → ∀ out, u.planFails b out = u.updLine (fun l => { l with batch := none }))) ∧
    (∀ j, (u.carAt c).traj = some j →
      ((u.carAt c).st = .braking → j.arrive ≤ u.now → ∃ v, exec (.brakeDone t c) s = .next v ∧ (v.carAt c).st = .idle ∧
        (v.carAt c).traj = none ∧ (v.carAt c).committed = false ∧ (v.carAt c).queue = (u.carAt c).queue ∧ OnlyIn [.line] u v) ∧
      (∀ r q, (u.carAt c).queue = r :: q → (u.carAt c).committed = true → markKind r = false → (u.carAt c).st = .moving →
        j.arrive + u.settleTicks ≤ u.now → exec (.settleEnd t c) s =
          .next ((u.endHead c (if u.inTol c j.target then 0 else 5) u.sp).updCar c (fun k => { k with traj := none, st := .idle })))) ∧
    (∀ n, u.line.held = some n → u.line.batch = none → ∃ v, exec (.shadowCopyDone t) s = .next v ∧ v.line.held = none ∧
      v.line.occT0Shadow = u.line.occT0 ∧
      ∀ k, k < 2 ^ 21 → v.ldB (memKey (spSdf u.mapShadow) k) = u.ldB (memKey (spSdf u.line.mapFront) k)) ∧
    (∃ w : State, y.mapPublish = w.each (List.range 8) State.revalidate ∧ w.line.version = y.line.version + 1 ∧
      w.line.mapFront = 1 - y.line.mapFront ∧ w.line.held = some y.line.version ∧ w.line.pendBox = none) ∧
    (Written s h 0xA0010 0x1000000 → exec (.publish h) s = .next (y.mapPublish.answered h 0xA0010 0x1000000)) ∧
    (Carried s h .mapPublish → exec (.mapPublish h) s =
      .next (y.mapPublish.reply (packetOf h.tag h.client .mapPublish) 0 (leBytes 4 y.mapPublish.line.version))) ∧
    (∀ box len, Carried s h (.sdfLoad box len) → len ≠ 0 →
      (y.line.held = none → y.deferredCnt < 8 → ∃ v, exec (.sdfLoad h box len) s = .next v ∧ v.deferredCnt = y.deferredCnt + 1 ∧
        v.mem = y.mem ∧ v.line = y.line) ∧
      (y.line.held ≠ none → ∃ v, exec (.sdfLoad h box len) s = .next v ∧ v.rbit evMotion 0 = true ∧ v.line = y.line ∧
        Replied s v h (.sdfLoad box len) 0x0401 [])) ∧
    (∀ t0 first last len, Carried s h (.occLoad t0 first last len) → len ≠ 0 → y.line.held = none → y.deferredCnt < 8 →
      ∃ v, exec (.occLoad h t0 first last len) s = .next v ∧ v.deferredCnt = y.deferredCnt + 1 ∧ v.mem = y.mem ∧ v.line = y.line) ∧
    (Written s h 0xA0010 0x3000000 → ∃ v, exec (.motionClearCounters h) s = .next v ∧
      (∀ a ∈ [0xA0060, 0xA0064, 0xA0068, 0xA006C, 0xA0074], v.regGet a = 0#32) ∧ v.line = y.line)

/-- R439, R440, R441: a rule instruction that is the one at which the round in progress, or the round now due, stands, gives gd its result and changes
nothing else of the round; SKIPZ passes over the next instructions, END ends the program; PERMIT, DENY and SUBST add to the verdict of a judged target,
of several DENY and several SUBST the first stands; SAFE asks for the safe state, NOTE raises RULE_NOTE and logs its code. The round then stands at the
next instruction of the program, at the first of the next program with its registers at 0, or is complete. That an instruction row runs only the
standing instruction is the model's choice (log entry 91). R438: a rule image whose digest is right and which the checks pass is in service at once where
no plan runs, and staged for the next round boundary while one runs; in FAILED it only replaces the stored image; a split part answers SAFETY_SPLIT, a
wrong digest is refused; an image the checks refuse leaves the one in service. -/
def Obligations.RuleProgramsAndImages : Prop :=
  (∀ (t gd ga gb sel n tg code : Nat) (imm : Word) (s : State), let u := s.to t
    let b := if u.roundDue = true then u.roundBegin u.roundStart else u
    let p := b.plumb
    let x : BitVec 64 := lget 0#64 p.g ga
    let y : BitVec 64 := lget 0#64 p.g gb
    let ofInt (z : Int) : BitVec 64 := BitVec.ofInt 64 (max (-(2 ^ 63)) (min (2 ^ 63 - 1) z))
    let ofF (w : Word) : BitVec 64 := BitVec.ofNat 64 w.toNat
    let ofB (c : Prop) [Decidable c] : BitVec 64 := if c then 1#64 else 0#64
    let fx : Word := x.truncate 32
    let fy : Word := y.truncate 32
    let w (op gd ga gb : Nat) (imm : Word) : RuleInstr := { op := op, gd := gd, ga := ga, gb := gb, imm := imm }
    let put (v : BitVec 64) : State := b.updPlumb (fun p => { p with g := lmod p.g gd (fun _ => v) })
    let old : Verdict := lget {} p.verdicts tg
    let give (v : Verdict) : State :=
      if b.isTarget tg = true ∧ (tg < 24 → p.judge.contains tg = true) then
        b.updPlumb (fun p => { p with verdicts := lmod p.verdicts tg (fun _ => v) }) else b
    let rows : List (Instr × RuleInstr × State) := [(.ruleIn t gd sel, w 1 gd 0 0 (wordOf sel), put (p.input sel)),
      (.ruleKi t gd imm, w 2 gd 0 0 imm, put (BitVec.ofInt 64 imm.toInt)), (.ruleKf t gd imm, w 3 gd 0 0 imm, put (ofF imm)),
      (.ruleAdd t gd ga gb, w 4 gd ga gb 0#32, put (ofInt (x.toInt + y.toInt))),
      (.ruleSub t gd ga gb, w 5 gd ga gb 0#32, put (ofInt (x.toInt - y.toInt))),
      (.ruleMul t gd ga gb, w 6 gd ga gb 0#32, put (ofInt (x.toInt * y.toInt))),
      (.ruleFadd t gd ga gb, w 7 gd ga gb 0#32, put (ofF (fadd .classT fx fy))),
      (.ruleFsub t gd ga gb, w 8 gd ga gb 0#32, put (ofF (fsub .classT fx fy))),
      (.ruleFmul t gd ga gb, w 9 gd ga gb 0#32, put (ofF (fmul .classT fx fy))),
      (.ruleAbs t gd ga, w 10 gd ga 0 0#32, put (ofInt (if x.toInt < 0 then -x.toInt else x.toInt))),
      (.ruleFabs t gd ga, w 11 gd ga 0 0#32, put (ofF (fabs fx))),
      (.ruleLt t gd ga gb, w 12 gd ga gb 0#32, put (ofB (x.toInt < y.toInt))),
      (.ruleLe t gd ga gb, w 13 gd ga gb 0#32, put (ofB (x.toInt ≤ y.toInt))),
      (.ruleEq t gd ga gb, w 14 gd ga gb 0#32, put (ofB (x = y))),
      (.ruleFlt t gd ga gb, w 15 gd ga gb 0#32, put (ofB (flt fx fy = true))),
      (.ruleFle t gd ga gb, w 16 gd ga gb 0#32, put (ofB (fle fx fy = true))),
      (.ruleAnd t gd ga gb, w 17 gd ga gb 0#32, put (ofB (x ≠ 0#64 ∧ y ≠ 0#64))),
      (.ruleOr t gd ga gb, w 18 gd ga gb 0#32, put (ofB (x ≠ 0#64 ∨ y ≠ 0#64))),
      (.ruleNot t gd ga, w 19 gd ga 0 0#32, put (ofB (x = 0#64))),
      (.ruleEnd t, w 0 0 0 0 0#32, b.updPlumb (fun p => { p with ended := true })),
      (.ruleSkipz t ga n, w 20 0 ga 0 (wordOf n), if x = 0#64 then b.updPlumb (fun p => { p with skip := n }) else b),
      (.rulePermit t tg, w 21 0 0 0 (wordOf tg), give { permit := true, deny := old.deny, subst := old.subst }),
      (.ruleDeny t tg code, w 22 0 0 0 (wordOf (256 * code + tg)),
        give { permit := old.permit, deny := (match old.deny with | some c => some c | none => some code), subst := old.subst }),
      (.ruleSubst t ga tg, w 23 0 ga 0 (wordOf tg), if tg < 24 then
        give { permit := old.permit, deny := old.deny, subst := (match old.subst with | some v => some v | none => some fx) } else b),
      (.ruleSafe t code, w 24 0 0 0 (wordOf code),
        b.updPlumb (fun p => { p with safeReq := (match p.safeReq with | some c => some c | none => some code) })),
      (.ruleNote t code, w 25 0 0 0 (wordOf code), b.noteCode code)]
    sel < 65536 → tg < 80 → code < 256 → n < 256 →
    (∀ r ∈ rows, ∀ j is ps, p.left = some ((j :: is) :: ps) → b.rulesRun = true → j.used = r.2.1 → p.ended = false → p.skip = 0 →
      exec r.1 s = .next (r.2.2.ruleNext is ps)) ∧
    (∀ r ∈ rows, (∀ j is ps, p.left = some ((j :: is) :: ps) → b.rulesRun = true → j.used ≠ r.2.1) → exec r.1 s = .next u) ∧
    (b.noteCode code).rbit evPlumb 0 = true ∧ (b.noteCode code).plumb = p ∧ .event 11 0 code b.time64 ∈ (b.noteCode code).sdio.evLog) ∧
  (∀ (z : State) (is : List RuleInstr) (ps : List (List RuleInstr)),
    (∀ j l, z.plumb.ended = false → is.drop z.plumb.skip = j :: l →
      z.ruleNext is ps = z.updPlumb (fun p => { p with skip := 0, left := some ((j :: l) :: ps) })) ∧
    (z.plumb.ended = true ∨ is.length ≤ z.plumb.skip →
      (ps ≠ [] → z.ruleNext is ps =
        z.updPlumb (fun p => { p with g := List.replicate 16 0, skip := 0, ended := false, left := some ps })) ∧
      (ps = [] → z.ruleNext is ps = (z.updPlumb (fun p => { p with skip := 0, left := some [[]] })).ruleFinish))) ∧
  (∀ (h : Hdr) (digest img : List Byte) (s : State), let u := s.atHost h
    let c : HostCmd := .ruleLoad digest img
    Carried s h c → img ≠ [] →
    (u.plumb.st = .split → ∃ v, exec (.ruleLoad h digest img) s = .next v ∧ Replied s v h c 0x0602 [] ∧ v.plumb = u.plumb) ∧
    (u.plumb.st ≠ .split → sha512 img ≠ digest → ∃ v, exec (.ruleLoad h digest img) s = .next v ∧ Replied s v h c 0x0208 [] ∧ v.plumb = u.plumb) ∧
    (u.plumb.st ≠ .split → sha512 img = digest →
      (∀ e, ruleParse img digest = .error e → ∃ v, exec (.ruleLoad h digest img) s = .next v ∧ Replied s v h c e [] ∧ v.plumb = u.plumb) ∧
      (∀ r, ruleParse img digest = .ok r → ∃ v, exec (.ruleLoad h digest img) s = .next v ∧ Replied s v h c 0 [] ∧
        (u.plumb.st = .failed → v.plumb.stored = some r ∧ v.plumb.image = u.plumb.image ∧ v.plumb.staged = u.plumb.staged) ∧
        (u.plumb.st ≠ .failed → u.planRuns = true → v.plumb.staged = some r ∧ v.plumb.image = u.plumb.image) ∧
        (u.plumb.st ≠ .failed → u.planRuns = false → v.plumb.image = some r ∧ v.plumb.stored = some r ∧ v.plumb.staged = none))) ∧
    (∀ r, ruleParse img digest = .ok r → r.enabled ≤ 700 ∧ r.programs.length ≤ 16 ∧ ∀ p ∈ r.programs, p.2.length ≤ 256))

/-- R430, R436, R439, R441 to R443, R453: a round starts every 12.5 µs; at its boundary the round count advances, SAFE_OK_A and SAFE_OK_B change over while
Plumb serves and are low otherwise, and verdicts are formed anew; then the inputs that the enabled programs read are latched, with the value targets
that have a value offered, and the programs run in increasing number, each from registers at 0; a SAFE among them enters the safe state. Where single
instructions have begun the round, PLUMB_ROUND completes it (the model's choice, log entry 91). A denial is counted with its code and leaves the value last
applied; the DENY_LIMIT-th denial in a row takes the target to fallback. -/
def Obligations.RoundsStartAndDenialsCount : Prop :=
  ∀ (t : Nat) (s : State), let u := s.to t
    let b := u.boundary
    let z := u.latchRound
    let serves := u.plumb.st = .healthy ∨ u.plumb.st = .resync ∨ u.plumb.st = .safeRestart ∨ u.plumb.st = .lockout
    (u.mgmt.refclk = true → u.plumb.roundAt + 6250 ≤ u.now →
      exec (.plumbRound t) s = .next (u.roundAt (u.now - (u.now - u.plumb.roundAt) % 6250))) ∧
    (u.mgmt.refclk = false ∨ u.now < u.plumb.roundAt + 6250 →
      exec (.plumbRound t) s = .next u.ruleFinish ∧ (u.plumb.left = none → exec (.plumbRound t) s = .next u)) ∧
    (∀ a, ∃ w : State, u.roundAt a = w.ruleFinish ∧ w.plumb.roundAt = a ∧ w.plumb.g = List.replicate 16 0 ∧ w.plumb.skip = 0 ∧
      w.plumb.ended = false ∧ w.plumb.left = some (if w.rulesRun = true then w.ruleTexts else [])) ∧
    (∀ l, u.plumb.left = some l →
      (u.rulesRun = false ∨ l = [] → u.ruleFinish = (u.updPlumb (fun p => { p with left := none })).formVerdicts) ∧
      (∀ p ps, l = p :: ps → u.rulesRun = true → u.ruleFinish = (((u.updPlumb (fun p => { p with left := none })).each p State.ruleExec).each ps
        (fun v q => v.ruleStart.each q State.ruleExec)).formVerdicts)) ∧
    (∀ code, u.plumb.safeReq = some code → ∃ w : State, u.formVerdicts = w.safeTrigger 4 code) ∧
    (∀ img, u.plumb.image = some img → ∀ pr ∈ img.programs, pr.1 = true → ∀ i ∈ pr.2, i.op = 1 → ∀ sel, sel = i.imm.toNat % 65536 →
      z.plumb.input sel = u.ruleIn sel) ∧
    (∀ tg, z.plumb.judge.contains tg = true ↔ tg < 24 ∧ (u.targetAt tg).offered ≠ none) ∧ OnlyIn [.plumb] u z ∧
    b.regGet 0xB0014 = u.regGet 0xB0014 + 1#32 ∧ b.plumb.verdicts = List.replicate 80 {} ∧ b.plumb.safeReq = none ∧
    b.plumb.asserts = u.plumb.assertsNow ∧ b.plumb.assertsNow = List.replicate 24 0 ∧ b.plumb.resyncLeft = u.plumb.resyncLeft - 1 ∧
    (u.plumb.st = .resync → u.plumb.resyncLeft ≤ 1 → b.plumb.st = .healthy) ∧ (u.plumb.st ≠ .resync → b.plumb.st = u.plumb.st) ∧
    (serves → (b.plumb.okA = !u.plumb.okA) ∧ b.plumb.okB = u.plumb.okA) ∧ (¬ serves → b.plumb.okA = false ∧ b.plumb.okB = false) ∧
    (∀ tg c, tg < 24 → tg < u.plumb.targets.length →
      let lim := u.rfld (0xB1000 + 8 * tg) 23 16
      let v := u.denied tg c
      v.regGet 0xB0034 = u.regGet 0xB0034 + 1#32 ∧ (v.targetAt tg).denials = (u.targetAt tg).denials + 1 ∧ (v.targetAt tg).lastCode = c ∧
      (lim = 0 ∨ (u.targetAt tg).denials + 1 < lim → (v.targetAt tg).inFallback = (u.targetAt tg).inFallback) ∧
      (lim ≠ 0 → lim ≤ (u.targetAt tg).denials + 1 → (v.targetAt tg).inFallback = true ∧ (v.targetAt tg).byDeny = true ∧ v.rbit evPlumb 3 = true))

/-- R441: of the instructions executed on a line target in a round, the verdict holds whether PERMIT was executed, the code of the first DENY and the
first substitute; those on a value target with no value offered when the round began have no effect. A value target is denied where DENY was executed, with that code;
otherwise it takes the substitute, or is denied where that is NaN; otherwise it takes its value where PERMIT was executed; otherwise it is denied with
code 0. The permit bit of a permit target is set where PERMIT was executed and DENY was not. Without a rule image in service and RULES_EN every target
is in fallback. -/
def Obligations.VerdictsAreFormed : Prop :=
  ∀ (tg : Nat) (l : List RuleInstr) (s : State), tg < 80 → 80 ≤ s.plumb.targets.length → s.plumb.verdicts.length = 80 →
    (let v := s.each l State.ruleExec
     let x : Verdict := lget {} v.plumb.verdicts tg
     let on (op : Nat) : List RuleInstr := l.filter (fun i => i.op == op && i.imm.toNat % 128 == tg)
     s.plumb.ended = false → s.plumb.skip = 0 → lget {} s.plumb.verdicts tg = {} → (∀ i ∈ l, i.op = 0x15 ∨ i.op = 0x16 ∨ i.op = 0x17) →
      (s.isTarget tg = true → (tg < 24 → s.plumb.judge.contains tg = true) →
        x.permit = !(on 0x15).isEmpty ∧ x.deny = (on 0x16).head?.map (fun i => i.imm.toNat / 256 % 256) ∧
        (tg < 24 → x.subst = (on 0x17).head?.map (fun i => (lget 0#64 s.plumb.g i.ga).truncate 32))) ∧
      (s.isTarget tg = false ∨ (tg < 24 ∧ s.plumb.judge.contains tg = false) → x = {}) ∧
      v.plumb.targets = s.plumb.targets ∧ OnlyIn [.plumb] s v) ∧
    (let x : Verdict := lget {} s.plumb.verdicts tg
     let taken := s.updTarget tg (fun y => { y with offered := none })
     (s.plumb.judge.contains tg = false → s.valueVerdict tg = s) ∧
     ∀ w, s.plumb.judge.contains tg = true → tg < 24 → (s.targetAt tg).offered = some w →
      ((s.targetAt tg).inFallback = true → (s.targetAt tg).releasing = false → s.valueVerdict tg = taken) ∧
      ((s.targetAt tg).inFallback = false →
        (∀ c, x.deny = some c → s.valueVerdict tg = taken.denied tg c) ∧
        (x.deny = none → ∀ z, x.subst = some z → s.valueVerdict tg = if isNan z then taken.denied tg 0 else taken.valuePass tg z) ∧
        (x.deny = none → x.subst = none → s.valueVerdict tg = if x.permit = true then taken.valuePass tg w else taken.denied tg 0))) ∧
    (24 ≤ tg → s.plumb.st ≠ .split → let x : Verdict := lget {} s.plumb.verdicts tg
      (s.judging = true → (s.boundary.targetAt tg).permit = (x.permit && x.deny.isNone)) ∧
      (s.judging = true → (s.targetAt tg).inFallback = false →
        (s.boundary.targetAt tg).inFallback = false ∧ (s.boundary.targetAt tg).level = (s.targetAt tg).level)) ∧
    (s.judging = false → s.isTarget tg = true → (s.gateStep.targetAt tg).inFallback = true)

/-- R445: each violation of a window advances the stage's LATE or EARLY count and its CONSEC count; a watch closed within its window returns CONSEC to 0.
At LIMIT violations in a row and more STAGE_VIOLATION is raised and the ACTION taken each time, which leaves CONSEC; below LIMIT only the counts
advance. A watch whose close has come is LATE. LOG does no more, SAFE enters the safe state with cause WATCHDOG, PAIR_RESTART restarts the die pair of
the watch in stages 3 to 6 and is SAFE elsewhere, the reserved ACTION is SAFE; an action that meets its own restart is absorbed. -/
def Obligations.WindowViolationsTakeTheirAction : Prop :=
  ∀ (t stage id : Nat) (s : State), let u := s.to t
    1 ≤ stage → stage ≤ 8 → stage - 1 < u.plumb.stages.length →
    (∀ late ticks d, let n := (u.stageAt (stage - 1)).consec + 1
      let lim := max 1 (u.rfld (aWd stage) 29 24)
      let v := u.violation stage late ticks d
      (n < lim → (v.stageAt (stage - 1)).consec = n ∧ OnlyIn [.plumb, .regs] u v ∧
        v.rfld (aWd stage + 8) 31 16 = (if late = true then satAdd 16 (u.rfld (aWd stage + 8) 31 16) 1 else u.rfld (aWd stage + 8) 31 16) ∧
        v.rfld (aWd stage + 8) 15 0 = (if late = true then u.rfld (aWd stage + 8) 15 0 else satAdd 16 (u.rfld (aWd stage + 8) 15 0) 1)) ∧
      (lim ≤ n → ∃ w : State, v = w.stageAction (u.rfld (aWd stage) 31 30) (if 3 ≤ stage ∧ stage ≤ 6 then d else none) 5 stage ∧
        w.rbit evPlumb 5 = true ∧ (w.stageAt (stage - 1)).consec = n ∧
        w.rfld (aWd stage + 8) 31 16 = (if late = true then satAdd 16 (u.rfld (aWd stage + 8) 31 16) 1 else u.rfld (aWd stage + 8) 31 16) ∧
        w.rfld (aWd stage + 8) 15 0 = (if late = true then u.rfld (aWd stage + 8) 15 0 else satAdd 16 (u.rfld (aWd stage + 8) 15 0) 1))) ∧
    (∀ w, (u.stageAt (stage - 1)).watches.find? (fun w => w.id == id && w.inj != 1) = some w → u.now ≤ w.closes →
      500 * u.rfld (aWd stage) 23 0 ≤ u.now - w.opened → ((u.watchKick stage id).stageAt (stage - 1)).consec = 0 ∧
        ((u.watchKick stage id).stageAt (stage - 1)).watches = (u.stageAt (stage - 1)).watches.erase w ∧
        OnlyIn [.plumb, .regs] u (u.watchKick stage id)) ∧
    (∀ w, (u.stageAt (stage - 1)).watches.find? (fun w => decide (w.closes ≤ u.now)) = some w →
      ∃ w0 : State, exec (.watchClose t stage) s = .next (w0.violation stage true (u.now - w.opened) (u.watchDie stage w.id)) ∧
        (w0.stageAt (stage - 1)).watches = (u.stageAt (stage - 1)).watches.erase w ∧
        (w0.stageAt (stage - 1)).consec = (u.stageAt (stage - 1)).consec ∧ OnlyIn [.plumb] u w0) ∧
    ((∀ w ∈ (u.stageAt (stage - 1)).watches, u.now < w.closes) → exec (.watchClose t stage) s = .next u) ∧
    (∀ d cause code, u.stageAction 0 d cause code = u ∧ u.stageAction 1 d cause code = u.safeTrigger cause code ∧
      u.stageAction 3 d cause code = u.safeTrigger cause code ∧ u.stageAction 2 none cause code = u.safeTrigger cause code ∧
      (∀ p, u.stageAction 2 (some p) cause code = u.pairRestart p ∧
        (u.restarting = true ∨ (u.dieAt p).st = .restarting → u.pairRestart p = u)))

/-- R447, R448: a Keystone result within its tolerances passes and returns the mismatches in a row of its die pair to 0, another result is a mismatch; a
graph past its window is MISSING, which counts as one, and its late result is dropped. A mismatch of the graph of the first Keystone frame after an epoch
switch is EPOCH_FAULT where EN is set, and rolls the epoch back instead; every other one counts in a row, up to the limit and its action. -/
def Obligations.KeystoneResultsAreCompared : Prop :=
  ∀ (t die : Nat) (s : State), let u := s.to t
    let taken := u.updBond (fun b => { b with ksPending := none })
    (∀ p, u.bond.plan = some p → die < u.plumb.ksLast.length → die < u.plumb.ksRow.length →
      (∀ g, u.bond.ksPending = some (die, g) → u.plumb.ksSeen.contains g = true → exec (.keystoneCompare t die) s = .next taken) ∧
      (∀ g, u.bond.ksPending = some (die, g) → u.plumb.ksSeen.contains g = false →
        (ksPass p.ksBands (p.ksExpect.map ksBox) (u.ksResult die p.ksResult) = true →
          ∃ v, exec (.keystoneCompare t die) s = .next v ∧ lget 0 v.plumb.ksLast die = 1 ∧ lget 0 v.plumb.ksRow die = 0 ∧
            v.plumb.ksFirst = (if u.plumb.ksFirst = some g then none else u.plumb.ksFirst) ∧
            v.bond.ksPending = none ∧ OnlyIn [.plumb, .bond] u v) ∧
        (ksPass p.ksBands (p.ksExpect.map ksBox) (u.ksResult die p.ksResult) = false →
          exec (.keystoneCompare t die) s = .next (taken.ksMismatch die g 2))) ∧
      ((∀ g, u.bond.ksPending ≠ some (die, g)) →
        ∀ g, u.bond.graphs.find? (fun g => g.kind == .keystone && g.die == die && !u.plumb.ksSeen.contains g.id &&
          decide (g.released + 500 * u.stageClose 6 < u.now)) = some g →
        ∃ w : State, exec (.keystoneCompare t die) s = .next (w.ksMismatch die g.id 3) ∧ g.id ∈ w.plumb.ksSeen ∧ w.plumb.ksRow = u.plumb.ksRow)) ∧
    (∀ g out, die < u.plumb.ksLast.length → die < u.plumb.ksRow.length →
      (u.plumb.ksFirst = some g → u.rbit 0xB0300 0 = true →
        ∃ w : State, u.ksMismatch die g out = w.epochRollback ∧ lget 0 w.plumb.ksLast die = 4 ∧ w.plumb.ksFirst = none ∧
          w.plumb.ksRow = u.plumb.ksRow) ∧
      (u.plumb.ksFirst ≠ some g ∨ u.rbit 0xB0300 0 = false →
        ∃ w : State, lget 0 w.plumb.ksRow die = lget 0 u.plumb.ksRow die + 1 ∧ lget 0 w.plumb.ksLast die = out ∧ w.rbit evPlumb 4 = true ∧
          u.ksMismatch die g out = if lget 0 u.plumb.ksRow die + 1 < max 1 (u.rfld 0xB0300 29 24) then w
            else w.stageAction (u.rfld 0xB0300 31 30) (some die) 6 0))

/-- R449 to R452: at its interval the scheduler starts the slice at the pointer where its window is free and otherwise counts a skip with the pointer
held; a slice that passes is noted with its time and the pointer moves on; a failed slice fails its core or its die pair, or enters the safe state,
and a failed checker of Plumb also enters LOCKOUT; a class older than its limit is a latent fault, raised once. -/
def Obligations.SelfTestsRotate : Prop :=
  ∀ (t cls g ptr : Nat) (s : State), let u := s.to t
    let due := u.plumb.stAt + 500 * max 1 (u.rfld 0xB0200 31 16) ≤ u.now
    (u.selftests = true → due → u.nextSlice 19 u.plumb.stPtr = some (ptr, cls, g) →
      (u.sliceFits cls g = true → ∃ v x, exec (.selftestSlice t) s = .next v ∧ v.plumb.slice = some x ∧ x.cls = cls ∧ x.target = g ∧
        v.plumb.stPtr = ptr ∧ v.plumb.stAt = u.now ∧ OnlyIn [.plumb] u v) ∧
      (u.sliceFits cls g = false → ∃ v, exec (.selftestSlice t) s = .next v ∧ v.plumb.slice = u.plumb.slice ∧ v.plumb.stPtr = ptr ∧
        v.regGet 0xB0208 = u.regGet 0xB0208 + 1#32 ∧ OnlyIn [.plumb, .regs] u v)) ∧
    (u.selftests = false ∨ ¬ due → exec (.selftestSlice t) s = .next u) ∧
    (∀ x, u.plumb.slice = some x →
      (x.cls ≠ 0 → ∃ v, exec (.selftestDone t true) s = .next v ∧ v.plumb.slice = none ∧ v.plumb.stPtr = (u.plumb.stPtr + 1) % 19 ∧
        countOf v.plumb.stPass (256 * x.cls + x.target) = u.now ∧ OnlyIn [.plumb] u v) ∧
      (x.cls = 0 → ∃ v, exec (.selftestDone t true) s = .next v ∧ v.plumb.slice = none ∧ v.plumb.stPtr = (u.plumb.stPtr + 1) % 19 ∧
        v.plumb.stCore = (x.target + 1) % 192 ∧ countOf v.plumb.stPass x.target = u.now ∧ OnlyIn [.plumb, .die] u v) ∧
      (∃ w : State, exec (.selftestDone t false) s = .next (w.sliceFailed x.cls x.target) ∧ w.plumb.slice = none ∧
        w.plumb.stPtr = (u.plumb.stPtr + 1) % 19 ∧ w.plumb.stPass = u.plumb.stPass)) ∧
    (u.plumb.slice = none → ∀ pass, exec (.selftestDone t pass) s = .next u) ∧
    (∃ w : State, (u.sliceFailed 0 g = w.coreFail (g / 48) (u.slotAt (g / 48) (g % 48)).core .selfTest) ∧ OnlyIn [.regs] u w) ∧
    (∃ w : State, u.sliceFailed 1 g = w.dieFail g ∧ OnlyIn [.regs] u w) ∧
    (∀ c ∈ [5, 6], ∃ w : State, u.sliceFailed c g = w.safeTrigger 7 0 ∧ w.rbit evPlumb 2 = true) ∧
    (∀ c ∈ [2, 3, 4, 7], ∃ w : State, u.sliceFailed c g = (w.safeTrigger 7 0).lockoutFor 2 ∧ OnlyIn [.regs] u w) ∧
    (cls < 8 → u.diOver cls = true → u.plumb.latentCls.contains cls = false →
      ∃ v, exec (.latentFault t cls) s = .next v ∧ v.plumb.latent = true ∧ cls ∈ v.plumb.latentCls ∧ v.rbit evPlumb 1 = true) ∧
    (8 ≤ cls ∨ u.diOver cls = false ∨ u.plumb.latentCls.contains cls = true →
      ∃ v, exec (.latentFault t cls) s = .next v ∧ v.plumb.latent = u.plumb.latent ∧ OnlyIn [.plumb] u v)

/-- R453 to R455, R457, R540: a trigger of the safe state while Vyuri is in RUN and no restart runs takes every line target to fallback, latches its cause
and SP, and starts a safety restart; during a restart it is counted only. The pin, the host and the rows that end a restart: within 150 ms it ends,
later or with a failed step it is FAILED and Plumb is in LOCKOUT. -/
def Obligations.SafeStateAndRestarts : Prop :=
  ∀ (t cause code die : Nat) (h : Hdr) (s : State), let u := s.to t
    let y := s.atHost h
    (u.restarting = true → OnlyIn [.regs, .plumb] u (u.safeTrigger cause code) ∧
      (u.safeTrigger cause code).rfld 0xB001C 31 16 = satAdd 16 (u.rfld 0xB001C 31 16) 1 ∧
      (u.safeTrigger cause code).plumb.restart = u.plumb.restart) ∧
    (u.restarting = false → (u.safeTrigger cause code).plumb.safe = true ∧
      (u.safeTrigger cause code).plumb.targets = u.fallbackAll.plumb.targets ∧
      (u.inRun = false → (u.safeTrigger cause code).plumb.restart = none ∧ (u.safeTrigger cause code).plumb.untilClear = true ∧
        (u.safeTrigger cause code).rfld 0xB001C 31 16 = satAdd 16 (u.rfld 0xB001C 31 16) 1 ∧
        (u.safeTrigger cause code).rbit evPlumb 9 = true ∧
        (u.plumb.triggers = [] → (u.safeTrigger cause code).regGet 0xB0020 = wordOf (cause * 2 ^ 24 + code % 256 * 2 ^ 16))) ∧
      (u.inRun = true → (u.safeTrigger cause code).plumb.held = true ∧
        ∃ r, (u.safeTrigger cause code).plumb.restart = some r ∧ r.since = u.now ∧ r.cause = cause ∧ r.line = false)) ∧
    (80 ≤ u.plumb.targets.length → ∀ tg, tg < 80 → u.isTarget tg = true → ((u.fallbackAll).targetAt tg).inFallback = true ∧
      (tg < 16 → ((u.fallbackAll).targetAt tg).applied = some 0#32) ∧
      (16 ≤ tg → tg < 24 → ((u.fallbackAll).targetAt tg).applied =
        (if u.fbKind tg = 2 then (u.targetAt tg).applied else some (u.regGet (0xB1004 + 8 * tg)))) ∧
      (24 ≤ tg → ((u.fallbackAll).targetAt tg).level = (if u.fbKind tg = 2 then (u.targetAt tg).level else decide (u.fbKind tg = 1)))) ∧
    (u.plumb.reqLow = none → ∃ w : State, exec (.safeReqPin t true) s = .next (w.safeTrigger 2 0) ∧ w.plumb.reqLow = some u.now ∧ OnlyIn [.plumb] u w) ∧
    (u.plumb.reqLow ≠ none → exec (.safeReqPin t true) s = .next u) ∧
    (∃ v, exec (.safeReqPin t false) s = .next v ∧ v.plumb.reqLow = none ∧ OnlyIn [.plumb] u v) ∧
    (Written s h 0xB000C 0x1000000 → exec (.safeState h) s = .next ((y.safeTrigger 3 0).answered h 0xB000C 0x1000000)) ∧
    (∀ r, u.plumb.restart = some r →
      (u.now ≤ r.since + 75000000 → ∃ v, exec (.restartDone t) s = .next v ∧ v = u.restartEnd r ∧ v.plumb.restart = none ∧
        v.plumb.held = false ∧ v.rbit evPlumb 8 = true) ∧
      (r.since + 75000000 < u.now → exec (.restartDone t) s = .next u.restartFail) ∧
      (∃ v, exec (.restartFailed t) s = .next v ∧ v = u.restartFail ∧ v.plumb.restart = none ∧ v.plumb.held = true ∧ v.rbit evPlumb 7 = true ∧
        (u.plumb.st = .safeRestart → v.plumb.st = .lockout))) ∧
    (u.plumb.restart = none → exec (.restartDone t) s = .next u ∧ exec (.restartFailed t) s = .next u) ∧
    ((u.dieAt die).st = .restarting → u.restarting = false → u.plumb.held = false → (u.dieAt die).short = false → die < u.die.length →
      ∃ v, exec (.diePairRestartDone t die) s = .next (v.retireIdle die) ∧ (v.dieAt die).st = .ready ∧ OnlyIn [.die] u v) ∧
    ((u.dieAt die).st ≠ .restarting → exec (.diePairRestartDone t die) s = .next u)

/-- R435, R443, R456, R462: SAFE_CLEAR releases the targets, or ends LOCKOUT, or starts a restart with cause HOST where the engines are held, and has no
effect while Plumb is FAILED or SPLIT or a restart runs; RELEASE_TARGET lets go of a target that DENY_LIMIT holds; RECOVER is carried out in FAILED
only, 1 s after a failed one; with every slice passed Plumb is HEALTHY on the stored image; CLEAR_COUNTERS clears the counts. -/
def Obligations.PlumbCommandsReleaseAndRecover : Prop :=
  ∀ (t tg : Nat) (h : Hdr) (s : State), let u := s.to t
    let y := s.atHost h
    (Written s h 0xB000C 0x2000000 →
      exec (.safeClear h) s = .next (y.safeClear.answered h 0xB000C 0x2000000) ∧
      (y.plumb.st = .failed ∨ y.plumb.st = .split ∨ y.restarting = true → y.safeClear = y) ∧
      (y.plumb.st = .lockout → y.restarting = false →
        (y.plumb.held = false → ∃ w : State, y.safeClear = w.releaseTargets ∧ w.plumb.st = .healthy ∧ w.plumb.lockWhy = 0 ∧ OnlyIn [.plumb] y w) ∧
        (y.plumb.held = true → ∃ w : State, y.safeClear.plumb.restart = ((w.safeTrigger 3 0).plumb.restart.map
          (fun r => { r with release := true })) ∧ w.plumb.lockWhy = 0 ∧ OnlyIn [.plumb] y w)) ∧
      (y.plumb.st = .healthy → y.restarting = false → y.inRun = true → y.safeClear = y.releaseTargets)) ∧
    (80 ≤ y.plumb.targets.length → ∀ n, n < 80 → y.releaseTargets.plumb.safe = false ∧
      (y.releaseTargets.targetAt n).releasing = ((y.targetAt n).releasing || ((y.targetAt n).inFallback && !(y.targetAt n).byDeny)) ∧
      (y.releaseTargets.targetAt n).inFallback = (y.targetAt n).inFallback) ∧
    (tg < 80 → tg < y.plumb.targets.length → Written s h 0xB000C (0x3000000 + tg) →
      exec (.releaseTarget h tg) s = .next ((y.releaseTarget tg).answered h 0xB000C (0x3000000 + tg)) ∧
      (y.restarting = true ∨ y.plumb.st = .lockout → y.releaseTarget tg = y) ∧
      (y.restarting = false → y.plumb.st ≠ .lockout → (y.targetAt tg).byDeny = true →
        ((y.releaseTarget tg).targetAt tg).byDeny = false ∧ ((y.releaseTarget tg).targetAt tg).denials = 0)) ∧
    (Written s h 0xB000C 0x4000000 →
      exec (.recover h) s = .next (y.recover.answered h 0xB000C 0x4000000) ∧
      (y.plumb.st = .failed → y.restarting = false → (∀ f, y.plumb.recFailed = some f → f + 500000000 ≤ y.now) → y.recover.plumb.recovering = true) ∧
      (y.plumb.st ≠ .failed ∨ y.restarting = true ∨ (∃ f, y.plumb.recFailed = some f ∧ y.now < f + 500000000) → y.recover = y)) ∧
    (u.plumb.recovering = true →
      (u.plumb.recFailed = none → ∃ v, exec (.recoverDone t true) s = .next v ∧ v.plumb.st = .healthy ∧ v.plumb.recovering = false ∧
        v.plumb.image = u.plumb.stored ∧ v.plumb.targets = u.plumb.targets ∧ OnlyIn [.plumb] u v) ∧
      (∃ v, exec (.recoverDone t false) s = .next v ∧ v.plumb.st = u.plumb.st ∧ v.plumb.recovering = false ∧ v.plumb.recFailed = some u.now ∧
        OnlyIn [.plumb] u v)) ∧
    (u.plumb.recovering = false → ∀ pass, exec (.recoverDone t pass) s = .next u) ∧
    (Written s h 0xB000C 0x5000000 → ∃ v, exec (.plumbClearCounters h) s = .next v ∧
      (∀ a ∈ [0xB0014, 0xB0018, 0xB0034, 0xB0038, 0xB003C, 0xB0208], v.regGet a = 0#32) ∧ v.rfld 0xB020C 7 0 = 0 ∧
      (∀ i, i < 8 → v.regGet (0xB0108 + 0x10 * i) = 0#32 ∧ (v.stageAt i).consec = (y.stageAt i).consec) ∧
      v.rfld 0xB001C 31 16 = y.rfld 0xB001C 31 16 ∧ v.plumb.targets = y.plumb.targets ∧ v.plumb.ksRow = y.plumb.ksRow) ∧
    (Carried s h .safetyStatus → ∃ v, exec (.safetyStatus h) s = .next v ∧
      Replied s v h .safetyStatus 0 (y.liveBytes [0xB0000, 0xB0020, 0xB0024, 0xB0028, 0xB001C, 0xB002C, 0xB0034, 0xB0038]) ∧ v.plumb = y.plumb)

/-- R492: CMD0 returns the card to its idle state, CMD5 makes it ready, CMD3 gives it an address that the spec leaves open, CMD7 selects the card of the
address, CMD11 switches to 1.8 V signalling, CMD15 makes it inactive, CMD19 tunes in SDR50 and SDR104; none touches anything else. The order of the
states is the model's, from the SDIO 3.0 standard. R494 to R496, R514, R515: a function that is enabled and served takes CMD52 and CMD53; a CMD53
write to CMD_WINDOW is one packet, one to IN_WINDOW is bulk data; a read of REPLY_WINDOW gives the replies and consumes what it returns, zeros beyond
them; the registers of the functions read as R494 and R514 say, and writing 1 clears a pending bit. -/
def Obligations.CardAndItsFunctions : Prop :=
  (∀ (t rca : Nat) (s18 : Bool) (s : State), let u := s.to t
    let x := u.sdio
    let only (i : Instr) (y : Sdio) : Prop := exec i s = .next (u.updSdio (fun _ => y))
    let none_ (i : Instr) : Prop := exec i s = .next u
    (x.card ≠ .inactive → only (.cmd0 t) { x with card := .idle }) ∧ (x.card = .inactive → none_ (.cmd0 t)) ∧
    (x.card = .idle → only (.cmd5 t s18) { x with card := .ready, s18 := s18 }) ∧ (x.card ≠ .idle → none_ (.cmd5 t s18)) ∧
    (x.card = .ready ∨ x.card = .standby → ∃ v, exec (.cmd3 t) s = .next v ∧ v.sdio = { x with card := .standby, rca := u.free.toNat % 65536 } ∧
      v.fresh = u.fresh + 1 ∧ v.regs = u.regs ∧ v.mem = u.mem) ∧
    (x.card ≠ .ready → x.card ≠ .standby → none_ (.cmd3 t)) ∧
    (x.card = .standby ∨ x.card = .command → only (.cmd7 t rca) { x with card := if rca = x.rca then .command else .standby }) ∧
    (x.card ≠ .standby → x.card ≠ .command → none_ (.cmd7 t rca)) ∧
    (x.card = .ready → x.s18 = true → only (.cmd11 t) { x with v18 := true, mode := 1, tuned := false }) ∧
    (x.card ≠ .ready ∨ x.s18 = false → none_ (.cmd11 t)) ∧
    only (.cmd15 t) { x with card := .inactive } ∧
    (x.card = .command → 3 ≤ x.mode → only (.cmd19 t) { x with tuned := true }) ∧ (x.card ≠ .command ∨ x.mode < 3 → none_ (.cmd19 t))) ∧
  (∀ (t fn addr count : Nat) (incr : Bool) (b : Byte) (data : List Byte) (s : State), let u := s.to t
    let on := u.sdio.card = .command ∧ (fn = 0 ∨ ((fn = 1 ∨ fn = 2) ∧ u.sdio.ioe.testBit fn = true ∧ u.mgmt.st ≠ .boot))
    let reads (a n : Nat) (l : List Byte) : Prop :=
      exec (.cmd53 t false fn false incr a n []) s = .next (u.updSdio (fun x => { x with dat := l }))
    let word (n : Nat) : List Byte := leBytes 4 n
    (¬ on → (∀ wr raw, exec (.cmd52 t wr raw fn addr b) s = .next u) ∧
      (∀ wr blocks, exec (.cmd53 t wr fn blocks incr addr count data) s = .next u)) ∧
    (on → fn = 1 →
      (addr < 0x10000 → exec (.cmd53 t true 1 false incr addr count data) s = .next (u.submit (framePacket data))) ∧
      (addr < 0x10000 → ∃ v, exec (.cmd52 t true true 1 addr b) s = .next v ∧ OnlyIn [.sdio] u v ∧ v.sdio.cmdBuf = u.sdio.cmdBuf ∧
        v.sdio.replies = u.sdio.replies) ∧
      (u.sdio.cmdBuf = [] → u.mgmt.resetAt = none → 0 < count → 0x10000 ≤ addr → addr < 0x20000 →
        let all := (u.sdio.replies.flatMap replyBytes).drop u.sdio.consumed
        ∃ v, exec (.cmd53 t false 1 false incr addr count []) s = .next v ∧
          v.sdio.dat = all.take count ++ List.replicate (count - all.length) 0#8 ∧
          ((u.sdio.replies.flatMap replyBytes).length ≤ u.sdio.consumed + count → u.sdio.consumed ≤ (u.sdio.replies.flatMap replyBytes).length →
            v.sdio.replies = []) ∧
          OnlyIn [.sdio] u v) ∧
      (incr = true → reads 0x20000 4 (word (65536 - u.cmdUsed)) ∧ reads 0x20004 4 (word u.replyUsed) ∧
        reads 0x20008 4 (word u.sdio.f1Pend) ∧ reads 0x2000C 4 (word u.sdio.f1En)) ∧
      (∃ v, exec (.cmd52 t true false 1 0x2000C b) s = .next v ∧ v.sdio.f1En = b.toNat % 8 ∧ v.sdio.dat = [b] ∧ OnlyIn [.sdio] u v) ∧
      (∃ v, exec (.cmd52 t true false 1 0x20008 b) s = .next v ∧ (∀ n, n < 8 → v.sdio.f1Pend.testBit n = (u.sdio.f1Pend.testBit n && !b.toNat.testBit n)) ∧
        OnlyIn [.sdio] u v)) ∧
    (on → fn = 2 →
      (addr < 0x10000 → u.sdio.inAct = none → ∃ v, exec (.cmd53 t true 2 false incr addr count data) s = .next v ∧
        v.regGet 0x3C = u.regGet 0x3C + wordOf data.length ∧ v.rbit evMgmt 1 = true) ∧
      (∀ x, u.sdio.inAct = some x → addr < 0x10000 → x.n + data.length < x.len → ∃ v y, exec (.cmd53 t true 2 false incr addr count data) s = .next v ∧
        v.sdio.inAct = some y ∧ y.got = data.reverse ++ x.got ∧ y.n = x.n + data.length ∧ y.len = x.len ∧ OnlyIn [.sdio] u v) ∧
      (∀ x, u.sdio.inAct = some x → addr < 0x10000 → x.n ≤ x.len → x.len ≤ x.n + data.length → u.sdio.inQ = [] →
        ∃ v y, exec (.cmd53 t true 2 false incr addr count data) s = .next v ∧ v.sdio.inAct = none ∧ v.sdio.checks = u.sdio.checks ++ [y] ∧
          y.d = x.d ∧ y.got = (data.take (x.len - x.n)).reverse ++ x.got ∧ y.beyond = decide (x.len - x.n < data.length)) ∧
      (∀ x, u.sdio.outAct = some x → 0 < count → count < x.bytes.length → 0x10000 ≤ addr → addr < 0x20000 →
        ∃ v y, exec (.cmd53 t false 2 false incr addr count []) s = .next v ∧ v.sdio.dat = x.bytes.take count ∧
          v.sdio.outAct = some y ∧ y.bytes = x.bytes.drop count)))

/-- R495, R497, R506: the packet of a frame has the TAG, CLIENT, FLAGS and OPCODE of its header; a frame whose length does not go with PLEN is
MALFORMED_LENGTH, one whose CRC-32C over bytes 0 to 11 and the parameters is wrong MALFORMED_CRC, one with a reserved header bit or a CLIENT above 15
MALFORMED_HEADER, an opcode that R510 does not list MALFORMED_OPCODE, a PLEN that its row does not allow MALFORMED_LENGTH. -/
def Obligations.PacketsAreReadFromTheirFrames : Prop :=
  ∀ (bs : List Byte), let n (o k : Nat) : Nat := leAt bs o k
    let p := framePacket bs
    let fits := 16 + n 4 4 ≤ bs.length ∧ bs.length ≤ 16 + n 4 4 + 511
    let crc := crc32c (bs.take 12 ++ (bs.drop 16).take (n 4 4)) = n 12 4
    p.tag = n 2 2 ∧ p.client = n 8 1 ∧ p.flags = n 9 1 ∧ p.opcode = n 0 2 ∧ p.size = bs.length ∧
    (¬ fits → p.bad = 0x0102) ∧ (fits → ¬ crc → p.bad = 0x0101) ∧
    (fits → crc → 1 < n 9 1 ∨ n 10 2 ≠ 0 ∨ 15 < n 8 1 → p.bad = 0x0104) ∧
    (fits → crc → n 9 1 ≤ 1 → n 10 2 = 0 → n 8 1 ≤ 15 →
      (opRow (n 0 2) = none → p.bad = 0x0103) ∧
      (∀ r, opRow (n 0 2) = some r → n 4 4 < r.lo ∨ r.hi < n 4 4 → p.bad = 0x0102) ∧
      (n 0 2 = 0x0202 → n 4 4 = 12 → n 9 1 = 0 →
        p.bad = 0 ∧ p.cmd = .regModify (wordOf (leAt ((bs.drop 16).take 12) 0 4)) (wordOf (leAt ((bs.drop 16).take 12) 4 4))
          (wordOf (leAt ((bs.drop 16).take 12) 8 4))) ∧
      (n 0 2 = 0x0202 → n 4 4 = 12 → n 9 1 = 1 → p.bad = 0x0105))

/-- R504, R515 to R517: an image that has arrived whole is checked in order of arrival and answered: a wrong digest is refused and places nothing; more
bytes than announced leave an otherwise accepted image out. A transfer not received in time is LATE_BULK and its bytes are discarded; an outbound
transfer not read in time gives way. -/
def Obligations.BulkTransfersEnd : Prop :=
  ∀ (t : Nat) (s : State), let u := s.to t
    (u.sdio.checks = [] → exec (.imageCheckDone t) s = .next u) ∧
    (∀ i l, u.sdio.checks = i :: l →
      let w := u.updSdio (fun x => { x with checks := l })
      exec (.imageCheckDone t) s = .next (w.bulkFinish i).pump ∧
      ((∃ r, opRow i.d.pkt.opcode = some r ∧ w.lacks r.needs = true) → w.bulkFinish i = w.answer i.d.pkt 0x0203) ∧
      ((∀ r, opRow i.d.pkt.opcode = some r → w.lacks r.needs = false) →
        (digestBad i.d.pkt.cmd i.got.reverse = true → w.bulkFinish i = w.answer i.d.pkt 0x0208) ∧
        (∀ v, w.bulkDone i.d.pkt i.got.reverse = (v, 0) →
          w.bulkFinish i = if i.beyond = true then w.answer i.d.pkt 0x0108 else v.answer i.d.pkt 0) ∧
        (∀ v e, e ≠ 0 → w.bulkDone i.d.pkt i.got.reverse = (v, e) → w.bulkFinish i = v.answer i.d.pkt e))) ∧
    (∀ x, u.sdio.inAct = some x →
      (u.now < x.at_ + u.bulkTmo → exec (.bulkTimeout t) s = .next u) ∧
      (x.at_ + u.bulkTmo ≤ u.now → u.sdio.inQ = [] → u.sdio.cmdBuf = [] → u.mgmt.resetAt = none →
        ∃ v, exec (.bulkTimeout t) s = .next v ∧ v.sdio.inAct = none ∧ v.rbit evMgmt 2 = true ∧ v.mem = u.mem ∧
          v.sdio.replies = u.sdio.replies ++ [{ status := 0x0403, tag := x.d.pkt.tag, client := x.d.pkt.client, opcode := x.d.pkt.opcode, bytes := [] }])) ∧
    (u.sdio.inAct = none → exec (.bulkTimeout t) s = .next u) ∧
    (∀ x, u.sdio.outAct = some x →
      (u.now < x.at_ + u.bulkTmo → exec (.bulkOutTimeout t) s = .next u) ∧
      (x.at_ + u.bulkTmo ≤ u.now → u.mgmt.resetAt = none → (u.sdio.outQ = [] → ∃ v, exec (.bulkOutTimeout t) s = .next v ∧ v.sdio.outAct = none ∧ OnlyIn [.sdio] u v) ∧
        (∀ y q, u.sdio.outQ = y :: q → ∃ v z, exec (.bulkOutTimeout t) s = .next v ∧ v.sdio.outAct = some z ∧ z.bytes = y.bytes ∧ z.at_ = u.now ∧
          v.sdio.outQ = q ∧ v.sdio.replies = u.sdio.replies ++
            [{ status := 0, tag := y.d.pkt.tag, client := y.d.pkt.client, opcode := y.d.pkt.opcode, bytes := leBytes 8 y.bytes.length }])))

/-- R507: each reply of the Malformed class is a violation of the packet's client, client 15 for a CLIENT above 15: its count advances, an entry of 16
bytes is written to the violation log, which holds the latest 256, and VIOLATION is raised. R508: the 64th violation within 1 s limits the client and
raises RATE_LIMITED; a limited client's packets are answered REFUSED_RATE, neither executed nor logged, but for DEVICE_INFO, PLAN_STOP and the
commands of area 0x08xx; its malformed packets are still counted; the limit ends once 1 s has passed without a violation of its own. -/
def Obligations.ViolationsAreLoggedAndLimitTheirClient : Prop :=
  ∀ (t status client : Nat) (p : Packet) (bytes : List Byte) (s : State), let u := s.to t
    let c := min p.client 15
    let n := (u.now :: (lget [] u.sdio.viol c).filter (fun z => decide (u.now < z + 500000000))).length
    let entry : List Byte := leBytes 4 (u.time64 / 2 ^ 32) ++ leBytes 4 (u.time64 % 2 ^ 32) ++ leBytes 1 p.client ++ leBytes 1 p.flags ++
      leBytes 2 p.opcode ++ leBytes 2 p.tag ++ leBytes 2 status
    let free := p.opcode = 0x0101 ∨ p.opcode = 0x0303 ∨ p.opcode / 256 = 8
    (status / 256 ≠ 1 → u.answer p status bytes = u.reply p status bytes) ∧
    (status / 256 = 1 → let v := u.answer p status bytes
      v.rfld (0x40 + 4 * c) 31 16 = satAdd 16 (u.rfld (0x40 + 4 * c) 31 16) 1 ∧ v.rbit evMgmt 4 = true ∧
      v.sdio.violLog = (u.sdio.violLog ++ [entry]).drop (u.sdio.violLog.length + 1 - 256) ∧ entry.length = 16 ∧
      (64 ≤ n → v.limited c = true ∧ (u.limited c = false → v.rbit evMgmt 3 = true)) ∧ (n < 64 → v.limited c = u.limited c)) ∧
    (u.limited c = true → p.bad ≠ 0 → ∃ w : State, u.takePkt p = (w.violCount p).reply p 0x0209 ∧
      w.sdio.violLog = u.sdio.violLog ∧ OnlyIn [.regs, .sdio] u w ∧
      (w.violCount p).rfld (0x40 + 4 * c) 31 16 = satAdd 16 (u.rfld (0x40 + 4 * c) 31 16) 1 ∧ (w.violCount p).sdio.violLog = u.sdio.violLog) ∧
    (u.limited c = true → p.bad = 0 → ¬ free → ∃ w : State, u.takePkt p = w.reply p 0x0209 ∧ OnlyIn [.regs, .sdio] u w ∧
      w.sdio.violLog = u.sdio.violLog ∧ w.sdio.viol = u.sdio.viol) ∧
    (p.bad = 0 → u.limited c = false ∨ free → ∃ w : State, OnlyIn [.regs, .sdio] u w ∧
      u.takePkt p = if w.refusal p = 0 then w.hostRun p else w.answer p (w.refusal p)) ∧
    (client < 16 → ((∀ z ∈ lget [] u.sdio.viol client, z + 500000000 ≤ u.now) →
        ∃ v, exec (.rateLimitEnd t client) s = .next v ∧ v.limited client = false ∧ OnlyIn [.regs] u v ∧
          (∀ k, k < 16 → k ≠ client → v.limited k = u.limited k)) ∧
      ((∃ z ∈ lget [] u.sdio.viol client, u.now < z + 500000000) → exec (.rateLimitEnd t client) s = .next u))

/-- R509 to R511, R513, R516, R518, R520: ECHO returns its bytes; DEVICE_INFO, KEY_INFO and ATTEST answer their reports; REG_READ answers the registers in
turn, or nothing where an address is refused; LOG_PULL and IMAGE_PULL send the latest entries, or the tiles, as the outbound transfer, and nothing
where there is none or a tile is not readable; that a tile with an error ECC does not correct is refused PRECONDITION is the model's choice (log entry 101). -/
def Obligations.DeviceAnswersReports : Prop :=
  ∀ (h : Hdr) (s : State), let y := s.atHost h
    let sends (v : State) (c : HostCmd) (bs : List Byte) : Prop :=
      Replied s v h c 0 (leBytes 8 bs.length) ∧ ∃ o, v.sdio.outAct = some o ∧ o.bytes = bs ∧ o.at_ = y.now
    let idle := y.deferredCnt < 8 ∧ y.sdio.outAct = none ∧ y.sdio.outQ = []
    (∀ bytes, Carried s h (.echo bytes) → ∃ v, exec (.echo h bytes) s = .next v ∧ Replied s v h (.echo bytes) (if bytes = [] then 1 else 0) bytes ∧
      OnlyIn [.sdio] y v) ∧
    (Carried s h .deviceInfo → ∃ v, exec (.deviceInfo h) s = .next v ∧ Replied s v h .deviceInfo 0 y.deviceInfo ∧ y.deviceInfo.length = 32 ∧
      OnlyIn [.sdio] y v) ∧
    (Carried s h .keyInfo → ∃ v, exec (.keyInfo h) s = .next v ∧ OnlyIn [.sdio] y v ∧
      Replied s v h .keyInfo 0 (leBytes 4 y.secStatus ++ leBytes 4 0 ++ (y.deviceKey ++ List.replicate 32 0#8).take 32 ++ leBytes 8 0)) ∧
    (∀ nonce, Carried s h (.attest nonce) → let r := y.reportBody nonce
      (y.deferredCnt < 8 → ∃ v, exec (.attest h nonce) s = .next v ∧ OnlyIn [.sdio] y v ∧
        Replied s v h (.attest nonce) 0 (r ++ edSign Config.deviceSeed (sha512 r))) ∧
      (8 ≤ y.deferredCnt → ∃ v, exec (.attest h nonce) s = .next v ∧ OnlyIn [.sdio] y v ∧ Replied s v h (.attest nonce) 0x0401 [])) ∧
    (∀ (addr : Word) (n : Nat), Carried s h (.regRead addr n) →
      (n = 0 → ∃ v, exec (.regRead h addr n) s = .next v ∧ Replied s v h (.regRead addr n) 1 [] ∧ OnlyIn [.sdio] y v) ∧
      ((∃ i, i < n ∧ addrOk (addr.toNat + 4 * i) = false) →
        ∃ v, exec (.regRead h addr n) s = .next v ∧ Replied s v h (.regRead addr n) 0x0202 [] ∧ OnlyIn [.sdio] y v) ∧
      (0 < n → (∀ i, i < n → addrOk (addr.toNat + 4 * i) = true) →
        ((∃ i, i < n ∧ y.addrLacks (addr.toNat + 4 * i) = true) →
          ∃ v, exec (.regRead h addr n) s = .next v ∧ Replied s v h (.regRead addr n) 0x0203 [] ∧ OnlyIn [.sdio] y v) ∧
        ((∀ i, i < n → y.addrLacks (addr.toNat + 4 * i) = false) → y.snaps = [] →
          (∀ i, i < n → snapPartners (canonAddr (addr.toNat + 4 * i)) = [] ∧ arrIdx (canonAddr (addr.toNat + 4 * i)) 0xC0204 0x10 4 = none) →
          ∃ v, exec (.regRead h addr n) s = .next v ∧ OnlyIn [.sdio] y v ∧ Replied s v h (.regRead addr n) 0
            ((List.range n).flatMap (fun i => leBytes 4 (y.liveReg (addr.toNat + 4 * i)).toNat))))) ∧
    (∀ most, (Carried s h (.logPull 0 most) → idle → y.sdio.evLog ≠ [] →
        ∃ v, exec (.logPull h 0 most) s = .next v ∧ sends v (.logPull 0 most) ((latest most y.sdio.evLog).flatMap logBytes) ∧ OnlyIn [.sdio] y v) ∧
      (Carried s h (.logPull 1 most) → idle → y.sdio.violLog ≠ [] →
        ∃ v, exec (.logPull h 1 most) s = .next v ∧ sends v (.logPull 1 most) (latest most y.sdio.violLog).flatten ∧ OnlyIn [.sdio] y v) ∧
      (Carried s h (.logPull 0 most) → y.sdio.evLog = [] →
        ∃ v, exec (.logPull h 0 most) s = .next v ∧ Replied s v h (.logPull 0 most) 1 [] ∧ OnlyIn [.sdio] y v)) ∧
    (∀ band col mask cols, Carried s h (.imagePull band col mask cols) →
      let l := ((List.range 4).filter (fun c => mask.testBit c)).flatMap (fun c => (List.range cols).map (fun i => (c, col + i)))
      (l = [] → ∃ v, exec (.imagePull h band col mask cols) s = .next v ∧ Replied s v h (.imagePull band col mask cols) 1 [] ∧ OnlyIn [.sdio] y v) ∧
      ((∃ q ∈ l, y.tileErr band q.1 q.2 = 0x0404) → (∀ q ∈ l, y.hasDie (q.2 / 32) = true) → ∃ v, exec (.imagePull h band col mask cols) s = .next v ∧
        Replied s v h (.imagePull band col mask cols) 0x0404 [] ∧ OnlyIn [.sdio] y v) ∧
      (l ≠ [] → (∀ q ∈ l, y.hasDie (q.2 / 32) = true ∧ y.tileErr band q.1 q.2 = 0) → ∀ w, l.foldl (fun acc q =>
          (((acc.1.tileRead band q.1 q.2).1, acc.2 || (acc.1.tileRead band q.1 q.2).2) : State × Bool)) (y, false) = (w, true) →
        exec (.imagePull h band col mask cols) s = .next (w.reply (packetOf h.tag h.client (.imagePull band col mask cols)) 0x0203)) ∧
      (l ≠ [] → (∀ q ∈ l, y.hasDie (q.2 / 32) = true ∧ y.tileErr band q.1 q.2 = 0) → y.mt.flips = [] → idle → ∃ v, exec (.imagePull h band col mask cols) s = .next v ∧
        OnlyIn [.sdio] y v ∧ sends v (.imagePull band col mask cols) (l.flatMap (fun q =>
          y.ldBytes (memKey (spLintel (q.2 / 32)) (headerOff band q.1 q.2)) 128 ++ y.tileBytes band q.1 q.2))))

/-- R14, R15, R509, R523, R526: REG_WRITE applies its pairs in order until one is refused, and answers how many it has applied. A field of a register that
is RW takes the value, a W1C bit is cleared by writing 1, a locked field that would change refuses the pair while a plan runs. REG_MODIFY writes under
its mask, a W1C bit outside the mask is left as it is, and answers what the register reads after. -/
def Obligations.RegistersAreWrittenAndModified : Prop :=
  ∀ (h : Hdr) (s : State), let y := s.atHost h
    (∀ l, Carried s h (.regWrite l) → (∀ p ∈ l, y.addrLacks p.1.toNat = false) → ∀ w n st, y.regWrites l = (w, n, st) →
      exec (.regWrite h l) s = .next (w.answer (packetOf h.tag h.client (.regWrite l)) st (leBytes 4 n))) ∧
    (∀ (a v : Word) l, let ref := y.restarting && restartBlock a.toNat
      (ref = true → y.regWrites ((a, v) :: l) = (y, 0, 0x0603)) ∧
      (ref = false → ∀ w st, st ≠ 0 → y.regWrite a.toNat v = (w, st) → y.regWrites ((a, v) :: l) = (w, 0, st)) ∧
      (ref = false → ∀ w x n st, y.regWrite a.toNat v = (w, 0) → w.regWrites l = (x, n, st) → y.regWrites ((a, v) :: l) = (x, n + 1, st))) ∧
    (∀ (a v : Word), addrOk a.toNat = false → y.regWrite a.toNat v = (y, 0x0202)) ∧
    (∀ (a v : Word) r, rowOf a.toNat = some r → addrOk a.toNat = true → r.wo = false → absentReg y.part a.toNat = false →
      (a.toNat / 65536 = 15 → y.test.mode = true ∨ testFree a.toNat = true) →
      y.planRuns = true → writeLocks r (y.regGet (canonAddr a.toNat)) (partVal y.part a.toNat v) = true → y.regWrite a.toNat v = (y, 0x0201)) ∧
    (∀ v : Word, Carried s h (.regWrite [(0x18#32, v)]) → ∃ w, exec (.regWrite h [(0x18#32, v)]) s = .next w ∧
      w.regGet 0x18 = ((y.regGet 0x18 &&& 0xFFFFFFE0#32) ||| (v &&& 0x1F#32)) ∧ Replied s w h (.regWrite [(0x18#32, v)]) 0 (leBytes 4 1)) ∧
    (∀ v : Word, Carried s h (.regWrite [(0x14#32, v)]) → ∃ w, exec (.regWrite h [(0x14#32, v)]) s = .next w ∧
      w.regGet 0x14 = y.regGet 0x14 &&& ~~~(v &&& 0x1F#32) ∧ Replied s w h (.regWrite [(0x14#32, v)]) 0 (leBytes 4 1)) ∧
    (∀ m v : Word, Carried s h (.regModify 0x14#32 m v) → m ≠ 0#32 → ∃ w, exec (.regModify h 0x14#32 m v) s = .next w ∧
      w.regGet 0x14 = y.regGet 0x14 &&& ~~~(m &&& v &&& 0x1F#32) ∧
      Replied s w h (.regModify 0x14#32 m v) 0 (leBytes 4 (w.regGet 0x14).toNat)) ∧
    (∀ m v : Word, Carried s h (.regModify 0x18#32 m v) → m ≠ 0#32 → ∃ w, exec (.regModify h 0x18#32 m v) s = .next w ∧
      w.regGet 0x18 = ((y.regGet 0x18 &&& ~~~m) ||| (m &&& v)) &&& 0x1F#32 ||| (y.regGet 0x18 &&& 0xFFFFFFE0#32) ∧
      Replied s w h (.regModify 0x18#32 m v) 0 (leBytes 4 (w.regGet 0x18).toNat)) ∧
    (∀ a m v : Word, Carried s h (.regModify a m v) →
      (addrOk a.toNat = false → ∃ w, exec (.regModify h a m v) s = .next w ∧ Replied s w h (.regModify a m v) 0x0202 [] ∧ OnlyIn [.sdio] y w) ∧
      (addrOk a.toNat = true → y.addrLacks a.toNat = false → (y.restarting && restartBlock a.toNat) = false → m = 0#32 →
        ∃ w, exec (.regModify h a m v) s = .next w ∧ Replied s w h (.regModify a m v) 1 [] ∧ OnlyIn [.sdio] y w)) ∧
    (Written s h 0x1C 1 → ∃ v, exec (.mgmtClearCounters h) s = .next v ∧ v.regGet 0x34 = 0#32 ∧ v.regGet 0x3C = 0#32 ∧
      (∀ c, c < 16 → v.regGet (0x40 + 4 * c) = 0#32) ∧ v.regGet 0x28 = y.regGet 0x28 ∧ v.sdio.violLog = y.sdio.violLog) ∧
    (Written s h 0x1C 2 → ∃ v, exec (.clearLogs h) s = .next v ∧ v.sdio.violLog = [] ∧ v.sdio.evLog = [] ∧ OnlyIn [.sdio] y v) ∧
    (Written s h 0x100004 1 →
      (y.planRuns = false → ∃ v, exec (.requireOwnerSig h) s = .next v ∧ v.mgmt.ownerSig = true ∧ OnlyIn [.mgmt, .sdio] y v ∧
        Replied s v h (.regWrite [(wordOf 0x100004, wordOf 1)]) 0 (leBytes 4 1)) ∧
      (y.planRuns = true → ∃ v, exec (.requireOwnerSig h) s = .next v ∧ v.mgmt = y.mgmt ∧
        Replied s v h (.regWrite [(wordOf 0x100004, wordOf 1)]) 0x0201 (leBytes 4 0)))

/-- R523, R526, R562, R597: what each value written to MGMT_CMD, SEC_CMD, POWER_CMD and TEST_CMD does. Any other value than those of the tables is no
operation and answers OK. -/
def Obligations.CommandRegistersTakeTheirValues : Prop :=
  ∀ (h : Hdr) (v : Word) (s : State), let y := s.atHost h
    let put (a : Nat) : Instr := .regWrite h [(wordOf a, v)]
    let ok (a : Nat) (w : State) : State := w.reply (packetOf h.tag h.client (.regWrite [(wordOf a, v)])) 0 (leBytes 4 1)
    (Written s h 0x1C v.toNat →
      (v = 1#32 → ∃ w, exec (put 0x1C) s = .next (ok 0x1C w) ∧ w.regGet 0x34 = 0#32 ∧ w.regGet 0x3C = 0#32 ∧
        (∀ c, c < 16 → w.regGet (0x40 + 4 * c) = 0#32 ∧
          ((∀ z ∈ lget [] y.sdio.viol c, z ≤ y.now) → w.liveReg (0x40 + 4 * c) = 0#32)) ∧ OnlyIn [.regs, .sdio] y w) ∧
      (v = 2#32 → ∃ w, exec (put 0x1C) s = .next (ok 0x1C w) ∧ w.sdio.violLog = [] ∧ w.sdio.evLog = [] ∧ OnlyIn [.sdio] y w) ∧
      (v ≠ 1#32 → v ≠ 2#32 → exec (put 0x1C) s = .next (ok 0x1C y))) ∧
    (Written s h 0x100004 v.toNat →
      (v = 1#32 → y.planRuns = false → ∃ w, exec (put 0x100004) s = .next (ok 0x100004 w) ∧ w.mgmt.ownerSig = true ∧
        wbit (w.liveReg 0x100000) 4 = true ∧ OnlyIn [.mgmt] y w) ∧
      (v = 1#32 → y.planRuns = true → exec (put 0x100004) s = .next (y.reply (packetOf h.tag h.client (.regWrite [(wordOf 0x100004, v)])) 0x0201 (leBytes 4 0))) ∧
      (v ≠ 1#32 → exec (put 0x100004) s = .next (ok 0x100004 y)) ∧
      (y.wiped true).mgmt.ownerSig = false ∧ (y.wiped false).mgmt.ownerSig = y.mgmt.ownerSig) ∧
    (Written s h 0xE000C v.toNat →
      (v = 1#32 → ∃ w, exec (put 0xE000C) s = .next (ok 0xE000C w) ∧ w.regGet 0xE0034 = 0#32 ∧ OnlyIn [.regs] y w) ∧
      (v = 2#32 → exec (put 0xE000C) s = .next (ok 0xE000C y.recalibrate)) ∧
      (v ≠ 1#32 → v ≠ 2#32 → exec (put 0xE000C) s = .next (ok 0xE000C y))) ∧
    (Written s h 0xF000C v.toNat →
      (v = 1#32 → ∃ w, exec (put 0xF000C) s = .next (ok 0xF000C w) ∧ w.test.snap = (List.range 24).map y.snapSum ∧ OnlyIn [.test] y w) ∧
      (v = 2#32 → ∃ w, exec (put 0xF000C) s = .next (ok 0xF000C w) ∧ (∀ i, i < 5 → w.rbit (injReg i) 31 = false) ∧
        (y.rbit 0xF0054 31 = true → w.test.persist = []) ∧ OnlyIn [.regs, .test] y w) ∧
      (v = 3#32 → ∃ w, exec (put 0xF000C) s = .next (ok 0xF000C w) ∧ w.regGet 0xF0014 = 0#32 ∧ w.test.snap = List.replicate 24 0#32 ∧
        w.mt = y.mt ∧ OnlyIn [.regs, .test] y w) ∧
      (v ≠ 1#32 → v ≠ 2#32 → v ≠ 3#32 → exec (put 0xF000C) s = .next (ok 0xF000C y)))

/-- R510, R512, R518, R538, R540, R542, R554, R555, R581, R582: DEVICE_RESET is answered and takes effect 10 ms later; OWNER_KEY_SET programs an empty
slot with the digest of the key, OWNER_KEY_REVOKE revokes a programmed one; TEST_MODE enters and leaves; BUDGET_SET computes the grant and acts as the
plan's state asks; POWER_STATE is refused, answered at once or waits until the state is reached. -/
def Obligations.DeviceStateCommandsAct : Prop :=
  ∀ (h : Hdr) (t slot : Nat) (key : List Byte) (s : State), let y := s.atHost h
    let u := s.to t
    let cw : Word := 0xA5A55A5A#32
    let old : KeySlot := lget {} y.mgmt.ownerKeys slot
    let ks : HostCmd := .ownerKeySet slot key cw
    let kr : HostCmd := .ownerKeyRevoke slot cw
    let refused (i : Instr) (c : HostCmd) (st : Nat) : Prop := ∃ v, exec i s = .next v ∧ Replied s v h c st [] ∧ OnlyIn [.sdio] y v
    (Carried s h (.deviceReset cw) → ∃ v, exec (.deviceReset h cw) s = .next v ∧ Replied s v h (.deviceReset cw) 0 [] ∧
      v.mgmt.resetAt = some (y.now + 5000000) ∧ OnlyIn [.mgmt, .sdio] y v) ∧
    (∀ ok a, u.mgmt.resetAt = some a →
      (a ≤ u.now → exec (.deviceResetEffect t ok) s = .next ((u.inReset false).boot 2 u.mgmt.flash ok)) ∧
      (u.now < a → exec (.deviceResetEffect t ok) s = .next u)) ∧
    (slot < y.mgmt.ownerKeys.length → Carried s h ks →
      (y.planRuns = true → refused (.ownerKeySet h slot key cw) ks 0x0203) ∧
      (y.planRuns = false → old.revoked = true → refused (.ownerKeySet h slot key cw) ks 0x020A) ∧
      (y.planRuns = false → old.revoked = false → old.hash ≠ none → refused (.ownerKeySet h slot key cw) ks 0x0203) ∧
      (y.planRuns = false → old.revoked = false → old.hash = none → ∃ v, exec (.ownerKeySet h slot key cw) s = .next v ∧ Replied s v h ks 0 [] ∧
        (lget {} v.mgmt.ownerKeys slot).hash = some ((sha512 key).take 32) ∧ (lget {} v.mgmt.ownerKeys slot).revoked = false ∧
        (∀ n, n ≠ slot → lget {} v.mgmt.ownerKeys n = lget ({} : KeySlot) y.mgmt.ownerKeys n) ∧ v.rbit evSec 1 = true)) ∧
    (slot < y.mgmt.ownerKeys.length → Carried s h kr →
      (y.planRuns = true ∨ old.hash = none → refused (.ownerKeyRevoke h slot cw) kr 0x0203) ∧
      (y.planRuns = false → old.hash ≠ none → ∃ v, exec (.ownerKeyRevoke h slot cw) s = .next v ∧ Replied s v h kr 0 [] ∧
        (lget {} v.mgmt.ownerKeys slot).revoked = true ∧ (lget {} v.mgmt.ownerKeys slot).hash = old.hash ∧ v.rbit evSec 0 = true)) ∧
    (Carried s h (.testMode 1 cw) →
      (y.planRuns = true → refused (.testMode h 1 cw) (.testMode 1 cw) 0x0203) ∧
      (y.planRuns = false → ∃ v, exec (.testMode h 1 cw) s = .next v ∧ v.test.mode = true ∧ Replied s v h (.testMode 1 cw) 0 [] ∧ OnlyIn [.test, .sdio] y v)) ∧
    (Carried s h (.testMode 0 cw) → ∃ v, exec (.testMode h 0 cw) s = .next v ∧ v.test.mode = false ∧ Replied s v h (.testMode 0 cw) 0 [] ∧
      OnlyIn [.regs, .test, .sdio] y v ∧ (y.test.mode = true → ∀ a ∈ testRegs, v.regGet a = 0#32)) ∧
    (∀ mw cold, Carried s h (.budgetSet mw cold) →
      (y.restarting = true → refused (.budgetSet h mw cold) (.budgetSet mw cold) 0x0401) ∧
      (y.restarting = false → y.bond.readmitting = true → ∃ v p, exec (.budgetSet h mw cold) s = .next v ∧ v.sdio.waiting = some p ∧
        p.cmd = .budgetSet mw cold ∧ v.sdio.waitBegun = false ∧ v.power = y.power ∧ OnlyIn [.sdio] y v) ∧
      (y.restarting = false → y.bond.readmitting = false →
        (y.bond.st = .empty ∨ y.bond.st = .loaded → ∃ v, exec (.budgetSet h mw cold) s = .next v ∧ v.power.budget = mw ∧
          v.power.cap = (if cold then 420000 else 380000) ∧ v.power.granted = v.grantOf ∧ v.rbit evPower 6 = true ∧ v.bond = y.bond ∧
          Replied s v h (.budgetSet mw cold) 0 (leBytes 4 v.power.granted ++ leBytes 4 v.vlimit ++ leBytes 4 (if v.vlimit = 0 then 0 else
            min m32 ((2 * ((v.baseMw + v.bestCores * v.power.pcore) * 1000000) + v.vlimit) / (2 * v.vlimit))) ++ leBytes 4 0)) ∧
        (y.bond.st = .running → ∃ v p, exec (.budgetSet h mw cold) s = .next v ∧ v.power.budget = mw ∧ v.power.granted = v.grantOf ∧
          v.bond.readmitting = true ∧ v.sdio.waiting = some p ∧ p.cmd = .budgetSet mw cold ∧ v.sdio.waitBegun = true) ∧
        (y.bond.st = .admitted → ∃ w : State, exec (.budgetSet h mw cold) s =
            .next (w.admitNow.budgetReply (packetOf h.tag h.client (.budgetSet mw cold))) ∧
          w.power.budget = mw ∧ w.power.granted = w.grantOf ∧ w.bond = y.bond))) ∧
    (∀ n, n < 4 → Carried s h (.powerState n) → let to_ : PowState := lget .run [.run, .idle, .hold, .standby] n
      let pairs := ∃ d ∈ y.dies, (y.dieAt d).st = .restarting
      (y.restarting = true → refused (.powerState h n) (.powerState n) 0x0603) ∧
      (y.restarting = false → pairs → refused (.powerState h n) (.powerState n) 0x0401) ∧
      (y.restarting = false → ¬ pairs → y.mgmt.powTo = none →
        (y.mgmt.pow = to_ → refused (.powerState h n) (.powerState n) 0) ∧
        (y.mgmt.pow ≠ to_ → to_ ≠ .run → y.power.tripped = false → y.planRuns = true → refused (.powerState h n) (.powerState n) 0x0203) ∧
        (y.mgmt.pow = .run → to_ = .idle → y.power.tripped = false → y.planRuns = false → y.anyTask = true → refused (.powerState h n) (.powerState n) 0x0401) ∧
        (y.mgmt.pow ≠ .run → to_ = .run → y.power.tripped = true → y.coolEnough = false → refused (.powerState h n) (.powerState n) 0x0203) ∧
        (y.mgmt.pow ≠ to_ → to_ = .hold ∨ to_ = .standby → y.planRuns = false → ∃ v p, exec (.powerState h n) s = .next v ∧ v.sdio.waiting = some p ∧
          p.cmd = .powerState n ∧ v.mgmt.powTo = some to_ ∧ v.plumb.safe = true ∧ v.plumb.targets = y.fallbackAll.plumb.targets ∧
          OnlyIn [.plumb, .mgmt, .sdio] y v) ∧
        (y.mgmt.pow = .run → to_ = .idle → y.power.tripped = false → y.planRuns = false → y.anyTask = false → ∃ v p,
          exec (.powerState h n) s = .next v ∧ v.sdio.waiting = some p ∧ p.cmd = .powerState n ∧ v.mgmt.powTo = some .idle ∧
          OnlyIn [.mgmt, .sdio] y v) ∧
        (y.mgmt.pow = .idle → to_ = .run → y.power.tripped = false → ∃ v p, exec (.powerState h n) s = .next v ∧ v.sdio.waiting = some p ∧
          p.cmd = .powerState n ∧ v.mgmt.powTo = some .run ∧ OnlyIn [.mgmt, .sdio] y v)))

/-- R528, R529, R538, R543, R545, R568, R570: PWRGD and RESET_N start Vyuri from its defaults, keeping after a reset what R545 keeps; firmware that does
not verify, or a failed slice of Plumb, is FAILED; the fall of PWRGD holds it in reset. The loss of a reference clock puts every target in fallback
and leaves PD00 alone, of the Ethernet clock every link down, of the CXP clock every group down. R490: NET_PORTp_MAC start at the port's fuse. R289: the
frames of a bank that no spare repairs are withdrawn; such a bank in the fixed region fails the die pair. -/
def Obligations.StartUpAndResets : Prop :=
  ∀ (t : Nat) (f : Fuses) (b : Board) (ok : Bool) (bist : Bist) (s : State), let u := s.to t
    let on := ((u.fuses f).inReset true).updMgmt (fun m => { m with pwrgd := true })
    let off := (u.inReset false).updMgmt (fun m =>
      { m with resetN := false, startup := { kind := if u.mgmt.st == .boot then u.mgmt.startup.kind else 1 }, jtagDrives := decide (3 ≤ m.jtag) })
    let up := u.updMgmt (fun m => { m with resetN := true, jtagDrives := false })
    exec (.powerOn t f b ok) s = .next (if u.mgmt.resetN = true then on.boot 0 b ok else on) ∧
    exec (.resetN t true b ok) s = .next off ∧
    (u.mgmt.resetN = true → exec (.resetN t false b ok) s = .next u) ∧
    (u.mgmt.resetN = false → exec (.resetN t false b ok) s = .next (if u.mgmt.pwrgd = true then up.boot u.mgmt.startup.kind b ok else up)) ∧
    (∃ v, exec (.pwrgdFall t) s = .next v ∧ v.mgmt.pwrgd = false ∧ v.mgmt.st = .boot ∧ v.power.on = 1#20 ∧ v.sdio.evLog = [] ∧ v.mem = [] ∧
      v.course.sp = 0 ∧ v.mgmt.ownerKeys = u.mgmt.ownerKeys ∧ v.mgmt.serial = u.mgmt.serial) ∧
    (∀ a, (∀ p, p < 4 → u.hasPort p = true → a ≠ aPort p + 8 ∧ a ≠ aPort p + 0xC) → (u.inReset true).regGet a = regReset u.part a) ∧
    (∀ p, p < 4 → u.hasPort p = true → let mac := lget 0 u.mgmt.macs p
      (u.inReset true).regGet (aPort p + 8) = wordOf mac ∧ (u.inReset true).regGet (aPort p + 0xC) = wordOf (mac / 2 ^ 32 % 65536)) ∧
    (∀ d, let v := u.repairMaps bist d
      OnlyIn [.mt, .die] u v ∧ ∀ x ∈ bist.badBanks, x.1 = d → x.2 < 64 → ∀ k, k < 64 → 4096 * d + 64 * x.2 + k ∈ v.mt.withdrawn) ∧
    (∀ d, (u.dieAt d).st ≠ .failed → d < u.die.length → (bist.badDies.testBit d = true ∨ ∃ x ∈ bist.badBanks, x.1 = d ∧ x.2 < 26) →
      ((u.dieStart bist d).dieAt d).st = .failed) ∧
    (∀ k, (u.inReset k).mem = [] ∧ (u.inReset k).bond.st = .empty ∧ (u.inReset k).sdio.models = [] ∧ (u.inReset k).sdio.replies = [] ∧
      (u.inReset k).mgmt.st = .boot ∧ (u.inReset k).course.sp = 0 ∧ (u.inReset k).pending = u.pending ∧ (u.inReset k).now = u.now) ∧
    ((u.inReset false).sdio.evLog = u.sdio.evLog ∧ (u.inReset false).sdio.violLog = u.sdio.violLog ∧
      (u.inReset false).mgmt.ownerSig = u.mgmt.ownerSig ∧ (u.inReset false).power.fault = u.power.fault ∧
      (∀ c, c < u.mt.qch.length → ((u.inReset false).qchAt c).st = .excluded ↔ (u.qchAt c).st = .excluded) ∧
      (∀ d, d < u.die.length → ((u.inReset false).dieAt d).st = .failed ↔ (u.dieAt d).st = .failed)) ∧
    (∀ c, (u.firmware b = none → (u.boot c b ok).mgmt.st = .failed ∧ (u.boot c b ok).power.on = u.power.on) ∧
      (b.config = [] → ∀ k w d one, u.firmware b = some (k, w, d, one) → (u.boot c b ok).mgmt.fwVersion = w ∧ (u.boot c b ok).mgmt.fwDigest = d ∧
        (u.boot c b ok).mgmt.fwSlot = k ∧ (u.boot c b ok).mgmt.st = .starting)) ∧
    (u.mgmt.st = .starting → (∃ g, g < u.nGrp ∧ (u.grpAt g).st = .discovering ∧ (u.grpAt g).retry = false) →
      exec (.startupComplete t bist) s = .next u) ∧
    (u.mgmt.st = .starting → (∀ g, g < u.nGrp → (u.grpAt g).st = .discovering → (u.grpAt g).retry = true) →
      let w := (u.stepsRun bist).stepsEnd bist
      exec (.startupComplete t bist) s = .next (if w.mgmt.powTo = some .run then
        ((w.updMgmt (fun m => { m with powTo := none })).waitEnd (fun s q => s.answer q 0)).pump else w.pump)) ∧
    (u.mgmt.startup.kind < 3 → (u.stepsEnd bist).mgmt.st =
      (if u.mgmt.startup.stFail = true ∨ (∀ d ∈ u.dies, (u.dieAt d).st = .failed) then .failed else .ready)) ∧
    (u.mgmt.st ≠ .starting → exec (.startupComplete t bist) s = .next u) ∧
    (u.mgmt.refclk = true → ∃ w : State, exec (.refclkLoss t) s = .next ((w.sleep .standby).updMgmt (fun m => { m with refclk := false, powTo := none })) ∧
      w.plumb.safe = true ∧ w.plumb.okA = false ∧ w.plumb.okB = false ∧ w.plumb.targets = u.fallbackAll.plumb.targets ∧ OnlyIn [.plumb] u w) ∧
    (u.mgmt.refclk = false → exec (.refclkLoss t) s = .next u) ∧
    (∃ w : State, exec (.ethclkLoss t) s = .next (w.each (List.range 4) (fun s p => s.linkSet p false)) ∧ w.mgmt.ethclk = false ∧ OnlyIn [.mgmt] u w) ∧
    (∃ w : State, exec (.cxpclkLoss t) s = .next (w.each (List.range w.nGrp) (fun s g => s.groupDown g)) ∧ w.mgmt.cxpclk = false ∧ OnlyIn [.mgmt] u w)

/-- R541, R542, R544, R550: the state a POWER_STATE moves to is reached: IDLE with every core off and its store empty, RUN with the cores on again, HOLD
and STANDBY with the plan EMPTY, the models unloaded, the stores empty and only the domains of R541 on; the command that waited is answered. A domain
that does not come up is off for good; its die pair fails, or Vyuri does. -/
def Obligations.PowerStatesAndDomains : Prop :=
  ∀ (t pd : Nat) (s : State), let u := s.to t
    (u.mgmt.powTo = none ∨ u.mgmt.st = .starting → exec (.powerStateReached t) s = .next u) ∧
    (∀ p to_, u.mgmt.powTo = some to_ → u.mgmt.st ≠ .starting → u.sdio.waiting = some p → u.sdio.cmdBuf = [] → u.mgmt.resetAt = none →
      (to_ = .idle ∨ to_ = .run → ∃ v, exec (.powerStateReached t) s = .next v ∧ v.mgmt.powTo = none ∧ v.mgmt.pow = to_ ∧ v.sdio.waiting = none ∧
        v.sdio.replies = u.sdio.replies ++ [{ status := 0, tag := p.tag, client := p.client, opcode := p.opcode, bytes := [] }] ∧
        v.bond = u.bond ∧ v.power = u.power ∧
        (to_ = .idle → ∀ d c k, d < u.nDie → c < 52 → k < 0x200000 → v.ldB (memKey (spCore d c) k) = 0#8)) ∧
      (to_ = .hold ∨ to_ = .standby →
        exec (.powerStateReached t) s = .next ((u.enterLow to_).waitEnd (fun s q => s.answer q 0)).pump)) ∧
    (∀ to_, to_ = .standby ∨ (to_ = .hold ∧ u.mgmt.pow ≠ .standby) → let v := u.enterLow to_
      v.power.on = ((if to_ = .hold then 0x8000B#20 else 1#20) &&& ~~~u.power.fault) ∧ v.mgmt.pow = to_ ∧ v.mgmt.powTo = none ∧
      v.bond.st = .empty ∧ v.bond.plan = none ∧ v.sdio.models = [] ∧ v.mem = [] ∧ v.power.meter = u.power.meter) ∧
    (u.hasPd pd = true → u.power.fault.getLsbD pd = false → pd < 20 →
      (pdDie pd < 4 → ∃ w : State, exec (.domainFault t pd) s = .next (w.dieFail (pdDie pd)) ∧ w.power.fault.getLsbD pd = true ∧ w.power.on.getLsbD pd = false ∧
        w.rbit evPower 0 = true ∧ w.mgmt.st = u.mgmt.st) ∧
      (4 ≤ pdDie pd → ∃ v, exec (.domainFault t pd) s = .next v ∧ v.power.fault.getLsbD pd = true ∧ v.power.on.getLsbD pd = false ∧ v.mgmt.st = .failed ∧
        v.plumb.safe = true ∧ v.plumb.targets = u.fallbackAll.plumb.targets ∧ v.rbit evPower 0 = true ∧ v.bond = u.bond)) ∧
    (u.hasPd pd = false ∨ u.power.fault.getLsbD pd = true → exec (.domainFault t pd) s = .next u)

/-- R552 to R554, R556, R558, R559, R562: each millisecond the meters add the energy of every domain that is on, the package figures are formed, and an
average above b_eff raises OVER_BUDGET once and recalibrates. A reading at TJ_MAX less HOT_MARGIN is hot, every further 100 ms DERATE rises, to at
most 50; a cool second lowers it; a change recomputes the grant; TJ_MAX + 5 °C trips. -/
def Obligations.EnergyAndTemperature : Prop :=
  ∀ (t : Nat) (uj temps : List Nat) (h : Hdr) (s : State), let u := s.to t
    let y := s.atHost h
    let e (n : Nat) : Nat := if u.pdomOn n then lget 0 uj n else 0
    let tot := ((List.range 20).map e).sum
    let x (i : Nat) : Int := signedOf 16 (lget 0 temps i % 65536)
    let live (i : Nat) : Prop := i < 21 ∧ u.pdomOn (sensorPd i) = true
    let hotAt := 16 * (u.tjMax - u.hotMargin)
    (∃ v w : State, exec (.energyMeter t uj) s = .next v ∧ (v = w ∨ v = (w.raise evPower 5).recalibrate) ∧
      w.power.meter = (List.range 20).map (fun n => (lget 0 u.power.meter n + e n) % 2 ^ 64) ∧ w.power.pkg = tot ∧
      w.power.overBudget = decide (w.effBudget < w.power.avg) ∧ (w.power.overBudget = false ∨ u.power.overBudget = true → v = w) ∧
      (w.power.overBudget = true → u.power.overBudget = false → v = (w.raise evPower 5).recalibrate) ∧ OnlyIn [.bond, .power] u w ∧
      w.power.hist.take 1 = [{ pkg := tot, half := ((List.range 8).map (fun i => e (10 + i))).sum, hwm := u.course.hwm }]) ∧
    u.grantOf = min ((min u.power.budget u.power.cap * (100 - u.power.derate) / 100 - u.baseMw) / max 1 u.power.pcore) u.coresServing ∧
    ((∀ i, live i → x i < 16 * (u.tjMax + 5)) → u.mgmt.pow = .run → ∃ v, exec (.tempSample t temps) s = .next v ∧
      v.power.temps = (List.range 21).map x ∧ (v.power.thermHot = true ↔ ∃ i, live i ∧ hotAt ≤ x i) ∧
      (v.power.thermHot = true → u.power.thermHot = false → v.rbit evPower 3 = true ∧ v.power.hotSince = some u.now) ∧
      (v.power.thermHot = false → v.power.hotSince = none) ∧ v.power.derate = u.power.derate ∧ v.plumb = u.plumb ∧ v.bond = u.bond) ∧
    ((∃ i, live i ∧ 16 * (u.tjMax + 5) ≤ x i) → u.power.tripped = false → u.mgmt.pow = .run →
      ∃ w : State, exec (.tempSample t temps) s = .next w.trip ∧ w.power.temps = (List.range 21).map x ∧ w.plumb = u.plumb ∧ w.bond = u.bond ∧
        (u.trip).power.tripped = true ∧ (u.trip).mgmt.powTo = some .hold ∧ (u.trip).plumb.safe = true ∧ (u.trip).plumb.restart = none ∧
        (u.trip).bond.st ≠ .running ∧ (u.trip).bond.startPending = false ∧ (u.trip).plumb.targets = u.fallbackAll.plumb.targets) ∧
    (let n := u.rfld 0xE002C 7 0
      let step := if 1 ≤ n ∧ n ≤ 25 then n else 5
      (∀ a, u.power.hotSince = some a → a + 50000000 ≤ u.now → ∃ w : State, exec (.derateStep t) s = .next (w.setDerate (min 50 (u.power.derate + step))) ∧
        w.power.hotSince = some (a + 50000000) ∧ w.power.derate = u.power.derate ∧ OnlyIn [.power] u w) ∧
      (∀ a, u.power.hotSince = some a → u.now < a + 50000000 → exec (.derateStep t) s = .next u) ∧
      (∀ a, u.power.hotSince = none → u.power.coolSince = some a → u.power.cool = true → a + 500000000 ≤ u.now →
        ∃ w : State, exec (.derateStep t) s = .next (w.setDerate (u.power.derate - step)) ∧ w.power.derate = u.power.derate ∧ OnlyIn [.power] u w)) ∧
    (∀ d, d ≠ u.power.derate → ∃ w : State, u.setDerate d = w.regrant ∧ w.power.derate = d ∧ w.rbit evPower 4 = true) ∧
    u.regrant.power.granted = u.grantOf ∧ (u.bond.st = .running → u.grantOf < u.power.granted → u.regrant.bond.readmitting = true) ∧
    (u.power.granted ≤ u.grantOf → u.regrant.bond = u.bond) ∧
    (Written s h 0xE000C 1 → ∃ v, exec (.powerClearCounters h) s = .next v ∧ v.regGet 0xE0034 = 0#32 ∧ v.power = y.power ∧ OnlyIn [.regs, .sdio] y v) ∧
    (Written s h 0xE000C 2 → exec (.recalibrate h) s = .next (y.recalibrate.answered h 0xE000C 2))

/-- R581, R582, R585 to R588, R596, R597: in test mode a write with ARM set arms an injection; one that is armed already is BUSY, a reserved kind expires,
one that is not allowed is refused; ARM clear cancels, and ends an injected LOS that has begun. One that has waited 1 s expires; an injected error on an encoder input counts as an error and
moves no counter. SNAPSHOT sums the error counters on one tick, DISARM_ALL cancels every injection, CLEAR_COUNTERS clears the counts. R579, R580: the
instructions of the boundary scan are loaded; one that drives pins drives them only while RESET_N is low; IDCODE names the part. None touches anything
else. -/
def Obligations.InjectionsAndBoundaryScan : Prop :=
  (∀ (t inj : Nat) (h : Hdr) (value : Word) (s : State), let u := s.to t
    let y := s.atHost h
    let rows : List (Instr × Nat) := [(.injCap h value, 0), (.injMem h value, 1), (.injPlumb h value, 2), (.injWd h value, 3), (.injCourse h value, 4)]
    (∀ x ∈ rows, let a := injReg x.2
      let m : Word := lget 0#32 [0x870FFFFF#32, 0xF7FF000F#32, 0x8F000000#32, 0xFF00FFFF#32, 0xFF00FFFF#32] x.2
      let r := y.injWrite x.2 ((y.regGet a &&& ~~~m) ||| (value &&& m))
      Written s h a value.toNat →
        exec x.1 s = .next (r.1.answer (packetOf h.tag h.client (.regWrite [(wordOf a, value)])) r.2 (leBytes 4 (if r.2 = 0 then 1 else 0)))) ∧
    (∀ i w, i < 5 → y.test.mode = true → i < y.test.inj.length → let a := injReg i
      (wbit w 31 = true → y.rbit a 31 = true → y.injWrite i w = (y, 0x0401)) ∧
      (wbit w 31 = true → y.rbit a 31 = false →
        (injKindOk i w = false → ∃ v, y.injWrite i w = (v, 0) ∧ v.rbit a 31 = false ∧ v.rbit evTest 3 = true ∧ (v.injAt i).armed = false) ∧
        (injKindOk i w = true → y.injRefused i w = true → y.injWrite i w = (y, 0x0203)) ∧
        (injKindOk i w = true → y.injRefused i w = false → i ≠ 1 → ∃ v, y.injWrite i w = (v, 0) ∧ v.regGet a = w ∧ (v.injAt i).armed = true ∧
          (v.injAt i).at_ = y.now ∧ (v.injAt i).left = injCount i w ∧ OnlyIn [.regs, .test] y v) ∧
        (injKindOk 1 w = true → y.injRefused 1 w = false → i = 1 → ∀ k, y.injWord w = some k →
          ∃ v, y.injWrite 1 w = (v, 0) ∧ v.mem = y.mem ∧ v.rbit evTest 4 = true ∧
            (∀ q ∈ v.mt.flips, q.1 ≠ k → q ∈ y.mt.flips) ∧ (wbit w 30 = false → v.rbit a 31 = false) ∧ (wbit w 30 = true → v.rbit a 31 = true))) ∧
      (wbit w 31 = false → ∃ v, y.injWrite i w = (v, 0) ∧ v.regGet a = w ∧ (y.rbit a 31 = true → (v.injAt i).armed = false) ∧
        v.course = (if i = 4 ∧ y.rbit a 31 = true ∧ y.injBegun 4 = true then y.losEnd.course else y.course) ∧
        OnlyIn [.regs, .test, .course] y v)) ∧
    (∀ i w, y.test.mode = false → y.injWrite i w = (y, 0x0203)) ∧
    ((u.injAt 4).armed = true → (u.injAt 4).at_ < u.now → let n := u.rfld 0xF0064 30 28
      (u.rfld 0xF0064 27 24 ≠ 2 → exec (.injectionDelivered t 4) s =
        .next (((List.range (max 1 (u.rfld 0xF0064 15 0))).foldl (fun s _ => s.encError n) u).delivered 4)) ∧
      (u.rfld 0xF0064 27 24 = 2 → (u.injAt 4).left = 2 → u.rbit (aEnc n) 18 = false → n < u.course.enc.length → 4 < u.test.inj.length →
        ∃ v, exec (.injectionDelivered t 4) s = .next v ∧
        (v.encAt n).los = true ∧ (v.encAt n).cnt = (u.encAt n).cnt ∧ (v.injAt 4).left = 1 ∧ OnlyIn [.course, .test] u v) ∧
      (u.rfld 0xF0064 27 24 = 2 → (u.injAt 4).left ≠ 2 → (u.injAt 4).at_ + 500 * max 1 (u.rfld 0xF0064 15 0) ≤ u.now → n < u.course.enc.length →
        ∃ v, exec (.injectionDelivered t 4) s = .next v ∧ (v.encAt n).los = false ∧ v.rbit evTest 4 = true ∧ v.rbit 0xF0064 31 = false)) ∧
    ((u.injAt 4).armed = false ∨ u.now ≤ (u.injAt 4).at_ → exec (.injectionDelivered t inj) s = .next u) ∧
    (inj ≠ 4 → exec (.injectionDelivered t inj) s = .next u) ∧
    (∀ n, (u.now :: (u.encAt n).errs.filter (fun x => decide (u.now < x + 500000))).length < max (u.rfld (aEnc n) 23 20) 1 →
      (u.encError n).regGet (aEnc n + 0xC) = u.regGet (aEnc n + 0xC) + 1#32 ∧ ((u.encError n).encAt n).cnt = (u.encAt n).cnt ∧
      (u.encError n).course.cntA = u.course.cntA ∧ (u.encError n).course.cntB = u.course.cntB ∧ (u.encError n).course.sp = u.course.sp ∧
      OnlyIn [.regs, .course] u (u.encError n)) ∧
    (inj < 5 → inj < u.test.inj.length →
      ((u.injAt inj).armed = true → u.injBegun inj = false → (u.injAt inj).at_ + 500000000 ≤ u.now →
        ∃ v, exec (.injExpired t inj) s = .next v ∧ (v.injAt inj).armed = false ∧ v.rbit (injReg inj) 31 = false ∧ v.rbit evTest 3 = true ∧
          v.rfld 0xF0014 15 0 = (u.rfld 0xF0014 15 0 + 1) % 65536) ∧
      ((u.injAt inj).armed = false ∨ u.injBegun inj = true ∨ u.now < (u.injAt inj).at_ + 500000000 → exec (.injExpired t inj) s = .next u)) ∧
    (Written s h 0xF000C 1 → ∃ v, exec (.snapshot h) s = .next v ∧ v.test.snap = (List.range 24).map y.snapSum ∧ OnlyIn [.test, .sdio] y v) ∧
    (Written s h 0xF000C 2 → ∃ v, exec (.disarmAll h) s = .next v ∧ (∀ i, i < 5 → v.rbit (injReg i) 31 = false) ∧
      (y.rbit 0xF0054 31 = true → v.test.persist = []) ∧ v.mt = y.mt ∧
      v.course = (if y.rbit 0xF0064 31 = true ∧ y.injBegun 4 = true then y.losEnd.course else y.course) ∧
      OnlyIn [.regs, .test, .course, .sdio] y v) ∧
    (Written s h 0xF000C 3 → ∃ v, exec (.testClearCounters h) s = .next v ∧ v.regGet 0xF0014 = 0#32 ∧ v.test.snap = List.replicate 24 0#32 ∧
      v.mt = y.mt ∧ OnlyIn [.regs, .test, .sdio] y v)) ∧
  (∀ (t : Nat) (s : State), let u := s.to t
    let rows : List (Instr × Nat × Bool) := [(.bypass t, 0, false), (.idcode t, 1, false), (.samplePreload t, 2, false), (.extest t, 3, true),
      (.extestPulse t, 4, true), (.extestTrain t, 5, true)]
    (∀ x ∈ rows, exec x.1 s = .next (u.updMgmt (fun m => { m with jtag := x.2.1, jtagDrives := x.2.2 && !u.mgmt.resetN }))) ∧
    u.idcode = (if u.part = .vyu4140 then 0x141405AB#32 else 0x121405AB#32))
end

