-- ==== Sys2Proof/Laws/Table.lean ====
section
/-! SUPPORT. The laws of the tables the registers and the stores are kept in: a read after a write of the same key gives the
value written, a write leaves every other key alone, and every operation keeps the canonical form. -/
namespace Sys2Proof.Machine
open Sys2Proof
set_option Elab.async false

/-- The canonical form of a table as a proposition: keys strictly rising, no value equal to its default. -/
abbrev TableOk {α : Type} (d : Nat → α) (m : List (Nat × α)) : Prop :=
  m.Pairwise (fun p q => p.1 < q.1) ∧ ∀ p ∈ m, p.2 ≠ d p.1

theorem rising_iff {α : Type} (m : List (Nat × α)) : rising m = true ↔ m.Pairwise (fun p q => p.1 < q.1) := by
  induction m with
  | nil => simp [rising]
  | cons p m ih =>
    cases m with
    | nil => simp [rising]
    | cons q m =>
      obtain ⟨i, v⟩ := p
      obtain ⟨j, w⟩ := q
      simp only [rising, Bool.and_eq_true, decide_eq_true_eq, ih, List.pairwise_cons, List.mem_cons]
      constructor
      · rintro ⟨hij, hq, hm⟩
        refine ⟨?_, hq, hm⟩
        rintro r (rfl | hr)
        · exact hij
        · exact Nat.lt_trans hij (hq r hr)
      · rintro ⟨hp, hq, hm⟩
        exact ⟨hp _ (Or.inl rfl), hq, hm⟩

theorem tableWf_iff {α : Type} [DecidableEq α] (d : Nat → α) (m : List (Nat × α)) : tableWf d m = true ↔ TableOk d m := by
  simp only [tableWf, Bool.and_eq_true, rising_iff, List.all_eq_true, decide_eq_true_eq, TableOk]

/-! ### Reading after writing -/

theorem tget_tdel_self {α : Type} (d : Nat → α) (m : List (Nat × α)) (k : Nat) : tget d (tdel m k) k = d k := by
  induction m with
  | nil => rfl
  | cons p m ih =>
    obtain ⟨j, v⟩ := p
    by_cases h : k = j
    · simpa only [tdel, if_pos h] using ih
    · simpa only [tdel, if_neg h, tget] using ih

theorem tget_tdel_ne {α : Type} (d : Nat → α) (m : List (Nat × α)) (k a : Nat) (ha : a ≠ k) :
    tget d (tdel m k) a = tget d m a := by
  induction m with
  | nil => rfl
  | cons p m ih =>
    obtain ⟨j, v⟩ := p
    by_cases h : k = j
    · have : a ≠ j := fun e => ha (e.trans h.symm)
      simpa only [tdel, if_pos h, tget, if_neg this] using ih
    · simp only [tdel, if_neg h, tget, ih]

theorem tget_tins_self {α : Type} (d : Nat → α) (m : List (Nat × α)) (k : Nat) (x : α) : tget d (tins m k x) k = x := by
  induction m with
  | nil => simp only [tins, tget, if_true]
  | cons p m ih =>
    obtain ⟨j, v⟩ := p
    by_cases h : k < j
    · simp only [tins, if_pos h, tget, if_true]
    · by_cases e : k = j
      · simp only [tins, if_neg h, if_pos e, tget, if_true]
      · simpa only [tins, if_neg h, if_neg e, tget] using ih

theorem tget_tins_ne {α : Type} (d : Nat → α) (m : List (Nat × α)) (k a : Nat) (x : α) (ha : a ≠ k) :
    tget d (tins m k x) a = tget d m a := by
  induction m with
  | nil => simp only [tins, tget, if_neg ha]
  | cons p m ih =>
    obtain ⟨j, v⟩ := p
    by_cases h : k < j
    · simp only [tins, if_pos h, tget, if_neg ha]
    · by_cases e : k = j
      · have : a ≠ j := fun f => ha (f.trans e.symm)
        simp only [tins, if_neg h, if_pos e, tget, if_neg ha, if_neg this]
      · simp only [tins, if_neg h, if_neg e, tget, ih]

/-- A table reads what was written. -/
theorem tget_tset_self {α : Type} [DecidableEq α] (d : Nat → α) (m : List (Nat × α)) (k : Nat) (x : α) :
    tget d (tset d m k x) k = x := by
  unfold tset
  split
  · rename_i h; rw [tget_tdel_self, h]
  · exact tget_tins_self d m k x

/-- A write of a table leaves every other key alone. -/
theorem tget_tset_ne {α : Type} [DecidableEq α] (d : Nat → α) (m : List (Nat × α)) (k a : Nat) (x : α) (ha : a ≠ k) :
    tget d (tset d m k x) a = tget d m a := by
  unfold tset
  split
  · exact tget_tdel_ne d m k a ha
  · exact tget_tins_ne d m k a x ha

/-! ### The canonical form is kept -/

theorem mem_tdel {α : Type} {m : List (Nat × α)} {k : Nat} {p : Nat × α} (h : p ∈ tdel m k) : p ∈ m := by
  induction m with
  | nil => exact absurd h (by simp [tdel])
  | cons q m ih =>
    obtain ⟨j, v⟩ := q
    by_cases e : k = j
    · rw [tdel, if_pos e] at h; exact List.mem_cons_of_mem _ (ih h)
    · rw [tdel, if_neg e] at h
      rcases List.mem_cons.1 h with h | h
      · exact h ▸ List.mem_cons_self
      · exact List.mem_cons_of_mem _ (ih h)

theorem mem_tins {α : Type} {m : List (Nat × α)} {k : Nat} {x : α} {p : Nat × α} (h : p ∈ tins m k x) :
    p = (k, x) ∨ p ∈ m := by
  induction m with
  | nil => exact Or.inl (by simpa [tins] using h)
  | cons q m ih =>
    obtain ⟨j, v⟩ := q
    by_cases e : k < j
    · rw [tins, if_pos e] at h
      exact (List.mem_cons.1 h).imp_right id
    · by_cases f : k = j
      · rw [tins, if_neg e, if_pos f] at h
        exact (List.mem_cons.1 h).imp_right (List.mem_cons_of_mem _)
      · rw [tins, if_neg e, if_neg f] at h
        rcases List.mem_cons.1 h with h | h
        · exact Or.inr (h ▸ List.mem_cons_self)
        · exact (ih h).imp_right (List.mem_cons_of_mem _)

theorem tdel_ok {α : Type} {d : Nat → α} {m : List (Nat × α)} (k : Nat) (h : TableOk d m) : TableOk d (tdel m k) := by
  refine ⟨?_, fun p hp => h.2 p (mem_tdel hp)⟩
  have h1 := h.1
  clear h
  induction m with
  | nil => exact List.Pairwise.nil
  | cons q m ih =>
    obtain ⟨j, v⟩ := q
    rw [List.pairwise_cons] at h1
    by_cases e : k = j
    · rw [tdel, if_pos e]; exact ih h1.2
    · rw [tdel, if_neg e]; exact List.pairwise_cons.2 ⟨fun p hp => h1.1 p (mem_tdel hp), ih h1.2⟩

theorem tins_ok {α : Type} {d : Nat → α} {m : List (Nat × α)} {k : Nat} {x : α} (hx : x ≠ d k) (h : TableOk d m) :
    TableOk d (tins m k x) := by
  refine ⟨?_, fun p hp => ?_⟩
  · have h1 := h.1
    clear h hx
    induction m with
    | nil => simp [tins]
    | cons q m ih =>
      obtain ⟨j, v⟩ := q
      have h2 := List.pairwise_cons.1 h1
      by_cases e : k < j
      · rw [tins, if_pos e]
        refine List.pairwise_cons.2 ⟨fun p hp => ?_, h1⟩
        rcases List.mem_cons.1 hp with rfl | hp
        · exact e
        · exact Nat.lt_trans e (h2.1 p hp)
      · by_cases f : k = j
        · rw [tins, if_neg e, if_pos f]
          exact List.pairwise_cons.2 ⟨fun p hp => f ▸ h2.1 p hp, h2.2⟩
        · rw [tins, if_neg e, if_neg f]
          refine List.pairwise_cons.2 ⟨fun p hp => ?_, ih h2.2⟩
          rcases mem_tins hp with rfl | hp
          · show j < k
            omega
          · exact h2.1 p hp
  · rcases mem_tins hp with rfl | hp
    · exact hx
    · exact h.2 p hp

/-- A write keeps the canonical form. -/
theorem tset_ok {α : Type} [DecidableEq α] {d : Nat → α} {m : List (Nat × α)} (k : Nat) (x : α) (h : TableOk d m) :
    TableOk d (tset d m k x) := by
  unfold tset
  split
  · exact tdel_ok k h
  · exact tins_ok ‹_› h

/-- Dropping entries keeps the canonical form. -/
theorem filter_ok {α : Type} {d : Nat → α} {m : List (Nat × α)} (f : Nat × α → Bool) (h : TableOk d m) :
    TableOk d (m.filter f) :=
  ⟨h.1.filter f, fun p hp => h.2 p (List.mem_filter.1 hp).1⟩

end Sys2Proof.Machine
end

