-- ==== Sys2Proof/Laws/Keeps.lean ====
section
/-! SUPPORT. What every operation of the model keeps, said once: the queue of waiting commands as it is, the time never
going back, and the canonical forms of the registers and of the stores. Each operation has one lemma (in the files
Laws/Keeps*.lean) that says so of it, under the premise that the state it is given has kept as much. -/
namespace Sys2Proof.Machine
set_option Elab.async false

/-- What a state t has kept of a state a. -/
structure Keeps (a t : State) : Prop where
  pending : t.pending = a.pending
  now : a.now ≤ t.now
  regs : Registers.wf a.part a.regs → Registers.wf t.part t.regs
  mem : Memory.wf a.mem → Memory.wf t.mem
  sized : a.Sized → t.Sized

theorem Keeps.refl (a : State) : Keeps a a := ⟨rfl, Nat.le_refl _, id, id, id⟩

theorem Keeps.trans {a b c : State} (h : Keeps a b) (k : Keeps b c) : Keeps a c :=
  ⟨k.pending.trans h.pending, Nat.le_trans h.now k.now, fun r => k.regs (h.regs r), fun r => k.mem (h.mem r),
    fun r => k.sized (h.sized r)⟩

/-- A state whose time, part, registers, stores and queue are those of s, whatever its other fields are, has kept as
      much. -/
theorem keeps_upd {a s : State} {snaps_ cyc_ cycAt_ freq_ changing_ fresh_ course_ tn_ acq_ die_ stream_ kv_ adapt_
      mt_ bond_ line_ plumb_ power_ test_ mgmt_ sdio_}
    (h : Keeps a s)
    (hz : s.Sized → State.Sized ⟨s.part, s.now, s.regs, s.mem, snaps_, cyc_, cycAt_, freq_, changing_, fresh_, course_, tn_, acq_, die_,
      stream_, kv_, adapt_, mt_, bond_, line_, plumb_, power_, test_, mgmt_, sdio_, s.pending⟩) :
    Keeps a ⟨s.part, s.now, s.regs, s.mem, snaps_, cyc_, cycAt_, freq_, changing_, fresh_, course_, tn_, acq_, die_,
      stream_, kv_, adapt_, mt_, bond_, line_, plumb_, power_, test_, mgmt_, sdio_, s.pending⟩ :=
  ⟨h.pending, h.now, h.regs, h.mem, fun r => hz (h.sized r)⟩

/-- A change of the stores that keeps their canonical form. -/
theorem keeps_mem {a s t : State} (h : Keeps a s) (hq : t.pending = s.pending) (hn : t.now = s.now) (hp : t.part = s.part)
    (hr : t.regs = s.regs) (hm : Memory.wf s.mem → Memory.wf t.mem) (hz : s.Sized → t.Sized) : Keeps a t :=
  ⟨hq.trans h.pending, hn ▸ h.now, fun r => by rw [hp, hr]; exact h.regs r, fun r => hm (h.mem r), fun r => hz (h.sized r)⟩

/-! ### The forms of a definition's body

`Keeps` for an answer that is a state, `KeepsL` and `KeepsR` for one that is a pair with the state on its left or right,
`KeepsO` for one that may be absent, `KeepsN` for a command's outcome: it completes, and its next state keeps as much. -/

def KeepsL {α : Type} (a : State) (p : State × α) : Prop := Keeps a p.1
def KeepsR {α : Type} (a : State) (p : α × State) : Prop := Keeps a p.2
def KeepsO (a : State) (o : Option State) : Prop := ∀ t, o = some t → Keeps a t
def KeepsN (a : State) (o : Out) : Prop := ∃ t, o = .next t ∧ Keeps a t

theorem keepsL_mk {α : Type} {a s : State} {x : α} (h : Keeps a s) : KeepsL a (s, x) := h
theorem keepsR_mk {α : Type} {a s : State} {x : α} (h : Keeps a s) : KeepsR a (x, s) := h
theorem keepsO_some {a s : State} (h : Keeps a s) : KeepsO a (some s) := fun _ e => Option.some.inj e ▸ h
theorem keepsO_none {a : State} : KeepsO a none := fun _ e => nomatch e
theorem keepsN_next {a s : State} (h : Keeps a s) : KeepsN a (.next s) := ⟨s, rfl, h⟩
theorem KeepsL.fst {α : Type} {a : State} {p : State × α} (h : KeepsL a p) : Keeps a p.1 := h
theorem KeepsR.snd {α : Type} {a : State} {p : α × State} (h : KeepsR a p) : Keeps a p.2 := h
theorem KeepsL.eq {α : Type} {a s : State} {p : State × α} {x : α} (h : KeepsL a p) (e : p = (s, x)) : Keeps a s := by
  subst e; exact h
theorem KeepsR.eq {α : Type} {a s : State} {p : α × State} {x : α} (h : KeepsR a p) (e : p = (x, s)) : Keeps a s := by
  subst e; exact h
theorem KeepsO.eq {a s : State} {o : Option State} (h : KeepsO a o) (e : o = some s) : Keeps a s := h s e
theorem KeepsL.of_eq {α : Type} {a s : State} {p : State × α} {x : α} {G : Prop} (e : p = (s, x)) (h : KeepsL a p)
    (k : Keeps a s → G) : G := k (h.eq e)
theorem KeepsR.of_eq {α : Type} {a s : State} {p : α × State} {x : α} {G : Prop} (e : p = (x, s)) (h : KeepsR a p)
    (k : Keeps a s → G) : G := k (h.eq e)
theorem KeepsO.of_eq {a s : State} {o : Option State} {G : Prop} (e : o = some s) (h : KeepsO a o)
    (k : Keeps a s → G) : G := k (h.eq e)
theorem KeepsO.getD {a s : State} {o : Option State} (h : KeepsO a o) (hs : Keeps a s) : Keeps a (o.getD s) := by
  cases o with
  | none => exact hs
  | some t => exact h t rfl

theorem keeps_ite {a s t : State} {c : Prop} [Decidable c] (h : Keeps a s) (k : Keeps a t) : Keeps a (if c then s else t) := by
  split
  · exact h
  · exact k
theorem keepsL_ite {α : Type} {a : State} {s t : State × α} {c : Prop} [Decidable c] (h : KeepsL a s) (k : KeepsL a t) :
    KeepsL a (if c then s else t) := by
  split
  · exact h
  · exact k
theorem keepsR_ite {α : Type} {a : State} {s t : α × State} {c : Prop} [Decidable c] (h : KeepsR a s) (k : KeepsR a t) :
    KeepsR a (if c then s else t) := by
  split
  · exact h
  · exact k
theorem keepsO_ite {a : State} {s t : Option State} {c : Prop} [Decidable c] (h : KeepsO a s) (k : KeepsO a t) :
    KeepsO a (if c then s else t) := by
  split
  · exact h
  · exact k
theorem keepsN_ite {a : State} {s t : Out} {c : Prop} [Decidable c] (h : KeepsN a s) (k : KeepsN a t) :
    KeepsN a (if c then s else t) := by
  split
  · exact h
  · exact k

/-! ### Repetition -/

theorem keeps_foldl {α : Type} {a : State} {f : State → α → State} {l : List α} {s : State}
    (hf : ∀ s x, Keeps a s → Keeps a (f s x)) (h : Keeps a s) : Keeps a (l.foldl f s) := by
  induction l generalizing s with
  | nil => exact h
  | cons x l ih => exact ih (hf s x h)

theorem keepsL_foldl {α β : Type} {a : State} {f : State × β → α → State × β} {l : List α} {p : State × β}
    (hf : ∀ p x, KeepsL a p → KeepsL a (f p x)) (h : KeepsL a p) : KeepsL a (l.foldl f p) := by
  induction l generalizing p with
  | nil => exact h
  | cons x l ih => exact ih (hf p x h)

theorem keepsR_foldl {α β : Type} {a : State} {f : β × State → α → β × State} {l : List α} {p : β × State}
    (hf : ∀ p x, KeepsR a p → KeepsR a (f p x)) (h : KeepsR a p) : KeepsR a (l.foldl f p) := by
  induction l generalizing p with
  | nil => exact h
  | cons x l ih => exact ih (hf p x h)

theorem keepsO_foldl {α : Type} {a : State} {f : Option State → α → Option State} {l : List α} {o : Option State}
    (hf : ∀ o x, KeepsO a o → KeepsO a (f o x)) (h : KeepsO a o) : KeepsO a (l.foldl f o) := by
  induction l generalizing o with
  | nil => exact h
  | cons x l ih => exact ih (hf o x h)

theorem keepsO_bind {a : State} {o : Option State} {f : State → Option State} (h : KeepsO a o)
    (hf : ∀ s, Keeps a s → KeepsO a (f s)) : KeepsO a (o.bind f) := by
  cases o with
  | none => exact keepsO_none
  | some s => exact hf s (h s rfl)

theorem State.each_keeps {α : Type} {a s : State} {l : List α} {f : State → α → State}
    (h : Keeps a s) (hf : ∀ s x, Keeps a s → Keeps a (f s x)) : Keeps a (s.each l f) := keeps_foldl hf h

theorem guardNext_keeps {a s : State} {c : Bool} {f : State → State} (h : Keeps a s)
    (hf : ∀ s, Keeps a s → Keeps a (f s)) : KeepsN a (guardNext c s f) := ⟨_, rfl, keeps_ite (hf s h) h⟩

/-! ### Updates of one part of the state -/

theorem State.updCourse_keeps {a s : State} {f : Course → Course} (h : Keeps a s) (hf : ∀ x, x.Sized → (f x).Sized) :
    Keeps a (s.updCourse f) :=
  ⟨h.pending, h.now, h.regs, h.mem, fun q => let r := h.sized q; ⟨hf _ r.1, r.2, r.3, r.4, r.5, r.6, r.7, r.8, r.9, r.10⟩⟩

theorem State.updTn_keeps {a s : State} {f : TimeNet → TimeNet} (h : Keeps a s) (hf : ∀ x, x.Sized → (f x).Sized) :
    Keeps a (s.updTn f) :=
  ⟨h.pending, h.now, h.regs, h.mem, fun q => let r := h.sized q; ⟨r.1, hf _ r.2, r.3, r.4, r.5, r.6, r.7, r.8, r.9, r.10⟩⟩

theorem State.updAcq_keeps {a s : State} {f : Acq → Acq} (h : Keeps a s) (hf : ∀ x, x.Sized → (f x).Sized) :
    Keeps a (s.updAcq f) :=
  ⟨h.pending, h.now, h.regs, h.mem, fun q => let r := h.sized q; ⟨r.1, r.2, hf _ r.3, r.4, r.5, r.6, r.7, r.8, r.9, r.10⟩⟩

theorem State.updMt_keeps {a s : State} {f : MemTier → MemTier} (h : Keeps a s) (hf : ∀ x, x.Sized → (f x).Sized) :
    Keeps a (s.updMt f) :=
  ⟨h.pending, h.now, h.regs, h.mem, fun q => let r := h.sized q; ⟨r.1, r.2, r.3, r.4, r.5, r.6, hf _ r.7, r.8, r.9, r.10⟩⟩

theorem State.updLine_keeps {a s : State} {f : Line → Line} (h : Keeps a s) (hf : ∀ x, x.Sized → (f x).Sized) :
    Keeps a (s.updLine f) :=
  ⟨h.pending, h.now, h.regs, h.mem, fun q => let r := h.sized q; ⟨r.1, r.2, r.3, r.4, r.5, r.6, r.7, hf _ r.8, r.9, r.10⟩⟩

theorem State.updPlumb_keeps {a s : State} {f : Plumb → Plumb} (h : Keeps a s) (hf : ∀ x, x.Sized → (f x).Sized) :
    Keeps a (s.updPlumb f) :=
  ⟨h.pending, h.now, h.regs, h.mem, fun q => let r := h.sized q; ⟨r.1, r.2, r.3, r.4, r.5, r.6, r.7, r.8, hf _ r.9, r.10⟩⟩

theorem State.updTest_keeps {a s : State} {f : Test → Test} (h : Keeps a s) (hf : ∀ x, x.Sized → (f x).Sized) :
    Keeps a (s.updTest f) :=
  ⟨h.pending, h.now, h.regs, h.mem, fun q => let r := h.sized q; ⟨r.1, r.2, r.3, r.4, r.5, r.6, r.7, r.8, r.9, hf _ r.10⟩⟩

theorem State.updAdapt_keeps {a s : State} {f : Adapt → Adapt} (h : Keeps a s) : Keeps a (s.updAdapt f) :=
  ⟨h.pending, h.now, h.regs, h.mem, fun q => let r := h.sized q; ⟨r.1, r.2, r.3, r.4, r.5, r.6, r.7, r.8, r.9, r.10⟩⟩

theorem State.updBond_keeps {a s : State} {f : Bond → Bond} (h : Keeps a s) : Keeps a (s.updBond f) :=
  ⟨h.pending, h.now, h.regs, h.mem, fun q => let r := h.sized q; ⟨r.1, r.2, r.3, r.4, r.5, r.6, r.7, r.8, r.9, r.10⟩⟩

theorem State.updPower_keeps {a s : State} {f : Power → Power} (h : Keeps a s) : Keeps a (s.updPower f) :=
  ⟨h.pending, h.now, h.regs, h.mem, fun q => let r := h.sized q; ⟨r.1, r.2, r.3, r.4, r.5, r.6, r.7, r.8, r.9, r.10⟩⟩

theorem State.updMgmt_keeps {a s : State} {f : Mgmt → Mgmt} (h : Keeps a s) : Keeps a (s.updMgmt f) :=
  ⟨h.pending, h.now, h.regs, h.mem, fun q => let r := h.sized q; ⟨r.1, r.2, r.3, r.4, r.5, r.6, r.7, r.8, r.9, r.10⟩⟩

theorem State.updSdio_keeps {a s : State} {f : Sdio → Sdio} (h : Keeps a s) : Keeps a (s.updSdio f) :=
  ⟨h.pending, h.now, h.regs, h.mem, fun q => let r := h.sized q; ⟨r.1, r.2, r.3, r.4, r.5, r.6, r.7, r.8, r.9, r.10⟩⟩

theorem lmod_len {α : Type} (l : List α) (i : Nat) (f : α → α) : (lmod l i f).length = l.length := by simp [lmod]

theorem mem_lmod {α : Type} {l : List α} {i : Nat} {f : α → α} {y : α} (h : y ∈ lmod l i f) : y ∈ l ∨ ∃ x ∈ l, y = f x := by
  unfold lmod at h
  induction l generalizing i with
  | nil => exact Or.inl (by simp at h)
  | cons x l ih =>
    cases i with
    | zero =>
      rw [List.modify_zero_cons] at h
      rcases List.mem_cons.1 h with h | h
      · exact Or.inr ⟨x, List.mem_cons_self, h⟩
      · exact Or.inl (List.mem_cons_of_mem _ h)
    | succ i =>
      rw [List.modify_succ_cons] at h
      rcases List.mem_cons.1 h with h | h
      · exact Or.inl (h ▸ List.mem_cons_self)
      · rcases ih h with h | ⟨z, hz, h⟩
        · exact Or.inl (List.mem_cons_of_mem _ h)
        · exact Or.inr ⟨z, List.mem_cons_of_mem _ hz, h⟩

theorem State.updDie_keeps {a s : State} {i : Nat} {f : Die → Die} (h : Keeps a s) (hf : ∀ x, x.Sized → (f x).Sized) :
    Keeps a (s.updDie i f) :=
  ⟨h.pending, h.now, h.regs, h.mem, fun q => let r := h.sized q
    ⟨r.1, r.2, r.3, ⟨(lmod_len _ _ _).trans r.4.1, fun y hy => by
      rcases mem_lmod hy with hy | ⟨x, hx, rfl⟩
      · exact r.4.2 y hy
      · exact hf x (r.4.2 x hx)⟩, r.5, r.6, r.7, r.8, r.9, r.10⟩⟩

theorem State.updStream_keeps {a s : State} {i : Nat} {f : Stream → Stream} (h : Keeps a s) : Keeps a (s.updStream i f) :=
  ⟨h.pending, h.now, h.regs, h.mem, fun q => let r := h.sized q
    ⟨r.1, r.2, r.3, r.4, (lmod_len _ _ _).trans r.5, r.6, r.7, r.8, r.9, r.10⟩⟩

theorem State.updKv_keeps {a s : State} {i : Nat} {f : Kv → Kv} (h : Keeps a s) : Keeps a (s.updKv i f) :=
  ⟨h.pending, h.now, h.regs, h.mem, fun q => let r := h.sized q
    ⟨r.1, r.2, r.3, r.4, r.5, (lmod_len _ _ _).trans r.6, r.7, r.8, r.9, r.10⟩⟩

/-! ### The operations that write registers and stores -/

theorem State.regSet_keeps {a s : State} {k : Nat} {w : Word} (h : Keeps a s) : Keeps a (s.regSet k w) :=
  ⟨h.pending, h.now, fun r => (tableWf_iff _ _).2 (tset_ok k w ((tableWf_iff _ _).1 (h.regs r))), h.mem,
    fun r => ⟨(h.sized r).1, (h.sized r).2, (h.sized r).3, (h.sized r).4, (h.sized r).5, (h.sized r).6, (h.sized r).7,
      (h.sized r).8, (h.sized r).9, (h.sized r).10⟩⟩

theorem memPut_ok {m : List (Nat × Byte)} {k : Nat} {b : Byte} (h : Memory.wf m) : Memory.wf (memPut m k b) :=
  (tableWf_iff _ _).2 (tset_ok k b ((tableWf_iff _ _).1 h))

theorem memPuts_ok {m : List (Nat × Byte)} {k : Nat} {bs : List Byte} (h : Memory.wf m) : Memory.wf (memPuts m k bs) := by
  induction bs generalizing m k with
  | nil => exact h
  | cons b bs ih => exact ih (memPut_ok h)

theorem State.stBytes_keeps {a s : State} {k : Nat} {bs : List Byte} (h : Keeps a s) : Keeps a (s.stBytes k bs) :=
  keeps_mem h rfl rfl rfl rfl memPuts_ok (fun r => ⟨r.1, r.2, r.3, r.4, r.5, r.6, r.7, r.8, r.9, r.10⟩)

theorem State.zero_keeps {a s : State} {k n : Nat} (h : Keeps a s) : Keeps a (s.zero k n) :=
  keeps_mem h rfl rfl rfl rfl (fun r => (tableWf_iff _ _).2 (filter_ok _ ((tableWf_iff _ _).1 r)))
    (fun r => ⟨r.1, r.2, r.3, r.4, r.5, r.6, r.7, r.8, r.9, r.10⟩)

/-- A copy of one store over another keeps the canonical form: what is copied lies in the other's own range of keys. -/
theorem copySpace_ok {m : List (Nat × Byte)} {lf uf lt ut : Nat} (hw : uf - lf = ut - lt) (hl : lt ≤ ut) (h : Memory.wf m) :
    Memory.wf (m.filter (fun p => decide (p.1 < lt)) ++
      (m.filter (fun p => decide (lf ≤ p.1) && decide (p.1 < uf))).map (fun p => (p.1 - lf + lt, p.2)) ++
      m.filter (fun p => decide (ut ≤ p.1))) := by
  rw [Memory.wf, tableWf_iff] at h ⊢
  obtain ⟨h1, h2⟩ := h
  have hs : ((m.filter (fun p => decide (lf ≤ p.1) && decide (p.1 < uf))).map (fun p => (p.1 - lf + lt, p.2))).Pairwise
      (fun p q => p.1 < q.1) := by
    rw [List.pairwise_map]
    refine List.Pairwise.imp_of_mem (R := fun p q => p.1 < q.1) ?_ (h1.filter _)
    intro p q hp hq hpq
    have hp := (List.mem_filter.1 hp).2
    have hq := (List.mem_filter.1 hq).2
    simp only [Bool.and_eq_true, decide_eq_true_eq] at hp hq
    show p.1 - lf + lt < q.1 - lf + lt
    omega
  have hm : ∀ p ∈ (m.filter (fun p => decide (lf ≤ p.1) && decide (p.1 < uf))).map (fun p => (p.1 - lf + lt, p.2)),
      (lt ≤ p.1 ∧ p.1 < ut) ∧ p.2 ≠ memDefault p.1 := by
    intro p hp
    obtain ⟨q, hq, rfl⟩ := List.mem_map.1 hp
    have hq1 := (List.mem_filter.1 hq).2
    simp only [Bool.and_eq_true, decide_eq_true_eq] at hq1
    refine ⟨?_, h2 q (List.mem_filter.1 hq).1⟩
    show lt ≤ q.1 - lf + lt ∧ q.1 - lf + lt < ut
    omega
  refine ⟨?_, fun p hp => ?_⟩
  · refine List.pairwise_append.2 ⟨List.pairwise_append.2 ⟨h1.filter _, hs, ?_⟩, h1.filter _, ?_⟩
    · intro p hp q hq
      have hp := (List.mem_filter.1 hp).2
      have hq := (hm q hq).1
      simp only [decide_eq_true_eq] at hp
      omega
    · intro p hp q hq
      have hq := (List.mem_filter.1 hq).2
      simp only [decide_eq_true_eq] at hq
      rcases List.mem_append.1 hp with hp | hp
      · have hp := (List.mem_filter.1 hp).2
        simp only [decide_eq_true_eq] at hp
        omega
      · have hp := (hm p hp).1
        omega
  · rcases List.mem_append.1 hp with hp | hp
    · rcases List.mem_append.1 hp with hp | hp
      · exact h2 p (List.mem_filter.1 hp).1
      · exact (hm p hp).2
    · exact h2 p (List.mem_filter.1 hp).1

theorem State.copySpace_keeps {a s : State} {i j : Nat} (h : Keeps a s) : Keeps a (s.copySpace i j) :=
  keeps_mem h rfl rfl rfl rfl (copySpace_ok (by simp only [memKey]; omega) (by simp only [memKey]; omega))
    (fun r => ⟨r.1, r.2, r.3, r.4, r.5, r.6, r.7, r.8, r.9, r.10⟩)

end Sys2Proof.Machine
end

