-- ==== Sys2Proof/Laws/Only.lean ====
section
/-! SUPPORT. Which parts of the state each operation may change, said once for each operation (in the files Laws/Only*.lean): the
operation has changed nothing outside the parts its lemma lists, under the premise that the state it is given has changed
nothing outside them. -/
namespace Sys2Proof.Machine
set_option Elab.async false

/-- Every part of one list is in the other. -/
abbrev Within (a m : List Block) : Prop := a.all (fun b => m.contains b) = true

theorem Within.mem {a m : List Block} (h : Within a m) {b : Block} (hb : b ∈ a) : b ∈ m :=
  List.contains_iff_mem.1 (List.all_eq_true.1 h b hb)

theorem Within.trans {a b m : List Block} (h : Within a b) (k : Within b m) : Within a m :=
  List.all_eq_true.2 fun _ hx => List.contains_iff_mem.2 (k.mem (h.mem hx))

/-- Parts listed in one list are in any list that has all of it. -/
theorem Within.sub {b m : List Block} (h : Within b m) {a : List Block} (k : Within a b := by decide) : Within a m := k.trans h

theorem OnlyIn.refl (m : List Block) (s : State) : OnlyIn m s s := fun b _ => by cases b <;> rfl

/-- A part outside the list is the same. -/
theorem OnlyIn.eq {m : List Block} {s t : State} (h : OnlyIn m s t) (b : Block) (hb : b ∉ m := by decide) : b.same s t := h b hb

theorem OnlyIn.trans {m : List Block} {a b c : State} (h : OnlyIn m a b) (k : OnlyIn m b c) : OnlyIn m a c := fun x hx => by
  have h1 := h x hx
  have h2 := k x hx
  cases x <;> exact Eq.trans h2 h1

theorem OnlyIn.mono {m n : List Block} {a b : State} (h : OnlyIn m a b) (k : Within m n) : OnlyIn n a b :=
  fun x hx => h x fun hm => hx (k.mem hm)

/-- A change of listed parts, of a state that has changed nothing outside the list. -/
theorem onlyIn_of {m l : List Block} {a s t : State} (hl : Within l m) (h : OnlyIn m a s) (k : OnlyIn l s t) : OnlyIn m a t :=
  h.trans (k.mono hl)

/-! ### The forms of a definition's body -/

def OnlyInL {α : Type} (m : List Block) (a : State) (p : State × α) : Prop := OnlyIn m a p.1
def OnlyInR {α : Type} (m : List Block) (a : State) (p : α × State) : Prop := OnlyIn m a p.2
def OnlyInO (m : List Block) (a : State) (o : Option State) : Prop := ∀ t, o = some t → OnlyIn m a t
def OnlyInN (m : List Block) (a : State) (o : Out) : Prop := ∀ t, o = .next t → OnlyIn m a t

variable {m : List Block}

theorem onlyL_mk {α : Type} {a s : State} {x : α} (h : OnlyIn m a s) : OnlyInL m a (s, x) := h
theorem onlyR_mk {α : Type} {a s : State} {x : α} (h : OnlyIn m a s) : OnlyInR m a (x, s) := h
theorem onlyO_some {a s : State} (h : OnlyIn m a s) : OnlyInO m a (some s) := fun _ e => Option.some.inj e ▸ h
theorem onlyO_none {a : State} : OnlyInO m a none := fun _ e => nomatch e
theorem onlyN_next {a s : State} (h : OnlyIn m a s) : OnlyInN m a (.next s) := fun _ e => Host.Outcome.next.inj e ▸ h
theorem OnlyInL.fst {α : Type} {a : State} {p : State × α} (h : OnlyInL m a p) : OnlyIn m a p.1 := h
theorem OnlyInR.snd {α : Type} {a : State} {p : α × State} (h : OnlyInR m a p) : OnlyIn m a p.2 := h
theorem OnlyInL.of_eq {α : Type} {a s : State} {p : State × α} {x : α} {G : Prop} (e : p = (s, x)) (h : OnlyInL m a p)
    (k : OnlyIn m a s → G) : G := k (by subst e; exact h)
theorem OnlyInR.of_eq {α : Type} {a s : State} {p : α × State} {x : α} {G : Prop} (e : p = (x, s)) (h : OnlyInR m a p)
    (k : OnlyIn m a s → G) : G := k (by subst e; exact h)
theorem OnlyInO.of_eq {a s : State} {o : Option State} {G : Prop} (e : o = some s) (h : OnlyInO m a o)
    (k : OnlyIn m a s → G) : G := k (h s e)
theorem OnlyInO.getD {a s : State} {o : Option State} (h : OnlyInO m a o) (hs : OnlyIn m a s) : OnlyIn m a (o.getD s) := by
  cases o with
  | none => exact hs
  | some t => exact h t rfl

theorem only_ite {a : State} {s t : State} {c : Prop} [Decidable c] (h : OnlyIn m a s) (k : OnlyIn m a t) :
    OnlyIn m a (if c then s else t) := by
  split
  · exact h
  · exact k

theorem onlyL_ite {α : Type} {a : State} {s t : State × α} {c : Prop} [Decidable c] (h : OnlyInL m a s) (k : OnlyInL m a t) :
    OnlyInL m a (if c then s else t) := by
  split
  · exact h
  · exact k

theorem onlyR_ite {α : Type} {a : State} {s t : α × State} {c : Prop} [Decidable c] (h : OnlyInR m a s) (k : OnlyInR m a t) :
    OnlyInR m a (if c then s else t) := by
  split
  · exact h
  · exact k

theorem onlyO_ite {a : State} {s t : Option State} {c : Prop} [Decidable c] (h : OnlyInO m a s) (k : OnlyInO m a t) :
    OnlyInO m a (if c then s else t) := by
  split
  · exact h
  · exact k

theorem onlyN_ite {a : State} {s t : Out} {c : Prop} [Decidable c] (h : OnlyInN m a s) (k : OnlyInN m a t) :
    OnlyInN m a (if c then s else t) := by
  split
  · exact h
  · exact k

/-! ### Repetition -/

theorem only_foldl {α : Type} {a : State} {f : State → α → State} {l : List α} {s : State}
    (hf : ∀ s x, OnlyIn m a s → OnlyIn m a (f s x)) (h : OnlyIn m a s) : OnlyIn m a (l.foldl f s) := by
  induction l generalizing s with
  | nil => exact h
  | cons x l ih => exact ih (hf s x h)

theorem onlyL_foldl {α β : Type} {a : State} {f : State × β → α → State × β} {l : List α} {p : State × β}
    (hf : ∀ p x, OnlyInL m a p → OnlyInL m a (f p x)) (h : OnlyInL m a p) : OnlyInL m a (l.foldl f p) := by
  induction l generalizing p with
  | nil => exact h
  | cons x l ih => exact ih (hf p x h)

theorem onlyO_foldl {α : Type} {a : State} {f : Option State → α → Option State} {l : List α} {o : Option State}
    (hf : ∀ o x, OnlyInO m a o → OnlyInO m a (f o x)) (h : OnlyInO m a o) : OnlyInO m a (l.foldl f o) := by
  induction l generalizing o with
  | nil => exact h
  | cons x l ih => exact ih (hf o x h)

theorem onlyO_bind {a : State} {o : Option State} {f : State → Option State} (h : OnlyInO m a o)
    (hf : ∀ s, OnlyIn m a s → OnlyInO m a (f s)) : OnlyInO m a (o.bind f) := by
  cases o with
  | none => exact onlyO_none
  | some s => exact hf s (h s rfl)

theorem onlyR_foldl {α β : Type} {a : State} {f : β × State → α → β × State} {l : List α} {p : β × State}
    (hf : ∀ p x, OnlyInR m a p → OnlyInR m a (f p x)) (h : OnlyInR m a p) : OnlyInR m a (l.foldl f p) := by
  induction l generalizing p with
  | nil => exact h
  | cons x l ih => exact ih (hf p x h)

theorem State.each_only {α : Type} {a s : State} {l : List α} {f : State → α → State}
    (h : OnlyIn m a s) (hf : ∀ s x, OnlyIn m a s → OnlyIn m a (f s x)) : OnlyIn m a (s.each l f) := only_foldl hf h

theorem guardNext_only {a s : State} {c : Bool} {f : State → State} (h : OnlyIn m a s)
    (hf : ∀ s, OnlyIn m a s → OnlyIn m a (f s)) : OnlyInN m a (guardNext c s f) :=
  fun _ e => Host.Outcome.next.inj e ▸ only_ite (hf s h) h

/-! ### A change of one part -/

theorem only_part {s : State} {x} : OnlyIn [.part] s { s with part := x } := fun c hc => by
  cases c <;> first | rfl | exact absurd (List.mem_singleton.2 rfl) hc
theorem only_now {s : State} {x} : OnlyIn [.now] s { s with now := x } := fun c hc => by
  cases c <;> first | rfl | exact absurd (List.mem_singleton.2 rfl) hc
theorem only_regs {s : State} {x} : OnlyIn [.regs] s { s with regs := x } := fun c hc => by
  cases c <;> first | rfl | exact absurd (List.mem_singleton.2 rfl) hc
theorem only_mem {s : State} {x} : OnlyIn [.mem] s { s with mem := x } := fun c hc => by
  cases c <;> first | rfl | exact absurd (List.mem_singleton.2 rfl) hc
theorem only_snaps {s : State} {x} : OnlyIn [.snaps] s { s with snaps := x } := fun c hc => by
  cases c <;> first | rfl | exact absurd (List.mem_singleton.2 rfl) hc
theorem only_cyc {s : State} {x} : OnlyIn [.cyc] s { s with cyc := x } := fun c hc => by
  cases c <;> first | rfl | exact absurd (List.mem_singleton.2 rfl) hc
theorem only_cycAt {s : State} {x} : OnlyIn [.cycAt] s { s with cycAt := x } := fun c hc => by
  cases c <;> first | rfl | exact absurd (List.mem_singleton.2 rfl) hc
theorem only_freq {s : State} {x} : OnlyIn [.freq] s { s with freq := x } := fun c hc => by
  cases c <;> first | rfl | exact absurd (List.mem_singleton.2 rfl) hc
theorem only_changing {s : State} {x} : OnlyIn [.changing] s { s with changing := x } := fun c hc => by
  cases c <;> first | rfl | exact absurd (List.mem_singleton.2 rfl) hc
theorem only_fresh {s : State} {x} : OnlyIn [.fresh] s { s with fresh := x } := fun c hc => by
  cases c <;> first | rfl | exact absurd (List.mem_singleton.2 rfl) hc
theorem only_course {s : State} {x} : OnlyIn [.course] s { s with course := x } := fun c hc => by
  cases c <;> first | rfl | exact absurd (List.mem_singleton.2 rfl) hc
theorem only_tn {s : State} {x} : OnlyIn [.tn] s { s with tn := x } := fun c hc => by
  cases c <;> first | rfl | exact absurd (List.mem_singleton.2 rfl) hc
theorem only_acq {s : State} {x} : OnlyIn [.acq] s { s with acq := x } := fun c hc => by
  cases c <;> first | rfl | exact absurd (List.mem_singleton.2 rfl) hc
theorem only_die {s : State} {x} : OnlyIn [.die] s { s with die := x } := fun c hc => by
  cases c <;> first | rfl | exact absurd (List.mem_singleton.2 rfl) hc
theorem only_stream {s : State} {x} : OnlyIn [.stream] s { s with stream := x } := fun c hc => by
  cases c <;> first | rfl | exact absurd (List.mem_singleton.2 rfl) hc
theorem only_kv {s : State} {x} : OnlyIn [.kv] s { s with kv := x } := fun c hc => by
  cases c <;> first | rfl | exact absurd (List.mem_singleton.2 rfl) hc
theorem only_adapt {s : State} {x} : OnlyIn [.adapt] s { s with adapt := x } := fun c hc => by
  cases c <;> first | rfl | exact absurd (List.mem_singleton.2 rfl) hc
theorem only_mt {s : State} {x} : OnlyIn [.mt] s { s with mt := x } := fun c hc => by
  cases c <;> first | rfl | exact absurd (List.mem_singleton.2 rfl) hc
theorem only_bond {s : State} {x} : OnlyIn [.bond] s { s with bond := x } := fun c hc => by
  cases c <;> first | rfl | exact absurd (List.mem_singleton.2 rfl) hc
theorem only_line {s : State} {x} : OnlyIn [.line] s { s with line := x } := fun c hc => by
  cases c <;> first | rfl | exact absurd (List.mem_singleton.2 rfl) hc
theorem only_plumb {s : State} {x} : OnlyIn [.plumb] s { s with plumb := x } := fun c hc => by
  cases c <;> first | rfl | exact absurd (List.mem_singleton.2 rfl) hc
theorem only_power {s : State} {x} : OnlyIn [.power] s { s with power := x } := fun c hc => by
  cases c <;> first | rfl | exact absurd (List.mem_singleton.2 rfl) hc
theorem only_test {s : State} {x} : OnlyIn [.test] s { s with test := x } := fun c hc => by
  cases c <;> first | rfl | exact absurd (List.mem_singleton.2 rfl) hc
theorem only_mgmt {s : State} {x} : OnlyIn [.mgmt] s { s with mgmt := x } := fun c hc => by
  cases c <;> first | rfl | exact absurd (List.mem_singleton.2 rfl) hc
theorem only_sdio {s : State} {x} : OnlyIn [.sdio] s { s with sdio := x } := fun c hc => by
  cases c <;> first | rfl | exact absurd (List.mem_singleton.2 rfl) hc
theorem only_pending {s : State} {x} : OnlyIn [.pending] s { s with pending := x } := fun c hc => by
  cases c <;> first | rfl | exact absurd (List.mem_singleton.2 rfl) hc

theorem only_mem_mt {s : State} {x y} : OnlyIn [.mem, .mt] s { s with mem := x, mt := y } := fun c hc => by
  cases c <;> first | rfl | exact absurd (by decide) hc
theorem only_cyc_cycAt {s : State} {x y} : OnlyIn [.cyc, .cycAt] s { s with cyc := x, cycAt := y } := fun c hc => by
  cases c <;> first | rfl | exact absurd (by decide) hc

/-- Time passes, and nothing else changes, where SP is not dead-reckoned. -/
theorem State.to_still {s : State} {t : Nat} (hd : s.course.dr = none) : OnlyIn [.now] s (s.to t) := by
  unfold State.to
  split
  · exact OnlyIn.refl _ _
  · simp only [hd]
    exact only_now

end Sys2Proof.Machine
end

