-- ==== Sys2Proof/Laws/OnlyOps.lean ====
section
/-! SUPPORT. What the operations of Machine/Ops.lean may change (Laws/Only.lean). -/
namespace Sys2Proof.Machine
set_option Elab.async false

variable {m : List Block}

theorem State.regSet_only {s0 s1 : State} {a1 a2} (hm : Within [.regs] m) (hs1 : OnlyIn m s0 s1) :
    OnlyIn m s0 (State.regSet s1 a1 a2) := by
  unfold State.regSet
  exact onlyIn_of hm.sub (by assumption) only_regs

theorem State.setFld_only {s0 s1 : State} {a1 a2 a3 a4} (hm : Within [.regs] m) (hs1 : OnlyIn m s0 s1) :
    OnlyIn m s0 (State.setFld s1 a1 a2 a3 a4) := by
  unfold State.setFld
  extract_lets -merge -underBinder +onlyGivenNames x1 x2
  clear_value x1 x2
  exact State.regSet_only hm.sub (by assumption)

theorem State.bump_only {s0 s1 : State} {a1 a2} (hm : Within [.regs] m) (hs1 : OnlyIn m s0 s1) :
    OnlyIn m s0 (State.bump s1 a1 a2) := by
  unfold State.bump
  exact State.regSet_only hm.sub (by assumption)

theorem State.bumpHi_only {s0 s1 : State} {a1 a2} (hm : Within [.regs] m) (hs1 : OnlyIn m s0 s1) :
    OnlyIn m s0 (State.bumpHi s1 a1 a2) := by
  unfold State.bumpHi
  exact State.setFld_only hm.sub (by assumption)

theorem State.bumpLo_only {s0 s1 : State} {a1 a2} (hm : Within [.regs] m) (hs1 : OnlyIn m s0 s1) :
    OnlyIn m s0 (State.bumpLo s1 a1 a2) := by
  unfold State.bumpLo
  exact State.setFld_only hm.sub (by assumption)

theorem State.updCourse_only {s0 s1 : State} {a1} (hm : Within [.course] m) (hs1 : OnlyIn m s0 s1) :
    OnlyIn m s0 (State.updCourse s1 a1) := by
  unfold State.updCourse
  exact onlyIn_of hm.sub (by assumption) only_course

theorem State.updTn_only {s0 s1 : State} {a1} (hm : Within [.tn] m) (hs1 : OnlyIn m s0 s1) :
    OnlyIn m s0 (State.updTn s1 a1) := by
  unfold State.updTn
  exact onlyIn_of hm.sub (by assumption) only_tn

theorem State.updAcq_only {s0 s1 : State} {a1} (hm : Within [.acq] m) (hs1 : OnlyIn m s0 s1) :
    OnlyIn m s0 (State.updAcq s1 a1) := by
  unfold State.updAcq
  exact onlyIn_of hm.sub (by assumption) only_acq

theorem State.updAdapt_only {s0 s1 : State} {a1} (hm : Within [.adapt] m) (hs1 : OnlyIn m s0 s1) :
    OnlyIn m s0 (State.updAdapt s1 a1) := by
  unfold State.updAdapt
  exact onlyIn_of hm.sub (by assumption) only_adapt

theorem State.updMt_only {s0 s1 : State} {a1} (hm : Within [.mt] m) (hs1 : OnlyIn m s0 s1) :
    OnlyIn m s0 (State.updMt s1 a1) := by
  unfold State.updMt
  exact onlyIn_of hm.sub (by assumption) only_mt

theorem State.updBond_only {s0 s1 : State} {a1} (hm : Within [.bond] m) (hs1 : OnlyIn m s0 s1) :
    OnlyIn m s0 (State.updBond s1 a1) := by
  unfold State.updBond
  exact onlyIn_of hm.sub (by assumption) only_bond

theorem State.updLine_only {s0 s1 : State} {a1} (hm : Within [.line] m) (hs1 : OnlyIn m s0 s1) :
    OnlyIn m s0 (State.updLine s1 a1) := by
  unfold State.updLine
  exact onlyIn_of hm.sub (by assumption) only_line

theorem State.updPlumb_only {s0 s1 : State} {a1} (hm : Within [.plumb] m) (hs1 : OnlyIn m s0 s1) :
    OnlyIn m s0 (State.updPlumb s1 a1) := by
  unfold State.updPlumb
  exact onlyIn_of hm.sub (by assumption) only_plumb

theorem State.updPower_only {s0 s1 : State} {a1} (hm : Within [.power] m) (hs1 : OnlyIn m s0 s1) :
    OnlyIn m s0 (State.updPower s1 a1) := by
  unfold State.updPower
  exact onlyIn_of hm.sub (by assumption) only_power

theorem State.updTest_only {s0 s1 : State} {a1} (hm : Within [.test] m) (hs1 : OnlyIn m s0 s1) :
    OnlyIn m s0 (State.updTest s1 a1) := by
  unfold State.updTest
  exact onlyIn_of hm.sub (by assumption) only_test

theorem State.updMgmt_only {s0 s1 : State} {a1} (hm : Within [.mgmt] m) (hs1 : OnlyIn m s0 s1) :
    OnlyIn m s0 (State.updMgmt s1 a1) := by
  unfold State.updMgmt
  exact onlyIn_of hm.sub (by assumption) only_mgmt

theorem State.updSdio_only {s0 s1 : State} {a1} (hm : Within [.sdio] m) (hs1 : OnlyIn m s0 s1) :
    OnlyIn m s0 (State.updSdio s1 a1) := by
  unfold State.updSdio
  exact onlyIn_of hm.sub (by assumption) only_sdio

theorem State.updDie_only {s0 s1 : State} {a1 a2} (hm : Within [.die] m) (hs1 : OnlyIn m s0 s1) :
    OnlyIn m s0 (State.updDie s1 a1 a2) := by
  unfold State.updDie
  exact onlyIn_of hm.sub (by assumption) only_die

theorem State.updStream_only {s0 s1 : State} {a1 a2} (hm : Within [.stream] m) (hs1 : OnlyIn m s0 s1) :
    OnlyIn m s0 (State.updStream s1 a1 a2) := by
  unfold State.updStream
  exact onlyIn_of hm.sub (by assumption) only_stream

theorem State.updKv_only {s0 s1 : State} {a1 a2} (hm : Within [.kv] m) (hs1 : OnlyIn m s0 s1) :
    OnlyIn m s0 (State.updKv s1 a1 a2) := by
  unfold State.updKv
  exact onlyIn_of hm.sub (by assumption) only_kv

theorem State.updEnc_only {s0 s1 : State} {a1 a2} (hm : Within [.course] m) (hs1 : OnlyIn m s0 s1) :
    OnlyIn m s0 (State.updEnc s1 a1 a2) := by
  unfold State.updEnc
  exact State.updCourse_only hm.sub (by assumption)

theorem State.updLg_only {s0 s1 : State} {a1 a2} (hm : Within [.course] m) (hs1 : OnlyIn m s0 s1) :
    OnlyIn m s0 (State.updLg s1 a1 a2) := by
  unfold State.updLg
  exact State.updCourse_only hm.sub (by assumption)

theorem State.updCrs_only {s0 s1 : State} {a1 a2} (hm : Within [.course] m) (hs1 : OnlyIn m s0 s1) :
    OnlyIn m s0 (State.updCrs s1 a1 a2) := by
  unfold State.updCrs
  exact State.updCourse_only hm.sub (by assumption)

theorem State.updProg_only {s0 s1 : State} {a1 a2} (hm : Within [.course] m) (hs1 : OnlyIn m s0 s1) :
    OnlyIn m s0 (State.updProg s1 a1 a2) := by
  unfold State.updProg
  exact State.updCourse_only hm.sub (by assumption)

theorem State.updDom_only {s0 s1 : State} {a1 a2} (hm : Within [.tn] m) (hs1 : OnlyIn m s0 s1) :
    OnlyIn m s0 (State.updDom s1 a1 a2) := by
  unfold State.updDom
  exact State.updTn_only hm.sub (by assumption)

theorem State.updTpo_only {s0 s1 : State} {a1 a2} (hm : Within [.tn] m) (hs1 : OnlyIn m s0 s1) :
    OnlyIn m s0 (State.updTpo s1 a1 a2) := by
  unfold State.updTpo
  exact State.updTn_only hm.sub (by assumption)

theorem State.updTcap_only {s0 s1 : State} {a1 a2} (hm : Within [.tn] m) (hs1 : OnlyIn m s0 s1) :
    OnlyIn m s0 (State.updTcap s1 a1 a2) := by
  unfold State.updTcap
  exact State.updTn_only hm.sub (by assumption)

theorem State.updPort_only {s0 s1 : State} {a1 a2} (hm : Within [.tn] m) (hs1 : OnlyIn m s0 s1) :
    OnlyIn m s0 (State.updPort s1 a1 a2) := by
  unfold State.updPort
  exact State.updTn_only hm.sub (by assumption)

theorem State.updDst_only {s0 s1 : State} {a1 a2} (hm : Within [.tn] m) (hs1 : OnlyIn m s0 s1) :
    OnlyIn m s0 (State.updDst s1 a1 a2) := by
  unfold State.updDst
  exact State.updTn_only hm.sub (by assumption)

theorem State.updGrp_only {s0 s1 : State} {a1 a2} (hm : Within [.acq] m) (hs1 : OnlyIn m s0 s1) :
    OnlyIn m s0 (State.updGrp s1 a1 a2) := by
  unfold State.updGrp
  exact State.updAcq_only hm.sub (by assumption)

theorem State.updSrc_only {s0 s1 : State} {a1 a2} (hm : Within [.acq] m) (hs1 : OnlyIn m s0 s1) :
    OnlyIn m s0 (State.updSrc s1 a1 a2) := by
  unfold State.updSrc
  exact State.updAcq_only hm.sub (by assumption)

theorem State.updQch_only {s0 s1 : State} {a1 a2} (hm : Within [.mt] m) (hs1 : OnlyIn m s0 s1) :
    OnlyIn m s0 (State.updQch s1 a1 a2) := by
  unfold State.updQch
  exact State.updMt_only hm.sub (by assumption)

theorem State.updAx_only {s0 s1 : State} {a1 a2} (hm : Within [.line] m) (hs1 : OnlyIn m s0 s1) :
    OnlyIn m s0 (State.updAx s1 a1 a2) := by
  unfold State.updAx
  exact State.updLine_only hm.sub (by assumption)

theorem State.updAxGrp_only {s0 s1 : State} {a1 a2} (hm : Within [.line] m) (hs1 : OnlyIn m s0 s1) :
    OnlyIn m s0 (State.updAxGrp s1 a1 a2) := by
  unfold State.updAxGrp
  exact State.updLine_only hm.sub (by assumption)

theorem State.updQp_only {s0 s1 : State} {a1 a2} (hm : Within [.line] m) (hs1 : OnlyIn m s0 s1) :
    OnlyIn m s0 (State.updQp s1 a1 a2) := by
  unfold State.updQp
  exact State.updLine_only hm.sub (by assumption)

theorem State.updCar_only {s0 s1 : State} {a1 a2} (hm : Within [.line] m) (hs1 : OnlyIn m s0 s1) :
    OnlyIn m s0 (State.updCar s1 a1 a2) := by
  unfold State.updCar
  exact State.updLine_only hm.sub (by assumption)

theorem State.updTarget_only {s0 s1 : State} {a1 a2} (hm : Within [.plumb] m) (hs1 : OnlyIn m s0 s1) :
    OnlyIn m s0 (State.updTarget s1 a1 a2) := by
  unfold State.updTarget
  exact State.updPlumb_only hm.sub (by assumption)

theorem State.updStage_only {s0 s1 : State} {a1 a2} (hm : Within [.plumb] m) (hs1 : OnlyIn m s0 s1) :
    OnlyIn m s0 (State.updStage s1 a1 a2) := by
  unfold State.updStage
  exact State.updPlumb_only hm.sub (by assumption)

theorem State.updInj_only {s0 s1 : State} {a1 a2} (hm : Within [.test] m) (hs1 : OnlyIn m s0 s1) :
    OnlyIn m s0 (State.updInj s1 a1 a2) := by
  unfold State.updInj
  exact State.updTest_only hm.sub (by assumption)

theorem State.updCore_only {s0 s1 : State} {a1 a2 a3} (hm : Within [.die] m) (hs1 : OnlyIn m s0 s1) :
    OnlyIn m s0 (State.updCore s1 a1 a2 a3) := by
  unfold State.updCore
  exact State.updDie_only hm.sub (by assumption)

theorem State.updSlot_only {s0 s1 : State} {a1 a2 a3} (hm : Within [.die] m) (hs1 : OnlyIn m s0 s1) :
    OnlyIn m s0 (State.updSlot s1 a1 a2 a3) := by
  unfold State.updSlot
  exact State.updDie_only hm.sub (by assumption)

theorem State.updRun_only {s0 s1 : State} {a1 a2 a3} (hm : Within [.die] m) (hs1 : OnlyIn m s0 s1) :
    OnlyIn m s0 (State.updRun s1 a1 a2 a3) := by
  unfold State.updRun
  exact State.updDie_only hm.sub (by assumption)

theorem State.drew_only {s0 s1 : State} {a1} (hm : Within [.fresh] m) (hs1 : OnlyIn m s0 s1) :
    OnlyIn m s0 (State.drew s1 a1) := by
  unfold State.drew
  exact onlyIn_of hm.sub (by assumption) only_fresh

theorem State.stBytes_only {s0 s1 : State} {a1 a2} (hm : Within [.mem, .mt] m) (hs1 : OnlyIn m s0 s1) :
    OnlyIn m s0 (State.stBytes s1 a1 a2) := by
  unfold State.stBytes
  exact onlyIn_of hm.sub (by assumption) only_mem_mt

theorem State.stN_only {s0 s1 : State} {a1 a2 a3} (hm : Within [.mem, .mt] m) (hs1 : OnlyIn m s0 s1) :
    OnlyIn m s0 (State.stN s1 a1 a2 a3) := by
  unfold State.stN
  exact State.stBytes_only hm.sub (by assumption)

theorem State.zero_only {s0 s1 : State} {a1 a2} (hm : Within [.mem, .mt] m) (hs1 : OnlyIn m s0 s1) :
    OnlyIn m s0 (State.zero s1 a1 a2) := by
  unfold State.zero
  exact onlyIn_of hm.sub (by assumption) only_mem_mt

theorem State.copySpace_only {s0 s1 : State} {a1 a2} (hm : Within [.mem] m) (hs1 : OnlyIn m s0 s1) :
    OnlyIn m s0 (State.copySpace s1 a1 a2) := by
  unfold State.copySpace
  extract_lets -merge -underBinder +onlyGivenNames x1 x2
  clear_value x1 x2
  exact onlyIn_of hm.sub (by assumption) only_mem

theorem State.settleCycles_only {s0 s1 : State} (hm : Within [.cyc, .cycAt] m) (hs1 : OnlyIn m s0 s1) :
    OnlyIn m s0 (State.settleCycles s1) := by
  unfold State.settleCycles
  exact onlyIn_of hm.sub (by assumption) only_cyc_cycAt

theorem State.txFrame_only {s0 s1 : State} {a1 a2} (hm : Within [.regs, .tn] m) (hs1 : OnlyIn m s0 s1) :
    OnlyIn m s0 (State.txFrame s1 a1 a2) := by
  unfold State.txFrame
  exact State.bump_only hm.sub (State.updTn_only hm.sub (by assumption))

theorem State.flushDst_only {s0 s1 : State} {a1} (hm : Within [.regs, .tn] m) (hs1 : OnlyIn m s0 s1) :
    OnlyIn m s0 (State.flushDst s1 a1) := by
  unfold State.flushDst
  extract_lets -merge -underBinder +onlyGivenNames x1 x2
  clear_value x1 x2
  refine only_ite ?_ ?_
  · assumption
  · extract_lets -merge -underBinder +onlyGivenNames x3 x4
    clear_value x3 x4
    exact State.txFrame_only hm.sub (State.updDst_only hm.sub (by assumption))

theorem State.loseRecs_only {s0 s1 : State} {a1 a2} (hm : Within [.regs, .tn] m) (hs1 : OnlyIn m s0 s1) :
    OnlyIn m s0 (State.loseRecs s1 a1 a2) := by
  unfold State.loseRecs
  exact State.bump_only hm.sub (State.updDst_only hm.sub (by assumption))

theorem State.askArp_only {s0 s1 : State} {a1 a2} (hm : Within [.regs, .tn] m) (hs1 : OnlyIn m s0 s1) :
    OnlyIn m s0 (State.askArp s1 a1 a2) := by
  unfold State.askArp
  extract_lets -merge -underBinder +onlyGivenNames x1
  clear_value x1
  refine only_ite ?_ ?_
  · assumption
  · exact State.txFrame_only hm.sub (State.updPort_only hm.sub (by assumption))

theorem State.enqueueRec_only {s0 s1 : State} {a1 a2} (hm : Within [.regs, .tn] m) (hs1 : OnlyIn m s0 s1) :
    OnlyInL m s0 (State.enqueueRec s1 a1 a2) := by
  unfold State.enqueueRec
  extract_lets -merge -underBinder +onlyGivenNames x1 x2
  clear_value x1 x2
  refine onlyL_ite ?_ ?_
  · exact onlyL_mk (State.loseRecs_only hm.sub (by assumption))
  · refine onlyL_ite ?_ ?_
    · exact onlyL_mk (State.loseRecs_only hm.sub (State.askArp_only hm.sub (by assumption)))
    · extract_lets -merge -underBinder +onlyGivenNames x3
      have hx3 : OnlyIn m s0 x3 := by
        subst x3
        refine only_ite ?_ ?_
        · exact State.flushDst_only hm.sub (by assumption)
        · assumption
      clear_value x3
      extract_lets -merge -underBinder +onlyGivenNames x4
      clear_value x4
      refine onlyL_ite ?_ ?_
      · exact onlyL_mk (State.loseRecs_only hm.sub (by assumption))
      · extract_lets -merge -underBinder +onlyGivenNames x5
        clear_value x5
        exact onlyL_mk (State.updDst_only hm.sub (by assumption))

theorem State.produce_only {s0 s1 : State} {a1 a2 a3} (hm : Within [.regs, .tn] m) (hs1 : OnlyIn m s0 s1) :
    OnlyInL m s0 (State.produce s1 a1 a2 a3) := by
  unfold State.produce
  extract_lets -merge -underBinder +onlyGivenNames x1 x2 x3
  clear_value x1 x2
  have hx3 : OnlyIn m s0 x3 := by
    subst x3
    exact State.updTn_only hm.sub (by assumption)
  clear_value x3
  refine onlyL_foldl (fun _ _ _ => ?_) ?_
  · split
    · refine OnlyInL.of_eq (m := m) (a := s0) (by assumption) ?_ (fun _ => ?_)
      · refine State.enqueueRec_only hm.sub ?_
        exact OnlyInL.fst (by assumption)
      exact onlyL_mk (by assumption)
  · exact onlyL_mk (by assumption)

theorem State.log_only {s0 s1 : State} {a1} (hm : Within [.sdio] m) (hs1 : OnlyIn m s0 s1) :
    OnlyIn m s0 (State.log s1 a1) := by
  unfold State.log
  extract_lets -merge -underBinder +onlyGivenNames x1
  clear_value x1
  exact State.updSdio_only hm.sub (by assumption)

theorem State.raiseQuiet_only {s0 s1 : State} {a1 a2} (hm : Within [.regs, .tn, .sdio] m) (hs1 : OnlyIn m s0 s1) :
    OnlyIn m s0 (State.raiseQuiet s1 a1 a2) := by
  unfold State.raiseQuiet
  extract_lets -merge -underBinder +onlyGivenNames x1 x2
  clear_value x1
  have hx2 : OnlyIn m s0 x2 := by
    subst x2
    exact State.regSet_only hm.sub (by assumption)
  clear_value x2
  refine only_ite ?_ ?_
  · extract_lets -merge -underBinder +onlyGivenNames x3
    have hx3 : OnlyIn m s0 x3 := by
      subst x3
      exact State.log_only hm.sub (by assumption)
    clear_value x3
    refine only_ite ?_ ?_
    · assumption
    · exact OnlyInL.fst (State.produce_only hm.sub (by assumption))
  · assumption

theorem State.emit_only {s0 s1 : State} {a1 a2 a3} (hm : Within [.regs, .tn, .sdio] m) (hs1 : OnlyIn m s0 s1) :
    OnlyIn m s0 (State.emit s1 a1 a2 a3) := by
  unfold State.emit
  split
  · refine OnlyInL.of_eq (m := m) (a := s0) (by assumption) ?_ (fun _ => ?_)
    · exact State.produce_only hm.sub (by assumption)
    extract_lets -merge -underBinder +onlyGivenNames x1
    have hx1 : OnlyIn m s0 x1 := by
      subst x1
      refine only_ite ?_ ?_
      · exact State.raiseQuiet_only hm.sub (by assumption)
      · assumption
    clear_value x1
    refine only_ite ?_ ?_
    · exact State.raiseQuiet_only hm.sub (by assumption)
    · assumption

theorem State.raise_only {s0 s1 : State} {a1 a2 a3} (hm : Within [.regs, .tn, .sdio] m) (hs1 : OnlyIn m s0 s1) :
    OnlyIn m s0 (State.raise s1 a1 a2 a3) := by
  unfold State.raise
  extract_lets -merge -underBinder +onlyGivenNames x1
  have hx1 : OnlyIn m s0 x1 := by
    subst x1
    exact State.regSet_only hm.sub (by assumption)
  clear_value x1
  refine only_ite ?_ ?_
  · extract_lets -merge -underBinder +onlyGivenNames x2
    have hx2 : OnlyIn m s0 x2 := by
      subst x2
      exact State.log_only hm.sub (by assumption)
    clear_value x2
    extract_lets -merge -underBinder +onlyGivenNames x3
    have hx3 : OnlyIn m s0 x3 := by
      subst x3
      refine only_ite ?_ ?_
      · exact State.updSdio_only hm.sub (by assumption)
      · assumption
    clear_value x3
    extract_lets -merge -underBinder +onlyGivenNames x4
    clear_value x4
    exact State.emit_only hm.sub (by assumption)
  · assumption

end Sys2Proof.Machine
end

