-- ==== Sys2Proof/Laws/OnlyCourseCore.lean ====
section
/-! SUPPORT. What the operations of Machine/CourseCore.lean may change (Laws/Only.lean). -/
namespace Sys2Proof.Machine
set_option Elab.async false

variable {m : List Block}

theorem State.cover_only {s0 s1 : State} {a1} (hm : Within [.bond] m) (hs1 : OnlyIn m s0 s1) :
    OnlyIn m s0 (State.cover s1 a1) := by
  unfold State.cover
  refine only_ite ?_ ?_
  · exact State.updBond_only hm.sub (by assumption)
  · assumption

theorem State.coverAll_only {s0 s1 : State} {a1 a2 a3 a4} (hm : Within [.bond] m) (hs1 : OnlyIn m s0 s1) :
    OnlyIn m s0 (State.coverAll s1 a1 a2 a3 a4) := by
  unfold State.coverAll
  split
  · exact State.cover_only hm.sub (by assumption)

theorem State.reverseCheck_only {s0 s1 : State} (hm : Within [.regs, .course, .tn, .sdio] m) (hs1 : OnlyIn m s0 s1) :
    OnlyIn m s0 (State.reverseCheck s1) := by
  unfold State.reverseCheck
  extract_lets -merge -underBinder +onlyGivenNames x1
  clear_value x1
  refine only_ite ?_ ?_
  · extract_lets -merge -underBinder +onlyGivenNames x2
    have hx2 : OnlyIn m s0 x2 := by
      subst x2
      exact State.updCourse_only hm.sub (by assumption)
    clear_value x2
    exact State.log_only hm.sub (State.raise_only hm.sub (by assumption))
  · assumption

theorem State.spMoved_only {s0 s1 : State} {a1} (hm : Within [.regs, .course, .tn, .sdio] m) (hs1 : OnlyIn m s0 s1) :
    OnlyIn m s0 (State.spMoved s1 a1) := by
  unfold State.spMoved
  extract_lets -merge -underBinder +onlyGivenNames x1 x2
  clear_value x1
  have hx2 : OnlyIn m s0 x2 := by
    subst x2
    exact State.updCourse_only hm.sub (by assumption)
  clear_value x2
  refine only_ite ?_ ?_
  · extract_lets -merge -underBinder +onlyGivenNames x3
    have hx3 : OnlyIn m s0 x3 := by
      subst x3
      exact State.updCourse_only hm.sub (by assumption)
    clear_value x3
    refine only_ite ?_ ?_
    · exact State.raise_only hm.sub (by assumption)
    · assumption
  · exact State.reverseCheck_only hm.sub (by assumption)

theorem State.xcheck_only {s0 s1 : State} (hm : Within [.regs, .course, .tn, .sdio] m) (hs1 : OnlyIn m s0 s1) :
    OnlyIn m s0 (State.xcheck s1) := by
  unfold State.xcheck
  extract_lets -merge -underBinder +onlyGivenNames x1 x2 x3
  clear_value x1 x2
  have hx3 : OnlyIn m s0 x3 := by
    subst x3
    exact State.updCourse_only hm.sub (by assumption)
  clear_value x3
  refine only_ite ?_ ?_
  · exact State.raise_only hm.sub (by assumption)
  · assumption

theorem State.failover_only {s0 s1 : State} {a1} (hm : Within [.regs, .course, .tn, .sdio] m) (hs1 : OnlyIn m s0 s1) :
    OnlyIn m s0 (State.failover s1 a1) := by
  unfold State.failover
  exact State.raise_only hm.sub (State.updCourse_only hm.sub (by assumption))

theorem State.drStart_only {s0 s1 : State} (hm : Within [.regs, .course, .tn, .sdio] m) (hs1 : OnlyIn m s0 s1) :
    OnlyIn m s0 (State.drStart s1) := by
  unfold State.drStart
  refine only_ite ?_ ?_
  · assumption
  · exact State.raise_only hm.sub (State.updCourse_only hm.sub (by assumption))

theorem State.evalSource_only {s0 s1 : State} (hm : Within [.regs, .course, .tn, .sdio] m) (hs1 : OnlyIn m s0 s1) :
    OnlyIn m s0 (State.evalSource s1) := by
  unfold State.evalSource
  refine only_ite ?_ ?_
  · assumption
  · refine only_ite ?_ ?_
    · exact State.drStart_only hm.sub (by assumption)
    · extract_lets -merge -underBinder +onlyGivenNames x1
      have hx1 : OnlyIn m s0 x1 := by
        subst x1
        refine only_ite ?_ ?_
        · exact State.updCourse_only hm.sub (by assumption)
        · assumption
      clear_value x1
      refine only_ite ?_ ?_
      · refine only_ite ?_ ?_
        · assumption
        · exact State.failover_only hm.sub (by assumption)
      · refine only_ite ?_ ?_
        · assumption
        · exact State.failover_only hm.sub (by assumption)

theorem State.encFault_only {s0 s1 : State} {a1} (hm : Within [.regs, .course, .tn, .sdio] m) (hs1 : OnlyIn m s0 s1) :
    OnlyIn m s0 (State.encFault s1 a1) := by
  unfold State.encFault
  refine only_ite ?_ ?_
  · assumption
  · extract_lets -merge -underBinder +onlyGivenNames x1
    have hx1 : OnlyIn m s0 x1 := by
      subst x1
      exact State.updEnc_only hm.sub (by assumption)
    clear_value x1
    extract_lets -merge -underBinder +onlyGivenNames x2
    have hx2 : OnlyIn m s0 x2 := by
      subst x2
      refine only_ite ?_ ?_
      · exact State.raise_only hm.sub (by assumption)
      · assumption
    clear_value x2
    extract_lets -merge -underBinder +onlyGivenNames x3
    have hx3 : OnlyIn m s0 x3 := by
      subst x3
      refine only_ite ?_ ?_
      · exact State.raise_only hm.sub (by assumption)
      · assumption
    clear_value x3
    exact State.xcheck_only hm.sub (State.evalSource_only hm.sub (by assumption))

theorem State.encError_only {s0 s1 : State} {a1} (hm : Within [.regs, .course, .tn, .sdio] m) (hs1 : OnlyIn m s0 s1) :
    OnlyIn m s0 (State.encError s1 a1) := by
  unfold State.encError
  extract_lets -merge -underBinder +onlyGivenNames x1
  have hx1 : OnlyIn m s0 x1 := by
    subst x1
    exact State.bump_only hm.sub (by assumption)
  clear_value x1
  extract_lets -merge -underBinder +onlyGivenNames x2 x3
  clear_value x2
  have hx3 : OnlyIn m s0 x3 := by
    subst x3
    exact State.updEnc_only hm.sub (by assumption)
  clear_value x3
  refine only_ite ?_ ?_
  · exact State.encFault_only hm.sub (by assumption)
  · assumption

theorem State.positionMark_only {s0 s1 : State} {a1 a2 a3}
    (hm : Within [.regs, .tn, .stream, .sdio] m) (hs1 : OnlyIn m s0 s1) :
    OnlyIn m s0 (State.positionMark s1 a1 a2 a3) := by
  unfold State.positionMark
  extract_lets -merge -underBinder +onlyGivenNames x1
  have hx1 : OnlyIn m s0 x1 := by
    subst x1
    exact State.log_only hm.sub (by assumption)
  clear_value x1
  extract_lets -merge -underBinder +onlyGivenNames x2
  have hx2 : OnlyIn m s0 x2 := by
    subst x2
    exact State.emit_only hm.sub (by assumption)
  clear_value x2
  refine State.each_only ?_ (fun _ _ _ => ?_)
  · assumption
  · extract_lets -merge -underBinder +onlyGivenNames x3 x4
    clear_value x3 x4
    refine only_ite ?_ ?_
    · exact State.updStream_only hm.sub (by assumption)
    · assumption

end Sys2Proof.Machine
end

