-- ==== Sys2Proof/Laws/OnlyTableCore.lean ====
section
/-! SUPPORT. What the operations of Machine/TableCore.lean may change (Laws/Only.lean). -/
namespace Sys2Proof.Machine
set_option Elab.async false

variable {m : List Block}

theorem State.reply_only {s0 s1 : State} {a1 a2 a3} (hm : Within [.sdio] m) (hs1 : OnlyIn m s0 s1) :
    OnlyIn m s0 (State.reply s1 a1 a2 a3) := by
  unfold State.reply
  refine only_ite ?_ ?_
  · assumption
  · exact State.updSdio_only hm.sub (by assumption)

theorem State.answerDeferred_only {s0 s1 : State} {a1} (hm : Within [.sdio] m) (hs1 : OnlyIn m s0 s1) :
    OnlyIn m s0 (State.answerDeferred s1 a1) := by
  unfold State.answerDeferred
  extract_lets -merge -underBinder +onlyGivenNames x1 x2
  clear_value x1
  have hx2 : OnlyIn m s0 x2 := by
    subst x2
    exact State.updSdio_only hm.sub (by assumption)
  clear_value x2
  refine State.each_only ?_ (fun _ _ _ => ?_)
  · assumption
  · split
    · exact State.reply_only hm.sub (by assumption)
    · assumption

theorem State.bulkNext_only {s0 s1 : State} (hm : Within [.sdio] m) (hs1 : OnlyIn m s0 s1) :
    OnlyIn m s0 (State.bulkNext s1) := by
  unfold State.bulkNext
  split
  · exact State.updSdio_only hm.sub (by assumption)
  · assumption

theorem State.bulkEnd_only {s0 s1 : State} {a1 a2} (hm : Within [.sdio] m) (hs1 : OnlyIn m s0 s1) :
    OnlyIn m s0 (State.bulkEnd s1 a1 a2) := by
  unfold State.bulkEnd
  extract_lets -merge -underBinder +onlyGivenNames x1 x2 x3 x4
  clear_value x1 x2 x3
  have hx4 : OnlyIn m s0 x4 := by
    subst x4
    exact State.updSdio_only hm.sub (by assumption)
  clear_value x4
  refine State.bulkNext_only hm.sub ?_
  refine State.each_only ?_ (fun _ _ _ => ?_)
  · assumption
  · exact State.reply_only hm.sub (by assumption)

theorem State.linSt_only {s0 s1 : State} {a1 a2 a3 a4} (hm : Within [.mem, .mt] m) (hs1 : OnlyIn m s0 s1) :
    OnlyIn m s0 (State.linSt s1 a1 a2 a3 a4) := by
  unfold State.linSt
  exact State.stN_only hm.sub (by assumption)

theorem State.ctxSt_only {s0 s1 : State} {a1 a2 a3 a4} (hm : Within [.mem, .mt] m) (hs1 : OnlyIn m s0 s1) :
    OnlyIn m s0 (State.ctxSt s1 a1 a2 a3 a4) := by
  unfold State.ctxSt
  exact State.linSt_only hm.sub (by assumption)

theorem State.ctxSetFlag_only {s0 s1 : State} {a1 a2 a3} (hm : Within [.mem, .mt] m) (hs1 : OnlyIn m s0 s1) :
    OnlyIn m s0 (State.ctxSetFlag s1 a1 a2 a3) := by
  unfold State.ctxSetFlag
  extract_lets -merge -underBinder +onlyGivenNames x1
  clear_value x1
  exact State.ctxSt_only hm.sub (by assumption)

theorem State.ctxSetRes_only {s0 s1 : State} {a1 a2} (hm : Within [.mem, .mt] m) (hs1 : OnlyIn m s0 s1) :
    OnlyIn m s0 (State.ctxSetRes s1 a1 a2) := by
  unfold State.ctxSetRes
  extract_lets -merge -underBinder +onlyGivenNames x1
  clear_value x1
  exact State.ctxSt_only hm.sub (by assumption)

theorem State.ctxSetQueue_only {s0 s1 : State} {a1 a2} (hm : Within [.mem, .stream, .mt] m) (hs1 : OnlyIn m s0 s1) :
    OnlyIn m s0 (State.ctxSetQueue s1 a1 a2) := by
  unfold State.ctxSetQueue
  extract_lets -merge -underBinder +onlyGivenNames x1 x2
  clear_value x1
  have hx2 : OnlyIn m s0 x2 := by
    subst x2
    exact State.updStream_only hm.sub (by assumption)
  clear_value x2
  exact State.ctxSt_only hm.sub (by assumption)

theorem State.chunkLost_only {s0 s1 : State} {a1}
    (hm : Within [.regs, .mem, .tn, .stream, .mt, .bond, .sdio] m) (hs1 : OnlyIn m s0 s1) :
    OnlyIn m s0 (State.chunkLost s1 a1) := by
  unfold State.chunkLost
  extract_lets -merge -underBinder +onlyGivenNames x1 x2
  clear_value x1
  have hx2 : OnlyIn m s0 x2 := by
    subst x2
    refine only_ite ?_ ?_
    · assumption
    · exact State.updStream_only hm.sub (by assumption)
  clear_value x2
  extract_lets -merge -underBinder +onlyGivenNames x3
  have hx3 : OnlyIn m s0 x3 := by
    subst x3
    exact State.ctxSt_only hm.sub (by assumption)
  clear_value x3
  extract_lets -merge -underBinder +onlyGivenNames x4
  have hx4 : OnlyIn m s0 x4 := by
    subst x4
    exact State.raise_only hm.sub (State.bump_only hm.sub (by assumption))
  clear_value x4
  split
  · refine only_ite ?_ ?_
    · exact State.cover_only hm.sub (by assumption)
    · assumption

theorem State.seqSt_only {s0 s1 : State} {a1 a2 a3 a4} (hm : Within [.mem, .mt] m) (hs1 : OnlyIn m s0 s1) :
    OnlyIn m s0 (State.seqSt s1 a1 a2 a3 a4) := by
  unfold State.seqSt
  exact State.linSt_only hm.sub (by assumption)

theorem State.pageSt_only {s0 s1 : State} {a1 a2 a3} (hm : Within [.mem, .mt] m) (hs1 : OnlyIn m s0 s1) :
    OnlyIn m s0 (State.pageSt s1 a1 a2 a3) := by
  unfold State.pageSt
  exact State.linSt_only hm.sub (by assumption)

theorem State.pageSettle_only {s0 s1 : State} {a1 a2 a3} (hm : Within [.mem, .kv, .mt] m) (hs1 : OnlyIn m s0 s1) :
    OnlyIn m s0 (State.pageSettle s1 a1 a2 a3) := by
  unfold State.pageSettle
  refine only_ite ?_ ?_
  · extract_lets -merge -underBinder +onlyGivenNames x1
    clear_value x1
    exact State.updKv_only hm.sub (State.pageSt_only hm.sub (by assumption))
  · exact State.pageSt_only hm.sub (by assumption)

theorem State.pageUnref_only {s0 s1 : State} {a1 a2} (hm : Within [.mem, .kv, .mt] m) (hs1 : OnlyIn m s0 s1) :
    OnlyIn m s0 (State.pageUnref s1 a1 a2) := by
  unfold State.pageUnref
  extract_lets -merge -underBinder +onlyGivenNames x1
  clear_value x1
  exact State.pageSettle_only hm.sub (by assumption)

theorem State.pagePin_only {s0 s1 : State} {a1 a2} (hm : Within [.mem, .mt] m) (hs1 : OnlyIn m s0 s1) :
    OnlyIn m s0 (State.pagePin s1 a1 a2) := by
  unfold State.pagePin
  extract_lets -merge -underBinder +onlyGivenNames x1
  clear_value x1
  exact State.pageSt_only hm.sub (by assumption)

theorem State.pageUnpin_only {s0 s1 : State} {a1 a2} (hm : Within [.mem, .kv, .mt] m) (hs1 : OnlyIn m s0 s1) :
    OnlyIn m s0 (State.pageUnpin s1 a1 a2) := by
  unfold State.pageUnpin
  extract_lets -merge -underBinder +onlyGivenNames x1
  clear_value x1
  exact State.pageSettle_only hm.sub (by assumption)

theorem State.pageTake_only {s0 s1 : State} {a1 a2 a3 a4} (hm : Within [.mem, .kv, .mt] m) (hs1 : OnlyIn m s0 s1) :
    OnlyInL m s0 (State.pageTake s1 a1 a2 a3 a4) := by
  unfold State.pageTake
  extract_lets -merge -underBinder +onlyGivenNames x1
  clear_value x1
  refine onlyL_ite ?_ ?_
  · exact onlyL_mk (by assumption)
  · extract_lets -merge -underBinder +onlyGivenNames x2 x3
    clear_value x2
    have hx3 : OnlyIn m s0 x3 := by
      subst x3
      exact State.updKv_only hm.sub (by assumption)
    clear_value x3
    exact onlyL_mk (State.pageSt_only hm.sub (by assumption))

theorem State.delivered_only {s0 s1 : State} {a1} (hm : Within [.regs, .tn, .test, .sdio] m) (hs1 : OnlyIn m s0 s1) :
    OnlyIn m s0 (State.delivered s1 a1) := by
  unfold State.delivered
  extract_lets -merge -underBinder +onlyGivenNames x1 x2 x3
  clear_value x1 x2
  have hx3 : OnlyIn m s0 x3 := by
    subst x3
    exact State.log_only hm.sub (by assumption)
  clear_value x3
  extract_lets -merge -underBinder +onlyGivenNames x4
  have hx4 : OnlyIn m s0 x4 := by
    subst x4
    exact State.raise_only hm.sub (State.setFld_only hm.sub (by assumption))
  clear_value x4
  refine only_ite ?_ ?_
  · assumption
  · exact State.updInj_only hm.sub (State.regSet_only hm.sub (by assumption))

theorem State.injStep_only {s0 s1 : State} {a1} (hm : Within [.regs, .tn, .test, .sdio] m) (hs1 : OnlyIn m s0 s1) :
    OnlyIn m s0 (State.injStep s1 a1) := by
  unfold State.injStep
  extract_lets -merge -underBinder +onlyGivenNames x1
  clear_value x1
  refine only_ite ?_ ?_
  · exact State.delivered_only hm.sub (by assumption)
  · exact State.updInj_only hm.sub (by assumption)

theorem State.coverTile_only {s0 s1 : State} {a1 a2 a3 a4} (hm : Within [.bond] m) (hs1 : OnlyIn m s0 s1) :
    OnlyIn m s0 (State.coverTile s1 a1 a2 a3 a4) := by
  unfold State.coverTile
  extract_lets -merge -underBinder +onlyGivenNames x1
  clear_value x1
  exact State.cover_only hm.sub (by assumption)

end Sys2Proof.Machine
end

