-- ==== Sys2Proof/Laws/OnlySafetyCore.lean ====
section
/-! SUPPORT. What the operations of Machine/SafetyCore.lean may change (Laws/Only.lean). -/
namespace Sys2Proof.Machine
set_option Elab.async false

variable {m : List Block}

theorem State.fallback_only {s0 s1 : State} {a1} (hm : Within [.plumb] m) (hs1 : OnlyIn m s0 s1) :
    OnlyIn m s0 (State.fallback s1 a1) := by
  unfold State.fallback
  extract_lets -merge -underBinder +onlyGivenNames x1 x2
  clear_value x1 x2
  exact State.updTarget_only hm.sub (by assumption)

theorem State.fallbackAll_only {s0 s1 : State} (hm : Within [.plumb] m) (hs1 : OnlyIn m s0 s1) :
    OnlyIn m s0 (State.fallbackAll s1) := by
  unfold State.fallbackAll
  refine State.each_only ?_ (fun _ _ _ => ?_)
  · assumption
  · exact State.fallback_only hm.sub (by assumption)

theorem State.drive_only {s0 s1 : State} {a1 a2} (hm : Within [.regs, .plumb] m) (hs1 : OnlyIn m s0 s1) :
    OnlyIn m s0 (State.drive s1 a1 a2) := by
  unfold State.drive
  refine only_ite ?_ ?_
  · assumption
  · refine only_ite ?_ ?_
    · exact State.bump_only hm.sub (by assumption)
    · exact State.updTarget_only hm.sub (by assumption)

theorem State.releaseTargets_only {s0 s1 : State} (hm : Within [.plumb] m) (hs1 : OnlyIn m s0 s1) :
    OnlyIn m s0 (State.releaseTargets s1) := by
  unfold State.releaseTargets
  refine State.each_only ?_ (fun _ _ _ => ?_)
  · exact State.updPlumb_only hm.sub (by assumption)
  · exact State.updTarget_only hm.sub (by assumption)

theorem State.updGraph_only {s0 s1 : State} {a1 a2} (hm : Within [.bond] m) (hs1 : OnlyIn m s0 s1) :
    OnlyIn m s0 (State.updGraph s1 a1 a2) := by
  unfold State.updGraph
  exact State.updBond_only hm.sub (by assumption)

theorem State.updAccount_only {s0 s1 : State} {a1 a2 a3} (hm : Within [.bond] m) (hs1 : OnlyIn m s0 s1) :
    OnlyIn m s0 (State.updAccount s1 a1 a2 a3) := by
  unfold State.updAccount
  extract_lets -merge -underBinder +onlyGivenNames x1
  clear_value x1
  exact State.updBond_only hm.sub (by assumption)

theorem State.completion_only {s0 s1 : State} {a1 a2 a3 a4} (hm : Within [.mem, .mt, .bond] m) (hs1 : OnlyIn m s0 s1) :
    OnlyIn m s0 (State.completion s1 a1 a2 a3 a4) := by
  unfold State.completion
  extract_lets -merge -underBinder +onlyGivenNames x1 x2 x3 x4 x5 x6 x7
  clear_value x1 x2 x3 x4 x5 x6
  have hx7 : OnlyIn m s0 x7 := by
    subst x7
    refine only_ite ?_ ?_
    · assumption
    · exact State.stBytes_only hm.sub (by assumption)
  clear_value x7
  exact State.updAccount_only hm.sub (by assumption)

theorem State.endRun_only {s0 s1 : State} {a1 a2 a3 a4}
    (hm : Within [.regs, .mem, .die, .kv, .mt, .bond] m) (hs1 : OnlyIn m s0 s1) :
    OnlyIn m s0 (State.endRun s1 a1 a2 a3 a4) := by
  unfold State.endRun
  extract_lets -merge -underBinder +onlyGivenNames x1 x2 x3
  clear_value x1 x2
  have hx3 : OnlyIn m s0 x3 := by
    subst x3
    exact State.completion_only hm.sub (by assumption)
  clear_value x3
  extract_lets -merge -underBinder +onlyGivenNames x4
  have hx4 : OnlyIn m s0 x4 := by
    subst x4
    refine State.each_only ?_ (fun _ _ _ => ?_)
    · assumption
    · exact State.pageUnpin_only hm.sub (by assumption)
  clear_value x4
  extract_lets -merge -underBinder +onlyGivenNames x5 x6 x7
  clear_value x5 x6
  have hx7 : OnlyIn m s0 x7 := by
    subst x7
    exact State.bump_only hm.sub (State.regSet_only hm.sub (State.regSet_only hm.sub (by assumption)))
  clear_value x7
  extract_lets -merge -underBinder +onlyGivenNames x8 x9
  clear_value x8
  have hx9 : OnlyIn m s0 x9 := by
    subst x9
    exact State.updMt_only hm.sub (by assumption)
  clear_value x9
  exact State.updDie_only hm.sub (by assumption)

theorem State.loseTasks_only {s0 s1 : State} {a1}
    (hm : Within [.regs, .mem, .tn, .die, .stream, .kv, .mt, .bond, .sdio] m) (hs1 : OnlyIn m s0 s1) :
    OnlyIn m s0 (State.loseTasks s1 a1) := by
  unfold State.loseTasks
  extract_lets -merge -underBinder +onlyGivenNames x1
  have hx1 : OnlyIn m s0 x1 := by
    subst x1
    refine State.each_only ?_ (fun _ _ _ => ?_)
    · assumption
    · split
      · split
        · exact State.chunkLost_only hm.sub (State.endRun_only hm.sub (by assumption))
        · exact State.endRun_only hm.sub (by assumption)
      · assumption
  clear_value x1
  extract_lets -merge -underBinder +onlyGivenNames x2
  have hx2 : OnlyIn m s0 x2 := by
    subst x2
    refine State.each_only ?_ (fun _ _ _ => ?_)
    · assumption
    · exact State.ctxSetQueue_only hm.sub (by assumption)
  clear_value x2
  extract_lets -merge -underBinder +onlyGivenNames x3
  have hx3 : OnlyIn m s0 x3 := by
    subst x3
    exact State.updStream_only hm.sub (by assumption)
  clear_value x3
  exact State.updDie_only hm.sub (by assumption)

theorem State.shardGone_only {s0 s1 : State} {a1 a2} (hm : Within [.bond] m) (hs1 : OnlyIn m s0 s1) :
    OnlyIn m s0 (State.shardGone s1 a1 a2) := by
  unfold State.shardGone
  extract_lets -merge -underBinder +onlyGivenNames x1
  clear_value x1
  exact State.updBond_only hm.sub (by assumption)

theorem State.loseGraphs_only {s0 s1 : State} {a1 a2 a3} (hm : Within [.bond, .sdio] m) (hs1 : OnlyIn m s0 s1) :
    OnlyIn m s0 (State.loseGraphs s1 a1 a2 a3) := by
  unfold State.loseGraphs
  extract_lets -merge -underBinder +onlyGivenNames x1 x2
  clear_value x1
  have hx2 : OnlyIn m s0 x2 := by
    subst x2
    refine State.each_only ?_ (fun _ _ _ => ?_)
    · assumption
    · extract_lets -merge -underBinder +onlyGivenNames x3
      have hx3 : OnlyIn m s0 x3 := by
        subst x3
        split
        · exact State.coverTile_only hm.sub (by assumption)
        · assumption
      clear_value x3
      extract_lets -merge -underBinder +onlyGivenNames x4
      clear_value x4
      exact State.answerDeferred_only hm.sub (by assumption)
  clear_value x2
  extract_lets -merge -underBinder +onlyGivenNames x5
  have hx5 : OnlyIn m s0 x5 := by
    subst x5
    exact State.updBond_only hm.sub (by assumption)
  clear_value x5
  refine State.each_only ?_ (fun _ _ _ => ?_)
  · assumption
  · exact State.shardGone_only hm.sub (by assumption)

theorem State.watchOpen_only {s0 s1 : State} {a1 a2}
    (hm : Within [.regs, .tn, .plumb, .test, .sdio] m) (hs1 : OnlyIn m s0 s1) :
    OnlyIn m s0 (State.watchOpen s1 a1 a2) := by
  unfold State.watchOpen
  refine only_ite ?_ ?_
  · assumption
  · extract_lets -merge -underBinder +onlyGivenNames x1
    clear_value x1
    refine only_ite ?_ ?_
    · exact State.bump_only hm.sub (by assumption)
    · extract_lets -merge -underBinder +onlyGivenNames x2 x3 x4
      clear_value x2 x3
      have hx4 : OnlyIn m s0 x4 := by
        subst x4
        refine only_ite ?_ ?_
        · assumption
        · exact State.injStep_only hm.sub (by assumption)
      clear_value x4
      extract_lets -merge -underBinder +onlyGivenNames x5
      clear_value x5
      exact State.updStage_only hm.sub (by assumption)

theorem State.wdStatus_only {s0 s1 : State} {a1 a2 a3} (hm : Within [.regs] m) (hs1 : OnlyIn m s0 s1) :
    OnlyIn m s0 (State.wdStatus s1 a1 a2 a3) := by
  unfold State.wdStatus
  exact State.regSet_only hm.sub (by assumption)

theorem State.readmit_only {s0 s1 : State} (hm : Within [.bond] m) (hs1 : OnlyIn m s0 s1) :
    OnlyIn m s0 (State.readmit s1) := by
  unfold State.readmit
  refine only_ite ?_ ?_
  · exact State.updBond_only hm.sub (by assumption)
  · assumption

theorem State.awaitResume_only {s0 s1 : State} {a1 a2} (hm : Within [.bond] m) (hs1 : OnlyIn m s0 s1) :
    OnlyIn m s0 (State.awaitResume s1 a1 a2) := by
  unfold State.awaitResume
  refine only_ite ?_ ?_
  · exact State.updBond_only hm.sub (by assumption)
  · assumption

theorem State.injLost_only {s0 s1 : State} {a1} (hm : Within [.regs, .tn, .test, .sdio] m) (hs1 : OnlyIn m s0 s1) :
    OnlyIn m s0 (State.injLost s1 a1) := by
  unfold State.injLost
  extract_lets -merge -underBinder +onlyGivenNames x1
  clear_value x1
  refine only_ite ?_ ?_
  · extract_lets -merge -underBinder +onlyGivenNames x2
    have hx2 : OnlyIn m s0 x2 := by
      subst x2
      exact State.updTest_only hm.sub (State.regSet_only hm.sub (by assumption))
    clear_value x2
    exact State.raise_only hm.sub (State.setFld_only hm.sub (by assumption))
  · assumption

theorem State.pairRestart_only {s0 s1 : State} {a1}
    (hm : Within [.regs, .mem, .tn, .die, .stream, .kv, .mt, .bond, .plumb, .test, .sdio] m) (hs1 : OnlyIn m s0 s1) :
    OnlyIn m s0 (State.pairRestart s1 a1) := by
  unfold State.pairRestart
  extract_lets -merge -underBinder +onlyGivenNames x1
  clear_value x1
  refine only_ite ?_ ?_
  · assumption
  · extract_lets -merge -underBinder +onlyGivenNames x2 x3
    clear_value x2
    have hx3 : OnlyIn m s0 x3 := by
      subst x3
      refine State.each_only ?_ (fun _ _ _ => ?_)
      · assumption
      · exact State.updStage_only hm.sub (by assumption)
    clear_value x3
    extract_lets -merge -underBinder +onlyGivenNames x4
    have hx4 : OnlyIn m s0 x4 := by
      subst x4
      refine State.injLost_only hm.sub ?_
      exact State.awaitResume_only hm.sub (State.loseGraphs_only hm.sub (State.loseTasks_only hm.sub (by assumption)))
    clear_value x4
    exact State.updDie_only hm.sub (by assumption)

theorem State.lineReset_only {s0 s1 : State} (hm : Within [.line] m) (hs1 : OnlyIn m s0 s1) :
    OnlyIn m s0 (State.lineReset s1) := by
  unfold State.lineReset
  exact State.updLine_only hm.sub (by assumption)

theorem State.safeTrigger_only {s0 s1 : State} {a1 a2}
    (hm : Within [.regs, .mem, .tn, .die, .stream, .kv, .mt, .bond, .line, .plumb, .test, .sdio] m) (hs1 : OnlyIn m s0 s1) :
    OnlyIn m s0 (State.safeTrigger s1 a1 a2) := by
  unfold State.safeTrigger
  extract_lets -merge -underBinder +onlyGivenNames x1
  have hx1 : OnlyIn m s0 x1 := by
    subst x1
    exact State.bumpHi_only hm.sub (by assumption)
  clear_value x1
  extract_lets -merge -underBinder +onlyGivenNames x2 x3
  clear_value x2
  have hx3 : OnlyIn m s0 x3 := by
    subst x3
    exact State.updPlumb_only hm.sub (by assumption)
  clear_value x3
  extract_lets -merge -underBinder +onlyGivenNames x4
  have hx4 : ∀ y0, OnlyIn m s0 y0 → OnlyIn m s0 (x4 y0) := by
    subst x4
    intro y0 _
    refine only_ite ?_ ?_
    · assumption
    · exact State.regSet_only hm.sub (State.regSet_only hm.sub (State.regSet_only hm.sub (by assumption)))
  clear_value x4
  refine only_ite ?_ ?_
  · refine only_ite ?_ ?_
    · refine hx4 _ ?_
      assumption
    · assumption
  · extract_lets -merge -underBinder +onlyGivenNames x5
    have hx5 : OnlyIn m s0 x5 := by
      subst x5
      refine State.updPlumb_only hm.sub ?_
      refine State.raise_only hm.sub ?_
      refine State.fallbackAll_only hm.sub ?_
      refine hx4 _ ?_
      assumption
    clear_value x5
    refine only_ite ?_ ?_
    · exact State.updPlumb_only hm.sub (by assumption)
    · extract_lets -merge -underBinder +onlyGivenNames x6 x7 x8 x9
      clear_value x6 x7 x8
      have hx9 : OnlyIn m s0 x9 := by
        subst x9
        exact State.updPlumb_only hm.sub (by assumption)
      clear_value x9
      extract_lets -merge -underBinder +onlyGivenNames x10
      have hx10 : OnlyIn m s0 x10 := by
        subst x10
        refine only_ite ?_ ?_
        · exact State.raise_only hm.sub (State.updPlumb_only hm.sub (by assumption))
        · assumption
      clear_value x10
      extract_lets -merge -underBinder +onlyGivenNames x11
      have hx11 : OnlyIn m s0 x11 := by
        subst x11
        refine State.each_only ?_ (fun _ _ _ => ?_)
        · assumption
        · extract_lets -merge -underBinder +onlyGivenNames x12
          clear_value x12
          refine only_ite ?_ ?_
          · assumption
          · refine State.updDie_only hm.sub ?_
            refine State.injLost_only hm.sub ?_
            exact State.awaitResume_only hm.sub (State.loseGraphs_only hm.sub (State.loseTasks_only hm.sub (by assumption)))
      clear_value x11
      exact State.bulkEnd_only hm.sub (State.lineReset_only hm.sub (by assumption))

theorem State.lockstepFault_only {s0 s1 : State}
    (hm : Within [.regs, .mem, .tn, .die, .stream, .kv, .mt, .bond, .line, .plumb, .test, .sdio] m) (hs1 : OnlyIn m s0 s1) :
    OnlyIn m s0 (State.lockstepFault s1) := by
  unfold State.lockstepFault
  refine only_ite ?_ ?_
  · assumption
  · extract_lets -merge -underBinder +onlyGivenNames x1
    have hx1 : OnlyIn m s0 x1 := by
      subst x1
      exact State.raise_only hm.sub (State.updPlumb_only hm.sub (by assumption))
    clear_value x1
    exact State.safeTrigger_only hm.sub (State.fallbackAll_only hm.sub (by assumption))

theorem State.stageAction_only {s0 s1 : State} {a1 a2 a3 a4}
    (hm : Within [.regs, .mem, .tn, .die, .stream, .kv, .mt, .bond, .line, .plumb, .test, .sdio] m) (hs1 : OnlyIn m s0 s1) :
    OnlyIn m s0 (State.stageAction s1 a1 a2 a3 a4) := by
  unfold State.stageAction
  split
  · assumption
  · exact State.pairRestart_only hm.sub (by assumption)
  · exact State.safeTrigger_only hm.sub (by assumption)

theorem State.violation_only {s0 s1 : State} {a1 a2 a3 a4}
    (hm : Within [.regs, .mem, .tn, .die, .stream, .kv, .mt, .bond, .line, .plumb, .test, .sdio] m) (hs1 : OnlyIn m s0 s1) :
    OnlyIn m s0 (State.violation s1 a1 a2 a3 a4) := by
  unfold State.violation
  extract_lets -merge -underBinder +onlyGivenNames x1
  have hx1 : OnlyIn m s0 x1 := by
    subst x1
    refine only_ite ?_ ?_
    · exact State.bumpHi_only hm.sub (by assumption)
    · exact State.bumpLo_only hm.sub (by assumption)
  clear_value x1
  extract_lets -merge -underBinder +onlyGivenNames x2 x3
  clear_value x2
  have hx3 : OnlyIn m s0 x3 := by
    subst x3
    exact State.wdStatus_only hm.sub (State.updStage_only hm.sub (by assumption))
  clear_value x3
  refine only_ite ?_ ?_
  · assumption
  · extract_lets -merge -underBinder +onlyGivenNames x4
    have hx4 : OnlyIn m s0 x4 := by
      subst x4
      exact State.raise_only hm.sub (by assumption)
    clear_value x4
    exact State.stageAction_only hm.sub (by assumption)

theorem State.watchKick_only {s0 s1 : State} {a1 a2}
    (hm : Within [.regs, .mem, .tn, .die, .stream, .kv, .mt, .bond, .line, .plumb, .test, .sdio] m) (hs1 : OnlyIn m s0 s1) :
    OnlyIn m s0 (State.watchKick s1 a1 a2) := by
  unfold State.watchKick
  split
  · assumption
  · extract_lets -merge -underBinder +onlyGivenNames x1 x2 x3
    clear_value x1 x2
    have hx3 : OnlyIn m s0 x3 := by
      subst x3
      exact State.updStage_only hm.sub (by assumption)
    clear_value x3
    refine only_ite ?_ ?_
    · exact State.violation_only hm.sub (by assumption)
    · refine only_ite ?_ ?_
      · exact State.violation_only hm.sub (by assumption)
      · exact State.wdStatus_only hm.sub (State.updStage_only hm.sub (by assumption))

theorem State.watchRef_only {s0 s1 : State} {a1 a2}
    (hm : Within [.regs, .mem, .tn, .die, .stream, .kv, .mt, .bond, .line, .plumb, .test, .sdio] m) (hs1 : OnlyIn m s0 s1) :
    OnlyIn m s0 (State.watchRef s1 a1 a2) := by
  unfold State.watchRef
  extract_lets -merge -underBinder +onlyGivenNames x1
  have hx1 : OnlyIn m s0 x1 := by
    subst x1
    exact State.watchOpen_only hm.sub (by assumption)
  clear_value x1
  refine only_ite ?_ ?_
  · exact State.watchKick_only hm.sub (by assumption)
  · assumption

theorem State.graphCheck_only {s0 s1 : State} {a1}
    (hm : Within [.regs, .mem, .tn, .die, .stream, .kv, .mt, .bond, .line, .plumb, .test, .sdio] m) (hs1 : OnlyIn m s0 s1) :
    OnlyIn m s0 (State.graphCheck s1 a1) := by
  unfold State.graphCheck
  split
  · assumption
  · refine only_ite ?_ ?_
    · assumption
    · extract_lets -merge -underBinder +onlyGivenNames x1
      have hx1 : OnlyIn m s0 x1 := by
        subst x1
        refine only_ite ?_ ?_
        · exact State.watchKick_only hm.sub (by assumption)
        · assumption
      clear_value x1
      extract_lets -merge -underBinder +onlyGivenNames x2
      have hx2 : OnlyIn m s0 x2 := by
        subst x2
        exact State.updBond_only hm.sub (by assumption)
      clear_value x2
      exact State.answerDeferred_only hm.sub (by assumption)

theorem State.graphCancel_only {s0 s1 : State} {a1 a2}
    (hm : Within [.regs, .mem, .tn, .die, .stream, .kv, .mt, .bond, .line, .plumb, .test, .sdio] m) (hs1 : OnlyIn m s0 s1) :
    OnlyIn m s0 (State.graphCancel s1 a1 a2) := by
  unfold State.graphCancel
  extract_lets -merge -underBinder +onlyGivenNames x1
  have hx1 : OnlyIn m s0 x1 := by
    subst x1
    split
    · exact State.coverTile_only hm.sub (by assumption)
    · assumption
  clear_value x1
  extract_lets -merge -underBinder +onlyGivenNames x2 x3 x4
  clear_value x2 x3
  have hx4 : OnlyIn m s0 x4 := by
    subst x4
    exact State.updGraph_only hm.sub (by assumption)
  clear_value x4
  extract_lets -merge -underBinder +onlyGivenNames x5
  have hx5 : OnlyIn m s0 x5 := by
    subst x5
    exact State.shardGone_only hm.sub (by assumption)
  clear_value x5
  extract_lets -merge -underBinder +onlyGivenNames x6
  have hx6 : OnlyIn m s0 x6 := by
    subst x6
    refine State.each_only ?_ (fun _ _ _ => ?_)
    · assumption
    · extract_lets -merge -underBinder +onlyGivenNames x7
      clear_value x7
      refine only_ite ?_ ?_
      · assumption
      · refine State.ctxSetQueue_only hm.sub ?_
        refine State.each_only ?_ (fun _ _ _ => ?_)
        · assumption
        · exact State.chunkLost_only hm.sub (by assumption)
  clear_value x6
  refine only_ite ?_ ?_
  · exact State.updBond_only hm.sub (by assumption)
  · exact State.graphCheck_only hm.sub (by assumption)

theorem State.graphsVacant_only {s0 s1 : State} {a1 a2}
    (hm : Within [.regs, .mem, .tn, .die, .stream, .kv, .mt, .bond, .line, .plumb, .test, .sdio] m) (hs1 : OnlyIn m s0 s1) :
    OnlyIn m s0 (State.graphsVacant s1 a1 a2) := by
  unfold State.graphsVacant
  refine State.each_only ?_ (fun _ _ _ => ?_)
  · assumption
  · exact State.graphCancel_only hm.sub (by assumption)

theorem State.capGrant_only {s0 s1 : State} (hm : Within [.power] m) (hs1 : OnlyIn m s0 s1) :
    OnlyIn m s0 (State.capGrant s1) := by
  unfold State.capGrant
  exact State.updPower_only hm.sub (by assumption)

theorem State.dieFail_only {s0 s1 : State} {a1}
    (hm : Within [.regs, .mem, .tn, .die, .stream, .kv, .mt, .bond, .power, .sdio] m) (hs1 : OnlyIn m s0 s1) :
    OnlyIn m s0 (State.dieFail s1 a1) := by
  unfold State.dieFail
  refine only_ite ?_ ?_
  · assumption
  · extract_lets -merge -underBinder +onlyGivenNames x1
    have hx1 : OnlyIn m s0 x1 := by
      subst x1
      exact State.loseGraphs_only hm.sub (State.loseTasks_only hm.sub (by assumption))
    clear_value x1
    refine State.readmit_only hm.sub ?_
    exact State.capGrant_only hm.sub (State.raise_only hm.sub (State.updDie_only hm.sub (by assumption)))

theorem State.respare_only {s0 s1 : State} {a1 a2}
    (hm : Within [.regs, .mem, .tn, .die, .stream, .kv, .mt, .bond, .line, .plumb, .power, .test, .sdio] m) (hs1 : OnlyIn m s0 s1) :
    OnlyIn m s0 (State.respare s1 a1 a2) := by
  unfold State.respare
  split
  · extract_lets -merge -underBinder +onlyGivenNames x1
    have hx1 : OnlyIn m s0 x1 := by
      subst x1
      exact State.updSlot_only hm.sub (by assumption)
    clear_value x1
    exact State.raise_only hm.sub (State.updCore_only hm.sub (by assumption))
  · extract_lets -merge -underBinder +onlyGivenNames x2
    have hx2 : OnlyIn m s0 x2 := by
      subst x2
      exact State.graphsVacant_only hm.sub (State.updSlot_only hm.sub (by assumption))
    clear_value x2
    extract_lets -merge -underBinder +onlyGivenNames x3
    have hx3 : OnlyIn m s0 x3 := by
      subst x3
      refine State.readmit_only hm.sub ?_
      exact State.capGrant_only hm.sub (State.raise_only hm.sub (State.raise_only hm.sub (by assumption)))
    clear_value x3
    refine only_ite ?_ ?_
    · exact State.pairRestart_only hm.sub (State.updDie_only hm.sub (by assumption))
    · assumption

theorem State.coreFail_only {s0 s1 : State} {a1 a2 a3}
    (hm : Within [.regs, .mem, .tn, .die, .stream, .kv, .mt, .bond, .line, .plumb, .power, .test, .sdio] m) (hs1 : OnlyIn m s0 s1) :
    OnlyIn m s0 (State.coreFail s1 a1 a2 a3) := by
  unfold State.coreFail
  split
  · assumption
  · extract_lets -merge -underBinder +onlyGivenNames x1
    have hx1 : OnlyIn m s0 x1 := by
      subst x1
      exact State.raise_only hm.sub (State.updCore_only hm.sub (by assumption))
    clear_value x1
    split
    · extract_lets -merge -underBinder +onlyGivenNames x2
      have hx2 : OnlyIn m s0 x2 := by
        subst x2
        exact State.updRun_only hm.sub (by assumption)
      clear_value x2
      exact State.respare_only hm.sub (by assumption)
    · assumption

end Sys2Proof.Machine
end

