-- ==== Sys2Proof/Laws/OnlyMemCore.lean ====
section
/-! SUPPORT. What the operations of Machine/MemCore.lean may change (Laws/Only.lean). -/
namespace Sys2Proof.Machine
set_option Elab.async false

variable {m : List Block}

theorem State.pteSet_only {s0 s1 : State} {a1 a2} (hm : Within [.mem, .mt] m) (hs1 : OnlyIn m s0 s1) :
    OnlyIn m s0 (State.pteSet s1 a1 a2) := by
  unfold State.pteSet
  exact State.linSt_only hm.sub (by assumption)

theorem State.queueBurst_only {s0 s1 : State} {a1 a2 a3} (hm : Within [.mt] m) (hs1 : OnlyIn m s0 s1) :
    OnlyIn m s0 (State.queueBurst s1 a1 a2 a3) := by
  unfold State.queueBurst
  exact State.updQch_only hm.sub (by assumption)

theorem State.queueBursts_only {s0 s1 : State} {a1 a2 a3 a4 a5 a6 a7} (hm : Within [.mt] m) (hs1 : OnlyIn m s0 s1) :
    OnlyIn m s0 (State.queueBursts s1 a1 a2 a3 a4 a5 a6 a7) := by
  unfold State.queueBursts
  refine only_ite ?_ ?_
  · assumption
  · refine State.each_only ?_ (fun _ _ _ => ?_)
    · assumption
    · extract_lets -merge -underBinder +onlyGivenNames x1 x2
      clear_value x1 x2
      exact State.queueBurst_only hm.sub (by assumption)

theorem State.unflip_only {s0 s1 : State} {a1} (hm : Within [.mt] m) (hs1 : OnlyIn m s0 s1) :
    OnlyIn m s0 (State.unflip s1 a1) := by
  unfold State.unflip
  exact State.updMt_only hm.sub (by assumption)

theorem State.repairRow_only {s0 s1 : State} {a1}
    (hm : Within [.regs, .mem, .tn, .die, .mt, .sdio] m) (hs1 : OnlyIn m s0 s1) :
    OnlyIn m s0 (State.repairRow s1 a1) := by
  unfold State.repairRow
  extract_lets -merge -underBinder +onlyGivenNames x1
  have hx1 : OnlyIn m s0 x1 := by
    subst x1
    exact State.updMt_only hm.sub (by assumption)
  clear_value x1
  split
  · refine only_ite ?_ ?_
    · extract_lets -merge -underBinder +onlyGivenNames x2
      have hx2 : OnlyIn m s0 x2 := by
        subst x2
        exact State.updMt_only hm.sub (by assumption)
      clear_value x2
      extract_lets -merge -underBinder +onlyGivenNames x3 x4
      clear_value x3
      have hx4 : OnlyIn m s0 x4 := by
        subst x4
        refine only_ite ?_ ?_
        · assumption
        · exact State.updCore_only hm.sub (by assumption)
      clear_value x4
      exact State.raise_only hm.sub (State.bumpHi_only hm.sub (by assumption))
    · extract_lets -merge -underBinder +onlyGivenNames x5
      have hx5 : OnlyIn m s0 x5 := by
        subst x5
        exact State.raise_only hm.sub (State.bumpLo_only hm.sub (State.updMt_only hm.sub (by assumption)))
      clear_value x5
      extract_lets -merge -underBinder +onlyGivenNames x6 x7
      clear_value x6 x7
      refine only_ite ?_ ?_
      · assumption
      · split
        · exact State.updMt_only hm.sub (by assumption)
        · refine only_ite ?_ ?_
          · exact State.updMt_only hm.sub (by assumption)
          · split
            · assumption
            · exact State.updMt_only hm.sub (State.pteSet_only hm.sub (by assumption))

theorem State.wearRow_only {s0 s1 : State} {a1}
    (hm : Within [.regs, .mem, .tn, .die, .mt, .sdio] m) (hs1 : OnlyIn m s0 s1) :
    OnlyIn m s0 (State.wearRow s1 a1) := by
  unfold State.wearRow
  extract_lets -merge -underBinder +onlyGivenNames x1
  clear_value x1
  refine only_ite ?_ ?_
  · assumption
  · extract_lets -merge -underBinder +onlyGivenNames x2 x3
    clear_value x2
    have hx3 : OnlyIn m s0 x3 := by
      subst x3
      exact State.updMt_only hm.sub (by assumption)
    clear_value x3
    refine only_ite ?_ ?_
    · exact State.repairRow_only hm.sub (by assumption)
    · assumption

theorem State.repairCore_only {s0 s1 : State} {a1 a2}
    (hm : Within [.regs, .mem, .tn, .die, .mt, .sdio] m) (hs1 : OnlyIn m s0 s1) :
    OnlyIn m s0 (State.repairCore s1 a1 a2) := by
  unfold State.repairCore
  extract_lets -merge -underBinder +onlyGivenNames x1
  clear_value x1
  refine State.each_only ?_ (fun _ _ _ => ?_)
  · assumption
  · exact State.repairRow_only hm.sub (by assumption)

theorem State.coreUncorr_only {s0 s1 : State} {a1 a2 a3}
    (hm : Within [.regs, .mem, .tn, .die, .stream, .kv, .mt, .bond, .line, .plumb, .power, .test, .sdio] m) (hs1 : OnlyIn m s0 s1) :
    OnlyIn m s0 (State.coreUncorr s1 a1 a2 a3) := by
  unfold State.coreUncorr
  extract_lets -merge -underBinder +onlyGivenNames x1 x2
  clear_value x1
  have hx2 : OnlyIn m s0 x2 := by
    subst x2
    exact State.updCore_only hm.sub (by assumption)
  clear_value x2
  extract_lets -merge -underBinder +onlyGivenNames x3
  have hx3 : OnlyIn m s0 x3 := by
    subst x3
    split
    · exact State.updRun_only hm.sub (by assumption)
    · assumption
  clear_value x3
  refine only_ite ?_ ?_
  · exact State.coreFail_only hm.sub (by assumption)
  · assumption

theorem State.eccRead_only {s0 s1 : State} {a1 a2}
    (hm : Within [.regs, .mem, .tn, .die, .stream, .kv, .mt, .bond, .line, .plumb, .power, .test, .sdio] m) (hs1 : OnlyIn m s0 s1) :
    OnlyInL m s0 (State.eccRead s1 a1 a2) := by
  unfold State.eccRead
  refine onlyL_foldl (fun _ _ _ => ?_) ?_
  · extract_lets -merge -underBinder +onlyGivenNames x1
    have hx1 : OnlyIn m s0 x1 := by
      subst x1
      exact OnlyInL.fst (by assumption)
    clear_value x1
    extract_lets -merge -underBinder +onlyGivenNames x2 x3
    clear_value x2 x3
    refine onlyL_ite ?_ ?_
    · refine onlyL_ite ?_ ?_
      · refine onlyL_mk ?_
        refine State.wearRow_only hm.sub ?_
        exact State.unflip_only hm.sub (State.raise_only hm.sub (State.bumpHi_only hm.sub (by assumption)))
      · exact onlyL_mk (State.raise_only hm.sub (State.bumpLo_only hm.sub (by assumption)))
    · refine onlyL_ite ?_ ?_
      · extract_lets -merge -underBinder +onlyGivenNames x4 x5 x6
        clear_value x4 x5 x6
        refine onlyL_ite ?_ ?_
        · refine onlyL_mk ?_
          refine State.wearRow_only hm.sub ?_
          refine State.unflip_only hm.sub ?_
          exact State.raise_only hm.sub (State.bumpHi_only hm.sub (State.bumpHi_only hm.sub (by assumption)))
        · refine onlyL_mk ?_
          refine State.coreUncorr_only hm.sub ?_
          exact State.raise_only hm.sub (State.bumpLo_only hm.sub (State.bumpLo_only hm.sub (by assumption)))
      · split
        · refine onlyL_ite ?_ ?_
          · exact onlyL_mk (State.unflip_only hm.sub (State.bumpHi_only hm.sub (by assumption)))
          · exact onlyL_mk (State.raise_only hm.sub (State.bumpLo_only hm.sub (by assumption)))
        · refine onlyL_mk ?_
          exact OnlyInL.fst (by assumption)
  · exact onlyL_mk (by assumption)

theorem State.pageAccess_only {s0 s1 : State} {a1 a2 a3 a4 a5}
    (hm : Within [.regs, .mem, .tn, .die, .stream, .kv, .mt, .bond, .line, .plumb, .power, .test, .sdio] m) (hs1 : OnlyIn m s0 s1) :
    OnlyInL m s0 (State.pageAccess s1 a1 a2 a3 a4 a5) := by
  unfold State.pageAccess
  extract_lets -merge -underBinder +onlyGivenNames x1
  clear_value x1
  refine onlyL_ite ?_ ?_
  · exact onlyL_mk (by assumption)
  · refine onlyL_ite ?_ ?_
    · exact onlyL_mk (by assumption)
    · extract_lets -merge -underBinder +onlyGivenNames x2
      have hx2 : OnlyIn m s0 x2 := by
        subst x2
        exact State.pteSet_only hm.sub (by assumption)
      clear_value x2
      extract_lets -merge -underBinder +onlyGivenNames x3
      have hx3 : OnlyIn m s0 x3 := by
        subst x3
        exact State.queueBursts_only hm.sub (by assumption)
      clear_value x3
      extract_lets -merge -underBinder +onlyGivenNames x4
      have hx4 : OnlyIn m s0 x4 := by
        subst x4
        refine only_ite ?_ ?_
        · exact State.updMt_only hm.sub (by assumption)
        · assumption
      clear_value x4
      extract_lets -merge -underBinder +onlyGivenNames x5
      clear_value x5
      refine onlyL_ite ?_ ?_
      · exact onlyL_mk (by assumption)
      · split
        · refine OnlyInL.of_eq (m := m) (a := s0) (by assumption) ?_ (fun _ => ?_)
          · exact State.eccRead_only hm.sub (by assumption)
          exact onlyL_mk (by assumption)

theorem State.tierRead_only {s0 s1 : State} {a1 a2 a3}
    (hm : Within [.regs, .mem, .tn, .die, .stream, .kv, .mt, .bond, .line, .plumb, .power, .test, .sdio] m) (hs1 : OnlyIn m s0 s1) :
    OnlyInL m s0 (State.tierRead s1 a1 a2 a3) := by
  unfold State.tierRead
  refine onlyL_foldl (fun _ _ _ => ?_) ?_
  · split
    · assumption
    · split
      · refine OnlyInL.of_eq (m := m) (a := s0) (by assumption) ?_ (fun _ => ?_)
        · refine State.pageAccess_only hm.sub ?_
          exact OnlyInL.fst (by assumption)
        exact onlyL_mk (by assumption)
      · refine OnlyInL.of_eq (m := m) (a := s0) (by assumption) ?_ (fun _ => ?_)
        · refine State.pageAccess_only hm.sub ?_
          exact OnlyInL.fst (by assumption)
        exact onlyL_mk (by assumption)
  · exact onlyL_mk (by assumption)

theorem State.tierWrite_only {s0 s1 : State} {a1 a2 a3}
    (hm : Within [.regs, .mem, .tn, .die, .stream, .kv, .mt, .bond, .line, .plumb, .power, .test, .sdio] m) (hs1 : OnlyIn m s0 s1) :
    OnlyInL m s0 (State.tierWrite s1 a1 a2 a3) := by
  unfold State.tierWrite
  extract_lets -merge -underBinder +onlyGivenNames x1
  have hx1 : OnlyInL m s0 x1 := by
    subst x1
    refine onlyL_foldl (fun _ _ _ => ?_) ?_
    · split
      · assumption
      · split
        · refine OnlyInL.of_eq (m := m) (a := s0) (by assumption) ?_ (fun _ => ?_)
          · refine State.pageAccess_only hm.sub ?_
            exact OnlyInL.fst (by assumption)
          exact onlyL_mk (by assumption)
        · refine OnlyInL.of_eq (m := m) (a := s0) (by assumption) ?_ (fun _ => ?_)
          · refine State.pageAccess_only hm.sub ?_
            exact OnlyInL.fst (by assumption)
          exact onlyL_mk (State.stBytes_only hm.sub (by assumption))
    · exact onlyL_mk (by assumption)
  clear_value x1
  refine onlyL_mk ?_
  exact OnlyInL.fst (by assumption)

theorem State.abortMove_only {s0 s1 : State} {a1} (hm : Within [.regs, .mem, .tn, .mt, .sdio] m) (hs1 : OnlyIn m s0 s1) :
    OnlyIn m s0 (State.abortMove s1 a1) := by
  unfold State.abortMove
  refine only_ite ?_ ?_
  · extract_lets -merge -underBinder +onlyGivenNames x1
    have hx1 : OnlyIn m s0 x1 := by
      subst x1
      exact State.updMt_only hm.sub (by assumption)
    clear_value x1
    exact State.raise_only hm.sub (State.bump_only hm.sub (State.pteSet_only hm.sub (by assumption)))
  · assumption

theorem State.placePage_only {s0 s1 : State} {a1 a2 a3}
    (hm : Within [.regs, .mem, .tn, .mt, .sdio] m) (hs1 : OnlyIn m s0 s1) :
    OnlyInO m s0 (State.placePage s1 a1 a2 a3) := by
  unfold State.placePage
  extract_lets -merge -underBinder +onlyGivenNames x1
  clear_value x1
  split
  · exact onlyO_none
  · extract_lets -merge -underBinder +onlyGivenNames x2 x3
    have hx3 : OnlyIn m s0 x3 := by
      subst x3
      refine only_ite ?_ ?_
      · exact State.updMt_only hm.sub (by assumption)
      · assumption
    clear_value x3
    extract_lets -merge -underBinder +onlyGivenNames x4
    have hx4 : OnlyIn m s0 x4 := by
      subst x4
      exact State.queueBursts_only hm.sub (State.zero_only hm.sub (by assumption))
    clear_value x4
    extract_lets -merge -underBinder +onlyGivenNames x5
    have hx5 : OnlyIn m s0 x5 := by
      subst x5
      exact State.pteSet_only hm.sub (by assumption)
    clear_value x5
    refine onlyO_some ?_
    refine only_ite ?_ ?_
    · assumption
    · exact State.raise_only hm.sub (by assumption)

theorem State.burstErr_only {s0 s1 : State} {a1}
    (hm : Within [.regs, .mem, .tn, .die, .mt, .sdio] m) (hs1 : OnlyIn m s0 s1) :
    OnlyIn m s0 (State.burstErr s1 a1) := by
  unfold State.burstErr
  split
  · exact State.raise_only hm.sub (State.pageSt_only hm.sub (by assumption))
  · exact State.updRun_only hm.sub (by assumption)
  · assumption

theorem State.qchExclude_only {s0 s1 : State} {a1 a2}
    (hm : Within [.regs, .mem, .tn, .die, .mt, .bond, .sdio] m) (hs1 : OnlyIn m s0 s1) :
    OnlyIn m s0 (State.qchExclude s1 a1 a2) := by
  unfold State.qchExclude
  extract_lets -merge -underBinder +onlyGivenNames x1
  clear_value x1
  refine only_ite ?_ ?_
  · assumption
  · extract_lets -merge -underBinder +onlyGivenNames x2
    have hx2 : OnlyIn m s0 x2 := by
      subst x2
      refine State.each_only ?_ (fun _ _ _ => ?_)
      · assumption
      · exact State.burstErr_only hm.sub (by assumption)
    clear_value x2
    extract_lets -merge -underBinder +onlyGivenNames x3
    have hx3 : OnlyIn m s0 x3 := by
      subst x3
      exact State.updQch_only hm.sub (by assumption)
    clear_value x3
    extract_lets -merge -underBinder +onlyGivenNames x4 x5 x6 x7
    clear_value x4 x5 x6
    have hx7 : OnlyIn m s0 x7 := by
      subst x7
      refine State.each_only ?_ (fun _ _ _ => ?_)
      · assumption
      · exact State.abortMove_only hm.sub (by assumption)
    clear_value x7
    extract_lets -merge -underBinder +onlyGivenNames x8
    have hx8 : OnlyIn m s0 x8 := by
      subst x8
      refine State.each_only ?_ (fun _ _ _ => ?_)
      · assumption
      · exact State.pteSet_only hm.sub (by assumption)
    clear_value x8
    extract_lets -merge -underBinder +onlyGivenNames x9
    have hx9 : OnlyIn m s0 x9 := by
      subst x9
      exact State.updMt_only hm.sub (by assumption)
    clear_value x9
    exact State.readmit_only hm.sub (State.raise_only hm.sub (State.raise_only hm.sub (by assumption)))

theorem State.markLost_only {s0 s1 : State} {a1} (hm : Within [.mem, .mt] m) (hs1 : OnlyIn m s0 s1) :
    OnlyIn m s0 (State.markLost s1 a1) := by
  unfold State.markLost
  extract_lets -merge -underBinder +onlyGivenNames x1
  have hx1 : OnlyIn m s0 x1 := by
    subst x1
    refine State.each_only ?_ (fun _ _ _ => ?_)
    · assumption
    · refine State.each_only ?_ (fun _ _ _ => ?_)
      · assumption
      · refine only_ite ?_ ?_
        · exact State.pageSt_only hm.sub (by assumption)
        · assumption
  clear_value x1
  refine State.each_only ?_ (fun _ _ _ => ?_)
  · assumption
  · refine State.each_only ?_ (fun _ _ _ => ?_)
    · assumption
    · refine only_ite ?_ ?_
      · exact State.ctxSetFlag_only hm.sub (State.ctxSetFlag_only hm.sub (by assumption))
      · assumption

theorem State.remapLost_only {s0 s1 : State} (hm : Within [.regs, .mem, .tn, .mt, .sdio] m) (hs1 : OnlyIn m s0 s1) :
    OnlyIn m s0 (State.remapLost s1) := by
  unfold State.remapLost
  refine State.each_only ?_ (fun _ _ _ => ?_)
  · assumption
  · extract_lets -merge -underBinder +onlyGivenNames x1
    clear_value x1
    split
    · refine OnlyInO.of_eq (m := m) (a := s0) (by assumption) ?_ (fun _ => ?_)
      · exact State.placePage_only hm.sub (by assumption)
      assumption
    · assumption

theorem State.startMove_only {s0 s1 : State} {a1 a2 a3 a4} (hm : Within [.mem, .mt] m) (hs1 : OnlyIn m s0 s1) :
    OnlyIn m s0 (State.startMove s1 a1 a2 a3 a4) := by
  unfold State.startMove
  extract_lets -merge -underBinder +onlyGivenNames x1
  have hx1 : OnlyIn m s0 x1 := by
    subst x1
    refine only_ite ?_ ?_
    · exact State.updMt_only hm.sub (by assumption)
    · assumption
  clear_value x1
  extract_lets -merge -underBinder +onlyGivenNames x2
  have hx2 : OnlyIn m s0 x2 := by
    subst x2
    exact State.queueBursts_only hm.sub (State.queueBursts_only hm.sub (by assumption))
  clear_value x2
  exact State.updMt_only hm.sub (State.pteSet_only hm.sub (by assumption))

theorem State.migrate_only {s0 s1 : State} {a1} (hm : Within [.mem, .mt] m) (hs1 : OnlyIn m s0 s1) :
    OnlyIn m s0 (State.migrate s1 a1) := by
  unfold State.migrate
  extract_lets -merge -underBinder +onlyGivenNames x1
  have hx1 : OnlyIn m s0 x1 := by
    subst x1
    refine State.each_only ?_ (fun _ _ _ => ?_)
    · assumption
    · extract_lets -merge -underBinder +onlyGivenNames x2
      clear_value x2
      exact State.pteSet_only hm.sub (by assumption)
  clear_value x1
  extract_lets -merge -underBinder +onlyGivenNames x3 x4
  clear_value x3
  have hx4 : OnlyIn m s0 x4 := by
    subst x4
    refine State.each_only ?_ (fun _ _ _ => ?_)
    · assumption
    · refine only_ite ?_ ?_
      · assumption
      · split
        · exact State.startMove_only hm.sub (by assumption)
        · assumption
  clear_value x4
  extract_lets -merge -underBinder +onlyGivenNames x5
  clear_value x5
  refine State.each_only ?_ (fun _ _ _ => ?_)
  · assumption
  · refine only_ite ?_ ?_
    · assumption
    · split
      · exact State.startMove_only hm.sub (by assumption)
      · extract_lets -merge -underBinder +onlyGivenNames x6
        clear_value x6
        split
        · assumption
        · split
          · exact State.startMove_only hm.sub (by assumption)
          · assumption

theorem State.copyKeys_only {s0 s1 : State} {a1 a2 a3} (hm : Within [.mem, .mt] m) (hs1 : OnlyIn m s0 s1) :
    OnlyIn m s0 (State.copyKeys s1 a1 a2 a3) := by
  unfold State.copyKeys
  extract_lets -merge -underBinder +onlyGivenNames x1 x2
  clear_value x1
  have hx2 : OnlyIn m s0 x2 := by
    subst x2
    exact State.zero_only hm.sub (by assumption)
  clear_value x2
  exact onlyIn_of hm.sub (by assumption) only_mem

theorem State.promoteNext_only {s0 s1 : State} {a1} (hm : Within [.mem, .mt] m) (hs1 : OnlyIn m s0 s1) :
    OnlyIn m s0 (State.promoteNext s1 a1) := by
  unfold State.promoteNext
  split
  · assumption
  · refine only_ite ?_ ?_
    · split
      · exact State.startMove_only hm.sub (by assumption)
      · assumption
    · assumption

theorem State.moveDone_only {s0 s1 : State} {a1}
    (hm : Within [.regs, .mem, .tn, .die, .stream, .kv, .mt, .bond, .line, .plumb, .power, .test, .sdio] m) (hs1 : OnlyIn m s0 s1) :
    OnlyIn m s0 (State.moveDone s1 a1) := by
  unfold State.moveDone
  split
  · assumption
  · extract_lets -merge -underBinder +onlyGivenNames x1
    clear_value x1
    split
    · refine OnlyInL.of_eq (m := m) (a := s0) (by assumption) ?_ (fun _ => ?_)
      · refine onlyL_ite ?_ ?_
        · exact State.eccRead_only hm.sub (by assumption)
        · exact onlyL_mk (by assumption)
      refine only_ite ?_ ?_
      · exact State.abortMove_only hm.sub (by assumption)
      · extract_lets -merge -underBinder +onlyGivenNames x2 x3
        clear_value x2
        have hx3 : OnlyIn m s0 x3 := by
          subst x3
          exact State.copyKeys_only hm.sub (by assumption)
        clear_value x3
        extract_lets -merge -underBinder +onlyGivenNames x4
        have hx4 : OnlyIn m s0 x4 := by
          subst x4
          exact State.pteSet_only hm.sub (by assumption)
        clear_value x4
        extract_lets -merge -underBinder +onlyGivenNames x5
        have hx5 : OnlyIn m s0 x5 := by
          subst x5
          exact State.updMt_only hm.sub (by assumption)
        clear_value x5
        split
        · exact State.setFld_only hm.sub (by assumption)
        · exact State.promoteNext_only hm.sub (State.setFld_only hm.sub (by assumption))
        · assumption

end Sys2Proof.Machine
end

