-- ==== Sys2Proof/Laws/OnlyGraphCore.lean ====
section
/-! SUPPORT. What the operations of Machine/GraphCore.lean may change (Laws/Only.lean). -/
namespace Sys2Proof.Machine
set_option Elab.async false

variable {m : List Block}

theorem State.swapWaits_only {s0 s1 : State} {a1} (hm : Within [.regs, .tn, .stream, .sdio] m) (hs1 : OnlyIn m s0 s1) :
    OnlyIn m s0 (State.swapWaits s1 a1) := by
  unfold State.swapWaits
  refine State.each_only ?_ (fun _ _ _ => ?_)
  · assumption
  · refine only_ite ?_ ?_
    · assumption
    · exact State.raise_only hm.sub (State.updStream_only hm.sub (by assumption))

theorem State.streamSettle_only {s0 s1 : State} {a1} (hm : Within [.regs, .tn, .stream, .sdio] m) (hs1 : OnlyIn m s0 s1) :
    OnlyIn m s0 (State.streamSettle s1 a1) := by
  unfold State.streamSettle
  refine State.swapWaits_only hm.sub ?_
  refine State.each_only ?_ (fun _ _ _ => ?_)
  · assumption
  · refine only_ite ?_ ?_
    · assumption
    · exact State.updStream_only hm.sub (by assumption)

theorem State.swapRequest_only {s0 s1 : State} {a1} (hm : Within [.regs, .tn, .stream, .sdio] m) (hs1 : OnlyIn m s0 s1) :
    OnlyIn m s0 (State.swapRequest s1 a1) := by
  unfold State.swapRequest
  extract_lets -merge -underBinder +onlyGivenNames x1
  clear_value x1
  refine only_ite ?_ ?_
  · exact State.streamSettle_only hm.sub (State.updStream_only hm.sub (by assumption))
  · assumption

theorem State.updTask_only {s0 s1 : State} {a1 a2 a3} (hm : Within [.bond] m) (hs1 : OnlyIn m s0 s1) :
    OnlyIn m s0 (State.updTask s1 a1 a2 a3) := by
  unfold State.updTask
  exact State.updGraph_only hm.sub (by assumption)

theorem State.tally_only {s0 s1 : State} {a1 a2} (hm : Within [.bond] m) (hs1 : OnlyIn m s0 s1) :
    OnlyIn m s0 (State.tally s1 a1 a2) := by
  unfold State.tally
  split
  · assumption
  · extract_lets -merge -underBinder +onlyGivenNames x1
    have hx1 : OnlyIn m s0 x1 := by
      subst x1
      exact State.updGraph_only hm.sub (by assumption)
    clear_value x1
    split
    · refine only_ite ?_ ?_
      · assumption
      · exact State.coverTile_only hm.sub (by assumption)
    · assumption

theorem State.unrun_only {s0 s1 : State} {a1 a2 a3 a4 a5 a6} (hm : Within [.mem, .mt, .bond] m) (hs1 : OnlyIn m s0 s1) :
    OnlyIn m s0 (State.unrun s1 a1 a2 a3 a4 a5 a6) := by
  unfold State.unrun
  extract_lets -merge -underBinder +onlyGivenNames x1 x2
  clear_value x1 x2
  exact State.completion_only hm.sub (by assumption)

theorem State.chunkDrop_only {s0 s1 : State} {a1 a2 a3} (hm : Within [.mem, .stream, .mt] m) (hs1 : OnlyIn m s0 s1) :
    OnlyIn m s0 (State.chunkDrop s1 a1 a2 a3) := by
  unfold State.chunkDrop
  refine State.each_only ?_ (fun _ _ _ => ?_)
  · assumption
  · refine only_ite ?_ ?_
    · exact State.ctxSetQueue_only hm.sub (by assumption)
    · assumption

theorem State.releaseSuccs_only {s0 s1 : State} {a1 a2} (hm : Within [.bond] m) (hs1 : OnlyIn m s0 s1) :
    OnlyInL m s0 (State.releaseSuccs s1 a1 a2) := by
  unfold State.releaseSuccs
  split
  · exact onlyL_mk (by assumption)
  · split
    · exact onlyL_mk (by assumption)
    · extract_lets -merge -underBinder +onlyGivenNames x1 x2 x3
      clear_value x1 x2
      have hx3 : OnlyIn m s0 x3 := by
        subst x3
        refine State.each_only ?_ (fun _ _ _ => ?_)
        · assumption
        · exact State.updTask_only hm.sub (by assumption)
      clear_value x3
      refine onlyL_mk ?_
      refine State.each_only ?_ (fun _ _ _ => ?_)
      · assumption
      · exact State.updTask_only hm.sub (by assumption)

theorem State.readyLoop_only {s0 : State} {a0 a1} {s3 : State}
    (hm : Within [.regs, .mem, .tn, .die, .stream, .kv, .mt, .bond, .line, .plumb, .power, .test, .sdio] m) (hs3 : OnlyIn m s0 s3) :
    OnlyIn m s0 (State.readyLoop a0 a1 s3) := by
  unfold State.readyLoop
  split
  · assumption
  · assumption
  · split
    · exact State.readyLoop_only hm.sub (by assumption)
    · split
      · exact State.readyLoop_only hm.sub (by assumption)
      · refine only_ite ?_ ?_
        · exact State.readyLoop_only hm.sub (by assumption)
        · extract_lets -merge -underBinder +onlyGivenNames x1
          clear_value x1
          split
          · refine OnlyInL.of_eq (m := m) (a := s0) (by assumption) ?_ (fun _ => ?_)
            · refine onlyL_ite ?_ ?_
              · exact onlyL_mk (by assumption)
              · exact State.eccRead_only hm.sub (by assumption)
            extract_lets -merge -underBinder +onlyGivenNames x2
            clear_value x2
            refine only_ite ?_ ?_
            · extract_lets -merge -underBinder +onlyGivenNames x3 x4
              clear_value x3
              have hx4 : OnlyIn m s0 x4 := by
                subst x4
                exact State.tally_only hm.sub (State.updTask_only hm.sub (by assumption))
              clear_value x4
              extract_lets -merge -underBinder +onlyGivenNames x5
              have hx5 : OnlyIn m s0 x5 := by
                subst x5
                exact State.chunkDrop_only hm.sub (State.unrun_only hm.sub (by assumption))
              clear_value x5
              extract_lets -merge -underBinder +onlyGivenNames x6
              have hx6 : OnlyIn m s0 x6 := by
                subst x6
                refine only_ite ?_ ?_
                · assumption
                · exact State.updBond_only hm.sub (by assumption)
              clear_value x6
              split
              · refine OnlyInL.of_eq (m := m) (a := s0) (by assumption) ?_ (fun _ => ?_)
                · exact State.releaseSuccs_only hm.sub (by assumption)
                exact State.readyLoop_only hm.sub (State.graphCheck_only hm.sub (by assumption))
            · extract_lets -merge -underBinder +onlyGivenNames x7
              have hx7 : OnlyIn m s0 x7 := by
                subst x7
                exact State.updTask_only hm.sub (by assumption)
              clear_value x7
              exact State.readyLoop_only hm.sub (State.updBond_only hm.sub (by assumption))

theorem State.readyRun_only {s0 s1 : State} {a1}
    (hm : Within [.regs, .mem, .tn, .die, .stream, .kv, .mt, .bond, .line, .plumb, .power, .test, .sdio] m) (hs1 : OnlyIn m s0 s1) :
    OnlyIn m s0 (State.readyRun s1 a1) := by
  unfold State.readyRun
  exact State.readyLoop_only hm.sub (by assumption)

theorem State.readyAll_only {s0 s1 : State}
    (hm : Within [.regs, .mem, .tn, .die, .stream, .kv, .mt, .bond, .line, .plumb, .power, .test, .sdio] m) (hs1 : OnlyIn m s0 s1) :
    OnlyIn m s0 (State.readyAll s1) := by
  unfold State.readyAll
  exact State.readyRun_only hm.sub (by assumption)

theorem State.instanceDone_only {s0 s1 : State} {a1 a2 a3}
    (hm : Within [.regs, .mem, .tn, .die, .stream, .kv, .mt, .bond, .line, .plumb, .power, .test, .sdio] m) (hs1 : OnlyIn m s0 s1) :
    OnlyIn m s0 (State.instanceDone s1 a1 a2 a3) := by
  unfold State.instanceDone
  extract_lets -merge -underBinder +onlyGivenNames x1
  have hx1 : OnlyIn m s0 x1 := by
    subst x1
    exact State.updTask_only hm.sub (State.tally_only hm.sub (by assumption))
  clear_value x1
  split
  · assumption
  · split
    · assumption
    · refine only_ite ?_ ?_
      · assumption
      · split
        · refine OnlyInL.of_eq (m := m) (a := s0) (by assumption) ?_ (fun _ => ?_)
          · exact State.releaseSuccs_only hm.sub (by assumption)
          exact State.streamSettle_only hm.sub (State.graphCheck_only hm.sub (State.readyRun_only hm.sub (by assumption)))

theorem State.graphWatch_only {s0 s1 : State} {a1}
    (hm : Within [.regs, .mem, .tn, .die, .stream, .kv, .mt, .bond, .line, .plumb, .test, .sdio] m) (hs1 : OnlyIn m s0 s1) :
    OnlyIn m s0 (State.graphWatch s1 a1) := by
  unfold State.graphWatch
  refine only_ite ?_ ?_
  · exact State.watchRef_only hm.sub (by assumption)
  · assumption

theorem State.lookDrop_only {s0 s1 : State} {a1}
    (hm : Within [.regs, .mem, .tn, .die, .stream, .kv, .mt, .bond, .line, .plumb, .power, .test, .sdio] m) (hs1 : OnlyIn m s0 s1) :
    OnlyIn m s0 (State.lookDrop s1 a1) := by
  unfold State.lookDrop
  extract_lets -merge -underBinder +onlyGivenNames x1 x2
  clear_value x1
  have hx2 : OnlyIn m s0 x2 := by
    subst x2
    exact State.updBond_only hm.sub (by assumption)
  clear_value x2
  refine State.readyAll_only hm.sub ?_
  refine State.each_only ?_ (fun _ _ _ => ?_)
  · assumption
  · exact State.graphWatch_only hm.sub (by assumption)

theorem State.lookSettle_only {s0 s1 : State}
    (hm : Within [.regs, .mem, .tn, .die, .stream, .kv, .mt, .bond, .line, .plumb, .power, .test, .sdio] m) (hs1 : OnlyIn m s0 s1) :
    OnlyIn m s0 (State.lookSettle s1) := by
  unfold State.lookSettle
  exact State.lookDrop_only hm.sub (by assumption)

theorem State.lookRelease_only {s0 s1 : State} {a1 a2}
    (hm : Within [.regs, .mem, .tn, .die, .stream, .kv, .mt, .bond, .line, .plumb, .power, .test, .sdio] m) (hs1 : OnlyIn m s0 s1) :
    OnlyIn m s0 (State.lookRelease s1 a1 a2) := by
  unfold State.lookRelease
  exact State.lookDrop_only hm.sub (by assumption)

theorem State.enqueueChunks_only {s0 s1 : State} {a1}
    (hm : Within [.regs, .mem, .tn, .die, .stream, .kv, .mt, .bond, .line, .plumb, .power, .test, .sdio] m) (hs1 : OnlyIn m s0 s1) :
    OnlyIn m s0 (State.enqueueChunks s1 a1) := by
  unfold State.enqueueChunks
  refine State.each_only ?_ (fun _ _ _ => ?_)
  · assumption
  · split
    · split
      · assumption
      · extract_lets -merge -underBinder +onlyGivenNames x1
        clear_value x1
        refine only_ite ?_ ?_
        · extract_lets -merge -underBinder +onlyGivenNames x2
          have hx2 : OnlyIn m s0 x2 := by
            subst x2
            exact State.chunkLost_only hm.sub (State.raise_only hm.sub (by assumption))
          clear_value x2
          exact State.instanceDone_only hm.sub (State.updTask_only hm.sub (State.unrun_only hm.sub (by assumption)))
        · exact State.swapRequest_only hm.sub (State.ctxSetQueue_only hm.sub (by assumption))

theorem State.addGraph_only {s0 s1 : State} {a1 a2 a3 a4 a5 a6 a7 a8 a9} (hm : Within [.bond] m) (hs1 : OnlyIn m s0 s1) :
    OnlyIn m s0 (State.addGraph s1 a1 a2 a3 a4 a5 a6 a7 a8 a9) := by
  unfold State.addGraph
  extract_lets -merge -underBinder +onlyGivenNames x1 x2 x3 x4
  clear_value x1 x2 x3 x4
  exact State.updBond_only hm.sub (by assumption)

theorem State.startGraph_only {s0 s1 : State} {a1}
    (hm : Within [.regs, .mem, .tn, .die, .stream, .kv, .mt, .bond, .line, .plumb, .power, .test, .sdio] m) (hs1 : OnlyIn m s0 s1) :
    OnlyIn m s0 (State.startGraph s1 a1) := by
  unfold State.startGraph
  split
  · assumption
  · extract_lets -merge -underBinder +onlyGivenNames x1
    have hx1 : OnlyIn m s0 x1 := by
      subst x1
      exact State.graphWatch_only hm.sub (by assumption)
    clear_value x1
    extract_lets -merge -underBinder +onlyGivenNames x2
    have hx2 : OnlyIn m s0 x2 := by
      subst x2
      refine only_ite ?_ ?_
      · exact State.updAccount_only hm.sub (by assumption)
      · assumption
    clear_value x2
    extract_lets -merge -underBinder +onlyGivenNames x3
    have hx3 : OnlyIn m s0 x3 := by
      subst x3
      exact State.lookSettle_only hm.sub (State.enqueueChunks_only hm.sub (by assumption))
    clear_value x3
    extract_lets -merge -underBinder +onlyGivenNames x4
    have hx4 : OnlyIn m s0 x4 := by
      subst x4
      exact State.readyRun_only hm.sub (by assumption)
    clear_value x4
    exact State.graphCheck_only hm.sub (State.streamSettle_only hm.sub (by assumption))

theorem State.enterGraph_only {s0 s1 : State} {a1 a2 a3 a4 a5 a6 a7 a8 a9}
    (hm : Within [.regs, .mem, .tn, .die, .stream, .kv, .mt, .bond, .line, .plumb, .power, .test, .sdio] m) (hs1 : OnlyIn m s0 s1) :
    OnlyIn m s0 (State.enterGraph s1 a1 a2 a3 a4 a5 a6 a7 a8 a9) := by
  unfold State.enterGraph
  exact State.startGraph_only hm.sub (State.addGraph_only hm.sub (by assumption))

theorem State.releaseGraph_only {s0 s1 : State} {a1 a2}
    (hm : Within [.regs, .mem, .tn, .die, .stream, .kv, .mt, .bond, .line, .plumb, .power, .test, .sdio] m) (hs1 : OnlyIn m s0 s1) :
    OnlyIn m s0 (State.releaseGraph s1 a1 a2) := by
  unfold State.releaseGraph
  extract_lets -merge -underBinder +onlyGivenNames x1 x2
  clear_value x1
  have hx2 : OnlyIn m s0 x2 := by
    subst x2
    exact State.lookRelease_only hm.sub (by assumption)
  clear_value x2
  refine only_ite ?_ ?_
  · assumption
  · split
    · exact State.coverTile_only hm.sub (by assumption)
    · split
      · extract_lets -merge -underBinder +onlyGivenNames x3
        clear_value x3
        split
        · exact State.coverTile_only hm.sub (by assumption)
        · split
          · exact State.coverTile_only hm.sub (by assumption)
          · extract_lets -merge -underBinder +onlyGivenNames x4
            clear_value x4
            refine only_ite ?_ ?_
            · exact State.coverTile_only hm.sub (by assumption)
            · extract_lets -merge -underBinder +onlyGivenNames x5
              clear_value x5
              refine only_ite ?_ ?_
              · extract_lets -merge -underBinder +onlyGivenNames x6
                have hx6 : OnlyIn m s0 x6 := by
                  subst x6
                  exact State.coverTile_only hm.sub (State.raise_only hm.sub (State.bump_only hm.sub (by assumption)))
                clear_value x6
                refine State.each_only ?_ (fun _ _ _ => ?_)
                · assumption
                · split
                  · exact State.chunkLost_only hm.sub (by assumption)
                  · assumption
              · exact State.enterGraph_only hm.sub (by assumption)
      · assumption

end Sys2Proof.Machine
end

