-- ==== Sys2Proof/Laws/OnlyCourse.lean ====
section
/-! SUPPORT. What the operations of Machine/Course.lean may change (Laws/Only.lean). -/
namespace Sys2Proof.Machine
set_option Elab.async false

variable {m : List Block}

theorem State.countEdge_only {s0 s1 : State} {a1 a2} (hm : Within [.regs, .course, .tn, .sdio] m) (hs1 : OnlyIn m s0 s1) :
    OnlyIn m s0 (State.countEdge s1 a1 a2) := by
  unfold State.countEdge
  extract_lets -merge -underBinder +onlyGivenNames x1 x2 x3 x4 x5 x6 x7
  clear_value x1 x2 x3 x4 x5 x6
  have hx7 : OnlyIn m s0 x7 := by
    subst x7
    exact State.updEnc_only hm.sub (by assumption)
  clear_value x7
  extract_lets -merge -underBinder +onlyGivenNames x8
  have hx8 : OnlyIn m s0 x8 := by
    subst x8
    exact State.updCourse_only hm.sub (by assumption)
  clear_value x8
  extract_lets -merge -underBinder +onlyGivenNames x9 x10 x11 x12
  clear_value x9
  have hx10 : OnlyIn m s0 x10 := by
    subst x10
    exact State.updCourse_only hm.sub (by assumption)
  clear_value x10
  have hx11 : OnlyIn m s0 x11 := by
    subst x11
    exact State.spMoved_only hm.sub (by assumption)
  clear_value x11
  have hx12 : OnlyIn m s0 x12 := by
    subst x12
    refine only_ite ?_ ?_
    · refine only_ite ?_ ?_
      · exact State.raise_only hm.sub (by assumption)
      · assumption
    · assumption
  clear_value x12
  extract_lets -merge -underBinder +onlyGivenNames x13
  have hx13 : OnlyIn m s0 x13 := by
    subst x13
    refine only_ite ?_ ?_
    · exact State.encError_only hm.sub (by assumption)
    · assumption
  clear_value x13
  exact State.xcheck_only hm.sub (by assumption)

theorem State.encLevels_only {s0 s1 : State} {a1 a2 a3} (hm : Within [.course] m) (hs1 : OnlyIn m s0 s1) :
    OnlyIn m s0 (State.encLevels s1 a1 a2 a3) := by
  unfold State.encLevels
  exact State.updEnc_only hm.sub (by assumption)

theorem execEncoderEdge_only {s0 : State} {a0 a1 a2 a3} (hm : Within [.regs, .fresh, .course, .tn, .sdio] m) :
    OnlyInN m (State.to s0 a0) (execEncoderEdge a0 a1 a2 a3 s0) := by
  unfold execEncoderEdge
  extract_lets -merge -underBinder +onlyGivenNames x1
  have hx1 : OnlyIn m (State.to s0 a0) x1 := by
    subst x1
    exact OnlyIn.refl _ _
  clear_value x1
  extract_lets -merge -underBinder +onlyGivenNames x2 x3 x4 x5 x6 x7
  clear_value x2 x3 x4 x5 x6
  have hx7 : OnlyIn m (State.to s0 a0) x7 := by
    subst x7
    exact State.encLevels_only hm.sub (by assumption)
  clear_value x7
  refine onlyN_next ?_
  refine only_ite ?_ ?_
  · assumption
  · refine only_ite ?_ ?_
    · exact State.encError_only hm.sub (by assumption)
    · refine only_ite ?_ ?_
      · assumption
      · split
        · assumption
        · refine only_ite ?_ ?_
          · exact State.countEdge_only hm.sub (State.drew_only hm.sub (by assumption))
          · exact State.countEdge_only hm.sub (by assumption)

theorem execLos_only {s0 : State} {a0 a1} (hm : Within [.regs, .course, .tn, .sdio] m) :
    OnlyInN m (State.to s0 a0) (execLos a0 a1 s0) := by
  unfold execLos
  extract_lets -merge -underBinder +onlyGivenNames x1
  have hx1 : OnlyIn m (State.to s0 a0) x1 := by
    subst x1
    refine State.updEnc_only hm.sub ?_
    exact OnlyIn.refl _ _
  clear_value x1
  refine onlyN_next ?_
  refine only_ite ?_ ?_
  · exact State.encFault_only hm.sub (State.bump_only hm.sub (by assumption))
  · assumption

theorem execLosEnd_only {s0 : State} {a0 a1} (hm : Within [.course] m) :
    OnlyInN m (State.to s0 a0) (execLosEnd a0 a1 s0) := by
  unfold execLosEnd
  refine onlyN_next ?_
  refine State.updEnc_only hm.sub ?_
  exact OnlyIn.refl _ _

theorem execPositionLost_only {s0 : State} {a0} (hm : Within [.regs, .course, .tn, .sdio] m) :
    OnlyInN m (State.to s0 a0) (execPositionLost a0 s0) := by
  unfold execPositionLost
  extract_lets -merge -underBinder +onlyGivenNames x1
  have hx1 : OnlyIn m (State.to s0 a0) x1 := by
    subst x1
    exact OnlyIn.refl _ _
  clear_value x1
  split
  · refine onlyN_next ?_
    refine only_ite ?_ ?_
    · extract_lets -merge -underBinder +onlyGivenNames x2
      have hx2 : OnlyIn m (State.to s0 a0) x2 := by
        subst x2
        exact State.updCourse_only hm.sub (by assumption)
      clear_value x2
      exact State.raise_only hm.sub (State.raise_only hm.sub (by assumption))
    · assumption
  · exact onlyN_next (by assumption)

theorem execSpeedEstimate_only {s0 : State} {a0} (hm : Within [.course] m) :
    OnlyInN m (State.to s0 a0) (execSpeedEstimate a0 s0) := by
  unfold execSpeedEstimate
  extract_lets -merge -underBinder +onlyGivenNames x1
  have hx1 : OnlyIn m (State.to s0 a0) x1 := by
    subst x1
    exact OnlyIn.refl _ _
  clear_value x1
  refine onlyN_ite ?_ ?_
  · exact onlyN_next (by assumption)
  · extract_lets -merge -underBinder +onlyGivenNames x2
    have hx2 : OnlyIn m (State.to s0 a0) x2 := by
      subst x2
      exact State.updCourse_only hm.sub (by assumption)
    clear_value x2
    exact onlyN_next (State.updCourse_only hm.sub (by assumption))

theorem execZeroSpeed_only {s0 : State} {a0} (hm : Within [.regs, .course, .tn, .sdio] m) :
    OnlyInN m (State.to s0 a0) (execZeroSpeed a0 s0) := by
  unfold execZeroSpeed
  extract_lets -merge -underBinder +onlyGivenNames x1
  have hx1 : OnlyIn m (State.to s0 a0) x1 := by
    subst x1
    exact OnlyIn.refl _ _
  clear_value x1
  extract_lets -merge -underBinder +onlyGivenNames x2
  clear_value x2
  refine guardNext_only ?_ (fun _ _ => ?_)
  · assumption
  · exact State.raise_only hm.sub (State.updCourse_only hm.sub (by assumption))

theorem State.setCrs_only {s0 s1 : State} {a1 a2 a3} (hm : Within [.regs, .course, .plumb] m) (hs1 : OnlyIn m s0 s1) :
    OnlyIn m s0 (State.setCrs s1 a1 a2 a3) := by
  unfold State.setCrs
  extract_lets -merge -underBinder +onlyGivenNames x1
  clear_value x1
  refine only_ite ?_ ?_
  · exact State.updCrs_only hm.sub (State.bump_only hm.sub (by assumption))
  · extract_lets -merge -underBinder +onlyGivenNames x2
    have hx2 : OnlyIn m s0 x2 := by
      subst x2
      exact State.updCrs_only hm.sub (by assumption)
    clear_value x2
    extract_lets -merge -underBinder +onlyGivenNames x3
    have hx3 : OnlyIn m s0 x3 := by
      subst x3
      refine only_ite ?_ ?_
      · exact State.updPlumb_only hm.sub (by assumption)
      · assumption
    clear_value x3
    refine only_ite ?_ ?_
    · assumption
    · exact State.drive_only hm.sub (by assumption)

theorem State.strobe_only {s0 s1 : State} {a1} (hm : Within [.regs, .course, .plumb] m) (hs1 : OnlyIn m s0 s1) :
    OnlyIn m s0 (State.strobe s1 a1) := by
  unfold State.strobe
  extract_lets -merge -underBinder +onlyGivenNames x1 x2 x3 x4
  clear_value x1 x2 x3 x4
  refine only_ite ?_ ?_
  · assumption
  · exact State.setCrs_only hm.sub (by assumption)

theorem State.lgReset_only {s0 s1 : State} {a1} (hm : Within [.course] m) (hs1 : OnlyIn m s0 s1) :
    OnlyIn m s0 (State.lgReset s1 a1) := by
  unfold State.lgReset
  refine State.each_only ?_ (fun _ _ _ => ?_)
  · exact State.updLg_only hm.sub (by assumption)
  · exact State.updCrs_only hm.sub (by assumption)

theorem execStrobeStart_only {s0 : State} {a0 a1} (hm : Within [.regs, .course, .plumb] m) :
    OnlyInN m (State.to s0 a0) (execStrobeStart a0 a1 s0) := by
  unfold execStrobeStart
  extract_lets -merge -underBinder +onlyGivenNames x1
  have hx1 : OnlyIn m (State.to s0 a0) x1 := by
    subst x1
    exact OnlyIn.refl _ _
  clear_value x1
  extract_lets -merge -underBinder +onlyGivenNames x2 x3
  clear_value x2 x3
  refine onlyN_ite ?_ ?_
  · exact onlyN_next (by assumption)
  · refine onlyN_ite ?_ ?_
    · split
      · refine onlyN_next ?_
        refine only_ite ?_ ?_
        · exact State.updCrs_only hm.sub (State.strobe_only hm.sub (by assumption))
        · assumption
      · exact onlyN_next (by assumption)
    · extract_lets -merge -underBinder +onlyGivenNames x4
      clear_value x4
      refine onlyN_next ?_
      refine only_ite ?_ ?_
      · exact State.updCrs_only hm.sub (State.strobe_only hm.sub (by assumption))
      · assumption

theorem State.crsEnd_only {s0 s1 : State} {a1} (hm : Within [.regs, .course, .plumb] m) (hs1 : OnlyIn m s0 s1) :
    OnlyIn m s0 (State.crsEnd s1 a1) := by
  unfold State.crsEnd
  split
  · refine only_ite ?_ ?_
    · exact State.setCrs_only hm.sub (by assumption)
    · assumption
  · assumption

theorem execStrobeEnd_only {s0 : State} {a0 a1} (hm : Within [.regs, .course, .plumb] m) :
    OnlyInN m (State.to s0 a0) (execStrobeEnd a0 a1 s0) := by
  unfold execStrobeEnd
  refine onlyN_next ?_
  refine State.crsEnd_only hm.sub ?_
  exact OnlyIn.refl _ _

theorem execPulseEnd_only {s0 : State} {a0 a1} (hm : Within [.regs, .course, .plumb] m) :
    OnlyInN m (State.to s0 a0) (execPulseEnd a0 a1 s0) := by
  unfold execPulseEnd
  refine onlyN_next ?_
  refine State.crsEnd_only hm.sub ?_
  exact OnlyIn.refl _ _

theorem State.progStop_only {s0 s1 : State} {a1} (hm : Within [.regs, .course] m) (hs1 : OnlyIn m s0 s1) :
    OnlyIn m s0 (State.progStop s1 a1) := by
  unfold State.progStop
  exact State.updProg_only hm.sub (State.setFld_only hm.sub (by assumption))

theorem State.progFault_only {s0 s1 : State} {a1} (hm : Within [.regs, .course, .tn, .sdio] m) (hs1 : OnlyIn m s0 s1) :
    OnlyIn m s0 (State.progFault s1 a1) := by
  unfold State.progFault
  exact State.raise_only hm.sub (State.setFld_only hm.sub (State.progStop_only hm.sub (by assumption)))

theorem State.progNext_only {s0 s1 : State} {a1} (hm : Within [.course] m) (hs1 : OnlyIn m s0 s1) :
    OnlyIn m s0 (State.progNext s1 a1) := by
  unfold State.progNext
  exact State.updProg_only hm.sub (by assumption)

theorem State.progJump_only {s0 s1 : State} {a1 a2} (hm : Within [.regs, .course, .tn, .sdio] m) (hs1 : OnlyIn m s0 s1) :
    OnlyIn m s0 (State.progJump s1 a1 a2) := by
  unfold State.progJump
  refine only_ite ?_ ?_
  · exact State.updProg_only hm.sub (by assumption)
  · exact State.progFault_only hm.sub (by assumption)

theorem State.progDone_only {s0 s1 : State} {a1 a2 a3} (hm : Within [.course] m) (hs1 : OnlyIn m s0 s1) :
    OnlyIn m s0 (State.progDone s1 a1 a2 a3) := by
  unfold State.progDone
  extract_lets -merge -underBinder +onlyGivenNames x1
  have hx1 : OnlyIn m s0 x1 := by
    subst x1
    split
    · exact State.updCourse_only hm.sub (by assumption)
    · assumption
  clear_value x1
  exact State.updProg_only hm.sub (State.progNext_only hm.sub (State.updProg_only hm.sub (by assumption)))

theorem State.waitDone_only {s0 s1 : State} {a1 a2} (hm : Within [.course] m) (hs1 : OnlyIn m s0 s1) :
    OnlyIn m s0 (State.waitDone s1 a1 a2) := by
  unfold State.waitDone
  exact State.progDone_only hm.sub (by assumption)

theorem State.progWait_only {s0 s1 : State} {a1 a2} (hm : Within [.course] m) (hs1 : OnlyIn m s0 s1) :
    OnlyIn m s0 (State.progWait s1 a1 a2) := by
  unfold State.progWait
  refine only_ite ?_ ?_
  · exact State.progDone_only hm.sub (by assumption)
  · exact State.updProg_only hm.sub (by assumption)

theorem State.progOut_only {s0 s1 : State} {a1 a2 a3 a4}
    (hm : Within [.regs, .course, .tn, .sdio] m) (hs1 : OnlyIn m s0 s1) (ha4 : ∀ y0, OnlyIn m s0 y0 → OnlyIn m s0 (a4 y0)) :
    OnlyIn m s0 (State.progOut s1 a1 a2 a3 a4) := by
  unfold State.progOut
  refine only_ite ?_ ?_
  · exact State.progFault_only hm.sub (by assumption)
  · extract_lets -merge -underBinder +onlyGivenNames x1 x2
    clear_value x1 x2
    refine State.progNext_only hm.sub ?_
    refine only_ite ?_ ?_
    · refine ha4 _ ?_
      assumption
    · exact State.raise_only hm.sub (by assumption)

theorem State.doAnchor_only {s0 s1 : State} {a1} (hm : Within [.course] m) (hs1 : OnlyIn m s0 s1) :
    OnlyIn m s0 (State.doAnchor s1 a1) := by
  unfold State.doAnchor
  exact State.progNext_only hm.sub (State.updProg_only hm.sub (by assumption))

theorem State.doWaitSpGe_only {s0 s1 : State} {a1 a2} (hm : Within [.course] m) (hs1 : OnlyIn m s0 s1) :
    OnlyIn m s0 (State.doWaitSpGe s1 a1 a2) := by
  unfold State.doWaitSpGe
  exact State.progWait_only hm.sub (by assumption)

theorem State.doWaitSpLe_only {s0 s1 : State} {a1 a2} (hm : Within [.course] m) (hs1 : OnlyIn m s0 s1) :
    OnlyIn m s0 (State.doWaitSpLe s1 a1 a2) := by
  unfold State.doWaitSpLe
  exact State.progWait_only hm.sub (by assumption)

theorem State.doWaitDsp_only {s0 s1 : State} {a1 a2} (hm : Within [.course] m) (hs1 : OnlyIn m s0 s1) :
    OnlyIn m s0 (State.doWaitDsp s1 a1 a2) := by
  unfold State.doWaitDsp
  exact State.progWait_only hm.sub (State.updProg_only hm.sub (by assumption))

theorem State.doWaitT_only {s0 s1 : State} {a1 a2} (hm : Within [.course] m) (hs1 : OnlyIn m s0 s1) :
    OnlyIn m s0 (State.doWaitT s1 a1 a2) := by
  unfold State.doWaitT
  exact State.progWait_only hm.sub (by assumption)

theorem State.doWaitLine_only {s0 s1 : State} {a1 a2 a3 a4} (hm : Within [.course] m) (hs1 : OnlyIn m s0 s1) :
    OnlyIn m s0 (State.doWaitLine s1 a1 a2 a3 a4) := by
  unfold State.doWaitLine
  exact State.progWait_only hm.sub (by assumption)

theorem State.doWaitSig_only {s0 s1 : State} {a1 a2} (hm : Within [.course] m) (hs1 : OnlyIn m s0 s1) :
    OnlyIn m s0 (State.doWaitSig s1 a1 a2) := by
  unfold State.doWaitSig
  exact State.progWait_only hm.sub (by assumption)

theorem State.doSignal_only {s0 s1 : State} {a1 a2} (hm : Within [.course] m) (hs1 : OnlyIn m s0 s1) :
    OnlyIn m s0 (State.doSignal s1 a1 a2) := by
  unfold State.doSignal
  exact State.progNext_only hm.sub (State.updCourse_only hm.sub (by assumption))

theorem State.doOutSet_only {s0 s1 : State} {a1 a2}
    (hm : Within [.regs, .course, .tn, .plumb, .sdio] m) (hs1 : OnlyIn m s0 s1) :
    OnlyIn m s0 (State.doOutSet s1 a1 a2) := by
  unfold State.doOutSet
  refine State.progOut_only hm.sub ?_ (fun _ _ => ?_)
  · assumption
  · exact State.setCrs_only hm.sub (by assumption)

theorem State.doOutClr_only {s0 s1 : State} {a1 a2}
    (hm : Within [.regs, .course, .tn, .plumb, .sdio] m) (hs1 : OnlyIn m s0 s1) :
    OnlyIn m s0 (State.doOutClr s1 a1 a2) := by
  unfold State.doOutClr
  refine State.progOut_only hm.sub ?_ (fun _ _ => ?_)
  · assumption
  · exact State.setCrs_only hm.sub (by assumption)

theorem State.doOutPulse_only {s0 s1 : State} {a1 a2 a3}
    (hm : Within [.regs, .course, .tn, .plumb, .sdio] m) (hs1 : OnlyIn m s0 s1) :
    OnlyIn m s0 (State.doOutPulse s1 a1 a2 a3) := by
  unfold State.doOutPulse
  refine State.progOut_only hm.sub ?_ (fun _ _ => ?_)
  · assumption
  · exact State.setCrs_only hm.sub (by assumption)

theorem State.doLgOn_only {s0 s1 : State} {a1 a2} (hm : Within [.regs, .course, .tn, .sdio] m) (hs1 : OnlyIn m s0 s1) :
    OnlyIn m s0 (State.doLgOn s1 a1 a2) := by
  unfold State.doLgOn
  refine only_ite ?_ ?_
  · exact State.progFault_only hm.sub (by assumption)
  · exact State.progNext_only hm.sub (State.setFld_only hm.sub (by assumption))

theorem State.doLgOff_only {s0 s1 : State} {a1 a2} (hm : Within [.regs, .course, .tn, .sdio] m) (hs1 : OnlyIn m s0 s1) :
    OnlyIn m s0 (State.doLgOff s1 a1 a2) := by
  unfold State.doLgOff
  refine only_ite ?_ ?_
  · exact State.progFault_only hm.sub (by assumption)
  · exact State.progNext_only hm.sub (State.lgReset_only hm.sub (State.setFld_only hm.sub (by assumption)))

theorem State.doMark_only {s0 s1 : State} {a1 a2}
    (hm : Within [.regs, .mem, .course, .tn, .die, .stream, .kv, .mt, .bond, .line, .plumb, .power, .test, .sdio] m) (hs1 : OnlyIn m s0 s1) :
    OnlyIn m s0 (State.doMark s1 a1 a2) := by
  unfold State.doMark
  exact State.progNext_only hm.sub (State.lookSettle_only hm.sub (State.positionMark_only hm.sub (by assumption)))

theorem State.doSetc_only {s0 s1 : State} {a1 a2 a3} (hm : Within [.course] m) (hs1 : OnlyIn m s0 s1) :
    OnlyIn m s0 (State.doSetc s1 a1 a2 a3) := by
  unfold State.doSetc
  exact State.progNext_only hm.sub (State.updProg_only hm.sub (by assumption))

theorem State.doDjnz_only {s0 s1 : State} {a1 a2 a3} (hm : Within [.regs, .course, .tn, .sdio] m) (hs1 : OnlyIn m s0 s1) :
    OnlyIn m s0 (State.doDjnz s1 a1 a2 a3) := by
  unfold State.doDjnz
  extract_lets -merge -underBinder +onlyGivenNames x1 x2
  clear_value x1
  have hx2 : OnlyIn m s0 x2 := by
    subst x2
    exact State.updProg_only hm.sub (by assumption)
  clear_value x2
  refine only_ite ?_ ?_
  · exact State.progNext_only hm.sub (by assumption)
  · exact State.progJump_only hm.sub (by assumption)

theorem State.doIfSlow_only {s0 s1 : State} {a1 a2 a3} (hm : Within [.regs, .course, .tn, .sdio] m) (hs1 : OnlyIn m s0 s1) :
    OnlyIn m s0 (State.doIfSlow s1 a1 a2 a3) := by
  unfold State.doIfSlow
  refine only_ite ?_ ?_
  · exact State.progJump_only hm.sub (by assumption)
  · exact State.progNext_only hm.sub (by assumption)

theorem State.doIfRev_only {s0 s1 : State} {a1 a2} (hm : Within [.regs, .course, .tn, .sdio] m) (hs1 : OnlyIn m s0 s1) :
    OnlyIn m s0 (State.doIfRev s1 a1 a2) := by
  unfold State.doIfRev
  refine only_ite ?_ ?_
  · exact State.progJump_only hm.sub (by assumption)
  · exact State.progNext_only hm.sub (by assumption)

theorem progRow_only {s0 : State} {a0 a1 a2 a4}
    (_hm : Within [] m) (ha4 : ∀ y0, OnlyIn m (State.to s0 a0) y0 → OnlyIn m (State.to s0 a0) (a4 y0)) :
    OnlyInN m (State.to s0 a0) (progRow a0 a1 a2 s0 a4) := by
  unfold progRow
  extract_lets -merge -underBinder +onlyGivenNames x1
  have hx1 : OnlyIn m (State.to s0 a0) x1 := by
    subst x1
    exact OnlyIn.refl _ _
  clear_value x1
  refine guardNext_only ?_ (fun _ _ => ?_)
  · assumption
  · refine ha4 _ ?_
    assumption

theorem execHalt_only {s0 : State} {a0 a1} (hm : Within [.regs, .course] m) :
    OnlyInN m (State.to s0 a0) (execHalt a0 a1 s0) := by
  unfold execHalt
  refine progRow_only hm.sub (fun _ _ => ?_)
  exact State.progStop_only hm.sub (by assumption)

theorem execAnchor_only {s0 : State} {a0 a1} (hm : Within [.course] m) :
    OnlyInN m (State.to s0 a0) (execAnchor a0 a1 s0) := by
  unfold execAnchor
  refine progRow_only hm.sub (fun _ _ => ?_)
  exact State.doAnchor_only hm.sub (by assumption)

theorem execWaitSpGe_only {s0 : State} {a0 a1 a2} (hm : Within [.course] m) :
    OnlyInN m (State.to s0 a0) (execWaitSpGe a0 a1 a2 s0) := by
  unfold execWaitSpGe
  refine progRow_only hm.sub (fun _ _ => ?_)
  exact State.doWaitSpGe_only hm.sub (by assumption)

theorem execWaitSpLe_only {s0 : State} {a0 a1 a2} (hm : Within [.course] m) :
    OnlyInN m (State.to s0 a0) (execWaitSpLe a0 a1 a2 s0) := by
  unfold execWaitSpLe
  refine progRow_only hm.sub (fun _ _ => ?_)
  exact State.doWaitSpLe_only hm.sub (by assumption)

theorem execWaitDsp_only {s0 : State} {a0 a1 a2} (hm : Within [.course] m) :
    OnlyInN m (State.to s0 a0) (execWaitDsp a0 a1 a2 s0) := by
  unfold execWaitDsp
  refine progRow_only hm.sub (fun _ _ => ?_)
  exact State.doWaitDsp_only hm.sub (by assumption)

theorem execWaitT_only {s0 : State} {a0 a1 a2} (hm : Within [.course] m) :
    OnlyInN m (State.to s0 a0) (execWaitT a0 a1 a2 s0) := by
  unfold execWaitT
  refine progRow_only hm.sub (fun _ _ => ?_)
  exact State.doWaitT_only hm.sub (by assumption)

theorem execWaitLine_only {s0 : State} {a0 a1 a2 a3 a4} (hm : Within [.course] m) :
    OnlyInN m (State.to s0 a0) (execWaitLine a0 a1 a2 a3 a4 s0) := by
  unfold execWaitLine
  refine progRow_only hm.sub (fun _ _ => ?_)
  exact State.doWaitLine_only hm.sub (by assumption)

theorem execWaitSig_only {s0 : State} {a0 a1 a2} (hm : Within [.course] m) :
    OnlyInN m (State.to s0 a0) (execWaitSig a0 a1 a2 s0) := by
  unfold execWaitSig
  refine progRow_only hm.sub (fun _ _ => ?_)
  exact State.doWaitSig_only hm.sub (by assumption)

theorem execSignal_only {s0 : State} {a0 a1 a2} (hm : Within [.course] m) :
    OnlyInN m (State.to s0 a0) (execSignal a0 a1 a2 s0) := by
  unfold execSignal
  refine progRow_only hm.sub (fun _ _ => ?_)
  exact State.doSignal_only hm.sub (by assumption)

theorem execOutSet_only {s0 : State} {a0 a1 a2} (hm : Within [.regs, .course, .tn, .plumb, .sdio] m) :
    OnlyInN m (State.to s0 a0) (execOutSet a0 a1 a2 s0) := by
  unfold execOutSet
  refine progRow_only hm.sub (fun _ _ => ?_)
  exact State.doOutSet_only hm.sub (by assumption)

theorem execOutClr_only {s0 : State} {a0 a1 a2} (hm : Within [.regs, .course, .tn, .plumb, .sdio] m) :
    OnlyInN m (State.to s0 a0) (execOutClr a0 a1 a2 s0) := by
  unfold execOutClr
  refine progRow_only hm.sub (fun _ _ => ?_)
  exact State.doOutClr_only hm.sub (by assumption)

theorem execOutPulse_only {s0 : State} {a0 a1 a2 a3} (hm : Within [.regs, .course, .tn, .plumb, .sdio] m) :
    OnlyInN m (State.to s0 a0) (execOutPulse a0 a1 a2 a3 s0) := by
  unfold execOutPulse
  refine progRow_only hm.sub (fun _ _ => ?_)
  exact State.doOutPulse_only hm.sub (by assumption)

theorem execLgOn_only {s0 : State} {a0 a1 a2} (hm : Within [.regs, .course, .tn, .sdio] m) :
    OnlyInN m (State.to s0 a0) (execLgOn a0 a1 a2 s0) := by
  unfold execLgOn
  refine progRow_only hm.sub (fun _ _ => ?_)
  exact State.doLgOn_only hm.sub (by assumption)

theorem execLgOff_only {s0 : State} {a0 a1 a2} (hm : Within [.regs, .course, .tn, .sdio] m) :
    OnlyInN m (State.to s0 a0) (execLgOff a0 a1 a2 s0) := by
  unfold execLgOff
  refine progRow_only hm.sub (fun _ _ => ?_)
  exact State.doLgOff_only hm.sub (by assumption)

theorem execMark_only {s0 : State} {a0 a1 a2}
    (hm : Within [.regs, .mem, .course, .tn, .die, .stream, .kv, .mt, .bond, .line, .plumb, .power, .test, .sdio] m) :
    OnlyInN m (State.to s0 a0) (execMark a0 a1 a2 s0) := by
  unfold execMark
  refine progRow_only hm.sub (fun _ _ => ?_)
  exact State.doMark_only hm.sub (by assumption)

theorem execSetc_only {s0 : State} {a0 a1 a2 a3} (hm : Within [.course] m) :
    OnlyInN m (State.to s0 a0) (execSetc a0 a1 a2 a3 s0) := by
  unfold execSetc
  refine progRow_only hm.sub (fun _ _ => ?_)
  exact State.doSetc_only hm.sub (by assumption)

theorem execDjnz_only {s0 : State} {a0 a1 a2 a3} (hm : Within [.regs, .course, .tn, .sdio] m) :
    OnlyInN m (State.to s0 a0) (execDjnz a0 a1 a2 a3 s0) := by
  unfold execDjnz
  refine progRow_only hm.sub (fun _ _ => ?_)
  exact State.doDjnz_only hm.sub (by assumption)

theorem execJump_only {s0 : State} {a0 a1 a2} (hm : Within [.regs, .course, .tn, .sdio] m) :
    OnlyInN m (State.to s0 a0) (execJump a0 a1 a2 s0) := by
  unfold execJump
  refine progRow_only hm.sub (fun _ _ => ?_)
  exact State.progJump_only hm.sub (by assumption)

theorem execIfSlow_only {s0 : State} {a0 a1 a2 a3} (hm : Within [.regs, .course, .tn, .sdio] m) :
    OnlyInN m (State.to s0 a0) (execIfSlow a0 a1 a2 a3 s0) := by
  unfold execIfSlow
  refine progRow_only hm.sub (fun _ _ => ?_)
  exact State.doIfSlow_only hm.sub (by assumption)

theorem execIfRev_only {s0 : State} {a0 a1 a2} (hm : Within [.regs, .course, .tn, .sdio] m) :
    OnlyInN m (State.to s0 a0) (execIfRev a0 a1 a2 s0) := by
  unfold execIfRev
  refine progRow_only hm.sub (fun _ _ => ?_)
  exact State.doIfRev_only hm.sub (by assumption)

theorem execProgFault_only {s0 : State} {a0 a1} (hm : Within [.regs, .course, .tn, .sdio] m) :
    OnlyInN m (State.to s0 a0) (execProgFault a0 a1 s0) := by
  unfold execProgFault
  extract_lets -merge -underBinder +onlyGivenNames x1
  have hx1 : OnlyIn m (State.to s0 a0) x1 := by
    subst x1
    exact OnlyIn.refl _ _
  clear_value x1
  refine guardNext_only ?_ (fun _ _ => ?_)
  · assumption
  · exact State.progFault_only hm.sub (by assumption)

theorem execWaitCompletes_only {s0 : State} {a0 a1} (hm : Within [.course] m) :
    OnlyInN m (State.to s0 a0) (execWaitCompletes a0 a1 s0) := by
  unfold execWaitCompletes
  extract_lets -merge -underBinder +onlyGivenNames x1
  have hx1 : OnlyIn m (State.to s0 a0) x1 := by
    subst x1
    exact OnlyIn.refl _ _
  clear_value x1
  split
  · refine guardNext_only ?_ (fun _ _ => ?_)
    · assumption
    · exact State.waitDone_only hm.sub (by assumption)
  · exact onlyN_next (by assumption)

theorem execProgRunaway_only {s0 : State} {a0 a1} (hm : Within [.regs, .course, .tn, .sdio] m) :
    OnlyInN m (State.to s0 a0) (execProgRunaway a0 a1 s0) := by
  unfold execProgRunaway
  extract_lets -merge -underBinder +onlyGivenNames x1
  have hx1 : OnlyIn m (State.to s0 a0) x1 := by
    subst x1
    exact OnlyIn.refl _ _
  clear_value x1
  refine guardNext_only ?_ (fun _ _ => ?_)
  · assumption
  · exact State.progFault_only hm.sub (by assumption)

end Sys2Proof.Machine
end

