-- ==== Sys2Proof/Laws/OnlyAcq.lean ====
section
/-! SUPPORT. What the operations of Machine/Acq.lean may change (Laws/Only.lean). -/
namespace Sys2Proof.Machine
set_option Elab.async false

variable {m : List Block}

theorem State.discover_only {s0 s1 : State} {a1} (hm : Within [.regs, .tn, .acq, .sdio] m) (hs1 : OnlyIn m s0 s1) :
    OnlyIn m s0 (State.discover s1 a1) := by
  unfold State.discover
  refine only_ite ?_ ?_
  · exact State.raise_only hm.sub (State.updGrp_only hm.sub (by assumption))
  · exact State.updGrp_only hm.sub (by assumption)

theorem State.absentLine_only {s0 s1 : State} {a1 a2} (hm : Within [.acq] m) (hs1 : OnlyIn m s0 s1) :
    OnlyIn m s0 (State.absentLine s1 a1 a2) := by
  unfold State.absentLine
  extract_lets -merge -underBinder +onlyGivenNames x1
  clear_value x1
  split
  · assumption
  · refine only_ite ?_ ?_
    · assumption
    · extract_lets -merge -underBinder +onlyGivenNames x2
      clear_value x2
      exact State.updAcq_only hm.sub (by assumption)

theorem State.missing_only {s0 s1 : State} {a1 a2}
    (hm : Within [.regs, .mem, .tn, .acq, .die, .stream, .kv, .mt, .bond, .line, .plumb, .test, .sdio] m) (hs1 : OnlyIn m s0 s1) :
    OnlyIn m s0 (State.missing s1 a1 a2) := by
  unfold State.missing
  refine State.watchKick_only hm.sub ?_
  exact State.absentLine_only hm.sub (State.raise_only hm.sub (State.bumpHi_only hm.sub (by assumption)))

theorem State.retire_only {s0 s1 : State} {a1 a2}
    (hm : Within [.regs, .mem, .tn, .acq, .die, .stream, .kv, .mt, .bond, .line, .plumb, .test, .sdio] m) (hs1 : OnlyIn m s0 s1) :
    OnlyIn m s0 (State.retire s1 a1 a2) := by
  unfold State.retire
  extract_lets -merge -underBinder +onlyGivenNames x1
  clear_value x1
  refine State.each_only ?_ (fun _ _ _ => ?_)
  · exact State.updGrp_only hm.sub (by assumption)
  · exact State.missing_only hm.sub (by assumption)

theorem State.tilingWatch_only {s0 s1 : State} {a1 a2}
    (hm : Within [.regs, .mem, .tn, .acq, .die, .stream, .kv, .mt, .bond, .line, .plumb, .test, .sdio] m) (hs1 : OnlyIn m s0 s1) :
    OnlyIn m s0 (State.tilingWatch s1 a1 a2) := by
  unfold State.tilingWatch
  split
  · assumption
  · extract_lets -merge -underBinder +onlyGivenNames x1 x2 x3 x4 x5 x6
    clear_value x1 x2 x3 x4 x5
    have hx6 : OnlyIn m s0 x6 := by
      subst x6
      exact State.updAcq_only hm.sub (by assumption)
    clear_value x6
    split
    · refine only_ite ?_ ?_
      · assumption
      · extract_lets -merge -underBinder +onlyGivenNames x7 x8
        clear_value x7 x8
        refine State.each_only ?_ (fun _ _ _ => ?_)
        · assumption
        · refine State.each_only ?_ (fun _ _ _ => ?_)
          · assumption
          · exact State.watchRef_only hm.sub (by assumption)
    · assumption

theorem State.tileHeader_only {s0 s1 : State} {a1} (hm : Within [.mem, .mt] m) (hs1 : OnlyIn m s0 s1) :
    OnlyIn m s0 (State.tileHeader s1 a1) := by
  unfold State.tileHeader
  extract_lets -merge -underBinder +onlyGivenNames x1 x2 x3 x4 x5 x6
  clear_value x1 x2 x3 x4 x5 x6
  exact State.stBytes_only hm.sub (by assumption)

theorem State.fusionInstant_only {s0 s1 : State} {a1 a2} (hm : Within [.regs, .tn, .acq, .sdio] m) (hs1 : OnlyIn m s0 s1) :
    OnlyIn m s0 (State.fusionInstant s1 a1 a2) := by
  unfold State.fusionInstant
  extract_lets -merge -underBinder +onlyGivenNames x1 x2
  clear_value x1
  have hx2 : OnlyIn m s0 x2 := by
    subst x2
    exact State.updAcq_only hm.sub (by assumption)
  clear_value x2
  refine State.each_only ?_ (fun _ _ _ => ?_)
  · assumption
  · extract_lets -merge -underBinder +onlyGivenNames x3
    clear_value x3
    split
    · exact State.updSrc_only hm.sub (by assumption)
    · extract_lets -merge -underBinder +onlyGivenNames x4 x5
      clear_value x4
      have hx5 : OnlyIn m s0 x5 := by
        subst x5
        exact State.updSrc_only hm.sub (by assumption)
      clear_value x5
      refine only_ite ?_ ?_
      · exact State.raise_only hm.sub (by assumption)
      · refine only_ite ?_ ?_
        · exact State.raise_only hm.sub (by assumption)
        · assumption

theorem State.sideData_only {s0 s1 : State} {a1 a2} (hm : Within [.mem, .fresh, .mt] m) (hs1 : OnlyIn m s0 s1) :
    OnlyIn m s0 (State.sideData s1 a1 a2) := by
  unfold State.sideData
  extract_lets -merge -underBinder +onlyGivenNames x1 x2 x3 x4 x5 x6 x7
  clear_value x1 x2 x3 x4 x5 x6 x7
  refine State.drew_only hm.sub ?_
  exact State.stBytes_only hm.sub (State.stBytes_only hm.sub (State.stBytes_only hm.sub (by assumption)))

theorem State.coverNoData_only {s0 s1 : State} {a1 a2 a3 a4 a5} (hm : Within [.bond] m) (hs1 : OnlyIn m s0 s1) :
    OnlyIn m s0 (State.coverNoData s1 a1 a2 a3 a4 a5) := by
  unfold State.coverNoData
  extract_lets -merge -underBinder +onlyGivenNames x1 x2
  clear_value x1 x2
  exact State.cover_only hm.sub (by assumption)

theorem State.emptyTile_only {s0 s1 : State} {a1 a2 a3}
    (hm : Within [.regs, .mem, .tn, .mt, .bond, .sdio] m) (hs1 : OnlyIn m s0 s1) :
    OnlyIn m s0 (State.emptyTile s1 a1 a2 a3) := by
  unfold State.emptyTile
  extract_lets -merge -underBinder +onlyGivenNames x1 x2
  clear_value x1
  have hx2 : OnlyIn m s0 x2 := by
    subst x2
    refine State.each_only ?_ (fun _ _ _ => ?_)
    · assumption
    · exact State.zero_only hm.sub (by assumption)
  clear_value x2
  extract_lets -merge -underBinder +onlyGivenNames x3
  have hx3 : OnlyIn m s0 x3 := by
    subst x3
    exact State.raise_only hm.sub (State.coverNoData_only hm.sub (by assumption))
  clear_value x3
  exact State.tileHeader_only hm.sub (by assumption)

theorem State.rowsPast_only {s0 s1 : State} {a1 a2} (hm : Within [.acq] m) (hs1 : OnlyIn m s0 s1) :
    OnlyIn m s0 (State.rowsPast s1 a1 a2) := by
  unfold State.rowsPast
  extract_lets -merge -underBinder +onlyGivenNames x1
  clear_value x1
  exact State.updAcq_only hm.sub (by assumption)

theorem State.releaseTileSet_only {s0 s1 : State} {a1 a2}
    (hm : Within [.regs, .mem, .fresh, .tn, .acq, .die, .stream, .kv, .mt, .bond, .line, .plumb, .power, .test, .sdio] m) (hs1 : OnlyIn m s0 s1) :
    OnlyIn m s0 (State.releaseTileSet s1 a1 a2) := by
  unfold State.releaseTileSet
  extract_lets -merge -underBinder +onlyGivenNames x1 x2 x3
  clear_value x1 x2
  have hx3 : OnlyIn m s0 x3 := by
    subst x3
    refine State.each_only ?_ (fun _ _ _ => ?_)
    · assumption
    · exact State.rowsPast_only hm.sub (State.emptyTile_only hm.sub (by assumption))
  clear_value x3
  extract_lets -merge -underBinder +onlyGivenNames x4 x5 x6
  clear_value x4 x5
  have hx6 : OnlyIn m s0 x6 := by
    subst x6
    exact State.updAcq_only hm.sub (by assumption)
  clear_value x6
  extract_lets -merge -underBinder +onlyGivenNames x7
  have hx7 : OnlyIn m s0 x7 := by
    subst x7
    exact State.regSet_only hm.sub (State.regSet_only hm.sub (by assumption))
  clear_value x7
  extract_lets -merge -underBinder +onlyGivenNames x8
  have hx8 : OnlyIn m s0 x8 := by
    subst x8
    refine only_ite ?_ ?_
    · assumption
    · refine State.sideData_only hm.sub ?_
      refine only_ite ?_ ?_
      · exact State.fusionInstant_only hm.sub (by assumption)
      · assumption
  clear_value x8
  extract_lets -merge -underBinder +onlyGivenNames x9
  have hx9 : OnlyIn m s0 x9 := by
    subst x9
    exact State.watchKick_only hm.sub (by assumption)
  clear_value x9
  extract_lets -merge -underBinder +onlyGivenNames x10 x11
  clear_value x10
  have hx11 : OnlyIn m s0 x11 := by
    subst x11
    refine only_ite ?_ ?_
    · exact State.emit_only hm.sub (by assumption)
    · assumption
  clear_value x11
  exact State.releaseGraph_only hm.sub (by assumption)

theorem State.releaseLoop_only {s0 : State} {a0 a1} {s3 : State}
    (hm : Within [.regs, .mem, .fresh, .tn, .acq, .die, .stream, .kv, .mt, .bond, .line, .plumb, .power, .test, .sdio] m) (hs3 : OnlyIn m s0 s3) :
    OnlyIn m s0 (State.releaseLoop a0 a1 s3) := by
  unfold State.releaseLoop
  split
  · assumption
  · split
    · assumption
    · refine only_ite ?_ ?_
      · exact State.releaseLoop_only hm.sub (State.releaseTileSet_only hm.sub (by assumption))
      · assumption

theorem State.releaseCheck_only {s0 s1 : State}
    (hm : Within [.regs, .mem, .fresh, .tn, .acq, .die, .stream, .kv, .mt, .bond, .line, .plumb, .power, .test, .sdio] m) (hs1 : OnlyIn m s0 s1) :
    OnlyIn m s0 (State.releaseCheck s1) := by
  unfold State.releaseCheck
  refine State.each_only ?_ (fun _ _ _ => ?_)
  · assumption
  · extract_lets -merge -underBinder +onlyGivenNames x1
    clear_value x1
    exact State.releaseLoop_only hm.sub (by assumption)

theorem State.stampIssue_only {s0 s1 : State} {a1 a2}
    (hm : Within [.regs, .mem, .fresh, .tn, .acq, .die, .stream, .kv, .mt, .bond, .line, .plumb, .power, .test, .sdio] m) (hs1 : OnlyIn m s0 s1) :
    OnlyIn m s0 (State.stampIssue s1 a1 a2) := by
  unfold State.stampIssue
  refine only_ite ?_ ?_
  · assumption
  · extract_lets -merge -underBinder +onlyGivenNames x1
    have hx1 : OnlyIn m s0 x1 := by
      subst x1
      exact State.tilingWatch_only hm.sub (State.watchRef_only hm.sub (by assumption))
    clear_value x1
    refine only_ite ?_ ?_
    · exact State.releaseCheck_only hm.sub (State.missing_only hm.sub (by assumption))
    · extract_lets -merge -underBinder +onlyGivenNames x2
      have hx2 : OnlyIn m s0 x2 := by
        subst x2
        refine only_ite ?_ ?_
        · exact State.retire_only hm.sub (by assumption)
        · assumption
      clear_value x2
      exact State.updGrp_only hm.sub (by assumption)

theorem State.updTile_only {s0 s1 : State} {a1 a2 a3 a4} (hm : Within [.acq] m) (hs1 : OnlyIn m s0 s1) :
    OnlyIn m s0 (State.updTile s1 a1 a2 a3 a4) := by
  unfold State.updTile
  exact State.updAcq_only hm.sub (by assumption)

theorem State.formRow_only {s0 s1 : State} {a1 a2}
    (hm : Within [.regs, .mem, .fresh, .tn, .acq, .die, .stream, .kv, .mt, .bond, .line, .plumb, .power, .test, .sdio] m) (hs1 : OnlyIn m s0 s1) :
    OnlyIn m s0 (State.formRow s1 a1 a2) := by
  unfold State.formRow
  extract_lets -merge -underBinder +onlyGivenNames x1 x2 x3 x4 x5 x6 x7 x8 x9 x10 x11
  clear_value x1 x2 x3 x4 x5 x6 x7 x8 x9 x10
  have hx11 : OnlyIn m s0 x11 := by
    subst x11
    refine State.each_only ?_ (fun _ _ _ => ?_)
    · assumption
    · split
      · exact State.coverNoData_only hm.sub (by assumption)
  clear_value x11
  extract_lets -merge -underBinder +onlyGivenNames x12
  have hx12 : OnlyIn m s0 x12 := by
    subst x12
    refine only_ite ?_ ?_
    · exact State.raise_only hm.sub (by assumption)
    · assumption
  clear_value x12
  extract_lets -merge -underBinder +onlyGivenNames x13
  have hx13 : OnlyIn m s0 x13 := by
    subst x13
    refine State.each_only ?_ (fun _ _ _ => ?_)
    · assumption
    · extract_lets -merge -underBinder +onlyGivenNames x14 x15 x16 x17
      clear_value x14 x15 x16
      have hx17 : OnlyIn m s0 x17 := by
        subst x17
        refine State.each_only ?_ (fun _ _ _ => ?_)
        · assumption
        · exact State.stBytes_only hm.sub (by assumption)
      clear_value x17
      extract_lets -merge -underBinder +onlyGivenNames x18 x19
      clear_value x18 x19
      refine only_ite ?_ ?_
      · assumption
      · exact State.updTile_only hm.sub (by assumption)
  clear_value x13
  extract_lets -merge -underBinder +onlyGivenNames x20
  have hx20 : OnlyIn m s0 x20 := by
    subst x20
    exact State.rowsPast_only hm.sub (by assumption)
  clear_value x20
  refine only_ite ?_ ?_
  · extract_lets -merge -underBinder +onlyGivenNames x21
    have hx21 : OnlyIn m s0 x21 := by
      subst x21
      refine State.each_only ?_ (fun _ _ _ => ?_)
      · assumption
      · extract_lets -merge -underBinder +onlyGivenNames x22
        clear_value x22
        exact State.tileHeader_only hm.sub (by assumption)
    clear_value x21
    exact State.releaseCheck_only hm.sub (by assumption)
  · assumption

theorem State.formRows_only {s0 : State} {a0 a1 a2} {s4 : State}
    (hm : Within [.regs, .mem, .fresh, .tn, .acq, .die, .stream, .kv, .mt, .bond, .line, .plumb, .power, .test, .sdio] m) (hs4 : OnlyIn m s0 s4) :
    OnlyIn m s0 (State.formRows a0 a1 a2 s4) := by
  unfold State.formRows
  split
  · assumption
  · exact State.formRows_only hm.sub (State.formRow_only hm.sub (by assumption))

theorem State.rowCheck_only {s0 s1 : State} {a1}
    (hm : Within [.regs, .mem, .fresh, .tn, .acq, .die, .stream, .kv, .mt, .bond, .line, .plumb, .power, .test, .sdio] m) (hs1 : OnlyIn m s0 s1) :
    OnlyIn m s0 (State.rowCheck s1 a1) := by
  unfold State.rowCheck
  extract_lets -merge -underBinder +onlyGivenNames x1 x2
  clear_value x1 x2
  refine only_ite ?_ ?_
  · assumption
  · extract_lets -merge -underBinder +onlyGivenNames x3 x4 x5
    clear_value x3 x4
    have hx5 : OnlyIn m s0 x5 := by
      subst x5
      exact State.updAcq_only hm.sub (by assumption)
    clear_value x5
    exact State.rowsPast_only hm.sub (State.formRows_only hm.sub (by assumption))

theorem State.project_only {s0 s1 : State} {a1 a2 a3}
    (hm : Within [.regs, .mem, .fresh, .tn, .acq, .die, .stream, .kv, .mt, .bond, .line, .plumb, .power, .test, .sdio] m) (hs1 : OnlyIn m s0 s1) :
    OnlyIn m s0 (State.project s1 a1 a2 a3) := by
  unfold State.project
  extract_lets -merge -underBinder +onlyGivenNames x1
  clear_value x1
  refine only_ite ?_ ?_
  · assumption
  · extract_lets -merge -underBinder +onlyGivenNames x2 x3 x4 x5 x6 x7 x8 x9
    clear_value x2 x3 x4 x5 x6 x7 x8
    have hx9 : OnlyIn m s0 x9 := by
      subst x9
      exact State.updAcq_only hm.sub (by assumption)
    clear_value x9
    extract_lets -merge -underBinder +onlyGivenNames x10
    have hx10 : OnlyIn m s0 x10 := by
      subst x10
      exact State.updGrp_only hm.sub (by assumption)
    clear_value x10
    exact State.rowCheck_only hm.sub (by assumption)

theorem State.swapMaps_only {s0 s1 : State} {a1 a2 a3}
    (hm : Within [.regs, .mem, .tn, .acq, .sdio] m) (hs1 : OnlyIn m s0 s1) :
    OnlyIn m s0 (State.swapMaps s1 a1 a2 a3) := by
  unfold State.swapMaps
  extract_lets -merge -underBinder +onlyGivenNames x1 x2
  clear_value x1 x2
  refine only_ite ?_ ?_
  · assumption
  · split
    · assumption
    · refine only_ite ?_ ?_
      · assumption
      · extract_lets -merge -underBinder +onlyGivenNames x3
        have hx3 : OnlyIn m s0 x3 := by
          subst x3
          exact State.copySpace_only hm.sub (State.copySpace_only hm.sub (by assumption))
        clear_value x3
        extract_lets -merge -underBinder +onlyGivenNames x4
        have hx4 : OnlyIn m s0 x4 := by
          subst x4
          exact State.raise_only hm.sub (State.regSet_only hm.sub (by assumption))
        clear_value x4
        exact State.updAcq_only hm.sub (by assumption)

theorem State.bufRead_only {s0 s1 : State} {a1} (hm : Within [.regs, .tn, .sdio] m) (hs1 : OnlyIn m s0 s1) :
    OnlyInL m s0 (State.bufRead s1 a1) := by
  unfold State.bufRead
  extract_lets -merge -underBinder +onlyGivenNames x1 x2
  clear_value x1 x2
  refine onlyL_ite ?_ ?_
  · exact onlyL_mk (by assumption)
  · refine onlyL_ite ?_ ?_
    · exact onlyL_mk (State.bumpHi_only hm.sub (by assumption))
    · exact onlyL_mk (State.raise_only hm.sub (State.bumpLo_only hm.sub (by assumption)))

theorem State.mapsRead_only {s0 s1 : State} {a1 a2}
    (hm : Within [.regs, .mem, .tn, .die, .stream, .kv, .mt, .bond, .line, .plumb, .power, .test, .sdio] m) (hs1 : OnlyIn m s0 s1) :
    OnlyInL m s0 (State.mapsRead s1 a1 a2) := by
  unfold State.mapsRead
  extract_lets -merge -underBinder +onlyGivenNames x1
  clear_value x1
  split
  · refine OnlyInL.of_eq (m := m) (a := s0) (by assumption) ?_ (fun _ => ?_)
    · exact State.eccRead_only hm.sub (by assumption)
    split
    · refine OnlyInL.of_eq (m := m) (a := s0) (by assumption) ?_ (fun _ => ?_)
      · exact State.eccRead_only hm.sub (by assumption)
      exact onlyL_mk (by assumption)

theorem State.lineIn_only {s0 s1 : State} {a1 a2 a3 a4}
    (hm : Within [.regs, .mem, .fresh, .tn, .acq, .die, .stream, .kv, .mt, .bond, .line, .plumb, .power, .test, .sdio] m) (hs1 : OnlyIn m s0 s1) :
    OnlyIn m s0 (State.lineIn s1 a1 a2 a3 a4) := by
  unfold State.lineIn
  split
  · exact State.raise_only hm.sub (State.bumpLo_only hm.sub (by assumption))
  · extract_lets -merge -underBinder +onlyGivenNames x1
    have hx1 : OnlyIn m s0 x1 := by
      subst x1
      exact State.updGrp_only hm.sub (by assumption)
    clear_value x1
    extract_lets -merge -underBinder +onlyGivenNames x2
    have hx2 : OnlyIn m s0 x2 := by
      subst x2
      exact State.watchKick_only hm.sub (State.bump_only hm.sub (by assumption))
    clear_value x2
    split
    · refine OnlyInL.of_eq (m := m) (a := s0) (by assumption) ?_ (fun _ => ?_)
      · exact State.bufRead_only hm.sub (by assumption)
      extract_lets -merge -underBinder +onlyGivenNames x3
      clear_value x3
      split
      · refine OnlyInL.of_eq (m := m) (a := s0) (by assumption) ?_ (fun _ => ?_)
        · split
          · refine onlyL_ite ?_ ?_
            · exact onlyL_mk (by assumption)
            · exact State.mapsRead_only hm.sub (State.swapMaps_only hm.sub (by assumption))
          · exact onlyL_mk (by assumption)
        extract_lets -merge -underBinder +onlyGivenNames x4
        have hx4 : OnlyIn m s0 x4 := by
          subst x4
          refine only_ite ?_ ?_
          · exact State.raise_only hm.sub (State.bump_only hm.sub (by assumption))
          · assumption
        clear_value x4
        refine only_ite ?_ ?_
        · exact State.absentLine_only hm.sub (by assumption)
        · split
          · assumption
          · extract_lets -merge -underBinder +onlyGivenNames x5 x6
            clear_value x5
            have hx6 : OnlyIn m s0 x6 := by
              subst x6
              exact State.bump_only hm.sub (by assumption)
            clear_value x6
            exact State.project_only hm.sub (by assumption)

theorem State.pktErr_only {s0 s1 : State} {a1} (hm : Within [.regs, .tn, .sdio] m) (hs1 : OnlyIn m s0 s1) :
    OnlyIn m s0 (State.pktErr s1 a1) := by
  unfold State.pktErr
  exact State.raise_only hm.sub (State.bump_only hm.sub (by assumption))

theorem State.cxpPair_only {s0 s1 : State} {a1 a2 a3}
    (hm : Within [.regs, .mem, .fresh, .tn, .acq, .die, .stream, .kv, .mt, .bond, .line, .plumb, .power, .test, .sdio] m) (hs1 : OnlyIn m s0 s1) :
    OnlyIn m s0 (State.cxpPair s1 a1 a2 a3) := by
  unfold State.cxpPair
  extract_lets -merge -underBinder +onlyGivenNames x1 x2 x3
  clear_value x1 x2 x3
  refine only_ite ?_ ?_
  · exact State.lineIn_only hm.sub (by assumption)
  · extract_lets -merge -underBinder +onlyGivenNames x4
    have hx4 : OnlyIn m s0 x4 := by
      subst x4
      exact State.injStep_only hm.sub (by assumption)
    clear_value x4
    split
    · assumption
    · exact State.raise_only hm.sub (State.bumpLo_only hm.sub (State.lineIn_only hm.sub (by assumption)))
    · exact State.lineIn_only hm.sub (State.pktErr_only hm.sub (by assumption))
    · exact State.lineIn_only hm.sub (by assumption)

theorem State.cxpLine_only {s0 s1 : State} {a1 a2 a3}
    (hm : Within [.regs, .mem, .fresh, .tn, .acq, .die, .stream, .kv, .mt, .bond, .line, .plumb, .power, .test, .sdio] m) (hs1 : OnlyIn m s0 s1) :
    OnlyIn m s0 (State.cxpLine s1 a1 a2 a3) := by
  unfold State.cxpLine
  extract_lets -merge -underBinder +onlyGivenNames x1 x2 x3
  clear_value x1 x2
  have hx3 : OnlyIn m s0 x3 := by
    subst x3
    exact State.updGrp_only hm.sub (by assumption)
  clear_value x3
  extract_lets -merge -underBinder +onlyGivenNames x4
  have hx4 : OnlyIn m s0 x4 := by
    subst x4
    refine only_ite ?_ ?_
    · exact State.raise_only hm.sub (State.bumpLo_only hm.sub (by assumption))
    · exact State.cxpPair_only hm.sub (by assumption)
  clear_value x4
  refine only_ite ?_ ?_
  · exact State.pktErr_only hm.sub (by assumption)
  · assumption

theorem State.dropHeader_only {s0 s1 : State} {a1 a2} (hm : Within [.regs, .tn, .acq, .sdio] m) (hs1 : OnlyIn m s0 s1) :
    OnlyIn m s0 (State.dropHeader s1 a1 a2) := by
  unfold State.dropHeader
  exact State.updGrp_only hm.sub (State.pktErr_only hm.sub (by assumption))

theorem State.cxpHeader_only {s0 s1 : State} {a1 a2 a3}
    (hm : Within [.regs, .mem, .tn, .acq, .die, .stream, .kv, .mt, .bond, .line, .plumb, .test, .sdio] m) (hs1 : OnlyIn m s0 s1) :
    OnlyIn m s0 (State.cxpHeader s1 a1 a2 a3) := by
  unfold State.cxpHeader
  extract_lets -merge -underBinder +onlyGivenNames x1 x2
  clear_value x1 x2
  refine only_ite ?_ ?_
  · exact State.dropHeader_only hm.sub (by assumption)
  · extract_lets -merge -underBinder +onlyGivenNames x3
    have hx3 : OnlyIn m s0 x3 := by
      subst x3
      exact State.regSet_only hm.sub (by assumption)
    clear_value x3
    extract_lets -merge -underBinder +onlyGivenNames x4 x5 x6 x7
    clear_value x4 x5 x6
    have hx7 : OnlyIn m s0 x7 := by
      subst x7
      refine only_ite ?_ ?_
      · exact State.pktErr_only hm.sub (by assumption)
      · assumption
    clear_value x7
    extract_lets -merge -underBinder +onlyGivenNames x8
    have hx8 : OnlyIn m s0 x8 := by
      subst x8
      refine only_ite ?_ ?_
      · exact State.retire_only hm.sub (by assumption)
      · assumption
    clear_value x8
    exact State.updGrp_only hm.sub (by assumption)

theorem execCxpPacket_only {s0 : State} {a0 a1 a2}
    (hm : Within [.regs, .mem, .fresh, .tn, .acq, .die, .stream, .kv, .mt, .bond, .line, .plumb, .power, .test, .sdio] m) :
    OnlyInN m (State.to s0 a0) (execCxpPacket a0 a1 a2 s0) := by
  unfold execCxpPacket
  extract_lets -merge -underBinder +onlyGivenNames x1
  have hx1 : OnlyIn m (State.to s0 a0) x1 := by
    subst x1
    exact OnlyIn.refl _ _
  clear_value x1
  refine onlyN_ite ?_ ?_
  · exact onlyN_next (by assumption)
  · split
    · refine onlyN_ite ?_ ?_
      · refine onlyN_next ?_
        refine only_ite ?_ ?_
        · exact State.pktErr_only hm.sub (by assumption)
        · assumption
      · refine onlyN_ite ?_ ?_
        · exact onlyN_next (State.updAcq_only hm.sub (by assumption))
        · exact onlyN_next (State.cxpLine_only hm.sub (by assumption))
    · refine onlyN_next ?_
      refine only_ite ?_ ?_
      · exact State.pktErr_only hm.sub (by assumption)
      · refine only_ite ?_ ?_
        · assumption
        · exact State.cxpHeader_only hm.sub (by assumption)
    · refine onlyN_next ?_
      refine only_ite ?_ ?_
      · exact State.log_only hm.sub (by assumption)
      · exact State.pktErr_only hm.sub (by assumption)
    · refine onlyN_ite ?_ ?_
      · exact onlyN_next (State.pktErr_only hm.sub (by assumption))
      · extract_lets -merge -underBinder +onlyGivenNames x2
        have hx2 : OnlyIn m (State.to s0 a0) x2 := by
          subst x2
          exact State.updGrp_only hm.sub (by assumption)
        clear_value x2
        exact onlyN_next (State.answerDeferred_only hm.sub (by assumption))
    · exact onlyN_next (State.pktErr_only hm.sub (by assumption))

theorem execStampTimeout_only {s0 : State} {a0 a1}
    (hm : Within [.regs, .mem, .tn, .acq, .die, .stream, .kv, .mt, .bond, .line, .plumb, .test, .sdio] m) :
    OnlyInN m (State.to s0 a0) (execStampTimeout a0 a1 s0) := by
  unfold execStampTimeout
  extract_lets -merge -underBinder +onlyGivenNames x1
  have hx1 : OnlyIn m (State.to s0 a0) x1 := by
    subst x1
    exact OnlyIn.refl _ _
  clear_value x1
  split
  · refine onlyN_next ?_
    refine only_ite ?_ ?_
    · exact State.retire_only hm.sub (by assumption)
    · assumption
  · exact onlyN_next (by assumption)

theorem execGroupUp_only {s0 : State} {a0 a1 a2 a3}
    (hm : Within [.regs, .mem, .fresh, .tn, .acq, .die, .stream, .kv, .mt, .bond, .line, .plumb, .power, .test, .sdio] m) :
    OnlyInN m (State.to s0 a0) (execGroupUp a0 a1 a2 a3 s0) := by
  unfold execGroupUp
  extract_lets -merge -underBinder +onlyGivenNames x1
  have hx1 : OnlyIn m (State.to s0 a0) x1 := by
    subst x1
    exact OnlyIn.refl _ _
  clear_value x1
  refine guardNext_only ?_ (fun _ _ => ?_)
  · assumption
  · extract_lets -merge -underBinder +onlyGivenNames x2 x3
    clear_value x2
    have hx3 : OnlyIn m (State.to s0 a0) x3 := by
      subst x3
      exact State.updGrp_only hm.sub (by assumption)
    clear_value x3
    exact State.releaseCheck_only hm.sub (State.raise_only hm.sub (by assumption))

theorem execGroupFailed_only {s0 : State} {a0 a1}
    (hm : Within [.regs, .mem, .fresh, .tn, .acq, .die, .stream, .kv, .mt, .bond, .line, .plumb, .power, .test, .sdio] m) :
    OnlyInN m (State.to s0 a0) (execGroupFailed a0 a1 s0) := by
  unfold execGroupFailed
  extract_lets -merge -underBinder +onlyGivenNames x1
  have hx1 : OnlyIn m (State.to s0 a0) x1 := by
    subst x1
    exact OnlyIn.refl _ _
  clear_value x1
  refine guardNext_only ?_ (fun _ _ => ?_)
  · assumption
  · exact State.releaseCheck_only hm.sub (State.updGrp_only hm.sub (by assumption))

theorem State.groupRetire_only {s0 s1 : State} {a1}
    (hm : Within [.regs, .mem, .fresh, .tn, .acq, .die, .stream, .kv, .mt, .bond, .line, .plumb, .power, .test, .sdio] m) (hs1 : OnlyIn m s0 s1) :
    OnlyIn m s0 (State.groupRetire s1 a1) := by
  unfold State.groupRetire
  exact State.releaseCheck_only hm.sub (State.retire_only hm.sub (by assumption))

theorem State.groupDown_only {s0 s1 : State} {a1 a2}
    (hm : Within [.regs, .mem, .fresh, .tn, .acq, .die, .stream, .kv, .mt, .bond, .line, .plumb, .power, .test, .sdio] m) (hs1 : OnlyIn m s0 s1) :
    OnlyIn m s0 (State.groupDown s1 a1 a2) := by
  unfold State.groupDown
  refine only_ite ?_ ?_
  · assumption
  · extract_lets -merge -underBinder +onlyGivenNames x1
    have hx1 : OnlyIn m s0 x1 := by
      subst x1
      exact State.updGrp_only hm.sub (by assumption)
    clear_value x1
    exact State.groupRetire_only hm.sub (State.raise_only hm.sub (by assumption))

theorem execGroupDown_only {s0 : State} {a0 a1}
    (hm : Within [.regs, .mem, .fresh, .tn, .acq, .die, .stream, .kv, .mt, .bond, .line, .plumb, .power, .test, .sdio] m) :
    OnlyInN m (State.to s0 a0) (execGroupDown a0 a1 s0) := by
  unfold execGroupDown
  refine onlyN_next ?_
  refine State.groupDown_only hm.sub ?_
  exact OnlyIn.refl _ _

theorem execRediscovery_only {s0 : State} {a0 a1} (hm : Within [.regs, .tn, .acq, .sdio] m) :
    OnlyInN m (State.to s0 a0) (execRediscovery a0 a1 s0) := by
  unfold execRediscovery
  extract_lets -merge -underBinder +onlyGivenNames x1
  have hx1 : OnlyIn m (State.to s0 a0) x1 := by
    subst x1
    exact OnlyIn.refl _ _
  clear_value x1
  extract_lets -merge -underBinder +onlyGivenNames x2
  clear_value x2
  refine guardNext_only ?_ (fun _ _ => ?_)
  · assumption
  · exact State.updGrp_only hm.sub (State.discover_only hm.sub (by assumption))

theorem execPcxFault_only {s0 : State} {a0 a1}
    (hm : Within [.regs, .mem, .fresh, .tn, .acq, .die, .stream, .kv, .mt, .bond, .line, .plumb, .power, .test, .sdio] m) :
    OnlyInN m (State.to s0 a0) (execPcxFault a0 a1 s0) := by
  unfold execPcxFault
  extract_lets -merge -underBinder +onlyGivenNames x1
  have hx1 : OnlyIn m (State.to s0 a0) x1 := by
    subst x1
    exact OnlyIn.refl _ _
  clear_value x1
  refine onlyN_ite ?_ ?_
  · exact onlyN_next (by assumption)
  · extract_lets -merge -underBinder +onlyGivenNames x2
    have hx2 : OnlyIn m (State.to s0 a0) x2 := by
      subst x2
      exact State.updGrp_only hm.sub (by assumption)
    clear_value x2
    exact onlyN_next (State.groupDown_only hm.sub (State.raise_only hm.sub (by assumption)))

theorem execPcxFaultRelease_only {s0 : State} {a0 a1} (hm : Within [.acq] m) :
    OnlyInN m (State.to s0 a0) (execPcxFaultRelease a0 a1 s0) := by
  unfold execPcxFaultRelease
  refine onlyN_next ?_
  refine State.updGrp_only hm.sub ?_
  exact OnlyIn.refl _ _

theorem State.srcBad_only {s0 s1 : State} {a1} (hm : Within [.regs, .tn, .sdio] m) (hs1 : OnlyIn m s0 s1) :
    OnlyIn m s0 (State.srcBad s1 a1) := by
  unfold State.srcBad
  exact State.raise_only hm.sub (State.bump_only hm.sub (by assumption))

theorem State.srcLate_only {s0 s1 : State} {a1} (hm : Within [.regs, .tn, .sdio] m) (hs1 : OnlyIn m s0 s1) :
    OnlyIn m s0 (State.srcLate s1 a1) := by
  unfold State.srcLate
  exact State.raise_only hm.sub (State.bump_only hm.sub (by assumption))

theorem State.sensorTake_only {s0 s1 : State} {a1 a2 a3} (hm : Within [.regs, .tn, .acq, .sdio] m) (hs1 : OnlyIn m s0 s1) :
    OnlyIn m s0 (State.sensorTake s1 a1 a2 a3) := by
  unfold State.sensorTake
  extract_lets -merge -underBinder +onlyGivenNames x1 x2 x3 x4
  clear_value x3
  have hx4 : OnlyIn m s0 x4 := by
    subst x4
    refine only_ite ?_ ?_
    · exact State.srcLate_only hm.sub (by assumption)
    · assumption
  clear_value x4
  extract_lets -merge -underBinder +onlyGivenNames x5
  have hx5 : OnlyIn m s0 x5 := by
    subst x5
    refine only_ite ?_ ?_
    · exact State.updSrc_only hm.sub (by assumption)
    · assumption
  clear_value x5
  refine only_ite ?_ ?_
  · assumption
  · exact State.updSrc_only hm.sub (by assumption)

theorem execSensorRecord_only {s0 : State} {a0 a1 a2} (hm : Within [.regs, .fresh, .tn, .acq, .sdio] m) :
    OnlyInN m (State.to s0 a0) (execSensorRecord a0 a1 a2 s0) := by
  unfold execSensorRecord
  extract_lets -merge -underBinder +onlyGivenNames x1
  have hx1 : OnlyIn m (State.to s0 a0) x1 := by
    subst x1
    exact OnlyIn.refl _ _
  clear_value x1
  refine onlyN_ite ?_ ?_
  · exact onlyN_next (by assumption)
  · extract_lets -merge -underBinder +onlyGivenNames x2
    have hx2 : OnlyIn m (State.to s0 a0) x2 := by
      subst x2
      exact State.bump_only hm.sub (by assumption)
    clear_value x2
    extract_lets -merge -underBinder +onlyGivenNames x3 x4
    clear_value x3 x4
    refine onlyN_ite ?_ ?_
    · exact onlyN_next (by assumption)
    · refine onlyN_ite ?_ ?_
      · exact onlyN_next (State.bump_only hm.sub (by assumption))
      · extract_lets -merge -underBinder +onlyGivenNames x5 x6 x7 x8 x9
        clear_value x5 x6 x7 x8 x9
        refine onlyN_ite ?_ ?_
        · exact onlyN_next (State.srcBad_only hm.sub (by assumption))
        · extract_lets -merge -underBinder +onlyGivenNames x10 x11 x12
          clear_value x10 x11
          have hx12 : OnlyIn m (State.to s0 a0) x12 := by
            subst x12
            exact State.updSrc_only hm.sub (by assumption)
          clear_value x12
          extract_lets -merge -underBinder +onlyGivenNames x13
          have hx13 : OnlyIn m (State.to s0 a0) x13 := by
            subst x13
            refine only_ite ?_ ?_
            · exact State.raise_only hm.sub (State.bump_only hm.sub (by assumption))
            · assumption
          clear_value x13
          refine onlyN_ite ?_ ?_
          · exact onlyN_next (by assumption)
          · extract_lets -merge -underBinder +onlyGivenNames x14 x15 x16 x17
            clear_value x14 x15 x16 x17
            refine onlyN_ite ?_ ?_
            · exact onlyN_next (State.srcBad_only hm.sub (by assumption))
            · extract_lets -merge -underBinder +onlyGivenNames x18 x19 x20 x21
              clear_value x18 x19 x20 x21
              refine onlyN_ite ?_ ?_
              · exact onlyN_next (State.drew_only hm.sub (State.updAcq_only hm.sub (by assumption)))
              · exact onlyN_next (State.drew_only hm.sub (State.sensorTake_only hm.sub (by assumption)))

theorem execHeldLineRelease_only {s0 : State} {a0}
    (hm : Within [.regs, .mem, .fresh, .tn, .acq, .die, .stream, .kv, .mt, .bond, .line, .plumb, .power, .test, .sdio] m) :
    OnlyInN m (State.to s0 a0) (execHeldLineRelease a0 s0) := by
  unfold execHeldLineRelease
  extract_lets -merge -underBinder +onlyGivenNames x1
  have hx1 : OnlyIn m (State.to s0 a0) x1 := by
    subst x1
    exact OnlyIn.refl _ _
  clear_value x1
  split
  · exact onlyN_next (by assumption)
  · extract_lets -merge -underBinder +onlyGivenNames x2 x3
    clear_value x2 x3
    refine onlyN_next ?_
    refine only_ite ?_ ?_
    · exact State.cxpLine_only hm.sub (State.updAcq_only hm.sub (by assumption))
    · assumption

theorem execHeldRecordRelease_only {s0 : State} {a0} (hm : Within [.regs, .tn, .acq, .sdio] m) :
    OnlyInN m (State.to s0 a0) (execHeldRecordRelease a0 s0) := by
  unfold execHeldRecordRelease
  extract_lets -merge -underBinder +onlyGivenNames x1
  have hx1 : OnlyIn m (State.to s0 a0) x1 := by
    subst x1
    exact OnlyIn.refl _ _
  clear_value x1
  split
  · exact onlyN_next (by assumption)
  · extract_lets -merge -underBinder +onlyGivenNames x2
    clear_value x2
    refine onlyN_next ?_
    refine only_ite ?_ ?_
    · exact State.sensorTake_only hm.sub (State.updAcq_only hm.sub (by assumption))
    · assumption

end Sys2Proof.Machine
end

