-- ==== Sys2Proof/Laws/OnlyStreams.lean ====
section
/-! SUPPORT. What the operations of Machine/Streams.lean may change (Laws/Only.lean). -/
namespace Sys2Proof.Machine
set_option Elab.async false

variable {m : List Block}

theorem State.ctxFault_only {s0 s1 : State} {a1} (hm : Within [.mem, .mt] m) (hs1 : OnlyIn m s0 s1) :
    OnlyIn m s0 (State.ctxFault s1 a1) := by
  unfold State.ctxFault
  exact State.ctxSetFlag_only hm.sub (State.ctxSetFlag_only hm.sub (by assumption))

theorem State.swapStart_only {s0 s1 : State} {a1 a2} (hm : Within [.regs, .mem, .stream, .mt] m) (hs1 : OnlyIn m s0 s1) :
    OnlyIn m s0 (State.swapStart s1 a1 a2) := by
  unfold State.swapStart
  extract_lets -merge -underBinder +onlyGivenNames x1 x2 x3 x4
  clear_value x1 x2 x3
  have hx4 : OnlyIn m s0 x4 := by
    subst x4
    exact State.regSet_only hm.sub (by assumption)
  clear_value x4
  exact State.updStream_only hm.sub (State.ctxSetRes_only hm.sub (by assumption))

theorem State.evictDone_only {s0 s1 : State} {a1}
    (hm : Within [.regs, .mem, .tn, .die, .stream, .kv, .mt, .bond, .line, .plumb, .power, .test, .sdio] m) (hs1 : OnlyIn m s0 s1) :
    OnlyIn m s0 (State.evictDone s1 a1) := by
  unfold State.evictDone
  extract_lets -merge -underBinder +onlyGivenNames x1
  clear_value x1
  split
  · assumption
  · extract_lets -merge -underBinder +onlyGivenNames x2
    have hx2 : OnlyIn m s0 x2 := by
      subst x2
      refine only_ite ?_ ?_
      · split
        · refine OnlyInL.of_eq (m := m) (a := s0) (by assumption) ?_ (fun _ => ?_)
          · exact State.eccRead_only hm.sub (by assumption)
          extract_lets -merge -underBinder +onlyGivenNames x3
          have hx3 : OnlyIn m s0 x3 := by
            subst x3
            refine only_ite ?_ ?_
            · exact State.ctxFault_only hm.sub (by assumption)
            · split
              · refine OnlyInL.of_eq (m := m) (a := s0) (by assumption) ?_ (fun _ => ?_)
                · exact State.tierWrite_only hm.sub (by assumption)
                refine only_ite ?_ ?_
                · exact State.ctxFault_only hm.sub (by assumption)
                · assumption
          clear_value x3
          exact State.bump_only hm.sub (by assumption)
      · assumption
    clear_value x2
    extract_lets -merge -underBinder +onlyGivenNames x4 x5
    clear_value x4
    have hx5 : OnlyIn m s0 x5 := by
      subst x5
      refine State.updStream_only hm.sub ?_
      exact State.ctxSt_only hm.sub (State.ctxSetRes_only hm.sub (State.ctxSetFlag_only hm.sub (by assumption)))
    clear_value x5
    extract_lets -merge -underBinder +onlyGivenNames x6
    have hx6 : OnlyIn m s0 x6 := by
      subst x6
      split
      · refine only_ite ?_ ?_
        · exact State.swapStart_only hm.sub (by assumption)
        · assumption
      · assumption
    clear_value x6
    refine only_ite ?_ ?_
    · assumption
    · exact State.swapRequest_only hm.sub (by assumption)

theorem State.evictStart_only {s0 s1 : State} {a1}
    (hm : Within [.regs, .mem, .tn, .die, .stream, .kv, .mt, .bond, .line, .plumb, .power, .test, .sdio] m) (hs1 : OnlyIn m s0 s1) :
    OnlyIn m s0 (State.evictStart s1 a1) := by
  unfold State.evictStart
  extract_lets -merge -underBinder +onlyGivenNames x1 x2
  clear_value x1
  have hx2 : OnlyIn m s0 x2 := by
    subst x2
    exact State.raise_only hm.sub (State.bump_only hm.sub (State.ctxSetRes_only hm.sub (by assumption)))
  clear_value x2
  refine only_ite ?_ ?_
  · assumption
  · exact State.evictDone_only hm.sub (by assumption)

theorem State.swapServe_only {s0 s1 : State} {a1 a2}
    (hm : Within [.regs, .mem, .tn, .die, .stream, .kv, .mt, .bond, .line, .plumb, .power, .test, .sdio] m) (hs1 : OnlyIn m s0 s1) :
    OnlyIn m s0 (State.swapServe s1 a1 a2) := by
  unfold State.swapServe
  refine State.swapWaits_only hm.sub ?_
  split
  · exact State.swapStart_only hm.sub (by assumption)
  · refine only_ite ?_ ?_
    · split
      · assumption
      · extract_lets -merge -underBinder +onlyGivenNames x1
        have hx1 : OnlyIn m s0 x1 := by
          subst x1
          exact State.swapStart_only hm.sub (by assumption)
        clear_value x1
        exact State.evictStart_only hm.sub (State.updStream_only hm.sub (by assumption))
    · split
      · assumption
      · exact State.evictStart_only hm.sub (State.updStream_only hm.sub (by assumption))

theorem execSwapIn_only {s0 : State} {a0 a1 a2}
    (hm : Within [.regs, .mem, .tn, .die, .stream, .kv, .mt, .bond, .line, .plumb, .power, .test, .sdio] m) :
    OnlyInN m (State.to s0 a0) (execSwapIn a0 a1 a2 s0) := by
  unfold execSwapIn
  extract_lets -merge -underBinder +onlyGivenNames x1
  have hx1 : OnlyIn m (State.to s0 a0) x1 := by
    subst x1
    refine State.streamSettle_only hm.sub ?_
    exact OnlyIn.refl _ _
  clear_value x1
  split
  · refine guardNext_only ?_ (fun _ _ => ?_)
    · assumption
    · exact State.swapServe_only hm.sub (by assumption)
  · exact onlyN_next (by assumption)

theorem execSwapInDone_only {s0 : State} {a0 a1 a2}
    (hm : Within [.regs, .mem, .tn, .die, .stream, .kv, .mt, .bond, .line, .plumb, .power, .test, .sdio] m) :
    OnlyInN m (State.to s0 a0) (execSwapInDone a0 a1 a2 s0) := by
  unfold execSwapInDone
  extract_lets -merge -underBinder +onlyGivenNames x1
  have hx1 : OnlyIn m (State.to s0 a0) x1 := by
    subst x1
    exact OnlyIn.refl _ _
  clear_value x1
  split
  · exact onlyN_next (by assumption)
  · extract_lets -merge -underBinder +onlyGivenNames x2 x3
    clear_value x2 x3
    split
    · refine OnlyInL.of_eq (m := m) (a := (State.to s0 a0)) (by assumption) ?_ (fun _ => ?_)
      · refine onlyL_ite ?_ ?_
        · exact onlyL_mk (by assumption)
        · split
          · refine OnlyInL.of_eq (m := m) (a := (State.to s0 a0)) (by assumption) ?_ (fun _ => ?_)
            · exact State.tierRead_only hm.sub (by assumption)
            exact onlyL_mk (by assumption)
          · refine OnlyInL.of_eq (m := m) (a := (State.to s0 a0)) (by assumption) ?_ (fun _ => ?_)
            · exact State.tierRead_only hm.sub (by assumption)
            exact onlyL_mk (State.ctxFault_only hm.sub (by assumption))
      extract_lets -merge -underBinder +onlyGivenNames x4
      have hx4 : OnlyIn m (State.to s0 a0) x4 := by
        subst x4
        exact State.updStream_only hm.sub (State.stBytes_only hm.sub (by assumption))
      clear_value x4
      refine onlyN_next ?_
      refine State.streamSettle_only hm.sub ?_
      exact State.bump_only hm.sub (State.ctxSt_only hm.sub (State.ctxSetRes_only hm.sub (by assumption)))

theorem execEvictionDone_only {s0 : State} {a0 a1 a2}
    (hm : Within [.regs, .mem, .tn, .die, .stream, .kv, .mt, .bond, .line, .plumb, .power, .test, .sdio] m) :
    OnlyInN m (State.to s0 a0) (execEvictionDone a0 a1 a2 s0) := by
  unfold execEvictionDone
  extract_lets -merge -underBinder +onlyGivenNames x1
  have hx1 : OnlyIn m (State.to s0 a0) x1 := by
    subst x1
    exact OnlyIn.refl _ _
  clear_value x1
  refine guardNext_only ?_ (fun _ _ => ?_)
  · assumption
  · exact State.streamSettle_only hm.sub (State.evictDone_only hm.sub (by assumption))

end Sys2Proof.Machine
end

