-- ==== Sys2Proof/Laws/OnlyTaskCore.lean ====
section
/-! SUPPORT. What the operations of Machine/TaskCore.lean may change (Laws/Only.lean). -/
namespace Sys2Proof.Machine
set_option Elab.async false

variable {m : List Block}

/-- What an operator's effect may change, where its descriptor is taken. -/
def OnlyInD (m : List Block) (a : State) (x : Except TaskOut OpDo) : Prop :=
  ∀ op, x = .ok op → ∀ t, OnlyIn m a t → OnlyIn m a (op.run t)

theorem onlyD_error {a : State} {e : TaskOut} : OnlyInD m a (.error e) := fun _ h => nomatch h
theorem onlyD_mk {a : State} {l : List (Nat × Nat)} {b : Bool} {f : State → State} (h : ∀ t, OnlyIn m a t → OnlyIn m a (f t)) :
    OnlyInD m a (pure ⟨l, b, f⟩) := fun op e t ht => by
  cases e
  exact h t ht
theorem onlyD_bind {α : Type} {a : State} {x : Except TaskOut α} {k : α → Except TaskOut OpDo} (h : ∀ y, OnlyInD m a (k y)) :
    OnlyInD m a (x >>= k) := by
  cases x with
  | error e => exact onlyD_error
  | ok y => exact h y
theorem onlyD_ite {a : State} {x y : Except TaskOut OpDo} {c : Prop} [Decidable c] (h : OnlyInD m a x) (k : OnlyInD m a y) :
    OnlyInD m a (if c then x else y) := by
  split
  · exact h
  · exact k

theorem onTask_only {s0 : State} {a0 a1 a2 a4}
    (_hm : Within [] m) (ha4 : ∀ y0 y1, OnlyIn m (State.to s0 a0) y0 → OnlyIn m (State.to s0 a0) (a4 y0 y1)) :
    OnlyInN m (State.to s0 a0) (onTask a0 a1 a2 s0 a4) := by
  unfold onTask
  extract_lets -merge -underBinder +onlyGivenNames x1
  have hx1 : OnlyIn m (State.to s0 a0) x1 := by
    subst x1
    exact OnlyIn.refl _ _
  clear_value x1
  split
  · refine onlyN_ite ?_ ?_
    · exact onlyN_next (by assumption)
    · refine onlyN_next ?_
      refine ha4 _ _ ?_
      assumption
  · exact onlyN_next (by assumption)

theorem State.finish_only {s0 s1 : State} {a1 a2 a3} (hm : Within [.die] m) (hs1 : OnlyIn m s0 s1) :
    OnlyIn m s0 (State.finish s1 a1 a2 a3) := by
  unfold State.finish
  exact State.updRun_only hm.sub (by assumption)

theorem State.goPc_only {s0 s1 : State} {a1 a2 a3} (hm : Within [.die] m) (hs1 : OnlyIn m s0 s1) :
    OnlyIn m s0 (State.goPc s1 a1 a2 a3) := by
  unfold State.goPc
  exact State.updRun_only hm.sub (by assumption)

theorem State.moves_only {s0 s1 : State} {a1 a2} (hm : Within [.die] m) (hs1 : OnlyIn m s0 s1) :
    OnlyIn m s0 (State.moves s1 a1 a2) := by
  unfold State.moves
  exact State.updRun_only hm.sub (by assumption)

theorem State.worked_only {s0 s1 : State} {a1 a2} (hm : Within [.die] m) (hs1 : OnlyIn m s0 s1) :
    OnlyIn m s0 (State.worked s1 a1 a2) := by
  unfold State.worked
  exact State.updRun_only hm.sub (by assumption)

theorem State.count_only {s0 s1 : State} {a1 a2 a3} (hm : Within [.die] m) (hs1 : OnlyIn m s0 s1) :
    OnlyIn m s0 (State.count s1 a1 a2 a3) := by
  unfold State.count
  exact State.updRun_only hm.sub (by assumption)

theorem State.csSt_only {s0 s1 : State} {a1 a2 a3 a4} (hm : Within [.mem, .mt] m) (hs1 : OnlyIn m s0 s1) :
    OnlyIn m s0 (State.csSt s1 a1 a2 a3 a4) := by
  unfold State.csSt
  exact State.stBytes_only hm.sub (by assumption)

theorem State.csReads_only {s0 s1 : State} {a1 a2 a3}
    (hm : Within [.regs, .mem, .tn, .die, .stream, .kv, .mt, .bond, .line, .plumb, .power, .test, .sdio] m) (hs1 : OnlyIn m s0 s1) :
    OnlyIn m s0 (State.csReads s1 a1 a2 a3) := by
  unfold State.csReads
  refine State.each_only ?_ (fun _ _ _ => ?_)
  · assumption
  · exact OnlyInL.fst (State.eccRead_only hm.sub (by assumption))

theorem State.mixView_only {s0 s1 : State} {a1 a2 a3} (hm : Within [.mem, .fresh, .mt] m) (hs1 : OnlyIn m s0 s1) :
    OnlyInL m s0 (State.mixView s1 a1 a2 a3) := by
  unfold State.mixView
  split
  · exact onlyL_mk (by assumption)
  · refine onlyL_foldl (fun _ _ _ => ?_) ?_
    · extract_lets -merge -underBinder +onlyGivenNames x1
      have hx1 : OnlyIn m s0 x1 := by
        subst x1
        refine State.drew_only hm.sub ?_
        exact OnlyInL.fst (by assumption)
      clear_value x1
      refine onlyL_ite ?_ ?_
      · exact onlyL_mk (by assumption)
      · exact onlyL_mk (State.csSt_only hm.sub (by assumption))
    · exact onlyL_mk (by assumption)

theorem State.mixBack_only {s0 s1 : State} {a1 a2 a3} (hm : Within [.mem, .mt] m) (hs1 : OnlyIn m s0 s1) :
    OnlyIn m s0 (State.mixBack s1 a1 a2 a3) := by
  unfold State.mixBack
  refine State.each_only ?_ (fun _ _ _ => ?_)
  · assumption
  · exact State.csSt_only hm.sub (by assumption)

theorem State.operate_only {s0 s1 : State} {a1 a2 a3 a4 a5 a6}
    (hm : Within [.regs, .mem, .fresh, .tn, .die, .stream, .kv, .mt, .bond, .line, .plumb, .power, .test, .sdio] m)
    (hs1 : OnlyIn m s0 s1)
    (ha6 : ∀ y0 y1, OnlyIn m s0 y0 → OnlyInD m s0 (a6 y0 y1)) :
    OnlyIn m s0 (State.operate s1 a1 a2 a3 a4 a5 a6) := by
  unfold State.operate
  refine only_ite ?_ ?_
  · assumption
  · extract_lets -merge -underBinder +onlyGivenNames x1
    have hx1 : OnlyIn m s0 x1 := by
      subst x1
      exact State.csReads_only hm.sub (State.updRun_only hm.sub (by assumption))
    clear_value x1
    split
    · assumption
    · split
      · exact State.finish_only hm.sub (by assumption)
      · have hd := ha6 x1 _ hx1 _ (by assumption)
        extract_lets -merge -underBinder +onlyGivenNames x2
        have hx2 : OnlyIn m s0 x2 := by
          subst x2
          exact State.csReads_only hm.sub (by assumption)
        clear_value x2
        refine only_ite ?_ ?_
        · assumption
        · refine only_ite ?_ ?_
          · exact hd _ hx2
          · split
            exact State.worked_only hm.sub (State.mixBack_only hm.sub (hd _ (OnlyInL.of_eq (by assumption) (State.mixView_only hm.sub hx2) fun h => h)))

theorem State.putElem_only {s0 s1 : State} {a1 a2 a3 a4 a5 a6} (hm : Within [.mem, .mt] m) (hs1 : OnlyIn m s0 s1) :
    OnlyIn m s0 (State.putElem s1 a1 a2 a3 a4 a5 a6) := by
  unfold State.putElem
  split
  · extract_lets -merge -underBinder +onlyGivenNames x1 x2
    clear_value x1 x2
    exact State.csSt_only hm.sub (by assumption)
  · exact State.csSt_only hm.sub (by assumption)

theorem State.sideAdd_only {s0 s1 : State} {a1 a2 a3 a4 a5 a6 a7} (hm : Within [.mem, .mt] m) (hs1 : OnlyIn m s0 s1) :
    OnlyIn m s0 (State.sideAdd s1 a1 a2 a3 a4 a5 a6 a7) := by
  unfold State.sideAdd
  extract_lets -merge -underBinder +onlyGivenNames x1 x2 x3
  clear_value x1 x2 x3
  exact State.csSt_only hm.sub (by assumption)

theorem State.sideClear_only {s0 s1 : State} {a1 a2 a3 a4 a5} (hm : Within [.mem, .mt] m) (hs1 : OnlyIn m s0 s1) :
    OnlyIn m s0 (State.sideClear s1 a1 a2 a3 a4 a5) := by
  unfold State.sideClear
  refine only_ite ?_ ?_
  · refine State.each_only ?_ (fun _ _ _ => ?_)
    · assumption
    · exact State.csSt_only hm.sub (by assumption)
  · assumption

theorem State.putOut_only {s0 s1 : State} {a1 a2 a3 a4 a5 a6 a7} (hm : Within [.mem, .die, .mt] m) (hs1 : OnlyIn m s0 s1) :
    OnlyIn m s0 (State.putOut s1 a1 a2 a3 a4 a5 a6 a7) := by
  unfold State.putOut
  extract_lets -merge -underBinder +onlyGivenNames x1 x2 x3
  clear_value x1 x2 x3
  split
  · extract_lets -merge -underBinder +onlyGivenNames x4
    have hx4 : OnlyIn m s0 x4 := by
      subst x4
      exact State.putElem_only hm.sub (State.count_only hm.sub (by assumption))
    clear_value x4
    split
    · exact State.sideAdd_only hm.sub (by assumption)
    · assumption

end Sys2Proof.Machine
end

