-- ==== Sys2Proof/Laws/OnlyKvCore.lean ====
section
/-! SUPPORT. What the operations of Machine/KvCore.lean may change (Laws/Only.lean). -/
namespace Sys2Proof.Machine
set_option Elab.async false

variable {m : List Block}

theorem State.listSet_only {s0 s1 : State} {a1 a2 a3 a4 a5} (hm : Within [.mem, .mt] m) (hs1 : OnlyIn m s0 s1) :
    OnlyIn m s0 (State.listSet s1 a1 a2 a3 a4 a5) := by
  unfold State.listSet
  exact State.linSt_only hm.sub (by assumption)

theorem State.seqReset_only {s0 s1 : State} {a1} (hm : Within [.mem, .kv, .mt] m) (hs1 : OnlyIn m s0 s1) :
    OnlyIn m s0 (State.seqReset s1 a1) := by
  unfold State.seqReset
  extract_lets -merge -underBinder +onlyGivenNames x1
  have hx1 : OnlyIn m s0 x1 := by
    subst x1
    refine State.each_only ?_ (fun _ _ _ => ?_)
    · assumption
    · split
      · split
        · assumption
        · exact State.listSet_only hm.sub (State.pageUnref_only hm.sub (by assumption))
  clear_value x1
  exact State.seqSt_only hm.sub (State.seqSt_only hm.sub (by assumption))

theorem State.kvDispatch_only {s0 s1 : State} {a1 a2 a3} (hm : Within [.mem, .die, .mt] m) (hs1 : OnlyIn m s0 s1) :
    OnlyIn m s0 (State.kvDispatch s1 a1 a2 a3) := by
  unfold State.kvDispatch
  refine only_ite ?_ ?_
  · assumption
  · extract_lets -merge -underBinder +onlyGivenNames x1 x2 x3
    clear_value x1 x2 x3
    refine State.updRun_only hm.sub ?_
    refine State.each_only ?_ (fun _ _ _ => ?_)
    · assumption
    · exact State.pagePin_only hm.sub (by assumption)

end Sys2Proof.Machine
end

