-- ==== Sys2Proof/Laws/OnlyTask.lean ====
section
/-! SUPPORT. What the operations of Machine/Task.lean may change (Laws/Only.lean). -/
namespace Sys2Proof.Machine
set_option Elab.async false

variable {m : List Block}

theorem State.chunkPop_only {s0 s1 : State} {a1 a2} (hm : Within [.mem, .stream, .mt] m) (hs1 : OnlyIn m s0 s1) :
    OnlyIn m s0 (State.chunkPop s1 a1 a2) := by
  unfold State.chunkPop
  refine only_ite ?_ ?_
  · assumption
  · exact State.ctxSetQueue_only hm.sub (by assumption)

theorem State.loadResident_only {s0 s1 : State} {a1 a2 a3}
    (hm : Within [.regs, .mem, .tn, .die, .stream, .kv, .mt, .bond, .line, .plumb, .power, .test, .sdio] m) (hs1 : OnlyIn m s0 s1) :
    OnlyInL m s0 (State.loadResident s1 a1 a2 a3) := by
  unfold State.loadResident
  extract_lets -merge -underBinder +onlyGivenNames x1
  have hx1 : OnlyInL m s0 x1 := by
    subst x1
    refine onlyL_foldl (fun _ _ _ => ?_) ?_
    · split
      · refine OnlyInL.of_eq (m := m) (a := s0) (by assumption) ?_ (fun _ => ?_)
        · refine State.eccRead_only hm.sub ?_
          exact OnlyInL.fst (by assumption)
        exact onlyL_mk (State.csSt_only hm.sub (by assumption))
    · exact onlyL_mk (by assumption)
  clear_value x1
  refine onlyL_mk ?_
  refine State.updCore_only hm.sub ?_
  exact OnlyInL.fst (by assumption)

theorem State.residentFor_only {s0 s1 : State} {a1 a2 a3}
    (hm : Within [.regs, .mem, .tn, .die, .stream, .kv, .mt, .bond, .line, .plumb, .power, .test, .sdio] m) (hs1 : OnlyIn m s0 s1) :
    OnlyInL m s0 (State.residentFor s1 a1 a2 a3) := by
  unfold State.residentFor
  extract_lets -merge -underBinder +onlyGivenNames x1
  clear_value x1
  refine onlyL_ite ?_ ?_
  · exact State.loadResident_only hm.sub (by assumption)
  · exact onlyL_mk (by assumption)

theorem State.refresh_only {s0 s1 : State}
    (hm : Within [.regs, .mem, .tn, .die, .stream, .kv, .mt, .bond, .line, .plumb, .power, .test, .sdio] m) (hs1 : OnlyIn m s0 s1) :
    OnlyIn m s0 (State.refresh s1) := by
  unfold State.refresh
  refine State.each_only ?_ (fun _ _ _ => ?_)
  · assumption
  · refine State.each_only ?_ (fun _ _ _ => ?_)
    · assumption
    · refine only_ite ?_ ?_
      · assumption
      · refine only_ite ?_ ?_
        · exact State.updCore_only hm.sub (by assumption)
        · exact OnlyInL.fst (State.loadResident_only hm.sub (by assumption))

theorem State.startRun_only {s0 s1 : State} {a1 a2 a3 a4 a5 a6 a7}
    (hm : Within [.regs, .mem, .tn, .die, .stream, .kv, .mt, .bond, .line, .plumb, .power, .test, .sdio] m) (hs1 : OnlyIn m s0 s1) :
    OnlyIn m s0 (State.startRun s1 a1 a2 a3 a4 a5 a6 a7) := by
  unfold State.startRun
  extract_lets -merge -underBinder +onlyGivenNames x1 x2
  clear_value x1
  have hx2 : OnlyIn m s0 x2 := by
    subst x2
    exact State.repairCore_only hm.sub (by assumption)
  clear_value x2
  split
  · refine OnlyInL.of_eq (m := m) (a := s0) (by assumption) ?_ (fun _ => ?_)
    · exact State.residentFor_only hm.sub (by assumption)
    split
    · refine OnlyInL.of_eq (m := m) (a := s0) (by assumption) ?_ (fun _ => ?_)
      · exact State.eccRead_only hm.sub (by assumption)
      extract_lets -merge -underBinder +onlyGivenNames x3 x4
      clear_value x3
      have hx4 : OnlyIn m s0 x4 := by
        subst x4
        split
        · exact State.updStream_only hm.sub (State.chunkPop_only hm.sub (by assumption))
        · assumption
      clear_value x4
      extract_lets -merge -underBinder +onlyGivenNames x5 x6
      clear_value x5
      have hx6 : OnlyIn m s0 x6 := by
        subst x6
        exact State.updDie_only hm.sub (by assumption)
      clear_value x6
      extract_lets -merge -underBinder +onlyGivenNames x7
      have hx7 : OnlyIn m s0 x7 := by
        subst x7
        refine only_ite ?_ ?_
        · exact State.kvDispatch_only hm.sub (by assumption)
        · assumption
      clear_value x7
      refine only_ite ?_ ?_
      · split
        · refine OnlyInL.of_eq (m := m) (a := s0) (by assumption) ?_ (fun _ => ?_)
          · exact State.eccRead_only hm.sub (by assumption)
          refine only_ite ?_ ?_
          · exact State.finish_only hm.sub (by assumption)
          · exact State.csSt_only hm.sub (by assumption)
      · assumption

theorem State.dispatch_only {s0 s1 : State} {a1 a2 a3 a4 a5}
    (hm : Within [.regs, .mem, .tn, .die, .stream, .kv, .mt, .bond, .line, .plumb, .power, .test, .sdio] m) (hs1 : OnlyIn m s0 s1) :
    OnlyIn m s0 (State.dispatch s1 a1 a2 a3 a4 a5) := by
  unfold State.dispatch
  extract_lets -merge -underBinder +onlyGivenNames x1 x2
  clear_value x1
  have hx2 : OnlyIn m s0 x2 := by
    subst x2
    exact State.updTask_only hm.sub (by assumption)
  clear_value x2
  extract_lets -merge -underBinder +onlyGivenNames x3
  have hx3 : OnlyIn m s0 x3 := by
    subst x3
    refine only_ite ?_ ?_
    · assumption
    · exact State.updBond_only hm.sub (by assumption)
  clear_value x3
  refine only_ite ?_ ?_
  · extract_lets -merge -underBinder +onlyGivenNames x4
    have hx4 : OnlyIn m s0 x4 := by
      subst x4
      split
      · exact State.chunkLost_only hm.sub (State.chunkPop_only hm.sub (by assumption))
      · assumption
    clear_value x4
    refine State.instanceDone_only hm.sub ?_
    exact State.unrun_only hm.sub (State.raise_only hm.sub (State.bump_only hm.sub (by assumption)))
  · extract_lets -merge -underBinder +onlyGivenNames x5
    have hx5 : OnlyIn m s0 x5 := by
      subst x5
      exact State.bump_only hm.sub (by assumption)
    clear_value x5
    extract_lets -merge -underBinder +onlyGivenNames x6
    clear_value x6
    split
    · refine only_ite ?_ ?_
      · refine State.instanceDone_only hm.sub ?_
        refine State.unrun_only hm.sub ?_
        exact State.chunkLost_only hm.sub (State.raise_only hm.sub (State.chunkPop_only hm.sub (by assumption)))
      · exact State.startRun_only hm.sub (by assumption)
    · exact State.startRun_only hm.sub (by assumption)

theorem State.updSplit_only {s0 s1 : State} {a1 a2 a3 a4} (hm : Within [.die] m) (hs1 : OnlyIn m s0 s1) :
    OnlyIn m s0 (State.updSplit s1 a1 a2 a3 a4) := by
  unfold State.updSplit
  exact State.updRun_only hm.sub (by assumption)

theorem State.startPart_only {s0 s1 : State} {a1 a2 a3 a4 a5 a6}
    (hm : Within [.regs, .mem, .tn, .die, .stream, .kv, .mt, .bond, .line, .plumb, .power, .test, .sdio] m) (hs1 : OnlyIn m s0 s1) :
    OnlyIn m s0 (State.startPart s1 a1 a2 a3 a4 a5 a6) := by
  unfold State.startPart
  extract_lets -merge -underBinder +onlyGivenNames x1
  have hx1 : OnlyIn m s0 x1 := by
    subst x1
    exact State.repairCore_only hm.sub (by assumption)
  clear_value x1
  split
  · refine OnlyInL.of_eq (m := m) (a := s0) (by assumption) ?_ (fun _ => ?_)
    · exact State.residentFor_only hm.sub (by assumption)
    extract_lets -merge -underBinder +onlyGivenNames x2 x3 x4
    clear_value x2 x3
    have hx4 : OnlyIn m s0 x4 := by
      subst x4
      refine State.updDie_only hm.sub ?_
      refine State.each_only ?_ (fun _ _ _ => ?_)
      · assumption
      · exact State.pagePin_only hm.sub (by assumption)
    clear_value x4
    exact State.updSplit_only hm.sub (State.bump_only hm.sub (by assumption))

theorem State.partDone_only {s0 s1 : State} {a1 a2 a3 a4 a5 a6} (hm : Within [.die] m) (hs1 : OnlyIn m s0 s1) :
    OnlyIn m s0 (State.partDone s1 a1 a2 a3 a4 a5 a6) := by
  unfold State.partDone
  split
  · assumption
  · refine only_ite ?_ ?_
    · assumption
    · refine only_ite ?_ ?_
      · exact State.finish_only hm.sub (by assumption)
      · exact State.updSplit_only hm.sub (State.moves_only hm.sub (State.count_only hm.sub (by assumption)))

theorem execTaskDispatch_only {s0 : State} {a0 a1 a2 a3 a4}
    (hm : Within [.regs, .mem, .tn, .die, .stream, .kv, .mt, .bond, .line, .plumb, .power, .test, .sdio] m) :
    OnlyInN m (State.to s0 a0) (execTaskDispatch a0 a1 a2 a3 a4 s0) := by
  unfold execTaskDispatch
  extract_lets -merge -underBinder +onlyGivenNames x1
  have hx1 : OnlyIn m (State.to s0 a0) x1 := by
    subst x1
    refine State.readyAll_only hm.sub ?_
    exact OnlyIn.refl _ _
  clear_value x1
  refine onlyN_ite ?_ ?_
  · exact onlyN_next (by assumption)
  · split
    · refine guardNext_only ?_ (fun _ _ => ?_)
      · assumption
      · exact State.dispatch_only hm.sub (by assumption)
    · split
      · exact onlyN_next (State.startPart_only hm.sub (by assumption))
      · refine guardNext_only ?_ (fun _ _ => ?_)
        · assumption
        · exact State.raise_only hm.sub (by assumption)
      · exact onlyN_next (by assumption)

theorem State.chunkEnd_only {s0 s1 : State} {a1 a2 a3}
    (hm : Within [.regs, .mem, .tn, .stream, .mt, .bond, .sdio] m) (hs1 : OnlyIn m s0 s1) :
    OnlyIn m s0 (State.chunkEnd s1 a1 a2 a3) := by
  unfold State.chunkEnd
  split
  · assumption
  · extract_lets -merge -underBinder +onlyGivenNames x1
    clear_value x1
    refine only_ite ?_ ?_
    · assumption
    · refine only_ite ?_ ?_
      · extract_lets -merge -underBinder +onlyGivenNames x2 x3 x4
        clear_value x2 x3
        have hx4 : OnlyIn m s0 x4 := by
          subst x4
          refine only_ite ?_ ?_
          · assumption
          · exact State.ctxSetFlag_only hm.sub (State.stBytes_only hm.sub (by assumption))
        clear_value x4
        extract_lets -merge -underBinder +onlyGivenNames x5
        have hx5 : OnlyIn m s0 x5 := by
          subst x5
          exact State.ctxSt_only hm.sub (State.ctxSt_only hm.sub (by assumption))
        clear_value x5
        split
        · assumption
        · extract_lets -merge -underBinder +onlyGivenNames x6
          have hx6 : OnlyIn m s0 x6 := by
            subst x6
            refine only_ite ?_ ?_
            · assumption
            · exact State.raise_only hm.sub (State.bump_only hm.sub (State.ctxSt_only hm.sub (by assumption)))
          clear_value x6
          extract_lets -merge -underBinder +onlyGivenNames x7
          have hx7 : OnlyIn m s0 x7 := by
            subst x7
            refine only_ite ?_ ?_
            · exact State.ctxSetFlag_only hm.sub (State.ctxSetFlag_only hm.sub (by assumption))
            · assumption
          clear_value x7
          exact State.updStream_only hm.sub (by assumption)
      · exact State.chunkLost_only hm.sub (by assumption)

theorem State.retireIdle_only {s0 s1 : State} {a1}
    (hm : Within [.regs, .mem, .tn, .die, .stream, .kv, .mt, .bond, .line, .plumb, .power, .test, .sdio] m) (hs1 : OnlyIn m s0 s1) :
    OnlyIn m s0 (State.retireIdle s1 a1) := by
  unfold State.retireIdle
  refine State.each_only ?_ (fun _ _ _ => ?_)
  · assumption
  · split
    · refine only_ite ?_ ?_
      · assumption
      · exact State.coreFail_only hm.sub (by assumption)
    · assumption

theorem State.chargeRun_only {s0 s1 : State} {a1 a2} (hm : Within [.regs, .tn, .bond, .sdio] m) (hs1 : OnlyIn m s0 s1) :
    OnlyIn m s0 (State.chargeRun s1 a1 a2) := by
  unfold State.chargeRun
  extract_lets -merge -underBinder +onlyGivenNames x1
  clear_value x1
  refine only_ite ?_ ?_
  · exact State.updBond_only hm.sub (by assumption)
  · refine only_ite ?_ ?_
    · exact State.raise_only hm.sub (State.bump_only hm.sub (by assumption))
    · assumption

theorem State.taskEnds_only {s0 s1 : State} {a1 a2 a3 a4}
    (hm : Within [.regs, .mem, .tn, .die, .stream, .kv, .mt, .bond, .sdio] m) (hs1 : OnlyIn m s0 s1) :
    OnlyIn m s0 (State.taskEnds s1 a1 a2 a3 a4) := by
  unfold State.taskEnds
  extract_lets -merge -underBinder +onlyGivenNames x1 x2
  clear_value x1
  have hx2 : OnlyIn m s0 x2 := by
    subst x2
    exact State.chargeRun_only hm.sub (State.endRun_only hm.sub (by assumption))
  clear_value x2
  extract_lets -merge -underBinder +onlyGivenNames x3
  have hx3 : OnlyIn m s0 x3 := by
    subst x3
    refine only_ite ?_ ?_
    · exact State.raise_only hm.sub (by assumption)
    · assumption
  clear_value x3
  extract_lets -merge -underBinder +onlyGivenNames x4
  have hx4 : OnlyIn m s0 x4 := by
    subst x4
    exact State.chunkEnd_only hm.sub (by assumption)
  clear_value x4
  exact State.updCore_only hm.sub (by assumption)

theorem execTaskComplete_only {s0 : State} {a0 a1 a2}
    (hm : Within [.regs, .mem, .tn, .die, .stream, .kv, .mt, .bond, .line, .plumb, .power, .test, .sdio] m) :
    OnlyInN m (State.to s0 a0) (execTaskComplete a0 a1 a2 s0) := by
  unfold execTaskComplete
  extract_lets -merge -underBinder +onlyGivenNames x1
  have hx1 : OnlyIn m (State.to s0 a0) x1 := by
    subst x1
    exact OnlyIn.refl _ _
  clear_value x1
  refine onlyN_ite ?_ ?_
  · exact onlyN_next (by assumption)
  · split
    · exact onlyN_next (by assumption)
    · split
      · exact onlyN_next (by assumption)
      · extract_lets -merge -underBinder +onlyGivenNames x2 x3
        clear_value x2
        have hx3 : OnlyIn m (State.to s0 a0) x3 := by
          subst x3
          exact State.taskEnds_only hm.sub (by assumption)
        clear_value x3
        split
        · exact onlyN_next (State.retireIdle_only hm.sub (State.partDone_only hm.sub (by assumption)))
        · refine onlyN_next ?_
          refine State.retireIdle_only hm.sub ?_
          exact State.streamSettle_only hm.sub (State.instanceDone_only hm.sub (by assumption))

theorem onInstr_only {s0 : State} {a0 a1 a2 a3 a4 a6}
    (hm : Within [] m) (ha6 : ∀ y0 y1, OnlyIn m (State.to s0 a0) y0 → OnlyIn m (State.to s0 a0) (a6 y0 y1)) :
    OnlyInN m (State.to s0 a0) (onInstr a0 a1 a2 a3 a4 s0 a6) := by
  unfold onInstr
  refine onTask_only hm.sub (fun _ _ _ => ?_)
  refine only_ite ?_ ?_
  · refine ha6 _ _ ?_
    assumption
  · assumption

theorem execTaskEnd_only {s0 : State} {a0 a1 a2} (hm : Within [.die] m) :
    OnlyInN m (State.to s0 a0) (execTaskEnd a0 a1 a2 s0) := by
  unfold execTaskEnd
  refine onInstr_only hm.sub (fun _ _ _ => ?_)
  refine only_ite ?_ ?_
  · exact State.finish_only hm.sub (State.goPc_only hm.sub (by assumption))
  · assumption

theorem execOper_only {s0 : State} {a0 a1 a2 a3} (hm : Within [.die] m) :
    OnlyInN m (State.to s0 a0) (execOper a0 a1 a2 a3 s0) := by
  unfold execOper
  refine onInstr_only hm.sub (fun _ _ _ => ?_)
  extract_lets -merge -underBinder +onlyGivenNames x1 x2
  clear_value x1 x2
  refine only_ite ?_ ?_
  · exact State.finish_only hm.sub (by assumption)
  · exact State.updRun_only hm.sub (State.goPc_only hm.sub (by assumption))

theorem execChain_only {s0 : State} {a0 a1 a2 a3 a4} (hm : Within [.die] m) :
    OnlyInN m (State.to s0 a0) (execChain a0 a1 a2 a3 a4 s0) := by
  unfold execChain
  refine onInstr_only hm.sub (fun _ _ _ => ?_)
  refine only_ite ?_ ?_
  · assumption
  · refine only_ite ?_ ?_
    · exact State.finish_only hm.sub (by assumption)
    · exact State.updRun_only hm.sub (State.worked_only hm.sub (State.goPc_only hm.sub (by assumption)))

theorem execWaitc_only {s0 : State} {a0 a1 a2 a3} (hm : Within [.die] m) :
    OnlyInN m (State.to s0 a0) (execWaitc a0 a1 a2 a3 s0) := by
  unfold execWaitc
  refine onInstr_only hm.sub (fun _ _ _ => ?_)
  refine only_ite ?_ ?_
  · exact State.updRun_only hm.sub (State.goPc_only hm.sub (by assumption))
  · assumption

theorem execBarrier_only {s0 : State} {a0 a1 a2} (hm : Within [.die] m) :
    OnlyInN m (State.to s0 a0) (execBarrier a0 a1 a2 s0) := by
  unfold execBarrier
  refine onInstr_only hm.sub (fun _ _ _ => ?_)
  refine only_ite ?_ ?_
  · exact State.updRun_only hm.sub (State.goPc_only hm.sub (by assumption))
  · assumption

theorem execSetl_only {s0 : State} {a0 a1 a2 a3 a4} (hm : Within [.die] m) :
    OnlyInN m (State.to s0 a0) (execSetl a0 a1 a2 a3 a4 s0) := by
  unfold execSetl
  refine onInstr_only hm.sub (fun _ _ _ => ?_)
  exact State.updRun_only hm.sub (State.goPc_only hm.sub (by assumption))

theorem execTaskDjnz_only {s0 : State} {a0 a1 a2 a3 a4} (hm : Within [.die] m) :
    OnlyInN m (State.to s0 a0) (execTaskDjnz a0 a1 a2 a3 a4 s0) := by
  unfold execTaskDjnz
  refine onInstr_only hm.sub (fun _ _ _ => ?_)
  extract_lets -merge -underBinder +onlyGivenNames x1
  clear_value x1
  exact State.updRun_only hm.sub (State.goPc_only hm.sub (by assumption))

theorem execTaskJump_only {s0 : State} {a0 a1 a2 a3} (hm : Within [.die] m) :
    OnlyInN m (State.to s0 a0) (execTaskJump a0 a1 a2 a3 s0) := by
  unfold execTaskJump
  refine onInstr_only hm.sub (fun _ _ _ => ?_)
  refine only_ite ?_ ?_
  · exact State.finish_only hm.sub (by assumption)
  · exact State.goPc_only hm.sub (by assumption)

theorem execProgErr_only {s0 : State} {a0 a1 a2} (hm : Within [.die] m) :
    OnlyInN m (State.to s0 a0) (execProgErr a0 a1 a2 s0) := by
  unfold execProgErr
  refine onTask_only hm.sub (fun _ _ _ => ?_)
  extract_lets -merge -underBinder +onlyGivenNames x1
  clear_value x1
  refine only_ite ?_ ?_
  · exact State.finish_only hm.sub (by assumption)
  · assumption

theorem execTaskInstrLimit_only {s0 : State} {a0 a1 a2} (hm : Within [.die] m) :
    OnlyInN m (State.to s0 a0) (execTaskInstrLimit a0 a1 a2 s0) := by
  unfold execTaskInstrLimit
  refine onTask_only hm.sub (fun _ _ _ => ?_)
  refine only_ite ?_ ?_
  · exact State.finish_only hm.sub (by assumption)
  · assumption

theorem execDroopEvent_only {s0 : State} {a0 a1 a2} (hm : Within [.regs] m) :
    OnlyInN m (State.to s0 a0) (execDroopEvent a0 a1 a2 s0) := by
  unfold execDroopEvent
  extract_lets -merge -underBinder +onlyGivenNames x1
  have hx1 : OnlyIn m (State.to s0 a0) x1 := by
    subst x1
    exact OnlyIn.refl _ _
  clear_value x1
  refine guardNext_only ?_ (fun _ _ => ?_)
  · assumption
  · exact State.bump_only hm.sub (State.bump_only hm.sub (by assumption))

theorem execCoreHung_only {s0 : State} {a0 a1 a2}
    (hm : Within [.regs, .mem, .tn, .die, .stream, .kv, .mt, .bond, .line, .plumb, .power, .test, .sdio] m) :
    OnlyInN m (State.to s0 a0) (execCoreHung a0 a1 a2 s0) := by
  unfold execCoreHung
  refine onTask_only hm.sub (fun _ _ _ => ?_)
  refine only_ite ?_ ?_
  · exact State.coreFail_only hm.sub (by assumption)
  · assumption

theorem execSpareInDone_only {s0 : State} {a0 a1 a2}
    (hm : Within [.regs, .mem, .tn, .die, .stream, .kv, .mt, .bond, .line, .plumb, .power, .test, .sdio] m) :
    OnlyInN m (State.to s0 a0) (execSpareInDone a0 a1 a2 s0) := by
  unfold execSpareInDone
  extract_lets -merge -underBinder +onlyGivenNames x1
  have hx1 : OnlyIn m (State.to s0 a0) x1 := by
    subst x1
    exact OnlyIn.refl _ _
  clear_value x1
  split
  · exact onlyN_next (by assumption)
  · extract_lets -merge -underBinder +onlyGivenNames x2
    have hx2 : OnlyIn m (State.to s0 a0) x2 := by
      subst x2
      exact State.updSlot_only hm.sub (by assumption)
    clear_value x2
    exact onlyN_next (OnlyInL.fst (State.loadResident_only hm.sub (by assumption)))

theorem execFreqChanged_only {s0 : State} {a0} (hm : Within [.regs, .cycAt, .freq, .changing, .tn, .power, .sdio] m) :
    OnlyInN m (State.to s0 a0) (execFreqChanged a0 s0) := by
  unfold execFreqChanged
  extract_lets -merge -underBinder +onlyGivenNames x1
  have hx1 : OnlyIn m (State.to s0 a0) x1 := by
    subst x1
    exact OnlyIn.refl _ _
  clear_value x1
  split
  · exact onlyN_next (by assumption)
  · extract_lets -merge -underBinder +onlyGivenNames x2 x3
    clear_value x2
    have hx3 : OnlyIn m (State.to s0 a0) x3 := by
      subst x3
      exact onlyIn_of (l := [.cycAt, .freq, .changing, .power]) hm.sub (by assumption)
        (fun c hc => by cases c <;> first | rfl | exact absurd (by decide) hc)
    clear_value x3
    refine onlyN_next ?_
    refine State.each_only ?_ (fun _ _ _ => ?_)
    · assumption
    · exact State.raise_only hm.sub (by assumption)

theorem execShardMissing_only {s0 : State} {a0 a1 a2}
    (hm : Within [.regs, .mem, .tn, .die, .stream, .kv, .mt, .bond, .line, .plumb, .power, .test, .sdio] m) :
    OnlyInN m (State.to s0 a0) (execShardMissing a0 a1 a2 s0) := by
  unfold execShardMissing
  extract_lets -merge -underBinder +onlyGivenNames x1
  have hx1 : OnlyIn m (State.to s0 a0) x1 := by
    subst x1
    exact OnlyIn.refl _ _
  clear_value x1
  split
  · refine guardNext_only ?_ (fun _ _ => ?_)
    · assumption
    · exact State.readyRun_only hm.sub (State.updTask_only hm.sub (by assumption))
  · exact onlyN_next (by assumption)

end Sys2Proof.Machine
end

