-- ==== Sys2Proof/Laws/OnlyVector.lean ====
section
/-! SUPPORT. What the operations of Machine/Vector.lean may change (Laws/Only.lean). -/
namespace Sys2Proof.Machine
set_option Elab.async false

variable {m : List Block}

theorem State.vecSet_only {s0 s1 : State} {a1 a2 a3 a4} (hm : Within [.die] m) (hs1 : OnlyIn m s0 s1) :
    OnlyIn m s0 (State.vecSet s1 a1 a2 a3 a4) := by
  unfold State.vecSet
  exact State.updCore_only hm.sub (by assumption)

theorem State.vecEsc_only {s0 s1 : State} {a1 a2 a3 a4} (hm : Within [.die] m) (hs1 : OnlyIn m s0 s1) :
    OnlyIn m s0 (State.vecEsc s1 a1 a2 a3 a4) := by
  unfold State.vecEsc
  exact State.updCore_only hm.sub (by assumption)

theorem onVec_only {s0 : State} {a0 a1 a2 a3 a4 a6}
    (hm : Within [.die] m) (ha6 : ∀ y0 y1, OnlyIn m (State.to s0 a0) y0 → OnlyIn m (State.to s0 a0) (a6 y0 y1)) :
    OnlyInN m (State.to s0 a0) (onVec a0 a1 a2 a3 a4 s0 a6) := by
  unfold onVec
  refine onInstr_only hm.sub (fun _ _ _ => ?_)
  refine only_ite ?_ ?_
  · refine State.worked_only hm.sub ?_
    refine ha6 _ _ ?_
    exact State.goPc_only hm.sub (by assumption)
  · assumption

theorem vec2_only {s0 : State} {a0 a1 a2 a3 a4 a5 a6 a8} (hm : Within [.die] m) :
    OnlyInN m (State.to s0 a0) (vec2 a0 a1 a2 a3 a4 a5 a6 s0 a8) := by
  unfold vec2
  refine onVec_only hm.sub (fun _ _ _ => ?_)
  exact State.vecSet_only hm.sub (by assumption)

theorem vec1_only {s0 : State} {a0 a1 a2 a3 a4 a5 a7} (hm : Within [.die] m) :
    OnlyInN m (State.to s0 a0) (vec1 a0 a1 a2 a3 a4 a5 s0 a7) := by
  unfold vec1
  refine onVec_only hm.sub (fun _ _ _ => ?_)
  exact State.vecSet_only hm.sub (by assumption)

theorem execVecFadd_only {s0 : State} {a0 a1 a2 a3 a4 a5} (hm : Within [.die] m) :
    OnlyInN m (State.to s0 a0) (execVecFadd a0 a1 a2 a3 a4 a5 s0) := by
  unfold execVecFadd
  exact vec2_only hm.sub 

theorem execVecFmul_only {s0 : State} {a0 a1 a2 a3 a4 a5} (hm : Within [.die] m) :
    OnlyInN m (State.to s0 a0) (execVecFmul a0 a1 a2 a3 a4 a5 s0) := by
  unfold execVecFmul
  exact vec2_only hm.sub 

theorem execVecFfma_only {s0 : State} {a0 a1 a2 a3 a4 a5 a6} (hm : Within [.die] m) :
    OnlyInN m (State.to s0 a0) (execVecFfma a0 a1 a2 a3 a4 a5 a6 s0) := by
  unfold execVecFfma
  refine onVec_only hm.sub (fun _ _ _ => ?_)
  exact State.vecSet_only hm.sub (by assumption)

theorem execVecFmax_only {s0 : State} {a0 a1 a2 a3 a4 a5} (hm : Within [.die] m) :
    OnlyInN m (State.to s0 a0) (execVecFmax a0 a1 a2 a3 a4 a5 s0) := by
  unfold execVecFmax
  exact vec2_only hm.sub 

theorem execVecFmin_only {s0 : State} {a0 a1 a2 a3 a4 a5} (hm : Within [.die] m) :
    OnlyInN m (State.to s0 a0) (execVecFmin a0 a1 a2 a3 a4 a5 s0) := by
  unfold execVecFmin
  exact vec2_only hm.sub 

theorem execFcmp_only {s0 : State} {a0 a1 a2 a3 a4 a5} (hm : Within [.die] m) :
    OnlyInN m (State.to s0 a0) (execFcmp a0 a1 a2 a3 a4 a5 s0) := by
  unfold execFcmp
  exact vec2_only hm.sub 

theorem execIadd_only {s0 : State} {a0 a1 a2 a3 a4 a5} (hm : Within [.die] m) :
    OnlyInN m (State.to s0 a0) (execIadd a0 a1 a2 a3 a4 a5 s0) := by
  unfold execIadd
  exact vec2_only hm.sub 

theorem execImul_only {s0 : State} {a0 a1 a2 a3 a4 a5} (hm : Within [.die] m) :
    OnlyInN m (State.to s0 a0) (execImul a0 a1 a2 a3 a4 a5 s0) := by
  unfold execImul
  exact vec2_only hm.sub 

theorem execIshl_only {s0 : State} {a0 a1 a2 a3 a4 a5} (hm : Within [.die] m) :
    OnlyInN m (State.to s0 a0) (execIshl a0 a1 a2 a3 a4 a5 s0) := by
  unfold execIshl
  exact vec2_only hm.sub 

theorem execIshr_only {s0 : State} {a0 a1 a2 a3 a4 a5} (hm : Within [.die] m) :
    OnlyInN m (State.to s0 a0) (execIshr a0 a1 a2 a3 a4 a5 s0) := by
  unfold execIshr
  exact vec2_only hm.sub 

theorem execIand_only {s0 : State} {a0 a1 a2 a3 a4 a5} (hm : Within [.die] m) :
    OnlyInN m (State.to s0 a0) (execIand a0 a1 a2 a3 a4 a5 s0) := by
  unfold execIand
  exact vec2_only hm.sub 

theorem execIor_only {s0 : State} {a0 a1 a2 a3 a4 a5} (hm : Within [.die] m) :
    OnlyInN m (State.to s0 a0) (execIor a0 a1 a2 a3 a4 a5 s0) := by
  unfold execIor
  exact vec2_only hm.sub 

theorem execIxor_only {s0 : State} {a0 a1 a2 a3 a4 a5} (hm : Within [.die] m) :
    OnlyInN m (State.to s0 a0) (execIxor a0 a1 a2 a3 a4 a5 s0) := by
  unfold execIxor
  exact vec2_only hm.sub 

theorem execIcmp_only {s0 : State} {a0 a1 a2 a3 a4 a5} (hm : Within [.die] m) :
    OnlyInN m (State.to s0 a0) (execIcmp a0 a1 a2 a3 a4 a5 s0) := by
  unfold execIcmp
  exact vec2_only hm.sub 

theorem execIclamp_only {s0 : State} {a0 a1 a2 a3 a4 a5 a6} (hm : Within [.die] m) :
    OnlyInN m (State.to s0 a0) (execIclamp a0 a1 a2 a3 a4 a5 a6 s0) := by
  unfold execIclamp
  refine onVec_only hm.sub (fun _ _ _ => ?_)
  exact State.vecSet_only hm.sub (by assumption)

theorem execRescale_only {s0 : State} {a0 a1 a2 a3 a4 a5 a6} (hm : Within [.die] m) :
    OnlyInN m (State.to s0 a0) (execRescale a0 a1 a2 a3 a4 a5 a6 s0) := by
  unfold execRescale
  refine onVec_only hm.sub (fun _ _ _ => ?_)
  split
  · extract_lets -merge -underBinder +onlyGivenNames x1 x2
    clear_value x1
    have hx2 : OnlyIn m (State.to s0 a0) x2 := by
      subst x2
      exact State.count_only hm.sub (by assumption)
    clear_value x2
    exact State.vecEsc_only hm.sub (State.vecSet_only hm.sub (by assumption))
  · exact State.finish_only hm.sub (by assumption)
  · exact State.finish_only hm.sub (by assumption)

theorem execCvt_only {s0 : State} {a0 a1 a2 a3 a4 a5} (hm : Within [.die] m) :
    OnlyInN m (State.to s0 a0) (execCvt a0 a1 a2 a3 a4 a5 s0) := by
  unfold execCvt
  refine onVec_only hm.sub (fun _ _ _ => ?_)
  split
  · extract_lets -merge -underBinder +onlyGivenNames x1
    clear_value x1
    exact State.vecEsc_only hm.sub (State.vecSet_only hm.sub (State.count_only hm.sub (by assumption)))
  · exact State.finish_only hm.sub (by assumption)

theorem execExp_only {s0 : State} {a0 a1 a2 a3 a4} (hm : Within [.die] m) :
    OnlyInN m (State.to s0 a0) (execExp a0 a1 a2 a3 a4 s0) := by
  unfold execExp
  exact vec1_only hm.sub 

theorem execVecRecip_only {s0 : State} {a0 a1 a2 a3 a4} (hm : Within [.die] m) :
    OnlyInN m (State.to s0 a0) (execVecRecip a0 a1 a2 a3 a4 s0) := by
  unfold execVecRecip
  exact vec1_only hm.sub 

theorem execVecRsqrt_only {s0 : State} {a0 a1 a2 a3 a4} (hm : Within [.die] m) :
    OnlyInN m (State.to s0 a0) (execVecRsqrt a0 a1 a2 a3 a4 s0) := by
  unfold execVecRsqrt
  exact vec1_only hm.sub 

theorem execSigm_only {s0 : State} {a0 a1 a2 a3 a4} (hm : Within [.die] m) :
    OnlyInN m (State.to s0 a0) (execSigm a0 a1 a2 a3 a4 s0) := by
  unfold execSigm
  exact vec1_only hm.sub 

theorem execVecTanh_only {s0 : State} {a0 a1 a2 a3 a4} (hm : Within [.die] m) :
    OnlyInN m (State.to s0 a0) (execVecTanh a0 a1 a2 a3 a4 s0) := by
  unfold execVecTanh
  exact vec1_only hm.sub 

theorem execVld_only {s0 : State} {a0 a1 a2 a3 a4 a5}
    (hm : Within [.regs, .mem, .fresh, .tn, .die, .stream, .kv, .mt, .bond, .line, .plumb, .power, .test, .sdio] m) :
    OnlyInN m (State.to s0 a0) (execVld a0 a1 a2 a3 a4 a5 s0) := by
  unfold execVld
  refine onVec_only hm.sub (fun _ _ _ => ?_)
  split
  · exact State.finish_only hm.sub (by assumption)
  · refine only_ite ?_ ?_
    · exact State.finish_only hm.sub (by assumption)
    · extract_lets -merge -underBinder +onlyGivenNames x1
      have hx1 : OnlyIn m (State.to s0 a0) x1 := by
        subst x1
        exact State.csReads_only hm.sub (by assumption)
      clear_value x1
      refine only_ite ?_ ?_
      · assumption
      · split
        · refine OnlyInL.of_eq (m := m) (a := (State.to s0 a0)) (by assumption) ?_ (fun _ => ?_)
          · exact State.mixView_only hm.sub (by assumption)
          exact State.vecSet_only hm.sub (State.mixBack_only hm.sub (by assumption))

theorem execVst_only {s0 : State} {a0 a1 a2 a3 a4 a5} (hm : Within [.mem, .die, .mt] m) :
    OnlyInN m (State.to s0 a0) (execVst a0 a1 a2 a3 a4 a5 s0) := by
  unfold execVst
  refine onVec_only hm.sub (fun _ _ _ => ?_)
  split
  · exact State.finish_only hm.sub (by assumption)
  · refine only_ite ?_ ?_
    · exact State.finish_only hm.sub (by assumption)
    · extract_lets -merge -underBinder +onlyGivenNames x1 x2
      clear_value x1
      have hx2 : OnlyIn m (State.to s0 a0) x2 := by
        subst x2
        exact State.count_only hm.sub (by assumption)
      clear_value x2
      refine State.each_only ?_ (fun _ _ _ => ?_)
      · assumption
      · extract_lets -merge -underBinder +onlyGivenNames x3
        clear_value x3
        split
        · exact State.putElem_only hm.sub (by assumption)
        · extract_lets -merge -underBinder +onlyGivenNames x4 x5
          clear_value x4 x5
          refine only_ite ?_ ?_
          · exact State.sideAdd_only hm.sub (State.putElem_only hm.sub (by assumption))
          · exact State.putElem_only hm.sub (State.count_only hm.sub (by assumption))

theorem execVbcast_only {s0 : State} {a0 a1 a2 a3 a4} (hm : Within [.die] m) :
    OnlyInN m (State.to s0 a0) (execVbcast a0 a1 a2 a3 a4 s0) := by
  unfold execVbcast
  refine onVec_only hm.sub (fun _ _ _ => ?_)
  exact State.vecSet_only hm.sub (by assumption)

theorem execVrmax_only {s0 : State} {a0 a1 a2 a3 a4} (hm : Within [.die] m) :
    OnlyInN m (State.to s0 a0) (execVrmax a0 a1 a2 a3 a4 s0) := by
  unfold execVrmax
  refine onVec_only hm.sub (fun _ _ _ => ?_)
  exact State.vecSet_only hm.sub (by assumption)

theorem execVrsum_only {s0 : State} {a0 a1 a2 a3 a4} (hm : Within [.die] m) :
    OnlyInN m (State.to s0 a0) (execVrsum a0 a1 a2 a3 a4 s0) := by
  unfold execVrsum
  refine onVec_only hm.sub (fun _ _ _ => ?_)
  exact State.vecSet_only hm.sub (by assumption)

theorem execIlane_only {s0 : State} {a0 a1 a2 a3} (hm : Within [.die] m) :
    OnlyInN m (State.to s0 a0) (execIlane a0 a1 a2 a3 s0) := by
  unfold execIlane
  refine onVec_only hm.sub (fun _ _ _ => ?_)
  exact State.vecSet_only hm.sub (by assumption)

end Sys2Proof.Machine
end

