-- ==== Sys2Proof/Laws/OnlyImageOps.lean ====
section
/-! SUPPORT. What the operations of Machine/ImageOps.lean may change (Laws/Only.lean). -/
namespace Sys2Proof.Machine
set_option Elab.async false

variable {m : List Block}

theorem State.putElemOut_only {s0 s1 : State} {a1 a2 a3 a4 a5 a6 a7}
    (hm : Within [.mem, .die, .mt] m) (hs1 : OnlyIn m s0 s1) :
    OnlyIn m s0 (State.putElemOut s1 a1 a2 a3 a4 a5 a6 a7) := by
  unfold State.putElemOut
  refine State.putOut_only hm.sub ?_
  refine only_ite ?_ ?_
  · exact State.count_only hm.sub (by assumption)
  · assumption

theorem State.padPix_only {s0 s1 : State} {a1 a2 a3 a4 a5} (hm : Within [.mem, .mt] m) (hs1 : OnlyIn m s0 s1) :
    OnlyIn m s0 (State.padPix s1 a1 a2 a3 a4 a5) := by
  unfold State.padPix
  refine State.each_only ?_ (fun _ _ _ => ?_)
  · assumption
  · exact State.putElem_only hm.sub (by assumption)

theorem State.convFill_only {s0 s1 : State} {a1 a2 a3 a4} (hm : Within [.die] m) (hs1 : OnlyIn m s0 s1) :
    OnlyIn m s0 (State.convFill s1 a1 a2 a3 a4) := by
  unfold State.convFill
  split
  · assumption
  · extract_lets -merge -underBinder +onlyGivenNames x1
    clear_value x1
    split
    · assumption
    · split
      · split
        · exact State.finish_only hm.sub (by assumption)
        · split
          · exact State.convFill_only hm.sub (State.updCore_only hm.sub (by assumption))
          · exact State.convFill_only hm.sub (State.moves_only hm.sub (State.updCore_only hm.sub (by assumption)))
      · assumption

theorem State.convRun_only {s0 s1 : State} {a1 a2 a3 a4} (hm : Within [.regs, .mem, .die, .mt] m) (hs1 : OnlyIn m s0 s1) :
    OnlyIn m s0 (State.convRun s1 a1 a2 a3 a4) := by
  unfold State.convRun
  extract_lets -merge -underBinder +onlyGivenNames x1 x2 x3 x4 x5 x6 x7 x8
  clear_value x1 x2 x3 x4 x5 x6 x7
  have hx8 : OnlyIn m s0 x8 := by
    subst x8
    exact State.count_only hm.sub (by assumption)
  clear_value x8
  extract_lets -merge -underBinder +onlyGivenNames x9
  have hx9 : OnlyIn m s0 x9 := by
    subst x9
    exact State.sideClear_only hm.sub (by assumption)
  clear_value x9
  extract_lets -merge -underBinder +onlyGivenNames x10 x11
  clear_value x10
  have hx11 : OnlyIn m s0 x11 := by
    subst x11
    exact State.bump_only hm.sub (State.updCore_only hm.sub (by assumption))
  clear_value x11
  exact State.convFill_only hm.sub (by assumption)

theorem State.convOp_only {s0 s1 : State} {a1 a2 a3 a4} (hm : Within [.regs, .mem, .die, .mt] m) (hs1 : OnlyIn m s0 s1) :
    OnlyInD m s0 (State.convOp s1 a1 a2 a3 a4) := by
  unfold State.convOp
  refine onlyD_bind (fun _ => ?_)
  extract_lets -merge -underBinder +onlyGivenNames x1
  clear_value x1
  refine onlyD_mk (fun _ _ => ?_)
  refine only_ite ?_ ?_
  · assumption
  · exact State.convRun_only hm.sub (by assumption)

theorem execConv_only {s0 : State} {a0 a1 a2 a3}
    (hm : Within [.regs, .mem, .fresh, .tn, .die, .stream, .kv, .mt, .bond, .line, .plumb, .power, .test, .sdio] m) :
    OnlyInN m (State.to s0 a0) (execConv a0 a1 a2 a3 s0) := by
  unfold execConv
  refine onTask_only hm.sub (fun _ _ _ => ?_)
  refine State.operate_only hm.sub ?_ (fun _ _ _ => ?_)
  · assumption
  · exact State.convOp_only hm.sub (by assumption)

theorem State.drainBlock_only {s0 s1 : State} {a1 a2 a3 a4}
    (hm : Within [.regs, .mem, .fresh, .tn, .die, .stream, .kv, .mt, .bond, .line, .plumb, .power, .test, .sdio] m) (hs1 : OnlyIn m s0 s1) :
    OnlyIn m s0 (State.drainBlock s1 a1 a2 a3 a4) := by
  unfold State.drainBlock
  split
  · exact State.finish_only hm.sub (by assumption)
  · extract_lets -merge -underBinder +onlyGivenNames x1 x2 x3 x4
    clear_value x1 x2 x3
    have hx4 : OnlyIn m s0 x4 := by
      subst x4
      exact State.csReads_only hm.sub (by assumption)
    clear_value x4
    extract_lets -merge -underBinder +onlyGivenNames x5
    have hx5 : OnlyIn m s0 x5 := by
      subst x5
      refine State.each_only ?_ (fun _ _ _ => ?_)
      · assumption
      · split
        · split
          · extract_lets -merge -underBinder +onlyGivenNames x6 x7 x8 x9
            clear_value x6 x7 x8
            have hx9 : OnlyIn m s0 x9 := by
              subst x9
              exact State.putElemOut_only hm.sub (by assumption)
            clear_value x9
            refine only_ite ?_ ?_
            · exact State.padPix_only hm.sub (by assumption)
            · assumption
    clear_value x5
    refine State.each_only ?_ (fun _ _ _ => ?_)
    · assumption
    · split
      · split
        · split
          · refine OnlyInL.of_eq (m := m) (a := s0) (by assumption) ?_ (fun _ => ?_)
            · refine onlyL_ite ?_ ?_
              · exact onlyL_mk (State.drew_only hm.sub (by assumption))
              · exact onlyL_mk (by assumption)
            extract_lets -merge -underBinder +onlyGivenNames x10
            have hx10 : OnlyIn m s0 x10 := by
              subst x10
              exact State.putElemOut_only hm.sub (by assumption)
            clear_value x10
            refine only_ite ?_ ?_
            · exact State.padPix_only hm.sub (by assumption)
            · assumption

theorem execBlockDrain_only {s0 : State} {a0 a1 a2}
    (hm : Within [.regs, .mem, .fresh, .tn, .die, .stream, .kv, .mt, .bond, .line, .plumb, .power, .test, .sdio] m) :
    OnlyInN m (State.to s0 a0) (execBlockDrain a0 a1 a2 s0) := by
  unfold execBlockDrain
  refine onTask_only hm.sub (fun _ _ _ => ?_)
  split
  · assumption
  · extract_lets -merge -underBinder +onlyGivenNames x1
    have hx1 : OnlyIn m (State.to s0 a0) x1 := by
      subst x1
      exact State.moves_only hm.sub (State.drainBlock_only hm.sub (State.updCore_only hm.sub (by assumption)))
    clear_value x1
    exact State.convFill_only hm.sub (by assumption)

theorem State.dwRun_only {s0 s1 : State} {a1 a2 a3 a4} (hm : Within [.mem, .die, .mt] m) (hs1 : OnlyIn m s0 s1) :
    OnlyIn m s0 (State.dwRun s1 a1 a2 a3 a4) := by
  unfold State.dwRun
  extract_lets -merge -underBinder +onlyGivenNames x1 x2 x3 x4 x5 x6
  clear_value x1 x2 x3 x4 x5
  have hx6 : OnlyIn m s0 x6 := by
    subst x6
    exact State.sideClear_only hm.sub (State.count_only hm.sub (by assumption))
  clear_value x6
  refine State.each_only ?_ (fun _ _ _ => ?_)
  · assumption
  · split
    · refine State.padPix_only hm.sub ?_
      refine State.each_only ?_ (fun _ _ _ => ?_)
      · assumption
      · split
        · exact State.putElemOut_only hm.sub (by assumption)

theorem State.dwOp_only {s0 s1 : State} {a1 a2 a3 a4} (hm : Within [.mem, .die, .mt] m) (hs1 : OnlyIn m s0 s1) :
    OnlyInD m s0 (State.dwOp s1 a1 a2 a3 a4) := by
  unfold State.dwOp
  refine onlyD_bind (fun _ => ?_)
  refine onlyD_mk (fun _ _ => ?_)
  refine only_ite ?_ ?_
  · assumption
  · exact State.dwRun_only hm.sub (by assumption)

theorem execDwconv_only {s0 : State} {a0 a1 a2 a3}
    (hm : Within [.regs, .mem, .fresh, .tn, .die, .stream, .kv, .mt, .bond, .line, .plumb, .power, .test, .sdio] m) :
    OnlyInN m (State.to s0 a0) (execDwconv a0 a1 a2 a3 s0) := by
  unfold execDwconv
  refine onTask_only hm.sub (fun _ _ _ => ?_)
  refine State.operate_only hm.sub ?_ (fun _ _ _ => ?_)
  · assumption
  · exact State.dwOp_only hm.sub (by assumption)

theorem State.poolRun_only {s0 s1 : State} {a1 a2 a3 a4} (hm : Within [.mem, .die, .mt] m) (hs1 : OnlyIn m s0 s1) :
    OnlyIn m s0 (State.poolRun s1 a1 a2 a3 a4) := by
  unfold State.poolRun
  extract_lets -merge -underBinder +onlyGivenNames x1 x2 x3 x4 x5
  clear_value x1 x2 x3 x4
  have hx5 : OnlyIn m s0 x5 := by
    subst x5
    exact State.sideClear_only hm.sub (State.count_only hm.sub (by assumption))
  clear_value x5
  refine State.each_only ?_ (fun _ _ _ => ?_)
  · assumption
  · split
    · refine State.padPix_only hm.sub ?_
      refine State.each_only ?_ (fun _ _ _ => ?_)
      · assumption
      · split
        · exact State.putElemOut_only hm.sub (by assumption)

theorem State.poolOp_only {s0 s1 : State} {a1 a2 a3 a4} (hm : Within [.mem, .die, .mt] m) (hs1 : OnlyIn m s0 s1) :
    OnlyInD m s0 (State.poolOp s1 a1 a2 a3 a4) := by
  unfold State.poolOp
  refine onlyD_bind (fun _ => ?_)
  refine onlyD_mk (fun _ _ => ?_)
  refine only_ite ?_ ?_
  · assumption
  · exact State.poolRun_only hm.sub (by assumption)

theorem execPool_only {s0 : State} {a0 a1 a2 a3}
    (hm : Within [.regs, .mem, .fresh, .tn, .die, .stream, .kv, .mt, .bond, .line, .plumb, .power, .test, .sdio] m) :
    OnlyInN m (State.to s0 a0) (execPool a0 a1 a2 a3 s0) := by
  unfold execPool
  refine onTask_only hm.sub (fun _ _ _ => ?_)
  refine State.operate_only hm.sub ?_ (fun _ _ _ => ?_)
  · assumption
  · exact State.poolOp_only hm.sub (by assumption)

theorem State.boxOp_only {s0 s1 : State} {a1 a2 a3 a4} (hm : Within [.mem, .die, .mt] m) (hs1 : OnlyIn m s0 s1) :
    OnlyInD m s0 (State.boxOp s1 a1 a2 a3 a4) := by
  unfold State.boxOp
  extract_lets -merge -underBinder +onlyGivenNames x1 x2 x3
  clear_value x1 x2 x3
  refine onlyD_bind (fun _ => ?_)
  refine onlyD_bind (fun _ => ?_)
  refine onlyD_bind (fun _ => ?_)
  extract_lets -merge -underBinder +onlyGivenNames x4
  clear_value x4
  refine onlyD_bind (fun _ => ?_)
  refine onlyD_bind (fun _ => ?_)
  extract_lets -merge -underBinder +onlyGivenNames x5 x6 x7 x8 x9 x10
  clear_value x5 x6 x7 x8 x9 x10
  refine onlyD_mk (fun _ _ => ?_)
  refine only_ite ?_ ?_
  · exact State.csSt_only hm.sub (by assumption)
  · extract_lets -merge -underBinder +onlyGivenNames x11 x12 x13
    clear_value x11 x12
    have hx13 : OnlyIn m s0 x13 := by
      subst x13
      exact State.count_only hm.sub (by assumption)
    clear_value x13
    extract_lets -merge -underBinder +onlyGivenNames x14 x15 x16
    clear_value x14 x15 x16
    exact State.csSt_only hm.sub (by assumption)

theorem execBoxDecode_only {s0 : State} {a0 a1 a2 a3}
    (hm : Within [.regs, .mem, .fresh, .tn, .die, .stream, .kv, .mt, .bond, .line, .plumb, .power, .test, .sdio] m) :
    OnlyInN m (State.to s0 a0) (execBoxDecode a0 a1 a2 a3 s0) := by
  unfold execBoxDecode
  refine onTask_only hm.sub (fun _ _ _ => ?_)
  refine State.operate_only hm.sub ?_ (fun _ _ _ => ?_)
  · assumption
  · exact State.boxOp_only hm.sub (by assumption)

theorem State.suppressOp_only {s0 s1 : State} {a1 a2 a3 a4} (hm : Within [.mem, .mt] m) (hs1 : OnlyIn m s0 s1) :
    OnlyInD m s0 (State.suppressOp s1 a1 a2 a3 a4) := by
  unfold State.suppressOp
  extract_lets -merge -underBinder +onlyGivenNames x1 x2 x3 x4
  clear_value x1 x2 x3 x4
  refine onlyD_bind (fun _ => ?_)
  refine onlyD_bind (fun _ => ?_)
  extract_lets -merge -underBinder +onlyGivenNames x5 x6
  clear_value x5 x6
  refine onlyD_mk (fun _ _ => ?_)
  refine only_ite ?_ ?_
  · exact State.csSt_only hm.sub (by assumption)
  · extract_lets -merge -underBinder +onlyGivenNames x7 x8 x9 x10
    clear_value x7 x8 x9 x10
    exact State.csSt_only hm.sub (by assumption)

theorem execSuppress_only {s0 : State} {a0 a1 a2 a3}
    (hm : Within [.regs, .mem, .fresh, .tn, .die, .stream, .kv, .mt, .bond, .line, .plumb, .power, .test, .sdio] m) :
    OnlyInN m (State.to s0 a0) (execSuppress a0 a1 a2 a3 s0) := by
  unfold execSuppress
  refine onTask_only hm.sub (fun _ _ _ => ?_)
  refine State.operate_only hm.sub ?_ (fun _ _ _ => ?_)
  · assumption
  · exact State.suppressOp_only hm.sub (by assumption)

theorem State.ringExpired_only {s0 s1 : State} {a1 a2} (hm : Within [.regs, .tn, .bond, .sdio] m) (hs1 : OnlyIn m s0 s1) :
    OnlyIn m s0 (State.ringExpired s1 a1 a2) := by
  unfold State.ringExpired
  extract_lets -merge -underBinder +onlyGivenNames x1
  have hx1 : OnlyIn m s0 x1 := by
    subst x1
    exact State.raise_only hm.sub (by assumption)
  clear_value x1
  split
  · exact State.coverTile_only hm.sub (by assumption)
  · assumption

theorem State.cropOp_only {s0 s1 : State} {a1 a2 a3 a4}
    (hm : Within [.regs, .mem, .tn, .die, .stream, .kv, .mt, .bond, .line, .plumb, .power, .test, .sdio] m) (hs1 : OnlyIn m s0 s1) :
    OnlyInD m s0 (State.cropOp s1 a1 a2 a3 a4) := by
  unfold State.cropOp
  extract_lets -merge -underBinder +onlyGivenNames x1 x2 x3 x4
  clear_value x1 x2 x3 x4
  refine onlyD_bind (fun _ => ?_)
  refine onlyD_bind (fun _ => ?_)
  refine onlyD_bind (fun _ => ?_)
  extract_lets -merge -underBinder +onlyGivenNames x5
  clear_value x5
  refine onlyD_mk (fun _ _ => ?_)
  refine only_ite ?_ ?_
  · assumption
  · refine State.each_only ?_ (fun _ _ _ => ?_)
    · assumption
    · extract_lets -merge -underBinder +onlyGivenNames x6 x7 x8 x9 x10
      clear_value x6 x7 x8 x9 x10
      split
      · refine OnlyInL.of_eq (m := m) (a := s0) (by assumption) ?_ (fun _ => ?_)
        · refine onlyL_foldl (fun _ _ _ => ?_) ?_
          · split
            · refine OnlyInL.of_eq (m := m) (a := s0) (by assumption) ?_ (fun _ => ?_)
              · refine State.eccRead_only hm.sub ?_
                exact OnlyInL.fst (by assumption)
              exact onlyL_mk (by assumption)
          · exact onlyL_mk (by assumption)
        refine only_ite ?_ ?_
        · exact State.finish_only hm.sub (by assumption)
        · extract_lets -merge -underBinder +onlyGivenNames x11 x12 x13 x14
          clear_value x11 x12 x13
          have hx14 : OnlyIn m s0 x14 := by
            subst x14
            exact State.csSt_only hm.sub (by assumption)
          clear_value x14
          extract_lets -merge -underBinder +onlyGivenNames x15
          have hx15 : OnlyIn m s0 x15 := by
            subst x15
            refine only_ite ?_ ?_
            · exact State.ringExpired_only hm.sub (by assumption)
            · assumption
          clear_value x15
          refine State.each_only ?_ (fun _ _ _ => ?_)
          · assumption
          · split
            · exact State.csSt_only hm.sub (by assumption)

theorem execCropResize_only {s0 : State} {a0 a1 a2 a3}
    (hm : Within [.regs, .mem, .fresh, .tn, .die, .stream, .kv, .mt, .bond, .line, .plumb, .power, .test, .sdio] m) :
    OnlyInN m (State.to s0 a0) (execCropResize a0 a1 a2 a3 s0) := by
  unfold execCropResize
  refine onTask_only hm.sub (fun _ _ _ => ?_)
  refine State.operate_only hm.sub ?_ (fun _ _ _ => ?_)
  · assumption
  · exact State.cropOp_only hm.sub (by assumption)

end Sys2Proof.Machine
end

