-- ==== Sys2Proof/Laws/OnlyTileMover.lean ====
section
/-! SUPPORT. What the operations of Machine/TileMover.lean may change (Laws/Only.lean). -/
namespace Sys2Proof.Machine
set_option Elab.async false

variable {m : List Block}

theorem State.moved_only {s0 s1 : State} {a1 a2 a3 a4 a5} (hm : Within [.bond] m) (hs1 : OnlyIn m s0 s1) :
    OnlyIn m s0 (State.moved s1 a1 a2 a3 a4 a5) := by
  unfold State.moved
  extract_lets -merge -underBinder +onlyGivenNames x1
  clear_value x1
  split
  · assumption
  · exact State.updAccount_only hm.sub (by assumption)
  · refine State.each_only ?_ (fun _ _ _ => ?_)
    · assumption
    · extract_lets -merge -underBinder +onlyGivenNames x2 x3
      clear_value x2
      have hx3 : OnlyIn m s0 x3 := by
        subst x3
        exact State.updAccount_only hm.sub (by assumption)
      clear_value x3
      refine only_ite ?_ ?_
      · assumption
      · exact State.updAccount_only hm.sub (by assumption)

theorem State.lostSeen_only {s0 s1 : State} {a1 a2 a3} (hm : Within [.mem, .mt] m) (hs1 : OnlyIn m s0 s1) :
    OnlyInL m s0 (State.lostSeen s1 a1 a2 a3) := by
  unfold State.lostSeen
  extract_lets -merge -underBinder +onlyGivenNames x1
  clear_value x1
  refine onlyL_ite ?_ ?_
  · exact onlyL_mk (State.markLost_only hm.sub (by assumption))
  · exact onlyL_mk (by assumption)

theorem State.spRead_only {s0 s1 : State} {a1 a2 a3 a4 a5 a6}
    (hm : Within [.regs, .mem, .tn, .die, .stream, .kv, .mt, .bond, .line, .plumb, .power, .test, .sdio] m) (hs1 : OnlyIn m s0 s1) :
    OnlyInL m s0 (State.spRead s1 a1 a2 a3 a4 a5 a6) := by
  unfold State.spRead
  refine onlyL_ite ?_ ?_
  · exact onlyL_mk (by assumption)
  · extract_lets -merge -underBinder +onlyGivenNames x1
    have hx1 : OnlyIn m s0 x1 := by
      subst x1
      exact State.moved_only hm.sub (by assumption)
    clear_value x1
    split
    · extract_lets -merge -underBinder +onlyGivenNames x2
      have hx2 : OnlyIn m s0 x2 := by
        subst x2
        exact State.csReads_only hm.sub (by assumption)
      clear_value x2
      exact onlyL_mk (by assumption)
    · split
      · refine OnlyInL.of_eq (m := m) (a := s0) (by assumption) ?_ (fun _ => ?_)
        · exact State.eccRead_only hm.sub (by assumption)
        exact onlyL_mk (by assumption)
    · split
      · refine OnlyInL.of_eq (m := m) (a := s0) (by assumption) ?_ (fun _ => ?_)
        · exact State.tierRead_only hm.sub (by assumption)
        exact onlyL_mk (by assumption)
      · refine OnlyInL.of_eq (m := m) (a := s0) (by assumption) ?_ (fun _ => ?_)
        · exact State.tierRead_only hm.sub (by assumption)
        split
        · refine OnlyInL.of_eq (m := m) (a := s0) (by assumption) ?_ (fun _ => ?_)
          · exact State.lostSeen_only hm.sub (by assumption)
          exact onlyL_mk (by assumption)

theorem State.spWrite_only {s0 s1 : State} {a1 a2 a3 a4 a5 a6}
    (hm : Within [.regs, .mem, .tn, .die, .stream, .kv, .mt, .bond, .line, .plumb, .power, .test, .sdio] m) (hs1 : OnlyIn m s0 s1) :
    OnlyInL m s0 (State.spWrite s1 a1 a2 a3 a4 a5 a6) := by
  unfold State.spWrite
  refine onlyL_ite ?_ ?_
  · exact onlyL_mk (by assumption)
  · extract_lets -merge -underBinder +onlyGivenNames x1
    have hx1 : OnlyIn m s0 x1 := by
      subst x1
      exact State.moved_only hm.sub (by assumption)
    clear_value x1
    split
    · exact onlyL_mk (State.csSt_only hm.sub (by assumption))
    · exact onlyL_mk (State.stBytes_only hm.sub (by assumption))
    · exact State.tierWrite_only hm.sub (by assumption)

theorem mvEach_only {α : Type} {s0 s1 : State} {a2 : List α} {a3 : State → α → State × Option TaskOut} (_hm : Within [] m)
    (hs1 : OnlyIn m s0 s1) (ha3 : ∀ y0 y1, OnlyIn m s0 y0 → OnlyInL m s0 (a3 y0 y1)) : OnlyInL m s0 (mvEach s1 a2 a3) := by
  unfold mvEach
  refine onlyL_foldl (fun _ _ _ => ?_) ?_
  · split
    · assumption
    · refine ha3 _ _ ?_
      exact OnlyInL.fst (by assumption)
  · exact onlyL_mk (by assumption)

theorem mvThen_only {s0 : State} {a0 a1}
    (_hm : Within [] m) (ha0 : OnlyInL m s0 a0) (ha1 : ∀ y0 y1, OnlyIn m s0 y0 → OnlyInL m s0 (a1 y0 y1)) :
    OnlyInL m s0 (mvThen a0 a1) := by
  unfold mvThen
  split
  · refine ha1 _ _ ?_
    assumption
  · exact onlyL_mk (by assumption)

theorem State.unlessOld_only {s0 s1 : State} {a1 a2 a3}
    (hm : Within [.regs, .tn, .bond, .sdio] m) (hs1 : OnlyIn m s0 s1) (ha3 : ∀ y0, OnlyIn m s0 y0 → OnlyInL m s0 (a3 y0)) :
    OnlyInL m s0 (State.unlessOld s1 a1 a2 a3) := by
  unfold State.unlessOld
  refine onlyL_ite ?_ ?_
  · exact onlyL_mk (State.ringExpired_only hm.sub (by assumption))
  · refine ha3 _ ?_
    assumption

theorem State.putTile_only {s0 s1 : State} {a1 a2 a3 a4 a5 a6 a7}
    (hm : Within [.regs, .mem, .tn, .die, .stream, .kv, .mt, .bond, .line, .plumb, .power, .test, .sdio] m) (hs1 : OnlyIn m s0 s1) :
    OnlyInL m s0 (State.putTile s1 a1 a2 a3 a4 a5 a6 a7) := by
  unfold State.putTile
  refine onlyL_ite ?_ ?_
  · split
    · split
      · refine OnlyInL.of_eq (m := m) (a := s0) (by assumption) ?_ (fun _ => ?_)
        · exact State.spWrite_only hm.sub (by assumption)
        exact onlyL_mk (by assumption)
      · refine OnlyInL.of_eq (m := m) (a := s0) (by assumption) ?_ (fun _ => ?_)
        · exact State.spWrite_only hm.sub (by assumption)
        exact State.spWrite_only hm.sub (by assumption)
  · exact State.spWrite_only hm.sub (by assumption)

theorem State.getTile_only {s0 s1 : State} {a1 a2 a3 a4 a5 a6}
    (hm : Within [.regs, .mem, .tn, .die, .stream, .kv, .mt, .bond, .line, .plumb, .power, .test, .sdio] m) (hs1 : OnlyIn m s0 s1) :
    OnlyInL m s0 (State.getTile s1 a1 a2 a3 a4 a5 a6) := by
  unfold State.getTile
  refine onlyL_ite ?_ ?_
  · split
    · refine OnlyInL.of_eq (m := m) (a := s0) (by assumption) ?_ (fun _ => ?_)
      · exact State.spRead_only hm.sub (by assumption)
      exact onlyL_mk (by assumption)
    · refine OnlyInL.of_eq (m := m) (a := s0) (by assumption) ?_ (fun _ => ?_)
      · exact State.spRead_only hm.sub (by assumption)
      extract_lets -merge -underBinder +onlyGivenNames x1
      clear_value x1
      split
      · refine OnlyInL.of_eq (m := m) (a := s0) (by assumption) ?_ (fun _ => ?_)
        · exact State.spRead_only hm.sub (by assumption)
        exact onlyL_mk (by assumption)
      · refine OnlyInL.of_eq (m := m) (a := s0) (by assumption) ?_ (fun _ => ?_)
        · exact State.spRead_only hm.sub (by assumption)
        exact onlyL_mk (by assumption)
  · exact State.spRead_only hm.sub (by assumption)

theorem State.copyTile_only {s0 s1 : State} {a1 a2 a3 a4 a5 a6}
    (hm : Within [.regs, .mem, .tn, .die, .stream, .kv, .mt, .bond, .line, .plumb, .power, .test, .sdio] m) (hs1 : OnlyIn m s0 s1) :
    OnlyInL m s0 (State.copyTile s1 a1 a2 a3 a4 a5 a6) := by
  unfold State.copyTile
  refine onlyL_ite ?_ ?_
  · refine mvThen_only hm.sub ?_ (fun _ _ _ => ?_)
    · exact State.spRead_only hm.sub (by assumption)
    · exact State.putTile_only hm.sub (by assumption)
  · refine mvThen_only hm.sub ?_ (fun _ _ _ => ?_)
    · exact State.getTile_only hm.sub (by assumption)
    · exact State.spWrite_only hm.sub (by assumption)

theorem State.copySide_only {s0 s1 : State} {a1 a2 a3 a4 a5}
    (hm : Within [.regs, .mem, .tn, .die, .stream, .kv, .mt, .bond, .line, .plumb, .power, .test, .sdio] m) (hs1 : OnlyIn m s0 s1) :
    OnlyInL m s0 (State.copySide s1 a1 a2 a3 a4 a5) := by
  unfold State.copySide
  extract_lets -merge -underBinder +onlyGivenNames x1
  clear_value x1
  refine onlyL_ite ?_ ?_
  · refine mvThen_only hm.sub ?_ (fun _ _ _ => ?_)
    · exact State.spRead_only hm.sub (by assumption)
    · exact State.spWrite_only hm.sub (by assumption)
  · refine mvThen_only hm.sub ?_ (fun _ _ _ => ?_)
    · exact State.spRead_only hm.sub (by assumption)
    · exact State.spWrite_only hm.sub (by assumption)

theorem State.mvCopy_only {s0 s1 : State} {a1 a2 a3 a4}
    (hm : Within [.regs, .mem, .tn, .die, .stream, .kv, .mt, .bond, .line, .plumb, .power, .test, .sdio] m) (hs1 : OnlyIn m s0 s1) :
    OnlyInL m s0 (State.mvCopy s1 a1 a2 a3 a4) := by
  unfold State.mvCopy
  refine onlyL_ite ?_ ?_
  · exact onlyL_mk (by assumption)
  · refine State.unlessOld_only hm.sub ?_ (fun _ _ => ?_)
    · assumption
    · extract_lets -merge -underBinder +onlyGivenNames x1
      have hx1 : OnlyInL m s0 x1 := by
        subst x1
        refine mvEach_only hm.sub ?_ (fun _ _ _ => ?_)
        · assumption
        · split
          · refine onlyL_ite ?_ ?_
            · exact State.copyTile_only hm.sub (by assumption)
            · refine mvThen_only hm.sub ?_ (fun _ _ _ => ?_)
              · exact State.spRead_only hm.sub (by assumption)
              · exact State.spWrite_only hm.sub (by assumption)
      clear_value x1
      split
      · exact onlyL_mk (by assumption)
      · refine onlyL_ite ?_ ?_
        · refine mvEach_only hm.sub ?_ (fun _ _ _ => ?_)
          · assumption
          · exact State.copySide_only hm.sub (by assumption)
        · exact onlyL_mk (by assumption)

theorem State.mvFill_only {s0 s1 : State} {a1 a2 a3 a4}
    (hm : Within [.regs, .mem, .fresh, .tn, .die, .stream, .kv, .mt, .bond, .line, .plumb, .power, .test, .sdio] m) (hs1 : OnlyIn m s0 s1) :
    OnlyInL m s0 (State.mvFill s1 a1 a2 a3 a4) := by
  unfold State.mvFill
  refine onlyL_ite ?_ ?_
  · exact onlyL_mk (by assumption)
  · refine mvEach_only hm.sub ?_ (fun _ _ _ => ?_)
    · assumption
    · exact State.spWrite_only hm.sub (State.drew_only hm.sub (by assumption))

theorem State.readTiles_only {s0 s1 : State} {a1 a2 a3 a4}
    (hm : Within [.regs, .mem, .tn, .die, .stream, .kv, .mt, .bond, .line, .plumb, .power, .test, .sdio] m) (hs1 : OnlyIn m s0 s1) :
    OnlyInL m s0 (State.readTiles s1 a1 a2 a3 a4) := by
  unfold State.readTiles
  refine onlyL_foldl (fun _ _ _ => ?_) ?_
  · split
    · exact onlyL_mk (by assumption)
    · split
      · refine OnlyInL.of_eq (m := m) (a := s0) (by assumption) ?_ (fun _ => ?_)
        · exact State.getTile_only hm.sub (by assumption)
        exact onlyL_mk (by assumption)
      · refine OnlyInL.of_eq (m := m) (a := s0) (by assumption) ?_ (fun _ => ?_)
        · exact State.getTile_only hm.sub (by assumption)
        exact onlyL_mk (by assumption)
  · exact onlyL_mk (by assumption)

theorem State.mvPut_only {s0 s1 : State} {a1 a2 a3 a4 a5 a6} (hm : Within [.mem, .die, .mt] m) (hs1 : OnlyIn m s0 s1) :
    OnlyIn m s0 (State.mvPut s1 a1 a2 a3 a4 a5 a6) := by
  unfold State.mvPut
  extract_lets -merge -underBinder +onlyGivenNames x1
  clear_value x1
  split
  · exact State.putElem_only hm.sub (by assumption)
  · extract_lets -merge -underBinder +onlyGivenNames x2 x3
    clear_value x2 x3
    refine only_ite ?_ ?_
    · exact State.sideAdd_only hm.sub (State.putElem_only hm.sub (by assumption))
    · exact State.putElem_only hm.sub (State.count_only hm.sub (by assumption))

theorem State.mvToPlanar_only {s0 s1 : State} {a1 a2 a3 a4 a5}
    (hm : Within [.regs, .mem, .tn, .die, .stream, .kv, .mt, .bond, .line, .plumb, .power, .test, .sdio] m) (hs1 : OnlyIn m s0 s1) :
    OnlyInL m s0 (State.mvToPlanar s1 a1 a2 a3 a4 a5) := by
  unfold State.mvToPlanar
  extract_lets -merge -underBinder +onlyGivenNames x1 x2 x3 x4 x5
  clear_value x1 x2 x3 x4 x5
  refine onlyL_ite ?_ ?_
  · exact onlyL_mk (by assumption)
  · refine State.unlessOld_only hm.sub ?_ (fun _ _ => ?_)
    · assumption
    · extract_lets -merge -underBinder +onlyGivenNames x6 x7
      have hx6 : OnlyIn m s0 x6 := by
        subst x6
        exact State.csReads_only hm.sub (by assumption)
      clear_value x6
      have hx7 : OnlyInL m s0 x7 := by
        subst x7
        refine onlyL_ite ?_ ?_
        · refine onlyL_ite ?_ ?_
          · exact onlyL_mk (by assumption)
          · exact onlyL_mk (by assumption)
        · exact State.readTiles_only hm.sub (by assumption)
      clear_value x7
      split
      · exact onlyL_mk (by assumption)
      · extract_lets -merge -underBinder +onlyGivenNames x8 x9
        clear_value x8
        have hx9 : OnlyIn m s0 x9 := by
          subst x9
          refine only_ite ?_ ?_
          · exact State.sideClear_only hm.sub (by assumption)
          · assumption
        clear_value x9
        refine onlyL_mk ?_
        refine State.each_only ?_ (fun _ _ _ => ?_)
        · assumption
        · split
          · extract_lets -merge -underBinder +onlyGivenNames x10
            clear_value x10
            exact State.mvPut_only hm.sub (by assumption)

theorem State.mvToPixels_only {s0 s1 : State} {a1 a2 a3 a4} (hm : Within [.mem, .die, .mt] m) (hs1 : OnlyIn m s0 s1) :
    OnlyInL m s0 (State.mvToPixels s1 a1 a2 a3 a4) := by
  unfold State.mvToPixels
  extract_lets -merge -underBinder +onlyGivenNames x1 x2
  clear_value x1 x2
  refine onlyL_ite ?_ ?_
  · exact onlyL_mk (by assumption)
  · extract_lets -merge -underBinder +onlyGivenNames x3
    have hx3 : OnlyIn m s0 x3 := by
      subst x3
      refine only_ite ?_ ?_
      · exact State.sideClear_only hm.sub (by assumption)
      · assumption
    clear_value x3
    extract_lets -merge -underBinder +onlyGivenNames x4
    have hx4 : OnlyIn m s0 x4 := by
      subst x4
      refine State.each_only ?_ (fun _ _ _ => ?_)
      · assumption
      · split
        · exact State.mvPut_only hm.sub (by assumption)
    clear_value x4
    refine onlyL_mk ?_
    refine State.each_only ?_ (fun _ _ _ => ?_)
    · assumption
    · refine State.each_only ?_ (fun _ _ _ => ?_)
      · assumption
      · exact State.padPix_only hm.sub (by assumption)

theorem State.mvToTile_only {s0 s1 : State} {a1 a2 a3 a4 a5 a6}
    (hm : Within [.regs, .mem, .tn, .die, .stream, .kv, .mt, .bond, .line, .plumb, .power, .test, .sdio] m) (hs1 : OnlyIn m s0 s1) :
    OnlyInL m s0 (State.mvToTile s1 a1 a2 a3 a4 a5 a6) := by
  unfold State.mvToTile
  split
  · extract_lets -merge -underBinder +onlyGivenNames x1 x2
    clear_value x1 x2
    refine onlyL_ite ?_ ?_
    · exact onlyL_mk (by assumption)
    · extract_lets -merge -underBinder +onlyGivenNames x3 x4 x5 x6 x7 x8 x9
      clear_value x3 x4 x5 x6 x7 x8
      have hx9 : OnlyIn m s0 x9 := by
        subst x9
        exact State.count_only hm.sub (by assumption)
      clear_value x9
      split
      · refine OnlyInL.of_eq (m := m) (a := s0) (by assumption) ?_ (fun _ => ?_)
        · exact State.putTile_only hm.sub (by assumption)
        exact onlyL_mk (by assumption)
      · refine OnlyInL.of_eq (m := m) (a := s0) (by assumption) ?_ (fun _ => ?_)
        · exact State.putTile_only hm.sub (by assumption)
        refine onlyL_ite ?_ ?_
        · exact State.spWrite_only hm.sub (by assumption)
        · exact onlyL_mk (by assumption)

theorem State.mvToBlocked_only {s0 s1 : State} {a1 a2 a3 a4}
    (hm : Within [.regs, .mem, .tn, .die, .stream, .kv, .mt, .bond, .line, .plumb, .power, .test, .sdio] m) (hs1 : OnlyIn m s0 s1) :
    OnlyInL m s0 (State.mvToBlocked s1 a1 a2 a3 a4) := by
  unfold State.mvToBlocked
  refine onlyL_ite ?_ ?_
  · exact onlyL_mk (by assumption)
  · extract_lets -merge -underBinder +onlyGivenNames x1
    have hx1 : OnlyIn m s0 x1 := by
      subst x1
      exact State.csReads_only hm.sub (by assumption)
    clear_value x1
    refine onlyL_ite ?_ ?_
    · exact onlyL_mk (by assumption)
    · extract_lets -merge -underBinder +onlyGivenNames x2
      clear_value x2
      refine onlyL_ite ?_ ?_
      · exact State.mvToPixels_only hm.sub (by assumption)
      · refine mvEach_only hm.sub ?_ (fun _ _ _ => ?_)
        · assumption
        · exact State.mvToTile_only hm.sub (by assumption)

theorem State.mvGather_only {s0 s1 : State} {a1 a2 a3 a4}
    (hm : Within [.regs, .mem, .tn, .die, .stream, .kv, .mt, .bond, .line, .plumb, .power, .test, .sdio] m) (hs1 : OnlyIn m s0 s1) :
    OnlyInL m s0 (State.mvGather s1 a1 a2 a3 a4) := by
  unfold State.mvGather
  extract_lets -merge -underBinder +onlyGivenNames x1 x2 x3 x4 x5 x6 x7 x8 x9
  clear_value x1 x2 x3 x4 x5 x6 x7 x8 x9
  refine onlyL_ite ?_ ?_
  · exact onlyL_mk (by assumption)
  · refine State.unlessOld_only hm.sub ?_ (fun _ _ => ?_)
    · assumption
    · extract_lets -merge -underBinder +onlyGivenNames x10
      have hx10 : OnlyIn m s0 x10 := by
        subst x10
        exact State.moved_only hm.sub (by assumption)
      clear_value x10
      split
      · refine OnlyInL.of_eq (m := m) (a := s0) (by assumption) ?_ (fun _ => ?_)
        · refine onlyL_foldl (fun _ _ _ => ?_) ?_
          · refine onlyL_foldl (fun _ _ _ => ?_) ?_
            · extract_lets -merge -underBinder +onlyGivenNames x11 x12
              clear_value x11 x12
              split
              · refine OnlyInL.of_eq (m := m) (a := s0) (by assumption) ?_ (fun _ => ?_)
                · refine onlyL_ite ?_ ?_
                  · refine State.eccRead_only hm.sub ?_
                    exact OnlyInL.fst (by assumption)
                  · refine onlyL_mk ?_
                    exact OnlyInL.fst (by assumption)
                exact onlyL_mk (by assumption)
            · assumption
          · exact onlyL_mk (by assumption)
        refine onlyL_ite ?_ ?_
        · exact onlyL_mk (by assumption)
        · refine onlyL_mk ?_
          refine State.each_only ?_ (fun _ _ _ => ?_)
          · assumption
          · split
            · exact State.csSt_only hm.sub (by assumption)

theorem State.races_only {s0 s1 : State} {s2 : State} {a2 a3 a4 a5}
    (hm : Within [.die] m) (hs1 : OnlyIn m s0 s1) (hs2 : OnlyIn m s0 s2) :
    OnlyIn m s0 (State.races s1 s2 a2 a3 a4 a5) := by
  unfold State.races
  exact State.updRun_only hm.sub (by assumption)

theorem State.chainNext_only {s0 s1 : State} {a1 a2 a3 a4 a5} (hm : Within [.die] m) (hs1 : OnlyIn m s0 s1) :
    OnlyIn m s0 (State.chainNext s1 a1 a2 a3 a4 a5) := by
  unfold State.chainNext
  refine only_ite ?_ ?_
  · exact State.finish_only hm.sub (by assumption)
  · exact State.updRun_only hm.sub (by assumption)

theorem State.moverRun_only {s0 s1 : State} {a1 a2 a3 a4 a5 a6}
    (hm : Within [.regs, .mem, .tn, .die, .stream, .kv, .mt, .bond, .line, .plumb, .power, .test, .sdio] m) (hs1 : OnlyIn m s0 s1) (ha6 : ∀ y0 y1 y2, OnlyIn m s0 y0 → OnlyInL m s0 (a6 y0 y1 y2)) :
    OnlyIn m s0 (State.moverRun s1 a1 a2 a3 a4 a5 a6) := by
  unfold State.moverRun
  split
  · assumption
  · refine only_ite ?_ ?_
    · assumption
    · extract_lets -merge -underBinder +onlyGivenNames x1
      have hx1 : OnlyIn m s0 x1 := by
        subst x1
        exact State.csReads_only hm.sub (by assumption)
      clear_value x1
      split
      · assumption
      · split
        · exact State.finish_only hm.sub (by assumption)
        · refine only_ite ?_ ?_
          · assumption
          · extract_lets -merge -underBinder +onlyGivenNames x2
            have hx2 : OnlyInL m s0 x2 := by
              subst x2
              refine onlyL_ite ?_ ?_
              · exact onlyL_mk (by assumption)
              · refine ha6 _ _ _ ?_
                assumption
            clear_value x2
            split
            · refine State.finish_only hm.sub ?_
              exact OnlyInL.fst (by assumption)
            · refine only_ite ?_ ?_
              · exact OnlyInL.fst (by assumption)
              · refine only_ite ?_ ?_
                · refine State.chainNext_only hm.sub ?_
                  exact OnlyInL.fst (by assumption)
                · refine State.chainNext_only hm.sub ?_
                  refine State.moves_only hm.sub ?_
                  refine State.races_only hm.sub ?_ ?_
                  · exact OnlyInL.fst (by assumption)
                  · assumption

theorem onMove_only {s0 : State} {a0 a1 a2 a3 a4 a6}
    (hm : Within [.regs, .mem, .tn, .die, .stream, .kv, .mt, .bond, .line, .plumb, .power, .test, .sdio] m) (ha6 : ∀ y0 y1 y2, OnlyIn m (State.to s0 a0) y0 → OnlyInL m (State.to s0 a0) (a6 y0 y1 y2)) :
    OnlyInN m (State.to s0 a0) (onMove a0 a1 a2 a3 a4 s0 a6) := by
  unfold onMove
  refine onTask_only hm.sub (fun _ _ _ => ?_)
  refine State.moverRun_only hm.sub ?_ (fun _ _ _ _ => ?_)
  · assumption
  · refine ha6 _ _ _ ?_
    assumption

theorem execCopy_only {s0 : State} {a0 a1 a2 a3}
    (hm : Within [.regs, .mem, .tn, .die, .stream, .kv, .mt, .bond, .line, .plumb, .power, .test, .sdio] m) :
    OnlyInN m (State.to s0 a0) (execCopy a0 a1 a2 a3 s0) := by
  unfold execCopy
  refine onMove_only hm.sub (fun _ _ _ _ => ?_)
  exact State.mvCopy_only hm.sub (by assumption)

theorem execBlockedToPlanar_only {s0 : State} {a0 a1 a2 a3}
    (hm : Within [.regs, .mem, .tn, .die, .stream, .kv, .mt, .bond, .line, .plumb, .power, .test, .sdio] m) :
    OnlyInN m (State.to s0 a0) (execBlockedToPlanar a0 a1 a2 a3 s0) := by
  unfold execBlockedToPlanar
  refine onMove_only hm.sub (fun _ _ _ _ => ?_)
  exact State.mvToPlanar_only hm.sub (by assumption)

theorem execPhaseSplit_only {s0 : State} {a0 a1 a2 a3}
    (hm : Within [.regs, .mem, .tn, .die, .stream, .kv, .mt, .bond, .line, .plumb, .power, .test, .sdio] m) :
    OnlyInN m (State.to s0 a0) (execPhaseSplit a0 a1 a2 a3 s0) := by
  unfold execPhaseSplit
  refine onMove_only hm.sub (fun _ _ _ _ => ?_)
  exact State.mvToPlanar_only hm.sub (by assumption)

theorem execPlanarToBlocked_only {s0 : State} {a0 a1 a2 a3}
    (hm : Within [.regs, .mem, .tn, .die, .stream, .kv, .mt, .bond, .line, .plumb, .power, .test, .sdio] m) :
    OnlyInN m (State.to s0 a0) (execPlanarToBlocked a0 a1 a2 a3 s0) := by
  unfold execPlanarToBlocked
  refine onMove_only hm.sub (fun _ _ _ _ => ?_)
  exact State.mvToBlocked_only hm.sub (by assumption)

theorem execRowGather_only {s0 : State} {a0 a1 a2 a3}
    (hm : Within [.regs, .mem, .tn, .die, .stream, .kv, .mt, .bond, .line, .plumb, .power, .test, .sdio] m) :
    OnlyInN m (State.to s0 a0) (execRowGather a0 a1 a2 a3 s0) := by
  unfold execRowGather
  refine onMove_only hm.sub (fun _ _ _ _ => ?_)
  exact State.mvGather_only hm.sub (by assumption)

theorem execFill_only {s0 : State} {a0 a1 a2 a3}
    (hm : Within [.regs, .mem, .fresh, .tn, .die, .stream, .kv, .mt, .bond, .line, .plumb, .power, .test, .sdio] m) :
    OnlyInN m (State.to s0 a0) (execFill a0 a1 a2 a3 s0) := by
  unfold execFill
  refine onMove_only hm.sub (fun _ _ _ _ => ?_)
  exact State.mvFill_only hm.sub (by assumption)

theorem execChainDeadline_only {s0 : State} {a0 a1 a2 a3} (hm : Within [.regs, .mem, .tn, .die, .mt, .bond, .sdio] m) :
    OnlyInN m (State.to s0 a0) (execChainDeadline a0 a1 a2 a3 s0) := by
  unfold execChainDeadline
  refine onTask_only hm.sub (fun _ _ _ => ?_)
  split
  · assumption
  · extract_lets -merge -underBinder +onlyGivenNames x1
    clear_value x1
    refine only_ite ?_ ?_
    · assumption
    · split
      · exact State.finish_only hm.sub (by assumption)
      · extract_lets -merge -underBinder +onlyGivenNames x2
        have hx2 : OnlyIn m (State.to s0 a0) x2 := by
          subst x2
          exact State.raise_only hm.sub (State.bump_only hm.sub (by assumption))
        clear_value x2
        extract_lets -merge -underBinder +onlyGivenNames x3
        have hx3 : OnlyIn m (State.to s0 a0) x3 := by
          subst x3
          exact State.updRun_only hm.sub (by assumption)
        clear_value x3
        refine only_ite ?_ ?_
        · exact State.updBond_only hm.sub (by assumption)
        · refine only_ite ?_ ?_
          · extract_lets -merge -underBinder +onlyGivenNames x4
            have hx4 : OnlyIn m (State.to s0 a0) x4 := by
              subst x4
              refine State.each_only ?_ (fun _ _ _ => ?_)
              · assumption
              · exact State.csSt_only hm.sub (by assumption)
            clear_value x4
            exact State.chainNext_only hm.sub (State.updRun_only hm.sub (by assumption))
          · assumption

end Sys2Proof.Machine
end

