-- ==== Sys2Proof/Laws/OnlyStreamOps.lean ====
section
/-! SUPPORT. What the operations of Machine/StreamOps.lean may change (Laws/Only.lean). -/
namespace Sys2Proof.Machine
set_option Elab.async false

variable {m : List Block}

theorem State.resetState_only {s0 s1 : State} {a1}
    (hm : Within [.regs, .mem, .tn, .die, .stream, .kv, .mt, .bond, .line, .plumb, .power, .test, .sdio] m) (hs1 : OnlyIn m s0 s1) :
    OnlyInL m s0 (State.resetState s1 a1) := by
  unfold State.resetState
  extract_lets -merge -underBinder +onlyGivenNames x1
  clear_value x1
  refine onlyL_ite ?_ ?_
  · exact onlyL_mk (by assumption)
  · exact State.tierRead_only hm.sub (by assumption)

theorem State.slotState_only {s0 s1 : State} {a1}
    (hm : Within [.regs, .mem, .tn, .die, .stream, .kv, .mt, .bond, .line, .plumb, .power, .test, .sdio] m) (hs1 : OnlyIn m s0 s1) :
    OnlyInL m s0 (State.slotState s1 a1) := by
  unfold State.slotState
  extract_lets -merge -underBinder +onlyGivenNames x1
  clear_value x1
  split
  · refine OnlyInL.of_eq (m := m) (a := s0) (by assumption) ?_ (fun _ => ?_)
    · exact State.eccRead_only hm.sub (by assumption)
    refine onlyL_ite ?_ ?_
    · exact onlyL_mk (State.ctxFault_only hm.sub (by assumption))
    · exact onlyL_mk (by assumption)

theorem State.streamRun_only {s0 s1 : State} {a1 a2 a3 a4 a5}
    (hm : Within [.regs, .mem, .tn, .die, .stream, .kv, .mt, .bond, .line, .plumb, .power, .test, .sdio] m) (hs1 : OnlyIn m s0 s1) (ha5 : ∀ y0 y1 y2 y3, OnlyIn m s0 y0 → OnlyInL m s0 (a5 y0 y1 y2 y3)) :
    OnlyIn m s0 (State.streamRun s1 a1 a2 a3 a4 a5) := by
  unfold State.streamRun
  extract_lets -merge -underBinder +onlyGivenNames x1
  clear_value x1
  split
  · split
    · refine OnlyInL.of_eq (m := m) (a := s0) (by assumption) ?_ (fun _ => ?_)
      · refine onlyL_ite ?_ ?_
        · exact onlyL_mk (by assumption)
        · exact State.resetState_only hm.sub (by assumption)
      split
      · exact State.finish_only hm.sub (by assumption)
      · split
        · refine OnlyInL.of_eq (m := m) (a := s0) (by assumption) ?_ (fun _ => ?_)
          · refine onlyL_ite ?_ ?_
            · exact onlyL_mk (by assumption)
            · exact State.slotState_only hm.sub (by assumption)
          split
          · exact State.finish_only hm.sub (by assumption)
          · split
            · refine OnlyInL.of_eq (m := m) (a := s0) (by assumption) ?_ (fun _ => ?_)
              · refine ha5 _ _ _ _ ?_
                assumption
              exact State.updRun_only hm.sub (by assumption)

theorem State.lscanOp_only {s0 s1 : State} {a1 a2 a3 a4}
    (hm : Within [.regs, .mem, .tn, .die, .stream, .kv, .mt, .bond, .line, .plumb, .power, .test, .sdio] m) (hs1 : OnlyIn m s0 s1) :
    OnlyInD m s0 (State.lscanOp s1 a1 a2 a3 a4) := by
  unfold State.lscanOp
  refine onlyD_bind (fun _ => ?_)
  split
  · refine onlyD_mk (fun _ _ => ?_)
    refine only_ite ?_ ?_
    · assumption
    · refine State.streamRun_only hm.sub ?_ (fun _ _ _ _ _ => ?_)
      · assumption
      · extract_lets -merge -underBinder +onlyGivenNames x1
        clear_value x1
        refine onlyL_mk ?_
        refine State.each_only ?_ (fun _ _ _ => ?_)
        · assumption
        · exact State.csSt_only hm.sub (by assumption)

theorem execLscan_only {s0 : State} {a0 a1 a2 a3}
    (hm : Within [.regs, .mem, .fresh, .tn, .die, .stream, .kv, .mt, .bond, .line, .plumb, .power, .test, .sdio] m) :
    OnlyInN m (State.to s0 a0) (execLscan a0 a1 a2 a3 s0) := by
  unfold execLscan
  refine onTask_only hm.sub (fun _ _ _ => ?_)
  refine State.operate_only hm.sub ?_ (fun _ _ _ => ?_)
  · assumption
  · exact State.lscanOp_only hm.sub (by assumption)

theorem State.gcellOp_only {s0 s1 : State} {a1 a2 a3 a4}
    (hm : Within [.regs, .mem, .tn, .die, .stream, .kv, .mt, .bond, .line, .plumb, .power, .test, .sdio] m) (hs1 : OnlyIn m s0 s1) :
    OnlyInD m s0 (State.gcellOp s1 a1 a2 a3 a4) := by
  unfold State.gcellOp
  refine onlyD_bind (fun _ => ?_)
  split
  · refine onlyD_bind (fun _ => ?_)
    refine onlyD_bind (fun _ => ?_)
    refine onlyD_bind (fun _ => ?_)
    refine onlyD_mk (fun _ _ => ?_)
    refine only_ite ?_ ?_
    · assumption
    · refine State.streamRun_only hm.sub ?_ (fun _ _ _ _ _ => ?_)
      · assumption
      · extract_lets -merge -underBinder +onlyGivenNames x1 x2 x3 x4 x5
        clear_value x1 x2 x3 x4
        have hx5 : OnlyIn m s0 x5 := by
          subst x5
          exact State.updCore_only hm.sub (State.count_only hm.sub (by assumption))
        clear_value x5
        extract_lets -merge -underBinder +onlyGivenNames x6
        clear_value x6
        refine onlyL_mk ?_
        refine State.each_only ?_ (fun _ _ _ => ?_)
        · assumption
        · split
          · exact State.csSt_only hm.sub (by assumption)

theorem execGcell_only {s0 : State} {a0 a1 a2 a3}
    (hm : Within [.regs, .mem, .fresh, .tn, .die, .stream, .kv, .mt, .bond, .line, .plumb, .power, .test, .sdio] m) :
    OnlyInN m (State.to s0 a0) (execGcell a0 a1 a2 a3 s0) := by
  unfold execGcell
  refine onTask_only hm.sub (fun _ _ _ => ?_)
  refine only_ite ?_ ?_
  · refine State.operate_only hm.sub ?_ (fun _ _ _ => ?_)
    · assumption
    · exact State.gcellOp_only hm.sub (by assumption)
  · assumption

theorem State.biscanOp_only {s0 s1 : State} {a1 a2 a3 a4}
    (hm : Within [.regs, .mem, .tn, .die, .stream, .kv, .mt, .bond, .line, .plumb, .power, .test, .sdio] m) (hs1 : OnlyIn m s0 s1) :
    OnlyInD m s0 (State.biscanOp s1 a1 a2 a3 a4) := by
  unfold State.biscanOp
  refine onlyD_bind (fun _ => ?_)
  split
  · extract_lets -merge -underBinder +onlyGivenNames x1
    clear_value x1
    refine onlyD_mk (fun _ _ => ?_)
    refine only_ite ?_ ?_
    · assumption
    · extract_lets -merge -underBinder +onlyGivenNames x2
      clear_value x2
      refine State.streamRun_only hm.sub ?_ (fun _ _ _ _ _ => ?_)
      · assumption
      · extract_lets -merge -underBinder +onlyGivenNames x3 x4 x5 x6 x7
        clear_value x3 x4 x5 x6 x7
        refine onlyL_mk ?_
        refine State.each_only ?_ (fun _ _ _ => ?_)
        · assumption
        · exact State.csSt_only hm.sub (by assumption)

theorem execBiscan_only {s0 : State} {a0 a1 a2 a3}
    (hm : Within [.regs, .mem, .fresh, .tn, .die, .stream, .kv, .mt, .bond, .line, .plumb, .power, .test, .sdio] m) :
    OnlyInN m (State.to s0 a0) (execBiscan a0 a1 a2 a3 s0) := by
  unfold execBiscan
  refine onTask_only hm.sub (fun _ _ _ => ?_)
  refine State.operate_only hm.sub ?_ (fun _ _ _ => ?_)
  · assumption
  · exact State.biscanOp_only hm.sub (by assumption)

theorem State.bindOp_only {s0 s1 : State} {a1 a2 a3 a4}
    (hm : Within [.regs, .mem, .tn, .die, .stream, .kv, .mt, .bond, .line, .plumb, .power, .test, .sdio] m) (hs1 : OnlyIn m s0 s1) :
    OnlyInD m s0 (State.bindOp s1 a1 a2 a3 a4) := by
  unfold State.bindOp
  refine onlyD_bind (fun _ => ?_)
  split
  · refine onlyD_mk (fun _ _ => ?_)
    refine only_ite ?_ ?_
    · assumption
    · refine State.updRun_only hm.sub ?_
      refine State.streamRun_only hm.sub ?_ (fun _ _ _ _ _ => ?_)
      · assumption
      · exact onlyL_mk (State.csSt_only hm.sub (by assumption))

theorem execBind_only {s0 : State} {a0 a1 a2 a3}
    (hm : Within [.regs, .mem, .fresh, .tn, .die, .stream, .kv, .mt, .bond, .line, .plumb, .power, .test, .sdio] m) :
    OnlyInN m (State.to s0 a0) (execBind a0 a1 a2 a3 s0) := by
  unfold execBind
  refine onTask_only hm.sub (fun _ _ _ => ?_)
  refine State.operate_only hm.sub ?_ (fun _ _ _ => ?_)
  · assumption
  · exact State.bindOp_only hm.sub (by assumption)

end Sys2Proof.Machine
end

