-- ==== Sys2Proof/Laws/OnlyKv.lean ====
section
/-! SUPPORT. What the operations of Machine/Kv.lean may change (Laws/Only.lean). -/
namespace Sys2Proof.Machine
set_option Elab.async false

variable {m : List Block}

theorem State.linGet_only {s0 s1 : State} {a1 a2 a3 a4 a5}
    (hm : Within [.regs, .mem, .tn, .die, .stream, .kv, .mt, .bond, .line, .plumb, .power, .test, .sdio] m) (hs1 : OnlyIn m s0 s1) :
    OnlyInL m s0 (State.linGet s1 a1 a2 a3 a4 a5) := by
  unfold State.linGet
  refine onlyL_ite ?_ ?_
  · exact onlyL_mk (by assumption)
  · exact State.spRead_only hm.sub (by assumption)

theorem State.kvPageGet_only {s0 s1 : State} {a1 a2 a3 a4 a5 a6}
    (hm : Within [.regs, .mem, .tn, .die, .stream, .kv, .mt, .bond, .line, .plumb, .power, .test, .sdio] m) (hs1 : OnlyIn m s0 s1) :
    OnlyInL m s0 (State.kvPageGet s1 a1 a2 a3 a4 a5 a6) := by
  unfold State.kvPageGet
  extract_lets -merge -underBinder +onlyGivenNames x1
  have hx1 : ∀ y0 y1 y2, OnlyIn m s0 y0 → OnlyInL m s0 (x1 y0 y1 y2) := by
    subst x1
    intro y0 y1 y2 _
    exact State.tierRead_only hm.sub (State.moved_only hm.sub (by assumption))
  clear_value x1
  extract_lets -merge -underBinder +onlyGivenNames x2
  have hx2 : ∀ y0 y1, OnlyIn m s0 y0 → OnlyInL m s0 (x2 y0 y1) := by
    subst x2
    intro y0 y1 _
    refine onlyL_ite ?_ ?_
    · exact onlyL_mk (by assumption)
    · exact onlyL_mk (State.raise_only hm.sub (State.pageSt_only hm.sub (by assumption)))
  clear_value x2
  refine onlyL_ite ?_ ?_
  · exact onlyL_mk (by assumption)
  · split
    · refine OnlyInL.of_eq (m := m) (a := s0) (by assumption) ?_ (fun _ => ?_)
      · refine hx1 _ _ _ ?_
        assumption
      refine hx2 _ _ ?_
      assumption
    · refine OnlyInL.of_eq (m := m) (a := s0) (by assumption) ?_ (fun _ => ?_)
      · refine hx1 _ _ _ ?_
        assumption
      split
      · refine OnlyInL.of_eq (m := m) (a := s0) (by assumption) ?_ (fun _ => ?_)
        · refine hx1 _ _ _ ?_
          assumption
        refine hx2 _ _ ?_
        assumption
      · refine OnlyInL.of_eq (m := m) (a := s0) (by assumption) ?_ (fun _ => ?_)
        · refine hx1 _ _ _ ?_
          assumption
        exact onlyL_mk (by assumption)

theorem State.kvPutVec_only {s0 s1 : State} {a1 a2 a3 a4 a5 a6 a7 a8 a9 a10}
    (hm : Within [.regs, .mem, .tn, .die, .stream, .kv, .mt, .bond, .line, .plumb, .power, .test, .sdio] m) (hs1 : OnlyIn m s0 s1) :
    OnlyInL m s0 (State.kvPutVec s1 a1 a2 a3 a4 a5 a6 a7 a8 a9 a10) := by
  unfold State.kvPutVec
  extract_lets -merge -underBinder +onlyGivenNames x1 x2 x3 x4 x5
  clear_value x1 x2 x3 x4 x5
  split
  · refine OnlyInL.of_eq (m := m) (a := s0) (by assumption) ?_ (fun _ => ?_)
    · exact State.tierWrite_only hm.sub (State.moved_only hm.sub (by assumption))
    exact onlyL_mk (by assumption)
  · refine OnlyInL.of_eq (m := m) (a := s0) (by assumption) ?_ (fun _ => ?_)
    · exact State.tierWrite_only hm.sub (State.moved_only hm.sub (by assumption))
    extract_lets -merge -underBinder +onlyGivenNames x6 x7
    clear_value x6
    have hx7 : OnlyIn m s0 x7 := by
      subst x7
      exact State.moved_only hm.sub (by assumption)
    clear_value x7
    refine mvEach_only hm.sub ?_ (fun _ _ _ => ?_)
    · assumption
    · split
      · extract_lets -merge -underBinder +onlyGivenNames x8
        clear_value x8
        refine onlyL_ite ?_ ?_
        · extract_lets -merge -underBinder +onlyGivenNames x9 x10 x11
          clear_value x9 x10 x11
          exact State.tierWrite_only hm.sub (by assumption)
        · exact State.tierWrite_only hm.sub (by assumption)

theorem State.kvWritable_only {s0 s1 : State} {a1 a2 a3 a4 a5 a6 a7 a8}
    (hm : Within [.regs, .mem, .tn, .die, .stream, .kv, .mt, .bond, .line, .plumb, .power, .test, .sdio] m) (hs1 : OnlyIn m s0 s1) :
    OnlyInL m s0 (State.kvWritable s1 a1 a2 a3 a4 a5 a6 a7 a8) := by
  unfold State.kvWritable
  extract_lets -merge -underBinder +onlyGivenNames x1 x2 x3
  clear_value x1 x2
  have hx3 : ∀ y0, OnlyIn m s0 y0 → OnlyInL m s0 (x3 y0) := by
    subst x3
    intro y0 _
    exact State.pageTake_only hm.sub (by assumption)
  clear_value x3
  refine onlyL_ite ?_ ?_
  · split
    · refine OnlyInL.of_eq (m := m) (a := s0) (by assumption) ?_ (fun _ => ?_)
      · refine hx3 _ ?_
        assumption
      exact onlyL_mk (by assumption)
    · refine OnlyInL.of_eq (m := m) (a := s0) (by assumption) ?_ (fun _ => ?_)
      · refine hx3 _ ?_
        assumption
      exact onlyL_mk (State.listSet_only hm.sub (by assumption))
  · split
    · exact onlyL_mk (by assumption)
    · extract_lets -merge -underBinder +onlyGivenNames x4
      clear_value x4
      refine onlyL_ite ?_ ?_
      · exact onlyL_mk (by assumption)
      · split
        · refine OnlyInL.of_eq (m := m) (a := s0) (by assumption) ?_ (fun _ => ?_)
          · refine hx3 _ ?_
            assumption
          exact onlyL_mk (by assumption)
        · refine OnlyInL.of_eq (m := m) (a := s0) (by assumption) ?_ (fun _ => ?_)
          · refine hx3 _ ?_
            assumption
          split
          · refine OnlyInL.of_eq (m := m) (a := s0) (by assumption) ?_ (fun _ => ?_)
            · exact State.kvPageGet_only hm.sub (by assumption)
            split
            · exact onlyL_mk (by assumption)
            · split
              · extract_lets -merge -underBinder +onlyGivenNames x5 x6
                clear_value x5 x6
                split
                · refine OnlyInL.of_eq (m := m) (a := s0) (by assumption) ?_ (fun _ => ?_)
                  · exact State.tierWrite_only hm.sub (by assumption)
                  exact onlyL_mk (by assumption)
                · refine OnlyInL.of_eq (m := m) (a := s0) (by assumption) ?_ (fun _ => ?_)
                  · exact State.tierWrite_only hm.sub (by assumption)
                  split
                  · refine OnlyInL.of_eq (m := m) (a := s0) (by assumption) ?_ (fun _ => ?_)
                    · exact State.tierWrite_only hm.sub (by assumption)
                    exact onlyL_mk (by assumption)
                  · refine OnlyInL.of_eq (m := m) (a := s0) (by assumption) ?_ (fun _ => ?_)
                    · exact State.tierWrite_only hm.sub (by assumption)
                    extract_lets -merge -underBinder +onlyGivenNames x7 x8
                    clear_value x7
                    have hx8 : OnlyIn m s0 x8 := by
                      subst x8
                      exact State.listSet_only hm.sub (State.pageSt_only hm.sub (by assumption))
                    clear_value x8
                    exact onlyL_mk (State.bump_only hm.sub (State.pageUnref_only hm.sub (by assumption)))

theorem State.kvPut_only {s0 s1 : State} {a1 a2 a3 a4 a5 a6 a7 a8 a9}
    (hm : Within [.regs, .mem, .fresh, .tn, .die, .stream, .kv, .mt, .bond, .line, .plumb, .power, .test, .sdio] m) (hs1 : OnlyIn m s0 s1) :
    OnlyInL m s0 (State.kvPut s1 a1 a2 a3 a4 a5 a6 a7 a8 a9) := by
  unfold State.kvPut
  extract_lets -merge -underBinder +onlyGivenNames x1 x2
  clear_value x1 x2
  split
  · refine OnlyInL.of_eq (m := m) (a := s0) (by assumption) ?_ (fun _ => ?_)
    · exact State.kvWritable_only hm.sub (by assumption)
    exact onlyL_mk (by assumption)
  · refine OnlyInL.of_eq (m := m) (a := s0) (by assumption) ?_ (fun _ => ?_)
    · exact State.kvWritable_only hm.sub (by assumption)
    extract_lets -merge -underBinder +onlyGivenNames x3 x4 x5
    clear_value x3 x4
    have hx5 : OnlyIn m s0 x5 := by
      subst x5
      refine only_ite ?_ ?_
      · assumption
      · exact State.drew_only hm.sub (by assumption)
    clear_value x5
    split
    · refine OnlyInL.of_eq (m := m) (a := s0) (by assumption) ?_ (fun _ => ?_)
      · exact State.kvPutVec_only hm.sub (by assumption)
      exact onlyL_mk (by assumption)
    · refine OnlyInL.of_eq (m := m) (a := s0) (by assumption) ?_ (fun _ => ?_)
      · exact State.kvPutVec_only hm.sub (by assumption)
      exact onlyL_mk (State.pageSt_only hm.sub (by assumption))

theorem State.kvAppendAll_only {s0 s1 : State} {a1 a2 a3 a4 a5 a6 a7}
    (hm : Within [.regs, .mem, .fresh, .tn, .die, .stream, .kv, .mt, .bond, .line, .plumb, .power, .test, .sdio] m) (hs1 : OnlyIn m s0 s1) :
    OnlyInL m s0 (State.kvAppendAll s1 a1 a2 a3 a4 a5 a6 a7) := by
  unfold State.kvAppendAll
  extract_lets -merge -underBinder +onlyGivenNames x1 x2
  clear_value x1 x2
  refine mvEach_only hm.sub ?_ (fun _ _ _ => ?_)
  · assumption
  · split
    · extract_lets -merge -underBinder +onlyGivenNames x3 x4 x5 x6 x7
      clear_value x3 x4 x5 x6
      have hx7 : OnlyIn m s0 x7 := by
        subst x7
        refine only_ite ?_ ?_
        · assumption
        · exact State.count_only hm.sub (by assumption)
      clear_value x7
      split
      · refine OnlyInL.of_eq (m := m) (a := s0) (by assumption) ?_ (fun _ => ?_)
        · exact State.kvPut_only hm.sub (by assumption)
        exact onlyL_mk (by assumption)
      · refine OnlyInL.of_eq (m := m) (a := s0) (by assumption) ?_ (fun _ => ?_)
        · exact State.kvPut_only hm.sub (by assumption)
        exact State.kvPut_only hm.sub (by assumption)

theorem State.kvTakeMark_only {s0 s1 : State} {a1 a2 a3} (hm : Within [.mem, .kv, .mt] m) (hs1 : OnlyIn m s0 s1) :
    OnlyIn m s0 (State.kvTakeMark s1 a1 a2 a3) := by
  unfold State.kvTakeMark
  split
  · assumption
  · extract_lets -merge -underBinder +onlyGivenNames x1
    clear_value x1
    exact State.updKv_only hm.sub (State.seqSt_only hm.sub (State.seqReset_only hm.sub (by assumption)))

theorem State.kvAppendIn_only {s0 s1 : State} {a1 a2 a3 a4 a5 a6 a7}
    (hm : Within [.regs, .mem, .fresh, .tn, .die, .stream, .kv, .mt, .bond, .line, .plumb, .power, .test, .sdio] m) (hs1 : OnlyIn m s0 s1) :
    OnlyInL m s0 (State.kvAppendIn s1 a1 a2 a3 a4 a5 a6 a7) := by
  unfold State.kvAppendIn
  refine mvThen_only hm.sub ?_ (fun _ _ _ => ?_)
  · exact State.linGet_only hm.sub (by assumption)
  · exact State.kvAppendAll_only hm.sub (by assumption)

theorem State.kvAppend_only {s0 s1 : State} {a1 a2 a3 a4 a5 a6 a7}
    (hm : Within [.regs, .mem, .fresh, .tn, .die, .stream, .kv, .mt, .bond, .line, .plumb, .power, .test, .sdio] m) (hs1 : OnlyIn m s0 s1) :
    OnlyIn m s0 (State.kvAppend s1 a1 a2 a3 a4 a5 a6 a7) := by
  unfold State.kvAppend
  refine only_ite ?_ ?_
  · exact State.finish_only hm.sub (State.raise_only hm.sub (by assumption))
  · extract_lets -merge -underBinder +onlyGivenNames x1
    have hx1 : OnlyIn m s0 x1 := by
      subst x1
      exact State.kvTakeMark_only hm.sub (by assumption)
    clear_value x1
    extract_lets -merge -underBinder +onlyGivenNames x2
    clear_value x2
    refine only_ite ?_ ?_
    · exact State.finish_only hm.sub (by assumption)
    · refine only_ite ?_ ?_
      · exact State.finish_only hm.sub (State.bump_only hm.sub (State.raise_only hm.sub (by assumption)))
      · split
        · refine OnlyInL.of_eq (m := m) (a := s0) (by assumption) ?_ (fun _ => ?_)
          · exact State.kvAppendIn_only hm.sub (by assumption)
          exact State.finish_only hm.sub (by assumption)
        · refine OnlyInL.of_eq (m := m) (a := s0) (by assumption) ?_ (fun _ => ?_)
          · exact State.kvAppendIn_only hm.sub (by assumption)
          exact State.bump_only hm.sub (State.seqSt_only hm.sub (by assumption))

theorem State.kvAppendOp_only {s0 s1 : State} {a1 a2 a3 a4}
    (hm : Within [.regs, .mem, .fresh, .tn, .die, .stream, .kv, .mt, .bond, .line, .plumb, .power, .test, .sdio] m) (hs1 : OnlyIn m s0 s1) :
    OnlyInD m s0 (State.kvAppendOp s1 a1 a2 a3 a4) := by
  unfold State.kvAppendOp
  extract_lets -merge -underBinder +onlyGivenNames x1 x2
  clear_value x1 x2
  refine onlyD_bind (fun _ => ?_)
  refine onlyD_bind (fun _ => ?_)
  refine onlyD_bind (fun _ => ?_)
  refine onlyD_mk (fun _ _ => ?_)
  refine only_ite ?_ ?_
  · assumption
  · exact State.kvAppend_only hm.sub (by assumption)

theorem execKvAppend_only {s0 : State} {a0 a1 a2 a3}
    (hm : Within [.regs, .mem, .fresh, .tn, .die, .stream, .kv, .mt, .bond, .line, .plumb, .power, .test, .sdio] m) :
    OnlyInN m (State.to s0 a0) (execKvAppend a0 a1 a2 a3 s0) := by
  unfold execKvAppend
  refine onTask_only hm.sub (fun _ _ _ => ?_)
  refine State.operate_only hm.sub ?_ (fun _ _ _ => ?_)
  · assumption
  · exact State.kvAppendOp_only hm.sub (by assumption)

theorem State.headPages_only {s0 s1 : State} {a1 a2 a3 a4 a5 a6}
    (hm : Within [.regs, .mem, .tn, .die, .stream, .kv, .mt, .bond, .line, .plumb, .power, .test, .sdio] m) (hs1 : OnlyIn m s0 s1) :
    OnlyInL m s0 (State.headPages s1 a1 a2 a3 a4 a5 a6) := by
  unfold State.headPages
  extract_lets -merge -underBinder +onlyGivenNames x1 x2
  clear_value x1 x2
  refine onlyL_foldl (fun _ _ _ => ?_) ?_
  · split
    · exact onlyL_mk (by assumption)
    · split
      · exact onlyL_mk (by assumption)
      · split
        · refine OnlyInL.of_eq (m := m) (a := s0) (by assumption) ?_ (fun _ => ?_)
          · exact State.kvPageGet_only hm.sub (by assumption)
          exact onlyL_mk (by assumption)
        · refine OnlyInL.of_eq (m := m) (a := s0) (by assumption) ?_ (fun _ => ?_)
          · exact State.kvPageGet_only hm.sub (by assumption)
          exact onlyL_mk (by assumption)
        · refine OnlyInL.of_eq (m := m) (a := s0) (by assumption) ?_ (fun _ => ?_)
          · exact State.kvPageGet_only hm.sub (by assumption)
          split
          · refine OnlyInL.of_eq (m := m) (a := s0) (by assumption) ?_ (fun _ => ?_)
            · exact State.kvPageGet_only hm.sub (by assumption)
            exact onlyL_mk (by assumption)
          · refine OnlyInL.of_eq (m := m) (a := s0) (by assumption) ?_ (fun _ => ?_)
            · exact State.kvPageGet_only hm.sub (by assumption)
            exact onlyL_mk (by assumption)
          · refine OnlyInL.of_eq (m := m) (a := s0) (by assumption) ?_ (fun _ => ?_)
            · exact State.kvPageGet_only hm.sub (by assumption)
            exact onlyL_mk (by assumption)
  · exact onlyL_mk (by assumption)

theorem State.emptyRows_only {s0 s1 : State} {a1 a2 a3} (hm : Within [.regs, .die] m) (hs1 : OnlyIn m s0 s1) :
    OnlyIn m s0 (State.emptyRows s1 a1 a2 a3) := by
  unfold State.emptyRows
  exact State.bump_only hm.sub (State.updRun_only hm.sub (by assumption))

theorem State.attnWrite_only {s0 s1 : State} {a1 a2 a3 a4 a5}
    (hm : Within [.regs, .mem, .tn, .die, .stream, .kv, .mt, .bond, .line, .plumb, .power, .test, .sdio] m) (hs1 : OnlyIn m s0 s1) :
    OnlyIn m s0 (State.attnWrite s1 a1 a2 a3 a4 a5) := by
  unfold State.attnWrite
  extract_lets -merge -underBinder +onlyGivenNames x1
  have hx1 : OnlyIn m s0 x1 := by
    subst x1
    exact State.emptyRows_only hm.sub (by assumption)
  clear_value x1
  extract_lets -merge -underBinder +onlyGivenNames x2 x3
  clear_value x2 x3
  split
  · refine OnlyInL.of_eq (m := m) (a := s0) (by assumption) ?_ (fun _ => ?_)
    · exact State.spWrite_only hm.sub (by assumption)
    exact State.finish_only hm.sub (by assumption)
  · refine OnlyInL.of_eq (m := m) (a := s0) (by assumption) ?_ (fun _ => ?_)
    · exact State.spWrite_only hm.sub (by assumption)
    refine only_ite ?_ ?_
    · split
      · refine OnlyInL.of_eq (m := m) (a := s0) (by assumption) ?_ (fun _ => ?_)
        · exact State.spWrite_only hm.sub (by assumption)
        exact State.finish_only hm.sub (by assumption)
      · refine OnlyInL.of_eq (m := m) (a := s0) (by assumption) ?_ (fun _ => ?_)
        · exact State.spWrite_only hm.sub (by assumption)
        assumption
    · assumption

theorem State.attnRows_only {s0 s1 : State} {a1 a2 a3 a4 a5 a6 a7}
    (hm : Within [.regs, .mem, .tn, .die, .stream, .kv, .mt, .bond, .line, .plumb, .power, .test, .sdio] m) (hs1 : OnlyIn m s0 s1) :
    OnlyInL m s0 (State.attnRows s1 a1 a2 a3 a4 a5 a6 a7) := by
  unfold State.attnRows
  split
  · refine OnlyInL.of_eq (m := m) (a := s0) (by assumption) ?_ (fun _ => ?_)
    · exact State.headPages_only hm.sub (by assumption)
    exact onlyL_mk (by assumption)
  · refine OnlyInL.of_eq (m := m) (a := s0) (by assumption) ?_ (fun _ => ?_)
    · exact State.headPages_only hm.sub (by assumption)
    extract_lets -merge -underBinder +onlyGivenNames x1
    clear_value x1
    exact onlyL_mk (State.count_only hm.sub (by assumption))

theorem State.attnOver_only {s0 s1 : State} {a1 a2 a3 a4 a5 a6 a7}
    (hm : Within [.regs, .mem, .tn, .die, .stream, .kv, .mt, .bond, .line, .plumb, .power, .test, .sdio] m) (hs1 : OnlyIn m s0 s1) (ha7 : ∀ y0 y1, OnlyIn m s0 y0 → OnlyIn m s0 (a7 y0 y1)) :
    OnlyIn m s0 (State.attnOver s1 a1 a2 a3 a4 a5 a6 a7) := by
  unfold State.attnOver
  split
  · refine OnlyInL.of_eq (m := m) (a := s0) (by assumption) ?_ (fun _ => ?_)
    · exact State.linGet_only hm.sub (by assumption)
    exact State.finish_only hm.sub (by assumption)
  · refine OnlyInL.of_eq (m := m) (a := s0) (by assumption) ?_ (fun _ => ?_)
    · exact State.linGet_only hm.sub (by assumption)
    extract_lets -merge -underBinder +onlyGivenNames x1
    clear_value x1
    split
    · refine OnlyInL.of_eq (m := m) (a := s0) (by assumption) ?_ (fun _ => ?_)
      · exact State.attnRows_only hm.sub (State.count_only hm.sub (by assumption))
      exact State.finish_only hm.sub (by assumption)
    · refine OnlyInL.of_eq (m := m) (a := s0) (by assumption) ?_ (fun _ => ?_)
      · exact State.attnRows_only hm.sub (State.count_only hm.sub (by assumption))
      refine ha7 _ _ ?_
      assumption

theorem State.attnRun_only {s0 s1 : State} {a1 a2 a3 a4 a5}
    (hm : Within [.regs, .mem, .tn, .die, .stream, .kv, .mt, .bond, .line, .plumb, .power, .test, .sdio] m) (hs1 : OnlyIn m s0 s1) :
    OnlyIn m s0 (State.attnRun s1 a1 a2 a3 a4 a5) := by
  unfold State.attnRun
  extract_lets -merge -underBinder +onlyGivenNames x1
  clear_value x1
  refine only_ite ?_ ?_
  · refine State.attnOver_only hm.sub ?_ (fun _ _ _ => ?_)
    · assumption
    · exact State.attnWrite_only hm.sub (by assumption)
  · exact State.updRun_only hm.sub (by assumption)

theorem State.attnPart_only {s0 s1 : State} {a1 a2 a3 a4 a5 a6}
    (hm : Within [.regs, .mem, .tn, .die, .stream, .kv, .mt, .bond, .line, .plumb, .power, .test, .sdio] m) (hs1 : OnlyIn m s0 s1) :
    OnlyIn m s0 (State.attnPart s1 a1 a2 a3 a4 a5 a6) := by
  unfold State.attnPart
  split
  · exact State.finish_only hm.sub (by assumption)
  · refine only_ite ?_ ?_
    · exact State.finish_only hm.sub (by assumption)
    · split
      · exact State.finish_only hm.sub (by assumption)
      · extract_lets -merge -underBinder +onlyGivenNames x1
        clear_value x1
        refine State.attnOver_only hm.sub ?_ (fun _ _ _ => ?_)
        · assumption
        · split
          · refine OnlyInL.of_eq (m := m) (a := s0) (by assumption) ?_ (fun _ => ?_)
            · exact State.spWrite_only hm.sub (by assumption)
            exact State.finish_only hm.sub (by assumption)
          · refine OnlyInL.of_eq (m := m) (a := s0) (by assumption) ?_ (fun _ => ?_)
            · exact State.spWrite_only hm.sub (by assumption)
            exact State.finish_only hm.sub (State.worked_only hm.sub (by assumption))

theorem State.attnOp_only {s0 s1 : State} {a1 a2 a3 a4}
    (hm : Within [.regs, .mem, .tn, .die, .stream, .kv, .mt, .bond, .line, .plumb, .power, .test, .sdio] m) (hs1 : OnlyIn m s0 s1) :
    OnlyInD m s0 (State.attnOp s1 a1 a2 a3 a4) := by
  unfold State.attnOp
  refine onlyD_bind (fun _ => ?_)
  refine onlyD_bind (fun _ => ?_)
  refine onlyD_mk (fun _ _ => ?_)
  refine only_ite ?_ ?_
  · assumption
  · exact State.attnRun_only hm.sub (by assumption)

theorem execAttn_only {s0 : State} {a0 a1 a2 a3}
    (hm : Within [.regs, .mem, .fresh, .tn, .die, .stream, .kv, .mt, .bond, .line, .plumb, .power, .test, .sdio] m) :
    OnlyInN m (State.to s0 a0) (execAttn a0 a1 a2 a3 s0) := by
  unfold execAttn
  refine onTask_only hm.sub (fun _ _ _ => ?_)
  split
  · refine only_ite ?_ ?_
    · exact State.attnPart_only hm.sub (by assumption)
    · assumption
  · refine State.operate_only hm.sub ?_ (fun _ _ _ => ?_)
    · assumption
    · exact State.attnOp_only hm.sub (by assumption)

theorem execAttnMerge_only {s0 : State} {a0 a1 a2 a3}
    (hm : Within [.regs, .mem, .tn, .die, .stream, .kv, .mt, .bond, .line, .plumb, .power, .test, .sdio] m) :
    OnlyInN m (State.to s0 a0) (execAttnMerge a0 a1 a2 a3 s0) := by
  unfold execAttnMerge
  refine onTask_only hm.sub (fun _ _ _ => ?_)
  split
  · assumption
  · refine only_ite ?_ ?_
    · assumption
    · extract_lets -merge -underBinder +onlyGivenNames x1
      have hx1 : OnlyIn m (State.to s0 a0) x1 := by
        subst x1
        exact State.updRun_only hm.sub (by assumption)
      clear_value x1
      split
      · exact State.finish_only hm.sub (by assumption)
      · split
        · refine OnlyInL.of_eq (m := m) (a := (State.to s0 a0)) (by assumption) ?_ (fun _ => ?_)
          · exact State.linGet_only hm.sub (by assumption)
          exact State.finish_only hm.sub (by assumption)
        · refine OnlyInL.of_eq (m := m) (a := (State.to s0 a0)) (by assumption) ?_ (fun _ => ?_)
          · exact State.linGet_only hm.sub (by assumption)
          exact State.moves_only hm.sub (State.attnWrite_only hm.sub (by assumption))

theorem State.linGets_only {s0 s1 : State} {a1 a2 a3 a4}
    (hm : Within [.regs, .mem, .tn, .die, .stream, .kv, .mt, .bond, .line, .plumb, .power, .test, .sdio] m) (hs1 : OnlyIn m s0 s1) :
    OnlyInL m s0 (State.linGets s1 a1 a2 a3 a4) := by
  unfold State.linGets
  refine onlyL_foldl (fun _ _ _ => ?_) ?_
  · split
    · exact onlyL_mk (by assumption)
    · split
      · refine OnlyInL.of_eq (m := m) (a := s0) (by assumption) ?_ (fun _ => ?_)
        · exact State.linGet_only hm.sub (by assumption)
        exact onlyL_mk (by assumption)
      · refine OnlyInL.of_eq (m := m) (a := s0) (by assumption) ?_ (fun _ => ?_)
        · exact State.linGet_only hm.sub (by assumption)
        exact onlyL_mk (by assumption)
  · exact onlyL_mk (by assumption)

theorem State.bwdWrite_only {s0 s1 : State} {a1 a2 a3 a4 a5}
    (hm : Within [.regs, .mem, .tn, .die, .stream, .kv, .mt, .bond, .line, .plumb, .power, .test, .sdio] m) (hs1 : OnlyIn m s0 s1) :
    OnlyIn m s0 (State.bwdWrite s1 a1 a2 a3 a4 a5) := by
  unfold State.bwdWrite
  extract_lets -merge -underBinder +onlyGivenNames x1
  have hx1 : OnlyIn m s0 x1 := by
    subst x1
    exact State.emptyRows_only hm.sub (State.count_only hm.sub (by assumption))
  clear_value x1
  split
  · refine OnlyInL.of_eq (m := m) (a := s0) (by assumption) ?_ (fun _ => ?_)
    · refine mvEach_only hm.sub ?_ (fun _ _ _ => ?_)
      · assumption
      · refine onlyL_ite ?_ ?_
        · exact State.spWrite_only hm.sub (by assumption)
        · exact onlyL_mk (by assumption)
    exact State.finish_only hm.sub (by assumption)
  · refine OnlyInL.of_eq (m := m) (a := s0) (by assumption) ?_ (fun _ => ?_)
    · refine mvEach_only hm.sub ?_ (fun _ _ _ => ?_)
      · assumption
      · refine onlyL_ite ?_ ?_
        · exact State.spWrite_only hm.sub (by assumption)
        · exact onlyL_mk (by assumption)
    assumption

theorem State.bwdRun_only {s0 s1 : State} {a1 a2 a3 a4 a5 a6}
    (hm : Within [.regs, .mem, .tn, .die, .stream, .kv, .mt, .bond, .line, .plumb, .power, .test, .sdio] m) (hs1 : OnlyIn m s0 s1) :
    OnlyIn m s0 (State.bwdRun s1 a1 a2 a3 a4 a5 a6) := by
  unfold State.bwdRun
  extract_lets -merge -underBinder +onlyGivenNames x1 x2
  clear_value x1 x2
  split
  · refine OnlyInL.of_eq (m := m) (a := s0) (by assumption) ?_ (fun _ => ?_)
    · exact State.linGets_only hm.sub (by assumption)
    exact State.finish_only hm.sub (by assumption)
  · refine OnlyInL.of_eq (m := m) (a := s0) (by assumption) ?_ (fun _ => ?_)
    · exact State.linGets_only hm.sub (by assumption)
    split
    · refine OnlyInL.of_eq (m := m) (a := s0) (by assumption) ?_ (fun _ => ?_)
      · exact State.headPages_only hm.sub (by assumption)
      exact State.finish_only hm.sub (by assumption)
    · refine OnlyInL.of_eq (m := m) (a := s0) (by assumption) ?_ (fun _ => ?_)
      · exact State.headPages_only hm.sub (by assumption)
      extract_lets -merge -underBinder +onlyGivenNames x3 x4
      clear_value x3 x4
      exact State.bwdWrite_only hm.sub (State.count_only hm.sub (by assumption))

theorem State.attnBwdOp_only {s0 s1 : State} {a1 a2 a3 a4}
    (hm : Within [.regs, .mem, .tn, .die, .stream, .kv, .mt, .bond, .line, .plumb, .power, .test, .sdio] m) (hs1 : OnlyIn m s0 s1) :
    OnlyInD m s0 (State.attnBwdOp s1 a1 a2 a3 a4) := by
  unfold State.attnBwdOp
  refine onlyD_bind (fun _ => ?_)
  refine onlyD_bind (fun _ => ?_)
  refine onlyD_bind (fun _ => ?_)
  refine onlyD_mk (fun _ _ => ?_)
  refine only_ite ?_ ?_
  · assumption
  · split
    · refine OnlyInL.of_eq (m := m) (a := s0) (by assumption) ?_ (fun _ => ?_)
      · exact State.linGet_only hm.sub (by assumption)
      exact State.finish_only hm.sub (by assumption)
    · refine OnlyInL.of_eq (m := m) (a := s0) (by assumption) ?_ (fun _ => ?_)
      · exact State.linGet_only hm.sub (by assumption)
      refine only_ite ?_ ?_
      · exact State.finish_only hm.sub (State.bump_only hm.sub (State.raise_only hm.sub (by assumption)))
      · refine only_ite ?_ ?_
        · exact State.finish_only hm.sub (by assumption)
        · exact State.bwdRun_only hm.sub (by assumption)

theorem execAttnBwd_only {s0 : State} {a0 a1 a2 a3}
    (hm : Within [.regs, .mem, .fresh, .tn, .die, .stream, .kv, .mt, .bond, .line, .plumb, .power, .test, .sdio] m) :
    OnlyInN m (State.to s0 a0) (execAttnBwd a0 a1 a2 a3 s0) := by
  unfold execAttnBwd
  refine onTask_only hm.sub (fun _ _ _ => ?_)
  refine State.operate_only hm.sub ?_ (fun _ _ _ => ?_)
  · assumption
  · exact State.attnBwdOp_only hm.sub (by assumption)

theorem State.updGroup_only {s0 s1 : State} {a1 a2} (hm : Within [.adapt] m) (hs1 : OnlyIn m s0 s1) :
    OnlyIn m s0 (State.updGroup s1 a1 a2) := by
  unfold State.updGroup
  exact State.updAdapt_only hm.sub (by assumption)

theorem State.mastersGet_only {s0 s1 : State} {a1 a2 a3}
    (hm : Within [.regs, .mem, .tn, .die, .stream, .kv, .mt, .bond, .line, .plumb, .power, .test, .sdio] m) (hs1 : OnlyIn m s0 s1) :
    OnlyInL m s0 (State.mastersGet s1 a1 a2 a3) := by
  unfold State.mastersGet
  extract_lets -merge -underBinder +onlyGivenNames x1
  clear_value x1
  split
  · refine OnlyInL.of_eq (m := m) (a := s0) (by assumption) ?_ (fun _ => ?_)
    · exact State.eccRead_only hm.sub (by assumption)
    extract_lets -merge -underBinder +onlyGivenNames x2
    clear_value x2
    exact onlyL_mk (by assumption)

theorem State.mastersPut_only {s0 s1 : State} {a1 a2 a3} (hm : Within [.mem, .mt] m) (hs1 : OnlyIn m s0 s1) :
    OnlyIn m s0 (State.mastersPut s1 a1 a2 a3) := by
  unfold State.mastersPut
  exact State.stBytes_only hm.sub (by assumption)

theorem State.adaptAccumOp_only {s0 s1 : State} {a1 a2 a3 a4}
    (hm : Within [.regs, .mem, .tn, .die, .stream, .kv, .adapt, .mt, .bond, .line, .plumb, .power, .test, .sdio] m) (hs1 : OnlyIn m s0 s1) :
    OnlyInD m s0 (State.adaptAccumOp s1 a1 a2 a3 a4) := by
  unfold State.adaptAccumOp
  extract_lets -merge -underBinder +onlyGivenNames x1
  clear_value x1
  refine onlyD_bind (fun _ => ?_)
  refine onlyD_bind (fun _ => ?_)
  split
  · exact onlyD_error
  · refine onlyD_bind (fun _ => ?_)
    refine onlyD_bind (fun _ => ?_)
    refine onlyD_mk (fun _ _ => ?_)
    refine only_ite ?_ ?_
    · assumption
    · split
      · refine OnlyInL.of_eq (m := m) (a := s0) (by assumption) ?_ (fun _ => ?_)
        · exact State.linGet_only hm.sub (by assumption)
        exact State.finish_only hm.sub (by assumption)
      · refine OnlyInL.of_eq (m := m) (a := s0) (by assumption) ?_ (fun _ => ?_)
        · exact State.linGet_only hm.sub (by assumption)
        split
        · refine OnlyInL.of_eq (m := m) (a := s0) (by assumption) ?_ (fun _ => ?_)
          · exact State.mastersGet_only hm.sub (by assumption)
          exact State.finish_only hm.sub (by assumption)
        · refine OnlyInL.of_eq (m := m) (a := s0) (by assumption) ?_ (fun _ => ?_)
          · exact State.mastersGet_only hm.sub (by assumption)
          extract_lets -merge -underBinder +onlyGivenNames x2
          have hx2 : OnlyIn m s0 x2 := by
            subst x2
            exact State.mastersPut_only hm.sub (by assumption)
          clear_value x2
          extract_lets -merge -underBinder +onlyGivenNames x3
          have hx3 : OnlyIn m s0 x3 := by
            subst x3
            refine only_ite ?_ ?_
            · assumption
            · exact State.updAccount_only hm.sub (by assumption)
          clear_value x3
          exact State.updGroup_only hm.sub (by assumption)

theorem execAdaptAccum_only {s0 : State} {a0 a1 a2 a3}
    (hm : Within [.regs, .mem, .fresh, .tn, .die, .stream, .kv, .adapt, .mt, .bond, .line, .plumb, .power, .test, .sdio] m) :
    OnlyInN m (State.to s0 a0) (execAdaptAccum a0 a1 a2 a3 s0) := by
  unfold execAdaptAccum
  refine onTask_only hm.sub (fun _ _ _ => ?_)
  refine State.operate_only hm.sub ?_ (fun _ _ _ => ?_)
  · assumption
  · exact State.adaptAccumOp_only hm.sub (by assumption)

theorem State.adaptStepOp_only {s0 s1 : State} {a1 a2 a3 a4}
    (hm : Within [.regs, .mem, .tn, .die, .stream, .kv, .adapt, .mt, .bond, .line, .plumb, .power, .test, .sdio] m) (hs1 : OnlyIn m s0 s1) :
    OnlyInD m s0 (State.adaptStepOp s1 a1 a2 a3 a4) := by
  unfold State.adaptStepOp
  extract_lets -merge -underBinder +onlyGivenNames x1
  clear_value x1
  refine onlyD_bind (fun _ => ?_)
  refine onlyD_bind (fun _ => ?_)
  split
  · exact onlyD_error
  · refine onlyD_bind (fun _ => ?_)
    refine onlyD_mk (fun _ _ => ?_)
    refine only_ite ?_ ?_
    · assumption
    · split
      · refine OnlyInL.of_eq (m := m) (a := s0) (by assumption) ?_ (fun _ => ?_)
        · exact State.mastersGet_only hm.sub (by assumption)
        exact State.finish_only hm.sub (by assumption)
      · refine OnlyInL.of_eq (m := m) (a := s0) (by assumption) ?_ (fun _ => ?_)
        · exact State.mastersGet_only hm.sub (by assumption)
        extract_lets -merge -underBinder +onlyGivenNames x2
        have hx2 : OnlyIn m s0 x2 := by
          subst x2
          exact State.updGroup_only hm.sub (by assumption)
        clear_value x2
        refine only_ite ?_ ?_
        · exact State.raise_only hm.sub (State.bumpHi_only hm.sub (State.mastersPut_only hm.sub (by assumption)))
        · exact State.updAdapt_only hm.sub (State.mastersPut_only hm.sub (by assumption))

theorem execAdaptStep_only {s0 : State} {a0 a1 a2 a3}
    (hm : Within [.regs, .mem, .fresh, .tn, .die, .stream, .kv, .adapt, .mt, .bond, .line, .plumb, .power, .test, .sdio] m) :
    OnlyInN m (State.to s0 a0) (execAdaptStep a0 a1 a2 a3 s0) := by
  unfold execAdaptStep
  refine onTask_only hm.sub (fun _ _ _ => ?_)
  refine State.operate_only hm.sub ?_ (fun _ _ _ => ?_)
  · assumption
  · exact State.adaptStepOp_only hm.sub (by assumption)

theorem State.stageEpoch_only {s0 s1 : State} {a1} (hm : Within [.adapt, .bond] m) (hs1 : OnlyIn m s0 s1) :
    OnlyIn m s0 (State.stageEpoch s1 a1) := by
  unfold State.stageEpoch
  extract_lets -merge -underBinder +onlyGivenNames x1 x2 x3
  clear_value x1 x2 x3
  exact State.updBond_only hm.sub (State.updAdapt_only hm.sub (by assumption))

theorem State.commitBegin_only {s0 s1 : State} (hm : Within [.adapt] m) (hs1 : OnlyIn m s0 s1) :
    OnlyIn m s0 (State.commitBegin s1) := by
  unfold State.commitBegin
  refine only_ite ?_ ?_
  · exact State.updAdapt_only hm.sub (by assumption)
  · assumption

theorem State.mastersAll_only {s0 s1 : State}
    (hm : Within [.regs, .mem, .tn, .die, .stream, .kv, .mt, .bond, .line, .plumb, .power, .test, .sdio] m) (hs1 : OnlyIn m s0 s1) :
    OnlyInL m s0 (State.mastersAll s1) := by
  unfold State.mastersAll
  refine onlyL_foldl (fun _ _ _ => ?_) ?_
  · split
    · refine OnlyInL.of_eq (m := m) (a := s0) (by assumption) ?_ (fun _ => ?_)
      · refine State.mastersGet_only hm.sub ?_
        exact OnlyInL.fst (by assumption)
      exact onlyL_mk (by assumption)
  · exact onlyL_mk (by assumption)

theorem execAdaptCommit_only {s0 : State} {a0}
    (hm : Within [.regs, .mem, .tn, .die, .stream, .kv, .adapt, .mt, .bond, .line, .plumb, .power, .test, .sdio] m) :
    OnlyInN m (State.to s0 a0) (execAdaptCommit a0 s0) := by
  unfold execAdaptCommit
  extract_lets -merge -underBinder +onlyGivenNames x1
  have hx1 : OnlyIn m (State.to s0 a0) x1 := by
    subst x1
    exact OnlyIn.refl _ _
  clear_value x1
  refine guardNext_only ?_ (fun _ _ => ?_)
  · assumption
  · split
    · refine OnlyInL.of_eq (m := m) (a := (State.to s0 a0)) (by assumption) ?_ (fun _ => ?_)
      · exact State.mastersAll_only hm.sub (State.updAdapt_only hm.sub (by assumption))
      exact State.bumpLo_only hm.sub (by assumption)
    · refine OnlyInL.of_eq (m := m) (a := (State.to s0 a0)) (by assumption) ?_ (fun _ => ?_)
      · exact State.mastersAll_only hm.sub (State.updAdapt_only hm.sub (by assumption))
      split
      · exact State.raise_only hm.sub (State.bumpLo_only hm.sub (by assumption))
      · refine State.raise_only hm.sub ?_
        exact State.bump_only hm.sub (State.updAdapt_only hm.sub (State.stageEpoch_only hm.sub (by assumption)))

theorem State.epochRollback_only {s0 s1 : State} (hm : Within [.regs, .tn, .adapt, .bond, .sdio] m) (hs1 : OnlyIn m s0 s1) :
    OnlyIn m s0 (State.epochRollback s1) := by
  unfold State.epochRollback
  exact State.raise_only hm.sub (State.regSet_only hm.sub (State.stageEpoch_only hm.sub (by assumption)))

end Sys2Proof.Machine
end

