-- ==== Sys2Proof/Laws/OnlyMem.lean ====
section
/-! SUPPORT. What the operations of Machine/Mem.lean may change (Laws/Only.lean). -/
namespace Sys2Proof.Machine
set_option Elab.async false

variable {m : List Block}

theorem execLintelScrub_only {s0 : State} {a0 a1}
    (hm : Within [.regs, .mem, .tn, .die, .stream, .kv, .mt, .bond, .line, .plumb, .power, .test, .sdio] m) :
    OnlyInN m (State.to s0 a0) (execLintelScrub a0 a1 s0) := by
  unfold execLintelScrub
  extract_lets -merge -underBinder +onlyGivenNames x1
  have hx1 : OnlyIn m (State.to s0 a0) x1 := by
    subst x1
    exact OnlyIn.refl _ _
  clear_value x1
  refine guardNext_only ?_ (fun _ _ => ?_)
  · assumption
  · exact OnlyInL.fst (State.eccRead_only hm.sub (by assumption))

theorem execQuarryScrub_only {s0 : State} {a0} (hm : Within [.mt] m) :
    OnlyInN m (State.to s0 a0) (execQuarryScrub a0 s0) := by
  unfold execQuarryScrub
  extract_lets -merge -underBinder +onlyGivenNames x1
  have hx1 : OnlyIn m (State.to s0 a0) x1 := by
    subst x1
    exact OnlyIn.refl _ _
  clear_value x1
  refine guardNext_only ?_ (fun _ _ => ?_)
  · assumption
  · extract_lets -merge -underBinder +onlyGivenNames x2
    clear_value x2
    split
    · assumption
    · exact State.updMt_only hm.sub (State.queueBursts_only hm.sub (by assumption))

theorem State.burstRead_only {s0 s1 : State} {a1 a2}
    (hm : Within [.regs, .mem, .tn, .die, .mt, .bond, .test, .sdio] m) (hs1 : OnlyIn m s0 s1) :
    OnlyIn m s0 (State.burstRead s1 a1 a2) := by
  unfold State.burstRead
  refine State.each_only ?_ (fun _ _ _ => ?_)
  · assumption
  · refine only_ite ?_ ?_
    · extract_lets -merge -underBinder +onlyGivenNames x1
      have hx1 : OnlyIn m s0 x1 := by
        subst x1
        exact State.updTest_only hm.sub (State.raise_only hm.sub (State.bumpHi_only hm.sub (by assumption)))
      clear_value x1
      refine only_ite ?_ ?_
      · exact State.queueBurst_only hm.sub (by assumption)
      · assumption
    · extract_lets -merge -underBinder +onlyGivenNames x2
      have hx2 : OnlyIn m s0 x2 := by
        subst x2
        exact State.raise_only hm.sub (State.bumpLo_only hm.sub (by assumption))
      clear_value x2
      extract_lets -merge -underBinder +onlyGivenNames x3
      have hx3 : OnlyIn m s0 x3 := by
        subst x3
        exact State.burstErr_only hm.sub (by assumption)
      clear_value x3
      extract_lets -merge -underBinder +onlyGivenNames x4 x5
      clear_value x4
      have hx5 : OnlyIn m s0 x5 := by
        subst x5
        exact State.updQch_only hm.sub (by assumption)
      clear_value x5
      refine only_ite ?_ ?_
      · exact State.qchExclude_only hm.sub (by assumption)
      · assumption

theorem State.burstWrite_only {s0 s1 : State} {a1 a2} (hm : Within [.mt] m) (hs1 : OnlyIn m s0 s1) :
    OnlyIn m s0 (State.burstWrite s1 a1 a2) := by
  unfold State.burstWrite
  refine State.each_only ?_ (fun _ _ _ => ?_)
  · assumption
  · refine only_ite ?_ ?_
    · exact State.unflip_only hm.sub (by assumption)
    · assumption

theorem execQuarryBurst_only {s0 : State} {a0 a1} (hm : Within [.regs, .mem, .tn, .die, .mt, .bond, .test, .sdio] m) :
    OnlyInN m (State.to s0 a0) (execQuarryBurst a0 a1 s0) := by
  unfold execQuarryBurst
  extract_lets -merge -underBinder +onlyGivenNames x1
  have hx1 : OnlyIn m (State.to s0 a0) x1 := by
    subst x1
    exact OnlyIn.refl _ _
  clear_value x1
  extract_lets -merge -underBinder +onlyGivenNames x2
  clear_value x2
  refine guardNext_only ?_ (fun _ _ => ?_)
  · assumption
  · split
    · assumption
    · split
      · assumption
      · extract_lets -merge -underBinder +onlyGivenNames x3
        have hx3 : OnlyIn m (State.to s0 a0) x3 := by
          subst x3
          exact State.bump_only hm.sub (State.updQch_only hm.sub (by assumption))
        clear_value x3
        refine only_ite ?_ ?_
        · exact State.burstWrite_only hm.sub (by assumption)
        · exact State.burstRead_only hm.sub (by assumption)

theorem execBurstTimeout_only {s0 : State} {a0 a1} (hm : Within [.regs, .mem, .tn, .die, .mt, .bond, .sdio] m) :
    OnlyInN m (State.to s0 a0) (execBurstTimeout a0 a1 s0) := by
  unfold execBurstTimeout
  extract_lets -merge -underBinder +onlyGivenNames x1
  have hx1 : OnlyIn m (State.to s0 a0) x1 := by
    subst x1
    exact OnlyIn.refl _ _
  clear_value x1
  extract_lets -merge -underBinder +onlyGivenNames x2
  clear_value x2
  refine guardNext_only ?_ (fun _ _ => ?_)
  · assumption
  · exact State.qchExclude_only hm.sub (State.bump_only hm.sub (by assumption))

theorem execLostMarkingDone_only {s0 : State} {a0} (hm : Within [.regs, .mem, .tn, .mt, .sdio] m) :
    OnlyInN m (State.to s0 a0) (execLostMarkingDone a0 s0) := by
  unfold execLostMarkingDone
  extract_lets -merge -underBinder +onlyGivenNames x1
  have hx1 : OnlyIn m (State.to s0 a0) x1 := by
    subst x1
    exact OnlyIn.refl _ _
  clear_value x1
  refine guardNext_only ?_ (fun _ _ => ?_)
  · assumption
  · extract_lets -merge -underBinder +onlyGivenNames x2
    have hx2 : OnlyIn m (State.to s0 a0) x2 := by
      subst x2
      exact State.updMt_only hm.sub (State.markLost_only hm.sub (by assumption))
    clear_value x2
    refine only_ite ?_ ?_
    · exact State.remapLost_only hm.sub (by assumption)
    · assumption

theorem execMigrationPeriod_only {s0 : State} {a0} (hm : Within [.mem, .mt] m) :
    OnlyInN m (State.to s0 a0) (execMigrationPeriod a0 s0) := by
  unfold execMigrationPeriod
  extract_lets -merge -underBinder +onlyGivenNames x1
  have hx1 : OnlyIn m (State.to s0 a0) x1 := by
    subst x1
    exact OnlyIn.refl _ _
  clear_value x1
  refine guardNext_only ?_ (fun _ _ => ?_)
  · assumption
  · refine State.each_only ?_ (fun _ _ _ => ?_)
    · assumption
    · exact State.migrate_only hm.sub (by assumption)

theorem execMigrationMoveDone_only {s0 : State} {a0 a1}
    (hm : Within [.regs, .mem, .tn, .die, .stream, .kv, .mt, .bond, .line, .plumb, .power, .test, .sdio] m) :
    OnlyInN m (State.to s0 a0) (execMigrationMoveDone a0 a1 s0) := by
  unfold execMigrationMoveDone
  refine onlyN_next ?_
  refine State.moveDone_only hm.sub ?_
  exact OnlyIn.refl _ _

theorem execQchWear_only {s0 : State} {a0} (hm : Within [.regs, .tn, .test, .sdio] m) :
    OnlyInN m (State.to s0 a0) (execQchWear a0 s0) := by
  unfold execQchWear
  extract_lets -merge -underBinder +onlyGivenNames x1
  have hx1 : OnlyIn m (State.to s0 a0) x1 := by
    subst x1
    exact OnlyIn.refl _ _
  clear_value x1
  extract_lets -merge -underBinder +onlyGivenNames x2 x3
  clear_value x2
  have hx3 : OnlyIn m (State.to s0 a0) x3 := by
    subst x3
    refine only_ite ?_ ?_
    · exact State.raise_only hm.sub (by assumption)
    · assumption
  clear_value x3
  exact onlyN_next (State.updTest_only hm.sub (by assumption))

end Sys2Proof.Machine
end

