-- ==== Sys2Proof/Laws/OnlyLineCore.lean ====
section
/-! SUPPORT. What the operations of Machine/LineCore.lean may change (Laws/Only.lean). -/
namespace Sys2Proof.Machine
set_option Elab.async false

variable {m : List Block}

theorem State.dacApply_only {s0 s1 : State} {a1 a2} (hm : Within [.line, .plumb] m) (hs1 : OnlyIn m s0 s1) :
    OnlyIn m s0 (State.dacApply s1 a1 a2) := by
  unfold State.dacApply
  refine only_ite ?_ ?_
  · assumption
  · extract_lets -merge -underBinder +onlyGivenNames x1
    have hx1 : OnlyIn m s0 x1 := by
      subst x1
      exact State.updTarget_only hm.sub (by assumption)
    clear_value x1
    exact State.updLine_only hm.sub (by assumption)

theorem State.axDrive_only {s0 s1 : State} {a1 a2} (hm : Within [.regs, .line, .plumb] m) (hs1 : OnlyIn m s0 s1) :
    OnlyIn m s0 (State.axDrive s1 a1 a2) := by
  unfold State.axDrive
  extract_lets -merge -underBinder +onlyGivenNames x1
  have hx1 : OnlyIn m s0 x1 := by
    subst x1
    exact State.regSet_only hm.sub (State.updAx_only hm.sub (by assumption))
  clear_value x1
  extract_lets -merge -underBinder +onlyGivenNames x2
  have hx2 : OnlyIn m s0 x2 := by
    subst x2
    exact State.updTarget_only hm.sub (by assumption)
  clear_value x2
  split
  · refine only_ite ?_ ?_
    · assumption
    · exact State.dacApply_only hm.sub (by assumption)
  · assumption

theorem State.stepPeriod_only {s0 s1 : State} {a1} (hm : Within [.line] m) (hs1 : OnlyIn m s0 s1) :
    OnlyIn m s0 (State.stepPeriod s1 a1) := by
  unfold State.stepPeriod
  refine only_ite ?_ ?_
  · assumption
  · extract_lets -merge -underBinder +onlyGivenNames x1 x2
    clear_value x1 x2
    exact State.updAx_only hm.sub (by assumption)

theorem State.axFault_only {s0 s1 : State} {a1 a2}
    (hm : Within [.regs, .tn, .line, .plumb, .sdio] m) (hs1 : OnlyIn m s0 s1) :
    OnlyIn m s0 (State.axFault s1 a1 a2) := by
  unfold State.axFault
  refine only_ite ?_ ?_
  · assumption
  · extract_lets -merge -underBinder +onlyGivenNames x1 x2
    clear_value x1
    have hx2 : OnlyIn m s0 x2 := by
      subst x2
      exact State.updAx_only hm.sub (by assumption)
    clear_value x2
    extract_lets -merge -underBinder +onlyGivenNames x3
    have hx3 : OnlyIn m s0 x3 := by
      subst x3
      refine only_ite ?_ ?_
      · exact State.raise_only hm.sub (by assumption)
      · assumption
    clear_value x3
    extract_lets -merge -underBinder +onlyGivenNames x4
    have hx4 : OnlyIn m s0 x4 := by
      subst x4
      exact State.raise_only hm.sub (by assumption)
    clear_value x4
    split
    · refine only_ite ?_ ?_
      · exact State.axDrive_only hm.sub (by assumption)
      · exact State.updAx_only hm.sub (by assumption)
    · exact State.axDrive_only hm.sub (by assumption)
    · exact State.axDrive_only hm.sub (by assumption)

theorem State.rampTick_only {s0 s1 : State} {a1} (hm : Within [.regs, .line, .plumb] m) (hs1 : OnlyIn m s0 s1) :
    OnlyIn m s0 (State.rampTick s1 a1) := by
  unfold State.rampTick
  split
  · assumption
  · extract_lets -merge -underBinder +onlyGivenNames x1 x2
    clear_value x1 x2
    refine only_ite ?_ ?_
    · exact State.axDrive_only hm.sub (State.updAx_only hm.sub (by assumption))
    · exact State.axDrive_only hm.sub (by assumption)

theorem State.fbFault_only {s0 s1 : State} {a1} (hm : Within [.regs, .tn, .line, .plumb, .sdio] m) (hs1 : OnlyIn m s0 s1) :
    OnlyIn m s0 (State.fbFault s1 a1) := by
  unfold State.fbFault
  exact State.axFault_only hm.sub (State.raise_only hm.sub (by assumption))

theorem State.grpZero_only {s0 s1 : State} {a1 a2} (hm : Within [.regs, .line] m) (hs1 : OnlyIn m s0 s1) :
    OnlyIn m s0 (State.grpZero s1 a1 a2) := by
  unfold State.grpZero
  exact State.regSet_only hm.sub (State.updAxGrp_only hm.sub (by assumption))

theorem State.axEnable_only {s0 s1 : State} {a1} (hm : Within [.regs, .line, .plumb] m) (hs1 : OnlyIn m s0 s1) :
    OnlyIn m s0 (State.axEnable s1 a1) := by
  unfold State.axEnable
  extract_lets -merge -underBinder +onlyGivenNames x1
  have hx1 : OnlyIn m s0 x1 := by
    subst x1
    exact State.updAx_only hm.sub (by assumption)
  clear_value x1
  extract_lets -merge -underBinder +onlyGivenNames x2
  have hx2 : OnlyIn m s0 x2 := by
    subst x2
    split
    · exact State.grpZero_only hm.sub (by assumption)
    · assumption
  clear_value x2
  exact State.axDrive_only hm.sub (by assumption)

end Sys2Proof.Machine
end

