-- ==== Sys2Proof/Laws/OnlyMotionCore.lean ====
section
/-! SUPPORT. What the operations of Machine/MotionCore.lean may change (Laws/Only.lean). -/
namespace Sys2Proof.Machine
set_option Elab.async false

variable {m : List Block}

theorem State.endReq_only {s0 s1 : State} {a1 a2 a3}
    (hm : Within [.regs, .mem, .tn, .die, .stream, .kv, .mt, .bond, .line, .plumb, .test, .sdio] m) (hs1 : OnlyIn m s0 s1) :
    OnlyIn m s0 (State.endReq s1 a1 a2 a3) := by
  unfold State.endReq
  extract_lets -merge -underBinder +onlyGivenNames x1 x2
  clear_value x1
  have hx2 : OnlyIn m s0 x2 := by
    subst x2
    exact State.updLine_only hm.sub (by assumption)
  clear_value x2
  extract_lets -merge -underBinder +onlyGivenNames x3
  have hx3 : OnlyIn m s0 x3 := by
    subst x3
    refine only_ite ?_ ?_
    · assumption
    · exact State.updCar_only hm.sub (by assumption)
  clear_value x3
  extract_lets -merge -underBinder +onlyGivenNames x4
  have hx4 : OnlyIn m s0 x4 := by
    subst x4
    exact State.emit_only hm.sub (by assumption)
  clear_value x4
  extract_lets -merge -underBinder +onlyGivenNames x5
  have hx5 : OnlyIn m s0 x5 := by
    subst x5
    refine only_ite ?_ ?_
    · exact State.raise_only hm.sub (State.bump_only hm.sub (by assumption))
    · assumption
  clear_value x5
  extract_lets -merge -underBinder +onlyGivenNames x6
  have hx6 : OnlyIn m s0 x6 := by
    subst x6
    refine only_ite ?_ ?_
    · exact State.raise_only hm.sub (by assumption)
    · assumption
  clear_value x6
  exact State.watchKick_only hm.sub (by assumption)

theorem State.dropBatch_only {s0 s1 : State} {a1} (hm : Within [.line] m) (hs1 : OnlyIn m s0 s1) :
    OnlyIn m s0 (State.dropBatch s1 a1) := by
  unfold State.dropBatch
  exact State.updLine_only hm.sub (by assumption)

theorem State.endHead_only {s0 s1 : State} {a1 a2 a3}
    (hm : Within [.regs, .mem, .tn, .die, .stream, .kv, .mt, .bond, .line, .plumb, .test, .sdio] m) (hs1 : OnlyIn m s0 s1) :
    OnlyIn m s0 (State.endHead s1 a1 a2 a3) := by
  unfold State.endHead
  split
  · assumption
  · exact State.endReq_only hm.sub (State.updCar_only hm.sub (State.dropBatch_only hm.sub (by assumption)))

theorem State.endQueued_only {s0 s1 : State} {a1 a2 a3}
    (hm : Within [.regs, .mem, .tn, .die, .stream, .kv, .mt, .bond, .line, .plumb, .test, .sdio] m) (hs1 : OnlyIn m s0 s1) :
    OnlyIn m s0 (State.endQueued s1 a1 a2 a3) := by
  unfold State.endQueued
  extract_lets -merge -underBinder +onlyGivenNames x1 x2
  clear_value x1
  have hx2 : OnlyIn m s0 x2 := by
    subst x2
    exact State.updCar_only hm.sub (by assumption)
  clear_value x2
  refine State.each_only ?_ (fun _ _ _ => ?_)
  · assumption
  · exact State.endReq_only hm.sub (by assumption)

theorem State.carLost_only {s0 s1 : State} {a1 a2}
    (hm : Within [.regs, .mem, .tn, .die, .stream, .kv, .mt, .bond, .line, .plumb, .test, .sdio] m) (hs1 : OnlyIn m s0 s1) :
    OnlyIn m s0 (State.carLost s1 a1 a2) := by
  unfold State.carLost
  extract_lets -merge -underBinder +onlyGivenNames x1
  have hx1 : OnlyIn m s0 x1 := by
    subst x1
    exact State.updCar_only hm.sub (State.dropBatch_only hm.sub (by assumption))
  clear_value x1
  exact State.raise_only hm.sub (State.endQueued_only hm.sub (by assumption))

theorem State.carCheck1_only {s0 s1 : State} {a1}
    (hm : Within [.regs, .mem, .tn, .die, .stream, .kv, .mt, .bond, .line, .plumb, .test, .sdio] m) (hs1 : OnlyIn m s0 s1) :
    OnlyIn m s0 (State.carCheck1 s1 a1) := by
  unfold State.carCheck1
  extract_lets -merge -underBinder +onlyGivenNames x1 x2 x3
  clear_value x1 x2 x3
  refine only_ite ?_ ?_
  · refine only_ite ?_ ?_
    · assumption
    · exact State.updCar_only hm.sub (by assumption)
  · refine only_ite ?_ ?_
    · exact State.carLost_only hm.sub (by assumption)
    · exact State.updCar_only hm.sub (by assumption)

theorem State.carCheck_only {s0 s1 : State}
    (hm : Within [.regs, .mem, .tn, .die, .stream, .kv, .mt, .bond, .line, .plumb, .test, .sdio] m) (hs1 : OnlyIn m s0 s1) :
    OnlyIn m s0 (State.carCheck s1) := by
  unfold State.carCheck
  refine State.each_only ?_ (fun _ _ _ => ?_)
  · assumption
  · exact State.carCheck1_only hm.sub (by assumption)

theorem State.queueReq_only {s0 s1 : State} {a1}
    (hm : Within [.regs, .mem, .tn, .die, .stream, .kv, .mt, .bond, .line, .plumb, .test, .sdio] m) (hs1 : OnlyIn m s0 s1) :
    OnlyIn m s0 (State.queueReq s1 a1) := by
  unfold State.queueReq
  extract_lets -merge -underBinder +onlyGivenNames x1 x2 x3
  clear_value x1 x2
  have hx3 : OnlyIn m s0 x3 := by
    subst x3
    exact State.watchRef_only hm.sub (State.updLine_only hm.sub (by assumption))
  clear_value x3
  refine only_ite ?_ ?_
  · exact State.endReq_only hm.sub (by assumption)
  · refine only_ite ?_ ?_
    · exact State.endReq_only hm.sub (by assumption)
    · refine only_ite ?_ ?_
      · exact State.endReq_only hm.sub (State.raise_only hm.sub (by assumption))
      · exact State.updCar_only hm.sub (by assumption)

theorem State.takeReq_only {s0 s1 : State} {a1 a2}
    (hm : Within [.regs, .mem, .tn, .die, .stream, .kv, .mt, .bond, .line, .plumb, .test, .sdio] m) (hs1 : OnlyIn m s0 s1) :
    OnlyIn m s0 (State.takeReq s1 a1 a2) := by
  unfold State.takeReq
  extract_lets -merge -underBinder +onlyGivenNames x1
  have hx1 : OnlyIn m s0 x1 := by
    subst x1
    exact State.updLine_only hm.sub (State.bump_only hm.sub (by assumption))
  clear_value x1
  extract_lets -merge -underBinder +onlyGivenNames x2
  clear_value x2
  refine only_ite ?_ ?_
  · exact State.endReq_only hm.sub (State.raise_only hm.sub (State.bumpHi_only hm.sub (by assumption)))
  · split
    · exact State.regSet_only hm.sub (by assumption)
    · split
      · assumption
      · split
        · exact State.endReq_only hm.sub (State.updCar_only hm.sub (by assumption))
        · assumption
    · exact State.queueReq_only hm.sub (by assumption)

theorem State.takeRing_only {s0 s1 : State} {a1 a2 a3 a4}
    (hm : Within [.regs, .mem, .tn, .die, .stream, .kv, .mt, .bond, .line, .plumb, .test, .sdio] m) (hs1 : OnlyIn m s0 s1) :
    OnlyIn m s0 (State.takeRing s1 a1 a2 a3 a4) := by
  unfold State.takeRing
  refine State.each_only ?_ (fun _ _ _ => ?_)
  · assumption
  · exact State.takeReq_only hm.sub (by assumption)

theorem State.readRing_only {s0 s1 : State} {a1}
    (hm : Within [.regs, .mem, .tn, .die, .stream, .kv, .mt, .bond, .line, .plumb, .test, .sdio] m) (hs1 : OnlyIn m s0 s1) :
    OnlyIn m s0 (State.readRing s1 a1) := by
  unfold State.readRing
  extract_lets -merge -underBinder +onlyGivenNames x1
  clear_value x1
  refine only_ite ?_ ?_
  · assumption
  · extract_lets -merge -underBinder +onlyGivenNames x2 x3 x4 x5
    clear_value x2 x3 x4 x5
    refine only_ite ?_ ?_
    · assumption
    · refine only_ite ?_ ?_
      · exact State.raise_only hm.sub (State.bumpLo_only hm.sub (State.linSt_only hm.sub (by assumption)))
      · exact State.linSt_only hm.sub (State.takeRing_only hm.sub (by assumption))

end Sys2Proof.Machine
end

