-- ==== Sys2Proof/Laws/OnlyPlanner.lean ====
section
/-! SUPPORT. What the operations of Machine/Planner.lean may change (Laws/Only.lean). -/
namespace Sys2Proof.Machine
set_option Elab.async false

variable {m : List Block}

theorem State.batchStart_only {s0 s1 : State} {a1} (hm : Within [.line] m) (hs1 : OnlyIn m s0 s1) :
    OnlyIn m s0 (State.batchStart s1 a1) := by
  unfold State.batchStart
  split
  · assumption
  · extract_lets -merge -underBinder +onlyGivenNames x1 x2
    clear_value x1 x2
    exact State.updCar_only hm.sub (State.updLine_only hm.sub (by assumption))

theorem State.commit_only {s0 s1 : State} {a1 a2 a3}
    (hm : Within [.regs, .mem, .tn, .die, .stream, .kv, .mt, .bond, .line, .plumb, .test, .sdio] m) (hs1 : OnlyIn m s0 s1) :
    OnlyIn m s0 (State.commit s1 a1 a2 a3) := by
  unfold State.commit
  extract_lets -merge -underBinder +onlyGivenNames x1
  have hx1 : OnlyIn m s0 x1 := by
    subst x1
    exact State.updLine_only hm.sub (by assumption)
  clear_value x1
  extract_lets -merge -underBinder +onlyGivenNames x2
  have hx2 : OnlyIn m s0 x2 := by
    subst x2
    exact State.updCar_only hm.sub (by assumption)
  clear_value x2
  extract_lets -merge -underBinder +onlyGivenNames x3
  have hx3 : OnlyIn m s0 x3 := by
    subst x3
    refine only_ite ?_ ?_
    · exact State.bumpLo_only hm.sub (by assumption)
    · assumption
  clear_value x3
  split
  · assumption
  · extract_lets -merge -underBinder +onlyGivenNames x4
    clear_value x4
    exact State.watchRef_only hm.sub (State.watchKick_only hm.sub (State.regSet_only hm.sub (by assumption)))

theorem State.brakeFrom_only {s0 s1 : State} {a1 a2} (hm : Within [.regs, .tn, .line, .sdio] m) (hs1 : OnlyIn m s0 s1) :
    OnlyIn m s0 (State.brakeFrom s1 a1 a2) := by
  unfold State.brakeFrom
  extract_lets -merge -underBinder +onlyGivenNames x1 x2 x3 x4 x5
  clear_value x1 x2 x3 x4
  have hx5 : OnlyIn m s0 x5 := by
    subst x5
    exact State.bump_only hm.sub (State.updCar_only hm.sub (by assumption))
  clear_value x5
  exact State.raise_only hm.sub (by assumption)

theorem State.planFails_only {s0 s1 : State} {a1 a2}
    (hm : Within [.regs, .mem, .tn, .die, .stream, .kv, .mt, .bond, .line, .plumb, .test, .sdio] m) (hs1 : OnlyIn m s0 s1) :
    OnlyIn m s0 (State.planFails s1 a1 a2) := by
  unfold State.planFails
  extract_lets -merge -underBinder +onlyGivenNames x1
  have hx1 : OnlyIn m s0 x1 := by
    subst x1
    exact State.updLine_only hm.sub (by assumption)
  clear_value x1
  refine only_ite ?_ ?_
  · assumption
  · extract_lets -merge -underBinder +onlyGivenNames x2
    have hx2 : OnlyIn m s0 x2 := by
      subst x2
      split
      · refine only_ite ?_ ?_
        · exact State.brakeFrom_only hm.sub (by assumption)
        · assumption
      · assumption
    clear_value x2
    extract_lets -merge -underBinder +onlyGivenNames x3
    have hx3 : OnlyIn m s0 x3 := by
      subst x3
      exact State.raise_only hm.sub (by assumption)
    clear_value x3
    exact State.endHead_only hm.sub (by assumption)

theorem State.batchUs_only {s0 s1 : State} {a1} (hm : Within [.regs] m) (hs1 : OnlyIn m s0 s1) :
    OnlyIn m s0 (State.batchUs s1 a1) := by
  unfold State.batchUs
  refine only_ite ?_ ?_
  · assumption
  · extract_lets -merge -underBinder +onlyGivenNames x1
    clear_value x1
    exact State.setFld_only hm.sub (State.setFld_only hm.sub (by assumption))

theorem State.batchEnd_only {s0 s1 : State} {a1}
    (hm : Within [.regs, .mem, .tn, .die, .stream, .kv, .mt, .bond, .line, .plumb, .test, .sdio] m) (hs1 : OnlyIn m s0 s1) :
    OnlyIn m s0 (State.batchEnd s1 a1) := by
  unfold State.batchEnd
  extract_lets -merge -underBinder +onlyGivenNames x1
  have hx1 : OnlyIn m s0 x1 := by
    subst x1
    exact State.batchUs_only hm.sub (by assumption)
  clear_value x1
  split
  · exact State.planFails_only hm.sub (by assumption)
  · refine only_ite ?_ ?_
    · exact State.commit_only hm.sub (by assumption)
    · extract_lets -merge -underBinder +onlyGivenNames x2
      have hx2 : OnlyIn m s0 x2 := by
        subst x2
        exact State.raise_only hm.sub (State.bumpHi_only hm.sub (by assumption))
      clear_value x2
      extract_lets -merge -underBinder +onlyGivenNames x3
      clear_value x3
      exact State.updLine_only hm.sub (by assumption)

theorem State.recheckEnd_only {s0 s1 : State} {a1}
    (hm : Within [.regs, .mem, .tn, .die, .stream, .kv, .mt, .bond, .line, .plumb, .test, .sdio] m) (hs1 : OnlyIn m s0 s1) :
    OnlyIn m s0 (State.recheckEnd s1 a1) := by
  unfold State.recheckEnd
  split
  · refine only_ite ?_ ?_
    · exact State.planFails_only hm.sub (by assumption)
    · exact State.commit_only hm.sub (by assumption)
  · exact State.planFails_only hm.sub (by assumption)

theorem execPlanBatch_only {s0 : State} {a0 a1} (hm : Within [.line] m) :
    OnlyInN m (State.to s0 a0) (execPlanBatch a0 a1 s0) := by
  unfold execPlanBatch
  extract_lets -merge -underBinder +onlyGivenNames x1
  have hx1 : OnlyIn m (State.to s0 a0) x1 := by
    subst x1
    exact OnlyIn.refl _ _
  clear_value x1
  refine guardNext_only ?_ (fun _ _ => ?_)
  · assumption
  · exact State.batchStart_only hm.sub (by assumption)

theorem execBatchEnd_only {s0 : State} {a0}
    (hm : Within [.regs, .mem, .tn, .die, .stream, .kv, .mt, .bond, .line, .plumb, .test, .sdio] m) :
    OnlyInN m (State.to s0 a0) (execBatchEnd a0 s0) := by
  unfold execBatchEnd
  extract_lets -merge -underBinder +onlyGivenNames x1
  have hx1 : OnlyIn m (State.to s0 a0) x1 := by
    subst x1
    exact OnlyIn.refl _ _
  clear_value x1
  split
  · refine guardNext_only ?_ (fun _ _ => ?_)
    · assumption
    · exact State.batchEnd_only hm.sub (by assumption)
  · exact onlyN_next (by assumption)

theorem execRecheckDone_only {s0 : State} {a0}
    (hm : Within [.regs, .mem, .tn, .die, .stream, .kv, .mt, .bond, .line, .plumb, .test, .sdio] m) :
    OnlyInN m (State.to s0 a0) (execRecheckDone a0 s0) := by
  unfold execRecheckDone
  extract_lets -merge -underBinder +onlyGivenNames x1
  have hx1 : OnlyIn m (State.to s0 a0) x1 := by
    subst x1
    exact OnlyIn.refl _ _
  clear_value x1
  split
  · refine guardNext_only ?_ (fun _ _ => ?_)
    · assumption
    · exact State.recheckEnd_only hm.sub (by assumption)
  · exact onlyN_next (by assumption)

theorem execPlanTimeout_only {s0 : State} {a0 a1}
    (hm : Within [.regs, .mem, .tn, .die, .stream, .kv, .mt, .bond, .line, .plumb, .test, .sdio] m) :
    OnlyInN m (State.to s0 a0) (execPlanTimeout a0 a1 s0) := by
  unfold execPlanTimeout
  extract_lets -merge -underBinder +onlyGivenNames x1
  have hx1 : OnlyIn m (State.to s0 a0) x1 := by
    subst x1
    exact OnlyIn.refl _ _
  clear_value x1
  split
  · refine guardNext_only ?_ (fun _ _ => ?_)
    · assumption
    · exact State.planFails_only hm.sub (by assumption)
  · exact onlyN_next (by assumption)

theorem execBrakeDone_only {s0 : State} {a0 a1} (hm : Within [.line] m) :
    OnlyInN m (State.to s0 a0) (execBrakeDone a0 a1 s0) := by
  unfold execBrakeDone
  extract_lets -merge -underBinder +onlyGivenNames x1
  have hx1 : OnlyIn m (State.to s0 a0) x1 := by
    subst x1
    exact OnlyIn.refl _ _
  clear_value x1
  split
  · refine guardNext_only ?_ (fun _ _ => ?_)
    · assumption
    · exact State.updCar_only hm.sub (by assumption)
  · exact onlyN_next (by assumption)

theorem execSettleEnd_only {s0 : State} {a0 a1}
    (hm : Within [.regs, .mem, .tn, .die, .stream, .kv, .mt, .bond, .line, .plumb, .test, .sdio] m) :
    OnlyInN m (State.to s0 a0) (execSettleEnd a0 a1 s0) := by
  unfold execSettleEnd
  extract_lets -merge -underBinder +onlyGivenNames x1
  have hx1 : OnlyIn m (State.to s0 a0) x1 := by
    subst x1
    exact OnlyIn.refl _ _
  clear_value x1
  split
  · refine guardNext_only ?_ (fun _ _ => ?_)
    · assumption
    · exact State.updCar_only hm.sub (State.endHead_only hm.sub (by assumption))
  · exact onlyN_next (by assumption)

end Sys2Proof.Machine
end

