-- ==== Sys2Proof/Laws/OnlyMotion.lean ====
section
/-! SUPPORT. What the operations of Machine/Motion.lean may change (Laws/Only.lean). -/
namespace Sys2Proof.Machine
set_option Elab.async false

variable {m : List Block}

theorem State.gpioStep_only {s0 s1 : State} (hm : Within [.regs, .line, .plumb] m) (hs1 : OnlyIn m s0 s1) :
    OnlyIn m s0 (State.gpioStep s1) := by
  unfold State.gpioStep
  refine State.each_only ?_ (fun _ _ _ => ?_)
  · assumption
  · extract_lets -merge -underBinder +onlyGivenNames x1
    clear_value x1
    refine only_ite ?_ ?_
    · assumption
    · refine only_ite ?_ ?_
      · exact State.bump_only hm.sub (by assumption)
      · extract_lets -merge -underBinder +onlyGivenNames x2
        have hx2 : OnlyIn m s0 x2 := by
          subst x2
          exact State.updLine_only hm.sub (by assumption)
        clear_value x2
        refine only_ite ?_ ?_
        · exact State.drive_only hm.sub (by assumption)
        · assumption

theorem State.markTick_only {s0 s1 : State} {a1}
    (hm : Within [.regs, .mem, .tn, .die, .stream, .kv, .mt, .bond, .line, .plumb, .test, .sdio] m) (hs1 : OnlyIn m s0 s1) :
    OnlyIn m s0 (State.markTick s1 a1) := by
  unfold State.markTick
  extract_lets -merge -underBinder +onlyGivenNames x1
  clear_value x1
  split
  · refine only_ite ?_ ?_
    · assumption
    · refine only_ite ?_ ?_
      · extract_lets -merge -underBinder +onlyGivenNames x2 x3
        clear_value x2
        have hx3 : OnlyIn m s0 x3 := by
          subst x3
          exact State.endHead_only hm.sub (by assumption)
        clear_value x3
        refine only_ite ?_ ?_
        · exact State.updCar_only hm.sub (by assumption)
        · assumption
      · split
        · refine only_ite ?_ ?_
          · exact State.raise_only hm.sub (State.updCar_only hm.sub (by assumption))
          · assumption
        · assumption
  · assumption

theorem State.carTick_only {s0 s1 : State} {a1} (hm : Within [.line] m) (hs1 : OnlyIn m s0 s1) :
    OnlyIn m s0 (State.carTick s1 a1) := by
  unfold State.carTick
  extract_lets -merge -underBinder +onlyGivenNames x1
  have hx1 : OnlyIn m s0 x1 := by
    subst x1
    exact State.updCar_only hm.sub (by assumption)
  clear_value x1
  split
  · refine only_ite ?_ ?_
    · exact State.updCar_only hm.sub (by assumption)
    · assumption
  · assumption

theorem State.motionTick_only {s0 s1 : State}
    (hm : Within [.regs, .mem, .tn, .die, .stream, .kv, .mt, .bond, .line, .plumb, .test, .sdio] m) (hs1 : OnlyIn m s0 s1) :
    OnlyIn m s0 (State.motionTick s1) := by
  unfold State.motionTick
  refine only_ite ?_ ?_
  · assumption
  · extract_lets -merge -underBinder +onlyGivenNames x1
    have hx1 : OnlyIn m s0 x1 := by
      subst x1
      exact State.carCheck_only hm.sub (by assumption)
    clear_value x1
    extract_lets -merge -underBinder +onlyGivenNames x2
    have hx2 : OnlyIn m s0 x2 := by
      subst x2
      refine State.each_only ?_ (fun _ _ _ => ?_)
      · assumption
      · exact State.readRing_only hm.sub (by assumption)
    clear_value x2
    extract_lets -merge -underBinder +onlyGivenNames x3 x4
    clear_value x3
    have hx4 : OnlyIn m s0 x4 := by
      subst x4
      refine State.each_only ?_ (fun _ _ _ => ?_)
      · exact State.updLine_only hm.sub (by assumption)
      · exact State.takeReq_only hm.sub (by assumption)
    clear_value x4
    extract_lets -merge -underBinder +onlyGivenNames x5
    have hx5 : OnlyIn m s0 x5 := by
      subst x5
      refine State.each_only ?_ (fun _ _ _ => ?_)
      · assumption
      · exact State.carTick_only hm.sub (by assumption)
    clear_value x5
    refine State.updLine_only hm.sub ?_
    refine State.each_only ?_ (fun _ _ _ => ?_)
    · assumption
    · exact State.markTick_only hm.sub (by assumption)

theorem State.restartReqs_only {s0 s1 : State}
    (hm : Within [.regs, .mem, .tn, .die, .stream, .kv, .mt, .bond, .line, .plumb, .test, .sdio] m) (hs1 : OnlyIn m s0 s1) :
    OnlyIn m s0 (State.restartReqs s1) := by
  unfold State.restartReqs
  extract_lets -merge -underBinder +onlyGivenNames x1
  clear_value x1
  refine State.each_only ?_ (fun _ _ _ => ?_)
  · assumption
  · exact State.endReq_only hm.sub (by assumption)

theorem State.shadowCopy_only {s0 s1 : State} (hm : Within [.mem, .line] m) (hs1 : OnlyIn m s0 s1) :
    OnlyIn m s0 (State.shadowCopy s1) := by
  unfold State.shadowCopy
  split
  · exact State.updLine_only hm.sub (State.copySpace_only hm.sub (State.copySpace_only hm.sub (by assumption)))

theorem reqRow_only {s0 : State} {a0 a1 a2}
    (hm : Within [.regs, .mem, .tn, .die, .stream, .kv, .mt, .bond, .line, .plumb, .test, .sdio] m) :
    OnlyInN m (State.to s0 a0) (reqRow a0 a1 a2 s0) := by
  unfold reqRow
  extract_lets -merge -underBinder +onlyGivenNames x1
  have hx1 : OnlyIn m (State.to s0 a0) x1 := by
    subst x1
    exact OnlyIn.refl _ _
  clear_value x1
  refine guardNext_only ?_ (fun _ _ => ?_)
  · assumption
  · exact State.takeReq_only hm.sub (by assumption)

theorem execGoto_only {s0 : State} {a0 a1}
    (hm : Within [.regs, .mem, .tn, .die, .stream, .kv, .mt, .bond, .line, .plumb, .test, .sdio] m) :
    OnlyInN m (State.to s0 a0) (execGoto a0 a1 s0) := by
  unfold execGoto
  exact reqRow_only hm.sub 

theorem execMarkReq_only {s0 : State} {a0 a1}
    (hm : Within [.regs, .mem, .tn, .die, .stream, .kv, .mt, .bond, .line, .plumb, .test, .sdio] m) :
    OnlyInN m (State.to s0 a0) (execMarkReq a0 a1 s0) := by
  unfold execMarkReq
  exact reqRow_only hm.sub 

theorem execCut_only {s0 : State} {a0 a1}
    (hm : Within [.regs, .mem, .tn, .die, .stream, .kv, .mt, .bond, .line, .plumb, .test, .sdio] m) :
    OnlyInN m (State.to s0 a0) (execCut a0 a1 s0) := by
  unfold execCut
  exact reqRow_only hm.sub 

theorem execPark_only {s0 : State} {a0 a1}
    (hm : Within [.regs, .mem, .tn, .die, .stream, .kv, .mt, .bond, .line, .plumb, .test, .sdio] m) :
    OnlyInN m (State.to s0 a0) (execPark a0 a1 s0) := by
  unfold execPark
  exact reqRow_only hm.sub 

theorem execPost_only {s0 : State} {a0 a1}
    (hm : Within [.regs, .mem, .tn, .die, .stream, .kv, .mt, .bond, .line, .plumb, .test, .sdio] m) :
    OnlyInN m (State.to s0 a0) (execPost a0 a1 s0) := by
  unfold execPost
  exact reqRow_only hm.sub 

theorem execCancel_only {s0 : State} {a0 a1}
    (hm : Within [.regs, .mem, .tn, .die, .stream, .kv, .mt, .bond, .line, .plumb, .test, .sdio] m) :
    OnlyInN m (State.to s0 a0) (execCancel a0 a1 s0) := by
  unfold execCancel
  exact reqRow_only hm.sub 

theorem execReqBad_only {s0 : State} {a0 a1}
    (hm : Within [.regs, .mem, .tn, .die, .stream, .kv, .mt, .bond, .line, .plumb, .test, .sdio] m) :
    OnlyInN m (State.to s0 a0) (execReqBad a0 a1 s0) := by
  unfold execReqBad
  extract_lets -merge -underBinder +onlyGivenNames x1
  have hx1 : OnlyIn m (State.to s0 a0) x1 := by
    subst x1
    exact OnlyIn.refl _ _
  clear_value x1
  refine guardNext_only ?_ (fun _ _ => ?_)
  · assumption
  · exact State.takeReq_only hm.sub (by assumption)

theorem execShadowCopyDone_only {s0 : State} {a0} (hm : Within [.mem, .line] m) :
    OnlyInN m (State.to s0 a0) (execShadowCopyDone a0 s0) := by
  unfold execShadowCopyDone
  extract_lets -merge -underBinder +onlyGivenNames x1
  have hx1 : OnlyIn m (State.to s0 a0) x1 := by
    subst x1
    exact OnlyIn.refl _ _
  clear_value x1
  split
  · refine guardNext_only ?_ (fun _ _ => ?_)
    · assumption
    · exact State.shadowCopy_only hm.sub (by assumption)
  · exact onlyN_next (by assumption)

end Sys2Proof.Machine
end

