-- ==== Sys2Proof/Laws/OnlyBond.lean ====
section
/-! SUPPORT. What the operations of Machine/Bond.lean may change (Laws/Only.lean). -/
namespace Sys2Proof.Machine
set_option Elab.async false

variable {m : List Block}

theorem State.sigFail_only {s0 s1 : State} (hm : Within [.regs, .tn, .sdio] m) (hs1 : OnlyIn m s0 s1) :
    OnlyIn m s0 (State.sigFail s1) := by
  unfold State.sigFail
  exact State.raise_only hm.sub (State.bump_only hm.sub (by assumption))

theorem State.admitNow_only {s0 s1 : State} (hm : Within [.regs, .tn, .bond, .sdio] m) (hs1 : OnlyIn m s0 s1) :
    OnlyIn m s0 (State.admitNow s1) := by
  unfold State.admitNow
  extract_lets -merge -underBinder +onlyGivenNames x1 x2 x3
  clear_value x1 x2
  have hx3 : OnlyIn m s0 x3 := by
    subst x3
    refine only_ite ?_ ?_
    · exact State.sigFail_only hm.sub (by assumption)
    · assumption
  clear_value x3
  extract_lets -merge -underBinder +onlyGivenNames x4
  have hx4 : OnlyIn m s0 x4 := by
    subst x4
    exact State.updBond_only hm.sub (by assumption)
  clear_value x4
  exact State.raise_only hm.sub (by assumption)

theorem execAdmissionDone_only {s0 : State} {a0} (hm : Within [.regs, .tn, .bond, .sdio] m) :
    OnlyInN m (State.to s0 a0) (execAdmissionDone a0 s0) := by
  unfold execAdmissionDone
  extract_lets -merge -underBinder +onlyGivenNames x1
  have hx1 : OnlyIn m (State.to s0 a0) x1 := by
    subst x1
    exact OnlyIn.refl _ _
  clear_value x1
  refine guardNext_only ?_ (fun _ _ => ?_)
  · assumption
  · refine only_ite ?_ ?_
    · extract_lets -merge -underBinder +onlyGivenNames x2
      have hx2 : OnlyIn m (State.to s0 a0) x2 := by
        subst x2
        exact State.admitNow_only hm.sub (by assumption)
      clear_value x2
      extract_lets -merge -underBinder +onlyGivenNames x3
      clear_value x3
      exact State.answerDeferred_only hm.sub (by assumption)
    · exact State.answerDeferred_only hm.sub (by assumption)

theorem State.emitCov_only {s0 s1 : State} {a1} (hm : Within [.regs, .tn, .sdio] m) (hs1 : OnlyIn m s0 s1) :
    OnlyIn m s0 (State.emitCov s1 a1) := by
  unfold State.emitCov
  extract_lets -merge -underBinder +onlyGivenNames x1
  have hx1 : OnlyIn m s0 x1 := by
    subst x1
    exact State.bump_only hm.sub (by assumption)
  clear_value x1
  extract_lets -merge -underBinder +onlyGivenNames x2 x3 x4 x5
  clear_value x2 x3 x4
  have hx5 : OnlyIn m s0 x5 := by
    subst x5
    exact State.regSet_only hm.sub (State.regSet_only hm.sub (by assumption))
  clear_value x5
  extract_lets -merge -underBinder +onlyGivenNames x6
  have hx6 : OnlyIn m s0 x6 := by
    subst x6
    exact State.emit_only hm.sub (by assumption)
  clear_value x6
  exact State.raise_only hm.sub (by assumption)

theorem State.emitCovs_only {s0 s1 : State} (hm : Within [.regs, .tn, .bond, .sdio] m) (hs1 : OnlyIn m s0 s1) :
    OnlyIn m s0 (State.emitCovs s1) := by
  unfold State.emitCovs
  extract_lets -merge -underBinder +onlyGivenNames x1 x2
  clear_value x1
  have hx2 : OnlyIn m s0 x2 := by
    subst x2
    exact State.updBond_only hm.sub (by assumption)
  clear_value x2
  split
  · extract_lets -merge -underBinder +onlyGivenNames x3 x4
    clear_value x3 x4
    refine State.each_only ?_ (fun _ _ _ => ?_)
    · assumption
    · exact State.emitCov_only hm.sub (by assumption)

theorem State.takeReadmitted_only {s0 s1 : State} (hm : Within [.regs, .tn, .bond, .sdio] m) (hs1 : OnlyIn m s0 s1) :
    OnlyIn m s0 (State.takeReadmitted s1) := by
  unfold State.takeReadmitted
  split
  · assumption
  · exact State.raise_only hm.sub (State.updBond_only hm.sub (by assumption))

theorem State.selectVariant_only {s0 s1 : State} (hm : Within [.regs, .tn, .bond, .sdio] m) (hs1 : OnlyIn m s0 s1) :
    OnlyIn m s0 (State.selectVariant s1) := by
  unfold State.selectVariant
  extract_lets -merge -underBinder +onlyGivenNames x1 x2
  clear_value x1 x2
  split
  · extract_lets -merge -underBinder +onlyGivenNames x3
    have hx3 : OnlyIn m s0 x3 := by
      subst x3
      exact State.updBond_only hm.sub (by assumption)
    clear_value x3
    extract_lets -merge -underBinder +onlyGivenNames x4
    have hx4 : OnlyIn m s0 x4 := by
      subst x4
      refine only_ite ?_ ?_
      · exact State.raise_only hm.sub (by assumption)
      · assumption
    clear_value x4
    extract_lets -merge -underBinder +onlyGivenNames x5 x6 x7 x8 x9 x10 x11
    clear_value x5 x6 x7 x8 x9 x10
    have hx11 : OnlyIn m s0 x11 := by
      subst x11
      exact State.updBond_only hm.sub (by assumption)
    clear_value x11
    refine only_ite ?_ ?_
    · assumption
    · exact State.raise_only hm.sub (State.bump_only hm.sub (by assumption))

theorem State.switchEpoch_only {s0 s1 : State}
    (hm : Within [.regs, .mem, .tn, .adapt, .mt, .bond, .plumb, .sdio] m) (hs1 : OnlyIn m s0 s1) :
    OnlyIn m s0 (State.switchEpoch s1) := by
  unfold State.switchEpoch
  refine only_ite ?_ ?_
  · assumption
  · extract_lets -merge -underBinder +onlyGivenNames x1 x2 x3 x4 x5
    clear_value x1 x2 x3 x4
    have hx5 : OnlyIn m s0 x5 := by
      subst x5
      refine State.each_only ?_ (fun _ _ _ => ?_)
      · assumption
      · exact State.stBytes_only hm.sub (by assumption)
    clear_value x5
    extract_lets -merge -underBinder +onlyGivenNames x6
    have hx6 : OnlyIn m s0 x6 := by
      subst x6
      exact State.updBond_only hm.sub (by assumption)
    clear_value x6
    extract_lets -merge -underBinder +onlyGivenNames x7
    have hx7 : OnlyIn m s0 x7 := by
      subst x7
      exact State.updAdapt_only hm.sub (by assumption)
    clear_value x7
    extract_lets -merge -underBinder +onlyGivenNames x8
    have hx8 : OnlyIn m s0 x8 := by
      subst x8
      exact State.updPlumb_only hm.sub (by assumption)
    clear_value x8
    refine State.each_only ?_ (fun _ _ _ => ?_)
    · assumption
    · exact State.raise_only hm.sub (State.regSet_only hm.sub (by assumption))

theorem State.planBegins_only {s0 s1 : State} {a1 a2} (hm : Within [.die, .bond] m) (hs1 : OnlyIn m s0 s1) :
    OnlyIn m s0 (State.planBegins s1 a1 a2) := by
  unfold State.planBegins
  refine only_ite ?_ ?_
  · assumption
  · extract_lets -merge -underBinder +onlyGivenNames x1
    have hx1 : OnlyIn m s0 x1 := by
      subst x1
      exact State.updBond_only hm.sub (by assumption)
    clear_value x1
    refine State.each_only ?_ (fun _ _ _ => ?_)
    · assumption
    · exact State.updDie_only hm.sub (by assumption)

theorem State.resumePairs_only {s0 s1 : State} {a1 a2} (hm : Within [.die, .bond] m) (hs1 : OnlyIn m s0 s1) :
    OnlyIn m s0 (State.resumePairs s1 a1 a2) := by
  unfold State.resumePairs
  refine only_ite ?_ ?_
  · assumption
  · extract_lets -merge -underBinder +onlyGivenNames x1 x2 x3
    clear_value x1 x2
    have hx3 : OnlyIn m s0 x3 := by
      subst x3
      exact State.updBond_only hm.sub (by assumption)
    clear_value x3
    refine State.each_only ?_ (fun _ _ _ => ?_)
    · assumption
    · exact State.updDie_only hm.sub (by assumption)

theorem State.releaseKeystone_only {s0 s1 : State} {a1 a2}
    (hm : Within [.regs, .mem, .tn, .die, .stream, .kv, .mt, .bond, .line, .plumb, .power, .test, .sdio] m) (hs1 : OnlyIn m s0 s1) :
    OnlyIn m s0 (State.releaseKeystone s1 a1 a2) := by
  unfold State.releaseKeystone
  extract_lets -merge -underBinder +onlyGivenNames x1
  clear_value x1
  split
  · assumption
  · refine only_ite ?_ ?_
    · assumption
    · extract_lets -merge -underBinder +onlyGivenNames x2 x3
      clear_value x2
      have hx3 : OnlyIn m s0 x3 := by
        subst x3
        exact State.updPlumb_only hm.sub (by assumption)
      clear_value x3
      exact State.enterGraph_only hm.sub (by assumption)

theorem State.crossSettle_only {s0 s1 : State} (hm : Within [.bond] m) (hs1 : OnlyIn m s0 s1) :
    OnlyIn m s0 (State.crossSettle s1) := by
  unfold State.crossSettle
  extract_lets -merge -underBinder +onlyGivenNames x1
  clear_value x1
  exact State.updBond_only hm.sub (by assumption)

theorem State.releaseFrames_only {s0 s1 : State} {a1 a2}
    (hm : Within [.regs, .mem, .tn, .die, .stream, .kv, .mt, .bond, .line, .plumb, .power, .test, .sdio] m) (hs1 : OnlyIn m s0 s1) :
    OnlyIn m s0 (State.releaseFrames s1 a1 a2) := by
  unfold State.releaseFrames
  extract_lets -merge -underBinder +onlyGivenNames x1 x2 x3
  clear_value x1 x2
  have hx3 : OnlyIn m s0 x3 := by
    subst x3
    refine State.each_only ?_ (fun _ _ _ => ?_)
    · assumption
    · exact State.addGraph_only hm.sub (by assumption)
  clear_value x3
  refine State.each_only ?_ (fun _ _ _ => ?_)
  · exact State.crossSettle_only hm.sub (by assumption)
  · exact State.startGraph_only hm.sub (by assumption)

theorem State.coreClear_only {s0 s1 : State} {a1 a2} (hm : Within [.mem, .die, .mt] m) (hs1 : OnlyIn m s0 s1) :
    OnlyIn m s0 (State.coreClear s1 a1 a2) := by
  unfold State.coreClear
  exact State.updCore_only hm.sub (State.zero_only hm.sub (by assumption))

theorem State.switchCores_only {s0 s1 : State} {s2 : State}
    (hm : Within [.mem, .die, .mt] m) (hs1 : OnlyIn m s0 s1) (hs2 : OnlyIn m s0 s2) :
    OnlyIn m s0 (State.switchCores s1 s2) := by
  unfold State.switchCores
  refine State.each_only ?_ (fun _ _ _ => ?_)
  · assumption
  · refine State.each_only ?_ (fun _ _ _ => ?_)
    · assumption
    · split
      · refine only_ite ?_ ?_
        · assumption
        · exact State.coreClear_only hm.sub (by assumption)
      · assumption

theorem State.frameStep_only {s0 s1 : State} {a1 a2}
    (hm : Within [.regs, .mem, .tn, .die, .stream, .kv, .adapt, .mt, .bond, .line, .plumb, .power, .test, .sdio] m) (hs1 : OnlyIn m s0 s1) :
    OnlyIn m s0 (State.frameStep s1 a1 a2) := by
  unfold State.frameStep
  extract_lets -merge -underBinder +onlyGivenNames x1
  have hx1 : OnlyIn m s0 x1 := by
    subst x1
    exact State.updBond_only hm.sub (State.emitCovs_only hm.sub (by assumption))
  clear_value x1
  extract_lets -merge -underBinder +onlyGivenNames x2
  have hx2 : OnlyIn m s0 x2 := by
    subst x2
    assumption
  clear_value x2
  extract_lets -merge -underBinder +onlyGivenNames x3
  have hx3 : OnlyIn m s0 x3 := by
    subst x3
    exact State.takeReadmitted_only hm.sub (State.planBegins_only hm.sub (by assumption))
  clear_value x3
  extract_lets -merge -underBinder +onlyGivenNames x4
  have hx4 : OnlyIn m s0 x4 := by
    subst x4
    refine only_ite ?_ ?_
    · exact State.selectVariant_only hm.sub (by assumption)
    · assumption
  clear_value x4
  extract_lets -merge -underBinder +onlyGivenNames x5
  have hx5 : OnlyIn m s0 x5 := by
    subst x5
    refine State.resumePairs_only hm.sub ?_
    refine State.switchEpoch_only hm.sub ?_
    refine State.switchCores_only hm.sub ?_ ?_
    · assumption
    · assumption
  clear_value x5
  extract_lets -merge -underBinder +onlyGivenNames x6
  have hx6 : OnlyIn m s0 x6 := by
    subst x6
    refine only_ite ?_ ?_
    · assumption
    · exact State.refresh_only hm.sub (by assumption)
  clear_value x6
  extract_lets -merge -underBinder +onlyGivenNames x7 x8
  clear_value x7
  have hx8 : OnlyIn m s0 x8 := by
    subst x8
    refine only_ite ?_ ?_
    · exact State.commitBegin_only hm.sub (by assumption)
    · assumption
  clear_value x8
  refine only_ite ?_ ?_
  · exact State.releaseFrames_only hm.sub (State.releaseKeystone_only hm.sub (by assumption))
  · assumption

theorem execFrameBoundary_only {s0 : State} {a0}
    (hm : Within [.regs, .mem, .tn, .die, .stream, .kv, .adapt, .mt, .bond, .line, .plumb, .power, .test, .sdio] m) :
    OnlyInN m (State.to s0 a0) (execFrameBoundary a0 s0) := by
  unfold execFrameBoundary
  extract_lets -merge -underBinder +onlyGivenNames x1
  have hx1 : OnlyIn m (State.to s0 a0) x1 := by
    subst x1
    exact OnlyIn.refl _ _
  clear_value x1
  split
  · exact onlyN_next (by assumption)
  · extract_lets -merge -underBinder +onlyGivenNames x2
    clear_value x2
    refine guardNext_only ?_ (fun _ _ => ?_)
    · assumption
    · exact State.frameStep_only hm.sub (by assumption)

theorem execPlanStopDone_only {s0 : State} {a0} (hm : Within [.mem, .die, .mt, .bond] m) :
    OnlyInN m (State.to s0 a0) (execPlanStopDone a0 s0) := by
  unfold execPlanStopDone
  extract_lets -merge -underBinder +onlyGivenNames x1
  have hx1 : OnlyIn m (State.to s0 a0) x1 := by
    subst x1
    exact OnlyIn.refl _ _
  clear_value x1
  refine guardNext_only ?_ (fun _ _ => ?_)
  · assumption
  · extract_lets -merge -underBinder +onlyGivenNames x2
    have hx2 : OnlyIn m (State.to s0 a0) x2 := by
      subst x2
      assumption
    clear_value x2
    extract_lets -merge -underBinder +onlyGivenNames x3
    have hx3 : OnlyIn m (State.to s0 a0) x3 := by
      subst x3
      exact State.updBond_only hm.sub (by assumption)
    clear_value x3
    refine State.switchCores_only hm.sub ?_ ?_
    · refine State.each_only ?_ (fun _ _ _ => ?_)
      · assumption
      · exact State.updDie_only hm.sub (by assumption)
    · assumption

theorem execAccountingPeriod_only {s0 : State} {a0} (hm : Within [.regs, .bond] m) :
    OnlyInN m (State.to s0 a0) (execAccountingPeriod a0 s0) := by
  unfold execAccountingPeriod
  extract_lets -merge -underBinder +onlyGivenNames x1
  have hx1 : OnlyIn m (State.to s0 a0) x1 := by
    subst x1
    exact OnlyIn.refl _ _
  clear_value x1
  refine guardNext_only ?_ (fun _ _ => ?_)
  · assumption
  · extract_lets -merge -underBinder +onlyGivenNames x2
    clear_value x2
    exact State.bump_only hm.sub (State.updBond_only hm.sub (by assumption))

end Sys2Proof.Machine
end

