-- ==== Sys2Proof/Laws/OnlyServo.lean ====
section
/-! SUPPORT. What the operations of Machine/Servo.lean may change (Laws/Only.lean). -/
namespace Sys2Proof.Machine
set_option Elab.async false

variable {m : List Block}

theorem State.axMove_only {s0 s1 : State} {a1 a2} (hm : Within [.line] m) (hs1 : OnlyIn m s0 s1) :
    OnlyIn m s0 (State.axMove s1 a1 a2) := by
  unfold State.axMove
  exact State.updAx_only hm.sub (by assumption)

theorem execAxisEncoderEdge_only {s0 : State} {a0 a1 a2 a3}
    (hm : Within [.regs, .mem, .tn, .die, .stream, .kv, .mt, .bond, .line, .plumb, .test, .sdio] m) :
    OnlyInN m (State.to s0 a0) (execAxisEncoderEdge a0 a1 a2 a3 s0) := by
  unfold execAxisEncoderEdge
  extract_lets -merge -underBinder +onlyGivenNames x1
  have hx1 : OnlyIn m (State.to s0 a0) x1 := by
    subst x1
    exact OnlyIn.refl _ _
  clear_value x1
  extract_lets -merge -underBinder +onlyGivenNames x2 x3 x4 x5 x6
  clear_value x2 x3 x4 x5
  have hx6 : OnlyIn m (State.to s0 a0) x6 := by
    subst x6
    exact State.updAx_only hm.sub (by assumption)
  clear_value x6
  refine onlyN_next ?_
  refine only_ite ?_ ?_
  · assumption
  · refine only_ite ?_ ?_
    · exact State.carCheck_only hm.sub (State.fbFault_only hm.sub (by assumption))
    · split
      · exact State.axMove_only hm.sub (by assumption)
      · assumption

theorem execAxisLos_only {s0 : State} {a0 a1}
    (hm : Within [.regs, .mem, .tn, .die, .stream, .kv, .mt, .bond, .line, .plumb, .test, .sdio] m) :
    OnlyInN m (State.to s0 a0) (execAxisLos a0 a1 s0) := by
  unfold execAxisLos
  extract_lets -merge -underBinder +onlyGivenNames x1
  have hx1 : OnlyIn m (State.to s0 a0) x1 := by
    subst x1
    refine State.updAx_only hm.sub ?_
    exact OnlyIn.refl _ _
  clear_value x1
  refine onlyN_next ?_
  refine only_ite ?_ ?_
  · exact State.carCheck_only hm.sub (State.fbFault_only hm.sub (by assumption))
  · assumption

theorem State.ssiGood_only {s0 s1 : State} {a1 a2} (hm : Within [.line] m) (hs1 : OnlyIn m s0 s1) :
    OnlyIn m s0 (State.ssiGood s1 a1 a2) := by
  unfold State.ssiGood
  extract_lets -merge -underBinder +onlyGivenNames x1 x2 x3 x4
  clear_value x1 x2 x3
  have hx4 : OnlyIn m s0 x4 := by
    subst x4
    split
    · exact State.axMove_only hm.sub (by assumption)
    · assumption
  clear_value x4
  exact State.updAx_only hm.sub (by assumption)

theorem State.ssiBad_only {s0 s1 : State} {a1} (hm : Within [.regs, .tn, .line, .sdio] m) (hs1 : OnlyIn m s0 s1) :
    OnlyIn m s0 (State.ssiBad s1 a1) := by
  unfold State.ssiBad
  exact State.raise_only hm.sub (State.updAx_only hm.sub (by assumption))

theorem State.gpioFilter_only {s0 s1 : State} {a1} (hm : Within [.line] m) (hs1 : OnlyIn m s0 s1) :
    OnlyIn m s0 (State.gpioFilter s1 a1) := by
  unfold State.gpioFilter
  extract_lets -merge -underBinder +onlyGivenNames x1
  have hx1 : OnlyIn m s0 x1 := by
    subst x1
    exact State.updLine_only hm.sub (by assumption)
  clear_value x1
  refine State.each_only ?_ (fun _ _ _ => ?_)
  · assumption
  · extract_lets -merge -underBinder +onlyGivenNames x2 x3
    clear_value x2 x3
    refine only_ite ?_ ?_
    · exact State.updLine_only hm.sub (by assumption)
    · extract_lets -merge -underBinder +onlyGivenNames x4
      clear_value x4
      refine only_ite ?_ ?_
      · exact State.updLine_only hm.sub (by assumption)
      · exact State.updLine_only hm.sub (by assumption)

theorem State.adcSample_only {s0 s1 : State} {a1} (hm : Within [.regs, .tn, .line, .sdio] m) (hs1 : OnlyIn m s0 s1) :
    OnlyIn m s0 (State.adcSample s1 a1) := by
  unfold State.adcSample
  refine State.each_only ?_ (fun _ _ _ => ?_)
  · assumption
  · refine only_ite ?_ ?_
    · assumption
    · split
      · extract_lets -merge -underBinder +onlyGivenNames x1
        clear_value x1
        exact State.updLine_only hm.sub (by assumption)
      · exact State.raise_only hm.sub (by assumption)

theorem State.srcWatch_only {s0 s1 : State} {a1} (hm : Within [.regs, .tn, .line, .sdio] m) (hs1 : OnlyIn m s0 s1) :
    OnlyIn m s0 (State.srcWatch s1 a1) := by
  unfold State.srcWatch
  extract_lets -merge -underBinder +onlyGivenNames x1 x2 x3
  clear_value x1 x2
  have hx3 : OnlyIn m s0 x3 := by
    subst x3
    exact State.updAx_only hm.sub (by assumption)
  clear_value x3
  refine only_ite ?_ ?_
  · exact State.raise_only hm.sub (by assumption)
  · assumption

theorem State.leaveFallback_only {s0 s1 : State} {a1} (hm : Within [.plumb] m) (hs1 : OnlyIn m s0 s1) :
    OnlyIn m s0 (State.leaveFallback s1 a1) := by
  unfold State.leaveFallback
  exact State.updTarget_only hm.sub (by assumption)

theorem State.dacOfAxis_only {s0 s1 : State} {a1} (hm : Within [.line, .plumb] m) (hs1 : OnlyIn m s0 s1) :
    OnlyIn m s0 (State.dacOfAxis s1 a1) := by
  unfold State.dacOfAxis
  split
  · assumption
  · split
    · extract_lets -merge -underBinder +onlyGivenNames x1
      have hx1 : OnlyIn m s0 x1 := by
        subst x1
        exact State.updLine_only hm.sub (by assumption)
      clear_value x1
      refine only_ite ?_ ?_
      · assumption
      · extract_lets -merge -underBinder +onlyGivenNames x2
        have hx2 : OnlyIn m s0 x2 := by
          subst x2
          exact State.leaveFallback_only hm.sub (by assumption)
        clear_value x2
        refine only_ite ?_ ?_
        · assumption
        · exact State.dacApply_only hm.sub (by assumption)
    · assumption

theorem State.axApply_only {s0 s1 : State} {a1} (hm : Within [.regs, .tn, .line, .plumb, .sdio] m) (hs1 : OnlyIn m s0 s1) :
    OnlyIn m s0 (State.axApply s1 a1) := by
  unfold State.axApply
  extract_lets -merge -underBinder +onlyGivenNames x1
  have hx1 : OnlyIn m s0 x1 := by
    subst x1
    exact State.updAx_only hm.sub (by assumption)
  clear_value x1
  split
  · assumption
  · extract_lets -merge -underBinder +onlyGivenNames x2
    have hx2 : OnlyIn m s0 x2 := by
      subst x2
      exact State.updAx_only hm.sub (by assumption)
    clear_value x2
    refine only_ite ?_ ?_
    · exact State.raise_only hm.sub (State.bumpHi_only hm.sub (by assumption))
    · extract_lets -merge -underBinder +onlyGivenNames x3
      have hx3 : OnlyIn m s0 x3 := by
        subst x3
        exact State.leaveFallback_only hm.sub (by assumption)
      clear_value x3
      extract_lets -merge -underBinder +onlyGivenNames x4
      have hx4 : OnlyIn m s0 x4 := by
        subst x4
        exact State.regSet_only hm.sub (State.updAx_only hm.sub (by assumption))
      clear_value x4
      extract_lets -merge -underBinder +onlyGivenNames x5
      have hx5 : OnlyIn m s0 x5 := by
        subst x5
        exact State.updTarget_only hm.sub (by assumption)
      clear_value x5
      exact State.dacOfAxis_only hm.sub (by assumption)

theorem State.reanchor_only {s0 s1 : State} {a1} (hm : Within [.line] m) (hs1 : OnlyIn m s0 s1) :
    OnlyIn m s0 (State.reanchor s1 a1) := by
  unfold State.reanchor
  exact State.updAx_only hm.sub (by assumption)

theorem State.lawPrep_only {s0 s1 : State} {a1} (hm : Within [.line] m) (hs1 : OnlyIn m s0 s1) :
    OnlyIn m s0 (State.lawPrep s1 a1) := by
  unfold State.lawPrep
  extract_lets -merge -underBinder +onlyGivenNames x1
  have hx1 : OnlyIn m s0 x1 := by
    subst x1
    exact State.reanchor_only hm.sub (by assumption)
  clear_value x1
  extract_lets -merge -underBinder +onlyGivenNames x2 x3
  clear_value x2 x3
  split
  · extract_lets -merge -underBinder +onlyGivenNames x4
    clear_value x4
    exact State.updAx_only hm.sub (by assumption)

theorem State.measure_only {s0 s1 : State} {a1} (hm : Within [.line] m) (hs1 : OnlyIn m s0 s1) :
    OnlyIn m s0 (State.measure s1 a1) := by
  unfold State.measure
  extract_lets -merge -underBinder +onlyGivenNames x1 x2
  clear_value x1 x2
  exact State.updAx_only hm.sub (by assumption)

theorem State.lawExec_only {s0 s1 : State} {a1 a2} (hm : Within [.line] m) (hs1 : OnlyIn m s0 s1) :
    OnlyIn m s0 (State.lawExec s1 a1 a2) := by
  unfold State.lawExec
  exact State.updAx_only hm.sub (by assumption)

theorem State.axPass_only {s0 s1 : State} {a1 a2}
    (hm : Within [.regs, .mem, .tn, .die, .stream, .kv, .mt, .bond, .line, .plumb, .test, .sdio] m) (hs1 : OnlyIn m s0 s1) :
    OnlyIn m s0 (State.axPass s1 a1 a2) := by
  unfold State.axPass
  extract_lets -merge -underBinder +onlyGivenNames x1
  have hx1 : OnlyIn m s0 x1 := by
    subst x1
    exact State.updAx_only hm.sub (by assumption)
  clear_value x1
  split
  · split
    · refine only_ite ?_ ?_
      · exact State.watchKick_only hm.sub (State.updCar_only hm.sub (by assumption))
      · assumption
    · assumption
  · assumption

theorem State.dacPass_only {s0 s1 : State} {a1 a2} (hm : Within [.line] m) (hs1 : OnlyIn m s0 s1) :
    OnlyIn m s0 (State.dacPass s1 a1 a2) := by
  unfold State.dacPass
  exact State.updLine_only hm.sub (by assumption)

theorem State.lawOffer_only {s0 s1 : State} {a1}
    (hm : Within [.regs, .mem, .tn, .die, .stream, .kv, .mt, .bond, .line, .plumb, .test, .sdio] m) (hs1 : OnlyIn m s0 s1) :
    OnlyIn m s0 (State.lawOffer s1 a1) := by
  unfold State.lawOffer
  extract_lets -merge -underBinder +onlyGivenNames x1 x2 x3 x4 x5
  clear_value x1 x2 x3 x4
  have hx5 : OnlyIn m s0 x5 := by
    subst x5
    refine only_ite ?_ ?_
    · exact State.raise_only hm.sub (State.bumpLo_only hm.sub (by assumption))
    · assumption
  clear_value x5
  extract_lets -merge -underBinder +onlyGivenNames x6 x7 x8
  clear_value x6 x7
  have hx8 : OnlyIn m s0 x8 := by
    subst x8
    exact State.updTarget_only hm.sub (State.updAx_only hm.sub (by assumption))
  clear_value x8
  extract_lets -merge -underBinder +onlyGivenNames x9
  have hx9 : OnlyIn m s0 x9 := by
    subst x9
    split
    · exact State.updTarget_only hm.sub (State.updLine_only hm.sub (by assumption))
    · assumption
  clear_value x9
  refine only_ite ?_ ?_
  · assumption
  · split
    · exact State.dacPass_only hm.sub (State.axPass_only hm.sub (by assumption))
    · exact State.axPass_only hm.sub (by assumption)

theorem State.feCheck_only {s0 s1 : State} {a1 a2}
    (hm : Within [.regs, .tn, .line, .plumb, .sdio] m) (hs1 : OnlyIn m s0 s1) :
    OnlyIn m s0 (State.feCheck s1 a1 a2) := by
  unfold State.feCheck
  extract_lets -merge -underBinder +onlyGivenNames x1 x2 x3 x4 x5
  clear_value x1 x2 x3 x4
  have hx5 : OnlyIn m s0 x5 := by
    subst x5
    exact State.updAx_only hm.sub (by assumption)
  clear_value x5
  extract_lets -merge -underBinder +onlyGivenNames x6
  clear_value x6
  exact State.axFault_only hm.sub (by assumption)

theorem State.axForm_only {s0 s1 : State} {a1 a2}
    (hm : Within [.regs, .tn, .line, .plumb, .sdio] m) (hs1 : OnlyIn m s0 s1) :
    OnlyIn m s0 (State.axForm s1 a1 a2) := by
  unfold State.axForm
  extract_lets -merge -underBinder +onlyGivenNames x1
  have hx1 : OnlyIn m s0 x1 := by
    subst x1
    exact State.measure_only hm.sub (by assumption)
  clear_value x1
  refine only_ite ?_ ?_
  · exact State.feCheck_only hm.sub (State.lawPrep_only hm.sub (by assumption))
  · assumption

theorem State.groupCheck_only {s0 s1 : State} {a1}
    (hm : Within [.regs, .tn, .line, .plumb, .sdio] m) (hs1 : OnlyIn m s0 s1) :
    OnlyIn m s0 (State.groupCheck s1 a1) := by
  unfold State.groupCheck
  extract_lets -merge -underBinder +onlyGivenNames x1
  clear_value x1
  refine only_ite ?_ ?_
  · assumption
  · extract_lets -merge -underBinder +onlyGivenNames x2 x3 x4 x5 x6 x7
    clear_value x2 x3 x4 x5 x6
    have hx7 : OnlyIn m s0 x7 := by
      subst x7
      exact State.regSet_only hm.sub (State.updAxGrp_only hm.sub (by assumption))
    clear_value x7
    refine only_ite ?_ ?_
    · refine State.each_only ?_ (fun _ _ _ => ?_)
      · exact State.raise_only hm.sub (by assumption)
      · exact State.axFault_only hm.sub (by assumption)
    · assumption

theorem State.axSample_only {s0 s1 : State} {a1} (hm : Within [.regs, .tn, .line, .plumb, .sdio] m) (hs1 : OnlyIn m s0 s1) :
    OnlyIn m s0 (State.axSample s1 a1) := by
  unfold State.axSample
  extract_lets -merge -underBinder +onlyGivenNames x1 x2
  have hx1 : OnlyIn m s0 x1 := by
    subst x1
    exact State.updAx_only hm.sub (by assumption)
  clear_value x1
  have hx2 : OnlyIn m s0 x2 := by
    subst x2
    refine only_ite ?_ ?_
    · refine only_ite ?_ ?_
      · exact State.updAx_only hm.sub (State.axEnable_only hm.sub (by assumption))
      · assumption
    · assumption
  clear_value x2
  extract_lets -merge -underBinder +onlyGivenNames x3
  have hx3 : OnlyIn m s0 x3 := by
    subst x3
    exact State.srcWatch_only hm.sub (State.stepPeriod_only hm.sub (State.axApply_only hm.sub (by assumption)))
  clear_value x3
  exact State.updAx_only hm.sub (by assumption)

theorem State.baseTick_only {s0 s1 : State} {a1 a2}
    (hm : Within [.regs, .mem, .tn, .die, .stream, .kv, .mt, .bond, .line, .plumb, .test, .sdio] m) (hs1 : OnlyIn m s0 s1) :
    OnlyIn m s0 (State.baseTick s1 a1 a2) := by
  unfold State.baseTick
  extract_lets -merge -underBinder +onlyGivenNames x1 x2 x3
  clear_value x1 x2
  have hx3 : OnlyIn m s0 x3 := by
    subst x3
    exact State.updLine_only hm.sub (by assumption)
  clear_value x3
  extract_lets -merge -underBinder +onlyGivenNames x4
  have hx4 : OnlyIn m s0 x4 := by
    subst x4
    refine State.each_only ?_ (fun _ _ _ => ?_)
    · exact State.adcSample_only hm.sub (State.gpioFilter_only hm.sub (by assumption))
    · exact State.rampTick_only hm.sub (by assumption)
  clear_value x4
  extract_lets -merge -underBinder +onlyGivenNames x5
  have hx5 : OnlyIn m s0 x5 := by
    subst x5
    refine State.each_only ?_ (fun _ _ _ => ?_)
    · assumption
    · exact State.axSample_only hm.sub (by assumption)
  clear_value x5
  extract_lets -merge -underBinder +onlyGivenNames x6
  have hx6 : OnlyIn m s0 x6 := by
    subst x6
    refine State.each_only ?_ (fun _ _ _ => ?_)
    · assumption
    · exact State.axForm_only hm.sub (by assumption)
  clear_value x6
  extract_lets -merge -underBinder +onlyGivenNames x7
  have hx7 : OnlyIn m s0 x7 := by
    subst x7
    refine State.each_only ?_ (fun _ _ _ => ?_)
    · assumption
    · exact State.groupCheck_only hm.sub (by assumption)
  clear_value x7
  exact State.gpioStep_only hm.sub (State.motionTick_only hm.sub (by assumption))

theorem execSsiFrameDone_only {s0 : State} {a0 a1 a2 a3}
    (hm : Within [.regs, .mem, .tn, .die, .stream, .kv, .mt, .bond, .line, .plumb, .test, .sdio] m) :
    OnlyInN m (State.to s0 a0) (execSsiFrameDone a0 a1 a2 a3 s0) := by
  unfold execSsiFrameDone
  extract_lets -merge -underBinder +onlyGivenNames x1
  have hx1 : OnlyIn m (State.to s0 a0) x1 := by
    subst x1
    exact OnlyIn.refl _ _
  clear_value x1
  refine guardNext_only ?_ (fun _ _ => ?_)
  · assumption
  · extract_lets -merge -underBinder +onlyGivenNames x2
    have hx2 : OnlyIn m (State.to s0 a0) x2 := by
      subst x2
      exact State.updAx_only hm.sub (by assumption)
    clear_value x2
    extract_lets -merge -underBinder +onlyGivenNames x3
    have hx3 : OnlyIn m (State.to s0 a0) x3 := by
      subst x3
      refine only_ite ?_ ?_
      · exact State.ssiGood_only hm.sub (by assumption)
      · exact State.ssiBad_only hm.sub (by assumption)
    clear_value x3
    extract_lets -merge -underBinder +onlyGivenNames x4
    have hx4 : OnlyIn m (State.to s0 a0) x4 := by
      subst x4
      exact State.axForm_only hm.sub (State.updAx_only hm.sub (by assumption))
    clear_value x4
    extract_lets -merge -underBinder +onlyGivenNames x5
    have hx5 : OnlyIn m (State.to s0 a0) x5 := by
      subst x5
      split
      · exact State.groupCheck_only hm.sub (by assumption)
      · assumption
    clear_value x5
    exact State.carCheck_only hm.sub (by assumption)

theorem execControlLawRun_only {s0 : State} {a0 a1}
    (hm : Within [.regs, .mem, .tn, .die, .stream, .kv, .mt, .bond, .line, .plumb, .test, .sdio] m) :
    OnlyInN m (State.to s0 a0) (execControlLawRun a0 a1 s0) := by
  unfold execControlLawRun
  extract_lets -merge -underBinder +onlyGivenNames x1
  have hx1 : OnlyIn m (State.to s0 a0) x1 := by
    subst x1
    exact OnlyIn.refl _ _
  clear_value x1
  refine guardNext_only ?_ (fun _ _ => ?_)
  · assumption
  · refine State.lawOffer_only hm.sub ?_
    refine State.each_only ?_ (fun _ _ _ => ?_)
    · assumption
    · exact State.lawExec_only hm.sub (by assumption)

theorem lawRow_only {s0 : State} {a0 a1 a2 a3 a4 a5 a6} (hm : Within [.line] m) :
    OnlyInN m (State.to s0 a0) (lawRow a0 a1 a2 a3 a4 a5 a6 s0) := by
  unfold lawRow
  extract_lets -merge -underBinder +onlyGivenNames x1
  have hx1 : OnlyIn m (State.to s0 a0) x1 := by
    subst x1
    exact OnlyIn.refl _ _
  clear_value x1
  extract_lets -merge -underBinder +onlyGivenNames x2
  clear_value x2
  refine guardNext_only ?_ (fun _ _ => ?_)
  · assumption
  · exact State.updAx_only hm.sub (State.lawExec_only hm.sub (by assumption))

theorem execServoEnd_only {s0 : State} {a0 a1}
    (hm : Within [.regs, .mem, .tn, .die, .stream, .kv, .mt, .bond, .line, .plumb, .test, .sdio] m) :
    OnlyInN m (State.to s0 a0) (execServoEnd a0 a1 s0) := by
  unfold execServoEnd
  extract_lets -merge -underBinder +onlyGivenNames x1
  have hx1 : OnlyIn m (State.to s0 a0) x1 := by
    subst x1
    exact OnlyIn.refl _ _
  clear_value x1
  refine guardNext_only ?_ (fun _ _ => ?_)
  · assumption
  · exact State.lawOffer_only hm.sub (by assumption)

theorem execServoFadd_only {s0 : State} {a0 a1 a2 a3 a4} (hm : Within [.line] m) :
    OnlyInN m (State.to s0 a0) (execServoFadd a0 a1 a2 a3 a4 s0) := by
  unfold execServoFadd
  exact lawRow_only hm.sub 

theorem execServoFsub_only {s0 : State} {a0 a1 a2 a3 a4} (hm : Within [.line] m) :
    OnlyInN m (State.to s0 a0) (execServoFsub a0 a1 a2 a3 a4 s0) := by
  unfold execServoFsub
  exact lawRow_only hm.sub 

theorem execServoFmul_only {s0 : State} {a0 a1 a2 a3 a4} (hm : Within [.line] m) :
    OnlyInN m (State.to s0 a0) (execServoFmul a0 a1 a2 a3 a4 s0) := by
  unfold execServoFmul
  exact lawRow_only hm.sub 

theorem execServoFfma_only {s0 : State} {a0 a1 a2 a3 a4 a5} (hm : Within [.line] m) :
    OnlyInN m (State.to s0 a0) (execServoFfma a0 a1 a2 a3 a4 a5 s0) := by
  unfold execServoFfma
  exact lawRow_only hm.sub 

theorem execServoFmin_only {s0 : State} {a0 a1 a2 a3 a4} (hm : Within [.line] m) :
    OnlyInN m (State.to s0 a0) (execServoFmin a0 a1 a2 a3 a4 s0) := by
  unfold execServoFmin
  exact lawRow_only hm.sub 

theorem execServoFmax_only {s0 : State} {a0 a1 a2 a3 a4} (hm : Within [.line] m) :
    OnlyInN m (State.to s0 a0) (execServoFmax a0 a1 a2 a3 a4 s0) := by
  unfold execServoFmax
  exact lawRow_only hm.sub 

theorem execServoFabs_only {s0 : State} {a0 a1 a2 a3} (hm : Within [.line] m) :
    OnlyInN m (State.to s0 a0) (execServoFabs a0 a1 a2 a3 s0) := by
  unfold execServoFabs
  exact lawRow_only hm.sub 

theorem execFclamp_only {s0 : State} {a0 a1 a2 a3 a4 a5} (hm : Within [.line] m) :
    OnlyInN m (State.to s0 a0) (execFclamp a0 a1 a2 a3 a4 a5 s0) := by
  unfold execFclamp
  exact lawRow_only hm.sub 

theorem execFsel_only {s0 : State} {a0 a1 a2 a3 a4 a5} (hm : Within [.line] m) :
    OnlyInN m (State.to s0 a0) (execFsel a0 a1 a2 a3 a4 a5 s0) := by
  unfold execFsel
  exact lawRow_only hm.sub 

theorem execLdk_only {s0 : State} {a0 a1 a2 a3} (hm : Within [.line] m) :
    OnlyInN m (State.to s0 a0) (execLdk a0 a1 a2 a3 s0) := by
  unfold execLdk
  exact lawRow_only hm.sub 

theorem execServoRecip_only {s0 : State} {a0 a1 a2 a3} (hm : Within [.line] m) :
    OnlyInN m (State.to s0 a0) (execServoRecip a0 a1 a2 a3 s0) := by
  unfold execServoRecip
  exact lawRow_only hm.sub 

theorem execServoRsqrt_only {s0 : State} {a0 a1 a2 a3} (hm : Within [.line] m) :
    OnlyInN m (State.to s0 a0) (execServoRsqrt a0 a1 a2 a3 s0) := by
  unfold execServoRsqrt
  exact lawRow_only hm.sub 

theorem execServoTanh_only {s0 : State} {a0 a1 a2 a3} (hm : Within [.line] m) :
    OnlyInN m (State.to s0 a0) (execServoTanh a0 a1 a2 a3 s0) := by
  unfold execServoTanh
  exact lawRow_only hm.sub 

end Sys2Proof.Machine
end

