-- ==== Sys2Proof/Laws/OnlyQp.lean ====
section
/-! SUPPORT. What the operations of Machine/Qp.lean may change (Laws/Only.lean). -/
namespace Sys2Proof.Machine
set_option Elab.async false

variable {m : List Block}

theorem State.qpStage_only {s0 s1 : State} {a1 a2} (hm : Within [.line, .plumb] m) (hs1 : OnlyIn m s0 s1) :
    OnlyIn m s0 (State.qpStage s1 a1 a2) := by
  unfold State.qpStage
  extract_lets -merge -underBinder +onlyGivenNames x1
  have hx1 : OnlyIn m s0 x1 := by
    subst x1
    exact State.updQp_only hm.sub (by assumption)
  clear_value x1
  split
  · assumption
  · refine State.each_only ?_ (fun _ _ _ => ?_)
    · assumption
    · refine only_ite ?_ ?_
      · assumption
      · extract_lets -merge -underBinder +onlyGivenNames x2 x3
        clear_value x2
        have hx3 : OnlyIn m s0 x3 := by
          subst x3
          exact State.updLine_only hm.sub (by assumption)
        clear_value x3
        exact State.updTarget_only hm.sub (by assumption)

theorem State.qpStageZ_only {s0 s1 : State} {a1 a2 a3}
    (hm : Within [.regs, .tn, .line, .plumb, .sdio] m) (hs1 : OnlyIn m s0 s1) :
    OnlyIn m s0 (State.qpStageZ s1 a1 a2 a3) := by
  unfold State.qpStageZ
  extract_lets -merge -underBinder +onlyGivenNames x1 x2
  clear_value x1
  have hx2 : OnlyIn m s0 x2 := by
    subst x2
    refine State.each_only ?_ (fun _ _ _ => ?_)
    · assumption
    · refine only_ite ?_ ?_
      · assumption
      · refine State.raise_only hm.sub ?_
        refine only_ite ?_ ?_
        · exact State.bumpLo_only hm.sub (by assumption)
        · assumption
  clear_value x2
  exact State.qpStage_only hm.sub (State.updQp_only hm.sub (by assumption))

theorem State.qpApply1_only {s0 s1 : State} {a1 a2 a3}
    (hm : Within [.regs, .tn, .line, .plumb, .sdio] m) (hs1 : OnlyIn m s0 s1) :
    OnlyInL m s0 (State.qpApply1 s1 a1 a2 a3) := by
  unfold State.qpApply1
  split
  · refine onlyL_ite ?_ ?_
    · exact onlyL_mk (State.raise_only hm.sub (by assumption))
    · exact onlyL_mk (State.updAx_only hm.sub (by assumption))
  · split
    · extract_lets -merge -underBinder +onlyGivenNames x1
      have hx1 : OnlyIn m s0 x1 := by
        subst x1
        exact State.updLine_only hm.sub (by assumption)
      clear_value x1
      refine onlyL_ite ?_ ?_
      · exact onlyL_mk (by assumption)
      · extract_lets -merge -underBinder +onlyGivenNames x2
        have hx2 : OnlyIn m s0 x2 := by
          subst x2
          exact State.leaveFallback_only hm.sub (by assumption)
        clear_value x2
        refine onlyL_ite ?_ ?_
        · exact onlyL_mk (by assumption)
        · exact onlyL_mk (State.dacApply_only hm.sub (by assumption))
    · exact onlyL_mk (by assumption)
  · extract_lets -merge -underBinder +onlyGivenNames x3
    clear_value x3
    exact onlyL_mk (State.updLine_only hm.sub (by assumption))

theorem State.qpApply_only {s0 s1 : State} {a1} (hm : Within [.regs, .tn, .line, .plumb, .sdio] m) (hs1 : OnlyIn m s0 s1) :
    OnlyIn m s0 (State.qpApply s1 a1) := by
  unfold State.qpApply
  split
  · extract_lets -merge -underBinder +onlyGivenNames x1
    clear_value x1
    split
    · refine OnlyInL.of_eq (m := m) (a := s0) (by assumption) ?_ (fun _ => ?_)
      · refine onlyL_foldl (fun _ _ _ => ?_) ?_
        · split
          · refine OnlyInL.of_eq (m := m) (a := s0) (by assumption) ?_ (fun _ => ?_)
            · refine State.qpApply1_only hm.sub ?_
              exact OnlyInL.fst (by assumption)
            exact onlyL_mk (by assumption)
        · exact onlyL_mk (by assumption)
      exact State.gpioStep_only hm.sub (State.updQp_only hm.sub (by assumption))
  · assumption

theorem State.qpFallback_only {s0 s1 : State} {a1} (hm : Within [.line, .plumb] m) (hs1 : OnlyIn m s0 s1) :
    OnlyIn m s0 (State.qpFallback s1 a1) := by
  unfold State.qpFallback
  split
  · exact State.qpStage_only hm.sub (by assumption)
  · assumption

theorem State.thetaRaw_only {s0 s1 : State} {a1 a2} (hm : Within [.fresh] m) (hs1 : OnlyIn m s0 s1) :
    OnlyInL m s0 (State.thetaRaw s1 a1 a2) := by
  unfold State.thetaRaw
  extract_lets -merge -underBinder +onlyGivenNames x1 x2
  clear_value x1 x2
  split
  · exact onlyL_mk (by assumption)
  · refine onlyL_ite ?_ ?_
    · exact onlyL_mk (by assumption)
    · exact onlyL_mk (State.drew_only hm.sub (by assumption))
  · exact onlyL_mk (by assumption)
  · exact onlyL_mk (by assumption)
  · exact onlyL_mk (by assumption)
  · extract_lets -merge -underBinder +onlyGivenNames x3
    clear_value x3
    split
    · exact onlyL_mk (by assumption)
    · exact onlyL_mk (State.drew_only hm.sub (by assumption))
  · exact onlyL_mk (by assumption)
  · exact onlyL_mk (by assumption)
  · exact onlyL_mk (by assumption)

theorem State.thetaSample_only {s0 s1 : State} {a1 a2} (hm : Within [.fresh] m) (hs1 : OnlyIn m s0 s1) :
    OnlyInL m s0 (State.thetaSample s1 a1 a2) := by
  unfold State.thetaSample
  refine onlyL_foldl (fun _ _ _ => ?_) ?_
  · split
    · refine OnlyInL.of_eq (m := m) (a := s0) (by assumption) ?_ (fun _ => ?_)
      · refine State.thetaRaw_only hm.sub ?_
        exact OnlyInL.fst (by assumption)
      exact onlyL_mk (by assumption)
  · exact onlyL_mk (by assumption)

theorem State.qpFails_only {s0 s1 : State} {a1 a2 a3}
    (hm : Within [.regs, .tn, .line, .plumb, .sdio] m) (hs1 : OnlyIn m s0 s1) :
    OnlyIn m s0 (State.qpFails s1 a1 a2 a3) := by
  unfold State.qpFails
  extract_lets -merge -underBinder +onlyGivenNames x1
  have hx1 : OnlyIn m s0 x1 := by
    subst x1
    refine State.raise_only hm.sub ?_
    refine only_ite ?_ ?_
    · exact State.bumpHi_only hm.sub (by assumption)
    · exact State.bumpLo_only hm.sub (by assumption)
  clear_value x1
  extract_lets -merge -underBinder +onlyGivenNames x2 x3
  clear_value x2
  have hx3 : OnlyIn m s0 x3 := by
    subst x3
    exact State.updQp_only hm.sub (by assumption)
  clear_value x3
  refine only_ite ?_ ?_
  · exact State.qpFallback_only hm.sub (State.raise_only hm.sub (State.updQp_only hm.sub (by assumption)))
  · split
    · refine only_ite ?_ ?_
      · exact State.qpStageZ_only hm.sub (State.updQp_only hm.sub (by assumption))
      · exact State.qpFallback_only hm.sub (State.updQp_only hm.sub (by assumption))
    · exact State.qpFallback_only hm.sub (State.updQp_only hm.sub (by assumption))

theorem State.qpTime_only {s0 s1 : State} {a1} (hm : Within [.regs] m) (hs1 : OnlyIn m s0 s1) :
    OnlyIn m s0 (State.qpTime s1 a1) := by
  unfold State.qpTime
  extract_lets -merge -underBinder +onlyGivenNames x1
  clear_value x1
  exact State.setFld_only hm.sub (State.setFld_only hm.sub (by assumption))

theorem State.qpSolve_only {s0 s1 : State} {a1 a2}
    (hm : Within [.regs, .tn, .line, .plumb, .sdio] m) (hs1 : OnlyIn m s0 s1) :
    OnlyIn m s0 (State.qpSolve s1 a1 a2) := by
  unfold State.qpSolve
  extract_lets -merge -underBinder +onlyGivenNames x1 x2 x3 x4
  clear_value x1 x2 x3 x4
  split
  · extract_lets -merge -underBinder +onlyGivenNames x5
    have hx5 : OnlyIn m s0 x5 := by
      subst x5
      exact State.qpTime_only hm.sub (by assumption)
    clear_value x5
    extract_lets -merge -underBinder +onlyGivenNames x6
    have hx6 : OnlyIn m s0 x6 := by
      subst x6
      refine only_ite ?_ ?_
      · exact State.raise_only hm.sub (State.bumpLo_only hm.sub (by assumption))
      · assumption
    clear_value x6
    extract_lets -merge -underBinder +onlyGivenNames x7
    have hx7 : OnlyIn m s0 x7 := by
      subst x7
      refine only_ite ?_ ?_
      · exact State.raise_only hm.sub (State.bumpHi_only hm.sub (by assumption))
      · assumption
    clear_value x7
    extract_lets -merge -underBinder +onlyGivenNames x8 x9
    clear_value x8
    have hx9 : OnlyIn m s0 x9 := by
      subst x9
      exact State.updQp_only hm.sub (by assumption)
    clear_value x9
    refine only_ite ?_ ?_
    · exact State.qpFails_only hm.sub (by assumption)
    · extract_lets -merge -underBinder +onlyGivenNames x10
      have hx10 : OnlyIn m s0 x10 := by
        subst x10
        exact State.updQp_only hm.sub (by assumption)
      clear_value x10
      exact State.qpStageZ_only hm.sub (State.regSet_only hm.sub (by assumption))

theorem State.qpEnable_only {s0 s1 : State} {a1} (hm : Within [.regs, .tn, .line, .sdio] m) (hs1 : OnlyIn m s0 s1) :
    OnlyIn m s0 (State.qpEnable s1 a1) := by
  unfold State.qpEnable
  refine only_ite ?_ ?_
  · assumption
  · split
    · refine only_ite ?_ ?_
      · exact State.raise_only hm.sub (State.updLine_only hm.sub (by assumption))
      · refine only_ite ?_ ?_
        · exact State.raise_only hm.sub (by assumption)
        · exact State.updQp_only hm.sub (by assumption)

theorem State.qpDisable_only {s0 s1 : State} {a1} (hm : Within [.line, .plumb] m) (hs1 : OnlyIn m s0 s1) :
    OnlyIn m s0 (State.qpDisable s1 a1) := by
  unfold State.qpDisable
  refine only_ite ?_ ?_
  · assumption
  · exact State.qpFallback_only hm.sub (State.updQp_only hm.sub (by assumption))

theorem State.qpCycle_only {s0 s1 : State} {a1}
    (hm : Within [.regs, .fresh, .tn, .line, .plumb, .sdio] m) (hs1 : OnlyIn m s0 s1) :
    OnlyIn m s0 (State.qpCycle s1 a1) := by
  unfold State.qpCycle
  refine only_ite ?_ ?_
  · exact State.raise_only hm.sub (State.updLine_only hm.sub (State.qpDisable_only hm.sub (by assumption)))
  · extract_lets -merge -underBinder +onlyGivenNames x1
    have hx1 : OnlyIn m s0 x1 := by
      subst x1
      refine only_ite ?_ ?_
      · exact State.qpFails_only hm.sub (State.qpTime_only hm.sub (by assumption))
      · assumption
    clear_value x1
    extract_lets -merge -underBinder +onlyGivenNames x2
    have hx2 : OnlyIn m s0 x2 := by
      subst x2
      exact State.qpApply_only hm.sub (by assumption)
    clear_value x2
    extract_lets -merge -underBinder +onlyGivenNames x3
    have hx3 : OnlyIn m s0 x3 := by
      subst x3
      exact State.bump_only hm.sub (by assumption)
    clear_value x3
    refine only_ite ?_ ?_
    · exact State.qpFallback_only hm.sub (State.updQp_only hm.sub (by assumption))
    · extract_lets -merge -underBinder +onlyGivenNames x4
      have hx4 : OnlyIn m s0 x4 := by
        subst x4
        split
        · exact State.raise_only hm.sub (State.updQp_only hm.sub (by assumption))
        · assumption
      clear_value x4
      split
      · assumption
      · split
        · refine OnlyInL.of_eq (m := m) (a := s0) (by assumption) ?_ (fun _ => ?_)
          · exact State.thetaSample_only hm.sub (by assumption)
          extract_lets -merge -underBinder +onlyGivenNames x5
          have hx5 : OnlyIn m s0 x5 := by
            subst x5
            exact State.updQp_only hm.sub (by assumption)
          clear_value x5
          refine only_ite ?_ ?_
          · exact State.qpFails_only hm.sub (by assumption)
          · assumption

theorem execQpCycleStart_only {s0 : State} {a0 a1} (hm : Within [.regs, .fresh, .tn, .line, .plumb, .sdio] m) :
    OnlyInN m (State.to s0 a0) (execQpCycleStart a0 a1 s0) := by
  unfold execQpCycleStart
  extract_lets -merge -underBinder +onlyGivenNames x1
  have hx1 : OnlyIn m (State.to s0 a0) x1 := by
    subst x1
    exact OnlyIn.refl _ _
  clear_value x1
  refine guardNext_only ?_ (fun _ _ => ?_)
  · assumption
  · exact State.qpCycle_only hm.sub (by assumption)

theorem execQpSolveDone_only {s0 : State} {a0 a1} (hm : Within [.regs, .tn, .line, .plumb, .sdio] m) :
    OnlyInN m (State.to s0 a0) (execQpSolveDone a0 a1 s0) := by
  unfold execQpSolveDone
  extract_lets -merge -underBinder +onlyGivenNames x1
  have hx1 : OnlyIn m (State.to s0 a0) x1 := by
    subst x1
    exact OnlyIn.refl _ _
  clear_value x1
  split
  · refine guardNext_only ?_ (fun _ _ => ?_)
    · assumption
    · exact State.qpSolve_only hm.sub (by assumption)
  · exact onlyN_next (by assumption)

theorem execQpDeadline_only {s0 : State} {a0 a1} (hm : Within [.regs, .tn, .line, .plumb, .sdio] m) :
    OnlyInN m (State.to s0 a0) (execQpDeadline a0 a1 s0) := by
  unfold execQpDeadline
  extract_lets -merge -underBinder +onlyGivenNames x1
  have hx1 : OnlyIn m (State.to s0 a0) x1 := by
    subst x1
    exact OnlyIn.refl _ _
  clear_value x1
  refine guardNext_only ?_ (fun _ _ => ?_)
  · assumption
  · exact State.qpFails_only hm.sub (State.qpTime_only hm.sub (by assumption))

theorem State.qpDrain_only {s0 s1 : State} (hm : Within [.regs, .tn, .line, .plumb, .sdio] m) (hs1 : OnlyIn m s0 s1) :
    OnlyIn m s0 (State.qpDrain s1) := by
  unfold State.qpDrain
  refine State.each_only ?_ (fun _ _ _ => ?_)
  · assumption
  · extract_lets -merge -underBinder +onlyGivenNames x1 x2
    clear_value x1 x2
    refine only_ite ?_ ?_
    · exact State.qpApply_only hm.sub (by assumption)
    · assumption

end Sys2Proof.Machine
end

