-- ==== Sys2Proof/Laws/OnlyRules.lean ====
section
/-! SUPPORT. What the operations of Machine/Rules.lean may change (Laws/Only.lean). -/
namespace Sys2Proof.Machine
set_option Elab.async false

variable {m : List Block}

theorem State.ruleSwitch_only {s0 s1 : State} {a1} (hm : Within [.regs, .plumb] m) (hs1 : OnlyIn m s0 s1) :
    OnlyIn m s0 (State.ruleSwitch s1 a1) := by
  unfold State.ruleSwitch
  exact State.regSet_only hm.sub (State.updPlumb_only hm.sub (by assumption))

theorem State.updVerdict_only {s0 s1 : State} {a1 a2} (hm : Within [.plumb] m) (hs1 : OnlyIn m s0 s1) :
    OnlyIn m s0 (State.updVerdict s1 a1 a2) := by
  unfold State.updVerdict
  refine only_ite ?_ ?_
  · exact State.updPlumb_only hm.sub (by assumption)
  · assumption

theorem State.noteCode_only {s0 s1 : State} {a1} (hm : Within [.regs, .tn, .sdio] m) (hs1 : OnlyIn m s0 s1) :
    OnlyIn m s0 (State.noteCode s1 a1) := by
  unfold State.noteCode
  extract_lets -merge -underBinder +onlyGivenNames x1 x2
  clear_value x1
  have hx2 : OnlyIn m s0 x2 := by
    subst x2
    exact State.raise_only hm.sub (by assumption)
  clear_value x2
  refine only_ite ?_ ?_
  · assumption
  · exact State.log_only hm.sub (by assumption)

theorem State.ruleExec_only {s0 s1 : State} {a1} (hm : Within [.regs, .tn, .plumb, .sdio] m) (hs1 : OnlyIn m s0 s1) :
    OnlyIn m s0 (State.ruleExec s1 a1) := by
  unfold State.ruleExec
  extract_lets -merge -underBinder +onlyGivenNames x1
  clear_value x1
  refine only_ite ?_ ?_
  · assumption
  · refine only_ite ?_ ?_
    · exact State.updPlumb_only hm.sub (by assumption)
    · extract_lets -merge -underBinder +onlyGivenNames x2 x3 x4
      clear_value x2 x3
      have hx4 : ∀ y0, OnlyIn m s0 (x4 y0) := by
        subst x4
        intro y0
        exact State.updPlumb_only hm.sub (by assumption)
      clear_value x4
      extract_lets -merge -underBinder +onlyGivenNames x5
      clear_value x5
      split
      · exact State.updPlumb_only hm.sub (by assumption)
      · refine hx4 _
      · refine hx4 _
      · refine hx4 _
      · refine hx4 _
      · refine hx4 _
      · refine hx4 _
      · refine hx4 _
      · refine hx4 _
      · refine hx4 _
      · refine hx4 _
      · refine hx4 _
      · refine hx4 _
      · refine hx4 _
      · refine hx4 _
      · refine hx4 _
      · refine hx4 _
      · refine hx4 _
      · refine hx4 _
      · refine hx4 _
      · refine only_ite ?_ ?_
        · exact State.updPlumb_only hm.sub (by assumption)
        · assumption
      · exact State.updVerdict_only hm.sub (by assumption)
      · exact State.updVerdict_only hm.sub (by assumption)
      · refine only_ite ?_ ?_
        · exact State.updVerdict_only hm.sub (by assumption)
        · assumption
      · exact State.updPlumb_only hm.sub (by assumption)
      · exact State.noteCode_only hm.sub (by assumption)
      · assumption

theorem State.ruleStart_only {s0 s1 : State} (hm : Within [.plumb] m) (hs1 : OnlyIn m s0 s1) :
    OnlyIn m s0 (State.ruleStart s1) := by
  unfold State.ruleStart
  exact State.updPlumb_only hm.sub (by assumption)

theorem State.denied_only {s0 s1 : State} {a1 a2} (hm : Within [.regs, .tn, .plumb, .sdio] m) (hs1 : OnlyIn m s0 s1) :
    OnlyIn m s0 (State.denied s1 a1 a2) := by
  unfold State.denied
  extract_lets -merge -underBinder +onlyGivenNames x1
  have hx1 : OnlyIn m s0 x1 := by
    subst x1
    exact State.bump_only hm.sub (by assumption)
  clear_value x1
  extract_lets -merge -underBinder +onlyGivenNames x2 x3
  clear_value x2
  have hx3 : OnlyIn m s0 x3 := by
    subst x3
    exact State.updTarget_only hm.sub (by assumption)
  clear_value x3
  extract_lets -merge -underBinder +onlyGivenNames x4
  clear_value x4
  refine only_ite ?_ ?_
  · assumption
  · exact State.raise_only hm.sub (State.updTarget_only hm.sub (State.fallback_only hm.sub (by assumption)))

theorem State.valuePass_only {s0 s1 : State} {a1 a2}
    (hm : Within [.regs, .mem, .tn, .die, .stream, .kv, .mt, .bond, .line, .plumb, .test, .sdio] m) (hs1 : OnlyIn m s0 s1) :
    OnlyIn m s0 (State.valuePass s1 a1 a2) := by
  unfold State.valuePass
  extract_lets -merge -underBinder +onlyGivenNames x1
  have hx1 : OnlyIn m s0 x1 := by
    subst x1
    exact State.updTarget_only hm.sub (by assumption)
  clear_value x1
  refine only_ite ?_ ?_
  · exact State.axPass_only hm.sub (by assumption)
  · exact State.dacPass_only hm.sub (by assumption)

theorem State.valueVerdict_only {s0 s1 : State} {a1}
    (hm : Within [.regs, .mem, .tn, .die, .stream, .kv, .mt, .bond, .line, .plumb, .test, .sdio] m) (hs1 : OnlyIn m s0 s1) :
    OnlyIn m s0 (State.valueVerdict s1 a1) := by
  unfold State.valueVerdict
  split
  · assumption
  · extract_lets -merge -underBinder +onlyGivenNames x1 x2
    clear_value x1
    have hx2 : OnlyIn m s0 x2 := by
      subst x2
      exact State.updTarget_only hm.sub (by assumption)
    clear_value x2
    refine only_ite ?_ ?_
    · assumption
    · split
      · exact State.denied_only hm.sub (by assumption)
      · refine only_ite ?_ ?_
        · exact State.denied_only hm.sub (by assumption)
        · exact State.valuePass_only hm.sub (by assumption)
      · refine only_ite ?_ ?_
        · exact State.valuePass_only hm.sub (by assumption)
        · exact State.denied_only hm.sub (by assumption)

theorem State.permitStep_only {s0 s1 : State} (hm : Within [.plumb] m) (hs1 : OnlyIn m s0 s1) :
    OnlyIn m s0 (State.permitStep s1) := by
  unfold State.permitStep
  extract_lets -merge -underBinder +onlyGivenNames x1
  clear_value x1
  refine State.each_only ?_ (fun _ _ _ => ?_)
  · assumption
  · extract_lets -merge -underBinder +onlyGivenNames x2 x3 x4
    clear_value x2 x3 x4
    exact State.updTarget_only hm.sub (by assumption)

theorem State.gateStep_only {s0 s1 : State} (hm : Within [.plumb] m) (hs1 : OnlyIn m s0 s1) :
    OnlyIn m s0 (State.gateStep s1) := by
  unfold State.gateStep
  refine only_ite ?_ ?_
  · refine State.each_only ?_ (fun _ _ _ => ?_)
    · assumption
    · exact State.fallback_only hm.sub (by assumption)
  · refine only_ite ?_ ?_
    · assumption
    · refine State.each_only ?_ (fun _ _ _ => ?_)
      · assumption
      · exact State.updTarget_only hm.sub (by assumption)

theorem State.safeOkStep_only {s0 s1 : State} (hm : Within [.plumb] m) (hs1 : OnlyIn m s0 s1) :
    OnlyIn m s0 (State.safeOkStep s1) := by
  unfold State.safeOkStep
  exact State.updPlumb_only hm.sub (by assumption)

theorem State.boundary_only {s0 s1 : State} (hm : Within [.regs, .plumb] m) (hs1 : OnlyIn m s0 s1) :
    OnlyIn m s0 (State.boundary s1) := by
  unfold State.boundary
  extract_lets -merge -underBinder +onlyGivenNames x1
  have hx1 : OnlyIn m s0 x1 := by
    subst x1
    exact State.permitStep_only hm.sub (State.bump_only hm.sub (by assumption))
  clear_value x1
  extract_lets -merge -underBinder +onlyGivenNames x2
  have hx2 : OnlyIn m s0 x2 := by
    subst x2
    split
    · exact State.ruleSwitch_only hm.sub (by assumption)
    · assumption
  clear_value x2
  extract_lets -merge -underBinder +onlyGivenNames x3
  have hx3 : OnlyIn m s0 x3 := by
    subst x3
    exact State.updPlumb_only hm.sub (by assumption)
  clear_value x3
  exact State.gateStep_only hm.sub (State.safeOkStep_only hm.sub (by assumption))

theorem State.latchRound_only {s0 s1 : State} (hm : Within [.plumb] m) (hs1 : OnlyIn m s0 s1) :
    OnlyIn m s0 (State.latchRound s1) := by
  unfold State.latchRound
  extract_lets -merge -underBinder +onlyGivenNames x1
  clear_value x1
  exact State.updPlumb_only hm.sub (by assumption)

theorem State.runRules_only {s0 s1 : State} {a1} (hm : Within [.regs, .tn, .plumb, .sdio] m) (hs1 : OnlyIn m s0 s1) :
    OnlyIn m s0 (State.runRules s1 a1) := by
  unfold State.runRules
  refine only_ite ?_ ?_
  · assumption
  · split
    · assumption
    · refine State.each_only ?_ (fun _ _ _ => ?_)
      · refine State.each_only ?_ (fun _ _ _ => ?_)
        · assumption
        · exact State.ruleExec_only hm.sub (by assumption)
      · refine State.each_only ?_ (fun _ _ _ => ?_)
        · exact State.ruleStart_only hm.sub (by assumption)
        · exact State.ruleExec_only hm.sub (by assumption)

theorem State.formVerdicts_only {s0 s1 : State}
    (hm : Within [.regs, .mem, .tn, .die, .stream, .kv, .mt, .bond, .line, .plumb, .test, .sdio] m) (hs1 : OnlyIn m s0 s1) :
    OnlyIn m s0 (State.formVerdicts s1) := by
  unfold State.formVerdicts
  extract_lets -merge -underBinder +onlyGivenNames x1
  have hx1 : OnlyIn m s0 x1 := by
    subst x1
    refine only_ite ?_ ?_
    · refine State.each_only ?_ (fun _ _ _ => ?_)
      · assumption
      · exact State.valueVerdict_only hm.sub (by assumption)
    · refine State.each_only ?_ (fun _ _ _ => ?_)
      · assumption
      · exact State.updTarget_only hm.sub (by assumption)
  clear_value x1
  split
  · exact State.safeTrigger_only hm.sub (by assumption)
  · assumption

theorem State.diverge_only {s0 s1 : State}
    (hm : Within [.regs, .mem, .tn, .die, .stream, .kv, .mt, .bond, .line, .plumb, .test, .sdio] m) (hs1 : OnlyIn m s0 s1) :
    OnlyIn m s0 (State.diverge s1) := by
  unfold State.diverge
  extract_lets -merge -underBinder +onlyGivenNames x1
  have hx1 : OnlyIn m s0 x1 := by
    subst x1
    exact State.raise_only hm.sub (State.bump_only hm.sub (by assumption))
  clear_value x1
  extract_lets -merge -underBinder +onlyGivenNames x2 x3
  clear_value x2
  have hx3 : OnlyIn m s0 x3 := by
    subst x3
    exact State.updPlumb_only hm.sub (by assumption)
  clear_value x3
  refine only_ite ?_ ?_
  · exact State.lockstepFault_only hm.sub (by assumption)
  · assumption

theorem State.plumbInject_only {s0 s1 : State} {a1}
    (hm : Within [.regs, .mem, .tn, .die, .stream, .kv, .mt, .bond, .line, .plumb, .test, .sdio] m) (hs1 : OnlyIn m s0 s1) :
    OnlyIn m s0 (State.plumbInject s1 a1) := by
  unfold State.plumbInject
  extract_lets -merge -underBinder +onlyGivenNames x1
  clear_value x1
  refine only_ite ?_ ?_
  · assumption
  · extract_lets -merge -underBinder +onlyGivenNames x2
    have hx2 : OnlyIn m s0 x2 := by
      subst x2
      exact State.delivered_only hm.sub (by assumption)
    clear_value x2
    split
    · exact State.lockstepFault_only hm.sub (by assumption)
    · exact State.diverge_only hm.sub (by assumption)
    · exact State.bumpHi_only hm.sub (by assumption)
    · exact State.lockstepFault_only hm.sub (State.bumpLo_only hm.sub (by assumption))

theorem State.ruleFinish_only {s0 s1 : State}
    (hm : Within [.regs, .mem, .tn, .die, .stream, .kv, .mt, .bond, .line, .plumb, .test, .sdio] m) (hs1 : OnlyIn m s0 s1) :
    OnlyIn m s0 (State.ruleFinish s1) := by
  unfold State.ruleFinish
  split
  · assumption
  · exact State.formVerdicts_only hm.sub (State.runRules_only hm.sub (State.updPlumb_only hm.sub (by assumption)))

theorem State.roundBegin_only {s0 s1 : State} {a1}
    (hm : Within [.regs, .mem, .tn, .die, .stream, .kv, .mt, .bond, .line, .plumb, .test, .sdio] m) (hs1 : OnlyIn m s0 s1) :
    OnlyIn m s0 (State.roundBegin s1 a1) := by
  unfold State.roundBegin
  extract_lets -merge -underBinder +onlyGivenNames x1
  have hx1 : OnlyIn m s0 x1 := by
    subst x1
    exact State.boundary_only hm.sub (State.updPlumb_only hm.sub (State.ruleFinish_only hm.sub (by assumption)))
  clear_value x1
  extract_lets -merge -underBinder +onlyGivenNames x2
  have hx2 : OnlyIn m s0 x2 := by
    subst x2
    exact State.latchRound_only hm.sub (State.plumbInject_only hm.sub (by assumption))
  clear_value x2
  exact State.ruleStart_only hm.sub (State.updPlumb_only hm.sub (by assumption))

theorem State.roundAt_only {s0 s1 : State} {a1}
    (hm : Within [.regs, .mem, .tn, .die, .stream, .kv, .mt, .bond, .line, .plumb, .test, .sdio] m) (hs1 : OnlyIn m s0 s1) :
    OnlyIn m s0 (State.roundAt s1 a1) := by
  unfold State.roundAt
  exact State.ruleFinish_only hm.sub (State.roundBegin_only hm.sub (by assumption))

theorem execPlumbRound_only {s0 : State} {a0}
    (hm : Within [.regs, .mem, .tn, .die, .stream, .kv, .mt, .bond, .line, .plumb, .test, .sdio] m) :
    OnlyInN m (State.to s0 a0) (execPlumbRound a0 s0) := by
  unfold execPlumbRound
  extract_lets -merge -underBinder +onlyGivenNames x1
  have hx1 : OnlyIn m (State.to s0 a0) x1 := by
    subst x1
    exact OnlyIn.refl _ _
  clear_value x1
  refine onlyN_next ?_
  refine only_ite ?_ ?_
  · exact State.roundAt_only hm.sub (by assumption)
  · exact State.ruleFinish_only hm.sub (by assumption)

theorem State.ruleNext_only {s0 s1 : State} {a1 a2}
    (hm : Within [.regs, .mem, .tn, .die, .stream, .kv, .mt, .bond, .line, .plumb, .test, .sdio] m) (hs1 : OnlyIn m s0 s1) :
    OnlyIn m s0 (State.ruleNext s1 a1 a2) := by
  unfold State.ruleNext
  extract_lets -merge -underBinder +onlyGivenNames x1 x2
  clear_value x1
  have hx2 : OnlyIn m s0 x2 := by
    subst x2
    exact State.updPlumb_only hm.sub (by assumption)
  clear_value x2
  split
  · assumption
  · exact State.ruleFinish_only hm.sub (by assumption)
  · exact State.updPlumb_only hm.sub (State.ruleStart_only hm.sub (by assumption))

theorem ruleRow_only {s0 : State} {a0 a1 a2 a3 a4 a5}
    (hm : Within [.regs, .mem, .tn, .die, .stream, .kv, .mt, .bond, .line, .plumb, .test, .sdio] m) :
    OnlyInN m (State.to s0 a0) (ruleRow a0 a1 a2 a3 a4 a5 s0) := by
  unfold ruleRow
  extract_lets -merge -underBinder +onlyGivenNames x1
  have hx1 : OnlyIn m (State.to s0 a0) x1 := by
    subst x1
    exact OnlyIn.refl _ _
  clear_value x1
  extract_lets -merge -underBinder +onlyGivenNames x2
  have hx2 : OnlyIn m (State.to s0 a0) x2 := by
    subst x2
    refine only_ite ?_ ?_
    · exact State.roundBegin_only hm.sub (by assumption)
    · assumption
  clear_value x2
  extract_lets -merge -underBinder +onlyGivenNames x3
  clear_value x3
  split
  · refine onlyN_next ?_
    refine only_ite ?_ ?_
    · exact State.ruleNext_only hm.sub (State.ruleExec_only hm.sub (by assumption))
    · assumption
  · exact onlyN_next (by assumption)

theorem execRuleEnd_only {s0 : State} {a0}
    (hm : Within [.regs, .mem, .tn, .die, .stream, .kv, .mt, .bond, .line, .plumb, .test, .sdio] m) :
    OnlyInN m (State.to s0 a0) (execRuleEnd a0 s0) := by
  unfold execRuleEnd
  exact ruleRow_only hm.sub 

theorem execRuleIn_only {s0 : State} {a0 a1 a2}
    (hm : Within [.regs, .mem, .tn, .die, .stream, .kv, .mt, .bond, .line, .plumb, .test, .sdio] m) :
    OnlyInN m (State.to s0 a0) (execRuleIn a0 a1 a2 s0) := by
  unfold execRuleIn
  exact ruleRow_only hm.sub 

theorem execRuleKi_only {s0 : State} {a0 a1 a2}
    (hm : Within [.regs, .mem, .tn, .die, .stream, .kv, .mt, .bond, .line, .plumb, .test, .sdio] m) :
    OnlyInN m (State.to s0 a0) (execRuleKi a0 a1 a2 s0) := by
  unfold execRuleKi
  exact ruleRow_only hm.sub 

theorem execRuleKf_only {s0 : State} {a0 a1 a2}
    (hm : Within [.regs, .mem, .tn, .die, .stream, .kv, .mt, .bond, .line, .plumb, .test, .sdio] m) :
    OnlyInN m (State.to s0 a0) (execRuleKf a0 a1 a2 s0) := by
  unfold execRuleKf
  exact ruleRow_only hm.sub 

theorem execRuleAdd_only {s0 : State} {a0 a1 a2 a3}
    (hm : Within [.regs, .mem, .tn, .die, .stream, .kv, .mt, .bond, .line, .plumb, .test, .sdio] m) :
    OnlyInN m (State.to s0 a0) (execRuleAdd a0 a1 a2 a3 s0) := by
  unfold execRuleAdd
  exact ruleRow_only hm.sub 

theorem execRuleSub_only {s0 : State} {a0 a1 a2 a3}
    (hm : Within [.regs, .mem, .tn, .die, .stream, .kv, .mt, .bond, .line, .plumb, .test, .sdio] m) :
    OnlyInN m (State.to s0 a0) (execRuleSub a0 a1 a2 a3 s0) := by
  unfold execRuleSub
  exact ruleRow_only hm.sub 

theorem execRuleMul_only {s0 : State} {a0 a1 a2 a3}
    (hm : Within [.regs, .mem, .tn, .die, .stream, .kv, .mt, .bond, .line, .plumb, .test, .sdio] m) :
    OnlyInN m (State.to s0 a0) (execRuleMul a0 a1 a2 a3 s0) := by
  unfold execRuleMul
  exact ruleRow_only hm.sub 

theorem execRuleFadd_only {s0 : State} {a0 a1 a2 a3}
    (hm : Within [.regs, .mem, .tn, .die, .stream, .kv, .mt, .bond, .line, .plumb, .test, .sdio] m) :
    OnlyInN m (State.to s0 a0) (execRuleFadd a0 a1 a2 a3 s0) := by
  unfold execRuleFadd
  exact ruleRow_only hm.sub 

theorem execRuleFsub_only {s0 : State} {a0 a1 a2 a3}
    (hm : Within [.regs, .mem, .tn, .die, .stream, .kv, .mt, .bond, .line, .plumb, .test, .sdio] m) :
    OnlyInN m (State.to s0 a0) (execRuleFsub a0 a1 a2 a3 s0) := by
  unfold execRuleFsub
  exact ruleRow_only hm.sub 

theorem execRuleFmul_only {s0 : State} {a0 a1 a2 a3}
    (hm : Within [.regs, .mem, .tn, .die, .stream, .kv, .mt, .bond, .line, .plumb, .test, .sdio] m) :
    OnlyInN m (State.to s0 a0) (execRuleFmul a0 a1 a2 a3 s0) := by
  unfold execRuleFmul
  exact ruleRow_only hm.sub 

theorem execRuleAbs_only {s0 : State} {a0 a1 a2}
    (hm : Within [.regs, .mem, .tn, .die, .stream, .kv, .mt, .bond, .line, .plumb, .test, .sdio] m) :
    OnlyInN m (State.to s0 a0) (execRuleAbs a0 a1 a2 s0) := by
  unfold execRuleAbs
  exact ruleRow_only hm.sub 

theorem execRuleFabs_only {s0 : State} {a0 a1 a2}
    (hm : Within [.regs, .mem, .tn, .die, .stream, .kv, .mt, .bond, .line, .plumb, .test, .sdio] m) :
    OnlyInN m (State.to s0 a0) (execRuleFabs a0 a1 a2 s0) := by
  unfold execRuleFabs
  exact ruleRow_only hm.sub 

theorem execRuleLt_only {s0 : State} {a0 a1 a2 a3}
    (hm : Within [.regs, .mem, .tn, .die, .stream, .kv, .mt, .bond, .line, .plumb, .test, .sdio] m) :
    OnlyInN m (State.to s0 a0) (execRuleLt a0 a1 a2 a3 s0) := by
  unfold execRuleLt
  exact ruleRow_only hm.sub 

theorem execRuleLe_only {s0 : State} {a0 a1 a2 a3}
    (hm : Within [.regs, .mem, .tn, .die, .stream, .kv, .mt, .bond, .line, .plumb, .test, .sdio] m) :
    OnlyInN m (State.to s0 a0) (execRuleLe a0 a1 a2 a3 s0) := by
  unfold execRuleLe
  exact ruleRow_only hm.sub 

theorem execRuleEq_only {s0 : State} {a0 a1 a2 a3}
    (hm : Within [.regs, .mem, .tn, .die, .stream, .kv, .mt, .bond, .line, .plumb, .test, .sdio] m) :
    OnlyInN m (State.to s0 a0) (execRuleEq a0 a1 a2 a3 s0) := by
  unfold execRuleEq
  exact ruleRow_only hm.sub 

theorem execRuleFlt_only {s0 : State} {a0 a1 a2 a3}
    (hm : Within [.regs, .mem, .tn, .die, .stream, .kv, .mt, .bond, .line, .plumb, .test, .sdio] m) :
    OnlyInN m (State.to s0 a0) (execRuleFlt a0 a1 a2 a3 s0) := by
  unfold execRuleFlt
  exact ruleRow_only hm.sub 

theorem execRuleFle_only {s0 : State} {a0 a1 a2 a3}
    (hm : Within [.regs, .mem, .tn, .die, .stream, .kv, .mt, .bond, .line, .plumb, .test, .sdio] m) :
    OnlyInN m (State.to s0 a0) (execRuleFle a0 a1 a2 a3 s0) := by
  unfold execRuleFle
  exact ruleRow_only hm.sub 

theorem execRuleAnd_only {s0 : State} {a0 a1 a2 a3}
    (hm : Within [.regs, .mem, .tn, .die, .stream, .kv, .mt, .bond, .line, .plumb, .test, .sdio] m) :
    OnlyInN m (State.to s0 a0) (execRuleAnd a0 a1 a2 a3 s0) := by
  unfold execRuleAnd
  exact ruleRow_only hm.sub 

theorem execRuleOr_only {s0 : State} {a0 a1 a2 a3}
    (hm : Within [.regs, .mem, .tn, .die, .stream, .kv, .mt, .bond, .line, .plumb, .test, .sdio] m) :
    OnlyInN m (State.to s0 a0) (execRuleOr a0 a1 a2 a3 s0) := by
  unfold execRuleOr
  exact ruleRow_only hm.sub 

theorem execRuleNot_only {s0 : State} {a0 a1 a2}
    (hm : Within [.regs, .mem, .tn, .die, .stream, .kv, .mt, .bond, .line, .plumb, .test, .sdio] m) :
    OnlyInN m (State.to s0 a0) (execRuleNot a0 a1 a2 s0) := by
  unfold execRuleNot
  exact ruleRow_only hm.sub 

theorem execRuleSkipz_only {s0 : State} {a0 a1 a2}
    (hm : Within [.regs, .mem, .tn, .die, .stream, .kv, .mt, .bond, .line, .plumb, .test, .sdio] m) :
    OnlyInN m (State.to s0 a0) (execRuleSkipz a0 a1 a2 s0) := by
  unfold execRuleSkipz
  exact ruleRow_only hm.sub 

theorem execRulePermit_only {s0 : State} {a0 a1}
    (hm : Within [.regs, .mem, .tn, .die, .stream, .kv, .mt, .bond, .line, .plumb, .test, .sdio] m) :
    OnlyInN m (State.to s0 a0) (execRulePermit a0 a1 s0) := by
  unfold execRulePermit
  exact ruleRow_only hm.sub 

theorem execRuleDeny_only {s0 : State} {a0 a1 a2}
    (hm : Within [.regs, .mem, .tn, .die, .stream, .kv, .mt, .bond, .line, .plumb, .test, .sdio] m) :
    OnlyInN m (State.to s0 a0) (execRuleDeny a0 a1 a2 s0) := by
  unfold execRuleDeny
  exact ruleRow_only hm.sub 

theorem execRuleSubst_only {s0 : State} {a0 a1 a2}
    (hm : Within [.regs, .mem, .tn, .die, .stream, .kv, .mt, .bond, .line, .plumb, .test, .sdio] m) :
    OnlyInN m (State.to s0 a0) (execRuleSubst a0 a1 a2 s0) := by
  unfold execRuleSubst
  exact ruleRow_only hm.sub 

theorem execRuleNote_only {s0 : State} {a0 a1}
    (hm : Within [.regs, .mem, .tn, .die, .stream, .kv, .mt, .bond, .line, .plumb, .test, .sdio] m) :
    OnlyInN m (State.to s0 a0) (execRuleNote a0 a1 s0) := by
  unfold execRuleNote
  exact ruleRow_only hm.sub 

theorem execRuleSafe_only {s0 : State} {a0 a1}
    (hm : Within [.regs, .mem, .tn, .die, .stream, .kv, .mt, .bond, .line, .plumb, .test, .sdio] m) :
    OnlyInN m (State.to s0 a0) (execRuleSafe a0 a1 s0) := by
  unfold execRuleSafe
  exact ruleRow_only hm.sub 

end Sys2Proof.Machine
end

