-- ==== Sys2Proof/Laws/OnlyPlumb.lean ====
section
/-! SUPPORT. What the operations of Machine/Plumb.lean may change (Laws/Only.lean). -/
namespace Sys2Proof.Machine
set_option Elab.async false

variable {m : List Block}

theorem execWatchClose_only {s0 : State} {a0 a1}
    (hm : Within [.regs, .mem, .tn, .die, .stream, .kv, .mt, .bond, .line, .plumb, .test, .sdio] m) :
    OnlyInN m (State.to s0 a0) (execWatchClose a0 a1 s0) := by
  unfold execWatchClose
  extract_lets -merge -underBinder +onlyGivenNames x1
  have hx1 : OnlyIn m (State.to s0 a0) x1 := by
    subst x1
    exact OnlyIn.refl _ _
  clear_value x1
  split
  · exact onlyN_next (by assumption)
  · refine guardNext_only ?_ (fun _ _ => ?_)
    · assumption
    · extract_lets -merge -underBinder +onlyGivenNames x2
      clear_value x2
      exact State.violation_only hm.sub (State.updStage_only hm.sub (by assumption))

theorem State.ksMismatch_only {s0 s1 : State} {a1 a2 a3}
    (hm : Within [.regs, .mem, .tn, .die, .stream, .kv, .adapt, .mt, .bond, .line, .plumb, .test, .sdio] m) (hs1 : OnlyIn m s0 s1) :
    OnlyIn m s0 (State.ksMismatch s1 a1 a2 a3) := by
  unfold State.ksMismatch
  extract_lets -merge -underBinder +onlyGivenNames x1 x2
  clear_value x1
  have hx2 : OnlyIn m s0 x2 := by
    subst x2
    exact State.updPlumb_only hm.sub (by assumption)
  clear_value x2
  refine only_ite ?_ ?_
  · exact State.epochRollback_only hm.sub (State.updPlumb_only hm.sub (by assumption))
  · extract_lets -merge -underBinder +onlyGivenNames x3 x4
    clear_value x3
    have hx4 : OnlyIn m s0 x4 := by
      subst x4
      exact State.raise_only hm.sub (State.updPlumb_only hm.sub (by assumption))
    clear_value x4
    refine only_ite ?_ ?_
    · assumption
    · exact State.stageAction_only hm.sub (by assumption)

theorem State.ksPassed_only {s0 s1 : State} {a1 a2} (hm : Within [.plumb] m) (hs1 : OnlyIn m s0 s1) :
    OnlyIn m s0 (State.ksPassed s1 a1 a2) := by
  unfold State.ksPassed
  exact State.updPlumb_only hm.sub (by assumption)

theorem execKeystoneCompare_only {s0 : State} {a0 a1}
    (hm : Within [.regs, .mem, .tn, .die, .stream, .kv, .adapt, .mt, .bond, .line, .plumb, .test, .sdio] m) :
    OnlyInN m (State.to s0 a0) (execKeystoneCompare a0 a1 s0) := by
  unfold execKeystoneCompare
  extract_lets -merge -underBinder +onlyGivenNames x1
  have hx1 : OnlyIn m (State.to s0 a0) x1 := by
    subst x1
    exact OnlyIn.refl _ _
  clear_value x1
  split
  · exact onlyN_next (by assumption)
  · split
    · extract_lets -merge -underBinder +onlyGivenNames x2 x3
      clear_value x2
      have hx3 : OnlyIn m (State.to s0 a0) x3 := by
        subst x3
        exact State.updBond_only hm.sub (by assumption)
      clear_value x3
      refine onlyN_ite ?_ ?_
      · exact onlyN_next (by assumption)
      · refine onlyN_ite ?_ ?_
        · exact onlyN_next (State.ksPassed_only hm.sub (by assumption))
        · exact onlyN_next (State.ksMismatch_only hm.sub (by assumption))
    · split
      · exact onlyN_next (by assumption)
      · exact onlyN_next (State.ksMismatch_only hm.sub (State.updPlumb_only hm.sub (by assumption)))

theorem execSelftestSlice_only {s0 : State} {a0} (hm : Within [.regs, .plumb] m) :
    OnlyInN m (State.to s0 a0) (execSelftestSlice a0 s0) := by
  unfold execSelftestSlice
  extract_lets -merge -underBinder +onlyGivenNames x1
  have hx1 : OnlyIn m (State.to s0 a0) x1 := by
    subst x1
    exact OnlyIn.refl _ _
  clear_value x1
  refine guardNext_only ?_ (fun _ _ => ?_)
  · assumption
  · extract_lets -merge -underBinder +onlyGivenNames x2
    have hx2 : OnlyIn m (State.to s0 a0) x2 := by
      subst x2
      exact State.updPlumb_only hm.sub (by assumption)
    clear_value x2
    split
    · assumption
    · extract_lets -merge -underBinder +onlyGivenNames x3
      have hx3 : OnlyIn m (State.to s0 a0) x3 := by
        subst x3
        exact State.updPlumb_only hm.sub (by assumption)
      clear_value x3
      refine only_ite ?_ ?_
      · exact State.updPlumb_only hm.sub (by assumption)
      · exact State.bump_only hm.sub (by assumption)

theorem State.lockoutFor_only {s0 s1 : State} {a1} (hm : Within [.regs, .tn, .plumb, .sdio] m) (hs1 : OnlyIn m s0 s1) :
    OnlyIn m s0 (State.lockoutFor s1 a1) := by
  unfold State.lockoutFor
  extract_lets -merge -underBinder +onlyGivenNames x1
  have hx1 : OnlyIn m s0 x1 := by
    subst x1
    refine only_ite ?_ ?_
    · exact State.raise_only hm.sub (by assumption)
    · assumption
  clear_value x1
  exact State.updPlumb_only hm.sub (by assumption)

theorem State.sliceFailed_only {s0 s1 : State} {a1 a2}
    (hm : Within [.regs, .mem, .tn, .die, .stream, .kv, .mt, .bond, .line, .plumb, .power, .test, .sdio] m) (hs1 : OnlyIn m s0 s1) :
    OnlyIn m s0 (State.sliceFailed s1 a1 a2) := by
  unfold State.sliceFailed
  extract_lets -merge -underBinder +onlyGivenNames x1
  have hx1 : OnlyIn m s0 x1 := by
    subst x1
    exact State.setFld_only hm.sub (State.setFld_only hm.sub (by assumption))
  clear_value x1
  refine only_ite ?_ ?_
  · exact State.coreFail_only hm.sub (by assumption)
  · refine only_ite ?_ ?_
    · exact State.dieFail_only hm.sub (by assumption)
    · refine only_ite ?_ ?_
      · exact State.safeTrigger_only hm.sub (State.raise_only hm.sub (by assumption))
      · exact State.lockoutFor_only hm.sub (State.safeTrigger_only hm.sub (by assumption))

theorem execSelftestDone_only {s0 : State} {a0 a1}
    (hm : Within [.regs, .mem, .tn, .die, .stream, .kv, .mt, .bond, .line, .plumb, .power, .test, .sdio] m) :
    OnlyInN m (State.to s0 a0) (execSelftestDone a0 a1 s0) := by
  unfold execSelftestDone
  extract_lets -merge -underBinder +onlyGivenNames x1
  have hx1 : OnlyIn m (State.to s0 a0) x1 := by
    subst x1
    exact OnlyIn.refl _ _
  clear_value x1
  split
  · exact onlyN_next (by assumption)
  · extract_lets -merge -underBinder +onlyGivenNames x2 x3
    clear_value x2
    have hx3 : OnlyIn m (State.to s0 a0) x3 := by
      subst x3
      exact State.updPlumb_only hm.sub (by assumption)
    clear_value x3
    extract_lets -merge -underBinder +onlyGivenNames x4
    have hx4 : OnlyIn m (State.to s0 a0) x4 := by
      subst x4
      refine only_ite ?_ ?_
      · exact State.updCore_only hm.sub (by assumption)
      · assumption
    clear_value x4
    refine onlyN_ite ?_ ?_
    · exact onlyN_next (State.updPlumb_only hm.sub (by assumption))
    · exact onlyN_next (State.sliceFailed_only hm.sub (by assumption))

theorem execLatentFault_only {s0 : State} {a0 a1} (hm : Within [.regs, .tn, .plumb, .sdio] m) :
    OnlyInN m (State.to s0 a0) (execLatentFault a0 a1 s0) := by
  unfold execLatentFault
  extract_lets -merge -underBinder +onlyGivenNames x1
  have hx1 : OnlyIn m (State.to s0 a0) x1 := by
    subst x1
    exact OnlyIn.refl _ _
  clear_value x1
  extract_lets -merge -underBinder +onlyGivenNames x2
  have hx2 : OnlyIn m (State.to s0 a0) x2 := by
    subst x2
    exact State.updPlumb_only hm.sub (by assumption)
  clear_value x2
  refine guardNext_only ?_ (fun _ _ => ?_)
  · assumption
  · exact State.raise_only hm.sub (State.updPlumb_only hm.sub (by assumption))

theorem execSafeReqPin_only {s0 : State} {a0 a1}
    (hm : Within [.regs, .mem, .tn, .die, .stream, .kv, .mt, .bond, .line, .plumb, .test, .sdio] m) :
    OnlyInN m (State.to s0 a0) (execSafeReqPin a0 a1 s0) := by
  unfold execSafeReqPin
  extract_lets -merge -underBinder +onlyGivenNames x1
  have hx1 : OnlyIn m (State.to s0 a0) x1 := by
    subst x1
    exact OnlyIn.refl _ _
  clear_value x1
  refine onlyN_ite ?_ ?_
  · refine guardNext_only ?_ (fun _ _ => ?_)
    · assumption
    · exact State.safeTrigger_only hm.sub (State.updPlumb_only hm.sub (by assumption))
  · exact onlyN_next (State.updPlumb_only hm.sub (by assumption))

theorem State.lineResume_only {s0 s1 : State}
    (hm : Within [.regs, .mem, .tn, .die, .stream, .kv, .mt, .bond, .line, .plumb, .test, .sdio] m) (hs1 : OnlyIn m s0 s1) :
    OnlyIn m s0 (State.lineResume s1) := by
  unfold State.lineResume
  extract_lets -merge -underBinder +onlyGivenNames x1 x2
  clear_value x1
  have hx2 : OnlyIn m s0 x2 := by
    subst x2
    exact State.updPlumb_only hm.sub (by assumption)
  clear_value x2
  extract_lets -merge -underBinder +onlyGivenNames x3
  have hx3 : OnlyIn m s0 x3 := by
    subst x3
    refine State.each_only ?_ (fun _ _ _ => ?_)
    · assumption
    · exact State.updAx_only hm.sub (by assumption)
  clear_value x3
  extract_lets -merge -underBinder +onlyGivenNames x4
  have hx4 : OnlyIn m s0 x4 := by
    subst x4
    exact State.restartReqs_only hm.sub (by assumption)
  clear_value x4
  extract_lets -merge -underBinder +onlyGivenNames x5
  have hx5 : OnlyIn m s0 x5 := by
    subst x5
    refine State.each_only ?_ (fun _ _ _ => ?_)
    · assumption
    · exact State.qpEnable_only hm.sub (by assumption)
  clear_value x5
  exact State.carCheck_only hm.sub (by assumption)

theorem execBaseTick_only {s0 : State} {a0 a1 a2}
    (hm : Within [.regs, .mem, .tn, .die, .stream, .kv, .mt, .bond, .line, .plumb, .test, .sdio] m) :
    OnlyInN m (State.to s0 a0) (execBaseTick a0 a1 a2 s0) := by
  unfold execBaseTick
  extract_lets -merge -underBinder +onlyGivenNames x1
  have hx1 : OnlyIn m (State.to s0 a0) x1 := by
    subst x1
    exact OnlyIn.refl _ _
  clear_value x1
  extract_lets -merge -underBinder +onlyGivenNames x2
  have hx2 : OnlyIn m (State.to s0 a0) x2 := by
    subst x2
    split
    · refine only_ite ?_ ?_
      · exact State.lineResume_only hm.sub (by assumption)
      · assumption
    · assumption
  clear_value x2
  refine guardNext_only ?_ (fun _ _ => ?_)
  · assumption
  · exact State.qpDrain_only hm.sub (State.baseTick_only hm.sub (State.ruleFinish_only hm.sub (by assumption)))

theorem State.restartFail_only {s0 s1 : State} (hm : Within [.regs, .tn, .line, .plumb, .sdio] m) (hs1 : OnlyIn m s0 s1) :
    OnlyIn m s0 (State.restartFail s1) := by
  unfold State.restartFail
  extract_lets -merge -underBinder +onlyGivenNames x1
  have hx1 : OnlyIn m s0 x1 := by
    subst x1
    exact State.lineReset_only hm.sub (State.updPlumb_only hm.sub (by assumption))
  clear_value x1
  exact State.lockoutFor_only hm.sub (State.raise_only hm.sub (by assumption))

theorem State.restartEnd_only {s0 s1 : State} {a1}
    (hm : Within [.regs, .mem, .tn, .die, .stream, .kv, .mt, .bond, .line, .plumb, .power, .test, .sdio] m) (hs1 : OnlyIn m s0 s1) :
    OnlyIn m s0 (State.restartEnd s1 a1) := by
  unfold State.restartEnd
  extract_lets -merge -underBinder +onlyGivenNames x1
  have hx1 : OnlyIn m s0 x1 := by
    subst x1
    refine only_ite ?_ ?_
    · assumption
    · exact State.lineResume_only hm.sub (by assumption)
  clear_value x1
  extract_lets -merge -underBinder +onlyGivenNames x2
  have hx2 : OnlyIn m s0 x2 := by
    subst x2
    refine State.each_only ?_ (fun _ _ _ => ?_)
    · assumption
    · refine only_ite ?_ ?_
      · exact State.dieFail_only hm.sub (by assumption)
      · exact State.retireIdle_only hm.sub (State.updDie_only hm.sub (by assumption))
  clear_value x2
  extract_lets -merge -underBinder +onlyGivenNames x3 x4
  clear_value x3
  have hx4 : OnlyIn m s0 x4 := by
    subst x4
    refine only_ite ?_ ?_
    · refine State.each_only ?_ (fun _ _ _ => ?_)
      · assumption
      · exact State.ksPassed_only hm.sub (by assumption)
    · assumption
  clear_value x4
  extract_lets -merge -underBinder +onlyGivenNames x5
  have hx5 : OnlyIn m s0 x5 := by
    subst x5
    exact State.raise_only hm.sub (State.regSet_only hm.sub (by assumption))
  clear_value x5
  extract_lets -merge -underBinder +onlyGivenNames x6
  have hx6 : OnlyIn m s0 x6 := by
    subst x6
    exact State.updPlumb_only hm.sub (by assumption)
  clear_value x6
  refine only_ite ?_ ?_
  · exact State.releaseTargets_only hm.sub (by assumption)
  · assumption

theorem execRestartDone_only {s0 : State} {a0}
    (hm : Within [.regs, .mem, .tn, .die, .stream, .kv, .mt, .bond, .line, .plumb, .power, .test, .sdio] m) :
    OnlyInN m (State.to s0 a0) (execRestartDone a0 s0) := by
  unfold execRestartDone
  extract_lets -merge -underBinder +onlyGivenNames x1
  have hx1 : OnlyIn m (State.to s0 a0) x1 := by
    subst x1
    exact OnlyIn.refl _ _
  clear_value x1
  split
  · exact onlyN_next (by assumption)
  · refine onlyN_ite ?_ ?_
    · exact onlyN_next (State.restartEnd_only hm.sub (by assumption))
    · exact onlyN_next (State.restartFail_only hm.sub (by assumption))

theorem execRestartFailed_only {s0 : State} {a0} (hm : Within [.regs, .tn, .line, .plumb, .sdio] m) :
    OnlyInN m (State.to s0 a0) (execRestartFailed a0 s0) := by
  unfold execRestartFailed
  extract_lets -merge -underBinder +onlyGivenNames x1
  have hx1 : OnlyIn m (State.to s0 a0) x1 := by
    subst x1
    exact OnlyIn.refl _ _
  clear_value x1
  refine guardNext_only ?_ (fun _ _ => ?_)
  · assumption
  · exact State.restartFail_only hm.sub (by assumption)

theorem execDiePairRestartDone_only {s0 : State} {a0 a1}
    (hm : Within [.regs, .mem, .tn, .die, .stream, .kv, .mt, .bond, .line, .plumb, .power, .test, .sdio] m) :
    OnlyInN m (State.to s0 a0) (execDiePairRestartDone a0 a1 s0) := by
  unfold execDiePairRestartDone
  extract_lets -merge -underBinder +onlyGivenNames x1
  have hx1 : OnlyIn m (State.to s0 a0) x1 := by
    subst x1
    exact OnlyIn.refl _ _
  clear_value x1
  refine guardNext_only ?_ (fun _ _ => ?_)
  · assumption
  · refine only_ite ?_ ?_
    · exact State.dieFail_only hm.sub (by assumption)
    · exact State.retireIdle_only hm.sub (State.updDie_only hm.sub (by assumption))

theorem execRecoverDone_only {s0 : State} {a0 a1} (hm : Within [.plumb] m) :
    OnlyInN m (State.to s0 a0) (execRecoverDone a0 a1 s0) := by
  unfold execRecoverDone
  extract_lets -merge -underBinder +onlyGivenNames x1
  have hx1 : OnlyIn m (State.to s0 a0) x1 := by
    subst x1
    exact OnlyIn.refl _ _
  clear_value x1
  refine guardNext_only ?_ (fun _ _ => ?_)
  · assumption
  · exact State.updPlumb_only hm.sub (by assumption)

end Sys2Proof.Machine
end

