-- ==== Sys2Proof/Laws/OnlyPower.lean ====
section
/-! SUPPORT. What the operations of Machine/Power.lean may change (Laws/Only.lean). -/
namespace Sys2Proof.Machine
set_option Elab.async false

variable {m : List Block}

theorem State.regrant_only {s0 s1 : State} (hm : Within [.bond, .power] m) (hs1 : OnlyIn m s0 s1) :
    OnlyIn m s0 (State.regrant s1) := by
  unfold State.regrant
  extract_lets -merge -underBinder +onlyGivenNames x1 x2 x3
  clear_value x1 x2
  have hx3 : OnlyIn m s0 x3 := by
    subst x3
    exact State.updPower_only hm.sub (by assumption)
  clear_value x3
  refine only_ite ?_ ?_
  · exact State.readmit_only hm.sub (by assumption)
  · assumption

theorem State.recalibrate_only {s0 s1 : State} (hm : Within [.bond, .power] m) (hs1 : OnlyIn m s0 s1) :
    OnlyIn m s0 (State.recalibrate s1) := by
  unfold State.recalibrate
  extract_lets -merge -underBinder +onlyGivenNames x1 x2 x3 x4
  clear_value x1 x2 x3 x4
  refine only_ite ?_ ?_
  · assumption
  · extract_lets -merge -underBinder +onlyGivenNames x5 x6 x7
    clear_value x5 x6 x7
    exact State.regrant_only hm.sub (State.updPower_only hm.sub (by assumption))

theorem execDomainFault_only {s0 : State} {a0 a1}
    (hm : Within [.regs, .mem, .cyc, .cycAt, .tn, .die, .stream, .kv, .mt, .bond, .plumb, .power, .mgmt, .sdio] m) :
    OnlyInN m (State.to s0 a0) (execDomainFault a0 a1 s0) := by
  unfold execDomainFault
  extract_lets -merge -underBinder +onlyGivenNames x1
  have hx1 : OnlyIn m (State.to s0 a0) x1 := by
    subst x1
    exact OnlyIn.refl _ _
  clear_value x1
  refine guardNext_only ?_ (fun _ _ => ?_)
  · assumption
  · extract_lets -merge -underBinder +onlyGivenNames x2
    have hx2 : OnlyIn m (State.to s0 a0) x2 := by
      subst x2
      exact State.settleCycles_only hm.sub (by assumption)
    clear_value x2
    extract_lets -merge -underBinder +onlyGivenNames x3
    have hx3 : OnlyIn m (State.to s0 a0) x3 := by
      subst x3
      exact State.raise_only hm.sub (State.updPower_only hm.sub (by assumption))
    clear_value x3
    refine only_ite ?_ ?_
    · exact State.dieFail_only hm.sub (by assumption)
    · exact State.fallbackAll_only hm.sub (State.updPlumb_only hm.sub (State.updMgmt_only hm.sub (by assumption)))

theorem State.chargeDie_only {s0 s1 : State} {a1 a2} (hm : Within [.bond] m) (hs1 : OnlyIn m s0 s1) :
    OnlyIn m s0 (State.chargeDie s1 a1 a2) := by
  unfold State.chargeDie
  extract_lets -merge -underBinder +onlyGivenNames x1 x2 x3 x4
  clear_value x1 x2 x3 x4
  refine State.each_only ?_ (fun _ _ _ => ?_)
  · assumption
  · exact State.updAccount_only hm.sub (by assumption)

theorem execEnergyMeter_only {s0 : State} {a0 a1} (hm : Within [.regs, .tn, .bond, .power, .sdio] m) :
    OnlyInN m (State.to s0 a0) (execEnergyMeter a0 a1 s0) := by
  unfold execEnergyMeter
  extract_lets -merge -underBinder +onlyGivenNames x1
  have hx1 : OnlyIn m (State.to s0 a0) x1 := by
    subst x1
    exact OnlyIn.refl _ _
  clear_value x1
  extract_lets -merge -underBinder +onlyGivenNames x2 x3 x4 x5
  clear_value x2 x3 x4
  have hx5 : OnlyIn m (State.to s0 a0) x5 := by
    subst x5
    refine State.each_only ?_ (fun _ _ _ => ?_)
    · assumption
    · exact State.chargeDie_only hm.sub (by assumption)
  clear_value x5
  extract_lets -merge -underBinder +onlyGivenNames x6 x7
  clear_value x6
  have hx7 : OnlyIn m (State.to s0 a0) x7 := by
    subst x7
    exact State.updAccount_only hm.sub (by assumption)
  clear_value x7
  extract_lets -merge -underBinder +onlyGivenNames x8 x9 x10 x11 x12 x13 x14 x15
  clear_value x8 x9 x10 x11 x12 x13 x14
  have hx15 : OnlyIn m (State.to s0 a0) x15 := by
    subst x15
    exact State.updPower_only hm.sub (by assumption)
  clear_value x15
  extract_lets -merge -underBinder +onlyGivenNames x16 x17 x18
  clear_value x16 x17
  have hx18 : OnlyIn m (State.to s0 a0) x18 := by
    subst x18
    exact State.updPower_only hm.sub (by assumption)
  clear_value x18
  refine onlyN_next ?_
  refine only_ite ?_ ?_
  · exact State.recalibrate_only hm.sub (State.raise_only hm.sub (by assumption))
  · assumption

theorem State.trip_only {s0 s1 : State}
    (hm : Within [.regs, .mem, .tn, .die, .stream, .kv, .mt, .bond, .plumb, .power, .mgmt, .sdio] m) (hs1 : OnlyIn m s0 s1) :
    OnlyIn m s0 (State.trip s1) := by
  unfold State.trip
  extract_lets -merge -underBinder +onlyGivenNames x1
  have hx1 : OnlyIn m s0 x1 := by
    subst x1
    exact State.raise_only hm.sub (State.updPower_only hm.sub (by assumption))
  clear_value x1
  extract_lets -merge -underBinder +onlyGivenNames x2
  have hx2 : OnlyIn m s0 x2 := by
    subst x2
    exact State.fallbackAll_only hm.sub (State.updPlumb_only hm.sub (by assumption))
  clear_value x2
  extract_lets -merge -underBinder +onlyGivenNames x3
  have hx3 : OnlyIn m s0 x3 := by
    subst x3
    refine State.each_only ?_ (fun _ _ _ => ?_)
    · assumption
    · extract_lets -merge -underBinder +onlyGivenNames x4
      have hx4 : OnlyIn m s0 x4 := by
        subst x4
        exact State.loseGraphs_only hm.sub (State.loseTasks_only hm.sub (by assumption))
      clear_value x4
      exact State.updDie_only hm.sub (by assumption)
  clear_value x3
  extract_lets -merge -underBinder +onlyGivenNames x5
  have hx5 : OnlyIn m s0 x5 := by
    subst x5
    exact State.updBond_only hm.sub (by assumption)
  clear_value x5
  extract_lets -merge -underBinder +onlyGivenNames x6
  have hx6 : OnlyIn m s0 x6 := by
    subst x6
    split
    · exact State.reply_only hm.sub (State.updSdio_only hm.sub (by assumption))
    · assumption
  clear_value x6
  exact State.updMgmt_only hm.sub (by assumption)

theorem execTempSample_only {s0 : State} {a0 a1}
    (hm : Within [.regs, .mem, .tn, .die, .stream, .kv, .mt, .bond, .plumb, .power, .mgmt, .sdio] m) :
    OnlyInN m (State.to s0 a0) (execTempSample a0 a1 s0) := by
  unfold execTempSample
  extract_lets -merge -underBinder +onlyGivenNames x1
  have hx1 : OnlyIn m (State.to s0 a0) x1 := by
    subst x1
    exact OnlyIn.refl _ _
  clear_value x1
  extract_lets -merge -underBinder +onlyGivenNames x2
  have hx2 : OnlyIn m (State.to s0 a0) x2 := by
    subst x2
    exact State.updPower_only hm.sub (by assumption)
  clear_value x2
  extract_lets -merge -underBinder +onlyGivenNames x3 x4 x5 x6 x7 x8
  clear_value x3 x4 x5 x6 x7
  have hx8 : OnlyIn m (State.to s0 a0) x8 := by
    subst x8
    exact State.updPower_only hm.sub (by assumption)
  clear_value x8
  extract_lets -merge -underBinder +onlyGivenNames x9
  have hx9 : OnlyIn m (State.to s0 a0) x9 := by
    subst x9
    refine only_ite ?_ ?_
    · exact State.raise_only hm.sub (by assumption)
    · assumption
  clear_value x9
  extract_lets -merge -underBinder +onlyGivenNames x10 x11
  clear_value x10
  have hx11 : OnlyIn m (State.to s0 a0) x11 := by
    subst x11
    refine only_ite ?_ ?_
    · exact State.raise_only hm.sub (State.updPower_only hm.sub (by assumption))
    · assumption
  clear_value x11
  refine onlyN_ite ?_ ?_
  · exact onlyN_next (State.trip_only hm.sub (by assumption))
  · exact onlyN_next (by assumption)

theorem State.setDerate_only {s0 s1 : State} {a1}
    (hm : Within [.regs, .tn, .bond, .power, .sdio] m) (hs1 : OnlyIn m s0 s1) :
    OnlyIn m s0 (State.setDerate s1 a1) := by
  unfold State.setDerate
  refine only_ite ?_ ?_
  · assumption
  · exact State.regrant_only hm.sub (State.raise_only hm.sub (State.updPower_only hm.sub (by assumption)))

theorem execDerateStep_only {s0 : State} {a0} (hm : Within [.regs, .tn, .bond, .power, .sdio] m) :
    OnlyInN m (State.to s0 a0) (execDerateStep a0 s0) := by
  unfold execDerateStep
  extract_lets -merge -underBinder +onlyGivenNames x1
  have hx1 : OnlyIn m (State.to s0 a0) x1 := by
    subst x1
    exact OnlyIn.refl _ _
  clear_value x1
  extract_lets -merge -underBinder +onlyGivenNames x2 x3
  clear_value x2 x3
  split
  · refine guardNext_only ?_ (fun _ _ => ?_)
    · assumption
    · exact State.setDerate_only hm.sub (State.updPower_only hm.sub (by assumption))
  · refine guardNext_only ?_ (fun _ _ => ?_)
    · assumption
    · exact State.setDerate_only hm.sub (State.updPower_only hm.sub (by assumption))
  · exact onlyN_next (by assumption)

end Sys2Proof.Machine
end

