-- ==== Sys2Proof/Laws/OnlyTimeNet.lean ====
section
/-! SUPPORT. What the operations of Machine/TimeNet.lean may change (Laws/Only.lean). -/
namespace Sys2Proof.Machine
set_option Elab.async false

variable {m : List Block}

theorem State.tpoStepped_only {s0 s1 : State} {a1 a2} (hm : Within [.regs, .tn, .sdio] m) (hs1 : OnlyIn m s0 s1) :
    OnlyIn m s0 (State.tpoStepped s1 a1 a2) := by
  unfold State.tpoStepped
  extract_lets -merge -underBinder +onlyGivenNames x1
  clear_value x1
  refine State.each_only ?_ (fun _ _ _ => ?_)
  · assumption
  · extract_lets -merge -underBinder +onlyGivenNames x2 x3
    clear_value x2 x3
    split
    · assumption
    · refine only_ite ?_ ?_
      · assumption
      · extract_lets -merge -underBinder +onlyGivenNames x4
        clear_value x4
        refine only_ite ?_ ?_
        · extract_lets -merge -underBinder +onlyGivenNames x5 x6
          clear_value x5
          have hx6 : OnlyIn m s0 x6 := by
            subst x6
            exact State.updTpo_only hm.sub (by assumption)
          clear_value x6
          refine only_ite ?_ ?_
          · assumption
          · exact State.raise_only hm.sub (State.bumpLo_only hm.sub (by assumption))
        · refine only_ite ?_ ?_
          · exact State.raise_only hm.sub (State.bumpLo_only hm.sub (State.updTpo_only hm.sub (by assumption)))
          · assumption

theorem execTpoPulse_only {s0 : State} {a0 a1} (hm : Within [.regs, .tn] m) :
    OnlyInN m (State.to s0 a0) (execTpoPulse a0 a1 s0) := by
  unfold execTpoPulse
  extract_lets -merge -underBinder +onlyGivenNames x1
  have hx1 : OnlyIn m (State.to s0 a0) x1 := by
    subst x1
    exact OnlyIn.refl _ _
  clear_value x1
  extract_lets -merge -underBinder +onlyGivenNames x2
  clear_value x2
  split
  · exact onlyN_next (by assumption)
  · refine guardNext_only ?_ (fun _ _ => ?_)
    · assumption
    · extract_lets -merge -underBinder +onlyGivenNames x3 x4
      clear_value x3
      have hx4 : OnlyIn m (State.to s0 a0) x4 := by
        subst x4
        exact State.updTpo_only hm.sub (by assumption)
      clear_value x4
      exact State.setFld_only hm.sub (by assumption)

theorem execTpoPulseEnd_only {s0 : State} {a0 a1} (hm : Within [.tn] m) :
    OnlyInN m (State.to s0 a0) (execTpoPulseEnd a0 a1 s0) := by
  unfold execTpoPulseEnd
  extract_lets -merge -underBinder +onlyGivenNames x1
  have hx1 : OnlyIn m (State.to s0 a0) x1 := by
    subst x1
    exact OnlyIn.refl _ _
  clear_value x1
  refine guardNext_only ?_ (fun _ _ => ?_)
  · assumption
  · exact State.updTpo_only hm.sub (by assumption)

theorem execTimeCapture_only {s0 : State} {a0 a1} (hm : Within [.regs, .tn, .sdio] m) :
    OnlyInN m (State.to s0 a0) (execTimeCapture a0 a1 s0) := by
  unfold execTimeCapture
  extract_lets -merge -underBinder +onlyGivenNames x1
  have hx1 : OnlyIn m (State.to s0 a0) x1 := by
    subst x1
    exact OnlyIn.refl _ _
  clear_value x1
  refine guardNext_only ?_ (fun _ _ => ?_)
  · assumption
  · extract_lets -merge -underBinder +onlyGivenNames x2
    clear_value x2
    refine only_ite ?_ ?_
    · exact State.raise_only hm.sub (State.bumpHi_only hm.sub (by assumption))
    · exact State.updTcap_only hm.sub (by assumption)

theorem State.servoIncr_only {s0 s1 : State} {a1} (hm : Within [.regs, .fresh, .tn, .sdio] m) (hs1 : OnlyIn m s0 s1) :
    OnlyIn m s0 (State.servoIncr s1 a1) := by
  unfold State.servoIncr
  split
  · extract_lets -merge -underBinder +onlyGivenNames x1
    have hx1 : OnlyIn m s0 x1 := by
      subst x1
      exact State.updDom_only hm.sub (State.drew_only hm.sub (by assumption))
    clear_value x1
    refine only_ite ?_ ?_
    · exact State.raise_only hm.sub (by assumption)
    · assumption

theorem State.followPrimary_only {s0 s1 : State} (hm : Within [.fresh, .tn] m) (hs1 : OnlyIn m s0 s1) :
    OnlyIn m s0 (State.followPrimary s1) := by
  unfold State.followPrimary
  extract_lets -merge -underBinder +onlyGivenNames x1 x2 x3 x4
  clear_value x1 x2 x3 x4
  split
  · extract_lets -merge -underBinder +onlyGivenNames x5 x6
    clear_value x5
    have hx6 : OnlyIn m s0 x6 := by
      subst x6
      exact State.updTn_only hm.sub (State.drew_only hm.sub (by assumption))
    clear_value x6
    refine only_ite ?_ ?_
    · exact State.updTn_only hm.sub (by assumption)
    · assumption

theorem State.setPrimary_only {s0 s1 : State} {a1} (hm : Within [.fresh, .tn] m) (hs1 : OnlyIn m s0 s1) :
    OnlyIn m s0 (State.setPrimary s1 a1) := by
  unfold State.setPrimary
  refine only_ite ?_ ?_
  · assumption
  · exact State.followPrimary_only hm.sub (State.updTn_only hm.sub (by assumption))

theorem State.sample_only {s0 s1 : State} {a1 a2} (hm : Within [.regs, .fresh, .tn, .sdio] m) (hs1 : OnlyIn m s0 s1) :
    OnlyIn m s0 (State.sample s1 a1 a2) := by
  unfold State.sample
  extract_lets -merge -underBinder +onlyGivenNames x1 x2
  clear_value x1
  have hx2 : OnlyIn m s0 x2 := by
    subst x2
    exact State.regSet_only hm.sub (by assumption)
  clear_value x2
  refine only_ite ?_ ?_
  · extract_lets -merge -underBinder +onlyGivenNames x3
    have hx3 : OnlyIn m s0 x3 := by
      subst x3
      exact State.bumpLo_only hm.sub (by assumption)
    clear_value x3
    extract_lets -merge -underBinder +onlyGivenNames x4
    clear_value x4
    exact State.updDom_only hm.sub (by assumption)
  · extract_lets -merge -underBinder +onlyGivenNames x5 x6
    clear_value x5
    have hx6 : OnlyIn m s0 x6 := by
      subst x6
      exact State.updDom_only hm.sub (by assumption)
    clear_value x6
    extract_lets -merge -underBinder +onlyGivenNames x7 x8
    clear_value x7
    have hx8 : OnlyIn m s0 x8 := by
      subst x8
      refine only_ite ?_ ?_
      · exact State.tpoStepped_only hm.sub (State.updDom_only hm.sub (by assumption))
      · exact State.servoIncr_only hm.sub (by assumption)
    clear_value x8
    extract_lets -merge -underBinder +onlyGivenNames x9
    have hx9 : OnlyIn m s0 x9 := by
      subst x9
      refine only_ite ?_ ?_
      · exact State.raise_only hm.sub (State.updDom_only hm.sub (by assumption))
      · assumption
    clear_value x9
    refine only_ite ?_ ?_
    · exact State.followPrimary_only hm.sub (by assumption)
    · assumption

theorem State.ptpBad_only {s0 s1 : State} {a1} (hm : Within [.regs] m) (hs1 : OnlyIn m s0 s1) :
    OnlyIn m s0 (State.ptpBad s1 a1) := by
  unfold State.ptpBad
  exact State.bumpHi_only hm.sub (by assumption)

theorem State.ptpIn_only {s0 s1 : State} {a1} (hm : Within [.regs] m) (hs1 : OnlyIn m s0 s1) :
    OnlyInL m s0 (State.ptpIn s1 a1) := by
  unfold State.ptpIn
  refine onlyL_ite ?_ ?_
  · exact onlyL_mk (by assumption)
  · extract_lets -merge -underBinder +onlyGivenNames x1
    have hx1 : OnlyIn m s0 x1 := by
      subst x1
      exact State.bump_only hm.sub (by assumption)
    clear_value x1
    split
    · exact onlyL_mk (State.bump_only hm.sub (by assumption))
    · refine onlyL_ite ?_ ?_
      · exact onlyL_mk (State.ptpBad_only hm.sub (by assumption))
      · exact onlyL_mk (by assumption)

theorem State.ptpSend_only {s0 s1 : State} {a1 a2} (hm : Within [.regs, .tn] m) (hs1 : OnlyIn m s0 s1) :
    OnlyIn m s0 (State.ptpSend s1 a1 a2) := by
  unfold State.ptpSend
  refine only_ite ?_ ?_
  · exact State.txFrame_only hm.sub (by assumption)
  · refine only_ite ?_ ?_
    · exact State.updPort_only hm.sub (by assumption)
    · assumption

theorem State.portResume_only {s0 s1 : State} {a1} (hm : Within [.regs, .tn] m) (hs1 : OnlyIn m s0 s1) :
    OnlyIn m s0 (State.portResume s1 a1) := by
  unfold State.portResume
  refine only_ite ?_ ?_
  · assumption
  · extract_lets -merge -underBinder +onlyGivenNames x1
    clear_value x1
    refine State.each_only ?_ (fun _ _ _ => ?_)
    · exact State.updPort_only hm.sub (by assumption)
    · exact State.txFrame_only hm.sub (by assumption)

theorem State.syncDone_only {s0 s1 : State} {a1 a2 a3} (hm : Within [.regs, .fresh, .tn, .sdio] m) (hs1 : OnlyIn m s0 s1) :
    OnlyIn m s0 (State.syncDone s1 a1 a2 a3) := by
  unfold State.syncDone
  extract_lets -merge -underBinder +onlyGivenNames x1
  clear_value x1
  exact State.sample_only hm.sub (State.updDom_only hm.sub (by assumption))

theorem execSync_only {s0 : State} {a0 a1} (hm : Within [.regs, .fresh, .tn, .sdio] m) :
    OnlyInN m (State.to s0 a0) (execSync a0 a1 s0) := by
  unfold execSync
  split
  · refine OnlyInL.of_eq (m := m) (a := (State.to s0 a0)) (by assumption) ?_ (fun _ => ?_)
    · refine State.ptpIn_only hm.sub ?_
      exact OnlyIn.refl _ _
    split
    · exact onlyN_next (by assumption)
    · refine onlyN_ite ?_ ?_
      · exact onlyN_next (State.ptpBad_only hm.sub (by assumption))
      · extract_lets -merge -underBinder +onlyGivenNames x1
        clear_value x1
        refine onlyN_next ?_
        refine only_ite ?_ ?_
        · exact State.updDom_only hm.sub (by assumption)
        · exact State.syncDone_only hm.sub (by assumption)

theorem execFollowUp_only {s0 : State} {a0 a1} (hm : Within [.regs, .fresh, .tn, .sdio] m) :
    OnlyInN m (State.to s0 a0) (execFollowUp a0 a1 s0) := by
  unfold execFollowUp
  split
  · refine OnlyInL.of_eq (m := m) (a := (State.to s0 a0)) (by assumption) ?_ (fun _ => ?_)
    · refine State.ptpIn_only hm.sub ?_
      exact OnlyIn.refl _ _
    split
    · exact onlyN_next (by assumption)
    · split
      · exact onlyN_next (State.ptpBad_only hm.sub (by assumption))
      · extract_lets -merge -underBinder +onlyGivenNames x1
        have hx1 : OnlyIn m (State.to s0 a0) x1 := by
          subst x1
          exact State.updDom_only hm.sub (by assumption)
        clear_value x1
        exact onlyN_next (State.syncDone_only hm.sub (by assumption))

theorem execAnnounce_only {s0 : State} {a0 a1} (hm : Within [.regs, .tn] m) :
    OnlyInN m (State.to s0 a0) (execAnnounce a0 a1 s0) := by
  unfold execAnnounce
  split
  · refine OnlyInL.of_eq (m := m) (a := (State.to s0 a0)) (by assumption) ?_ (fun _ => ?_)
    · refine State.ptpIn_only hm.sub ?_
      exact OnlyIn.refl _ _
    split
    · exact onlyN_next (by assumption)
    · split
      · exact onlyN_next (State.updDom_only hm.sub (by assumption))
      · refine onlyN_next ?_
        refine only_ite ?_ ?_
        · exact State.updDom_only hm.sub (by assumption)
        · exact State.ptpBad_only hm.sub (by assumption)

theorem execDelayResp_only {s0 : State} {a0 a1} (hm : Within [.regs, .tn] m) :
    OnlyInN m (State.to s0 a0) (execDelayResp a0 a1 s0) := by
  unfold execDelayResp
  split
  · refine OnlyInL.of_eq (m := m) (a := (State.to s0 a0)) (by assumption) ?_ (fun _ => ?_)
    · refine State.ptpIn_only hm.sub ?_
      exact OnlyIn.refl _ _
    split
    · exact onlyN_next (by assumption)
    · extract_lets -merge -underBinder +onlyGivenNames x1
      clear_value x1
      split
      · refine onlyN_next ?_
        refine only_ite ?_ ?_
        · exact State.updDom_only hm.sub (by assumption)
        · assumption
      · exact onlyN_next (by assumption)

theorem execPdelayReq_only {s0 : State} {a0 a1} (hm : Within [.regs, .tn] m) :
    OnlyInN m (State.to s0 a0) (execPdelayReq a0 a1 s0) := by
  unfold execPdelayReq
  split
  · refine OnlyInL.of_eq (m := m) (a := (State.to s0 a0)) (by assumption) ?_ (fun _ => ?_)
    · refine State.ptpIn_only hm.sub ?_
      exact OnlyIn.refl _ _
    split
    · exact onlyN_next (by assumption)
    · extract_lets -merge -underBinder +onlyGivenNames x1 x2
      clear_value x1
      have hx2 : OnlyIn m (State.to s0 a0) x2 := by
        subst x2
        exact State.ptpSend_only hm.sub (by assumption)
      clear_value x2
      refine onlyN_next ?_
      refine only_ite ?_ ?_
      · assumption
      · exact State.ptpSend_only hm.sub (by assumption)

theorem execPdelayResp_only {s0 : State} {a0 a1} (hm : Within [.regs, .tn] m) :
    OnlyInN m (State.to s0 a0) (execPdelayResp a0 a1 s0) := by
  unfold execPdelayResp
  split
  · refine OnlyInL.of_eq (m := m) (a := (State.to s0 a0)) (by assumption) ?_ (fun _ => ?_)
    · refine State.ptpIn_only hm.sub ?_
      exact OnlyIn.refl _ _
    split
    · exact onlyN_next (by assumption)
    · extract_lets -merge -underBinder +onlyGivenNames x1 x2
      clear_value x1 x2
      split
      · refine onlyN_next ?_
        refine only_ite ?_ ?_
        · assumption
        · refine only_ite ?_ ?_
          · exact State.updDom_only hm.sub (by assumption)
          · exact State.updDom_only hm.sub (by assumption)
      · exact onlyN_next (by assumption)

theorem execPdelayRespFollowUp_only {s0 : State} {a0 a1} (hm : Within [.regs, .tn] m) :
    OnlyInN m (State.to s0 a0) (execPdelayRespFollowUp a0 a1 s0) := by
  unfold execPdelayRespFollowUp
  split
  · refine OnlyInL.of_eq (m := m) (a := (State.to s0 a0)) (by assumption) ?_ (fun _ => ?_)
    · refine State.ptpIn_only hm.sub ?_
      exact OnlyIn.refl _ _
    split
    · exact onlyN_next (by assumption)
    · split
      · exact onlyN_next (State.updDom_only hm.sub (by assumption))
      · exact onlyN_next (State.ptpBad_only hm.sub (by assumption))

theorem execDomainHoldover_only {s0 : State} {a0 a1} (hm : Within [.regs, .fresh, .tn, .sdio] m) :
    OnlyInN m (State.to s0 a0) (execDomainHoldover a0 a1 s0) := by
  unfold execDomainHoldover
  extract_lets -merge -underBinder +onlyGivenNames x1
  have hx1 : OnlyIn m (State.to s0 a0) x1 := by
    subst x1
    exact OnlyIn.refl _ _
  clear_value x1
  extract_lets -merge -underBinder +onlyGivenNames x2
  clear_value x2
  refine guardNext_only ?_ (fun _ _ => ?_)
  · assumption
  · extract_lets -merge -underBinder +onlyGivenNames x3
    have hx3 : OnlyIn m (State.to s0 a0) x3 := by
      subst x3
      exact State.raise_only hm.sub (State.updDom_only hm.sub (by assumption))
    clear_value x3
    refine only_ite ?_ ?_
    · exact State.raise_only hm.sub (State.setPrimary_only hm.sub (by assumption))
    · assumption

theorem execDelayReq_only {s0 : State} {a0 a1} (hm : Within [.regs, .tn] m) :
    OnlyInN m (State.to s0 a0) (execDelayReq a0 a1 s0) := by
  unfold execDelayReq
  extract_lets -merge -underBinder +onlyGivenNames x1
  have hx1 : OnlyIn m (State.to s0 a0) x1 := by
    subst x1
    exact OnlyIn.refl _ _
  clear_value x1
  split
  · exact onlyN_next (by assumption)
  · refine guardNext_only ?_ (fun _ _ => ?_)
    · assumption
    · extract_lets -merge -underBinder +onlyGivenNames x2 x3
      clear_value x2 x3
      exact State.txFrame_only hm.sub (State.updDom_only hm.sub (by assumption))

theorem execAnnounceInterval_only {s0 : State} {a0 a1} (hm : Within [.regs, .tn] m) :
    OnlyInN m (State.to s0 a0) (execAnnounceInterval a0 a1 s0) := by
  unfold execAnnounceInterval
  extract_lets -merge -underBinder +onlyGivenNames x1
  have hx1 : OnlyIn m (State.to s0 a0) x1 := by
    subst x1
    exact OnlyIn.refl _ _
  clear_value x1
  split
  · refine onlyN_next ?_
    refine State.each_only ?_ (fun _ _ _ => ?_)
    · assumption
    · extract_lets -merge -underBinder +onlyGivenNames x2
      clear_value x2
      exact State.ptpSend_only hm.sub (State.ptpSend_only hm.sub (by assumption))
  · exact onlyN_next (by assumption)

theorem State.linkSet_only {s0 s1 : State} {a1 a2} (hm : Within [.regs, .tn, .sdio] m) (hs1 : OnlyIn m s0 s1) :
    OnlyIn m s0 (State.linkSet s1 a1 a2) := by
  unfold State.linkSet
  refine only_ite ?_ ?_
  · assumption
  · exact State.raise_only hm.sub (State.updPort_only hm.sub (by assumption))

theorem execLinkChange_only {s0 : State} {a0 a1 a2} (hm : Within [.regs, .tn, .sdio] m) :
    OnlyInN m (State.to s0 a0) (execLinkChange a0 a1 a2 s0) := by
  unfold execLinkChange
  extract_lets -merge -underBinder +onlyGivenNames x1
  have hx1 : OnlyIn m (State.to s0 a0) x1 := by
    subst x1
    exact OnlyIn.refl _ _
  clear_value x1
  refine guardNext_only ?_ (fun _ _ => ?_)
  · assumption
  · exact State.linkSet_only hm.sub (by assumption)

theorem execArpRequest_only {s0 : State} {a0 a1 a2 a3} (hm : Within [.regs, .tn] m) :
    OnlyInN m (State.to s0 a0) (execArpRequest a0 a1 a2 a3 s0) := by
  unfold execArpRequest
  extract_lets -merge -underBinder +onlyGivenNames x1
  have hx1 : OnlyIn m (State.to s0 a0) x1 := by
    subst x1
    exact OnlyIn.refl _ _
  clear_value x1
  refine guardNext_only ?_ (fun _ _ => ?_)
  · assumption
  · extract_lets -merge -underBinder +onlyGivenNames x2
    have hx2 : OnlyIn m (State.to s0 a0) x2 := by
      subst x2
      exact State.bump_only hm.sub (by assumption)
    clear_value x2
    refine only_ite ?_ ?_
    · exact State.txFrame_only hm.sub (by assumption)
    · assumption

theorem execArpReply_only {s0 : State} {a0 a1 a2 a3} (hm : Within [.regs, .tn] m) :
    OnlyInN m (State.to s0 a0) (execArpReply a0 a1 a2 a3 s0) := by
  unfold execArpReply
  extract_lets -merge -underBinder +onlyGivenNames x1
  have hx1 : OnlyIn m (State.to s0 a0) x1 := by
    subst x1
    exact OnlyIn.refl _ _
  clear_value x1
  refine guardNext_only ?_ (fun _ _ => ?_)
  · assumption
  · exact State.updPort_only hm.sub (State.bump_only hm.sub (by assumption))

theorem execIcmpEcho_only {s0 : State} {a0 a1 a2 a3} (hm : Within [.regs, .tn] m) :
    OnlyInN m (State.to s0 a0) (execIcmpEcho a0 a1 a2 a3 s0) := by
  unfold execIcmpEcho
  extract_lets -merge -underBinder +onlyGivenNames x1
  have hx1 : OnlyIn m (State.to s0 a0) x1 := by
    subst x1
    exact OnlyIn.refl _ _
  clear_value x1
  refine guardNext_only ?_ (fun _ _ => ?_)
  · assumption
  · extract_lets -merge -underBinder +onlyGivenNames x2
    have hx2 : OnlyIn m (State.to s0 a0) x2 := by
      subst x2
      exact State.bump_only hm.sub (by assumption)
    clear_value x2
    refine only_ite ?_ ?_
    · exact State.bump_only hm.sub (by assumption)
    · extract_lets -merge -underBinder +onlyGivenNames x3
      clear_value x3
      split
      · refine only_ite ?_ ?_
        · assumption
        · exact State.txFrame_only hm.sub (State.updPort_only hm.sub (by assumption))

theorem execPauseFrame_only {s0 : State} {a0 a1 a2} (hm : Within [.regs, .tn] m) :
    OnlyInN m (State.to s0 a0) (execPauseFrame a0 a1 a2 s0) := by
  unfold execPauseFrame
  extract_lets -merge -underBinder +onlyGivenNames x1
  have hx1 : OnlyIn m (State.to s0 a0) x1 := by
    subst x1
    exact OnlyIn.refl _ _
  clear_value x1
  refine guardNext_only ?_ (fun _ _ => ?_)
  · assumption
  · extract_lets -merge -underBinder +onlyGivenNames x2
    have hx2 : OnlyIn m (State.to s0 a0) x2 := by
      subst x2
      exact State.bump_only hm.sub (State.bump_only hm.sub (by assumption))
    clear_value x2
    refine only_ite ?_ ?_
    · assumption
    · refine only_ite ?_ ?_
      · exact State.updPort_only hm.sub (by assumption)
      · exact State.portResume_only hm.sub (State.updPort_only hm.sub (by assumption))

theorem execPauseExpired_only {s0 : State} {a0 a1} (hm : Within [.regs, .tn] m) :
    OnlyInN m (State.to s0 a0) (execPauseExpired a0 a1 s0) := by
  unfold execPauseExpired
  refine onlyN_next ?_
  refine State.portResume_only hm.sub ?_
  refine State.updPort_only hm.sub ?_
  exact OnlyIn.refl _ _

theorem execDroppedFrame_only {s0 : State} {a0 a1} (hm : Within [.regs] m) :
    OnlyInN m (State.to s0 a0) (execDroppedFrame a0 a1 s0) := by
  unfold execDroppedFrame
  extract_lets -merge -underBinder +onlyGivenNames x1
  have hx1 : OnlyIn m (State.to s0 a0) x1 := by
    subst x1
    exact OnlyIn.refl _ _
  clear_value x1
  refine guardNext_only ?_ (fun _ _ => ?_)
  · assumption
  · exact State.bump_only hm.sub (State.bump_only hm.sub (by assumption))

theorem execNetStallEnd_only {s0 : State} {a0 a1} (hm : Within [.regs, .tn] m) :
    OnlyInN m (State.to s0 a0) (execNetStallEnd a0 a1 s0) := by
  unfold execNetStallEnd
  refine onlyN_next ?_
  refine State.portResume_only hm.sub ?_
  exact OnlyIn.refl _ _

theorem execArpRetry_only {s0 : State} {a0 a1 a2} (hm : Within [.regs, .tn] m) :
    OnlyInN m (State.to s0 a0) (execArpRetry a0 a1 a2 s0) := by
  unfold execArpRetry
  extract_lets -merge -underBinder +onlyGivenNames x1
  have hx1 : OnlyIn m (State.to s0 a0) x1 := by
    subst x1
    exact OnlyIn.refl _ _
  clear_value x1
  split
  · exact onlyN_next (by assumption)
  · refine guardNext_only ?_ (fun _ _ => ?_)
    · assumption
    · refine only_ite ?_ ?_
      · exact State.updPort_only hm.sub (by assumption)
      · extract_lets -merge -underBinder +onlyGivenNames x2
        have hx2 : OnlyIn m (State.to s0 a0) x2 := by
          subst x2
          exact State.updPort_only hm.sub (by assumption)
        clear_value x2
        refine only_ite ?_ ?_
        · exact State.txFrame_only hm.sub (by assumption)
        · assumption

theorem execArpAgeOut_only {s0 : State} {a0 a1 a2} (hm : Within [.tn] m) :
    OnlyInN m (State.to s0 a0) (execArpAgeOut a0 a1 a2 s0) := by
  unfold execArpAgeOut
  refine onlyN_next ?_
  refine State.updPort_only hm.sub ?_
  exact OnlyIn.refl _ _

theorem State.pollRing_only {s0 s1 : State} {a1} (hm : Within [.regs, .mem, .tn, .mt, .sdio] m) (hs1 : OnlyIn m s0 s1) :
    OnlyIn m s0 (State.pollRing s1 a1) := by
  unfold State.pollRing
  extract_lets -merge -underBinder +onlyGivenNames x1 x2
  clear_value x1 x2
  refine only_ite ?_ ?_
  · assumption
  · extract_lets -merge -underBinder +onlyGivenNames x3 x4 x5 x6
    clear_value x3 x4 x5
    have hx6 : OnlyIn m s0 x6 := by
      subst x6
      exact State.linSt_only hm.sub (by assumption)
    clear_value x6
    refine only_ite ?_ ?_
    · exact State.raise_only hm.sub (State.bump_only hm.sub (by assumption))
    · refine State.each_only ?_ (fun _ _ _ => ?_)
      · assumption
      · extract_lets -merge -underBinder +onlyGivenNames x7
        clear_value x7
        refine only_ite ?_ ?_
        · exact State.emit_only hm.sub (by assumption)
        · exact State.raise_only hm.sub (State.bump_only hm.sub (by assumption))

theorem execResultRingPoll_only {s0 : State} {a0} (hm : Within [.regs, .mem, .tn, .mt, .sdio] m) :
    OnlyInN m (State.to s0 a0) (execResultRingPoll a0 s0) := by
  unfold execResultRingPoll
  refine onlyN_next ?_
  refine State.each_only ?_ (fun _ _ _ => ?_)
  · exact OnlyIn.refl _ _
  · exact State.pollRing_only hm.sub (by assumption)

theorem State.dropBuffer_only {s0 s1 : State} {a1} (hm : Within [.regs, .tn] m) (hs1 : OnlyIn m s0 s1) :
    OnlyIn m s0 (State.dropBuffer s1 a1) := by
  unfold State.dropBuffer
  extract_lets -merge -underBinder +onlyGivenNames x1
  clear_value x1
  refine only_ite ?_ ?_
  · assumption
  · exact State.loseRecs_only hm.sub (State.updDst_only hm.sub (by assumption))

theorem execDatagramFlush_only {s0 : State} {a0 a1} (hm : Within [.regs, .tn, .sdio] m) :
    OnlyInN m (State.to s0 a0) (execDatagramFlush a0 a1 s0) := by
  unfold execDatagramFlush
  extract_lets -merge -underBinder +onlyGivenNames x1
  have hx1 : OnlyIn m (State.to s0 a0) x1 := by
    subst x1
    exact OnlyIn.refl _ _
  clear_value x1
  extract_lets -merge -underBinder +onlyGivenNames x2 x3 x4
  clear_value x2 x3 x4
  refine guardNext_only ?_ (fun _ _ => ?_)
  · assumption
  · refine only_ite ?_ ?_
    · exact State.flushDst_only hm.sub (by assumption)
    · exact State.raiseQuiet_only hm.sub (State.dropBuffer_only hm.sub (by assumption))

theorem execHeartbeat_only {s0 : State} {a0} (hm : Within [.regs, .tn, .sdio] m) :
    OnlyInN m (State.to s0 a0) (execHeartbeat a0 s0) := by
  unfold execHeartbeat
  extract_lets -merge -underBinder +onlyGivenNames x1
  have hx1 : OnlyIn m (State.to s0 a0) x1 := by
    subst x1
    exact OnlyIn.refl _ _
  clear_value x1
  extract_lets -merge -underBinder +onlyGivenNames x2
  clear_value x2
  refine guardNext_only ?_ (fun _ _ => ?_)
  · assumption
  · extract_lets -merge -underBinder +onlyGivenNames x3
    clear_value x3
    exact State.emit_only hm.sub (State.updTn_only hm.sub (by assumption))

end Sys2Proof.Machine
end

