-- ==== Sys2Proof/Laws/OnlyTest.lean ====
section
/-! SUPPORT. What the operations of Machine/Test.lean may change (Laws/Only.lean). -/
namespace Sys2Proof.Machine
set_option Elab.async false

variable {m : List Block}

theorem State.losEnd_only {s0 s1 : State} (hm : Within [.course] m) (hs1 : OnlyIn m s0 s1) :
    OnlyIn m s0 (State.losEnd s1) := by
  unfold State.losEnd
  exact State.updEnc_only hm.sub (by assumption)

theorem State.injCancel_only {s0 s1 : State} {a1} (hm : Within [.regs, .course, .test] m) (hs1 : OnlyIn m s0 s1) :
    OnlyIn m s0 (State.injCancel s1 a1) := by
  unfold State.injCancel
  extract_lets -merge -underBinder +onlyGivenNames x1
  have hx1 : OnlyIn m s0 x1 := by
    subst x1
    refine only_ite ?_ ?_
    · exact State.losEnd_only hm.sub (by assumption)
    · assumption
  clear_value x1
  exact State.updTest_only hm.sub (State.regSet_only hm.sub (by assumption))

theorem State.injExpire_only {s0 s1 : State} {a1}
    (hm : Within [.regs, .course, .tn, .test, .sdio] m) (hs1 : OnlyIn m s0 s1) :
    OnlyIn m s0 (State.injExpire s1 a1) := by
  unfold State.injExpire
  extract_lets -merge -underBinder +onlyGivenNames x1
  have hx1 : OnlyIn m s0 x1 := by
    subst x1
    exact State.injCancel_only hm.sub (by assumption)
  clear_value x1
  exact State.raise_only hm.sub (State.setFld_only hm.sub (by assumption))

theorem State.injCourse_only {s0 s1 : State} (hm : Within [.regs, .course, .tn, .test, .sdio] m) (hs1 : OnlyIn m s0 s1) :
    OnlyIn m s0 (State.injCourse s1) := by
  unfold State.injCourse
  extract_lets -merge -underBinder +onlyGivenNames x1 x2 x3 x4
  clear_value x1 x2 x3 x4
  refine only_ite ?_ ?_
  · refine State.delivered_only hm.sub ?_
    refine only_foldl (fun _ _ _ => ?_) ?_
    · exact State.encError_only hm.sub (by assumption)
    · assumption
  · refine only_ite ?_ ?_
    · extract_lets -merge -underBinder +onlyGivenNames x5
      have hx5 : OnlyIn m s0 x5 := by
        subst x5
        exact State.updInj_only hm.sub (State.updEnc_only hm.sub (by assumption))
      clear_value x5
      refine only_ite ?_ ?_
      · exact State.encFault_only hm.sub (State.bump_only hm.sub (by assumption))
      · assumption
    · refine only_ite ?_ ?_
      · exact State.delivered_only hm.sub (State.losEnd_only hm.sub (by assumption))
      · assumption

theorem execInjectionDelivered_only {s0 : State} {a0 a1} (hm : Within [.regs, .course, .tn, .test, .sdio] m) :
    OnlyInN m (State.to s0 a0) (execInjectionDelivered a0 a1 s0) := by
  unfold execInjectionDelivered
  extract_lets -merge -underBinder +onlyGivenNames x1
  have hx1 : OnlyIn m (State.to s0 a0) x1 := by
    subst x1
    exact OnlyIn.refl _ _
  clear_value x1
  refine guardNext_only ?_ (fun _ _ => ?_)
  · assumption
  · exact State.injCourse_only hm.sub (by assumption)

theorem execInjExpired_only {s0 : State} {a0 a1} (hm : Within [.regs, .course, .tn, .test, .sdio] m) :
    OnlyInN m (State.to s0 a0) (execInjExpired a0 a1 s0) := by
  unfold execInjExpired
  extract_lets -merge -underBinder +onlyGivenNames x1
  have hx1 : OnlyIn m (State.to s0 a0) x1 := by
    subst x1
    exact OnlyIn.refl _ _
  clear_value x1
  extract_lets -merge -underBinder +onlyGivenNames x2
  clear_value x2
  refine guardNext_only ?_ (fun _ _ => ?_)
  · assumption
  · exact State.injExpire_only hm.sub (by assumption)

end Sys2Proof.Machine
end

