-- ==== Sys2Proof/Laws/OnlyStartup.lean ====
section
/-! SUPPORT. What the operations of Machine/Startup.lean may change (Laws/Only.lean). -/
namespace Sys2Proof.Machine
set_option Elab.async false

variable {m : List Block}

theorem execEthclkLoss_only {s0 : State} {a0} (hm : Within [.regs, .tn, .mgmt, .sdio] m) :
    OnlyInN m (State.to s0 a0) (execEthclkLoss a0 s0) := by
  unfold execEthclkLoss
  extract_lets -merge -underBinder +onlyGivenNames x1
  have hx1 : OnlyIn m (State.to s0 a0) x1 := by
    subst x1
    refine State.updMgmt_only hm.sub ?_
    exact OnlyIn.refl _ _
  clear_value x1
  refine onlyN_next ?_
  refine State.each_only ?_ (fun _ _ _ => ?_)
  · assumption
  · exact State.linkSet_only hm.sub (by assumption)

theorem execCxpclkLoss_only {s0 : State} {a0}
    (hm : Within [.regs, .mem, .fresh, .tn, .acq, .die, .stream, .kv, .mt, .bond, .line, .plumb, .power, .test, .mgmt, .sdio] m) :
    OnlyInN m (State.to s0 a0) (execCxpclkLoss a0 s0) := by
  unfold execCxpclkLoss
  extract_lets -merge -underBinder +onlyGivenNames x1
  have hx1 : OnlyIn m (State.to s0 a0) x1 := by
    subst x1
    refine State.updMgmt_only hm.sub ?_
    exact OnlyIn.refl _ _
  clear_value x1
  refine onlyN_next ?_
  refine State.each_only ?_ (fun _ _ _ => ?_)
  · assumption
  · exact State.groupDown_only hm.sub (by assumption)

theorem State.jtag_only {s0 s1 : State} {a1} (hm : Within [.mgmt] m) (hs1 : OnlyIn m s0 s1) :
    OnlyIn m s0 (State.jtag s1 a1) := by
  unfold State.jtag
  exact State.updMgmt_only hm.sub (by assumption)

theorem execBypass_only {s0 : State} {a0} (hm : Within [.mgmt] m) :
    OnlyInN m (State.to s0 a0) (execBypass a0 s0) := by
  unfold execBypass
  refine onlyN_next ?_
  refine State.jtag_only hm.sub ?_
  exact OnlyIn.refl _ _

theorem execIdcode_only {s0 : State} {a0} (hm : Within [.mgmt] m) :
    OnlyInN m (State.to s0 a0) (execIdcode a0 s0) := by
  unfold execIdcode
  refine onlyN_next ?_
  refine State.jtag_only hm.sub ?_
  exact OnlyIn.refl _ _

theorem execSamplePreload_only {s0 : State} {a0} (hm : Within [.mgmt] m) :
    OnlyInN m (State.to s0 a0) (execSamplePreload a0 s0) := by
  unfold execSamplePreload
  refine onlyN_next ?_
  refine State.jtag_only hm.sub ?_
  exact OnlyIn.refl _ _

theorem execExtest_only {s0 : State} {a0} (hm : Within [.mgmt] m) :
    OnlyInN m (State.to s0 a0) (execExtest a0 s0) := by
  unfold execExtest
  refine onlyN_next ?_
  refine State.jtag_only hm.sub ?_
  exact OnlyIn.refl _ _

theorem execExtestPulse_only {s0 : State} {a0} (hm : Within [.mgmt] m) :
    OnlyInN m (State.to s0 a0) (execExtestPulse a0 s0) := by
  unfold execExtestPulse
  refine onlyN_next ?_
  refine State.jtag_only hm.sub ?_
  exact OnlyIn.refl _ _

theorem execExtestTrain_only {s0 : State} {a0} (hm : Within [.mgmt] m) :
    OnlyInN m (State.to s0 a0) (execExtestTrain a0 s0) := by
  unfold execExtestTrain
  refine onlyN_next ?_
  refine State.jtag_only hm.sub ?_
  exact OnlyIn.refl _ _

end Sys2Proof.Machine
end

