-- ==== Sys2Proof/Laws/OnlySdioCore.lean ====
section
/-! SUPPORT. What the operations of Machine/SdioCore.lean may change (Laws/Only.lean). -/
namespace Sys2Proof.Machine
set_option Elab.async false

variable {m : List Block}

theorem execRateLimitEnd_only {s0 : State} {a0 a1} (hm : Within [.regs] m) :
    OnlyInN m (State.to s0 a0) (execRateLimitEnd a0 a1 s0) := by
  unfold execRateLimitEnd
  extract_lets -merge -underBinder +onlyGivenNames x1
  have hx1 : OnlyIn m (State.to s0 a0) x1 := by
    subst x1
    exact OnlyIn.refl _ _
  clear_value x1
  refine guardNext_only ?_ (fun _ _ => ?_)
  · assumption
  · exact State.setFld_only hm.sub (by assumption)

theorem State.outNext_only {s0 s1 : State} (hm : Within [.sdio] m) (hs1 : OnlyIn m s0 s1) :
    OnlyIn m s0 (State.outNext s1) := by
  unfold State.outNext
  split
  · exact State.reply_only hm.sub (State.updSdio_only hm.sub (by assumption))
  · assumption

end Sys2Proof.Machine
end

