-- ==== Sys2Proof/Laws/State.lean ====
section
/-! SUPPORT. What each update of the state leaves in each field: one lemma per field per update. -/
namespace Sys2Proof.Machine
set_option Elab.async false

variable {s : State}

/-! ### updCourse -/
@[simp] theorem State.updCourse_part {g : Course → Course} : (s.updCourse g).part = s.part := rfl
@[simp] theorem State.updCourse_now {g : Course → Course} : (s.updCourse g).now = s.now := rfl
@[simp] theorem State.updCourse_regs {g : Course → Course} : (s.updCourse g).regs = s.regs := rfl
@[simp] theorem State.updCourse_mem {g : Course → Course} : (s.updCourse g).mem = s.mem := rfl
@[simp] theorem State.updCourse_snaps {g : Course → Course} : (s.updCourse g).snaps = s.snaps := rfl
@[simp] theorem State.updCourse_cyc {g : Course → Course} : (s.updCourse g).cyc = s.cyc := rfl
@[simp] theorem State.updCourse_cycAt {g : Course → Course} : (s.updCourse g).cycAt = s.cycAt := rfl
@[simp] theorem State.updCourse_freq {g : Course → Course} : (s.updCourse g).freq = s.freq := rfl
@[simp] theorem State.updCourse_changing {g : Course → Course} : (s.updCourse g).changing = s.changing := rfl
@[simp] theorem State.updCourse_fresh {g : Course → Course} : (s.updCourse g).fresh = s.fresh := rfl
@[simp] theorem State.updCourse_course {g : Course → Course} : (s.updCourse g).course = g s.course := rfl
@[simp] theorem State.updCourse_tn {g : Course → Course} : (s.updCourse g).tn = s.tn := rfl
@[simp] theorem State.updCourse_acq {g : Course → Course} : (s.updCourse g).acq = s.acq := rfl
@[simp] theorem State.updCourse_die {g : Course → Course} : (s.updCourse g).die = s.die := rfl
@[simp] theorem State.updCourse_stream {g : Course → Course} : (s.updCourse g).stream = s.stream := rfl
@[simp] theorem State.updCourse_kv {g : Course → Course} : (s.updCourse g).kv = s.kv := rfl
@[simp] theorem State.updCourse_adapt {g : Course → Course} : (s.updCourse g).adapt = s.adapt := rfl
@[simp] theorem State.updCourse_mt {g : Course → Course} : (s.updCourse g).mt = s.mt := rfl
@[simp] theorem State.updCourse_bond {g : Course → Course} : (s.updCourse g).bond = s.bond := rfl
@[simp] theorem State.updCourse_line {g : Course → Course} : (s.updCourse g).line = s.line := rfl
@[simp] theorem State.updCourse_plumb {g : Course → Course} : (s.updCourse g).plumb = s.plumb := rfl
@[simp] theorem State.updCourse_power {g : Course → Course} : (s.updCourse g).power = s.power := rfl
@[simp] theorem State.updCourse_test {g : Course → Course} : (s.updCourse g).test = s.test := rfl
@[simp] theorem State.updCourse_mgmt {g : Course → Course} : (s.updCourse g).mgmt = s.mgmt := rfl
@[simp] theorem State.updCourse_sdio {g : Course → Course} : (s.updCourse g).sdio = s.sdio := rfl
@[simp] theorem State.updCourse_pending {g : Course → Course} : (s.updCourse g).pending = s.pending := rfl
@[simp] theorem State.updCourse_regGet {g : Course → Course} {a : Nat} : (s.updCourse g).regGet a = s.regGet a := rfl
/-! ### updTn -/
@[simp] theorem State.updTn_part {g : TimeNet → TimeNet} : (s.updTn g).part = s.part := rfl
@[simp] theorem State.updTn_now {g : TimeNet → TimeNet} : (s.updTn g).now = s.now := rfl
@[simp] theorem State.updTn_regs {g : TimeNet → TimeNet} : (s.updTn g).regs = s.regs := rfl
@[simp] theorem State.updTn_mem {g : TimeNet → TimeNet} : (s.updTn g).mem = s.mem := rfl
@[simp] theorem State.updTn_snaps {g : TimeNet → TimeNet} : (s.updTn g).snaps = s.snaps := rfl
@[simp] theorem State.updTn_cyc {g : TimeNet → TimeNet} : (s.updTn g).cyc = s.cyc := rfl
@[simp] theorem State.updTn_cycAt {g : TimeNet → TimeNet} : (s.updTn g).cycAt = s.cycAt := rfl
@[simp] theorem State.updTn_freq {g : TimeNet → TimeNet} : (s.updTn g).freq = s.freq := rfl
@[simp] theorem State.updTn_changing {g : TimeNet → TimeNet} : (s.updTn g).changing = s.changing := rfl
@[simp] theorem State.updTn_fresh {g : TimeNet → TimeNet} : (s.updTn g).fresh = s.fresh := rfl
@[simp] theorem State.updTn_course {g : TimeNet → TimeNet} : (s.updTn g).course = s.course := rfl
@[simp] theorem State.updTn_tn {g : TimeNet → TimeNet} : (s.updTn g).tn = g s.tn := rfl
@[simp] theorem State.updTn_acq {g : TimeNet → TimeNet} : (s.updTn g).acq = s.acq := rfl
@[simp] theorem State.updTn_die {g : TimeNet → TimeNet} : (s.updTn g).die = s.die := rfl
@[simp] theorem State.updTn_stream {g : TimeNet → TimeNet} : (s.updTn g).stream = s.stream := rfl
@[simp] theorem State.updTn_kv {g : TimeNet → TimeNet} : (s.updTn g).kv = s.kv := rfl
@[simp] theorem State.updTn_adapt {g : TimeNet → TimeNet} : (s.updTn g).adapt = s.adapt := rfl
@[simp] theorem State.updTn_mt {g : TimeNet → TimeNet} : (s.updTn g).mt = s.mt := rfl
@[simp] theorem State.updTn_bond {g : TimeNet → TimeNet} : (s.updTn g).bond = s.bond := rfl
@[simp] theorem State.updTn_line {g : TimeNet → TimeNet} : (s.updTn g).line = s.line := rfl
@[simp] theorem State.updTn_plumb {g : TimeNet → TimeNet} : (s.updTn g).plumb = s.plumb := rfl
@[simp] theorem State.updTn_power {g : TimeNet → TimeNet} : (s.updTn g).power = s.power := rfl
@[simp] theorem State.updTn_test {g : TimeNet → TimeNet} : (s.updTn g).test = s.test := rfl
@[simp] theorem State.updTn_mgmt {g : TimeNet → TimeNet} : (s.updTn g).mgmt = s.mgmt := rfl
@[simp] theorem State.updTn_sdio {g : TimeNet → TimeNet} : (s.updTn g).sdio = s.sdio := rfl
@[simp] theorem State.updTn_pending {g : TimeNet → TimeNet} : (s.updTn g).pending = s.pending := rfl
@[simp] theorem State.updTn_regGet {g : TimeNet → TimeNet} {a : Nat} : (s.updTn g).regGet a = s.regGet a := rfl
/-! ### updAcq -/
@[simp] theorem State.updAcq_part {g : Acq → Acq} : (s.updAcq g).part = s.part := rfl
@[simp] theorem State.updAcq_now {g : Acq → Acq} : (s.updAcq g).now = s.now := rfl
@[simp] theorem State.updAcq_regs {g : Acq → Acq} : (s.updAcq g).regs = s.regs := rfl
@[simp] theorem State.updAcq_mem {g : Acq → Acq} : (s.updAcq g).mem = s.mem := rfl
@[simp] theorem State.updAcq_snaps {g : Acq → Acq} : (s.updAcq g).snaps = s.snaps := rfl
@[simp] theorem State.updAcq_cyc {g : Acq → Acq} : (s.updAcq g).cyc = s.cyc := rfl
@[simp] theorem State.updAcq_cycAt {g : Acq → Acq} : (s.updAcq g).cycAt = s.cycAt := rfl
@[simp] theorem State.updAcq_freq {g : Acq → Acq} : (s.updAcq g).freq = s.freq := rfl
@[simp] theorem State.updAcq_changing {g : Acq → Acq} : (s.updAcq g).changing = s.changing := rfl
@[simp] theorem State.updAcq_fresh {g : Acq → Acq} : (s.updAcq g).fresh = s.fresh := rfl
@[simp] theorem State.updAcq_course {g : Acq → Acq} : (s.updAcq g).course = s.course := rfl
@[simp] theorem State.updAcq_tn {g : Acq → Acq} : (s.updAcq g).tn = s.tn := rfl
@[simp] theorem State.updAcq_acq {g : Acq → Acq} : (s.updAcq g).acq = g s.acq := rfl
@[simp] theorem State.updAcq_die {g : Acq → Acq} : (s.updAcq g).die = s.die := rfl
@[simp] theorem State.updAcq_stream {g : Acq → Acq} : (s.updAcq g).stream = s.stream := rfl
@[simp] theorem State.updAcq_kv {g : Acq → Acq} : (s.updAcq g).kv = s.kv := rfl
@[simp] theorem State.updAcq_adapt {g : Acq → Acq} : (s.updAcq g).adapt = s.adapt := rfl
@[simp] theorem State.updAcq_mt {g : Acq → Acq} : (s.updAcq g).mt = s.mt := rfl
@[simp] theorem State.updAcq_bond {g : Acq → Acq} : (s.updAcq g).bond = s.bond := rfl
@[simp] theorem State.updAcq_line {g : Acq → Acq} : (s.updAcq g).line = s.line := rfl
@[simp] theorem State.updAcq_plumb {g : Acq → Acq} : (s.updAcq g).plumb = s.plumb := rfl
@[simp] theorem State.updAcq_power {g : Acq → Acq} : (s.updAcq g).power = s.power := rfl
@[simp] theorem State.updAcq_test {g : Acq → Acq} : (s.updAcq g).test = s.test := rfl
@[simp] theorem State.updAcq_mgmt {g : Acq → Acq} : (s.updAcq g).mgmt = s.mgmt := rfl
@[simp] theorem State.updAcq_sdio {g : Acq → Acq} : (s.updAcq g).sdio = s.sdio := rfl
@[simp] theorem State.updAcq_pending {g : Acq → Acq} : (s.updAcq g).pending = s.pending := rfl
@[simp] theorem State.updAcq_regGet {g : Acq → Acq} {a : Nat} : (s.updAcq g).regGet a = s.regGet a := rfl
/-! ### updAdapt -/
@[simp] theorem State.updAdapt_part {g : Adapt → Adapt} : (s.updAdapt g).part = s.part := rfl
@[simp] theorem State.updAdapt_now {g : Adapt → Adapt} : (s.updAdapt g).now = s.now := rfl
@[simp] theorem State.updAdapt_regs {g : Adapt → Adapt} : (s.updAdapt g).regs = s.regs := rfl
@[simp] theorem State.updAdapt_mem {g : Adapt → Adapt} : (s.updAdapt g).mem = s.mem := rfl
@[simp] theorem State.updAdapt_snaps {g : Adapt → Adapt} : (s.updAdapt g).snaps = s.snaps := rfl
@[simp] theorem State.updAdapt_cyc {g : Adapt → Adapt} : (s.updAdapt g).cyc = s.cyc := rfl
@[simp] theorem State.updAdapt_cycAt {g : Adapt → Adapt} : (s.updAdapt g).cycAt = s.cycAt := rfl
@[simp] theorem State.updAdapt_freq {g : Adapt → Adapt} : (s.updAdapt g).freq = s.freq := rfl
@[simp] theorem State.updAdapt_changing {g : Adapt → Adapt} : (s.updAdapt g).changing = s.changing := rfl
@[simp] theorem State.updAdapt_fresh {g : Adapt → Adapt} : (s.updAdapt g).fresh = s.fresh := rfl
@[simp] theorem State.updAdapt_course {g : Adapt → Adapt} : (s.updAdapt g).course = s.course := rfl
@[simp] theorem State.updAdapt_tn {g : Adapt → Adapt} : (s.updAdapt g).tn = s.tn := rfl
@[simp] theorem State.updAdapt_acq {g : Adapt → Adapt} : (s.updAdapt g).acq = s.acq := rfl
@[simp] theorem State.updAdapt_die {g : Adapt → Adapt} : (s.updAdapt g).die = s.die := rfl
@[simp] theorem State.updAdapt_stream {g : Adapt → Adapt} : (s.updAdapt g).stream = s.stream := rfl
@[simp] theorem State.updAdapt_kv {g : Adapt → Adapt} : (s.updAdapt g).kv = s.kv := rfl
@[simp] theorem State.updAdapt_adapt {g : Adapt → Adapt} : (s.updAdapt g).adapt = g s.adapt := rfl
@[simp] theorem State.updAdapt_mt {g : Adapt → Adapt} : (s.updAdapt g).mt = s.mt := rfl
@[simp] theorem State.updAdapt_bond {g : Adapt → Adapt} : (s.updAdapt g).bond = s.bond := rfl
@[simp] theorem State.updAdapt_line {g : Adapt → Adapt} : (s.updAdapt g).line = s.line := rfl
@[simp] theorem State.updAdapt_plumb {g : Adapt → Adapt} : (s.updAdapt g).plumb = s.plumb := rfl
@[simp] theorem State.updAdapt_power {g : Adapt → Adapt} : (s.updAdapt g).power = s.power := rfl
@[simp] theorem State.updAdapt_test {g : Adapt → Adapt} : (s.updAdapt g).test = s.test := rfl
@[simp] theorem State.updAdapt_mgmt {g : Adapt → Adapt} : (s.updAdapt g).mgmt = s.mgmt := rfl
@[simp] theorem State.updAdapt_sdio {g : Adapt → Adapt} : (s.updAdapt g).sdio = s.sdio := rfl
@[simp] theorem State.updAdapt_pending {g : Adapt → Adapt} : (s.updAdapt g).pending = s.pending := rfl
@[simp] theorem State.updAdapt_regGet {g : Adapt → Adapt} {a : Nat} : (s.updAdapt g).regGet a = s.regGet a := rfl
/-! ### updMt -/
@[simp] theorem State.updMt_part {g : MemTier → MemTier} : (s.updMt g).part = s.part := rfl
@[simp] theorem State.updMt_now {g : MemTier → MemTier} : (s.updMt g).now = s.now := rfl
@[simp] theorem State.updMt_regs {g : MemTier → MemTier} : (s.updMt g).regs = s.regs := rfl
@[simp] theorem State.updMt_mem {g : MemTier → MemTier} : (s.updMt g).mem = s.mem := rfl
@[simp] theorem State.updMt_snaps {g : MemTier → MemTier} : (s.updMt g).snaps = s.snaps := rfl
@[simp] theorem State.updMt_cyc {g : MemTier → MemTier} : (s.updMt g).cyc = s.cyc := rfl
@[simp] theorem State.updMt_cycAt {g : MemTier → MemTier} : (s.updMt g).cycAt = s.cycAt := rfl
@[simp] theorem State.updMt_freq {g : MemTier → MemTier} : (s.updMt g).freq = s.freq := rfl
@[simp] theorem State.updMt_changing {g : MemTier → MemTier} : (s.updMt g).changing = s.changing := rfl
@[simp] theorem State.updMt_fresh {g : MemTier → MemTier} : (s.updMt g).fresh = s.fresh := rfl
@[simp] theorem State.updMt_course {g : MemTier → MemTier} : (s.updMt g).course = s.course := rfl
@[simp] theorem State.updMt_tn {g : MemTier → MemTier} : (s.updMt g).tn = s.tn := rfl
@[simp] theorem State.updMt_acq {g : MemTier → MemTier} : (s.updMt g).acq = s.acq := rfl
@[simp] theorem State.updMt_die {g : MemTier → MemTier} : (s.updMt g).die = s.die := rfl
@[simp] theorem State.updMt_stream {g : MemTier → MemTier} : (s.updMt g).stream = s.stream := rfl
@[simp] theorem State.updMt_kv {g : MemTier → MemTier} : (s.updMt g).kv = s.kv := rfl
@[simp] theorem State.updMt_adapt {g : MemTier → MemTier} : (s.updMt g).adapt = s.adapt := rfl
@[simp] theorem State.updMt_mt {g : MemTier → MemTier} : (s.updMt g).mt = g s.mt := rfl
@[simp] theorem State.updMt_bond {g : MemTier → MemTier} : (s.updMt g).bond = s.bond := rfl
@[simp] theorem State.updMt_line {g : MemTier → MemTier} : (s.updMt g).line = s.line := rfl
@[simp] theorem State.updMt_plumb {g : MemTier → MemTier} : (s.updMt g).plumb = s.plumb := rfl
@[simp] theorem State.updMt_power {g : MemTier → MemTier} : (s.updMt g).power = s.power := rfl
@[simp] theorem State.updMt_test {g : MemTier → MemTier} : (s.updMt g).test = s.test := rfl
@[simp] theorem State.updMt_mgmt {g : MemTier → MemTier} : (s.updMt g).mgmt = s.mgmt := rfl
@[simp] theorem State.updMt_sdio {g : MemTier → MemTier} : (s.updMt g).sdio = s.sdio := rfl
@[simp] theorem State.updMt_pending {g : MemTier → MemTier} : (s.updMt g).pending = s.pending := rfl
@[simp] theorem State.updMt_regGet {g : MemTier → MemTier} {a : Nat} : (s.updMt g).regGet a = s.regGet a := rfl
/-! ### updBond -/
@[simp] theorem State.updBond_part {g : Bond → Bond} : (s.updBond g).part = s.part := rfl
@[simp] theorem State.updBond_now {g : Bond → Bond} : (s.updBond g).now = s.now := rfl
@[simp] theorem State.updBond_regs {g : Bond → Bond} : (s.updBond g).regs = s.regs := rfl
@[simp] theorem State.updBond_mem {g : Bond → Bond} : (s.updBond g).mem = s.mem := rfl
@[simp] theorem State.updBond_snaps {g : Bond → Bond} : (s.updBond g).snaps = s.snaps := rfl
@[simp] theorem State.updBond_cyc {g : Bond → Bond} : (s.updBond g).cyc = s.cyc := rfl
@[simp] theorem State.updBond_cycAt {g : Bond → Bond} : (s.updBond g).cycAt = s.cycAt := rfl
@[simp] theorem State.updBond_freq {g : Bond → Bond} : (s.updBond g).freq = s.freq := rfl
@[simp] theorem State.updBond_changing {g : Bond → Bond} : (s.updBond g).changing = s.changing := rfl
@[simp] theorem State.updBond_fresh {g : Bond → Bond} : (s.updBond g).fresh = s.fresh := rfl
@[simp] theorem State.updBond_course {g : Bond → Bond} : (s.updBond g).course = s.course := rfl
@[simp] theorem State.updBond_tn {g : Bond → Bond} : (s.updBond g).tn = s.tn := rfl
@[simp] theorem State.updBond_acq {g : Bond → Bond} : (s.updBond g).acq = s.acq := rfl
@[simp] theorem State.updBond_die {g : Bond → Bond} : (s.updBond g).die = s.die := rfl
@[simp] theorem State.updBond_stream {g : Bond → Bond} : (s.updBond g).stream = s.stream := rfl
@[simp] theorem State.updBond_kv {g : Bond → Bond} : (s.updBond g).kv = s.kv := rfl
@[simp] theorem State.updBond_adapt {g : Bond → Bond} : (s.updBond g).adapt = s.adapt := rfl
@[simp] theorem State.updBond_mt {g : Bond → Bond} : (s.updBond g).mt = s.mt := rfl
@[simp] theorem State.updBond_bond {g : Bond → Bond} : (s.updBond g).bond = g s.bond := rfl
@[simp] theorem State.updBond_line {g : Bond → Bond} : (s.updBond g).line = s.line := rfl
@[simp] theorem State.updBond_plumb {g : Bond → Bond} : (s.updBond g).plumb = s.plumb := rfl
@[simp] theorem State.updBond_power {g : Bond → Bond} : (s.updBond g).power = s.power := rfl
@[simp] theorem State.updBond_test {g : Bond → Bond} : (s.updBond g).test = s.test := rfl
@[simp] theorem State.updBond_mgmt {g : Bond → Bond} : (s.updBond g).mgmt = s.mgmt := rfl
@[simp] theorem State.updBond_sdio {g : Bond → Bond} : (s.updBond g).sdio = s.sdio := rfl
@[simp] theorem State.updBond_pending {g : Bond → Bond} : (s.updBond g).pending = s.pending := rfl
@[simp] theorem State.updBond_regGet {g : Bond → Bond} {a : Nat} : (s.updBond g).regGet a = s.regGet a := rfl
/-! ### updLine -/
@[simp] theorem State.updLine_part {g : Line → Line} : (s.updLine g).part = s.part := rfl
@[simp] theorem State.updLine_now {g : Line → Line} : (s.updLine g).now = s.now := rfl
@[simp] theorem State.updLine_regs {g : Line → Line} : (s.updLine g).regs = s.regs := rfl
@[simp] theorem State.updLine_mem {g : Line → Line} : (s.updLine g).mem = s.mem := rfl
@[simp] theorem State.updLine_snaps {g : Line → Line} : (s.updLine g).snaps = s.snaps := rfl
@[simp] theorem State.updLine_cyc {g : Line → Line} : (s.updLine g).cyc = s.cyc := rfl
@[simp] theorem State.updLine_cycAt {g : Line → Line} : (s.updLine g).cycAt = s.cycAt := rfl
@[simp] theorem State.updLine_freq {g : Line → Line} : (s.updLine g).freq = s.freq := rfl
@[simp] theorem State.updLine_changing {g : Line → Line} : (s.updLine g).changing = s.changing := rfl
@[simp] theorem State.updLine_fresh {g : Line → Line} : (s.updLine g).fresh = s.fresh := rfl
@[simp] theorem State.updLine_course {g : Line → Line} : (s.updLine g).course = s.course := rfl
@[simp] theorem State.updLine_tn {g : Line → Line} : (s.updLine g).tn = s.tn := rfl
@[simp] theorem State.updLine_acq {g : Line → Line} : (s.updLine g).acq = s.acq := rfl
@[simp] theorem State.updLine_die {g : Line → Line} : (s.updLine g).die = s.die := rfl
@[simp] theorem State.updLine_stream {g : Line → Line} : (s.updLine g).stream = s.stream := rfl
@[simp] theorem State.updLine_kv {g : Line → Line} : (s.updLine g).kv = s.kv := rfl
@[simp] theorem State.updLine_adapt {g : Line → Line} : (s.updLine g).adapt = s.adapt := rfl
@[simp] theorem State.updLine_mt {g : Line → Line} : (s.updLine g).mt = s.mt := rfl
@[simp] theorem State.updLine_bond {g : Line → Line} : (s.updLine g).bond = s.bond := rfl
@[simp] theorem State.updLine_line {g : Line → Line} : (s.updLine g).line = g s.line := rfl
@[simp] theorem State.updLine_plumb {g : Line → Line} : (s.updLine g).plumb = s.plumb := rfl
@[simp] theorem State.updLine_power {g : Line → Line} : (s.updLine g).power = s.power := rfl
@[simp] theorem State.updLine_test {g : Line → Line} : (s.updLine g).test = s.test := rfl
@[simp] theorem State.updLine_mgmt {g : Line → Line} : (s.updLine g).mgmt = s.mgmt := rfl
@[simp] theorem State.updLine_sdio {g : Line → Line} : (s.updLine g).sdio = s.sdio := rfl
@[simp] theorem State.updLine_pending {g : Line → Line} : (s.updLine g).pending = s.pending := rfl
@[simp] theorem State.updLine_regGet {g : Line → Line} {a : Nat} : (s.updLine g).regGet a = s.regGet a := rfl
/-! ### updPlumb -/
@[simp] theorem State.updPlumb_part {g : Plumb → Plumb} : (s.updPlumb g).part = s.part := rfl
@[simp] theorem State.updPlumb_now {g : Plumb → Plumb} : (s.updPlumb g).now = s.now := rfl
@[simp] theorem State.updPlumb_regs {g : Plumb → Plumb} : (s.updPlumb g).regs = s.regs := rfl
@[simp] theorem State.updPlumb_mem {g : Plumb → Plumb} : (s.updPlumb g).mem = s.mem := rfl
@[simp] theorem State.updPlumb_snaps {g : Plumb → Plumb} : (s.updPlumb g).snaps = s.snaps := rfl
@[simp] theorem State.updPlumb_cyc {g : Plumb → Plumb} : (s.updPlumb g).cyc = s.cyc := rfl
@[simp] theorem State.updPlumb_cycAt {g : Plumb → Plumb} : (s.updPlumb g).cycAt = s.cycAt := rfl
@[simp] theorem State.updPlumb_freq {g : Plumb → Plumb} : (s.updPlumb g).freq = s.freq := rfl
@[simp] theorem State.updPlumb_changing {g : Plumb → Plumb} : (s.updPlumb g).changing = s.changing := rfl
@[simp] theorem State.updPlumb_fresh {g : Plumb → Plumb} : (s.updPlumb g).fresh = s.fresh := rfl
@[simp] theorem State.updPlumb_course {g : Plumb → Plumb} : (s.updPlumb g).course = s.course := rfl
@[simp] theorem State.updPlumb_tn {g : Plumb → Plumb} : (s.updPlumb g).tn = s.tn := rfl
@[simp] theorem State.updPlumb_acq {g : Plumb → Plumb} : (s.updPlumb g).acq = s.acq := rfl
@[simp] theorem State.updPlumb_die {g : Plumb → Plumb} : (s.updPlumb g).die = s.die := rfl
@[simp] theorem State.updPlumb_stream {g : Plumb → Plumb} : (s.updPlumb g).stream = s.stream := rfl
@[simp] theorem State.updPlumb_kv {g : Plumb → Plumb} : (s.updPlumb g).kv = s.kv := rfl
@[simp] theorem State.updPlumb_adapt {g : Plumb → Plumb} : (s.updPlumb g).adapt = s.adapt := rfl
@[simp] theorem State.updPlumb_mt {g : Plumb → Plumb} : (s.updPlumb g).mt = s.mt := rfl
@[simp] theorem State.updPlumb_bond {g : Plumb → Plumb} : (s.updPlumb g).bond = s.bond := rfl
@[simp] theorem State.updPlumb_line {g : Plumb → Plumb} : (s.updPlumb g).line = s.line := rfl
@[simp] theorem State.updPlumb_plumb {g : Plumb → Plumb} : (s.updPlumb g).plumb = g s.plumb := rfl
@[simp] theorem State.updPlumb_power {g : Plumb → Plumb} : (s.updPlumb g).power = s.power := rfl
@[simp] theorem State.updPlumb_test {g : Plumb → Plumb} : (s.updPlumb g).test = s.test := rfl
@[simp] theorem State.updPlumb_mgmt {g : Plumb → Plumb} : (s.updPlumb g).mgmt = s.mgmt := rfl
@[simp] theorem State.updPlumb_sdio {g : Plumb → Plumb} : (s.updPlumb g).sdio = s.sdio := rfl
@[simp] theorem State.updPlumb_pending {g : Plumb → Plumb} : (s.updPlumb g).pending = s.pending := rfl
@[simp] theorem State.updPlumb_regGet {g : Plumb → Plumb} {a : Nat} : (s.updPlumb g).regGet a = s.regGet a := rfl
/-! ### updPower -/
@[simp] theorem State.updPower_part {g : Power → Power} : (s.updPower g).part = s.part := rfl
@[simp] theorem State.updPower_now {g : Power → Power} : (s.updPower g).now = s.now := rfl
@[simp] theorem State.updPower_regs {g : Power → Power} : (s.updPower g).regs = s.regs := rfl
@[simp] theorem State.updPower_mem {g : Power → Power} : (s.updPower g).mem = s.mem := rfl
@[simp] theorem State.updPower_snaps {g : Power → Power} : (s.updPower g).snaps = s.snaps := rfl
@[simp] theorem State.updPower_cyc {g : Power → Power} : (s.updPower g).cyc = s.cyc := rfl
@[simp] theorem State.updPower_cycAt {g : Power → Power} : (s.updPower g).cycAt = s.cycAt := rfl
@[simp] theorem State.updPower_freq {g : Power → Power} : (s.updPower g).freq = s.freq := rfl
@[simp] theorem State.updPower_changing {g : Power → Power} : (s.updPower g).changing = s.changing := rfl
@[simp] theorem State.updPower_fresh {g : Power → Power} : (s.updPower g).fresh = s.fresh := rfl
@[simp] theorem State.updPower_course {g : Power → Power} : (s.updPower g).course = s.course := rfl
@[simp] theorem State.updPower_tn {g : Power → Power} : (s.updPower g).tn = s.tn := rfl
@[simp] theorem State.updPower_acq {g : Power → Power} : (s.updPower g).acq = s.acq := rfl
@[simp] theorem State.updPower_die {g : Power → Power} : (s.updPower g).die = s.die := rfl
@[simp] theorem State.updPower_stream {g : Power → Power} : (s.updPower g).stream = s.stream := rfl
@[simp] theorem State.updPower_kv {g : Power → Power} : (s.updPower g).kv = s.kv := rfl
@[simp] theorem State.updPower_adapt {g : Power → Power} : (s.updPower g).adapt = s.adapt := rfl
@[simp] theorem State.updPower_mt {g : Power → Power} : (s.updPower g).mt = s.mt := rfl
@[simp] theorem State.updPower_bond {g : Power → Power} : (s.updPower g).bond = s.bond := rfl
@[simp] theorem State.updPower_line {g : Power → Power} : (s.updPower g).line = s.line := rfl
@[simp] theorem State.updPower_plumb {g : Power → Power} : (s.updPower g).plumb = s.plumb := rfl
@[simp] theorem State.updPower_power {g : Power → Power} : (s.updPower g).power = g s.power := rfl
@[simp] theorem State.updPower_test {g : Power → Power} : (s.updPower g).test = s.test := rfl
@[simp] theorem State.updPower_mgmt {g : Power → Power} : (s.updPower g).mgmt = s.mgmt := rfl
@[simp] theorem State.updPower_sdio {g : Power → Power} : (s.updPower g).sdio = s.sdio := rfl
@[simp] theorem State.updPower_pending {g : Power → Power} : (s.updPower g).pending = s.pending := rfl
@[simp] theorem State.updPower_regGet {g : Power → Power} {a : Nat} : (s.updPower g).regGet a = s.regGet a := rfl
/-! ### updTest -/
@[simp] theorem State.updTest_part {g : Test → Test} : (s.updTest g).part = s.part := rfl
@[simp] theorem State.updTest_now {g : Test → Test} : (s.updTest g).now = s.now := rfl
@[simp] theorem State.updTest_regs {g : Test → Test} : (s.updTest g).regs = s.regs := rfl
@[simp] theorem State.updTest_mem {g : Test → Test} : (s.updTest g).mem = s.mem := rfl
@[simp] theorem State.updTest_snaps {g : Test → Test} : (s.updTest g).snaps = s.snaps := rfl
@[simp] theorem State.updTest_cyc {g : Test → Test} : (s.updTest g).cyc = s.cyc := rfl
@[simp] theorem State.updTest_cycAt {g : Test → Test} : (s.updTest g).cycAt = s.cycAt := rfl
@[simp] theorem State.updTest_freq {g : Test → Test} : (s.updTest g).freq = s.freq := rfl
@[simp] theorem State.updTest_changing {g : Test → Test} : (s.updTest g).changing = s.changing := rfl
@[simp] theorem State.updTest_fresh {g : Test → Test} : (s.updTest g).fresh = s.fresh := rfl
@[simp] theorem State.updTest_course {g : Test → Test} : (s.updTest g).course = s.course := rfl
@[simp] theorem State.updTest_tn {g : Test → Test} : (s.updTest g).tn = s.tn := rfl
@[simp] theorem State.updTest_acq {g : Test → Test} : (s.updTest g).acq = s.acq := rfl
@[simp] theorem State.updTest_die {g : Test → Test} : (s.updTest g).die = s.die := rfl
@[simp] theorem State.updTest_stream {g : Test → Test} : (s.updTest g).stream = s.stream := rfl
@[simp] theorem State.updTest_kv {g : Test → Test} : (s.updTest g).kv = s.kv := rfl
@[simp] theorem State.updTest_adapt {g : Test → Test} : (s.updTest g).adapt = s.adapt := rfl
@[simp] theorem State.updTest_mt {g : Test → Test} : (s.updTest g).mt = s.mt := rfl
@[simp] theorem State.updTest_bond {g : Test → Test} : (s.updTest g).bond = s.bond := rfl
@[simp] theorem State.updTest_line {g : Test → Test} : (s.updTest g).line = s.line := rfl
@[simp] theorem State.updTest_plumb {g : Test → Test} : (s.updTest g).plumb = s.plumb := rfl
@[simp] theorem State.updTest_power {g : Test → Test} : (s.updTest g).power = s.power := rfl
@[simp] theorem State.updTest_test {g : Test → Test} : (s.updTest g).test = g s.test := rfl
@[simp] theorem State.updTest_mgmt {g : Test → Test} : (s.updTest g).mgmt = s.mgmt := rfl
@[simp] theorem State.updTest_sdio {g : Test → Test} : (s.updTest g).sdio = s.sdio := rfl
@[simp] theorem State.updTest_pending {g : Test → Test} : (s.updTest g).pending = s.pending := rfl
@[simp] theorem State.updTest_regGet {g : Test → Test} {a : Nat} : (s.updTest g).regGet a = s.regGet a := rfl
/-! ### updMgmt -/
@[simp] theorem State.updMgmt_part {g : Mgmt → Mgmt} : (s.updMgmt g).part = s.part := rfl
@[simp] theorem State.updMgmt_now {g : Mgmt → Mgmt} : (s.updMgmt g).now = s.now := rfl
@[simp] theorem State.updMgmt_regs {g : Mgmt → Mgmt} : (s.updMgmt g).regs = s.regs := rfl
@[simp] theorem State.updMgmt_mem {g : Mgmt → Mgmt} : (s.updMgmt g).mem = s.mem := rfl
@[simp] theorem State.updMgmt_snaps {g : Mgmt → Mgmt} : (s.updMgmt g).snaps = s.snaps := rfl
@[simp] theorem State.updMgmt_cyc {g : Mgmt → Mgmt} : (s.updMgmt g).cyc = s.cyc := rfl
@[simp] theorem State.updMgmt_cycAt {g : Mgmt → Mgmt} : (s.updMgmt g).cycAt = s.cycAt := rfl
@[simp] theorem State.updMgmt_freq {g : Mgmt → Mgmt} : (s.updMgmt g).freq = s.freq := rfl
@[simp] theorem State.updMgmt_changing {g : Mgmt → Mgmt} : (s.updMgmt g).changing = s.changing := rfl
@[simp] theorem State.updMgmt_fresh {g : Mgmt → Mgmt} : (s.updMgmt g).fresh = s.fresh := rfl
@[simp] theorem State.updMgmt_course {g : Mgmt → Mgmt} : (s.updMgmt g).course = s.course := rfl
@[simp] theorem State.updMgmt_tn {g : Mgmt → Mgmt} : (s.updMgmt g).tn = s.tn := rfl
@[simp] theorem State.updMgmt_acq {g : Mgmt → Mgmt} : (s.updMgmt g).acq = s.acq := rfl
@[simp] theorem State.updMgmt_die {g : Mgmt → Mgmt} : (s.updMgmt g).die = s.die := rfl
@[simp] theorem State.updMgmt_stream {g : Mgmt → Mgmt} : (s.updMgmt g).stream = s.stream := rfl
@[simp] theorem State.updMgmt_kv {g : Mgmt → Mgmt} : (s.updMgmt g).kv = s.kv := rfl
@[simp] theorem State.updMgmt_adapt {g : Mgmt → Mgmt} : (s.updMgmt g).adapt = s.adapt := rfl
@[simp] theorem State.updMgmt_mt {g : Mgmt → Mgmt} : (s.updMgmt g).mt = s.mt := rfl
@[simp] theorem State.updMgmt_bond {g : Mgmt → Mgmt} : (s.updMgmt g).bond = s.bond := rfl
@[simp] theorem State.updMgmt_line {g : Mgmt → Mgmt} : (s.updMgmt g).line = s.line := rfl
@[simp] theorem State.updMgmt_plumb {g : Mgmt → Mgmt} : (s.updMgmt g).plumb = s.plumb := rfl
@[simp] theorem State.updMgmt_power {g : Mgmt → Mgmt} : (s.updMgmt g).power = s.power := rfl
@[simp] theorem State.updMgmt_test {g : Mgmt → Mgmt} : (s.updMgmt g).test = s.test := rfl
@[simp] theorem State.updMgmt_mgmt {g : Mgmt → Mgmt} : (s.updMgmt g).mgmt = g s.mgmt := rfl
@[simp] theorem State.updMgmt_sdio {g : Mgmt → Mgmt} : (s.updMgmt g).sdio = s.sdio := rfl
@[simp] theorem State.updMgmt_pending {g : Mgmt → Mgmt} : (s.updMgmt g).pending = s.pending := rfl
@[simp] theorem State.updMgmt_regGet {g : Mgmt → Mgmt} {a : Nat} : (s.updMgmt g).regGet a = s.regGet a := rfl
/-! ### updSdio -/
@[simp] theorem State.updSdio_part {g : Sdio → Sdio} : (s.updSdio g).part = s.part := rfl
@[simp] theorem State.updSdio_now {g : Sdio → Sdio} : (s.updSdio g).now = s.now := rfl
@[simp] theorem State.updSdio_regs {g : Sdio → Sdio} : (s.updSdio g).regs = s.regs := rfl
@[simp] theorem State.updSdio_mem {g : Sdio → Sdio} : (s.updSdio g).mem = s.mem := rfl
@[simp] theorem State.updSdio_snaps {g : Sdio → Sdio} : (s.updSdio g).snaps = s.snaps := rfl
@[simp] theorem State.updSdio_cyc {g : Sdio → Sdio} : (s.updSdio g).cyc = s.cyc := rfl
@[simp] theorem State.updSdio_cycAt {g : Sdio → Sdio} : (s.updSdio g).cycAt = s.cycAt := rfl
@[simp] theorem State.updSdio_freq {g : Sdio → Sdio} : (s.updSdio g).freq = s.freq := rfl
@[simp] theorem State.updSdio_changing {g : Sdio → Sdio} : (s.updSdio g).changing = s.changing := rfl
@[simp] theorem State.updSdio_fresh {g : Sdio → Sdio} : (s.updSdio g).fresh = s.fresh := rfl
@[simp] theorem State.updSdio_course {g : Sdio → Sdio} : (s.updSdio g).course = s.course := rfl
@[simp] theorem State.updSdio_tn {g : Sdio → Sdio} : (s.updSdio g).tn = s.tn := rfl
@[simp] theorem State.updSdio_acq {g : Sdio → Sdio} : (s.updSdio g).acq = s.acq := rfl
@[simp] theorem State.updSdio_die {g : Sdio → Sdio} : (s.updSdio g).die = s.die := rfl
@[simp] theorem State.updSdio_stream {g : Sdio → Sdio} : (s.updSdio g).stream = s.stream := rfl
@[simp] theorem State.updSdio_kv {g : Sdio → Sdio} : (s.updSdio g).kv = s.kv := rfl
@[simp] theorem State.updSdio_adapt {g : Sdio → Sdio} : (s.updSdio g).adapt = s.adapt := rfl
@[simp] theorem State.updSdio_mt {g : Sdio → Sdio} : (s.updSdio g).mt = s.mt := rfl
@[simp] theorem State.updSdio_bond {g : Sdio → Sdio} : (s.updSdio g).bond = s.bond := rfl
@[simp] theorem State.updSdio_line {g : Sdio → Sdio} : (s.updSdio g).line = s.line := rfl
@[simp] theorem State.updSdio_plumb {g : Sdio → Sdio} : (s.updSdio g).plumb = s.plumb := rfl
@[simp] theorem State.updSdio_power {g : Sdio → Sdio} : (s.updSdio g).power = s.power := rfl
@[simp] theorem State.updSdio_test {g : Sdio → Sdio} : (s.updSdio g).test = s.test := rfl
@[simp] theorem State.updSdio_mgmt {g : Sdio → Sdio} : (s.updSdio g).mgmt = s.mgmt := rfl
@[simp] theorem State.updSdio_sdio {g : Sdio → Sdio} : (s.updSdio g).sdio = g s.sdio := rfl
@[simp] theorem State.updSdio_pending {g : Sdio → Sdio} : (s.updSdio g).pending = s.pending := rfl
@[simp] theorem State.updSdio_regGet {g : Sdio → Sdio} {a : Nat} : (s.updSdio g).regGet a = s.regGet a := rfl
/-! ### updDie -/
@[simp] theorem State.updDie_part {i : Nat} {g : Die → Die} : (s.updDie i g).part = s.part := rfl
@[simp] theorem State.updDie_now {i : Nat} {g : Die → Die} : (s.updDie i g).now = s.now := rfl
@[simp] theorem State.updDie_regs {i : Nat} {g : Die → Die} : (s.updDie i g).regs = s.regs := rfl
@[simp] theorem State.updDie_mem {i : Nat} {g : Die → Die} : (s.updDie i g).mem = s.mem := rfl
@[simp] theorem State.updDie_snaps {i : Nat} {g : Die → Die} : (s.updDie i g).snaps = s.snaps := rfl
@[simp] theorem State.updDie_cyc {i : Nat} {g : Die → Die} : (s.updDie i g).cyc = s.cyc := rfl
@[simp] theorem State.updDie_cycAt {i : Nat} {g : Die → Die} : (s.updDie i g).cycAt = s.cycAt := rfl
@[simp] theorem State.updDie_freq {i : Nat} {g : Die → Die} : (s.updDie i g).freq = s.freq := rfl
@[simp] theorem State.updDie_changing {i : Nat} {g : Die → Die} : (s.updDie i g).changing = s.changing := rfl
@[simp] theorem State.updDie_fresh {i : Nat} {g : Die → Die} : (s.updDie i g).fresh = s.fresh := rfl
@[simp] theorem State.updDie_course {i : Nat} {g : Die → Die} : (s.updDie i g).course = s.course := rfl
@[simp] theorem State.updDie_tn {i : Nat} {g : Die → Die} : (s.updDie i g).tn = s.tn := rfl
@[simp] theorem State.updDie_acq {i : Nat} {g : Die → Die} : (s.updDie i g).acq = s.acq := rfl
@[simp] theorem State.updDie_die {i : Nat} {g : Die → Die} : (s.updDie i g).die = lmod s.die i g := rfl
@[simp] theorem State.updDie_stream {i : Nat} {g : Die → Die} : (s.updDie i g).stream = s.stream := rfl
@[simp] theorem State.updDie_kv {i : Nat} {g : Die → Die} : (s.updDie i g).kv = s.kv := rfl
@[simp] theorem State.updDie_adapt {i : Nat} {g : Die → Die} : (s.updDie i g).adapt = s.adapt := rfl
@[simp] theorem State.updDie_mt {i : Nat} {g : Die → Die} : (s.updDie i g).mt = s.mt := rfl
@[simp] theorem State.updDie_bond {i : Nat} {g : Die → Die} : (s.updDie i g).bond = s.bond := rfl
@[simp] theorem State.updDie_line {i : Nat} {g : Die → Die} : (s.updDie i g).line = s.line := rfl
@[simp] theorem State.updDie_plumb {i : Nat} {g : Die → Die} : (s.updDie i g).plumb = s.plumb := rfl
@[simp] theorem State.updDie_power {i : Nat} {g : Die → Die} : (s.updDie i g).power = s.power := rfl
@[simp] theorem State.updDie_test {i : Nat} {g : Die → Die} : (s.updDie i g).test = s.test := rfl
@[simp] theorem State.updDie_mgmt {i : Nat} {g : Die → Die} : (s.updDie i g).mgmt = s.mgmt := rfl
@[simp] theorem State.updDie_sdio {i : Nat} {g : Die → Die} : (s.updDie i g).sdio = s.sdio := rfl
@[simp] theorem State.updDie_pending {i : Nat} {g : Die → Die} : (s.updDie i g).pending = s.pending := rfl
@[simp] theorem State.updDie_regGet {i : Nat} {g : Die → Die} {a : Nat} : (s.updDie i g).regGet a = s.regGet a := rfl
/-! ### updStream -/
@[simp] theorem State.updStream_part {i : Nat} {g : Stream → Stream} : (s.updStream i g).part = s.part := rfl
@[simp] theorem State.updStream_now {i : Nat} {g : Stream → Stream} : (s.updStream i g).now = s.now := rfl
@[simp] theorem State.updStream_regs {i : Nat} {g : Stream → Stream} : (s.updStream i g).regs = s.regs := rfl
@[simp] theorem State.updStream_mem {i : Nat} {g : Stream → Stream} : (s.updStream i g).mem = s.mem := rfl
@[simp] theorem State.updStream_snaps {i : Nat} {g : Stream → Stream} : (s.updStream i g).snaps = s.snaps := rfl
@[simp] theorem State.updStream_cyc {i : Nat} {g : Stream → Stream} : (s.updStream i g).cyc = s.cyc := rfl
@[simp] theorem State.updStream_cycAt {i : Nat} {g : Stream → Stream} : (s.updStream i g).cycAt = s.cycAt := rfl
@[simp] theorem State.updStream_freq {i : Nat} {g : Stream → Stream} : (s.updStream i g).freq = s.freq := rfl
@[simp] theorem State.updStream_changing {i : Nat} {g : Stream → Stream} : (s.updStream i g).changing = s.changing := rfl
@[simp] theorem State.updStream_fresh {i : Nat} {g : Stream → Stream} : (s.updStream i g).fresh = s.fresh := rfl
@[simp] theorem State.updStream_course {i : Nat} {g : Stream → Stream} : (s.updStream i g).course = s.course := rfl
@[simp] theorem State.updStream_tn {i : Nat} {g : Stream → Stream} : (s.updStream i g).tn = s.tn := rfl
@[simp] theorem State.updStream_acq {i : Nat} {g : Stream → Stream} : (s.updStream i g).acq = s.acq := rfl
@[simp] theorem State.updStream_die {i : Nat} {g : Stream → Stream} : (s.updStream i g).die = s.die := rfl
@[simp] theorem State.updStream_stream {i : Nat} {g : Stream → Stream} : (s.updStream i g).stream = lmod s.stream i g := rfl
@[simp] theorem State.updStream_kv {i : Nat} {g : Stream → Stream} : (s.updStream i g).kv = s.kv := rfl
@[simp] theorem State.updStream_adapt {i : Nat} {g : Stream → Stream} : (s.updStream i g).adapt = s.adapt := rfl
@[simp] theorem State.updStream_mt {i : Nat} {g : Stream → Stream} : (s.updStream i g).mt = s.mt := rfl
@[simp] theorem State.updStream_bond {i : Nat} {g : Stream → Stream} : (s.updStream i g).bond = s.bond := rfl
@[simp] theorem State.updStream_line {i : Nat} {g : Stream → Stream} : (s.updStream i g).line = s.line := rfl
@[simp] theorem State.updStream_plumb {i : Nat} {g : Stream → Stream} : (s.updStream i g).plumb = s.plumb := rfl
@[simp] theorem State.updStream_power {i : Nat} {g : Stream → Stream} : (s.updStream i g).power = s.power := rfl
@[simp] theorem State.updStream_test {i : Nat} {g : Stream → Stream} : (s.updStream i g).test = s.test := rfl
@[simp] theorem State.updStream_mgmt {i : Nat} {g : Stream → Stream} : (s.updStream i g).mgmt = s.mgmt := rfl
@[simp] theorem State.updStream_sdio {i : Nat} {g : Stream → Stream} : (s.updStream i g).sdio = s.sdio := rfl
@[simp] theorem State.updStream_pending {i : Nat} {g : Stream → Stream} : (s.updStream i g).pending = s.pending := rfl
@[simp] theorem State.updStream_regGet {i : Nat} {g : Stream → Stream} {a : Nat} : (s.updStream i g).regGet a = s.regGet a := rfl
/-! ### updKv -/
@[simp] theorem State.updKv_part {i : Nat} {g : Kv → Kv} : (s.updKv i g).part = s.part := rfl
@[simp] theorem State.updKv_now {i : Nat} {g : Kv → Kv} : (s.updKv i g).now = s.now := rfl
@[simp] theorem State.updKv_regs {i : Nat} {g : Kv → Kv} : (s.updKv i g).regs = s.regs := rfl
@[simp] theorem State.updKv_mem {i : Nat} {g : Kv → Kv} : (s.updKv i g).mem = s.mem := rfl
@[simp] theorem State.updKv_snaps {i : Nat} {g : Kv → Kv} : (s.updKv i g).snaps = s.snaps := rfl
@[simp] theorem State.updKv_cyc {i : Nat} {g : Kv → Kv} : (s.updKv i g).cyc = s.cyc := rfl
@[simp] theorem State.updKv_cycAt {i : Nat} {g : Kv → Kv} : (s.updKv i g).cycAt = s.cycAt := rfl
@[simp] theorem State.updKv_freq {i : Nat} {g : Kv → Kv} : (s.updKv i g).freq = s.freq := rfl
@[simp] theorem State.updKv_changing {i : Nat} {g : Kv → Kv} : (s.updKv i g).changing = s.changing := rfl
@[simp] theorem State.updKv_fresh {i : Nat} {g : Kv → Kv} : (s.updKv i g).fresh = s.fresh := rfl
@[simp] theorem State.updKv_course {i : Nat} {g : Kv → Kv} : (s.updKv i g).course = s.course := rfl
@[simp] theorem State.updKv_tn {i : Nat} {g : Kv → Kv} : (s.updKv i g).tn = s.tn := rfl
@[simp] theorem State.updKv_acq {i : Nat} {g : Kv → Kv} : (s.updKv i g).acq = s.acq := rfl
@[simp] theorem State.updKv_die {i : Nat} {g : Kv → Kv} : (s.updKv i g).die = s.die := rfl
@[simp] theorem State.updKv_stream {i : Nat} {g : Kv → Kv} : (s.updKv i g).stream = s.stream := rfl
@[simp] theorem State.updKv_kv {i : Nat} {g : Kv → Kv} : (s.updKv i g).kv = lmod s.kv i g := rfl
@[simp] theorem State.updKv_adapt {i : Nat} {g : Kv → Kv} : (s.updKv i g).adapt = s.adapt := rfl
@[simp] theorem State.updKv_mt {i : Nat} {g : Kv → Kv} : (s.updKv i g).mt = s.mt := rfl
@[simp] theorem State.updKv_bond {i : Nat} {g : Kv → Kv} : (s.updKv i g).bond = s.bond := rfl
@[simp] theorem State.updKv_line {i : Nat} {g : Kv → Kv} : (s.updKv i g).line = s.line := rfl
@[simp] theorem State.updKv_plumb {i : Nat} {g : Kv → Kv} : (s.updKv i g).plumb = s.plumb := rfl
@[simp] theorem State.updKv_power {i : Nat} {g : Kv → Kv} : (s.updKv i g).power = s.power := rfl
@[simp] theorem State.updKv_test {i : Nat} {g : Kv → Kv} : (s.updKv i g).test = s.test := rfl
@[simp] theorem State.updKv_mgmt {i : Nat} {g : Kv → Kv} : (s.updKv i g).mgmt = s.mgmt := rfl
@[simp] theorem State.updKv_sdio {i : Nat} {g : Kv → Kv} : (s.updKv i g).sdio = s.sdio := rfl
@[simp] theorem State.updKv_pending {i : Nat} {g : Kv → Kv} : (s.updKv i g).pending = s.pending := rfl
@[simp] theorem State.updKv_regGet {i : Nat} {g : Kv → Kv} {a : Nat} : (s.updKv i g).regGet a = s.regGet a := rfl
/-! ### regSet -/
@[simp] theorem State.regSet_part {a : Nat} {w : Word} : (s.regSet a w).part = s.part := rfl
@[simp] theorem State.regSet_now {a : Nat} {w : Word} : (s.regSet a w).now = s.now := rfl
@[simp] theorem State.regSet_mem {a : Nat} {w : Word} : (s.regSet a w).mem = s.mem := rfl
@[simp] theorem State.regSet_snaps {a : Nat} {w : Word} : (s.regSet a w).snaps = s.snaps := rfl
@[simp] theorem State.regSet_cyc {a : Nat} {w : Word} : (s.regSet a w).cyc = s.cyc := rfl
@[simp] theorem State.regSet_cycAt {a : Nat} {w : Word} : (s.regSet a w).cycAt = s.cycAt := rfl
@[simp] theorem State.regSet_freq {a : Nat} {w : Word} : (s.regSet a w).freq = s.freq := rfl
@[simp] theorem State.regSet_changing {a : Nat} {w : Word} : (s.regSet a w).changing = s.changing := rfl
@[simp] theorem State.regSet_fresh {a : Nat} {w : Word} : (s.regSet a w).fresh = s.fresh := rfl
@[simp] theorem State.regSet_course {a : Nat} {w : Word} : (s.regSet a w).course = s.course := rfl
@[simp] theorem State.regSet_tn {a : Nat} {w : Word} : (s.regSet a w).tn = s.tn := rfl
@[simp] theorem State.regSet_acq {a : Nat} {w : Word} : (s.regSet a w).acq = s.acq := rfl
@[simp] theorem State.regSet_die {a : Nat} {w : Word} : (s.regSet a w).die = s.die := rfl
@[simp] theorem State.regSet_stream {a : Nat} {w : Word} : (s.regSet a w).stream = s.stream := rfl
@[simp] theorem State.regSet_kv {a : Nat} {w : Word} : (s.regSet a w).kv = s.kv := rfl
@[simp] theorem State.regSet_adapt {a : Nat} {w : Word} : (s.regSet a w).adapt = s.adapt := rfl
@[simp] theorem State.regSet_mt {a : Nat} {w : Word} : (s.regSet a w).mt = s.mt := rfl
@[simp] theorem State.regSet_bond {a : Nat} {w : Word} : (s.regSet a w).bond = s.bond := rfl
@[simp] theorem State.regSet_line {a : Nat} {w : Word} : (s.regSet a w).line = s.line := rfl
@[simp] theorem State.regSet_plumb {a : Nat} {w : Word} : (s.regSet a w).plumb = s.plumb := rfl
@[simp] theorem State.regSet_power {a : Nat} {w : Word} : (s.regSet a w).power = s.power := rfl
@[simp] theorem State.regSet_test {a : Nat} {w : Word} : (s.regSet a w).test = s.test := rfl
@[simp] theorem State.regSet_mgmt {a : Nat} {w : Word} : (s.regSet a w).mgmt = s.mgmt := rfl
@[simp] theorem State.regSet_sdio {a : Nat} {w : Word} : (s.regSet a w).sdio = s.sdio := rfl
@[simp] theorem State.regSet_pending {a : Nat} {w : Word} : (s.regSet a w).pending = s.pending := rfl
/-! ### bump -/
@[simp] theorem State.bump_part {a k : Nat} : (s.bump a k).part = s.part := rfl
@[simp] theorem State.bump_now {a k : Nat} : (s.bump a k).now = s.now := rfl
@[simp] theorem State.bump_mem {a k : Nat} : (s.bump a k).mem = s.mem := rfl
@[simp] theorem State.bump_snaps {a k : Nat} : (s.bump a k).snaps = s.snaps := rfl
@[simp] theorem State.bump_cyc {a k : Nat} : (s.bump a k).cyc = s.cyc := rfl
@[simp] theorem State.bump_cycAt {a k : Nat} : (s.bump a k).cycAt = s.cycAt := rfl
@[simp] theorem State.bump_freq {a k : Nat} : (s.bump a k).freq = s.freq := rfl
@[simp] theorem State.bump_changing {a k : Nat} : (s.bump a k).changing = s.changing := rfl
@[simp] theorem State.bump_fresh {a k : Nat} : (s.bump a k).fresh = s.fresh := rfl
@[simp] theorem State.bump_course {a k : Nat} : (s.bump a k).course = s.course := rfl
@[simp] theorem State.bump_tn {a k : Nat} : (s.bump a k).tn = s.tn := rfl
@[simp] theorem State.bump_acq {a k : Nat} : (s.bump a k).acq = s.acq := rfl
@[simp] theorem State.bump_die {a k : Nat} : (s.bump a k).die = s.die := rfl
@[simp] theorem State.bump_stream {a k : Nat} : (s.bump a k).stream = s.stream := rfl
@[simp] theorem State.bump_kv {a k : Nat} : (s.bump a k).kv = s.kv := rfl
@[simp] theorem State.bump_adapt {a k : Nat} : (s.bump a k).adapt = s.adapt := rfl
@[simp] theorem State.bump_mt {a k : Nat} : (s.bump a k).mt = s.mt := rfl
@[simp] theorem State.bump_bond {a k : Nat} : (s.bump a k).bond = s.bond := rfl
@[simp] theorem State.bump_line {a k : Nat} : (s.bump a k).line = s.line := rfl
@[simp] theorem State.bump_plumb {a k : Nat} : (s.bump a k).plumb = s.plumb := rfl
@[simp] theorem State.bump_power {a k : Nat} : (s.bump a k).power = s.power := rfl
@[simp] theorem State.bump_test {a k : Nat} : (s.bump a k).test = s.test := rfl
@[simp] theorem State.bump_mgmt {a k : Nat} : (s.bump a k).mgmt = s.mgmt := rfl
@[simp] theorem State.bump_sdio {a k : Nat} : (s.bump a k).sdio = s.sdio := rfl
@[simp] theorem State.bump_pending {a k : Nat} : (s.bump a k).pending = s.pending := rfl
/-! ### setFld -/
@[simp] theorem State.setFld_part {a hi lo v : Nat} : (s.setFld a hi lo v).part = s.part := State.regSet_part
@[simp] theorem State.setFld_now {a hi lo v : Nat} : (s.setFld a hi lo v).now = s.now := State.regSet_now
@[simp] theorem State.setFld_mem {a hi lo v : Nat} : (s.setFld a hi lo v).mem = s.mem := State.regSet_mem
@[simp] theorem State.setFld_snaps {a hi lo v : Nat} : (s.setFld a hi lo v).snaps = s.snaps := State.regSet_snaps
@[simp] theorem State.setFld_cyc {a hi lo v : Nat} : (s.setFld a hi lo v).cyc = s.cyc := State.regSet_cyc
@[simp] theorem State.setFld_cycAt {a hi lo v : Nat} : (s.setFld a hi lo v).cycAt = s.cycAt := State.regSet_cycAt
@[simp] theorem State.setFld_freq {a hi lo v : Nat} : (s.setFld a hi lo v).freq = s.freq := State.regSet_freq
@[simp] theorem State.setFld_changing {a hi lo v : Nat} : (s.setFld a hi lo v).changing = s.changing := State.regSet_changing
@[simp] theorem State.setFld_fresh {a hi lo v : Nat} : (s.setFld a hi lo v).fresh = s.fresh := State.regSet_fresh
@[simp] theorem State.setFld_course {a hi lo v : Nat} : (s.setFld a hi lo v).course = s.course := State.regSet_course
@[simp] theorem State.setFld_tn {a hi lo v : Nat} : (s.setFld a hi lo v).tn = s.tn := State.regSet_tn
@[simp] theorem State.setFld_acq {a hi lo v : Nat} : (s.setFld a hi lo v).acq = s.acq := State.regSet_acq
@[simp] theorem State.setFld_die {a hi lo v : Nat} : (s.setFld a hi lo v).die = s.die := State.regSet_die
@[simp] theorem State.setFld_stream {a hi lo v : Nat} : (s.setFld a hi lo v).stream = s.stream := State.regSet_stream
@[simp] theorem State.setFld_kv {a hi lo v : Nat} : (s.setFld a hi lo v).kv = s.kv := State.regSet_kv
@[simp] theorem State.setFld_adapt {a hi lo v : Nat} : (s.setFld a hi lo v).adapt = s.adapt := State.regSet_adapt
@[simp] theorem State.setFld_mt {a hi lo v : Nat} : (s.setFld a hi lo v).mt = s.mt := State.regSet_mt
@[simp] theorem State.setFld_bond {a hi lo v : Nat} : (s.setFld a hi lo v).bond = s.bond := State.regSet_bond
@[simp] theorem State.setFld_line {a hi lo v : Nat} : (s.setFld a hi lo v).line = s.line := State.regSet_line
@[simp] theorem State.setFld_plumb {a hi lo v : Nat} : (s.setFld a hi lo v).plumb = s.plumb := State.regSet_plumb
@[simp] theorem State.setFld_power {a hi lo v : Nat} : (s.setFld a hi lo v).power = s.power := State.regSet_power
@[simp] theorem State.setFld_test {a hi lo v : Nat} : (s.setFld a hi lo v).test = s.test := State.regSet_test
@[simp] theorem State.setFld_mgmt {a hi lo v : Nat} : (s.setFld a hi lo v).mgmt = s.mgmt := State.regSet_mgmt
@[simp] theorem State.setFld_sdio {a hi lo v : Nat} : (s.setFld a hi lo v).sdio = s.sdio := State.regSet_sdio
@[simp] theorem State.setFld_pending {a hi lo v : Nat} : (s.setFld a hi lo v).pending = s.pending := State.regSet_pending
/-! ### bumpHi -/
@[simp] theorem State.bumpHi_part {a k : Nat} : (s.bumpHi a k).part = s.part := State.setFld_part
@[simp] theorem State.bumpHi_now {a k : Nat} : (s.bumpHi a k).now = s.now := State.setFld_now
@[simp] theorem State.bumpHi_mem {a k : Nat} : (s.bumpHi a k).mem = s.mem := State.setFld_mem
@[simp] theorem State.bumpHi_snaps {a k : Nat} : (s.bumpHi a k).snaps = s.snaps := State.setFld_snaps
@[simp] theorem State.bumpHi_cyc {a k : Nat} : (s.bumpHi a k).cyc = s.cyc := State.setFld_cyc
@[simp] theorem State.bumpHi_cycAt {a k : Nat} : (s.bumpHi a k).cycAt = s.cycAt := State.setFld_cycAt
@[simp] theorem State.bumpHi_freq {a k : Nat} : (s.bumpHi a k).freq = s.freq := State.setFld_freq
@[simp] theorem State.bumpHi_changing {a k : Nat} : (s.bumpHi a k).changing = s.changing := State.setFld_changing
@[simp] theorem State.bumpHi_fresh {a k : Nat} : (s.bumpHi a k).fresh = s.fresh := State.setFld_fresh
@[simp] theorem State.bumpHi_course {a k : Nat} : (s.bumpHi a k).course = s.course := State.setFld_course
@[simp] theorem State.bumpHi_tn {a k : Nat} : (s.bumpHi a k).tn = s.tn := State.setFld_tn
@[simp] theorem State.bumpHi_acq {a k : Nat} : (s.bumpHi a k).acq = s.acq := State.setFld_acq
@[simp] theorem State.bumpHi_die {a k : Nat} : (s.bumpHi a k).die = s.die := State.setFld_die
@[simp] theorem State.bumpHi_stream {a k : Nat} : (s.bumpHi a k).stream = s.stream := State.setFld_stream
@[simp] theorem State.bumpHi_kv {a k : Nat} : (s.bumpHi a k).kv = s.kv := State.setFld_kv
@[simp] theorem State.bumpHi_adapt {a k : Nat} : (s.bumpHi a k).adapt = s.adapt := State.setFld_adapt
@[simp] theorem State.bumpHi_mt {a k : Nat} : (s.bumpHi a k).mt = s.mt := State.setFld_mt
@[simp] theorem State.bumpHi_bond {a k : Nat} : (s.bumpHi a k).bond = s.bond := State.setFld_bond
@[simp] theorem State.bumpHi_line {a k : Nat} : (s.bumpHi a k).line = s.line := State.setFld_line
@[simp] theorem State.bumpHi_plumb {a k : Nat} : (s.bumpHi a k).plumb = s.plumb := State.setFld_plumb
@[simp] theorem State.bumpHi_power {a k : Nat} : (s.bumpHi a k).power = s.power := State.setFld_power
@[simp] theorem State.bumpHi_test {a k : Nat} : (s.bumpHi a k).test = s.test := State.setFld_test
@[simp] theorem State.bumpHi_mgmt {a k : Nat} : (s.bumpHi a k).mgmt = s.mgmt := State.setFld_mgmt
@[simp] theorem State.bumpHi_sdio {a k : Nat} : (s.bumpHi a k).sdio = s.sdio := State.setFld_sdio
@[simp] theorem State.bumpHi_pending {a k : Nat} : (s.bumpHi a k).pending = s.pending := State.setFld_pending
/-! ### bumpLo -/
@[simp] theorem State.bumpLo_part {a k : Nat} : (s.bumpLo a k).part = s.part := State.setFld_part
@[simp] theorem State.bumpLo_now {a k : Nat} : (s.bumpLo a k).now = s.now := State.setFld_now
@[simp] theorem State.bumpLo_mem {a k : Nat} : (s.bumpLo a k).mem = s.mem := State.setFld_mem
@[simp] theorem State.bumpLo_snaps {a k : Nat} : (s.bumpLo a k).snaps = s.snaps := State.setFld_snaps
@[simp] theorem State.bumpLo_cyc {a k : Nat} : (s.bumpLo a k).cyc = s.cyc := State.setFld_cyc
@[simp] theorem State.bumpLo_cycAt {a k : Nat} : (s.bumpLo a k).cycAt = s.cycAt := State.setFld_cycAt
@[simp] theorem State.bumpLo_freq {a k : Nat} : (s.bumpLo a k).freq = s.freq := State.setFld_freq
@[simp] theorem State.bumpLo_changing {a k : Nat} : (s.bumpLo a k).changing = s.changing := State.setFld_changing
@[simp] theorem State.bumpLo_fresh {a k : Nat} : (s.bumpLo a k).fresh = s.fresh := State.setFld_fresh
@[simp] theorem State.bumpLo_course {a k : Nat} : (s.bumpLo a k).course = s.course := State.setFld_course
@[simp] theorem State.bumpLo_tn {a k : Nat} : (s.bumpLo a k).tn = s.tn := State.setFld_tn
@[simp] theorem State.bumpLo_acq {a k : Nat} : (s.bumpLo a k).acq = s.acq := State.setFld_acq
@[simp] theorem State.bumpLo_die {a k : Nat} : (s.bumpLo a k).die = s.die := State.setFld_die
@[simp] theorem State.bumpLo_stream {a k : Nat} : (s.bumpLo a k).stream = s.stream := State.setFld_stream
@[simp] theorem State.bumpLo_kv {a k : Nat} : (s.bumpLo a k).kv = s.kv := State.setFld_kv
@[simp] theorem State.bumpLo_adapt {a k : Nat} : (s.bumpLo a k).adapt = s.adapt := State.setFld_adapt
@[simp] theorem State.bumpLo_mt {a k : Nat} : (s.bumpLo a k).mt = s.mt := State.setFld_mt
@[simp] theorem State.bumpLo_bond {a k : Nat} : (s.bumpLo a k).bond = s.bond := State.setFld_bond
@[simp] theorem State.bumpLo_line {a k : Nat} : (s.bumpLo a k).line = s.line := State.setFld_line
@[simp] theorem State.bumpLo_plumb {a k : Nat} : (s.bumpLo a k).plumb = s.plumb := State.setFld_plumb
@[simp] theorem State.bumpLo_power {a k : Nat} : (s.bumpLo a k).power = s.power := State.setFld_power
@[simp] theorem State.bumpLo_test {a k : Nat} : (s.bumpLo a k).test = s.test := State.setFld_test
@[simp] theorem State.bumpLo_mgmt {a k : Nat} : (s.bumpLo a k).mgmt = s.mgmt := State.setFld_mgmt
@[simp] theorem State.bumpLo_sdio {a k : Nat} : (s.bumpLo a k).sdio = s.sdio := State.setFld_sdio
@[simp] theorem State.bumpLo_pending {a k : Nat} : (s.bumpLo a k).pending = s.pending := State.setFld_pending
/-! ### The registers -/
@[simp] theorem State.regSet_regGet_self {a : Nat} {w : Word} : (s.regSet a w).regGet a = w := tget_tset_self _ _ _ _
theorem State.regSet_regGet_ne {a b : Nat} {w : Word} (h : b ≠ a) : (s.regSet a w).regGet b = s.regGet b := tget_tset_ne _ _ _ _ _ h
theorem State.regSet_regGet {a b : Nat} {w : Word} : (s.regSet a w).regGet b = if b = a then w else s.regGet b := by
  split
  · next h => subst h; exact State.regSet_regGet_self
  · next h => exact State.regSet_regGet_ne h
@[simp] theorem State.bump_regGet_self {a k : Nat} : (s.bump a k).regGet a = s.regGet a + wordOf k := State.regSet_regGet_self
theorem State.bump_regGet_ne {a b k : Nat} (h : b ≠ a) : (s.bump a k).regGet b = s.regGet b := State.regSet_regGet_ne h
theorem State.setFld_regGet_ne {a b hi lo v : Nat} (h : b ≠ a) : (s.setFld a hi lo v).regGet b = s.regGet b :=
  State.regSet_regGet_ne h

/-! ### Tables -/
@[simp] theorem lmod_length {α : Type} {l : List α} {i : Nat} {f : α → α} : (lmod l i f).length = l.length := List.length_modify ..
theorem lget_lmod_self {α : Type} {d : α} {l : List α} {i : Nat} {f : α → α} (h : i < l.length) :
    lget d (lmod l i f) i = f (lget d l i) := by
  simp [lget, lmod, h]
@[simp] theorem lmod_lmod {α : Type} {l : List α} {i : Nat} {f g : α → α} : lmod (lmod l i f) i g = lmod l i (g ∘ f) := by
  induction l generalizing i with
  | nil => cases i <;> rfl
  | cons x l ih => cases i with
    | zero => rfl
    | succ i => exact congrArg (x :: ·) ih
theorem lget_lmod_ne {α : Type} {d : α} {l : List α} {i j : Nat} {f : α → α} (h : j ≠ i) :
    lget d (lmod l i f) j = lget d l j := by
  simp [lget, lmod, Ne.symm h]

/-! ### A unit of a table, by its number -/
@[simp] theorem State.updEnc_eq {i : Nat} {f} : s.updEnc i f = s.updCourse (fun x => { x with enc := lmod x.enc i f }) := rfl
@[simp] theorem State.updLg_eq {i : Nat} {f} : s.updLg i f = s.updCourse (fun x => { x with lg := lmod x.lg i f }) := rfl
@[simp] theorem State.updCrs_eq {i : Nat} {f} : s.updCrs i f = s.updCourse (fun x => { x with out := lmod x.out i f }) := rfl
@[simp] theorem State.updProg_eq {i : Nat} {f} : s.updProg i f = s.updCourse (fun x => { x with prog := lmod x.prog i f }) := rfl
@[simp] theorem State.updDom_eq {i : Nat} {f} : s.updDom i f = s.updTn (fun x => { x with dom := lmod x.dom i f }) := rfl
@[simp] theorem State.updTpo_eq {i : Nat} {f} : s.updTpo i f = s.updTn (fun x => { x with tpo := lmod x.tpo i f }) := rfl
@[simp] theorem State.updTcap_eq {i : Nat} {f} : s.updTcap i f = s.updTn (fun x => { x with tcap := lmod x.tcap i f }) := rfl
@[simp] theorem State.updPort_eq {i : Nat} {f} : s.updPort i f = s.updTn (fun x => { x with port := lmod x.port i f }) := rfl
@[simp] theorem State.updDst_eq {i : Nat} {f} : s.updDst i f = s.updTn (fun x => { x with dst := lmod x.dst i f }) := rfl
@[simp] theorem State.updGrp_eq {i : Nat} {f} : s.updGrp i f = s.updAcq (fun x => { x with grp := lmod x.grp i f }) := rfl
@[simp] theorem State.updSrc_eq {i : Nat} {f} : s.updSrc i f = s.updAcq (fun x => { x with src := lmod x.src i f }) := rfl
@[simp] theorem State.updQch_eq {i : Nat} {f} : s.updQch i f = s.updMt (fun x => { x with qch := lmod x.qch i f }) := rfl
@[simp] theorem State.updAx_eq {i : Nat} {f} : s.updAx i f = s.updLine (fun x => { x with axis := lmod x.axis i f }) := rfl
@[simp] theorem State.updAxGrp_eq {i : Nat} {f} : s.updAxGrp i f = s.updLine (fun x => { x with grp := lmod x.grp i f }) := rfl
@[simp] theorem State.updQp_eq {i : Nat} {f} : s.updQp i f = s.updLine (fun x => { x with qp := lmod x.qp i f }) := rfl
@[simp] theorem State.updCar_eq {i : Nat} {f} : s.updCar i f = s.updLine (fun x => { x with car := lmod x.car i f }) := rfl
@[simp] theorem State.updTarget_eq {i : Nat} {f} : s.updTarget i f = s.updPlumb (fun x => { x with targets := lmod x.targets i f }) := rfl
@[simp] theorem State.updStage_eq {i : Nat} {f} : s.updStage i f = s.updPlumb (fun x => { x with stages := lmod x.stages i f }) := rfl
@[simp] theorem State.updInj_eq {i : Nat} {f} : s.updInj i f = s.updTest (fun x => { x with inj := lmod x.inj i f }) := rfl
@[simp] theorem State.updCore_eq {d i : Nat} {f} : s.updCore d i f = s.updDie d (fun x => { x with core := lmod x.core i f }) := rfl
@[simp] theorem State.updSlot_eq {d i : Nat} {f} : s.updSlot d i f = s.updDie d (fun x => { x with slot := lmod x.slot i f }) := rfl

end Sys2Proof.Machine
end

