-- ==== Sys2Proof/Laws/Frames.lean ====
section
/-! SUPPORT. The fields that the operations every unit uses leave alone (Laws/Only*.lean), as equations for simp. -/
namespace Sys2Proof.Machine
set_option Elab.async false

variable {s : State}

/-! ### raise -/
theorem State.raise_in {a b c : Nat} : OnlyIn [.regs, .tn, .sdio] s (s.raise a b c) := State.raise_only (by decide) (OnlyIn.refl _ _)
@[simp] theorem State.raise_part {a b c : Nat} : (s.raise a b c).part = s.part := State.raise_in.eq .part
@[simp] theorem State.raise_now {a b c : Nat} : (s.raise a b c).now = s.now := State.raise_in.eq .now
@[simp] theorem State.raise_mem {a b c : Nat} : (s.raise a b c).mem = s.mem := State.raise_in.eq .mem
@[simp] theorem State.raise_snaps {a b c : Nat} : (s.raise a b c).snaps = s.snaps := State.raise_in.eq .snaps
@[simp] theorem State.raise_cyc {a b c : Nat} : (s.raise a b c).cyc = s.cyc := State.raise_in.eq .cyc
@[simp] theorem State.raise_cycAt {a b c : Nat} : (s.raise a b c).cycAt = s.cycAt := State.raise_in.eq .cycAt
@[simp] theorem State.raise_freq {a b c : Nat} : (s.raise a b c).freq = s.freq := State.raise_in.eq .freq
@[simp] theorem State.raise_changing {a b c : Nat} : (s.raise a b c).changing = s.changing := State.raise_in.eq .changing
@[simp] theorem State.raise_fresh {a b c : Nat} : (s.raise a b c).fresh = s.fresh := State.raise_in.eq .fresh
@[simp] theorem State.raise_course {a b c : Nat} : (s.raise a b c).course = s.course := State.raise_in.eq .course
@[simp] theorem State.raise_acq {a b c : Nat} : (s.raise a b c).acq = s.acq := State.raise_in.eq .acq
@[simp] theorem State.raise_die {a b c : Nat} : (s.raise a b c).die = s.die := State.raise_in.eq .die
@[simp] theorem State.raise_stream {a b c : Nat} : (s.raise a b c).stream = s.stream := State.raise_in.eq .stream
@[simp] theorem State.raise_kv {a b c : Nat} : (s.raise a b c).kv = s.kv := State.raise_in.eq .kv
@[simp] theorem State.raise_adapt {a b c : Nat} : (s.raise a b c).adapt = s.adapt := State.raise_in.eq .adapt
@[simp] theorem State.raise_mt {a b c : Nat} : (s.raise a b c).mt = s.mt := State.raise_in.eq .mt
@[simp] theorem State.raise_bond {a b c : Nat} : (s.raise a b c).bond = s.bond := State.raise_in.eq .bond
@[simp] theorem State.raise_line {a b c : Nat} : (s.raise a b c).line = s.line := State.raise_in.eq .line
@[simp] theorem State.raise_plumb {a b c : Nat} : (s.raise a b c).plumb = s.plumb := State.raise_in.eq .plumb
@[simp] theorem State.raise_power {a b c : Nat} : (s.raise a b c).power = s.power := State.raise_in.eq .power
@[simp] theorem State.raise_test {a b c : Nat} : (s.raise a b c).test = s.test := State.raise_in.eq .test
@[simp] theorem State.raise_mgmt {a b c : Nat} : (s.raise a b c).mgmt = s.mgmt := State.raise_in.eq .mgmt
@[simp] theorem State.raise_pending {a b c : Nat} : (s.raise a b c).pending = s.pending := State.raise_in.eq .pending
/-! ### emit -/
theorem State.emit_in {a b : Nat} {l : List Byte} : OnlyIn [.regs, .tn, .sdio] s (s.emit a b l) := State.emit_only (by decide) (OnlyIn.refl _ _)
@[simp] theorem State.emit_part {a b : Nat} {l : List Byte} : (s.emit a b l).part = s.part := State.emit_in.eq .part
@[simp] theorem State.emit_now {a b : Nat} {l : List Byte} : (s.emit a b l).now = s.now := State.emit_in.eq .now
@[simp] theorem State.emit_mem {a b : Nat} {l : List Byte} : (s.emit a b l).mem = s.mem := State.emit_in.eq .mem
@[simp] theorem State.emit_snaps {a b : Nat} {l : List Byte} : (s.emit a b l).snaps = s.snaps := State.emit_in.eq .snaps
@[simp] theorem State.emit_cyc {a b : Nat} {l : List Byte} : (s.emit a b l).cyc = s.cyc := State.emit_in.eq .cyc
@[simp] theorem State.emit_cycAt {a b : Nat} {l : List Byte} : (s.emit a b l).cycAt = s.cycAt := State.emit_in.eq .cycAt
@[simp] theorem State.emit_freq {a b : Nat} {l : List Byte} : (s.emit a b l).freq = s.freq := State.emit_in.eq .freq
@[simp] theorem State.emit_changing {a b : Nat} {l : List Byte} : (s.emit a b l).changing = s.changing := State.emit_in.eq .changing
@[simp] theorem State.emit_fresh {a b : Nat} {l : List Byte} : (s.emit a b l).fresh = s.fresh := State.emit_in.eq .fresh
@[simp] theorem State.emit_course {a b : Nat} {l : List Byte} : (s.emit a b l).course = s.course := State.emit_in.eq .course
@[simp] theorem State.emit_acq {a b : Nat} {l : List Byte} : (s.emit a b l).acq = s.acq := State.emit_in.eq .acq
@[simp] theorem State.emit_die {a b : Nat} {l : List Byte} : (s.emit a b l).die = s.die := State.emit_in.eq .die
@[simp] theorem State.emit_stream {a b : Nat} {l : List Byte} : (s.emit a b l).stream = s.stream := State.emit_in.eq .stream
@[simp] theorem State.emit_kv {a b : Nat} {l : List Byte} : (s.emit a b l).kv = s.kv := State.emit_in.eq .kv
@[simp] theorem State.emit_adapt {a b : Nat} {l : List Byte} : (s.emit a b l).adapt = s.adapt := State.emit_in.eq .adapt
@[simp] theorem State.emit_mt {a b : Nat} {l : List Byte} : (s.emit a b l).mt = s.mt := State.emit_in.eq .mt
@[simp] theorem State.emit_bond {a b : Nat} {l : List Byte} : (s.emit a b l).bond = s.bond := State.emit_in.eq .bond
@[simp] theorem State.emit_line {a b : Nat} {l : List Byte} : (s.emit a b l).line = s.line := State.emit_in.eq .line
@[simp] theorem State.emit_plumb {a b : Nat} {l : List Byte} : (s.emit a b l).plumb = s.plumb := State.emit_in.eq .plumb
@[simp] theorem State.emit_power {a b : Nat} {l : List Byte} : (s.emit a b l).power = s.power := State.emit_in.eq .power
@[simp] theorem State.emit_test {a b : Nat} {l : List Byte} : (s.emit a b l).test = s.test := State.emit_in.eq .test
@[simp] theorem State.emit_mgmt {a b : Nat} {l : List Byte} : (s.emit a b l).mgmt = s.mgmt := State.emit_in.eq .mgmt
@[simp] theorem State.emit_pending {a b : Nat} {l : List Byte} : (s.emit a b l).pending = s.pending := State.emit_in.eq .pending
/-! ### log -/
theorem State.log_in {e : LogEntry} : OnlyIn [.sdio] s (s.log e) := State.log_only (by decide) (OnlyIn.refl _ _)
@[simp] theorem State.log_part {e : LogEntry} : (s.log e).part = s.part := State.log_in.eq .part
@[simp] theorem State.log_now {e : LogEntry} : (s.log e).now = s.now := State.log_in.eq .now
@[simp] theorem State.log_regs {e : LogEntry} : (s.log e).regs = s.regs := State.log_in.eq .regs
@[simp] theorem State.log_mem {e : LogEntry} : (s.log e).mem = s.mem := State.log_in.eq .mem
@[simp] theorem State.log_snaps {e : LogEntry} : (s.log e).snaps = s.snaps := State.log_in.eq .snaps
@[simp] theorem State.log_cyc {e : LogEntry} : (s.log e).cyc = s.cyc := State.log_in.eq .cyc
@[simp] theorem State.log_cycAt {e : LogEntry} : (s.log e).cycAt = s.cycAt := State.log_in.eq .cycAt
@[simp] theorem State.log_freq {e : LogEntry} : (s.log e).freq = s.freq := State.log_in.eq .freq
@[simp] theorem State.log_changing {e : LogEntry} : (s.log e).changing = s.changing := State.log_in.eq .changing
@[simp] theorem State.log_fresh {e : LogEntry} : (s.log e).fresh = s.fresh := State.log_in.eq .fresh
@[simp] theorem State.log_course {e : LogEntry} : (s.log e).course = s.course := State.log_in.eq .course
@[simp] theorem State.log_tn {e : LogEntry} : (s.log e).tn = s.tn := State.log_in.eq .tn
@[simp] theorem State.log_acq {e : LogEntry} : (s.log e).acq = s.acq := State.log_in.eq .acq
@[simp] theorem State.log_die {e : LogEntry} : (s.log e).die = s.die := State.log_in.eq .die
@[simp] theorem State.log_stream {e : LogEntry} : (s.log e).stream = s.stream := State.log_in.eq .stream
@[simp] theorem State.log_kv {e : LogEntry} : (s.log e).kv = s.kv := State.log_in.eq .kv
@[simp] theorem State.log_adapt {e : LogEntry} : (s.log e).adapt = s.adapt := State.log_in.eq .adapt
@[simp] theorem State.log_mt {e : LogEntry} : (s.log e).mt = s.mt := State.log_in.eq .mt
@[simp] theorem State.log_bond {e : LogEntry} : (s.log e).bond = s.bond := State.log_in.eq .bond
@[simp] theorem State.log_line {e : LogEntry} : (s.log e).line = s.line := State.log_in.eq .line
@[simp] theorem State.log_plumb {e : LogEntry} : (s.log e).plumb = s.plumb := State.log_in.eq .plumb
@[simp] theorem State.log_power {e : LogEntry} : (s.log e).power = s.power := State.log_in.eq .power
@[simp] theorem State.log_test {e : LogEntry} : (s.log e).test = s.test := State.log_in.eq .test
@[simp] theorem State.log_mgmt {e : LogEntry} : (s.log e).mgmt = s.mgmt := State.log_in.eq .mgmt
@[simp] theorem State.log_pending {e : LogEntry} : (s.log e).pending = s.pending := State.log_in.eq .pending
/-! ### reply -/
theorem State.reply_in {p : Packet} {n : Nat} {l : List Byte} : OnlyIn [.sdio] s (s.reply p n l) := State.reply_only (by decide) (OnlyIn.refl _ _)
@[simp] theorem State.reply_part {p : Packet} {n : Nat} {l : List Byte} : (s.reply p n l).part = s.part := State.reply_in.eq .part
@[simp] theorem State.reply_now {p : Packet} {n : Nat} {l : List Byte} : (s.reply p n l).now = s.now := State.reply_in.eq .now
@[simp] theorem State.reply_regs {p : Packet} {n : Nat} {l : List Byte} : (s.reply p n l).regs = s.regs := State.reply_in.eq .regs
@[simp] theorem State.reply_mem {p : Packet} {n : Nat} {l : List Byte} : (s.reply p n l).mem = s.mem := State.reply_in.eq .mem
@[simp] theorem State.reply_snaps {p : Packet} {n : Nat} {l : List Byte} : (s.reply p n l).snaps = s.snaps := State.reply_in.eq .snaps
@[simp] theorem State.reply_cyc {p : Packet} {n : Nat} {l : List Byte} : (s.reply p n l).cyc = s.cyc := State.reply_in.eq .cyc
@[simp] theorem State.reply_cycAt {p : Packet} {n : Nat} {l : List Byte} : (s.reply p n l).cycAt = s.cycAt := State.reply_in.eq .cycAt
@[simp] theorem State.reply_freq {p : Packet} {n : Nat} {l : List Byte} : (s.reply p n l).freq = s.freq := State.reply_in.eq .freq
@[simp] theorem State.reply_changing {p : Packet} {n : Nat} {l : List Byte} : (s.reply p n l).changing = s.changing := State.reply_in.eq .changing
@[simp] theorem State.reply_fresh {p : Packet} {n : Nat} {l : List Byte} : (s.reply p n l).fresh = s.fresh := State.reply_in.eq .fresh
@[simp] theorem State.reply_course {p : Packet} {n : Nat} {l : List Byte} : (s.reply p n l).course = s.course := State.reply_in.eq .course
@[simp] theorem State.reply_tn {p : Packet} {n : Nat} {l : List Byte} : (s.reply p n l).tn = s.tn := State.reply_in.eq .tn
@[simp] theorem State.reply_acq {p : Packet} {n : Nat} {l : List Byte} : (s.reply p n l).acq = s.acq := State.reply_in.eq .acq
@[simp] theorem State.reply_die {p : Packet} {n : Nat} {l : List Byte} : (s.reply p n l).die = s.die := State.reply_in.eq .die
@[simp] theorem State.reply_stream {p : Packet} {n : Nat} {l : List Byte} : (s.reply p n l).stream = s.stream := State.reply_in.eq .stream
@[simp] theorem State.reply_kv {p : Packet} {n : Nat} {l : List Byte} : (s.reply p n l).kv = s.kv := State.reply_in.eq .kv
@[simp] theorem State.reply_adapt {p : Packet} {n : Nat} {l : List Byte} : (s.reply p n l).adapt = s.adapt := State.reply_in.eq .adapt
@[simp] theorem State.reply_mt {p : Packet} {n : Nat} {l : List Byte} : (s.reply p n l).mt = s.mt := State.reply_in.eq .mt
@[simp] theorem State.reply_bond {p : Packet} {n : Nat} {l : List Byte} : (s.reply p n l).bond = s.bond := State.reply_in.eq .bond
@[simp] theorem State.reply_line {p : Packet} {n : Nat} {l : List Byte} : (s.reply p n l).line = s.line := State.reply_in.eq .line
@[simp] theorem State.reply_plumb {p : Packet} {n : Nat} {l : List Byte} : (s.reply p n l).plumb = s.plumb := State.reply_in.eq .plumb
@[simp] theorem State.reply_power {p : Packet} {n : Nat} {l : List Byte} : (s.reply p n l).power = s.power := State.reply_in.eq .power
@[simp] theorem State.reply_test {p : Packet} {n : Nat} {l : List Byte} : (s.reply p n l).test = s.test := State.reply_in.eq .test
@[simp] theorem State.reply_mgmt {p : Packet} {n : Nat} {l : List Byte} : (s.reply p n l).mgmt = s.mgmt := State.reply_in.eq .mgmt
@[simp] theorem State.reply_pending {p : Packet} {n : Nat} {l : List Byte} : (s.reply p n l).pending = s.pending := State.reply_in.eq .pending
/-! ### xcheck -/
theorem State.xcheck_in : OnlyIn [.regs, .course, .tn, .sdio] s (s.xcheck) := State.xcheck_only (by decide) (OnlyIn.refl _ _)
@[simp] theorem State.xcheck_part : (s.xcheck).part = s.part := State.xcheck_in.eq .part
@[simp] theorem State.xcheck_now : (s.xcheck).now = s.now := State.xcheck_in.eq .now
@[simp] theorem State.xcheck_mem : (s.xcheck).mem = s.mem := State.xcheck_in.eq .mem
@[simp] theorem State.xcheck_snaps : (s.xcheck).snaps = s.snaps := State.xcheck_in.eq .snaps
@[simp] theorem State.xcheck_cyc : (s.xcheck).cyc = s.cyc := State.xcheck_in.eq .cyc
@[simp] theorem State.xcheck_cycAt : (s.xcheck).cycAt = s.cycAt := State.xcheck_in.eq .cycAt
@[simp] theorem State.xcheck_freq : (s.xcheck).freq = s.freq := State.xcheck_in.eq .freq
@[simp] theorem State.xcheck_changing : (s.xcheck).changing = s.changing := State.xcheck_in.eq .changing
@[simp] theorem State.xcheck_fresh : (s.xcheck).fresh = s.fresh := State.xcheck_in.eq .fresh
@[simp] theorem State.xcheck_acq : (s.xcheck).acq = s.acq := State.xcheck_in.eq .acq
@[simp] theorem State.xcheck_die : (s.xcheck).die = s.die := State.xcheck_in.eq .die
@[simp] theorem State.xcheck_stream : (s.xcheck).stream = s.stream := State.xcheck_in.eq .stream
@[simp] theorem State.xcheck_kv : (s.xcheck).kv = s.kv := State.xcheck_in.eq .kv
@[simp] theorem State.xcheck_adapt : (s.xcheck).adapt = s.adapt := State.xcheck_in.eq .adapt
@[simp] theorem State.xcheck_mt : (s.xcheck).mt = s.mt := State.xcheck_in.eq .mt
@[simp] theorem State.xcheck_bond : (s.xcheck).bond = s.bond := State.xcheck_in.eq .bond
@[simp] theorem State.xcheck_line : (s.xcheck).line = s.line := State.xcheck_in.eq .line
@[simp] theorem State.xcheck_plumb : (s.xcheck).plumb = s.plumb := State.xcheck_in.eq .plumb
@[simp] theorem State.xcheck_power : (s.xcheck).power = s.power := State.xcheck_in.eq .power
@[simp] theorem State.xcheck_test : (s.xcheck).test = s.test := State.xcheck_in.eq .test
@[simp] theorem State.xcheck_mgmt : (s.xcheck).mgmt = s.mgmt := State.xcheck_in.eq .mgmt
@[simp] theorem State.xcheck_pending : (s.xcheck).pending = s.pending := State.xcheck_in.eq .pending
/-! ### evalSource -/
theorem State.evalSource_in : OnlyIn [.regs, .course, .tn, .sdio] s (s.evalSource) := State.evalSource_only (by decide) (OnlyIn.refl _ _)
@[simp] theorem State.evalSource_part : (s.evalSource).part = s.part := State.evalSource_in.eq .part
@[simp] theorem State.evalSource_now : (s.evalSource).now = s.now := State.evalSource_in.eq .now
@[simp] theorem State.evalSource_mem : (s.evalSource).mem = s.mem := State.evalSource_in.eq .mem
@[simp] theorem State.evalSource_snaps : (s.evalSource).snaps = s.snaps := State.evalSource_in.eq .snaps
@[simp] theorem State.evalSource_cyc : (s.evalSource).cyc = s.cyc := State.evalSource_in.eq .cyc
@[simp] theorem State.evalSource_cycAt : (s.evalSource).cycAt = s.cycAt := State.evalSource_in.eq .cycAt
@[simp] theorem State.evalSource_freq : (s.evalSource).freq = s.freq := State.evalSource_in.eq .freq
@[simp] theorem State.evalSource_changing : (s.evalSource).changing = s.changing := State.evalSource_in.eq .changing
@[simp] theorem State.evalSource_fresh : (s.evalSource).fresh = s.fresh := State.evalSource_in.eq .fresh
@[simp] theorem State.evalSource_acq : (s.evalSource).acq = s.acq := State.evalSource_in.eq .acq
@[simp] theorem State.evalSource_die : (s.evalSource).die = s.die := State.evalSource_in.eq .die
@[simp] theorem State.evalSource_stream : (s.evalSource).stream = s.stream := State.evalSource_in.eq .stream
@[simp] theorem State.evalSource_kv : (s.evalSource).kv = s.kv := State.evalSource_in.eq .kv
@[simp] theorem State.evalSource_adapt : (s.evalSource).adapt = s.adapt := State.evalSource_in.eq .adapt
@[simp] theorem State.evalSource_mt : (s.evalSource).mt = s.mt := State.evalSource_in.eq .mt
@[simp] theorem State.evalSource_bond : (s.evalSource).bond = s.bond := State.evalSource_in.eq .bond
@[simp] theorem State.evalSource_line : (s.evalSource).line = s.line := State.evalSource_in.eq .line
@[simp] theorem State.evalSource_plumb : (s.evalSource).plumb = s.plumb := State.evalSource_in.eq .plumb
@[simp] theorem State.evalSource_power : (s.evalSource).power = s.power := State.evalSource_in.eq .power
@[simp] theorem State.evalSource_test : (s.evalSource).test = s.test := State.evalSource_in.eq .test
@[simp] theorem State.evalSource_mgmt : (s.evalSource).mgmt = s.mgmt := State.evalSource_in.eq .mgmt
@[simp] theorem State.evalSource_pending : (s.evalSource).pending = s.pending := State.evalSource_in.eq .pending
/-! ### encFault -/
theorem State.encFault_in {n : Nat} : OnlyIn [.regs, .course, .tn, .sdio] s (s.encFault n) := State.encFault_only (by decide) (OnlyIn.refl _ _)
@[simp] theorem State.encFault_part {n : Nat} : (s.encFault n).part = s.part := State.encFault_in.eq .part
@[simp] theorem State.encFault_now {n : Nat} : (s.encFault n).now = s.now := State.encFault_in.eq .now
@[simp] theorem State.encFault_mem {n : Nat} : (s.encFault n).mem = s.mem := State.encFault_in.eq .mem
@[simp] theorem State.encFault_snaps {n : Nat} : (s.encFault n).snaps = s.snaps := State.encFault_in.eq .snaps
@[simp] theorem State.encFault_cyc {n : Nat} : (s.encFault n).cyc = s.cyc := State.encFault_in.eq .cyc
@[simp] theorem State.encFault_cycAt {n : Nat} : (s.encFault n).cycAt = s.cycAt := State.encFault_in.eq .cycAt
@[simp] theorem State.encFault_freq {n : Nat} : (s.encFault n).freq = s.freq := State.encFault_in.eq .freq
@[simp] theorem State.encFault_changing {n : Nat} : (s.encFault n).changing = s.changing := State.encFault_in.eq .changing
@[simp] theorem State.encFault_fresh {n : Nat} : (s.encFault n).fresh = s.fresh := State.encFault_in.eq .fresh
@[simp] theorem State.encFault_acq {n : Nat} : (s.encFault n).acq = s.acq := State.encFault_in.eq .acq
@[simp] theorem State.encFault_die {n : Nat} : (s.encFault n).die = s.die := State.encFault_in.eq .die
@[simp] theorem State.encFault_stream {n : Nat} : (s.encFault n).stream = s.stream := State.encFault_in.eq .stream
@[simp] theorem State.encFault_kv {n : Nat} : (s.encFault n).kv = s.kv := State.encFault_in.eq .kv
@[simp] theorem State.encFault_adapt {n : Nat} : (s.encFault n).adapt = s.adapt := State.encFault_in.eq .adapt
@[simp] theorem State.encFault_mt {n : Nat} : (s.encFault n).mt = s.mt := State.encFault_in.eq .mt
@[simp] theorem State.encFault_bond {n : Nat} : (s.encFault n).bond = s.bond := State.encFault_in.eq .bond
@[simp] theorem State.encFault_line {n : Nat} : (s.encFault n).line = s.line := State.encFault_in.eq .line
@[simp] theorem State.encFault_plumb {n : Nat} : (s.encFault n).plumb = s.plumb := State.encFault_in.eq .plumb
@[simp] theorem State.encFault_power {n : Nat} : (s.encFault n).power = s.power := State.encFault_in.eq .power
@[simp] theorem State.encFault_test {n : Nat} : (s.encFault n).test = s.test := State.encFault_in.eq .test
@[simp] theorem State.encFault_mgmt {n : Nat} : (s.encFault n).mgmt = s.mgmt := State.encFault_in.eq .mgmt
@[simp] theorem State.encFault_pending {n : Nat} : (s.encFault n).pending = s.pending := State.encFault_in.eq .pending
/-! ### encError -/
theorem State.encError_in {n : Nat} : OnlyIn [.regs, .course, .tn, .sdio] s (s.encError n) := State.encError_only (by decide) (OnlyIn.refl _ _)
@[simp] theorem State.encError_part {n : Nat} : (s.encError n).part = s.part := State.encError_in.eq .part
@[simp] theorem State.encError_now {n : Nat} : (s.encError n).now = s.now := State.encError_in.eq .now
@[simp] theorem State.encError_mem {n : Nat} : (s.encError n).mem = s.mem := State.encError_in.eq .mem
@[simp] theorem State.encError_snaps {n : Nat} : (s.encError n).snaps = s.snaps := State.encError_in.eq .snaps
@[simp] theorem State.encError_cyc {n : Nat} : (s.encError n).cyc = s.cyc := State.encError_in.eq .cyc
@[simp] theorem State.encError_cycAt {n : Nat} : (s.encError n).cycAt = s.cycAt := State.encError_in.eq .cycAt
@[simp] theorem State.encError_freq {n : Nat} : (s.encError n).freq = s.freq := State.encError_in.eq .freq
@[simp] theorem State.encError_changing {n : Nat} : (s.encError n).changing = s.changing := State.encError_in.eq .changing
@[simp] theorem State.encError_fresh {n : Nat} : (s.encError n).fresh = s.fresh := State.encError_in.eq .fresh
@[simp] theorem State.encError_acq {n : Nat} : (s.encError n).acq = s.acq := State.encError_in.eq .acq
@[simp] theorem State.encError_die {n : Nat} : (s.encError n).die = s.die := State.encError_in.eq .die
@[simp] theorem State.encError_stream {n : Nat} : (s.encError n).stream = s.stream := State.encError_in.eq .stream
@[simp] theorem State.encError_kv {n : Nat} : (s.encError n).kv = s.kv := State.encError_in.eq .kv
@[simp] theorem State.encError_adapt {n : Nat} : (s.encError n).adapt = s.adapt := State.encError_in.eq .adapt
@[simp] theorem State.encError_mt {n : Nat} : (s.encError n).mt = s.mt := State.encError_in.eq .mt
@[simp] theorem State.encError_bond {n : Nat} : (s.encError n).bond = s.bond := State.encError_in.eq .bond
@[simp] theorem State.encError_line {n : Nat} : (s.encError n).line = s.line := State.encError_in.eq .line
@[simp] theorem State.encError_plumb {n : Nat} : (s.encError n).plumb = s.plumb := State.encError_in.eq .plumb
@[simp] theorem State.encError_power {n : Nat} : (s.encError n).power = s.power := State.encError_in.eq .power
@[simp] theorem State.encError_test {n : Nat} : (s.encError n).test = s.test := State.encError_in.eq .test
@[simp] theorem State.encError_mgmt {n : Nat} : (s.encError n).mgmt = s.mgmt := State.encError_in.eq .mgmt
@[simp] theorem State.encError_pending {n : Nat} : (s.encError n).pending = s.pending := State.encError_in.eq .pending
/-! ### spMoved -/
theorem State.spMoved_in {z : Int} : OnlyIn [.regs, .course, .tn, .sdio] s (s.spMoved z) := State.spMoved_only (by decide) (OnlyIn.refl _ _)
@[simp] theorem State.spMoved_part {z : Int} : (s.spMoved z).part = s.part := State.spMoved_in.eq .part
@[simp] theorem State.spMoved_now {z : Int} : (s.spMoved z).now = s.now := State.spMoved_in.eq .now
@[simp] theorem State.spMoved_mem {z : Int} : (s.spMoved z).mem = s.mem := State.spMoved_in.eq .mem
@[simp] theorem State.spMoved_snaps {z : Int} : (s.spMoved z).snaps = s.snaps := State.spMoved_in.eq .snaps
@[simp] theorem State.spMoved_cyc {z : Int} : (s.spMoved z).cyc = s.cyc := State.spMoved_in.eq .cyc
@[simp] theorem State.spMoved_cycAt {z : Int} : (s.spMoved z).cycAt = s.cycAt := State.spMoved_in.eq .cycAt
@[simp] theorem State.spMoved_freq {z : Int} : (s.spMoved z).freq = s.freq := State.spMoved_in.eq .freq
@[simp] theorem State.spMoved_changing {z : Int} : (s.spMoved z).changing = s.changing := State.spMoved_in.eq .changing
@[simp] theorem State.spMoved_fresh {z : Int} : (s.spMoved z).fresh = s.fresh := State.spMoved_in.eq .fresh
@[simp] theorem State.spMoved_acq {z : Int} : (s.spMoved z).acq = s.acq := State.spMoved_in.eq .acq
@[simp] theorem State.spMoved_die {z : Int} : (s.spMoved z).die = s.die := State.spMoved_in.eq .die
@[simp] theorem State.spMoved_stream {z : Int} : (s.spMoved z).stream = s.stream := State.spMoved_in.eq .stream
@[simp] theorem State.spMoved_kv {z : Int} : (s.spMoved z).kv = s.kv := State.spMoved_in.eq .kv
@[simp] theorem State.spMoved_adapt {z : Int} : (s.spMoved z).adapt = s.adapt := State.spMoved_in.eq .adapt
@[simp] theorem State.spMoved_mt {z : Int} : (s.spMoved z).mt = s.mt := State.spMoved_in.eq .mt
@[simp] theorem State.spMoved_bond {z : Int} : (s.spMoved z).bond = s.bond := State.spMoved_in.eq .bond
@[simp] theorem State.spMoved_line {z : Int} : (s.spMoved z).line = s.line := State.spMoved_in.eq .line
@[simp] theorem State.spMoved_plumb {z : Int} : (s.spMoved z).plumb = s.plumb := State.spMoved_in.eq .plumb
@[simp] theorem State.spMoved_power {z : Int} : (s.spMoved z).power = s.power := State.spMoved_in.eq .power
@[simp] theorem State.spMoved_test {z : Int} : (s.spMoved z).test = s.test := State.spMoved_in.eq .test
@[simp] theorem State.spMoved_mgmt {z : Int} : (s.spMoved z).mgmt = s.mgmt := State.spMoved_in.eq .mgmt
@[simp] theorem State.spMoved_pending {z : Int} : (s.spMoved z).pending = s.pending := State.spMoved_in.eq .pending

/-! ### Packets -/

/-- A reply that is no violation. -/
theorem State.answer_eq {p : Packet} {n : Nat} {l : List Byte} (h : n / 256 ≠ 1) : s.answer p n l = s.reply p n l := if_neg h

@[simp] theorem State.answer_ok {p : Packet} {l : List Byte} : s.answer p 0 l = s.reply p 0 l := State.answer_eq (by decide)

theorem State.reply_replies {p : Packet} {n : Nat} {l : List Byte} (h : s.mgmt.resetAt = none) :
    (s.reply p n l).sdio.replies =
      s.sdio.replies ++ [{ status := n, tag := p.tag, client := p.client, opcode := p.opcode, bytes := l }] := by
  simp [State.reply, h]

end Sys2Proof.Machine
end

