-- ==== Sys2Proof/Laws/Host.lean ====
section
/-! SUPPORT. A host command that nothing refuses: what its packet's way through the command buffer comes to. -/
namespace Sys2Proof.Machine
set_option Elab.async false

/-- The packet is carried out at once. -/
theorem State.submit_accepts {s : State} {p : Packet} (h : s.Accepts p) : s.submit p = s.received.hostRun p := by
  have hq : s.sdio.cmdBuf = [] := h.first
  have h1 : (s.mgmt.st == DevState.boot) = false := by
    cases hb : s.mgmt.st <;> first | rfl | exact absurd hb h.served
  have h2 : ¬ 65536 < s.cmdUsed + p.size := by
    have := h.fits
    simp only [State.cmdUsed, hq]
    simp
    omega
  have h3 : (s.updSdio (fun x => { x with cmdBuf := x.cmdBuf ++ [p] })).mayTake = true := h.free
  have h4 : ((s.updSdio (fun x => { x with cmdBuf := x.cmdBuf ++ [p] })).updSdio (fun x => { x with cmdBuf := [] })) = s := by
    show s.updSdio (fun x => { x with cmdBuf := [] }) = s
    unfold State.updSdio
    rw [← hq]
  unfold State.submit
  rw [if_neg (by simp [h1]), if_neg h2]
  unfold State.pump
  have h5 : (s.updSdio (fun x => { x with cmdBuf := x.cmdBuf ++ [p] })).sdio.cmdBuf = [p] := by simp [hq]
  rw [h5]
  show State.pumpN 1 _ = _
  unfold State.pumpN
  rw [h5]
  simp only [h3, if_true]
  rw [h4]
  have h6 : s.takePkt p = s.received.hostRun p := by
    unfold State.takePkt
    have hu := h.unrefused
    have hr := h.rate
    unfold State.received at hu hr ⊢
    simp only [h.good, ne_eq, not_true_eq_false, false_and, if_false, hr, hu, Bool.false_eq_true]
  rw [h6]
  rfl

/-- A host command that nothing refuses. -/
theorem State.host_next {s : State} {h : Hdr} {c : HostCmd} (k : Carried s h c) :
    s.host h c = .next ((s.atHost h).hostRun (packetOf h.tag h.client c)) := by
  unfold State.host
  rw [State.submit_accepts k]
  rfl

/-- A row the host sends is its command, sent. -/
theorem exec_hostOf {i : Instr} {s : State} {h : Hdr} {c : HostCmd} (k : hostOf i = some (h, c)) : exec i s = s.host h c := by
  cases i <;> first
    | (cases k; done)
    | (obtain ⟨rfl, rfl⟩ := Prod.mk.inj (Option.some.inj k); rfl)

/-- A row the host sends that nothing refuses. -/
theorem exec_carried {i : Instr} {s : State} {h : Hdr} {c : HostCmd} (k : hostOf i = some (h, c)) (a : Carried s h c) :
    exec i s = .next ((s.atHost h).hostRun (packetOf h.tag h.client c)) := (exec_hostOf k).trans (State.host_next a)

/-! ### What each host command runs -/

theorem hostRun_echo {s : State} {tag client : Nat} {bs} : s.hostRun (packetOf tag client (.echo bs)) =
    s.hostEcho (packetOf tag client (.echo bs)) bs := by
  simp only [State.hostRun, State.hostRunA, packetOf]

theorem hostRun_deviceInfo {s : State} {tag client : Nat} : s.hostRun (packetOf tag client .deviceInfo) =
    s.answer (packetOf tag client .deviceInfo) 0 s.deviceInfo := by
  simp only [State.hostRun, State.hostRunA, packetOf]

theorem hostRun_deviceReset {s : State} {tag client : Nat} {x0} : s.hostRun (packetOf tag client (.deviceReset x0)) =
    s.hostReset (packetOf tag client (.deviceReset x0)) := by
  simp only [State.hostRun, State.hostRunA, packetOf]

theorem hostRun_cxpRegRead {s : State} {tag client : Nat} {g} {x0} {n} : s.hostRun (packetOf tag client (.cxpRegRead g x0 n)) =
    s.hostCxp (packetOf tag client (.cxpRegRead g x0 n)) g n := by
  simp only [State.hostRun, State.hostRunA, packetOf]

theorem hostRun_cxpRegWrite {s : State} {tag client : Nat} {g} {x0} {bs} : s.hostRun (packetOf tag client (.cxpRegWrite g x0 bs)) =
    s.hostCxp (packetOf tag client (.cxpRegWrite g x0 bs)) g bs.length := by
  simp only [State.hostRun, State.hostRunA, packetOf]

theorem hostRun_logPull {s : State} {tag client : Nat} {l} {n} : s.hostRun (packetOf tag client (.logPull l n)) =
    s.hostLog (packetOf tag client (.logPull l n)) l n := by
  simp only [State.hostRun, State.hostRunA, packetOf]

theorem hostRun_imagePull {s : State} {tag client : Nat} {b} {c} {m} {n} : s.hostRun (packetOf tag client (.imagePull b c m n)) =
    s.hostImage (packetOf tag client (.imagePull b c m n)) b c m n := by
  simp only [State.hostRun, State.hostRunA, packetOf]

theorem hostRun_regRead {s : State} {tag client : Nat} {a} {n} : s.hostRun (packetOf tag client (.regRead a n)) =
    s.hostRegRead (packetOf tag client (.regRead a n)) a n := by
  simp only [State.hostRun, State.hostRunA, packetOf]

theorem hostRun_regWrite {s : State} {tag client : Nat} {l} : s.hostRun (packetOf tag client (.regWrite l)) =
    s.hostRegWrite (packetOf tag client (.regWrite l)) l := by
  simp only [State.hostRun, State.hostRunA, packetOf]

theorem hostRun_regModify {s : State} {tag client : Nat} {a} {m} {v} : s.hostRun (packetOf tag client (.regModify a m v)) =
    s.hostRegModify (packetOf tag client (.regModify a m v)) a m v := by
  simp only [State.hostRun, State.hostRunA, packetOf]

theorem hostRun_planLoad {s : State} {tag client : Nat} {n} {x0} : s.hostRun (packetOf tag client (.planLoad n x0)) =
    s.hostPlanLoad (packetOf tag client (.planLoad n x0)) n := by
  simp only [State.hostRun, State.hostRunA, packetOf]

theorem hostRun_planAdmit {s : State} {tag client : Nat} : s.hostRun (packetOf tag client .planAdmit) =
    s.hostPlanAdmit (packetOf tag client .planAdmit) := by
  simp only [State.hostRun, State.hostRunA, packetOf]

theorem hostRun_planStart {s : State} {tag client : Nat} : s.hostRun (packetOf tag client .planStart) =
    s.hostPlanStart (packetOf tag client .planStart) := by
  simp only [State.hostRun, State.hostRunA, packetOf]

theorem hostRun_planStop {s : State} {tag client : Nat} : s.hostRun (packetOf tag client .planStop) =
    s.hostPlanStop (packetOf tag client .planStop) := by
  simp only [State.hostRun, State.hostRunA, packetOf]

theorem hostRun_planUnload {s : State} {tag client : Nat} : s.hostRun (packetOf tag client .planUnload) =
    s.hostPlanUnload (packetOf tag client .planUnload) := by
  simp only [State.hostRun, State.hostRunA, packetOf]

theorem hostRun_graphSubmit {s : State} {tag client : Nat} {d} {a} : s.hostRun (packetOf tag client (.graphSubmit d a)) =
    s.hostSubmit (packetOf tag client (.graphSubmit d a)) d a := by
  simp only [State.hostRun, State.hostRunA, packetOf]

theorem hostRun_graphWait {s : State} {tag client : Nat} {id} : s.hostRun (packetOf tag client (.graphWait id)) =
    s.hostWait (packetOf tag client (.graphWait id)) id := by
  simp only [State.hostRun, State.hostRunA, packetOf]

theorem hostRun_modelLoad {s : State} {tag client : Nat} {id} {m} {x0} {n} {dg} : s.hostRun (packetOf tag client (.modelLoad id m x0 n dg)) =
    s.hostModelLoad (packetOf tag client (.modelLoad id m x0 n dg)) id m n dg := by
  simp only [State.hostRun, State.hostRunA, packetOf]

theorem hostRun_modelUnload {s : State} {tag client : Nat} {id} : s.hostRun (packetOf tag client (.modelUnload id)) =
    s.hostModelUnload (packetOf tag client (.modelUnload id)) id := by
  simp only [State.hostRun, State.hostRunA, packetOf]

theorem hostRun_flatLoad {s : State} {tag client : Nat} {g} {x0} {n} : s.hostRun (packetOf tag client (.flatLoad g x0 n)) =
    s.hostMapLoad (packetOf tag client (.flatLoad g x0 n)) g n 4 := by
  simp only [State.hostRun, State.hostRunA, packetOf]

theorem hostRun_projLoad {s : State} {tag client : Nat} {g} {n} : s.hostRun (packetOf tag client (.projLoad g n)) =
    s.hostMapLoad (packetOf tag client (.projLoad g n)) g n 8 := by
  simp only [State.hostRun, State.hostRunA, packetOf]

theorem hostRun_pageMap {s : State} {tag client : Nat} {f} {n} {pin} : s.hostRun (packetOf tag client (.pageMap f n pin)) =
    s.hostPageMap (packetOf tag client (.pageMap f n pin)) f n pin := by
  simp only [State.hostRun, State.hostRunA, packetOf]

theorem hostRun_pageUnmap {s : State} {tag client : Nat} {f} {n} : s.hostRun (packetOf tag client (.pageUnmap f n)) =
    s.hostPageUnmap (packetOf tag client (.pageUnmap f n)) f n := by
  simp only [State.hostRun, State.hostRunA, packetOf]

theorem hostRun_memWrite {s : State} {tag client : Nat} {sp} {a} {bs} : s.hostRun (packetOf tag client (.memWrite sp a bs)) =
    s.hostMemWrite (packetOf tag client (.memWrite sp a bs)) sp a bs := by
  simp only [State.hostRun, State.hostRunA, packetOf]

theorem hostRun_memWriteBulk {s : State} {tag client : Nat} {sp} {a} {n} : s.hostRun (packetOf tag client (.memWriteBulk sp a n)) =
    s.hostMemWriteBulk (packetOf tag client (.memWriteBulk sp a n)) sp a n := by
  simp only [State.hostRun, State.hostRunA, packetOf]

theorem hostRun_memRead {s : State} {tag client : Nat} {sp} {a} {n} : s.hostRun (packetOf tag client (.memRead sp a n)) =
    s.hostMemRead (packetOf tag client (.memRead sp a n)) sp a n false := by
  simp only [State.hostRun, State.hostRunA, packetOf]

theorem hostRun_memReadBulk {s : State} {tag client : Nat} {sp} {a} {n} : s.hostRun (packetOf tag client (.memReadBulk sp a n)) =
    s.hostMemRead (packetOf tag client (.memReadBulk sp a n)) sp a n true := by
  simp only [State.hostRun, State.hostRunA, packetOf]

theorem hostRun_ctxOpen {s : State} {tag client : Nat} {c} {a} {i} {n} {m} {tg} : s.hostRun (packetOf tag client (.ctxOpen c a i n m tg)) =
    s.hostCtxOpen (packetOf tag client (.ctxOpen c a i n m tg)) c a i n m tg := by
  simp only [State.hostRun, packetOf]

theorem hostRun_ctxClose {s : State} {tag client : Nat} {c} : s.hostRun (packetOf tag client (.ctxClose c)) =
    s.hostCtxClose (packetOf tag client (.ctxClose c)) c := by
  simp only [State.hostRun, packetOf]

theorem hostRun_seqOpen {s : State} {tag client : Nat} {q} {h} {d} {q4} {m} {sp0} {pitch} {l} {n} : s.hostRun (packetOf tag client (.seqOpen q h d q4 m sp0 pitch l n)) =
    s.hostSeqOpen (packetOf tag client (.seqOpen q h d q4 m sp0 pitch l n)) q h d q4 m sp0 pitch l n := by
  simp only [State.hostRun, packetOf]

theorem hostRun_seqFork {s : State} {tag client : Nat} {a} {b} {n} : s.hostRun (packetOf tag client (.seqFork a b n)) =
    s.hostSeqFork (packetOf tag client (.seqFork a b n)) a b n := by
  simp only [State.hostRun, packetOf]

theorem hostRun_seqClose {s : State} {tag client : Nat} {q} : s.hostRun (packetOf tag client (.seqClose q)) =
    s.hostSeqClose (packetOf tag client (.seqClose q)) q := by
  simp only [State.hostRun, packetOf]

theorem hostRun_courseProgLoad {s : State} {tag client : Nat} {g} {l} : s.hostRun (packetOf tag client (.courseProgLoad g l)) =
    s.hostCourseProg (packetOf tag client (.courseProgLoad g l)) g l := by
  simp only [State.hostRun, packetOf]

theorem hostRun_servoProgLoad {s : State} {tag client : Nat} {a} {l} {k} {i} : s.hostRun (packetOf tag client (.servoProgLoad a l k i)) =
    s.hostServoProg (packetOf tag client (.servoProgLoad a l k i)) a l k i := by
  simp only [State.hostRun, packetOf]

theorem hostRun_qpLoad {s : State} {tag client : Nat} {x0} {n} : s.hostRun (packetOf tag client (.qpLoad x0 n)) =
    s.bulkIn (packetOf tag client (.qpLoad x0 n)) n := by
  simp only [State.hostRun, packetOf]

theorem hostRun_motionPost {s : State} {tag client : Nat} {l} : s.hostRun (packetOf tag client (.motionPost l)) =
    s.hostMotionPost (packetOf tag client (.motionPost l)) l := by
  simp only [State.hostRun, packetOf]

theorem hostRun_sdfLoad {s : State} {tag client : Nat} {x0} {n} : s.hostRun (packetOf tag client (.sdfLoad x0 n)) =
    s.hostShadowLoad (packetOf tag client (.sdfLoad x0 n)) n := by
  simp only [State.hostRun, packetOf]

theorem hostRun_occLoad {s : State} {tag client : Nat} {x0} {x1} {x2} {n} : s.hostRun (packetOf tag client (.occLoad x0 x1 x2 n)) =
    s.hostShadowLoad (packetOf tag client (.occLoad x0 x1 x2 n)) n := by
  simp only [State.hostRun, packetOf]

theorem hostRun_mapPublish {s : State} {tag client : Nat} : s.hostRun (packetOf tag client .mapPublish) =
    s.hostPublish (packetOf tag client .mapPublish) := by
  simp only [State.hostRun, packetOf]

theorem hostRun_timeRead {s : State} {tag client : Nat} : s.hostRun (packetOf tag client .timeRead) =
    s.hostTimeRead (packetOf tag client .timeRead) := by
  simp only [State.hostRun, packetOf]

theorem hostRun_ruleLoad {s : State} {tag client : Nat} {dg} {img} : s.hostRun (packetOf tag client (.ruleLoad dg img)) =
    s.hostRuleLoad (packetOf tag client (.ruleLoad dg img)) dg img := by
  simp only [State.hostRun, packetOf]

theorem hostRun_safetyStatus {s : State} {tag client : Nat} : s.hostRun (packetOf tag client .safetyStatus) =
    s.hostSafety (packetOf tag client .safetyStatus) := by
  simp only [State.hostRun, packetOf]

theorem hostRun_budgetSet {s : State} {tag client : Nat} {mw} {c} : s.hostRun (packetOf tag client (.budgetSet mw c)) =
    s.hostBudget (packetOf tag client (.budgetSet mw c)) mw c := by
  simp only [State.hostRun, packetOf]

theorem hostRun_powerState {s : State} {tag client : Nat} {n} : s.hostRun (packetOf tag client (.powerState n)) =
    s.hostPower (packetOf tag client (.powerState n)) n := by
  simp only [State.hostRun, packetOf]

theorem hostRun_accountRead {s : State} {tag client : Nat} {c} {d} : s.hostRun (packetOf tag client (.accountRead c d)) =
    s.hostAccount (packetOf tag client (.accountRead c d)) c d := by
  simp only [State.hostRun, packetOf]

theorem hostRun_attest {s : State} {tag client : Nat} {n} : s.hostRun (packetOf tag client (.attest n)) =
    s.hostAttest (packetOf tag client (.attest n)) n := by
  simp only [State.hostRun, packetOf]

theorem hostRun_keyInfo {s : State} {tag client : Nat} : s.hostRun (packetOf tag client .keyInfo) =
    s.hostKeyInfo (packetOf tag client .keyInfo) := by
  simp only [State.hostRun, packetOf]

theorem hostRun_ownerKeySet {s : State} {tag client : Nat} {k} {key} {x0} : s.hostRun (packetOf tag client (.ownerKeySet k key x0)) =
    s.hostKeySet (packetOf tag client (.ownerKeySet k key x0)) k key := by
  simp only [State.hostRun, packetOf]

theorem hostRun_ownerKeyRevoke {s : State} {tag client : Nat} {k} {x0} : s.hostRun (packetOf tag client (.ownerKeyRevoke k x0)) =
    s.hostKeyRevoke (packetOf tag client (.ownerKeyRevoke k x0)) k := by
  simp only [State.hostRun, packetOf]

theorem hostRun_testMode {s : State} {tag client : Nat} {e} {x0} : s.hostRun (packetOf tag client (.testMode e x0)) =
    s.hostTestMode (packetOf tag client (.testMode e x0)) e := by
  simp only [State.hostRun, packetOf]

/-! ### Register writes -/

theorem wordOf_toNat {a : Nat} (h : a < 2 ^ 32) : (wordOf a).toNat = a := by
  unfold wordOf
  rw [BitVec.toNat_ofNat, Nat.mod_eq_of_lt h]

/-- A REG_WRITE of one register answers what the write of the register answers. -/
theorem State.regCmd_write {s t : State} {h : Hdr} {a v st : Nat} (k : Written s h a v) (ha : a < 2 ^ 32)
    (e : (s.atHost h).regWrite a (wordOf v) = (t, st)) :
    s.regCmd h a v = .next (t.answer (packetOf h.tag h.client (.regWrite [(wordOf a, wordOf v)])) st
      (leBytes 4 (if st = 0 then 1 else 0))) := by
  unfold State.regCmd
  rw [State.host_next k.carried]
  have h1 : (hostAddrs (.regWrite [(wordOf a, wordOf v)])).any (s.atHost h).addrLacks = false := by
    simp [hostAddrs, wordOf_toNat ha, k.on]
  rw [hostRun_regWrite]
  unfold State.hostRegWrite
  have hp : (packetOf h.tag h.client (.regWrite [(wordOf a, wordOf v)])).cmd = .regWrite [(wordOf a, wordOf v)] := rfl
  rw [hp, h1]
  have h2 : (s.atHost h).regWrites [(wordOf a, wordOf v)] = (t, if st = 0 then 1 else 0, st) := by
    unfold State.regWrites
    rw [wordOf_toNat ha, k.opened, e]
    by_cases hs : st = 0
    · subst hs
      rfl
    · simp [hs]
  simp only [Bool.false_eq_true, if_false, h2]

theorem State.atHost_part {s : State} {h : Hdr} : (s.atHost h).part = s.part := by
  show (s.to h.t).part = s.part
  unfold State.to
  split
  · rfl
  · extract_lets x
    split
    · rw [State.spMoved_part]
    · rfl

/-- A write of a command register. -/
theorem State.regCmd_cmd {s t : State} {h : Hdr} {a v : Nat} {r : RegRow} (k : Written s h a v) (ha : addrOk a = true)
    (hr : rowOf a = some r) (hw : r.wo = true) (hc : canonAddr a = a)
    (hp : partVal s.part a (wordOf v) = wordOf v) (e : (s.atHost h).cmdWrite a (wordOf v) = (t, 0)) :
    s.regCmd h a v = .next (t.reply (packetOf h.tag h.client (.regWrite [(wordOf a, wordOf v)])) 0 (leBytes 4 1)) := by
  have h32 : a < 2 ^ 32 := by
    simp only [addrOk, Bool.and_eq_true, decide_eq_true_eq] at ha
    omega
  have h1 : (s.atHost h).regWrite a (wordOf v) = (t, 0) := by
    unfold State.regWrite
    simp only [ha, hr, Bool.not_true, Bool.false_eq_true, if_false, State.atHost_part, k.there, hc, hp]
    split
    · rename_i h
      have := k.test h.1
      simp_all
    · unfold State.writeRow
      simp only [hw, if_true, e]
  rw [State.regCmd_write k h32 h1]
  simp only [if_true, State.answer_ok]

end Sys2Proof.Machine
end

