-- ==== Sys2Proof/Laws/KeepsOps.lean ====
section
/-! SUPPORT. What the operations of Machine/Ops.lean keep (Laws/Keeps.lean). -/
namespace Sys2Proof.Machine
set_option Elab.async false

theorem State.setFld_keeps {s0 s1 : State} {a1 a2 a3 a4} (hs1 : Keeps s0 s1) :
    Keeps s0 (State.setFld s1 a1 a2 a3 a4) := by
  unfold State.setFld
  extract_lets -merge -underBinder +onlyGivenNames x1 x2
  clear_value x1 x2
  exact State.regSet_keeps (by assumption)

theorem State.bump_keeps {s0 s1 : State} {a1 a2} (hs1 : Keeps s0 s1) :
    Keeps s0 (State.bump s1 a1 a2) := by
  unfold State.bump
  exact State.regSet_keeps (by assumption)

theorem State.bumpHi_keeps {s0 s1 : State} {a1 a2} (hs1 : Keeps s0 s1) :
    Keeps s0 (State.bumpHi s1 a1 a2) := by
  unfold State.bumpHi
  exact State.setFld_keeps (by assumption)

theorem State.bumpLo_keeps {s0 s1 : State} {a1 a2} (hs1 : Keeps s0 s1) :
    Keeps s0 (State.bumpLo s1 a1 a2) := by
  unfold State.bumpLo
  exact State.setFld_keeps (by assumption)

theorem State.dropSnaps_keeps {s0 s1 : State} {a1} (hs1 : Keeps s0 s1) :
    Keeps s0 (State.dropSnaps s1 a1) := by
  unfold State.dropSnaps
  extract_lets -merge -underBinder +onlyGivenNames x1
  clear_value x1
  refine keeps_ite ?_ ?_
  · assumption
  · exact keeps_upd (by assumption) fun r => ⟨r.1, r.2, r.3, r.4, r.5, r.6, r.7, r.8, r.9, r.10⟩

theorem State.updEnc_keeps {s0 s1 : State} {a1 a2} (hs1 : Keeps s0 s1) :
    Keeps s0 (State.updEnc s1 a1 a2) := by
  unfold State.updEnc
  refine State.updCourse_keeps ?_ ?_
  · assumption
  · first | exact fun _ h => h | (intro _ h; split <;> exact h) | (intro _ h; simp_all [Course.Sized, lmod])

theorem State.updLg_keeps {s0 s1 : State} {a1 a2} (hs1 : Keeps s0 s1) :
    Keeps s0 (State.updLg s1 a1 a2) := by
  unfold State.updLg
  refine State.updCourse_keeps ?_ ?_
  · assumption
  · first | exact fun _ h => h | (intro _ h; split <;> exact h) | (intro _ h; simp_all [Course.Sized, lmod])

theorem State.updCrs_keeps {s0 s1 : State} {a1 a2} (hs1 : Keeps s0 s1) :
    Keeps s0 (State.updCrs s1 a1 a2) := by
  unfold State.updCrs
  refine State.updCourse_keeps ?_ ?_
  · assumption
  · first | exact fun _ h => h | (intro _ h; split <;> exact h) | (intro _ h; simp_all [Course.Sized, lmod])

theorem State.updProg_keeps {s0 s1 : State} {a1 a2} (hs1 : Keeps s0 s1) :
    Keeps s0 (State.updProg s1 a1 a2) := by
  unfold State.updProg
  refine State.updCourse_keeps ?_ ?_
  · assumption
  · first | exact fun _ h => h | (intro _ h; split <;> exact h) | (intro _ h; simp_all [Course.Sized, lmod])

theorem State.updDom_keeps {s0 s1 : State} {a1 a2} (hs1 : Keeps s0 s1) :
    Keeps s0 (State.updDom s1 a1 a2) := by
  unfold State.updDom
  refine State.updTn_keeps ?_ ?_
  · assumption
  · first | exact fun _ h => h | (intro _ h; split <;> exact h) | (intro _ h; simp_all [TimeNet.Sized, lmod])

theorem State.updTpo_keeps {s0 s1 : State} {a1 a2} (hs1 : Keeps s0 s1) :
    Keeps s0 (State.updTpo s1 a1 a2) := by
  unfold State.updTpo
  refine State.updTn_keeps ?_ ?_
  · assumption
  · first | exact fun _ h => h | (intro _ h; split <;> exact h) | (intro _ h; simp_all [TimeNet.Sized, lmod])

theorem State.updTcap_keeps {s0 s1 : State} {a1 a2} (hs1 : Keeps s0 s1) :
    Keeps s0 (State.updTcap s1 a1 a2) := by
  unfold State.updTcap
  refine State.updTn_keeps ?_ ?_
  · assumption
  · first | exact fun _ h => h | (intro _ h; split <;> exact h) | (intro _ h; simp_all [TimeNet.Sized, lmod])

theorem State.updPort_keeps {s0 s1 : State} {a1 a2} (hs1 : Keeps s0 s1) :
    Keeps s0 (State.updPort s1 a1 a2) := by
  unfold State.updPort
  refine State.updTn_keeps ?_ ?_
  · assumption
  · first | exact fun _ h => h | (intro _ h; split <;> exact h) | (intro _ h; simp_all [TimeNet.Sized, lmod])

theorem State.updDst_keeps {s0 s1 : State} {a1 a2} (hs1 : Keeps s0 s1) :
    Keeps s0 (State.updDst s1 a1 a2) := by
  unfold State.updDst
  refine State.updTn_keeps ?_ ?_
  · assumption
  · first | exact fun _ h => h | (intro _ h; split <;> exact h) | (intro _ h; simp_all [TimeNet.Sized, lmod])

theorem State.updGrp_keeps {s0 s1 : State} {a1 a2} (hs1 : Keeps s0 s1) :
    Keeps s0 (State.updGrp s1 a1 a2) := by
  unfold State.updGrp
  refine State.updAcq_keeps ?_ ?_
  · assumption
  · first | exact fun _ h => h | (intro _ h; split <;> exact h) | (intro _ h; simp_all [Acq.Sized, lmod])

theorem State.updSrc_keeps {s0 s1 : State} {a1 a2} (hs1 : Keeps s0 s1) :
    Keeps s0 (State.updSrc s1 a1 a2) := by
  unfold State.updSrc
  refine State.updAcq_keeps ?_ ?_
  · assumption
  · first | exact fun _ h => h | (intro _ h; split <;> exact h) | (intro _ h; simp_all [Acq.Sized, lmod])

theorem State.updQch_keeps {s0 s1 : State} {a1 a2} (hs1 : Keeps s0 s1) :
    Keeps s0 (State.updQch s1 a1 a2) := by
  unfold State.updQch
  refine State.updMt_keeps ?_ ?_
  · assumption
  · first | exact fun _ h => h | (intro _ h; split <;> exact h) | (intro _ h; simp_all [MemTier.Sized, lmod])

theorem State.updAx_keeps {s0 s1 : State} {a1 a2} (hs1 : Keeps s0 s1) :
    Keeps s0 (State.updAx s1 a1 a2) := by
  unfold State.updAx
  refine State.updLine_keeps ?_ ?_
  · assumption
  · first | exact fun _ h => h | (intro _ h; split <;> exact h) | (intro _ h; simp_all [Line.Sized, lmod])

theorem State.updAxGrp_keeps {s0 s1 : State} {a1 a2} (hs1 : Keeps s0 s1) :
    Keeps s0 (State.updAxGrp s1 a1 a2) := by
  unfold State.updAxGrp
  refine State.updLine_keeps ?_ ?_
  · assumption
  · first | exact fun _ h => h | (intro _ h; split <;> exact h) | (intro _ h; simp_all [Line.Sized, lmod])

theorem State.updQp_keeps {s0 s1 : State} {a1 a2} (hs1 : Keeps s0 s1) :
    Keeps s0 (State.updQp s1 a1 a2) := by
  unfold State.updQp
  refine State.updLine_keeps ?_ ?_
  · assumption
  · first | exact fun _ h => h | (intro _ h; split <;> exact h) | (intro _ h; simp_all [Line.Sized, lmod])

theorem State.updCar_keeps {s0 s1 : State} {a1 a2} (hs1 : Keeps s0 s1) :
    Keeps s0 (State.updCar s1 a1 a2) := by
  unfold State.updCar
  refine State.updLine_keeps ?_ ?_
  · assumption
  · first | exact fun _ h => h | (intro _ h; split <;> exact h) | (intro _ h; simp_all [Line.Sized, lmod])

theorem State.updTarget_keeps {s0 s1 : State} {a1 a2} (hs1 : Keeps s0 s1) :
    Keeps s0 (State.updTarget s1 a1 a2) := by
  unfold State.updTarget
  refine State.updPlumb_keeps ?_ ?_
  · assumption
  · first | exact fun _ h => h | (intro _ h; split <;> exact h) | (intro _ h; simp_all [Plumb.Sized, lmod])

theorem State.updStage_keeps {s0 s1 : State} {a1 a2} (hs1 : Keeps s0 s1) :
    Keeps s0 (State.updStage s1 a1 a2) := by
  unfold State.updStage
  refine State.updPlumb_keeps ?_ ?_
  · assumption
  · first | exact fun _ h => h | (intro _ h; split <;> exact h) | (intro _ h; simp_all [Plumb.Sized, lmod])

theorem State.updInj_keeps {s0 s1 : State} {a1 a2} (hs1 : Keeps s0 s1) :
    Keeps s0 (State.updInj s1 a1 a2) := by
  unfold State.updInj
  refine State.updTest_keeps ?_ ?_
  · assumption
  · first | exact fun _ h => h | (intro _ h; split <;> exact h) | (intro _ h; simp_all [Test.Sized, lmod])

theorem State.updCore_keeps {s0 s1 : State} {a1 a2 a3} (hs1 : Keeps s0 s1) :
    Keeps s0 (State.updCore s1 a1 a2 a3) := by
  unfold State.updCore
  refine State.updDie_keeps ?_ ?_
  · assumption
  · first | exact fun _ h => h | (intro _ h; split <;> exact h) | (intro _ h; simp_all [Die.Sized, lmod])

theorem State.updSlot_keeps {s0 s1 : State} {a1 a2 a3} (hs1 : Keeps s0 s1) :
    Keeps s0 (State.updSlot s1 a1 a2 a3) := by
  unfold State.updSlot
  refine State.updDie_keeps ?_ ?_
  · assumption
  · first | exact fun _ h => h | (intro _ h; split <;> exact h) | (intro _ h; simp_all [Die.Sized, lmod])

theorem State.updRun_keeps {s0 s1 : State} {a1 a2 a3} (hs1 : Keeps s0 s1) :
    Keeps s0 (State.updRun s1 a1 a2 a3) := by
  unfold State.updRun
  refine State.updDie_keeps ?_ ?_
  · assumption
  · first | exact fun _ h => h | (intro _ h; split <;> exact h) | (intro _ h; simp_all [Die.Sized, lmod])

theorem State.drew_keeps {s0 s1 : State} {a1} (hs1 : Keeps s0 s1) :
    Keeps s0 (State.drew s1 a1) := by
  unfold State.drew
  exact keeps_upd (by assumption) fun r => ⟨r.1, r.2, r.3, r.4, r.5, r.6, r.7, r.8, r.9, r.10⟩

theorem State.stN_keeps {s0 s1 : State} {a1 a2 a3} (hs1 : Keeps s0 s1) :
    Keeps s0 (State.stN s1 a1 a2 a3) := by
  unfold State.stN
  exact State.stBytes_keeps (by assumption)

theorem State.settleCycles_keeps {s0 s1 : State} (hs1 : Keeps s0 s1) :
    Keeps s0 (State.settleCycles s1) := by
  unfold State.settleCycles
  exact keeps_upd (by assumption) fun r => ⟨r.1, r.2, r.3, r.4, r.5, r.6, r.7, r.8, r.9, r.10⟩

theorem State.txFrame_keeps {s0 s1 : State} {a1 a2} (hs1 : Keeps s0 s1) :
    Keeps s0 (State.txFrame s1 a1 a2) := by
  unfold State.txFrame
  refine State.bump_keeps ?_
  refine State.updTn_keeps ?_ ?_
  · assumption
  · first | exact fun _ h => h | (intro _ h; split <;> exact h) | (intro _ h; simp_all [TimeNet.Sized, lmod])

theorem State.flushDst_keeps {s0 s1 : State} {a1} (hs1 : Keeps s0 s1) :
    Keeps s0 (State.flushDst s1 a1) := by
  unfold State.flushDst
  extract_lets -merge -underBinder +onlyGivenNames x1 x2
  clear_value x1 x2
  refine keeps_ite ?_ ?_
  · assumption
  · extract_lets -merge -underBinder +onlyGivenNames x3 x4
    clear_value x3 x4
    exact State.txFrame_keeps (State.updDst_keeps (by assumption))

theorem State.loseRecs_keeps {s0 s1 : State} {a1 a2} (hs1 : Keeps s0 s1) :
    Keeps s0 (State.loseRecs s1 a1 a2) := by
  unfold State.loseRecs
  exact State.bump_keeps (State.updDst_keeps (by assumption))

theorem State.askArp_keeps {s0 s1 : State} {a1 a2} (hs1 : Keeps s0 s1) :
    Keeps s0 (State.askArp s1 a1 a2) := by
  unfold State.askArp
  extract_lets -merge -underBinder +onlyGivenNames x1
  clear_value x1
  refine keeps_ite ?_ ?_
  · assumption
  · exact State.txFrame_keeps (State.updPort_keeps (by assumption))

theorem State.enqueueRec_keeps {s0 s1 : State} {a1 a2} (hs1 : Keeps s0 s1) :
    KeepsL s0 (State.enqueueRec s1 a1 a2) := by
  unfold State.enqueueRec
  extract_lets -merge -underBinder +onlyGivenNames x1 x2
  clear_value x1 x2
  refine keepsL_ite ?_ ?_
  · exact keepsL_mk (State.loseRecs_keeps (by assumption))
  · refine keepsL_ite ?_ ?_
    · exact keepsL_mk (State.loseRecs_keeps (State.askArp_keeps (by assumption)))
    · extract_lets -merge -underBinder +onlyGivenNames x3
      have hx3 : Keeps s0 x3 := by
        subst x3
        refine keeps_ite ?_ ?_
        · exact State.flushDst_keeps (by assumption)
        · assumption
      clear_value x3
      extract_lets -merge -underBinder +onlyGivenNames x4
      clear_value x4
      refine keepsL_ite ?_ ?_
      · exact keepsL_mk (State.loseRecs_keeps (by assumption))
      · extract_lets -merge -underBinder +onlyGivenNames x5
        clear_value x5
        exact keepsL_mk (State.updDst_keeps (by assumption))

theorem State.produce_keeps {s0 s1 : State} {a1 a2 a3} (hs1 : Keeps s0 s1) :
    KeepsL s0 (State.produce s1 a1 a2 a3) := by
  unfold State.produce
  extract_lets -merge -underBinder +onlyGivenNames x1 x2 x3
  clear_value x1 x2
  have hx3 : Keeps s0 x3 := by
    subst x3
    refine State.updTn_keeps ?_ ?_
    · assumption
    · first | exact fun _ h => h | (intro _ h; split <;> exact h) | (intro _ h; simp_all [TimeNet.Sized, lmod])
  clear_value x3
  refine keepsL_foldl (fun _ _ _ => ?_) ?_
  · split
    · refine KeepsL.of_eq (a := s0) (by assumption) ?_ (fun _ => ?_)
      · refine State.enqueueRec_keeps ?_
        exact KeepsL.fst (by assumption)
      exact keepsL_mk (by assumption)
  · exact keepsL_mk (by assumption)

theorem State.log_keeps {s0 s1 : State} {a1} (hs1 : Keeps s0 s1) :
    Keeps s0 (State.log s1 a1) := by
  unfold State.log
  extract_lets -merge -underBinder +onlyGivenNames x1
  clear_value x1
  exact State.updSdio_keeps (by assumption)

theorem State.raiseQuiet_keeps {s0 s1 : State} {a1 a2} (hs1 : Keeps s0 s1) :
    Keeps s0 (State.raiseQuiet s1 a1 a2) := by
  unfold State.raiseQuiet
  extract_lets -merge -underBinder +onlyGivenNames x1 x2
  clear_value x1
  have hx2 : Keeps s0 x2 := by
    subst x2
    exact State.regSet_keeps (by assumption)
  clear_value x2
  refine keeps_ite ?_ ?_
  · extract_lets -merge -underBinder +onlyGivenNames x3
    have hx3 : Keeps s0 x3 := by
      subst x3
      exact State.log_keeps (by assumption)
    clear_value x3
    refine keeps_ite ?_ ?_
    · assumption
    · exact KeepsL.fst (State.produce_keeps (by assumption))
  · assumption

theorem State.emit_keeps {s0 s1 : State} {a1 a2 a3} (hs1 : Keeps s0 s1) :
    Keeps s0 (State.emit s1 a1 a2 a3) := by
  unfold State.emit
  split
  · refine KeepsL.of_eq (a := s0) (by assumption) ?_ (fun _ => ?_)
    · exact State.produce_keeps (by assumption)
    extract_lets -merge -underBinder +onlyGivenNames x1
    have hx1 : Keeps s0 x1 := by
      subst x1
      refine keeps_ite ?_ ?_
      · exact State.raiseQuiet_keeps (by assumption)
      · assumption
    clear_value x1
    refine keeps_ite ?_ ?_
    · exact State.raiseQuiet_keeps (by assumption)
    · assumption

theorem State.raise_keeps {s0 s1 : State} {a1 a2 a3} (hs1 : Keeps s0 s1) :
    Keeps s0 (State.raise s1 a1 a2 a3) := by
  unfold State.raise
  extract_lets -merge -underBinder +onlyGivenNames x1
  have hx1 : Keeps s0 x1 := by
    subst x1
    exact State.regSet_keeps (by assumption)
  clear_value x1
  refine keeps_ite ?_ ?_
  · extract_lets -merge -underBinder +onlyGivenNames x2
    have hx2 : Keeps s0 x2 := by
      subst x2
      exact State.log_keeps (by assumption)
    clear_value x2
    extract_lets -merge -underBinder +onlyGivenNames x3
    have hx3 : Keeps s0 x3 := by
      subst x3
      refine keeps_ite ?_ ?_
      · exact State.updSdio_keeps (by assumption)
      · assumption
    clear_value x3
    extract_lets -merge -underBinder +onlyGivenNames x4
    clear_value x4
    exact State.emit_keeps (by assumption)
  · assumption

end Sys2Proof.Machine
end

