-- ==== Sys2Proof/Laws/KeepsCourseCore.lean ====
section
/-! SUPPORT. What the operations of Machine/CourseCore.lean keep (Laws/Keeps.lean). -/
namespace Sys2Proof.Machine
set_option Elab.async false

theorem State.cover_keeps {s0 s1 : State} {a1} (hs1 : Keeps s0 s1) :
    Keeps s0 (State.cover s1 a1) := by
  unfold State.cover
  refine keeps_ite ?_ ?_
  · exact State.updBond_keeps (by assumption)
  · assumption

theorem State.coverAll_keeps {s0 s1 : State} {a1 a2 a3 a4} (hs1 : Keeps s0 s1) :
    Keeps s0 (State.coverAll s1 a1 a2 a3 a4) := by
  unfold State.coverAll
  split
  · exact State.cover_keeps (by assumption)

theorem State.reverseCheck_keeps {s0 s1 : State} (hs1 : Keeps s0 s1) :
    Keeps s0 (State.reverseCheck s1) := by
  unfold State.reverseCheck
  extract_lets -merge -underBinder +onlyGivenNames x1
  clear_value x1
  refine keeps_ite ?_ ?_
  · extract_lets -merge -underBinder +onlyGivenNames x2
    have hx2 : Keeps s0 x2 := by
      subst x2
      refine State.updCourse_keeps ?_ ?_
      · assumption
      · first | exact fun _ h => h | (intro _ h; split <;> exact h) | (intro _ h; simp_all [Course.Sized, lmod])
    clear_value x2
    exact State.log_keeps (State.raise_keeps (by assumption))
  · assumption

theorem State.spMoved_keeps {s0 s1 : State} {a1} (hs1 : Keeps s0 s1) :
    Keeps s0 (State.spMoved s1 a1) := by
  unfold State.spMoved
  extract_lets -merge -underBinder +onlyGivenNames x1 x2
  clear_value x1
  have hx2 : Keeps s0 x2 := by
    subst x2
    refine State.updCourse_keeps ?_ ?_
    · assumption
    · first | exact fun _ h => h | (intro _ h; split <;> exact h) | (intro _ h; simp_all [Course.Sized, lmod])
  clear_value x2
  refine keeps_ite ?_ ?_
  · extract_lets -merge -underBinder +onlyGivenNames x3
    have hx3 : Keeps s0 x3 := by
      subst x3
      refine State.updCourse_keeps ?_ ?_
      · assumption
      · first | exact fun _ h => h | (intro _ h; split <;> exact h) | (intro _ h; simp_all [Course.Sized, lmod])
    clear_value x3
    refine keeps_ite ?_ ?_
    · exact State.raise_keeps (by assumption)
    · assumption
  · exact State.reverseCheck_keeps (by assumption)

theorem State.to_keeps {s0 s1 : State} {a1} (hs1 : Keeps s0 s1) :
    Keeps s0 (State.to s1 a1) := by
  unfold State.to
  split
  · assumption
  · rename_i hlt
    extract_lets -merge -underBinder +onlyGivenNames x1
    have hx1 : Keeps s0 x1 :=
      ⟨hs1.pending, Nat.le_trans hs1.now (Nat.le_of_lt (Nat.lt_of_not_le hlt)), hs1.regs, hs1.mem,
        fun q => let r := hs1.sized q; ⟨r.1, r.2, r.3, r.4, r.5, r.6, r.7, r.8, r.9, r.10⟩⟩
    clear_value x1
    split
    · exact State.spMoved_keeps (by assumption)
    · assumption

theorem State.xcheck_keeps {s0 s1 : State} (hs1 : Keeps s0 s1) :
    Keeps s0 (State.xcheck s1) := by
  unfold State.xcheck
  extract_lets -merge -underBinder +onlyGivenNames x1 x2 x3
  clear_value x1 x2
  have hx3 : Keeps s0 x3 := by
    subst x3
    refine State.updCourse_keeps ?_ ?_
    · assumption
    · first | exact fun _ h => h | (intro _ h; split <;> exact h) | (intro _ h; simp_all [Course.Sized, lmod])
  clear_value x3
  refine keeps_ite ?_ ?_
  · exact State.raise_keeps (by assumption)
  · assumption

theorem State.failover_keeps {s0 s1 : State} {a1} (hs1 : Keeps s0 s1) :
    Keeps s0 (State.failover s1 a1) := by
  unfold State.failover
  refine State.raise_keeps ?_
  refine State.updCourse_keeps ?_ ?_
  · assumption
  · first | exact fun _ h => h | (intro _ h; split <;> exact h) | (intro _ h; simp_all [Course.Sized, lmod])

theorem State.drStart_keeps {s0 s1 : State} (hs1 : Keeps s0 s1) :
    Keeps s0 (State.drStart s1) := by
  unfold State.drStart
  refine keeps_ite ?_ ?_
  · assumption
  · refine State.raise_keeps ?_
    refine State.updCourse_keeps ?_ ?_
    · assumption
    · first | exact fun _ h => h | (intro _ h; split <;> exact h) | (intro _ h; simp_all [Course.Sized, lmod])

theorem State.evalSource_keeps {s0 s1 : State} (hs1 : Keeps s0 s1) :
    Keeps s0 (State.evalSource s1) := by
  unfold State.evalSource
  refine keeps_ite ?_ ?_
  · assumption
  · refine keeps_ite ?_ ?_
    · exact State.drStart_keeps (by assumption)
    · extract_lets -merge -underBinder +onlyGivenNames x1
      have hx1 : Keeps s0 x1 := by
        subst x1
        refine keeps_ite ?_ ?_
        · refine State.updCourse_keeps ?_ ?_
          · assumption
          · first | exact fun _ h => h | (intro _ h; split <;> exact h) | (intro _ h; simp_all [Course.Sized, lmod])
        · assumption
      clear_value x1
      refine keeps_ite ?_ ?_
      · refine keeps_ite ?_ ?_
        · assumption
        · exact State.failover_keeps (by assumption)
      · refine keeps_ite ?_ ?_
        · assumption
        · exact State.failover_keeps (by assumption)

theorem State.encFault_keeps {s0 s1 : State} {a1} (hs1 : Keeps s0 s1) :
    Keeps s0 (State.encFault s1 a1) := by
  unfold State.encFault
  refine keeps_ite ?_ ?_
  · assumption
  · extract_lets -merge -underBinder +onlyGivenNames x1
    have hx1 : Keeps s0 x1 := by
      subst x1
      exact State.updEnc_keeps (by assumption)
    clear_value x1
    extract_lets -merge -underBinder +onlyGivenNames x2
    have hx2 : Keeps s0 x2 := by
      subst x2
      refine keeps_ite ?_ ?_
      · exact State.raise_keeps (by assumption)
      · assumption
    clear_value x2
    extract_lets -merge -underBinder +onlyGivenNames x3
    have hx3 : Keeps s0 x3 := by
      subst x3
      refine keeps_ite ?_ ?_
      · exact State.raise_keeps (by assumption)
      · assumption
    clear_value x3
    exact State.xcheck_keeps (State.evalSource_keeps (by assumption))

theorem State.encError_keeps {s0 s1 : State} {a1} (hs1 : Keeps s0 s1) :
    Keeps s0 (State.encError s1 a1) := by
  unfold State.encError
  extract_lets -merge -underBinder +onlyGivenNames x1
  have hx1 : Keeps s0 x1 := by
    subst x1
    exact State.bump_keeps (by assumption)
  clear_value x1
  extract_lets -merge -underBinder +onlyGivenNames x2 x3
  clear_value x2
  have hx3 : Keeps s0 x3 := by
    subst x3
    exact State.updEnc_keeps (by assumption)
  clear_value x3
  refine keeps_ite ?_ ?_
  · exact State.encFault_keeps (by assumption)
  · assumption

theorem State.positionMark_keeps {s0 s1 : State} {a1 a2 a3} (hs1 : Keeps s0 s1) :
    Keeps s0 (State.positionMark s1 a1 a2 a3) := by
  unfold State.positionMark
  extract_lets -merge -underBinder +onlyGivenNames x1
  have hx1 : Keeps s0 x1 := by
    subst x1
    exact State.log_keeps (by assumption)
  clear_value x1
  extract_lets -merge -underBinder +onlyGivenNames x2
  have hx2 : Keeps s0 x2 := by
    subst x2
    exact State.emit_keeps (by assumption)
  clear_value x2
  refine State.each_keeps ?_ (fun _ _ _ => ?_)
  · assumption
  · extract_lets -merge -underBinder +onlyGivenNames x3 x4
    clear_value x3 x4
    refine keeps_ite ?_ ?_
    · exact State.updStream_keeps (by assumption)
    · assumption

end Sys2Proof.Machine
end

