-- ==== Sys2Proof/Laws/KeepsTableCore.lean ====
section
/-! SUPPORT. What the operations of Machine/TableCore.lean keep (Laws/Keeps.lean). -/
namespace Sys2Proof.Machine
set_option Elab.async false

theorem State.reply_keeps {s0 s1 : State} {a1 a2 a3} (hs1 : Keeps s0 s1) :
    Keeps s0 (State.reply s1 a1 a2 a3) := by
  unfold State.reply
  refine keeps_ite ?_ ?_
  · assumption
  · exact State.updSdio_keeps (by assumption)

theorem State.answerDeferred_keeps {s0 s1 : State} {a1} (hs1 : Keeps s0 s1) :
    Keeps s0 (State.answerDeferred s1 a1) := by
  unfold State.answerDeferred
  extract_lets -merge -underBinder +onlyGivenNames x1 x2
  clear_value x1
  have hx2 : Keeps s0 x2 := by
    subst x2
    exact State.updSdio_keeps (by assumption)
  clear_value x2
  refine State.each_keeps ?_ (fun _ _ _ => ?_)
  · assumption
  · split
    · exact State.reply_keeps (by assumption)
    · assumption

theorem State.bulkNext_keeps {s0 s1 : State} (hs1 : Keeps s0 s1) :
    Keeps s0 (State.bulkNext s1) := by
  unfold State.bulkNext
  split
  · exact State.updSdio_keeps (by assumption)
  · assumption

theorem State.bulkEnd_keeps {s0 s1 : State} {a1 a2} (hs1 : Keeps s0 s1) :
    Keeps s0 (State.bulkEnd s1 a1 a2) := by
  unfold State.bulkEnd
  extract_lets -merge -underBinder +onlyGivenNames x1 x2 x3 x4
  clear_value x1 x2 x3
  have hx4 : Keeps s0 x4 := by
    subst x4
    exact State.updSdio_keeps (by assumption)
  clear_value x4
  refine State.bulkNext_keeps ?_
  refine State.each_keeps ?_ (fun _ _ _ => ?_)
  · assumption
  · exact State.reply_keeps (by assumption)

theorem State.linSt_keeps {s0 s1 : State} {a1 a2 a3 a4} (hs1 : Keeps s0 s1) :
    Keeps s0 (State.linSt s1 a1 a2 a3 a4) := by
  unfold State.linSt
  exact State.stN_keeps (by assumption)

theorem State.ctxSt_keeps {s0 s1 : State} {a1 a2 a3 a4} (hs1 : Keeps s0 s1) :
    Keeps s0 (State.ctxSt s1 a1 a2 a3 a4) := by
  unfold State.ctxSt
  exact State.linSt_keeps (by assumption)

theorem State.ctxSetFlag_keeps {s0 s1 : State} {a1 a2 a3} (hs1 : Keeps s0 s1) :
    Keeps s0 (State.ctxSetFlag s1 a1 a2 a3) := by
  unfold State.ctxSetFlag
  extract_lets -merge -underBinder +onlyGivenNames x1
  clear_value x1
  exact State.ctxSt_keeps (by assumption)

theorem State.ctxSetRes_keeps {s0 s1 : State} {a1 a2} (hs1 : Keeps s0 s1) :
    Keeps s0 (State.ctxSetRes s1 a1 a2) := by
  unfold State.ctxSetRes
  extract_lets -merge -underBinder +onlyGivenNames x1
  clear_value x1
  exact State.ctxSt_keeps (by assumption)

theorem State.ctxSetQueue_keeps {s0 s1 : State} {a1 a2} (hs1 : Keeps s0 s1) :
    Keeps s0 (State.ctxSetQueue s1 a1 a2) := by
  unfold State.ctxSetQueue
  extract_lets -merge -underBinder +onlyGivenNames x1 x2
  clear_value x1
  have hx2 : Keeps s0 x2 := by
    subst x2
    exact State.updStream_keeps (by assumption)
  clear_value x2
  exact State.ctxSt_keeps (by assumption)

theorem State.chunkLost_keeps {s0 s1 : State} {a1} (hs1 : Keeps s0 s1) :
    Keeps s0 (State.chunkLost s1 a1) := by
  unfold State.chunkLost
  extract_lets -merge -underBinder +onlyGivenNames x1 x2
  clear_value x1
  have hx2 : Keeps s0 x2 := by
    subst x2
    refine keeps_ite ?_ ?_
    · assumption
    · exact State.updStream_keeps (by assumption)
  clear_value x2
  extract_lets -merge -underBinder +onlyGivenNames x3
  have hx3 : Keeps s0 x3 := by
    subst x3
    exact State.ctxSt_keeps (by assumption)
  clear_value x3
  extract_lets -merge -underBinder +onlyGivenNames x4
  have hx4 : Keeps s0 x4 := by
    subst x4
    exact State.raise_keeps (State.bump_keeps (by assumption))
  clear_value x4
  split
  · refine keeps_ite ?_ ?_
    · exact State.cover_keeps (by assumption)
    · assumption

theorem State.seqSt_keeps {s0 s1 : State} {a1 a2 a3 a4} (hs1 : Keeps s0 s1) :
    Keeps s0 (State.seqSt s1 a1 a2 a3 a4) := by
  unfold State.seqSt
  exact State.linSt_keeps (by assumption)

theorem State.pageSt_keeps {s0 s1 : State} {a1 a2 a3} (hs1 : Keeps s0 s1) :
    Keeps s0 (State.pageSt s1 a1 a2 a3) := by
  unfold State.pageSt
  exact State.linSt_keeps (by assumption)

theorem State.pageSettle_keeps {s0 s1 : State} {a1 a2 a3} (hs1 : Keeps s0 s1) :
    Keeps s0 (State.pageSettle s1 a1 a2 a3) := by
  unfold State.pageSettle
  refine keeps_ite ?_ ?_
  · extract_lets -merge -underBinder +onlyGivenNames x1
    clear_value x1
    exact State.updKv_keeps (State.pageSt_keeps (by assumption))
  · exact State.pageSt_keeps (by assumption)

theorem State.pageUnref_keeps {s0 s1 : State} {a1 a2} (hs1 : Keeps s0 s1) :
    Keeps s0 (State.pageUnref s1 a1 a2) := by
  unfold State.pageUnref
  extract_lets -merge -underBinder +onlyGivenNames x1
  clear_value x1
  exact State.pageSettle_keeps (by assumption)

theorem State.pagePin_keeps {s0 s1 : State} {a1 a2} (hs1 : Keeps s0 s1) :
    Keeps s0 (State.pagePin s1 a1 a2) := by
  unfold State.pagePin
  extract_lets -merge -underBinder +onlyGivenNames x1
  clear_value x1
  exact State.pageSt_keeps (by assumption)

theorem State.pageUnpin_keeps {s0 s1 : State} {a1 a2} (hs1 : Keeps s0 s1) :
    Keeps s0 (State.pageUnpin s1 a1 a2) := by
  unfold State.pageUnpin
  extract_lets -merge -underBinder +onlyGivenNames x1
  clear_value x1
  exact State.pageSettle_keeps (by assumption)

theorem State.pageTake_keeps {s0 s1 : State} {a1 a2 a3 a4} (hs1 : Keeps s0 s1) :
    KeepsL s0 (State.pageTake s1 a1 a2 a3 a4) := by
  unfold State.pageTake
  extract_lets -merge -underBinder +onlyGivenNames x1
  clear_value x1
  refine keepsL_ite ?_ ?_
  · exact keepsL_mk (by assumption)
  · extract_lets -merge -underBinder +onlyGivenNames x2 x3
    clear_value x2
    have hx3 : Keeps s0 x3 := by
      subst x3
      exact State.updKv_keeps (by assumption)
    clear_value x3
    exact keepsL_mk (State.pageSt_keeps (by assumption))

theorem State.delivered_keeps {s0 s1 : State} {a1} (hs1 : Keeps s0 s1) :
    Keeps s0 (State.delivered s1 a1) := by
  unfold State.delivered
  extract_lets -merge -underBinder +onlyGivenNames x1 x2 x3
  clear_value x1 x2
  have hx3 : Keeps s0 x3 := by
    subst x3
    exact State.log_keeps (by assumption)
  clear_value x3
  extract_lets -merge -underBinder +onlyGivenNames x4
  have hx4 : Keeps s0 x4 := by
    subst x4
    exact State.raise_keeps (State.setFld_keeps (by assumption))
  clear_value x4
  refine keeps_ite ?_ ?_
  · assumption
  · exact State.updInj_keeps (State.regSet_keeps (by assumption))

theorem State.injStep_keeps {s0 s1 : State} {a1} (hs1 : Keeps s0 s1) :
    Keeps s0 (State.injStep s1 a1) := by
  unfold State.injStep
  extract_lets -merge -underBinder +onlyGivenNames x1
  clear_value x1
  refine keeps_ite ?_ ?_
  · exact State.delivered_keeps (by assumption)
  · exact State.updInj_keeps (by assumption)

theorem State.coverTile_keeps {s0 s1 : State} {a1 a2 a3 a4} (hs1 : Keeps s0 s1) :
    Keeps s0 (State.coverTile s1 a1 a2 a3 a4) := by
  unfold State.coverTile
  extract_lets -merge -underBinder +onlyGivenNames x1
  clear_value x1
  exact State.cover_keeps (by assumption)

end Sys2Proof.Machine
end

