-- ==== Sys2Proof/Laws/KeepsSafetyCore.lean ====
section
/-! SUPPORT. What the operations of Machine/SafetyCore.lean keep (Laws/Keeps.lean). -/
namespace Sys2Proof.Machine
set_option Elab.async false

theorem State.fallback_keeps {s0 s1 : State} {a1} (hs1 : Keeps s0 s1) :
    Keeps s0 (State.fallback s1 a1) := by
  unfold State.fallback
  extract_lets -merge -underBinder +onlyGivenNames x1 x2
  clear_value x1 x2
  exact State.updTarget_keeps (by assumption)

theorem State.fallbackAll_keeps {s0 s1 : State} (hs1 : Keeps s0 s1) :
    Keeps s0 (State.fallbackAll s1) := by
  unfold State.fallbackAll
  refine State.each_keeps ?_ (fun _ _ _ => ?_)
  · assumption
  · exact State.fallback_keeps (by assumption)

theorem State.drive_keeps {s0 s1 : State} {a1 a2} (hs1 : Keeps s0 s1) :
    Keeps s0 (State.drive s1 a1 a2) := by
  unfold State.drive
  refine keeps_ite ?_ ?_
  · assumption
  · refine keeps_ite ?_ ?_
    · exact State.bump_keeps (by assumption)
    · exact State.updTarget_keeps (by assumption)

theorem State.releaseTargets_keeps {s0 s1 : State} (hs1 : Keeps s0 s1) :
    Keeps s0 (State.releaseTargets s1) := by
  unfold State.releaseTargets
  refine State.each_keeps ?_ (fun _ _ _ => ?_)
  · refine State.updPlumb_keeps ?_ ?_
    · assumption
    · first | exact fun _ h => h | (intro _ h; split <;> exact h) | (intro _ h; simp_all [Plumb.Sized, lmod])
  · exact State.updTarget_keeps (by assumption)

theorem State.updGraph_keeps {s0 s1 : State} {a1 a2} (hs1 : Keeps s0 s1) :
    Keeps s0 (State.updGraph s1 a1 a2) := by
  unfold State.updGraph
  exact State.updBond_keeps (by assumption)

theorem State.updAccount_keeps {s0 s1 : State} {a1 a2 a3} (hs1 : Keeps s0 s1) :
    Keeps s0 (State.updAccount s1 a1 a2 a3) := by
  unfold State.updAccount
  extract_lets -merge -underBinder +onlyGivenNames x1
  clear_value x1
  exact State.updBond_keeps (by assumption)

theorem State.completion_keeps {s0 s1 : State} {a1 a2 a3 a4} (hs1 : Keeps s0 s1) :
    Keeps s0 (State.completion s1 a1 a2 a3 a4) := by
  unfold State.completion
  extract_lets -merge -underBinder +onlyGivenNames x1 x2 x3 x4 x5 x6 x7
  clear_value x1 x2 x3 x4 x5 x6
  have hx7 : Keeps s0 x7 := by
    subst x7
    refine keeps_ite ?_ ?_
    · assumption
    · exact State.stBytes_keeps (by assumption)
  clear_value x7
  exact State.updAccount_keeps (by assumption)

theorem State.endRun_keeps {s0 s1 : State} {a1 a2 a3 a4} (hs1 : Keeps s0 s1) :
    Keeps s0 (State.endRun s1 a1 a2 a3 a4) := by
  unfold State.endRun
  extract_lets -merge -underBinder +onlyGivenNames x1 x2 x3
  clear_value x1 x2
  have hx3 : Keeps s0 x3 := by
    subst x3
    exact State.completion_keeps (by assumption)
  clear_value x3
  extract_lets -merge -underBinder +onlyGivenNames x4
  have hx4 : Keeps s0 x4 := by
    subst x4
    refine State.each_keeps ?_ (fun _ _ _ => ?_)
    · assumption
    · exact State.pageUnpin_keeps (by assumption)
  clear_value x4
  extract_lets -merge -underBinder +onlyGivenNames x5 x6 x7
  clear_value x5 x6
  have hx7 : Keeps s0 x7 := by
    subst x7
    exact State.bump_keeps (State.regSet_keeps (State.regSet_keeps (by assumption)))
  clear_value x7
  extract_lets -merge -underBinder +onlyGivenNames x8 x9
  clear_value x8
  have hx9 : Keeps s0 x9 := by
    subst x9
    refine State.updMt_keeps ?_ ?_
    · assumption
    · first | exact fun _ h => h | (intro _ h; split <;> exact h) | (intro _ h; simp_all [MemTier.Sized, lmod])
  clear_value x9
  refine State.updDie_keeps ?_ ?_
  · assumption
  · first | exact fun _ h => h | (intro _ h; split <;> exact h) | (intro _ h; simp_all [Die.Sized, lmod])

theorem State.loseTasks_keeps {s0 s1 : State} {a1} (hs1 : Keeps s0 s1) :
    Keeps s0 (State.loseTasks s1 a1) := by
  unfold State.loseTasks
  extract_lets -merge -underBinder +onlyGivenNames x1
  have hx1 : Keeps s0 x1 := by
    subst x1
    refine State.each_keeps ?_ (fun _ _ _ => ?_)
    · assumption
    · split
      · split
        · exact State.chunkLost_keeps (State.endRun_keeps (by assumption))
        · exact State.endRun_keeps (by assumption)
      · assumption
  clear_value x1
  extract_lets -merge -underBinder +onlyGivenNames x2
  have hx2 : Keeps s0 x2 := by
    subst x2
    refine State.each_keeps ?_ (fun _ _ _ => ?_)
    · assumption
    · exact State.ctxSetQueue_keeps (by assumption)
  clear_value x2
  extract_lets -merge -underBinder +onlyGivenNames x3
  have hx3 : Keeps s0 x3 := by
    subst x3
    exact State.updStream_keeps (by assumption)
  clear_value x3
  refine State.updDie_keeps ?_ ?_
  · assumption
  · first | exact fun _ h => h | (intro _ h; split <;> exact h) | (intro _ h; simp_all [Die.Sized, lmod])

theorem State.shardGone_keeps {s0 s1 : State} {a1 a2} (hs1 : Keeps s0 s1) :
    Keeps s0 (State.shardGone s1 a1 a2) := by
  unfold State.shardGone
  extract_lets -merge -underBinder +onlyGivenNames x1
  clear_value x1
  exact State.updBond_keeps (by assumption)

theorem State.loseGraphs_keeps {s0 s1 : State} {a1 a2 a3} (hs1 : Keeps s0 s1) :
    Keeps s0 (State.loseGraphs s1 a1 a2 a3) := by
  unfold State.loseGraphs
  extract_lets -merge -underBinder +onlyGivenNames x1 x2
  clear_value x1
  have hx2 : Keeps s0 x2 := by
    subst x2
    refine State.each_keeps ?_ (fun _ _ _ => ?_)
    · assumption
    · extract_lets -merge -underBinder +onlyGivenNames x3
      have hx3 : Keeps s0 x3 := by
        subst x3
        split
        · exact State.coverTile_keeps (by assumption)
        · assumption
      clear_value x3
      extract_lets -merge -underBinder +onlyGivenNames x4
      clear_value x4
      exact State.answerDeferred_keeps (by assumption)
  clear_value x2
  extract_lets -merge -underBinder +onlyGivenNames x5
  have hx5 : Keeps s0 x5 := by
    subst x5
    exact State.updBond_keeps (by assumption)
  clear_value x5
  refine State.each_keeps ?_ (fun _ _ _ => ?_)
  · assumption
  · exact State.shardGone_keeps (by assumption)

theorem State.watchOpen_keeps {s0 s1 : State} {a1 a2} (hs1 : Keeps s0 s1) :
    Keeps s0 (State.watchOpen s1 a1 a2) := by
  unfold State.watchOpen
  refine keeps_ite ?_ ?_
  · assumption
  · extract_lets -merge -underBinder +onlyGivenNames x1
    clear_value x1
    refine keeps_ite ?_ ?_
    · exact State.bump_keeps (by assumption)
    · extract_lets -merge -underBinder +onlyGivenNames x2 x3 x4
      clear_value x2 x3
      have hx4 : Keeps s0 x4 := by
        subst x4
        refine keeps_ite ?_ ?_
        · assumption
        · exact State.injStep_keeps (by assumption)
      clear_value x4
      extract_lets -merge -underBinder +onlyGivenNames x5
      clear_value x5
      exact State.updStage_keeps (by assumption)

theorem State.wdStatus_keeps {s0 s1 : State} {a1 a2 a3} (hs1 : Keeps s0 s1) :
    Keeps s0 (State.wdStatus s1 a1 a2 a3) := by
  unfold State.wdStatus
  exact State.regSet_keeps (by assumption)

theorem State.readmit_keeps {s0 s1 : State} (hs1 : Keeps s0 s1) :
    Keeps s0 (State.readmit s1) := by
  unfold State.readmit
  refine keeps_ite ?_ ?_
  · exact State.updBond_keeps (by assumption)
  · assumption

theorem State.awaitResume_keeps {s0 s1 : State} {a1 a2} (hs1 : Keeps s0 s1) :
    Keeps s0 (State.awaitResume s1 a1 a2) := by
  unfold State.awaitResume
  refine keeps_ite ?_ ?_
  · exact State.updBond_keeps (by assumption)
  · assumption

theorem State.injLost_keeps {s0 s1 : State} {a1} (hs1 : Keeps s0 s1) :
    Keeps s0 (State.injLost s1 a1) := by
  unfold State.injLost
  extract_lets -merge -underBinder +onlyGivenNames x1
  clear_value x1
  refine keeps_ite ?_ ?_
  · extract_lets -merge -underBinder +onlyGivenNames x2
    have hx2 : Keeps s0 x2 := by
      subst x2
      refine State.updTest_keeps ?_ ?_
      · exact State.regSet_keeps (by assumption)
      · first | exact fun _ h => h | (intro _ h; split <;> exact h) | (intro _ h; simp_all [Test.Sized, lmod])
    clear_value x2
    exact State.raise_keeps (State.setFld_keeps (by assumption))
  · assumption

theorem State.pairRestart_keeps {s0 s1 : State} {a1} (hs1 : Keeps s0 s1) :
    Keeps s0 (State.pairRestart s1 a1) := by
  unfold State.pairRestart
  extract_lets -merge -underBinder +onlyGivenNames x1
  clear_value x1
  refine keeps_ite ?_ ?_
  · assumption
  · extract_lets -merge -underBinder +onlyGivenNames x2 x3
    clear_value x2
    have hx3 : Keeps s0 x3 := by
      subst x3
      refine State.each_keeps ?_ (fun _ _ _ => ?_)
      · assumption
      · exact State.updStage_keeps (by assumption)
    clear_value x3
    extract_lets -merge -underBinder +onlyGivenNames x4
    have hx4 : Keeps s0 x4 := by
      subst x4
      exact State.injLost_keeps (State.awaitResume_keeps (State.loseGraphs_keeps (State.loseTasks_keeps (by assumption))))
    clear_value x4
    refine State.updDie_keeps ?_ ?_
    · assumption
    · first | exact fun _ h => h | (intro _ h; split <;> exact h) | (intro _ h; simp_all [Die.Sized, lmod])

theorem State.lineReset_keeps {s0 s1 : State} (hs1 : Keeps s0 s1) :
    Keeps s0 (State.lineReset s1) := by
  unfold State.lineReset
  refine State.updLine_keeps ?_ ?_
  · assumption
  · first | exact fun _ h => h | (intro _ h; split <;> exact h) | (intro _ h; simp_all [Line.Sized, lmod])

theorem State.safeTrigger_keeps {s0 s1 : State} {a1 a2} (hs1 : Keeps s0 s1) :
    Keeps s0 (State.safeTrigger s1 a1 a2) := by
  unfold State.safeTrigger
  extract_lets -merge -underBinder +onlyGivenNames x1
  have hx1 : Keeps s0 x1 := by
    subst x1
    exact State.bumpHi_keeps (by assumption)
  clear_value x1
  extract_lets -merge -underBinder +onlyGivenNames x2 x3
  clear_value x2
  have hx3 : Keeps s0 x3 := by
    subst x3
    refine State.updPlumb_keeps ?_ ?_
    · assumption
    · first | exact fun _ h => h | (intro _ h; split <;> exact h) | (intro _ h; simp_all [Plumb.Sized, lmod])
  clear_value x3
  extract_lets -merge -underBinder +onlyGivenNames x4
  have hx4 : ∀ y0, Keeps s0 y0 → Keeps s0 (x4 y0) := by
    subst x4
    intro y0 _
    refine keeps_ite ?_ ?_
    · assumption
    · exact State.regSet_keeps (State.regSet_keeps (State.regSet_keeps (by assumption)))
  clear_value x4
  refine keeps_ite ?_ ?_
  · refine keeps_ite ?_ ?_
    · refine hx4 _ ?_
      assumption
    · assumption
  · extract_lets -merge -underBinder +onlyGivenNames x5
    have hx5 : Keeps s0 x5 := by
      subst x5
      refine State.updPlumb_keeps ?_ ?_
      · refine State.raise_keeps ?_
        refine State.fallbackAll_keeps ?_
        refine hx4 _ ?_
        assumption
      · first | exact fun _ h => h | (intro _ h; split <;> exact h) | (intro _ h; simp_all [Plumb.Sized, lmod])
    clear_value x5
    refine keeps_ite ?_ ?_
    · refine State.updPlumb_keeps ?_ ?_
      · assumption
      · first | exact fun _ h => h | (intro _ h; split <;> exact h) | (intro _ h; simp_all [Plumb.Sized, lmod])
    · extract_lets -merge -underBinder +onlyGivenNames x6 x7 x8 x9
      clear_value x6 x7 x8
      have hx9 : Keeps s0 x9 := by
        subst x9
        refine State.updPlumb_keeps ?_ ?_
        · assumption
        · first | exact fun _ h => h | (intro _ h; split <;> exact h) | (intro _ h; simp_all [Plumb.Sized, lmod])
      clear_value x9
      extract_lets -merge -underBinder +onlyGivenNames x10
      have hx10 : Keeps s0 x10 := by
        subst x10
        refine keeps_ite ?_ ?_
        · refine State.raise_keeps ?_
          refine State.updPlumb_keeps ?_ ?_
          · assumption
          · first | exact fun _ h => h | (intro _ h; split <;> exact h) | (intro _ h; simp_all [Plumb.Sized, lmod])
        · assumption
      clear_value x10
      extract_lets -merge -underBinder +onlyGivenNames x11
      have hx11 : Keeps s0 x11 := by
        subst x11
        refine State.each_keeps ?_ (fun _ _ _ => ?_)
        · assumption
        · extract_lets -merge -underBinder +onlyGivenNames x12
          clear_value x12
          refine keeps_ite ?_ ?_
          · assumption
          · refine State.updDie_keeps ?_ ?_
            · refine State.injLost_keeps ?_
              exact State.awaitResume_keeps (State.loseGraphs_keeps (State.loseTasks_keeps (by assumption)))
            · first | exact fun _ h => h | (intro _ h; split <;> exact h) | (intro _ h; simp_all [Die.Sized, lmod])
      clear_value x11
      exact State.bulkEnd_keeps (State.lineReset_keeps (by assumption))

theorem State.lockstepFault_keeps {s0 s1 : State} (hs1 : Keeps s0 s1) :
    Keeps s0 (State.lockstepFault s1) := by
  unfold State.lockstepFault
  refine keeps_ite ?_ ?_
  · assumption
  · extract_lets -merge -underBinder +onlyGivenNames x1
    have hx1 : Keeps s0 x1 := by
      subst x1
      refine State.raise_keeps ?_
      refine State.updPlumb_keeps ?_ ?_
      · assumption
      · first | exact fun _ h => h | (intro _ h; split <;> exact h) | (intro _ h; simp_all [Plumb.Sized, lmod])
    clear_value x1
    exact State.safeTrigger_keeps (State.fallbackAll_keeps (by assumption))

theorem State.stageAction_keeps {s0 s1 : State} {a1 a2 a3 a4} (hs1 : Keeps s0 s1) :
    Keeps s0 (State.stageAction s1 a1 a2 a3 a4) := by
  unfold State.stageAction
  split
  · assumption
  · exact State.pairRestart_keeps (by assumption)
  · exact State.safeTrigger_keeps (by assumption)

theorem State.violation_keeps {s0 s1 : State} {a1 a2 a3 a4} (hs1 : Keeps s0 s1) :
    Keeps s0 (State.violation s1 a1 a2 a3 a4) := by
  unfold State.violation
  extract_lets -merge -underBinder +onlyGivenNames x1
  have hx1 : Keeps s0 x1 := by
    subst x1
    refine keeps_ite ?_ ?_
    · exact State.bumpHi_keeps (by assumption)
    · exact State.bumpLo_keeps (by assumption)
  clear_value x1
  extract_lets -merge -underBinder +onlyGivenNames x2 x3
  clear_value x2
  have hx3 : Keeps s0 x3 := by
    subst x3
    exact State.wdStatus_keeps (State.updStage_keeps (by assumption))
  clear_value x3
  refine keeps_ite ?_ ?_
  · assumption
  · extract_lets -merge -underBinder +onlyGivenNames x4
    have hx4 : Keeps s0 x4 := by
      subst x4
      exact State.raise_keeps (by assumption)
    clear_value x4
    exact State.stageAction_keeps (by assumption)

theorem State.watchKick_keeps {s0 s1 : State} {a1 a2} (hs1 : Keeps s0 s1) :
    Keeps s0 (State.watchKick s1 a1 a2) := by
  unfold State.watchKick
  split
  · assumption
  · extract_lets -merge -underBinder +onlyGivenNames x1 x2 x3
    clear_value x1 x2
    have hx3 : Keeps s0 x3 := by
      subst x3
      exact State.updStage_keeps (by assumption)
    clear_value x3
    refine keeps_ite ?_ ?_
    · exact State.violation_keeps (by assumption)
    · refine keeps_ite ?_ ?_
      · exact State.violation_keeps (by assumption)
      · exact State.wdStatus_keeps (State.updStage_keeps (by assumption))

theorem State.watchRef_keeps {s0 s1 : State} {a1 a2} (hs1 : Keeps s0 s1) :
    Keeps s0 (State.watchRef s1 a1 a2) := by
  unfold State.watchRef
  extract_lets -merge -underBinder +onlyGivenNames x1
  have hx1 : Keeps s0 x1 := by
    subst x1
    exact State.watchOpen_keeps (by assumption)
  clear_value x1
  refine keeps_ite ?_ ?_
  · exact State.watchKick_keeps (by assumption)
  · assumption

theorem State.graphCheck_keeps {s0 s1 : State} {a1} (hs1 : Keeps s0 s1) :
    Keeps s0 (State.graphCheck s1 a1) := by
  unfold State.graphCheck
  split
  · assumption
  · refine keeps_ite ?_ ?_
    · assumption
    · extract_lets -merge -underBinder +onlyGivenNames x1
      have hx1 : Keeps s0 x1 := by
        subst x1
        refine keeps_ite ?_ ?_
        · exact State.watchKick_keeps (by assumption)
        · assumption
      clear_value x1
      extract_lets -merge -underBinder +onlyGivenNames x2
      have hx2 : Keeps s0 x2 := by
        subst x2
        exact State.updBond_keeps (by assumption)
      clear_value x2
      exact State.answerDeferred_keeps (by assumption)

theorem State.graphCancel_keeps {s0 s1 : State} {a1 a2} (hs1 : Keeps s0 s1) :
    Keeps s0 (State.graphCancel s1 a1 a2) := by
  unfold State.graphCancel
  extract_lets -merge -underBinder +onlyGivenNames x1
  have hx1 : Keeps s0 x1 := by
    subst x1
    split
    · exact State.coverTile_keeps (by assumption)
    · assumption
  clear_value x1
  extract_lets -merge -underBinder +onlyGivenNames x2 x3 x4
  clear_value x2 x3
  have hx4 : Keeps s0 x4 := by
    subst x4
    exact State.updGraph_keeps (by assumption)
  clear_value x4
  extract_lets -merge -underBinder +onlyGivenNames x5
  have hx5 : Keeps s0 x5 := by
    subst x5
    exact State.shardGone_keeps (by assumption)
  clear_value x5
  extract_lets -merge -underBinder +onlyGivenNames x6
  have hx6 : Keeps s0 x6 := by
    subst x6
    refine State.each_keeps ?_ (fun _ _ _ => ?_)
    · assumption
    · extract_lets -merge -underBinder +onlyGivenNames x7
      clear_value x7
      refine keeps_ite ?_ ?_
      · assumption
      · refine State.ctxSetQueue_keeps ?_
        refine State.each_keeps ?_ (fun _ _ _ => ?_)
        · assumption
        · exact State.chunkLost_keeps (by assumption)
  clear_value x6
  refine keeps_ite ?_ ?_
  · exact State.updBond_keeps (by assumption)
  · exact State.graphCheck_keeps (by assumption)

theorem State.graphsVacant_keeps {s0 s1 : State} {a1 a2} (hs1 : Keeps s0 s1) :
    Keeps s0 (State.graphsVacant s1 a1 a2) := by
  unfold State.graphsVacant
  refine State.each_keeps ?_ (fun _ _ _ => ?_)
  · assumption
  · exact State.graphCancel_keeps (by assumption)

theorem State.capGrant_keeps {s0 s1 : State} (hs1 : Keeps s0 s1) :
    Keeps s0 (State.capGrant s1) := by
  unfold State.capGrant
  exact State.updPower_keeps (by assumption)

theorem State.dieFail_keeps {s0 s1 : State} {a1} (hs1 : Keeps s0 s1) :
    Keeps s0 (State.dieFail s1 a1) := by
  unfold State.dieFail
  refine keeps_ite ?_ ?_
  · assumption
  · extract_lets -merge -underBinder +onlyGivenNames x1
    have hx1 : Keeps s0 x1 := by
      subst x1
      exact State.loseGraphs_keeps (State.loseTasks_keeps (by assumption))
    clear_value x1
    refine State.readmit_keeps ?_
    refine State.capGrant_keeps ?_
    refine State.raise_keeps ?_
    refine State.updDie_keeps ?_ ?_
    · assumption
    · first | exact fun _ h => h | (intro _ h; split <;> exact h) | (intro _ h; simp_all [Die.Sized, lmod])

theorem State.respare_keeps {s0 s1 : State} {a1 a2} (hs1 : Keeps s0 s1) :
    Keeps s0 (State.respare s1 a1 a2) := by
  unfold State.respare
  split
  · extract_lets -merge -underBinder +onlyGivenNames x1
    have hx1 : Keeps s0 x1 := by
      subst x1
      exact State.updSlot_keeps (by assumption)
    clear_value x1
    exact State.raise_keeps (State.updCore_keeps (by assumption))
  · extract_lets -merge -underBinder +onlyGivenNames x2
    have hx2 : Keeps s0 x2 := by
      subst x2
      exact State.graphsVacant_keeps (State.updSlot_keeps (by assumption))
    clear_value x2
    extract_lets -merge -underBinder +onlyGivenNames x3
    have hx3 : Keeps s0 x3 := by
      subst x3
      exact State.readmit_keeps (State.capGrant_keeps (State.raise_keeps (State.raise_keeps (by assumption))))
    clear_value x3
    refine keeps_ite ?_ ?_
    · refine State.pairRestart_keeps ?_
      refine State.updDie_keeps ?_ ?_
      · assumption
      · first | exact fun _ h => h | (intro _ h; split <;> exact h) | (intro _ h; simp_all [Die.Sized, lmod])
    · assumption

theorem State.coreFail_keeps {s0 s1 : State} {a1 a2 a3} (hs1 : Keeps s0 s1) :
    Keeps s0 (State.coreFail s1 a1 a2 a3) := by
  unfold State.coreFail
  split
  · assumption
  · extract_lets -merge -underBinder +onlyGivenNames x1
    have hx1 : Keeps s0 x1 := by
      subst x1
      exact State.raise_keeps (State.updCore_keeps (by assumption))
    clear_value x1
    split
    · extract_lets -merge -underBinder +onlyGivenNames x2
      have hx2 : Keeps s0 x2 := by
        subst x2
        exact State.updRun_keeps (by assumption)
      clear_value x2
      exact State.respare_keeps (by assumption)
    · assumption

end Sys2Proof.Machine
end

