-- ==== Sys2Proof/Laws/KeepsMemCore.lean ====
section
/-! SUPPORT. What the operations of Machine/MemCore.lean keep (Laws/Keeps.lean). -/
namespace Sys2Proof.Machine
set_option Elab.async false

theorem State.pteSet_keeps {s0 s1 : State} {a1 a2} (hs1 : Keeps s0 s1) :
    Keeps s0 (State.pteSet s1 a1 a2) := by
  unfold State.pteSet
  exact State.linSt_keeps (by assumption)

theorem State.queueBurst_keeps {s0 s1 : State} {a1 a2 a3} (hs1 : Keeps s0 s1) :
    Keeps s0 (State.queueBurst s1 a1 a2 a3) := by
  unfold State.queueBurst
  exact State.updQch_keeps (by assumption)

theorem State.queueBursts_keeps {s0 s1 : State} {a1 a2 a3 a4 a5 a6 a7} (hs1 : Keeps s0 s1) :
    Keeps s0 (State.queueBursts s1 a1 a2 a3 a4 a5 a6 a7) := by
  unfold State.queueBursts
  refine keeps_ite ?_ ?_
  · assumption
  · refine State.each_keeps ?_ (fun _ _ _ => ?_)
    · assumption
    · extract_lets -merge -underBinder +onlyGivenNames x1 x2
      clear_value x1 x2
      exact State.queueBurst_keeps (by assumption)

theorem State.unflip_keeps {s0 s1 : State} {a1} (hs1 : Keeps s0 s1) :
    Keeps s0 (State.unflip s1 a1) := by
  unfold State.unflip
  refine State.updMt_keeps ?_ ?_
  · assumption
  · first | exact fun _ h => h | (intro _ h; split <;> exact h) | (intro _ h; simp_all [MemTier.Sized, lmod])

theorem State.repairRow_keeps {s0 s1 : State} {a1} (hs1 : Keeps s0 s1) :
    Keeps s0 (State.repairRow s1 a1) := by
  unfold State.repairRow
  extract_lets -merge -underBinder +onlyGivenNames x1
  have hx1 : Keeps s0 x1 := by
    subst x1
    refine State.updMt_keeps ?_ ?_
    · assumption
    · first | exact fun _ h => h | (intro _ h; split <;> exact h) | (intro _ h; simp_all [MemTier.Sized, lmod])
  clear_value x1
  split
  · refine keeps_ite ?_ ?_
    · extract_lets -merge -underBinder +onlyGivenNames x2
      have hx2 : Keeps s0 x2 := by
        subst x2
        refine State.updMt_keeps ?_ ?_
        · assumption
        · first | exact fun _ h => h | (intro _ h; split <;> exact h) | (intro _ h; simp_all [MemTier.Sized, lmod])
      clear_value x2
      extract_lets -merge -underBinder +onlyGivenNames x3 x4
      clear_value x3
      have hx4 : Keeps s0 x4 := by
        subst x4
        refine keeps_ite ?_ ?_
        · assumption
        · exact State.updCore_keeps (by assumption)
      clear_value x4
      exact State.raise_keeps (State.bumpHi_keeps (by assumption))
    · extract_lets -merge -underBinder +onlyGivenNames x5
      have hx5 : Keeps s0 x5 := by
        subst x5
        refine State.raise_keeps ?_
        refine State.bumpLo_keeps ?_
        refine State.updMt_keeps ?_ ?_
        · assumption
        · first | exact fun _ h => h | (intro _ h; split <;> exact h) | (intro _ h; simp_all [MemTier.Sized, lmod])
      clear_value x5
      extract_lets -merge -underBinder +onlyGivenNames x6 x7
      clear_value x6 x7
      refine keeps_ite ?_ ?_
      · assumption
      · split
        · refine State.updMt_keeps ?_ ?_
          · assumption
          · first | exact fun _ h => h | (intro _ h; split <;> exact h) | (intro _ h; simp_all [MemTier.Sized, lmod])
        · refine keeps_ite ?_ ?_
          · refine State.updMt_keeps ?_ ?_
            · assumption
            · first | exact fun _ h => h | (intro _ h; split <;> exact h) | (intro _ h; simp_all [MemTier.Sized, lmod])
          · split
            · assumption
            · refine State.updMt_keeps ?_ ?_
              · exact State.pteSet_keeps (by assumption)
              · first | exact fun _ h => h | (intro _ h; split <;> exact h) | (intro _ h; simp_all [MemTier.Sized, lmod])

theorem State.wearRow_keeps {s0 s1 : State} {a1} (hs1 : Keeps s0 s1) :
    Keeps s0 (State.wearRow s1 a1) := by
  unfold State.wearRow
  extract_lets -merge -underBinder +onlyGivenNames x1
  clear_value x1
  refine keeps_ite ?_ ?_
  · assumption
  · extract_lets -merge -underBinder +onlyGivenNames x2 x3
    clear_value x2
    have hx3 : Keeps s0 x3 := by
      subst x3
      refine State.updMt_keeps ?_ ?_
      · assumption
      · first | exact fun _ h => h | (intro _ h; split <;> exact h) | (intro _ h; simp_all [MemTier.Sized, lmod])
    clear_value x3
    refine keeps_ite ?_ ?_
    · exact State.repairRow_keeps (by assumption)
    · assumption

theorem State.repairCore_keeps {s0 s1 : State} {a1 a2} (hs1 : Keeps s0 s1) :
    Keeps s0 (State.repairCore s1 a1 a2) := by
  unfold State.repairCore
  extract_lets -merge -underBinder +onlyGivenNames x1
  clear_value x1
  refine State.each_keeps ?_ (fun _ _ _ => ?_)
  · assumption
  · exact State.repairRow_keeps (by assumption)

theorem State.coreUncorr_keeps {s0 s1 : State} {a1 a2 a3} (hs1 : Keeps s0 s1) :
    Keeps s0 (State.coreUncorr s1 a1 a2 a3) := by
  unfold State.coreUncorr
  extract_lets -merge -underBinder +onlyGivenNames x1 x2
  clear_value x1
  have hx2 : Keeps s0 x2 := by
    subst x2
    exact State.updCore_keeps (by assumption)
  clear_value x2
  extract_lets -merge -underBinder +onlyGivenNames x3
  have hx3 : Keeps s0 x3 := by
    subst x3
    split
    · exact State.updRun_keeps (by assumption)
    · assumption
  clear_value x3
  refine keeps_ite ?_ ?_
  · exact State.coreFail_keeps (by assumption)
  · assumption

theorem State.eccRead_keeps {s0 s1 : State} {a1 a2} (hs1 : Keeps s0 s1) :
    KeepsL s0 (State.eccRead s1 a1 a2) := by
  unfold State.eccRead
  refine keepsL_foldl (fun _ _ _ => ?_) ?_
  · extract_lets -merge -underBinder +onlyGivenNames x1
    have hx1 : Keeps s0 x1 := by
      subst x1
      exact KeepsL.fst (by assumption)
    clear_value x1
    extract_lets -merge -underBinder +onlyGivenNames x2 x3
    clear_value x2 x3
    refine keepsL_ite ?_ ?_
    · refine keepsL_ite ?_ ?_
      · refine keepsL_mk ?_
        exact State.wearRow_keeps (State.unflip_keeps (State.raise_keeps (State.bumpHi_keeps (by assumption))))
      · exact keepsL_mk (State.raise_keeps (State.bumpLo_keeps (by assumption)))
    · refine keepsL_ite ?_ ?_
      · extract_lets -merge -underBinder +onlyGivenNames x4 x5 x6
        clear_value x4 x5 x6
        refine keepsL_ite ?_ ?_
        · refine keepsL_mk ?_
          refine State.wearRow_keeps ?_
          exact State.unflip_keeps (State.raise_keeps (State.bumpHi_keeps (State.bumpHi_keeps (by assumption))))
        · refine keepsL_mk ?_
          exact State.coreUncorr_keeps (State.raise_keeps (State.bumpLo_keeps (State.bumpLo_keeps (by assumption))))
      · split
        · refine keepsL_ite ?_ ?_
          · exact keepsL_mk (State.unflip_keeps (State.bumpHi_keeps (by assumption)))
          · exact keepsL_mk (State.raise_keeps (State.bumpLo_keeps (by assumption)))
        · refine keepsL_mk ?_
          exact KeepsL.fst (by assumption)
  · exact keepsL_mk (by assumption)

theorem State.pageAccess_keeps {s0 s1 : State} {a1 a2 a3 a4 a5} (hs1 : Keeps s0 s1) :
    KeepsL s0 (State.pageAccess s1 a1 a2 a3 a4 a5) := by
  unfold State.pageAccess
  extract_lets -merge -underBinder +onlyGivenNames x1
  clear_value x1
  refine keepsL_ite ?_ ?_
  · exact keepsL_mk (by assumption)
  · refine keepsL_ite ?_ ?_
    · exact keepsL_mk (by assumption)
    · extract_lets -merge -underBinder +onlyGivenNames x2
      have hx2 : Keeps s0 x2 := by
        subst x2
        exact State.pteSet_keeps (by assumption)
      clear_value x2
      extract_lets -merge -underBinder +onlyGivenNames x3
      have hx3 : Keeps s0 x3 := by
        subst x3
        exact State.queueBursts_keeps (by assumption)
      clear_value x3
      extract_lets -merge -underBinder +onlyGivenNames x4
      have hx4 : Keeps s0 x4 := by
        subst x4
        refine keeps_ite ?_ ?_
        · refine State.updMt_keeps ?_ ?_
          · assumption
          · first | exact fun _ h => h | (intro _ h; split <;> exact h) | (intro _ h; simp_all [MemTier.Sized, lmod])
        · assumption
      clear_value x4
      extract_lets -merge -underBinder +onlyGivenNames x5
      clear_value x5
      refine keepsL_ite ?_ ?_
      · exact keepsL_mk (by assumption)
      · split
        · refine KeepsL.of_eq (a := s0) (by assumption) ?_ (fun _ => ?_)
          · exact State.eccRead_keeps (by assumption)
          exact keepsL_mk (by assumption)

theorem State.tierRead_keeps {s0 s1 : State} {a1 a2 a3} (hs1 : Keeps s0 s1) :
    KeepsL s0 (State.tierRead s1 a1 a2 a3) := by
  unfold State.tierRead
  refine keepsL_foldl (fun _ _ _ => ?_) ?_
  · split
    · assumption
    · split
      · refine KeepsL.of_eq (a := s0) (by assumption) ?_ (fun _ => ?_)
        · refine State.pageAccess_keeps ?_
          exact KeepsL.fst (by assumption)
        exact keepsL_mk (by assumption)
      · refine KeepsL.of_eq (a := s0) (by assumption) ?_ (fun _ => ?_)
        · refine State.pageAccess_keeps ?_
          exact KeepsL.fst (by assumption)
        exact keepsL_mk (by assumption)
  · exact keepsL_mk (by assumption)

theorem State.tierWrite_keeps {s0 s1 : State} {a1 a2 a3} (hs1 : Keeps s0 s1) :
    KeepsL s0 (State.tierWrite s1 a1 a2 a3) := by
  unfold State.tierWrite
  extract_lets -merge -underBinder +onlyGivenNames x1
  have hx1 : KeepsL s0 x1 := by
    subst x1
    refine keepsL_foldl (fun _ _ _ => ?_) ?_
    · split
      · assumption
      · split
        · refine KeepsL.of_eq (a := s0) (by assumption) ?_ (fun _ => ?_)
          · refine State.pageAccess_keeps ?_
            exact KeepsL.fst (by assumption)
          exact keepsL_mk (by assumption)
        · refine KeepsL.of_eq (a := s0) (by assumption) ?_ (fun _ => ?_)
          · refine State.pageAccess_keeps ?_
            exact KeepsL.fst (by assumption)
          exact keepsL_mk (State.stBytes_keeps (by assumption))
    · exact keepsL_mk (by assumption)
  clear_value x1
  refine keepsL_mk ?_
  exact KeepsL.fst (by assumption)

theorem State.abortMove_keeps {s0 s1 : State} {a1} (hs1 : Keeps s0 s1) :
    Keeps s0 (State.abortMove s1 a1) := by
  unfold State.abortMove
  refine keeps_ite ?_ ?_
  · extract_lets -merge -underBinder +onlyGivenNames x1
    have hx1 : Keeps s0 x1 := by
      subst x1
      refine State.updMt_keeps ?_ ?_
      · assumption
      · first | exact fun _ h => h | (intro _ h; split <;> exact h) | (intro _ h; simp_all [MemTier.Sized, lmod])
    clear_value x1
    exact State.raise_keeps (State.bump_keeps (State.pteSet_keeps (by assumption)))
  · assumption

theorem State.placePage_keeps {s0 s1 : State} {a1 a2 a3} (hs1 : Keeps s0 s1) :
    KeepsO s0 (State.placePage s1 a1 a2 a3) := by
  unfold State.placePage
  extract_lets -merge -underBinder +onlyGivenNames x1
  clear_value x1
  split
  · exact keepsO_none
  · extract_lets -merge -underBinder +onlyGivenNames x2 x3
    have hx3 : Keeps s0 x3 := by
      subst x3
      refine keeps_ite ?_ ?_
      · refine State.updMt_keeps ?_ ?_
        · assumption
        · first | exact fun _ h => h | (intro _ h; split <;> exact h) | (intro _ h; simp_all [MemTier.Sized, lmod])
      · assumption
    clear_value x3
    extract_lets -merge -underBinder +onlyGivenNames x4
    have hx4 : Keeps s0 x4 := by
      subst x4
      exact State.queueBursts_keeps (State.zero_keeps (by assumption))
    clear_value x4
    extract_lets -merge -underBinder +onlyGivenNames x5
    have hx5 : Keeps s0 x5 := by
      subst x5
      exact State.pteSet_keeps (by assumption)
    clear_value x5
    refine keepsO_some ?_
    refine keeps_ite ?_ ?_
    · assumption
    · exact State.raise_keeps (by assumption)

theorem State.mapPage_keeps {s0 s1 : State} {a1 a2 a3} (hs1 : Keeps s0 s1) :
    KeepsO s0 (State.mapPage s1 a1 a2 a3) := by
  unfold State.mapPage
  refine keepsO_ite ?_ ?_
  · exact keepsO_some (by assumption)
  · exact State.placePage_keeps (by assumption)

theorem State.unmapPage_keeps {s0 s1 : State} {a1} (hs1 : Keeps s0 s1) :
    Keeps s0 (State.unmapPage s1 a1) := by
  unfold State.unmapPage
  exact State.pteSet_keeps (State.abortMove_keeps (by assumption))

theorem State.burstErr_keeps {s0 s1 : State} {a1} (hs1 : Keeps s0 s1) :
    Keeps s0 (State.burstErr s1 a1) := by
  unfold State.burstErr
  split
  · exact State.raise_keeps (State.pageSt_keeps (by assumption))
  · exact State.updRun_keeps (by assumption)
  · assumption

theorem State.qchExclude_keeps {s0 s1 : State} {a1 a2} (hs1 : Keeps s0 s1) :
    Keeps s0 (State.qchExclude s1 a1 a2) := by
  unfold State.qchExclude
  extract_lets -merge -underBinder +onlyGivenNames x1
  clear_value x1
  refine keeps_ite ?_ ?_
  · assumption
  · extract_lets -merge -underBinder +onlyGivenNames x2
    have hx2 : Keeps s0 x2 := by
      subst x2
      refine State.each_keeps ?_ (fun _ _ _ => ?_)
      · assumption
      · exact State.burstErr_keeps (by assumption)
    clear_value x2
    extract_lets -merge -underBinder +onlyGivenNames x3
    have hx3 : Keeps s0 x3 := by
      subst x3
      exact State.updQch_keeps (by assumption)
    clear_value x3
    extract_lets -merge -underBinder +onlyGivenNames x4 x5 x6 x7
    clear_value x4 x5 x6
    have hx7 : Keeps s0 x7 := by
      subst x7
      refine State.each_keeps ?_ (fun _ _ _ => ?_)
      · assumption
      · exact State.abortMove_keeps (by assumption)
    clear_value x7
    extract_lets -merge -underBinder +onlyGivenNames x8
    have hx8 : Keeps s0 x8 := by
      subst x8
      refine State.each_keeps ?_ (fun _ _ _ => ?_)
      · assumption
      · exact State.pteSet_keeps (by assumption)
    clear_value x8
    extract_lets -merge -underBinder +onlyGivenNames x9
    have hx9 : Keeps s0 x9 := by
      subst x9
      refine State.updMt_keeps ?_ ?_
      · assumption
      · first | exact fun _ h => h | (intro _ h; split <;> exact h) | (intro _ h; simp_all [MemTier.Sized, lmod])
    clear_value x9
    exact State.readmit_keeps (State.raise_keeps (State.raise_keeps (by assumption)))

theorem State.markLost_keeps {s0 s1 : State} {a1} (hs1 : Keeps s0 s1) :
    Keeps s0 (State.markLost s1 a1) := by
  unfold State.markLost
  extract_lets -merge -underBinder +onlyGivenNames x1
  have hx1 : Keeps s0 x1 := by
    subst x1
    refine State.each_keeps ?_ (fun _ _ _ => ?_)
    · assumption
    · refine State.each_keeps ?_ (fun _ _ _ => ?_)
      · assumption
      · refine keeps_ite ?_ ?_
        · exact State.pageSt_keeps (by assumption)
        · assumption
  clear_value x1
  refine State.each_keeps ?_ (fun _ _ _ => ?_)
  · assumption
  · refine State.each_keeps ?_ (fun _ _ _ => ?_)
    · assumption
    · refine keeps_ite ?_ ?_
      · exact State.ctxSetFlag_keeps (State.ctxSetFlag_keeps (by assumption))
      · assumption

theorem State.remapLost_keeps {s0 s1 : State} (hs1 : Keeps s0 s1) :
    Keeps s0 (State.remapLost s1) := by
  unfold State.remapLost
  refine State.each_keeps ?_ (fun _ _ _ => ?_)
  · assumption
  · extract_lets -merge -underBinder +onlyGivenNames x1
    clear_value x1
    split
    · refine KeepsO.of_eq (a := s0) (by assumption) ?_ (fun _ => ?_)
      · exact State.placePage_keeps (by assumption)
      assumption
    · assumption

theorem State.remapMore_keeps {s0 s1 : State} (hs1 : Keeps s0 s1) :
    Keeps s0 (State.remapMore s1) := by
  unfold State.remapMore
  refine keeps_ite ?_ ?_
  · exact State.remapLost_keeps (by assumption)
  · assumption

theorem State.tierBaseSet_keeps {s0 s1 : State} {a1 a2} (hs1 : Keeps s0 s1) :
    KeepsO s0 (State.tierBaseSet s1 a1 a2) := by
  unfold State.tierBaseSet
  extract_lets -merge -underBinder +onlyGivenNames x1 x2 x3
  clear_value x1 x2
  have hx3 : Keeps s0 x3 := by
    subst x3
    exact State.regSet_keeps (by assumption)
  clear_value x3
  extract_lets -merge -underBinder +onlyGivenNames x4 x5
  clear_value x4 x5
  refine keepsO_ite ?_ ?_
  · exact keepsO_none
  · refine keepsO_some ?_
    refine State.each_keeps ?_ (fun _ _ _ => ?_)
    · assumption
    · exact State.zero_keeps (by assumption)

theorem State.startMove_keeps {s0 s1 : State} {a1 a2 a3 a4} (hs1 : Keeps s0 s1) :
    Keeps s0 (State.startMove s1 a1 a2 a3 a4) := by
  unfold State.startMove
  extract_lets -merge -underBinder +onlyGivenNames x1
  have hx1 : Keeps s0 x1 := by
    subst x1
    refine keeps_ite ?_ ?_
    · refine State.updMt_keeps ?_ ?_
      · assumption
      · first | exact fun _ h => h | (intro _ h; split <;> exact h) | (intro _ h; simp_all [MemTier.Sized, lmod])
    · assumption
  clear_value x1
  extract_lets -merge -underBinder +onlyGivenNames x2
  have hx2 : Keeps s0 x2 := by
    subst x2
    exact State.queueBursts_keeps (State.queueBursts_keeps (by assumption))
  clear_value x2
  refine State.updMt_keeps ?_ ?_
  · exact State.pteSet_keeps (by assumption)
  · first | exact fun _ h => h | (intro _ h; split <;> exact h) | (intro _ h; simp_all [MemTier.Sized, lmod])

theorem State.migrate_keeps {s0 s1 : State} {a1} (hs1 : Keeps s0 s1) :
    Keeps s0 (State.migrate s1 a1) := by
  unfold State.migrate
  extract_lets -merge -underBinder +onlyGivenNames x1
  have hx1 : Keeps s0 x1 := by
    subst x1
    refine State.each_keeps ?_ (fun _ _ _ => ?_)
    · assumption
    · extract_lets -merge -underBinder +onlyGivenNames x2
      clear_value x2
      exact State.pteSet_keeps (by assumption)
  clear_value x1
  extract_lets -merge -underBinder +onlyGivenNames x3 x4
  clear_value x3
  have hx4 : Keeps s0 x4 := by
    subst x4
    refine State.each_keeps ?_ (fun _ _ _ => ?_)
    · assumption
    · refine keeps_ite ?_ ?_
      · assumption
      · split
        · exact State.startMove_keeps (by assumption)
        · assumption
  clear_value x4
  extract_lets -merge -underBinder +onlyGivenNames x5
  clear_value x5
  refine State.each_keeps ?_ (fun _ _ _ => ?_)
  · assumption
  · refine keeps_ite ?_ ?_
    · assumption
    · split
      · exact State.startMove_keeps (by assumption)
      · extract_lets -merge -underBinder +onlyGivenNames x6
        clear_value x6
        split
        · assumption
        · split
          · exact State.startMove_keeps (by assumption)
          · assumption

theorem State.copyKeys_keeps {s0 s1 : State} {a1 a2 a3} (hs1 : Keeps s0 s1) :
    Keeps s0 (State.copyKeys s1 a1 a2 a3) := by
  unfold State.copyKeys
  extract_lets -merge -underBinder +onlyGivenNames x1 x2
  have hx2 : Keeps s0 x2 := by
    subst x2
    exact State.zero_keeps (by assumption)
  clear_value x1 x2
  refine keeps_mem hx2 rfl rfl rfl rfl (fun r => ?_) fun r => ⟨r.1, r.2, r.3, r.4, r.5, r.6, r.7, r.8, r.9, r.10⟩
  show Memory.wf (x1.foldl (fun m p => memPut m (a2 + (p.1 - a1)) p.2) x2.mem)
  generalize x2.mem = m at r ⊢
  induction x1 generalizing m with
  | nil => exact r
  | cons p l ih => exact ih _ (memPut_ok r)

theorem State.promoteNext_keeps {s0 s1 : State} {a1} (hs1 : Keeps s0 s1) :
    Keeps s0 (State.promoteNext s1 a1) := by
  unfold State.promoteNext
  split
  · assumption
  · refine keeps_ite ?_ ?_
    · split
      · exact State.startMove_keeps (by assumption)
      · assumption
    · assumption

theorem State.moveDone_keeps {s0 s1 : State} {a1} (hs1 : Keeps s0 s1) :
    Keeps s0 (State.moveDone s1 a1) := by
  unfold State.moveDone
  split
  · assumption
  · extract_lets -merge -underBinder +onlyGivenNames x1
    clear_value x1
    split
    · refine KeepsL.of_eq (a := s0) (by assumption) ?_ (fun _ => ?_)
      · refine keepsL_ite ?_ ?_
        · exact State.eccRead_keeps (by assumption)
        · exact keepsL_mk (by assumption)
      refine keeps_ite ?_ ?_
      · exact State.abortMove_keeps (by assumption)
      · extract_lets -merge -underBinder +onlyGivenNames x2 x3
        clear_value x2
        have hx3 : Keeps s0 x3 := by
          subst x3
          exact State.copyKeys_keeps (by assumption)
        clear_value x3
        extract_lets -merge -underBinder +onlyGivenNames x4
        have hx4 : Keeps s0 x4 := by
          subst x4
          exact State.pteSet_keeps (by assumption)
        clear_value x4
        extract_lets -merge -underBinder +onlyGivenNames x5
        have hx5 : Keeps s0 x5 := by
          subst x5
          refine State.updMt_keeps ?_ ?_
          · assumption
          · first | exact fun _ h => h | (intro _ h; split <;> exact h) | (intro _ h; simp_all [MemTier.Sized, lmod])
        clear_value x5
        split
        · exact State.setFld_keeps (by assumption)
        · exact State.promoteNext_keeps (State.setFld_keeps (by assumption))
        · assumption

theorem State.memCmd_keeps {s0 s1 : State} {a1} (hs1 : Keeps s0 s1) :
    Keeps s0 (State.memCmd s1 a1) := by
  unfold State.memCmd
  split
  · refine keeps_ite ?_ ?_
    · exact State.qchExclude_keeps (by assumption)
    · assumption
  · extract_lets -merge -underBinder +onlyGivenNames x1
    have hx1 : Keeps s0 x1 := by
      subst x1
      refine State.each_keeps ?_ (fun _ _ _ => ?_)
      · assumption
      · exact State.regSet_keeps (by assumption)
    clear_value x1
    extract_lets -merge -underBinder +onlyGivenNames x2
    have hx2 : Keeps s0 x2 := by
      subst x2
      refine State.each_keeps ?_ (fun _ _ _ => ?_)
      · assumption
      · exact State.regSet_keeps (by assumption)
    clear_value x2
    refine State.each_keeps ?_ (fun _ _ _ => ?_)
    · assumption
    · exact State.regSet_keeps (State.regSet_keeps (by assumption))
  · assumption

theorem State.pageSel_keeps {s0 s1 : State} {a1} (hs1 : Keeps s0 s1) :
    Keeps s0 (State.pageSel s1 a1) := by
  unfold State.pageSel
  extract_lets -merge -underBinder +onlyGivenNames x1
  clear_value x1
  exact State.regSet_keeps (State.regSet_keeps (State.regSet_keeps (by assumption)))

end Sys2Proof.Machine
end

