-- ==== Sys2Proof/Laws/KeepsGraphCore.lean ====
section
/-! SUPPORT. What the operations of Machine/GraphCore.lean keep (Laws/Keeps.lean). -/
namespace Sys2Proof.Machine
set_option Elab.async false

theorem State.swapWaits_keeps {s0 s1 : State} {a1} (hs1 : Keeps s0 s1) :
    Keeps s0 (State.swapWaits s1 a1) := by
  unfold State.swapWaits
  refine State.each_keeps ?_ (fun _ _ _ => ?_)
  · assumption
  · refine keeps_ite ?_ ?_
    · assumption
    · exact State.raise_keeps (State.updStream_keeps (by assumption))

theorem State.streamSettle_keeps {s0 s1 : State} {a1} (hs1 : Keeps s0 s1) :
    Keeps s0 (State.streamSettle s1 a1) := by
  unfold State.streamSettle
  refine State.swapWaits_keeps ?_
  refine State.each_keeps ?_ (fun _ _ _ => ?_)
  · assumption
  · refine keeps_ite ?_ ?_
    · assumption
    · exact State.updStream_keeps (by assumption)

theorem State.swapRequest_keeps {s0 s1 : State} {a1} (hs1 : Keeps s0 s1) :
    Keeps s0 (State.swapRequest s1 a1) := by
  unfold State.swapRequest
  extract_lets -merge -underBinder +onlyGivenNames x1
  clear_value x1
  refine keeps_ite ?_ ?_
  · exact State.streamSettle_keeps (State.updStream_keeps (by assumption))
  · assumption

theorem State.updTask_keeps {s0 s1 : State} {a1 a2 a3} (hs1 : Keeps s0 s1) :
    Keeps s0 (State.updTask s1 a1 a2 a3) := by
  unfold State.updTask
  exact State.updGraph_keeps (by assumption)

theorem State.tally_keeps {s0 s1 : State} {a1 a2} (hs1 : Keeps s0 s1) :
    Keeps s0 (State.tally s1 a1 a2) := by
  unfold State.tally
  split
  · assumption
  · extract_lets -merge -underBinder +onlyGivenNames x1
    have hx1 : Keeps s0 x1 := by
      subst x1
      exact State.updGraph_keeps (by assumption)
    clear_value x1
    split
    · refine keeps_ite ?_ ?_
      · assumption
      · exact State.coverTile_keeps (by assumption)
    · assumption

theorem State.unrun_keeps {s0 s1 : State} {a1 a2 a3 a4 a5 a6} (hs1 : Keeps s0 s1) :
    Keeps s0 (State.unrun s1 a1 a2 a3 a4 a5 a6) := by
  unfold State.unrun
  extract_lets -merge -underBinder +onlyGivenNames x1 x2
  clear_value x1 x2
  exact State.completion_keeps (by assumption)

theorem State.chunkDrop_keeps {s0 s1 : State} {a1 a2 a3} (hs1 : Keeps s0 s1) :
    Keeps s0 (State.chunkDrop s1 a1 a2 a3) := by
  unfold State.chunkDrop
  refine State.each_keeps ?_ (fun _ _ _ => ?_)
  · assumption
  · refine keeps_ite ?_ ?_
    · exact State.ctxSetQueue_keeps (by assumption)
    · assumption

theorem State.releaseSuccs_keeps {s0 s1 : State} {a1 a2} (hs1 : Keeps s0 s1) :
    KeepsL s0 (State.releaseSuccs s1 a1 a2) := by
  unfold State.releaseSuccs
  split
  · exact keepsL_mk (by assumption)
  · split
    · exact keepsL_mk (by assumption)
    · extract_lets -merge -underBinder +onlyGivenNames x1 x2 x3
      clear_value x1 x2
      have hx3 : Keeps s0 x3 := by
        subst x3
        refine State.each_keeps ?_ (fun _ _ _ => ?_)
        · assumption
        · exact State.updTask_keeps (by assumption)
      clear_value x3
      refine keepsL_mk ?_
      refine State.each_keeps ?_ (fun _ _ _ => ?_)
      · assumption
      · exact State.updTask_keeps (by assumption)

theorem State.readyLoop_keeps {s0 : State} {a0 a1} {s3 : State} (hs3 : Keeps s0 s3) :
    Keeps s0 (State.readyLoop a0 a1 s3) := by
  unfold State.readyLoop
  split
  · assumption
  · assumption
  · split
    · exact State.readyLoop_keeps (by assumption)
    · split
      · exact State.readyLoop_keeps (by assumption)
      · refine keeps_ite ?_ ?_
        · exact State.readyLoop_keeps (by assumption)
        · extract_lets -merge -underBinder +onlyGivenNames x1
          clear_value x1
          split
          · refine KeepsL.of_eq (a := s0) (by assumption) ?_ (fun _ => ?_)
            · refine keepsL_ite ?_ ?_
              · exact keepsL_mk (by assumption)
              · exact State.eccRead_keeps (by assumption)
            extract_lets -merge -underBinder +onlyGivenNames x2
            clear_value x2
            refine keeps_ite ?_ ?_
            · extract_lets -merge -underBinder +onlyGivenNames x3 x4
              clear_value x3
              have hx4 : Keeps s0 x4 := by
                subst x4
                exact State.tally_keeps (State.updTask_keeps (by assumption))
              clear_value x4
              extract_lets -merge -underBinder +onlyGivenNames x5
              have hx5 : Keeps s0 x5 := by
                subst x5
                exact State.chunkDrop_keeps (State.unrun_keeps (by assumption))
              clear_value x5
              extract_lets -merge -underBinder +onlyGivenNames x6
              have hx6 : Keeps s0 x6 := by
                subst x6
                refine keeps_ite ?_ ?_
                · assumption
                · exact State.updBond_keeps (by assumption)
              clear_value x6
              split
              · refine KeepsL.of_eq (a := s0) (by assumption) ?_ (fun _ => ?_)
                · exact State.releaseSuccs_keeps (by assumption)
                exact State.readyLoop_keeps (State.graphCheck_keeps (by assumption))
            · extract_lets -merge -underBinder +onlyGivenNames x7
              have hx7 : Keeps s0 x7 := by
                subst x7
                exact State.updTask_keeps (by assumption)
              clear_value x7
              exact State.readyLoop_keeps (State.updBond_keeps (by assumption))

theorem State.readyRun_keeps {s0 s1 : State} {a1} (hs1 : Keeps s0 s1) :
    Keeps s0 (State.readyRun s1 a1) := by
  unfold State.readyRun
  exact State.readyLoop_keeps (by assumption)

theorem State.readyAll_keeps {s0 s1 : State} (hs1 : Keeps s0 s1) :
    Keeps s0 (State.readyAll s1) := by
  unfold State.readyAll
  exact State.readyRun_keeps (by assumption)

theorem State.instanceDone_keeps {s0 s1 : State} {a1 a2 a3} (hs1 : Keeps s0 s1) :
    Keeps s0 (State.instanceDone s1 a1 a2 a3) := by
  unfold State.instanceDone
  extract_lets -merge -underBinder +onlyGivenNames x1
  have hx1 : Keeps s0 x1 := by
    subst x1
    exact State.updTask_keeps (State.tally_keeps (by assumption))
  clear_value x1
  split
  · assumption
  · split
    · assumption
    · refine keeps_ite ?_ ?_
      · assumption
      · split
        · refine KeepsL.of_eq (a := s0) (by assumption) ?_ (fun _ => ?_)
          · exact State.releaseSuccs_keeps (by assumption)
          exact State.streamSettle_keeps (State.graphCheck_keeps (State.readyRun_keeps (by assumption)))

theorem State.graphWatch_keeps {s0 s1 : State} {a1} (hs1 : Keeps s0 s1) :
    Keeps s0 (State.graphWatch s1 a1) := by
  unfold State.graphWatch
  refine keeps_ite ?_ ?_
  · exact State.watchRef_keeps (by assumption)
  · assumption

theorem State.lookDrop_keeps {s0 s1 : State} {a1} (hs1 : Keeps s0 s1) :
    Keeps s0 (State.lookDrop s1 a1) := by
  unfold State.lookDrop
  extract_lets -merge -underBinder +onlyGivenNames x1 x2
  clear_value x1
  have hx2 : Keeps s0 x2 := by
    subst x2
    exact State.updBond_keeps (by assumption)
  clear_value x2
  refine State.readyAll_keeps ?_
  refine State.each_keeps ?_ (fun _ _ _ => ?_)
  · assumption
  · exact State.graphWatch_keeps (by assumption)

theorem State.lookSettle_keeps {s0 s1 : State} (hs1 : Keeps s0 s1) :
    Keeps s0 (State.lookSettle s1) := by
  unfold State.lookSettle
  exact State.lookDrop_keeps (by assumption)

theorem State.lookRelease_keeps {s0 s1 : State} {a1 a2} (hs1 : Keeps s0 s1) :
    Keeps s0 (State.lookRelease s1 a1 a2) := by
  unfold State.lookRelease
  exact State.lookDrop_keeps (by assumption)

theorem State.enqueueChunks_keeps {s0 s1 : State} {a1} (hs1 : Keeps s0 s1) :
    Keeps s0 (State.enqueueChunks s1 a1) := by
  unfold State.enqueueChunks
  refine State.each_keeps ?_ (fun _ _ _ => ?_)
  · assumption
  · split
    · split
      · assumption
      · extract_lets -merge -underBinder +onlyGivenNames x1
        clear_value x1
        refine keeps_ite ?_ ?_
        · extract_lets -merge -underBinder +onlyGivenNames x2
          have hx2 : Keeps s0 x2 := by
            subst x2
            exact State.chunkLost_keeps (State.raise_keeps (by assumption))
          clear_value x2
          exact State.instanceDone_keeps (State.updTask_keeps (State.unrun_keeps (by assumption)))
        · exact State.swapRequest_keeps (State.ctxSetQueue_keeps (by assumption))

theorem State.addGraph_keeps {s0 s1 : State} {a1 a2 a3 a4 a5 a6 a7 a8 a9} (hs1 : Keeps s0 s1) :
    Keeps s0 (State.addGraph s1 a1 a2 a3 a4 a5 a6 a7 a8 a9) := by
  unfold State.addGraph
  extract_lets -merge -underBinder +onlyGivenNames x1 x2 x3 x4
  clear_value x1 x2 x3 x4
  exact State.updBond_keeps (by assumption)

theorem State.startGraph_keeps {s0 s1 : State} {a1} (hs1 : Keeps s0 s1) :
    Keeps s0 (State.startGraph s1 a1) := by
  unfold State.startGraph
  split
  · assumption
  · extract_lets -merge -underBinder +onlyGivenNames x1
    have hx1 : Keeps s0 x1 := by
      subst x1
      exact State.graphWatch_keeps (by assumption)
    clear_value x1
    extract_lets -merge -underBinder +onlyGivenNames x2
    have hx2 : Keeps s0 x2 := by
      subst x2
      refine keeps_ite ?_ ?_
      · exact State.updAccount_keeps (by assumption)
      · assumption
    clear_value x2
    extract_lets -merge -underBinder +onlyGivenNames x3
    have hx3 : Keeps s0 x3 := by
      subst x3
      exact State.lookSettle_keeps (State.enqueueChunks_keeps (by assumption))
    clear_value x3
    extract_lets -merge -underBinder +onlyGivenNames x4
    have hx4 : Keeps s0 x4 := by
      subst x4
      exact State.readyRun_keeps (by assumption)
    clear_value x4
    exact State.graphCheck_keeps (State.streamSettle_keeps (by assumption))

theorem State.enterGraph_keeps {s0 s1 : State} {a1 a2 a3 a4 a5 a6 a7 a8 a9} (hs1 : Keeps s0 s1) :
    Keeps s0 (State.enterGraph s1 a1 a2 a3 a4 a5 a6 a7 a8 a9) := by
  unfold State.enterGraph
  exact State.startGraph_keeps (State.addGraph_keeps (by assumption))

theorem State.releaseGraph_keeps {s0 s1 : State} {a1 a2} (hs1 : Keeps s0 s1) :
    Keeps s0 (State.releaseGraph s1 a1 a2) := by
  unfold State.releaseGraph
  extract_lets -merge -underBinder +onlyGivenNames x1 x2
  clear_value x1
  have hx2 : Keeps s0 x2 := by
    subst x2
    exact State.lookRelease_keeps (by assumption)
  clear_value x2
  refine keeps_ite ?_ ?_
  · assumption
  · split
    · exact State.coverTile_keeps (by assumption)
    · split
      · extract_lets -merge -underBinder +onlyGivenNames x3
        clear_value x3
        split
        · exact State.coverTile_keeps (by assumption)
        · split
          · exact State.coverTile_keeps (by assumption)
          · extract_lets -merge -underBinder +onlyGivenNames x4
            clear_value x4
            refine keeps_ite ?_ ?_
            · exact State.coverTile_keeps (by assumption)
            · extract_lets -merge -underBinder +onlyGivenNames x5
              clear_value x5
              refine keeps_ite ?_ ?_
              · extract_lets -merge -underBinder +onlyGivenNames x6
                have hx6 : Keeps s0 x6 := by
                  subst x6
                  exact State.coverTile_keeps (State.raise_keeps (State.bump_keeps (by assumption)))
                clear_value x6
                refine State.each_keeps ?_ (fun _ _ _ => ?_)
                · assumption
                · split
                  · exact State.chunkLost_keeps (by assumption)
                  · assumption
              · exact State.enterGraph_keeps (by assumption)
      · assumption

end Sys2Proof.Machine
end

