-- ==== Sys2Proof/Laws/KeepsAcq.lean ====
section
/-! SUPPORT. What the operations of Machine/Acq.lean keep (Laws/Keeps.lean). -/
namespace Sys2Proof.Machine
set_option Elab.async false

theorem State.discover_keeps {s0 s1 : State} {a1} (hs1 : Keeps s0 s1) :
    Keeps s0 (State.discover s1 a1) := by
  unfold State.discover
  refine keeps_ite ?_ ?_
  · exact State.raise_keeps (State.updGrp_keeps (by assumption))
  · exact State.updGrp_keeps (by assumption)

theorem State.absentLine_keeps {s0 s1 : State} {a1 a2} (hs1 : Keeps s0 s1) :
    Keeps s0 (State.absentLine s1 a1 a2) := by
  unfold State.absentLine
  extract_lets -merge -underBinder +onlyGivenNames x1
  clear_value x1
  split
  · assumption
  · refine keeps_ite ?_ ?_
    · assumption
    · extract_lets -merge -underBinder +onlyGivenNames x2
      clear_value x2
      refine State.updAcq_keeps ?_ ?_
      · assumption
      · first | exact fun _ h => h | (intro _ h; split <;> exact h) | (intro _ h; simp_all [Acq.Sized, lmod])

theorem State.missing_keeps {s0 s1 : State} {a1 a2} (hs1 : Keeps s0 s1) :
    Keeps s0 (State.missing s1 a1 a2) := by
  unfold State.missing
  exact State.watchKick_keeps (State.absentLine_keeps (State.raise_keeps (State.bumpHi_keeps (by assumption))))

theorem State.retire_keeps {s0 s1 : State} {a1 a2} (hs1 : Keeps s0 s1) :
    Keeps s0 (State.retire s1 a1 a2) := by
  unfold State.retire
  extract_lets -merge -underBinder +onlyGivenNames x1
  clear_value x1
  refine State.each_keeps ?_ (fun _ _ _ => ?_)
  · exact State.updGrp_keeps (by assumption)
  · exact State.missing_keeps (by assumption)

theorem State.tilingWatch_keeps {s0 s1 : State} {a1 a2} (hs1 : Keeps s0 s1) :
    Keeps s0 (State.tilingWatch s1 a1 a2) := by
  unfold State.tilingWatch
  split
  · assumption
  · extract_lets -merge -underBinder +onlyGivenNames x1 x2 x3 x4 x5 x6
    clear_value x1 x2 x3 x4 x5
    have hx6 : Keeps s0 x6 := by
      subst x6
      refine State.updAcq_keeps ?_ ?_
      · assumption
      · first | exact fun _ h => h | (intro _ h; split <;> exact h) | (intro _ h; simp_all [Acq.Sized, lmod])
    clear_value x6
    split
    · refine keeps_ite ?_ ?_
      · assumption
      · extract_lets -merge -underBinder +onlyGivenNames x7 x8
        clear_value x7 x8
        refine State.each_keeps ?_ (fun _ _ _ => ?_)
        · assumption
        · refine State.each_keeps ?_ (fun _ _ _ => ?_)
          · assumption
          · exact State.watchRef_keeps (by assumption)
    · assumption

theorem State.tileHeader_keeps {s0 s1 : State} {a1} (hs1 : Keeps s0 s1) :
    Keeps s0 (State.tileHeader s1 a1) := by
  unfold State.tileHeader
  extract_lets -merge -underBinder +onlyGivenNames x1 x2 x3 x4 x5 x6
  clear_value x1 x2 x3 x4 x5 x6
  exact State.stBytes_keeps (by assumption)

theorem State.fusionInstant_keeps {s0 s1 : State} {a1 a2} (hs1 : Keeps s0 s1) :
    Keeps s0 (State.fusionInstant s1 a1 a2) := by
  unfold State.fusionInstant
  extract_lets -merge -underBinder +onlyGivenNames x1 x2
  clear_value x1
  have hx2 : Keeps s0 x2 := by
    subst x2
    refine State.updAcq_keeps ?_ ?_
    · assumption
    · first | exact fun _ h => h | (intro _ h; split <;> exact h) | (intro _ h; simp_all [Acq.Sized, lmod])
  clear_value x2
  refine State.each_keeps ?_ (fun _ _ _ => ?_)
  · assumption
  · extract_lets -merge -underBinder +onlyGivenNames x3
    clear_value x3
    split
    · exact State.updSrc_keeps (by assumption)
    · extract_lets -merge -underBinder +onlyGivenNames x4 x5
      clear_value x4
      have hx5 : Keeps s0 x5 := by
        subst x5
        exact State.updSrc_keeps (by assumption)
      clear_value x5
      refine keeps_ite ?_ ?_
      · exact State.raise_keeps (by assumption)
      · refine keeps_ite ?_ ?_
        · exact State.raise_keeps (by assumption)
        · assumption

theorem State.sideData_keeps {s0 s1 : State} {a1 a2} (hs1 : Keeps s0 s1) :
    Keeps s0 (State.sideData s1 a1 a2) := by
  unfold State.sideData
  extract_lets -merge -underBinder +onlyGivenNames x1 x2 x3 x4 x5 x6 x7
  clear_value x1 x2 x3 x4 x5 x6 x7
  exact State.drew_keeps (State.stBytes_keeps (State.stBytes_keeps (State.stBytes_keeps (by assumption))))

theorem State.coverNoData_keeps {s0 s1 : State} {a1 a2 a3 a4 a5} (hs1 : Keeps s0 s1) :
    Keeps s0 (State.coverNoData s1 a1 a2 a3 a4 a5) := by
  unfold State.coverNoData
  extract_lets -merge -underBinder +onlyGivenNames x1 x2
  clear_value x1 x2
  exact State.cover_keeps (by assumption)

theorem State.emptyTile_keeps {s0 s1 : State} {a1 a2 a3} (hs1 : Keeps s0 s1) :
    Keeps s0 (State.emptyTile s1 a1 a2 a3) := by
  unfold State.emptyTile
  extract_lets -merge -underBinder +onlyGivenNames x1 x2
  clear_value x1
  have hx2 : Keeps s0 x2 := by
    subst x2
    refine State.each_keeps ?_ (fun _ _ _ => ?_)
    · assumption
    · exact State.zero_keeps (by assumption)
  clear_value x2
  extract_lets -merge -underBinder +onlyGivenNames x3
  have hx3 : Keeps s0 x3 := by
    subst x3
    exact State.raise_keeps (State.coverNoData_keeps (by assumption))
  clear_value x3
  exact State.tileHeader_keeps (by assumption)

theorem State.rowsPast_keeps {s0 s1 : State} {a1 a2} (hs1 : Keeps s0 s1) :
    Keeps s0 (State.rowsPast s1 a1 a2) := by
  unfold State.rowsPast
  extract_lets -merge -underBinder +onlyGivenNames x1
  clear_value x1
  refine State.updAcq_keeps ?_ ?_
  · assumption
  · first | exact fun _ h => h | (intro _ h; split <;> exact h) | (intro _ h; simp_all [Acq.Sized, lmod])

theorem State.releaseTileSet_keeps {s0 s1 : State} {a1 a2} (hs1 : Keeps s0 s1) :
    Keeps s0 (State.releaseTileSet s1 a1 a2) := by
  unfold State.releaseTileSet
  extract_lets -merge -underBinder +onlyGivenNames x1 x2 x3
  clear_value x1 x2
  have hx3 : Keeps s0 x3 := by
    subst x3
    refine State.each_keeps ?_ (fun _ _ _ => ?_)
    · assumption
    · exact State.rowsPast_keeps (State.emptyTile_keeps (by assumption))
  clear_value x3
  extract_lets -merge -underBinder +onlyGivenNames x4 x5 x6
  clear_value x4 x5
  have hx6 : Keeps s0 x6 := by
    subst x6
    refine State.updAcq_keeps ?_ ?_
    · assumption
    · first | exact fun _ h => h | (intro _ h; split <;> exact h) | (intro _ h; simp_all [Acq.Sized, lmod])
  clear_value x6
  extract_lets -merge -underBinder +onlyGivenNames x7
  have hx7 : Keeps s0 x7 := by
    subst x7
    exact State.regSet_keeps (State.regSet_keeps (by assumption))
  clear_value x7
  extract_lets -merge -underBinder +onlyGivenNames x8
  have hx8 : Keeps s0 x8 := by
    subst x8
    refine keeps_ite ?_ ?_
    · assumption
    · refine State.sideData_keeps ?_
      refine keeps_ite ?_ ?_
      · exact State.fusionInstant_keeps (by assumption)
      · assumption
  clear_value x8
  extract_lets -merge -underBinder +onlyGivenNames x9
  have hx9 : Keeps s0 x9 := by
    subst x9
    exact State.watchKick_keeps (by assumption)
  clear_value x9
  extract_lets -merge -underBinder +onlyGivenNames x10 x11
  clear_value x10
  have hx11 : Keeps s0 x11 := by
    subst x11
    refine keeps_ite ?_ ?_
    · exact State.emit_keeps (by assumption)
    · assumption
  clear_value x11
  exact State.releaseGraph_keeps (by assumption)

theorem State.releaseLoop_keeps {s0 : State} {a0 a1} {s3 : State} (hs3 : Keeps s0 s3) :
    Keeps s0 (State.releaseLoop a0 a1 s3) := by
  unfold State.releaseLoop
  split
  · assumption
  · split
    · assumption
    · refine keeps_ite ?_ ?_
      · exact State.releaseLoop_keeps (State.releaseTileSet_keeps (by assumption))
      · assumption

theorem State.releaseCheck_keeps {s0 s1 : State} (hs1 : Keeps s0 s1) :
    Keeps s0 (State.releaseCheck s1) := by
  unfold State.releaseCheck
  refine State.each_keeps ?_ (fun _ _ _ => ?_)
  · assumption
  · extract_lets -merge -underBinder +onlyGivenNames x1
    clear_value x1
    exact State.releaseLoop_keeps (by assumption)

theorem State.stampIssue_keeps {s0 s1 : State} {a1 a2} (hs1 : Keeps s0 s1) :
    Keeps s0 (State.stampIssue s1 a1 a2) := by
  unfold State.stampIssue
  refine keeps_ite ?_ ?_
  · assumption
  · extract_lets -merge -underBinder +onlyGivenNames x1
    have hx1 : Keeps s0 x1 := by
      subst x1
      exact State.tilingWatch_keeps (State.watchRef_keeps (by assumption))
    clear_value x1
    refine keeps_ite ?_ ?_
    · exact State.releaseCheck_keeps (State.missing_keeps (by assumption))
    · extract_lets -merge -underBinder +onlyGivenNames x2
      have hx2 : Keeps s0 x2 := by
        subst x2
        refine keeps_ite ?_ ?_
        · exact State.retire_keeps (by assumption)
        · assumption
      clear_value x2
      exact State.updGrp_keeps (by assumption)

theorem State.updTile_keeps {s0 s1 : State} {a1 a2 a3 a4} (hs1 : Keeps s0 s1) :
    Keeps s0 (State.updTile s1 a1 a2 a3 a4) := by
  unfold State.updTile
  refine State.updAcq_keeps ?_ ?_
  · assumption
  · first | exact fun _ h => h | (intro _ h; split <;> exact h) | (intro _ h; simp_all [Acq.Sized, lmod])

theorem State.formRow_keeps {s0 s1 : State} {a1 a2} (hs1 : Keeps s0 s1) :
    Keeps s0 (State.formRow s1 a1 a2) := by
  unfold State.formRow
  extract_lets -merge -underBinder +onlyGivenNames x1 x2 x3 x4 x5 x6 x7 x8 x9 x10 x11
  clear_value x1 x2 x3 x4 x5 x6 x7 x8 x9 x10
  have hx11 : Keeps s0 x11 := by
    subst x11
    refine State.each_keeps ?_ (fun _ _ _ => ?_)
    · assumption
    · split
      · exact State.coverNoData_keeps (by assumption)
  clear_value x11
  extract_lets -merge -underBinder +onlyGivenNames x12
  have hx12 : Keeps s0 x12 := by
    subst x12
    refine keeps_ite ?_ ?_
    · exact State.raise_keeps (by assumption)
    · assumption
  clear_value x12
  extract_lets -merge -underBinder +onlyGivenNames x13
  have hx13 : Keeps s0 x13 := by
    subst x13
    refine State.each_keeps ?_ (fun _ _ _ => ?_)
    · assumption
    · extract_lets -merge -underBinder +onlyGivenNames x14 x15 x16 x17
      clear_value x14 x15 x16
      have hx17 : Keeps s0 x17 := by
        subst x17
        refine State.each_keeps ?_ (fun _ _ _ => ?_)
        · assumption
        · exact State.stBytes_keeps (by assumption)
      clear_value x17
      extract_lets -merge -underBinder +onlyGivenNames x18 x19
      clear_value x18 x19
      refine keeps_ite ?_ ?_
      · assumption
      · exact State.updTile_keeps (by assumption)
  clear_value x13
  extract_lets -merge -underBinder +onlyGivenNames x20
  have hx20 : Keeps s0 x20 := by
    subst x20
    exact State.rowsPast_keeps (by assumption)
  clear_value x20
  refine keeps_ite ?_ ?_
  · extract_lets -merge -underBinder +onlyGivenNames x21
    have hx21 : Keeps s0 x21 := by
      subst x21
      refine State.each_keeps ?_ (fun _ _ _ => ?_)
      · assumption
      · extract_lets -merge -underBinder +onlyGivenNames x22
        clear_value x22
        exact State.tileHeader_keeps (by assumption)
    clear_value x21
    exact State.releaseCheck_keeps (by assumption)
  · assumption

theorem State.formRows_keeps {s0 : State} {a0 a1 a2} {s4 : State} (hs4 : Keeps s0 s4) :
    Keeps s0 (State.formRows a0 a1 a2 s4) := by
  unfold State.formRows
  split
  · assumption
  · exact State.formRows_keeps (State.formRow_keeps (by assumption))

theorem State.rowCheck_keeps {s0 s1 : State} {a1} (hs1 : Keeps s0 s1) :
    Keeps s0 (State.rowCheck s1 a1) := by
  unfold State.rowCheck
  extract_lets -merge -underBinder +onlyGivenNames x1 x2
  clear_value x1 x2
  refine keeps_ite ?_ ?_
  · assumption
  · extract_lets -merge -underBinder +onlyGivenNames x3 x4 x5
    clear_value x3 x4
    have hx5 : Keeps s0 x5 := by
      subst x5
      refine State.updAcq_keeps ?_ ?_
      · assumption
      · first | exact fun _ h => h | (intro _ h; split <;> exact h) | (intro _ h; simp_all [Acq.Sized, lmod])
    clear_value x5
    exact State.rowsPast_keeps (State.formRows_keeps (by assumption))

theorem State.project_keeps {s0 s1 : State} {a1 a2 a3} (hs1 : Keeps s0 s1) :
    Keeps s0 (State.project s1 a1 a2 a3) := by
  unfold State.project
  extract_lets -merge -underBinder +onlyGivenNames x1
  clear_value x1
  refine keeps_ite ?_ ?_
  · assumption
  · extract_lets -merge -underBinder +onlyGivenNames x2 x3 x4 x5 x6 x7 x8 x9
    clear_value x2 x3 x4 x5 x6 x7 x8
    have hx9 : Keeps s0 x9 := by
      subst x9
      refine State.updAcq_keeps ?_ ?_
      · assumption
      · first | exact fun _ h => h | (intro _ h; split <;> exact h) | (intro _ h; simp_all [Acq.Sized, lmod])
    clear_value x9
    extract_lets -merge -underBinder +onlyGivenNames x10
    have hx10 : Keeps s0 x10 := by
      subst x10
      exact State.updGrp_keeps (by assumption)
    clear_value x10
    exact State.rowCheck_keeps (by assumption)

theorem State.swapMaps_keeps {s0 s1 : State} {a1 a2 a3} (hs1 : Keeps s0 s1) :
    Keeps s0 (State.swapMaps s1 a1 a2 a3) := by
  unfold State.swapMaps
  extract_lets -merge -underBinder +onlyGivenNames x1 x2
  clear_value x1 x2
  refine keeps_ite ?_ ?_
  · assumption
  · split
    · assumption
    · refine keeps_ite ?_ ?_
      · assumption
      · extract_lets -merge -underBinder +onlyGivenNames x3
        have hx3 : Keeps s0 x3 := by
          subst x3
          exact State.copySpace_keeps (State.copySpace_keeps (by assumption))
        clear_value x3
        extract_lets -merge -underBinder +onlyGivenNames x4
        have hx4 : Keeps s0 x4 := by
          subst x4
          exact State.raise_keeps (State.regSet_keeps (by assumption))
        clear_value x4
        refine State.updAcq_keeps ?_ ?_
        · assumption
        · first | exact fun _ h => h | (intro _ h; split <;> exact h) | (intro _ h; simp_all [Acq.Sized, lmod])

theorem State.bufRead_keeps {s0 s1 : State} {a1} (hs1 : Keeps s0 s1) :
    KeepsL s0 (State.bufRead s1 a1) := by
  unfold State.bufRead
  extract_lets -merge -underBinder +onlyGivenNames x1 x2
  clear_value x1 x2
  refine keepsL_ite ?_ ?_
  · exact keepsL_mk (by assumption)
  · refine keepsL_ite ?_ ?_
    · exact keepsL_mk (State.bumpHi_keeps (by assumption))
    · exact keepsL_mk (State.raise_keeps (State.bumpLo_keeps (by assumption)))

theorem State.mapsRead_keeps {s0 s1 : State} {a1 a2} (hs1 : Keeps s0 s1) :
    KeepsL s0 (State.mapsRead s1 a1 a2) := by
  unfold State.mapsRead
  extract_lets -merge -underBinder +onlyGivenNames x1
  clear_value x1
  split
  · refine KeepsL.of_eq (a := s0) (by assumption) ?_ (fun _ => ?_)
    · exact State.eccRead_keeps (by assumption)
    split
    · refine KeepsL.of_eq (a := s0) (by assumption) ?_ (fun _ => ?_)
      · exact State.eccRead_keeps (by assumption)
      exact keepsL_mk (by assumption)

theorem State.lineIn_keeps {s0 s1 : State} {a1 a2 a3 a4} (hs1 : Keeps s0 s1) :
    Keeps s0 (State.lineIn s1 a1 a2 a3 a4) := by
  unfold State.lineIn
  split
  · exact State.raise_keeps (State.bumpLo_keeps (by assumption))
  · extract_lets -merge -underBinder +onlyGivenNames x1
    have hx1 : Keeps s0 x1 := by
      subst x1
      exact State.updGrp_keeps (by assumption)
    clear_value x1
    extract_lets -merge -underBinder +onlyGivenNames x2
    have hx2 : Keeps s0 x2 := by
      subst x2
      exact State.watchKick_keeps (State.bump_keeps (by assumption))
    clear_value x2
    split
    · refine KeepsL.of_eq (a := s0) (by assumption) ?_ (fun _ => ?_)
      · exact State.bufRead_keeps (by assumption)
      extract_lets -merge -underBinder +onlyGivenNames x3
      clear_value x3
      split
      · refine KeepsL.of_eq (a := s0) (by assumption) ?_ (fun _ => ?_)
        · split
          · refine keepsL_ite ?_ ?_
            · exact keepsL_mk (by assumption)
            · exact State.mapsRead_keeps (State.swapMaps_keeps (by assumption))
          · exact keepsL_mk (by assumption)
        extract_lets -merge -underBinder +onlyGivenNames x4
        have hx4 : Keeps s0 x4 := by
          subst x4
          refine keeps_ite ?_ ?_
          · exact State.raise_keeps (State.bump_keeps (by assumption))
          · assumption
        clear_value x4
        refine keeps_ite ?_ ?_
        · exact State.absentLine_keeps (by assumption)
        · split
          · assumption
          · extract_lets -merge -underBinder +onlyGivenNames x5 x6
            clear_value x5
            have hx6 : Keeps s0 x6 := by
              subst x6
              exact State.bump_keeps (by assumption)
            clear_value x6
            exact State.project_keeps (by assumption)

theorem State.pktErr_keeps {s0 s1 : State} {a1} (hs1 : Keeps s0 s1) :
    Keeps s0 (State.pktErr s1 a1) := by
  unfold State.pktErr
  exact State.raise_keeps (State.bump_keeps (by assumption))

theorem State.cxpPair_keeps {s0 s1 : State} {a1 a2 a3} (hs1 : Keeps s0 s1) :
    Keeps s0 (State.cxpPair s1 a1 a2 a3) := by
  unfold State.cxpPair
  extract_lets -merge -underBinder +onlyGivenNames x1 x2 x3
  clear_value x1 x2 x3
  refine keeps_ite ?_ ?_
  · exact State.lineIn_keeps (by assumption)
  · extract_lets -merge -underBinder +onlyGivenNames x4
    have hx4 : Keeps s0 x4 := by
      subst x4
      exact State.injStep_keeps (by assumption)
    clear_value x4
    split
    · assumption
    · exact State.raise_keeps (State.bumpLo_keeps (State.lineIn_keeps (by assumption)))
    · exact State.lineIn_keeps (State.pktErr_keeps (by assumption))
    · exact State.lineIn_keeps (by assumption)

theorem State.cxpLine_keeps {s0 s1 : State} {a1 a2 a3} (hs1 : Keeps s0 s1) :
    Keeps s0 (State.cxpLine s1 a1 a2 a3) := by
  unfold State.cxpLine
  extract_lets -merge -underBinder +onlyGivenNames x1 x2 x3
  clear_value x1 x2
  have hx3 : Keeps s0 x3 := by
    subst x3
    exact State.updGrp_keeps (by assumption)
  clear_value x3
  extract_lets -merge -underBinder +onlyGivenNames x4
  have hx4 : Keeps s0 x4 := by
    subst x4
    refine keeps_ite ?_ ?_
    · exact State.raise_keeps (State.bumpLo_keeps (by assumption))
    · exact State.cxpPair_keeps (by assumption)
  clear_value x4
  refine keeps_ite ?_ ?_
  · exact State.pktErr_keeps (by assumption)
  · assumption

theorem State.dropHeader_keeps {s0 s1 : State} {a1 a2} (hs1 : Keeps s0 s1) :
    Keeps s0 (State.dropHeader s1 a1 a2) := by
  unfold State.dropHeader
  exact State.updGrp_keeps (State.pktErr_keeps (by assumption))

theorem State.cxpHeader_keeps {s0 s1 : State} {a1 a2 a3} (hs1 : Keeps s0 s1) :
    Keeps s0 (State.cxpHeader s1 a1 a2 a3) := by
  unfold State.cxpHeader
  extract_lets -merge -underBinder +onlyGivenNames x1 x2
  clear_value x1 x2
  refine keeps_ite ?_ ?_
  · exact State.dropHeader_keeps (by assumption)
  · extract_lets -merge -underBinder +onlyGivenNames x3
    have hx3 : Keeps s0 x3 := by
      subst x3
      exact State.regSet_keeps (by assumption)
    clear_value x3
    extract_lets -merge -underBinder +onlyGivenNames x4 x5 x6 x7
    clear_value x4 x5 x6
    have hx7 : Keeps s0 x7 := by
      subst x7
      refine keeps_ite ?_ ?_
      · exact State.pktErr_keeps (by assumption)
      · assumption
    clear_value x7
    extract_lets -merge -underBinder +onlyGivenNames x8
    have hx8 : Keeps s0 x8 := by
      subst x8
      refine keeps_ite ?_ ?_
      · exact State.retire_keeps (by assumption)
      · assumption
    clear_value x8
    exact State.updGrp_keeps (by assumption)

theorem execCxpPacket_keeps {s0 : State} {a0 a1 a2} {s4 : State} (hs4 : Keeps s0 s4) :
    KeepsN s0 (execCxpPacket a0 a1 a2 s4) := by
  unfold execCxpPacket
  extract_lets -merge -underBinder +onlyGivenNames x1
  have hx1 : Keeps s0 x1 := by
    subst x1
    exact State.to_keeps (by assumption)
  clear_value x1
  refine keepsN_ite ?_ ?_
  · exact keepsN_next (by assumption)
  · split
    · refine keepsN_ite ?_ ?_
      · refine keepsN_next ?_
        refine keeps_ite ?_ ?_
        · exact State.pktErr_keeps (by assumption)
        · assumption
      · refine keepsN_ite ?_ ?_
        · refine keepsN_next ?_
          refine State.updAcq_keeps ?_ ?_
          · assumption
          · first | exact fun _ h => h | (intro _ h; split <;> exact h) | (intro _ h; simp_all [Acq.Sized, lmod])
        · exact keepsN_next (State.cxpLine_keeps (by assumption))
    · refine keepsN_next ?_
      refine keeps_ite ?_ ?_
      · exact State.pktErr_keeps (by assumption)
      · refine keeps_ite ?_ ?_
        · assumption
        · exact State.cxpHeader_keeps (by assumption)
    · refine keepsN_next ?_
      refine keeps_ite ?_ ?_
      · exact State.log_keeps (by assumption)
      · exact State.pktErr_keeps (by assumption)
    · refine keepsN_ite ?_ ?_
      · exact keepsN_next (State.pktErr_keeps (by assumption))
      · extract_lets -merge -underBinder +onlyGivenNames x2
        have hx2 : Keeps s0 x2 := by
          subst x2
          exact State.updGrp_keeps (by assumption)
        clear_value x2
        exact keepsN_next (State.answerDeferred_keeps (by assumption))
    · exact keepsN_next (State.pktErr_keeps (by assumption))

theorem execStampTimeout_keeps {s0 : State} {a0 a1} {s3 : State} (hs3 : Keeps s0 s3) :
    KeepsN s0 (execStampTimeout a0 a1 s3) := by
  unfold execStampTimeout
  extract_lets -merge -underBinder +onlyGivenNames x1
  have hx1 : Keeps s0 x1 := by
    subst x1
    exact State.to_keeps (by assumption)
  clear_value x1
  split
  · refine keepsN_next ?_
    refine keeps_ite ?_ ?_
    · exact State.retire_keeps (by assumption)
    · assumption
  · exact keepsN_next (by assumption)

theorem execGroupUp_keeps {s0 : State} {a0 a1 a2 a3} {s5 : State} (hs5 : Keeps s0 s5) :
    KeepsN s0 (execGroupUp a0 a1 a2 a3 s5) := by
  unfold execGroupUp
  extract_lets -merge -underBinder +onlyGivenNames x1
  have hx1 : Keeps s0 x1 := by
    subst x1
    exact State.to_keeps (by assumption)
  clear_value x1
  refine guardNext_keeps ?_ (fun _ _ => ?_)
  · assumption
  · extract_lets -merge -underBinder +onlyGivenNames x2 x3
    clear_value x2
    have hx3 : Keeps s0 x3 := by
      subst x3
      exact State.updGrp_keeps (by assumption)
    clear_value x3
    exact State.releaseCheck_keeps (State.raise_keeps (by assumption))

theorem execGroupFailed_keeps {s0 : State} {a0 a1} {s3 : State} (hs3 : Keeps s0 s3) :
    KeepsN s0 (execGroupFailed a0 a1 s3) := by
  unfold execGroupFailed
  extract_lets -merge -underBinder +onlyGivenNames x1
  have hx1 : Keeps s0 x1 := by
    subst x1
    exact State.to_keeps (by assumption)
  clear_value x1
  refine guardNext_keeps ?_ (fun _ _ => ?_)
  · assumption
  · exact State.releaseCheck_keeps (State.updGrp_keeps (by assumption))

theorem State.groupRetire_keeps {s0 s1 : State} {a1} (hs1 : Keeps s0 s1) :
    Keeps s0 (State.groupRetire s1 a1) := by
  unfold State.groupRetire
  exact State.releaseCheck_keeps (State.retire_keeps (by assumption))

theorem State.groupDown_keeps {s0 s1 : State} {a1 a2} (hs1 : Keeps s0 s1) :
    Keeps s0 (State.groupDown s1 a1 a2) := by
  unfold State.groupDown
  refine keeps_ite ?_ ?_
  · assumption
  · extract_lets -merge -underBinder +onlyGivenNames x1
    have hx1 : Keeps s0 x1 := by
      subst x1
      exact State.updGrp_keeps (by assumption)
    clear_value x1
    exact State.groupRetire_keeps (State.raise_keeps (by assumption))

theorem State.groupOff_keeps {s0 s1 : State} {a1} (hs1 : Keeps s0 s1) :
    Keeps s0 (State.groupOff s1 a1) := by
  unfold State.groupOff
  extract_lets -merge -underBinder +onlyGivenNames x1 x2
  clear_value x1
  have hx2 : Keeps s0 x2 := by
    subst x2
    exact State.updGrp_keeps (by assumption)
  clear_value x2
  refine keeps_ite ?_ ?_
  · exact State.groupRetire_keeps (by assumption)
  · assumption

theorem execGroupDown_keeps {s0 : State} {a0 a1} {s3 : State} (hs3 : Keeps s0 s3) :
    KeepsN s0 (execGroupDown a0 a1 s3) := by
  unfold execGroupDown
  exact keepsN_next (State.groupDown_keeps (State.to_keeps (by assumption)))

theorem execRediscovery_keeps {s0 : State} {a0 a1} {s3 : State} (hs3 : Keeps s0 s3) :
    KeepsN s0 (execRediscovery a0 a1 s3) := by
  unfold execRediscovery
  extract_lets -merge -underBinder +onlyGivenNames x1
  have hx1 : Keeps s0 x1 := by
    subst x1
    exact State.to_keeps (by assumption)
  clear_value x1
  extract_lets -merge -underBinder +onlyGivenNames x2
  clear_value x2
  refine guardNext_keeps ?_ (fun _ _ => ?_)
  · assumption
  · exact State.updGrp_keeps (State.discover_keeps (by assumption))

theorem execPcxFault_keeps {s0 : State} {a0 a1} {s3 : State} (hs3 : Keeps s0 s3) :
    KeepsN s0 (execPcxFault a0 a1 s3) := by
  unfold execPcxFault
  extract_lets -merge -underBinder +onlyGivenNames x1
  have hx1 : Keeps s0 x1 := by
    subst x1
    exact State.to_keeps (by assumption)
  clear_value x1
  refine keepsN_ite ?_ ?_
  · exact keepsN_next (by assumption)
  · extract_lets -merge -underBinder +onlyGivenNames x2
    have hx2 : Keeps s0 x2 := by
      subst x2
      exact State.updGrp_keeps (by assumption)
    clear_value x2
    exact keepsN_next (State.groupDown_keeps (State.raise_keeps (by assumption)))

theorem execPcxFaultRelease_keeps {s0 : State} {a0 a1} {s3 : State} (hs3 : Keeps s0 s3) :
    KeepsN s0 (execPcxFaultRelease a0 a1 s3) := by
  unfold execPcxFaultRelease
  exact keepsN_next (State.updGrp_keeps (State.to_keeps (by assumption)))

theorem State.pwrEnWrite_keeps {s0 s1 : State} {a1 a2} (hs1 : Keeps s0 s1) :
    Keeps s0 (State.pwrEnWrite s1 a1 a2) := by
  unfold State.pwrEnWrite
  exact State.updGrp_keeps (by assumption)

theorem State.acqStart_keeps {s0 s1 : State} (hs1 : Keeps s0 s1) :
    Keeps s0 (State.acqStart s1) := by
  unfold State.acqStart
  extract_lets -merge -underBinder +onlyGivenNames x1 x2 x3
  clear_value x1 x2
  have hx3 : Keeps s0 x3 := by
    subst x3
    refine State.updAcq_keeps ?_ ?_
    · assumption
    · first | exact fun _ h => h | (intro _ h; split <;> exact h) | (intro _ h; simp_all [Acq.Sized, lmod])
  clear_value x3
  extract_lets -merge -underBinder +onlyGivenNames x4
  have hx4 : Keeps s0 x4 := by
    subst x4
    refine keeps_ite ?_ ?_
    · exact State.raise_keeps (by assumption)
    · assumption
  clear_value x4
  refine State.each_keeps ?_ (fun _ _ _ => ?_)
  · assumption
  · extract_lets -merge -underBinder +onlyGivenNames x5
    clear_value x5
    refine keeps_ite ?_ ?_
    · assumption
    · exact State.discover_keeps (by assumption)

theorem State.acqStop_keeps {s0 s1 : State} (hs1 : Keeps s0 s1) :
    Keeps s0 (State.acqStop s1) := by
  unfold State.acqStop
  extract_lets -merge -underBinder +onlyGivenNames x1
  have hx1 : Keeps s0 x1 := by
    subst x1
    refine State.each_keeps ?_ (fun _ _ _ => ?_)
    · assumption
    · extract_lets -merge -underBinder +onlyGivenNames x2
      clear_value x2
      refine State.each_keeps ?_ (fun _ _ _ => ?_)
      · exact State.updGrp_keeps (by assumption)
      · exact State.watchKick_keeps (by assumption)
  clear_value x1
  extract_lets -merge -underBinder +onlyGivenNames x3
  have hx3 : Keeps s0 x3 := by
    subst x3
    exact State.updStage_keeps (by assumption)
  clear_value x3
  refine State.updAcq_keeps ?_ ?_
  · assumption
  · first | exact fun _ h => h | (intro _ h; split <;> exact h) | (intro _ h; simp_all [Acq.Sized, lmod])

theorem State.srcBad_keeps {s0 s1 : State} {a1} (hs1 : Keeps s0 s1) :
    Keeps s0 (State.srcBad s1 a1) := by
  unfold State.srcBad
  exact State.raise_keeps (State.bump_keeps (by assumption))

theorem State.srcLate_keeps {s0 s1 : State} {a1} (hs1 : Keeps s0 s1) :
    Keeps s0 (State.srcLate s1 a1) := by
  unfold State.srcLate
  exact State.raise_keeps (State.bump_keeps (by assumption))

theorem State.sensorTake_keeps {s0 s1 : State} {a1 a2 a3} (hs1 : Keeps s0 s1) :
    Keeps s0 (State.sensorTake s1 a1 a2 a3) := by
  unfold State.sensorTake
  extract_lets -merge -underBinder +onlyGivenNames x1 x2 x3 x4
  clear_value x3
  have hx4 : Keeps s0 x4 := by
    subst x4
    refine keeps_ite ?_ ?_
    · exact State.srcLate_keeps (by assumption)
    · assumption
  clear_value x4
  extract_lets -merge -underBinder +onlyGivenNames x5
  have hx5 : Keeps s0 x5 := by
    subst x5
    refine keeps_ite ?_ ?_
    · exact State.updSrc_keeps (by assumption)
    · assumption
  clear_value x5
  refine keeps_ite ?_ ?_
  · assumption
  · exact State.updSrc_keeps (by assumption)

theorem execSensorRecord_keeps {s0 : State} {a0 a1 a2} {s4 : State} (hs4 : Keeps s0 s4) :
    KeepsN s0 (execSensorRecord a0 a1 a2 s4) := by
  unfold execSensorRecord
  extract_lets -merge -underBinder +onlyGivenNames x1
  have hx1 : Keeps s0 x1 := by
    subst x1
    exact State.to_keeps (by assumption)
  clear_value x1
  refine keepsN_ite ?_ ?_
  · exact keepsN_next (by assumption)
  · extract_lets -merge -underBinder +onlyGivenNames x2
    have hx2 : Keeps s0 x2 := by
      subst x2
      exact State.bump_keeps (by assumption)
    clear_value x2
    extract_lets -merge -underBinder +onlyGivenNames x3 x4
    clear_value x3 x4
    refine keepsN_ite ?_ ?_
    · exact keepsN_next (by assumption)
    · refine keepsN_ite ?_ ?_
      · exact keepsN_next (State.bump_keeps (by assumption))
      · extract_lets -merge -underBinder +onlyGivenNames x5 x6 x7 x8 x9
        clear_value x5 x6 x7 x8 x9
        refine keepsN_ite ?_ ?_
        · exact keepsN_next (State.srcBad_keeps (by assumption))
        · extract_lets -merge -underBinder +onlyGivenNames x10 x11 x12
          clear_value x10 x11
          have hx12 : Keeps s0 x12 := by
            subst x12
            exact State.updSrc_keeps (by assumption)
          clear_value x12
          extract_lets -merge -underBinder +onlyGivenNames x13
          have hx13 : Keeps s0 x13 := by
            subst x13
            refine keeps_ite ?_ ?_
            · exact State.raise_keeps (State.bump_keeps (by assumption))
            · assumption
          clear_value x13
          refine keepsN_ite ?_ ?_
          · exact keepsN_next (by assumption)
          · extract_lets -merge -underBinder +onlyGivenNames x14 x15 x16 x17
            clear_value x14 x15 x16 x17
            refine keepsN_ite ?_ ?_
            · exact keepsN_next (State.srcBad_keeps (by assumption))
            · extract_lets -merge -underBinder +onlyGivenNames x18 x19 x20 x21
              clear_value x18 x19 x20 x21
              refine keepsN_ite ?_ ?_
              · refine keepsN_next ?_
                refine State.drew_keeps ?_
                refine State.updAcq_keeps ?_ ?_
                · assumption
                · first | exact fun _ h => h | (intro _ h; split <;> exact h) | (intro _ h; simp_all [Acq.Sized, lmod])
              · exact keepsN_next (State.drew_keeps (State.sensorTake_keeps (by assumption)))

theorem execHeldLineRelease_keeps {s0 : State} {a0} {s2 : State} (hs2 : Keeps s0 s2) :
    KeepsN s0 (execHeldLineRelease a0 s2) := by
  unfold execHeldLineRelease
  extract_lets -merge -underBinder +onlyGivenNames x1
  have hx1 : Keeps s0 x1 := by
    subst x1
    exact State.to_keeps (by assumption)
  clear_value x1
  split
  · exact keepsN_next (by assumption)
  · extract_lets -merge -underBinder +onlyGivenNames x2 x3
    clear_value x2 x3
    refine keepsN_next ?_
    refine keeps_ite ?_ ?_
    · refine State.cxpLine_keeps ?_
      refine State.updAcq_keeps ?_ ?_
      · assumption
      · first | exact fun _ h => h | (intro _ h; split <;> exact h) | (intro _ h; simp_all [Acq.Sized, lmod])
    · assumption

theorem execHeldRecordRelease_keeps {s0 : State} {a0} {s2 : State} (hs2 : Keeps s0 s2) :
    KeepsN s0 (execHeldRecordRelease a0 s2) := by
  unfold execHeldRecordRelease
  extract_lets -merge -underBinder +onlyGivenNames x1
  have hx1 : Keeps s0 x1 := by
    subst x1
    exact State.to_keeps (by assumption)
  clear_value x1
  split
  · exact keepsN_next (by assumption)
  · extract_lets -merge -underBinder +onlyGivenNames x2
    clear_value x2
    refine keepsN_next ?_
    refine keeps_ite ?_ ?_
    · refine State.sensorTake_keeps ?_
      refine State.updAcq_keeps ?_ ?_
      · assumption
      · first | exact fun _ h => h | (intro _ h; split <;> exact h) | (intro _ h; simp_all [Acq.Sized, lmod])
    · assumption

end Sys2Proof.Machine
end

