-- ==== Sys2Proof/Laws/KeepsCourse.lean ====
section
/-! SUPPORT. What the operations of Machine/Course.lean keep (Laws/Keeps.lean). -/
namespace Sys2Proof.Machine
set_option Elab.async false

theorem State.countEdge_keeps {s0 s1 : State} {a1 a2} (hs1 : Keeps s0 s1) :
    Keeps s0 (State.countEdge s1 a1 a2) := by
  unfold State.countEdge
  extract_lets -merge -underBinder +onlyGivenNames x1 x2 x3 x4 x5 x6 x7
  clear_value x1 x2 x3 x4 x5 x6
  have hx7 : Keeps s0 x7 := by
    subst x7
    exact State.updEnc_keeps (by assumption)
  clear_value x7
  extract_lets -merge -underBinder +onlyGivenNames x8
  have hx8 : Keeps s0 x8 := by
    subst x8
    refine State.updCourse_keeps ?_ ?_
    · assumption
    · first | exact fun _ h => h | (intro _ h; split <;> exact h) | (intro _ h; simp_all [Course.Sized, lmod])
  clear_value x8
  extract_lets -merge -underBinder +onlyGivenNames x9 x10 x11 x12
  clear_value x9
  have hx10 : Keeps s0 x10 := by
    subst x10
    refine State.updCourse_keeps ?_ ?_
    · assumption
    · first | exact fun _ h => h | (intro _ h; split <;> exact h) | (intro _ h; simp_all [Course.Sized, lmod])
  clear_value x10
  have hx11 : Keeps s0 x11 := by
    subst x11
    exact State.spMoved_keeps (by assumption)
  clear_value x11
  have hx12 : Keeps s0 x12 := by
    subst x12
    refine keeps_ite ?_ ?_
    · refine keeps_ite ?_ ?_
      · exact State.raise_keeps (by assumption)
      · assumption
    · assumption
  clear_value x12
  extract_lets -merge -underBinder +onlyGivenNames x13
  have hx13 : Keeps s0 x13 := by
    subst x13
    refine keeps_ite ?_ ?_
    · exact State.encError_keeps (by assumption)
    · assumption
  clear_value x13
  exact State.xcheck_keeps (by assumption)

theorem State.encLevels_keeps {s0 s1 : State} {a1 a2 a3} (hs1 : Keeps s0 s1) :
    Keeps s0 (State.encLevels s1 a1 a2 a3) := by
  unfold State.encLevels
  exact State.updEnc_keeps (by assumption)

theorem execEncoderEdge_keeps {s0 : State} {a0 a1 a2 a3} {s5 : State} (hs5 : Keeps s0 s5) :
    KeepsN s0 (execEncoderEdge a0 a1 a2 a3 s5) := by
  unfold execEncoderEdge
  extract_lets -merge -underBinder +onlyGivenNames x1
  have hx1 : Keeps s0 x1 := by
    subst x1
    exact State.to_keeps (by assumption)
  clear_value x1
  extract_lets -merge -underBinder +onlyGivenNames x2 x3 x4 x5 x6 x7
  clear_value x2 x3 x4 x5 x6
  have hx7 : Keeps s0 x7 := by
    subst x7
    exact State.encLevels_keeps (by assumption)
  clear_value x7
  refine keepsN_next ?_
  refine keeps_ite ?_ ?_
  · assumption
  · refine keeps_ite ?_ ?_
    · exact State.encError_keeps (by assumption)
    · refine keeps_ite ?_ ?_
      · assumption
      · split
        · assumption
        · refine keeps_ite ?_ ?_
          · exact State.countEdge_keeps (State.drew_keeps (by assumption))
          · exact State.countEdge_keeps (by assumption)

theorem execLos_keeps {s0 : State} {a0 a1} {s3 : State} (hs3 : Keeps s0 s3) :
    KeepsN s0 (execLos a0 a1 s3) := by
  unfold execLos
  extract_lets -merge -underBinder +onlyGivenNames x1
  have hx1 : Keeps s0 x1 := by
    subst x1
    exact State.updEnc_keeps (State.to_keeps (by assumption))
  clear_value x1
  refine keepsN_next ?_
  refine keeps_ite ?_ ?_
  · exact State.encFault_keeps (State.bump_keeps (by assumption))
  · assumption

theorem execLosEnd_keeps {s0 : State} {a0 a1} {s3 : State} (hs3 : Keeps s0 s3) :
    KeepsN s0 (execLosEnd a0 a1 s3) := by
  unfold execLosEnd
  exact keepsN_next (State.updEnc_keeps (State.to_keeps (by assumption)))

theorem execPositionLost_keeps {s0 : State} {a0} {s2 : State} (hs2 : Keeps s0 s2) :
    KeepsN s0 (execPositionLost a0 s2) := by
  unfold execPositionLost
  extract_lets -merge -underBinder +onlyGivenNames x1
  have hx1 : Keeps s0 x1 := by
    subst x1
    exact State.to_keeps (by assumption)
  clear_value x1
  split
  · refine keepsN_next ?_
    refine keeps_ite ?_ ?_
    · extract_lets -merge -underBinder +onlyGivenNames x2
      have hx2 : Keeps s0 x2 := by
        subst x2
        refine State.updCourse_keeps ?_ ?_
        · assumption
        · first | exact fun _ h => h | (intro _ h; split <;> exact h) | (intro _ h; simp_all [Course.Sized, lmod])
      clear_value x2
      exact State.raise_keeps (State.raise_keeps (by assumption))
    · assumption
  · exact keepsN_next (by assumption)

theorem execSpeedEstimate_keeps {s0 : State} {a0} {s2 : State} (hs2 : Keeps s0 s2) :
    KeepsN s0 (execSpeedEstimate a0 s2) := by
  unfold execSpeedEstimate
  extract_lets -merge -underBinder +onlyGivenNames x1
  have hx1 : Keeps s0 x1 := by
    subst x1
    exact State.to_keeps (by assumption)
  clear_value x1
  refine keepsN_ite ?_ ?_
  · exact keepsN_next (by assumption)
  · extract_lets -merge -underBinder +onlyGivenNames x2
    have hx2 : Keeps s0 x2 := by
      subst x2
      refine State.updCourse_keeps ?_ ?_
      · assumption
      · first | exact fun _ h => h | (intro _ h; split <;> exact h) | (intro _ h; simp_all [Course.Sized, lmod])
    clear_value x2
    refine keepsN_next ?_
    refine State.updCourse_keeps ?_ ?_
    · assumption
    · first | exact fun _ h => h | (intro _ h; split <;> exact h) | (intro _ h; simp_all [Course.Sized, lmod])

theorem execZeroSpeed_keeps {s0 : State} {a0} {s2 : State} (hs2 : Keeps s0 s2) :
    KeepsN s0 (execZeroSpeed a0 s2) := by
  unfold execZeroSpeed
  extract_lets -merge -underBinder +onlyGivenNames x1
  have hx1 : Keeps s0 x1 := by
    subst x1
    exact State.to_keeps (by assumption)
  clear_value x1
  extract_lets -merge -underBinder +onlyGivenNames x2
  clear_value x2
  refine guardNext_keeps ?_ (fun _ _ => ?_)
  · assumption
  · refine State.raise_keeps ?_
    refine State.updCourse_keeps ?_ ?_
    · assumption
    · first | exact fun _ h => h | (intro _ h; split <;> exact h) | (intro _ h; simp_all [Course.Sized, lmod])

theorem State.clearFault_keeps {s0 s1 : State} {a1} (hs1 : Keeps s0 s1) :
    Keeps s0 (State.clearFault s1 a1) := by
  unfold State.clearFault
  extract_lets -merge -underBinder +onlyGivenNames x1 x2
  clear_value x1 x2
  refine keeps_ite ?_ ?_
  · assumption
  · extract_lets -merge -underBinder +onlyGivenNames x3
    have hx3 : Keeps s0 x3 := by
      subst x3
      exact State.updEnc_keeps (by assumption)
    clear_value x3
    refine keeps_ite ?_ ?_
    · assumption
    · extract_lets -merge -underBinder +onlyGivenNames x4
      have hx4 : Keeps s0 x4 := by
        subst x4
        split
        · extract_lets -merge -underBinder +onlyGivenNames x5 x6
          clear_value x5 x6
          refine State.updCourse_keeps ?_ ?_
          · exact State.coverAll_keeps (by assumption)
          · first | exact fun _ h => h | (intro _ h; split <;> exact h) | (intro _ h; simp_all [Course.Sized, lmod])
        · assumption
      clear_value x4
      extract_lets -merge -underBinder +onlyGivenNames x7
      have hx7 : Keeps s0 x7 := by
        subst x7
        refine State.updCourse_keeps ?_ ?_
        · assumption
        · first | exact fun _ h => h | (intro _ h; split <;> exact h) | (intro _ h; simp_all [Course.Sized, lmod])
      clear_value x7
      extract_lets -merge -underBinder +onlyGivenNames x8
      have hx8 : Keeps s0 x8 := by
        subst x8
        refine State.updCourse_keeps ?_ ?_
        · assumption
        · first | exact fun _ h => h | (intro _ h; split <;> exact h) | (intro _ h; simp_all [Course.Sized, lmod])
      clear_value x8
      exact State.xcheck_keeps (State.evalSource_keeps (by assumption))

theorem State.resync_keeps {s0 s1 : State} (hs1 : Keeps s0 s1) :
    Keeps s0 (State.resync s1) := by
  unfold State.resync
  refine keeps_ite ?_ ?_
  · assumption
  · refine State.xcheck_keeps ?_
    refine State.updCourse_keeps ?_ ?_
    · assumption
    · first | exact fun _ h => h | (intro _ h; split <;> exact h) | (intro _ h; simp_all [Course.Sized, lmod])

theorem State.loadSp_keeps {s0 s1 : State} (hs1 : Keeps s0 s1) :
    Keeps s0 (State.loadSp s1) := by
  unfold State.loadSp
  extract_lets -merge -underBinder +onlyGivenNames x1 x2 x3
  clear_value x1 x2
  have hx3 : Keeps s0 x3 := by
    subst x3
    refine State.updCourse_keeps ?_ ?_
    · assumption
    · first | exact fun _ h => h | (intro _ h; split <;> exact h) | (intro _ h; simp_all [Course.Sized, lmod])
  clear_value x3
  extract_lets -merge -underBinder +onlyGivenNames x4
  have hx4 : Keeps s0 x4 := by
    subst x4
    refine keeps_ite ?_ ?_
    · exact State.raise_keeps (by assumption)
    · assumption
  clear_value x4
  exact State.xcheck_keeps (State.evalSource_keeps (by assumption))

theorem State.relocate_keeps {s0 s1 : State} (hs1 : Keeps s0 s1) :
    Keeps s0 (State.relocate s1) := by
  unfold State.relocate
  split
  · assumption
  · extract_lets -merge -underBinder +onlyGivenNames x1 x2 x3 x4 x5
    clear_value x1 x2 x3 x4
    have hx5 : Keeps s0 x5 := by
      subst x5
      exact State.coverAll_keeps (by assumption)
    clear_value x5
    extract_lets -merge -underBinder +onlyGivenNames x6
    have hx6 : Keeps s0 x6 := by
      subst x6
      refine State.updCourse_keeps ?_ ?_
      · assumption
      · first | exact fun _ h => h | (intro _ h; split <;> exact h) | (intro _ h; simp_all [Course.Sized, lmod])
    clear_value x6
    exact State.xcheck_keeps (State.evalSource_keeps (State.reverseCheck_keeps (by assumption)))

theorem State.courseCmd_keeps {s0 s1 : State} {a1} (hs1 : Keeps s0 s1) :
    KeepsL s0 (State.courseCmd s1 a1) := by
  unfold State.courseCmd
  split
  · refine keepsL_ite ?_ ?_
    · exact keepsL_mk (by assumption)
    · exact keepsL_mk (State.loadSp_keeps (by assumption))
  · exact keepsL_mk (State.resync_keeps (by assumption))
  · exact keepsL_mk (State.clearFault_keeps (by assumption))
  · exact keepsL_mk (State.clearFault_keeps (by assumption))
  · exact keepsL_mk (State.relocate_keeps (by assumption))
  · exact keepsL_mk (State.lookSettle_keeps (State.positionMark_keeps (by assumption)))
  · exact keepsL_mk (by assumption)

theorem State.setCrs_keeps {s0 s1 : State} {a1 a2 a3} (hs1 : Keeps s0 s1) :
    Keeps s0 (State.setCrs s1 a1 a2 a3) := by
  unfold State.setCrs
  extract_lets -merge -underBinder +onlyGivenNames x1
  clear_value x1
  refine keeps_ite ?_ ?_
  · exact State.updCrs_keeps (State.bump_keeps (by assumption))
  · extract_lets -merge -underBinder +onlyGivenNames x2
    have hx2 : Keeps s0 x2 := by
      subst x2
      exact State.updCrs_keeps (by assumption)
    clear_value x2
    extract_lets -merge -underBinder +onlyGivenNames x3
    have hx3 : Keeps s0 x3 := by
      subst x3
      refine keeps_ite ?_ ?_
      · refine State.updPlumb_keeps ?_ ?_
        · assumption
        · first | exact fun _ h => h | (intro _ h; split <;> exact h) | (intro _ h; simp_all [Plumb.Sized, lmod])
      · assumption
    clear_value x3
    refine keeps_ite ?_ ?_
    · assumption
    · exact State.drive_keeps (by assumption)

theorem State.strobe_keeps {s0 s1 : State} {a1} (hs1 : Keeps s0 s1) :
    Keeps s0 (State.strobe s1 a1) := by
  unfold State.strobe
  extract_lets -merge -underBinder +onlyGivenNames x1 x2 x3 x4
  clear_value x1 x2 x3 x4
  refine keeps_ite ?_ ?_
  · assumption
  · exact State.setCrs_keeps (by assumption)

theorem State.lgReset_keeps {s0 s1 : State} {a1} (hs1 : Keeps s0 s1) :
    Keeps s0 (State.lgReset s1 a1) := by
  unfold State.lgReset
  refine State.each_keeps ?_ (fun _ _ _ => ?_)
  · exact State.updLg_keeps (by assumption)
  · exact State.updCrs_keeps (by assumption)

theorem execStrobeStart_keeps {s0 : State} {a0 a1} {s3 : State} (hs3 : Keeps s0 s3) :
    KeepsN s0 (execStrobeStart a0 a1 s3) := by
  unfold execStrobeStart
  extract_lets -merge -underBinder +onlyGivenNames x1
  have hx1 : Keeps s0 x1 := by
    subst x1
    exact State.to_keeps (by assumption)
  clear_value x1
  extract_lets -merge -underBinder +onlyGivenNames x2 x3
  clear_value x2 x3
  refine keepsN_ite ?_ ?_
  · exact keepsN_next (by assumption)
  · refine keepsN_ite ?_ ?_
    · split
      · refine keepsN_next ?_
        refine keeps_ite ?_ ?_
        · exact State.updCrs_keeps (State.strobe_keeps (by assumption))
        · assumption
      · exact keepsN_next (by assumption)
    · extract_lets -merge -underBinder +onlyGivenNames x4
      clear_value x4
      refine keepsN_next ?_
      refine keeps_ite ?_ ?_
      · exact State.updCrs_keeps (State.strobe_keeps (by assumption))
      · assumption

theorem State.crsEnd_keeps {s0 s1 : State} {a1} (hs1 : Keeps s0 s1) :
    Keeps s0 (State.crsEnd s1 a1) := by
  unfold State.crsEnd
  split
  · refine keeps_ite ?_ ?_
    · exact State.setCrs_keeps (by assumption)
    · assumption
  · assumption

theorem execStrobeEnd_keeps {s0 : State} {a0 a1} {s3 : State} (hs3 : Keeps s0 s3) :
    KeepsN s0 (execStrobeEnd a0 a1 s3) := by
  unfold execStrobeEnd
  exact keepsN_next (State.crsEnd_keeps (State.to_keeps (by assumption)))

theorem execPulseEnd_keeps {s0 : State} {a0 a1} {s3 : State} (hs3 : Keeps s0 s3) :
    KeepsN s0 (execPulseEnd a0 a1 s3) := by
  unfold execPulseEnd
  exact keepsN_next (State.crsEnd_keeps (State.to_keeps (by assumption)))

theorem State.progStop_keeps {s0 s1 : State} {a1} (hs1 : Keeps s0 s1) :
    Keeps s0 (State.progStop s1 a1) := by
  unfold State.progStop
  exact State.updProg_keeps (State.setFld_keeps (by assumption))

theorem State.progStart_keeps {s0 s1 : State} {a1} (hs1 : Keeps s0 s1) :
    Keeps s0 (State.progStart s1 a1) := by
  unfold State.progStart
  exact State.updProg_keeps (State.setFld_keeps (by assumption))

theorem State.progFault_keeps {s0 s1 : State} {a1} (hs1 : Keeps s0 s1) :
    Keeps s0 (State.progFault s1 a1) := by
  unfold State.progFault
  exact State.raise_keeps (State.setFld_keeps (State.progStop_keeps (by assumption)))

theorem State.progNext_keeps {s0 s1 : State} {a1} (hs1 : Keeps s0 s1) :
    Keeps s0 (State.progNext s1 a1) := by
  unfold State.progNext
  exact State.updProg_keeps (by assumption)

theorem State.progJump_keeps {s0 s1 : State} {a1 a2} (hs1 : Keeps s0 s1) :
    Keeps s0 (State.progJump s1 a1 a2) := by
  unfold State.progJump
  refine keeps_ite ?_ ?_
  · exact State.updProg_keeps (by assumption)
  · exact State.progFault_keeps (by assumption)

theorem State.progDone_keeps {s0 s1 : State} {a1 a2 a3} (hs1 : Keeps s0 s1) :
    Keeps s0 (State.progDone s1 a1 a2 a3) := by
  unfold State.progDone
  extract_lets -merge -underBinder +onlyGivenNames x1
  have hx1 : Keeps s0 x1 := by
    subst x1
    split
    · refine State.updCourse_keeps ?_ ?_
      · assumption
      · first | exact fun _ h => h | (intro _ h; split <;> exact h) | (intro _ h; simp_all [Course.Sized, lmod])
    · assumption
  clear_value x1
  exact State.updProg_keeps (State.progNext_keeps (State.updProg_keeps (by assumption)))

theorem State.waitDone_keeps {s0 s1 : State} {a1 a2} (hs1 : Keeps s0 s1) :
    Keeps s0 (State.waitDone s1 a1 a2) := by
  unfold State.waitDone
  exact State.progDone_keeps (by assumption)

theorem State.progWait_keeps {s0 s1 : State} {a1 a2} (hs1 : Keeps s0 s1) :
    Keeps s0 (State.progWait s1 a1 a2) := by
  unfold State.progWait
  refine keeps_ite ?_ ?_
  · exact State.progDone_keeps (by assumption)
  · exact State.updProg_keeps (by assumption)

theorem State.progOut_keeps {s0 s1 : State} {a1 a2 a3 a4} (hs1 : Keeps s0 s1) (ha4 : ∀ y0, Keeps s0 y0 → Keeps s0 (a4 y0)) :
    Keeps s0 (State.progOut s1 a1 a2 a3 a4) := by
  unfold State.progOut
  refine keeps_ite ?_ ?_
  · exact State.progFault_keeps (by assumption)
  · extract_lets -merge -underBinder +onlyGivenNames x1 x2
    clear_value x1 x2
    refine State.progNext_keeps ?_
    refine keeps_ite ?_ ?_
    · refine ha4 _ ?_
      assumption
    · exact State.raise_keeps (by assumption)

theorem State.doAnchor_keeps {s0 s1 : State} {a1} (hs1 : Keeps s0 s1) :
    Keeps s0 (State.doAnchor s1 a1) := by
  unfold State.doAnchor
  exact State.progNext_keeps (State.updProg_keeps (by assumption))

theorem State.doWaitSpGe_keeps {s0 s1 : State} {a1 a2} (hs1 : Keeps s0 s1) :
    Keeps s0 (State.doWaitSpGe s1 a1 a2) := by
  unfold State.doWaitSpGe
  exact State.progWait_keeps (by assumption)

theorem State.doWaitSpLe_keeps {s0 s1 : State} {a1 a2} (hs1 : Keeps s0 s1) :
    Keeps s0 (State.doWaitSpLe s1 a1 a2) := by
  unfold State.doWaitSpLe
  exact State.progWait_keeps (by assumption)

theorem State.doWaitDsp_keeps {s0 s1 : State} {a1 a2} (hs1 : Keeps s0 s1) :
    Keeps s0 (State.doWaitDsp s1 a1 a2) := by
  unfold State.doWaitDsp
  exact State.progWait_keeps (State.updProg_keeps (by assumption))

theorem State.doWaitT_keeps {s0 s1 : State} {a1 a2} (hs1 : Keeps s0 s1) :
    Keeps s0 (State.doWaitT s1 a1 a2) := by
  unfold State.doWaitT
  exact State.progWait_keeps (by assumption)

theorem State.doWaitLine_keeps {s0 s1 : State} {a1 a2 a3 a4} (hs1 : Keeps s0 s1) :
    Keeps s0 (State.doWaitLine s1 a1 a2 a3 a4) := by
  unfold State.doWaitLine
  exact State.progWait_keeps (by assumption)

theorem State.doWaitSig_keeps {s0 s1 : State} {a1 a2} (hs1 : Keeps s0 s1) :
    Keeps s0 (State.doWaitSig s1 a1 a2) := by
  unfold State.doWaitSig
  exact State.progWait_keeps (by assumption)

theorem State.doSignal_keeps {s0 s1 : State} {a1 a2} (hs1 : Keeps s0 s1) :
    Keeps s0 (State.doSignal s1 a1 a2) := by
  unfold State.doSignal
  refine State.progNext_keeps ?_
  refine State.updCourse_keeps ?_ ?_
  · assumption
  · first | exact fun _ h => h | (intro _ h; split <;> exact h) | (intro _ h; simp_all [Course.Sized, lmod])

theorem State.doOutSet_keeps {s0 s1 : State} {a1 a2} (hs1 : Keeps s0 s1) :
    Keeps s0 (State.doOutSet s1 a1 a2) := by
  unfold State.doOutSet
  refine State.progOut_keeps ?_ (fun _ _ => ?_)
  · assumption
  · exact State.setCrs_keeps (by assumption)

theorem State.doOutClr_keeps {s0 s1 : State} {a1 a2} (hs1 : Keeps s0 s1) :
    Keeps s0 (State.doOutClr s1 a1 a2) := by
  unfold State.doOutClr
  refine State.progOut_keeps ?_ (fun _ _ => ?_)
  · assumption
  · exact State.setCrs_keeps (by assumption)

theorem State.doOutPulse_keeps {s0 s1 : State} {a1 a2 a3} (hs1 : Keeps s0 s1) :
    Keeps s0 (State.doOutPulse s1 a1 a2 a3) := by
  unfold State.doOutPulse
  refine State.progOut_keeps ?_ (fun _ _ => ?_)
  · assumption
  · exact State.setCrs_keeps (by assumption)

theorem State.doLgOn_keeps {s0 s1 : State} {a1 a2} (hs1 : Keeps s0 s1) :
    Keeps s0 (State.doLgOn s1 a1 a2) := by
  unfold State.doLgOn
  refine keeps_ite ?_ ?_
  · exact State.progFault_keeps (by assumption)
  · exact State.progNext_keeps (State.setFld_keeps (by assumption))

theorem State.doLgOff_keeps {s0 s1 : State} {a1 a2} (hs1 : Keeps s0 s1) :
    Keeps s0 (State.doLgOff s1 a1 a2) := by
  unfold State.doLgOff
  refine keeps_ite ?_ ?_
  · exact State.progFault_keeps (by assumption)
  · exact State.progNext_keeps (State.lgReset_keeps (State.setFld_keeps (by assumption)))

theorem State.doMark_keeps {s0 s1 : State} {a1 a2} (hs1 : Keeps s0 s1) :
    Keeps s0 (State.doMark s1 a1 a2) := by
  unfold State.doMark
  exact State.progNext_keeps (State.lookSettle_keeps (State.positionMark_keeps (by assumption)))

theorem State.doSetc_keeps {s0 s1 : State} {a1 a2 a3} (hs1 : Keeps s0 s1) :
    Keeps s0 (State.doSetc s1 a1 a2 a3) := by
  unfold State.doSetc
  exact State.progNext_keeps (State.updProg_keeps (by assumption))

theorem State.doDjnz_keeps {s0 s1 : State} {a1 a2 a3} (hs1 : Keeps s0 s1) :
    Keeps s0 (State.doDjnz s1 a1 a2 a3) := by
  unfold State.doDjnz
  extract_lets -merge -underBinder +onlyGivenNames x1 x2
  clear_value x1
  have hx2 : Keeps s0 x2 := by
    subst x2
    exact State.updProg_keeps (by assumption)
  clear_value x2
  refine keeps_ite ?_ ?_
  · exact State.progNext_keeps (by assumption)
  · exact State.progJump_keeps (by assumption)

theorem State.doIfSlow_keeps {s0 s1 : State} {a1 a2 a3} (hs1 : Keeps s0 s1) :
    Keeps s0 (State.doIfSlow s1 a1 a2 a3) := by
  unfold State.doIfSlow
  refine keeps_ite ?_ ?_
  · exact State.progJump_keeps (by assumption)
  · exact State.progNext_keeps (by assumption)

theorem State.doIfRev_keeps {s0 s1 : State} {a1 a2} (hs1 : Keeps s0 s1) :
    Keeps s0 (State.doIfRev s1 a1 a2) := by
  unfold State.doIfRev
  refine keeps_ite ?_ ?_
  · exact State.progJump_keeps (by assumption)
  · exact State.progNext_keeps (by assumption)

theorem State.progExec_keeps {s0 s1 : State} {a1 a2} (hs1 : Keeps s0 s1) :
    Keeps s0 (State.progExec s1 a1 a2) := by
  unfold State.progExec
  split
  · exact State.progStop_keeps (by assumption)
  · exact State.doAnchor_keeps (by assumption)
  · exact State.doWaitSpGe_keeps (by assumption)
  · exact State.doWaitSpLe_keeps (by assumption)
  · exact State.doWaitDsp_keeps (by assumption)
  · exact State.doWaitT_keeps (by assumption)
  · exact State.doWaitLine_keeps (by assumption)
  · exact State.doWaitSig_keeps (by assumption)
  · exact State.doSignal_keeps (by assumption)
  · exact State.doOutSet_keeps (by assumption)
  · exact State.doOutClr_keeps (by assumption)
  · exact State.doOutPulse_keeps (by assumption)
  · exact State.doLgOn_keeps (by assumption)
  · exact State.doLgOff_keeps (by assumption)
  · exact State.doMark_keeps (by assumption)
  · exact State.doSetc_keeps (by assumption)
  · exact State.doDjnz_keeps (by assumption)
  · exact State.progJump_keeps (by assumption)
  · exact State.doIfSlow_keeps (by assumption)
  · exact State.doIfRev_keeps (by assumption)
  · exact State.progFault_keeps (by assumption)

theorem progRow_keeps {s0 : State} {a0 a1 a2} {s4 : State} {a4} (hs4 : Keeps s0 s4) (ha4 : ∀ y0, Keeps s0 y0 → Keeps s0 (a4 y0)) :
    KeepsN s0 (progRow a0 a1 a2 s4 a4) := by
  unfold progRow
  extract_lets -merge -underBinder +onlyGivenNames x1
  have hx1 : Keeps s0 x1 := by
    subst x1
    exact State.to_keeps (by assumption)
  clear_value x1
  refine guardNext_keeps ?_ (fun _ _ => ?_)
  · assumption
  · refine ha4 _ ?_
    assumption

theorem execHalt_keeps {s0 : State} {a0 a1} {s3 : State} (hs3 : Keeps s0 s3) :
    KeepsN s0 (execHalt a0 a1 s3) := by
  unfold execHalt
  refine progRow_keeps ?_ (fun _ _ => ?_)
  · assumption
  · exact State.progStop_keeps (by assumption)

theorem execAnchor_keeps {s0 : State} {a0 a1} {s3 : State} (hs3 : Keeps s0 s3) :
    KeepsN s0 (execAnchor a0 a1 s3) := by
  unfold execAnchor
  refine progRow_keeps ?_ (fun _ _ => ?_)
  · assumption
  · exact State.doAnchor_keeps (by assumption)

theorem execWaitSpGe_keeps {s0 : State} {a0 a1 a2} {s4 : State} (hs4 : Keeps s0 s4) :
    KeepsN s0 (execWaitSpGe a0 a1 a2 s4) := by
  unfold execWaitSpGe
  refine progRow_keeps ?_ (fun _ _ => ?_)
  · assumption
  · exact State.doWaitSpGe_keeps (by assumption)

theorem execWaitSpLe_keeps {s0 : State} {a0 a1 a2} {s4 : State} (hs4 : Keeps s0 s4) :
    KeepsN s0 (execWaitSpLe a0 a1 a2 s4) := by
  unfold execWaitSpLe
  refine progRow_keeps ?_ (fun _ _ => ?_)
  · assumption
  · exact State.doWaitSpLe_keeps (by assumption)

theorem execWaitDsp_keeps {s0 : State} {a0 a1 a2} {s4 : State} (hs4 : Keeps s0 s4) :
    KeepsN s0 (execWaitDsp a0 a1 a2 s4) := by
  unfold execWaitDsp
  refine progRow_keeps ?_ (fun _ _ => ?_)
  · assumption
  · exact State.doWaitDsp_keeps (by assumption)

theorem execWaitT_keeps {s0 : State} {a0 a1 a2} {s4 : State} (hs4 : Keeps s0 s4) :
    KeepsN s0 (execWaitT a0 a1 a2 s4) := by
  unfold execWaitT
  refine progRow_keeps ?_ (fun _ _ => ?_)
  · assumption
  · exact State.doWaitT_keeps (by assumption)

theorem execWaitLine_keeps {s0 : State} {a0 a1 a2 a3 a4} {s6 : State} (hs6 : Keeps s0 s6) :
    KeepsN s0 (execWaitLine a0 a1 a2 a3 a4 s6) := by
  unfold execWaitLine
  refine progRow_keeps ?_ (fun _ _ => ?_)
  · assumption
  · exact State.doWaitLine_keeps (by assumption)

theorem execWaitSig_keeps {s0 : State} {a0 a1 a2} {s4 : State} (hs4 : Keeps s0 s4) :
    KeepsN s0 (execWaitSig a0 a1 a2 s4) := by
  unfold execWaitSig
  refine progRow_keeps ?_ (fun _ _ => ?_)
  · assumption
  · exact State.doWaitSig_keeps (by assumption)

theorem execSignal_keeps {s0 : State} {a0 a1 a2} {s4 : State} (hs4 : Keeps s0 s4) :
    KeepsN s0 (execSignal a0 a1 a2 s4) := by
  unfold execSignal
  refine progRow_keeps ?_ (fun _ _ => ?_)
  · assumption
  · exact State.doSignal_keeps (by assumption)

theorem execOutSet_keeps {s0 : State} {a0 a1 a2} {s4 : State} (hs4 : Keeps s0 s4) :
    KeepsN s0 (execOutSet a0 a1 a2 s4) := by
  unfold execOutSet
  refine progRow_keeps ?_ (fun _ _ => ?_)
  · assumption
  · exact State.doOutSet_keeps (by assumption)

theorem execOutClr_keeps {s0 : State} {a0 a1 a2} {s4 : State} (hs4 : Keeps s0 s4) :
    KeepsN s0 (execOutClr a0 a1 a2 s4) := by
  unfold execOutClr
  refine progRow_keeps ?_ (fun _ _ => ?_)
  · assumption
  · exact State.doOutClr_keeps (by assumption)

theorem execOutPulse_keeps {s0 : State} {a0 a1 a2 a3} {s5 : State} (hs5 : Keeps s0 s5) :
    KeepsN s0 (execOutPulse a0 a1 a2 a3 s5) := by
  unfold execOutPulse
  refine progRow_keeps ?_ (fun _ _ => ?_)
  · assumption
  · exact State.doOutPulse_keeps (by assumption)

theorem execLgOn_keeps {s0 : State} {a0 a1 a2} {s4 : State} (hs4 : Keeps s0 s4) :
    KeepsN s0 (execLgOn a0 a1 a2 s4) := by
  unfold execLgOn
  refine progRow_keeps ?_ (fun _ _ => ?_)
  · assumption
  · exact State.doLgOn_keeps (by assumption)

theorem execLgOff_keeps {s0 : State} {a0 a1 a2} {s4 : State} (hs4 : Keeps s0 s4) :
    KeepsN s0 (execLgOff a0 a1 a2 s4) := by
  unfold execLgOff
  refine progRow_keeps ?_ (fun _ _ => ?_)
  · assumption
  · exact State.doLgOff_keeps (by assumption)

theorem execMark_keeps {s0 : State} {a0 a1 a2} {s4 : State} (hs4 : Keeps s0 s4) :
    KeepsN s0 (execMark a0 a1 a2 s4) := by
  unfold execMark
  refine progRow_keeps ?_ (fun _ _ => ?_)
  · assumption
  · exact State.doMark_keeps (by assumption)

theorem execSetc_keeps {s0 : State} {a0 a1 a2 a3} {s5 : State} (hs5 : Keeps s0 s5) :
    KeepsN s0 (execSetc a0 a1 a2 a3 s5) := by
  unfold execSetc
  refine progRow_keeps ?_ (fun _ _ => ?_)
  · assumption
  · exact State.doSetc_keeps (by assumption)

theorem execDjnz_keeps {s0 : State} {a0 a1 a2 a3} {s5 : State} (hs5 : Keeps s0 s5) :
    KeepsN s0 (execDjnz a0 a1 a2 a3 s5) := by
  unfold execDjnz
  refine progRow_keeps ?_ (fun _ _ => ?_)
  · assumption
  · exact State.doDjnz_keeps (by assumption)

theorem execJump_keeps {s0 : State} {a0 a1 a2} {s4 : State} (hs4 : Keeps s0 s4) :
    KeepsN s0 (execJump a0 a1 a2 s4) := by
  unfold execJump
  refine progRow_keeps ?_ (fun _ _ => ?_)
  · assumption
  · exact State.progJump_keeps (by assumption)

theorem execIfSlow_keeps {s0 : State} {a0 a1 a2 a3} {s5 : State} (hs5 : Keeps s0 s5) :
    KeepsN s0 (execIfSlow a0 a1 a2 a3 s5) := by
  unfold execIfSlow
  refine progRow_keeps ?_ (fun _ _ => ?_)
  · assumption
  · exact State.doIfSlow_keeps (by assumption)

theorem execIfRev_keeps {s0 : State} {a0 a1 a2} {s4 : State} (hs4 : Keeps s0 s4) :
    KeepsN s0 (execIfRev a0 a1 a2 s4) := by
  unfold execIfRev
  refine progRow_keeps ?_ (fun _ _ => ?_)
  · assumption
  · exact State.doIfRev_keeps (by assumption)

theorem execProgFault_keeps {s0 : State} {a0 a1} {s3 : State} (hs3 : Keeps s0 s3) :
    KeepsN s0 (execProgFault a0 a1 s3) := by
  unfold execProgFault
  extract_lets -merge -underBinder +onlyGivenNames x1
  have hx1 : Keeps s0 x1 := by
    subst x1
    exact State.to_keeps (by assumption)
  clear_value x1
  refine guardNext_keeps ?_ (fun _ _ => ?_)
  · assumption
  · exact State.progFault_keeps (by assumption)

theorem execWaitCompletes_keeps {s0 : State} {a0 a1} {s3 : State} (hs3 : Keeps s0 s3) :
    KeepsN s0 (execWaitCompletes a0 a1 s3) := by
  unfold execWaitCompletes
  extract_lets -merge -underBinder +onlyGivenNames x1
  have hx1 : Keeps s0 x1 := by
    subst x1
    exact State.to_keeps (by assumption)
  clear_value x1
  split
  · refine guardNext_keeps ?_ (fun _ _ => ?_)
    · assumption
    · exact State.waitDone_keeps (by assumption)
  · exact keepsN_next (by assumption)

theorem execProgRunaway_keeps {s0 : State} {a0 a1} {s3 : State} (hs3 : Keeps s0 s3) :
    KeepsN s0 (execProgRunaway a0 a1 s3) := by
  unfold execProgRunaway
  extract_lets -merge -underBinder +onlyGivenNames x1
  have hx1 : Keeps s0 x1 := by
    subst x1
    exact State.to_keeps (by assumption)
  clear_value x1
  refine guardNext_keeps ?_ (fun _ _ => ?_)
  · assumption
  · exact State.progFault_keeps (by assumption)

theorem State.progLoad_keeps {s0 s1 : State} {a1 a2} (hs1 : Keeps s0 s1) :
    KeepsL s0 (State.progLoad s1 a1 a2) := by
  unfold State.progLoad
  refine keepsL_ite ?_ ?_
  · exact keepsL_mk (by assumption)
  · exact keepsL_mk (State.updProg_keeps (by assumption))

theorem State.progEnWrite_keeps {s0 s1 : State} {a1 a2} (hs1 : Keeps s0 s1) :
    Keeps s0 (State.progEnWrite s1 a1 a2) := by
  unfold State.progEnWrite
  refine State.each_keeps ?_ (fun _ _ _ => ?_)
  · assumption
  · extract_lets -merge -underBinder +onlyGivenNames x1
    clear_value x1
    split
    · exact State.progStart_keeps (by assumption)
    · exact State.progStop_keeps (by assumption)
    · assumption

theorem State.progTick_keeps {s0 s1 : State} {a1} (hs1 : Keeps s0 s1) :
    Keeps s0 (State.progTick s1 a1) := by
  unfold State.progTick
  extract_lets -merge -underBinder +onlyGivenNames x1
  clear_value x1
  refine keeps_ite ?_ ?_
  · assumption
  · split
    · refine keeps_ite ?_ ?_
      · exact State.waitDone_keeps (by assumption)
      · assumption
    · refine keeps_ite ?_ ?_
      · exact State.progFault_keeps (by assumption)
      · split
        · exact State.progExec_keeps (by assumption)
        · exact State.progStop_keeps (by assumption)

end Sys2Proof.Machine
end

