-- ==== Sys2Proof/Laws/KeepsStreams.lean ====
section
/-! SUPPORT. What the operations of Machine/Streams.lean keep (Laws/Keeps.lean). -/
namespace Sys2Proof.Machine
set_option Elab.async false

theorem State.ctxFault_keeps {s0 s1 : State} {a1} (hs1 : Keeps s0 s1) :
    Keeps s0 (State.ctxFault s1 a1) := by
  unfold State.ctxFault
  exact State.ctxSetFlag_keeps (State.ctxSetFlag_keeps (by assumption))

theorem State.swapStart_keeps {s0 s1 : State} {a1 a2} (hs1 : Keeps s0 s1) :
    Keeps s0 (State.swapStart s1 a1 a2) := by
  unfold State.swapStart
  extract_lets -merge -underBinder +onlyGivenNames x1 x2 x3 x4
  clear_value x1 x2 x3
  have hx4 : Keeps s0 x4 := by
    subst x4
    exact State.regSet_keeps (by assumption)
  clear_value x4
  exact State.updStream_keeps (State.ctxSetRes_keeps (by assumption))

theorem State.evictDone_keeps {s0 s1 : State} {a1} (hs1 : Keeps s0 s1) :
    Keeps s0 (State.evictDone s1 a1) := by
  unfold State.evictDone
  extract_lets -merge -underBinder +onlyGivenNames x1
  clear_value x1
  split
  · assumption
  · extract_lets -merge -underBinder +onlyGivenNames x2
    have hx2 : Keeps s0 x2 := by
      subst x2
      refine keeps_ite ?_ ?_
      · split
        · refine KeepsL.of_eq (a := s0) (by assumption) ?_ (fun _ => ?_)
          · exact State.eccRead_keeps (by assumption)
          extract_lets -merge -underBinder +onlyGivenNames x3
          have hx3 : Keeps s0 x3 := by
            subst x3
            refine keeps_ite ?_ ?_
            · exact State.ctxFault_keeps (by assumption)
            · split
              · refine KeepsL.of_eq (a := s0) (by assumption) ?_ (fun _ => ?_)
                · exact State.tierWrite_keeps (by assumption)
                refine keeps_ite ?_ ?_
                · exact State.ctxFault_keeps (by assumption)
                · assumption
          clear_value x3
          exact State.bump_keeps (by assumption)
      · assumption
    clear_value x2
    extract_lets -merge -underBinder +onlyGivenNames x4 x5
    clear_value x4
    have hx5 : Keeps s0 x5 := by
      subst x5
      exact State.updStream_keeps (State.ctxSt_keeps (State.ctxSetRes_keeps (State.ctxSetFlag_keeps (by assumption))))
    clear_value x5
    extract_lets -merge -underBinder +onlyGivenNames x6
    have hx6 : Keeps s0 x6 := by
      subst x6
      split
      · refine keeps_ite ?_ ?_
        · exact State.swapStart_keeps (by assumption)
        · assumption
      · assumption
    clear_value x6
    refine keeps_ite ?_ ?_
    · assumption
    · exact State.swapRequest_keeps (by assumption)

theorem State.evictStart_keeps {s0 s1 : State} {a1} (hs1 : Keeps s0 s1) :
    Keeps s0 (State.evictStart s1 a1) := by
  unfold State.evictStart
  extract_lets -merge -underBinder +onlyGivenNames x1 x2
  clear_value x1
  have hx2 : Keeps s0 x2 := by
    subst x2
    exact State.raise_keeps (State.bump_keeps (State.ctxSetRes_keeps (by assumption)))
  clear_value x2
  refine keeps_ite ?_ ?_
  · assumption
  · exact State.evictDone_keeps (by assumption)

theorem State.swapServe_keeps {s0 s1 : State} {a1 a2} (hs1 : Keeps s0 s1) :
    Keeps s0 (State.swapServe s1 a1 a2) := by
  unfold State.swapServe
  refine State.swapWaits_keeps ?_
  split
  · exact State.swapStart_keeps (by assumption)
  · refine keeps_ite ?_ ?_
    · split
      · assumption
      · extract_lets -merge -underBinder +onlyGivenNames x1
        have hx1 : Keeps s0 x1 := by
          subst x1
          exact State.swapStart_keeps (by assumption)
        clear_value x1
        exact State.evictStart_keeps (State.updStream_keeps (by assumption))
    · split
      · assumption
      · exact State.evictStart_keeps (State.updStream_keeps (by assumption))

theorem execSwapIn_keeps {s0 : State} {a0 a1 a2} {s4 : State} (hs4 : Keeps s0 s4) :
    KeepsN s0 (execSwapIn a0 a1 a2 s4) := by
  unfold execSwapIn
  extract_lets -merge -underBinder +onlyGivenNames x1
  have hx1 : Keeps s0 x1 := by
    subst x1
    exact State.streamSettle_keeps (State.to_keeps (by assumption))
  clear_value x1
  split
  · refine guardNext_keeps ?_ (fun _ _ => ?_)
    · assumption
    · exact State.swapServe_keeps (by assumption)
  · exact keepsN_next (by assumption)

theorem execSwapInDone_keeps {s0 : State} {a0 a1 a2} {s4 : State} (hs4 : Keeps s0 s4) :
    KeepsN s0 (execSwapInDone a0 a1 a2 s4) := by
  unfold execSwapInDone
  extract_lets -merge -underBinder +onlyGivenNames x1
  have hx1 : Keeps s0 x1 := by
    subst x1
    exact State.to_keeps (by assumption)
  clear_value x1
  split
  · exact keepsN_next (by assumption)
  · extract_lets -merge -underBinder +onlyGivenNames x2 x3
    clear_value x2 x3
    split
    · refine KeepsL.of_eq (a := s0) (by assumption) ?_ (fun _ => ?_)
      · refine keepsL_ite ?_ ?_
        · exact keepsL_mk (by assumption)
        · split
          · refine KeepsL.of_eq (a := s0) (by assumption) ?_ (fun _ => ?_)
            · exact State.tierRead_keeps (by assumption)
            exact keepsL_mk (by assumption)
          · refine KeepsL.of_eq (a := s0) (by assumption) ?_ (fun _ => ?_)
            · exact State.tierRead_keeps (by assumption)
            exact keepsL_mk (State.ctxFault_keeps (by assumption))
      extract_lets -merge -underBinder +onlyGivenNames x4
      have hx4 : Keeps s0 x4 := by
        subst x4
        exact State.updStream_keeps (State.stBytes_keeps (by assumption))
      clear_value x4
      refine keepsN_next ?_
      exact State.streamSettle_keeps (State.bump_keeps (State.ctxSt_keeps (State.ctxSetRes_keeps (by assumption))))

theorem execEvictionDone_keeps {s0 : State} {a0 a1 a2} {s4 : State} (hs4 : Keeps s0 s4) :
    KeepsN s0 (execEvictionDone a0 a1 a2 s4) := by
  unfold execEvictionDone
  extract_lets -merge -underBinder +onlyGivenNames x1
  have hx1 : Keeps s0 x1 := by
    subst x1
    exact State.to_keeps (by assumption)
  clear_value x1
  refine guardNext_keeps ?_ (fun _ _ => ?_)
  · assumption
  · exact State.streamSettle_keeps (State.evictDone_keeps (by assumption))

theorem State.ctxOpenSet_keeps {s0 s1 : State} {a1 a2 a3 a4 a5 a6 a7 a8} (hs1 : Keeps s0 s1) :
    Keeps s0 (State.ctxOpenSet s1 a1 a2 a3 a4 a5 a6 a7 a8) := by
  unfold State.ctxOpenSet
  extract_lets -merge -underBinder +onlyGivenNames x1
  have hx1 : Keeps s0 x1 := by
    subst x1
    exact State.ctxSt_keeps (State.zero_keeps (by assumption))
  clear_value x1
  extract_lets -merge -underBinder +onlyGivenNames x2
  have hx2 : Keeps s0 x2 := by
    subst x2
    exact State.ctxSt_keeps (State.ctxSt_keeps (State.ctxSt_keeps (by assumption)))
  clear_value x2
  extract_lets -merge -underBinder +onlyGivenNames x3
  have hx3 : Keeps s0 x3 := by
    subst x3
    exact State.ctxSt_keeps (State.ctxSt_keeps (by assumption))
  clear_value x3
  exact State.updStream_keeps (State.ctxSt_keeps (State.ctxSt_keeps (by assumption)))

theorem State.ctxCloseSet_keeps {s0 s1 : State} {a1} (hs1 : Keeps s0 s1) :
    Keeps s0 (State.ctxCloseSet s1 a1) := by
  unfold State.ctxCloseSet
  extract_lets -merge -underBinder +onlyGivenNames x1
  clear_value x1
  exact State.updStream_keeps (State.ctxSetRes_keeps (State.ctxSetFlag_keeps (by assumption)))

theorem State.ctxPin_keeps {s0 s1 : State} {a1 a2} (hs1 : Keeps s0 s1) :
    Keeps s0 (State.ctxPin s1 a1 a2) := by
  unfold State.ctxPin
  refine keeps_ite ?_ ?_
  · exact State.swapRequest_keeps (by assumption)
  · refine keeps_ite ?_ ?_
    · exact State.raise_keeps (by assumption)
    · exact State.swapRequest_keeps (State.ctxSetFlag_keeps (by assumption))

theorem State.ctxEvict_keeps {s0 s1 : State} {a1 a2} (hs1 : Keeps s0 s1) :
    Keeps s0 (State.ctxEvict s1 a1 a2) := by
  unfold State.ctxEvict
  refine keeps_ite ?_ ?_
  · exact State.streamSettle_keeps (State.evictStart_keeps (by assumption))
  · assumption

theorem State.streamClear_keeps {s0 s1 : State} {a1} (hs1 : Keeps s0 s1) :
    Keeps s0 (State.streamClear s1 a1) := by
  unfold State.streamClear
  refine State.each_keeps ?_ (fun _ _ _ => ?_)
  · assumption
  · exact State.regSet_keeps (by assumption)

theorem State.streamCmd_keeps {s0 s1 : State} {a1 a2} (hs1 : Keeps s0 s1) :
    Keeps s0 (State.streamCmd s1 a1 a2) := by
  unfold State.streamCmd
  extract_lets -merge -underBinder +onlyGivenNames x1 x2
  clear_value x1
  subst x2
  refine keeps_ite ?_ ?_
  · exact State.streamClear_keeps (by assumption)
  · refine keeps_ite ?_ ?_
    · assumption
    · split
      · exact State.ctxSetFlag_keeps (by assumption)
      · exact State.ctxPin_keeps (by assumption)
      · exact State.ctxSetFlag_keeps (by assumption)
      · exact State.ctxEvict_keeps (by assumption)
      · assumption

theorem State.ctxSel_keeps {s0 s1 : State} {a1 a2} (hs1 : Keeps s0 s1) :
    Keeps s0 (State.ctxSel s1 a1 a2) := by
  unfold State.ctxSel
  extract_lets -merge -underBinder +onlyGivenNames x1 x2
  clear_value x1
  have hx2 : Keeps s0 x2 := by
    subst x2
    exact State.regSet_keeps (by assumption)
  clear_value x2
  refine State.each_keeps ?_ (fun _ _ _ => ?_)
  · assumption
  · exact State.regSet_keeps (by assumption)

end Sys2Proof.Machine
end

