-- ==== Sys2Proof/Laws/KeepsTaskCore.lean ====
section
/-! SUPPORT. What the operations of Machine/TaskCore.lean keep (Laws/Keeps.lean). -/
namespace Sys2Proof.Machine
set_option Elab.async false

/-- What an operator's effect keeps, where its descriptor is taken. -/
def KeepsD (a : State) (x : Except TaskOut OpDo) : Prop := ∀ op, x = .ok op → ∀ t, Keeps a t → Keeps a (op.run t)

theorem keepsD_error {a : State} {e : TaskOut} : KeepsD a (.error e) := fun _ h => nomatch h
theorem keepsD_mk {a : State} {l : List (Nat × Nat)} {b : Bool} {f : State → State} (h : ∀ t, Keeps a t → Keeps a (f t)) :
    KeepsD a (pure ⟨l, b, f⟩) := fun op e t ht => by
  cases e
  exact h t ht
theorem keepsD_bind {α : Type} {a : State} {x : Except TaskOut α} {k : α → Except TaskOut OpDo} (h : ∀ y, KeepsD a (k y)) :
    KeepsD a (x >>= k) := by
  cases x with
  | error e => exact keepsD_error
  | ok y => exact h y
theorem keepsD_ite {a : State} {x y : Except TaskOut OpDo} {c : Prop} [Decidable c] (h : KeepsD a x) (k : KeepsD a y) :
    KeepsD a (if c then x else y) := by
  split
  · exact h
  · exact k

theorem onTask_keeps {s0 : State} {a0 a1 a2} {s4 : State} {a4} (hs4 : Keeps s0 s4) (ha4 : ∀ y0 y1, Keeps s0 y0 → Keeps s0 (a4 y0 y1)) :
    KeepsN s0 (onTask a0 a1 a2 s4 a4) := by
  unfold onTask
  extract_lets -merge -underBinder +onlyGivenNames x1
  have hx1 : Keeps s0 x1 := by
    subst x1
    exact State.to_keeps (by assumption)
  clear_value x1
  split
  · refine keepsN_ite ?_ ?_
    · exact keepsN_next (by assumption)
    · refine keepsN_next ?_
      refine ha4 _ _ ?_
      assumption
  · exact keepsN_next (by assumption)

theorem State.finish_keeps {s0 s1 : State} {a1 a2 a3} (hs1 : Keeps s0 s1) :
    Keeps s0 (State.finish s1 a1 a2 a3) := by
  unfold State.finish
  exact State.updRun_keeps (by assumption)

theorem State.goPc_keeps {s0 s1 : State} {a1 a2 a3} (hs1 : Keeps s0 s1) :
    Keeps s0 (State.goPc s1 a1 a2 a3) := by
  unfold State.goPc
  exact State.updRun_keeps (by assumption)

theorem State.moves_keeps {s0 s1 : State} {a1 a2} (hs1 : Keeps s0 s1) :
    Keeps s0 (State.moves s1 a1 a2) := by
  unfold State.moves
  exact State.updRun_keeps (by assumption)

theorem State.worked_keeps {s0 s1 : State} {a1 a2} (hs1 : Keeps s0 s1) :
    Keeps s0 (State.worked s1 a1 a2) := by
  unfold State.worked
  exact State.updRun_keeps (by assumption)

theorem State.count_keeps {s0 s1 : State} {a1 a2 a3} (hs1 : Keeps s0 s1) :
    Keeps s0 (State.count s1 a1 a2 a3) := by
  unfold State.count
  exact State.updRun_keeps (by assumption)

theorem State.csSt_keeps {s0 s1 : State} {a1 a2 a3 a4} (hs1 : Keeps s0 s1) :
    Keeps s0 (State.csSt s1 a1 a2 a3 a4) := by
  unfold State.csSt
  exact State.stBytes_keeps (by assumption)

theorem State.csReads_keeps {s0 s1 : State} {a1 a2 a3} (hs1 : Keeps s0 s1) :
    Keeps s0 (State.csReads s1 a1 a2 a3) := by
  unfold State.csReads
  refine State.each_keeps ?_ (fun _ _ _ => ?_)
  · assumption
  · exact KeepsL.fst (State.eccRead_keeps (by assumption))

theorem State.mixView_keeps {s0 s1 : State} {a1 a2 a3} (hs1 : Keeps s0 s1) :
    KeepsL s0 (State.mixView s1 a1 a2 a3) := by
  unfold State.mixView
  split
  · exact keepsL_mk (by assumption)
  · refine keepsL_foldl (fun _ _ _ => ?_) ?_
    · extract_lets -merge -underBinder +onlyGivenNames x1
      have hx1 : Keeps s0 x1 := by
        subst x1
        refine State.drew_keeps ?_
        exact KeepsL.fst (by assumption)
      clear_value x1
      refine keepsL_ite ?_ ?_
      · exact keepsL_mk (by assumption)
      · exact keepsL_mk (State.csSt_keeps (by assumption))
    · exact keepsL_mk (by assumption)

theorem State.mixBack_keeps {s0 s1 : State} {a1 a2 a3} (hs1 : Keeps s0 s1) :
    Keeps s0 (State.mixBack s1 a1 a2 a3) := by
  unfold State.mixBack
  refine State.each_keeps ?_ (fun _ _ _ => ?_)
  · assumption
  · exact State.csSt_keeps (by assumption)

theorem State.operate_keeps {s0 s1 : State} {a1 a2 a3 a4 a5 a6} (hs1 : Keeps s0 s1)
    (ha6 : ∀ y0 y1, Keeps s0 y0 → KeepsD s0 (a6 y0 y1)) :
    Keeps s0 (State.operate s1 a1 a2 a3 a4 a5 a6) := by
  unfold State.operate
  refine keeps_ite ?_ ?_
  · assumption
  · extract_lets -merge -underBinder +onlyGivenNames x1
    have hx1 : Keeps s0 x1 := by
      subst x1
      exact State.csReads_keeps (State.updRun_keeps (by assumption))
    clear_value x1
    split
    · assumption
    · split
      · exact State.finish_keeps (by assumption)
      · have hd := ha6 x1 _ hx1 _ (by assumption)
        extract_lets -merge -underBinder +onlyGivenNames x2
        have hx2 : Keeps s0 x2 := by
          subst x2
          exact State.csReads_keeps (by assumption)
        clear_value x2
        refine keeps_ite ?_ ?_
        · assumption
        · refine keeps_ite ?_ ?_
          · exact hd _ hx2
          · split
            exact State.worked_keeps (State.mixBack_keeps (hd _ (KeepsL.of_eq (by assumption) (State.mixView_keeps hx2) fun h => h)))

theorem State.putElem_keeps {s0 s1 : State} {a1 a2 a3 a4 a5 a6} (hs1 : Keeps s0 s1) :
    Keeps s0 (State.putElem s1 a1 a2 a3 a4 a5 a6) := by
  unfold State.putElem
  split
  · extract_lets -merge -underBinder +onlyGivenNames x1 x2
    clear_value x1 x2
    exact State.csSt_keeps (by assumption)
  · exact State.csSt_keeps (by assumption)

theorem State.sideAdd_keeps {s0 s1 : State} {a1 a2 a3 a4 a5 a6 a7} (hs1 : Keeps s0 s1) :
    Keeps s0 (State.sideAdd s1 a1 a2 a3 a4 a5 a6 a7) := by
  unfold State.sideAdd
  extract_lets -merge -underBinder +onlyGivenNames x1 x2 x3
  clear_value x1 x2 x3
  exact State.csSt_keeps (by assumption)

theorem State.sideClear_keeps {s0 s1 : State} {a1 a2 a3 a4 a5} (hs1 : Keeps s0 s1) :
    Keeps s0 (State.sideClear s1 a1 a2 a3 a4 a5) := by
  unfold State.sideClear
  refine keeps_ite ?_ ?_
  · refine State.each_keeps ?_ (fun _ _ _ => ?_)
    · assumption
    · exact State.csSt_keeps (by assumption)
  · assumption

theorem State.putOut_keeps {s0 s1 : State} {a1 a2 a3 a4 a5 a6 a7} (hs1 : Keeps s0 s1) :
    Keeps s0 (State.putOut s1 a1 a2 a3 a4 a5 a6 a7) := by
  unfold State.putOut
  extract_lets -merge -underBinder +onlyGivenNames x1 x2 x3
  clear_value x1 x2 x3
  split
  · extract_lets -merge -underBinder +onlyGivenNames x4
    have hx4 : Keeps s0 x4 := by
      subst x4
      exact State.putElem_keeps (State.count_keeps (by assumption))
    clear_value x4
    split
    · exact State.sideAdd_keeps (by assumption)
    · assumption

end Sys2Proof.Machine
end

