-- ==== Sys2Proof/Laws/KeepsKvCore.lean ====
section
/-! SUPPORT. What the operations of Machine/KvCore.lean keep (Laws/Keeps.lean). -/
namespace Sys2Proof.Machine
set_option Elab.async false

theorem State.kvInit_keeps {s0 s1 : State} {a1} (hs1 : Keeps s0 s1) :
    Keeps s0 (State.kvInit s1 a1) := by
  unfold State.kvInit
  refine keeps_ite ?_ ?_
  · assumption
  · extract_lets -merge -underBinder +onlyGivenNames x1 x2
    clear_value x1
    have hx2 : Keeps s0 x2 := by
      subst x2
      refine State.each_keeps ?_ (fun _ _ _ => ?_)
      · assumption
      · split
        · exact State.pageSt_keeps (by assumption)
    clear_value x2
    exact State.updKv_keeps (by assumption)

theorem State.listSet_keeps {s0 s1 : State} {a1 a2 a3 a4 a5} (hs1 : Keeps s0 s1) :
    Keeps s0 (State.listSet s1 a1 a2 a3 a4 a5) := by
  unfold State.listSet
  exact State.linSt_keeps (by assumption)

theorem State.seqReset_keeps {s0 s1 : State} {a1} (hs1 : Keeps s0 s1) :
    Keeps s0 (State.seqReset s1 a1) := by
  unfold State.seqReset
  extract_lets -merge -underBinder +onlyGivenNames x1
  have hx1 : Keeps s0 x1 := by
    subst x1
    refine State.each_keeps ?_ (fun _ _ _ => ?_)
    · assumption
    · split
      · split
        · assumption
        · exact State.listSet_keeps (State.pageUnref_keeps (by assumption))
  clear_value x1
  exact State.seqSt_keeps (State.seqSt_keeps (by assumption))

theorem State.seqClose_keeps {s0 s1 : State} {a1} (hs1 : Keeps s0 s1) :
    Keeps s0 (State.seqClose s1 a1) := by
  unfold State.seqClose
  exact State.seqSt_keeps (State.seqReset_keeps (by assumption))

theorem State.seqOpenSet_keeps {s0 s1 : State} {a1 a2 a3 a4 a5 a6 a7 a8 a9 a10} (hs1 : Keeps s0 s1) :
    Keeps s0 (State.seqOpenSet s1 a1 a2 a3 a4 a5 a6 a7 a8 a9 a10) := by
  unfold State.seqOpenSet
  extract_lets -merge -underBinder +onlyGivenNames x1
  have hx1 : Keeps s0 x1 := by
    subst x1
    exact State.linSt_keeps (by assumption)
  clear_value x1
  extract_lets -merge -underBinder +onlyGivenNames x2
  have hx2 : Keeps s0 x2 := by
    subst x2
    exact State.seqSt_keeps (by assumption)
  clear_value x2
  extract_lets -merge -underBinder +onlyGivenNames x3
  have hx3 : Keeps s0 x3 := by
    subst x3
    exact State.stBytes_keeps (by assumption)
  clear_value x3
  extract_lets -merge -underBinder +onlyGivenNames x4
  have hx4 : Keeps s0 x4 := by
    subst x4
    exact State.updKv_keeps (by assumption)
  clear_value x4
  exact State.zero_keeps (by assumption)

theorem State.seqFork_keeps {s0 s1 : State} {a1 a2 a3} (hs1 : Keeps s0 s1) :
    KeepsL s0 (State.seqFork s1 a1 a2 a3) := by
  unfold State.seqFork
  extract_lets -merge -underBinder +onlyGivenNames x1 x2
  clear_value x1 x2
  refine keepsL_ite ?_ ?_
  · exact keepsL_mk (by assumption)
  · extract_lets -merge -underBinder +onlyGivenNames x3 x4
    clear_value x3 x4
    refine keepsL_ite ?_ ?_
    · exact keepsL_mk (State.raise_keeps (by assumption))
    · extract_lets -merge -underBinder +onlyGivenNames x5
      have hx5 : Keeps s0 x5 := by
        subst x5
        refine State.each_keeps ?_ (fun _ _ _ => ?_)
        · assumption
        · exact State.pageSt_keeps (by assumption)
      clear_value x5
      extract_lets -merge -underBinder +onlyGivenNames x6
      have hx6 : Keeps s0 x6 := by
        subst x6
        exact State.seqReset_keeps (by assumption)
      clear_value x6
      extract_lets -merge -underBinder +onlyGivenNames x7
      have hx7 : Keeps s0 x7 := by
        subst x7
        refine State.each_keeps ?_ (fun _ _ _ => ?_)
        · assumption
        · split
          · exact State.listSet_keeps (by assumption)
      clear_value x7
      exact keepsL_mk (State.seqSt_keeps (by assumption))

theorem State.kvDispatch_keeps {s0 s1 : State} {a1 a2 a3} (hs1 : Keeps s0 s1) :
    Keeps s0 (State.kvDispatch s1 a1 a2 a3) := by
  unfold State.kvDispatch
  refine keeps_ite ?_ ?_
  · assumption
  · extract_lets -merge -underBinder +onlyGivenNames x1 x2 x3
    clear_value x1 x2 x3
    refine State.updRun_keeps ?_
    refine State.each_keeps ?_ (fun _ _ _ => ?_)
    · assumption
    · exact State.pagePin_keeps (by assumption)

end Sys2Proof.Machine
end

