-- ==== Sys2Proof/Laws/KeepsTask.lean ====
section
/-! SUPPORT. What the operations of Machine/Task.lean keep (Laws/Keeps.lean). -/
namespace Sys2Proof.Machine
set_option Elab.async false

theorem State.chunkPop_keeps {s0 s1 : State} {a1 a2} (hs1 : Keeps s0 s1) :
    Keeps s0 (State.chunkPop s1 a1 a2) := by
  unfold State.chunkPop
  refine keeps_ite ?_ ?_
  · assumption
  · exact State.ctxSetQueue_keeps (by assumption)

theorem State.loadResident_keeps {s0 s1 : State} {a1 a2 a3} (hs1 : Keeps s0 s1) :
    KeepsL s0 (State.loadResident s1 a1 a2 a3) := by
  unfold State.loadResident
  extract_lets -merge -underBinder +onlyGivenNames x1
  have hx1 : KeepsL s0 x1 := by
    subst x1
    refine keepsL_foldl (fun _ _ _ => ?_) ?_
    · split
      · refine KeepsL.of_eq (a := s0) (by assumption) ?_ (fun _ => ?_)
        · refine State.eccRead_keeps ?_
          exact KeepsL.fst (by assumption)
        exact keepsL_mk (State.csSt_keeps (by assumption))
    · exact keepsL_mk (by assumption)
  clear_value x1
  refine keepsL_mk ?_
  refine State.updCore_keeps ?_
  exact KeepsL.fst (by assumption)

theorem State.residentFor_keeps {s0 s1 : State} {a1 a2 a3} (hs1 : Keeps s0 s1) :
    KeepsL s0 (State.residentFor s1 a1 a2 a3) := by
  unfold State.residentFor
  extract_lets -merge -underBinder +onlyGivenNames x1
  clear_value x1
  refine keepsL_ite ?_ ?_
  · exact State.loadResident_keeps (by assumption)
  · exact keepsL_mk (by assumption)

theorem State.refresh_keeps {s0 s1 : State} (hs1 : Keeps s0 s1) :
    Keeps s0 (State.refresh s1) := by
  unfold State.refresh
  refine State.each_keeps ?_ (fun _ _ _ => ?_)
  · assumption
  · refine State.each_keeps ?_ (fun _ _ _ => ?_)
    · assumption
    · refine keeps_ite ?_ ?_
      · assumption
      · refine keeps_ite ?_ ?_
        · exact State.updCore_keeps (by assumption)
        · exact KeepsL.fst (State.loadResident_keeps (by assumption))

theorem State.startRun_keeps {s0 s1 : State} {a1 a2 a3 a4 a5 a6 a7} (hs1 : Keeps s0 s1) :
    Keeps s0 (State.startRun s1 a1 a2 a3 a4 a5 a6 a7) := by
  unfold State.startRun
  extract_lets -merge -underBinder +onlyGivenNames x1 x2
  clear_value x1
  have hx2 : Keeps s0 x2 := by
    subst x2
    exact State.repairCore_keeps (by assumption)
  clear_value x2
  split
  · refine KeepsL.of_eq (a := s0) (by assumption) ?_ (fun _ => ?_)
    · exact State.residentFor_keeps (by assumption)
    split
    · refine KeepsL.of_eq (a := s0) (by assumption) ?_ (fun _ => ?_)
      · exact State.eccRead_keeps (by assumption)
      extract_lets -merge -underBinder +onlyGivenNames x3 x4
      clear_value x3
      have hx4 : Keeps s0 x4 := by
        subst x4
        split
        · exact State.updStream_keeps (State.chunkPop_keeps (by assumption))
        · assumption
      clear_value x4
      extract_lets -merge -underBinder +onlyGivenNames x5 x6
      clear_value x5
      have hx6 : Keeps s0 x6 := by
        subst x6
        refine State.updDie_keeps ?_ ?_
        · assumption
        · first | exact fun _ h => h | (intro _ h; split <;> exact h) | (intro _ h; simp_all [Die.Sized, lmod])
      clear_value x6
      extract_lets -merge -underBinder +onlyGivenNames x7
      have hx7 : Keeps s0 x7 := by
        subst x7
        refine keeps_ite ?_ ?_
        · exact State.kvDispatch_keeps (by assumption)
        · assumption
      clear_value x7
      refine keeps_ite ?_ ?_
      · split
        · refine KeepsL.of_eq (a := s0) (by assumption) ?_ (fun _ => ?_)
          · exact State.eccRead_keeps (by assumption)
          refine keeps_ite ?_ ?_
          · exact State.finish_keeps (by assumption)
          · exact State.csSt_keeps (by assumption)
      · assumption

theorem State.dispatch_keeps {s0 s1 : State} {a1 a2 a3 a4 a5} (hs1 : Keeps s0 s1) :
    Keeps s0 (State.dispatch s1 a1 a2 a3 a4 a5) := by
  unfold State.dispatch
  extract_lets -merge -underBinder +onlyGivenNames x1 x2
  clear_value x1
  have hx2 : Keeps s0 x2 := by
    subst x2
    exact State.updTask_keeps (by assumption)
  clear_value x2
  extract_lets -merge -underBinder +onlyGivenNames x3
  have hx3 : Keeps s0 x3 := by
    subst x3
    refine keeps_ite ?_ ?_
    · assumption
    · exact State.updBond_keeps (by assumption)
  clear_value x3
  refine keeps_ite ?_ ?_
  · extract_lets -merge -underBinder +onlyGivenNames x4
    have hx4 : Keeps s0 x4 := by
      subst x4
      split
      · exact State.chunkLost_keeps (State.chunkPop_keeps (by assumption))
      · assumption
    clear_value x4
    exact State.instanceDone_keeps (State.unrun_keeps (State.raise_keeps (State.bump_keeps (by assumption))))
  · extract_lets -merge -underBinder +onlyGivenNames x5
    have hx5 : Keeps s0 x5 := by
      subst x5
      exact State.bump_keeps (by assumption)
    clear_value x5
    extract_lets -merge -underBinder +onlyGivenNames x6
    clear_value x6
    split
    · refine keeps_ite ?_ ?_
      · refine State.instanceDone_keeps ?_
        exact State.unrun_keeps (State.chunkLost_keeps (State.raise_keeps (State.chunkPop_keeps (by assumption))))
      · exact State.startRun_keeps (by assumption)
    · exact State.startRun_keeps (by assumption)

theorem State.updSplit_keeps {s0 s1 : State} {a1 a2 a3 a4} (hs1 : Keeps s0 s1) :
    Keeps s0 (State.updSplit s1 a1 a2 a3 a4) := by
  unfold State.updSplit
  exact State.updRun_keeps (by assumption)

theorem State.startPart_keeps {s0 s1 : State} {a1 a2 a3 a4 a5 a6} (hs1 : Keeps s0 s1) :
    Keeps s0 (State.startPart s1 a1 a2 a3 a4 a5 a6) := by
  unfold State.startPart
  extract_lets -merge -underBinder +onlyGivenNames x1
  have hx1 : Keeps s0 x1 := by
    subst x1
    exact State.repairCore_keeps (by assumption)
  clear_value x1
  split
  · refine KeepsL.of_eq (a := s0) (by assumption) ?_ (fun _ => ?_)
    · exact State.residentFor_keeps (by assumption)
    extract_lets -merge -underBinder +onlyGivenNames x2 x3 x4
    clear_value x2 x3
    have hx4 : Keeps s0 x4 := by
      subst x4
      refine State.updDie_keeps ?_ ?_
      · refine State.each_keeps ?_ (fun _ _ _ => ?_)
        · assumption
        · exact State.pagePin_keeps (by assumption)
      · first | exact fun _ h => h | (intro _ h; split <;> exact h) | (intro _ h; simp_all [Die.Sized, lmod])
    clear_value x4
    exact State.updSplit_keeps (State.bump_keeps (by assumption))

theorem State.partDone_keeps {s0 s1 : State} {a1 a2 a3 a4 a5 a6} (hs1 : Keeps s0 s1) :
    Keeps s0 (State.partDone s1 a1 a2 a3 a4 a5 a6) := by
  unfold State.partDone
  split
  · assumption
  · refine keeps_ite ?_ ?_
    · assumption
    · refine keeps_ite ?_ ?_
      · exact State.finish_keeps (by assumption)
      · exact State.updSplit_keeps (State.moves_keeps (State.count_keeps (by assumption)))

theorem execTaskDispatch_keeps {s0 : State} {a0 a1 a2 a3 a4} {s6 : State} (hs6 : Keeps s0 s6) :
    KeepsN s0 (execTaskDispatch a0 a1 a2 a3 a4 s6) := by
  unfold execTaskDispatch
  extract_lets -merge -underBinder +onlyGivenNames x1
  have hx1 : Keeps s0 x1 := by
    subst x1
    exact State.readyAll_keeps (State.to_keeps (by assumption))
  clear_value x1
  refine keepsN_ite ?_ ?_
  · exact keepsN_next (by assumption)
  · split
    · refine guardNext_keeps ?_ (fun _ _ => ?_)
      · assumption
      · exact State.dispatch_keeps (by assumption)
    · split
      · exact keepsN_next (State.startPart_keeps (by assumption))
      · refine guardNext_keeps ?_ (fun _ _ => ?_)
        · assumption
        · exact State.raise_keeps (by assumption)
      · exact keepsN_next (by assumption)

theorem State.chunkEnd_keeps {s0 s1 : State} {a1 a2 a3} (hs1 : Keeps s0 s1) :
    Keeps s0 (State.chunkEnd s1 a1 a2 a3) := by
  unfold State.chunkEnd
  split
  · assumption
  · extract_lets -merge -underBinder +onlyGivenNames x1
    clear_value x1
    refine keeps_ite ?_ ?_
    · assumption
    · refine keeps_ite ?_ ?_
      · extract_lets -merge -underBinder +onlyGivenNames x2 x3 x4
        clear_value x2 x3
        have hx4 : Keeps s0 x4 := by
          subst x4
          refine keeps_ite ?_ ?_
          · assumption
          · exact State.ctxSetFlag_keeps (State.stBytes_keeps (by assumption))
        clear_value x4
        extract_lets -merge -underBinder +onlyGivenNames x5
        have hx5 : Keeps s0 x5 := by
          subst x5
          exact State.ctxSt_keeps (State.ctxSt_keeps (by assumption))
        clear_value x5
        split
        · assumption
        · extract_lets -merge -underBinder +onlyGivenNames x6
          have hx6 : Keeps s0 x6 := by
            subst x6
            refine keeps_ite ?_ ?_
            · assumption
            · exact State.raise_keeps (State.bump_keeps (State.ctxSt_keeps (by assumption)))
          clear_value x6
          extract_lets -merge -underBinder +onlyGivenNames x7
          have hx7 : Keeps s0 x7 := by
            subst x7
            refine keeps_ite ?_ ?_
            · exact State.ctxSetFlag_keeps (State.ctxSetFlag_keeps (by assumption))
            · assumption
          clear_value x7
          exact State.updStream_keeps (by assumption)
      · exact State.chunkLost_keeps (by assumption)

theorem State.retireIdle_keeps {s0 s1 : State} {a1} (hs1 : Keeps s0 s1) :
    Keeps s0 (State.retireIdle s1 a1) := by
  unfold State.retireIdle
  refine State.each_keeps ?_ (fun _ _ _ => ?_)
  · assumption
  · split
    · refine keeps_ite ?_ ?_
      · assumption
      · exact State.coreFail_keeps (by assumption)
    · assumption

theorem State.chargeRun_keeps {s0 s1 : State} {a1 a2} (hs1 : Keeps s0 s1) :
    Keeps s0 (State.chargeRun s1 a1 a2) := by
  unfold State.chargeRun
  extract_lets -merge -underBinder +onlyGivenNames x1
  clear_value x1
  refine keeps_ite ?_ ?_
  · exact State.updBond_keeps (by assumption)
  · refine keeps_ite ?_ ?_
    · exact State.raise_keeps (State.bump_keeps (by assumption))
    · assumption

theorem State.taskEnds_keeps {s0 s1 : State} {a1 a2 a3 a4} (hs1 : Keeps s0 s1) :
    Keeps s0 (State.taskEnds s1 a1 a2 a3 a4) := by
  unfold State.taskEnds
  extract_lets -merge -underBinder +onlyGivenNames x1 x2
  clear_value x1
  have hx2 : Keeps s0 x2 := by
    subst x2
    exact State.chargeRun_keeps (State.endRun_keeps (by assumption))
  clear_value x2
  extract_lets -merge -underBinder +onlyGivenNames x3
  have hx3 : Keeps s0 x3 := by
    subst x3
    refine keeps_ite ?_ ?_
    · exact State.raise_keeps (by assumption)
    · assumption
  clear_value x3
  extract_lets -merge -underBinder +onlyGivenNames x4
  have hx4 : Keeps s0 x4 := by
    subst x4
    exact State.chunkEnd_keeps (by assumption)
  clear_value x4
  exact State.updCore_keeps (by assumption)

theorem execTaskComplete_keeps {s0 : State} {a0 a1 a2} {s4 : State} (hs4 : Keeps s0 s4) :
    KeepsN s0 (execTaskComplete a0 a1 a2 s4) := by
  unfold execTaskComplete
  extract_lets -merge -underBinder +onlyGivenNames x1
  have hx1 : Keeps s0 x1 := by
    subst x1
    exact State.to_keeps (by assumption)
  clear_value x1
  refine keepsN_ite ?_ ?_
  · exact keepsN_next (by assumption)
  · split
    · exact keepsN_next (by assumption)
    · split
      · exact keepsN_next (by assumption)
      · extract_lets -merge -underBinder +onlyGivenNames x2 x3
        clear_value x2
        have hx3 : Keeps s0 x3 := by
          subst x3
          exact State.taskEnds_keeps (by assumption)
        clear_value x3
        split
        · exact keepsN_next (State.retireIdle_keeps (State.partDone_keeps (by assumption)))
        · exact keepsN_next (State.retireIdle_keeps (State.streamSettle_keeps (State.instanceDone_keeps (by assumption))))

theorem onInstr_keeps {s0 : State} {a0 a1 a2 a3 a4} {s6 : State} {a6} (hs6 : Keeps s0 s6) (ha6 : ∀ y0 y1, Keeps s0 y0 → Keeps s0 (a6 y0 y1)) :
    KeepsN s0 (onInstr a0 a1 a2 a3 a4 s6 a6) := by
  unfold onInstr
  refine onTask_keeps ?_ (fun _ _ _ => ?_)
  · assumption
  · refine keeps_ite ?_ ?_
    · refine ha6 _ _ ?_
      assumption
    · assumption

theorem execTaskEnd_keeps {s0 : State} {a0 a1 a2} {s4 : State} (hs4 : Keeps s0 s4) :
    KeepsN s0 (execTaskEnd a0 a1 a2 s4) := by
  unfold execTaskEnd
  refine onInstr_keeps ?_ (fun _ _ _ => ?_)
  · assumption
  · refine keeps_ite ?_ ?_
    · exact State.finish_keeps (State.goPc_keeps (by assumption))
    · assumption

theorem execOper_keeps {s0 : State} {a0 a1 a2 a3} {s5 : State} (hs5 : Keeps s0 s5) :
    KeepsN s0 (execOper a0 a1 a2 a3 s5) := by
  unfold execOper
  refine onInstr_keeps ?_ (fun _ _ _ => ?_)
  · assumption
  · extract_lets -merge -underBinder +onlyGivenNames x1 x2
    clear_value x1 x2
    refine keeps_ite ?_ ?_
    · exact State.finish_keeps (by assumption)
    · exact State.updRun_keeps (State.goPc_keeps (by assumption))

theorem execChain_keeps {s0 : State} {a0 a1 a2 a3 a4} {s6 : State} (hs6 : Keeps s0 s6) :
    KeepsN s0 (execChain a0 a1 a2 a3 a4 s6) := by
  unfold execChain
  refine onInstr_keeps ?_ (fun _ _ _ => ?_)
  · assumption
  · refine keeps_ite ?_ ?_
    · assumption
    · refine keeps_ite ?_ ?_
      · exact State.finish_keeps (by assumption)
      · exact State.updRun_keeps (State.worked_keeps (State.goPc_keeps (by assumption)))

theorem execWaitc_keeps {s0 : State} {a0 a1 a2 a3} {s5 : State} (hs5 : Keeps s0 s5) :
    KeepsN s0 (execWaitc a0 a1 a2 a3 s5) := by
  unfold execWaitc
  refine onInstr_keeps ?_ (fun _ _ _ => ?_)
  · assumption
  · refine keeps_ite ?_ ?_
    · exact State.updRun_keeps (State.goPc_keeps (by assumption))
    · assumption

theorem execBarrier_keeps {s0 : State} {a0 a1 a2} {s4 : State} (hs4 : Keeps s0 s4) :
    KeepsN s0 (execBarrier a0 a1 a2 s4) := by
  unfold execBarrier
  refine onInstr_keeps ?_ (fun _ _ _ => ?_)
  · assumption
  · refine keeps_ite ?_ ?_
    · exact State.updRun_keeps (State.goPc_keeps (by assumption))
    · assumption

theorem execSetl_keeps {s0 : State} {a0 a1 a2 a3 a4} {s6 : State} (hs6 : Keeps s0 s6) :
    KeepsN s0 (execSetl a0 a1 a2 a3 a4 s6) := by
  unfold execSetl
  refine onInstr_keeps ?_ (fun _ _ _ => ?_)
  · assumption
  · exact State.updRun_keeps (State.goPc_keeps (by assumption))

theorem execTaskDjnz_keeps {s0 : State} {a0 a1 a2 a3 a4} {s6 : State} (hs6 : Keeps s0 s6) :
    KeepsN s0 (execTaskDjnz a0 a1 a2 a3 a4 s6) := by
  unfold execTaskDjnz
  refine onInstr_keeps ?_ (fun _ _ _ => ?_)
  · assumption
  · extract_lets -merge -underBinder +onlyGivenNames x1
    clear_value x1
    exact State.updRun_keeps (State.goPc_keeps (by assumption))

theorem execTaskJump_keeps {s0 : State} {a0 a1 a2 a3} {s5 : State} (hs5 : Keeps s0 s5) :
    KeepsN s0 (execTaskJump a0 a1 a2 a3 s5) := by
  unfold execTaskJump
  refine onInstr_keeps ?_ (fun _ _ _ => ?_)
  · assumption
  · refine keeps_ite ?_ ?_
    · exact State.finish_keeps (by assumption)
    · exact State.goPc_keeps (by assumption)

theorem execProgErr_keeps {s0 : State} {a0 a1 a2} {s4 : State} (hs4 : Keeps s0 s4) :
    KeepsN s0 (execProgErr a0 a1 a2 s4) := by
  unfold execProgErr
  refine onTask_keeps ?_ (fun _ _ _ => ?_)
  · assumption
  · extract_lets -merge -underBinder +onlyGivenNames x1
    clear_value x1
    refine keeps_ite ?_ ?_
    · exact State.finish_keeps (by assumption)
    · assumption

theorem execTaskInstrLimit_keeps {s0 : State} {a0 a1 a2} {s4 : State} (hs4 : Keeps s0 s4) :
    KeepsN s0 (execTaskInstrLimit a0 a1 a2 s4) := by
  unfold execTaskInstrLimit
  refine onTask_keeps ?_ (fun _ _ _ => ?_)
  · assumption
  · refine keeps_ite ?_ ?_
    · exact State.finish_keeps (by assumption)
    · assumption

theorem execDroopEvent_keeps {s0 : State} {a0 a1 a2} {s4 : State} (hs4 : Keeps s0 s4) :
    KeepsN s0 (execDroopEvent a0 a1 a2 s4) := by
  unfold execDroopEvent
  extract_lets -merge -underBinder +onlyGivenNames x1
  have hx1 : Keeps s0 x1 := by
    subst x1
    exact State.to_keeps (by assumption)
  clear_value x1
  refine guardNext_keeps ?_ (fun _ _ => ?_)
  · assumption
  · exact State.bump_keeps (State.bump_keeps (by assumption))

theorem execCoreHung_keeps {s0 : State} {a0 a1 a2} {s4 : State} (hs4 : Keeps s0 s4) :
    KeepsN s0 (execCoreHung a0 a1 a2 s4) := by
  unfold execCoreHung
  refine onTask_keeps ?_ (fun _ _ _ => ?_)
  · assumption
  · refine keeps_ite ?_ ?_
    · exact State.coreFail_keeps (by assumption)
    · assumption

theorem execSpareInDone_keeps {s0 : State} {a0 a1 a2} {s4 : State} (hs4 : Keeps s0 s4) :
    KeepsN s0 (execSpareInDone a0 a1 a2 s4) := by
  unfold execSpareInDone
  extract_lets -merge -underBinder +onlyGivenNames x1
  have hx1 : Keeps s0 x1 := by
    subst x1
    exact State.to_keeps (by assumption)
  clear_value x1
  split
  · exact keepsN_next (by assumption)
  · extract_lets -merge -underBinder +onlyGivenNames x2
    have hx2 : Keeps s0 x2 := by
      subst x2
      exact State.updSlot_keeps (by assumption)
    clear_value x2
    exact keepsN_next (KeepsL.fst (State.loadResident_keeps (by assumption)))

theorem State.retireCore_keeps {s0 s1 : State} {a1 a2} (hs1 : Keeps s0 s1) :
    Keeps s0 (State.retireCore s1 a1 a2) := by
  unfold State.retireCore
  refine keeps_ite ?_ ?_
  · split
    · refine keeps_ite ?_ ?_
      · exact State.updCore_keeps (by assumption)
      · exact State.coreFail_keeps (by assumption)
    · exact State.coreFail_keeps (by assumption)
  · assumption

theorem State.fabricCmd_keeps {s0 s1 : State} {a1 a2} (hs1 : Keeps s0 s1) :
    Keeps s0 (State.fabricCmd s1 a1 a2) := by
  unfold State.fabricCmd
  split
  · exact State.retireCore_keeps (by assumption)
  · extract_lets -merge -underBinder +onlyGivenNames x1
    have hx1 : Keeps s0 x1 := by
      subst x1
      refine State.each_keeps ?_ (fun _ _ _ => ?_)
      · assumption
      · exact State.regSet_keeps (by assumption)
    clear_value x1
    refine State.each_keeps ?_ (fun _ _ _ => ?_)
    · assumption
    · refine State.each_keeps ?_ (fun _ _ _ => ?_)
      · assumption
      · exact State.regSet_keeps (by assumption)
  · assumption

theorem execFreqChanged_keeps {s0 : State} {a0} {s2 : State} (hs2 : Keeps s0 s2) :
    KeepsN s0 (execFreqChanged a0 s2) := by
  unfold execFreqChanged
  extract_lets -merge -underBinder +onlyGivenNames x1
  have hx1 : Keeps s0 x1 := by
    subst x1
    exact State.to_keeps (by assumption)
  clear_value x1
  split
  · exact keepsN_next (by assumption)
  · extract_lets -merge -underBinder +onlyGivenNames x2 x3
    clear_value x2
    have hx3 : Keeps s0 x3 := by
      subst x3
      exact keeps_upd (by assumption) fun r => ⟨r.1, r.2, r.3, r.4, r.5, r.6, r.7, r.8, r.9, r.10⟩
    clear_value x3
    refine keepsN_next ?_
    refine State.each_keeps ?_ (fun _ _ _ => ?_)
    · assumption
    · exact State.raise_keeps (by assumption)

theorem execShardMissing_keeps {s0 : State} {a0 a1 a2} {s4 : State} (hs4 : Keeps s0 s4) :
    KeepsN s0 (execShardMissing a0 a1 a2 s4) := by
  unfold execShardMissing
  extract_lets -merge -underBinder +onlyGivenNames x1
  have hx1 : Keeps s0 x1 := by
    subst x1
    exact State.to_keeps (by assumption)
  clear_value x1
  split
  · refine guardNext_keeps ?_ (fun _ _ => ?_)
    · assumption
    · exact State.readyRun_keeps (State.updTask_keeps (by assumption))
  · exact keepsN_next (by assumption)

end Sys2Proof.Machine
end

