-- ==== Sys2Proof/Laws/KeepsVector.lean ====
section
/-! SUPPORT. What the operations of Machine/Vector.lean keep (Laws/Keeps.lean). -/
namespace Sys2Proof.Machine
set_option Elab.async false

theorem State.vecSet_keeps {s0 s1 : State} {a1 a2 a3 a4} (hs1 : Keeps s0 s1) :
    Keeps s0 (State.vecSet s1 a1 a2 a3 a4) := by
  unfold State.vecSet
  exact State.updCore_keeps (by assumption)

theorem State.vecEsc_keeps {s0 s1 : State} {a1 a2 a3 a4} (hs1 : Keeps s0 s1) :
    Keeps s0 (State.vecEsc s1 a1 a2 a3 a4) := by
  unfold State.vecEsc
  exact State.updCore_keeps (by assumption)

theorem onVec_keeps {s0 : State} {a0 a1 a2 a3 a4} {s6 : State} {a6} (hs6 : Keeps s0 s6) (ha6 : ∀ y0 y1, Keeps s0 y0 → Keeps s0 (a6 y0 y1)) :
    KeepsN s0 (onVec a0 a1 a2 a3 a4 s6 a6) := by
  unfold onVec
  refine onInstr_keeps ?_ (fun _ _ _ => ?_)
  · assumption
  · refine keeps_ite ?_ ?_
    · refine State.worked_keeps ?_
      refine ha6 _ _ ?_
      exact State.goPc_keeps (by assumption)
    · assumption

theorem vec2_keeps {s0 : State} {a0 a1 a2 a3 a4 a5 a6} {s8 : State} {a8} (hs8 : Keeps s0 s8) :
    KeepsN s0 (vec2 a0 a1 a2 a3 a4 a5 a6 s8 a8) := by
  unfold vec2
  refine onVec_keeps ?_ (fun _ _ _ => ?_)
  · assumption
  · exact State.vecSet_keeps (by assumption)

theorem vec1_keeps {s0 : State} {a0 a1 a2 a3 a4 a5} {s7 : State} {a7} (hs7 : Keeps s0 s7) :
    KeepsN s0 (vec1 a0 a1 a2 a3 a4 a5 s7 a7) := by
  unfold vec1
  refine onVec_keeps ?_ (fun _ _ _ => ?_)
  · assumption
  · exact State.vecSet_keeps (by assumption)

theorem execVecFadd_keeps {s0 : State} {a0 a1 a2 a3 a4 a5} {s7 : State} (hs7 : Keeps s0 s7) :
    KeepsN s0 (execVecFadd a0 a1 a2 a3 a4 a5 s7) := by
  unfold execVecFadd
  exact vec2_keeps (by assumption)

theorem execVecFmul_keeps {s0 : State} {a0 a1 a2 a3 a4 a5} {s7 : State} (hs7 : Keeps s0 s7) :
    KeepsN s0 (execVecFmul a0 a1 a2 a3 a4 a5 s7) := by
  unfold execVecFmul
  exact vec2_keeps (by assumption)

theorem execVecFfma_keeps {s0 : State} {a0 a1 a2 a3 a4 a5 a6} {s8 : State} (hs8 : Keeps s0 s8) :
    KeepsN s0 (execVecFfma a0 a1 a2 a3 a4 a5 a6 s8) := by
  unfold execVecFfma
  refine onVec_keeps ?_ (fun _ _ _ => ?_)
  · assumption
  · exact State.vecSet_keeps (by assumption)

theorem execVecFmax_keeps {s0 : State} {a0 a1 a2 a3 a4 a5} {s7 : State} (hs7 : Keeps s0 s7) :
    KeepsN s0 (execVecFmax a0 a1 a2 a3 a4 a5 s7) := by
  unfold execVecFmax
  exact vec2_keeps (by assumption)

theorem execVecFmin_keeps {s0 : State} {a0 a1 a2 a3 a4 a5} {s7 : State} (hs7 : Keeps s0 s7) :
    KeepsN s0 (execVecFmin a0 a1 a2 a3 a4 a5 s7) := by
  unfold execVecFmin
  exact vec2_keeps (by assumption)

theorem execFcmp_keeps {s0 : State} {a0 a1 a2 a3 a4 a5} {s7 : State} (hs7 : Keeps s0 s7) :
    KeepsN s0 (execFcmp a0 a1 a2 a3 a4 a5 s7) := by
  unfold execFcmp
  exact vec2_keeps (by assumption)

theorem execIadd_keeps {s0 : State} {a0 a1 a2 a3 a4 a5} {s7 : State} (hs7 : Keeps s0 s7) :
    KeepsN s0 (execIadd a0 a1 a2 a3 a4 a5 s7) := by
  unfold execIadd
  exact vec2_keeps (by assumption)

theorem execImul_keeps {s0 : State} {a0 a1 a2 a3 a4 a5} {s7 : State} (hs7 : Keeps s0 s7) :
    KeepsN s0 (execImul a0 a1 a2 a3 a4 a5 s7) := by
  unfold execImul
  exact vec2_keeps (by assumption)

theorem execIshl_keeps {s0 : State} {a0 a1 a2 a3 a4 a5} {s7 : State} (hs7 : Keeps s0 s7) :
    KeepsN s0 (execIshl a0 a1 a2 a3 a4 a5 s7) := by
  unfold execIshl
  exact vec2_keeps (by assumption)

theorem execIshr_keeps {s0 : State} {a0 a1 a2 a3 a4 a5} {s7 : State} (hs7 : Keeps s0 s7) :
    KeepsN s0 (execIshr a0 a1 a2 a3 a4 a5 s7) := by
  unfold execIshr
  exact vec2_keeps (by assumption)

theorem execIand_keeps {s0 : State} {a0 a1 a2 a3 a4 a5} {s7 : State} (hs7 : Keeps s0 s7) :
    KeepsN s0 (execIand a0 a1 a2 a3 a4 a5 s7) := by
  unfold execIand
  exact vec2_keeps (by assumption)

theorem execIor_keeps {s0 : State} {a0 a1 a2 a3 a4 a5} {s7 : State} (hs7 : Keeps s0 s7) :
    KeepsN s0 (execIor a0 a1 a2 a3 a4 a5 s7) := by
  unfold execIor
  exact vec2_keeps (by assumption)

theorem execIxor_keeps {s0 : State} {a0 a1 a2 a3 a4 a5} {s7 : State} (hs7 : Keeps s0 s7) :
    KeepsN s0 (execIxor a0 a1 a2 a3 a4 a5 s7) := by
  unfold execIxor
  exact vec2_keeps (by assumption)

theorem execIcmp_keeps {s0 : State} {a0 a1 a2 a3 a4 a5} {s7 : State} (hs7 : Keeps s0 s7) :
    KeepsN s0 (execIcmp a0 a1 a2 a3 a4 a5 s7) := by
  unfold execIcmp
  exact vec2_keeps (by assumption)

theorem execIclamp_keeps {s0 : State} {a0 a1 a2 a3 a4 a5 a6} {s8 : State} (hs8 : Keeps s0 s8) :
    KeepsN s0 (execIclamp a0 a1 a2 a3 a4 a5 a6 s8) := by
  unfold execIclamp
  refine onVec_keeps ?_ (fun _ _ _ => ?_)
  · assumption
  · exact State.vecSet_keeps (by assumption)

theorem execRescale_keeps {s0 : State} {a0 a1 a2 a3 a4 a5 a6} {s8 : State} (hs8 : Keeps s0 s8) :
    KeepsN s0 (execRescale a0 a1 a2 a3 a4 a5 a6 s8) := by
  unfold execRescale
  refine onVec_keeps ?_ (fun _ _ _ => ?_)
  · assumption
  · split
    · extract_lets -merge -underBinder +onlyGivenNames x1 x2
      clear_value x1
      have hx2 : Keeps s0 x2 := by
        subst x2
        exact State.count_keeps (by assumption)
      clear_value x2
      exact State.vecEsc_keeps (State.vecSet_keeps (by assumption))
    · exact State.finish_keeps (by assumption)
    · exact State.finish_keeps (by assumption)

theorem execCvt_keeps {s0 : State} {a0 a1 a2 a3 a4 a5} {s7 : State} (hs7 : Keeps s0 s7) :
    KeepsN s0 (execCvt a0 a1 a2 a3 a4 a5 s7) := by
  unfold execCvt
  refine onVec_keeps ?_ (fun _ _ _ => ?_)
  · assumption
  · split
    · extract_lets -merge -underBinder +onlyGivenNames x1
      clear_value x1
      exact State.vecEsc_keeps (State.vecSet_keeps (State.count_keeps (by assumption)))
    · exact State.finish_keeps (by assumption)

theorem execExp_keeps {s0 : State} {a0 a1 a2 a3 a4} {s6 : State} (hs6 : Keeps s0 s6) :
    KeepsN s0 (execExp a0 a1 a2 a3 a4 s6) := by
  unfold execExp
  exact vec1_keeps (by assumption)

theorem execVecRecip_keeps {s0 : State} {a0 a1 a2 a3 a4} {s6 : State} (hs6 : Keeps s0 s6) :
    KeepsN s0 (execVecRecip a0 a1 a2 a3 a4 s6) := by
  unfold execVecRecip
  exact vec1_keeps (by assumption)

theorem execVecRsqrt_keeps {s0 : State} {a0 a1 a2 a3 a4} {s6 : State} (hs6 : Keeps s0 s6) :
    KeepsN s0 (execVecRsqrt a0 a1 a2 a3 a4 s6) := by
  unfold execVecRsqrt
  exact vec1_keeps (by assumption)

theorem execSigm_keeps {s0 : State} {a0 a1 a2 a3 a4} {s6 : State} (hs6 : Keeps s0 s6) :
    KeepsN s0 (execSigm a0 a1 a2 a3 a4 s6) := by
  unfold execSigm
  exact vec1_keeps (by assumption)

theorem execVecTanh_keeps {s0 : State} {a0 a1 a2 a3 a4} {s6 : State} (hs6 : Keeps s0 s6) :
    KeepsN s0 (execVecTanh a0 a1 a2 a3 a4 s6) := by
  unfold execVecTanh
  exact vec1_keeps (by assumption)

theorem execVld_keeps {s0 : State} {a0 a1 a2 a3 a4 a5} {s7 : State} (hs7 : Keeps s0 s7) :
    KeepsN s0 (execVld a0 a1 a2 a3 a4 a5 s7) := by
  unfold execVld
  refine onVec_keeps ?_ (fun _ _ _ => ?_)
  · assumption
  · split
    · exact State.finish_keeps (by assumption)
    · refine keeps_ite ?_ ?_
      · exact State.finish_keeps (by assumption)
      · extract_lets -merge -underBinder +onlyGivenNames x1
        have hx1 : Keeps s0 x1 := by
          subst x1
          exact State.csReads_keeps (by assumption)
        clear_value x1
        refine keeps_ite ?_ ?_
        · assumption
        · split
          · refine KeepsL.of_eq (a := s0) (by assumption) ?_ (fun _ => ?_)
            · exact State.mixView_keeps (by assumption)
            exact State.vecSet_keeps (State.mixBack_keeps (by assumption))

theorem execVst_keeps {s0 : State} {a0 a1 a2 a3 a4 a5} {s7 : State} (hs7 : Keeps s0 s7) :
    KeepsN s0 (execVst a0 a1 a2 a3 a4 a5 s7) := by
  unfold execVst
  refine onVec_keeps ?_ (fun _ _ _ => ?_)
  · assumption
  · split
    · exact State.finish_keeps (by assumption)
    · refine keeps_ite ?_ ?_
      · exact State.finish_keeps (by assumption)
      · extract_lets -merge -underBinder +onlyGivenNames x1 x2
        clear_value x1
        have hx2 : Keeps s0 x2 := by
          subst x2
          exact State.count_keeps (by assumption)
        clear_value x2
        refine State.each_keeps ?_ (fun _ _ _ => ?_)
        · assumption
        · extract_lets -merge -underBinder +onlyGivenNames x3
          clear_value x3
          split
          · exact State.putElem_keeps (by assumption)
          · extract_lets -merge -underBinder +onlyGivenNames x4 x5
            clear_value x4 x5
            refine keeps_ite ?_ ?_
            · exact State.sideAdd_keeps (State.putElem_keeps (by assumption))
            · exact State.putElem_keeps (State.count_keeps (by assumption))

theorem execVbcast_keeps {s0 : State} {a0 a1 a2 a3 a4} {s6 : State} (hs6 : Keeps s0 s6) :
    KeepsN s0 (execVbcast a0 a1 a2 a3 a4 s6) := by
  unfold execVbcast
  refine onVec_keeps ?_ (fun _ _ _ => ?_)
  · assumption
  · exact State.vecSet_keeps (by assumption)

theorem execVrmax_keeps {s0 : State} {a0 a1 a2 a3 a4} {s6 : State} (hs6 : Keeps s0 s6) :
    KeepsN s0 (execVrmax a0 a1 a2 a3 a4 s6) := by
  unfold execVrmax
  refine onVec_keeps ?_ (fun _ _ _ => ?_)
  · assumption
  · exact State.vecSet_keeps (by assumption)

theorem execVrsum_keeps {s0 : State} {a0 a1 a2 a3 a4} {s6 : State} (hs6 : Keeps s0 s6) :
    KeepsN s0 (execVrsum a0 a1 a2 a3 a4 s6) := by
  unfold execVrsum
  refine onVec_keeps ?_ (fun _ _ _ => ?_)
  · assumption
  · exact State.vecSet_keeps (by assumption)

theorem execIlane_keeps {s0 : State} {a0 a1 a2 a3} {s5 : State} (hs5 : Keeps s0 s5) :
    KeepsN s0 (execIlane a0 a1 a2 a3 s5) := by
  unfold execIlane
  refine onVec_keeps ?_ (fun _ _ _ => ?_)
  · assumption
  · exact State.vecSet_keeps (by assumption)

end Sys2Proof.Machine
end

