-- ==== Sys2Proof/Laws/KeepsImageOps.lean ====
section
/-! SUPPORT. What the operations of Machine/ImageOps.lean keep (Laws/Keeps.lean). -/
namespace Sys2Proof.Machine
set_option Elab.async false

theorem State.putElemOut_keeps {s0 s1 : State} {a1 a2 a3 a4 a5 a6 a7} (hs1 : Keeps s0 s1) :
    Keeps s0 (State.putElemOut s1 a1 a2 a3 a4 a5 a6 a7) := by
  unfold State.putElemOut
  refine State.putOut_keeps ?_
  refine keeps_ite ?_ ?_
  · exact State.count_keeps (by assumption)
  · assumption

theorem State.padPix_keeps {s0 s1 : State} {a1 a2 a3 a4 a5} (hs1 : Keeps s0 s1) :
    Keeps s0 (State.padPix s1 a1 a2 a3 a4 a5) := by
  unfold State.padPix
  refine State.each_keeps ?_ (fun _ _ _ => ?_)
  · assumption
  · exact State.putElem_keeps (by assumption)

theorem State.convFill_keeps {s0 s1 : State} {a1 a2 a3 a4} (hs1 : Keeps s0 s1) :
    Keeps s0 (State.convFill s1 a1 a2 a3 a4) := by
  unfold State.convFill
  split
  · assumption
  · extract_lets -merge -underBinder +onlyGivenNames x1
    clear_value x1
    split
    · assumption
    · split
      · split
        · exact State.finish_keeps (by assumption)
        · split
          · exact State.convFill_keeps (State.updCore_keeps (by assumption))
          · exact State.convFill_keeps (State.moves_keeps (State.updCore_keeps (by assumption)))
      · assumption

theorem State.convRun_keeps {s0 s1 : State} {a1 a2 a3 a4} (hs1 : Keeps s0 s1) :
    Keeps s0 (State.convRun s1 a1 a2 a3 a4) := by
  unfold State.convRun
  extract_lets -merge -underBinder +onlyGivenNames x1 x2 x3 x4 x5 x6 x7 x8
  clear_value x1 x2 x3 x4 x5 x6 x7
  have hx8 : Keeps s0 x8 := by
    subst x8
    exact State.count_keeps (by assumption)
  clear_value x8
  extract_lets -merge -underBinder +onlyGivenNames x9
  have hx9 : Keeps s0 x9 := by
    subst x9
    exact State.sideClear_keeps (by assumption)
  clear_value x9
  extract_lets -merge -underBinder +onlyGivenNames x10 x11
  clear_value x10
  have hx11 : Keeps s0 x11 := by
    subst x11
    exact State.bump_keeps (State.updCore_keeps (by assumption))
  clear_value x11
  exact State.convFill_keeps (by assumption)

theorem State.convOp_keeps {s0 s1 : State} {a1 a2 a3 a4} (hs1 : Keeps s0 s1) :
    KeepsD s0 (State.convOp s1 a1 a2 a3 a4) := by
  unfold State.convOp
  refine keepsD_bind (fun _ => ?_)
  extract_lets -merge -underBinder +onlyGivenNames x1
  clear_value x1
  refine keepsD_mk (fun _ _ => ?_)
  refine keeps_ite ?_ ?_
  · assumption
  · exact State.convRun_keeps (by assumption)

theorem execConv_keeps {s0 : State} {a0 a1 a2 a3} {s5 : State} (hs5 : Keeps s0 s5) :
    KeepsN s0 (execConv a0 a1 a2 a3 s5) := by
  unfold execConv
  refine onTask_keeps ?_ (fun _ _ _ => ?_)
  · assumption
  · refine State.operate_keeps ?_ (fun _ _ _ => ?_)
    · assumption
    · exact State.convOp_keeps (by assumption)

theorem State.drainBlock_keeps {s0 s1 : State} {a1 a2 a3 a4} (hs1 : Keeps s0 s1) :
    Keeps s0 (State.drainBlock s1 a1 a2 a3 a4) := by
  unfold State.drainBlock
  split
  · exact State.finish_keeps (by assumption)
  · extract_lets -merge -underBinder +onlyGivenNames x1 x2 x3 x4
    clear_value x1 x2 x3
    have hx4 : Keeps s0 x4 := by
      subst x4
      exact State.csReads_keeps (by assumption)
    clear_value x4
    extract_lets -merge -underBinder +onlyGivenNames x5
    have hx5 : Keeps s0 x5 := by
      subst x5
      refine State.each_keeps ?_ (fun _ _ _ => ?_)
      · assumption
      · split
        · split
          · extract_lets -merge -underBinder +onlyGivenNames x6 x7 x8 x9
            clear_value x6 x7 x8
            have hx9 : Keeps s0 x9 := by
              subst x9
              exact State.putElemOut_keeps (by assumption)
            clear_value x9
            refine keeps_ite ?_ ?_
            · exact State.padPix_keeps (by assumption)
            · assumption
    clear_value x5
    refine State.each_keeps ?_ (fun _ _ _ => ?_)
    · assumption
    · split
      · split
        · split
          · refine KeepsL.of_eq (a := s0) (by assumption) ?_ (fun _ => ?_)
            · refine keepsL_ite ?_ ?_
              · exact keepsL_mk (State.drew_keeps (by assumption))
              · exact keepsL_mk (by assumption)
            extract_lets -merge -underBinder +onlyGivenNames x10
            have hx10 : Keeps s0 x10 := by
              subst x10
              exact State.putElemOut_keeps (by assumption)
            clear_value x10
            refine keeps_ite ?_ ?_
            · exact State.padPix_keeps (by assumption)
            · assumption

theorem execBlockDrain_keeps {s0 : State} {a0 a1 a2} {s4 : State} (hs4 : Keeps s0 s4) :
    KeepsN s0 (execBlockDrain a0 a1 a2 s4) := by
  unfold execBlockDrain
  refine onTask_keeps ?_ (fun _ _ _ => ?_)
  · assumption
  · split
    · assumption
    · extract_lets -merge -underBinder +onlyGivenNames x1
      have hx1 : Keeps s0 x1 := by
        subst x1
        exact State.moves_keeps (State.drainBlock_keeps (State.updCore_keeps (by assumption)))
      clear_value x1
      exact State.convFill_keeps (by assumption)

theorem State.dwRun_keeps {s0 s1 : State} {a1 a2 a3 a4} (hs1 : Keeps s0 s1) :
    Keeps s0 (State.dwRun s1 a1 a2 a3 a4) := by
  unfold State.dwRun
  extract_lets -merge -underBinder +onlyGivenNames x1 x2 x3 x4 x5 x6
  clear_value x1 x2 x3 x4 x5
  have hx6 : Keeps s0 x6 := by
    subst x6
    exact State.sideClear_keeps (State.count_keeps (by assumption))
  clear_value x6
  refine State.each_keeps ?_ (fun _ _ _ => ?_)
  · assumption
  · split
    · refine State.padPix_keeps ?_
      refine State.each_keeps ?_ (fun _ _ _ => ?_)
      · assumption
      · split
        · exact State.putElemOut_keeps (by assumption)

theorem State.dwOp_keeps {s0 s1 : State} {a1 a2 a3 a4} (hs1 : Keeps s0 s1) :
    KeepsD s0 (State.dwOp s1 a1 a2 a3 a4) := by
  unfold State.dwOp
  refine keepsD_bind (fun _ => ?_)
  refine keepsD_mk (fun _ _ => ?_)
  refine keeps_ite ?_ ?_
  · assumption
  · exact State.dwRun_keeps (by assumption)

theorem execDwconv_keeps {s0 : State} {a0 a1 a2 a3} {s5 : State} (hs5 : Keeps s0 s5) :
    KeepsN s0 (execDwconv a0 a1 a2 a3 s5) := by
  unfold execDwconv
  refine onTask_keeps ?_ (fun _ _ _ => ?_)
  · assumption
  · refine State.operate_keeps ?_ (fun _ _ _ => ?_)
    · assumption
    · exact State.dwOp_keeps (by assumption)

theorem State.poolRun_keeps {s0 s1 : State} {a1 a2 a3 a4} (hs1 : Keeps s0 s1) :
    Keeps s0 (State.poolRun s1 a1 a2 a3 a4) := by
  unfold State.poolRun
  extract_lets -merge -underBinder +onlyGivenNames x1 x2 x3 x4 x5
  clear_value x1 x2 x3 x4
  have hx5 : Keeps s0 x5 := by
    subst x5
    exact State.sideClear_keeps (State.count_keeps (by assumption))
  clear_value x5
  refine State.each_keeps ?_ (fun _ _ _ => ?_)
  · assumption
  · split
    · refine State.padPix_keeps ?_
      refine State.each_keeps ?_ (fun _ _ _ => ?_)
      · assumption
      · split
        · exact State.putElemOut_keeps (by assumption)

theorem State.poolOp_keeps {s0 s1 : State} {a1 a2 a3 a4} (hs1 : Keeps s0 s1) :
    KeepsD s0 (State.poolOp s1 a1 a2 a3 a4) := by
  unfold State.poolOp
  refine keepsD_bind (fun _ => ?_)
  refine keepsD_mk (fun _ _ => ?_)
  refine keeps_ite ?_ ?_
  · assumption
  · exact State.poolRun_keeps (by assumption)

theorem execPool_keeps {s0 : State} {a0 a1 a2 a3} {s5 : State} (hs5 : Keeps s0 s5) :
    KeepsN s0 (execPool a0 a1 a2 a3 s5) := by
  unfold execPool
  refine onTask_keeps ?_ (fun _ _ _ => ?_)
  · assumption
  · refine State.operate_keeps ?_ (fun _ _ _ => ?_)
    · assumption
    · exact State.poolOp_keeps (by assumption)

theorem State.boxOp_keeps {s0 s1 : State} {a1 a2 a3 a4} (hs1 : Keeps s0 s1) :
    KeepsD s0 (State.boxOp s1 a1 a2 a3 a4) := by
  unfold State.boxOp
  extract_lets -merge -underBinder +onlyGivenNames x1 x2 x3
  clear_value x1 x2 x3
  refine keepsD_bind (fun _ => ?_)
  refine keepsD_bind (fun _ => ?_)
  refine keepsD_bind (fun _ => ?_)
  extract_lets -merge -underBinder +onlyGivenNames x4
  clear_value x4
  refine keepsD_bind (fun _ => ?_)
  refine keepsD_bind (fun _ => ?_)
  extract_lets -merge -underBinder +onlyGivenNames x5 x6 x7 x8 x9 x10
  clear_value x5 x6 x7 x8 x9 x10
  refine keepsD_mk (fun _ _ => ?_)
  refine keeps_ite ?_ ?_
  · exact State.csSt_keeps (by assumption)
  · extract_lets -merge -underBinder +onlyGivenNames x11 x12 x13
    clear_value x11 x12
    have hx13 : Keeps s0 x13 := by
      subst x13
      exact State.count_keeps (by assumption)
    clear_value x13
    extract_lets -merge -underBinder +onlyGivenNames x14 x15 x16
    clear_value x14 x15 x16
    exact State.csSt_keeps (by assumption)

theorem execBoxDecode_keeps {s0 : State} {a0 a1 a2 a3} {s5 : State} (hs5 : Keeps s0 s5) :
    KeepsN s0 (execBoxDecode a0 a1 a2 a3 s5) := by
  unfold execBoxDecode
  refine onTask_keeps ?_ (fun _ _ _ => ?_)
  · assumption
  · refine State.operate_keeps ?_ (fun _ _ _ => ?_)
    · assumption
    · exact State.boxOp_keeps (by assumption)

theorem State.suppressOp_keeps {s0 s1 : State} {a1 a2 a3 a4} (hs1 : Keeps s0 s1) :
    KeepsD s0 (State.suppressOp s1 a1 a2 a3 a4) := by
  unfold State.suppressOp
  extract_lets -merge -underBinder +onlyGivenNames x1 x2 x3 x4
  clear_value x1 x2 x3 x4
  refine keepsD_bind (fun _ => ?_)
  refine keepsD_bind (fun _ => ?_)
  extract_lets -merge -underBinder +onlyGivenNames x5 x6
  clear_value x5 x6
  refine keepsD_mk (fun _ _ => ?_)
  refine keeps_ite ?_ ?_
  · exact State.csSt_keeps (by assumption)
  · extract_lets -merge -underBinder +onlyGivenNames x7 x8 x9 x10
    clear_value x7 x8 x9 x10
    exact State.csSt_keeps (by assumption)

theorem execSuppress_keeps {s0 : State} {a0 a1 a2 a3} {s5 : State} (hs5 : Keeps s0 s5) :
    KeepsN s0 (execSuppress a0 a1 a2 a3 s5) := by
  unfold execSuppress
  refine onTask_keeps ?_ (fun _ _ _ => ?_)
  · assumption
  · refine State.operate_keeps ?_ (fun _ _ _ => ?_)
    · assumption
    · exact State.suppressOp_keeps (by assumption)

theorem State.ringExpired_keeps {s0 s1 : State} {a1 a2} (hs1 : Keeps s0 s1) :
    Keeps s0 (State.ringExpired s1 a1 a2) := by
  unfold State.ringExpired
  extract_lets -merge -underBinder +onlyGivenNames x1
  have hx1 : Keeps s0 x1 := by
    subst x1
    exact State.raise_keeps (by assumption)
  clear_value x1
  split
  · exact State.coverTile_keeps (by assumption)
  · assumption

theorem State.cropOp_keeps {s0 s1 : State} {a1 a2 a3 a4} (hs1 : Keeps s0 s1) :
    KeepsD s0 (State.cropOp s1 a1 a2 a3 a4) := by
  unfold State.cropOp
  extract_lets -merge -underBinder +onlyGivenNames x1 x2 x3 x4
  clear_value x1 x2 x3 x4
  refine keepsD_bind (fun _ => ?_)
  refine keepsD_bind (fun _ => ?_)
  refine keepsD_bind (fun _ => ?_)
  extract_lets -merge -underBinder +onlyGivenNames x5
  clear_value x5
  refine keepsD_mk (fun _ _ => ?_)
  refine keeps_ite ?_ ?_
  · assumption
  · refine State.each_keeps ?_ (fun _ _ _ => ?_)
    · assumption
    · extract_lets -merge -underBinder +onlyGivenNames x6 x7 x8 x9 x10
      clear_value x6 x7 x8 x9 x10
      split
      · refine KeepsL.of_eq (a := s0) (by assumption) ?_ (fun _ => ?_)
        · refine keepsL_foldl (fun _ _ _ => ?_) ?_
          · split
            · refine KeepsL.of_eq (a := s0) (by assumption) ?_ (fun _ => ?_)
              · refine State.eccRead_keeps ?_
                exact KeepsL.fst (by assumption)
              exact keepsL_mk (by assumption)
          · exact keepsL_mk (by assumption)
        refine keeps_ite ?_ ?_
        · exact State.finish_keeps (by assumption)
        · extract_lets -merge -underBinder +onlyGivenNames x11 x12 x13 x14
          clear_value x11 x12 x13
          have hx14 : Keeps s0 x14 := by
            subst x14
            exact State.csSt_keeps (by assumption)
          clear_value x14
          extract_lets -merge -underBinder +onlyGivenNames x15
          have hx15 : Keeps s0 x15 := by
            subst x15
            refine keeps_ite ?_ ?_
            · exact State.ringExpired_keeps (by assumption)
            · assumption
          clear_value x15
          refine State.each_keeps ?_ (fun _ _ _ => ?_)
          · assumption
          · split
            · exact State.csSt_keeps (by assumption)

theorem execCropResize_keeps {s0 : State} {a0 a1 a2 a3} {s5 : State} (hs5 : Keeps s0 s5) :
    KeepsN s0 (execCropResize a0 a1 a2 a3 s5) := by
  unfold execCropResize
  refine onTask_keeps ?_ (fun _ _ _ => ?_)
  · assumption
  · refine State.operate_keeps ?_ (fun _ _ _ => ?_)
    · assumption
    · exact State.cropOp_keeps (by assumption)

end Sys2Proof.Machine
end

