-- ==== Sys2Proof/Laws/KeepsTileMover.lean ====
section
/-! SUPPORT. What the operations of Machine/TileMover.lean keep (Laws/Keeps.lean). -/
namespace Sys2Proof.Machine
set_option Elab.async false

theorem State.moved_keeps {s0 s1 : State} {a1 a2 a3 a4 a5} (hs1 : Keeps s0 s1) :
    Keeps s0 (State.moved s1 a1 a2 a3 a4 a5) := by
  unfold State.moved
  extract_lets -merge -underBinder +onlyGivenNames x1
  clear_value x1
  split
  · assumption
  · exact State.updAccount_keeps (by assumption)
  · refine State.each_keeps ?_ (fun _ _ _ => ?_)
    · assumption
    · extract_lets -merge -underBinder +onlyGivenNames x2 x3
      clear_value x2
      have hx3 : Keeps s0 x3 := by
        subst x3
        exact State.updAccount_keeps (by assumption)
      clear_value x3
      refine keeps_ite ?_ ?_
      · assumption
      · exact State.updAccount_keeps (by assumption)

theorem State.lostSeen_keeps {s0 s1 : State} {a1 a2 a3} (hs1 : Keeps s0 s1) :
    KeepsL s0 (State.lostSeen s1 a1 a2 a3) := by
  unfold State.lostSeen
  extract_lets -merge -underBinder +onlyGivenNames x1
  clear_value x1
  refine keepsL_ite ?_ ?_
  · exact keepsL_mk (State.markLost_keeps (by assumption))
  · exact keepsL_mk (by assumption)

theorem State.spRead_keeps {s0 s1 : State} {a1 a2 a3 a4 a5 a6} (hs1 : Keeps s0 s1) :
    KeepsL s0 (State.spRead s1 a1 a2 a3 a4 a5 a6) := by
  unfold State.spRead
  refine keepsL_ite ?_ ?_
  · exact keepsL_mk (by assumption)
  · extract_lets -merge -underBinder +onlyGivenNames x1
    have hx1 : Keeps s0 x1 := by
      subst x1
      exact State.moved_keeps (by assumption)
    clear_value x1
    split
    · extract_lets -merge -underBinder +onlyGivenNames x2
      have hx2 : Keeps s0 x2 := by
        subst x2
        exact State.csReads_keeps (by assumption)
      clear_value x2
      exact keepsL_mk (by assumption)
    · split
      · refine KeepsL.of_eq (a := s0) (by assumption) ?_ (fun _ => ?_)
        · exact State.eccRead_keeps (by assumption)
        exact keepsL_mk (by assumption)
    · split
      · refine KeepsL.of_eq (a := s0) (by assumption) ?_ (fun _ => ?_)
        · exact State.tierRead_keeps (by assumption)
        exact keepsL_mk (by assumption)
      · refine KeepsL.of_eq (a := s0) (by assumption) ?_ (fun _ => ?_)
        · exact State.tierRead_keeps (by assumption)
        split
        · refine KeepsL.of_eq (a := s0) (by assumption) ?_ (fun _ => ?_)
          · exact State.lostSeen_keeps (by assumption)
          exact keepsL_mk (by assumption)

theorem State.spWrite_keeps {s0 s1 : State} {a1 a2 a3 a4 a5 a6} (hs1 : Keeps s0 s1) :
    KeepsL s0 (State.spWrite s1 a1 a2 a3 a4 a5 a6) := by
  unfold State.spWrite
  refine keepsL_ite ?_ ?_
  · exact keepsL_mk (by assumption)
  · extract_lets -merge -underBinder +onlyGivenNames x1
    have hx1 : Keeps s0 x1 := by
      subst x1
      exact State.moved_keeps (by assumption)
    clear_value x1
    split
    · exact keepsL_mk (State.csSt_keeps (by assumption))
    · exact keepsL_mk (State.stBytes_keeps (by assumption))
    · exact State.tierWrite_keeps (by assumption)

theorem mvEach_keeps {α : Type} {s0 s1 : State} {a2 : List α} {a3 : State → α → State × Option TaskOut} (hs1 : Keeps s0 s1)
    (ha3 : ∀ y0 y1, Keeps s0 y0 → KeepsL s0 (a3 y0 y1)) : KeepsL s0 (mvEach s1 a2 a3) := by
  unfold mvEach
  refine keepsL_foldl (fun _ _ _ => ?_) ?_
  · split
    · assumption
    · refine ha3 _ _ ?_
      exact KeepsL.fst (by assumption)
  · exact keepsL_mk (by assumption)

theorem mvThen_keeps {s0 : State} {a0 a1} (ha0 : KeepsL s0 a0) (ha1 : ∀ y0 y1, Keeps s0 y0 → KeepsL s0 (a1 y0 y1)) :
    KeepsL s0 (mvThen a0 a1) := by
  unfold mvThen
  split
  · refine ha1 _ _ ?_
    assumption
  · exact keepsL_mk (by assumption)

theorem State.unlessOld_keeps {s0 s1 : State} {a1 a2 a3} (hs1 : Keeps s0 s1) (ha3 : ∀ y0, Keeps s0 y0 → KeepsL s0 (a3 y0)) :
    KeepsL s0 (State.unlessOld s1 a1 a2 a3) := by
  unfold State.unlessOld
  refine keepsL_ite ?_ ?_
  · exact keepsL_mk (State.ringExpired_keeps (by assumption))
  · refine ha3 _ ?_
    assumption

theorem State.putTile_keeps {s0 s1 : State} {a1 a2 a3 a4 a5 a6 a7} (hs1 : Keeps s0 s1) :
    KeepsL s0 (State.putTile s1 a1 a2 a3 a4 a5 a6 a7) := by
  unfold State.putTile
  refine keepsL_ite ?_ ?_
  · split
    · split
      · refine KeepsL.of_eq (a := s0) (by assumption) ?_ (fun _ => ?_)
        · exact State.spWrite_keeps (by assumption)
        exact keepsL_mk (by assumption)
      · refine KeepsL.of_eq (a := s0) (by assumption) ?_ (fun _ => ?_)
        · exact State.spWrite_keeps (by assumption)
        exact State.spWrite_keeps (by assumption)
  · exact State.spWrite_keeps (by assumption)

theorem State.getTile_keeps {s0 s1 : State} {a1 a2 a3 a4 a5 a6} (hs1 : Keeps s0 s1) :
    KeepsL s0 (State.getTile s1 a1 a2 a3 a4 a5 a6) := by
  unfold State.getTile
  refine keepsL_ite ?_ ?_
  · split
    · refine KeepsL.of_eq (a := s0) (by assumption) ?_ (fun _ => ?_)
      · exact State.spRead_keeps (by assumption)
      exact keepsL_mk (by assumption)
    · refine KeepsL.of_eq (a := s0) (by assumption) ?_ (fun _ => ?_)
      · exact State.spRead_keeps (by assumption)
      extract_lets -merge -underBinder +onlyGivenNames x1
      clear_value x1
      split
      · refine KeepsL.of_eq (a := s0) (by assumption) ?_ (fun _ => ?_)
        · exact State.spRead_keeps (by assumption)
        exact keepsL_mk (by assumption)
      · refine KeepsL.of_eq (a := s0) (by assumption) ?_ (fun _ => ?_)
        · exact State.spRead_keeps (by assumption)
        exact keepsL_mk (by assumption)
  · exact State.spRead_keeps (by assumption)

theorem State.copyTile_keeps {s0 s1 : State} {a1 a2 a3 a4 a5 a6} (hs1 : Keeps s0 s1) :
    KeepsL s0 (State.copyTile s1 a1 a2 a3 a4 a5 a6) := by
  unfold State.copyTile
  refine keepsL_ite ?_ ?_
  · refine mvThen_keeps ?_ (fun _ _ _ => ?_)
    · exact State.spRead_keeps (by assumption)
    · exact State.putTile_keeps (by assumption)
  · refine mvThen_keeps ?_ (fun _ _ _ => ?_)
    · exact State.getTile_keeps (by assumption)
    · exact State.spWrite_keeps (by assumption)

theorem State.copySide_keeps {s0 s1 : State} {a1 a2 a3 a4 a5} (hs1 : Keeps s0 s1) :
    KeepsL s0 (State.copySide s1 a1 a2 a3 a4 a5) := by
  unfold State.copySide
  extract_lets -merge -underBinder +onlyGivenNames x1
  clear_value x1
  refine keepsL_ite ?_ ?_
  · refine mvThen_keeps ?_ (fun _ _ _ => ?_)
    · exact State.spRead_keeps (by assumption)
    · exact State.spWrite_keeps (by assumption)
  · refine mvThen_keeps ?_ (fun _ _ _ => ?_)
    · exact State.spRead_keeps (by assumption)
    · exact State.spWrite_keeps (by assumption)

theorem State.mvCopy_keeps {s0 s1 : State} {a1 a2 a3 a4} (hs1 : Keeps s0 s1) :
    KeepsL s0 (State.mvCopy s1 a1 a2 a3 a4) := by
  unfold State.mvCopy
  refine keepsL_ite ?_ ?_
  · exact keepsL_mk (by assumption)
  · refine State.unlessOld_keeps ?_ (fun _ _ => ?_)
    · assumption
    · extract_lets -merge -underBinder +onlyGivenNames x1
      have hx1 : KeepsL s0 x1 := by
        subst x1
        refine mvEach_keeps ?_ (fun _ _ _ => ?_)
        · assumption
        · split
          · refine keepsL_ite ?_ ?_
            · exact State.copyTile_keeps (by assumption)
            · refine mvThen_keeps ?_ (fun _ _ _ => ?_)
              · exact State.spRead_keeps (by assumption)
              · exact State.spWrite_keeps (by assumption)
      clear_value x1
      split
      · exact keepsL_mk (by assumption)
      · refine keepsL_ite ?_ ?_
        · refine mvEach_keeps ?_ (fun _ _ _ => ?_)
          · assumption
          · exact State.copySide_keeps (by assumption)
        · exact keepsL_mk (by assumption)

theorem State.mvFill_keeps {s0 s1 : State} {a1 a2 a3 a4} (hs1 : Keeps s0 s1) :
    KeepsL s0 (State.mvFill s1 a1 a2 a3 a4) := by
  unfold State.mvFill
  refine keepsL_ite ?_ ?_
  · exact keepsL_mk (by assumption)
  · refine mvEach_keeps ?_ (fun _ _ _ => ?_)
    · assumption
    · exact State.spWrite_keeps (State.drew_keeps (by assumption))

theorem State.readTiles_keeps {s0 s1 : State} {a1 a2 a3 a4} (hs1 : Keeps s0 s1) :
    KeepsL s0 (State.readTiles s1 a1 a2 a3 a4) := by
  unfold State.readTiles
  refine keepsL_foldl (fun _ _ _ => ?_) ?_
  · split
    · exact keepsL_mk (by assumption)
    · split
      · refine KeepsL.of_eq (a := s0) (by assumption) ?_ (fun _ => ?_)
        · exact State.getTile_keeps (by assumption)
        exact keepsL_mk (by assumption)
      · refine KeepsL.of_eq (a := s0) (by assumption) ?_ (fun _ => ?_)
        · exact State.getTile_keeps (by assumption)
        exact keepsL_mk (by assumption)
  · exact keepsL_mk (by assumption)

theorem State.mvPut_keeps {s0 s1 : State} {a1 a2 a3 a4 a5 a6} (hs1 : Keeps s0 s1) :
    Keeps s0 (State.mvPut s1 a1 a2 a3 a4 a5 a6) := by
  unfold State.mvPut
  extract_lets -merge -underBinder +onlyGivenNames x1
  clear_value x1
  split
  · exact State.putElem_keeps (by assumption)
  · extract_lets -merge -underBinder +onlyGivenNames x2 x3
    clear_value x2 x3
    refine keeps_ite ?_ ?_
    · exact State.sideAdd_keeps (State.putElem_keeps (by assumption))
    · exact State.putElem_keeps (State.count_keeps (by assumption))

theorem State.mvToPlanar_keeps {s0 s1 : State} {a1 a2 a3 a4 a5} (hs1 : Keeps s0 s1) :
    KeepsL s0 (State.mvToPlanar s1 a1 a2 a3 a4 a5) := by
  unfold State.mvToPlanar
  extract_lets -merge -underBinder +onlyGivenNames x1 x2 x3 x4 x5
  clear_value x1 x2 x3 x4 x5
  refine keepsL_ite ?_ ?_
  · exact keepsL_mk (by assumption)
  · refine State.unlessOld_keeps ?_ (fun _ _ => ?_)
    · assumption
    · extract_lets -merge -underBinder +onlyGivenNames x6 x7
      have hx6 : Keeps s0 x6 := by
        subst x6
        exact State.csReads_keeps (by assumption)
      clear_value x6
      have hx7 : KeepsL s0 x7 := by
        subst x7
        refine keepsL_ite ?_ ?_
        · refine keepsL_ite ?_ ?_
          · exact keepsL_mk (by assumption)
          · exact keepsL_mk (by assumption)
        · exact State.readTiles_keeps (by assumption)
      clear_value x7
      split
      · exact keepsL_mk (by assumption)
      · extract_lets -merge -underBinder +onlyGivenNames x8 x9
        clear_value x8
        have hx9 : Keeps s0 x9 := by
          subst x9
          refine keeps_ite ?_ ?_
          · exact State.sideClear_keeps (by assumption)
          · assumption
        clear_value x9
        refine keepsL_mk ?_
        refine State.each_keeps ?_ (fun _ _ _ => ?_)
        · assumption
        · split
          · extract_lets -merge -underBinder +onlyGivenNames x10
            clear_value x10
            exact State.mvPut_keeps (by assumption)

theorem State.mvToPixels_keeps {s0 s1 : State} {a1 a2 a3 a4} (hs1 : Keeps s0 s1) :
    KeepsL s0 (State.mvToPixels s1 a1 a2 a3 a4) := by
  unfold State.mvToPixels
  extract_lets -merge -underBinder +onlyGivenNames x1 x2
  clear_value x1 x2
  refine keepsL_ite ?_ ?_
  · exact keepsL_mk (by assumption)
  · extract_lets -merge -underBinder +onlyGivenNames x3
    have hx3 : Keeps s0 x3 := by
      subst x3
      refine keeps_ite ?_ ?_
      · exact State.sideClear_keeps (by assumption)
      · assumption
    clear_value x3
    extract_lets -merge -underBinder +onlyGivenNames x4
    have hx4 : Keeps s0 x4 := by
      subst x4
      refine State.each_keeps ?_ (fun _ _ _ => ?_)
      · assumption
      · split
        · exact State.mvPut_keeps (by assumption)
    clear_value x4
    refine keepsL_mk ?_
    refine State.each_keeps ?_ (fun _ _ _ => ?_)
    · assumption
    · refine State.each_keeps ?_ (fun _ _ _ => ?_)
      · assumption
      · exact State.padPix_keeps (by assumption)

theorem State.mvToTile_keeps {s0 s1 : State} {a1 a2 a3 a4 a5 a6} (hs1 : Keeps s0 s1) :
    KeepsL s0 (State.mvToTile s1 a1 a2 a3 a4 a5 a6) := by
  unfold State.mvToTile
  split
  · extract_lets -merge -underBinder +onlyGivenNames x1 x2
    clear_value x1 x2
    refine keepsL_ite ?_ ?_
    · exact keepsL_mk (by assumption)
    · extract_lets -merge -underBinder +onlyGivenNames x3 x4 x5 x6 x7 x8 x9
      clear_value x3 x4 x5 x6 x7 x8
      have hx9 : Keeps s0 x9 := by
        subst x9
        exact State.count_keeps (by assumption)
      clear_value x9
      split
      · refine KeepsL.of_eq (a := s0) (by assumption) ?_ (fun _ => ?_)
        · exact State.putTile_keeps (by assumption)
        exact keepsL_mk (by assumption)
      · refine KeepsL.of_eq (a := s0) (by assumption) ?_ (fun _ => ?_)
        · exact State.putTile_keeps (by assumption)
        refine keepsL_ite ?_ ?_
        · exact State.spWrite_keeps (by assumption)
        · exact keepsL_mk (by assumption)

theorem State.mvToBlocked_keeps {s0 s1 : State} {a1 a2 a3 a4} (hs1 : Keeps s0 s1) :
    KeepsL s0 (State.mvToBlocked s1 a1 a2 a3 a4) := by
  unfold State.mvToBlocked
  refine keepsL_ite ?_ ?_
  · exact keepsL_mk (by assumption)
  · extract_lets -merge -underBinder +onlyGivenNames x1
    have hx1 : Keeps s0 x1 := by
      subst x1
      exact State.csReads_keeps (by assumption)
    clear_value x1
    refine keepsL_ite ?_ ?_
    · exact keepsL_mk (by assumption)
    · extract_lets -merge -underBinder +onlyGivenNames x2
      clear_value x2
      refine keepsL_ite ?_ ?_
      · exact State.mvToPixels_keeps (by assumption)
      · refine mvEach_keeps ?_ (fun _ _ _ => ?_)
        · assumption
        · exact State.mvToTile_keeps (by assumption)

theorem State.mvGather_keeps {s0 s1 : State} {a1 a2 a3 a4} (hs1 : Keeps s0 s1) :
    KeepsL s0 (State.mvGather s1 a1 a2 a3 a4) := by
  unfold State.mvGather
  extract_lets -merge -underBinder +onlyGivenNames x1 x2 x3 x4 x5 x6 x7 x8 x9
  clear_value x1 x2 x3 x4 x5 x6 x7 x8 x9
  refine keepsL_ite ?_ ?_
  · exact keepsL_mk (by assumption)
  · refine State.unlessOld_keeps ?_ (fun _ _ => ?_)
    · assumption
    · extract_lets -merge -underBinder +onlyGivenNames x10
      have hx10 : Keeps s0 x10 := by
        subst x10
        exact State.moved_keeps (by assumption)
      clear_value x10
      split
      · refine KeepsL.of_eq (a := s0) (by assumption) ?_ (fun _ => ?_)
        · refine keepsL_foldl (fun _ _ _ => ?_) ?_
          · refine keepsL_foldl (fun _ _ _ => ?_) ?_
            · extract_lets -merge -underBinder +onlyGivenNames x11 x12
              clear_value x11 x12
              split
              · refine KeepsL.of_eq (a := s0) (by assumption) ?_ (fun _ => ?_)
                · refine keepsL_ite ?_ ?_
                  · refine State.eccRead_keeps ?_
                    exact KeepsL.fst (by assumption)
                  · refine keepsL_mk ?_
                    exact KeepsL.fst (by assumption)
                exact keepsL_mk (by assumption)
            · assumption
          · exact keepsL_mk (by assumption)
        refine keepsL_ite ?_ ?_
        · exact keepsL_mk (by assumption)
        · refine keepsL_mk ?_
          refine State.each_keeps ?_ (fun _ _ _ => ?_)
          · assumption
          · split
            · exact State.csSt_keeps (by assumption)

theorem State.races_keeps {s0 s1 : State} {s2 : State} {a2 a3 a4 a5} (hs1 : Keeps s0 s1) (hs2 : Keeps s0 s2) :
    Keeps s0 (State.races s1 s2 a2 a3 a4 a5) := by
  unfold State.races
  exact State.updRun_keeps (by assumption)

theorem State.chainNext_keeps {s0 s1 : State} {a1 a2 a3 a4 a5} (hs1 : Keeps s0 s1) :
    Keeps s0 (State.chainNext s1 a1 a2 a3 a4 a5) := by
  unfold State.chainNext
  refine keeps_ite ?_ ?_
  · exact State.finish_keeps (by assumption)
  · exact State.updRun_keeps (by assumption)

theorem State.moverRun_keeps {s0 s1 : State} {a1 a2 a3 a4 a5 a6} (hs1 : Keeps s0 s1) (ha6 : ∀ y0 y1 y2, Keeps s0 y0 → KeepsL s0 (a6 y0 y1 y2)) :
    Keeps s0 (State.moverRun s1 a1 a2 a3 a4 a5 a6) := by
  unfold State.moverRun
  split
  · assumption
  · refine keeps_ite ?_ ?_
    · assumption
    · extract_lets -merge -underBinder +onlyGivenNames x1
      have hx1 : Keeps s0 x1 := by
        subst x1
        exact State.csReads_keeps (by assumption)
      clear_value x1
      split
      · assumption
      · split
        · exact State.finish_keeps (by assumption)
        · refine keeps_ite ?_ ?_
          · assumption
          · extract_lets -merge -underBinder +onlyGivenNames x2
            have hx2 : KeepsL s0 x2 := by
              subst x2
              refine keepsL_ite ?_ ?_
              · exact keepsL_mk (by assumption)
              · refine ha6 _ _ _ ?_
                assumption
            clear_value x2
            split
            · refine State.finish_keeps ?_
              exact KeepsL.fst (by assumption)
            · refine keeps_ite ?_ ?_
              · exact KeepsL.fst (by assumption)
              · refine keeps_ite ?_ ?_
                · refine State.chainNext_keeps ?_
                  exact KeepsL.fst (by assumption)
                · refine State.chainNext_keeps ?_
                  refine State.moves_keeps ?_
                  refine State.races_keeps ?_ ?_
                  · exact KeepsL.fst (by assumption)
                  · assumption

theorem onMove_keeps {s0 : State} {a0 a1 a2 a3 a4} {s6 : State} {a6} (hs6 : Keeps s0 s6) (ha6 : ∀ y0 y1 y2, Keeps s0 y0 → KeepsL s0 (a6 y0 y1 y2)) :
    KeepsN s0 (onMove a0 a1 a2 a3 a4 s6 a6) := by
  unfold onMove
  refine onTask_keeps ?_ (fun _ _ _ => ?_)
  · assumption
  · refine State.moverRun_keeps ?_ (fun _ _ _ _ => ?_)
    · assumption
    · refine ha6 _ _ _ ?_
      assumption

theorem execCopy_keeps {s0 : State} {a0 a1 a2 a3} {s5 : State} (hs5 : Keeps s0 s5) :
    KeepsN s0 (execCopy a0 a1 a2 a3 s5) := by
  unfold execCopy
  refine onMove_keeps ?_ (fun _ _ _ _ => ?_)
  · assumption
  · exact State.mvCopy_keeps (by assumption)

theorem execBlockedToPlanar_keeps {s0 : State} {a0 a1 a2 a3} {s5 : State} (hs5 : Keeps s0 s5) :
    KeepsN s0 (execBlockedToPlanar a0 a1 a2 a3 s5) := by
  unfold execBlockedToPlanar
  refine onMove_keeps ?_ (fun _ _ _ _ => ?_)
  · assumption
  · exact State.mvToPlanar_keeps (by assumption)

theorem execPhaseSplit_keeps {s0 : State} {a0 a1 a2 a3} {s5 : State} (hs5 : Keeps s0 s5) :
    KeepsN s0 (execPhaseSplit a0 a1 a2 a3 s5) := by
  unfold execPhaseSplit
  refine onMove_keeps ?_ (fun _ _ _ _ => ?_)
  · assumption
  · exact State.mvToPlanar_keeps (by assumption)

theorem execPlanarToBlocked_keeps {s0 : State} {a0 a1 a2 a3} {s5 : State} (hs5 : Keeps s0 s5) :
    KeepsN s0 (execPlanarToBlocked a0 a1 a2 a3 s5) := by
  unfold execPlanarToBlocked
  refine onMove_keeps ?_ (fun _ _ _ _ => ?_)
  · assumption
  · exact State.mvToBlocked_keeps (by assumption)

theorem execRowGather_keeps {s0 : State} {a0 a1 a2 a3} {s5 : State} (hs5 : Keeps s0 s5) :
    KeepsN s0 (execRowGather a0 a1 a2 a3 s5) := by
  unfold execRowGather
  refine onMove_keeps ?_ (fun _ _ _ _ => ?_)
  · assumption
  · exact State.mvGather_keeps (by assumption)

theorem execFill_keeps {s0 : State} {a0 a1 a2 a3} {s5 : State} (hs5 : Keeps s0 s5) :
    KeepsN s0 (execFill a0 a1 a2 a3 s5) := by
  unfold execFill
  refine onMove_keeps ?_ (fun _ _ _ _ => ?_)
  · assumption
  · exact State.mvFill_keeps (by assumption)

theorem execChainDeadline_keeps {s0 : State} {a0 a1 a2 a3} {s5 : State} (hs5 : Keeps s0 s5) :
    KeepsN s0 (execChainDeadline a0 a1 a2 a3 s5) := by
  unfold execChainDeadline
  refine onTask_keeps ?_ (fun _ _ _ => ?_)
  · assumption
  · split
    · assumption
    · extract_lets -merge -underBinder +onlyGivenNames x1
      clear_value x1
      refine keeps_ite ?_ ?_
      · assumption
      · split
        · exact State.finish_keeps (by assumption)
        · extract_lets -merge -underBinder +onlyGivenNames x2
          have hx2 : Keeps s0 x2 := by
            subst x2
            exact State.raise_keeps (State.bump_keeps (by assumption))
          clear_value x2
          extract_lets -merge -underBinder +onlyGivenNames x3
          have hx3 : Keeps s0 x3 := by
            subst x3
            exact State.updRun_keeps (by assumption)
          clear_value x3
          refine keeps_ite ?_ ?_
          · exact State.updBond_keeps (by assumption)
          · refine keeps_ite ?_ ?_
            · extract_lets -merge -underBinder +onlyGivenNames x4
              have hx4 : Keeps s0 x4 := by
                subst x4
                refine State.each_keeps ?_ (fun _ _ _ => ?_)
                · assumption
                · exact State.csSt_keeps (by assumption)
              clear_value x4
              exact State.chainNext_keeps (State.updRun_keeps (by assumption))
            · assumption

end Sys2Proof.Machine
end

