-- ==== Sys2Proof/Laws/KeepsStreamOps.lean ====
section
/-! SUPPORT. What the operations of Machine/StreamOps.lean keep (Laws/Keeps.lean). -/
namespace Sys2Proof.Machine
set_option Elab.async false

theorem State.resetState_keeps {s0 s1 : State} {a1} (hs1 : Keeps s0 s1) :
    KeepsL s0 (State.resetState s1 a1) := by
  unfold State.resetState
  extract_lets -merge -underBinder +onlyGivenNames x1
  clear_value x1
  refine keepsL_ite ?_ ?_
  · exact keepsL_mk (by assumption)
  · exact State.tierRead_keeps (by assumption)

theorem State.slotState_keeps {s0 s1 : State} {a1} (hs1 : Keeps s0 s1) :
    KeepsL s0 (State.slotState s1 a1) := by
  unfold State.slotState
  extract_lets -merge -underBinder +onlyGivenNames x1
  clear_value x1
  split
  · refine KeepsL.of_eq (a := s0) (by assumption) ?_ (fun _ => ?_)
    · exact State.eccRead_keeps (by assumption)
    refine keepsL_ite ?_ ?_
    · exact keepsL_mk (State.ctxFault_keeps (by assumption))
    · exact keepsL_mk (by assumption)

theorem State.streamRun_keeps {s0 s1 : State} {a1 a2 a3 a4 a5} (hs1 : Keeps s0 s1) (ha5 : ∀ y0 y1 y2 y3, Keeps s0 y0 → KeepsL s0 (a5 y0 y1 y2 y3)) :
    Keeps s0 (State.streamRun s1 a1 a2 a3 a4 a5) := by
  unfold State.streamRun
  extract_lets -merge -underBinder +onlyGivenNames x1
  clear_value x1
  split
  · split
    · refine KeepsL.of_eq (a := s0) (by assumption) ?_ (fun _ => ?_)
      · refine keepsL_ite ?_ ?_
        · exact keepsL_mk (by assumption)
        · exact State.resetState_keeps (by assumption)
      split
      · exact State.finish_keeps (by assumption)
      · split
        · refine KeepsL.of_eq (a := s0) (by assumption) ?_ (fun _ => ?_)
          · refine keepsL_ite ?_ ?_
            · exact keepsL_mk (by assumption)
            · exact State.slotState_keeps (by assumption)
          split
          · exact State.finish_keeps (by assumption)
          · split
            · refine KeepsL.of_eq (a := s0) (by assumption) ?_ (fun _ => ?_)
              · refine ha5 _ _ _ _ ?_
                assumption
              exact State.updRun_keeps (by assumption)

theorem State.lscanOp_keeps {s0 s1 : State} {a1 a2 a3 a4} (hs1 : Keeps s0 s1) :
    KeepsD s0 (State.lscanOp s1 a1 a2 a3 a4) := by
  unfold State.lscanOp
  refine keepsD_bind (fun _ => ?_)
  split
  · refine keepsD_mk (fun _ _ => ?_)
    refine keeps_ite ?_ ?_
    · assumption
    · refine State.streamRun_keeps ?_ (fun _ _ _ _ _ => ?_)
      · assumption
      · extract_lets -merge -underBinder +onlyGivenNames x1
        clear_value x1
        refine keepsL_mk ?_
        refine State.each_keeps ?_ (fun _ _ _ => ?_)
        · assumption
        · exact State.csSt_keeps (by assumption)

theorem execLscan_keeps {s0 : State} {a0 a1 a2 a3} {s5 : State} (hs5 : Keeps s0 s5) :
    KeepsN s0 (execLscan a0 a1 a2 a3 s5) := by
  unfold execLscan
  refine onTask_keeps ?_ (fun _ _ _ => ?_)
  · assumption
  · refine State.operate_keeps ?_ (fun _ _ _ => ?_)
    · assumption
    · exact State.lscanOp_keeps (by assumption)

theorem State.gcellOp_keeps {s0 s1 : State} {a1 a2 a3 a4} (hs1 : Keeps s0 s1) :
    KeepsD s0 (State.gcellOp s1 a1 a2 a3 a4) := by
  unfold State.gcellOp
  refine keepsD_bind (fun _ => ?_)
  split
  · refine keepsD_bind (fun _ => ?_)
    refine keepsD_bind (fun _ => ?_)
    refine keepsD_bind (fun _ => ?_)
    refine keepsD_mk (fun _ _ => ?_)
    refine keeps_ite ?_ ?_
    · assumption
    · refine State.streamRun_keeps ?_ (fun _ _ _ _ _ => ?_)
      · assumption
      · extract_lets -merge -underBinder +onlyGivenNames x1 x2 x3 x4 x5
        clear_value x1 x2 x3 x4
        have hx5 : Keeps s0 x5 := by
          subst x5
          exact State.updCore_keeps (State.count_keeps (by assumption))
        clear_value x5
        extract_lets -merge -underBinder +onlyGivenNames x6
        clear_value x6
        refine keepsL_mk ?_
        refine State.each_keeps ?_ (fun _ _ _ => ?_)
        · assumption
        · split
          · exact State.csSt_keeps (by assumption)

theorem execGcell_keeps {s0 : State} {a0 a1 a2 a3} {s5 : State} (hs5 : Keeps s0 s5) :
    KeepsN s0 (execGcell a0 a1 a2 a3 s5) := by
  unfold execGcell
  refine onTask_keeps ?_ (fun _ _ _ => ?_)
  · assumption
  · refine keeps_ite ?_ ?_
    · refine State.operate_keeps ?_ (fun _ _ _ => ?_)
      · assumption
      · exact State.gcellOp_keeps (by assumption)
    · assumption

theorem State.biscanOp_keeps {s0 s1 : State} {a1 a2 a3 a4} (hs1 : Keeps s0 s1) :
    KeepsD s0 (State.biscanOp s1 a1 a2 a3 a4) := by
  unfold State.biscanOp
  refine keepsD_bind (fun _ => ?_)
  split
  · extract_lets -merge -underBinder +onlyGivenNames x1
    clear_value x1
    refine keepsD_mk (fun _ _ => ?_)
    refine keeps_ite ?_ ?_
    · assumption
    · extract_lets -merge -underBinder +onlyGivenNames x2
      clear_value x2
      refine State.streamRun_keeps ?_ (fun _ _ _ _ _ => ?_)
      · assumption
      · extract_lets -merge -underBinder +onlyGivenNames x3 x4 x5 x6 x7
        clear_value x3 x4 x5 x6 x7
        refine keepsL_mk ?_
        refine State.each_keeps ?_ (fun _ _ _ => ?_)
        · assumption
        · exact State.csSt_keeps (by assumption)

theorem execBiscan_keeps {s0 : State} {a0 a1 a2 a3} {s5 : State} (hs5 : Keeps s0 s5) :
    KeepsN s0 (execBiscan a0 a1 a2 a3 s5) := by
  unfold execBiscan
  refine onTask_keeps ?_ (fun _ _ _ => ?_)
  · assumption
  · refine State.operate_keeps ?_ (fun _ _ _ => ?_)
    · assumption
    · exact State.biscanOp_keeps (by assumption)

theorem State.bindOp_keeps {s0 s1 : State} {a1 a2 a3 a4} (hs1 : Keeps s0 s1) :
    KeepsD s0 (State.bindOp s1 a1 a2 a3 a4) := by
  unfold State.bindOp
  refine keepsD_bind (fun _ => ?_)
  split
  · refine keepsD_mk (fun _ _ => ?_)
    refine keeps_ite ?_ ?_
    · assumption
    · refine State.updRun_keeps ?_
      refine State.streamRun_keeps ?_ (fun _ _ _ _ _ => ?_)
      · assumption
      · exact keepsL_mk (State.csSt_keeps (by assumption))

theorem execBind_keeps {s0 : State} {a0 a1 a2 a3} {s5 : State} (hs5 : Keeps s0 s5) :
    KeepsN s0 (execBind a0 a1 a2 a3 s5) := by
  unfold execBind
  refine onTask_keeps ?_ (fun _ _ _ => ?_)
  · assumption
  · refine State.operate_keeps ?_ (fun _ _ _ => ?_)
    · assumption
    · exact State.bindOp_keeps (by assumption)

end Sys2Proof.Machine
end

