-- ==== Sys2Proof/Laws/KeepsKv.lean ====
section
/-! SUPPORT. What the operations of Machine/Kv.lean keep (Laws/Keeps.lean). -/
namespace Sys2Proof.Machine
set_option Elab.async false

theorem State.linGet_keeps {s0 s1 : State} {a1 a2 a3 a4 a5} (hs1 : Keeps s0 s1) :
    KeepsL s0 (State.linGet s1 a1 a2 a3 a4 a5) := by
  unfold State.linGet
  refine keepsL_ite ?_ ?_
  · exact keepsL_mk (by assumption)
  · exact State.spRead_keeps (by assumption)

theorem State.kvPageGet_keeps {s0 s1 : State} {a1 a2 a3 a4 a5 a6} (hs1 : Keeps s0 s1) :
    KeepsL s0 (State.kvPageGet s1 a1 a2 a3 a4 a5 a6) := by
  unfold State.kvPageGet
  extract_lets -merge -underBinder +onlyGivenNames x1
  have hx1 : ∀ y0 y1 y2, Keeps s0 y0 → KeepsL s0 (x1 y0 y1 y2) := by
    subst x1
    intro y0 y1 y2 _
    exact State.tierRead_keeps (State.moved_keeps (by assumption))
  clear_value x1
  extract_lets -merge -underBinder +onlyGivenNames x2
  have hx2 : ∀ y0 y1, Keeps s0 y0 → KeepsL s0 (x2 y0 y1) := by
    subst x2
    intro y0 y1 _
    refine keepsL_ite ?_ ?_
    · exact keepsL_mk (by assumption)
    · exact keepsL_mk (State.raise_keeps (State.pageSt_keeps (by assumption)))
  clear_value x2
  refine keepsL_ite ?_ ?_
  · exact keepsL_mk (by assumption)
  · split
    · refine KeepsL.of_eq (a := s0) (by assumption) ?_ (fun _ => ?_)
      · refine hx1 _ _ _ ?_
        assumption
      refine hx2 _ _ ?_
      assumption
    · refine KeepsL.of_eq (a := s0) (by assumption) ?_ (fun _ => ?_)
      · refine hx1 _ _ _ ?_
        assumption
      split
      · refine KeepsL.of_eq (a := s0) (by assumption) ?_ (fun _ => ?_)
        · refine hx1 _ _ _ ?_
          assumption
        refine hx2 _ _ ?_
        assumption
      · refine KeepsL.of_eq (a := s0) (by assumption) ?_ (fun _ => ?_)
        · refine hx1 _ _ _ ?_
          assumption
        exact keepsL_mk (by assumption)

theorem State.kvPutVec_keeps {s0 s1 : State} {a1 a2 a3 a4 a5 a6 a7 a8 a9 a10} (hs1 : Keeps s0 s1) :
    KeepsL s0 (State.kvPutVec s1 a1 a2 a3 a4 a5 a6 a7 a8 a9 a10) := by
  unfold State.kvPutVec
  extract_lets -merge -underBinder +onlyGivenNames x1 x2 x3 x4 x5
  clear_value x1 x2 x3 x4 x5
  split
  · refine KeepsL.of_eq (a := s0) (by assumption) ?_ (fun _ => ?_)
    · exact State.tierWrite_keeps (State.moved_keeps (by assumption))
    exact keepsL_mk (by assumption)
  · refine KeepsL.of_eq (a := s0) (by assumption) ?_ (fun _ => ?_)
    · exact State.tierWrite_keeps (State.moved_keeps (by assumption))
    extract_lets -merge -underBinder +onlyGivenNames x6 x7
    clear_value x6
    have hx7 : Keeps s0 x7 := by
      subst x7
      exact State.moved_keeps (by assumption)
    clear_value x7
    refine mvEach_keeps ?_ (fun _ _ _ => ?_)
    · assumption
    · split
      · extract_lets -merge -underBinder +onlyGivenNames x8
        clear_value x8
        refine keepsL_ite ?_ ?_
        · extract_lets -merge -underBinder +onlyGivenNames x9 x10 x11
          clear_value x9 x10 x11
          exact State.tierWrite_keeps (by assumption)
        · exact State.tierWrite_keeps (by assumption)

theorem State.kvWritable_keeps {s0 s1 : State} {a1 a2 a3 a4 a5 a6 a7 a8} (hs1 : Keeps s0 s1) :
    KeepsL s0 (State.kvWritable s1 a1 a2 a3 a4 a5 a6 a7 a8) := by
  unfold State.kvWritable
  extract_lets -merge -underBinder +onlyGivenNames x1 x2 x3
  clear_value x1 x2
  have hx3 : ∀ y0, Keeps s0 y0 → KeepsL s0 (x3 y0) := by
    subst x3
    intro y0 _
    exact State.pageTake_keeps (by assumption)
  clear_value x3
  refine keepsL_ite ?_ ?_
  · split
    · refine KeepsL.of_eq (a := s0) (by assumption) ?_ (fun _ => ?_)
      · refine hx3 _ ?_
        assumption
      exact keepsL_mk (by assumption)
    · refine KeepsL.of_eq (a := s0) (by assumption) ?_ (fun _ => ?_)
      · refine hx3 _ ?_
        assumption
      exact keepsL_mk (State.listSet_keeps (by assumption))
  · split
    · exact keepsL_mk (by assumption)
    · extract_lets -merge -underBinder +onlyGivenNames x4
      clear_value x4
      refine keepsL_ite ?_ ?_
      · exact keepsL_mk (by assumption)
      · split
        · refine KeepsL.of_eq (a := s0) (by assumption) ?_ (fun _ => ?_)
          · refine hx3 _ ?_
            assumption
          exact keepsL_mk (by assumption)
        · refine KeepsL.of_eq (a := s0) (by assumption) ?_ (fun _ => ?_)
          · refine hx3 _ ?_
            assumption
          split
          · refine KeepsL.of_eq (a := s0) (by assumption) ?_ (fun _ => ?_)
            · exact State.kvPageGet_keeps (by assumption)
            split
            · exact keepsL_mk (by assumption)
            · split
              · extract_lets -merge -underBinder +onlyGivenNames x5 x6
                clear_value x5 x6
                split
                · refine KeepsL.of_eq (a := s0) (by assumption) ?_ (fun _ => ?_)
                  · exact State.tierWrite_keeps (by assumption)
                  exact keepsL_mk (by assumption)
                · refine KeepsL.of_eq (a := s0) (by assumption) ?_ (fun _ => ?_)
                  · exact State.tierWrite_keeps (by assumption)
                  split
                  · refine KeepsL.of_eq (a := s0) (by assumption) ?_ (fun _ => ?_)
                    · exact State.tierWrite_keeps (by assumption)
                    exact keepsL_mk (by assumption)
                  · refine KeepsL.of_eq (a := s0) (by assumption) ?_ (fun _ => ?_)
                    · exact State.tierWrite_keeps (by assumption)
                    extract_lets -merge -underBinder +onlyGivenNames x7 x8
                    clear_value x7
                    have hx8 : Keeps s0 x8 := by
                      subst x8
                      exact State.listSet_keeps (State.pageSt_keeps (by assumption))
                    clear_value x8
                    exact keepsL_mk (State.bump_keeps (State.pageUnref_keeps (by assumption)))

theorem State.kvPut_keeps {s0 s1 : State} {a1 a2 a3 a4 a5 a6 a7 a8 a9} (hs1 : Keeps s0 s1) :
    KeepsL s0 (State.kvPut s1 a1 a2 a3 a4 a5 a6 a7 a8 a9) := by
  unfold State.kvPut
  extract_lets -merge -underBinder +onlyGivenNames x1 x2
  clear_value x1 x2
  split
  · refine KeepsL.of_eq (a := s0) (by assumption) ?_ (fun _ => ?_)
    · exact State.kvWritable_keeps (by assumption)
    exact keepsL_mk (by assumption)
  · refine KeepsL.of_eq (a := s0) (by assumption) ?_ (fun _ => ?_)
    · exact State.kvWritable_keeps (by assumption)
    extract_lets -merge -underBinder +onlyGivenNames x3 x4 x5
    clear_value x3 x4
    have hx5 : Keeps s0 x5 := by
      subst x5
      refine keeps_ite ?_ ?_
      · assumption
      · exact State.drew_keeps (by assumption)
    clear_value x5
    split
    · refine KeepsL.of_eq (a := s0) (by assumption) ?_ (fun _ => ?_)
      · exact State.kvPutVec_keeps (by assumption)
      exact keepsL_mk (by assumption)
    · refine KeepsL.of_eq (a := s0) (by assumption) ?_ (fun _ => ?_)
      · exact State.kvPutVec_keeps (by assumption)
      exact keepsL_mk (State.pageSt_keeps (by assumption))

theorem State.kvAppendAll_keeps {s0 s1 : State} {a1 a2 a3 a4 a5 a6 a7} (hs1 : Keeps s0 s1) :
    KeepsL s0 (State.kvAppendAll s1 a1 a2 a3 a4 a5 a6 a7) := by
  unfold State.kvAppendAll
  extract_lets -merge -underBinder +onlyGivenNames x1 x2
  clear_value x1 x2
  refine mvEach_keeps ?_ (fun _ _ _ => ?_)
  · assumption
  · split
    · extract_lets -merge -underBinder +onlyGivenNames x3 x4 x5 x6 x7
      clear_value x3 x4 x5 x6
      have hx7 : Keeps s0 x7 := by
        subst x7
        refine keeps_ite ?_ ?_
        · assumption
        · exact State.count_keeps (by assumption)
      clear_value x7
      split
      · refine KeepsL.of_eq (a := s0) (by assumption) ?_ (fun _ => ?_)
        · exact State.kvPut_keeps (by assumption)
        exact keepsL_mk (by assumption)
      · refine KeepsL.of_eq (a := s0) (by assumption) ?_ (fun _ => ?_)
        · exact State.kvPut_keeps (by assumption)
        exact State.kvPut_keeps (by assumption)

theorem State.kvTakeMark_keeps {s0 s1 : State} {a1 a2 a3} (hs1 : Keeps s0 s1) :
    Keeps s0 (State.kvTakeMark s1 a1 a2 a3) := by
  unfold State.kvTakeMark
  split
  · assumption
  · extract_lets -merge -underBinder +onlyGivenNames x1
    clear_value x1
    exact State.updKv_keeps (State.seqSt_keeps (State.seqReset_keeps (by assumption)))

theorem State.kvAppendIn_keeps {s0 s1 : State} {a1 a2 a3 a4 a5 a6 a7} (hs1 : Keeps s0 s1) :
    KeepsL s0 (State.kvAppendIn s1 a1 a2 a3 a4 a5 a6 a7) := by
  unfold State.kvAppendIn
  refine mvThen_keeps ?_ (fun _ _ _ => ?_)
  · exact State.linGet_keeps (by assumption)
  · exact State.kvAppendAll_keeps (by assumption)

theorem State.kvAppend_keeps {s0 s1 : State} {a1 a2 a3 a4 a5 a6 a7} (hs1 : Keeps s0 s1) :
    Keeps s0 (State.kvAppend s1 a1 a2 a3 a4 a5 a6 a7) := by
  unfold State.kvAppend
  refine keeps_ite ?_ ?_
  · exact State.finish_keeps (State.raise_keeps (by assumption))
  · extract_lets -merge -underBinder +onlyGivenNames x1
    have hx1 : Keeps s0 x1 := by
      subst x1
      exact State.kvTakeMark_keeps (by assumption)
    clear_value x1
    extract_lets -merge -underBinder +onlyGivenNames x2
    clear_value x2
    refine keeps_ite ?_ ?_
    · exact State.finish_keeps (by assumption)
    · refine keeps_ite ?_ ?_
      · exact State.finish_keeps (State.bump_keeps (State.raise_keeps (by assumption)))
      · split
        · refine KeepsL.of_eq (a := s0) (by assumption) ?_ (fun _ => ?_)
          · exact State.kvAppendIn_keeps (by assumption)
          exact State.finish_keeps (by assumption)
        · refine KeepsL.of_eq (a := s0) (by assumption) ?_ (fun _ => ?_)
          · exact State.kvAppendIn_keeps (by assumption)
          exact State.bump_keeps (State.seqSt_keeps (by assumption))

theorem State.kvAppendOp_keeps {s0 s1 : State} {a1 a2 a3 a4} (hs1 : Keeps s0 s1) :
    KeepsD s0 (State.kvAppendOp s1 a1 a2 a3 a4) := by
  unfold State.kvAppendOp
  extract_lets -merge -underBinder +onlyGivenNames x1 x2
  clear_value x1 x2
  refine keepsD_bind (fun _ => ?_)
  refine keepsD_bind (fun _ => ?_)
  refine keepsD_bind (fun _ => ?_)
  refine keepsD_mk (fun _ _ => ?_)
  refine keeps_ite ?_ ?_
  · assumption
  · exact State.kvAppend_keeps (by assumption)

theorem execKvAppend_keeps {s0 : State} {a0 a1 a2 a3} {s5 : State} (hs5 : Keeps s0 s5) :
    KeepsN s0 (execKvAppend a0 a1 a2 a3 s5) := by
  unfold execKvAppend
  refine onTask_keeps ?_ (fun _ _ _ => ?_)
  · assumption
  · refine State.operate_keeps ?_ (fun _ _ _ => ?_)
    · assumption
    · exact State.kvAppendOp_keeps (by assumption)

theorem State.headPages_keeps {s0 s1 : State} {a1 a2 a3 a4 a5 a6} (hs1 : Keeps s0 s1) :
    KeepsL s0 (State.headPages s1 a1 a2 a3 a4 a5 a6) := by
  unfold State.headPages
  extract_lets -merge -underBinder +onlyGivenNames x1 x2
  clear_value x1 x2
  refine keepsL_foldl (fun _ _ _ => ?_) ?_
  · split
    · exact keepsL_mk (by assumption)
    · split
      · exact keepsL_mk (by assumption)
      · split
        · refine KeepsL.of_eq (a := s0) (by assumption) ?_ (fun _ => ?_)
          · exact State.kvPageGet_keeps (by assumption)
          exact keepsL_mk (by assumption)
        · refine KeepsL.of_eq (a := s0) (by assumption) ?_ (fun _ => ?_)
          · exact State.kvPageGet_keeps (by assumption)
          exact keepsL_mk (by assumption)
        · refine KeepsL.of_eq (a := s0) (by assumption) ?_ (fun _ => ?_)
          · exact State.kvPageGet_keeps (by assumption)
          split
          · refine KeepsL.of_eq (a := s0) (by assumption) ?_ (fun _ => ?_)
            · exact State.kvPageGet_keeps (by assumption)
            exact keepsL_mk (by assumption)
          · refine KeepsL.of_eq (a := s0) (by assumption) ?_ (fun _ => ?_)
            · exact State.kvPageGet_keeps (by assumption)
            exact keepsL_mk (by assumption)
          · refine KeepsL.of_eq (a := s0) (by assumption) ?_ (fun _ => ?_)
            · exact State.kvPageGet_keeps (by assumption)
            exact keepsL_mk (by assumption)
  · exact keepsL_mk (by assumption)

theorem State.emptyRows_keeps {s0 s1 : State} {a1 a2 a3} (hs1 : Keeps s0 s1) :
    Keeps s0 (State.emptyRows s1 a1 a2 a3) := by
  unfold State.emptyRows
  exact State.bump_keeps (State.updRun_keeps (by assumption))

theorem State.attnWrite_keeps {s0 s1 : State} {a1 a2 a3 a4 a5} (hs1 : Keeps s0 s1) :
    Keeps s0 (State.attnWrite s1 a1 a2 a3 a4 a5) := by
  unfold State.attnWrite
  extract_lets -merge -underBinder +onlyGivenNames x1
  have hx1 : Keeps s0 x1 := by
    subst x1
    exact State.emptyRows_keeps (by assumption)
  clear_value x1
  extract_lets -merge -underBinder +onlyGivenNames x2 x3
  clear_value x2 x3
  split
  · refine KeepsL.of_eq (a := s0) (by assumption) ?_ (fun _ => ?_)
    · exact State.spWrite_keeps (by assumption)
    exact State.finish_keeps (by assumption)
  · refine KeepsL.of_eq (a := s0) (by assumption) ?_ (fun _ => ?_)
    · exact State.spWrite_keeps (by assumption)
    refine keeps_ite ?_ ?_
    · split
      · refine KeepsL.of_eq (a := s0) (by assumption) ?_ (fun _ => ?_)
        · exact State.spWrite_keeps (by assumption)
        exact State.finish_keeps (by assumption)
      · refine KeepsL.of_eq (a := s0) (by assumption) ?_ (fun _ => ?_)
        · exact State.spWrite_keeps (by assumption)
        assumption
    · assumption

theorem State.attnRows_keeps {s0 s1 : State} {a1 a2 a3 a4 a5 a6 a7} (hs1 : Keeps s0 s1) :
    KeepsL s0 (State.attnRows s1 a1 a2 a3 a4 a5 a6 a7) := by
  unfold State.attnRows
  split
  · refine KeepsL.of_eq (a := s0) (by assumption) ?_ (fun _ => ?_)
    · exact State.headPages_keeps (by assumption)
    exact keepsL_mk (by assumption)
  · refine KeepsL.of_eq (a := s0) (by assumption) ?_ (fun _ => ?_)
    · exact State.headPages_keeps (by assumption)
    extract_lets -merge -underBinder +onlyGivenNames x1
    clear_value x1
    exact keepsL_mk (State.count_keeps (by assumption))

theorem State.attnOver_keeps {s0 s1 : State} {a1 a2 a3 a4 a5 a6 a7} (hs1 : Keeps s0 s1) (ha7 : ∀ y0 y1, Keeps s0 y0 → Keeps s0 (a7 y0 y1)) :
    Keeps s0 (State.attnOver s1 a1 a2 a3 a4 a5 a6 a7) := by
  unfold State.attnOver
  split
  · refine KeepsL.of_eq (a := s0) (by assumption) ?_ (fun _ => ?_)
    · exact State.linGet_keeps (by assumption)
    exact State.finish_keeps (by assumption)
  · refine KeepsL.of_eq (a := s0) (by assumption) ?_ (fun _ => ?_)
    · exact State.linGet_keeps (by assumption)
    extract_lets -merge -underBinder +onlyGivenNames x1
    clear_value x1
    split
    · refine KeepsL.of_eq (a := s0) (by assumption) ?_ (fun _ => ?_)
      · exact State.attnRows_keeps (State.count_keeps (by assumption))
      exact State.finish_keeps (by assumption)
    · refine KeepsL.of_eq (a := s0) (by assumption) ?_ (fun _ => ?_)
      · exact State.attnRows_keeps (State.count_keeps (by assumption))
      refine ha7 _ _ ?_
      assumption

theorem State.attnRun_keeps {s0 s1 : State} {a1 a2 a3 a4 a5} (hs1 : Keeps s0 s1) :
    Keeps s0 (State.attnRun s1 a1 a2 a3 a4 a5) := by
  unfold State.attnRun
  extract_lets -merge -underBinder +onlyGivenNames x1
  clear_value x1
  refine keeps_ite ?_ ?_
  · refine State.attnOver_keeps ?_ (fun _ _ _ => ?_)
    · assumption
    · exact State.attnWrite_keeps (by assumption)
  · exact State.updRun_keeps (by assumption)

theorem State.attnPart_keeps {s0 s1 : State} {a1 a2 a3 a4 a5 a6} (hs1 : Keeps s0 s1) :
    Keeps s0 (State.attnPart s1 a1 a2 a3 a4 a5 a6) := by
  unfold State.attnPart
  split
  · exact State.finish_keeps (by assumption)
  · refine keeps_ite ?_ ?_
    · exact State.finish_keeps (by assumption)
    · split
      · exact State.finish_keeps (by assumption)
      · extract_lets -merge -underBinder +onlyGivenNames x1
        clear_value x1
        refine State.attnOver_keeps ?_ (fun _ _ _ => ?_)
        · assumption
        · split
          · refine KeepsL.of_eq (a := s0) (by assumption) ?_ (fun _ => ?_)
            · exact State.spWrite_keeps (by assumption)
            exact State.finish_keeps (by assumption)
          · refine KeepsL.of_eq (a := s0) (by assumption) ?_ (fun _ => ?_)
            · exact State.spWrite_keeps (by assumption)
            exact State.finish_keeps (State.worked_keeps (by assumption))

theorem State.attnOp_keeps {s0 s1 : State} {a1 a2 a3 a4} (hs1 : Keeps s0 s1) :
    KeepsD s0 (State.attnOp s1 a1 a2 a3 a4) := by
  unfold State.attnOp
  refine keepsD_bind (fun _ => ?_)
  refine keepsD_bind (fun _ => ?_)
  refine keepsD_mk (fun _ _ => ?_)
  refine keeps_ite ?_ ?_
  · assumption
  · exact State.attnRun_keeps (by assumption)

theorem execAttn_keeps {s0 : State} {a0 a1 a2 a3} {s5 : State} (hs5 : Keeps s0 s5) :
    KeepsN s0 (execAttn a0 a1 a2 a3 s5) := by
  unfold execAttn
  refine onTask_keeps ?_ (fun _ _ _ => ?_)
  · assumption
  · split
    · refine keeps_ite ?_ ?_
      · exact State.attnPart_keeps (by assumption)
      · assumption
    · refine State.operate_keeps ?_ (fun _ _ _ => ?_)
      · assumption
      · exact State.attnOp_keeps (by assumption)

theorem execAttnMerge_keeps {s0 : State} {a0 a1 a2 a3} {s5 : State} (hs5 : Keeps s0 s5) :
    KeepsN s0 (execAttnMerge a0 a1 a2 a3 s5) := by
  unfold execAttnMerge
  refine onTask_keeps ?_ (fun _ _ _ => ?_)
  · assumption
  · split
    · assumption
    · refine keeps_ite ?_ ?_
      · assumption
      · extract_lets -merge -underBinder +onlyGivenNames x1
        have hx1 : Keeps s0 x1 := by
          subst x1
          exact State.updRun_keeps (by assumption)
        clear_value x1
        split
        · exact State.finish_keeps (by assumption)
        · split
          · refine KeepsL.of_eq (a := s0) (by assumption) ?_ (fun _ => ?_)
            · exact State.linGet_keeps (by assumption)
            exact State.finish_keeps (by assumption)
          · refine KeepsL.of_eq (a := s0) (by assumption) ?_ (fun _ => ?_)
            · exact State.linGet_keeps (by assumption)
            exact State.moves_keeps (State.attnWrite_keeps (by assumption))

theorem State.linGets_keeps {s0 s1 : State} {a1 a2 a3 a4} (hs1 : Keeps s0 s1) :
    KeepsL s0 (State.linGets s1 a1 a2 a3 a4) := by
  unfold State.linGets
  refine keepsL_foldl (fun _ _ _ => ?_) ?_
  · split
    · exact keepsL_mk (by assumption)
    · split
      · refine KeepsL.of_eq (a := s0) (by assumption) ?_ (fun _ => ?_)
        · exact State.linGet_keeps (by assumption)
        exact keepsL_mk (by assumption)
      · refine KeepsL.of_eq (a := s0) (by assumption) ?_ (fun _ => ?_)
        · exact State.linGet_keeps (by assumption)
        exact keepsL_mk (by assumption)
  · exact keepsL_mk (by assumption)

theorem State.bwdWrite_keeps {s0 s1 : State} {a1 a2 a3 a4 a5} (hs1 : Keeps s0 s1) :
    Keeps s0 (State.bwdWrite s1 a1 a2 a3 a4 a5) := by
  unfold State.bwdWrite
  extract_lets -merge -underBinder +onlyGivenNames x1
  have hx1 : Keeps s0 x1 := by
    subst x1
    exact State.emptyRows_keeps (State.count_keeps (by assumption))
  clear_value x1
  split
  · refine KeepsL.of_eq (a := s0) (by assumption) ?_ (fun _ => ?_)
    · refine mvEach_keeps ?_ (fun _ _ _ => ?_)
      · assumption
      · refine keepsL_ite ?_ ?_
        · exact State.spWrite_keeps (by assumption)
        · exact keepsL_mk (by assumption)
    exact State.finish_keeps (by assumption)
  · refine KeepsL.of_eq (a := s0) (by assumption) ?_ (fun _ => ?_)
    · refine mvEach_keeps ?_ (fun _ _ _ => ?_)
      · assumption
      · refine keepsL_ite ?_ ?_
        · exact State.spWrite_keeps (by assumption)
        · exact keepsL_mk (by assumption)
    assumption

theorem State.bwdRun_keeps {s0 s1 : State} {a1 a2 a3 a4 a5 a6} (hs1 : Keeps s0 s1) :
    Keeps s0 (State.bwdRun s1 a1 a2 a3 a4 a5 a6) := by
  unfold State.bwdRun
  extract_lets -merge -underBinder +onlyGivenNames x1 x2
  clear_value x1 x2
  split
  · refine KeepsL.of_eq (a := s0) (by assumption) ?_ (fun _ => ?_)
    · exact State.linGets_keeps (by assumption)
    exact State.finish_keeps (by assumption)
  · refine KeepsL.of_eq (a := s0) (by assumption) ?_ (fun _ => ?_)
    · exact State.linGets_keeps (by assumption)
    split
    · refine KeepsL.of_eq (a := s0) (by assumption) ?_ (fun _ => ?_)
      · exact State.headPages_keeps (by assumption)
      exact State.finish_keeps (by assumption)
    · refine KeepsL.of_eq (a := s0) (by assumption) ?_ (fun _ => ?_)
      · exact State.headPages_keeps (by assumption)
      extract_lets -merge -underBinder +onlyGivenNames x3 x4
      clear_value x3 x4
      exact State.bwdWrite_keeps (State.count_keeps (by assumption))

theorem State.attnBwdOp_keeps {s0 s1 : State} {a1 a2 a3 a4} (hs1 : Keeps s0 s1) :
    KeepsD s0 (State.attnBwdOp s1 a1 a2 a3 a4) := by
  unfold State.attnBwdOp
  refine keepsD_bind (fun _ => ?_)
  refine keepsD_bind (fun _ => ?_)
  refine keepsD_bind (fun _ => ?_)
  refine keepsD_mk (fun _ _ => ?_)
  refine keeps_ite ?_ ?_
  · assumption
  · split
    · refine KeepsL.of_eq (a := s0) (by assumption) ?_ (fun _ => ?_)
      · exact State.linGet_keeps (by assumption)
      exact State.finish_keeps (by assumption)
    · refine KeepsL.of_eq (a := s0) (by assumption) ?_ (fun _ => ?_)
      · exact State.linGet_keeps (by assumption)
      refine keeps_ite ?_ ?_
      · exact State.finish_keeps (State.bump_keeps (State.raise_keeps (by assumption)))
      · refine keeps_ite ?_ ?_
        · exact State.finish_keeps (by assumption)
        · exact State.bwdRun_keeps (by assumption)

theorem execAttnBwd_keeps {s0 : State} {a0 a1 a2 a3} {s5 : State} (hs5 : Keeps s0 s5) :
    KeepsN s0 (execAttnBwd a0 a1 a2 a3 s5) := by
  unfold execAttnBwd
  refine onTask_keeps ?_ (fun _ _ _ => ?_)
  · assumption
  · refine State.operate_keeps ?_ (fun _ _ _ => ?_)
    · assumption
    · exact State.attnBwdOp_keeps (by assumption)

theorem State.updGroup_keeps {s0 s1 : State} {a1 a2} (hs1 : Keeps s0 s1) :
    Keeps s0 (State.updGroup s1 a1 a2) := by
  unfold State.updGroup
  exact State.updAdapt_keeps (by assumption)

theorem State.mastersGet_keeps {s0 s1 : State} {a1 a2 a3} (hs1 : Keeps s0 s1) :
    KeepsL s0 (State.mastersGet s1 a1 a2 a3) := by
  unfold State.mastersGet
  extract_lets -merge -underBinder +onlyGivenNames x1
  clear_value x1
  split
  · refine KeepsL.of_eq (a := s0) (by assumption) ?_ (fun _ => ?_)
    · exact State.eccRead_keeps (by assumption)
    extract_lets -merge -underBinder +onlyGivenNames x2
    clear_value x2
    exact keepsL_mk (by assumption)

theorem State.mastersPut_keeps {s0 s1 : State} {a1 a2 a3} (hs1 : Keeps s0 s1) :
    Keeps s0 (State.mastersPut s1 a1 a2 a3) := by
  unfold State.mastersPut
  exact State.stBytes_keeps (by assumption)

theorem State.adaptAccumOp_keeps {s0 s1 : State} {a1 a2 a3 a4} (hs1 : Keeps s0 s1) :
    KeepsD s0 (State.adaptAccumOp s1 a1 a2 a3 a4) := by
  unfold State.adaptAccumOp
  extract_lets -merge -underBinder +onlyGivenNames x1
  clear_value x1
  refine keepsD_bind (fun _ => ?_)
  refine keepsD_bind (fun _ => ?_)
  split
  · exact keepsD_error
  · refine keepsD_bind (fun _ => ?_)
    refine keepsD_bind (fun _ => ?_)
    refine keepsD_mk (fun _ _ => ?_)
    refine keeps_ite ?_ ?_
    · assumption
    · split
      · refine KeepsL.of_eq (a := s0) (by assumption) ?_ (fun _ => ?_)
        · exact State.linGet_keeps (by assumption)
        exact State.finish_keeps (by assumption)
      · refine KeepsL.of_eq (a := s0) (by assumption) ?_ (fun _ => ?_)
        · exact State.linGet_keeps (by assumption)
        split
        · refine KeepsL.of_eq (a := s0) (by assumption) ?_ (fun _ => ?_)
          · exact State.mastersGet_keeps (by assumption)
          exact State.finish_keeps (by assumption)
        · refine KeepsL.of_eq (a := s0) (by assumption) ?_ (fun _ => ?_)
          · exact State.mastersGet_keeps (by assumption)
          extract_lets -merge -underBinder +onlyGivenNames x2
          have hx2 : Keeps s0 x2 := by
            subst x2
            exact State.mastersPut_keeps (by assumption)
          clear_value x2
          extract_lets -merge -underBinder +onlyGivenNames x3
          have hx3 : Keeps s0 x3 := by
            subst x3
            refine keeps_ite ?_ ?_
            · assumption
            · exact State.updAccount_keeps (by assumption)
          clear_value x3
          exact State.updGroup_keeps (by assumption)

theorem execAdaptAccum_keeps {s0 : State} {a0 a1 a2 a3} {s5 : State} (hs5 : Keeps s0 s5) :
    KeepsN s0 (execAdaptAccum a0 a1 a2 a3 s5) := by
  unfold execAdaptAccum
  refine onTask_keeps ?_ (fun _ _ _ => ?_)
  · assumption
  · refine State.operate_keeps ?_ (fun _ _ _ => ?_)
    · assumption
    · exact State.adaptAccumOp_keeps (by assumption)

theorem State.adaptStepOp_keeps {s0 s1 : State} {a1 a2 a3 a4} (hs1 : Keeps s0 s1) :
    KeepsD s0 (State.adaptStepOp s1 a1 a2 a3 a4) := by
  unfold State.adaptStepOp
  extract_lets -merge -underBinder +onlyGivenNames x1
  clear_value x1
  refine keepsD_bind (fun _ => ?_)
  refine keepsD_bind (fun _ => ?_)
  split
  · exact keepsD_error
  · refine keepsD_bind (fun _ => ?_)
    refine keepsD_mk (fun _ _ => ?_)
    refine keeps_ite ?_ ?_
    · assumption
    · split
      · refine KeepsL.of_eq (a := s0) (by assumption) ?_ (fun _ => ?_)
        · exact State.mastersGet_keeps (by assumption)
        exact State.finish_keeps (by assumption)
      · refine KeepsL.of_eq (a := s0) (by assumption) ?_ (fun _ => ?_)
        · exact State.mastersGet_keeps (by assumption)
        extract_lets -merge -underBinder +onlyGivenNames x2
        have hx2 : Keeps s0 x2 := by
          subst x2
          exact State.updGroup_keeps (by assumption)
        clear_value x2
        refine keeps_ite ?_ ?_
        · exact State.raise_keeps (State.bumpHi_keeps (State.mastersPut_keeps (by assumption)))
        · exact State.updAdapt_keeps (State.mastersPut_keeps (by assumption))

theorem execAdaptStep_keeps {s0 : State} {a0 a1 a2 a3} {s5 : State} (hs5 : Keeps s0 s5) :
    KeepsN s0 (execAdaptStep a0 a1 a2 a3 s5) := by
  unfold execAdaptStep
  refine onTask_keeps ?_ (fun _ _ _ => ?_)
  · assumption
  · refine State.operate_keeps ?_ (fun _ _ _ => ?_)
    · assumption
    · exact State.adaptStepOp_keeps (by assumption)

theorem State.stageEpoch_keeps {s0 s1 : State} {a1} (hs1 : Keeps s0 s1) :
    Keeps s0 (State.stageEpoch s1 a1) := by
  unfold State.stageEpoch
  extract_lets -merge -underBinder +onlyGivenNames x1 x2 x3
  clear_value x1 x2 x3
  exact State.updBond_keeps (State.updAdapt_keeps (by assumption))

theorem State.commitBegin_keeps {s0 s1 : State} (hs1 : Keeps s0 s1) :
    Keeps s0 (State.commitBegin s1) := by
  unfold State.commitBegin
  refine keeps_ite ?_ ?_
  · exact State.updAdapt_keeps (by assumption)
  · assumption

theorem State.mastersAll_keeps {s0 s1 : State} (hs1 : Keeps s0 s1) :
    KeepsL s0 (State.mastersAll s1) := by
  unfold State.mastersAll
  refine keepsL_foldl (fun _ _ _ => ?_) ?_
  · split
    · refine KeepsL.of_eq (a := s0) (by assumption) ?_ (fun _ => ?_)
      · refine State.mastersGet_keeps ?_
        exact KeepsL.fst (by assumption)
      exact keepsL_mk (by assumption)
  · exact keepsL_mk (by assumption)

theorem execAdaptCommit_keeps {s0 : State} {a0} {s2 : State} (hs2 : Keeps s0 s2) :
    KeepsN s0 (execAdaptCommit a0 s2) := by
  unfold execAdaptCommit
  extract_lets -merge -underBinder +onlyGivenNames x1
  have hx1 : Keeps s0 x1 := by
    subst x1
    exact State.to_keeps (by assumption)
  clear_value x1
  refine guardNext_keeps ?_ (fun _ _ => ?_)
  · assumption
  · split
    · refine KeepsL.of_eq (a := s0) (by assumption) ?_ (fun _ => ?_)
      · exact State.mastersAll_keeps (State.updAdapt_keeps (by assumption))
      exact State.bumpLo_keeps (by assumption)
    · refine KeepsL.of_eq (a := s0) (by assumption) ?_ (fun _ => ?_)
      · exact State.mastersAll_keeps (State.updAdapt_keeps (by assumption))
      split
      · exact State.raise_keeps (State.bumpLo_keeps (by assumption))
      · exact State.raise_keeps (State.bump_keeps (State.updAdapt_keeps (State.stageEpoch_keeps (by assumption))))

theorem State.epochRollback_keeps {s0 s1 : State} (hs1 : Keeps s0 s1) :
    Keeps s0 (State.epochRollback s1) := by
  unfold State.epochRollback
  exact State.raise_keeps (State.regSet_keeps (State.stageEpoch_keeps (by assumption)))

theorem State.resetMasters_keeps {s0 s1 : State} (hs1 : Keeps s0 s1) :
    Keeps s0 (State.resetMasters s1) := by
  unfold State.resetMasters
  refine State.each_keeps ?_ (fun _ _ _ => ?_)
  · assumption
  · exact State.mastersPut_keeps (by assumption)

theorem State.kvClear_keeps {s0 s1 : State} {a1} (hs1 : Keeps s0 s1) :
    Keeps s0 (State.kvClear s1 a1) := by
  unfold State.kvClear
  extract_lets -merge -underBinder +onlyGivenNames x1
  have hx1 : Keeps s0 x1 := by
    subst x1
    refine State.each_keeps ?_ (fun _ _ _ => ?_)
    · assumption
    · exact State.regSet_keeps (by assumption)
  clear_value x1
  refine State.each_keeps ?_ (fun _ _ _ => ?_)
  · assumption
  · exact State.regSet_keeps (by assumption)

theorem State.kvCmd_keeps {s0 s1 : State} {a1 a2} (hs1 : Keeps s0 s1) :
    Keeps s0 (State.kvCmd s1 a1 a2) := by
  unfold State.kvCmd
  extract_lets -merge -underBinder +onlyGivenNames x1
  clear_value x1
  split
  · refine keeps_ite ?_ ?_
    · exact State.seqReset_keeps (by assumption)
    · assumption
  · refine keeps_ite ?_ ?_
    · exact State.seqClose_keeps (by assumption)
    · assumption
  · exact State.commitBegin_keeps (by assumption)
  · exact State.epochRollback_keeps (by assumption)
  · exact State.resetMasters_keeps (by assumption)
  · exact State.kvClear_keeps (by assumption)
  · assumption

theorem State.seqSel_keeps {s0 s1 : State} {a1 a2} (hs1 : Keeps s0 s1) :
    Keeps s0 (State.seqSel s1 a1 a2) := by
  unfold State.seqSel
  extract_lets -merge -underBinder +onlyGivenNames x1
  have hx1 : Keeps s0 x1 := by
    subst x1
    exact State.regSet_keeps (by assumption)
  clear_value x1
  refine State.each_keeps ?_ (fun _ _ _ => ?_)
  · assumption
  · exact State.regSet_keeps (by assumption)

theorem State.kvPageSel_keeps {s0 s1 : State} {a1 a2} (hs1 : Keeps s0 s1) :
    Keeps s0 (State.kvPageSel s1 a1 a2) := by
  unfold State.kvPageSel
  extract_lets -merge -underBinder +onlyGivenNames x1 x2
  clear_value x1 x2
  exact State.regSet_keeps (State.regSet_keeps (State.regSet_keeps (by assumption)))

end Sys2Proof.Machine
end

