-- ==== Sys2Proof/Laws/KeepsBond.lean ====
section
/-! SUPPORT. What the operations of Machine/Bond.lean keep (Laws/Keeps.lean). -/
namespace Sys2Proof.Machine
set_option Elab.async false

theorem State.sigFail_keeps {s0 s1 : State} (hs1 : Keeps s0 s1) :
    Keeps s0 (State.sigFail s1) := by
  unfold State.sigFail
  exact State.raise_keeps (State.bump_keeps (by assumption))

theorem State.admitNow_keeps {s0 s1 : State} (hs1 : Keeps s0 s1) :
    Keeps s0 (State.admitNow s1) := by
  unfold State.admitNow
  extract_lets -merge -underBinder +onlyGivenNames x1 x2 x3
  clear_value x1 x2
  have hx3 : Keeps s0 x3 := by
    subst x3
    refine keeps_ite ?_ ?_
    · exact State.sigFail_keeps (by assumption)
    · assumption
  clear_value x3
  extract_lets -merge -underBinder +onlyGivenNames x4
  have hx4 : Keeps s0 x4 := by
    subst x4
    exact State.updBond_keeps (by assumption)
  clear_value x4
  exact State.raise_keeps (by assumption)

theorem execAdmissionDone_keeps {s0 : State} {a0} {s2 : State} (hs2 : Keeps s0 s2) :
    KeepsN s0 (execAdmissionDone a0 s2) := by
  unfold execAdmissionDone
  extract_lets -merge -underBinder +onlyGivenNames x1
  have hx1 : Keeps s0 x1 := by
    subst x1
    exact State.to_keeps (by assumption)
  clear_value x1
  refine guardNext_keeps ?_ (fun _ _ => ?_)
  · assumption
  · refine keeps_ite ?_ ?_
    · extract_lets -merge -underBinder +onlyGivenNames x2
      have hx2 : Keeps s0 x2 := by
        subst x2
        exact State.admitNow_keeps (by assumption)
      clear_value x2
      extract_lets -merge -underBinder +onlyGivenNames x3
      clear_value x3
      exact State.answerDeferred_keeps (by assumption)
    · exact State.answerDeferred_keeps (by assumption)

theorem State.readmitDone_keeps {s0 s1 : State} {a1} (hs1 : Keeps s0 s1) :
    Keeps s0 (State.readmitDone s1 a1) := by
  unfold State.readmitDone
  extract_lets -merge -underBinder +onlyGivenNames x1 x2 x3 x4 x5 x6
  clear_value x1 x2 x3 x4 x5
  have hx6 : Keeps s0 x6 := by
    subst x6
    exact State.updBond_keeps (by assumption)
  clear_value x6
  extract_lets -merge -underBinder +onlyGivenNames x7
  have hx7 : Keeps s0 x7 := by
    subst x7
    refine keeps_ite ?_ ?_
    · exact State.raise_keeps (by assumption)
    · assumption
  clear_value x7
  refine keeps_ite ?_ ?_
  · exact State.raise_keeps (by assumption)
  · assumption

theorem State.emitCov_keeps {s0 s1 : State} {a1} (hs1 : Keeps s0 s1) :
    Keeps s0 (State.emitCov s1 a1) := by
  unfold State.emitCov
  extract_lets -merge -underBinder +onlyGivenNames x1
  have hx1 : Keeps s0 x1 := by
    subst x1
    exact State.bump_keeps (by assumption)
  clear_value x1
  extract_lets -merge -underBinder +onlyGivenNames x2 x3 x4 x5
  clear_value x2 x3 x4
  have hx5 : Keeps s0 x5 := by
    subst x5
    exact State.regSet_keeps (State.regSet_keeps (by assumption))
  clear_value x5
  extract_lets -merge -underBinder +onlyGivenNames x6
  have hx6 : Keeps s0 x6 := by
    subst x6
    exact State.emit_keeps (by assumption)
  clear_value x6
  exact State.raise_keeps (by assumption)

theorem State.emitCovs_keeps {s0 s1 : State} (hs1 : Keeps s0 s1) :
    Keeps s0 (State.emitCovs s1) := by
  unfold State.emitCovs
  extract_lets -merge -underBinder +onlyGivenNames x1 x2
  clear_value x1
  have hx2 : Keeps s0 x2 := by
    subst x2
    exact State.updBond_keeps (by assumption)
  clear_value x2
  split
  · extract_lets -merge -underBinder +onlyGivenNames x3 x4
    clear_value x3 x4
    refine State.each_keeps ?_ (fun _ _ _ => ?_)
    · assumption
    · exact State.emitCov_keeps (by assumption)

theorem State.takeReadmitted_keeps {s0 s1 : State} (hs1 : Keeps s0 s1) :
    Keeps s0 (State.takeReadmitted s1) := by
  unfold State.takeReadmitted
  split
  · assumption
  · exact State.raise_keeps (State.updBond_keeps (by assumption))

theorem State.selectVariant_keeps {s0 s1 : State} (hs1 : Keeps s0 s1) :
    Keeps s0 (State.selectVariant s1) := by
  unfold State.selectVariant
  extract_lets -merge -underBinder +onlyGivenNames x1 x2
  clear_value x1 x2
  split
  · extract_lets -merge -underBinder +onlyGivenNames x3
    have hx3 : Keeps s0 x3 := by
      subst x3
      exact State.updBond_keeps (by assumption)
    clear_value x3
    extract_lets -merge -underBinder +onlyGivenNames x4
    have hx4 : Keeps s0 x4 := by
      subst x4
      refine keeps_ite ?_ ?_
      · exact State.raise_keeps (by assumption)
      · assumption
    clear_value x4
    extract_lets -merge -underBinder +onlyGivenNames x5 x6 x7 x8 x9 x10 x11
    clear_value x5 x6 x7 x8 x9 x10
    have hx11 : Keeps s0 x11 := by
      subst x11
      exact State.updBond_keeps (by assumption)
    clear_value x11
    refine keeps_ite ?_ ?_
    · assumption
    · exact State.raise_keeps (State.bump_keeps (by assumption))

theorem State.switchEpoch_keeps {s0 s1 : State} (hs1 : Keeps s0 s1) :
    Keeps s0 (State.switchEpoch s1) := by
  unfold State.switchEpoch
  refine keeps_ite ?_ ?_
  · assumption
  · extract_lets -merge -underBinder +onlyGivenNames x1 x2 x3 x4 x5
    clear_value x1 x2 x3 x4
    have hx5 : Keeps s0 x5 := by
      subst x5
      refine State.each_keeps ?_ (fun _ _ _ => ?_)
      · assumption
      · exact State.stBytes_keeps (by assumption)
    clear_value x5
    extract_lets -merge -underBinder +onlyGivenNames x6
    have hx6 : Keeps s0 x6 := by
      subst x6
      exact State.updBond_keeps (by assumption)
    clear_value x6
    extract_lets -merge -underBinder +onlyGivenNames x7
    have hx7 : Keeps s0 x7 := by
      subst x7
      exact State.updAdapt_keeps (by assumption)
    clear_value x7
    extract_lets -merge -underBinder +onlyGivenNames x8
    have hx8 : Keeps s0 x8 := by
      subst x8
      refine State.updPlumb_keeps ?_ ?_
      · assumption
      · first | exact fun _ h => h | (intro _ h; split <;> exact h) | (intro _ h; simp_all [Plumb.Sized, lmod])
    clear_value x8
    refine State.each_keeps ?_ (fun _ _ _ => ?_)
    · assumption
    · exact State.raise_keeps (State.regSet_keeps (by assumption))

theorem State.planBegins_keeps {s0 s1 : State} {a1 a2} (hs1 : Keeps s0 s1) :
    Keeps s0 (State.planBegins s1 a1 a2) := by
  unfold State.planBegins
  refine keeps_ite ?_ ?_
  · assumption
  · extract_lets -merge -underBinder +onlyGivenNames x1
    have hx1 : Keeps s0 x1 := by
      subst x1
      exact State.updBond_keeps (by assumption)
    clear_value x1
    refine State.each_keeps ?_ (fun _ _ _ => ?_)
    · assumption
    · refine State.updDie_keeps ?_ ?_
      · assumption
      · first | exact fun _ h => h | (intro _ h; split <;> exact h) | (intro _ h; simp_all [Die.Sized, lmod])

theorem State.resumePairs_keeps {s0 s1 : State} {a1 a2} (hs1 : Keeps s0 s1) :
    Keeps s0 (State.resumePairs s1 a1 a2) := by
  unfold State.resumePairs
  refine keeps_ite ?_ ?_
  · assumption
  · extract_lets -merge -underBinder +onlyGivenNames x1 x2 x3
    clear_value x1 x2
    have hx3 : Keeps s0 x3 := by
      subst x3
      exact State.updBond_keeps (by assumption)
    clear_value x3
    refine State.each_keeps ?_ (fun _ _ _ => ?_)
    · assumption
    · refine State.updDie_keeps ?_ ?_
      · assumption
      · first | exact fun _ h => h | (intro _ h; split <;> exact h) | (intro _ h; simp_all [Die.Sized, lmod])

theorem State.releaseKeystone_keeps {s0 s1 : State} {a1 a2} (hs1 : Keeps s0 s1) :
    Keeps s0 (State.releaseKeystone s1 a1 a2) := by
  unfold State.releaseKeystone
  extract_lets -merge -underBinder +onlyGivenNames x1
  clear_value x1
  split
  · assumption
  · refine keeps_ite ?_ ?_
    · assumption
    · extract_lets -merge -underBinder +onlyGivenNames x2 x3
      clear_value x2
      have hx3 : Keeps s0 x3 := by
        subst x3
        refine State.updPlumb_keeps ?_ ?_
        · assumption
        · first | exact fun _ h => h | (intro _ h; split <;> exact h) | (intro _ h; simp_all [Plumb.Sized, lmod])
      clear_value x3
      exact State.enterGraph_keeps (by assumption)

theorem State.crossSettle_keeps {s0 s1 : State} (hs1 : Keeps s0 s1) :
    Keeps s0 (State.crossSettle s1) := by
  unfold State.crossSettle
  extract_lets -merge -underBinder +onlyGivenNames x1
  clear_value x1
  exact State.updBond_keeps (by assumption)

theorem State.releaseFrames_keeps {s0 s1 : State} {a1 a2} (hs1 : Keeps s0 s1) :
    Keeps s0 (State.releaseFrames s1 a1 a2) := by
  unfold State.releaseFrames
  extract_lets -merge -underBinder +onlyGivenNames x1 x2 x3
  clear_value x1 x2
  have hx3 : Keeps s0 x3 := by
    subst x3
    refine State.each_keeps ?_ (fun _ _ _ => ?_)
    · assumption
    · exact State.addGraph_keeps (by assumption)
  clear_value x3
  refine State.each_keeps ?_ (fun _ _ _ => ?_)
  · exact State.crossSettle_keeps (by assumption)
  · exact State.startGraph_keeps (by assumption)

theorem State.coreClear_keeps {s0 s1 : State} {a1 a2} (hs1 : Keeps s0 s1) :
    Keeps s0 (State.coreClear s1 a1 a2) := by
  unfold State.coreClear
  exact State.updCore_keeps (State.zero_keeps (by assumption))

theorem State.switchCores_keeps {s0 s1 : State} {s2 : State} (hs1 : Keeps s0 s1) (_ : Keeps s0 s2) :
    Keeps s0 (State.switchCores s1 s2) := by
  unfold State.switchCores
  refine State.each_keeps ?_ (fun _ _ _ => ?_)
  · assumption
  · refine State.each_keeps ?_ (fun _ _ _ => ?_)
    · assumption
    · split
      · refine keeps_ite ?_ ?_
        · assumption
        · exact State.coreClear_keeps (by assumption)
      · assumption

theorem State.frameStep_keeps {s0 s1 : State} {a1 a2} (hs1 : Keeps s0 s1) :
    Keeps s0 (State.frameStep s1 a1 a2) := by
  unfold State.frameStep
  extract_lets -merge -underBinder +onlyGivenNames x1
  have hx1 : Keeps s0 x1 := by
    subst x1
    exact State.updBond_keeps (State.emitCovs_keeps (by assumption))
  clear_value x1
  extract_lets -merge -underBinder +onlyGivenNames x2
  have hx2 : Keeps s0 x2 := by
    subst x2
    assumption
  clear_value x2
  extract_lets -merge -underBinder +onlyGivenNames x3
  have hx3 : Keeps s0 x3 := by
    subst x3
    exact State.takeReadmitted_keeps (State.planBegins_keeps (by assumption))
  clear_value x3
  extract_lets -merge -underBinder +onlyGivenNames x4
  have hx4 : Keeps s0 x4 := by
    subst x4
    refine keeps_ite ?_ ?_
    · exact State.selectVariant_keeps (by assumption)
    · assumption
  clear_value x4
  extract_lets -merge -underBinder +onlyGivenNames x5
  have hx5 : Keeps s0 x5 := by
    subst x5
    refine State.resumePairs_keeps ?_
    refine State.switchEpoch_keeps ?_
    refine State.switchCores_keeps ?_ ?_
    · assumption
    · assumption
  clear_value x5
  extract_lets -merge -underBinder +onlyGivenNames x6
  have hx6 : Keeps s0 x6 := by
    subst x6
    refine keeps_ite ?_ ?_
    · assumption
    · exact State.refresh_keeps (by assumption)
  clear_value x6
  extract_lets -merge -underBinder +onlyGivenNames x7 x8
  clear_value x7
  have hx8 : Keeps s0 x8 := by
    subst x8
    refine keeps_ite ?_ ?_
    · exact State.commitBegin_keeps (by assumption)
    · assumption
  clear_value x8
  refine keeps_ite ?_ ?_
  · exact State.releaseFrames_keeps (State.releaseKeystone_keeps (by assumption))
  · assumption

theorem execFrameBoundary_keeps {s0 : State} {a0} {s2 : State} (hs2 : Keeps s0 s2) :
    KeepsN s0 (execFrameBoundary a0 s2) := by
  unfold execFrameBoundary
  extract_lets -merge -underBinder +onlyGivenNames x1
  have hx1 : Keeps s0 x1 := by
    subst x1
    exact State.to_keeps (by assumption)
  clear_value x1
  split
  · exact keepsN_next (by assumption)
  · extract_lets -merge -underBinder +onlyGivenNames x2
    clear_value x2
    refine guardNext_keeps ?_ (fun _ _ => ?_)
    · assumption
    · exact State.frameStep_keeps (by assumption)

theorem execPlanStopDone_keeps {s0 : State} {a0} {s2 : State} (hs2 : Keeps s0 s2) :
    KeepsN s0 (execPlanStopDone a0 s2) := by
  unfold execPlanStopDone
  extract_lets -merge -underBinder +onlyGivenNames x1
  have hx1 : Keeps s0 x1 := by
    subst x1
    exact State.to_keeps (by assumption)
  clear_value x1
  refine guardNext_keeps ?_ (fun _ _ => ?_)
  · assumption
  · extract_lets -merge -underBinder +onlyGivenNames x2
    have hx2 : Keeps s0 x2 := by
      subst x2
      assumption
    clear_value x2
    extract_lets -merge -underBinder +onlyGivenNames x3
    have hx3 : Keeps s0 x3 := by
      subst x3
      exact State.updBond_keeps (by assumption)
    clear_value x3
    refine State.switchCores_keeps ?_ ?_
    · refine State.each_keeps ?_ (fun _ _ _ => ?_)
      · assumption
      · refine State.updDie_keeps ?_ ?_
        · assumption
        · first | exact fun _ h => h | (intro _ h; split <;> exact h) | (intro _ h; simp_all [Die.Sized, lmod])
    · assumption

theorem execAccountingPeriod_keeps {s0 : State} {a0} {s2 : State} (hs2 : Keeps s0 s2) :
    KeepsN s0 (execAccountingPeriod a0 s2) := by
  unfold execAccountingPeriod
  extract_lets -merge -underBinder +onlyGivenNames x1
  have hx1 : Keeps s0 x1 := by
    subst x1
    exact State.to_keeps (by assumption)
  clear_value x1
  refine guardNext_keeps ?_ (fun _ _ => ?_)
  · assumption
  · extract_lets -merge -underBinder +onlyGivenNames x2
    clear_value x2
    exact State.bump_keeps (State.updBond_keeps (by assumption))

theorem State.acctSel_keeps {s0 s1 : State} {a1} (hs1 : Keeps s0 s1) :
    Keeps s0 (State.acctSel s1 a1) := by
  unfold State.acctSel
  extract_lets -merge -underBinder +onlyGivenNames x1
  have hx1 : Keeps s0 x1 := by
    subst x1
    exact State.regSet_keeps (by assumption)
  clear_value x1
  extract_lets -merge -underBinder +onlyGivenNames x2
  clear_value x2
  refine State.each_keeps ?_ (fun _ _ _ => ?_)
  · assumption
  · split
    · exact State.regSet_keeps (by assumption)

theorem State.bondCmd_keeps {s0 s1 : State} {a1} (hs1 : Keeps s0 s1) :
    Keeps s0 (State.bondCmd s1 a1) := by
  unfold State.bondCmd
  split
  · exact State.readmit_keeps (by assumption)
  · extract_lets -merge -underBinder +onlyGivenNames x1
    have hx1 : Keeps s0 x1 := by
      subst x1
      refine State.each_keeps ?_ (fun _ _ _ => ?_)
      · assumption
      · exact State.regSet_keeps (by assumption)
    clear_value x1
    exact State.updBond_keeps (by assumption)
  · assumption

end Sys2Proof.Machine
end

