-- ==== Sys2Proof/Laws/KeepsMem.lean ====
section
/-! SUPPORT. What the operations of Machine/Mem.lean keep (Laws/Keeps.lean). -/
namespace Sys2Proof.Machine
set_option Elab.async false

theorem execLintelScrub_keeps {s0 : State} {a0 a1} {s3 : State} (hs3 : Keeps s0 s3) :
    KeepsN s0 (execLintelScrub a0 a1 s3) := by
  unfold execLintelScrub
  extract_lets -merge -underBinder +onlyGivenNames x1
  have hx1 : Keeps s0 x1 := by
    subst x1
    exact State.to_keeps (by assumption)
  clear_value x1
  refine guardNext_keeps ?_ (fun _ _ => ?_)
  · assumption
  · exact KeepsL.fst (State.eccRead_keeps (by assumption))

theorem execQuarryScrub_keeps {s0 : State} {a0} {s2 : State} (hs2 : Keeps s0 s2) :
    KeepsN s0 (execQuarryScrub a0 s2) := by
  unfold execQuarryScrub
  extract_lets -merge -underBinder +onlyGivenNames x1
  have hx1 : Keeps s0 x1 := by
    subst x1
    exact State.to_keeps (by assumption)
  clear_value x1
  refine guardNext_keeps ?_ (fun _ _ => ?_)
  · assumption
  · extract_lets -merge -underBinder +onlyGivenNames x2
    clear_value x2
    split
    · assumption
    · refine State.updMt_keeps ?_ ?_
      · exact State.queueBursts_keeps (by assumption)
      · first | exact fun _ h => h | (intro _ h; split <;> exact h) | (intro _ h; simp_all [MemTier.Sized, lmod])

theorem State.burstRead_keeps {s0 s1 : State} {a1 a2} (hs1 : Keeps s0 s1) :
    Keeps s0 (State.burstRead s1 a1 a2) := by
  unfold State.burstRead
  refine State.each_keeps ?_ (fun _ _ _ => ?_)
  · assumption
  · refine keeps_ite ?_ ?_
    · extract_lets -merge -underBinder +onlyGivenNames x1
      have hx1 : Keeps s0 x1 := by
        subst x1
        refine State.updTest_keeps ?_ ?_
        · exact State.raise_keeps (State.bumpHi_keeps (by assumption))
        · first | exact fun _ h => h | (intro _ h; split <;> exact h) | (intro _ h; simp_all [Test.Sized, lmod])
      clear_value x1
      refine keeps_ite ?_ ?_
      · exact State.queueBurst_keeps (by assumption)
      · assumption
    · extract_lets -merge -underBinder +onlyGivenNames x2
      have hx2 : Keeps s0 x2 := by
        subst x2
        exact State.raise_keeps (State.bumpLo_keeps (by assumption))
      clear_value x2
      extract_lets -merge -underBinder +onlyGivenNames x3
      have hx3 : Keeps s0 x3 := by
        subst x3
        exact State.burstErr_keeps (by assumption)
      clear_value x3
      extract_lets -merge -underBinder +onlyGivenNames x4 x5
      clear_value x4
      have hx5 : Keeps s0 x5 := by
        subst x5
        exact State.updQch_keeps (by assumption)
      clear_value x5
      refine keeps_ite ?_ ?_
      · exact State.qchExclude_keeps (by assumption)
      · assumption

theorem State.burstWrite_keeps {s0 s1 : State} {a1 a2} (hs1 : Keeps s0 s1) :
    Keeps s0 (State.burstWrite s1 a1 a2) := by
  unfold State.burstWrite
  refine State.each_keeps ?_ (fun _ _ _ => ?_)
  · assumption
  · refine keeps_ite ?_ ?_
    · exact State.unflip_keeps (by assumption)
    · assumption

theorem execQuarryBurst_keeps {s0 : State} {a0 a1} {s3 : State} (hs3 : Keeps s0 s3) :
    KeepsN s0 (execQuarryBurst a0 a1 s3) := by
  unfold execQuarryBurst
  extract_lets -merge -underBinder +onlyGivenNames x1
  have hx1 : Keeps s0 x1 := by
    subst x1
    exact State.to_keeps (by assumption)
  clear_value x1
  extract_lets -merge -underBinder +onlyGivenNames x2
  clear_value x2
  refine guardNext_keeps ?_ (fun _ _ => ?_)
  · assumption
  · split
    · assumption
    · split
      · assumption
      · extract_lets -merge -underBinder +onlyGivenNames x3
        have hx3 : Keeps s0 x3 := by
          subst x3
          exact State.bump_keeps (State.updQch_keeps (by assumption))
        clear_value x3
        refine keeps_ite ?_ ?_
        · exact State.burstWrite_keeps (by assumption)
        · exact State.burstRead_keeps (by assumption)

theorem execBurstTimeout_keeps {s0 : State} {a0 a1} {s3 : State} (hs3 : Keeps s0 s3) :
    KeepsN s0 (execBurstTimeout a0 a1 s3) := by
  unfold execBurstTimeout
  extract_lets -merge -underBinder +onlyGivenNames x1
  have hx1 : Keeps s0 x1 := by
    subst x1
    exact State.to_keeps (by assumption)
  clear_value x1
  extract_lets -merge -underBinder +onlyGivenNames x2
  clear_value x2
  refine guardNext_keeps ?_ (fun _ _ => ?_)
  · assumption
  · exact State.qchExclude_keeps (State.bump_keeps (by assumption))

theorem execLostMarkingDone_keeps {s0 : State} {a0} {s2 : State} (hs2 : Keeps s0 s2) :
    KeepsN s0 (execLostMarkingDone a0 s2) := by
  unfold execLostMarkingDone
  extract_lets -merge -underBinder +onlyGivenNames x1
  have hx1 : Keeps s0 x1 := by
    subst x1
    exact State.to_keeps (by assumption)
  clear_value x1
  refine guardNext_keeps ?_ (fun _ _ => ?_)
  · assumption
  · extract_lets -merge -underBinder +onlyGivenNames x2
    have hx2 : Keeps s0 x2 := by
      subst x2
      refine State.updMt_keeps ?_ ?_
      · exact State.markLost_keeps (by assumption)
      · first | exact fun _ h => h | (intro _ h; split <;> exact h) | (intro _ h; simp_all [MemTier.Sized, lmod])
    clear_value x2
    refine keeps_ite ?_ ?_
    · exact State.remapLost_keeps (by assumption)
    · assumption

theorem execMigrationPeriod_keeps {s0 : State} {a0} {s2 : State} (hs2 : Keeps s0 s2) :
    KeepsN s0 (execMigrationPeriod a0 s2) := by
  unfold execMigrationPeriod
  extract_lets -merge -underBinder +onlyGivenNames x1
  have hx1 : Keeps s0 x1 := by
    subst x1
    exact State.to_keeps (by assumption)
  clear_value x1
  refine guardNext_keeps ?_ (fun _ _ => ?_)
  · assumption
  · refine State.each_keeps ?_ (fun _ _ _ => ?_)
    · assumption
    · exact State.migrate_keeps (by assumption)

theorem execMigrationMoveDone_keeps {s0 : State} {a0 a1} {s3 : State} (hs3 : Keeps s0 s3) :
    KeepsN s0 (execMigrationMoveDone a0 a1 s3) := by
  unfold execMigrationMoveDone
  exact keepsN_next (State.moveDone_keeps (State.to_keeps (by assumption)))

theorem execQchWear_keeps {s0 : State} {a0} {s2 : State} (hs2 : Keeps s0 s2) :
    KeepsN s0 (execQchWear a0 s2) := by
  unfold execQchWear
  extract_lets -merge -underBinder +onlyGivenNames x1
  have hx1 : Keeps s0 x1 := by
    subst x1
    exact State.to_keeps (by assumption)
  clear_value x1
  extract_lets -merge -underBinder +onlyGivenNames x2 x3
  clear_value x2
  have hx3 : Keeps s0 x3 := by
    subst x3
    refine keeps_ite ?_ ?_
    · exact State.raise_keeps (by assumption)
    · assumption
  clear_value x3
  refine keepsN_next ?_
  refine State.updTest_keeps ?_ ?_
  · assumption
  · first | exact fun _ h => h | (intro _ h; split <;> exact h) | (intro _ h; simp_all [Test.Sized, lmod])

end Sys2Proof.Machine
end

