-- ==== Sys2Proof/Laws/KeepsLineCore.lean ====
section
/-! SUPPORT. What the operations of Machine/LineCore.lean keep (Laws/Keeps.lean). -/
namespace Sys2Proof.Machine
set_option Elab.async false

theorem State.dacApply_keeps {s0 s1 : State} {a1 a2} (hs1 : Keeps s0 s1) :
    Keeps s0 (State.dacApply s1 a1 a2) := by
  unfold State.dacApply
  refine keeps_ite ?_ ?_
  · assumption
  · extract_lets -merge -underBinder +onlyGivenNames x1
    have hx1 : Keeps s0 x1 := by
      subst x1
      exact State.updTarget_keeps (by assumption)
    clear_value x1
    refine State.updLine_keeps ?_ ?_
    · assumption
    · first | exact fun _ h => h | (intro _ h; split <;> exact h) | (intro _ h; simp_all [Line.Sized, lmod])

theorem State.axDrive_keeps {s0 s1 : State} {a1 a2} (hs1 : Keeps s0 s1) :
    Keeps s0 (State.axDrive s1 a1 a2) := by
  unfold State.axDrive
  extract_lets -merge -underBinder +onlyGivenNames x1
  have hx1 : Keeps s0 x1 := by
    subst x1
    exact State.regSet_keeps (State.updAx_keeps (by assumption))
  clear_value x1
  extract_lets -merge -underBinder +onlyGivenNames x2
  have hx2 : Keeps s0 x2 := by
    subst x2
    exact State.updTarget_keeps (by assumption)
  clear_value x2
  split
  · refine keeps_ite ?_ ?_
    · assumption
    · exact State.dacApply_keeps (by assumption)
  · assumption

theorem State.stepPeriod_keeps {s0 s1 : State} {a1} (hs1 : Keeps s0 s1) :
    Keeps s0 (State.stepPeriod s1 a1) := by
  unfold State.stepPeriod
  refine keeps_ite ?_ ?_
  · assumption
  · extract_lets -merge -underBinder +onlyGivenNames x1 x2
    clear_value x1 x2
    exact State.updAx_keeps (by assumption)

theorem State.axFault_keeps {s0 s1 : State} {a1 a2} (hs1 : Keeps s0 s1) :
    Keeps s0 (State.axFault s1 a1 a2) := by
  unfold State.axFault
  refine keeps_ite ?_ ?_
  · assumption
  · extract_lets -merge -underBinder +onlyGivenNames x1 x2
    clear_value x1
    have hx2 : Keeps s0 x2 := by
      subst x2
      exact State.updAx_keeps (by assumption)
    clear_value x2
    extract_lets -merge -underBinder +onlyGivenNames x3
    have hx3 : Keeps s0 x3 := by
      subst x3
      refine keeps_ite ?_ ?_
      · exact State.raise_keeps (by assumption)
      · assumption
    clear_value x3
    extract_lets -merge -underBinder +onlyGivenNames x4
    have hx4 : Keeps s0 x4 := by
      subst x4
      exact State.raise_keeps (by assumption)
    clear_value x4
    split
    · refine keeps_ite ?_ ?_
      · exact State.axDrive_keeps (by assumption)
      · exact State.updAx_keeps (by assumption)
    · exact State.axDrive_keeps (by assumption)
    · exact State.axDrive_keeps (by assumption)

theorem State.rampTick_keeps {s0 s1 : State} {a1} (hs1 : Keeps s0 s1) :
    Keeps s0 (State.rampTick s1 a1) := by
  unfold State.rampTick
  split
  · assumption
  · extract_lets -merge -underBinder +onlyGivenNames x1 x2
    clear_value x1 x2
    refine keeps_ite ?_ ?_
    · exact State.axDrive_keeps (State.updAx_keeps (by assumption))
    · exact State.axDrive_keeps (by assumption)

theorem State.fbFault_keeps {s0 s1 : State} {a1} (hs1 : Keeps s0 s1) :
    Keeps s0 (State.fbFault s1 a1) := by
  unfold State.fbFault
  exact State.axFault_keeps (State.raise_keeps (by assumption))

theorem State.grpZero_keeps {s0 s1 : State} {a1 a2} (hs1 : Keeps s0 s1) :
    Keeps s0 (State.grpZero s1 a1 a2) := by
  unfold State.grpZero
  exact State.regSet_keeps (State.updAxGrp_keeps (by assumption))

theorem State.axEnable_keeps {s0 s1 : State} {a1} (hs1 : Keeps s0 s1) :
    Keeps s0 (State.axEnable s1 a1) := by
  unfold State.axEnable
  extract_lets -merge -underBinder +onlyGivenNames x1
  have hx1 : Keeps s0 x1 := by
    subst x1
    exact State.updAx_keeps (by assumption)
  clear_value x1
  extract_lets -merge -underBinder +onlyGivenNames x2
  have hx2 : Keeps s0 x2 := by
    subst x2
    split
    · exact State.grpZero_keeps (by assumption)
    · assumption
  clear_value x2
  exact State.axDrive_keeps (by assumption)

theorem State.cmdEnable_keeps {s0 s1 : State} {a1} (hs1 : Keeps s0 s1) :
    Keeps s0 (State.cmdEnable s1 a1) := by
  unfold State.cmdEnable
  refine keeps_ite ?_ ?_
  · assumption
  · refine keeps_ite ?_ ?_
    · exact State.raise_keeps (by assumption)
    · exact State.axEnable_keeps (by assumption)

theorem State.cmdDisable_keeps {s0 s1 : State} {a1} (hs1 : Keeps s0 s1) :
    Keeps s0 (State.cmdDisable s1 a1) := by
  unfold State.cmdDisable
  extract_lets -merge -underBinder +onlyGivenNames x1
  have hx1 : Keeps s0 x1 := by
    subst x1
    exact State.updAx_keeps (by assumption)
  clear_value x1
  exact State.axDrive_keeps (by assumption)

theorem State.cmdClearFault_keeps {s0 s1 : State} {a1} (hs1 : Keeps s0 s1) :
    Keeps s0 (State.cmdClearFault s1 a1) := by
  unfold State.cmdClearFault
  refine keeps_ite ?_ ?_
  · assumption
  · exact State.axDrive_keeps (State.updAx_keeps (by assumption))

theorem State.cmdHome_keeps {s0 s1 : State} {a1} (hs1 : Keeps s0 s1) :
    Keeps s0 (State.cmdHome s1 a1) := by
  unfold State.cmdHome
  extract_lets -merge -underBinder +onlyGivenNames x1
  clear_value x1
  refine keeps_ite ?_ ?_
  · exact State.updAx_keeps (by assumption)
  · assumption

theorem State.cmdResetState_keeps {s0 s1 : State} {a1} (hs1 : Keeps s0 s1) :
    Keeps s0 (State.cmdResetState s1 a1) := by
  unfold State.cmdResetState
  exact State.updAx_keeps (by assumption)

theorem State.cmdResync_keeps {s0 s1 : State} {a1} (hs1 : Keeps s0 s1) :
    Keeps s0 (State.cmdResync s1 a1) := by
  unfold State.cmdResync
  exact State.updAx_keeps (by assumption)

theorem State.regear_keeps {s0 s1 : State} {a1 a2} (hs1 : Keeps s0 s1) :
    Keeps s0 (State.regear s1 a1 a2) := by
  unfold State.regear
  refine keeps_ite ?_ ?_
  · assumption
  · extract_lets -merge -underBinder +onlyGivenNames x1
    have hx1 : Keeps s0 x1 := by
      subst x1
      refine keeps_ite ?_ ?_
      · exact State.raise_keeps (by assumption)
      · assumption
    clear_value x1
    exact State.updAx_keeps (by assumption)

theorem State.lineOn_keeps {s0 s1 : State} (hs1 : Keeps s0 s1) :
    Keeps s0 (State.lineOn s1) := by
  unfold State.lineOn
  refine State.updLine_keeps ?_ ?_
  · assumption
  · first | exact fun _ h => h | (intro _ h; split <;> exact h) | (intro _ h; simp_all [Line.Sized, lmod])

theorem State.lineOff_keeps {s0 s1 : State} (hs1 : Keeps s0 s1) :
    Keeps s0 (State.lineOff s1) := by
  unfold State.lineOff
  extract_lets -merge -underBinder +onlyGivenNames x1
  have hx1 : Keeps s0 x1 := by
    subst x1
    refine State.updLine_keeps ?_ ?_
    · assumption
    · first | exact fun _ h => h | (intro _ h; split <;> exact h) | (intro _ h; simp_all [Line.Sized, lmod])
  clear_value x1
  refine State.each_keeps ?_ (fun _ _ _ => ?_)
  · assumption
  · exact State.axDrive_keeps (by assumption)

end Sys2Proof.Machine
end

