-- ==== Sys2Proof/Laws/KeepsMotionCore.lean ====
section
/-! SUPPORT. What the operations of Machine/MotionCore.lean keep (Laws/Keeps.lean). -/
namespace Sys2Proof.Machine
set_option Elab.async false

theorem State.endReq_keeps {s0 s1 : State} {a1 a2 a3} (hs1 : Keeps s0 s1) :
    Keeps s0 (State.endReq s1 a1 a2 a3) := by
  unfold State.endReq
  extract_lets -merge -underBinder +onlyGivenNames x1 x2
  clear_value x1
  have hx2 : Keeps s0 x2 := by
    subst x2
    refine State.updLine_keeps ?_ ?_
    · assumption
    · first | exact fun _ h => h | (intro _ h; split <;> exact h) | (intro _ h; simp_all [Line.Sized, lmod])
  clear_value x2
  extract_lets -merge -underBinder +onlyGivenNames x3
  have hx3 : Keeps s0 x3 := by
    subst x3
    refine keeps_ite ?_ ?_
    · assumption
    · exact State.updCar_keeps (by assumption)
  clear_value x3
  extract_lets -merge -underBinder +onlyGivenNames x4
  have hx4 : Keeps s0 x4 := by
    subst x4
    exact State.emit_keeps (by assumption)
  clear_value x4
  extract_lets -merge -underBinder +onlyGivenNames x5
  have hx5 : Keeps s0 x5 := by
    subst x5
    refine keeps_ite ?_ ?_
    · exact State.raise_keeps (State.bump_keeps (by assumption))
    · assumption
  clear_value x5
  extract_lets -merge -underBinder +onlyGivenNames x6
  have hx6 : Keeps s0 x6 := by
    subst x6
    refine keeps_ite ?_ ?_
    · exact State.raise_keeps (by assumption)
    · assumption
  clear_value x6
  exact State.watchKick_keeps (by assumption)

theorem State.dropBatch_keeps {s0 s1 : State} {a1} (hs1 : Keeps s0 s1) :
    Keeps s0 (State.dropBatch s1 a1) := by
  unfold State.dropBatch
  refine State.updLine_keeps ?_ ?_
  · assumption
  · first | exact fun _ h => h | (intro _ h; split <;> exact h) | (intro _ h; simp_all [Line.Sized, lmod])

theorem State.endHead_keeps {s0 s1 : State} {a1 a2 a3} (hs1 : Keeps s0 s1) :
    Keeps s0 (State.endHead s1 a1 a2 a3) := by
  unfold State.endHead
  split
  · assumption
  · exact State.endReq_keeps (State.updCar_keeps (State.dropBatch_keeps (by assumption)))

theorem State.endQueued_keeps {s0 s1 : State} {a1 a2 a3} (hs1 : Keeps s0 s1) :
    Keeps s0 (State.endQueued s1 a1 a2 a3) := by
  unfold State.endQueued
  extract_lets -merge -underBinder +onlyGivenNames x1 x2
  clear_value x1
  have hx2 : Keeps s0 x2 := by
    subst x2
    exact State.updCar_keeps (by assumption)
  clear_value x2
  refine State.each_keeps ?_ (fun _ _ _ => ?_)
  · assumption
  · exact State.endReq_keeps (by assumption)

theorem State.carLost_keeps {s0 s1 : State} {a1 a2} (hs1 : Keeps s0 s1) :
    Keeps s0 (State.carLost s1 a1 a2) := by
  unfold State.carLost
  extract_lets -merge -underBinder +onlyGivenNames x1
  have hx1 : Keeps s0 x1 := by
    subst x1
    exact State.updCar_keeps (State.dropBatch_keeps (by assumption))
  clear_value x1
  exact State.raise_keeps (State.endQueued_keeps (by assumption))

theorem State.carCheck1_keeps {s0 s1 : State} {a1} (hs1 : Keeps s0 s1) :
    Keeps s0 (State.carCheck1 s1 a1) := by
  unfold State.carCheck1
  extract_lets -merge -underBinder +onlyGivenNames x1 x2 x3
  clear_value x1 x2 x3
  refine keeps_ite ?_ ?_
  · refine keeps_ite ?_ ?_
    · assumption
    · exact State.updCar_keeps (by assumption)
  · refine keeps_ite ?_ ?_
    · exact State.carLost_keeps (by assumption)
    · exact State.updCar_keeps (by assumption)

theorem State.carCheck_keeps {s0 s1 : State} (hs1 : Keeps s0 s1) :
    Keeps s0 (State.carCheck s1) := by
  unfold State.carCheck
  refine State.each_keeps ?_ (fun _ _ _ => ?_)
  · assumption
  · exact State.carCheck1_keeps (by assumption)

theorem State.queueReq_keeps {s0 s1 : State} {a1} (hs1 : Keeps s0 s1) :
    Keeps s0 (State.queueReq s1 a1) := by
  unfold State.queueReq
  extract_lets -merge -underBinder +onlyGivenNames x1 x2 x3
  clear_value x1 x2
  have hx3 : Keeps s0 x3 := by
    subst x3
    refine State.watchRef_keeps ?_
    refine State.updLine_keeps ?_ ?_
    · assumption
    · first | exact fun _ h => h | (intro _ h; split <;> exact h) | (intro _ h; simp_all [Line.Sized, lmod])
  clear_value x3
  refine keeps_ite ?_ ?_
  · exact State.endReq_keeps (by assumption)
  · refine keeps_ite ?_ ?_
    · exact State.endReq_keeps (by assumption)
    · refine keeps_ite ?_ ?_
      · exact State.endReq_keeps (State.raise_keeps (by assumption))
      · exact State.updCar_keeps (by assumption)

theorem State.takeReq_keeps {s0 s1 : State} {a1 a2} (hs1 : Keeps s0 s1) :
    Keeps s0 (State.takeReq s1 a1 a2) := by
  unfold State.takeReq
  extract_lets -merge -underBinder +onlyGivenNames x1
  have hx1 : Keeps s0 x1 := by
    subst x1
    refine State.updLine_keeps ?_ ?_
    · exact State.bump_keeps (by assumption)
    · first | exact fun _ h => h | (intro _ h; split <;> exact h) | (intro _ h; simp_all [Line.Sized, lmod])
  clear_value x1
  extract_lets -merge -underBinder +onlyGivenNames x2
  clear_value x2
  refine keeps_ite ?_ ?_
  · exact State.endReq_keeps (State.raise_keeps (State.bumpHi_keeps (by assumption)))
  · split
    · exact State.regSet_keeps (by assumption)
    · split
      · assumption
      · split
        · exact State.endReq_keeps (State.updCar_keeps (by assumption))
        · assumption
    · exact State.queueReq_keeps (by assumption)

theorem State.takeRing_keeps {s0 s1 : State} {a1 a2 a3 a4} (hs1 : Keeps s0 s1) :
    Keeps s0 (State.takeRing s1 a1 a2 a3 a4) := by
  unfold State.takeRing
  refine State.each_keeps ?_ (fun _ _ _ => ?_)
  · assumption
  · exact State.takeReq_keeps (by assumption)

theorem State.readRing_keeps {s0 s1 : State} {a1} (hs1 : Keeps s0 s1) :
    Keeps s0 (State.readRing s1 a1) := by
  unfold State.readRing
  extract_lets -merge -underBinder +onlyGivenNames x1
  clear_value x1
  refine keeps_ite ?_ ?_
  · assumption
  · extract_lets -merge -underBinder +onlyGivenNames x2 x3 x4 x5
    clear_value x2 x3 x4 x5
    refine keeps_ite ?_ ?_
    · assumption
    · refine keeps_ite ?_ ?_
      · exact State.raise_keeps (State.bumpLo_keeps (State.linSt_keeps (by assumption)))
      · exact State.linSt_keeps (State.takeRing_keeps (by assumption))

end Sys2Proof.Machine
end

