-- ==== Sys2Proof/Laws/KeepsPlanner.lean ====
section
/-! SUPPORT. What the operations of Machine/Planner.lean keep (Laws/Keeps.lean). -/
namespace Sys2Proof.Machine
set_option Elab.async false

theorem State.batchStart_keeps {s0 s1 : State} {a1} (hs1 : Keeps s0 s1) :
    Keeps s0 (State.batchStart s1 a1) := by
  unfold State.batchStart
  split
  · assumption
  · extract_lets -merge -underBinder +onlyGivenNames x1 x2
    clear_value x1 x2
    refine State.updCar_keeps ?_
    refine State.updLine_keeps ?_ ?_
    · assumption
    · first | exact fun _ h => h | (intro _ h; split <;> exact h) | (intro _ h; simp_all [Line.Sized, lmod])

theorem State.commit_keeps {s0 s1 : State} {a1 a2 a3} (hs1 : Keeps s0 s1) :
    Keeps s0 (State.commit s1 a1 a2 a3) := by
  unfold State.commit
  extract_lets -merge -underBinder +onlyGivenNames x1
  have hx1 : Keeps s0 x1 := by
    subst x1
    refine State.updLine_keeps ?_ ?_
    · assumption
    · first | exact fun _ h => h | (intro _ h; split <;> exact h) | (intro _ h; simp_all [Line.Sized, lmod])
  clear_value x1
  extract_lets -merge -underBinder +onlyGivenNames x2
  have hx2 : Keeps s0 x2 := by
    subst x2
    exact State.updCar_keeps (by assumption)
  clear_value x2
  extract_lets -merge -underBinder +onlyGivenNames x3
  have hx3 : Keeps s0 x3 := by
    subst x3
    refine keeps_ite ?_ ?_
    · exact State.bumpLo_keeps (by assumption)
    · assumption
  clear_value x3
  split
  · assumption
  · extract_lets -merge -underBinder +onlyGivenNames x4
    clear_value x4
    exact State.watchRef_keeps (State.watchKick_keeps (State.regSet_keeps (by assumption)))

theorem State.brakeFrom_keeps {s0 s1 : State} {a1 a2} (hs1 : Keeps s0 s1) :
    Keeps s0 (State.brakeFrom s1 a1 a2) := by
  unfold State.brakeFrom
  extract_lets -merge -underBinder +onlyGivenNames x1 x2 x3 x4 x5
  clear_value x1 x2 x3 x4
  have hx5 : Keeps s0 x5 := by
    subst x5
    exact State.bump_keeps (State.updCar_keeps (by assumption))
  clear_value x5
  exact State.raise_keeps (by assumption)

theorem State.planFails_keeps {s0 s1 : State} {a1 a2} (hs1 : Keeps s0 s1) :
    Keeps s0 (State.planFails s1 a1 a2) := by
  unfold State.planFails
  extract_lets -merge -underBinder +onlyGivenNames x1
  have hx1 : Keeps s0 x1 := by
    subst x1
    refine State.updLine_keeps ?_ ?_
    · assumption
    · first | exact fun _ h => h | (intro _ h; split <;> exact h) | (intro _ h; simp_all [Line.Sized, lmod])
  clear_value x1
  refine keeps_ite ?_ ?_
  · assumption
  · extract_lets -merge -underBinder +onlyGivenNames x2
    have hx2 : Keeps s0 x2 := by
      subst x2
      split
      · refine keeps_ite ?_ ?_
        · exact State.brakeFrom_keeps (by assumption)
        · assumption
      · assumption
    clear_value x2
    extract_lets -merge -underBinder +onlyGivenNames x3
    have hx3 : Keeps s0 x3 := by
      subst x3
      exact State.raise_keeps (by assumption)
    clear_value x3
    exact State.endHead_keeps (by assumption)

theorem State.batchUs_keeps {s0 s1 : State} {a1} (hs1 : Keeps s0 s1) :
    Keeps s0 (State.batchUs s1 a1) := by
  unfold State.batchUs
  refine keeps_ite ?_ ?_
  · assumption
  · extract_lets -merge -underBinder +onlyGivenNames x1
    clear_value x1
    exact State.setFld_keeps (State.setFld_keeps (by assumption))

theorem State.batchEnd_keeps {s0 s1 : State} {a1} (hs1 : Keeps s0 s1) :
    Keeps s0 (State.batchEnd s1 a1) := by
  unfold State.batchEnd
  extract_lets -merge -underBinder +onlyGivenNames x1
  have hx1 : Keeps s0 x1 := by
    subst x1
    exact State.batchUs_keeps (by assumption)
  clear_value x1
  split
  · exact State.planFails_keeps (by assumption)
  · refine keeps_ite ?_ ?_
    · exact State.commit_keeps (by assumption)
    · extract_lets -merge -underBinder +onlyGivenNames x2
      have hx2 : Keeps s0 x2 := by
        subst x2
        exact State.raise_keeps (State.bumpHi_keeps (by assumption))
      clear_value x2
      extract_lets -merge -underBinder +onlyGivenNames x3
      clear_value x3
      refine State.updLine_keeps ?_ ?_
      · assumption
      · first | exact fun _ h => h | (intro _ h; split <;> exact h) | (intro _ h; simp_all [Line.Sized, lmod])

theorem State.recheckEnd_keeps {s0 s1 : State} {a1} (hs1 : Keeps s0 s1) :
    Keeps s0 (State.recheckEnd s1 a1) := by
  unfold State.recheckEnd
  split
  · refine keeps_ite ?_ ?_
    · exact State.planFails_keeps (by assumption)
    · exact State.commit_keeps (by assumption)
  · exact State.planFails_keeps (by assumption)

theorem execPlanBatch_keeps {s0 : State} {a0 a1} {s3 : State} (hs3 : Keeps s0 s3) :
    KeepsN s0 (execPlanBatch a0 a1 s3) := by
  unfold execPlanBatch
  extract_lets -merge -underBinder +onlyGivenNames x1
  have hx1 : Keeps s0 x1 := by
    subst x1
    exact State.to_keeps (by assumption)
  clear_value x1
  refine guardNext_keeps ?_ (fun _ _ => ?_)
  · assumption
  · exact State.batchStart_keeps (by assumption)

theorem execBatchEnd_keeps {s0 : State} {a0} {s2 : State} (hs2 : Keeps s0 s2) :
    KeepsN s0 (execBatchEnd a0 s2) := by
  unfold execBatchEnd
  extract_lets -merge -underBinder +onlyGivenNames x1
  have hx1 : Keeps s0 x1 := by
    subst x1
    exact State.to_keeps (by assumption)
  clear_value x1
  split
  · refine guardNext_keeps ?_ (fun _ _ => ?_)
    · assumption
    · exact State.batchEnd_keeps (by assumption)
  · exact keepsN_next (by assumption)

theorem execRecheckDone_keeps {s0 : State} {a0} {s2 : State} (hs2 : Keeps s0 s2) :
    KeepsN s0 (execRecheckDone a0 s2) := by
  unfold execRecheckDone
  extract_lets -merge -underBinder +onlyGivenNames x1
  have hx1 : Keeps s0 x1 := by
    subst x1
    exact State.to_keeps (by assumption)
  clear_value x1
  split
  · refine guardNext_keeps ?_ (fun _ _ => ?_)
    · assumption
    · exact State.recheckEnd_keeps (by assumption)
  · exact keepsN_next (by assumption)

theorem execPlanTimeout_keeps {s0 : State} {a0 a1} {s3 : State} (hs3 : Keeps s0 s3) :
    KeepsN s0 (execPlanTimeout a0 a1 s3) := by
  unfold execPlanTimeout
  extract_lets -merge -underBinder +onlyGivenNames x1
  have hx1 : Keeps s0 x1 := by
    subst x1
    exact State.to_keeps (by assumption)
  clear_value x1
  split
  · refine guardNext_keeps ?_ (fun _ _ => ?_)
    · assumption
    · exact State.planFails_keeps (by assumption)
  · exact keepsN_next (by assumption)

theorem execBrakeDone_keeps {s0 : State} {a0 a1} {s3 : State} (hs3 : Keeps s0 s3) :
    KeepsN s0 (execBrakeDone a0 a1 s3) := by
  unfold execBrakeDone
  extract_lets -merge -underBinder +onlyGivenNames x1
  have hx1 : Keeps s0 x1 := by
    subst x1
    exact State.to_keeps (by assumption)
  clear_value x1
  split
  · refine guardNext_keeps ?_ (fun _ _ => ?_)
    · assumption
    · exact State.updCar_keeps (by assumption)
  · exact keepsN_next (by assumption)

theorem execSettleEnd_keeps {s0 : State} {a0 a1} {s3 : State} (hs3 : Keeps s0 s3) :
    KeepsN s0 (execSettleEnd a0 a1 s3) := by
  unfold execSettleEnd
  extract_lets -merge -underBinder +onlyGivenNames x1
  have hx1 : Keeps s0 x1 := by
    subst x1
    exact State.to_keeps (by assumption)
  clear_value x1
  split
  · refine guardNext_keeps ?_ (fun _ _ => ?_)
    · assumption
    · exact State.updCar_keeps (State.endHead_keeps (by assumption))
  · exact keepsN_next (by assumption)

end Sys2Proof.Machine
end

