-- ==== Sys2Proof/Laws/KeepsMotion.lean ====
section
/-! SUPPORT. What the operations of Machine/Motion.lean keep (Laws/Keeps.lean). -/
namespace Sys2Proof.Machine
set_option Elab.async false

theorem State.gpioStep_keeps {s0 s1 : State} (hs1 : Keeps s0 s1) :
    Keeps s0 (State.gpioStep s1) := by
  unfold State.gpioStep
  refine State.each_keeps ?_ (fun _ _ _ => ?_)
  · assumption
  · extract_lets -merge -underBinder +onlyGivenNames x1
    clear_value x1
    refine keeps_ite ?_ ?_
    · assumption
    · refine keeps_ite ?_ ?_
      · exact State.bump_keeps (by assumption)
      · extract_lets -merge -underBinder +onlyGivenNames x2
        have hx2 : Keeps s0 x2 := by
          subst x2
          refine State.updLine_keeps ?_ ?_
          · assumption
          · first | exact fun _ h => h | (intro _ h; split <;> exact h) | (intro _ h; simp_all [Line.Sized, lmod])
        clear_value x2
        refine keeps_ite ?_ ?_
        · exact State.drive_keeps (by assumption)
        · assumption

theorem State.markTick_keeps {s0 s1 : State} {a1} (hs1 : Keeps s0 s1) :
    Keeps s0 (State.markTick s1 a1) := by
  unfold State.markTick
  extract_lets -merge -underBinder +onlyGivenNames x1
  clear_value x1
  split
  · refine keeps_ite ?_ ?_
    · assumption
    · refine keeps_ite ?_ ?_
      · extract_lets -merge -underBinder +onlyGivenNames x2 x3
        clear_value x2
        have hx3 : Keeps s0 x3 := by
          subst x3
          exact State.endHead_keeps (by assumption)
        clear_value x3
        refine keeps_ite ?_ ?_
        · exact State.updCar_keeps (by assumption)
        · assumption
      · split
        · refine keeps_ite ?_ ?_
          · exact State.raise_keeps (State.updCar_keeps (by assumption))
          · assumption
        · assumption
  · assumption

theorem State.carTick_keeps {s0 s1 : State} {a1} (hs1 : Keeps s0 s1) :
    Keeps s0 (State.carTick s1 a1) := by
  unfold State.carTick
  extract_lets -merge -underBinder +onlyGivenNames x1
  have hx1 : Keeps s0 x1 := by
    subst x1
    exact State.updCar_keeps (by assumption)
  clear_value x1
  split
  · refine keeps_ite ?_ ?_
    · exact State.updCar_keeps (by assumption)
    · assumption
  · assumption

theorem State.motionTick_keeps {s0 s1 : State} (hs1 : Keeps s0 s1) :
    Keeps s0 (State.motionTick s1) := by
  unfold State.motionTick
  refine keeps_ite ?_ ?_
  · assumption
  · extract_lets -merge -underBinder +onlyGivenNames x1
    have hx1 : Keeps s0 x1 := by
      subst x1
      exact State.carCheck_keeps (by assumption)
    clear_value x1
    extract_lets -merge -underBinder +onlyGivenNames x2
    have hx2 : Keeps s0 x2 := by
      subst x2
      refine State.each_keeps ?_ (fun _ _ _ => ?_)
      · assumption
      · exact State.readRing_keeps (by assumption)
    clear_value x2
    extract_lets -merge -underBinder +onlyGivenNames x3 x4
    clear_value x3
    have hx4 : Keeps s0 x4 := by
      subst x4
      refine State.each_keeps ?_ (fun _ _ _ => ?_)
      · refine State.updLine_keeps ?_ ?_
        · assumption
        · first | exact fun _ h => h | (intro _ h; split <;> exact h) | (intro _ h; simp_all [Line.Sized, lmod])
      · exact State.takeReq_keeps (by assumption)
    clear_value x4
    extract_lets -merge -underBinder +onlyGivenNames x5
    have hx5 : Keeps s0 x5 := by
      subst x5
      refine State.each_keeps ?_ (fun _ _ _ => ?_)
      · assumption
      · exact State.carTick_keeps (by assumption)
    clear_value x5
    refine State.updLine_keeps ?_ ?_
    · refine State.each_keeps ?_ (fun _ _ _ => ?_)
      · assumption
      · exact State.markTick_keeps (by assumption)
    · first | exact fun _ h => h | (intro _ h; split <;> exact h) | (intro _ h; simp_all [Line.Sized, lmod])

theorem State.restartReqs_keeps {s0 s1 : State} (hs1 : Keeps s0 s1) :
    Keeps s0 (State.restartReqs s1) := by
  unfold State.restartReqs
  extract_lets -merge -underBinder +onlyGivenNames x1
  clear_value x1
  refine State.each_keeps ?_ (fun _ _ _ => ?_)
  · assumption
  · exact State.endReq_keeps (by assumption)

theorem State.sdfPlace_keeps {s0 s1 : State} {a1 a2} (hs1 : Keeps s0 s1) :
    Keeps s0 (State.sdfPlace s1 a1 a2) := by
  unfold State.sdfPlace
  extract_lets -merge -underBinder +onlyGivenNames x1
  clear_value x1
  split
  · extract_lets -merge -underBinder +onlyGivenNames x2
    have hx2 : Keeps s0 x2 := by
      subst x2
      refine State.each_keeps ?_ (fun _ _ _ => ?_)
      · assumption
      · exact State.stBytes_keeps (by assumption)
    clear_value x2
    refine State.updLine_keeps ?_ ?_
    · assumption
    · first | exact fun _ h => h | (intro _ h; split <;> exact h) | (intro _ h; simp_all [Line.Sized, lmod])

theorem State.occPlace_keeps {s0 s1 : State} {a1 a2 a3} (hs1 : Keeps s0 s1) :
    Keeps s0 (State.occPlace s1 a1 a2 a3) := by
  unfold State.occPlace
  extract_lets -merge -underBinder +onlyGivenNames x1
  have hx1 : Keeps s0 x1 := by
    subst x1
    exact State.stBytes_keeps (by assumption)
  clear_value x1
  refine State.updLine_keeps ?_ ?_
  · assumption
  · first | exact fun _ h => h | (intro _ h; split <;> exact h) | (intro _ h; simp_all [Line.Sized, lmod])

theorem State.revalidate_keeps {s0 s1 : State} {a1} (hs1 : Keeps s0 s1) :
    Keeps s0 (State.revalidate s1 a1) := by
  unfold State.revalidate
  split
  · refine keeps_ite ?_ ?_
    · assumption
    · extract_lets -merge -underBinder +onlyGivenNames x1
      have hx1 : Keeps s0 x1 := by
        subst x1
        exact State.brakeFrom_keeps (State.raise_keeps (by assumption))
      clear_value x1
      exact State.endHead_keeps (by assumption)
  · assumption

theorem State.mapPublish_keeps {s0 s1 : State} (hs1 : Keeps s0 s1) :
    Keeps s0 (State.mapPublish s1) := by
  unfold State.mapPublish
  extract_lets -merge -underBinder +onlyGivenNames x1 x2 x3
  clear_value x1 x2
  have hx3 : Keeps s0 x3 := by
    subst x3
    refine State.updLine_keeps ?_ ?_
    · assumption
    · first | exact fun _ h => h | (intro _ h; split <;> exact h) | (intro _ h; simp_all [Line.Sized, lmod])
  clear_value x3
  extract_lets -merge -underBinder +onlyGivenNames x4 x5
  clear_value x4
  have hx5 : Keeps s0 x5 := by
    subst x5
    exact State.regSet_keeps (State.regSet_keeps (State.regSet_keeps (by assumption)))
  clear_value x5
  refine State.each_keeps ?_ (fun _ _ _ => ?_)
  · assumption
  · exact State.revalidate_keeps (by assumption)

theorem State.shadowCopy_keeps {s0 s1 : State} (hs1 : Keeps s0 s1) :
    Keeps s0 (State.shadowCopy s1) := by
  unfold State.shadowCopy
  split
  · refine State.updLine_keeps ?_ ?_
    · exact State.copySpace_keeps (State.copySpace_keeps (by assumption))
    · first | exact fun _ h => h | (intro _ h; split <;> exact h) | (intro _ h; simp_all [Line.Sized, lmod])

theorem reqRow_keeps {s0 : State} {a0 a1 a2} {s4 : State} (hs4 : Keeps s0 s4) :
    KeepsN s0 (reqRow a0 a1 a2 s4) := by
  unfold reqRow
  extract_lets -merge -underBinder +onlyGivenNames x1
  have hx1 : Keeps s0 x1 := by
    subst x1
    exact State.to_keeps (by assumption)
  clear_value x1
  refine guardNext_keeps ?_ (fun _ _ => ?_)
  · assumption
  · exact State.takeReq_keeps (by assumption)

theorem execGoto_keeps {s0 : State} {a0 a1} {s3 : State} (hs3 : Keeps s0 s3) :
    KeepsN s0 (execGoto a0 a1 s3) := by
  unfold execGoto
  exact reqRow_keeps (by assumption)

theorem execMarkReq_keeps {s0 : State} {a0 a1} {s3 : State} (hs3 : Keeps s0 s3) :
    KeepsN s0 (execMarkReq a0 a1 s3) := by
  unfold execMarkReq
  exact reqRow_keeps (by assumption)

theorem execCut_keeps {s0 : State} {a0 a1} {s3 : State} (hs3 : Keeps s0 s3) :
    KeepsN s0 (execCut a0 a1 s3) := by
  unfold execCut
  exact reqRow_keeps (by assumption)

theorem execPark_keeps {s0 : State} {a0 a1} {s3 : State} (hs3 : Keeps s0 s3) :
    KeepsN s0 (execPark a0 a1 s3) := by
  unfold execPark
  exact reqRow_keeps (by assumption)

theorem execPost_keeps {s0 : State} {a0 a1} {s3 : State} (hs3 : Keeps s0 s3) :
    KeepsN s0 (execPost a0 a1 s3) := by
  unfold execPost
  exact reqRow_keeps (by assumption)

theorem execCancel_keeps {s0 : State} {a0 a1} {s3 : State} (hs3 : Keeps s0 s3) :
    KeepsN s0 (execCancel a0 a1 s3) := by
  unfold execCancel
  exact reqRow_keeps (by assumption)

theorem execReqBad_keeps {s0 : State} {a0 a1} {s3 : State} (hs3 : Keeps s0 s3) :
    KeepsN s0 (execReqBad a0 a1 s3) := by
  unfold execReqBad
  extract_lets -merge -underBinder +onlyGivenNames x1
  have hx1 : Keeps s0 x1 := by
    subst x1
    exact State.to_keeps (by assumption)
  clear_value x1
  refine guardNext_keeps ?_ (fun _ _ => ?_)
  · assumption
  · exact State.takeReq_keeps (by assumption)

theorem execShadowCopyDone_keeps {s0 : State} {a0} {s2 : State} (hs2 : Keeps s0 s2) :
    KeepsN s0 (execShadowCopyDone a0 s2) := by
  unfold execShadowCopyDone
  extract_lets -merge -underBinder +onlyGivenNames x1
  have hx1 : Keeps s0 x1 := by
    subst x1
    exact State.to_keeps (by assumption)
  clear_value x1
  split
  · refine guardNext_keeps ?_ (fun _ _ => ?_)
    · assumption
    · exact State.shadowCopy_keeps (by assumption)
  · exact keepsN_next (by assumption)

theorem State.motionCmd_keeps {s0 s1 : State} {a1} (hs1 : Keeps s0 s1) :
    Keeps s0 (State.motionCmd s1 a1) := by
  unfold State.motionCmd
  split
  · exact State.mapPublish_keeps (by assumption)
  · exact State.endQueued_keeps (by assumption)
  · refine State.each_keeps ?_ (fun _ _ _ => ?_)
    · assumption
    · exact State.regSet_keeps (by assumption)
  · assumption

end Sys2Proof.Machine
end

