-- ==== Sys2Proof/Laws/KeepsServo.lean ====
section
/-! SUPPORT. What the operations of Machine/Servo.lean keep (Laws/Keeps.lean). -/
namespace Sys2Proof.Machine
set_option Elab.async false

theorem State.axMove_keeps {s0 s1 : State} {a1 a2} (hs1 : Keeps s0 s1) :
    Keeps s0 (State.axMove s1 a1 a2) := by
  unfold State.axMove
  exact State.updAx_keeps (by assumption)

theorem execAxisEncoderEdge_keeps {s0 : State} {a0 a1 a2 a3} {s5 : State} (hs5 : Keeps s0 s5) :
    KeepsN s0 (execAxisEncoderEdge a0 a1 a2 a3 s5) := by
  unfold execAxisEncoderEdge
  extract_lets -merge -underBinder +onlyGivenNames x1
  have hx1 : Keeps s0 x1 := by
    subst x1
    exact State.to_keeps (by assumption)
  clear_value x1
  extract_lets -merge -underBinder +onlyGivenNames x2 x3 x4 x5 x6
  clear_value x2 x3 x4 x5
  have hx6 : Keeps s0 x6 := by
    subst x6
    exact State.updAx_keeps (by assumption)
  clear_value x6
  refine keepsN_next ?_
  refine keeps_ite ?_ ?_
  · assumption
  · refine keeps_ite ?_ ?_
    · exact State.carCheck_keeps (State.fbFault_keeps (by assumption))
    · split
      · exact State.axMove_keeps (by assumption)
      · assumption

theorem execAxisLos_keeps {s0 : State} {a0 a1} {s3 : State} (hs3 : Keeps s0 s3) :
    KeepsN s0 (execAxisLos a0 a1 s3) := by
  unfold execAxisLos
  extract_lets -merge -underBinder +onlyGivenNames x1
  have hx1 : Keeps s0 x1 := by
    subst x1
    exact State.updAx_keeps (State.to_keeps (by assumption))
  clear_value x1
  refine keepsN_next ?_
  refine keeps_ite ?_ ?_
  · exact State.carCheck_keeps (State.fbFault_keeps (by assumption))
  · assumption

theorem State.ssiGood_keeps {s0 s1 : State} {a1 a2} (hs1 : Keeps s0 s1) :
    Keeps s0 (State.ssiGood s1 a1 a2) := by
  unfold State.ssiGood
  extract_lets -merge -underBinder +onlyGivenNames x1 x2 x3 x4
  clear_value x1 x2 x3
  have hx4 : Keeps s0 x4 := by
    subst x4
    split
    · exact State.axMove_keeps (by assumption)
    · assumption
  clear_value x4
  exact State.updAx_keeps (by assumption)

theorem State.ssiBad_keeps {s0 s1 : State} {a1} (hs1 : Keeps s0 s1) :
    Keeps s0 (State.ssiBad s1 a1) := by
  unfold State.ssiBad
  exact State.raise_keeps (State.updAx_keeps (by assumption))

theorem State.gpioFilter_keeps {s0 s1 : State} {a1} (hs1 : Keeps s0 s1) :
    Keeps s0 (State.gpioFilter s1 a1) := by
  unfold State.gpioFilter
  extract_lets -merge -underBinder +onlyGivenNames x1
  have hx1 : Keeps s0 x1 := by
    subst x1
    refine State.updLine_keeps ?_ ?_
    · assumption
    · first | exact fun _ h => h | (intro _ h; split <;> exact h) | (intro _ h; simp_all [Line.Sized, lmod])
  clear_value x1
  refine State.each_keeps ?_ (fun _ _ _ => ?_)
  · assumption
  · extract_lets -merge -underBinder +onlyGivenNames x2 x3
    clear_value x2 x3
    refine keeps_ite ?_ ?_
    · refine State.updLine_keeps ?_ ?_
      · assumption
      · first | exact fun _ h => h | (intro _ h; split <;> exact h) | (intro _ h; simp_all [Line.Sized, lmod])
    · extract_lets -merge -underBinder +onlyGivenNames x4
      clear_value x4
      refine keeps_ite ?_ ?_
      · refine State.updLine_keeps ?_ ?_
        · assumption
        · first | exact fun _ h => h | (intro _ h; split <;> exact h) | (intro _ h; simp_all [Line.Sized, lmod])
      · refine State.updLine_keeps ?_ ?_
        · assumption
        · first | exact fun _ h => h | (intro _ h; split <;> exact h) | (intro _ h; simp_all [Line.Sized, lmod])

theorem State.adcSample_keeps {s0 s1 : State} {a1} (hs1 : Keeps s0 s1) :
    Keeps s0 (State.adcSample s1 a1) := by
  unfold State.adcSample
  refine State.each_keeps ?_ (fun _ _ _ => ?_)
  · assumption
  · refine keeps_ite ?_ ?_
    · assumption
    · split
      · extract_lets -merge -underBinder +onlyGivenNames x1
        clear_value x1
        refine State.updLine_keeps ?_ ?_
        · assumption
        · first | exact fun _ h => h | (intro _ h; split <;> exact h) | (intro _ h; simp_all [Line.Sized, lmod])
      · exact State.raise_keeps (by assumption)

theorem State.srcWatch_keeps {s0 s1 : State} {a1} (hs1 : Keeps s0 s1) :
    Keeps s0 (State.srcWatch s1 a1) := by
  unfold State.srcWatch
  extract_lets -merge -underBinder +onlyGivenNames x1 x2 x3
  clear_value x1 x2
  have hx3 : Keeps s0 x3 := by
    subst x3
    exact State.updAx_keeps (by assumption)
  clear_value x3
  refine keeps_ite ?_ ?_
  · exact State.raise_keeps (by assumption)
  · assumption

theorem State.leaveFallback_keeps {s0 s1 : State} {a1} (hs1 : Keeps s0 s1) :
    Keeps s0 (State.leaveFallback s1 a1) := by
  unfold State.leaveFallback
  exact State.updTarget_keeps (by assumption)

theorem State.dacOfAxis_keeps {s0 s1 : State} {a1} (hs1 : Keeps s0 s1) :
    Keeps s0 (State.dacOfAxis s1 a1) := by
  unfold State.dacOfAxis
  split
  · assumption
  · split
    · extract_lets -merge -underBinder +onlyGivenNames x1
      have hx1 : Keeps s0 x1 := by
        subst x1
        refine State.updLine_keeps ?_ ?_
        · assumption
        · first | exact fun _ h => h | (intro _ h; split <;> exact h) | (intro _ h; simp_all [Line.Sized, lmod])
      clear_value x1
      refine keeps_ite ?_ ?_
      · assumption
      · extract_lets -merge -underBinder +onlyGivenNames x2
        have hx2 : Keeps s0 x2 := by
          subst x2
          exact State.leaveFallback_keeps (by assumption)
        clear_value x2
        refine keeps_ite ?_ ?_
        · assumption
        · exact State.dacApply_keeps (by assumption)
    · assumption

theorem State.axApply_keeps {s0 s1 : State} {a1} (hs1 : Keeps s0 s1) :
    Keeps s0 (State.axApply s1 a1) := by
  unfold State.axApply
  extract_lets -merge -underBinder +onlyGivenNames x1
  have hx1 : Keeps s0 x1 := by
    subst x1
    exact State.updAx_keeps (by assumption)
  clear_value x1
  split
  · assumption
  · extract_lets -merge -underBinder +onlyGivenNames x2
    have hx2 : Keeps s0 x2 := by
      subst x2
      exact State.updAx_keeps (by assumption)
    clear_value x2
    refine keeps_ite ?_ ?_
    · exact State.raise_keeps (State.bumpHi_keeps (by assumption))
    · extract_lets -merge -underBinder +onlyGivenNames x3
      have hx3 : Keeps s0 x3 := by
        subst x3
        exact State.leaveFallback_keeps (by assumption)
      clear_value x3
      extract_lets -merge -underBinder +onlyGivenNames x4
      have hx4 : Keeps s0 x4 := by
        subst x4
        exact State.regSet_keeps (State.updAx_keeps (by assumption))
      clear_value x4
      extract_lets -merge -underBinder +onlyGivenNames x5
      have hx5 : Keeps s0 x5 := by
        subst x5
        exact State.updTarget_keeps (by assumption)
      clear_value x5
      exact State.dacOfAxis_keeps (by assumption)

theorem State.reanchor_keeps {s0 s1 : State} {a1} (hs1 : Keeps s0 s1) :
    Keeps s0 (State.reanchor s1 a1) := by
  unfold State.reanchor
  exact State.updAx_keeps (by assumption)

theorem State.lawPrep_keeps {s0 s1 : State} {a1} (hs1 : Keeps s0 s1) :
    Keeps s0 (State.lawPrep s1 a1) := by
  unfold State.lawPrep
  extract_lets -merge -underBinder +onlyGivenNames x1
  have hx1 : Keeps s0 x1 := by
    subst x1
    exact State.reanchor_keeps (by assumption)
  clear_value x1
  extract_lets -merge -underBinder +onlyGivenNames x2 x3
  clear_value x2 x3
  split
  · extract_lets -merge -underBinder +onlyGivenNames x4
    clear_value x4
    exact State.updAx_keeps (by assumption)

theorem State.measure_keeps {s0 s1 : State} {a1} (hs1 : Keeps s0 s1) :
    Keeps s0 (State.measure s1 a1) := by
  unfold State.measure
  extract_lets -merge -underBinder +onlyGivenNames x1 x2
  clear_value x1 x2
  exact State.updAx_keeps (by assumption)

theorem State.lawExec_keeps {s0 s1 : State} {a1 a2} (hs1 : Keeps s0 s1) :
    Keeps s0 (State.lawExec s1 a1 a2) := by
  unfold State.lawExec
  exact State.updAx_keeps (by assumption)

theorem State.axPass_keeps {s0 s1 : State} {a1 a2} (hs1 : Keeps s0 s1) :
    Keeps s0 (State.axPass s1 a1 a2) := by
  unfold State.axPass
  extract_lets -merge -underBinder +onlyGivenNames x1
  have hx1 : Keeps s0 x1 := by
    subst x1
    exact State.updAx_keeps (by assumption)
  clear_value x1
  split
  · split
    · refine keeps_ite ?_ ?_
      · exact State.watchKick_keeps (State.updCar_keeps (by assumption))
      · assumption
    · assumption
  · assumption

theorem State.dacPass_keeps {s0 s1 : State} {a1 a2} (hs1 : Keeps s0 s1) :
    Keeps s0 (State.dacPass s1 a1 a2) := by
  unfold State.dacPass
  refine State.updLine_keeps ?_ ?_
  · assumption
  · first | exact fun _ h => h | (intro _ h; split <;> exact h) | (intro _ h; simp_all [Line.Sized, lmod])

theorem State.lawOffer_keeps {s0 s1 : State} {a1} (hs1 : Keeps s0 s1) :
    Keeps s0 (State.lawOffer s1 a1) := by
  unfold State.lawOffer
  extract_lets -merge -underBinder +onlyGivenNames x1 x2 x3 x4 x5
  clear_value x1 x2 x3 x4
  have hx5 : Keeps s0 x5 := by
    subst x5
    refine keeps_ite ?_ ?_
    · exact State.raise_keeps (State.bumpLo_keeps (by assumption))
    · assumption
  clear_value x5
  extract_lets -merge -underBinder +onlyGivenNames x6 x7 x8
  clear_value x6 x7
  have hx8 : Keeps s0 x8 := by
    subst x8
    exact State.updTarget_keeps (State.updAx_keeps (by assumption))
  clear_value x8
  extract_lets -merge -underBinder +onlyGivenNames x9
  have hx9 : Keeps s0 x9 := by
    subst x9
    split
    · refine State.updTarget_keeps ?_
      refine State.updLine_keeps ?_ ?_
      · assumption
      · first | exact fun _ h => h | (intro _ h; split <;> exact h) | (intro _ h; simp_all [Line.Sized, lmod])
    · assumption
  clear_value x9
  refine keeps_ite ?_ ?_
  · assumption
  · split
    · exact State.dacPass_keeps (State.axPass_keeps (by assumption))
    · exact State.axPass_keeps (by assumption)

theorem State.feCheck_keeps {s0 s1 : State} {a1 a2} (hs1 : Keeps s0 s1) :
    Keeps s0 (State.feCheck s1 a1 a2) := by
  unfold State.feCheck
  extract_lets -merge -underBinder +onlyGivenNames x1 x2 x3 x4 x5
  clear_value x1 x2 x3 x4
  have hx5 : Keeps s0 x5 := by
    subst x5
    exact State.updAx_keeps (by assumption)
  clear_value x5
  extract_lets -merge -underBinder +onlyGivenNames x6
  clear_value x6
  exact State.axFault_keeps (by assumption)

theorem State.axForm_keeps {s0 s1 : State} {a1 a2} (hs1 : Keeps s0 s1) :
    Keeps s0 (State.axForm s1 a1 a2) := by
  unfold State.axForm
  extract_lets -merge -underBinder +onlyGivenNames x1
  have hx1 : Keeps s0 x1 := by
    subst x1
    exact State.measure_keeps (by assumption)
  clear_value x1
  refine keeps_ite ?_ ?_
  · exact State.feCheck_keeps (State.lawPrep_keeps (by assumption))
  · assumption

theorem State.groupCheck_keeps {s0 s1 : State} {a1} (hs1 : Keeps s0 s1) :
    Keeps s0 (State.groupCheck s1 a1) := by
  unfold State.groupCheck
  extract_lets -merge -underBinder +onlyGivenNames x1
  clear_value x1
  refine keeps_ite ?_ ?_
  · assumption
  · extract_lets -merge -underBinder +onlyGivenNames x2 x3 x4 x5 x6 x7
    clear_value x2 x3 x4 x5 x6
    have hx7 : Keeps s0 x7 := by
      subst x7
      exact State.regSet_keeps (State.updAxGrp_keeps (by assumption))
    clear_value x7
    refine keeps_ite ?_ ?_
    · refine State.each_keeps ?_ (fun _ _ _ => ?_)
      · exact State.raise_keeps (by assumption)
      · exact State.axFault_keeps (by assumption)
    · assumption

theorem State.axSample_keeps {s0 s1 : State} {a1} (hs1 : Keeps s0 s1) :
    Keeps s0 (State.axSample s1 a1) := by
  unfold State.axSample
  extract_lets -merge -underBinder +onlyGivenNames x1 x2
  have hx1 : Keeps s0 x1 := by
    subst x1
    exact State.updAx_keeps (by assumption)
  clear_value x1
  have hx2 : Keeps s0 x2 := by
    subst x2
    refine keeps_ite ?_ ?_
    · refine keeps_ite ?_ ?_
      · exact State.updAx_keeps (State.axEnable_keeps (by assumption))
      · assumption
    · assumption
  clear_value x2
  extract_lets -merge -underBinder +onlyGivenNames x3
  have hx3 : Keeps s0 x3 := by
    subst x3
    exact State.srcWatch_keeps (State.stepPeriod_keeps (State.axApply_keeps (by assumption)))
  clear_value x3
  exact State.updAx_keeps (by assumption)

theorem State.baseTick_keeps {s0 s1 : State} {a1 a2} (hs1 : Keeps s0 s1) :
    Keeps s0 (State.baseTick s1 a1 a2) := by
  unfold State.baseTick
  extract_lets -merge -underBinder +onlyGivenNames x1 x2 x3
  clear_value x1 x2
  have hx3 : Keeps s0 x3 := by
    subst x3
    refine State.updLine_keeps ?_ ?_
    · assumption
    · first | exact fun _ h => h | (intro _ h; split <;> exact h) | (intro _ h; simp_all [Line.Sized, lmod])
  clear_value x3
  extract_lets -merge -underBinder +onlyGivenNames x4
  have hx4 : Keeps s0 x4 := by
    subst x4
    refine State.each_keeps ?_ (fun _ _ _ => ?_)
    · exact State.adcSample_keeps (State.gpioFilter_keeps (by assumption))
    · exact State.rampTick_keeps (by assumption)
  clear_value x4
  extract_lets -merge -underBinder +onlyGivenNames x5
  have hx5 : Keeps s0 x5 := by
    subst x5
    refine State.each_keeps ?_ (fun _ _ _ => ?_)
    · assumption
    · exact State.axSample_keeps (by assumption)
  clear_value x5
  extract_lets -merge -underBinder +onlyGivenNames x6
  have hx6 : Keeps s0 x6 := by
    subst x6
    refine State.each_keeps ?_ (fun _ _ _ => ?_)
    · assumption
    · exact State.axForm_keeps (by assumption)
  clear_value x6
  extract_lets -merge -underBinder +onlyGivenNames x7
  have hx7 : Keeps s0 x7 := by
    subst x7
    refine State.each_keeps ?_ (fun _ _ _ => ?_)
    · assumption
    · exact State.groupCheck_keeps (by assumption)
  clear_value x7
  exact State.gpioStep_keeps (State.motionTick_keeps (by assumption))

theorem execSsiFrameDone_keeps {s0 : State} {a0 a1 a2 a3} {s5 : State} (hs5 : Keeps s0 s5) :
    KeepsN s0 (execSsiFrameDone a0 a1 a2 a3 s5) := by
  unfold execSsiFrameDone
  extract_lets -merge -underBinder +onlyGivenNames x1
  have hx1 : Keeps s0 x1 := by
    subst x1
    exact State.to_keeps (by assumption)
  clear_value x1
  refine guardNext_keeps ?_ (fun _ _ => ?_)
  · assumption
  · extract_lets -merge -underBinder +onlyGivenNames x2
    have hx2 : Keeps s0 x2 := by
      subst x2
      exact State.updAx_keeps (by assumption)
    clear_value x2
    extract_lets -merge -underBinder +onlyGivenNames x3
    have hx3 : Keeps s0 x3 := by
      subst x3
      refine keeps_ite ?_ ?_
      · exact State.ssiGood_keeps (by assumption)
      · exact State.ssiBad_keeps (by assumption)
    clear_value x3
    extract_lets -merge -underBinder +onlyGivenNames x4
    have hx4 : Keeps s0 x4 := by
      subst x4
      exact State.axForm_keeps (State.updAx_keeps (by assumption))
    clear_value x4
    extract_lets -merge -underBinder +onlyGivenNames x5
    have hx5 : Keeps s0 x5 := by
      subst x5
      split
      · exact State.groupCheck_keeps (by assumption)
      · assumption
    clear_value x5
    exact State.carCheck_keeps (by assumption)

theorem execControlLawRun_keeps {s0 : State} {a0 a1} {s3 : State} (hs3 : Keeps s0 s3) :
    KeepsN s0 (execControlLawRun a0 a1 s3) := by
  unfold execControlLawRun
  extract_lets -merge -underBinder +onlyGivenNames x1
  have hx1 : Keeps s0 x1 := by
    subst x1
    exact State.to_keeps (by assumption)
  clear_value x1
  refine guardNext_keeps ?_ (fun _ _ => ?_)
  · assumption
  · refine State.lawOffer_keeps ?_
    refine State.each_keeps ?_ (fun _ _ _ => ?_)
    · assumption
    · exact State.lawExec_keeps (by assumption)

theorem lawRow_keeps {s0 : State} {a0 a1 a2 a3 a4 a5 a6} {s8 : State} (hs8 : Keeps s0 s8) :
    KeepsN s0 (lawRow a0 a1 a2 a3 a4 a5 a6 s8) := by
  unfold lawRow
  extract_lets -merge -underBinder +onlyGivenNames x1
  have hx1 : Keeps s0 x1 := by
    subst x1
    exact State.to_keeps (by assumption)
  clear_value x1
  extract_lets -merge -underBinder +onlyGivenNames x2
  clear_value x2
  refine guardNext_keeps ?_ (fun _ _ => ?_)
  · assumption
  · exact State.updAx_keeps (State.lawExec_keeps (by assumption))

theorem execServoEnd_keeps {s0 : State} {a0 a1} {s3 : State} (hs3 : Keeps s0 s3) :
    KeepsN s0 (execServoEnd a0 a1 s3) := by
  unfold execServoEnd
  extract_lets -merge -underBinder +onlyGivenNames x1
  have hx1 : Keeps s0 x1 := by
    subst x1
    exact State.to_keeps (by assumption)
  clear_value x1
  refine guardNext_keeps ?_ (fun _ _ => ?_)
  · assumption
  · exact State.lawOffer_keeps (by assumption)

theorem execServoFadd_keeps {s0 : State} {a0 a1 a2 a3 a4} {s6 : State} (hs6 : Keeps s0 s6) :
    KeepsN s0 (execServoFadd a0 a1 a2 a3 a4 s6) := by
  unfold execServoFadd
  exact lawRow_keeps (by assumption)

theorem execServoFsub_keeps {s0 : State} {a0 a1 a2 a3 a4} {s6 : State} (hs6 : Keeps s0 s6) :
    KeepsN s0 (execServoFsub a0 a1 a2 a3 a4 s6) := by
  unfold execServoFsub
  exact lawRow_keeps (by assumption)

theorem execServoFmul_keeps {s0 : State} {a0 a1 a2 a3 a4} {s6 : State} (hs6 : Keeps s0 s6) :
    KeepsN s0 (execServoFmul a0 a1 a2 a3 a4 s6) := by
  unfold execServoFmul
  exact lawRow_keeps (by assumption)

theorem execServoFfma_keeps {s0 : State} {a0 a1 a2 a3 a4 a5} {s7 : State} (hs7 : Keeps s0 s7) :
    KeepsN s0 (execServoFfma a0 a1 a2 a3 a4 a5 s7) := by
  unfold execServoFfma
  exact lawRow_keeps (by assumption)

theorem execServoFmin_keeps {s0 : State} {a0 a1 a2 a3 a4} {s6 : State} (hs6 : Keeps s0 s6) :
    KeepsN s0 (execServoFmin a0 a1 a2 a3 a4 s6) := by
  unfold execServoFmin
  exact lawRow_keeps (by assumption)

theorem execServoFmax_keeps {s0 : State} {a0 a1 a2 a3 a4} {s6 : State} (hs6 : Keeps s0 s6) :
    KeepsN s0 (execServoFmax a0 a1 a2 a3 a4 s6) := by
  unfold execServoFmax
  exact lawRow_keeps (by assumption)

theorem execServoFabs_keeps {s0 : State} {a0 a1 a2 a3} {s5 : State} (hs5 : Keeps s0 s5) :
    KeepsN s0 (execServoFabs a0 a1 a2 a3 s5) := by
  unfold execServoFabs
  exact lawRow_keeps (by assumption)

theorem execFclamp_keeps {s0 : State} {a0 a1 a2 a3 a4 a5} {s7 : State} (hs7 : Keeps s0 s7) :
    KeepsN s0 (execFclamp a0 a1 a2 a3 a4 a5 s7) := by
  unfold execFclamp
  exact lawRow_keeps (by assumption)

theorem execFsel_keeps {s0 : State} {a0 a1 a2 a3 a4 a5} {s7 : State} (hs7 : Keeps s0 s7) :
    KeepsN s0 (execFsel a0 a1 a2 a3 a4 a5 s7) := by
  unfold execFsel
  exact lawRow_keeps (by assumption)

theorem execLdk_keeps {s0 : State} {a0 a1 a2 a3} {s5 : State} (hs5 : Keeps s0 s5) :
    KeepsN s0 (execLdk a0 a1 a2 a3 s5) := by
  unfold execLdk
  exact lawRow_keeps (by assumption)

theorem execServoRecip_keeps {s0 : State} {a0 a1 a2 a3} {s5 : State} (hs5 : Keeps s0 s5) :
    KeepsN s0 (execServoRecip a0 a1 a2 a3 s5) := by
  unfold execServoRecip
  exact lawRow_keeps (by assumption)

theorem execServoRsqrt_keeps {s0 : State} {a0 a1 a2 a3} {s5 : State} (hs5 : Keeps s0 s5) :
    KeepsN s0 (execServoRsqrt a0 a1 a2 a3 s5) := by
  unfold execServoRsqrt
  exact lawRow_keeps (by assumption)

theorem execServoTanh_keeps {s0 : State} {a0 a1 a2 a3} {s5 : State} (hs5 : Keeps s0 s5) :
    KeepsN s0 (execServoTanh a0 a1 a2 a3 s5) := by
  unfold execServoTanh
  exact lawRow_keeps (by assumption)

theorem State.servoCmd_keeps {s0 s1 : State} {a1} (hs1 : Keeps s0 s1) :
    Keeps s0 (State.servoCmd s1 a1) := by
  unfold State.servoCmd
  extract_lets -merge -underBinder +onlyGivenNames x1
  clear_value x1
  split
  · exact State.cmdEnable_keeps (by assumption)
  · exact State.cmdDisable_keeps (by assumption)
  · exact State.cmdClearFault_keeps (by assumption)
  · exact State.cmdHome_keeps (by assumption)
  · exact State.cmdResetState_keeps (by assumption)
  · exact State.cmdResync_keeps (by assumption)
  · exact State.grpZero_keeps (by assumption)
  · refine State.each_keeps ?_ (fun _ _ _ => ?_)
    · assumption
    · exact State.regSet_keeps (by assumption)
  · assumption

end Sys2Proof.Machine
end

