-- ==== Sys2Proof/Laws/KeepsQp.lean ====
section
/-! SUPPORT. What the operations of Machine/Qp.lean keep (Laws/Keeps.lean). -/
namespace Sys2Proof.Machine
set_option Elab.async false

theorem State.qpStage_keeps {s0 s1 : State} {a1 a2} (hs1 : Keeps s0 s1) :
    Keeps s0 (State.qpStage s1 a1 a2) := by
  unfold State.qpStage
  extract_lets -merge -underBinder +onlyGivenNames x1
  have hx1 : Keeps s0 x1 := by
    subst x1
    exact State.updQp_keeps (by assumption)
  clear_value x1
  split
  · assumption
  · refine State.each_keeps ?_ (fun _ _ _ => ?_)
    · assumption
    · refine keeps_ite ?_ ?_
      · assumption
      · extract_lets -merge -underBinder +onlyGivenNames x2 x3
        clear_value x2
        have hx3 : Keeps s0 x3 := by
          subst x3
          refine State.updLine_keeps ?_ ?_
          · assumption
          · first | exact fun _ h => h | (intro _ h; split <;> exact h) | (intro _ h; simp_all [Line.Sized, lmod])
        clear_value x3
        exact State.updTarget_keeps (by assumption)

theorem State.qpStageZ_keeps {s0 s1 : State} {a1 a2 a3} (hs1 : Keeps s0 s1) :
    Keeps s0 (State.qpStageZ s1 a1 a2 a3) := by
  unfold State.qpStageZ
  extract_lets -merge -underBinder +onlyGivenNames x1 x2
  clear_value x1
  have hx2 : Keeps s0 x2 := by
    subst x2
    refine State.each_keeps ?_ (fun _ _ _ => ?_)
    · assumption
    · refine keeps_ite ?_ ?_
      · assumption
      · refine State.raise_keeps ?_
        refine keeps_ite ?_ ?_
        · exact State.bumpLo_keeps (by assumption)
        · assumption
  clear_value x2
  exact State.qpStage_keeps (State.updQp_keeps (by assumption))

theorem State.qpApply1_keeps {s0 s1 : State} {a1 a2 a3} (hs1 : Keeps s0 s1) :
    KeepsL s0 (State.qpApply1 s1 a1 a2 a3) := by
  unfold State.qpApply1
  split
  · refine keepsL_ite ?_ ?_
    · exact keepsL_mk (State.raise_keeps (by assumption))
    · exact keepsL_mk (State.updAx_keeps (by assumption))
  · split
    · extract_lets -merge -underBinder +onlyGivenNames x1
      have hx1 : Keeps s0 x1 := by
        subst x1
        refine State.updLine_keeps ?_ ?_
        · assumption
        · first | exact fun _ h => h | (intro _ h; split <;> exact h) | (intro _ h; simp_all [Line.Sized, lmod])
      clear_value x1
      refine keepsL_ite ?_ ?_
      · exact keepsL_mk (by assumption)
      · extract_lets -merge -underBinder +onlyGivenNames x2
        have hx2 : Keeps s0 x2 := by
          subst x2
          exact State.leaveFallback_keeps (by assumption)
        clear_value x2
        refine keepsL_ite ?_ ?_
        · exact keepsL_mk (by assumption)
        · exact keepsL_mk (State.dacApply_keeps (by assumption))
    · exact keepsL_mk (by assumption)
  · extract_lets -merge -underBinder +onlyGivenNames x3
    clear_value x3
    refine keepsL_mk ?_
    refine State.updLine_keeps ?_ ?_
    · assumption
    · first | exact fun _ h => h | (intro _ h; split <;> exact h) | (intro _ h; simp_all [Line.Sized, lmod])

theorem State.qpApply_keeps {s0 s1 : State} {a1} (hs1 : Keeps s0 s1) :
    Keeps s0 (State.qpApply s1 a1) := by
  unfold State.qpApply
  split
  · extract_lets -merge -underBinder +onlyGivenNames x1
    clear_value x1
    split
    · refine KeepsL.of_eq (a := s0) (by assumption) ?_ (fun _ => ?_)
      · refine keepsL_foldl (fun _ _ _ => ?_) ?_
        · split
          · refine KeepsL.of_eq (a := s0) (by assumption) ?_ (fun _ => ?_)
            · refine State.qpApply1_keeps ?_
              exact KeepsL.fst (by assumption)
            exact keepsL_mk (by assumption)
        · exact keepsL_mk (by assumption)
      exact State.gpioStep_keeps (State.updQp_keeps (by assumption))
  · assumption

theorem State.qpFallback_keeps {s0 s1 : State} {a1} (hs1 : Keeps s0 s1) :
    Keeps s0 (State.qpFallback s1 a1) := by
  unfold State.qpFallback
  split
  · exact State.qpStage_keeps (by assumption)
  · assumption

theorem State.thetaRaw_keeps {s0 s1 : State} {a1 a2} (hs1 : Keeps s0 s1) :
    KeepsL s0 (State.thetaRaw s1 a1 a2) := by
  unfold State.thetaRaw
  extract_lets -merge -underBinder +onlyGivenNames x1 x2
  clear_value x1 x2
  split
  · exact keepsL_mk (by assumption)
  · refine keepsL_ite ?_ ?_
    · exact keepsL_mk (by assumption)
    · exact keepsL_mk (State.drew_keeps (by assumption))
  · exact keepsL_mk (by assumption)
  · exact keepsL_mk (by assumption)
  · exact keepsL_mk (by assumption)
  · extract_lets -merge -underBinder +onlyGivenNames x3
    clear_value x3
    split
    · exact keepsL_mk (by assumption)
    · exact keepsL_mk (State.drew_keeps (by assumption))
  · exact keepsL_mk (by assumption)
  · exact keepsL_mk (by assumption)
  · exact keepsL_mk (by assumption)

theorem State.thetaSample_keeps {s0 s1 : State} {a1 a2} (hs1 : Keeps s0 s1) :
    KeepsL s0 (State.thetaSample s1 a1 a2) := by
  unfold State.thetaSample
  refine keepsL_foldl (fun _ _ _ => ?_) ?_
  · split
    · refine KeepsL.of_eq (a := s0) (by assumption) ?_ (fun _ => ?_)
      · refine State.thetaRaw_keeps ?_
        exact KeepsL.fst (by assumption)
      exact keepsL_mk (by assumption)
  · exact keepsL_mk (by assumption)

theorem State.qpFails_keeps {s0 s1 : State} {a1 a2 a3} (hs1 : Keeps s0 s1) :
    Keeps s0 (State.qpFails s1 a1 a2 a3) := by
  unfold State.qpFails
  extract_lets -merge -underBinder +onlyGivenNames x1
  have hx1 : Keeps s0 x1 := by
    subst x1
    refine State.raise_keeps ?_
    refine keeps_ite ?_ ?_
    · exact State.bumpHi_keeps (by assumption)
    · exact State.bumpLo_keeps (by assumption)
  clear_value x1
  extract_lets -merge -underBinder +onlyGivenNames x2 x3
  clear_value x2
  have hx3 : Keeps s0 x3 := by
    subst x3
    exact State.updQp_keeps (by assumption)
  clear_value x3
  refine keeps_ite ?_ ?_
  · exact State.qpFallback_keeps (State.raise_keeps (State.updQp_keeps (by assumption)))
  · split
    · refine keeps_ite ?_ ?_
      · exact State.qpStageZ_keeps (State.updQp_keeps (by assumption))
      · exact State.qpFallback_keeps (State.updQp_keeps (by assumption))
    · exact State.qpFallback_keeps (State.updQp_keeps (by assumption))

theorem State.qpTime_keeps {s0 s1 : State} {a1} (hs1 : Keeps s0 s1) :
    Keeps s0 (State.qpTime s1 a1) := by
  unfold State.qpTime
  extract_lets -merge -underBinder +onlyGivenNames x1
  clear_value x1
  exact State.setFld_keeps (State.setFld_keeps (by assumption))

theorem State.qpSolve_keeps {s0 s1 : State} {a1 a2} (hs1 : Keeps s0 s1) :
    Keeps s0 (State.qpSolve s1 a1 a2) := by
  unfold State.qpSolve
  extract_lets -merge -underBinder +onlyGivenNames x1 x2 x3 x4
  clear_value x1 x2 x3 x4
  split
  · extract_lets -merge -underBinder +onlyGivenNames x5
    have hx5 : Keeps s0 x5 := by
      subst x5
      exact State.qpTime_keeps (by assumption)
    clear_value x5
    extract_lets -merge -underBinder +onlyGivenNames x6
    have hx6 : Keeps s0 x6 := by
      subst x6
      refine keeps_ite ?_ ?_
      · exact State.raise_keeps (State.bumpLo_keeps (by assumption))
      · assumption
    clear_value x6
    extract_lets -merge -underBinder +onlyGivenNames x7
    have hx7 : Keeps s0 x7 := by
      subst x7
      refine keeps_ite ?_ ?_
      · exact State.raise_keeps (State.bumpHi_keeps (by assumption))
      · assumption
    clear_value x7
    extract_lets -merge -underBinder +onlyGivenNames x8 x9
    clear_value x8
    have hx9 : Keeps s0 x9 := by
      subst x9
      exact State.updQp_keeps (by assumption)
    clear_value x9
    refine keeps_ite ?_ ?_
    · exact State.qpFails_keeps (by assumption)
    · extract_lets -merge -underBinder +onlyGivenNames x10
      have hx10 : Keeps s0 x10 := by
        subst x10
        exact State.updQp_keeps (by assumption)
      clear_value x10
      exact State.qpStageZ_keeps (State.regSet_keeps (by assumption))

theorem State.qpEnable_keeps {s0 s1 : State} {a1} (hs1 : Keeps s0 s1) :
    Keeps s0 (State.qpEnable s1 a1) := by
  unfold State.qpEnable
  refine keeps_ite ?_ ?_
  · assumption
  · split
    · refine keeps_ite ?_ ?_
      · refine State.raise_keeps ?_
        refine State.updLine_keeps ?_ ?_
        · assumption
        · first | exact fun _ h => h | (intro _ h; split <;> exact h) | (intro _ h; simp_all [Line.Sized, lmod])
      · refine keeps_ite ?_ ?_
        · exact State.raise_keeps (by assumption)
        · exact State.updQp_keeps (by assumption)

theorem State.qpDisable_keeps {s0 s1 : State} {a1} (hs1 : Keeps s0 s1) :
    Keeps s0 (State.qpDisable s1 a1) := by
  unfold State.qpDisable
  refine keeps_ite ?_ ?_
  · assumption
  · exact State.qpFallback_keeps (State.updQp_keeps (by assumption))

theorem State.qpRestart_keeps {s0 s1 : State} {a1} (hs1 : Keeps s0 s1) :
    Keeps s0 (State.qpRestart s1 a1) := by
  unfold State.qpRestart
  refine keeps_ite ?_ ?_
  · assumption
  · exact State.updQp_keeps (by assumption)

theorem State.qpClear_keeps {s0 s1 : State} {a1} (hs1 : Keeps s0 s1) :
    Keeps s0 (State.qpClear s1 a1) := by
  unfold State.qpClear
  refine State.each_keeps ?_ (fun _ _ _ => ?_)
  · assumption
  · exact State.regSet_keeps (by assumption)

theorem State.qpCmd_keeps {s0 s1 : State} {a1} (hs1 : Keeps s0 s1) :
    Keeps s0 (State.qpCmd s1 a1) := by
  unfold State.qpCmd
  extract_lets -merge -underBinder +onlyGivenNames x1
  clear_value x1
  split
  · exact State.qpEnable_keeps (by assumption)
  · exact State.qpDisable_keeps (by assumption)
  · exact State.qpRestart_keeps (by assumption)
  · exact State.qpClear_keeps (by assumption)
  · assumption

theorem State.qpRecheck_keeps {s0 s1 : State} (hs1 : Keeps s0 s1) :
    Keeps s0 (State.qpRecheck s1) := by
  unfold State.qpRecheck
  refine keeps_ite ?_ ?_
  · refine State.updLine_keeps ?_ ?_
    · assumption
    · first | exact fun _ h => h | (intro _ h; split <;> exact h) | (intro _ h; simp_all [Line.Sized, lmod])
  · assumption

theorem State.qpCycle_keeps {s0 s1 : State} {a1} (hs1 : Keeps s0 s1) :
    Keeps s0 (State.qpCycle s1 a1) := by
  unfold State.qpCycle
  refine keeps_ite ?_ ?_
  · refine State.raise_keeps ?_
    refine State.updLine_keeps ?_ ?_
    · exact State.qpDisable_keeps (by assumption)
    · first | exact fun _ h => h | (intro _ h; split <;> exact h) | (intro _ h; simp_all [Line.Sized, lmod])
  · extract_lets -merge -underBinder +onlyGivenNames x1
    have hx1 : Keeps s0 x1 := by
      subst x1
      refine keeps_ite ?_ ?_
      · exact State.qpFails_keeps (State.qpTime_keeps (by assumption))
      · assumption
    clear_value x1
    extract_lets -merge -underBinder +onlyGivenNames x2
    have hx2 : Keeps s0 x2 := by
      subst x2
      exact State.qpApply_keeps (by assumption)
    clear_value x2
    extract_lets -merge -underBinder +onlyGivenNames x3
    have hx3 : Keeps s0 x3 := by
      subst x3
      exact State.bump_keeps (by assumption)
    clear_value x3
    refine keeps_ite ?_ ?_
    · exact State.qpFallback_keeps (State.updQp_keeps (by assumption))
    · extract_lets -merge -underBinder +onlyGivenNames x4
      have hx4 : Keeps s0 x4 := by
        subst x4
        split
        · exact State.raise_keeps (State.updQp_keeps (by assumption))
        · assumption
      clear_value x4
      split
      · assumption
      · split
        · refine KeepsL.of_eq (a := s0) (by assumption) ?_ (fun _ => ?_)
          · exact State.thetaSample_keeps (by assumption)
          extract_lets -merge -underBinder +onlyGivenNames x5
          have hx5 : Keeps s0 x5 := by
            subst x5
            exact State.updQp_keeps (by assumption)
          clear_value x5
          refine keeps_ite ?_ ?_
          · exact State.qpFails_keeps (by assumption)
          · assumption

theorem execQpCycleStart_keeps {s0 : State} {a0 a1} {s3 : State} (hs3 : Keeps s0 s3) :
    KeepsN s0 (execQpCycleStart a0 a1 s3) := by
  unfold execQpCycleStart
  extract_lets -merge -underBinder +onlyGivenNames x1
  have hx1 : Keeps s0 x1 := by
    subst x1
    exact State.to_keeps (by assumption)
  clear_value x1
  refine guardNext_keeps ?_ (fun _ _ => ?_)
  · assumption
  · exact State.qpCycle_keeps (by assumption)

theorem execQpSolveDone_keeps {s0 : State} {a0 a1} {s3 : State} (hs3 : Keeps s0 s3) :
    KeepsN s0 (execQpSolveDone a0 a1 s3) := by
  unfold execQpSolveDone
  extract_lets -merge -underBinder +onlyGivenNames x1
  have hx1 : Keeps s0 x1 := by
    subst x1
    exact State.to_keeps (by assumption)
  clear_value x1
  split
  · refine guardNext_keeps ?_ (fun _ _ => ?_)
    · assumption
    · exact State.qpSolve_keeps (by assumption)
  · exact keepsN_next (by assumption)

theorem execQpDeadline_keeps {s0 : State} {a0 a1} {s3 : State} (hs3 : Keeps s0 s3) :
    KeepsN s0 (execQpDeadline a0 a1 s3) := by
  unfold execQpDeadline
  extract_lets -merge -underBinder +onlyGivenNames x1
  have hx1 : Keeps s0 x1 := by
    subst x1
    exact State.to_keeps (by assumption)
  clear_value x1
  refine guardNext_keeps ?_ (fun _ _ => ?_)
  · assumption
  · exact State.qpFails_keeps (State.qpTime_keeps (by assumption))

theorem State.qpDrain_keeps {s0 s1 : State} (hs1 : Keeps s0 s1) :
    Keeps s0 (State.qpDrain s1) := by
  unfold State.qpDrain
  refine State.each_keeps ?_ (fun _ _ _ => ?_)
  · assumption
  · extract_lets -merge -underBinder +onlyGivenNames x1 x2
    clear_value x1 x2
    refine keeps_ite ?_ ?_
    · exact State.qpApply_keeps (by assumption)
    · assumption

theorem State.qpPlace_keeps {s0 s1 : State} {a1 a2} (hs1 : Keeps s0 s1) :
    Keeps s0 (State.qpPlace s1 a1 a2) := by
  unfold State.qpPlace
  exact State.updQp_keeps (by assumption)

end Sys2Proof.Machine
end

