-- ==== Sys2Proof/Laws/KeepsRules.lean ====
section
/-! SUPPORT. What the operations of Machine/Rules.lean keep (Laws/Keeps.lean). -/
namespace Sys2Proof.Machine
set_option Elab.async false

theorem State.ruleSwitch_keeps {s0 s1 : State} {a1} (hs1 : Keeps s0 s1) :
    Keeps s0 (State.ruleSwitch s1 a1) := by
  unfold State.ruleSwitch
  refine State.regSet_keeps ?_
  refine State.updPlumb_keeps ?_ ?_
  · assumption
  · first | exact fun _ h => h | (intro _ h; split <;> exact h) | (intro _ h; simp_all [Plumb.Sized, lmod])

theorem State.rulePlace_keeps {s0 s1 : State} {a1} (hs1 : Keeps s0 s1) :
    Keeps s0 (State.rulePlace s1 a1) := by
  unfold State.rulePlace
  refine keeps_ite ?_ ?_
  · refine State.updPlumb_keeps ?_ ?_
    · assumption
    · first | exact fun _ h => h | (intro _ h; split <;> exact h) | (intro _ h; simp_all [Plumb.Sized, lmod])
  · refine keeps_ite ?_ ?_
    · refine State.updPlumb_keeps ?_ ?_
      · assumption
      · first | exact fun _ h => h | (intro _ h; split <;> exact h) | (intro _ h; simp_all [Plumb.Sized, lmod])
    · exact State.ruleSwitch_keeps (by assumption)

theorem State.updVerdict_keeps {s0 s1 : State} {a1 a2} (hs1 : Keeps s0 s1) :
    Keeps s0 (State.updVerdict s1 a1 a2) := by
  unfold State.updVerdict
  refine keeps_ite ?_ ?_
  · refine State.updPlumb_keeps ?_ ?_
    · assumption
    · first | exact fun _ h => h | (intro _ h; split <;> exact h) | (intro _ h; simp_all [Plumb.Sized, lmod])
  · assumption

theorem State.noteCode_keeps {s0 s1 : State} {a1} (hs1 : Keeps s0 s1) :
    Keeps s0 (State.noteCode s1 a1) := by
  unfold State.noteCode
  extract_lets -merge -underBinder +onlyGivenNames x1 x2
  clear_value x1
  have hx2 : Keeps s0 x2 := by
    subst x2
    exact State.raise_keeps (by assumption)
  clear_value x2
  refine keeps_ite ?_ ?_
  · assumption
  · exact State.log_keeps (by assumption)

theorem State.ruleExec_keeps {s0 s1 : State} {a1} (hs1 : Keeps s0 s1) :
    Keeps s0 (State.ruleExec s1 a1) := by
  unfold State.ruleExec
  extract_lets -merge -underBinder +onlyGivenNames x1
  clear_value x1
  refine keeps_ite ?_ ?_
  · assumption
  · refine keeps_ite ?_ ?_
    · refine State.updPlumb_keeps ?_ ?_
      · assumption
      · first | exact fun _ h => h | (intro _ h; split <;> exact h) | (intro _ h; simp_all [Plumb.Sized, lmod])
    · extract_lets -merge -underBinder +onlyGivenNames x2 x3 x4
      clear_value x2 x3
      have hx4 : ∀ y0, Keeps s0 (x4 y0) := by
        subst x4
        intro y0
        refine State.updPlumb_keeps ?_ ?_
        · assumption
        · first | exact fun _ h => h | (intro _ h; split <;> exact h) | (intro _ h; simp_all [Plumb.Sized, lmod])
      clear_value x4
      extract_lets -merge -underBinder +onlyGivenNames x5
      clear_value x5
      split
      · refine State.updPlumb_keeps ?_ ?_
        · assumption
        · first | exact fun _ h => h | (intro _ h; split <;> exact h) | (intro _ h; simp_all [Plumb.Sized, lmod])
      · refine hx4 _
      · refine hx4 _
      · refine hx4 _
      · refine hx4 _
      · refine hx4 _
      · refine hx4 _
      · refine hx4 _
      · refine hx4 _
      · refine hx4 _
      · refine hx4 _
      · refine hx4 _
      · refine hx4 _
      · refine hx4 _
      · refine hx4 _
      · refine hx4 _
      · refine hx4 _
      · refine hx4 _
      · refine hx4 _
      · refine hx4 _
      · refine keeps_ite ?_ ?_
        · refine State.updPlumb_keeps ?_ ?_
          · assumption
          · first | exact fun _ h => h | (intro _ h; split <;> exact h) | (intro _ h; simp_all [Plumb.Sized, lmod])
        · assumption
      · exact State.updVerdict_keeps (by assumption)
      · exact State.updVerdict_keeps (by assumption)
      · refine keeps_ite ?_ ?_
        · exact State.updVerdict_keeps (by assumption)
        · assumption
      · refine State.updPlumb_keeps ?_ ?_
        · assumption
        · first | exact fun _ h => h | (intro _ h; split <;> exact h) | (intro _ h; simp_all [Plumb.Sized, lmod])
      · exact State.noteCode_keeps (by assumption)
      · assumption

theorem State.ruleStart_keeps {s0 s1 : State} (hs1 : Keeps s0 s1) :
    Keeps s0 (State.ruleStart s1) := by
  unfold State.ruleStart
  refine State.updPlumb_keeps ?_ ?_
  · assumption
  · first | exact fun _ h => h | (intro _ h; split <;> exact h) | (intro _ h; simp_all [Plumb.Sized, lmod])

theorem State.denied_keeps {s0 s1 : State} {a1 a2} (hs1 : Keeps s0 s1) :
    Keeps s0 (State.denied s1 a1 a2) := by
  unfold State.denied
  extract_lets -merge -underBinder +onlyGivenNames x1
  have hx1 : Keeps s0 x1 := by
    subst x1
    exact State.bump_keeps (by assumption)
  clear_value x1
  extract_lets -merge -underBinder +onlyGivenNames x2 x3
  clear_value x2
  have hx3 : Keeps s0 x3 := by
    subst x3
    exact State.updTarget_keeps (by assumption)
  clear_value x3
  extract_lets -merge -underBinder +onlyGivenNames x4
  clear_value x4
  refine keeps_ite ?_ ?_
  · assumption
  · exact State.raise_keeps (State.updTarget_keeps (State.fallback_keeps (by assumption)))

theorem State.valuePass_keeps {s0 s1 : State} {a1 a2} (hs1 : Keeps s0 s1) :
    Keeps s0 (State.valuePass s1 a1 a2) := by
  unfold State.valuePass
  extract_lets -merge -underBinder +onlyGivenNames x1
  have hx1 : Keeps s0 x1 := by
    subst x1
    exact State.updTarget_keeps (by assumption)
  clear_value x1
  refine keeps_ite ?_ ?_
  · exact State.axPass_keeps (by assumption)
  · exact State.dacPass_keeps (by assumption)

theorem State.valueVerdict_keeps {s0 s1 : State} {a1} (hs1 : Keeps s0 s1) :
    Keeps s0 (State.valueVerdict s1 a1) := by
  unfold State.valueVerdict
  split
  · assumption
  · extract_lets -merge -underBinder +onlyGivenNames x1 x2
    clear_value x1
    have hx2 : Keeps s0 x2 := by
      subst x2
      exact State.updTarget_keeps (by assumption)
    clear_value x2
    refine keeps_ite ?_ ?_
    · assumption
    · split
      · exact State.denied_keeps (by assumption)
      · refine keeps_ite ?_ ?_
        · exact State.denied_keeps (by assumption)
        · exact State.valuePass_keeps (by assumption)
      · refine keeps_ite ?_ ?_
        · exact State.valuePass_keeps (by assumption)
        · exact State.denied_keeps (by assumption)

theorem State.permitStep_keeps {s0 s1 : State} (hs1 : Keeps s0 s1) :
    Keeps s0 (State.permitStep s1) := by
  unfold State.permitStep
  extract_lets -merge -underBinder +onlyGivenNames x1
  clear_value x1
  refine State.each_keeps ?_ (fun _ _ _ => ?_)
  · assumption
  · extract_lets -merge -underBinder +onlyGivenNames x2 x3 x4
    clear_value x2 x3 x4
    exact State.updTarget_keeps (by assumption)

theorem State.gateStep_keeps {s0 s1 : State} (hs1 : Keeps s0 s1) :
    Keeps s0 (State.gateStep s1) := by
  unfold State.gateStep
  refine keeps_ite ?_ ?_
  · refine State.each_keeps ?_ (fun _ _ _ => ?_)
    · assumption
    · exact State.fallback_keeps (by assumption)
  · refine keeps_ite ?_ ?_
    · assumption
    · refine State.each_keeps ?_ (fun _ _ _ => ?_)
      · assumption
      · exact State.updTarget_keeps (by assumption)

theorem State.safeOkStep_keeps {s0 s1 : State} (hs1 : Keeps s0 s1) :
    Keeps s0 (State.safeOkStep s1) := by
  unfold State.safeOkStep
  refine State.updPlumb_keeps ?_ ?_
  · assumption
  · first | exact fun _ h => h | (intro _ h; split <;> exact h) | (intro _ h; simp_all [Plumb.Sized, lmod])

theorem State.boundary_keeps {s0 s1 : State} (hs1 : Keeps s0 s1) :
    Keeps s0 (State.boundary s1) := by
  unfold State.boundary
  extract_lets -merge -underBinder +onlyGivenNames x1
  have hx1 : Keeps s0 x1 := by
    subst x1
    exact State.permitStep_keeps (State.bump_keeps (by assumption))
  clear_value x1
  extract_lets -merge -underBinder +onlyGivenNames x2
  have hx2 : Keeps s0 x2 := by
    subst x2
    split
    · exact State.ruleSwitch_keeps (by assumption)
    · assumption
  clear_value x2
  extract_lets -merge -underBinder +onlyGivenNames x3
  have hx3 : Keeps s0 x3 := by
    subst x3
    refine State.updPlumb_keeps ?_ ?_
    · assumption
    · first | exact fun _ h => h | (intro _ h; split <;> exact h) | (intro _ h; simp_all [Plumb.Sized, lmod])
  clear_value x3
  exact State.gateStep_keeps (State.safeOkStep_keeps (by assumption))

theorem State.latchRound_keeps {s0 s1 : State} (hs1 : Keeps s0 s1) :
    Keeps s0 (State.latchRound s1) := by
  unfold State.latchRound
  extract_lets -merge -underBinder +onlyGivenNames x1
  clear_value x1
  refine State.updPlumb_keeps ?_ ?_
  · assumption
  · first | exact fun _ h => h | (intro _ h; split <;> exact h) | (intro _ h; simp_all [Plumb.Sized, lmod])

theorem State.runRules_keeps {s0 s1 : State} {a1} (hs1 : Keeps s0 s1) :
    Keeps s0 (State.runRules s1 a1) := by
  unfold State.runRules
  refine keeps_ite ?_ ?_
  · assumption
  · split
    · assumption
    · refine State.each_keeps ?_ (fun _ _ _ => ?_)
      · refine State.each_keeps ?_ (fun _ _ _ => ?_)
        · assumption
        · exact State.ruleExec_keeps (by assumption)
      · refine State.each_keeps ?_ (fun _ _ _ => ?_)
        · exact State.ruleStart_keeps (by assumption)
        · exact State.ruleExec_keeps (by assumption)

theorem State.formVerdicts_keeps {s0 s1 : State} (hs1 : Keeps s0 s1) :
    Keeps s0 (State.formVerdicts s1) := by
  unfold State.formVerdicts
  extract_lets -merge -underBinder +onlyGivenNames x1
  have hx1 : Keeps s0 x1 := by
    subst x1
    refine keeps_ite ?_ ?_
    · refine State.each_keeps ?_ (fun _ _ _ => ?_)
      · assumption
      · exact State.valueVerdict_keeps (by assumption)
    · refine State.each_keeps ?_ (fun _ _ _ => ?_)
      · assumption
      · exact State.updTarget_keeps (by assumption)
  clear_value x1
  split
  · exact State.safeTrigger_keeps (by assumption)
  · assumption

theorem State.diverge_keeps {s0 s1 : State} (hs1 : Keeps s0 s1) :
    Keeps s0 (State.diverge s1) := by
  unfold State.diverge
  extract_lets -merge -underBinder +onlyGivenNames x1
  have hx1 : Keeps s0 x1 := by
    subst x1
    exact State.raise_keeps (State.bump_keeps (by assumption))
  clear_value x1
  extract_lets -merge -underBinder +onlyGivenNames x2 x3
  clear_value x2
  have hx3 : Keeps s0 x3 := by
    subst x3
    refine State.updPlumb_keeps ?_ ?_
    · assumption
    · first | exact fun _ h => h | (intro _ h; split <;> exact h) | (intro _ h; simp_all [Plumb.Sized, lmod])
  clear_value x3
  refine keeps_ite ?_ ?_
  · exact State.lockstepFault_keeps (by assumption)
  · assumption

theorem State.plumbInject_keeps {s0 s1 : State} {a1} (hs1 : Keeps s0 s1) :
    Keeps s0 (State.plumbInject s1 a1) := by
  unfold State.plumbInject
  extract_lets -merge -underBinder +onlyGivenNames x1
  clear_value x1
  refine keeps_ite ?_ ?_
  · assumption
  · extract_lets -merge -underBinder +onlyGivenNames x2
    have hx2 : Keeps s0 x2 := by
      subst x2
      exact State.delivered_keeps (by assumption)
    clear_value x2
    split
    · exact State.lockstepFault_keeps (by assumption)
    · exact State.diverge_keeps (by assumption)
    · exact State.bumpHi_keeps (by assumption)
    · exact State.lockstepFault_keeps (State.bumpLo_keeps (by assumption))

theorem State.ruleFinish_keeps {s0 s1 : State} (hs1 : Keeps s0 s1) :
    Keeps s0 (State.ruleFinish s1) := by
  unfold State.ruleFinish
  split
  · assumption
  · refine State.formVerdicts_keeps ?_
    refine State.runRules_keeps ?_
    refine State.updPlumb_keeps ?_ ?_
    · assumption
    · first | exact fun _ h => h | (intro _ h; split <;> exact h) | (intro _ h; simp_all [Plumb.Sized, lmod])

theorem State.roundBegin_keeps {s0 s1 : State} {a1} (hs1 : Keeps s0 s1) :
    Keeps s0 (State.roundBegin s1 a1) := by
  unfold State.roundBegin
  extract_lets -merge -underBinder +onlyGivenNames x1
  have hx1 : Keeps s0 x1 := by
    subst x1
    refine State.boundary_keeps ?_
    refine State.updPlumb_keeps ?_ ?_
    · exact State.ruleFinish_keeps (by assumption)
    · first | exact fun _ h => h | (intro _ h; split <;> exact h) | (intro _ h; simp_all [Plumb.Sized, lmod])
  clear_value x1
  extract_lets -merge -underBinder +onlyGivenNames x2
  have hx2 : Keeps s0 x2 := by
    subst x2
    exact State.latchRound_keeps (State.plumbInject_keeps (by assumption))
  clear_value x2
  refine State.ruleStart_keeps ?_
  refine State.updPlumb_keeps ?_ ?_
  · assumption
  · first | exact fun _ h => h | (intro _ h; split <;> exact h) | (intro _ h; simp_all [Plumb.Sized, lmod])

theorem State.roundAt_keeps {s0 s1 : State} {a1} (hs1 : Keeps s0 s1) :
    Keeps s0 (State.roundAt s1 a1) := by
  unfold State.roundAt
  exact State.ruleFinish_keeps (State.roundBegin_keeps (by assumption))

theorem execPlumbRound_keeps {s0 : State} {a0} {s2 : State} (hs2 : Keeps s0 s2) :
    KeepsN s0 (execPlumbRound a0 s2) := by
  unfold execPlumbRound
  extract_lets -merge -underBinder +onlyGivenNames x1
  have hx1 : Keeps s0 x1 := by
    subst x1
    exact State.to_keeps (by assumption)
  clear_value x1
  refine keepsN_next ?_
  refine keeps_ite ?_ ?_
  · exact State.roundAt_keeps (by assumption)
  · exact State.ruleFinish_keeps (by assumption)

theorem State.realign_keeps {s0 s1 : State} (hs1 : Keeps s0 s1) :
    Keeps s0 (State.realign s1) := by
  unfold State.realign
  exact State.roundAt_keeps (by assumption)

theorem State.ruleNext_keeps {s0 s1 : State} {a1 a2} (hs1 : Keeps s0 s1) :
    Keeps s0 (State.ruleNext s1 a1 a2) := by
  unfold State.ruleNext
  extract_lets -merge -underBinder +onlyGivenNames x1 x2
  clear_value x1
  have hx2 : Keeps s0 x2 := by
    subst x2
    refine State.updPlumb_keeps ?_ ?_
    · assumption
    · first | exact fun _ h => h | (intro _ h; split <;> exact h) | (intro _ h; simp_all [Plumb.Sized, lmod])
  clear_value x2
  split
  · assumption
  · exact State.ruleFinish_keeps (by assumption)
  · refine State.updPlumb_keeps ?_ ?_
    · exact State.ruleStart_keeps (by assumption)
    · first | exact fun _ h => h | (intro _ h; split <;> exact h) | (intro _ h; simp_all [Plumb.Sized, lmod])

theorem ruleRow_keeps {s0 : State} {a0 a1 a2 a3 a4 a5} {s7 : State} (hs7 : Keeps s0 s7) :
    KeepsN s0 (ruleRow a0 a1 a2 a3 a4 a5 s7) := by
  unfold ruleRow
  extract_lets -merge -underBinder +onlyGivenNames x1
  have hx1 : Keeps s0 x1 := by
    subst x1
    exact State.to_keeps (by assumption)
  clear_value x1
  extract_lets -merge -underBinder +onlyGivenNames x2
  have hx2 : Keeps s0 x2 := by
    subst x2
    refine keeps_ite ?_ ?_
    · exact State.roundBegin_keeps (by assumption)
    · assumption
  clear_value x2
  extract_lets -merge -underBinder +onlyGivenNames x3
  clear_value x3
  split
  · refine keepsN_next ?_
    refine keeps_ite ?_ ?_
    · exact State.ruleNext_keeps (State.ruleExec_keeps (by assumption))
    · assumption
  · exact keepsN_next (by assumption)

theorem execRuleEnd_keeps {s0 : State} {a0} {s2 : State} (hs2 : Keeps s0 s2) :
    KeepsN s0 (execRuleEnd a0 s2) := by
  unfold execRuleEnd
  exact ruleRow_keeps (by assumption)

theorem execRuleIn_keeps {s0 : State} {a0 a1 a2} {s4 : State} (hs4 : Keeps s0 s4) :
    KeepsN s0 (execRuleIn a0 a1 a2 s4) := by
  unfold execRuleIn
  exact ruleRow_keeps (by assumption)

theorem execRuleKi_keeps {s0 : State} {a0 a1 a2} {s4 : State} (hs4 : Keeps s0 s4) :
    KeepsN s0 (execRuleKi a0 a1 a2 s4) := by
  unfold execRuleKi
  exact ruleRow_keeps (by assumption)

theorem execRuleKf_keeps {s0 : State} {a0 a1 a2} {s4 : State} (hs4 : Keeps s0 s4) :
    KeepsN s0 (execRuleKf a0 a1 a2 s4) := by
  unfold execRuleKf
  exact ruleRow_keeps (by assumption)

theorem execRuleAdd_keeps {s0 : State} {a0 a1 a2 a3} {s5 : State} (hs5 : Keeps s0 s5) :
    KeepsN s0 (execRuleAdd a0 a1 a2 a3 s5) := by
  unfold execRuleAdd
  exact ruleRow_keeps (by assumption)

theorem execRuleSub_keeps {s0 : State} {a0 a1 a2 a3} {s5 : State} (hs5 : Keeps s0 s5) :
    KeepsN s0 (execRuleSub a0 a1 a2 a3 s5) := by
  unfold execRuleSub
  exact ruleRow_keeps (by assumption)

theorem execRuleMul_keeps {s0 : State} {a0 a1 a2 a3} {s5 : State} (hs5 : Keeps s0 s5) :
    KeepsN s0 (execRuleMul a0 a1 a2 a3 s5) := by
  unfold execRuleMul
  exact ruleRow_keeps (by assumption)

theorem execRuleFadd_keeps {s0 : State} {a0 a1 a2 a3} {s5 : State} (hs5 : Keeps s0 s5) :
    KeepsN s0 (execRuleFadd a0 a1 a2 a3 s5) := by
  unfold execRuleFadd
  exact ruleRow_keeps (by assumption)

theorem execRuleFsub_keeps {s0 : State} {a0 a1 a2 a3} {s5 : State} (hs5 : Keeps s0 s5) :
    KeepsN s0 (execRuleFsub a0 a1 a2 a3 s5) := by
  unfold execRuleFsub
  exact ruleRow_keeps (by assumption)

theorem execRuleFmul_keeps {s0 : State} {a0 a1 a2 a3} {s5 : State} (hs5 : Keeps s0 s5) :
    KeepsN s0 (execRuleFmul a0 a1 a2 a3 s5) := by
  unfold execRuleFmul
  exact ruleRow_keeps (by assumption)

theorem execRuleAbs_keeps {s0 : State} {a0 a1 a2} {s4 : State} (hs4 : Keeps s0 s4) :
    KeepsN s0 (execRuleAbs a0 a1 a2 s4) := by
  unfold execRuleAbs
  exact ruleRow_keeps (by assumption)

theorem execRuleFabs_keeps {s0 : State} {a0 a1 a2} {s4 : State} (hs4 : Keeps s0 s4) :
    KeepsN s0 (execRuleFabs a0 a1 a2 s4) := by
  unfold execRuleFabs
  exact ruleRow_keeps (by assumption)

theorem execRuleLt_keeps {s0 : State} {a0 a1 a2 a3} {s5 : State} (hs5 : Keeps s0 s5) :
    KeepsN s0 (execRuleLt a0 a1 a2 a3 s5) := by
  unfold execRuleLt
  exact ruleRow_keeps (by assumption)

theorem execRuleLe_keeps {s0 : State} {a0 a1 a2 a3} {s5 : State} (hs5 : Keeps s0 s5) :
    KeepsN s0 (execRuleLe a0 a1 a2 a3 s5) := by
  unfold execRuleLe
  exact ruleRow_keeps (by assumption)

theorem execRuleEq_keeps {s0 : State} {a0 a1 a2 a3} {s5 : State} (hs5 : Keeps s0 s5) :
    KeepsN s0 (execRuleEq a0 a1 a2 a3 s5) := by
  unfold execRuleEq
  exact ruleRow_keeps (by assumption)

theorem execRuleFlt_keeps {s0 : State} {a0 a1 a2 a3} {s5 : State} (hs5 : Keeps s0 s5) :
    KeepsN s0 (execRuleFlt a0 a1 a2 a3 s5) := by
  unfold execRuleFlt
  exact ruleRow_keeps (by assumption)

theorem execRuleFle_keeps {s0 : State} {a0 a1 a2 a3} {s5 : State} (hs5 : Keeps s0 s5) :
    KeepsN s0 (execRuleFle a0 a1 a2 a3 s5) := by
  unfold execRuleFle
  exact ruleRow_keeps (by assumption)

theorem execRuleAnd_keeps {s0 : State} {a0 a1 a2 a3} {s5 : State} (hs5 : Keeps s0 s5) :
    KeepsN s0 (execRuleAnd a0 a1 a2 a3 s5) := by
  unfold execRuleAnd
  exact ruleRow_keeps (by assumption)

theorem execRuleOr_keeps {s0 : State} {a0 a1 a2 a3} {s5 : State} (hs5 : Keeps s0 s5) :
    KeepsN s0 (execRuleOr a0 a1 a2 a3 s5) := by
  unfold execRuleOr
  exact ruleRow_keeps (by assumption)

theorem execRuleNot_keeps {s0 : State} {a0 a1 a2} {s4 : State} (hs4 : Keeps s0 s4) :
    KeepsN s0 (execRuleNot a0 a1 a2 s4) := by
  unfold execRuleNot
  exact ruleRow_keeps (by assumption)

theorem execRuleSkipz_keeps {s0 : State} {a0 a1 a2} {s4 : State} (hs4 : Keeps s0 s4) :
    KeepsN s0 (execRuleSkipz a0 a1 a2 s4) := by
  unfold execRuleSkipz
  exact ruleRow_keeps (by assumption)

theorem execRulePermit_keeps {s0 : State} {a0 a1} {s3 : State} (hs3 : Keeps s0 s3) :
    KeepsN s0 (execRulePermit a0 a1 s3) := by
  unfold execRulePermit
  exact ruleRow_keeps (by assumption)

theorem execRuleDeny_keeps {s0 : State} {a0 a1 a2} {s4 : State} (hs4 : Keeps s0 s4) :
    KeepsN s0 (execRuleDeny a0 a1 a2 s4) := by
  unfold execRuleDeny
  exact ruleRow_keeps (by assumption)

theorem execRuleSubst_keeps {s0 : State} {a0 a1 a2} {s4 : State} (hs4 : Keeps s0 s4) :
    KeepsN s0 (execRuleSubst a0 a1 a2 s4) := by
  unfold execRuleSubst
  exact ruleRow_keeps (by assumption)

theorem execRuleNote_keeps {s0 : State} {a0 a1} {s3 : State} (hs3 : Keeps s0 s3) :
    KeepsN s0 (execRuleNote a0 a1 s3) := by
  unfold execRuleNote
  exact ruleRow_keeps (by assumption)

theorem execRuleSafe_keeps {s0 : State} {a0 a1} {s3 : State} (hs3 : Keeps s0 s3) :
    KeepsN s0 (execRuleSafe a0 a1 s3) := by
  unfold execRuleSafe
  exact ruleRow_keeps (by assumption)

end Sys2Proof.Machine
end

