-- ==== Sys2Proof/Laws/KeepsPlumb.lean ====
section
/-! SUPPORT. What the operations of Machine/Plumb.lean keep (Laws/Keeps.lean). -/
namespace Sys2Proof.Machine
set_option Elab.async false

theorem execWatchClose_keeps {s0 : State} {a0 a1} {s3 : State} (hs3 : Keeps s0 s3) :
    KeepsN s0 (execWatchClose a0 a1 s3) := by
  unfold execWatchClose
  extract_lets -merge -underBinder +onlyGivenNames x1
  have hx1 : Keeps s0 x1 := by
    subst x1
    exact State.to_keeps (by assumption)
  clear_value x1
  split
  · exact keepsN_next (by assumption)
  · refine guardNext_keeps ?_ (fun _ _ => ?_)
    · assumption
    · extract_lets -merge -underBinder +onlyGivenNames x2
      clear_value x2
      exact State.violation_keeps (State.updStage_keeps (by assumption))

theorem State.ksMismatch_keeps {s0 s1 : State} {a1 a2 a3} (hs1 : Keeps s0 s1) :
    Keeps s0 (State.ksMismatch s1 a1 a2 a3) := by
  unfold State.ksMismatch
  extract_lets -merge -underBinder +onlyGivenNames x1 x2
  clear_value x1
  have hx2 : Keeps s0 x2 := by
    subst x2
    refine State.updPlumb_keeps ?_ ?_
    · assumption
    · first | exact fun _ h => h | (intro _ h; split <;> exact h) | (intro _ h; simp_all [Plumb.Sized, lmod])
  clear_value x2
  refine keeps_ite ?_ ?_
  · refine State.epochRollback_keeps ?_
    refine State.updPlumb_keeps ?_ ?_
    · assumption
    · first | exact fun _ h => h | (intro _ h; split <;> exact h) | (intro _ h; simp_all [Plumb.Sized, lmod])
  · extract_lets -merge -underBinder +onlyGivenNames x3 x4
    clear_value x3
    have hx4 : Keeps s0 x4 := by
      subst x4
      refine State.raise_keeps ?_
      refine State.updPlumb_keeps ?_ ?_
      · assumption
      · first | exact fun _ h => h | (intro _ h; split <;> exact h) | (intro _ h; simp_all [Plumb.Sized, lmod])
    clear_value x4
    refine keeps_ite ?_ ?_
    · assumption
    · exact State.stageAction_keeps (by assumption)

theorem State.ksPassed_keeps {s0 s1 : State} {a1 a2} (hs1 : Keeps s0 s1) :
    Keeps s0 (State.ksPassed s1 a1 a2) := by
  unfold State.ksPassed
  refine State.updPlumb_keeps ?_ ?_
  · assumption
  · first | exact fun _ h => h | (intro _ h; split <;> exact h) | (intro _ h; simp_all [Plumb.Sized, lmod])

theorem execKeystoneCompare_keeps {s0 : State} {a0 a1} {s3 : State} (hs3 : Keeps s0 s3) :
    KeepsN s0 (execKeystoneCompare a0 a1 s3) := by
  unfold execKeystoneCompare
  extract_lets -merge -underBinder +onlyGivenNames x1
  have hx1 : Keeps s0 x1 := by
    subst x1
    exact State.to_keeps (by assumption)
  clear_value x1
  split
  · exact keepsN_next (by assumption)
  · split
    · extract_lets -merge -underBinder +onlyGivenNames x2 x3
      clear_value x2
      have hx3 : Keeps s0 x3 := by
        subst x3
        exact State.updBond_keeps (by assumption)
      clear_value x3
      refine keepsN_ite ?_ ?_
      · exact keepsN_next (by assumption)
      · refine keepsN_ite ?_ ?_
        · exact keepsN_next (State.ksPassed_keeps (by assumption))
        · exact keepsN_next (State.ksMismatch_keeps (by assumption))
    · split
      · exact keepsN_next (by assumption)
      · refine keepsN_next ?_
        refine State.ksMismatch_keeps ?_
        refine State.updPlumb_keeps ?_ ?_
        · assumption
        · first | exact fun _ h => h | (intro _ h; split <;> exact h) | (intro _ h; simp_all [Plumb.Sized, lmod])

theorem execSelftestSlice_keeps {s0 : State} {a0} {s2 : State} (hs2 : Keeps s0 s2) :
    KeepsN s0 (execSelftestSlice a0 s2) := by
  unfold execSelftestSlice
  extract_lets -merge -underBinder +onlyGivenNames x1
  have hx1 : Keeps s0 x1 := by
    subst x1
    exact State.to_keeps (by assumption)
  clear_value x1
  refine guardNext_keeps ?_ (fun _ _ => ?_)
  · assumption
  · extract_lets -merge -underBinder +onlyGivenNames x2
    have hx2 : Keeps s0 x2 := by
      subst x2
      refine State.updPlumb_keeps ?_ ?_
      · assumption
      · first | exact fun _ h => h | (intro _ h; split <;> exact h) | (intro _ h; simp_all [Plumb.Sized, lmod])
    clear_value x2
    split
    · assumption
    · extract_lets -merge -underBinder +onlyGivenNames x3
      have hx3 : Keeps s0 x3 := by
        subst x3
        refine State.updPlumb_keeps ?_ ?_
        · assumption
        · first | exact fun _ h => h | (intro _ h; split <;> exact h) | (intro _ h; simp_all [Plumb.Sized, lmod])
      clear_value x3
      refine keeps_ite ?_ ?_
      · refine State.updPlumb_keeps ?_ ?_
        · assumption
        · first | exact fun _ h => h | (intro _ h; split <;> exact h) | (intro _ h; simp_all [Plumb.Sized, lmod])
      · exact State.bump_keeps (by assumption)

theorem State.lockoutFor_keeps {s0 s1 : State} {a1} (hs1 : Keeps s0 s1) :
    Keeps s0 (State.lockoutFor s1 a1) := by
  unfold State.lockoutFor
  extract_lets -merge -underBinder +onlyGivenNames x1
  have hx1 : Keeps s0 x1 := by
    subst x1
    refine keeps_ite ?_ ?_
    · exact State.raise_keeps (by assumption)
    · assumption
  clear_value x1
  refine State.updPlumb_keeps ?_ ?_
  · assumption
  · first | exact fun _ h => h | (intro _ h; split <;> exact h) | (intro _ h; simp_all [Plumb.Sized, lmod])

theorem State.sliceFailed_keeps {s0 s1 : State} {a1 a2} (hs1 : Keeps s0 s1) :
    Keeps s0 (State.sliceFailed s1 a1 a2) := by
  unfold State.sliceFailed
  extract_lets -merge -underBinder +onlyGivenNames x1
  have hx1 : Keeps s0 x1 := by
    subst x1
    exact State.setFld_keeps (State.setFld_keeps (by assumption))
  clear_value x1
  refine keeps_ite ?_ ?_
  · exact State.coreFail_keeps (by assumption)
  · refine keeps_ite ?_ ?_
    · exact State.dieFail_keeps (by assumption)
    · refine keeps_ite ?_ ?_
      · exact State.safeTrigger_keeps (State.raise_keeps (by assumption))
      · exact State.lockoutFor_keeps (State.safeTrigger_keeps (by assumption))

theorem execSelftestDone_keeps {s0 : State} {a0 a1} {s3 : State} (hs3 : Keeps s0 s3) :
    KeepsN s0 (execSelftestDone a0 a1 s3) := by
  unfold execSelftestDone
  extract_lets -merge -underBinder +onlyGivenNames x1
  have hx1 : Keeps s0 x1 := by
    subst x1
    exact State.to_keeps (by assumption)
  clear_value x1
  split
  · exact keepsN_next (by assumption)
  · extract_lets -merge -underBinder +onlyGivenNames x2 x3
    clear_value x2
    have hx3 : Keeps s0 x3 := by
      subst x3
      refine State.updPlumb_keeps ?_ ?_
      · assumption
      · first | exact fun _ h => h | (intro _ h; split <;> exact h) | (intro _ h; simp_all [Plumb.Sized, lmod])
    clear_value x3
    extract_lets -merge -underBinder +onlyGivenNames x4
    have hx4 : Keeps s0 x4 := by
      subst x4
      refine keeps_ite ?_ ?_
      · exact State.updCore_keeps (by assumption)
      · assumption
    clear_value x4
    refine keepsN_ite ?_ ?_
    · refine keepsN_next ?_
      refine State.updPlumb_keeps ?_ ?_
      · assumption
      · first | exact fun _ h => h | (intro _ h; split <;> exact h) | (intro _ h; simp_all [Plumb.Sized, lmod])
    · exact keepsN_next (State.sliceFailed_keeps (by assumption))

theorem execLatentFault_keeps {s0 : State} {a0 a1} {s3 : State} (hs3 : Keeps s0 s3) :
    KeepsN s0 (execLatentFault a0 a1 s3) := by
  unfold execLatentFault
  extract_lets -merge -underBinder +onlyGivenNames x1
  have hx1 : Keeps s0 x1 := by
    subst x1
    exact State.to_keeps (by assumption)
  clear_value x1
  extract_lets -merge -underBinder +onlyGivenNames x2
  have hx2 : Keeps s0 x2 := by
    subst x2
    refine State.updPlumb_keeps ?_ ?_
    · assumption
    · first | exact fun _ h => h | (intro _ h; split <;> exact h) | (intro _ h; simp_all [Plumb.Sized, lmod])
  clear_value x2
  refine guardNext_keeps ?_ (fun _ _ => ?_)
  · assumption
  · refine State.raise_keeps ?_
    refine State.updPlumb_keeps ?_ ?_
    · assumption
    · first | exact fun _ h => h | (intro _ h; split <;> exact h) | (intro _ h; simp_all [Plumb.Sized, lmod])

theorem execSafeReqPin_keeps {s0 : State} {a0 a1} {s3 : State} (hs3 : Keeps s0 s3) :
    KeepsN s0 (execSafeReqPin a0 a1 s3) := by
  unfold execSafeReqPin
  extract_lets -merge -underBinder +onlyGivenNames x1
  have hx1 : Keeps s0 x1 := by
    subst x1
    exact State.to_keeps (by assumption)
  clear_value x1
  refine keepsN_ite ?_ ?_
  · refine guardNext_keeps ?_ (fun _ _ => ?_)
    · assumption
    · refine State.safeTrigger_keeps ?_
      refine State.updPlumb_keeps ?_ ?_
      · assumption
      · first | exact fun _ h => h | (intro _ h; split <;> exact h) | (intro _ h; simp_all [Plumb.Sized, lmod])
  · refine keepsN_next ?_
    refine State.updPlumb_keeps ?_ ?_
    · assumption
    · first | exact fun _ h => h | (intro _ h; split <;> exact h) | (intro _ h; simp_all [Plumb.Sized, lmod])

theorem State.lineResume_keeps {s0 s1 : State} (hs1 : Keeps s0 s1) :
    Keeps s0 (State.lineResume s1) := by
  unfold State.lineResume
  extract_lets -merge -underBinder +onlyGivenNames x1 x2
  clear_value x1
  have hx2 : Keeps s0 x2 := by
    subst x2
    refine State.updPlumb_keeps ?_ ?_
    · assumption
    · first | exact fun _ h => h | (intro _ h; split <;> exact h) | (intro _ h; simp_all [Plumb.Sized, lmod])
  clear_value x2
  extract_lets -merge -underBinder +onlyGivenNames x3
  have hx3 : Keeps s0 x3 := by
    subst x3
    refine State.each_keeps ?_ (fun _ _ _ => ?_)
    · assumption
    · exact State.updAx_keeps (by assumption)
  clear_value x3
  extract_lets -merge -underBinder +onlyGivenNames x4
  have hx4 : Keeps s0 x4 := by
    subst x4
    exact State.restartReqs_keeps (by assumption)
  clear_value x4
  extract_lets -merge -underBinder +onlyGivenNames x5
  have hx5 : Keeps s0 x5 := by
    subst x5
    refine State.each_keeps ?_ (fun _ _ _ => ?_)
    · assumption
    · exact State.qpEnable_keeps (by assumption)
  clear_value x5
  exact State.carCheck_keeps (by assumption)

theorem execBaseTick_keeps {s0 : State} {a0 a1 a2} {s4 : State} (hs4 : Keeps s0 s4) :
    KeepsN s0 (execBaseTick a0 a1 a2 s4) := by
  unfold execBaseTick
  extract_lets -merge -underBinder +onlyGivenNames x1
  have hx1 : Keeps s0 x1 := by
    subst x1
    exact State.to_keeps (by assumption)
  clear_value x1
  extract_lets -merge -underBinder +onlyGivenNames x2
  have hx2 : Keeps s0 x2 := by
    subst x2
    split
    · refine keeps_ite ?_ ?_
      · exact State.lineResume_keeps (by assumption)
      · assumption
    · assumption
  clear_value x2
  refine guardNext_keeps ?_ (fun _ _ => ?_)
  · assumption
  · exact State.qpDrain_keeps (State.baseTick_keeps (State.ruleFinish_keeps (by assumption)))

theorem State.restartFail_keeps {s0 s1 : State} (hs1 : Keeps s0 s1) :
    Keeps s0 (State.restartFail s1) := by
  unfold State.restartFail
  extract_lets -merge -underBinder +onlyGivenNames x1
  have hx1 : Keeps s0 x1 := by
    subst x1
    refine State.lineReset_keeps ?_
    refine State.updPlumb_keeps ?_ ?_
    · assumption
    · first | exact fun _ h => h | (intro _ h; split <;> exact h) | (intro _ h; simp_all [Plumb.Sized, lmod])
  clear_value x1
  exact State.lockoutFor_keeps (State.raise_keeps (by assumption))

theorem State.restartEnd_keeps {s0 s1 : State} {a1} (hs1 : Keeps s0 s1) :
    Keeps s0 (State.restartEnd s1 a1) := by
  unfold State.restartEnd
  extract_lets -merge -underBinder +onlyGivenNames x1
  have hx1 : Keeps s0 x1 := by
    subst x1
    refine keeps_ite ?_ ?_
    · assumption
    · exact State.lineResume_keeps (by assumption)
  clear_value x1
  extract_lets -merge -underBinder +onlyGivenNames x2
  have hx2 : Keeps s0 x2 := by
    subst x2
    refine State.each_keeps ?_ (fun _ _ _ => ?_)
    · assumption
    · refine keeps_ite ?_ ?_
      · exact State.dieFail_keeps (by assumption)
      · refine State.retireIdle_keeps ?_
        refine State.updDie_keeps ?_ ?_
        · assumption
        · first | exact fun _ h => h | (intro _ h; split <;> exact h) | (intro _ h; simp_all [Die.Sized, lmod])
  clear_value x2
  extract_lets -merge -underBinder +onlyGivenNames x3 x4
  clear_value x3
  have hx4 : Keeps s0 x4 := by
    subst x4
    refine keeps_ite ?_ ?_
    · refine State.each_keeps ?_ (fun _ _ _ => ?_)
      · assumption
      · exact State.ksPassed_keeps (by assumption)
    · assumption
  clear_value x4
  extract_lets -merge -underBinder +onlyGivenNames x5
  have hx5 : Keeps s0 x5 := by
    subst x5
    exact State.raise_keeps (State.regSet_keeps (by assumption))
  clear_value x5
  extract_lets -merge -underBinder +onlyGivenNames x6
  have hx6 : Keeps s0 x6 := by
    subst x6
    refine State.updPlumb_keeps ?_ ?_
    · assumption
    · first | exact fun _ h => h | (intro _ h; split <;> exact h) | (intro _ h; simp_all [Plumb.Sized, lmod])
  clear_value x6
  refine keeps_ite ?_ ?_
  · exact State.releaseTargets_keeps (by assumption)
  · assumption

theorem execRestartDone_keeps {s0 : State} {a0} {s2 : State} (hs2 : Keeps s0 s2) :
    KeepsN s0 (execRestartDone a0 s2) := by
  unfold execRestartDone
  extract_lets -merge -underBinder +onlyGivenNames x1
  have hx1 : Keeps s0 x1 := by
    subst x1
    exact State.to_keeps (by assumption)
  clear_value x1
  split
  · exact keepsN_next (by assumption)
  · refine keepsN_ite ?_ ?_
    · exact keepsN_next (State.restartEnd_keeps (by assumption))
    · exact keepsN_next (State.restartFail_keeps (by assumption))

theorem execRestartFailed_keeps {s0 : State} {a0} {s2 : State} (hs2 : Keeps s0 s2) :
    KeepsN s0 (execRestartFailed a0 s2) := by
  unfold execRestartFailed
  extract_lets -merge -underBinder +onlyGivenNames x1
  have hx1 : Keeps s0 x1 := by
    subst x1
    exact State.to_keeps (by assumption)
  clear_value x1
  refine guardNext_keeps ?_ (fun _ _ => ?_)
  · assumption
  · exact State.restartFail_keeps (by assumption)

theorem execDiePairRestartDone_keeps {s0 : State} {a0 a1} {s3 : State} (hs3 : Keeps s0 s3) :
    KeepsN s0 (execDiePairRestartDone a0 a1 s3) := by
  unfold execDiePairRestartDone
  extract_lets -merge -underBinder +onlyGivenNames x1
  have hx1 : Keeps s0 x1 := by
    subst x1
    exact State.to_keeps (by assumption)
  clear_value x1
  refine guardNext_keeps ?_ (fun _ _ => ?_)
  · assumption
  · refine keeps_ite ?_ ?_
    · exact State.dieFail_keeps (by assumption)
    · refine State.retireIdle_keeps ?_
      refine State.updDie_keeps ?_ ?_
      · assumption
      · first | exact fun _ h => h | (intro _ h; split <;> exact h) | (intro _ h; simp_all [Die.Sized, lmod])

theorem State.safeClear_keeps {s0 s1 : State} (hs1 : Keeps s0 s1) :
    Keeps s0 (State.safeClear s1) := by
  unfold State.safeClear
  extract_lets -merge -underBinder +onlyGivenNames x1 x2
  clear_value x1 x2
  refine keeps_ite ?_ ?_
  · assumption
  · refine keeps_ite ?_ ?_
    · refine keeps_ite ?_ ?_
      · extract_lets -merge -underBinder +onlyGivenNames x3
        have hx3 : Keeps s0 x3 := by
          subst x3
          refine State.safeTrigger_keeps ?_
          refine State.updPlumb_keeps ?_ ?_
          · assumption
          · first | exact fun _ h => h | (intro _ h; split <;> exact h) | (intro _ h; simp_all [Plumb.Sized, lmod])
        clear_value x3
        refine State.updPlumb_keeps ?_ ?_
        · assumption
        · first | exact fun _ h => h | (intro _ h; split <;> exact h) | (intro _ h; simp_all [Plumb.Sized, lmod])
      · refine State.releaseTargets_keeps ?_
        refine State.updPlumb_keeps ?_ ?_
        · assumption
        · first | exact fun _ h => h | (intro _ h; split <;> exact h) | (intro _ h; simp_all [Plumb.Sized, lmod])
    · refine keeps_ite ?_ ?_
      · exact State.releaseTargets_keeps (by assumption)
      · assumption

theorem State.releaseTarget_keeps {s0 s1 : State} {a1} (hs1 : Keeps s0 s1) :
    Keeps s0 (State.releaseTarget s1 a1) := by
  unfold State.releaseTarget
  refine keeps_ite ?_ ?_
  · assumption
  · exact State.updTarget_keeps (by assumption)

theorem State.recover_keeps {s0 s1 : State} (hs1 : Keeps s0 s1) :
    Keeps s0 (State.recover s1) := by
  unfold State.recover
  extract_lets -merge -underBinder +onlyGivenNames x1
  clear_value x1
  refine keeps_ite ?_ ?_
  · refine State.updPlumb_keeps ?_ ?_
    · assumption
    · first | exact fun _ h => h | (intro _ h; split <;> exact h) | (intro _ h; simp_all [Plumb.Sized, lmod])
  · assumption

theorem execRecoverDone_keeps {s0 : State} {a0 a1} {s3 : State} (hs3 : Keeps s0 s3) :
    KeepsN s0 (execRecoverDone a0 a1 s3) := by
  unfold execRecoverDone
  extract_lets -merge -underBinder +onlyGivenNames x1
  have hx1 : Keeps s0 x1 := by
    subst x1
    exact State.to_keeps (by assumption)
  clear_value x1
  refine guardNext_keeps ?_ (fun _ _ => ?_)
  · assumption
  · refine State.updPlumb_keeps ?_ ?_
    · assumption
    · first | exact fun _ h => h | (intro _ h; split <;> exact h) | (intro _ h; simp_all [Plumb.Sized, lmod])

theorem State.plumbClear_keeps {s0 s1 : State} (hs1 : Keeps s0 s1) :
    Keeps s0 (State.plumbClear s1) := by
  unfold State.plumbClear
  extract_lets -merge -underBinder +onlyGivenNames x1
  have hx1 : Keeps s0 x1 := by
    subst x1
    refine State.each_keeps ?_ (fun _ _ _ => ?_)
    · assumption
    · exact State.regSet_keeps (by assumption)
  clear_value x1
  extract_lets -merge -underBinder +onlyGivenNames x2
  have hx2 : Keeps s0 x2 := by
    subst x2
    exact State.setFld_keeps (by assumption)
  clear_value x2
  extract_lets -merge -underBinder +onlyGivenNames x3
  have hx3 : Keeps s0 x3 := by
    subst x3
    refine State.each_keeps ?_ (fun _ _ _ => ?_)
    · assumption
    · exact State.regSet_keeps (State.regSet_keeps (by assumption))
  clear_value x3
  refine State.updPlumb_keeps ?_ ?_
  · assumption
  · first | exact fun _ h => h | (intro _ h; split <;> exact h) | (intro _ h; simp_all [Plumb.Sized, lmod])

theorem State.plumbCmd_keeps {s0 s1 : State} {a1} (hs1 : Keeps s0 s1) :
    Keeps s0 (State.plumbCmd s1 a1) := by
  unfold State.plumbCmd
  split
  · exact State.safeTrigger_keeps (by assumption)
  · exact State.safeClear_keeps (by assumption)
  · exact State.releaseTarget_keeps (by assumption)
  · exact State.recover_keeps (by assumption)
  · exact State.plumbClear_keeps (by assumption)
  · assumption

end Sys2Proof.Machine
end

