-- ==== Sys2Proof/Laws/KeepsPower.lean ====
section
/-! SUPPORT. What the operations of Machine/Power.lean keep (Laws/Keeps.lean). -/
namespace Sys2Proof.Machine
set_option Elab.async false

theorem State.regrant_keeps {s0 s1 : State} (hs1 : Keeps s0 s1) :
    Keeps s0 (State.regrant s1) := by
  unfold State.regrant
  extract_lets -merge -underBinder +onlyGivenNames x1 x2 x3
  clear_value x1 x2
  have hx3 : Keeps s0 x3 := by
    subst x3
    exact State.updPower_keeps (by assumption)
  clear_value x3
  refine keeps_ite ?_ ?_
  · exact State.readmit_keeps (by assumption)
  · assumption

theorem State.recalibrate_keeps {s0 s1 : State} (hs1 : Keeps s0 s1) :
    Keeps s0 (State.recalibrate s1) := by
  unfold State.recalibrate
  extract_lets -merge -underBinder +onlyGivenNames x1 x2 x3 x4
  clear_value x1 x2 x3 x4
  refine keeps_ite ?_ ?_
  · assumption
  · extract_lets -merge -underBinder +onlyGivenNames x5 x6 x7
    clear_value x5 x6 x7
    exact State.regrant_keeps (State.updPower_keeps (by assumption))

theorem execDomainFault_keeps {s0 : State} {a0 a1} {s3 : State} (hs3 : Keeps s0 s3) :
    KeepsN s0 (execDomainFault a0 a1 s3) := by
  unfold execDomainFault
  extract_lets -merge -underBinder +onlyGivenNames x1
  have hx1 : Keeps s0 x1 := by
    subst x1
    exact State.to_keeps (by assumption)
  clear_value x1
  refine guardNext_keeps ?_ (fun _ _ => ?_)
  · assumption
  · extract_lets -merge -underBinder +onlyGivenNames x2
    have hx2 : Keeps s0 x2 := by
      subst x2
      exact State.settleCycles_keeps (by assumption)
    clear_value x2
    extract_lets -merge -underBinder +onlyGivenNames x3
    have hx3 : Keeps s0 x3 := by
      subst x3
      exact State.raise_keeps (State.updPower_keeps (by assumption))
    clear_value x3
    refine keeps_ite ?_ ?_
    · exact State.dieFail_keeps (by assumption)
    · refine State.fallbackAll_keeps ?_
      refine State.updPlumb_keeps ?_ ?_
      · exact State.updMgmt_keeps (by assumption)
      · first | exact fun _ h => h | (intro _ h; split <;> exact h) | (intro _ h; simp_all [Plumb.Sized, lmod])

theorem State.chargeDie_keeps {s0 s1 : State} {a1 a2} (hs1 : Keeps s0 s1) :
    Keeps s0 (State.chargeDie s1 a1 a2) := by
  unfold State.chargeDie
  extract_lets -merge -underBinder +onlyGivenNames x1 x2 x3 x4
  clear_value x1 x2 x3 x4
  refine State.each_keeps ?_ (fun _ _ _ => ?_)
  · assumption
  · exact State.updAccount_keeps (by assumption)

theorem execEnergyMeter_keeps {s0 : State} {a0 a1} {s3 : State} (hs3 : Keeps s0 s3) :
    KeepsN s0 (execEnergyMeter a0 a1 s3) := by
  unfold execEnergyMeter
  extract_lets -merge -underBinder +onlyGivenNames x1
  have hx1 : Keeps s0 x1 := by
    subst x1
    exact State.to_keeps (by assumption)
  clear_value x1
  extract_lets -merge -underBinder +onlyGivenNames x2 x3 x4 x5
  clear_value x2 x3 x4
  have hx5 : Keeps s0 x5 := by
    subst x5
    refine State.each_keeps ?_ (fun _ _ _ => ?_)
    · assumption
    · exact State.chargeDie_keeps (by assumption)
  clear_value x5
  extract_lets -merge -underBinder +onlyGivenNames x6 x7
  clear_value x6
  have hx7 : Keeps s0 x7 := by
    subst x7
    exact State.updAccount_keeps (by assumption)
  clear_value x7
  extract_lets -merge -underBinder +onlyGivenNames x8 x9 x10 x11 x12 x13 x14 x15
  clear_value x8 x9 x10 x11 x12 x13 x14
  have hx15 : Keeps s0 x15 := by
    subst x15
    exact State.updPower_keeps (by assumption)
  clear_value x15
  extract_lets -merge -underBinder +onlyGivenNames x16 x17 x18
  clear_value x16 x17
  have hx18 : Keeps s0 x18 := by
    subst x18
    exact State.updPower_keeps (by assumption)
  clear_value x18
  refine keepsN_next ?_
  refine keeps_ite ?_ ?_
  · exact State.recalibrate_keeps (State.raise_keeps (by assumption))
  · assumption

theorem State.trip_keeps {s0 s1 : State} (hs1 : Keeps s0 s1) :
    Keeps s0 (State.trip s1) := by
  unfold State.trip
  extract_lets -merge -underBinder +onlyGivenNames x1
  have hx1 : Keeps s0 x1 := by
    subst x1
    exact State.raise_keeps (State.updPower_keeps (by assumption))
  clear_value x1
  extract_lets -merge -underBinder +onlyGivenNames x2
  have hx2 : Keeps s0 x2 := by
    subst x2
    refine State.fallbackAll_keeps ?_
    refine State.updPlumb_keeps ?_ ?_
    · assumption
    · first | exact fun _ h => h | (intro _ h; split <;> exact h) | (intro _ h; simp_all [Plumb.Sized, lmod])
  clear_value x2
  extract_lets -merge -underBinder +onlyGivenNames x3
  have hx3 : Keeps s0 x3 := by
    subst x3
    refine State.each_keeps ?_ (fun _ _ _ => ?_)
    · assumption
    · extract_lets -merge -underBinder +onlyGivenNames x4
      have hx4 : Keeps s0 x4 := by
        subst x4
        exact State.loseGraphs_keeps (State.loseTasks_keeps (by assumption))
      clear_value x4
      refine State.updDie_keeps ?_ ?_
      · assumption
      · first | exact fun _ h => h | (intro _ h; split <;> exact h) | (intro _ h; simp_all [Die.Sized, lmod])
  clear_value x3
  extract_lets -merge -underBinder +onlyGivenNames x5
  have hx5 : Keeps s0 x5 := by
    subst x5
    exact State.updBond_keeps (by assumption)
  clear_value x5
  extract_lets -merge -underBinder +onlyGivenNames x6
  have hx6 : Keeps s0 x6 := by
    subst x6
    split
    · exact State.reply_keeps (State.updSdio_keeps (by assumption))
    · assumption
  clear_value x6
  exact State.updMgmt_keeps (by assumption)

theorem execTempSample_keeps {s0 : State} {a0 a1} {s3 : State} (hs3 : Keeps s0 s3) :
    KeepsN s0 (execTempSample a0 a1 s3) := by
  unfold execTempSample
  extract_lets -merge -underBinder +onlyGivenNames x1
  have hx1 : Keeps s0 x1 := by
    subst x1
    exact State.to_keeps (by assumption)
  clear_value x1
  extract_lets -merge -underBinder +onlyGivenNames x2
  have hx2 : Keeps s0 x2 := by
    subst x2
    exact State.updPower_keeps (by assumption)
  clear_value x2
  extract_lets -merge -underBinder +onlyGivenNames x3 x4 x5 x6 x7 x8
  clear_value x3 x4 x5 x6 x7
  have hx8 : Keeps s0 x8 := by
    subst x8
    exact State.updPower_keeps (by assumption)
  clear_value x8
  extract_lets -merge -underBinder +onlyGivenNames x9
  have hx9 : Keeps s0 x9 := by
    subst x9
    refine keeps_ite ?_ ?_
    · exact State.raise_keeps (by assumption)
    · assumption
  clear_value x9
  extract_lets -merge -underBinder +onlyGivenNames x10 x11
  clear_value x10
  have hx11 : Keeps s0 x11 := by
    subst x11
    refine keeps_ite ?_ ?_
    · exact State.raise_keeps (State.updPower_keeps (by assumption))
    · assumption
  clear_value x11
  refine keepsN_ite ?_ ?_
  · exact keepsN_next (State.trip_keeps (by assumption))
  · exact keepsN_next (by assumption)

theorem State.setDerate_keeps {s0 s1 : State} {a1} (hs1 : Keeps s0 s1) :
    Keeps s0 (State.setDerate s1 a1) := by
  unfold State.setDerate
  refine keeps_ite ?_ ?_
  · assumption
  · exact State.regrant_keeps (State.raise_keeps (State.updPower_keeps (by assumption)))

theorem execDerateStep_keeps {s0 : State} {a0} {s2 : State} (hs2 : Keeps s0 s2) :
    KeepsN s0 (execDerateStep a0 s2) := by
  unfold execDerateStep
  extract_lets -merge -underBinder +onlyGivenNames x1
  have hx1 : Keeps s0 x1 := by
    subst x1
    exact State.to_keeps (by assumption)
  clear_value x1
  extract_lets -merge -underBinder +onlyGivenNames x2 x3
  clear_value x2 x3
  split
  · refine guardNext_keeps ?_ (fun _ _ => ?_)
    · assumption
    · exact State.setDerate_keeps (State.updPower_keeps (by assumption))
  · refine guardNext_keeps ?_ (fun _ _ => ?_)
    · assumption
    · exact State.setDerate_keeps (State.updPower_keeps (by assumption))
  · exact keepsN_next (by assumption)

theorem State.powerCmd_keeps {s0 s1 : State} {a1} (hs1 : Keeps s0 s1) :
    Keeps s0 (State.powerCmd s1 a1) := by
  unfold State.powerCmd
  split
  · exact State.regSet_keeps (by assumption)
  · exact State.recalibrate_keeps (by assumption)
  · assumption

end Sys2Proof.Machine
end

