-- ==== Sys2Proof/Laws/KeepsTimeNet.lean ====
section
/-! SUPPORT. What the operations of Machine/TimeNet.lean keep (Laws/Keeps.lean). -/
namespace Sys2Proof.Machine
set_option Elab.async false

theorem State.tpoArm_keeps {s0 s1 : State} {a1} (hs1 : Keeps s0 s1) :
    Keeps s0 (State.tpoArm s1 a1) := by
  unfold State.tpoArm
  extract_lets -merge -underBinder +onlyGivenNames x1 x2
  clear_value x1 x2
  refine keeps_ite ?_ ?_
  · exact State.updTpo_keeps (by assumption)
  · refine keeps_ite ?_ ?_
    · exact State.updTpo_keeps (by assumption)
    · exact State.raise_keeps (State.updTpo_keeps (by assumption))

theorem State.tpoStepped_keeps {s0 s1 : State} {a1 a2} (hs1 : Keeps s0 s1) :
    Keeps s0 (State.tpoStepped s1 a1 a2) := by
  unfold State.tpoStepped
  extract_lets -merge -underBinder +onlyGivenNames x1
  clear_value x1
  refine State.each_keeps ?_ (fun _ _ _ => ?_)
  · assumption
  · extract_lets -merge -underBinder +onlyGivenNames x2 x3
    clear_value x2 x3
    split
    · assumption
    · refine keeps_ite ?_ ?_
      · assumption
      · extract_lets -merge -underBinder +onlyGivenNames x4
        clear_value x4
        refine keeps_ite ?_ ?_
        · extract_lets -merge -underBinder +onlyGivenNames x5 x6
          clear_value x5
          have hx6 : Keeps s0 x6 := by
            subst x6
            exact State.updTpo_keeps (by assumption)
          clear_value x6
          refine keeps_ite ?_ ?_
          · assumption
          · exact State.raise_keeps (State.bumpLo_keeps (by assumption))
        · refine keeps_ite ?_ ?_
          · exact State.raise_keeps (State.bumpLo_keeps (State.updTpo_keeps (by assumption)))
          · assumption

theorem execTpoPulse_keeps {s0 : State} {a0 a1} {s3 : State} (hs3 : Keeps s0 s3) :
    KeepsN s0 (execTpoPulse a0 a1 s3) := by
  unfold execTpoPulse
  extract_lets -merge -underBinder +onlyGivenNames x1
  have hx1 : Keeps s0 x1 := by
    subst x1
    exact State.to_keeps (by assumption)
  clear_value x1
  extract_lets -merge -underBinder +onlyGivenNames x2
  clear_value x2
  split
  · exact keepsN_next (by assumption)
  · refine guardNext_keeps ?_ (fun _ _ => ?_)
    · assumption
    · extract_lets -merge -underBinder +onlyGivenNames x3 x4
      clear_value x3
      have hx4 : Keeps s0 x4 := by
        subst x4
        exact State.updTpo_keeps (by assumption)
      clear_value x4
      exact State.setFld_keeps (by assumption)

theorem execTpoPulseEnd_keeps {s0 : State} {a0 a1} {s3 : State} (hs3 : Keeps s0 s3) :
    KeepsN s0 (execTpoPulseEnd a0 a1 s3) := by
  unfold execTpoPulseEnd
  extract_lets -merge -underBinder +onlyGivenNames x1
  have hx1 : Keeps s0 x1 := by
    subst x1
    exact State.to_keeps (by assumption)
  clear_value x1
  refine guardNext_keeps ?_ (fun _ _ => ?_)
  · assumption
  · exact State.updTpo_keeps (by assumption)

theorem execTimeCapture_keeps {s0 : State} {a0 a1} {s3 : State} (hs3 : Keeps s0 s3) :
    KeepsN s0 (execTimeCapture a0 a1 s3) := by
  unfold execTimeCapture
  extract_lets -merge -underBinder +onlyGivenNames x1
  have hx1 : Keeps s0 x1 := by
    subst x1
    exact State.to_keeps (by assumption)
  clear_value x1
  refine guardNext_keeps ?_ (fun _ _ => ?_)
  · assumption
  · extract_lets -merge -underBinder +onlyGivenNames x2
    clear_value x2
    refine keeps_ite ?_ ?_
    · exact State.raise_keeps (State.bumpHi_keeps (by assumption))
    · exact State.updTcap_keeps (by assumption)

theorem State.servoIncr_keeps {s0 s1 : State} {a1} (hs1 : Keeps s0 s1) :
    Keeps s0 (State.servoIncr s1 a1) := by
  unfold State.servoIncr
  split
  · extract_lets -merge -underBinder +onlyGivenNames x1
    have hx1 : Keeps s0 x1 := by
      subst x1
      exact State.updDom_keeps (State.drew_keeps (by assumption))
    clear_value x1
    refine keeps_ite ?_ ?_
    · exact State.raise_keeps (by assumption)
    · assumption

theorem State.followPrimary_keeps {s0 s1 : State} (hs1 : Keeps s0 s1) :
    Keeps s0 (State.followPrimary s1) := by
  unfold State.followPrimary
  extract_lets -merge -underBinder +onlyGivenNames x1 x2 x3 x4
  clear_value x1 x2 x3 x4
  split
  · extract_lets -merge -underBinder +onlyGivenNames x5 x6
    clear_value x5
    have hx6 : Keeps s0 x6 := by
      subst x6
      refine State.updTn_keeps ?_ ?_
      · exact State.drew_keeps (by assumption)
      · first | exact fun _ h => h | (intro _ h; split <;> exact h) | (intro _ h; simp_all [TimeNet.Sized, lmod])
    clear_value x6
    refine keeps_ite ?_ ?_
    · refine State.updTn_keeps ?_ ?_
      · assumption
      · first | exact fun _ h => h | (intro _ h; split <;> exact h) | (intro _ h; simp_all [TimeNet.Sized, lmod])
    · assumption

theorem State.setPrimary_keeps {s0 s1 : State} {a1} (hs1 : Keeps s0 s1) :
    Keeps s0 (State.setPrimary s1 a1) := by
  unfold State.setPrimary
  refine keeps_ite ?_ ?_
  · assumption
  · refine State.followPrimary_keeps ?_
    refine State.updTn_keeps ?_ ?_
    · assumption
    · first | exact fun _ h => h | (intro _ h; split <;> exact h) | (intro _ h; simp_all [TimeNet.Sized, lmod])

theorem State.sample_keeps {s0 s1 : State} {a1 a2} (hs1 : Keeps s0 s1) :
    Keeps s0 (State.sample s1 a1 a2) := by
  unfold State.sample
  extract_lets -merge -underBinder +onlyGivenNames x1 x2
  clear_value x1
  have hx2 : Keeps s0 x2 := by
    subst x2
    exact State.regSet_keeps (by assumption)
  clear_value x2
  refine keeps_ite ?_ ?_
  · extract_lets -merge -underBinder +onlyGivenNames x3
    have hx3 : Keeps s0 x3 := by
      subst x3
      exact State.bumpLo_keeps (by assumption)
    clear_value x3
    extract_lets -merge -underBinder +onlyGivenNames x4
    clear_value x4
    exact State.updDom_keeps (by assumption)
  · extract_lets -merge -underBinder +onlyGivenNames x5 x6
    clear_value x5
    have hx6 : Keeps s0 x6 := by
      subst x6
      exact State.updDom_keeps (by assumption)
    clear_value x6
    extract_lets -merge -underBinder +onlyGivenNames x7 x8
    clear_value x7
    have hx8 : Keeps s0 x8 := by
      subst x8
      refine keeps_ite ?_ ?_
      · exact State.tpoStepped_keeps (State.updDom_keeps (by assumption))
      · exact State.servoIncr_keeps (by assumption)
    clear_value x8
    extract_lets -merge -underBinder +onlyGivenNames x9
    have hx9 : Keeps s0 x9 := by
      subst x9
      refine keeps_ite ?_ ?_
      · exact State.raise_keeps (State.updDom_keeps (by assumption))
      · assumption
    clear_value x9
    refine keeps_ite ?_ ?_
    · exact State.followPrimary_keeps (by assumption)
    · assumption

theorem State.ptpBad_keeps {s0 s1 : State} {a1} (hs1 : Keeps s0 s1) :
    Keeps s0 (State.ptpBad s1 a1) := by
  unfold State.ptpBad
  exact State.bumpHi_keeps (by assumption)

theorem State.ptpIn_keeps {s0 s1 : State} {a1} (hs1 : Keeps s0 s1) :
    KeepsL s0 (State.ptpIn s1 a1) := by
  unfold State.ptpIn
  refine keepsL_ite ?_ ?_
  · exact keepsL_mk (by assumption)
  · extract_lets -merge -underBinder +onlyGivenNames x1
    have hx1 : Keeps s0 x1 := by
      subst x1
      exact State.bump_keeps (by assumption)
    clear_value x1
    split
    · exact keepsL_mk (State.bump_keeps (by assumption))
    · refine keepsL_ite ?_ ?_
      · exact keepsL_mk (State.ptpBad_keeps (by assumption))
      · exact keepsL_mk (by assumption)

theorem State.ptpSend_keeps {s0 s1 : State} {a1 a2} (hs1 : Keeps s0 s1) :
    Keeps s0 (State.ptpSend s1 a1 a2) := by
  unfold State.ptpSend
  refine keeps_ite ?_ ?_
  · exact State.txFrame_keeps (by assumption)
  · refine keeps_ite ?_ ?_
    · exact State.updPort_keeps (by assumption)
    · assumption

theorem State.portResume_keeps {s0 s1 : State} {a1} (hs1 : Keeps s0 s1) :
    Keeps s0 (State.portResume s1 a1) := by
  unfold State.portResume
  refine keeps_ite ?_ ?_
  · assumption
  · extract_lets -merge -underBinder +onlyGivenNames x1
    clear_value x1
    refine State.each_keeps ?_ (fun _ _ _ => ?_)
    · exact State.updPort_keeps (by assumption)
    · exact State.txFrame_keeps (by assumption)

theorem State.syncDone_keeps {s0 s1 : State} {a1 a2 a3} (hs1 : Keeps s0 s1) :
    Keeps s0 (State.syncDone s1 a1 a2 a3) := by
  unfold State.syncDone
  extract_lets -merge -underBinder +onlyGivenNames x1
  clear_value x1
  exact State.sample_keeps (State.updDom_keeps (by assumption))

theorem execSync_keeps {s0 : State} {a0 a1} {s3 : State} (hs3 : Keeps s0 s3) :
    KeepsN s0 (execSync a0 a1 s3) := by
  unfold execSync
  split
  · refine KeepsL.of_eq (a := s0) (by assumption) ?_ (fun _ => ?_)
    · exact State.ptpIn_keeps (State.to_keeps (by assumption))
    split
    · exact keepsN_next (by assumption)
    · refine keepsN_ite ?_ ?_
      · exact keepsN_next (State.ptpBad_keeps (by assumption))
      · extract_lets -merge -underBinder +onlyGivenNames x1
        clear_value x1
        refine keepsN_next ?_
        refine keeps_ite ?_ ?_
        · exact State.updDom_keeps (by assumption)
        · exact State.syncDone_keeps (by assumption)

theorem execFollowUp_keeps {s0 : State} {a0 a1} {s3 : State} (hs3 : Keeps s0 s3) :
    KeepsN s0 (execFollowUp a0 a1 s3) := by
  unfold execFollowUp
  split
  · refine KeepsL.of_eq (a := s0) (by assumption) ?_ (fun _ => ?_)
    · exact State.ptpIn_keeps (State.to_keeps (by assumption))
    split
    · exact keepsN_next (by assumption)
    · split
      · exact keepsN_next (State.ptpBad_keeps (by assumption))
      · extract_lets -merge -underBinder +onlyGivenNames x1
        have hx1 : Keeps s0 x1 := by
          subst x1
          exact State.updDom_keeps (by assumption)
        clear_value x1
        exact keepsN_next (State.syncDone_keeps (by assumption))

theorem execAnnounce_keeps {s0 : State} {a0 a1} {s3 : State} (hs3 : Keeps s0 s3) :
    KeepsN s0 (execAnnounce a0 a1 s3) := by
  unfold execAnnounce
  split
  · refine KeepsL.of_eq (a := s0) (by assumption) ?_ (fun _ => ?_)
    · exact State.ptpIn_keeps (State.to_keeps (by assumption))
    split
    · exact keepsN_next (by assumption)
    · split
      · exact keepsN_next (State.updDom_keeps (by assumption))
      · refine keepsN_next ?_
        refine keeps_ite ?_ ?_
        · exact State.updDom_keeps (by assumption)
        · exact State.ptpBad_keeps (by assumption)

theorem execDelayResp_keeps {s0 : State} {a0 a1} {s3 : State} (hs3 : Keeps s0 s3) :
    KeepsN s0 (execDelayResp a0 a1 s3) := by
  unfold execDelayResp
  split
  · refine KeepsL.of_eq (a := s0) (by assumption) ?_ (fun _ => ?_)
    · exact State.ptpIn_keeps (State.to_keeps (by assumption))
    split
    · exact keepsN_next (by assumption)
    · extract_lets -merge -underBinder +onlyGivenNames x1
      clear_value x1
      split
      · refine keepsN_next ?_
        refine keeps_ite ?_ ?_
        · exact State.updDom_keeps (by assumption)
        · assumption
      · exact keepsN_next (by assumption)

theorem execPdelayReq_keeps {s0 : State} {a0 a1} {s3 : State} (hs3 : Keeps s0 s3) :
    KeepsN s0 (execPdelayReq a0 a1 s3) := by
  unfold execPdelayReq
  split
  · refine KeepsL.of_eq (a := s0) (by assumption) ?_ (fun _ => ?_)
    · exact State.ptpIn_keeps (State.to_keeps (by assumption))
    split
    · exact keepsN_next (by assumption)
    · extract_lets -merge -underBinder +onlyGivenNames x1 x2
      clear_value x1
      have hx2 : Keeps s0 x2 := by
        subst x2
        exact State.ptpSend_keeps (by assumption)
      clear_value x2
      refine keepsN_next ?_
      refine keeps_ite ?_ ?_
      · assumption
      · exact State.ptpSend_keeps (by assumption)

theorem execPdelayResp_keeps {s0 : State} {a0 a1} {s3 : State} (hs3 : Keeps s0 s3) :
    KeepsN s0 (execPdelayResp a0 a1 s3) := by
  unfold execPdelayResp
  split
  · refine KeepsL.of_eq (a := s0) (by assumption) ?_ (fun _ => ?_)
    · exact State.ptpIn_keeps (State.to_keeps (by assumption))
    split
    · exact keepsN_next (by assumption)
    · extract_lets -merge -underBinder +onlyGivenNames x1 x2
      clear_value x1 x2
      split
      · refine keepsN_next ?_
        refine keeps_ite ?_ ?_
        · assumption
        · refine keeps_ite ?_ ?_
          · exact State.updDom_keeps (by assumption)
          · exact State.updDom_keeps (by assumption)
      · exact keepsN_next (by assumption)

theorem execPdelayRespFollowUp_keeps {s0 : State} {a0 a1} {s3 : State} (hs3 : Keeps s0 s3) :
    KeepsN s0 (execPdelayRespFollowUp a0 a1 s3) := by
  unfold execPdelayRespFollowUp
  split
  · refine KeepsL.of_eq (a := s0) (by assumption) ?_ (fun _ => ?_)
    · exact State.ptpIn_keeps (State.to_keeps (by assumption))
    split
    · exact keepsN_next (by assumption)
    · split
      · exact keepsN_next (State.updDom_keeps (by assumption))
      · exact keepsN_next (State.ptpBad_keeps (by assumption))

theorem execDomainHoldover_keeps {s0 : State} {a0 a1} {s3 : State} (hs3 : Keeps s0 s3) :
    KeepsN s0 (execDomainHoldover a0 a1 s3) := by
  unfold execDomainHoldover
  extract_lets -merge -underBinder +onlyGivenNames x1
  have hx1 : Keeps s0 x1 := by
    subst x1
    exact State.to_keeps (by assumption)
  clear_value x1
  extract_lets -merge -underBinder +onlyGivenNames x2
  clear_value x2
  refine guardNext_keeps ?_ (fun _ _ => ?_)
  · assumption
  · extract_lets -merge -underBinder +onlyGivenNames x3
    have hx3 : Keeps s0 x3 := by
      subst x3
      exact State.raise_keeps (State.updDom_keeps (by assumption))
    clear_value x3
    refine keeps_ite ?_ ?_
    · exact State.raise_keeps (State.setPrimary_keeps (by assumption))
    · assumption

theorem execDelayReq_keeps {s0 : State} {a0 a1} {s3 : State} (hs3 : Keeps s0 s3) :
    KeepsN s0 (execDelayReq a0 a1 s3) := by
  unfold execDelayReq
  extract_lets -merge -underBinder +onlyGivenNames x1
  have hx1 : Keeps s0 x1 := by
    subst x1
    exact State.to_keeps (by assumption)
  clear_value x1
  split
  · exact keepsN_next (by assumption)
  · refine guardNext_keeps ?_ (fun _ _ => ?_)
    · assumption
    · extract_lets -merge -underBinder +onlyGivenNames x2 x3
      clear_value x2 x3
      exact State.txFrame_keeps (State.updDom_keeps (by assumption))

theorem execAnnounceInterval_keeps {s0 : State} {a0 a1} {s3 : State} (hs3 : Keeps s0 s3) :
    KeepsN s0 (execAnnounceInterval a0 a1 s3) := by
  unfold execAnnounceInterval
  extract_lets -merge -underBinder +onlyGivenNames x1
  have hx1 : Keeps s0 x1 := by
    subst x1
    exact State.to_keeps (by assumption)
  clear_value x1
  split
  · refine keepsN_next ?_
    refine State.each_keeps ?_ (fun _ _ _ => ?_)
    · assumption
    · extract_lets -merge -underBinder +onlyGivenNames x2
      clear_value x2
      exact State.ptpSend_keeps (State.ptpSend_keeps (by assumption))
  · exact keepsN_next (by assumption)

theorem State.linkSet_keeps {s0 s1 : State} {a1 a2} (hs1 : Keeps s0 s1) :
    Keeps s0 (State.linkSet s1 a1 a2) := by
  unfold State.linkSet
  refine keeps_ite ?_ ?_
  · assumption
  · exact State.raise_keeps (State.updPort_keeps (by assumption))

theorem execLinkChange_keeps {s0 : State} {a0 a1 a2} {s4 : State} (hs4 : Keeps s0 s4) :
    KeepsN s0 (execLinkChange a0 a1 a2 s4) := by
  unfold execLinkChange
  extract_lets -merge -underBinder +onlyGivenNames x1
  have hx1 : Keeps s0 x1 := by
    subst x1
    exact State.to_keeps (by assumption)
  clear_value x1
  refine guardNext_keeps ?_ (fun _ _ => ?_)
  · assumption
  · exact State.linkSet_keeps (by assumption)

theorem execArpRequest_keeps {s0 : State} {a0 a1 a2 a3} {s5 : State} (hs5 : Keeps s0 s5) :
    KeepsN s0 (execArpRequest a0 a1 a2 a3 s5) := by
  unfold execArpRequest
  extract_lets -merge -underBinder +onlyGivenNames x1
  have hx1 : Keeps s0 x1 := by
    subst x1
    exact State.to_keeps (by assumption)
  clear_value x1
  refine guardNext_keeps ?_ (fun _ _ => ?_)
  · assumption
  · extract_lets -merge -underBinder +onlyGivenNames x2
    have hx2 : Keeps s0 x2 := by
      subst x2
      exact State.bump_keeps (by assumption)
    clear_value x2
    refine keeps_ite ?_ ?_
    · exact State.txFrame_keeps (by assumption)
    · assumption

theorem execArpReply_keeps {s0 : State} {a0 a1 a2 a3} {s5 : State} (hs5 : Keeps s0 s5) :
    KeepsN s0 (execArpReply a0 a1 a2 a3 s5) := by
  unfold execArpReply
  extract_lets -merge -underBinder +onlyGivenNames x1
  have hx1 : Keeps s0 x1 := by
    subst x1
    exact State.to_keeps (by assumption)
  clear_value x1
  refine guardNext_keeps ?_ (fun _ _ => ?_)
  · assumption
  · exact State.updPort_keeps (State.bump_keeps (by assumption))

theorem execIcmpEcho_keeps {s0 : State} {a0 a1 a2 a3} {s5 : State} (hs5 : Keeps s0 s5) :
    KeepsN s0 (execIcmpEcho a0 a1 a2 a3 s5) := by
  unfold execIcmpEcho
  extract_lets -merge -underBinder +onlyGivenNames x1
  have hx1 : Keeps s0 x1 := by
    subst x1
    exact State.to_keeps (by assumption)
  clear_value x1
  refine guardNext_keeps ?_ (fun _ _ => ?_)
  · assumption
  · extract_lets -merge -underBinder +onlyGivenNames x2
    have hx2 : Keeps s0 x2 := by
      subst x2
      exact State.bump_keeps (by assumption)
    clear_value x2
    refine keeps_ite ?_ ?_
    · exact State.bump_keeps (by assumption)
    · extract_lets -merge -underBinder +onlyGivenNames x3
      clear_value x3
      split
      · refine keeps_ite ?_ ?_
        · assumption
        · exact State.txFrame_keeps (State.updPort_keeps (by assumption))

theorem execPauseFrame_keeps {s0 : State} {a0 a1 a2} {s4 : State} (hs4 : Keeps s0 s4) :
    KeepsN s0 (execPauseFrame a0 a1 a2 s4) := by
  unfold execPauseFrame
  extract_lets -merge -underBinder +onlyGivenNames x1
  have hx1 : Keeps s0 x1 := by
    subst x1
    exact State.to_keeps (by assumption)
  clear_value x1
  refine guardNext_keeps ?_ (fun _ _ => ?_)
  · assumption
  · extract_lets -merge -underBinder +onlyGivenNames x2
    have hx2 : Keeps s0 x2 := by
      subst x2
      exact State.bump_keeps (State.bump_keeps (by assumption))
    clear_value x2
    refine keeps_ite ?_ ?_
    · assumption
    · refine keeps_ite ?_ ?_
      · exact State.updPort_keeps (by assumption)
      · exact State.portResume_keeps (State.updPort_keeps (by assumption))

theorem execPauseExpired_keeps {s0 : State} {a0 a1} {s3 : State} (hs3 : Keeps s0 s3) :
    KeepsN s0 (execPauseExpired a0 a1 s3) := by
  unfold execPauseExpired
  exact keepsN_next (State.portResume_keeps (State.updPort_keeps (State.to_keeps (by assumption))))

theorem execDroppedFrame_keeps {s0 : State} {a0 a1} {s3 : State} (hs3 : Keeps s0 s3) :
    KeepsN s0 (execDroppedFrame a0 a1 s3) := by
  unfold execDroppedFrame
  extract_lets -merge -underBinder +onlyGivenNames x1
  have hx1 : Keeps s0 x1 := by
    subst x1
    exact State.to_keeps (by assumption)
  clear_value x1
  refine guardNext_keeps ?_ (fun _ _ => ?_)
  · assumption
  · exact State.bump_keeps (State.bump_keeps (by assumption))

theorem execNetStallEnd_keeps {s0 : State} {a0 a1} {s3 : State} (hs3 : Keeps s0 s3) :
    KeepsN s0 (execNetStallEnd a0 a1 s3) := by
  unfold execNetStallEnd
  exact keepsN_next (State.portResume_keeps (State.to_keeps (by assumption)))

theorem execArpRetry_keeps {s0 : State} {a0 a1 a2} {s4 : State} (hs4 : Keeps s0 s4) :
    KeepsN s0 (execArpRetry a0 a1 a2 s4) := by
  unfold execArpRetry
  extract_lets -merge -underBinder +onlyGivenNames x1
  have hx1 : Keeps s0 x1 := by
    subst x1
    exact State.to_keeps (by assumption)
  clear_value x1
  split
  · exact keepsN_next (by assumption)
  · refine guardNext_keeps ?_ (fun _ _ => ?_)
    · assumption
    · refine keeps_ite ?_ ?_
      · exact State.updPort_keeps (by assumption)
      · extract_lets -merge -underBinder +onlyGivenNames x2
        have hx2 : Keeps s0 x2 := by
          subst x2
          exact State.updPort_keeps (by assumption)
        clear_value x2
        refine keeps_ite ?_ ?_
        · exact State.txFrame_keeps (by assumption)
        · assumption

theorem execArpAgeOut_keeps {s0 : State} {a0 a1 a2} {s4 : State} (hs4 : Keeps s0 s4) :
    KeepsN s0 (execArpAgeOut a0 a1 a2 s4) := by
  unfold execArpAgeOut
  exact keepsN_next (State.updPort_keeps (State.to_keeps (by assumption)))

theorem State.pollRing_keeps {s0 s1 : State} {a1} (hs1 : Keeps s0 s1) :
    Keeps s0 (State.pollRing s1 a1) := by
  unfold State.pollRing
  extract_lets -merge -underBinder +onlyGivenNames x1 x2
  clear_value x1 x2
  refine keeps_ite ?_ ?_
  · assumption
  · extract_lets -merge -underBinder +onlyGivenNames x3 x4 x5 x6
    clear_value x3 x4 x5
    have hx6 : Keeps s0 x6 := by
      subst x6
      exact State.linSt_keeps (by assumption)
    clear_value x6
    refine keeps_ite ?_ ?_
    · exact State.raise_keeps (State.bump_keeps (by assumption))
    · refine State.each_keeps ?_ (fun _ _ _ => ?_)
      · assumption
      · extract_lets -merge -underBinder +onlyGivenNames x7
        clear_value x7
        refine keeps_ite ?_ ?_
        · exact State.emit_keeps (by assumption)
        · exact State.raise_keeps (State.bump_keeps (by assumption))

theorem execResultRingPoll_keeps {s0 : State} {a0} {s2 : State} (hs2 : Keeps s0 s2) :
    KeepsN s0 (execResultRingPoll a0 s2) := by
  unfold execResultRingPoll
  refine keepsN_next ?_
  refine State.each_keeps ?_ (fun _ _ _ => ?_)
  · exact State.to_keeps (by assumption)
  · exact State.pollRing_keeps (by assumption)

theorem State.dropBuffer_keeps {s0 s1 : State} {a1} (hs1 : Keeps s0 s1) :
    Keeps s0 (State.dropBuffer s1 a1) := by
  unfold State.dropBuffer
  extract_lets -merge -underBinder +onlyGivenNames x1
  clear_value x1
  refine keeps_ite ?_ ?_
  · assumption
  · exact State.loseRecs_keeps (State.updDst_keeps (by assumption))

theorem execDatagramFlush_keeps {s0 : State} {a0 a1} {s3 : State} (hs3 : Keeps s0 s3) :
    KeepsN s0 (execDatagramFlush a0 a1 s3) := by
  unfold execDatagramFlush
  extract_lets -merge -underBinder +onlyGivenNames x1
  have hx1 : Keeps s0 x1 := by
    subst x1
    exact State.to_keeps (by assumption)
  clear_value x1
  extract_lets -merge -underBinder +onlyGivenNames x2 x3 x4
  clear_value x2 x3 x4
  refine guardNext_keeps ?_ (fun _ _ => ?_)
  · assumption
  · refine keeps_ite ?_ ?_
    · exact State.flushDst_keeps (by assumption)
    · exact State.raiseQuiet_keeps (State.dropBuffer_keeps (by assumption))

theorem execHeartbeat_keeps {s0 : State} {a0} {s2 : State} (hs2 : Keeps s0 s2) :
    KeepsN s0 (execHeartbeat a0 s2) := by
  unfold execHeartbeat
  extract_lets -merge -underBinder +onlyGivenNames x1
  have hx1 : Keeps s0 x1 := by
    subst x1
    exact State.to_keeps (by assumption)
  clear_value x1
  extract_lets -merge -underBinder +onlyGivenNames x2
  clear_value x2
  refine guardNext_keeps ?_ (fun _ _ => ?_)
  · assumption
  · extract_lets -merge -underBinder +onlyGivenNames x3
    clear_value x3
    refine State.emit_keeps ?_
    refine State.updTn_keeps ?_ ?_
    · assumption
    · first | exact fun _ h => h | (intro _ h; split <;> exact h) | (intro _ h; simp_all [TimeNet.Sized, lmod])

theorem State.setLocal_keeps {s0 s1 : State} {a1} (hs1 : Keeps s0 s1) :
    KeepsL s0 (State.setLocal s1 a1) := by
  unfold State.setLocal
  extract_lets -merge -underBinder +onlyGivenNames x1
  clear_value x1
  refine keepsL_ite ?_ ?_
  · exact keepsL_mk (by assumption)
  · refine keepsL_ite ?_ ?_
    · exact keepsL_mk (by assumption)
    · extract_lets -merge -underBinder +onlyGivenNames x2 x3
      clear_value x2
      have hx3 : Keeps s0 x3 := by
        subst x3
        exact State.to_keeps (by assumption)
      clear_value x3
      extract_lets -merge -underBinder +onlyGivenNames x4 x5
      clear_value x4 x5
      refine keepsL_mk ?_
      refine State.tpoStepped_keeps ?_
      refine State.updTn_keeps ?_ ?_
      · assumption
      · first | exact fun _ h => h | (intro _ h; split <;> exact h) | (intro _ h; simp_all [TimeNet.Sized, lmod])

theorem State.timeCmd_keeps {s0 s1 : State} {a1} (hs1 : Keeps s0 s1) :
    KeepsL s0 (State.timeCmd s1 a1) := by
  unfold State.timeCmd
  split
  · exact State.setLocal_keeps (by assumption)
  · exact State.setLocal_keeps (by assumption)
  · extract_lets -merge -underBinder +onlyGivenNames x1
    have hx1 : Keeps s0 x1 := by
      subst x1
      refine State.each_keeps ?_ (fun _ _ _ => ?_)
      · assumption
      · exact State.regSet_keeps (by assumption)
    clear_value x1
    extract_lets -merge -underBinder +onlyGivenNames x2
    have hx2 : Keeps s0 x2 := by
      subst x2
      refine State.each_keeps ?_ (fun _ _ _ => ?_)
      · assumption
      · exact State.regSet_keeps (by assumption)
    clear_value x2
    refine keepsL_mk ?_
    refine State.each_keeps ?_ (fun _ _ _ => ?_)
    · assumption
    · exact State.setFld_keeps (by assumption)
  · exact keepsL_mk (by assumption)

theorem State.netCmd_keeps {s0 s1 : State} {a1} (hs1 : Keeps s0 s1) :
    Keeps s0 (State.netCmd s1 a1) := by
  unfold State.netCmd
  refine keeps_ite ?_ ?_
  · assumption
  · extract_lets -merge -underBinder +onlyGivenNames x1
    have hx1 : Keeps s0 x1 := by
      subst x1
      exact State.regSet_keeps (State.regSet_keeps (by assumption))
    clear_value x1
    extract_lets -merge -underBinder +onlyGivenNames x2
    have hx2 : Keeps s0 x2 := by
      subst x2
      refine State.each_keeps ?_ (fun _ _ _ => ?_)
      · assumption
      · refine State.each_keeps ?_ (fun _ _ _ => ?_)
        · assumption
        · exact State.regSet_keeps (by assumption)
    clear_value x2
    refine State.each_keeps ?_ (fun _ _ _ => ?_)
    · assumption
    · exact State.regSet_keeps (by assumption)

theorem State.domEn_keeps {s0 s1 : State} {a1 a2} (hs1 : Keeps s0 s1) :
    Keeps s0 (State.domEn s1 a1 a2) := by
  unfold State.domEn
  exact State.updDom_keeps (by assumption)

theorem State.dstEn_keeps {s0 s1 : State} {a1 a2} (hs1 : Keeps s0 s1) :
    Keeps s0 (State.dstEn s1 a1 a2) := by
  unfold State.dstEn
  refine keeps_ite ?_ ?_
  · exact State.updDst_keeps (by assumption)
  · exact State.dropBuffer_keeps (by assumption)

theorem State.capPop_keeps {s0 s1 : State} {a1} (hs1 : Keeps s0 s1) :
    KeepsR s0 (State.capPop s1 a1) := by
  unfold State.capPop
  extract_lets -merge -underBinder +onlyGivenNames x1 x2
  clear_value x1
  have hx2 : ∀ y0 y1, Keeps s0 y0 → Keeps s0 (x2 y0 y1) := by
    subst x2
    intro y0 y1 _
    exact keeps_upd (by assumption) fun r => ⟨r.1, r.2, r.3, r.4, r.5, r.6, r.7, r.8, r.9, r.10⟩
  clear_value x2
  split
  · refine keepsR_mk ?_
    refine hx2 _ _ ?_
    assumption
  · refine keepsR_mk ?_
    refine hx2 _ _ ?_
    exact State.updTcap_keeps (by assumption)

end Sys2Proof.Machine
end

