-- ==== Sys2Proof/Laws/KeepsViews.lean ====
section
/-! SUPPORT. What the operations of Machine/Views.lean keep (Laws/Keeps.lean). -/
namespace Sys2Proof.Machine
set_option Elab.async false

theorem State.readReg_keeps {s0 s1 : State} {a1} (hs1 : Keeps s0 s1) :
    KeepsR s0 (State.readReg s1 a1) := by
  unfold State.readReg
  extract_lets -merge -underBinder +onlyGivenNames x1
  clear_value x1
  split
  · refine keepsR_mk ?_
    exact keeps_upd (by assumption) fun r => ⟨r.1, r.2, r.3, r.4, r.5, r.6, r.7, r.8, r.9, r.10⟩
  · refine keepsR_ite ?_ ?_
    · exact keepsR_mk (by assumption)
    · split
      · refine keepsR_ite ?_ ?_
        · exact State.capPop_keeps (by assumption)
        · exact keepsR_mk (by assumption)
      · extract_lets -merge -underBinder +onlyGivenNames x2
        clear_value x2
        refine keepsR_mk ?_
        refine keeps_ite ?_ ?_
        · assumption
        · exact keeps_upd (by assumption) fun r => ⟨r.1, r.2, r.3, r.4, r.5, r.6, r.7, r.8, r.9, r.10⟩

theorem State.readRegs_keeps {s0 s1 : State} {a1 a2} (hs1 : Keeps s0 s1) :
    KeepsR s0 (State.readRegs s1 a1 a2) := by
  unfold State.readRegs
  split
  · exact keepsR_mk (by assumption)
  · split
    · refine KeepsR.of_eq (a := s0) (by assumption) ?_ (fun _ => ?_)
      · exact State.readReg_keeps (by assumption)
      split
      · refine KeepsR.of_eq (a := s0) (by assumption) ?_ (fun _ => ?_)
        · exact State.readRegs_keeps (by assumption)
        exact keepsR_mk (by assumption)

end Sys2Proof.Machine
end

