-- ==== Sys2Proof/Laws/KeepsTest.lean ====
section
/-! SUPPORT. What the operations of Machine/Test.lean keep (Laws/Keeps.lean). -/
namespace Sys2Proof.Machine
set_option Elab.async false

theorem State.losEnd_keeps {s0 s1 : State} (hs1 : Keeps s0 s1) :
    Keeps s0 (State.losEnd s1) := by
  unfold State.losEnd
  exact State.updEnc_keeps (by assumption)

theorem State.injCancel_keeps {s0 s1 : State} {a1} (hs1 : Keeps s0 s1) :
    Keeps s0 (State.injCancel s1 a1) := by
  unfold State.injCancel
  extract_lets -merge -underBinder +onlyGivenNames x1
  have hx1 : Keeps s0 x1 := by
    subst x1
    refine keeps_ite ?_ ?_
    · exact State.losEnd_keeps (by assumption)
    · assumption
  clear_value x1
  refine State.updTest_keeps ?_ ?_
  · exact State.regSet_keeps (by assumption)
  · first | exact fun _ h => h | (intro _ h; split <;> exact h) | (intro _ h; simp_all [Test.Sized, lmod])

theorem State.injExpire_keeps {s0 s1 : State} {a1} (hs1 : Keeps s0 s1) :
    Keeps s0 (State.injExpire s1 a1) := by
  unfold State.injExpire
  extract_lets -merge -underBinder +onlyGivenNames x1
  have hx1 : Keeps s0 x1 := by
    subst x1
    exact State.injCancel_keeps (by assumption)
  clear_value x1
  exact State.raise_keeps (State.setFld_keeps (by assumption))

theorem State.flip_keeps {s0 s1 : State} {a1 a2} (hs1 : Keeps s0 s1) :
    Keeps s0 (State.flip s1 a1 a2) := by
  unfold State.flip
  extract_lets -merge -underBinder +onlyGivenNames x1 x2
  clear_value x1 x2
  refine State.updMt_keeps ?_ ?_
  · assumption
  · first | exact fun _ h => h | (intro _ h; split <;> exact h) | (intro _ h; simp_all [MemTier.Sized, lmod])

theorem State.injMemory_keeps {s0 s1 : State} {a1} (hs1 : Keeps s0 s1) :
    Keeps s0 (State.injMemory s1 a1) := by
  unfold State.injMemory
  split
  · assumption
  · extract_lets -merge -underBinder +onlyGivenNames x1 x2
    clear_value x1
    have hx2 : Keeps s0 x2 := by
      subst x2
      refine State.updTest_keeps ?_ ?_
      · exact State.flip_keeps (State.drew_keeps (by assumption))
      · first | exact fun _ h => h | (intro _ h; split <;> exact h) | (intro _ h; simp_all [Test.Sized, lmod])
    clear_value x2
    exact State.delivered_keeps (by assumption)

theorem State.injWrite_keeps {s0 s1 : State} {a1 a2} (hs1 : Keeps s0 s1) :
    KeepsL s0 (State.injWrite s1 a1 a2) := by
  unfold State.injWrite
  extract_lets -merge -underBinder +onlyGivenNames x1
  clear_value x1
  refine keepsL_ite ?_ ?_
  · exact keepsL_mk (by assumption)
  · refine keepsL_ite ?_ ?_
    · refine keepsL_mk ?_
      refine State.regSet_keeps ?_
      refine keeps_ite ?_ ?_
      · exact State.injCancel_keeps (by assumption)
      · assumption
    · refine keepsL_ite ?_ ?_
      · exact keepsL_mk (by assumption)
      · refine keepsL_ite ?_ ?_
        · exact keepsL_mk (State.injExpire_keeps (State.regSet_keeps (by assumption)))
        · refine keepsL_ite ?_ ?_
          · exact keepsL_mk (by assumption)
          · extract_lets -merge -underBinder +onlyGivenNames x2
            have hx2 : Keeps s0 x2 := by
              subst x2
              exact State.updInj_keeps (State.regSet_keeps (by assumption))
            clear_value x2
            refine keepsL_mk ?_
            refine keeps_ite ?_ ?_
            · exact State.injMemory_keeps (by assumption)
            · assumption

theorem State.injCourse_keeps {s0 s1 : State} (hs1 : Keeps s0 s1) :
    Keeps s0 (State.injCourse s1) := by
  unfold State.injCourse
  extract_lets -merge -underBinder +onlyGivenNames x1 x2 x3 x4
  clear_value x1 x2 x3 x4
  refine keeps_ite ?_ ?_
  · refine State.delivered_keeps ?_
    refine keeps_foldl (fun _ _ _ => ?_) ?_
    · exact State.encError_keeps (by assumption)
    · assumption
  · refine keeps_ite ?_ ?_
    · extract_lets -merge -underBinder +onlyGivenNames x5
      have hx5 : Keeps s0 x5 := by
        subst x5
        exact State.updInj_keeps (State.updEnc_keeps (by assumption))
      clear_value x5
      refine keeps_ite ?_ ?_
      · exact State.encFault_keeps (State.bump_keeps (by assumption))
      · assumption
    · refine keeps_ite ?_ ?_
      · exact State.delivered_keeps (State.losEnd_keeps (by assumption))
      · assumption

theorem execInjectionDelivered_keeps {s0 : State} {a0 a1} {s3 : State} (hs3 : Keeps s0 s3) :
    KeepsN s0 (execInjectionDelivered a0 a1 s3) := by
  unfold execInjectionDelivered
  extract_lets -merge -underBinder +onlyGivenNames x1
  have hx1 : Keeps s0 x1 := by
    subst x1
    exact State.to_keeps (by assumption)
  clear_value x1
  refine guardNext_keeps ?_ (fun _ _ => ?_)
  · assumption
  · exact State.injCourse_keeps (by assumption)

theorem execInjExpired_keeps {s0 : State} {a0 a1} {s3 : State} (hs3 : Keeps s0 s3) :
    KeepsN s0 (execInjExpired a0 a1 s3) := by
  unfold execInjExpired
  extract_lets -merge -underBinder +onlyGivenNames x1
  have hx1 : Keeps s0 x1 := by
    subst x1
    exact State.to_keeps (by assumption)
  clear_value x1
  extract_lets -merge -underBinder +onlyGivenNames x2
  clear_value x2
  refine guardNext_keeps ?_ (fun _ _ => ?_)
  · assumption
  · exact State.injExpire_keeps (by assumption)

theorem State.disarm_keeps {s0 s1 : State} (hs1 : Keeps s0 s1) :
    Keeps s0 (State.disarm s1) := by
  unfold State.disarm
  refine State.each_keeps ?_ (fun _ _ _ => ?_)
  · assumption
  · refine keeps_ite ?_ ?_
    · exact State.injCancel_keeps (by assumption)
    · assumption

theorem State.testMode_keeps {s0 s1 : State} {a1} (hs1 : Keeps s0 s1) :
    Keeps s0 (State.testMode s1 a1) := by
  unfold State.testMode
  extract_lets -merge -underBinder +onlyGivenNames x1
  have hx1 : Keeps s0 x1 := by
    subst x1
    refine keeps_ite ?_ ?_
    · assumption
    · refine State.each_keeps ?_ (fun _ _ _ => ?_)
      · exact State.disarm_keeps (by assumption)
      · exact State.regSet_keeps (by assumption)
  clear_value x1
  refine State.updTest_keeps ?_ ?_
  · assumption
  · first | exact fun _ h => h | (intro _ h; split <;> exact h) | (intro _ h; simp_all [Test.Sized, lmod])

theorem State.testCmd_keeps {s0 s1 : State} {a1} (hs1 : Keeps s0 s1) :
    Keeps s0 (State.testCmd s1 a1) := by
  unfold State.testCmd
  split
  · refine State.updTest_keeps ?_ ?_
    · assumption
    · first | exact fun _ h => h | (intro _ h; split <;> exact h) | (intro _ h; simp_all [Test.Sized, lmod])
  · exact State.disarm_keeps (by assumption)
  · refine State.updTest_keeps ?_ ?_
    · exact State.regSet_keeps (by assumption)
    · first | exact fun _ h => h | (intro _ h; split <;> exact h) | (intro _ h; simp_all [Test.Sized, lmod])
  · assumption

end Sys2Proof.Machine
end

