-- ==== Sys2Proof/Laws/KeepsRegs.lean ====
section
/-! SUPPORT. What the operations of Machine/Regs.lean keep (Laws/Keeps.lean). -/
namespace Sys2Proof.Machine
set_option Elab.async false

theorem State.secCmd_keeps {s0 s1 : State} {a1} (hs1 : Keeps s0 s1) :
    KeepsL s0 (State.secCmd s1 a1) := by
  unfold State.secCmd
  refine keepsL_ite ?_ ?_
  · refine keepsL_ite ?_ ?_
    · exact keepsL_mk (by assumption)
    · exact keepsL_mk (State.updMgmt_keeps (by assumption))
  · exact keepsL_mk (by assumption)

theorem State.mgmtCmd_keeps {s0 s1 : State} {a1} (hs1 : Keeps s0 s1) :
    Keeps s0 (State.mgmtCmd s1 a1) := by
  unfold State.mgmtCmd
  split
  · extract_lets -merge -underBinder +onlyGivenNames x1
    have hx1 : Keeps s0 x1 := by
      subst x1
      exact State.regSet_keeps (State.regSet_keeps (by assumption))
    clear_value x1
    refine State.updSdio_keeps ?_
    refine State.each_keeps ?_ (fun _ _ _ => ?_)
    · assumption
    · exact State.regSet_keeps (by assumption)
  · exact State.updSdio_keeps (by assumption)
  · assumption

theorem State.cmdWrite_keeps {s0 s1 : State} {a1 a2} (hs1 : Keeps s0 s1) :
    KeepsL s0 (State.cmdWrite s1 a1 a2) := by
  unfold State.cmdWrite
  split
  · exact keepsL_mk (State.mgmtCmd_keeps (by assumption))
  · exact State.courseCmd_keeps (by assumption)
  · exact keepsL_mk (State.fabricCmd_keeps (by assumption))
  · exact keepsL_mk (State.streamCmd_keeps (by assumption))
  · exact keepsL_mk (State.kvCmd_keeps (by assumption))
  · exact keepsL_mk (State.memCmd_keeps (by assumption))
  · exact keepsL_mk (State.bondCmd_keeps (by assumption))
  · exact keepsL_mk (State.servoCmd_keeps (by assumption))
  · exact keepsL_mk (State.qpCmd_keeps (by assumption))
  · exact keepsL_mk (State.motionCmd_keeps (by assumption))
  · exact keepsL_mk (State.plumbCmd_keeps (by assumption))
  · exact State.timeCmd_keeps (by assumption)
  · exact keepsL_mk (State.netCmd_keeps (by assumption))
  · exact keepsL_mk (State.powerCmd_keeps (by assumption))
  · exact keepsL_mk (State.testCmd_keeps (by assumption))
  · exact State.secCmd_keeps (by assumption)
  · exact keepsL_mk (by assumption)

theorem State.raiseCfg_keeps {s0 s1 : State} {s2 : State} {a2} (hs1 : Keeps s0 s1) (_ : Keeps s0 s2) :
    Keeps s0 (State.raiseCfg s1 s2 a2) := by
  unfold State.raiseCfg
  refine keeps_foldl (fun _ _ _ => ?_) ?_
  · refine keeps_ite ?_ ?_
    · exact State.raise_keeps (by assumption)
    · assumption
  · assumption

theorem State.acqWritten_keeps {s0 s1 : State} {a1 a2 a3} (hs1 : Keeps s0 s1) :
    Keeps s0 (State.acqWritten s1 a1 a2 a3) := by
  unfold State.acqWritten
  refine keeps_ite ?_ ?_
  · refine keeps_ite ?_ ?_
    · exact State.acqStart_keeps (by assumption)
    · refine keeps_ite ?_ ?_
      · exact State.acqStop_keeps (by assumption)
      · assumption
  · split
    · refine keeps_ite ?_ ?_
      · exact State.pwrEnWrite_keeps (by assumption)
      · refine keeps_ite ?_ ?_
        · exact State.groupOff_keeps (by assumption)
        · assumption
    · assumption

theorem State.servoWritten_keeps {s0 s1 : State} {a1 a2 a3} (hs1 : Keeps s0 s1) :
    Keeps s0 (State.servoWritten s1 a1 a2 a3) := by
  unfold State.servoWritten
  refine keeps_ite ?_ ?_
  · refine keeps_ite ?_ ?_
    · exact State.realign_keeps (State.lineOn_keeps (by assumption))
    · refine keeps_ite ?_ ?_
      · exact State.lineOff_keeps (by assumption)
      · assumption
  · split
    · extract_lets -merge -underBinder +onlyGivenNames x1
      clear_value x1
      refine keeps_ite ?_ ?_
      · exact State.regear_keeps (by assumption)
      · assumption
    · assumption

theorem State.timeWritten_keeps {s0 s1 : State} {a1 a2 a3} (hs1 : Keeps s0 s1) :
    Keeps s0 (State.timeWritten s1 a1 a2 a3) := by
  unfold State.timeWritten
  refine keeps_ite ?_ ?_
  · exact State.setPrimary_keeps (by assumption)
  · split
    · refine keeps_ite ?_ ?_
      · exact State.domEn_keeps (by assumption)
      · assumption
    · refine keeps_ite ?_ ?_
      · exact State.tpoArm_keeps (by assumption)
      · assumption
    · assumption

theorem State.netWritten_keeps {s0 s1 : State} {a1 a2 a3} (hs1 : Keeps s0 s1) :
    Keeps s0 (State.netWritten s1 a1 a2 a3) := by
  unfold State.netWritten
  refine keeps_ite ?_ ?_
  · refine keeps_ite ?_ ?_
    · refine State.each_keeps ?_ (fun _ _ _ => ?_)
      · assumption
      · exact State.dropBuffer_keeps (by assumption)
    · assumption
  · split
    · refine keeps_ite ?_ ?_
      · exact State.dstEn_keeps (by assumption)
      · assumption
    · assumption

theorem State.courseWritten_keeps {s0 s1 : State} {a1 a2 a3} (hs1 : Keeps s0 s1) :
    Keeps s0 (State.courseWritten s1 a1 a2 a3) := by
  unfold State.courseWritten
  extract_lets -merge -underBinder +onlyGivenNames x1
  have hx1 : Keeps s0 x1 := by
    subst x1
    split
    · refine keeps_ite ?_ ?_
      · exact State.encFault_keeps (State.bump_keeps (by assumption))
      · assumption
    · assumption
  clear_value x1
  extract_lets -merge -underBinder +onlyGivenNames x2
  have hx2 : Keeps s0 x2 := by
    subst x2
    split
    · refine keeps_ite ?_ ?_
      · exact State.lgReset_keeps (by assumption)
      · assumption
    · assumption
  clear_value x2
  exact State.xcheck_keeps (State.evalSource_keeps (by assumption))

theorem State.written_keeps {s0 s1 : State} {a1 a2 a3} (hs1 : Keeps s0 s1) :
    Keeps s0 (State.written s1 a1 a2 a3) := by
  unfold State.written
  extract_lets -merge -underBinder +onlyGivenNames x1 x2
  clear_value x1 x2
  split
  · exact State.courseWritten_keeps (by assumption)
  · exact State.acqWritten_keeps (by assumption)
  · refine keeps_ite ?_ ?_
    · exact State.ctxSel_keeps (by assumption)
    · assumption
  · refine keeps_ite ?_ ?_
    · exact State.seqSel_keeps (by assumption)
    · refine keeps_ite ?_ ?_
      · exact State.kvPageSel_keeps (by assumption)
      · refine keeps_ite ?_ ?_
        · exact State.kvInit_keeps (by assumption)
        · assumption
  · refine keeps_ite ?_ ?_
    · exact State.pageSel_keeps (by assumption)
    · refine keeps_ite ?_ ?_
      · exact State.remapMore_keeps (by assumption)
      · assumption
  · refine keeps_ite ?_ ?_
    · exact State.acctSel_keeps (by assumption)
    · assumption
  · exact State.qpRecheck_keeps (State.carCheck_keeps (State.servoWritten_keeps (by assumption)))
  · exact State.qpRecheck_keeps (State.carCheck_keeps (by assumption))
  · exact State.qpRecheck_keeps (State.carCheck_keeps (by assumption))
  · exact State.timeWritten_keeps (by assumption)
  · exact State.netWritten_keeps (by assumption)
  · refine keeps_ite ?_ ?_
    · refine State.updTest_keeps ?_ ?_
      · assumption
      · first | exact fun _ h => h | (intro _ h; split <;> exact h) | (intro _ h; simp_all [Test.Sized, lmod])
    · assumption
  · assumption

theorem State.store_keeps {s0 s1 : State} {a1 a2 a3} (hs1 : Keeps s0 s1) :
    Keeps s0 (State.store s1 a1 a2 a3) := by
  unfold State.store
  extract_lets -merge -underBinder +onlyGivenNames x1
  have hx1 : Keeps s0 x1 := by
    subst x1
    exact State.written_keeps (State.regSet_keeps (State.dropSnaps_keeps (by assumption)))
  clear_value x1
  refine State.raiseCfg_keeps ?_ ?_
  · assumption
  · assumption

theorem State.writeRow_keeps {s0 s1 : State} {a1 a2 a3} (hs1 : Keeps s0 s1) :
    KeepsL s0 (State.writeRow s1 a1 a2 a3) := by
  unfold State.writeRow
  refine keepsL_ite ?_ ?_
  · exact State.cmdWrite_keeps (by assumption)
  · extract_lets -merge -underBinder +onlyGivenNames x1 x2
    clear_value x1 x2
    refine keepsL_ite ?_ ?_
    · exact keepsL_mk (by assumption)
    · refine keepsL_ite ?_ ?_
      · exact keepsL_mk (by assumption)
      · split
        · exact State.injWrite_keeps (by assumption)
        · refine keepsL_ite ?_ ?_
          · exact keepsL_mk (State.progEnWrite_keeps (State.dropSnaps_keeps (by assumption)))
          · split
            · refine keepsL_ite ?_ ?_
              · split
                · refine KeepsO.of_eq (a := s0) (by assumption) ?_ (fun _ => ?_)
                  · exact State.tierBaseSet_keeps (by assumption)
                  refine keepsL_mk ?_
                  refine State.raiseCfg_keeps ?_ ?_
                  · exact State.remapMore_keeps (by assumption)
                  · assumption
                · exact keepsL_mk (by assumption)
              · exact keepsL_mk (State.store_keeps (by assumption))
            · exact keepsL_mk (State.store_keeps (by assumption))

theorem State.regWrite_keeps {s0 s1 : State} {a1 a2} (hs1 : Keeps s0 s1) :
    KeepsL s0 (State.regWrite s1 a1 a2) := by
  unfold State.regWrite
  refine keepsL_ite ?_ ?_
  · exact keepsL_mk (by assumption)
  · split
    · exact keepsL_mk (by assumption)
    · refine keepsL_ite ?_ ?_
      · exact keepsL_mk (by assumption)
      · refine keepsL_ite ?_ ?_
        · exact keepsL_mk (by assumption)
        · exact State.writeRow_keeps (by assumption)

theorem State.regWrites_keeps {s0 s1 : State} {a1} (hs1 : Keeps s0 s1) :
    KeepsL s0 (State.regWrites s1 a1) := by
  unfold State.regWrites
  split
  · exact keepsL_mk (by assumption)
  · split
    · refine KeepsL.of_eq (a := s0) (by assumption) ?_ (fun _ => ?_)
      · refine keepsL_ite ?_ ?_
        · exact keepsL_mk (by assumption)
        · exact State.regWrite_keeps (by assumption)
      refine keepsL_ite ?_ ?_
      · exact keepsL_mk (by assumption)
      · split
        · refine KeepsL.of_eq (a := s0) (by assumption) ?_ (fun _ => ?_)
          · exact State.regWrites_keeps (by assumption)
          exact keepsL_mk (by assumption)

theorem State.regModify_keeps {s0 s1 : State} {a1 a2 a3} (hs1 : Keeps s0 s1) :
    KeepsL s0 (State.regModify s1 a1 a2 a3) := by
  unfold State.regModify
  refine keepsL_ite ?_ ?_
  · exact keepsL_mk (by assumption)
  · refine keepsL_ite ?_ ?_
    · exact keepsL_mk (by assumption)
    · extract_lets -merge -underBinder +onlyGivenNames x1
      clear_value x1
      split
      · refine KeepsL.of_eq (a := s0) (by assumption) ?_ (fun _ => ?_)
        · exact State.regWrite_keeps (by assumption)
        refine keepsL_ite ?_ ?_
        · exact keepsL_mk (by assumption)
        · exact keepsL_mk (by assumption)

end Sys2Proof.Machine
end

