-- ==== Sys2Proof/Laws/KeepsStartup.lean ====
section
/-! SUPPORT. What the operations of Machine/Startup.lean keep (Laws/Keeps.lean). -/
namespace Sys2Proof.Machine
set_option Elab.async false

theorem State.fuseMacs_keeps {s0 s1 : State} (hs1 : Keeps s0 s1) :
    Keeps s0 (State.fuseMacs s1) := by
  unfold State.fuseMacs
  refine State.each_keeps ?_ (fun _ _ _ => ?_)
  · assumption
  · extract_lets -merge -underBinder +onlyGivenNames x1
    clear_value x1
    exact State.regSet_keeps (State.regSet_keeps (by assumption))

/-- The tables of the cleared state have their sizes. -/
theorem State.cleared_sized {s : State} (h : s.Sized) : s.cleared.Sized := by
  have he : (s.course.enc.map Enc.pins).length = 8 := (List.length_map _).trans h.course.1
  have hg : (s.acq.grp.map (fun g => ({ flt := g.flt } : Grp))).length = 8 := (List.length_map _).trans h.acq.1
  have hl : (s.line.axis.map Axis.pins).length = 16 := (List.length_map _).trans h.line.1
  exact ⟨⟨he, rfl, rfl, rfl⟩, ⟨rfl, rfl, rfl, rfl, rfl, rfl⟩, ⟨hg, rfl⟩, ⟨rfl, fun d hd => (List.eq_of_mem_replicate hd) ▸
    ⟨rfl, rfl, rfl⟩⟩, rfl, rfl, rfl, ⟨hl, rfl, rfl, rfl, rfl, rfl, rfl, rfl⟩, ⟨rfl, rfl, rfl, rfl⟩, rfl⟩

theorem Die.kept_sized {d : Die} (h : d.Sized) : d.kept.Sized :=
  ⟨(List.length_map _).trans h.1, (List.length_map _).trans h.2.1, rfl⟩

theorem dies_kept {l : List Die} (h : l.length = 4 ∧ ∀ d ∈ l, d.Sized) :
    (l.map Die.kept).length = 4 ∧ ∀ d ∈ l.map Die.kept, d.Sized :=
  ⟨(List.length_map _).trans h.1, fun d hd => by
    obtain ⟨x, hx, rfl⟩ := List.mem_map.1 hd
    exact Die.kept_sized (h.2 x hx)⟩

/-- The cleared state is in canonical form, whatever was there before. -/
theorem State.cleared_on {s0 s1 : State} (hq : s1.pending = s0.pending) (hn : s0.now ≤ s1.now)
    (hz : s0.Sized → s1.Sized) : Keeps s0 s1.cleared :=
  ⟨hq, hn, fun _ => rfl, fun _ => rfl, fun q => State.cleared_sized (hz q)⟩

theorem State.cleared_keeps {s0 s1 : State} (hs1 : Keeps s0 s1) : Keeps s0 (State.cleared s1) :=
  State.cleared_on hs1.pending hs1.now hs1.sized

theorem State.resetKept_keeps {s0 s1 : State} (hs1 : Keeps s0 s1) : Keeps s0 (State.resetKept s1) := by
  unfold State.resetKept
  refine State.regSet_keeps (State.regSet_keeps ?_)
  refine ⟨hs1.pending, hs1.now, fun _ => rfl, fun _ => rfl, fun q => ?_⟩
  have r := State.cleared_sized (hs1.sized q)
  refine ⟨r.1, r.2, r.3, dies_kept (hs1.sized q).4, r.5, r.6, ?_, r.8, ?_, r.10⟩
  · exact (List.length_map _).trans (hs1.sized q).7
  · show Plumb.Sized (ite _ _ _)
    split
    · exact ⟨rfl, rfl, rfl, rfl⟩
    · exact ⟨rfl, rfl, rfl, rfl⟩

theorem State.wiped_keeps {s0 s1 : State} {a1} (hs1 : Keeps s0 s1) :
    Keeps s0 (State.wiped s1 a1) := by
  unfold State.wiped
  refine State.fuseMacs_keeps ?_
  refine keeps_ite ?_ ?_
  · exact State.cleared_keeps (by assumption)
  · exact State.resetKept_keeps (by assumption)

theorem State.inReset_keeps {s0 s1 : State} {a1} (hs1 : Keeps s0 s1) :
    Keeps s0 (State.inReset s1 a1) := by
  unfold State.inReset
  exact State.fallbackAll_keeps (State.wiped_keeps (by assumption))

theorem State.applyConfig_keeps {s0 s1 : State} {a1} (hs1 : Keeps s0 s1) :
    Keeps s0 (State.applyConfig s1 a1) := by
  unfold State.applyConfig
  split
  · assumption
  · refine State.each_keeps ?_ (fun _ _ _ => ?_)
    · assumption
    · split
      · refine KeepsL.of_eq (a := s0) (by assumption) ?_ (fun _ => ?_)
        · exact State.regWrite_keeps (by assumption)
        refine keeps_ite ?_ ?_
        · assumption
        · exact State.updMgmt_keeps (State.log_keeps (by assumption))

theorem State.discoverAll_keeps {s0 s1 : State} (hs1 : Keeps s0 s1) :
    Keeps s0 (State.discoverAll s1) := by
  unfold State.discoverAll
  refine State.each_keeps ?_ (fun _ _ _ => ?_)
  · assumption
  · refine keeps_ite ?_ ?_
    · exact State.discover_keeps (by assumption)
    · assumption

theorem State.stepsBegin_keeps {s0 s1 : State} (hs1 : Keeps s0 s1) :
    Keeps s0 (State.stepsBegin s1) := by
  unfold State.stepsBegin
  extract_lets -merge -underBinder +onlyGivenNames x1
  have hx1 : Keeps s0 x1 := by
    subst x1
    exact State.settleCycles_keeps (by assumption)
  clear_value x1
  extract_lets -merge -underBinder +onlyGivenNames x2
  have hx2 : Keeps s0 x2 := by
    subst x2
    exact State.updPower_keeps (by assumption)
  clear_value x2
  extract_lets -merge -underBinder +onlyGivenNames x3
  have hx3 : Keeps s0 x3 := by
    subst x3
    refine State.each_keeps ?_ (fun _ _ _ => ?_)
    · assumption
    · refine State.updDie_keeps ?_ ?_
      · assumption
      · first | exact fun _ h => h | (intro _ h; split <;> exact h) | (intro _ h; simp_all [Die.Sized, lmod])
  clear_value x3
  refine State.each_keeps ?_ (fun _ _ _ => ?_)
  · assumption
  · exact State.updQch_keeps (by assumption)

theorem State.readStraps_keeps {s0 s1 : State} {a1} (hs1 : Keeps s0 s1) :
    Keeps s0 (State.readStraps s1 a1) := by
  unfold State.readStraps
  extract_lets -merge -underBinder +onlyGivenNames x1
  have hx1 : Keeps s0 x1 := by
    subst x1
    exact State.updMgmt_keeps (by assumption)
  clear_value x1
  extract_lets -merge -underBinder +onlyGivenNames x2
  have hx2 : Keeps s0 x2 := by
    subst x2
    refine keeps_ite ?_ ?_
    · assumption
    · exact State.log_keeps (by assumption)
  clear_value x2
  refine keeps_ite ?_ ?_
  · refine State.updPlumb_keeps ?_ ?_
    · assumption
    · first | exact fun _ h => h | (intro _ h; split <;> exact h) | (intro _ h; simp_all [Plumb.Sized, lmod])
  · assumption

theorem State.stepConfig_keeps {s0 s1 : State} (hs1 : Keeps s0 s1) :
    Keeps s0 (State.stepConfig s1) := by
  unfold State.stepConfig
  split
  · exact State.log_keeps (by assumption)
  · extract_lets -merge -underBinder +onlyGivenNames x1
    have hx1 : Keeps s0 x1 := by
      subst x1
      exact State.updMgmt_keeps (by assumption)
    clear_value x1
    exact State.applyConfig_keeps (State.applyConfig_keeps (by assumption))

theorem State.logStartup_keeps {s0 s1 : State} {a1 a2} (hs1 : Keeps s0 s1) :
    Keeps s0 (State.logStartup s1 a1 a2) := by
  unfold State.logStartup
  extract_lets -merge -underBinder +onlyGivenNames x1
  clear_value x1
  exact State.updSdio_keeps (by assumption)

theorem State.boot_keeps {s0 s1 : State} {a1 a2 a3} (hs1 : Keeps s0 s1) :
    Keeps s0 (State.boot s1 a1 a2 a3) := by
  unfold State.boot
  extract_lets -merge -underBinder +onlyGivenNames x1
  have hx1 : Keeps s0 x1 := by
    subst x1
    exact State.updMgmt_keeps (by assumption)
  clear_value x1
  extract_lets -merge -underBinder +onlyGivenNames x2
  have hx2 : Keeps s0 x2 := by
    subst x2
    exact State.readStraps_keeps (by assumption)
  clear_value x2
  split
  · extract_lets -merge -underBinder +onlyGivenNames x3
    have hx3 : Keeps s0 x3 := by
      subst x3
      exact State.updMgmt_keeps (by assumption)
    clear_value x3
    exact State.logStartup_keeps (State.drew_keeps (by assumption))
  · extract_lets -merge -underBinder +onlyGivenNames x4
    have hx4 : Keeps s0 x4 := by
      subst x4
      exact State.updMgmt_keeps (by assumption)
    clear_value x4
    extract_lets -merge -underBinder +onlyGivenNames x5
    have hx5 : Keeps s0 x5 := by
      subst x5
      refine State.updPlumb_keeps ?_ ?_
      · assumption
      · first | exact fun _ h => h | (intro _ h; split <;> exact h) | (intro _ h; simp_all [Plumb.Sized, lmod])
    clear_value x5
    exact State.discoverAll_keeps (State.stepConfig_keeps (State.stepsBegin_keeps (by assumption)))

theorem State.bindCores_keeps {s0 s1 : State} {a1} (hs1 : Keeps s0 s1) :
    Keeps s0 (State.bindCores s1 a1) := by
  unfold State.bindCores
  refine State.each_keeps ?_ (fun _ _ _ => ?_)
  · assumption
  · exact State.updCore_keeps (by assumption)

theorem State.spareNow_keeps {s0 s1 : State} {a1} (hs1 : Keeps s0 s1) :
    Keeps s0 (State.spareNow s1 a1) := by
  unfold State.spareNow
  refine State.updDie_keeps ?_ ?_
  · assumption
  · first | exact fun _ h => h | (intro _ h; split <;> exact h) | (intro _ h; simp_all [Die.Sized, lmod])

theorem State.rowsAtLeast_keeps {s0 s1 : State} {a1 a2} (hs1 : Keeps s0 s1) :
    Keeps s0 (State.rowsAtLeast s1 a1 a2) := by
  unfold State.rowsAtLeast
  refine State.updMt_keeps ?_ ?_
  · assumption
  · first | exact fun _ h => h | (intro _ h; split <;> exact h) | (intro _ h; simp_all [MemTier.Sized, lmod])

theorem State.repairMaps_keeps {s0 s1 : State} {a1 a2} (hs1 : Keeps s0 s1) :
    Keeps s0 (State.repairMaps s1 a1 a2) := by
  unfold State.repairMaps
  extract_lets -merge -underBinder +onlyGivenNames x1
  have hx1 : Keeps s0 x1 := by
    subst x1
    refine State.each_keeps ?_ (fun _ _ _ => ?_)
    · assumption
    · exact State.rowsAtLeast_keeps (by assumption)
  clear_value x1
  extract_lets -merge -underBinder +onlyGivenNames x2
  have hx2 : Keeps s0 x2 := by
    subst x2
    refine State.each_keeps ?_ (fun _ _ _ => ?_)
    · assumption
    · exact State.updCore_keeps (State.rowsAtLeast_keeps (by assumption))
  clear_value x2
  refine State.each_keeps ?_ (fun _ _ _ => ?_)
  · assumption
  · refine State.updMt_keeps ?_ ?_
    · assumption
    · first | exact fun _ h => h | (intro _ h; split <;> exact h) | (intro _ h; simp_all [MemTier.Sized, lmod])

theorem State.dieStart_keeps {s0 s1 : State} {a1 a2} (hs1 : Keeps s0 s1) :
    Keeps s0 (State.dieStart s1 a1 a2) := by
  unfold State.dieStart
  refine keeps_ite ?_ ?_
  · assumption
  · extract_lets -merge -underBinder +onlyGivenNames x1
    have hx1 : Keeps s0 x1 := by
      subst x1
      exact State.repairMaps_keeps (State.bindCores_keeps (by assumption))
    clear_value x1
    extract_lets -merge -underBinder +onlyGivenNames x2
    have hx2 : Keeps s0 x2 := by
      subst x2
      refine State.spareNow_keeps ?_
      refine State.each_keeps ?_ (fun _ _ _ => ?_)
      · assumption
      · exact State.coreFail_keeps (by assumption)
    clear_value x2
    extract_lets -merge -underBinder +onlyGivenNames x3
    have hx3 : Keeps s0 x3 := by
      subst x3
      refine State.updDie_keeps ?_ ?_
      · assumption
      · first | exact fun _ h => h | (intro _ h; split <;> exact h) | (intro _ h; simp_all [Die.Sized, lmod])
    clear_value x3
    extract_lets -merge -underBinder +onlyGivenNames x4
    have hx4 : Keeps s0 x4 := by
      subst x4
      refine keeps_ite ?_ ?_
      · exact State.dieFail_keeps (by assumption)
      · assumption
    clear_value x4
    refine State.updDie_keeps ?_ ?_
    · assumption
    · first | exact fun _ h => h | (intro _ h; split <;> exact h) | (intro _ h; simp_all [Die.Sized, lmod])

theorem State.qchStart_keeps {s0 s1 : State} {a1 a2} (hs1 : Keeps s0 s1) :
    Keeps s0 (State.qchStart s1 a1 a2) := by
  unfold State.qchStart
  extract_lets -merge -underBinder +onlyGivenNames x1
  have hx1 : ∀ y0, Keeps s0 y0 → Keeps s0 (x1 y0) := by
    subst x1
    intro y0 _
    exact State.updQch_keeps (by assumption)
  clear_value x1
  extract_lets -merge -underBinder +onlyGivenNames x2 x3
  clear_value x2 x3
  refine keeps_ite ?_ ?_
  · assumption
  · refine keeps_ite ?_ ?_
    · refine hx1 _ ?_
      assumption
    · refine keeps_ite ?_ ?_
      · exact State.raise_keeps (State.updQch_keeps (by assumption))
      · exact State.raise_keeps (State.updQch_keeps (by assumption))

theorem State.stepsRun_keeps {s0 s1 : State} {a1} (hs1 : Keeps s0 s1) :
    Keeps s0 (State.stepsRun s1 a1) := by
  unfold State.stepsRun
  extract_lets -merge -underBinder +onlyGivenNames x1
  have hx1 : Keeps s0 x1 := by
    subst x1
    refine State.each_keeps ?_ (fun _ _ _ => ?_)
    · assumption
    · exact State.dieStart_keeps (by assumption)
  clear_value x1
  extract_lets -merge -underBinder +onlyGivenNames x2
  have hx2 : Keeps s0 x2 := by
    subst x2
    refine State.each_keeps ?_ (fun _ _ _ => ?_)
    · assumption
    · refine keeps_ite ?_ ?_
      · assumption
      · exact State.dieFail_keeps (by assumption)
  clear_value x2
  extract_lets -merge -underBinder +onlyGivenNames x3
  have hx3 : Keeps s0 x3 := by
    subst x3
    refine keeps_ite ?_ ?_
    · exact State.applyConfig_keeps (by assumption)
    · assumption
  clear_value x3
  extract_lets -merge -underBinder +onlyGivenNames x4
  have hx4 : Keeps s0 x4 := by
    subst x4
    refine State.each_keeps ?_ (fun _ _ _ => ?_)
    · assumption
    · exact State.qchStart_keeps (by assumption)
  clear_value x4
  extract_lets -merge -underBinder +onlyGivenNames x5
  have hx5 : Keeps s0 x5 := by
    subst x5
    refine State.each_keeps ?_ (fun _ _ _ => ?_)
    · assumption
    · exact State.kvInit_keeps (by assumption)
  clear_value x5
  refine State.each_keeps ?_ (fun _ _ _ => ?_)
  · assumption
  · exact State.linkSet_keeps (by assumption)

theorem State.returned_keeps {s0 s1 : State} (hs1 : Keeps s0 s1) :
    Keeps s0 (State.returned s1) := by
  unfold State.returned
  extract_lets -merge -underBinder +onlyGivenNames x1
  have hx1 : Keeps s0 x1 := by
    subst x1
    refine keeps_ite ?_ ?_
    · exact State.carCheck_keeps (State.realign_keeps (State.lineOn_keeps (by assumption)))
    · assumption
  clear_value x1
  extract_lets -merge -underBinder +onlyGivenNames x2
  have hx2 : Keeps s0 x2 := by
    subst x2
    exact State.updPower_keeps (by assumption)
  clear_value x2
  refine keeps_ite ?_ ?_
  · assumption
  · exact State.releaseTargets_keeps (by assumption)

theorem State.stepsEnd_keeps {s0 s1 : State} {a1} (hs1 : Keeps s0 s1) :
    Keeps s0 (State.stepsEnd s1 a1) := by
  unfold State.stepsEnd
  extract_lets -merge -underBinder +onlyGivenNames x1 x2 x3 x4
  clear_value x1 x2 x3
  have hx4 : Keeps s0 x4 := by
    subst x4
    exact State.updMgmt_keeps (by assumption)
  clear_value x4
  extract_lets -merge -underBinder +onlyGivenNames x5
  have hx5 : Keeps s0 x5 := by
    subst x5
    exact State.regrant_keeps (State.logStartup_keeps (by assumption))
  clear_value x5
  extract_lets -merge -underBinder +onlyGivenNames x6
  have hx6 : Keeps s0 x6 := by
    subst x6
    refine keeps_ite ?_ ?_
    · assumption
    · exact State.raise_keeps (by assumption)
  clear_value x6
  refine keeps_ite ?_ ?_
  · exact State.returned_keeps (by assumption)
  · assumption

theorem State.slept_keeps {s0 s1 : State} {a1} (hs1 : Keeps s0 s1) : Keeps s0 (State.slept s1 a1) := by
  refine ⟨hs1.pending, hs1.now, hs1.regs, fun _ => rfl, fun q => ?_⟩
  have r := hs1.sized q
  have hl : (s1.line.axis.map Axis.pins).length = 16 := (List.length_map _).trans r.line.1
  refine ⟨r.1, r.2, ⟨(List.length_map _).trans r.3.1, rfl⟩, dies_kept r.4, rfl, rfl, ?_,
    ⟨hl, rfl, rfl, rfl, rfl, rfl, rfl, rfl⟩, ?_, r.10⟩
  · exact (List.length_map _).trans r.7
  · exact ⟨r.9.1, r.9.2.1, r.9.2.2.1, (List.length_map _).trans r.9.2.2.2⟩

theorem State.sleep_keeps {s0 s1 : State} {a1} (hs1 : Keeps s0 s1) :
    Keeps s0 (State.sleep s1 a1) := by
  unfold State.sleep
  extract_lets -merge -underBinder +onlyGivenNames x1
  have hx1 : Keeps s0 x1 := by
    subst x1
    exact State.restartReqs_keeps (by assumption)
  clear_value x1
  extract_lets -merge -underBinder +onlyGivenNames x2
  have hx2 : Keeps s0 x2 := by
    subst x2
    refine State.each_keeps ?_ (fun _ _ _ => ?_)
    · assumption
    · exact State.retireIdle_keeps (State.loseGraphs_keeps (State.loseTasks_keeps (by assumption)))
  clear_value x2
  extract_lets -merge -underBinder +onlyGivenNames x3
  have hx3 : Keeps s0 x3 := by
    subst x3
    exact State.settleCycles_keeps (by assumption)
  clear_value x3
  extract_lets -merge -underBinder +onlyGivenNames x4
  have hx4 : Keeps s0 x4 := by
    subst x4
    refine State.slept_keeps ?_
    refine keeps_foldl (fun _ _ _ => ?_) ?_
    · exact State.regSet_keeps (by assumption)
    · assumption
  clear_value x4
  refine keeps_ite ?_ ?_
  · refine State.updTn_keeps ?_ ?_
    · refine State.updCourse_keeps ?_ ?_
      · assumption
      · exact fun _ h => ⟨(List.length_map _).trans h.1, (List.length_map _).trans h.2.1, rfl, rfl⟩
    · exact fun _ h => ⟨rfl, rfl, rfl, rfl, rfl, h.2.2.2.2.2⟩
  · assumption

theorem State.timeUp_keeps {s0 s1 : State} (hs1 : Keeps s0 s1) :
    Keeps s0 (State.timeUp s1) := by
  unfold State.timeUp
  extract_lets -merge -underBinder +onlyGivenNames x1 x2
  clear_value x1
  have hx2 : Keeps s0 x2 := by
    subst x2
    exact State.regSet_keeps (State.regSet_keeps (by assumption))
  clear_value x2
  extract_lets -merge -underBinder +onlyGivenNames x3
  have hx3 : Keeps s0 x3 := by
    subst x3
    exact State.setPrimary_keeps (State.progEnWrite_keeps (State.progEnWrite_keeps (by assumption)))
  clear_value x3
  extract_lets -merge -underBinder +onlyGivenNames x4
  have hx4 : Keeps s0 x4 := by
    subst x4
    refine State.each_keeps ?_ (fun _ _ _ => ?_)
    · assumption
    · exact State.domEn_keeps (by assumption)
  clear_value x4
  refine State.each_keeps ?_ (fun _ _ _ => ?_)
  · assumption
  · exact State.tpoArm_keeps (by assumption)

theorem State.freqHome_keeps {s0 s1 : State} (hs1 : Keeps s0 s1) :
    Keeps s0 (State.freqHome s1) := by
  unfold State.freqHome
  extract_lets -merge -underBinder +onlyGivenNames x1
  have hx1 : Keeps s0 x1 := by
    subst x1
    exact State.settleCycles_keeps (by assumption)
  clear_value x1
  exact keeps_upd (by assumption) fun r => ⟨r.1, r.2, r.3, r.4, r.5, r.6, r.7, r.8, r.9, r.10⟩

theorem State.wake_keeps {s0 s1 : State} (hs1 : Keeps s0 s1) :
    Keeps s0 (State.wake s1) := by
  unfold State.wake
  extract_lets -merge -underBinder +onlyGivenNames x1 x2
  clear_value x1
  have hx2 : Keeps s0 x2 := by
    subst x2
    exact State.updMgmt_keeps (by assumption)
  clear_value x2
  extract_lets -merge -underBinder +onlyGivenNames x3
  have hx3 : Keeps s0 x3 := by
    subst x3
    refine keeps_ite ?_ ?_
    · exact State.timeUp_keeps (by assumption)
    · assumption
  clear_value x3
  extract_lets -merge -underBinder +onlyGivenNames x4
  have hx4 : Keeps s0 x4 := by
    subst x4
    exact State.stepsBegin_keeps (State.freqHome_keeps (by assumption))
  clear_value x4
  extract_lets -merge -underBinder +onlyGivenNames x5
  have hx5 : Keeps s0 x5 := by
    subst x5
    refine State.each_keeps ?_ (fun _ _ _ => ?_)
    · assumption
    · exact State.pwrEnWrite_keeps (by assumption)
  clear_value x5
  refine keeps_ite ?_ ?_
  · exact State.acqStart_keeps (by assumption)
  · exact State.discoverAll_keeps (by assumption)

theorem State.enterIdle_keeps {s0 s1 : State} (hs1 : Keeps s0 s1) :
    Keeps s0 (State.enterIdle s1) := by
  unfold State.enterIdle
  extract_lets -merge -underBinder +onlyGivenNames x1
  have hx1 : Keeps s0 x1 := by
    subst x1
    exact State.updMgmt_keeps (by assumption)
  clear_value x1
  refine State.each_keeps ?_ (fun _ _ _ => ?_)
  · assumption
  · refine State.each_keeps ?_ (fun _ _ _ => ?_)
    · assumption
    · exact State.coreClear_keeps (by assumption)

theorem State.leaveIdle_keeps {s0 s1 : State} (hs1 : Keeps s0 s1) :
    Keeps s0 (State.leaveIdle s1) := by
  unfold State.leaveIdle
  refine State.switchCores_keeps ?_ ?_
  · exact State.updMgmt_keeps (by assumption)
  · assumption

theorem State.enterLow_keeps {s0 s1 : State} {a1} (hs1 : Keeps s0 s1) :
    Keeps s0 (State.enterLow s1 a1) := by
  unfold State.enterLow
  extract_lets -merge -underBinder +onlyGivenNames x1 x2
  clear_value x1
  have hx2 : Keeps s0 x2 := by
    subst x2
    exact State.updMgmt_keeps (State.sleep_keeps (by assumption))
  clear_value x2
  refine keeps_ite ?_ ?_
  · exact State.timeUp_keeps (by assumption)
  · assumption

theorem State.powerReached_keeps {s0 s1 : State} (hs1 : Keeps s0 s1) :
    Keeps s0 (State.powerReached s1) := by
  unfold State.powerReached
  split
  · exact State.leaveIdle_keeps (by assumption)
  · exact State.enterIdle_keeps (by assumption)
  · exact State.enterLow_keeps (by assumption)
  · exact State.enterLow_keeps (by assumption)
  · assumption

theorem State.powerAccept_keeps {s0 s1 : State} {a1} (hs1 : Keeps s0 s1) :
    Keeps s0 (State.powerAccept s1 a1) := by
  unfold State.powerAccept
  extract_lets -merge -underBinder +onlyGivenNames x1
  have hx1 : Keeps s0 x1 := by
    subst x1
    exact State.updMgmt_keeps (by assumption)
  clear_value x1
  split
  · refine State.fallbackAll_keeps ?_
    refine State.updPlumb_keeps ?_ ?_
    · assumption
    · first | exact fun _ h => h | (intro _ h; split <;> exact h) | (intro _ h; simp_all [Plumb.Sized, lmod])
  · refine State.fallbackAll_keeps ?_
    refine State.updPlumb_keeps ?_ ?_
    · assumption
    · first | exact fun _ h => h | (intro _ h; split <;> exact h) | (intro _ h; simp_all [Plumb.Sized, lmod])
  · refine keeps_ite ?_ ?_
    · exact State.wake_keeps (by assumption)
    · assumption

theorem State.fuses_pending {s : State} {f : Fuses} : (s.fuses f).pending = s.pending := by
  unfold State.fuses
  split
  · rfl
  · rfl

theorem State.fuses_sized {s : State} {f : Fuses} (h : s.Sized) : (s.fuses f).Sized := by
  unfold State.fuses
  split
  · exact h
  · exact ⟨h.1, h.2, h.3, h.4, h.5, h.6, h.7, h.8, h.9, h.10⟩

theorem State.fuses_now {s : State} {f : Fuses} : (s.fuses f).now = s.now := by
  unfold State.fuses
  split
  · rfl
  · rfl

theorem execPowerOn_keeps {s0 : State} {a0 a1 a2 a3} {s5 : State} (hs5 : Keeps s0 s5) :
    KeepsN s0 (execPowerOn a0 a1 a2 a3 s5) := by
  unfold execPowerOn
  extract_lets -merge -underBinder +onlyGivenNames x1
  have hx1 : Keeps s0 x1 := by
    subst x1
    have h := State.to_keeps (a1 := a0) hs5
    exact State.fallbackAll_keeps (State.fuseMacs_keeps (State.cleared_on (State.fuses_pending.trans h.pending)
      (Nat.le_trans h.now (Nat.le_of_eq State.fuses_now.symm)) fun q => State.fuses_sized (h.sized q)))
  clear_value x1
  extract_lets -merge -underBinder +onlyGivenNames x2
  have hx2 : Keeps s0 x2 := by
    subst x2
    exact State.updMgmt_keeps (by assumption)
  clear_value x2
  refine keepsN_next ?_
  refine keeps_ite ?_ ?_
  · exact State.boot_keeps (by assumption)
  · assumption

theorem execResetN_keeps {s0 : State} {a0 a1 a2 a3} {s5 : State} (hs5 : Keeps s0 s5) :
    KeepsN s0 (execResetN a0 a1 a2 a3 s5) := by
  unfold execResetN
  extract_lets -merge -underBinder +onlyGivenNames x1
  have hx1 : Keeps s0 x1 := by
    subst x1
    exact State.to_keeps (by assumption)
  clear_value x1
  refine keepsN_ite ?_ ?_
  · extract_lets -merge -underBinder +onlyGivenNames x2
    clear_value x2
    exact keepsN_next (State.updMgmt_keeps (State.inReset_keeps (by assumption)))
  · refine keepsN_ite ?_ ?_
    · exact keepsN_next (by assumption)
    · extract_lets -merge -underBinder +onlyGivenNames x3
      have hx3 : Keeps s0 x3 := by
        subst x3
        exact State.updMgmt_keeps (by assumption)
      clear_value x3
      refine keepsN_next ?_
      refine keeps_ite ?_ ?_
      · exact State.boot_keeps (by assumption)
      · assumption

theorem execPwrgdFall_keeps {s0 : State} {a0} {s2 : State} (hs2 : Keeps s0 s2) :
    KeepsN s0 (execPwrgdFall a0 s2) := by
  unfold execPwrgdFall
  exact keepsN_next (State.updMgmt_keeps (State.inReset_keeps (State.to_keeps (by assumption))))

theorem execRefclkLoss_keeps {s0 : State} {a0} {s2 : State} (hs2 : Keeps s0 s2) :
    KeepsN s0 (execRefclkLoss a0 s2) := by
  unfold execRefclkLoss
  extract_lets -merge -underBinder +onlyGivenNames x1
  have hx1 : Keeps s0 x1 := by
    subst x1
    exact State.to_keeps (by assumption)
  clear_value x1
  refine guardNext_keeps ?_ (fun _ _ => ?_)
  · assumption
  · extract_lets -merge -underBinder +onlyGivenNames x2
    have hx2 : Keeps s0 x2 := by
      subst x2
      refine State.fallbackAll_keeps ?_
      refine State.updPlumb_keeps ?_ ?_
      · assumption
      · first | exact fun _ h => h | (intro _ h; split <;> exact h) | (intro _ h; simp_all [Plumb.Sized, lmod])
    clear_value x2
    extract_lets -merge -underBinder +onlyGivenNames x3
    have hx3 : Keeps s0 x3 := by
      subst x3
      exact State.sleep_keeps (by assumption)
    clear_value x3
    exact State.updMgmt_keeps (by assumption)

theorem execEthclkLoss_keeps {s0 : State} {a0} {s2 : State} (hs2 : Keeps s0 s2) :
    KeepsN s0 (execEthclkLoss a0 s2) := by
  unfold execEthclkLoss
  extract_lets -merge -underBinder +onlyGivenNames x1
  have hx1 : Keeps s0 x1 := by
    subst x1
    exact State.updMgmt_keeps (State.to_keeps (by assumption))
  clear_value x1
  refine keepsN_next ?_
  refine State.each_keeps ?_ (fun _ _ _ => ?_)
  · assumption
  · exact State.linkSet_keeps (by assumption)

theorem execCxpclkLoss_keeps {s0 : State} {a0} {s2 : State} (hs2 : Keeps s0 s2) :
    KeepsN s0 (execCxpclkLoss a0 s2) := by
  unfold execCxpclkLoss
  extract_lets -merge -underBinder +onlyGivenNames x1
  have hx1 : Keeps s0 x1 := by
    subst x1
    exact State.updMgmt_keeps (State.to_keeps (by assumption))
  clear_value x1
  refine keepsN_next ?_
  refine State.each_keeps ?_ (fun _ _ _ => ?_)
  · assumption
  · exact State.groupDown_keeps (by assumption)

theorem State.jtag_keeps {s0 s1 : State} {a1} (hs1 : Keeps s0 s1) :
    Keeps s0 (State.jtag s1 a1) := by
  unfold State.jtag
  exact State.updMgmt_keeps (by assumption)

theorem execBypass_keeps {s0 : State} {a0} {s2 : State} (hs2 : Keeps s0 s2) :
    KeepsN s0 (execBypass a0 s2) := by
  unfold execBypass
  exact keepsN_next (State.jtag_keeps (State.to_keeps (by assumption)))

theorem execIdcode_keeps {s0 : State} {a0} {s2 : State} (hs2 : Keeps s0 s2) :
    KeepsN s0 (execIdcode a0 s2) := by
  unfold execIdcode
  exact keepsN_next (State.jtag_keeps (State.to_keeps (by assumption)))

theorem execSamplePreload_keeps {s0 : State} {a0} {s2 : State} (hs2 : Keeps s0 s2) :
    KeepsN s0 (execSamplePreload a0 s2) := by
  unfold execSamplePreload
  exact keepsN_next (State.jtag_keeps (State.to_keeps (by assumption)))

theorem execExtest_keeps {s0 : State} {a0} {s2 : State} (hs2 : Keeps s0 s2) :
    KeepsN s0 (execExtest a0 s2) := by
  unfold execExtest
  exact keepsN_next (State.jtag_keeps (State.to_keeps (by assumption)))

theorem execExtestPulse_keeps {s0 : State} {a0} {s2 : State} (hs2 : Keeps s0 s2) :
    KeepsN s0 (execExtestPulse a0 s2) := by
  unfold execExtestPulse
  exact keepsN_next (State.jtag_keeps (State.to_keeps (by assumption)))

theorem execExtestTrain_keeps {s0 : State} {a0} {s2 : State} (hs2 : Keeps s0 s2) :
    KeepsN s0 (execExtestTrain a0 s2) := by
  unfold execExtestTrain
  exact keepsN_next (State.jtag_keeps (State.to_keeps (by assumption)))

end Sys2Proof.Machine
end

