-- ==== Sys2Proof/Laws/KeepsSdioCore.lean ====
section
/-! SUPPORT. What the operations of Machine/SdioCore.lean keep (Laws/Keeps.lean). -/
namespace Sys2Proof.Machine
set_option Elab.async false

theorem State.violCount_keeps {s0 s1 : State} {a1} (hs1 : Keeps s0 s1) :
    Keeps s0 (State.violCount s1 a1) := by
  unfold State.violCount
  extract_lets -merge -underBinder +onlyGivenNames x1 x2 x3
  clear_value x1 x2
  have hx3 : Keeps s0 x3 := by
    subst x3
    exact State.updSdio_keeps (State.bumpHi_keeps (by assumption))
  clear_value x3
  refine keeps_ite ?_ ?_
  · exact State.raise_keeps (State.setFld_keeps (by assumption))
  · assumption

theorem State.violate_keeps {s0 s1 : State} {a1 a2} (hs1 : Keeps s0 s1) :
    Keeps s0 (State.violate s1 a1 a2) := by
  unfold State.violate
  extract_lets -merge -underBinder +onlyGivenNames x1 x2
  clear_value x1
  have hx2 : Keeps s0 x2 := by
    subst x2
    exact State.updSdio_keeps (by assumption)
  clear_value x2
  exact State.violCount_keeps (State.raise_keeps (by assumption))

theorem State.answer_keeps {s0 s1 : State} {a1 a2 a3} (hs1 : Keeps s0 s1) :
    Keeps s0 (State.answer s1 a1 a2 a3) := by
  unfold State.answer
  extract_lets -merge -underBinder +onlyGivenNames x1
  have hx1 : Keeps s0 x1 := by
    subst x1
    exact State.reply_keeps (by assumption)
  clear_value x1
  refine keeps_ite ?_ ?_
  · exact State.violate_keeps (by assumption)
  · assumption

theorem execRateLimitEnd_keeps {s0 : State} {a0 a1} {s3 : State} (hs3 : Keeps s0 s3) :
    KeepsN s0 (execRateLimitEnd a0 a1 s3) := by
  unfold execRateLimitEnd
  extract_lets -merge -underBinder +onlyGivenNames x1
  have hx1 : Keeps s0 x1 := by
    subst x1
    exact State.to_keeps (by assumption)
  clear_value x1
  refine guardNext_keeps ?_ (fun _ _ => ?_)
  · assumption
  · exact State.setFld_keeps (by assumption)

theorem State.defer_keeps {s0 s1 : State} {a1 a2} (hs1 : Keeps s0 s1) (ha2 : ∀ y0, Keeps s0 y0 → Keeps s0 (a2 y0)) :
    Keeps s0 (State.defer s1 a1 a2) := by
  unfold State.defer
  refine keeps_ite ?_ ?_
  · exact State.answer_keeps (by assumption)
  · refine ha2 _ ?_
    assumption

theorem State.deferOn_keeps {s0 s1 : State} {a1} (hs1 : Keeps s0 s1) :
    Keeps s0 (State.deferOn s1 a1) := by
  unfold State.deferOn
  exact State.updSdio_keeps (by assumption)

theorem State.bulkIn_keeps {s0 s1 : State} {a1 a2} (hs1 : Keeps s0 s1) :
    Keeps s0 (State.bulkIn s1 a1 a2) := by
  unfold State.bulkIn
  refine keeps_ite ?_ ?_
  · exact State.answer_keeps (by assumption)
  · refine State.defer_keeps ?_ (fun _ _ => ?_)
    · assumption
    · exact State.bulkNext_keeps (State.updSdio_keeps (by assumption))

theorem State.outNext_keeps {s0 s1 : State} (hs1 : Keeps s0 s1) :
    Keeps s0 (State.outNext s1) := by
  unfold State.outNext
  split
  · exact State.reply_keeps (State.updSdio_keeps (by assumption))
  · assumption

theorem State.bulkOut_keeps {s0 s1 : State} {a1 a2} (hs1 : Keeps s0 s1) :
    Keeps s0 (State.bulkOut s1 a1 a2) := by
  unfold State.bulkOut
  refine State.defer_keeps ?_ (fun _ _ => ?_)
  · assumption
  · exact State.outNext_keeps (State.updSdio_keeps (by assumption))

end Sys2Proof.Machine
end

