-- ==== Sys2Proof/Laws/KeepsHostCmds.lean ====
section
/-! SUPPORT. What the operations of Machine/HostCmds.lean keep (Laws/Keeps.lean). -/
namespace Sys2Proof.Machine
set_option Elab.async false

theorem State.hostEcho_keeps {s0 s1 : State} {a1 a2} (hs1 : Keeps s0 s1) :
    Keeps s0 (State.hostEcho s1 a1 a2) := by
  unfold State.hostEcho
  exact State.answer_keeps (by assumption)

theorem State.hostReset_keeps {s0 s1 : State} {a1} (hs1 : Keeps s0 s1) :
    Keeps s0 (State.hostReset s1 a1) := by
  unfold State.hostReset
  exact State.updMgmt_keeps (State.answer_keeps (by assumption))

theorem State.hostCxp_keeps {s0 s1 : State} {a1 a2 a3} (hs1 : Keeps s0 s1) :
    Keeps s0 (State.hostCxp s1 a1 a2 a3) := by
  unfold State.hostCxp
  refine keeps_ite ?_ ?_
  · exact State.answer_keeps (by assumption)
  · refine keeps_ite ?_ ?_
    · exact State.answer_keeps (by assumption)
    · refine keeps_ite ?_ ?_
      · exact State.answer_keeps (by assumption)
      · refine keeps_ite ?_ ?_
        · exact State.answer_keeps (by assumption)
        · refine State.defer_keeps ?_ (fun _ _ => ?_)
          · assumption
          · exact State.updGrp_keeps (State.deferOn_keeps (by assumption))

theorem State.hostLog_keeps {s0 s1 : State} {a1 a2 a3} (hs1 : Keeps s0 s1) :
    Keeps s0 (State.hostLog s1 a1 a2 a3) := by
  unfold State.hostLog
  refine keeps_ite ?_ ?_
  · extract_lets -merge -underBinder +onlyGivenNames x1
    clear_value x1
    refine keeps_ite ?_ ?_
    · exact State.answer_keeps (by assumption)
    · exact State.bulkOut_keeps (by assumption)
  · extract_lets -merge -underBinder +onlyGivenNames x2
    clear_value x2
    refine keeps_ite ?_ ?_
    · exact State.answer_keeps (by assumption)
    · exact State.bulkOut_keeps (by assumption)

theorem State.tileRead_keeps {s0 s1 : State} {a1 a2 a3} (hs1 : Keeps s0 s1) :
    KeepsL s0 (State.tileRead s1 a1 a2 a3) := by
  unfold State.tileRead
  extract_lets -merge -underBinder +onlyGivenNames x1
  clear_value x1
  refine keepsL_foldl (fun _ _ _ => ?_) ?_
  · split
    · refine KeepsL.of_eq (a := s0) (by assumption) ?_ (fun _ => ?_)
      · refine State.eccRead_keeps ?_
        exact KeepsL.fst (by assumption)
      exact keepsL_mk (by assumption)
  · exact keepsL_mk (by assumption)

theorem State.hostImage_keeps {s0 s1 : State} {a1 a2 a3 a4 a5} (hs1 : Keeps s0 s1) :
    Keeps s0 (State.hostImage s1 a1 a2 a3 a4 a5) := by
  unfold State.hostImage
  extract_lets -merge -underBinder +onlyGivenNames x1
  clear_value x1
  refine keeps_ite ?_ ?_
  · exact State.answer_keeps (by assumption)
  · refine keeps_ite ?_ ?_
    · exact State.answer_keeps (by assumption)
    · split
      · exact State.answer_keeps (by assumption)
      · split
        · refine KeepsL.of_eq (a := s0) (by assumption) ?_ (fun _ => ?_)
          · refine keepsL_foldl (fun _ _ _ => ?_) ?_
            · split
              · refine KeepsL.of_eq (a := s0) (by assumption) ?_ (fun _ => ?_)
                · refine State.tileRead_keeps ?_
                  exact KeepsL.fst (by assumption)
                exact keepsL_mk (by assumption)
            · exact keepsL_mk (by assumption)
          refine keeps_ite ?_ ?_
          · exact State.answer_keeps (by assumption)
          · exact State.bulkOut_keeps (by assumption)

theorem State.hostRegRead_keeps {s0 s1 : State} {a1 a2 a3} (hs1 : Keeps s0 s1) :
    Keeps s0 (State.hostRegRead s1 a1 a2 a3) := by
  unfold State.hostRegRead
  refine keeps_ite ?_ ?_
  · exact State.answer_keeps (by assumption)
  · refine keeps_ite ?_ ?_
    · exact State.answer_keeps (by assumption)
    · refine keeps_ite ?_ ?_
      · exact State.answer_keeps (by assumption)
      · split
        · refine KeepsR.of_eq (a := s0) (by assumption) ?_ (fun _ => ?_)
          · exact State.readRegs_keeps (by assumption)
          exact State.answer_keeps (by assumption)

theorem State.hostRegWrite_keeps {s0 s1 : State} {a1 a2} (hs1 : Keeps s0 s1) :
    Keeps s0 (State.hostRegWrite s1 a1 a2) := by
  unfold State.hostRegWrite
  refine keeps_ite ?_ ?_
  · exact State.answer_keeps (by assumption)
  · split
    · refine KeepsL.of_eq (a := s0) (by assumption) ?_ (fun _ => ?_)
      · exact State.regWrites_keeps (by assumption)
      exact State.answer_keeps (by assumption)

theorem State.hostRegModify_keeps {s0 s1 : State} {a1 a2 a3 a4} (hs1 : Keeps s0 s1) :
    Keeps s0 (State.hostRegModify s1 a1 a2 a3 a4) := by
  unfold State.hostRegModify
  refine keeps_ite ?_ ?_
  · exact State.answer_keeps (by assumption)
  · refine keeps_ite ?_ ?_
    · exact State.answer_keeps (by assumption)
    · split
      · refine KeepsL.of_eq (a := s0) (by assumption) ?_ (fun _ => ?_)
        · exact State.regModify_keeps (by assumption)
        exact State.answer_keeps (by assumption)

theorem State.planClose_keeps {s0 s1 : State} {a1} (hs1 : Keeps s0 s1) :
    Keeps s0 (State.planClose s1 a1) := by
  unfold State.planClose
  extract_lets -merge -underBinder +onlyGivenNames x1
  have hx1 : Keeps s0 x1 := by
    subst x1
    refine State.each_keeps ?_ (fun _ _ _ => ?_)
    · assumption
    · refine keeps_ite ?_ ?_
      · exact State.ctxCloseSet_keeps (by assumption)
      · assumption
  clear_value x1
  extract_lets -merge -underBinder +onlyGivenNames x2
  have hx2 : Keeps s0 x2 := by
    subst x2
    refine State.each_keeps ?_ (fun _ _ _ => ?_)
    · assumption
    · refine keeps_ite ?_ ?_
      · exact State.seqClose_keeps (by assumption)
      · assumption
  clear_value x2
  refine State.each_keeps ?_ (fun _ _ _ => ?_)
  · assumption
  · refine State.each_keeps ?_ (fun _ _ _ => ?_)
    · assumption
    · extract_lets -merge -underBinder +onlyGivenNames x3
      clear_value x3
      refine keeps_ite ?_ ?_
      · exact State.unmapPage_keeps (by assumption)
      · assumption

theorem State.seqReopen_keeps {s0 s1 : State} {a1 a2 a3 a4 a5 a6 a7 a8 a9 a10} (hs1 : Keeps s0 s1) :
    Keeps s0 (State.seqReopen s1 a1 a2 a3 a4 a5 a6 a7 a8 a9 a10) := by
  unfold State.seqReopen
  refine State.seqOpenSet_keeps ?_
  refine keeps_ite ?_ ?_
  · exact State.seqReset_keeps (by assumption)
  · assumption

theorem State.ctxReopen_keeps {s0 s1 : State} {a1 a2 a3 a4 a5 a6 a7 a8} (hs1 : Keeps s0 s1) :
    Keeps s0 (State.ctxReopen s1 a1 a2 a3 a4 a5 a6 a7 a8) := by
  unfold State.ctxReopen
  refine State.ctxOpenSet_keeps ?_
  refine keeps_ite ?_ ?_
  · exact State.ctxCloseSet_keeps (by assumption)
  · assumption

theorem State.planOpen_keeps {s0 s1 : State} {a1} (hs1 : Keeps s0 s1) :
    Keeps s0 (State.planOpen s1 a1) := by
  unfold State.planOpen
  extract_lets -merge -underBinder +onlyGivenNames x1
  have hx1 : Keeps s0 x1 := by
    subst x1
    refine State.each_keeps ?_ (fun _ _ _ => ?_)
    · assumption
    · refine keeps_ite ?_ ?_
      · exact State.ctxReopen_keeps (by assumption)
      · assumption
  clear_value x1
  refine State.each_keeps ?_ (fun _ _ _ => ?_)
  · assumption
  · refine keeps_ite ?_ ?_
    · exact State.seqReopen_keeps (by assumption)
    · assumption

theorem State.planMap_keeps {s0 s1 : State} {a1} (hs1 : Keeps s0 s1) :
    KeepsO s0 (State.planMap s1 a1) := by
  unfold State.planMap
  refine keepsO_foldl (fun _ _ _ => ?_) ?_
  · refine keepsO_bind ?_ (fun _ _ => ?_)
    · assumption
    · refine keepsO_ite ?_ ?_
      · exact State.mapPage_keeps (by assumption)
      · exact keepsO_some (by assumption)
  · exact keepsO_some (by assumption)

theorem State.planDrop_keeps {s0 s1 : State} (hs1 : Keeps s0 s1) :
    Keeps s0 (State.planDrop s1) := by
  unfold State.planDrop
  extract_lets -merge -underBinder +onlyGivenNames x1
  have hx1 : Keeps s0 x1 := by
    subst x1
    split
    · exact State.planClose_keeps (by assumption)
    · assumption
  clear_value x1
  exact State.updBond_keeps (by assumption)

theorem State.placePieces_keeps {s0 s1 : State} {a1} (hs1 : Keeps s0 s1) :
    Keeps s0 (State.placePieces s1 a1) := by
  unfold State.placePieces
  refine State.each_keeps ?_ (fun _ _ _ => ?_)
  · assumption
  · exact State.stBytes_keeps (by assumption)

theorem State.freqAsk_keeps {s0 s1 : State} {a1} (hs1 : Keeps s0 s1) :
    Keeps s0 (State.freqAsk s1 a1) := by
  unfold State.freqAsk
  extract_lets -merge -underBinder +onlyGivenNames x1
  have hx1 : Keeps s0 x1 := by
    subst x1
    exact State.settleCycles_keeps (by assumption)
  clear_value x1
  exact keeps_upd (by assumption) fun r => ⟨r.1, r.2, r.3, r.4, r.5, r.6, r.7, r.8, r.9, r.10⟩

theorem State.planPlace_keeps {s0 s1 : State} {a1 a2} (hs1 : Keeps s0 s1) :
    KeepsL s0 (State.planPlace s1 a1 a2) := by
  unfold State.planPlace
  extract_lets -merge -underBinder +onlyGivenNames x1 x2 x3
  clear_value x1 x2
  have hx3 : Keeps s0 x3 := by
    subst x3
    exact State.updBond_keeps (State.planDrop_keeps (by assumption))
  clear_value x3
  split
  · exact keepsL_mk (by assumption)
  · refine keepsL_ite ?_ ?_
    · exact keepsL_mk (by assumption)
    · refine keepsL_ite ?_ ?_
      · exact keepsL_mk (by assumption)
      · split
        · exact keepsL_mk (State.raise_keeps (by assumption))
        · refine KeepsO.of_eq (a := s0) (by assumption) ?_ (fun _ => ?_)
          · exact State.planMap_keeps (State.planOpen_keeps (State.placePieces_keeps (by assumption)))
          refine keepsL_mk ?_
          refine keeps_ite ?_ ?_
          · exact State.freqAsk_keeps (by assumption)
          · assumption

theorem State.hostPlanLoad_keeps {s0 s1 : State} {a1 a2} (hs1 : Keeps s0 s1) :
    Keeps s0 (State.hostPlanLoad s1 a1 a2) := by
  unfold State.hostPlanLoad
  refine keeps_ite ?_ ?_
  · exact State.answer_keeps (by assumption)
  · exact State.bulkIn_keeps (by assumption)

theorem State.hostPlanAdmit_keeps {s0 s1 : State} {a1} (hs1 : Keeps s0 s1) :
    Keeps s0 (State.hostPlanAdmit s1 a1) := by
  unfold State.hostPlanAdmit
  refine keeps_ite ?_ ?_
  · exact State.answer_keeps (by assumption)
  · refine State.defer_keeps ?_ (fun _ _ => ?_)
    · assumption
    · exact State.deferOn_keeps (by assumption)

theorem State.hostPlanStart_keeps {s0 s1 : State} {a1} (hs1 : Keeps s0 s1) :
    Keeps s0 (State.hostPlanStart s1 a1) := by
  unfold State.hostPlanStart
  refine keeps_ite ?_ ?_
  · exact State.answer_keeps (State.updBond_keeps (by assumption))
  · exact State.answer_keeps (by assumption)

theorem State.hostPlanStop_keeps {s0 s1 : State} {a1} (hs1 : Keeps s0 s1) :
    Keeps s0 (State.hostPlanStop s1 a1) := by
  unfold State.hostPlanStop
  refine keeps_ite ?_ ?_
  · exact State.answer_keeps (State.updBond_keeps (by assumption))
  · refine keeps_ite ?_ ?_
    · exact State.answer_keeps (State.updBond_keeps (by assumption))
    · exact State.answer_keeps (by assumption)

theorem State.hostPlanUnload_keeps {s0 s1 : State} {a1} (hs1 : Keeps s0 s1) :
    Keeps s0 (State.hostPlanUnload s1 a1) := by
  unfold State.hostPlanUnload
  refine keeps_ite ?_ ?_
  · exact State.answer_keeps (by assumption)
  · exact State.answer_keeps (State.planDrop_keeps (by assumption))

theorem State.hostSubmit_keeps {s0 s1 : State} {a1 a2 a3} (hs1 : Keeps s0 s1) :
    Keeps s0 (State.hostSubmit s1 a1 a2 a3) := by
  unfold State.hostSubmit
  refine keeps_ite ?_ ?_
  · exact State.answer_keeps (by assumption)
  · refine keeps_ite ?_ ?_
    · exact State.answer_keeps (by assumption)
    · split
      · refine KeepsL.of_eq (a := s0) (by assumption) ?_ (fun _ => ?_)
        · exact State.eccRead_keeps (by assumption)
        refine keeps_ite ?_ ?_
        · exact State.answer_keeps (by assumption)
        · split
          · exact State.answer_keeps (by assumption)
          · refine keeps_ite ?_ ?_
            · exact State.answer_keeps (by assumption)
            · refine keeps_ite ?_ ?_
              · exact State.answer_keeps (by assumption)
              · extract_lets -merge -underBinder +onlyGivenNames x1
                clear_value x1
                exact State.answer_keeps (State.enterGraph_keeps (by assumption))

theorem State.hostWait_keeps {s0 s1 : State} {a1 a2} (hs1 : Keeps s0 s1) :
    Keeps s0 (State.hostWait s1 a1 a2) := by
  unfold State.hostWait
  split
  · refine keeps_ite ?_ ?_
    · exact State.answer_keeps (by assumption)
    · refine State.defer_keeps ?_ (fun _ _ => ?_)
      · assumption
      · exact State.deferOn_keeps (by assumption)
  · refine keeps_ite ?_ ?_
    · exact State.answer_keeps (by assumption)
    · exact State.answer_keeps (by assumption)
  · exact State.answer_keeps (by assumption)

theorem State.adaptModels_keeps {s0 s1 : State} {a1} (hs1 : Keeps s0 s1) :
    Keeps s0 (State.adaptModels s1 a1) := by
  unfold State.adaptModels
  split
  · extract_lets -merge -underBinder +onlyGivenNames x1 x2
    clear_value x1 x2
    split
    · refine KeepsL.of_eq (a := s0) (by assumption) ?_ (fun _ => ?_)
      · refine keepsL_foldl (fun _ _ _ => ?_) ?_
        · refine keepsL_ite ?_ ?_
          · split
            · refine KeepsL.of_eq (a := s0) (by assumption) ?_ (fun _ => ?_)
              · refine State.mastersGet_keeps ?_
                exact KeepsL.fst (by assumption)
              exact keepsL_mk (by assumption)
          · refine keepsL_mk ?_
            exact KeepsL.fst (by assumption)
        · exact keepsL_mk (by assumption)
      extract_lets -merge -underBinder +onlyGivenNames x3 x4 x5
      clear_value x3 x4
      have hx5 : Keeps s0 x5 := by
        subst x5
        exact State.updAdapt_keeps (by assumption)
      clear_value x5
      refine State.each_keeps ?_ (fun _ _ _ => ?_)
      · assumption
      · exact State.mastersPut_keeps (by assumption)

theorem State.modelDrop_keeps {s0 s1 : State} {a1} (hs1 : Keeps s0 s1) :
    Keeps s0 (State.modelDrop s1 a1) := by
  unfold State.modelDrop
  extract_lets -merge -underBinder +onlyGivenNames x1
  clear_value x1
  exact State.adaptModels_keeps (State.updSdio_keeps (by assumption))

theorem State.modelPlace_keeps {s0 s1 : State} {a1 a2} (hs1 : Keeps s0 s1) :
    Keeps s0 (State.modelPlace s1 a1 a2) := by
  unfold State.modelPlace
  extract_lets -merge -underBinder +onlyGivenNames x1
  have hx1 : Keeps s0 x1 := by
    subst x1
    exact State.placePieces_keeps (State.modelDrop_keeps (by assumption))
  clear_value x1
  extract_lets -merge -underBinder +onlyGivenNames x2
  clear_value x2
  exact State.refresh_keeps (State.adaptModels_keeps (State.updSdio_keeps (by assumption)))

theorem State.hostModelLoad_keeps {s0 s1 : State} {a1 a2 a3 a4 a5} (hs1 : Keeps s0 s1) :
    Keeps s0 (State.hostModelLoad s1 a1 a2 a3 a4 a5) := by
  unfold State.hostModelLoad
  refine keeps_ite ?_ ?_
  · exact State.answer_keeps (by assumption)
  · refine keeps_ite ?_ ?_
    · exact State.answer_keeps (by assumption)
    · exact State.bulkIn_keeps (by assumption)

theorem State.hostModelUnload_keeps {s0 s1 : State} {a1 a2} (hs1 : Keeps s0 s1) :
    Keeps s0 (State.hostModelUnload s1 a1 a2) := by
  unfold State.hostModelUnload
  split
  · exact State.answer_keeps (by assumption)
  · refine keeps_ite ?_ ?_
    · exact State.answer_keeps (by assumption)
    · refine keeps_ite ?_ ?_
      · exact State.answer_keeps (by assumption)
      · exact State.answer_keeps (State.modelDrop_keeps (by assumption))

theorem State.hostMapLoad_keeps {s0 s1 : State} {a1 a2 a3 a4} (hs1 : Keeps s0 s1) :
    Keeps s0 (State.hostMapLoad s1 a1 a2 a3 a4) := by
  unfold State.hostMapLoad
  refine keeps_ite ?_ ?_
  · exact State.answer_keeps (by assumption)
  · refine keeps_ite ?_ ?_
    · exact State.answer_keeps (by assumption)
    · exact State.bulkIn_keeps (by assumption)

theorem State.mapPages_keeps {s0 s1 : State} {a1 a2 a3 a4} (hs1 : Keeps s0 s1) :
    KeepsO s0 (State.mapPages s1 a1 a2 a3 a4) := by
  unfold State.mapPages
  split
  · exact keepsO_some (by assumption)
  · split
    · exact keepsO_none
    · refine KeepsO.of_eq (a := s0) (by assumption) ?_ (fun _ => ?_)
      · exact State.mapPage_keeps (by assumption)
      exact State.mapPages_keeps (by assumption)

theorem State.hostPageMap_keeps {s0 s1 : State} {a1 a2 a3 a4} (hs1 : Keeps s0 s1) :
    Keeps s0 (State.hostPageMap s1 a1 a2 a3 a4) := by
  unfold State.hostPageMap
  refine keeps_ite ?_ ?_
  · exact State.answer_keeps (by assumption)
  · refine keeps_ite ?_ ?_
    · exact State.answer_keeps (by assumption)
    · refine keeps_ite ?_ ?_
      · exact State.answer_keeps (by assumption)
      · refine keeps_ite ?_ ?_
        · exact State.answer_keeps (by assumption)
        · split
          · refine KeepsO.of_eq (a := s0) (by assumption) ?_ (fun _ => ?_)
            · exact State.mapPages_keeps (by assumption)
            exact State.answer_keeps (by assumption)
          · exact State.answer_keeps (State.raise_keeps (by assumption))

theorem State.hostPageUnmap_keeps {s0 s1 : State} {a1 a2 a3} (hs1 : Keeps s0 s1) :
    Keeps s0 (State.hostPageUnmap s1 a1 a2 a3) := by
  unfold State.hostPageUnmap
  refine keeps_ite ?_ ?_
  · exact State.answer_keeps (by assumption)
  · refine keeps_ite ?_ ?_
    · exact State.answer_keeps (by assumption)
    · refine keeps_ite ?_ ?_
      · exact State.answer_keeps (by assumption)
      · refine State.answer_keeps ?_
        refine State.remapMore_keeps ?_
        refine State.each_keeps ?_ (fun _ _ _ => ?_)
        · assumption
        · refine keeps_ite ?_ ?_
          · exact State.unmapPage_keeps (by assumption)
          · assumption

theorem State.memStore_keeps {s0 s1 : State} {a1 a2 a3} (hs1 : Keeps s0 s1) :
    Keeps s0 (State.memStore s1 a1 a2 a3) := by
  unfold State.memStore
  refine keeps_ite ?_ ?_
  · exact KeepsL.fst (State.tierWrite_keeps (by assumption))
  · exact State.stBytes_keeps (by assumption)

theorem State.memFetch_keeps {s0 s1 : State} {a1 a2 a3} (hs1 : Keeps s0 s1) :
    KeepsL s0 (State.memFetch s1 a1 a2 a3) := by
  unfold State.memFetch
  refine keepsL_ite ?_ ?_
  · split
    · refine KeepsL.of_eq (a := s0) (by assumption) ?_ (fun _ => ?_)
      · exact State.tierRead_keeps (by assumption)
      exact keepsL_mk (by assumption)
    · refine KeepsL.of_eq (a := s0) (by assumption) ?_ (fun _ => ?_)
      · exact State.tierRead_keeps (by assumption)
      exact keepsL_mk (by assumption)
  · split
    · refine KeepsL.of_eq (a := s0) (by assumption) ?_ (fun _ => ?_)
      · exact State.eccRead_keeps (by assumption)
      exact keepsL_mk (by assumption)

theorem State.hostMemWrite_keeps {s0 s1 : State} {a1 a2 a3 a4} (hs1 : Keeps s0 s1) :
    Keeps s0 (State.hostMemWrite s1 a1 a2 a3 a4) := by
  unfold State.hostMemWrite
  refine keeps_ite ?_ ?_
  · exact State.answer_keeps (by assumption)
  · extract_lets -merge -underBinder +onlyGivenNames x1
    clear_value x1
    refine keeps_ite ?_ ?_
    · exact State.answer_keeps (by assumption)
    · exact State.answer_keeps (State.memStore_keeps (by assumption))

theorem State.hostMemWriteBulk_keeps {s0 s1 : State} {a1 a2 a3 a4} (hs1 : Keeps s0 s1) :
    Keeps s0 (State.hostMemWriteBulk s1 a1 a2 a3 a4) := by
  unfold State.hostMemWriteBulk
  refine keeps_ite ?_ ?_
  · exact State.answer_keeps (by assumption)
  · extract_lets -merge -underBinder +onlyGivenNames x1
    clear_value x1
    refine keeps_ite ?_ ?_
    · exact State.answer_keeps (by assumption)
    · exact State.bulkIn_keeps (by assumption)

theorem State.hostMemRead_keeps {s0 s1 : State} {a1 a2 a3 a4 a5} (hs1 : Keeps s0 s1) :
    Keeps s0 (State.hostMemRead s1 a1 a2 a3 a4 a5) := by
  unfold State.hostMemRead
  refine keeps_ite ?_ ?_
  · exact State.answer_keeps (by assumption)
  · extract_lets -merge -underBinder +onlyGivenNames x1
    clear_value x1
    refine keeps_ite ?_ ?_
    · exact State.answer_keeps (by assumption)
    · split
      · refine KeepsL.of_eq (a := s0) (by assumption) ?_ (fun _ => ?_)
        · exact State.memFetch_keeps (by assumption)
        exact State.answer_keeps (by assumption)
      · refine KeepsL.of_eq (a := s0) (by assumption) ?_ (fun _ => ?_)
        · exact State.memFetch_keeps (by assumption)
        refine keeps_ite ?_ ?_
        · exact State.bulkOut_keeps (by assumption)
        · exact State.answer_keeps (by assumption)

theorem State.hostCtxOpen_keeps {s0 s1 : State} {a1 a2 a3 a4 a5 a6 a7} (hs1 : Keeps s0 s1) :
    Keeps s0 (State.hostCtxOpen s1 a1 a2 a3 a4 a5 a6 a7) := by
  unfold State.hostCtxOpen
  refine keeps_ite ?_ ?_
  · exact State.answer_keeps (by assumption)
  · extract_lets -merge -underBinder +onlyGivenNames x1
    clear_value x1
    refine keeps_ite ?_ ?_
    · exact State.answer_keeps (by assumption)
    · exact State.answer_keeps (State.ctxReopen_keeps (by assumption))

theorem State.hostCtxClose_keeps {s0 s1 : State} {a1 a2} (hs1 : Keeps s0 s1) :
    Keeps s0 (State.hostCtxClose s1 a1 a2) := by
  unfold State.hostCtxClose
  refine keeps_ite ?_ ?_
  · exact State.answer_keeps (by assumption)
  · refine keeps_ite ?_ ?_
    · exact State.answer_keeps (by assumption)
    · refine keeps_ite ?_ ?_
      · exact State.answer_keeps (by assumption)
      · refine keeps_ite ?_ ?_
        · exact State.answer_keeps (by assumption)
        · exact State.answer_keeps (State.ctxCloseSet_keeps (by assumption))

theorem State.hostSeqOpen_keeps {s0 s1 : State} {a1 a2 a3 a4 a5 a6 a7 a8 a9 a10} (hs1 : Keeps s0 s1) :
    Keeps s0 (State.hostSeqOpen s1 a1 a2 a3 a4 a5 a6 a7 a8 a9 a10) := by
  unfold State.hostSeqOpen
  refine keeps_ite ?_ ?_
  · exact State.answer_keeps (by assumption)
  · extract_lets -merge -underBinder +onlyGivenNames x1
    clear_value x1
    refine keeps_ite ?_ ?_
    · exact State.answer_keeps (by assumption)
    · exact State.answer_keeps (State.seqReopen_keeps (by assumption))

theorem State.hostSeqFork_keeps {s0 s1 : State} {a1 a2 a3 a4} (hs1 : Keeps s0 s1) :
    Keeps s0 (State.hostSeqFork s1 a1 a2 a3 a4) := by
  unfold State.hostSeqFork
  refine keeps_ite ?_ ?_
  · exact State.answer_keeps (by assumption)
  · refine keeps_ite ?_ ?_
    · exact State.answer_keeps (by assumption)
    · refine keeps_ite ?_ ?_
      · exact State.answer_keeps (by assumption)
      · refine keeps_ite ?_ ?_
        · exact State.answer_keeps (by assumption)
        · split
          · refine KeepsL.of_eq (a := s0) (by assumption) ?_ (fun _ => ?_)
            · exact State.seqFork_keeps (by assumption)
            exact State.answer_keeps (by assumption)

theorem State.hostSeqClose_keeps {s0 s1 : State} {a1 a2} (hs1 : Keeps s0 s1) :
    Keeps s0 (State.hostSeqClose s1 a1 a2) := by
  unfold State.hostSeqClose
  refine keeps_ite ?_ ?_
  · exact State.answer_keeps (by assumption)
  · refine keeps_ite ?_ ?_
    · exact State.answer_keeps (by assumption)
    · refine keeps_ite ?_ ?_
      · exact State.answer_keeps (by assumption)
      · exact State.answer_keeps (State.seqClose_keeps (by assumption))

theorem State.hostCourseProg_keeps {s0 s1 : State} {a1 a2 a3} (hs1 : Keeps s0 s1) :
    Keeps s0 (State.hostCourseProg s1 a1 a2 a3) := by
  unfold State.hostCourseProg
  split
  · refine KeepsL.of_eq (a := s0) (by assumption) ?_ (fun _ => ?_)
    · exact State.progLoad_keeps (by assumption)
    exact State.answer_keeps (by assumption)

theorem State.hostServoProg_keeps {s0 s1 : State} {a1 a2 a3 a4 a5} (hs1 : Keeps s0 s1) :
    Keeps s0 (State.hostServoProg s1 a1 a2 a3 a4 a5) := by
  unfold State.hostServoProg
  refine keeps_ite ?_ ?_
  · exact State.answer_keeps (by assumption)
  · split
    · exact State.answer_keeps (by assumption)
    · exact State.answer_keeps (State.updAx_keeps (by assumption))

theorem State.hostMotionPost_keeps {s0 s1 : State} {a1 a2} (hs1 : Keeps s0 s1) :
    Keeps s0 (State.hostMotionPost s1 a1 a2) := by
  unfold State.hostMotionPost
  refine State.answer_keeps ?_
  refine State.updLine_keeps ?_ ?_
  · assumption
  · first | exact fun _ h => h | (intro _ h; split <;> exact h) | (intro _ h; simp_all [Line.Sized, lmod])

theorem State.hostShadowLoad_keeps {s0 s1 : State} {a1 a2} (hs1 : Keeps s0 s1) :
    Keeps s0 (State.hostShadowLoad s1 a1 a2) := by
  unfold State.hostShadowLoad
  refine keeps_ite ?_ ?_
  · exact State.answer_keeps (State.raise_keeps (by assumption))
  · exact State.bulkIn_keeps (by assumption)

theorem State.hostPublish_keeps {s0 s1 : State} {a1} (hs1 : Keeps s0 s1) :
    Keeps s0 (State.hostPublish s1 a1) := by
  unfold State.hostPublish
  extract_lets -merge -underBinder +onlyGivenNames x1
  have hx1 : Keeps s0 x1 := by
    subst x1
    exact State.mapPublish_keeps (by assumption)
  clear_value x1
  exact State.answer_keeps (by assumption)

theorem State.hostTimeRead_keeps {s0 s1 : State} {a1} (hs1 : Keeps s0 s1) :
    Keeps s0 (State.hostTimeRead s1 a1) := by
  unfold State.hostTimeRead
  exact State.answer_keeps (by assumption)

theorem State.hostRuleLoad_keeps {s0 s1 : State} {a1 a2 a3} (hs1 : Keeps s0 s1) :
    Keeps s0 (State.hostRuleLoad s1 a1 a2 a3) := by
  unfold State.hostRuleLoad
  refine keeps_ite ?_ ?_
  · exact State.answer_keeps (by assumption)
  · refine keeps_ite ?_ ?_
    · exact State.answer_keeps (by assumption)
    · refine keeps_ite ?_ ?_
      · exact State.answer_keeps (by assumption)
      · split
        · exact State.answer_keeps (by assumption)
        · exact State.answer_keeps (State.rulePlace_keeps (by assumption))

theorem State.hostSafety_keeps {s0 s1 : State} {a1} (hs1 : Keeps s0 s1) :
    Keeps s0 (State.hostSafety s1 a1) := by
  unfold State.hostSafety
  exact State.answer_keeps (by assumption)

theorem State.budgetReply_keeps {s0 s1 : State} {a1} (hs1 : Keeps s0 s1) :
    Keeps s0 (State.budgetReply s1 a1) := by
  unfold State.budgetReply
  extract_lets -merge -underBinder +onlyGivenNames x1 x2
  clear_value x1 x2
  exact State.answer_keeps (by assumption)

theorem State.budgetStart_keeps {s0 s1 : State} {a1 a2 a3} (hs1 : Keeps s0 s1) :
    Keeps s0 (State.budgetStart s1 a1 a2 a3) := by
  unfold State.budgetStart
  extract_lets -merge -underBinder +onlyGivenNames x1
  have hx1 : Keeps s0 x1 := by
    subst x1
    exact State.updPower_keeps (by assumption)
  clear_value x1
  extract_lets -merge -underBinder +onlyGivenNames x2
  have hx2 : Keeps s0 x2 := by
    subst x2
    exact State.raise_keeps (State.updPower_keeps (by assumption))
  clear_value x2
  split
  · exact State.updSdio_keeps (State.readmit_keeps (by assumption))
  · exact State.budgetReply_keeps (State.admitNow_keeps (by assumption))
  · exact State.budgetReply_keeps (by assumption)

theorem State.hostBudget_keeps {s0 s1 : State} {a1 a2 a3} (hs1 : Keeps s0 s1) :
    Keeps s0 (State.hostBudget s1 a1 a2 a3) := by
  unfold State.hostBudget
  refine keeps_ite ?_ ?_
  · exact State.answer_keeps (by assumption)
  · refine keeps_ite ?_ ?_
    · exact State.updSdio_keeps (by assumption)
    · exact State.budgetStart_keeps (by assumption)

theorem State.hostPower_keeps {s0 s1 : State} {a1 a2} (hs1 : Keeps s0 s1) :
    Keeps s0 (State.hostPower s1 a1 a2) := by
  unfold State.hostPower
  extract_lets -merge -underBinder +onlyGivenNames x1
  clear_value x1
  refine keeps_ite ?_ ?_
  · exact State.answer_keeps (by assumption)
  · refine keeps_ite ?_ ?_
    · exact State.answer_keeps (by assumption)
    · refine keeps_ite ?_ ?_
      · exact State.answer_keeps (by assumption)
      · refine keeps_ite ?_ ?_
        · exact State.answer_keeps (by assumption)
        · refine keeps_ite ?_ ?_
          · exact State.answer_keeps (by assumption)
          · refine keeps_ite ?_ ?_
            · exact State.answer_keeps (by assumption)
            · refine keeps_ite ?_ ?_
              · exact State.answer_keeps (by assumption)
              · exact State.powerAccept_keeps (State.updSdio_keeps (by assumption))

theorem State.hostAccount_keeps {s0 s1 : State} {a1 a2 a3} (hs1 : Keeps s0 s1) :
    Keeps s0 (State.hostAccount s1 a1 a2 a3) := by
  unfold State.hostAccount
  refine keeps_ite ?_ ?_
  · exact State.answer_keeps (by assumption)
  · refine keeps_ite ?_ ?_
    · exact State.answer_keeps (by assumption)
    · exact State.answer_keeps (by assumption)

theorem State.hostAttest_keeps {s0 s1 : State} {a1 a2} (hs1 : Keeps s0 s1) :
    Keeps s0 (State.hostAttest s1 a1 a2) := by
  unfold State.hostAttest
  refine State.defer_keeps ?_ (fun _ _ => ?_)
  · assumption
  · extract_lets -merge -underBinder +onlyGivenNames x1
    clear_value x1
    exact State.answer_keeps (by assumption)

theorem State.hostKeyInfo_keeps {s0 s1 : State} {a1} (hs1 : Keeps s0 s1) :
    Keeps s0 (State.hostKeyInfo s1 a1) := by
  unfold State.hostKeyInfo
  exact State.answer_keeps (by assumption)

theorem State.hostKeySet_keeps {s0 s1 : State} {a1 a2 a3} (hs1 : Keeps s0 s1) :
    Keeps s0 (State.hostKeySet s1 a1 a2 a3) := by
  unfold State.hostKeySet
  extract_lets -merge -underBinder +onlyGivenNames x1
  clear_value x1
  refine keeps_ite ?_ ?_
  · exact State.answer_keeps (by assumption)
  · refine keeps_ite ?_ ?_
    · exact State.answer_keeps (by assumption)
    · refine keeps_ite ?_ ?_
      · exact State.answer_keeps (by assumption)
      · extract_lets -merge -underBinder +onlyGivenNames x2
        have hx2 : Keeps s0 x2 := by
          subst x2
          exact State.updMgmt_keeps (by assumption)
        clear_value x2
        exact State.answer_keeps (State.raise_keeps (by assumption))

theorem State.hostKeyRevoke_keeps {s0 s1 : State} {a1 a2} (hs1 : Keeps s0 s1) :
    Keeps s0 (State.hostKeyRevoke s1 a1 a2) := by
  unfold State.hostKeyRevoke
  extract_lets -merge -underBinder +onlyGivenNames x1
  clear_value x1
  refine keeps_ite ?_ ?_
  · exact State.answer_keeps (by assumption)
  · extract_lets -merge -underBinder +onlyGivenNames x2
    have hx2 : Keeps s0 x2 := by
      subst x2
      exact State.updMgmt_keeps (by assumption)
    clear_value x2
    exact State.answer_keeps (State.raise_keeps (by assumption))

theorem State.hostTestMode_keeps {s0 s1 : State} {a1 a2} (hs1 : Keeps s0 s1) :
    Keeps s0 (State.hostTestMode s1 a1 a2) := by
  unfold State.hostTestMode
  refine keeps_ite ?_ ?_
  · refine State.answer_keeps ?_
    assumption
  · refine State.answer_keeps ?_
    refine State.testMode_keeps ?_
    assumption

theorem State.hostRunA_keeps {s0 s1 : State} {a1} (hs1 : Keeps s0 s1) :
    Keeps s0 (State.hostRunA s1 a1) := by
  delta State.hostRunA
  cases a1.cmd <;> first
    | exact hs1
    | exact State.answer_keeps hs1
    | exact State.hostCxp_keeps hs1
    | exact State.hostMapLoad_keeps hs1
    | exact State.hostMemRead_keeps hs1
    | exact State.hostEcho_keeps hs1
    | exact State.hostReset_keeps hs1
    | exact State.hostLog_keeps hs1
    | exact State.hostImage_keeps hs1
    | exact State.hostRegRead_keeps hs1
    | exact State.hostRegWrite_keeps hs1
    | exact State.hostRegModify_keeps hs1
    | exact State.hostPlanLoad_keeps hs1
    | exact State.hostPlanAdmit_keeps hs1
    | exact State.hostPlanStart_keeps hs1
    | exact State.hostPlanStop_keeps hs1
    | exact State.hostPlanUnload_keeps hs1
    | exact State.hostSubmit_keeps hs1
    | exact State.hostWait_keeps hs1
    | exact State.hostModelLoad_keeps hs1
    | exact State.hostModelUnload_keeps hs1
    | exact State.hostPageMap_keeps hs1
    | exact State.hostPageUnmap_keeps hs1
    | exact State.hostMemWrite_keeps hs1
    | exact State.hostMemWriteBulk_keeps hs1

theorem State.hostRun_keeps {s0 s1 : State} {a1} (hs1 : Keeps s0 s1) :
    Keeps s0 (State.hostRun s1 a1) := by
  unfold State.hostRun
  split
  · exact State.hostCtxOpen_keeps (by assumption)
  · exact State.hostCtxClose_keeps (by assumption)
  · exact State.hostSeqOpen_keeps (by assumption)
  · exact State.hostSeqFork_keeps (by assumption)
  · exact State.hostSeqClose_keeps (by assumption)
  · exact State.hostCourseProg_keeps (by assumption)
  · exact State.hostServoProg_keeps (by assumption)
  · exact State.bulkIn_keeps (by assumption)
  · exact State.hostMotionPost_keeps (by assumption)
  · exact State.hostShadowLoad_keeps (by assumption)
  · exact State.hostShadowLoad_keeps (by assumption)
  · exact State.hostPublish_keeps (by assumption)
  · exact State.hostTimeRead_keeps (by assumption)
  · exact State.hostRuleLoad_keeps (by assumption)
  · exact State.hostSafety_keeps (by assumption)
  · exact State.hostBudget_keeps (by assumption)
  · exact State.hostPower_keeps (by assumption)
  · exact State.hostAccount_keeps (by assumption)
  · exact State.hostAttest_keeps (by assumption)
  · exact State.hostKeyInfo_keeps (by assumption)
  · exact State.hostKeySet_keeps (by assumption)
  · exact State.hostKeyRevoke_keeps (by assumption)
  · exact State.hostTestMode_keeps (by assumption)
  · exact State.hostRunA_keeps (by assumption)

theorem State.modelDone_keeps {s0 s1 : State} {a1 a2 a3 a4 a5} (hs1 : Keeps s0 s1) :
    KeepsL s0 (State.modelDone s1 a1 a2 a3 a4 a5) := by
  unfold State.modelDone
  extract_lets -merge -underBinder +onlyGivenNames x1
  clear_value x1
  refine keepsL_ite ?_ ?_
  · exact keepsL_mk (by assumption)
  · refine keepsL_ite ?_ ?_
    · exact keepsL_mk (by assumption)
    · split
      · exact keepsL_mk (by assumption)
      · extract_lets -merge -underBinder +onlyGivenNames x2 x3
        clear_value x2 x3
        refine keepsL_ite ?_ ?_
        · exact keepsL_mk (by assumption)
        · refine keepsL_ite ?_ ?_
          · exact keepsL_mk (by assumption)
          · exact keepsL_mk (State.modelPlace_keeps (by assumption))

theorem State.bulkDone_keeps {s0 s1 : State} {a1 a2} (hs1 : Keeps s0 s1) :
    KeepsL s0 (State.bulkDone s1 a1 a2) := by
  unfold State.bulkDone
  refine keepsL_ite ?_ ?_
  · exact keepsL_mk (by assumption)
  · split
    · extract_lets -merge -underBinder +onlyGivenNames x1
      clear_value x1
      refine keepsL_ite ?_ ?_
      · exact keepsL_mk (by assumption)
      · refine keepsL_ite ?_ ?_
        · exact keepsL_mk (by assumption)
        · exact State.planPlace_keeps (by assumption)
    · refine keepsL_ite ?_ ?_
      · exact keepsL_mk (State.sigFail_keeps (by assumption))
      · exact State.modelDone_keeps (by assumption)
    · exact keepsL_mk (State.stBytes_keeps (by assumption))
    · refine keepsL_ite ?_ ?_
      · exact keepsL_mk (by assumption)
      · exact keepsL_mk (State.stBytes_keeps (by assumption))
    · extract_lets -merge -underBinder +onlyGivenNames x2
      clear_value x2
      refine keepsL_ite ?_ ?_
      · exact keepsL_mk (by assumption)
      · exact keepsL_mk (State.memStore_keeps (by assumption))
    · refine keepsL_ite ?_ ?_
      · exact keepsL_mk (by assumption)
      · split
        · exact keepsL_mk (by assumption)
        · exact keepsL_mk (State.qpPlace_keeps (by assumption))
    · refine keepsL_ite ?_ ?_
      · exact keepsL_mk (State.raise_keeps (by assumption))
      · exact keepsL_mk (State.sdfPlace_keeps (by assumption))
    · refine keepsL_ite ?_ ?_
      · exact keepsL_mk (State.raise_keeps (by assumption))
      · exact keepsL_mk (State.occPlace_keeps (by assumption))
    · exact keepsL_mk (by assumption)

theorem State.bulkFinish_keeps {s0 s1 : State} {a1} (hs1 : Keeps s0 s1) :
    Keeps s0 (State.bulkFinish s1 a1) := by
  unfold State.bulkFinish
  extract_lets -merge -underBinder +onlyGivenNames x1 x2
  clear_value x1 x2
  refine keeps_ite ?_ ?_
  · exact State.answer_keeps (by assumption)
  · split
    · refine KeepsL.of_eq (a := s0) (by assumption) ?_ (fun _ => ?_)
      · exact State.bulkDone_keeps (by assumption)
      refine keeps_ite ?_ ?_
      · exact State.answer_keeps (by assumption)
      · refine keeps_ite ?_ ?_
        · exact State.answer_keeps (by assumption)
        · exact State.answer_keeps (by assumption)

end Sys2Proof.Machine
end

