-- ==== Sys2Proof/Laws/KeepsSdio.lean ====
section
/-! SUPPORT. What the operations of Machine/Sdio.lean keep (Laws/Keeps.lean). -/
namespace Sys2Proof.Machine
set_option Elab.async false

theorem State.malformed_keeps {s0 s1 : State} {a1 a2} (hs1 : Keeps s0 s1) :
    Keeps s0 (State.malformed s1 a1 a2) := by
  unfold State.malformed
  refine keeps_ite ?_ ?_
  · exact State.reply_keeps (State.violCount_keeps (by assumption))
  · exact State.answer_keeps (by assumption)

theorem State.takePkt_keeps {s0 s1 : State} {a1} (hs1 : Keeps s0 s1) :
    Keeps s0 (State.takePkt s1 a1) := by
  unfold State.takePkt
  extract_lets -merge -underBinder +onlyGivenNames x1
  have hx1 : Keeps s0 x1 := by
    subst x1
    exact State.updSdio_keeps (State.bump_keeps (by assumption))
  clear_value x1
  refine keeps_ite ?_ ?_
  · exact State.malformed_keeps (by assumption)
  · refine keeps_ite ?_ ?_
    · exact State.reply_keeps (by assumption)
    · extract_lets -merge -underBinder +onlyGivenNames x2
      clear_value x2
      refine keeps_ite ?_ ?_
      · exact State.answer_keeps (by assumption)
      · exact State.hostRun_keeps (by assumption)

theorem State.pumpN_keeps {s0 : State} {a0} {s2 : State} (hs2 : Keeps s0 s2) :
    Keeps s0 (State.pumpN a0 s2) := by
  unfold State.pumpN
  split
  · assumption
  · split
    · assumption
    · refine keeps_ite ?_ ?_
      · exact State.pumpN_keeps (State.takePkt_keeps (State.updSdio_keeps (by assumption)))
      · assumption

theorem State.pump_keeps {s0 s1 : State} (hs1 : Keeps s0 s1) :
    Keeps s0 (State.pump s1) := by
  unfold State.pump
  exact State.pumpN_keeps (by assumption)

theorem State.submit_keeps {s0 s1 : State} {a1} (hs1 : Keeps s0 s1) :
    Keeps s0 (State.submit s1 a1) := by
  unfold State.submit
  refine keeps_ite ?_ ?_
  · assumption
  · refine keeps_ite ?_ ?_
    · exact State.malformed_keeps (by assumption)
    · exact State.pump_keeps (State.updSdio_keeps (by assumption))

theorem State.readReply_keeps {s0 s1 : State} {a1} (hs1 : Keeps s0 s1) :
    Keeps s0 (State.readReply s1 a1) := by
  unfold State.readReply
  extract_lets -merge -underBinder +onlyGivenNames x1
  clear_value x1
  split
  · extract_lets -merge -underBinder +onlyGivenNames x2
    have hx2 : Keeps s0 x2 := by
      subst x2
      exact State.updSdio_keeps (by assumption)
    clear_value x2
    extract_lets -merge -underBinder +onlyGivenNames x3
    have hx3 : Keeps s0 x3 := by
      subst x3
      refine keeps_ite ?_ ?_
      · exact State.updMgmt_keeps (by assumption)
      · assumption
    clear_value x3
    exact State.pump_keeps (by assumption)

theorem State.waitEnd_keeps {s0 s1 : State} {a1} (hs1 : Keeps s0 s1) (ha1 : ∀ y0 y1, Keeps s0 y0 → Keeps s0 (a1 y0 y1)) :
    Keeps s0 (State.waitEnd s1 a1) := by
  unfold State.waitEnd
  split
  · assumption
  · refine ha1 _ _ ?_
    exact State.updSdio_keeps (by assumption)

theorem State.bulkWrite_keeps {s0 s1 : State} {a1} (hs1 : Keeps s0 s1) :
    Keeps s0 (State.bulkWrite s1 a1) := by
  unfold State.bulkWrite
  split
  · exact State.raise_keeps (State.bump_keeps (by assumption))
  · extract_lets -merge -underBinder +onlyGivenNames x1 x2
    clear_value x1 x2
    refine keeps_ite ?_ ?_
    · exact State.updSdio_keeps (by assumption)
    · exact State.bulkNext_keeps (State.updSdio_keeps (by assumption))

theorem State.bulkRead_keeps {s0 s1 : State} {a1} (hs1 : Keeps s0 s1) :
    Keeps s0 (State.bulkRead s1 a1) := by
  unfold State.bulkRead
  split
  · exact State.updSdio_keeps (by assumption)
  · extract_lets -merge -underBinder +onlyGivenNames x1 x2
    clear_value x1
    have hx2 : Keeps s0 x2 := by
      subst x2
      exact State.updSdio_keeps (by assumption)
    clear_value x2
    exact State.outNext_keeps (by assumption)

theorem execImageCheckDone_keeps {s0 : State} {a0} {s2 : State} (hs2 : Keeps s0 s2) :
    KeepsN s0 (execImageCheckDone a0 s2) := by
  unfold execImageCheckDone
  extract_lets -merge -underBinder +onlyGivenNames x1
  have hx1 : Keeps s0 x1 := by
    subst x1
    exact State.to_keeps (by assumption)
  clear_value x1
  split
  · exact keepsN_next (by assumption)
  · exact keepsN_next (State.pump_keeps (State.bulkFinish_keeps (State.updSdio_keeps (by assumption))))

theorem execBulkTimeout_keeps {s0 : State} {a0} {s2 : State} (hs2 : Keeps s0 s2) :
    KeepsN s0 (execBulkTimeout a0 s2) := by
  unfold execBulkTimeout
  extract_lets -merge -underBinder +onlyGivenNames x1
  have hx1 : Keeps s0 x1 := by
    subst x1
    exact State.to_keeps (by assumption)
  clear_value x1
  split
  · exact keepsN_next (by assumption)
  · refine guardNext_keeps ?_ (fun _ _ => ?_)
    · assumption
    · refine State.pump_keeps ?_
      exact State.bulkNext_keeps (State.answer_keeps (State.raise_keeps (State.updSdio_keeps (by assumption))))

theorem execBulkOutTimeout_keeps {s0 : State} {a0} {s2 : State} (hs2 : Keeps s0 s2) :
    KeepsN s0 (execBulkOutTimeout a0 s2) := by
  unfold execBulkOutTimeout
  extract_lets -merge -underBinder +onlyGivenNames x1
  have hx1 : Keeps s0 x1 := by
    subst x1
    exact State.to_keeps (by assumption)
  clear_value x1
  split
  · exact keepsN_next (by assumption)
  · refine guardNext_keeps ?_ (fun _ _ => ?_)
    · assumption
    · exact State.outNext_keeps (State.updSdio_keeps (by assumption))

theorem State.fn0Write_keeps {s0 s1 : State} {a1 a2} (hs1 : Keeps s0 s1) :
    Keeps s0 (State.fn0Write s1 a1 a2) := by
  unfold State.fn0Write
  exact State.updSdio_keeps (by assumption)

theorem State.fnWrite_keeps {s0 s1 : State} {a1 a2 a3} (hs1 : Keeps s0 s1) :
    Keeps s0 (State.fnWrite s1 a1 a2 a3) := by
  unfold State.fnWrite
  exact State.updSdio_keeps (by assumption)

theorem State.fn0Read_keeps {s0 s1 : State} {a1 a2 a3} (hs1 : Keeps s0 s1) :
    KeepsR s0 (State.fn0Read s1 a1 a2 a3) := by
  unfold State.fn0Read
  split
  · exact keepsR_mk (by assumption)
  · split
    · refine KeepsR.of_eq (a := s0) (by assumption) ?_ (fun _ => ?_)
      · split
        · exact keepsR_mk (by assumption)
        · exact keepsR_mk (State.drew_keeps (by assumption))
      split
      · refine KeepsR.of_eq (a := s0) (by assumption) ?_ (fun _ => ?_)
        · exact State.fn0Read_keeps (by assumption)
        exact keepsR_mk (by assumption)

theorem State.fnRead_keeps {s0 s1 : State} {a1 a2 a3 a4} (hs1 : Keeps s0 s1) :
    Keeps s0 (State.fnRead s1 a1 a2 a3 a4) := by
  unfold State.fnRead
  refine keeps_ite ?_ ?_
  · split
    · refine KeepsR.of_eq (a := s0) (by assumption) ?_ (fun _ => ?_)
      · exact State.fn0Read_keeps (by assumption)
      exact State.updSdio_keeps (by assumption)
  · refine keeps_ite ?_ ?_
    · exact State.readReply_keeps (by assumption)
    · refine keeps_ite ?_ ?_
      · exact State.bulkRead_keeps (by assumption)
      · exact State.updSdio_keeps (by assumption)

theorem State.fnWrites_keeps {s0 s1 : State} {a1 a2 a3 a4} (hs1 : Keeps s0 s1) :
    Keeps s0 (State.fnWrites s1 a1 a2 a3 a4) := by
  unfold State.fnWrites
  refine keeps_ite ?_ ?_
  · exact State.submit_keeps (by assumption)
  · refine keeps_ite ?_ ?_
    · exact State.bulkWrite_keeps (by assumption)
    · refine State.each_keeps ?_ (fun _ _ _ => ?_)
      · assumption
      · split
        · extract_lets -merge -underBinder +onlyGivenNames x1
          clear_value x1
          refine keeps_ite ?_ ?_
          · exact State.fn0Write_keeps (by assumption)
          · exact State.fnWrite_keeps (by assumption)

theorem execCmd0_keeps {s0 : State} {a0} {s2 : State} (hs2 : Keeps s0 s2) :
    KeepsN s0 (execCmd0 a0 s2) := by
  unfold execCmd0
  extract_lets -merge -underBinder +onlyGivenNames x1
  have hx1 : Keeps s0 x1 := by
    subst x1
    exact State.to_keeps (by assumption)
  clear_value x1
  refine guardNext_keeps ?_ (fun _ _ => ?_)
  · assumption
  · exact State.updSdio_keeps (by assumption)

theorem execCmd5_keeps {s0 : State} {a0 a1} {s3 : State} (hs3 : Keeps s0 s3) :
    KeepsN s0 (execCmd5 a0 a1 s3) := by
  unfold execCmd5
  extract_lets -merge -underBinder +onlyGivenNames x1
  have hx1 : Keeps s0 x1 := by
    subst x1
    exact State.to_keeps (by assumption)
  clear_value x1
  refine guardNext_keeps ?_ (fun _ _ => ?_)
  · assumption
  · exact State.updSdio_keeps (by assumption)

theorem execCmd3_keeps {s0 : State} {a0} {s2 : State} (hs2 : Keeps s0 s2) :
    KeepsN s0 (execCmd3 a0 s2) := by
  unfold execCmd3
  extract_lets -merge -underBinder +onlyGivenNames x1
  have hx1 : Keeps s0 x1 := by
    subst x1
    exact State.to_keeps (by assumption)
  clear_value x1
  refine guardNext_keeps ?_ (fun _ _ => ?_)
  · assumption
  · exact State.updSdio_keeps (State.drew_keeps (by assumption))

theorem execCmd7_keeps {s0 : State} {a0 a1} {s3 : State} (hs3 : Keeps s0 s3) :
    KeepsN s0 (execCmd7 a0 a1 s3) := by
  unfold execCmd7
  extract_lets -merge -underBinder +onlyGivenNames x1
  have hx1 : Keeps s0 x1 := by
    subst x1
    exact State.to_keeps (by assumption)
  clear_value x1
  refine guardNext_keeps ?_ (fun _ _ => ?_)
  · assumption
  · exact State.updSdio_keeps (by assumption)

theorem execCmd11_keeps {s0 : State} {a0} {s2 : State} (hs2 : Keeps s0 s2) :
    KeepsN s0 (execCmd11 a0 s2) := by
  unfold execCmd11
  extract_lets -merge -underBinder +onlyGivenNames x1
  have hx1 : Keeps s0 x1 := by
    subst x1
    exact State.to_keeps (by assumption)
  clear_value x1
  refine guardNext_keeps ?_ (fun _ _ => ?_)
  · assumption
  · exact State.updSdio_keeps (by assumption)

theorem execCmd15_keeps {s0 : State} {a0} {s2 : State} (hs2 : Keeps s0 s2) :
    KeepsN s0 (execCmd15 a0 s2) := by
  unfold execCmd15
  exact keepsN_next (State.updSdio_keeps (State.to_keeps (by assumption)))

theorem execCmd19_keeps {s0 : State} {a0} {s2 : State} (hs2 : Keeps s0 s2) :
    KeepsN s0 (execCmd19 a0 s2) := by
  unfold execCmd19
  extract_lets -merge -underBinder +onlyGivenNames x1
  have hx1 : Keeps s0 x1 := by
    subst x1
    exact State.to_keeps (by assumption)
  clear_value x1
  refine guardNext_keeps ?_ (fun _ _ => ?_)
  · assumption
  · exact State.updSdio_keeps (by assumption)

theorem execCmd52_keeps {s0 : State} {a0 a1 a2 a3 a4 a5} {s7 : State} (hs7 : Keeps s0 s7) :
    KeepsN s0 (execCmd52 a0 a1 a2 a3 a4 a5 s7) := by
  unfold execCmd52
  extract_lets -merge -underBinder +onlyGivenNames x1
  have hx1 : Keeps s0 x1 := by
    subst x1
    exact State.to_keeps (by assumption)
  clear_value x1
  refine guardNext_keeps ?_ (fun _ _ => ?_)
  · assumption
  · extract_lets -merge -underBinder +onlyGivenNames x2
    have hx2 : Keeps s0 x2 := by
      subst x2
      refine keeps_ite ?_ ?_
      · assumption
      · refine keeps_ite ?_ ?_
        · exact State.fn0Write_keeps (by assumption)
        · exact State.fnWrite_keeps (by assumption)
    clear_value x2
    refine keeps_ite ?_ ?_
    · exact State.updSdio_keeps (by assumption)
    · exact State.fnRead_keeps (by assumption)

theorem execCmd53_keeps {s0 : State} {a0 a1 a2 a3 a4 a5 a6 a7} {s9 : State} (hs9 : Keeps s0 s9) :
    KeepsN s0 (execCmd53 a0 a1 a2 a3 a4 a5 a6 a7 s9) := by
  unfold execCmd53
  extract_lets -merge -underBinder +onlyGivenNames x1
  have hx1 : Keeps s0 x1 := by
    subst x1
    exact State.to_keeps (by assumption)
  clear_value x1
  refine guardNext_keeps ?_ (fun _ _ => ?_)
  · assumption
  · refine keeps_ite ?_ ?_
    · exact State.fnWrites_keeps (by assumption)
    · exact State.fnRead_keeps (by assumption)

theorem execLateCamera_keeps {s0 : State} {a0 a1 a2} {s4 : State} (hs4 : Keeps s0 s4) :
    KeepsN s0 (execLateCamera a0 a1 a2 s4) := by
  unfold execLateCamera
  extract_lets -merge -underBinder +onlyGivenNames x1
  have hx1 : Keeps s0 x1 := by
    subst x1
    exact State.to_keeps (by assumption)
  clear_value x1
  extract_lets -merge -underBinder +onlyGivenNames x2 x3 x4
  clear_value x2 x3
  have hx4 : Keeps s0 x4 := by
    subst x4
    refine State.each_keeps ?_ (fun _ _ _ => ?_)
    · assumption
    · exact State.updGrp_keeps (by assumption)
  clear_value x4
  exact keepsN_next (State.answerDeferred_keeps (by assumption))

theorem execReadmitDone_keeps {s0 : State} {a0} {s2 : State} (hs2 : Keeps s0 s2) :
    KeepsN s0 (execReadmitDone a0 s2) := by
  unfold execReadmitDone
  extract_lets -merge -underBinder +onlyGivenNames x1
  have hx1 : Keeps s0 x1 := by
    subst x1
    exact State.to_keeps (by assumption)
  clear_value x1
  split
  · exact keepsN_next (by assumption)
  · refine guardNext_keeps ?_ (fun _ _ => ?_)
    · assumption
    · extract_lets -merge -underBinder +onlyGivenNames x2
      have hx2 : Keeps s0 x2 := by
        subst x2
        exact State.readmitDone_keeps (by assumption)
      clear_value x2
      refine keeps_ite ?_ ?_
      · assumption
      · extract_lets -merge -underBinder +onlyGivenNames x3
        clear_value x3
        refine State.pump_keeps ?_
        split
        · split
          · refine State.waitEnd_keeps ?_ (fun _ _ _ => ?_)
            · assumption
            · refine keeps_ite ?_ ?_
              · exact State.budgetReply_keeps (by assumption)
              · exact State.budgetStart_keeps (by assumption)
          · assumption
        · assumption

theorem execStartupComplete_keeps {s0 : State} {a0 a1} {s3 : State} (hs3 : Keeps s0 s3) :
    KeepsN s0 (execStartupComplete a0 a1 s3) := by
  unfold execStartupComplete
  extract_lets -merge -underBinder +onlyGivenNames x1
  have hx1 : Keeps s0 x1 := by
    subst x1
    exact State.to_keeps (by assumption)
  clear_value x1
  refine guardNext_keeps ?_ (fun _ _ => ?_)
  · assumption
  · extract_lets -merge -underBinder +onlyGivenNames x2
    have hx2 : Keeps s0 x2 := by
      subst x2
      exact State.stepsEnd_keeps (State.stepsRun_keeps (by assumption))
    clear_value x2
    extract_lets -merge -underBinder +onlyGivenNames x3
    have hx3 : Keeps s0 x3 := by
      subst x3
      refine keeps_ite ?_ ?_
      · refine State.waitEnd_keeps ?_ (fun _ _ _ => ?_)
        · exact State.updMgmt_keeps (by assumption)
        · exact State.answer_keeps (by assumption)
      · assumption
    clear_value x3
    exact State.pump_keeps (by assumption)

theorem execPowerStateReached_keeps {s0 : State} {a0} {s2 : State} (hs2 : Keeps s0 s2) :
    KeepsN s0 (execPowerStateReached a0 s2) := by
  unfold execPowerStateReached
  extract_lets -merge -underBinder +onlyGivenNames x1
  have hx1 : Keeps s0 x1 := by
    subst x1
    exact State.to_keeps (by assumption)
  clear_value x1
  refine guardNext_keeps ?_ (fun _ _ => ?_)
  · assumption
  · refine State.pump_keeps ?_
    refine State.waitEnd_keeps ?_ (fun _ _ _ => ?_)
    · exact State.powerReached_keeps (by assumption)
    · exact State.answer_keeps (by assumption)

theorem execDeviceResetEffect_keeps {s0 : State} {a0 a1} {s3 : State} (hs3 : Keeps s0 s3) :
    KeepsN s0 (execDeviceResetEffect a0 a1 s3) := by
  unfold execDeviceResetEffect
  extract_lets -merge -underBinder +onlyGivenNames x1
  have hx1 : Keeps s0 x1 := by
    subst x1
    exact State.to_keeps (by assumption)
  clear_value x1
  refine guardNext_keeps ?_ (fun _ _ => ?_)
  · assumption
  · exact State.boot_keeps (State.inReset_keeps (by assumption))

theorem State.host_keeps {s0 s1 : State} {a1 a2} (hs1 : Keeps s0 s1) :
    KeepsN s0 (State.host s1 a1 a2) := by
  unfold State.host
  exact keepsN_next (State.submit_keeps (State.to_keeps (by assumption)))

theorem execEcho_keeps {s0 : State} {a0 a1} {s3 : State} (hs3 : Keeps s0 s3) :
    KeepsN s0 (execEcho a0 a1 s3) := by
  unfold execEcho
  exact State.host_keeps (by assumption)

theorem execDeviceInfo_keeps {s0 : State} {a0} {s2 : State} (hs2 : Keeps s0 s2) :
    KeepsN s0 (execDeviceInfo a0 s2) := by
  unfold execDeviceInfo
  exact State.host_keeps (by assumption)

theorem execDeviceReset_keeps {s0 : State} {a0 a1} {s3 : State} (hs3 : Keeps s0 s3) :
    KeepsN s0 (execDeviceReset a0 a1 s3) := by
  unfold execDeviceReset
  exact State.host_keeps (by assumption)

theorem execCxpRegRead_keeps {s0 : State} {a0 a1 a2 a3} {s5 : State} (hs5 : Keeps s0 s5) :
    KeepsN s0 (execCxpRegRead a0 a1 a2 a3 s5) := by
  unfold execCxpRegRead
  exact State.host_keeps (by assumption)

theorem execCxpRegWrite_keeps {s0 : State} {a0 a1 a2 a3} {s5 : State} (hs5 : Keeps s0 s5) :
    KeepsN s0 (execCxpRegWrite a0 a1 a2 a3 s5) := by
  unfold execCxpRegWrite
  exact State.host_keeps (by assumption)

theorem execLogPull_keeps {s0 : State} {a0 a1 a2} {s4 : State} (hs4 : Keeps s0 s4) :
    KeepsN s0 (execLogPull a0 a1 a2 s4) := by
  unfold execLogPull
  exact State.host_keeps (by assumption)

theorem execImagePull_keeps {s0 : State} {a0 a1 a2 a3 a4} {s6 : State} (hs6 : Keeps s0 s6) :
    KeepsN s0 (execImagePull a0 a1 a2 a3 a4 s6) := by
  unfold execImagePull
  exact State.host_keeps (by assumption)

theorem execRegRead_keeps {s0 : State} {a0 a1 a2} {s4 : State} (hs4 : Keeps s0 s4) :
    KeepsN s0 (execRegRead a0 a1 a2 s4) := by
  unfold execRegRead
  exact State.host_keeps (by assumption)

theorem execRegWrite_keeps {s0 : State} {a0 a1} {s3 : State} (hs3 : Keeps s0 s3) :
    KeepsN s0 (execRegWrite a0 a1 s3) := by
  unfold execRegWrite
  exact State.host_keeps (by assumption)

theorem execRegModify_keeps {s0 : State} {a0 a1 a2 a3} {s5 : State} (hs5 : Keeps s0 s5) :
    KeepsN s0 (execRegModify a0 a1 a2 a3 s5) := by
  unfold execRegModify
  exact State.host_keeps (by assumption)

theorem execPlanLoad_keeps {s0 : State} {a0 a1 a2} {s4 : State} (hs4 : Keeps s0 s4) :
    KeepsN s0 (execPlanLoad a0 a1 a2 s4) := by
  unfold execPlanLoad
  exact State.host_keeps (by assumption)

theorem execPlanAdmit_keeps {s0 : State} {a0} {s2 : State} (hs2 : Keeps s0 s2) :
    KeepsN s0 (execPlanAdmit a0 s2) := by
  unfold execPlanAdmit
  exact State.host_keeps (by assumption)

theorem execPlanStart_keeps {s0 : State} {a0} {s2 : State} (hs2 : Keeps s0 s2) :
    KeepsN s0 (execPlanStart a0 s2) := by
  unfold execPlanStart
  exact State.host_keeps (by assumption)

theorem execPlanStop_keeps {s0 : State} {a0} {s2 : State} (hs2 : Keeps s0 s2) :
    KeepsN s0 (execPlanStop a0 s2) := by
  unfold execPlanStop
  exact State.host_keeps (by assumption)

theorem execPlanUnload_keeps {s0 : State} {a0} {s2 : State} (hs2 : Keeps s0 s2) :
    KeepsN s0 (execPlanUnload a0 s2) := by
  unfold execPlanUnload
  exact State.host_keeps (by assumption)

theorem execGraphSubmit_keeps {s0 : State} {a0 a1 a2} {s4 : State} (hs4 : Keeps s0 s4) :
    KeepsN s0 (execGraphSubmit a0 a1 a2 s4) := by
  unfold execGraphSubmit
  exact State.host_keeps (by assumption)

theorem execGraphWait_keeps {s0 : State} {a0 a1} {s3 : State} (hs3 : Keeps s0 s3) :
    KeepsN s0 (execGraphWait a0 a1 s3) := by
  unfold execGraphWait
  exact State.host_keeps (by assumption)

theorem execModelLoad_keeps {s0 : State} {a0 a1 a2 a3 a4 a5} {s7 : State} (hs7 : Keeps s0 s7) :
    KeepsN s0 (execModelLoad a0 a1 a2 a3 a4 a5 s7) := by
  unfold execModelLoad
  exact State.host_keeps (by assumption)

theorem execModelUnload_keeps {s0 : State} {a0 a1} {s3 : State} (hs3 : Keeps s0 s3) :
    KeepsN s0 (execModelUnload a0 a1 s3) := by
  unfold execModelUnload
  exact State.host_keeps (by assumption)

theorem execFlatLoad_keeps {s0 : State} {a0 a1 a2 a3} {s5 : State} (hs5 : Keeps s0 s5) :
    KeepsN s0 (execFlatLoad a0 a1 a2 a3 s5) := by
  unfold execFlatLoad
  exact State.host_keeps (by assumption)

theorem execProjLoad_keeps {s0 : State} {a0 a1 a2} {s4 : State} (hs4 : Keeps s0 s4) :
    KeepsN s0 (execProjLoad a0 a1 a2 s4) := by
  unfold execProjLoad
  exact State.host_keeps (by assumption)

theorem execPageMap_keeps {s0 : State} {a0 a1 a2 a3} {s5 : State} (hs5 : Keeps s0 s5) :
    KeepsN s0 (execPageMap a0 a1 a2 a3 s5) := by
  unfold execPageMap
  exact State.host_keeps (by assumption)

theorem execPageUnmap_keeps {s0 : State} {a0 a1 a2} {s4 : State} (hs4 : Keeps s0 s4) :
    KeepsN s0 (execPageUnmap a0 a1 a2 s4) := by
  unfold execPageUnmap
  exact State.host_keeps (by assumption)

theorem execMemWrite_keeps {s0 : State} {a0 a1 a2 a3} {s5 : State} (hs5 : Keeps s0 s5) :
    KeepsN s0 (execMemWrite a0 a1 a2 a3 s5) := by
  unfold execMemWrite
  exact State.host_keeps (by assumption)

theorem execMemRead_keeps {s0 : State} {a0 a1 a2 a3 a4} {s6 : State} (hs6 : Keeps s0 s6) :
    KeepsN s0 (execMemRead a0 a1 a2 a3 a4 s6) := by
  unfold execMemRead
  exact State.host_keeps (by assumption)

theorem execCtxOpen_keeps {s0 : State} {a0 a1 a2 a3 a4 a5 a6} {s8 : State} (hs8 : Keeps s0 s8) :
    KeepsN s0 (execCtxOpen a0 a1 a2 a3 a4 a5 a6 s8) := by
  unfold execCtxOpen
  exact State.host_keeps (by assumption)

theorem execCtxClose_keeps {s0 : State} {a0 a1} {s3 : State} (hs3 : Keeps s0 s3) :
    KeepsN s0 (execCtxClose a0 a1 s3) := by
  unfold execCtxClose
  exact State.host_keeps (by assumption)

theorem execSeqOpen_keeps {s0 : State} {a0 a1 a2 a3 a4 a5 a6 a7 a8 a9} {s11 : State} (hs11 : Keeps s0 s11) :
    KeepsN s0 (execSeqOpen a0 a1 a2 a3 a4 a5 a6 a7 a8 a9 s11) := by
  unfold execSeqOpen
  exact State.host_keeps (by assumption)

theorem execSeqFork_keeps {s0 : State} {a0 a1 a2 a3} {s5 : State} (hs5 : Keeps s0 s5) :
    KeepsN s0 (execSeqFork a0 a1 a2 a3 s5) := by
  unfold execSeqFork
  exact State.host_keeps (by assumption)

theorem execSeqClose_keeps {s0 : State} {a0 a1} {s3 : State} (hs3 : Keeps s0 s3) :
    KeepsN s0 (execSeqClose a0 a1 s3) := by
  unfold execSeqClose
  exact State.host_keeps (by assumption)

theorem execCourseProgLoad_keeps {s0 : State} {a0 a1 a2} {s4 : State} (hs4 : Keeps s0 s4) :
    KeepsN s0 (execCourseProgLoad a0 a1 a2 s4) := by
  unfold execCourseProgLoad
  exact State.host_keeps (by assumption)

theorem execServoProgLoad_keeps {s0 : State} {a0 a1 a2 a3 a4} {s6 : State} (hs6 : Keeps s0 s6) :
    KeepsN s0 (execServoProgLoad a0 a1 a2 a3 a4 s6) := by
  unfold execServoProgLoad
  exact State.host_keeps (by assumption)

theorem execQpLoad_keeps {s0 : State} {a0 a1 a2} {s4 : State} (hs4 : Keeps s0 s4) :
    KeepsN s0 (execQpLoad a0 a1 a2 s4) := by
  unfold execQpLoad
  exact State.host_keeps (by assumption)

theorem execMotionPost_keeps {s0 : State} {a0 a1} {s3 : State} (hs3 : Keeps s0 s3) :
    KeepsN s0 (execMotionPost a0 a1 s3) := by
  unfold execMotionPost
  exact State.host_keeps (by assumption)

theorem execSdfLoad_keeps {s0 : State} {a0 a1 a2} {s4 : State} (hs4 : Keeps s0 s4) :
    KeepsN s0 (execSdfLoad a0 a1 a2 s4) := by
  unfold execSdfLoad
  exact State.host_keeps (by assumption)

theorem execOccLoad_keeps {s0 : State} {a0 a1 a2 a3 a4} {s6 : State} (hs6 : Keeps s0 s6) :
    KeepsN s0 (execOccLoad a0 a1 a2 a3 a4 s6) := by
  unfold execOccLoad
  exact State.host_keeps (by assumption)

theorem execMapPublish_keeps {s0 : State} {a0} {s2 : State} (hs2 : Keeps s0 s2) :
    KeepsN s0 (execMapPublish a0 s2) := by
  unfold execMapPublish
  exact State.host_keeps (by assumption)

theorem execTimeRead_keeps {s0 : State} {a0} {s2 : State} (hs2 : Keeps s0 s2) :
    KeepsN s0 (execTimeRead a0 s2) := by
  unfold execTimeRead
  exact State.host_keeps (by assumption)

theorem execRuleLoad_keeps {s0 : State} {a0 a1 a2} {s4 : State} (hs4 : Keeps s0 s4) :
    KeepsN s0 (execRuleLoad a0 a1 a2 s4) := by
  unfold execRuleLoad
  exact State.host_keeps (by assumption)

theorem execSafetyStatus_keeps {s0 : State} {a0} {s2 : State} (hs2 : Keeps s0 s2) :
    KeepsN s0 (execSafetyStatus a0 s2) := by
  unfold execSafetyStatus
  exact State.host_keeps (by assumption)

theorem execBudgetSet_keeps {s0 : State} {a0 a1 a2} {s4 : State} (hs4 : Keeps s0 s4) :
    KeepsN s0 (execBudgetSet a0 a1 a2 s4) := by
  unfold execBudgetSet
  exact State.host_keeps (by assumption)

theorem execPowerState_keeps {s0 : State} {a0 a1} {s3 : State} (hs3 : Keeps s0 s3) :
    KeepsN s0 (execPowerState a0 a1 s3) := by
  unfold execPowerState
  exact State.host_keeps (by assumption)

theorem execAccountRead_keeps {s0 : State} {a0 a1 a2} {s4 : State} (hs4 : Keeps s0 s4) :
    KeepsN s0 (execAccountRead a0 a1 a2 s4) := by
  unfold execAccountRead
  exact State.host_keeps (by assumption)

theorem execAttest_keeps {s0 : State} {a0 a1} {s3 : State} (hs3 : Keeps s0 s3) :
    KeepsN s0 (execAttest a0 a1 s3) := by
  unfold execAttest
  exact State.host_keeps (by assumption)

theorem execKeyInfo_keeps {s0 : State} {a0} {s2 : State} (hs2 : Keeps s0 s2) :
    KeepsN s0 (execKeyInfo a0 s2) := by
  unfold execKeyInfo
  exact State.host_keeps (by assumption)

theorem execOwnerKeySet_keeps {s0 : State} {a0 a1 a2 a3} {s5 : State} (hs5 : Keeps s0 s5) :
    KeepsN s0 (execOwnerKeySet a0 a1 a2 a3 s5) := by
  unfold execOwnerKeySet
  exact State.host_keeps (by assumption)

theorem execOwnerKeyRevoke_keeps {s0 : State} {a0 a1 a2} {s4 : State} (hs4 : Keeps s0 s4) :
    KeepsN s0 (execOwnerKeyRevoke a0 a1 a2 s4) := by
  unfold execOwnerKeyRevoke
  exact State.host_keeps (by assumption)

theorem execTestMode_keeps {s0 : State} {a0 a1 a2} {s4 : State} (hs4 : Keeps s0 s4) :
    KeepsN s0 (execTestMode a0 a1 a2 s4) := by
  unfold execTestMode
  exact State.host_keeps (by assumption)

theorem State.regCmd_keeps {s0 s1 : State} {a1 a2 a3} (hs1 : Keeps s0 s1) :
    KeepsN s0 (State.regCmd s1 a1 a2 a3) := by
  unfold State.regCmd
  exact State.host_keeps (by assumption)

theorem execSnapshotRead_keeps {s0 : State} {a0 a1} {s3 : State} (hs3 : Keeps s0 s3) :
    KeepsN s0 (execSnapshotRead a0 a1 s3) := by
  unfold execSnapshotRead
  exact State.host_keeps (by assumption)

theorem execSnapshotConsume_keeps {s0 : State} {a0 a1} {s3 : State} (hs3 : Keeps s0 s3) :
    KeepsN s0 (execSnapshotConsume a0 a1 s3) := by
  unfold execSnapshotConsume
  exact State.host_keeps (by assumption)

theorem execCapturePop_keeps {s0 : State} {a0 a1} {s3 : State} (hs3 : Keeps s0 s3) :
    KeepsN s0 (execCapturePop a0 a1 s3) := by
  unfold execCapturePop
  exact State.host_keeps (by assumption)

theorem execAcqStart_keeps {s0 : State} {a0} {s2 : State} (hs2 : Keeps s0 s2) :
    KeepsN s0 (execAcqStart a0 s2) := by
  unfold execAcqStart
  exact State.host_keeps (by assumption)

theorem execAcqStop_keeps {s0 : State} {a0} {s2 : State} (hs2 : Keeps s0 s2) :
    KeepsN s0 (execAcqStop a0 s2) := by
  unfold execAcqStop
  exact State.host_keeps (by assumption)

theorem execServoEnSet_keeps {s0 : State} {a0} {s2 : State} (hs2 : Keeps s0 s2) :
    KeepsN s0 (execServoEnSet a0 s2) := by
  unfold execServoEnSet
  exact State.host_keeps (by assumption)

theorem execServoEnClear_keeps {s0 : State} {a0} {s2 : State} (hs2 : Keeps s0 s2) :
    KeepsN s0 (execServoEnClear a0 s2) := by
  unfold execServoEnClear
  exact State.host_keeps (by assumption)

theorem execClearFaultA_keeps {s0 : State} {a0} {s2 : State} (hs2 : Keeps s0 s2) :
    KeepsN s0 (execClearFaultA a0 s2) := by
  unfold execClearFaultA
  exact State.regCmd_keeps (by assumption)

theorem execClearFaultB_keeps {s0 : State} {a0} {s2 : State} (hs2 : Keeps s0 s2) :
    KeepsN s0 (execClearFaultB a0 s2) := by
  unfold execClearFaultB
  exact State.regCmd_keeps (by assumption)

theorem execResync_keeps {s0 : State} {a0} {s2 : State} (hs2 : Keeps s0 s2) :
    KeepsN s0 (execResync a0 s2) := by
  unfold execResync
  exact State.regCmd_keeps (by assumption)

theorem execLoadSp_keeps {s0 : State} {a0} {s2 : State} (hs2 : Keeps s0 s2) :
    KeepsN s0 (execLoadSp a0 s2) := by
  unfold execLoadSp
  exact State.regCmd_keeps (by assumption)

theorem execRelocate_keeps {s0 : State} {a0} {s2 : State} (hs2 : Keeps s0 s2) :
    KeepsN s0 (execRelocate a0 s2) := by
  unfold execRelocate
  exact State.regCmd_keeps (by assumption)

theorem execCoilMark_keeps {s0 : State} {a0} {s2 : State} (hs2 : Keeps s0 s2) :
    KeepsN s0 (execCoilMark a0 s2) := by
  unfold execCoilMark
  exact State.regCmd_keeps (by assumption)

theorem execRetireCore_keeps {s0 : State} {a0 a1 a2} {s4 : State} (hs4 : Keeps s0 s4) :
    KeepsN s0 (execRetireCore a0 a1 a2 s4) := by
  unfold execRetireCore
  exact State.regCmd_keeps (by assumption)

theorem execFabricClearCounters_keeps {s0 : State} {a0 a1} {s3 : State} (hs3 : Keeps s0 s3) :
    KeepsN s0 (execFabricClearCounters a0 a1 s3) := by
  unfold execFabricClearCounters
  exact State.regCmd_keeps (by assumption)

theorem execResetCtx_keeps {s0 : State} {a0 a1 a2} {s4 : State} (hs4 : Keeps s0 s4) :
    KeepsN s0 (execResetCtx a0 a1 a2 s4) := by
  unfold execResetCtx
  exact State.regCmd_keeps (by assumption)

theorem execPin_keeps {s0 : State} {a0 a1 a2} {s4 : State} (hs4 : Keeps s0 s4) :
    KeepsN s0 (execPin a0 a1 a2 s4) := by
  unfold execPin
  exact State.regCmd_keeps (by assumption)

theorem execUnpin_keeps {s0 : State} {a0 a1 a2} {s4 : State} (hs4 : Keeps s0 s4) :
    KeepsN s0 (execUnpin a0 a1 a2 s4) := by
  unfold execUnpin
  exact State.regCmd_keeps (by assumption)

theorem execEvict_keeps {s0 : State} {a0 a1 a2} {s4 : State} (hs4 : Keeps s0 s4) :
    KeepsN s0 (execEvict a0 a1 a2 s4) := by
  unfold execEvict
  exact State.regCmd_keeps (by assumption)

theorem execStreamClearCounters_keeps {s0 : State} {a0 a1} {s3 : State} (hs3 : Keeps s0 s3) :
    KeepsN s0 (execStreamClearCounters a0 a1 s3) := by
  unfold execStreamClearCounters
  exact State.regCmd_keeps (by assumption)

theorem execStreamCtxSel_keeps {s0 : State} {a0 a1 a2} {s4 : State} (hs4 : Keeps s0 s4) :
    KeepsN s0 (execStreamCtxSel a0 a1 a2 s4) := by
  unfold execStreamCtxSel
  exact State.regCmd_keeps (by assumption)

theorem execResetSeq_keeps {s0 : State} {a0 a1 a2} {s4 : State} (hs4 : Keeps s0 s4) :
    KeepsN s0 (execResetSeq a0 a1 a2 s4) := by
  unfold execResetSeq
  exact State.regCmd_keeps (by assumption)

theorem execKvClose_keeps {s0 : State} {a0 a1 a2} {s4 : State} (hs4 : Keeps s0 s4) :
    KeepsN s0 (execKvClose a0 a1 a2 s4) := by
  unfold execKvClose
  exact State.regCmd_keeps (by assumption)

theorem execCommit_keeps {s0 : State} {a0} {s2 : State} (hs2 : Keeps s0 s2) :
    KeepsN s0 (execCommit a0 s2) := by
  unfold execCommit
  exact State.regCmd_keeps (by assumption)

theorem execRollback_keeps {s0 : State} {a0} {s2 : State} (hs2 : Keeps s0 s2) :
    KeepsN s0 (execRollback a0 s2) := by
  unfold execRollback
  exact State.regCmd_keeps (by assumption)

theorem execResetMasters_keeps {s0 : State} {a0} {s2 : State} (hs2 : Keeps s0 s2) :
    KeepsN s0 (execResetMasters a0 s2) := by
  unfold execResetMasters
  exact State.regCmd_keeps (by assumption)

theorem execKvClearCounters_keeps {s0 : State} {a0 a1} {s3 : State} (hs3 : Keeps s0 s3) :
    KeepsN s0 (execKvClearCounters a0 a1 s3) := by
  unfold execKvClearCounters
  exact State.regCmd_keeps (by assumption)

theorem execKvSeqSel_keeps {s0 : State} {a0 a1 a2} {s4 : State} (hs4 : Keeps s0 s4) :
    KeepsN s0 (execKvSeqSel a0 a1 a2 s4) := by
  unfold execKvSeqSel
  exact State.regCmd_keeps (by assumption)

theorem execKvPageSel_keeps {s0 : State} {a0 a1 a2} {s4 : State} (hs4 : Keeps s0 s4) :
    KeepsN s0 (execKvPageSel a0 a1 a2 s4) := by
  unfold execKvPageSel
  exact State.regCmd_keeps (by assumption)

theorem execExcludeQch_keeps {s0 : State} {a0 a1} {s3 : State} (hs3 : Keeps s0 s3) :
    KeepsN s0 (execExcludeQch a0 a1 s3) := by
  unfold execExcludeQch
  exact State.regCmd_keeps (by assumption)

theorem execMemClearCounters_keeps {s0 : State} {a0} {s2 : State} (hs2 : Keeps s0 s2) :
    KeepsN s0 (execMemClearCounters a0 s2) := by
  unfold execMemClearCounters
  exact State.regCmd_keeps (by assumption)

theorem execMemPageSel_keeps {s0 : State} {a0 a1} {s3 : State} (hs3 : Keeps s0 s3) :
    KeepsN s0 (execMemPageSel a0 a1 s3) := by
  unfold execMemPageSel
  exact State.regCmd_keeps (by assumption)

theorem execReadmit_keeps {s0 : State} {a0} {s2 : State} (hs2 : Keeps s0 s2) :
    KeepsN s0 (execReadmit a0 s2) := by
  unfold execReadmit
  exact State.regCmd_keeps (by assumption)

theorem execBondClearCounters_keeps {s0 : State} {a0} {s2 : State} (hs2 : Keeps s0 s2) :
    KeepsN s0 (execBondClearCounters a0 s2) := by
  unfold execBondClearCounters
  exact State.regCmd_keeps (by assumption)

theorem execBondAcctSel_keeps {s0 : State} {a0 a1} {s3 : State} (hs3 : Keeps s0 s3) :
    KeepsN s0 (execBondAcctSel a0 a1 s3) := by
  unfold execBondAcctSel
  exact State.regCmd_keeps (by assumption)

theorem execTierBaseWrite_keeps {s0 : State} {a0 a1 a2} {s4 : State} (hs4 : Keeps s0 s4) :
    KeepsN s0 (execTierBaseWrite a0 a1 a2 s4) := by
  unfold execTierBaseWrite
  exact State.regCmd_keeps (by assumption)

theorem execServoEnable_keeps {s0 : State} {a0 a1} {s3 : State} (hs3 : Keeps s0 s3) :
    KeepsN s0 (execServoEnable a0 a1 s3) := by
  unfold execServoEnable
  exact State.regCmd_keeps (by assumption)

theorem execServoDisable_keeps {s0 : State} {a0 a1} {s3 : State} (hs3 : Keeps s0 s3) :
    KeepsN s0 (execServoDisable a0 a1 s3) := by
  unfold execServoDisable
  exact State.regCmd_keeps (by assumption)

theorem execAxisClearFault_keeps {s0 : State} {a0 a1} {s3 : State} (hs3 : Keeps s0 s3) :
    KeepsN s0 (execAxisClearFault a0 a1 s3) := by
  unfold execAxisClearFault
  exact State.regCmd_keeps (by assumption)

theorem execHome_keeps {s0 : State} {a0 a1} {s3 : State} (hs3 : Keeps s0 s3) :
    KeepsN s0 (execHome a0 a1 s3) := by
  unfold execHome
  exact State.regCmd_keeps (by assumption)

theorem execResetState_keeps {s0 : State} {a0 a1} {s3 : State} (hs3 : Keeps s0 s3) :
    KeepsN s0 (execResetState a0 a1 s3) := by
  unfold execResetState
  exact State.regCmd_keeps (by assumption)

theorem execServoResync_keeps {s0 : State} {a0 a1} {s3 : State} (hs3 : Keeps s0 s3) :
    KeepsN s0 (execServoResync a0 a1 s3) := by
  unfold execServoResync
  exact State.regCmd_keeps (by assumption)

theorem execClearGroup_keeps {s0 : State} {a0 a1} {s3 : State} (hs3 : Keeps s0 s3) :
    KeepsN s0 (execClearGroup a0 a1 s3) := by
  unfold execClearGroup
  exact State.regCmd_keeps (by assumption)

theorem execServoClearCounters_keeps {s0 : State} {a0} {s2 : State} (hs2 : Keeps s0 s2) :
    KeepsN s0 (execServoClearCounters a0 s2) := by
  unfold execServoClearCounters
  exact State.regCmd_keeps (by assumption)

theorem execQpEnable_keeps {s0 : State} {a0 a1} {s3 : State} (hs3 : Keeps s0 s3) :
    KeepsN s0 (execQpEnable a0 a1 s3) := by
  unfold execQpEnable
  exact State.regCmd_keeps (by assumption)

theorem execQpDisable_keeps {s0 : State} {a0 a1} {s3 : State} (hs3 : Keeps s0 s3) :
    KeepsN s0 (execQpDisable a0 a1 s3) := by
  unfold execQpDisable
  exact State.regCmd_keeps (by assumption)

theorem execQpRestart_keeps {s0 : State} {a0 a1} {s3 : State} (hs3 : Keeps s0 s3) :
    KeepsN s0 (execQpRestart a0 a1 s3) := by
  unfold execQpRestart
  exact State.regCmd_keeps (by assumption)

theorem execQpClearCounters_keeps {s0 : State} {a0 a1} {s3 : State} (hs3 : Keeps s0 s3) :
    KeepsN s0 (execQpClearCounters a0 a1 s3) := by
  unfold execQpClearCounters
  exact State.regCmd_keeps (by assumption)

theorem execPublish_keeps {s0 : State} {a0} {s2 : State} (hs2 : Keeps s0 s2) :
    KeepsN s0 (execPublish a0 s2) := by
  unfold execPublish
  exact State.regCmd_keeps (by assumption)

theorem execFlush_keeps {s0 : State} {a0 a1} {s3 : State} (hs3 : Keeps s0 s3) :
    KeepsN s0 (execFlush a0 a1 s3) := by
  unfold execFlush
  exact State.regCmd_keeps (by assumption)

theorem execMotionClearCounters_keeps {s0 : State} {a0} {s2 : State} (hs2 : Keeps s0 s2) :
    KeepsN s0 (execMotionClearCounters a0 s2) := by
  unfold execMotionClearCounters
  exact State.regCmd_keeps (by assumption)

theorem execSafeState_keeps {s0 : State} {a0} {s2 : State} (hs2 : Keeps s0 s2) :
    KeepsN s0 (execSafeState a0 s2) := by
  unfold execSafeState
  exact State.regCmd_keeps (by assumption)

theorem execSafeClear_keeps {s0 : State} {a0} {s2 : State} (hs2 : Keeps s0 s2) :
    KeepsN s0 (execSafeClear a0 s2) := by
  unfold execSafeClear
  exact State.regCmd_keeps (by assumption)

theorem execReleaseTarget_keeps {s0 : State} {a0 a1} {s3 : State} (hs3 : Keeps s0 s3) :
    KeepsN s0 (execReleaseTarget a0 a1 s3) := by
  unfold execReleaseTarget
  exact State.regCmd_keeps (by assumption)

theorem execRecover_keeps {s0 : State} {a0} {s2 : State} (hs2 : Keeps s0 s2) :
    KeepsN s0 (execRecover a0 s2) := by
  unfold execRecover
  exact State.regCmd_keeps (by assumption)

theorem execPlumbClearCounters_keeps {s0 : State} {a0} {s2 : State} (hs2 : Keeps s0 s2) :
    KeepsN s0 (execPlumbClearCounters a0 s2) := by
  unfold execPlumbClearCounters
  exact State.regCmd_keeps (by assumption)

theorem execSetLocalDom0_keeps {s0 : State} {a0} {s2 : State} (hs2 : Keeps s0 s2) :
    KeepsN s0 (execSetLocalDom0 a0 s2) := by
  unfold execSetLocalDom0
  exact State.regCmd_keeps (by assumption)

theorem execSetLocalDom1_keeps {s0 : State} {a0} {s2 : State} (hs2 : Keeps s0 s2) :
    KeepsN s0 (execSetLocalDom1 a0 s2) := by
  unfold execSetLocalDom1
  exact State.regCmd_keeps (by assumption)

theorem execTimeClearCounters_keeps {s0 : State} {a0} {s2 : State} (hs2 : Keeps s0 s2) :
    KeepsN s0 (execTimeClearCounters a0 s2) := by
  unfold execTimeClearCounters
  exact State.regCmd_keeps (by assumption)

theorem execNetClearCounters_keeps {s0 : State} {a0} {s2 : State} (hs2 : Keeps s0 s2) :
    KeepsN s0 (execNetClearCounters a0 s2) := by
  unfold execNetClearCounters
  exact State.regCmd_keeps (by assumption)

theorem execPowerClearCounters_keeps {s0 : State} {a0} {s2 : State} (hs2 : Keeps s0 s2) :
    KeepsN s0 (execPowerClearCounters a0 s2) := by
  unfold execPowerClearCounters
  exact State.regCmd_keeps (by assumption)

theorem execRecalibrate_keeps {s0 : State} {a0} {s2 : State} (hs2 : Keeps s0 s2) :
    KeepsN s0 (execRecalibrate a0 s2) := by
  unfold execRecalibrate
  exact State.regCmd_keeps (by assumption)

theorem execSnapshot_keeps {s0 : State} {a0} {s2 : State} (hs2 : Keeps s0 s2) :
    KeepsN s0 (execSnapshot a0 s2) := by
  unfold execSnapshot
  exact State.regCmd_keeps (by assumption)

theorem execDisarmAll_keeps {s0 : State} {a0} {s2 : State} (hs2 : Keeps s0 s2) :
    KeepsN s0 (execDisarmAll a0 s2) := by
  unfold execDisarmAll
  exact State.regCmd_keeps (by assumption)

theorem execTestClearCounters_keeps {s0 : State} {a0} {s2 : State} (hs2 : Keeps s0 s2) :
    KeepsN s0 (execTestClearCounters a0 s2) := by
  unfold execTestClearCounters
  exact State.regCmd_keeps (by assumption)

theorem execInjCap_keeps {s0 : State} {a0 a1} {s3 : State} (hs3 : Keeps s0 s3) :
    KeepsN s0 (execInjCap a0 a1 s3) := by
  unfold execInjCap
  exact State.regCmd_keeps (by assumption)

theorem execInjMem_keeps {s0 : State} {a0 a1} {s3 : State} (hs3 : Keeps s0 s3) :
    KeepsN s0 (execInjMem a0 a1 s3) := by
  unfold execInjMem
  exact State.regCmd_keeps (by assumption)

theorem execInjPlumb_keeps {s0 : State} {a0 a1} {s3 : State} (hs3 : Keeps s0 s3) :
    KeepsN s0 (execInjPlumb a0 a1 s3) := by
  unfold execInjPlumb
  exact State.regCmd_keeps (by assumption)

theorem execInjWd_keeps {s0 : State} {a0 a1} {s3 : State} (hs3 : Keeps s0 s3) :
    KeepsN s0 (execInjWd a0 a1 s3) := by
  unfold execInjWd
  exact State.regCmd_keeps (by assumption)

theorem execInjCourse_keeps {s0 : State} {a0 a1} {s3 : State} (hs3 : Keeps s0 s3) :
    KeepsN s0 (execInjCourse a0 a1 s3) := by
  unfold execInjCourse
  exact State.regCmd_keeps (by assumption)

theorem execMgmtClearCounters_keeps {s0 : State} {a0} {s2 : State} (hs2 : Keeps s0 s2) :
    KeepsN s0 (execMgmtClearCounters a0 s2) := by
  unfold execMgmtClearCounters
  exact State.regCmd_keeps (by assumption)

theorem execClearLogs_keeps {s0 : State} {a0} {s2 : State} (hs2 : Keeps s0 s2) :
    KeepsN s0 (execClearLogs a0 s2) := by
  unfold execClearLogs
  exact State.regCmd_keeps (by assumption)

theorem execRequireOwnerSig_keeps {s0 : State} {a0} {s2 : State} (hs2 : Keeps s0 s2) :
    KeepsN s0 (execRequireOwnerSig a0 s2) := by
  unfold execRequireOwnerSig
  exact State.regCmd_keeps (by assumption)

theorem execProgEnWrite_keeps {s0 : State} {a0 a1 a2} {s4 : State} (hs4 : Keeps s0 s4) :
    KeepsN s0 (execProgEnWrite a0 a1 a2 s4) := by
  unfold execProgEnWrite
  exact State.regCmd_keeps (by assumption)

end Sys2Proof.Machine
end

