-- ==== Sys2Proof/Laws/KeepsIdle.lean ====
section
/-! SUPPORT. What the operations of Machine/Idle.lean keep (Laws/Keeps.lean). -/
namespace Sys2Proof.Machine
set_option Elab.async false

theorem idleTick_keeps {s0 s1 : State} (hs1 : Keeps s0 s1) :
    Keeps s0 (idleTick s1) := by
  unfold idleTick
  refine State.pump_keeps ?_
  refine State.each_keeps ?_ (fun _ _ _ => ?_)
  · exact State.to_keeps (by assumption)
  · exact State.progTick_keeps (by assumption)

end Sys2Proof.Machine
end

