-- ==== Sys2Proof/Laws/KeepsLineGen.lean ====
section
/-! SUPPORT. What the operations of Machine/LineGen.lean keep (Laws/Keeps.lean). -/
namespace Sys2Proof.Machine
set_option Elab.async false

theorem State.lgIssue_keeps {s0 s1 : State} {a1 a2 a3} (hs1 : Keeps s0 s1) :
    Keeps s0 (State.lgIssue s1 a1 a2 a3) := by
  unfold State.lgIssue
  extract_lets -merge -underBinder +onlyGivenNames x1 x2
  clear_value x1
  have hx2 : Keeps s0 x2 := by
    subst x2
    exact State.updLg_keeps (by assumption)
  clear_value x2
  extract_lets -merge -underBinder +onlyGivenNames x3 x4 x5
  clear_value x3 x4
  have hx5 : Keeps s0 x5 := by
    subst x5
    refine State.each_keeps ?_ (fun _ _ _ => ?_)
    · assumption
    · refine State.stampIssue_keeps ?_
      refine State.drew_keeps ?_
      refine State.updAcq_keeps ?_ ?_
      · assumption
      · first | exact fun _ h => h | (intro _ h; split <;> exact h) | (intro _ h; simp_all [Acq.Sized, lmod])
  clear_value x5
  refine State.each_keeps ?_ (fun _ _ _ => ?_)
  · assumption
  · refine keeps_ite ?_ ?_
    · exact State.updCrs_keeps (by assumption)
    · refine keeps_ite ?_ ?_
      · exact State.updCrs_keeps (by assumption)
      · exact State.strobe_keeps (by assumption)

theorem State.lgPass_keeps {s0 s1 : State} {a1 a2 a3} (hs1 : Keeps s0 s1) :
    Keeps s0 (State.lgPass s1 a1 a2 a3) := by
  unfold State.lgPass
  refine State.each_keeps ?_ (fun _ _ _ => ?_)
  · assumption
  · exact State.updCrs_keeps (by assumption)

theorem State.lgSkip_keeps {s0 s1 : State} {a1 a2} (hs1 : Keeps s0 s1) :
    Keeps s0 (State.lgSkip s1 a1 a2) := by
  unfold State.lgSkip
  extract_lets -merge -underBinder +onlyGivenNames x1
  have hx1 : Keeps s0 x1 := by
    subst x1
    exact State.bumpLo_keeps (State.updLg_keeps (by assumption))
  clear_value x1
  extract_lets -merge -underBinder +onlyGivenNames x2
  clear_value x2
  exact State.coverAll_keeps (State.raise_keeps (by assumption))

theorem execLineTrigger_keeps {s0 : State} {a0 a1 a2 a3} {s5 : State} (hs5 : Keeps s0 s5) :
    KeepsN s0 (execLineTrigger a0 a1 a2 a3 s5) := by
  unfold execLineTrigger
  extract_lets -merge -underBinder +onlyGivenNames x1
  have hx1 : Keeps s0 x1 := by
    subst x1
    exact State.to_keeps (by assumption)
  clear_value x1
  extract_lets -merge -underBinder +onlyGivenNames x2 x3
  clear_value x2 x3
  refine guardNext_keeps ?_ (fun _ _ => ?_)
  · assumption
  · extract_lets -merge -underBinder +onlyGivenNames x4
    have hx4 : Keeps s0 x4 := by
      subst x4
      exact State.updLg_keeps (by assumption)
    clear_value x4
    extract_lets -merge -underBinder +onlyGivenNames x5
    have hx5 : ∀ y0, Keeps s0 y0 → Keeps s0 (x5 y0) := by
      subst x5
      intro y0 _
      exact State.updLg_keeps (by assumption)
    clear_value x5
    refine keeps_ite ?_ ?_
    · exact State.lgPass_keeps (by assumption)
    · refine keeps_ite ?_ ?_
      · refine keeps_ite ?_ ?_
        · exact State.lgIssue_keeps (by assumption)
        · refine hx5 _ ?_
          assumption
      · extract_lets -merge -underBinder +onlyGivenNames x6 x7
        clear_value x6
        have hx7 : Keeps s0 x7 := by
          subst x7
          refine keeps_ite ?_ ?_
          · assumption
          · exact State.lgSkip_keeps (by assumption)
        clear_value x7
        refine keeps_ite ?_ ?_
        · exact State.lgPass_keeps (by assumption)
        · refine hx5 _ ?_
          assumption

theorem execLateTrigger_keeps {s0 : State} {a0 a1} {s3 : State} (hs3 : Keeps s0 s3) :
    KeepsN s0 (execLateTrigger a0 a1 s3) := by
  unfold execLateTrigger
  extract_lets -merge -underBinder +onlyGivenNames x1
  have hx1 : Keeps s0 x1 := by
    subst x1
    exact State.to_keeps (by assumption)
  clear_value x1
  split
  · exact keepsN_next (by assumption)
  · refine guardNext_keeps ?_ (fun _ _ => ?_)
    · assumption
    · exact State.lgIssue_keeps (State.raise_keeps (State.bumpHi_keeps (State.updLg_keeps (by assumption))))

end Sys2Proof.Machine
end

