-- ==== Sys2Proof/Laws/KeepsExec.lean ====
section
/-! SUPPORT. Every command completes, and keeps what Laws/Keeps.lean says. -/
namespace Sys2Proof.Machine
set_option Elab.async false

/-- A command completes; it leaves the queue as it is, time does not go back, and the registers and the stores keep their
canonical forms. -/
theorem exec_keeps (c : Instr) (s : State) : KeepsN s (exec c s) := by
  cases c with
  | snapshotRead => exact execSnapshotRead_keeps (Keeps.refl s)
  | snapshotConsume => exact execSnapshotConsume_keeps (Keeps.refl s)
  | encoderEdge => exact execEncoderEdge_keeps (Keeps.refl s)
  | los => exact execLos_keeps (Keeps.refl s)
  | positionLost => exact execPositionLost_keeps (Keeps.refl s)
  | clearFaultA => exact execClearFaultA_keeps (Keeps.refl s)
  | clearFaultB => exact execClearFaultB_keeps (Keeps.refl s)
  | resync => exact execResync_keeps (Keeps.refl s)
  | loadSp => exact execLoadSp_keeps (Keeps.refl s)
  | relocate => exact execRelocate_keeps (Keeps.refl s)
  | coilMark => exact execCoilMark_keeps (Keeps.refl s)
  | speedEstimate => exact execSpeedEstimate_keeps (Keeps.refl s)
  | zeroSpeed => exact execZeroSpeed_keeps (Keeps.refl s)
  | lineTrigger => exact execLineTrigger_keeps (Keeps.refl s)
  | lateTrigger => exact execLateTrigger_keeps (Keeps.refl s)
  | strobeStart => exact execStrobeStart_keeps (Keeps.refl s)
  | strobeEnd => exact execStrobeEnd_keeps (Keeps.refl s)
  | pulseEnd => exact execPulseEnd_keeps (Keeps.refl s)
  | progEnWrite => exact execProgEnWrite_keeps (Keeps.refl s)
  | halt => exact execHalt_keeps (Keeps.refl s)
  | anchor => exact execAnchor_keeps (Keeps.refl s)
  | waitSpGe => exact execWaitSpGe_keeps (Keeps.refl s)
  | waitSpLe => exact execWaitSpLe_keeps (Keeps.refl s)
  | waitDsp => exact execWaitDsp_keeps (Keeps.refl s)
  | waitT => exact execWaitT_keeps (Keeps.refl s)
  | waitLine => exact execWaitLine_keeps (Keeps.refl s)
  | waitSig => exact execWaitSig_keeps (Keeps.refl s)
  | signal => exact execSignal_keeps (Keeps.refl s)
  | outSet => exact execOutSet_keeps (Keeps.refl s)
  | outClr => exact execOutClr_keeps (Keeps.refl s)
  | outPulse => exact execOutPulse_keeps (Keeps.refl s)
  | lgOn => exact execLgOn_keeps (Keeps.refl s)
  | lgOff => exact execLgOff_keeps (Keeps.refl s)
  | mark => exact execMark_keeps (Keeps.refl s)
  | setc => exact execSetc_keeps (Keeps.refl s)
  | djnz => exact execDjnz_keeps (Keeps.refl s)
  | jump => exact execJump_keeps (Keeps.refl s)
  | ifSlow => exact execIfSlow_keeps (Keeps.refl s)
  | ifRev => exact execIfRev_keeps (Keeps.refl s)
  | progFault => exact execProgFault_keeps (Keeps.refl s)
  | waitCompletes => exact execWaitCompletes_keeps (Keeps.refl s)
  | progRunaway => exact execProgRunaway_keeps (Keeps.refl s)
  | acqStart => exact execAcqStart_keeps (Keeps.refl s)
  | acqStop => exact execAcqStop_keeps (Keeps.refl s)
  | groupUp => exact execGroupUp_keeps (Keeps.refl s)
  | groupFailed => exact execGroupFailed_keeps (Keeps.refl s)
  | pcxFault => exact execPcxFault_keeps (Keeps.refl s)
  | groupDown => exact execGroupDown_keeps (Keeps.refl s)
  | rediscovery => exact execRediscovery_keeps (Keeps.refl s)
  | cxpPacket => exact execCxpPacket_keeps (Keeps.refl s)
  | stampTimeout => exact execStampTimeout_keeps (Keeps.refl s)
  | sensorRecord => exact execSensorRecord_keeps (Keeps.refl s)
  | taskDispatch => exact execTaskDispatch_keeps (Keeps.refl s)
  | taskComplete => exact execTaskComplete_keeps (Keeps.refl s)
  | blockDrain => exact execBlockDrain_keeps (Keeps.refl s)
  | droopEvent => exact execDroopEvent_keeps (Keeps.refl s)
  | coreHung => exact execCoreHung_keeps (Keeps.refl s)
  | spareInDone => exact execSpareInDone_keeps (Keeps.refl s)
  | readmitDone => exact execReadmitDone_keeps (Keeps.refl s)
  | retireCore => exact execRetireCore_keeps (Keeps.refl s)
  | fabricClearCounters => exact execFabricClearCounters_keeps (Keeps.refl s)
  | freqChanged => exact execFreqChanged_keeps (Keeps.refl s)
  | conv => exact execConv_keeps (Keeps.refl s)
  | dwconv => exact execDwconv_keeps (Keeps.refl s)
  | pool => exact execPool_keeps (Keeps.refl s)
  | cropResize => exact execCropResize_keeps (Keeps.refl s)
  | boxDecode => exact execBoxDecode_keeps (Keeps.refl s)
  | suppress => exact execSuppress_keeps (Keeps.refl s)
  | copy => exact execCopy_keeps (Keeps.refl s)
  | blockedToPlanar => exact execBlockedToPlanar_keeps (Keeps.refl s)
  | phaseSplit => exact execPhaseSplit_keeps (Keeps.refl s)
  | planarToBlocked => exact execPlanarToBlocked_keeps (Keeps.refl s)
  | rowGather => exact execRowGather_keeps (Keeps.refl s)
  | fill => exact execFill_keeps (Keeps.refl s)
  | chainDeadline => exact execChainDeadline_keeps (Keeps.refl s)
  | swapIn => exact execSwapIn_keeps (Keeps.refl s)
  | swapInDone => exact execSwapInDone_keeps (Keeps.refl s)
  | evictionDone => exact execEvictionDone_keeps (Keeps.refl s)
  | lscan => exact execLscan_keeps (Keeps.refl s)
  | gcell => exact execGcell_keeps (Keeps.refl s)
  | biscan => exact execBiscan_keeps (Keeps.refl s)
  | bind => exact execBind_keeps (Keeps.refl s)
  | resetCtx => exact execResetCtx_keeps (Keeps.refl s)
  | pin => exact execPin_keeps (Keeps.refl s)
  | unpin => exact execUnpin_keeps (Keeps.refl s)
  | evict => exact execEvict_keeps (Keeps.refl s)
  | streamClearCounters => exact execStreamClearCounters_keeps (Keeps.refl s)
  | streamCtxSel => exact execStreamCtxSel_keeps (Keeps.refl s)
  | kvAppend => exact execKvAppend_keeps (Keeps.refl s)
  | attn => exact execAttn_keeps (Keeps.refl s)
  | attnMerge => exact execAttnMerge_keeps (Keeps.refl s)
  | attnBwd => exact execAttnBwd_keeps (Keeps.refl s)
  | adaptAccum => exact execAdaptAccum_keeps (Keeps.refl s)
  | adaptStep => exact execAdaptStep_keeps (Keeps.refl s)
  | resetSeq => exact execResetSeq_keeps (Keeps.refl s)
  | kvClose => exact execKvClose_keeps (Keeps.refl s)
  | commit => exact execCommit_keeps (Keeps.refl s)
  | rollback => exact execRollback_keeps (Keeps.refl s)
  | resetMasters => exact execResetMasters_keeps (Keeps.refl s)
  | kvClearCounters => exact execKvClearCounters_keeps (Keeps.refl s)
  | kvSeqSel => exact execKvSeqSel_keeps (Keeps.refl s)
  | kvPageSel => exact execKvPageSel_keeps (Keeps.refl s)
  | adaptCommit => exact execAdaptCommit_keeps (Keeps.refl s)
  | tierBaseWrite => exact execTierBaseWrite_keeps (Keeps.refl s)
  | lintelScrub => exact execLintelScrub_keeps (Keeps.refl s)
  | quarryScrub => exact execQuarryScrub_keeps (Keeps.refl s)
  | quarryBurst => exact execQuarryBurst_keeps (Keeps.refl s)
  | burstTimeout => exact execBurstTimeout_keeps (Keeps.refl s)
  | lostMarkingDone => exact execLostMarkingDone_keeps (Keeps.refl s)
  | migrationPeriod => exact execMigrationPeriod_keeps (Keeps.refl s)
  | migrationMoveDone => exact execMigrationMoveDone_keeps (Keeps.refl s)
  | excludeQch => exact execExcludeQch_keeps (Keeps.refl s)
  | memClearCounters => exact execMemClearCounters_keeps (Keeps.refl s)
  | memPageSel => exact execMemPageSel_keeps (Keeps.refl s)
  | frameBoundary => exact execFrameBoundary_keeps (Keeps.refl s)
  | taskEnd => exact execTaskEnd_keeps (Keeps.refl s)
  | oper => exact execOper_keeps (Keeps.refl s)
  | chain => exact execChain_keeps (Keeps.refl s)
  | waitc => exact execWaitc_keeps (Keeps.refl s)
  | barrier => exact execBarrier_keeps (Keeps.refl s)
  | setl => exact execSetl_keeps (Keeps.refl s)
  | taskDjnz => exact execTaskDjnz_keeps (Keeps.refl s)
  | taskJump => exact execTaskJump_keeps (Keeps.refl s)
  | progErr => exact execProgErr_keeps (Keeps.refl s)
  | taskInstrLimit => exact execTaskInstrLimit_keeps (Keeps.refl s)
  | vecFadd => exact execVecFadd_keeps (Keeps.refl s)
  | vecFmul => exact execVecFmul_keeps (Keeps.refl s)
  | vecFfma => exact execVecFfma_keeps (Keeps.refl s)
  | vecFmax => exact execVecFmax_keeps (Keeps.refl s)
  | vecFmin => exact execVecFmin_keeps (Keeps.refl s)
  | fcmp => exact execFcmp_keeps (Keeps.refl s)
  | iadd => exact execIadd_keeps (Keeps.refl s)
  | imul => exact execImul_keeps (Keeps.refl s)
  | ishl => exact execIshl_keeps (Keeps.refl s)
  | ishr => exact execIshr_keeps (Keeps.refl s)
  | iand => exact execIand_keeps (Keeps.refl s)
  | ior => exact execIor_keeps (Keeps.refl s)
  | ixor => exact execIxor_keeps (Keeps.refl s)
  | icmp => exact execIcmp_keeps (Keeps.refl s)
  | iclamp => exact execIclamp_keeps (Keeps.refl s)
  | rescale => exact execRescale_keeps (Keeps.refl s)
  | cvt => exact execCvt_keeps (Keeps.refl s)
  | exp => exact execExp_keeps (Keeps.refl s)
  | vecRecip => exact execVecRecip_keeps (Keeps.refl s)
  | vecRsqrt => exact execVecRsqrt_keeps (Keeps.refl s)
  | sigm => exact execSigm_keeps (Keeps.refl s)
  | vecTanh => exact execVecTanh_keeps (Keeps.refl s)
  | vld => exact execVld_keeps (Keeps.refl s)
  | vst => exact execVst_keeps (Keeps.refl s)
  | vbcast => exact execVbcast_keeps (Keeps.refl s)
  | vrmax => exact execVrmax_keeps (Keeps.refl s)
  | vrsum => exact execVrsum_keeps (Keeps.refl s)
  | ilane => exact execIlane_keeps (Keeps.refl s)
  | accountingPeriod => exact execAccountingPeriod_keeps (Keeps.refl s)
  | planStopDone => exact execPlanStopDone_keeps (Keeps.refl s)
  | readmit => exact execReadmit_keeps (Keeps.refl s)
  | bondClearCounters => exact execBondClearCounters_keeps (Keeps.refl s)
  | bondAcctSel => exact execBondAcctSel_keeps (Keeps.refl s)
  | baseTick => exact execBaseTick_keeps (Keeps.refl s)
  | servoEnSet => exact execServoEnSet_keeps (Keeps.refl s)
  | servoEnClear => exact execServoEnClear_keeps (Keeps.refl s)
  | axisEncoderEdge => exact execAxisEncoderEdge_keeps (Keeps.refl s)
  | ssiFrameDone => exact execSsiFrameDone_keeps (Keeps.refl s)
  | controlLawRun => exact execControlLawRun_keeps (Keeps.refl s)
  | servoEnd => exact execServoEnd_keeps (Keeps.refl s)
  | servoFadd => exact execServoFadd_keeps (Keeps.refl s)
  | servoFsub => exact execServoFsub_keeps (Keeps.refl s)
  | servoFmul => exact execServoFmul_keeps (Keeps.refl s)
  | servoFfma => exact execServoFfma_keeps (Keeps.refl s)
  | servoFmin => exact execServoFmin_keeps (Keeps.refl s)
  | servoFmax => exact execServoFmax_keeps (Keeps.refl s)
  | servoFabs => exact execServoFabs_keeps (Keeps.refl s)
  | fclamp => exact execFclamp_keeps (Keeps.refl s)
  | fsel => exact execFsel_keeps (Keeps.refl s)
  | ldk => exact execLdk_keeps (Keeps.refl s)
  | servoRecip => exact execServoRecip_keeps (Keeps.refl s)
  | servoRsqrt => exact execServoRsqrt_keeps (Keeps.refl s)
  | servoTanh => exact execServoTanh_keeps (Keeps.refl s)
  | servoEnable => exact execServoEnable_keeps (Keeps.refl s)
  | servoDisable => exact execServoDisable_keeps (Keeps.refl s)
  | axisClearFault => exact execAxisClearFault_keeps (Keeps.refl s)
  | home => exact execHome_keeps (Keeps.refl s)
  | resetState => exact execResetState_keeps (Keeps.refl s)
  | servoResync => exact execServoResync_keeps (Keeps.refl s)
  | clearGroup => exact execClearGroup_keeps (Keeps.refl s)
  | servoClearCounters => exact execServoClearCounters_keeps (Keeps.refl s)
  | qpCycleStart => exact execQpCycleStart_keeps (Keeps.refl s)
  | qpSolveDone => exact execQpSolveDone_keeps (Keeps.refl s)
  | qpDeadline => exact execQpDeadline_keeps (Keeps.refl s)
  | qpEnable => exact execQpEnable_keeps (Keeps.refl s)
  | qpDisable => exact execQpDisable_keeps (Keeps.refl s)
  | qpRestart => exact execQpRestart_keeps (Keeps.refl s)
  | qpClearCounters => exact execQpClearCounters_keeps (Keeps.refl s)
  | goto => exact execGoto_keeps (Keeps.refl s)
  | markReq => exact execMarkReq_keeps (Keeps.refl s)
  | cut => exact execCut_keeps (Keeps.refl s)
  | park => exact execPark_keeps (Keeps.refl s)
  | post => exact execPost_keeps (Keeps.refl s)
  | cancel => exact execCancel_keeps (Keeps.refl s)
  | reqBad => exact execReqBad_keeps (Keeps.refl s)
  | planBatch => exact execPlanBatch_keeps (Keeps.refl s)
  | batchEnd => exact execBatchEnd_keeps (Keeps.refl s)
  | recheckDone => exact execRecheckDone_keeps (Keeps.refl s)
  | planTimeout => exact execPlanTimeout_keeps (Keeps.refl s)
  | brakeDone => exact execBrakeDone_keeps (Keeps.refl s)
  | settleEnd => exact execSettleEnd_keeps (Keeps.refl s)
  | publish => exact execPublish_keeps (Keeps.refl s)
  | shadowCopyDone => exact execShadowCopyDone_keeps (Keeps.refl s)
  | flush => exact execFlush_keeps (Keeps.refl s)
  | motionClearCounters => exact execMotionClearCounters_keeps (Keeps.refl s)
  | plumbRound => exact execPlumbRound_keeps (Keeps.refl s)
  | ruleEnd => exact execRuleEnd_keeps (Keeps.refl s)
  | ruleIn => exact execRuleIn_keeps (Keeps.refl s)
  | ruleKi => exact execRuleKi_keeps (Keeps.refl s)
  | ruleKf => exact execRuleKf_keeps (Keeps.refl s)
  | ruleAdd => exact execRuleAdd_keeps (Keeps.refl s)
  | ruleSub => exact execRuleSub_keeps (Keeps.refl s)
  | ruleMul => exact execRuleMul_keeps (Keeps.refl s)
  | ruleFadd => exact execRuleFadd_keeps (Keeps.refl s)
  | ruleFsub => exact execRuleFsub_keeps (Keeps.refl s)
  | ruleFmul => exact execRuleFmul_keeps (Keeps.refl s)
  | ruleAbs => exact execRuleAbs_keeps (Keeps.refl s)
  | ruleFabs => exact execRuleFabs_keeps (Keeps.refl s)
  | ruleLt => exact execRuleLt_keeps (Keeps.refl s)
  | ruleLe => exact execRuleLe_keeps (Keeps.refl s)
  | ruleEq => exact execRuleEq_keeps (Keeps.refl s)
  | ruleFlt => exact execRuleFlt_keeps (Keeps.refl s)
  | ruleFle => exact execRuleFle_keeps (Keeps.refl s)
  | ruleAnd => exact execRuleAnd_keeps (Keeps.refl s)
  | ruleOr => exact execRuleOr_keeps (Keeps.refl s)
  | ruleNot => exact execRuleNot_keeps (Keeps.refl s)
  | ruleSkipz => exact execRuleSkipz_keeps (Keeps.refl s)
  | rulePermit => exact execRulePermit_keeps (Keeps.refl s)
  | ruleDeny => exact execRuleDeny_keeps (Keeps.refl s)
  | ruleSubst => exact execRuleSubst_keeps (Keeps.refl s)
  | ruleSafe => exact execRuleSafe_keeps (Keeps.refl s)
  | ruleNote => exact execRuleNote_keeps (Keeps.refl s)
  | watchClose => exact execWatchClose_keeps (Keeps.refl s)
  | diePairRestartDone => exact execDiePairRestartDone_keeps (Keeps.refl s)
  | keystoneCompare => exact execKeystoneCompare_keeps (Keeps.refl s)
  | selftestSlice => exact execSelftestSlice_keeps (Keeps.refl s)
  | selftestDone => exact execSelftestDone_keeps (Keeps.refl s)
  | latentFault => exact execLatentFault_keeps (Keeps.refl s)
  | safeReqPin => exact execSafeReqPin_keeps (Keeps.refl s)
  | restartDone => exact execRestartDone_keeps (Keeps.refl s)
  | restartFailed => exact execRestartFailed_keeps (Keeps.refl s)
  | safeState => exact execSafeState_keeps (Keeps.refl s)
  | safeClear => exact execSafeClear_keeps (Keeps.refl s)
  | releaseTarget => exact execReleaseTarget_keeps (Keeps.refl s)
  | recover => exact execRecover_keeps (Keeps.refl s)
  | recoverDone => exact execRecoverDone_keeps (Keeps.refl s)
  | plumbClearCounters => exact execPlumbClearCounters_keeps (Keeps.refl s)
  | sync => exact execSync_keeps (Keeps.refl s)
  | followUp => exact execFollowUp_keeps (Keeps.refl s)
  | announce => exact execAnnounce_keeps (Keeps.refl s)
  | delayResp => exact execDelayResp_keeps (Keeps.refl s)
  | pdelayReq => exact execPdelayReq_keeps (Keeps.refl s)
  | pdelayResp => exact execPdelayResp_keeps (Keeps.refl s)
  | pdelayRespFollowUp => exact execPdelayRespFollowUp_keeps (Keeps.refl s)
  | domainHoldover => exact execDomainHoldover_keeps (Keeps.refl s)
  | setLocalDom0 => exact execSetLocalDom0_keeps (Keeps.refl s)
  | setLocalDom1 => exact execSetLocalDom1_keeps (Keeps.refl s)
  | timeClearCounters => exact execTimeClearCounters_keeps (Keeps.refl s)
  | tpoPulse => exact execTpoPulse_keeps (Keeps.refl s)
  | tpoPulseEnd => exact execTpoPulseEnd_keeps (Keeps.refl s)
  | timeCapture => exact execTimeCapture_keeps (Keeps.refl s)
  | capturePop => exact execCapturePop_keeps (Keeps.refl s)
  | linkChange => exact execLinkChange_keeps (Keeps.refl s)
  | arpRequest => exact execArpRequest_keeps (Keeps.refl s)
  | arpReply => exact execArpReply_keeps (Keeps.refl s)
  | icmpEcho => exact execIcmpEcho_keeps (Keeps.refl s)
  | pauseFrame => exact execPauseFrame_keeps (Keeps.refl s)
  | droppedFrame => exact execDroppedFrame_keeps (Keeps.refl s)
  | arpRetry => exact execArpRetry_keeps (Keeps.refl s)
  | arpAgeOut => exact execArpAgeOut_keeps (Keeps.refl s)
  | resultRingPoll => exact execResultRingPoll_keeps (Keeps.refl s)
  | datagramFlush => exact execDatagramFlush_keeps (Keeps.refl s)
  | heartbeat => exact execHeartbeat_keeps (Keeps.refl s)
  | netClearCounters => exact execNetClearCounters_keeps (Keeps.refl s)
  | cmd0 => exact execCmd0_keeps (Keeps.refl s)
  | cmd3 => exact execCmd3_keeps (Keeps.refl s)
  | cmd5 => exact execCmd5_keeps (Keeps.refl s)
  | cmd7 => exact execCmd7_keeps (Keeps.refl s)
  | cmd11 => exact execCmd11_keeps (Keeps.refl s)
  | cmd15 => exact execCmd15_keeps (Keeps.refl s)
  | cmd19 => exact execCmd19_keeps (Keeps.refl s)
  | cmd52 => exact execCmd52_keeps (Keeps.refl s)
  | cmd53 => exact execCmd53_keeps (Keeps.refl s)
  | bulkTimeout => exact execBulkTimeout_keeps (Keeps.refl s)
  | imageCheckDone => exact execImageCheckDone_keeps (Keeps.refl s)
  | rateLimitEnd => exact execRateLimitEnd_keeps (Keeps.refl s)
  | echo => exact execEcho_keeps (Keeps.refl s)
  | deviceInfo => exact execDeviceInfo_keeps (Keeps.refl s)
  | deviceReset => exact execDeviceReset_keeps (Keeps.refl s)
  | deviceResetEffect => exact execDeviceResetEffect_keeps (Keeps.refl s)
  | cxpRegRead => exact execCxpRegRead_keeps (Keeps.refl s)
  | cxpRegWrite => exact execCxpRegWrite_keeps (Keeps.refl s)
  | logPull => exact execLogPull_keeps (Keeps.refl s)
  | imagePull => exact execImagePull_keeps (Keeps.refl s)
  | regRead => exact execRegRead_keeps (Keeps.refl s)
  | regWrite => exact execRegWrite_keeps (Keeps.refl s)
  | regModify => exact execRegModify_keeps (Keeps.refl s)
  | planLoad => exact execPlanLoad_keeps (Keeps.refl s)
  | planAdmit => exact execPlanAdmit_keeps (Keeps.refl s)
  | planStart => exact execPlanStart_keeps (Keeps.refl s)
  | planStop => exact execPlanStop_keeps (Keeps.refl s)
  | planUnload => exact execPlanUnload_keeps (Keeps.refl s)
  | graphSubmit => exact execGraphSubmit_keeps (Keeps.refl s)
  | graphWait => exact execGraphWait_keeps (Keeps.refl s)
  | modelLoad => exact execModelLoad_keeps (Keeps.refl s)
  | modelUnload => exact execModelUnload_keeps (Keeps.refl s)
  | flatLoad => exact execFlatLoad_keeps (Keeps.refl s)
  | projLoad => exact execProjLoad_keeps (Keeps.refl s)
  | pageMap => exact execPageMap_keeps (Keeps.refl s)
  | pageUnmap => exact execPageUnmap_keeps (Keeps.refl s)
  | memWrite => exact execMemWrite_keeps (Keeps.refl s)
  | memRead => exact execMemRead_keeps (Keeps.refl s)
  | ctxOpen => exact execCtxOpen_keeps (Keeps.refl s)
  | ctxClose => exact execCtxClose_keeps (Keeps.refl s)
  | seqOpen => exact execSeqOpen_keeps (Keeps.refl s)
  | seqFork => exact execSeqFork_keeps (Keeps.refl s)
  | seqClose => exact execSeqClose_keeps (Keeps.refl s)
  | courseProgLoad => exact execCourseProgLoad_keeps (Keeps.refl s)
  | servoProgLoad => exact execServoProgLoad_keeps (Keeps.refl s)
  | qpLoad => exact execQpLoad_keeps (Keeps.refl s)
  | motionPost => exact execMotionPost_keeps (Keeps.refl s)
  | sdfLoad => exact execSdfLoad_keeps (Keeps.refl s)
  | occLoad => exact execOccLoad_keeps (Keeps.refl s)
  | mapPublish => exact execMapPublish_keeps (Keeps.refl s)
  | timeRead => exact execTimeRead_keeps (Keeps.refl s)
  | ruleLoad => exact execRuleLoad_keeps (Keeps.refl s)
  | safetyStatus => exact execSafetyStatus_keeps (Keeps.refl s)
  | budgetSet => exact execBudgetSet_keeps (Keeps.refl s)
  | powerState => exact execPowerState_keeps (Keeps.refl s)
  | accountRead => exact execAccountRead_keeps (Keeps.refl s)
  | attest => exact execAttest_keeps (Keeps.refl s)
  | keyInfo => exact execKeyInfo_keeps (Keeps.refl s)
  | ownerKeySet => exact execOwnerKeySet_keeps (Keeps.refl s)
  | ownerKeyRevoke => exact execOwnerKeyRevoke_keeps (Keeps.refl s)
  | testMode => exact execTestMode_keeps (Keeps.refl s)
  | mgmtClearCounters => exact execMgmtClearCounters_keeps (Keeps.refl s)
  | clearLogs => exact execClearLogs_keeps (Keeps.refl s)
  | requireOwnerSig => exact execRequireOwnerSig_keeps (Keeps.refl s)
  | powerOn => exact execPowerOn_keeps (Keeps.refl s)
  | resetN => exact execResetN_keeps (Keeps.refl s)
  | pwrgdFall => exact execPwrgdFall_keeps (Keeps.refl s)
  | refclkLoss => exact execRefclkLoss_keeps (Keeps.refl s)
  | ethclkLoss => exact execEthclkLoss_keeps (Keeps.refl s)
  | cxpclkLoss => exact execCxpclkLoss_keeps (Keeps.refl s)
  | domainFault => exact execDomainFault_keeps (Keeps.refl s)
  | tempSample => exact execTempSample_keeps (Keeps.refl s)
  | derateStep => exact execDerateStep_keeps (Keeps.refl s)
  | energyMeter => exact execEnergyMeter_keeps (Keeps.refl s)
  | powerClearCounters => exact execPowerClearCounters_keeps (Keeps.refl s)
  | recalibrate => exact execRecalibrate_keeps (Keeps.refl s)
  | snapshot => exact execSnapshot_keeps (Keeps.refl s)
  | disarmAll => exact execDisarmAll_keeps (Keeps.refl s)
  | testClearCounters => exact execTestClearCounters_keeps (Keeps.refl s)
  | injCap => exact execInjCap_keeps (Keeps.refl s)
  | injMem => exact execInjMem_keeps (Keeps.refl s)
  | injPlumb => exact execInjPlumb_keeps (Keeps.refl s)
  | injWd => exact execInjWd_keeps (Keeps.refl s)
  | injCourse => exact execInjCourse_keeps (Keeps.refl s)
  | injectionDelivered => exact execInjectionDelivered_keeps (Keeps.refl s)
  | injExpired => exact execInjExpired_keeps (Keeps.refl s)
  | qchWear => exact execQchWear_keeps (Keeps.refl s)
  | bypass => exact execBypass_keeps (Keeps.refl s)
  | idcode => exact execIdcode_keeps (Keeps.refl s)
  | samplePreload => exact execSamplePreload_keeps (Keeps.refl s)
  | extest => exact execExtest_keeps (Keeps.refl s)
  | extestPulse => exact execExtestPulse_keeps (Keeps.refl s)
  | extestTrain => exact execExtestTrain_keeps (Keeps.refl s)
  | losEnd => exact execLosEnd_keeps (Keeps.refl s)
  | axisLos => exact execAxisLos_keeps (Keeps.refl s)
  | pcxFaultRelease => exact execPcxFaultRelease_keeps (Keeps.refl s)
  | shardMissing => exact execShardMissing_keeps (Keeps.refl s)
  | delayReq => exact execDelayReq_keeps (Keeps.refl s)
  | announceInterval => exact execAnnounceInterval_keeps (Keeps.refl s)
  | pauseExpired => exact execPauseExpired_keeps (Keeps.refl s)
  | heldLineRelease => exact execHeldLineRelease_keeps (Keeps.refl s)
  | heldRecordRelease => exact execHeldRecordRelease_keeps (Keeps.refl s)
  | netStallEnd => exact execNetStallEnd_keeps (Keeps.refl s)
  | lateCamera => exact execLateCamera_keeps (Keeps.refl s)
  | bulkOutTimeout => exact execBulkOutTimeout_keeps (Keeps.refl s)
  | admissionDone => exact execAdmissionDone_keeps (Keeps.refl s)
  | startupComplete => exact execStartupComplete_keeps (Keeps.refl s)
  | powerStateReached => exact execPowerStateReached_keeps (Keeps.refl s)

end Sys2Proof.Machine
end

