-- ==== Sys2Proof/Laws/OnlyLineGen.lean ====
section
/-! SUPPORT. What the operations of Machine/LineGen.lean may change (Laws/Only.lean). -/
namespace Sys2Proof.Machine
set_option Elab.async false

variable {m : List Block}

theorem State.lgIssue_only {s0 s1 : State} {a1 a2 a3}
    (hm : Within [.regs, .mem, .fresh, .course, .tn, .acq, .die, .stream, .kv, .mt, .bond, .line, .plumb, .power, .test, .sdio] m) (hs1 : OnlyIn m s0 s1) :
    OnlyIn m s0 (State.lgIssue s1 a1 a2 a3) := by
  unfold State.lgIssue
  extract_lets -merge -underBinder +onlyGivenNames x1 x2
  clear_value x1
  have hx2 : OnlyIn m s0 x2 := by
    subst x2
    exact State.updLg_only hm.sub (by assumption)
  clear_value x2
  extract_lets -merge -underBinder +onlyGivenNames x3 x4 x5
  clear_value x3 x4
  have hx5 : OnlyIn m s0 x5 := by
    subst x5
    refine State.each_only ?_ (fun _ _ _ => ?_)
    · assumption
    · exact State.stampIssue_only hm.sub (State.drew_only hm.sub (State.updAcq_only hm.sub (by assumption)))
  clear_value x5
  refine State.each_only ?_ (fun _ _ _ => ?_)
  · assumption
  · refine only_ite ?_ ?_
    · exact State.updCrs_only hm.sub (by assumption)
    · refine only_ite ?_ ?_
      · exact State.updCrs_only hm.sub (by assumption)
      · exact State.strobe_only hm.sub (by assumption)

theorem State.lgPass_only {s0 s1 : State} {a1 a2 a3} (hm : Within [.course] m) (hs1 : OnlyIn m s0 s1) :
    OnlyIn m s0 (State.lgPass s1 a1 a2 a3) := by
  unfold State.lgPass
  refine State.each_only ?_ (fun _ _ _ => ?_)
  · assumption
  · exact State.updCrs_only hm.sub (by assumption)

theorem State.lgSkip_only {s0 s1 : State} {a1 a2}
    (hm : Within [.regs, .course, .tn, .bond, .sdio] m) (hs1 : OnlyIn m s0 s1) :
    OnlyIn m s0 (State.lgSkip s1 a1 a2) := by
  unfold State.lgSkip
  extract_lets -merge -underBinder +onlyGivenNames x1
  have hx1 : OnlyIn m s0 x1 := by
    subst x1
    exact State.bumpLo_only hm.sub (State.updLg_only hm.sub (by assumption))
  clear_value x1
  extract_lets -merge -underBinder +onlyGivenNames x2
  clear_value x2
  exact State.coverAll_only hm.sub (State.raise_only hm.sub (by assumption))

theorem execLineTrigger_only {s0 : State} {a0 a1 a2 a3}
    (hm : Within [.regs, .mem, .fresh, .course, .tn, .acq, .die, .stream, .kv, .mt, .bond, .line, .plumb, .power, .test, .sdio] m) :
    OnlyInN m (State.to s0 a0) (execLineTrigger a0 a1 a2 a3 s0) := by
  unfold execLineTrigger
  extract_lets -merge -underBinder +onlyGivenNames x1
  have hx1 : OnlyIn m (State.to s0 a0) x1 := by
    subst x1
    exact OnlyIn.refl _ _
  clear_value x1
  extract_lets -merge -underBinder +onlyGivenNames x2 x3
  clear_value x2 x3
  refine guardNext_only ?_ (fun _ _ => ?_)
  · assumption
  · extract_lets -merge -underBinder +onlyGivenNames x4
    have hx4 : OnlyIn m (State.to s0 a0) x4 := by
      subst x4
      exact State.updLg_only hm.sub (by assumption)
    clear_value x4
    extract_lets -merge -underBinder +onlyGivenNames x5
    have hx5 : ∀ y0, OnlyIn m (State.to s0 a0) y0 → OnlyIn m (State.to s0 a0) (x5 y0) := by
      subst x5
      intro y0 _
      exact State.updLg_only hm.sub (by assumption)
    clear_value x5
    refine only_ite ?_ ?_
    · exact State.lgPass_only hm.sub (by assumption)
    · refine only_ite ?_ ?_
      · refine only_ite ?_ ?_
        · exact State.lgIssue_only hm.sub (by assumption)
        · refine hx5 _ ?_
          assumption
      · extract_lets -merge -underBinder +onlyGivenNames x6 x7
        clear_value x6
        have hx7 : OnlyIn m (State.to s0 a0) x7 := by
          subst x7
          refine only_ite ?_ ?_
          · assumption
          · exact State.lgSkip_only hm.sub (by assumption)
        clear_value x7
        refine only_ite ?_ ?_
        · exact State.lgPass_only hm.sub (by assumption)
        · refine hx5 _ ?_
          assumption

theorem execLateTrigger_only {s0 : State} {a0 a1}
    (hm : Within [.regs, .mem, .fresh, .course, .tn, .acq, .die, .stream, .kv, .mt, .bond, .line, .plumb, .power, .test, .sdio] m) :
    OnlyInN m (State.to s0 a0) (execLateTrigger a0 a1 s0) := by
  unfold execLateTrigger
  extract_lets -merge -underBinder +onlyGivenNames x1
  have hx1 : OnlyIn m (State.to s0 a0) x1 := by
    subst x1
    exact OnlyIn.refl _ _
  clear_value x1
  split
  · exact onlyN_next (by assumption)
  · refine guardNext_only ?_ (fun _ _ => ?_)
    · assumption
    · refine State.lgIssue_only hm.sub ?_
      exact State.raise_only hm.sub (State.bumpHi_only hm.sub (State.updLg_only hm.sub (by assumption)))

end Sys2Proof.Machine
end

