-- ==== Sys2Proof/Laws/OnlySdio.lean ====
section
/-! SUPPORT. What the operations of Machine/Sdio.lean may change (Laws/Only.lean). -/
namespace Sys2Proof.Machine
set_option Elab.async false

variable {m : List Block}

theorem execBulkOutTimeout_only {s0 : State} {a0} (hm : Within [.sdio] m) :
    OnlyInN m (State.to s0 a0) (execBulkOutTimeout a0 s0) := by
  unfold execBulkOutTimeout
  extract_lets -merge -underBinder +onlyGivenNames x1
  have hx1 : OnlyIn m (State.to s0 a0) x1 := by
    subst x1
    exact OnlyIn.refl _ _
  clear_value x1
  split
  · exact onlyN_next (by assumption)
  · refine guardNext_only ?_ (fun _ _ => ?_)
    · assumption
    · exact State.outNext_only hm.sub (State.updSdio_only hm.sub (by assumption))

theorem execCmd0_only {s0 : State} {a0} (hm : Within [.sdio] m) :
    OnlyInN m (State.to s0 a0) (execCmd0 a0 s0) := by
  unfold execCmd0
  extract_lets -merge -underBinder +onlyGivenNames x1
  have hx1 : OnlyIn m (State.to s0 a0) x1 := by
    subst x1
    exact OnlyIn.refl _ _
  clear_value x1
  refine guardNext_only ?_ (fun _ _ => ?_)
  · assumption
  · exact State.updSdio_only hm.sub (by assumption)

theorem execCmd5_only {s0 : State} {a0 a1} (hm : Within [.sdio] m) :
    OnlyInN m (State.to s0 a0) (execCmd5 a0 a1 s0) := by
  unfold execCmd5
  extract_lets -merge -underBinder +onlyGivenNames x1
  have hx1 : OnlyIn m (State.to s0 a0) x1 := by
    subst x1
    exact OnlyIn.refl _ _
  clear_value x1
  refine guardNext_only ?_ (fun _ _ => ?_)
  · assumption
  · exact State.updSdio_only hm.sub (by assumption)

theorem execCmd3_only {s0 : State} {a0} (hm : Within [.fresh, .sdio] m) :
    OnlyInN m (State.to s0 a0) (execCmd3 a0 s0) := by
  unfold execCmd3
  extract_lets -merge -underBinder +onlyGivenNames x1
  have hx1 : OnlyIn m (State.to s0 a0) x1 := by
    subst x1
    exact OnlyIn.refl _ _
  clear_value x1
  refine guardNext_only ?_ (fun _ _ => ?_)
  · assumption
  · exact State.updSdio_only hm.sub (State.drew_only hm.sub (by assumption))

theorem execCmd7_only {s0 : State} {a0 a1} (hm : Within [.sdio] m) :
    OnlyInN m (State.to s0 a0) (execCmd7 a0 a1 s0) := by
  unfold execCmd7
  extract_lets -merge -underBinder +onlyGivenNames x1
  have hx1 : OnlyIn m (State.to s0 a0) x1 := by
    subst x1
    exact OnlyIn.refl _ _
  clear_value x1
  refine guardNext_only ?_ (fun _ _ => ?_)
  · assumption
  · exact State.updSdio_only hm.sub (by assumption)

theorem execCmd11_only {s0 : State} {a0} (hm : Within [.sdio] m) :
    OnlyInN m (State.to s0 a0) (execCmd11 a0 s0) := by
  unfold execCmd11
  extract_lets -merge -underBinder +onlyGivenNames x1
  have hx1 : OnlyIn m (State.to s0 a0) x1 := by
    subst x1
    exact OnlyIn.refl _ _
  clear_value x1
  refine guardNext_only ?_ (fun _ _ => ?_)
  · assumption
  · exact State.updSdio_only hm.sub (by assumption)

theorem execCmd15_only {s0 : State} {a0} (hm : Within [.sdio] m) :
    OnlyInN m (State.to s0 a0) (execCmd15 a0 s0) := by
  unfold execCmd15
  refine onlyN_next ?_
  refine State.updSdio_only hm.sub ?_
  exact OnlyIn.refl _ _

theorem execCmd19_only {s0 : State} {a0} (hm : Within [.sdio] m) :
    OnlyInN m (State.to s0 a0) (execCmd19 a0 s0) := by
  unfold execCmd19
  extract_lets -merge -underBinder +onlyGivenNames x1
  have hx1 : OnlyIn m (State.to s0 a0) x1 := by
    subst x1
    exact OnlyIn.refl _ _
  clear_value x1
  refine guardNext_only ?_ (fun _ _ => ?_)
  · assumption
  · exact State.updSdio_only hm.sub (by assumption)

theorem execLateCamera_only {s0 : State} {a0 a1 a2} (hm : Within [.acq, .sdio] m) :
    OnlyInN m (State.to s0 a0) (execLateCamera a0 a1 a2 s0) := by
  unfold execLateCamera
  extract_lets -merge -underBinder +onlyGivenNames x1
  have hx1 : OnlyIn m (State.to s0 a0) x1 := by
    subst x1
    exact OnlyIn.refl _ _
  clear_value x1
  extract_lets -merge -underBinder +onlyGivenNames x2 x3 x4
  clear_value x2 x3
  have hx4 : OnlyIn m (State.to s0 a0) x4 := by
    subst x4
    refine State.each_only ?_ (fun _ _ _ => ?_)
    · assumption
    · exact State.updGrp_only hm.sub (by assumption)
  clear_value x4
  exact onlyN_next (State.answerDeferred_only hm.sub (by assumption))

end Sys2Proof.Machine
end

