-- ==== Sys2Proof/Laws/Raise.lean ====
section
/-! SUPPORT. What raising an event, producing a record and the strip position's moves do to the registers: outside the NET block
(0x000D_xxxx, whose counters the frames and lost records move) only the event register itself changes. -/
namespace Sys2Proof.Machine
set_option Elab.async false

variable {s : State}

/-- No register outside the NET block has changed. -/
def NetOnly (s t : State) : Prop := ∀ x, x / 65536 ≠ 13 → t.regGet x = s.regGet x

theorem NetOnly.refl (s : State) : NetOnly s s := fun _ _ => rfl
theorem NetOnly.trans {a b c : State} (h : NetOnly a b) (k : NetOnly b c) : NetOnly a c := fun _ hx => (k _ hx).trans (h _ hx)

theorem bitsOf_lt {n hi lo : Nat} : bitsOf n hi lo < 2 ^ (hi + 1 - lo) := Nat.mod_lt _ (Nat.two_pow_pos _)

theorem State.dstPort_lt {n : Nat} : s.dstPort n < 4 := bitsOf_lt

theorem State.bump_net {a k : Nat} (h : a / 65536 = 13) : NetOnly s (s.bump a k) := fun _ hx =>
  State.bump_regGet_ne fun e => hx (e ▸ h)

theorem State.log_regGet {e : LogEntry} {x : Nat} : (s.log e).regGet x = s.regGet x := State.updSdio_regGet

theorem State.updTn_net {g : TimeNet → TimeNet} : NetOnly s (s.updTn g) := fun _ _ => rfl

theorem State.txFrame_net {p : Nat} {f : WireFrame} (hp : p < 4) : NetOnly s (s.txFrame p f) := by
  unfold State.txFrame
  exact State.updTn_net.trans (State.bump_net (by unfold aPort; omega))

theorem State.flushDst_net {n : Nat} : NetOnly s (s.flushDst n) := by
  unfold State.flushDst
  extract_lets
  split
  · exact NetOnly.refl s
  · exact State.updTn_net.trans (State.txFrame_net State.dstPort_lt)

theorem State.loseRecs_net {n k : Nat} (hn : n < 4) : NetOnly s (s.loseRecs n k) := by
  unfold State.loseRecs
  exact State.updTn_net.trans (State.bump_net (by unfold aDst; omega))

theorem State.askArp_net {p ip : Nat} (hp : p < 4) : NetOnly s (s.askArp p ip) := by
  unfold State.askArp
  extract_lets
  split
  · exact NetOnly.refl s
  · exact State.updTn_net.trans (State.txFrame_net hp)

theorem State.enqueueRec_net {n : Nat} {r : List Byte} (hn : n < 4) : NetOnly s (s.enqueueRec n r).1 := by
  unfold State.enqueueRec
  extract_lets
  split
  · exact State.loseRecs_net hn
  · split
    · exact (State.askArp_net State.dstPort_lt).trans (State.loseRecs_net hn)
    · rename_i x1 _ _ _ _
      have h1 : NetOnly s x1 := by
        subst x1
        split
        · exact State.flushDst_net
        · exact NetOnly.refl s
      clear_value x1
      split
      · exact h1.trans (State.loseRecs_net hn)
      · exact h1.trans State.updTn_net

theorem State.produce_net {ty pair : Nat} {body : List Byte} : NetOnly s (s.produce ty pair body).1 := by
  unfold State.produce
  extract_lets _ r x1
  have h1 : NetOnly s x1 := State.updTn_net
  have hl : ∀ n ∈ x1.takers ty, n < 4 := fun n hn => List.mem_range.1 (List.mem_filter.1 hn).1
  clear_value x1
  generalize x1.takers ty = l at hl
  generalize hk : (0 : Nat) = k
  clear hk
  induction l generalizing x1 k with
  | nil => exact h1
  | cons n l ih =>
    exact ih _ (h1.trans (State.enqueueRec_net (hl n (List.mem_cons_self ..)))) (fun m hm => hl m (List.mem_cons_of_mem _ hm)) _

theorem State.raiseQuiet_net {b c : Nat} : NetOnly s (s.raiseQuiet b c) := by
  unfold State.raiseQuiet
  extract_lets _ x1 x2
  have h1 : NetOnly s x1 := fun x hx => State.regSet_regGet_ne fun e => by
    subst e
    exact hx (by decide)
  have h2 : NetOnly s x2 := h1.trans (fun _ _ => State.log_regGet)
  clear_value x1 x2
  split
  · split
    · exact h2
    · exact h2.trans State.produce_net
  · exact h1

theorem State.emit_net {ty pair : Nat} {body : List Byte} : NetOnly s (s.emit ty pair body) := by
  unfold State.emit
  have h0 : NetOnly s (s.produce ty pair body).1 := State.produce_net
  generalize s.produce ty pair body = q at h0
  obtain ⟨t, l⟩ := q
  show NetOnly s (if l % 2 = 1 then State.raiseQuiet (if l / 2 % 2 = 1 then t.raiseQuiet 3 else t) 0 else
    if l / 2 % 2 = 1 then t.raiseQuiet 3 else t)
  have h1 : NetOnly s (if l / 2 % 2 = 1 then t.raiseQuiet 3 else t) := by
    split
    · exact NetOnly.trans h0 State.raiseQuiet_net
    · exact h0
  split
  · exact h1.trans State.raiseQuiet_net
  · exact h1

/-- The only register outside the NET block that raising an event changes is the event register, which gains the event's bit. -/
theorem State.raise_regGet {a b c x : Nat} (hx : x / 65536 ≠ 13) :
    (s.raise a b c).regGet x = if x = a then s.regGet a ||| wordOf (2 ^ b) else s.regGet x := by
  unfold State.raise
  extract_lets x1 x2 x3 x4
  have h1 : x1.regGet x = if x = a then s.regGet a ||| wordOf (2 ^ b) else s.regGet x := State.regSet_regGet
  rw [← h1]
  have h3 : x3.regGet x = x1.regGet x := by
    subst x3
    split
    · rw [State.updSdio_regGet]
      exact State.log_regGet
    · exact State.log_regGet
  clear_value x1 x3
  split
  · exact (State.emit_net x hx).trans h3
  · rfl

theorem wordOf_pow_bit {b : Nat} (hb : b < 32) : wbit (wordOf (2 ^ b)) b = true := by
  unfold wbit wordOf
  rw [BitVec.toNat_ofNat, Nat.mod_eq_of_lt (Nat.pow_lt_pow_right (by decide) hb)]
  simp

theorem wbit_or {x y : Word} {b : Nat} : wbit (x ||| y) b = (wbit x b || wbit y b) := by
  unfold wbit
  rw [BitVec.toNat_or, Nat.testBit_or]

/-- The bit of an event is set once it is raised. -/
theorem State.raise_bit {a b c : Nat} (ha : a / 65536 ≠ 13) (hb : b < 32) : (s.raise a b c).rbit a b = true := by
  unfold State.rbit
  rw [State.raise_regGet ha, if_pos rfl, wbit_or, wordOf_pow_bit hb, Bool.or_true]

/-- Raising an event clears no bit. -/
theorem State.raise_bit_keeps {a b c x i : Nat} (hx : x / 65536 ≠ 13) (h : s.rbit x i = true) :
    (s.raise a b c).rbit x i = true := by
  unfold State.rbit at h ⊢
  rw [State.raise_regGet hx]
  split
  · next e => rw [wbit_or, ← e, h, Bool.true_or]
  · exact h

end Sys2Proof.Machine
end

