-- ==== Sys2Proof/Tests/Slice0.lean ====
section
/-!
SUPPORT. Tests: terms that the well-formedness checks refuse, one step of some commands beside the value the spec's rule gives, and, for every statement
of Certificates/Slice0 with hypotheses, states and operands that meet all hypotheses of each clause together.
-/
namespace Sys2Proof.Tests
open Sys2Proof Sys2Proof.Machine

set_option Elab.async false

/-! ### States to test in -/

/-- The header of a packet of client 15 at tick 0. -/
def h0 : Hdr := ⟨0, 1, 15⟩

/-- The header of a packet of client 3. -/
def h3 : Hdr := ⟨0, 2, 3⟩

/-- Vyuri in service with every domain on. -/
def rdy : State := { State.reset with mgmt := { st := .ready, fused := true }, power := { on := 0xFFFFF#20 } }

/-- The state with registers set. -/
def withRegs (l : List (Nat × Nat)) (s : State) : State := l.foldl (fun s p => s.regSet p.1 (wordOf p.2)) s

/-- The state after an outcome that is a next state. -/
def nextOf : Host.Outcome State Fault Refusal → State
  | .next v => v
  | _ => State.reset

/-- The conditions of `State.Accepts`, to be evaluated. -/
def okPkt (s : State) (h : Hdr) (c : HostCmd) : Bool :=
  let u := s.to h.t
  let p := packetOf h.tag h.client c
  (u.mgmt.st != .boot) && u.sdio.cmdBuf == [] && decide (p.size ≤ 65536) && u.mayTake && p.bad == 0 &&
    !(u.received.limited (violClient p) && !limitFree p.opcode) && u.received.refusal p == 0

/-- The conditions of `Written`, to be evaluated. -/
def okWrite (s : State) (h : Hdr) (a v : Nat) : Bool :=
  okPkt s h (.regWrite [(wordOf a, wordOf v)]) && !(s.atHost h).addrLacks a && !((s.atHost h).restarting && restartBlock a) &&
    (decide (a / 65536 ≠ 15) || (s.atHost h).test.mode || testFree a) && !absentReg s.part a

theorem carried_of {s : State} {h : Hdr} {c : HostCmd} (x : okPkt s h c = true) : Carried s h c := by
  simp only [okPkt, Bool.and_eq_true, bne_iff_ne, ne_eq, beq_iff_eq, decide_eq_true_eq, Bool.not_eq_true'] at x
  obtain ⟨⟨⟨⟨⟨⟨a, b⟩, c⟩, d⟩, e⟩, f⟩, g⟩ := x
  exact ⟨a, b, c, d, e, f, g⟩

theorem written_of {s : State} {h : Hdr} {a v : Nat} (x : okWrite s h a v = true) : Written s h a v := by
  simp only [okWrite, Bool.and_eq_true, Bool.or_eq_true, decide_eq_true_eq, Bool.not_eq_true', ne_eq] at x
  obtain ⟨⟨⟨⟨x1, x2⟩, x3⟩, x4⟩, x5⟩ := x
  exact ⟨carried_of x1, x2, x3, fun e => (by rcases x4 with (h | h) | h; exact absurd e h; exact .inl h; exact .inr h), x5⟩

/-- The tables of a state, to be evaluated. -/
def okSized (s : State) : Bool :=
  decide s.course.Sized && decide s.tn.Sized && decide s.acq.Sized && decide (s.die.length = 4 ∧ ∀ d ∈ s.die, d.Sized) &&
    decide (s.stream.length = 4) && decide (s.kv.length = 4) && decide s.mt.Sized && decide s.line.Sized && decide s.plumb.Sized &&
    decide s.test.Sized

theorem sized_of {s : State} (x : okSized s = true) : s.Sized := by
  simp only [okSized, Bool.and_eq_true, decide_eq_true_eq] at x
  obtain ⟨⟨⟨⟨⟨⟨⟨⟨⟨a, b⟩, c⟩, d⟩, e⟩, f⟩, g⟩, i⟩, j⟩, k⟩ := x
  exact ⟨a, b, c, d, e, f, g, i, j, k⟩

theorem all_some {α : Type} {o : Option α} {P : α → Prop} [DecidablePred P] (x : (o.all fun a => decide (P a)) = true) : ∀ a, o = some a → P a := by
  rintro a rfl
  simpa using x

/-! ### Well-formedness: for every check a term that it refuses (one operand a step outside its field, all others inside) -/

def q0 : Req := { kind := 1, carriage := 0, slot := 0, id := 0, sp := 0, x := 0, z := 0, y := 0, aux := 0#32, need := 0 }

def m0 : PtpMsg := { port := 0 }

def qBad : Req := { q0 with carriage := 256 }

def mBad : PtpMsg := { m0 with port := 4 }

def hBad : Hdr := ⟨0, 0, 16⟩

def z (n : Nat) : List Nat := List.replicate n 0

def zb (n : Nat) : List Byte := List.replicate n 0#8

def zw (n : Nat) : List Word := List.replicate n 0#32

theorem smoke_records : Hdr.ok ⟨0, 65536, 0⟩ = false ∧ Hdr.ok hBad = false ∧ Req.ok qBad = false ∧ Req.ok { q0 with kind := 256 } = false ∧
    Req.ok { q0 with slot := 65536 } = false ∧ Req.ok { q0 with id := 2 ^ 32 } = false ∧ Req.ok { q0 with sp := 2 ^ 63 } = false ∧
    Req.ok { q0 with x := 2 ^ 31 } = false ∧ Req.ok { q0 with z := -2 ^ 31 - 1 } = false ∧ Req.ok { q0 with y := 2 ^ 31 } = false ∧
    Req.ok { q0 with need := 2 ^ 32 } = false ∧ PtpMsg.ok mBad = false ∧ PtpMsg.ok { m0 with domain := 256 } = false ∧
    PtpMsg.ok { m0 with seq := 65536 } = false ∧ PtpMsg.ok { m0 with sec := 2 ^ 48 } = false ∧ PtpMsg.ok { m0 with ns := 2 ^ 32 } = false ∧
    PtpMsg.ok { m0 with corr := -2 ^ 63 - 1 } = false := by decide +kernel

theorem smoke_refused_1 : ([
    .snapshotRead hBad 0#32, .snapshotConsume hBad 0#32, .encoderEdge 0 8 true true, .los 0 8, .clearFaultA hBad, .clearFaultB hBad, .resync hBad,
    .loadSp hBad, .relocate hBad, .coilMark hBad, .lineTrigger 0 4 0 0, .lineTrigger 0 0 4 0, .lateTrigger 0 4, .strobeStart 0 24, .strobeEnd 0 24,
    .pulseEnd 0 24, .progEnWrite hBad 0 0#32, .progEnWrite h0 2 0#32, .halt 0 64, .anchor 0 64, .waitSpGe 0 64 0, .waitSpGe 0 0 (2 ^ 47),
    .waitSpLe 0 64 0, .waitSpLe 0 0 (2 ^ 47), .waitDsp 0 64 0, .waitDsp 0 0 (2 ^ 32), .waitT 0 64 0, .waitT 0 0 (2 ^ 40), .waitLine 0 64 0 0 0,
    .waitLine 0 0 4 0 0, .waitLine 0 0 0 4 0, .waitLine 0 0 0 0 (2 ^ 32), .waitSig 0 64 0, .waitSig 0 0 16, .signal 0 64 0, .signal 0 0 16,
    .outSet 0 64 0, .outSet 0 0 32, .outClr 0 64 0, .outClr 0 0 32, .outPulse 0 64 0 0, .outPulse 0 0 32 0, .outPulse 0 0 0 (2 ^ 32), .lgOn 0 64 0,
    .lgOn 0 0 4, .lgOff 0 64 0, .lgOff 0 0 4, .mark 0 64 0, .mark 0 0 65536, .setc 0 64 0 0, .setc 0 0 4 0, .setc 0 0 0 (2 ^ 32), .djnz 0 64 0 0,
    .djnz 0 0 4 0, .djnz 0 0 0 256, .jump 0 64 0, .jump 0 0 256, .ifSlow 0 64 0 0, .ifSlow 0 0 (2 ^ 32) 0, .ifSlow 0 0 0 256, .ifRev 0 64 0,
    .ifRev 0 0 256, .progFault 0 64, .waitCompletes 0 64, .progRunaway 0 64, .acqStart hBad, .acqStop hBad, .groupUp 0 8 0 0, .groupFailed 0 8,
    .pcxFault 0 8, .groupDown 0 8, .rediscovery 0 8, .cxpPacket 0 8 ⟨true, .line []⟩, .stampTimeout 0 8, .sensorRecord 0 4 [],
    .taskDispatch 0 4 0 0 0, .taskDispatch 0 0 48 0 0, .taskComplete 0 4 0, .taskComplete 0 0 48, .blockDrain 0 4 0, .blockDrain 0 0 48,
    .droopEvent 0 4 0, .droopEvent 0 0 2, .coreHung 0 4 0, .coreHung 0 0 48, .spareInDone 0 4 0, .spareInDone 0 0 48, .retireCore hBad 0 0,
    .retireCore h0 4 0, .retireCore h0 0 52] : List Instr).all (fun i => !i.ok) = true := by decide +kernel

theorem smoke_refused_2 : ([
    .fabricClearCounters hBad 0, .fabricClearCounters h0 4, .conv 0 4 0 0, .conv 0 0 48 0, .conv 0 0 0 (2 ^ 32), .dwconv 0 4 0 0, .dwconv 0 0 48 0,
    .dwconv 0 0 0 (2 ^ 32), .pool 0 4 0 0, .pool 0 0 48 0, .pool 0 0 0 (2 ^ 32), .cropResize 0 4 0 0, .cropResize 0 0 48 0,
    .cropResize 0 0 0 (2 ^ 32), .boxDecode 0 4 0 0, .boxDecode 0 0 48 0, .boxDecode 0 0 0 (2 ^ 32), .suppress 0 4 0 0, .suppress 0 0 48 0,
    .suppress 0 0 0 (2 ^ 32), .copy 0 4 0 0, .copy 0 0 48 0, .copy 0 0 0 (2 ^ 32), .blockedToPlanar 0 4 0 0, .blockedToPlanar 0 0 48 0,
    .blockedToPlanar 0 0 0 (2 ^ 32), .phaseSplit 0 4 0 0, .phaseSplit 0 0 48 0, .phaseSplit 0 0 0 (2 ^ 32), .planarToBlocked 0 4 0 0,
    .planarToBlocked 0 0 48 0, .planarToBlocked 0 0 0 (2 ^ 32), .rowGather 0 4 0 0, .rowGather 0 0 48 0, .rowGather 0 0 0 (2 ^ 32), .fill 0 4 0 0,
    .fill 0 0 48 0, .fill 0 0 0 (2 ^ 32), .chainDeadline 0 4 0 0, .chainDeadline 0 0 48 0, .chainDeadline 0 0 0 4, .swapIn 0 4 0,
    .swapIn 0 0 (2 ^ 18), .swapInDone 0 4 0, .swapInDone 0 0 (2 ^ 18), .evictionDone 0 4 0, .evictionDone 0 0 (2 ^ 18), .lscan 0 4 0 0,
    .lscan 0 0 48 0, .lscan 0 0 0 (2 ^ 32), .gcell 0 4 0 0, .gcell 0 0 48 0, .gcell 0 0 0 (2 ^ 32), .biscan 0 4 0 0, .biscan 0 0 48 0,
    .biscan 0 0 0 (2 ^ 32), .bind 0 4 0 0, .bind 0 0 48 0, .bind 0 0 0 (2 ^ 32), .resetCtx hBad 0 0, .resetCtx h0 4 0, .resetCtx h0 0 (2 ^ 32),
    .pin hBad 0 0, .pin h0 4 0, .pin h0 0 (2 ^ 32), .unpin hBad 0 0, .unpin h0 4 0, .unpin h0 0 (2 ^ 32), .evict hBad 0 0, .evict h0 4 0,
    .evict h0 0 (2 ^ 32), .streamClearCounters hBad 0, .streamClearCounters h0 4, .streamCtxSel hBad 0 0, .streamCtxSel h0 4 0,
    .streamCtxSel h0 0 (2 ^ 32), .kvAppend 0 4 0 0, .kvAppend 0 0 48 0, .kvAppend 0 0 0 (2 ^ 32), .attn 0 4 0 0, .attn 0 0 48 0,
    .attn 0 0 0 (2 ^ 32), .attnMerge 0 4 0 0, .attnMerge 0 0 48 0, .attnMerge 0 0 0 (2 ^ 32), .attnBwd 0 4 0 0, .attnBwd 0 0 48 0,
    .attnBwd 0 0 0 (2 ^ 32), .adaptAccum 0 4 0 0, .adaptAccum 0 0 48 0] : List Instr).all (fun i => !i.ok) = true := by decide +kernel

theorem smoke_refused_3 : ([
    .adaptAccum 0 0 0 (2 ^ 32), .adaptStep 0 4 0 0, .adaptStep 0 0 48 0, .adaptStep 0 0 0 (2 ^ 32), .resetSeq hBad 0 0, .resetSeq h0 4 0,
    .resetSeq h0 0 (2 ^ 32), .kvClose hBad 0 0, .kvClose h0 4 0, .kvClose h0 0 (2 ^ 32), .commit hBad, .rollback hBad, .resetMasters hBad,
    .kvClearCounters hBad 0, .kvClearCounters h0 4, .kvSeqSel hBad 0 0, .kvSeqSel h0 4 0, .kvSeqSel h0 0 (2 ^ 32), .kvPageSel hBad 0 0,
    .kvPageSel h0 4 0, .kvPageSel h0 0 (2 ^ 32), .tierBaseWrite hBad 0 0#32, .tierBaseWrite h0 4 0#32, .lintelScrub 0 4, .quarryBurst 0 16,
    .burstTimeout 0 16, .migrationMoveDone 0 65536, .excludeQch hBad 0, .excludeQch h0 16, .memClearCounters hBad, .memPageSel hBad 0,
    .memPageSel h0 (2 ^ 32), .taskEnd 0 4 0, .taskEnd 0 0 48, .oper 0 4 0 0, .oper 0 0 48 0, .oper 0 0 0 (2 ^ 32), .chain 0 4 0 0 0,
    .chain 0 0 48 0 0, .chain 0 0 0 4 0, .chain 0 0 0 0 (2 ^ 32), .waitc 0 4 0 0, .waitc 0 0 48 0, .waitc 0 0 0 4, .barrier 0 4 0, .barrier 0 0 48,
    .setl 0 4 0 0 0, .setl 0 0 48 0 0, .setl 0 0 0 4 0, .setl 0 0 0 0 (2 ^ 32), .taskDjnz 0 4 0 0 0, .taskDjnz 0 0 48 0 0, .taskDjnz 0 0 0 4 0,
    .taskDjnz 0 0 0 0 1024, .taskJump 0 4 0 0, .taskJump 0 0 48 0, .taskJump 0 0 0 1024, .progErr 0 4 0, .progErr 0 0 48, .taskInstrLimit 0 4 0,
    .taskInstrLimit 0 0 48, .vecFadd 0 4 0 0 0 0, .vecFadd 0 0 48 0 0 0, .vecFadd 0 0 0 32 0 0, .vecFadd 0 0 0 0 32 0, .vecFadd 0 0 0 0 0 32,
    .vecFmul 0 4 0 0 0 0, .vecFmul 0 0 48 0 0 0, .vecFmul 0 0 0 32 0 0, .vecFmul 0 0 0 0 32 0, .vecFmul 0 0 0 0 0 32, .vecFfma 0 4 0 0 0 0 0,
    .vecFfma 0 0 48 0 0 0 0, .vecFfma 0 0 0 32 0 0 0, .vecFfma 0 0 0 0 32 0 0, .vecFfma 0 0 0 0 0 32 0, .vecFfma 0 0 0 0 0 0 32,
    .vecFmax 0 4 0 0 0 0, .vecFmax 0 0 48 0 0 0, .vecFmax 0 0 0 32 0 0, .vecFmax 0 0 0 0 32 0, .vecFmax 0 0 0 0 0 32, .vecFmin 0 4 0 0 0 0,
    .vecFmin 0 0 48 0 0 0, .vecFmin 0 0 0 32 0 0, .vecFmin 0 0 0 0 32 0, .vecFmin 0 0 0 0 0 32, .fcmp 0 4 0 0 0 0, .fcmp 0 0 48 0 0 0,
    .fcmp 0 0 0 32 0 0] : List Instr).all (fun i => !i.ok) = true := by decide +kernel

theorem smoke_refused_4 : ([
    .fcmp 0 0 0 0 32 0, .fcmp 0 0 0 0 0 32, .iadd 0 4 0 0 0 0, .iadd 0 0 48 0 0 0, .iadd 0 0 0 32 0 0, .iadd 0 0 0 0 32 0, .iadd 0 0 0 0 0 32,
    .imul 0 4 0 0 0 0, .imul 0 0 48 0 0 0, .imul 0 0 0 32 0 0, .imul 0 0 0 0 32 0, .imul 0 0 0 0 0 32, .ishl 0 4 0 0 0 0, .ishl 0 0 48 0 0 0,
    .ishl 0 0 0 32 0 0, .ishl 0 0 0 0 32 0, .ishl 0 0 0 0 0 32, .ishr 0 4 0 0 0 0, .ishr 0 0 48 0 0 0, .ishr 0 0 0 32 0 0, .ishr 0 0 0 0 32 0,
    .ishr 0 0 0 0 0 32, .iand 0 4 0 0 0 0, .iand 0 0 48 0 0 0, .iand 0 0 0 32 0 0, .iand 0 0 0 0 32 0, .iand 0 0 0 0 0 32, .ior 0 4 0 0 0 0,
    .ior 0 0 48 0 0 0, .ior 0 0 0 32 0 0, .ior 0 0 0 0 32 0, .ior 0 0 0 0 0 32, .ixor 0 4 0 0 0 0, .ixor 0 0 48 0 0 0, .ixor 0 0 0 32 0 0,
    .ixor 0 0 0 0 32 0, .ixor 0 0 0 0 0 32, .icmp 0 4 0 0 0 0, .icmp 0 0 48 0 0 0, .icmp 0 0 0 32 0 0, .icmp 0 0 0 0 32 0, .icmp 0 0 0 0 0 32,
    .iclamp 0 4 0 0 0 0 0, .iclamp 0 0 48 0 0 0 0, .iclamp 0 0 0 32 0 0 0, .iclamp 0 0 0 0 32 0 0, .iclamp 0 0 0 0 0 32 0, .iclamp 0 0 0 0 0 0 32,
    .rescale 0 4 0 0 0 0 0, .rescale 0 0 48 0 0 0 0, .rescale 0 0 0 32 0 0 0, .rescale 0 0 0 0 32 0 0, .rescale 0 0 0 0 0 16 0,
    .rescale 0 0 0 0 0 0 (2 ^ 32), .cvt 0 4 0 0 0 0, .cvt 0 0 48 0 0 0, .cvt 0 0 0 32 0 0, .cvt 0 0 0 0 32 0, .cvt 0 0 0 0 0 16, .exp 0 4 0 0 0,
    .exp 0 0 48 0 0, .exp 0 0 0 32 0, .exp 0 0 0 0 32, .vecRecip 0 4 0 0 0, .vecRecip 0 0 48 0 0, .vecRecip 0 0 0 32 0, .vecRecip 0 0 0 0 32,
    .vecRsqrt 0 4 0 0 0, .vecRsqrt 0 0 48 0 0, .vecRsqrt 0 0 0 32 0, .vecRsqrt 0 0 0 0 32, .sigm 0 4 0 0 0, .sigm 0 0 48 0 0, .sigm 0 0 0 32 0,
    .sigm 0 0 0 0 32, .vecTanh 0 4 0 0 0, .vecTanh 0 0 48 0 0, .vecTanh 0 0 0 32 0, .vecTanh 0 0 0 0 32, .vld 0 4 0 0 0 0, .vld 0 0 48 0 0 0,
    .vld 0 0 0 32 0 0, .vld 0 0 0 0 16 0, .vld 0 0 0 0 0 (2 ^ 32), .vst 0 4 0 0 0 0, .vst 0 0 48 0 0 0, .vst 0 0 0 32 0 0, .vst 0 0 0 0 16 0,
    .vst 0 0 0 0 0 (2 ^ 32), .vbcast 0 4 0 0 0#32] : List Instr).all (fun i => !i.ok) = true := by decide +kernel

theorem smoke_refused_5 : ([
    .vbcast 0 0 48 0 0#32, .vbcast 0 0 0 32 0#32, .vrmax 0 4 0 0 0, .vrmax 0 0 48 0 0, .vrmax 0 0 0 32 0, .vrmax 0 0 0 0 32, .vrsum 0 4 0 0 0,
    .vrsum 0 0 48 0 0, .vrsum 0 0 0 32 0, .vrsum 0 0 0 0 32, .ilane 0 4 0 0, .ilane 0 0 48 0, .ilane 0 0 0 32, .readmit hBad,
    .bondClearCounters hBad, .bondAcctSel hBad 0#32, .baseTick 0 0#32 (z 9), .servoEnSet hBad, .servoEnClear hBad, .axisEncoderEdge 0 16 true true,
    .ssiFrameDone 0 16 true 0, .controlLawRun 0 16, .servoEnd 0 16, .servoFadd 0 16 0 0 0, .servoFadd 0 0 64 0 0, .servoFadd 0 0 0 64 0,
    .servoFadd 0 0 0 0 64, .servoFsub 0 16 0 0 0, .servoFsub 0 0 64 0 0, .servoFsub 0 0 0 64 0, .servoFsub 0 0 0 0 64, .servoFmul 0 16 0 0 0,
    .servoFmul 0 0 64 0 0, .servoFmul 0 0 0 64 0, .servoFmul 0 0 0 0 64, .servoFfma 0 16 0 0 0 0, .servoFfma 0 0 64 0 0 0, .servoFfma 0 0 0 64 0 0,
    .servoFfma 0 0 0 0 64 0, .servoFfma 0 0 0 0 0 64, .servoFmin 0 16 0 0 0, .servoFmin 0 0 64 0 0, .servoFmin 0 0 0 64 0, .servoFmin 0 0 0 0 64,
    .servoFmax 0 16 0 0 0, .servoFmax 0 0 64 0 0, .servoFmax 0 0 0 64 0, .servoFmax 0 0 0 0 64, .servoFabs 0 16 0 0, .servoFabs 0 0 64 0,
    .servoFabs 0 0 0 64, .fclamp 0 16 0 0 0 0, .fclamp 0 0 64 0 0 0, .fclamp 0 0 0 64 0 0, .fclamp 0 0 0 0 64 0, .fclamp 0 0 0 0 0 64,
    .fsel 0 16 0 0 0 0, .fsel 0 0 64 0 0 0, .fsel 0 0 0 64 0 0, .fsel 0 0 0 0 64 0, .fsel 0 0 0 0 0 64, .ldk 0 16 0 0, .ldk 0 0 64 0,
    .ldk 0 0 0 64, .servoRecip 0 16 0 0, .servoRecip 0 0 64 0, .servoRecip 0 0 0 64, .servoRsqrt 0 16 0 0, .servoRsqrt 0 0 64 0,
    .servoRsqrt 0 0 0 64, .servoTanh 0 16 0 0, .servoTanh 0 0 64 0, .servoTanh 0 0 0 64, .servoEnable hBad 0, .servoEnable h0 16,
    .servoDisable hBad 0, .servoDisable h0 16, .axisClearFault hBad 0, .axisClearFault h0 16, .home hBad 0, .home h0 16, .resetState hBad 0,
    .resetState h0 16, .servoResync hBad 0, .servoResync h0 16, .clearGroup hBad 0, .clearGroup h0 8, .servoClearCounters hBad, .qpCycleStart 0 8,
    .qpSolveDone 0 8] : List Instr).all (fun i => !i.ok) = true := by decide +kernel

theorem smoke_refused_6 : ([
    .qpDeadline 0 8, .qpEnable hBad 0, .qpEnable h0 8, .qpDisable hBad 0, .qpDisable h0 8, .qpRestart hBad 0, .qpRestart h0 8,
    .qpClearCounters hBad 0, .qpClearCounters h0 8, .goto 0 qBad, .markReq 0 qBad, .cut 0 qBad, .park 0 qBad, .post 0 qBad, .cancel 0 qBad,
    .reqBad 0 qBad, .planBatch 0 8, .planTimeout 0 8, .brakeDone 0 8, .settleEnd 0 8, .publish hBad, .flush hBad 0, .flush h0 8,
    .motionClearCounters hBad, .ruleIn 0 16 0, .ruleIn 0 0 65536, .ruleKi 0 16 0#32, .ruleKf 0 16 0#32, .ruleAdd 0 16 0 0, .ruleAdd 0 0 16 0,
    .ruleAdd 0 0 0 16, .ruleSub 0 16 0 0, .ruleSub 0 0 16 0, .ruleSub 0 0 0 16, .ruleMul 0 16 0 0, .ruleMul 0 0 16 0, .ruleMul 0 0 0 16,
    .ruleFadd 0 16 0 0, .ruleFadd 0 0 16 0, .ruleFadd 0 0 0 16, .ruleFsub 0 16 0 0, .ruleFsub 0 0 16 0, .ruleFsub 0 0 0 16, .ruleFmul 0 16 0 0,
    .ruleFmul 0 0 16 0, .ruleFmul 0 0 0 16, .ruleAbs 0 16 0, .ruleAbs 0 0 16, .ruleFabs 0 16 0, .ruleFabs 0 0 16, .ruleLt 0 16 0 0,
    .ruleLt 0 0 16 0, .ruleLt 0 0 0 16, .ruleLe 0 16 0 0, .ruleLe 0 0 16 0, .ruleLe 0 0 0 16, .ruleEq 0 16 0 0, .ruleEq 0 0 16 0, .ruleEq 0 0 0 16,
    .ruleFlt 0 16 0 0, .ruleFlt 0 0 16 0, .ruleFlt 0 0 0 16, .ruleFle 0 16 0 0, .ruleFle 0 0 16 0, .ruleFle 0 0 0 16, .ruleAnd 0 16 0 0,
    .ruleAnd 0 0 16 0, .ruleAnd 0 0 0 16, .ruleOr 0 16 0 0, .ruleOr 0 0 16 0, .ruleOr 0 0 0 16, .ruleNot 0 16 0, .ruleNot 0 0 16,
    .ruleSkipz 0 16 0, .ruleSkipz 0 0 256, .rulePermit 0 80, .ruleDeny 0 80 0, .ruleDeny 0 0 256, .ruleSubst 0 16 0, .ruleSubst 0 0 24,
    .ruleSafe 0 256, .ruleNote 0 256, .watchClose 0 8, .diePairRestartDone 0 4, .keystoneCompare 0 4, .latentFault 0 9, .safeState hBad,
    .safeClear hBad, .releaseTarget hBad 0, .releaseTarget h0 80] : List Instr).all (fun i => !i.ok) = true := by decide +kernel

theorem smoke_refused_7 : ([
    .recover hBad, .plumbClearCounters hBad, .sync 0 mBad, .followUp 0 mBad, .announce 0 mBad, .delayResp 0 mBad, .pdelayReq 0 mBad,
    .pdelayResp 0 mBad, .pdelayRespFollowUp 0 mBad, .domainHoldover 0 2, .setLocalDom0 hBad, .setLocalDom1 hBad, .timeClearCounters hBad,
    .tpoPulse 0 8, .tpoPulseEnd 0 8, .timeCapture 0 4, .capturePop hBad 0, .capturePop h0 4, .linkChange 0 4 true, .arpRequest 0 4 0 0,
    .arpRequest 0 0 (2 ^ 32) 0, .arpRequest 0 0 0 (2 ^ 48), .arpReply 0 4 0 0, .arpReply 0 0 (2 ^ 32) 0, .arpReply 0 0 0 (2 ^ 48),
    .icmpEcho 0 4 0 [], .icmpEcho 0 0 (2 ^ 32) [], .pauseFrame 0 4 0, .pauseFrame 0 0 65536, .droppedFrame 0 4, .arpRetry 0 4 0,
    .arpRetry 0 0 (2 ^ 32), .arpAgeOut 0 4 0, .arpAgeOut 0 0 (2 ^ 32), .datagramFlush 0 4, .netClearCounters hBad, .cmd7 0 65536,
    .cmd52 0 true true 8 0 0#8, .cmd52 0 true true 0 (2 ^ 17) 0#8, .cmd53 0 true 8 true true 0 0 [], .cmd53 0 true 0 true true (2 ^ 17) 0 [],
    .cmd53 0 true 0 true true 0 512 [], .rateLimitEnd 0 16, .echo hBad [], .echo h0 (zb 4097), .deviceInfo hBad, .deviceReset hBad 0#32,
    .cxpRegRead hBad 0 0 0, .cxpRegRead h0 256 0 0, .cxpRegRead h0 0 (2 ^ 32) 0, .cxpRegRead h0 0 0 (2 ^ 32), .cxpRegWrite hBad 0 0 (zb 4),
    .cxpRegWrite h0 256 0 (zb 4), .cxpRegWrite h0 0 (2 ^ 32) (zb 4), .cxpRegWrite h0 0 0 [], .cxpRegWrite h0 0 0 (zb 257), .logPull hBad 0 0,
    .logPull h0 256 0, .logPull h0 0 (2 ^ 32), .imagePull hBad 0 0 0 0, .imagePull h0 (2 ^ 63) 0 0 0, .imagePull h0 0 65536 0 0,
    .imagePull h0 0 0 256 0, .imagePull h0 0 0 0 256, .regRead hBad 0#32 0, .regRead h0 0#32 257, .regWrite hBad [(0#32, 0#32)], .regWrite h0 [],
    .regWrite h0 (List.replicate 65 (0#32, 0#32)), .regModify hBad 0#32 0#32 0#32, .planLoad hBad 0 (zb 64), .planLoad h0 (2 ^ 32) (zb 64),
    .planLoad h0 0 (zb 65), .planAdmit hBad, .planStart hBad, .planStop hBad, .planUnload hBad, .graphSubmit hBad 0 0, .graphSubmit h0 256 0,
    .graphSubmit h0 0 (2 ^ 32), .graphWait hBad 0, .graphWait h0 (2 ^ 32), .modelLoad hBad 0 0 true 0 (zb 64),
    .modelLoad h0 65536 0 true 0 (zb 64), .modelLoad h0 0 256 true 0 (zb 64), .modelLoad h0 0 0 true (2 ^ 32) (zb 64),
    .modelLoad h0 0 0 true 0 (zb 65), .modelUnload hBad 0, .modelUnload h0 65536, .flatLoad hBad 0 0 0] : List Instr).all (fun i => !i.ok) = true := by decide +kernel

theorem smoke_refused_8 : ([
    .flatLoad h0 256 0 0, .flatLoad h0 0 256 0, .flatLoad h0 0 0 (2 ^ 32), .projLoad hBad 0 0, .projLoad h0 256 0, .projLoad h0 0 (2 ^ 32),
    .pageMap hBad 0 0 0, .pageMap h0 (2 ^ 32) 0 0, .pageMap h0 0 (2 ^ 32) 0, .pageMap h0 0 0 256, .pageUnmap hBad 0 0, .pageUnmap h0 (2 ^ 32) 0,
    .pageUnmap h0 0 (2 ^ 32), .memWrite hBad 0 0 [], .memWrite h0 256 0 [], .memWrite h0 0 (2 ^ 32) [], .memWrite h0 0 0 (zb 4097),
    .memRead hBad 0 0 0 true, .memRead h0 256 0 0 true, .memRead h0 0 (2 ^ 32) 0 true, .memRead h0 0 0 (2 ^ 32) true, .ctxOpen hBad 0 0 0 0 true 0,
    .ctxOpen h0 (2 ^ 32) 0 0 0 true 0, .ctxOpen h0 0 (2 ^ 32) 0 0 true 0, .ctxOpen h0 0 0 (2 ^ 32) 0 true 0, .ctxOpen h0 0 0 0 65536 true 0,
    .ctxOpen h0 0 0 0 0 true (2 ^ 64), .ctxClose hBad 0, .ctxClose h0 (2 ^ 32), .seqOpen hBad 0 0 0 true true 0 0 0 0,
    .seqOpen h0 65536 0 0 true true 0 0 0 0, .seqOpen h0 0 256 0 true true 0 0 0 0, .seqOpen h0 0 0 4 true true 0 0 0 0,
    .seqOpen h0 0 0 0 true true (2 ^ 63) 0 0 0, .seqOpen h0 0 0 0 true true 0 (2 ^ 32) 0 0, .seqOpen h0 0 0 0 true true 0 0 (2 ^ 32) 0,
    .seqOpen h0 0 0 0 true true 0 0 0 65536, .seqFork hBad 0 0 0, .seqFork h0 65536 0 0, .seqFork h0 0 65536 0, .seqFork h0 0 0 (2 ^ 32),
    .seqClose hBad 0, .seqClose h0 65536, .courseProgLoad hBad 0 [], .courseProgLoad h0 256 [], .courseProgLoad h0 0 (z 257),
    .courseProgLoad h0 0 [2 ^ 64], .servoProgLoad hBad 0 [] (zw 64) (zw 48), .servoProgLoad h0 256 [] (zw 64) (zw 48),
    .servoProgLoad h0 0 (zw 129) (zw 64) (zw 48), .servoProgLoad h0 0 [] (zw 65) (zw 48), .servoProgLoad h0 0 [] (zw 64) (zw 49), .qpLoad hBad 0 0,
    .qpLoad h0 256 0, .qpLoad h0 0 (2 ^ 32), .motionPost hBad [q0], .motionPost h0 [], .motionPost h0 (List.replicate 17 q0),
    .motionPost h0 [qBad], .sdfLoad hBad (z 6) 0, .sdfLoad h0 (z 7) 0, .sdfLoad h0 (65536 :: z 5) 0, .sdfLoad h0 (z 6) (2 ^ 32),
    .occLoad hBad 0 0 0 0, .occLoad h0 (2 ^ 64) 0 0 0, .occLoad h0 0 256 0 0, .occLoad h0 0 0 256 0, .occLoad h0 0 0 0 (2 ^ 32), .mapPublish hBad,
    .timeRead hBad, .ruleLoad hBad (zb 64) [], .ruleLoad h0 (zb 65) [], .safetyStatus hBad, .budgetSet hBad 0 true, .budgetSet h0 (2 ^ 32) true,
    .powerState hBad 0, .powerState h0 256, .accountRead hBad 0 0, .accountRead h0 256 0, .accountRead h0 0 256, .attest hBad (zb 32),
    .attest h0 (zb 33), .keyInfo hBad, .ownerKeySet hBad 0 (zb 32) 0#32, .ownerKeySet h0 256 (zb 32) 0#32, .ownerKeySet h0 0 (zb 33) 0#32,
    .ownerKeyRevoke hBad 0 0#32, .ownerKeyRevoke h0 256 0#32, .testMode hBad 0 0#32, .testMode h0 256 0#32] : List Instr).all (fun i => !i.ok) = true := by decide +kernel

theorem smoke_refused_9 : ([
    .mgmtClearCounters hBad, .clearLogs hBad, .requireOwnerSig hBad, .domainFault 0 20, .tempSample 0 (z 22), .energyMeter 0 (z 21),
    .powerClearCounters hBad, .recalibrate hBad, .snapshot hBad, .disarmAll hBad, .testClearCounters hBad, .injCap hBad 0#32, .injMem hBad 0#32,
    .injPlumb hBad 0#32, .injWd hBad 0#32, .injCourse hBad 0#32, .injectionDelivered 0 5, .injExpired 0 5, .losEnd 0 8, .axisLos 0 16,
    .pcxFaultRelease 0 8, .shardMissing 0 (2 ^ 32) 0, .shardMissing 0 0 4096, .delayReq 0 2, .announceInterval 0 2, .pauseExpired 0 4, .netStallEnd 0 4,
    .lateCamera 0 16 0, .lateCamera 0 0 65536] : List Instr).all (fun i => !i.ok) = true := by decide +kernel

theorem smoke_wellFormed_1 : ([
    .snapshotRead h0 0#32, .snapshotConsume h0 0#32, .encoderEdge 0 0 true true, .los 0 0, .clearFaultA h0, .clearFaultB h0, .resync h0,
    .loadSp h0, .relocate h0, .coilMark h0, .lineTrigger 0 0 0 0, .lateTrigger 0 0, .strobeStart 0 0, .strobeEnd 0 0, .pulseEnd 0 0,
    .progEnWrite h0 0 0#32, .halt 0 0, .anchor 0 0, .waitSpGe 0 0 0, .waitSpLe 0 0 0, .waitDsp 0 0 0, .waitT 0 0 0, .waitLine 0 0 0 0 0,
    .waitSig 0 0 0, .signal 0 0 0, .outSet 0 0 0, .outClr 0 0 0, .outPulse 0 0 0 0, .lgOn 0 0 0, .lgOff 0 0 0, .mark 0 0 0, .setc 0 0 0 0,
    .djnz 0 0 0 0, .jump 0 0 0, .ifSlow 0 0 0 0, .ifRev 0 0 0, .progFault 0 0, .waitCompletes 0 0, .progRunaway 0 0, .acqStart h0, .acqStop h0,
    .groupUp 0 0 0 0, .groupFailed 0 0, .pcxFault 0 0, .groupDown 0 0, .rediscovery 0 0, .cxpPacket 0 0 ⟨true, .line []⟩, .stampTimeout 0 0,
    .sensorRecord 0 0 [], .taskDispatch 0 0 0 0 0, .taskComplete 0 0 0, .blockDrain 0 0 0, .droopEvent 0 0 0, .coreHung 0 0 0, .spareInDone 0 0 0,
    .retireCore h0 0 0, .fabricClearCounters h0 0, .conv 0 0 0 0, .dwconv 0 0 0 0, .pool 0 0 0 0, .cropResize 0 0 0 0, .boxDecode 0 0 0 0,
    .suppress 0 0 0 0, .copy 0 0 0 0, .blockedToPlanar 0 0 0 0, .phaseSplit 0 0 0 0, .planarToBlocked 0 0 0 0, .rowGather 0 0 0 0, .fill 0 0 0 0,
    .chainDeadline 0 0 0 0, .swapIn 0 0 0, .swapInDone 0 0 0, .evictionDone 0 0 0, .lscan 0 0 0 0, .gcell 0 0 0 0, .biscan 0 0 0 0, .bind 0 0 0 0,
    .resetCtx h0 0 0, .pin h0 0 0, .unpin h0 0 0, .evict h0 0 0, .streamClearCounters h0 0, .streamCtxSel h0 0 0, .kvAppend 0 0 0 0, .attn 0 0 0 0,
    .attnMerge 0 0 0 0, .attnBwd 0 0 0 0, .adaptAccum 0 0 0 0, .adaptStep 0 0 0 0, .resetSeq h0 0 0, .kvClose h0 0 0, .commit h0, .rollback h0,
    .resetMasters h0, .kvClearCounters h0 0, .kvSeqSel h0 0 0, .kvPageSel h0 0 0, .tierBaseWrite h0 0 0#32, .lintelScrub 0 0, .quarryBurst 0 0,
    .burstTimeout 0 0, .migrationMoveDone 0 0, .excludeQch h0 0, .memClearCounters h0, .memPageSel h0 0, .taskEnd 0 0 0, .oper 0 0 0 0,
    .chain 0 0 0 0 0, .waitc 0 0 0 0, .barrier 0 0 0, .setl 0 0 0 0 0, .taskDjnz 0 0 0 0 0, .taskJump 0 0 0 0, .progErr 0 0 0,
    .taskInstrLimit 0 0 0, .vecFadd 0 0 0 0 0 0, .vecFmul 0 0 0 0 0 0, .vecFfma 0 0 0 0 0 0 0, .vecFmax 0 0 0 0 0 0, .vecFmin 0 0 0 0 0 0] : List Instr).all (fun i => i.ok) = true := by decide +kernel

theorem smoke_wellFormed_2 : ([
    .fcmp 0 0 0 0 0 0, .iadd 0 0 0 0 0 0, .imul 0 0 0 0 0 0, .ishl 0 0 0 0 0 0, .ishr 0 0 0 0 0 0, .iand 0 0 0 0 0 0, .ior 0 0 0 0 0 0,
    .ixor 0 0 0 0 0 0, .icmp 0 0 0 0 0 0, .iclamp 0 0 0 0 0 0 0, .rescale 0 0 0 0 0 0 0, .cvt 0 0 0 0 0 0, .exp 0 0 0 0 0, .vecRecip 0 0 0 0 0,
    .vecRsqrt 0 0 0 0 0, .sigm 0 0 0 0 0, .vecTanh 0 0 0 0 0, .vld 0 0 0 0 0 0, .vst 0 0 0 0 0 0, .vbcast 0 0 0 0 0#32, .vrmax 0 0 0 0 0,
    .vrsum 0 0 0 0 0, .ilane 0 0 0 0, .readmit h0, .bondClearCounters h0, .bondAcctSel h0 0#32, .baseTick 0 0#32 (z 8), .servoEnSet h0,
    .servoEnClear h0, .axisEncoderEdge 0 0 true true, .ssiFrameDone 0 0 true 0, .controlLawRun 0 0, .servoEnd 0 0, .servoFadd 0 0 0 0 0,
    .servoFsub 0 0 0 0 0, .servoFmul 0 0 0 0 0, .servoFfma 0 0 0 0 0 0, .servoFmin 0 0 0 0 0, .servoFmax 0 0 0 0 0, .servoFabs 0 0 0 0,
    .fclamp 0 0 0 0 0 0, .fsel 0 0 0 0 0 0, .ldk 0 0 0 0, .servoRecip 0 0 0 0, .servoRsqrt 0 0 0 0, .servoTanh 0 0 0 0, .servoEnable h0 0,
    .servoDisable h0 0, .axisClearFault h0 0, .home h0 0, .resetState h0 0, .servoResync h0 0, .clearGroup h0 0, .servoClearCounters h0,
    .qpCycleStart 0 0, .qpSolveDone 0 0, .qpDeadline 0 0, .qpEnable h0 0, .qpDisable h0 0, .qpRestart h0 0, .qpClearCounters h0 0, .goto 0 q0,
    .markReq 0 q0, .cut 0 q0, .park 0 q0, .post 0 q0, .cancel 0 q0, .reqBad 0 q0, .planBatch 0 0, .planTimeout 0 0, .brakeDone 0 0, .settleEnd 0 0,
    .publish h0, .flush h0 0, .motionClearCounters h0, .ruleIn 0 0 0, .ruleKi 0 0 0#32, .ruleKf 0 0 0#32, .ruleAdd 0 0 0 0, .ruleSub 0 0 0 0,
    .ruleMul 0 0 0 0, .ruleFadd 0 0 0 0, .ruleFsub 0 0 0 0, .ruleFmul 0 0 0 0, .ruleAbs 0 0 0, .ruleFabs 0 0 0, .ruleLt 0 0 0 0, .ruleLe 0 0 0 0,
    .ruleEq 0 0 0 0, .ruleFlt 0 0 0 0, .ruleFle 0 0 0 0, .ruleAnd 0 0 0 0, .ruleOr 0 0 0 0, .ruleNot 0 0 0, .ruleSkipz 0 0 0, .rulePermit 0 0,
    .ruleDeny 0 0 0, .ruleSubst 0 0 0, .ruleSafe 0 0, .ruleNote 0 0, .watchClose 0 0, .diePairRestartDone 0 0, .keystoneCompare 0 0,
    .latentFault 0 0, .safeState h0, .safeClear h0, .releaseTarget h0 0, .recover h0, .plumbClearCounters h0, .sync 0 m0, .followUp 0 m0,
    .announce 0 m0, .delayResp 0 m0, .pdelayReq 0 m0, .pdelayResp 0 m0, .pdelayRespFollowUp 0 m0, .domainHoldover 0 0, .setLocalDom0 h0,
    .setLocalDom1 h0, .timeClearCounters h0] : List Instr).all (fun i => i.ok) = true := by decide +kernel

theorem smoke_wellFormed_3 : ([
    .tpoPulse 0 0, .tpoPulseEnd 0 0, .timeCapture 0 0, .capturePop h0 0, .linkChange 0 0 true, .arpRequest 0 0 0 0, .arpReply 0 0 0 0,
    .icmpEcho 0 0 0 [], .pauseFrame 0 0 0, .droppedFrame 0 0, .arpRetry 0 0 0, .arpAgeOut 0 0 0, .datagramFlush 0 0, .netClearCounters h0,
    .cmd7 0 0, .cmd52 0 true true 0 0 0#8, .cmd53 0 true 0 true true 0 0 [], .rateLimitEnd 0 0, .echo h0 [], .deviceInfo h0, .deviceReset h0 0#32,
    .cxpRegRead h0 0 0 0, .cxpRegWrite h0 0 0 (zb 4), .logPull h0 0 0, .imagePull h0 0 0 0 0, .regRead h0 0#32 0, .regWrite h0 [(0#32, 0#32)],
    .regModify h0 0#32 0#32 0#32, .planLoad h0 0 (zb 64), .planAdmit h0, .planStart h0, .planStop h0, .planUnload h0, .graphSubmit h0 0 0,
    .graphWait h0 0, .modelLoad h0 0 0 true 0 (zb 64), .modelUnload h0 0, .flatLoad h0 0 0 0, .projLoad h0 0 0, .pageMap h0 0 0 0,
    .pageUnmap h0 0 0, .memWrite h0 0 0 [], .memRead h0 0 0 0 true, .ctxOpen h0 0 0 0 0 true 0, .ctxClose h0 0,
    .seqOpen h0 0 0 0 true true 0 0 0 0, .seqFork h0 0 0 0, .seqClose h0 0, .courseProgLoad h0 0 [], .servoProgLoad h0 0 [] (zw 64) (zw 48),
    .qpLoad h0 0 0, .motionPost h0 [q0], .sdfLoad h0 (z 6) 0, .occLoad h0 0 0 0 0, .mapPublish h0, .timeRead h0, .ruleLoad h0 (zb 64) [],
    .safetyStatus h0, .budgetSet h0 0 true, .powerState h0 0, .accountRead h0 0 0, .attest h0 (zb 32), .keyInfo h0, .ownerKeySet h0 0 (zb 32) 0#32,
    .ownerKeyRevoke h0 0 0#32, .testMode h0 0 0#32, .mgmtClearCounters h0, .clearLogs h0, .requireOwnerSig h0, .domainFault 0 0,
    .tempSample 0 (z 21), .energyMeter 0 (z 20), .powerClearCounters h0, .recalibrate h0, .snapshot h0, .disarmAll h0, .testClearCounters h0,
    .injCap h0 0#32, .injMem h0 0#32, .injPlumb h0 0#32, .injWd h0 0#32, .injCourse h0 0#32, .injectionDelivered 0 0, .injExpired 0 0, .losEnd 0 0,
    .axisLos 0 0, .pcxFaultRelease 0 0, .shardMissing 0 0 0, .delayReq 0 0, .announceInterval 0 0, .pauseExpired 0 0, .netStallEnd 0 0,
    .lateCamera 0 0 0] : List Instr).all (fun i => i.ok) = true := by decide +kernel

/-- Encoder input 7 feeds counter A, encoder input 6 counter B; the Course Unit counts. -/
def wEnc : State := withRegs [(0x10000, 0xDF), (aEnc 7, 0x10000), (aEnc 7 + 4, 5), (aEnc 6, 0x10000)] rdy

/-- The same, with input 7 FAULTED, input 6 FAULTED. -/
def wEncF : State := (wEnc.updEnc 7 (fun e => { e with faulted := true })).updEnc 6 (fun e => { e with faulted := true })

/-- Line generator 3 with four phases at a pitch of 50 um; SP past its first line. -/
def wLg : State :=
  (withRegs [(0x10000, 1), (aLg 3, 0x83000000), (aLg 3 + 4, 50), (aLg 3 + 8, 1), (aLg 3 + 12, 2), (aLg 3 + 16, 3), (aLg 3 + 0x14, 100),
    (aOut 23, 0x70000000), (aOut 23 + 4, 0xC80000)] rdy).updCourse (fun c => { c with sp := 60 * 2 ^ 24 })

/-- Event program 63 is enabled and owns output 23. -/
def wProg : State :=
  (withRegs [(0x10000, 1), (aProgEn 63, 0x80000000), (aOut 23, 0x3F0000)] rdy).updCourse (fun c => { c with
    prog := lmod c.prog 63 (fun p => { p with text := [0, 0], cnt := [0#32, 0#32, 7#32, 1#32] }), sig := 0x8000#16 })

/-- Event program 63 stands at an instruction of opcode `op`. -/
def wInstr (op opnd : Nat) (s : State := wProg) : State :=
  s.updCourse (fun c => { c with prog := lmod c.prog 63 (fun p => { p with text := [op * 2 ^ 58 + opnd, 0] }) })

/-- The device waits for its power state, so that a packet waits. -/
def wWait : State := rdy.updSdio (fun x => { x with waiting := some (packetOf 9 15 (.powerState 1)) })

/-- Connection group 7 is enabled and up, acquisition runs. -/
def wCam : State :=
  let s := withRegs [(0x20000, 3), (aGrp 7, 0x80000000), (aGrp 7 + 4, 16384), (aGrp 7 + 16, 100)] rdy
  { s with acq := { s.acq with running := true, grp := lmod s.acq.grp 7 (fun g => { g with st := .up }) } }

/-- Group 7 changed. -/
def grp7 (f : Grp → Grp) (s : State) : State := { s with acq := { s.acq with grp := lmod s.acq.grp 7 f } }

/-- A sensor record of source 63 with values of `v`, and its CRC. -/
def record (nv : Nat) (v : Byte) : List Byte :=
  let l := leBytes 2 0x3F01 ++ leBytes 2 nv ++ leBytes 20 7 ++ leBytes 4 5 ++ List.replicate (4 * nv) v
  l ++ leBytes 4 (crc32c l)

/-- A stamp of phase 0 issued at tick 0. -/
def stamp0 : Stamp := ⟨1, 2, 0, 0, 0⟩

/-- A register transaction of group 7 that waits for its camera. -/
def camRead : Deferred := ⟨packetOf 1 15 (.cxpRegRead 7 0 4), 0⟩

def camWrite : Deferred := ⟨packetOf 1 15 (.cxpRegWrite 7 0 [1#8]), 0⟩

/-- The four ports are up; domain 1 of TIME serves them all. -/
def wNet : State :=
  let s := withRegs ([(0xC0000, 1), (aDom 1, 0x8F010000), (aNetCtrl, 1)] ++ (List.range 4).map (fun p => (aPort p, 0x80000000))) rdy
  { s with tn := { s.tn with port := s.tn.port.map (fun p => { p with link := true }) } }

/-- Domain 1 changed. -/
def dom1 (f : Dom → Dom) (s : State) : State := { s with tn := { s.tn with dom := lmod s.tn.dom 1 f } }

/-- Port 3 changed. -/
def port3 (f : Port → Port) (s : State) : State := { s with tn := { s.tn with port := lmod s.tn.port 3 f } }

/-- A message of domain 1 on port 3. -/
def msg1 : PtpMsg := { port := 3, domain := 1, src := 9, seq := 4, ns := 999999999 }

def pend1 : PtpPend := { seq := 4, port := 3, src := 9, rx := 0, at_ := 0, corr := 0 }

/-- A task that has just started. -/
def task0 : RunTask :=
  { graph := 1, task := 0, inst := 0, start := 0, variant := 0, epoch := 0, progAddr := 1024, progLen := 4, recAddr := 0, nrec := 2,
    rclass := .classT, wcet := 0, compAddr := 0 }

/-- Die 3 runs the task in slot 47, on core 49. -/
def runs (r : RunTask) (s : State := rdy) : State :=
  let cores : List CoreS := List.replicate 52 { role := .inSlot 47 }
  { s with die := lmod s.die 3 (fun x => { x with st := .ready, run := lmod x.run 47 (fun _ => some r), core := cores }) }

def wTask : State := runs task0

/-- The program of the task stands at this instruction word. -/
def wWord (w : Nat) (r : RunTask := task0) (s : State := runs r) : State := s.csSt 3 47 1024 (leBytes 8 w)

/-- Fields of an instruction word laid out as (highest bit, lowest bit, value). -/
def wordAt (op : Nat) (fs : List InstrField) : Nat := op * 2 ^ 56 + (fs.map (fun f => f.2.2 * 2 ^ f.2.1)).sum

/-- A graph of client 15 with one task for slot 47 of die 3. -/
def entry0 (budget : Nat) : TaskEntry := { header := 0, slot := 47, repeatMax := 1, repeatBudget := budget, countAddr := 0, succ := [] }

def inst0 (budget : Nat) : TaskInst := { entry := entry0 budget, st := .ready }

def graph0 (id client budget : Nat) : GraphInst :=
  { id := id, die := 3, client := client, kind := .client, stage := 0, relSp := 0, frame := 0, tile := none,
    roleSlot := List.range 48, released := 0, tasks := [inst0 budget] }

def wGraph (gs : List GraphInst) : State :=
  ({ rdy with die := lmod rdy.die 3 (fun x => { x with st := .ready }) }).updBond (fun b => { b with graphs := gs })

/-- The value of an outcome that has one. -/
def okOf {α : Type} [Inhabited α] : Except TaskOut α → α
  | .ok a => a
  | .error _ => default

/-- The running task's core store holds a rescale record, then a tensor record of INT8 at scale 1. -/
def wRec : State := wTask.csSt 3 47 12 [0x00#8, 0x00#8, 0x80#8, 0x3F#8]

/-- The task has issued the operator at 64, whose first byte is `op`. -/
def wOper (op : Byte) : State := (runs { task0 with issued := [64] }).csSt 3 47 64 [op]

/-- A word of the core store of the task in which two bits have flipped. -/
def csFlip (a : Nat) (s : State) : State := s.updMt (fun m => { m with flips := [(s.csKey 3 47 a, 3)] })

/-- The task has issued SUPPRESS of a list of one box at 0, keeping one. -/
def wSuppress : State := (wOper 6#8).csSt 3 47 66 [1#8, 0#8, 0#8, 0#8, 0x80#8, 0x3F#8] |>.csSt 3 47 0 [1#8]

/-- The task's chain 3 stands at the descriptor at 64, of these bytes. -/
def taskC (late : Bool := false) : RunTask := { task0 with chains := [none, none, none, some ⟨64, 1, 0, late⟩] }

def wChain (late : Bool) (bs : List Byte) : State := (runs (taskC late)).csSt 3 47 64 bs

/-- COPY of `count` units of 64 bytes from Lintel to the core store. -/
def copyBytes (b1 count : Byte) (dl : Byte := 0#8) : List Byte :=
  [1#8, b1, count, 0#8, 0xC0#8, 0xFF#8, 0xFF#8, 0x0F#8, 0xC0#8, 0xFF#8, 0x1F#8, 0#8] ++ List.replicate 12 0#8 ++ [64#8] ++
    List.replicate 7 0#8 ++ [dl]

/-- A block that waits to drain. -/
def blk0 : DrainBlk := { desc := 64, array := 0, elems := [], felems := [], k := 0, escs := [] }

def wDrain (l : List DrainBlk) : State :=
  { wTask with die := lmod wTask.die 3 (fun x => { x with core := lmod x.core 49 (fun c => { c with drainQ := l }) }) }

/-- Context 0x3FFFF of die 3 is open with these flags; its home copy is the first 64 bytes of page 49152, in Lintel frame 0x700. -/
def wCtx (flags : Nat) : State :=
  let s := withRegs [(bStream 3 + 0x14, 0x40000), (aLin 3, 0x700)] rdy
  let s := s.pteSet 49152 (pteDecode (2 ^ 63 + 3 * 2 ^ 56 + 0x700))
  ((s.ctxSt 0x3FFFF 0 4 0xC0000000).ctxSt 0x3FFFF 8 2 1).ctxSt 0x3FFFF 12 1 flags

def stream3 (f : Stream → Stream) (s : State) : State := { s with stream := lmod s.stream 3 f }

/-- Sequences 4094 and 4095 of die 3 are open with one head; 4094 holds 64 positions. -/
def wSeq : State :=
  let s := withRegs [(bKv 3 + 0x18, 0xE)] rdy
  let s := [4094, 4095].foldl (fun s q => ((s.seqSt q 24 2 1).seqSt q 26 1 1).seqSt q 28 1 0x80) s
  s.seqSt 4094 0 4 64

/-- Partial 0 of the attention descriptor at 64, which names sequence 4095, has completed. -/
def taskM : RunTask := { task0 with splits := [⟨64, [], [], [0]⟩] }

/-- The window of die 3 is on and the descriptor at 64 has one query. -/
def wMerge : State :=
  let s := withRegs [(bKv 3, 1)] { wSeq with die := (runs taskM).die }
  (s.csSt 3 47 4 [0x00#8, 0x00#8, 0x80#8, 0x3F#8]).csSt 3 47 64 ([0x19#8, 0#8, 1#8, 0#8, 0xFF#8, 0x0F#8] ++ List.replicate 10 0#8 ++
    [0#8, 0#8, 0x80#8, 0x3F#8])


/-- A group of learned scales of 2^500, which is no scale. -/
def group0 : AdaptGroup :=
  { id := 1, scales := true, lr := 0#32, beta := 0#32, wd := 0#32, clip := 0#32, load := [0x43FA0000#32, 0#32], n := 2 }

/-- A group of learned scales is being committed; its masters stand at 0x1000 of die 0. -/
def wCommit : State := ({ rdy with adapt := { committing := true, changed := true, groups := [group0], base := 0x1000 } }).linSt 0 0x1000 4 0x43FA0000

/-- Quarry channel 15 changed. -/
def qch15 (f : Qch → Qch) (s : State) : State := s.updMt (fun m => { m with qch := lmod m.qch 15 f })

def burst0 : Burst := ⟨0, 1, false, none, none⟩

def move0 (w : Bool) : Move := { page := 49152, target := 2 ^ 63 + 2 ^ 58 + 3 * 2 ^ 56, kind := 0, written := w }

theorem ok_of {α : Type} [Inhabited α] {x : Except TaskOut α} (h : x.isOk = true) : x = .ok (okOf x) := by
  cases x with
  | ok a => rfl
  | error e => exact nomatch h

theorem ok_ex {α : Type} {x : Except TaskOut α} (h : x.isOk = true) : ∃ a, x = .ok a := by
  cases x with
  | ok a => exact ⟨a, rfl⟩
  | error e => exact nomatch h

theorem pair_of {α β : Type} [Inhabited β] {x : α × Except TaskOut β} (h : x.2.isOk = true) : x = (x.1, .ok (okOf x.2)) :=
  Prod.ext rfl (ok_of h)

def errIs {α : Type} (x : Except TaskOut α) (e : TaskOut) : Bool :=
  match x with
  | .ok _ => false
  | .error f => f == e

theorem err_of {α : Type} {x : Except TaskOut α} {e : TaskOut} (h : errIs x e = true) : x = .error e := by
  cases x with
  | ok a => exact nomatch h
  | error f => exact congrArg _ (eq_of_beq h)

/-- A plan with nothing in it. -/
def plan0 : Plan :=
  { freq := 800, frameBands := 1, minSpeed := 0, stageWin := [], planGraphs := [], planTasks := [], ctxs := [], seqs := [], pages := [],
    resident := [], models := [], templates := [], keystone := [], ksResult := 0, ksExpect := [], ksBands := [], variants := [],
    trailer := [], recs := [] }

def wBond (f : Bond → Bond) (s : State := rdy) : State := s.updBond f

/-- A PLAN_ADMIT that waits for its end. -/
def admit0 : Deferred := ⟨packetOf 1 15 .planAdmit, 0⟩

/-- The variants at these speeds, the speed of the line, the variant that runs and the frames it has been held. -/
def wVar (vp : List Nat) (speed : Int) (v hold : Nat) : State :=
  (wBond (fun b => { b with adm := { vp := vp }, variant := v, hold := hold })).updCourse (fun c => { c with speed := speed })

/-- The servo engine runs and axis 15 is changed. -/
def wAx (f : Axis → Axis) (l : List (Nat × Nat) := []) : State :=
  let s := withRegs l rdy
  { s with line := { s.line with running := true, base := 1, axis := lmod s.line.axis 15 f } }

/-- A problem with nothing in it, of these sizes. -/
def prob0 (nv nc : Nat) : QpProb :=
  { nv := nv, nc := nc, nu := 1, n := 1, h := [], a := [], fMat := [], lMat := [], uMat := [], f0 := [], l0 := [], u0 := [], theta := [],
    outs := [], lFac := [], dFac := [], sig := 0#32 }

/-- Controller 7 with a period of 4 ticks is changed; its deadline and phase stand in the registers. -/
def wQp (f : QpCtl → QpCtl) (cfg : Nat := 0x100040) : State :=
  let s := withRegs [(0x90000, 1), (aQp 7, cfg)] rdy
  { s with line := { s.line with running := true, base := 1, qp := lmod s.line.qp 7 (fun q => f { q with prob := some (prob0 1 1) }) } }

/-- A request for carriage 7. -/
def req0 (kind : Nat) (sp : Int := 100) : Req :=
  { kind := kind, carriage := 7, slot := 0, id := 5, sp := sp, x := 0, z := 0, y := 0, aux := 0#32, need := 0 }

/-- The planner runs and carriage 7 is changed. -/
def wCar (f : Carriage → Carriage) (s : State := rdy) : State :=
  let s := withRegs [(0xA0000, 1)] s
  { s with line := { s.line with running := true, car := lmod s.line.car 7 (fun k => f { k with st := .idle }) } }

/-- A trajectory of rest, and a batch of carriage 7. -/
def traj0 : Traj := { start := 0, arrive := 0, prims := [], target := [], inflation := 0 }

def cand0 : Cand := { traj := traj0, cost := 0, box := [] }

def batch0 (recheck replan : Bool) (cands : List Cand) : Batch :=
  { car := 7, version := 0, start := 0, ticks := 0, ts := 100, recheck := recheck, cands := cands, replan := replan }

def wBatch (b : Batch) (version : Nat := 0) : State :=
  let s := wCar (fun k => { k with queue := [req0 1] })
  { s with line := { s.line with batch := some b, version := version } }

/-- Line rules are in service with these targets marked: DAC 7 (target 23) and Course output 23 (target 79). -/
def image0 : RuleImage := { version := 1, programs := [], consts := [], digest := [] }

def wRule (f : Plumb → Plumb := fun p => p) : State :=
  (withRegs [(0xB0010, 0x3003C01), (0x80C70, 0x40000000), (aOut 23, 0x1000000)] rdy).updPlumb (fun p =>
    f { p with st := .healthy, image := some image0 })

/-- Value target 23 had a value offered when the round began. -/
def judged (f : Plumb → Plumb) : State := wRule (fun p => f { p with judge := [23] })

/-- Target `t` changed. -/
def tgt (t : Nat) (f : Target → Target) (p : Plumb) : Plumb := { p with targets := lmod p.targets t f }

def verd (t : Nat) (v : Verdict) (p : Plumb) : Plumb := { p with verdicts := lmod p.verdicts t (fun _ => v) }

def wPl (f : Plumb → Plumb) (s : State := rdy) : State := s.updPlumb (fun p => f { p with st := .healthy })

/-- Stage 8 has these watches. -/
def wStage (w : List Watch) (l : List (Nat × Nat) := []) : State :=
  wPl (fun p => { p with stages := lmod p.stages 7 (fun x => { x with watches := w }) }) (withRegs l rdy)

/-- A reference box of 32 bytes that nothing matches. -/
def ksPlan (expect : List (List Byte)) : Plan := { plan0 with ksExpect := expect }

/-- The card in a state, function 1 and 2 on. -/
def wCard (c : CardState) (f : Sdio → Sdio := fun x => x) : State := rdy.updSdio (fun x => f { x with card := c, ioe := 6 })

/-- A bulk transfer that a command waits for. -/
def bulk0 (c : HostCmd) (len n : Nat) : Inbound := { d := ⟨packetOf 1 15 c, 0⟩, len := len, n := n }

def out0 (n : Nat) : Outbound := { d := ⟨packetOf 1 15 .deviceInfo, 0⟩, bytes := List.replicate n 7#8 }

def wSd (f : Sdio → Sdio) (s : State := rdy) : State := s.updSdio f

/-- A firmware copy of one byte, version 7, signed in slot 0 with an Ed25519 key computed outside the model. -/
def fwCopy : List Byte := leBytes 129
  0x2a01c208b8b51feee7c20c04e7862b47ac0ba971417afa54081b83975d1eaff651f76e75c707165f3edb43c6012c1424b58ff404514c0ab87e8f06d9061dd83475b83155126486dc1d5f0da59b30d6e46799c04be718dd701dbe10cef3bf07a1030000000000000000000000000000000000000000000000070000000157465956

def fwKey : List Byte := leBytes 32 0xb83155126486dc1d5f0da59b30d6e46799c04be718dd701dbe10cef3bf07a103

/-- The part expects that key in slot 0. -/
def wFuse : State := rdy.updMgmt (fun m => { m with fwKeys := lmod m.fwKeys 0 (fun _ => { hash := some ((sha512 fwKey).take 32) }) })

/-- The bytes of a packet with parameters of zeros and the right CRC. -/
def frame0 (code plen client flags res : Nat) : List Byte :=
  let l := leBytes 2 code ++ leBytes 2 9 ++ leBytes 4 plen ++ leBytes 1 client ++ leBytes 1 flags ++ leBytes 2 res
  l ++ leBytes 4 (crc32c (l ++ List.replicate plen 0#8)) ++ List.replicate plen 0#8

/-- Client 3 has this many violations at tick 0. -/
def wViol (n : Nat) (s : State := rdy) : State := wSd (fun x => { x with viol := lmod x.viol 3 (fun _ => List.replicate n 0) }) s

def wMgmt (f : Mgmt → Mgmt) (s : State := rdy) : State := s.updMgmt f

/-- Channel 3 has its rows up to 256; the header of tile 127 of band 0 stands in Lintel die 3. -/
def wTile (rows : Int) : State :=
  let s := rdy.stBytes (memKey 3 (headerOff 0 3 127 + 28)) [127#8, 0#8, 3#8]
  { s with acq := { s.acq with formed := [(3, rows)] } }

/-- Test mode. -/
def wTest (f : Test → Test) (l : List (Nat × Nat) := []) : State :=
  let s := withRegs l rdy
  { s with test := f { s.test with mode := true } }

/-- The row of an opcode that has one. -/
def opOf (n : Nat) : OpRow := (opRow n).getD ⟨0, 0, 0, 1, .any, .always, 0⟩

/-! ### Witnesses -/

theorem witness_StepRunsTheFrontCommandOrIdles :
    (let c : Instr := .halt 0 0; let rest : List Instr := [.los 5 7]; let s : State := { rdy with pending := [.halt 0 0, .los 5 7] };
      s.pending = c :: rest) ∧
    (let s : State := rdy; s.pending = []) := by decide +kernel

theorem witness_EveryStepTakesItsCommandAndGoesOn :
    let s : State := { rdy with pending := [.los 5 7] }; let v : State := nextOf (step s); step s = .next v := by
  exact by rfl

theorem witness_StepKeepsTheInvariant :
    let s : State := { rdy with pending := [.los 5 7] }; let v : State := nextOf (step s); Registers.wf s.part s.regs ∧ Memory.wf s.mem ∧ s.Sized ∧
      step s = .next v := by
  exact ⟨by decide +kernel, by decide +kernel, by exact sized_of (by decide +kernel), by rfl⟩

theorem witness_EncoderInputsCountAndFault :
    (let u := wEnc.to 0; 7 < u.course.enc.length ∧ u.courseEn = true ∧ u.rfld (aEnc 7) 17 16 = 1 ∧
      filterPass (u.rfld (aEnc 7) 31 24) u.now (u.encAt 7).aAt (u.encAt 7).a true = true ∧
      filterPass (u.rfld (aEnc 7) 31 24) u.now (u.encAt 7).bAt (u.encAt 7).b false = false ∧
      ¬(u.rfld (aEnc 7) 17 16 ≠ 3 ∧ (u.encAt 7).a ≠ true ∧ (u.encAt 7).b ≠ false) ∧ (u.encAt 7).faulted = false ∧
      ((u.encAt 7).los && u.rbit (aEnc 7) 18) = false ∧ countedEdge (u.rfld (aEnc 7) 17 16) (u.encAt 7).a (u.encAt 7).b true false = some 1) ∧
    (let u := (withRegs [(aEnc 7, 0x30000)] wEnc).to 0; 7 < u.course.enc.length ∧ u.courseEn = true ∧ u.rfld (aEnc 7) 17 16 = 3 ∧
      filterPass (u.rfld (aEnc 7) 31 24) u.now (u.encAt 7).aAt (u.encAt 7).a true = true ∧
      filterPass (u.rfld (aEnc 7) 31 24) u.now (u.encAt 7).bAt (u.encAt 7).b false = false ∧ (u.encAt 7).faulted = false ∧
      false = (u.encAt 7).b ∧ dirSettled (u.rfld (aEnc 7) 31 24) u.now (u.encAt 7).bAt = true ∧
      ((u.encAt 7).los && u.rbit (aEnc 7) 18) = false ∧ countedEdge (u.rfld (aEnc 7) 17 16) (u.encAt 7).a (u.encAt 7).b true false = some (-1)) ∧
    (let u := ((withRegs [(aEnc 7, 0xFF010000)] wEnc).updEnc 7 (fun e => { e with aAt := some 0 })).to 254;
      (u.encAt 7).aAt = some 0 ∧ u.now < 0 + u.rfld (aEnc 7) 31 24) ∧
    (let u := wEnc.to 0; 7 < u.course.enc.length ∧ u.courseEn = true ∧ u.rfld (aEnc 7) 17 16 ≠ 0 ∧
      filterPass (u.rfld (aEnc 7) 31 24) u.now (u.encAt 7).aAt (u.encAt 7).a true = true ∧
      filterPass (u.rfld (aEnc 7) 31 24) u.now (u.encAt 7).bAt (u.encAt 7).b true = true ∧
      u.rfld (aEnc 7) 17 16 ≠ 3 ∧ (u.encAt 7).a ≠ true ∧ (u.encAt 7).b ≠ true) ∧
    (let u := wEncF.to 0; 7 < u.course.enc.length ∧ u.courseEn = true ∧ u.rfld (aEnc 7) 17 16 ≠ 0 ∧
      filterPass (u.rfld (aEnc 7) 31 24) u.now (u.encAt 7).aAt (u.encAt 7).a true = true ∧
      filterPass (u.rfld (aEnc 7) 31 24) u.now (u.encAt 7).bAt (u.encAt 7).b false = false ∧
      ¬(u.rfld (aEnc 7) 17 16 ≠ 3 ∧ (u.encAt 7).a ≠ true ∧ (u.encAt 7).b ≠ false) ∧ (u.encAt 7).faulted = true) ∧
    (let u := (withRegs [(aEnc 7, 0x50000)] rdy).to 0; 7 < u.course.enc.length ∧ u.rbit (aEnc 7) 18 = true ∧ (u.encAt 7).faulted = false) ∧
    (let u := wEnc.to 0; 7 < u.course.enc.length ∧ u.rbit (aEnc 7) 18 = false) := ⟨by decide +kernel, by decide +kernel, by decide +kernel, by decide +kernel, by decide +kernel, by decide +kernel, by decide +kernel⟩

theorem witness_PositionAndSpeedAreLostAndEstimated :
    (let t : Nat := 10000000; let s : State := rdy.updCourse (fun c => { c with dr := some ⟨0, 0, 0, 5⟩ }); let u := s.to t;
      let d := (⟨0, 0, 0, 5⟩ : DeadReck); u.course.dr = some d ∧ 500 * (u.regGet 0x10064).toNat ≤ u.now - d.since) ∧
    (let t : Nat := 10000000; let s : State := wEnc.updCourse (fun c => { c with zero := false }); let u := s.to t; u.courseEn = true ∧
      u.course.zero = false ∧ u.course.dr = none ∧ 500000 * max (u.rfld 0x10060 15 8) 1 ≤ u.now - u.course.lastEdge) ∧
    (let t : Nat := 500; let s : State := wEnc; let u := s.to t; u.courseEn = true) := by decide +kernel

theorem witness_LineTriggersAndOutputsAreTimed :
    (let t : Nat := 0; let g : Nat := 3; let ph : Nat := 3; let n : Int := 1; let s : State := wLg; let u := s.to t;
      let pos := (n * u.lgPitch g + u.lgOfs g ph) * 256; g < 4 ∧ g < u.course.lg.length ∧ ph < (u.lgAt g).count.length ∧ u.lgEmits g = true ∧
      ph ≤ u.rfld (aLg g) 25 24 ∧ u.course.hwmPrev < pos ∧ (∀ l, (u.lgAt g).lastPos = some l → l < pos) ∧ pos ≤ u.finePos ∧ (u.lgAt g).skip ≠ some n ∧
      (u.lgAt g).late = [] ∧ u.lgMinDone g = true) ∧
    (let t : Nat := 0; let g : Nat := 3; let ph : Nat := 3; let n : Int := 1;
      let s : State := wLg.updCourse (fun c => { c with lg := lmod c.lg 3 (fun x => { x with lastIssue := some 0 }) }); let u := s.to t;
      let pos := (n * u.lgPitch g + u.lgOfs g ph) * 256; g < 4 ∧ g < u.course.lg.length ∧ ph < (u.lgAt g).count.length ∧ u.lgEmits g = true ∧
      ph ≤ u.rfld (aLg g) 25 24 ∧ u.course.hwmPrev < pos ∧ (∀ l, (u.lgAt g).lastPos = some l → l < pos) ∧ pos ≤ u.finePos ∧ (u.lgAt g).skip ≠ some n ∧
      (u.lgAt g).late = [] ∧ u.lgMinDone g = false) ∧
    (let t : Nat := 0; let g : Nat := 3; let ph : Nat := 3; let n : Int := 1;
      let s : State := wLg.updCourse (fun c => { c with hwm := c.sp, lg := lmod c.lg 3 (fun x => { x with late := [(3, 1)] }) }); let u := s.to t;
      let l := ([] : List (Nat × Int)); g < 4 ∧ g < u.course.lg.length ∧ ph < (u.lgAt g).count.length ∧ (u.lgAt g).late = (ph, n) :: l ∧
      u.lgMinDone g = true ∧ u.lgEmits g = true ∧ u.course.reversal = false ∧ u.course.sp = u.course.hwm) ∧
    (let t : Nat := 0; let out : Nat := 23; let s : State := wLg.updCourse (fun c => { c with hwm := c.sp }); let u := s.to t;
      let w := (u.rfld (aOut out + 4) 31 16 + 1) / 2; let g := u.rfld (aOut out) 29 28; out < u.course.out.length ∧ (∀ x, u.blocked (56 + out) x = false) ∧ u.rfld (aOut out) 31 30 = 1 ∧ 0 ≤ u.lead out ∧
      u.lgEmits g = true ∧ u.course.reversal = false ∧ u.course.sp = u.course.hwm ∧
      (u.lgAt g).skip ≠ some (u.nextLine g (u.rfld (aOut out) 27 26) (u.crsAt out).early) ∧ w ≠ 0 ∧ (u.crsAt out).active = false) ∧
    (let t : Nat := 0; let out : Nat := 23;
      let s : State := (withRegs [(aOut 23 + 4, 0xC8FFFF)] wLg).updCourse (fun c => { c with out := lmod c.out 23 (fun x => { x with due := [0, 5] }) });
      let u := s.to t; let w := (u.rfld (aOut out + 4) 31 16 + 1) / 2; let d := 0; let l := [5]; out < u.course.out.length ∧ (∀ x, u.blocked (56 + out) x = false) ∧
      u.rfld (aOut out) 31 30 = 1 ∧ u.lead out < 0 ∧ (u.crsAt out).due = d :: l ∧ d ≤ u.now ∧ w ≠ 0 ∧ (u.crsAt out).active = false) ∧
    (let t : Nat := 0; let out : Nat := 23;
      let s : State := wLg.updCourse (fun c => { c with out := lmod c.out 23 (fun x => { x with active := true, until_ := some 0 }) });
      let u := s.to t; let e := 0; out < u.course.out.length ∧ (∀ x, u.blocked (56 + out) x = false) ∧ (u.crsAt out).until_ = some e ∧ e ≤ u.now) := ⟨by decide +kernel, by decide +kernel, by decide +kernel, by decide +kernel, by decide +kernel, by decide +kernel⟩

theorem witness_EventProgramsRunAndWait_1 :
    (∀ x ∈ ([(0, 0, .halt), (1, 0, .anchor), (8, 15, .signal 15), (15, 3 * 2 ^ 32 + 9, .setc 3 9), (16, 3 * 2 ^ 32 + 1, .djnz 3 1),
        (16, 2 * 2 ^ 32 + 1, .djnz 2 1), (17, 1, .jump 1), (18, 7 * 256 + 1, .ifSlow 7 1), (19, 1, .ifRev 1), (17, 2, .jump 2)] : List (Nat × Nat × ProgOp)),
      let u := (wInstr x.1 x.2.1).to 0;
      63 < u.course.prog.length ∧ u.progReady 63 = true ∧ u.progInstr 63 = x.2.2 ∧ (u.progAt 63).text.length = 2 ∧
        lget 0#32 (u.progAt 63).cnt 3 = 1#32 ∧ lget 0#32 (u.progAt 63).cnt 2 ≠ 1#32) ∧
    (let u := (wInstr 63 0).to 0; 63 < u.course.prog.length ∧ u.progReady 63 = true ∧ (u.progInstr 63).isBad = true) := ⟨by decide +kernel, by decide +kernel⟩

theorem witness_EventProgramsRunAndWait_2 :
    (∀ x ∈ ([(2, 2 ^ 48 - 5, .waitSpGe (-5)), (3, 5, .waitSpLe 5), (4, 5, .waitDsp 5), (5, 0, .waitT 0), (5, 3, .waitT 3),
        (6, 3 * 2 ^ 56 + 3 * 2 ^ 54 + 7, .waitLine 3 3 7), (6, 0, .waitLine 0 0 0), (7, 14, .waitSig 14), (7, 15, .waitSig 15)] : List (Nat × Nat × ProgOp)),
      let u := (wInstr x.1 x.2.1).to 0;
      63 < u.course.prog.length ∧ u.progReady 63 = true ∧ u.progInstr 63 = x.2.2 ∧ u.course.sig.getLsbD 14 = false ∧
        u.course.sig.getLsbD 15 = true ∧ (∀ r, r < 63 → (u.progAt r).wait = some (.sig 15) → u.progOn r = true → u.progHeld r = true)) ∧
    (let u := (wProg.updCourse (fun c => { c with prog := lmod c.prog 63 (fun p => { p with wait := some (.time 0) }) })).to 0;
      63 < u.course.prog.length ∧ u.progOn 63 = true ∧ (u.progAt 63).wait = some (.time 0) ∧ u.progHeld 63 = false ∧ u.waitHolds 63 (.time 0) = true) ∧
    (let u := (wProg.updCourse (fun c => { c with prog := lmod c.prog 63 (fun p => { p with icount := 4096 }) })).to 0;
      63 < u.course.prog.length ∧ u.progOn 63 = true ∧ 4096 ≤ (u.progAt 63).icount) := ⟨by decide +kernel, by decide +kernel, by decide +kernel⟩

theorem witness_EventProgramsDriveOutputsAndGenerators_1 :
    ∀ x ∈ ([(9, 23, .outSet 23), (10, 23, .outClr 23), (11, 23 * 2 ^ 32 + 7, .outPulse 23 7)] : List (Nat × Nat × ProgOp)),
      ∀ r ∈ [(0x3F0000, 63, 0), (0x803F0000, 63, 2), (0x3E0000, 62, 0), (0x403F0000, 63, 1)],
      let u := (withRegs [(aOut 23, r.1)] (wInstr x.1 x.2.1)).to 0;
      63 < u.course.prog.length ∧ u.progReady 63 = true ∧ 23 < u.course.out.length ∧ (∀ l, u.blocked (56 + 23) l = false) ∧
        u.rfld (aOut 23) 21 16 = r.2.1 ∧ u.rfld (aOut 23) 31 30 = r.2.2 ∧ u.progInstr 63 = x.2.2 := by decide +kernel

theorem witness_EventProgramsDriveOutputsAndGenerators_2 :
    ∀ x ∈ ([(12, 3, .lgOn 3), (13, 3, .lgOff 3), (14, 65535, .mark 65535)] : List (Nat × Nat × ProgOp)), let u := (wInstr x.1 x.2.1).to 0;
      63 < u.course.prog.length ∧ u.progReady 63 = true ∧ u.progInstr 63 = x.2.2 := by decide +kernel

theorem witness_PacketsAreLostWaitOrAreRefused :
    (let i : Instr := .clearFaultA h0; let h : Hdr := h0; let c : HostCmd := .regWrite [(wordOf 0x10048, wordOf 3)]; let s : State := State.reset;
      hostOf i = some (h, c) ∧ (s.to h.t).mgmt.st = .boot) ∧
    (let i : Instr := .clearFaultA h0; let h : Hdr := h0; let c : HostCmd := .regWrite [(wordOf 0x10048, wordOf 3)]; let s : State := wWait;
      let u := s.to h.t; hostOf i = some (h, c) ∧ u.mgmt.st ≠ .boot ∧ u.cmdUsed + (packetOf h.tag h.client c).size ≤ 65536 ∧ u.mayTake = false) ∧
    (let i : Instr := .regWrite h0 []; let h : Hdr := h0; let c : HostCmd := .regWrite []; let s : State := rdy; let u := s.to h.t;
      let p := packetOf h.tag h.client c; hostOf i = some (h, c) ∧ u.mgmt.st ≠ .boot ∧ u.sdio.cmdBuf = [] ∧ p.size ≤ 65536 ∧ u.mayTake = true ∧
      p.bad ≠ 0 ∧ u.received.limited (violClient p) = false) ∧
    (let i : Instr := .clearFaultA h0; let h : Hdr := h0; let c : HostCmd := .regWrite [(wordOf 0x10048, wordOf 3)];
      let s : State := withRegs [(0x28, 0x8000)] rdy; let u := s.to h.t; let p := packetOf h.tag h.client c; hostOf i = some (h, c) ∧
      u.mgmt.st ≠ .boot ∧ u.sdio.cmdBuf = [] ∧ p.size ≤ 65536 ∧ u.mayTake = true ∧ p.bad = 0 ∧
      (u.received.limited (violClient p) && !limitFree p.opcode) = true) ∧
    (let i : Instr := .clearFaultA h3; let h : Hdr := h3; let c : HostCmd := .regWrite [(wordOf 0x10048, wordOf 3)]; let s : State := rdy;
      let u := s.to h.t; let p := packetOf h.tag h.client c; hostOf i = some (h, c) ∧ u.mgmt.st ≠ .boot ∧ u.sdio.cmdBuf = [] ∧ p.size ≤ 65536 ∧
      u.mayTake = true ∧ p.bad = 0 ∧ (u.received.limited (violClient p) && !limitFree p.opcode) = false ∧ u.received.refusal p ≠ 0) := ⟨by decide +kernel, by decide +kernel, by decide +kernel, by decide +kernel, by decide +kernel⟩

theorem witness_SnapshotsAreTakenAndConsumed :
    (let h : Hdr := h0; let addr : Word := 0x10040#32; let s : State := rdy; let u := s.atHost h; let a := canonAddr addr.toNat;
      Carried s h (.regRead addr 1) ∧ addrOk addr.toNat = true ∧ u.addrLacks addr.toNat = false ∧ u.snaps.find? (fun p => p.1 == a) = none ∧
      absentReg u.part addr.toNat = false ∧ arrIdx a 0xC0204 0x10 4 = none) ∧
    (let h : Hdr := h0; let addr : Word := 0x10040#32; let s : State := { rdy with snaps := [(0x10040, 5#32)] }; let u := s.atHost h;
      let a := canonAddr addr.toNat; let q := 0x10040; let w := 5#32; Carried s h (.regRead addr 1) ∧ addrOk addr.toNat = true ∧
      u.addrLacks addr.toNat = false ∧ u.snaps.find? (fun p => p.1 == a) = some (q, w)) := by
  exact ⟨⟨by exact carried_of (by decide +kernel), by decide +kernel, by decide +kernel, by decide +kernel, by decide +kernel, by decide +kernel⟩,
    ⟨by exact carried_of (by decide +kernel), by decide +kernel, by decide +kernel, by decide +kernel⟩⟩

theorem witness_CourseCommandsSetThePosition_1 :
    (let h : Hdr := h0; let s : State := wEncF; let u := s.atHost h; 8 ≤ u.course.enc.length ∧ Written s h 0x10048 3 ∧
      (u.encAt u.srcA).faulted = true ∧ (u.encAt u.srcA).los = false) ∧
    (let h : Hdr := h0; let s : State := wEncF; let u := s.atHost h; 8 ≤ u.course.enc.length ∧ Written s h 0x10048 4 ∧
      (u.encAt u.srcBEnc).faulted = true ∧ (u.encAt u.srcBEnc).los = false ∧ u.bEn = true) ∧
    (let h : Hdr := h0; let s : State := withRegs [(0x10000, 0xDD)] wEncF; let u := s.atHost h; 8 ≤ u.course.enc.length ∧ Written s h 0x10048 4 ∧
      (u.encAt u.srcBEnc).faulted = true ∧ (u.encAt u.srcBEnc).los = false ∧ u.bEn = false) ∧
    (let h : Hdr := h0; let s : State := wEnc; let u := s.atHost h; Written s h 0x10048 2 ∧ u.faultA = false ∧ u.faultB = false) ∧
    (let h : Hdr := h0; let s : State := wEncF; let u := s.atHost h; Written s h 0x10048 2 ∧ (u.faultA = true ∨ u.faultB = true)) ∧
    (let h : Hdr := h0; let s : State := withRegs [(0x10040, 7)] wEnc; let u := s.atHost h; Written s h 0x10048 1 ∧ u.planRuns = false) ∧
    (let h : Hdr := h0; let s : State := wEnc.updBond (fun b => { b with st := .running }); let u := s.atHost h; Written s h 0x10048 1 ∧
      u.planRuns = true) ∧
    (let h : Hdr := h0; let s : State := wEnc.updCourse (fun c => { c with lost := some ⟨0, 5, 1⟩ }); let u := s.atHost h;
      let l := (⟨0, 5, 1⟩ : LostPos); Written s h 0x10048 5 ∧ u.course.lost = some l) := by
  exact ⟨⟨by decide +kernel, by exact written_of (by decide +kernel), by decide +kernel, by decide +kernel⟩,
    ⟨by decide +kernel, by exact written_of (by decide +kernel), by decide +kernel, by decide +kernel, by decide +kernel⟩,
    ⟨by decide +kernel, by exact written_of (by decide +kernel), by decide +kernel, by decide +kernel, by decide +kernel⟩,
    ⟨by exact written_of (by decide +kernel), by decide +kernel, by decide +kernel⟩,
    ⟨by exact written_of (by decide +kernel), by decide +kernel⟩,
    ⟨by exact written_of (by decide +kernel), by decide +kernel⟩,
    ⟨by exact written_of (by decide +kernel), by decide +kernel⟩,
    ⟨by exact written_of (by decide +kernel), by decide +kernel⟩⟩

theorem witness_CourseCommandsSetThePosition_2 :
    let h : Hdr := h0; let s : State := wEnc; let u := s.atHost h; Written s h 0x10048 5 ∧ u.course.lost = none := by
  exact ⟨by exact written_of (by decide +kernel), by decide +kernel⟩

theorem witness_CoilMarksAndProgramEnables :
    (let h : Hdr := h0; let s : State := rdy; Written s h 0x10048 6) ∧
    (let h : Hdr := h0; let s : State := rdy; let u := s.atHost h; let half : Nat := 1; let value : Word := 0xFFFFFFFF#32; half < 2 ∧
      64 ≤ u.course.prog.length ∧ Written s h (0x10800 + 4 * half) value.toNat) ∧
    (let h : Hdr := h0; let s : State := rdy; let u := s.atHost h; let prog : Nat := 63; let text : List Nat := [0]; prog < u.course.prog.length ∧
      Carried s h (.courseProgLoad prog text) ∧ u.progOn prog = false) ∧
    (let h : Hdr := h0; let s : State := wProg; let u := s.atHost h; let prog : Nat := 63; let text : List Nat := [0]; prog < u.course.prog.length ∧
      Carried s h (.courseProgLoad prog text) ∧ u.progOn prog = true) := by
  exact ⟨by exact written_of (by decide +kernel),
    ⟨by decide +kernel, by decide +kernel, by exact written_of (by decide +kernel)⟩,
    ⟨by decide +kernel, by exact carried_of (by decide +kernel), by decide +kernel⟩,
    ⟨by decide +kernel, by exact carried_of (by decide +kernel), by decide +kernel⟩⟩

theorem witness_GroupsComeUpAndGoDown_1 :
    (let t : Nat := 0; let g : Nat := 7; let s : State := grp7 (fun g => { g with st := .discovering }) wCam; let u := s.to t; g < 8 ∧
      g < u.acq.grp.length ∧ (u.grpAt g).st = .discovering) ∧
    (let t : Nat := 500000; let g : Nat := 7; let s : State := grp7 (fun g => { g with st := .down }) wCam; let u := s.to t; g < 8 ∧
      g < u.acq.grp.length ∧ u.rbit 0x20000 1 = true ∧ u.grpOn g = true ∧ ((u.grpAt g).st = .down ∨ (u.grpAt g).st = .failed) ∧
      (u.grpAt g).since + (if (u.grpAt g).retry then 500000000 else 500000) ≤ u.now ∧ u.grpCfgErr g = false) ∧
    (let t : Nat := 500000000; let g : Nat := 7; let s : State := grp7 (fun g => { g with st := .failed, retry := true }) wCam; let u := s.to t;
      g < 8 ∧ g < u.acq.grp.length ∧ u.rbit 0x20000 1 = true ∧ u.grpOn g = true ∧ ((u.grpAt g).st = .down ∨ (u.grpAt g).st = .failed) ∧
      (u.grpAt g).since + (if (u.grpAt g).retry then 500000000 else 500000) ≤ u.now ∧ u.grpCfgErr g = false) ∧
    (let t : Nat := 0; let g : Nat := 7; let s : State := wCam; let u := s.to t; g < 8 ∧ g < u.acq.grp.length ∧ (u.grpAt g).st = .up) ∧
    (let t : Nat := 0; let g : Nat := 7; let s : State := grp7 (fun g => { g with st := .down }) wCam; let u := s.to t; g < 8 ∧ g < u.acq.grp.length ∧
      (u.grpAt g).st ≠ .up) ∧
    (let t : Nat := 0; let g : Nat := 7; let s : State := wCam; let u := s.to t; g < 8 ∧ g < u.acq.grp.length ∧ g < u.nGrp ∧
      (u.grpAt g).flt = false) ∧
    (let t : Nat := 0; let g : Nat := 7; let s : State := grp7 (fun g => { g with flt := true }) wCam; let u := s.to t; g < 8 ∧
      g < u.acq.grp.length ∧ (u.grpAt g).flt = true) ∧
    (let h : Hdr := h0; let s : State := rdy; let u := s.atHost h; u.addrLacks 0x20000 = false ∧ u.restarting = false ∧ u.planRuns = false ∧
      Carried s h (.regModify 0x20000#32 1#32 1#32) ∧ u.rbit 0x20000 0 = false) := by
  exact ⟨by decide +kernel,
    by decide +kernel,
    by decide +kernel,
    by decide +kernel,
    by decide +kernel,
    by decide +kernel,
    by decide +kernel,
    ⟨by decide +kernel, by decide +kernel, by decide +kernel, by exact carried_of (by decide +kernel), by decide +kernel⟩⟩

theorem witness_GroupsComeUpAndGoDown_2 :
    let h : Hdr := h0; let s : State := wCam; let u := s.atHost h; u.addrLacks 0x20000 = false ∧ u.restarting = false ∧ u.planRuns = false ∧
      Carried s h (.regModify 0x20000#32 1#32 0#32) ∧ u.rbit 0x20000 0 = true := by
  exact ⟨by decide +kernel, by decide +kernel, by decide +kernel, by exact carried_of (by decide +kernel), by decide +kernel⟩

theorem witness_CameraPacketsAndTransactionsAreChecked_1 :
    (let u := (withRegs [(aGrp 7, 0)] wCam).to 0; u.grpOn 7 = false) ∧
    (let u := (grp7 (fun g => { g with st := .down }) wCam).to 0; u.grpUp 7 = false) ∧
    (∀ s ∈ [wCam, withRegs [(0xF0038, 0x10080)] wCam, { wCam with acq := { wCam.acq with running := false } }], let u := s.to 0;
      7 < u.acq.grp.length ∧ u.grpOn 7 = true ∧ u.grpUp 7 = true ∧ [1#8, 2#8].length ≠ u.lineBytes 7) ∧
    (let u := wCam.to 0; u.acq.running = true ∧ ¬(wbit (u.regGet 0xF0038) 7 = true ∧ u.rfld 0xF0038 31 16 ≠ 0)) ∧
    (let u := (withRegs [(0xF0038, 0x10080)] wCam).to 0; u.acq.running = true ∧ wbit (u.regGet 0xF0038) 7 = true ∧ u.rfld 0xF0038 31 16 ≠ 0) ∧
    (let u := ({ wCam with acq := { wCam.acq with running := false } } : State).to 0; u.acq.running = false ∧ (List.replicate 16384 1#8).length = u.lineBytes 7) ∧
    (let u := (withRegs [(aGrp 7, 0x80FF0000)] wCam).to 0; 7 < u.acq.grp.length ∧ u.grpOn 7 = true ∧ u.grpUp 7 = true ∧ u.acq.running = true ∧
      (u.grpAt 7).left = 0 ∧ 256 = u.rfld (aGrp 7) 23 16 + 1 ∧ (u.grpAt 7).expTag = none) ∧
    (let u := (grp7 (fun g => { g with expTag := some 65535 }) wCam).to 0; 7 < u.acq.grp.length ∧ u.grpOn 7 = true ∧ u.grpUp 7 = true ∧
      u.acq.running = true ∧ (u.grpAt 7).left = 0 ∧ 1 = u.rfld (aGrp 7) 23 16 + 1 ∧ (u.grpAt 7).expTag = some (65535 % 65536)) ∧
    (let u := (grp7 (fun g => { g with expTag := some 1 }) wCam).to 0; 7 < u.acq.grp.length ∧ u.grpOn 7 = true ∧ u.grpUp 7 = true ∧
      u.acq.running = true ∧ (u.grpAt 7).left = 0 ∧ 1 = u.rfld (aGrp 7) 23 16 + 1 ∧ (u.grpAt 7).expTag = some 1 ∧ 32768 ≤ (65535 + 65536 - 1) % 65536) ∧
    (let u := wCam.to 0; 7 < u.acq.grp.length ∧ u.grpOn 7 = true ∧ u.grpUp 7 = true ∧ u.acq.running = true ∧ 6 ≠ u.rfld (aGrp 7) 23 16 + 1) ∧
    (let u := (grp7 (fun g => { g with left := 1 }) wCam).to 0; 7 < u.acq.grp.length ∧ u.grpOn 7 = true ∧ u.grpUp 7 = true ∧
      u.acq.running = true ∧ (u.grpAt 7).left ≠ 0) ∧
    (let u := (grp7 (fun g => { g with ctrl := some 5 }) wCam).to 0; 7 < u.acq.grp.length ∧ u.grpOn 7 = true ∧ u.grpUp 7 = true ∧
      (u.grpAt 7).ctrl = some 5) ∧
    (let u := ((grp7 (fun g => { g with ctrl := some 5 }) wCam).updSdio (fun x => { x with deferred := [camRead] })).to 0;
      (u.grpAt 7).ctrl = some 5 ∧ u.sdio.deferred = [camRead] ∧ camRead.pkt.cmd = .cxpRegRead 7 0 4 ∧ u.mgmt.resetAt = none) := ⟨by decide +kernel, by decide +kernel, by decide +kernel, by decide +kernel, by decide +kernel, by decide +kernel, by decide +kernel, by decide +kernel, by decide +kernel, by decide +kernel, by decide +kernel, by decide +kernel, by decide +kernel⟩

theorem witness_CameraPacketsAndTransactionsAreChecked_2 :
    (∀ pkt ∈ ([⟨false, .header 5 6⟩, ⟨false, .event []⟩, ⟨true, .unknown⟩, ⟨true, .ack 4 []⟩] : List CxpPkt),
      let u := (grp7 (fun g => { g with ctrl := some 5 }) wCam).to 0;
      7 < u.acq.grp.length ∧ u.grpOn 7 = true ∧ u.grpUp 7 = true ∧ (u.grpAt 7).ctrl ≠ some 4) ∧
    (let u := wCam.atHost h0; 7 < u.nGrp ∧ 7 < u.acq.grp.length ∧ u.deferredCnt < 8 ∧ u.grpUp 7 = true ∧ (u.grpAt 7).ctrl = none ∧
      Carried wCam h0 (.cxpRegRead 7 0 4) ∧ Carried wCam h0 (.cxpRegWrite 7 0 [1#8, 2#8, 3#8, 4#8])) ∧
    (∀ d ∈ [camRead, camWrite], let u := (wCam.updSdio (fun x => { x with deferred := [d] })).to 50000000;
      7 < u.nGrp ∧ 7 < u.acq.grp.length ∧ u.sdio.deferred = [d] ∧ d.pkt.client = 15 ∧ d.pkt.tag = 1 ∧ d.at_ + 50000000 ≤ u.now ∧ u.mgmt.resetAt = none) ∧
    (let u := wCam.atHost h0; 7 < u.nGrp ∧ 0 < 16384 ∧ 16384 ≤ u.linePixels 7 ∧ u.deferredCnt < 8 ∧ u.sdio.inAct = none ∧ u.sdio.inQ = [] ∧
      Carried wCam h0 (.flatLoad 7 3 16384) ∧ Carried wCam h0 (.projLoad 7 16384)) := by
  exact ⟨by decide +kernel, ⟨by decide +kernel, by decide +kernel, by decide +kernel, by decide +kernel, by decide +kernel,
      by exact carried_of (by decide +kernel), by exact carried_of (by decide +kernel)⟩, by decide +kernel,
    ⟨by decide +kernel, by decide +kernel, by decide +kernel, by decide +kernel, by decide +kernel, by decide +kernel,
      by exact carried_of (by decide +kernel), by exact carried_of (by decide +kernel)⟩⟩

theorem witness_LinesArePairedWithStamps :
    (7 < wCam.acq.grp.length ∧ (wCam.grpAt 7).stamps = []) ∧
    (let s : State := grp7 (fun g => { g with stamps := [stamp0] }) wCam;
      7 < s.acq.grp.length ∧ (s.grpAt 7).stamps = stamp0 :: [] ∧ s.phChan 7 stamp0.phase = none ∧
      stamp0.issued + 500 * ((s.to 50000).regGet (aGrp 7 + 16)).toNat ≤ (s.to 50000).now ∧
      (s.to 49999).now < stamp0.issued + 500 * ((s.to 49999).regGet (aGrp 7 + 16)).toNat) ∧
    (let s : State := { withRegs [(0xF0038, 0x50080)] wCam with acq := { wCam.acq with heldLines := [(7, true, [1#8], 0)] } }; let u := s.to 2500;
      u.acq.heldLines = (7, true, [1#8], 0) :: [] ∧ 0 + (if wbit (u.regGet 0xF0038) 7 then 500 * fld (u.regGet 0xF0038) 31 16 else 0) = u.now) ∧
    (let s : State := { withRegs [(0xF003C, 5), (0xF0044, 0x80000000)] wCam with acq := { wCam.acq with heldRecs := [(63, ⟨0, 0, [], 0, 1⟩, false, 0)] } }
      let u := s.to 2500;
      u.acq.heldRecs = (63, ⟨0, 0, [], 0, 1⟩, false, 0) :: [] ∧
      0 + (if wbit (u.regGet (0xF0040 + 4 * (63 / 32))) (63 % 32) then 500 * u.rfld 0xF003C 23 0 else 0) = u.now) := ⟨by decide +kernel, by decide +kernel, by decide +kernel, by decide +kernel⟩

theorem witness_SensorRecordsAreChecked_1 :
    (let t : Nat := 0; let port : Nat := 3; let bytes : List Byte := [1#8, 63#8]; let s : State := wNet; let u := s.to t; let n := leAt bytes 1 1;
      port < 4 ∧ u.portUp port = true ∧ u.mgmt.pow ≠ .hold ∧ u.srcOn n = false) ∧
    (let t : Nat := 0; let port : Nat := 3; let bytes : List Byte := [2#8, 63#8]; let s : State := withRegs [(aSrc 63, 0x80000000)] wNet;
      let u := s.to t; let n := leAt bytes 1 1; port < 4 ∧ u.portUp port = true ∧ u.mgmt.pow ≠ .hold ∧ u.srcOn n = true ∧
      (leAt bytes 0 1 ≠ 1 ∨ bytes.length ≠ 32 + 4 * leAt bytes 2 2 ∨ crc32c (bytes.take (bytes.length - 4)) ≠ leAt bytes (bytes.length - 4) 4)) ∧
    (let t : Nat := 0; let port : Nat := 3; let bytes : List Byte := [1#8, 63#8]; let s : State := withRegs [(aSrc 63, 0x80000000)] wNet;
      let u := s.to t; let n := leAt bytes 1 1; port < 4 ∧ u.portUp port = true ∧ u.mgmt.pow ≠ .hold ∧ u.srcOn n = true ∧
      (leAt bytes 0 1 ≠ 1 ∨ bytes.length ≠ 32 + 4 * leAt bytes 2 2 ∨ crc32c (bytes.take (bytes.length - 4)) ≠ leAt bytes (bytes.length - 4) 4)) ∧
    (let t : Nat := 0; let port : Nat := 3; let bytes : List Byte := [1#8, 63#8, 1#8] ++ List.replicate 33 0#8;
      let s : State := withRegs [(aSrc 63, 0x80000000)] wNet; let u := s.to t; let n := leAt bytes 1 1; port < 4 ∧ u.portUp port = true ∧
      u.mgmt.pow ≠ .hold ∧ u.srcOn n = true ∧
      (leAt bytes 0 1 ≠ 1 ∨ bytes.length ≠ 32 + 4 * leAt bytes 2 2 ∨ crc32c (bytes.take (bytes.length - 4)) ≠ leAt bytes (bytes.length - 4) 4)) := by decide +kernel

theorem witness_SensorRecordsAreChecked_2 :
    ∀ x ∈ ([(0, 0x80000000, 0), (16, 0x80000000, 0), (16, 0x80000000, 5), (17, 0x84000000, 0)] : List (Nat × Nat × Nat)),
      let bytes := record x.1 1#8; let u := (withRegs [(aSrc 63, x.2.1), (0xF003C, x.2.2), (0xF0044, 0x80000000)] wNet).to 0;
      let time : Int := (u.local : Int) - ((u.clkSel (1 + u.rfld (aSrc 63) 28 28) : Int) -
        (((leAt bytes 8 8 % 2 ^ 48) * 1000000000 + leAt bytes 16 4) * 2 ^ 32 : Nat));
      leAt bytes 1 1 = 63 ∧ leAt bytes 2 2 = x.1 ∧ u.portUp 3 = true ∧ u.mgmt.pow ≠ .hold ∧ 63 < u.acq.src.length ∧ u.srcOn 63 = true ∧
        leAt bytes 0 1 = 1 ∧ bytes.length = 32 + 4 * x.1 ∧ crc32c (bytes.take (bytes.length - 4)) = leAt bytes (bytes.length - 4) 4 ∧
        leAt bytes 16 4 < 1000000000 ∧ (if u.rbit (aSrc 63) 26 then x.1 ≤ 256 ∧ leAt bytes 24 4 ≠ 0 else x.1 ≤ 16) ∧
        time ≤ (u.local : Int) + 1000000 * 2 ^ 32 ∧ 
        (((List.range x.1).map (fun i => wordOf (leAt bytes (28 + 4 * i) 4))).all (fun w => fld w 30 23 != 255)) = true ∧
        ((wbit (u.regGet (0xF0040 + 4 * (63 / 32))) (63 % 32) = true ∧ u.rfld 0xF003C 23 0 ≠ 0) ↔ x.2.2 = 5) := by decide +kernel

theorem witness_ClockDomainsFollowTheirMasters_1 :
    (let m : PtpMsg := msg1; let s : State := rdy; m.port < 4 ∧ s.portUp m.port = false) ∧
    (let m : PtpMsg := { msg1 with domain := 2 }; let s : State := wNet; m.port < 4 ∧ s.portUp m.port = true ∧
      (∀ d, d < 2 → s.domOn d m.port = true → s.rfld (aDom d) 23 16 ≠ m.domain)) ∧
    (let m : PtpMsg := { msg1 with version := 1 }; let s : State := wNet; let d := 1; m.port < 4 ∧ s.portUp m.port = true ∧ d < 2 ∧
      s.domOn d m.port = true ∧ s.rfld (aDom d) 23 16 = m.domain ∧ (∀ e, e < d → s.domOn e m.port = true → s.rfld (aDom e) 23 16 ≠ m.domain) ∧
      (m.version ≠ 2 ∨ m.lenOk = false ∨ 1000000000 ≤ m.ns)) ∧
    (let m : PtpMsg := { msg1 with lenOk := false }; let s : State := wNet; let d := 1; m.port < 4 ∧ s.portUp m.port = true ∧ d < 2 ∧
      s.domOn d m.port = true ∧ s.rfld (aDom d) 23 16 = m.domain ∧ (∀ e, e < d → s.domOn e m.port = true → s.rfld (aDom e) 23 16 ≠ m.domain) ∧
      (m.version ≠ 2 ∨ m.lenOk = false ∨ 1000000000 ≤ m.ns)) ∧
    (let m : PtpMsg := { msg1 with ns := 1000000000 }; let s : State := wNet; let d := 1; m.port < 4 ∧ s.portUp m.port = true ∧ d < 2 ∧
      s.domOn d m.port = true ∧ s.rfld (aDom d) 23 16 = m.domain ∧ (∀ e, e < d → s.domOn e m.port = true → s.rfld (aDom e) 23 16 ≠ m.domain) ∧
      (m.version ≠ 2 ∨ m.lenOk = false ∨ 1000000000 ≤ m.ns)) ∧
    (let m : PtpMsg := msg1; let s : State := wNet; let d := 1; m.port < 4 ∧ s.portUp m.port = true ∧ d < 2 ∧ s.domOn d m.port = true ∧
      s.rfld (aDom d) 23 16 = m.domain ∧ (∀ e, e < d → s.domOn e m.port = true → s.rfld (aDom e) 23 16 ≠ m.domain) ∧ m.version = 2 ∧ m.lenOk = true ∧
      m.ns < 1000000000) ∧
    (let t : Nat := 0; let d : Nat := 1; let m : PtpMsg := msg1; let s : State := wNet; let w : State := ((s.to t).ptpIn m).1;
      (s.to t).ptpIn m = (w, some d) ∧ d < w.tn.dom.length ∧ d < 2 ∧ (w.domAt d).master = none) ∧
    (let t : Nat := 0; let d : Nat := 1; let m : PtpMsg := { msg1 with twoStep := true };
      let s : State := dom1 (fun d => { d with master := some (9, 3) }) wNet; let w : State := ((s.to t).ptpIn m).1; (s.to t).ptpIn m = (w, some d) ∧
      d < w.tn.dom.length ∧ d < 2 ∧ w.fromMaster d m = true ∧ m.twoStep = true) := ⟨by decide +kernel, by decide +kernel, by decide +kernel, by decide +kernel, by decide +kernel, by decide +kernel, by decide +kernel, by decide +kernel⟩

theorem witness_ClockDomainsFollowTheirMasters_2 :
    (let t : Nat := 0; let d : Nat := 1; let m : PtpMsg := msg1; let s : State := dom1 (fun d => { d with master := some (9, 3) }) wNet;
      let w : State := ((s.to t).ptpIn m).1; (s.to t).ptpIn m = (w, some d) ∧ d < w.tn.dom.length ∧ d < 2 ∧ w.fromMaster d m = true ∧
      m.twoStep = false) ∧
    (let t : Nat := 0; let d : Nat := 1; let m : PtpMsg := msg1; let s : State := dom1 (fun d => { d with master := some (8, 3) }) wNet;
      let w : State := ((s.to t).ptpIn m).1; (s.to t).ptpIn m = (w, some d) ∧ d < w.tn.dom.length ∧ d < 2 ∧ w.fromMaster d m = false) ∧
    (let t : Nat := 500000000; let d : Nat := 1; let m : PtpMsg := msg1; let s : State := dom1 (fun d => { d with pendSync := some pend1 }) wNet;
      let w : State := ((s.to t).ptpIn m).1; let p := pend1; (s.to t).ptpIn m = (w, some d) ∧ d < w.tn.dom.length ∧ d < 2 ∧
      ptpMatch (w.domAt d).pendSync m w.now = some p) ∧
    (let t : Nat := 0; let d : Nat := 1; let m : PtpMsg := msg1; let s : State := dom1 (fun d => { d with reqTx := some 5, reqSeq := 4 }) wNet;
      let w : State := ((s.to t).ptpIn m).1; let tx := 5; (s.to t).ptpIn m = (w, some d) ∧ d < w.tn.dom.length ∧ d < 2 ∧ (w.domAt d).reqTx = some tx ∧
      (w.domAt d).reqSeq = m.seq ∧ w.rbit (aDom d) 29 = false) ∧
    (let t : Nat := 0; let d : Nat := 1; let m : PtpMsg := msg1;
      let s : State := dom1 (fun d => { d with reqTx := some 5, reqSeq := 4 }) (withRegs [(aDom 1, 0xAF010000)] wNet);
      let w : State := ((s.to t).ptpIn m).1; let tx := 5; (s.to t).ptpIn m = (w, some d) ∧ d < w.tn.dom.length ∧ d < 2 ∧ (w.domAt d).reqTx = some tx ∧
      (w.domAt d).reqSeq = m.seq ∧ w.rbit (aDom d) 29 = true ∧ m.twoStep = false) ∧
    (let t : Nat := 0; let d : Nat := 1; let m : PtpMsg := { msg1 with twoStep := true };
      let s : State := dom1 (fun d => { d with reqTx := some 5, reqSeq := 4 }) (withRegs [(aDom 1, 0xAF010000)] wNet);
      let w : State := ((s.to t).ptpIn m).1; let tx := 5; (s.to t).ptpIn m = (w, some d) ∧ d < w.tn.dom.length ∧ d < 2 ∧ (w.domAt d).reqTx = some tx ∧
      (w.domAt d).reqSeq = m.seq ∧ w.rbit (aDom d) 29 = true ∧ m.twoStep = true) ∧
    (let t : Nat := 500000000; let d : Nat := 1; let m : PtpMsg := msg1;
      let s : State := dom1 (fun d => { d with pendPdelay := some pend1, reqTx := some 5 }) wNet; let w : State := ((s.to t).ptpIn m).1;
      let p := pend1; let tx := 5; (s.to t).ptpIn m = (w, some d) ∧ d < w.tn.dom.length ∧ d < 2 ∧ ptpMatch (w.domAt d).pendPdelay m w.now = some p ∧
      (w.domAt d).reqTx = some tx) ∧
    (let t : Nat := 0; let d : Nat := 1; let m : PtpMsg := msg1; let s : State := wNet; let w : State := ((s.to t).ptpIn m).1;
      (s.to t).ptpIn m = (w, some d) ∧ d < w.tn.dom.length ∧ d < 2 ∧ w.portSends m.port = true) := ⟨by decide +kernel, by decide +kernel, by decide +kernel, by decide +kernel, by decide +kernel, by decide +kernel, by decide +kernel, by decide +kernel⟩

theorem witness_ClockDomainsFollowTheirMasters_3 :
    (let t : Nat := 8000000000; let d : Nat := 1; let s : State := dom1 (fun d => { d with st := .acquiring }) wNet; let u := s.to t; d < 2 ∧
      2 ≤ u.tn.dom.length ∧ ((u.domAt d).st = .acquiring ∨ (u.domAt d).st = .locked) ∧ (u.domAt d).lastSync + 16 * u.syncTicks d ≤ u.now) ∧
    (let t : Nat := 8000000000; let d : Nat := 1; let s : State := dom1 (fun d => { d with st := .locked }) wNet; let u := s.to t; d < 2 ∧
      2 ≤ u.tn.dom.length ∧ ((u.domAt d).st = .acquiring ∨ (u.domAt d).st = .locked) ∧ (u.domAt d).lastSync + 16 * u.syncTicks d ≤ u.now) ∧
    (let t : Nat := 0; let d : Nat := 1; let s : State := dom1 (fun d => { d with master := some (9, 3) }) wNet; let u := s.to t; let src := 9;
      let port := 3; d < 2 ∧ 2 ≤ u.tn.dom.length ∧ (u.domAt d).master = some (src, port) ∧ u.domOn d port = true ∧ u.portSends port = true) ∧
    (let t : Nat := 0; let d : Nat := 1; let s : State := dom1 (fun d => { d with st := .locked, master := some (9, 3) }) wNet; let u := s.to t;
      let src := 9; let mp := 3; let p := 2; d < 2 ∧ 2 ≤ u.tn.dom.length ∧ (u.domAt d).st = .locked ∧ (u.domAt d).master = some (src, mp) ∧ p < 4 ∧
      p ≠ mp ∧ u.domOn d p = true ∧ u.portSends p = true) := by decide +kernel

theorem witness_LocalTimePulsesAndCaptures_1 :
    (let t : Nat := 0; let n : Nat := 7;
      let s : State := ({ withRegs [(aTpo 7, 0x80000000), (aTpo 7 + 16, 1)] wNet with tn := { wNet.tn with tpo := lmod wNet.tn.tpo 7 (fun x => { x with next := some 0 }) } });
      let u := s.to t; let x := 0; n < 8 ∧ n < u.tn.tpo.length ∧ (u.tpoAt n).next = some x ∧ u.rbit (aTpo n) 31 = true ∧ u.tpoCfgErr n = false ∧
      (u.regGet (aTpo n + 16)).toNat ≠ 0 ∧ x ≤ u.selNs (u.rfld (aTpo n) 29 28)) ∧
    (let t : Nat := 0; let n : Nat := 7;
      let s : State := ({ wNet with tn := { wNet.tn with tpo := lmod wNet.tn.tpo 7 (fun x => { x with active := true, endAt := some 0 }) } });
      let u := s.to t; let e := 0; n < u.tn.tpo.length ∧ (u.tpoAt n).endAt = some e ∧ e ≤ u.now) ∧
    (let t : Nat := 0; let n : Nat := 3; let s : State := withRegs [(aCap 3, 0x80000000)] wNet; let u := s.to t; n < 4 ∧ n < u.tn.tcap.length ∧
      u.rbit (aCap n) 31 = true ∧ u.mgmt.pow ≠ .standby ∧ (u.tcapAt n).fifo.length < 16) ∧
    (let t : Nat := 0; let n : Nat := 3; let s : State := let s := withRegs [(aCap 3, 0x80000000)] wNet;
      { s with tn := { s.tn with tcap := lmod s.tn.tcap 3 (fun x => { x with fifo := List.replicate 16 (1, 2) }) } }; let u := s.to t; n < 4 ∧
      n < u.tn.tcap.length ∧ u.rbit (aCap n) 31 = true ∧ u.mgmt.pow ≠ .standby ∧ 16 ≤ (u.tcapAt n).fifo.length) ∧
    (let n : Nat := 3; let h : Hdr := h0;
      let s : State := { wNet with tn := { wNet.tn with tcap := lmod wNet.tn.tcap 3 (fun x => { x with fifo := [(5, 6)] }) } }; let x := s.atHost h;
      let a := 0xC0204 + 0x10 * n; let sec := 5; let ns := 6; let l := ([] : List (Nat × Nat)); n < 4 ∧ n < x.tn.tcap.length ∧
      Carried s h (.regRead (wordOf a) 1) ∧ x.addrLacks a = false ∧ x.snaps.find? (fun p => p.1 == a) = none ∧ (x.tcapAt n).fifo = (sec, ns) :: l) ∧
    (let n : Nat := 3; let h : Hdr := h0; let s : State := wNet; let x := s.atHost h; let a := 0xC0204 + 0x10 * n; n < 4 ∧ n < x.tn.tcap.length ∧
      Carried s h (.regRead (wordOf a) 1) ∧ x.addrLacks a = false ∧ x.snaps.find? (fun p => p.1 == a) = none ∧ (x.tcapAt n).fifo = []) ∧
    (let h : Hdr := h0; let s : State := wNet; let u := s.atHost h; let d := 1; let ns := (u.regGet (aDom d + 48)).toNat; d < 2 ∧
      Written s h 0xC0010 (d + 1) ∧ u.planRuns = false ∧ ns < 1000000000) ∧
    (let h : Hdr := h0; let s : State := wNet; let u := s.atHost h; let d := 0; let ns := (u.regGet (aDom d + 48)).toNat; d < 2 ∧
      Written s h 0xC0010 (d + 1) ∧ u.planRuns = false ∧ ns < 1000000000) := by
  exact ⟨by decide +kernel,
    by decide +kernel,
    by decide +kernel,
    by decide +kernel,
    ⟨by decide +kernel, by decide +kernel, by exact carried_of (by decide +kernel), by decide +kernel, by decide +kernel, by decide +kernel⟩,
    ⟨by decide +kernel, by decide +kernel, by exact carried_of (by decide +kernel), by decide +kernel, by decide +kernel, by decide +kernel⟩,
    ⟨by decide +kernel, by exact written_of (by decide +kernel), by decide +kernel, by decide +kernel⟩,
    ⟨by decide +kernel, by exact written_of (by decide +kernel), by decide +kernel, by decide +kernel⟩⟩

theorem witness_LocalTimePulsesAndCaptures_2 :
    (let h : Hdr := h0; let s : State := wNet.updBond (fun b => { b with st := .running }); let u := s.atHost h; let d := 1; d < 2 ∧
      Written s h 0xC0010 (d + 1) ∧ u.planRuns = true) ∧
    (let h : Hdr := h0; let s : State := withRegs [(aDom 1 + 48, 1000000000)] wNet; let u := s.atHost h; let d := 1;
      let ns := (u.regGet (aDom d + 48)).toNat; d < 2 ∧ Written s h 0xC0010 (d + 1) ∧ u.planRuns = false ∧ 1000000000 ≤ ns) ∧
    (let h : Hdr := h0; let s : State := wNet; Carried s h .timeRead) ∧
    (let h : Hdr := h0; let s : State := wNet; Written s h 0xC0010 3) ∧
    (let h : Hdr := h0; let s : State := wNet; Written s h 0xD0010 1) := by
  exact ⟨⟨by decide +kernel, by exact written_of (by decide +kernel), by decide +kernel⟩,
    ⟨by decide +kernel, by exact written_of (by decide +kernel), by decide +kernel, by decide +kernel⟩,
    by exact carried_of (by decide +kernel),
    by exact written_of (by decide +kernel),
    by exact written_of (by decide +kernel)⟩

theorem witness_PortsCarryArpIcmpAndRecords_1 :
    (let t : Nat := 0; let port : Nat := 3; let up : Bool := false; let s : State := wNet; let u := s.to t; port < 4 ∧ port < u.tn.port.length ∧
      u.hasPort port = true ∧ (u.portAt port).link ≠ up ∧ (up = false ∨ (u.mgmt.ethclk = true ∧ u.mgmt.st ≠ .boot ∧ u.mgmt.pow ≠ .standby))) ∧
    (let t : Nat := 0; let port : Nat := 3; let up : Bool := true; let s : State := port3 (fun p => { p with link := false }) wNet; let u := s.to t;
      port < 4 ∧ port < u.tn.port.length ∧ u.hasPort port = true ∧ (u.portAt port).link ≠ up ∧ (up = false ∨ (u.mgmt.ethclk = true ∧
      u.mgmt.st ≠ .boot ∧ u.mgmt.pow ≠ .standby))) ∧
    (let t : Nat := 0; let port : Nat := 3; let up : Bool := true;
      let s : State := (port3 (fun p => { p with link := false }) wNet).updMgmt (fun m => { m with ethclk := false }); let u := s.to t; port < 4 ∧
      port < u.tn.port.length ∧ u.hasPort port = true ∧ (u.portAt port).link ≠ up ∧ up = true ∧
      (u.mgmt.ethclk = false ∨ u.mgmt.st = .boot ∨ u.mgmt.pow = .standby)) ∧
    (let t : Nat := 0; let port : Nat := 3; let up : Bool := true;
      let s : State := (port3 (fun p => { p with link := false }) wNet).updMgmt (fun m => { m with st := .boot }); let u := s.to t; port < 4 ∧
      port < u.tn.port.length ∧ u.hasPort port = true ∧ (u.portAt port).link ≠ up ∧ up = true ∧
      (u.mgmt.ethclk = false ∨ u.mgmt.st = .boot ∨ u.mgmt.pow = .standby)) ∧
    (let t : Nat := 0; let port : Nat := 3; let up : Bool := true;
      let s : State := (port3 (fun p => { p with link := false }) wNet).updMgmt (fun m => { m with pow := .standby }); let u := s.to t; port < 4 ∧
      port < u.tn.port.length ∧ u.hasPort port = true ∧ (u.portAt port).link ≠ up ∧ up = true ∧
      (u.mgmt.ethclk = false ∨ u.mgmt.st = .boot ∨ u.mgmt.pow = .standby)) ∧
    (let t : Nat := 0; let port : Nat := 3; let s : State := wNet; let u := s.to t; port < 4 ∧ port < u.tn.port.length ∧ u.portUp port = true) ∧
    (let t : Nat := 0; let port : Nat := 3; let s : State := wNet; let u := s.to t; port < 4 ∧ port < u.tn.port.length ∧ u.portSends port = true) ∧
    (let t : Nat := 0; let port : Nat := 3; let bytes : List Byte := List.replicate 1472 7#8; let s : State := wNet; let u := s.to t; port < 4 ∧
      port < u.tn.port.length ∧ u.portSends port = true ∧ (u.portAt port).icmp = 0 ∧ bytes.length ≤ 1472) := ⟨by decide +kernel, by decide +kernel, by decide +kernel, by decide +kernel, by decide +kernel, by decide +kernel, by decide +kernel, by decide +kernel⟩

theorem witness_PortsCarryArpIcmpAndRecords_2 :
    (let t : Nat := 0; let port : Nat := 3; let s : State := wNet; let u := s.to t; port < 4 ∧ port < u.tn.port.length ∧ u.portUp port = true) ∧
    (let t : Nat := 0; let port : Nat := 3; let bytes : List Byte := List.replicate 1473 7#8; let s : State := wNet; let u := s.to t; port < 4 ∧
      port < u.tn.port.length ∧ u.portUp port = true ∧ 1472 < bytes.length) ∧
    (let t : Nat := 500000000; let port : Nat := 3; let ip : Nat := 0x0A000001;
      let s : State := port3 (fun p => { p with resolving := [⟨0x0A000001, 4, 0⟩] }) wNet; let u := s.to t; let w := (⟨0x0A000001, 4, 0⟩ : ArpWait);
      port < 4 ∧ port < u.tn.port.length ∧ (u.portAt port).resolving = [w] ∧ w.ip = ip ∧ w.at_ + 500000000 ≤ u.now ∧ 4 ≤ w.tries) ∧
    (let t : Nat := 500000000; let port : Nat := 3; let ip : Nat := 0x0A000001;
      let s : State := port3 (fun p => { p with resolving := [⟨0x0A000001, 3, 0⟩] }) wNet; let u := s.to t; let w := (⟨0x0A000001, 3, 0⟩ : ArpWait);
      port < 4 ∧ port < u.tn.port.length ∧ (u.portAt port).resolving = [w] ∧ w.ip = ip ∧ w.at_ + 500000000 ≤ u.now ∧ w.tries < 4 ∧
      u.portSends port = true) ∧
    (let t : Nat := 50000; let stream : Nat := 3; let s : State := let s := withRegs [(aDst 3, 0xB0000000)] wNet;
      { s with tn := { s.tn with dst := lmod s.tn.dst 3 (fun d => { d with buf := [[1#8, 2#8]] }) } }; let u := s.to t; let d := u.dstAt stream;
      let us := if u.rfld (aDst stream) 15 0 = 0 then 100 else u.rfld (aDst stream) 15 0; stream < 4 ∧ stream < u.tn.dst.length ∧ d.buf ≠ [] ∧
      d.first + 500 * us ≤ u.now ∧ u.portSends (u.dstPort stream) = true ∧ fitRecs (u.dstRoom stream) d.buf.length d.buf ≠ []) ∧
    (let t : Nat := 50000; let stream : Nat := 3; let s : State := let s := withRegs [(aDst 3, 0xB0000000), (aPort 3, 0)] wNet;
      { s with tn := { s.tn with dst := lmod s.tn.dst 3 (fun d => { d with buf := [[1#8, 2#8]] }) } }; let u := s.to t; let d := u.dstAt stream;
      let us := if u.rfld (aDst stream) 15 0 = 0 then 100 else u.rfld (aDst stream) 15 0; stream < 4 ∧ stream < u.tn.dst.length ∧ d.buf ≠ [] ∧
      d.first + 500 * us ≤ u.now ∧ u.portUp (u.dstPort stream) = false) ∧
    (let t : Nat := 50000000; let s : State := wNet; let u := s.to t; u.rfld 0xD001C 15 0 ≠ 0 ∧ u.mgmt.pow ≠ .standby ∧
      u.tn.lastHb + 500000 * u.rfld 0xD001C 15 0 ≤ u.now ∧ 7 < u.tn.tseq.length) ∧
    (let t : Nat := 0; let s : State := withRegs [(0xD003C, 1)] wNet; let u := s.to t; let die := 3; die < 4 ∧
      wbit (u.regGet (0xD0030 + 4 * die)) 0 = true) := ⟨by decide +kernel, by decide +kernel, by decide +kernel, by decide +kernel, by decide +kernel, by decide +kernel, by decide +kernel, by decide +kernel⟩

theorem witness_TaskProgramsRun_1 :
    let t : Nat := 0; let d : Nat := 3; let i : Nat := 47
    let ok (r : RunTask) (s : State) : Prop := (s.to t).live d i = some r ∧ (s.to t).changing = none
    let stands (s : State) (r : RunTask) (op : Nat) (fs : List InstrField) : Prop :=
      isInstr ((s.to t).instrWord d i r) op fs = true ∧ r.icount < 2 ^ 24
    let at_ (op : Nat) (fs : List InstrField) (r : RunTask := task0) : State := wWord (wordAt op fs) r
    let rEnd : RunTask := { task0 with icount := 2 ^ 24 }
    let rLoop : RunTask := { task0 with loops := [0#32, 0#32, 0#32, 1#32] }
    let rBusy : RunTask := { task0 with issued := [64] }
    let rPast : RunTask := { task0 with pc := 2000 }
    (ok task0 (at_ 0x3C []) ∧ opReserved (((at_ 0x3C []).to t).instrWord d i task0 / 2 ^ 56) = true) ∧
    (ok task0 (at_ 0x08 []) ∧ opReserved (((at_ 0x08 []).to t).instrWord d i task0 / 2 ^ 56) = true) ∧
    (ok rEnd (at_ 5 [(41, 40, 3)] rEnd) ∧ 2 ^ 24 ≤ rEnd.icount) ∧
    (ok task0 (at_ 5 [(41, 40, 3)]) ∧ isInstr (((at_ 5 [(41, 40, 3)]).to t).instrWord d i task0) 5 [(41, 40, 2), (31, 0, 0)] = false) ∧
    (ok task0 (at_ 5 [(41, 40, 3), (31, 0, 0xFFFFFFFF)]) ∧
      stands (at_ 5 [(41, 40, 3), (31, 0, 0xFFFFFFFF)]) task0 5 [(41, 40, 3), (31, 0, 0xFFFFFFFF)]) ∧
    (ok rLoop (at_ 6 [(41, 40, 3), (9, 0, 1023)] rLoop) ∧
      stands (at_ 6 [(41, 40, 3), (9, 0, 1023)] rLoop) rLoop 6 [(41, 40, 3), (9, 0, 1023)]) ∧
    (ok task0 (at_ 7 [(9, 0, 1)]) ∧ stands (at_ 7 [(9, 0, 1)]) task0 7 [(9, 0, 1)] ∧ task0.pc < 1) ∧
    (ok task0 (at_ 7 []) ∧ stands (at_ 7 []) task0 7 [(9, 0, 0)] ∧ 0 ≤ task0.pc) ∧
    (ok task0 (at_ 4 []) ∧ stands (at_ 4 []) task0 4 [] ∧ ((at_ 4 []).to t).taskIdle d i task0 = true) ∧
    (ok task0 (at_ 0 []) ∧ stands (at_ 0 []) task0 0 [] ∧ ((at_ 0 []).to t).taskIdle d i task0 = true) ∧
    (ok rPast (at_ 5 [] rPast) ∧ stands (at_ 5 [] rPast) rPast 0 [] ∧ ((at_ 5 [] rPast).to t).taskIdle d i rPast = true) ∧
    (ok rBusy (at_ 4 [] rBusy) ∧ rBusy.icount < 2 ^ 24 ∧ ((at_ 4 [] rBusy).to t).taskIdle d i rBusy = false) := by decide +kernel

theorem witness_TaskProgramsRun_2 :
    let t : Nat := 0; let d : Nat := 3; let i : Nat := 47
    let ok (r : RunTask) (s : State) (op : Nat) (fs : List InstrField) : Prop :=
      (s.to t).live d i = some r ∧ (s.to t).changing = none ∧ isInstr ((s.to t).instrWord d i r) op fs = true ∧ r.icount < 2 ^ 24
    let at_ (op : Nat) (fs : List InstrField) (r : RunTask := task0) : State := wWord (wordAt op fs) r
    let rChain : RunTask := taskC
    let rStream : RunTask := { task0 with streamAt := some 64 }
    let addr : Nat := 2097088
    let oper (r : RunTask) (b : Byte) : State := (at_ 1 [(31, 0, addr)] r).csSt 3 47 addr [b]
    let code (s : State) : Nat := (s.to t).cs d i addr 1
    let stream (s : State) : Bool := decide (0x10 ≤ code s ∧ code s ≤ 0x13)
    (ok task0 (at_ 3 [(41, 40, 3)]) 3 [(41, 40, 3)] ∧ lget none task0.chains 3 = none ∧ ((at_ 3 [(41, 40, 3)]).to t).burstsWait d i = false) ∧
    (ok rChain (at_ 3 [(41, 40, 3)] rChain) 3 [(41, 40, 3)] ∧ lget none rChain.chains 3 ≠ none) ∧
    (ok task0 (at_ 2 [(41, 40, 3), (31, 0, addr)]) 2 [(41, 40, 3), (31, 0, addr)] ∧ lget none task0.chains 3 = none ∧ addr % 64 = 0 ∧ addr < 2 ^ 21) ∧
    (ok task0 (at_ 2 [(41, 40, 3), (31, 0, addr + 1)]) 2 [(41, 40, 3), (31, 0, addr + 1)] ∧ lget none task0.chains 3 = none ∧ (addr + 1) % 64 ≠ 0) ∧
    (ok rChain (at_ 2 [(41, 40, 3), (31, 0, addr)] rChain) 2 [(41, 40, 3), (31, 0, addr)] ∧ lget none rChain.chains 3 ≠ none) ∧
    (ok task0 (oper task0 0x1D#8) 1 [(31, 0, addr)] ∧ opCodeOk (code (oper task0 0x1D#8)) = true ∧ stream (oper task0 0x1D#8) = false) ∧
    (ok task0 (oper task0 0x13#8) 1 [(31, 0, addr)] ∧ opCodeOk (code (oper task0 0x13#8)) = true ∧ task0.streamAt = none) ∧
    (ok task0 (oper task0 0x20#8) 1 [(31, 0, addr)] ∧ opCodeOk (code (oper task0 0x20#8)) = false) ∧
    (ok rStream (oper rStream 0x10#8) 1 [(31, 0, addr)] ∧ stream (oper rStream 0x10#8) = true ∧ rStream.streamAt ≠ none) ∧
    (({ wTask with changing := some 800 } : State).to t).changing ≠ none := by decide +kernel

theorem witness_TasksStartCompleteAndCoresFail_1 :
    let t : Nat := 0; let d : Nat := 3; let i : Nat := 47
    let head (s : State) (g : GraphInst) (k : Nat) (x : TaskInst) : Prop :=
      let u := (s.to t).readyAll
      d < u.die.length ∧ u.pairWorks d = true ∧ u.slotFree d i = true ∧ u.headFor d i = some (g, k, x) ∧ i < (u.dieAt d).run.length
    let taken (s : State) (g : GraphInst) (k : Nat) : State :=
      ((s.to t).readyAll.updTask g.id k (fun x => { x with issued := x.issued + 1 }))
    let sShed : State := (wGraph [graph0 1 15 0, graph0 2 15 1]).linSt 3 12 1 0x20
    let sRun : State := wGraph [graph0 1 15 1]
    let sQuota : State := withRegs [(0x70118, 0x80000000)] (wGraph [graph0 1 3 1])
    let uQ : State := (sQuota.to t).readyAll
    let ends (r : RunTask) : Prop := ((runs r).to t).runAt d i = some r ∧ r.out = some .ok ∧ ((runs r).to t).changing = none
    (head sShed (graph0 1 15 0) 0 (inst0 0) ∧
      (taken sShed (graph0 1 15 0) 0).shedNow d i (graph0 1 15 0) 0 (inst0 0) ((sShed.to t).readyAll.taskHdr d 0) = true) ∧
    (head sRun (graph0 1 15 1) 0 (inst0 1) ∧
      (taken sRun (graph0 1 15 1) 0).shedNow d i (graph0 1 15 1) 0 (inst0 1) ((sRun.to t).readyAll.taskHdr d 0) = false ∧
      (taken sRun (graph0 1 15 1) 0).chunkOf d i 0 = none) ∧
    (uQ.pairWorks d = true ∧ uQ.slotFree d i = true ∧ uQ.headFor d i = none ∧ uQ.graphOf 1 = some (graph0 1 3 1) ∧
      uQ.partFor d 1 0 = none ∧ uQ.rbit (0x70100 + 8 * 3) 31 = true ∧ uQ.quotaOk 3 = false ∧ (graph0 1 3 1).tasks[0]? = some (inst0 1) ∧
      (inst0 1).st = .ready ∧ (inst0 1).issued < (inst0 1).total) ∧
    (ends { task0 with out := some .ok } ∧ ends { task0 with out := some .ok, part := some (46, 64, 1) }) ∧
    (let u := wTask.to t; u.hasDie d = true ∧ u.pdOn (10 + 2 * d + 1) = true ∧ u.live d i = some task0 ∧ u.changing = none) ∧
    (let u := ({ wTask with die := lmod wTask.die 3 (fun x => { x with slot := lmod x.slot 47 (fun y => { y with spareIn := some 51 }) }) } : State).to t;
      (u.slotAt d i).spareIn = some 51 ∧ d < u.die.length ∧ i < (u.dieAt d).slot.length ∧ 51 < (u.dieAt d).core.length ∧ u.mt.flips = []) ∧
    (({ wTask with changing := some 800 } : State).to t).changing = some 800 := by decide +kernel

theorem witness_TasksStartCompleteAndCoresFail_Shards :
    let x : TaskInst := { inst0 0 with cross := [(2, 0, 0)] }
    let g (at_ : Nat) : GraphInst := { graph0 1 15 0 with tasks := [x], released := at_ }
    let u (at_ : Nat) : State := (wGraph [g at_]).to 0
    ((u 1).graphOf 1 = some (g 1) ∧ (u 1).taskOf 1 0 = some x ∧ x.cross ≠ [] ∧ (u 1).now < (g 1).released + 500 * (u 1).stageClose (g 1).stage) ∧
    ((u 0).graphOf 1 = some (g 0) ∧ (u 0).taskOf 1 0 = some x ∧ (g 0).released + 500 * (u 0).stageClose (g 0).stage ≤ (u 0).now) := by decide +kernel

theorem witness_TasksStartCompleteAndCoresFail_2 :
    let core (c : CoreS) (r : Option RunTask := some task0) : State :=
      { wTask with die := lmod wTask.die 3 (fun x => { x with core := lmod x.core 49 (fun _ => c), run := lmod x.run 47 (fun _ => r) }) }
    (Written wTask h0 (bFabric 3 + 0x1C) (0x1000000 + 255) ∧ Written wTask h0 (bFabric 3 + 0x1C) 0x2000000) ∧
    ((∀ k, ((core { role := .spare } none).coreAt 3 49).role = .inSlot k → (core { role := .spare } none).runAt 3 k = none) ∧
      (wTask.coreAt 3 49).role = .inSlot 47 ∧ wTask.runAt 3 47 ≠ none) ∧
    (3 < wTask.die.length ∧ 49 < (wTask.dieAt 3).core.length ∧ (wTask.dieAt 3).core[49]? = some ({ role := .inSlot 47 } : CoreS)) ∧
    ((core { role := .failed .bist }).coreAt 3 49).role = .failed .bist := by
  refine ⟨⟨written_of (by decide +kernel), written_of (by decide +kernel)⟩, ⟨fun k h => ?_, by decide +kernel, by decide +kernel⟩,
    by decide +kernel, by decide +kernel⟩
  exact absurd (h.symm.trans (by decide +kernel : _ = CoreRole.spare)) (by simp)

theorem witness_VectorInstructionsWriteTheirResult_1 :
    let two : List InstrField := [(55, 51, 31), (50, 46, 30), (45, 41, 29)]
    let one : List InstrField := [(55, 51, 31), (50, 46, 30)]
    let three : List InstrField := [(55, 51, 31), (50, 46, 30), (45, 41, 29), (40, 36, 28)]
    let words : List (Nat × List InstrField) := [0x20, 0x21, 0x23, 0x24, 0x25, 0x26, 0x27, 0x28, 0x29, 0x2A, 0x2B, 0x2C, 0x2D].map (fun op => (op, two)) ++
      [0x22, 0x2E].map (fun op => (op, three)) ++ [0x31, 0x32, 0x33, 0x34, 0x35, 0x39, 0x3A].map (fun op => (op, one)) ++
      [(0x38, [(55, 51, 31), (31, 0, 0xFFFFFFFF)]), (0x3B, [(55, 51, 31)])]
    let u (x : Nat × List InstrField) (b : List DrainBlk) : State := (wWord (wordAt x.1 x.2) task0 (wDrain b)).to 0
    words.all (fun x =>
      decide ((u x []).live 3 47 = some task0) && decide ((u x []).changing = none) && decide (task0.icount < 2 ^ 24) &&
        isInstr ((u x []).instrWord 3 47 task0) x.1 x.2 && isInstr ((u x [blk0]).instrWord 3 47 task0) x.1 x.2 &&
        decide (((u x []).coreAt 3 ((u x []).coreOf 3 47)).drainQ = []) && decide (((u x [blk0]).coreAt 3 ((u x []).coreOf 3 47)).drainQ ≠ []) &&
        decide ((u x [blk0]).live 3 47 = some task0) && decide ((u x []).coreOf 3 47 < ((u x []).dieAt 3).core.length)) = true := by decide +kernel

theorem witness_VectorInstructionsWriteTheirResult_2 :
    let u (op : Nat) (fs : List InstrField) : State := (wWord (wordAt op fs) task0 wRec).to 0
    let ready (op : Nat) (fs : List InstrField) : Prop :=
      (u op fs).live 3 47 = some task0 ∧ (u op fs).changing = none ∧ task0.icount < 2 ^ 24 ∧
        ((u op fs).coreAt 3 ((u op fs).coreOf 3 47)).drainQ = [] ∧ (u op fs).coreOf 3 47 < ((u op fs).dieAt 3).core.length ∧
        isInstr ((u op fs).instrWord 3 47 task0) op fs = true
    let regs (rec addr : Nat) : List InstrField := [(55, 51, 31), (50, 46, 30), (35, 32, rec), (31, 0, addr)]
    let cvt (rec : Nat) : List InstrField := [(55, 51, 31), (50, 46, 30), (35, 32, rec)]
    let vld (rec : Nat) : List InstrField := [(55, 51, 31), (35, 32, rec), (31, 0, 2097088)]
    let vst (rec : Nat) : List InstrField := [(50, 46, 30), (35, 32, rec), (31, 0, 2097088)]
    let o (op : Nat) (fs : List InstrField) : Except TaskOut TensorRec := (u op fs).tensorAt 3 47 task0 1
    (ready 0x2F (regs 0 2097088) ∧ ((u 0x2F (regs 0 2097088)).rescaleAt 3 47 task0 0).isOk = true ∧ (o 0x2F (regs 0 2097088)).isOk = true) ∧
    (ready 0x30 (cvt 1) ∧ (o 0x30 (cvt 1)).isOk = true) ∧
    (ready 0x36 (vld 1) ∧ (o 0x36 (vld 1)).isOk = true ∧ 2097088 < 2 ^ 21 ∧ (u 0x36 (vld 1)).mt.flips = [] ∧ task0.racing = []) ∧
    (ready 0x37 (vst 1) ∧ (o 0x37 (vst 1)).isOk = true ∧ 2097088 + (okOf (o 0x37 (vst 1))).fmt.bytes 64 ≤ 2 ^ 21) ∧
    (ready 0x30 (cvt 2) ∧ errIs ((u 0x30 (cvt 2)).tensorAt 3 47 task0 2) .opDescErr = true) ∧
    (ready 0x36 (vld 2) ∧ errIs ((u 0x36 (vld 2)).tensorAt 3 47 task0 2) .opDescErr = true) ∧
    (ready 0x37 (vst 2) ∧ errIs ((u 0x37 (vst 2)).tensorAt 3 47 task0 2) .opDescErr = true) ∧
    (ready 0x2F (regs 2 0) ∧ errIs ((u 0x2F (regs 2 0)).rescaleAt 3 47 task0 2) .opDescErr = true) ∧
    (((u 0x2F (regs 0 0)).rescaleAt 3 47 { task0 with nrec := 1 } 0).isOk = true ∧
      errIs ((u 0x2F (regs 0 0)).tensorAt 3 47 { task0 with nrec := 1 } 1) .opDescErr = true) :=
  ⟨by decide +kernel, by decide +kernel, by decide +kernel, by decide +kernel, by decide +kernel, by decide +kernel, by decide +kernel,
    by decide +kernel, by decide +kernel⟩

theorem witness_OperatorsRunInIssueOrder :
    let d : Nat := 3; let i : Nat := 47; let addr : Nat := 64
    let r : RunTask := { task0 with issued := [64] }
    let part : RunTask := { task0 with issued := [64], part := some (46, 64, 1) }
    let ok (s : State) (r : RunTask) : Prop := (s.to 0).live d i = some r ∧ (s.to 0).changing = none
    let w (s : State) : State := ((s.to 0).updRun d i (fun r => { r with issued := r.issued.drop 1 })).csReads d i [(addr, 64)]
    let q : RunTask := { task0 with issued := [] }
    let y : OpDo := okOf ((w wSuppress).suppressOp d i addr q)
    let flipped : State := csFlip 0 wSuppress
    (ok (runs part) part ∧ part.part = some (46, 64, 1)) ∧
    (ok wTask task0 ∧ task0.issued.head? ≠ some addr) ∧
    (ok (wOper 2#8) r ∧ (wOper 2#8).cs d i addr 1 ≠ 1 ∧ (wOper 2#8).cs d i addr 1 = 2 ∧ r.issued.head? = some addr) ∧
    (ok (wOper 0x11#8) r ∧ ((wOper 0x11#8).coreAt d ((wOper 0x11#8).coreOf d i)).drainQ = []) ∧
    (ok (csFlip 64 (wOper 2#8)) r ∧ (w (csFlip 64 (wOper 2#8))).live d i = none) ∧
    ((w (wOper 0x1C#8)).live d i = some q ∧ errIs ((w (wOper 0x1C#8)).adaptAccumOp d i addr q) .opDescErr = true) ∧
    ((w wSuppress).live d i = some q ∧ (((w wSuppress).suppressOp d i addr q)).isOk = true ∧ y.empty = false ∧
      ((w wSuppress).csReads d i y.reads).live d i ≠ none) ∧
    ((w flipped).live d i = some q ∧ ((w flipped).suppressOp d i addr q).isOk = true ∧
      ((w flipped).csReads d i (okOf ((w flipped).suppressOp d i addr q)).reads).live d i = none) ∧
    (((w (wOper 0x18#8)).kvAppendOp d i addr q).isOk = true ∧ (okOf ((w (wOper 0x18#8)).kvAppendOp d i addr q)).empty = true) :=
  ⟨by decide +kernel, by decide +kernel, by decide +kernel, by decide +kernel, by decide +kernel, by decide +kernel, by decide +kernel,
    by decide +kernel, by decide +kernel⟩

theorem witness_ChainDescriptorsRunInOrder :
    let d : Nat := 3; let i : Nat := 47; let addr : Nat := 64; let c : ChainRun := ⟨64, 1, 0, false⟩
    let y (s : State) : State := (s.to 0).csReads d i [(addr, 64)]
    let ok (s : State) (op : Nat) : Prop := (s.to 0).live d i = some taskC ∧ (s.to 0).changing = none ∧ taskC.chainAt addr = some (3, c) ∧
      (s.to 0).cs d i addr 1 % 16 = op
    let m (s : State) : MoveDesc := okOf ((y s).moveDesc d i addr taskC)
    let runs_ (s : State) : Prop := ok s 1 ∧ (y s).live d i = some taskC ∧ ((y s).moveDesc d i addr taskC).isOk = true
    let waits : State := (wChain false (copyBytes 0x44#8 1#8)).updMt (fun m => { m with
      qch := lmod m.qch 15 (fun q => { q with plan := [⟨0, 1, false, some (3, 47), none⟩] }) })
    let one : State := wChain false (copyBytes 4#8 1#8)
    let none_ : State := wChain false (copyBytes 4#8 0#8)
    let far : State := wChain false ((copyBytes 4#8 2#8).set 12 64#8)
    (ok (wChain false [1#8]) 1 ∧ (y (wChain false [1#8])).live d i = some taskC ∧
      errIs ((y (wChain false [1#8])).moveDesc d i addr taskC) .opDescErr = true) ∧
    (ok (csFlip 64 one) 1 ∧ (y (csFlip 64 one)).live d i = none) ∧
    (runs_ waits ∧ (m waits).fence = true ∧ (y waits).burstsWait d i = true) ∧
    (runs_ none_ ∧ (m none_).fence = false ∧ (m none_).empty = true) ∧
    (runs_ far ∧ (m far).fence = false ∧ (m far).empty = false ∧ ((y far).mvCopy d i taskC (m far)).2 = some .opDescErr) ∧
    (runs_ one ∧ (m one).fence = false ∧ (m one).empty = false ∧ ((y one).mvCopy d i taskC (m one)).2 = none ∧
      (((y one).mvCopy d i taskC (m one)).1.live d i).isSome = true) ∧
    ((m one).op = 1 ∧ (m one).srcSp = 1 ∧ (m one).dstSp = 0 ∧ (m one).count = 1 ∧ (m one).dir = false ∧ (m one).side = false ∧
      (m one).src + (m one).w ≤ 0x10000000 ∧ (m one).dst + (m one).w ≤ 0x200000 ∧ (one.to 0).mt.flips = [] ∧
      (ringRows (m one).src (m one).w).any (fun p => (one.to 0).ringOld p.1 p.2) = false) :=
  ⟨by decide +kernel, by decide +kernel, by decide +kernel, by decide +kernel, by decide +kernel, by decide +kernel, by decide +kernel⟩

theorem witness_BlocksDrainAndChainsAreLate :
    let d : Nat := 3; let i : Nat := 47
    let ok (s : State) (r : RunTask) : Prop := (s.to 0).live d i = some r ∧ (s.to 0).changing = none
    let q (s : State) : List DrainBlk := ((s.to 0).coreAt d ((s.to 0).coreOf d i)).drainQ
    let c (late : Bool) : ChainRun := ⟨64, 1, 0, late⟩
    let chain (late : Bool) (s : State) : Prop := ok s (taskC late) ∧ lget none (taskC late).chains 3 = some (c late)
    let dl (s : State) : Nat := (s.to 0).cs d i (64 + 32) 2
    let due : State := { wChain false (copyBytes 4#8 1#8 1#8) with cyc := 256 }
    let bad : State := { wChain false ([1#8] ++ List.replicate 31 0#8 ++ [1#8]) with cyc := 256 }
    let late0 : State := wChain true (copyBytes 4#8 1#8 1#8)
    let off : State := wChain false (copyBytes 4#8 1#8)
    let soon : State := wChain false (copyBytes 4#8 1#8 1#8)
    (ok (wDrain [blk0]) task0 ∧ q (wDrain [blk0]) = [blk0]) ∧ (ok (wDrain []) task0 ∧ q (wDrain []) = []) ∧
    (chain false due ∧ ((due.to 0).moveDesc d i 64 taskC).isOk = true ∧ dl due ≠ 0 ∧ 256 * dl due ≤ (due.to 0).cycles) ∧
    (chain false bad ∧ errIs ((bad.to 0).moveDesc d i 64 taskC) .opDescErr = true ∧ dl bad ≠ 0 ∧ 256 * dl bad ≤ (bad.to 0).cycles) ∧
    (chain true late0 ∧ (c true).late = true) ∧ (chain false off ∧ dl off = 0) ∧ (chain false soon ∧ (soon.to 0).cycles < 256 * dl soon) :=
  ⟨by decide +kernel, by decide +kernel, by decide +kernel, by decide +kernel, by decide +kernel, by decide +kernel, by decide +kernel⟩

theorem witness_StreamContextsSwapAndObeyCommands_1 :
    (let t : Nat := 0; let d : Nat := 3; let c : Nat := 0x3FFFF;
      let s : State := stream3 (fun x => { x with reqs := [⟨0x3FFFF, 0, true, false⟩, ⟨0x30000, 0, false, false⟩] }) (wCtx 0x80); let u := s.to t;
      let r := (⟨0x3FFFF, 0, true, false⟩ : SwapReq); let w := u.streamSettle d; let k := 1; let l := [2, 3]; let q := (⟨0x30000, 0, false, false⟩ : SwapReq);
      d < 4 ∧ d < u.stream.length ∧ c < 2 ^ 18 ∧ ctxDie c = d ∧ (w.streamAt d).order.find? (w.swapServable d) = some r ∧ w.freeSlots d = k :: l ∧
      ctxDie r.ctx = d ∧ q ∈ ((w.swapServe d r).streamAt d).reqs) ∧
    (let t : Nat := 0; let d : Nat := 3; let c : Nat := 0x3FFFF;
      let s : State := stream3 (fun x => { x with inflight := [(0x3FFFF, 1)] }) (wCtx 0xA8); let u := s.to t; let k := 0x3FFFF; let slot := 1; d < 4 ∧
      d < u.stream.length ∧ c < 2 ^ 18 ∧ ctxDie c = d ∧ (u.streamAt d).inflight.find? (fun p => p.1 == c) = some (k, slot) ∧ slot < 65536 ∧
      u.ctxFlag c 3 = true ∧ u.ctx c 4 4 = 0) ∧
    (let t : Nat := 0; let d : Nat := 3; let c : Nat := 0x3FFFF;
      let s : State := stream3 (fun x => { x with inflight := [(0x3FFFF, 1)] }) (wCtx 0xA0); let u := s.to t; let k := 0x3FFFF; let slot := 1;
      let w := (u.tierRead (u.ctxWho c) (u.ctx c 0 4) (u.ctxBytes c)).1; let bs := okOf (u.tierRead (u.ctxWho c) (u.ctx c 0 4) (u.ctxBytes c)).2;
      d < 4 ∧ d < u.stream.length ∧ c < 2 ^ 18 ∧ ctxDie c = d ∧ (u.streamAt d).inflight.find? (fun p => p.1 == c) = some (k, slot) ∧ slot < 65536 ∧
      u.ctxFlag c 3 = false ∧ u.tierRead (u.ctxWho c) (u.ctx c 0 4) (u.ctxBytes c) = (w, .ok bs)) ∧
    (let t : Nat := 0; let d : Nat := 3; let c : Nat := 0x3FFFF; let s : State := stream3 (fun x => { x with slots := [(0x3FFFF, 1)] }) (wCtx 0xE0);
      let u := s.to t; let k := 0x3FFFF; let slot := 1; d < 4 ∧ d < u.stream.length ∧ c < 2 ^ 18 ∧ ctxDie c = d ∧ u.ctxRes c = 3 ∧
      (u.streamAt d).slots.find? (fun p => p.1 == c) = some (k, slot) ∧ u.ctxFlag c 1 = false ∧
      (u.streamAt d).claims.find? (fun p => p.1 == c) = none) ∧
    (let t : Nat := 0; let d : Nat := 3; let c : Nat := 0x3FFFF; let q := 0x30000;
      let s : State := stream3 (fun x => { x with slots := [(0x3FFFF, 1)], claims := [(0x3FFFF, q)], reqs := [⟨q, 0, true, false⟩] }) (wCtx 0xE0);
      let u := s.to t; d < 4 ∧ u.ctxRes c = 3 ∧ (u.streamAt d).slots.find? (fun p => p.1 == c) = some (c, 1) ∧ u.ctxFlag c 1 = false ∧
      (u.streamAt d).claims.find? (fun p => p.1 == c) = some (c, q) ∧ q ≠ c ∧ ctxDie q = d ∧ (u.streamAt d).reqs.any (fun r => r.ctx == q) = true) ∧
    (let h : Hdr := h0; let c : Nat := 0x3FFFF; let s : State := wCtx 0; let u := s.atHost h; let d := ctxDie c; let stateAddr := 64;
      let initAddr := 0; let size := 1; let mark := true; let tag := 7; u.ctxOk c = true ∧ d < u.stream.length ∧
      Carried s h (.ctxOpen c stateAddr initAddr size mark tag) ∧ (u.ctxFlag c 7 = false ∨ h.client = 15 ∨ u.ctxOwner c = h.client) ∧
      u.ctxOpenErr c stateAddr initAddr size = 0) ∧
    (let h : Hdr := h0; let c : Nat := 0x3FFFF; let s : State := wCtx 0x80; let u := s.atHost h; let d := ctxDie c; let stateAddr := 64;
      let initAddr := 0; let size := 1; let mark := true; let tag := 7; u.ctxOk c = true ∧ d < u.stream.length ∧
      Carried s h (.ctxOpen c stateAddr initAddr size mark tag) ∧ (u.ctxFlag c 7 = false ∨ h.client = 15 ∨ u.ctxOwner c = h.client) ∧
      u.ctxOpenErr c stateAddr initAddr size = 0) ∧
    (let h : Hdr := h0; let c : Nat := 0x3FFFF; let s : State := wCtx 0x80; let u := s.atHost h; let d := ctxDie c; u.ctxOk c = true ∧
      d < u.stream.length ∧ Carried s h (.ctxClose c) ∧ u.ctxFlag c 7 = true ∧ (h.client = 15 ∨ u.ctxOwner c = h.client) ∧ u.ctxQueue c = [] ∧
      u.ctxRunning c = false) ∧
    (let h : Hdr := h0; let c : Nat := 0x3FFFF; let s : State := wCtx 0x80; let u := s.atHost h; let d := ctxDie c; u.ctxOk c = true ∧
      d < u.stream.length ∧ u.ctxFlag c 7 = true ∧ Written s h (bStream d + 0x30) (0x1000000 + c)) := by
  exact ⟨by decide +kernel,
    by decide +kernel,
    ⟨by decide +kernel, by decide +kernel, by decide +kernel, by decide +kernel, by decide +kernel, by decide +kernel, by decide +kernel, by exact pair_of (by decide +kernel)⟩,
    by decide +kernel, by decide +kernel,
    ⟨by decide +kernel, by decide +kernel, by exact carried_of (by decide +kernel), by decide +kernel, by decide +kernel⟩,
    ⟨by decide +kernel, by decide +kernel, by exact carried_of (by decide +kernel), by decide +kernel, by decide +kernel⟩,
    ⟨by decide +kernel, by decide +kernel, by exact carried_of (by decide +kernel), by decide +kernel, by decide +kernel, by decide +kernel, by decide +kernel⟩,
    ⟨by decide +kernel, by decide +kernel, by decide +kernel, by exact written_of (by decide +kernel)⟩⟩

theorem witness_StreamContextsSwapAndObeyCommands_2 :
    (let h : Hdr := h0; let c : Nat := 0x3FFFF; let s : State := withRegs [(bStream 3 + 0x14, 0x30000)] (wCtx 0x80); let u := s.atHost h;
      let d := ctxDie c; u.ctxOk c = true ∧ d < u.stream.length ∧ u.ctxFlag c 7 = true ∧ Written s h (bStream d + 0x30) (0x2000000 + c) ∧
      u.ctxFlag c 4 = false ∧ u.pinnedCount d + 3 ≤ u.rfld (bStream d + 0x14) 31 16) ∧
    (let h : Hdr := h0; let c : Nat := 0x3FFFF; let s : State := withRegs [(bStream 3 + 0x14, 0x20000)] (wCtx 0x80); let u := s.atHost h;
      let d := ctxDie c; u.ctxOk c = true ∧ d < u.stream.length ∧ u.ctxFlag c 7 = true ∧ Written s h (bStream d + 0x30) (0x2000000 + c) ∧
      u.ctxFlag c 4 = false ∧ u.rfld (bStream d + 0x14) 31 16 < u.pinnedCount d + 3) ∧
    (let h : Hdr := h0; let c : Nat := 0x3FFFF; let s : State := wCtx 0x90; let u := s.atHost h; let d := ctxDie c; u.ctxFlag c 7 = true ∧
      u.ctxFlag c 4 = true ∧ Written s h (bStream d + 0x30) (0x2000000 + c)) ∧
    (let h : Hdr := h0; let c : Nat := 0x3FFFF; let s : State := wCtx 0x80; let u := s.atHost h; let d := ctxDie c; u.ctxOk c = true ∧
      d < u.stream.length ∧ u.ctxFlag c 7 = true ∧ Written s h (bStream d + 0x30) (0x3000000 + c)) ∧
    (let h : Hdr := h0; let c : Nat := 0x3FFFF; let s : State := stream3 (fun x => { x with slots := [(0x3FFFF, 1)] }) (wCtx 0xC0);
      let u := s.atHost h; let d := ctxDie c; u.ctxOk c = true ∧ d < u.stream.length ∧ u.ctxFlag c 7 = true ∧
      Written s h (bStream d + 0x30) (0x4000000 + c) ∧ (u.victims d false).any (fun p => p.1 == c) = true) ∧
    (let h : Hdr := h0; let c : Nat := 0x3FFFF; let s : State := wCtx 0x80; let u := s.atHost h; let d := ctxDie c; u.ctxOk c = true ∧
      d < u.stream.length ∧ u.ctxFlag c 7 = true ∧ Written s h (bStream d + 0x30) (0x4000000 + c) ∧
      (u.victims d false).any (fun p => p.1 == c) = false) ∧
    (let h : Hdr := h0; let c : Nat := 0x3FFFF; let s : State := wCtx 0x80; let u := s.atHost h; let d := ctxDie c; u.ctxOk c = true ∧
      d < u.stream.length ∧ Written s h (bStream d + 0x30) 0x5000000) ∧
    (let h : Hdr := h0; let c : Nat := 0x3FFFF; let s : State := wCtx 0x80; let u := s.atHost h; let d := ctxDie c; u.ctxOk c = true ∧
      d < u.stream.length ∧ Written s h (bStream d + 0x34) c) := by
  exact ⟨⟨by decide +kernel, by decide +kernel, by decide +kernel, by exact written_of (by decide +kernel), by decide +kernel, by decide +kernel⟩,
    ⟨by decide +kernel, by decide +kernel, by decide +kernel, by exact written_of (by decide +kernel), by decide +kernel, by decide +kernel⟩,
    ⟨by decide +kernel, by decide +kernel, by exact written_of (by decide +kernel)⟩,
    ⟨by decide +kernel, by decide +kernel, by decide +kernel, by exact written_of (by decide +kernel)⟩,
    ⟨by decide +kernel, by decide +kernel, by decide +kernel, by exact written_of (by decide +kernel), by decide +kernel⟩,
    ⟨by decide +kernel, by decide +kernel, by decide +kernel, by exact written_of (by decide +kernel), by decide +kernel⟩,
    ⟨by decide +kernel, by decide +kernel, by exact written_of (by decide +kernel)⟩,
    ⟨by decide +kernel, by decide +kernel, by exact written_of (by decide +kernel)⟩⟩

theorem witness_SequencesAreOpenedForkedAndClosed_1 :
    (let h : Hdr := h0; let q : Nat := 4095; let s : State := wSeq; let u := s.atHost h; let d := seqDie q; let heads := 16; let dim := 2;
      let q4 := false; let mark := true; let sp0 := -1; let pitch := 1; let list := 0x06660000; let max := 1024; u.seqOk q = true ∧ d < u.kv.length ∧
      Carried s h (.seqOpen q heads dim q4 mark sp0 pitch list max) ∧ u.seqForeign h.client q = false ∧
      u.seqOpenErr q heads dim max q4 pitch list = 0 ∧ h.client < 16) ∧
    (let h : Hdr := h0; let q : Nat := 4095; let s : State := wSeq; let u := s.atHost h; let d := seqDie q; u.seqOk q = true ∧ d < u.kv.length ∧
      Carried s h (.seqClose q) ∧ u.seqOpen q = true ∧ u.seqForeign h.client q = false) ∧
    (let h : Hdr := h0; let q : Nat := 4095; let s : State := wSeq; let u := s.atHost h; let d := seqDie q; let src := 4094; let n := 64;
      let w := (u.seqFork src q n).1; u.seqOk q = true ∧ d < u.kv.length ∧ Carried s h (.seqFork src q n) ∧ u.seqOk src = true ∧
      u.seqOpen src = true ∧ u.seqOpen q = true ∧ u.seqForeign h.client src = false ∧ u.seqForeign h.client q = false ∧ n ≠ 0 ∧
      u.seqFork src q n = (w, 0)) ∧
    (let h : Hdr := h0; let q : Nat := 4095; let s : State := wSeq.seqSt 4095 26 1 2; let u := s.atHost h; let d := seqDie q; let src := 4094;
      let n := 1; u.seqOk q = true ∧ d < u.kv.length ∧ Carried s h (.seqFork src q n) ∧ u.seqOk src = true ∧ u.seqOpen src = true ∧
      u.seqOpen q = true ∧ u.seqForeign h.client src = false ∧ u.seqForeign h.client q = false ∧ n ≠ 0 ∧ n ≤ u.seqLen src ∧
      (seqDie src ≠ d ∨ src = q ∨ u.seqHeads src ≠ u.seqHeads q ∨ u.seqQ4 src ≠ u.seqQ4 q)) ∧
    (let h : Hdr := h0; let q : Nat := 4095; let s : State := wSeq.seqSt 4095 27 1 0x20; let u := s.atHost h; let d := seqDie q; let src := 4094;
      let n := 1; u.seqOk q = true ∧ d < u.kv.length ∧ Carried s h (.seqFork src q n) ∧ u.seqOk src = true ∧ u.seqOpen src = true ∧
      u.seqOpen q = true ∧ u.seqForeign h.client src = false ∧ u.seqForeign h.client q = false ∧ n ≠ 0 ∧ n ≤ u.seqLen src ∧
      (seqDie src ≠ d ∨ src = q ∨ u.seqHeads src ≠ u.seqHeads q ∨ u.seqQ4 src ≠ u.seqQ4 q)) ∧
    (let h : Hdr := h0; let q : Nat := 4095; let s : State := (wSeq.seqSt 0 0 4 64).seqSt 0 28 1 0x80; let u := s.atHost h; let d := seqDie q;
      let src := 0; let n := 1; u.seqOk q = true ∧ d < u.kv.length ∧ Carried s h (.seqFork src q n) ∧ u.seqOk src = true ∧ u.seqOpen src = true ∧
      u.seqOpen q = true ∧ u.seqForeign h.client src = false ∧ u.seqForeign h.client q = false ∧ n ≠ 0 ∧ n ≤ u.seqLen src ∧
      (seqDie src ≠ d ∨ src = q ∨ u.seqHeads src ≠ u.seqHeads q ∨ u.seqQ4 src ≠ u.seqQ4 q)) ∧
    (let h : Hdr := h0; let q : Nat := 4095; let s : State := wSeq.seqSt 4095 0 4 64; let u := s.atHost h; let d := seqDie q; let src := 4095;
      let n := 1; u.seqOk q = true ∧ d < u.kv.length ∧ Carried s h (.seqFork src q n) ∧ u.seqOk src = true ∧ u.seqOpen src = true ∧
      u.seqOpen q = true ∧ u.seqForeign h.client src = false ∧ u.seqForeign h.client q = false ∧ n ≠ 0 ∧ n ≤ u.seqLen src ∧
      (seqDie src ≠ d ∨ src = q ∨ u.seqHeads src ≠ u.seqHeads q ∨ u.seqQ4 src ≠ u.seqQ4 q)) ∧
    (let h : Hdr := h0; let q : Nat := 4095; let s : State := wSeq; let u := s.atHost h; let d := seqDie q; u.seqOk q = true ∧ d < u.kv.length ∧
      u.seqOpen q = true ∧ Written s h (bKv d + 0x2C) (0x1000000 + q % 1024)) := by
  exact ⟨⟨by decide +kernel, by decide +kernel, by exact carried_of (by decide +kernel), by decide +kernel, by decide +kernel, by decide +kernel⟩,
    ⟨by decide +kernel, by decide +kernel, by exact carried_of (by decide +kernel), by decide +kernel, by decide +kernel⟩,
    ⟨by decide +kernel, by decide +kernel, by exact carried_of (by decide +kernel), by decide +kernel, by decide +kernel, by decide +kernel, by decide +kernel, by decide +kernel, by decide +kernel, by decide +kernel⟩,
    ⟨by decide +kernel, by decide +kernel, by exact carried_of (by decide +kernel), by decide +kernel, by decide +kernel, by decide +kernel, by decide +kernel, by decide +kernel, by decide +kernel, by decide +kernel, by decide +kernel⟩,
    ⟨by decide +kernel, by decide +kernel, by exact carried_of (by decide +kernel), by decide +kernel, by decide +kernel, by decide +kernel, by decide +kernel, by decide +kernel, by decide +kernel, by decide +kernel, by decide +kernel⟩,
    ⟨by decide +kernel, by decide +kernel, by exact carried_of (by decide +kernel), by decide +kernel, by decide +kernel, by decide +kernel, by decide +kernel, by decide +kernel, by decide +kernel, by decide +kernel, by decide +kernel⟩,
    ⟨by decide +kernel, by decide +kernel, by exact carried_of (by decide +kernel), by decide +kernel, by decide +kernel, by decide +kernel, by decide +kernel, by decide +kernel, by decide +kernel, by decide +kernel, by decide +kernel⟩,
    ⟨by decide +kernel, by decide +kernel, by decide +kernel, by exact written_of (by decide +kernel)⟩⟩

theorem witness_SequencesAreOpenedForkedAndClosed_2 :
    (let h : Hdr := h0; let q : Nat := 4095; let s : State := wSeq; let u := s.atHost h; let d := seqDie q; u.seqOk q = true ∧ d < u.kv.length ∧
      u.seqOpen q = true ∧ Written s h (bKv d + 0x2C) (0x2000000 + q % 1024)) ∧
    (let h : Hdr := h0; let q : Nat := 4095; let s : State := wSeq; let u := s.atHost h; let d := seqDie q; u.seqOk q = true ∧ d < u.kv.length ∧
      Written s h (bKv d + 0x2C) 0x6000000) ∧
    (let h : Hdr := h0; let q : Nat := 4095; let s : State := wSeq; let u := s.atHost h; let d := seqDie q; u.seqOk q = true ∧ d < u.kv.length ∧
      Written s h (bKv d + 0x30) (q % 1024)) ∧
    (let h : Hdr := h0; let q : Nat := 4095; let s : State := wSeq; let u := s.atHost h; let d := seqDie q; let n := 262143; u.seqOk q = true ∧
      d < u.kv.length ∧ n < 262144 ∧ Written s h (bKv d + 0x34) n) := by
  exact ⟨⟨by decide +kernel, by decide +kernel, by decide +kernel, by exact written_of (by decide +kernel)⟩,
    ⟨by decide +kernel, by decide +kernel, by exact written_of (by decide +kernel)⟩,
    ⟨by decide +kernel, by decide +kernel, by exact written_of (by decide +kernel)⟩,
    ⟨by decide +kernel, by decide +kernel, by decide +kernel, by exact written_of (by decide +kernel)⟩⟩

theorem witness_PartialsMergeAndEpochsCommit :
    let d : Nat := 3; let i : Nat := 47
    let ok (s : State) (r : RunTask) : Prop := (s.to 0).live d i = some r ∧ (s.to 0).changing = none
    let rest (r : RunTask) : RunTask := { r with splits := [] }
    let w (s : State) : State := (s.to 0).updRun d i rest
    let wait (x y : List Nat) : RunTask := { task0 with splits := [⟨64, x, y, []⟩] }
    let get (s : State) : State × Except TaskOut (List Byte) := (w s).linGet d i taskM 0 8
    let bad : State := wMerge.updMt (fun m => { m with flips := [(memKey (spLintel 3) 0, 3)] })
    let v : Except TaskOut AttnDesc := (w wMerge).attnDesc d i 64 taskM false
    let c (s : State) : State := (s.to 0).updAdapt (fun a => { a with committing := false })
    let none_ : State := { rdy with adapt := { committing := true } }
    let lost : State := wCommit.updMt (fun m => { m with flips := [(memKey (spLintel 0) 0x1000, 3)] })
    (ok wTask task0 ∧ task0.splits = []) ∧ (ok (runs taskM) taskM ∧ taskM.splits = [⟨64, [], [], [0]⟩]) ∧
    (ok (runs (wait [1] [])) (wait [1] []) ∧ ok (runs (wait [] [1])) (wait [] [1])) ∧
    (ok (runs taskM) taskM ∧ errIs ((w (runs taskM)).attnDesc d i 64 taskM false) .opDescErr = true) ∧
    (ok wMerge taskM ∧ v.isOk = true ∧ (okOf v).part = 0 ∧ 1 * (okOf v).nq * (4 * (okOf v).dim + 8) ≠ 0 ∧ (get wMerge).2.isOk = true) ∧
    (ok bad taskM ∧ ((w bad).attnDesc d i 64 taskM false).isOk = true ∧ errIs (get bad).2 .memFault = true) ∧
    (none_.adapt.committing = true ∧ (c none_).mastersAll.2 = some [] ∧ (formEpoch (c none_).mastersAll.1.adapt []).isSome = true) ∧
    ((wCommit.to 0).adapt.committing = true ∧ (c wCommit).mastersAll.2 = some [[0x43FA0000#32, 0#32]] ∧
      formEpoch (c wCommit).mastersAll.1.adapt [[0x43FA0000#32, 0#32]] = none) ∧
    (lost.adapt.committing = true ∧ (c lost).mastersAll.2 = none) ∧
    (Written wTask h0 0x5002C 0x3000000 ∧ Written wTask h0 0x5002C 0x4000000 ∧ Written wTask h0 0x5002C 0x5000000) ∧
    ([group0].Pairwise (fun a b => a.id ≠ b.id) ∧ 1 < group0.load.length) :=
  ⟨by decide +kernel, by decide +kernel, by decide +kernel, by decide +kernel, by decide +kernel, by decide +kernel, by decide +kernel,
    by decide +kernel, by decide +kernel, ⟨written_of (by decide +kernel), written_of (by decide +kernel), written_of (by decide +kernel)⟩,
    by decide +kernel⟩

theorem witness_TiersScrubBurstAndMigrate_1 :
    let scrub (k : Nat) : State := (withRegs [(0x60000, 7)] rdy).updMt (fun m => { m with flips := [(k, 1)] })
    let flip (k : Nat) : Prop := ((scrub k).to 0).rbit 0x60000 2 = true ∧ ((scrub k).to 0).hasDie 3 = true ∧ ((scrub k).to 0).mt.flips = [(k, 1)] ∧
      ((scrub k).to 0).test.persist = [] ∧ flipCount 1 ≤ 1 ∧ memKey (spLintel 3) 0 ≤ k ∧ k < memKey (spLintel 3) 0x10000000
    let mapped : State := rdy.pteSet 49152 (pteDecode (2 ^ 63 + 2 ^ 58 + 3 * 2 ^ 56))
    let up (f : Qch → Qch) : State := (qch15 (fun q => f { q with st := .up }) rdy).to 0
    let x (f : Qch → Qch) : Qch := (up f).qchAt 15
    let plan : Qch → Qch := fun q => { q with plan := [burst0] }
    let bg : Qch → Qch := fun q => { q with background := [burst0], plan := [burst0], bgCredit := 16 }
    (flip (3 * 2 ^ 32) ∧ flip (3 * 2 ^ 32 + 0xFFFFFF8)) ∧
    (mapped.rbit 0x60000 2 = true ∧ (mapped.quarryPages.filter (fun p => decide (mapped.mt.qscrub ≤ p)) ++ mapped.quarryPages).head? = some 49152) ∧
    ((x plan).st = .up ∧ (x plan).serves = some .plan ∧ (x plan).front .plan = some burst0 ∧ 15 < (up plan).mt.qch.length ∧ (up plan).mt.flips = []) ∧
    ((x bg).st = .up ∧ (x bg).serves = some .background ∧ (x bg).front .background = some burst0) ∧
    (rdy.updMt (fun m => { m with remapWait := true })).mt.remapWait = true ∧
    ((withRegs [(0x60000, 1)] rdy).rbit 0x60000 0 = true ∧ Memory.wf (withRegs [(0x60000, 1)] rdy).mem) :=
  ⟨by decide +kernel, by decide +kernel, by decide +kernel, by decide +kernel, by decide +kernel, by decide +kernel⟩

theorem witness_TiersScrubBurstAndMigrate_2 :
    let n : Nat := 49152
    let s (w : Bool) : State := rdy.updMt (fun m => { m with moves := [move0 w] })
    let lintel : State := (s false).pteSet n (pteDecode (2 ^ 63 + 3 * 2 ^ 56 + 0x700))
    let lost : State := lintel.updMt (fun m => { m with flips := [(frameKey (lintel.pte n), 3)] })
    ((s false).mt.moves.find? (fun m => m.page == n) = some (move0 false) ∧ (move0 false).written = false ∧ (move0 false).next ≠ some n) ∧
    ((lintel.pte n).tier = 0 ∧ (lintel.eccRead (frameKey (lintel.pte n)) 65536).2 = false) ∧
    ((lost.pte n).tier = 0 ∧ (lost.eccRead (frameKey (lost.pte n)) 65536).2 = true) ∧
    ((s true).mt.moves.find? (fun m => m.page == n) = some (move0 true) ∧ (move0 true).written = true) ∧
    (let u := rdy.updTest (fun x => { x with qchCe := List.replicate 16 65536 }); 15 < u.nQch ∧ u.rfld 0xF0070 15 0 < lget 0 u.test.qchCe 15) ∧
    (∀ c, c < rdy.nQch → lget 0 rdy.test.qchCe c ≤ rdy.rfld 0xF0070 15 0) :=
  ⟨by decide +kernel, by decide +kernel, by decide +kernel, by decide +kernel, by decide +kernel, by decide +kernel⟩

theorem witness_HostUsesTheMemoryTiers_1 :
    (let h : Hdr := h0; let s : State := rdy; let u := s.atHost h; let sp := 3; let a := 0x6660000; let bs := List.replicate 8 1#8;
      Carried s h (.memWrite sp a bs) ∧ sp < 4 ∧ bs ≠ [] ∧ u.memErr h.client sp a bs.length = 0) ∧
    (let h : Hdr := h0; let s : State := rdy; let u := s.atHost h; let sp := 3; let a := 0x6660000; let n := 8; Carried s h (.memRead sp a n) ∧
      sp < 4 ∧ n ≠ 0 ∧ u.memErr h.client sp a n = 0 ∧ u.mt.flips = []) ∧
    (let h : Hdr := h0; let s : State := withRegs [(aLin 3, 0xFFF)] rdy; let u := s.atHost h; let p := 49152; let pin := 0;
      let e := (u.takeFrame (p / 16384) pin).get!; Carried s h (.pageMap p 1 pin) ∧ u.hasDie (p / 16384) = true ∧ pin < 3 ∧ (u.pte p).mapped = false ∧
      u.takeFrame (p / 16384) pin = some e) ∧
    (let h : Hdr := h0; let s : State := withRegs [(aLin 3, 0)] rdy; let u := s.atHost h; let p := 49152; let pin := 0;
      Carried s h (.pageMap p 1 pin) ∧ u.hasDie (p / 16384) = true ∧ pin < 3 ∧ (u.pte p).mapped = false ∧ u.takeFrame (p / 16384) pin = none) ∧
    (let h : Hdr := h0; let s : State := wCtx 0x80; let u := s.atHost h; let p := 49152; Carried s h (.pageUnmap p 1) ∧ u.hasDie (p / 16384) = true ∧
      (u.pte p).mapped = true ∧ (h.client = 15 ∨ (u.pte p).owner = h.client)) ∧
    (let h : Hdr := h0; let s : State := withRegs [(aLin 3, 0xFFF)] rdy; let u := s.atHost h; let d : Nat := 3; let value : Word := 0x1000#32;
      let w := (u.tierBaseSet d value.toNat).get!; d < 4 ∧ Written s h (aLin d) value.toNat ∧ value.toNat < 8192 ∧ u.planRuns = false ∧
      u.rfld (aLin d) 12 0 ≠ value.toNat ∧ u.tierBaseSet d value.toNat = some w) ∧
    (let h : Hdr := h0; let s : State := wCtx 0x80; let u := s.atHost h; let d : Nat := 3; let value : Word := 0x800#32; d < 4 ∧
      Written s h (aLin d) value.toNat ∧ value.toNat < 8192 ∧ u.planRuns = false ∧ u.rfld (aLin d) 12 0 ≠ value.toNat ∧
      u.tierBaseSet d value.toNat = none) ∧
    (let h : Hdr := h0; let s : State := qch15 (fun q => { q with st := .up }) rdy; let u := s.atHost h; let c := 15; c < u.nQch ∧ c < 16 ∧
      c < u.mt.qch.length ∧ (u.qchAt c).st = .up ∧ Written s h 0x60020 (0x1000000 + c)) := by
  exact ⟨⟨by exact carried_of (by decide +kernel), by decide +kernel, by decide +kernel, by decide +kernel⟩,
    ⟨by exact carried_of (by decide +kernel), by decide +kernel, by decide +kernel, by decide +kernel, by decide +kernel⟩,
    ⟨by exact carried_of (by decide +kernel), by decide +kernel, by decide +kernel, by decide +kernel, by decide +kernel⟩,
    ⟨by exact carried_of (by decide +kernel), by decide +kernel, by decide +kernel, by decide +kernel, by decide +kernel⟩,
    ⟨by exact carried_of (by decide +kernel), by decide +kernel, by decide +kernel, by decide +kernel⟩,
    ⟨by decide +kernel, by exact written_of (by decide +kernel), by decide +kernel, by decide +kernel, by decide +kernel, by decide +kernel⟩,
    ⟨by decide +kernel, by exact written_of (by decide +kernel), by decide +kernel, by decide +kernel, by decide +kernel, by decide +kernel⟩,
    ⟨by decide +kernel, by decide +kernel, by decide +kernel, by decide +kernel, by exact written_of (by decide +kernel)⟩⟩

theorem witness_HostUsesTheMemoryTiers_2 :
    (let h : Hdr := h0; let s : State := rdy; Written s h 0x60020 0x2000000) ∧
    (let h : Hdr := h0; let s : State := rdy; let p := 65535; p < 65536 ∧ Written s h 0x60024 p) := by
  exact ⟨by exact written_of (by decide +kernel),
    ⟨by decide +kernel, by exact written_of (by decide +kernel)⟩⟩

theorem witness_PlansAreLoadedAdmittedAndRun_1 :
    (let h : Hdr := h0; let s : State := rdy; let u := s.atHost h; let len := 1; let digest := List.replicate 64 0#8;
      Carried s h (.planLoad len digest) ∧ u.planRuns = false ∧ len ≠ 0 ∧ u.deferredCnt < 8) ∧
    (let h : Hdr := h0; let s : State := wBond (fun b => { b with st := .loaded }); let u := s.atHost h; Carried s h .planAdmit ∧ u.planRuns = false ∧
      (u.bond.st = .loaded ∨ u.bond.st = .admitted) ∧ u.deferredCnt < 8) ∧
    (let h : Hdr := h0; let s : State := wBond (fun b => { b with st := .admitted }); let u := s.atHost h; Carried s h .planAdmit ∧
      u.planRuns = false ∧ (u.bond.st = .loaded ∨ u.bond.st = .admitted) ∧ u.deferredCnt < 8) ∧
    (let t : Nat := 0;
      let s : State := (wBond (fun b => { b with st := .loaded, plan := some plan0 })).updSdio (fun x => { x with deferred := [admit0] });
      let y := s.to t; let d := admit0; let p := plan0; y.sdio.deferred = [d] ∧ d.pkt.cmd = .planAdmit ∧ y.bond.st = .loaded ∧
      y.bond.startPending = false ∧ y.mgmt.resetAt = none ∧ y.bond.plan = some p) ∧
    (let h : Hdr := h0; let s : State := wBond (fun b => { b with st := .admitted, plan := some plan0 }); let u := s.atHost h;
      Carried s h .planStart ∧ u.bond.st = .admitted ∧ u.bond.startPending = false) ∧
    (let h : Hdr := h0; let s : State := wBond (fun b => { b with st := .admitted, startPending := true }); let u := s.atHost h;
      Carried s h .planStop ∧ u.bond.startPending = true) ∧
    (let h : Hdr := h0; let s : State := wBond (fun b => { b with st := .running }); let u := s.atHost h; Carried s h .planStop ∧
      u.bond.startPending = false ∧ u.bond.st = .running) ∧
    (let t : Nat := 0; let s : State := wBond (fun b => { b with st := .stopping, graphs := [graph0 1 3 0] }); let y := s.to t;
      y.bond.st = .stopping ∧ (∀ g ∈ y.bond.graphs, g.client ≠ 15)) := by
  exact ⟨⟨by exact carried_of (by decide +kernel), by decide +kernel, by decide +kernel, by decide +kernel⟩,
    ⟨by exact carried_of (by decide +kernel), by decide +kernel, by decide +kernel, by decide +kernel⟩,
    ⟨by exact carried_of (by decide +kernel), by decide +kernel, by decide +kernel, by decide +kernel⟩,
    by decide +kernel,
    ⟨by exact carried_of (by decide +kernel), by decide +kernel, by decide +kernel⟩,
    ⟨by exact carried_of (by decide +kernel), by decide +kernel⟩,
    ⟨by exact carried_of (by decide +kernel), by decide +kernel, by decide +kernel⟩,
    by decide +kernel⟩

theorem witness_PlansAreLoadedAdmittedAndRun_2 :
    (let h : Hdr := h0; let s : State := wBond (fun b => { b with st := .admitted }); let u := s.atHost h; Carried s h .planUnload ∧
      u.planRuns = false) ∧
    (let h : Hdr := h0; let s : State := wBond (fun b => { b with st := .running, plan := some plan0 }); let u := s.atHost h; Written s h 0x7000C 1 ∧
      u.bond.st = .running) ∧
    (let h : Hdr := h0; let s : State := rdy; let u := s.atHost h; Written s h 0x7000C 1 ∧ u.bond.st ≠ .running) ∧
    (let t : Nat := 0; let s : State := wBond (fun b => { b with st := .running, plan := some plan0, readmitting := true, readmitAgain := true });
      let y := s.to t; let p := plan0; y.bond.plan = some p ∧ y.bond.readmitting = true ∧ y.bond.readmitAgain = true) ∧
    (let t : Nat := 0; let s : State := wBond (fun b => { b with st := .running, plan := some plan0, readmitting := true }); let y := s.to t;
      let p := plan0; y.bond.plan = some p ∧ y.bond.readmitting = true ∧ y.bond.readmitAgain = false ∧ y.sdio.waiting = none ∧ y.sdio.cmdBuf = []) ∧
    (let x : Nat × Nat × List Byte := (3, 0x7000000, [1#8]); let u := rdy.updMt (fun m => { m with withdrawn := [3 * 4096 + 0x700] });
      ([(3, 0, [1#8])].all rdy.rawOk = false ∧ [x].all rdy.rawOk = true ∧ [x].any rdy.onWithdrawn = false) ∧
        [x].all u.rawOk = true ∧ [x].any u.onWithdrawn = true) := by
  exact ⟨⟨by exact carried_of (by decide +kernel), by decide +kernel⟩,
    ⟨by exact written_of (by decide +kernel), by decide +kernel⟩,
    ⟨by exact written_of (by decide +kernel), by decide +kernel⟩,
    by decide +kernel,
    by decide +kernel, by decide +kernel⟩

theorem witness_VariantsGraphsModelsAndAccounts_1 :
    (let t : Nat := 0; let s : State := (wBond (fun b => { b with plan := some plan0 })).updCourse (fun c => { c with hwm := 1 }); let u := s.to t;
      let p := plan0; u.bond.plan = some p ∧ u.bondFrame p ≠ u.bond.frame) ∧
    (let t : Nat := 0; let s : State := wBond (fun b => { b with plan := some plan0 }); let u := s.to t; let p := plan0; u.bond.plan = some p ∧
      u.bondFrame p = u.bond.frame) ∧
    (let t : Nat := 0; let s : State := wVar [0, 100] 98 0 0; let u := s.to t; let tg := (u.vtarget u.course.speed.natAbs).1;
      let cur := u.bond.variant; u.bond.signalLate = false ∧ cur < tg) ∧
    (let t : Nat := 0; let s : State := wVar [100, 50] 94 1 63; let u := s.to t; let tg := (u.vtarget u.course.speed.natAbs).1;
      let cur := u.bond.variant; let below := u.course.speed.natAbs * 256 ≤ lget 0 u.bond.adm.vp tg * (256 - u.rfld 0x70010 23 16);
      let hold := max 1 (u.rfld 0x70010 15 0); u.bond.signalLate = false ∧ tg < cur ∧ below ∧ hold ≤ u.bond.hold + 1) ∧
    (let t : Nat := 0; let s : State := wVar [100, 50] 94 1 62; let u := s.to t; let tg := (u.vtarget u.course.speed.natAbs).1;
      let cur := u.bond.variant; let below := u.course.speed.natAbs * 256 ≤ lget 0 u.bond.adm.vp tg * (256 - u.rfld 0x70010 23 16);
      let hold := max 1 (u.rfld 0x70010 15 0); u.bond.signalLate = false ∧ tg < cur ∧ below ∧ u.bond.hold + 1 < hold) ∧
    (let t : Nat := 0; let s : State := wVar [100, 50] 98 1 63; let u := s.to t; let tg := (u.vtarget u.course.speed.natAbs).1;
      let cur := u.bond.variant; let below := u.course.speed.natAbs * 256 ≤ lget 0 u.bond.adm.vp tg * (256 - u.rfld 0x70010 23 16);
      u.bond.signalLate = false ∧ tg < cur ∧ ¬ below) ∧
    (let t : Nat := 0; let s : State := wVar [100, 50] 98 0 0; let u := s.to t; let tg := (u.vtarget u.course.speed.natAbs).1;
      let cur := u.bond.variant; u.bond.signalLate = false ∧ tg = cur) ∧
    (let t : Nat := 0; let s : State := (wVar [100, 50] 0 0 0).updBond (fun b => { b with signalLate := true }); let u := s.to t; let n := 1;
      u.bond.signalLate = true ∧ u.cheaper u.bond.variant = some n) := ⟨by decide +kernel, by decide +kernel, by decide +kernel, by decide +kernel, by decide +kernel, by decide +kernel, by decide +kernel, by decide +kernel⟩

theorem witness_VariantsGraphsModelsAndAccounts_2 :
    (let t : Nat := 0; let s : State := wVar [100, 50] 99 0 0; let u := s.to t; (u.vtarget u.course.speed.natAbs).2 = true) ∧
    (let h : Hdr := h3; let s : State := ((withRegs [(0x20, 8)] rdy).stBytes (memKey 3 0x6660000) [1#8]).stBytes (memKey 3 0x6660014) [0x3F#8];
      let u := s.atHost h; let d := 3; let a := 0x6660000; let es := (u.graphParse d a).get!; Carried s h (.graphSubmit d a) ∧ u.hasDie d = true ∧
      (u.dieAt d).st ≠ .failed ∧ u.graphParse d a = some es ∧ (∀ e ∈ es, e.slot = 0x3F ∨ (u.clientMask d).testBit e.slot = true) ∧
      u.shareFull d es.length = false ∧
      u.eccRead (memKey (spLintel d) a) (u.graphBytes d a) = (u, false)) ∧
    (let s : State := (withRegs [(0x20, 8)] rdy).updMt (fun m => { m with flips := [(memKey (spLintel 3) 0x6660000, 3)] });
      let u := s.atHost h3;
      Carried s h3 (.graphSubmit 3 0x6660000) ∧ u.hasDie 3 = true ∧ (u.dieAt 3).st ≠ .failed ∧
      (u.eccRead (memKey (spLintel 3) 0x6660000) (u.graphBytes 3 0x6660000)).2 = true) ∧
    (let s : State := (withRegs [(0x20, 8)] rdy).stBytes (memKey 3 0x6660000) [1#8, 0#8, 0xFF#8, 0xFF#8]; let u := s.atHost h3;
      Carried s h3 (.graphSubmit 3 0x6660000) ∧ u.hasDie 3 = true ∧ (u.dieAt 3).st ≠ .failed ∧
      u.eccRead (memKey (spLintel 3) 0x6660000) (u.graphBytes 3 0x6660000) = (u, false) ∧ u.graphParse 3 0x6660000 = none) ∧
    (let h : Hdr := h0; let s : State := wBond (fun b => { b with graphs := [graph0 1 15 0] }); let u := s.atHost h; let id := 1;
      let g := graph0 1 15 0; Carried s h (.graphWait id) ∧ u.bond.graphs.find? (fun g => g.id == id) = some g ∧
      (h.client = 15 ∨ h.client = g.client) ∧ u.deferredCnt < 8) ∧
    (let h : Hdr := h0; let s : State := wBond (fun b => { b with finished := [(1, 15, 2, 3)] }); let u := s.atHost h; let id := 1; let k := 1;
      let c := 15; let ok := 2; let other := 3; Carried s h (.graphWait id) ∧ u.bond.graphs.find? (fun g => g.id == id) = none ∧
      u.bond.finished.find? (fun f => f.1 == id) = some (k, c, ok, other) ∧ (h.client = 15 ∨ h.client = c)) ∧
    (let h : Hdr := h0; let s : State := rdy; let u := s.atHost h; let id := 1; let mask := 15; let signed := false; let len := 1;
      let digest := List.replicate 64 0#8; Carried s h (.modelLoad id mask signed len digest) ∧
      (∀ d, d < 4 → mask.testBit d = true → u.hasDie d = true) ∧ u.planRuns = false ∧ len ≠ 0 ∧ u.deferredCnt < 8) ∧
    (let h : Hdr := h0; let s : State := rdy.updSdio (fun x => { x with models := [⟨1, 15, 15, [], [], []⟩] }); let u := s.atHost h; let id := 1;
      let m := (⟨1, 15, 15, [], [], []⟩ : ModelImg); Carried s h (.modelUnload id) ∧ u.sdio.models.find? (fun m => m.id == id) = some m ∧
      (h.client = 15 ∨ h.client = m.client) ∧ u.planNames m.digest = false) ∧
    (let t : Nat := 5000000; let s : State := rdy; let y := s.to t; y.periodNow ≠ y.bond.periodStart) ∧
    (let h : Hdr := h0; let s : State := rdy; let u := s.atHost h; let c := 3; let d := 3; Carried s h (.accountRead c d) ∧
      (h.client = 15 ∨ h.client = c) ∧ (4 ≤ d ∨ u.hasDie d = true)) := by
  exact ⟨by decide +kernel,
    ⟨by exact carried_of (by decide +kernel), by decide +kernel, by decide +kernel, by decide +kernel, by decide +kernel, by decide +kernel,
      by decide +kernel⟩,
    ⟨carried_of (by decide +kernel), by decide +kernel, by decide +kernel, by decide +kernel⟩,
    ⟨carried_of (by decide +kernel), by decide +kernel, by decide +kernel, by decide +kernel, by decide +kernel⟩,
    ⟨by exact carried_of (by decide +kernel), by decide +kernel, by decide +kernel, by decide +kernel⟩,
    ⟨by exact carried_of (by decide +kernel), by decide +kernel, by decide +kernel, by decide +kernel⟩,
    ⟨by exact carried_of (by decide +kernel), by decide +kernel, by decide +kernel, by decide +kernel, by decide +kernel⟩,
    ⟨by exact carried_of (by decide +kernel), by decide +kernel, by decide +kernel, by decide +kernel⟩,
    by decide +kernel,
    ⟨by exact carried_of (by decide +kernel), by decide +kernel, by decide +kernel⟩⟩

theorem witness_VariantsGraphsModelsAndAccounts_3 :
    (let h : Hdr := h0; let s : State := rdy; let u := s.atHost h; let c := 3; let d := 4; Carried s h (.accountRead c d) ∧
      (h.client = 15 ∨ h.client = c) ∧ (4 ≤ d ∨ u.hasDie d = true)) ∧
    (let h : Hdr := h0; let s : State := rdy; Written s h 0x7000C 2) ∧
    (let h : Hdr := h0; let s : State := rdy; let value : Word := 127#32; value.toNat < 128 ∧ Written s h 0x70060 value.toNat) := by
  exact ⟨⟨by exact carried_of (by decide +kernel), by decide +kernel, by decide +kernel⟩,
    by exact written_of (by decide +kernel),
    ⟨by decide +kernel, by exact written_of (by decide +kernel)⟩⟩

theorem witness_AxesFollowTheirFeedback_1 :
    (let t : Nat := 0; let ax : Nat := 15; let s : State := wAx (fun x => { x with st := .enabled }) [(aAx 15, 0x200000)]; let u := s.to t;
      let x := u.axAt ax; let a := filterPass (u.rfld (aAx ax + 4) 31 24) u.now x.aAt x.a true; let b := filterPass (u.rfld (aAx ax + 4) 31 24) u.now x.bAt x.b false;
      ax < 16 ∧ ax < u.line.axis.length ∧ u.axFb ax = 1 ∧ (x.a = a ∨ x.b = b)) ∧
    (let t : Nat := 0; let ax : Nat := 15; let s : State := wAx (fun x => { x with st := .enabled }) [(aAx 15, 0x200000)]; let u := s.to t;
      let x := u.axAt ax; let a := filterPass (u.rfld (aAx ax + 4) 31 24) u.now x.aAt x.a true; let b := filterPass (u.rfld (aAx ax + 4) 31 24) u.now x.bAt x.b true;
      ax < 16 ∧ ax < u.line.axis.length ∧ u.axFb ax = 1 ∧ x.a ≠ a ∧ x.b ≠ b ∧ x.st = .enabled) ∧
    (let t : Nat := 0; let ax : Nat := 15; let s : State := wAx (fun x => { x with st := .enabled }) [(aAx 15, 0x200000), (aAx 15 + 4, 0x800000)];
      let u := s.to t; let x := u.axAt ax; ax < 16 ∧ ax < u.line.axis.length ∧ u.axFb ax = 1 ∧ u.rbit (aAx ax + 4) 23 = true ∧ x.st = .enabled) ∧
    (let t : Nat := 0; let ax : Nat := 15; let s : State := wAx (fun x => x) [(aAx 15, 0x400000), (aAx 15 + 4, 0x800000)]; let u := s.to t; ax < 16 ∧
      ax < u.line.axis.length ∧ (u.axFb ax ≠ 1 ∨ u.rbit (aAx ax + 4) 23 = false)) ∧
    (let t : Nat := 0; let ax : Nat := 15; let s : State := wAx (fun x => x) [(aAx 15, 0x200000)]; let u := s.to t; ax < 16 ∧
      ax < u.line.axis.length ∧ (u.axFb ax ≠ 1 ∨ u.rbit (aAx ax + 4) 23 = false)) ∧
    (let t : Nat := 0; let ax : Nat := 15;
      let s : State := wAx (fun x => { x with st := .enabled, frame := true, ssi := some 3 }) [(aAx 15, 0x400000), (aAx 15 + 4, 0x4F0000)];
      let u := s.to t; let x := u.axAt ax; let p := 3; ax < 16 ∧ ax < u.line.axis.length ∧ u.axFb ax = 2 ∧ x.frame = true ∧ x.ssi = some p) ∧
    (let t : Nat := 31250; let ax : Nat := 15; let s : State := wAx (fun x => x); let u := s.to t; ax < 16 ∧ ax < u.line.axis.length ∧
      u.plumb.restart = none ∧ u.baseDue = true) ∧
    (let t : Nat := 31249; let ax : Nat := 15; let s : State := wAx (fun x => x); let u := s.to t; ax < 16 ∧ ax < u.line.axis.length ∧
      u.plumb.restart = none ∧ u.baseDue = false) := ⟨by decide +kernel, by decide +kernel, by decide +kernel, by decide +kernel, by decide +kernel, by decide +kernel, by decide +kernel, by decide +kernel⟩

theorem witness_AxesFollowTheirFeedback_2 :
    (let t : Nat := 0; let ax : Nat := 15; let s : State := wAx (fun x => { x with cmd := some ⟨1#32, true, false⟩ }); let u := s.to t;
      let x := u.axAt ax; let c := (⟨1#32, true, false⟩ : AxCmd); ax < 16 ∧ ax < u.line.axis.length ∧ x.cmd = some c ∧ c.passed = true) ∧
    (let t : Nat := 0; let ax : Nat := 15; let s : State := wAx (fun x => { x with cmd := some ⟨1#32, false, false⟩ }); let u := s.to t;
      let x := u.axAt ax; let c := (⟨1#32, false, false⟩ : AxCmd); ax < 16 ∧ ax < u.line.axis.length ∧ x.cmd = some c ∧ c.passed = false) := by decide +kernel

theorem witness_ControlLawsRun :
    let used (op : Nat) : LawInstr :=
      { op := op, d := 63, a := if op = 10 then 0 else 1, b := if op ≤ 6 ∨ op = 8 ∨ op = 9 then 2 else 0, c := if op = 4 ∨ 8 ≤ op ∧ op ≤ 10 then 3 else 0 }
    let law (p : List LawInstr) : State := wAx (fun x => { x with st := .enabled, samp := true, prog := p })
    let off : State := wAx (fun x => { x with st := .enabled, samp := true, frame := true })
    let here (p : List LawInstr) (q : LawInstr → Bool) : Bool := ((((law p).to 0).axAt 15).prog[(((law p).to 0).axAt 15).lawPc]?).any q
    (((law []).to 0).lawReady 15 = true ∧ ((law []).to 0).plumb.st ≠ .split ∧ 15 < ((law []).to 0).line.axis.length ∧
      15 < ((law []).to 0).plumb.targets.length ∧ here [] (fun j => j.op != 0) = false) ∧
    ((List.range 13).all (fun k => ((law [used (k + 1)]).to 0).lawReady 15 && here [used (k + 1)] (fun j => j.used == used (k + 1)) &&
      !here [used (k + 1)] (fun j => j.used == used (if k = 0 then 2 else k)) && here [used (k + 1)] (fun j => j.op != 0)) = true) ∧
    (off.to 0).lawReady 15 = false := by decide +kernel

theorem witness_AxisCommandsActOnTheirAxis_1 :
    (let h : Hdr := h0; let ax : Nat := 15; let s : State := wAx (fun x => { x with st := .disabled }); let u := s.atHost h; let x := u.axAt ax;
      ax < 16 ∧ ax < u.line.axis.length ∧ Written s h 0x80010 (0x1000000 + ax) ∧ x.st = .disabled ∧ u.axCfgErr ax = false) ∧
    (let h : Hdr := h0; let ax : Nat := 15; let s : State := wAx (fun x => { x with st := .disabled }) [(aAx 15, 0xE0000000)]; let u := s.atHost h;
      let x := u.axAt ax; ax < 16 ∧ ax < u.line.axis.length ∧ Written s h 0x80010 (0x1000000 + ax) ∧ x.st = .disabled ∧ u.axCfgErr ax = true) ∧
    (let h : Hdr := h0; let ax : Nat := 15; let s : State := wAx (fun x => { x with st := .enabled }); let u := s.atHost h; let x := u.axAt ax;
      ax < 16 ∧ ax < u.line.axis.length ∧ Written s h 0x80010 (0x1000000 + ax) ∧ x.st ≠ .disabled) ∧
    (let h : Hdr := h0; let ax : Nat := 15; let s : State := wAx (fun x => { x with st := .disabled }); let u := s.atHost h; ax < 16 ∧
      ax < u.line.axis.length ∧ Written s h 0x80010 (0x2000000 + ax)) ∧
    (let h : Hdr := h0; let ax : Nat := 15; let s : State := wAx (fun x => { x with st := .fault }); let u := s.atHost h; let x := u.axAt ax;
      ax < 16 ∧ ax < u.line.axis.length ∧ Written s h 0x80010 (0x3000000 + ax) ∧ x.st = .fault) ∧
    (let h : Hdr := h0; let ax : Nat := 15; let s : State := wAx (fun x => { x with st := .disabled }); let u := s.atHost h; let x := u.axAt ax;
      ax < 16 ∧ ax < u.line.axis.length ∧ Written s h 0x80010 (0x3000000 + ax) ∧ x.st ≠ .fault) ∧
    (let h : Hdr := h0; let ax : Nat := 15; let s : State := wAx (fun x => { x with st := .notHomed }); let u := s.atHost h; let x := u.axAt ax;
      ax < 16 ∧ ax < u.line.axis.length ∧ Written s h 0x80010 (0x4000000 + ax) ∧ (x.st = .notHomed ∨ x.st = .disabled)) ∧
    (let h : Hdr := h0; let ax : Nat := 15; let s : State := wAx (fun x => { x with st := .disabled }); let u := s.atHost h; let x := u.axAt ax;
      ax < 16 ∧ ax < u.line.axis.length ∧ Written s h 0x80010 (0x4000000 + ax) ∧ (x.st = .notHomed ∨ x.st = .disabled)) := by
  exact ⟨⟨by decide +kernel, by decide +kernel, by exact written_of (by decide +kernel), by decide +kernel, by decide +kernel⟩,
    ⟨by decide +kernel, by decide +kernel, by exact written_of (by decide +kernel), by decide +kernel, by decide +kernel⟩,
    ⟨by decide +kernel, by decide +kernel, by exact written_of (by decide +kernel), by decide +kernel⟩,
    ⟨by decide +kernel, by decide +kernel, by exact written_of (by decide +kernel)⟩,
    ⟨by decide +kernel, by decide +kernel, by exact written_of (by decide +kernel), by decide +kernel⟩,
    ⟨by decide +kernel, by decide +kernel, by exact written_of (by decide +kernel), by decide +kernel⟩,
    ⟨by decide +kernel, by decide +kernel, by exact written_of (by decide +kernel), by decide +kernel⟩,
    ⟨by decide +kernel, by decide +kernel, by exact written_of (by decide +kernel), by decide +kernel⟩⟩

theorem witness_AxisCommandsActOnTheirAxis_2 :
    (let h : Hdr := h0; let ax : Nat := 15; let s : State := wAx (fun x => { x with st := .enabled }); let u := s.atHost h; let x := u.axAt ax;
      ax < 16 ∧ ax < u.line.axis.length ∧ Written s h 0x80010 (0x4000000 + ax) ∧ (x.st = .enabled ∨ x.st = .fault ∨ x.st = .off)) ∧
    (let h : Hdr := h0; let ax : Nat := 15; let s : State := wAx (fun x => { x with st := .fault }); let u := s.atHost h; let x := u.axAt ax;
      ax < 16 ∧ ax < u.line.axis.length ∧ Written s h 0x80010 (0x4000000 + ax) ∧ (x.st = .enabled ∨ x.st = .fault ∨ x.st = .off)) ∧
    (let h : Hdr := h0; let ax : Nat := 15; let s : State := wAx (fun x => { x with st := .off }); let u := s.atHost h; let x := u.axAt ax; ax < 16 ∧
      ax < u.line.axis.length ∧ Written s h 0x80010 (0x4000000 + ax) ∧ (x.st = .enabled ∨ x.st = .fault ∨ x.st = .off)) ∧
    (let h : Hdr := h0; let ax : Nat := 15; let s : State := wAx (fun x => { x with st := .disabled }); let u := s.atHost h; ax < 16 ∧
      ax < u.line.axis.length ∧ Written s h 0x80010 (0x5000000 + ax)) ∧
    (let h : Hdr := h0; let ax : Nat := 15; let s : State := wAx (fun x => { x with st := .disabled }); let u := s.atHost h; ax < 16 ∧
      ax < u.line.axis.length ∧ Written s h 0x80010 (0x6000000 + ax)) ∧
    (let h : Hdr := h0; let ax : Nat := 15; let s : State := wAx (fun x => { x with st := .disabled }); let u := s.atHost h; let g := 7; ax < 16 ∧
      ax < u.line.axis.length ∧ g < 8 ∧ g < u.line.grp.length ∧ Written s h 0x80010 (0x7000000 + g)) ∧
    (let h : Hdr := h0; let ax : Nat := 15; let s : State := wAx (fun x => { x with st := .disabled }); let u := s.atHost h; ax < 16 ∧
      ax < u.line.axis.length ∧ Written s h 0x80010 0x8000000) ∧
    (let h : Hdr := h0; let ax : Nat := 15; let s : State := rdy; let u := s.atHost h; ax < 16 ∧ ax < u.line.axis.length ∧
      u.addrLacks 0x80000 = false ∧ u.restarting = false ∧ u.planRuns = false ∧ Carried s h (.regModify 0x80000#32 1#32 1#32) ∧
      u.rbit 0x80000 0 = false) := by
  exact ⟨⟨by decide +kernel, by decide +kernel, by exact written_of (by decide +kernel), by decide +kernel⟩,
    ⟨by decide +kernel, by decide +kernel, by exact written_of (by decide +kernel), by decide +kernel⟩,
    ⟨by decide +kernel, by decide +kernel, by exact written_of (by decide +kernel), by decide +kernel⟩,
    ⟨by decide +kernel, by decide +kernel, by exact written_of (by decide +kernel)⟩,
    ⟨by decide +kernel, by decide +kernel, by exact written_of (by decide +kernel)⟩,
    ⟨by decide +kernel, by decide +kernel, by decide +kernel, by decide +kernel, by exact written_of (by decide +kernel)⟩,
    ⟨by decide +kernel, by decide +kernel, by exact written_of (by decide +kernel)⟩,
    ⟨by decide +kernel, by decide +kernel, by decide +kernel, by decide +kernel, by decide +kernel, by exact carried_of (by decide +kernel), by decide +kernel⟩⟩

theorem witness_AxisCommandsActOnTheirAxis_3 :
    (let h : Hdr := h0; let ax : Nat := 15; let s : State := withRegs [(0x80000, 1)] rdy; let u := s.atHost h; ax < 16 ∧ ax < u.line.axis.length ∧
      u.addrLacks 0x80000 = false ∧ u.restarting = false ∧ u.planRuns = false ∧ Carried s h (.regModify 0x80000#32 1#32 0#32) ∧
      u.rbit 0x80000 0 = true) ∧
    (let h : Hdr := h0; let ax : Nat := 15; let s : State := wAx (fun x => { x with st := .disabled }); let u := s.atHost h; let x := u.axAt ax;
      let text := [0x34000000#32]; let consts := List.replicate 64 1#32; let inits := List.replicate 48 2#32;
      let l := ([⟨13, 0, 0, 0, 0⟩] : List LawInstr); ax < 16 ∧ ax < u.line.axis.length ∧ Carried s h (.servoProgLoad ax text consts inits) ∧
      x.st ≠ .enabled ∧ text.mapM lawDecode = some l) ∧
    (let h : Hdr := h0; let ax : Nat := 15; let s : State := wAx (fun x => { x with st := .enabled }); let u := s.atHost h; let x := u.axAt ax;
      let text := [0x34000000#32]; let consts := List.replicate 64 1#32; let inits := List.replicate 48 2#32; ax < 16 ∧ ax < u.line.axis.length ∧
      Carried s h (.servoProgLoad ax text consts inits) ∧ x.st = .enabled) := by
  exact ⟨⟨by decide +kernel, by decide +kernel, by decide +kernel, by decide +kernel, by decide +kernel, by exact carried_of (by decide +kernel), by decide +kernel⟩,
    ⟨by decide +kernel, by decide +kernel, by exact carried_of (by decide +kernel), by decide +kernel, by decide +kernel⟩,
    ⟨by decide +kernel, by decide +kernel, by exact carried_of (by decide +kernel), by decide +kernel⟩⟩

theorem witness_ControllersSolveAndFallBack_1 :
    (let t : Nat := 0; let c : Nat := 7; let h : Hdr := h0; let s : State := rdy; let u := s.to t; let y := s.atHost h; c < 8 ∧ c < u.line.qp.length ∧
      c < y.line.qp.length ∧ u.qpDue c = false) ∧
    (let t : Nat := 0; let c : Nat := 7; let h : Hdr := h0; let s : State := wQp (fun q => { q with st := .waiting }); let u := s.to t;
      let y := s.atHost h; let p := prob0 1 1; let w := u.bump (aQp c + 0x1C); let th := ([] : List Word); c < 8 ∧ c < u.line.qp.length ∧
      c < y.line.qp.length ∧ u.qpDue c = true ∧ u.qpRanges c = true ∧ (u.qpAt c).st = .waiting ∧ (u.qpAt c).prob = some p ∧ (u.qpAt c).staged = none ∧
      (u.qpAt c).outs = none ∧ (u.bump (aQp c + 0x1C)).thetaSample c p.theta = (w, th, false)) ∧
    (let t : Nat := 124999; let c : Nat := 7; let h : Hdr := h0; let s : State := wQp (fun q => { q with st := .solving, begun := some 0 });
      let u := s.to t; let y := s.atHost h; let p := prob0 1 1; c < 8 ∧ c < u.line.qp.length ∧ c < y.line.qp.length ∧ (u.qpAt c).prob = some p ∧
      u.qpSolving c false = true) ∧
    (let t : Nat := 125000; let c : Nat := 7; let h : Hdr := h0; let s : State := wQp (fun q => { q with st := .solving, begun := some 0 });
      let u := s.to t; let y := s.atHost h; let p := prob0 1 1; c < 8 ∧ c < u.line.qp.length ∧ c < y.line.qp.length ∧ (u.qpAt c).prob = some p ∧
      u.qpSolving c false = false) ∧
    (let t : Nat := 125000; let c : Nat := 7; let h : Hdr := h0; let s : State := wQp (fun q => { q with st := .solving, begun := some 0 });
      let u := s.to t; let y := s.atHost h; c < 8 ∧ c < u.line.qp.length ∧ c < y.line.qp.length ∧ u.qpSolving c true = true) ∧
    (let t : Nat := 0; let c : Nat := 7; let h : Hdr := h0; let s : State := wQp (fun q => { q with st := .solving, begun := some 0 });
      let u := s.to t; let y := s.atHost h; c < 8 ∧ c < u.line.qp.length ∧ c < y.line.qp.length) ∧
    (let t : Nat := 0; let c : Nat := 7; let h : Hdr := h0; let s : State := wQp (fun q => q); let u := s.to t; let y := s.atHost h;
      let p := prob0 1 1; let q := y.qpDensity (((List.range 8).filter y.qpOn) ++ [c]); c < 8 ∧ c < u.line.qp.length ∧ c < y.line.qp.length ∧
      Written s h 0x90010 (0x1000000 + c) ∧ (y.qpAt c).st = .off ∧ (y.qpAt c).prob = some p ∧ y.qpRanges c = true ∧ q.1 ≤ q.2) ∧
    (let t : Nat := 0; let c : Nat := 7; let h : Hdr := h0; let s : State := wQp (fun q => { q with prob := some (prob0 255 1023) }) 0x100010;
      let u := s.to t; let y := s.atHost h; let p := prob0 255 1023; let q := y.qpDensity (((List.range 8).filter y.qpOn) ++ [c]); c < 8 ∧
      c < u.line.qp.length ∧ c < y.line.qp.length ∧ Written s h 0x90010 (0x1000000 + c) ∧ (y.qpAt c).st = .off ∧ (y.qpAt c).prob = some p ∧
      y.qpRanges c = true ∧ q.2 < q.1) := by
  exact ⟨by decide +kernel,
    by decide +kernel,
    by decide +kernel,
    by decide +kernel,
    by decide +kernel,
    by decide +kernel,
    ⟨by decide +kernel, by decide +kernel, by decide +kernel, by exact written_of (by decide +kernel), by decide +kernel, by decide +kernel, by decide +kernel, by decide +kernel⟩,
    ⟨by decide +kernel, by decide +kernel, by decide +kernel, by exact written_of (by decide +kernel), by decide +kernel, by decide +kernel, by decide +kernel, by decide +kernel⟩⟩

theorem witness_ControllersSolveAndFallBack_2 :
    (let t : Nat := 0; let c : Nat := 7; let h : Hdr := h0; let s : State := wQp (fun q => q) 0; let u := s.to t; let y := s.atHost h;
      let p := prob0 1 1; c < 8 ∧ c < u.line.qp.length ∧ c < y.line.qp.length ∧ Written s h 0x90010 (0x1000000 + c) ∧ (y.qpAt c).st = .off ∧
      (y.qpAt c).prob = some p ∧ y.qpRanges c = false) ∧
    (let t : Nat := 0; let c : Nat := 7; let h : Hdr := h0; let s : State := wQp (fun q => { q with st := .waiting }); let u := s.to t;
      let y := s.atHost h; c < 8 ∧ c < u.line.qp.length ∧ c < y.line.qp.length ∧ Written s h 0x90010 (0x2000000 + c) ∧ (y.qpAt c).st ≠ .off) ∧
    (let t : Nat := 0; let c : Nat := 7; let h : Hdr := h0; let s : State := rdy; let u := s.to t; let y := s.atHost h; c < 8 ∧ c < u.line.qp.length ∧
      c < y.line.qp.length ∧ Written s h 0x90010 (0x2000000 + c) ∧ (y.qpAt c).st = .off) ∧
    (let t : Nat := 0; let c : Nat := 7; let h : Hdr := h0; let s : State := wQp (fun q => { q with st := .failed }); let u := s.to t;
      let y := s.atHost h; c < 8 ∧ c < u.line.qp.length ∧ c < y.line.qp.length ∧ Written s h 0x90010 (0x3000000 + c) ∧ (y.qpAt c).st = .failed) ∧
    (let t : Nat := 0; let c : Nat := 7; let h : Hdr := h0; let s : State := wQp (fun q => { q with st := .waiting }); let u := s.to t;
      let y := s.atHost h; c < 8 ∧ c < u.line.qp.length ∧ c < y.line.qp.length ∧ Written s h 0x90010 (0x3000000 + c) ∧ (y.qpAt c).st ≠ .failed) ∧
    (let t : Nat := 0; let c : Nat := 7; let h : Hdr := h0; let s : State := wQp (fun q => { q with st := .waiting }); let u := s.to t;
      let y := s.atHost h; c < 8 ∧ c < u.line.qp.length ∧ c < y.line.qp.length ∧ Written s h 0x90010 (0x4000000 + c)) ∧
    (let t : Nat := 0; let c : Nat := 7; let h : Hdr := h0; let s : State := wQp (fun q => { q with st := .waiting }); let u := s.to t;
      let y := s.atHost h; let len := 1; c < 8 ∧ c < u.line.qp.length ∧ c < y.line.qp.length ∧ Carried s h (.qpLoad c len) ∧ len ≠ 0 ∧
      y.deferredCnt < 8) := by
  exact ⟨⟨by decide +kernel, by decide +kernel, by decide +kernel, by exact written_of (by decide +kernel), by decide +kernel, by decide +kernel, by decide +kernel⟩,
    ⟨by decide +kernel, by decide +kernel, by decide +kernel, by exact written_of (by decide +kernel), by decide +kernel⟩,
    ⟨by decide +kernel, by decide +kernel, by decide +kernel, by exact written_of (by decide +kernel), by decide +kernel⟩,
    ⟨by decide +kernel, by decide +kernel, by decide +kernel, by exact written_of (by decide +kernel), by decide +kernel⟩,
    ⟨by decide +kernel, by decide +kernel, by decide +kernel, by exact written_of (by decide +kernel), by decide +kernel⟩,
    ⟨by decide +kernel, by decide +kernel, by decide +kernel, by exact written_of (by decide +kernel)⟩,
    ⟨by decide +kernel, by decide +kernel, by decide +kernel, by exact carried_of (by decide +kernel), by decide +kernel, by decide +kernel⟩⟩

theorem witness_MotionRequestsAreTaken_1 :
    (let t : Nat := 0; let r : Req := req0 1; let s : State := wCar (fun k => k); let u := s.to t; let c := r.carriage; let k := u.carAt c;
      let p : Req := { r with taken := u.now, pair := 255, wid := u.line.reqs + 1, bad := false };
      let rows : List (Instr × Nat) := [(.goto t r, 1), (.markReq t r, 2), (.cut t r, 3), (.park t r, 4)];
      let live := k.st ≠ .off ∧ k.st ≠ .unavailable; let late := markKind r = true ∧ u.spx p ≤ u.sp; let x := (Instr.goto t r, 1);
      u.motionRuns = true ∧ c < u.line.car.length ∧ reqIsBad r = false ∧ x ∈ rows ∧ r.kind = x.2 ∧ live ∧ ¬ late ∧ k.queue.length < 32) ∧
    (let t : Nat := 0; let r : Req := req0 3 101; let s : State := (wCar (fun k => k)).updCourse (fun c => { c with sp := 100 * 2 ^ 24 });
      let u := s.to t; let c := r.carriage; let k := u.carAt c;
      let p : Req := { r with taken := u.now, pair := 255, wid := u.line.reqs + 1, bad := false };
      let rows : List (Instr × Nat) := [(.goto t r, 1), (.markReq t r, 2), (.cut t r, 3), (.park t r, 4)];
      let live := k.st ≠ .off ∧ k.st ≠ .unavailable; let late := markKind r = true ∧ u.spx p ≤ u.sp; let x := (Instr.cut t r, 3);
      u.motionRuns = true ∧ c < u.line.car.length ∧ reqIsBad r = false ∧ x ∈ rows ∧ r.kind = x.2 ∧ live ∧ ¬ late ∧ k.queue.length < 32) ∧
    (let t : Nat := 0; let r : Req := req0 1; let s : State := wCar (fun k => { k with st := .unavailable }); let u := s.to t; let c := r.carriage;
      let k := u.carAt c; let rows : List (Instr × Nat) := [(.goto t r, 1), (.markReq t r, 2), (.cut t r, 3), (.park t r, 4)];
      let live := k.st ≠ .off ∧ k.st ≠ .unavailable; let x := (Instr.goto t r, 1); u.motionRuns = true ∧ c < u.line.car.length ∧ reqIsBad r = false ∧
      x ∈ rows ∧ r.kind = x.2 ∧ ¬ live) ∧
    (let t : Nat := 0; let r : Req := req0 2 100; let s : State := (wCar (fun k => k)).updCourse (fun c => { c with sp := 100 * 2 ^ 24 });
      let u := s.to t; let c := r.carriage; let k := u.carAt c;
      let p : Req := { r with taken := u.now, pair := 255, wid := u.line.reqs + 1, bad := false };
      let rows : List (Instr × Nat) := [(.goto t r, 1), (.markReq t r, 2), (.cut t r, 3), (.park t r, 4)];
      let live := k.st ≠ .off ∧ k.st ≠ .unavailable; let late := markKind r = true ∧ u.spx p ≤ u.sp; let x := (Instr.markReq t r, 2);
      u.motionRuns = true ∧ c < u.line.car.length ∧ reqIsBad r = false ∧ x ∈ rows ∧ r.kind = x.2 ∧ live ∧ late) ∧
    (let t : Nat := 0; let r : Req := req0 1; let s : State := wCar (fun k => { k with queue := List.replicate 32 (req0 1) }); let u := s.to t;
      let c := r.carriage; let k := u.carAt c; let p : Req := { r with taken := u.now, pair := 255, wid := u.line.reqs + 1, bad := false };
      let rows : List (Instr × Nat) := [(.goto t r, 1), (.markReq t r, 2), (.cut t r, 3), (.park t r, 4)];
      let live := k.st ≠ .off ∧ k.st ≠ .unavailable; let late := markKind r = true ∧ u.spx p ≤ u.sp; let x := (Instr.goto t r, 1);
      u.motionRuns = true ∧ c < u.line.car.length ∧ reqIsBad r = false ∧ x ∈ rows ∧ r.kind = x.2 ∧ live ∧ ¬ late ∧ 32 ≤ k.queue.length) ∧
    (let t : Nat := 0; let r : Req := { req0 5 with slot := 255 }; let s : State := wCar (fun k => k); let u := s.to t; let c := r.carriage;
      u.motionRuns = true ∧ c < u.line.car.length ∧ reqIsBad r = false ∧ r.kind = 5) ∧
    (let t : Nat := 0; let r : Req := req0 6; let h : Hdr := h0;
      let s : State := wCar (fun k => { k with queue := [req0 1, { req0 6 with need := 9 }] }); let u := s.to t; let y := s.atHost h;
      let c := r.carriage; let k := u.carAt c; let hd := req0 1; let q := ([{ req0 6 with need := 9 }] : List Req);
      let x := ({ req0 6 with need := 9 } : Req); u.motionRuns = true ∧ c < u.line.car.length ∧ reqIsBad r = false ∧ r.kind = 6 ∧ k.queue = hd :: q ∧
      q.find? (fun y => y.id == r.id) = some x) ∧
    (let t : Nat := 0; let r : Req := req0 6; let h : Hdr := h0; let s : State := wCar (fun k => k); let u := s.to t; let y := s.atHost h;
      let c := r.carriage; let k := u.carAt c; u.motionRuns = true ∧ c < u.line.car.length ∧ reqIsBad r = false ∧ r.kind = 6 ∧
      (k.queue = [] ∨ (∀ y ∈ k.queue.drop 1, y.id ≠ r.id))) := by
  exact ⟨⟨by decide +kernel, by decide +kernel, by decide +kernel, by exact by repeat (first | exact .head _ | apply List.Mem.tail), by decide +kernel, by decide +kernel, by decide +kernel, by decide +kernel⟩,
    ⟨by decide +kernel, by decide +kernel, by decide +kernel, by exact by repeat (first | exact .head _ | apply List.Mem.tail), by decide +kernel, by decide +kernel, by decide +kernel, by decide +kernel⟩,
    ⟨by decide +kernel, by decide +kernel, by decide +kernel, by exact by repeat (first | exact .head _ | apply List.Mem.tail), by decide +kernel, by decide +kernel⟩,
    ⟨by decide +kernel, by decide +kernel, by decide +kernel, by exact by repeat (first | exact .head _ | apply List.Mem.tail), by decide +kernel, by decide +kernel, by decide +kernel⟩,
    ⟨by decide +kernel, by decide +kernel, by decide +kernel, by exact by repeat (first | exact .head _ | apply List.Mem.tail), by decide +kernel, by decide +kernel, by decide +kernel, by decide +kernel⟩,
    by decide +kernel,
    by decide +kernel,
    by decide +kernel⟩

theorem witness_MotionRequestsAreTaken_2 :
    (let t : Nat := 0; let r : Req := req0 6; let h : Hdr := h0; let s : State := wCar (fun k => { k with queue := [req0 1] }); let u := s.to t;
      let y := s.atHost h; let c := r.carriage; let k := u.carAt c; u.motionRuns = true ∧ c < u.line.car.length ∧ reqIsBad r = false ∧ r.kind = 6 ∧
      (k.queue = [] ∨ (∀ y ∈ k.queue.drop 1, y.id ≠ r.id))) ∧
    (let t : Nat := 0; let r : Req := req0 7; let s : State := wCar (fun k => k); let u := s.to t; let c := r.carriage; u.motionRuns = true ∧
      c < u.line.car.length ∧ reqIsBad r = true) ∧
    (let t : Nat := 0; let r : Req := req0 1; let h : Hdr := h0; let s : State := wCar (fun k => k); let u := s.to t; let c := r.carriage;
      let reqs := [req0 1]; u.motionRuns = true ∧ c < u.line.car.length ∧ Carried s h (.motionPost reqs)) ∧
    (let t : Nat := 0; let r : Req := req0 1; let h : Hdr := h0; let s : State := wCar (fun k => k); let u := s.to t; let c := r.carriage;
      let car := 7; u.motionRuns = true ∧ c < u.line.car.length ∧ car < 8 ∧ Written s h 0xA0010 (0x2000000 + car)) := by
  exact ⟨by decide +kernel,
    by decide +kernel,
    ⟨by decide +kernel, by decide +kernel, by exact carried_of (by decide +kernel)⟩,
    ⟨by decide +kernel, by decide +kernel, by decide +kernel, by exact written_of (by decide +kernel)⟩⟩

theorem witness_BatchesCommitAndMapsArePublished_1 :
    (let t : Nat := 0; let c : Nat := 7; let s : State := wCar (fun k => { k with queue := [req0 1] }); let u := s.to t; let r := req0 1;
      let q := ([] : List Req); c < 8 ∧ c < u.line.car.length ∧ u.batchMayStart c = true ∧ (u.carAt c).queue = r :: q) ∧
    (let t : Nat := 0; let c : Nat := 7; let s : State := rdy; let u := s.to t; c < 8 ∧ c < u.line.car.length ∧ u.batchMayStart c = false) ∧
    (let t : Nat := 0; let c : Nat := 7; let s : State := wBatch (batch0 false false []); let u := s.to t; let b := batch0 false false []; c < 8 ∧
      c < u.line.car.length ∧ u.line.batch = some b ∧ b.car = c ∧ b.recheck = false ∧ b.start + b.ticks ≤ u.now ∧ u.now < b.ts ∧ b.cands = []) ∧
    (let t : Nat := 0; let c : Nat := 7; let s : State := wBatch (batch0 false false [cand0]); let u := s.to t; let b := batch0 false false [cand0];
      let x := cand0; let l := ([] : List Cand); let r := req0 1; let q := ([] : List Req); c < 8 ∧ c < u.line.car.length ∧ u.line.batch = some b ∧
      b.car = c ∧ b.recheck = false ∧ b.start + b.ticks ≤ u.now ∧ u.now < b.ts ∧ b.cands = x :: l ∧ u.changedIn b.version x.box = false ∧
      (u.carAt c).queue = r :: q) ∧
    (let t : Nat := 0; let c : Nat := 7; let s : State := wBatch (batch0 false false [cand0]) 17; let u := s.to t;
      let b := batch0 false false [cand0]; let x := cand0; let l := ([] : List Cand); c < 8 ∧ c < u.line.car.length ∧ u.line.batch = some b ∧
      b.car = c ∧ b.recheck = false ∧ b.start + b.ticks ≤ u.now ∧ u.now < b.ts ∧ b.cands = x :: l ∧ u.changedIn b.version x.box = true) ∧
    (let t : Nat := 0; let c : Nat := 7; let s : State := wBatch (batch0 true false [cand0]); let u := s.to t; let b := batch0 true false [cand0];
      let x := cand0; let l := ([] : List Cand); let r := req0 1; let q := ([] : List Req); c < 8 ∧ c < u.line.car.length ∧ u.line.batch = some b ∧
      b.car = c ∧ b.recheck = true ∧ b.start + b.ticks ≤ u.now ∧ u.now < b.ts ∧ b.cands = x :: l ∧ u.changedIn b.version x.box = false ∧
      (u.carAt c).queue = r :: q) ∧
    (let t : Nat := 0; let c : Nat := 7; let s : State := wBatch (batch0 true false []); let u := s.to t; let b := batch0 true false []; c < 8 ∧
      c < u.line.car.length ∧ u.line.batch = some b ∧ b.car = c ∧ b.recheck = true ∧ b.start + b.ticks ≤ u.now ∧ u.now < b.ts ∧ b.cands = []) ∧
    (let t : Nat := 100; let c : Nat := 7; let s : State := wBatch (batch0 false false [cand0]); let u := s.to t; let b := batch0 false false [cand0];
      c < 8 ∧ c < u.line.car.length ∧ u.line.batch = some b ∧ b.car = c ∧ b.ts ≤ u.now) := ⟨by decide +kernel, by decide +kernel, by decide +kernel, by decide +kernel, by decide +kernel, by decide +kernel, by decide +kernel, by decide +kernel⟩

theorem witness_BatchesCommitAndMapsArePublished_2 :
    (let t : Nat := 0; let c : Nat := 7; let s : State := wBatch (batch0 false true []); let u := s.to t; let b := batch0 false true []; c < 8 ∧
      c < u.line.car.length ∧ u.line.batch = some b ∧ b.car = c ∧ b.replan = true) ∧
    (let t : Nat := 0; let c : Nat := 7; let s : State := wCar (fun k => { k with st := .braking, traj := some traj0 }); let u := s.to t;
      let j := traj0; c < 8 ∧ c < u.line.car.length ∧ (u.carAt c).traj = some j ∧ (u.carAt c).st = .braking ∧ j.arrive ≤ u.now) ∧
    (let t : Nat := 500000; let c : Nat := 7;
      let s : State := wCar (fun k => { k with st := .moving, traj := some traj0, committed := true, queue := [req0 1] }); let u := s.to t;
      let j := traj0; let r := req0 1; let q := ([] : List Req); c < 8 ∧ c < u.line.car.length ∧ (u.carAt c).traj = some j ∧
      (u.carAt c).queue = r :: q ∧ (u.carAt c).committed = true ∧ markKind r = false ∧ (u.carAt c).st = .moving ∧ j.arrive + u.settleTicks ≤ u.now) ∧
    (let t : Nat := 0; let c : Nat := 7; let s : State := { rdy with line := { rdy.line with held := some 0 } }; let u := s.to t; let n := 0; c < 8 ∧
      c < u.line.car.length ∧ u.line.held = some n ∧ u.line.batch = none) ∧
    (let t : Nat := 0; let c : Nat := 7; let h : Hdr := h0; let s : State := rdy; let u := s.to t; c < 8 ∧ c < u.line.car.length ∧
      Written s h 0xA0010 0x1000000) ∧
    (let t : Nat := 0; let c : Nat := 7; let h : Hdr := h0; let s : State := rdy; let u := s.to t; c < 8 ∧ c < u.line.car.length ∧
      Carried s h .mapPublish) ∧
    (let t : Nat := 0; let c : Nat := 7; let h : Hdr := h0; let s : State := rdy; let u := s.to t; let y := s.atHost h;
      let box := [0, 255, 0, 127, 0, 63]; let len := 2097152; c < 8 ∧ c < u.line.car.length ∧ Carried s h (.sdfLoad box len) ∧ len ≠ 0 ∧
      y.line.held = none ∧ y.deferredCnt < 8) ∧
    (let t : Nat := 0; let c : Nat := 7; let h : Hdr := h0; let s : State := { rdy with line := { rdy.line with held := some 0 } }; let u := s.to t;
      let y := s.atHost h; let box := [0, 255, 0, 127, 0, 63]; let len := 2097152; c < 8 ∧ c < u.line.car.length ∧ Carried s h (.sdfLoad box len) ∧
      len ≠ 0 ∧ y.line.held ≠ none) := by
  exact ⟨by decide +kernel,
    by decide +kernel,
    by decide +kernel,
    by decide +kernel,
    ⟨by decide +kernel, by decide +kernel, by exact written_of (by decide +kernel)⟩,
    ⟨by decide +kernel, by decide +kernel, by exact carried_of (by decide +kernel)⟩,
    ⟨by decide +kernel, by decide +kernel, by exact carried_of (by decide +kernel), by decide +kernel, by decide +kernel, by decide +kernel⟩,
    ⟨by decide +kernel, by decide +kernel, by exact carried_of (by decide +kernel), by decide +kernel, by decide +kernel⟩⟩

theorem witness_BatchesCommitAndMapsArePublished_3 :
    (let t : Nat := 0; let c : Nat := 7; let h : Hdr := h0; let s : State := rdy; let u := s.to t; let y := s.atHost h; let t0 := 5; let first := 0;
      let last := 15; let len := 65536; c < 8 ∧ c < u.line.car.length ∧ Carried s h (.occLoad t0 first last len) ∧ len ≠ 0 ∧ y.line.held = none ∧
      y.deferredCnt < 8) ∧
    (let t : Nat := 0; let c : Nat := 7; let h : Hdr := h0; let s : State := rdy; let u := s.to t; c < 8 ∧ c < u.line.car.length ∧
      Written s h 0xA0010 0x3000000) := by
  exact ⟨⟨by decide +kernel, by decide +kernel, by exact carried_of (by decide +kernel), by decide +kernel, by decide +kernel, by decide +kernel⟩,
    ⟨by decide +kernel, by decide +kernel, by exact written_of (by decide +kernel)⟩⟩

theorem witness_RuleProgramsAndImages_1 :
    let w (op gd ga gb : Nat) (imm : Nat) : RuleInstr := { op := op, gd := gd, ga := ga, gb := gb, imm := wordOf imm }
    let words : List RuleInstr := [w 1 15 0 0 65535, w 2 15 0 0 9, w 3 15 0 0 9] ++ [4, 5, 6, 7, 8, 9, 12, 13, 14, 15, 16, 17, 18].map (fun op => w op 15 1 2 0) ++
      [10, 11, 19].map (fun op => w op 15 1 0 0) ++ [w 0 0 0 0 0, w 20 0 1 0 255, w 21 0 0 0 79, w 22 0 0 0 (256 * 255 + 79), w 23 0 1 0 79,
        w 24 0 0 0 255, w 25 0 0 0 255]
    let at_ (j : RuleInstr) : State := (wRule (fun p => { p with left := some [[j]] })).to 0
    let due (j : RuleInstr) : State := (wRule (fun p => { p with image := some { image0 with programs := [(true, [j])] } })).to 6250
    let begun (j : RuleInstr) : State := (due j).roundBegin (due j).roundStart
    words.length = 26 ∧ words.all (fun j => j.used == j && !(at_ j).roundDue && (at_ j).rulesRun && !(at_ j).plumb.ended && (at_ j).plumb.skip == 0 &&
      (at_ j).plumb.left == some [[j]]) = true ∧
    ((due (w 0 0 0 0 0)).roundDue = true ∧ (begun (w 0 0 0 0 0)).plumb.left = some [[w 0 0 0 0 0]] ∧ (begun (w 0 0 0 0 0)).rulesRun = true ∧
      (begun (w 0 0 0 0 0)).plumb.ended = false ∧ (begun (w 0 0 0 0 0)).plumb.skip = 0) ∧
    ((wRule.to 0).roundDue = false ∧ (wRule.to 0).plumb.left = none) := by decide +kernel

theorem witness_RuleProgramsAndImages_2 :
    (let j : RuleInstr := ⟨0, 0, 0, 0, 0#32⟩; let z (n : Nat) (e : Bool) : State := wRule (fun p => { p with skip := n, ended := e });
      ((z 1 false).plumb.ended = false ∧ [j, j].drop (z 1 false).plumb.skip = [j]) ∧ (z 0 true).plumb.ended = true ∧ [j].length ≤ (z 255 false).plumb.skip) ∧
    (let h : Hdr := h0; let digest : List Byte := sha512 [1#8]; let img : List Byte := [1#8]; let s : State := wPl (fun p => { p with st := .split });
      let u := s.atHost h; let c : HostCmd := .ruleLoad digest img; Carried s h c ∧ img ≠ [] ∧ u.plumb.st = .split) ∧
    (let h : Hdr := h0; let digest : List Byte := List.replicate 64 0#8; let img : List Byte := [1#8]; let s : State := wRule; let u := s.atHost h;
      let c : HostCmd := .ruleLoad digest img; Carried s h c ∧ img ≠ [] ∧ u.plumb.st ≠ .split ∧ sha512 img ≠ digest) := by
  exact ⟨by decide +kernel,
    ⟨by exact carried_of (by decide +kernel), by decide +kernel, by decide +kernel⟩,
    ⟨by exact carried_of (by decide +kernel), by decide +kernel, by decide +kernel, by decide +kernel⟩⟩

theorem witness_RoundsStartAndDenialsCount_1 :
    (let t : Nat := 6250; let s : State := wRule; let u := s.to t; u.mgmt.refclk = true ∧ u.plumb.roundAt + 6250 ≤ u.now) ∧
    (let t : Nat := 6250; let s : State := wRule (fun p => { p with st := .lockout }); let u := s.to t; u.mgmt.refclk = true ∧
      u.plumb.roundAt + 6250 ≤ u.now) ∧
    (let t : Nat := 6249; let s : State := wRule; let u := s.to t; (u.mgmt.refclk = false ∨ u.now < u.plumb.roundAt + 6250)) ∧
    (let t : Nat := 6250; let s : State := wRule.updMgmt (fun m => { m with refclk := false }); let u := s.to t;
      (u.mgmt.refclk = false ∨ u.now < u.plumb.roundAt + 6250)) ∧
    (let t : Nat := 6250; let s : State := wRule; let u := s.to t;
      let serves := u.plumb.st = .healthy ∨ u.plumb.st = .resync ∨ u.plumb.st = .safeRestart ∨ u.plumb.st = .lockout; serves) ∧
    (let t : Nat := 6250; let s : State := wRule (fun p => { p with st := .failed }); let u := s.to t;
      let serves := u.plumb.st = .healthy ∨ u.plumb.st = .resync ∨ u.plumb.st = .safeRestart ∨ u.plumb.st = .lockout; ¬ serves) ∧
    (let t : Nat := 6250; let s : State := wRule; let u := s.to t; let tg := 23; let lim := u.rfld (0xB1000 + 8 * tg) 23 16; tg < 24 ∧
      tg < u.plumb.targets.length ∧ (lim = 0 ∨ (u.targetAt tg).denials + 1 < lim)) ∧
    (let t : Nat := 6250; let s : State := withRegs [(0xB10B8, 0x20000)] wRule; let u := s.to t; let tg := 23;
      let lim := u.rfld (0xB1000 + 8 * tg) 23 16; tg < 24 ∧ tg < u.plumb.targets.length ∧ (lim = 0 ∨ (u.targetAt tg).denials + 1 < lim)) := ⟨by decide +kernel, by decide +kernel, by decide +kernel, by decide +kernel, by decide +kernel, by decide +kernel, by decide +kernel, by decide +kernel⟩

theorem witness_RoundsStartAndDenialsCount_3 :
    let j : RuleInstr := ⟨1, 15, 0, 0, 65535#32⟩
    let img : RuleImage := { image0 with programs := [(true, [j])] }
    let begun (f : Plumb → Plumb) : State := wRule (fun p => f { p with left := some [[j], [j]] })
    ((wRule.to 0).plumb.left = none) ∧ (begun (fun p => { p with st := .split })).rulesRun = false ∧
    ((begun id).plumb.left = some [[j], [j]] ∧ (begun id).rulesRun = true) ∧ (begun (fun p => { p with safeReq := some 255 })).plumb.safeReq = some 255 ∧
    ((wRule (fun p => { p with image := some img })).plumb.image = some img ∧ j ∈ [j] ∧ 65535 = j.imm.toNat % 65536) ∧
    ((wRule (fun p => { p with st := .resync, resyncLeft := 1 })).plumb.st = .resync) := by decide +kernel

theorem witness_RoundsStartAndDenialsCount_2 :
    let t : Nat := 6250; let s : State := withRegs [(0xB10B8, 0x10000)] wRule; let u := s.to t; let tg := 23;
      let lim := u.rfld (0xB1000 + 8 * tg) 23 16; tg < 24 ∧ tg < u.plumb.targets.length ∧ lim ≠ 0 ∧ lim ≤ (u.targetAt tg).denials + 1 := by decide +kernel

theorem witness_VerdictsAreFormed_1 :
    (let tg : Nat := 79; let l : List RuleInstr := ([⟨0x15, 0, 0, 0, 79#32⟩, ⟨0x16, 0, 0, 0, 0x54F#32⟩] : List RuleInstr); let s : State := wRule;
      tg < 80 ∧ 80 ≤ s.plumb.targets.length ∧ s.plumb.verdicts.length = 80 ∧ s.plumb.ended = false ∧ s.plumb.skip = 0 ∧
      lget {} s.plumb.verdicts tg = {} ∧ (∀ i ∈ l, i.op = 0x15 ∨ i.op = 0x16 ∨ i.op = 0x17) ∧ s.isTarget tg = true ∧
      (tg < 24 → s.plumb.judge.contains tg = true)) ∧
    (let tg : Nat := 23; let l : List RuleInstr := ([⟨0x17, 0, 0, 0, 23#32⟩] : List RuleInstr);
      let s : State := judged (tgt 23 (fun x => { x with offered := some 1#32 })); tg < 80 ∧ 80 ≤ s.plumb.targets.length ∧
      s.plumb.verdicts.length = 80 ∧ s.plumb.ended = false ∧ s.plumb.skip = 0 ∧ lget {} s.plumb.verdicts tg = {} ∧
      (∀ i ∈ l, i.op = 0x15 ∨ i.op = 0x16 ∨ i.op = 0x17) ∧ s.isTarget tg = true ∧ (tg < 24 → s.plumb.judge.contains tg = true) ∧ tg < 24) ∧
    (let tg : Nat := 78; let l : List RuleInstr := ([⟨0x15, 0, 0, 0, 79#32⟩, ⟨0x16, 0, 0, 0, 0x54F#32⟩] : List RuleInstr); let s : State := wRule;
      tg < 80 ∧ 80 ≤ s.plumb.targets.length ∧ s.plumb.verdicts.length = 80 ∧ s.plumb.ended = false ∧ s.plumb.skip = 0 ∧
      lget {} s.plumb.verdicts tg = {} ∧ (∀ i ∈ l, i.op = 0x15 ∨ i.op = 0x16 ∨ i.op = 0x17) ∧ (s.isTarget tg = false ∨ (tg < 24 ∧
      s.plumb.judge.contains tg = false))) ∧
    (let tg : Nat := 23; let l : List RuleInstr := ([⟨0x15, 0, 0, 0, 79#32⟩, ⟨0x16, 0, 0, 0, 0x54F#32⟩] : List RuleInstr); let s : State := wRule;
      tg < 80 ∧ 80 ≤ s.plumb.targets.length ∧ s.plumb.verdicts.length = 80 ∧ s.plumb.ended = false ∧ s.plumb.skip = 0 ∧
      lget {} s.plumb.verdicts tg = {} ∧ (∀ i ∈ l, i.op = 0x15 ∨ i.op = 0x16 ∨ i.op = 0x17) ∧ (s.isTarget tg = false ∨ (tg < 24 ∧
      s.plumb.judge.contains tg = false))) ∧
    (let tg : Nat := 23; let s : State := judged (tgt 23 (fun x => { x with offered := some 1#32 })); let w := 1#32; tg < 80 ∧
      80 ≤ s.plumb.targets.length ∧ s.plumb.verdicts.length = 80 ∧ s.plumb.judge.contains tg = true ∧ tg < 24 ∧ (s.targetAt tg).offered = some w ∧ (s.targetAt tg).inFallback = true ∧
      (s.targetAt tg).releasing = false) ∧
    (let tg : Nat := 23;
      let s : State := judged (fun p => verd 23 { deny := some 9 } (tgt 23 (fun x => { x with offered := some 1#32, inFallback := false }) p));
      let x : Verdict := lget {} s.plumb.verdicts tg; let w := 1#32; let c := 9; tg < 80 ∧ 80 ≤ s.plumb.targets.length ∧
      s.plumb.verdicts.length = 80 ∧ s.plumb.judge.contains tg = true ∧ tg < 24 ∧ (s.targetAt tg).offered = some w ∧ (s.targetAt tg).inFallback = false ∧ x.deny = some c) ∧
    (let tg : Nat := 23;
      let s : State := judged (fun p => verd 23 { subst := some 2#32 } (tgt 23 (fun x => { x with offered := some 1#32, inFallback := false }) p));
      let x : Verdict := lget {} s.plumb.verdicts tg; let w := 1#32; let z := 2#32; tg < 80 ∧ 80 ≤ s.plumb.targets.length ∧
      s.plumb.verdicts.length = 80 ∧ s.plumb.judge.contains tg = true ∧ tg < 24 ∧ (s.targetAt tg).offered = some w ∧ (s.targetAt tg).inFallback = false ∧ x.deny = none ∧
      x.subst = some z) ∧
    (let tg : Nat := 23; let s : State := judged (tgt 23 (fun x => { x with offered := some 1#32, inFallback := false }));
      let x : Verdict := lget {} s.plumb.verdicts tg; let w := 1#32; tg < 80 ∧ 80 ≤ s.plumb.targets.length ∧ s.plumb.verdicts.length = 80 ∧ tg < 24 ∧
      s.plumb.judge.contains tg = true ∧ (s.targetAt tg).offered = some w ∧ (s.targetAt tg).inFallback = false ∧ x.deny = none ∧ x.subst = none) := ⟨by decide +kernel, by decide +kernel, by decide +kernel, by decide +kernel, by decide +kernel, by decide +kernel, by decide +kernel, by decide +kernel⟩

theorem witness_VerdictsAreFormed_2 :
    (let tg : Nat := 79; let s : State := wRule; tg < 80 ∧ 80 ≤ s.plumb.targets.length ∧ s.plumb.verdicts.length = 80 ∧ 24 ≤ tg ∧
      s.plumb.st ≠ .split ∧ s.judging = true) ∧
    (let tg : Nat := 24; let s : State := wRule; tg < 80 ∧ 80 ≤ s.plumb.targets.length ∧ s.plumb.verdicts.length = 80 ∧ 24 ≤ tg ∧
      s.plumb.st ≠ .split ∧ s.judging = true) ∧
    (let tg : Nat := 79; let s : State := wRule (tgt 79 (fun x => { x with inFallback := false })); tg < 80 ∧ 80 ≤ s.plumb.targets.length ∧
      s.plumb.verdicts.length = 80 ∧ 24 ≤ tg ∧ s.plumb.st ≠ .split ∧ s.judging = true ∧ (s.targetAt tg).inFallback = false) ∧
    (let tg : Nat := 79; let s : State := withRegs [(0xB0010, 0)] wRule; tg < 80 ∧ 80 ≤ s.plumb.targets.length ∧ s.plumb.verdicts.length = 80 ∧
      s.judging = false ∧ s.isTarget tg = true) := by decide +kernel

theorem witness_WindowViolationsTakeTheirAction_1 :
    (let t : Nat := 0; let stage : Nat := 8; let s : State := wStage [] [(aWd 8, 0x2000000)]; let u := s.to t;
      let n := (u.stageAt (stage - 1)).consec + 1; let lim := max 1 (u.rfld (aWd stage) 29 24); 1 ≤ stage ∧ stage ≤ 8 ∧
      stage - 1 < u.plumb.stages.length ∧ n < lim) ∧
    (let t : Nat := 0; let stage : Nat := 1; let s : State := wStage [] [(aWd 1, 0x2000000)]; let u := s.to t;
      let n := (u.stageAt (stage - 1)).consec + 1; let lim := max 1 (u.rfld (aWd stage) 29 24); 1 ≤ stage ∧ stage ≤ 8 ∧
      stage - 1 < u.plumb.stages.length ∧ n < lim) ∧
    (let t : Nat := 0; let stage : Nat := 8; let s : State := wStage []; let u := s.to t; let n := (u.stageAt (stage - 1)).consec + 1;
      let lim := max 1 (u.rfld (aWd stage) 29 24); 1 ≤ stage ∧ stage ≤ 8 ∧ stage - 1 < u.plumb.stages.length ∧ lim ≤ n) ∧
    (let t : Nat := 100; let stage : Nat := 8; let id : Nat := 5; let s : State := wStage [⟨5, 0, 100, 0⟩]; let u := s.to t;
      let w := (⟨5, 0, 100, 0⟩ : Watch); 1 ≤ stage ∧ stage ≤ 8 ∧ stage - 1 < u.plumb.stages.length ∧
      (u.stageAt (stage - 1)).watches.find? (fun w => w.id == id && w.inj != 1) = some w ∧ u.now ≤ w.closes ∧
      500 * u.rfld (aWd stage) 23 0 ≤ u.now - w.opened) ∧
    (let t : Nat := 100; let stage : Nat := 8; let s : State := wStage [⟨5, 0, 100, 0⟩]; let u := s.to t; let w := (⟨5, 0, 100, 0⟩ : Watch);
      1 ≤ stage ∧ stage ≤ 8 ∧ stage - 1 < u.plumb.stages.length ∧ (u.stageAt (stage - 1)).watches.find? (fun w => decide (w.closes ≤ u.now)) = some w) ∧
    (let t : Nat := 99; let stage : Nat := 8; let s : State := wStage [⟨5, 0, 100, 0⟩]; let u := s.to t; 1 ≤ stage ∧ stage ≤ 8 ∧
      stage - 1 < u.plumb.stages.length ∧ (∀ w ∈ (u.stageAt (stage - 1)).watches, u.now < w.closes)) ∧
    (let t : Nat := 0; let stage : Nat := 8; let s : State := wStage [⟨5, 0, 100, 0⟩]; let u := s.to t; 1 ≤ stage ∧ stage ≤ 8 ∧
      stage - 1 < u.plumb.stages.length) ∧
    (let t : Nat := 0; let stage : Nat := 8; let s : State := wStage [⟨5, 0, 100, 0⟩]; let u := s.to t; 1 ≤ stage ∧ stage ≤ 8 ∧
      stage - 1 < u.plumb.stages.length) := ⟨by decide +kernel, by decide +kernel, by decide +kernel, by decide +kernel, by decide +kernel, by decide +kernel, by decide +kernel, by decide +kernel⟩

theorem witness_WindowViolationsTakeTheirAction_2 :
    (let t : Nat := 0; let stage : Nat := 8; let s : State := wPl (fun p => { p with restart := some ⟨0, 1, false, false⟩ }); let u := s.to t;
      let p := 3; 1 ≤ stage ∧ stage ≤ 8 ∧ stage - 1 < u.plumb.stages.length ∧ (u.restarting = true ∨ (u.dieAt p).st = .restarting)) ∧
    (let t : Nat := 0; let stage : Nat := 8; let s : State := { rdy with die := lmod rdy.die 3 (fun x => { x with st := .restarting }) };
      let u := s.to t; let p := 3; 1 ≤ stage ∧ stage ≤ 8 ∧ stage - 1 < u.plumb.stages.length ∧ (u.restarting = true ∨ (u.dieAt p).st = .restarting)) := by decide +kernel

theorem witness_KeystoneResultsAreCompared :
    (let t : Nat := 0; let die : Nat := 3; let s : State := wBond (fun b => { b with plan := some plan0, ksPending := some (3, 7) }); let u := s.to t;
      let p := plan0; let g := 7; u.bond.plan = some p ∧ die < u.plumb.ksLast.length ∧ die < u.plumb.ksRow.length ∧ u.bond.ksPending = some (die, g) ∧
      u.plumb.ksSeen.contains g = false ∧ ksPass p.ksBands (p.ksExpect.map ksBox) (u.ksResult die p.ksResult) = true) ∧
    (let t : Nat := 0; let die : Nat := 3;
      let s : State := wBond (fun b => { b with plan := some (ksPlan [List.replicate 32 1#8]), ksPending := some (3, 7) }); let u := s.to t;
      let p := ksPlan [List.replicate 32 1#8]; let g := 7; u.bond.plan = some p ∧ die < u.plumb.ksLast.length ∧ die < u.plumb.ksRow.length ∧
      u.bond.ksPending = some (die, g) ∧ u.plumb.ksSeen.contains g = false ∧
      ksPass p.ksBands (p.ksExpect.map ksBox) (u.ksResult die p.ksResult) = false) ∧
    (let t : Nat := 1000000000; let die : Nat := 3;
      let s : State := wBond (fun b => { b with plan := some plan0, graphs := [{ graph0 1 15 0 with kind := .keystone }] }); let u := s.to t;
      let p := plan0; let g := { graph0 1 15 0 with kind := .keystone }; u.bond.plan = some p ∧ die < u.plumb.ksLast.length ∧
      die < u.plumb.ksRow.length ∧ u.bond.ksPending = none ∧
      u.bond.graphs.find? (fun g => g.kind == .keystone && g.die == die && !u.plumb.ksSeen.contains g.id && decide (g.released + 500 * u.stageClose 6 < u.now)) = some g) ∧
    (let s : State := (wBond (fun b => { b with plan := some plan0, ksPending := some (3, 7) })).updPlumb (fun p => { p with ksSeen := [7] });
      s.bond.plan = some plan0 ∧ s.bond.ksPending = some (3, 7) ∧ s.plumb.ksSeen.contains 7 = true) ∧
    (let s : State := (withRegs [(0xB0300, 1)] rdy).updPlumb (fun p => { p with ksFirst := some 7 }); 3 < s.plumb.ksLast.length ∧
      3 < s.plumb.ksRow.length ∧ s.plumb.ksFirst = some 7 ∧ s.rbit 0xB0300 0 = true) ∧
    (let s : State := withRegs [(0xB0300, 0x2000000)] rdy; s.plumb.ksFirst ≠ some 7 ∧ lget 0 s.plumb.ksRow 3 + 1 < max 1 (s.rfld 0xB0300 29 24)) ∧
    (let s : State := (withRegs [(0xB0300, 0)] rdy).updPlumb (fun p => { p with ksFirst := some 7 }); s.rbit 0xB0300 0 = false ∧
      max 1 (s.rfld 0xB0300 29 24) ≤ lget 0 s.plumb.ksRow 3 + 1) := by decide +kernel

theorem witness_SelfTestsRotate_1 :
    (let t : Nat := 500000; let cls : Nat := 5; let g : Nat := 0; let ptr : Nat := 13; let s : State := wPl (fun p => { p with stPtr := 13 });
      let u := s.to t; let due := u.plumb.stAt + 500 * max 1 (u.rfld 0xB0200 31 16) ≤ u.now; u.selftests = true ∧ due ∧
      u.nextSlice 19 u.plumb.stPtr = some (ptr, cls, g) ∧ u.sliceFits cls g = true) ∧
    (let t : Nat := 500000; let cls : Nat := 2; let g : Nat := 0; let ptr : Nat := 0; let s : State := wPl (fun p => p); let u := s.to t;
      let due := u.plumb.stAt + 500 * max 1 (u.rfld 0xB0200 31 16) ≤ u.now; u.selftests = true ∧ due ∧
      u.nextSlice 19 u.plumb.stPtr = some (ptr, cls, g) ∧ u.sliceFits cls g = false) ∧
    (let t : Nat := 500000; let s : State := rdy; let u := s.to t; let due := u.plumb.stAt + 500 * max 1 (u.rfld 0xB0200 31 16) ≤ u.now;
      (u.selftests = false ∨ ¬ due)) ∧
    (let t : Nat := 499999; let s : State := wPl (fun p => p); let u := s.to t; let due := u.plumb.stAt + 500 * max 1 (u.rfld 0xB0200 31 16) ≤ u.now;
      (u.selftests = false ∨ ¬ due)) ∧
    (let t : Nat := 500000; let s : State := wPl (fun p => { p with slice := some ⟨3, 0, 0⟩ }); let u := s.to t; let x := (⟨3, 0, 0⟩ : SliceRun);
      u.plumb.slice = some x ∧ x.cls ≠ 0) ∧
    (let x : SliceRun := ⟨0, 191, 0⟩; (wPl (fun p => { p with slice := some x })).plumb.slice = some x ∧ x.cls = 0) ∧
    (let t : Nat := 500000; let s : State := wPl (fun p => p); let u := s.to t; u.plumb.slice = none) ∧
    (let c := 5; c ∈ [5, 6]) ∧
    (let c := 7; c ∈ [2, 3, 4, 7]) := ⟨by decide +kernel, by decide +kernel, by decide +kernel, by decide +kernel, by decide +kernel, by decide +kernel, by decide +kernel, by decide +kernel, by decide +kernel⟩

theorem witness_SelfTestsRotate_2 :
    (let t : Nat := 3601 * 500000000; let cls : Nat := 7; let s : State := wPl (fun p => p); let u := s.to t; cls < 8 ∧ u.diOver cls = true ∧
      u.plumb.latentCls.contains cls = false) ∧
    (let t : Nat := 500000; let cls : Nat := 8; let s : State := wPl (fun p => p); let u := s.to t;
      (8 ≤ cls ∨ u.diOver cls = false ∨ u.plumb.latentCls.contains cls = true)) ∧
    (let t : Nat := 0; let cls : Nat := 7; let s : State := wPl (fun p => p); let u := s.to t;
      (8 ≤ cls ∨ u.diOver cls = false ∨ u.plumb.latentCls.contains cls = true)) ∧
    (let t : Nat := 3601 * 500000000; let cls : Nat := 7; let s : State := wPl (fun p => { p with latentCls := [7] }); let u := s.to t;
      (8 ≤ cls ∨ u.diOver cls = false ∨ u.plumb.latentCls.contains cls = true)) := by decide +kernel

theorem witness_SafeStateAndRestarts_1 :
    (let t : Nat := 0; let s : State := wPl (fun p => { p with restart := some ⟨0, 1, false, false⟩ }); let u := s.to t; u.restarting = true) ∧
    (let t : Nat := 0; let s : State := wPl (fun p => p) (rdy.updMgmt (fun m => { m with pow := .idle })); let u := s.to t; u.restarting = false ∧
      u.inRun = false ∧ u.plumb.triggers = []) ∧
    (let t : Nat := 0; let s : State := wPl (fun p => p); let u := s.to t; u.restarting = false ∧ u.inRun = true) ∧
    (let t : Nat := 0; let s : State := wRule; let u := s.to t; let tg := 15; 80 ≤ u.plumb.targets.length ∧ tg < 80 ∧ u.isTarget tg = true ∧ tg < 16) ∧
    (let t : Nat := 0; let s : State := wRule; let u := s.to t; let tg := 23; 80 ≤ u.plumb.targets.length ∧ tg < 80 ∧ u.isTarget tg = true ∧ 16 ≤ tg ∧
      tg < 24) ∧
    (let t : Nat := 0; let s : State := wRule; let u := s.to t; let tg := 79; 80 ≤ u.plumb.targets.length ∧ tg < 80 ∧ u.isTarget tg = true ∧ 24 ≤ tg) ∧
    (let t : Nat := 0; let s : State := wPl (fun p => p); let u := s.to t; u.plumb.reqLow = none) ∧
    (let t : Nat := 0; let s : State := wPl (fun p => { p with reqLow := some 0 }); let u := s.to t; u.plumb.reqLow ≠ none) := ⟨by decide +kernel, by decide +kernel, by decide +kernel, by decide +kernel, by decide +kernel, by decide +kernel, by decide +kernel, by decide +kernel⟩

theorem witness_SafeStateAndRestarts_2 :
    (let h : Hdr := h0; let s : State := wPl (fun p => p); Written s h 0xB000C 0x1000000) ∧
    (let t : Nat := 75000000; let s : State := wPl (fun p => { p with restart := some ⟨0, 1, false, false⟩ }); let u := s.to t;
      let r := (⟨0, 1, false, false⟩ : Restart); u.plumb.restart = some r ∧ u.now ≤ r.since + 75000000) ∧
    (let t : Nat := 75000001; let s : State := wPl (fun p => { p with restart := some ⟨0, 1, false, false⟩ }); let u := s.to t;
      let r := (⟨0, 1, false, false⟩ : Restart); u.plumb.restart = some r ∧ r.since + 75000000 < u.now) ∧
    (let t : Nat := 0; let s : State := wPl (fun p => { p with restart := some ⟨0, 1, false, false⟩ }); let u := s.to t;
      let r := (⟨0, 1, false, false⟩ : Restart); u.plumb.restart = some r) ∧
    (let t : Nat := 0; let s : State := wPl (fun p => p); let u := s.to t; u.plumb.restart = none) ∧
    (let t : Nat := 0; let die : Nat := 3; let s : State := { wPl (fun p => p) with die := lmod rdy.die 3 (fun x => { x with st := .restarting }) };
      let u := s.to t; (u.dieAt die).st = .restarting ∧ u.restarting = false ∧ u.plumb.held = false ∧ (u.dieAt die).short = false ∧
      die < u.die.length) ∧
    (let t : Nat := 0; let die : Nat := 3; let s : State := wPl (fun p => p); let u := s.to t; (u.dieAt die).st ≠ .restarting) := by
  exact ⟨by exact written_of (by decide +kernel),
    by decide +kernel,
    by decide +kernel,
    by decide +kernel,
    by decide +kernel,
    by decide +kernel,
    by decide +kernel⟩

theorem witness_PlumbCommandsReleaseAndRecover_1 :
    (let h : Hdr := h0; let s : State := wPl (fun p => { p with st := .failed }); let y := s.atHost h; Written s h 0xB000C 0x2000000 ∧
      (y.plumb.st = .failed ∨ y.plumb.st = .split ∨ y.restarting = true)) ∧
    (let h : Hdr := h0; let s : State := wPl (fun p => { p with st := .split }); let y := s.atHost h; Written s h 0xB000C 0x2000000 ∧
      (y.plumb.st = .failed ∨ y.plumb.st = .split ∨ y.restarting = true)) ∧
    (let h : Hdr := h0; let s : State := wPl (fun p => { p with restart := some ⟨0, 1, false, false⟩ }); let y := s.atHost h;
      Written s h 0xB000C 0x2000000 ∧ (y.plumb.st = .failed ∨ y.plumb.st = .split ∨ y.restarting = true)) ∧
    (let h : Hdr := h0; let s : State := wRule (fun p => { p with st := .lockout }); let y := s.atHost h; Written s h 0xB000C 0x2000000 ∧
      y.plumb.st = .lockout ∧ y.restarting = false ∧ y.plumb.held = false) ∧
    (let h : Hdr := h0; let s : State := wRule (fun p => { p with st := .lockout, held := true }); let y := s.atHost h;
      Written s h 0xB000C 0x2000000 ∧ y.plumb.st = .lockout ∧ y.restarting = false ∧ y.plumb.held = true) ∧
    (let h : Hdr := h0; let s : State := wRule; let y := s.atHost h; Written s h 0xB000C 0x2000000 ∧ y.plumb.st = .healthy ∧ y.restarting = false ∧
      y.inRun = true) ∧
    (let h : Hdr := h0; let s : State := wRule; let y := s.atHost h; let n := 79; 80 ≤ y.plumb.targets.length ∧ n < 80) ∧
    (let tg : Nat := 79; let h : Hdr := h0; let s : State := wRule; let y := s.atHost h; tg < 80 ∧ tg < y.plumb.targets.length ∧
      Written s h 0xB000C (0x3000000 + tg)) := by
  exact ⟨⟨by exact written_of (by decide +kernel), by decide +kernel⟩,
    ⟨by exact written_of (by decide +kernel), by decide +kernel⟩,
    ⟨by exact written_of (by decide +kernel), by decide +kernel⟩,
    ⟨by exact written_of (by decide +kernel), by decide +kernel, by decide +kernel, by decide +kernel⟩,
    ⟨by exact written_of (by decide +kernel), by decide +kernel, by decide +kernel, by decide +kernel⟩,
    ⟨by exact written_of (by decide +kernel), by decide +kernel, by decide +kernel, by decide +kernel⟩,
    by decide +kernel,
    ⟨by decide +kernel, by decide +kernel, by exact written_of (by decide +kernel)⟩⟩

theorem witness_PlumbCommandsReleaseAndRecover_2 :
    (let tg : Nat := 79; let h : Hdr := h0; let s : State := wPl (fun p => { p with restart := some ⟨0, 1, false, false⟩ }); let y := s.atHost h;
      tg < 80 ∧ tg < y.plumb.targets.length ∧ Written s h 0xB000C (0x3000000 + tg) ∧ (y.restarting = true ∨ y.plumb.st = .lockout)) ∧
    (let tg : Nat := 79; let h : Hdr := h0; let s : State := wRule (fun p => { p with st := .lockout }); let y := s.atHost h; tg < 80 ∧
      tg < y.plumb.targets.length ∧ Written s h 0xB000C (0x3000000 + tg) ∧ (y.restarting = true ∨ y.plumb.st = .lockout)) ∧
    (let tg : Nat := 79; let h : Hdr := h0; let s : State := wRule (tgt 79 (fun x => { x with byDeny := true })); let y := s.atHost h; tg < 80 ∧
      tg < y.plumb.targets.length ∧ Written s h 0xB000C (0x3000000 + tg) ∧ y.restarting = false ∧ y.plumb.st ≠ .lockout ∧
      (y.targetAt tg).byDeny = true) ∧
    (let h : Hdr := h0; let s : State := wPl (fun p => { p with st := .failed }); let y := s.atHost h; Written s h 0xB000C 0x4000000 ∧
      y.plumb.st = .failed ∧ y.restarting = false ∧ (∀ f, y.plumb.recFailed = some f → f + 500000000 ≤ y.now)) ∧
    (let h : Hdr := ⟨500000000, 1, 15⟩; let s : State := wPl (fun p => { p with st := .failed, recFailed := some 0 }); let y := s.atHost h;
      Written s h 0xB000C 0x4000000 ∧ y.plumb.st = .failed ∧ y.restarting = false ∧ (∀ f, y.plumb.recFailed = some f → f + 500000000 ≤ y.now)) ∧
    (let h : Hdr := h0; let s : State := wRule; let y := s.atHost h; Written s h 0xB000C 0x4000000 ∧
      (y.plumb.st ≠ .failed ∨ y.restarting = true ∨ (∃ f, y.plumb.recFailed = some f ∧ y.now < f + 500000000))) ∧
    (let h : Hdr := h0; let s : State := wPl (fun p => { p with st := .failed, restart := some ⟨0, 1, false, false⟩ }); let y := s.atHost h;
      Written s h 0xB000C 0x4000000 ∧ (y.plumb.st ≠ .failed ∨ y.restarting = true ∨ (∃ f, y.plumb.recFailed = some f ∧ y.now < f + 500000000))) ∧
    (let h : Hdr := ⟨499999999, 1, 15⟩; let s : State := wPl (fun p => { p with st := .failed, recFailed := some 0 }); let y := s.atHost h;
      Written s h 0xB000C 0x4000000 ∧ (y.plumb.st ≠ .failed ∨ y.restarting = true ∨ (∃ f, y.plumb.recFailed = some f ∧ y.now < f + 500000000))) := by
  exact ⟨⟨by decide +kernel, by decide +kernel, by exact written_of (by decide +kernel), by decide +kernel⟩,
    ⟨by decide +kernel, by decide +kernel, by exact written_of (by decide +kernel), by decide +kernel⟩,
    ⟨by decide +kernel, by decide +kernel, by exact written_of (by decide +kernel), by decide +kernel, by decide +kernel, by decide +kernel⟩,
    ⟨by exact written_of (by decide +kernel), by decide +kernel, by decide +kernel, by exact all_some (by decide +kernel)⟩,
    ⟨by exact written_of (by decide +kernel), by decide +kernel, by decide +kernel, by exact all_some (by decide +kernel)⟩,
    ⟨by exact written_of (by decide +kernel), by first | exact .inl (by decide +kernel) | exact .inr (.inl (by decide +kernel)) | exact .inr (.inr ⟨_, rfl, by decide +kernel⟩)⟩,
    ⟨by exact written_of (by decide +kernel), by first | exact .inl (by decide +kernel) | exact .inr (.inl (by decide +kernel)) | exact .inr (.inr ⟨_, rfl, by decide +kernel⟩)⟩,
    ⟨by exact written_of (by decide +kernel), by first | exact .inl (by decide +kernel) | exact .inr (.inl (by decide +kernel)) | exact .inr (.inr ⟨_, rfl, by decide +kernel⟩)⟩⟩

theorem witness_PlumbCommandsReleaseAndRecover_3 :
    (let t : Nat := 0; let s : State := wPl (fun p => { p with st := .failed, recovering := true }); let u := s.to t; u.plumb.recovering = true ∧
      u.plumb.recFailed = none) ∧
    (let t : Nat := 0; let s : State := wRule; let u := s.to t; u.plumb.recovering = false) ∧
    (let h : Hdr := h0; let s : State := wRule; Written s h 0xB000C 0x5000000) ∧
    (let h : Hdr := h0; let s : State := wRule; Carried s h .safetyStatus) := by
  exact ⟨by decide +kernel,
    by decide +kernel,
    by exact written_of (by decide +kernel),
    by exact carried_of (by decide +kernel)⟩

theorem witness_CardAndItsFunctions_1 :
    (let t : Nat := 0; let s : State := wCard .idle; let u := s.to t; let x := u.sdio; x.card ≠ .inactive) ∧
    (let t : Nat := 0; let s : State := wCard .inactive; let u := s.to t; let x := u.sdio; x.card = .inactive) ∧
    (let t : Nat := 0; let s : State := wCard .idle; let u := s.to t; let x := u.sdio; x.card = .idle) ∧
    (let t : Nat := 0; let s : State := wCard .ready; let u := s.to t; let x := u.sdio; x.card ≠ .idle) ∧
    (let t : Nat := 0; let s : State := wCard .ready; let u := s.to t; let x := u.sdio; (x.card = .ready ∨ x.card = .standby)) ∧
    (let t : Nat := 0; let s : State := wCard .standby; let u := s.to t; let x := u.sdio; (x.card = .ready ∨ x.card = .standby)) ∧
    (let t : Nat := 0; let s : State := wCard .idle; let u := s.to t; let x := u.sdio; x.card ≠ .ready ∧ x.card ≠ .standby) ∧
    (let t : Nat := 0; let s : State := wCard .standby; let u := s.to t; let x := u.sdio; (x.card = .standby ∨ x.card = .command)) := ⟨by decide +kernel, by decide +kernel, by decide +kernel, by decide +kernel, by decide +kernel, by decide +kernel, by decide +kernel, by decide +kernel⟩

theorem witness_CardAndItsFunctions_2 :
    (let t : Nat := 0; let s : State := wCard .command; let u := s.to t; let x := u.sdio; (x.card = .standby ∨ x.card = .command)) ∧
    (let t : Nat := 0; let s : State := wCard .idle; let u := s.to t; let x := u.sdio; x.card ≠ .standby ∧ x.card ≠ .command) ∧
    (let t : Nat := 0; let s18 : Bool := true; let s : State := wCard .ready (fun x => { x with s18 := true }); let u := s.to t; let x := u.sdio;
      x.card = .ready ∧ x.s18 = true) ∧
    (let t : Nat := 0; let s : State := wCard .idle; let u := s.to t; let x := u.sdio; (x.card ≠ .ready ∨ x.s18 = false)) ∧
    (let t : Nat := 0; let s : State := wCard .ready; let u := s.to t; let x := u.sdio; (x.card ≠ .ready ∨ x.s18 = false)) ∧
    (let t : Nat := 0; let s : State := wCard .command (fun x => { x with mode := 3 }); let u := s.to t; let x := u.sdio; x.card = .command ∧
      3 ≤ x.mode) ∧
    (let t : Nat := 0; let s : State := wCard .idle; let u := s.to t; let x := u.sdio; (x.card ≠ .command ∨ x.mode < 3)) ∧
    (let t : Nat := 0; let s : State := wCard .command (fun x => { x with mode := 2 }); let u := s.to t; let x := u.sdio;
      (x.card ≠ .command ∨ x.mode < 3)) := ⟨by decide +kernel, by decide +kernel, by decide +kernel, by decide +kernel, by decide +kernel, by decide +kernel, by decide +kernel, by decide +kernel⟩

theorem witness_CardAndItsFunctions_3 :
    (let t : Nat := 0; let fn : Nat := 1; let s : State := wCard .idle; let u := s.to t;
      let on := u.sdio.card = .command ∧ (fn = 0 ∨ ((fn = 1 ∨ fn = 2) ∧ u.sdio.ioe.testBit fn = true ∧ u.mgmt.st ≠ .boot)); ¬ on) ∧
    (let t : Nat := 0; let fn : Nat := 1; let s : State := wCard .idle; let u := s.to t;
      let on := u.sdio.card = .command ∧ (fn = 0 ∨ ((fn = 1 ∨ fn = 2) ∧ u.sdio.ioe.testBit fn = true ∧ u.mgmt.st ≠ .boot)); ¬ on) ∧
    (let t : Nat := 0; let fn : Nat := 1; let addr : Nat := 0xFFFF; let s : State := wCard .command; let u := s.to t;
      let on := u.sdio.card = .command ∧ (fn = 0 ∨ ((fn = 1 ∨ fn = 2) ∧ u.sdio.ioe.testBit fn = true ∧ u.mgmt.st ≠ .boot)); on ∧ fn = 1 ∧
      addr < 0x10000) ∧
    (let t : Nat := 0; let fn : Nat := 1; let addr : Nat := 0x10000; let count : Nat := 4; let s : State := wCard .command; let u := s.to t;
      let on := u.sdio.card = .command ∧ (fn = 0 ∨ ((fn = 1 ∨ fn = 2) ∧ u.sdio.ioe.testBit fn = true ∧ u.mgmt.st ≠ .boot)); on ∧ fn = 1 ∧
      u.sdio.cmdBuf = [] ∧ u.mgmt.resetAt = none ∧ 0 < count ∧ 0x10000 ≤ addr ∧ addr < 0x20000) ∧
    (let t : Nat := 0; let fn : Nat := 1; let addr : Nat := 0x1FFFF; let count : Nat := 4; let s : State := wCard .command; let u := s.to t;
      let on := u.sdio.card = .command ∧ (fn = 0 ∨ ((fn = 1 ∨ fn = 2) ∧ u.sdio.ioe.testBit fn = true ∧ u.mgmt.st ≠ .boot)); on ∧ fn = 1 ∧
      u.sdio.cmdBuf = [] ∧ u.mgmt.resetAt = none ∧ 0 < count ∧ 0x10000 ≤ addr ∧ addr < 0x20000) ∧
    (let t : Nat := 0; let fn : Nat := 1; let incr : Bool := true; let s : State := wCard .command; let u := s.to t;
      let on := u.sdio.card = .command ∧ (fn = 0 ∨ ((fn = 1 ∨ fn = 2) ∧ u.sdio.ioe.testBit fn = true ∧ u.mgmt.st ≠ .boot)); on ∧ fn = 1 ∧ incr = true) ∧
    (let t : Nat := 0; let fn : Nat := 2; let addr : Nat := 0xFFFF; let s : State := wCard .command; let u := s.to t;
      let on := u.sdio.card = .command ∧ (fn = 0 ∨ ((fn = 1 ∨ fn = 2) ∧ u.sdio.ioe.testBit fn = true ∧ u.mgmt.st ≠ .boot)); on ∧ fn = 2 ∧
      addr < 0x10000 ∧ u.sdio.inAct = none) ∧
    (let t : Nat := 0; let fn : Nat := 2; let addr : Nat := 0xFFFF; let data : List Byte := [1#8, 2#8];
      let s : State := wCard .command (fun x => { x with inAct := some (bulk0 .planAdmit 10 7) }); let u := s.to t;
      let on := u.sdio.card = .command ∧ (fn = 0 ∨ ((fn = 1 ∨ fn = 2) ∧ u.sdio.ioe.testBit fn = true ∧ u.mgmt.st ≠ .boot));
      let x := bulk0 .planAdmit 10 7; on ∧ fn = 2 ∧ u.sdio.inAct = some x ∧ addr < 0x10000 ∧ x.n + data.length < x.len) := ⟨by decide +kernel, by decide +kernel, by decide +kernel, by decide +kernel, by decide +kernel, by decide +kernel, by decide +kernel, by decide +kernel⟩

theorem witness_CardAndItsFunctions_4 :
    (let t : Nat := 0; let fn : Nat := 2; let addr : Nat := 0xFFFF; let data : List Byte := [1#8, 2#8];
      let s : State := wCard .command (fun x => { x with inAct := some (bulk0 .planAdmit 10 8) }); let u := s.to t;
      let on := u.sdio.card = .command ∧ (fn = 0 ∨ ((fn = 1 ∨ fn = 2) ∧ u.sdio.ioe.testBit fn = true ∧ u.mgmt.st ≠ .boot));
      let x := bulk0 .planAdmit 10 8; on ∧ fn = 2 ∧ u.sdio.inAct = some x ∧ addr < 0x10000 ∧ x.n ≤ x.len ∧ x.len ≤ x.n + data.length ∧
      u.sdio.inQ = []) ∧
    (let t : Nat := 0; let fn : Nat := 2; let addr : Nat := 0x10000; let count : Nat := 4;
      let s : State := wCard .command (fun x => { x with outAct := some (out0 5) }); let u := s.to t;
      let on := u.sdio.card = .command ∧ (fn = 0 ∨ ((fn = 1 ∨ fn = 2) ∧ u.sdio.ioe.testBit fn = true ∧ u.mgmt.st ≠ .boot)); let x := out0 5; on ∧
      fn = 2 ∧ u.sdio.outAct = some x ∧ 0 < count ∧ count < x.bytes.length ∧ 0x10000 ≤ addr ∧ addr < 0x20000) ∧
    (let t : Nat := 0; let fn : Nat := 2; let addr : Nat := 0x1FFFF; let count : Nat := 4;
      let s : State := wCard .command (fun x => { x with outAct := some (out0 5) }); let u := s.to t;
      let on := u.sdio.card = .command ∧ (fn = 0 ∨ ((fn = 1 ∨ fn = 2) ∧ u.sdio.ioe.testBit fn = true ∧ u.mgmt.st ≠ .boot)); let x := out0 5; on ∧
      fn = 2 ∧ u.sdio.outAct = some x ∧ 0 < count ∧ count < x.bytes.length ∧ 0x10000 ≤ addr ∧ addr < 0x20000) := by decide +kernel

theorem witness_PacketsAreReadFromTheirFrames_1 :
    (let bs : List Byte := []; let n (o k : Nat) : Nat := leAt bs o k; let fits := 16 + n 4 4 ≤ bs.length ∧ bs.length ≤ 16 + n 4 4 + 511; ¬ fits) ∧
    (let bs : List Byte := frame0 0x0202 0 15 0 0 ++ List.replicate 512 0#8; let n (o k : Nat) : Nat := leAt bs o k;
      let fits := 16 + n 4 4 ≤ bs.length ∧ bs.length ≤ 16 + n 4 4 + 511; ¬ fits) ∧
    (let bs : List Byte := List.replicate 16 0#8; let n (o k : Nat) : Nat := leAt bs o k;
      let fits := 16 + n 4 4 ≤ bs.length ∧ bs.length ≤ 16 + n 4 4 + 511; let crc := crc32c (bs.take 12 ++ (bs.drop 16).take (n 4 4)) = n 12 4; fits ∧
      ¬ crc) ∧
    (let bs : List Byte := frame0 0x0202 12 15 2 0; let n (o k : Nat) : Nat := leAt bs o k;
      let fits := 16 + n 4 4 ≤ bs.length ∧ bs.length ≤ 16 + n 4 4 + 511; let crc := crc32c (bs.take 12 ++ (bs.drop 16).take (n 4 4)) = n 12 4; fits ∧
      crc ∧ (1 < n 9 1 ∨ n 10 2 ≠ 0 ∨ 15 < n 8 1)) ∧
    (let bs : List Byte := frame0 0x0202 12 15 0 1; let n (o k : Nat) : Nat := leAt bs o k;
      let fits := 16 + n 4 4 ≤ bs.length ∧ bs.length ≤ 16 + n 4 4 + 511; let crc := crc32c (bs.take 12 ++ (bs.drop 16).take (n 4 4)) = n 12 4; fits ∧
      crc ∧ (1 < n 9 1 ∨ n 10 2 ≠ 0 ∨ 15 < n 8 1)) ∧
    (let bs : List Byte := frame0 0x0202 12 16 0 0; let n (o k : Nat) : Nat := leAt bs o k;
      let fits := 16 + n 4 4 ≤ bs.length ∧ bs.length ≤ 16 + n 4 4 + 511; let crc := crc32c (bs.take 12 ++ (bs.drop 16).take (n 4 4)) = n 12 4; fits ∧
      crc ∧ (1 < n 9 1 ∨ n 10 2 ≠ 0 ∨ 15 < n 8 1)) ∧
    (let bs : List Byte := frame0 0 12 15 0 0; let n (o k : Nat) : Nat := leAt bs o k;
      let fits := 16 + n 4 4 ≤ bs.length ∧ bs.length ≤ 16 + n 4 4 + 511; let crc := crc32c (bs.take 12 ++ (bs.drop 16).take (n 4 4)) = n 12 4; fits ∧
      crc ∧ n 9 1 ≤ 1 ∧ n 10 2 = 0 ∧ n 8 1 ≤ 15 ∧ opRow (n 0 2) = none) ∧
    (let bs : List Byte := frame0 0x0202 11 15 0 0; let n (o k : Nat) : Nat := leAt bs o k;
      let fits := 16 + n 4 4 ≤ bs.length ∧ bs.length ≤ 16 + n 4 4 + 511; let crc := crc32c (bs.take 12 ++ (bs.drop 16).take (n 4 4)) = n 12 4;
      let r := opOf 0x0202; fits ∧ crc ∧ n 9 1 ≤ 1 ∧ n 10 2 = 0 ∧ n 8 1 ≤ 15 ∧ opRow (n 0 2) = some r ∧ (n 4 4 < r.lo ∨ r.hi < n 4 4)) := ⟨by decide +kernel, by decide +kernel, by decide +kernel, by decide +kernel, by decide +kernel, by decide +kernel, by decide +kernel, by decide +kernel⟩

theorem witness_PacketsAreReadFromTheirFrames_2 :
    (let bs : List Byte := frame0 0x0202 13 15 1 0; let n (o k : Nat) : Nat := leAt bs o k;
      let fits := 16 + n 4 4 ≤ bs.length ∧ bs.length ≤ 16 + n 4 4 + 511; let crc := crc32c (bs.take 12 ++ (bs.drop 16).take (n 4 4)) = n 12 4;
      let r := opOf 0x0202; fits ∧ crc ∧ n 9 1 ≤ 1 ∧ n 10 2 = 0 ∧ n 8 1 ≤ 15 ∧ opRow (n 0 2) = some r ∧ (n 4 4 < r.lo ∨ r.hi < n 4 4)) ∧
    (let bs : List Byte := frame0 0x0202 12 15 0 0 ++ List.replicate 511 0#8; let n (o k : Nat) : Nat := leAt bs o k;
      let fits := 16 + n 4 4 ≤ bs.length ∧ bs.length ≤ 16 + n 4 4 + 511; let crc := crc32c (bs.take 12 ++ (bs.drop 16).take (n 4 4)) = n 12 4; fits ∧
      crc ∧ n 9 1 ≤ 1 ∧ n 10 2 = 0 ∧ n 8 1 ≤ 15 ∧ n 0 2 = 0x0202 ∧ n 4 4 = 12 ∧ n 9 1 = 0) ∧
    (let bs : List Byte := frame0 0x0202 12 15 1 0; let n (o k : Nat) : Nat := leAt bs o k;
      let fits := 16 + n 4 4 ≤ bs.length ∧ bs.length ≤ 16 + n 4 4 + 511; let crc := crc32c (bs.take 12 ++ (bs.drop 16).take (n 4 4)) = n 12 4; fits ∧
      crc ∧ n 9 1 ≤ 1 ∧ n 10 2 = 0 ∧ n 8 1 ≤ 15 ∧ n 0 2 = 0x0202 ∧ n 4 4 = 12 ∧ n 9 1 = 1) := by decide +kernel

theorem witness_BulkTransfersEnd_1 :
    (let t : Nat := 0; let s : State := rdy; let u := s.to t; u.sdio.checks = []) ∧
    (let t : Nat := 0;
      let s : State := wSd (fun x => { x with checks := [bulk0 (.flatLoad 7 0 1) 4 4] }) (wMgmt (fun m => { m with pow := .standby }));
      let u := s.to t; let i := bulk0 (.flatLoad 7 0 1) 4 4; let l := ([] : List Inbound); let w := u.updSdio (fun x => { x with checks := l });
      u.sdio.checks = i :: l ∧ (∃ r, opRow i.d.pkt.opcode = some r ∧ w.lacks r.needs = true)) ∧
    (let t : Nat := 0; let s : State := wSd (fun x => { x with checks := [bulk0 (.planLoad 1 (List.replicate 64 0#8)) 1 1] }); let u := s.to t;
      let i := bulk0 (.planLoad 1 (List.replicate 64 0#8)) 1 1; let l := ([] : List Inbound); let w := u.updSdio (fun x => { x with checks := l });
      u.sdio.checks = i :: l ∧ (∀ r, opRow i.d.pkt.opcode = some r → w.lacks r.needs = false) ∧ digestBad i.d.pkt.cmd i.got.reverse = true) ∧
    (let t : Nat := 0; let s : State := wSd (fun x => { x with checks := [bulk0 (.flatLoad 7 0 1) 4 4] }); let u := s.to t;
      let i := bulk0 (.flatLoad 7 0 1) 4 4; let l := ([] : List Inbound); let w := u.updSdio (fun x => { x with checks := l });
      let v := (w.bulkDone i.d.pkt i.got.reverse).1; u.sdio.checks = i :: l ∧ (∀ r, opRow i.d.pkt.opcode = some r → w.lacks r.needs = false) ∧
      w.bulkDone i.d.pkt i.got.reverse = (v, 0)) ∧
    (let t : Nat := 0; let s : State := wSd (fun x => { x with checks := [bulk0 (.qpLoad 7 0x100001) 4 4] }); let u := s.to t;
      let i := bulk0 (.qpLoad 7 0x100001) 4 4; let l := ([] : List Inbound); let w := u.updSdio (fun x => { x with checks := l });
      let v := (w.bulkDone i.d.pkt i.got.reverse).1; let e := 0x0304; u.sdio.checks = i :: l ∧
      (∀ r, opRow i.d.pkt.opcode = some r → w.lacks r.needs = false) ∧ e ≠ 0 ∧ w.bulkDone i.d.pkt i.got.reverse = (v, e)) ∧
    (let t : Nat := 4999999999; let s : State := wSd (fun x => { x with inAct := some (bulk0 .planAdmit 10 0) }); let u := s.to t;
      let x := bulk0 .planAdmit 10 0; u.sdio.inAct = some x ∧ u.now < x.at_ + u.bulkTmo) ∧
    (let t : Nat := 5000000000; let s : State := wSd (fun x => { x with inAct := some (bulk0 .planAdmit 10 0) }); let u := s.to t;
      let x := bulk0 .planAdmit 10 0; u.sdio.inAct = some x ∧ x.at_ + u.bulkTmo ≤ u.now ∧ u.sdio.inQ = [] ∧ u.sdio.cmdBuf = [] ∧
      u.mgmt.resetAt = none) ∧
    (let t : Nat := 0; let s : State := rdy; let u := s.to t; u.sdio.inAct = none) := by
  exact ⟨by decide +kernel,
    ⟨by decide +kernel, by exact ⟨_, rfl, by decide +kernel⟩⟩,
    ⟨by decide +kernel, by exact fun _ _ => rfl, by decide +kernel⟩,
    ⟨by decide +kernel, by exact fun _ _ => rfl, by decide +kernel⟩,
    ⟨by decide +kernel, by exact fun _ _ => rfl, by decide +kernel, by decide +kernel⟩,
    by decide +kernel,
    by decide +kernel,
    by decide +kernel⟩

theorem witness_BulkTransfersEnd_2 :
    (let t : Nat := 4999999999; let s : State := wSd (fun x => { x with outAct := some (out0 1) }); let u := s.to t; let x := out0 1;
      u.sdio.outAct = some x ∧ u.now < x.at_ + u.bulkTmo) ∧
    (let t : Nat := 5000000000; let s : State := wSd (fun x => { x with outAct := some (out0 1) }); let u := s.to t; let x := out0 1;
      u.sdio.outAct = some x ∧ x.at_ + u.bulkTmo ≤ u.now ∧ u.mgmt.resetAt = none ∧ u.sdio.outQ = []) ∧
    (let t : Nat := 5000000000; let s : State := wSd (fun x => { x with outAct := some (out0 1), outQ := [out0 2] }); let u := s.to t;
      let x := out0 1; let y := out0 2; let q := ([] : List Outbound); u.sdio.outAct = some x ∧ x.at_ + u.bulkTmo ≤ u.now ∧ u.mgmt.resetAt = none ∧
      u.sdio.outQ = y :: q) := by decide +kernel

theorem witness_ViolationsAreLoggedAndLimitTheirClient_1 :
    (let status : Nat := 0x0200; status / 256 ≠ 1) ∧
    (let status : Nat := 0x0101; status / 256 = 1) ∧
    (let t : Nat := 499999999; let status : Nat := 0x0101; let p : Packet := packetOf 1 3 .deviceInfo; let s : State := wViol 63; let u := s.to t;
      let c := min p.client 15; let n := (u.now :: (lget [] u.sdio.viol c).filter (fun z => decide (u.now < z + 500000000))).length;
      status / 256 = 1 ∧ 64 ≤ n ∧ u.limited c = false) ∧
    (let t : Nat := 499999999; let status : Nat := 0x0101; let p : Packet := packetOf 1 3 .deviceInfo; let s : State := wViol 62; let u := s.to t;
      let c := min p.client 15; let n := (u.now :: (lget [] u.sdio.viol c).filter (fun z => decide (u.now < z + 500000000))).length;
      status / 256 = 1 ∧ n < 64) ∧
    (let t : Nat := 0; let p : Packet := { packetOf 1 3 .deviceInfo with bad := 0x0102 }; let s : State := withRegs [(0x28, 8)] rdy; let u := s.to t;
      let c := min p.client 15; u.limited c = true ∧ p.bad ≠ 0) ∧
    (let t : Nat := 0; let p : Packet := packetOf 1 3 (.echo []); let s : State := withRegs [(0x28, 8)] rdy; let u := s.to t;
      let c := min p.client 15; let free := p.opcode = 0x0101 ∨ p.opcode = 0x0303 ∨ p.opcode / 256 = 8; u.limited c = true ∧ p.bad = 0 ∧ ¬ free) ∧
    (let t : Nat := 0; let p : Packet := packetOf 1 3 .deviceInfo; let s : State := wViol 0; let u := s.to t; let c := min p.client 15;
      let free := p.opcode = 0x0101 ∨ p.opcode = 0x0303 ∨ p.opcode / 256 = 8; p.bad = 0 ∧ (u.limited c = false ∨ free)) ∧
    (let t : Nat := 0; let p : Packet := packetOf 1 3 .deviceInfo; let s : State := withRegs [(0x28, 8)] rdy; let u := s.to t;
      let c := min p.client 15; let free := p.opcode = 0x0101 ∨ p.opcode = 0x0303 ∨ p.opcode / 256 = 8; p.bad = 0 ∧ (u.limited c = false ∨ free)) := ⟨by decide +kernel, by decide +kernel, by decide +kernel, by decide +kernel, by decide +kernel, by decide +kernel, by decide +kernel, by decide +kernel⟩

theorem witness_ViolationsAreLoggedAndLimitTheirClient_2 :
    (let t : Nat := 500000000; let client : Nat := 15; let s : State := wSd (fun x => { x with viol := lmod x.viol 15 (fun _ => [0]) });
      let u := s.to t; client < 16 ∧ (∀ z ∈ lget [] u.sdio.viol client, z + 500000000 ≤ u.now)) ∧
    (let t : Nat := 499999999; let client : Nat := 15; let s : State := wSd (fun x => { x with viol := lmod x.viol 15 (fun _ => [0]) });
      let u := s.to t; client < 16 ∧ (∃ z ∈ lget [] u.sdio.viol client, u.now < z + 500000000)) := by decide +kernel

theorem witness_DeviceAnswersReports_1 :
    (let h : Hdr := h0; let s : State := rdy; let bytes := [1#8]; Carried s h (.echo bytes)) ∧
    (let h : Hdr := h0; let s : State := rdy; Carried s h .deviceInfo) ∧
    (let h : Hdr := h0; let s : State := rdy; Carried s h .keyInfo) ∧
    (let h : Hdr := h0; let s : State := rdy; let y := s.atHost h; let nonce := List.replicate 32 1#8; Carried s h (.attest nonce) ∧
      y.deferredCnt < 8) ∧
    (let h : Hdr := h0; let s : State := wSd (fun x => { x with outQ := List.replicate 8 { out0 1 with d := ⟨packetOf 9 15 .deviceInfo, 0⟩ } });
      let y := s.atHost h; let nonce := List.replicate 32 1#8; Carried s h (.attest nonce) ∧ 8 ≤ y.deferredCnt) ∧
    (let h : Hdr := h0; let s : State := rdy; let addr : Word := 0x10040#32; let n : Nat := 0; Carried s h (.regRead addr n) ∧ n = 0) ∧
    (let h : Hdr := h0; let s : State := rdy; let addr : Word := 0xFFFFFF00#32; let n : Nat := 1; Carried s h (.regRead addr n) ∧ (∃ i, i < n ∧
      addrOk (addr.toNat + 4 * i) = false)) ∧
    (let h : Hdr := h0; let s : State := wMgmt (fun m => { m with pow := .standby }); let y := s.atHost h; let addr : Word := 0x10040#32;
      let n : Nat := 1; Carried s h (.regRead addr n) ∧ 0 < n ∧ (∀ i, i < n → addrOk (addr.toNat + 4 * i) = true) ∧ (∃ i, i < n ∧
      y.addrLacks (addr.toNat + 4 * i) = true)) := by
  exact ⟨by exact carried_of (by decide +kernel),
    by exact carried_of (by decide +kernel),
    by exact carried_of (by decide +kernel),
    ⟨by exact carried_of (by decide +kernel), by decide +kernel⟩,
    ⟨by exact carried_of (by decide +kernel), by decide +kernel⟩,
    ⟨by exact carried_of (by decide +kernel), by decide +kernel⟩,
    ⟨by exact carried_of (by decide +kernel), by decide +kernel⟩,
    ⟨by exact carried_of (by decide +kernel), by decide +kernel, by decide +kernel, by decide +kernel⟩⟩

theorem witness_DeviceAnswersReports_3 :
    let y := ((wTile 256).updMt (fun m => { m with flips := [(memKey (spLintel 3) (headerOff 0 3 127), 3)] })).atHost h0
    okPkt ((wTile 256).updMt (fun m => { m with flips := [(memKey (spLintel 3) (headerOff 0 3 127), 3)] })) h0 (.imagePull 0 127 8 1) = true ∧
      y.hasDie (127 / 32) = true ∧ y.tileErr 0 3 127 = 0 ∧ (y.tileRead 0 3 127).2 = true := by decide +kernel

theorem witness_DeviceAnswersReports_2 :
    (let h : Hdr := h0; let s : State := rdy; let y := s.atHost h; let addr : Word := 0x10054#32; let n : Nat := 6; Carried s h (.regRead addr n) ∧
      0 < n ∧ (∀ i, i < n → addrOk (addr.toNat + 4 * i) = true) ∧ (∀ i, i < n → y.addrLacks (addr.toNat + 4 * i) = false) ∧ y.snaps = [] ∧
      (∀ i, i < n → snapPartners (canonAddr (addr.toNat + 4 * i)) = [] ∧ arrIdx (canonAddr (addr.toNat + 4 * i)) 0xC0204 0x10 4 = none)) ∧
    (let h : Hdr := h0; let s : State := wSd (fun x => { x with evLog := [.strap 1] }); let y := s.atHost h;
      let idle := y.deferredCnt < 8 ∧ y.sdio.outAct = none ∧ y.sdio.outQ = []; let most := 1; Carried s h (.logPull 0 most) ∧ idle ∧
      y.sdio.evLog ≠ []) ∧
    (let h : Hdr := h0; let s : State := wSd (fun x => { x with violLog := [List.replicate 16 0#8] }); let y := s.atHost h;
      let idle := y.deferredCnt < 8 ∧ y.sdio.outAct = none ∧ y.sdio.outQ = []; let most := 1; Carried s h (.logPull 1 most) ∧ idle ∧
      y.sdio.violLog ≠ []) ∧
    (let h : Hdr := h0; let s : State := rdy; let y := s.atHost h; let most := 1; Carried s h (.logPull 0 most) ∧ y.sdio.evLog = []) ∧
    (let h : Hdr := h0; let s : State := rdy; let band := 0; let col := 127; let mask := 0; let cols := 1;
      let l := ((List.range 4).filter (fun c => mask.testBit c)).flatMap (fun c => (List.range cols).map (fun i => (c, col + i)));
      Carried s h (.imagePull band col mask cols) ∧ l = []) ∧
    (let h : Hdr := h0; let s : State := wTile 2921; let y := s.atHost h; let band := 0; let col := 127; let mask := 8; let cols := 1;
      let l := ((List.range 4).filter (fun c => mask.testBit c)).flatMap (fun c => (List.range cols).map (fun i => (c, col + i)));
      Carried s h (.imagePull band col mask cols) ∧ (∃ q ∈ l, y.tileErr band q.1 q.2 = 0x0404) ∧ (∀ q ∈ l, y.hasDie (q.2 / 32) = true)) ∧
    (let h : Hdr := h0; let s : State := wTile 256; let y := s.atHost h; let idle := y.deferredCnt < 8 ∧ y.sdio.outAct = none ∧ y.sdio.outQ = [];
      let band := 0; let col := 127; let mask := 8; let cols := 1;
      let l := ((List.range 4).filter (fun c => mask.testBit c)).flatMap (fun c => (List.range cols).map (fun i => (c, col + i)));
      Carried s h (.imagePull band col mask cols) ∧ l ≠ [] ∧ (∀ q ∈ l, y.hasDie (q.2 / 32) = true ∧ y.tileErr band q.1 q.2 = 0) ∧ idle) ∧
    (let h : Hdr := h0; let s : State := wTile 2920; let y := s.atHost h; let idle := y.deferredCnt < 8 ∧ y.sdio.outAct = none ∧ y.sdio.outQ = [];
      let band := 0; let col := 127; let mask := 8; let cols := 1;
      let l := ((List.range 4).filter (fun c => mask.testBit c)).flatMap (fun c => (List.range cols).map (fun i => (c, col + i)));
      Carried s h (.imagePull band col mask cols) ∧ l ≠ [] ∧ (∀ q ∈ l, y.hasDie (q.2 / 32) = true ∧ y.tileErr band q.1 q.2 = 0) ∧ idle) := by
  exact ⟨⟨by exact carried_of (by decide +kernel), by decide +kernel, by decide +kernel, by decide +kernel, by decide +kernel, by decide +kernel⟩,
    ⟨by exact carried_of (by decide +kernel), by decide +kernel, by decide +kernel⟩,
    ⟨by exact carried_of (by decide +kernel), by decide +kernel, by decide +kernel⟩,
    ⟨by exact carried_of (by decide +kernel), by decide +kernel⟩,
    ⟨by exact carried_of (by decide +kernel), by decide +kernel⟩,
    ⟨by exact carried_of (by decide +kernel), by decide +kernel, by decide +kernel⟩,
    ⟨by exact carried_of (by decide +kernel), by decide +kernel, by decide +kernel, by decide +kernel⟩,
    ⟨by exact carried_of (by decide +kernel), by decide +kernel, by decide +kernel, by decide +kernel⟩⟩

theorem witness_RegistersAreWrittenAndModified_1 :
    (let h : Hdr := h0; let s : State := rdy; let y := s.atHost h; let l := ([(0x18#32, 5#32)] : List (Word × Word));
      let w := (y.regWrites [(0x18#32, 5#32)]).1; let n := (y.regWrites [(0x18#32, 5#32)]).2.1; let st := (y.regWrites [(0x18#32, 5#32)]).2.2;
      Carried s h (.regWrite l) ∧ (∀ p ∈ l, y.addrLacks p.1.toNat = false) ∧ y.regWrites l = (w, n, st)) ∧
    (let h : Hdr := h0; let s : State := wPl (fun p => { p with restart := some ⟨0, 1, false, false⟩ }); let y := s.atHost h;
      let a : Word := 0x80000#32; let ref := y.restarting && restartBlock a.toNat; ref = true) ∧
    (let h : Hdr := h0; let s : State := rdy; let y := s.atHost h; let a : Word := 0xFFFFFF00#32; let v : Word := 7#32;
      let ref := y.restarting && restartBlock a.toNat; let w := (y.regWrite a.toNat v).1; let st := (y.regWrite a.toNat v).2; ref = false ∧ st ≠ 0 ∧
      y.regWrite a.toNat v = (w, st)) ∧
    (let h : Hdr := h0; let s : State := rdy; let y := s.atHost h; let a : Word := 0x14#32; let v : Word := 7#32;
      let l := ([(0x18#32, 5#32)] : List (Word × Word)); let ref := y.restarting && restartBlock a.toNat; let w := (y.regWrite a.toNat v).1;
      let x := (w.regWrites [(0x18#32, 5#32)]).1; let n := (w.regWrites [(0x18#32, 5#32)]).2.1; let st := (w.regWrites [(0x18#32, 5#32)]).2.2;
      ref = false ∧ y.regWrite a.toNat v = (w, 0) ∧ w.regWrites l = (x, n, st)) ∧
    (let h : Hdr := h0; let s : State := wBond (fun b => { b with st := .running }); let y := s.atHost h; let a : Word := 0xB0010#32;
      let v : Word := 7#32; let r := (rowOf 0xB0010).get!; rowOf a.toNat = some r ∧ addrOk a.toNat = true ∧ r.wo = false ∧
      absentReg y.part a.toNat = false ∧ (a.toNat / 65536 = 15 → y.test.mode = true ∨ testFree a.toNat = true) ∧ y.planRuns = true ∧
      writeLocks r (y.regGet (canonAddr a.toNat)) (partVal y.part a.toNat v) = true) ∧
    (let h : Hdr := h0; let s : State := rdy; let v : Word := 7#32; Carried s h (.regWrite [(0x18#32, v)])) ∧
    (let h : Hdr := h0; let s : State := rdy; let v : Word := 7#32; Carried s h (.regWrite [(0x14#32, v)])) ∧
    (let h : Hdr := h0; let s : State := rdy; let m : Word := 0xF#32; let v : Word := 7#32; Carried s h (.regModify 0x14#32 m v) ∧ m ≠ 0#32) := by
  exact ⟨⟨by exact carried_of (by decide +kernel), by exact List.forall_mem_singleton.2 (by decide +kernel), by exact Prod.ext rfl (Prod.ext rfl rfl)⟩,
    by decide +kernel,
    ⟨by decide +kernel, by decide +kernel, by exact Prod.ext rfl (by decide +kernel)⟩,
    ⟨by decide +kernel, by exact Prod.ext rfl (by decide +kernel), by exact Prod.ext rfl (Prod.ext rfl rfl)⟩,
    by decide +kernel,
    by exact carried_of (by decide +kernel),
    by exact carried_of (by decide +kernel),
    ⟨by exact carried_of (by decide +kernel), by decide +kernel⟩⟩

theorem witness_RegistersAreWrittenAndModified_2 :
    (let h : Hdr := h0; let s : State := rdy; let m : Word := 0xF#32; let v : Word := 7#32; Carried s h (.regModify 0x18#32 m v) ∧ m ≠ 0#32) ∧
    (let h : Hdr := h0; let s : State := rdy; let a : Word := 0xFFFFFF00#32; let m : Word := 0xF#32; let v : Word := 7#32;
      Carried s h (.regModify a m v) ∧ addrOk a.toNat = false) ∧
    (let h : Hdr := h0; let s : State := rdy; let y := s.atHost h; let a : Word := 0x14#32; let m : Word := 0#32; let v : Word := 7#32;
      Carried s h (.regModify a m v) ∧ addrOk a.toNat = true ∧ y.addrLacks a.toNat = false ∧ (y.restarting && restartBlock a.toNat) = false ∧
      m = 0#32) ∧
    (let h : Hdr := h0; let s : State := rdy; Written s h 0x1C 1) ∧
    (let h : Hdr := h0; let s : State := rdy; Written s h 0x1C 2) ∧
    (let h : Hdr := h0; let s : State := rdy; let y := s.atHost h; Written s h 0x100004 1 ∧ y.planRuns = false) ∧
    (let h : Hdr := h0; let s : State := wBond (fun b => { b with st := .running }); let y := s.atHost h; Written s h 0x100004 1 ∧ y.planRuns = true) := by
  exact ⟨⟨by exact carried_of (by decide +kernel), by decide +kernel⟩,
    ⟨by exact carried_of (by decide +kernel), by decide +kernel⟩,
    ⟨by exact carried_of (by decide +kernel), by decide +kernel, by decide +kernel, by decide +kernel, by decide +kernel⟩,
    by exact written_of (by decide +kernel),
    by exact written_of (by decide +kernel),
    ⟨by exact written_of (by decide +kernel), by decide +kernel⟩,
    ⟨by exact written_of (by decide +kernel), by decide +kernel⟩⟩

theorem witness_CommandRegistersTakeTheirValues_1 :
    (let h : Hdr := h0; let v : Word := 1#32; let s : State := rdy; Written s h 0x1C v.toNat ∧ v = 1#32) ∧
    (let h : Hdr := h0; let v : Word := 2#32; let s : State := rdy; Written s h 0x1C v.toNat ∧ v = 2#32) ∧
    (let h : Hdr := h0; let v : Word := 3#32; let s : State := rdy; Written s h 0x1C v.toNat ∧ v ≠ 1#32 ∧ v ≠ 2#32) ∧
    (let h : Hdr := h0; let v : Word := 1#32; let s : State := rdy; let y := s.atHost h; Written s h 0x100004 v.toNat ∧ v = 1#32 ∧ y.planRuns = false) ∧
    (let h : Hdr := h0; let v : Word := 1#32; let s : State := wBond (fun b => { b with st := .running }); let y := s.atHost h;
      Written s h 0x100004 v.toNat ∧ v = 1#32 ∧ y.planRuns = true) ∧
    (let h : Hdr := h0; let v : Word := 2#32; let s : State := rdy; Written s h 0x100004 v.toNat ∧ v ≠ 1#32) ∧
    (let h : Hdr := h0; let v : Word := 1#32; let s : State := rdy; Written s h 0xE000C v.toNat ∧ v = 1#32) ∧
    (let h : Hdr := h0; let v : Word := 2#32; let s : State := rdy; Written s h 0xE000C v.toNat ∧ v = 2#32) := by
  exact ⟨⟨by exact written_of (by decide +kernel), by decide +kernel⟩,
    ⟨by exact written_of (by decide +kernel), by decide +kernel⟩,
    ⟨by exact written_of (by decide +kernel), by decide +kernel, by decide +kernel⟩,
    ⟨by exact written_of (by decide +kernel), by decide +kernel, by decide +kernel⟩,
    ⟨by exact written_of (by decide +kernel), by decide +kernel, by decide +kernel⟩,
    ⟨by exact written_of (by decide +kernel), by decide +kernel⟩,
    ⟨by exact written_of (by decide +kernel), by decide +kernel⟩,
    ⟨by exact written_of (by decide +kernel), by decide +kernel⟩⟩

theorem witness_CommandRegistersTakeTheirValues_2 :
    (let h : Hdr := h0; let v : Word := 3#32; let s : State := rdy; Written s h 0xE000C v.toNat ∧ v ≠ 1#32 ∧ v ≠ 2#32) ∧
    (let h : Hdr := h0; let v : Word := 1#32; let s : State := wTest (fun x => x); Written s h 0xF000C v.toNat ∧ v = 1#32) ∧
    (let h : Hdr := h0; let v : Word := 2#32; let s : State := wTest (fun x => x); Written s h 0xF000C v.toNat ∧ v = 2#32) ∧
    (let h : Hdr := h0; let v : Word := 3#32; let s : State := wTest (fun x => x); Written s h 0xF000C v.toNat ∧ v = 3#32) ∧
    (let h : Hdr := h0; let v : Word := 4#32; let s : State := wTest (fun x => x); Written s h 0xF000C v.toNat ∧ v ≠ 1#32 ∧ v ≠ 2#32 ∧ v ≠ 3#32) := by
  exact ⟨⟨by exact written_of (by decide +kernel), by decide +kernel, by decide +kernel⟩,
    ⟨by exact written_of (by decide +kernel), by decide +kernel⟩,
    ⟨by exact written_of (by decide +kernel), by decide +kernel⟩,
    ⟨by exact written_of (by decide +kernel), by decide +kernel⟩,
    ⟨by exact written_of (by decide +kernel), by decide +kernel, by decide +kernel, by decide +kernel⟩⟩

theorem witness_DeviceStateCommandsAct_1 :
    (let h : Hdr := h0; let s : State := rdy; let cw : Word := 0xA5A55A5A#32; Carried s h (.deviceReset cw)) ∧
    (let t : Nat := 5; let s : State := wMgmt (fun m => { m with resetAt := some 5 }); let u := s.to t; let a := 5; u.mgmt.resetAt = some a ∧
      a ≤ u.now) ∧
    (let t : Nat := 4; let s : State := wMgmt (fun m => { m with resetAt := some 5 }); let u := s.to t; let a := 5; u.mgmt.resetAt = some a ∧
      u.now < a) ∧
    (let h : Hdr := h0; let slot : Nat := 3; let key : List Byte := List.replicate 32 1#8;
      let s : State := wBond (fun b => { b with st := .running }); let y := s.atHost h; let cw : Word := 0xA5A55A5A#32;
      let ks : HostCmd := .ownerKeySet slot key cw; slot < y.mgmt.ownerKeys.length ∧ Carried s h ks ∧ y.planRuns = true) ∧
    (let h : Hdr := h0; let slot : Nat := 3; let key : List Byte := List.replicate 32 1#8;
      let s : State := wMgmt (fun m => { m with ownerKeys := lmod m.ownerKeys 3 (fun _ => { revoked := true }) }); let y := s.atHost h;
      let cw : Word := 0xA5A55A5A#32; let old : KeySlot := lget {} y.mgmt.ownerKeys slot; let ks : HostCmd := .ownerKeySet slot key cw;
      slot < y.mgmt.ownerKeys.length ∧ Carried s h ks ∧ y.planRuns = false ∧ old.revoked = true) ∧
    (let h : Hdr := h0; let slot : Nat := 3; let key : List Byte := List.replicate 32 1#8;
      let s : State := wMgmt (fun m => { m with ownerKeys := lmod m.ownerKeys 3 (fun _ => { hash := some [] }) }); let y := s.atHost h;
      let cw : Word := 0xA5A55A5A#32; let old : KeySlot := lget {} y.mgmt.ownerKeys slot; let ks : HostCmd := .ownerKeySet slot key cw;
      slot < y.mgmt.ownerKeys.length ∧ Carried s h ks ∧ y.planRuns = false ∧ old.revoked = false ∧ old.hash ≠ none) ∧
    (let h : Hdr := h0; let slot : Nat := 3; let key : List Byte := List.replicate 32 1#8; let s : State := rdy; let y := s.atHost h;
      let cw : Word := 0xA5A55A5A#32; let old : KeySlot := lget {} y.mgmt.ownerKeys slot; let ks : HostCmd := .ownerKeySet slot key cw;
      slot < y.mgmt.ownerKeys.length ∧ Carried s h ks ∧ y.planRuns = false ∧ old.revoked = false ∧ old.hash = none) ∧
    (let h : Hdr := h0; let slot : Nat := 3; let s : State := wBond (fun b => { b with st := .running }); let y := s.atHost h;
      let cw : Word := 0xA5A55A5A#32; let old : KeySlot := lget {} y.mgmt.ownerKeys slot; let kr : HostCmd := .ownerKeyRevoke slot cw;
      slot < y.mgmt.ownerKeys.length ∧ Carried s h kr ∧ (y.planRuns = true ∨ old.hash = none)) := by
  exact ⟨by exact carried_of (by decide +kernel),
    by decide +kernel,
    by decide +kernel,
    ⟨by decide +kernel, by exact carried_of (by decide +kernel), by decide +kernel⟩,
    ⟨by decide +kernel, by exact carried_of (by decide +kernel), by decide +kernel, by decide +kernel⟩,
    ⟨by decide +kernel, by exact carried_of (by decide +kernel), by decide +kernel, by decide +kernel, by decide +kernel⟩,
    ⟨by decide +kernel, by exact carried_of (by decide +kernel), by decide +kernel, by decide +kernel, by decide +kernel⟩,
    ⟨by decide +kernel, by exact carried_of (by decide +kernel), by decide +kernel⟩⟩

theorem witness_DeviceStateCommandsAct_2 :
    (let h : Hdr := h0; let slot : Nat := 3; let s : State := rdy; let y := s.atHost h; let cw : Word := 0xA5A55A5A#32;
      let old : KeySlot := lget {} y.mgmt.ownerKeys slot; let kr : HostCmd := .ownerKeyRevoke slot cw; slot < y.mgmt.ownerKeys.length ∧
      Carried s h kr ∧ (y.planRuns = true ∨ old.hash = none)) ∧
    (let h : Hdr := h0; let slot : Nat := 3;
      let s : State := wMgmt (fun m => { m with ownerKeys := lmod m.ownerKeys 3 (fun _ => { hash := some [] }) }); let y := s.atHost h;
      let cw : Word := 0xA5A55A5A#32; let old : KeySlot := lget {} y.mgmt.ownerKeys slot; let kr : HostCmd := .ownerKeyRevoke slot cw;
      slot < y.mgmt.ownerKeys.length ∧ Carried s h kr ∧ y.planRuns = false ∧ old.hash ≠ none) ∧
    (let h : Hdr := h0; let s : State := wBond (fun b => { b with st := .running }); let y := s.atHost h; let cw : Word := 0xA5A55A5A#32;
      Carried s h (.testMode 1 cw) ∧ y.planRuns = true) ∧
    (let h : Hdr := h0; let s : State := rdy; let y := s.atHost h; let cw : Word := 0xA5A55A5A#32; Carried s h (.testMode 1 cw) ∧ y.planRuns = false) ∧
    (let h : Hdr := h0; let s : State := rdy; let cw : Word := 0xA5A55A5A#32; Carried s h (.testMode 0 cw)) ∧
    (let h : Hdr := h0; let s : State := wPl (fun p => { p with restart := some ⟨0, 1, false, false⟩ }); let y := s.atHost h; let mw := 300000;
      let cold := true; Carried s h (.budgetSet mw cold) ∧ y.restarting = true) ∧
    (let h : Hdr := h0; let s : State := wBond (fun b => { b with st := .running, readmitting := true, plan := some plan0 }); let y := s.atHost h;
      let mw := 300000; let cold := true; Carried s h (.budgetSet mw cold) ∧ y.restarting = false ∧ y.bond.readmitting = true) ∧
    (let h : Hdr := h0; let s : State := rdy; let y := s.atHost h; let mw := 300000; let cold := true; Carried s h (.budgetSet mw cold) ∧
      y.restarting = false ∧ y.bond.readmitting = false ∧ (y.bond.st = .empty ∨ y.bond.st = .loaded)) := by
  exact ⟨⟨by decide +kernel, by exact carried_of (by decide +kernel), by decide +kernel⟩,
    ⟨by decide +kernel, by exact carried_of (by decide +kernel), by decide +kernel, by decide +kernel⟩,
    ⟨by exact carried_of (by decide +kernel), by decide +kernel⟩,
    ⟨by exact carried_of (by decide +kernel), by decide +kernel⟩,
    by exact carried_of (by decide +kernel),
    ⟨by exact carried_of (by decide +kernel), by decide +kernel⟩,
    ⟨by exact carried_of (by decide +kernel), by decide +kernel, by decide +kernel⟩,
    ⟨by exact carried_of (by decide +kernel), by decide +kernel, by decide +kernel, by decide +kernel⟩⟩

theorem witness_DeviceStateCommandsAct_3 :
    (let h : Hdr := h0; let s : State := wBond (fun b => { b with st := .loaded }); let y := s.atHost h; let mw := 300000; let cold := true;
      Carried s h (.budgetSet mw cold) ∧ y.restarting = false ∧ y.bond.readmitting = false ∧ (y.bond.st = .empty ∨ y.bond.st = .loaded)) ∧
    (let h : Hdr := h0; let s : State := wBond (fun b => { b with st := .running, plan := some plan0 }); let y := s.atHost h; let mw := 300000;
      let cold := true; Carried s h (.budgetSet mw cold) ∧ y.restarting = false ∧ y.bond.readmitting = false ∧ y.bond.st = .running) ∧
    (let h : Hdr := h0; let s : State := wBond (fun b => { b with st := .admitted, plan := some plan0 }); let y := s.atHost h; let mw := 300000;
      let cold := true; Carried s h (.budgetSet mw cold) ∧ y.restarting = false ∧ y.bond.readmitting = false ∧ y.bond.st = .admitted) ∧
    (let h : Hdr := h0; let s : State := wPl (fun p => { p with restart := some ⟨0, 1, false, false⟩ }); let y := s.atHost h; let n := 1; n < 4 ∧
      Carried s h (.powerState n) ∧ y.restarting = true) ∧
    (let h : Hdr := h0; let s : State := { rdy with die := lmod rdy.die 3 (fun x => { x with st := .restarting }) }; let y := s.atHost h; let n := 1;
      let pairs := ∃ d ∈ y.dies, (y.dieAt d).st = .restarting; n < 4 ∧ Carried s h (.powerState n) ∧ y.restarting = false ∧ pairs) ∧
    (let h : Hdr := h0; let s : State := rdy; let y := s.atHost h; let n := 0; let to_ : PowState := lget .run [.run, .idle, .hold, .standby] n;
      let pairs := ∃ d ∈ y.dies, (y.dieAt d).st = .restarting; n < 4 ∧ Carried s h (.powerState n) ∧ y.restarting = false ∧ ¬ pairs ∧
      y.mgmt.powTo = none ∧ y.mgmt.pow = to_) ∧
    (let h : Hdr := h0; let s : State := wBond (fun b => { b with st := .running }); let y := s.atHost h; let n := 3;
      let to_ : PowState := lget .run [.run, .idle, .hold, .standby] n; let pairs := ∃ d ∈ y.dies, (y.dieAt d).st = .restarting; n < 4 ∧
      Carried s h (.powerState n) ∧ y.restarting = false ∧ ¬ pairs ∧ y.mgmt.powTo = none ∧ y.mgmt.pow ≠ to_ ∧ to_ ≠ .run ∧ y.power.tripped = false ∧
      y.planRuns = true) ∧
    (let h : Hdr := h0; let s : State := wTask; let y := s.atHost h; let n := 1; let to_ : PowState := lget .run [.run, .idle, .hold, .standby] n;
      let pairs := ∃ d ∈ y.dies, (y.dieAt d).st = .restarting; n < 4 ∧ Carried s h (.powerState n) ∧ y.restarting = false ∧ ¬ pairs ∧
      y.mgmt.powTo = none ∧ y.mgmt.pow = .run ∧ to_ = .idle ∧ y.power.tripped = false ∧ y.planRuns = false ∧ y.anyTask = true) := by
  exact ⟨⟨by exact carried_of (by decide +kernel), by decide +kernel, by decide +kernel, by decide +kernel⟩,
    ⟨by exact carried_of (by decide +kernel), by decide +kernel, by decide +kernel, by decide +kernel⟩,
    ⟨by exact carried_of (by decide +kernel), by decide +kernel, by decide +kernel, by decide +kernel⟩,
    ⟨by decide +kernel, by exact carried_of (by decide +kernel), by decide +kernel⟩,
    ⟨by decide +kernel, by exact carried_of (by decide +kernel), by decide +kernel, by decide +kernel⟩,
    ⟨by decide +kernel, by exact carried_of (by decide +kernel), by decide +kernel, by decide +kernel, by decide +kernel, by decide +kernel⟩,
    ⟨by decide +kernel, by exact carried_of (by decide +kernel), by decide +kernel, by decide +kernel, by decide +kernel, by decide +kernel, by decide +kernel, by decide +kernel, by decide +kernel⟩,
    ⟨by decide +kernel, by exact carried_of (by decide +kernel), by decide +kernel, by decide +kernel, by decide +kernel, by decide +kernel, by decide +kernel, by decide +kernel, by decide +kernel, by decide +kernel⟩⟩

theorem witness_DeviceStateCommandsAct_4 :
    (let h : Hdr := h0;
      let s : State := (wMgmt (fun m => { m with pow := .idle }) ({ rdy with power := { rdy.power with tripped := true, temps := List.replicate 21 1600 } }));
      let y := s.atHost h; let n := 0; let to_ : PowState := lget .run [.run, .idle, .hold, .standby] n;
      let pairs := ∃ d ∈ y.dies, (y.dieAt d).st = .restarting; n < 4 ∧ Carried s h (.powerState n) ∧ y.restarting = false ∧ ¬ pairs ∧
      y.mgmt.powTo = none ∧ y.mgmt.pow ≠ .run ∧ to_ = .run ∧ y.power.tripped = true ∧ y.coolEnough = false) ∧
    (let h : Hdr := h0; let s : State := rdy; let y := s.atHost h; let n := 2; let to_ : PowState := lget .run [.run, .idle, .hold, .standby] n;
      let pairs := ∃ d ∈ y.dies, (y.dieAt d).st = .restarting; n < 4 ∧ Carried s h (.powerState n) ∧ y.restarting = false ∧ ¬ pairs ∧
      y.mgmt.powTo = none ∧ y.mgmt.pow ≠ to_ ∧ (to_ = .hold ∨ to_ = .standby) ∧ y.planRuns = false) ∧
    (let h : Hdr := h0; let s : State := rdy; let y := s.atHost h; let n := 3; let to_ : PowState := lget .run [.run, .idle, .hold, .standby] n;
      let pairs := ∃ d ∈ y.dies, (y.dieAt d).st = .restarting; n < 4 ∧ Carried s h (.powerState n) ∧ y.restarting = false ∧ ¬ pairs ∧
      y.mgmt.powTo = none ∧ y.mgmt.pow ≠ to_ ∧ (to_ = .hold ∨ to_ = .standby) ∧ y.planRuns = false) ∧
    (let h : Hdr := h0; let s : State := rdy; let y := s.atHost h; let n := 1; let to_ : PowState := lget .run [.run, .idle, .hold, .standby] n;
      let pairs := ∃ d ∈ y.dies, (y.dieAt d).st = .restarting; n < 4 ∧ Carried s h (.powerState n) ∧ y.restarting = false ∧ ¬ pairs ∧
      y.mgmt.powTo = none ∧ y.mgmt.pow = .run ∧ to_ = .idle ∧ y.power.tripped = false ∧ y.planRuns = false ∧ y.anyTask = false) ∧
    (let h : Hdr := h0; let s : State := wMgmt (fun m => { m with pow := .idle }); let y := s.atHost h; let n := 0;
      let to_ : PowState := lget .run [.run, .idle, .hold, .standby] n; let pairs := ∃ d ∈ y.dies, (y.dieAt d).st = .restarting; n < 4 ∧
      Carried s h (.powerState n) ∧ y.restarting = false ∧ ¬ pairs ∧ y.mgmt.powTo = none ∧ y.mgmt.pow = .idle ∧ to_ = .run ∧ y.power.tripped = false) := by
  exact ⟨⟨by decide +kernel, by exact carried_of (by decide +kernel), by decide +kernel, by decide +kernel, by decide +kernel, by decide +kernel, by decide +kernel, by decide +kernel, by decide +kernel⟩,
    ⟨by decide +kernel, by exact carried_of (by decide +kernel), by decide +kernel, by decide +kernel, by decide +kernel, by decide +kernel, by decide +kernel, by decide +kernel⟩,
    ⟨by decide +kernel, by exact carried_of (by decide +kernel), by decide +kernel, by decide +kernel, by decide +kernel, by decide +kernel, by decide +kernel, by decide +kernel⟩,
    ⟨by decide +kernel, by exact carried_of (by decide +kernel), by decide +kernel, by decide +kernel, by decide +kernel, by decide +kernel, by decide +kernel, by decide +kernel, by decide +kernel, by decide +kernel⟩,
    ⟨by decide +kernel, by exact carried_of (by decide +kernel), by decide +kernel, by decide +kernel, by decide +kernel, by decide +kernel, by decide +kernel, by decide +kernel⟩⟩

theorem witness_StartUpAndResets_1 :
    (let t : Nat := 0; let s : State := rdy; let u := s.to t; u.mgmt.resetN = true) ∧
    (let t : Nat := 0; let s : State := wMgmt (fun m => { m with resetN := false }); let u := s.to t; u.mgmt.resetN = false) ∧
    (let t : Nat := 0; let s : State := rdy; let u := s.to t; let c := 15; c < u.mt.qch.length) ∧
    (let t : Nat := 0; let s : State := rdy; let u := s.to t; let d := 3; d < u.die.length) ∧
    (let t : Nat := 0; let b : Board := {}; let s : State := rdy; let u := s.to t; u.firmware b = none) ∧
    (let t : Nat := 0; let b : Board := { copy0 := fwCopy }; let s : State := wFuse; let u := s.to t; let k := ((u.firmware b).get!).1;
      let w := ((u.firmware b).get!).2.1; let d := ((u.firmware b).get!).2.2.1; let one := ((u.firmware b).get!).2.2.2; b.config = [] ∧
      u.firmware b = some (k, w, d, one)) ∧
    (let t : Nat := 0; let s : State := grp7 (fun g => { g with st := .discovering }) (wMgmt (fun m => { m with st := .starting })); let u := s.to t;
      u.mgmt.st = .starting ∧ (∃ g, g < u.nGrp ∧ (u.grpAt g).st = .discovering ∧ (u.grpAt g).retry = false)) ∧
    (let t : Nat := 0; let s : State := grp7 (fun g => { g with st := .discovering, retry := true }) (wMgmt (fun m => { m with st := .starting }));
      let u := s.to t; u.mgmt.st = .starting ∧ (∀ g, g < u.nGrp → (u.grpAt g).st = .discovering → (u.grpAt g).retry = true)) := ⟨by decide +kernel, by decide +kernel, by decide +kernel, by decide +kernel, by decide +kernel, by decide +kernel, by decide +kernel, by decide +kernel⟩

theorem witness_StartUpAndResets_3 :
    let dead (x : Nat × Nat) (m : Nat) : Bist := { (default : Bist) with badBanks := [x], badDies := m }
    (rdy.hasPort 3 = true ∧ aPort 0 ≠ aPort 3 + 8 ∧ (0 : Nat) ≠ aPort 3 + 0xC) ∧ (3, 63) ∈ (dead (3, 63) 0).badBanks ∧
    ((rdy.dieAt 3).st ≠ .failed ∧ 3 < rdy.die.length ∧ (∃ x ∈ (dead (3, 25) 0).badBanks, x.1 = 3 ∧ x.2 < 26) ∧
      (dead (3, 63) 8).badDies.testBit 3 = true) := by decide +kernel

theorem witness_StartUpAndResets_2 :
    (let t : Nat := 0; let s : State := rdy; let u := s.to t; u.mgmt.startup.kind < 3) ∧
    (let t : Nat := 0; let s : State := rdy; let u := s.to t; u.mgmt.st ≠ .starting) ∧
    (let t : Nat := 0; let s : State := rdy; let u := s.to t; u.mgmt.refclk = true) ∧
    (let t : Nat := 0; let s : State := wMgmt (fun m => { m with refclk := false }); let u := s.to t; u.mgmt.refclk = false) := by decide +kernel

theorem witness_PowerStatesAndDomains_1 :
    (let t : Nat := 0; let s : State := rdy; let u := s.to t; (u.mgmt.powTo = none ∨ u.mgmt.st = .starting)) ∧
    (let t : Nat := 0; let s : State := wMgmt (fun m => { m with powTo := some .idle, st := .starting }); let u := s.to t;
      (u.mgmt.powTo = none ∨ u.mgmt.st = .starting)) ∧
    (let t : Nat := 0;
      let s : State := wSd (fun x => { x with waiting := some (packetOf 1 15 (.powerState 1)) }) (wMgmt (fun m => { m with powTo := some .idle }));
      let u := s.to t; let p := packetOf 1 15 (.powerState 1); let to_ := PowState.idle; u.mgmt.powTo = some to_ ∧ u.mgmt.st ≠ .starting ∧
      u.sdio.waiting = some p ∧ u.sdio.cmdBuf = [] ∧ u.mgmt.resetAt = none ∧ (to_ = .idle ∨ to_ = .run)) ∧
    (let t : Nat := 0;
      let s : State := wSd (fun x => { x with waiting := some (packetOf 1 15 (.powerState 1)) }) (wMgmt (fun m => { m with powTo := some .run, pow := .idle }));
      let u := s.to t; let p := packetOf 1 15 (.powerState 1); let to_ := PowState.run; u.mgmt.powTo = some to_ ∧ u.mgmt.st ≠ .starting ∧
      u.sdio.waiting = some p ∧ u.sdio.cmdBuf = [] ∧ u.mgmt.resetAt = none ∧ (to_ = .idle ∨ to_ = .run)) ∧
    (let t : Nat := 0;
      let s : State := wSd (fun x => { x with waiting := some (packetOf 1 15 (.powerState 1)) }) (wMgmt (fun m => { m with powTo := some .hold }));
      let u := s.to t; let p := packetOf 1 15 (.powerState 1); let to_ := PowState.hold; u.mgmt.powTo = some to_ ∧ u.mgmt.st ≠ .starting ∧
      u.sdio.waiting = some p ∧ u.sdio.cmdBuf = [] ∧ u.mgmt.resetAt = none ∧ (to_ = .hold ∨ to_ = .standby)) ∧
    (let t : Nat := 0;
      let s : State := wSd (fun x => { x with waiting := some (packetOf 1 15 (.powerState 1)) }) (wMgmt (fun m => { m with powTo := some .standby }));
      let u := s.to t; let p := packetOf 1 15 (.powerState 1); let to_ := PowState.standby; u.mgmt.powTo = some to_ ∧ u.mgmt.st ≠ .starting ∧
      u.sdio.waiting = some p ∧ u.sdio.cmdBuf = [] ∧ u.mgmt.resetAt = none ∧ (to_ = .hold ∨ to_ = .standby)) ∧
    (let t : Nat := 0; let s : State := rdy; let u := s.to t; let to_ := PowState.standby; (to_ = .standby ∨ (to_ = .hold ∧ u.mgmt.pow ≠ .standby))) ∧
    (let t : Nat := 0; let s : State := rdy; let u := s.to t; let to_ := PowState.hold; (to_ = .standby ∨ (to_ = .hold ∧ u.mgmt.pow ≠ .standby))) := ⟨by decide +kernel, by decide +kernel, by decide +kernel, by decide +kernel, by decide +kernel, by decide +kernel, by decide +kernel, by decide +kernel⟩

theorem witness_PowerStatesAndDomains_2 :
    (let t : Nat := 0; let pd : Nat := 17; let s : State := rdy; let u := s.to t; u.hasPd pd = true ∧ u.power.fault.getLsbD pd = false ∧ pd < 20 ∧
      pdDie pd < 4) ∧
    (let t : Nat := 0; let pd : Nat := 19; let s : State := rdy; let u := s.to t; u.hasPd pd = true ∧ u.power.fault.getLsbD pd = false ∧ pd < 20 ∧
      4 ≤ pdDie pd) ∧
    (let t : Nat := 0; let pd : Nat := 20; let s : State := rdy; let u := s.to t; (u.hasPd pd = false ∨ u.power.fault.getLsbD pd = true)) ∧
    (let t : Nat := 0; let pd : Nat := 17; let s : State := { rdy with power := { rdy.power with fault := 0x20000#20 } }; let u := s.to t;
      (u.hasPd pd = false ∨ u.power.fault.getLsbD pd = true)) := by decide +kernel

theorem witness_EnergyAndTemperature_1 :
    (let t : Nat := 0; let temps : List Nat := List.replicate 21 1679; let s : State := rdy; let u := s.to t;
      let x (i : Nat) : Int := signedOf 16 (lget 0 temps i % 65536); let live (i : Nat) : Prop := i < 21 ∧ u.pdomOn (sensorPd i) = true;
      (∀ i, live i → x i < 16 * (u.tjMax + 5)) ∧ u.mgmt.pow = .run) ∧
    (let t : Nat := 0; let temps : List Nat := List.replicate 21 1680; let s : State := rdy; let u := s.to t;
      let x (i : Nat) : Int := signedOf 16 (lget 0 temps i % 65536); let live (i : Nat) : Prop := i < 21 ∧ u.pdomOn (sensorPd i) = true;
      (∃ i, live i ∧ 16 * (u.tjMax + 5) ≤ x i) ∧ u.power.tripped = false ∧ u.mgmt.pow = .run) ∧
    (let t : Nat := 50000000; let s : State := { rdy with power := { rdy.power with hotSince := some 0 } }; let u := s.to t; let a := 0;
      u.power.hotSince = some a ∧ a + 50000000 ≤ u.now) ∧
    (let t : Nat := 49999999; let s : State := { rdy with power := { rdy.power with hotSince := some 0 } }; let u := s.to t; let a := 0;
      u.power.hotSince = some a ∧ u.now < a + 50000000) ∧
    (let t : Nat := 500000000; let s : State := { rdy with power := { rdy.power with coolSince := some 0, cool := true, derate := 5 } };
      let u := s.to t; let a := 0; u.power.hotSince = none ∧ u.power.coolSince = some a ∧ u.power.cool = true ∧ a + 500000000 ≤ u.now) ∧
    (let t : Nat := 0; let s : State := rdy; let u := s.to t; let d := 5; d ≠ u.power.derate) ∧
    (let t : Nat := 0;
      let s : State := { wBond (fun b => { b with st := .running, plan := some plan0 }) with power := { rdy.power with granted := 10000 } };
      let u := s.to t; u.bond.st = .running ∧ u.grantOf < u.power.granted) ∧
    (let t : Nat := 0;
      let s : State := { wBond (fun b => { b with st := .running, plan := some plan0 }) with power := { rdy.power with granted := 0 } };
      let u := s.to t; u.power.granted ≤ u.grantOf) := by
  exact ⟨⟨by exact fun i h => (by decide +kernel : ∀ i, i < 21 → signedOf 16 (lget 0 (List.replicate 21 1679) i % 65536) < 16 * ((rdy.to 0).tjMax + 5)) i h.1, by decide +kernel⟩,
    ⟨by exact ⟨20, ⟨by decide, by decide +kernel⟩, by decide +kernel⟩, by decide +kernel, by decide +kernel⟩,
    by decide +kernel,
    by decide +kernel,
    by decide +kernel,
    by decide +kernel,
    by decide +kernel,
    by decide +kernel⟩

theorem witness_EnergyAndTemperature_2 :
    (let h : Hdr := h0; let s : State := rdy; Written s h 0xE000C 1) ∧
    (let h : Hdr := h0; let s : State := rdy; Written s h 0xE000C 2) := by
  exact ⟨by exact written_of (by decide +kernel),
    by exact written_of (by decide +kernel)⟩

theorem witness_InjectionsAndBoundaryScan_1 :
    (let h : Hdr := h0; let value : Word := 0x82000000#32; let s : State := wTest (fun x => x);
      let rows : List (Instr × Nat) := [(.injCap h value, 0), (.injMem h value, 1), (.injPlumb h value, 2), (.injWd h value, 3), (.injCourse h value, 4)];
      let x := (Instr.injCourse h value, 4); let a := injReg x.2; x ∈ rows ∧ Written s h a value.toNat) ∧
    (let h : Hdr := h0; let s : State := wTest (fun x => x) [(0xF0064, 0x80000000)]; let y := s.atHost h; let i := 4; let w := 0x82000000#32;
      let a := injReg i; i < 5 ∧ y.test.mode = true ∧ i < y.test.inj.length ∧ wbit w 31 = true ∧ y.rbit a 31 = true) ∧
    (let h : Hdr := h0; let s : State := wTest (fun x => x); let y := s.atHost h; let i := 4; let w := 0x84000000#32; let a := injReg i; i < 5 ∧
      y.test.mode = true ∧ i < y.test.inj.length ∧ wbit w 31 = true ∧ y.rbit a 31 = false ∧ injKindOk i w = false) ∧
    (let h : Hdr := h0; let s : State := wTest (fun x => x); let y := s.atHost h; let i := 2; let w := 0x84000000#32; let a := injReg i; i < 5 ∧
      y.test.mode = true ∧ i < y.test.inj.length ∧ wbit w 31 = true ∧ y.rbit a 31 = false ∧ injKindOk i w = true ∧ y.injRefused i w = true) ∧
    (let h : Hdr := h0; let s : State := wTest (fun x => x); let y := s.atHost h; let i := 4; let w := 0x82000000#32; let a := injReg i; i < 5 ∧
      y.test.mode = true ∧ i < y.test.inj.length ∧ wbit w 31 = true ∧ y.rbit a 31 = false ∧ injKindOk i w = true ∧ y.injRefused i w = false ∧ i ≠ 1) ∧
    (let h : Hdr := h0; let s : State := wTest (fun x => x); let y := s.atHost h; let i := 1; let w := 0x90C00000#32; let a := injReg i;
      let k := 3 * 2 ^ 32; i < 5 ∧ y.test.mode = true ∧ i < y.test.inj.length ∧ wbit w 31 = true ∧ y.rbit a 31 = false ∧ injKindOk 1 w = true ∧
      y.injRefused 1 w = false ∧ i = 1 ∧ y.injWord w = some k) ∧
    (let h : Hdr := h0; let s : State := wTest (fun x => x); let y := s.atHost h; let i := 4; let w := 0x02000000#32; i < 5 ∧ y.test.mode = true ∧
      i < y.test.inj.length ∧ wbit w 31 = false) ∧
    (let h : Hdr := h0; let s : State := wTest (fun x => { x with inj := lmod x.inj 4 (fun _ => { armed := true, left := 1 }) }) [(0xF0064, 0xF2000000)];
      let y := s.atHost h; let i := 4; let w := 0x02000000#32; let a := injReg i; i < 5 ∧ y.test.mode = true ∧ i < y.test.inj.length ∧
      wbit w 31 = false ∧ y.rbit a 31 = true ∧ y.injBegun 4 = true) ∧
    (let h : Hdr := h0; let s : State := rdy; let y := s.atHost h; y.test.mode = false) := by
  exact ⟨⟨by exact by repeat (first | exact .head _ | apply List.Mem.tail), by exact written_of (by decide +kernel)⟩,
    by decide +kernel,
    by decide +kernel,
    by decide +kernel,
    by decide +kernel,
    by decide +kernel,
    by decide +kernel,
    by decide +kernel,
    by decide +kernel⟩

theorem witness_InjectionsAndBoundaryScan_2 :
    (let t : Nat := 1; let inj : Nat := 4;
      let s : State := wTest (fun x => { x with inj := lmod x.inj 4 (fun _ => { armed := true, left := 2 }) }) [(0xF0064, 0x81000000)];
      let u := s.to t; (u.injAt 4).armed = true ∧ (u.injAt 4).at_ < u.now ∧ u.rfld 0xF0064 27 24 ≠ 2) ∧
    (let t : Nat := 1; let inj : Nat := 4;
      let s : State := wTest (fun x => { x with inj := lmod x.inj 4 (fun _ => { armed := true, left := 2 }) }) [(0xF0064, 0xF2000000)];
      let u := s.to t; let n := u.rfld 0xF0064 30 28; (u.injAt 4).armed = true ∧ (u.injAt 4).at_ < u.now ∧ u.rfld 0xF0064 27 24 = 2 ∧
      (u.injAt 4).left = 2 ∧ u.rbit (aEnc n) 18 = false ∧ n < u.course.enc.length ∧ 4 < u.test.inj.length) ∧
    (let t : Nat := 500; let inj : Nat := 4;
      let s : State := wTest (fun x => { x with inj := lmod x.inj 4 (fun _ => { armed := true, left := 1 }) }) [(0xF0064, 0xF2000000)];
      let u := s.to t; let n := u.rfld 0xF0064 30 28; (u.injAt 4).armed = true ∧ (u.injAt 4).at_ < u.now ∧ u.rfld 0xF0064 27 24 = 2 ∧
      (u.injAt 4).left ≠ 2 ∧ (u.injAt 4).at_ + 500 * max 1 (u.rfld 0xF0064 15 0) ≤ u.now ∧ n < u.course.enc.length) ∧
    (let t : Nat := 0; let s : State := wTest (fun x => x); let u := s.to t; ((u.injAt 4).armed = false ∨ u.now ≤ (u.injAt 4).at_)) ∧
    (let t : Nat := 0; let inj : Nat := 4;
      let s : State := wTest (fun x => { x with inj := lmod x.inj 4 (fun _ => { armed := true, left := 2 }) }) [(0xF0064, 0x81000000)];
      let u := s.to t; ((u.injAt 4).armed = false ∨ u.now ≤ (u.injAt 4).at_)) ∧
    (let inj : Nat := 3; inj ≠ 4) ∧
    (let t : Nat := 0; let s : State := withRegs [(aEnc 7, 0x200000)] rdy; let u := s.to t; let n := 7;
      (u.now :: (u.encAt n).errs.filter (fun x => decide (u.now < x + 500000))).length < max (u.rfld (aEnc n) 23 20) 1) ∧
    (let t : Nat := 500000000; let inj : Nat := 4;
      let s : State := wTest (fun x => { x with inj := lmod x.inj 4 (fun _ => { armed := true, left := 2 }) }) [(0xF0064, 0x81000000)];
      let u := s.to t; inj < 5 ∧ inj < u.test.inj.length ∧ (u.injAt inj).armed = true ∧ u.injBegun inj = false ∧
      (u.injAt inj).at_ + 500000000 ≤ u.now) := ⟨by decide +kernel, by decide +kernel, by decide +kernel, by decide +kernel, by decide +kernel, by decide +kernel, by decide +kernel, by decide +kernel⟩

theorem witness_InjectionsAndBoundaryScan_3 :
    (let t : Nat := 0; let inj : Nat := 4; let s : State := wTest (fun x => x); let u := s.to t; inj < 5 ∧ inj < u.test.inj.length ∧
      ((u.injAt inj).armed = false ∨ u.injBegun inj = true ∨ u.now < (u.injAt inj).at_ + 500000000)) ∧
    (let t : Nat := 499999999; let inj : Nat := 4;
      let s : State := wTest (fun x => { x with inj := lmod x.inj 4 (fun _ => { armed := true, left := 2 }) }) [(0xF0064, 0x81000000)];
      let u := s.to t; inj < 5 ∧ inj < u.test.inj.length ∧
      ((u.injAt inj).armed = false ∨ u.injBegun inj = true ∨ u.now < (u.injAt inj).at_ + 500000000)) ∧
    (let t : Nat := 500000000; let inj : Nat := 4;
      let s : State := wTest (fun x => { x with inj := lmod x.inj 4 (fun _ => { armed := true, left := 1 }) }) [(0xF0064, 0xF2000000)];
      let u := s.to t; inj < 5 ∧ inj < u.test.inj.length ∧
      ((u.injAt inj).armed = false ∨ u.injBegun inj = true ∨ u.now < (u.injAt inj).at_ + 500000000)) ∧
    (let h : Hdr := h0; let s : State := wTest (fun x => x); Written s h 0xF000C 1) ∧
    (let h : Hdr := h0; let s : State := wTest (fun x => x); Written s h 0xF000C 2) ∧
    (let h : Hdr := h0; let s : State := wTest (fun x => x); Written s h 0xF000C 3) ∧
    (let t : Nat := 0;
      let rows : List (Instr × Nat × Bool) := [(.bypass t, 0, false), (.idcode t, 1, false), (.samplePreload t, 2, false), (.extest t, 3, true), (.extestPulse t, 4, true), (.extestTrain t, 5, true)];
      let x := (Instr.extestTrain t, 5, true); x ∈ rows) := by
  exact ⟨by decide +kernel,
    by decide +kernel,
    by decide +kernel,
    by exact written_of (by decide +kernel),
    by exact written_of (by decide +kernel),
    by exact written_of (by decide +kernel),
    by exact by repeat (first | exact .head _ | apply List.Mem.tail)⟩

/-! ### One step or one value beside the spec's own figures -/

/-- The programme of "Lots, streams and coil history" (20_worked_line_programme.md), word by word. -/
theorem test_programWords : (([0x0400000000000000, 0x10000000000F4240, 0x3800000000000001, 0x10000000EE6B2800, 0x4400000000000002] : List Nat).map
    progDecode) = [.anchor, .waitDsp 1000000, .mark 1, .waitDsp 4000000000, .jump 2] := by decide +kernel

/-- Course Unit, worked example: LG0 at 62.5 um between lines and 2,400 ns reads VMAX 26,041,666 um/s. -/
theorem test_vmax : (State.readReg (withRegs [(0x10000, 1), (aLg 0, 0x810F0000), (aLg 0 + 4, 0x7D0000), (aLg 0 + 0x8, 0x3E8000), (aLg 0 + 0x14, 0x960)] rdy)
    (aLg 0 + 0x1C)).1 = 26041666#32 := by decide +kernel

/-- 05_arithmetic.md, worked example: S_a 0.05, S_b 0.01 and S_out 0.1 give s = 38 and M = 1,374,389,535 but for the rounding of
the three scales to FP32; acc 5,370 is 7 in either class. -/
theorem test_detectorOutput : corrected 5000 (-10) 0 1200 37 288 = 5370 ∧ rescaleRaw .classI 5370 1374389535 38 (-20) = 7 ∧
    rescaleRaw .classT 5370 1374389535 38 (-20) = 7 := by decide +kernel

/-- 05_arithmetic.md: the outlier of the next example leaves code −128 and the side value 0x4183 in BF16. -/
theorem test_escape : rescaleOut .classI { scale := 0x3DCCCCCD#32, zp := -20, fmt := .int8, esc := true, sideFp32 := false, privileged := false, learned := false }
    false 1374389535 38 32700 = ⟨-128, some 0x41830000#32, false, false⟩ := by decide +kernel

/-- 05_arithmetic.md, conversion examples. -/
theorem test_conversions : [rescaleRaw .classI 5 1 1 0, rescaleRaw .classT 5 1 1 0, rescaleRaw .classI (-5) 1 1 0, rescaleRaw .classT (-5) 1 1 0,
      rescaleRaw .classI 7 1 1 0, rescaleRaw .classT 7 1 1 0] = [3, 2, -3, -2, 4, 4] ∧
    [toBf16 .classI 0x3F808000#32, toBf16 .classT 0x3F808000#32, toBf16 .classI 0x3F818000#32, toBf16 .classT 0x3F818000#32, toBf16 .classI 0x7FC00001#32]
      = [0x3F810000#32, 0x3F800000#32, 0x3F820000#32, 0x3F820000#32, 0x7FC00000#32] ∧
    toInt .classI (-128) 127 0xC3028000#32 = ⟨-128, true, false⟩ ∧
    feedCode .uint8 200 = 72 := by decide +kernel

/-- The same with a core of each half of every die in a slot. -/
def wHalves : State := { rdy with die := rdy.die.map (fun d => { d with core := lmod d.core 26 (fun c => { c with role := .inSlot 26 }) }) }

/-- 17_power_energy.md and 20: everything outside the cores takes 101,600 mW at 1.0 GHz and 98,400 mW at 0.8 GHz. -/
theorem test_baseFigure : wHalves.baseMw = 101600 ∧ ({ wHalves with freq := 1 } : State).baseMw = 98400 := by decide +kernel

/-- 20: a budget of 380,000 mW grants 192 cores, one of 350,000 mW would grant 171. -/
theorem test_grant : ((380000 - wHalves.baseMw) / coreFig 0, (350000 - wHalves.baseMw) / coreFig 0) = (192, 171) := by decide +kernel

/-- PLUMB_DI7_LIMIT reads its reset value of 3,600 s (R460). -/
theorem test_selfTestLimit : (rdy.readReg 0xB0278).1 = 3600#32 := by decide +kernel

/-! ### Rule images: what the parser of the image's open layout answers decides the case -/

theorem witness_RuleImageRefused (img digest : List Byte) (h : Config.parseRules img = none) : ruleParse img digest = .error 0x0106 := by
  simp only [ruleParse, h]

theorem witness_RuleImageTaken (img digest : List Byte) (h : Config.parseRules img = some (1, [], [])) :
    ruleParse img digest = .ok { version := 1, programs := [], consts := [], digest := digest } := by
  simp only [ruleParse, h]
  rfl

/-- The other hypotheses of the two cases: a signed image arrives while Plumb serves, is staged by a running plan, or finds Plumb FAILED. -/
theorem witness_RuleImageArrives :
    (∀ s ∈ [rdy, wBond (fun b => { b with st := .running }), wPl (fun p => { p with st := .failed })],
      okPkt s h0 (.ruleLoad (sha512 [1#8]) [1#8]) = true ∧ (s.atHost h0).plumb.st ≠ .split) ∧
    ((wPl (fun p => { p with st := .failed })).atHost h0).plumb.st = .failed ∧ (rdy.atHost h0).planRuns = false ∧
    ((wBond (fun b => { b with st := .running })).atHost h0).planRuns = true := by decide +kernel

end Sys2Proof.Tests
end

section
/-!
The state at reset (R12, R543): it meets the model's invariant, its registers read as the Reset columns say, and its stores and
queues are empty.
-/
namespace Sys2Proof.Machine

/-- No register and no byte is listed at reset, and every table of numbered units has its full size. -/
theorem reset_meets_invariant :
    Registers.wf State.reset.part State.reset.regs ∧ Memory.wf State.reset.mem ∧ State.reset.Sized := by
  refine ⟨rfl, rfl, ?_⟩
  constructor
  case die => exact ⟨rfl, fun d hd => by rw [List.eq_of_mem_replicate hd]; decide⟩
  all_goals decide

/-- Nothing has been stored at reset: a byte reads its default. -/
theorem reset_ldB (k : Nat) : State.reset.ldB k = 0#8 := rfl

/-- Settles O4: the tables of the Reset columns are finite, and each of their registers is read in the one state of reset. -/
theorem resetStateHoldsTheResetValues : Obligations.ResetStateHoldsTheResetValues := by
  refine ⟨reset_meets_invariant, ?single, ?arrays, ?events, reset_ldB, rfl, rfl, rfl, rfl, rfl, rfl, rfl, rfl⟩
  case single => decide +kernel
  case arrays => decide +kernel
  case events => decide +kernel

end Sys2Proof.Machine
end

section
/-!
What queues replies (R498): an event, a record and the passing of time queue none, and a command that nothing refuses answers with
the one reply it ends in.
-/
namespace Sys2Proof.Machine

variable {s : State}

/-! ### Events and time queue no reply -/

theorem State.log_replies {e : LogEntry} : (s.log e).sdio.replies = s.sdio.replies := by
  unfold State.log
  extract_lets l
  generalize l.drop (l.length - 65535) = kept
  rw [State.updSdio_sdio]

theorem State.produce_sdio {ty pair : Nat} {body : List Byte} : (s.produce ty pair body).1.sdio = s.sdio :=
  (State.produce_only (m := [.regs, .tn]) (by decide) (OnlyIn.refl _ s)).fst.eq .sdio

theorem State.raiseQuiet_replies {b arg : Nat} : (s.raiseQuiet b arg).sdio.replies = s.sdio.replies := by
  unfold State.raiseQuiet
  extract_lets was x1 x2
  have h1 : x1.sdio.replies = s.sdio.replies := congrArg Sdio.replies State.regSet_sdio
  have h2 : x2.sdio.replies = s.sdio.replies := State.log_replies.trans h1
  clear_value x1 x2
  split
  · split
    · exact h2
    · rw [State.produce_sdio, h2]
  · exact h1

theorem State.emit_replies {ty pair : Nat} {body : List Byte} : (s.emit ty pair body).sdio.replies = s.sdio.replies := by
  have h0 : (s.produce ty pair body).1.sdio.replies = s.sdio.replies := congrArg Sdio.replies State.produce_sdio
  unfold State.emit
  split
  next x l e =>
    rw [e] at h0
    extract_lets x1
    have h1 : x1.sdio.replies = s.sdio.replies := by
      subst x1
      split
      · exact State.raiseQuiet_replies.trans h0
      · exact h0
    clear_value x1
    split
    · exact State.raiseQuiet_replies.trans h1
    · exact h1

/-- Raising an event queues no reply. -/
theorem State.raise_replies {a b c : Nat} : (s.raise a b c).sdio.replies = s.sdio.replies := by
  unfold State.raise
  extract_lets x1 x2 x3
  have h1 : x1.sdio.replies = s.sdio.replies := congrArg Sdio.replies State.regSet_sdio
  have h2 : x2.sdio.replies = s.sdio.replies := State.log_replies.trans h1
  have h3 : x3.sdio.replies = s.sdio.replies := by
    subst x3
    split
    · rw [State.updSdio_sdio, h2]
    · exact h2
  clear_value x1 x2 x3
  split
  · exact State.emit_replies.trans h3
  · exact h1

theorem State.reverseCheck_replies : s.reverseCheck.sdio.replies = s.sdio.replies := by
  unfold State.reverseCheck
  extract_lets c x1
  have h1 : x1.sdio.replies = s.sdio.replies := congrArg Sdio.replies State.updCourse_sdio
  split
  · exact State.log_replies.trans (State.raise_replies.trans h1)
  · rfl

theorem State.spMoved_replies {z : Int} : (s.spMoved z).sdio.replies = s.sdio.replies := by
  unfold State.spMoved
  extract_lets c x1 x2
  have h1 : x1.sdio.replies = s.sdio.replies := congrArg Sdio.replies State.updCourse_sdio
  have h2 : x2.sdio.replies = x1.sdio.replies := congrArg Sdio.replies State.updCourse_sdio
  clear_value x1 x2
  split
  · split
    · exact State.raise_replies.trans (h2.trans h1)
    · exact h2.trans h1
  · exact State.reverseCheck_replies.trans h1

/-- Time that passes queues no reply. -/
theorem State.to_replies {t : Nat} : (s.to t).sdio.replies = s.sdio.replies := by
  unfold State.to
  split
  · rfl
  · extract_lets x
    split
    · exact State.spMoved_replies
    · rfl

/-- A packet that is taken has queued no reply yet. -/
theorem State.atHost_replies {h : Hdr} : (s.atHost h).sdio.replies = s.sdio.replies :=
  State.to_replies (s := s) (t := h.t)

/-! ### The reply of a command that nothing refuses -/

/-- No DEVICE_RESET is due when a packet is taken (R510). -/
theorem Carried.resetAt {h : Hdr} {c : HostCmd} (k : Carried s h c) : (s.atHost h).mgmt.resetAt = none := by
  have hf := k.free
  simp only [State.mayTake, Bool.and_eq_true, Option.isNone_iff_eq_none] at hf
  obtain ⟨⟨⟨_, hr⟩, _⟩, _⟩ := hf
  exact hr

/-- A status outside the Malformed class is the only reply to the command, where nothing has queued another or a reset. -/
theorem replied_of_answer {w : State} {h : Hdr} {c : HostCmd} {status : Nat} {bytes : List Byte}
    (k : Carried s h c) (hq : w.sdio.replies = (s.atHost h).sdio.replies)
    (hm : w.mgmt.resetAt = (s.atHost h).mgmt.resetAt) (hs : status / 256 ≠ 1) :
    Replied s (w.answer (packetOf h.tag h.client c) status bytes) h c status bytes := by
  unfold Replied
  rw [State.answer_eq hs, State.reply_replies (hm.trans k.resetAt), hq, State.atHost_replies]
  rfl

/-- A status outside the Malformed class changes only the reply buffer. -/
theorem State.answer_in {p : Packet} {n : Nat} {l : List Byte} (hs : n / 256 ≠ 1) : OnlyIn [.sdio] s (s.answer p n l) := by
  rw [State.answer_eq hs]
  exact State.reply_in

/-- A status outside the Malformed class changes no register. -/
theorem State.answer_regGet {p : Packet} {n a : Nat} {l : List Byte} (hs : n / 256 ≠ 1) : (s.answer p n l).regGet a = s.regGet a := by
  have hp : (s.answer p n l).part = s.part := (State.answer_in hs).eq .part
  have hr : (s.answer p n l).regs = s.regs := (State.answer_in hs).eq .regs
  unfold State.regGet
  rw [hp, hr]

/-- A reply leaves the logs as they are. -/
theorem State.reply_violLog {p : Packet} {n : Nat} {l : List Byte} : (s.reply p n l).sdio.violLog = s.sdio.violLog := by
  unfold State.reply
  split <;> rfl

theorem State.reply_evLog {p : Packet} {n : Nat} {l : List Byte} : (s.reply p n l).sdio.evLog = s.sdio.evLog := by
  unfold State.reply
  split <;> rfl

end Sys2Proof.Machine
end

section
/-!
Register access (R14, R15, R35, R509): what REG_WRITE and REG_MODIFY answer, what refuses a write of a register, and that a stored
register of MGMT takes the value its row allows while the write starts nothing.
-/
namespace Sys2Proof.Machine

variable {s : State}

/-! ### Refusals of a write -/

theorem State.regWrite_badAddr {a : Nat} {v : Word} (ha : addrOk a = false) : s.regWrite a v = (s, 0x0202) := by
  simp only [State.regWrite, ha, Bool.not_false, if_true]

/-- A write of a register that the part has and the present mode lets through is judged by its row (R34, R35, R581). -/
theorem State.regWrite_row {a : Nat} {v : Word} {r : RegRow} (ha : addrOk a = true) (hr : rowOf a = some r)
    (ht : a / 65536 = 15 → s.test.mode = true ∨ testFree a = true) (hp : absentReg s.part a = false) :
    s.regWrite a v = s.writeRow (canonAddr a) r (partVal s.part a v) := by
  have hopen : ¬ (a / 65536 = 15 ∧ (!s.test.mode) = true ∧ (!testFree a) = true) := by
    rintro ⟨h15, hm, hf⟩
    rcases ht h15 with h | h
    · simp [h] at hm
    · simp [h] at hf
  simp only [State.regWrite, ha, hr, hp, Bool.not_true, Bool.false_eq_true, if_false, if_neg hopen]

/-- A locked field that would change refuses the write while a plan runs (R14). -/
theorem State.writeRow_locked {a : Nat} {r : RegRow} {v : Word} (hw : r.wo = false) (hb : s.planRuns = true)
    (hl : writeLocks r (s.regGet a) v = true) : s.writeRow a r v = (s, 0x0201) := by
  simp only [State.writeRow, hw, hb, hl, Bool.and_self, Bool.false_eq_true, if_false, if_true]

/-! ### REG_WRITE -/

/-- A pair that a safety restart closes is refused (R503). -/
theorem State.regWrites_closed {a v : Word} {l : List (Word × Word)} (hc : (s.restarting && restartBlock a.toNat) = true) :
    s.regWrites ((a, v) :: l) = (s, 0, 0x0603) := by
  simp [State.regWrites, hc]

/-- The first pair refused stops the list. -/
theorem State.regWrites_refused {a v : Word} {l : List (Word × Word)} {w : State} {st : Nat}
    (hc : (s.restarting && restartBlock a.toNat) = false) (hs : st ≠ 0) (e : s.regWrite a.toNat v = (w, st)) :
    s.regWrites ((a, v) :: l) = (w, 0, st) := by
  simp [State.regWrites, hc, e, hs]

/-- A pair that is applied counts, and the rest goes on from the state it leaves. -/
theorem State.regWrites_applied {a v : Word} {l : List (Word × Word)} {w x : State} {n st : Nat}
    (hc : (s.restarting && restartBlock a.toNat) = false) (e : s.regWrite a.toNat v = (w, 0)) (k : w.regWrites l = (x, n, st)) :
    s.regWrites ((a, v) :: l) = (x, n + 1, st) := by
  simp [State.regWrites, hc, e, k]

/-- REG_WRITE answers how many pairs it has applied. -/
theorem exec_regWrite {h : Hdr} {l : List (Word × Word)} {w : State} {n st : Nat} (k : Carried s h (.regWrite l))
    (hl : ∀ p ∈ l, (s.atHost h).addrLacks p.1.toNat = false) (e : (s.atHost h).regWrites l = (w, n, st)) :
    exec (.regWrite h l) s = .next (w.answer (packetOf h.tag h.client (.regWrite l)) st (leBytes 4 n)) := by
  have hon : (hostAddrs (packetOf h.tag h.client (.regWrite l)).cmd).any (s.atHost h).addrLacks = false := by
    simpa [hostAddrs, packetOf] using fun a b hp => hl (a, b) hp
  rw [exec_carried rfl k, hostRun_regWrite]
  simp only [State.hostRegWrite, hon, e, Bool.false_eq_true, if_false]

/-! ### REG_MODIFY -/

theorem State.regModify_badAddr {a m v : Word} (ha : addrOk a.toNat = false) : s.regModify a m v = (s, 0x0202, none) := by
  simp only [State.regModify, ha, Bool.not_false, if_true]

/-- A mask of no bit changes nothing (R509). -/
theorem State.regModify_noMask {a v : Word} (ha : addrOk a.toNat = true) : s.regModify a 0#32 v = (s, 1, none) := by
  simp only [State.regModify, ha, Bool.not_true, Bool.false_eq_true, if_false, if_true]

/-- REG_MODIFY answers the status of its write, and what the register reads after. -/
theorem exec_regModify {h : Hdr} {a m v : Word} {w : State} {st : Nat} {r : Option Word} (k : Carried s h (.regModify a m v))
    (hon : (s.atHost h).addrLacks a.toNat = false) (hc : ((s.atHost h).restarting && restartBlock a.toNat) = false)
    (e : (s.atHost h).regModify a m v = (w, st, r)) :
    exec (.regModify h a m v) s = .next (w.answer (packetOf h.tag h.client (.regModify a m v)) st
      (r.elim [] fun x => leBytes 4 x.toNat)) := by
  rw [exec_carried rfl k, hostRun_regModify]
  cases r <;> simp only [State.hostRegModify, hon, hc, e, Bool.false_eq_true, if_false, Option.elim_none, Option.elim_some]

/-! ### The registers of MGMT (block 0) -/

/-- The management core's registers are in PD00, which every power state keeps on (R504). -/
theorem State.addrLacks_mgmt {a : Nat} (hb : a / 65536 = 0) : s.addrLacks a = false := by
  have hn : blockNeeds a = .always := by simp only [blockNeeds, hb]
  have hl : s.lacks .always = false := by
    unfold State.lacks
    split <;> rfl
  simp only [State.addrLacks, hn, hl, Bool.and_false]

theorem restartBlock_mgmt {a : Nat} (hb : a / 65536 = 0) : restartBlock a = false := by
  have h : [3, 8, 9, 10].contains (a / 65536) = false := by
    rw [hb]
    decide
  simp only [restartBlock, h, Bool.and_false]

theorem absentReg_mgmt {p : Part} {a : Nat} (hb : a / 65536 = 0) : absentReg p a = false := by
  cases p with
  | vyu4140 => rfl
  | vyu2140 => simp [absentReg, hb, windowed]

theorem canonAddr_mgmt {a : Nat} (hb : a / 65536 = 0) : canonAddr a = a := by
  simp [canonAddr, hb]

theorem snapPartners_mgmt {a : Nat} (hb : a / 65536 = 0) : snapPartners a = [] := by
  simp only [snapPartners, hb]

/-- No register of MGMT belongs to a snapshot (R599). -/
theorem State.dropSnaps_mgmt {a : Nat} (hb : a / 65536 = 0) : s.dropSnaps a = s := by
  have hg : snapGroup a = [] := by
    have h4 : (a - 4) / 65536 = 0 := by omega
    have h8 : (a - 8) / 65536 = 0 := by omega
    have h12 : (a - 12) / 65536 = 0 := by omega
    simp [snapGroup, canonAddr_mgmt hb, snapPartners_mgmt hb, snapPartners_mgmt h4, snapPartners_mgmt h8, snapPartners_mgmt h12]
  simp [State.dropSnaps, hg]

/-- A write of a stored register of MGMT starts nothing. -/
theorem State.store_mgmt {a : Nat} {old new : Word} (hb : a / 65536 = 0) : s.store a old new = s.regSet a new := by
  simp [State.store, State.dropSnaps_mgmt hb, State.written, State.raiseCfg, State.cfgErrs, hb]

/-- A stored register of MGMT without locked fields takes the value its row allows. -/
theorem State.writeRow_mgmt {a : Nat} {r : RegRow} {v : Word} (hb : a / 65536 = 0) (hw : r.wo = false) (hl : r.rwl = 0) :
    s.writeRow a r v = (s.regSet a (writeVal r (s.regGet a) v), 0) := by
  have ha : a < 65536 := by omega
  have hlock : writeLocks r (s.regGet a) v = false := by simp [writeLocks, hl]
  have hsafe : safetyMask a = 0#32 := by
    rw [safetyMask, if_neg (by omega), if_neg (by omega)]
  have hinj : injIdx a = none := by
    rw [injIdx, List.findIdx?_eq_none_iff]
    intro x hx
    simp only [List.mem_cons, List.not_mem_nil, or_false] at hx
    exact beq_false_of_ne (by omega)
  have htier : arrIdx a 0x60040 0x10 4 = none := by
    rw [arrIdx, if_neg (by omega)]
  have hprog : ¬ (a = 0x10800 ∨ a = 0x10804) := by omega
  simp [State.writeRow, hw, hlock, State.safetyLocks, hsafe, hinj, hprog, htier, State.store_mgmt hb]

theorem partVal_mgmt {p : Part} {a : Nat} {v : Word} (hb : a / 65536 = 0) : partVal p a v = v := by
  have h0 : a ≠ 0x10200 := by omega
  have h1 : a ≠ 0x10220 := by omega
  have h2 : a ≠ 0x10240 := by omega
  have h3 : a ≠ 0x10260 := by omega
  simp [partVal, h0, h1, h2, h3]

theorem State.regWrite_mgmt {a : Nat} {r : RegRow} {v : Word} (hb : a / 65536 = 0) (ha : addrOk a = true) (hr : rowOf a = some r)
    (hw : r.wo = false) (hl : r.rwl = 0) : s.regWrite a v = (s.regSet a (writeVal r (s.regGet a) v), 0) := by
  rw [State.regWrite_row ha hr (by omega) (absentReg_mgmt hb), canonAddr_mgmt hb, partVal_mgmt hb, State.writeRow_mgmt hb hw hl]

/-- A register of MGMT that shows no present state reads as it is stored. -/
theorem State.liveReg_mgmt {a : Nat} {r : RegRow} (hb : a / 65536 = 0) (hr : rowOf a = some r) (hw : r.wo = false)
    (hv : s.mgmtView (tableOff a) = none) : s.liveReg a = s.regGet a := by
  have hlive : s.liveView a = none := by simp only [State.liveView, hb, hv, Option.map_none]
  have hor : s.orView a = 0#32 := by simp only [State.orView, hb]
  simp [State.liveReg, absentReg_mgmt hb, hr, hw, canonAddr_mgmt hb, hlive, hor]

/-- REG_WRITE of one stored register of MGMT. -/
theorem exec_regWrite_mgmt {h : Hdr} {a v : Word} {r : RegRow} (hb : a.toNat / 65536 = 0) (ha : addrOk a.toNat = true)
    (hr : rowOf a.toNat = some r) (hw : r.wo = false) (hl : r.rwl = 0) (k : Carried s h (.regWrite [(a, v)])) :
    ∃ w, exec (.regWrite h [(a, v)]) s = .next w ∧
      w.regGet a.toNat = writeVal r ((s.atHost h).regGet a.toNat) v ∧ Replied s w h (.regWrite [(a, v)]) 0 (leBytes 4 1) := by
  have hc : ((s.atHost h).restarting && restartBlock a.toNat) = false := by rw [restartBlock_mgmt hb, Bool.and_false]
  have hl1 : ∀ p ∈ [(a, v)], (s.atHost h).addrLacks p.1.toNat = false := List.forall_mem_singleton.2 (State.addrLacks_mgmt hb)
  have e := State.regWrites_applied (l := []) hc (State.regWrite_mgmt (v := v) hb ha hr hw hl) rfl
  refine ⟨_, exec_regWrite k hl1 e, ?_, replied_of_answer k rfl rfl (by decide)⟩
  rw [State.answer_regGet (by decide), State.regSet_regGet_self]

/-- What REG_MODIFY writes to a stored register: bits outside the mask as they read, W1C bits outside it as 0. -/
def modified (r : RegRow) (old m v : Word) : Word := (old &&& ~~~(BitVec.ofNat 32 r.w1c) &&& ~~~m) ||| (v &&& m)

theorem State.regModify_mgmt {a m v : Word} {r : RegRow} (hb : a.toNat / 65536 = 0) (ha : addrOk a.toNat = true)
    (hr : rowOf a.toNat = some r) (hw : r.wo = false) (hl : r.rwl = 0) (hv : ∀ z : State, z.mgmtView (tableOff a.toNat) = none)
    (hm : m ≠ 0#32) :
    let new := writeVal r (s.regGet a.toNat) (modified r (s.regGet a.toNat) m v)
    s.regModify a m v = (s.regSet a.toNat new, 0, some new) := by
  have hlive : ∀ z : State, z.liveReg a.toNat = z.regGet a.toNat := fun z => State.liveReg_mgmt hb hr hw (hv z)
  simp [State.regModify, ha, hm, hr, hw, hlive, State.regWrite_mgmt hb ha hr hw hl, modified]

/-- REG_MODIFY of a stored register of MGMT. -/
theorem exec_regModify_mgmt {h : Hdr} {a m v : Word} {r : RegRow} (hb : a.toNat / 65536 = 0) (ha : addrOk a.toNat = true)
    (hr : rowOf a.toNat = some r) (hw : r.wo = false) (hl : r.rwl = 0) (hv : ∀ z : State, z.mgmtView (tableOff a.toNat) = none)
    (k : Carried s h (.regModify a m v)) (hm : m ≠ 0#32) :
    ∃ w, exec (.regModify h a m v) s = .next w ∧
      w.regGet a.toNat = writeVal r ((s.atHost h).regGet a.toNat) (modified r ((s.atHost h).regGet a.toNat) m v) ∧
      Replied s w h (.regModify a m v) 0 (leBytes 4 (w.regGet a.toNat).toNat) := by
  have hc : ((s.atHost h).restarting && restartBlock a.toNat) = false := by rw [restartBlock_mgmt hb, Bool.and_false]
  have e := exec_regModify k (State.addrLacks_mgmt hb) hc (State.regModify_mgmt hb ha hr hw hl hv hm)
  refine ⟨_, e, ?_⟩
  rw [State.answer_regGet (by decide), State.regSet_regGet_self]
  exact ⟨rfl, replied_of_answer k rfl rfl (by decide)⟩

/-! ### The values a write leaves -/

theorem and_not_zero (w : Word) : w &&& ~~~0#32 = w := by
  rw [BitVec.not_zero, BitVec.and_allOnes]

/-- RW bits take the value, the others stay. -/
theorem writeVal_rw {r : RegRow} {old v : Word} (hl : r.rwl = 0) (hc : r.w1c = 0) :
    writeVal r old v = (old &&& ~~~(BitVec.ofNat 32 r.rw)) ||| (v &&& BitVec.ofNat 32 r.rw) := by
  simp only [writeVal, hl, hc, Nat.or_zero, BitVec.zero_and, and_not_zero]

/-- W1C bits are cleared where 1 is written, the others stay. -/
theorem writeVal_w1c {r : RegRow} {old v : Word} (hl : r.rwl = 0) (hw : r.rw = 0) :
    writeVal r old v = old &&& ~~~(v &&& BitVec.ofNat 32 r.w1c) := by
  have h0 : v &&& 0#32 = 0#32 := BitVec.and_zero
  simp only [writeVal, hl, hw, Nat.or_zero, h0, BitVec.or_zero, and_not_zero, BitVec.and_comm v (BitVec.ofNat 32 r.w1c)]

/-- A W1C bit is cleared where the mask and the value both name it: outside the mask 0 is written. -/
theorem writeVal_modified_w1c {r : RegRow} {old m v : Word} (hl : r.rwl = 0) (hw : r.rw = 0) :
    writeVal r old (modified r old m v) = old &&& ~~~(m &&& v &&& BitVec.ofNat 32 r.w1c) := by
  rw [writeVal_w1c hl hw, modified]
  generalize BitVec.ofNat 32 r.w1c = c
  have bit : ∀ o m v c : Bool, (o && !((o && !c && !m || v && m) && c)) = (o && !(m && v && c)) := by decide
  ext i hi
  simp only [BitVec.getElem_and, BitVec.getElem_or, BitVec.getElem_not, bit]

/-- An RW bit takes the value under the mask and stays outside it. -/
theorem writeVal_modified_rw {r : RegRow} {old m v : Word} (hl : r.rwl = 0) (hc : r.w1c = 0) :
    writeVal r old (modified r old m v) =
      ((old &&& ~~~m) ||| (m &&& v)) &&& BitVec.ofNat 32 r.rw ||| (old &&& ~~~(BitVec.ofNat 32 r.rw)) := by
  rw [writeVal_rw hl hc, modified, hc, and_not_zero, BitVec.and_comm m, BitVec.or_comm]

end Sys2Proof.Machine
end

section
/-!
The command registers MGMT_CMD and SEC_CMD (R523, R526).
-/
namespace Sys2Proof.Machine

variable {s : State}

/-- A list of registers set to 0: each of them reads 0 and every other is as it was. -/
theorem State.clear_regGet {α : Type} {l : List α} {f : α → Nat} {x : Nat} :
    (s.each l (fun s c => s.regSet (f c) 0#32)).regGet x = if x ∈ l.map f then 0#32 else s.regGet x := by
  unfold State.each
  induction l generalizing s with
  | nil => rfl
  | cons c l ih =>
    rw [List.foldl_cons, ih, State.regSet_regGet, List.map_cons]
    by_cases hl : x ∈ l.map f
    · rw [if_pos hl, if_pos (List.mem_cons_of_mem _ hl)]
    · simp only [List.mem_cons, hl, or_false, if_false]

theorem State.clear_in {α : Type} {l : List α} {f : α → Nat} : OnlyIn [.regs] s (s.each l (fun s c => s.regSet (f c) 0#32)) :=
  State.each_only (OnlyIn.refl _ _) fun _ _ h => h.trans only_regs

/-- CLEAR_COUNTERS of MGMT_CMD, on the registers: MGMT_CMD_CNT, MGMT_REFUSED_CNT and the counts of the 16 clients. -/
def State.mgmtCleared (s : State) : State :=
  ((s.regSet 0x34 0#32).regSet 0x3C 0#32).each (List.range 16) (fun s c => s.regSet (0x40 + 4 * c) 0#32)

theorem State.mgmtCmd_counters : s.mgmtCmd 1#32 = s.mgmtCleared.updSdio (fun x => { x with violFrom := s.now }) := rfl

theorem State.mgmtCleared_regGet {x : Nat} : s.mgmtCleared.regGet x =
    if x = 0x34 ∨ x = 0x3C ∨ x ∈ (List.range 16).map (fun c => 0x40 + 4 * c) then 0#32 else s.regGet x := by
  rw [State.mgmtCleared, State.clear_regGet, State.regSet_regGet, State.regSet_regGet]
  by_cases hc : x ∈ (List.range 16).map (fun c => 0x40 + 4 * c)
  · simp only [hc, or_true, if_true]
  · simp only [hc, or_false, if_false]
    by_cases h3C : x = 0x3C <;> simp only [h3C, or_true, or_false, if_true, if_false]

theorem State.mgmtCleared_in : OnlyIn [.regs] s s.mgmtCleared :=
  (only_regs.trans only_regs).trans State.clear_in

/-- CLEAR_LOGS of MGMT_CMD empties both logs and touches nothing else. -/
theorem State.mgmtCmd_logs : s.mgmtCmd 2#32 = s.updSdio (fun x => { x with violLog := [], evLog := [] }) := rfl

/-- A write of MGMT_CMD that nothing refuses does its command and is answered OK. -/
theorem regCmd_mgmtCmd {h : Hdr} {v : Nat} (k : Written s h 0x1C v) : s.regCmd h 0x1C v =
    .next (((s.atHost h).mgmtCmd (wordOf v)).reply (packetOf h.tag h.client (.regWrite [(wordOf 0x1C, wordOf v)])) 0 (leBytes 4 1)) :=
  State.regCmd_cmd k rfl rfl rfl rfl (partVal_mgmt rfl) rfl

/-- A write of SEC_CMD that nothing refuses answers what its command does. -/
theorem regWrite_secCmd {h : Hdr} {v : Nat} (k : Written s h 0x100004 v) :
    (s.atHost h).regWrite 0x100004 (wordOf v) = (s.atHost h).secCmd (wordOf v) := by
  have hp : absentReg (s.atHost h).part 0x100004 = false := by
    rw [State.atHost_part]
    exact k.there
  have hv : partVal (s.atHost h).part 0x100004 (wordOf v) = wordOf v := by simp [partVal]
  rw [State.regWrite_row rfl rfl (fun e => absurd e (by decide)) hp, hv]
  rfl

/-- CLEAR_COUNTERS of MGMT_CMD: the counters read 0, MGMT_RATE and the violation log are as they were (R523). -/
theorem exec_mgmtClearCounters {h : Hdr} (k : Written s h 0x1C 1) :
    ∃ v, exec (.mgmtClearCounters h) s = .next v ∧ v.regGet 0x34 = 0#32 ∧ v.regGet 0x3C = 0#32 ∧
      (∀ c, c < 16 → v.regGet (0x40 + 4 * c) = 0#32) ∧ v.regGet 0x28 = (s.atHost h).regGet 0x28 ∧
      v.sdio.violLog = (s.atHost h).sdio.violLog := by
  have hc : (s.atHost h).mgmtCmd (wordOf 1) = (s.atHost h).mgmtCleared.updSdio (fun x => { x with violFrom := (s.atHost h).now }) :=
    State.mgmtCmd_counters
  have e := regCmd_mgmtCmd k
  rw [hc, ← State.answer_ok] at e
  refine ⟨_, e, ?_, ?_, fun c hc => ?_, ?_, ?_⟩
  · rw [State.answer_regGet (by decide), State.updSdio_regGet, State.mgmtCleared_regGet, if_pos (by decide)]
  · rw [State.answer_regGet (by decide), State.updSdio_regGet, State.mgmtCleared_regGet, if_pos (by decide)]
  · rw [State.answer_regGet (by decide), State.updSdio_regGet, State.mgmtCleared_regGet,
      if_pos (Or.inr (Or.inr (List.mem_map_of_mem (List.mem_range.2 hc))))]
  · rw [State.answer_regGet (by decide), State.updSdio_regGet, State.mgmtCleared_regGet, if_neg (by decide)]
  · rw [State.answer_ok, State.reply_violLog, State.updSdio_sdio, State.mgmtCleared_in.eq .sdio]

/-- CLEAR_LOGS of MGMT_CMD empties both logs (R523). -/
theorem exec_clearLogs {h : Hdr} (k : Written s h 0x1C 2) :
    ∃ v, exec (.clearLogs h) s = .next v ∧ v.sdio.violLog = [] ∧ v.sdio.evLog = [] ∧ OnlyIn [.sdio] (s.atHost h) v := by
  have hc : (s.atHost h).mgmtCmd (wordOf 2) = (s.atHost h).updSdio (fun x => { x with violLog := [], evLog := [] }) :=
    State.mgmtCmd_logs
  refine ⟨_, regCmd_mgmtCmd k, ?_, ?_, ?_⟩
  · rw [State.reply_violLog, hc, State.updSdio_sdio]
  · rw [State.reply_evLog, hc, State.updSdio_sdio]
  · rw [hc]
    exact OnlyIn.trans only_sdio State.reply_in

/-- REQUIRE_OWNER_SIG of SEC_CMD sets the requirement while no plan runs (R526). -/
theorem exec_requireOwnerSig_sets {h : Hdr} (k : Written s h 0x100004 1) (hp : (s.atHost h).planRuns = false) :
    ∃ v, exec (.requireOwnerSig h) s = .next v ∧ v.mgmt.ownerSig = true ∧ OnlyIn [.mgmt, .sdio] (s.atHost h) v ∧
      Replied s v h (.regWrite [(wordOf 0x100004, wordOf 1)]) 0 (leBytes 4 1) := by
  have e : (s.atHost h).regWrite 0x100004 (wordOf 1) = ((s.atHost h).updMgmt (fun m => { m with ownerSig := true }), 0) := by
    rw [regWrite_secCmd k]
    simp [State.secCmd, wordOf, hp]
  refine ⟨_, State.regCmd_write k (by decide) e, ?_, ?_, replied_of_answer k.carried rfl rfl (by decide)⟩
  · rw [State.answer_ok, State.reply_mgmt]
    rfl
  · exact OnlyIn.trans (only_mgmt.mono (by decide)) ((State.answer_in (by decide)).mono (by decide))

/-- REQUIRE_OWNER_SIG is refused while a plan runs (R526). -/
theorem exec_requireOwnerSig_locked {h : Hdr} (k : Written s h 0x100004 1) (hp : (s.atHost h).planRuns = true) :
    ∃ v, exec (.requireOwnerSig h) s = .next v ∧ v.mgmt = (s.atHost h).mgmt ∧
      Replied s v h (.regWrite [(wordOf 0x100004, wordOf 1)]) 0x0201 (leBytes 4 0) := by
  have e : (s.atHost h).regWrite 0x100004 (wordOf 1) = (s.atHost h, 0x0201) := by
    rw [regWrite_secCmd k]
    simp [State.secCmd, wordOf, hp]
  exact ⟨_, State.regCmd_write k (by decide) e, (State.answer_in (by decide)).eq .mgmt, replied_of_answer k.carried rfl rfl (by decide)⟩

end Sys2Proof.Machine
end

section
/-!
REG_WRITE and REG_MODIFY (R14, R15, R509) on MGMT_EVENT at 0x14, a register of W1C bits, and on its enables at 0x18, RW bits.
-/
namespace Sys2Proof.Machine

variable {s : State}

/-- REG_WRITE puts the value into the RW bits of the enables. -/
theorem exec_regWrite_enables {h : Hdr} {v : Word} (k : Carried s h (.regWrite [(0x18#32, v)])) :
    ∃ w, exec (.regWrite h [(0x18#32, v)]) s = .next w ∧
      w.regGet 0x18 = (((s.atHost h).regGet 0x18 &&& 0xFFFFFFE0#32) ||| (v &&& 0x1F#32)) ∧
      Replied s w h (.regWrite [(0x18#32, v)]) 0 (leBytes 4 1) := by
  obtain ⟨w, e, hv, hr⟩ := exec_regWrite_mgmt (r := rowRw 0x18 1 4 0x1F) rfl rfl rfl rfl rfl k
  exact ⟨w, e, hv.trans (writeVal_rw rfl rfl), hr⟩

/-- REG_WRITE clears the event bits that the value names. -/
theorem exec_regWrite_event {h : Hdr} {v : Word} (k : Carried s h (.regWrite [(0x14#32, v)])) :
    ∃ w, exec (.regWrite h [(0x14#32, v)]) s = .next w ∧
      w.regGet 0x14 = (s.atHost h).regGet 0x14 &&& ~~~(v &&& 0x1F#32) ∧
      Replied s w h (.regWrite [(0x14#32, v)]) 0 (leBytes 4 1) := by
  obtain ⟨w, e, hv, hr⟩ := exec_regWrite_mgmt (r := rowW1c 0x14 1 4 0x1F) rfl rfl rfl rfl rfl k
  exact ⟨w, e, hv.trans (writeVal_w1c rfl rfl), hr⟩

/-- REG_MODIFY clears the event bits that mask and value both name. -/
theorem exec_regModify_event {h : Hdr} {m v : Word} (k : Carried s h (.regModify 0x14#32 m v)) (hm : m ≠ 0#32) :
    ∃ w, exec (.regModify h 0x14#32 m v) s = .next w ∧
      w.regGet 0x14 = (s.atHost h).regGet 0x14 &&& ~~~(m &&& v &&& 0x1F#32) ∧
      Replied s w h (.regModify 0x14#32 m v) 0 (leBytes 4 (w.regGet 0x14).toNat) := by
  obtain ⟨w, e, hv, hr⟩ := exec_regModify_mgmt (r := rowW1c 0x14 1 4 0x1F) rfl rfl rfl rfl rfl (fun _ => rfl) k hm
  exact ⟨w, e, hv.trans (writeVal_modified_w1c rfl rfl), hr⟩

/-- REG_MODIFY puts the value into the enables under the mask. -/
theorem exec_regModify_enables {h : Hdr} {m v : Word} (k : Carried s h (.regModify 0x18#32 m v)) (hm : m ≠ 0#32) :
    ∃ w, exec (.regModify h 0x18#32 m v) s = .next w ∧
      w.regGet 0x18 = (((s.atHost h).regGet 0x18 &&& ~~~m) ||| (m &&& v)) &&& 0x1F#32 ||| ((s.atHost h).regGet 0x18 &&& 0xFFFFFFE0#32) ∧
      Replied s w h (.regModify 0x18#32 m v) 0 (leBytes 4 (w.regGet 0x18).toNat) := by
  obtain ⟨w, e, hv, hr⟩ := exec_regModify_mgmt (r := rowRw 0x18 1 4 0x1F) rfl rfl rfl rfl rfl (fun _ => rfl) k hm
  exact ⟨w, e, hv.trans (writeVal_modified_rw rfl rfl), hr⟩

/-- A REG_MODIFY of an address that holds no register is refused, and nothing but the reply is left of it. -/
theorem exec_regModify_badAddr {h : Hdr} {a m v : Word} (k : Carried s h (.regModify a m v)) (ha : addrOk a.toNat = false) :
    ∃ w, exec (.regModify h a m v) s = .next w ∧ Replied s w h (.regModify a m v) 0x0202 [] ∧ OnlyIn [.sdio] (s.atHost h) w := by
  have hon : (s.atHost h).addrLacks a.toNat = false := by simp [State.addrLacks, ha]
  have hc : ((s.atHost h).restarting && restartBlock a.toNat) = false := by simp [restartBlock, ha]
  exact ⟨_, exec_regModify k hon hc (State.regModify_badAddr ha), replied_of_answer k rfl rfl (by decide), State.answer_in (by decide)⟩

/-- A REG_MODIFY under a mask of no bit answers OK_EMPTY, and nothing but the reply is left of it. -/
theorem exec_regModify_noMask {h : Hdr} {a v : Word} (k : Carried s h (.regModify a 0#32 v)) (ha : addrOk a.toNat = true)
    (hon : (s.atHost h).addrLacks a.toNat = false) (hc : ((s.atHost h).restarting && restartBlock a.toNat) = false) :
    ∃ w, exec (.regModify h a 0#32 v) s = .next w ∧ Replied s w h (.regModify a 0#32 v) 1 [] ∧ OnlyIn [.sdio] (s.atHost h) w :=
  ⟨_, exec_regModify k hon hc (State.regModify_noMask ha), replied_of_answer k rfl rfl (by decide), State.answer_in (by decide)⟩

/-- Settles O54: each clause is the law of one form of register access above. -/
theorem registersAreWrittenAndModified : Obligations.RegistersAreWrittenAndModified := by
  intro h s y
  refine ⟨fun l k hl w n st e => exec_regWrite k hl e, fun a v l => ⟨?closed, ?refused, ?applied⟩,
    fun a v ha => State.regWrite_badAddr ha, ?locked, fun v k => exec_regWrite_enables k, fun v k => exec_regWrite_event k,
    fun m v k hm => exec_regModify_event k hm, fun m v k hm => exec_regModify_enables k hm, fun a m v k => ⟨?badAddr, ?noMask⟩,
    exec_mgmtClearCounters, exec_clearLogs, fun k => ⟨exec_requireOwnerSig_sets k, exec_requireOwnerSig_locked k⟩⟩
  case closed => exact fun hc => State.regWrites_closed hc
  case refused => exact fun hc w st hs e => State.regWrites_refused hc hs e
  case applied => exact fun hc w x n st e k => State.regWrites_applied hc e k
  case locked =>
    intro a v r hr ha hw hp ht hb hl
    rw [State.regWrite_row ha hr ht hp, State.writeRow_locked hw hb hl]
  case badAddr => exact exec_regModify_badAddr k
  case noMask =>
    rintro ha hon hc rfl
    exact exec_regModify_noMask k ha hon hc

end Sys2Proof.Machine
end

section
/-!
The invariant of the model along a step (R34, R35, R543): registers and stores in canonical form, and every table of numbered
units whole.
-/
namespace Sys2Proof.Machine

/-- The queue of waiting commands is no part of the tables' sizes. -/
theorem State.Sized.withPending {s : State} (h : s.Sized) (l : List Instr) : State.Sized { s with pending := l } :=
  ⟨h.course, h.tn, h.acq, h.die, h.stream, h.kv, h.mt, h.line, h.plumb, h.test⟩

/-- What a step comes to has kept what the state without its front command has. -/
theorem step_keeps {s v : State} (e : step s = .next v) : Keeps { s with pending := s.pending.tail } v := by
  unfold step at e
  split at e
  next hq =>
    obtain rfl : idleTick s = v := Host.Outcome.next.inj e
    have hs : { s with pending := s.pending.tail } = s := by
      rw [hq, List.tail_nil, ← hq]
    rw [hs]
    exact idleTick_keeps (Keeps.refl s)
  next c rest hq =>
    obtain ⟨w, hw, kept⟩ := exec_keeps c { s with pending := rest }
    obtain rfl : w = v := Host.Outcome.next.inj (hw.symm.trans e)
    rw [hq]
    exact kept

/-- Settles O3: an idle tick and every command keep the three parts of the invariant. -/
theorem stepKeepsTheInvariant : Obligations.StepKeepsTheInvariant := by
  intro s v hregs hmem hsized e
  have kept := step_keeps e
  exact ⟨kept.regs hregs, kept.mem hmem, kept.sized (hsized.withPending _)⟩

end Sys2Proof.Machine
end

section
/-!
SPARE_IN_DONE (R139) where the plan names a resident region that begins past the end of its Lintel store: `State.admission` bounds a
region's length, not where it begins, and the source of this one lies in a core store. Loading it meets an uncorrectable word of the
very core that is mapped in, which fails (R125, R138), and the slot waits for a spare again.
-/
namespace Sys2Proof.Machine

/-- SPARE_IN_DONE binds the slot to its spare and loads the slot's resident regions into it. -/
theorem exec_spareInDone {s : State} {t d i p : Nat} (h : ((s.to t).slotAt d i).spareIn = some p) :
    exec (.spareInDone t d i) s = .next ((((s.to t).updSlot d i (fun x => { x with core := p, spareIn := none })).loadResident d i
      (s.to t).bond.variant).1) := by
  show execSpareInDone t d i s = _
  simp only [execSpareInDone, h]
  rfl

/-- The first byte of the core store of core 51 of die 3. -/
def farKey : Nat := memKey (spCore 3 51) 0

/-- A region of slot 47 of die 3 whose source, as an offset of die 3's Lintel store, is that byte. -/
def farRegion : Resident :=
  { die := 3, slot := 47, variant := 0, src := farKey - memKey (spLintel 3) 0, dst := 0, len := 8 }

/-- A plan of that region alone. -/
def farPlan : Plan :=
  { freq := 0, frameBands := 1, minSpeed := 0, stageWin := [], planGraphs := [], planTasks := [], ctxs := [], seqs := [], pages := [],
    resident := [farRegion], models := [], templates := [], keystone := [], ksResult := 0, ksExpect := [], ksBands := [],
    variants := [], trailer := [], recs := [] }

/-- Die 3 maps core 51 into slot 47, and core 50 is a spare. Core 51 has met the uncorrectable word at the region's source once,
within the last second. -/
def farSpareIn : State :=
  ((((State.reset.updSlot 3 47 (fun x => { x with spareIn := some 51 })).updCore 3 50 (fun c => { c with role := .spare })).updCore 3 51
    (fun c => { c with role := .inSlot 47, ue := [(farKey, 0)] })).updMt (fun m => { m with flips := [(farKey, 3)] })).updBond
    (fun b => { b with plan := some farPlan })

/-- The invariant of the model (O3) does not rule the state out. -/
theorem farSpareIn_meets_invariant :
    Registers.wf farSpareIn.part farSpareIn.regs ∧ Memory.wf farSpareIn.mem ∧ farSpareIn.Sized := by
  have kept : Keeps State.reset farSpareIn :=
    State.updBond_keeps (State.updMt_keeps (State.updCore_keeps (State.updCore_keeps (State.updSlot_keeps (Keeps.refl _))))
      (fun _ h => h))
  obtain ⟨hregs, hmem, hsized⟩ := reset_meets_invariant
  exact ⟨kept.regs hregs, kept.mem hmem, kept.sized hsized⟩

/-- Core 51 is being mapped into slot 47. -/
theorem farSpareIn_mapping :
    ((farSpareIn.to 0).slotAt 3 47).spareIn = some 51 ∧ 3 < (farSpareIn.to 0).die.length ∧
      47 < ((farSpareIn.to 0).dieAt 3).slot.length ∧ 51 < ((farSpareIn.to 0).dieAt 3).core.length := by decide +kernel

/-- Loading the region into core 51 leaves core 50 being mapped into the slot. -/
theorem farSpareIn_fails :
    (((((farSpareIn.to 0).updSlot 3 47 (fun x => { x with core := 51, spareIn := none })).loadResident 3 47
      (farSpareIn.to 0).bond.variant).1).slotAt 3 47).spareIn = some 50 := by decide +kernel

/-- Refutes O23: the clause of SPARE_IN_DONE says that the slot waits for no spare after it, but in `farSpareIn` the load of the
resident region fails the core just mapped in (R125, R138), and the slot takes the next spare. -/
theorem not_tasksStartCompleteAndCoresFail : ¬ Obligations.TasksStartCompleteAndCoresFail := by
  rintro ⟨_, _, events⟩
  obtain ⟨_, _, spareInDone, _⟩ := events 0 3 47 farSpareIn
  obtain ⟨mapped, hd, hi, hp⟩ := farSpareIn_mapping
  obtain ⟨v, hv, _, unmapped, _⟩ := spareInDone 51 mapped hd hi hp
  rw [exec_spareInDone mapped] at hv
  obtain rfl := Host.Outcome.next.inj hv
  rw [farSpareIn_fails] at unmapped
  exact absurd unmapped (by decide)

end Sys2Proof.Machine
end

section
/-!
The task of a slot (R126, R318): what the slot's task is after an update of it, and what a command or an instruction does to a
task that goes on.
-/
namespace Sys2Proof.Machine

variable {s : State} {d i : Nat} {r x : RunTask}

/-! ### Updates of the task of a slot -/

theorem State.runAt_of_live (h : s.live d i = some r) : s.runAt d i = some r := by
  unfold State.live at h
  split at h
  · split at h
    · simp_all
    · exact nomatch h
  · exact nomatch h

theorem State.out_of_live (h : s.live d i = some r) : r.out = none := by
  unfold State.live at h
  split at h
  · split at h
    · simp_all
    · exact nomatch h
  · exact nomatch h

/-- Two functions that agree on the element at an index change a list alike. -/
theorem lmod_congr {α : Type} {l : List α} {k : Nat} {f g : α → α} (h : ∀ a, l[k]? = some a → f a = g a) :
    lmod l k f = lmod l k g := by
  refine List.ext_getElem? fun j => ?_
  simp only [lmod, List.getElem?_modify]
  cases hj : l[j]? with
  | none => rfl
  | some a =>
    by_cases e : k = j
    · subst e
      simp [h a hj]
    · simp [e]

/-- A listed index reads as what is listed. -/
theorem lget_of_getElem? {α : Type} {l : List α} {k : Nat} {a b : α} (h : l[k]? = some b) : lget a l k = b := by
  simp [lget, h]

/-- An index that does not read as the default is listed. -/
theorem getElem?_of_lget {α : Type} {l : List (Option α)} {k : Nat} {b : α} (h : lget none l k = some b) : l[k]? = some (some b) := by
  unfold lget at h
  rw [List.getD_eq_getElem?_getD] at h
  cases hl : l[k]? with
  | none => simp [hl] at h
  | some o => simpa [hl] using h

theorem State.die_of_runAt (h : s.runAt d i = some r) : ∃ e, s.die[d]? = some e ∧ s.dieAt d = e ∧ e.run[i]? = some (some r) := by
  unfold State.runAt at h
  have hr := getElem?_of_lget h
  cases hd : s.die[d]? with
  | none =>
    have hempty : s.dieAt d = {} := by simp [State.dieAt, lget, hd]
    rw [hempty] at hr
    exact nomatch List.eq_of_mem_replicate (n := 48) (List.mem_of_getElem? hr)
  | some e =>
    have he : s.dieAt d = e := lget_of_getElem? hd
    exact ⟨e, rfl, he, he ▸ hr⟩

/-- An update of a task that is there is the update to what it gives. -/
theorem State.updRun_of_runAt (h : s.runAt d i = some r) (f : RunTask → RunTask) : s.updRun d i f = s.updRun d i (fun _ => f r) := by
  obtain ⟨e, hd, -, hr⟩ := State.die_of_runAt h
  have hrun : lmod e.run i (Option.map f) = lmod e.run i (Option.map fun _ => f r) := by
    refine lmod_congr fun a ha => ?_
    obtain rfl : a = some r := Option.some.inj (ha.symm.trans hr)
    rfl
  have hdie : lmod s.die d (fun y => { y with run := lmod y.run i (Option.map f) }) =
      lmod s.die d (fun y => { y with run := lmod y.run i (Option.map fun _ => f r) }) := by
    refine lmod_congr fun a ha => ?_
    obtain rfl : a = e := Option.some.inj (ha.symm.trans hd)
    rw [hrun]
  exact congrArg (fun l => { s with die := l }) hdie

/-- The later of two updates is made of the task the earlier one gives. -/
@[simp] theorem State.updRun_const_updRun (f : RunTask → RunTask) :
    (s.updRun d i (fun _ => x)).updRun d i f = s.updRun d i (fun _ => f x) := by
  have hrun (l : List (Option RunTask)) : lmod (lmod l i (Option.map fun _ => x)) i (Option.map f) = lmod l i (Option.map fun _ => f x) := by
    rw [lmod_lmod]
    refine lmod_congr fun a _ => ?_
    cases a <;> rfl
  have hdie : lmod (lmod s.die d (fun y => { y with run := lmod y.run i (Option.map fun _ => x) })) d
      (fun y => { y with run := lmod y.run i (Option.map f) }) =
      lmod s.die d (fun y => { y with run := lmod y.run i (Option.map fun _ => f x) }) := by
    rw [lmod_lmod]
    refine lmod_congr fun a _ => ?_
    simp only [Function.comp_apply, hrun]
  exact congrArg (fun l => { s with die := l }) hdie

/-- A task that is there reads as what its update gives. -/
theorem State.updRun_runAt (h : s.runAt d i = some r) (f : RunTask → RunTask) : (s.updRun d i f).runAt d i = some (f r) := by
  obtain ⟨e, hd, he, hr⟩ := State.die_of_runAt h
  have hdl : d < s.die.length := (List.getElem?_eq_some_iff.1 hd).1
  have hrl : i < e.run.length := (List.getElem?_eq_some_iff.1 hr).1
  have hdie : (s.updRun d i f).dieAt d = { e with run := lmod e.run i (Option.map f) } := by
    unfold State.dieAt at he ⊢
    exact (lget_lmod_self hdl).trans (he ▸ rfl)
  unfold State.runAt
  rw [hdie]
  exact (lget_lmod_self hrl).trans (by rw [lget_of_getElem? hr]; rfl)

/-- The clock's count does not depend on the tasks. -/
@[simp] theorem State.updRun_cycles {f : RunTask → RunTask} : (s.updRun d i f).cycles = s.cycles := rfl

/-! ### A command of a task -/

section
variable {t : Nat} {f : State → RunTask → State}

/-- A command reaches the task that goes on. -/
theorem onTask_runs (h : (s.to t).live d i = some r) (hc : (s.to t).changing = none) :
    onTask t d i s f = .next (f (s.to t) r) := by
  simp only [onTask, h, hc, Option.isSome_none, Bool.false_eq_true, if_false]

/-- While the clock changes only the time passes (R131). -/
theorem onTask_changing (hc : (s.to t).changing ≠ none) : onTask t d i s f = .next (s.to t) := by
  have hs : (s.to t).changing.isSome = true := Option.isSome_iff_ne_none.2 hc
  unfold onTask
  extract_lets u
  split
  · rw [if_pos hs]
  · rfl

variable {op : Nat} {fs : List InstrField}

theorem onInstr_changing (hc : (s.to t).changing ≠ none) : onInstr t d i op fs s f = .next (s.to t) := onTask_changing hc

/-- The instruction the program stands at is executed. -/
theorem onInstr_stands (h : (s.to t).live d i = some r) (hc : (s.to t).changing = none) (hn : r.icount < 2 ^ 24)
    (hi : isInstr ((s.to t).instrWord d i r) op fs = true) : onInstr t d i op fs s f = .next (f (s.to t) r) := by
  unfold onInstr
  rw [onTask_runs h hc, hi, decide_eq_true hn]
  rfl

/-- Where the program stands at another instruction nothing changes (log entry 91). -/
theorem onInstr_other (h : (s.to t).live d i = some r) (hc : (s.to t).changing = none)
    (hi : isInstr ((s.to t).instrWord d i r) op fs = false) : onInstr t d i op fs s f = .next (s.to t) := by
  unfold onInstr
  rw [onTask_runs h hc, hi, Bool.and_false]
  rfl

/-- An instruction that leaves the state as it is changes nothing, wherever the program stands. -/
theorem onInstr_waits (h : (s.to t).live d i = some r) (hc : (s.to t).changing = none) (hf : f (s.to t) r = s.to t) :
    onInstr t d i op fs s f = .next (s.to t) := by
  unfold onInstr
  rw [onTask_runs h hc, hf, ite_self]

end

/-- The first outcome of a task that goes on. -/
theorem State.finish_of_live (h : s.live d i = some r) (o : TaskOut) :
    s.finish d i o = s.updRun d i (fun _ => { r with out := some o }) := by
  unfold State.finish
  rw [State.updRun_of_runAt (State.runAt_of_live h), State.out_of_live h]
  rfl

/-- The sequencer goes on from an instruction of a task. -/
theorem State.goPc_of_live (h : s.live d i = some r) (pc : Nat) :
    s.goPc d i pc = s.updRun d i (fun _ => { r with pc := pc, icount := r.icount + 1 }) :=
  State.updRun_of_runAt (State.runAt_of_live h) _

end Sys2Proof.Machine
end

section
/-!
The control instructions of a task program (R126, R318): what each does where the program stands at it.
-/
namespace Sys2Proof.Machine

/-! ### While the clock changes (R131) -/

theorem exec_oper_changing {t d i addr : Nat} {s : State} (hc : (s.to t).changing ≠ none) :
    exec (.oper t d i addr) s = .next (s.to t) := by
  show execOper t d i addr s = _
  exact onInstr_changing hc

theorem exec_taskEnd_changing {t d i : Nat} {s : State} (hc : (s.to t).changing ≠ none) :
    exec (.taskEnd t d i) s = .next (s.to t) := by
  show execTaskEnd t d i s = _
  exact onInstr_changing hc

theorem exec_taskComplete_changing {t d i : Nat} {s : State} (hc : (s.to t).changing ≠ none) :
    exec (.taskComplete t d i) s = .next (s.to t) := by
  show execTaskComplete t d i s = _
  exact if_pos (Option.isSome_iff_ne_none.2 hc)

section
variable {t d i : Nat} {s : State} {r : RunTask} (h : (s.to t).live d i = some r) (hc : (s.to t).changing = none)
include h hc

/-! ### Endings -/

/-- A reserved opcode ends the task (R318). -/
theorem exec_progErr_reserved (ho : opReserved ((s.to t).instrWord d i r / 2 ^ 56) = true) :
    exec (.progErr t d i) s = .next ((s.to t).updRun d i (fun _ => { r with out := some .progErr })) := by
  show execProgErr t d i s = _
  unfold execProgErr
  rw [onTask_runs h hc]
  simp only [ho, Bool.true_or, if_true, State.finish_of_live h]

/-- A jump that goes back ends the task (R318). -/
theorem exec_progErr_back {target : Nat} (hi : isInstr ((s.to t).instrWord d i r) 7 [(9, 0, target)] = true) (hb : target ≤ r.pc) :
    exec (.progErr t d i) s = .next ((s.to t).updRun d i (fun _ => { r with out := some .progErr })) := by
  show execProgErr t d i s = _
  unfold execProgErr
  simp only [isInstr, List.all_cons, List.all_nil, Bool.and_true, Bool.and_eq_true, beq_iff_eq] at hi
  obtain ⟨hop, htarget⟩ := hi
  rw [onTask_runs h hc]
  simp only [hop, htarget, hb, beq_self_eq_true, decide_true, Bool.and_self, Bool.or_true, if_true, State.finish_of_live h]

/-- More than 2²⁴ instructions end the task (R127). -/
theorem exec_taskInstrLimit_reached (hn : 2 ^ 24 ≤ r.icount) :
    exec (.taskInstrLimit t d i) s = .next ((s.to t).updRun d i (fun _ => { r with out := some .progErr })) := by
  show execTaskInstrLimit t d i s = _
  unfold execTaskInstrLimit
  rw [onTask_runs h hc, if_pos hn, State.finish_of_live h]

/-! ### Loop counters and jumps -/

theorem exec_setl_other {c value : Nat} (hi : isInstr ((s.to t).instrWord d i r) 5 [(41, 40, c), (31, 0, value)] = false) :
    exec (.setl t d i c value) s = .next (s.to t) := by
  show execSetl t d i c value s = _
  exact onInstr_other h hc hi

variable (hn : r.icount < 2 ^ 24)
include hn

theorem exec_setl_stands {c value : Nat} (hi : isInstr ((s.to t).instrWord d i r) 5 [(41, 40, c), (31, 0, value)] = true) :
    exec (.setl t d i c value) s = .next ((s.to t).updRun d i (fun _ =>
      { r with pc := r.pc + 1, icount := r.icount + 1, loops := lmod r.loops c (fun _ => wordOf value) })) := by
  show execSetl t d i c value s = _
  unfold execSetl
  rw [onInstr_stands h hc hn hi, State.goPc_of_live h, State.updRun_const_updRun]

/-- A loop counter counts down; at 0 the program goes on behind the loop. -/
theorem exec_taskDjnz_stands {c target : Nat} (hi : isInstr ((s.to t).instrWord d i r) 6 [(41, 40, c), (9, 0, target)] = true) :
    exec (.taskDjnz t d i c target) s = .next ((s.to t).updRun d i (fun _ =>
      { r with
        pc := if lget 0#32 r.loops c = 1#32 then r.pc + 1 else target, icount := r.icount + 1,
        loops := lmod r.loops c (fun _ => lget 0#32 r.loops c - 1#32) })) := by
  show execTaskDjnz t d i c target s = _
  have hz : lget 0#32 r.loops c - 1#32 = 0#32 ↔ lget 0#32 r.loops c = 1#32 := BitVec.sub_eq_iff_eq_add
  unfold execTaskDjnz
  simp only [onInstr_stands h hc hn hi, State.goPc_of_live h, State.updRun_const_updRun, hz]

theorem exec_taskJump_forward {target : Nat} (hi : isInstr ((s.to t).instrWord d i r) 7 [(9, 0, target)] = true) (hf : r.pc < target) :
    exec (.taskJump t d i target) s = .next ((s.to t).updRun d i (fun _ => { r with pc := target, icount := r.icount + 1 })) := by
  show execTaskJump t d i target s = _
  unfold execTaskJump
  rw [onInstr_stands h hc hn hi, if_neg (Nat.not_le.2 hf), State.goPc_of_live h]

theorem exec_taskJump_back {target : Nat} (hi : isInstr ((s.to t).instrWord d i r) 7 [(9, 0, target)] = true) (hb : target ≤ r.pc) :
    exec (.taskJump t d i target) s = .next ((s.to t).updRun d i (fun _ => { r with out := some .progErr })) := by
  show execTaskJump t d i target s = _
  unfold execTaskJump
  rw [onInstr_stands h hc hn hi, if_pos hb, State.finish_of_live h]

/-! ### Waiting for what the task has issued -/

theorem exec_barrier_idle (hidle : (s.to t).taskIdle d i r = true) (hi : isInstr ((s.to t).instrWord d i r) 4 [] = true) :
    exec (.barrier t d i) s = .next ((s.to t).updRun d i (fun _ =>
      { r with pc := r.pc + 1, icount := r.icount + 1, racing := [] })) := by
  show execBarrier t d i s = _
  unfold execBarrier
  rw [onInstr_stands h hc hn hi, if_pos hidle, State.goPc_of_live h, State.updRun_const_updRun]

theorem exec_taskEnd_idle (hidle : (s.to t).taskIdle d i r = true) (hi : isInstr ((s.to t).instrWord d i r) 0 [] = true) :
    exec (.taskEnd t d i) s = .next ((s.to t).updRun d i (fun _ =>
      { r with pc := r.pc + 1, icount := r.icount + 1, out := some (if r.work then .ok else .okEmpty) })) := by
  show execTaskEnd t d i s = _
  unfold execTaskEnd
  rw [onInstr_stands h hc hn hi, if_pos hidle, State.goPc_of_live h]
  simp only [State.finish, State.updRun_const_updRun, State.out_of_live h, Option.isNone_none, if_true]

omit hn in
theorem exec_barrier_busy (hbusy : (s.to t).taskIdle d i r = false) : exec (.barrier t d i) s = .next (s.to t) := by
  show execBarrier t d i s = _
  exact onInstr_waits h hc (by simp [hbusy])

omit hn in
theorem exec_taskEnd_busy (hbusy : (s.to t).taskIdle d i r = false) : exec (.taskEnd t d i) s = .next (s.to t) := by
  show execTaskEnd t d i s = _
  exact onInstr_waits h hc (by simp [hbusy])

theorem exec_waitc_done {c : Nat} (hi : isInstr ((s.to t).instrWord d i r) 3 [(41, 40, c)] = true)
    (hf : lget none r.chains c = none) (hb : (s.to t).burstsWait d i = false) :
    exec (.waitc t d i c) s = .next ((s.to t).updRun d i (fun _ =>
      { r with pc := r.pc + 1, icount := r.icount + 1, racing := r.racing.filter (fun w => w.1 != c) })) := by
  show execWaitc t d i c s = _
  unfold execWaitc
  rw [onInstr_stands h hc hn hi, hf, hb]
  simp only [Option.isNone_none, Bool.not_false, Bool.and_self, if_true, State.goPc_of_live h, State.updRun_const_updRun]

omit hn in
theorem exec_waitc_runs {c : Nat} (hf : lget none r.chains c ≠ none) : exec (.waitc t d i c) s = .next (s.to t) := by
  show execWaitc t d i c s = _
  exact onInstr_waits h hc (by simp [hf])

/-! ### Chains and operators -/

theorem exec_chain_starts {c addr : Nat} (hi : isInstr ((s.to t).instrWord d i r) 2 [(41, 40, c), (31, 0, addr)] = true)
    (hf : lget none r.chains c = none) (ha : addr % 64 = 0) (hk : addr < 2 ^ 21) :
    exec (.chain t d i c addr) s = .next ((s.to t).updRun d i (fun _ =>
      { r with
        pc := r.pc + 1, icount := r.icount + 1, work := true, progress := (s.to t).cycles,
        chains := lmod r.chains c (fun _ => some { next := addr, left := 256, start := (s.to t).cycles }) })) := by
  show execChain t d i c addr s = _
  have hbad : ¬ (addr % 64 ≠ 0 ∨ (!csOk addr) = true) := by simpa [ha, csOk] using hk
  unfold execChain
  rw [onInstr_stands h hc hn hi, hf, if_neg (by simp), if_neg hbad, State.goPc_of_live h]
  simp only [State.worked, State.updRun_const_updRun, State.updRun_cycles]

theorem exec_chain_unaligned {c addr : Nat} (hi : isInstr ((s.to t).instrWord d i r) 2 [(41, 40, c), (31, 0, addr)] = true)
    (hf : lget none r.chains c = none) (ha : addr % 64 ≠ 0) :
    exec (.chain t d i c addr) s = .next ((s.to t).updRun d i (fun _ => { r with out := some .opDescErr })) := by
  show execChain t d i c addr s = _
  unfold execChain
  rw [onInstr_stands h hc hn hi, hf, if_neg (by simp), if_pos (.inl ha), State.finish_of_live h]

omit hn in
theorem exec_chain_taken {c addr : Nat} (hf : lget none r.chains c ≠ none) : exec (.chain t d i c addr) s = .next (s.to t) := by
  show execChain t d i c addr s = _
  exact onInstr_waits h hc (by simp [Option.isSome_iff_ne_none.2 hf])

/-- An operator of a known code is issued; a stream operator is the task's only one (R221). -/
theorem exec_oper_issued {addr : Nat} (hi : isInstr ((s.to t).instrWord d i r) 1 [(31, 0, addr)] = true) (hk : addr < 2 ^ 21)
    {stream : Bool} (hs : decide (0x10 ≤ (s.to t).cs d i addr 1 ∧ (s.to t).cs d i addr 1 ≤ 0x13) = stream)
    (ho : opCodeOk ((s.to t).cs d i addr 1) = true) (hone : stream = true → r.streamAt = none) :
    exec (.oper t d i addr) s = .next ((s.to t).updRun d i (fun _ =>
      { r with
        pc := r.pc + 1, icount := r.icount + 1, issued := r.issued ++ [addr],
        streamAt := if stream then some addr else r.streamAt })) := by
  show execOper t d i addr s = _
  have hbad : ¬ ((!csOk addr || !opCodeOk ((s.to t).cs d i addr 1) || (stream && r.streamAt.isSome)) = true) := by
    have hok : csOk addr = true := decide_eq_true hk
    cases stream <;> simp [hok, ho, hone]
  unfold execOper
  simp only [onInstr_stands h hc hn hi, hs, if_neg hbad, State.goPc_of_live h, State.updRun_const_updRun]

theorem exec_oper_refused {addr : Nat} (hi : isInstr ((s.to t).instrWord d i r) 1 [(31, 0, addr)] = true)
    {stream : Bool} (hs : decide (0x10 ≤ (s.to t).cs d i addr 1 ∧ (s.to t).cs d i addr 1 ≤ 0x13) = stream)
    (hbad : opCodeOk ((s.to t).cs d i addr 1) = false ∨ (stream = true ∧ r.streamAt ≠ none)) :
    exec (.oper t d i addr) s = .next ((s.to t).updRun d i (fun _ => { r with out := some .opDescErr })) := by
  show execOper t d i addr s = _
  have hbad' : (!csOk addr || !opCodeOk ((s.to t).cs d i addr 1) || (stream && r.streamAt.isSome)) = true := by
    rcases hbad with ho | ⟨hstream, hone⟩
    · simp [ho]
    · simp [hstream, Option.isSome_iff_ne_none.2 hone]
  unfold execOper
  simp only [onInstr_stands h hc hn hi, hs, if_pos hbad', State.finish_of_live h]

end

/-- Settles O22: each clause is the law of one instruction above; while the clock changes no command reaches a task. -/
theorem taskProgramsRun : Obligations.TaskProgramsRun := by
  refine ⟨fun t d i s r => ?_, fun t d i addr s hc => ⟨exec_oper_changing hc, exec_taskEnd_changing hc, exec_taskComplete_changing hc⟩⟩
  intro u goes stands h hc
  refine ⟨exec_progErr_reserved h hc, exec_taskInstrLimit_reached h hc, fun c value => exec_setl_other h hc, fun hn => ?_⟩
  refine ⟨?setl, ?djnz, ?forward, ?back, ?idle, ?busy, ?waitc, ?chain, ?oper⟩
  case setl => exact fun c value => exec_setl_stands h hc hn
  case djnz => exact fun c target => exec_taskDjnz_stands h hc hn
  case forward => exact fun target => exec_taskJump_forward h hc hn
  case back => exact fun target hi hb => ⟨exec_taskJump_back h hc hn hi hb, exec_progErr_back h hc hi hb⟩
  case idle => exact fun hidle => ⟨exec_barrier_idle h hc hn hidle, exec_taskEnd_idle h hc hn hidle⟩
  case busy => exact fun hbusy => ⟨exec_barrier_busy h hc hbusy, exec_taskEnd_busy h hc hbusy⟩
  case waitc => exact fun c hi => ⟨exec_waitc_done h hc hn hi, exec_waitc_runs h hc⟩
  case chain =>
    exact fun c addr hi => ⟨exec_chain_starts h hc hn hi, exec_chain_unaligned h hc hn hi, exec_chain_taken h hc⟩
  case oper =>
    exact fun addr hi hk => ⟨exec_oper_issued h hc hn hi hk rfl, exec_oper_refused h hc hn hi rfl⟩

end Sys2Proof.Machine
end

section
/-!
The operators of a task (R187, R188): what carrying out the oldest one comes to, and the code and effect of each of the fifteen.
-/
namespace Sys2Proof.Machine

section
variable {s : State} {d i addr code : Nat} {r : RunTask} {f : State → RunTask → Except TaskOut OpDo}

/-- The state once the oldest operator has left the list of those issued, and its descriptor has been read. -/
def State.taken (s : State) (d i addr : Nat) : State :=
  (s.updRun d i (fun r => { r with issued := r.issued.drop 1 })).csReads d i [(addr, 64)]

/-- Only the oldest operator issued runs, by the row of its code. -/
theorem State.operate_other (h : r.issued.head? ≠ some addr ∨ s.cs d i addr 1 ≠ code) : s.operate d i addr code r f = s := if_pos h

variable (ha : r.issued.head? = some addr) (hk : s.cs d i addr 1 = code)
include ha hk

/-- An uncorrectable word of the descriptor has failed the task (R125). -/
theorem State.operate_lost (hl : (s.taken d i addr).live d i = none) : s.operate d i addr code r f = s.taken d i addr := by
  unfold State.taken at *
  simp only [State.operate, ha, hk, ne_eq, not_true_eq_false, or_self, if_false, hl]

variable {q : RunTask} (hq : (s.taken d i addr).live d i = some q)
include hq

/-- A descriptor outside its ranges ends the task (R187). -/
theorem State.operate_refused {o : TaskOut} (hf : f (s.taken d i addr) q = .error o) :
    s.operate d i addr code r f = (s.taken d i addr).finish d i o := by
  unfold State.taken at *
  simp only [State.operate, ha, hk, ne_eq, not_true_eq_false, or_self, if_false, hq, hf]

variable {y : OpDo} (hy : f (s.taken d i addr) q = .ok y)
include hy

/-- An uncorrectable word of the inputs has failed the task (R125). -/
theorem State.operate_faulted (hz : ((s.taken d i addr).csReads d i y.reads).live d i = none) :
    s.operate d i addr code r f = (s.taken d i addr).csReads d i y.reads := by
  unfold State.taken at *
  simp only [State.operate, ha, hk, ne_eq, not_true_eq_false, or_self, if_false, hq, hy, hz, Option.isNone_none, if_true]

/-- The operator has its effect over what its reads see (R186), and counts as work unless it is empty. -/
theorem State.operate_runs (hz : ((s.taken d i addr).csReads d i y.reads).live d i ≠ none) :
    s.operate d i addr code r f =
      (let z := (s.taken d i addr).csReads d i y.reads
       let m := z.mixView d i y.reads
       if y.empty then y.run z else ((y.run m.1).mixBack d i m.2).worked d i) := by
  have hsome : (((s.taken d i addr).csReads d i y.reads).live d i).isNone = false := Option.isNone_eq_false_iff.2 (Option.isSome_iff_ne_none.2 hz)
  unfold State.taken at *
  simp only [State.operate, ha, hk, ne_eq, not_true_eq_false, or_self, if_false, hq, hy, hsome, Bool.false_eq_true]

end

/-! ### The rows of the operators -/

/-- The commands of the fifteen operators, each with the code its descriptor has and what takes the descriptor. -/
def operatorRows (t d i addr : Nat) : List (Instr × Nat × (State → Nat → Nat → Nat → RunTask → Except TaskOut OpDo)) := [
  (.conv t d i addr, 0x01, State.convOp), (.dwconv t d i addr, 0x02, State.dwOp), (.pool t d i addr, 0x03, State.poolOp),
  (.cropResize t d i addr, 0x04, State.cropOp), (.boxDecode t d i addr, 0x05, State.boxOp),
  (.suppress t d i addr, 0x06, State.suppressOp), (.lscan t d i addr, 0x10, State.lscanOp),
  (.gcell t d i addr, 0x11, State.gcellOp), (.biscan t d i addr, 0x12, State.biscanOp), (.bind t d i addr, 0x13, State.bindOp),
  (.kvAppend t d i addr, 0x18, State.kvAppendOp), (.attn t d i addr, 0x19, State.attnOp),
  (.attnBwd t d i addr, 0x1B, State.attnBwdOp), (.adaptAccum t d i addr, 0x1C, State.adaptAccumOp),
  (.adaptStep t d i addr, 0x1D, State.adaptStepOp)]

section
variable {t d i addr : Nat} {s : State} {r : RunTask} (h : (s.to t).live d i = some r) (hc : (s.to t).changing = none)
include h hc

/-- A command that is an operator of a code carries it out on the task that goes on. -/
theorem exec_operator {c : Instr} {code : Nat} {op : State → Nat → Nat → Nat → RunTask → Except TaskOut OpDo}
    (he : exec c s = onTask t d i s (fun w q => w.operate d i addr code q (fun w q => op w d i addr q))) :
    exec c s = .next ((s.to t).operate d i addr code r (fun w q => op w d i addr q)) :=
  he.trans (onTask_runs h hc)

/-- Each operator is carried out alike; GCELL once the drains before it are done (R115), ATTN where the task is no partial one. -/
theorem exec_operatorRows : ∀ x ∈ operatorRows t d i addr,
    (x.2.1 = 0x11 → ((s.to t).coreAt d ((s.to t).coreOf d i)).drainQ = []) → (x.2.1 = 0x19 → r.part = none) →
      exec x.1 s = .next ((s.to t).operate d i addr x.2.1 r (fun w q => x.2.2 w d i addr q)) := by
  simp only [operatorRows, List.forall_mem_cons]
  refine ⟨?_, ?_, ?_, ?_, ?_, ?_, ?_, ?gcell, ?_, ?_, ?_, ?attn, ?_, ?_, ?_, fun _ hx => nomatch hx⟩
  case gcell =>
    intro hd _
    show execGcell t d i addr s = _
    unfold execGcell
    rw [onTask_runs h hc, hd trivial]
    rfl
  case attn =>
    intro _ hp
    show execAttn t d i addr s = _
    unfold execAttn
    rw [onTask_runs h hc, hp trivial]
  all_goals exact fun _ _ => exec_operator h hc rfl

/-- The one operator of a partial task is the ATTN over its span (R268). -/
theorem exec_attn_part {p a k : Nat} (hp : r.part = some (p, a, k)) :
    exec (.attn t d i addr) s = .next (if a = addr then (s.to t).attnPart d i p a k r else s.to t) := by
  show execAttn t d i addr s = _
  unfold execAttn
  rw [onTask_runs h hc, hp]

end

/-- Settles O25: every row carries its operator out alike, and the laws of `State.operate` say what that comes to. -/
theorem operatorsRunInIssueOrder : Obligations.OperatorsRunInIssueOrder := by
  intro t d i addr s r u w rows h hc
  refine ⟨fun p a k hp => exec_attn_part h hc hp, fun x hx hdrained hwhole => ?_⟩
  rw [exec_operatorRows h hc x hx hdrained hwhole]
  refine ⟨fun hother => congrArg _ (State.operate_other hother), fun ha hk => ⟨fun hl => congrArg _ (State.operate_lost ha hk hl), ?_⟩⟩
  refine fun q hq => ⟨fun o ho => congrArg _ (State.operate_refused ha hk hq ho), fun y hy => ⟨?faulted, ?runs⟩⟩
  case faulted => exact fun hz => congrArg _ (State.operate_faulted ha hk hq hy hz)
  case runs => exact fun hz => congrArg _ (State.operate_runs ha hk hq hy hz)

end Sys2Proof.Machine
end

section
/-!
The drain of a block (R112 to R115), and the deadline of a chain's descriptor (R311).
-/
namespace Sys2Proof.Machine

/-! ### What is read of a part of the state that has not changed -/

section
variable {m : List Block} {s v : State} (h : OnlyIn m s v)
include h

theorem OnlyIn.regGet (hp : Block.part ∉ m := by decide) (hr : Block.regs ∉ m := by decide) (a : Nat) : v.regGet a = s.regGet a := by
  have hpart : v.part = s.part := h .part hp
  have hregs : v.regs = s.regs := h .regs hr
  unfold State.regGet
  rw [hpart, hregs]

theorem OnlyIn.rbit (hp : Block.part ∉ m := by decide) (hr : Block.regs ∉ m := by decide) (a i : Nat) : v.rbit a i = s.rbit a i :=
  congrArg (wbit · i) (h.regGet hp hr a)

theorem OnlyIn.ldB (hm : Block.mem ∉ m := by decide) (k : Nat) : v.ldB k = s.ldB k := by
  have hmem : v.mem = s.mem := h .mem hm
  unfold State.ldB
  rw [hmem]

theorem OnlyIn.runAt (hd : Block.die ∉ m := by decide) (d i : Nat) : v.runAt d i = s.runAt d i := by
  have hdie : v.die = s.die := h .die hd
  unfold State.runAt State.dieAt
  rw [hdie]

end

section
variable {t d i : Nat} {s : State} {r : RunTask} (h : (s.to t).live d i = some r) (hc : (s.to t).changing = none)
include h hc

/-! ### Drains -/

/-- The oldest block leaves the queue, and the array whose bank it held goes on. -/
theorem exec_blockDrain_cons {b : DrainBlk} {q : List DrainBlk} (hq : ((s.to t).coreAt d ((s.to t).coreOf d i)).drainQ = b :: q) :
    exec (.blockDrain t d i) s = .next (
      let w := (((s.to t).updCore d ((s.to t).coreOf d i) (fun x => { x with drainQ := q })).drainBlock d i r b).moves d i
      w.convFill d i r.rclass (w.fillSteps d i)) := by
  show execBlockDrain t d i s = _
  unfold execBlockDrain
  rw [onTask_runs h hc, hq]
  rfl

theorem exec_blockDrain_nil (hq : ((s.to t).coreAt d ((s.to t).coreOf d i)).drainQ = []) : exec (.blockDrain t d i) s = .next (s.to t) := by
  show execBlockDrain t d i s = _
  unfold execBlockDrain
  rw [onTask_runs h hc, hq]

end

/-! ### Deadlines -/

/-- A chain has missed the deadline of its descriptor. -/
def RunTask.chainLate (r : RunTask) (k : Nat) : RunTask :=
  { r with chains := lmod r.chains k (fun o => o.map (fun x => { x with late := true })) }

/-- The late descriptor is counted and raised, and its chain marked. -/
def State.lateSeen (s : State) (d i k : Nat) : State := ((s.bump 0x60038).raise evMem 2).updRun d i (fun r => r.chainLate k)

/-- The task goes on as LATE of the late descriptor says: with SIGNAL, with the zero points of the destination in place of what has
not come, or as it is. -/
def State.lateGoes (s : State) (d i k : Nat) (c : ChainRun) (m : MoveDesc) : State :=
  if m.late = 1 then s.updBond (fun b => { b with signalLate := true })
  else if m.late = 2 then
    ((s.each m.dstRows (fun s p => s.csSt d i p.1 (zeroPointBytes m.rec_ p.2))).updRun d i (fun r => { r with tierSubst := true })).chainNext
      d i k c m.last
  else s

section
variable {s : State} {d i k : Nat} {r : RunTask} {c : ChainRun} {m : MoveDesc}

theorem State.lateSeen_in : OnlyIn [.regs, .tn, .sdio, .die] s (s.lateSeen d i k) :=
  State.updRun_only (by decide) (State.raise_only (by decide) (State.bump_only (by decide) (OnlyIn.refl _ _)))

theorem State.lateSeen_count : (s.lateSeen d i k).regGet 0x60038 = s.regGet 0x60038 + 1#32 := by
  have hraise : ((s.bump 0x60038).raise evMem 2).regGet 0x60038 = (s.bump 0x60038).regGet 0x60038 := by
    rw [State.raise_regGet (by decide), if_neg (by decide)]
  exact hraise.trans State.bump_regGet_self

theorem State.lateSeen_event : (s.lateSeen d i k).rbit evMem 2 = true := State.raise_bit (by decide) (by decide)

theorem State.lateSeen_runAt (h : s.runAt d i = some r) : (s.lateSeen d i k).runAt d i = some (r.chainLate k) := by
  have hraise : OnlyIn [.regs, .tn, .sdio] s ((s.bump 0x60038).raise evMem 2) :=
    State.raise_only (by decide) (State.bump_only (by decide) (OnlyIn.refl _ _))
  exact State.updRun_runAt ((hraise.runAt (by decide) d i).trans h) _

/-- The chain that is late is marked, and stands at the same descriptor. -/
theorem RunTask.chainLate_marks (h : lget none r.chains k = some c) :
    ∃ c', lget none (r.chainLate k).chains k = some c' ∧ c'.late = true ∧ c'.next = c.next := by
  have hk : k < r.chains.length := (List.getElem?_eq_some_iff.1 (getElem?_of_lget h)).1
  refine ⟨{ c with late := true }, ?_, rfl, rfl⟩
  exact (lget_lmod_self hk).trans (by rw [h]; rfl)

theorem State.chainNext_tierSubst {last : Bool} (h : s.runAt d i = some r) (hr : r.tierSubst = true) :
    ∃ q, (s.chainNext d i k c last).runAt d i = some q ∧ q.tierSubst = true := by
  unfold State.chainNext
  split
  · exact ⟨_, State.updRun_runAt h _, hr⟩
  · exact ⟨_, State.updRun_runAt h _, hr⟩

/-- Only SUBSTITUTE writes the core store. -/
theorem State.lateGoes_in : OnlyIn [.mem, .mt, .die, .bond] s (s.lateGoes d i k c m) := by
  unfold State.lateGoes
  split
  · exact State.updBond_only (by decide) (OnlyIn.refl _ _)
  · split
    · refine State.chainNext_only (by decide) (State.updRun_only (by decide) ?_)
      exact State.each_only (OnlyIn.refl _ _) fun _ _ hs => State.csSt_only (by decide) hs
    · exact OnlyIn.refl _ _

/-- SUBSTITUTE is kept in the task. -/
theorem State.lateGoes_substitutes (h : s.runAt d i = some r) (hm : m.late = 2) :
    ∃ q, (s.lateGoes d i k c m).runAt d i = some q ∧ q.tierSubst = true := by
  unfold State.lateGoes
  rw [if_neg (by omega), if_pos hm]
  have hrows : OnlyIn [.mem, .mt] s (s.each m.dstRows (fun s p => s.csSt d i p.1 (zeroPointBytes m.rec_ p.2))) :=
    State.each_only (OnlyIn.refl _ _) fun _ _ hs => State.csSt_only (by decide) hs
  exact State.chainNext_tierSubst (State.updRun_runAt ((hrows.runAt (by decide) d i).trans h) _) rfl

/-- Without SUBSTITUTE the tasks and the stores are as they were. -/
theorem State.lateGoes_in_bond (hm : m.late ≠ 2) : OnlyIn [.bond] s (s.lateGoes d i k c m) := by
  unfold State.lateGoes
  rw [if_neg hm]
  split
  · exact State.updBond_only (by decide) (OnlyIn.refl _ _)
  · exact OnlyIn.refl _ _

theorem State.lateGoes_signals (hm : m.late = 1) : (s.lateGoes d i k c m).bond.signalLate = true := by
  unfold State.lateGoes
  rw [if_pos hm]
  rfl

end

section
variable {t d i k : Nat} {s : State} {r : RunTask} {c : ChainRun} (h : (s.to t).live d i = some r) (hc : (s.to t).changing = none)
  (hk : lget none r.chains k = some c)
include h hc hk

/-- A descriptor that is late already, has no deadline, or has time left is left alone. -/
theorem exec_chainDeadline_early
    (he : c.late = true ∨ (s.to t).cs d i (c.next + 32) 2 = 0 ∨ (s.to t).cycles < c.start + 256 * (s.to t).cs d i (c.next + 32) 2) :
    exec (.chainDeadline t d i k) s = .next (s.to t) := by
  show execChainDeadline t d i k s = _
  unfold execChainDeadline
  rw [onTask_runs h hc]
  simp only [hk]
  rw [if_pos (or_left_comm.1 he)]

variable (hl : c.late = false) (hd : (s.to t).cs d i (c.next + 32) 2 ≠ 0)
  (hp : c.start + 256 * (s.to t).cs d i (c.next + 32) 2 ≤ (s.to t).cycles)
include hl hd hp

/-- A late descriptor that is none ends the task. -/
theorem exec_chainDeadline_refused {o : TaskOut} (ho : (s.to t).moveDesc d i c.next r = .error o) :
    exec (.chainDeadline t d i k) s = .next ((s.to t).finish d i o) := by
  show execChainDeadline t d i k s = _
  unfold execChainDeadline
  rw [onTask_runs h hc]
  simp only [hk]
  rw [if_neg (by simp [hl, hd, hp]), ho]

/-- A late descriptor is counted and raised, and its task goes on as LATE says. -/
theorem exec_chainDeadline_late {m : MoveDesc} (hm : (s.to t).moveDesc d i c.next r = .ok m) :
    exec (.chainDeadline t d i k) s = .next (((s.to t).lateSeen d i k).lateGoes d i k c m) := by
  show execChainDeadline t d i k s = _
  unfold execChainDeadline
  rw [onTask_runs h hc]
  simp only [hk]
  rw [if_neg (by simp [hl, hd, hp]), hm]
  rfl

end

/-- Settles O27: a drain is the law of its queue; of a late descriptor the count, the event and the mark are those of `lateSeen`, which
LATE then keeps. -/
theorem blocksDrainAndChainsAreLate : Obligations.BlocksDrainAndChainsAreLate := by
  intro t d i s r u h hc
  refine ⟨fun b q => exec_blockDrain_cons h hc, exec_blockDrain_nil h hc, ?late, ?refused, ?early⟩
  case refused => exact fun k c o hk hl ho hd hp => exec_chainDeadline_refused h hc hk hl hd hp ho
  case early => exact fun k c hk he => exec_chainDeadline_early h hc hk he
  case late =>
    intro k c m hk hl hm hd hp
    have hw : (u.lateSeen d i k).runAt d i = some (r.chainLate k) := State.lateSeen_runAt (State.runAt_of_live h)
    have hgoes : OnlyIn [.mem, .mt, .die, .bond] (u.lateSeen d i k) ((u.lateSeen d i k).lateGoes d i k c m) := State.lateGoes_in
    have hcount := (hgoes.regGet (by decide) (by decide) 0x60038).trans State.lateSeen_count
    have hevent := (hgoes.rbit (by decide) (by decide) evMem 2).trans State.lateSeen_event
    by_cases h2 : m.late = 2
    · obtain ⟨q, hq, hsubst⟩ := State.lateGoes_substitutes (k := k) (c := c) hw h2
      exact ⟨_, q, exec_chainDeadline_late h hc hk hl hd hp hm, hcount, hevent, State.lateGoes_signals, hq, fun hn => absurd h2 hn,
        fun _ => hsubst, fun hn => absurd h2 hn⟩
    · have hbond : OnlyIn [.bond] (u.lateSeen d i k) ((u.lateSeen d i k).lateGoes d i k c m) := State.lateGoes_in_bond h2
      have hmem (key : Nat) := (hbond.ldB (by decide) key).trans (State.lateSeen_in.ldB (by decide) key)
      exact ⟨_, r.chainLate k, exec_chainDeadline_late h hc hk hl hd hp hm, hcount, hevent, State.lateGoes_signals,
        (hbond.runAt (by decide) d i).trans hw, fun _ => RunTask.chainLate_marks hk, fun h2' => absurd h2' h2, fun _ => hmem⟩

end Sys2Proof.Machine
end

section
/-!
What passes by the command interface: an event or a record changes its log and its pending interrupt alone, so that the packets, the
replies and the transfers are as they were.
-/
namespace Sys2Proof.Machine

/-- The command interface without what raising an event changes of it. -/
def Sdio.unlogged (x : Sdio) : Sdio := { x with evLog := [], f1Pend := 0 }

/-- Of the command interface and of MGMT nothing has changed but the event log and the pending interrupts. -/
structure Quiet (s v : State) : Prop where
  sdio : v.sdio.unlogged = s.sdio.unlogged
  mgmt : v.mgmt = s.mgmt

namespace Quiet

variable {s v w : State}

theorem refl (s : State) : Quiet s s := ⟨rfl, rfl⟩

theorem trans (h : Quiet s v) (k : Quiet v w) : Quiet s w := ⟨k.sdio.trans h.sdio, k.mgmt.trans h.mgmt⟩

theorem of_onlyIn {m : List Block} (h : OnlyIn m s v) (hs : Block.sdio ∉ m := by decide) (hm : Block.mgmt ∉ m := by decide) : Quiet s v :=
  ⟨congrArg Sdio.unlogged (h .sdio hs), h .mgmt hm⟩

theorem each {α : Type} {l : List α} {f : State → α → State} (hf : ∀ s x, Quiet s (f s x)) : Quiet s (s.each l f) := by
  unfold State.each
  induction l generalizing s with
  | nil => exact refl s
  | cons x l ih => exact (hf s x).trans ih

theorem replies (h : Quiet s v) : v.sdio.replies = s.sdio.replies := congrArg (·.replies) h.sdio
theorem deferred (h : Quiet s v) : v.sdio.deferred = s.sdio.deferred := congrArg (·.deferred) h.sdio
theorem waiting (h : Quiet s v) : v.sdio.waiting = s.sdio.waiting := congrArg (·.waiting) h.sdio
theorem cmdBuf (h : Quiet s v) : v.sdio.cmdBuf = s.sdio.cmdBuf := congrArg (·.cmdBuf) h.sdio
theorem resetAt (h : Quiet s v) : v.mgmt.resetAt = s.mgmt.resetAt := congrArg Mgmt.resetAt h.mgmt

theorem updSdio {f : Sdio → Sdio} (hf : ∀ x, (f x).unlogged = x.unlogged) : Quiet s (s.updSdio f) := ⟨hf _, rfl⟩

theorem log {e : LogEntry} : Quiet s (s.log e) := by
  obtain ⟨kept, h⟩ : ∃ kept, s.log e = s.updSdio (fun x => { x with evLog := kept }) := ⟨_, rfl⟩
  rw [h]
  exact updSdio fun _ => rfl

theorem produce {ty pair : Nat} {body : List Byte} : Quiet s (s.produce ty pair body).1 :=
  of_onlyIn (State.produce_only (m := [.regs, .tn]) (by decide) (OnlyIn.refl _ s)).fst

theorem raiseQuiet {b arg : Nat} : Quiet s (s.raiseQuiet b arg) := by
  unfold State.raiseQuiet
  extract_lets was x1 x2
  have h1 : Quiet s x1 := ⟨congrArg Sdio.unlogged State.regSet_sdio, State.regSet_mgmt⟩
  have h2 : Quiet s x2 := h1.trans log
  clear_value x1 x2
  split
  · split
    · exact h2
    · exact h2.trans produce
  · exact h1

theorem emit {ty pair : Nat} {body : List Byte} : Quiet s (s.emit ty pair body) := by
  have h0 : Quiet s (s.produce ty pair body).1 := produce
  unfold State.emit
  split
  next x l e =>
    rw [e] at h0
    extract_lets x1
    have h1 : Quiet s x1 := by
      subst x1
      split
      · exact h0.trans raiseQuiet
      · exact h0
    clear_value x1
    split
    · exact h1.trans raiseQuiet
    · exact h1

theorem raise {a b c : Nat} : Quiet s (s.raise a b c) := by
  unfold State.raise
  extract_lets x1 x2 x3
  have h1 : Quiet s x1 := ⟨congrArg Sdio.unlogged State.regSet_sdio, State.regSet_mgmt⟩
  have h2 : Quiet s x2 := h1.trans log
  have h3 : Quiet s x3 := by
    subst x3
    split
    · exact h2.trans (updSdio fun _ => rfl)
    · exact h2
  clear_value x1 x2 x3
  split
  · exact h3.trans emit
  · exact h1

end Quiet

end Sys2Proof.Machine
end

section
/-!
Plans (R329, R336 to R339): what loading, placing, admitting, starting, stopping, unloading and re-admitting one come to.
-/
namespace Sys2Proof.Machine

variable {s : State}

/-! ### Loading and placing (R302, R336) -/

/-- The next bulk transfer to begin is counted with those that wait. -/
theorem State.bulkNext_deferredCnt : s.bulkNext.deferredCnt = s.deferredCnt := by
  unfold State.bulkNext
  split
  next x q hact hq =>
    simp only [State.deferredCnt, State.updSdio_sdio, hact, hq, List.length_cons, Option.isSome_some, Option.isSome_none, if_true,
      Bool.false_eq_true, if_false]
    omega
  · rfl

theorem State.deferredCnt_inQ {x : Inbound} :
    (s.updSdio (fun y => { y with inQ := y.inQ ++ [x] })).deferredCnt = s.deferredCnt + 1 := by
  show s.sdio.deferred.length + (s.sdio.inQ ++ [x]).length + (if s.sdio.inAct.isSome then 1 else 0) + s.sdio.checks.length +
    s.sdio.outQ.length = s.sdio.deferred.length + s.sdio.inQ.length + (if s.sdio.inAct.isSome then 1 else 0) + s.sdio.checks.length +
    s.sdio.outQ.length + 1
  rw [List.length_append, List.length_singleton]
  omega

theorem State.bulkNext_replies : s.bulkNext.sdio.replies = s.sdio.replies := by
  unfold State.bulkNext
  split
  · rw [State.updSdio_sdio]
  · rfl

theorem State.bulkNext_bond : s.bulkNext.bond = s.bond := (State.bulkNext_only (by decide) (OnlyIn.refl [.sdio] s)).eq .bond

/-- A bulk transfer from the host that there is room for waits for its data (R512). -/
theorem State.bulkIn_waits {p : Packet} {len : Nat} (hl : len ≠ 0) (hr : s.deferredCnt < 8) :
    (s.bulkIn p len).deferredCnt = s.deferredCnt + 1 ∧ (s.bulkIn p len).bond = s.bond ∧ (s.bulkIn p len).sdio.replies = s.sdio.replies := by
  unfold State.bulkIn State.defer
  rw [if_neg hl, if_neg (Nat.not_le.2 hr)]
  refine ⟨?_, State.bulkNext_bond, ?_⟩
  · rw [State.bulkNext_deferredCnt]
    exact State.deferredCnt_inQ
  · rw [State.bulkNext_replies, State.updSdio_sdio]

theorem exec_planLoad {h : Hdr} {len : Nat} {digest : List Byte} (k : Carried s h (.planLoad len digest))
    (hp : (s.atHost h).planRuns = false) :
    exec (.planLoad h len digest) s = .next ((s.atHost h).bulkIn (packetOf h.tag h.client (.planLoad len digest)) len) := by
  rw [exec_carried rfl k, hostRun_planLoad]
  unfold State.hostPlanLoad
  rw [hp]
  rfl

section
variable {img dg : List Byte} {p : Plan}

/-- An image with a piece outside the raw region is no plan (log entry 100). -/
theorem State.planPlace_outside (h : (Config.planPlaces img).all s.rawOk = false) :
    (s.planPlace img dg).2 = 0 ∧ (s.planPlace img dg).1.bond.plan = none ∧ (s.planPlace img dg).1.bond.st = .loaded := by
  simp only [State.planPlace, h, Bool.false_eq_true, if_false]
  exact ⟨trivial, rfl, rfl⟩

/-- A piece on a withdrawn frame refuses the image (R289). -/
theorem State.planPlace_withdrawn (hp : Config.parsePlan img = some p) (h : (Config.planPlaces img).all s.rawOk = true)
    (hw : (Config.planPlaces img).any s.onWithdrawn = true) : s.planPlace img dg = (s, 0x0301) := by
  simp only [State.planPlace, h, hp, hw, if_true]

/-- A page of PIN 3 refuses the image (R302). -/
theorem State.planPlace_badPin (hp : Config.parsePlan img = some p) (h : (Config.planPlaces img).all s.rawOk = true)
    (hw : (Config.planPlaces img).any s.onWithdrawn = false) (hpin : ∃ g ∈ p.pages, g.count ≠ 0 ∧ g.pin = 3) :
    s.planPlace img dg = (s, 0x020A) := by
  have hany : p.pages.any (fun g => g.count != 0 && g.pin == 3) = true := by simpa using hpin
  simp only [State.planPlace, h, hp, hw, hany, if_true, Bool.false_eq_true, if_false]

end

/-! ### Admission (R337) -/

theorem exec_planAdmit {h : Hdr} (k : Carried s h .planAdmit) (hp : (s.atHost h).planRuns = false)
    (hst : (s.atHost h).bond.st = .loaded ∨ (s.atHost h).bond.st = .admitted) (hr : (s.atHost h).deferredCnt < 8) :
    exec (.planAdmit h) s = .next ((s.atHost h).deferOn (packetOf h.tag h.client .planAdmit)) := by
  have hst' : ((s.atHost h).bond.st == .loaded || (s.atHost h).bond.st == .admitted) = true := by
    rcases hst with e | e <;> rw [e] <;> rfl
  rw [exec_carried rfl k, hostRun_planAdmit]
  unfold State.hostPlanAdmit State.defer
  rw [hp, hst', if_neg (Nat.not_le.2 hr)]
  rfl

/-- What an admission of a plan makes of the Bond. -/
def Bond.admitted (b : Bond) (a : Admission) : Bond :=
  { b with adm := a, st := if a.reason = .none then .admitted else .loaded, variant := 0, hold := 0, overspeed := false }

theorem State.admitNow_bond {p : Plan} (hp : s.bond.plan = some p) : s.admitNow.bond = s.bond.admitted (s.admission p) := by
  unfold State.admitNow
  rw [hp]
  extract_lets a good x1 x2
  have h1 : x1.bond = s.bond := by
    subst x1
    split
    · exact (State.sigFail_only (m := [.regs, .tn, .sdio]) (by decide) (OnlyIn.refl _ s)).eq .bond
    · rfl
  rw [State.raise_bond, State.updBond_bond, h1]
  simp [Bond.admitted, good, a]

theorem State.admitNow_quiet : Quiet s s.admitNow := by
  unfold State.admitNow
  extract_lets a good x1 x2
  have h1 : Quiet s x1 := by
    subst x1
    split
    · exact Quiet.trans (Quiet.of_onlyIn (State.bump_only (m := [.regs]) (by decide) (OnlyIn.refl _ s))) Quiet.raise
    · exact Quiet.refl s
  have h2 : Quiet x1 x2 := ⟨rfl, rfl⟩
  exact h1.trans (h2.trans Quiet.raise)

/-- The event of an admission says how it ended. -/
theorem State.admitNow_event {p : Plan} (hp : s.bond.plan = some p) :
    s.admitNow.rbit evBond (if (s.admission p).reason == .none then 12 else 11) = true := by
  unfold State.admitNow
  rw [hp]
  have hbit : ∀ good : Bool, (if good = true then 12 else 11) < 32 := by decide
  exact State.raise_bit (by decide) (hbit _)

/-- What PLAN_ADMIT answers is read of the Bond alone. -/
theorem State.admitBytes_congr {v : State} (h : v.bond = s.bond) : v.admitBytes = s.admitBytes := by
  simp only [State.admitBytes, State.bondStatus, State.vlimit, State.bondBind, h]

/-- The one command that waits is answered. -/
theorem State.answerDeferred_one {d : Deferred} {f : Deferred → Option (Nat × List Byte)} {st : Nat} {bs : List Byte}
    (hd : s.sdio.deferred = [d]) (hf : f d = some (st, bs)) :
    s.answerDeferred f = (s.updSdio (fun x => { x with deferred := [] })).reply d.pkt st bs := by
  have hdef : s.updSdio (fun x => { x with deferred := x.deferred.filter (fun d => (f d).isNone) }) =
      s.updSdio (fun x => { x with deferred := [] }) := by
    simp [State.updSdio, hd, hf]
  have hhit : s.sdio.deferred.filter (fun d => (f d).isSome) = [d] := by simp [hd, hf]
  unfold State.answerDeferred
  extract_lets hit x
  rw [show hit = [d] from hhit, show x = _ from hdef]
  simp only [State.each, List.foldl_cons, List.foldl_nil, hf]

/-- What the end of an admission comes to where one command waits for it: the command is answered (R337). -/
def State.admissionEnds (s : State) (d : Deferred) : State :=
  (s.admitNow.updSdio (fun x => { x with deferred := [] })).reply d.pkt (if s.admitNow.bond.st == .admitted then 0 else 0x020B)
    s.admitNow.admitBytes

theorem exec_admissionDone {t : Nat} {d : Deferred} (hd : (s.to t).sdio.deferred = [d]) (hc : d.pkt.cmd = .planAdmit)
    (hst : (s.to t).bond.st = .loaded) (hsp : (s.to t).bond.startPending = false) :
    exec (.admissionDone t) s = .next ((s.to t).admissionEnds d) := by
  have hgo : (s.to t).sdio.deferred.any (fun d => d.pkt.cmd == .planAdmit) = true := by simp [hd, hc]
  have hmay : (((s.to t).bond.st == .loaded || (s.to t).bond.st == .admitted) && !(s.to t).bond.startPending) = true := by
    rw [hst, hsp]
    rfl
  have hone : (s.to t).admitNow.sdio.deferred = [d] := State.admitNow_quiet.deferred.trans hd
  show execAdmissionDone t s = _
  exact congrArg _ ((if_pos hgo).trans ((if_pos hmay).trans (State.answerDeferred_one hone (if_pos (by simp [hc])))))

section
variable {d : Deferred} {p : Plan}

theorem State.admissionEnds_deferred : (s.admissionEnds d).sdio.deferred = [] := by
  unfold State.admissionEnds State.reply
  split <;> rfl

theorem State.admissionEnds_bond (hp : s.bond.plan = some p) : (s.admissionEnds d).bond = s.bond.admitted (s.admission p) :=
  State.reply_bond.trans (State.admitNow_bond hp)

theorem State.admissionEnds_event (hp : s.bond.plan = some p) :
    (s.admissionEnds d).rbit evBond (if (s.admission p).reason == .none then 12 else 11) = true :=
  (State.reply_in.rbit (by decide) (by decide) _ _).trans (State.admitNow_event hp)

/-- The answer says whether the plan is admitted, with its figures or the reason against it. -/
theorem State.admissionEnds_replies (hp : s.bond.plan = some p) (hr : s.mgmt.resetAt = none) :
    (s.admissionEnds d).sdio.replies = s.sdio.replies ++
      [{ status := if (s.admission p).reason = .none then 0 else 0x020B, tag := d.pkt.tag, client := d.pkt.client,
         opcode := d.pkt.opcode, bytes := (s.admissionEnds d).admitBytes }] := by
  have hstatus : (if s.admitNow.bond.st == .admitted then 0 else 0x020B) = if (s.admission p).reason = .none then 0 else 0x020B := by
    simp only [State.admitNow_bond hp, Bond.admitted]
    split <;> rfl
  have hbytes : (s.admissionEnds d).admitBytes = s.admitNow.admitBytes := State.admitBytes_congr State.reply_bond
  have hreset : (s.admitNow.updSdio (fun x => { x with deferred := [] })).mgmt.resetAt = none := State.admitNow_quiet.resetAt.trans hr
  rw [hbytes, ← hstatus]
  exact (State.reply_replies hreset).trans (congrArg (· ++ _) State.admitNow_quiet.replies)

end

/-! ### Starting, stopping and unloading (R338, R339) -/

/-- A command that changes the Bond alone and is answered OK. -/
theorem bond_answered {h : Hdr} {c : HostCmd} {f : Bond → Bond} (k : Carried s h c) :
    (((s.atHost h).updBond f).answer (packetOf h.tag h.client c) 0).bond = f (s.atHost h).bond ∧
      Replied s (((s.atHost h).updBond f).answer (packetOf h.tag h.client c) 0) h c 0 [] :=
  ⟨(State.answer_in (by decide)).eq .bond, replied_of_answer k rfl rfl (by decide)⟩

theorem exec_planStart {h : Hdr} (k : Carried s h .planStart) (hst : (s.atHost h).bond.st = .admitted)
    (hsp : (s.atHost h).bond.startPending = false) :
    exec (.planStart h) s =
      .next (((s.atHost h).updBond (fun b => { b with startPending := true })).answer (packetOf h.tag h.client .planStart) 0) := by
  rw [exec_carried rfl k, hostRun_planStart]
  unfold State.hostPlanStart
  rw [hst, hsp]
  rfl

theorem exec_planStop_pending {h : Hdr} (k : Carried s h .planStop) (hsp : (s.atHost h).bond.startPending = true) :
    exec (.planStop h) s =
      .next (((s.atHost h).updBond (fun b => { b with startPending := false })).answer (packetOf h.tag h.client .planStop) 0) := by
  rw [exec_carried rfl k, hostRun_planStop]
  unfold State.hostPlanStop
  rw [if_pos hsp]

theorem exec_planStop_running {h : Hdr} (k : Carried s h .planStop) (hsp : (s.atHost h).bond.startPending = false)
    (hst : (s.atHost h).bond.st = .running) :
    exec (.planStop h) s =
      .next (((s.atHost h).updBond (fun b => { b with st := .stopping })).answer (packetOf h.tag h.client .planStop) 0) := by
  rw [exec_carried rfl k, hostRun_planStop]
  unfold State.hostPlanStop
  rw [hsp, hst]
  rfl

theorem State.ctxCloseSet_quiet {c : Nat} : Quiet s (s.ctxCloseSet c) :=
  Quiet.of_onlyIn (m := [.mem, .mt, .stream]) (State.updStream_only (by decide) (State.ctxSetRes_only (by decide)
    (State.ctxSetFlag_only (by decide) (OnlyIn.refl _ s))))

theorem State.seqClose_quiet {q : Nat} : Quiet s (s.seqClose q) :=
  Quiet.of_onlyIn (m := [.mem, .mt, .kv]) (State.seqSt_only (by decide) (State.seqReset_only (by decide) (OnlyIn.refl _ s)))

/-- A move given up is counted and raised (R303). -/
theorem State.abortMove_quiet {n : Nat} : Quiet s (s.abortMove n) := by
  unfold State.abortMove
  split
  · extract_lets x
    have hx : OnlyIn [.mt] s x := State.updMt_only (by decide) (OnlyIn.refl _ s)
    clear_value x
    refine Quiet.trans (Quiet.of_onlyIn (m := [.mem, .mt, .regs]) ?_) Quiet.raise
    exact State.bump_only (by decide) (State.pteSet_only (by decide) (hx.mono (by decide)))
  · exact Quiet.refl s

theorem State.unmapPage_quiet {n : Nat} : Quiet s (s.unmapPage n) :=
  State.abortMove_quiet.trans (Quiet.of_onlyIn (m := [.mem, .mt]) (State.pteSet_only (by decide) (OnlyIn.refl _ _)))

theorem Quiet.ite {v w : State} {c : Prop} [Decidable c] (h : Quiet s v) (k : Quiet s w) : Quiet s (if c then v else w) := by
  split
  · exact h
  · exact k

/-- What closing a plan's contexts, sequences and pages does queues no reply. -/
theorem State.planClose_quiet {p : Plan} : Quiet s (s.planClose p) := by
  unfold State.planClose
  extract_lets x y
  have hx : Quiet s x := Quiet.each fun _ _ => Quiet.ite State.ctxCloseSet_quiet (Quiet.refl _)
  have hy : Quiet x y := Quiet.each fun _ _ => Quiet.ite State.seqClose_quiet (Quiet.refl _)
  exact (hx.trans hy).trans (Quiet.each fun _ _ => Quiet.each fun _ _ => Quiet.ite State.unmapPage_quiet (Quiet.refl _))

theorem State.planDrop_quiet : Quiet s s.planDrop := by
  unfold State.planDrop
  extract_lets x
  have hx : Quiet s x := by
    subst x
    split
    · exact State.planClose_quiet
    · exact Quiet.refl s
  exact hx.trans (Quiet.of_onlyIn (m := [.bond]) (State.updBond_only (by decide) (OnlyIn.refl _ x)))

theorem exec_planUnload {h : Hdr} (k : Carried s h .planUnload) (hp : (s.atHost h).planRuns = false) :
    exec (.planUnload h) s = .next ((s.atHost h).planDrop.answer (packetOf h.tag h.client .planUnload) 0) := by
  rw [exec_carried rfl k, hostRun_planUnload]
  unfold State.hostPlanUnload
  rw [hp]
  rfl

/-! ### The end of a plan's last graph (R339) -/

/-- A die pair that ran the plan is ready again. -/
def Die.ended (x : Die) : Die := { x with st := if x.st == .running then .ready else x.st }

theorem Die.ended_ended (x : Die) : x.ended.ended.st = x.ended.st := by
  unfold Die.ended
  cases x.st <;> rfl

theorem State.updDie_dieAt {d e : Nat} {f : Die → Die} (hd : d < s.die.length) :
    (s.updDie e f).dieAt d = if e = d then f (s.dieAt d) else s.dieAt d := by
  unfold State.dieAt
  by_cases he : e = d
  · subst he
    rw [if_pos rfl]
    exact lget_lmod_self hd
  · rw [if_neg he]
    exact lget_lmod_ne (Ne.symm he)

/-- Each die pair of a list is ready again, once it has been its turn. -/
theorem State.each_ended {d : Nat} {l : List Nat} (hd : d < s.die.length) :
    ((s.each l (fun s e => s.updDie e Die.ended)).dieAt d).st = if d ∈ l then (s.dieAt d).ended.st else (s.dieAt d).st := by
  unfold State.each
  induction l generalizing s with
  | nil => rfl
  | cons e l ih =>
    have hlen : d < (s.updDie e Die.ended).die.length := by
      simpa [State.updDie] using hd
    rw [List.foldl_cons, ih hlen, State.updDie_dieAt hd]
    by_cases he : e = d
    · subst he
      simp [Die.ended_ended]
    · simp [he, Ne.symm he]

/-- A core that is switched on or off leaves the state of its die pair. -/
theorem State.coreClear_st {d e p : Nat} : ((s.coreClear e p).dieAt d).st = (s.dieAt d).st := by
  have hz : (s.zero (memKey (spCore e p) 0) 0x200000).die = s.die := rfl
  unfold State.coreClear State.updCore State.updDie State.dieAt
  rw [hz]
  show (lget {} (lmod s.die e _) d).st = (lget {} s.die d).st
  simp only [lget, lmod, List.getD_eq_getElem?_getD, List.getElem?_modify]
  cases s.die[d]? with
  | none => rfl
  | some x =>
    by_cases he : e = d
    · simp [he]
    · simp [he]

theorem State.each_st {α : Type} {l : List α} {f : State → α → State} {d : Nat} (hf : ∀ s x, ((f s x).dieAt d).st = (s.dieAt d).st) :
    ((s.each l f).dieAt d).st = (s.dieAt d).st := by
  unfold State.each
  induction l generalizing s with
  | nil => rfl
  | cons x l ih => exact ih.trans (hf s x)

theorem State.switchCores_st {old : State} {d : Nat} : ((s.switchCores old).dieAt d).st = (s.dieAt d).st := by
  unfold State.switchCores
  refine State.each_st fun s e => State.each_st fun s p => ?_
  split
  · split
    · rfl
    · exact State.coreClear_st
  · rfl

/-- The plan is ADMITTED again, and its die pairs are ready. -/
def State.planEnded (s : State) : State :=
  (s.updBond (fun b => { b with st := .admitted, resume := [], resumed := [] })).each s.dies (fun s d => s.updDie d Die.ended)

theorem exec_planStopDone {t : Nat} (hst : (s.to t).bond.st = .stopping) (hg : ∀ g ∈ (s.to t).bond.graphs, g.client ≠ 15) :
    exec (.planStopDone t) s = .next ((s.to t).planEnded.switchCores (s.to t)) := by
  have hnone : (s.to t).bond.graphs.any (fun g => g.client == 15) = false := by simpa using hg
  have hgo : ((s.to t).bond.st == .stopping && !(s.to t).bond.graphs.any (fun g => g.client == 15)) = true := by
    rw [hst, hnone]
    rfl
  show execPlanStopDone t s = _
  exact congrArg _ (if_pos hgo)

theorem State.planEnded_bond : s.planEnded.bond = { s.bond with st := .admitted, resume := [], resumed := [] } :=
  (State.each_only (m := [.die]) (OnlyIn.refl _ (s.updBond _)) fun _ _ hs => State.updDie_only (by decide) hs).eq .bond

theorem State.planEnded_st {d : Nat} (hm : d ∈ s.dies) (hd : d < s.die.length) : (s.planEnded.dieAt d).st = (s.dieAt d).ended.st :=
  (State.each_ended (s := s.updBond _) hd).trans (if_pos hm)

theorem State.switchCores_bond {old : State} : (s.switchCores old).bond = s.bond := by
  refine OnlyIn.eq (m := [.mem, .die, .mt]) ?_ .bond
  unfold State.switchCores
  refine State.each_only (OnlyIn.refl _ s) fun _ _ hs => State.each_only hs fun _ _ hs => ?_
  split
  · exact only_ite hs (State.coreClear_only (by decide) hs)
  · exact hs

/-! ### Re-admission (R357) -/

/-- READMIT of BOND_CMD is answered OK. -/
theorem exec_readmit {h : Hdr} (k : Written s h 0x7000C 1) :
    exec (.readmit h) s = .next ((s.atHost h).readmit.reply (packetOf h.tag h.client (.regWrite [(wordOf 0x7000C, wordOf 1)])) 0 (leBytes 4 1)) := by
  have hv : partVal s.part 0x7000C (wordOf 1) = wordOf 1 := by simp [partVal]
  show s.regCmd h 0x7000C 1 = _
  exact State.regCmd_cmd k rfl rfl rfl rfl hv rfl

/-- The figures of a plan in the variants it has now, as the spares have moved them. -/
def State.readmitFigures (s : State) (p : Plan) : Admission :=
  s.figures p (s.bond.adm.variants.map (fun v => ((List.range v.length).zip v).map (fun (d, x) => s.moveVar p d x)))

/-- What the end of a re-admission makes of the Bond. -/
def Bond.readmittedWith (b : Bond) (a : Admission) : Bond :=
  { b with readmitting := b.readmitAgain, readmitAgain := false, readmitted := some a }

/-- The re-admission that ends has its figures, and begins again where another was asked for. -/
theorem State.readmitDone_bond {p : Plan} : (s.readmitDone p).bond = s.bond.readmittedWith (s.readmitFigures p) := by
  unfold State.readmitDone
  extract_lets old was vs lost a x y
  have hy : y.bond = x.bond := by
    subst y
    split
    · exact State.raise_bond
    · rfl
  split
  · rw [State.raise_bond, hy]
    rfl
  · rw [hy]
    rfl

theorem State.readmitDone_quiet {p : Plan} : Quiet s (s.readmitDone p) := by
  unfold State.readmitDone
  extract_lets old was vs lost a x y
  have hx : Quiet s x := ⟨rfl, rfl⟩
  have hy : Quiet x y := Quiet.ite Quiet.raise (Quiet.refl x)
  exact (hx.trans hy).trans (Quiet.ite Quiet.raise (Quiet.refl y))

section
variable {t : Nat} {p : Plan} (hp : (s.to t).bond.plan = some p) (hr : (s.to t).bond.readmitting = true)
include hp hr

theorem exec_readmitDone_again (ha : (s.to t).bond.readmitAgain = true) :
    exec (.readmitDone t) s = .next ((s.to t).readmitDone p) := by
  have hb := (s.to t).readmitDone_bond (p := p)
  have hbegun : ((s.to t).readmitDone p).bond.readmitting = true := by rw [hb]; exact ha
  show execReadmitDone t s = _
  unfold execReadmitDone
  simp only [hp, guardNext, hr, if_true, hbegun]

/-- Where nothing waits for its end, a re-admission does nothing more. -/
theorem exec_readmitDone_ends (ha : (s.to t).bond.readmitAgain = false) (hw : (s.to t).sdio.waiting = none)
    (hq : (s.to t).sdio.cmdBuf = []) : exec (.readmitDone t) s = .next ((s.to t).readmitDone p) := by
  have hb := (s.to t).readmitDone_bond (p := p)
  have hended : ((s.to t).readmitDone p).bond.readmitting = false := by rw [hb]; exact ha
  have hquiet : Quiet (s.to t) ((s.to t).readmitDone p) := State.readmitDone_quiet
  show execReadmitDone t s = _
  unfold execReadmitDone
  simp only [hp, guardNext, hr, if_true, hended, hquiet.waiting.trans hw, State.pump, hquiet.cmdBuf.trans hq, List.length_nil,
    State.pumpN, Bool.false_eq_true, if_false]

end

/-- Settles O33: each clause is the law of one command or event of a plan above. -/
theorem plansAreLoadedAdmittedAndRun : Obligations.PlansAreLoadedAdmittedAndRun := by
  intro t h s u y
  refine ⟨?load, ?place, fun _ => ⟨rfl, rfl, rfl⟩, ?admits, ?done, ?start, ?stop, ?stopDone, ?unload, ?readmit, ?readmitDone⟩
  case load =>
    intro len digest k hp hl hr
    obtain ⟨hcnt, hbond, hreplies⟩ := State.bulkIn_waits hl hr (p := packetOf h.tag h.client (.planLoad len digest))
    exact ⟨_, exec_planLoad k hp, hcnt, hbond, hreplies⟩
  case place =>
    exact fun img dg p hp => ⟨State.planPlace_outside, State.planPlace_withdrawn hp, State.planPlace_badPin hp⟩
  case admits => exact fun k hp hst hr => ⟨_, exec_planAdmit k hp hst hr, rfl, rfl⟩
  case done =>
    intro d p hd hc hst hsp hr hp
    have hbond : (y.admissionEnds d).bond = y.bond.admitted (y.admission p) := State.admissionEnds_bond hp
    have hevent := State.admissionEnds_event (d := d) hp
    have hreplies := State.admissionEnds_replies (d := d) hp hr
    refine ⟨_, exec_admissionDone hd hc hst hsp, State.admissionEnds_deferred, congrArg Bond.adm hbond, fun hgood => ?_, fun hbad => ?_⟩
    · have hst' : (y.admissionEnds d).bond.st = .admitted := (congrArg Bond.st hbond).trans (if_pos hgood)
      rw [if_pos hgood] at hreplies
      rw [if_pos (beq_iff_eq.2 hgood)] at hevent
      exact ⟨hst', hevent, hreplies⟩
    · have hst' : (y.admissionEnds d).bond.st = .loaded := (congrArg Bond.st hbond).trans (if_neg hbad)
      rw [if_neg hbad] at hreplies
      rw [if_neg (fun e => hbad (beq_iff_eq.1 e))] at hevent
      exact ⟨hst', hevent, hreplies⟩
  case start =>
    intro k hst hsp
    exact ⟨_, exec_planStart k hst hsp, bond_answered k⟩
  case stop =>
    exact fun k => ⟨fun hsp => ⟨_, exec_planStop_pending k hsp, bond_answered k⟩,
      fun hsp hst => ⟨_, exec_planStop_running k hsp hst, bond_answered k⟩⟩
  case stopDone =>
    intro hst hg
    have hbond := (State.switchCores_bond (old := y)).trans (State.planEnded_bond (s := y))
    refine ⟨_, exec_planStopDone hst hg, congrArg Bond.st hbond, (congrArg Bond.graphs hbond :), fun d hd hlen hrun => ?_⟩
    rw [State.switchCores_st, State.planEnded_st hd hlen]
    exact if_pos (beq_iff_eq.2 hrun)
  case unload =>
    intro k hp
    have hbond := (State.answer_in (s := (s.atHost h).planDrop) (p := packetOf h.tag h.client .planUnload) (n := 0) (l := [])
      (by decide)).eq .bond
    exact ⟨_, exec_planUnload k hp, congrArg Bond.st hbond, congrArg Bond.plan hbond,
      replied_of_answer k State.planDrop_quiet.replies State.planDrop_quiet.resetAt (by decide)⟩
  case readmit =>
    refine fun k => ⟨fun hst => ⟨_, exec_readmit k, State.reply_bond.trans ?_⟩, fun hst => ⟨_, exec_readmit k, State.reply_bond.trans ?_⟩⟩
    · exact congrArg State.bond (if_pos (beq_iff_eq.2 hst))
    · exact congrArg State.bond (if_neg (fun e => hst (beq_iff_eq.1 e)))
  case readmitDone =>
    intro p hp hr
    have hb : (y.readmitDone p).bond = y.bond.readmittedWith (y.readmitFigures p) := State.readmitDone_bond
    refine ⟨fun ha => ⟨_, exec_readmitDone_again hp hr ha, ?_, ?_, ?_⟩, fun ha hw hq => ⟨_, exec_readmitDone_ends hp hr ha hw hq, ?_, ?_⟩⟩
    · rw [hb]
      exact ha
    · rw [hb]
      rfl
    · rw [hb]
      exact Option.some_ne_none _
    · rw [hb]
      exact ha
    · rw [hb]
      exact Option.some_ne_none _

end Sys2Proof.Machine
end

section
/-!
The stores (R12, R145): bytes that are written are read, and every other byte keeps its value; a task of an epoch sees as many bytes
as it reads.
-/
namespace Sys2Proof.Machine

/-! ### A read after a write -/

theorem tget_memPuts_outside {m : List (Nat × Byte)} {k a : Nat} {bs : List Byte} (h : ∀ j < bs.length, a ≠ k + j) :
    tget memDefault (memPuts m k bs) a = tget memDefault m a := by
  induction bs generalizing m k with
  | nil => rfl
  | cons b bs ih =>
    have hrest : ∀ j < bs.length, a ≠ k + 1 + j := fun j hj => by
      have := h (j + 1) (Nat.succ_lt_succ hj)
      omega
    exact (ih hrest).trans (tget_tset_ne memDefault m k a b (h 0 (Nat.zero_lt_succ _)))

theorem tget_memPuts_inside {m : List (Nat × Byte)} {k j : Nat} {bs : List Byte} (hj : j < bs.length) :
    tget memDefault (memPuts m k bs) (k + j) = bs[j] := by
  induction bs generalizing m k j with
  | nil => exact nomatch hj
  | cons b bs ih =>
    cases j with
    | zero =>
      show tget memDefault (memPuts (memPut m k b) (k + 1) bs) k = b
      exact (tget_memPuts_outside fun j _ => by omega).trans (tget_tset_self memDefault m k b)
    | succ j =>
      rw [← Nat.succ_add_eq_add_succ]
      exact ih (Nat.lt_of_succ_lt_succ hj)

variable {s v : State} {k n : Nat} {bs : List Byte}

@[simp] theorem State.ldBytes_length : (s.ldBytes k n).length = n := by
  induction n generalizing k with
  | zero => rfl
  | succ n ih => exact congrArg (· + 1) ih

theorem State.ldBytes_getElem {j : Nat} (hj : j < (s.ldBytes k n).length) : (s.ldBytes k n)[j] = s.ldB (k + j) := by
  induction n generalizing k j with
  | zero => exact nomatch hj
  | succ n ih =>
    cases j with
    | zero => rfl
    | succ j => exact (ih (Nat.lt_of_succ_lt_succ hj)).trans (congrArg s.ldB (Nat.succ_add_eq_add_succ k j))

/-- A write leaves every byte outside it alone. -/
theorem State.stBytes_ldB_outside {a : Nat} (h : ∀ j < bs.length, a ≠ k + j) : (s.stBytes k bs).ldB a = s.ldB a :=
  tget_memPuts_outside h

/-- The bytes written are read. -/
theorem State.stBytes_ldBytes : (s.stBytes k bs).ldBytes k bs.length = bs :=
  List.ext_getElem State.ldBytes_length fun _ hj hb => (State.ldBytes_getElem hj).trans (tget_memPuts_inside hb)

/-- Bytes that read alike one by one read alike together. -/
theorem State.ldBytes_congr (h : ∀ a, v.ldB a = s.ldB a) : v.ldBytes k n = s.ldBytes k n :=
  List.ext_getElem (by simp) fun j hv hs => by rw [State.ldBytes_getElem hv, State.ldBytes_getElem hs, h]

/-! ### The core store of a slot -/

/-- The bytes of a range of the core store have the keys from its first one on. -/
theorem State.csKey_add {d i a j : Nat} (h : a + j < 0x200000) : s.csKey d i (a + j) = s.csKey d i a + j := by
  unfold State.csKey memKey
  rw [Nat.mod_eq_of_lt h, Nat.mod_eq_of_lt (by omega), Nat.add_assoc]

/-! ### What a task of an epoch sees -/

/-- What a later epoch has overwritten is seen byte for byte. -/
theorem State.epochBytes_length {e : Nat} : (s.epochBytes e k n).length = n := by
  unfold State.epochBytes
  refine List.foldlRecOn (motive := fun l : List Byte => l.length = n) _ _ State.ldBytes_length fun l hl p _ => ?_
  exact List.foldlRecOn (motive := fun l : List Byte => l.length = n) _ _ hl fun _ _ q _ => by simp

section
variable {m : List Block} (h : OnlyIn m s v)
include h

theorem OnlyIn.live (hd : Block.die ∉ m := by decide) (d i : Nat) : v.live d i = s.live d i := by
  unfold State.live
  rw [h.runAt hd]

theorem OnlyIn.csKey (hd : Block.die ∉ m := by decide) (d i a : Nat) : v.csKey d i a = s.csKey d i a := by
  have hdie : v.die = s.die := h .die hd
  unfold State.csKey State.coreOf State.slotAt State.dieAt
  rw [hdie]

theorem OnlyIn.epochBytes (hm : Block.mem ∉ m := by decide) (ha : Block.adapt ∉ m := by decide) (e k n : Nat) :
    v.epochBytes e k n = s.epochBytes e k n := by
  have hadapt : v.adapt = s.adapt := h .adapt ha
  unfold State.epochBytes
  rw [hadapt, State.ldBytes_congr (h.ldB hm)]

end

/-! ### Reads where no bit is flipped (R287) -/

section
variable (h : s.mt.flips = [])
include h

theorem State.eccRead_unflipped : s.eccRead k n = (s, false) := by
  simp [State.eccRead, State.flipsIn, h]

theorem State.csReads_unflipped {d i : Nat} {l : List (Nat × Nat)} : s.csReads d i l = s := by
  simp [State.csReads, State.each, h]

end

end Sys2Proof.Machine
end

section
/-!
The chains of the tile movers (R308, R309): what carrying out the descriptor of a running chain comes to, the operation of each of the
six commands, and the bytes a plain COPY moves.
-/
namespace Sys2Proof.Machine

/-! ### The descriptor a chain stands at -/

/-- Where two steps in a row succeed, the second has succeeded. -/
theorem ok_of_bind {ε α β : Type} {x : Except ε α} {f : α → Except ε β} {b : β} (h : x >>= f = .ok b) : ∃ a, f a = .ok b := by
  cases x with
  | error e => exact nomatch h
  | ok a => exact ⟨a, h⟩

/-- The operation of a descriptor is its first byte. -/
theorem State.moveDesc_op {s : State} {d i addr : Nat} {r : RunTask} {m : MoveDesc} (h : s.moveDesc d i addr r = .ok m) :
    m.op = s.cs d i addr 1 := by
  unfold State.moveDesc at h
  extract_lets f op b1 unit conv src dst late usesRec tile built at h
  iterate 5 obtain ⟨_, h⟩ := ok_of_bind h
  have hbuilt (rc : TensorRec) (hrc : built rc = .ok m) : m.op = s.cs d i addr 1 := congrArg MoveDesc.op (Except.ok.inj hrc).symm
  split at h
  · obtain ⟨rc, h⟩ := ok_of_bind h
    exact hbuilt rc h
  · exact hbuilt rawRec h

section
variable {s : State} {d i addr op k : Nat} {c : ChainRun} {r q : RunTask} {m : MoveDesc}
  {f : State → RunTask → MoveDesc → State × Option TaskOut}
  (hk : r.chainAt addr = some (k, c)) (hop : s.cs d i addr 1 % 16 = op)
include hk hop

/-- An uncorrectable word of the descriptor has failed the task (R125). -/
theorem State.moverRun_lost (hl : (s.csReads d i [(addr, 64)]).live d i = none) :
    s.moverRun d i addr op r f = s.csReads d i [(addr, 64)] := by
  simp [State.moverRun, hk, hop, hl]

variable (hq : (s.csReads d i [(addr, 64)]).live d i = some q)
include hq

/-- A descriptor outside its ranges ends the task (R187). -/
theorem State.moverRun_refused {o : TaskOut} (ho : (s.csReads d i [(addr, 64)]).moveDesc d i addr q = .error o) :
    s.moverRun d i addr op r f = (s.csReads d i [(addr, 64)]).finish d i o := by
  simp [State.moverRun, hk, hop, hq, ho]

variable (hm : (s.csReads d i [(addr, 64)]).moveDesc d i addr q = .ok m)
include hm

/-- A descriptor with FENCE waits for the bursts of those before it. -/
theorem State.moverRun_waits (hf : m.fence = true) (hb : (s.csReads d i [(addr, 64)]).burstsWait d i = true) :
    s.moverRun d i addr op r f = s.csReads d i [(addr, 64)] := by
  simp [State.moverRun, hk, hop, hq, hm, hf, hb]

variable (hb : (m.fence && (s.csReads d i [(addr, 64)]).burstsWait d i) = false)
include hb

/-- An empty descriptor moves nothing, and its chain goes on. -/
theorem State.moverRun_empty (he : m.empty = true) :
    s.moverRun d i addr op r f = (s.csReads d i [(addr, 64)]).chainNext d i k c m.last := by
  simp [State.moverRun, hk, hop, hq, hm, hb, he]

variable (he : m.empty = false) {w : State}
include he

/-- An access that fails ends the task. -/
theorem State.moverRun_failed {o : TaskOut} (hw : f (s.csReads d i [(addr, 64)]) q m = (w, some o)) :
    s.moverRun d i addr op r f = w.finish d i o := by
  simp [State.moverRun, hk, hop, hq, hm, hb, he, hw]

/-- A descriptor that has moved its data has changed words that race with the task's reads (R186), and its chain goes on; an
uncorrectable word of what it read has failed the task. -/
theorem State.moverRun_moved (hw : f (s.csReads d i [(addr, 64)]) q m = (w, none)) :
    s.moverRun d i addr op r f =
      if w.live d i = none then w else ((w.races (s.csReads d i [(addr, 64)]) d i k m.words).moves d i).chainNext d i k c m.last := by
  simp [State.moverRun, hk, hop, hq, hm, hb, he, hw]

end

/-! ### The rows of the operations -/

/-- The commands of the six operations, each with the operation its descriptor names and what moves its data. -/
def moverRows (t d i addr : Nat) : List (Instr × Nat × (State → RunTask → MoveDesc → State × Option TaskOut)) := [
  (.copy t d i addr, 1, fun s r m => s.mvCopy d i r m), (.blockedToPlanar t d i addr, 2, fun s r m => s.mvToPlanar d i r m 1),
  (.phaseSplit t d i addr, 3, fun s r m => s.mvToPlanar d i r m m.phase),
  (.planarToBlocked t d i addr, 4, fun s r m => s.mvToBlocked d i r m),
  (.rowGather t d i addr, 5, fun s r m => s.mvGather d i r m), (.fill t d i addr, 6, fun s r m => s.mvFill d i r m)]

section
variable {t d i addr : Nat} {s : State} {r : RunTask} (h : (s.to t).live d i = some r) (hc : (s.to t).changing = none)
include h hc

/-- A command that is a tile-mover operation carries out its descriptor on the task that goes on. -/
theorem exec_mover {c : Instr} {op : Nat} {f : State → RunTask → MoveDesc → State × Option TaskOut}
    (he : exec c s = onMove t d i addr op s f) : exec c s = .next ((s.to t).moverRun d i addr op r f) :=
  he.trans (onTask_runs h hc)

/-- Each operation's descriptor is carried out alike. -/
theorem exec_moverRows : ∀ x ∈ moverRows t d i addr, exec x.1 s = .next ((s.to t).moverRun d i addr x.2.1 r x.2.2) := by
  simp only [moverRows, List.forall_mem_cons]
  exact ⟨exec_mover h hc rfl, exec_mover h hc rfl, exec_mover h hc rfl, exec_mover h hc rfl, exec_mover h hc rfl, exec_mover h hc rfl,
    fun _ hx => nomatch hx⟩

end

/-! ### A plain COPY of one unit -/

/-- A COPY of one unit from the Lintel store into the core store, both ends inside their stores, with no directory and no side
lists. -/
structure MoveDesc.PlainUnit (m : MoveDesc) : Prop where
  fromLintel : m.srcSp = 1
  toCore : m.dstSp = 0
  one : m.count = 1
  raw : m.dir = false
  sideless : m.side = false
  srcFits : m.src + m.w ≤ 0x10000000
  dstFits : m.dst + m.w ≤ 0x200000

section
variable {s : State} {d i : Nat} {r : RunTask} {m : MoveDesc}

theorem MoveDesc.PlainUnit.units (hm : m.PlainUnit) : m.units = [(m.src, m.dst)] := by
  simp [MoveDesc.units, hm.one]

theorem MoveDesc.PlainUnit.not_packed (hm : m.PlainUnit) : m.packed = false := by
  simp [MoveDesc.packed, hm.raw]

theorem State.moved_in {sp a n : Nat} : OnlyIn [.bond] s (s.moved d sp a n r) := State.moved_only (by decide) (OnlyIn.refl _ s)

/-- A read of the Lintel store where no bit is flipped gives what the task's epoch sees (R145). -/
theorem State.spRead_lintel {a n : Nat} (h : s.mt.flips = []) (ha : a + n ≤ 0x10000000) :
    s.spRead d i r 1 a n = (s.moved d 1 a n r, .ok (s.epochBytes r.epoch (memKey (spLintel d) a) n)) := by
  have hmoved : OnlyIn [.bond] s (s.moved d 1 a n r) := State.moved_in
  have hflips : (s.moved d 1 a n r).mt.flips = [] := (congrArg MemTier.flips (hmoved.eq .mt)).trans h
  have hsp : spOk 1 false a n = true := by simp [spOk, ha]
  simp [State.spRead, hsp, State.eccRead_unflipped hflips, hmoved.epochBytes]

theorem State.spWrite_core {a : Nat} {bs : List Byte} (ha : a + bs.length ≤ 0x200000) :
    s.spWrite d i r 0 a bs = (s.csSt d i a bs, none) := by
  have hsp : spOk 0 true a bs.length = true := by simp [spOk, ha]
  simp [State.spWrite, hsp, State.moved]

/-- The state a plain unit leaves: its bytes counted for the task's client, and stored in the core store. -/
def State.unitCopied (s : State) (d i : Nat) (r : RunTask) (m : MoveDesc) : State :=
  (s.moved d 1 m.src m.w r).csSt d i m.dst (s.epochBytes r.epoch (memKey (spLintel d) m.src) m.w)

/-- A plain unit is copied whole, where its rows of the capture rings can still be read (R94). -/
theorem State.mvCopy_plainUnit (hm : m.PlainUnit) (h : s.mt.flips = [])
    (hr : (ringRows m.src m.w).any (fun p => s.ringOld p.1 p.2) = false) : s.mvCopy d i r m = (s.unitCopied d i r m, none) := by
  have hsrc : spOk 1 false m.src m.w = true := by simp [spOk, hm.srcFits]
  have hdst : spOk 0 true m.dst m.w = true := by simp [spOk, hm.dstFits]
  have hwrite := State.spWrite_core (s := s.moved d 1 m.src m.w r) (d := d) (i := i) (r := r) (a := m.dst)
    (bs := s.epochBytes r.epoch (memKey (spLintel d) m.src) m.w) (by rw [State.epochBytes_length]; exact hm.dstFits)
  simp [State.mvCopy, State.unlessOld, mvEach, mvThen, hm.units, hm.not_packed, hm.fromLintel, hm.toCore, hm.raw, hm.sideless, hsrc, hdst,
    hr, State.spRead_lintel h hm.srcFits, hwrite, State.unitCopied, hm.one]

theorem State.unitCopied_in : OnlyIn [.mem, .mt, .bond] s (s.unitCopied d i r m) :=
  State.csSt_only (by decide) (State.moved_in.mono (by decide))

/-- The core store takes the bytes of a unit, and no other byte changes. -/
theorem State.unitCopied_stores (hm : m.PlainUnit) :
    (s.unitCopied d i r m).ldBytes (s.csKey d i m.dst) m.w = s.epochBytes r.epoch (memKey (spLintel d) m.src) m.w ∧
      ∀ key, (∀ j, j < m.w → key ≠ s.csKey d i (m.dst + j)) → (s.unitCopied d i r m).ldB key = s.ldB key := by
  have hmoved : OnlyIn [.bond] s (s.moved d 1 m.src m.w r) := State.moved_in
  have hlen : (s.epochBytes r.epoch (memKey (spLintel d) m.src) m.w).length = m.w := State.epochBytes_length
  unfold State.unitCopied State.csSt
  rw [hmoved.csKey]
  refine ⟨?stored, fun key hkey => ?other⟩
  case stored =>
    have hst := State.stBytes_ldBytes (s := s.moved d 1 m.src m.w r) (k := s.csKey d i m.dst)
      (bs := s.epochBytes r.epoch (memKey (spLintel d) m.src) m.w)
    rwa [hlen] at hst
  case other =>
    refine (State.stBytes_ldB_outside fun j hj => ?_).trans (hmoved.ldB (by decide) key)
    rw [hlen] at hj
    have hfits := hm.dstFits
    exact State.csKey_add (s := s) (d := d) (i := i) (show m.dst + j < 0x200000 by omega) ▸ hkey j hj

end

/-- A unit that has been copied has changed words that race with the task's reads, and its chain goes on. -/
def State.unitEnds (s : State) (d i k : Nat) (r : RunTask) (c : ChainRun) (m : MoveDesc) : State :=
  (((s.unitCopied d i r m).races s d i k m.words).moves d i).chainNext d i k c m.last

/-- The end of a descriptor changes only the task. -/
theorem State.unitEnds_in {s : State} {d i k : Nat} {r : RunTask} {c : ChainRun} {m : MoveDesc} :
    OnlyIn [.die] (s.unitCopied d i r m) (s.unitEnds d i k r c m) := by
  unfold State.unitEnds State.races State.moves
  exact State.chainNext_only (by decide) (State.updRun_only (by decide) (State.updRun_only (by decide) (OnlyIn.refl _ _)))

/-- COPY carries out a plain unit. -/
theorem exec_copy_plainUnit {t d i addr k : Nat} {s : State} {r : RunTask} {c : ChainRun} {m : MoveDesc}
    (h : (s.to t).live d i = some r) (hc : (s.to t).changing = none) (hk : r.chainAt addr = some (k, c))
    (hm : (s.to t).moveDesc d i addr r = .ok m) (hcopy : m.op = 1) (hfence : m.fence = false) (hunit : m.PlainUnit)
    (hflips : (s.to t).mt.flips = []) (hr : (ringRows m.src m.w).any (fun p => (s.to t).ringOld p.1 p.2) = false) :
    exec (.copy t d i addr) s = .next ((s.to t).unitEnds d i k r c m) := by
  have hop : (s.to t).cs d i addr 1 % 16 = 1 := by rw [← State.moveDesc_op hm, hcopy]
  have hempty : m.empty = false := by simp [MoveDesc.empty, hunit.one, hcopy]
  have hread : (s.to t).csReads d i [(addr, 64)] = s.to t := State.csReads_unflipped hflips
  have hlive : ((s.to t).unitCopied d i r m).live d i = some r := (State.unitCopied_in.live (by decide) d i).trans h
  have hrun := State.moverRun_moved (f := fun s r m => s.mvCopy d i r m) hk hop (q := r) (m := m) (by rw [hread, h])
    (by rw [hread, hm]) (by rw [hfence, Bool.false_and]) hempty (by rw [hread]; exact State.mvCopy_plainUnit hunit hflips hr)
  rw [exec_mover h hc rfl, hrun, hread, if_neg (by simp [hlive])]
  rfl

/-- Settles O26: every row carries its descriptor out alike, and the laws of `State.moverRun` say what that comes to; a plain unit is
what `State.unitCopied` stores, which the end of its descriptor leaves in the stores. -/
theorem chainDescriptorsRunInOrder : Obligations.ChainDescriptorsRunInOrder := by
  intro t d i addr s r k c u rows y h hc hk
  refine ⟨fun x hx hop => ?row, fun m hm hcopy hsrc hdst hone hdir hside hfence hsrcFits hdstFits hflips hr => ?copy⟩
  case row =>
    rw [exec_moverRows h hc x hx]
    refine ⟨fun hl => congrArg _ (State.moverRun_lost hk hop hl), fun q hq => ⟨fun o ho => ?_, fun m hm => ⟨fun hf hb => ?_, fun hb => ?_⟩⟩⟩
    · exact congrArg _ (State.moverRun_refused hk hop hq ho)
    · exact congrArg _ (State.moverRun_waits hk hop hq hm hf hb)
    · refine ⟨fun he => congrArg _ (State.moverRun_empty hk hop hq hm hb he), fun he => ⟨fun w o hw => ?_, fun w hw => ?_⟩⟩
      · exact congrArg _ (State.moverRun_failed hk hop hq hm hb he hw)
      · exact congrArg _ (State.moverRun_moved hk hop hq hm hb he hw)
  case copy =>
    have hunit : m.PlainUnit := ⟨hsrc, hdst, hone, hdir, hside, hsrcFits, hdstFits⟩
    refine ⟨_, exec_copy_plainUnit h hc hk hm hcopy hfence hunit hflips hr, ?_⟩
    have hrest := State.unitEnds_in (s := u) (d := d) (i := i) (r := r) (k := k) (c := c) (m := m)
    obtain ⟨hstored, hother⟩ := State.unitCopied_stores (s := u) (d := d) (i := i) (r := r) hunit
    exact ⟨(State.ldBytes_congr (hrest.ldB (by decide))).trans hstored, fun key hkey => (hrest.ldB (by decide) key).trans (hother key hkey)⟩

end Sys2Proof.Machine
end

section
/-!
EVICTION_DONE (R218) where the slot of context `c` is claimed by the number `c + 2^18`. Contexts are numbered 0 to 2¹⁸ - 1 (R211), and the
model finds an entry by the low 18 bits of the number, so that this number names the entry of `c` itself. The statement bounds the context
that is evicted but not the one that claims its slot, and so asks of one entry that it be both SWAPPED and SWAPPING_IN.
-/
namespace Sys2Proof.Machine

/-- Two numbers of equal low 18 bits name one entry of the stream table. -/
theorem State.ctxRes_add {s : State} {c : Nat} : s.ctxRes (c + 2 ^ 18) = s.ctxRes c := by
  have hdie : ctxDie (c + 2 ^ 18) = ctxDie c := by
    unfold ctxDie
    omega
  have hoff : ctxOff (c + 2 ^ 18) = ctxOff c := by
    unfold ctxOff
    omega
  simp only [State.ctxRes, State.ctx, hdie, hoff]

/-- EVICTION_DONE ends the eviction of a context of its die pair that is SWAPPING_OUT. -/
theorem exec_evictionDone {s : State} {t d c : Nat} (hd : ctxDie c = d) (hr : (s.to t).ctxRes c = 3) :
    exec (.evictionDone t d c) s = .next (((s.to t).evictDone c).streamSettle d) := by
  show execEvictionDone t d c s = _
  simp [execEvictionDone, guardNext, hd, hr]

/-- Context 0 is being evicted from slot 0, which a swap-in of context number 2¹⁸ has claimed and still asks for. -/
def aliasClaim : State :=
  (State.reset.ctxSetRes 0 3).updStream 0 (fun x =>
    { x with slots := [(0, 0)], claims := [(0, 2 ^ 18)], reqs := [{ ctx := 2 ^ 18, at_ := 0, prio1 := true }] })

/-- The invariant of the model (O3) does not rule the state out. -/
theorem aliasClaim_meets_invariant :
    Registers.wf aliasClaim.part aliasClaim.regs ∧ Memory.wf aliasClaim.mem ∧ aliasClaim.Sized := by
  have kept : Keeps State.reset aliasClaim := State.updStream_keeps (State.ctxSetRes_keeps (Keeps.refl _))
  obtain ⟨hregs, hmem, hsized⟩ := reset_meets_invariant
  exact ⟨kept.regs hregs, kept.mem hmem, kept.sized hsized⟩

/-- The eviction of context 0 stands in the stream table, without DIRTY. -/
theorem aliasClaim_evicting :
    0 < (aliasClaim.to 0).stream.length ∧ (aliasClaim.to 0).ctxRes 0 = 3 ∧ (aliasClaim.to 0).ctxFlag 0 1 = false ∧
      ((aliasClaim.to 0).streamAt 0).slots.find? (fun p => p.1 == 0) = some (0, 0) := by decide +kernel

/-- The claim to its slot, and the request behind the claim. -/
theorem aliasClaim_claimed :
    ((aliasClaim.to 0).streamAt 0).claims.find? (fun p => p.1 == 0) = some (0, 2 ^ 18) ∧
      ((aliasClaim.to 0).streamAt 0).reqs.any (fun r => r.ctx == 2 ^ 18) = true := by decide +kernel

/-- The eviction done, the claimant swaps in. -/
theorem aliasClaim_served : (((aliasClaim.to 0).evictDone 0).streamSettle 0).ctxRes (2 ^ 18) = 1 := by decide +kernel

/-- The entry of context 0 is the claimant's, and so SWAPPING_IN. -/
theorem aliasClaim_not_swapped : (((aliasClaim.to 0).evictDone 0).streamSettle 0).ctxRes 0 = 1 :=
  State.ctxRes_add.symm.trans aliasClaim_served

/-- Refutes O28: the clause of a claimed slot says that the evicted context is SWAPPED after EVICTION_DONE, but in `aliasClaim` the
number that claims the slot is 2¹⁸ above it, and the swap-in marks their common entry SWAPPING_IN. -/
theorem not_streamContextsSwapAndObeyCommands : ¬ Obligations.StreamContextsSwapAndObeyCommands := by
  rintro ⟨swaps, _⟩
  obtain ⟨hlen, hres, hclean, hslot⟩ := aliasClaim_evicting
  obtain ⟨hclaim, hreq⟩ := aliasClaim_claimed
  obtain ⟨_, _, evictionDone⟩ := swaps 0 0 0 aliasClaim (by decide) hlen (by decide) rfl
  obtain ⟨_, _, claimed⟩ := evictionDone 0 0 hres hslot
  obtain ⟨v, hv, swapped, _⟩ := claimed (2 ^ 18) hclean hclaim (by decide) (by decide) hreq
  rw [exec_evictionDone (d := 0) rfl hres] at hv
  obtain rfl := Host.Outcome.next.inj hv
  rw [aliasClaim_not_swapped] at swapped
  exact absurd swapped (by decide)

end Sys2Proof.Machine
end

section
/-!
Numbers in the stores (R12): what a number reads that has been written, at the same place and beside it, and what a cleared range
leaves alone.
-/
namespace Sys2Proof.Machine

/-! ### The bytes of a number -/

@[simp] theorem leBytes_length {n v : Nat} : (leBytes n v).length = n := by
  induction n generalizing v with
  | zero => rfl
  | succ n ih => exact congrArg (· + 1) ih

/-- The number that the bytes of a number spell. -/
theorem leNat_leBytes {n v : Nat} : leNat (leBytes n v) = v % 256 ^ n := by
  induction n generalizing v with
  | zero => exact (Nat.mod_one v).symm
  | succ n ih =>
    have hbyte : (BitVec.ofNat 8 (v % 256)).toNat = v % 256 := by
      rw [BitVec.toNat_ofNat]
      exact Nat.mod_mod v 256
    rw [leBytes, leNat, ih, hbyte, Nat.pow_succ', Nat.mod_mul]

theorem leNat_leBytes_of_lt {n v : Nat} (h : v < 256 ^ n) : leNat (leBytes n v) = v :=
  leNat_leBytes.trans (Nat.mod_eq_of_lt h)

theorem leNat_lt {bs : List Byte} : leNat bs < 256 ^ bs.length := by
  induction bs with
  | nil => exact Nat.one_pos
  | cons b bs ih =>
    have hb : b.toNat < 256 := b.isLt
    rw [leNat, List.length_cons, Nat.pow_succ']
    omega

/-! ### Reading and writing -/

section
variable {s v : State} {k n : Nat} {bs : List Byte}

theorem State.ldN_lt : s.ldN k n < 256 ^ n := by
  have h : leNat (s.ldBytes k n) < 256 ^ (s.ldBytes k n).length := leNat_lt
  rwa [State.ldBytes_length] at h

/-- Numbers whose bytes read alike read alike. -/
theorem State.ldN_congr (h : ∀ j < n, v.ldB (k + j) = s.ldB (k + j)) : v.ldN k n = s.ldN k n := by
  have hbytes : v.ldBytes k n = s.ldBytes k n := List.ext_getElem (by simp) fun j hv hs => by
    rw [State.ldBytes_getElem hv, State.ldBytes_getElem hs, h j (by simpa using hv)]
  exact congrArg leNat hbytes

/-- A number inside a range that is written reads its part of the bytes. -/
theorem State.stBytes_ldN_inside {j : Nat} (h : j + n ≤ bs.length) : (s.stBytes k bs).ldN (k + j) n = leAt bs j n := by
  have hlen : ((bs.drop j).take n).length = n := by
    rw [List.length_take, List.length_drop]
    omega
  have hbytes : (s.stBytes k bs).ldBytes (k + j) n = (bs.drop j).take n := by
    refine List.ext_getElem (by rw [State.ldBytes_length, hlen]) fun i hv hb => ?_
    have hin : j + i < bs.length := by omega
    rw [State.ldBytes_getElem hv, List.getElem_take, List.getElem_drop, Nat.add_assoc]
    exact tget_memPuts_inside hin
  exact congrArg leNat hbytes

/-- A number beside a range that is written reads as before. -/
theorem State.stBytes_ldN_outside {a : Nat} (h : a + n ≤ k ∨ k + bs.length ≤ a) : (s.stBytes k bs).ldN a n = s.ldN a n :=
  State.ldN_congr fun _ hj => State.stBytes_ldB_outside fun _ hi => by omega

theorem State.stN_ldN {x : Nat} : (s.stN k n x).ldN k n = x % 256 ^ n := by
  have h := State.stBytes_ldBytes (s := s) (k := k) (bs := leBytes n x)
  rw [leBytes_length] at h
  exact (congrArg leNat h).trans leNat_leBytes

theorem State.stN_ldN_outside {a l x : Nat} (h : a + l ≤ k ∨ k + n ≤ a) : (s.stN k n x).ldN a l = s.ldN a l :=
  State.stBytes_ldN_outside (by rwa [leBytes_length])

/-- A table that has lost only other keys reads a key as before. -/
theorem tget_filter {α : Type} {d : Nat → α} {m : List (Nat × α)} {f : Nat × α → Bool} {a : Nat} (h : ∀ x, f (a, x) = true) :
    tget d (m.filter f) a = tget d m a := by
  induction m with
  | nil => rfl
  | cons p m ih =>
    obtain ⟨i, x⟩ := p
    rw [List.filter_cons]
    by_cases hi : a = i
    · subst hi
      simp only [h, if_true, tget]
    · split <;> simp only [tget, if_neg hi, ih]

/-- Clearing a range leaves every byte outside it alone. -/
theorem State.zero_ldB_outside {a : Nat} (h : a < k ∨ k + n ≤ a) : (s.zero k n).ldB a = s.ldB a :=
  tget_filter fun _ => by
    simp only [Bool.not_eq_true', Bool.and_eq_false_iff, decide_eq_false_iff_not]
    omega

theorem State.zero_ldN_outside {a l : Nat} (h : a + l ≤ k ∨ k + n ≤ a) : (s.zero k n).ldN a l = s.ldN a l :=
  State.ldN_congr fun _ hj => State.zero_ldB_outside (by omega)

theorem OnlyIn.ldN {m : List Block} (h : OnlyIn m s v) (hm : Block.mem ∉ m := by decide) (k n : Nat) : v.ldN k n = s.ldN k n :=
  State.ldN_congr fun _ _ => h.ldB hm _

theorem OnlyIn.lin {m : List Block} (h : OnlyIn m s v) (hm : Block.mem ∉ m := by decide) (d off n : Nat) : v.lin d off n = s.lin d off n :=
  h.ldN hm _ _

end

end Sys2Proof.Machine
end

section
/-!
KV sequences (R246, R260, R280): the fields of an entry, and what opening, closing, resetting and forking leave in it.
-/
namespace Sys2Proof.Machine

variable {s v : State} {q : Nat}

/-! ### The fields of an entry -/

theorem OnlyIn.seqf {m : List Block} (h : OnlyIn m s v) (hm : Block.mem ∉ m := by decide) (q off n : Nat) :
    v.seqf q off n = s.seqf q off n := h.ldN hm _ _

@[simp] theorem State.seqSt_seqf_same {off n x : Nat} : (s.seqSt q off n x).seqf q off n = x % 256 ^ n := State.stN_ldN

/-- A field of an entry keeps its value where another one is written. -/
theorem State.seqSt_seqf_other {off n o l x : Nat} (h : o + l ≤ off ∨ off + n ≤ o) :
    (s.seqSt q off n x).seqf q o l = s.seqf q o l :=
  State.stN_ldN_outside (by unfold memKey; omega)

theorem State.seqLen_lt : s.seqLen q < 2 ^ 32 := State.ldN_lt (n := 4)

/-! ### RESET and CLOSE -/

/-- RESET leaves no position: the entry's length is written last but for its generation. -/
theorem State.seqReset_len : (s.seqReset q).seqLen q = 0 := by
  unfold State.seqReset State.seqLen
  extract_lets x
  rw [State.seqSt_seqf_other (by decide), State.seqSt_seqf_same, Nat.zero_mod]

theorem State.seqClose_len : (s.seqClose q).seqLen q = 0 := by
  unfold State.seqClose State.seqLen
  rw [State.seqSt_seqf_other (by decide)]
  exact State.seqReset_len

theorem State.seqClose_open : (s.seqClose q).seqOpen q = false := by
  unfold State.seqClose State.seqOpen
  rw [State.seqSt_seqf_same]
  rfl

theorem State.seqReset_in : OnlyIn [.mem, .kv, .mt] s (s.seqReset q) := State.seqReset_only (by decide) (OnlyIn.refl _ s)

theorem State.seqClose_in : OnlyIn [.mem, .kv, .mt] s (s.seqClose q) := State.seqSt_only (by decide) State.seqReset_in

/-! ### SEQ_OPEN -/

/-- The bounds that an opening keeps to (R244 to R246): the page list lies behind the fixed region, which holds the entries. -/
theorem State.seqOpenErr_bounds {heads dim max pitch list : Nat} {q4 : Bool} (h : s.seqOpenErr q heads dim max q4 pitch list = 0) :
    heads ≤ 16 ∧ max ≤ 1024 ∧ pitch < 2 ^ 31 ∧ 0x06660000 ≤ list := by
  unfold State.seqOpenErr at h
  extract_lets d at h
  split at h
  · exact absurd h (by decide)
  · split at h
    · exact absurd h (by decide)
    · split at h
      · exact absurd h (by decide)
      · omega

/-- The bytes of an entry behind its generation (R246). -/
def seqEntry (heads dim : Nat) (q4 mark : Bool) (owner : Nat) (sp0 : Int) (pitch list max : Nat) : List Byte :=
  le64 sp0 ++ leBytes 4 pitch ++ leBytes 4 list ++ leBytes 2 max ++ leBytes 1 heads ++
    leBytes 1 (dim * 64 + b2n q4 * 32 + b2n mark * 16 + owner) ++ leBytes 1 128 ++ leBytes 3 0

section
variable {heads dim owner pitch list max : Nat} {q4 mark : Bool} {sp0 : Int}

theorem seqEntry_length : (seqEntry heads dim q4 mark owner sp0 pitch list max).length = 24 := rfl
theorem seqEntry_pitch : leAt (seqEntry heads dim q4 mark owner sp0 pitch list max) 8 4 = leNat (leBytes 4 pitch) := rfl
theorem seqEntry_max : leAt (seqEntry heads dim q4 mark owner sp0 pitch list max) 16 2 = leNat (leBytes 2 max) := rfl
theorem seqEntry_heads : leAt (seqEntry heads dim q4 mark owner sp0 pitch list max) 18 1 = leNat (leBytes 1 heads) := rfl
theorem seqEntry_format : leAt (seqEntry heads dim q4 mark owner sp0 pitch list max) 19 1 =
    leNat (leBytes 1 (dim * 64 + b2n q4 * 32 + b2n mark * 16 + owner)) := rfl
theorem seqEntry_open : leAt (seqEntry heads dim q4 mark owner sp0 pitch list max) 20 1 = 128 := rfl

/-- An entry that is written: no position, the next generation, and the bytes behind it. -/
def State.seqWritten (s : State) (q : Nat) (bs : List Byte) : State :=
  ((s.seqSt q 0 4 0).seqSt q 4 4 ((s.seqSt q 0 4 0).seqGen q + 1)).stBytes (memKey (spLintel (seqDie q)) (seqOff q + 8)) bs

theorem State.seqWritten_seqf {bs : List Byte} {off n : Nat} (h : off + n ≤ bs.length) :
    (s.seqWritten q bs).seqf q (8 + off) n = leAt bs off n := by
  have hkey : memKey (spLintel (seqDie q)) (seqOff q + (8 + off)) = memKey (spLintel (seqDie q)) (seqOff q + 8) + off := by
    unfold memKey
    omega
  unfold State.seqf State.lin State.seqWritten
  rw [hkey, State.stBytes_ldN_inside h]

theorem State.seqWritten_len {bs : List Byte} : (s.seqWritten q bs).seqLen q = 0 := by
  have hbytes : (s.seqWritten q bs).seqf q 0 4 = ((s.seqSt q 0 4 0).seqSt q 4 4 ((s.seqSt q 0 4 0).seqGen q + 1)).seqf q 0 4 :=
    State.stBytes_ldN_outside (by unfold memKey; omega)
  unfold State.seqLen
  rw [hbytes, State.seqSt_seqf_other (by decide), State.seqSt_seqf_same, Nat.zero_mod]

/-- The entries lie before the page lists (R281). -/
theorem State.zero_seqf {off n l : Nat} (hl : 0x06660000 ≤ list) (h : off + n ≤ 32) :
    (s.zero (memKey (spLintel (seqDie q)) list) l).seqf q off n = s.seqf q off n :=
  State.zero_ldN_outside (by unfold memKey seqOff; omega)

/-- An opening writes the entry and clears the page list. -/
theorem State.seqOpenSet_seqf {off n : Nat} (hl : 0x06660000 ≤ list) (h : off + n ≤ 32) :
    (s.seqOpenSet q heads dim q4 mark owner sp0 pitch list max).seqf q off n =
      (s.seqWritten q (seqEntry heads dim q4 mark owner sp0 pitch list max)).seqf q off n := by
  unfold State.seqOpenSet
  extract_lets x1 x2 x3 x4
  have hwritten : x3 = s.seqWritten q (seqEntry heads dim q4 mark owner sp0 pitch list max) := rfl
  have hpool : OnlyIn [.kv] x3 x4 := State.updKv_only (by decide) (OnlyIn.refl _ _)
  rw [State.zero_seqf hl h, hpool.seqf, hwritten]

/-- A field behind the generation is that of the bytes written. -/
theorem State.seqOpenSet_field (off n : Nat) (hl : 0x06660000 ≤ list) (h : off + n ≤ 24) :
    (s.seqOpenSet q heads dim q4 mark owner sp0 pitch list max).seqf q (8 + off) n =
      leAt (seqEntry heads dim q4 mark owner sp0 pitch list max) off n :=
  (State.seqOpenSet_seqf hl (by omega)).trans (State.seqWritten_seqf h)

/-- What an opening leaves in the entry. -/
theorem State.seqOpenSet_entry (hh : heads ≤ 16) (hx : max ≤ 1024) (hp : pitch < 2 ^ 31) (hl : 0x06660000 ≤ list) (ho : owner < 16)
    (e : ∀ off n, v.seqf q off n = (s.seqOpenSet q heads dim q4 mark owner sp0 pitch list max).seqf q off n) :
    v.seqOpen q = true ∧ v.seqLen q = 0 ∧ v.seqHeads q = heads ∧ v.seqMax q = max ∧ v.seqQ4 q = q4 ∧ v.seqOwner q = owner ∧
      v.seqPitch q = pitch := by
  have field (off n : Nat) (h : off + n ≤ 24) := (e (8 + off) n).trans (State.seqOpenSet_field off n hl h)
  have hlen : v.seqf q 0 4 = 0 := (e 0 4).trans ((State.seqOpenSet_seqf hl (by decide)).trans State.seqWritten_len)
  have hpitch : v.seqf q 16 4 = pitch := (field 8 4 (by decide)).trans (seqEntry_pitch.trans (leNat_leBytes_of_lt (by omega)))
  have hmax : v.seqf q 24 2 = max := (field 16 2 (by decide)).trans (seqEntry_max.trans (leNat_leBytes_of_lt (by omega)))
  have hheads : v.seqf q 26 1 = heads := (field 18 1 (by decide)).trans (seqEntry_heads.trans (leNat_leBytes_of_lt (by omega)))
  have hformat : v.seqf q 27 1 = (dim * 64 + b2n q4 * 32 + b2n mark * 16 + owner) % 256 :=
    (field 19 1 (by decide)).trans (seqEntry_format.trans leNat_leBytes)
  have hopen : v.seqf q 28 1 = 128 := (field 20 1 (by decide)).trans seqEntry_open
  refine ⟨congrArg (Nat.testBit · 7) hopen, hlen, hheads, hmax, ?q4, ?owner, hpitch⟩
  case q4 =>
    have hmark : b2n mark ≤ 1 := by cases mark <;> decide
    have hbit : (v.seqf q 27 1 / 2 ^ 5) % 2 = b2n q4 := by
      have hq4 : b2n q4 ≤ 1 := by cases q4 <;> decide
      omega
    unfold State.seqQ4
    rw [Nat.testBit_eq_decide_div_mod_eq, hbit]
    cases q4 <;> rfl
  case owner =>
    unfold State.seqOwner
    omega

theorem State.seqOpenSet_in : OnlyIn [.mem, .kv, .mt] s (s.seqOpenSet q heads dim q4 mark owner sp0 pitch list max) := by
  unfold State.seqOpenSet
  extract_lets x1 x2 x3 x4
  have h2 : OnlyIn [.mem, .kv, .mt] s x2 :=
    State.seqSt_only (by decide) (State.linSt_only (by decide) (OnlyIn.refl _ s))
  have h3 : OnlyIn [.mem, .kv, .mt] s x3 := State.stBytes_only (by decide) h2
  have h4 : OnlyIn [.mem, .kv, .mt] s x4 := State.updKv_only (by decide) h3
  exact State.zero_only (by decide) h4

theorem State.seqReopen_in : OnlyIn [.mem, .kv, .mt] s (s.seqReopen q heads dim q4 mark owner sp0 pitch list max) := by
  unfold State.seqReopen
  split
  · exact State.seqReset_in.trans State.seqOpenSet_in
  · exact State.seqOpenSet_in

end

/-! ### SEQ_FORK -/

section
variable {src dst n : Nat}

/-- What a fork asks of its two sequences (R260). -/
theorem State.seqFork_refused (h : seqDie dst ≠ seqDie src ∨ src = dst ∨ s.seqLen src < n ∨ s.seqHeads src ≠ s.seqHeads dst ∨
    s.seqDim src ≠ s.seqDim dst ∨ s.seqQ4 src ≠ s.seqQ4 dst ∨ s.seqMax dst < (n + 63) / 64) : s.seqFork src dst n = (s, 0x020A) :=
  if_pos h

/-- A fork that is made gives the second sequence its length, of positions the first one has, and changes only the stores and the
page pools. -/
theorem State.seqFork_made (h : s.seqFork src dst n = (v, 0)) : v.seqLen dst = n ∧ OnlyIn [.mem, .kv, .mt] s v := by
  unfold State.seqFork at h
  extract_lets d np keys shared x1 x2 x3 at h
  split at h
  · exact nomatch congrArg Prod.snd h
  next hmay =>
    split at h
    · exact nomatch congrArg Prod.snd h
    next =>
      obtain rfl : x3.seqSt dst 0 4 n = v := congrArg Prod.fst h
      have h1 : OnlyIn [.mem, .kv, .mt] s x1 :=
        State.each_only (OnlyIn.refl _ _) fun _ _ h => State.pageSt_only (by decide) h
      have h2 : OnlyIn [.mem, .kv, .mt] s x2 := State.seqReset_only (by decide) h1
      have h3 : OnlyIn [.mem, .kv, .mt] s x3 := State.each_only h2 fun _ _ h => State.listSet_only (by decide) h
      have hlen : n ≤ s.seqLen src := Nat.le_of_not_lt fun hn => hmay (Or.inr (Or.inr (Or.inl hn)))
      refine ⟨State.seqSt_seqf_same.trans (Nat.mod_eq_of_lt ?_), State.seqSt_only (by decide) h3⟩
      exact Nat.lt_of_le_of_lt hlen State.seqLen_lt

end

end Sys2Proof.Machine
end

section
/-!
The KV registers (R277, R280): a write of KV_CMD does its command, and a write of a select register shows what it selects.
-/
namespace Sys2Proof.Machine

variable {s : State} {d o : Nat}

/-! ### Addresses of a window -/

section
variable (hd : d < 4) (ho : o < 0x4000)
include hd ho

theorem kvAddr_block : (bKv d + o) / 65536 = 5 := by
  unfold bKv
  omega

theorem kvAddr_window : windowOf (bKv d + o) = d := by
  unfold windowOf bKv
  omega

theorem kvAddr_table : tableOff (bKv d + o) = o := by
  have hw : windowed 5 = true := rfl
  have hmod : (bKv d + o) % 16384 = o := by
    unfold bKv
    omega
  rw [tableOff, kvAddr_block hd ho, if_pos hw, hmod]

theorem kvAddr_row : rowOf (bKv d + o) = kvRows.find? (fun r => rowHas r o) := by
  rw [rowOf, kvAddr_block hd ho, kvAddr_table hd ho]
  rfl

theorem kvAddr_ok (h4 : o % 4 = 0) : addrOk (bKv d + o) = true := by
  simp only [addrOk, Bool.and_eq_true, decide_eq_true_eq]
  unfold bKv
  omega

/-- A register below the shared ones stands in its own window. -/
theorem kvAddr_canon (h : o < 0x100) : canonAddr (bKv d + o) = bKv d + o := by
  have hlow : decide (0x100 ≤ o) = false := decide_eq_false (by omega)
  simp [canonAddr, kvAddr_block hd ho, kvAddr_table hd ho, hlow]

theorem kvAddr_partVal {p : Part} {v : Word} : partVal p (bKv d + o) v = v := by
  have hblock := kvAddr_block hd ho
  have h0 : bKv d + o ≠ 0x10200 := by omega
  have h1 : bKv d + o ≠ 0x10220 := by omega
  have h2 : bKv d + o ≠ 0x10240 := by omega
  have h3 : bKv d + o ≠ 0x10260 := by omega
  simp [partVal, h0, h1, h2, h3]

end

/-! ### KV_CMD -/

/-- A write of KV_CMD that nothing refuses does its command and is answered OK. -/
theorem regCmd_kvCmd {h : Hdr} {v : Nat} (hd : d < 4) (hv : v < 2 ^ 32) (k : Written s h (bKv d + 0x2C) v) :
    s.regCmd h (bKv d + 0x2C) v = .next (((s.atHost h).kvCmd d v).answered h (bKv d + 0x2C) v) := by
  have ho : 0x2C < 0x4000 := by decide
  refine State.regCmd_cmd (r := rowWo 0x2C) k (kvAddr_ok hd ho rfl) (kvAddr_row hd ho) rfl (kvAddr_canon hd ho (by decide))
    (kvAddr_partVal hd ho) ?_
  simp only [State.cmdWrite, kvAddr_block hd ho, kvAddr_window hd ho, wordOf_toNat hv]

/-- The answer to a register write changes only the reply buffer. -/
theorem State.answered_in {h : Hdr} {a v : Nat} : OnlyIn [.sdio] s (s.answered h a v) := State.reply_in

/-- CLEAR_COUNTERS of a window zeroes its counters, and changes only registers. -/
theorem State.kvClear_in : OnlyIn [.regs] s (s.kvClear d) := by
  unfold State.kvClear
  extract_lets x
  have h : OnlyIn [.regs] s x := State.clear_in (f := fun o => bKv d + o)
  exact h.trans (State.clear_in (f := fun a => a))

theorem State.kvClear_regGet {x : Nat} : (s.kvClear d).regGet x =
    if x = 0x50108 ∨ x = 0x5010C ∨ x ∈ [0x68, 0x6C, 0x70, 0x74, 0x78].map (fun o => bKv d + o) then 0#32 else s.regGet x := by
  have hmap : ([0x50108, 0x5010C] : List Nat).map (fun a => a) = [0x50108, 0x5010C] := rfl
  have hmem : x ∈ ([0x50108, 0x5010C] : List Nat) ↔ x = 0x50108 ∨ x = 0x5010C := by simp
  unfold State.kvClear
  extract_lets y
  have hy : y.regGet x = if x ∈ [0x68, 0x6C, 0x70, 0x74, 0x78].map (fun o => bKv d + o) then 0#32 else s.regGet x :=
    State.clear_regGet (f := fun o => bKv d + o)
  refine (State.clear_regGet (f := fun a => a)).trans ?_
  rw [hy, hmap]
  simp only [hmem, ← or_assoc]
  by_cases h : x = 0x50108 ∨ x = 0x5010C
  · simp only [h, true_or, if_true]
  · simp only [h, false_or, if_false]

/-! ### The select registers -/

/-- Configuration errors of the KV block raise events of its windows alone. -/
theorem State.raiseCfg_regGet {x : Nat} {old : State} (hx : x / 65536 ≠ 13) (he : ∀ d, x ≠ evKv d) :
    (s.raiseCfg old 5).regGet x = s.regGet x := by
  have hmem : ∀ p ∈ (s.cfgErrs 5).zip (old.cfgErrs 5), x ≠ p.1.1 := by
    rintro ⟨a, b⟩ hp
    obtain ⟨e, -, rfl⟩ := List.mem_map.1 (List.of_mem_zip hp).1
    exact he e
  unfold State.raiseCfg
  generalize (s.cfgErrs 5).zip (old.cfgErrs 5) = l at hmem
  induction l generalizing s with
  | nil => rfl
  | cons p l ih =>
    rw [List.foldl_cons, ih fun q hq => hmem q (List.mem_cons_of_mem _ hq)]
    split
    · rw [State.raise_regGet hx, if_neg (hmem p List.mem_cons_self)]
    · rfl

/-- A write of a register of a window that neither a running plan nor the safety state locks. -/
theorem State.writeRow_kv {r : RegRow} {v : Word} (hd : d < 4) (ho : o < 0x4000) (hw : r.wo = false) (hl : r.rwl = 0) :
    s.writeRow (bKv d + o) r v = (s.store (bKv d + o) (s.regGet (bKv d + o)) (writeVal r (s.regGet (bKv d + o)) v), 0) := by
  have hblock := kvAddr_block hd ho
  generalize bKv d + o = a at hblock ⊢
  have hlock : writeLocks r (s.regGet a) v = false := by simp [writeLocks, hl]
  have hsafe : safetyMask a = 0#32 := by
    rw [safetyMask, if_neg (by omega), if_neg (by omega)]
  have hinj : injIdx a = none := by
    rw [injIdx, List.findIdx?_eq_none_iff]
    intro x hx
    simp only [List.mem_cons, List.not_mem_nil, or_false] at hx
    exact beq_false_of_ne (by omega)
  have htier : arrIdx a 0x60040 0x10 4 = none := by
    rw [arrIdx, if_neg (by omega)]
  have hprog : ¬ (a = 0x10800 ∨ a = 0x10804) := by omega
  simp [State.writeRow, hw, hlock, State.safetyLocks, hsafe, hinj, hprog, htier]

/-- The bits below a full mask of `n` bits take the value written. -/
theorem writeVal_low {r : RegRow} {old v : Word} {n : Nat} (hl : r.rwl = 0) (hc : r.w1c = 0) (hr : r.rw = 2 ^ n - 1) :
    (writeVal r old v).toNat % 2 ^ n = v.toNat % 2 ^ n := by
  rw [writeVal_rw hl hc, hr]
  refine Nat.eq_of_testBit_eq fun i => ?_
  simp only [Nat.testBit_mod_two_pow, BitVec.testBit_toNat, BitVec.getLsbD_or, BitVec.getLsbD_and, BitVec.getLsbD_not,
    BitVec.getLsbD_ofNat, Nat.testBit_two_pow_sub_one]
  by_cases hi : i < n
  · by_cases h32 : i < 32
    · simp [hi, h32]
    · simp [h32, BitVec.getLsbD_of_ge v i (by omega)]
  · simp [hi]

/-- A write of a select register that nothing refuses: what it selects is shown, with what the configuration errors raise, and the
write is answered OK. -/
theorem regCmd_kvSelect {h : Hdr} {v : Nat} {r : RegRow} (hd : d < 4) (ho : o < 0x100) (h4 : o % 4 = 0)
    (hr : kvRows.find? (fun r => rowHas r o) = some r) (hw : r.wo = false) (hl : r.rwl = 0) (k : Written s h (bKv d + o) v) :
    s.regCmd h (bKv d + o) v = .next (((s.atHost h).store (bKv d + o) ((s.atHost h).regGet (bKv d + o))
      (writeVal r ((s.atHost h).regGet (bKv d + o)) (wordOf v))).answered h (bKv d + o) v) := by
  have ho' : o < 0x4000 := by omega
  have hblock := kvAddr_block hd ho'
  have hthere : absentReg (s.atHost h).part (bKv d + o) = false := by
    rw [State.atHost_part]
    exact k.there
  refine (State.regCmd_write k (by omega) ?_).trans (by rw [State.answer_ok]; rfl)
  rw [State.regWrite_row (kvAddr_ok hd ho' h4) ((kvAddr_row hd ho').trans hr) (by omega) hthere, kvAddr_canon hd ho' ho,
    kvAddr_partVal hd ho', State.writeRow_kv hd ho' hw hl]

/-- Registers that are set one after another, each to a value that does not depend on registers. -/
theorem State.each_regSet_regGet {l : List Nat} {f : Nat → Nat} {g : State → Nat → Word} {j : Nat} (hf : Function.Injective f)
    (hg : ∀ (s : State) a w k, g (s.regSet a w) k = g s k) :
    (s.each l (fun s k => s.regSet (f k) (g s k))).regGet (f j) = if j ∈ l then g s j else s.regGet (f j) := by
  unfold State.each
  induction l generalizing s with
  | nil => rfl
  | cons k l ih =>
    rw [List.foldl_cons, ih, hg, State.regSet_regGet]
    by_cases hl : j ∈ l
    · simp only [hl, List.mem_cons, or_true, if_true]
    · by_cases hk : j = k
      · subst hk
        simp only [hl, List.mem_cons, or_false, if_true, if_false]
      · simp only [hl, hk, List.mem_cons, or_false, if_false, if_neg fun e => hk (hf e)]

/-- KV_SEQ_SEL shows the words of the entry. -/
theorem State.seqSel_regGet {v k : Nat} (hk : k < 8) :
    (s.seqSel d v).regGet (bKv d + 0x40 + 4 * k) = wordOf (s.seqf (1024 * d + v % 1024) (4 * k) 4) := by
  unfold State.seqSel
  extract_lets x
  have hf : Function.Injective (fun k => bKv d + 0x40 + 4 * k) := fun a b (e : bKv d + 0x40 + 4 * a = bKv d + 0x40 + 4 * b) => by omega
  refine (State.each_regSet_regGet (g := fun s k => wordOf (s.seqf (1024 * d + v % 1024) (4 * k) 4)) hf fun _ _ _ _ => rfl).trans ?_
  exact if_pos (List.mem_range.2 hk)

/-- KV_PAGE_SEL shows the two words of the page's descriptor. -/
theorem State.kvPageSel_regGet {v n : Nat} (hn : n < 262144) (hv : v % 2 ^ 19 = n) :
    (s.kvPageSel d v).regGet (bKv d + 0x60) = wordOf (s.lin d (pageOff n) 8) ∧
      (s.kvPageSel d v).regGet (bKv d + 0x64) = wordOf (s.lin d (pageOff n) 8 / 2 ^ 32) := by
  subst hv
  unfold State.kvPageSel
  extract_lets n w
  have hw : w = s.lin d (pageOff n) 8 := if_pos hn
  rw [← hw]
  exact ⟨(State.regSet_regGet_ne (by omega)).trans State.regSet_regGet_self, State.regSet_regGet_self⟩

/-- What is shown is kept through the configuration errors and the answer. -/
theorem State.store_kv_regGet {x a v : Nat} {h : Hdr} {old new : Word} (hd : d < 4) (ho : o < 0x4000) (hx : x / 65536 ≠ 13)
    (he : ∀ e, x ≠ evKv e) : ((s.store (bKv d + o) old new).answered h a v).regGet x =
      (((s.dropSnaps (bKv d + o)).regSet (bKv d + o) new).written (bKv d + o) old new).regGet x := by
  rw [State.answered_in.regGet, State.store, kvAddr_block hd ho]
  exact State.raiseCfg_regGet hx he

/-- A register of a window that is no event register. -/
theorem kvAddr_ne_event {x : Nat} (ho : o < 0x4000) (hx : o ≠ 8) (h : x = bKv d + o) (e : Nat) : x ≠ evKv e := by
  unfold bKv at h
  unfold evKv
  omega

/-- Storing a register changes only registers and the snapshots it ends. -/
theorem State.storedReg_in {a : Nat} {w : Word} : OnlyIn [.snaps, .regs] s ((s.dropSnaps a).regSet a w) := by
  refine State.regSet_only (by decide) ?_
  unfold State.dropSnaps
  extract_lets g
  split
  · exact OnlyIn.refl _ s
  · exact only_snaps.mono (by decide)

theorem exec_kvSeqSel {h : Hdr} {q : Nat} (hd : d < 4) (k : Written s h (bKv d + 0x30) (q % 1024)) :
    ∃ v, exec (.kvSeqSel h d q) s = .next v ∧
      ∀ j, j < 8 → v.regGet (bKv d + 0x40 + 4 * j) = wordOf ((s.atHost h).seqf (1024 * d + q % 1024) (4 * j) 4) := by
  have ho : 0x30 < 0x4000 := by decide
  refine ⟨_, regCmd_kvSelect (r := rowRw 0x30 1 4 0x3FF) hd (by decide) rfl rfl rfl rfl k, fun j hj => ?_⟩
  generalize hnew : writeVal (rowRw 0x30 1 4 0x3FF) _ _ = new
  have hlow : new.toNat % 1024 = q % 1024 := by
    rw [← hnew]
    refine (writeVal_low (n := 10) rfl rfl rfl).trans ?_
    rw [wordOf_toNat (by omega)]
    exact Nat.mod_mod q 1024
  have hblock : (bKv d + 0x40 + 4 * j) / 65536 ≠ 13 := by
    unfold bKv
    omega
  have hevent : ∀ e, bKv d + 0x40 + 4 * j ≠ evKv e := kvAddr_ne_event (o := 0x40 + 4 * j) (by omega) (by omega) (Nat.add_assoc ..)
  rw [State.store_kv_regGet hd ho hblock hevent]
  simp only [State.written, kvAddr_block hd ho, kvAddr_table hd ho, kvAddr_window hd ho, if_true]
  rw [State.seqSel_regGet hj, hlow, State.storedReg_in.seqf]

theorem exec_kvPageSel {h : Hdr} {n : Nat} (hd : d < 4) (hn : n < 262144) (k : Written s h (bKv d + 0x34) n) :
    ∃ v, exec (.kvPageSel h d n) s = .next v ∧ v.regGet (bKv d + 0x60) = wordOf ((s.atHost h).lin d (pageOff n) 8) ∧
      v.regGet (bKv d + 0x64) = wordOf ((s.atHost h).lin d (pageOff n) 8 / 2 ^ 32) := by
  have ho : 0x34 < 0x4000 := by decide
  have hcmd : exec (.kvPageSel h d n) s = s.regCmd h (bKv d + 0x34) n := by
    show s.regCmd h (bKv d + 0x34) (n % 2 ^ 19) = _
    rw [Nat.mod_eq_of_lt (by omega)]
  refine ⟨_, hcmd.trans (regCmd_kvSelect (r := rowRw 0x34 1 4 0x7FFFF) hd (by decide) rfl rfl rfl rfl k), ?_⟩
  generalize hnew : writeVal (rowRw 0x34 1 4 0x7FFFF) _ _ = new
  have hlow : new.toNat % 2 ^ 19 = n := by
    rw [← hnew]
    refine (writeVal_low (n := 19) rfl rfl rfl).trans ?_
    rw [wordOf_toNat (by omega), Nat.mod_eq_of_lt (by omega)]
  have hblock (o : Nat) (h : o < 0x100) : (bKv d + o) / 65536 ≠ 13 := by
    unfold bKv
    omega
  rw [State.store_kv_regGet hd ho (hblock 0x60 (by decide)) (kvAddr_ne_event (o := 0x60) (by decide) (by decide) rfl),
    State.store_kv_regGet hd ho (hblock 0x64 (by decide)) (kvAddr_ne_event (o := 0x64) (by decide) (by decide) rfl)]
  simp only [State.written, kvAddr_block hd ho, kvAddr_table hd ho, kvAddr_window hd ho, if_true, show ¬ 0x34 = 0x30 by decide, if_false]
  rw [← State.storedReg_in.lin (by decide) d (pageOff n) 8]
  exact State.kvPageSel_regGet hn hlow

end Sys2Proof.Machine
end

section
/-!
The commands of KV sequences (R246, R260, R277, R280), by SEQ_OPEN, SEQ_FORK and SEQ_CLOSE and by KV_CMD and the select registers.
-/
namespace Sys2Proof.Machine

variable {s : State} {h : Hdr} {q : Nat}

/-! ### What is read of an entry after a reply -/

section
variable {v : State} {m : List Block} (k : OnlyIn m s v) (hm : Block.mem ∉ m := by decide)
include k hm

theorem OnlyIn.seqOpen (q : Nat) : v.seqOpen q = s.seqOpen q := congrArg (Nat.testBit · 7) (k.seqf hm q 28 1)
theorem OnlyIn.seqLen (q : Nat) : v.seqLen q = s.seqLen q := k.seqf hm q 0 4

end

/-- The number of a sequence is its die pair's and its own in it. -/
theorem seqDie_add (hq : q < 4096) : 1024 * seqDie q + q % 1024 = q := by
  unfold seqDie
  omega

theorem seqDie_lt : seqDie q < 4 := Nat.mod_lt _ (by decide)

theorem State.seqOk_lt (hq : s.seqOk q = true) : q < 4096 := by
  unfold State.seqOk at hq
  simp only [Bool.and_eq_true, decide_eq_true_eq] at hq
  exact hq.1

/-- A command that changes only the stores and the page pools is answered. -/
theorem seq_replied {v : State} {c : HostCmd} {status : Nat} (k : Carried s h c) (hv : OnlyIn [.mem, .kv, .mt] (s.atHost h) v)
    (hs : status / 256 ≠ 1) : Replied s (v.answer (packetOf h.tag h.client c) status) h c status [] :=
  replied_of_answer k (Quiet.of_onlyIn hv).replies (Quiet.of_onlyIn hv).resetAt hs

/-! ### SEQ_OPEN and SEQ_CLOSE -/

section
variable {heads dim pitch list max : Nat} {q4 mark : Bool} {sp0 : Int}

theorem exec_seqOpen (k : Carried s h (.seqOpen q heads dim q4 mark sp0 pitch list max)) (hf : (s.atHost h).seqForeign h.client q = false)
    (he : (s.atHost h).seqOpenErr q heads dim max q4 pitch list = 0) :
    exec (.seqOpen h q heads dim q4 mark sp0 pitch list max) s =
      .next (((s.atHost h).seqReopen q heads dim q4 mark h.client sp0 pitch list max).answer
        (packetOf h.tag h.client (.seqOpen q heads dim q4 mark sp0 pitch list max)) 0) := by
  rw [exec_carried rfl k, hostRun_seqOpen]
  have hclient : (packetOf h.tag h.client (.seqOpen q heads dim q4 mark sp0 pitch list max)).client = h.client := rfl
  simp only [State.hostSeqOpen, hclient, hf, he, Bool.and_false, Bool.false_eq_true, if_false, ne_eq, not_true_eq_false]

/-- A sequence that is opened has its entry and no position. -/
theorem exec_seqOpen_entry (k : Carried s h (.seqOpen q heads dim q4 mark sp0 pitch list max))
    (hf : (s.atHost h).seqForeign h.client q = false) (he : (s.atHost h).seqOpenErr q heads dim max q4 pitch list = 0)
    (hc : h.client < 16) :
    ∃ v, exec (.seqOpen h q heads dim q4 mark sp0 pitch list max) s = .next v ∧ v.seqOpen q = true ∧ v.seqLen q = 0 ∧
      v.seqHeads q = heads ∧ v.seqMax q = max ∧ v.seqQ4 q = q4 ∧ v.seqOwner q = h.client ∧ v.seqPitch q = pitch ∧
      Replied s v h (.seqOpen q heads dim q4 mark sp0 pitch list max) 0 [] := by
  obtain ⟨hheads, hmax, hpitch, hlist⟩ := State.seqOpenErr_bounds he
  refine ⟨_, exec_seqOpen k hf he, ?_⟩
  have hreply (off n : Nat) := (State.answer_in (s := (s.atHost h).seqReopen q heads dim q4 mark h.client sp0 pitch list max)
    (p := packetOf h.tag h.client (.seqOpen q heads dim q4 mark sp0 pitch list max)) (n := 0) (l := []) (by decide)).seqf
      (by decide) q off n
  obtain ⟨hopen, hlen, hh, hx, hq4, howner, hp⟩ := State.seqOpenSet_entry hheads hmax hpitch hlist hc hreply
  exact ⟨hopen, hlen, hh, hx, hq4, howner, hp, seq_replied k State.seqReopen_in (by decide)⟩

theorem exec_seqClose (k : Carried s h (.seqClose q)) (hq : (s.atHost h).seqOk q = true) (ho : (s.atHost h).seqOpen q = true)
    (hf : (s.atHost h).seqForeign h.client q = false) :
    exec (.seqClose h q) s = .next (((s.atHost h).seqClose q).answer (packetOf h.tag h.client (.seqClose q)) 0) := by
  rw [exec_carried rfl k, hostRun_seqClose]
  have hclient : (packetOf h.tag h.client (.seqClose q)).client = h.client := rfl
  simp only [State.hostSeqClose, hclient, hq, ho, hf, Bool.not_true, Bool.false_eq_true, if_false]

theorem exec_seqClose_entry (k : Carried s h (.seqClose q)) (hq : (s.atHost h).seqOk q = true) (ho : (s.atHost h).seqOpen q = true)
    (hf : (s.atHost h).seqForeign h.client q = false) :
    ∃ v, exec (.seqClose h q) s = .next v ∧ v.seqOpen q = false ∧ v.seqLen q = 0 ∧ Replied s v h (.seqClose q) 0 [] :=
  ⟨_, exec_seqClose k hq ho hf, ((State.answer_in (by decide)).seqOpen (by decide) q).trans State.seqClose_open,
    ((State.answer_in (by decide)).seqLen (by decide) q).trans State.seqClose_len, seq_replied k State.seqClose_in (by decide)⟩

end

/-! ### SEQ_FORK -/

section
variable {src n : Nat} (k : Carried s h (.seqFork src q n)) (hsrc : (s.atHost h).seqOk src = true) (hq : (s.atHost h).seqOk q = true)
  (osrc : (s.atHost h).seqOpen src = true) (oq : (s.atHost h).seqOpen q = true) (fsrc : (s.atHost h).seqForeign h.client src = false)
  (fq : (s.atHost h).seqForeign h.client q = false) (hn : n ≠ 0)
include k hsrc hq osrc oq fsrc fq hn

/-- A fork of two sequences that the client may fork is answered with its status. -/
theorem exec_seqFork {v : State} {st : Nat} (e : (s.atHost h).seqFork src q n = (v, st)) :
    exec (.seqFork h src q n) s = .next (v.answer (packetOf h.tag h.client (.seqFork src q n)) st) := by
  rw [exec_carried rfl k, hostRun_seqFork]
  have hclient : (packetOf h.tag h.client (.seqFork src q n)).client = h.client := rfl
  simp only [State.hostSeqFork, hclient, hsrc, hq, osrc, oq, fsrc, fq, hn, e, Bool.not_true, Bool.or_self, Bool.false_eq_true, if_false]

theorem exec_seqFork_made {w : State} (e : (s.atHost h).seqFork src q n = (w, 0)) :
    ∃ v, exec (.seqFork h src q n) s = .next v ∧ v.seqLen q = n ∧ Replied s v h (.seqFork src q n) 0 [] := by
  obtain ⟨hlen, hw⟩ := State.seqFork_made e
  exact ⟨_, exec_seqFork k hsrc hq osrc oq fsrc fq hn e, ((State.answer_in (by decide)).seqLen (by decide) q).trans hlen,
    seq_replied k hw (by decide)⟩

theorem exec_seqFork_refused (e : (s.atHost h).seqFork src q n = (s.atHost h, 0x020A)) :
    ∃ v, exec (.seqFork h src q n) s = .next v ∧ v.mem = (s.atHost h).mem ∧ v.kv = (s.atHost h).kv ∧
      Replied s v h (.seqFork src q n) 0x020A [] :=
  ⟨_, exec_seqFork k hsrc hq osrc oq fsrc fq hn e, (State.answer_in (by decide)).eq .mem, (State.answer_in (by decide)).eq .kv,
    seq_replied k (OnlyIn.refl _ _) (by decide)⟩

end

/-! ### KV_CMD -/

section
variable (hq : q < 4096) (ho : (s.atHost h).seqOpen q = true)
include hq ho

theorem exec_resetSeq_len (k : Written s h (bKv (seqDie q) + 0x2C) (0x1000000 + q % 1024)) :
    ∃ v, exec (.resetSeq h (seqDie q) q) s = .next v ∧ v.seqLen q = 0 := by
  have hcmd : (s.atHost h).kvCmd (seqDie q) (0x1000000 + q % 1024) = (s.atHost h).seqReset q := by
    have hop : (0x1000000 + q % 1024) / 2 ^ 24 = 1 := by omega
    have hseq : 1024 * seqDie q + (0x1000000 + q % 1024) % 1024 = q := by
      unfold seqDie
      omega
    simp only [State.kvCmd, hop, hseq, ho, if_true]
  refine ⟨_, regCmd_kvCmd seqDie_lt (by omega) k, ?_⟩
  rw [hcmd, State.answered_in.seqLen, State.seqReset_len]

theorem exec_kvClose_entry (k : Written s h (bKv (seqDie q) + 0x2C) (0x2000000 + q % 1024)) :
    ∃ v, exec (.kvClose h (seqDie q) q) s = .next v ∧ v.seqOpen q = false ∧ v.seqLen q = 0 := by
  have hcmd : (s.atHost h).kvCmd (seqDie q) (0x2000000 + q % 1024) = (s.atHost h).seqClose q := by
    have hop : (0x2000000 + q % 1024) / 2 ^ 24 = 2 := by omega
    have hseq : 1024 * seqDie q + (0x2000000 + q % 1024) % 1024 = q := by
      unfold seqDie
      omega
    simp only [State.kvCmd, hop, hseq, ho, if_true]
  refine ⟨_, regCmd_kvCmd seqDie_lt (by omega) k, ?_⟩
  rw [hcmd, State.answered_in.seqOpen, State.answered_in.seqLen]
  exact ⟨State.seqClose_open, State.seqClose_len⟩

end

/-- CLEAR_COUNTERS of a window (R280). -/
theorem exec_kvClearCounters {d : Nat} (hd : d < 4) (k : Written s h (bKv d + 0x2C) 0x6000000) :
    ∃ v, exec (.kvClearCounters h d) s = .next v ∧ (∀ o ∈ [0x68, 0x6C, 0x70, 0x74, 0x78], v.regGet (bKv d + o) = 0#32) ∧
      v.regGet 0x50108 = 0#32 ∧ v.regGet 0x5010C = 0#32 ∧ v.mem = (s.atHost h).mem ∧ v.kv = (s.atHost h).kv ∧
      v.adapt = (s.atHost h).adapt := by
  have hcmd : (s.atHost h).kvCmd d 0x6000000 = (s.atHost h).kvClear d := rfl
  have hv : OnlyIn [.regs, .sdio] (s.atHost h) (((s.atHost h).kvClear d).answered h (bKv d + 0x2C) 0x6000000) :=
    OnlyIn.trans (State.kvClear_in.mono (by decide)) (State.answered_in.mono (by decide))
  refine ⟨_, (regCmd_kvCmd hd (by decide) k).trans (by rw [hcmd]), fun o ho => ?_, ?_, ?_, hv.eq .mem, hv.eq .kv, hv.eq .adapt⟩
  · rw [State.answered_in.regGet, State.kvClear_regGet, if_pos (Or.inr (Or.inr (List.mem_map_of_mem ho)))]
  · rw [State.answered_in.regGet, State.kvClear_regGet, if_pos (Or.inl rfl)]
  · rw [State.answered_in.regGet, State.kvClear_regGet, if_pos (Or.inr (Or.inl rfl))]

/-- Settles O29: each clause is the law of its command above; the number of a sequence names its die pair's window and its entry in it. -/
theorem sequencesAreOpenedForkedAndClosed : Obligations.SequencesAreOpenedForkedAndClosed := by
  intro h q s u d hq hd
  have hlt : q < 4096 := State.seqOk_lt hq
  refine ⟨?opened, fun k ho hf => exec_seqClose_entry k hq ho hf, ?forked, fun ho => ⟨exec_resetSeq_len hlt ho, exec_kvClose_entry hlt ho⟩,
    exec_kvClearCounters seqDie_lt, ?seqSel, fun n hn k => exec_kvPageSel seqDie_lt hn k⟩
  case opened => exact fun heads dim q4 mark sp0 pitch list max k hf he hc => exec_seqOpen_entry k hf he hc
  case forked =>
    intro src n k hsrc osrc oq fsrc fq hn
    refine ⟨fun w e => exec_seqFork_made k hsrc hq osrc oq fsrc fq hn e, fun hno => ?_⟩
    exact exec_seqFork_refused k hsrc hq osrc oq fsrc fq hn (State.seqFork_refused (hno.imp_left Ne.symm))
  case seqSel =>
    intro k
    have hsel := exec_kvSeqSel seqDie_lt k
    rwa [seqDie_add hlt] at hsel

end Sys2Proof.Machine
end

section
/-!
Reads of the Lintel stores that meet no uncorrectable word (R287, R589): they leave the command interface as it was, but for its event
log, and the home pair of the adaptation registers (R271).
-/
namespace Sys2Proof.Machine

/-- Of the command interface, MGMT and the home of the adaptation registers nothing has changed but the event log and the pending
interrupts. -/
structure HomeKept (s v : State) : Prop where
  quiet : Quiet s v
  home : v.regGet 0x50100 = s.regGet 0x50100

namespace HomeKept

variable {s v w : State}

theorem refl (s : State) : HomeKept s s := ⟨Quiet.refl s, rfl⟩

theorem trans (h : HomeKept s v) (k : HomeKept v w) : HomeKept s w := ⟨h.quiet.trans k.quiet, k.home.trans h.home⟩

theorem of_onlyIn {m : List Block} (h : OnlyIn m s v) (hs : Block.sdio ∉ m := by decide) (hm : Block.mgmt ∉ m := by decide)
    (hp : Block.part ∉ m := by decide) (hr : Block.regs ∉ m := by decide) : HomeKept s v :=
  ⟨Quiet.of_onlyIn h hs hm, h.regGet hp hr _⟩

theorem raise {a b c : Nat} (ha : a ≠ 0x50100) : HomeKept s (s.raise a b c) :=
  ⟨Quiet.raise, by rw [State.raise_regGet (by decide), if_neg ha.symm]⟩

theorem setFld {a hi lo n : Nat} (ha : a ≠ 0x50100) : HomeKept s (s.setFld a hi lo n) :=
  ⟨Quiet.of_onlyIn (State.setFld_only (m := [.regs]) (by decide) (OnlyIn.refl _ s)), State.setFld_regGet_ne ha.symm⟩

theorem bumpHi {a n : Nat} (ha : a ≠ 0x50100) : HomeKept s (s.bumpHi a n) := setFld ha

theorem bumpLo {a n : Nat} (ha : a ≠ 0x50100) : HomeKept s (s.bumpLo a n) := setFld ha

theorem updMt {f : MemTier → MemTier} : HomeKept s (s.updMt f) :=
  of_onlyIn (State.updMt_only (m := [.mt]) (by decide) (OnlyIn.refl _ s))

theorem unflip {k : Nat} : HomeKept s (s.unflip k) := updMt

theorem repairRow {row : Nat} : HomeKept s (s.repairRow row) := by
  unfold State.repairRow
  extract_lets -merge -underBinder +onlyGivenNames x
  have hx : HomeKept s x := updMt
  clear_value x
  split
  split
  · extract_lets -merge -underBinder +onlyGivenNames y c z
    have hy : HomeKept s y := hx.trans updMt
    have hz : HomeKept y z := by
      subst z
      split
      · exact refl y
      · exact of_onlyIn (State.updCore_only (m := [.die]) (by decide) (OnlyIn.refl _ y))
    clear_value y z
    have hbump : HomeKept z (z.bumpHi 0xF0074) := bumpHi (by decide)
    exact hy.trans (hz.trans (hbump.trans (raise (by decide))))
  · extract_lets -merge -underBinder +onlyGivenNames y d f
    have hy : HomeKept s y := by
      have hworn : HomeKept x (x.updMt (fun m => { m with worn := row :: m.worn })) := updMt
      have hbump : HomeKept s ((x.updMt (fun m => { m with worn := row :: m.worn })).bumpLo 0xF0074) :=
        hx.trans (hworn.trans (bumpLo (by decide)))
      exact hbump.trans (raise (by decide))
    clear_value y
    split
    · exact hy
    · split
      · exact hy.trans updMt
      · split
        · exact hy.trans updMt
        · split
          · exact hy
          · exact hy.trans ((of_onlyIn (State.pteSet_only (m := [.mem, .mt]) (by decide) (OnlyIn.refl _ y))).trans updMt)

theorem wearRow {k : Nat} : HomeKept s (s.wearRow k) := by
  unfold State.wearRow
  extract_lets row old x
  have hx : HomeKept s x := updMt
  clear_value x
  split
  · exact refl s
  · split
    · exact hx.trans repairRow
    · exact hx

/-- What holds of a result holds of every result before it, where each step keeps it only from one it holds of; the steps have kept the
home. -/
theorem foldl {α β : Type} {good : β → Prop} {f : State × β → α → State × β} {l : List α} {p : State × β}
    (hf : ∀ p x, good (f p x).2 → good p.2 ∧ HomeKept p.1 (f p x).1) (h : good (l.foldl f p).2) :
    good p.2 ∧ HomeKept p.1 (l.foldl f p).1 := by
  induction l generalizing p with
  | nil => exact ⟨h, refl p.1⟩
  | cons x l ih =>
    obtain ⟨hgood, hrest⟩ := ih h
    obtain ⟨hp, hstep⟩ := hf p x hgood
    exact ⟨hp, hstep.trans hrest⟩

/-- A word that is corrected is counted, raised, and counted for its row. -/
theorem corrected {a b e i k : Nat} (ha : a ≠ 0x50100) (he : e ≠ 0x50100) :
    HomeKept s ((((s.bumpHi a b).raise e i).unflip k).wearRow k) := by
  have hcount : HomeKept s ((s.bumpHi a b).raise e i) := (bumpHi ha).trans (raise he)
  exact hcount.trans (unflip.trans wearRow)

/-- A read that meets no uncorrectable word. -/
theorem eccRead {k n : Nat} (h : (s.eccRead k n).2 = false) : HomeKept s (s.eccRead k n).1 := by
  unfold State.eccRead at h ⊢
  refine (foldl (good := fun b => b = false) (fun p f => ?_) h).2
  extract_lets x sp one d c a
  by_cases hone : one = true
  · simp only [hone, if_true, Bool.not_true, Bool.or_false]
    split
    · exact fun hp => ⟨hp, corrected (by unfold aLin; omega) (by decide)⟩
    · split
      next hcore =>
        have ha : a ≠ 0x50100 := by
          unfold a bFabric
          omega
        have hf : bFabric d + 0x30 ≠ 0x50100 := by
          unfold bFabric
          omega
        have he : evFabric d ≠ 0x50100 := by
          unfold evFabric
          omega
        exact fun hp => ⟨hp, (bumpHi ha).trans (corrected hf he)⟩
      next =>
        split
        next g hg =>
          have hlt : g < 8 := List.mem_range.1 (List.mem_of_find?_eq_some hg)
          have ha : aGrp g + 0x34 ≠ 0x50100 := by
            unfold aGrp
            omega
          exact fun hp => ⟨hp, (bumpHi ha).trans unflip⟩
        · exact fun hp => ⟨hp, refl _⟩
  · simp only [hone, Bool.false_eq_true, if_false, Bool.not_false, Bool.or_true]
    split
    · exact fun hp => nomatch hp
    · split
      · exact fun hp => nomatch hp
      · split
        · exact fun hp => nomatch hp
        · exact fun hp => nomatch hp

/-- Masters that can be read. -/
theorem mastersGet {g k n : Nat} {m : Masters} (h : (s.mastersGet g k n).2 = some m) : HomeKept s (s.mastersGet g k n).1 := by
  have hread : (s.eccRead (s.masterKey g k) (12 * n)).2 = false → HomeKept s (s.eccRead (s.masterKey g k) (12 * n)).1 := eccRead
  dsimp only [State.mastersGet] at h ⊢
  generalize s.eccRead (s.masterKey g k) (12 * n) = x at h hread ⊢
  obtain ⟨v, bad⟩ := x
  cases bad with
  | false => exact hread rfl
  | true => exact nomatch h

theorem mastersAll {ws : List (List Word)} (h : s.mastersAll.2 = some ws) : HomeKept s s.mastersAll.1 := by
  unfold State.mastersAll at h ⊢
  refine (foldl (good := fun o => o ≠ none) (fun p g => ?_) (by rw [h]; exact Option.some_ne_none ws)).2
  have hread (m : Masters) : (p.1.mastersGet g.id 0 g.load.length).2 = some m → HomeKept p.1 (p.1.mastersGet g.id 0 g.load.length).1 :=
    mastersGet
  generalize p.1.mastersGet g.id 0 g.load.length = x at hread
  obtain ⟨v, o⟩ := x
  intro hall
  cases o with
  | none => exact (hall (by rcases p with ⟨_, _ | _⟩ <;> rfl)).elim
  | some m => exact ⟨fun hnone => hall (by simp [hnone]), hread m rfl⟩

end HomeKept

end Sys2Proof.Machine
end

section
/-!
Adaptation (R270, R271, R274, R275): the epoch that a commit or a rollback stages, and the masters that RESET_MASTERS writes back.
-/
namespace Sys2Proof.Machine

variable {s : State}

/-! ### Registers -/

/-- A field at the low end of a register reads what is put into it. -/
theorem State.setFld_rfld_low {a hi v : Nat} (h : hi < 32) : (s.setFld a hi 0 v).rfld a hi 0 = v % 2 ^ (hi + 1) := by
  have hfld (n : Nat) : bitsOf n hi 0 = n % 2 ^ (hi + 1) := rfl
  have hreg : (s.setFld a hi 0 v).regGet a =
      wordOf ((s.regGet a).toNat - bitsOf (s.regGet a).toNat hi 0 * 2 ^ 0 + v % 2 ^ (hi + 1 - 0) * 2 ^ 0) := State.regSet_regGet_self
  have hdvd : 2 ^ (hi + 1) ∣ 2 ^ 32 := Nat.pow_dvd_pow 2 h
  unfold State.rfld fld
  rw [hreg, hfld, hfld, wordOf, BitVec.toNat_ofNat, Nat.mod_mod_of_dvd _ hdvd, Nat.pow_zero, Nat.mul_one, Nat.mul_one, Nat.sub_zero]
  have hlow := Nat.div_add_mod (s.regGet a).toNat (2 ^ (hi + 1))
  rw [Nat.sub_eq_of_eq_add hlow.symm, Nat.mul_add_mod, Nat.mod_mod]

/-- A count in [15:0] of a register advances, and stops at its largest value. -/
theorem State.bumpLo_count {a : Nat} : (s.bumpLo a).rfld a 15 0 = satAdd 16 (s.rfld a 15 0) 1 := by
  have hmax : satAdd 16 (s.rfld a 15 0) 1 < 2 ^ (15 + 1) := by
    unfold satAdd
    omega
  exact (State.setFld_rfld_low (by decide)).trans (Nat.mod_eq_of_lt hmax)

theorem State.adaptHome_lt : s.adaptHome < 4 := bitsOf_lt

/-- The event register of a KV window is no register of NET. -/
theorem evKv_block {d : Nat} (hd : d < 4) : evKv d / 65536 ≠ 13 := by
  unfold evKv
  omega

/-- The shared registers of KV are no event registers. -/
theorem evKv_ne_shared {a : Nat} (d : Nat) (h : 0x50100 ≤ a) (ha : a < 0x54008) : a ≠ evKv d := by
  unfold evKv
  omega

/-! ### Epochs -/

section
variable {e : EpochVals}

theorem State.stageEpoch_adapt : (s.stageEpoch e).adapt = { s.adapt with staged := some e, places := (s.stageEpoch e).adapt.places } := rfl

theorem State.stageEpoch_staged : (s.stageEpoch e).bond.epochStaged = true := rfl

/-- What an epoch places lies in the areas of the models that are loaded (R270). -/
theorem State.stageEpoch_places : ∀ q ∈ (s.stageEpoch e).adapt.places, ∃ m ∈ s.sdio.models, ∃ a ∈ m.areas,
    q.1 = a.1 ∧ a.2.1 ≤ q.2.1 ∧ q.2.1 + q.2.2.length ≤ a.2.1 + a.2.2 := by
  intro q hq
  have hkeep := (List.mem_filter.1 hq).2
  simp only [Bool.and_eq_true, List.any_eq_true, List.mem_flatMap, beq_iff_eq, decide_eq_true_eq] at hkeep
  obtain ⟨⟨a, ⟨m, hm, ha⟩, ⟨hdie, hlo⟩, hhi⟩, -⟩ := hkeep
  exact ⟨m, hm, a, ha, hdie, hlo, hhi⟩

end

/-! ### ADAPT_COMMIT -/

section
variable {t : Nat} {x : State} {ws : List (List Word)} {e : EpochVals} (hc : (s.to t).adapt.committing = true)
include hc

/-- Masters that cannot be read abandon a commit (log entry 96). -/
theorem exec_adaptCommit_unread (hw : ((s.to t).updAdapt (fun a => { a with committing := false })).mastersAll = (x, none)) :
    exec (.adaptCommit t) s = .next (x.bumpLo 0x5010C) := by
  show execAdaptCommit t s = _
  simp only [execAdaptCommit, guardNext, hc, if_true, hw]

/-- SCALE_RANGE abandons a commit. -/
theorem exec_adaptCommit_range (hw : ((s.to t).updAdapt (fun a => { a with committing := false })).mastersAll = (x, some ws))
    (he : formEpoch x.adapt ws = none) :
    exec (.adaptCommit t) s = .next ((x.bumpLo 0x5010C).raise (evKv x.adaptHome) 1) := by
  show execAdaptCommit t s = _
  simp only [execAdaptCommit, guardNext, hc, if_true, hw, he]

/-- An epoch that is formed is staged and counted. -/
theorem exec_adaptCommit_formed (hw : ((s.to t).updAdapt (fun a => { a with committing := false })).mastersAll = (x, some ws))
    (he : formEpoch x.adapt ws = some e) :
    exec (.adaptCommit t) s = .next ((((x.stageEpoch e).updAdapt (fun a => { a with changed := false })).bump 0x50108).raise
      (evKv x.adaptHome) 3) := by
  show execAdaptCommit t s = _
  simp only [execAdaptCommit, guardNext, hc, if_true, hw, he]

end

/-- What reading the masters of a commit leaves: the adaptation as it was, its home, and the models. -/
theorem State.commit_reads {x u : State} {ws : List (List Word)}
    (hw : (u.updAdapt (fun a => { a with committing := false })).mastersAll = (x, some ws)) :
    x.adapt = { u.adapt with committing := false } ∧ x.adaptHome = u.adaptHome ∧ x.sdio.models = u.sdio.models := by
  have hkept := HomeKept.mastersAll (congrArg Prod.snd hw)
  have hadapt := (State.mastersAll_only (m := [.regs, .mem, .tn, .die, .stream, .kv, .mt, .bond, .line, .plumb, .power, .test, .sdio])
    (by decide) (OnlyIn.refl _ (u.updAdapt (fun a => { a with committing := false })))).fst
  rw [hw] at hkept hadapt
  exact ⟨hadapt.eq .adapt, congrArg (fld · 17 16) hkept.home, congrArg (·.models) hkept.quiet.sdio⟩

/-- The epoch that a commit has formed waits for the next frame boundary. -/
theorem exec_adaptCommit_stages {t : Nat} {x : State} {ws : List (List Word)} {e : EpochVals} (hc : (s.to t).adapt.committing = true)
    (hw : ((s.to t).updAdapt (fun a => { a with committing := false })).mastersAll = (x, some ws))
    (he : formEpoch x.adapt ws = some e) :
    ∃ v, exec (.adaptCommit t) s = .next v ∧
      v.adapt = { (s.to t).adapt with committing := false, staged := some e, places := v.adapt.places, changed := false } ∧
      (∀ q ∈ v.adapt.places, ∃ m ∈ (s.to t).sdio.models, ∃ a ∈ m.areas,
        q.1 = a.1 ∧ a.2.1 ≤ q.2.1 ∧ q.2.1 + q.2.2.length ≤ a.2.1 + a.2.2) ∧
      v.bond.epochStaged = true ∧ v.regGet 0x50108 = x.regGet 0x50108 + 1#32 ∧ v.rbit (evKv (s.to t).adaptHome) 3 = true ∧
      v.mem = x.mem := by
  obtain ⟨hadapt, hhome, hmodels⟩ := State.commit_reads hw
  have hplaces := State.stageEpoch_places (s := x) (e := e)
  rw [hmodels] at hplaces
  refine ⟨_, exec_adaptCommit_formed hc hw he, ?_, ?_, ?_, ?_, ?_, ?_⟩
  · rw [State.raise_adapt]
    exact (congrArg (fun a : Adapt => { a with staged := some e, places := (x.stageEpoch e).adapt.places, changed := false }) hadapt :)
  · rw [State.raise_adapt]
    exact hplaces
  · rw [State.raise_bond]
    rfl
  · rw [State.raise_regGet (by decide), if_neg (evKv_ne_shared _ (by decide) (by decide)), State.bump_regGet_self]
    rfl
  · rw [← hhome]
    exact State.raise_bit (evKv_block State.adaptHome_lt) (by decide)
  · rw [State.raise_mem]
    rfl

theorem exec_adaptCommit_abandons {t : Nat} {x : State} {ws : List (List Word)} (hc : (s.to t).adapt.committing = true)
    (hw : ((s.to t).updAdapt (fun a => { a with committing := false })).mastersAll = (x, some ws)) (he : formEpoch x.adapt ws = none) :
    ∃ v, exec (.adaptCommit t) s = .next v ∧ v.adapt = { (s.to t).adapt with committing := false } ∧ v.mem = x.mem ∧
      v.rfld 0x5010C 15 0 = satAdd 16 (x.rfld 0x5010C 15 0) 1 ∧ v.rbit (evKv (s.to t).adaptHome) 1 = true := by
  obtain ⟨hadapt, hhome, -⟩ := State.commit_reads hw
  refine ⟨_, exec_adaptCommit_range hc hw he, ?_, ?_, ?_, ?_⟩
  · rw [State.raise_adapt, State.bumpLo_adapt, hadapt]
  · rw [State.raise_mem, State.bumpLo_mem]
  · unfold State.rfld
    rw [State.raise_regGet (by decide), if_neg (evKv_ne_shared _ (by decide) (by decide))]
    exact State.bumpLo_count
  · rw [← hhome]
    exact State.raise_bit (evKv_block State.adaptHome_lt) (by decide)

/-! ### COMMIT and ROLLBACK -/

theorem exec_commit_adapt {h : Hdr} (k : Written s h 0x5002C 0x3000000) :
    ∃ v, exec (.commit h) s = .next v ∧ v.adapt = { (s.atHost h).adapt with
      committing := (s.atHost h).adapt.committing || ((s.atHost h).adapt.changed && !(s.atHost h).rbit 0x50104 1) } := by
  refine ⟨_, regCmd_kvCmd (d := 0) (by decide) (by decide) k, ?_⟩
  have hcmd : (s.atHost h).kvCmd 0 0x3000000 = (s.atHost h).commitBegin := rfl
  refine (State.answered_in.eq .adapt).trans ?_
  rw [hcmd, State.commitBegin]
  split
  next hb => simp only [hb, Bool.or_true, State.updAdapt_adapt]
  next hb => simp only [hb, Bool.or_false]

theorem State.epochRollback_adapt : s.epochRollback.adapt =
    { s.adapt with staged := some s.adapt.previous, places := s.epochRollback.adapt.places } := by
  unfold State.epochRollback
  rw [State.raise_adapt]
  rfl

theorem State.epochRollback_staged : s.epochRollback.bond.epochStaged = true := by
  unfold State.epochRollback
  rw [State.raise_bond]
  rfl

/-- A rollback sets FREEZE. -/
theorem State.epochRollback_freezes : s.epochRollback.rbit 0x50104 1 = true := by
  refine State.raise_bit_keeps (by decide) ?_
  unfold State.rbit
  rw [State.regSet_regGet_self, wbit_or, Bool.or_eq_true]
  exact Or.inr rfl

theorem exec_rollback_stages {h : Hdr} (k : Written s h 0x5002C 0x4000000) :
    ∃ v, exec (.rollback h) s = .next v ∧
      v.adapt = { (s.atHost h).adapt with staged := some (s.atHost h).adapt.previous, places := v.adapt.places } ∧
      v.bond.epochStaged = true ∧ v.rbit 0x50104 1 = true ∧ v.rbit (evKv (s.atHost h).adaptHome) 0 = true := by
  have hcmd : (s.atHost h).kvCmd 0 0x4000000 = (s.atHost h).epochRollback := rfl
  have hv : OnlyIn [.sdio] (s.atHost h).epochRollback ((s.atHost h).epochRollback.answered h 0x5002C 0x4000000) := State.answered_in
  have hadapt : ((s.atHost h).epochRollback.answered h 0x5002C 0x4000000).adapt = (s.atHost h).epochRollback.adapt := hv.eq .adapt
  refine ⟨_, (regCmd_kvCmd (d := 0) (by decide) (by decide) k).trans (by rw [hcmd]; rfl), ?_, (congrArg Bond.epochStaged (hv.eq .bond)).trans
    State.epochRollback_staged, (hv.rbit (by decide) (by decide) _ _).trans State.epochRollback_freezes,
    (hv.rbit (by decide) (by decide) _ _).trans (State.raise_bit (evKv_block State.adaptHome_lt) (by decide))⟩
  rw [hadapt]
  exact State.epochRollback_adapt

/-! ### RESET_MASTERS -/

/-- A number inside the first of two lists of bytes. -/
theorem leAt_append_left {a b : List Byte} {j n : Nat} (h : j + n ≤ a.length) : leAt (a ++ b) j n = leAt a j n := by
  unfold leAt
  rw [List.drop_append_of_le_length (by omega), List.take_append_of_le_length (by rw [List.length_drop]; omega)]

theorem leAt_append_right {a b : List Byte} {j n : Nat} : leAt (a ++ b) (a.length + j) n = leAt b j n := by
  unfold leAt
  rw [List.drop_length_add_append]

/-- A number inside one of the parts of equal length that a list of bytes is made of. -/
theorem leAt_flatMap {α : Type} {l : List α} {f : α → List Byte} {c k j n : Nat} (hf : ∀ x, (f x).length = c) (hk : k < l.length)
    (hj : j + n ≤ c) : leAt (l.flatMap f) (c * k + j) n = leAt (f l[k]) j n := by
  induction l generalizing k with
  | nil => exact nomatch hk
  | cons x l ih =>
    rw [List.flatMap_cons]
    cases k with
    | zero =>
      rw [Nat.mul_zero, Nat.zero_add]
      exact leAt_append_left (by rw [hf]; exact hj)
    | succ k =>
      have hat : c * (k + 1) + j = (f x).length + (c * k + j) := by
        rw [hf, Nat.mul_succ]
        omega
      rw [hat, leAt_append_right]
      exact ih (Nat.lt_of_succ_lt_succ hk)

/-- The 12 bytes of an element with no momentum and no gradient (R271). -/
def freshElement (w : Word) : List Byte := bytesOf [w, 0#32, 0#32]

theorem freshElement_length (w : Word) : (freshElement w).length = 12 := rfl
theorem freshElement_master (w : Word) : leAt (freshElement w) 0 4 = w.toNat := leNat_leBytes_of_lt (n := 4) w.isLt
theorem freshElement_momentum (w : Word) : leAt (freshElement w) 4 4 = 0 := rfl
theorem freshElement_gradient (w : Word) : leAt (freshElement w) 8 4 = 0 := rfl

/-- The bytes of the masters of a group at model load. -/
def AdaptGroup.freshBytes (g : AdaptGroup) : List Byte := g.load.flatMap freshElement

theorem AdaptGroup.freshBytes_length {g : AdaptGroup} : g.freshBytes.length = 12 * g.load.length := by
  unfold AdaptGroup.freshBytes
  induction g.load with
  | nil => rfl
  | cons w l ih =>
    rw [List.flatMap_cons, List.length_append, ih, freshElement_length, List.length_cons]
    omega

/-- Resetting a group writes the bytes of its load. -/
theorem State.mastersPut_fresh {g : AdaptGroup} : s.mastersPut g.id 0 g.fresh = s.stBytes (s.masterKey g.id 0) g.freshBytes := by
  have hbytes (l : List Word) : (l.zip ((List.replicate l.length 0#32).zip (List.replicate l.length 0#32))).flatMap
      (fun (w, x, y) => bytesOf [w, x, y]) = l.flatMap freshElement := by
    induction l with
    | nil => rfl
    | cons w l ih => exact congrArg (freshElement w ++ ·) ih
  exact congrArg (s.stBytes (s.masterKey g.id 0)) (hbytes g.load)

/-- Elements of the groups of a list before a group. -/
def loadBefore (l : List AdaptGroup) (g : Nat) : Nat := ((l.takeWhile (fun x => x.id != g)).map (fun x => x.load.length)).sum

theorem loadBefore_self {g : AdaptGroup} {l : List AdaptGroup} : loadBefore (g :: l) g.id = 0 := by
  simp [loadBefore]

theorem loadBefore_tail {g : AdaptGroup} {l : List AdaptGroup} {i : Nat} (h : g.id ≠ i) :
    loadBefore (g :: l) i = g.load.length + loadBefore l i := by
  simp [loadBefore, h]

/-- Groups of different numbers stand one behind the other in the table of masters. -/
theorem loadBefore_pairwise {l : List AdaptGroup} (h : l.Pairwise (fun a b => a.id ≠ b.id)) :
    l.Pairwise (fun a b => loadBefore l a.id + a.load.length ≤ loadBefore l b.id) := by
  induction l with
  | nil => exact List.Pairwise.nil
  | cons g l ih =>
    obtain ⟨hg, hl⟩ := List.pairwise_cons.1 h
    refine List.pairwise_cons.2 ⟨fun b hb => ?_, (ih hl).imp_of_mem fun {a b} ha hb hab => ?_⟩
    · rw [loadBefore_self, loadBefore_tail (hg b hb)]
      omega
    · rw [loadBefore_tail (hg a ha), loadBefore_tail (hg b hb)]
      omega

theorem State.each_nil {α : Type} {f : State → α → State} : s.each [] f = s := rfl

theorem State.each_cons {α : Type} {x : α} {l : List α} {f : State → α → State} : s.each (x :: l) f = (f s x).each l f := rfl

/-- Writes of ranges of which none meets another: each range reads what was written to it. -/
theorem State.each_stBytes_outside {α : Type} {l : List α} {key : α → Nat} {bytes : α → List Byte} {a n : Nat}
    (h : ∀ y ∈ l, a + n ≤ key y ∨ key y + (bytes y).length ≤ a) :
    (s.each l (fun s x => s.stBytes (key x) (bytes x))).ldN a n = s.ldN a n := by
  induction l generalizing s with
  | nil => rfl
  | cons x l ih =>
    rw [State.each_cons, ih fun y hy => h y (List.mem_cons_of_mem _ hy), State.stBytes_ldN_outside (h x List.mem_cons_self)]

theorem State.each_stBytes_ldN {α : Type} {l : List α} {key : α → Nat} {bytes : α → List Byte} {x : α} {j n : Nat}
    (hl : l.Pairwise (fun a b => key a + (bytes a).length ≤ key b)) (hx : x ∈ l) (hj : j + n ≤ (bytes x).length) :
    (s.each l (fun s x => s.stBytes (key x) (bytes x))).ldN (key x + j) n = leAt (bytes x) j n := by
  induction l generalizing s with
  | nil => exact nomatch hx
  | cons y l ih =>
    obtain ⟨hy, hrest⟩ := List.pairwise_cons.1 hl
    rw [State.each_cons]
    rcases List.mem_cons.1 hx with rfl | hx
    · refine (State.each_stBytes_outside fun z hz => Or.inl ?_).trans (State.stBytes_ldN_inside hj)
      have hbehind := hy z hz
      omega
    · exact ih hrest hx

/-- RESET_MASTERS writes each group's masters where the group stands. -/
theorem State.resetMasters_eq : s.resetMasters = s.each s.adapt.groups (fun v g => v.stBytes (s.masterKey g.id 0) g.freshBytes) := by
  have hkey (v : State) (h : OnlyIn [.mem, .mt] s v) (l : List AdaptGroup) :
      v.each l (fun v g => v.mastersPut g.id 0 g.fresh) = v.each l (fun v g => v.stBytes (s.masterKey g.id 0) g.freshBytes) := by
    induction l generalizing v with
    | nil => rw [State.each_nil, State.each_nil]
    | cons g l ih =>
      have hadapt : v.adapt = s.adapt := h.eq .adapt
      have hhome : v.adaptHome = s.adaptHome := congrArg (fld · 17 16) (h.regGet (by decide) (by decide) _)
      have hput : v.mastersPut g.id 0 g.fresh = v.stBytes (s.masterKey g.id 0) g.freshBytes := by
        rw [State.mastersPut_fresh]
        unfold State.masterKey
        rw [hadapt, hhome]
      rw [State.each_cons, State.each_cons, hput]
      exact ih _ (State.stBytes_only (by decide) h)
  exact hkey s (OnlyIn.refl _ s) s.adapt.groups

theorem State.resetMasters_in : OnlyIn [.mem, .mt] s s.resetMasters :=
  State.each_only (OnlyIn.refl _ s) fun _ _ h => State.mastersPut_only (by decide) h

theorem Adapt.before_eq {a : Adapt} {g : Nat} : a.before g = loadBefore a.groups g := rfl

/-- The key of an element is 12 bytes a place behind that of the group's first. -/
theorem State.masterKey_add {g k : Nat} : s.masterKey g k = s.masterKey g 0 + 12 * k := by
  unfold State.masterKey memKey
  omega

/-- A number of an element that RESET_MASTERS has written. -/
theorem State.resetMasters_ldN {g : AdaptGroup} {k j n : Nat} (hid : s.adapt.groups.Pairwise (fun a b => a.id ≠ b.id))
    (hg : g ∈ s.adapt.groups) (hk : k < g.load.length) (hj : j + n ≤ 12) :
    s.resetMasters.ldN (s.masterKey g.id k + j) n = leAt (freshElement g.load[k]) j n := by
  have hrows : s.adapt.groups.Pairwise (fun a b => s.masterKey a.id 0 + a.freshBytes.length ≤ s.masterKey b.id 0) := by
    refine (loadBefore_pairwise hid).imp fun {a b} hab => ?_
    rw [AdaptGroup.freshBytes_length]
    unfold State.masterKey memKey
    rw [Adapt.before_eq, Adapt.before_eq]
    omega
  have hin : 12 * k + j + n ≤ g.freshBytes.length := by
    rw [AdaptGroup.freshBytes_length]
    omega
  have helem : leAt g.freshBytes (12 * k + j) n = leAt (freshElement g.load[k]) j n := leAt_flatMap freshElement_length hk hj
  have hread := State.each_stBytes_ldN (s := s) (key := fun g : AdaptGroup => s.masterKey g.id 0) hrows hg hin
  rw [State.resetMasters_eq, State.masterKey_add, Nat.add_assoc]
  exact hread.trans helem

theorem exec_resetMasters {h : Hdr} (k : Written s h 0x5002C 0x5000000) :
    ∃ v, exec (.resetMasters h) s = .next v ∧ v.adapt = (s.atHost h).adapt ∧
      ((s.atHost h).adapt.groups.Pairwise (fun a b => a.id ≠ b.id) → ∀ g ∈ (s.atHost h).adapt.groups, ∀ k, k < g.load.length →
        v.ldN ((s.atHost h).masterKey g.id k) 4 = (lget 0#32 g.load k).toNat ∧ v.ldN ((s.atHost h).masterKey g.id k + 4) 4 = 0 ∧
          v.ldN ((s.atHost h).masterKey g.id k + 8) 4 = 0) := by
  have hcmd : (s.atHost h).kvCmd 0 0x5000000 = (s.atHost h).resetMasters := rfl
  have hv : OnlyIn [.sdio] (s.atHost h).resetMasters ((s.atHost h).resetMasters.answered h 0x5002C 0x5000000) := State.answered_in
  refine ⟨_, (regCmd_kvCmd (d := 0) (by decide) (by decide) k).trans (by rw [hcmd]; rfl),
    (hv.eq .adapt).trans (State.resetMasters_in.eq .adapt), fun hid g hg k hk => ?_⟩
  have hload : lget 0#32 g.load k = g.load[k] := lget_of_getElem? (List.getElem?_eq_getElem hk)
  have hread (j : Nat) (hj : j + 4 ≤ 12) := (hv.ldN (by decide) _ _).trans (State.resetMasters_ldN hid hg hk hj)
  have hmaster := hread 0 (by decide)
  rw [Nat.add_zero] at hmaster
  rw [hload]
  exact ⟨hmaster.trans (freshElement_master _), (hread 4 (by decide)).trans (freshElement_momentum _),
    (hread 8 (by decide)).trans (freshElement_gradient _)⟩

end Sys2Proof.Machine
end

section
/-!
The merge of partial attention results (R268), with the epochs of adaptation (R274, R275).
-/
namespace Sys2Proof.Machine

/-! ### ATTN_MERGE -/

/-- What a merge that is due comes to: the partial results are read where the ATTN's descriptor places them, and merged in the order
their tasks completed. -/
def State.mergePartials (s : State) (d i addr : Nat) (r : RunTask) (order : List Nat) : State :=
  match s.attnDesc d i addr r false with
  | .error o => s.finish d i o
  | .ok v => match s.linGet d i r v.part (order.length * v.nq * (4 * v.dim + 8)) with
    | (s, .error o) => s.finish d i o
    | (s, .ok bs) => (s.attnWrite d i r v (mergeRows r.rclass v bs order)).moves d i

section
variable {s y : State} {d i addr : Nat} {r : RunTask} {order : List Nat} {o : TaskOut} {v : AttnDesc} {bs : List Byte}

theorem State.mergePartials_refused (ho : s.attnDesc d i addr r false = .error o) :
    s.mergePartials d i addr r order = s.finish d i o := by
  simp only [State.mergePartials, ho]

variable (hv : s.attnDesc d i addr r false = .ok v)
include hv

/-- Partial results that cannot be read end the task. -/
theorem State.mergePartials_faulted (hy : s.linGet d i r v.part (order.length * v.nq * (4 * v.dim + 8)) = (y, .error o)) :
    s.mergePartials d i addr r order = y.finish d i o := by
  simp only [State.mergePartials, hv, hy]

theorem State.mergePartials_merges (hy : s.linGet d i r v.part (order.length * v.nq * (4 * v.dim + 8)) = (y, .ok bs)) :
    s.mergePartials d i addr r order = (y.attnWrite d i r v (mergeRows r.rclass v bs order)).moves d i := by
  simp only [State.mergePartials, hv, hy]

end

section
variable {t d i addr : Nat} {s : State} {r : RunTask} (h : (s.to t).live d i = some r) (hc : (s.to t).changing = none)
include h hc

/-- A task that has expanded no ATTN has nothing to merge. -/
theorem exec_attnMerge_nil (hr : r.splits = []) : exec (.attnMerge t d i addr) s = .next (s.to t) := by
  show execAttnMerge t d i addr s = _
  unfold execAttnMerge
  rw [onTask_runs h hc, hr]

variable {x : SplitAttn} {rest : List SplitAttn} (hr : r.splits = x :: rest)
include hr

/-- A merge waits for the oldest expanded ATTN's partial tasks, and for its own ATTN's turn. -/
theorem exec_attnMerge_waits (hx : x.at_ ≠ addr ∨ x.waiting ≠ [] ∨ x.running ≠ []) :
    exec (.attnMerge t d i addr) s = .next (s.to t) := by
  show execAttnMerge t d i addr s = _
  unfold execAttnMerge
  rw [onTask_runs h hc, hr]
  exact congrArg _ (if_pos (by simpa using hx))

/-- Once every partial task of the oldest expanded ATTN has completed, their results are merged. -/
theorem exec_attnMerge_due (ha : x.at_ = addr) (hw : x.waiting = []) (hn : x.running = []) :
    exec (.attnMerge t d i addr) s =
      .next (((s.to t).updRun d i (fun r => { r with splits := rest })).mergePartials d i addr r x.order) := by
  show execAttnMerge t d i addr s = _
  unfold execAttnMerge
  rw [onTask_runs h hc, hr]
  exact congrArg _ (if_neg (by simp [ha, hw, hn]))

end

/-- Settles O30: each clause is the law of one outcome of its command; a commit and a rollback stage their epoch alike, by
`State.stageEpoch`. -/
theorem partialsMergeAndEpochsCommit : Obligations.PartialsMergeAndEpochsCommit := by
  intro t d i addr h s u
  refine ⟨fun r hr hc => exec_attnMerge_nil hr hc, fun r x rest hr hc hs => ⟨exec_attnMerge_waits hr hc hs, fun ha hw hn => ?merged⟩,
    fun hc => ⟨fun x => exec_adaptCommit_unread hc, fun x ws e => exec_adaptCommit_stages hc, fun x ws => exec_adaptCommit_abandons hc⟩,
    exec_commit_adapt, exec_rollback_stages, exec_resetMasters⟩
  case merged =>
    rw [exec_attnMerge_due hr hc hs ha hw hn]
    exact ⟨fun o ho => congrArg _ (State.mergePartials_refused ho), fun v y o hv hy => congrArg _ (State.mergePartials_faulted hv hy),
      fun v y bs hv hy => congrArg _ (State.mergePartials_merges hv hy)⟩

end Sys2Proof.Machine
end

section
/-!
GRAPH_SUBMIT of a graph that does not parse (R323). The reply MALFORMED_IMAGE (0x0106) is of the Malformed class, and so a protocol
violation of the client (R507): the command also logs, counts and raises it. The statement has the command end in the reply alone.
-/
namespace Sys2Proof.Machine

variable {s : State} {p : Packet} {st : Nat} {bs : List Byte}

/-! ### A reply of the Malformed class (R507) -/

theorem Quiet.violLog {s v : State} (h : Quiet s v) : v.sdio.violLog = s.sdio.violLog := congrArg (·.violLog) h.sdio

/-- Counting a violation logs none. -/
theorem State.violCount_violLog : (s.violCount p).sdio.violLog = s.sdio.violLog := by
  unfold State.violCount
  extract_lets c l x
  have hx : x.sdio.violLog = s.sdio.violLog := by
    subst x
    rw [State.updSdio_sdio, State.bumpHi_sdio]
  clear_value x
  split
  · rw [Quiet.raise.violLog, State.setFld_sdio, hx]
  · exact hx

/-- A violation is the latest entry of the log, which holds 256. -/
theorem State.violate_violLog :
    (s.violate p st).sdio.violLog = (s.sdio.violLog ++ [s.violEntry p st]).drop (s.sdio.violLog.length + 1 - 256) := by
  unfold State.violate
  extract_lets e x
  have hx : x.sdio.violLog = (s.sdio.violLog ++ [e]).drop ((s.sdio.violLog ++ [e]).length - 256) := by
    subst x
    rw [State.updSdio_sdio]
  rw [State.violCount_violLog, Quiet.raise.violLog, hx, List.length_append, List.length_singleton]

/-- A status of the Malformed class is replied and is a violation. -/
theorem State.answer_malformed (hs : st / 256 = 1) : s.answer p st bs = (s.reply p st bs).violate p st := if_pos hs

/-- While the violation log has room, a status of the Malformed class changes more than the reply does. -/
theorem State.answer_ne_reply (hs : st / 256 = 1) (hl : s.sdio.violLog.length < 256) : s.answer p st bs ≠ s.reply p st bs := by
  intro e
  have hlog : (s.answer p st bs).sdio.violLog.length = (s.reply p st bs).sdio.violLog.length := by rw [e]
  rw [State.answer_malformed hs, State.violate_violLog, State.reply_violLog, List.length_drop, List.length_append,
    List.length_singleton] at hlog
  omega

/-! ### GRAPH_SUBMIT -/

/-- A graph that can be read and does not parse is answered MALFORMED_IMAGE (R323). -/
theorem exec_graphSubmit_unparsed {h : Hdr} {d a : Nat} {w : State} (k : Carried s h (.graphSubmit d a))
    (hd : (s.atHost h).hasDie d = true) (hf : ((s.atHost h).dieAt d).st ≠ .failed)
    (hr : (s.atHost h).eccRead (memKey (spLintel d) a) ((s.atHost h).graphBytes d a) = (w, false)) (hp : w.graphParse d a = none) :
    exec (.graphSubmit h d a) s = .next (w.answer (packetOf h.tag h.client (.graphSubmit d a)) 0x0106) := by
  rw [exec_carried rfl k, hostRun_graphSubmit]
  simp only [State.hostSubmit, hd, beq_false_of_ne hf, hr, hp, Bool.not_true, Bool.false_eq_true, if_false]

/-- Vyuri in service with client 3 enabled; the Lintel store of die 3 holds, where its raw region begins, the header of a graph of one
task with a reserved byte set. -/
def reservedHeader : State :=
  (((State.reset.updMgmt (fun m => { m with st := .ready, fused := true })).updPower (fun x => { x with on := 0xFFFFF#20 })).regSet
    0x20 8#32).stBytes (memKey (spLintel 3) 0x6660000) [1#8, 0#8, 0xFF#8]

/-- The packet of client 3 that submits the graph. -/
def submitHdr : Hdr := { t := 0, tag := 2, client := 3 }

/-- The invariant of the model (O3) does not rule the state out. -/
theorem reservedHeader_meets_invariant :
    Registers.wf reservedHeader.part reservedHeader.regs ∧ Memory.wf reservedHeader.mem ∧ reservedHeader.Sized := by
  have kept : Keeps State.reset reservedHeader :=
    State.stBytes_keeps (State.regSet_keeps (State.updPower_keeps (State.updMgmt_keeps (Keeps.refl _))))
  obtain ⟨hregs, hmem, hsized⟩ := reset_meets_invariant
  exact ⟨kept.regs hregs, kept.mem hmem, kept.sized hsized⟩

/-- Nothing refuses the packet before it is carried out. -/
theorem reservedHeader_carried : Carried reservedHeader submitHdr (.graphSubmit 3 0x6660000) where
  served := by decide +kernel
  first := by decide +kernel
  fits := by decide +kernel
  free := by decide +kernel
  good := by decide +kernel
  rate := by decide +kernel
  unrefused := by decide +kernel

/-- The die pair is there and has not failed. -/
theorem reservedHeader_die :
    (reservedHeader.atHost submitHdr).hasDie 3 = true ∧ ((reservedHeader.atHost submitHdr).dieAt 3).st ≠ .failed := by decide +kernel

/-- The graph is read without an error and does not parse. -/
theorem reservedHeader_unparsed :
    (reservedHeader.atHost submitHdr).eccRead (memKey (spLintel 3) 0x6660000)
        ((reservedHeader.atHost submitHdr).graphBytes 3 0x6660000) = (reservedHeader.atHost submitHdr, false) ∧
      (reservedHeader.atHost submitHdr).graphParse 3 0x6660000 = none := by
  refine ⟨State.eccRead_unflipped rfl, ?_⟩
  decide +kernel

/-- No violation has been logged. -/
theorem reservedHeader_violLog : (reservedHeader.atHost submitHdr).sdio.violLog = [] := by decide +kernel

/-- Refutes O34: the clause of a graph that does not parse says that GRAPH_SUBMIT changes nothing but the reply 0x0106, but that reply
is a violation (R507), and in `reservedHeader` the violation log gains its entry. -/
theorem not_variantsGraphsModelsAndAccounts : ¬ Obligations.VariantsGraphsModelsAndAccounts := by
  rintro ⟨_, commands⟩
  obtain ⟨submits, _⟩ := commands 0 submitHdr reservedHeader
  obtain ⟨hd, hf⟩ := reservedHeader_die
  obtain ⟨hr, hp⟩ := reservedHeader_unparsed
  have hlog : (reservedHeader.atHost submitHdr).sdio.violLog.length < 256 := by
    rw [reservedHeader_violLog]
    decide
  obtain ⟨_, read⟩ := submits 3 0x6660000 reservedHeader_carried hd hf
  rw [hr] at read
  obtain ⟨unparsed, _⟩ := read rfl
  have hreply := (exec_graphSubmit_unparsed reservedHeader_carried hd hf hr hp).symm.trans (unparsed hp)
  exact State.answer_ne_reply (by decide) hlog (Host.Outcome.next.inj hreply)

end Sys2Proof.Machine
end

section
/-!
The line-side engine's axes, groups and controllers (R358, R375, R377): what one of them is after an update of it, of another, or of
another part of the state.
-/
namespace Sys2Proof.Machine

variable {s v : State} {i : Nat}

theorem State.updAx_axAt_self {f : Axis → Axis} (h : i < s.line.axis.length) : (s.updAx i f).axAt i = f (s.axAt i) := lget_lmod_self h

/-- An update of an axis is the update to what it gives. -/
theorem State.updAx_of_axAt {f : Axis → Axis} : s.updAx i f = s.updAx i (fun _ => f (s.axAt i)) := by
  have haxis : lmod s.line.axis i f = lmod s.line.axis i (fun _ => f (s.axAt i)) := by
    refine lmod_congr fun a ha => ?_
    have hx : s.axAt i = a := by simp [State.axAt, lget, ha]
    rw [hx]
  exact congrArg (fun l => { s with line := { s.line with axis := l } }) haxis

theorem State.axAt_of_line (h : v.line = s.line) : v.axAt i = s.axAt i := by rw [State.axAt, State.axAt, h]

end Sys2Proof.Machine
end

section
/-!
The programs of the control laws (R362, R366, R367).
-/
namespace Sys2Proof.Machine

section
variable {s u : State} {t ax : Nat} (hu : s.to t = u)
include hu

/-! ### The rows of single instructions -/

/-- A row whose instruction leaves the value w: where the run stands at it, w goes into its register and the run goes on; elsewhere
nothing changes. -/
theorem lawRow_puts {op d a b c : Nat} {w : Word} {x : Axis} (hr : u.lawReady ax = true) (hx : u.axAt ax = x)
    (hw : u.lawExec ax ⟨op, d, a, b, c⟩ = u.updAx ax (fun _ => { x with f := lmod x.f d (fun _ => w) })) :
    ((x.prog[x.lawPc]?).any (fun j => j.used == ⟨op, d, a, b, c⟩) = true →
      lawRow t ax op d a b c s = .next (u.updAx ax (fun _ => { x with f := lmod x.f d (fun _ => w), lawPc := x.lawPc + 1 }))) ∧
    ((x.prog[x.lawPc]?).any (fun j => j.used == ⟨op, d, a, b, c⟩) = false → lawRow t ax op d a b c s = .next u) := by
  subst hu hx
  constructor <;> intro hp <;> simp only [lawRow, guardNext, hr, hp, Bool.and_true, Bool.and_false, if_true, Bool.false_eq_true, if_false]
  rw [hw]
  simp only [State.updAx, State.updLine, lmod_lmod]
  rfl

/-- A row of a program that may not run changes nothing but the time. -/
theorem lawRow_waits {op d a b c : Nat} (hr : u.lawReady ax = false) : lawRow t ax op d a b c s = .next u := by
  subst hu
  simp only [lawRow, guardNext, hr, Bool.false_and, Bool.false_eq_true, if_false]

/-! ### The end of a program -/

/-- CONTROL_LAW_RUN carries out what is left of the program and offers its command. -/
theorem exec_controlLawRun : exec (.controlLawRun t ax) s = .next (if u.lawReady ax = true then
    (u.each (lawText ((u.axAt ax).prog.drop (u.axAt ax).lawPc)) (fun s i => s.lawExec ax i)).lawOffer ax else u) := by
  subst hu
  rfl

/-- END runs at an END and at the end of the program's text alone. -/
theorem exec_servoEnd : exec (.servoEnd t ax) s = .next
    (if u.lawReady ax = true ∧ ((u.axAt ax).prog[(u.axAt ax).lawPc]?).any (fun j => j.op != 0) = false then u.lawOffer ax else u) := by
  subst hu
  show execServoEnd t ax s = _
  simp only [execServoEnd, guardNext, Bool.and_eq_true]
  congr 2
  cases ((s.to t).axAt ax).prog[((s.to t).axAt ax).lawPc]? <;> simp

end

/-! ### The command a program offers -/

section
variable {s : State} {ax : Nat} {v : Word}

/-- An event of the axes leaves their registers as they are. -/
theorem State.raise_axReg {b o : Nat} (ha : ax < 16) (ho : o < 0x40) :
    (s.raise evServo b).regGet (aAx ax + o) = s.regGet (aAx ax + o) := by
  rw [State.raise_regGet (by unfold aAx; omega), if_neg (by unfold aAx evServo; omega)]

/-- The limits of an output mode depend on one register of the axis. -/
theorem State.modeClamp_of_regGet {u : State} (h : u.regGet (aAx ax + 8) = s.regGet (aAx ax + 8)) :
    u.modeClamp ax v = s.modeClamp ax v := by
  simp only [State.modeClamp, State.axMode, State.rfld, h]

/-- While the line's outputs are Plumb's to judge, the value at the end of a program is offered to it (R362, R367). -/
theorem State.lawOffer_offers (hst : s.plumb.st ≠ .split) (ha : ax < 16) (hl : ax < s.line.axis.length)
    (ht : ax < s.plumb.targets.length) :
    let f8 := if isNan (lget 0#32 (s.axAt ax).f 8) then 0#32 else lget 0#32 (s.axAt ax).f 8
    let w := s.modeClamp ax (s.outClamp ax f8)
    let cut := flt f8 (s.regGet (aAx ax + 0x20)) || flt (s.regGet (aAx ax + 0x24)) f8
    (s.lawOffer ax).axAt ax = { s.axAt ax with cmd := some { val := w, passed := false, clamped := cut }, samp := false } ∧
      ((s.lawOffer ax).targetAt ax).offered = some w := by
  intro f8 w cut
  unfold State.lawOffer
  extract_lets g8 f8' v' clamped s1 v c s2 s3
  have hs1 : s1.line = s.line ∧ s1.plumb = s.plumb ∧ s1.regGet (aAx ax + 8) = s.regGet (aAx ax + 8) := by
    subst s1
    split
    · rw [State.raise_line, State.raise_plumb, State.raise_axReg ha (by decide)]
      exact ⟨State.bumpLo_line, State.bumpLo_plumb, State.setFld_regGet_ne (by omega)⟩
    · exact ⟨rfl, rfl, rfl⟩
  obtain ⟨hline, hplumb, hmode⟩ := hs1
  have hv : v = w := State.modeClamp_of_regGet hmode
  have hline2 : s2.line = { s.line with axis := lmod s.line.axis ax (fun x => { x with cmd := some c, samp := false }) } := by
    rw [← hline]
    rfl
  have hplumb2 : s2.plumb = { s.plumb with targets := lmod s.plumb.targets ax (fun x => { x with offered := some v }) } := by
    rw [← hplumb]
    rfl
  have hax : s2.axAt ax = { s.axAt ax with cmd := some c, samp := false } := by
    rw [State.axAt, hline2]
    exact lget_lmod_self hl
  have htg : (s2.targetAt ax).offered = some v := by
    rw [State.targetAt, hplumb2, lget_lmod_self ht]
  have hst2 : s2.plumb.st = s.plumb.st := by rw [hplumb2]
  have h3 : s3.axAt ax = s2.axAt ax ∧ s3.targetAt ax = s2.targetAt ax ∧ s3.plumb.st = s2.plumb.st := by
    subst s3
    split
    · exact ⟨rfl, lget_lmod_ne (by omega), rfl⟩
    · exact ⟨rfl, rfl, rfl⟩
  obtain ⟨hax3, htg3, hst3⟩ := h3
  have hc : c = { val := w, passed := false, clamped := cut } := by rw [← hv]
  have hjudges : (s3.plumb.st != .split) = true := bne_iff_ne.2 fun h => hst (hst2.symm.trans (hst3.symm.trans h))
  rw [if_pos hjudges, hax3, hax, htg3, htg, hv, hc]
  exact ⟨rfl, rfl⟩

end

/-- Settles O36: each clause is the law above of an instruction's row, of a whole run, or of a program's end. -/
theorem controlLawsRun : Obligations.ControlLawsRun := by
  intro t ax d a b c s u x f cut stands puts
  refine ⟨fun hr => ⟨?add, ?sub, ?mul, ?fma, ?min, ?max, ?abs, ?clamp, ?sel, ?ldk, ?recip, ?rsqrt, ?tanh, ?whole, ?goesOn, ?ends⟩,
    ?waits⟩
  case whole => rw [exec_controlLawRun rfl, if_pos hr]
  case goesOn =>
    intro hp
    rw [exec_servoEnd rfl, if_neg fun h => Bool.noConfusion (hp.symm.trans h.2)]
  case ends =>
    intro hp hst ha hl ht
    obtain ⟨hax, htg⟩ := State.lawOffer_offers hst ha hl ht
    refine ⟨_, (exec_servoEnd rfl).trans (by rw [if_pos ⟨hr, hp⟩]), ?_, ?_, htg, ?_⟩ <;> rw [hax]
  case waits =>
    intro hr i hi
    have hn : u.lawReady ax ≠ true := by simp [hr]
    simp only [List.mem_cons, List.not_mem_nil, or_false] at hi
    rcases hi with rfl | rfl | rfl | rfl
    · rw [exec_servoEnd rfl, if_neg fun h => hn h.1]
    · rw [exec_controlLawRun rfl, if_neg hn]
    · exact lawRow_waits rfl hr
    · exact lawRow_waits rfl hr
  all_goals exact lawRow_puts rfl hr rfl State.updAx_of_axAt

end Sys2Proof.Machine
end

section
/-!
What driving an axis (R358, R368, R372) leaves of the state: the axis has its output, the other axes are as they were.
-/
namespace Sys2Proof.Machine

variable {s : State} {a i n x : Nat} {w : Word}

/-- An axis that drives a value, before its DAC channel takes it: its output, SERVO_AXa_LAST, its target. -/
def State.axSet (s : State) (a : Nat) (w : Word) : State :=
  ((s.updAx a (fun x => { x with out := w })).regSet (aAx a + 0x38) w).updTarget a
    (fun x => if x.inFallback then x else { x with applied := some w })

/-- An axis that drives a value sets it, and at most one DAC channel takes it. -/
theorem State.axDrive_cases : s.axDrive a w = s.axSet a w ∨ ∃ n, s.axDrive a w = (s.axSet a w).dacApply n w := by
  unfold State.axDrive
  extract_lets x1 x2
  split
  · split
    · exact .inl rfl
    · exact .inr ⟨_, rfl⟩
  · exact .inl rfl

theorem State.dacApply_in : OnlyIn [.line, .plumb] s (s.dacApply n w) := State.dacApply_only (by decide) (OnlyIn.refl _ s)

/-- A DAC channel's value leaves the axes as they were, and the engine running or not. -/
theorem State.dacApply_line : (s.dacApply n w).line.axis = s.line.axis ∧ (s.dacApply n w).line.running = s.line.running := by
  unfold State.dacApply
  split <;> exact ⟨rfl, rfl⟩

theorem State.axDrive_line : (s.axDrive a w).line.axis = lmod s.line.axis a (fun x => { x with out := w }) ∧
    (s.axDrive a w).line.running = s.line.running := by
  rcases State.axDrive_cases (s := s) (a := a) (w := w) with h | ⟨n, h⟩ <;> rw [h]
  · exact ⟨rfl, rfl⟩
  · exact State.dacApply_line

/-- An axis drives its value. -/
theorem State.axDrive_axAt_self (h : a < s.line.axis.length) : (s.axDrive a w).axAt a = { s.axAt a with out := w } := by
  rw [State.axAt, State.axDrive_line.1]
  exact lget_lmod_self h

theorem State.axDrive_axAt_ne (h : i ≠ a) : (s.axDrive a w).axAt i = s.axAt i := by
  rw [State.axAt, State.axDrive_line.1]
  exact lget_lmod_ne h

/-- Of the registers an axis that drives a value changes SERVO_AXa_LAST alone. -/
theorem State.axDrive_regGet (hx : x ≠ aAx a + 0x38) : (s.axDrive a w).regGet x = s.regGet x := by
  have hset : (s.axSet a w).regGet x = s.regGet x :=
    State.updPlumb_regGet.trans ((State.regSet_regGet_ne hx).trans State.updLine_regGet)
  rcases State.axDrive_cases (s := s) (a := a) (w := w) with h | ⟨n, h⟩ <;> rw [h]
  · exact hset
  · exact (State.dacApply_in.regGet (by decide) (by decide) x).trans hset

/-- What each change leaves as it is, all of them leave as it is. -/
theorem State.each_same {α β : Type} {l : List α} {f : State → α → State} {g : State → β} (hf : ∀ s y, g (f s y) = g s) :
    g (s.each l f) = g s := by
  induction l generalizing s with
  | nil => rfl
  | cons y l ih => rw [State.each_cons, ih, hf]

/-! ### Every axis drives 0 -/

section
variable {l : List Nat}

/-- Axes that drive 0 leave an axis that is at 0 as it is. -/
theorem State.each_axDrive_axAt (hi : i < s.line.axis.length) (h : (s.axAt i).out = 0#32) :
    (s.each l (fun s a => s.axDrive a 0#32)).axAt i = s.axAt i := by
  induction l generalizing s with
  | nil => rfl
  | cons a l ih =>
    have ha : (s.axDrive a 0#32).axAt i = s.axAt i := by
      by_cases e : i = a
      · subst e
        rw [State.axDrive_axAt_self hi, ← h]
      · exact State.axDrive_axAt_ne e
    have hlen : i < (s.axDrive a 0#32).line.axis.length := by rwa [State.axDrive_line.1, lmod_length]
    rw [State.each_cons, ih hlen (by rw [ha, h]), ha]

theorem State.each_axDrive_running : (s.each l (fun s a => s.axDrive a w)).line.running = s.line.running :=
  State.each_same (g := fun s => s.line.running) fun _ _ => State.axDrive_line.2

/-- A register that is no SERVO_AXa_LAST stays as it is. -/
theorem State.each_axDrive_regGet (hx : ∀ a, x ≠ aAx a + 0x38) : (s.each l (fun s a => s.axDrive a w)).regGet x = s.regGet x :=
  State.each_same (g := fun s => s.regGet x) fun _ a => State.axDrive_regGet (hx a)

end

end Sys2Proof.Machine
end

section
/-!
Writes of the command registers SERVO_CMD and QP_CMD (R390, R393): the command they name is done and the write answered OK.
-/
namespace Sys2Proof.Machine

variable {s : State} {h : Hdr} {v hi : Nat}

section
variable {n a : Nat} (hn : n < 256)
include hn

/-- The number of a command stands in the high byte of a command register. -/
theorem fld_wordOf_cmd (ha : a < 2 ^ 24) : fld (wordOf (n * 2 ^ 24 + a)) 31 24 = n := by
  have hdiv : (n * 2 ^ 24 + a) / 2 ^ 24 = n := by omega
  rw [fld, wordOf_toNat (by omega), bitsOf, Nat.shiftRight_eq_div_pow, hdiv]
  exact Nat.mod_eq_of_lt hn

/-- The operand of a command stands in the low bits. -/
theorem fld_wordOf_operand (hhi : hi < 24) (ha : a < 2 ^ (hi + 1)) : fld (wordOf (n * 2 ^ 24 + a)) hi 0 = a := by
  have hpow : 2 ^ (hi + 1) ∣ 2 ^ 24 := Nat.pow_dvd_pow 2 (by omega)
  have ha24 : a < 2 ^ 24 := Nat.lt_of_lt_of_le ha (Nat.le_of_dvd (by decide) hpow)
  rw [fld, wordOf_toNat (by omega), bitsOf, Nat.shiftRight_zero, Nat.sub_zero, Nat.add_mod,
    Nat.mod_eq_zero_of_dvd (Nat.dvd_mul_left_of_dvd hpow n), Nat.zero_add, Nat.mod_mod, Nat.mod_eq_of_lt ha]

end

theorem State.answered_line {a : Nat} : (s.answered h a v).line = s.line := State.reply_line

theorem State.answered_axAt {a i : Nat} : (s.answered h a v).axAt i = s.axAt i := State.axAt_of_line State.answered_line

theorem regCmd_servoCmd (k : Written s h 0x80010 v) :
    s.regCmd h 0x80010 v = .next (((s.atHost h).servoCmd (wordOf v)).answered h 0x80010 v) :=
  State.regCmd_cmd (r := rowWo 0x10) k rfl rfl rfl rfl (by simp [partVal]) rfl

theorem regCmd_qpCmd (k : Written s h 0x90010 v) :
    s.regCmd h 0x90010 v = .next (((s.atHost h).qpCmd (wordOf v)).answered h 0x90010 v) :=
  State.regCmd_cmd (r := rowWo 0x10) k rfl rfl rfl rfl (by simp [partVal]) rfl

/-! ### The commands of one axis -/

section
variable {ax n : Nat}

/-- A row that writes the number of a command and an axis into SERVO_CMD does the command to the axis. -/
theorem exec_axisCmd {i : Instr} {f : State → Nat → State} (ha : ax < 16) (hn : n < 256)
    (he : exec i s = s.regCmd h 0x80010 (n * 2 ^ 24 + ax % 16))
    (hf : ∀ (u : State) (w : Word), fld w 31 24 = n → u.servoCmd w = f u (fld w 3 0)) (k : Written s h 0x80010 (n * 2 ^ 24 + ax)) :
    exec i s = .next ((f (s.atHost h) ax).answered h 0x80010 (n * 2 ^ 24 + ax)) := by
  rw [he, Nat.mod_eq_of_lt ha, regCmd_servoCmd k, hf _ _ (fld_wordOf_cmd hn (by omega)), fld_wordOf_operand hn (by decide) (by omega)]

theorem exec_servoEnable (ha : ax < 16) (k : Written s h 0x80010 (0x1000000 + ax)) :
    exec (.servoEnable h ax) s = .next (((s.atHost h).cmdEnable ax).answered h 0x80010 (0x1000000 + ax)) :=
  exec_axisCmd (n := 1) ha (by decide) rfl (fun u w e => by simp only [State.servoCmd, e]) k

theorem exec_servoDisable (ha : ax < 16) (k : Written s h 0x80010 (0x2000000 + ax)) :
    exec (.servoDisable h ax) s = .next (((s.atHost h).cmdDisable ax).answered h 0x80010 (0x2000000 + ax)) :=
  exec_axisCmd (n := 2) ha (by decide) rfl (fun u w e => by simp only [State.servoCmd, e]) k

theorem exec_axisClearFault (ha : ax < 16) (k : Written s h 0x80010 (0x3000000 + ax)) :
    exec (.axisClearFault h ax) s = .next (((s.atHost h).cmdClearFault ax).answered h 0x80010 (0x3000000 + ax)) :=
  exec_axisCmd (n := 3) ha (by decide) rfl (fun u w e => by simp only [State.servoCmd, e]) k

theorem exec_home (ha : ax < 16) (k : Written s h 0x80010 (0x4000000 + ax)) :
    exec (.home h ax) s = .next (((s.atHost h).cmdHome ax).answered h 0x80010 (0x4000000 + ax)) :=
  exec_axisCmd (n := 4) ha (by decide) rfl (fun u w e => by simp only [State.servoCmd, e]) k

theorem exec_resetState (ha : ax < 16) (k : Written s h 0x80010 (0x5000000 + ax)) :
    exec (.resetState h ax) s = .next (((s.atHost h).cmdResetState ax).answered h 0x80010 (0x5000000 + ax)) :=
  exec_axisCmd (n := 5) ha (by decide) rfl (fun u w e => by simp only [State.servoCmd, e]) k

theorem exec_servoResync (ha : ax < 16) (k : Written s h 0x80010 (0x6000000 + ax)) :
    exec (.servoResync h ax) s = .next (((s.atHost h).cmdResync ax).answered h 0x80010 (0x6000000 + ax)) :=
  exec_axisCmd (n := 6) ha (by decide) rfl (fun u w e => by simp only [State.servoCmd, e]) k

end

end Sys2Proof.Machine
end

section
/-!
The commands of the servo axes (R358, R364, R366, R374, R390): the state each one leaves its axis in.
-/
namespace Sys2Proof.Machine

variable {s : State} {ax : Nat}

section
variable (hl : ax < s.line.axis.length)
include hl

/-- ENABLE of a DISABLED axis without a CFG_ERR. -/
theorem State.cmdEnable_enables (hst : (s.axAt ax).st = .disabled) (hc : s.axCfgErr ax = false) :
    ((s.cmdEnable ax).axAt ax).st = .enabled ∧ ((s.cmdEnable ax).axAt ax).out = 0#32 ∧
      ((s.cmdEnable ax).axAt ax).anchor = .enable ∧ ((s.cmdEnable ax).axAt ax).pos = (s.axAt ax).pos := by
  have hdo : s.cmdEnable ax = s.axEnable ax := by simp [State.cmdEnable, hst, hc]
  rw [hdo]
  unfold State.axEnable
  extract_lets x1 x2
  have haxis : x2.line.axis = x1.line.axis := by
    subst x2
    split <;> rfl
  have hlen : ax < x2.line.axis.length := by
    rw [haxis]
    exact lmod_length.symm ▸ hl
  have hax : x2.axAt ax = x1.axAt ax := by rw [State.axAt, State.axAt, haxis]
  rw [State.axDrive_axAt_self hlen, hax, State.updAx_axAt_self hl]
  exact ⟨rfl, rfl, rfl, rfl⟩

/-- DISABLE: the output goes to 0, FAULT is kept. -/
theorem State.cmdDisable_axAt : (s.cmdDisable ax).axAt ax = { s.axAt ax with
    st := if (s.axAt ax).st = .enabled then .disabled else (s.axAt ax).st, resume := false, cmd := none, rampAt := none, samp := false,
    out := 0#32 } := by
  rw [State.cmdDisable, State.axDrive_axAt_self (lmod_length.symm ▸ hl), State.updAx_axAt_self hl]
  simp only [beq_iff_eq]

/-- CLEAR_FAULT of an axis in FAULT. -/
theorem State.cmdClearFault_axAt (hst : (s.axAt ax).st = .fault) : (s.cmdClearFault ax).axAt ax =
    { s.axAt ax with st := .disabled, cause := 0, feCnt := 0, rampAt := none, out := 0#32 } := by
  have hno : ((s.axAt ax).st != .fault) = false := by simp [hst]
  rw [State.cmdClearFault, hno, if_neg Bool.false_ne_true, State.axDrive_axAt_self (lmod_length.symm ▸ hl), State.updAx_axAt_self hl]

/-- HOME of an axis that is NOT_HOMED or DISABLED. -/
theorem State.cmdHome_axAt (hst : (s.axAt ax).st = .notHomed ∨ (s.axAt ax).st = .disabled) : (s.cmdHome ax).axAt ax =
    { s.axAt ax with st := .disabled, pos := s.rint (aAx ax + 0x28), posK := s.rint (aAx ax + 0x28), homed := true, first := true } := by
  have hin : ((s.axAt ax).st == .notHomed || (s.axAt ax).st == .disabled) = true := by simpa using hst
  rw [State.cmdHome, if_pos hin, State.updAx_axAt_self hl]

theorem State.cmdResetState_axAt : (s.cmdResetState ax).axAt ax = lawInit (s.axAt ax) := State.updAx_axAt_self hl

theorem State.cmdResync_axAt : (s.cmdResync ax).axAt ax = { s.axAt ax with
    resyncNeeded := false, anchor := if (s.axAt ax).st = .enabled then .resync else (s.axAt ax).anchor } := by
  rw [State.cmdResync, State.updAx_axAt_self hl]
  simp only [beq_iff_eq]

end

/-- ENABLE of an axis with a CFG_ERR raises the event alone. -/
theorem State.cmdEnable_refused (hst : (s.axAt ax).st = .disabled) (hc : s.axCfgErr ax = true) : s.cmdEnable ax = s.raise evServo 8 := by
  simp [State.cmdEnable, hst, hc]

theorem State.cmdEnable_other (hst : (s.axAt ax).st ≠ .disabled) : s.cmdEnable ax = s := by
  simp [State.cmdEnable, hst]

theorem State.cmdClearFault_other (hst : (s.axAt ax).st ≠ .fault) : s.cmdClearFault ax = s := by
  simp [State.cmdClearFault, hst]

theorem State.cmdHome_other (hn : (s.axAt ax).st ≠ .notHomed) (hd : (s.axAt ax).st ≠ .disabled) : s.cmdHome ax = s := by
  simp [State.cmdHome, hn, hd]

/-- The initial values of a program stand in f16 to f63, and f0 to f15 are as they were (R366). -/
theorem lawInit_f {x : Axis} {k : Nat} : (k < 48 → lget 0#32 (lawInit x).f (16 + k) = lget 0#32 x.inits k) ∧
    (k < 16 → lget 0#32 (lawInit x).f k = lget 0#32 x.f k) := by
  have hget {j : Nat} (hj : j < 64) : lget 0#32 (lawInit x).f j = if j < 16 then lget 0#32 x.f j else lget 0#32 x.inits (j - 16) := by
    simp only [lawInit, lget, List.getD_eq_getElem?_getD, List.getElem?_map, List.getElem?_range hj, Option.map_some, Option.getD_some]
  refine ⟨fun hk => ?_, fun hk => ?_⟩
  · rw [hget (by omega), if_neg (by omega), Nat.add_sub_cancel_left]
  · rw [hget (by omega), if_pos hk]

/-! ### Groups and counters -/

theorem exec_clearGroup {h : Hdr} {g : Nat} (hg : g < 8) (k : Written s h 0x80010 (0x7000000 + g)) :
    exec (.clearGroup h g) s = .next (((s.atHost h).grpZero g true).answered h 0x80010 (0x7000000 + g)) := by
  have hop : fld (wordOf (0x7000000 + g)) 31 24 = 7 := fld_wordOf_cmd (n := 7) (by decide) (by omega)
  have hgrp : fld (wordOf (0x7000000 + g)) 2 0 = g := fld_wordOf_operand (n := 7) (by decide) (by decide) (by omega)
  show s.regCmd h 0x80010 (0x7000000 + g % 8) = _
  rw [Nat.mod_eq_of_lt hg, regCmd_servoCmd k]
  simp only [State.servoCmd, hop, hgrp]

/-- CLEAR_GROUP sets J to 0 and the group plausible (R376). -/
theorem State.grpZero_clears {g : Nat} (hg : g < s.line.grp.length) : ((s.grpZero g true).axGrpAt g).j = 0#32 ∧
    ((s.grpZero g true).axGrpAt g).implausible = false ∧ (s.grpZero g true).regGet (aGrpCfg g + 0xC) = 0#32 := by
  have hgrp : (s.grpZero g true).axGrpAt g = { j := 0#32, beyond := 0, implausible := (s.axGrpAt g).implausible && !true } :=
    lget_lmod_self hg
  rw [hgrp]
  exact ⟨rfl, Bool.and_false _, State.regSet_regGet_self⟩

/-- CLEAR_COUNTERS of SERVO_CMD. -/
theorem exec_servoClearCounters {h : Hdr} (k : Written s h 0x80010 0x8000000) :
    ∃ v, exec (.servoClearCounters h) s = .next v ∧ (∀ a, a < 16 → v.regGet (aAx a + 0x3C) = 0#32) ∧
      v.line = (s.atHost h).line := by
  have hcmd : (s.atHost h).servoCmd (wordOf 0x8000000) =
      (s.atHost h).each (List.range 16) (fun s a => s.regSet (aAx a + 0x3C) 0#32) := rfl
  refine ⟨_, regCmd_servoCmd k, fun a ha => ?_, ?_⟩
  · rw [State.answered_in.regGet, hcmd, State.clear_regGet, if_pos (List.mem_map_of_mem (List.mem_range.2 ha))]
  · rw [State.answered_line, hcmd]
    exact State.clear_in.eq .line

/-! ### Program loads -/

section
variable {h : Hdr} {text consts inits : List Word}

theorem exec_servoProgLoad (k : Carried s h (.servoProgLoad ax text consts inits)) :
    exec (.servoProgLoad h ax text consts inits) s = .next ((s.atHost h).hostServoProg
      (packetOf h.tag h.client (.servoProgLoad ax text consts inits)) ax text consts inits) := by
  rw [exec_carried rfl k, hostRun_servoProgLoad]

/-- A program whose words all decode is loaded into an axis that is not ENABLED. -/
theorem exec_servoProgLoad_loads {l : List LawInstr} (k : Carried s h (.servoProgLoad ax text consts inits))
    (hl : ax < (s.atHost h).line.axis.length) (hst : ((s.atHost h).axAt ax).st ≠ .enabled) (ht : text.mapM lawDecode = some l) :
    ∃ v, exec (.servoProgLoad h ax text consts inits) s = .next v ∧ (v.axAt ax).prog = l ∧ (v.axAt ax).consts = consts ∧
      (v.axAt ax).inits = inits ∧ (v.axAt ax).st = ((s.atHost h).axAt ax).st ∧
      Replied s v h (.servoProgLoad ax text consts inits) 0 [] := by
  have hno : (((s.atHost h).axAt ax).st == .enabled) = false := beq_false_of_ne hst
  have e := exec_servoProgLoad k
  simp only [State.hostServoProg, hno, ht, Bool.false_eq_true, if_false] at e
  have hax {f : Axis → Axis} {p : Packet} : (((s.atHost h).updAx ax f).answer p 0).axAt ax = f ((s.atHost h).axAt ax) := by
    rw [State.answer_ok, State.axAt_of_line State.reply_line, State.updAx_axAt_self hl]
  refine ⟨_, e, ?_, ?_, ?_, ?_, replied_of_answer k rfl rfl (by decide)⟩ <;> rw [hax]

theorem exec_servoProgLoad_enabled (k : Carried s h (.servoProgLoad ax text consts inits)) (hst : ((s.atHost h).axAt ax).st = .enabled) :
    ∃ v, exec (.servoProgLoad h ax text consts inits) s = .next v ∧ v.line = (s.atHost h).line ∧
      Replied s v h (.servoProgLoad ax text consts inits) 0x0203 [] := by
  have hyes : (((s.atHost h).axAt ax).st == .enabled) = true := beq_iff_eq.2 hst
  have e := exec_servoProgLoad k
  simp only [State.hostServoProg, hyes, if_true] at e
  exact ⟨_, e, (State.answer_in (by decide)).eq .line, replied_of_answer k rfl rfl (by decide)⟩

end

end Sys2Proof.Machine
end

section
/-!
SERVO_CTRL.EN (R358): a REG_MODIFY of the one bit starts or stops the engine. With it the commands of the axes are complete.
-/
namespace Sys2Proof.Machine

variable {s : State} {b old : Word}

/-- SERVO_CTRL takes the bit EN of what is written. -/
theorem wbit_servoEn {x : Word} : wbit (writeVal (rowRwl 0x0 1 4 1) old ((x &&& ~~~1#32) ||| (b &&& 1#32))) 0 = wbit b 0 := by
  simp [wbit, writeVal, rowRwl]

/-- REG_MODIFY of a register that is no command register, whose write nothing refuses (R509). -/
theorem State.regModify_row {a m v : Word} {r : RegRow} {w : State} (ha : addrOk a.toNat = true) (hm : m ≠ 0#32)
    (hr : rowOf a.toNat = some r) (hwo : r.wo = false) (e : s.regWrite a.toNat (modified r (s.liveReg a.toNat) m v) = (w, 0)) :
    s.regModify a m v = (w, 0, some (w.liveReg a.toNat)) := by
  rw [modified] at e
  simp only [State.regModify, ha, hr, hwo, e, hm, Bool.not_true, Bool.false_eq_true, if_false, ne_eq, not_true_eq_false]

/-- While no plan locks it, SERVO_CTRL is stored, and what follows is the start or the stop of the engine (R14, R358). -/
theorem State.writeRow_servoEn (hp : s.planRuns = false) : s.writeRow 0x80000 (rowRwl 0x0 1 4 1) b =
    (s.store 0x80000 (s.regGet 0x80000) (writeVal (rowRwl 0x0 1 4 1) (s.regGet 0x80000) b), 0) := by
  have hsafe : safetyMask 0x80000 = 0#32 := rfl
  have hinj : injIdx 0x80000 = none := rfl
  have htier : arrIdx 0x80000 0x60040 0x10 4 = none := rfl
  have hwo : (rowRwl 0x0 1 4 1).wo = false := rfl
  simp [State.writeRow, hwo, hp, State.safetyLocks, hsafe, hinj, htier]

/-- The state a write of SERVO_CTRL leaves, its value stored. -/
def State.servoEnStored (s : State) (new : Word) : State := (s.dropSnaps 0x80000).regSet 0x80000 new

theorem State.servoEnStored_in {new : Word} : OnlyIn [.snaps, .regs] s (s.servoEnStored new) := State.storedReg_in

theorem State.servoEnStored_regGet {new : Word} : (s.servoEnStored new).regGet 0x80000 = new := State.regSet_regGet_self

/-- A REG_MODIFY of SERVO_CTRL.EN. -/
theorem State.regModify_servoEn (hp : s.planRuns = false) : ∃ new x, wbit new 0 = wbit b 0 ∧
    s.regModify 0x80000#32 1#32 b =
      ((((s.servoEnStored new).servoWritten 0 (s.regGet 0x80000) new).carCheck.qpRecheck).raiseCfg s 8, 0, some x) := by
  have hthere : absentReg s.part 0x80000 = false := by cases s.part <;> rfl
  have hpart {v : Word} : partVal s.part 0x80000 v = v := by simp [partVal]
  have hw {v : Word} : s.regWrite 0x80000 v =
      (s.store 0x80000 (s.regGet 0x80000) (writeVal (rowRwl 0x0 1 4 1) (s.regGet 0x80000) v), 0) := by
    rw [State.regWrite_row rfl rfl (fun e => absurd e (by decide)) hthere, hpart]
    exact State.writeRow_servoEn hp
  exact ⟨_, _, wbit_servoEn, State.regModify_row rfl (by decide) rfl rfl hw⟩

section
variable {h : Hdr} {new : Word}

theorem exec_servoEn (k : Carried s h (.regModify 0x80000#32 1#32 b)) (hon : (s.atHost h).addrLacks 0x80000 = false)
    (hr : (s.atHost h).restarting = false) (hp : (s.atHost h).planRuns = false) : ∃ new bytes, wbit new 0 = wbit b 0 ∧
      exec (.regModify h 0x80000#32 1#32 b) s = .next ((((((s.atHost h).servoEnStored new).servoWritten 0
        ((s.atHost h).regGet 0x80000) new).carCheck.qpRecheck).raiseCfg (s.atHost h) 8).reply
          (packetOf h.tag h.client (.regModify 0x80000#32 1#32 b)) 0 bytes) := by
  obtain ⟨new, x, hnew, e⟩ := State.regModify_servoEn (b := b) hp
  refine ⟨new, _, hnew, (exec_regModify k hon ?_ e).trans (by rw [State.answer_ok])⟩
  rw [hr, Bool.false_and]

/-- The engine stops, and each axis is OFF and drives 0. -/
theorem State.lineOff_stops {ax : Nat} (hl : ax < s.line.axis.length) : s.lineOff.line.running = false ∧
    (s.lineOff.axAt ax).st = .off ∧ (s.lineOff.axAt ax).out = 0#32 ∧ s.lineOff.regGet 0x80000 = s.regGet 0x80000 := by
  unfold State.lineOff
  extract_lets x
  have hlen : ax < x.line.axis.length := by rwa [State.updLine_line, List.length_map]
  have hoff : ∃ y : Axis, x.axAt ax = { y with
      st := .off, cmd := none, samp := false, frame := false, rampAt := none, resume := false, out := 0#32, feCnt := 0,
      resyncNeeded := false, anchor := .none, stepFrac := 0, steps := 0 } := by
    refine ⟨s.line.axis[ax], ?_⟩
    simp [x, State.axAt, lget, hl]
  obtain ⟨y, hy⟩ := hoff
  have hst : (x.axAt ax).st = .off := by rw [hy]
  have hout : (x.axAt ax).out = 0#32 := by rw [hy]
  rw [State.each_axDrive_running, State.each_axDrive_axAt hlen hout, State.each_axDrive_regGet fun a => by unfold aAx; omega]
  exact ⟨rfl, hst, hout, rfl⟩

/-- EN goes from 0 to 1: the engine starts (R358). -/
theorem exec_servoEnSet (k : Carried s h (.regModify 0x80000#32 1#32 1#32)) (hon : (s.atHost h).addrLacks 0x80000 = false)
    (hr : (s.atHost h).restarting = false) (hp : (s.atHost h).planRuns = false) (hen : (s.atHost h).rbit 0x80000 0 = false) :
    ∃ (w : State) (bytes : List Byte), w.line.running = true ∧ w.line.origin = (s.atHost h).now ∧ w.rbit 0x80000 0 = true ∧
      exec (.servoEnSet h) s = .next ((w.realign.carCheck.qpRecheck.raiseCfg (s.atHost h) 8).reply
        (packetOf h.tag h.client (.regModify 0x80000#32 1#32 1#32)) 0 bytes) := by
  obtain ⟨new, bytes, hnew, e⟩ := exec_servoEn k hon hr hp
  have hset : wbit new 0 = true := hnew
  have hold : wbit ((s.atHost h).regGet 0x80000) 0 = false := hen
  have hstarts : ((s.atHost h).servoEnStored new).servoWritten 0 ((s.atHost h).regGet 0x80000) new =
      ((s.atHost h).servoEnStored new).lineOn.realign := by
    simp [State.servoWritten, hset, hold]
  rw [hstarts] at e
  refine ⟨((s.atHost h).servoEnStored new).lineOn, bytes, rfl, ?_, ?_, e⟩
  · exact (State.servoEnStored_in (s := s.atHost h) (new := new)).eq .now
  · rw [State.rbit, State.lineOn, State.updLine_regGet, State.servoEnStored_regGet, hset]

/-- EN goes from 1 to 0: the engine stops (R358). -/
theorem exec_servoEnClear {ax : Nat} (hl : ax < (s.atHost h).line.axis.length) (k : Carried s h (.regModify 0x80000#32 1#32 0#32))
    (hon : (s.atHost h).addrLacks 0x80000 = false) (hr : (s.atHost h).restarting = false) (hp : (s.atHost h).planRuns = false)
    (hen : (s.atHost h).rbit 0x80000 0 = true) :
    ∃ (w : State) (bytes : List Byte), w.line.running = false ∧ (w.axAt ax).st = .off ∧ (w.axAt ax).out = 0#32 ∧
      w.rbit 0x80000 0 = false ∧ exec (.servoEnClear h) s = .next ((w.carCheck.qpRecheck.raiseCfg (s.atHost h) 8).reply
        (packetOf h.tag h.client (.regModify 0x80000#32 1#32 0#32)) 0 bytes) := by
  obtain ⟨new, bytes, hnew, e⟩ := exec_servoEn k hon hr hp
  have hclear : wbit new 0 = false := hnew
  have hold : wbit ((s.atHost h).regGet 0x80000) 0 = true := hen
  have hstops : ((s.atHost h).servoEnStored new).servoWritten 0 ((s.atHost h).regGet 0x80000) new =
      ((s.atHost h).servoEnStored new).lineOff := by
    simp [State.servoWritten, hclear, hold]
  rw [hstops] at e
  obtain ⟨hrun, hst, hout, hreg⟩ := State.lineOff_stops (s := (s.atHost h).servoEnStored new) (ax := ax)
    (by rwa [State.servoEnStored_in.eq .line])
  refine ⟨_, bytes, hrun, hst, hout, ?_, e⟩
  rw [State.rbit, hreg, State.servoEnStored_regGet, hclear]

end

/-- Settles O37: each clause is the law of its command, of EN or of a program load above. -/
theorem axisCommandsActOnTheirAxis : Obligations.AxisCommandsActOnTheirAxis := by
  intro h ax s u x ha hl
  refine ⟨?enable, ?disable, ?clearFault, ?home, ?resetState, ?resync, ?clearGroup, exec_servoClearCounters, ?en, ?progLoad⟩
  case enable =>
    intro k
    have e := exec_servoEnable ha k
    refine ⟨fun hst hc => ⟨_, e, ?_⟩, fun hst hc => ⟨_, e, ?_, ?_⟩, fun hst => ?_⟩
    · rw [State.answered_axAt]
      exact State.cmdEnable_enables hl hst hc
    · rw [State.answered_line, State.cmdEnable_refused hst hc, State.raise_line]
    · rw [State.answered_in.rbit, State.cmdEnable_refused hst hc, State.raise_bit (by decide) (by decide)]
    · rw [e, State.cmdEnable_other hst]
  case disable =>
    intro k
    refine ⟨_, exec_servoDisable ha k, ?_⟩
    rw [State.answered_axAt, State.cmdDisable_axAt hl]
    exact ⟨rfl, rfl, rfl⟩
  case clearFault =>
    intro k
    refine ⟨fun hst => ⟨_, exec_axisClearFault ha k, ?_⟩, fun hst => ?_⟩
    · rw [State.answered_axAt, State.cmdClearFault_axAt hl hst]
      exact ⟨rfl, rfl, rfl⟩
    · rw [exec_axisClearFault ha k, State.cmdClearFault_other hst]
  case home =>
    intro k
    refine ⟨fun hst => ⟨_, exec_home ha k, ?_⟩, fun hst => ?_⟩
    · rw [State.answered_axAt, State.cmdHome_axAt hl hst]
      exact ⟨rfl, rfl, rfl⟩
    · rw [exec_home ha k, State.cmdHome_other] <;> rcases hst with e | e | e <;> exact fun h => nomatch e.symm.trans h
  case resetState =>
    intro k
    refine ⟨_, exec_resetState ha k, ?_⟩
    rw [State.answered_axAt, State.cmdResetState_axAt hl]
    exact ⟨fun _ => lawInit_f.1, fun _ => lawInit_f.2⟩
  case resync =>
    intro k
    refine ⟨_, exec_servoResync ha k, ?_⟩
    rw [State.answered_axAt, State.cmdResync_axAt hl]
    exact ⟨rfl, rfl⟩
  case clearGroup =>
    intro g hg hlg k
    refine ⟨_, exec_clearGroup hg k, ?_⟩
    rw [State.answered_in.regGet, State.axGrpAt, State.answered_line]
    exact State.grpZero_clears hlg
  case en => exact fun hon hr hp => ⟨fun k hen => exec_servoEnSet k hon hr hp hen, fun k hen => exec_servoEnClear hl k hon hr hp hen⟩
  case progLoad =>
    exact fun text consts inits k => ⟨fun l hst ht => exec_servoProgLoad_loads k hl hst ht, fun hst => exec_servoProgLoad_enabled k hst⟩

end Sys2Proof.Machine
end

section
/-!
The controllers (R382, R385, R386): what staging outputs and ending a cycle leave of a controller and of the QP events.
-/
namespace Sys2Proof.Machine

variable {s v : State} {c : Nat}

theorem State.updQp_qpAt_self {f : QpCtl → QpCtl} (h : c < s.line.qp.length) : (s.updQp c f).qpAt c = f (s.qpAt c) := lget_lmod_self h

theorem State.qpAt_of_line (h : v.line = s.line) : v.qpAt c = s.qpAt c := by rw [State.qpAt, State.qpAt, h]

/-! ### Outputs -/

theorem State.qpStage_in {vals : List Word} : OnlyIn [.line, .plumb] s (s.qpStage c vals) :=
  State.qpStage_only (by decide) (OnlyIn.refl _ s)

/-- Staging values changes a controller's outputs alone. -/
theorem State.qpStage_qp {vals : List Word} :
    (s.qpStage c vals).line.qp = lmod s.line.qp c (fun q => { q with outs := some vals }) := by
  unfold State.qpStage
  extract_lets x
  have hx : x.line.qp = lmod s.line.qp c (fun q => { q with outs := some vals }) := rfl
  rw [← hx]
  clear_value x
  split
  · rfl
  · refine State.each_same (g := fun s => s.line.qp) fun s y => ?_
    split <;> rfl

theorem State.qpStage_qpAt {vals : List Word} (hl : c < s.line.qp.length) :
    (s.qpStage c vals).qpAt c = { s.qpAt c with outs := some vals } := by
  rw [State.qpAt, State.qpStage_qp]
  exact lget_lmod_self hl

theorem State.qpFallback_in : OnlyIn [.line, .plumb] s (s.qpFallback c) := State.qpFallback_only (by decide) (OnlyIn.refl _ s)

/-- FALLBACK values are staged where there is a problem. -/
theorem State.qpFallback_some {p : QpProb} (hp : (s.qpAt c).prob = some p) : s.qpFallback c = s.qpStage c (p.outs.map (·.fallback)) := by
  simp only [State.qpFallback, hp]

/-- FALLBACK changes of a controller its outputs alone. -/
theorem State.qpFallback_qpAt (hl : c < s.line.qp.length) : ∃ outs, (s.qpFallback c).qpAt c = { s.qpAt c with outs := outs } := by
  cases hp : (s.qpAt c).prob with
  | none =>
    have hsame : s.qpFallback c = s := by simp only [State.qpFallback, hp]
    exact ⟨(s.qpAt c).outs, by rw [hsame]⟩
  | some p => exact ⟨_, by rw [State.qpFallback_some hp, State.qpStage_qpAt hl]⟩

/-- A clamped output counts and raises its event: the engine and the QP events are as they were. -/
theorem State.clampedOut_leaves {o : OutEntry} :
    let t := (if o.target = 0 then s.bumpLo (aAx o.tindex + 0x3C) else s).raise evServo 2
    t.line = s.line ∧ t.regGet evQp = s.regGet evQp := by
  intro t
  have hcount : evQp ≠ aAx o.tindex + 0x3C := by
    unfold evQp aAx
    omega
  have hev : evQp ≠ evServo := by decide
  have hnet : evQp / 65536 ≠ 13 := by decide
  simp only [t, State.raise_line, State.raise_regGet hnet, if_neg hev]
  split
  · exact ⟨State.bumpLo_line, State.setFld_regGet_ne hcount⟩
  · exact ⟨rfl, rfl⟩

/-- Staging a solution changes of a controller its outputs and the solution kept, and no QP event. -/
theorem State.qpStageZ_leaves {p : QpProb} {z : List Word} (hl : c < s.line.qp.length) :
    (∃ zs outs, (s.qpStageZ c p z).qpAt c = { s.qpAt c with z := zs, outs := outs }) ∧
      (s.qpStageZ c p z).regGet evQp = s.regGet evQp := by
  unfold State.qpStageZ
  extract_lets vs x
  have hx : x.line = s.line ∧ x.regGet evQp = s.regGet evQp := by
    refine ⟨State.each_same (g := fun s => s.line) fun s y => ?_, State.each_same (g := fun s => s.regGet evQp) fun s y => ?_⟩
    · split
      · rfl
      · exact State.clampedOut_leaves.1
    · split
      · rfl
      · exact State.clampedOut_leaves.2
  obtain ⟨hline, hreg⟩ := hx
  clear_value x
  refine ⟨⟨some (p.sig, z), some (vs.map (·.1)), ?_⟩, (State.qpStage_in.regGet (by decide) (by decide) evQp).trans hreg⟩
  have hlen : c < x.line.qp.length := by rwa [hline]
  rw [State.qpStage_qpAt (lmod_length.symm ▸ hlen), State.updQp_qpAt_self hlen, State.qpAt_of_line hline]

/-! ### The end of a cycle -/

/-- A cycle of a controller has ended with an outcome other than OK, and its event is raised. -/
structure QpEnded (c o n : Nat) (st : QpState) (s : State) : Prop where
  outcome : (s.qpAt c).outcome = o
  fallbacks : (s.qpAt c).fallbacks = n
  state : (s.qpAt c).st = st
  event : s.rbit evQp (qpEventOf o) = true

namespace QpEnded

variable {o n : Nat} {st : QpState} {p : QpProb} {z : List Word}

theorem raise {b : Nat} (h : QpEnded c o n st s) : QpEnded c o n st (s.raise evQp b) := by
  have hq : (s.raise evQp b).qpAt c = s.qpAt c := State.qpAt_of_line State.raise_line
  exact ⟨by rw [hq, h.outcome], by rw [hq, h.fallbacks], by rw [hq, h.state], State.raise_bit_keeps (by decide) h.event⟩

section
variable (hl : c < s.line.qp.length)
include hl

/-- A change of a controller that is not one of its outcome and count, to a state of its own choice. -/
theorem updQp {f : QpCtl → QpCtl} {st' : QpState} (h : QpEnded c o n st s) (ho : ∀ q, (f q).outcome = q.outcome)
    (hn : ∀ q, (f q).fallbacks = q.fallbacks) (hs : (f (s.qpAt c)).st = st') : QpEnded c o n st' (s.updQp c f) := by
  have hq : (s.updQp c f).qpAt c = f (s.qpAt c) := State.updQp_qpAt_self hl
  exact ⟨by rw [hq, ho, h.outcome], by rw [hq, hn, h.fallbacks], by rw [hq, hs], h.event⟩

theorem qpFallback (h : QpEnded c o n st s) : QpEnded c o n st (s.qpFallback c) := by
  obtain ⟨outs, hq⟩ := State.qpFallback_qpAt hl
  exact ⟨by rw [hq, h.outcome], by rw [hq, h.fallbacks], by rw [hq, h.state],
    (State.qpFallback_in.rbit (by decide) (by decide) ..).trans h.event⟩

theorem qpStageZ (h : QpEnded c o n st s) : QpEnded c o n st (s.qpStageZ c p z) := by
  obtain ⟨⟨zs, outs, hq⟩, hreg⟩ := State.qpStageZ_leaves (p := p) (z := z) hl
  exact ⟨by rw [hq, h.outcome], by rw [hq, h.fallbacks], by rw [hq, h.state], (congrArg (wbit · _) hreg).trans h.event⟩

end

end QpEnded

theorem qpEventOf_lt (o : Nat) : qpEventOf o < 32 := by
  unfold qpEventOf
  split <;> decide

/-- A cycle that fails ends so; past the limit of FALLBACKS the controller is FAILED (R385, R386). -/
theorem State.qpFails_ended {o flags : Nat} (hc : c < 8) (hl : c < s.line.qp.length) :
    QpEnded c o ((s.qpAt c).fallbacks + 1)
      (if s.rfld (aQp c + 0x10) 31 24 < (s.qpAt c).fallbacks + 1 then .failed else .waiting) (s.qpFails c o flags) := by
  unfold State.qpFails
  extract_lets s1 n s2
  have hline : s1.line = s.line := by
    subst s1
    rw [State.raise_line]
    split
    · exact State.bumpHi_line
    · exact State.bumpLo_line
  have hlimit : s1.regGet (aQp c + 0x10) = s.regGet (aQp c + 0x10) := by
    subst s1
    rw [State.raise_regGet (by unfold aQp; omega), if_neg (by unfold aQp evQp; omega)]
    split <;> exact State.setFld_regGet_ne (by omega)
  have hn : n = (s.qpAt c).fallbacks + 1 := congrArg (fun q : QpCtl => q.fallbacks + 1) (State.qpAt_of_line hline)
  have hl1 : c < s1.line.qp.length := by rwa [hline]
  have hl2 : c < s2.line.qp.length := lmod_length.symm ▸ hl1
  have hq : s2.qpAt c = { s1.qpAt c with st := .waiting, outcome := o, fallbacks := n, flags := flags } := State.updQp_qpAt_self hl1
  have hended : QpEnded c o n .waiting s2 := by
    refine ⟨by rw [hq], by rw [hq], by rw [hq], ?_⟩
    exact State.raise_bit (by decide) (qpEventOf_lt o)
  have hrfld : s2.rfld (aQp c + 0x10) 31 24 = s.rfld (aQp c + 0x10) 31 24 := congrArg (fld · 31 24) hlimit
  rw [hrfld, ← hn]
  clear_value s2 n
  split
  · have hfailed := hended.updQp (f := fun q => { q with st := .failed }) hl2 (fun _ => rfl) (fun _ => rfl) rfl
    refine (hfailed.raise (b := 1)).qpFallback ?_
    rw [State.raise_line]
    exact lmod_length.symm ▸ hl2
  · have hlen {f : QpCtl → QpCtl} : c < (s2.updQp c f).line.qp.length := lmod_length.symm ▸ hl2
    split
    · split
      · exact .qpStageZ hlen (hended.updQp hl2 (fun _ => rfl) (fun _ => rfl) hended.state)
      · exact .qpFallback hlen (hended.updQp hl2 (fun _ => rfl) (fun _ => rfl) hended.state)
    · exact .qpFallback hlen (hended.updQp hl2 (fun _ => rfl) (fun _ => rfl) hended.state)

end Sys2Proof.Machine
end

section
/-!
The cycles of a controller (R380, R381, R383, R385): its start, the end of a solve, and the deadline.
-/
namespace Sys2Proof.Machine

section
variable {s u : State} {t c : Nat} (hu : s.to t = u)
include hu

theorem exec_qpCycleStart : exec (.qpCycleStart t c) s = .next (if u.qpDue c = true then u.qpCycle c else u) := by
  subst hu
  rfl

theorem exec_qpSolveDone {p : QpProb} (hp : (u.qpAt c).prob = some p) :
    exec (.qpSolveDone t c) s = .next (if u.qpSolving c false = true then u.qpSolve c p else u) := by
  subst hu
  show execQpSolveDone t c s = _
  simp only [execQpSolveDone, hp, guardNext]

theorem exec_qpDeadline (hs : u.qpSolving c true = true) : exec (.qpDeadline t c) s = .next ((u.qpTime c).qpFails c 1 0) := by
  subst hu
  show execQpDeadline t c s = _
  simp only [execQpDeadline, hs, guardNext, if_true]

end

section
variable {s w : State} {c : Nat} {p : QpProb} {es : List ThetaEntry} {th : List Word} {stale : Bool}

/-- Sampling θ draws free values and changes nothing else. -/
theorem State.thetaSample_in (e : s.thetaSample c es = (w, th, stale)) : OnlyIn [.fresh] s w := by
  have h : OnlyInL [.fresh] s (s.thetaSample c es) := State.thetaSample_only (by decide) (OnlyIn.refl _ s)
  rw [e] at h
  exact h

/-- The cycle of a controller that waits, with nothing staged and no input stale, samples θ and begins a solve. -/
theorem State.qpCycle_solves (hr : s.qpRanges c = true) (hst : (s.qpAt c).st = .waiting) (hp : (s.qpAt c).prob = some p)
    (hg : (s.qpAt c).staged = none) (ho : (s.qpAt c).outs = none) (hth : (s.bump (aQp c + 0x1C)).thetaSample c p.theta = (w, th, false)) :
    s.qpCycle c = w.updQp c (fun q => { q with theta := th, begun := some w.baseTickAt, startSp := w.sp, st := .solving }) := by
  have hnone : s.qpApply c = s := by simp only [State.qpApply, hp, ho]
  have hq : (s.bump (aQp c + 0x1C)).qpAt c = s.qpAt c := State.qpAt_of_line State.bump_line
  have hsolving : ((s.qpAt c).st == .solving) = false := by rw [hst]; rfl
  have hfailed : ((s.qpAt c).st == .failed) = false := by rw [hst]; rfl
  simp only [State.qpCycle, hr, hsolving, hnone, hq, hfailed, hg, hp, hth, Bool.not_true, Bool.false_eq_true, if_false]

end

/-- A cycle that is due counts, and its solve begins with the θ sampled (R381, R385). -/
theorem exec_qpCycleStart_solves {s u w : State} {t c : Nat} {p : QpProb} {th : List Word} (hu : s.to t = u) (hl : c < u.line.qp.length)
    (hdue : u.qpDue c = true) (hr : u.qpRanges c = true) (hst : (u.qpAt c).st = .waiting) (hp : (u.qpAt c).prob = some p)
    (hg : (u.qpAt c).staged = none) (ho : (u.qpAt c).outs = none)
    (hth : (u.bump (aQp c + 0x1C)).thetaSample c p.theta = (w, th, false)) :
    ∃ v, exec (.qpCycleStart t c) s = .next v ∧ (v.qpAt c).st = .solving ∧ (v.qpAt c).theta = th ∧
      (v.qpAt c).begun = some u.baseTickAt ∧ (v.qpAt c).startSp = u.sp ∧ v.regGet (aQp c + 0x1C) = u.regGet (aQp c + 0x1C) + 1#32 := by
  have hw := State.thetaSample_in hth
  have hline : w.line = u.line := hw.eq .line
  have hcourse : w.course = u.course := hw.eq .course
  have hbase : w.baseTickAt = u.baseTickAt := by rw [State.baseTickAt, State.baseTickAt, State.baseNow, State.baseNow, hline]
  have hsp : w.sp = u.sp := by rw [State.sp, State.sp, hcourse]
  have hq := State.updQp_qpAt_self (s := w) (hline ▸ hl)
    (f := fun q => { q with theta := th, begun := some w.baseTickAt, startSp := w.sp, st := .solving })
  refine ⟨_, (exec_qpCycleStart hu).trans (by rw [if_pos hdue, State.qpCycle_solves hr hst hp hg ho hth]), ?_, ?_, ?_, ?_, ?_⟩
  · rw [hq]
  · rw [hq]
  · rw [hq, hbase]
  · rw [hq, hsp]
  · exact (hw.regGet (by decide) (by decide) _).trans State.bump_regGet_self

end Sys2Proof.Machine
end

section
/-!
The commands of the controllers (R380, R387, R393), and the loads of their problems (R379).
-/
namespace Sys2Proof.Machine

variable {s : State} {h : Hdr} {c : Nat}

/-- A row that writes the number of a command and a controller into QP_CMD does the command to the controller. -/
theorem exec_qpCtlCmd {i : Instr} {n : Nat} {f : State → Nat → State} (hc : c < 8) (hn : n < 256)
    (he : exec i s = s.regCmd h 0x90010 (n * 2 ^ 24 + c % 8))
    (hf : ∀ (u : State) (w : Word), fld w 31 24 = n → u.qpCmd w = f u (fld w 2 0)) (k : Written s h 0x90010 (n * 2 ^ 24 + c)) :
    exec i s = .next ((f (s.atHost h) c).answered h 0x90010 (n * 2 ^ 24 + c)) := by
  rw [he, Nat.mod_eq_of_lt hc, regCmd_qpCmd k, hf _ _ (fld_wordOf_cmd hn (by omega)), fld_wordOf_operand hn (by decide) (by omega)]

theorem exec_qpEnable (hc : c < 8) (k : Written s h 0x90010 (0x1000000 + c)) :
    exec (.qpEnable h c) s = .next (((s.atHost h).qpEnable c).answered h 0x90010 (0x1000000 + c)) :=
  exec_qpCtlCmd (n := 1) hc (by decide) rfl (fun u w e => by simp only [State.qpCmd, e]) k

theorem exec_qpDisable (hc : c < 8) (k : Written s h 0x90010 (0x2000000 + c)) :
    exec (.qpDisable h c) s = .next (((s.atHost h).qpDisable c).answered h 0x90010 (0x2000000 + c)) :=
  exec_qpCtlCmd (n := 2) hc (by decide) rfl (fun u w e => by simp only [State.qpCmd, e]) k

theorem exec_qpRestart (hc : c < 8) (k : Written s h 0x90010 (0x3000000 + c)) :
    exec (.qpRestart h c) s = .next (((s.atHost h).qpRestart c).answered h 0x90010 (0x3000000 + c)) :=
  exec_qpCtlCmd (n := 3) hc (by decide) rfl (fun u w e => by simp only [State.qpCmd, e]) k

theorem exec_qpClear (hc : c < 8) (k : Written s h 0x90010 (0x4000000 + c)) :
    exec (.qpClearCounters h c) s = .next (((s.atHost h).qpClear c).answered h 0x90010 (0x4000000 + c)) :=
  exec_qpCtlCmd (n := 4) hc (by decide) rfl (fun u w e => by simp only [State.qpCmd, e]) k

theorem State.answered_qpAt {a v : Nat} : (s.answered h a v).qpAt c = s.qpAt c := State.qpAt_of_line State.answered_line

/-! ### ENABLE (R387) -/

section
variable {p : QpProb} (hst : (s.qpAt c).st = .off) (hp : (s.qpAt c).prob = some p)
include hst hp

/-- A controller that is OFF and has a problem may be judged for admission. -/
theorem State.qpEnable_judged : (s.qpOn c || (s.qpAt c).prob.isNone) = false := by simp [State.qpOn, hst, hp]

theorem State.qpEnable_outOfRange (hr : s.qpRanges c = false) :
    s.qpEnable c = (s.updLine (fun l => { l with qpCfgErr := true })).raise evQp 9 := by
  simp only [State.qpEnable, State.qpEnable_judged hst hp, hr, Bool.not_false, Bool.false_eq_true, if_false, if_true]

variable (hr : s.qpRanges c = true)
include hr

theorem State.qpEnable_tooDense (hd : (s.qpDensity (((List.range 8).filter s.qpOn) ++ [c])).2 <
    (s.qpDensity (((List.range 8).filter s.qpOn) ++ [c])).1) : s.qpEnable c = s.raise evQp 9 := by
  simp only [State.qpEnable, State.qpEnable_judged hst hp, hr, hd, Bool.not_true, Bool.false_eq_true, if_false, if_true]

theorem State.qpEnable_admits (hd : (s.qpDensity (((List.range 8).filter s.qpOn) ++ [c])).1 ≤
    (s.qpDensity (((List.range 8).filter s.qpOn) ++ [c])).2) : s.qpEnable c = s.updQp c (fun q => { q with
      st := .waiting, fallbacks := 0, flags := 0, warm := none, z := none, w := [], outs := none, begun := none }) := by
  simp only [State.qpEnable, State.qpEnable_judged hst hp, hr, Nat.not_lt.2 hd, Bool.not_true, Bool.false_eq_true, if_false]

end

/-! ### DISABLE and RESTART (R386, R393) -/

theorem State.qpDisable_off (hst : (s.qpAt c).st = .off) : s.qpDisable c = s := by
  simp [State.qpDisable, State.qpOn, hst]

/-- DISABLE of a controller that is on: it is OFF, NOT_RUN, and its FALLBACK values are staged. -/
theorem State.qpDisable_on (hl : c < s.line.qp.length) (hst : (s.qpAt c).st ≠ .off) : ((s.qpDisable c).qpAt c).st = .off ∧
    ((s.qpDisable c).qpAt c).outcome = 6 ∧
      ∀ p, (s.qpAt c).prob = some p → ((s.qpDisable c).qpAt c).outs = some (p.outs.map (·.fallback)) := by
  have hon : (!s.qpOn c) = false := by simp [State.qpOn, hst]
  rw [State.qpDisable, hon, if_neg Bool.false_ne_true]
  generalize hx : s.updQp c _ = x
  have hq : x.qpAt c = { s.qpAt c with st := .off, outcome := 6, warm := none, z := none, w := [] } := by
    rw [← hx, State.updQp_qpAt_self hl]
  have hlen : c < x.line.qp.length := by
    rw [← hx]
    exact lmod_length.symm ▸ hl
  obtain ⟨outs, hfb⟩ := State.qpFallback_qpAt hlen
  refine ⟨by rw [hfb, hq], by rw [hfb, hq], fun p hp => ?_⟩
  have hpx : (x.qpAt c).prob = some p := by rw [hq, ← hp]
  rw [State.qpFallback_some hpx, State.qpStage_qpAt hlen]

theorem State.qpRestart_failed (hl : c < s.line.qp.length) (hst : (s.qpAt c).st = .failed) : (s.qpRestart c).qpAt c =
    { s.qpAt c with st := .waiting, fallbacks := 0, warm := none, z := none, w := [] } := by
  have hno : ((s.qpAt c).st != .failed) = false := by simp [hst]
  rw [State.qpRestart, hno, if_neg Bool.false_ne_true, State.updQp_qpAt_self hl]

theorem State.qpRestart_other (hst : (s.qpAt c).st ≠ .failed) : s.qpRestart c = s := by
  simp [State.qpRestart, hst]

/-! ### CLEAR_COUNTERS and loads (R379, R393) -/

theorem exec_qpClearCounters (hc : c < 8) (k : Written s h 0x90010 (0x4000000 + c)) : ∃ v, exec (.qpClearCounters h c) s = .next v ∧
    (∀ o ∈ [0x1C, 0x24, 0x28], v.regGet (aQp c + o) = 0#32) ∧ v.line = (s.atHost h).line := by
  refine ⟨_, exec_qpClear hc k, fun o ho => ?_, ?_⟩
  · rw [State.answered_in.regGet, State.qpClear, State.clear_regGet (f := fun o => aQp c + o), if_pos (List.mem_map_of_mem ho)]
  · rw [State.answered_line, State.qpClear]
    exact (State.clear_in (f := fun o => aQp c + o)).eq .line

theorem State.bulkIn_line {p : Packet} {len : Nat} (hl : len ≠ 0) (hr : s.deferredCnt < 8) : (s.bulkIn p len).line = s.line := by
  unfold State.bulkIn State.defer
  rw [if_neg hl, if_neg (Nat.not_le.2 hr)]
  exact (State.bulkNext_only (by decide) (OnlyIn.refl [.sdio] _)).eq .line

/-- A problem is loaded by a bulk transfer, which waits for its data. -/
theorem exec_qpLoad {len : Nat} (k : Carried s h (.qpLoad c len)) (hl : len ≠ 0) (hr : (s.atHost h).deferredCnt < 8) :
    ∃ v, exec (.qpLoad h c len) s = .next v ∧ v.deferredCnt = (s.atHost h).deferredCnt + 1 ∧ v.line = (s.atHost h).line ∧
      v.sdio.replies = (s.atHost h).sdio.replies := by
  obtain ⟨hcnt, -, hreplies⟩ := State.bulkIn_waits hl hr (p := packetOf h.tag h.client (.qpLoad c len))
  exact ⟨_, by rw [exec_carried rfl k, hostRun_qpLoad], hcnt, State.bulkIn_line hl hr, hreplies⟩

/-- Settles O38: each clause is the law of its event or command above. -/
theorem controllersSolveAndFallBack : Obligations.ControllersSolveAndFallBack := by
  intro t c h s u y hc hlu hl
  refine ⟨fun hdue => ?starts, fun hdue => ?waits, ?solves, ?done, fun hs => exec_qpDeadline rfl hs, ?fails, ?enable, ?disable, ?restart,
    exec_qpClearCounters hc, fun len k hlen hr => exec_qpLoad k hlen hr⟩
  case starts => rw [exec_qpCycleStart rfl, if_pos hdue]
  case waits => rw [exec_qpCycleStart rfl, if_neg (by rw [hdue]; decide)]
  case solves => exact fun p w th hdue hr hst hp hg ho hth => exec_qpCycleStart_solves rfl hlu hdue hr hst hp hg ho hth
  case done =>
    intro p hp
    rw [exec_qpSolveDone rfl hp]
    exact ⟨fun hs => by rw [if_pos hs], fun hs => by rw [if_neg (by rw [hs]; decide)]⟩
  case fails =>
    intro o flags
    obtain ⟨houtcome, hfallbacks, hstate, hevent⟩ := State.qpFails_ended (o := o) (flags := flags) hc hlu
    exact ⟨houtcome, hfallbacks, hstate, hevent⟩
  case enable =>
    intro k hst p hp q
    have e := exec_qpEnable hc k
    refine ⟨fun hr hd => ⟨_, e, ?_⟩, fun hr hd => ⟨_, e, ?_⟩, fun hr => ⟨_, e, ?_⟩⟩
    · rw [State.answered_qpAt, State.qpEnable_admits hst hp hr hd, State.updQp_qpAt_self hl]
      exact ⟨rfl, rfl, rfl, hp⟩
    · rw [State.answered_line, State.answered_in.rbit, State.qpEnable_tooDense hst hp hr hd, State.raise_line,
        State.raise_bit (by decide) (by decide)]
      exact ⟨rfl, rfl⟩
    · rw [State.answered_qpAt, State.answered_line, State.answered_in.rbit, State.qpEnable_outOfRange hst hp hr,
        State.qpAt_of_line State.raise_line, State.raise_line, State.raise_bit (by decide) (by decide)]
      exact ⟨hst, rfl, rfl⟩
  case disable =>
    intro k
    refine ⟨fun hst => ⟨_, exec_qpDisable hc k, ?_⟩, fun hst => by rw [exec_qpDisable hc k, State.qpDisable_off hst]⟩
    rw [State.answered_qpAt]
    exact State.qpDisable_on hl hst
  case restart =>
    intro k
    refine ⟨fun hst => ⟨_, exec_qpRestart hc k, ?_⟩, fun hst => by rw [exec_qpRestart hc k, State.qpRestart_other hst]⟩
    rw [State.answered_qpAt, State.qpRestart_failed hl hst]
    exact ⟨rfl, rfl, rfl⟩

end Sys2Proof.Machine
end
